-- ==== Sys2Proof/Word.lean ====
section
/-! DEFINITION. Words, bytes and their plainest arithmetic. -/

namespace Sys2Proof

/-- A register word (32 bits, R6). -/
abbrev Word := BitVec 32

/-- A byte of memory. -/
abbrev Byte := BitVec 8

end Sys2Proof
end

