-- ==== Sys2Proof/Syntax.lean ====
section
/-! DEFINITION. The commands of the block: one constructor per row of spec/opcode_table.json, in the table's order. Times
(`t`) are in F: KT72 in the low 72 bits, and above them one for each epoch load so far (log entry 18); register-write rows carry the port the write comes from and the word written. -/

namespace Sys2Proof

/-- Who makes a register access: the host (BAR0), the station port (its window, R342) or a script (R379). -/
inductive Port where
  | host | station | script
  deriving DecidableEq, Repr

/-- A front-end tile FET0–FET3 (R9). -/
abbrev Tile := Fin 4

/-- A channel CH0–CH1023. -/
abbrev Chan := Fin 1024

/-- An ADPLL: 0 S, 1 C, 2 M (R108). -/
abbrev Pll := Fin 3

/-- A power feed. -/
inductive Feed where
  | a | b
  deriving DecidableEq, Repr

/-- The sources of a warm reset (R18). -/
inductive WarmSrc where
  | pin | soft | watchdog | perst
  deriving DecidableEq, Repr

/-- The states a feed enters when it leaves its range (R393). -/
inductive FeedFault where
  | low | high | reversed | shorted
  deriving DecidableEq, Repr

/-- A judgement of a lock monitor (R130): phase error in ps, loop filter at its limit, oscillator code at its clamp. -/
structure Judge where
  ps : Int
  atLimit : Bool
  atClamp : Bool
  deriving DecidableEq, Repr

/-- What a lock loss rests on (R131): the two judgements that failed, and the time of the last one passed before them. -/
structure Judged where
  j1 : Judge
  j2 : Judge
  tPass : Nat
  deriving DecidableEq, Repr

/-- An edge of PPS_IN (R81): its direction, and its time. -/
structure PpsIn where
  up : Bool
  t : Nat
  deriving DecidableEq, Repr

/-- A measurement of REF_IN over 10 ms (R80): its frequency in Hz, and when it ends. -/
structure RefIn where
  hz : Nat
  t : Nat
  deriving DecidableEq, Repr

/-- CLK_EXT leaves its conditions (R114, R116): whether edges are still seen, and when. -/
structure ExtLoss where
  edges : Bool
  t : Nat
  deriving DecidableEq, Repr

/-- The end of a migration (R286): the addresses whose data could not be corrected, and when. -/
structure Migration where
  bad : List Nat
  t : Nat
  deriving DecidableEq, Repr

/-- A grant of a memory (R293): how long after its request, without the time that R293 leaves out, and when. -/
structure Grant where
  wait : Nat
  t : Nat
  deriving DecidableEq, Repr

/-- A range that is read from memory (R275, R283): the addresses with a corrected error, those with an uncorrectable one, and the grant. -/
structure MemRead where
  corr : List Nat
  uncorr : List Nat
  g : Grant
  deriving DecidableEq, Repr

/-- What a pseudo-channel's reads have met in one second (R283, R285), those of BAR2 and COPY descriptors apart: corrected symbols,
the addresses that could not be corrected, and grants of its other requesters that came late (R293). -/
structure Second where
  symbols : Nat
  uncorr : List Nat
  late : Nat
  deriving DecidableEq, Repr

/-- What Rake meets in a region it leases (R295, R297): the cells its test finds failing, the corrected and the uncorrectable words that
the copy to the shadow meets, by their offset in the region or, in deep memory, by user address, and how long its grant takes (R293). -/
structure Leased where
  fails : List (Nat × Nat)
  corr : List Nat
  uncorr : List Nat
  wait : Nat
  deriving DecidableEq, Repr

/-- The end of a Graft link (R354): whether block lock is lost, and when. -/
structure LinkLoss where
  lost : Bool
  t : Nat
  deriving DecidableEq, Repr

/-- A control register in configuration space (R307): Device Control, the control register of Advanced Error Reporting, its mask of
uncorrectable errors, L1 PM Substates Control 1, and Message Control of MSI-X. -/
inductive CfgReg where
  | device | aer | aerMask | l1 | msix
  deriving DecidableEq, Repr

/-- A request of the PCI Express host that takes the link out of L1.2 (R30): a read of a word of configuration space, a write of a
control register there, a read or write of BAR0 or BAR2, or another exit. -/
inductive HostReq where
  | config (a : Nat)
  | configWrite (r : CfgReg) (v : Word)
  | barRead (a : Nat)
  | barWrite (a : Nat) (be : BitVec 4) (v : Word)
  | bar2Read (a len : Nat) (corr uncorr : List Nat)
  | bar2Write (a : Nat) (data : List Byte)
  | other
  deriving DecidableEq, Repr

/-- The commands of the Kameth. -/
inductive Instr where
  | registerWrite (p : Port) (a : Nat) (be : BitVec 4) (v : Word)
  | captureRead (p : Port) (a : Nat)
  | glbModeWrite (p : Port) (v : Word)
  | modeChange (t : Nat)
  | returnToMode (t : Nat)
  | softReset (p : Port) (v : Word) (t : Nat)
  | modResetN (t : Nat)
  | pciePerstN (t : Nat)
  | warmReset (sel : Fin 4) (sigN : Bool) (t : Nat)
  | functionLevelReset (t : Nat)
  | d3hot (bme : Bool) (t : Nat)
  | thresholdCalibration (p : Port) (readings : List (Chan × Int)) (t : Nat)
  | probeCheckStart (p : Port) (viaTask : Bool) (t : Nat)
  | probeActivityWindowClose (t : Nat)
  | probeChannelMeasurement (ch : Chan) (v0 v1 : Int) (t : Nat)
  | injectorCalibration (p : Port) (results : List (Chan × Int)) (t : Nat)
  | tdcCalibration (p : Port) (failed : List Chan) (t : Nat)
  | selfTest (p : Port) (fails : List (Nat × Nat)) (t : Nat)
  | m7TaskClear (p : Port) (v : Word)
  | m7TaskComplete (t : Nat)
  | channelEdge (ch : Chan) (v : Int) (beyond : Bool) (traw sstart : Nat)
  | latchClear (p : Port) (ch : Chan) (viaBitmap : Bool) (t : Nat)
  | latchPeriodTick (ch : Chan) (t : Nat)
  | latchPeriodWrite (p : Port) (ch : Chan) (v : Word) (t : Nat)
  | latchPeriodSync (p : Port) (v : Word) (t : Nat)
  | thresholdWrite (p : Port) (ch : Chan) (cfg : Bool) (v : Word) (t : Nat)
  | resolution (ch : Chan) (v : Int) (t : Nat)
  | thresholdReadback (ch : Chan) (c0 c1 c2 c3 : Int) (t : Nat)
  | overdrive (ch : Chan) (t : Nat)
  | overdriveEnd (ch : Chan) (t : Nat)
  | epochLoadArm (p : Port) (v : Word)
  | epochCancel (p : Port) (v : Word)
  | epochLoad (t : Nat)
  | ppsEdge (e : PpsIn)
  | ppsTimeout (t : Nat)
  | refInValid (m : RefIn)
  | refInInvalid (t : Nat)
  | refLockTimer (t : Nat)
  | tcompUpdate (temp : Int) (t : Nat)
  | ppsOutPulse (t : Nat)
  | ppsOutPulseEnd (t : Nat)
  | deskewTermWrite (p : Port) (ch : Chan) (user : Bool) (v : Word) (t : Nat)
  | deskewApply (t : Nat)
  | gatherStart (p : Port) (v : Word) (t : Nat)
  | gatherAbort (p : Port) (v : Word) (t : Nat)
  | gatherClose (t : Nat)
  | sampleSourceWrite (p : Port) (v : Word)
  | sampleSourceSwitch (t : Nat)
  | clkExtInvalid (l : ExtLoss)
  | clkExtDrift (err : Int) (t : Nat)
  | clkExtValid (err : Int) (t : Nat)
  | extClockReturn (t : Nat)
  | adpllEnable (p : Port) (x : Pll) (v : Word) (t : Nat)
  | search (p : Port) (x : Pll) (v : Word) (t : Nat)
  | bandSearchDone (x : Pll) (ok : Bool) (band : Fin 64) (code : Fin 1024) (t : Nat)
  | bandTableWrite (p : Port) (x : Pll) (i : Fin 16) (isCode : Bool) (v : Word)
  | btMiss (x : Pll) (t : Nat)
  | adpllLocked (x : Pll) (code : Fin 1024) (t : Nat)
  | qualifyComplete (x : Pll) (t : Nat)
  | dllLockAcquired (tile : Tile) (t : Nat)
  | adpllFailed (x : Pll) (t : Nat)
  | clockFailureReset (x : Pll) (t : Nat)
  | hopRequest (p : Port) (v : Word) (t : Nat)
  | hopCancel (p : Port) (v : Word) (t : Nat)
  | hopForce (p : Port) (v : Word) (t : Nat)
  | hopStart (t : Nat)
  | lockLoss (x : Pll) (j : Judged) (t : Nat)
  | holdoverRecovered (x : Pll) (t : Nat)
  | holdoverOutOfRange (x : Pll) (err : Int) (t : Nat)
  | holdoverTimeout (x : Pll) (t : Nat)
  | dllLockLoss (tile : Tile) (t : Nat)
  | dllRelockTimeout (tile : Tile) (t : Nat)
  | trellisBranchTaken (k : Nat) (retry second : Bool) (group slot : Fin 16)
  | trigOutPulseEnd (n : Fin 4) (t : Nat)
  | timerLimitReached (n : Fin 16) (t : Nat)
  | programCheck (p : Port) (v : Word)
  | arm (p : Port) (v : Word) (t : Nat)
  | forceTrig (p : Port) (v : Word) (t : Nat)
  | prefillComplete (t : Nat)
  | prefillTimeLimit (t : Nat)
  | postfillEnd (t : Nat)
  | segmentChain (t : Nat)
  | stop (p : Port) (v : Word) (t : Nat)
  | acqTimeout (t : Nat)
  | acqIdle (t : Nat)
  | storageStall (tile : Tile) (t : Nat)
  | storageResume (t : Nat)
  | hedgeMissing (rule : Fin 64) (ch : Chan) (t : Nat)
  | hedgeTailEnd (t : Nat)
  | ruleCheck (p : Port) (v : Word)
  | reductionIntervalEnd (ru : Fin 8) (t : Nat)
  | reductionFlushTimeout (ru : Fin 8) (t : Nat)
  | flush (p : Port) (v : Word) (t : Nat)
  | sieveBlockOffer (tile : Tile) (t : Nat)
  | sieveReservation (tile : Tile) (t : Nat)
  | sievePassThrough (tile : Tile) (t : Nat)
  | sieveBlockWrite (lane : Fin 32) (wait t : Nat)
  | gateInputEdge (i : Fin 8) (rising : Bool) (t : Nat)
  | lossEpisodeEnd (t : Nat)
  | timedGateClose (slot : Fin 64) (t : Nat)
  | staleTimestampDiscard (slot : Fin 64) (t : Nat)
  | dmcInit (p : Port) (v : Word) (t : Nat)
  | dmcInitDone (fails : List (Fin 128)) (t : Nat)
  | dmcApply (p : Port) (v : Word)
  | dmcRetire (p : Port) (v : Word) (t : Nat)
  | retireThreshold (pc : Fin 128) (q : Second) (t : Nat)
  | migrationComplete (m : Migration)
  | rowSpare (pc : Fin 128) (row : Nat) (t : Nat)
  | refreshDue (pc : Fin 128) (blocked : Bool) (t : Nat)
  | owedRefreshIssue (pc : Fin 128) (t : Nat)
  | stackTempReading (s : Fin 4) (temp : Int) (t : Nat)
  | rakeLease (target : Fin 3) (q : Leased) (t : Nat)
  | rakeLeaseRelease (target : Fin 3) (t : Nat)
  | rakePreempt (target : Fin 3) (t : Nat)
  | nearClearDone (t : Nat)
  | deepClearDone (t : Nat)
  | bar2Read (a len : Nat) (corr uncorr : List Nat) (g : Grant)
  | bar2Write (a : Nat) (data : List Byte) (g : Grant)
  | laneDownshift (width : Nat) (speed : Nat) (t : Nat)
  | descriptorTailWrite (p : Port) (n : Fin 16) (v : Word) (t : Nat)
  | descriptorFetch (n : Fin 16) (bytes : List Byte) (t : Nat)
  | descriptorFetchError (n : Fin 16) (t : Nat)
  | copyDescriptor (n : Fin 16) (r : MemRead)
  | followBufferComplete (n : Fin 16) (t : Nat)
  | followFlushTimeout (n : Fin 16) (t : Nat)
  | followOverrun (n : Fin 16) (t : Nat)
  | ringDisable (p : Port) (n : Fin 16) (v : Word) (t : Nat)
  | cqHeadWrite (p : Port) (m : Fin 16) (v : Word) (t : Nat)
  | cqModerationTimeout (m : Fin 16) (t : Nat)
  | stationRead (a : Nat) (hostWord : Option Nat) (hostWrites : Bool) (t : Nat)
  | stationWrite (a : Nat) (d : BitVec 16) (hostWord : Option Nat) (hostWrites : Bool) (t : Nat)
  | windowRead (t : Nat)
  | windowWrite (t : Nat)
  | hostDoorbell (p : Port) (v : Word)
  | stationDoorbell (d : BitVec 16) (t : Nat)
  | trigFrame (port : Fin 4) (hop : Fin 16) (src : Fin 4096) (seq : Fin 256) (mark : Fin 256) (coarse : Bool) (kt t : Nat)
  | syncFrame (port : Fin 4) (unit : Fin 4096) (t3 t1 t2 t : Nat)
  | syncSend (port : Fin 4) (t : Nat)
  | frameDiscard (port : Fin 4) (bits blocks t : Nat)
  | portEnable (p : Port) (port : Fin 4) (v : Word) (t : Nat)
  | linkTimeout (port : Fin 4) (l : LinkLoss)
  | aonPowerUp (sel : Fin 4) (sigN : Bool)
  | wakeFromOff (t : Nat)
  | imageCheck (size : Nat) (t : Nat)
  | loadTimeout (t : Nat)
  | write (t : Nat)
  | rmw (t : Nat)
  | poll (t : Nat)
  | pollConditionMet (t : Nat)
  | pollTimeout (t : Nat)
  | wait (t : Nat)
  | waitExpiry (t : Nat)
  | branchVariant (t : Nat)
  | branchStatus (t : Nat)
  | callEvent (t : Nat)
  | endScript (t : Nat)
  | autoArm (t : Nat)
  | eventScriptStart (t : Nat)
  | hksRun (p : Port) (v : Word) (t : Nat)
  | watchdogFeed (p : Port) (v : Word) (t : Nat)
  | watchdogExpiry (t : Nat)
  | nvRead (p : Port) (v : Word) (t : Nat)
  | nvProgram (p : Port) (v : Word) (t : Nat)
  | nvErase4K (p : Port) (v : Word) (t : Nat)
  | nvErase64K (p : Port) (v : Word) (t : Nat)
  | nvDone (t : Nat)
  | nvTimeout (t : Nat)
  | latchWake (t : Nat)
  | timerWake (t : Nat)
  | hostWake (r : HostReq) (t : Nat)
  | armOnWake (t : Nat)
  | feedLeavesRange (f : Feed) (k : FeedFault) (mv : Int) (t : Nat)
  | feedSenseTest (f : Feed) (shorted : Bool) (mv : Int) (t : Nat)
  | feedGood (f : Feed) (mv : Int) (t : Nat)
  | revert (t : Nat)
  | hostFeedSwitch (p : Port) (v : Word) (t : Nat)
  | rideThrough (f : Feed) (t : Nat)
  | orderlyLossSequence (t : Nat)
  | harvestCutoff (t : Nat)
  | railsOff (t : Nat)
  | dumpEnd (ok : Bool) (t : Nat)
  | phaseFailure (rail : Fin 8) (fault : Bool) (t : Nat)
  | holdupTest (pct : Nat) (t : Nat)
  | outputFault (o : Fin 6) (t : Nat)
  | outputFaultEnd (o : Fin 6) (t : Nat)
  | thermalReading (temps : List (Nat × Int)) (t : Nat)
  | thermalTrip (sensor : Fin 14) (temp : Int) (t : Nat)
  | thermalRestart (t : Nat)
  | residueMismatch (unit : Fin 9) (group : Fin 256) (slot : Fin 16) (second : Bool) (t : Nat)
  | laneFail (ch : Chan) (t : Nat)
  | spareLaneMeasured (g : Fin 16) (t : Nat)
  | spareLaneSwap (g : Fin 16) (t : Nat)
  | bbxFreeze (p : Port) (v : Word)
  | bbxUnfreeze (p : Port) (v : Word)
  | bbxClear (p : Port) (v : Word)
  | bbxPrep (p : Port) (v : Word) (t : Nat)
  | bbxRegionRead (t : Nat)
  | bbxPrepDone (ok : Bool) (t : Nat)
  | extest
  | idcode
  | samplePreload
  | clamp
  | highz
  | extestPulse
  | extestTrain
  | bypass
  | alwaysOnPowerLoss
  | feedQual (f : Feed) (mv : Int) (t : Nat)
  | feedMargin (f : Feed) (back : Bool) (mv : Int) (t : Nat)
  | returnToD0 (bme : Bool) (t : Nat)
  | linkRetrain (width speed : Nat) (t : Nat)
  | l1_2Entry (t : Nat)
  | pcieLinkUp (width speed : Nat) (t : Nat)
  deriving DecidableEq, Repr

end Sys2Proof
end

