-- ==== Sys2Proof/Config.lean ====
section
/-! DEFINITION. What an implementation fixes and the spec leaves open: opaque constants, so that no proof can see a value.
Each draw of a free value uses the counter `State.free`, which advances with the draw. -/

namespace Sys2Proof.Config

/-- The k-th free value: what the hardware happens to give where the spec fixes no value (log entry 3). -/
opaque freeValue : Nat → Nat

/-- A byte of memory whose contents the spec leaves unspecified (R280): the k-th such memory, by address. -/
opaque freeByte : Nat → Nat → Byte

/-- The frequency part of the loop term of the reference discipline in 2^-40 (R67, R79), after the k-th update: the spec gives no
loop equation. -/
opaque loopTerm : Nat → Int

/-- What the phase part of the loop term would be after the k-th update without the limit of R83, in 2^-40. -/
opaque loopPhase : Nat → Int

/-- The token stream, END included, that an encoder of a given core version makes of a block at a level (R240): the spec fixes the
streams that are valid, not the encoder's choice among them. -/
opaque sieveStream : Nat → Nat → List (BitVec 8) → List (BitVec 8)

/-- What is drawn from VIO_REF while no feed carries the always-on domain since a given time, in mA (R435). -/
opaque vioLoad : Nat → Nat

/-- How long its hold-up then lasts with more than 60 mA drawn: the spec gives no figure (R435). -/
opaque holdUp : Nat → Nat

/-- Berhild's JEDEC manufacturer identity, 11 bits (R438): the spec does not print it. -/
opaque jedecId : Nat

/-- Berhild's PCI Express identifier (R306), which the spec does not give. -/
opaque vendorId : BitVec 16

/-- Offset of a control register in configuration space, by its number (R307), which the spec does not give. -/
opaque cfgAt : Nat → Nat

/-- Offset of the Device Serial Number capability in extended configuration space (R306), which the spec does not give. -/
opaque dsnAt : Nat

end Sys2Proof.Config
end

