-- ==== Sys2Proof/Machine/RegMap.lean ====
section
/-! DEFINITION. The register map of BAR0 (R423) and of the station-port window (R348): one constant per field, with its
address, bits, access code (R6) and reset value, as the register tables of spec/ give them, and one row per register with
its reset domain (R8, R425). A field whose value the machine computes from other state has no entry in its row. -/

namespace Sys2Proof.Machine

/-- Access codes of R6 (no field is RWS, R425). -/
inductive Acc where
  | rw | ro | wo | w1c | w1s
  deriving DecidableEq, Repr

/-- Reset domains of R8; `none` marks a write-only register (R425). -/
inductive Dom where
  | cold | warm | aon | none
  deriving DecidableEq, Repr

/-- One register field: BAR0 byte address of its register, lowest bit, width, access code, reset value, and the least and
greatest value a write stores (0: no limit). -/
structure Fld where
  addr : Nat
  lo : Nat
  w : Nat
  acc : Acc
  rst : Nat
  mn : Nat
  mx : Nat
  deriving DecidableEq, Repr

/-- The bit address of a field: the key under which State holds it. -/
def Fld.key (f : Fld) : Nat := 8 * f.addr + f.lo

/-- The field's bits of a written word. -/
def Fld.of (f : Fld) (v : Nat) : Nat := v / 2 ^ f.lo % 2 ^ f.w

/-- A part of a value wider than one word, as one word shows it: the wide field, the shift, and the bits of the word. -/
structure Slice where
  fld : Fld
  shift : Nat
  lo : Nat
  w : Nat
  deriving DecidableEq, Repr

/-- One register, or an array of registers with one or two indices (stride and count of each). -/
structure RegRow where
  base : Nat
  s1 : Nat
  c1 : Nat
  s2 : Nat
  c2 : Nat
  dom : Dom
  flds : Nat → Nat → List Fld
  slices : Nat → List Slice

/-- Reset masks of R280, low words. -/
def hashResetLo : List Nat :=
  [0x40800400, 0x81000800, 0x02001000, 0x04002000, 0x08004000, 0x10008000, 0x20010000, 0x08020000, 0x10040000,
   0x20080000, 0x40100000, 0x80200000, 0x00400000]

/-- Reset masks of R280, high words. -/
def hashResetHi : List Nat := [0, 0, 1, 2, 4, 8, 16, 0, 0, 0, 0, 0, 1]

def INP_LTIME_kt (i : Nat) : Fld := ⟨0x30010 + 64 * i, 0, 72, .ro, 0, 0, 0⟩
def TRL_CTn_VAL (i : Nat) : Fld := ⟨0x54008 + 32 * i, 0, 48, .ro, 0, 0, 0⟩
def TRL_LAST_kt : Fld := ⟨0x50030, 0, 72, .ro, 0, 0, 0⟩
def ACQ_SEG_CAP : Fld := ⟨0x60028, 0, 48, .ro, 0, 0, 0⟩
def ACQ_LOST : Fld := ⟨0x60080, 0, 64, .ro, 0, 0, 0⟩
def ACQ_LAST_DEAD : Fld := ⟨0x60088, 0, 64, .ro, 0, 0, 0⟩
def ACQ_TRIG_kt : Fld := ⟨0x60090, 0, 72, .ro, 0, 0, 0⟩
def HDG_LAST_kt : Fld := ⟨0x70020, 0, 72, .ro, 0, 0, 0⟩
def RED_RUn_LOST (i : Nat) : Fld := ⟨0x81028 + 256 * i, 0, 64, .ro, 0, 0, 0⟩
def SIV_BLK : Fld := ⟨0x90030, 0, 64, .ro, 0, 0, 0⟩
def SIV_RAW : Fld := ⟨0x90038, 0, 64, .ro, 0, 0, 0⟩
def SIV_PASS : Fld := ⟨0x90040, 0, 64, .ro, 0, 0, 0⟩
def SIV_IN : Fld := ⟨0x90048, 0, 64, .ro, 0, 0, 0⟩
def SIV_OUT : Fld := ⟨0x90050, 0, 64, .ro, 0, 0, 0⟩
def TIM_QLOST : Fld := ⟨0xa0028, 0, 64, .ro, 0, 0, 0⟩
def TIM_BAD : Fld := ⟨0xa0030, 0, 64, .ro, 0, 0, 0⟩
def HRV_BYTES : Fld := ⟨0xe0018, 0, 64, .ro, 0, 0, 0⟩
def GRF_GLn_LAST_kt (i : Nat) : Fld := ⟨0x100120 + 64 * i, 0, 96, .ro, 0, 0, 0⟩
def DMC_ERR_addr : Fld := ⟨0xc0060, 0, 37, .ro, 0, 0, 0⟩
def GLB_ID_part : Fld := ⟨0x0, 16, 16, .ro, 0x4b4d, 0, 0⟩
def GLB_ID_family : Fld := ⟨0x0, 8, 8, .ro, 1, 0, 0⟩
def GLB_ID_variant : Fld := ⟨0x0, 0, 4, .ro, 0, 0, 0⟩
def GLB_DIE_VER_core_ver : Fld := ⟨0x4, 24, 8, .ro, 0, 0, 0⟩
def GLB_DIE_VER_fet_ver : Fld := ⟨0x4, 16, 8, .ro, 0, 0, 0⟩
def GLB_DIE_VER_sram_ver : Fld := ⟨0x4, 8, 8, .ro, 0, 0, 0⟩
def GLB_DIE_VER_module_ver : Fld := ⟨0x4, 0, 8, .ro, 0, 0, 0⟩
def GLB_SERIAL_LO_serial : Fld := ⟨0x8, 0, 32, .ro, 0, 0, 0⟩
def GLB_SERIAL_HI_serial : Fld := ⟨0xc, 0, 32, .ro, 0, 0, 0⟩
def GLB_CONFIG_nchan : Fld := ⟨0x10, 16, 12, .ro, 0, 0, 0⟩
def GLB_CONFIG_nfet : Fld := ⟨0x10, 8, 4, .ro, 0, 0, 0⟩
def GLB_CONFIG_nstack : Fld := ⟨0x10, 0, 4, .ro, 0, 0, 0⟩
def GLB_MODE_wake_mode : Fld := ⟨0x20, 8, 3, .rw, 1, 0, 0⟩
def GLB_MODE_comp_pair : Fld := ⟨0x20, 5, 1, .rw, 0, 0, 0⟩
def GLB_MODE_composite : Fld := ⟨0x20, 4, 1, .rw, 0, 0, 0⟩
def GLB_MODE_mode : Fld := ⟨0x20, 0, 3, .rw, 1, 0, 0⟩
def GLB_STAT_ret_pend : Fld := ⟨0x24, 17, 1, .ro, 0, 0, 0⟩
def GLB_STAT_mode_pend : Fld := ⟨0x24, 16, 1, .ro, 0, 0, 0⟩
def GLB_STAT_comp_active : Fld := ⟨0x24, 5, 1, .ro, 0, 0, 0⟩
def GLB_STAT_acq_busy : Fld := ⟨0x24, 4, 1, .ro, 0, 0, 0⟩
def GLB_STAT_active_mode : Fld := ⟨0x24, 0, 3, .ro, 1, 0, 0⟩
def GLB_RST_key : Fld := ⟨0x30, 16, 16, .wo, 0, 0, 0⟩
def GLB_RST_warm : Fld := ⟨0x30, 0, 1, .wo, 0, 0, 0⟩
def GLB_RST_CTL_perst_warm : Fld := ⟨0x34, 0, 1, .rw, 0, 0, 0⟩
def GLB_RST_CAUSE_perst : Fld := ⟨0x38, 7, 1, .w1c, 0, 0, 0⟩
def GLB_RST_CAUSE_watchdog : Fld := ⟨0x38, 6, 1, .w1c, 0, 0, 0⟩
def GLB_RST_CAUSE_soft : Fld := ⟨0x38, 5, 1, .w1c, 0, 0, 0⟩
def GLB_RST_CAUSE_pin : Fld := ⟨0x38, 4, 1, .w1c, 0, 0, 0⟩
def GLB_RST_CAUSE_off : Fld := ⟨0x38, 1, 1, .w1c, 0, 0, 0⟩
def GLB_RST_CAUSE_aon : Fld := ⟨0x38, 0, 1, .w1c, 1, 0, 0⟩
def GLB_M7_TASK_busy : Fld := ⟨0x40, 31, 1, .ro, 0, 0, 0⟩
def GLB_M7_TASK_refused : Fld := ⟨0x40, 30, 1, .w1c, 0, 0, 0⟩
def GLB_M7_TASK_done : Fld := ⟨0x40, 29, 1, .w1c, 0, 0, 0⟩
def GLB_M7_TASK_task_run : Fld := ⟨0x40, 24, 3, .ro, 0, 0, 0⟩
def GLB_M7_TASK_last_task : Fld := ⟨0x40, 16, 3, .ro, 0, 0, 0⟩
def GLB_M7_TASK_last_status : Fld := ⟨0x40, 8, 2, .ro, 0, 0, 0⟩
def GLB_M7_TASK_task : Fld := ⟨0x40, 0, 3, .wo, 0, 0, 0⟩
def INP_THR_code (i : Nat) : Fld := ⟨0x30000 + 64 * i, 0, 12, .rw, 0x666, 0, 0⟩
def INP_CFG_drift_en (i : Nat) : Fld := ⟨0x30004 + 64 * i, 11, 1, .rw, 1, 0, 0⟩
def INP_CFG_pchk_en (i : Nat) : Fld := ⟨0x30004 + 64 * i, 10, 1, .rw, 1, 0, 0⟩
def INP_CFG_to_wake (i : Nat) : Fld := ⟨0x30004 + 64 * i, 9, 1, .rw, 0, 0, 0⟩
def INP_CFG_to_irq (i : Nat) : Fld := ⟨0x30004 + 64 * i, 8, 1, .rw, 0, 0, 0⟩
def INP_CFG_to_tdc (i : Nat) : Fld := ⟨0x30004 + 64 * i, 7, 1, .rw, 0, 0, 0⟩
def INP_CFG_latch_auto (i : Nat) : Fld := ⟨0x30004 + 64 * i, 6, 1, .rw, 0, 0, 0⟩
def INP_CFG_latch_edge (i : Nat) : Fld := ⟨0x30004 + 64 * i, 4, 2, .rw, 0, 0, 0⟩
def INP_CFG_hyst (i : Nat) : Fld := ⟨0x30004 + 64 * i, 0, 3, .rw, 0, 0, 0⟩
def INP_LPER_period (i : Nat) : Fld := ⟨0x30008 + 64 * i, 0, 20, .rw, 0x3e8, 1, 1000000⟩
def INP_LSTAT_unres (i : Nat) : Fld := ⟨0x3000c + 64 * i, 15, 1, .ro, 1, 0, 0⟩
def INP_LSTAT_ovr (i : Nat) : Fld := ⟨0x3000c + 64 * i, 14, 1, .ro, 0, 0, 0⟩
def INP_LSTAT_drift (i : Nat) : Fld := ⟨0x3000c + 64 * i, 13, 1, .w1c, 0, 0, 0⟩
def INP_LSTAT_ovr_seen (i : Nat) : Fld := ⟨0x3000c + 64 * i, 12, 1, .w1c, 0, 0, 0⟩
def INP_LSTAT_level (i : Nat) : Fld := ⟨0x3000c + 64 * i, 8, 1, .ro, 0, 0, 0⟩
def INP_LSTAT_again (i : Nat) : Fld := ⟨0x3000c + 64 * i, 2, 1, .w1c, 0, 0, 0⟩
def INP_LSTAT_set (i : Nat) : Fld := ⟨0x3000c + 64 * i, 0, 1, .w1c, 0, 0, 0⟩
def INP_LTIME_HI_res1ns (i : Nat) : Fld := ⟨0x30018 + 64 * i, 31, 1, .ro, 0, 0, 0⟩
def INP_LTIME_HI_valid (i : Nat) : Fld := ⟨0x30018 + 64 * i, 30, 1, .ro, 0, 0, 0⟩
def INP_RDBK_valid (i : Nat) : Fld := ⟨0x3001c + 64 * i, 31, 1, .ro, 0, 0, 0⟩
def INP_RDBK_value (i : Nat) : Fld := ⟨0x3001c + 64 * i, 0, 16, .ro, 0, 0, 0⟩
def INP_PCHK_dv (i : Nat) : Fld := ⟨0x30020 + 64 * i, 16, 16, .ro, 0, 0, 0⟩
def INP_PCHK_verdict (i : Nat) : Fld := ⟨0x30020 + 64 * i, 0, 3, .ro, 0, 0, 0⟩
def INP_PCHK_V_v1 (i : Nat) : Fld := ⟨0x30024 + 64 * i, 16, 16, .ro, 0, 0, 0⟩
def INP_PCHK_V_v0 (i : Nat) : Fld := ⟨0x30024 + 64 * i, 0, 16, .ro, 0, 0, 0⟩
def INP_UNRES_unres (i : Nat) : Fld := ⟨0x30030 + 64 * i, 0, 32, .ro, 0xffffffff, 0, 0⟩
def INP_OVR_bits (i : Nat) : Fld := ⟨0x30034 + 64 * i, 0, 32, .w1c, 0, 0, 0⟩
def INP_DRIFT_bits (i : Nat) : Fld := ⟨0x30038 + 64 * i, 0, 32, .w1c, 0, 0, 0⟩
def INP_LATCH_bits (i : Nat) : Fld := ⟨0x3003c + 64 * i, 0, 32, .w1c, 0, 0, 0⟩
def INP_PCHK_CTL_at_arm : Fld := ⟨0x30830, 2, 1, .rw, 0, 0, 0⟩
def INP_PCHK_CTL_busy : Fld := ⟨0x30830, 1, 1, .ro, 0, 0, 0⟩
def INP_PCHK_CTL_start : Fld := ⟨0x30830, 0, 1, .wo, 0, 0, 0⟩
def INP_PCHK_STAT_refused : Fld := ⟨0x30834, 31, 1, .w1c, 0, 0, 0⟩
def INP_PCHK_STAT_done : Fld := ⟨0x30834, 30, 1, .w1c, 0, 0, 0⟩
def INP_PCHK_STAT_n_open : Fld := ⟨0x30834, 16, 11, .ro, 0, 0, 0⟩
def INP_PCHK_STAT_n_other : Fld := ⟨0x30834, 0, 11, .ro, 0, 0, 0⟩
def INP_RDBK_CTL_sweeps : Fld := ⟨0x30838, 16, 16, .ro, 0, 0, 0⟩
def INP_RDBK_CTL_en : Fld := ⟨0x30838, 0, 1, .rw, 1, 0, 0⟩
def INP_IRQ_STAT_pchk_done : Fld := ⟨0x3083c, 3, 1, .ro, 0, 0, 0⟩
def INP_IRQ_STAT_drift : Fld := ⟨0x3083c, 2, 1, .ro, 0, 0, 0⟩
def INP_IRQ_STAT_ovr : Fld := ⟨0x3083c, 1, 1, .ro, 0, 0, 0⟩
def INP_IRQ_STAT_latch : Fld := ⟨0x3083c, 0, 1, .ro, 0, 0, 0⟩
def INP_PCHK_RAIL_rail_b : Fld := ⟨0x30870, 16, 16, .rw, 0, 0, 0⟩
def INP_PCHK_RAIL_rail_a : Fld := ⟨0x30870, 0, 16, .rw, 0, 0, 0⟩
def INP_LPER_SYNC_sync : Fld := ⟨0x30874, 0, 1, .wo, 0, 0, 0⟩
def INP_IRQ_EN_en : Fld := ⟨0x30878, 0, 4, .rw, 0, 0, 0⟩
def TMB_KT_LO_kt : Fld := ⟨0x20000, 0, 32, .ro, 0, 0, 0⟩
def TMB_KT_MID_kt : Fld := ⟨0x20004, 0, 32, .ro, 0, 0, 0⟩
def TMB_KT_HI_kt_hi : Fld := ⟨0x20008, 0, 8, .ro, 0, 0, 0⟩
def TMB_EPOCH_LO_epoch : Fld := ⟨0x20010, 0, 32, .rw, 0, 0, 0⟩
def TMB_EPOCH_MID_epoch : Fld := ⟨0x20014, 0, 32, .rw, 0, 0, 0⟩
def TMB_EPOCH_HI_epoch : Fld := ⟨0x20018, 0, 8, .rw, 0, 0, 0⟩
def TMB_EPOCH_CTL_epoch_id : Fld := ⟨0x2001c, 16, 16, .ro, 0, 0, 0⟩
def TMB_EPOCH_CTL_pending : Fld := ⟨0x2001c, 2, 1, .ro, 0, 0, 0⟩
def TMB_EPOCH_CTL_cancel : Fld := ⟨0x2001c, 1, 1, .wo, 0, 0, 0⟩
def TMB_EPOCH_CTL_load : Fld := ⟨0x2001c, 0, 1, .wo, 0, 0, 0⟩
def TMB_TRIM_trim : Fld := ⟨0x20020, 0, 32, .rw, 0, 0, 0⟩
def TMB_AGE_RATE_rate : Fld := ⟨0x20024, 0, 32, .rw, 0, 0, 0⟩
def TMB_AGE_ACC_acc : Fld := ⟨0x20028, 0, 32, .ro, 0, 0, 0⟩
def TMB_TCOMP_temp (i : Nat) : Fld := ⟨0x20030 + 4 * i, 24, 8, .rw, 0, 0, 0⟩
def TMB_TCOMP_offset (i : Nat) : Fld := ⟨0x20030 + 4 * i, 0, 24, .rw, 0, 0, 0⟩
def TMB_TEMP_valid : Fld := ⟨0x20044, 31, 1, .ro, 0, 0, 0⟩
def TMB_TEMP_temp : Fld := ⟨0x20044, 0, 16, .ro, 0, 0, 0⟩
def TMB_REF_CFG_slew : Fld := ⟨0x20050, 8, 2, .rw, 1, 0, 0⟩
def TMB_REF_CFG_bw : Fld := ⟨0x20050, 4, 3, .rw, 3, 0, 0⟩
def TMB_REF_CFG_pps_edge : Fld := ⟨0x20050, 3, 1, .rw, 0, 0, 0⟩
def TMB_REF_CFG_ref_freq : Fld := ⟨0x20050, 2, 1, .rw, 0, 0, 0⟩
def TMB_REF_CFG_src : Fld := ⟨0x20050, 0, 2, .rw, 0, 0, 0⟩
def TMB_PPS_DLY_dly : Fld := ⟨0x20054, 0, 32, .rw, 0, 0, 0⟩
def TMB_LOCK_CFG_unlock_thr : Fld := ⟨0x20058, 16, 16, .rw, 0x3e8, 0, 0⟩
def TMB_LOCK_CFG_lock_thr : Fld := ⟨0x20058, 0, 16, .rw, 0x32, 0, 0⟩
def TMB_REF_STAT_outliers : Fld := ⟨0x20060, 16, 16, .ro, 0, 0, 0⟩
def TMB_REF_STAT_tcomp_bad : Fld := ⟨0x20060, 8, 1, .ro, 0, 0, 0⟩
def TMB_REF_STAT_pps_valid : Fld := ⟨0x20060, 5, 1, .ro, 0, 0, 0⟩
def TMB_REF_STAT_ref_valid : Fld := ⟨0x20060, 4, 1, .ro, 0, 0, 0⟩
def TMB_REF_STAT_state : Fld := ⟨0x20060, 0, 2, .ro, 0, 0, 0⟩
def TMB_HOLD_AGE_age : Fld := ⟨0x20064, 0, 32, .ro, 0, 0, 0⟩
def TMB_PHASE_ERR_value : Fld := ⟨0x20068, 0, 32, .ro, 0, 0, 0⟩
def TMB_FREQ_CORR_value : Fld := ⟨0x2006c, 0, 32, .ro, 0, 0, 0⟩
def TMB_OUT_CFG_pps_width : Fld := ⟨0x20070, 8, 8, .rw, 0xa, 1, 0⟩
def TMB_OUT_CFG_ref_freq : Fld := ⟨0x20070, 2, 1, .rw, 0, 0, 0⟩
def TMB_OUT_CFG_ref_en : Fld := ⟨0x20070, 1, 1, .rw, 0, 0, 0⟩
def TMB_OUT_CFG_pps_en : Fld := ⟨0x20070, 0, 1, .rw, 0, 0, 0⟩
def DSK_LAND_d (i : Nat) : Fld := ⟨0x40000 + 64 * i, 0, 16, .rw, 0, 0, 0⟩
def DSK_USER_d (i : Nat) : Fld := ⟨0x40004 + 64 * i, 0, 16, .rw, 0, 0, 0⟩
def DSK_CAL_d (i : Nat) : Fld := ⟨0x40008 + 64 * i, 0, 16, .ro, 0, 0, 0⟩
def DSK_COEF_sat (i : Nat) : Fld := ⟨0x4000c + 64 * i, 18, 1, .w1c, 0, 0, 0⟩
def DSK_COEF_clamped (i : Nat) : Fld := ⟨0x4000c + 64 * i, 17, 1, .ro, 0, 0, 0⟩
def DSK_COEF_pend (i : Nat) : Fld := ⟨0x4000c + 64 * i, 16, 1, .ro, 0, 0, 0⟩
def DSK_COEF_d (i : Nat) : Fld := ⟨0x4000c + 64 * i, 0, 16, .ro, 0, 0, 0⟩
def DSK_PAIR_en (i : Nat) : Fld := ⟨0x40010 + 64 * i, 31, 1, .rw, 0, 0, 0⟩
def DSK_PAIR_edge (i : Nat) : Fld := ⟨0x40010 + 64 * i, 29, 2, .rw, 1, 0, 0⟩
def DSK_PAIR_partner (i : Nat) : Fld := ⟨0x40010 + 64 * i, 16, 10, .rw, 0, 0, 0⟩
def DSK_PAIR_match (i : Nat) : Fld := ⟨0x40010 + 64 * i, 0, 14, .rw, 0x800, 0, 0⟩
def DSK_PAIR_OFS_e (i : Nat) : Fld := ⟨0x40014 + 64 * i, 0, 16, .rw, 0, 0, 0⟩
def DSK_GMEAN_mean (i : Nat) : Fld := ⟨0x40018 + 64 * i, 0, 32, .ro, 0, 0, 0⟩
def DSK_GCNT_result (i : Nat) : Fld := ⟨0x4001c + 64 * i, 28, 4, .ro, 0, 0, 0⟩
def DSK_GCNT_count (i : Nat) : Fld := ⟨0x4001c + 64 * i, 0, 28, .ro, 0, 0, 0⟩
def DSK_GRMS_rms (i : Nat) : Fld := ⟨0x40020 + 64 * i, 0, 16, .ro, 0, 0, 0⟩
def DSK_GCTL_window : Fld := ⟨0x40030, 20, 12, .rw, 0xfa0, 1, 4000⟩
def DSK_GCTL_max_step : Fld := ⟨0x40030, 8, 12, .rw, 0x40, 0, 0⟩
def DSK_GCTL_auto : Fld := ⟨0x40030, 2, 1, .rw, 1, 0, 0⟩
def DSK_GCTL_abort : Fld := ⟨0x40030, 1, 1, .wo, 0, 0, 0⟩
def DSK_GCTL_start : Fld := ⟨0x40030, 0, 1, .wo, 0, 0, 0⟩
def DSK_GSTAT_gathers : Fld := ⟨0x40034, 16, 16, .ro, 0, 0, 0⟩
def DSK_GSTAT_partner : Fld := ⟨0x40034, 7, 1, .w1c, 0, 0, 0⟩
def DSK_GSTAT_pend : Fld := ⟨0x40034, 6, 1, .ro, 0, 0, 0⟩
def DSK_GSTAT_chain : Fld := ⟨0x40034, 5, 1, .w1c, 0, 0, 0⟩
def DSK_GSTAT_too_many : Fld := ⟨0x40034, 4, 1, .w1c, 0, 0, 0⟩
def DSK_GSTAT_refused : Fld := ⟨0x40034, 3, 1, .w1c, 0, 0, 0⟩
def DSK_GSTAT_aborted : Fld := ⟨0x40034, 2, 1, .w1c, 0, 0, 0⟩
def DSK_GSTAT_done : Fld := ⟨0x40034, 1, 1, .w1c, 0, 0, 0⟩
def DSK_GSTAT_busy : Fld := ⟨0x40034, 0, 1, .ro, 0, 0, 0⟩
def DSK_CAL_CTL_tdc_done : Fld := ⟨0x40038, 6, 1, .w1c, 0, 0, 0⟩
def DSK_CAL_CTL_inj_done : Fld := ⟨0x40038, 5, 1, .w1c, 0, 0, 0⟩
def DSK_CAL_CTL_tdc_stale : Fld := ⟨0x40038, 4, 1, .ro, 1, 0, 0⟩
def DSK_CAL_CTL_refused : Fld := ⟨0x40038, 3, 1, .w1c, 0, 0, 0⟩
def DSK_CAL_CTL_busy : Fld := ⟨0x40038, 2, 1, .ro, 0, 0, 0⟩
def DSK_CAL_CTL_tdc_start : Fld := ⟨0x40038, 1, 1, .wo, 0, 0, 0⟩
def DSK_CAL_CTL_inj_start : Fld := ⟨0x40038, 0, 1, .wo, 0, 0, 0⟩
def DSK_INJ_CTL_total : Fld := ⟨0x4003c, 16, 16, .rw, 0x10, 1, 0⟩
def DSK_INJ_CTL_burst : Fld := ⟨0x4003c, 8, 8, .rw, 0x40, 16, 0⟩
def DSK_INJ_CTL_dead : Fld := ⟨0x4003c, 0, 1, .rw, 0, 0, 0⟩
def DSK_TCAL_TEMP_valid : Fld := ⟨0x40070, 31, 1, .ro, 0, 0, 0⟩
def DSK_TCAL_TEMP_temp : Fld := ⟨0x40070, 0, 16, .ro, 0, 0, 0⟩
def CLK_CFG_ext_fallback : Fld := ⟨0x10000, 5, 1, .rw, 1, 0, 0⟩
def CLK_CFG_s_src_pend : Fld := ⟨0x10000, 4, 1, .ro, 0, 0, 0⟩
def CLK_CFG_s_src : Fld := ⟨0x10000, 0, 1, .rw, 0, 0, 0⟩
def CLK_STAT_dll_lock : Fld := ⟨0x10004, 8, 4, .ro, 0, 0, 0⟩
def CLK_STAT_ext_valid : Fld := ⟨0x10004, 4, 1, .ro, 0, 0, 0⟩
def CLK_STAT_s_src_act : Fld := ⟨0x10004, 0, 1, .ro, 0, 0, 0⟩
def CLK_HOP_pending : Fld := ⟨0x10008, 31, 1, .ro, 0, 0, 0⟩
def CLK_HOP_wait_idle : Fld := ⟨0x10008, 30, 1, .ro, 0, 0, 0⟩
def CLK_HOP_wait_gather : Fld := ⟨0x10008, 29, 1, .ro, 0, 0, 0⟩
def CLK_HOP_refused : Fld := ⟨0x10008, 28, 1, .w1c, 0, 0, 0⟩
def CLK_HOP_pll : Fld := ⟨0x10008, 4, 2, .rw, 0, 0, 0⟩
def CLK_HOP_cancel : Fld := ⟨0x10008, 2, 1, .wo, 0, 0, 0⟩
def CLK_HOP_force : Fld := ⟨0x10008, 1, 1, .wo, 0, 0, 0⟩
def CLK_HOP_start : Fld := ⟨0x10008, 0, 1, .wo, 0, 0, 0⟩
def CLK_HOP_FREQ_freq : Fld := ⟨0x1000c, 0, 21, .rw, 0xf4240, 0, 0⟩
def CLK_EXT_CFG_freq : Fld := ⟨0x10014, 0, 21, .rw, 0xf4240, 0, 0⟩
def CLK_LOCK_CFG_hold_max : Fld := ⟨0x10010, 16, 16, .rw, 0x3e8, 0, 0⟩
def CLK_LOCK_CFG_phase_thr : Fld := ⟨0x10010, 0, 16, .rw, 0x14, 0, 0⟩
def CLK_EXT_MEAS_valid : Fld := ⟨0x10018, 31, 1, .ro, 0, 0, 0⟩
def CLK_EXT_MEAS_err : Fld := ⟨0x10018, 0, 16, .ro, 0, 0, 0⟩
def CLK_EVT_bt_full : Fld := ⟨0x1001c, 9, 1, .w1c, 0, 0, 0⟩
def CLK_EVT_hop_done : Fld := ⟨0x1001c, 8, 1, .w1c, 0, 0, 0⟩
def CLK_EVT_failed : Fld := ⟨0x1001c, 7, 1, .w1c, 0, 0, 0⟩
def CLK_EVT_bt_miss : Fld := ⟨0x1001c, 6, 1, .w1c, 0, 0, 0⟩
def CLK_EVT_gated : Fld := ⟨0x1001c, 5, 1, .w1c, 0, 0, 0⟩
def CLK_EVT_ext_loss : Fld := ⟨0x1001c, 4, 1, .w1c, 0, 0, 0⟩
def CLK_EVT_dll_loss : Fld := ⟨0x1001c, 3, 1, .w1c, 0, 0, 0⟩
def CLK_EVT_m_loss : Fld := ⟨0x1001c, 2, 1, .w1c, 0, 0, 0⟩
def CLK_EVT_c_loss : Fld := ⟨0x1001c, 1, 1, .w1c, 0, 0, 0⟩
def CLK_EVT_s_loss : Fld := ⟨0x1001c, 0, 1, .w1c, 0, 0, 0⟩
def CLK_IRQ_EN_en : Fld := ⟨0x10020, 0, 10, .rw, 0, 0, 0⟩
def CLK_x_CTL_search (i : Nat) : Fld := ⟨0x10100 + 256 * i, 1, 1, .wo, 0, 0, 0⟩
def CLK_x_CTL_en (i : Nat) : Fld := ⟨0x10100 + 256 * i, 0, 1, .rw, 0, 0, 0⟩
def CLK_x_TARGET_freq (i : Nat) : Fld := ⟨0x10104 + 256 * i, 0, 21, .ro, if i = 2 then 2000000 else 1000000, 0, 0⟩
def CLK_x_STAT_bt_idx (i : Nat) : Fld := ⟨0x10108 + 256 * i, 8, 4, .ro, 0, 0, 0⟩
def CLK_x_STAT_gated (i : Nat) : Fld := ⟨0x10108 + 256 * i, 7, 1, .ro, 1, 0, 0⟩
def CLK_x_STAT_suspect (i : Nat) : Fld := ⟨0x10108 + 256 * i, 6, 1, .ro, 0, 0, 0⟩
def CLK_x_STAT_state (i : Nat) : Fld := ⟨0x10108 + 256 * i, 0, 3, .ro, 0, 0, 0⟩
def CLK_x_MEAS_err (i : Nat) : Fld := ⟨0x1010c + 256 * i, 0, 16, .ro, 0, 0, 0⟩
def CLK_x_CNT_relocks (i : Nat) : Fld := ⟨0x10110 + 256 * i, 16, 16, .ro, 0, 0, 0⟩
def CLK_x_CNT_holdovers (i : Nat) : Fld := ⟨0x10110 + 256 * i, 0, 16, .ro, 0, 0, 0⟩
def CLK_x_BT_FREQ_valid (i : Nat) (j : Nat) : Fld := ⟨0x10180 + 256 * i + 8 * j, 31, 1, .rw, 0, 0, 0⟩
def CLK_x_BT_FREQ_pinned (i : Nat) (j : Nat) : Fld := ⟨0x10180 + 256 * i + 8 * j, 30, 1, .rw, 0, 0, 0⟩
def CLK_x_BT_FREQ_preloaded (i : Nat) (j : Nat) : Fld := ⟨0x10180 + 256 * i + 8 * j, 29, 1, .ro, 0, 0, 0⟩
def CLK_x_BT_FREQ_freq (i : Nat) (j : Nat) : Fld := ⟨0x10180 + 256 * i + 8 * j, 0, 21, .rw, 0, 0, 0⟩
def CLK_x_BT_CODE_temp (i : Nat) (j : Nat) : Fld := ⟨0x10184 + 256 * i + 8 * j, 24, 8, .rw, 0, 0, 0⟩
def CLK_x_BT_CODE_band (i : Nat) (j : Nat) : Fld := ⟨0x10184 + 256 * i + 8 * j, 16, 6, .rw, 0, 0, 0⟩
def CLK_x_BT_CODE_code (i : Nat) (j : Nat) : Fld := ⟨0x10184 + 256 * i + 8 * j, 0, 10, .rw, 0, 0, 0⟩
def TRL_CFG_start_level : Fld := ⟨0x50000, 16, 4, .rw, 0, 0, 0⟩
def TRL_CFG_qual_reset : Fld := ⟨0x50000, 8, 1, .rw, 1, 0, 0⟩
def TRL_CFG_rearm_restart : Fld := ⟨0x50000, 4, 1, .rw, 1, 0, 0⟩
def TRL_CFG_check : Fld := ⟨0x50000, 0, 1, .wo, 0, 0, 0⟩
def TRL_STAT_running : Fld := ⟨0x50004, 31, 1, .ro, 0, 0, 0⟩
def TRL_STAT_qual : Fld := ⟨0x50004, 30, 1, .ro, 0, 0, 0⟩
def TRL_STAT_wr_ign : Fld := ⟨0x50004, 29, 1, .w1c, 0, 0, 0⟩
def TRL_STAT_level : Fld := ⟨0x50004, 16, 4, .ro, 0, 0, 0⟩
def TRL_CHK_valid : Fld := ⟨0x50008, 31, 1, .ro, 0, 0, 0⟩
def TRL_CHK_code : Fld := ⟨0x50008, 16, 8, .ro, 0, 0, 0⟩
def TRL_CHK_level : Fld := ⟨0x50008, 8, 4, .ro, 0, 0, 0⟩
def TRL_CHK_item : Fld := ⟨0x50008, 0, 4, .ro, 0, 0, 0⟩
def TRL_EVT_irq : Fld := ⟨0x5000c, 16, 8, .w1c, 0, 0, 0⟩
def TRL_EVT_fault : Fld := ⟨0x5000c, 3, 1, .w1c, 0, 0, 0⟩
def TRL_EVT_retry : Fld := ⟨0x5000c, 2, 1, .w1c, 0, 0, 0⟩
def TRL_EVT_trig : Fld := ⟨0x5000c, 1, 1, .w1c, 0, 0, 0⟩
def TRL_EVT_chk_done : Fld := ⟨0x5000c, 0, 1, .w1c, 0, 0, 0⟩
def TRL_IRQ_EN_en : Fld := ⟨0x50010, 0, 32, .rw, 0, 0, 0⟩
def TRL_TRIG_CNT_count : Fld := ⟨0x50014, 0, 32, .ro, 0, 0, 0⟩
def TRL_RETRY_spare : Fld := ⟨0x50018, 16, 16, .ro, 0, 0, 0⟩
def TRL_RETRY_retries : Fld := ⟨0x50018, 0, 16, .ro, 0, 0, 0⟩
def TRL_XOUT_CFG_pol3 : Fld := ⟨0x50020, 31, 1, .rw, 0, 0, 0⟩
def TRL_XOUT_CFG_width3 : Fld := ⟨0x50020, 24, 7, .rw, 8, 1, 0⟩
def TRL_XOUT_CFG_pol2 : Fld := ⟨0x50020, 23, 1, .rw, 0, 0, 0⟩
def TRL_XOUT_CFG_width2 : Fld := ⟨0x50020, 16, 7, .rw, 8, 1, 0⟩
def TRL_XOUT_CFG_pol1 : Fld := ⟨0x50020, 15, 1, .rw, 0, 0, 0⟩
def TRL_XOUT_CFG_width1 : Fld := ⟨0x50020, 8, 7, .rw, 8, 1, 0⟩
def TRL_XOUT_CFG_pol0 : Fld := ⟨0x50020, 7, 1, .rw, 0, 0, 0⟩
def TRL_XOUT_CFG_width0 : Fld := ⟨0x50020, 0, 7, .rw, 8, 1, 0⟩
def TRL_EXT_CFG_gate_sense : Fld := ⟨0x50024, 8, 8, .rw, 0, 0, 0⟩
def TRL_EXT_CFG_in_sense : Fld := ⟨0x50024, 0, 8, .rw, 0, 0, 0⟩
def TRL_LAST_HI_sres : Fld := ⟨0x50038, 31, 1, .ro, 0, 0, 0⟩
def TRL_LAST_HI_valid : Fld := ⟨0x50038, 30, 1, .ro, 0, 0, 0⟩
def TRL_LAST_HI_src : Fld := ⟨0x50038, 16, 11, .ro, 0, 0, 0⟩
def TRL_LAST_HI_level : Fld := ⟨0x50038, 12, 4, .ro, 0, 0, 0⟩
def TRL_LAST_HI_branch : Fld := ⟨0x50038, 8, 2, .ro, 0, 0, 0⟩
def TRL_Ln_TERMt_inv (i : Nat) (j : Nat) : Fld := ⟨0x51000 + 256 * i + 4 * j, 31, 1, .rw, 0, 0, 0⟩
def TRL_Ln_TERMt_kind (i : Nat) (j : Nat) : Fld := ⟨0x51000 + 256 * i + 4 * j, 12, 4, .rw, 0, 0, 0⟩
def TRL_Ln_TERMt_idx (i : Nat) (j : Nat) : Fld := ⟨0x51000 + 256 * i + 4 * j, 0, 6, .rw, 0, 0, 0⟩
def TRL_Ln_BRb_COND_en (i : Nat) (j : Nat) : Fld := ⟨0x51020 + 256 * i + 16 * j, 31, 1, .rw, 0, 0, 0⟩
def TRL_Ln_BRb_COND_goto (i : Nat) (j : Nat) : Fld := ⟨0x51020 + 256 * i + 16 * j, 24, 1, .rw, 0, 0, 0⟩
def TRL_Ln_BRb_COND_target (i : Nat) (j : Nat) : Fld := ⟨0x51020 + 256 * i + 16 * j, 16, 4, .rw, 0, 0, 0⟩
def TRL_Ln_BRb_COND_op (i : Nat) (j : Nat) : Fld := ⟨0x51020 + 256 * i + 16 * j, 8, 1, .rw, 0, 0, 0⟩
def TRL_Ln_BRb_COND_sel (i : Nat) (j : Nat) : Fld := ⟨0x51020 + 256 * i + 16 * j, 0, 8, .rw, 0, 0, 0⟩
def TRL_Ln_BRb_ACT_irq (i : Nat) (j : Nat) : Fld := ⟨0x51024 + 256 * i + 16 * j, 10, 1, .rw, 0, 0, 0⟩
def TRL_Ln_BRb_ACT_mark (i : Nat) (j : Nat) : Fld := ⟨0x51024 + 256 * i + 16 * j, 9, 1, .rw, 0, 0, 0⟩
def TRL_Ln_BRb_ACT_xtrig (i : Nat) (j : Nat) : Fld := ⟨0x51024 + 256 * i + 16 * j, 8, 1, .rw, 0, 0, 0⟩
def TRL_Ln_BRb_ACT_tm_clr (i : Nat) (j : Nat) : Fld := ⟨0x51024 + 256 * i + 16 * j, 7, 1, .rw, 0, 0, 0⟩
def TRL_Ln_BRb_ACT_tm_stop (i : Nat) (j : Nat) : Fld := ⟨0x51024 + 256 * i + 16 * j, 6, 1, .rw, 0, 0, 0⟩
def TRL_Ln_BRb_ACT_tm_start (i : Nat) (j : Nat) : Fld := ⟨0x51024 + 256 * i + 16 * j, 5, 1, .rw, 0, 0, 0⟩
def TRL_Ln_BRb_ACT_ct_clr (i : Nat) (j : Nat) : Fld := ⟨0x51024 + 256 * i + 16 * j, 4, 1, .rw, 0, 0, 0⟩
def TRL_Ln_BRb_ACT_ct_inc (i : Nat) (j : Nat) : Fld := ⟨0x51024 + 256 * i + 16 * j, 3, 1, .rw, 0, 0, 0⟩
def TRL_Ln_BRb_ACT_qual_off (i : Nat) (j : Nat) : Fld := ⟨0x51024 + 256 * i + 16 * j, 2, 1, .rw, 0, 0, 0⟩
def TRL_Ln_BRb_ACT_qual_on (i : Nat) (j : Nat) : Fld := ⟨0x51024 + 256 * i + 16 * j, 1, 1, .rw, 0, 0, 0⟩
def TRL_Ln_BRb_ACT_trigger (i : Nat) (j : Nat) : Fld := ⟨0x51024 + 256 * i + 16 * j, 0, 1, .rw, 0, 0, 0⟩
def TRL_Ln_BRb_ARG_mark_code (i : Nat) (j : Nat) : Fld := ⟨0x51028 + 256 * i + 16 * j, 24, 8, .rw, 0, 0, 0⟩
def TRL_Ln_BRb_ARG_xmask (i : Nat) (j : Nat) : Fld := ⟨0x51028 + 256 * i + 16 * j, 16, 8, .rw, 0, 0, 0⟩
def TRL_Ln_BRb_ARG_irq_tag (i : Nat) (j : Nat) : Fld := ⟨0x51028 + 256 * i + 16 * j, 12, 3, .rw, 0, 0, 0⟩
def TRL_Ln_BRb_ARG_tm_idx (i : Nat) (j : Nat) : Fld := ⟨0x51028 + 256 * i + 16 * j, 8, 4, .rw, 0, 0, 0⟩
def TRL_Ln_BRb_ARG_ct_idx (i : Nat) (j : Nat) : Fld := ⟨0x51028 + 256 * i + 16 * j, 0, 4, .rw, 0, 0, 0⟩
def TRL_Ln_CFG_same_sample (i : Nat) : Fld := ⟨0x51060 + 256 * i, 0, 1, .rw, 0, 0, 0⟩
def TRL_EDj_CFG_edge (i : Nat) : Fld := ⟨0x52000 + 256 * i, 0, 2, .rw, 0, 0, 0⟩
def TRL_EDj_SET_bits (i : Nat) (j : Nat) : Fld := ⟨0x52080 + 256 * i + 4 * j, 0, 32, .rw, 0, 0, 0⟩
def TRL_PRp_VAL_bits (i : Nat) (j : Nat) : Fld := ⟨0x58000 + 512 * i + 4 * j, 0, 32, .rw, 0, 0, 0⟩
def TRL_PRp_CARE_bits (i : Nat) (j : Nat) : Fld := ⟨0x58080 + 512 * i + 4 * j, 0, 32, .rw, 0, 0, 0⟩
def TRL_PRp_CFG_onset (i : Nat) : Fld := ⟨0x58100 + 512 * i, 1, 1, .rw, 0, 0, 0⟩
def TRL_PRp_CFG_en (i : Nat) : Fld := ⟨0x58100 + 512 * i, 0, 1, .rw, 0, 0, 0⟩
def TRL_CTn_LIM_LO_value (i : Nat) : Fld := ⟨0x54000 + 32 * i, 0, 32, .rw, 0, 0, 0⟩
def TRL_TMn_LIM_LO_value (i : Nat) : Fld := ⟨0x54204 + 32 * i, 0, 32, .rw, 0, 0, 0⟩
def TRL_WCn_START_LO_value (i : Nat) : Fld := ⟨0x54404 + 32 * i, 0, 32, .rw, 0, 0, 0⟩
def TRL_WCn_START_HI_value (i : Nat) : Fld := ⟨0x54408 + 32 * i, 0, 32, .rw, 0, 0, 0⟩
def TRL_WCn_END_LO_value (i : Nat) : Fld := ⟨0x5440c + 32 * i, 0, 32, .rw, 0, 0, 0⟩
def TRL_WCn_END_HI_value (i : Nat) : Fld := ⟨0x54410 + 32 * i, 0, 32, .rw, 0, 0, 0⟩
def TRL_CTn_LIM_HI_value (i : Nat) : Fld := ⟨0x54004 + 32 * i, 0, 16, .rw, 0, 0, 0⟩
def TRL_TMn_LIM_HI_value (i : Nat) : Fld := ⟨0x54208 + 32 * i, 0, 16, .rw, 0, 0, 0⟩
def TRL_TMn_VAL_LO_value (i : Nat) : Fld := ⟨0x5420c + 32 * i, 0, 32, .ro, 0, 0, 0⟩
def TRL_TMn_VAL_HI_value (i : Nat) : Fld := ⟨0x54210 + 32 * i, 0, 16, .ro, 0, 0, 0⟩
def TRL_TMn_CFG_running (i : Nat) : Fld := ⟨0x54200 + 32 * i, 2, 1, .ro, 0, 0, 0⟩
def TRL_TMn_CFG_unit (i : Nat) : Fld := ⟨0x54200 + 32 * i, 0, 2, .rw, 0, 0, 0⟩
def TRL_WCn_CFG_end_top (i : Nat) : Fld := ⟨0x54400 + 32 * i, 24, 8, .rw, 0, 0, 0⟩
def TRL_WCn_CFG_start_top (i : Nat) : Fld := ⟨0x54400 + 32 * i, 16, 8, .rw, 0, 0, 0⟩
def TRL_WCn_CFG_ev_sample (i : Nat) : Fld := ⟨0x54400 + 32 * i, 15, 1, .rw, 0, 0, 0⟩
def TRL_WCn_CFG_ed (i : Nat) : Fld := ⟨0x54400 + 32 * i, 8, 5, .rw, 0, 0, 0⟩
def TRL_WCn_CFG_tm (i : Nat) : Fld := ⟨0x54400 + 32 * i, 4, 4, .rw, 0, 0, 0⟩
def TRL_WCn_CFG_src (i : Nat) : Fld := ⟨0x54400 + 32 * i, 0, 2, .rw, 0, 0, 0⟩
def ACQ_CTL_force_trig : Fld := ⟨0x60000, 2, 1, .wo, 0, 0, 0⟩
def ACQ_CTL_stop : Fld := ⟨0x60000, 1, 1, .wo, 0, 0, 0⟩
def ACQ_CTL_arm : Fld := ⟨0x60000, 0, 1, .wo, 0, 0, 0⟩
def ACQ_STAT_stop_cause : Fld := ⟨0x60004, 16, 8, .ro, 0, 0, 0⟩
def ACQ_STAT_gap_open : Fld := ⟨0x60004, 15, 1, .ro, 0, 0, 0⟩
def ACQ_STAT_chained : Fld := ⟨0x60004, 14, 1, .ro, 0, 0, 0⟩
def ACQ_STAT_state : Fld := ⟨0x60004, 0, 3, .ro, 0, 0, 0⟩
def ACQ_ERR_valid : Fld := ⟨0x60008, 31, 1, .ro, 0, 0, 0⟩
def ACQ_ERR_detail : Fld := ⟨0x60008, 16, 8, .ro, 0, 0, 0⟩
def ACQ_ERR_code : Fld := ⟨0x60008, 0, 8, .ro, 0, 0, 0⟩
def ACQ_CFG_to_mode : Fld := ⟨0x6000c, 4, 1, .rw, 0, 0, 0⟩
def ACQ_CFG_qual_en : Fld := ⟨0x6000c, 3, 1, .rw, 0, 0, 0⟩
def ACQ_CFG_wrap : Fld := ⟨0x6000c, 2, 1, .rw, 0, 0, 0⟩
def ACQ_CFG_stream : Fld := ⟨0x6000c, 1, 1, .rw, 0, 0, 0⟩
def ACQ_CFG_spill : Fld := ⟨0x6000c, 0, 1, .rw, 0, 0, 0⟩
def ACQ_PRE_LO_value : Fld := ⟨0x60010, 0, 32, .rw, 0x1000, 0, 0⟩
def ACQ_POST_LO_value : Fld := ⟨0x60018, 0, 32, .rw, 0x1000, 0, 0⟩
def ACQ_TIMEOUT_LO_value : Fld := ⟨0x60040, 0, 32, .rw, 0, 0, 0⟩
def ACQ_PRE_HI_value : Fld := ⟨0x60014, 0, 16, .rw, 0, 0, 0⟩
def ACQ_POST_HI_value : Fld := ⟨0x6001c, 0, 16, .rw, 0, 0, 0⟩
def ACQ_TIMEOUT_HI_value_top : Fld := ⟨0x60044, 16, 4, .rw, 0, 0, 0⟩
def ACQ_TIMEOUT_HI_value : Fld := ⟨0x60044, 0, 16, .rw, 0, 0, 0⟩
def ACQ_SEG_size : Fld := ⟨0x60020, 0, 24, .rw, 0x10, 1, 0⟩
def ACQ_SEG_CNT_count : Fld := ⟨0x60024, 0, 21, .rw, 0, 0, 1048576⟩
def ACQ_REGION_BASE_value : Fld := ⟨0x60030, 0, 22, .rw, 0, 0, 0⟩
def ACQ_REGION_SIZE_value : Fld := ⟨0x60034, 0, 22, .rw, 0, 0, 0⟩
def ACQ_PRE_T_time : Fld := ⟨0x60048, 0, 24, .rw, 0, 0, 0⟩
def ACQ_STREAM_ring : Fld := ⟨0x6004c, 0, 4, .rw, 0, 0, 0⟩
def ACQ_BUDGET_near : Fld := ⟨0x60050, 16, 16, .ro, 0, 0, 0⟩
def ACQ_BUDGET_deep : Fld := ⟨0x60050, 0, 16, .ro, 0, 0, 0⟩
def ACQ_TRIG_CNT_count : Fld := ⟨0x60060, 0, 32, .ro, 0, 0, 0⟩
def ACQ_EARLY_CNT_count : Fld := ⟨0x60064, 0, 32, .ro, 0, 0, 0⟩
def ACQ_BLIND_CNT_count : Fld := ⟨0x60068, 0, 32, .ro, 0, 0, 0⟩
def ACQ_EXTRA_CNT_count : Fld := ⟨0x6006c, 0, 32, .ro, 0, 0, 0⟩
def ACQ_SEG_DONE_count : Fld := ⟨0x60070, 0, 32, .ro, 0, 0, 0⟩
def ACQ_OVERWR_count : Fld := ⟨0x60074, 0, 32, .ro, 0, 0, 0⟩
def ACQ_GAP_CNT_count : Fld := ⟨0x60078, 0, 32, .ro, 0, 0, 0⟩
def ACQ_TRIG_HI_valid : Fld := ⟨0x60098, 31, 1, .ro, 0, 0, 0⟩
def ACQ_TRIG_HI_sres : Fld := ⟨0x60098, 30, 1, .ro, 0, 0, 0⟩
def ACQ_TRIG_HI_source : Fld := ⟨0x60098, 28, 2, .ro, 0, 0, 0⟩
def ACQ_EVT_trig_ign : Fld := ⟨0x600a0, 9, 1, .w1c, 0, 0, 0⟩
def ACQ_EVT_arm_ign : Fld := ⟨0x600a0, 8, 1, .w1c, 0, 0, 0⟩
def ACQ_EVT_blind : Fld := ⟨0x600a0, 7, 1, .w1c, 0, 0, 0⟩
def ACQ_EVT_early : Fld := ⟨0x600a0, 6, 1, .w1c, 0, 0, 0⟩
def ACQ_EVT_stopped : Fld := ⟨0x600a0, 5, 1, .w1c, 0, 0, 0⟩
def ACQ_EVT_gap : Fld := ⟨0x600a0, 4, 1, .w1c, 0, 0, 0⟩
def ACQ_EVT_seg_done : Fld := ⟨0x600a0, 3, 1, .w1c, 0, 0, 0⟩
def ACQ_EVT_trig : Fld := ⟨0x600a0, 2, 1, .w1c, 0, 0, 0⟩
def ACQ_EVT_refused : Fld := ⟨0x600a0, 1, 1, .w1c, 0, 0, 0⟩
def ACQ_EVT_armed : Fld := ⟨0x600a0, 0, 1, .w1c, 0, 0, 0⟩
def ACQ_IRQ_EN_en : Fld := ⟨0x600a4, 0, 10, .rw, 0, 0, 0⟩
def ACQ_STCLKj_en (i : Nat) : Fld := ⟨0x60100 + 4 * i, 15, 1, .rw, 0, 0, 0⟩
def ACQ_STCLKj_qual_en (i : Nat) : Fld := ⟨0x60100 + 4 * i, 14, 1, .rw, 0, 0, 0⟩
def ACQ_STCLKj_qual_pr (i : Nat) : Fld := ⟨0x60100 + 4 * i, 8, 6, .rw, 0, 0, 0⟩
def ACQ_STCLKj_edge (i : Nat) : Fld := ⟨0x60100 + 4 * i, 0, 2, .rw, 1, 0, 0⟩
def HDG_CTL_en : Fld := ⟨0x70000, 1, 1, .rw, 0, 0, 0⟩
def HDG_CTL_check : Fld := ⟨0x70000, 0, 1, .wo, 0, 0, 0⟩
def HDG_STAT_running : Fld := ⟨0x70004, 31, 1, .ro, 0, 0, 0⟩
def HDG_STAT_wr_ign : Fld := ⟨0x70004, 29, 1, .w1c, 0, 0, 0⟩
def HDG_CHK_valid : Fld := ⟨0x70008, 31, 1, .ro, 0, 0, 0⟩
def HDG_CHK_code : Fld := ⟨0x70008, 8, 8, .ro, 0, 0, 0⟩
def HDG_CHK_rule : Fld := ⟨0x70008, 0, 6, .ro, 0, 0, 0⟩
def HDG_EVT_stop : Fld := ⟨0x7000c, 2, 1, .w1c, 0, 0, 0⟩
def HDG_EVT_viol : Fld := ⟨0x7000c, 1, 1, .w1c, 0, 0, 0⟩
def HDG_EVT_chk_done : Fld := ⟨0x7000c, 0, 1, .w1c, 0, 0, 0⟩
def HDG_IRQ_EN_en : Fld := ⟨0x70010, 0, 3, .rw, 0, 0, 0⟩
def HDG_TAIL_value : Fld := ⟨0x70014, 0, 32, .rw, 0, 0, 0⟩
def HDG_VIOL_CNT_value : Fld := ⟨0x70018, 0, 32, .ro, 0, 0, 0⟩
def HDG_MKn_CNT_value (i : Nat) : Fld := ⟨0x71028 + 256 * i, 0, 32, .ro, 0, 0, 0⟩
def HDG_LAST_HI_valid : Fld := ⟨0x70028, 31, 1, .ro, 0, 0, 0⟩
def HDG_LAST_HI_sres : Fld := ⟨0x70028, 30, 1, .ro, 0, 0, 0⟩
def HDG_LAST_HI_kind : Fld := ⟨0x70028, 28, 2, .ro, 0, 0, 0⟩
def HDG_LAST_HI_rule : Fld := ⟨0x70028, 22, 6, .ro, 0, 0, 0⟩
def HDG_LAST_HI_channel : Fld := ⟨0x70028, 12, 10, .ro, 0, 0, 0⟩
def HDG_MKn_CFG_en (i : Nat) : Fld := ⟨0x71000 + 256 * i, 31, 1, .rw, 0, 0, 0⟩
def HDG_MKn_CFG_req0 (i : Nat) : Fld := ⟨0x71000 + 256 * i, 30, 1, .rw, 0, 0, 0⟩
def HDG_MKn_CFG_ref_edge (i : Nat) : Fld := ⟨0x71000 + 256 * i, 28, 2, .rw, 1, 0, 0⟩
def HDG_MKn_CFG_tr_edge (i : Nat) : Fld := ⟨0x71000 + 256 * i, 26, 2, .rw, 3, 0, 0⟩
def HDG_MKn_CFG_ref_ch (i : Nat) : Fld := ⟨0x71000 + 256 * i, 16, 10, .rw, 0, 0, 0⟩
def HDG_MKn_CFG_stop (i : Nat) : Fld := ⟨0x71000 + 256 * i, 11, 1, .rw, 0, 0, 0⟩
def HDG_MKn_CFG_trigger (i : Nat) : Fld := ⟨0x71000 + 256 * i, 10, 1, .rw, 0, 0, 0⟩
def HDG_MKn_CFG_mark (i : Nat) : Fld := ⟨0x71000 + 256 * i, 9, 1, .rw, 0, 0, 0⟩
def HDG_MKn_CFG_w0_en (i : Nat) : Fld := ⟨0x71000 + 256 * i, 7, 1, .rw, 0, 0, 0⟩
def HDG_MKn_CFG_w1_en (i : Nat) : Fld := ⟨0x71000 + 256 * i, 6, 1, .rw, 0, 0, 0⟩
def HDG_MKn_CFG_z0_en (i : Nat) : Fld := ⟨0x71000 + 256 * i, 5, 1, .rw, 0, 0, 0⟩
def HDG_MKn_CFG_z1_en (i : Nat) : Fld := ⟨0x71000 + 256 * i, 4, 1, .rw, 0, 0, 0⟩
def HDG_MKn_HOR_value (i : Nat) : Fld := ⟨0x71004 + 256 * i, 0, 32, .rw, 0, 0, 0⟩
def HDG_MKn_W0A_value (i : Nat) : Fld := ⟨0x71008 + 256 * i, 0, 32, .rw, 0, 0, 0⟩
def HDG_MKn_W0B_value (i : Nat) : Fld := ⟨0x7100c + 256 * i, 0, 32, .rw, 0, 0, 0⟩
def HDG_MKn_W1A_value (i : Nat) : Fld := ⟨0x71010 + 256 * i, 0, 32, .rw, 0, 0, 0⟩
def HDG_MKn_W1B_value (i : Nat) : Fld := ⟨0x71014 + 256 * i, 0, 32, .rw, 0, 0, 0⟩
def HDG_MKn_Z0C_value (i : Nat) : Fld := ⟨0x71018 + 256 * i, 0, 32, .rw, 0, 0, 0⟩
def HDG_MKn_Z0D_value (i : Nat) : Fld := ⟨0x7101c + 256 * i, 0, 32, .rw, 0, 0, 0⟩
def HDG_MKn_Z1C_value (i : Nat) : Fld := ⟨0x71020 + 256 * i, 0, 32, .rw, 0, 0, 0⟩
def HDG_MKn_Z1D_value (i : Nat) : Fld := ⟨0x71024 + 256 * i, 0, 32, .rw, 0, 0, 0⟩
def HDG_MKn_SET_bits (i : Nat) (j : Nat) : Fld := ⟨0x71080 + 256 * i + 4 * j, 0, 32, .rw, 0, 0, 0⟩
def RED_CTL_flush : Fld := ⟨0x80000, 0, 1, .wo, 0, 0, 0⟩
def RED_STAT_trunc : Fld := ⟨0x80004, 24, 8, .ro, 0, 0, 0⟩
def RED_STAT_badkind : Fld := ⟨0x80004, 16, 8, .ro, 0, 0, 0⟩
def RED_STAT_full : Fld := ⟨0x80004, 8, 8, .ro, 0, 0, 0⟩
def RED_STAT_running : Fld := ⟨0x80004, 0, 8, .ro, 0, 0, 0⟩
def RED_EVT_full : Fld := ⟨0x80008, 8, 8, .w1c, 0, 0, 0⟩
def RED_EVT_loss : Fld := ⟨0x80008, 0, 8, .w1c, 0, 0, 0⟩
def RED_IRQ_EN_en : Fld := ⟨0x8000c, 0, 16, .rw, 0, 0, 0⟩
def RED_RUn_CFG_en (i : Nat) : Fld := ⟨0x81000 + 256 * i, 31, 1, .rw, 0, 0, 0⟩
def RED_RUn_CFG_wrap (i : Nat) : Fld := ⟨0x81000 + 256 * i, 30, 1, .rw, 0, 0, 0⟩
def RED_RUn_CFG_edge (i : Nat) : Fld := ⟨0x81000 + 256 * i, 4, 2, .rw, 1, 0, 0⟩
def RED_RUn_CFG_kind (i : Nat) : Fld := ⟨0x81000 + 256 * i, 0, 4, .rw, 0, 0, 0⟩
def RED_RUn_PAR_par (i : Nat) : Fld := ⟨0x81004 + 256 * i, 0, 32, .rw, 0, 0, 0⟩
def RED_RUn_IVL_ivl (i : Nat) : Fld := ⟨0x81008 + 256 * i, 0, 32, .rw, 0x1f40, 64, 0⟩
def RED_RUn_RATE_limit (i : Nat) : Fld := ⟨0x8100c + 256 * i, 0, 7, .rw, 8, 1, 64⟩
def RED_RUn_BASE_value (i : Nat) : Fld := ⟨0x81010 + 256 * i, 0, 22, .rw, 0, 0, 0⟩
def RED_RUn_SIZE_value (i : Nat) : Fld := ⟨0x81014 + 256 * i, 0, 22, .rw, 0, 0, 0⟩
def RED_RUn_FLUSH_time (i : Nat) : Fld := ⟨0x81018 + 256 * i, 0, 24, .rw, 0x3e8, 0, 0⟩
def RED_RUn_HOFS_ofs (i : Nat) : Fld := ⟨0x8101c + 256 * i, 0, 32, .rw, 0, 0, 0⟩
def RED_RUn_WPTR_ptr (i : Nat) : Fld := ⟨0x81020 + 256 * i, 0, 32, .ro, 0, 0, 0⟩
def RED_RUn_WORST_rate (i : Nat) : Fld := ⟨0x81024 + 256 * i, 0, 16, .ro, 0, 0, 0⟩
def RED_RUn_SET_bits (i : Nat) (j : Nat) : Fld := ⟨0x81080 + 256 * i + 4 * j, 0, 32, .rw, 0, 0, 0⟩
def SIV_CFG_en : Fld := ⟨0x90000, 31, 1, .rw, 0, 0, 0⟩
def SIV_CFG_wrap : Fld := ⟨0x90000, 30, 1, .rw, 0, 0, 0⟩
def SIV_STAT_running : Fld := ⟨0x90004, 31, 1, .ro, 0, 0, 0⟩
def SIV_STAT_full : Fld := ⟨0x90004, 30, 1, .ro, 0, 0, 0⟩
def SIV_STAT_busy : Fld := ⟨0x90004, 16, 6, .ro, 0, 0, 0⟩
def SIV_EVT_full : Fld := ⟨0x90008, 1, 1, .w1c, 0, 0, 0⟩
def SIV_EVT_pass : Fld := ⟨0x90008, 0, 1, .w1c, 0, 0, 0⟩
def SIV_IRQ_EN_en : Fld := ⟨0x9000c, 0, 2, .rw, 0, 0, 0⟩
def SIV_BASE_value : Fld := ⟨0x90010, 0, 22, .rw, 0, 0, 0⟩
def SIV_SIZE_value : Fld := ⟨0x90014, 0, 22, .rw, 0, 0, 0⟩
def SIV_WPTR_ptr : Fld := ⟨0x90018, 0, 32, .ro, 0, 0, 0⟩
def SIV_RATE_rate : Fld := ⟨0x9001c, 0, 16, .ro, 0, 0, 0⟩
def SIV_IDLE_lanes : Fld := ⟨0x90020, 0, 32, .ro, 0, 0, 0⟩
def SIV_LANEl_CFG_en (i : Nat) : Fld := ⟨0x90100 + 4 * i, 31, 1, .rw, 0, 0, 0⟩
def SIV_LANEl_CFG_level (i : Nat) : Fld := ⟨0x90100 + 4 * i, 8, 3, .rw, 2, 0, 0⟩
def SIV_LANEl_CFG_tile (i : Nat) : Fld := ⟨0x90100 + 4 * i, 0, 2, .rw, i / 8, 0, 0⟩
def TIM_STAT_running : Fld := ⟨0xa0000, 31, 1, .ro, 0, 0, 0⟩
def TIM_STAT_ovf_full : Fld := ⟨0xa0000, 30, 1, .ro, 0, 0, 0⟩
def TIM_STAT_active : Fld := ⟨0xa0000, 16, 7, .ro, 0, 0, 0⟩
def TIM_EVT_badslot : Fld := ⟨0xa0004, 3, 1, .w1c, 0, 0, 0⟩
def TIM_EVT_ovf_full : Fld := ⟨0xa0004, 2, 1, .w1c, 0, 0, 0⟩
def TIM_EVT_discard : Fld := ⟨0xa0004, 1, 1, .w1c, 0, 0, 0⟩
def TIM_EVT_qloss : Fld := ⟨0xa0004, 0, 1, .w1c, 0, 0, 0⟩
def TIM_IRQ_EN_en : Fld := ⟨0xa0008, 0, 4, .rw, 0, 0, 0⟩
def TIM_OVF_BASE_value : Fld := ⟨0xa0010, 0, 22, .rw, 0, 0, 0⟩
def TIM_OVF_SIZE_value : Fld := ⟨0xa0014, 0, 22, .rw, 0, 0, 0⟩
def TIM_OVF_USED_chunks : Fld := ⟨0xa0018, 0, 32, .ro, 0, 0, 0⟩
def TIM_QMAX_depth : Fld := ⟨0xa001c, 12, 20, .ro, 0, 0, 0⟩
def TIM_QMAX_ch : Fld := ⟨0xa001c, 0, 11, .ro, 0, 0, 0⟩
def TIM_DISCARD_count : Fld := ⟨0xa0020, 0, 32, .ro, 0, 0, 0⟩
def TIM_RESTART_count : Fld := ⟨0xa0024, 0, 32, .ro, 0, 0, 0⟩
def TIM_SLOTn_CFG_en (i : Nat) : Fld := ⟨0xa1000 + 32 * i, 31, 1, .rw, 0, 0, 0⟩
def TIM_SLOTn_CFG_policy (i : Nat) : Fld := ⟨0xa1000 + 32 * i, 30, 1, .rw, 0, 0, 0⟩
def TIM_SLOTn_CFG_kind (i : Nat) : Fld := ⟨0xa1000 + 32 * i, 24, 3, .rw, 0, 0, 0⟩
def TIM_SLOTn_CFG_decim (i : Nat) : Fld := ⟨0xa1000 + 32 * i, 16, 8, .rw, 0, 0, 0⟩
def TIM_SLOTn_CFG_edge_b (i : Nat) : Fld := ⟨0xa1000 + 32 * i, 10, 2, .rw, 1, 0, 0⟩
def TIM_SLOTn_CFG_edge_a (i : Nat) : Fld := ⟨0xa1000 + 32 * i, 8, 2, .rw, 1, 0, 0⟩
def TIM_SLOTn_CH_ch_b (i : Nat) : Fld := ⟨0xa1004 + 32 * i, 16, 11, .rw, 0, 0, 0⟩
def TIM_SLOTn_CH_ch_a (i : Nat) : Fld := ⟨0xa1004 + 32 * i, 0, 11, .rw, 0, 0, 0⟩
def TIM_SLOTn_RANGE_range (i : Nat) : Fld := ⟨0xa1008 + 32 * i, 0, 32, .rw, 0, 0, 0⟩
def TIM_SLOTn_GATE_gsrc (i : Nat) : Fld := ⟨0xa100c + 32 * i, 24, 3, .rw, 0, 0, 0⟩
def TIM_SLOTn_GATE_gmode (i : Nat) : Fld := ⟨0xa100c + 32 * i, 20, 2, .rw, 0, 0, 0⟩
def TIM_SLOTn_GATE_arg (i : Nat) : Fld := ⟨0xa100c + 32 * i, 0, 16, .rw, 0, 0, 0⟩
def TIM_SLOTn_CNT_count (i : Nat) : Fld := ⟨0xa1010 + 32 * i, 0, 32, .ro, 0, 0, 0⟩
def NMC_STAT_clear_busy : Fld := ⟨0xb0000, 31, 1, .ro, 1, 0, 0⟩
def NMC_STAT_retention : Fld := ⟨0xb0000, 30, 1, .ro, 0, 0, 0⟩
def NMC_STAT_full : Fld := ⟨0xb0000, 0, 4, .ro, 0, 0, 0⟩
def NMC_EVT_rake_fail : Fld := ⟨0xb0004, 3, 1, .w1c, 0, 0, 0⟩
def NMC_EVT_ue : Fld := ⟨0xb0004, 2, 1, .w1c, 0, 0, 0⟩
def NMC_EVT_ce : Fld := ⟨0xb0004, 1, 1, .w1c, 0, 0, 0⟩
def NMC_EVT_ring_full : Fld := ⟨0xb0004, 0, 1, .w1c, 0, 0, 0⟩
def NMC_IRQ_EN_en : Fld := ⟨0xb0008, 0, 4, .rw, 0, 0, 0⟩
def NMC_CE_CNT_count : Fld := ⟨0xb0010, 0, 32, .ro, 0, 0, 0⟩
def NMC_UE_CNT_count : Fld := ⟨0xb0014, 0, 32, .ro, 0, 0, 0⟩
def NMC_ERR_ADDR_valid : Fld := ⟨0xb0018, 31, 1, .ro, 0, 0, 0⟩
def NMC_ERR_ADDR_ue : Fld := ⟨0xb0018, 30, 1, .ro, 0, 0, 0⟩
def NMC_ERR_ADDR_scratch : Fld := ⟨0xb0018, 29, 1, .ro, 0, 0, 0⟩
def NMC_ERR_ADDR_tile : Fld := ⟨0xb0018, 24, 4, .ro, 0, 0, 0⟩
def NMC_ERR_ADDR_word : Fld := ⟨0xb0018, 0, 18, .ro, 0, 0, 0⟩
def NMC_RINGn_max (i : Nat) : Fld := ⟨0xb0020 + 4 * i, 16, 16, .ro, 0, 0, 0⟩
def NMC_RINGn_fill (i : Nat) : Fld := ⟨0xb0020 + 4 * i, 0, 16, .ro, 0, 0, 0⟩
def DMC_CTL_key : Fld := ⟨0xc0000, 16, 16, .wo, 0, 0, 0⟩
def DMC_CTL_pc : Fld := ⟨0xc0000, 8, 7, .wo, 0, 0, 0⟩
def DMC_CTL_init : Fld := ⟨0xc0000, 2, 1, .wo, 0, 0, 0⟩
def DMC_CTL_retire : Fld := ⟨0xc0000, 1, 1, .wo, 0, 0, 0⟩
def DMC_CTL_apply : Fld := ⟨0xc0000, 0, 1, .wo, 0, 0, 0⟩
def DMC_STAT_clear_busy : Fld := ⟨0xc0004, 31, 1, .ro, 1, 0, 0⟩
def DMC_STAT_init_done : Fld := ⟨0xc0004, 30, 1, .ro, 0, 0, 0⟩
def DMC_STAT_migrating : Fld := ⟨0xc0004, 29, 1, .ro, 0, 0, 0⟩
def DMC_STAT_hash_bad : Fld := ⟨0xc0004, 28, 1, .ro, 0, 0, 0⟩
def DMC_STAT_ret_limit : Fld := ⟨0xc0004, 27, 1, .ro, 0, 0, 0⟩
def DMC_STAT_retired : Fld := ⟨0xc0004, 0, 3, .ro, 0, 0, 0⟩
def DMC_EVT_early_wr : Fld := ⟨0xc0008, 8, 1, .w1c, 0, 0, 0⟩
def DMC_EVT_starve : Fld := ⟨0xc0008, 7, 1, .w1c, 0, 0, 0⟩
def DMC_EVT_ret_limit : Fld := ⟨0xc0008, 6, 1, .w1c, 0, 0, 0⟩
def DMC_EVT_retired : Fld := ⟨0xc0008, 5, 1, .w1c, 0, 0, 0⟩
def DMC_EVT_spare : Fld := ⟨0xc0008, 4, 1, .w1c, 0, 0, 0⟩
def DMC_EVT_hot : Fld := ⟨0xc0008, 3, 1, .w1c, 0, 0, 0⟩
def DMC_EVT_ue : Fld := ⟨0xc0008, 2, 1, .w1c, 0, 0, 0⟩
def DMC_EVT_ce : Fld := ⟨0xc0008, 1, 1, .w1c, 0, 0, 0⟩
def DMC_EVT_init_fail : Fld := ⟨0xc0008, 0, 1, .w1c, 0, 0, 0⟩
def DMC_IRQ_EN_en : Fld := ⟨0xc000c, 0, 9, .rw, 0, 0, 0⟩
def DMC_ILV_GRAIN_grain : Fld := ⟨0xc0010, 0, 4, .rw, 4, 0, 8⟩
def DMC_RESV_pct : Fld := ⟨0xc0014, 0, 7, .rw, 0x3c, 30, 90⟩
def DMC_STARVE_count : Fld := ⟨0xc0018, 0, 32, .ro, 0, 0, 0⟩
def DMC_RDP_dist2 : Fld := ⟨0xc001c, 8, 1, .rw, 0, 0, 0⟩
def DMC_RDP_k : Fld := ⟨0xc001c, 0, 5, .rw, 0xb, 8, 16⟩
def DMC_RET_THR_thr : Fld := ⟨0xc0020, 0, 16, .rw, 0x400, 0, 0⟩
def DMC_MIG_busy : Fld := ⟨0xc0024, 31, 1, .ro, 0, 0, 0⟩
def DMC_MIG_pc : Fld := ⟨0xc0024, 24, 7, .ro, 0, 0, 0⟩
def DMC_MIG_rate : Fld := ⟨0xc0024, 16, 8, .rw, 4, 1, 16⟩
def DMC_MIG_done : Fld := ⟨0xc0024, 0, 11, .ro, 0, 0, 0⟩
def DMC_TEMPs_valid (i : Nat) : Fld := ⟨0xc0030 + 4 * i, 31, 1, .ro, 0, 0, 0⟩
def DMC_TEMPs_hot (i : Nat) : Fld := ⟨0xc0030 + 4 * i, 30, 1, .ro, 0, 0, 0⟩
def DMC_TEMPs_limit (i : Nat) : Fld := ⟨0xc0030 + 4 * i, 24, 4, .ro, 8, 0, 0⟩
def DMC_TEMPs_owed (i : Nat) : Fld := ⟨0xc0030 + 4 * i, 20, 4, .ro, 0, 0, 0⟩
def DMC_TEMPs_temp (i : Nat) : Fld := ⟨0xc0030 + 4 * i, 0, 16, .ro, 0, 0, 0⟩
def DMC_RETIRED_bits (i : Nat) : Fld := ⟨0xc0040 + 4 * i, 0, 32, .ro, 0, 0, 0⟩
def DMC_CE_CNT_count : Fld := ⟨0xc0050, 0, 32, .ro, 0, 0, 0⟩
def DMC_UE_CNT_count : Fld := ⟨0xc0054, 0, 32, .ro, 0, 0, 0⟩
def DMC_RDP_CNT_count : Fld := ⟨0xc0058, 0, 32, .ro, 0, 0, 0⟩
def DMC_SPARE_USED_count : Fld := ⟨0xc005c, 0, 32, .ro, 0, 0, 0⟩
def DMC_ERR_HI_valid : Fld := ⟨0xc0064, 31, 1, .ro, 0, 0, 0⟩
def DMC_ERR_HI_ue : Fld := ⟨0xc0064, 30, 1, .ro, 0, 0, 0⟩
def DMC_ERR_HI_pc : Fld := ⟨0xc0064, 16, 7, .ro, 0, 0, 0⟩
def DMC_HASHn_LO_mask (i : Nat) : Fld := ⟨0xc0100 + 8 * i, 0, 32, .rw, hashResetLo.getD i 0, 0, 0⟩
def DMC_HASHn_HI_mask (i : Nat) : Fld := ⟨0xc0104 + 8 * i, 0, 5, .rw, hashResetHi.getD i 0, 0, 0⟩
def DMC_DLY_CA_ck (i : Nat) : Fld := ⟨0xc1000 + 16 * i, 8, 8, .rw, 0, 0, 0⟩
def DMC_DLY_CA_ca (i : Nat) : Fld := ⟨0xc1000 + 16 * i, 0, 8, .rw, 0, 0, 0⟩
def DMC_DLY_WR_lane (i : Nat) : Fld := ⟨0xc1004 + 16 * i, 0, 32, .rw, 0, 0, 0⟩
def DMC_DLY_RD_lane (i : Nat) : Fld := ⟨0xc1008 + 16 * i, 0, 32, .rw, 0, 0, 0⟩
def DMC_PC_STAT_state (i : Nat) : Fld := ⟨0xc100c + 16 * i, 30, 2, .ro, 0, 0, 0⟩
def DMC_PC_STAT_link_fail (i : Nat) : Fld := ⟨0xc100c + 16 * i, 29, 1, .ro, 0, 0, 0⟩
def DMC_PC_STAT_spares (i : Nat) : Fld := ⟨0xc100c + 16 * i, 16, 10, .ro, 0, 0, 0⟩
def DMC_PC_STAT_ce (i : Nat) : Fld := ⟨0xc100c + 16 * i, 0, 16, .ro, 0, 0, 0⟩
def RAK_CTL_algo : Fld := ⟨0xd0000, 4, 2, .rw, 0, 0, 0⟩
def RAK_CTL_scr_en : Fld := ⟨0xd0000, 2, 1, .rw, 1, 0, 0⟩
def RAK_CTL_deep_en : Fld := ⟨0xd0000, 1, 1, .rw, 1, 0, 0⟩
def RAK_CTL_near_en : Fld := ⟨0xd0000, 0, 1, .rw, 1, 0, 0⟩
def RAK_STAT_busy : Fld := ⟨0xd0004, 31, 1, .ro, 0, 0, 0⟩
def RAK_STAT_lease : Fld := ⟨0xd0004, 28, 3, .ro, 0, 0, 0⟩
def RAK_EVT_preempt : Fld := ⟨0xd0008, 2, 1, .w1c, 0, 0, 0⟩
def RAK_EVT_fail : Fld := ⟨0xd0008, 1, 1, .w1c, 0, 0, 0⟩
def RAK_EVT_sweep_done : Fld := ⟨0xd0008, 0, 1, .w1c, 0, 0, 0⟩
def RAK_IRQ_EN_en : Fld := ⟨0xd000c, 0, 3, .rw, 0, 0, 0⟩
def RAK_RATE_scr : Fld := ⟨0xd0010, 16, 8, .rw, 4, 1, 0⟩
def RAK_RATE_deep : Fld := ⟨0xd0010, 8, 8, .rw, 8, 1, 16⟩
def RAK_RATE_near : Fld := ⟨0xd0010, 0, 8, .rw, 4, 1, 16⟩
def RAK_PASS_NEAR_count : Fld := ⟨0xd0014, 0, 32, .ro, 0, 0, 0⟩
def RAK_PASS_DEEP_count : Fld := ⟨0xd0018, 0, 32, .ro, 0, 0, 0⟩
def RAK_PASS_SCR_count : Fld := ⟨0xd001c, 0, 32, .ro, 0, 0, 0⟩
def RAK_FAIL_CNT_count : Fld := ⟨0xd0020, 0, 32, .ro, 0, 0, 0⟩
def RAK_PREEMPT_count : Fld := ⟨0xd0024, 0, 32, .ro, 0, 0, 0⟩
def RAK_FAIL_ADDR_LO_offset : Fld := ⟨0xd0028, 0, 32, .ro, 0, 0, 0⟩
def RAK_FAIL_ADDR_HI_valid : Fld := ⟨0xd002c, 31, 1, .ro, 0, 0, 0⟩
def RAK_FAIL_ADDR_HI_target : Fld := ⟨0xd002c, 28, 2, .ro, 0, 0, 0⟩
def RAK_FAIL_ADDR_HI_pc : Fld := ⟨0xd002c, 16, 7, .ro, 0, 0, 0⟩
def RAK_FAIL_ADDR_HI_bit : Fld := ⟨0xd002c, 0, 8, .ro, 0, 0, 0⟩
def HRV_CTL_en : Fld := ⟨0xe0000, 0, 1, .rw, 0, 0, 0⟩
def HRV_STAT_cq_full : Fld := ⟨0xe0004, 16, 16, .ro, 0, 0, 0⟩
def HRV_STAT_active : Fld := ⟨0xe0004, 0, 16, .ro, 0, 0, 0⟩
def HRV_EVT_link : Fld := ⟨0xe0008, 4, 1, .w1c, 0, 0, 0⟩
def HRV_EVT_host_err : Fld := ⟨0xe0008, 3, 1, .w1c, 0, 0, 0⟩
def HRV_EVT_overrun : Fld := ⟨0xe0008, 2, 1, .w1c, 0, 0, 0⟩
def HRV_EVT_poison : Fld := ⟨0xe0008, 1, 1, .w1c, 0, 0, 0⟩
def HRV_EVT_bad_desc : Fld := ⟨0xe0008, 0, 1, .w1c, 0, 0, 0⟩
def HRV_IRQ_EN_en : Fld := ⟨0xe000c, 0, 5, .rw, 0, 0, 0⟩
def HRV_LINK_up : Fld := ⟨0xe0010, 31, 1, .ro, 0, 0, 0⟩
def HRV_LINK_width : Fld := ⟨0xe0010, 16, 5, .ro, 0, 0, 0⟩
def HRV_LINK_downshifts : Fld := ⟨0xe0010, 8, 8, .ro, 0, 0, 0⟩
def HRV_LINK_speed : Fld := ⟨0xe0010, 0, 4, .ro, 0, 0, 0⟩
def HRV_POISON_CNT_count : Fld := ⟨0xe0014, 0, 32, .ro, 0, 0, 0⟩
def HRV_RINGn_BASE_LO_addr (i : Nat) : Fld := ⟨0xe1000 + 64 * i, 6, 26, .rw, 0, 0, 0⟩
def HRV_CQm_BASE_LO_addr (i : Nat) : Fld := ⟨0xe2000 + 64 * i, 6, 26, .rw, 0, 0, 0⟩
def HRV_RINGn_BASE_HI_addr (i : Nat) : Fld := ⟨0xe1004 + 64 * i, 0, 32, .rw, 0, 0, 0⟩
def HRV_CQm_BASE_HI_addr (i : Nat) : Fld := ⟨0xe2004 + 64 * i, 0, 32, .rw, 0, 0, 0⟩
def HRV_RINGn_CFG_en (i : Nat) : Fld := ⟨0xe1008 + 64 * i, 31, 1, .rw, 0, 0, 0⟩
def HRV_RINGn_CFG_size (i : Nat) : Fld := ⟨0xe1008 + 64 * i, 24, 5, .rw, 4, 4, 16⟩
def HRV_RINGn_CFG_cq (i : Nat) : Fld := ⟨0xe1008 + 64 * i, 20, 4, .rw, 0, 0, 0⟩
def HRV_RINGn_CFG_src (i : Nat) : Fld := ⟨0xe1008 + 64 * i, 16, 4, .rw, 0, 0, 0⟩
def HRV_RINGn_CFG_flush (i : Nat) : Fld := ⟨0xe1008 + 64 * i, 0, 16, .rw, 0, 0, 0⟩
def HRV_RINGn_TAIL_idx (i : Nat) : Fld := ⟨0xe100c + 64 * i, 0, 16, .rw, 0, 0, 0⟩
def HRV_RINGn_HEAD_idx (i : Nat) : Fld := ⟨0xe1010 + 64 * i, 0, 16, .ro, 0, 0, 0⟩
def HRV_CQm_HEAD_idx (i : Nat) : Fld := ⟨0xe200c + 64 * i, 0, 16, .rw, 0, 0, 0⟩
def HRV_RINGn_STAT_running (i : Nat) : Fld := ⟨0xe1014 + 64 * i, 31, 1, .ro, 0, 0, 0⟩
def HRV_RINGn_STAT_bad (i : Nat) : Fld := ⟨0xe1014 + 64 * i, 30, 1, .ro, 0, 0, 0⟩
def HRV_RINGn_STAT_stream (i : Nat) : Fld := ⟨0xe1014 + 64 * i, 29, 1, .ro, 0, 0, 0⟩
def HRV_RINGn_STAT_host_err (i : Nat) : Fld := ⟨0xe1014 + 64 * i, 28, 1, .w1c, 0, 0, 0⟩
def HRV_RINGn_RPTR_ptr (i : Nat) : Fld := ⟨0xe1018 + 64 * i, 0, 32, .ro, 0, 0, 0⟩
def HRV_CQm_CFG_en (i : Nat) : Fld := ⟨0xe2008 + 64 * i, 31, 1, .rw, 0, 0, 0⟩
def HRV_CQm_CFG_size (i : Nat) : Fld := ⟨0xe2008 + 64 * i, 16, 5, .rw, 4, 4, 16⟩
def HRV_CQm_CFG_count (i : Nat) : Fld := ⟨0xe2008 + 64 * i, 0, 13, .rw, 1, 1, 4096⟩
def HRV_CQm_TAIL_phase (i : Nat) : Fld := ⟨0xe2010 + 64 * i, 16, 1, .ro, 1, 0, 0⟩
def HRV_CQm_TAIL_idx (i : Nat) : Fld := ⟨0xe2010 + 64 * i, 0, 16, .ro, 0, 0, 0⟩
def HRV_CQm_MOD_T_time (i : Nat) : Fld := ⟨0xe2014 + 64 * i, 0, 14, .rw, 0xa, 1, 10000⟩
def STP_CFG_ind_en : Fld := ⟨0xf0000, 1, 1, .rw, 1, 0, 0⟩
def STP_CFG_en : Fld := ⟨0xf0000, 0, 1, .rw, 1, 0, 0⟩
def STP_COLL_rd : Fld := ⟨0xf0004, 31, 1, .w1c, 0, 0, 0⟩
def STP_COLL_wr : Fld := ⟨0xf0004, 30, 1, .w1c, 0, 0, 0⟩
def STP_COLL_RD_CNT_count : Fld := ⟨0xf0008, 0, 32, .ro, 0, 0, 0⟩
def STP_COLL_WR_CNT_count : Fld := ⟨0xf000c, 0, 32, .ro, 0, 0, 0⟩
def STP_EVT_doorbell : Fld := ⟨0xf0010, 1, 1, .ro, 0, 0, 0⟩
def STP_EVT_coll : Fld := ⟨0xf0010, 0, 1, .w1c, 0, 0, 0⟩
def STP_IRQ_EN_en : Fld := ⟨0xf0014, 0, 2, .rw, 0, 0, 0⟩
def STP_IRQ_SRC_src : Fld := ⟨0xf0018, 0, 17, .ro, 0, 0, 0⟩
def STP_SP_IRQ_EN_src : Fld := ⟨0xf001c, 0, 17, .rw, 0, 0, 0⟩
def STP_DB_OUT_db : Fld := ⟨0xf0020, 0, 16, .w1s, 0, 0, 0⟩
def STP_DB_IN_db : Fld := ⟨0xf0024, 0, 16, .w1c, 0, 0, 0⟩
def GRF_UNIT_ID_valid : Fld := ⟨0x100000, 31, 1, .rw, 0, 0, 0⟩
def GRF_UNIT_ID_id : Fld := ⟨0x100000, 0, 12, .rw, 0, 0, 0⟩
def GRF_CFG_max_hop : Fld := ⟨0x100004, 0, 4, .rw, 8, 1, 8⟩
def GRF_EVT_rx : Fld := ⟨0x100008, 6, 1, .w1c, 0, 0, 0⟩
def GRF_EVT_drop : Fld := ⟨0x100008, 5, 1, .w1c, 0, 0, 0⟩
def GRF_EVT_crc : Fld := ⟨0x100008, 4, 1, .w1c, 0, 0, 0⟩
def GRF_EVT_ofs : Fld := ⟨0x100008, 3, 1, .w1c, 0, 0, 0⟩
def GRF_EVT_dup_id : Fld := ⟨0x100008, 2, 1, .w1c, 0, 0, 0⟩
def GRF_EVT_link_up : Fld := ⟨0x100008, 1, 1, .w1c, 0, 0, 0⟩
def GRF_EVT_link_down : Fld := ⟨0x100008, 0, 1, .w1c, 0, 0, 0⟩
def GRF_IRQ_EN_en : Fld := ⟨0x10000c, 0, 7, .rw, 0, 0, 0⟩
def GRF_OFS_THR_thr : Fld := ⟨0x100010, 0, 32, .rw, 0x5000, 0, 0⟩
def GRF_TX_seq : Fld := ⟨0x100014, 24, 8, .ro, 0, 0, 0⟩
def GRF_TX_count : Fld := ⟨0x100014, 0, 24, .ro, 0, 0, 0⟩
def GRF_DUP_count : Fld := ⟨0x100018, 0, 32, .ro, 0, 0, 0⟩
def GRF_GLn_CFG_en (i : Nat) : Fld := ⟨0x100100 + 64 * i, 31, 1, .rw, 0, 0, 0⟩
def GRF_GLn_CFG_dly_src (i : Nat) : Fld := ⟨0x100100 + 64 * i, 30, 1, .rw, 0, 0, 0⟩
def GRF_GLn_CFG_fwd (i : Nat) : Fld := ⟨0x100100 + 64 * i, 24, 4, .rw, 0, 0, 0⟩
def GRF_GLn_STAT_state (i : Nat) : Fld := ⟨0x100104 + 64 * i, 30, 2, .ro, 0, 0, 0⟩
def GRF_GLn_STAT_peer_valid (i : Nat) : Fld := ⟨0x100104 + 64 * i, 29, 1, .ro, 0, 0, 0⟩
def GRF_GLn_STAT_peer (i : Nat) : Fld := ⟨0x100104 + 64 * i, 0, 12, .ro, 0, 0, 0⟩
def GRF_CABLE_DLY_value (i : Nat) : Fld := ⟨0x100108 + 64 * i, 0, 32, .rw, 0, 0, 0⟩
def GRF_GLn_DLY_value (i : Nat) : Fld := ⟨0x10010c + 64 * i, 0, 32, .ro, 0, 0, 0⟩
def GRF_GLn_OFS_value (i : Nat) : Fld := ⟨0x100110 + 64 * i, 0, 32, .ro, 0, 0, 0⟩
def GRF_GLn_RX_ign (i : Nat) : Fld := ⟨0x100114 + 64 * i, 16, 16, .ro, 0, 0, 0⟩
def GRF_GLn_RX_rx (i : Nat) : Fld := ⟨0x100114 + 64 * i, 0, 16, .ro, 0, 0, 0⟩
def GRF_GLn_ERR_crc (i : Nat) : Fld := ⟨0x100118 + 64 * i, 16, 16, .ro, 0, 0, 0⟩
def GRF_GLn_ERR_drop (i : Nat) : Fld := ⟨0x100118 + 64 * i, 0, 16, .ro, 0, 0, 0⟩
def GRF_GLn_LAST_SRC_valid (i : Nat) : Fld := ⟨0x10011c + 64 * i, 31, 1, .ro, 0, 0, 0⟩
def GRF_GLn_LAST_SRC_coarse (i : Nat) : Fld := ⟨0x10011c + 64 * i, 30, 1, .ro, 0, 0, 0⟩
def GRF_GLn_LAST_SRC_hop (i : Nat) : Fld := ⟨0x10011c + 64 * i, 24, 4, .ro, 0, 0, 0⟩
def GRF_GLn_LAST_SRC_src (i : Nat) : Fld := ⟨0x10011c + 64 * i, 12, 12, .ro, 0, 0, 0⟩
def GRF_GLn_LAST_SRC_mark_code (i : Nat) : Fld := ⟨0x10011c + 64 * i, 0, 8, .ro, 0, 0, 0⟩
def HKS_BOOT_done : Fld := ⟨0x130000, 31, 1, .ro, 0, 0, 0⟩
def HKS_BOOT_safe : Fld := ⟨0x130000, 30, 1, .ro, 0, 0, 0⟩
def HKS_BOOT_sig_req : Fld := ⟨0x130000, 29, 1, .ro, 0, 0, 0⟩
def HKS_BOOT_signed : Fld := ⟨0x130000, 28, 1, .ro, 0, 0, 0⟩
def HKS_BOOT_verified : Fld := ⟨0x130000, 27, 1, .ro, 0, 0, 0⟩
def HKS_BOOT_key_src : Fld := ⟨0x130000, 25, 2, .ro, 0, 0, 0⟩
def HKS_BOOT_sel : Fld := ⟨0x130000, 23, 2, .ro, 0, 0, 0⟩
def HKS_BOOT_err : Fld := ⟨0x130000, 0, 8, .ro, 0, 0, 0⟩
def HKS_STAT_running : Fld := ⟨0x130004, 31, 1, .ro, 0, 0, 0⟩
def HKS_STAT_poll_to : Fld := ⟨0x130004, 30, 1, .w1c, 0, 0, 0⟩
def HKS_STAT_script : Fld := ⟨0x130004, 24, 4, .ro, 0, 0, 0⟩
def HKS_STAT_err : Fld := ⟨0x130004, 16, 8, .ro, 0, 0, 0⟩
def HKS_STAT_err_script : Fld := ⟨0x130004, 12, 4, .ro, 0, 0, 0⟩
def HKS_STAT_pending : Fld := ⟨0x130004, 1, 7, .ro, 0, 0, 0⟩
def HKS_EVT_bits : Fld := ⟨0x130008, 0, 6, .w1c, 0, 0, 0⟩
def HKS_IRQ_EN_bits : Fld := ⟨0x13000c, 0, 6, .rw, 0, 0, 0⟩
def HKS_CFG_arm_wake : Fld := ⟨0x130010, 1, 1, .rw, 0, 0, 0⟩
def HKS_CFG_arm_boot : Fld := ⟨0x130010, 0, 1, .rw, 0, 0, 0⟩
def HKS_ERR_PC_pc : Fld := ⟨0x130014, 0, 24, .ro, 0, 0, 0⟩
def HKS_RUN_start : Fld := ⟨0x130018, 31, 1, .wo, 0, 0, 0⟩
def HKS_RUN_ofs : Fld := ⟨0x130018, 0, 16, .wo, 0, 0, 0⟩
def HKS_WDG_en : Fld := ⟨0x13001c, 31, 1, .rw, 0, 0, 0⟩
def HKS_WDG_host_feed : Fld := ⟨0x13001c, 30, 1, .rw, 0, 0, 0⟩
def HKS_WDG_period : Fld := ⟨0x13001c, 0, 14, .rw, 0x3e80, 1, 16000⟩
def HKS_WDG_FEED_key : Fld := ⟨0x130020, 16, 16, .wo, 0, 0, 0⟩
def HKS_WAKE_CFG_count : Fld := ⟨0x130030, 8, 8, .rw, 2, 2, 0⟩
def HKS_WAKE_CFG_class : Fld := ⟨0x130030, 0, 3, .rw, 1, 0, 0⟩
def HKS_WAKE_WIN_win : Fld := ⟨0x130034, 0, 24, .rw, 0xc35, 1, 0⟩
def HKS_WAKE_PAIR_ch_b : Fld := ⟨0x130038, 16, 10, .rw, 0, 0, 0⟩
def HKS_WAKE_PAIR_ch_a : Fld := ⟨0x130038, 0, 10, .rw, 0, 0, 0⟩
def HKS_WAKE_STAT_missed : Fld := ⟨0x13003c, 16, 16, .ro, 0, 0, 0⟩
def HKS_WAKE_STAT_class : Fld := ⟨0x13003c, 13, 3, .ro, 0, 0, 0⟩
def HKS_WAKE_STAT_ch : Fld := ⟨0x13003c, 0, 11, .ro, 0, 0, 0⟩
def HKS_WAKE_AT_LO_kt : Fld := ⟨0x130040, 0, 32, .rw, 0, 0, 0⟩
def HKS_WAKE_AT_MID_kt : Fld := ⟨0x130044, 0, 32, .rw, 0, 0, 0⟩
def HKS_WAKE_AT_HI_en : Fld := ⟨0x130048, 31, 1, .rw, 0, 0, 0⟩
def HKS_WAKE_AT_HI_kt_hi : Fld := ⟨0x130048, 0, 8, .rw, 0, 0, 0⟩
def HKS_NV_CTL_busy : Fld := ⟨0x130050, 31, 1, .ro, 0, 0, 0⟩
def HKS_NV_CTL_err : Fld := ⟨0x130050, 30, 1, .w1c, 0, 0, 0⟩
def HKS_NV_CTL_bbx_ok : Fld := ⟨0x130050, 29, 1, .rw, 0, 0, 0⟩
def HKS_NV_CTL_op : Fld := ⟨0x130050, 0, 3, .wo, 0, 0, 0⟩
def HKS_NV_ADDR_addr : Fld := ⟨0x130054, 0, 28, .rw, 0, 0, 0⟩
def HKS_NV_INFO_size : Fld := ⟨0x130058, 0, 32, .ro, 0, 0, 0⟩
def HKS_KEYH_hash (i : Nat) : Fld := ⟨0x130060 + 4 * i, 0, 32, .ro, 0, 0, 0⟩
def HKS_EVSCRe_bound (i : Nat) : Fld := ⟨0x130100 + 4 * i, 31, 1, .rw, 0, 0, 0⟩
def HKS_EVSCRe_runs (i : Nat) : Fld := ⟨0x130100 + 4 * i, 16, 8, .ro, 0, 0, 0⟩
def HKS_EVSCRe_ofs (i : Nat) : Fld := ⟨0x130100 + 4 * i, 0, 16, .rw, 0, 0, 0⟩
def PWR_STAT_loss_seq : Fld := ⟨0x110000, 31, 1, .ro, 0, 0, 0⟩
def PWR_STAT_holdup_ok : Fld := ⟨0x110000, 30, 1, .ro, 1, 0, 0⟩
def PWR_STAT_b_state : Fld := ⟨0x110000, 20, 4, .ro, 0, 0, 0⟩
def PWR_STAT_a_state : Fld := ⟨0x110000, 16, 4, .ro, 0, 0, 0⟩
def PWR_STAT_active : Fld := ⟨0x110000, 0, 1, .ro, 0, 0, 0⟩
def PWR_EVT_bits : Fld := ⟨0x110004, 0, 11, .w1c, 0, 0, 0⟩
def PWR_IRQ_EN_bits : Fld := ⟨0x110008, 0, 11, .rw, 0, 0, 0⟩
def PWR_CFG_revert_s : Fld := ⟨0x11000c, 8, 8, .rw, 0xa, 1, 0⟩
def PWR_CFG_revert : Fld := ⟨0x11000c, 1, 1, .rw, 0, 0, 0⟩
def PWR_CFG_pref : Fld := ⟨0x11000c, 0, 1, .rw, 0, 0, 0⟩
def PWR_CTL_key : Fld := ⟨0x110010, 16, 16, .wo, 0, 0, 0⟩
def PWR_CTL_switch : Fld := ⟨0x110010, 0, 1, .wo, 0, 0, 0⟩
def PWR_FEED_A_current : Fld := ⟨0x110014, 16, 16, .ro, 0, 0, 0⟩
def PWR_FEED_A_volt : Fld := ⟨0x110014, 0, 16, .ro, 0, 0, 0⟩
def PWR_FEED_B_current : Fld := ⟨0x110018, 16, 16, .ro, 0, 0, 0⟩
def PWR_FEED_B_volt : Fld := ⟨0x110018, 0, 16, .ro, 0, 0, 0⟩
def PWR_SWITCH_cause : Fld := ⟨0x11001c, 24, 8, .ro, 0, 0, 0⟩
def PWR_SWITCH_count : Fld := ⟨0x11001c, 0, 24, .ro, 0, 0, 0⟩
def PWR_IOFAULT_live : Fld := ⟨0x110020, 8, 6, .ro, 0, 0, 0⟩
def PWR_IOFAULT_seen : Fld := ⟨0x110020, 0, 6, .w1c, 0, 0, 0⟩
def PWR_THERM_warn : Fld := ⟨0x110024, 31, 1, .ro, 0, 0, 0⟩
def PWR_THERM_sensor : Fld := ⟨0x110024, 24, 4, .ro, 0, 0, 0⟩
def PWR_THERM_temp : Fld := ⟨0x110024, 0, 16, .ro, 0, 0, 0⟩
def PWR_THERM_CFG_restart : Fld := ⟨0x110028, 0, 1, .rw, 1, 0, 0⟩
def PWR_RAIL_lost : Fld := ⟨0x11002c, 0, 16, .ro, 0, 0, 0⟩
def PWR_RES_RETRY_count : Fld := ⟨0x110030, 0, 32, .ro, 0, 0, 0⟩
def PWR_RES_SPARE_count : Fld := ⟨0x110034, 0, 32, .ro, 0, 0, 0⟩
def PWR_RES_RETIRED_unit : Fld := ⟨0x110038, 24, 8, .ro, 0, 0, 0⟩
def PWR_RES_RETIRED_nospare : Fld := ⟨0x110038, 16, 8, .ro, 0, 0, 0⟩
def PWR_RES_RETIRED_slots : Fld := ⟨0x110038, 0, 16, .ro, 0, 0, 0⟩
def PWR_LANEg_nospare (i : Nat) : Fld := ⟨0x110040 + 4 * i, 31, 1, .ro, 0, 0, 0⟩
def PWR_LANEg_used (i : Nat) : Fld := ⟨0x110040 + 4 * i, 28, 3, .ro, 0, 0, 0⟩
def PWR_LANEg_channel (i : Nat) : Fld := ⟨0x110040 + 4 * i, 16, 10, .ro, 0, 0, 0⟩
def PWR_LANEg_cal (i : Nat) : Fld := ⟨0x110040 + 4 * i, 4, 1, .ro, 0, 0, 0⟩
def PWR_LANEg_spares (i : Nat) : Fld := ⟨0x110040 + 4 * i, 0, 4, .ro, 0, 0, 0⟩
def BBX_CTL_key : Fld := ⟨0x120000, 16, 16, .wo, 0, 0, 0⟩
def BBX_CTL_prep : Fld := ⟨0x120000, 3, 1, .wo, 0, 0, 0⟩
def BBX_CTL_clear : Fld := ⟨0x120000, 2, 1, .wo, 0, 0, 0⟩
def BBX_CTL_unfreeze : Fld := ⟨0x120000, 1, 1, .wo, 0, 0, 0⟩
def BBX_CTL_freeze : Fld := ⟨0x120000, 0, 1, .wo, 0, 0, 0⟩
def BBX_STAT_frozen : Fld := ⟨0x120004, 31, 1, .ro, 0, 0, 0⟩
def BBX_STAT_freeze_cause : Fld := ⟨0x120004, 28, 3, .ro, 0, 0, 0⟩
def BBX_STAT_prev_valid : Fld := ⟨0x120004, 27, 1, .ro, 0, 0, 0⟩
def BBX_STAT_nv_state : Fld := ⟨0x120004, 24, 3, .ro, 0, 0, 0⟩
def BBX_STAT_count : Fld := ⟨0x120004, 0, 13, .ro, 0, 0, 0⟩
def BBX_EVT_bits : Fld := ⟨0x120008, 0, 4, .w1c, 0, 0, 0⟩
def BBX_IRQ_EN_bits : Fld := ⟨0x12000c, 0, 4, .rw, 0, 0, 0⟩
def BBX_CFG_overwrite : Fld := ⟨0x120010, 2, 1, .rw, 0, 0, 0⟩
def BBX_CFG_auto_prep : Fld := ⟨0x120010, 1, 1, .rw, 1, 0, 0⟩
def BBX_CFG_load : Fld := ⟨0x120010, 0, 1, .rw, 1, 0, 0⟩
def BBX_HEAD_value : Fld := ⟨0x120014, 0, 32, .ro, 0, 0, 0⟩
def BBX_LOST_value : Fld := ⟨0x120018, 0, 32, .ro, 0, 0, 0⟩
def BBX_DUMP_result : Fld := ⟨0x12001c, 28, 4, .ro, 0, 0, 0⟩
def BBX_DUMP_time : Fld := ⟨0x12001c, 0, 24, .ro, 0, 0, 0⟩
def BBX_RD_IDX_bank : Fld := ⟨0x120020, 31, 1, .rw, 0, 0, 0⟩
def BBX_RD_IDX_age : Fld := ⟨0x120020, 0, 12, .rw, 0, 0, 0⟩
def BBX_RD_bytes (i : Nat) : Fld := ⟨0x120024 + 4 * i, 0, 32, .ro, 0, 0, 0⟩
def STP_SW_ID_id : Fld := ⟨0x4000000, 0, 16, .ro, 0x4b4d, 0, 0⟩
def STP_SW_STAT_variant : Fld := ⟨0x4000004, 12, 4, .ro, 0, 0, 0⟩
def STP_SW_STAT_irq : Fld := ⟨0x4000004, 2, 1, .ro, 0, 0, 0⟩
def STP_SW_STAT_err : Fld := ⟨0x4000004, 1, 1, .w1c, 0, 0, 0⟩
def STP_SW_STAT_busy : Fld := ⟨0x4000004, 0, 1, .ro, 0, 0, 0⟩
def STP_SW_ADDR_LO_addr : Fld := ⟨0x4000008, 0, 16, .rw, 0, 0, 0⟩
def STP_SW_ADDR_HI_addr : Fld := ⟨0x400000c, 0, 10, .rw, 0, 0, 0⟩
def STP_SW_DATA_LO_data : Fld := ⟨0x4000010, 0, 16, .rw, 0, 0, 0⟩
def STP_SW_DATA_HI_data : Fld := ⟨0x4000014, 0, 16, .rw, 0, 0, 0⟩
def STP_SW_CMD_write : Fld := ⟨0x4000018, 1, 1, .wo, 0, 0, 0⟩
def STP_SW_CMD_read : Fld := ⟨0x4000018, 0, 1, .wo, 0, 0, 0⟩
def STP_SW_IRQ_SRC_LO_src : Fld := ⟨0x4000020, 0, 16, .ro, 0, 0, 0⟩
def STP_SW_IRQ_SRC_HI_src : Fld := ⟨0x4000024, 0, 1, .ro, 0, 0, 0⟩
def STP_SW_IRQ_EN_LO_en : Fld := ⟨0x4000028, 0, 16, .rw, 0, 0, 0⟩
def STP_SW_IRQ_EN_HI_db : Fld := ⟨0x400002c, 1, 1, .rw, 0, 0, 0⟩
def STP_SW_IRQ_EN_HI_en16 : Fld := ⟨0x400002c, 0, 1, .rw, 0, 0, 0⟩
def STP_SW_DB_IN_db : Fld := ⟨0x4000030, 0, 16, .w1c, 0, 0, 0⟩
def STP_SW_DB_OUT_db : Fld := ⟨0x4000034, 0, 16, .w1s, 0, 0, 0⟩
def STP_SW_COLL_count : Fld := ⟨0x4000038, 0, 16, .ro, 0, 0, 0⟩

/-- Registers of block GLB. -/
def rowsGLB : List RegRow := [
  ⟨0x0, 0, 0, 0, 0, .cold, fun _ _ => [GLB_ID_part, GLB_ID_family], fun _ => []⟩,
  ⟨0x4, 0, 0, 0, 0, .cold, fun _ _ => [], fun _ => []⟩,
  ⟨0x8, 0, 0, 0, 0, .cold, fun _ _ => [], fun _ => []⟩,
  ⟨0xc, 0, 0, 0, 0, .cold, fun _ _ => [], fun _ => []⟩,
  ⟨0x10, 0, 0, 0, 0, .cold, fun _ _ => [], fun _ => []⟩,
  ⟨0x20, 0, 0, 0, 0, .warm, fun _ _ => [GLB_MODE_wake_mode, GLB_MODE_comp_pair, GLB_MODE_composite, GLB_MODE_mode], fun _ => []⟩,
  ⟨0x24, 0, 0, 0, 0, .warm, fun _ _ => [GLB_STAT_ret_pend, GLB_STAT_mode_pend, GLB_STAT_comp_active, GLB_STAT_active_mode], fun _ => []⟩,
  ⟨0x30, 0, 0, 0, 0, .none, fun _ _ => [GLB_RST_key, GLB_RST_warm], fun _ => []⟩,
  ⟨0x34, 0, 0, 0, 0, .aon, fun _ _ => [GLB_RST_CTL_perst_warm], fun _ => []⟩,
  ⟨0x38, 0, 0, 0, 0, .aon, fun _ _ => [GLB_RST_CAUSE_perst, GLB_RST_CAUSE_watchdog, GLB_RST_CAUSE_soft, GLB_RST_CAUSE_pin, GLB_RST_CAUSE_off, GLB_RST_CAUSE_aon], fun _ => []⟩,
  ⟨0x40, 0, 0, 0, 0, .warm, fun _ _ => [GLB_M7_TASK_busy, GLB_M7_TASK_refused, GLB_M7_TASK_done, GLB_M7_TASK_task_run, GLB_M7_TASK_last_task, GLB_M7_TASK_last_status, GLB_M7_TASK_task], fun _ => []⟩]

/-- Registers of block INP. -/
def rowsINP : List RegRow := [
  ⟨0x30000, 64, 1024, 0, 0, .warm, fun i _ => [INP_THR_code i], fun _ => []⟩,
  ⟨0x30004, 64, 1024, 0, 0, .warm, fun i _ => [INP_CFG_drift_en i, INP_CFG_pchk_en i, INP_CFG_to_wake i, INP_CFG_to_irq i, INP_CFG_to_tdc i, INP_CFG_latch_auto i, INP_CFG_latch_edge i, INP_CFG_hyst i], fun _ => []⟩,
  ⟨0x30008, 64, 1024, 0, 0, .warm, fun i _ => [INP_LPER_period i], fun _ => []⟩,
  ⟨0x3000c, 64, 1024, 0, 0, .warm, fun i _ => [INP_LSTAT_unres i, INP_LSTAT_ovr i, INP_LSTAT_drift i, INP_LSTAT_ovr_seen i, INP_LSTAT_level i, INP_LSTAT_again i, INP_LSTAT_set i], fun _ => []⟩,
  ⟨0x30010, 64, 1024, 0, 0, .warm, fun _ _ => [], fun i => [⟨INP_LTIME_kt i, 0, 0, 32⟩]⟩,
  ⟨0x30014, 64, 1024, 0, 0, .warm, fun _ _ => [], fun i => [⟨INP_LTIME_kt i, 32, 0, 32⟩]⟩,
  ⟨0x30018, 64, 1024, 0, 0, .warm, fun i _ => [INP_LTIME_HI_res1ns i, INP_LTIME_HI_valid i], fun i => [⟨INP_LTIME_kt i, 64, 0, 8⟩]⟩,
  ⟨0x3001c, 64, 1024, 0, 0, .warm, fun i _ => [INP_RDBK_valid i, INP_RDBK_value i], fun _ => []⟩,
  ⟨0x30020, 64, 1024, 0, 0, .warm, fun i _ => [INP_PCHK_dv i, INP_PCHK_verdict i], fun _ => []⟩,
  ⟨0x30024, 64, 1024, 0, 0, .warm, fun i _ => [INP_PCHK_V_v1 i, INP_PCHK_V_v0 i], fun _ => []⟩,
  ⟨0x30030, 64, 32, 0, 0, .warm, fun _ _ => [], fun _ => []⟩,
  ⟨0x30034, 64, 32, 0, 0, .warm, fun _ _ => [], fun _ => []⟩,
  ⟨0x30038, 64, 32, 0, 0, .warm, fun _ _ => [], fun _ => []⟩,
  ⟨0x3003c, 64, 32, 0, 0, .warm, fun _ _ => [], fun _ => []⟩,
  ⟨0x30830, 0, 0, 0, 0, .warm, fun _ _ => [INP_PCHK_CTL_at_arm, INP_PCHK_CTL_busy, INP_PCHK_CTL_start], fun _ => []⟩,
  ⟨0x30834, 0, 0, 0, 0, .warm, fun _ _ => [INP_PCHK_STAT_refused, INP_PCHK_STAT_done, INP_PCHK_STAT_n_open, INP_PCHK_STAT_n_other], fun _ => []⟩,
  ⟨0x30838, 0, 0, 0, 0, .warm, fun _ _ => [INP_RDBK_CTL_sweeps, INP_RDBK_CTL_en], fun _ => []⟩,
  ⟨0x3083c, 0, 0, 0, 0, .warm, fun _ _ => [], fun _ => []⟩,
  ⟨0x30870, 0, 0, 0, 0, .warm, fun _ _ => [INP_PCHK_RAIL_rail_b, INP_PCHK_RAIL_rail_a], fun _ => []⟩,
  ⟨0x30874, 0, 0, 0, 0, .none, fun _ _ => [INP_LPER_SYNC_sync], fun _ => []⟩,
  ⟨0x30878, 0, 0, 0, 0, .warm, fun _ _ => [INP_IRQ_EN_en], fun _ => []⟩]

/-- Registers of block TMB. -/
def rowsTMB : List RegRow := [
  ⟨0x20000, 0, 0, 0, 0, .aon, fun _ _ => [], fun _ => []⟩,
  ⟨0x20004, 0, 0, 0, 0, .aon, fun _ _ => [], fun _ => []⟩,
  ⟨0x20008, 0, 0, 0, 0, .aon, fun _ _ => [], fun _ => []⟩,
  ⟨0x20010, 0, 0, 0, 0, .aon, fun _ _ => [TMB_EPOCH_LO_epoch], fun _ => []⟩,
  ⟨0x20014, 0, 0, 0, 0, .aon, fun _ _ => [TMB_EPOCH_MID_epoch], fun _ => []⟩,
  ⟨0x20018, 0, 0, 0, 0, .aon, fun _ _ => [TMB_EPOCH_HI_epoch], fun _ => []⟩,
  ⟨0x2001c, 0, 0, 0, 0, .aon, fun _ _ => [TMB_EPOCH_CTL_epoch_id, TMB_EPOCH_CTL_pending, TMB_EPOCH_CTL_cancel, TMB_EPOCH_CTL_load], fun _ => []⟩,
  ⟨0x20020, 0, 0, 0, 0, .aon, fun _ _ => [TMB_TRIM_trim], fun _ => []⟩,
  ⟨0x20024, 0, 0, 0, 0, .aon, fun _ _ => [TMB_AGE_RATE_rate], fun _ => []⟩,
  ⟨0x20028, 0, 0, 0, 0, .aon, fun _ _ => [], fun _ => []⟩,
  ⟨0x20030, 4, 5, 0, 0, .aon, fun i _ => [TMB_TCOMP_temp i, TMB_TCOMP_offset i], fun _ => []⟩,
  ⟨0x20044, 0, 0, 0, 0, .aon, fun _ _ => [TMB_TEMP_valid, TMB_TEMP_temp], fun _ => []⟩,
  ⟨0x20050, 0, 0, 0, 0, .aon, fun _ _ => [TMB_REF_CFG_slew, TMB_REF_CFG_bw, TMB_REF_CFG_pps_edge, TMB_REF_CFG_ref_freq, TMB_REF_CFG_src], fun _ => []⟩,
  ⟨0x20054, 0, 0, 0, 0, .aon, fun _ _ => [TMB_PPS_DLY_dly], fun _ => []⟩,
  ⟨0x20058, 0, 0, 0, 0, .aon, fun _ _ => [TMB_LOCK_CFG_unlock_thr, TMB_LOCK_CFG_lock_thr], fun _ => []⟩,
  ⟨0x20060, 0, 0, 0, 0, .aon, fun _ _ => [TMB_REF_STAT_outliers, TMB_REF_STAT_pps_valid, TMB_REF_STAT_ref_valid, TMB_REF_STAT_state], fun _ => []⟩,
  ⟨0x20064, 0, 0, 0, 0, .aon, fun _ _ => [], fun _ => []⟩,
  ⟨0x20068, 0, 0, 0, 0, .aon, fun _ _ => [TMB_PHASE_ERR_value], fun _ => []⟩,
  ⟨0x2006c, 0, 0, 0, 0, .aon, fun _ _ => [], fun _ => []⟩,
  ⟨0x20070, 0, 0, 0, 0, .aon, fun _ _ => [TMB_OUT_CFG_pps_width, TMB_OUT_CFG_ref_freq, TMB_OUT_CFG_ref_en, TMB_OUT_CFG_pps_en], fun _ => []⟩]

/-- Registers of block DSK. -/
def rowsDSK : List RegRow := [
  ⟨0x40000, 64, 1024, 0, 0, .warm, fun i _ => [DSK_LAND_d i], fun _ => []⟩,
  ⟨0x40004, 64, 1024, 0, 0, .warm, fun i _ => [DSK_USER_d i], fun _ => []⟩,
  ⟨0x40008, 64, 1024, 0, 0, .warm, fun i _ => [DSK_CAL_d i], fun _ => []⟩,
  ⟨0x4000c, 64, 1024, 0, 0, .warm, fun i _ => [DSK_COEF_sat i, DSK_COEF_clamped i, DSK_COEF_d i], fun _ => []⟩,
  ⟨0x40010, 64, 1024, 0, 0, .warm, fun i _ => [DSK_PAIR_en i, DSK_PAIR_edge i, DSK_PAIR_partner i, DSK_PAIR_match i], fun _ => []⟩,
  ⟨0x40014, 64, 1024, 0, 0, .warm, fun i _ => [DSK_PAIR_OFS_e i], fun _ => []⟩,
  ⟨0x40018, 64, 1024, 0, 0, .warm, fun i _ => [DSK_GMEAN_mean i], fun _ => []⟩,
  ⟨0x4001c, 64, 1024, 0, 0, .warm, fun i _ => [DSK_GCNT_result i, DSK_GCNT_count i], fun _ => []⟩,
  ⟨0x40020, 64, 1024, 0, 0, .warm, fun i _ => [DSK_GRMS_rms i], fun _ => []⟩,
  ⟨0x40030, 0, 0, 0, 0, .warm, fun _ _ => [DSK_GCTL_window, DSK_GCTL_max_step, DSK_GCTL_auto, DSK_GCTL_abort, DSK_GCTL_start], fun _ => []⟩,
  ⟨0x40034, 0, 0, 0, 0, .warm, fun _ _ => [DSK_GSTAT_gathers, DSK_GSTAT_partner, DSK_GSTAT_pend, DSK_GSTAT_chain, DSK_GSTAT_too_many, DSK_GSTAT_refused, DSK_GSTAT_aborted, DSK_GSTAT_done, DSK_GSTAT_busy], fun _ => []⟩,
  ⟨0x40038, 0, 0, 0, 0, .warm, fun _ _ => [DSK_CAL_CTL_tdc_done, DSK_CAL_CTL_inj_done, DSK_CAL_CTL_refused, DSK_CAL_CTL_busy, DSK_CAL_CTL_tdc_start, DSK_CAL_CTL_inj_start], fun _ => []⟩,
  ⟨0x4003c, 0, 0, 0, 0, .warm, fun _ _ => [DSK_INJ_CTL_total, DSK_INJ_CTL_burst, DSK_INJ_CTL_dead], fun _ => []⟩,
  ⟨0x40070, 0, 0, 0, 0, .cold, fun _ _ => [DSK_TCAL_TEMP_valid, DSK_TCAL_TEMP_temp], fun _ => []⟩]

/-- Registers of block CLK. -/
def rowsCLK : List RegRow := [
  ⟨0x10000, 0, 0, 0, 0, .aon, fun _ _ => [CLK_CFG_ext_fallback, CLK_CFG_s_src_pend, CLK_CFG_s_src], fun _ => []⟩,
  ⟨0x10004, 0, 0, 0, 0, .aon, fun _ _ => [CLK_STAT_dll_lock, CLK_STAT_ext_valid, CLK_STAT_s_src_act], fun _ => []⟩,
  ⟨0x10008, 0, 0, 0, 0, .aon, fun _ _ => [CLK_HOP_pending, CLK_HOP_wait_idle, CLK_HOP_wait_gather, CLK_HOP_refused, CLK_HOP_pll, CLK_HOP_cancel, CLK_HOP_force, CLK_HOP_start], fun _ => []⟩,
  ⟨0x1000c, 0, 0, 0, 0, .aon, fun _ _ => [CLK_HOP_FREQ_freq], fun _ => []⟩,
  ⟨0x10014, 0, 0, 0, 0, .aon, fun _ _ => [CLK_EXT_CFG_freq], fun _ => []⟩,
  ⟨0x10010, 0, 0, 0, 0, .aon, fun _ _ => [CLK_LOCK_CFG_hold_max, CLK_LOCK_CFG_phase_thr], fun _ => []⟩,
  ⟨0x10018, 0, 0, 0, 0, .aon, fun _ _ => [CLK_EXT_MEAS_valid, CLK_EXT_MEAS_err], fun _ => []⟩,
  ⟨0x1001c, 0, 0, 0, 0, .aon, fun _ _ => [CLK_EVT_bt_full, CLK_EVT_hop_done, CLK_EVT_failed, CLK_EVT_bt_miss, CLK_EVT_gated, CLK_EVT_ext_loss, CLK_EVT_dll_loss, CLK_EVT_m_loss, CLK_EVT_c_loss, CLK_EVT_s_loss], fun _ => []⟩,
  ⟨0x10020, 0, 0, 0, 0, .aon, fun _ _ => [CLK_IRQ_EN_en], fun _ => []⟩,
  ⟨0x10100, 256, 3, 0, 0, .aon, fun i _ => [CLK_x_CTL_search i, CLK_x_CTL_en i], fun _ => []⟩,
  ⟨0x10104, 256, 3, 0, 0, .aon, fun i _ => [CLK_x_TARGET_freq i], fun _ => []⟩,
  ⟨0x10108, 256, 3, 0, 0, .aon, fun i _ => [CLK_x_STAT_bt_idx i, CLK_x_STAT_gated i, CLK_x_STAT_suspect i, CLK_x_STAT_state i], fun _ => []⟩,
  ⟨0x1010c, 256, 3, 0, 0, .aon, fun i _ => [CLK_x_MEAS_err i], fun _ => []⟩,
  ⟨0x10110, 256, 3, 0, 0, .aon, fun i _ => [CLK_x_CNT_relocks i, CLK_x_CNT_holdovers i], fun _ => []⟩,
  ⟨0x10180, 256, 3, 8, 16, .aon, fun i j => [CLK_x_BT_FREQ_valid i j, CLK_x_BT_FREQ_pinned i j, CLK_x_BT_FREQ_preloaded i j, CLK_x_BT_FREQ_freq i j], fun _ => []⟩,
  ⟨0x10184, 256, 3, 8, 16, .aon, fun i j => [CLK_x_BT_CODE_temp i j, CLK_x_BT_CODE_band i j, CLK_x_BT_CODE_code i j], fun _ => []⟩]

/-- Registers of block TRL. -/
def rowsTRL : List RegRow := [
  ⟨0x50000, 0, 0, 0, 0, .warm, fun _ _ => [TRL_CFG_start_level, TRL_CFG_qual_reset, TRL_CFG_rearm_restart, TRL_CFG_check], fun _ => []⟩,
  ⟨0x50004, 0, 0, 0, 0, .warm, fun _ _ => [TRL_STAT_qual, TRL_STAT_wr_ign, TRL_STAT_level], fun _ => []⟩,
  ⟨0x50008, 0, 0, 0, 0, .warm, fun _ _ => [TRL_CHK_valid, TRL_CHK_code, TRL_CHK_level, TRL_CHK_item], fun _ => []⟩,
  ⟨0x5000c, 0, 0, 0, 0, .warm, fun _ _ => [TRL_EVT_irq, TRL_EVT_fault, TRL_EVT_retry, TRL_EVT_trig, TRL_EVT_chk_done], fun _ => []⟩,
  ⟨0x50010, 0, 0, 0, 0, .warm, fun _ _ => [TRL_IRQ_EN_en], fun _ => []⟩,
  ⟨0x50014, 0, 0, 0, 0, .warm, fun _ _ => [TRL_TRIG_CNT_count], fun _ => []⟩,
  ⟨0x50018, 0, 0, 0, 0, .warm, fun _ _ => [TRL_RETRY_spare, TRL_RETRY_retries], fun _ => []⟩,
  ⟨0x50020, 0, 0, 0, 0, .warm, fun _ _ => [TRL_XOUT_CFG_pol3, TRL_XOUT_CFG_width3, TRL_XOUT_CFG_pol2, TRL_XOUT_CFG_width2, TRL_XOUT_CFG_pol1, TRL_XOUT_CFG_width1, TRL_XOUT_CFG_pol0, TRL_XOUT_CFG_width0], fun _ => []⟩,
  ⟨0x50024, 0, 0, 0, 0, .warm, fun _ _ => [TRL_EXT_CFG_gate_sense, TRL_EXT_CFG_in_sense], fun _ => []⟩,
  ⟨0x50030, 0, 0, 0, 0, .warm, fun _ _ => [], fun _ => [⟨TRL_LAST_kt, 0, 0, 32⟩]⟩,
  ⟨0x50034, 0, 0, 0, 0, .warm, fun _ _ => [], fun _ => [⟨TRL_LAST_kt, 32, 0, 32⟩]⟩,
  ⟨0x50038, 0, 0, 0, 0, .warm, fun _ _ => [TRL_LAST_HI_sres, TRL_LAST_HI_valid, TRL_LAST_HI_src, TRL_LAST_HI_level, TRL_LAST_HI_branch], fun _ => [⟨TRL_LAST_kt, 64, 0, 8⟩]⟩,
  ⟨0x51000, 256, 16, 4, 8, .warm, fun i j => [TRL_Ln_TERMt_inv i j, TRL_Ln_TERMt_kind i j, TRL_Ln_TERMt_idx i j], fun _ => []⟩,
  ⟨0x51020, 256, 16, 16, 4, .warm, fun i j => [TRL_Ln_BRb_COND_en i j, TRL_Ln_BRb_COND_goto i j, TRL_Ln_BRb_COND_target i j, TRL_Ln_BRb_COND_op i j, TRL_Ln_BRb_COND_sel i j], fun _ => []⟩,
  ⟨0x51024, 256, 16, 16, 4, .warm, fun i j => [TRL_Ln_BRb_ACT_irq i j, TRL_Ln_BRb_ACT_mark i j, TRL_Ln_BRb_ACT_xtrig i j, TRL_Ln_BRb_ACT_tm_clr i j, TRL_Ln_BRb_ACT_tm_stop i j, TRL_Ln_BRb_ACT_tm_start i j, TRL_Ln_BRb_ACT_ct_clr i j, TRL_Ln_BRb_ACT_ct_inc i j, TRL_Ln_BRb_ACT_qual_off i j, TRL_Ln_BRb_ACT_qual_on i j, TRL_Ln_BRb_ACT_trigger i j], fun _ => []⟩,
  ⟨0x51028, 256, 16, 16, 4, .warm, fun i j => [TRL_Ln_BRb_ARG_mark_code i j, TRL_Ln_BRb_ARG_xmask i j, TRL_Ln_BRb_ARG_irq_tag i j, TRL_Ln_BRb_ARG_tm_idx i j, TRL_Ln_BRb_ARG_ct_idx i j], fun _ => []⟩,
  ⟨0x51060, 256, 16, 0, 0, .warm, fun i _ => [TRL_Ln_CFG_same_sample i], fun _ => []⟩,
  ⟨0x52000, 256, 32, 0, 0, .warm, fun i _ => [TRL_EDj_CFG_edge i], fun _ => []⟩,
  ⟨0x52080, 256, 32, 4, 32, .warm, fun i j => [TRL_EDj_SET_bits i j], fun _ => []⟩,
  ⟨0x58000, 512, 64, 4, 32, .warm, fun i j => [TRL_PRp_VAL_bits i j], fun _ => []⟩,
  ⟨0x58080, 512, 64, 4, 32, .warm, fun i j => [TRL_PRp_CARE_bits i j], fun _ => []⟩,
  ⟨0x58100, 512, 64, 0, 0, .warm, fun i _ => [TRL_PRp_CFG_onset i, TRL_PRp_CFG_en i], fun _ => []⟩,
  ⟨0x54000, 32, 16, 0, 0, .warm, fun i _ => [TRL_CTn_LIM_LO_value i], fun _ => []⟩,
  ⟨0x54204, 32, 16, 0, 0, .warm, fun i _ => [TRL_TMn_LIM_LO_value i], fun _ => []⟩,
  ⟨0x54404, 32, 8, 0, 0, .warm, fun i _ => [TRL_WCn_START_LO_value i], fun _ => []⟩,
  ⟨0x54408, 32, 8, 0, 0, .warm, fun i _ => [TRL_WCn_START_HI_value i], fun _ => []⟩,
  ⟨0x5440c, 32, 8, 0, 0, .warm, fun i _ => [TRL_WCn_END_LO_value i], fun _ => []⟩,
  ⟨0x54410, 32, 8, 0, 0, .warm, fun i _ => [TRL_WCn_END_HI_value i], fun _ => []⟩,
  ⟨0x54004, 32, 16, 0, 0, .warm, fun i _ => [TRL_CTn_LIM_HI_value i], fun _ => []⟩,
  ⟨0x54208, 32, 16, 0, 0, .warm, fun i _ => [TRL_TMn_LIM_HI_value i], fun _ => []⟩,
  ⟨0x54008, 32, 16, 0, 0, .warm, fun _ _ => [], fun i => [⟨TRL_CTn_VAL i, 0, 0, 32⟩]⟩,
  ⟨0x5400c, 32, 16, 0, 0, .warm, fun _ _ => [], fun i => [⟨TRL_CTn_VAL i, 32, 0, 16⟩]⟩,
  ⟨0x5420c, 32, 16, 0, 0, .warm, fun _ _ => [], fun _ => []⟩,
  ⟨0x54210, 32, 16, 0, 0, .warm, fun _ _ => [], fun _ => []⟩,
  ⟨0x54200, 32, 16, 0, 0, .warm, fun i _ => [TRL_TMn_CFG_unit i], fun _ => []⟩,
  ⟨0x54400, 32, 8, 0, 0, .warm, fun i _ => [TRL_WCn_CFG_end_top i, TRL_WCn_CFG_start_top i, TRL_WCn_CFG_ev_sample i, TRL_WCn_CFG_ed i, TRL_WCn_CFG_tm i, TRL_WCn_CFG_src i], fun _ => []⟩]

/-- Registers of block ACQ. -/
def rowsACQ : List RegRow := [
  ⟨0x60000, 0, 0, 0, 0, .none, fun _ _ => [ACQ_CTL_force_trig, ACQ_CTL_stop, ACQ_CTL_arm], fun _ => []⟩,
  ⟨0x60004, 0, 0, 0, 0, .warm, fun _ _ => [ACQ_STAT_stop_cause, ACQ_STAT_gap_open, ACQ_STAT_chained, ACQ_STAT_state], fun _ => []⟩,
  ⟨0x60008, 0, 0, 0, 0, .warm, fun _ _ => [ACQ_ERR_valid, ACQ_ERR_detail, ACQ_ERR_code], fun _ => []⟩,
  ⟨0x6000c, 0, 0, 0, 0, .warm, fun _ _ => [ACQ_CFG_to_mode, ACQ_CFG_qual_en, ACQ_CFG_wrap, ACQ_CFG_stream, ACQ_CFG_spill], fun _ => []⟩,
  ⟨0x60010, 0, 0, 0, 0, .warm, fun _ _ => [ACQ_PRE_LO_value], fun _ => []⟩,
  ⟨0x60018, 0, 0, 0, 0, .warm, fun _ _ => [ACQ_POST_LO_value], fun _ => []⟩,
  ⟨0x60040, 0, 0, 0, 0, .warm, fun _ _ => [ACQ_TIMEOUT_LO_value], fun _ => []⟩,
  ⟨0x60014, 0, 0, 0, 0, .warm, fun _ _ => [ACQ_PRE_HI_value], fun _ => []⟩,
  ⟨0x6001c, 0, 0, 0, 0, .warm, fun _ _ => [ACQ_POST_HI_value], fun _ => []⟩,
  ⟨0x60044, 0, 0, 0, 0, .warm, fun _ _ => [ACQ_TIMEOUT_HI_value_top, ACQ_TIMEOUT_HI_value], fun _ => []⟩,
  ⟨0x60020, 0, 0, 0, 0, .warm, fun _ _ => [ACQ_SEG_size], fun _ => []⟩,
  ⟨0x60024, 0, 0, 0, 0, .warm, fun _ _ => [ACQ_SEG_CNT_count], fun _ => []⟩,
  ⟨0x60028, 0, 0, 0, 0, .warm, fun _ _ => [], fun _ => [⟨ACQ_SEG_CAP, 0, 0, 32⟩]⟩,
  ⟨0x6002c, 0, 0, 0, 0, .warm, fun _ _ => [], fun _ => [⟨ACQ_SEG_CAP, 32, 0, 32⟩]⟩,
  ⟨0x60030, 0, 0, 0, 0, .warm, fun _ _ => [ACQ_REGION_BASE_value], fun _ => []⟩,
  ⟨0x60034, 0, 0, 0, 0, .warm, fun _ _ => [ACQ_REGION_SIZE_value], fun _ => []⟩,
  ⟨0x60048, 0, 0, 0, 0, .warm, fun _ _ => [ACQ_PRE_T_time], fun _ => []⟩,
  ⟨0x6004c, 0, 0, 0, 0, .warm, fun _ _ => [ACQ_STREAM_ring], fun _ => []⟩,
  ⟨0x60050, 0, 0, 0, 0, .warm, fun _ _ => [ACQ_BUDGET_near, ACQ_BUDGET_deep], fun _ => []⟩,
  ⟨0x60060, 0, 0, 0, 0, .warm, fun _ _ => [ACQ_TRIG_CNT_count], fun _ => []⟩,
  ⟨0x60064, 0, 0, 0, 0, .warm, fun _ _ => [ACQ_EARLY_CNT_count], fun _ => []⟩,
  ⟨0x60068, 0, 0, 0, 0, .warm, fun _ _ => [ACQ_BLIND_CNT_count], fun _ => []⟩,
  ⟨0x6006c, 0, 0, 0, 0, .warm, fun _ _ => [ACQ_EXTRA_CNT_count], fun _ => []⟩,
  ⟨0x60070, 0, 0, 0, 0, .warm, fun _ _ => [ACQ_SEG_DONE_count], fun _ => []⟩,
  ⟨0x60074, 0, 0, 0, 0, .warm, fun _ _ => [ACQ_OVERWR_count], fun _ => []⟩,
  ⟨0x60078, 0, 0, 0, 0, .warm, fun _ _ => [ACQ_GAP_CNT_count], fun _ => []⟩,
  ⟨0x60080, 0, 0, 0, 0, .warm, fun _ _ => [], fun _ => [⟨ACQ_LOST, 0, 0, 32⟩]⟩,
  ⟨0x60084, 0, 0, 0, 0, .warm, fun _ _ => [], fun _ => [⟨ACQ_LOST, 32, 0, 32⟩]⟩,
  ⟨0x60088, 0, 0, 0, 0, .warm, fun _ _ => [], fun _ => [⟨ACQ_LAST_DEAD, 0, 0, 32⟩]⟩,
  ⟨0x6008c, 0, 0, 0, 0, .warm, fun _ _ => [], fun _ => [⟨ACQ_LAST_DEAD, 32, 0, 32⟩]⟩,
  ⟨0x60090, 0, 0, 0, 0, .warm, fun _ _ => [], fun _ => [⟨ACQ_TRIG_kt, 0, 0, 32⟩]⟩,
  ⟨0x60094, 0, 0, 0, 0, .warm, fun _ _ => [], fun _ => [⟨ACQ_TRIG_kt, 32, 0, 32⟩]⟩,
  ⟨0x60098, 0, 0, 0, 0, .warm, fun _ _ => [ACQ_TRIG_HI_valid, ACQ_TRIG_HI_sres, ACQ_TRIG_HI_source], fun _ => [⟨ACQ_TRIG_kt, 64, 0, 8⟩]⟩,
  ⟨0x600a0, 0, 0, 0, 0, .warm, fun _ _ => [ACQ_EVT_trig_ign, ACQ_EVT_arm_ign, ACQ_EVT_blind, ACQ_EVT_early, ACQ_EVT_stopped, ACQ_EVT_gap, ACQ_EVT_seg_done, ACQ_EVT_trig, ACQ_EVT_refused, ACQ_EVT_armed], fun _ => []⟩,
  ⟨0x600a4, 0, 0, 0, 0, .warm, fun _ _ => [ACQ_IRQ_EN_en], fun _ => []⟩,
  ⟨0x60100, 4, 16, 0, 0, .warm, fun i _ => [ACQ_STCLKj_en i, ACQ_STCLKj_qual_en i, ACQ_STCLKj_qual_pr i, ACQ_STCLKj_edge i], fun _ => []⟩]

/-- Registers of block HDG. -/
def rowsHDG : List RegRow := [
  ⟨0x70000, 0, 0, 0, 0, .warm, fun _ _ => [HDG_CTL_en, HDG_CTL_check], fun _ => []⟩,
  ⟨0x70004, 0, 0, 0, 0, .warm, fun _ _ => [HDG_STAT_wr_ign], fun _ => []⟩,
  ⟨0x70008, 0, 0, 0, 0, .warm, fun _ _ => [HDG_CHK_valid, HDG_CHK_code, HDG_CHK_rule], fun _ => []⟩,
  ⟨0x7000c, 0, 0, 0, 0, .warm, fun _ _ => [HDG_EVT_stop, HDG_EVT_viol, HDG_EVT_chk_done], fun _ => []⟩,
  ⟨0x70010, 0, 0, 0, 0, .warm, fun _ _ => [HDG_IRQ_EN_en], fun _ => []⟩,
  ⟨0x70014, 0, 0, 0, 0, .warm, fun _ _ => [HDG_TAIL_value], fun _ => []⟩,
  ⟨0x70018, 0, 0, 0, 0, .warm, fun _ _ => [HDG_VIOL_CNT_value], fun _ => []⟩,
  ⟨0x71028, 256, 64, 0, 0, .warm, fun i _ => [HDG_MKn_CNT_value i], fun _ => []⟩,
  ⟨0x70020, 0, 0, 0, 0, .warm, fun _ _ => [], fun _ => [⟨HDG_LAST_kt, 0, 0, 32⟩]⟩,
  ⟨0x70024, 0, 0, 0, 0, .warm, fun _ _ => [], fun _ => [⟨HDG_LAST_kt, 32, 0, 32⟩]⟩,
  ⟨0x70028, 0, 0, 0, 0, .warm, fun _ _ => [HDG_LAST_HI_valid, HDG_LAST_HI_sres, HDG_LAST_HI_kind, HDG_LAST_HI_rule, HDG_LAST_HI_channel], fun _ => [⟨HDG_LAST_kt, 64, 0, 8⟩]⟩,
  ⟨0x71000, 256, 64, 0, 0, .warm, fun i _ => [HDG_MKn_CFG_en i, HDG_MKn_CFG_req0 i, HDG_MKn_CFG_ref_edge i, HDG_MKn_CFG_tr_edge i, HDG_MKn_CFG_ref_ch i, HDG_MKn_CFG_stop i, HDG_MKn_CFG_trigger i, HDG_MKn_CFG_mark i, HDG_MKn_CFG_w0_en i, HDG_MKn_CFG_w1_en i, HDG_MKn_CFG_z0_en i, HDG_MKn_CFG_z1_en i], fun _ => []⟩,
  ⟨0x71004, 256, 64, 0, 0, .warm, fun i _ => [HDG_MKn_HOR_value i], fun _ => []⟩,
  ⟨0x71008, 256, 64, 0, 0, .warm, fun i _ => [HDG_MKn_W0A_value i], fun _ => []⟩,
  ⟨0x7100c, 256, 64, 0, 0, .warm, fun i _ => [HDG_MKn_W0B_value i], fun _ => []⟩,
  ⟨0x71010, 256, 64, 0, 0, .warm, fun i _ => [HDG_MKn_W1A_value i], fun _ => []⟩,
  ⟨0x71014, 256, 64, 0, 0, .warm, fun i _ => [HDG_MKn_W1B_value i], fun _ => []⟩,
  ⟨0x71018, 256, 64, 0, 0, .warm, fun i _ => [HDG_MKn_Z0C_value i], fun _ => []⟩,
  ⟨0x7101c, 256, 64, 0, 0, .warm, fun i _ => [HDG_MKn_Z0D_value i], fun _ => []⟩,
  ⟨0x71020, 256, 64, 0, 0, .warm, fun i _ => [HDG_MKn_Z1C_value i], fun _ => []⟩,
  ⟨0x71024, 256, 64, 0, 0, .warm, fun i _ => [HDG_MKn_Z1D_value i], fun _ => []⟩,
  ⟨0x71080, 256, 64, 4, 32, .warm, fun i j => [HDG_MKn_SET_bits i j], fun _ => []⟩]

/-- Registers of block RED. -/
def rowsRED : List RegRow := [
  ⟨0x80000, 0, 0, 0, 0, .none, fun _ _ => [RED_CTL_flush], fun _ => []⟩,
  ⟨0x80004, 0, 0, 0, 0, .warm, fun _ _ => [RED_STAT_trunc, RED_STAT_badkind, RED_STAT_full, RED_STAT_running], fun _ => []⟩,
  ⟨0x80008, 0, 0, 0, 0, .warm, fun _ _ => [RED_EVT_full, RED_EVT_loss], fun _ => []⟩,
  ⟨0x8000c, 0, 0, 0, 0, .warm, fun _ _ => [RED_IRQ_EN_en], fun _ => []⟩,
  ⟨0x81000, 256, 8, 0, 0, .warm, fun i _ => [RED_RUn_CFG_en i, RED_RUn_CFG_wrap i, RED_RUn_CFG_edge i, RED_RUn_CFG_kind i], fun _ => []⟩,
  ⟨0x81004, 256, 8, 0, 0, .warm, fun i _ => [RED_RUn_PAR_par i], fun _ => []⟩,
  ⟨0x81008, 256, 8, 0, 0, .warm, fun i _ => [RED_RUn_IVL_ivl i], fun _ => []⟩,
  ⟨0x8100c, 256, 8, 0, 0, .warm, fun i _ => [RED_RUn_RATE_limit i], fun _ => []⟩,
  ⟨0x81010, 256, 8, 0, 0, .warm, fun i _ => [RED_RUn_BASE_value i], fun _ => []⟩,
  ⟨0x81014, 256, 8, 0, 0, .warm, fun i _ => [RED_RUn_SIZE_value i], fun _ => []⟩,
  ⟨0x81018, 256, 8, 0, 0, .warm, fun i _ => [RED_RUn_FLUSH_time i], fun _ => []⟩,
  ⟨0x8101c, 256, 8, 0, 0, .warm, fun i _ => [RED_RUn_HOFS_ofs i], fun _ => []⟩,
  ⟨0x81020, 256, 8, 0, 0, .warm, fun i _ => [RED_RUn_WPTR_ptr i], fun _ => []⟩,
  ⟨0x81024, 256, 8, 0, 0, .warm, fun i _ => [RED_RUn_WORST_rate i], fun _ => []⟩,
  ⟨0x81028, 256, 8, 0, 0, .warm, fun _ _ => [], fun i => [⟨RED_RUn_LOST i, 0, 0, 32⟩]⟩,
  ⟨0x8102c, 256, 8, 0, 0, .warm, fun _ _ => [], fun i => [⟨RED_RUn_LOST i, 32, 0, 32⟩]⟩,
  ⟨0x81080, 256, 8, 4, 32, .warm, fun i j => [RED_RUn_SET_bits i j], fun _ => []⟩]

/-- Registers of block SIV. -/
def rowsSIV : List RegRow := [
  ⟨0x90000, 0, 0, 0, 0, .warm, fun _ _ => [SIV_CFG_en, SIV_CFG_wrap], fun _ => []⟩,
  ⟨0x90004, 0, 0, 0, 0, .warm, fun _ _ => [SIV_STAT_running, SIV_STAT_full, SIV_STAT_busy], fun _ => []⟩,
  ⟨0x90008, 0, 0, 0, 0, .warm, fun _ _ => [SIV_EVT_full, SIV_EVT_pass], fun _ => []⟩,
  ⟨0x9000c, 0, 0, 0, 0, .warm, fun _ _ => [SIV_IRQ_EN_en], fun _ => []⟩,
  ⟨0x90010, 0, 0, 0, 0, .warm, fun _ _ => [SIV_BASE_value], fun _ => []⟩,
  ⟨0x90014, 0, 0, 0, 0, .warm, fun _ _ => [SIV_SIZE_value], fun _ => []⟩,
  ⟨0x90018, 0, 0, 0, 0, .warm, fun _ _ => [SIV_WPTR_ptr], fun _ => []⟩,
  ⟨0x9001c, 0, 0, 0, 0, .warm, fun _ _ => [SIV_RATE_rate], fun _ => []⟩,
  ⟨0x90020, 0, 0, 0, 0, .warm, fun _ _ => [], fun _ => []⟩,
  ⟨0x90030, 0, 0, 0, 0, .warm, fun _ _ => [], fun _ => [⟨SIV_BLK, 0, 0, 32⟩]⟩,
  ⟨0x90034, 0, 0, 0, 0, .warm, fun _ _ => [], fun _ => [⟨SIV_BLK, 32, 0, 32⟩]⟩,
  ⟨0x90038, 0, 0, 0, 0, .warm, fun _ _ => [], fun _ => [⟨SIV_RAW, 0, 0, 32⟩]⟩,
  ⟨0x9003c, 0, 0, 0, 0, .warm, fun _ _ => [], fun _ => [⟨SIV_RAW, 32, 0, 32⟩]⟩,
  ⟨0x90040, 0, 0, 0, 0, .warm, fun _ _ => [], fun _ => [⟨SIV_PASS, 0, 0, 32⟩]⟩,
  ⟨0x90044, 0, 0, 0, 0, .warm, fun _ _ => [], fun _ => [⟨SIV_PASS, 32, 0, 32⟩]⟩,
  ⟨0x90048, 0, 0, 0, 0, .warm, fun _ _ => [], fun _ => [⟨SIV_IN, 0, 0, 32⟩]⟩,
  ⟨0x9004c, 0, 0, 0, 0, .warm, fun _ _ => [], fun _ => [⟨SIV_IN, 32, 0, 32⟩]⟩,
  ⟨0x90050, 0, 0, 0, 0, .warm, fun _ _ => [], fun _ => [⟨SIV_OUT, 0, 0, 32⟩]⟩,
  ⟨0x90054, 0, 0, 0, 0, .warm, fun _ _ => [], fun _ => [⟨SIV_OUT, 32, 0, 32⟩]⟩,
  ⟨0x90100, 4, 32, 0, 0, .warm, fun i _ => [SIV_LANEl_CFG_en i, SIV_LANEl_CFG_level i, SIV_LANEl_CFG_tile i], fun _ => []⟩]

/-- Registers of block TIM. -/
def rowsTIM : List RegRow := [
  ⟨0xa0000, 0, 0, 0, 0, .warm, fun _ _ => [TIM_STAT_running, TIM_STAT_ovf_full, TIM_STAT_active], fun _ => []⟩,
  ⟨0xa0004, 0, 0, 0, 0, .warm, fun _ _ => [TIM_EVT_badslot, TIM_EVT_ovf_full, TIM_EVT_discard, TIM_EVT_qloss], fun _ => []⟩,
  ⟨0xa0008, 0, 0, 0, 0, .warm, fun _ _ => [TIM_IRQ_EN_en], fun _ => []⟩,
  ⟨0xa0010, 0, 0, 0, 0, .warm, fun _ _ => [TIM_OVF_BASE_value], fun _ => []⟩,
  ⟨0xa0014, 0, 0, 0, 0, .warm, fun _ _ => [TIM_OVF_SIZE_value], fun _ => []⟩,
  ⟨0xa0018, 0, 0, 0, 0, .warm, fun _ _ => [TIM_OVF_USED_chunks], fun _ => []⟩,
  ⟨0xa001c, 0, 0, 0, 0, .warm, fun _ _ => [TIM_QMAX_depth, TIM_QMAX_ch], fun _ => []⟩,
  ⟨0xa0020, 0, 0, 0, 0, .warm, fun _ _ => [TIM_DISCARD_count], fun _ => []⟩,
  ⟨0xa0024, 0, 0, 0, 0, .warm, fun _ _ => [TIM_RESTART_count], fun _ => []⟩,
  ⟨0xa0028, 0, 0, 0, 0, .warm, fun _ _ => [], fun _ => [⟨TIM_QLOST, 0, 0, 32⟩]⟩,
  ⟨0xa002c, 0, 0, 0, 0, .warm, fun _ _ => [], fun _ => [⟨TIM_QLOST, 32, 0, 32⟩]⟩,
  ⟨0xa0030, 0, 0, 0, 0, .warm, fun _ _ => [], fun _ => [⟨TIM_BAD, 0, 0, 32⟩]⟩,
  ⟨0xa0034, 0, 0, 0, 0, .warm, fun _ _ => [], fun _ => [⟨TIM_BAD, 32, 0, 32⟩]⟩,
  ⟨0xa1000, 32, 64, 0, 0, .warm, fun i _ => [TIM_SLOTn_CFG_en i, TIM_SLOTn_CFG_policy i, TIM_SLOTn_CFG_kind i, TIM_SLOTn_CFG_decim i, TIM_SLOTn_CFG_edge_b i, TIM_SLOTn_CFG_edge_a i], fun _ => []⟩,
  ⟨0xa1004, 32, 64, 0, 0, .warm, fun i _ => [TIM_SLOTn_CH_ch_b i, TIM_SLOTn_CH_ch_a i], fun _ => []⟩,
  ⟨0xa1008, 32, 64, 0, 0, .warm, fun i _ => [TIM_SLOTn_RANGE_range i], fun _ => []⟩,
  ⟨0xa100c, 32, 64, 0, 0, .warm, fun i _ => [TIM_SLOTn_GATE_gsrc i, TIM_SLOTn_GATE_gmode i, TIM_SLOTn_GATE_arg i], fun _ => []⟩,
  ⟨0xa1010, 32, 64, 0, 0, .warm, fun i _ => [TIM_SLOTn_CNT_count i], fun _ => []⟩]

/-- Registers of block NMC. -/
def rowsNMC : List RegRow := [
  ⟨0xb0000, 0, 0, 0, 0, .cold, fun _ _ => [NMC_STAT_clear_busy, NMC_STAT_retention, NMC_STAT_full], fun _ => []⟩,
  ⟨0xb0004, 0, 0, 0, 0, .warm, fun _ _ => [NMC_EVT_rake_fail, NMC_EVT_ue, NMC_EVT_ce, NMC_EVT_ring_full], fun _ => []⟩,
  ⟨0xb0008, 0, 0, 0, 0, .warm, fun _ _ => [NMC_IRQ_EN_en], fun _ => []⟩,
  ⟨0xb0010, 0, 0, 0, 0, .cold, fun _ _ => [NMC_CE_CNT_count], fun _ => []⟩,
  ⟨0xb0014, 0, 0, 0, 0, .cold, fun _ _ => [NMC_UE_CNT_count], fun _ => []⟩,
  ⟨0xb0018, 0, 0, 0, 0, .cold, fun _ _ => [NMC_ERR_ADDR_valid, NMC_ERR_ADDR_ue, NMC_ERR_ADDR_scratch, NMC_ERR_ADDR_tile, NMC_ERR_ADDR_word], fun _ => []⟩,
  ⟨0xb0020, 4, 4, 0, 0, .warm, fun i _ => [NMC_RINGn_max i, NMC_RINGn_fill i], fun _ => []⟩]

/-- Registers of block DMC. -/
def rowsDMC : List RegRow := [
  ⟨0xc0000, 0, 0, 0, 0, .none, fun _ _ => [DMC_CTL_key, DMC_CTL_pc, DMC_CTL_init, DMC_CTL_retire, DMC_CTL_apply], fun _ => []⟩,
  ⟨0xc0004, 0, 0, 0, 0, .cold, fun _ _ => [DMC_STAT_clear_busy, DMC_STAT_init_done, DMC_STAT_migrating, DMC_STAT_hash_bad, DMC_STAT_ret_limit, DMC_STAT_retired], fun _ => []⟩,
  ⟨0xc0008, 0, 0, 0, 0, .warm, fun _ _ => [DMC_EVT_early_wr, DMC_EVT_starve, DMC_EVT_ret_limit, DMC_EVT_retired, DMC_EVT_spare, DMC_EVT_hot, DMC_EVT_ue, DMC_EVT_ce, DMC_EVT_init_fail], fun _ => []⟩,
  ⟨0xc000c, 0, 0, 0, 0, .warm, fun _ _ => [DMC_IRQ_EN_en], fun _ => []⟩,
  ⟨0xc0010, 0, 0, 0, 0, .warm, fun _ _ => [DMC_ILV_GRAIN_grain], fun _ => []⟩,
  ⟨0xc0014, 0, 0, 0, 0, .warm, fun _ _ => [DMC_RESV_pct], fun _ => []⟩,
  ⟨0xc0018, 0, 0, 0, 0, .cold, fun _ _ => [DMC_STARVE_count], fun _ => []⟩,
  ⟨0xc001c, 0, 0, 0, 0, .warm, fun _ _ => [DMC_RDP_dist2, DMC_RDP_k], fun _ => []⟩,
  ⟨0xc0020, 0, 0, 0, 0, .warm, fun _ _ => [DMC_RET_THR_thr], fun _ => []⟩,
  ⟨0xc0024, 0, 0, 0, 0, .cold, fun _ _ => [DMC_MIG_busy, DMC_MIG_pc, DMC_MIG_rate, DMC_MIG_done], fun _ => []⟩,
  ⟨0xc0030, 4, 4, 0, 0, .cold, fun i _ => [DMC_TEMPs_valid i, DMC_TEMPs_hot i, DMC_TEMPs_limit i, DMC_TEMPs_owed i, DMC_TEMPs_temp i], fun _ => []⟩,
  ⟨0xc0040, 4, 4, 0, 0, .cold, fun i _ => [DMC_RETIRED_bits i], fun _ => []⟩,
  ⟨0xc0050, 0, 0, 0, 0, .cold, fun _ _ => [DMC_CE_CNT_count], fun _ => []⟩,
  ⟨0xc0054, 0, 0, 0, 0, .cold, fun _ _ => [DMC_UE_CNT_count], fun _ => []⟩,
  ⟨0xc0058, 0, 0, 0, 0, .cold, fun _ _ => [DMC_RDP_CNT_count], fun _ => []⟩,
  ⟨0xc005c, 0, 0, 0, 0, .cold, fun _ _ => [DMC_SPARE_USED_count], fun _ => []⟩,
  ⟨0xc0060, 0, 0, 0, 0, .cold, fun _ _ => [], fun _ => [⟨DMC_ERR_addr, 0, 0, 32⟩]⟩,
  ⟨0xc0064, 0, 0, 0, 0, .cold, fun _ _ => [DMC_ERR_HI_valid, DMC_ERR_HI_ue, DMC_ERR_HI_pc], fun _ => [⟨DMC_ERR_addr, 32, 0, 5⟩]⟩,
  ⟨0xc0100, 8, 13, 0, 0, .cold, fun i _ => [DMC_HASHn_LO_mask i], fun _ => []⟩,
  ⟨0xc0104, 8, 13, 0, 0, .cold, fun i _ => [DMC_HASHn_HI_mask i], fun _ => []⟩,
  ⟨0xc1000, 16, 128, 0, 0, .cold, fun i _ => [DMC_DLY_CA_ck i, DMC_DLY_CA_ca i], fun _ => []⟩,
  ⟨0xc1004, 16, 128, 0, 0, .cold, fun i _ => [DMC_DLY_WR_lane i], fun _ => []⟩,
  ⟨0xc1008, 16, 128, 0, 0, .cold, fun i _ => [DMC_DLY_RD_lane i], fun _ => []⟩,
  ⟨0xc100c, 16, 128, 0, 0, .cold, fun i _ => [DMC_PC_STAT_state i, DMC_PC_STAT_link_fail i, DMC_PC_STAT_spares i, DMC_PC_STAT_ce i], fun _ => []⟩]

/-- Registers of block RAK. -/
def rowsRAK : List RegRow := [
  ⟨0xd0000, 0, 0, 0, 0, .warm, fun _ _ => [RAK_CTL_algo, RAK_CTL_scr_en, RAK_CTL_deep_en, RAK_CTL_near_en], fun _ => []⟩,
  ⟨0xd0004, 0, 0, 0, 0, .warm, fun _ _ => [RAK_STAT_busy, RAK_STAT_lease], fun _ => []⟩,
  ⟨0xd0008, 0, 0, 0, 0, .warm, fun _ _ => [RAK_EVT_preempt, RAK_EVT_fail, RAK_EVT_sweep_done], fun _ => []⟩,
  ⟨0xd000c, 0, 0, 0, 0, .warm, fun _ _ => [RAK_IRQ_EN_en], fun _ => []⟩,
  ⟨0xd0010, 0, 0, 0, 0, .warm, fun _ _ => [RAK_RATE_scr, RAK_RATE_deep, RAK_RATE_near], fun _ => []⟩,
  ⟨0xd0014, 0, 0, 0, 0, .warm, fun _ _ => [RAK_PASS_NEAR_count], fun _ => []⟩,
  ⟨0xd0018, 0, 0, 0, 0, .warm, fun _ _ => [RAK_PASS_DEEP_count], fun _ => []⟩,
  ⟨0xd001c, 0, 0, 0, 0, .warm, fun _ _ => [RAK_PASS_SCR_count], fun _ => []⟩,
  ⟨0xd0020, 0, 0, 0, 0, .warm, fun _ _ => [RAK_FAIL_CNT_count], fun _ => []⟩,
  ⟨0xd0024, 0, 0, 0, 0, .warm, fun _ _ => [RAK_PREEMPT_count], fun _ => []⟩,
  ⟨0xd0028, 0, 0, 0, 0, .warm, fun _ _ => [RAK_FAIL_ADDR_LO_offset], fun _ => []⟩,
  ⟨0xd002c, 0, 0, 0, 0, .warm, fun _ _ => [RAK_FAIL_ADDR_HI_valid, RAK_FAIL_ADDR_HI_target, RAK_FAIL_ADDR_HI_pc, RAK_FAIL_ADDR_HI_bit], fun _ => []⟩]

/-- Registers of block HRV. -/
def rowsHRV : List RegRow := [
  ⟨0xe0000, 0, 0, 0, 0, .warm, fun _ _ => [HRV_CTL_en], fun _ => []⟩,
  ⟨0xe0004, 0, 0, 0, 0, .warm, fun _ _ => [], fun _ => []⟩,
  ⟨0xe0008, 0, 0, 0, 0, .warm, fun _ _ => [HRV_EVT_link, HRV_EVT_host_err, HRV_EVT_overrun, HRV_EVT_poison, HRV_EVT_bad_desc], fun _ => []⟩,
  ⟨0xe000c, 0, 0, 0, 0, .warm, fun _ _ => [HRV_IRQ_EN_en], fun _ => []⟩,
  ⟨0xe0010, 0, 0, 0, 0, .warm, fun _ _ => [HRV_LINK_up, HRV_LINK_width, HRV_LINK_downshifts, HRV_LINK_speed], fun _ => []⟩,
  ⟨0xe0014, 0, 0, 0, 0, .warm, fun _ _ => [HRV_POISON_CNT_count], fun _ => []⟩,
  ⟨0xe0018, 0, 0, 0, 0, .warm, fun _ _ => [], fun _ => [⟨HRV_BYTES, 0, 0, 32⟩]⟩,
  ⟨0xe001c, 0, 0, 0, 0, .warm, fun _ _ => [], fun _ => [⟨HRV_BYTES, 32, 0, 32⟩]⟩,
  ⟨0xe1000, 64, 16, 0, 0, .warm, fun i _ => [HRV_RINGn_BASE_LO_addr i], fun _ => []⟩,
  ⟨0xe2000, 64, 16, 0, 0, .warm, fun i _ => [HRV_CQm_BASE_LO_addr i], fun _ => []⟩,
  ⟨0xe1004, 64, 16, 0, 0, .warm, fun i _ => [HRV_RINGn_BASE_HI_addr i], fun _ => []⟩,
  ⟨0xe2004, 64, 16, 0, 0, .warm, fun i _ => [HRV_CQm_BASE_HI_addr i], fun _ => []⟩,
  ⟨0xe1008, 64, 16, 0, 0, .warm, fun i _ => [HRV_RINGn_CFG_en i, HRV_RINGn_CFG_size i, HRV_RINGn_CFG_cq i, HRV_RINGn_CFG_src i, HRV_RINGn_CFG_flush i], fun _ => []⟩,
  ⟨0xe100c, 64, 16, 0, 0, .warm, fun i _ => [HRV_RINGn_TAIL_idx i], fun _ => []⟩,
  ⟨0xe1010, 64, 16, 0, 0, .warm, fun i _ => [HRV_RINGn_HEAD_idx i], fun _ => []⟩,
  ⟨0xe200c, 64, 16, 0, 0, .warm, fun i _ => [HRV_CQm_HEAD_idx i], fun _ => []⟩,
  ⟨0xe1014, 64, 16, 0, 0, .warm, fun i _ => [HRV_RINGn_STAT_bad i, HRV_RINGn_STAT_stream i, HRV_RINGn_STAT_host_err i], fun _ => []⟩,
  ⟨0xe1018, 64, 16, 0, 0, .warm, fun _ _ => [], fun _ => []⟩,
  ⟨0xe2008, 64, 16, 0, 0, .warm, fun i _ => [HRV_CQm_CFG_en i, HRV_CQm_CFG_size i, HRV_CQm_CFG_count i], fun _ => []⟩,
  ⟨0xe2010, 64, 16, 0, 0, .warm, fun i _ => [HRV_CQm_TAIL_phase i, HRV_CQm_TAIL_idx i], fun _ => []⟩,
  ⟨0xe2014, 64, 16, 0, 0, .warm, fun i _ => [HRV_CQm_MOD_T_time i], fun _ => []⟩]

/-- Registers of block STP. -/
def rowsSTP : List RegRow := [
  ⟨0xf0000, 0, 0, 0, 0, .warm, fun _ _ => [STP_CFG_ind_en, STP_CFG_en], fun _ => []⟩,
  ⟨0xf0004, 0, 0, 0, 0, .warm, fun _ _ => [STP_COLL_rd, STP_COLL_wr], fun _ => []⟩,
  ⟨0xf0008, 0, 0, 0, 0, .warm, fun _ _ => [STP_COLL_RD_CNT_count], fun _ => []⟩,
  ⟨0xf000c, 0, 0, 0, 0, .warm, fun _ _ => [STP_COLL_WR_CNT_count], fun _ => []⟩,
  ⟨0xf0010, 0, 0, 0, 0, .warm, fun _ _ => [STP_EVT_coll], fun _ => []⟩,
  ⟨0xf0014, 0, 0, 0, 0, .warm, fun _ _ => [STP_IRQ_EN_en], fun _ => []⟩,
  ⟨0xf0018, 0, 0, 0, 0, .warm, fun _ _ => [], fun _ => []⟩,
  ⟨0xf001c, 0, 0, 0, 0, .warm, fun _ _ => [STP_SP_IRQ_EN_src], fun _ => []⟩,
  ⟨0xf0020, 0, 0, 0, 0, .warm, fun _ _ => [STP_DB_OUT_db], fun _ => []⟩,
  ⟨0xf0024, 0, 0, 0, 0, .warm, fun _ _ => [STP_DB_IN_db], fun _ => []⟩]

/-- Registers of block GRF. -/
def rowsGRF : List RegRow := [
  ⟨0x100000, 0, 0, 0, 0, .warm, fun _ _ => [GRF_UNIT_ID_valid, GRF_UNIT_ID_id], fun _ => []⟩,
  ⟨0x100004, 0, 0, 0, 0, .warm, fun _ _ => [GRF_CFG_max_hop], fun _ => []⟩,
  ⟨0x100008, 0, 0, 0, 0, .warm, fun _ _ => [GRF_EVT_rx, GRF_EVT_drop, GRF_EVT_crc, GRF_EVT_ofs, GRF_EVT_dup_id, GRF_EVT_link_up, GRF_EVT_link_down], fun _ => []⟩,
  ⟨0x10000c, 0, 0, 0, 0, .warm, fun _ _ => [GRF_IRQ_EN_en], fun _ => []⟩,
  ⟨0x100010, 0, 0, 0, 0, .warm, fun _ _ => [GRF_OFS_THR_thr], fun _ => []⟩,
  ⟨0x100014, 0, 0, 0, 0, .warm, fun _ _ => [GRF_TX_seq, GRF_TX_count], fun _ => []⟩,
  ⟨0x100018, 0, 0, 0, 0, .warm, fun _ _ => [GRF_DUP_count], fun _ => []⟩,
  ⟨0x100100, 64, 4, 0, 0, .warm, fun i _ => [GRF_GLn_CFG_en i, GRF_GLn_CFG_dly_src i, GRF_GLn_CFG_fwd i], fun _ => []⟩,
  ⟨0x100104, 64, 4, 0, 0, .warm, fun i _ => [GRF_GLn_STAT_state i, GRF_GLn_STAT_peer_valid i, GRF_GLn_STAT_peer i], fun _ => []⟩,
  ⟨0x100108, 64, 4, 0, 0, .warm, fun i _ => [GRF_CABLE_DLY_value i], fun _ => []⟩,
  ⟨0x10010c, 64, 4, 0, 0, .warm, fun i _ => [GRF_GLn_DLY_value i], fun _ => []⟩,
  ⟨0x100110, 64, 4, 0, 0, .warm, fun i _ => [GRF_GLn_OFS_value i], fun _ => []⟩,
  ⟨0x100114, 64, 4, 0, 0, .warm, fun i _ => [GRF_GLn_RX_ign i, GRF_GLn_RX_rx i], fun _ => []⟩,
  ⟨0x100118, 64, 4, 0, 0, .warm, fun i _ => [GRF_GLn_ERR_crc i, GRF_GLn_ERR_drop i], fun _ => []⟩,
  ⟨0x10011c, 64, 4, 0, 0, .warm, fun i _ => [GRF_GLn_LAST_SRC_valid i, GRF_GLn_LAST_SRC_coarse i, GRF_GLn_LAST_SRC_hop i, GRF_GLn_LAST_SRC_src i, GRF_GLn_LAST_SRC_mark_code i], fun _ => []⟩,
  ⟨0x100120, 64, 4, 0, 0, .warm, fun _ _ => [], fun i => [⟨GRF_GLn_LAST_kt i, 0, 0, 32⟩]⟩,
  ⟨0x100124, 64, 4, 0, 0, .warm, fun _ _ => [], fun i => [⟨GRF_GLn_LAST_kt i, 32, 0, 32⟩]⟩,
  ⟨0x100128, 64, 4, 0, 0, .warm, fun _ _ => [], fun i => [⟨GRF_GLn_LAST_kt i, 64, 0, 32⟩]⟩]

/-- Registers of block HKS. -/
def rowsHKS : List RegRow := [
  ⟨0x130000, 0, 0, 0, 0, .warm, fun _ _ => [HKS_BOOT_done, HKS_BOOT_safe, HKS_BOOT_sig_req, HKS_BOOT_signed, HKS_BOOT_verified, HKS_BOOT_key_src, HKS_BOOT_sel, HKS_BOOT_err], fun _ => []⟩,
  ⟨0x130004, 0, 0, 0, 0, .warm, fun _ _ => [HKS_STAT_running, HKS_STAT_poll_to, HKS_STAT_script, HKS_STAT_err, HKS_STAT_err_script, HKS_STAT_pending], fun _ => []⟩,
  ⟨0x130008, 0, 0, 0, 0, .warm, fun _ _ => [HKS_EVT_bits], fun _ => []⟩,
  ⟨0x13000c, 0, 0, 0, 0, .warm, fun _ _ => [HKS_IRQ_EN_bits], fun _ => []⟩,
  ⟨0x130010, 0, 0, 0, 0, .warm, fun _ _ => [HKS_CFG_arm_wake, HKS_CFG_arm_boot], fun _ => []⟩,
  ⟨0x130014, 0, 0, 0, 0, .warm, fun _ _ => [HKS_ERR_PC_pc], fun _ => []⟩,
  ⟨0x130018, 0, 0, 0, 0, .none, fun _ _ => [HKS_RUN_start, HKS_RUN_ofs], fun _ => []⟩,
  ⟨0x13001c, 0, 0, 0, 0, .warm, fun _ _ => [HKS_WDG_en, HKS_WDG_host_feed, HKS_WDG_period], fun _ => []⟩,
  ⟨0x130020, 0, 0, 0, 0, .none, fun _ _ => [HKS_WDG_FEED_key], fun _ => []⟩,
  ⟨0x130030, 0, 0, 0, 0, .aon, fun _ _ => [HKS_WAKE_CFG_count, HKS_WAKE_CFG_class], fun _ => []⟩,
  ⟨0x130034, 0, 0, 0, 0, .aon, fun _ _ => [HKS_WAKE_WIN_win], fun _ => []⟩,
  ⟨0x130038, 0, 0, 0, 0, .aon, fun _ _ => [HKS_WAKE_PAIR_ch_b, HKS_WAKE_PAIR_ch_a], fun _ => []⟩,
  ⟨0x13003c, 0, 0, 0, 0, .aon, fun _ _ => [HKS_WAKE_STAT_missed, HKS_WAKE_STAT_class, HKS_WAKE_STAT_ch], fun _ => []⟩,
  ⟨0x130040, 0, 0, 0, 0, .aon, fun _ _ => [HKS_WAKE_AT_LO_kt], fun _ => []⟩,
  ⟨0x130044, 0, 0, 0, 0, .aon, fun _ _ => [HKS_WAKE_AT_MID_kt], fun _ => []⟩,
  ⟨0x130048, 0, 0, 0, 0, .aon, fun _ _ => [HKS_WAKE_AT_HI_en, HKS_WAKE_AT_HI_kt_hi], fun _ => []⟩,
  ⟨0x130050, 0, 0, 0, 0, .warm, fun _ _ => [HKS_NV_CTL_busy, HKS_NV_CTL_err, HKS_NV_CTL_bbx_ok, HKS_NV_CTL_op], fun _ => []⟩,
  ⟨0x130054, 0, 0, 0, 0, .warm, fun _ _ => [HKS_NV_ADDR_addr], fun _ => []⟩,
  ⟨0x130058, 0, 0, 0, 0, .warm, fun _ _ => [HKS_NV_INFO_size], fun _ => []⟩,
  ⟨0x130060, 4, 12, 0, 0, .aon, fun i _ => [HKS_KEYH_hash i], fun _ => []⟩,
  ⟨0x130104, 4, 7, 0, 0, .warm, fun i _ => [HKS_EVSCRe_bound (i + 1), HKS_EVSCRe_runs (i + 1), HKS_EVSCRe_ofs (i + 1)], fun _ => []⟩]

/-- Registers of block PWR. -/
def rowsPWR : List RegRow := [
  ⟨0x110000, 0, 0, 0, 0, .aon, fun _ _ => [PWR_STAT_loss_seq, PWR_STAT_holdup_ok, PWR_STAT_b_state, PWR_STAT_a_state, PWR_STAT_active], fun _ => []⟩,
  ⟨0x110004, 0, 0, 0, 0, .warm, fun _ _ => [PWR_EVT_bits], fun _ => []⟩,
  ⟨0x110008, 0, 0, 0, 0, .warm, fun _ _ => [PWR_IRQ_EN_bits], fun _ => []⟩,
  ⟨0x11000c, 0, 0, 0, 0, .aon, fun _ _ => [PWR_CFG_revert_s, PWR_CFG_revert, PWR_CFG_pref], fun _ => []⟩,
  ⟨0x110010, 0, 0, 0, 0, .none, fun _ _ => [PWR_CTL_key, PWR_CTL_switch], fun _ => []⟩,
  ⟨0x110014, 0, 0, 0, 0, .aon, fun _ _ => [PWR_FEED_A_current, PWR_FEED_A_volt], fun _ => []⟩,
  ⟨0x110018, 0, 0, 0, 0, .aon, fun _ _ => [PWR_FEED_B_current, PWR_FEED_B_volt], fun _ => []⟩,
  ⟨0x11001c, 0, 0, 0, 0, .aon, fun _ _ => [PWR_SWITCH_cause, PWR_SWITCH_count], fun _ => []⟩,
  ⟨0x110020, 0, 0, 0, 0, .warm, fun _ _ => [PWR_IOFAULT_live, PWR_IOFAULT_seen], fun _ => []⟩,
  ⟨0x110024, 0, 0, 0, 0, .warm, fun _ _ => [PWR_THERM_warn, PWR_THERM_sensor, PWR_THERM_temp], fun _ => []⟩,
  ⟨0x110028, 0, 0, 0, 0, .aon, fun _ _ => [PWR_THERM_CFG_restart], fun _ => []⟩,
  ⟨0x11002c, 0, 0, 0, 0, .cold, fun _ _ => [PWR_RAIL_lost], fun _ => []⟩,
  ⟨0x110030, 0, 0, 0, 0, .cold, fun _ _ => [PWR_RES_RETRY_count], fun _ => []⟩,
  ⟨0x110034, 0, 0, 0, 0, .cold, fun _ _ => [PWR_RES_SPARE_count], fun _ => []⟩,
  ⟨0x110038, 0, 0, 0, 0, .cold, fun _ _ => [PWR_RES_RETIRED_unit, PWR_RES_RETIRED_nospare, PWR_RES_RETIRED_slots], fun _ => []⟩,
  ⟨0x110040, 4, 16, 0, 0, .cold, fun i _ => [PWR_LANEg_nospare i, PWR_LANEg_used i, PWR_LANEg_channel i, PWR_LANEg_cal i, PWR_LANEg_spares i], fun _ => []⟩]

/-- Registers of block BBX. -/
def rowsBBX : List RegRow := [
  ⟨0x120000, 0, 0, 0, 0, .none, fun _ _ => [BBX_CTL_key, BBX_CTL_prep, BBX_CTL_clear, BBX_CTL_unfreeze, BBX_CTL_freeze], fun _ => []⟩,
  ⟨0x120004, 0, 0, 0, 0, .aon, fun _ _ => [BBX_STAT_frozen, BBX_STAT_freeze_cause, BBX_STAT_prev_valid, BBX_STAT_nv_state, BBX_STAT_count], fun _ => []⟩,
  ⟨0x120008, 0, 0, 0, 0, .aon, fun _ _ => [BBX_EVT_bits], fun _ => []⟩,
  ⟨0x12000c, 0, 0, 0, 0, .aon, fun _ _ => [BBX_IRQ_EN_bits], fun _ => []⟩,
  ⟨0x120010, 0, 0, 0, 0, .aon, fun _ _ => [BBX_CFG_overwrite, BBX_CFG_auto_prep, BBX_CFG_load], fun _ => []⟩,
  ⟨0x120014, 0, 0, 0, 0, .aon, fun _ _ => [BBX_HEAD_value], fun _ => []⟩,
  ⟨0x120018, 0, 0, 0, 0, .aon, fun _ _ => [BBX_LOST_value], fun _ => []⟩,
  ⟨0x12001c, 0, 0, 0, 0, .aon, fun _ _ => [BBX_DUMP_result, BBX_DUMP_time], fun _ => []⟩,
  ⟨0x120020, 0, 0, 0, 0, .aon, fun _ _ => [BBX_RD_IDX_bank, BBX_RD_IDX_age], fun _ => []⟩,
  ⟨0x120024, 4, 4, 0, 0, .aon, fun _ _ => [], fun _ => []⟩]

/-- Registers of block STP, window side (R348). -/
def rowsSW : List RegRow := [
  ⟨0x4000000, 0, 0, 0, 0, .warm, fun _ _ => [STP_SW_ID_id], fun _ => []⟩,
  ⟨0x4000004, 0, 0, 0, 0, .warm, fun _ _ => [STP_SW_STAT_err, STP_SW_STAT_busy], fun _ => []⟩,
  ⟨0x4000008, 0, 0, 0, 0, .warm, fun _ _ => [STP_SW_ADDR_LO_addr], fun _ => []⟩,
  ⟨0x400000c, 0, 0, 0, 0, .warm, fun _ _ => [STP_SW_ADDR_HI_addr], fun _ => []⟩,
  ⟨0x4000010, 0, 0, 0, 0, .warm, fun _ _ => [STP_SW_DATA_LO_data], fun _ => []⟩,
  ⟨0x4000014, 0, 0, 0, 0, .warm, fun _ _ => [STP_SW_DATA_HI_data], fun _ => []⟩,
  ⟨0x4000018, 0, 0, 0, 0, .warm, fun _ _ => [STP_SW_CMD_write, STP_SW_CMD_read], fun _ => []⟩,
  ⟨0x4000020, 0, 0, 0, 0, .warm, fun _ _ => [], fun _ => []⟩,
  ⟨0x4000024, 0, 0, 0, 0, .warm, fun _ _ => [], fun _ => []⟩,
  ⟨0x4000028, 0, 0, 0, 0, .warm, fun _ _ => [], fun _ => []⟩,
  ⟨0x400002c, 0, 0, 0, 0, .warm, fun _ _ => [STP_SW_IRQ_EN_HI_db], fun _ => []⟩,
  ⟨0x4000030, 0, 0, 0, 0, .warm, fun _ _ => [], fun _ => []⟩,
  ⟨0x4000034, 0, 0, 0, 0, .warm, fun _ _ => [], fun _ => []⟩,
  ⟨0x4000038, 0, 0, 0, 0, .warm, fun _ _ => [STP_SW_COLL_count], fun _ => []⟩]

/-- The rows of the block at address `a` (R423). -/
def rowsOf (a : Nat) : List RegRow :=
  match a / 0x10000 with
  | 0 => rowsGLB
  | 1 => rowsCLK
  | 2 => rowsTMB
  | 3 => rowsINP
  | 4 => rowsDSK
  | 5 => rowsTRL
  | 6 => rowsACQ
  | 7 => rowsHDG
  | 8 => rowsRED
  | 9 => rowsSIV
  | 10 => rowsTIM
  | 11 => rowsNMC
  | 12 => rowsDMC
  | 13 => rowsRAK
  | 14 => rowsHRV
  | 15 => rowsSTP
  | 16 => rowsGRF
  | 17 => rowsPWR
  | 18 => rowsBBX
  | 19 => rowsHKS
  | 0x400 => rowsSW
  | _ => []

/-- The index of register `a` in an array of registers, when it is one of the row's. -/
def RegRow.idx (r : RegRow) (a : Nat) : Option (Nat × Nat) :=
  if a < r.base then none else
  let off := a - r.base
  let i := if r.c1 = 0 then 0 else off / r.s1
  let rem := if r.c1 = 0 then off else off % r.s1
  let j := if r.c2 = 0 then 0 else rem / r.s2
  let rem2 := if r.c2 = 0 then rem else rem % r.s2
  if rem2 = 0 ∧ (r.c1 = 0 ∨ i < r.c1) ∧ (r.c2 = 0 ∨ j < r.c2) then some (i, j) else none

/-- The row and indices of the register at `a`, if any (R424). -/
def findReg (rows : List RegRow) (a : Nat) : Option (RegRow × Nat × Nat) :=
  match rows with
  | [] => none
  | r :: rs => match r.idx a with
    | some (i, j) => some (r, i, j)
    | none => findReg rs a

/-- The register at byte address `a` of BAR0 (or of the window, from 0x0400_0000 with one word per half-word). -/
def regAt (a : Nat) : Option (RegRow × Nat × Nat) := findReg (rowsOf a) a

/-- The reset domain of the field with bit address `key`. -/
def domOfKey (key : Nat) : Dom :=
  match regAt (key / 32 * 4) with
  | some (r, _) => r.dom
  | none => .none

/-- Groups of words that one read captures (R71 and its uses): first word, stride and count of the group, and the byte
offsets of the words that return the captured value. -/
def capGroups : List (Nat × Nat × Nat × List Nat) := [
  (0x20000, 4, 1, [4, 8]), (0x54008, 0x20, 16, [4]), (0x5420C, 0x20, 16, [4]), (0x50030, 4, 1, [4, 8]),
  (0x60080, 8, 2, [4]), (0x81028, 0x100, 8, [4]), (0x90030, 8, 5, [4]), (0xA0028, 8, 1, [4]),
  (0xE0018, 8, 1, [4]), (0x10011C, 0x40, 4, [4, 8, 12]), (0x120024, 0x10, 1, [4, 8, 12])]

end Sys2Proof.Machine
end

