-- ==== Sys2Proof/Machine/State.lean ====
section
/-! DEFINITION. The state of the Kameth: plain data. Every register field of the spec is an entry of `fields` (absent: its
reset value); what the spec gives the blocks beyond their registers stands in one structure per block; `pending` is the
queue of commands waiting, first in, first out. -/

namespace Sys2Proof.Machine

/-- Why a step stops with a fault. -/
inductive Fault where
  /-- A station-port access begun while SP_BUSY is 1 outside an access (R336): raised by stationRead and stationWrite.
  Safe: the machine stops where the spec gives the access no effect. -/
  | stationBusy
  deriving DecidableEq, Repr

/-- Why a step is refused. -/
inductive Refusal where
  /-- The command has no meaning in this model yet. Safe. -/
  | notModelled (mnemonic : String)
  deriving DecidableEq, Repr

/-- What is fixed when the module is built (R1, R35). -/
structure Build where
  variant : Nat
  coreVer : Nat
  fetVer : Nat
  sramVer : Nat
  moduleVer : Nat
  serial : Nat
  deriving DecidableEq, Repr

/-- 64-byte words of near memory that a writer has filled with contents the spec does not give: words `lo` ≤ i < `hi` of a ring
over `n` tiles from tile `t0`, word i lying in word ⌊i / n⌋ of tile t0 + i mod n (R273); `k` names the free value. -/
structure Fill where
  t0 : Nat
  n : Nat
  lo : Nat
  hi : Nat
  k : Nat
  deriving DecidableEq, Repr

/-- A byte memory: strictly rising addresses. With `dflt = none` an unlisted byte outside the fills reads 0 and no listed byte
there is 0; with `dflt = some k` an unlisted byte is unspecified (R280). -/
structure Mem where
  dflt : Option Nat
  cells : List Host.Cell
  fills : List Fill
  deriving DecidableEq, Repr

/-- A stretch of the sample grid of one rate (R90): position `pos` starts at `kt40` (in 2^-40 F); `f` is the sample base in kHz,
`m2` the 32 phases of M2, `y40` the frequency correction in use. -/
structure Anchor where
  pos : Int
  kt40 : Nat
  f : Nat
  m2 : Bool
  y40 : Int
  deriving DecidableEq, Repr

/-- The sample grid (R90, R92): its present stretch, whether the sample domain is ungated, and the stretches before the present
one, newest first, of which every sample keeps the times. -/
structure Grid where
  pos : Int
  kt40 : Nat
  f : Nat
  m2 : Bool
  y40 : Int
  run : Bool
  old : List Anchor
  deriving DecidableEq, Repr

/-- A probe check in progress (R59): its channels, how many are measured and their verdicts and voltages; the channel under
measurement with what its slot gives, and the start of that slot. -/
structure PChk where
  start : Nat
  atArm : Bool
  task : Bool
  todo : List Nat
  idx : Nat
  active : List Nat
  winOpen : Bool
  done : List (Nat × Nat × Int × Int)
  cur : Option ((Nat × Nat × Int × Int) × Nat)
  deriving DecidableEq, Repr

/-- An edge on its way through deskew alignment (R161, R198): deskewed time, channel (0x400 + n: GATEn), new level, sample
resolution. -/
structure HeldE where
  t : Nat
  ch : Nat
  up : Bool
  sres : Bool
  deriving DecidableEq, Repr

/-- Hidden state of the input block: settling ends, latch period origins, last selected edge, last threshold write,
channels read in the sweep, latch times awaiting conversion, the running probe check, the case temperature of
the threshold calibration since the last wake from off (R42), each TDC's last edge and rate credit (R93), the edges that
Hedge, the reduction units and the interval unit have still to see, in order of time, then channel, and when each channel last
resolved (R44). -/
structure Inp where
  settle : List (Nat × Nat)
  perAll : Nat
  per : List (Nat × Nat)
  lastSel : List (Nat × Nat)
  thrAt : List (Nat × Nat)
  swept : List Nat
  convert : List Nat
  pchk : Option PChk
  trim : Option Int
  rate : List (Nat × Nat × Nat)
  hold : List HeldE
  resAt : List (Nat × Nat)
  deriving DecidableEq, Repr

/-- Hidden state of the time base: KT72 and its fraction, integrated ageing (10^-13 per day times F), the loop term in use,
its updates so far, its phase part (R83) and its values of the last 10 s with the times they came into force, newest first, trim held in M0, the last PPS_IN edge,
phase error and corrected time of the last accepted edge, outliers in a row, good edges in a row, origin of TMB_HOLD_AGE, the
source under which the state was last LOCKED, start of the present REF_IN validity, when an epoch load was armed, PPS_OUT and the
end of its pulse, the period in F that REF_OUT carries (none: held low, R87). -/
structure Tmb where
  kt : Nat
  frac : Nat
  ageAcc : Int
  loop : Int
  loopK : Nat
  phase : Int
  loops : List (Nat × Int)
  trimHeld : Option Int
  ppsLast : Option Nat
  ppsErr : Option Int
  ppsAcc : Option Nat
  outRun : Nat
  goodRun : Nat
  lockRef : Nat
  lockSrc : Nat
  refSince : Nat
  epochAt : Nat
  ppsOut : Bool
  ppsEnd : Nat
  refOut : Option Nat
  deriving DecidableEq, Repr

/-- One pair of a live-traffic gather (R101): channel b, partner a, expected offset, search range, edges of a used, the
selected edges of a and the edges of b so far, newest first. -/
structure GPair where
  b : Nat
  a : Nat
  e : Int
  mtch : Nat
  edge : Nat
  as : List Nat
  bs : List Nat
  deriving DecidableEq, Repr

/-- A running gather (R102): start, end of its window, pairs, whether it carried CLOCK_SUSPECT, since when a hop waits, and how long
hops that were withdrawn have waited. -/
structure Gather where
  start : Nat
  stopAt : Nat
  pairs : List GPair
  suspect : Bool
  hopAt : Option Nat
  waited : Nat
  deriving DecidableEq, Repr

/-- A value that waits for a boundary (R96): channel, term (0 LAND, 1 CAL, 2 USER), value, whether a gather found it, since
when it waits. -/
structure Pend where
  ch : Nat
  term : Nat
  v : Int
  gath : Bool
  since : Nat
  deriving DecidableEq, Repr

/-- Hidden state of the deskew block: active LAND and USER terms, pending values, the running gather, pulses gathered by dead-time injection. -/
structure Dsk where
  land : List (Nat × Int)
  user : List (Nat × Int)
  pend : List Pend
  gather : Option Gather
  pulses : Nat
  deriving DecidableEq, Repr

/-- An M7 task in progress (R26). -/
structure Task where
  code : Nat
  start : Nat
  entries : List (Nat × Nat × Int × Int × Int)
  deriving DecidableEq, Repr

/-- Hidden state of one ADPLL (R117 to R134): consecutive failed searches, start of its present state, the working entry
(frequency, band, code), whether it is the one in use, band-table entries latest used first, start of an open CLOCK_SUSPECT
interval, the preloaded entry the present search replaces, when CLK_x_MEAS last took a value (R130). -/
structure PllSt where
  fails : Nat
  since : Nat
  work : Option (Nat × Nat × Nat)
  useWork : Bool
  lru : List Nat
  suspect : Option Nat
  miss : Option Nat
  meas : Option Nat
  deriving DecidableEq, Repr

/-- A hop of R126: ADPLL, frequency, force held. -/
structure Hop where
  pll : Nat
  freq : Nat
  force : Bool
  deriving DecidableEq, Repr

/-- Hidden state of the clock block: the ADPLLs, waiting and running hop, start of an open CLK_EXT suspect interval, tile DLLs
that have lost lock (tile, when), fallback from CLK_EXT in effect, the sample domain waits for CLK_EXT, position at which the
sample domain was gated; since when a new source of the sample base has been within ±100 ppm without a break, while its gate is
shut (R113, R125), and the correction measured on CLK_EXT in 2^-40 (R115); the CLOCK_SUSPECT intervals since arm, or since the
start of a gather that runs (key, start, end: open if none; keys 0 to 2 ADPLL-S, C, M, 4 + n the DLL of FETn, 8 CLK_EXT). -/
structure Clk where
  s : PllSt
  c : PllSt
  m : PllSt
  hopWait : Option Hop
  hopRun : Option Hop
  extSuspect : Option Nat
  dllSuspect : List (Nat × Nat)
  fallback : Bool
  extWait : Bool
  gatePos : Nat
  qualAt : Option Nat
  extY : Int
  susLog : List (Nat × Nat × Option Nat)
  deriving DecidableEq, Repr

/-- A Trellis timer (R149): running, accumulated time in F, start time, S count of ended runs, sample of the last start. -/
structure Timer where
  run : Bool
  acc : Nat
  t0 : Nat
  cnt : Nat
  k0 : Nat
  deriving DecidableEq, Repr

/-- An edge of an external input (0 to 3 TRIG_IN, 4 to 7 GATE): time, input, new level. -/
structure XEdge where
  t : Nat
  i : Nat
  up : Bool
  deriving DecidableEq, Repr

/-- Hidden state of Trellis: timers, first sample evaluated since arm or restart, next sample to evaluate, external edges
since arm (newest first), levels of the external inputs now and at arm, Graft messages (input, time of arrival), ends of
TRIG_OUT pulses, sample of a restart to come (R166). -/
structure Trl where
  tm : List (Nat × Timer)
  first : Nat
  next : Nat
  ext : List XEdge
  lvl : Nat
  lvl0 : Nat
  gl : List (Nat × Nat)
  out : List (Nat × Nat)
  restart : Option Nat
  deriving DecidableEq, Repr

/-- A change of a channel's sample bit: from sample `pos` on it is `v` (0, 1, or 2 while unresolved); `t` its time,
`edge` whether it is an edge (a resolution is not, R44), `sres` whether its time is at sample resolution. -/
structure LogE where
  pos : Nat
  ch : Nat
  v : Nat
  t : Nat
  edge : Bool
  sres : Bool
  deriving DecidableEq, Repr

/-- A record to be written (R205): type code, flags, mode, kt, and the bytes after the common header. -/
structure Rec where
  typ : Nat
  flags : Nat
  mode : Nat
  kt : Nat
  body : List Byte
  deriving DecidableEq, Repr

/-- A state, edge or interval record of the present capture (M3 to M5): completion time and its sample; state clock, 0 or
slot; channel and new level (M4); the 32 bytes of an interval record (M5); start time; sample resolution; CLOCK_SUSPECT; the
recogniser that must match in its sample (M3; 64: none); lost to a storage stall or to the rate of its clock. In M5 `up` says whether the
start is at sample resolution. -/
structure RUnit where
  t : Nat
  pos : Nat
  src : Nat
  ch : Nat
  up : Bool
  val : Nat
  t0 : Nat
  sres : Bool
  sus : Bool
  pr : Nat
  lost : Bool
  deriving DecidableEq, Repr

/-- An accepted trigger: time, source (0 Trellis, 1 Hedge, 2 host), coarse, channel coded as TRL_LAST_HI.src. -/
structure Trig where
  t : Nat
  src : Nat
  coarse : Bool
  ch : Nat
  deriving DecidableEq, Repr

/-- The open segment (R211, R212): index, first of its chain, place in the region, mode; position and time at which its
pre-fill began, whether it continues a chain; the accepted trigger and its sample; early and blind triggers; start of its
dead time and the dead time; extra triggers, TRELLIS marks dropped, GAP records, units lost; pre-fill cut short; next
64-byte unit, units of non-data records, unit of its ALIGNMENT record, LEAD records discarded, sequence number of its
header, epoch ID at opening, CLOCK_SUSPECT seen, the end of its span when the
orderly loss sequence closes it (R398), the non-data records that arose after its opening, which go into its reserve (R175), and the
cable delays in effect when it opened (R213, R360). -/
structure Seg where
  idx : Nat
  chain : Nat
  place : Nat
  mode : Nat
  fillPos : Nat
  fillKt : Nat
  cont : Bool
  trig : Option Trig
  trigPos : Nat
  early : Nat
  earlyKt : Nat
  blind : Nat
  blindKt : Nat
  deadFrom : Nat
  dead : Nat
  extra : Nat
  markDrop : Nat
  gapN : Nat
  lost : Nat
  cut : Bool
  wofs : Nat
  evt : Nat
  alnAt : Nat
  leadLost : Nat
  seq0 : Nat
  epochId : Nat
  suspect : Bool
  lossEnd : Option Nat
  evs : List Rec
  cable : List Int
  deriving DecidableEq, Repr

/-- A state clock's rate run (R190): its last edge, edges in a row beyond the rate, when the next may be kept (in tenths of F), and the
open loss: first lost time, position, number. -/
structure StRun where
  last : Nat
  n : Nat
  due : Nat
  gap : Option (Nat × Nat × Nat)
  deriving DecidableEq, Repr

/-- A segment whose header is still to be written, in REARM (R182): the segment with its blind triggers so far, channels whose
deskew changed at the boundary, channels whose spare lane took over there. -/
structure Opening where
  g : Seg
  n : Nat
  ls : List Nat
  deriving DecidableEq, Repr

/-- A write to the capture region, which waits until Harvest has delivered what stands there (R179, R325): segment, first and
last 64-byte unit of the place it concerns, address, bytes, zeros after them, and the accesses written poisoned (R276, R283). -/
structure CapW where
  idx : Nat
  lo : Nat
  hi : Nat
  a : Nat
  bs : List Byte
  z : Nat
  bad : List Nat
  deriving DecidableEq, Repr

/-- A closed segment: index, its span [a, b) in positions, the times at which it opened and its span ended, and the unit and address
of its trailer. -/
structure Span where
  idx : Nat
  a : Nat
  b : Nat
  t0 : Nat
  t1 : Nat
  trU : Nat
  trA : Nat
  deriving DecidableEq, Repr

/-- Hidden state of acquisition: time the arm checks passed, last accepted trigger, open segment, queued LEAD records and
how many were discarded (R210), sequence counter, levels and unresolved channels at arm, level log, qualification by sample,
open storage stall (position and time of the first unit not stored), closed gaps, record units
(in order of time), how many were dropped from their front, next segment index, places held by segments of this arm (place,
first of chain), gap of a relock to report (time, cause, positions lost, the first of them), whether a return of R30 is free,
source change to mark, index of the free bits of unresolved channels (R45), the closed
segments, entry to IDLE, rate runs of the state clocks, sample-base periods the capture writers have put in their rings;
the segment that opens at the end of the present REARM, the last trigger and its sample (R180), writes that wait for Harvest, and
the last stop: its time, the segment it closed with the unit of its trailer and that unit's address (R187), and where the records of
the region start that are not overwritten yet, in units since arm with every segment's place counted whole, newest first (R327). -/
structure Acq where
  passKt : Nat
  lastTrig : Nat
  seg : Option Seg
  leads : List Rec
  leadLost : Nat
  seq : Nat
  lvl0 : List Nat
  unres0 : List Nat
  log : List LogE
  qualLog : List (Nat × Bool)
  gapFrom : Option (Nat × Nat)
  gaps : List (Nat × Nat)
  units : List RUnit
  unitBase : Nat
  next : Nat
  held : List (Nat × Nat)
  relock : Option (Nat × Nat × Nat × Option Nat)
  retOk : Bool
  srcMark : Option Nat
  freeK : Nat
  idleAt : Nat
  spans : List Span
  stRun : List (Nat × StRun)
  ringPos : Nat
  opening : Option Opening
  seen : Option (Nat × Trig)
  defer : List CapW
  stopped : Option (Nat × Option (Nat × Nat × Nat))
  starts : List Nat
  deriving DecidableEq, Repr

/-- Hidden state of one mask rule (R193): reference edge of the present horizon, whether its actions were taken, channels with
a transition in W0, channels judged MISSING in it, channels whose last transition has given a violation. -/
structure Rule where
  ref : Option Nat
  acted : Bool
  w0 : List Nat
  missed : List Nat
  judged : List Nat
  deriving DecidableEq, Repr

/-- Hidden state of Hedge: the rules by number, each channel's last rising and falling transition, and the tail of a stop
violation (the first sample or record after it) with the violation's time. -/
structure Hdg where
  rules : List (Nat × Rule)
  lastUp : List (Nat × Nat)
  lastDn : List (Nat × Nat)
  tail : Option Nat
  tailT : Nat
  deriving DecidableEq, Repr

/-- Hidden state of one reduction unit: whether it writes, its open block (kt, entries, bytes, the instants at which its entries were
complete, segment, position, losses, whether suspect), sequence counter, next unit of its region, rate credit, present interval (start position and time, counts, histogram),
previous selected edges, last edge of each channel for GLITCH (four times its time, plus 2 for a rising one, plus 1 at sample resolution), last BUS value, first
sample of the BUS value not yet entered, next sample to look at, region full, and its blocks by segment (first and last unit). -/
structure Ru where
  run : Bool
  opened : Bool
  kt : Nat
  coarse : Bool
  count : Nat
  body : List Byte
  ends : List Nat
  seg : Nat
  pos : Nat
  lost : Nat
  seq : Nat
  wofs : Nat
  credit : Nat
  creditAt : Nat
  ivlPos : Nat
  ivlKt : Nat
  acc : List (Nat × Nat)
  prevSel : List (Nat × Nat)
  prevEdge : List (Nat × Nat)
  word : Option Nat
  cand : Option Nat
  sus : Bool
  nextPos : Nat
  shut : Bool
  blks : List (Nat × Nat × Nat)
  deriving DecidableEq, Repr

/-- A block of Sieve input (R238, R247): tile, first position and its start, periods, offer time, lane once reserved. -/
structure SBlk where
  tile : Nat
  pos : Nat
  kt : Nat
  n : Nat
  at_ : Nat
  lane : Option Nat
  deriving DecidableEq, Repr

/-- Hidden state of Sieve: the first position not yet offered of each tile whose sequence runs, blocks offered or reserved
(oldest first), the region's sequence counter, and the end of the reserved space before a wrap with the reservations in it that are
still to be used (R249). -/
structure Siv where
  nextPos : List (Nat × Nat)
  blks : List SBlk
  seq : Nat
  pre : Option (Nat × Nat)
  deriving DecidableEq, Repr

/-- A queued timestamp (R259): t', new level, sample resolution, CLOCK_SUSPECT. -/
structure Stamp where
  t : Nat
  up : Bool
  sres : Bool
  sus : Bool
  deriving DecidableEq, Repr

/-- Hidden state of one measurement slot: pending starts and stops (oldest first), measurements since the decimation count
restarted, gate edge in use and measurements counted under it (kinds 1 to 3), and the gate of kind 4: its opening (of a timed gate
also one to come), first edge, last edge, edge count, whether it gives no record. -/
structure Slot where
  starts : List Stamp
  stops : List Stamp
  dec : Nat
  gEdge : Option Nat
  taken : Nat
  gateAt : Option Nat
  first : Option Stamp
  lastE : Option Stamp
  n : Nat
  bad : Bool
  deriving DecidableEq, Repr

/-- A loss episode (R262): first and last lost timestamp, their number, and whether the first is at sample resolution. -/
structure Loss where
  first : Nat
  last : Nat
  n : Nat
  sres : Bool
  deriving DecidableEq, Repr

/-- A queue of timestamps (R261): entries in near memory not yet consumed, and its chunks in the overflow region, oldest first, with
the entries of each not yet consumed. -/
structure TQueue where
  near : Nat
  chunks : List (Nat × Nat)
  deriving DecidableEq, Repr

/-- Hidden state of the interval unit: end of ARMING, timestamps queued by channel since, levels of GATE0 to GATE3 then, their edges since (newest first),
the queues by channel code, times queued by tile in the last µs (newest first), slots, open loss episodes by tile (4: the GATE
queues), episodes that wait for the first timestamp after them (tile, episode), the kt_end of the last episode by tile,
when the last records were or will be written (newest first), the endpoints of the records that wait (time of writing, channel
code, endpoint), those records (time of writing, slot, record), and the edges and ends of timed gates (code 0x800 + slot) that the unit
has still to see, in order of time. -/
structure Tim where
  from_ : Nat
  qn : List (Nat × Nat)
  gate0 : Nat
  gates : List (Nat × List Stamp)
  qs : List (Nat × TQueue)
  recent : List (Nat × List Nat)
  slots : List (Nat × Slot)
  loss : List (Nat × Loss)
  ended : List (Nat × Loss)
  after : List (Nat × Nat)
  written : List Nat
  busy : List (Nat × Nat × Stamp)
  wait : List (Nat × Nat × RUnit)
  hold : List HeldE
  deriving DecidableEq, Repr

/-- Hidden state of the deep-memory controller: masks in effect, pseudo-channels waiting for migration, owed refreshes and
corrected BAR2 reads of the present second by pseudo-channel, rows on a spare row (pseudo-channel, row), pseudo-channels
whose limit is still 4 after their stack stopped being hot, an init that waits or runs, and for each pseudo-channel migrating or
retired the pseudo-channels that take its user space and the grain of their interleave (R281, R286); what the rate has let the running
migration move, in 1/2,048 of a byte, by the time that stands beside it. -/
structure Dmc where
  hash : List Nat
  migQ : List Nat
  owed : List (Nat × Nat)
  sym : List (Nat × Nat)
  spared : List (Nat × Nat)
  cooling : List Nat
  initWait : Bool
  initRun : Bool
  moved : List (Nat × List Nat × Nat)
  migRoom : Nat
  migAt : Nat
  deriving DecidableEq, Repr

/-- A Rake lease (R294, R295): target (0 near, 1 deep, 2 scratchpad), region in the sweep's order, pseudo-channel, first byte
of the region in its memory or pseudo-channel, length, algorithm. What the shadow holds stands in the memory itself. -/
structure Lease where
  target : Nat
  region : Nat
  pc : Nat
  addr : Nat
  len : Nat
  algo : Nat
  deriving DecidableEq, Repr

/-- Hidden state of Rake: leases in progress, next region of each memory's sweep, pre-empted regions at the end of the order
(target, region), the grain of the present deep sweep, and when the rates of RAK_RATE allow each memory its next lease (R294). -/
structure Rak where
  leases : List Lease
  nextAt : List (Nat × Nat)
  again : List (Nat × Nat)
  grain : Nat
  due : List (Nat × Nat)
  deriving DecidableEq, Repr

/-- A fetched descriptor (R320): the host address it was read at (R319), buffer, length, tag, source, dflags.IRQ, taken as COPY, breaks
R320 or R321. -/
structure Desc where
  at_ : Nat
  addr : Nat
  len : Nat
  tag : Nat
  src : Nat
  irq : Bool
  copy : Bool
  bad : Bool
  deriving DecidableEq, Repr

/-- Hidden state of a descriptor ring: descriptors fetched and not completed (the first is in hand), bytes and records written
to its buffer, time of the first record, region offset of the first byte, offset of the first poisoned access, a completion
(status, flags, info) that waits for a free entry (R331), read position in a reduction or Sieve region in units since arm,
segment and unit read in the capture region, records of it delivered with FINAL = 0, trailer delivered, stream ring of this arm,
last buffer of this arm completed. -/
structure Ring where
  q : List Desc
  bytes : Nat
  recs : Nat
  firstAt : Option Nat
  rofs : Nat
  pois : Option Nat
  ready : Option (Nat × Nat × Nat)
  rd : Nat
  seg : Nat
  u : Nat
  redo : List Nat
  after : Bool
  strm : Bool
  ended : Bool
  deriving DecidableEq, Repr

/-- Hidden state of a completion ring: entries not yet signalled, and when the oldest was written. -/
structure Cq where
  unsig : Nat
  oldest : Nat
  deriving DecidableEq, Repr

/-- A BAR2 request held while the memory domain is gated (R128, R135): a read with the words that give errors, or a write, and how long it
waits for its grant (R293). -/
inductive MemReq where
  | read (a len : Nat) (corr uncorr : List Nat) (wait : Nat)
  | write (a : Nat) (data : List Byte) (wait : Nat)
  deriving DecidableEq, Repr

/-- A write that the link carries to host memory: address, bytes, and whether it has relaxed ordering (R330). -/
structure HostTlp where
  addr : Nat
  data : List Byte
  relaxed : Bool
  deriving DecidableEq, Repr

/-- Hidden state of Harvest and PCI Express: rings, completion rings, what the link has written to the host (oldest first), units
written to each reduction and Sieve region since arm and where their records start, width and rate of the link while it is up
(R312), link in L1.2, in D3hot, Bus Master Enable, the control registers of configuration space that have been written (R307), Poisoned
TLP Egress errors logged, the last BAR2 completion and whether it was poisoned, BAR2 requests held for the memory domain. -/
structure Hrv where
  rings : List (Nat × Ring)
  cqs : List (Nat × Cq)
  out : List HostTlp
  written : List (Nat × Nat)
  starts : List (Nat × List Nat)
  link : Option (Nat × Nat)
  l12 : Bool
  d3 : Bool
  bme : Bool
  cfg : List (Nat × Nat)
  aerPoison : Nat
  cpl : List Byte
  cplPoison : Bool
  memHeld : List MemReq
  deriving DecidableEq, Repr

/-- Hidden state of the station port: window command not yet complete (true: a write), the half-word last driven on SP_D,
whether the last access was warned by SP_BUSY (R340). -/
structure Stp where
  cmd : Option Bool
  dout : Nat
  warn : Bool
  deriving DecidableEq, Repr

/-- Hidden state of one Graft port (R350, R354, R357, R359): consecutive valid SYNC frames in TRAINING, 2d and θ of the last
frames (newest first), t3 and arrival of the last SYNC received, when the last SYNC was sent, start times of the TRIG frames
last queued, when those of XTRIG actions at the end of the queue were queued and start, an offset alarm in effect, the peer reports this unit's ID, time of the last valid frame. -/
structure GPort where
  good : Nat
  dlys : List Int
  ofss : List Int
  lastSync : Option (Nat × Nat)
  syncAt : Option Nat
  starts : List Nat
  own : List (Nat × Nat)
  ofsOn : Bool
  dup : Bool
  okAt : Nat
  deriving DecidableEq, Repr

/-- A frame sent by a Graft port: port, its bits and 64-bit blocks, time of its first bit. -/
structure Frame where
  port : Nat
  bits : Nat
  blocks : Nat
  t : Nat
  deriving DecidableEq, Repr

/-- Hidden state of Graft: the message counter, ports, the last accepted messages (source, sequence, time; newest first),
frames sent, newest first. -/
structure Grf where
  seqN : Nat
  ports : List (Nat × GPort)
  seen : List (Nat × Nat × Nat)
  sent : List Frame
  deriving DecidableEq, Repr

/-- A running script (R380), coded as HKS_STAT.script (1 to 7 event, 8 configuration, 9 host-run): first byte of its words (in
near memory for the configuration script, else in the scratchpad), next word, words it may reach, end of a WAIT, and a POLL
in progress: address, mask, value, deadline, cont. -/
structure Script where
  kind : Nat
  base : Nat
  pc : Nat
  len : Nat
  wait : Option Nat
  poll : Option (Nat × Nat × Nat × Nat × Bool)
  deriving DecidableEq, Repr

/-- Hidden state of start-up and power modes: main rails on, sources of a requested warm reset, step of R369 (0 rails off, 2 to 5, 6 ended)
and its start, sampled straps, iflags and length of the image, black-box region, words of HKS_KEYH written, whether the station
has supplied a key hash (R378), running script, host-run script waiting, automatic arm to come at boot (R385) or
after a wake (R389), change into M0 started (R30), entry to M0, to_wake latch settings since (channel, time), wake in progress
(WAKE ch, class, kt), host requests that complete after the wake (the first, and those after it), start of the watchdog period, configuration-memory
operation (op, address, start) and the page it programs, bytes of the device (0: none), the composite pair in effect (R32). -/
structure Hks where
  rails : Bool
  warmReq : List WarmSrc
  step : Nat
  stepAt : Nat
  sel : Nat
  sigN : Bool
  iflags : Nat
  imgLen : Nat
  bbxOfs : Option Nat
  keyW : Nat
  keyBit : Bool
  script : Option Script
  runReq : Option Nat
  armBoot : Bool
  armWake : Bool
  entering : Bool
  m0At : Nat
  sets : List (Nat × Nat)
  waking : Option (Nat × Nat × Nat)
  hostReq : Option HostReq
  hostMore : List HostReq
  wdgAt : Nat
  nvOp : Option (Nat × Nat × Nat)
  nvPage : List Byte
  nvSize : Nat
  pair : Bool
  deriving DecidableEq, Repr

/-- A group of 16 arithmetic slots (R405, R406): retries and spare decisions since arm, spare uses of the last second (slot,
time), and the slot the spare has replaced. -/
structure ResG where
  retries : Nat
  spares : Nat
  uses : List (Nat × Nat)
  retired : Option Nat
  deriving DecidableEq, Repr

/-- A failed sampler lane (R407 to R410): channel, the spare lane connected beside it, start of its measurement and edges
gathered, whether it wants a burst, when the measurement ended, whether the spare is in service. A spare lane that has failed
in its turn stands under channel 1,024 or more. -/
structure Lane where
  ch : Nat
  spare : Option Nat
  since : Nat
  edges : Nat
  burst : Bool
  doneAt : Option Nat
  used : Bool
  deriving DecidableEq, Repr

/-- Hidden state of the supplies: entry of each feed into its state (2: last switch), since when neither feed is in range,
start and cause of the orderly loss sequence (R398), Harvest cut off, time the rails went off, both feeds absent since, the
always-on domain without power, Residue groups, failed lanes. -/
structure Pwr where
  at_ : List (Nat × Nat)
  lostAt : Option Nat
  seqAt : Option Nat
  cause : Nat
  cut : Bool
  offAt : Option Nat
  absent : Bool
  dead : Bool
  res : List (Nat × ResG)
  lanes : List Lane
  deriving DecidableEq, Repr

/-- A black-box entry (R413). -/
structure BEntry where
  kt : Nat
  code : Nat
  src : Nat
  detail : Nat
  deriving DecidableEq, Repr

/-- The black box: live bank and previous bank, newest first (R413, R416), a dump in progress, the region being prepared. -/
structure Bbx where
  live : List BEntry
  prev : List BEntry
  dumping : Bool
  prep : Bool
  deriving DecidableEq, Repr

/-- The test access port (R437 to R439): the instruction in effect, 1 + the code that drives the lands (0: the Kameth's
logic drives them), what the selected data register has captured, bit 0 nearest TDO, and what the instruction register captured at
the last load. -/
structure Jtg where
  instr : Nat
  drive : Nat
  dr : Nat
  ir : Nat
  deriving DecidableEq, Repr

/-- A register request held while its domain cannot perform it (R135): a write, or a read. -/
structure Held where
  read : Bool
  port : Port
  a : Nat
  be : Nat
  v : Nat
  deriving DecidableEq, Repr

/-- The state of the Kameth. `cells` are the failing cells of near memory (0) and the scratchpad (2) that Rake has found: memory,
byte address of the 64-bit or 32-bit word, bit (R297). -/
structure State where
  build : Build
  fields : List (Nat × Nat)
  caps : List (Nat × List Nat)
  held : List Held
  free : Nat
  grid : Grid
  inp : Inp
  tmb : Tmb
  dsk : Dsk
  task : Option Task
  clk : Clk
  trl : Trl
  acq : Acq
  hdg : Hdg
  red : List (Nat × Ru)
  siv : Siv
  tim : Tim
  dmc : Dmc
  rak : Rak
  hrv : Hrv
  stp : Stp
  grf : Grf
  hks : Hks
  pwr : Pwr
  bbx : Bbx
  jtg : Jtg
  near : Mem
  deep : Mem
  scr : Mem
  nv : Mem
  poison : List Nat
  dpoison : List Nat
  cells : List (Nat × Nat × Nat)
  msxTab : List (Nat × Nat)
  msxPba : List Nat
  msix : List Nat
  irqSeen : List (Nat × Nat)
  pending : List Instr
  deriving DecidableEq, Repr

/-! ### The machine right after power-on reset of the always-on domain (R369, log entries 1 and 2) -/

/-- The module this model is of: a KMT-1024-H4-E (R1), version and serial number 0. -/
def Build.here : Build := ⟨1, 0, 0, 0, 0, 0⟩

/-- The input block after a reset. -/
def Inp.new : Inp := ⟨[], 0, [], [], [], [], [], none, none, [], [], []⟩

/-- The deskew block after a reset. -/
def Dsk.new : Dsk := ⟨[], [], [], none, 0⟩

/-- An ADPLL that is OFF. -/
def PllSt.new : PllSt := ⟨0, 0, none, false, [], none, none, none⟩

/-- The clock block after a reset of the always-on domain. -/
def Clk.new : Clk := ⟨PllSt.new, PllSt.new, PllSt.new, none, none, none, [], false, false, 0, none, 0, []⟩

/-- Trellis after a reset. -/
def Trl.new : Trl := ⟨[], 0, 0, [], 0, 0, [], [], none⟩

/-- Acquisition after a reset. -/
def Acq.new : Acq :=
  ⟨0, 0, none, [], 0, 0, [], [], [], [], none, [], [], 0, 0, [], none, false, none, 0, 0, [], [], 0, none, none, [], none, []⟩

/-- Hedge after a reset, and at arm (R193). -/
def Hdg.new : Hdg := ⟨[], [], [], none, 0⟩

/-- Sieve after a reset. -/
def Siv.new : Siv := ⟨[], [], 0, none⟩

/-- The interval unit after a reset. -/
def Tim.new : Tim := ⟨0, [], 0, [], [], [], [], [], [], [], [], [], [], []⟩

/-- Sample grid of a domain that does not run. -/
def Grid.new : Grid := ⟨0, 0, 1000000, false, 0, false, []⟩

/-- The reset masks of R280. -/
def hashReset : List Nat := (List.range 13).map fun n => hashResetLo.getD n 0 + 2 ^ 32 * hashResetHi.getD n 0

/-- The deep-memory controller after a wake from off. -/
def Dmc.new : Dmc := ⟨hashReset, [], [], [], [], [], false, false, [], 0, 0⟩

/-- Rake after a wake from off. -/
def Rak.new : Rak := ⟨[], [], [], 4, []⟩

/-- Harvest and PCI Express after a reset. -/
def Hrv.new : Hrv := ⟨[], [], [], [], [], none, false, false, false, [], 0, [], false, []⟩

/-- Graft after a reset. -/
def Grf.new : Grf := ⟨0, [], [], []⟩

/-- Start-up with the rails off. -/
def Hks.new : Hks :=
  ⟨false, [], 0, 0, 0, true, 0, 0, none, 0, false, none, none, false, false, false, 0, [], none, none, [], 0, none, [], 0, false⟩

/-- The supplies: no feed yet. -/
def Pwr.new : Pwr := ⟨[], none, none, 0, false, none, false, false, [], []⟩

/-- The time base: KT72 at 0. -/
def Tmb.new : Tmb := ⟨0, 0, 0, 0, 0, 0, [(0, 0)], none, none, none, none, 0, 0, 0, 0, 0, 0, false, 0, none⟩

/-- The machine right after the always-on domain has powered up: every register at its reset value, the main rails off, the
black box with its entry AON_UP (R414), memory contents not yet cleared and therefore unspecified, the queue empty.
DESIGN CHOICE (log entry 1): unsafe. DESIGN CHOICE (log entry 2): unsafe. -/
def State.reset : State where
  build := Build.here
  fields := [(BBX_STAT_count.key, 1), (BBX_HEAD_value.key, 1)]
  caps := []
  held := []
  free := 4
  grid := Grid.new
  inp := Inp.new
  tmb := Tmb.new
  dsk := Dsk.new
  task := none
  clk := Clk.new
  trl := Trl.new
  acq := Acq.new
  hdg := Hdg.new
  red := []
  siv := Siv.new
  tim := Tim.new
  dmc := Dmc.new
  rak := Rak.new
  hrv := Hrv.new
  stp := ⟨none, 0, false⟩
  grf := Grf.new
  hks := Hks.new
  pwr := Pwr.new
  bbx := ⟨[⟨0, 1, 0, 0⟩], [], false, false⟩
  jtg := ⟨1, 0, 0, 1⟩
  near := ⟨some 0, [], []⟩
  deep := ⟨some 1, [], []⟩
  scr := ⟨some 2, [], []⟩
  nv := ⟨some 3, [], []⟩
  poison := []
  dpoison := []
  cells := []
  msxTab := []
  msxPba := []
  msix := []
  irqSeen := []
  pending := []

end Sys2Proof.Machine
end

