-- ==== Sys2Proof/Machine/Ops.lean ====
section
/-! DEFINITION. The named operations every block uses: numbers, association lists, register fields, memory, time, records'
byte strings, the black box, and what the build and the mode make of the machine. -/

namespace Sys2Proof.Machine

/-! ### Numbers -/

/-- `n` bits of `v` as a signed number. -/
def sx (n v : Nat) : Int := if 2 ^ (n - 1) ≤ v % 2 ^ n then ((v % 2 ^ n : Nat) : Int) - 2 ^ n else ((v % 2 ^ n : Nat) : Int)

/-- The `n`-bit two's complement pattern of `i`. -/
def toU (n : Nat) (i : Int) : Nat := (i % 2 ^ n).toNat

/-- Signed value saturated to `n` bits, as a pattern. -/
def satU (n : Nat) (i : Int) : Nat := toU n (max (-(2 ^ (n - 1))) (min (2 ^ (n - 1) - 1) i))

/-- Division rounded up. -/
def cdiv (a b : Nat) : Nat := (a + b - 1) / b

/-- `a / b` rounded to the nearest integer, ties away from zero; `b > 0`. -/
def rnd (a : Int) (b : Nat) : Int := if 0 ≤ a then (2 * a + b) / (2 * b) else -((2 * (-a) + b) / (2 * b))

/-- Bit `i` of `v`. -/
def bit (v i : Nat) : Bool := v / 2 ^ i % 2 = 1

/-- A Bool as a bit. -/
def b2n (b : Bool) : Nat := if b then 1 else 0

/-- The number whose bits below `n` are those `f` gives. -/
def packBits (n : Nat) (f : Nat → Bool) : Nat :=
  match n with
  | 0 => 0
  | k + 1 => packBits k f + (if f k then 2 ^ k else 0)

/-- Integer square root by bisection over `n` bits: the largest r below 2^n with r * r ≤ v. -/
def isqrt (v : Nat) : Nat → Nat
  | 0 => 0
  | n + 1 =>
    let r := 2 * isqrt (v / 4) n
    if (r + 1) * (r + 1) ≤ v then r + 1 else r

/-! ### Association lists -/

/-- The value under key `k`. -/
def look {α : Type} (l : List (Nat × α)) (k : Nat) : Option α :=
  match l with
  | [] => none
  | (a, v) :: r => if a = k then some v else look r k

/-- The list with `v` under `k`, keys kept rising. -/
def ins {α : Type} (l : List (Nat × α)) (k : Nat) (v : α) : List (Nat × α) :=
  match l with
  | [] => [(k, v)]
  | (a, w) :: r => if k < a then (k, v) :: (a, w) :: r else if k = a then (k, v) :: r else (a, w) :: ins r k v

/-- The list without key `k`. -/
def del {α : Type} (l : List (Nat × α)) (k : Nat) : List (Nat × α) := l.filter (fun p => p.1 ≠ k)

/-- Sorted insertion without repeats. -/
def insSet (x : Nat) : List Nat → List Nat
  | [] => [x]
  | y :: r => if x < y then x :: y :: r else if x = y then y :: r else y :: insSet x r

/-! ### Register fields -/

/-- The value of field `f`: its entry, or its reset value. -/
def State.rd (s : State) (f : Fld) : Nat := (look s.fields f.key).getD f.rst

/-- Stores `v` in field `f`; the reset value removes the entry. -/
def State.wr (s : State) (f : Fld) (v : Nat) : State :=
  { s with fields := if v % 2 ^ f.w = f.rst then del s.fields f.key else ins s.fields f.key (v % 2 ^ f.w) }

/-- The field read as a flag. -/
def State.on (s : State) (f : Fld) : Bool := s.rd f = 1

/-- The field as a signed number. -/
def State.rdS (s : State) (f : Fld) : Int := sx f.w (s.rd f)

/-- Stores a signed number. -/
def State.wrS (s : State) (f : Fld) (i : Int) : State := s.wr f (toU f.w i)

/-- Adds 1, modulo the field's width. -/
def State.bump (s : State) (f : Fld) : State := s.wr f (s.rd f + 1)

/-- Adds `n`, modulo the field's width. -/
def State.addF (s : State) (f : Fld) (n : Nat) : State := s.wr f (s.rd f + n)

/-- Adds `n`, saturating. -/
def State.addSat (s : State) (f : Fld) (n : Nat) : State := s.wr f (min (s.rd f + n) (2 ^ f.w - 1))

/-- Sets the bits of `v` in the field. -/
def State.orF (s : State) (f : Fld) (v : Nat) : State := s.wr f (s.rd f ||| v)

/-- Clears the bits of `v` in the field. -/
def State.clrF (s : State) (f : Fld) (v : Nat) : State := s.wr f (s.rd f &&& (v ^^^ (2 ^ f.w - 1)))

/-- What a write of `v` stores in an RW field with limits. -/
def Fld.clamp (f : Fld) (v : Nat) : Nat := if v < f.mn then f.mn else if f.mx ≠ 0 ∧ f.mx < v then f.mx else v

/-- Bit of channel `c` in an array of 32-bit channel words. -/
def State.chBit (s : State) (f : Nat → Fld) (c : Nat) : Bool := bit (s.rd (f (c / 32))) (c % 32)

/-- All channels whose bit is 1 in an array of channel words (R144, R192, R235). -/
def State.chSet (s : State) (f : Nat → Fld) : List Nat := (List.range 1024).filter (s.chBit f)

/-- A draw of a free value: its index, and the state that has used it. DESIGN CHOICE (log entry 3): safe. -/
def State.draw (s : State) (n : Nat) : Nat × State := (s.free, { s with free := s.free + n })

/-! ### Byte strings and memory -/

/-- `n` bytes of `v`, little-endian. -/
def le (n v : Nat) : List Byte := (List.range n).map fun i => BitVec.ofNat 8 (v / 256 ^ i)

/-- `n` bytes of a signed number. -/
def leI (n : Nat) (i : Int) : List Byte := le n (toU (8 * n) i)

/-- The number whose little-endian bytes are given. -/
def unle : List Byte → Nat
  | [] => 0
  | b :: r => b.toNat + 256 * unle r

/-- `n` bytes of the list from `i`, zeros beyond its end. -/
def sliceB (l : List Byte) (i n : Nat) : List Byte :=
  let r := (l.drop i).take n
  r ++ List.replicate (n - r.length) 0

/-- Bytes `i` to `i + n − 1` as a number. -/
def field (l : List Byte) (i n : Nat) : Nat := unle (sliceB l i n)

/-- The cell at address `a`. -/
def cellAt (l : List Host.Cell) (a : Nat) : Option Byte :=
  match l with
  | [] => none
  | (k, b) :: r => if k = a then some b else cellAt r a

/-- 64-byte words of a tile. -/
def tileWords : Nat := 2 ^ 18

/-- Whether byte address `a` of near memory lies in the words of `f` (R273): its ring word lies fewer than hi − lo words beyond
word lo, counted around the ring. -/
def Fill.has (f : Fill) (a : Nat) : Bool :=
  let tile := a / 2 ^ 24
  let w := a % 2 ^ 24 / 64 * f.n + (tile - f.t0)
  let size := f.n * tileWords
  decide (f.t0 ≤ tile) && decide (tile < f.t0 + f.n) && decide ((w + size - f.lo % size) % size < f.hi - f.lo)

/-- An unlisted byte at `a` is unspecified. -/
def Mem.open_ (m : Mem) (a : Nat) : Bool := m.dflt.isSome || m.fills.any fun f => f.has a

/-- The byte at `a`: what an unlisted byte reads as is 0, or unspecified: before clearing, after a change of the hash masks
(R280), or where a writer has filled it. -/
def Mem.read (m : Mem) (a : Nat) : Byte :=
  match cellAt m.cells a with
  | some b => b
  | none => match m.fills.find? fun f => f.has a with
    | some f => Config.freeByte f.k a
    | none => match m.dflt with
      | none => 0
      | some k => Config.freeByte k a

/-- The cells of `bs` from `a`, without those an unlisted byte stands for; `keep` says where a byte 0 is listed. -/
def newCells (keep : Nat → Bool) (a : Nat) : List Byte → List Host.Cell
  | [] => []
  | b :: r => if b = 0 ∧ keep a = false then newCells keep (a + 1) r else (a, b) :: newCells keep (a + 1) r

/-- Stores `bs` from address `a`. -/
def Mem.write (m : Mem) (a : Nat) (bs : List Byte) : Mem :=
  { m with cells := m.cells.filter (fun c => c.1 < a) ++ newCells m.open_ a bs
      ++ m.cells.filter (fun c => a + bs.length ≤ c.1) }

/-- Stores `n` zeros from address `a`. -/
def Mem.zeros (m : Mem) (a n : Nat) : Mem :=
  if m.dflt.isNone && m.fills.isEmpty then { m with cells := m.cells.filter fun c => !(decide (a ≤ c.1) && decide (c.1 < a + n)) }
  else m.write a (List.replicate n 0)

/-- A writer fills the words of `f` from word `start` on with contents of its own; fills that `f` takes in go. -/
def Mem.fill (m : Mem) (f : Fill) (start : Nat) : Mem :=
  { m with cells := m.cells.filter (fun c => !({ f with lo := start } : Fill).has c.1)
           fills := f :: m.fills.filter fun g => !(decide (g.t0 = f.t0) && decide (g.n = f.n) && decide (g.lo = f.lo) && decide (g.hi ≤ f.hi)) }

/-- `n` bytes from `a`. -/
def Mem.bytes (m : Mem) (a n : Nat) : List Byte := (List.range n).map fun i => m.read (a + i)

/-- A little-endian number of `n` bytes at `a`. -/
def Mem.num (m : Mem) (a n : Nat) : Nat := unle (m.bytes a n)

/-- The canonical form: addresses strictly rising, and no cell equal to what an unlisted byte reads as. -/
def Mem.wf (m : Mem) : Bool :=
  decide (m.cells.Pairwise (fun x y => x.1 < y.1)) && m.cells.all (fun c => decide (c.2 ≠ 0) || m.open_ c.1)

/-- `n` accesses of deep memory: each may activate a row, and an activate refreshes the rows ±1, and with dist2 the rows ±2, with
probability 2^-k (R290); which do is free. DESIGN CHOICE (log entry 127): safe. -/
def State.activates (n : Nat) (s : State) : State :=
  let hits := (List.range n).filter fun i => Config.freeValue (s.free + i) % 2 ^ s.rd DMC_RDP_k = 0
  { s.addF DMC_RDP_CNT_count ((if s.on DMC_RDP_dist2 then 4 else 2) * hits.length) with free := s.free + n }

/-- CRC-32C (Castagnoli) over a byte string (R246). -/
def crc32cByte (c : Nat) : Nat → Nat
  | 0 => c
  | n + 1 => crc32cByte (if c % 2 = 1 then (c / 2) ^^^ 0x82F63B78 else c / 2) n

/-- CRC-32C register after the bytes. -/
def crc32cAcc (c : Nat) : List Byte → Nat
  | [] => c
  | b :: r => crc32cAcc (crc32cByte (c ^^^ b.toNat) 8) r

/-- CRC-32C of a byte string. -/
def crc32c (l : List Byte) : Nat := crc32cAcc 0xFFFFFFFF l ^^^ 0xFFFFFFFF

/-- CRC-16 with polynomial `p`, one byte, most significant bit first. -/
def crc16Byte (p c : Nat) : Nat → Nat
  | 0 => c
  | n + 1 => crc16Byte p (if 0x8000 ≤ c then (2 * c % 0x10000) ^^^ p else 2 * c % 0x10000) n

/-! ### What the build and the mode make of the machine -/

/-- The KMT-512-H2-E. -/
def State.is512 (s : State) : Bool := s.build.variant = 3

/-- An H2 variant. -/
def State.isH2 (s : State) : Bool := s.build.variant ≠ 1

/-- Populated tiles (R9). -/
def State.nTiles (s : State) : Nat := if s.is512 then 2 else 4

/-- Populated channels (R1). -/
def State.nChan (s : State) : Nat := if s.is512 then 512 else 1024

/-- DRAM stacks (R1). -/
def State.nStacks (s : State) : Nat := if s.isH2 then 2 else 4

/-- Pseudo-channels (R278). -/
def State.nPc (s : State) : Nat := 32 * s.nStacks

/-- User bytes of deep memory (R278). -/
def State.deepSize (s : State) : Nat := s.nStacks * 2 ^ 35

/-- The mode in effect (R35). -/
def State.mode (s : State) : Nat := s.rd GLB_STAT_active_mode

/-- A composite mode is in effect (R32). -/
def State.comp (s : State) : Bool := s.on GLB_STAT_comp_active

/-- The mode of a tile: in a composite mode FET0 runs M1 and FET1 M5 or M4 (R32). -/
def State.tileMode (s : State) (tile : Nat) : Nat :=
  if s.comp then (if tile = 0 then 1 else if s.hks.pair then 4 else 5) else s.mode

/-- The mode of a channel's tile. -/
def State.chMode (s : State) (c : Nat) : Nat := s.tileMode (c / 256)

/-- The channel is populated and captured in the mode in effect (R2, R22). -/
def State.captured (s : State) (c : Nat) : Bool := c < s.nChan && (s.mode ≠ 2 || c % 4 = 0)

/-- The acquisition state (R169). -/
def State.acqSt (s : State) : Nat := s.rd ACQ_STAT_state

/-- Acquisition is idle. -/
def State.idle (s : State) : Bool := s.acqSt = 0

/-- Acquisition is armed: Trellis and Hedge evaluate (R141). -/
def State.armed (s : State) : Bool := 2 ≤ s.acqSt && s.acqSt ≤ 5

/-- The core domain runs: not in M0, and ADPLL-C's domain is not gated (R135). -/
def State.coreRun (s : State) : Bool := decide (s.mode ≠ 0) && s.rd (CLK_x_STAT_gated 1) = 0

/-- The sample base in kHz (R109, R114): ADPLL-S's target, or CLK_EXT's declared frequency. -/
def State.sbase (s : State) : Nat := if s.on CLK_STAT_s_src_act then s.rd CLK_EXT_CFG_freq else s.rd (CLK_x_TARGET_freq 0)

/-- One second, one microsecond, one crystal cycle and one nanosecond in F (R5). -/
def secF : Nat := 2048000000000
/-- One microsecond in F. -/
def usF : Nat := 2048000
/-- One crystal cycle in F. -/
def xtalF : Nat := 20480
/-- One nanosecond in F. -/
def nsF : Nat := 2048

/-- A grant of deep memory `wait` after its request, the time that R293 excludes left out: one later than 2 µs is counted. -/
def State.granted (wait : Nat) (s : State) : State :=
  if 2 * usF < wait then (s.addSat DMC_STARVE_count 1).wr DMC_EVT_starve 1 else s

/-- The lands belong to the Kameth's logic: no instruction of the test access port has taken them (R440). -/
def State.lands (s : State) : Bool := s.jtg.drive = 0

/-- The core cycle in F (R67): 2,048 at 1.0 GHz, 4,096 at 0.5 GHz. -/
def State.cnom (s : State) : Nat := if s.rd (CLK_x_TARGET_freq 1) = 500000 then 4096 else 2048

/-! ### Time (R67, R73, R74) -/

/-- The temperature compensation in 2^-40 between two points of the table (R74), at `t16` sixteenths of a degree.
DESIGN CHOICE (log entry 22): unsafe. -/
def tcompSeg (t16 x0 o0 x1 o1 : Int) : Int := 16 * o0 + Int.fdiv (16 * (o1 - o0) * (t16 - 16 * x0)) (16 * (x1 - x0))

/-- The points of the compensation table: temperature in °C and offset in 2^-36. -/
def State.tcPoint (s : State) (i : Nat) : Int × Int := (s.rdS (TMB_TCOMP_temp i), s.rdS (TMB_TCOMP_offset i))

/-- The table is empty: its five registers read 0 (R74). -/
def State.tcEmpty (s : State) : Bool := (List.range 5).all fun i => s.rd (TMB_TCOMP_temp i) = 0 && s.rd (TMB_TCOMP_offset i) = 0

/-- The table is strictly ascending. -/
def State.tcAsc (s : State) : Bool := (List.range 4).all fun i => (s.tcPoint i).1 < (s.tcPoint (i + 1)).1

/-- `TMB_REF_STAT.tcomp_bad` (R74). -/
def State.tcBad (s : State) : Bool := !s.tcEmpty && !s.tcAsc

/-- The compensation at `t16`, walking the points from `i`. -/
def tcompWalk (s : State) (t16 : Int) : Nat → Nat → Int
  | 0, i => 16 * (s.tcPoint i).2
  | n + 1, i =>
    let p := s.tcPoint i
    let q := s.tcPoint (i + 1)
    if t16 < 16 * q.1 then tcompSeg t16 p.1 p.2 q.1 q.2 else tcompWalk s t16 n (i + 1)

/-- The tcomp term in 2^-40 (R74). Before the first reading TMB_TEMP reads 0 °C, and that is the temperature used.
DESIGN CHOICE (log entry 99): unsafe. -/
def State.tcomp (s : State) : Int :=
  if s.tcEmpty || !s.tcAsc then 0 else
  let t16 := s.rdS TMB_TEMP_temp
  let p := s.tcPoint 0
  if t16 ≤ 16 * p.1 then 16 * p.2 else tcompWalk s t16 4 0

/-- The integrated ageing in 2^-40 (R73): `ageAcc` counts 10^-13 per day times F. DESIGN CHOICE (log entry 23): unsafe. -/
def State.ageY (s : State) : Int := Int.fdiv (s.tmb.ageAcc * 2 ^ 40) (10 ^ 13 * 86400 * (secF : Int))

/-- The correction y of R67, in 2^-40; in M0 trim and the loop term are held (R88). -/
def State.y40 (s : State) : Int := s.tmb.trimHeld.getD (s.rdS TMB_TRIM_trim) + s.ageY + s.tcomp + s.tmb.loop

/-- The time and its 40 fractional bits as one number. -/
def State.kt40 (s : State) : Nat := s.tmb.kt * 2 ^ 40 + s.tmb.frac

/-- Moves the machine's time to `t` (in F), integrating the ageing; a time already past changes nothing. KT72 is the low 72 bits
of the time. -/
def State.advance (s : State) (t : Nat) : State :=
  if s.tmb.kt < t then
    { s with tmb := { s.tmb with kt := t, frac := 0,
                                 ageAcc := s.tmb.ageAcc + s.rdS TMB_AGE_RATE_rate * ((t - s.tmb.kt : Nat) : Int) } }
  else s

/-- One cycle of nominal length `c` F added to KT72 (R67, R88): c / (1 + y), kept to 2^-40 F. -/
def State.cycle (s : State) (c : Nat) : State :=
  let d := c * 2 ^ 80 / (2 ^ 40 + s.y40).toNat
  let n := s.kt40 + d
  { s with tmb := { s.tmb with kt := n / 2 ^ 40, frac := n % 2 ^ 40,
                               ageAcc := s.tmb.ageAcc + s.rdS TMB_AGE_RATE_rate * (c : Int) } }

/-! ### The black box (R413, R415) -/

/-- Writes an entry, or counts it as refused while the store is frozen; in M0 and with the rails off its time is kept to
1 ns (R413). -/
def State.bbox (s : State) (code src detail : Nat) : State :=
  if s.on BBX_STAT_frozen then s.addSat BBX_LOST_value 1 else
  let kt := if s.mode = 0 || !s.hks.rails then s.tmb.kt / nsF * nsF else s.tmb.kt
  let e : BEntry := ⟨kt % 2 ^ 72, code % 256, src % 65536, detail % 2 ^ 32⟩
  let l := (e :: s.bbx.live).take 4096
  (({ s with bbx := { s.bbx with live := l } }).wr BBX_STAT_count l.length).wr BBX_HEAD_value ((s.rd BBX_HEAD_value + 1) % 4096)

/-- Event `e` occurs: a bound script becomes pending; with none bound the event starts nothing (R382, R383). -/
def State.raiseEvent (s : State) (e : Nat) : State :=
  if s.on (HKS_EVSCRe_bound e) then s.orF HKS_STAT_pending (2 ^ (e - 1)) else s

/-- Freezes the store with a cause; the first cause stays (R415). -/
def State.bbxFreeze (s : State) (cause : Nat) : State :=
  if s.on BBX_STAT_frozen then s else
  (((s.wr BBX_STAT_frozen 1).wr BBX_STAT_freeze_cause cause).orF BBX_EVT_bits 1).raiseEvent 6

/-! ### Sample grid (R5, R90, R92) -/

/-- Numerator and denominator of one sample period in 2^-40 F: 2,048,000,000 / (phases × f) F, corrected by y. -/
def Anchor.per (a : Anchor) : Nat × Nat := (2048000000 * 2 ^ 80, (if a.m2 then 32 else 8) * a.f * (2 ^ 40 + a.y40).toNat)

/-- Start of the sample at position `p` in 2^-40 F, at the rate of one stretch. -/
def Anchor.start40 (a : Anchor) (p : Nat) : Nat :=
  let (n, d) := a.per
  ((a.kt40 : Int) + ((p : Int) - a.pos) * n / (max d 1 : Nat)).toNat

/-- The position whose interval contains `t` at the rate of one stretch; below 0 before position 0. -/
def Anchor.posOf (a : Anchor) (t : Nat) : Int :=
  let (n, d) := a.per
  let m : Int := ((t + 1) * 2 ^ 40 : Nat) - 1 - (a.kt40 : Int)
  a.pos - 1 + -(Int.fdiv (-((m + 1) * d)) (n : Int))

/-- The present stretch. -/
def Grid.anchor (g : Grid) : Anchor := ⟨g.pos, g.kt40, g.f, g.m2, g.y40⟩

/-- The first of the stretches, newest first, that `ok` accepts, or the oldest. -/
def pickAnchor (ok : Anchor → Bool) (a : Anchor) : List Anchor → Anchor
  | [] => a
  | b :: r => if ok a then a else pickAnchor ok b r

/-- Start of the sample at position `p` in 2^-40 F, at the rate of its own stretch. -/
def Grid.start40 (g : Grid) (p : Nat) : Nat := (pickAnchor (fun a => decide (a.pos ≤ p)) g.anchor g.old).start40 p

/-- Start of the sample at position `p`, rounded down to F (R92). -/
def Grid.start (g : Grid) (p : Nat) : Nat := g.start40 p / 2 ^ 40

/-- The position whose interval contains `t` (R92); below 0 before position 0. -/
def Grid.posI (g : Grid) (t : Nat) : Int :=
  (pickAnchor (fun a => decide (a.kt40 < (t + 1) * 2 ^ 40)) g.anchor g.old).posOf t

/-- The position whose interval contains `t`, or the first. -/
def Grid.posOf (g : Grid) (t : Nat) : Nat := (g.posI t).toNat

/-- Samples of one sample-base period: 8, or 32 in M2. -/
def Grid.phases (g : Grid) : Nat := if g.m2 then 32 else 8

/-- The frequency correction of the sample base in use: the crystal model, or the length measured on CLK_EXT (R67, R115). -/
def State.gridY (s : State) : Int := if s.on CLK_STAT_s_src_act then s.clk.extY else s.y40

/-- The grid started afresh at position `p` at KT `kt` (2^-40 F), with the present frequency, mode and correction.
DESIGN CHOICE (log entry 36): unsafe. -/
def State.regrid (s : State) (p kt40 : Nat) : State :=
  { s with grid := { s.grid with pos := p, kt40 := kt40, f := s.sbase, m2 := s.mode = 2, y40 := s.gridY, old := [] } }

/-- The position of the sample that contains the present instant. -/
def State.nowPos (s : State) : Nat := s.grid.posOf s.tmb.kt

/-- Takes up a changed correction or number of phases from the present sample on (R75, R90): positions and times do not step, and
the samples before it keep their times. -/
def State.retime (s : State) : State :=
  if s.grid.run && (decide (s.grid.f ≠ s.sbase) || decide (s.grid.y40 ≠ s.gridY) || decide (s.grid.m2 ≠ decide (s.mode = 2))) then
    let s1 := s.regrid s.nowPos (s.grid.start40 s.nowPos)
    { s1 with grid := { s1.grid with old := s.grid.anchor :: s.grid.old } }
  else s

end Sys2Proof.Machine
end

