-- ==== Sys2Proof/Machine/Crypto.lean ====
section
/-! DEFINITION. The hash and the signature that an image is checked with (R377 to R379): SHA-384 of FIPS 180-4, and ECDSA verification
on curve P-384 of FIPS 186-5. -/

namespace Sys2Proof.Machine

/-! ### SHA-384 -/

/-- A big-endian number. -/
def beNum (l : List Byte) : Nat := l.foldl (fun a b => 256 * a + b.toNat) 0

/-- The first half of the round constants: fractional parts of the cube roots of the first 80 primes. -/
def shaK0 : List (BitVec 64) :=
  [0x428a2f98d728ae22, 0x7137449123ef65cd, 0xb5c0fbcfec4d3b2f, 0xe9b5dba58189dbbc, 0x3956c25bf348b538,
   0x59f111f1b605d019, 0x923f82a4af194f9b, 0xab1c5ed5da6d8118, 0xd807aa98a3030242, 0x12835b0145706fbe,
   0x243185be4ee4b28c, 0x550c7dc3d5ffb4e2, 0x72be5d74f27b896f, 0x80deb1fe3b1696b1, 0x9bdc06a725c71235,
   0xc19bf174cf692694, 0xe49b69c19ef14ad2, 0xefbe4786384f25e3, 0x0fc19dc68b8cd5b5, 0x240ca1cc77ac9c65,
   0x2de92c6f592b0275, 0x4a7484aa6ea6e483, 0x5cb0a9dcbd41fbd4, 0x76f988da831153b5, 0x983e5152ee66dfab,
   0xa831c66d2db43210, 0xb00327c898fb213f, 0xbf597fc7beef0ee4, 0xc6e00bf33da88fc2, 0xd5a79147930aa725,
   0x06ca6351e003826f, 0x142929670a0e6e70, 0x27b70a8546d22ffc, 0x2e1b21385c26c926, 0x4d2c6dfc5ac42aed,
   0x53380d139d95b3df, 0x650a73548baf63de, 0x766a0abb3c77b2a8, 0x81c2c92e47edaee6, 0x92722c851482353b]

/-- The second half. -/
def shaK1 : List (BitVec 64) :=
  [0xa2bfe8a14cf10364, 0xa81a664bbc423001, 0xc24b8b70d0f89791, 0xc76c51a30654be30, 0xd192e819d6ef5218,
   0xd69906245565a910, 0xf40e35855771202a, 0x106aa07032bbd1b8, 0x19a4c116b8d2d0c8, 0x1e376c085141ab53,
   0x2748774cdf8eeb99, 0x34b0bcb5e19b48a8, 0x391c0cb3c5c95a63, 0x4ed8aa4ae3418acb, 0x5b9cca4f7763e373,
   0x682e6ff3d6b2b8a3, 0x748f82ee5defb2fc, 0x78a5636f43172f60, 0x84c87814a1f0ab72, 0x8cc702081a6439ec,
   0x90befffa23631e28, 0xa4506cebde82bde9, 0xbef9a3f7b2c67915, 0xc67178f2e372532b, 0xca273eceea26619c,
   0xd186b8c721c0c207, 0xeada7dd6cde0eb1e, 0xf57d4f7fee6ed178, 0x06f067aa72176fba, 0x0a637dc5a2c898a6,
   0x113f9804bef90dae, 0x1b710b35131c471b, 0x28db77f523047d84, 0x32caab7b40c72493, 0x3c9ebe0a15c9bebc,
   0x431d67c49c100d4c, 0x4cc5d4becb3e42b6, 0x597f299cfc657e2a, 0x5fcb6fab3ad6faec, 0x6c44198c4a475817]

/-- The working variables a to h. -/
abbrev Sha := BitVec 64 × BitVec 64 × BitVec 64 × BitVec 64 × BitVec 64 × BitVec 64 × BitVec 64 × BitVec 64

/-- The initial hash value of SHA-384: fractional parts of the square roots of the ninth to sixteenth primes. -/
def shaH0 : Sha :=
  (0xcbbb9d5dc1059ed8, 0x629a292a367cd507, 0x9159015a3070dd17, 0x152fecd8f70e5939,
   0x67332667ffc00b31, 0x8eb44a8768581511, 0xdb0c2e0d64f98fa7, 0x47b5481dbefa4fa4)

/-- The message schedule, newest word first. -/
def shaSchedule : Nat → List (BitVec 64) → List (BitVec 64)
  | 0, l => l
  | n + 1, l =>
    let x := l.getD 14 0
    let y := l.getD 1 0
    let s0 := x.rotateRight 1 ^^^ x.rotateRight 8 ^^^ x >>> 7
    let s1 := y.rotateRight 19 ^^^ y.rotateRight 61 ^^^ y >>> 6
    shaSchedule n ((l.getD 15 0 + s0 + l.getD 6 0 + s1) :: l)

/-- One round with its constant and word. -/
def shaRound (v : Sha) (kw : BitVec 64 × BitVec 64) : Sha :=
  let (a, b, c, d, e, f, g, h) := v
  let t1 := h + (e.rotateRight 14 ^^^ e.rotateRight 18 ^^^ e.rotateRight 41) + ((e &&& f) ^^^ (~~~e &&& g)) + kw.1 + kw.2
  let t2 := (a.rotateRight 28 ^^^ a.rotateRight 34 ^^^ a.rotateRight 39) + ((a &&& b) ^^^ (a &&& c) ^^^ (b &&& c))
  (t1 + t2, a, b, c, d + t1, e, f, g)

/-- One block of 128 bytes. -/
def shaBlock (v : Sha) (l : List Byte) : Sha :=
  let w := (shaSchedule 64 ((List.range 16).map fun i => BitVec.ofNat 64 (beNum (sliceB l (8 * (15 - i)) 8)))).reverse
  let (a, b, c, d, e, f, g, h) := v
  let (a1, b1, c1, d1, e1, f1, g1, h1) := ((shaK0 ++ shaK1).zip w).foldl shaRound v
  (a + a1, b + b1, c + c1, d + d1, e + e1, f + f1, g + g1, h + h1)

/-- The message padded to whole blocks: a bit 1, zeros, and its length in bits. -/
def shaPad (l : List Byte) : List Byte :=
  l ++ 128 :: List.replicate ((239 - l.length % 128) % 128) 0 ++ (le 16 (8 * l.length)).reverse

/-- Blocks in order. -/
def shaBlocks : Nat → List Byte → Sha → Sha
  | 0, _, v => v
  | n + 1, l, v => shaBlocks n (l.drop 128) (shaBlock v (l.take 128))

/-- The SHA-384 digest of a byte string as an unsigned number. -/
def sha384 (l : List Byte) : Nat :=
  let p := shaPad l
  let (a, b, c, d, e, f, _, _) := shaBlocks (p.length / 128) p shaH0
  [a, b, c, d, e, f].foldl (fun n x => 2 ^ 64 * n + x.toNat) 0

/-! ### ECDSA on P-384 -/

/-- The prime of the field. -/
def p384 : Nat := 2 ^ 384 - 2 ^ 128 - 2 ^ 96 + 2 ^ 32 - 1

/-- The constant b of y² = x³ − 3x + b. -/
def p384B : Nat := 0xb3312fa7e23ee7e4988e056be3f82d19181d9c6efe8141120314088f5013875ac656398d8a2ed19d2a85c8edd3ec2aef

/-- The order of the base point. -/
def p384N : Nat := 0xffffffffffffffffffffffffffffffffffffffffffffffffc7634d81f4372ddf581a0db248b0a77aecec196accc52973

/-- A point in Jacobian coordinates (x/z², y/z³); z = 0 is the point at infinity. -/
abbrev Jac := Nat × Nat × Nat

/-- The base point. -/
def p384G : Jac :=
  (0xaa87ca22be8b05378eb1c71ef320ad746e1d3b628ba79b9859f741e082542a385502f25dbf55296c3a545e3872760ab7,
   0x3617de4a96262c6f5d9e98bf9292dc29f8f41dbd289a147ce9da3113b5f0b8c00a60b1ce1d7e819d7a431d7c90ea0e5f, 1)

/-- Difference in the field. -/
def fsub (a b : Nat) : Nat := (a + p384 - b % p384) % p384

/-- Product in the field. -/
def fmul (a b : Nat) : Nat := a * b % p384

/-- Twice a point. -/
def jacDbl (q : Jac) : Jac :=
  let (x, y, z) := q
  let d := fmul z z
  let g := fmul y y
  let b := fmul x g
  let a := fmul 3 (fmul (fsub x d) (x + d))
  let x3 := fsub (fmul a a) (8 * b)
  (x3, fsub (fmul a (fsub (4 * b) x3)) (8 * fmul g g), fmul 2 (fmul y z))

/-- The sum of two points. -/
def jacAdd (q r : Jac) : Jac :=
  let (x1, y1, z1) := q
  let (x2, y2, z2) := r
  if z1 = 0 then r else if z2 = 0 then q else
  let u1 := fmul x1 (fmul z2 z2)
  let s1 := fmul y1 (fmul z2 (fmul z2 z2))
  let h := fsub (fmul x2 (fmul z1 z1)) u1
  let k := fsub (fmul y2 (fmul z1 (fmul z1 z1))) s1
  if h = 0 then (if k = 0 then jacDbl q else (1, 1, 0)) else
  let h2 := fmul h h
  let h3 := fmul h h2
  let v := fmul u1 h2
  let x3 := fsub (fsub (fmul k k) h3) (2 * v)
  (x3, fsub (fmul k (fsub v x3)) (fmul s1 h3), fmul h (fmul z1 z2))

/-- `k` times a point, over the lowest `n` bits of `k`, highest first. -/
def jacMul (k : Nat) (q : Jac) : Nat → Jac → Jac
  | 0, r => r
  | n + 1, r => jacMul k q n (if bit k n then jacAdd (jacDbl r) q else jacDbl r)

/-- `b` to the power of the lowest `n` bits of `e`, modulo `m`, highest bit first. -/
def powMod (b e m : Nat) : Nat → Nat → Nat
  | 0, r => r
  | n + 1, r => powMod b e m n (if bit e n then r * r % m * b % m else r * r % m)

/-- The key is an uncompressed point of the curve. -/
def p384Key (pub : List Byte) : Bool :=
  let x := beNum (sliceB pub 1 48)
  let y := beNum (sliceB pub 49 48)
  decide (pub.length = 97) && pub.getD 0 0 = 4 && decide (x < p384) && decide (y < p384)
    && decide (fmul y y = (fsub (x * x * x) (3 * x) + p384B) % p384)

/-- The signature r, s verifies for a digest under a key (R379). -/
def ecdsaVerify (pub : List Byte) (e : Nat) (sig : List Byte) : Bool :=
  let r := beNum (sliceB sig 0 48)
  let s := beNum (sliceB sig 48 48)
  if !p384Key pub || decide (r = 0) || decide (p384N ≤ r) || decide (s = 0) || decide (p384N ≤ s) then false else
  let w := powMod s (p384N - 2) p384N 384 1
  let q : Jac := (beNum (sliceB pub 1 48), beNum (sliceB pub 49 48), 1)
  let (x, _, z) := jacAdd (jacMul (e * w % p384N) p384G 384 (1, 1, 0)) (jacMul (r * w % p384N) q 384 (1, 1, 0))
  let zz := fmul z z
  decide (z ≠ 0) && (decide (x = fmul r zz) || (decide (r + p384N < p384) && decide (x = fmul (r + p384N) zz)))

end Sys2Proof.Machine
end

