-- ==== Sys2Proof/Machine/Near.lean ====
section
/-! DEFINITION. Near memory and its writers (R13, R14, R33, R272, R273): the owner of each tile in the mode in effect, the striping
of a ring over its owner's tiles, and what the writers have left in it. -/

namespace Sys2Proof.Machine

/-- Who writes a tile: the capture writer or edge-record writer of a front-end tile, the timestamp queues, the interval unit, the
calibration unit, or nobody. -/
inductive Owner where
  | nobody
  | capture (fet : Nat)
  | edges (fet : Nat)
  | queues
  | interval
  | calibration
  deriving DecidableEq, Repr

/-- Near-memory tiles given to each front-end tile outside composite modes (R13, R14). -/
def State.fetTiles (s : State) : Nat := if s.is512 then 8 else 4

/-- The writing owner of a tile in the mode in effect (R13, R14, R33). -/
def State.owner (s : State) (tile : Nat) : Owner :=
  if s.comp then
    if tile < 8 then .capture 0 else if s.hks.pair then .edges 1 else if tile = 8 then .queues else .interval
  else match s.mode with
  | 1 | 2 | 3 | 6 => .capture (tile / s.fetTiles)
  | 4 => .edges (tile / s.fetTiles)
  | 5 => if tile < (if s.is512 then 1 else 2) then .queues else .interval
  | 7 => if tile < 4 then .calibration else .nobody
  | _ => .nobody

/-- The tiles of an owner, ascending. -/
def State.tilesOf (s : State) (o : Owner) : List Nat := (List.range 16).filter fun k => s.owner k = o

/-- First byte of word `i` of a ring striped over `n` tiles from tile `t0` (R273). -/
def ringAddr (t0 n i : Nat) : Nat := (t0 + i % n) * 2 ^ 24 + i / n % tileWords * 64

/-! ### Errors (R275, R276, R297) -/

/-- A corrected word of near memory or the scratchpad (R275). -/
def State.nearCorrected (s : State) : State := (s.addSat NMC_CE_CNT_count 1).wr NMC_EVT_ce 1

/-- An uncorrectable near-memory word at byte address `a`: its access becomes poisoned (R276). -/
def State.nearUncorr (s : State) (a : Nat) : State :=
  let tile := a / 2 ^ 24
  let w := a % 2 ^ 24 / 64
  let s1 := (((s.addSat NMC_UE_CNT_count 1).wr NMC_EVT_ue 1).wr NMC_ERR_ADDR_valid 1).wr NMC_ERR_ADDR_ue 1
  let s2 := (((s1.wr NMC_ERR_ADDR_scratch 0).wr NMC_ERR_ADDR_tile tile).wr NMC_ERR_ADDR_word w).bbox 0x40 tile w
  { s2 with poison := insSet (a / 64 * 64) s2.poison }

/-- An uncorrectable scratchpad word at byte offset `a` (R276). -/
def State.scrUncorr (s : State) (a : Nat) : State :=
  let s1 := (((s.addSat NMC_UE_CNT_count 1).wr NMC_EVT_ue 1).wr NMC_ERR_ADDR_valid 1).wr NMC_ERR_ADDR_ue 1
  (((s1.wr NMC_ERR_ADDR_scratch 1).wr NMC_ERR_ADDR_tile 0).wr NMC_ERR_ADDR_word (a / 4)).bbox 0x40 0x10 (a / 4)

/-- Failing cells of the word at `w` of a memory. -/
def State.cellsOf (s : State) (target w : Nat) : Nat := (s.cells.filter fun c => c.1 = target && c.2.1 = w).length

/-- Bytes of a word with check bits of its own (R275). -/
def eccBytes (target : Nat) : Nat := if target = 2 then 4 else 8

/-- Words of a memory that a read of [a, a + n) touches, with failing cells. -/
def State.cellWords (s : State) (target a n : Nat) : List Nat :=
  (s.cells.filter fun c => c.1 = target && decide (a < c.2.1 + eccBytes target) && decide (c.2.1 < a + n)).foldl
    (fun l c => insSet c.2.1 l) []

/-- Reading [a, a + n): a word with one failing cell is corrected, one with two is not (R297). DESIGN CHOICE (log entry 56): unsafe. -/
def State.cellRead (s : State) (target a n : Nat) : State :=
  if s.cells.isEmpty then s else
  (s.cellWords target a n).foldl (fun s w =>
    if s.cellsOf target w = 1 then s.nearCorrected else if target = 2 then s.scrUncorr w else s.nearUncorr w) s

/-- A word of the scratchpad in [a, a + n) cannot be corrected. -/
def State.scrBad (s : State) (a n : Nat) : Bool := (s.cellWords 2 a n).any fun w => decide (2 ≤ s.cellsOf 2 w)

/-! ### Rings -/

/-- Ring words of one sample-base period: 256 bytes for each front-end tile (R272, R273). -/
def periodWords : Nat := 4

/-- A writer stores words `start` to `hi` − 1 of the ring of `n` tiles from `t0`; a run that goes on extends its fill. -/
def State.ringPut (k t0 n start hi : Nat) (s : State) : State :=
  if n = 0 ∨ hi ≤ start then s else
  let a := max start (hi - n * tileWords)
  let f : Fill := match s.near.fills.find? (fun g => decide (g.t0 < t0 + n) && decide (t0 < g.t0 + g.n)) with
    | some g => if g.t0 = t0 ∧ g.n = n ∧ g.hi = a ∧ hi - g.lo ≤ n * tileWords then { g with hi := hi } else ⟨t0, n, a, hi, k⟩
    | none => ⟨t0, n, a, hi, k⟩
  { s with near := s.near.fill f a, poison := s.poison.filter fun p => !({ f with lo := a } : Fill).has p }

/-- The words that owner `o` may have written since the last time this was asked. The capture writers of M1, M2 and M6 write
words 4p to 4p + 3 of their rings at period p; of every other writer the spec does not say which words it has reached, and any
word of its tiles may have changed. DESIGN CHOICE (log entry 39): unsafe. -/
def State.ownerWrites (k : Nat) (s : State) (o : Owner) : State :=
  let l := s.tilesOf o
  let t0 := l.headD 0
  let stored := s.armed && s.grid.run && s.acq.gapFrom.isNone
  match o with
  | .capture f =>
    if !stored then s
    else if s.tileMode f = 3 then s.ringPut k t0 l.length 0 (l.length * tileWords)
    else s.ringPut k t0 l.length (periodWords * s.acq.ringPos) (periodWords * (s.nowPos / s.grid.phases))
  | .edges _ | .interval => if s.armed then s.ringPut k t0 l.length 0 (l.length * tileWords) else s
  | .calibration => if s.task.isSome then s.ringPut k t0 l.length 0 (l.length * tileWords) else s
  | .queues | .nobody => s

/-- The rings are brought up to the present instant. -/
def State.nearSync (s : State) : State :=
  if !s.armed && s.task.isNone then s else
  let s1 : State := [Owner.capture 0, .capture 1, .capture 2, .capture 3, .edges 0, .edges 1, .edges 2, .edges 3, .interval, .calibration].foldl
    (State.ownerWrites s.free) s
  { s1 with free := s.free + 1, acq := { s1.acq with ringPos := s.nowPos / s.grid.phases } }

/-- Ring words of the 64-byte access at `x` in the ring of `n` tiles from `t0` that periods [a, b) fill. -/
def ringWords (t0 n x a b : Nat) : List Nat :=
  let size := n * tileWords
  let k := x % 2 ^ 24 / 64 * n + (x / 2 ^ 24 - t0)
  let first := periodWords * a + (k + size - periodWords * a % size) % size
  (List.range ((periodWords * b + size - first) / size)).map (first + size * ·)

/-- Word `i` of the ring of `n` tiles from `t0` stands in it as its writer has filled it. -/
def State.ringHolds (s : State) (t0 n i : Nat) : Bool :=
  s.near.fills.any fun g => decide (g.t0 = t0) && decide (g.n = n) && decide (g.lo ≤ i) && decide (i < g.hi)

/-- Words of periods [a, b) of the ring of front-end tile `f` that cannot be corrected: poisoned, or with two failing cells. -/
def State.ringBad (s : State) (f a b : Nat) : List Nat :=
  if s.poison.isEmpty && s.cells.isEmpty then [] else
  let l := s.tilesOf (.capture f)
  let t0 := l.headD 0
  let mine := fun x => decide (t0 ≤ x / 2 ^ 24) && decide (x / 2 ^ 24 < t0 + l.length)
  let p := (s.poison.filter mine).flatMap fun x => (ringWords t0 l.length x a b).filter (s.ringHolds t0 l.length)
  let c := ((s.cellWords 0 0 (2 ^ 28)).filter fun w => mine w && decide (2 ≤ s.cellsOf 0 w)).flatMap fun w => ringWords t0 l.length (w / 64 * 64) a b
  (p ++ c).foldl (fun l i => insSet i l) []

/-- The drain reads periods [a, b) of the ring of front-end tile `f`: what its failing cells make it count. -/
def State.ringMeet (s : State) (f a b : Nat) : State :=
  let l := s.tilesOf (.capture f)
  let t0 := l.headD 0
  (s.cellWords 0 (t0 * 2 ^ 24) (l.length * 2 ^ 24)).foldl (fun s w =>
    (ringWords t0 l.length (w / 64 * 64) a b).foldl (fun s _ => if s.cellsOf 0 w = 1 then s.nearCorrected else s.nearUncorr w) s) s

/-- Words of an owner's tiles with failing cells, or poisoned: the word, and whether it cannot be corrected. -/
def State.ownerErrs (s : State) (o : Owner) : List (Nat × Bool) :=
  let l := s.tilesOf o
  ((s.poison.filter fun x => l.contains (x / 2 ^ 24)).map fun x => (x, true))
    ++ ((s.cellWords 0 0 (2 ^ 28)).filter fun w => l.contains (w / 2 ^ 24)).map fun w => (w, decide (2 ≤ s.cellsOf 0 w))

/-- Some word of the samples [a, b) of a channel cannot be corrected (R276). In M4 the spec does not say which words hold its edges:
a word of the ring that cannot be corrected may be one of them. DESIGN CHOICE (log entry 128): safe. -/
def State.chBad (s : State) (c a b : Nat) : Bool :=
  if s.poison.isEmpty && s.cells.isEmpty then false
  else if s.mode = 4 then
    (s.ownerErrs (.edges (c / 256))).any (·.2) && decide (Config.freeByte s.acq.freeK (2 ^ 64 + 1024 * a + c) % 2 = 1)
  else if !(s.mode = 1 || s.mode = 2 || s.mode = 6) then false
  else (s.ringBad (c / 256) (a / s.grid.phases) ((b - 1) / s.grid.phases + 1)).any fun i => i % periodWords = c % 256 / 64

/-- Units of 64 KiB in the ring of a front-end tile (R13, R14). -/
def State.ringCap (s : State) : Nat := if s.is512 then 2048 else 1024

/-- NMC_RINGn takes its present value: the highest fill since arm never falls, and the fill lies within it. The spec gives no equation
for either: free values. DESIGN CHOICE (log entry 130): safe. -/
def State.ringNow (n : Nat) (s : State) : State :=
  if s.nTiles ≤ n ∨ s.acqSt < 2 then s else
  let (k, s1) := s.draw 2
  let m := max (s.rd (NMC_RINGn_max n)) (Config.freeValue k % (s.ringCap + 1))
  (s1.wr (NMC_RINGn_max n) m).wr (NMC_RINGn_fill n) (Config.freeValue (k + 1) % (m + 1))

/-- The ring of the tile has been full (R186). -/
def State.ringFull (n : Nat) (s : State) : State := (s.wr (NMC_RINGn_max n) s.ringCap).wr (NMC_RINGn_fill n) s.ringCap

/-- The rings have been drained: the highest fill keeps its last value (R301). -/
def State.ringsEmpty (s : State) : State :=
  (List.range s.nTiles).foldl (fun s n => (State.ringNow n s).wr (NMC_RINGn_fill n) 0) s

/-- At arm the fills start again. -/
def State.ringsArm (s : State) : State :=
  (List.range 4).foldl (fun s n => (s.wr (NMC_RINGn_max n) 0).wr (NMC_RINGn_fill n) 0) s

/-- The capture writers go on from the present instant. -/
def State.ringStart (s : State) : State := { s with acq := { s.acq with ringPos := s.nowPos / s.grid.phases } }

end Sys2Proof.Machine
end

