-- ==== Sys2Proof/Machine/Records.lean ====
section
/-! DEFINITION. Records (R204 to R225): their bytes, the writer of the capture region, and the queue of LEAD records. -/

namespace Sys2Proof.Machine

/-- Length of a record in 64-byte units (R204). -/
def Rec.units (r : Rec) : Nat := cdiv (16 + r.body.length) 64

/-- The bytes of a record with its sequence number: common header (R205), body, zeros to a whole unit. -/
def recBytes (unit seq : Nat) (r : Rec) : List Byte :=
  le 1 r.typ ++ le 1 r.flags ++ le 2 r.units ++ le 2 (unit % 4096 + 4096 * r.mode) ++ le 9 r.kt ++ le 1 seq ++ r.body
    ++ List.replicate (64 * r.units - (16 + r.body.length)) 0

/-- Segment number of records that name no segment (R210). -/
def noSeg : Nat := 0xFFFFFFFF

/-- The open segment's index, or none. -/
def State.segNo (s : State) : Nat := match s.acq.seg with
  | some g => g.idx
  | none => noSeg

/-- Common flags (R206): SUSPECT, COARSE, LEAD, FINAL. -/
def flags (sus coarse lead final : Bool) : Nat := b2n sus + 2 * b2n coarse + 4 * b2n lead + 8 * b2n final

/-- A CLOCK_SUSPECT interval is open (R131). -/
def State.suspect (s : State) : Bool :=
  s.clk.s.suspect.isSome || s.clk.c.suspect.isSome || s.clk.m.suspect.isSome || s.clk.extSuspect.isSome
    || !s.clk.dllSuspect.isEmpty

/-- Some instant from `a` to `b` lies in a CLOCK_SUSPECT interval (R131, R206). DEDUCED (log entry 41): unsafe. -/
def State.susTime (s : State) (a b : Nat) : Bool :=
  s.clk.susLog.any fun e => decide (e.2.1 ≤ b) && (match e.2.2 with
    | some u => decide (a < u)
    | none => true)

/-- The mode a record of the whole part carries. -/
def State.recMode (s : State) : Nat := s.mode

/-- The mode that records of a channel carry: that of its half in a composite mode (R34, R205). -/
def State.recModeOf (s : State) (ch : Nat) : Nat := if ch < 1024 then s.chMode ch else s.mode

/-- The mode of a MARK record: THRESH_DRIFT, OVERDRIVE and SPARE_LANE describe one channel; CLOCK_SUSPECT and CLOCK_RESTORED of a tile
DLL (x = 3) describe the channels of tile y (R34, R137, R221). -/
def State.markMode (s : State) (kind ch x y : Nat) : Nat :=
  if kind = 6 ∨ kind = 7 ∨ kind = 10 then s.recModeOf ch else if (kind = 2 ∨ kind = 3) ∧ x = 3 then s.tileMode y else s.recMode

/-- A MARK record (R221). -/
def State.markRec (s : State) (kt kind code ch x y n detail seg : Nat) (coarse : Bool) : Rec :=
  ⟨0x09, flags (s.susTime kt kt) coarse false true, s.markMode kind ch x y, kt,
    le 1 kind ++ le 1 code ++ le 2 ch ++ le 1 x ++ le 1 y ++ le 2 n ++ le 8 detail ++ le 4 seg⟩

/-- A GAP record (R220). -/
def State.gapRec (s : State) (kt ktEnd cause tiles seg lost pos : Nat) (coarse : Bool) : Rec :=
  ⟨0x08, flags (s.susTime kt ktEnd) coarse false true, s.recMode, kt,
    le 9 ktEnd ++ le 1 cause ++ le 1 tiles ++ le 1 0 ++ le 4 seg ++ le 8 lost ++ le 8 pos⟩

/-- A MASK_VIOLATION record (R222), of one channel. -/
def State.violRec (s : State) (kt rule kind ch : Nat) (o : Int) (ref actions seg cnt : Nat) (coarse : Bool) : Rec :=
  ⟨0x0A, flags (s.susTime kt kt) coarse false true, s.recModeOf ch, kt,
    le 1 rule ++ le 1 kind ++ le 2 ch ++ leI 4 o ++ le 9 ref ++ le 1 actions ++ le 2 0 ++ le 4 seg ++ le 4 cnt⟩

/-- A WAKE record (R223). -/
def wakeRec (kt ch cls mode entered : Nat) (latched : List Byte) : Rec :=
  ⟨0x0D, flags false true true true, 0, kt,
    le 2 ch ++ le 1 cls ++ le 1 mode ++ le 4 0 ++ le 9 entered ++ le 31 0 ++ latched⟩

/-- One CALIBRATION entry: channel, code, a, b, c (R224). -/
def calEntry (e : Nat × Nat × Int × Int × Int) : List Byte :=
  le 2 e.1 ++ le 1 e.2.1 ++ le 1 0 ++ leI 4 e.2.2.1 ++ leI 4 e.2.2.2.1 ++ leI 4 e.2.2.2.2

/-- A CALIBRATION record (R224), whose span reaches to the present instant; `dur` and `wait` in µs. -/
def State.calRec (s : State) (kt task status dur wait why : Nat) (es : List (Nat × Nat × Int × Int × Int)) : Rec :=
  ⟨0x0E, flags (s.susTime kt s.tmb.kt) false false true, s.recMode, kt,
    le 1 task ++ le 1 status ++ le 2 es.length ++ le 4 dur ++ le 4 wait ++ le 1 why ++ le 35 0
      ++ es.flatMap calEntry⟩

/-! ### The capture region -/

/-- Byte address of 64-byte unit `u` of segment place `p` (R175). -/
def State.capAddr (s : State) (place u : Nat) : Nat :=
  (s.rd ACQ_REGION_BASE_value % 2 ^ 21 + place * s.rd ACQ_SEG_size) * 65536 + 64 * u

/-- Stores bytes in deep memory; a 64-byte access stored whole is no longer poisoned (R283), and its activates may refresh
neighbour rows (R290). -/
def State.deepPut (s : State) (a : Nat) (bs : List Byte) : State :=
  let s1 := s.activates (cdiv (a % 64 + bs.length) 64)
  { s1 with deep := s1.deep.write a bs,
            dpoison := s1.dpoison.filter (fun p => ¬(a ≤ p ∧ p + 64 ≤ a + bs.length)) }

/-- Stores bytes and `z` zeros after them in deep memory. -/
def State.deepPutZ (s : State) (a : Nat) (bs : List Byte) (z : Nat) : State :=
  if z = 0 then s.deepPut a bs else
  let s1 := (s.deepPut a bs).activates (cdiv z 64)
  { s1 with deep := s1.deep.zeros (a + bs.length) z,
            dpoison := s1.dpoison.filter fun p => ¬(a + bs.length ≤ p ∧ p + 64 ≤ a + bs.length + z) }

/-- The header of a PAD record of `n` units (R225). -/
def State.padHead (s : State) (seq n : Nat) : List Byte :=
  le 1 0x0F ++ le 1 8 ++ le 2 n ++ le 2 (s.rd GRF_UNIT_ID_id % 4096 + 4096 * s.recMode) ++ le 9 0 ++ le 1 seq

/-- Stores a PAD record of `n` units with a sequence number at address `a`. -/
def State.deepPad (s : State) (a seq n : Nat) : State := s.deepPutZ a (s.padHead seq n) (64 * n - 16)

/-- Stores what a write to the capture region holds. -/
def State.capWrite (s : State) (w : CapW) : State :=
  let s1 := s.deepPutZ w.a w.bs w.z
  if w.bad.isEmpty then s1 else { s1 with dpoison := w.bad.foldl (fun l a => insSet a l) s1.dpoison }

/-- Notes a record of `n` units written to region `src` (2 Sieve, 8 + i RUi) of `size` units, for the rings that follow it
(R323, R327). -/
def State.wrote (s : State) (src size n : Nat) : State :=
  let w := (look s.hrv.written src).getD 0
  let l := ((look s.hrv.starts src).getD [] ++ [w]).filter fun v => decide (w + n ≤ v + size)
  { s with hrv := { s.hrv with written := ins s.hrv.written src (w + n), starts := ins s.hrv.starts src l } }

/-- Number of whole segments in the capture region (R175). -/
def State.nSegs (s : State) : Nat := min (2 ^ 20) (s.rd ACQ_REGION_SIZE_value / max 1 (s.rd ACQ_SEG_size))

/-- Units before `hi` of segment `i`'s place may be written: in stream mode Harvest must have delivered what stood there
(R179, R325). -/
def State.mayWrite (s : State) (i hi : Nat) : Bool :=
  if !s.on ACQ_CFG_stream || decide (i < s.nSegs) then true
  else match s.hrv.rings.find? fun p => p.2.strm with
    | some (_, r) => decide (i - s.nSegs < r.seg) || (r.seg = i - s.nSegs && decide (hi ≤ r.u))
    | none => false

/-- A write to the capture region, which waits while Harvest has not delivered what stands there, or while others wait. -/
def State.capStore (s : State) (w : CapW) : State :=
  if s.acq.defer.isEmpty && s.mayWrite w.idx w.hi then s.capWrite w
  else { s with acq := { s.acq with defer := s.acq.defer ++ [w] } }

/-- The writes that wait and may be done now are done, in order. -/
def State.capFlush (s : State) : List CapW → State
  | [] => { s with acq := { s.acq with defer := [] } }
  | w :: r => if s.mayWrite w.idx w.hi then (s.capWrite w).capFlush r else { s with acq := { s.acq with defer := w :: r } }

/-- Stores `bs` and `z` zeros as the next `n` units of the open segment: one record, with its poisoned units. Where it starts is noted
until it is overwritten (R327). -/
def State.capNext (s : State) (g : Seg) (bs : List Byte) (z n : Nat) (bad : List Nat) : State :=
  let a := s.capAddr g.place g.wofs
  let s1 := s.capStore ⟨g.idx, g.wofs, g.wofs + n, a, bs, z, bad.map fun i => a + 64 * i⟩
  let m := s.rd ACQ_SEG_size * 1024
  let o := g.idx * m + g.wofs
  { s1 with acq := { s1.acq with seq := (s.acq.seq + 1) % 256, seg := some { g with wofs := g.wofs + n },
                                 starts := o :: s.acq.starts.filter fun v => decide (o + n ≤ v + s.nSegs * m) } }

/-- Writes one record at the next place of the open segment, whatever room is left (no PAD). -/
def State.capRaw (s : State) (g : Seg) (r : Rec) (bad : List Nat) : State :=
  s.capNext g (recBytes (s.rd GRF_UNIT_ID_id) s.acq.seq r) 0 r.units bad

/-- A PAD fills the rest of the current 64 KiB unit of the open segment (R208, R225). -/
def State.capFill (s : State) (g : Seg) : State :=
  let n := 1024 - g.wofs % 1024
  s.capNext g (s.padHead s.acq.seq n) (64 * n - 16) n []

/-- Fills the rest of the current 64 KiB unit with a PAD when the record does not fit in it (R208, R225). -/
def State.capPad (s : State) (n : Nat) : State :=
  match s.acq.seg with
  | none => s
  | some g => if n ≤ 1024 - g.wofs % 1024 then s else s.capFill g

/-- Writes one record into the open segment, units `bad` of it poisoned. -/
def State.capPutP (s : State) (r : Rec) (bad : List Nat) : State :=
  let s1 := s.capPad r.units
  match s1.acq.seg with
  | none => s
  | some g => s1.capRaw g r bad

/-- Writes one record into the open segment. -/
def State.capPut (s : State) (r : Rec) : State := s.capPutP r []

/-- PADs fill the place of the open segment up to unit `n`, one for each 64 KiB unit (R175, R208). -/
def State.capBridge (n : Nat) : Nat → State → State
  | 0, s => s
  | fuel + 1, s =>
    match s.acq.seg with
    | none => s
    | some g => if n ≤ g.wofs then s else State.capBridge n fuel (s.capFill g)

/-- Whose ring the drain reads for a block of state, edge or interval records. -/
def Rec.owner (r : Rec) : Owner :=
  if r.typ = 3 then .edges (field r.body 0 1) else if r.typ = 4 then .capture (field r.body 0 1 / 4) else .interval

/-- The drain of a block of records: the spec does not say which words of the ring hold them, so each word of it with an error is one
of them or not, and spoils some unit of the block's entries, by free values. DESIGN CHOICE (log entry 128): safe. -/
def State.drainedRecs (s : State) (r : Rec) : State × List Nat :=
  let l := (s.ownerErrs r.owner).zipIdx.filter fun p => Config.freeValue (s.free + p.2) % 2 = 1
  let n := (s.ownerErrs r.owner).length
  let s1 := l.foldl (fun s p =>
    if s.poison.contains (p.1.1 / 64 * 64) then s else if p.1.2 then s.nearUncorr p.1.1 else s.nearCorrected) s
  ({ s1 with free := s.free + n },
    (l.filter (·.1.2)).map fun p => 1 + Config.freeValue (s.free + p.2) / 2 % max 1 (r.units - 1))

/-- The drain reads the ring words of a block: an access that cannot be corrected reaches deep memory poisoned (R276). -/
def State.drained (s : State) (r : Rec) : State × List Nat :=
  if (s.poison.isEmpty && s.cells.isEmpty) = true then (s, []) else
  if r.typ ≠ 2 then s.drainedRecs r else
  let per := field r.body 8 8 / (if r.mode = 2 then 32 else 8)
  let n := field r.body 4 4
  (s.ringMeet (field r.body 0 1) per (per + n), (s.ringBad (field r.body 0 1) per (per + n)).map fun i => 1 + (i - 4 * per))

/-- Writes one data block at the start of a 64 KiB unit (R175). -/
def State.capBlock (s : State) (r : Rec) : State :=
  let n := match s.acq.seg with
    | some g => cdiv g.wofs 1024 * 1024
    | none => 0
  let d := s.drained r
  (State.capBridge n 1 d.1).capPutP r d.2

/-- End of a queued record's span: kt_end of a GAP, the end of a CALIBRATION's task, else its kt. -/
def Rec.endKt (r : Rec) : Nat :=
  if r.typ = 8 then r.kt + (field r.body 0 9 + 2 ^ 72 - r.kt % 2 ^ 72) % 2 ^ 72
  else if r.typ = 0x0E then r.kt + field r.body 4 4 * usF else r.kt

/-- A queued record whose span reaches the instant `k`, from which a CLOCK_SUSPECT interval has been open, is SUSPECT (R131, R206). -/
def Rec.susFrom (k : Nat) (r : Rec) : Rec := if k ≤ r.endKt then { r with flags := r.flags ||| 1 } else r

/-- The records that wait to be written, when a CLOCK_SUSPECT interval opens that has begun at `k` (R131, R206). -/
def State.eventsSus (k : Nat) (s : State) : State :=
  { s with acq := { s.acq with leads := s.acq.leads.map (Rec.susFrom k),
                               seg := s.acq.seg.map fun (g : Seg) => { g with evs := g.evs.map (Rec.susFrom k) } } }

/-- Queues a record while no segment is open; a record beyond 256 is counted (R210). -/
def State.lead (s : State) (r : Rec) : State :=
  if s.acq.leads.length < 256 then { s with acq := { s.acq with leads := s.acq.leads ++ [r] } }
  else { s with acq := { s.acq with leadLost := s.acq.leadLost + 1 } }

/-- An event record of the open segment goes into its reserve (R175); without one it is queued. -/
def State.event (s : State) (r : Rec) : State :=
  match s.acq.seg with
  | some g => { s with acq := { s.acq with seg := some { g with evs := g.evs ++ [r], evt := g.evt + r.units } } }
  | none => s.lead r

/-- A MARK record written when it arises, if acquisition is armed or capturing (R48, R62): in every state but IDLE. The rules do not say
whether STOPPING counts; one that arises there waits for the next capture's first segment. DESIGN CHOICE (log entry 113): unsafe. -/
def State.mark (s : State) (kt kind code ch x y n detail : Nat) (coarse : Bool) : State :=
  if s.idle then s else s.event (s.markRec kt kind code ch x y n detail s.segNo coarse)

/-- Units of 64 bytes of the reserve that non-data records may take, the trailer's two apart (R175, R176).
DEDUCED (log entry 91): unsafe. -/
def State.evtRoom (s : State) : Nat := cdiv (s.rd ACQ_SEG_size) 64 * 1024 - 2

/-- A MARK record of kind TRELLIS: not stored once the reserve is used up (R176). -/
def State.markTrellis (s : State) (kt code ch level branch : Nat) (coarse : Bool) : State :=
  match s.acq.seg with
  | some g =>
    if g.evt + 1 ≤ s.evtRoom then s.mark kt 1 code ch level branch 0 0 coarse
    else { s with acq := { s.acq with seg := some { g with markDrop := g.markDrop + 1 } } }
  | none => s.mark kt 1 code ch level branch 0 0 coarse

/-! ### P, Q and the level log -/

/-- P (R173). -/
def State.acqP (s : State) : Nat := s.rd ACQ_PRE_LO_value + 2 ^ 32 * s.rd ACQ_PRE_HI_value
/-- Q (R173). -/
def State.acqQ (s : State) : Nat := s.rd ACQ_POST_LO_value + 2 ^ 32 * s.rd ACQ_POST_HI_value
/-- The acquisition timeout in µs (R187). -/
def State.acqTo (s : State) : Nat :=
  s.rd ACQ_TIMEOUT_LO_value + 2 ^ 32 * s.rd ACQ_TIMEOUT_HI_value + 2 ^ 48 * s.rd ACQ_TIMEOUT_HI_value_top

/-- The mode counts positions in samples (R173). -/
def sampleMode (m : Nat) : Bool := m = 1 || m = 2 || m = 6

/-- The value a channel's sample bit has at position `p`: the last change at or before it (0, 1, or 2 unresolved). -/
def lvlAt (log : List LogE) (start : Nat) (ch p : Nat) : Nat :=
  log.foldl (fun v e => if e.ch = ch ∧ e.pos ≤ p then e.v else v) start

/-- A channel's sample value at arm. -/
def Acq.lvl0At (q : Acq) (ch : Nat) : Nat := if q.unres0.contains ch then 2 else if q.lvl0.contains ch then 1 else 0

/-- The stored sample bit; of an unresolved channel, what the comparator happens to give (R45): a free value.
DESIGN CHOICE (log entry 13): safe. -/
def Acq.sampleBit (q : Acq) (ch p : Nat) : Bool :=
  match lvlAt q.log (q.lvl0At ch) ch p with
  | 0 => false
  | 1 => true
  | _ => Config.freeByte q.freeK (1024 * p + ch) % 2 = 1

/-- The state a boolean log has at position `p`. -/
def logAt (l : List (Nat × Bool)) (p : Nat) : Bool := l.foldl (fun v e => if e.1 ≤ p then e.2 else v) false

/-- Key in the suspect log of the interval whose MARK record has `x` and `y` (R221). -/
def susKey (x y : Nat) : Nat := if x = 3 then 4 + y else if x = 4 then 8 else x

/-- An interval of the key covers the channels of a tile: that of a tile DLL covers its own tile only (R137). -/
def susHits (tile key : Nat) : Bool := key < 4 || key = 8 || key = 4 + tile

/-- Interval `e` meets the samples [a, b): the sample that contains its start is in it, that of its end is not. -/
def State.susMeets (s : State) (a b : Nat) (e : Nat × Nat × Option Nat) : Bool :=
  decide (s.grid.posOf e.2.1 < b) && (match e.2.2 with
    | some u => decide (a < s.grid.posOf u) && decide (s.grid.posOf e.2.1 < s.grid.posOf u)
    | none => true)

/-- Some position of [a, b) lies in a CLOCK_SUSPECT interval (R206). -/
def State.susIn (s : State) (a b : Nat) : Bool := s.clk.susLog.any (s.susMeets a b)

/-- Some sample of the tile at a position of [a, b) lies in a CLOCK_SUSPECT interval (R137, R206). -/
def State.susTile (s : State) (tile a b : Nat) : Bool := s.clk.susLog.any fun e => susHits tile e.1 && s.susMeets a b e

/-- The instant `t` of a channel of the tile lies in a CLOCK_SUSPECT interval. -/
def State.susAt (s : State) (tile t : Nat) : Bool :=
  s.clk.susLog.any fun e => susHits tile e.1 && decide (e.2.1 ≤ t) && (match e.2.2 with
    | some u => decide (t < u)
    | none => true)

/-- The interval with the key opens at `t`. -/
def State.susFrom (s : State) (key t : Nat) : State :=
  { s with clk := { s.clk with susLog := s.clk.susLog ++ [(key, t, none)] } }

/-- It ends at `t`. -/
def State.susUntil (s : State) (key t : Nat) : State :=
  { s with clk := { s.clk with susLog := s.clk.susLog.map fun e => if e.1 = key ∧ e.2.2 = none then (key, e.2.1, some t) else e } }

/-- Intervals that ended before `t` are forgotten. -/
def State.susPrune (s : State) (t : Nat) : State :=
  { s with clk := { s.clk with susLog := s.clk.susLog.filter fun e => match e.2.2 with
      | some u => decide (t < u)
      | none => true } }

/-- Positions at which marking may change. -/
def State.susPts (s : State) : List Nat :=
  s.clk.susLog.flatMap fun e => s.grid.posOf e.2.1 :: (e.2.2.map s.grid.posOf).toList

/-- The position is lost in a storage gap (R186). -/
def Acq.inGap (q : Acq) (p : Nat) : Bool :=
  q.gaps.any (fun g => g.1 ≤ p && p < g.2) || (match q.gapFrom with
    | some (a, _) => a ≤ p
    | none => false)

/-- Position `p` of segment `g` is stored: outside every gap, and qualified when qualification limits storage; the trigger
sample is always stored (R177). -/
def State.stored (s : State) (g : Seg) (p : Nat) : Bool :=
  !s.acq.inGap p && (!s.on ACQ_CFG_qual_en || logAt s.acq.qualLog p || (g.trig.isSome && p = g.trigPos))

/-- Insertion of an edge by time, then channel. -/
def insHeld (e : HeldE) : List HeldE → List HeldE
  | [] => [e]
  | x :: r => if e.t < x.t ∨ (e.t = x.t ∧ e.ch < x.ch) then e :: x :: r else x :: insHeld e r

/-- Points of [a, b) at which storage or marking may change. -/
def State.cuts (s : State) (g : Seg) (a b : Nat) : List Nat :=
  let q := s.acq
  let pts := [a, b, g.trigPos, g.trigPos + 1] ++ q.qualLog.map (·.1) ++ s.susPts ++ q.gaps.map (·.1)
    ++ q.gaps.map (·.2) ++ (match q.gapFrom with
      | some (x, _) => [x]
      | none => [])
  (pts.filter (fun p => a ≤ p ∧ p ≤ b)).foldl (fun l p => insSet p l) []

/-- The pieces between consecutive cuts that are stored, joined where nothing changes: start, end, and whether the samples of the
tile there are suspect. -/
def State.joinRuns (s : State) (g : Seg) (tile : Nat) : List Nat → List (Nat × Nat × Bool) → List (Nat × Nat × Bool)
  | x :: y :: r, acc =>
    if s.stored g x then
      let su := s.susTile tile x (x + 1)
      match acc with
      | (a, b, su') :: t => if b = x ∧ su' = su then s.joinRuns g tile (y :: r) ((a, y, su) :: t)
          else s.joinRuns g tile (y :: r) ((x, y, su) :: acc)
      | [] => s.joinRuns g tile (y :: r) [(x, y, su)]
    else s.joinRuns g tile (y :: r) acc
  | _, acc => acc.reverse

/-- The stored runs of positions [a, b) of a tile (R215). -/
def State.runs (s : State) (g : Seg) (tile a b : Nat) : List (Nat × Nat × Bool) := s.joinRuns g tile (s.cuts g a b) []

/-- One period of a tile's samples as a number of 256 bytes (R215): stored positions [x, y) only; in M2 groups of four. -/
def Acq.period (q : Acq) (m2 : Bool) (tile x y per : Nat) : List Byte :=
  if m2 then
    (List.range 64).flatMap fun m =>
      le 4 (packBits 32 fun i =>
        let p := 32 * per + i
        let gr := 32 * per + 4 * (i / 4)
        decide (gr < y ∧ x < gr + 4) && q.sampleBit (256 * tile + 4 * m) p)
  else
    (List.range 256).flatMap fun m =>
      le 1 (packBits 8 fun i =>
        let p := 8 * per + i
        decide (x ≤ p ∧ p < y) && q.sampleBit (256 * tile + m) p)

/-- Valid bits of a period (R214): bit i for sample i, or for samples 4i to 4i + 3 in M2. -/
def validBits (m2 : Bool) (x y per : Nat) : Nat :=
  packBits 8 fun i =>
    if m2 then let gr := 32 * per + 4 * i; decide (gr < y ∧ x < gr + 4)
    else let p := 8 * per + i; decide (x ≤ p ∧ p < y)

/-- The sub-header of data blocks (R214). -/
def subHdr (src w fv lv count pos seg groups : Nat) : List Byte :=
  le 1 src ++ le 1 w ++ le 1 fv ++ le 1 lv ++ le 4 count ++ le 8 pos ++ le 4 seg ++ le 2 groups ++ le 26 0

/-- A SAMPLE_BLOCK of `n` periods of run [x, y) from period `per` (R215). -/
def State.sampleBlock (s : State) (mode tile x y su per n seg : Nat) : Rec :=
  let ph := if mode = 2 then 32 else 8
  let m2 := decide (mode = 2)
  ⟨0x02, flags (su = 1) false false true, mode, s.grid.start (ph * per),
    subHdr tile 0 (validBits m2 x y per) (validBits m2 x y (per + n - 1)) n (ph * per) seg 0
      ++ (List.range n).flatMap (fun i => s.acq.period m2 tile x y (per + i))⟩

/-- The sample blocks of one run of a tile, 255 periods each. -/
def State.runBlocks (s : State) (mode seg tile : Nat) (run : Nat × Nat × Bool) : List Rec :=
  let (x, y, su) := run
  let ph := if mode = 2 then 32 else 8
  let p0 := x / ph
  let np := (y - 1) / ph + 1 - p0
  (List.range (cdiv np 255)).map fun c => s.sampleBlock mode tile x y (b2n su) (p0 + 255 * c) (min 255 (np - 255 * c)) seg

/-! ### Record units of M3 to M5 -/

/-- Inserts a record unit by time, then slot (R268), then channel (R216): equal ones keep their order of arrival. -/
def insUnit (u : RUnit) : List RUnit → List RUnit
  | [] => [u]
  | x :: r =>
    if u.t < x.t ∨ (u.t = x.t ∧ (u.src < x.src ∨ (u.src = x.src ∧ u.ch < x.ch))) then u :: x :: r else x :: insUnit u r

/-- The level of a channel in sample `k`: 0, 1, or 2 where it presents no bit or is unresolved (R142). -/
def State.smp (s : State) (c k : Nat) : Nat := if s.captured c then lvlAt s.acq.log (s.acq.lvl0At c) c k else 2

/-- PRp matches in sample `k` (R145). -/
def State.prMatch (s : State) (p k : Nat) : Bool :=
  s.on (TRL_PRp_CFG_en p) && (s.chSet (TRL_PRp_CARE_bits p)).all fun c => s.smp c k = b2n (s.chBit (TRL_PRp_VAL_bits p) c)

/-- The record units: those whose recogniser matches in their sample (R190). -/
def State.units (s : State) : List RUnit := s.acq.units.filter fun u => u.pr = 64 || s.prMatch u.pr u.pos

/-- Record units produced since arm. -/
def State.unitN (s : State) : Nat := s.acq.unitBase + s.units.length

/-- The record at `t` that is lost has its time at sample resolution. -/
def State.coarseT (s : State) (t : Nat) : Bool := s.acq.units.any fun u => u.t = t && u.lost && u.sres

/-- The GAP record of a storage stall that covers the instant `t`. -/
def Rec.gapOver (t : Nat) (r : Rec) : Bool := r.typ = 8 && field r.body 9 1 = 1 && decide (r.kt ≤ t) && decide (t < r.endKt)

/-- The same with one more unit lost. -/
def Rec.gapMore (r : Rec) : Rec :=
  { r with body := r.body.take 16 ++ le 8 (field r.body 16 8 + 1) ++ r.body.drop 24 }

/-- The GAP records with one more unit lost in the first that covers `t`. -/
def gapMoreAt (t : Nat) : List Rec → List Rec
  | [] => []
  | r :: l => if r.gapOver t then r.gapMore :: l else r :: gapMoreAt t l

/-- A unit is in a stall under way when its time is not before the first that was not stored (R186). -/
def State.inStall (s : State) (u : RUnit) : Bool :=
  match s.acq.gapFrom with
  | some (_, kt) => decide (kt ≤ u.t)
  | none => false

/-- A unit that comes after the resume, with its time in the stall: it is lost too, and the GAP record that waits counts it (R186). -/
def State.lateLost (s : State) (u : RUnit) : Bool :=
  match s.acq.seg with
  | some g => g.evs.any fun r => r.gapOver u.t
  | none => false

/-- One more state, edge or interval record of the capture; one with its time in a storage stall is lost (R186).
DEDUCED (log entry 125): unsafe. -/
def State.addUnit (s : State) (u : RUnit) : State :=
  if !s.armed then s
  else if !u.lost && !s.inStall u && s.lateLost u then
    { s with acq := { s.acq with
        units := insUnit { u with lost := true } s.acq.units,
        seg := s.acq.seg.map fun (g : Seg) => { g with evs := gapMoreAt u.t g.evs, lost := g.lost + 1 } } }.addF ACQ_LOST 1
  else { s with acq := { s.acq with units := insUnit { u with lost := u.lost || s.inStall u } s.acq.units } }

end Sys2Proof.Machine
end

