-- ==== Sys2Proof/Machine/Reduce.lean ====
section
/-! DEFINITION. The reduction units RU0 to RU7 (R226 to R235): entries, blocks, their regions, and what edges, interval
ends, flushes and stops do to a unit. -/

namespace Sys2Proof.Machine

/-- A unit at rest. -/
def Ru.idle : Ru := ⟨false, false, 0, false, 0, [], [], noSeg, 0, 0, 0, 0, 65536, 0, 0, 0, [], [], [], none, none, false, 0, false, []⟩

/-- The hidden state of unit n. -/
def State.ru (s : State) (n : Nat) : Ru := (look s.red n).getD Ru.idle

/-- Stores the hidden state of unit n. -/
def State.setRu (s : State) (n : Nat) (r : Ru) : State := { s with red := ins s.red n r }

/-- The set channels of unit n, in ascending order; channels M2 does not capture are constant 0 (R226). -/
def State.ruSet (s : State) (n : Nat) : List Nat := s.chSet (RED_RUn_SET_bits n)

/-- The kind runs in the mode (R228). -/
def redMode (kind mode : Nat) : Bool :=
  if kind = 1 || kind = 2 || kind = 7 || kind = 8 then mode = 1 || mode = 2 || mode = 6
  else (3 ≤ kind && kind ≤ 6) && (mode = 1 || mode = 2 || mode = 4 || mode = 6)

/-- The mode that counts for the units: M1 in a composite mode. -/
def State.redActive (s : State) (n : Nat) : Bool := s.on (RED_RUn_CFG_en n) && redMode (s.rd (RED_RUn_CFG_kind n)) s.mode

/-- Worst-case write rate in GB/s, as numerator and denominator (R229); f_s is 8 or 32 times the base in kHz over 10^6. -/
def State.redWorstFrac (s : State) (n : Nat) : Nat × Nat :=
  let k := (s.ruSet n).length
  let fs := (if s.mode = 2 then 32 else 8) * s.sbase
  let up8 := fun x => 8 * cdiv x 8
  let par := s.rd (RED_RUn_PAR_par n)
  let ivl := s.rd (RED_RUn_IVL_ivl n)
  match s.rd (RED_RUn_CFG_kind n) with
  | 1 => ((8 + up8 (cdiv k 8)) * fs, 1000000)
  | 2 => ((8 + up8 (cdiv k 8)) * fs, 1000000 * max 2 (par % 2 ^ 24))
  | 3 => (8 * k, 1)
  | 4 => ((8 + up8 (4 * k)) * fs, 1000000 * ivl)
  | 5 => (16400 * fs, 1000000 * ivl)
  | 6 => ((8 + up8 (cdiv k 8)) * fs, 1000000 * ivl)
  | 7 => (16 * fs, 1000000 * max 1 (par % 256))
  | 8 => ((8 + 2 * up8 (cdiv k 8)) * fs, 1000000 * ivl)
  | _ => (0, 1)

/-- The unit's term in W_r (R229): an idle unit counts 0. -/
def State.redTerm (s : State) (n : Nat) : Nat :=
  if s.redActive n then
    let (a, b) := s.redWorstFrac n
    min (cdiv a b + 1) (s.rd (RED_RUn_RATE_limit n))
  else 0

/-- The unit's region is full, with wrap = 0 (R231). -/
def State.redShut (s : State) (n : Nat) : State :=
  (((s.setRu n { s.ru n with shut := true }).orF RED_STAT_full (2 ^ n)).orF RED_EVT_full (2 ^ n))

/-- Entries are lost (R230, R231). -/
def State.redLose (s : State) (n k : Nat) : State :=
  ((s.setRu n { s.ru n with lost := (s.ru n).lost + k }).addSat (RED_RUn_LOST n) k).orF RED_EVT_loss (if k = 0 then 0 else 2 ^ n)

/-- Fills the rest of the current 64 KiB unit of the region with a PAD when `k` units do not fit in it (R231). -/
def State.redPad (s : State) (n k : Nat) : State :=
  let u := s.ru n
  let room := 1024 - u.wofs % 1024
  if k ≤ room then s else
  let s1 := (s.deepPad (s.rd (RED_RUn_BASE_value n) % 2 ^ 21 * 65536 + 64 * u.wofs) u.seq room).wrote (8 + n) (s.rd (RED_RUn_SIZE_value n) * 1024) room
  s1.setRu n { u with wofs := u.wofs + room, seq := (u.seq + 1) % 256 }

/-- The blocks of a segment, with one more at unit `w`. -/
def addBlk (l : List (Nat × Nat × Nat)) (seg w : Nat) : List (Nat × Nat × Nat) :=
  match l.find? fun b => b.1 = seg with
  | some b => (seg, b.2.1, w) :: l.filter fun b => b.1 ≠ seg
  | none => (seg, w, w) :: l

/-- The ru field of unit n in a trailer already written: first and last block of that segment (R212), unless the segment has been
overwritten. -/
def State.trailerRu (s : State) (n seg : Nat) : State :=
  match s.acq.spans.find? (fun p => p.idx = seg), (s.ru n).blks.find? (fun b => b.1 = seg) with
  | some p, some b =>
    if s.acq.next ≤ seg + s.nSegs then
      s.capStore ⟨seg, p.trU + 1, p.trU + 2, p.trA + 64 + 8 * n, le 4 b.2.1 ++ le 4 b.2.2, 0, []⟩ else s
  | _, _ => s

/-- Writes the open block, of `k` entries, into the unit's region with its own sequence counter (R207, R231); a trailer of its segment
that stands already takes its place in (R212). With wrap = 0 a region that is full ends the unit's writing. -/
def State.redPut (s0 : State) (n k : Nat) (r : Rec) : State :=
  let s := s0.redPad n r.units
  let u := s.ru n
  let size := s.rd (RED_RUn_SIZE_value n) * 1024
  let wrap := s.on (RED_RUn_CFG_wrap n)
  let w := if u.wofs + r.units ≤ size then u.wofs else 0
  if w + r.units ≤ size ∧ (w = u.wofs ∨ wrap = true) then
    let base := s.rd (RED_RUn_BASE_value n) % 2 ^ 21 * 65536
    let s1 := (s.deepPut (base + 64 * w) (recBytes (s.rd GRF_UNIT_ID_id) u.seq r)).wrote (8 + n) size r.units
    let e := w + r.units
    let s2 := ((s1.setRu n { u with wofs := if e = size ∧ wrap = true then 0 else e, seq := (u.seq + 1) % 256, blks := addBlk u.blks u.seg w }).wr
      (RED_RUn_WPTR_ptr n) (if e = size ∧ wrap = true then 0 else e)).trailerRu n u.seg
    if e = size ∧ wrap = false then s2.redShut n else s2
  else (s.redLose n k).redShut n

/-- Closes the unit's open block, if it has one (R232, R233). -/
def State.redClose (s : State) (n : Nat) : State :=
  let u := s.ru n
  if !u.opened then s else
  let kind := s.rd (RED_RUn_CFG_kind n)
  let ivl := if kind = 4 || kind = 5 || kind = 6 || kind = 8 then s.rd (RED_RUn_IVL_ivl n) else 0
  let r : Rec := ⟨0x06, flags u.sus u.coarse false true, s.recMode, u.kt,
    le 1 n ++ le 1 kind ++ le 2 u.count ++ le 4 u.seg ++ le 8 u.pos ++ le 4 u.lost ++ le 1 (b2n (u.lost ≠ 0)) ++ le 3 0
      ++ le 4 (s.rd (RED_RUn_PAR_par n)) ++ le 4 ivl ++ le 16 0 ++ u.body⟩
  let s1 := (s.setRu n { u with lost := 0 }).redPut n u.count r
  s1.setRu n { s1.ru n with opened := false, count := 0, body := [], sus := false }

/-- Bytes of credit at the instant `t`: the limit in bytes per ns, at most the burst allowance of 64 KiB (R230). -/
def State.redCredit (s : State) (n t : Nat) : Nat :=
  let u := s.ru n
  min 65536 (u.credit + (t - u.creditAt) * s.rd (RED_RUn_RATE_limit n) / nsF)

/-- The segment open at the instant `t` (R233). -/
def State.segOpenAt (s : State) (t : Nat) : Nat :=
  match s.acq.spans.find? (fun g => decide (g.t0 ≤ t) && decide (t < g.t1)) with
  | some g => g.idx
  | none => match s.acq.seg with
    | some g => if g.fillKt ≤ t then g.idx else noSeg
    | none => noSeg

/-- Some instant from `a` to `b` of some set channel lies in a CLOCK_SUSPECT interval (R206, R227). -/
def State.redSus (s : State) (n a b : Nat) : Bool :=
  let l := s.ruSet n
  s.clk.susLog.any fun e => ((List.range 4).any fun t => susHits t e.1 && l.any fun c => c / 256 = t) && decide (e.2.1 ≤ b)
    && (match e.2.2 with
      | some u => decide (a < u)
      | none => true)

/-- Some sample from the instant `a` to `b` of some set channel cannot be read (R276). -/
def State.redBad (s : State) (n a b : Nat) : Bool :=
  !(s.poison.isEmpty && s.cells.isEmpty) && (s.ruSet n).any fun c => s.chBad c (s.grid.posOf a) (s.grid.posOf b + 1)

/-- Writes one entry: `t` its time, `w` the instant at which it is complete and takes its bytes from the rate limit, `pos` its
position. A discarded entry is counted (R230, R276). A block whose kt would lie after the entry closes first.
DESIGN CHOICE (log entry 49): unsafe. -/
def State.redEntry (s : State) (n t w pos : Nat) (sres part unres : Bool) (payload : List Byte) : State :=
  let len := 8 + payload.length
  let credit := s.redCredit n w
  if (s.ru n).shut || decide (credit < len) || s.redBad n t w then s.redLose n 1 else
  let u := s.ru n
  let s1 := if u.opened && (decide (65472 < u.body.length + len) || decide (2 ^ 48 ≤ t - u.kt) || decide (t < u.kt)) then s.redClose n else s
  let u1 := s1.ru n
  if u1.shut then s1.redLose n 1 else
  let u2 := if u1.opened then u1 else
    { u1 with opened := true, kt := t, coarse := sres, count := 0, body := [], ends := [], seg := s.segOpenAt t, pos := pos, sus := false }
  let su := s.redSus n t w
  let word := (t - u2.kt) % 2 ^ 48 + 2 ^ 48 * b2n su + 2 ^ 49 * b2n sres + 2 ^ 50 * b2n unres + 2 ^ 51 * b2n part
  s1.setRu n { u2 with count := u2.count + 1, body := u2.body ++ le 8 word ++ payload, ends := u2.ends ++ [w], credit := credit - len,
                       creditAt := max u2.creditAt w, sus := u2.sus || su }

/-- The entries of unit n's open block whose spans reach into a CLOCK_SUSPECT interval that has opened back-dated are SUSPECT, bit 48
of their time words (R131, R227). -/
def State.redResus (s : State) (n : Nat) : State :=
  let u := s.ru n
  if !u.opened then s else
  let len := u.body.length / max 1 u.count
  let hit := u.ends.map fun w => s.redSus n w w
  let body := u.body.mapIdx fun j b => if j % len = 6 && hit.getD (j / len) false then b ||| 1 else b
  s.setRu n { u with body := body, sus := u.sus || hit.any id }

/-- The open blocks of every unit. Blocks already written keep their flags. DESIGN CHOICE (log entry 126): unsafe. -/
def State.redSuspect (s : State) : State := (List.range 8).foldl State.redResus s

/-! ### What the samples give: TRANS, DECIM and BUS -/

/-- The value of set channel `c` in sample `p`: 0, 1, or 2 while unresolved; constant 0 where M2 does not capture it. -/
def State.redLvl (s : State) (c p : Nat) : Nat := if s.captured c then lvlAt s.acq.log (s.acq.lvl0At c) c p else 0

/-- The sample bits of channels at position `p`, packed (R226); of an unresolved channel, what the comparator happens to give. -/
def State.redWord (s : State) (l : List Nat) (p : Nat) : Nat :=
  packBits l.length fun i => s.captured (l.getD i 0) && s.acq.sampleBit (l.getD i 0) p

/-- Some set channel is unresolved at a position of [a, b). -/
def State.redUnres (s : State) (n a b : Nat) : Bool :=
  (s.ruSet n).any fun c => s.captured c &&
    (lvlAt s.acq.log (s.acq.lvl0At c) c a = 2 || s.acq.log.any (fun e => e.ch = c && e.v = 2 && decide (a ≤ e.pos) && decide (e.pos < b)))

/-- The packed bits of `k` channels in 64-bit words. -/
def packed (k v : Nat) : List Byte := le (8 * cdiv k 64) v

/-- Some channel of `l` changes level from the sample before `p` to `p`; going unresolved or being resolved is no change (R45). -/
def State.redChange (s : State) (l : List Nat) (p : Nat) : Bool :=
  l.any fun c =>
    let v := s.redLvl c p
    let w := if p = 0 then s.acq.lvl0At c else s.redLvl c (p - 1)
    v ≠ w && v ≠ 2 && w ≠ 2

/-- Samples of [a, b) in which channels of `l` change level, in order; a level that has changed while the sample domain was gated is
new in the first sample after it. -/
def State.redChanges (s : State) (l : List Nat) (a b : Nat) : List Nat :=
  let pts := (s.acq.log.filter fun e => l.contains e.ch && decide (a ≤ e.pos) && decide (e.pos < b)).map (·.pos)
  (pts.foldl (fun l p => insSet p l) []).filter (s.redChange l)

/-- The TRANS or DECIM entry of sample `p`. -/
def State.redSample (n : Nat) (s : State) (p : Nat) : State :=
  let l := s.ruSet n
  s.redEntry n (s.grid.start p) (s.grid.start p) p false false (s.redUnres n p (p + 1)) (packed l.length (s.redWord l p))

/-- The channels BUS looks at: the lowest 64. -/
def State.busSet (s : State) (n : Nat) : List Nat := (s.ruSet n).take 64

/-- The BUS entry of the value that has been stable from sample `c` for `k` samples, if it differs from the last entry. -/
def State.redBus (s : State) (n c k : Nat) : State :=
  let w := s.redWord (s.busSet n) c
  let s1 := s.setRu n { s.ru n with cand := none }
  if (s.ru n).word = some w then s1 else
  let s2 := s1.redEntry n (s.grid.start c) (s.grid.start (c + k)) c false false (s.redUnres n c (c + k)) (le 8 w)
  s2.setRu n { s2.ru n with word := some w }

/-- BUS up to a change in sample `q`, or to sample `q` without one: the value held since the candidate is entered if it has been
stable for `k` samples. -/
def State.redStable (n k : Nat) (change : Bool) (s : State) (q : Nat) : State :=
  let s1 := match (s.ru n).cand with
    | some c => if c + k ≤ q then s.redBus n c k else s
    | none => s
  if change then s1.setRu n { s1.ru n with cand := some q } else s1

/-! ### Intervals -/

/-- Channels of the set seen at level `v` in some sample of [a, b). -/
def State.seenAt (s : State) (n v a b : Nat) : Nat :=
  let l := s.ruSet n
  packBits l.length fun i =>
    let c := l.getD i 0
    if s.captured c then
      (a :: ((s.acq.log.filter (fun e => e.ch = c ∧ a ≤ e.pos ∧ e.pos < b)).map (·.pos))).any
        (fun p => lvlAt s.acq.log (s.acq.lvl0At c) c p = v)
    else v = 0

/-- The payload of the interval [a, b) of unit n (R226). -/
def State.ivlPayload (s : State) (n a b : Nat) : List Byte :=
  let u := s.ru n
  let l := s.ruSet n
  match s.rd (RED_RUn_CFG_kind n) with
  | 4 => l.flatMap (fun c => le 4 ((look u.acc c).getD 0)) ++ List.replicate ((8 - 4 * l.length % 8) % 8) 0
  | 5 => (List.range 4098).flatMap fun k => le 4 ((look u.acc k).getD 0)
  | 6 => packed l.length (packBits l.length fun i => (look u.acc (l.getD i 0)).isSome)
  | _ => packed l.length (s.seenAt n 1 a b) ++ packed l.length (s.seenAt n 0 a b)

/-- Kinds that produce an entry per interval. -/
def ivlKind (k : Nat) : Bool := k = 4 || k = 5 || k = 6 || k = 8

/-- Ends the unit's interval at position `b` (its I positions, or cut by a close or stop: PART). -/
def State.redIvlEnd (s : State) (n b : Nat) (part : Bool) : State :=
  let u := s.ru n
  let a := u.ivlPos
  let s1 := s.redEntry n u.ivlKt (s.grid.start b) a false part (s.redUnres n a b) (s.ivlPayload n a b)
  s1.setRu n { s1.ru n with acc := [], ivlPos := b, ivlKt := s.grid.start b }

/-- Ends every interval of unit n that has ended before position `p`. -/
def State.redIvls (n p : Nat) : Nat → State → State
  | 0, s => s
  | fuel + 1, s =>
    let b := (s.ru n).ivlPos + s.rd (RED_RUn_IVL_ivl n)
    if b ≤ p then State.redIvls n p fuel (s.redIvlEnd n b false) else s

/-! ### What edges give, and time -/

/-- Multiples of `step` in [a, b). -/
def multiples (step a b : Nat) : List Nat := (List.range (cdiv (b - cdiv a step * step) step)).map fun i => (cdiv a step + i) * step

/-- Produces what the samples before position `p` have completed. -/
def State.redUpTo (s : State) (n p : Nat) : State :=
  let u := s.ru n
  if !u.run || decide (p ≤ u.nextPos) then s else
  let par := s.rd (RED_RUn_PAR_par n)
  let s1 := match s.rd (RED_RUn_CFG_kind n) with
    | 1 => (s.redChanges (s.ruSet n) u.nextPos p).foldl (State.redSample n) s
    | 2 => (multiples (max 2 (par % 2 ^ 24)) u.nextPos p).foldl (State.redSample n) s
    | 7 =>
      let k := max 1 (par % 256)
      State.redStable n k false ((s.redChanges (s.busSet n) u.nextPos p).foldl (State.redStable n k true) s) p
    | 3 => s
    | _ => State.redIvls n p ((p - u.ivlPos) / max 1 (s.rd (RED_RUn_IVL_ivl n)) + 1) s
  s1.setRu n { s1.ru n with nextPos := p }

/-- An edge of the kind `sel` (0b01 or 0b00 rising, 0b10 falling, 0b11 either). -/
def edgeSel (sel : Nat) (up : Bool) : Bool := if sel = 2 then !up else if sel = 3 then true else up

/-- A pulse of channel `ch` from the edge kept for GLITCH to the opposite edge at `t` (R226): its entry if it is narrower than T and
nothing came between that left the channel unresolved (R45). -/
def State.redPulse (s : State) (n ch t : Nat) (up : Bool) : State :=
  match look (s.ru n).prevEdge ch with
  | some x =>
    let t1 := x / 4
    let T := max 1 (s.rd (RED_RUn_PAR_par n) % 2 ^ 24)
    let p1 := s.grid.posOf t1
    if x / 2 % 2 ≠ b2n up ∧ t - t1 < T ∧ edgeSel (s.rd (RED_RUn_CFG_edge n)) (!up) = true
        ∧ (s.acq.log.any fun e => e.ch = ch && e.v = 2 && decide (t1 ≤ e.t) && decide (e.t ≤ t)) = false then
      s.redEntry n t1 t p1 (x % 2 = 1) false (s.redUnres n p1 (s.grid.posOf t + 1)) (le 4 (t - t1) ++ le 2 (ch + 32768 * b2n (!up)) ++ le 2 0)
    else s
  | none => s

/-- An edge on channel `ch` at `t` in sample `p`, as unit n sees it. -/
def State.redEdge1 (s : State) (n ch t p : Nat) (up sres : Bool) : State :=
  let u := s.ru n
  if !u.run || !s.chBit (RED_RUn_SET_bits n) ch || !s.captured ch || decide (p < u.ivlPos) then s else
  let sel := s.rd (RED_RUn_CFG_edge n)
  match s.rd (RED_RUn_CFG_kind n) with
  | 3 =>
    let s1 := s.redPulse n ch t up
    s1.setRu n { s1.ru n with prevEdge := ins (s1.ru n).prevEdge ch (4 * t + 2 * b2n up + b2n sres) }
  | 4 => if edgeSel sel up then s.setRu n { u with acc := ins u.acc ch (min ((look u.acc ch).getD 0 + 1) (2 ^ 32 - 1)) } else s
  | 5 =>
    if !edgeSel sel up then s else
    let acc := match look u.prevSel ch with
      | some t1 =>
        let d := t - t1
        let ofs := s.rd (RED_RUn_HOFS_ofs n)
        let bin := (d - ofs) / 2 ^ (s.rd (RED_RUn_PAR_par n) % 16)
        let key := if d < ofs then 0 else if 4096 ≤ bin then 1 else bin + 2
        ins u.acc key (min ((look u.acc key).getD 0 + 1) (2 ^ 32 - 1))
      | none => u.acc
    s.setRu n { u with acc := acc, prevSel := ins u.prevSel ch t }
  | 6 => if edgeSel sel up then s.setRu n { u with acc := ins u.acc ch 1 } else s
  | _ => s

/-- An edge as all units see it (R91). -/
def State.redEdge (s : State) (e : HeldE) : State :=
  let p := s.grid.posOf e.t
  (List.range 8).foldl (fun s n => (s.redUpTo n p).redEdge1 n e.ch e.t p e.up e.sres) s

/-! ### Start and stop -/

/-- Starts unit n at position `p`; its first interval is the first that starts there or later, and the first value that BUS enters
is that of sample `p` (R228). -/
def State.redStart1 (p : Nat) (s : State) (n : Nat) : State :=
  if !s.redActive n then s else
  let ivl := max 1 (s.rd (RED_RUn_IVL_ivl n))
  let i := if ivlKind (s.rd (RED_RUn_CFG_kind n)) then cdiv p ivl * ivl else 0
  (s.setRu n { s.ru n with run := true, ivlPos := i, ivlKt := s.grid.start i, nextPos := p, acc := [], prevSel := [], prevEdge := [],
                           cand := some p, word := none, creditAt := s.grid.start p, credit := 65536 }).orF RED_STAT_running (2 ^ n)

/-- The edges logged from position `p` on that the units have already been given time to see, in order of time. -/
def State.redPast (s : State) (p : Nat) : List HeldE :=
  let es := (s.acq.log.filter fun e => e.edge && decide (p ≤ e.pos)).map fun e => (⟨e.t, e.ch, e.v = 1, e.sres⟩ : HeldE)
  (es.filter fun e => !s.inp.hold.contains e).foldl (fun l e => insHeld e l) []

/-- Starts every unit at position `p`. In M6 the span of a segment is known only when its trigger has come, so the units then look
back over what lies behind (R228). -/
def State.redStart (s : State) (p : Nat) : State := (s.redPast p).foldl State.redEdge ((List.range 8).foldl (State.redStart1 p) s)

/-- Stops unit n at position `p`: what is complete is entered, the interval is cut, the block closes (R227, R232). -/
def State.redStop1 (s : State) (n p : Nat) : State :=
  if !(s.ru n).run then s else
  let s1 := s.redUpTo n p
  let s2 := if ivlKind (s.rd (RED_RUn_CFG_kind n)) && decide ((s1.ru n).ivlPos < p) then s1.redIvlEnd n p true else s1
  let s3 := s2.redClose n
  (s3.setRu n { s3.ru n with run := false }).clrF RED_STAT_running (2 ^ n)

/-- Stops every unit. -/
def State.redStop (s : State) (p : Nat) : State := (List.range 8).foldl (fun s n => s.redStop1 n p) s

/-- At arm: sequence counters, write pointers and losses start again (R207, R235). -/
def State.redArm1 (s : State) (n : Nat) : State :=
  (((s.setRu n Ru.idle).wr (RED_RUn_WPTR_ptr n) 0).wr (RED_RUn_LOST n) 0).clrF RED_STAT_full (2 ^ n)

/-- All units at arm. -/
def State.redArm (s : State) : State := (List.range 8).foldl State.redArm1 s

/-- The ru fields of the trailer of segment `seg` (R212). -/
def State.ruFields (s : State) (seg : Nat) : List Byte :=
  (List.range 8).flatMap fun n =>
    match (s.ru n).blks.find? fun b => b.1 = seg with
    | some b => le 4 b.2.1 ++ le 4 b.2.2
    | none => le 4 noSeg ++ le 4 noSeg

/-- RED_STAT.badkind and trunc, as the units are configured (R235). -/
def State.redBadkind (s : State) : Nat :=
  packBits 8 fun n => s.on (RED_RUn_CFG_en n) && decide (s.rd (RED_RUn_CFG_kind n) = 0 ∨ 9 ≤ s.rd (RED_RUn_CFG_kind n))

/-- Units whose BUS set holds more than 64 channels. -/
def State.redTrunc (s : State) : Nat :=
  packBits 8 fun n => s.rd (RED_RUn_CFG_kind n) = 7 && decide (64 < (s.ruSet n).length)

/-! ### Flush -/

/-- A write of 1 to RED_CTL.flush closes every open block (R232). -/
def State.redFlush (s : State) : State := (List.range 8).foldl (fun s n => (s.redUpTo n s.nowPos).redClose n) s

end Sys2Proof.Machine
end

