-- ==== Sys2Proof/Machine/Interval.lean ====
section
/-! DEFINITION. The interval-measurement unit (R254 to R271): slots, queues and their overflow, losses, gates, pairing, and
the interval records they give. -/

namespace Sys2Proof.Machine

/-- A slot at rest. -/
def Slot.idle : Slot := ⟨[], [], 0, none, 0, none, none, none, 0, false⟩

/-- The hidden state of slot n. -/
def State.slot (s : State) (n : Nat) : Slot := (look s.tim.slots n).getD Slot.idle

/-- Stores the hidden state of slot n. -/
def State.setSlot (s : State) (n : Nat) (x : Slot) : State := { s with tim := { s.tim with slots := ins s.tim.slots n x } }

/-- The tile is in M5 (R254). -/
def State.m5Tile (s : State) (tile : Nat) : Bool := decide (tile < s.nTiles) && decide (s.tileMode tile = 5)

/-- The interval unit runs in the mode in effect. -/
def State.timActive (s : State) : Bool := (List.range 4).any s.m5Tile

/-- The channel code names a populated channel in the M5 half. -/
def State.timCh (s : State) (c : Nat) : Bool := decide (c < 1024) && s.m5Tile (c / 256)

/-- The channel code names a GATE input. -/
def isGate (c : Nat) : Bool := 0x400 ≤ c && c ≤ 0x403

/-- Two edge selections share an edge kind. -/
def edgesMeet (a b : Nat) : Bool := (edgeSel a true && edgeSel b true) || (edgeSel a false && edgeSel b false)

/-- Slot n is enabled and bad (R256). -/
def State.slotBad (s : State) (n : Nat) : Bool :=
  let k := s.rd (TIM_SLOTn_CFG_kind n)
  let a := s.rd (TIM_SLOTn_CH_ch_a n)
  let b := s.rd (TIM_SLOTn_CH_ch_b n)
  let g := s.rd (TIM_SLOTn_GATE_gsrc n)
  s.on (TIM_SLOTn_CFG_en n) &&
    ((k = 0 || decide (5 ≤ k))
      || !(s.timCh a || (k = 1 && isGate a)) || (k = 1 && !(s.timCh b || isGate b))
      || (k = 1 && a = b && edgesMeet (s.rd (TIM_SLOTn_CFG_edge_a n)) (s.rd (TIM_SLOTn_CFG_edge_b n)))
      || (k = 4 && g = 0) || (g = 7 && k ≠ 4) || g = 5 || g = 6
      || (g = 7 && s.rd (TIM_SLOTn_GATE_arg n) = 0))

/-- Slot n measures. -/
def State.slotOn (s : State) (n : Nat) : Bool :=
  s.on (TIM_SLOTn_CFG_en n) && !bit (s.rd TIM_BAD) n && s.on TIM_STAT_running

/-- The queue key of a channel code: its tile, or 4 for the GATE inputs. -/
def qKey (c : Nat) : Nat := if 0x400 ≤ c then 4 else c / 256

/-- The slot uses a queue of the key. -/
def State.slotUses (s : State) (n key : Nat) : Bool :=
  qKey (s.rd (TIM_SLOTn_CH_ch_a n)) = key
    || (s.rd (TIM_SLOTn_CFG_kind n) = 1 && qKey (s.rd (TIM_SLOTn_CH_ch_b n)) = key)

/-- The slot takes no endpoint at `t`: an episode of a tile it uses is open or waits for the first timestamp after it, or `t` is not
after its kt_end (R262). -/
def State.slotHeld (s : State) (n t : Nat) : Bool :=
  (List.range 5).any fun k => s.slotUses n k &&
    ((look s.tim.loss k).isSome || s.tim.ended.any (fun e => e.1 = k) || (match look s.tim.after k with
      | some e => decide (t ≤ e)
      | none => false))

/-- Slot n selects an edge to level `up` of channel code `c` (R259). -/
def State.slotSel (s : State) (n c : Nat) (up : Bool) : Bool :=
  let k := s.rd (TIM_SLOTn_CFG_kind n)
  s.slotOn n && ((s.rd (TIM_SLOTn_CH_ch_a n) = c && (k = 3 || edgeSel (s.rd (TIM_SLOTn_CFG_edge_a n)) up))
    || (k = 1 && s.rd (TIM_SLOTn_CH_ch_b n) = c && edgeSel (s.rd (TIM_SLOTn_CFG_edge_b n)) up))

/-- Adds to TIM_DISCARD (R258, R263, R265, R266). -/
def State.timDiscard (s : State) (n : Nat) : State :=
  if n = 0 then s else (s.addSat TIM_DISCARD_count n).orF TIM_EVT_discard 1

/-! ### Records -/

/-- The 32 bytes of an interval record (R218). -/
def ivlBytes (kind fl a b slot t0 n : Nat) (value : Int) : List Byte :=
  le 1 kind ++ le 1 fl ++ le 2 a ++ le 2 b ++ le 1 slot ++ le 1 0 ++ le 9 t0 ++ le 3 0 ++ le 4 n ++ leI 8 value

/-- Interval records that may be written in 1 µs: 500 for each tile in M5, half of that at a core clock of 0.5 GHz (R260). -/
def State.recLimit (s : State) : Nat :=
  ((List.range 4).filter s.m5Tile).length * (if s.cnom = 4096 then 250 else 500)

/-- When a record completed at `t` is written: at once, or as soon as the limit of R260 lets it. -/
def State.recAt (s : State) (t : Nat) : Nat :=
  max t (max (s.tim.written.headD 0) (match s.tim.written[s.recLimit - 1]? with
    | some x => x + usF
    | none => 0))

/-- A record of slot n completed at `t` waits for its time of writing, with its endpoints queued until then (R260). -/
def State.recPace (s : State) (n t : Nat) (u : RUnit) (ends : List (Nat × Stamp)) : State :=
  let q := s.tim
  let w := s.recAt t
  { s with tim := { q with written := (w :: q.written).take (max 1 s.recLimit), busy := q.busy ++ ends.map fun e => (w, e),
                           wait := q.wait ++ [(w, n, u)] } }

/-- A stamp's key: its time and level. -/
def Stamp.key (e : Stamp) : Nat := 2 * e.t + b2n e.up

/-- An interval record completed at `t`, subject to the decimation of slot n (R257); `ends` its endpoints, `s0` whether its start is
at sample resolution. -/
def State.timRecord (s : State) (n t t0 cnt : Nat) (value : Int) (s0 sres sus : Bool) (ends : List (Nat × Stamp)) : State :=
  let x := s.slot n
  let s1 := s.setSlot n { x with dec := x.dec + 1 }
  if x.dec % (s.rd (TIM_SLOTn_CFG_decim n) + 1) ≠ 0 then s1 else
  let k := s.rd (TIM_SLOTn_CFG_kind n)
  let a := s.rd (TIM_SLOTn_CH_ch_a n)
  let b := if k = 1 then s.rd (TIM_SLOTn_CH_ch_b n) else a
  let fl := b2n (k = 1 && value = 0) + 2 * b2n (k = 1 && decide (value < 0)) + 4 * b2n sres + 8 * b2n sus
  let v := unle (ivlBytes k fl a b n t0 cnt value)
  s1.recPace n t ⟨t, s.grid.posOf t, n, 0, s0, v, t0, sres, sus, 64, false⟩ ends

/-- Writes the records that wait and are due: each is a record of the capture, counted for its slot (R257, R260). -/
def State.timWrite (due : Nat × RUnit → Bool) (s : State) : State :=
  let l := s.tim.wait.filter fun p => due (p.1, p.2.2)
  l.foldl (fun s p => (s.bump (TIM_SLOTn_CNT_count p.2.1)).addUnit p.2.2)
    { s with tim := { s.tim with wait := s.tim.wait.filter (fun p => !due (p.1, p.2.2)), busy := s.tim.busy.filter fun b => s.tmb.kt < b.1 } }

/-- The tiles whose intervals of their own DLL count for channel code `c`; a GATE input has none. -/
def tileOf (c : Nat) : Nat := if c < 1024 then c / 256 else 4

/-! ### Gates (R264) -/

/-- The edges of GATE input g so far, newest first. -/
def State.gateEdges (s : State) (g : Nat) : List Stamp := (look s.tim.gates g).getD []

/-- The level of GATE input g at `t`: after its last edge at or before `t`, or as at the end of ARMING. -/
def State.gateLevel (s : State) (g t : Nat) : Bool :=
  match (s.gateEdges g).find? fun e => e.t ≤ t with
  | some e => e.up
  | none => bit s.tim.gate0 g

/-- The selected edge of gmode: into the selected level for a level gate, the named edge for an edge gate. -/
def gateSel (gmode : Nat) (up : Bool) : Bool := if gmode = 0 ∨ gmode = 2 then up else !up

/-- Whether a measurement of kind 1 to 3 that starts at `t0` counts, and the slot with its gate edge followed: of an edge gate, the last
selected edge at or before the start. -/
def State.gateCounts (s : State) (n t0 : Nat) : Bool × Slot :=
  let x := s.slot n
  let g := s.rd (TIM_SLOTn_GATE_gsrc n)
  let m := s.rd (TIM_SLOTn_GATE_gmode n)
  let arg := s.rd (TIM_SLOTn_GATE_arg n)
  if g = 0 then (true, x)
  else if m < 2 then (s.gateLevel (g - 1) t0 = gateSel m true, x)
  else match (s.gateEdges (g - 1)).find? fun e => gateSel m e.up && decide (e.t ≤ t0) with
    | none => (false, x)
    | some e =>
      let x1 := if x.gEdge = some e.t then x else { x with gEdge := some e.t, taken := 0 }
      if arg = 0 ∨ x1.taken < arg then (true, { x1 with taken := x1.taken + 1 }) else (false, x1)

/-- A completed measurement of kind 1 to 3 of slot n, from stamps a to b; `t` its completion. DESIGN CHOICE (log entry 51): safe. -/
def State.timMeasure (s : State) (n : Nat) (a b : Stamp) : State :=
  let v : Int := (b.t : Int) - a.t
  let (ok, x) := s.gateCounts n a.t
  let s1 := s.setSlot n x
  let ca := s.rd (TIM_SLOTn_CH_ch_a n)
  let cb := if s.rd (TIM_SLOTn_CFG_kind n) = 1 then s.rd (TIM_SLOTn_CH_ch_b n) else ca
  if ok then s1.timRecord n (max a.t b.t) a.t 0 v a.sres (a.sres || b.sres) (s.susAt (tileOf ca) a.t || s.susAt (tileOf cb) b.t)
      [(ca, a), (cb, b)] else s1

/-! ### Pairing (R265, R266) and the other kinds -/

/-- SIGNED pairing, while both lists hold a stamp (R265). -/
def State.signedPair (n : Nat) : Nat → State → State
  | 0, s => s
  | fuel + 1, s =>
    let x := s.slot n
    match x.starts, x.stops with
    | a :: r, b :: q =>
      let v : Int := (b.t : Int) - a.t
      let rg := s.rd (TIM_SLOTn_RANGE_range n)
      if rg ≠ 0 ∧ rg ≤ v.natAbs then
        State.signedPair n fuel
          ((s.setSlot n (if a.t ≤ b.t then { x with starts := r } else { x with stops := q })).timDiscard 1)
      else State.signedPair n fuel ((s.setSlot n { x with starts := r, stops := q }).timMeasure n a b)
    | _, _ => s

/-- A start under PAIR_FORWARD (R266). -/
def State.fwdStart (s : State) (n : Nat) (e : Stamp) : State :=
  let x := s.slot n
  let s1 := s.setSlot n { x with starts := [e] }
  if x.starts.isEmpty then s1 else s1.addSat TIM_RESTART_count 1

/-- A stop under PAIR_FORWARD; one before the pending start is early (R266). -/
def State.fwdStop (s : State) (n : Nat) (e : Stamp) : State :=
  let x := s.slot n
  let rg := s.rd (TIM_SLOTn_RANGE_range n)
  match x.starts with
  | [] => s.timDiscard 1
  | a :: _ =>
    if e.t < a.t then s.timDiscard 1 else
    let s1 := s.setSlot n { x with starts := [] }
    if rg = 0 ∨ e.t - a.t < rg then s1.timMeasure n a e else s1.timDiscard 2

/-- A measurement of kind 2 or 3: dropped when its value reaches the range (R258). -/
def State.spanMeasure (s : State) (n : Nat) (a e : Stamp) : State :=
  let rg := s.rd (TIM_SLOTn_RANGE_range n)
  if rg ≠ 0 ∧ rg ≤ e.t - a.t then s.timDiscard 1 else s.timMeasure n a e

/-- Kind 2: a selected edge ends one period and starts the next. -/
def State.periodEdge (s : State) (n : Nat) (e : Stamp) : State :=
  let x := s.slot n
  let s1 := s.setSlot n { x with starts := [e] }
  match x.starts with
  | [] => s1
  | a :: _ => s1.spanMeasure n a e

/-- Kind 3: an edge ends a pulse of the other level and may start one. -/
def State.widthEdge (s : State) (n : Nat) (e : Stamp) : State :=
  let x := s.slot n
  let lead := edgeSel (s.rd (TIM_SLOTn_CFG_edge_a n)) e.up
  let s1 := s.setSlot n { x with starts := if lead then [e] else [] }
  match x.starts with
  | [] => s1
  | a :: _ => if a.up = e.up then s1 else s1.spanMeasure n a e

/-- Some instant of [a, b) of channel code `c` lies in a CLOCK_SUSPECT interval (R268). -/
def State.susGate (s : State) (c a b : Nat) : Bool :=
  s.clk.susLog.any fun e => susHits (tileOf c) e.1 && decide (e.2.1 < b) && (match e.2.2 with
    | some u => decide (a < u)
    | none => true)

/-- Closes the open gate of kind-4 slot n at `t`, and opens the next there or not; an edge exactly at `t` belongs to the later gate
(R264). The start time of a gate without an edge is not stated: a free value. -/
def State.gateClose (s : State) (n t : Nat) (next : Option Nat) : State :=
  let x := s.slot n
  let s1 := s.setSlot n { x with gateAt := next, first := none, lastE := none, n := 0, bad := false, dec := if x.gateAt.isSome then 0 else x.dec }
  match x.gateAt with
  | none => s1
  | some g =>
    if x.bad then s1 else
    let c := s.rd (TIM_SLOTn_CH_ch_a n)
    let sus := s.susGate c g t
    match x.first, x.lastE with
    | some f, some l =>
      if 2 ≤ x.n then s1.timRecord n t f.t x.n ((l.t : Int) - f.t) f.sres (f.sres || l.sres) sus [(c, f), (c, l)]
      else s1.timRecord n t f.t 1 0 f.sres f.sres sus [(c, f)]
    | _, _ => (s1.draw 1).2.timRecord n t (Config.freeValue s.free % 2 ^ 72) 0 0 false false sus []

/-- Length of the timed gates of slot n (R264). -/
def State.gateLen (s : State) (n : Nat) : Nat := s.rd (TIM_SLOTn_GATE_arg n) * usF

/-- Closes every timed gate of slot n that has ended by `t`. -/
def State.timedClose (n t : Nat) : Nat → State → State
  | 0, s => s
  | fuel + 1, s =>
    match (s.slot n).gateAt with
    | some g => if g + s.gateLen n ≤ t then State.timedClose n t fuel (s.gateClose n (g + s.gateLen n) (some (g + s.gateLen n)))
        else s
    | none => s

/-- Kind 4: counts a selected edge in the open gate. -/
def State.gateEdgeIn (s : State) (n : Nat) (e : Stamp) : State :=
  let s := if s.rd (TIM_SLOTn_GATE_gsrc n) = 7 then
      match (s.slot n).gateAt with
      | some g => State.timedClose n e.t ((e.t - g) / max 1 (s.gateLen n) + 1) s
      | none => s
    else s
  let x := s.slot n
  match x.gateAt with
  | some g =>
    if g ≤ e.t then
      s.setSlot n { x with first := some (x.first.getD e), lastE := some e, n := x.n + 1 }
    else s
  | none => s

/-- The stamp of channel code `c` is a start of slot n, of kind 1. -/
def State.isStart (s : State) (n c : Nat) (e : Stamp) : Bool :=
  s.rd (TIM_SLOTn_CH_ch_a n) = c && edgeSel (s.rd (TIM_SLOTn_CFG_edge_a n)) e.up

/-- What slot n does with a stamp of channel code `c`. -/
def State.slotEdge (n : Nat) (s : State) (ce : Nat × Stamp) : State :=
  let (c, e) := ce
  if !s.slotSel n c e.up || s.slotHeld n e.t then s else
  let x := s.slot n
  match s.rd (TIM_SLOTn_CFG_kind n) with
  | 1 =>
    let st := s.isStart n c e
    if s.on (TIM_SLOTn_CFG_policy n) then (if st then s.fwdStart n e else s.fwdStop n e)
    else
      let x1 := if st then { x with starts := x.starts ++ [e] } else { x with stops := x.stops ++ [e] }
      State.signedPair n (x1.starts.length + x1.stops.length) (s.setSlot n x1)
  | 2 => s.periodEdge n e
  | 3 => s.widthEdge n e
  | 4 => s.gateEdgeIn n e
  | _ => s

/-! ### Queues (R259 to R262) -/

/-- Stamps of the channel code that slot n has not consumed: under SIGNED, its lists; in the other policies and kinds a stamp is
consumed as it comes. -/
def State.slotHolds (s : State) (n c : Nat) : List Stamp :=
  let x := s.slot n
  if s.slotOn n && s.rd (TIM_SLOTn_CFG_kind n) = 1 && !s.on (TIM_SLOTn_CFG_policy n) then
    (if s.rd (TIM_SLOTn_CH_ch_a n) = c then x.starts else []) ++ (if s.rd (TIM_SLOTn_CH_ch_b n) = c then x.stops else [])
  else []

/-- Insertion of a stamp by time, without repeats. -/
def insStamp (e : Stamp) : List Stamp → List Stamp
  | [] => [e]
  | x :: r => if e.key < x.key then e :: x :: r else if e.key = x.key then x :: r else x :: insStamp e r

/-- The endpoints in the queue of records that wait to be written (R260). -/
def State.qBusy (s : State) (c : Nat) : List Stamp :=
  (s.tim.busy.filter fun b => decide (s.tmb.kt < b.1) && b.2.1 = c).map (·.2.2)

/-- The entries of the queue not consumed, in order: those that some slot has still to take, and endpoints of records that wait
(R260, R261). -/
def State.qHeld (s : State) (c : Nat) : List Stamp :=
  (((List.range 64).flatMap fun n => s.slotHolds n c) ++ s.qBusy c).foldl (fun l e => insStamp e l) []

/-- Their number. -/
def State.qDepth (s : State) (c : Nat) : Nat := (s.qHeld c).length

/-- The queue of channel code `c`. -/
def State.tq (s : State) (c : Nat) : TQueue := (look s.tim.qs c).getD ⟨0, []⟩

/-- Its entries in the overflow region. -/
def TQueue.spilled (q : TQueue) : Nat := (q.chunks.map (·.2)).sum

/-- `k` entries are consumed, the chunks first (R261). -/
def TQueue.eat : Nat → List (Nat × Nat) → Nat × List (Nat × Nat)
  | k, [] => (k, [])
  | k, (i, n) :: r => if n ≤ k then TQueue.eat (k - n) r else (0, (i, n - k) :: r)

/-- The queue with `d` entries left. -/
def TQueue.to_ (q : TQueue) (d : Nat) : TQueue :=
  let (k, cs) := TQueue.eat (q.near + q.spilled - d) q.chunks
  ⟨q.near - k, cs⟩

/-- Chunks in use: 2,048 entries each. -/
def Tim.chunks (q : Tim) : List Nat := q.qs.flatMap fun p => p.2.chunks.map (·.1)

/-- Chunks of the overflow region. -/
def State.ovfChunks (s : State) : Nat := s.rd TIM_OVF_SIZE_value * 4

/-- Brings the queues in line with what the slots consumed, and the registers that show them. -/
def State.qSync (s : State) : State :=
  let qs := (s.tim.qs.map fun p => (p.1, p.2.to_ (s.qDepth p.1))).filter fun p => decide (p.2 ≠ (⟨0, []⟩ : TQueue))
  let s1 := { s with tim := { s.tim with qs := qs } }
  let used := s1.tim.chunks.length
  let full := decide (s.ovfChunks ≠ 0) && decide (s.ovfChunks ≤ used)
  let s2 := (s1.wr TIM_OVF_USED_chunks used).wr TIM_STAT_ovf_full (b2n full)
  if full && !s.on TIM_STAT_ovf_full then s2.orF TIM_EVT_ovf_full 1 else s2

/-- The 8 bytes of a queue entry (R259). -/
def stampBytes (e : Stamp) : List Byte := le 8 (e.t % 2 ^ 56 + 2 ^ 56 * b2n e.up + 2 ^ 57 * b2n e.sres + 2 ^ 58 * b2n e.sus)

/-- Moves the oldest 2,048 entries of a full queue into a free chunk of the overflow region, if there is one (R261). -/
def State.qMove (s : State) (c : Nat) : State :=
  let q := s.tq c
  match (List.range s.ovfChunks).find? fun i => !s.tim.chunks.contains i with
  | some i =>
    if 4096 ≤ q.near then
      let es := ((s.qHeld c).drop q.spilled).take 2048
      let s1 := s.deepPut (s.rd TIM_OVF_BASE_value % 2 ^ 21 * 65536 + 16384 * i) (es.flatMap stampBytes)
      ({ s1 with tim := { s1.tim with qs := ins s1.tim.qs c ⟨q.near - 2048, q.chunks ++ [(i, 2048)]⟩ } }).qSync
    else s
  | none => s

/-- Drops the pending partial measurements of slot n at `t` without counting them (R267); a gate open then gives no record. -/
def State.slotDrop (t : Nat) (s : State) (n : Nat) : State :=
  let x := s.slot n
  let open_ := match x.gateAt with
    | some g => decide (g ≤ t)
    | none => false
  s.setSlot n { x with starts := [], stops := [], first := none, lastE := none, n := 0, bad := x.bad || open_ }

/-- Drops the pending measurements of every slot at `t` (gating or loss episode, R267). -/
def State.timDrop (t : Nat) (s : State) : State := (((List.range 64).filter s.slotOn).foldl (State.slotDrop t) s).qSync

/-! ### Loss episodes (R262) -/

/-- The episode meets the span of a segment: the open one, or a closed one. -/
def State.inSpan (s : State) (a b : Nat) : Bool :=
  (match s.acq.seg with
    | some g => decide (g.fillKt < b)
    | none => false)
    || s.acq.spans.any fun g => decide (g.t0 < b) && decide (a < g.t1)

/-- The GAP record of an episode of a tile that ends at `b`, of which the mode is that of the M5 half; the records that wait come before
it. -/
def State.lossGap (s : State) (key b : Nat) (l : Loss) : State :=
  if !s.inSpan l.first b then s else
  let r := { s.gapRec l.first b 1 (if key = 4 then 1 else 2 ^ key) s.segNo l.n (s.unitN + s.tim.wait.length) l.sres with mode := 5 }
  let s1 := s.event r
  let seg := s1.acq.seg.map fun (g : Seg) => { g with gapN := g.gapN + 1 }
  (({ s1 with acq := { s1.acq with seg := seg } }).addSat ACQ_GAP_CNT_count 1).orF ACQ_EVT_gap 1

/-- The episode of a tile is over where 1 µs has passed by `t` without a loss. -/
def State.lossOver (t : Nat) (s : State) (key : Nat) : State :=
  match look s.tim.loss key with
  | some l => if l.last + usF ≤ t then
      { s with tim := { s.tim with loss := del s.tim.loss key, ended := s.tim.ended ++ [(key, l)] } } else s
  | none => s

/-- A timestamp at `t` is queued: it is the first after the episodes that wait for one. -/
def State.lossNext (s : State) (key t : Nat) : State :=
  let s0 := s.lossOver t key
  match s0.tim.ended.filter fun e => e.1 = key with
  | [] => s0
  | l =>
    let s1 := { s0 with tim := { s0.tim with ended := s0.tim.ended.filter (fun e => e.1 ≠ key), after := ins s0.tim.after key t } }
    l.foldl (fun s e => s.lossGap key t e.2) s1

/-- At a stop or close at `t` beyond which nothing is measured: episodes still open or waiting reach to the end of the span. -/
def State.lossStop (t : Nat) (s : State) : State :=
  let l := s.tim.ended ++ s.tim.loss
  (l.filter fun e => decide (e.2.first < t)).foldl (fun s e => s.lossGap e.1 t e.2) { s with tim := { s.tim with ended := [], loss := [] } }

/-- A timestamp of the key is lost (R262); at the first loss of an episode every slot drops what it has pending (R267).
DEDUCED (log entry 111): unsafe. -/
def State.timLose (s : State) (key : Nat) (e : Stamp) : State :=
  let t := e.t
  let s1 := ((s.lossOver t key).addF TIM_QLOST 1).orF TIM_EVT_qloss 1
  match look s1.tim.loss key with
  | some l => { s1 with tim := { s1.tim with loss := ins s1.tim.loss key { l with last := t, n := l.n + 1 } } }
  | none => (State.timDrop t { s1 with tim := { s1.tim with loss := ins s1.tim.loss key ⟨t, t, 1, e.sres⟩ } })

/-- Notes a queued timestamp in the rate window of its tile. -/
def State.timNote (s : State) (key t : Nat) : State :=
  let rec_ := t :: ((look s.tim.recent key).getD []).filter (fun u => t < u + usF)
  { s.lossNext key t with tim := { (s.lossNext key t).tim with recent := if key = 4 then s.tim.recent else ins s.tim.recent key rec_ } }

/-- Byte offset of a channel's queue in near memory: tile 0 on, or tile 8 on in a composite mode (R13, R14, R33). -/
def State.queueAt (s : State) (c : Nat) : Nat := if s.comp then 8 * 2 ^ 24 + 32768 * (c - 256) else 32768 * c

/-- Stores the entry of a queued timestamp in its ring of 4,096 entries (R259); the unit reads it with the errors of its word (R275). -/
def State.queuePut (s : State) (c : Nat) (e : Stamp) : State :=
  let n := (look s.tim.qn c).getD 0
  let q := s.tq c
  let s1 := { s with tim := { s.tim with qn := ins s.tim.qn c (n + 1), qs := ins s.tim.qs c { q with near := q.near + 1 } } }
  if 1024 ≤ c then s1 else
  let a := s.queueAt c + 8 * (n % 4096)
  ({ s1 with near := s1.near.write a (stampBytes e) }).cellRead 0 a 8

/-- The deepest queue (R261). -/
def State.qMax (s : State) (c d : Nat) : State :=
  if s.rd TIM_QMAX_depth < d then (s.wr TIM_QMAX_depth (min d (2 ^ 20 - 1))).wr TIM_QMAX_ch c else s

/-- The stamp of channel code `c` is queued: true, or it is lost, or no slot selects it. DESIGN CHOICE (log entry 50): unsafe. -/
def State.timQueue (s : State) (c : Nat) (e : Stamp) : State × Bool :=
  if !(List.range 64).any (fun n => s.slotSel n c e.up) then (s, false) else
  let key := qKey c
  let recent := ((look s.tim.recent key).getD []).filter fun u => e.t < u + usF
  let s := s.qSync.qMove c
  if (key ≠ 4 ∧ 2000 ≤ recent.length) ∨ 4096 ≤ (s.tq c).near then (s.timLose key e, false) else
  let s1 := (s.timNote key e.t).queuePut c e
  (s1.qMax c ((s1.tq c).near + (s1.tq c).spilled), true)

/-- Stamps of one time: each goes into its queue, then every slot takes them, starts before stops (R266). -/
def State.timEdges (s : State) (l : List (Nat × Stamp)) : State :=
  if !s.on TIM_STAT_running || l.isEmpty then s else
  let (s1, q) := l.foldl (fun (p : State × List (Nat × Stamp)) ce =>
    let (s, ok) := p.1.timQueue ce.1 ce.2
    (s, if ok then p.2 ++ [ce] else p.2)) (s, [])
  let s2 := (List.range 64).foldl (fun s n =>
    (q.filter (fun ce => !s.isStart n ce.1 ce.2)).foldl (State.slotEdge n) ((q.filter fun ce => s.isStart n ce.1 ce.2).foldl (State.slotEdge n) s)) s1
  q.foldl (fun s ce => s.qMove ce.1) s2.qSync

/-! ### Start and stop -/

/-- At arm: the counters start again, and bad slots are found (R256). -/
def State.timArm (s : State) : State :=
  let bad := packBits 64 s.slotBad
  let act := ((List.range 64).filter fun n => s.on (TIM_SLOTn_CFG_en n) && !bit bad n).length
  let s1 := [TIM_QMAX_depth, TIM_QMAX_ch, TIM_DISCARD_count, TIM_RESTART_count, TIM_QLOST, TIM_OVF_USED_chunks,
    TIM_STAT_ovf_full].foldl (fun s f => s.wr f 0) s
  let s2 := (List.range 64).foldl (fun s n => s.wr (TIM_SLOTn_CNT_count n) 0) s1
  if s.timActive then
    let s3 := (s2.wr TIM_BAD bad).wr TIM_STAT_active act
    if bad = 0 then s3 else s3.orF TIM_EVT_badslot 1
  else s2

/-- The first grid point of timed gates of length `G` at or after `t`: multiples of G of KT72 (R264). -/
def gridPoint (G t : Nat) : Nat := t / 2 ^ 72 * 2 ^ 72 + cdiv (t % 2 ^ 72) G * G

/-- The slots at the end of ARMING: timed gates open at the next grid point, level gates where the input has its level. -/
def State.slotStart (s : State) (t n : Nat) : Slot :=
  let g := s.rd (TIM_SLOTn_GATE_gsrc n)
  let m := s.rd (TIM_SLOTn_GATE_gmode n)
  if s.rd (TIM_SLOTn_CFG_kind n) ≠ 4 then Slot.idle
  else if g = 7 then { Slot.idle with gateAt := some (gridPoint (max 1 (s.gateLen n)) t) }
  else if m < 2 ∧ bit s.trl.lvl (4 + (g - 1)) = gateSel m true then { Slot.idle with gateAt := some t }
  else Slot.idle

/-- The unit starts measuring at the end of ARMING (R254). -/
def State.timStart (s : State) (t : Nat) : State :=
  if !s.timActive then s else
  let s1 := s.wr TIM_STAT_running 1
  { s1 with tim := { Tim.new with from_ := t, gate0 := s.trl.lvl / 16,
                                  slots := ((List.range 64).filter s1.slotOn).map fun n => (n, s1.slotStart t n) } }

/-- The stop: partial measurements are dropped (R267). -/
def State.timStop (s : State) : State :=
  { ((s.wr TIM_STAT_running 0).wr TIM_OVF_USED_chunks 0).wr TIM_STAT_ovf_full 0 with tim := Tim.new }

/-! ### A CLOCK_SUSPECT interval that opens back-dated (R131) -/

/-- Channel code `c` lies in the tile, or the interval is of all. -/
def tileHit (tile : Option Nat) (c : Nat) : Bool :=
  match tile with
  | some y => tileOf c = y
  | none => true

/-- The instants that a record unit rests on, each with its channel: the time of a state or edge record; the endpoints of an interval
record of kinds 1 to 3; of a kind-4 record the last instant of its gate, which is open to the right (R216 to R218, R268). -/
def State.unitTimes (s : State) (u : RUnit) : List (Nat × Nat) :=
  if s.mode = 3 then [(64 * u.src, u.t)]
  else if !s.timActive then [(u.ch, u.t)]
  else
    let a := s.rd (TIM_SLOTn_CH_ch_a u.src)
    match s.rd (TIM_SLOTn_CFG_kind u.src) with
    | 1 => [(a, u.t0), (s.rd (TIM_SLOTn_CH_ch_b u.src), ((u.t0 : Int) + sx 64 (u.val / 2 ^ 192)).toNat)]
    | 4 => [(a, u.t - 1)]
    | _ => [(a, u.t)]

/-- The record unit as an interval from `k` on leaves it: suspect when an instant of its at or after `k` lies in it. -/
def State.unitSus (s : State) (k : Nat) (tile : Option Nat) (u : RUnit) : RUnit :=
  if (s.unitTimes u).any fun p => decide (k ≤ p.2) && tileHit tile p.1 then
    { u with sus := true, val := if s.timActive && !bit u.val 11 then u.val + 2 ^ 11 else u.val }
  else u

/-- A stamp of channel code `c`. -/
def Stamp.susFrom (k : Nat) (tile : Option Nat) (c : Nat) (e : Stamp) : Stamp :=
  if k ≤ e.t && tileHit tile c then { e with sus := true } else e

/-- The stamps that slot n holds. -/
def State.slotSus (s : State) (k : Nat) (tile : Option Nat) (p : Nat × Slot) : Nat × Slot :=
  let a := Stamp.susFrom k tile (s.rd (TIM_SLOTn_CH_ch_a p.1))
  let b := Stamp.susFrom k tile (s.rd (TIM_SLOTn_CH_ch_b p.1))
  (p.1, { p.2 with starts := p.2.starts.map a, stops := p.2.stops.map b, first := p.2.first.map a, lastE := p.2.lastE.map a })

/-- The `n` queue entries from byte `a` on: bit 58 of those whose time lies from `k` to the instant `t` (R259). -/
def susEntries (t k a n : Nat) (m : Mem) : Mem :=
  (List.range n).foldl (fun m i =>
    if (t % 2 ^ 56 + 2 ^ 56 - m.num (a + 8 * i) 7) % 2 ^ 56 ≤ t - k then m.write (a + 8 * i + 7) [m.read (a + 8 * i + 7) ||| 4] else m) m

/-- Latest time that stands in a queue: deskew may date a timestamp up to 8 ns ahead. -/
def State.stampMax (s : State) : Nat := s.tmb.kt + 8 * nsF

/-- The entries of the queues of the channels in near memory and in the overflow region. -/
def State.queueSus (s : State) (k : Nat) (tile : Option Nat) : State :=
  let qn := s.tim.qn.filter fun p => decide (p.1 < 1024) && tileHit tile p.1
  let qs := s.tim.qs.filter fun p => decide (p.1 < 1024) && tileHit tile p.1
  let cs := qs.flatMap fun p => p.2.chunks.map (·.1)
  let base := s.rd TIM_OVF_BASE_value % 2 ^ 21 * 65536
  { s with near := qn.foldl (fun m p => susEntries s.stampMax k (s.queueAt p.1) (min p.2 4096) m) s.near,
           deep := cs.foldl (fun m i => susEntries s.stampMax k (base + 16384 * i) 2048 m) s.deep }

/-- An interval from `k` on marks the record units, those of the interval unit that wait, and the timestamps queued (R131, R259). -/
def State.timSuspect (s : State) (k : Nat) (tile : Option Nat) : State :=
  let q := s.tim
  let s1 := { s with
    acq := { s.acq with units := s.acq.units.map (s.unitSus k tile) }
    tim := { q with slots := q.slots.map (s.slotSus k tile),
                    gates := q.gates.map fun p => (p.1, p.2.map (Stamp.susFrom k tile (1024 + p.1))),
                    busy := q.busy.map fun p => (p.1, p.2.1, p.2.2.susFrom k tile p.2.1),
                    wait := q.wait.map fun p => (p.1, p.2.1, s.unitSus k tile p.2.2) } }
  if s.on TIM_STAT_running then s1.queueSus k tile else s1

/-- An edge on GATE input g as a gate: level and edge gates of the slots, and the restart of decimation (R257, R264). -/
def State.gateInput (s : State) (g : Nat) (e : Stamp) : State :=
  if !s.on TIM_STAT_running then s else
  let s1 := { s with tim := { s.tim with gates := ins s.tim.gates g (e :: s.gateEdges g) } }
  ((List.range 64).filter fun n => s.slotOn n && s.rd (TIM_SLOTn_GATE_gsrc n) = g + 1).foldl (fun s n =>
    let m := s.rd (TIM_SLOTn_GATE_gmode n)
    let sel := gateSel m e.up
    if s.rd (TIM_SLOTn_CFG_kind n) = 4 then
      if sel then s.gateClose n e.t (some e.t)
      else if m < 2 then s.gateClose n e.t none else s
    else if sel then s.setSlot n { s.slot n with dec := 0 } else s) s1

/-! ### What the unit has seen -/

/-- A channel's edge as the queues hold it. -/
def State.stampOf (s : State) (e : HeldE) : Nat × Stamp := (e.ch, ⟨e.t, e.up, e.sres, s.susAt (tileOf e.ch) e.t⟩)

/-- Edges of one time, and ends of timed gates then, reach the unit: the gates first, since an edge exactly at a boundary belongs to
the later gate (R264). -/
def State.timAt (s : State) (t : Nat) (es : List HeldE) : State :=
  let s1 := (es.filter fun e => decide (2048 ≤ e.ch)).foldl (fun s e => State.timedClose (e.ch - 2048) t 1 s) s
  let s2 := (es.filter fun e => isGate e.ch).foldl (fun s e => s.gateInput (e.ch - 1024) (s.stampOf e).2) s1
  s2.timEdges ((es.filter fun e => decide (e.ch < 2048)).map s2.stampOf)

/-- What the unit holds from before `t` reaches it, in order of time. -/
def State.timTo (t : Nat) : Nat → State → State
  | 0, s => s
  | fuel + 1, s =>
    match s.tim.hold with
    | [] => s
    | e :: _ =>
      if t ≤ e.t then s else
      let now := s.tim.hold.filter fun x => x.t = e.t
      State.timTo t fuel (({ s with tim := { s.tim with hold := s.tim.hold.filter fun x => x.t ≠ e.t } }).timAt e.t now)

/-- Edges that the unit has still to see. -/
def State.timHold (s : State) (es : List HeldE) : State :=
  if s.on TIM_STAT_running then { s with tim := { s.tim with hold := es.foldl (fun l e => insHeld e l) s.tim.hold } } else s

/-- The unit has seen what came before `t`, and the records that are due by now have been written. -/
def State.timSeen (t : Nat) (s : State) : State :=
  if s.on TIM_STAT_running then (State.timTo t s.tim.hold.length s).timWrite (fun p => decide (p.1 ≤ s.tmb.kt)) else s

/-- The same where nothing more is to come before `t`: the records completed before it are written too. -/
def State.timAll (t : Nat) (s : State) : State :=
  if s.on TIM_STAT_running then (State.timTo t s.tim.hold.length s).timWrite (fun p => decide (p.2.t < t)) else s

/-- Discards the stamps of slot n that are 2^55 F old or older at `t` (R263). -/
def State.slotStale (n t : Nat) (s : State) : State :=
  let x := s.slot n
  let young := fun (e : Stamp) => decide (t < e.t + 2 ^ 55)
  let x1 := { x with starts := x.starts.filter young, stops := x.stops.filter young }
  ((s.setSlot n x1).timDiscard (x.starts.length + x.stops.length - x1.starts.length - x1.stops.length)).qSync

end Sys2Proof.Machine
end

