-- ==== Sys2Proof/Machine/Sieve.lean ====
section
/-! DEFINITION. Sieve (R236 to R253): its sequences and blocks, lanes and reservations, the region, and the decoder of the
token grammar, which says which streams are valid. -/

namespace Sys2Proof.Machine

/-! ### The token grammar (R243 to R246) -/

/-- Appends, n times, the byte that lies `d` bytes before the end of the output (R244). -/
def copyBytes (d : Nat) : Nat → List Byte → List Byte
  | 0, out => out
  | n + 1, out => copyBytes d n (out ++ [out.getD (out.length - d) 0])

/-- The decoder of R246 over the rest of the stored bytes; `lvl1` allows no MATCH (R244); at most `fuel` tokens. -/
def sieveTokens (orig : Nat) (lvl1 : Bool) : Nat → List Byte → List Byte → Option (List Byte)
  | 0, _, _ => none
  | _ + 1, [], _ => none
  | fuel + 1, t :: r, out =>
    let T := t.toNat
    if T = 0 then (if r.isEmpty then some out else none)
    else if T < 0x40 then
      let long := decide (T = 0x3F)
      let n := if long then 63 + field r 0 2 else T
      let q := if long then r.drop 2 else r
      if (long && decide (r.length < 2)) || decide (q.length < n) || decide (orig < out.length + n) then none
      else sieveTokens orig lvl1 fuel (q.drop n) (out ++ q.take n)
    else if T < 0x80 then
      let long := decide (T = 0x7F)
      let n := if long then 64 + field r 0 2 else T - 0x3F
      if (long && decide (r.length < 2)) || decide (out.length < 8) || decide (orig < out.length + 8 * n) then none
      else sieveTokens orig lvl1 fuel (if long then r.drop 2 else r) (copyBytes 8 (8 * n) out)
    else
      let long := decide (0xC0 ≤ T)
      let n := if long then T % 64 * 256 + field r 0 1 + 68 else T % 64 + 4
      let q := if long then r.drop 1 else r
      let d := field q 0 2 + 1
      if lvl1 || (long && r.isEmpty) || decide (q.length < 2) || decide (out.length < d) || decide (orig < out.length + n) then none
      else sieveTokens orig lvl1 fuel (q.drop 2) (copyBytes d n out)

/-- The decoder of a block: stored bytes to original bytes, or rejection (R245, R246). -/
def sieveDecode (orig crc : Nat) (raw lvl1 : Bool) (stored : List Byte) : Option (List Byte) :=
  let out := if raw then some stored else sieveTokens orig lvl1 (stored.length + 1) stored []
  match out with
  | some o => if o.length = orig ∧ crc32c o = crc then some o else none
  | none => none

/-! ### Lanes, tiles and the region -/

/-- Lane `l` is enabled. -/
def State.laneEn (s : State) (l : Nat) : Bool := s.on (SIV_LANEl_CFG_en l)

/-- The tile is populated and in M1 (R237). -/
def State.sivTile (s : State) (tile : Nat) : Bool := decide (tile < s.nTiles) && decide (s.tileMode tile = 1)

/-- SIV_IDLE: lanes enabled but idle (R237). -/
def State.sivIdle (s : State) : Nat :=
  packBits 32 fun l => s.laneEn l && !s.sivTile (s.rd (SIV_LANEl_CFG_tile l))

/-- The enabled lanes that serve the tile. -/
def State.tileLanes (s : State) (tile : Nat) : List Nat :=
  (List.range 32).filter fun l => s.laneEn l && decide (s.rd (SIV_LANEl_CFG_tile l) = tile)

/-- Throughput of a level in GB/s (R240). -/
def laneRate (level : Nat) : Nat := if level ≤ 3 then 32 else if level ≤ 5 then 10 else 4

/-- L_t of R251. -/
def State.sivL (s : State) (tile : Nat) : Nat :=
  if s.sivTile tile then ((s.tileLanes tile).map fun l => laneRate (s.rd (SIV_LANEl_CFG_level l))).sum else 0

/-- Sieve runs in the mode in effect (R236). -/
def State.sivActive (s : State) : Bool := s.on SIV_CFG_en && decide (s.tileMode 0 = 1)

/-- The tile's sequence is compressed. -/
def State.sivServes (s : State) (tile : Nat) : Bool := s.sivActive && s.sivTile tile && !(s.tileLanes tile).isEmpty

/-- Lanes that hold a block. -/
def State.sivBusy (s : State) : Nat := (s.siv.blks.filter fun (b : SBlk) => b.lane.isSome).length

/-- Sets the hidden state and the busy count. -/
def State.setSiv (s : State) (q : Siv) : State :=
  ({ s with siv := q }).wr SIV_STAT_busy (q.blks.filter fun (b : SBlk) => b.lane.isSome).length

/-- Starts a new sequence on every tile at the first whole period from position `p` (R238). -/
def State.sivSeq (s : State) (p : Nat) : State :=
  if !s.sivActive then s else
  let l := ((List.range 4).filter s.sivServes).map fun t => (t, cdiv p 8 * 8)
  (s.setSiv { s.siv with nextPos := l }).wr SIV_STAT_running 1

/-- A block cut to the whole periods before position `p`. -/
def SBlk.cut (b : SBlk) (p : Nat) : SBlk := { b with n := min b.n ((p - b.pos) / 8) }

/-- At arm (R253) the counters, the pointer and the sequence number start again. -/
def State.sivArm (s : State) : State :=
  [SIV_BLK, SIV_RAW, SIV_PASS, SIV_IN, SIV_OUT, SIV_WPTR_ptr, SIV_STAT_full].foldl (fun s f => s.wr f 0)
    (s.setSiv Siv.new)

/-- Units of the region. -/
def State.sivUnits (s : State) : Nat := s.rd SIV_SIZE_value * 1024

/-- Stores bytes at a unit of the region. -/
def State.sivPut (s : State) (u : Nat) (bs : List Byte) : State :=
  s.deepPut (s.rd SIV_BASE_value % 2 ^ 21 * 65536 + 64 * u) bs

/-- Where the next completed record goes: behind the records written, before the space still reserved. -/
def State.sivEnd (s : State) : Nat :=
  match s.siv.pre with
  | some (w, m) => w - 1025 * m
  | none => s.rd SIV_WPTR_ptr - 1025 * s.sivBusy

/-- A PAD fills the region from unit `w` to its end (R249). -/
def State.sivPad (s : State) (w : Nat) : State :=
  let n := s.sivUnits - w
  if n = 0 then s else
  let s1 := (s.deepPad (s.rd SIV_BASE_value % 2 ^ 21 * 65536 + 64 * w) s.siv.seq n).wrote 2 s.sivUnits n
  s1.setSiv { s1.siv with seq := (s.siv.seq + 1) % 256 }

/-- The pointer returns to the base (R249). A PAD fills the rest, as soon as the reservations made before it are used. -/
def State.sivWrap (s : State) : State :=
  let w := s.rd SIV_WPTR_ptr
  if s.sivBusy = 0 then (s.sivPad w).wr SIV_WPTR_ptr 0
  else (s.setSiv { s.siv with pre := some (w, s.sivBusy) }).wr SIV_WPTR_ptr 0

/-- A completed record of `n` units takes its place: the unused part of a reservation returns (R247). -/
def State.sivTaken (s : State) (n : Nat) : State :=
  match s.siv.pre with
  | some (w, m) =>
    let w1 := w - 1025 + n
    if m ≤ 1 then (s.setSiv { s.siv with pre := none }).sivPad w1 else s.setSiv { s.siv with pre := some (w1, m - 1) }
  | none => s.wr SIV_WPTR_ptr (s.rd SIV_WPTR_ptr - 1025 + n)

/-- Ends every tile's sequence at position `p` (stop, storage stall or gating; R238): a block with no whole period left is none, and its
reservation returns (R247). -/
def State.sivCut (s : State) (p : Nat) : State :=
  let bs := s.siv.blks.map (·.cut p)
  let gone := bs.filter fun b => b.n = 0 && b.lane.isSome
  gone.foldl (fun s _ => s.sivTaken 0) (s.setSiv { s.siv with nextPos := [], blks := bs.filter fun b => b.n ≠ 0 })

/-- The stop of R250: the sequences end and Sieve no longer reads the ring. -/
def State.sivStop (s : State) (p : Nat) : State := (s.sivCut p).wr SIV_STAT_running 0

/-- The orderly loss sequence stops Sieve: what its lanes hold is not written (R398). -/
def State.sivHalt (s : State) : State := (s.setSiv { s.siv with nextPos := [], blks := [] }).wr SIV_STAT_running 0

/-- 1,025 units are free at the pointer, with the reservations before a wrap left alone. -/
def State.sivRoom (s : State) : Bool :=
  decide (s.rd SIV_WPTR_ptr + 1025 ≤ (match s.siv.pre with
    | some _ => s.sivEnd
    | none => s.sivUnits))

/-- Segment whose span holds `pos` (R239): P positions before the trigger to Q after it; without a trigger, the pre-fill as it stands, or
before the violation whose tail runs. A tail ends the span (R196). -/
def State.spanOf (s : State) (pos : Nat) : Nat :=
  match s.acq.spans.find? (fun g => decide (g.a ≤ pos) && decide (pos < g.b)) with
  | some g => g.idx
  | none => match s.acq.seg with
    | some g =>
      let k := if g.cont then g.fillPos
        else if g.trig.isSome then max g.fillPos (g.trigPos - s.acqP)
        else if s.acqSt = 3 then max g.fillPos ((s.hdg.tail.map fun e => e - s.rd HDG_TAIL_value - 1).getD s.nowPos - s.acqP) else g.fillPos
      let inEnd := match s.hdg.tail with
        | some e => decide (pos < e)
        | none => g.trig.isNone || decide (pos < g.trigPos + s.acqQ)
      if k ≤ pos && inEnd then g.idx else noSeg
    | none => noSeg

/-- The oldest block of the tile without a lane. -/
def State.sivWaiting (s : State) (tile : Nat) : Option SBlk :=
  s.siv.blks.find? fun b => b.tile = tile && b.lane.isNone

/-- The lowest-numbered free enabled lane of the tile. -/
def State.sivFreeLane (s : State) (tile : Nat) : Option Nat :=
  (s.tileLanes tile).find? fun l => s.siv.blks.all fun b => b.lane ≠ some l

/-- The original bytes of a block (R238). -/
def State.sivInput (s : State) (b : SBlk) : List Byte :=
  (List.range b.n).flatMap fun i => s.acq.period false b.tile b.pos (b.pos + 8 * b.n) (b.pos / 8 + i)

/-- Bytes 16 to 63 of the record: the block header (R241) and the rest of the envelope (R219). -/
def sieveEnvelope (raw : Bool) (level orig stored crc pos tile lane seg : Nat) : List Byte :=
  le 1 0x5E ++ le 1 (b2n raw + 2 * level) ++ le 2 0 ++ le 4 orig ++ le 4 stored ++ le 4 crc
    ++ le 8 pos ++ le 1 tile ++ le 1 lane ++ le 2 0 ++ le 4 seg ++ le 16 0

/-! ### The commands -/

/-- SIEVE_BLOCK_OFFER (R247): the block's first period is in the ring by `t`. -/
def State.sieveOffer (tile t : Nat) (s : State) : State :=
  let s := s.advance t
  match look s.siv.nextPos tile with
  | none => s
  | some p =>
    if s.grid.run && decide (s.grid.start (p + 8) ≤ t) then
      let b : SBlk := ⟨tile, p, s.grid.start p, 256, t, none⟩
      s.setSiv { s.siv with nextPos := ins s.siv.nextPos tile (p + 2048), blks := s.siv.blks ++ [b] }
    else s

/-- SIEVE_RESERVATION (R247, R249): a free lane and 1,025 units for the tile's oldest waiting block. -/
def State.sieveReserve (tile t : Nat) (s : State) : State :=
  let s := s.advance t
  match s.sivWaiting tile, s.sivFreeLane tile with
  | some b, some l =>
    if s.on SIV_STAT_full || decide (b.at_ + 2 * usF < t) then s else
    let grant := fun (s : State) =>
      (s.setSiv { s.siv with blks := s.siv.blks.map fun x => if x = b then { b with lane := some l } else x }).addF
        SIV_WPTR_ptr 1025
    if s.sivRoom then grant s
    else if s.on SIV_CFG_wrap then
      if s.siv.pre.isNone && s.sivWrap.sivRoom then grant s.sivWrap else s
    else (s.wr SIV_STAT_full 1).orF SIV_EVT_full 1
  | _, _ => s

/-- SIEVE_PASS_THROUGH (R248): 2 µs without both parts of the reservation. -/
def State.sievePass (tile t : Nat) (s : State) : State :=
  let s := s.advance t
  match s.sivWaiting tile with
  | none => s
  | some b =>
    if b.at_ + 2 * usF ≤ t then
      ((s.setSiv { s.siv with blks := s.siv.blks.filter (· ≠ b) }).bump SIV_PASS).orF SIV_EVT_pass 1
    else s

/-- What the lane stores: the token stream if it is valid and shorter than the original, else the original bytes (R242). -/
def sieveStored (level : Nat) (input stream : List Byte) : Bool × List Byte :=
  if level ≠ 0 ∧ stream.length < input.length
      ∧ sieveDecode input.length (crc32c input) false (level = 1) stream = some input then (false, stream) else (true, input)

/-- SIEVE_BLOCK_WRITE (R247, R249): the lane has the whole block and what its encoder made of it (R240). A block with a poisoned
access passes through (R248, R276), and its reservation returns; a record is written when its lane is granted (R293).
DESIGN CHOICE (log entry 52): safe. -/
def State.sieveWrite (lane wait t : Nat) (s : State) : State :=
  let s := s.advance t
  match s.siv.blks.find? (fun b => b.lane = some lane) with
  | none => s
  | some b =>
    let running := (look s.siv.nextPos b.tile).isSome
    if running && decide (t < s.grid.start (b.pos + 8 * b.n)) then s else
    let gone := s.siv.blks.filter (· ≠ b)
    if s.ringBad b.tile (b.pos / 8) (b.pos / 8 + b.n) ≠ [] then
      ((((s.setSiv { s.siv with blks := gone }).sivTaken 0).bump SIV_PASS).orF SIV_EVT_pass 1)
    else
    let level := s.rd (SIV_LANEl_CFG_level lane)
    let input := s.sivInput b
    let (raw, stored) := sieveStored level input (Config.sieveStream s.build.coreVer level input)
    let r : Rec := ⟨0x07, flags (s.susTile b.tile b.pos (b.pos + 8 * b.n)) false false true, 1, b.kt,
      sieveEnvelope raw level input.length stored.length (crc32c input) b.pos b.tile lane (s.spanOf b.pos) ++ stored⟩
    let s1 := ((s.granted wait).sivPut s.sivEnd (recBytes (s.rd GRF_UNIT_ID_id) s.siv.seq r)).wrote 2 s.sivUnits r.units
    let s2 := s1.setSiv { s1.siv with blks := gone, seq := (s.siv.seq + 1) % 256 }
    let s3 := s2.sivTaken r.units
    let s4 := if raw && decide (level ≠ 0) then s3.bump SIV_RAW else s3
    ((s4.bump SIV_BLK).addF SIV_IN input.length).addF SIV_OUT (stored.length + 16)

end Sys2Proof.Machine
end

