-- ==== Sys2Proof/Machine/Checks.lean ====
section
/-! DEFINITION. What an arm checks (R164, R170 to R175, R199): the Trellis program, the Hedge rules, regions, depth and
bandwidth. -/

namespace Sys2Proof.Machine

/-! ### The Trellis program check (R164) -/

/-- Enabled branches (level, branch) in scan order. -/
def State.brs (s : State) : List (Nat × Nat) :=
  ((List.range 16).flatMap fun l => (List.range 4).map fun b => (l, b)).filter fun p => s.on (TRL_Ln_BRb_COND_en p.1 p.2)

/-- Term slots a branch selects, ascending. -/
def State.brTerms (s : State) (p : Nat × Nat) : List Nat :=
  (List.range 8).filter fun t => bit (s.rd (TRL_Ln_BRb_COND_sel p.1 p.2)) t

/-- A term of reserved kind or with an index beyond the resource count (R151). -/
def State.termBad (s : State) (l t : Nat) : Bool :=
  let i := s.rd (TRL_Ln_TERMt_idx l t)
  match s.rd (TRL_Ln_TERMt_kind l t) with
  | 0 | 1 | 2 | 8 => false
  | 3 => decide (31 < i)
  | 4 | 5 => decide (15 < i)
  | 6 => decide (7 < i)
  | 7 => decide (11 < i)
  | _ => true

/-- A chain of n same-sample moves can start at level l (R153). -/
def State.chain (s : State) : Nat → Nat → Bool
  | 0, _ => true
  | n + 1, l => s.on (TRL_Ln_CFG_same_sample l) && (List.range 4).any fun b =>
      s.on (TRL_Ln_BRb_COND_en l b) && s.on (TRL_Ln_BRb_COND_goto l b) && s.chain n (s.rd (TRL_Ln_BRb_COND_target l b))

/-- The branch performs a timer action. -/
def State.brTimer (s : State) (p : Nat × Nat) : Bool :=
  s.on (TRL_Ln_BRb_ACT_tm_start p.1 p.2) || s.on (TRL_Ln_BRb_ACT_tm_stop p.1 p.2) || s.on (TRL_Ln_BRb_ACT_tm_clr p.1 p.2)

/-- Some enabled branch names timer n, or window comparator n. -/
def State.named (s : State) (kind n : Nat) : Bool :=
  s.brs.any fun p =>
    (s.brTerms p).any (fun t => s.rd (TRL_Ln_TERMt_kind p.1 t) = kind && s.rd (TRL_Ln_TERMt_idx p.1 t) = n)
      || (kind = 5 && s.brTimer p && s.rd (TRL_Ln_BRb_ARG_tm_idx p.1 p.2) = n)

/-- The faults of each code, in scan order: (level, item). -/
def State.trlFaults (s : State) : Nat → List (Nat × Nat)
  | 1 => s.brs.filter fun p => s.on (TRL_Ln_BRb_ACT_qual_on p.1 p.2) && s.on (TRL_Ln_BRb_ACT_qual_off p.1 p.2)
  | 2 => s.brs.filter fun p => s.on (TRL_Ln_BRb_ACT_tm_start p.1 p.2) && s.on (TRL_Ln_BRb_ACT_tm_stop p.1 p.2)
  | 3 => s.brs.flatMap fun p => ((s.brTerms p).filter fun t => s.termBad p.1 t).map fun t => (p.1, t)
  | 4 => ((List.range 16).filter fun l => s.chain 4 l).map fun l => (l, 0)
  | 5 => ((List.range 16).filter fun n => s.named 5 n && s.rd (TRL_TMn_CFG_unit n) = 3).map (fun n => (15, n))
      ++ ((List.range 8).filter fun n => s.named 6 n && decide (2 ≤ s.rd (TRL_WCn_CFG_src n))).map (fun n => (15, n))
  | _ => if s.on GRF_UNIT_ID_valid then [] else s.brs.flatMap fun p =>
      ((s.brTerms p).filter fun t => s.rd (TRL_Ln_TERMt_kind p.1 t) = 7 && decide (8 ≤ s.rd (TRL_Ln_TERMt_idx p.1 t))
          && decide (s.rd (TRL_Ln_TERMt_idx p.1 t) ≤ 11)).map (fun t => (p.1, t))
        ++ (if s.on (TRL_Ln_BRb_ACT_xtrig p.1 p.2) && decide (s.rd (TRL_Ln_BRb_ARG_xmask p.1 p.2) / 16 ≠ 0) then [p] else [])

/-- The first fault: code, level, item; code 0 for none. -/
def State.trlFault (s : State) : Nat × Nat × Nat :=
  match ([1, 2, 3, 4, 5, 6].filter fun c => !(s.trlFaults c).isEmpty).head? with
  | some c => (c, ((s.trlFaults c).headD (0, 0)).1, ((s.trlFaults c).headD (0, 0)).2)
  | none => (0, 0, 0)

/-- The program check writes its result. -/
def State.trlCheck (s : State) : State :=
  let (c, l, i) := s.trlFault
  ((((s.wr TRL_CHK_valid 1).wr TRL_CHK_code c).wr TRL_CHK_level l).wr TRL_CHK_item i).orF TRL_EVT_chk_done 1

/-! ### The Hedge rule check (R199) -/

/-- The bounds of a window are as R192 asks. -/
def winOk (a b h : Nat) : Bool := decide (a < b) && decide (b ≤ h)

/-- The bounds of a zone are as R192 asks; c is signed. -/
def zoneOk (c : Int) (d h : Nat) : Bool := decide (c < (d : Int)) && decide (d ≤ h)

/-- The judged channels of rule n: its set less the reference channel (R192). -/
def State.mkSet (s : State) (n : Nat) : List Nat :=
  (s.chSet (HDG_MKn_SET_bits n)).filter fun c => c ≠ s.rd (HDG_MKn_CFG_ref_ch n)

/-- The first fault of rule n, 0 for none. -/
def State.ruleFault (s : State) (n : Nat) : Nat :=
  let h := s.rd (HDG_MKn_HOR_value n)
  let w0 := s.on (HDG_MKn_CFG_w0_en n)
  let w1 := s.on (HDG_MKn_CFG_w1_en n)
  let z0 := s.on (HDG_MKn_CFG_z0_en n)
  let z1 := s.on (HDG_MKn_CFG_z1_en n)
  let r := s.on (HDG_MKn_CFG_req0 n)
  if (w0 && !winOk (s.rd (HDG_MKn_W0A_value n)) (s.rd (HDG_MKn_W0B_value n)) h)
    || (w1 && !winOk (s.rd (HDG_MKn_W1A_value n)) (s.rd (HDG_MKn_W1B_value n)) h)
    || (z0 && !zoneOk (s.rdS (HDG_MKn_Z0C_value n)) (s.rd (HDG_MKn_Z0D_value n)) h)
    || (z1 && !zoneOk (s.rdS (HDG_MKn_Z1C_value n)) (s.rd (HDG_MKn_Z1D_value n)) h) then 1
  else if s.nChan ≤ s.rd (HDG_MKn_CFG_ref_ch n) then 2
  else if (s.mkSet n).isEmpty || !(w0 || w1 || z0 || z1 || r) || (r && !w0) then 3
  else 0

/-- The first faulty enabled rule: code and rule. -/
def State.hdgFault (s : State) : Nat × Nat :=
  match ((List.range 64).filter fun n => s.on (HDG_MKn_CFG_en n) && decide (s.ruleFault n ≠ 0)).head? with
  | some n => (s.ruleFault n, n)
  | none => (0, 0)

/-- The rule check writes its result. -/
def State.hdgCheck (s : State) : State :=
  let (c, n) := s.hdgFault
  (((s.wr HDG_CHK_valid 1).wr HDG_CHK_code c).wr HDG_CHK_rule n).orF HDG_EVT_chk_done 1

/-! ### State clocks (R23) -/

/-- Populated groups of 64 channels. -/
def State.nGroups (s : State) : Nat := s.nChan / 64

/-- Enabled state clocks of populated groups. -/
def State.stClocks (s : State) : List Nat := (List.range s.nGroups).filter fun j => s.on (ACQ_STCLKj_en j)

/-- The state clock that samples group g. -/
def State.clockOf (s : State) (g : Nat) : Option Nat :=
  match (s.stClocks.filter fun j => j ≤ g).getLast? with
  | some j => some j
  | none => s.stClocks.head?

/-- The groups state clock j samples. -/
def State.groupsOf (s : State) (j : Nat) : List Nat := (List.range s.nGroups).filter fun g => s.clockOf g = some j

/-! ### Capacity (R175) -/

/-- Data units of a segment. -/
def State.segData (s : State) : Nat := s.rd ACQ_SEG_size - 1 - cdiv (s.rd ACQ_SEG_size) 64

/-- Capacity of `d` data units on `tiles` tiles in a mode. -/
def State.capOf (s : State) (mode tiles d : Nat) : Nat :=
  match mode with
  | 1 => d / tiles * 255 * 8
  | 2 => d / tiles * 255 * 32
  | 3 =>
    let n := s.stClocks.length
    let w := (s.stClocks.map fun j => (s.groupsOf j).length).foldl max 0
    (d + 1 - n) * (65472 / (8 + 8 * w))
  | 4 => (d + 1 - tiles) * 8184
  | 5 => d * 2046
  | 6 => 2 ^ 48 - 1
  | _ => 0

/-- ACQ_SEG_CAP. -/
def State.segCap (s : State) : Nat :=
  if s.comp then s.capOf 1 1 (s.segData / 2) else s.capOf s.mode s.nTiles s.segData

/-! ### Bandwidth (R172) -/

/-- Capture-write figure of a tile in GB/s. -/
def State.tileWrite (s : State) (tile : Nat) : Nat :=
  match s.tileMode tile with
  | 1 | 2 | 6 => cdiv (s.sbase * 256) 1000000
  | 3 => 80
  | 4 => 96
  | 5 => 32
  | _ => 0

/-- Drain figure of a tile. -/
def State.tileDrain (s : State) (tile : Nat) : Nat := if s.tileMode tile = 6 then 0 else s.tileWrite tile

/-- V (R251). -/
def State.sivV (s : State) : Nat :=
  if s.sivActive then
    cdiv (((List.range s.nTiles).map fun t => min (s.sivL t) (s.tileWrite t)).sum * 1025) 1024
  else 0

/-- H_s. -/
def State.streamRate (s : State) : Nat := if s.on ACQ_CFG_stream then 220 else 0

/-- N. -/
def State.nearDemand (s : State) : Nat :=
  let w := ((List.range s.nTiles).map s.tileWrite).sum
  w + cdiv w 8 + s.sivV + s.streamRate

/-- D. -/
def State.deepDemand (s : State) : Nat :=
  let wd := ((List.range s.nTiles).map s.tileDrain).sum
  let wr := ((List.range 8).map s.redTerm).sum
  cdiv (21 * (wd + wr + s.sivV + 220)) 20

/-- L. -/
def State.deepLimit (s : State) : Nat := if s.isH2 then 1785 else 2048

/-! ### Regions (code 0x06) -/

/-- Enabled deep-memory regions as base and size in 64 KiB units; the capture region first. -/
def State.regions (s : State) : List (Nat × Nat) :=
  (s.rd ACQ_REGION_BASE_value % 2 ^ 21, s.rd ACQ_REGION_SIZE_value)
    :: ((List.range 8).filter fun n => s.on (RED_RUn_CFG_en n)).map
        (fun n => (s.rd (RED_RUn_BASE_value n) % 2 ^ 21, s.rd (RED_RUn_SIZE_value n)))
    ++ (if s.on SIV_CFG_en then [(s.rd SIV_BASE_value % 2 ^ 21, s.rd SIV_SIZE_value)] else [])
    ++ (if s.timActive && decide (s.rd TIM_OVF_SIZE_value ≠ 0) then
          [(s.rd TIM_OVF_BASE_value % 2 ^ 21, s.rd TIM_OVF_SIZE_value)] else [])

/-- Two regions share a unit. -/
def overlap (a b : Nat × Nat) : Bool := decide (max a.1 b.1 < min (a.1 + a.2) (b.1 + b.2))

/-- Two regions of the list overlap. -/
def anyOverlap : List (Nat × Nat) → Bool
  | [] => false
  | r :: l => l.any (overlap r) || anyOverlap l

/-- The detail of code 0x06, or none. -/
def State.regionDetail (s : State) : Option Nat :=
  if anyOverlap s.regions then some 1
  else if s.regions.any fun r => decide (s.deepSize / 65536 < r.1 + r.2) then some 2
  else if s.rd ACQ_REGION_SIZE_value < s.rd ACQ_SEG_size then some 3
  else none

/-! ### The arm checks (R171) -/

/-- An M7 task, a DSK calibration task or a probe check is running (R27, R171). -/
def State.busyTask (s : State) : Bool := s.task.isSome || s.inp.pchk.isSome

/-- A boundary-scan instruction that takes the lands is loaded (R440). -/
def State.scanHolds (s : State) : Bool := s.jtg.drive ≠ 0

/-- The mode and composite setting in effect are not a permitted combination (R32). -/
def State.compBad (s : State) : Bool := s.comp && !(s.is512 && decide (s.mode = 1))

/-- The detail of code 0x05, or none. -/
def State.modeDetail (s : State) : Option Nat :=
  let f := s.trlFault.1
  if s.mode = 0 ∨ s.mode = 7 then some 1
  else if s.on GLB_STAT_mode_pend then some 2
  else if s.compBad then some 3
  else if s.rd (CLK_x_TARGET_freq 1) = 500000 ∧ s.mode ≠ 5 then some 4
  else if s.mode = 3 ∧ s.stClocks.isEmpty = true then some 5
  else if 1 ≤ f ∧ f ≤ 5 then some 6
  else if s.on HDG_CTL_en = true ∧ s.hdgFault.1 ≠ 0 then some 7
  else if s.on ACQ_CFG_stream = true ∧ s.on (HRV_RINGn_CFG_en (s.rd ACQ_STREAM_ring)) = false then some 8
  else if s.scanHolds then some 9
  else none

/-- ADPLL x is LOCKED with its gate open. -/
def State.pllOk (s : State) (x : Nat) : Bool := s.rd (CLK_x_STAT_state x) = 4 && !s.on (CLK_x_STAT_gated x)

/-- The sample base is LOCKED with its gate open: ADPLL-S, or CLK_EXT in DLL mode. -/
def State.baseOk (s : State) : Bool :=
  if s.on CLK_STAT_s_src_act then s.on CLK_STAT_ext_valid && s.grid.run && s.clk.extSuspect.isNone else s.pllOk 0

/-- The detail of code 0x03, or none; deep memory not initialised counts as 2 (R282). -/
def State.clockDetail (s : State) : Option Nat :=
  if !s.baseOk then some 0
  else if !s.pllOk 1 then some 1
  else if !s.pllOk 2 || !s.on DMC_STAT_init_done then some 2
  else if (List.range s.nTiles).any fun t => !bit (s.rd CLK_STAT_dll_lock) t then some 3
  else if s.on CLK_CFG_s_src_pend then some 4
  else none

/-- The first failing check: code and detail (R171). -/
def State.armFault (s : State) : Option (Nat × Nat) :=
  if s.busyTask then some (7, 0)
  else match s.modeDetail with
  | some d => some (5, d)
  | none => match s.clockDetail with
    | some d => some (3, d)
    | none =>
      if s.trlFault.1 = 6 then some (8, 0)
      else match s.regionDetail with
      | some d => some (6, d)
      | none =>
        let pq := s.acqP + s.acqQ
        if s.segCap < pq ∧ s.on ACQ_CFG_spill = false then some (1, 0)
        else if s.nSegs * s.segCap < pq ∧ s.on ACQ_CFG_stream = false then some (2, 0)
        else if 2000 < s.nearDemand then some (4, 1)
        else if s.deepLimit < s.deepDemand then some (4, 2)
        else none

/-- What the checks write whether the arm passes or not: both checks, the budget, the capacity, the rates. -/
def State.armReport (s : State) : State :=
  let s1 := if s.on HDG_CTL_en then s.trlCheck.hdgCheck else s.trlCheck
  let s2 := ((s1.wr ACQ_BUDGET_near (min 65535 s.nearDemand)).wr ACQ_BUDGET_deep (min 65535 s.deepDemand)).wr
    ACQ_SEG_CAP s.segCap
  (List.range 8).foldl (fun a n => a.wr (RED_RUn_WORST_rate n) (s.redTerm n)) (s2.wr SIV_RATE_rate s.sivV)

end Sys2Proof.Machine
end

