-- ==== Sys2Proof/Machine/Deskew.lean ====
section
/-! DEFINITION. Deskew (R91, R95 to R104): coefficients and pending values, dead-time injection, and the live-traffic gather. -/

namespace Sys2Proof.Machine

/-- The active coefficient of a channel in F (R95). -/
def State.dskD (s : State) (ch : Nat) : Int := s.rdS (DSK_COEF_d ch)

/-- The unclamped sum of the active terms (R95). -/
def State.dskSum (s : State) (ch : Nat) : Int :=
  (look s.dsk.land ch).getD 0 + s.rdS (DSK_CAL_d ch) + (look s.dsk.user ch).getD 0

/-- Computes the coefficient again from its active terms. -/
def State.dskCompute (s : State) (ch : Nat) : State :=
  let v := s.dskSum ch
  let d := max (-8192) (min 8192 v)
  (s.wrS (DSK_COEF_d ch) d).wr (DSK_COEF_clamped ch) (b2n (d ≠ v))

/-- A value of a term becomes pending now, in place of one already pending for that term and channel (R96). -/
def State.dskPend (s : State) (p : Pend) : State :=
  { s with dsk := { s.dsk with pend := s.dsk.pend.filter (fun q => ¬(q.ch = p.ch ∧ q.term = p.term)) ++
                               [{ p with since := s.tmb.kt }] } }

/-- One pending value takes effect. A value a gather found makes its channel's code 2 APPLIED, also where a later gather has written
another code since. DESIGN CHOICE (log entry 102): unsafe. A result beyond the 16 bits of DSK_CAL.d, for which R107 gives neither wrap
nor saturation, is kept modulo 2^16. DESIGN CHOICE (log entry 116): unsafe. -/
def State.dskTake (s : State) (p : Pend) : State :=
  let s1 := match p.term with
    | 0 => { s with dsk := { s.dsk with land := ins s.dsk.land p.ch p.v } }
    | 1 => s.wrS (DSK_CAL_d p.ch) p.v
    | _ => { s with dsk := { s.dsk with user := ins s.dsk.user p.ch p.v } }
  let s2 := if p.gath then s1.wr (DSK_GCNT_result p.ch) 2 else s1
  s2.dskCompute p.ch

/-- All pending values take effect together; also the number of channels whose coefficient changed (R96).
DEDUCED (log entry 25): unsafe. -/
def State.dskApply (s : State) : State × Nat :=
  let s1 := { s.dsk.pend.foldl State.dskTake s with dsk := { (s.dsk.pend.foldl State.dskTake s).dsk with pend := [] } }
  let chs := s.dsk.pend.foldl (fun l p => insSet p.ch l) []
  (s1, (chs.filter fun c => s1.dskD c ≠ s.dskD c).length)

/-- Dead-time injection at a segment boundary (R99): the burst's length in F, and once enough pulses are gathered a
calibrated value for every channel; the value itself is what the injector measures, a free value.
DESIGN CHOICE (log entry 26): safe. -/
def State.dskBurst (s : State) : State × Nat :=
  if !s.on DSK_INJ_CTL_dead then (s, 0) else
  let b := s.rd DSK_INJ_CTL_burst
  let n := s.dsk.pulses + b
  let total := s.rd DSK_INJ_CTL_total * 256
  let len := b * 10 * nsF + 200 * nsF
  if n < total then ({ s with dsk := { s.dsk with pulses := n } }, len) else
  let (k, s1) := s.draw s.nChan
  let s2 := (List.range s.nChan).foldl (fun s c => s.dskPend ⟨c, 1, sx 16 (Config.freeValue (k + c)), false, 0⟩) s1
  ({ s2 with dsk := { s2.dsk with pulses := 0 } }, len)

/-! ### The gather -/

/-- Channels that are b of an enabled pair (R102). -/
def State.pairChs (s : State) : List Nat := (List.range 1024).filter fun c => s.on (DSK_PAIR_en c)

/-- The pair of channel b. -/
def State.gpair (s : State) (b : Nat) : GPair :=
  ⟨b, s.rd (DSK_PAIR_partner b), s.rdS (DSK_PAIR_OFS_e b), s.rd (DSK_PAIR_match b), s.rd (DSK_PAIR_edge b), [], []⟩

/-- An edge of kind `sel` (1 or 0 rising, 2 falling, 3 either). -/
def pairSel (sel : Nat) (up : Bool) : Bool := if sel = 2 then !up else sel = 3 || up

/-- An edge as a running gather sees it (R101): of a within the window; of b from the start to the close, so that an edge of b outside
the window, which the rule does not exclude, may be the nearest of an edge of a inside it.
DESIGN CHOICE (log entry 114): unsafe. -/
def State.gatherEdge (s : State) (ch t : Nat) (up : Bool) : State :=
  match s.dsk.gather with
  | none => s
  | some g =>
    let f := fun (p : GPair) =>
      let p1 := if p.a = ch ∧ pairSel p.edge up = true ∧ g.start ≤ t ∧ t < g.stopAt then { p with as := t :: p.as } else p
      if p.b = ch then { p1 with bs := t :: p1.bs } else p1
    { s with dsk := { s.dsk with gather := some { g with pairs := g.pairs.map f } } }

/-- The edge of b nearest to `c`, the earlier of two equally near (R101). -/
def nearest (c : Int) : List Nat → Option Nat
  | [] => none
  | t :: r =>
    match nearest c r with
    | none => some t
    | some u =>
      let dt := ((t : Int) - c).natAbs
      let du := ((u : Int) - c).natAbs
      if dt < du ∨ (dt = du ∧ t < u) then some t else some u

/-- The values t'_b − t'_a − e of a pair (R101). -/
def GPair.values (p : GPair) : List Int :=
  p.as.filterMap fun (t : Nat) =>
    match nearest ((t : Int) + p.e) p.bs with
    | some u => if ((u : Int) - t - p.e).natAbs ≤ p.mtch then some ((u : Int) - t - p.e) else none
    | none => none

/-- Population RMS about the mean in 1/16 F, rounded to nearest, ties away from zero: n values, sum, sum of squares (R103). -/
def rms16 (n : Nat) (sum sq : Int) : Nat :=
  let N := ((n : Int) * sq - sum * sum).toNat
  let r := isqrt (256 * N / (n * n)) 64
  if (2 * r + 1) * (2 * r + 1) * (n * n) ≤ 1024 * N then r + 1 else r

/-- The result of one pair at the close of the window (R103): its registers and its CALIBRATION entry.
DESIGN CHOICE (log entry 27): safe. -/
def State.gatherPair (sus : Bool) (acc : State × List (Nat × Nat × Int × Int × Int)) (p : GPair) :
    State × List (Nat × Nat × Int × Int × Int) :=
  let (s, es) := acc
  let v := p.values
  let n := v.length
  let sum := v.sum
  let k := s.free
  let s0 := if n = 0 then (s.draw 2).2 else s
  let mean : Int := if n = 0 then sx 32 (Config.freeValue k) else rnd (16 * sum) n
  let rms := if n = 0 then Config.freeValue (k + 1) % 65536 else min 65535 (rms16 n sum (v.map fun x => x * x).sum)
  let m := rnd sum (max n 1)
  let res := if sus then 6 else if n < 256 then 3 else if s.rd DSK_GCTL_max_step < m.natAbs then 4
    else if s.on DSK_GCTL_auto then 1 else 7
  let cnt := min n (2 ^ 28 - 1)
  let s1 := (((s0.wr (DSK_GCNT_result p.b) res).wr (DSK_GCNT_count p.b) cnt).wrS (DSK_GMEAN_mean p.b) mean).wr
    (DSK_GRMS_rms p.b) rms
  let s2 := if res = 1 then s1.dskPend ⟨p.b, 1, s.rdS (DSK_CAL_d p.b) + m, true, 0⟩ else s1
  (s2, es ++ [(p.b, res, mean, (rms : Int), (cnt : Int))])

/-- Stores a record in the open segment, or ahead of the next one (R103, R210). -/
def State.calOut (s : State) (r : Rec) : State := s.event r

/-- The µs hops have waited on the gather by `t` (R127, R224). -/
def Gather.hopWait (g : Gather) (t : Nat) : Nat :=
  (g.waited + match g.hopAt with
    | some h => t - h
    | none => 0) / usF

/-- A force written for a gather that has ended has no effect any more (R127). -/
def State.forceGone (s : State) : State :=
  { s with clk := { s.clk with hopWait := s.clk.hopWait.map fun h => { h with force := false } } }

/-- Closes the gather at `t` (R103). -/
def State.gatherClose (s : State) (t : Nat) : State :=
  match s.dsk.gather with
  | none => s
  | some g =>
    let s0 := { s.forceGone with dsk := { s.dsk with gather := none } }
    let (s1, es) := g.pairs.foldl (State.gatherPair g.suspect) (s0, [])
    let s2 := s1.calOut (s1.calRec g.start 5 0 ((t - g.start) / usF) (g.hopWait t) 0 es)
    (((s2.wr DSK_GSTAT_busy 0).wr DSK_GSTAT_done 1).wr DSK_GSTAT_aborted 0).bump DSK_GSTAT_gathers

/-- Ends the gather ABORTED; `why` as CALIBRATION codes it: 1 hop, 2 abort, 4 mode change, 8 supply (R103, R224). It counts
neither as closed (done) nor as completed (gathers).
DESIGN CHOICE (log entry 28): unsafe. -/
def State.gatherAbort (s : State) (why : Nat) : State :=
  match s.dsk.gather with
  | none => s
  | some g =>
    let t := s.tmb.kt
    let s0 := { s.forceGone with dsk := { s.dsk with gather := none } }
    let s1 := g.pairs.foldl (fun s p => s.wr (DSK_GCNT_result p.b) 5) s0
    let s2 := s1.calOut (s1.calRec g.start 5 2 ((t - g.start) / usF) (g.hopWait t) why (g.pairs.map fun p => (p.b, 5, 0, 0, 0)))
    (s2.wr DSK_GSTAT_busy 0).wr DSK_GSTAT_aborted 1

/-- The bits that refuse a gather start (R102): refused, too_many, chain, partner. -/
def State.gatherBars (s : State) : Bool × Bool × Bool × Bool :=
  let l := s.pairChs
  let ok := fun c => decide (c < s.nChan) && s.captured c
  (s.dsk.gather.isSome || s.mode = 0 || s.mode = 7 || l.isEmpty,
   decide (64 < l.length),
   l.any (fun c => l.any fun d => d ≠ c && s.rd (DSK_PAIR_partner d) = c),
   l.any (fun c => s.rd (DSK_PAIR_partner c) = c || !ok c || !ok (s.rd (DSK_PAIR_partner c))))

/-- A start of a gather (R102). Its pairs hold partner, edge, match and e as they stand now, while DSK_GCTL.max_step and auto are taken
at the close: the spec does not say whether writes during the gather act on it. DESIGN CHOICE (log entry 115): unsafe. -/
def State.gatherStart (s : State) : State :=
  let (r, m, c, p) := s.gatherBars
  if r || m || c || p then
    (((s.orF DSK_GSTAT_refused (b2n r)).orF DSK_GSTAT_too_many (b2n m)).orF DSK_GSTAT_chain (b2n c)).orF DSK_GSTAT_partner (b2n p)
  else
    let hop := match s.clk.hopWait with
      | some h => if h.pll = 0 then some s.tmb.kt else none
      | none => none
    let g : Gather := ⟨s.tmb.kt, s.tmb.kt + s.rd DSK_GCTL_window * usF, s.pairChs.map s.gpair, s.suspect, hop, 0⟩
    ({ s with dsk := { s.dsk with gather := some g } }).wr DSK_GSTAT_busy 1

/-- A CLOCK_SUSPECT interval marks the running gather (R103). -/
def State.gatherSuspect (s : State) : State :=
  match s.dsk.gather with
  | none => s
  | some g => { s with dsk := { s.dsk with gather := some { g with suspect := true } } }

/-- DESKEW_APPLY while idle (R96): 1 µs after the later of the entry to IDLE and the moment a value became pending,
all pending values take effect together. DEDUCED (log entry 24): unsafe. -/
def State.dskIdleApply (t : Nat) (s : State) : State :=
  let s := s.advance t
  if s.idle && s.dsk.pend.any (fun p => decide (max p.since s.acq.idleAt + usF ≤ t)) then s.dskApply.1 else s

/-- GATHER_CLOSE: the window has expired by `t`. -/
def State.gatherExpire (t : Nat) (s : State) : State :=
  let s := s.advance t
  match s.dsk.gather with
  | some g => if g.stopAt ≤ t then s.gatherClose t else s
  | none => s

/-- What a write of DSK_GCTL does with its abort and start bits (R102): the abort acts first. -/
def State.gatherCtl (s : State) (start abort : Bool) : State :=
  let s1 := if abort then s.gatherAbort 2 else s
  if start then s1.gatherStart else s1

end Sys2Proof.Machine
end

