-- ==== Sys2Proof/Machine/Residue.lean ====
section
/-! DEFINITION. Residue checking (R405, R406) and spare sampler lanes (R407 to R410). -/

namespace Sys2Proof.Machine

/-- An empty Residue group. -/
def resNew : ResG := ⟨0, 0, [], none⟩

/-- The slot carries work: a work slot not replaced, or a spare in service (R405). -/
def ResG.works (g : ResG) (slot : Nat) : Bool :=
  match g.retired with
  | none => decide (slot < 15)
  | some r => decide (slot < 16) && slot ≠ r

/-- The detail of a MARK RESIDUE (R406). -/
def ResG.detail (g : ResG) (unchecked : Bool) : Nat := g.retries % 65536 + 65536 * (g.spares % 32768) + 2 ^ 31 * b2n unchecked

/-- Stores a Residue group; groups are keyed by unit and number. -/
def State.putRes (s : State) (unit group : Nat) (g : ResG) : State :=
  { s with pwr := { s.pwr with res := ins s.pwr.res (256 * unit + group) g } }

/-- A residue mismatch in a slot, and whether the repeat mismatches too (R406, R163). No result changes.
DESIGN CHOICE (log entry 83): unsafe. -/
def State.residue (unit group slot : Nat) (second : Bool) (t : Nat) (s : State) : State :=
  let s := s.advance t
  let g := (look s.pwr.res (256 * unit + group)).getD resNew
  if unit = 0 ∨ 8 < unit ∨ g.works slot = false then s else
  let g1 := { g with retries := g.retries + 1 }
  let s1 := s.bump PWR_RES_RETRY_count
  let s2 := if unit = 3 then (s1.bump TRL_RETRY_retries).orF TRL_EVT_retry 1 else s1
  if !second then s2.putRes unit group g1 else
  match g.retired with
  | some _ =>
    let s3 := (s2.putRes unit group g1).mark t 5 0 0 unit 0 0 (g1.detail true) false
    ((s3.bbox 0x21 unit (256 * group)).orF PWR_EVT_bits 128).bbxFreeze 2
  | none =>
    let us := (slot, t) :: g1.uses.filter fun u => decide (t < u.2 + secF)
    let gone := decide (3 ≤ (us.filter fun u => u.1 = slot).length)
    let g2 : ResG := { g1 with spares := g1.spares + 1, uses := us, retired := if gone then some slot else none }
    let s3 := (s2.putRes unit group g2).bump PWR_RES_SPARE_count
    let s4 := if unit = 3 then (s3.bump TRL_RETRY_spare).orF TRL_EVT_fault 1 else s3
    let s5 := s4.mark t 5 0 0 unit 0 0 (g2.detail false) false
    if gone then
      let s6 := (s5.wr PWR_RES_RETIRED_unit unit).addSat PWR_RES_RETIRED_nospare 1
      ((s6.bump PWR_RES_RETIRED_slots).bbox 0x20 unit (256 * group + slot)).orF PWR_EVT_bits 64
    else s5

/-- The counts of every group start again at an arm (R406). -/
def State.resArm (s : State) : State :=
  { s with pwr := { s.pwr with res := s.pwr.res.map fun p => (p.1, { p.2 with retries := 0, spares := 0 }) } }

/-! ### Spare lanes -/

/-- Lanes of the 64-channel group `g`. -/
def State.lanesOf (s : State) (g : Nat) : List Lane := s.pwr.lanes.filter fun l => l.ch % 1024 / 64 = g

/-- PWR_LANEg as its lanes make it. -/
def State.laneRegs (s : State) (g : Nat) : State :=
  let ls := s.lanesOf g
  let inUse := ls.filter (·.used)
  ((s.wr (PWR_LANEg_used g) inUse.length).wr (PWR_LANEg_spares g) (packBits 4 fun i => inUse.any fun l => l.spare = some i)).wr
    (PWR_LANEg_cal g) (b2n (ls.any fun l => l.spare.isSome && l.doneAt.isNone && decide (l.ch < 1024)))

/-- Stores lanes and the registers of a group. -/
def State.putLanes (s : State) (g : Nat) (ls : List Lane) : State := { s with pwr := { s.pwr with lanes := ls } }.laneRegs g

/-- The channel's samples are generated from its TDC edges (R408). -/
def State.edgeFill (s : State) (ch : Nat) : Bool := s.pwr.lanes.any fun l => l.ch = ch && !l.used

/-- A sampler lane has failed (R407): edge fill, and the lowest free spare of its group is connected (R409, R410).
DESIGN CHOICE (log entry 82): unsafe. -/
def State.laneFail (ch t : Nat) (s : State) : State :=
  let s := s.advance t
  if s.mode = 0 ∨ s.nChan ≤ ch ∨ s.edgeFill ch = true then s else
  let g := ch / 64
  let ls := s.pwr.lanes.map fun l => if l.ch = ch then { l with ch := 1024 + ch, used := false } else l
  let s1 := ((s.bbox 0x28 ch g).orF PWR_EVT_bits 256).wr (PWR_LANEg_channel g) ch
  let taken := (s.lanesOf g).filterMap (·.spare)
  match (List.range 4).find? fun i => !taken.contains i with
  | some i => s1.putLanes g (ls ++ [⟨ch, some i, t, 0, false, none, false⟩])
  | none => ((s1.putLanes g (ls ++ [⟨ch, none, t, 0, false, none, false⟩])).bbox 0x2A ch g).wr (PWR_LANEg_nospare g) 1

/-- An edge of a channel whose spare lane is being measured (R409). -/
def State.laneEdge (s : State) (ch : Nat) : State :=
  if s.pwr.lanes.any fun l => l.ch = ch && l.doneAt.isNone then
    { s with pwr := { s.pwr with lanes := s.pwr.lanes.map fun l =>
        if l.ch = ch ∧ l.doneAt.isNone then { l with edges := l.edges + 1 } else l } }
  else s

/-- The measurement of the spare lanes of group `g` ends at `t`: after 4,096 edges, or after 4 ms; with fewer than 256 edges
it waits for a burst (R409). -/
def State.laneMeasured (g t : Nat) (s : State) : State :=
  let s := s.advance t
  let f := fun (l : Lane) =>
    if l.ch < 1024 ∧ l.ch / 64 = g ∧ l.spare.isSome ∧ l.doneAt.isNone ∧ l.burst = false then
      if 4096 ≤ l.edges then { l with doneAt := some t }
      else if l.since + 4000 * usF ≤ t then
        if 256 ≤ l.edges then { l with doneAt := some t } else { l with burst := true }
      else l
    else l
  s.putLanes g (s.pwr.lanes.map f)

/-- A hop or lock loss of the sample base restarts every measurement (R409). -/
def State.laneRestart (s : State) : State :=
  { s with pwr := { s.pwr with lanes := s.pwr.lanes.map fun l =>
      if l.doneAt.isNone then { l with since := s.tmb.kt, edges := 0, burst := false } else l } }

/-- The bursts that waiting measurements add to a dead time: the time they take; the measurements end with it (R409). -/
def State.laneBurst (s : State) : State × Nat :=
  if s.pwr.lanes.any (·.burst) then
    ({ s with pwr := { s.pwr with lanes := s.pwr.lanes.map fun l =>
        if l.burst then { l with burst := false, doneAt := some s.tmb.kt } else l } }, 840 * nsF)
  else (s, 0)

/-- One measured spare takes over (R409). -/
def State.laneTake (s : State) (l : Lane) : State :=
  let g := l.ch / 64
  let s1 := s.putLanes g (s.pwr.lanes.map fun x => if x.ch = l.ch then { x with used := true } else x)
  s1.bbox 0x29 l.ch (l.spare.getD 0)

/-- Measured spares that are not yet in service. -/
def State.lanesReady (s : State) : List Lane := s.pwr.lanes.filter fun l => l.doneAt.isSome && !l.used && decide (l.ch < 1024)

/-- Every measured spare takes over at an arm or boundary: the state, and their channels. -/
def State.laneSwap (s : State) : State × List Nat := (s.lanesReady.foldl State.laneTake s, s.lanesReady.map (·.ch))

/-- A measured spare of group `g` takes over 1 µs after its measurement while acquisition is idle (R409). -/
def State.laneSwapIdle (g t : Nat) (s : State) : State :=
  let s := s.advance t
  if !s.idle then s else
  (s.lanesReady.filter fun l => decide (l.ch / 64 = g) && decide (l.doneAt.getD 0 + usF ≤ t)).foldl State.laneTake s

end Sys2Proof.Machine
end

