-- ==== Sys2Proof/Machine/Acquire.lean ====
section
/-! DEFINITION. Acquisition (R173 to R181, R204 to R213): positions, segments and their records, and triggers. What begins, ends
and stops segments is in Segments.lean. -/

namespace Sys2Proof.Machine

/-! ### Time base values that records report -/

/-- TMB_HOLD_AGE (R84). -/
def State.holdAge (s : State) : Nat :=
  if s.rd TMB_REF_STAT_state = 2 then 0 else (s.tmb.kt - s.tmb.lockRef) / secF

/-- The reference state as records report it (R84, R213). -/
def State.refReport (s : State) : Nat :=
  match s.rd TMB_REF_STAT_state with
  | 0 => 0
  | 2 => 2
  | _ => 1

/-- The measured delay becomes the delay in effect of every UP port with dly_src = 1, at an arm or a boundary (R360). -/
def State.takeDelays (s : State) : State :=
  (List.range 4).foldl
    (fun s n => if s.on (GRF_GLn_CFG_dly_src n) && s.rd (GRF_GLn_STAT_state n) = 2 then s.wr (GRF_CABLE_DLY_value n) (s.rd (GRF_GLn_DLY_value n)) else s) s

/-- The cable delay of GLn in effect (R213, R360). -/
def State.cableDly (s : State) (n : Nat) : Int := s.rdS (GRF_CABLE_DLY_value n)

/-! ### Positions -/

/-- First sample that starts at or after `t`. -/
def Grid.posFrom (g : Grid) (t : Nat) : Nat := if g.start (g.posOf t) < t then g.posOf t + 1 else g.posOf t

/-- Record units whose time is before `t`, counted from arm. -/
def State.unitsBefore (s : State) (t : Nat) : Nat := s.acq.unitBase + (s.units.filter fun u => u.t < t).length

/-- P, Q and positions count record units: M3 to M5 (R173). -/
def State.recordMode (s : State) : Bool := 3 ≤ s.mode && s.mode ≤ 5

/-- The position at which a pre-fill that begins at `t` starts. -/
def State.fillAt (s : State) (t : Nat) : Nat := if s.recordMode then s.unitsBefore t else s.grid.posFrom t

/-- The position of the trigger: its sample, or the first record at or after its time (R173). -/
def State.trigAt (s : State) (g : Seg) : Option Nat :=
  match g.trig with
  | none => none
  | some tr => some (if s.recordMode then s.unitsBefore tr.t else g.trigPos)

/-- First sample or record after the tail that runs (R196); records are counted from that of the violation time (R197), among all that
have come since. -/
def State.tailStop (s : State) : Option Nat :=
  s.hdg.tail.map fun e => if s.recordMode then s.unitsBefore s.hdg.tailT + s.rd HDG_TAIL_value + 1 else e

/-- The sample or record of the violation whose tail runs (R196, R197). -/
def State.tailAt (s : State) : Option Nat := s.tailStop.map fun e => e - s.rd HDG_TAIL_value - 1

/-- First position of the segment's pre-fill: of records, the first with its time at or after the start. -/
def State.fillP (s : State) (g : Seg) : Nat := if s.recordMode && !g.cont then s.unitsBefore g.fillKt else g.fillPos

/-- First position of the segment if it ended at `e`: P positions before the trigger; without one, in WAIT, before the end or the
violation whose tail runs (R173, R188, R196). -/
def State.segPos0 (s : State) (g : Seg) (e : Nat) : Nat :=
  if g.cont then g.fillPos else
  match s.trigAt g with
  | some k => max (s.fillP g) (k - s.acqP)
  | none => if s.acqSt = 3 then max (s.fillP g) (s.tailAt.getD e - s.acqP) else s.fillP g

/-- End of the post-trigger part: Q positions from the trigger (R173). -/
def State.postEnd (s : State) (g : Seg) : Option Nat := (s.trigAt g).map (· + s.acqQ)

/-- Time at which position `p` begins; for records, of the record there, or `t` when there is none yet. -/
def State.posTime (s : State) (p t : Nat) : Nat :=
  if s.recordMode then
    match s.units[p - s.acq.unitBase]? with
    | some u => if s.acq.unitBase ≤ p then u.t else t
    | none => t
  else s.grid.start p

/-- Positions up to `e` (excluded) have been produced by `t`. -/
def State.posDone (s : State) (e t : Nat) : Bool :=
  if s.recordMode then decide (e ≤ s.unitN) else s.grid.run && decide (s.grid.start e ≤ t)

/-! ### Trellis at arm and re-arm (R166) -/

/-- The starting values of Trellis, from sample `k` on. -/
def State.trlStart (s : State) (k : Nat) : State :=
  let s1 := (List.range 16).foldl (fun s n => s.wr (TRL_CTn_VAL n) 0) s
  let q := s.on TRL_CFG_qual_reset
  { (s1.wr TRL_STAT_level (s.rd TRL_CFG_start_level)).wr TRL_STAT_qual (b2n q) with
    trl := { s1.trl with tm := [], first := k, next := k },
    acq := { s1.acq with qualLog := s1.acq.qualLog ++ [(k, q)] } }

/-- A restart that is due at a re-arm takes place before sample `k` is evaluated (R166). DEDUCED (log entry 90): unsafe. -/
def State.restartAt (s : State) (k : Nat) : State :=
  match s.trl.restart with
  | some r =>
    if r ≤ k then
      let s1 := { s with trl := { s.trl with restart := none } }.trlStart r
      { s1 with trl := { s1.trl with next := max s.trl.next r } }
    else s
  | none => s

/-! ### Segment records -/

/-- Which source gave the trigger and how, as headers code it (R211). -/
def trigInfo (tr : Option Trig) : Nat :=
  match tr with
  | none => 0
  | some x => x.src + 4 * b2n x.coarse + 8

/-- Channels unresolved at some sample of [a, b) (R45); channels not populated are. -/
def State.unresMap (s : State) (a b : Nat) : List Byte :=
  let q := s.acq
  (List.range 128).flatMap fun k => le 1 (packBits 8 fun i =>
    let c := 8 * k + i
    decide (s.nChan ≤ c) || lvlAt q.log (q.lvl0At c) c a = 2
      || q.log.any (fun e => e.ch = c && e.v = 2 && a ≤ e.pos && e.pos < b))

/-- The body of a SEGMENT_HEADER (R211). -/
def State.headerBody (s : State) (g : Seg) (pos0 : Nat) (unres : List Byte) : List Byte :=
  let tt := match g.trig with
    | some x => x.t
    | none => 0
  let tc := match g.trig with
    | some x => x.ch
    | none => 0
  let fl := b2n g.cont + 2 * b2n g.suspect + 4 * b2n s.comp + 8 * b2n (s.on ACQ_CFG_stream) + 16 * b2n (s.on ACQ_CFG_qual_en)
  le 4 g.idx ++ le 4 g.chain ++ le 8 s.acqP ++ le 8 s.acqQ ++ le 9 tt ++ le 1 (trigInfo g.trig) ++ le 2 tc
    ++ le 4 g.early ++ le 9 g.earlyKt ++ le 3 0 ++ le 4 g.blind ++ le 9 g.blindKt ++ le 3 0 ++ le 8 g.dead
    ++ le 4 s.sbase ++ le 1 fl ++ le 1 (if g.mode = 2 then 32 else 8) ++ le 2 g.epochId ++ le 2 g.leadLost ++ le 2 0
    ++ le 8 pos0 ++ le 16 0 ++ unres ++ (List.range 1024).flatMap fun c => leI 2 (if c < s.nChan then s.dskD c else 0)

/-- The body of an ALIGNMENT record (R213); its cable delays are those in effect when the segment opened (R360). -/
def State.alignBody (s : State) (g : Seg) : List Byte :=
  let tt := match g.trig with
    | some x => x.t
    | none => 0
  le 9 tt ++ le 1 s.refReport ++ le 1 (s.rd TMB_REF_CFG_src + 4 * b2n g.trig.isSome) ++ le 1 0 ++ le 4 s.holdAge
    ++ le 4 (s.rd TMB_PHASE_ERR_value) ++ le 2 (s.rd TMB_EPOCH_CTL_epoch_id) ++ le 2 0
    ++ (List.range 4).flatMap (fun n => leI 4 (g.cable.getD n 0)) ++ leI 4 s.y40 ++ le 4 g.idx

/-- Writes bytes of a record of the segment again in place, from its byte `o` on (R209); the record starts at unit `u`. -/
def State.redo (s : State) (g : Seg) (u o : Nat) (bs : List Byte) : State :=
  s.capStore ⟨g.idx, u + o / 64, u + cdiv (o + bs.length) 64, s.capAddr g.place u + o, bs, 0, []⟩

/-- The kt of a header whose segment starts at `pos0` is at sample resolution (R206): that of the record there in M3 to M5; the
start of a sample is exact. -/
def State.coarseAt (s : State) (pos0 : Nat) : Bool :=
  s.recordMode && decide (s.acq.unitBase ≤ pos0) && (match s.units[pos0 - s.acq.unitBase]? with
    | some u => u.sres
    | none => false)

/-- The header as it stands. -/
def State.headerRec (s : State) (g : Seg) (pos0 kt : Nat) (final : Bool) (unres : List Byte) : Rec :=
  ⟨0x01, flags g.suspect (s.coarseAt pos0) false final, g.mode, kt, s.headerBody g pos0 unres⟩

/-- The ALIGNMENT record as it stands; its span is the instant of its kt. -/
def State.alignRec (s : State) (g : Seg) (pos0 kt : Nat) (final : Bool) : Rec :=
  ⟨0x0B, flags (s.susTime kt kt) (s.coarseAt pos0) false final, g.mode, kt, s.alignBody g⟩

/-- Open CLOCK_SUSPECT intervals: start, x and y of their MARK records (R131, R221). -/
def State.suspects (s : State) : List (Nat × Nat × Nat) :=
  ([(s.clk.s.suspect, 0, 0), (s.clk.c.suspect, 1, 0), (s.clk.m.suspect, 2, 0)].filterMap fun p => p.1.map fun t => (t, p.2))
    ++ s.clk.dllSuspect.map (fun p => (p.2, 3, p.1)) ++ (s.clk.extSuspect.map fun t => (t, 4, 0)).toList

/-- Counts a GAP record written into the open segment (R186). DESIGN CHOICE (log entry 42): unsafe. -/
def State.gapDone (s : State) (lost : Nat) : State :=
  let s1 := ((s.addSat ACQ_GAP_CNT_count 1).addF ACQ_LOST lost).orF ACQ_EVT_gap 1
  match s1.acq.seg with
  | some g => { s1 with acq := { s1.acq with seg := some { g with gapN := g.gapN + 1, lost := g.lost + lost } } }
  | none => s1

/-- Mask of the populated tiles. -/
def State.allTiles (s : State) : Nat := 2 ^ s.nTiles - 1

/-- Writes a queued record with the LEAD flag. -/
def State.putLead (s : State) (r : Rec) : State :=
  if r.typ = 0x0D then s.capPut r else s.capPut { r with flags := r.flags ||| 4 }

/-- Opens the next segment with its records in the order of R210; `g0` gives its number, place, fill and trigger fields,
`n` the channels whose deskew changed at the boundary, `ls` the channels whose spare lane took over there (R409). The boundary is
the end of post-fill. Where no coefficient changed there is no MARK DESKEW_APPLIED. DESIGN CHOICE (log entry 105): unsafe. -/
def State.openSeg (s : State) (g0 : Seg) (n : Nat) (ls : List Nat) : State :=
  let kt := g0.fillKt
  let g := { g0 with seq0 := s.acq.seq, leadLost := min 65535 s.acq.leadLost, suspect := s.susTime kt kt, evt := 0, wofs := 0,
                     evs := [], cable := (List.range 4).map s.cableDly, epochId := s.rd TMB_EPOCH_CTL_epoch_id, alnAt := if n = 0 then 36 else 37 }
  let s1 := { s with acq := { s.acq with seg := some g, leadLost := 0, opening := none, stopped := none } }
  let s2 := s1.capPut (s1.headerRec g g.fillPos kt false (s1.unresMap s1.nowPos (s1.nowPos + 1)))
  let s3 := if n = 0 then s2 else s2.capPut (s2.markRec g.deadFrom 4 0 0 0 0 n 0 g.idx false)
  let s4 := s3.capPut (s3.alignRec g g.fillPos kt false)
  let s5 := match s4.acq.relock with
    | some (t, cause, lost, pos) =>
      (({ s4 with acq := { s4.acq with relock := none } }.capPut (s4.gapRec t kt cause s.allTiles g.idx lost (pos.getD g.fillPos) false))).gapDone 0
    | none => s4
  let s6 := match s5.acq.srcMark with
    | some x => { s5 with acq := { s5.acq with srcMark := none } }.capPut (s5.markRec kt 8 0 0 x 0 0 0 g.idx false)
    | none => s5
  let s7 := s6.suspects.foldl (fun s p => s.capPut (s.markRec p.1 2 0 0 p.2.1 p.2.2 0 0 g.idx false)) s6
  let s8 := s7.acq.leads.foldl State.putLead s7
  let s9 := (ls.map fun c => s7.markRec g.deadFrom 10 0 c 0 (c / 256) 0 0 g.idx false).foldl State.capPut s8
  let seg := s9.acq.seg.map fun (x : Seg) => { x with evt := x.wofs - 1024 }
  { s9 with acq := { s9.acq with leads := [], next := g.idx + 1, held := s9.acq.held ++ [(g.place, g.chain)], seg := seg } }.wr
    ACQ_STAT_chained (b2n g.cont)

/-- A segment that is not to open after all: what was to be told with it is queued (R188, R133, R210). -/
def State.dropOpening (s : State) : State :=
  match s.acq.opening with
  | none => s
  | some o =>
    let a := if o.n = 0 then [] else [s.markRec o.g.deadFrom 4 0 0 0 0 o.n 0 noSeg false]
    let b := o.ls.map fun c => s.markRec o.g.deadFrom 10 0 c 0 (c / 256) 0 0 noSeg false
    (a ++ b).foldl State.lead { s with acq := { s.acq with opening := none } }

/-- A segment that begins its pre-fill at `t`, with its dead time from `dead`. -/
def State.newSeg (s : State) (t dead : Nat) : Seg :=
  let i := s.acq.next
  ⟨i, i, i % max 1 s.nSegs, s.mode, s.fillAt t, if s.recordMode then t else s.grid.start (s.fillAt t), false, none, 0, 0, 0, 0, 0,
    dead, 0, 0, 0, 0, 0, false, 0, 0, 36, 0, 0, 0, false, none, [], []⟩

/-! ### Data blocks -/

/-- The records [a, b) of the segment that are stored: not lost, qualified or at the trigger time (R177). Where no record has exactly the
trigger time, which R177 does not consider, none is stored on its account. DESIGN CHOICE (log entry 123): unsafe. -/
def State.storedUnits (s : State) (g : Seg) (a b : Nat) : List (Nat × RUnit) :=
  let l := (s.units.zipIdx s.acq.unitBase).map fun p => (p.2, p.1)
  l.filter fun p => decide (a ≤ p.1) && decide (p.1 < b) && !p.2.lost &&
    (!s.on ACQ_CFG_qual_en || logAt s.acq.qualLog p.2.pos || (match g.trig with
      | some x => decide (p.2.t = x.t)
      | none => false))

/-- Cuts a list of records into blocks of at most `n` whose offsets stay below 2^48. -/
def blocksOf (n : Nat) : List (Nat × RUnit) → List (Nat × RUnit) → List (List (Nat × RUnit))
  | cur, [] => if cur.isEmpty then [] else [cur.reverse]
  | cur, p :: r =>
    match cur.getLast? with
    | none => blocksOf n [p] r
    | some f => if cur.length < n ∧ p.2.t - f.2.t < 2 ^ 48 then blocksOf n (p :: cur) r else cur.reverse :: blocksOf n [p] r

/-- One block of record units: type, mode, source, words, groups, kt and whether it is at sample resolution, its entries and the
filler of an unused place. -/
def blockRec (typ mode src w groups seg kt : Nat) (coarse : Bool) (l : List (Nat × RUnit)) (entry : RUnit → List Byte) (fill : Byte) : Rec :=
  let pos := match l.head? with
    | some p => p.1
    | none => 0
  let es := l.flatMap fun p => entry p.2
  ⟨typ, flags (l.any fun p => p.2.sus) coarse false true, mode, kt,
    subHdr src w 0 0 l.length pos seg groups ++ es ++ List.replicate (64 * cdiv es.length 64 - es.length) fill⟩

/-- Time of the first record of a block. -/
def headT (l : List (Nat × RUnit)) : Nat :=
  match l.head? with
  | some p => p.2.t
  | none => 0

/-- The first record of a block has its time at sample resolution (R206). -/
def headSres (l : List (Nat × RUnit)) : Bool :=
  match l.head? with
  | some p => p.2.sres
  | none => false

/-- Start time of the first record of a block. -/
def headT0 (l : List (Nat × RUnit)) : Nat :=
  match l.head? with
  | some p => p.2.t0
  | none => 0

/-- The time word of R217 and the first eight bytes of R216. -/
def edgeWord (kt : Nat) (u : RUnit) : Nat :=
  (u.t - kt) % 2 ^ 48 + 2 ^ 48 * (u.ch % 1024) + 2 ^ 58 * b2n u.up + 2 ^ 59 * b2n u.sres + 2 ^ 60 * b2n u.sus

/-- EDGE_BLOCKs of the tiles in M4 (R216). -/
def State.edgeBlocks (s : State) (seg : Nat) (l : List (Nat × RUnit)) : List Rec :=
  (List.range s.nTiles).flatMap fun tile =>
    (blocksOf 8184 [] (l.filter fun p => p.2.ch / 256 = tile)).map fun b =>
      blockRec 0x03 4 tile 0 0 seg (headT b) (headSres b) b (fun u => le 8 (edgeWord (headT b) u)) 255

/-- STATE_BLOCKs of the state clocks (R217). -/
def State.stateBlocks (s : State) (seg : Nat) (l : List (Nat × RUnit)) : List Rec :=
  s.stClocks.flatMap fun j =>
    let gs := s.groupsOf j
    let w := gs.length
    (blocksOf (65472 / (8 + 8 * w)) [] (l.filter fun p => p.2.src = j)).map fun b =>
      blockRec 0x04 3 j w ((gs.map fun g => 2 ^ g).sum) seg (headT b) (headSres b) b
        (fun u => le 8 ((u.t - headT b) % 2 ^ 48 + 2 ^ 48 * b2n u.sus + 2 ^ 49 * b2n u.sres)
          ++ gs.flatMap (fun g => le 8 (packBits 64 fun i => s.acq.sampleBit (64 * g + i) u.pos))) 255

/-- INTERVAL_BLOCKs (R218). -/
def intervalBlocks (seg : Nat) (l : List (Nat × RUnit)) : List Rec :=
  (blocksOf 2046 [] l).map fun b => blockRec 0x05 5 0 0 0 seg (headT0 b) (headSres b) b (fun u => le 32 u.val) 0

/-- First position of a data block. -/
def Rec.pos (r : Rec) : Nat := field r.body 8 8

/-- Insertion by first position, then source (R208). -/
def insBlock (r : Rec) : List Rec → List Rec
  | [] => [r]
  | x :: l => if r.pos < x.pos ∨ (r.pos = x.pos ∧ field r.body 0 1 < field x.body 0 1) then r :: x :: l else x :: insBlock r l

/-- The data blocks of positions [a, b) of the segment, in order (R208). -/
def State.dataBlocks (s : State) (g : Seg) (a b : Nat) : List Rec :=
  let sample := fun (tiles : List Nat) => tiles.flatMap fun t => (s.runs g t a b).flatMap (s.runBlocks g.mode g.idx t)
  if s.comp then
    let x := s.unitsBefore (s.grid.start a)
    let y := s.unitsBefore (s.grid.start b)
    let l := s.storedUnits g x y
    let half := if s.hks.pair then s.edgeBlocks g.idx l else intervalBlocks g.idx l
    (sample [0] ++ half).foldl (fun acc r => insBlock r acc) []
  else
    let l := match g.mode with
      | 1 | 2 => sample (List.range s.nTiles)
      | 3 => s.stateBlocks g.idx (s.storedUnits g a b)
      | 4 => s.edgeBlocks g.idx (s.storedUnits g a b)
      | 5 => intervalBlocks g.idx (s.storedUnits g a b)
      | _ => []
    l.foldl (fun acc r => insBlock r acc) []

/-! ### Closing a segment -/

/-- Bytes of one record unit (R216 to R218). -/
def State.unitBytes (s : State) : Nat :=
  match s.mode with
  | 3 => 8 + 8 * (s.stClocks.map fun j => (s.groupsOf j).length).foldl max 0
  | 4 => 8
  | _ => 32

/-- Positions given up at the end of the post-trigger part for `x` 64-byte units of excess, and the units given up (R176). -/
def State.giveUp (s : State) (x : Nat) : Nat × Nat :=
  if x = 0 then (0, 0)
  else if s.recordMode then
    let r := cdiv (64 * x) s.unitBytes
    (r, cdiv (r * s.unitBytes) 64)
  else if s.mode = 6 then (0, 0)
  else
    let step := 4 * (if s.comp then 1 else s.nTiles)
    (cdiv x step * s.grid.phases, cdiv x step * step)

/-- The GAP record of a storage stall that the segment's close or the resume ends at position `e`, time `t` (R186). Where no position
of the segment is lost there is none. -/
def State.stallGap (s : State) (g : Seg) (e t : Nat) : State :=
  match s.acq.gapFrom with
  | none => s
  | some (p, kt) =>
    let lostU := s.units.filter fun u => u.lost && decide (g.fillKt ≤ u.t) && decide (kt ≤ u.t)
    let p0 := if s.recordMode then s.acq.unitBase + (s.units.filter fun u => u.t < max kt g.fillKt).length else max p g.fillPos
    let lost := if s.recordMode then lostU.length else e - p0
    let k0 := if s.recordMode then (match lostU.head? with
      | some u => u.t
      | none => max kt g.fillKt) else s.grid.start p0
    let coarse := match lostU.head? with
      | some u => s.recordMode && u.sres
      | none => false
    if e ≤ p0 ∧ s.recordMode = false then s else (s.event (s.gapRec k0 t 1 s.allTiles g.idx lost p0 coarse)).gapDone lost

/-! ### The layout of a segment (R175, R176, R208) -/

/-- The unit after a record placed at unit `w` or, where it does not fit there, at the next 64 KiB unit. -/
def unitAfter (w n : Nat) : Nat := if n ≤ 1024 - w % 1024 then w + n else cdiv w 1024 * 1024 + n

/-- First 64-byte unit of a segment's reserve. -/
def State.reserveAt (s : State) : Nat := (s.rd ACQ_SEG_size - cdiv (s.rd ACQ_SEG_size) 64) * 1024

/-- The unit after the non-data records `es` and the trailer, written from unit `w` on. -/
def recsEnd (es : List Rec) (w : Nat) : Nat := unitAfter (es.foldl (fun w r => unitAfter w r.units) w) 2

/-- The unit after the data blocks `bs`, each in its own 64 KiB unit. -/
def dataEnd (w : Nat) (bs : List Rec) : Nat := bs.foldl (fun w r => cdiv w 1024 * 1024 + r.units) w

/-- Where the non-data records of a segment begin whose data end at unit `w`: with its reserve or, where they do not fit into that,
behind its data. DEDUCED (log entry 91): unsafe. -/
def State.recsAt (s : State) (g : Seg) (w : Nat) : Nat :=
  if recsEnd g.evs (max w s.reserveAt) ≤ s.rd ACQ_SEG_size * 1024 then max w s.reserveAt else w

/-- 64-byte units that the segment needs with the data blocks `bs`, its non-data records and the trailer. -/
def State.segNeed (s : State) (g : Seg) (bs : List Rec) : Nat :=
  let w := dataEnd g.wofs bs
  recsEnd g.evs (s.recsAt g w)

/-- The end of the span and the units given up so that the segment fits into its place: as long as it does not, positions are given up
at the end for the units in excess (R176). -/
def State.segFit (s : State) (g : Seg) (a : Nat) : Nat → Nat → Nat → Nat × Nat
  | 0, b, short => (b, short)
  | fuel + 1, b, short =>
    let x := s.segNeed g (s.dataBlocks g a b) - s.rd ACQ_SEG_size * 1024
    let (cutPos, cutUnits) := s.giveUp x
    if cutPos = 0 ∨ b ≤ a then (b, short) else s.segFit g a fuel (max a (b - cutPos)) (short + cutUnits)

/-- The place a next segment would take is held by a segment of this arm (R179). -/
def State.placeHeld (s : State) (i : Nat) : Bool :=
  !s.on ACQ_CFG_stream && s.acq.held.any fun h => h.1 = i % max 1 s.nSegs

/-- Overwrites the oldest segment, or its whole chain, when the place of segment i is held (R179). -/
def State.freePlace (s : State) (i : Nat) : State :=
  if s.placeHeld i then
    match s.acq.held with
    | [] => s
    | h :: _ => { s with acq := { s.acq with held := s.acq.held.filter fun x => x.2 ≠ h.2 } }.addSat ACQ_OVERWR_count 1
  else s

/-- The GAP record of the edges state clock j has lost, up to `t` (R190, R220). -/
def State.stGap (t : Nat) (s : State) (j : Nat) : State :=
  match look s.acq.stRun j with
  | some ⟨a, n, d, some (k, p, lost)⟩ =>
    let s1 := { s with acq := { s.acq with stRun := ins s.acq.stRun j ⟨a, n, d, none⟩ } }
    (s1.event (s1.gapRec k t 5 (2 ^ (j / 4)) s1.segNo lost p (s1.coarseT k))).gapDone lost
  | _ => s

/-- The trailer (R212) of the segment over positions [a, b), with the units given up. -/
def State.trailerRec (s : State) (g : Seg) (cause a b kEnd short : Nat) : Rec :=
  let pre := match s.trigAt g with
    | some k => min b k - a
    | none => b - a
  let tf := b2n g.trig.isNone + 2 * b2n (short ≠ 0) + 4 * b2n g.cut
  let past := match g.lossEnd with
    | some k => if s.recordMode then 0 else s.grid.posOf k - b
    | none => 0
  let kt := g.lossEnd.getD kEnd
  ⟨0x0C, flags (s.susTime kt kt) false false true, g.mode, kt,
    le 1 cause ++ le 1 tf ++ le 2 0 ++ le 4 g.idx ++ le 8 (b - a + past) ++ le 4 short ++ le 4 pre ++ le 4 g.extra
      ++ le 4 g.markDrop ++ le 4 g.gapN ++ le 4 0 ++ le 8 g.lost ++ s.ruFields g.idx⟩

/-- Completes the header and the ALIGNMENT record of the segment, whose span is [a, b) and ends at `kEnd` (R209). -/
def State.headerDone (s : State) (g : Seg) (a b kEnd : Nat) : State :=
  let k0 := s.posTime a g.fillKt
  let sa := if s.recordMode then s.grid.posOf k0 else a
  let sb := if s.recordMode then s.grid.posOf kEnd else b
  let h := s.headerRec { g with suspect := s.susTime k0 (kEnd - 1) } a k0 true (s.unresMap sa (max sb (sa + 1)))
  let s1 := s.redo g 0 0 (recBytes (s.rd GRF_UNIT_ID_id) g.seq0 h)
  let s2 := s1.redo g g.alnAt 1 (le 1 (flags (s.susTime k0 k0) (s.coarseAt a) false true))
  s2.redo g g.alnAt 6 (le 9 k0)

/-- Writes a non-data record if the trailer still fits behind it. DEDUCED (log entry 91): unsafe. -/
def State.capPutFit (s : State) (r : Rec) : State :=
  match s.acq.seg with
  | some g => if unitAfter (unitAfter g.wofs r.units) 2 ≤ s.rd ACQ_SEG_size * 1024 then s.capPut r else s
  | none => s

/-- Writes what is still to be written of the segment: the data blocks of [a, b), each in a 64 KiB unit of its own, and the non-data
records in the reserve, or behind the data where they outgrow it (R175, R176). DESIGN CHOICE (log entry 40): unsafe. -/
def State.bodyOut (s : State) (g : Seg) (a b : Nat) : State :=
  let bs := s.dataBlocks g a b
  let s1 := bs.foldl State.capBlock s
  let s2 := if s.recsAt g (dataEnd g.wofs bs) = dataEnd g.wofs bs then s1 else State.capBridge s.reserveAt (s.rd ACQ_SEG_size) s1
  g.evs.foldl State.capPutFit s2

/-- What a close leaves: no open segment, the stall that goes on, the record units beyond the span, and where the trailer stands. -/
def State.segGone (s : State) (g : Seg) (a b kEnd u : Nat) (full : Bool) : State :=
  let q := s.acq
  let keep := if s.recordMode then s.units.drop (b - q.unitBase) else s.units.filter fun u => decide (kEnd ≤ u.t)
  let recs := s.recordMode || s.comp
  let s1 := { s with acq := { q with
    seg := none, gapFrom := q.gapFrom.map fun _ => (b, kEnd),
    gaps := q.gaps ++ (q.gapFrom.map fun (p : Nat × Nat) => (p.1, b)).toList,
    units := if recs then keep else q.units, unitBase := if recs then s.unitN - keep.length else q.unitBase,
    spans := q.spans ++ [(⟨g.idx, a, b, g.fillKt, kEnd, u, s.capAddr g.place u⟩ : Span)] } }
  if full then (s1.orF ACQ_EVT_seg_done 1).addSat ACQ_SEG_DONE_count 1 else s1.orF ACQ_EVT_seg_done 1

/-- Closes the open segment at position `e` (excluded) with a cause; `t` is the end of its span for a record mode, and
`past` the positions already cut from a tail beyond the capacity (R196). -/
def State.closeSeg1 (s : State) (cause e t past : Nat) : State :=
  match s.acq.seg with
  | none => s
  | some g0 =>
    let a := s.segPos0 g0 e
    let gaps := if s.acq.gapFrom.isSome then [s.gapRec 0 0 1 0 0 0 0 false] else []
    let (b, short) := s.segFit { g0 with evs := g0.evs ++ gaps } a (e - a + 1) (max a e) 0
    let pastUnits := if past = 0 then 0 else
      if s.recordMode then cdiv (past * s.unitBytes) 64 else cdiv past s.grid.phases * 4 * (if s.comp then 1 else s.nTiles)
    let kEnd := s.posTime b t
    let s1 := s.stallGap g0 b kEnd
    match s1.acq.seg with
    | none => s
    | some g =>
      let s2 := (s1.headerDone g a b kEnd).bodyOut g a b
      let s3 := if g.mode = 6 then (if g.trig.isNone then s2.redStart a else s2).redStop b else s2
      let w := match s3.acq.seg with
        | some x => x.wofs
        | none => 0
      let tr := s3.trailerRec g cause a b kEnd (short + pastUnits)
      let u := unitAfter w tr.units - tr.units
      let s4 := (s3.capPut tr).segGone g a b kEnd u (g.trig.isSome && decide (cause ≠ 8))
      { s4 with acq := { s4.acq with stopped := some (kEnd, some (g.idx, u, s.capAddr g.place u)) } }

/-- Closes the open segment; losses of state clocks are recorded in it first. DEDUCED (log entry 89): unsafe. -/
def State.closeLast (s : State) (cause e t past : Nat) : State :=
  match s.acq.seg with
  | none => s
  | some _ =>
    let s0 := if s.comp then State.timAll t s else s
    ((List.range 16).foldl (State.stGap t) s0).closeSeg1 cause e t past

/-- The open segment, full at position `e`, closes with cause CHAIN, and its continuation opens (R178, R179). -/
def State.chainNext (s : State) (g : Seg) (e t : Nat) : State :=
  let s1 := ((s.closeLast 8 e t 0).freePlace s.acq.next).takeDelays
  let s2 := s1.openSeg { s1.newSeg t t with chain := g.chain, cont := true, fillPos := e, fillKt := t, trig := g.trig, trigPos := g.trigPos } 0 []
  if s.mode = 6 then s2.redStart e else s2

/-- The place of the next segment is held, so that nothing may be overwritten there (R179). -/
def State.placeFull (s : State) : Bool := s.placeHeld s.acq.next && !s.on ACQ_CFG_wrap

/-- With spill, what the open segment holds up to `e` beyond its capacity goes on in continuations, as long as their places are free
(R178, R188). -/
def State.chainTo (e t : Nat) : Nat → State → State
  | 0, s => s
  | fuel + 1, s =>
    match s.acq.seg with
    | none => s
    | some g =>
      let b := s.segPos0 g e + s.segCap
      if !s.on ACQ_CFG_spill || s.segCap = 0 || decide (e ≤ b) || s.placeFull then s
      else State.chainTo e t fuel (s.chainNext g b (s.posTime b t))

/-- Closes the open segment at position `e`, or the last of the chain that reaches there. -/
def State.closeSeg (s : State) (cause e t past : Nat) : State := (State.chainTo e t (e + 1) s).closeLast cause e t past

/-! ### Triggers (R180, R181) -/

/-- The accepted trigger goes into the header of the open segment: its trigger fields, bytes 40 to 51; and into the ALIGNMENT record,
whose fields are taken again (R209, R213). -/
def State.trigRecords (s : State) (g : Seg) (x : Trig) : State :=
  let s1 := s.redo g 0 40 (le 9 x.t ++ le 1 (trigInfo g.trig) ++ le 2 x.ch)
  s1.redo g g.alnAt 16 (s1.alignBody g)

/-- ACQ_TRIG_* of an accepted trigger. -/
def State.trigRegs (s : State) (x : Trig) : State :=
  (((s.wr ACQ_TRIG_kt x.t).wr ACQ_TRIG_HI_sres (b2n x.coarse)).wr ACQ_TRIG_HI_source x.src).wr ACQ_TRIG_HI_valid 1

/-- A blind trigger of the segment to come (R181). -/
def Seg.blindTrig (g : Seg) (t : Nat) : Seg := { g with blind := g.blind + 1, blindKt := if g.blind = 0 then t else g.blindKt }

/-- An acquisition trigger in sample `k`, the first of its sample, by the state it arrives in (R181). -/
def State.trigger1 (s : State) (x : Trig) (k : Nat) : State :=
  match s.acqSt, s.acq.seg with
  | 2, some g =>
    let g1 := { g with early := g.early + 1, earlyKt := if g.early = 0 then x.t else g.earlyKt }
    ({ s with acq := { s.acq with seg := some g1 } }.addSat ACQ_EARLY_CNT_count 1).orF ACQ_EVT_early 1
  | 2, none => (s.addSat ACQ_EARLY_CNT_count 1).orF ACQ_EVT_early 1
  | 3, some g =>
    let g1 := { g with trig := some x, trigPos := k }
    let s1 := { s with acq := { s.acq with seg := some g1, lastTrig := x.t } }
    let s2 := ((((s1.wr ACQ_STAT_state 4).trigRecords g1 x).trigRegs x).addSat ACQ_TRIG_CNT_count 1).orF ACQ_EVT_trig 1
    if s.mode = 6 then s2.redStart (s2.segPos0 g1 k) else s2
  | 4, some g => { s with acq := { s.acq with seg := some { g with extra := g.extra + 1 } } }.addSat ACQ_EXTRA_CNT_count 1
  | 5, some g => ({ s with acq := { s.acq with seg := some (g.blindTrig x.t) } }.addSat ACQ_BLIND_CNT_count 1).orF ACQ_EVT_blind 1
  | 5, none =>
    let o := s.acq.opening.map fun (o : Opening) => { o with g := o.g.blindTrig x.t }
    ({ s with acq := { s.acq with opening := o } }.addSat ACQ_BLIND_CNT_count 1).orF ACQ_EVT_blind 1
  | _, _ => s

/-- The trigger `x` of sample `k` takes the place of `y`, which fell in the same sample (R180). -/
def State.trigger2 (s : State) (x y : Trig) : State :=
  match s.acqSt, s.acq.seg with
  | 2, some g => if g.earlyKt = y.t then { s with acq := { s.acq with seg := some { g with earlyKt := x.t } } } else s
  | 4, some g =>
    if g.trig = some y then
      let g1 := { g with trig := some x }
      ({ s with acq := { s.acq with seg := some g1, lastTrig := x.t } }.trigRecords g1 x).trigRegs x
    else s
  | 5, some g => if g.blindKt = y.t then { s with acq := { s.acq with seg := some { g with blindKt := x.t } } } else s
  | 5, none =>
    let o := s.acq.opening.map fun (o : Opening) => if o.g.blindKt = y.t then { o with g := { o.g with blindKt := x.t } } else o
    { s with acq := { s.acq with opening := o } }
  | _, _ => s

/-- Of two triggers in one sample the earlier is taken; on equal times Trellis, then Hedge, then the host (R180). -/
def Trig.before (x y : Trig) : Bool := decide (x.t < y.t) || (x.t = y.t && decide (x.src < y.src))

/-- An acquisition trigger in sample `k` (R180, R181). -/
def State.trigger (s : State) (x : Trig) (k : Nat) : State :=
  match s.acq.seen.filter fun p => p.1 = k with
  | some (_, y) => if x.before y then { s.trigger2 x y with acq := { (s.trigger2 x y).acq with seen := some (k, x) } } else s
  | none => { s.trigger1 x k with acq := { (s.trigger1 x k).acq with seen := some (k, x) } }

end Sys2Proof.Machine
end

