-- ==== Sys2Proof/Machine/Graft.lean ====
section
/-! DEFINITION. Graft (R349 to R361): frames, ports, trigger messages and the timescale check. -/

namespace Sys2Proof.Machine

/-! ### Frames (R351 to R353) -/

/-- CRC-16 of a frame's first `n` bytes (R353). -/
def crc16 (n bits : Nat) : Nat := (le n bits).foldl (fun c b => crc16Byte 0x1021 (c ^^^ (256 * b.toNat)) 8) 0xFFFF

/-- A frame of `n` bytes before its CRC, with the CRC, inverted or not (R353, R356). -/
def withCrc (n bits : Nat) (inv : Bool) : Nat := bits + 256 ^ n * (crc16 n bits ^^^ (if inv then 0xFFFF else 0))

/-- A TRIG frame without its CRC (R352). -/
def trigBits (hop src seq mark : Nat) (coarse : Bool) (kt : Nat) : Nat :=
  1 + 2 ^ 4 * (hop % 16) + 2 ^ 8 * (src % 4096) + 2 ^ 20 * (seq % 256) + 2 ^ 28 * (mark % 256) + 2 ^ 36 * b2n coarse
    + 2 ^ 40 * (kt % 2 ^ 72)

/-- A SYNC frame without its CRC (R352). -/
def syncBits (src t3 t1 t2 : Nat) : Nat :=
  2 + 2 ^ 4 * (src % 4096) + 2 ^ 16 * (t3 % 2 ^ 72) + 2 ^ 88 * (t1 % 2 ^ 72) + 2 ^ 160 * (t2 % 2 ^ 72)

/-- A received frame is valid: known type, length and CRC (R353). -/
def frameOk (bits blocks : Nat) : Bool :=
  match bits % 16 with
  | 1 => blocks = 2 && bits / 2 ^ 112 % 65536 = crc16 14 bits
  | 2 => blocks = 4 && bits / 2 ^ 240 % 65536 = crc16 30 bits
  | _ => false

/-! ### Ports -/

/-- A port after reset. -/
def portNew : GPort := ⟨0, [], [], none, none, [], [], false, false, 0⟩

/-- Hidden state of port `n`. -/
def State.gport (s : State) (n : Nat) : GPort := (look s.grf.ports n).getD portNew

/-- Stores it. -/
def State.putPort (s : State) (n : Nat) (g : GPort) : State := { s with grf := { s.grf with ports := ins s.grf.ports n g } }

/-- The port is UP. -/
def State.portUp (s : State) (n : Nat) : Bool := s.rd (GRF_GLn_STAT_state n) = 2

/-- Moves a port to OFF (0) or TRAINING (1), reporting the end of UP (R354). -/
def State.portTo (s : State) (n st : Nat) : State :=
  let s1 := if s.portUp n then s.orF GRF_EVT_link_down 1 else s
  (s1.putPort n { s1.gport n with good := 0, starts := [], own := [], syncAt := none }).wr (GRF_GLn_STAT_state n) st

/-- The state that en and the core domain give a port (R354). -/
def State.portEval (n : Nat) (s : State) : State :=
  if s.on (GRF_GLn_CFG_en n) && s.coreRun then
    if s.rd (GRF_GLn_STAT_state n) = 0 then s.portTo n 1 else s
  else if s.rd (GRF_GLn_STAT_state n) = 0 then s else s.portTo n 0

/-- The state of every port, after a change of mode or of the core domain. -/
def State.portsEval (s : State) : State := (List.range 4).foldl (fun s n => s.portEval n) s

/-- A frame dropped at port `n` (R355 to R357). -/
def State.grfDrop (s : State) (n : Nat) : State := (s.bump (GRF_GLn_ERR_drop n)).orF GRF_EVT_drop 1

/-- Time from one frame of a queue to the next: 5.12 ns (R351). -/
def trigF : Nat := 10486

/-- A SYNC frame of port `n` that a TRIG frame at `t` cuts short leaves with the blocks sent by then, a control block after them; one not
begun is not sent (R357). -/
def syncCut (n t : Nat) (f : Frame) : Option Frame :=
  if f.port = n ∧ f.blocks = 4 ∧ f.t ≤ t ∧ t < f.t + 2 * trigF then
    let k := 2 * (t - f.t) / trigF
    if k = 0 then none else some { f with blocks := k, bits := f.bits % 2 ^ (64 * k) }
  else some f

/-- Queues a TRIG frame at an UP port with room, an XTRIG action's (`own`) or a forwarded one; the frame being sent has left the queue,
and a SYNC still being sent is cut short. A forwarded frame goes before those of XTRIG actions that reached the queue in the same core
cycle, the last of which finds the queue full in its place (R357). Also whether the frame is sent. -/
def State.sendTrig (s : State) (n bits t : Nat) (own : Bool) : State × Bool :=
  let g := s.gport n
  let ahead := g.starts.filter fun x => t < x
  let late := if own || g.starts.isEmpty then [] else g.own.filter fun p => p.1 / s.cnom = t / s.cnom
  let full := decide (4 ≤ ahead.length)
  if !s.portUp n then (s.grfDrop n, false)
  else if full && late.isEmpty then (s.grfDrop n, false)
  else
    let last := match g.starts.head? with
      | some x => max t (x + trigF)
      | none => t
    let at_ := (late.map (·.2)).foldl min last
    let moves := fun (f : Frame) => f.port = n && late.any fun p => p.2 = f.t
    let sent := (s.grf.sent.filterMap (syncCut n last)).filterMap fun f =>
      if !moves f then some f else if full && decide (last ≤ f.t + trigF) then none else some { f with t := f.t + trigF }
    let s1 := s.putPort n { g with
      starts := if full then g.starts else last :: ahead,
      own := if own then (t, at_) :: g.own.filter (fun p => p.1 / s.cnom = t / s.cnom)
        else (late.map fun p => (p.1, p.2 + trigF)).filter fun p => !full || decide (p.2 < last) }
    let s2 : State := { s1 with grf := { s1.grf with sent := ⟨n, bits, 2, at_⟩ :: sent } }
    (if full then s2.grfDrop n else s2, true)

/-! ### Trigger messages (R355, R356) -/

/-- An XTRIG action that names the GL ports of `mask` (R355). -/
def State.grfXtrig (s : State) (mask mark : Nat) (coarse : Bool) (kt t : Nat) : State :=
  if mask % 16 = 0 then s else
  let q := s.grf.seqN
  let bits := withCrc 14 (trigBits 0 (s.rd GRF_UNIT_ID_id) q mark coarse kt) false
  let (s1, sent) := (List.range 4).foldl (fun (p : State × Bool) n =>
    if bit mask n then ((p.1.sendTrig n bits t true).1, p.2 || (p.1.sendTrig n bits t true).2) else p) (s, false)
  let s2 := { s1 with grf := { s1.grf with seqN := (q + 1) % 256 } }.wr GRF_TX_seq q
  if sent then s2.bump GRF_TX_count else s2

/-- Ports that forwarding from port `n` names (R356, R365). -/
def State.fwdPorts (s : State) (n : Nat) : List Nat := (List.range 4).filter fun m => m ≠ n && bit (s.rd (GRF_GLn_CFG_fwd n)) m

/-- The message repeats one accepted within 10 µs, or is this unit's own (R356). -/
def State.grfDup (s : State) (src seq t : Nat) : Bool :=
  (s.on GRF_UNIT_ID_valid && src = s.rd GRF_UNIT_ID_id) ||
    s.grf.seen.any fun p => p.1 = src && p.2.1 = seq && decide (t ≤ p.2.2 + 10 * usF)

/-- The peer of port `n` reports this unit's ID: the port discards every TRIG frame it receives (R350). -/
def State.peerDup (s : State) (n : Nat) : Bool :=
  s.on GRF_UNIT_ID_valid && s.on (GRF_GLn_STAT_peer_valid n) && s.rd (GRF_GLn_STAT_peer n) = s.rd GRF_UNIT_ID_id

/-- Trellis is evaluating (R141, R143). -/
def State.trlRuns (s : State) : Bool := s.armed && s.grid.run

/-- A TRIG frame with a valid CRC (R350, R356). DESIGN CHOICE (log entry 53): unsafe. -/
def State.trigFrame (n hop src seq mark : Nat) (coarse : Bool) (kt t : Nat) (s : State) : State :=
  let s0 := s.advance t
  let s := if s0.portUp n then s0.putPort n { s0.gport n with okAt := t } else s0
  if !s.portUp n then s
  else if s.peerDup n then s
  else if s.grfDup src seq t then s.bump GRF_DUP_count
  else
    let s1 := { s with grf := { s.grf with seen := ((src, seq, t) :: s.grf.seen).take 16 } }
    let s2 := ((((s1.wr (GRF_GLn_LAST_SRC_valid n) 1).wr (GRF_GLn_LAST_SRC_coarse n) (b2n coarse)).wr (GRF_GLn_LAST_SRC_hop n) hop).wr
      (GRF_GLn_LAST_SRC_src n) src).wr (GRF_GLn_LAST_SRC_mark_code n) mark
    let s3 := ((s2.wr (GRF_GLn_LAST_kt n) (kt % 2 ^ 72 + 2 ^ 88 * seq)).bump (GRF_GLn_RX_rx n)).orF GRF_EVT_rx 1
    let s4 := if s3.trlRuns then { s3 with trl := { s3.trl with gl := s3.trl.gl ++ [(8 + n, t)] } } else s3.bump (GRF_GLn_RX_ign n)
    let outs := s4.fwdPorts n
    if hop + 1 < s4.rd GRF_CFG_max_hop then
      outs.foldl (fun s m => (s.sendTrig m (withCrc 14 (trigBits (hop + 1) src seq mark coarse kt) false) t false).1) s4
    else outs.foldl (fun s _ => s.grfDrop n) s4

/-- A frame that fails R353 is discarded and counted, a SYNC cut short excepted (R357). A TRIG frame already on its way to
other ports leaves them with its CRC inverted (R356). -/
def State.frameDiscard (n bits blocks t : Nat) (s : State) : State :=
  let s := s.advance t
  if s.rd (GRF_GLn_STAT_state n) = 0 ∨ frameOk bits blocks ∨ !s.lands then s
  else if bits % 16 = 2 ∧ blocks < 4 then s
  else
    let s1 := ((s.putPort n { s.gport n with good := 0 }).bump (GRF_GLn_ERR_crc n)).orF GRF_EVT_crc 1
    let hop := bits / 2 ^ 4 % 16
    let src := bits / 2 ^ 8 % 4096
    let seq := bits / 2 ^ 20 % 256
    if bits % 16 = 1 ∧ blocks = 2 ∧ s.portUp n = true ∧ s.peerDup n = false ∧ hop + 1 < s.rd GRF_CFG_max_hop ∧ s.grfDup src seq t = false then
      let out := withCrc 14 (bits % 2 ^ 112 - 2 ^ 4 * hop + 2 ^ 4 * (hop + 1)) true
      ((s1.fwdPorts n).filter s1.portUp).foldl (fun s m => (s.sendTrig m out t false).1) s1
    else s1

/-! ### SYNC frames (R354, R359 to R361) -/

/-- Mean of a list of numbers over `d`, rounded to nearest. -/
def meanOf (l : List Int) (d : Nat) : Int := rnd l.sum (d * max 1 l.length)

/-- A difference of two KT72 values. -/
def ktDiff (a b : Nat) : Int := sx 72 (((a : Int) - b) % 2 ^ 72).toNat

/-- The offset alarm of R361, on an UP port. -/
def State.ofsCheck (s : State) (n : Nat) : State :=
  if !s.portUp n then s else
  let g := s.gport n
  let v := (s.rdS (GRF_GLn_OFS_value n)).natAbs
  let thr := s.rd GRF_OFS_THR_thr
  if thr < v then
    let s1 := s.orF GRF_EVT_ofs 1
    if g.ofsOn then s1 else (s1.bbox 0x51 n (s.rd (GRF_GLn_OFS_value n))).putPort n { g with ofsOn := true }
  else if g.ofsOn && decide (2 * v ≤ thr) then s.putPort n { g with ofsOn := false }
  else s

/-- Delay and offset measured from a SYNC frame (R359). -/
def State.syncMeasure (s : State) (n t3 t1 t2 t4 : Nat) : State :=
  let g := s.gport n
  let ds := ((ktDiff t4 t1 - ktDiff t3 t2) :: g.dlys).take 1024
  let os := ((ktDiff t3 t4 + s.rdS (GRF_CABLE_DLY_value n)) :: g.ofss).take 1024
  let s1 := s.putPort n { g with dlys := ds, ofss := os }
  ((s1.wr (GRF_GLn_DLY_value n) (satU 32 (meanOf ds 2))).wr (GRF_GLn_OFS_value n) (satU 32 (meanOf os 1)))

/-- A valid SYNC frame, in TRAINING or UP: peer, measurement, training, offset alarm (R350, R354, R359, R361).
DEDUCED (log entry 55): unsafe. -/
def State.syncFrame (n unit t3 t1 t2 t : Nat) (s : State) : State :=
  let s := s.advance t
  let st := s.rd (GRF_GLn_STAT_state n)
  if st = 0 ∨ !s.lands then s else
  let g := s.gport n
  let dup := s.on GRF_UNIT_ID_valid && unit = s.rd GRF_UNIT_ID_id
  let s1 := (s.wr (GRF_GLn_STAT_peer n) unit).wr (GRF_GLn_STAT_peer_valid n) 1
  let s2 := if dup then s1.orF GRF_EVT_dup_id 1 else s1
  let s3 := if dup && !g.dup then s2.bbox 0x50 n unit else s2
  let s4 := s3.putPort n { g with good := g.good + 1, lastSync := some (t3, t), dup := dup, okAt := t }
  let s5 := s4.syncMeasure n t3 t1 t2 t
  (if st = 1 ∧ 16 ≤ g.good + 1 then (s5.wr (GRF_GLn_STAT_state n) 2).orF GRF_EVT_link_up 1 else s5).ofsCheck n

/-- A port sends its SYNC frame of the microsecond (R354): the sender's ID, its time, and the last SYNC received, whose
fields are free while none has been. DESIGN CHOICE (log entry 54): safe. -/
def State.syncSend (n t : Nat) (s : State) : State :=
  let s := s.advance t
  let g := s.gport n
  let early := match g.syncAt with
    | some x => decide (t < x + usF)
    | none => false
  if s.rd (GRF_GLn_STAT_state n) = 0 || early || !s.lands then s else
  let at_ := match g.starts.head? with
    | some x => max t (x + trigF)
    | none => t
  let (k, s1) := if g.lastSync.isNone then s.draw 2 else (0, s)
  let (t1, t2) := g.lastSync.getD (Config.freeValue k, Config.freeValue (k + 1))
  let s2 := s1.putPort n { g with syncAt := some t }
  let f : Frame := ⟨n, withCrc 30 (syncBits (s.rd GRF_UNIT_ID_id) at_ t1 t2) false, 4, at_⟩
  { s2 with grf := { s2.grf with sent := f :: s2.grf.sent } }

/-- The lanes come under test: every port loses block lock (R354, R440). -/
def State.portsLost (s : State) : State :=
  (List.range 4).foldl (fun s n => if s.portUp n then s.portTo n 1 else s.putPort n { s.gport n with good := 0 }) s

/-- Block lock lost, or no valid frame for 4 µs (R354); a port that trains starts counting again when block lock is lost. -/
def State.linkTimeout (n : Nat) (lost : Bool) (t : Nat) (s : State) : State :=
  let s := s.advance t
  if s.portUp n then (if lost || decide ((s.gport n).okAt + 4 * usF ≤ t) then s.portTo n 1 else s)
  else if lost then s.putPort n { s.gport n with good := 0 } else s

end Sys2Proof.Machine
end

