-- ==== Sys2Proof/Machine/Trellis.lean ====
section
/-! DEFINITION. Trellis (R141 to R166): terms, branches, actions and decisions of one sample. -/

namespace Sys2Proof.Machine

/-! ### What a sample presents (R142, R145 to R147) -/

/-- The edges in sample `k` (R92). -/
def State.edgesIn (s : State) (k : Nat) : List LogE :=
  s.acq.log.filter fun e => e.edge && decide (e.pos = k) && s.captured e.ch

/-- The PR term: level or onset mode. -/
def State.prTerm (s : State) (p k : Nat) : Bool :=
  s.prMatch p k && (!s.on (TRL_PRp_CFG_onset p) || (decide (s.trl.first < k) && !s.prMatch p (k - 1)))

/-- Time, channel and sample-resolution flag of a completion. -/
abbrev Compl := Nat × Nat × Bool

/-- The earlier of two completions, the lowest channel on a tie. -/
def Compl.early (a b : Compl) : Compl := if b.1 < a.1 ∨ (b.1 = a.1 ∧ b.2.1 < a.2.1) then b else a

/-- The later of two completions, the lowest channel on a tie. -/
def Compl.late (a b : Compl) : Compl := if a.1 < b.1 ∨ (b.1 = a.1 ∧ b.2.1 < a.2.1) then b else a

/-- The best of a list. -/
def best (f : Compl → Compl → Compl) : List Compl → Option Compl
  | [] => none
  | x :: r => some (r.foldl f x)

/-- An edge as a completion. -/
def LogE.compl (e : LogE) : Compl := (e.t, e.ch, e.sres)

/-- EDj's event in sample `k` (R146). -/
def State.edEvent (s : State) (j k : Nat) : Option Compl :=
  let sel := s.rd (TRL_EDj_CFG_edge j)
  best Compl.early (((s.edgesIn k).filter fun e => bit sel (if e.v = 1 then 0 else 1) && s.chBit (TRL_EDj_SET_bits j) e.ch).map LogE.compl)

/-- Completion of a PR term (R158). -/
def State.prCompl (s : State) (p k : Nat) : Option Compl :=
  if decide (s.trl.first < k) && s.prMatch p (k - 1) then none else
  best Compl.late (((s.edgesIn k).filter fun e => s.chBit (TRL_PRp_CARE_bits p) e.ch).map LogE.compl)

/-- Edges of external input `i` in sample `k`, in order of time. -/
def State.extIn (s : State) (i k : Nat) : List XEdge := (s.trl.ext.filter fun e => e.i = i && decide (s.grid.posI e.t = k)).reverse

/-- Level of external input `i` as sample `k` begins. DESIGN CHOICE (log entry 46): unsafe. -/
def State.extLvl (s : State) (i k : Nat) : Bool :=
  match s.trl.ext.find? fun e => e.i = i && decide (e.t < s.grid.start k) with
  | some e => e.up
  | none => bit s.trl.lvl0 i

/-- An EXT term and its completion (R147, R158): TRIG_IN0 to 3, GATE0 to 3, GL0 to GL3. -/
def State.extTerm (s : State) (i k : Nat) : Bool × Option Compl :=
  if 8 ≤ i then (s.trl.gl.any fun m => m.1 = i && decide (s.grid.posI m.2 = k), none)
  else
    let sense := (s.rd (if i < 4 then TRL_EXT_CFG_in_sense else TRL_EXT_CFG_gate_sense)) / 4 ^ (i % 4) % 4
    let want := decide (sense % 2 = 0)
    let e := (s.extIn i k).find? fun e => e.up == want
    let c := e.map fun e => ((e.t, 0x400 + i, false) : Compl)
    if sense < 2 then
      if s.extLvl i k == want then (true, none) else (c.isSome, c)
    else (c.isSome, c)

/-! ### Counters, timers and windows (R148 to R150) -/

/-- Timer `n`. -/
def State.timer (s : State) (n : Nat) : Timer := (look s.trl.tm n).getD ⟨false, 0, 0, 0, 0⟩

/-- Elapsed time in F at `v`. DEDUCED (log entry 45): unsafe. -/
def Timer.elapsed (m : Timer) (v : Nat) : Nat := min (2 ^ 64 - 1) (m.acc + (if m.run then v - m.t0 else 0))

/-- The S count in sample `k`. -/
def Timer.samples (m : Timer) (k : Nat) : Nat := min (2 ^ 48 - 1) (m.cnt + (if m.run then k - m.k0 else 0))

/-- F per unit of timer `n`. TRL_TMn_VAL is read in µs where TRL_TMn_CFG.unit = 3, to which R168 gives no size.
DESIGN CHOICE (log entry 121): unsafe. -/
def State.tmUnit (s : State) (n : Nat) : Nat := if s.rd (TRL_TMn_CFG_unit n) = 1 then s.cnom else usF

/-- The TM term in sample `k`. -/
def State.tmTerm (s : State) (n k : Nat) : Bool :=
  let lim := s.rd (TRL_TMn_LIM_LO_value n) + 2 ^ 32 * s.rd (TRL_TMn_LIM_HI_value n)
  if s.rd (TRL_TMn_CFG_unit n) = 0 then decide (lim ≤ (s.timer n).samples k)
  else decide (lim * s.tmUnit n ≤ (s.timer n).elapsed (s.grid.start k))

/-- The CT term. -/
def State.ctTerm (s : State) (n : Nat) : Bool :=
  decide (s.rd (TRL_CTn_LIM_LO_value n) + 2 ^ 32 * s.rd (TRL_CTn_LIM_HI_value n) ≤ s.rd (TRL_CTn_VAL n))

/-- The WC term in sample `k` and its completion. -/
def State.wcTerm (s : State) (n k : Nat) : Bool × Option Compl :=
  let evS := s.on (TRL_WCn_CFG_ev_sample n)
  let ev : Option Compl := if evS then some (s.grid.start k, 0x7FF, true) else s.edEvent (s.rd (TRL_WCn_CFG_ed n)) k
  match ev with
  | none => (false, none)
  | some e =>
    let kt := s.rd (TRL_WCn_CFG_src n) = 1
    let a := s.rd (TRL_WCn_START_LO_value n) + 2 ^ 32 * s.rd (TRL_WCn_START_HI_value n)
      + (if kt then 2 ^ 64 * s.rd (TRL_WCn_CFG_start_top n) else 0)
    let b := s.rd (TRL_WCn_END_LO_value n) + 2 ^ 32 * s.rd (TRL_WCn_END_HI_value n)
      + (if kt then 2 ^ 64 * s.rd (TRL_WCn_CFG_end_top n) else 0)
    let m := s.timer (s.rd (TRL_WCn_CFG_tm n))
    let v := if kt then e.1 % 2 ^ 72 else m.elapsed e.1
    let ok := (kt || m.run) && decide (a ≤ v) && decide (v < b)
    (ok, if ok && !evS then some e else none)

/-! ### Terms, branches and the chain of a sample (R151 to R153, R158) -/

/-- TERMt of level `l` in sample `k`: its value, and its completion when true and not inverted. -/
def State.term (s : State) (l t k : Nat) : Bool × Option Compl :=
  let i := s.rd (TRL_Ln_TERMt_idx l t)
  let (v, c) : Bool × Option Compl := match s.rd (TRL_Ln_TERMt_kind l t) with
    | 1 => (true, none)
    | 2 => (s.prTerm i k, s.prCompl i k)
    | 3 => ((s.edEvent i k).isSome, s.edEvent i k)
    | 4 => (s.ctTerm i, none)
    | 5 => (s.tmTerm i k, none)
    | 6 => s.wcTerm i k
    | 7 => s.extTerm i k
    | 8 => (s.on TRL_STAT_qual, none)
    | _ => (false, none)
  if s.on (TRL_Ln_TERMt_inv l t) then (!v, none) else (v, if v then c else none)

/-- A taken branch: level, branch, decision time, channel, sample resolution. -/
structure Taken where
  level : Nat
  br : Nat
  t : Nat
  ch : Nat
  coarse : Bool
  deriving DecidableEq, Repr

/-- Branch `b` of level `l` in sample `k`, if its condition is true. -/
def State.branch (s : State) (l k b : Nat) : Option Taken :=
  if !s.on (TRL_Ln_BRb_COND_en l b) then none else
  let sel := s.rd (TRL_Ln_BRb_COND_sel l b)
  let ts := ((List.range 8).filter (bit sel)).map fun t => s.term l t k
  let or := s.on (TRL_Ln_BRb_COND_op l b)
  let ok := if or then ts.any (·.1) else ts.all (·.1)
  if !ok then none else
  match best (if or then Compl.early else Compl.late) (ts.filterMap fun x => if x.1 then x.2 else none) with
  | some c => some ⟨l, b, c.1, c.2.1, c.2.2⟩
  | none => some ⟨l, b, s.grid.start k, 0x7FF, true⟩

/-- The branches taken in sample `k` from level `l`, at most `n` in one chain, and the level after it. -/
def State.trlChain (s : State) (k : Nat) : Nat → Nat → List Taken × Nat
  | 0, l => ([], l)
  | n + 1, l =>
    match (List.range 4).findSome? (s.branch l k) with
    | none => ([], l)
    | some x =>
      if s.on (TRL_Ln_BRb_COND_goto l x.br) then
        let d := s.rd (TRL_Ln_BRb_COND_target l x.br)
        if s.on (TRL_Ln_CFG_same_sample l) then
          let (r, e) := s.trlChain k n d
          (x :: r, e)
        else ([x], d)
      else ([x], l)

/-! ### Actions (R155 to R157) -/

/-- Counter actions. -/
def State.actCt (s : State) (l b : Nat) : State :=
  let n := s.rd (TRL_Ln_BRb_ARG_ct_idx l b)
  let s1 := if s.on (TRL_Ln_BRb_ACT_ct_clr l b) then s.wr (TRL_CTn_VAL n) 0 else s
  if s.on (TRL_Ln_BRb_ACT_ct_inc l b) then s1.addSat (TRL_CTn_VAL n) 1 else s1

/-- Timer actions in sample `k` at the decision time `t` (R149). -/
def State.actTm (s : State) (l b k t : Nat) : State :=
  let n := s.rd (TRL_Ln_BRb_ARG_tm_idx l b)
  let m0 := s.timer n
  let m1 := if s.on (TRL_Ln_BRb_ACT_tm_clr l b) then { m0 with acc := 0, cnt := 0, t0 := t, k0 := k } else m0
  let m2 := if s.on (TRL_Ln_BRb_ACT_tm_start l b) && !m1.run then { m1 with run := true, t0 := t, k0 := k } else m1
  let m3 := if s.on (TRL_Ln_BRb_ACT_tm_stop l b) && m2.run then
      { m2 with run := false, acc := m2.elapsed t, cnt := m2.samples k } else m2
  if m3 = m0 then s else { s with trl := { s.trl with tm := ins s.trl.tm n m3 } }

/-- Qualification actions in sample `k`: ON from this sample on, OFF after it, for storage (R154). -/
def State.actQual (s : State) (l b k : Nat) : State :=
  if s.on (TRL_Ln_BRb_ACT_qual_on l b) then
    { s.wr TRL_STAT_qual 1 with acq := { s.acq with qualLog := s.acq.qualLog ++ [(k, true)] } }
  else if s.on (TRL_Ln_BRb_ACT_qual_off l b) then
    { s.wr TRL_STAT_qual 0 with acq := { s.acq with qualLog := s.acq.qualLog ++ [(k + 1, false)] } }
  else s

/-- Width of TRIG_OUTn in core cycles. -/
def State.xoutWidth (s : State) (n : Nat) : Nat :=
  s.rd (match n with
    | 0 => TRL_XOUT_CFG_width0
    | 1 => TRL_XOUT_CFG_width1
    | 2 => TRL_XOUT_CFG_width2
    | _ => TRL_XOUT_CFG_width3)

/-- A pulse on TRIG_OUTn from the decision time (R157). -/
def State.pulse (s : State) (t n : Nat) : State :=
  if s.coreRun && !s.on PWR_STAT_loss_seq then
    { s with trl := { s.trl with out := ins s.trl.out n (t + s.xoutWidth n * s.cnom) } }
  else s

/-- XTRIG: pulses and trigger messages (R155, R355). -/
def State.actXtrig (s : State) (x : Taken) : State :=
  if !s.on (TRL_Ln_BRb_ACT_xtrig x.level x.br) then s else
  let m := s.rd (TRL_Ln_BRb_ARG_xmask x.level x.br)
  (((List.range 4).filter (bit m)).foldl (fun s n => s.pulse x.t n) s).grfXtrig (m / 16)
    (s.rd (TRL_Ln_BRb_ARG_mark_code x.level x.br)) x.coarse x.t x.t

/-- MARK and IRQ. -/
def State.actMark (s : State) (x : Taken) : State :=
  let s1 := if s.on (TRL_Ln_BRb_ACT_mark x.level x.br) then
      s.markTrellis x.t (s.rd (TRL_Ln_BRb_ARG_mark_code x.level x.br)) x.ch x.level x.br x.coarse else s
  if s.on (TRL_Ln_BRb_ACT_irq x.level x.br) then s1.orF TRL_EVT_irq (2 ^ s.rd (TRL_Ln_BRb_ARG_irq_tag x.level x.br)) else s1

/-- Every action of a taken branch but the acquisition trigger; a TRIGGER action is counted (R156). -/
def State.act (k : Nat) (s : State) (x : Taken) : State :=
  let s1 := ((((s.actCt x.level x.br).actTm x.level x.br k x.t).actQual x.level x.br k).actXtrig x).actMark x
  if s.on (TRL_Ln_BRb_ACT_trigger x.level x.br) then (s1.addF TRL_TRIG_CNT_count 1).orF TRL_EVT_trig 1 else s1

/-- The TRIGGER that acquisition receives from a sample: the earliest decision, the first taken on a tie (R156). -/
def firstTaken : List Taken → Option Taken
  | [] => none
  | x :: r => some (r.foldl (fun a b => if b.t < a.t then b else a) x)

/-- TRL_LAST_* and the acquisition trigger of a decision (R159). -/
def State.fire (s : State) (k : Nat) (x : Taken) : State :=
  let s1 := (((((s.wr TRL_LAST_kt x.t).wr TRL_LAST_HI_sres (b2n x.coarse)).wr TRL_LAST_HI_valid 1).wr TRL_LAST_HI_src x.ch).wr
    TRL_LAST_HI_level x.level).wr TRL_LAST_HI_branch x.br
  s1.trigger ⟨x.t, 0, x.coarse, x.ch⟩ k

/-- The evaluation of sample `k` (R141, R152): nothing when no branch is true, when Trellis does not evaluate, or when the
sample has been evaluated. -/
def State.trellis (s : State) (k : Nat) : State :=
  let s := s.restartAt k
  if s.trlRuns = false ∨ k < s.trl.next then s else
  let (xs, lvl) := s.trlChain k 4 (s.rd TRL_STAT_level)
  let s := { s with trl := { s.trl with next := k + 1 } }
  if xs.isEmpty then s else
  let trig := firstTaken (xs.filter fun x => s.on (TRL_Ln_BRb_ACT_trigger x.level x.br))
  let s1 := (xs.foldl (State.act k) s).wr TRL_STAT_level lvl
  match trig with
  | some x => s1.fire k x
  | none => s1

/-! ### Every sample (R141)

Between two samples at which something changes, the terms stay as they are. So it is enough to look at the samples at which an edge,
a message, a limit or a bound falls, and at the sample after each. -/

/-- Times at which a timer or a KT window makes a term change. -/
def State.trlTimes (s : State) : List Nat :=
  let day := s.tmb.kt / 2 ^ 72 * 2 ^ 72
  let tms := (List.range 16).filter fun n => (s.timer n).run
  let lims := tms.map fun n =>
    (s.timer n).t0 + ((s.rd (TRL_TMn_LIM_LO_value n) + 2 ^ 32 * s.rd (TRL_TMn_LIM_HI_value n)) * s.tmUnit n - (s.timer n).acc)
  let wins := (List.range 8).flatMap fun n =>
    let a := s.rd (TRL_WCn_START_LO_value n) + 2 ^ 32 * s.rd (TRL_WCn_START_HI_value n)
    let b := s.rd (TRL_WCn_END_LO_value n) + 2 ^ 32 * s.rd (TRL_WCn_END_HI_value n)
    if !s.on (TRL_WCn_CFG_ev_sample n) then []
    else if s.rd (TRL_WCn_CFG_src n) = 1 then
      let x := a + 2 ^ 64 * s.rd (TRL_WCn_CFG_start_top n)
      let y := b + 2 ^ 64 * s.rd (TRL_WCn_CFG_end_top n)
      [day + x, day + y, day + 2 ^ 72 + x, day + 2 ^ 72 + y]
    else
      let m := s.timer (s.rd (TRL_WCn_CFG_tm n))
      [m.t0 + (a - m.acc), m.t0 + (b - m.acc)]
  lims ++ wins

/-- Samples of [a, b) at which a term may change, in order. -/
def State.trlPts (s : State) (a b : Nat) : List Nat :=
  let at_ := s.acq.log.map (·.pos) ++ s.trl.ext.map (fun e => s.grid.posOf e.t) ++ s.trl.gl.map (fun m => s.grid.posOf m.2) ++ [s.trl.first]
  let cnts := (List.range 16).map fun n =>
    let m := s.timer n
    m.k0 + (s.rd (TRL_TMn_LIM_LO_value n) + 2 ^ 32 * s.rd (TRL_TMn_LIM_HI_value n) - m.cnt)
  let l := a :: at_ ++ at_.map (· + 1) ++ cnts ++ s.trlTimes.map s.grid.posFrom
  (l.filter fun p => a ≤ p ∧ p < b).foldl (fun l p => insSet p l) []

/-- Some branch of the current level is enabled. -/
def State.trlLive (s : State) : Bool :=
  let l := s.rd TRL_STAT_level
  (List.range 4).any fun b => s.on (TRL_Ln_BRb_COND_en l b)

/-- Evaluates the samples before `p` in order, one after the other that takes a branch or restarts Trellis. -/
def State.trlLoop (p : Nat) : Nat → State → State
  | 0, s => s
  | fuel + 1, s0 =>
    let s := s0.restartAt s0.trl.next
    let a := s.trl.next
    if p ≤ a then s else
    let b := match s.trl.restart with
      | some r => min p r
      | none => p
    match if s.trlLive then (s.trlPts a b).find? fun k => !(s.trlChain k 1 (s.rd TRL_STAT_level)).1.isEmpty else none with
    | some k => State.trlLoop p fuel (s.trellis k)
    | none => State.trlLoop p fuel { s with trl := { s.trl with next := b } }

/-- Every sample before `p` is evaluated (R141). -/
def State.trlTo (p : Nat) (s : State) : State := if s.trlRuns then State.trlLoop p (p - s.trl.next + 2) s else s

/-- TRL_TMn_VAL (R149, R168): the S count, which ends with the last sample evaluated, or whole units of the elapsed time. -/
def State.tmValue (s : State) (n : Nat) : Nat :=
  let m := s.timer n
  if s.rd (TRL_TMn_CFG_unit n) = 0 then m.samples (s.trl.next - 1) else min (2 ^ 48 - 1) (m.elapsed s.tmb.kt / s.tmUnit n)

end Sys2Proof.Machine
end

