-- ==== Sys2Proof/Machine/Hedge.lean ====
section
/-! DEFINITION. Hedge (R191 to R199): mask rules judged edge by edge, violations and their actions, and the stop tail. -/

namespace Sys2Proof.Machine

/-- A rule before its first reference edge. -/
def ruleNew : Rule := ⟨none, false, [], [], []⟩

/-- Hidden state of rule `n`. -/
def State.rule (s : State) (n : Nat) : Rule := (look s.hdg.rules n).getD ruleNew

/-- Stores it. -/
def State.putRule (s : State) (n : Nat) (r : Rule) : State := { s with hdg := { s.hdg with rules := ins s.hdg.rules n r } }

/-- The offset lies in an enabled zone of rule `n`. -/
def State.inZone (s : State) (n : Nat) (o : Int) : Bool :=
  (s.on (HDG_MKn_CFG_z0_en n) && decide (s.rdS (HDG_MKn_Z0C_value n) ≤ o) && decide (o < s.rd (HDG_MKn_Z0D_value n)))
    || (s.on (HDG_MKn_CFG_z1_en n) && decide (s.rdS (HDG_MKn_Z1C_value n) ≤ o) && decide (o < s.rd (HDG_MKn_Z1D_value n)))

/-- The offset lies in W0, whether enabled or not. -/
def State.inW0 (s : State) (n : Nat) (o : Int) : Bool :=
  decide ((s.rd (HDG_MKn_W0A_value n) : Int) ≤ o) && decide (o < s.rd (HDG_MKn_W0B_value n))

/-- The offset lies in an enabled window of rule `n`. -/
def State.inWin (s : State) (n : Nat) (o : Int) : Bool :=
  (s.on (HDG_MKn_CFG_w0_en n) && s.inW0 n o) || (s.on (HDG_MKn_CFG_w1_en n) &&
    decide ((s.rd (HDG_MKn_W1A_value n) : Int) ≤ o) && decide (o < s.rd (HDG_MKn_W1B_value n)))

/-- Rule `n` has an enabled window. -/
def State.hasWin (s : State) (n : Nat) : Bool := s.on (HDG_MKn_CFG_w0_en n) || s.on (HDG_MKn_CFG_w1_en n)

/-- Channel `c` is judged by rule `n`: in its set, not its reference, captured (R191, R192). -/
def State.inRule (s : State) (n c : Nat) : Bool :=
  s.chBit (HDG_MKn_SET_bits n) c && c ≠ s.rd (HDG_MKn_CFG_ref_ch n) && s.captured c

/-- First sample or record after the tail of a violation at `tv` (R196, R197). -/
def State.tailEnd (s : State) (tv : Nat) : Nat :=
  (if s.recordMode then s.unitsBefore tv else s.grid.posOf tv) + s.rd HDG_TAIL_value + 1

/-- A violation: rule, kind, channel, offset, reference edge, violation time, sample resolution; counted always, its actions
taken for the first of a horizon (R194, R195). -/
def State.violate (s : State) (n kind c : Nat) (o : Int) (ref tv : Nat) (sres : Bool) : State :=
  let r := s.rule n
  let s1 := (s.addSat (HDG_MKn_CNT_value n) 1).addSat HDG_VIOL_CNT_value 1
  let s2 := (((((s1.wr HDG_LAST_kt tv).wr HDG_LAST_HI_sres (b2n sres)).wr HDG_LAST_HI_kind kind).wr HDG_LAST_HI_rule n).wr
    HDG_LAST_HI_channel c).wr HDG_LAST_HI_valid 1
  let s3 := s2.putRule n { r with acted := true, judged := if kind = 3 then r.judged else insSet c r.judged,
                                  missed := if kind = 3 then insSet c r.missed else r.missed }
  if r.acted then s3 else
  let mark := s3.on (HDG_MKn_CFG_mark n)
  let trig := s3.on (HDG_MKn_CFG_trigger n)
  let stop := s3.on (HDG_MKn_CFG_stop n) && s3.hdg.tail.isNone
  let s4 := if mark then
      (s3.event (s3.violRec tv n kind c o ref (1 + 2 + 4 * b2n trig + 8 * b2n stop) s3.segNo (s3.rd (HDG_MKn_CNT_value n))
        sres)).orF HDG_EVT_viol 1 else s3
  let s5 := if trig then s4.trigger ⟨tv, 1, sres, if kind = 3 then 0x7FF else c⟩ (s4.grid.posOf tv) else s4
  if stop then { s5 with hdg := { s5.hdg with tail := some (s5.tailEnd tv), tailT := tv } }.orF HDG_EVT_stop 1 else s5

/-- The channel's last transition of kind `sel` (R193). -/
def State.lastTr (s : State) (sel c : Nat) : Option Nat :=
  let u := if edgeSel sel true then look s.hdg.lastUp c else none
  let d := if edgeSel sel false then look s.hdg.lastDn c else none
  match u, d with
  | some a, some b => some (max a b)
  | some a, none => some a
  | none, x => x

/-- A reference edge at `t` of rule `n`: a new horizon, and the transitions before it that lie in a zone (R193). -/
def State.horizon (s : State) (n t : Nat) (sres : Bool) : State :=
  let r := s.rule n
  let s1 := s.putRule n { r with ref := some t, acted := false, w0 := [], missed := [] }
  let sel := s.rd (HDG_MKn_CFG_tr_edge n)
  ((s.chSet (HDG_MKn_SET_bits n)).filter (s.inRule n)).foldl (fun s c =>
    match s.lastTr sel c with
    | some tl =>
      let o : Int := (tl : Int) - t
      if o < 0 ∧ s.inZone n o ∧ (s.rule n).judged.contains c = false then s.violate n 2 c o t t sres else s
    | none => s) s1

/-- A transition of channel `c` at `t` judged by rule `n` (R193). DESIGN CHOICE (log entry 48): unsafe. -/
def State.judge (s : State) (n c t : Nat) (sres : Bool) : State :=
  let r := s.rule n
  let s1 := s.putRule n { r with judged := r.judged.filter (· ≠ c) }
  match r.ref with
  | none => s1
  | some ref =>
    let o : Int := (t : Int) - ref
    if o < 0 ∨ (s.rd (HDG_MKn_HOR_value n) : Int) ≤ o then s1 else
    let s2 := if s.inW0 n o then s1.putRule n { s1.rule n with w0 := insSet c r.w0 } else s1
    if s.inZone n o then s2.violate n 2 c o ref t sres
    else if s.hasWin n && !s.inWin n o then s2.violate n 1 c o ref t sres
    else s2

/-- An edge as one rule sees it: as a reference edge (`ref`), or as a transition. -/
def State.ruleEdge (ref : Bool) (c t : Nat) (up sres : Bool) (s : State) (n : Nat) : State :=
  if !s.on (HDG_MKn_CFG_en n) then s
  else if c = s.rd (HDG_MKn_CFG_ref_ch n) then
    if ref && edgeSel (s.rd (HDG_MKn_CFG_ref_edge n)) up then s.horizon n t sres else s
  else if !ref && s.inRule n c && edgeSel (s.rd (HDG_MKn_CFG_tr_edge n)) up then s.judge n c t sres
  else s

/-- Hedge evaluates (R191). -/
def State.hdgRuns (s : State) : Bool := s.trlRuns && s.on HDG_CTL_en

/-- An edge of a captured channel at its deskewed time: the rules whose reference it is, or those that judge it. -/
def State.hedgeEdge (ref : Bool) (s : State) (e : HeldE) : State :=
  if !s.hdgRuns || !s.captured e.ch then s else
  let s1 := (List.range 64).foldl (State.ruleEdge ref e.ch e.t e.up e.sres) s
  if ref then s1 else
  { s1 with hdg := { s1.hdg with lastUp := if e.up then ins s1.hdg.lastUp e.ch e.t else s1.hdg.lastUp,
                                 lastDn := if e.up then s1.hdg.lastDn else ins s1.hdg.lastDn e.ch e.t } }

/-- Edges of one time: a horizon begins with its reference edge, so every reference edge is taken before the transitions (R193). -/
def State.hedgeEdges (s : State) (es : List HeldE) : State :=
  es.foldl (State.hedgeEdge false) (es.foldl (State.hedgeEdge true) s)

/-- Channel `c` was unresolved at some sample that starts in [a, b). -/
def State.unresTime (s : State) (c a b : Nat) : Bool :=
  lvlAt s.acq.log (s.acq.lvl0At c) c (s.grid.posOf a) = 2
    || s.acq.log.any fun e => e.ch = c && e.v = 2 && decide (a ≤ e.t) && decide (e.t < b)

/-- HDG_STAT.running. -/
def State.hdgRunning (s : State) : Bool := s.hdgRuns

end Sys2Proof.Machine
end

