-- ==== Sys2Proof/Machine/Instant.lean ====
section
/-! DEFINITION. What has happened in a capture by an instant: the edges that Hedge, the reduction units and the interval unit have
seen, the samples that Trellis has evaluated, and the segment that a re-arm has opened, in order of time (R141, R161, R182, R193). -/

namespace Sys2Proof.Machine

/-- Edges of one time reach Hedge and the reduction units; the interval unit holds them on, so that it takes all in order of time. -/
def State.edgesAt (s : State) (es : List HeldE) : State :=
  let chs := es.filter fun e => decide (e.ch < 1024)
  (chs.foldl State.redEdge (s.hedgeEdges chs)).timHold es

/-- Every held edge before `t`, in order of time; Trellis has evaluated the samples before each. -/
def State.edgesTo (t : Nat) : Nat → State → State
  | 0, s => s
  | fuel + 1, s =>
    match s.inp.hold with
    | [] => s
    | e :: _ =>
      if t ≤ e.t then s else
      let now := s.inp.hold.filter fun x => x.t = e.t
      let s1 := State.trlTo (s.grid.posOf e.t) { s with inp := { s.inp with hold := s.inp.hold.filter fun x => x.t ≠ e.t } }
      State.edgesTo t fuel (s1.edgesAt now)

/-- What the samples before `p` give TRANS, DECIM and BUS units; an interval ends by its command, or as an edge after it comes. -/
def State.redSeen (p : Nat) (s : State) : State :=
  if !s.grid.run then s else
  ((List.range 8).filter fun n => !ivlKind (s.rd (RED_RUn_CFG_kind n))).foldl (fun s n => s.redUpTo n p) s

/-- All edges before `t` and all samples before that of `t`. -/
def State.seenTo (t : Nat) (s : State) : State :=
  let s1 := State.edgesTo t s.inp.hold.length s
  State.redSeen (s1.grid.posOf t) (State.trlTo (s1.grid.posOf t) s1)

/-- The header of the segment after a REARM is written (R182): the place is taken, and in M6 a chain goes on. A tail that ends before
the pre-fill leaves no segment to open (R188, R196). -/
def State.openNow (s : State) : State :=
  match s.acq.opening with
  | none => s
  | some o =>
    let late := match s.tailStop with
      | some e => decide (e ≤ o.g.fillPos)
      | none => false
    if late then s else
    let s1 := s.freePlace o.g.idx
    s1.openSeg (if s.recordMode then { o.g with fillPos := s.unitsBefore o.g.fillKt } else o.g) o.n o.ls

/-- The segment that opens by `t`, after what comes before its pre-fill. -/
def State.openTo (t : Nat) (s : State) : State :=
  match s.acq.opening with
  | some o => if o.g.fillKt ≤ t then
      let s1 := State.edgesTo o.g.fillKt s.inp.hold.length s
      (State.trlTo (s1.grid.posFrom o.g.fillKt) s1).openNow else s
  | none => s

/-- Every edge is held for the range of deskew, so that edges are seen in order of their deskewed times (R161, R198). -/
def alignF : Nat := 8 * nsF

/-- The interval unit has seen all that lies behind the hold: an edge may come that much later than its deskewed time. -/
def State.timKeep (s : State) : State := State.timSeen (s.tmb.kt - alignF) s

/-- The machine at the instant `t`, before what happens then: all that comes before it has happened. -/
def State.upTo (t : Nat) (s : State) : State :=
  let s1 := s.advance t
  if s1.idle then s1 else (State.seenTo t (State.openTo t s1)).timKeep

/-- What is seen by the present instant while acquisition runs: what lies behind the hold. DESIGN CHOICE (log entry 106): unsafe. -/
def State.keepUp (s : State) : State :=
  if s.idle then s else (State.seenTo (s.tmb.kt - alignF) (State.openTo s.tmb.kt s)).timKeep

/-! ### Commands of the reduction and interval units -/

/-- REDUCTION_INTERVAL_END (R226): what unit n's intervals have ended by `t`. -/
def State.redIvlExpire (n t : Nat) (s : State) : State :=
  let s := State.upTo t s
  if s.grid.run then s.redUpTo n (s.grid.posOf t) else s

/-- REDUCTION_FLUSH_TIMEOUT (R232): FLUSH µs have passed since the open block's first entry. -/
def State.redFlushExpire (n t : Nat) (s : State) : State :=
  let s0 := State.upTo t s
  let s := if s0.grid.run then s0.redUpTo n (s0.grid.posOf t) else s0
  let u := s.ru n
  let f := s.rd (RED_RUn_FLUSH_time n)
  if u.opened && decide (f ≠ 0) && decide (u.kt + f * usF ≤ t) then s.redClose n else s

/-- LOSS_EPISODE_END (R262): 1 µs without a loss on a tile, as the interval unit sees it, ends its episode. -/
def State.lossEnd (t : Nat) (s : State) : State := (List.range 5).foldl (State.lossOver (t - alignF)) (State.upTo t s)

/-- TIMED_GATE_CLOSE (R264): the timed gate of slot n has ended by `t`. Its end is held like an edge, so that every edge before it is
counted in it. -/
def State.timedGate (n t : Nat) (s : State) : State :=
  let s := State.upTo t s
  match (s.slot n).gateAt with
  | some g =>
    if s.slotOn n && s.rd (TIM_SLOTn_GATE_gsrc n) = 7 && decide (g + s.gateLen n ≤ t) then
      (s.timHold [⟨g + s.gateLen n, 2048 + n, true, false⟩]).timKeep
    else s
  | none => s

/-- STALE_TIMESTAMP_DISCARD (R263). -/
def State.staleDiscard (n t : Nat) (s : State) : State := State.slotStale n t (State.upTo t s)

/-- HEDGE_MISSING (R193): at t'_r + b0, a resolved channel of the set without a transition in W0. -/
def State.missing (n c t : Nat) (s : State) : State :=
  let s := State.upTo t s
  let r := s.rule n
  match r.ref with
  | none => s
  | some ref =>
    let a0 := s.rd (HDG_MKn_W0A_value n)
    let b0 := s.rd (HDG_MKn_W0B_value n)
    if s.hdgRuns && s.on (HDG_MKn_CFG_en n) && s.on (HDG_MKn_CFG_req0 n) && s.on (HDG_MKn_CFG_w0_en n) && s.inRule n c
      && decide (ref + b0 ≤ t) && decide (b0 ≤ s.rd (HDG_MKn_HOR_value n)) && !r.w0.contains c && !r.missed.contains c
      && !s.unresTime c (ref + a0) (ref + b0) then
      s.violate n 3 c b0 ref (ref + b0) true
    else s

/-! ### Commands of Trellis -/

/-- A branch taken in sample `k`, with the residue retry that may come with it, at the time of the decision (R152, R163, R221).
DESIGN CHOICE (log entry 47): unsafe. -/
def State.branchTaken (k : Nat) (retry second : Bool) (group slot : Nat) (s : State) : State :=
  let s1 := State.trlTo k (State.upTo (s.grid.start k) s)
  let t := match (s1.trlChain k 4 (s1.rd TRL_STAT_level)).1.head? with
    | some x => x.t
    | none => s1.grid.start k
  let s2 := s1.trellis k
  if retry && s1.trlRuns then s2.residue 3 group slot second t else s2

/-- A timer reaches its limit: its TM term, computed from the timer, is true from here on (R149). -/
def State.timerLimit (_n t : Nat) (s : State) : State := State.upTo t s

/-- TRIG_OUTn returns to its inactive level when its pulse has ended (R157). -/
def State.pulseEnd (n t : Nat) (s : State) : State :=
  let s := State.upTo t s
  match look s.trl.out n with
  | some e => if e ≤ t then { s with trl := { s.trl with out := del s.trl.out n } } else s
  | none => s

end Sys2Proof.Machine
end

