-- ==== Sys2Proof/Machine/Segments.lean ====
section
/-! DEFINITION. Acquisition (R169 to R190): arming, pre-fill and post-fill, re-arm, chains, storage stalls, relocks and stops. -/

namespace Sys2Proof.Machine

/-! ### Stopping (R187, R188) -/

/-- Everything that runs with acquisition ends at sample position `p`: it is the first that Trellis does not evaluate (R141); a restart
still to come does not take place, since every value stays readable (R166). -/
def State.haltAll (s : State) (p : Nat) : State :=
  let s1 := ((((State.trlTo p s).nearSync).redStop p).sivStop p).timStop
  { s1 with trl := { s1.trl with next := p, restart := none } }

/-- Acquisition enters STOPPING at `t` with a cause. -/
def State.enterStopping (s : State) (cause p t : Nat) : State :=
  let s1 := (((s.haltAll p).wr ACQ_STAT_stop_cause cause).wr ACQ_STAT_state 6).wr ACQ_STAT_chained 0
  { s1 with acq := { s1.acq with stopped := some (t, s1.acq.stopped.bind (·.2)) } }

/-- Priority of a stop cause (R187). -/
def stopPrio (cause : Nat) : Nat :=
  match cause with
  | 5 => 1
  | 6 => 2
  | 2 => 3
  | 3 => 4
  | 4 => 5
  | 1 => 6
  | _ => 7

/-- A further cause at `t`: in the same core cycle the one of the lowest priority number is recorded (R187).
DEDUCED (log entry 107): unsafe. -/
def State.stopMore (s : State) (cause t : Nat) : State :=
  match s.acq.stopped with
  | some (k, tr) =>
    if k / s.cnom = t / s.cnom ∧ stopPrio cause < stopPrio (s.rd ACQ_STAT_stop_cause) then
      let s1 := s.wr ACQ_STAT_stop_cause cause
      match tr with
      | some (i, u, a) => s1.capStore ⟨i, u, u + 1, a + 16, le 1 cause, 0, []⟩
      | none => s1
    else s
  | none => s

/-- The stop violation whose tail runs fell in the core cycle of `t`, and HEDGE goes before the cause (R187). -/
def State.hedgeFirst (s : State) (cause t : Nat) : Bool :=
  s.hdg.tail.isSome && decide (s.hdg.tailT / s.cnom = t / s.cnom) && decide (stopPrio 2 < stopPrio cause)

/-- An edge of the core cycle of the last stop that comes after it: a stop violation it completes goes before a cause of lower rank
(R187). DEDUCED (log entry 107): unsafe. -/
def State.lateViolation (s : State) (e : HeldE) : State :=
  match s.acq.stopped with
  | some (k, _) =>
    if s.acqSt = 6 ∧ k / s.cnom = e.t / s.cnom ∧ s.hdg.tail.isNone = true
        ∧ ((s.wr ACQ_STAT_state 4).hedgeEdges [e]).hdg.tail.isSome = true then s.stopMore 2 e.t else s
  | none => s

/-- Stops acquisition with a cause at the instant `t`: what lies in the sample that contains it, or later, is not stored; of record
units, what lies at or after the instant (R188). A stop violation of the same core cycle goes before HOST and TIMEOUT: its tail then
ends the capture (R187, R196). DESIGN CHOICE (log entry 44): unsafe. -/
def State.stopAt (s0 : State) (cause t : Nat) : State :=
  let s := State.upTo t s0
  if s.idle then s else if s.acqSt = 6 then s.stopMore cause t else
  let h := State.edgesTo ((t / s.cnom + 1) * s.cnom) s.inp.hold.length s
  if h.hedgeFirst cause t then h else
  let s := State.timAll t s
  let p := s.grid.posOf t
  let s0 := (({ s with acq := { s.acq with units := s.acq.units.filter fun u => u.t < t, stopped := none } }).dropOpening).lossStop (s.grid.start p)
  let s1 := match s0.acq.seg with
    | none => s0
    | some g => s0.closeSeg cause (max (s0.fillP g) (if s0.recordMode then s0.unitN else p)) (s0.grid.start p) 0
  let s2 := match s1.inp.pchk with
    | some c => if c.atArm then { s1 with inp := { s1.inp with pchk := some { c with atArm := false } } } else s1
    | none => s1
  s2.enterStopping cause p t

/-! ### Arming and pre-fill -/

/-- Channels whose input is resolved and high, and unresolved channels, now. -/
def State.takeLevels (s : State) : List Nat × List Nat :=
  ((List.range 1024).filter (fun c => s.on (INP_LSTAT_level c)), (List.range 1024).filter (fun c => s.on (INP_LSTAT_unres c)))

/-- The end of ARMING: pending deskew takes effect and the pre-fill of the first segment begins at `t` (R96, R170). Sample
positions count from 0 at the first whole period from `t` on. While the sample domain is gated, the segment opens with the gate (R61).
DESIGN CHOICE (log entry 39): unsafe. -/
def State.startCapture (s : State) (t : Nat) : State :=
  let s1 := s.takeDelays.dskApply.1.laneSwap.1.retime
  let ph := if s.mode = 2 then 32 else 8
  let p := cdiv (s1.grid.posFrom t) ph * ph
  let s2 : State := { s1 with grid := { s1.grid with pos := s1.grid.pos - p } }
  let (hi, un) := s2.takeLevels
  let q : Acq := { s2.acq with lvl0 := hi, unres0 := un, log := [], qualLog := [] }
  let r : Trl := { s2.trl with ext := [], lvl0 := s2.trl.lvl, gl := [], restart := none }
  let s3 := ({ s2 with acq := q, trl := r, inp := { s2.inp with hold := [] } }).trlStart 0
  if !s3.grid.run then ({ s3 with clk := { s3.clk with gatePos := 0 } }.timStart t).wr ACQ_STAT_state 2 else
  let s4 : State := s3.openSeg (s3.newSeg t s3.acq.passKt) 0 []
  let s5 := if s4.mode = 6 then s4 else s4.redStart 0
  (((s5.sivSeq 0).timStart t).wr ACQ_STAT_state 2).ringStart

/-- The hidden state of acquisition at the moment the arm checks pass. -/
def State.acqFresh (s : State) (t : Nat) : Acq :=
  { s.acq with passKt := t, lastTrig := 0, seg := none, seq := 0, log := [], qualLog := [], gapFrom := none,
               gaps := [], units := [], unitBase := 0, next := 0, starts := [], held := [], relock := none, srcMark := none,
               freeK := s.free, spans := [], stRun := [], opening := none, seen := none, defer := [], stopped := none }

/-- Counters and results of an arm start again (R166, R181, R193, R200, R235, R253, R271, R406). DESIGN CHOICE (log entry 38): unsafe. -/
def State.armClear (s : State) : State :=
  let s1 := [ACQ_TRIG_CNT_count, ACQ_EARLY_CNT_count, ACQ_BLIND_CNT_count, ACQ_EXTRA_CNT_count, ACQ_SEG_DONE_count,
    ACQ_OVERWR_count, ACQ_GAP_CNT_count, ACQ_LOST, ACQ_TRIG_HI_valid, HDG_VIOL_CNT_value, HDG_LAST_HI_valid,
    TRL_TRIG_CNT_count, TRL_LAST_HI_valid].foldl (fun s f => s.wr f 0) s
  let s2 := (List.range 64).foldl (fun s n => s.wr (HDG_MKn_CNT_value n) 0) s1
  { s2.redArm.sivArm.timArm.resArm.ringsArm with hdg := Hdg.new }

/-- What of the past CLOCK_SUSPECT intervals is still to be reported: those a running gather has met. -/
def State.susFresh (s : State) : State :=
  s.susPrune (match s.dsk.gather with
    | some g => min g.start s.tmb.kt
    | none => s.tmb.kt)

/-- The arm request of R170 at `t`: the checks, then ARMING; the probe check at arm or the pre-fill follows. -/
def State.armRequest (s : State) (t : Nat) : State :=
  if !s.idle then s.orF ACQ_EVT_arm_ign 1 else
  let s1 := s.armReport
  match s.armFault with
  | some (c, d) =>
    let s2 := (((s1.wr ACQ_ERR_code c).wr ACQ_ERR_detail d).wr ACQ_ERR_valid 1).orF ACQ_EVT_refused 1
    { s2 with acq := { s2.acq with retOk := true } }
  | none =>
    let s2 := ((((s1.wr ACQ_ERR_valid 0).orF ACQ_EVT_armed 1).wr ACQ_STAT_state 1).armClear).susFresh
    ({ s2 with acq := s2.acqFresh t, free := s2.free + 1 }).trlStart 0

/-- Pre-fill complete: acquisition enters WAIT and the dead time is measured (R182, R183). -/
def State.enterWait (s : State) (g : Seg) (t : Nat) (cut : Bool) : State :=
  let dead := t - g.deadFrom
  let s1 := { s with acq := { s.acq with seg := some { g with dead := dead, cut := cut } } }
  (s1.wr ACQ_LAST_DEAD dead).wr ACQ_STAT_state 3

/-- A host trigger (R180, R181): discarded outside capture and while the sample domain is gated. -/
def State.forceTrig (s0 : State) : State :=
  let s := State.upTo s0.tmb.kt s0
  if s.armed && s.grid.run then
    let k := s.nowPos
    s.trigger ⟨s.grid.start k, 2, true, 0x7FF⟩ k
  else s.orF ACQ_EVT_trig_ign 1

/-! ### Events -/

/-- PREFILL_COMPLETE (R169, R183): P positions have been filled. -/
def State.prefillDone (t : Nat) (s : State) : State :=
  let s := State.upTo t s
  match s.acq.seg with
  | none => s
  | some g =>
    if (s.acqSt = 2 || s.acqSt = 5) && s.posDone (s.fillP g + s.acqP) t && decide (g.fillKt ≤ t) then
      s.enterWait g (if s.recordMode then t else s.grid.start (s.fillP g + s.acqP)) false
    else s

/-- PREFILL_TIME_LIMIT (R174). -/
def State.prefillLimit (t : Nat) (s : State) : State :=
  let s := State.upTo t s
  let lim := s.rd ACQ_PRE_T_time
  match s.acq.seg with
  | none => s
  | some g =>
    if (s.acqSt = 2 || s.acqSt = 5) && s.recordMode && decide (lim ≠ 0) && decide (g.fillKt + lim * usF ≤ t)
      && !s.posDone (s.fillP g + s.acqP) t then
      s.enterWait g (g.fillKt + lim * usF) true
    else s

/-- REARM from the end of post-fill at `tEnd` (R182): deskew, burst, and the preparation of the next segment, whose header is written
and whose pre-fill begins 24 ns later, or later by the burst (R184); Trellis restarts there (R166). -/
def State.rearm (s : State) (tEnd : Nat) : State :=
  let (s2, n) := s.takeDelays.dskApply
  let (s2, len1) := s2.dskBurst
  let (s2, len2) := s2.laneBurst
  let (s3, ls) := s2.laneSwap
  let t := tEnd + 24 * nsF + len1 + len2
  let s4 : State := if s.on TRL_CFG_rearm_restart then { s3 with trl := { s3.trl with restart := some (s3.grid.posFrom t) } } else s3
  { s4.wr ACQ_STAT_state 5 with acq := { s4.acq with opening := some ⟨s3.newSeg t tEnd, n, ls⟩ } }

/-- POSTFILL_END (R182, R187): the segment closes with cause COUNT, FULL or POSTFILL; while the tail of a stop violation runs,
the segment goes on to the tail's end (R196). -/
def State.postfillDone (t : Nat) (s : State) : State :=
  let s := State.upTo t s
  match s.acq.seg with
  | none => s
  | some g =>
    match s.postEnd g with
    | none => s
    | some e =>
      if s.acqSt ≠ 4 ∨ s.hdg.tail.isSome = true ∨ s.posDone e t = false ∨ (s.on ACQ_CFG_spill = true ∧ s.segPos0 g e + s.segCap < e) then s else
      let tEnd := s.posTime e t
      let cnt := s.rd ACQ_SEG_CNT_count
      if cnt ≠ 0 ∧ s.rd ACQ_SEG_DONE_count + 1 = cnt then ((s.lossStop tEnd).closeSeg 1 e tEnd 0).enterStopping 1 (s.grid.posOf tEnd) tEnd
      else if s.placeHeld s.acq.next = true ∧ s.on ACQ_CFG_wrap = false then
        ((s.lossStop tEnd).closeSeg 7 e tEnd 0).enterStopping 7 (s.grid.posOf tEnd) tEnd
      else (s.closeSeg 0 e tEnd 0).rearm tEnd

/-- SEGMENT_CHAIN (R178, R179): a segment of a chain has reached its capacity; the chain ends with the post-trigger part, or with the
tail of a stop violation (R196). -/
def State.segmentChain (t : Nat) (s : State) : State :=
  let s := State.upTo t s
  match s.acq.seg with
  | none => s
  | some g =>
    match if s.hdg.tail.isSome then s.tailStop else s.postEnd g with
    | none => s
    | some fin =>
      let e := s.segPos0 g fin + s.segCap
      if (s.acqSt ≠ 4 ∧ (s.acqSt ≠ 3 ∨ s.hdg.tail.isNone = true)) ∨ s.on ACQ_CFG_spill = false ∨ fin ≤ e ∨ s.segCap = 0 ∨ s.posDone e t = false then s else
      let tEnd := s.posTime e t
      if s.placeHeld s.acq.next = true ∧ s.on ACQ_CFG_wrap = false then
        ((s.lossStop tEnd).closeSeg 7 e tEnd 0).enterStopping 7 (s.grid.posOf tEnd) tEnd
      else s.chainNext g e tEnd

/-- HEDGE_TAIL_END (R196 to R198): the tail has been stored, or its segment is full; acquisition stops with cause HEDGE. -/
def State.hedgeTailEnd (t : Nat) (s : State) : State :=
  let s := State.upTo t s
  match s.tailStop with
  | none => s
  | some e =>
    if s.armed = false then s else
    let done := { s with hdg := { s.hdg with tail := none } }
    match s.acq.seg with
    | none => if s.posDone e t then ({ done.dropOpening with acq := { done.dropOpening.acq with stopped := none } }).enterStopping 2 (s.grid.posOf t) t else s
    | some g =>
      let full := s.segPos0 g e + s.segCap
      let b := if s.on ACQ_CFG_spill then e else min e full
      if s.posDone b t = false then s else
      let tEnd := s.posTime b t
      let s1 := { (s.lossStop tEnd).closeSeg 2 (max b (s.fillP g)) tEnd (e - b) with hdg := done.hdg }
      s1.enterStopping 2 (s.grid.posOf tEnd) tEnd

/-- ACQ_TIMEOUT (R187). -/
def State.acqTimeout (t : Nat) (s : State) : State :=
  let base := if s.on ACQ_CFG_to_mode then max s.acq.passKt s.acq.lastTrig else s.acq.passKt
  let e := base + s.acqTo * usF
  if s.acqTo ≠ 0 ∧ e ≤ t then (s.stopAt 4 e).advance t else State.upTo t s

/-- ACQ_IDLE (R188): every stored unit is in deep memory. -/
def State.acqIdle (t : Nat) (s : State) : State :=
  let s := s.advance t
  if s.acqSt = 6 && s.siv.blks.isEmpty && s.acq.defer.isEmpty then
    let s1 := (((s.ringsEmpty.wr ACQ_STAT_state 0).wr ACQ_STAT_gap_open 0).wr NMC_STAT_full 0).orF ACQ_EVT_stopped 1
    { s1 with acq := { s1.acq with idleAt := t, retOk := true, gapFrom := none } }
  else s

/-- STORAGE_STALL (R186): the ring of `tile` is full; from the first sample at or after `t` on, nothing is stored on any
tile. DESIGN CHOICE (log entry 43): unsafe. -/
def State.storageStall (tile t : Nat) (s : State) : State :=
  let s := State.upTo t s
  if !s.armed || decide (s.nTiles ≤ tile) then s else
  let s := (State.ringFull tile (s.orF NMC_STAT_full (2 ^ tile))).orF NMC_EVT_ring_full 1
  if s.armed && s.acq.gapFrom.isNone && s.grid.run then
    let p := s.grid.posFrom t
    let s1 := s.nearSync
    ({ s1 with acq := { s1.acq with gapFrom := some (p, s.grid.start p) } }.sivCut p).wr ACQ_STAT_gap_open 1
  else s

/-- STORAGE_RESUME (R186): storage resumes at the first sample at or after `t`, and a GAP record is written. -/
def State.storageResume (t : Nat) (s : State) : State :=
  let s := State.upTo t s
  match s.acq.gapFrom with
  | none => s
  | some (p, _) =>
    if !s.armed then s else
    let e := s.grid.posFrom t
    let s1 := match s.acq.seg with
      | some g => s.stallGap g e (s.grid.start e)
      | none => s
    let s2 := { s1 with acq := { s1.acq with gapFrom := none, gaps := s1.acq.gaps ++ [(p, e)] } }
    (((s2.sivSeq e).wr ACQ_STAT_gap_open 0).wr NMC_STAT_full 0).ringStart

/-- Positions of the open segment that a stall under way has not stored when the sample domain is gated at `t`, sample `p`: how many,
and the first of them (R133). -/
def State.stalled (s : State) (t p : Nat) : Nat × Option Nat :=
  match s.acq.gapFrom, s.acq.seg with
  | some (a, kt), some g =>
    if s.recordMode then
      let l := s.units.filter fun u => u.lost && decide (g.fillKt ≤ u.t) && decide (u.t < t)
      (l.length, some (s.acq.unitBase + (s.units.filter fun u => u.t < max kt g.fillKt).length))
    else (p - max a g.fillPos, some (max a g.fillPos))
  | _, _ => (0, none)

/-- A relock or the gating of R116 closes the segment at `t` with cause CLOCK (R133); the pre-fill of the next one waits
for the gate. The GAP that the next segment reports begins here. DEDUCED (log entry 108): unsafe. -/
def State.relockClose (s0 : State) (t cause : Nat) : State :=
  if !s0.armed then s0 else
  let s := State.timAll t (State.upTo t s0).nearSync
  let p := s.grid.posOf t
  let lost := s.stalled t p
  let gap := (s.grid.start p, cause, lost.1, if lost.1 = 0 then none else lost.2)
  let s1 := match s.acq.seg with
    | some g => if s.recordMode then s.closeSeg 6 (max (s.fillP g) (s.unitsBefore t)) t 0 else s.closeSeg 6 (max g.fillPos p) (s.grid.start p) 0
    | none => s.dropOpening
  let s2 := State.timDrop t (s1.sivCut p)
  let s3 := { s2 with acq := { s2.acq with relock := some (s2.acq.relock.getD gap) } }
  if s3.placeHeld s3.acq.next && !s3.on ACQ_CFG_wrap then s3.enterStopping 7 p t
  else s3.wr ACQ_STAT_state 2

/-- Sample bits that have changed while the sample domain was gated, as the first sample after it shows them; no edges (R142, R143). -/
def State.relevel (s : State) (t : Nat) : State :=
  let p := s.clk.gatePos
  let new := fun c => if s.on (INP_LSTAT_unres c) then 2 else s.rd (INP_LSTAT_level c)
  let cs := (List.range 1024).filter fun c => lvlAt s.acq.log (s.acq.lvl0At c) c p ≠ new c
  { s with acq := { s.acq with log := s.acq.log ++ cs.map fun c => (⟨p, c, new c, t, false, false⟩ : LogE) } }

/-- Capture resumes in a new segment when the gate opens at `t` (R133), or begins there when it was armed while the domain was gated
(R61). A restart of Trellis still to come takes place at the start of this pre-fill (R166). Values still pending do not take effect here: a relock is no
segment boundary in the sense of R96. DESIGN CHOICE (log entry 109): unsafe. -/
def State.relockOpen (s0 : State) (t : Nat) : State :=
  if s0.armed && s0.acq.seg.isNone && s0.acq.opening.isNone then
    let s := s0.relevel t
    let s1 := s.freePlace s.acq.next
    let dead := match s1.acq.relock with
      | some (k, _) => k
      | none => s1.acq.passKt
    let trl := { s1.trl with restart := s1.trl.restart.map fun _ => s1.grid.posFrom t }
    let s2 := { s1 with trl := trl }.takeDelays.openSeg (s1.newSeg t dead) 0 []
    let s3 := if s.acq.next = 0 && s.mode ≠ 6 then s2.redStart 0 else s2
    (if s3.acq.gapFrom.isNone then s3.sivSeq (s3.grid.posFrom t) else s3).ringStart
  else s0

end Sys2Proof.Machine
end

