-- ==== Sys2Proof/Machine/Input.lean ====
section
/-! DEFINITION. Input channels (R37 to R66): edges and their consumers, the event latch, UNRESOLVED, threshold readback,
overdrive, the probe check, and the external inputs (R147). -/

namespace Sys2Proof.Machine

/-! ### The event latch (R50 to R57) -/

/-- A number of crystal cycles in F, without trim correction (R52). -/
def State.xtal (s : State) (n : Nat) : Nat := n * xtalF * 2 ^ 40 / (2 ^ 40 + s.y40).toNat

/-- The time of the edge that sets a latch is captured, if the channel captures times (R55, R56).
DESIGN CHOICE (log entry 16): unsafe. -/
def State.latchTime (s : State) (ch t : Nat) (m0 : Bool) : State :=
  if s.on (INP_CFG_to_tdc ch) then
    let s1 := ((s.wr (INP_LTIME_kt ch) t).wr (INP_LTIME_HI_res1ns ch) (b2n m0)).wr (INP_LTIME_HI_valid ch) (b2n !m0)
    if m0 then { s1 with inp := { s1.inp with convert := insSet ch s1.inp.convert } } else s1
  else s

/-- The latch of a channel goes from clear to set with the edge at `t`, which in M0 counts for a wake (R54, R57). -/
def State.latchSet (s : State) (ch t : Nat) (m0 : Bool) : State :=
  let s1 := (s.wr (INP_LSTAT_set ch) 1).latchTime ch t m0
  if m0 && s.on (INP_CFG_to_wake ch) && decide (s.hks.m0At ≤ t) && !s.hks.sets.contains (ch, t) then
    { s1 with hks := { s1.hks with sets := s.hks.sets ++ [(ch, t)] } }
  else s1

/-- An edge as the latch of its channel sees it; `t` is its latch time (R50, R54). -/
def State.latchEdge (s : State) (ch t : Nat) (up m0 : Bool) : State :=
  if !bit (s.rd (INP_CFG_latch_edge ch)) (if up then 0 else 1) then s else
  let s1 := { s with inp := { s.inp with lastSel := ins s.inp.lastSel ch t } }
  if s1.on (INP_LSTAT_set ch) then s1.wr (INP_LSTAT_again ch) 1 else s1.latchSet ch t m0

/-- The latch is cleared at `t`; with a selected edge in the same crystal cycle it ends set, with that edge's time (R51, R53). -/
def State.latchClear (s : State) (ch t : Nat) : State :=
  let s1 := (s.wr (INP_LSTAT_again ch) 0).wr (INP_LTIME_HI_valid ch) 0
  match look s.inp.lastSel ch with
  | some e => if e / xtalF = t / xtalF then s1.latchSet ch e (s.mode = 0) else s1.wr (INP_LSTAT_set ch) 0
  | none => s1.wr (INP_LSTAT_set ch) 0

/-- Origin of a channel's present period (R52). -/
def State.perOrigin (s : State) (ch : Nat) : Nat := (look s.inp.per ch).getD s.inp.perAll

/-- LATCH_PERIOD_TICK: the period has passed; with latch_auto the latch clears (R51, R52). DESIGN CHOICE (log entry 17): unsafe. -/
def State.periodTick (ch t : Nat) (s : State) : State :=
  let s := s.advance t
  if ch < s.nChan ∧ s.perOrigin ch + s.xtal (100 * s.rd (INP_LPER_period ch)) ≤ t then
    let s1 := { s with inp := { s.inp with per := ins s.inp.per ch t } }
    if s1.on (INP_CFG_latch_auto ch) then s1.latchClear ch t else s1
  else s

/-- The channel's period counter restarts. -/
def State.perRestart (s : State) (ch : Nat) : State := { s with inp := { s.inp with per := ins s.inp.per ch s.tmb.kt } }

/-- Every channel's period counter restarts together. -/
def State.perSync (s : State) : State := { s with inp := { s.inp with per := [], perAll := s.tmb.kt } }

/-! ### UNRESOLVED (R43 to R46) -/

/-- Notes a change of a channel's sample bit at `t` while samples are taken (R92); an edge from before the first sample is none of its
edges, and shows only as its level. -/
def State.logAdd (s : State) (ch v t : Nat) (edge sres : Bool) : State :=
  let p := s.grid.posI t
  if s.armed && s.grid.run then
    { s with acq := { s.acq with log := s.acq.log ++ [⟨p.toNat, ch, v, t, edge && decide (0 ≤ p), sres⟩] } }
  else s

/-- The channel enters UNRESOLVED at `t`, its settling period ending at `e`. The samples after the one that contains `t` are
unresolved; in that sample itself an edge before the entry still counts, for every consumer (R46).
DESIGN CHOICE (log entry 124): unsafe. -/
def State.enterUnres (s : State) (ch t e : Nat) : State :=
  let s1 := { s with inp := { s.inp with settle := ins s.inp.settle ch e, resAt := del s.inp.resAt ch } }
  (s1.wr (INP_LSTAT_unres ch) 1).logAdd ch 2 (s.grid.start ((s.grid.posI t + 1).toNat)) false false

/-- A time of a channel that has resolved since lies in a sample in which it was still unresolved (R45, R46): its deskewed time is
before the sample of resolution. -/
def State.beforeRes (s : State) (ch t : Nat) : Bool :=
  match look s.inp.resAt ch with
  | some r => if s.grid.run then decide (s.grid.posI t < s.grid.posI r) else decide (t < r)
  | none => false

/-- Vth of the channel's code in 1/4095 mV, exactly (R38). -/
def State.vth4095 (s : State) (ch : Nat) : Int := -4000 * 4095 + 10000 * (s.rd (INP_THR_code ch) : Int)

/-- The hysteresis width h of the channel, in mV (R40). -/
def State.hystMv (s : State) (ch : Nat) : Nat := [0, 10, 20, 40, 80, 120, 160, 200].getD (s.rd (INP_CFG_hyst ch)) 0

/-- The side of the channel's band, Vth − h/2 to Vth + h/2 with both ends, on which an input of `v` µV lies: true above, false
below, none inside (R41). The nominal band is taken. DESIGN CHOICE (log entry 93): unsafe. -/
def State.side (s : State) (ch : Nat) (v : Int) : Option Bool :=
  let d := 2 * (4095 * v - 1000 * s.vth4095 ch)
  let h : Int := 1000 * 4095 * (s.hystMv ch : Nat)
  if h < d then some true else if d < -h then some false else none

/-- The accuracy of a band edge in mV (R42): 5 after a threshold calibration within 5 °C of the present temperature, else 20. The rule
gives no figure for a calibration further than 5 °C away, and the case temperature is taken to be the crystal-side one.
DESIGN CHOICE (log entry 112): unsafe. -/
def State.bandAcc (s : State) : Nat :=
  match s.inp.trim with
  | some c => if (s.rdS TMB_TEMP_temp - c).natAbs ≤ 80 then 5 else 20
  | none => 20

/-- The level at which a channel resolves with the input at `v` µV, if it resolves (R44). With h = 0 it always does; within the
accuracy of the band edge its level is then free. -/
def State.resolvesTo (s : State) (ch : Nat) (v : Int) : Option Bool :=
  if s.hystMv ch = 0 ∧ (4095 * v - 1000 * s.vth4095 ch).natAbs ≤ 1000 * 4095 * s.bandAcc then
    some (decide (Config.freeValue s.free % 2 = 1))
  else s.side ch v

/-- RESOLUTION (R44): at the first sample after the settling period with the input, at `v` µV, outside the band.
DESIGN CHOICE (log entry 12): safe. -/
def State.resolve (ch : Nat) (v : Int) (t : Nat) (s : State) : State :=
  let s := s.advance t
  let settled := match look s.inp.settle ch with
    | some e => decide (e ≤ t)
    | none => true
  match s.resolvesTo ch v with
  | some level =>
    if ch < s.nChan && s.on (INP_LSTAT_unres ch) && settled && s.grid.run && decide (s.mode ≠ 0) then
      let s1 := { s with free := s.free + 1, inp := { s.inp with settle := del s.inp.settle ch, resAt := ins s.inp.resAt ch t } }
      ((s1.wr (INP_LSTAT_unres ch) 0).wr (INP_LSTAT_level ch) (b2n level)).logAdd ch (b2n level) t false false
    else s
  | none => s

/-- A threshold code or hysteresis of `ch` has been written; a changed value enters UNRESOLVED for 2 µs (R43, R44). -/
def State.thrWritten (s : State) (ch : Nat) (changed : Bool) : State :=
  let s1 := { s with inp := { s.inp with thrAt := ins s.inp.thrAt ch s.tmb.kt } }
  if changed then s1.enterUnres ch s.tmb.kt (s.tmb.kt + 2 * usF) else s1

/-! ### Threshold readback (R38, R47 to R49) -/

/-- A reading in 1/16 mV lies more than 8.000 mV from the nominal threshold. -/
def State.drifted (s : State) (ch : Nat) (r16 : Int) : Bool := decide (16 * 8 * 4095 < (4095 * r16 - 16 * s.vth4095 ch).natAbs)

/-- The nominal threshold in 0.25 mV. -/
def State.vthQ (s : State) (ch : Nat) : Int := rnd (4 * s.vth4095 ch) 4095

/-- THRESH_DRIFT (R48); `q` is the reading in 0.25 mV. -/
def State.drift (s : State) (ch : Nat) (q : Int) : State :=
  if s.on (INP_LSTAT_drift ch) then s else
  let d := toU 16 q + 65536 * toU 16 (s.vthQ ch)
  ((s.wr (INP_LSTAT_drift ch) 1).bbox 0x38 ch d).mark s.tmb.kt 6 0 ch 0 0 0 d false

/-- Channels that the background readback reads. -/
def State.sweepChs (s : State) : List Nat := (List.range s.nChan).filter fun c => s.on (INP_CFG_drift_en c)

/-- The sweep has taken channel `ch`; after the last it is complete (R66). -/
def State.swept (s : State) (ch : Nat) : State :=
  let l := insSet ch s.inp.swept
  if s.sweepChs.all fun c => l.contains c then { s.bump INP_RDBK_CTL_sweeps with inp := { s.inp with swept := [] } }
  else { s with inp := { s.inp with swept := l } }

/-- THRESHOLD_READBACK (R47, R48): the mean of four conversions (in 0.25 mV), unless the channel was just written. The exact mean
is compared with the nominal threshold, not the value as stored. DESIGN CHOICE (log entry 14): unsafe. -/
def State.readback (ch : Nat) (c0 c1 c2 c3 : Int) (t : Nat) (s : State) : State :=
  let s := s.advance t
  if !s.on INP_RDBK_CTL_en || decide (s.mode = 0) || decide (s.nChan ≤ ch) || !s.on (INP_CFG_drift_en ch) then s else
  let skip := match look s.inp.thrAt ch with
    | some w => decide (t ≤ w + 20 * usF)
    | none => false
  let s1 := s.swept ch
  if skip then s1 else
  let sum := c0 + c1 + c2 + c3
  let s2 := (s1.wr (INP_RDBK_value ch) (satU 16 (rnd sum 4))).wr (INP_RDBK_valid ch) 1
  if s.drifted ch sum then s2.drift ch (rnd sum 4) else s2

/-! ### Overdrive (R62) -/

/-- OVERDRIVE. -/
def State.overdrive (ch t : Nat) (s : State) : State :=
  let s := s.advance t
  if s.nChan ≤ ch then s else
  let s1 := s.wr (INP_LSTAT_ovr ch) 1
  if s.on (INP_LSTAT_ovr_seen ch) then s1
  else ((s1.wr (INP_LSTAT_ovr_seen ch) 1).bbox 0x39 ch 0).mark t 7 0 ch 0 0 0 0 false

/-- OVERDRIVE_END. -/
def State.overdriveEnd (ch t : Nat) (s : State) : State := (s.advance t).wr (INP_LSTAT_ovr ch) 0

/-! ### Edges (R41, R91 to R93) -/

/-- An edge of state clock j (R190): kept, or lost. After more than 4,096 edges in a row nearer to each other than 400 ps only as many
are kept as 2.5 G edges per second make. The first edge of another run ends the loss. DESIGN CHOICE (log entry 110): unsafe. -/
def State.stRate (s : State) (j t : Nat) : State × Bool :=
  let r := (look s.acq.stRun j).getD ⟨0, 0, 0, none⟩
  let fast := decide (0 < r.n) && decide (10 * (t - r.last) < 8192)
  if !fast then
    let s1 := s.stGap t j
    ({ s1 with acq := { s1.acq with stRun := ins s1.acq.stRun j ⟨t, 1, 10 * t + 8192, none⟩ } }, false)
  else if r.n < 4096 ∨ r.due ≤ 10 * t then
    ({ s with acq := { s.acq with stRun := ins s.acq.stRun j ⟨t, r.n + 1, max r.due (10 * t) + 8192, r.gap⟩ } }, false)
  else
    let gap := if s.acq.gapFrom.isSome then r.gap else match r.gap with
      | some (k, p, n) => some (k, p, n + 1)
      | none => some (t, s.unitsBefore t, 1)
    ({ s with acq := { s.acq with stRun := ins s.acq.stRun j ⟨t, r.n + 1, r.due, gap⟩ } }, true)

/-- The state record of an edge of a state clock in M3 (R23, R190). -/
def State.stEdge (s : State) (ch t : Nat) (up sres : Bool) : State :=
  let j := ch / 64
  if !(s.armed && decide (s.mode = 3) && decide (ch % 64 = 0) && s.on (ACQ_STCLKj_en j)
      && edgeSel (s.rd (ACQ_STCLKj_edge j)) up) then s else
  let (s1, lost) := s.stRate j t
  let pr := if s.on (ACQ_STCLKj_qual_en j) then s.rd (ACQ_STCLKj_qual_pr j) else 64
  s1.addUnit ⟨t, s.grid.posOf t, j, ch, up, 0, t, sres, s.susAt (ch / 256) t, pr, lost⟩

/-- The edge record of an edge in M4 (R216). -/
def State.m4Edge (s : State) (ch t : Nat) (up sres : Bool) : State :=
  if s.armed && decide (s.chMode ch = 4) then
    s.addUnit ⟨t, s.grid.posOf t, 0, ch, up, 0, t, sres, s.susAt (ch / 256) t, 64, false⟩
  else s

/-- A transition in the activity window of a probe check (R59). -/
def State.pchkEdge (s : State) (ch : Nat) : State :=
  match s.inp.pchk with
  | some c => if c.winOpen && c.todo.contains ch then
      { s with inp := { s.inp with pchk := some { c with active := insSet ch c.active } } } else s
  | none => s

/-- An edge on its way to Hedge, the reduction units and the interval unit, if a sample of the capture holds it. After a stop it can
still complete a violation of that core cycle (R187). -/
def State.holdEdge (s : State) (e : HeldE) : State :=
  if s.armed && decide (0 ≤ s.grid.posI e.t) then { s with inp := { s.inp with hold := insHeld e s.inp.hold } } else s.lateViolation e

/-- An edge at its deskewed time reaches every consumer of R91. -/
def State.consume (s : State) (ch t : Nat) (up sres : Bool) : State :=
  let s1 := ((s.logAdd ch (b2n up) t true sres).laneEdge ch).gatherEdge ch t up
  ((s1.stEdge ch t up sres).m4Edge ch t up sres).holdEdge ⟨t, ch, up, sres⟩

/-- Longest lead of a TDC's edges over 1 G edges/s, in F: 4,096 edges at 4 G edges/s (R93). -/
def burstLead : Nat := 4095 * 1536

/-- An edge at raw time `t` lies beyond what the channel's TDC accepts (R93): nearer than 250 ps to the last, or further ahead of
1 G edges/s than a burst of 4,096 edges at 4 G edges/s gets. DESIGN CHOICE (log entry 94): unsafe. -/
def State.tdcBeyond (s : State) (ch t : Nat) : Bool :=
  match look s.inp.rate ch with
  | some (last, due) => decide (t < last + 512) || decide (t + burstLead < due)
  | none => false

/-- The TDC accepts an edge at raw time `t`: `due` is when the edges so far would end at 1 G edges/s. -/
def State.tdcTake (s : State) (ch t : Nat) : State :=
  let due := match look s.inp.rate ch with
    | some (_, d) => max d t
    | none => t
  { s with inp := { s.inp with rate := ins s.inp.rate ch (t, due + nsF) } }

/-- CHANNEL_EDGE of a channel that has just resolved, whose deskewed time lies in a sample in which it was not resolved yet: no
edge for any consumer (R45, R46). The level shows from the sample of resolution on. -/
def State.unresEdge (ch : Nat) (up : Bool) (t : Nat) (s : State) : State :=
  let s1 := (((s.advance t).wr (INP_LSTAT_level ch) (b2n up)).pchkEdge ch)
  s1.logAdd ch (b2n up) ((look s.inp.resAt ch).getD t) false false

/-- CHANNEL_EDGE (R41): the input goes to `v` µV, beyond the far end of the band: an edge at raw TDC time `traw`. Beyond the TDC's
rate it has the start of the sample in which the sampler resolved it (R93): `sstart` where the TDC itself gave no time
(`beyond`), else that of the sample which contains the edge; a channel in edge fill has no such sample (R408). In M0 only the
latch sees the edge, at 1 ns (R56). DESIGN CHOICE (log entry 92): unsafe. -/
def State.channelEdge (ch : Nat) (v : Int) (beyond : Bool) (traw sstart : Nat) (s : State) : State :=
  match s.side ch v with
  | none => s.advance traw
  | some up =>
    if s.nChan ≤ ch ∨ s.on (INP_LSTAT_unres ch) = true ∨ s.rd (INP_LSTAT_level ch) = b2n up then s.advance traw else
    if s.mode = 0 then
      let t := traw / nsF * nsF
      ((s.advance t).wr (INP_LSTAT_level ch) (b2n up)).latchEdge ch t up true
    else
      let td := ((traw : Int) - s.dskD ch).toNat
      let over_ := beyond || s.tdcBeyond ch traw
      let t := if beyond then sstart else if over_ then s.grid.start (s.grid.posOf td) else td
      if s.beforeRes ch t then State.unresEdge ch up t s else
      let s0 := if over_ then s else s.tdcTake ch traw
      let s1 := (((s0.advance t).wr (INP_LSTAT_level ch) (b2n up)).latchEdge ch t up false).pchkEdge ch
      let s2 := if over_ then s1.wr (DSK_COEF_sat ch) 1 else s1
      if !s.grid.run || (over_ && s.edgeFill ch) || !s.captured ch then s2 else s2.consume ch t up over_

/-- GATE_INPUT_EDGE (R147): TRIG_IN0 to 3 are inputs 0 to 3, GATE0 to 3 inputs 4 to 7. -/
def State.gateInputEdge (i : Nat) (up : Bool) (t : Nat) (s : State) : State :=
  let s := s.advance t
  if bit s.trl.lvl i = up ∨ !s.lands then s else
  let lvl := if up then s.trl.lvl + 2 ^ i else s.trl.lvl - 2 ^ i
  let s1 := { s with trl := { s.trl with lvl := lvl, ext := if s.armed then ⟨t, i, up⟩ :: s.trl.ext else s.trl.ext } }
  if 4 ≤ i then s1.holdEdge ⟨t, 1024 + (i - 4), up, false⟩ else s1

/-! ### Probe check (R58 to R61) -/

/-- Channels a probe check measures, in order. -/
def State.pchkChs (s : State) : List Nat := (List.range s.nChan).filter fun c => s.on (INP_CFG_pchk_en c)

/-- A probe check starts at `t`. -/
def State.pchkStart (s : State) (t : Nat) (atArm task : Bool) : State :=
  { s.wr INP_PCHK_CTL_busy 1 with inp := { s.inp with pchk := some ⟨t, atArm, task, s.pchkChs, 0, [], true, [], none⟩ } }

/-- A start by INP_PCHK_CTL outside M7 (R58); refused while an entry to M0 is under way. DESIGN CHOICE (log entry 95): unsafe. -/
def State.pchkRequest (s : State) : State :=
  if s.inp.pchk.isSome || !s.idle || decide (s.mode = 0) || s.hks.entering then s.wr INP_PCHK_STAT_refused 1
  else s.pchkStart s.tmb.kt false false

/-- V is a non-zero rail within ±20 mV; V in 0.25 mV, the rail in mV. -/
def nearRail (v rail : Int) : Bool := decide (rail ≠ 0) && decide ((v - 4 * rail).natAbs ≤ 80)

/-- The verdict of R60; voltages in 0.25 mV. -/
def State.verdict (s : State) (active : Bool) (v0 v1 : Int) : Nat :=
  if 28000 < v0 ∨ v0 < -20000 ∨ 28000 < v1 ∨ v1 < -20000 then 5
  else if 400 ≤ v1 - v0 then 2
  else if !active ∧ v0.natAbs ≤ 80 then 3
  else if !active ∧ (nearRail v0 (s.rdS INP_PCHK_RAIL_rail_a) ∨ nearRail v0 (s.rdS INP_PCHK_RAIL_rail_b)) then 4
  else 1

/-- Verdict and voltages of one channel (R61). -/
def State.pchkStore (s : State) (e : Nat × Nat × Int × Int) : State :=
  let s1 := (s.wr (INP_PCHK_verdict e.1) e.2.1).wr (INP_PCHK_dv e.1) (satU 16 (e.2.2.2 - e.2.2.1))
  (s1.wr (INP_PCHK_V_v0 e.1) (satU 16 e.2.2.1)).wr (INP_PCHK_V_v1 e.1) (satU 16 e.2.2.2)

/-- A probe check ends, or is abandoned (R61, R138), at `t`. A check at arm goes on to the pre-fill. -/
def State.pchkEnd (s : State) (t : Nat) (abandoned : Bool) : State :=
  match s.inp.pchk with
  | none => s
  | some c =>
    let s1 := (c.todo.drop c.idx).foldl (fun s ch => s.wr (INP_PCHK_verdict ch) 0) s
    let s2 := c.done.foldl State.pchkStore s1
    let n2 := (c.done.filter fun e => e.2.1 = 2).length
    let nx := (c.done.filter fun e => 3 ≤ e.2.1).length
    let s3 := (((s2.wr INP_PCHK_STAT_n_open n2).wr INP_PCHK_STAT_n_other nx).wr INP_PCHK_STAT_done 1).wr INP_PCHK_CTL_busy 0
    let es := (c.done.filter fun e => e.2.1 ≠ 1).map fun e => (e.1, e.2.1, e.2.2.1, e.2.2.2, (0 : Int))
    let s4 : State := { s3 with inp := { s3.inp with pchk := none } }
    let s5 : State := s4.event (s4.calRec c.start 2 (b2n abandoned) ((t - c.start) / usF) 0 0 es)
    if c.atArm && decide (s5.acqSt = 1) then s5.startCapture t else s5

/-- PROBE_ACTIVITY_WINDOW_CLOSE (R59): 1 ms ± 10 µs after the start. -/
def State.pchkWindow (t : Nat) (s : State) : State :=
  let s := s.advance t
  match s.inp.pchk with
  | some c =>
    if c.winOpen && decide (c.start + 990 * usF ≤ t) then
      let s1 := { s with inp := { s.inp with pchk := some { c with winOpen := false } } }
      if c.todo.isEmpty then s1.pchkEnd t false else s1
    else s
  | none => s

/-- The 8 µs slot under way has ended by `t`: its channel is measured, and the check ends with the last slot. -/
def State.pchkSlot (t : Nat) (s : State) : State :=
  match s.inp.pchk with
  | some c =>
    match c.cur with
    | some (e, k) =>
      if t < k + 8 * usF then s else
      let c1 := { c with idx := c.idx + 1, done := c.done ++ [e], cur := none }
      let s1 := ({ s with inp := { s.inp with pchk := some c1 } }).advance (k + 8 * usF)
      if c1.idx = c.todo.length then s1.pchkEnd (k + 8 * usF) false else s1
    | none => s
  | none => s

/-- The machine as a command at `t` finds it: a slot of a probe check that has ended by then has been counted, and with the last slot
the check has ended (R59, R61). -/
def State.reached (t : Nat) (s : State) : State := State.pchkSlot (max s.tmb.kt t) s

/-- PROBE_CHANNEL_MEASUREMENT (R59): the 8 µs slot of the next channel begins at `t`; voltages in 0.25 mV. What it measures counts
from the end of the slot on. DESIGN CHOICE (log entry 15): unsafe. -/
def State.pchkMeasure (ch : Nat) (v0 v1 : Int) (t : Nat) (s : State) : State :=
  let s := s.advance t
  match s.inp.pchk with
  | some c =>
    if !c.winOpen && c.cur.isNone && c.todo[c.idx]? = some ch then
      let e := (ch, s.verdict (c.active.contains ch) v0 v1, v0, v1)
      ({ s with inp := { s.inp with pchk := some { c with cur := some (e, t) } } }).enterUnres ch t (t + 8 * usF)
    else s
  | none => s

/-- A lock loss at `t` abandons a running probe check: the channel under measurement has no verdict and settles 2 µs later
(R44, R61, R138). -/
def State.pchkAbandon (s : State) (t : Nat) : State :=
  match s.inp.pchk with
  | some c =>
    let s1 := match c.cur with
      | some (e, _) => if s.on (INP_LSTAT_unres e.1) then { s with inp := { s.inp with settle := ins s.inp.settle e.1 (t + 2 * usF) } } else s
      | none => s
    s1.pchkEnd t true
  | none => s

/-- Latch times captured in M0 are complete once the wake has converted them (R56). -/
def State.convertTimes (s : State) : State :=
  { s.inp.convert.foldl (fun s c => if s.on (INP_LSTAT_set c) then s.wr (INP_LTIME_HI_valid c) 1 else s) s with
    inp := { s.inp with convert := [] } }

end Sys2Proof.Machine
end

