-- ==== Sys2Proof/Machine/TimeBase.lean ====
section
/-! DEFINITION. The time base (R67 to R89): references, the loop, the epoch and PPS_OUT. -/

namespace Sys2Proof.Machine

/-! ### The loop term (R82, R83) -/

/-- Time-weighted sum of the loop values, newest first, back to `t0`; `e` is the end of the newest. -/
def loopArea (t0 : Nat) : Nat → List (Nat × Int) → Int
  | _, [] => 0
  | e, (t, v) :: r => v * ((e - max t t0 : Nat) : Int) + (if t ≤ t0 then 0 else loopArea t0 t r)

/-- The loop values in force since `t0`, newest first. -/
def loopsSince (t0 : Nat) : List (Nat × Int) → List (Nat × Int)
  | [] => []
  | (t, v) :: r => if t ≤ t0 then [(t, v)] else (t, v) :: loopsSince t0 r

/-- The loop term takes the value `v` now; the values of the last 10 s are kept. -/
def State.setLoop (s : State) (v : Int) : State :=
  { s with tmb := { s.tmb with loop := v, loops := (s.tmb.kt, v) :: loopsSince (s.tmb.kt - 10 * secF) s.tmb.loops } }

/-- The mean of the loop term over the last 10 s, whatever states it was in force in; over the time since power-up where that is
less (R82). -/
def State.loopMean (s : State) : Int :=
  let t0 := max (s.tmb.kt - 10 * secF) ((s.tmb.loops.getLast?.map (·.1)).getD 0)
  if s.tmb.kt ≤ t0 then s.tmb.loop else rnd (loopArea t0 s.tmb.kt s.tmb.loops) (s.tmb.kt - t0)

/-- PPS_IN disciplines. -/
def State.srcPps (s : State) : Bool := 2 ≤ s.rd TMB_REF_CFG_src

/-- The phase pull limit in 2^-40 (R83, R105): 0.1, 1, 10 or 100 ppm, rounded down. -/
def State.slew40 (s : State) : Int := 2 ^ 40 * 10 ^ s.rd TMB_REF_CFG_slew / 10000000

/-- A loop update: the spec gives no loop equation, so its frequency part and what its phase part asks are free; the phase part,
which PPS_IN gives, stays within the slew limit (R79, R83). DESIGN CHOICE (log entry 19): safe. -/
def State.loopUpdate (s : State) : State :=
  let ph := if s.srcPps then max (-s.slew40) (min s.slew40 (Config.loopPhase s.tmb.loopK)) else 0
  let v := Config.loopTerm s.tmb.loopK + ph
  let s1 := s.setLoop v
  { s1 with tmb := { s1.tmb with phase := ph, loopK := s.tmb.loopK + 1 } }

/-! ### Reference state (R80, R82) -/

/-- The inputs that `src` selects are valid (R79, R80). -/
def State.refsValid (s : State) : Bool :=
  match s.rd TMB_REF_CFG_src with
  | 1 => s.on TMB_REF_STAT_ref_valid
  | 2 => s.on TMB_REF_STAT_pps_valid
  | 3 => s.on TMB_REF_STAT_ref_valid && s.on TMB_REF_STAT_pps_valid
  | _ => false

/-- The state leaves LOCKED: event 5 (R382); where REF_IN alone disciplined, its valid interval while LOCKED ends here (R84). -/
def State.leaveLock (s : State) : State :=
  if s.rd TMB_REF_STAT_state = 2 then
    let s1 := if s.tmb.lockSrc = 1 then { s with tmb := { s.tmb with lockRef := s.tmb.kt } } else s
    s1.raiseEvent 5
  else s

/-- Holdover: the loop term is held at its mean (R82). -/
def State.toHoldover (s : State) : State :=
  let s1 := s.leaveLock.setLoop s.loopMean
  { s1.wr TMB_REF_STAT_state 3 with tmb := { s1.tmb with goodRun := 0, phase := 0 } }

/-- The transitions of R82 that validity, the source and the mode decide. -/
def State.refEval (s : State) : State :=
  let st := s.rd TMB_REF_STAT_state
  let ok := s.refsValid && decide (s.mode ≠ 0)
  if st = 0 ∨ st = 3 then
    if ok then
      let s1 := s.setLoop (if st = 0 then 0 else s.tmb.loop)
      { s1.wr TMB_REF_STAT_state 1 with tmb := { s1.tmb with goodRun := 0, outRun := 0, ppsErr := none } }.retime
    else s
  else if ok then s else s.toHoldover.retime

/-- Entry to LOCKED. -/
def State.toLocked (s : State) : State :=
  { s.wr TMB_REF_STAT_state 2 with tmb := { s.tmb with lockSrc := s.rd TMB_REF_CFG_src } }

/-- TMB_REF_CFG has been written: the inputs it selects decide (R82); a source that goes over from REF_IN alone while LOCKED ends
the interval that TMB_HOLD_AGE counts from (R84). -/
def State.srcWritten (s : State) : State :=
  let s1 : State := if s.rd TMB_REF_STAT_state = 2 ∧ s.tmb.lockSrc = 1 ∧ s.rd TMB_REF_CFG_src ≠ 1 then
      { s with tmb := { s.tmb with lockRef := s.tmb.kt } } else s
  let s2 := s1.refEval
  if s2.rd TMB_REF_STAT_state = 2 then { s2 with tmb := { s2.tmb with lockSrc := s2.rd TMB_REF_CFG_src } } else s2

/-! ### PPS_IN and REF_IN -/

/-- Phase error of a corrected edge time (R81), against the KT72 seconds. -/
def ppsPhase (te : Int) : Int := te % 2 ^ 72 - rnd (te % 2 ^ 72) secF * secF

/-- An accepted PPS_IN edge: phase error, lock count, loop (R81, R82). DESIGN CHOICE (log entry 20): safe. -/
def State.ppsAccept (s : State) (te p : Int) : State :=
  let s1 := { s.wr TMB_PHASE_ERR_value (satU 32 p) with
    tmb := { s.tmb with outRun := 0, ppsErr := some p, ppsAcc := some te.toNat } }
  let s2 := s1.loopUpdate
  if s.rd TMB_REF_STAT_state = 2 then { s2 with tmb := { s2.tmb with lockRef := te.toNat } }
  else
    let good := if p.natAbs ≤ s.rd TMB_LOCK_CFG_lock_thr * nsF then s.tmb.goodRun + 1 else 0
    let s3 := { s2 with tmb := { s2.tmb with goodRun := good } }
    if 8 ≤ good then s3.toLocked else s3

/-- An outlier; three in a row are a loss of PPS_IN (R81), after which two new edges 1 s apart make it valid again (R80).
DESIGN CHOICE (log entry 100): unsafe. -/
def State.ppsOutlier (s : State) : State :=
  let s1 := { s.bump TMB_REF_STAT_outliers with tmb := { s.tmb with outRun := s.tmb.outRun + 1 } }
  if s1.tmb.outRun = 3 then
    ({ s1.wr TMB_REF_STAT_pps_valid 0 with tmb := { s1.tmb with ppsLast := none, outRun := 0 } }).refEval
  else s1

/-- PPS_EDGE (R80 to R82): `t` is the edge's KT72 before correction; an edge of the other direction than TMB_REF_CFG.pps_edge
selects is none (R105). The edge is compared with what the loop predicts, a value the spec does not state: free; in ACQUIRING also
with the edge accepted before it (R81). -/
def State.ppsEdge (up : Bool) (t : Nat) (s : State) : State :=
  let s := s.advance t
  if s.on TMB_REF_CFG_pps_edge = up ∨ !s.lands then s else
  let te : Int := (t : Int) - s.rdS TMB_PPS_DLY_dly
  let p := ppsPhase te
  let near := match s.tmb.ppsLast with
    | some u => decide (((t : Int) - u - secF).natAbs ≤ 1000 * usF)
    | none => false
  let s1 := { s with tmb := { s.tmb with ppsLast := some t } }
  let s2 := if near && !s.on TMB_REF_STAT_pps_valid then (s1.wr TMB_REF_STAT_pps_valid 1).refEval else s1
  let st := s2.rd TMB_REF_STAT_state
  if !s2.srcPps || !(st = 1 || st = 2) then s2 else
  let lim := s2.rd TMB_LOCK_CFG_unlock_thr * nsF
  let (k, s3) := s2.draw 1
  let before := match s2.tmb.ppsErr with
    | some q => decide (st = 2) || decide ((p - q).natAbs ≤ lim)
    | none => true
  let ok := before && decide ((p - sx 32 (Config.freeValue k)).natAbs ≤ lim)
  (if ok then s3.ppsAccept te p else s3.ppsOutlier).retime

/-- PPS_TIMEOUT (R80). -/
def State.ppsTimeout (t : Nat) (s : State) : State :=
  let s := s.advance t
  match s.tmb.ppsLast with
  | some u => if u + secF + secF / 2 ≤ t then
      ({ s.wr TMB_REF_STAT_pps_valid 0 with tmb := { s.tmb with ppsLast := none } }).refEval else s
  | none => s

/-- The frequency TMB_REF_CFG.ref_freq selects, in Hz. -/
def State.refHz (s : State) : Nat := if s.on TMB_REF_CFG_ref_freq then 100000000 else 10000000

/-- REF_IN_VALID (R80): edges at `hz` for 10 ms, within ±100 ppm of the frequency selected. -/
def State.refValid (hz t : Nat) (s : State) : State :=
  let s := s.advance t
  if s.refHz < 10000 * ((hz : Int) - (s.refHz : Int)).natAbs ∨ !s.lands then s else
  ({ s.wr TMB_REF_STAT_ref_valid 1 with tmb := { s.tmb with refSince := t } }).refEval

/-- REF_IN_INVALID (R80). -/
def State.refInvalid (t : Nat) (s : State) : State := ((s.advance t).wr TMB_REF_STAT_ref_valid 0).refEval

/-- REF_LOCK_TIMER (R82): with REF_IN alone, valid for 10 s. -/
def State.refLock (t : Nat) (s : State) : State :=
  let s := s.advance t
  if s.rd TMB_REF_CFG_src = 1 ∧ s.rd TMB_REF_STAT_state = 1 ∧ s.tmb.refSince + 10 * secF ≤ t then s.toLocked else s

/-- TCOMP_UPDATE (R74): a reading in 1/16 °C; with REF_IN alone the loop updates with it. -/
def State.tcompUpdate (temp : Int) (t : Nat) (s : State) : State :=
  let s := s.advance t
  let s1 := (s.wrS TMB_TEMP_temp temp).wr TMB_TEMP_valid 1
  let st := s.rd TMB_REF_STAT_state
  let s2 := if s.rd TMB_REF_CFG_src = 1 ∧ (st = 1 ∨ st = 2) then s1.loopUpdate else s1
  s2.retime

/-! ### The epoch (R76 to R78) -/

/-- TMB_EPOCH_CTL as written (R76, R77): cancel acts alone; each write of load is the one that the PPS event must come after.
DEDUCED (log entry 21): unsafe. -/
def State.epochCtl (s : State) (load cancel : Bool) : State :=
  if cancel then s.wr TMB_EPOCH_CTL_pending 0
  else if load then { s.wr TMB_EPOCH_CTL_pending 1 with tmb := { s.tmb with epochAt := s.tmb.kt } }
  else s

/-- The value of the epoch registers. -/
def State.epochVal (s : State) : Nat :=
  s.rd TMB_EPOCH_LO_epoch + 2 ^ 32 * s.rd TMB_EPOCH_MID_epoch + 2 ^ 64 * s.rd TMB_EPOCH_HI_epoch

/-- A qualifying PPS event at `t`: the last accepted edge, corrected, or a whole second of KT72 (R76). -/
def State.ppsEvent (s : State) (t : Nat) : Bool :=
  decide (s.tmb.epochAt < t) && (if s.srcPps then s.tmb.ppsAcc = some t else t % 2 ^ 72 % secF = 0)

/-! ### PPS_OUT (R86) -/

/-- PPS_OUT_PULSE. -/
def State.ppsPulse (t : Nat) (s : State) : State :=
  let s := s.advance t
  if s.on TMB_OUT_CFG_pps_en && t % 2 ^ 72 % secF = 0 then
    { s with tmb := { s.tmb with ppsOut := true, ppsEnd := t + s.rd TMB_OUT_CFG_pps_width * 10 * usF } }
  else s

/-- PPS_OUT_PULSE_END. -/
def State.ppsPulseEnd (t : Nat) (s : State) : State :=
  let s := s.advance t
  if s.tmb.ppsOut && decide (s.tmb.ppsEnd ≤ t) then { s with tmb := { s.tmb with ppsOut := false } } else s

/-! ### REF_OUT (R87) -/

/-- The period in F that REF_OUT carries: 100 ns or 10 ns, or none while it is held low. -/
def State.refOutNow (s : State) : Option Nat :=
  if s.on TMB_OUT_CFG_ref_en = true ∧ s.mode ≠ 0 ∧ s.hks.rails = true then
    some (if s.on TMB_OUT_CFG_ref_freq then 10 * nsF else 100 * nsF)
  else none

/-- REF_OUT follows its enable, its frequency and the mode. DESIGN CHOICE (log entry 101): unsafe. -/
def State.refOutSync (s : State) : State := { s with tmb := { s.tmb with refOut := s.refOutNow } }

/-- REF_OUT rises at KT72 `t`. -/
def State.refOutRises (s : State) (t : Nat) : Bool :=
  match s.tmb.refOut with
  | some p => t % 2 ^ 72 % p = 0
  | none => false

/-! ### M0 (R88) -/

/-- Entry to M0: the reference state goes to HOLDOVER, and trim and the loop term are held. -/
def State.tmbSleep (s : State) : State :=
  let st := s.rd TMB_REF_STAT_state
  let s1 := if st = 1 ∨ st = 2 then s.toHoldover else s
  { s1 with tmb := { s1.tmb with trimHeld := some (s.rdS TMB_TRIM_trim) } }

/-- The wake: trim in use again, and HOLDOVER to ACQUIRING as in R82. -/
def State.tmbWake (s : State) : State := { s with tmb := { s.tmb with trimHeld := none } }.refEval

end Sys2Proof.Machine
end

