-- ==== Sys2Proof/Machine/Clocks.lean ====
section
/-! DEFINITION. Clock synthesis (R108 to R140): ADPLLs, band tables, gating, hops, lock loss, and CLK_EXT. ADPLL x is 0 S, 1 C,
2 M; states are 0 OFF, 1 SEARCH, 2 ACQUIRE, 3 QUALIFY, 4 LOCKED, 5 HOLDOVER, 7 FAILED. -/

namespace Sys2Proof.Machine

/-- Hidden state of ADPLL x. -/
def State.pll (s : State) (x : Nat) : PllSt := if x = 0 then s.clk.s else if x = 1 then s.clk.c else s.clk.m

/-- Stores it. -/
def State.putPll (s : State) (x : Nat) (p : PllSt) : State :=
  { s with clk := if x = 0 then { s.clk with s := p } else if x = 1 then { s.clk with c := p } else { s.clk with m := p } }

/-- CLK_x_STAT.state. -/
def State.pllSt (s : State) (x : Nat) : Nat := s.rd (CLK_x_STAT_state x)

/-- Moves ADPLL x to a state, gated unless LOCKED or HOLDOVER (R121). With ADPLL-C's domain gated TRIG_OUTn is low (R135). -/
def State.pllTo (s : State) (x st : Nat) : State :=
  let open_ := st = 4 || st = 5
  let s1 := ((s.wr (CLK_x_STAT_state x) st).wr (CLK_x_STAT_gated x) (b2n !open_)).putPll x { s.pll x with since := s.tmb.kt }
  if x = 1 && !open_ then { s1 with trl := { s1.trl with out := [] } } else s1

/-! ### Abandoned work (R26, R138) -/

/-- A running M7 task is abandoned, which ends it (R26); a probe check writes its own record (R61). -/
def State.taskAbandon (s : State) : State :=
  match s.task with
  | none => s
  | some k =>
    let s1 := { s.nearSync with task := none }
    let s2 := if k.code = 2 then s1 else s1.event (s1.calRec k.start k.code 1 ((s.tmb.kt - k.start) / usF) 0 0 [])
    let s3 := (((s2.wr GLB_M7_TASK_busy 0).wr GLB_M7_TASK_task_run 0).wr GLB_M7_TASK_done 1).wr GLB_M7_TASK_last_task k.code
    let s4 := (s3.wr GLB_M7_TASK_last_status 1).wr DSK_CAL_CTL_busy 0
    if k.code = 3 then s4.wr DSK_CAL_CTL_inj_done 1 else if k.code = 4 then s4.wr DSK_CAL_CTL_tdc_done 1 else s4

/-- A lock loss of the sample base: the gather ends SUSPECT, tasks and checks are abandoned, spare-lane measurements restart
(R138, R409). -/
def State.baseLost (s : State) (t : Nat) : State := ((s.gatherSuspect.pchkAbandon t).taskAbandon).laneRestart

/-! ### CLOCK_SUSPECT intervals (R131) -/

/-- An interval opens with the last passed judgement at `k`: MARK, samples, records, gates and gather from then on. The interval of
a tile DLL (x = 3) covers the channels of its tile y (R137). -/
def State.susOpen (s : State) (k x y : Nat) : State :=
  let s1 := (s.susFrom (susKey x y) k).eventsSus k
  let s2 := s1.mark k 2 0 0 x y 0 0 false
  (s2.timSuspect k (if x = 3 then some y else none)).redSuspect.gatherSuspect

/-- The interval is over from the sample of `t` on. -/
def State.susDone (s : State) (t x y : Nat) : State := s.susUntil (susKey x y) t

/-- An interval ends with a CLOCK_RESTORED record at `t` (R132). -/
def State.susRestored (s : State) (t x y : Nat) : State := (s.mark t 3 0 0 x y 0 0 false).susDone t x y

/-- The CLOCK_SUSPECT interval of ADPLL x ends without a record (R131). -/
def State.pllUnsus (s : State) (x t : Nat) : State :=
  ((s.putPll x { s.pll x with suspect := none }).wr (CLK_x_STAT_suspect x) 0).susDone t x 0

/-- That of CLK_EXT does. -/
def State.extUnsus (s : State) (t : Nat) : State := ({ s with clk := { s.clk with extSuspect := none } }).susDone t 4 0

/-! ### The sample domain (R121, R125, R135) -/

/-- The source of the sample base in use runs: ADPLL-S ungated, or CLK_EXT valid. -/
def State.srcRuns (s : State) : Bool :=
  if s.on CLK_STAT_s_src_act then s.on CLK_STAT_ext_valid && !s.clk.extWait else s.rd (CLK_x_STAT_gated 0) = 0

/-- The sample base in use is running and qualified, and the domains it depends on run. -/
def State.baseRuns (s : State) : Bool :=
  s.srcRuns && s.clk.qualAt.isNone && s.coreRun && s.rd (CLK_x_STAT_gated 2) = 0 && s.hks.rails

/-- The source in use lies within ±100 ppm, as far as it is measured: CLK_EXT by CLK_EXT_MEAS (R125); ADPLL-S by its own state. -/
def State.srcNear (s : State) : Bool := !s.on CLK_STAT_s_src_act || decide ((s.rdS CLK_EXT_MEAS_err).natAbs ≤ 1000)

/-- The qualification of R125 at the gate of the sample domain has ended by `t`: 4 µs within ±100 ppm, and every DLL locked. -/
def State.qualEnd (s : State) (t : Nat) : State :=
  match s.clk.qualAt with
  | some k => if s.srcRuns && s.srcNear && decide (k + 4 * usF ≤ t) && s.rd CLK_STAT_dll_lock = s.allTiles then
      { s with clk := { s.clk with qualAt := none } } else s
  | none => s

/-- It begins, or begins again, at `t`. -/
def State.qualFrom (s : State) (t : Nat) : State := { s with clk := { s.clk with qualAt := some t } }

/-- The sample domain is gated at `t`; while armed the segment closes and its GAP has the cause given (R133). -/
def State.domClose (s : State) (t cause : Nat) : State :=
  if !s.grid.run then s else
  let p := s.grid.posOf t
  let s1 := s.clk.dllSuspect.foldl (fun s q => s.susDone t 3 q.1) (s.relockClose t cause)
  let s2 := { s1.wr CLK_STAT_dll_lock 0 with grid := { s1.grid with run := false }, clk := { s1.clk with gatePos := p, dllSuspect := [] } }
  if s2.on CLK_STAT_s_src_act then s2.qualFrom t else s2

/-- The sample domain runs again from `t`: positions go on without a step, and capture resumes (R133, R136). -/
def State.domOpen (s : State) (t : Nat) : State :=
  if s.grid.run then s else
  let s1 := s.regrid s.clk.gatePos (t * 2 ^ 40)
  ({ s1 with grid := { s1.grid with run := true } }).relockOpen t

/-- Gates or opens the sample domain as its sources stand. -/
def State.domEval (s0 : State) (t cause : Nat) : State :=
  let s := s0.qualEnd t
  if s.baseRuns then s.domOpen t else s.domClose t cause

/-! ### Band tables (R117 to R120) -/

/-- The valid entry whose frequency is `f`. -/
def State.btFind (s : State) (x f : Nat) : Option Nat :=
  (List.range 16).find? fun i => s.on (CLK_x_BT_FREQ_valid x i) && s.rd (CLK_x_BT_FREQ_freq x i) = f

/-- Starts a lock at the target: from the table, from the working entry, or by search (R117, R119, R124). -/
def State.startLock (s : State) (x : Nat) : State :=
  let f := s.rd (CLK_x_TARGET_freq x)
  let p := s.pll x
  match s.btFind x f with
  | some i => ((s.putPll x { p with useWork := false, miss := none, work := p.work.filter fun w => w.1 = f }).wr
      (CLK_x_STAT_bt_idx x) i).pllTo x 2
  | none =>
    match p.work with
    | some (g, _, _) => if g = f then (s.putPll x { p with useWork := true, miss := none }).pllTo x 2
        else (s.putPll x { p with useWork := false, work := none, miss := none }).pllTo x 1
    | none => (s.putPll x { p with useWork := false, miss := none }).pllTo x 1

/-- Starts a lock at the target from what served it last: the working entry, or the entry in use (R129); else as any lock starts.
DESIGN CHOICE (log entry 104): unsafe. -/
def State.startAgain (s : State) (x : Nat) : State :=
  let f := s.rd (CLK_x_TARGET_freq x)
  let p := s.pll x
  let i := s.rd (CLK_x_STAT_bt_idx x)
  if p.useWork && (p.work.map (·.1) = some f) then (s.putPll x { p with miss := none }).pllTo x 2
  else if !p.useWork && s.on (CLK_x_BT_FREQ_valid x i) && (x = 1 || s.rd (CLK_x_BT_FREQ_freq x i) = f) then
    (s.putPll x { p with miss := none }).pllTo x 2
  else s.startLock x

/-- Entry a search result goes to: same frequency, lowest invalid, least recently used not pinned (R119). -/
def State.btPlace (s : State) (x f : Nat) : Option Nat :=
  match s.btFind x f with
  | some i => some i
  | none =>
    match (List.range 16).find? fun i => !s.on (CLK_x_BT_FREQ_valid x i) with
    | some i => some i
    | none =>
      let free := (List.range 16).filter fun i => !s.on (CLK_x_BT_FREQ_pinned x i)
      let used := (s.pll x).lru
      match free.find? fun i => !used.contains i with
      | some i => some i
      | none => (used.reverse).find? fun i => free.contains i

/-- The crystal-side temperature in whole °C, as a table entry holds it. DESIGN CHOICE (log entry 32): unsafe. -/
def State.tempC (s : State) : Nat := toU 8 (Int.fdiv (s.rdS TMB_TEMP_temp) 16)

/-- Stores a search result in entry i, no longer preloaded. -/
def State.btStore (s : State) (x i f band code : Nat) : State :=
  let s1 := ((s.wr (CLK_x_BT_FREQ_valid x i) 1).wr (CLK_x_BT_FREQ_freq x i) f).wr (CLK_x_BT_FREQ_preloaded x i) 0
  ((s1.wr (CLK_x_BT_CODE_band x i) band).wr (CLK_x_BT_CODE_code x i) code).wr (CLK_x_BT_CODE_temp x i) s1.tempC

/-- BAND_SEARCH_DONE (R117, R119, R120): a failed search is followed by another; a result is stored and the lock begins. -/
def State.searchDone (x : Nat) (ok : Bool) (band code t : Nat) (s : State) : State :=
  let s := s.advance t
  if s.pllSt x ≠ 1 then s else
  let p := s.pll x
  if !ok then s.putPll x { p with fails := p.fails + 1, since := t } else
  let f := s.rd (CLK_x_TARGET_freq x)
  let place := match p.miss with
    | some i => some i
    | none => s.btPlace x f
  match place with
  | some i =>
    (((s.btStore x i f band code).putPll x { p with useWork := false, miss := none }).wr (CLK_x_STAT_bt_idx x) i).pllTo x 2
  | none => ((s.putPll x { p with useWork := true, work := some (f, band, code), miss := none }).orF CLK_EVT_bt_full 1).pllTo x 2

/-- An entry is in use by its ADPLL (R120). -/
def State.btInUse (s : State) (x i : Nat) : Bool :=
  decide (2 ≤ s.pllSt x) && decide (s.pllSt x ≤ 5) && !(s.pll x).useWork && s.rd (CLK_x_STAT_bt_idx x) = i

/-- BT_MISS (R120, R117): a lock from an entry not reached within 2 µs is followed by a search; one from a preloaded entry
sets bt_miss, and the search's result goes into that entry. DESIGN CHOICE (log entry 34): unsafe. -/
def State.btMiss (x t : Nat) (s : State) : State :=
  let s := s.advance t
  let p := s.pll x
  if s.pllSt x ≠ 2 ∨ t < p.since + 2 * usF then s else
  let i := s.rd (CLK_x_STAT_bt_idx x)
  if !p.useWork && s.on (CLK_x_BT_FREQ_preloaded x i) then
    ((s.orF CLK_EVT_bt_miss 1).putPll x { p with miss := some i }).pllTo x 1
  else s.pllTo x 1

/-- ADPLL_LOCKED (R118, R120, R123): the entry in use takes the code and temperature of the lock.
DESIGN CHOICE (log entry 31): unsafe. -/
def State.pllLocked (x code t : Nat) (s : State) : State :=
  let s := s.advance t
  if s.pllSt x ≠ 2 then s else
  let p := s.pll x
  let i := s.rd (CLK_x_STAT_bt_idx x)
  if p.useWork then
    (s.putPll x { p with fails := 0, work := p.work.map fun w => (w.1, w.2.1, code) }).pllTo x 3
  else
    let s1 := ((s.wr (CLK_x_BT_CODE_code x i) code).wr (CLK_x_BT_CODE_temp x i) s.tempC).wr (CLK_x_BT_FREQ_preloaded x i) 0
    (s1.putPll x { p with fails := 0, lru := i :: p.lru.filter (· ≠ i) }).pllTo x 3

/-! ### Hops (R126 to R128) -/

/-- The frequency lies in the ADPLL's range (R108, R126). -/
def hopFreqOk (x f : Nat) : Bool :=
  match x with
  | 0 => decide (800000 ≤ f) && decide (f ≤ 1250000)
  | 1 => f = 1000000 || f = 500000
  | 2 => decide (1600000 ≤ f) && decide (f ≤ 2000000)
  | _ => false

/-- CLK_HOP.pending and the wait bits as the hops stand (R126, R127). -/
def State.hopFlags (s : State) : State :=
  let w := s.clk.hopWait
  let onG : Bool := match w with
    | some h => h.pll = 0 && s.dsk.gather.isSome
    | none => false
  ((s.wr CLK_HOP_pending (b2n (w.isSome || s.clk.hopRun.isSome))).wr CLK_HOP_wait_idle
    (b2n (w.isSome && (!s.idle || s.mode = 0)))).wr CLK_HOP_wait_gather (b2n onG)

/-- The gather counts the time for which a hop of ADPLL-S waits on it (R127). -/
def State.gatherHop (s : State) : State :=
  match s.dsk.gather with
  | none => s
  | some g =>
    let w : Bool := match s.clk.hopWait with
      | some h => h.pll = 0
      | none => false
    let g1 := match g.hopAt with
      | none => if w then { g with hopAt := some s.tmb.kt } else g
      | some h => if w then g else { g with hopAt := none, waited := g.waited + (s.tmb.kt - h) }
    { s with dsk := { s.dsk with gather := some g1 } }

/-- The target of ADPLL x changes; a working entry of another frequency goes with it (R119). -/
def State.setTarget (s : State) (x f : Nat) : State :=
  let p := s.pll x
  (s.wr (CLK_x_TARGET_freq x) f).putPll x { p with work := p.work.filter fun w => w.1 = f }

/-- The ADPLL takes no hop but stores its target: disabled (R126), or FAILED, which only a search ends (R134). -/
def State.hopStores (s : State) (x : Nat) : Bool := !s.on (CLK_x_CTL_en x) || s.pllSt x = 7

/-- A waiting hop that carries force aborts the gather once acquisition is idle (R127). -/
def State.hopForceNow (s : State) : State :=
  match s.clk.hopWait with
  | some h => if h.pll = 0 && h.force && s.idle && s.dsk.gather.isSome then s.gatherAbort 1 else s
  | none => s

/-- force acts on a hop that waits on a gather (R127). -/
def State.hopForce (s : State) : State :=
  match s.clk.hopWait with
  | some h => if h.pll = 0 && s.dsk.gather.isSome then
      ({ s with clk := { s.clk with hopWait := some { h with force := true } } }).hopForceNow else s
  | none => s

/-- A requested hop (R126): it replaces a waiting one; one of a disabled ADPLL only stores the target. -/
def State.hopRequest (s : State) (x f : Nat) : State :=
  if !hopFreqOk x f || (x = 0 && s.on CLK_STAT_s_src_act) then s.wr CLK_HOP_refused 1
  else if s.hopStores x then
    (({ s with clk := { s.clk with hopWait := none } }).setTarget x f).orF CLK_EVT_hop_done 1
  else { s with clk := { s.clk with hopWait := some ⟨x, f, false⟩ } }

/-- A write of CLK_HOP with its cancel, start and force bits: the cancel acts first (R126, R127). -/
def State.hopCtl (s : State) (start cancel force : Bool) : State :=
  let s1 := if cancel then { s with clk := { s.clk with hopWait := none } } else s
  let s2 := if start then s1.hopRequest (s1.rd CLK_HOP_pll) (s1.rd CLK_HOP_FREQ_freq) else s1
  (if force then s2.hopForce else s2).gatherHop.hopFlags

/-- HOP_START (R127, R128): a waiting hop runs once acquisition is idle and no gather holds it. ADPLL-C switches its divider
at once; the others are gated and lock at the new frequency, which ends a CLOCK_SUSPECT interval (R131). -/
def State.hopStart (t : Nat) (s : State) : State :=
  let s := (s.advance t).hopForceNow
  match s.clk.hopWait with
  | none => s
  | some h =>
    if !s.idle || s.mode = 0 || s.clk.hopRun.isSome || (h.pll = 0 && s.dsk.gather.isSome) then s.hopFlags else
    let s1 := ({ s with clk := { s.clk with hopWait := none } }).setTarget h.pll h.freq
    if h.pll = 1 ∨ s.hopStores h.pll = true then (s1.orF CLK_EVT_hop_done 1).hopFlags
    else
      let s2 := (({ s1 with clk := { s1.clk with hopRun := some h } }).pllUnsus h.pll t).startLock h.pll
      let s3 := if h.pll = 0 then s2.laneRestart else s2
      (s3.domEval t 2).hopFlags

/-- A tick = 320 ns in F (R130). -/
def aTick : Nat := 320 * nsF

/-- CLK_x_MEAS takes a value, which it keeps to the end of the present A tick (R130). -/
def State.measPut (s : State) (x v : Nat) : State :=
  (s.wr (CLK_x_MEAS_err x) v).putPll x { s.pll x with meas := some s.tmb.kt }

/-- CLK_x_MEAS has taken its value in the present A tick. -/
def State.measFresh (s : State) (x : Nat) : Bool :=
  match (s.pll x).meas with
  | some k => k / aTick = s.tmb.kt / aTick
  | none => false

/-- An error of at most `b` in 0.1 ppm, chosen by a free value. -/
def errWithin (b k : Nat) : Nat := satU 16 ((Config.freeValue k % (2 * b + 1) : Nat) - (b : Int))

/-- The measurement at the opening of a gate: within ±100 ppm (R123). -/
def State.measOpen (s : State) (x : Nat) : State :=
  let (k, s1) := s.draw 1
  s1.measPut x (errWithin 1000 k)

/-- A new measurement of the ADPLL's frequency error, which the spec gives no value for (R130): a free value. In QUALIFY it lies
within ±100 ppm and in HOLDOVER within ±200 ppm, since more restarts the qualification or relocks (R123, R132), as
HOLDOVER_OUT_OF_RANGE tells. DESIGN CHOICE (log entry 30): safe. -/
def State.measNew (s : State) (x : Nat) : State :=
  let (k, s1) := s.draw 1
  match s.pllSt x with
  | 3 => s1.measPut x (errWithin 1000 k)
  | 5 => s1.measPut x (errWithin 2000 k)
  | _ => s1.measPut x (Config.freeValue k)

/-! ### Enable, search, qualification -/

/-- CLK_x_CTL as written: en starts or stops the ADPLL, search starts a band search while acquisition is idle (R117, R124).
DESIGN CHOICE (log entry 33): unsafe. A running hop of an ADPLL that is disabled ends at once, with hop_done; R126 does not say what
becomes of it. DESIGN CHOICE (log entry 118): unsafe. -/
def State.pllCtl (s : State) (x : Nat) (en search : Bool) : State :=
  let was := s.on (CLK_x_CTL_en x)
  let s1 := s.wr (CLK_x_CTL_en x) (b2n en)
  let t := s.tmb.kt
  let s2 := if s1.pllSt x = 7 then s1
    else if en && (!was || s1.pllSt x = 0) then (s1.putPll x { s1.pll x with fails := 0 }).startLock x
    else if !en && was then (s1.pllUnsus x t).pllTo x 0 else s1
  let s3 := if search && en && s.idle then ((s2.pllUnsus x t).putPll x { s2.pll x with suspect := none, fails := 0, miss := none }).pllTo x 1 else s2
  let s4 := match s3.clk.hopRun with
    | some h => if h.pll = x && !en then ({ s3 with clk := { s3.clk with hopRun := none } }).orF CLK_EVT_hop_done 1 else s3
    | none => s3
  let s5 := s4.domEval t 2
  (if x = 1 then s5.portsEval else s5).hopFlags

/-- QUALIFY_COMPLETE (R123): the gate opens; a running hop is done, and what waited for the gate resumes. For the sample base it is
also the end of the qualification of R125. -/
def State.qualified (x t : Nat) (s : State) : State :=
  let s := s.advance t
  if s.pllSt x ≠ 3 ∨ t < (s.pll x).since + 4 * usF then (if x = 0 ∧ s.clk.qualAt.isSome = true then s.domEval t 2 else s) else
  let s1 := (s.pllTo x 4).measOpen x
  let s2 := match s1.clk.hopRun with
    | some h => if h.pll = x then ({ s1 with clk := { s1.clk with hopRun := none } }).orF CLK_EVT_hop_done 1 else s1
    | none => s1
  ((if x = 1 then s2.portsEval else s2).domEval t 2).hopFlags

/-- DLL_LOCK_ACQUIRED (R110, R137): the DLLs lock to a sample base that runs, behind a shut gate too while the sample domain
qualifies (R125). -/
def State.dllLocked (tile t : Nat) (s : State) : State :=
  let s := s.advance t
  if !(s.grid.run || (s.clk.qualAt.isSome && s.srcRuns)) || decide (s.nTiles ≤ tile) then s else
  let s1 := s.orF CLK_STAT_dll_lock (2 ^ tile)
  if s1.clk.dllSuspect.any fun p => p.1 = tile then
    ({ s1 with clk := { s1.clk with dllSuspect := s1.clk.dllSuspect.filter fun p => p.1 ≠ tile } }).susRestored t 3 tile
  else if s1.clk.qualAt.isSome then s1.domEval t 2 else s1

/-! ### Lock loss (R130 to R137) -/

/-- A judgement fails (R130). -/
def State.judgeFails (s : State) (j : Judge) : Bool :=
  decide (s.rd CLK_LOCK_CFG_phase_thr < j.ps.natAbs) || j.atLimit || j.atClamp

/-- LOCK_LOSS (R130, R131): after two judgements that fail HOLDOVER, with the last passed judgement at `tPass`. -/
def State.lockLoss (x : Nat) (j1 j2 : Judge) (tPass t : Nat) (s : State) : State :=
  let s := s.advance t
  if s.pllSt x ≠ 4 || !s.judgeFails j1 || !s.judgeFails j2 then s else
  let s1 := (((s.pllTo x 5).measNew x).bump (CLK_x_CNT_holdovers x)).wr (CLK_x_STAT_suspect x) 1
  let ev := if x = 0 then CLK_EVT_s_loss else if x = 1 then CLK_EVT_c_loss else CLK_EVT_m_loss
  let s2 := ((s1.putPll x { s1.pll x with suspect := some tPass }).orF ev 1).raiseEvent 4
  let s3 := s2.susOpen tPass x 0
  if x = 0 && !s.on CLK_STAT_s_src_act then s3.baseLost t else s3

/-- HOLDOVER_RECOVERED (R132). -/
def State.recovered (x t : Nat) (s : State) : State :=
  let s := s.advance t
  if s.pllSt x ≠ 5 then s else
  ((((s.measNew x).wr (CLK_x_STAT_state x) 4).putPll x { s.pll x with suspect := none }).wr (CLK_x_STAT_suspect x) 0).susRestored t x 0

/-- A relock (R133, R135): the domain is gated, and the ADPLL locks again. -/
def State.relock (s : State) (x t src detail : Nat) : State :=
  let s1 := (((s.bump (CLK_x_CNT_relocks x)).orF CLK_EVT_gated 1).bbox 0x30 src detail).pllUnsus x t
  let s2 := ((if s1.pllSt x = 7 then s1 else s1.startLock x)).domEval t 2
  if x = 1 then s2.portsEval else s2

/-- HOLDOVER_OUT_OF_RANGE (R132); `err` in 0.1 ppm. In QUALIFY a measurement beyond ±100 ppm restarts the 4 µs (R123). -/
def State.outOfRange (x : Nat) (err : Int) (t : Nat) (s : State) : State :=
  let s := s.advance t
  let s1 := s.measPut x (satU 16 err)
  if s.pllSt x = 5 ∧ 2000 < err.natAbs then s1.relock x t x 0
  else if s.pllSt x = 3 ∧ 1000 < err.natAbs then s1.putPll x { s1.pll x with since := t } else s1

/-- HOLDOVER_TIMEOUT (R132). -/
def State.holdTimeout (x t : Nat) (s : State) : State :=
  let s := s.advance t
  let m := s.rd CLK_LOCK_CFG_hold_max
  if s.pllSt x = 5 ∧ m ≠ 0 ∧ (s.pll x).since + m * usF ≤ t then s.relock x t x 0 else s

/-- ADPLL_FAILED (R134): after three failed searches. A running hop of the ADPLL is dropped without hop_done; R126 does not say what
becomes of it. DESIGN CHOICE (log entry 118): unsafe. -/
def State.pllFailed (x t : Nat) (s : State) : State :=
  let s := s.advance t
  if s.pllSt x ≠ 1 ∨ (s.pll x).fails < 3 then s else
  let s1 := ((s.pllTo x 7).orF CLK_EVT_failed 1).bbox 0x31 x 0
  let s2 := match s1.clk.hopRun with
    | some h => if h.pll = x then { s1 with clk := { s1.clk with hopRun := none } } else s1
    | none => s1
  if x = 0 then (s2.stopAt 6 t).hopFlags else (s2.bbxFreeze 1).hopFlags

/-- DLL_LOCK_LOSS (R137). R131 begins the CLOCK_SUSPECT interval at the last passed judgement of an ADPLL's monitor, which a DLL does
not have: the interval begins at the loss. DESIGN CHOICE (log entry 119): unsafe. -/
def State.dllLoss (tile t : Nat) (s : State) : State :=
  let s := s.advance t
  if !bit (s.rd CLK_STAT_dll_lock) tile || !s.grid.run then s else
  let s1 := ((s.clrF CLK_STAT_dll_lock (2 ^ tile)).orF CLK_EVT_dll_loss 1).raiseEvent 4
  ({ s1 with clk := { s1.clk with dllSuspect := s1.clk.dllSuspect ++ [(tile, t)] } }).susOpen t 3 tile

/-- DLL_RELOCK_TIMEOUT (R137): after 20 µs the sample domain relocks; in DLL mode the gate opens again under R125. -/
def State.dllTimeout (tile t : Nat) (s : State) : State :=
  let s := s.advance t
  if s.clk.dllSuspect.any fun p => p.1 = tile && decide (p.2 + 20 * usF ≤ t) then
    if s.on CLK_STAT_s_src_act then (((s.orF CLK_EVT_gated 1).bbox 0x30 3 tile).domClose t 2).domEval t 2
    else s.relock 0 t 3 tile
  else s

/-! ### CLK_EXT (R113 to R116) -/

/-- The source of the sample base as written (R113). Choosing ADPLL-S ends a fall-back from CLK_EXT, so that CLK_EXT chosen again is a
change that waits. -/
def State.srcRequest (s : State) (src : Nat) : State :=
  let s1 := if src = 0 then { s with clk := { s.clk with fallback := false } } else s
  (s1.wr CLK_CFG_s_src src).wr CLK_CFG_s_src_pend (b2n (src ≠ s.rd CLK_STAT_s_src_act && !s1.clk.fallback))

/-- The sample base changes its source (R113): the domain is gated, and opens when the DLLs have locked and the output has
qualified (R125). -/
def State.srcTake (s : State) (src t : Nat) : State :=
  let s1 := (((s.domClose t 2).wr CLK_STAT_s_src_act src).wr CLK_CFG_s_src_pend 0).wr CLK_STAT_dll_lock 0
  let s2 := ({ s1 with clk := { s1.clk with fallback := false, extWait := false } }).extUnsus t
  if src = 1 ∨ s2.rd (CLK_x_STAT_gated 0) = 0 then s2.qualFrom t else { s2 with clk := { s2.clk with qualAt := none } }

/-- SAMPLE_SOURCE_SWITCH (R113). -/
def State.srcSwitch (t : Nat) (s : State) : State :=
  let s := s.advance t
  if s.on CLK_CFG_s_src_pend && s.idle && decide (s.mode ≠ 0) then s.srcTake (s.rd CLK_CFG_s_src) t else s

/-- CLK_EXT has become invalid at `t` (R116): the gate closes, and then other work is given up (R61, R138). In M0 the domain is gated
already, and ADPLL-S stays OFF until the wake (R129). DEDUCED (log entry 35): unsafe. A change of the source that waits goes on
waiting where the fall-back makes the wanted source active, and runs later all the same. DESIGN CHOICE (log entry 120): unsafe. -/
def State.extLost (t : Nat) (s : State) : State :=
  let s1 := (s.wr CLK_STAT_ext_valid 0).orF CLK_EVT_ext_loss 1
  if !s.on CLK_STAT_s_src_act then s1 else
  let s2 := if s.mode = 0 then s1 else (((s1.orF CLK_EVT_gated 1).bbox 0x30 4 0).domClose t 3).baseLost t
  let s3 := s2.extUnsus t
  if s.on CLK_CFG_ext_fallback then
    let s4 := (({ s3 with clk := { s3.clk with fallback := true, qualAt := none }, acq := { s3.acq with srcMark := some 0 } }).wr
      CLK_STAT_s_src_act 0)
    let f := s.rd CLK_EXT_CFG_freq
    if s.mode = 0 then (s4.setTarget 0 f).wr (CLK_x_CTL_en 0) 1
    else if s4.pllSt 0 = 4 ∧ s4.rd (CLK_x_TARGET_freq 0) = f then s4.domEval t 3
    else if s4.pllSt 0 = 7 then s4.setTarget 0 f
    else ((((s4.pllUnsus 0 t).setTarget 0 f).wr (CLK_x_CTL_en 0) 1).startLock 0).domEval t 3
  else { s3 with clk := { s3.clk with extWait := true } }

/-- CLK_EXT_INVALID: `edges`, edges are still seen. -/
def State.extInvalid (edges : Bool) (t : Nat) (s : State) : State :=
  let s1 := (s.advance t).wr CLK_EXT_MEAS_valid (b2n edges)
  if s1.on CLK_STAT_ext_valid then s1.extLost t else s1

/-- The declared frequency is one that CLK_EXT may have (R114). -/
def State.extFreqOk (s : State) : Bool := decide (800000 ≤ s.rd CLK_EXT_CFG_freq) && decide (s.rd CLK_EXT_CFG_freq ≤ 1250000)

/-- CLK_EXT_CFG has been written: beyond its range CLK_EXT is not valid. -/
def State.extFreq (s : State) : State := if s.on CLK_STAT_ext_valid && !s.extFreqOk then s.extLost s.tmb.kt else s.retime

/-- The length of a period is measured anew on CLK_EXT (R115), which lies within ±200 ppm of the declared value while CLK_EXT is
valid; the value is free. DESIGN CHOICE (log entry 103): safe. -/
def State.extTrack (s : State) : State :=
  if s.on CLK_STAT_s_src_act && s.grid.run then
    let (k, s1) := s.draw 1
    ({ s1 with clk := { s1.clk with extY := ((Config.freeValue k % 439804651 : Nat) - 219902325 : Int) } }).retime
  else s

/-- A suspect interval of CLK_EXT ends: its frequency is back within ±100 ppm (R116). -/
def State.extBack (s : State) (t : Nat) : State :=
  if s.clk.extSuspect.isSome then ({ s with clk := { s.clk with extSuspect := none } }).susRestored t 4 0 else s

/-- CLK_EXT_DRIFT (R116): between ±100 ppm and ±200 ppm, or back; `err` in 0.1 ppm. Beyond ±100 ppm, and on the return, a
qualification starts again (R125). A CLOCK_SUSPECT interval of CLK_EXT begins at the drift itself, since R131 gives a start for the
monitor of an ADPLL only. DESIGN CHOICE (log entry 119): unsafe. -/
def State.extDrift (err : Int) (t : Nat) (s : State) : State :=
  let s := s.advance t
  let s1 := (s.wr CLK_EXT_MEAS_err (satU 16 err)).wr CLK_EXT_MEAS_valid 1
  if !s.on CLK_STAT_s_src_act then s1
  else if err.natAbs ≤ 1000 then (if s.clk.qualAt.isSome && !s.srcNear then s1.qualFrom t else s1).extBack t
  else if s.clk.qualAt.isSome then s1.qualFrom t
  else if s.clk.extSuspect.isNone && s.grid.run && decide (err.natAbs ≤ 2000) then
    (({ s1 with clk := { s1.clk with extSuspect := some t } }).susOpen t 4 0).baseLost t
  else s1

/-- CLK_EXT_VALID (R114, R116): within ±100 ppm for 1 ms. A gated wait or a suspect interval ends; the qualification of R125 counts
that time. -/
def State.extValid (err : Int) (t : Nat) (s : State) : State :=
  let s := s.advance t
  if 1000 < err.natAbs ∨ s.extFreqOk = false ∨ !s.lands then s else
  let s1 := (((s.wr CLK_EXT_MEAS_err (satU 16 err)).wr CLK_EXT_MEAS_valid 1).wr CLK_STAT_ext_valid 1).extBack t
  ({ s1 with clk := { s1.clk with extWait := false, qualAt := s1.clk.qualAt.map fun k => min k (t - 1000 * usF) } }).domEval t 3

/-- EXT_CLOCK_RETURN (R116). -/
def State.extReturn (t : Nat) (s : State) : State :=
  let s := s.advance t
  if s.clk.fallback && s.idle && s.on CLK_STAT_ext_valid && decide (s.mode ≠ 0) && s.rd CLK_CFG_s_src = 1 then s.srcTake 1 t else s

end Sys2Proof.Machine
end

