-- ==== Sys2Proof/Machine/Memory.lean ====
section
/-! DEFINITION. The memory system (R272 to R305): the map of deep memory, correction, spare rows, retirement and migration,
refresh, BAR2, Rake and clearing. -/

namespace Sys2Proof.Machine

/-! ### The map of R279 -/

/-- Parity of the bits of `a` that the mask selects. -/
def parity (a mask : Nat) : Bool := ((List.range 37).filter (fun i => bit a i && bit mask i)).length % 2 = 1

/-- The pseudo-channel of user address `a` under the masks in effect (R279). -/
def State.pcOf (s : State) (a : Nat) : Nat :=
  packBits (if s.isH2 then 6 else 7) (fun n => parity a (s.dmc.hash.getD n 0))

/-- The column of user address `a`. -/
def colOf (a : Nat) : Nat := a / 64 % 16

/-- Bank group, bank address and stack ID of user address `a`: two bits each, from mask `n`. -/
def State.twoBits (s : State) (n a : Nat) : Nat := packBits 2 (fun m => parity a (s.dmc.hash.getD (n + m) 0))

/-- The row of user address `a`. -/
def State.rowOf (s : State) (a : Nat) : Nat :=
  if s.isH2 then a / 2 ^ 23 % 2 ^ 13 * 2 + a / 2 ^ 16 % 2 else a / 2 ^ 23 % 2 ^ 14

/-- The device row (of 1 KiB) of user address `a` in its pseudo-channel: row, stack ID, bank and bank group (R279). -/
def State.devRow (s : State) (a : Nat) : Nat :=
  ((s.rowOf a * 4 + s.twoBits 11 a) * 4 + s.twoBits 9 a) * 4 + s.twoBits 7 a

/-- Mask `n` as the registers hold it. -/
def State.hashReg (s : State) (n : Nat) : Nat := s.rd (DMC_HASHn_LO_mask n) + 2 ^ 32 * s.rd (DMC_HASHn_HI_mask n)

/-- A mask is valid when it sets its own home bit, no other home bit and no bit below A[6] (R280). -/
def State.hashOk (s : State) (n : Nat) : Bool :=
  let m := s.hashReg n
  (s.isH2 && n = 6) ||
    (m % 64 = 0 && (List.range 13).all (fun k => bit m (10 + k) = decide (k = n) || (s.isH2 && k = 6)))

/-- DMC_CTL.apply (R280): while idle, valid masks take effect, and changed masks leave every region unspecified. -/
def State.hashApply (s : State) : State :=
  if !s.idle then s else
  if !(List.range 13).all s.hashOk then s.wr DMC_STAT_hash_bad 1 else
  let new := (List.range 13).map fun n => if s.isH2 && n = 6 then s.dmc.hash.getD 6 0 else s.hashReg n
  let s1 := s.wr DMC_STAT_hash_bad 0
  if new = s.dmc.hash then s1 else
  { s1 with dmc := { s1.dmc with hash := new }, deep := ⟨some s1.free, [], []⟩, dpoison := [], free := s1.free + 1 }

/-- First byte of user address `a` in its pseudo-channel's 1 GiB. -/
def State.devOfs (s : State) (a : Nat) : Nat := s.devRow a * 1024 + colOf a * 64

/-- The user space of pseudo-channel `p` at device byte `o` has moved: it is retired, or the watermark of its migration lies above
(R286). -/
def State.movedAt (s : State) (p o : Nat) : Bool :=
  s.rd (DMC_PC_STAT_state p) = 2 || (s.rd (DMC_PC_STAT_state p) = 1 && decide (o < s.rd DMC_MIG_done * 2 ^ 20))

/-- The pseudo-channel that serves user address `a`: where it has moved, that of the migration area its chunk has gone to, at the
interleave of R281 (R286). -/
def State.serving (s : State) (a : Nat) : Nat :=
  let p := s.pcOf a
  if !s.movedAt p (s.devOfs a) then p else
  match look s.dmc.moved p with
  | some (l, g) => l.getD (s.devOfs a / (256 * 2 ^ g) % max 1 l.length) p
  | none => p

/-! ### Retirement and migration (R285, R286) -/

/-- The pseudo-channel exists and is neither retired nor migrating nor waiting for migration. -/
def State.pcActive (s : State) (p : Nat) : Bool :=
  p < s.nPc && s.rd (DMC_PC_STAT_state p) = 0 && !s.dmc.migQ.contains p

/-- Pseudo-channels in service (R281). -/
def State.pcsInService (s : State) : List Nat := (List.range s.nPc).filter (fun p => decide (s.rd (DMC_PC_STAT_state p) ≤ 1))

/-- Pseudo-channels retired or chosen for it. -/
def State.pcGone (s : State) : Nat := s.rd DMC_STAT_retired + s.dmc.migQ.length + s.rd DMC_MIG_busy

/-- The pseudo-channels that take the user space of `p`, and the grain, from here on (R281, R286). -/
def State.migPlace (p : Nat) (s : State) : State :=
  let l := (List.range s.nPc).filter fun k => decide (k ≠ p) && decide (s.rd (DMC_PC_STAT_state k) = 0)
  { s with dmc := { s.dmc with moved := ins s.dmc.moved p (l, s.rd DMC_ILV_GRAIN_grain) } }

/-- A retired pseudo-channel reads RETIRED. -/
def State.pcRetired (p : Nat) (s : State) : State :=
  ((((s.wr (DMC_PC_STAT_state p) 2).orF (DMC_RETIRED_bits (p / 32)) (2 ^ (p % 32))).bump DMC_STAT_retired).wr
    DMC_EVT_retired 1)

/-- What the rate has let the running migration move by now, in 1/2,048 of a byte: 1 GB/s is one such unit in each F (R286). -/
def State.migRoomAt (s : State) (t : Nat) : Nat := s.dmc.migRoom + (t - s.dmc.migAt) * s.rd DMC_MIG_rate

/-- The same with its time. -/
def State.migPaced (s : State) (t : Nat) : State := { s with dmc := { s.dmc with migRoom := s.migRoomAt t, migAt := max t s.dmc.migAt } }

/-- The watermark of the running migration now: it never falls, and has gone no further than the rate lets it; a free value between.
DESIGN CHOICE (log entry 129): safe. -/
def State.migNow (s : State) : State :=
  if !s.on DMC_MIG_busy then s else
  let w := s.rd DMC_MIG_done
  let hi := min 1024 (s.migRoomAt s.tmb.kt / 2 ^ 31)
  let (k, s1) := s.draw 1
  (s1.wr DMC_MIG_done (w + Config.freeValue k % (hi - w + 1))).migPaced s.tmb.kt

/-- Starts the next waiting migration (R286). -/
def State.migNext (s : State) : State :=
  match s.dmc.migQ with
  | [] => s
  | p :: r =>
    if s.on DMC_MIG_busy then s else
    ((((State.migPlace p { s with dmc := { s.dmc with migQ := r, migRoom := 0, migAt := s.tmb.kt } }).wr (DMC_PC_STAT_state p) 1).wr DMC_STAT_migrating 1).wr
      DMC_MIG_busy 1 |>.wr DMC_MIG_pc p).wr DMC_MIG_done 0

/-- A pseudo-channel retired by the access check has nothing to migrate: its user space reads as the migration areas do, which is
zero after clearing (R286). Bytes that were unspecified stay so. -/
def State.pcEmpty (s : State) (p : Nat) : State :=
  { s with deep := { s.deep with cells := s.deep.cells.filter fun c => s.pcOf c.1 ≠ p }, dpoison := s.dpoison.filter fun a => s.pcOf a ≠ p }

/-- A case of R285 for pseudo-channel `p`: retires it, with or without migration, or reports the limit. -/
def State.pcRetire (p : Nat) (migrate : Bool) (s : State) : State :=
  if !s.pcActive p then s else
  if (if s.isH2 then 2 else 4) ≤ s.pcGone then
    ((s.wr DMC_STAT_ret_limit 1).wr DMC_EVT_ret_limit 1).bbox 0x42 p 0
  else if migrate then ({ s with dmc := { s.dmc with migQ := s.dmc.migQ ++ [p] } }).migNext
  else State.pcRetired p (State.migPlace p (s.pcEmpty p))

/-- A corrected deep-memory read at user address `a` (R283). -/
def State.deepCorrected (s : State) (a : Nat) : State :=
  let p := s.serving a
  { (s.addSat DMC_CE_CNT_count 1).wr DMC_EVT_ce 1 with
    dmc := { s.dmc with sym := ins s.dmc.sym p ((look s.dmc.sym p).getD 0 + 1) } }

/-- An uncorrectable deep-memory read (R283): counted, logged and poisoned. -/
def State.deepUncorr (s : State) (a : Nat) : State :=
  let p := s.serving a
  let s1 := ((((s.addSat DMC_UE_CNT_count 1).wr DMC_EVT_ue 1).wr DMC_ERR_addr a).wr DMC_ERR_HI_valid 1).wr DMC_ERR_HI_ue 1
  let s2 := (s1.wr DMC_ERR_HI_pc p).bbox 0x41 p (a / 64)
  { s2 with dpoison := insSet (a / 64 * 64) s2.dpoison }

/-- What the reads of a second other than BAR2 and COPY have met in pseudo-channel `p` (R283, R293). -/
def State.secondMet (p : Nat) (q : Second) (s : State) : State :=
  let s1 := if q.symbols = 0 then s else (s.addSat DMC_CE_CNT_count q.symbols).wr DMC_EVT_ce 1
  let s2 := (q.uncorr.filter fun a => decide (a < s.deepSize) && s.serving a = p).foldl State.deepUncorr s1
  if q.late = 0 then s2 else (s2.addSat DMC_STARVE_count q.late).wr DMC_EVT_starve 1

/-- RETIRE_THRESHOLD (R285): the corrected symbols of pseudo-channel `p` over one second, each of a read that is counted (R283).
DESIGN CHOICE (log entry 56): unsafe. -/
def State.symbolsCounted (p : Nat) (q : Second) (t : Nat) (s : State) : State :=
  let s0 := s.advance t
  if s0.nPc ≤ p then s0 else
  let n := q.symbols + (look s0.dmc.sym p).getD 0
  let s1 := State.secondMet p q s0
  let s2 : State := { s1.wr (DMC_PC_STAT_ce p) (min n 65535) with dmc := { s1.dmc with sym := del s1.dmc.sym p } }
  if s2.rd DMC_RET_THR_thr ≠ 0 ∧ s2.rd DMC_RET_THR_thr < n then State.pcRetire p true s2 else s2

/-- MIGRATION_COMPLETE (R286): the watermark reaches the end, once the rate has let it. The user addresses `bad` could not be corrected and have migrated
poisoned. DESIGN CHOICE (log entry 58): unsafe. -/
def State.migrated (bad : List Nat) (t : Nat) (s : State) : State :=
  let s0 := s.advance t
  if !s0.on DMC_MIG_busy || decide (s0.migRoomAt s0.tmb.kt < 2 ^ 41) then s0 else
  let p := s0.rd DMC_MIG_pc
  let s1 := (bad.filter fun a => decide (a < s0.deepSize) && s0.pcOf a = p).foldl State.deepUncorr s0
  ((((State.pcRetired p s1).wr DMC_MIG_busy 0).wr DMC_MIG_done 1024).wr DMC_STAT_migrating 0).migNext

/-- A row is spared (R284); with no spare row left its pseudo-channel is a case of R285. -/
def State.rowSpared (p row t : Nat) (s : State) : State :=
  let s0 := s.advance t
  if s0.nPc ≤ p ∨ 2 ≤ s0.rd (DMC_PC_STAT_state p) then s0 else
  if 512 ≤ s0.rd (DMC_PC_STAT_spares p) then State.pcRetire p true s0 else
  let s1 := ((s0.bump (DMC_PC_STAT_spares p)).bump DMC_SPARE_USED_count).wr DMC_EVT_spare 1
  { s1 with dmc := { s1.dmc with spared := s1.dmc.spared ++ [(p, row)] } }

/-- Initialisation of the stacks starts (R282). -/
def State.dmcInitStart (s : State) : State :=
  { s.wr DMC_STAT_init_done 0 with dmc := { s.dmc with initWait := false, initRun := true } }

/-- DMC_INIT: a write of 1 to init; during clearing it waits (R282). -/
def State.dmcInit (s : State) : State :=
  if s.on DMC_STAT_clear_busy then { s with dmc := { s.dmc with initWait := true } } else s.dmcInitStart

/-- A pseudo-channel that fails the check of R282. -/
def State.linkFailed (s : State) (p : Nat) : State :=
  if s.nPc ≤ p ∨ 2 ≤ s.rd (DMC_PC_STAT_state p) then s else
  State.pcRetire p false ((s.wr (DMC_PC_STAT_link_fail p) 1).wr DMC_EVT_init_fail 1)

/-- DMC_INIT_DONE (R282). -/
def State.dmcInitDone (fails : List Nat) (t : Nat) (s : State) : State :=
  let s0 := s.advance t
  if !s0.dmc.initRun then s0 else
  let s1 := fails.foldl State.linkFailed s0
  { s1.wr DMC_STAT_init_done 1 with dmc := { s1.dmc with initRun := false } }

/-! ### Refresh (R287 to R289) -/

/-- Refreshes owed by a pseudo-channel. -/
def State.owed (s : State) (p : Nat) : Nat := (look s.dmc.owed p).getD 0

/-- The postponement limit of a pseudo-channel. -/
def State.refLimit (s : State) (p : Nat) : Nat :=
  if s.on (DMC_TEMPs_hot (p / 32)) || s.dmc.cooling.contains p then 4 else 8

/-- Shows the highest limit and owed count of a stack. -/
def State.refShow (k : Nat) (s : State) : State :=
  let ps := (List.range 32).map (32 * k + ·)
  (s.wr (DMC_TEMPs_limit k) ((ps.map s.refLimit).foldl max 0)).wr (DMC_TEMPs_owed k) ((ps.map s.owed).foldl max 0)

/-- Sets the owed count; at 0 a pseudo-channel still at 4 returns to 8 (R289). -/
def State.setOwed (p n : Nat) (s : State) : State :=
  State.refShow (p / 32) { s with dmc := { s.dmc with
    owed := if n = 0 then del s.dmc.owed p else ins s.dmc.owed p n,
    cooling := if n = 0 then s.dmc.cooling.filter (· ≠ p) else s.dmc.cooling } }

/-- The memory domain and the controllers run: else the stacks are in self-refresh and the controllers hold their queues (R128,
R135). -/
def State.memRuns (s : State) : Bool := s.coreRun && s.rd (CLK_x_STAT_gated 2) = 0

/-- Refresh runs for the pseudo-channel: not while its stack is in self-refresh. DESIGN CHOICE (log entry 57): unsafe. -/
def State.refRuns (s : State) (p : Nat) : Bool := decide (p < s.nPc) && s.memRuns

/-- REFRESH_DUE (R287): issued at once when the drain has nothing pending, or when the limit would be exceeded; owed
otherwise. -/
def State.refreshDue (p : Nat) (blocked : Bool) (t : Nat) (s : State) : State :=
  let s0 := s.advance t
  if !s0.refRuns p then s0 else
  if blocked ∧ s0.owed p < s0.refLimit p then State.setOwed p (s0.owed p + 1) s0 else s0

/-- OWED_REFRESH_ISSUE (R287). -/
def State.owedIssue (p t : Nat) (s : State) : State :=
  let s0 := s.advance t
  if !s0.refRuns p ∨ s0.owed p = 0 then s0 else State.setOwed p (s0.owed p - 1) s0

/-- STACK_TEMP_READING (R288, R289), in sixteenths of a degree. -/
def State.stackTemp (k : Nat) (temp : Int) (t : Nat) (s : State) : State :=
  let s0 := s.advance t
  if s0.nStacks ≤ k ∨ s0.mode = 0 then s0 else
  let s1 := (s0.wr (DMC_TEMPs_valid k) 1).wr (DMC_TEMPs_temp k) (satU 16 temp)
  let ps := (List.range 32).map (32 * k + ·)
  if !s1.on (DMC_TEMPs_hot k) ∧ 85 * 16 < temp then
    let d := s1.dmc
    State.refShow k { ((s1.wr (DMC_TEMPs_hot k) 1).wr DMC_EVT_hot 1) with
      dmc := { d with owed := d.owed.map fun x => if x.1 / 32 = k then (x.1, min 4 x.2) else x } }
  else if s1.on (DMC_TEMPs_hot k) ∧ temp < 83 * 16 then
    let d := s1.dmc
    State.refShow k { s1.wr (DMC_TEMPs_hot k) 0 with
      dmc := { d with cooling := (ps.filter fun p => 0 < s1.owed p).foldl (fun l p => insSet p l) d.cooling } }
  else s1

/-! ### Errors and BAR2 (R275, R276, R283, R293, R309 to R311) -/

/-- First byte of near memory in BAR2. -/
def bar2Near : Nat := 2 ^ 37

/-- The byte at BAR2 offset `a` (R309, R298): near, deep, or zero. -/
def State.bar2Byte (s : State) (a : Nat) : Byte :=
  if a < s.deepSize then (if s.on DMC_STAT_clear_busy then 0 else s.deep.read a)
  else if bar2Near ≤ a ∧ a < bar2Near + 2 ^ 28 then (if s.on NMC_STAT_clear_busy then 0 else s.near.read (a - bar2Near))
  else 0

/-- The access at BAR2 offset `a` is poisoned. -/
def State.bar2Poison (s : State) (a : Nat) : Bool :=
  if a < s.deepSize then !s.on DMC_STAT_clear_busy && s.dpoison.contains (a / 64 * 64)
  else bar2Near ≤ a && !s.on NMC_STAT_clear_busy && s.poison.contains ((a - bar2Near) / 64 * 64)

/-- The errors a read meets: corrected and uncorrectable words by BAR2 offset, those inside the range and in a memory that
is read, and failing cells of near memory. DESIGN CHOICE (log entry 56): unsafe. -/
def State.bar2Errors (a len : Nat) (corr uncorr : List Nat) (s : State) : State :=
  let inR (x : Nat) : Bool := a ≤ x && x < a + len
  let deep (x : Nat) : Bool := inR x && x < s.deepSize && !s.on DMC_STAT_clear_busy
  let near (x : Nat) : Bool := inR x && bar2Near ≤ x && x < bar2Near + 2 ^ 28 && !s.on NMC_STAT_clear_busy
  let s1 := (corr.filter deep).foldl State.deepCorrected s
  let s2 := (corr.filter near).foldl (fun u _ => u.nearCorrected) s1
  let s3 := (uncorr.filter deep).foldl State.deepUncorr s2
  let s4 := (uncorr.filter near).foldl (fun u x => u.nearUncorr (x - bar2Near)) s3
  if bar2Near < a + len ∧ s.on NMC_STAT_clear_busy = false then s4.cellRead 0 (a - bar2Near) (a + len - max a bar2Near) else s4

/-- BAR2 accesses reach the Kameth: rails on, link up, not in M0. -/
def State.bar2Open (s : State) : Bool := s.hks.rails && s.hrv.link.isSome && decide (s.mode ≠ 0)

/-- An access to near memory finds what its writers have put there (R13). -/
def State.nearSeen (s : State) (a n : Nat) : State := if bar2Near < a + n ∧ a < bar2Near + 2 ^ 28 then s.nearSync else s

/-- An access of `n` bytes at BAR2 offset `a` is granted; one of deep memory may activate rows (R290, R293). -/
def State.bar2Grant (s : State) (a n wait : Nat) : State :=
  if a < s.deepSize ∧ s.on DMC_STAT_clear_busy = false then (s.granted wait).activates (cdiv (a % 64 + n) 64) else s

/-- A BAR2 read is performed (R310, R311): the completion, and whether it is poisoned. DESIGN CHOICE (log entry 60): unsafe. -/
def State.bar2Take (a len : Nat) (corr uncorr : List Nat) (wait : Nat) (s0 : State) : State :=
  let n := min len 4096
  let s1 := (State.bar2Errors a n corr uncorr (s0.migNow.nearSeen a n)).bar2Grant a n wait
  let bad := (List.range n).any fun i => s1.bar2Poison (a + i)
  { s1 with hrv := { s1.hrv with cpl := (List.range n).map (fun i => s1.bar2Byte (a + i)), cplPoison := bad, l12 := false,
                                 aerPoison := s1.hrv.aerPoison + b2n bad } }

/-- The access is served at once: nothing is held before it, and its memory's domain runs, or is being cleared (R298). -/
def State.memServed (s : State) : Bool :=
  s.hrv.memHeld.isEmpty && (s.memRuns || s.on NMC_STAT_clear_busy || s.on DMC_STAT_clear_busy)

/-- BAR2_READ; one that finds the memory domain gated is held. -/
def State.bar2Read (a len : Nat) (corr uncorr : List Nat) (wait t : Nat) (s : State) : State :=
  let s0 := s.advance t
  if !s0.bar2Open then s0
  else if s0.memServed then State.bar2Take a len corr uncorr wait s0
  else { s0 with hrv := { s0.hrv with l12 := false, memHeld := s0.hrv.memHeld ++ [.read a len corr uncorr wait] } }

/-- Stores bytes in near memory; a 64-byte access stored whole is no longer poisoned. -/
def State.nearPut (s : State) (a : Nat) (bs : List Byte) : State :=
  { s with near := s.near.write a bs, poison := s.poison.filter (fun p => ¬(a ≤ p ∧ p + 64 ≤ a + bs.length)) }

/-- A BAR2 write is performed (R309, R298, R371): one to a memory being cleared is discarded and sets early_wr; one before boot is
done is discarded. -/
def State.bar2Store (a : Nat) (data : List Byte) (wait : Nat) (s0 : State) : State :=
  let d := data.take 4096
  if a < s0.deepSize then
    if s0.on DMC_STAT_clear_busy then s0.wr DMC_EVT_early_wr 1 else if !s0.on HKS_BOOT_done then s0 else (s0.granted wait).deepPut a (d.take (s0.deepSize - a))
  else if bar2Near ≤ a ∧ a < bar2Near + 2 ^ 28 then
    if s0.on NMC_STAT_clear_busy then s0.wr DMC_EVT_early_wr 1 else
      if !s0.on HKS_BOOT_done then s0 else s0.nearSync.nearPut (a - bar2Near) (d.take (bar2Near + 2 ^ 28 - a))
  else s0

/-- BAR2_WRITE; one that finds the memory domain gated is held. -/
def State.bar2Write (a : Nat) (data : List Byte) (wait t : Nat) (s : State) : State :=
  let s0 := s.advance t
  if !s0.bar2Open then s0
  else if s0.memServed then State.bar2Store a data wait { s0 with hrv := { s0.hrv with l12 := false } }
  else { s0 with hrv := { s0.hrv with l12 := false, memHeld := s0.hrv.memHeld ++ [.write a data wait] } }

/-- A held request is performed. -/
def State.memDone (s : State) : MemReq → State
  | .read a len corr uncorr wait => State.bar2Take a len corr uncorr wait s
  | .write a data wait => State.bar2Store a data wait s

/-- The held queues resume once the memory domain runs (R128). -/
def State.memSync (s : State) : State :=
  if s.hrv.memHeld.isEmpty || !s.memRuns then s else s.hrv.memHeld.foldl State.memDone { s with hrv := { s.hrv with memHeld := [] } }

/-! ### Rake (R294 to R297) -/

/-- Whether a memory is enabled in RAK_CTL. -/
def State.rakeOn (s : State) (target : Nat) : Bool :=
  s.on (if target = 0 then RAK_CTL_near_en else if target = 1 then RAK_CTL_deep_en else RAK_CTL_scr_en)

/-- Whether Rake may take a lease in a memory (R294). -/
def State.rakeRuns (s : State) (target : Nat) : Bool :=
  s.memRuns && s.hks.rails && s.pwr.seqAt.isNone && s.rakeOn target && !s.on NMC_STAT_clear_busy && !s.on DMC_STAT_clear_busy
    && (target ≠ 1 || (s.on DMC_STAT_init_done && !s.on DMC_MIG_busy && s.pcsInService ≠ []))
    && !s.rak.leases.any (fun l => l.target = target)

/-- Device rows of 1 KiB of a pseudo-channel: 1 GiB of user space and the reserve of 64 MiB (R278). -/
def pcRows : Nat := 1114112

/-- Regions of a sweep (R294). -/
def State.rakeRegions (s : State) (target : Nat) : Nat :=
  if target = 0 then 65536 else if target = 1 then s.pcsInService.length * pcRows else 1024

/-- Pseudo-channel, first byte and length of a region: ascending, and plain interleave for deep memory (R281, R294). -/
def State.rakeRegion (s : State) (target grain i : Nat) : Nat × Nat × Nat :=
  if target = 0 then (0, 4096 * i, 4096) else
  if target = 2 then (0, 64 * i, 64) else
  let ps := s.pcsInService
  let n := max ps.length 1
  let per := max 1 (2 ^ grain / 4)
  let c := i / per
  (ps.getD (c % n) 0, (c / n * per + i % per) * 1024, 1024)

/-- Operations per cell of the march algorithm, copy and restore among them (R294). -/
def marchOps (algo : Nat) : Nat :=
  match algo with
  | 1 => 7
  | 2 => 24
  | _ => 12

/-- How long a lease of `n` bytes takes of the rate in RAK_RATE (R294). -/
def State.rakeTime (s : State) (target algo n : Nat) : Nat :=
  if target = 2 then n * marchOps algo * nsF * 1000 / (16 * max 1 (s.rd RAK_RATE_scr))
  else n * marchOps algo * nsF / max 1 (s.rd (if target = 0 then RAK_RATE_near else RAK_RATE_deep))

/-- Shows the leases held. -/
def State.rakeShow (s : State) : State :=
  let m := packBits 3 fun k => s.rak.leases.any fun l => l.target = k
  (s.wr RAK_STAT_lease m).wr RAK_STAT_busy (if m = 0 then 0 else 1)

/-- A failing cell (R297): offset within the region and bit of the 64-byte access. -/
def State.rakeFail (l : Lease) (s : State) (f : Nat × Nat) : State :=
  let a := l.addr + f.1 % l.len
  let s1 := ((s.bump RAK_FAIL_CNT_count).wr RAK_FAIL_ADDR_LO_offset a).wr RAK_FAIL_ADDR_HI_valid 1
  let s2 := ((s1.wr RAK_FAIL_ADDR_HI_target l.target).wr RAK_FAIL_ADDR_HI_pc l.pc).wr RAK_FAIL_ADDR_HI_bit f.2
  let s3 := (s2.wr RAK_EVT_fail 1).bbox 0x43 l.target a
  if l.target = 1 then s3 else
  let w := if l.target = 2 then a / 64 * 64 + f.2 / 32 * 4 else a / 64 * 64 + f.2 / 64 * 8
  let c := (l.target, w, f.2 % (if l.target = 2 then 32 else 64))
  { s3.wr NMC_EVT_rake_fail 1 with cells := if s3.cells.contains c then s3.cells else c :: s3.cells }

/-- The copy of a region to the shadow reads it: known failing cells, and errors of its own (R275, R283, R295). Poison is copied. -/
def State.rakeCopy (l : Lease) (q : Leased) (s : State) : State :=
  if l.target = 1 then
    let mine := fun a => decide (a < s.deepSize) && s.pcOf a = l.pc && decide (l.addr ≤ s.devOfs a) && decide (s.devOfs a < l.addr + l.len)
    (q.uncorr.filter mine).foldl State.deepUncorr ((q.corr.filter mine).foldl State.deepCorrected ((s.granted q.wait).activates 1))
  else
    let cs := q.corr.filter fun o => decide (o < l.len)
    let us := q.uncorr.filter fun o => decide (o < l.len)
    let s1 := cs.foldl (fun s _ => s.nearCorrected) (s.cellRead l.target l.addr l.len)
    us.foldl (fun s o => if l.target = 2 then s.scrUncorr (l.addr + o) else s.nearUncorr (l.addr + o)) s1

/-- RAKE_LEASE (R294, R295, R297): once the rate allows it, takes the next region of the sweep, or a requeued one at its end, and tests it.
DESIGN CHOICE (log entry 59): unsafe. -/
def State.rakeLease (target : Nat) (q : Leased) (t : Nat) (s : State) : State :=
  let s0 := s.advance t
  if !s0.rakeRuns target ∨ t < (look s0.rak.due target).getD 0 then s0 else
  let i := (look s0.rak.nextAt target).getD 0
  let grain := if i = 0 ∧ target = 1 then s0.rd DMC_ILV_GRAIN_grain else s0.rak.grain
  let pick : Option (Nat × Rak) :=
    if i < s0.rakeRegions target then
      some (i, { s0.rak with nextAt := ins s0.rak.nextAt target (i + 1), grain := grain })
    else match s0.rak.again.find? (fun x => x.1 = target) with
      | some x => some (x.2, { s0.rak with again := s0.rak.again.erase x })
      | none => some (0, { s0.rak with nextAt := ins s0.rak.nextAt target 1, grain := s0.rd DMC_ILV_GRAIN_grain })
  match pick with
  | none => s0
  | some (r, k) =>
    let (pc, a, n) := s0.rakeRegion target k.grain r
    let l : Lease := ⟨target, r, pc, a, n, s0.rd RAK_CTL_algo⟩
    let d := ins k.due target (t + s0.rakeTime target l.algo n)
    let s1 := State.rakeShow { s0 with rak := { k with leases := l :: k.leases, due := d } }
    q.fails.foldl (State.rakeFail l) (State.rakeCopy l q s1)

/-- RAKE_LEASE_RELEASE (R295): the region is restored; the last region of the order completes a sweep. -/
def State.rakeRelease (target t : Nat) (s : State) : State :=
  let s0 := s.advance t
  if !s0.rak.leases.any (fun l => l.target = target) then s0 else
  let k := { s0.rak with leases := s0.rak.leases.filter fun l => l.target ≠ target }
  let s1 := State.rakeShow { s0 with rak := k }
  if (look k.nextAt target).getD 0 < s1.rakeRegions target ∨ k.again.any (fun x => x.1 = target) then s1 else
  (({ s1 with rak := { s1.rak with nextAt := del s1.rak.nextAt target } }).bump
    (if target = 0 then RAK_PASS_NEAR_count else if target = 1 then RAK_PASS_DEEP_count else RAK_PASS_SCR_count)).wr
    RAK_EVT_sweep_done 1

/-- Gives up the leases that hold for a memory and requeues their regions. -/
def State.rakeRequeue (target : Nat) (s : State) : State :=
  let (a, b) := s.rak.leases.partition fun l => l.target = target
  State.rakeShow { s with rak := { s.rak with leases := b, again := s.rak.again ++ a.map fun l => (target, l.region) } }

/-- A lease of near memory or the scratchpad is pre-empted (R296). -/
def State.preempted (target : Nat) (s : State) : State :=
  if target = 1 ∨ !s.rak.leases.any (fun l => l.target = target) then s else
  ((State.rakeRequeue target s).bump RAK_PREEMPT_count).wr RAK_EVT_preempt 1

/-- RAKE_PREEMPT (R296): near memory and the scratchpad only. -/
def State.rakePreempt (target t : Nat) (s : State) : State := State.preempted target (s.advance t)

/-! ### Clearing (R298) -/

/-- NEAR_CLEAR_DONE: near memory, the scratchpad, the queues and the shadows are cleared. -/
def State.nearCleared (t : Nat) (s : State) : State :=
  let s0 := s.advance t
  if !s0.hks.rails ∨ !s0.on NMC_STAT_clear_busy then s0 else
  { s0.wr NMC_STAT_clear_busy 0 with near := ⟨none, [], []⟩, scr := ⟨none, [], []⟩, poison := [],
                                     rak := { s0.rak with leases := [] } }

/-- DEEP_CLEAR_DONE: deep memory and the DMC state are cleared; an init that waited starts (R282). -/
def State.deepCleared (t : Nat) (s : State) : State :=
  let s0 := s.advance t
  if !s0.hks.rails ∨ !s0.on DMC_STAT_clear_busy then s0 else
  let s1 := { s0.wr DMC_STAT_clear_busy 0 with deep := ⟨none, [], []⟩, dpoison := [] }
  if s1.dmc.initWait then s1.dmcInitStart else s1

/-- DMC_CTL as written (R303). -/
def State.dmcCtl (v : Nat) (s : State) : State :=
  let s1 := if DMC_CTL_init.of v = 1 then s.dmcInit else s
  let s2 := if DMC_CTL_retire.of v = 1 ∧ DMC_CTL_key.of v = 0x5A3C then State.pcRetire (DMC_CTL_pc.of v) true s1 else s1
  if DMC_CTL_apply.of v = 1 then s2.hashApply else s2

end Sys2Proof.Machine
end

