-- ==== Sys2Proof/Machine/Harvest.lean ====
section
/-! DEFINITION. PCI Express and Harvest (R306 to R334): messages, descriptor rings, follow delivery, completions, the link. -/

namespace Sys2Proof.Machine

/-! ### Control registers of configuration space (R307) -/

/-- Number of a control register. -/
def cfgNum : CfgReg → Nat
  | .device => 0
  | .aer => 1
  | .aerMask => 2
  | .l1 => 3
  | .msix => 4

/-- Every control register. -/
def cfgRegs : List CfgReg := [.device, .aer, .aerMask, .l1, .msix]

/-- The bits that the host writes: of Device Control the error reports, relaxed ordering, the payload and the read request size, of
AER's control ECRC generation and checking, of L1 PM Substates the four enables, of MSI-X its enable and the function mask. PRESUMED
(log entry 98): unsafe. -/
def cfgMask : CfgReg → Nat
  | .device => 0x70FF
  | .aer => 0x140
  | .aerMask => 0xFFFFFFFF
  | .l1 => 0xF
  | .msix => 0xC000

/-- The value after a reset: relaxed ordering enabled, payload 128 bytes, read requests 512 bytes. PRESUMED (log entry 98): unsafe. -/
def cfgRst : CfgReg → Nat
  | .device => 0x2010
  | _ => 0

/-- The value of a control register. -/
def State.cfgReg (s : State) (r : CfgReg) : Nat := (look s.hrv.cfg (cfgNum r)).getD (cfgRst r)

/-- A bit of a control register. -/
def State.cfgBit (s : State) (r : CfgReg) (i : Nat) : Bool := bit (s.cfgReg r) i

/-- Max_Payload_Size in bytes: 128 to 4,096. -/
def State.maxPayload (s : State) : Nat := 128 * 2 ^ min 5 (s.cfgReg .device / 32 % 8)

/-- Relaxed ordering is enabled in Device Control (R330). -/
def State.relaxed (s : State) : Bool := s.cfgBit .device 4

/-! ### MSI-X (R317, R318) -/

/-- Word `w` of the MSI-X table: a vector is masked until software unmasks it. -/
def State.msxWord (s : State) (w : Nat) : Nat := (look s.msxTab w).getD (if w % 4 = 3 then 1 else 0)

/-- A message can be sent: the link is up, the function is in D0 with Bus Master Enable and MSI-X enabled, and the core domain runs. -/
def State.msgOn (s : State) : Bool :=
  s.hks.rails && s.hrv.link.isSome && s.hrv.bme && !s.hrv.d3 && s.cfgBit .msix 15 && s.coreRun

/-- Vector `v` is masked, by itself or with the whole function. -/
def State.msxMasked (s : State) (v : Nat) : Bool := bit (s.msxWord (4 * v + 3)) 0 || s.cfgBit .msix 14

/-- The link carries something: it is in L0 for it (R316). -/
def State.linkUsed (s : State) : State := { s with hrv := { s.hrv with l12 := false } }

/-- Signals vector `v`: a message, or its pending bit while it is masked. DESIGN CHOICE (log entry 87): unsafe. -/
def State.signal (v : Nat) (s : State) : State :=
  if s.msxMasked v then { s with msxPba := insSet v s.msxPba } else { s.linkUsed with msix := v :: s.msix }

/-- The pending vectors that are masked no more are sent. -/
def State.pbaSync (s : State) : State :=
  if s.msxPba.isEmpty || !s.msgOn then s else
  s.msxPba.foldl (fun (s : State) v =>
    if s.msxMasked v then s else State.signal v { s with msxPba := s.msxPba.filter (· ≠ v) }) s

/-- A write to the MSI-X table (one word); unmasking a vector sends what was pending. -/
def State.msxWrite (w v : Nat) (s : State) : State := ({ s with msxTab := ins s.msxTab w v } : State).pbaSync

/-! ### Rings -/

/-- A ring with nothing in hand. -/
def Ring.idle : Ring := ⟨[], 0, 0, none, 0, none, none, 0, 0, 0, [], false, false, true⟩

/-- Hidden state of ring `n`. -/
def State.ring (s : State) (n : Nat) : Ring := (look s.hrv.rings n).getD Ring.idle

/-- Stores the hidden state of ring `n`. -/
def State.setRing (s : State) (n : Nat) (r : Ring) : State := { s with hrv := { s.hrv with rings := ins s.hrv.rings n r } }

/-- Entries of descriptor ring `n`. -/
def State.ringSize (s : State) (n : Nat) : Nat := 2 ^ s.rd (HRV_RINGn_CFG_size n)

/-- What ring `n` follows: 0 COPY, 1 capture, 2 Sieve, 8 to 15 a reduction unit (R323, R325). -/
def State.ringSrc (s : State) (n : Nat) : Nat :=
  if (s.ring n).strm then 1 else
  let x := s.rd (HRV_RINGn_CFG_src n)
  if 3 ≤ x ∧ x ≤ 7 then 0 else x

/-- Harvest may issue requests: on, link up, D0, Bus Master Enable, core and memory domains running, not cut off (R128, R314, R398). -/
def State.hrvRuns (s : State) : Bool :=
  s.on HRV_CTL_en && s.hrv.link.isSome && !s.hrv.d3 && s.hrv.bme && s.memRuns && s.hks.rails && !s.pwr.cut

/-- Ring `n` is served. -/
def State.ringRuns (s : State) (n : Nat) : Bool :=
  s.hrvRuns && s.on (HRV_RINGn_CFG_en n) && !s.on (HRV_RINGn_STAT_bad n) && (s.ring n).ready.isNone

/-- Ring `n` is empty: head equals tail (R319). -/
def State.ringEmpty (s : State) (n : Nat) : Bool :=
  s.rd (HRV_RINGn_HEAD_idx n) % s.ringSize n = s.rd (HRV_RINGn_TAIL_idx n) % s.ringSize n

/-- Bytes for the host at an address, cut at multiples of `m`, a payload size of at most 4 KiB, so that none is longer than `m` and
none crosses 4 KiB (R307, R330). DESIGN CHOICE (log entry 131): unsafe. -/
def tlps (m : Nat) (relaxed : Bool) (a : Nat) (bs : List Byte) : Nat → List HostTlp
  | 0 => []
  | k + 1 => if bs.isEmpty then [] else
    let n := m - a % m
    ⟨a, bs.take n, relaxed⟩ :: tlps m relaxed (a + n) (bs.drop n) k

/-- Harvest writes to host memory; the link leaves L1.2 for it. -/
def State.hostPut (s : State) (relaxed : Bool) (a : Nat) (bs : List Byte) : State :=
  let m := s.maxPayload
  { s with hrv := { s.hrv with out := s.hrv.out ++ tlps m relaxed a bs (bs.length / m + 2), l12 := false } }

/-! ### Completions (R329 to R332) -/

/-- Entries of completion ring `m`. -/
def State.cqSize (s : State) (m : Nat) : Nat := 2 ^ s.rd (HRV_CQm_CFG_size m)

/-- Completion ring `m` has no free entry: it is off, or one more entry would make its tail reach its head. -/
def State.cqFull (s : State) (m : Nat) : Bool :=
  !s.on (HRV_CQm_CFG_en m) || (s.rd (HRV_CQm_TAIL_idx m) + 1) % s.cqSize m = s.rd (HRV_CQm_HEAD_idx m) % s.cqSize m

/-- Unsignalled entries of completion ring `m`. -/
def State.cq (s : State) (m : Nat) : Cq := (look s.hrv.cqs m).getD ⟨0, 0⟩

/-- Interrupts on vector `m`: once its message can be sent, every written entry is signalled (R332). -/
def State.cqSignal (m : Nat) (s : State) : State :=
  if s.on (HRV_CQm_CFG_en m) && s.msgOn then
    State.signal m { s with hrv := { s.hrv with cqs := ins s.hrv.cqs m ⟨0, 0⟩ } }
  else s

/-- The 32 bytes of a completion entry (R329). -/
def cqEntry (tag bytes recs status cflags n rofs info : Nat) : List Byte :=
  le 4 tag ++ le 4 bytes ++ le 4 recs ++ le 1 status ++ le 1 cflags ++ le 1 n ++ le 1 0 ++ le 8 rofs ++ le 8 info

/-- Writes the completion entry of the descriptor in hand of ring `n` and consumes it. -/
def State.cqWrite (n : Nat) (c : Nat × Nat × Nat) (s : State) : State :=
  let r := s.ring n
  match r.q with
  | [] => s
  | d :: q =>
    let m := s.rd (HRV_RINGn_CFG_cq n)
    let i := s.rd (HRV_CQm_TAIL_idx m) % s.cqSize m
    let a := 64 * s.rd (HRV_CQm_BASE_LO_addr m) + 2 ^ 32 * s.rd (HRV_CQm_BASE_HI_addr m) + 32 * i
    let e := cqEntry d.tag r.bytes r.recs c.1 (s.rd (HRV_CQm_TAIL_phase m) + c.2.1) n (if d.copy then d.src else r.rofs) c.2.2
    let s1 := s.hostPut false a e
    let s2 := if i + 1 = s.cqSize m then
        (s1.wr (HRV_CQm_TAIL_idx m) 0).wr (HRV_CQm_TAIL_phase m) (1 - s.rd (HRV_CQm_TAIL_phase m))
      else s1.wr (HRV_CQm_TAIL_idx m) (i + 1)
    let s3 := s2.wr (HRV_RINGn_HEAD_idx n) ((s2.rd (HRV_RINGn_HEAD_idx n) + 1) % s2.ringSize n)
    let s4 := s3.setRing n { r with q := q, bytes := 0, recs := 0, firstAt := none, rofs := 0, pois := none, ready := none }
    let u := s4.cq m
    let u1 : Cq := ⟨u.unsig + 1, if u.unsig = 0 then s.tmb.kt else u.oldest⟩
    let s5 := { s4 with hrv := { s4.hrv with cqs := ins s4.hrv.cqs m u1 } }
    if d.irq ∨ s5.rd (HRV_CQm_CFG_count m) ≤ u1.unsig then State.cqSignal m s5 else s5

/-- Completes the buffer in hand with status, flags and info; with no free entry (R331), or while Harvest may complete nothing (R314),
the completion waits. -/
def State.finish (n status cflags info : Nat) (s : State) : State :=
  let r := s.ring n
  if r.q.isEmpty then s else
  let c := (status, cflags + 8 * b2n r.strm, info)
  if s.cqFull (s.rd (HRV_RINGn_CFG_cq n)) || !s.hrvRuns then s.setRing n { r with ready := some c } else State.cqWrite n c s

/-- Completes descriptors at the front that break R321 (R321). -/
def State.badFront (n : Nat) (s : State) : Nat → State
  | 0 => s
  | k + 1 =>
    match (s.ring n).q, (s.ring n).ready with
    | d :: _, none => if d.bad then State.badFront n ((State.finish n 4 0 0 s).orF HRV_EVT_bad_desc 1) k else s
    | _, _ => s

/-- Status and info of a buffer that ends without other cause: POISON when an access was replaced (R328). -/
def Ring.okStatus (r : Ring) : Nat × Nat :=
  match r.pois with
  | some a => (1, a)
  | none => (0, 0)

/-- Completes the buffer in hand normally, with flags. -/
def State.finishOk (n cflags : Nat) (s : State) : State :=
  let (st, info) := (s.ring n).okStatus
  State.badFront n (State.finish n st cflags info s) 8

/-! ### Reading memory for a buffer -/

/-- Appends `m` bytes read from deep or near memory at `a` to the buffer in hand; poisoned accesses become zeros (R328). -/
def State.bufCopy (n : Nat) (deep : Bool) (a m : Nat) (s : State) : State :=
  let r := s.ring n
  match r.q with
  | [] => s
  | d :: _ =>
    let bad := (List.range (m / 64)).filter fun i =>
      if deep then s.dpoison.contains (a + 64 * i) else s.poison.contains (a + 64 * i)
    let bs := (List.range m).map fun i =>
      if bad.contains (i / 64) then 0 else if deep then s.deep.read (a + i) else s.near.read (a + i)
    let s1 := (if deep then s.activates (cdiv (a % 64 + bs.length) 64) else s).hostPut s.relaxed (d.addr + r.bytes) bs
    let s2 := s1.addF HRV_BYTES m
    let s3 := if bad.isEmpty then s2 else (s2.addSat HRV_POISON_CNT_count bad.length).orF HRV_EVT_poison 1
    s3.setRing n { r with bytes := r.bytes + m, pois := match r.pois, bad with
      | some x, _ => some x
      | none, i :: _ => some (r.bytes + 64 * i)
      | none, [] => none }

/-! ### Following a region (R323 to R328) -/

/-- Base address and units of a followed reduction or Sieve region. -/
def State.regionOf (s : State) (src : Nat) : Nat × Nat :=
  if src = 2 then (s.rd SIV_BASE_value % 2 ^ 21 * 65536, s.sivUnits)
  else (s.rd (RED_RUn_BASE_value (src - 8)) % 2 ^ 21 * 65536, s.rd (RED_RUn_SIZE_value (src - 8)) * 1024)

/-- Units of one segment place. -/
def State.segUnits (s : State) : Nat := s.rd ACQ_SEG_size * 1024

/-- Region offset, in units, of unit `u` of segment `k`. -/
def State.segOfs (s : State) (k u : Nat) : Nat := k % max 1 s.nSegs * s.segUnits + u

/-- Byte address of region offset `o` of what ring `n` follows. -/
def State.followAddr (s : State) (src o : Nat) : Nat :=
  if src = 1 then s.rd ACQ_REGION_BASE_value % 2 ^ 21 * 65536 + 64 * o else (s.regionOf src).1 + 64 * o

/-- Where the writer of the capture region stands, in units since arm with every segment's place counted whole: behind what it has
written of the open segment, else at the start of the next. -/
def State.capPos (s : State) : Nat :=
  match s.acq.seg with
  | some g => g.idx * s.segUnits + g.wofs
  | none => s.acq.next * s.segUnits

/-- Where a ring stands in the capture region, likewise: at a record to deliver again, or at the next. -/
def State.ringPos (s : State) (r : Ring) : Nat := r.seg * s.segUnits + (if r.after then r.redo.headD r.u else r.u)

/-- The records at the ring's pointer have been overwritten: the writer has gone past it, one round later (R327). -/
def State.overrun (s : State) (n : Nat) : Bool :=
  let r := s.ring n
  let src := s.ringSrc n
  if src = 0 ∨ r.strm then false else
  if src = 1 then decide (s.ringPos r + s.nSegs * s.segUnits < s.capPos) else
  decide (r.rd + (s.regionOf src).2 < (look s.hrv.written src).getD 0)

/-- Region offset of the next record to deliver, if it has been written (R324, R326). -/
def State.nextRec (s : State) (n : Nat) : Option Nat :=
  let r := s.ring n
  let src := s.ringSrc n
  if src = 0 ∨ s.overrun n then none else
  if src = 1 then
    let waits := fun u => s.acq.defer.any fun w => decide (w.idx = r.seg) && decide (w.lo ≤ u) && decide (u < w.hi)
    if r.after then (r.redo.head?.bind fun u => if waits u then none else some (s.segOfs r.seg u)) else
    let ready := match s.acq.seg with
      | some g => if g.idx = r.seg then decide (r.u < g.wofs) else decide (r.seg < s.acq.next)
      | none => decide (r.seg < s.acq.next)
    if ready && !waits r.u then some (s.segOfs r.seg r.u) else none
  else if r.rd < (look s.hrv.written src).getD 0 then some (r.rd % max 1 (s.regionOf src).2) else none

/-- Units of the record at byte address `a`, from its header. -/
def State.recUnits (s : State) (a : Nat) : Nat := max 1 (s.deep.num (a + 2) 2)

/-- A follow buffer in hand. -/
def State.followBuf (s : State) (n : Nat) : Option Desc :=
  match (s.ring n).q with
  | d :: _ => if d.copy || d.bad then none else some d
  | [] => none

/-- Moves the pointer past the record of `m` units at byte address `a` (R324, R326). -/
def State.pass (n src a m : Nat) (s : State) : State :=
  let r := s.ring n
  if src ≠ 1 then s.setRing n { r with rd := r.rd + m } else
  if r.after then
    let l := r.redo.drop 1
    s.setRing n (if l.isEmpty then { r with redo := [], after := false, seg := r.seg + 1, u := 0 } else { r with redo := l })
  else
    let typ := (s.deep.read a).toNat
    let part := decide (typ = 0x01 ∨ typ = 0x0B) && !bit (s.deep.read (a + 1)).toNat 3
    let l := if part then r.redo ++ [r.u] else r.redo
    if typ = 0x0C then
      s.setRing n (if l.isEmpty then { r with seg := r.seg + 1, u := 0 } else { r with redo := l, after := true })
    else s.setRing n { r with u := r.u + m, redo := l }

/-- Delivers records while there is one and it fits. DESIGN CHOICE (log entry 61): unsafe. -/
def State.deliver (n : Nat) (s : State) : Nat → State
  | 0 => s
  | k + 1 =>
    match s.followBuf n, s.nextRec n with
    | some d, some o =>
      let src := s.ringSrc n
      let a := s.followAddr src o
      let m := s.recUnits a
      let r := s.ring n
      if d.len < r.bytes + 64 * m then s else
      let s1 := State.bufCopy n true a (64 * m) s
      let r1 := s1.ring n
      let s2 := s1.setRing n { r1 with recs := r.recs + 1, firstAt := some (r.firstAt.getD s.tmb.kt),
                                       rofs := if r.recs = 0 then 64 * o else r.rofs }
      State.deliver n (State.pass n src a m s2) k
    | _, _ => s

/-- Every follow ring delivers what has been written (R324). -/
def State.deliverAll (s : State) : State :=
  if !s.hrvRuns then s else
  (List.range 16).foldl (fun s n =>
    if s.ringRuns n && (s.followBuf n).isSome then
      match s.followBuf n with
      | some d => State.deliver n s (d.len / 64 + 1)
      | none => s
    else s) s

/-- Delivered room lets writes to the capture region that waited for it go on (R179, R325), which gives more to deliver. -/
def State.deliverMore : Nat → State → State
  | 0, s => s
  | k + 1, s =>
    let s1 := s.deliverAll
    if s1.acq.defer.isEmpty then s1 else
    let s2 := s1.capFlush s1.acq.defer
    if s2.acq.defer.length = s1.acq.defer.length then s2 else s2.deliverMore k

/-- Harvest delivers all it can. -/
def State.deliverOut (s : State) : State := s.deliverMore (s.acq.defer.length + 1)

/-- FOLLOW_BUFFER_COMPLETE (R324): the next record does not fit, or the region has been delivered after a stop. -/
def State.followDone (n t : Nat) (s : State) : State :=
  let s0 := (s.advance t).deliverOut
  if !s0.ringRuns n then s0 else
  match s0.followBuf n with
  | none => s0
  | some d =>
    let r := s0.ring n
    match s0.nextRec n with
    | some o => if d.len < r.bytes + 64 * s0.recUnits (s0.followAddr (s0.ringSrc n) o) then State.finishOk n 0 s0 else s0
    | none =>
      if s0.idle ∧ r.ended = false ∧ s0.overrun n = false then
        State.finishOk n 6 (s0.setRing n { r with ended := true })
      else s0

/-- FOLLOW_FLUSH_TIMEOUT (R324). -/
def State.followFlush (n t : Nat) (s : State) : State :=
  let s0 := (s.advance t).deliverOut
  let f := s0.rd (HRV_RINGn_CFG_flush n)
  if !s0.ringRuns n ∨ (s0.followBuf n).isNone ∨ f = 0 then s0 else
  match (s0.ring n).firstAt with
  | some k => if k + f * usF ≤ t then State.finishOk n 2 s0 else s0
  | none => s0

/-- FOLLOW_OVERRUN (R327): the pointer moves to the oldest record still intact, the first whole one after the writer's position, and the
buffer completes. -/
def State.followOver (n t : Nat) (s : State) : State :=
  let s0 := s.advance t
  if !s0.ringRuns n ∨ (s0.followBuf n).isNone ∨ !s0.overrun n then s0 else
  let r := s0.ring n
  let src := s0.ringSrc n
  if src = 1 then
    let m := max 1 s0.segUnits
    let low := s0.capPos - s0.nSegs * m
    let v := ((s0.acq.starts.filter fun v => decide (low ≤ v)).getLast?).getD s0.capPos
    let r1 : Ring := { r with seg := v / m, u := v % m, redo := [], after := false }
    State.badFront n (State.finish n 2 0 (64 * (v - s0.ringPos r)) ((s0.setRing n r1).orF HRV_EVT_overrun 1)) 8
  else
    let w := (look s0.hrv.written src).getD 0
    let v := (((look s0.hrv.starts src).getD []).find? fun v => decide (w ≤ v + (s0.regionOf src).2)).getD w
    State.badFront n (State.finish n 2 0 (64 * (v - r.rd)) ((s0.setRing n { r with rd := v }).orF HRV_EVT_overrun 1)) 8

/-- At the end of ARMING every follow ring's pointer moves to the first record of the arm, and the stream ring begins
(R323, R325). DESIGN CHOICE (log entry 62): unsafe. -/
def State.hrvArm (s : State) : State :=
  let s1 := { s with hrv := { s.hrv with written := [], starts := [] } }
  let st := s1.on ACQ_CFG_stream
  let k := s1.rd ACQ_STREAM_ring
  let s2 := (List.range 16).foldl (fun (s : State) n =>
    let r := s.ring n
    let strm := st && n = k
    if strm || s.ringSrc n ≠ 0 then
      s.setRing n { r with rd := 0, seg := 0, u := 0, redo := [], after := false, strm := strm, ended := false }
    else s) s1
  if st then
    (List.range 16).foldl (fun (s : State) n =>
      if n ≠ k ∧ s.on (HRV_RINGn_CFG_en n) ∧ s.ringSrc n = 1 then s.wr (HRV_RINGn_STAT_bad n) 1 else s)
      (s2.wr (HRV_RINGn_STAT_stream k) 1)
  else s2

/-- Acquisition has entered IDLE: STAT.stream reads 0 again (R325). -/
def State.hrvIdle (s : State) : State := (List.range 16).foldl (fun s n => s.wr (HRV_RINGn_STAT_stream n) 0) s

/-- The stream ring takes its src field again once acquisition is idle and it has delivered what it followed, its last buffer with END
(R324, R325), or is disabled. DESIGN CHOICE (log entry 62): unsafe. -/
def State.streamDone (s : State) : State :=
  if !s.idle then s else
  s.hrv.rings.foldl (fun (s : State) p =>
    let r := s.ring p.1
    if r.strm && (r.ended || !s.on (HRV_RINGn_CFG_en p.1) || (r.q.isEmpty && (s.nextRec p.1).isNone)) then
      s.setRing p.1 { r with strm := false }
    else s) s

/-! ### Descriptors -/

/-- Whether a descriptor breaks R320 or R321. -/
def State.descBad (s : State) (copy : Bool) (b : List Byte) : Bool :=
  let addr := field b 0 8
  let len := field b 8 4
  let src := field b 16 8
  let near := bit src 63
  let lo := src % 2 ^ 63
  decide (addr % 64 ≠ 0) || decide (len % 64 ≠ 0) || decide (2 ^ 26 < len) || decide (field b 25 7 ≠ 0)
    || (if copy then
          decide (len < 64) || decide (src % 64 ≠ 0)
            || (if near then decide (2 ^ 28 < lo + len) else decide (s.deepSize < lo + len))
        else decide (len < 69632) || decide (src ≠ 0))

/-- Host address of entry `i` of descriptor ring `n` (R319). -/
def State.descAddr (s : State) (n i : Nat) : Nat :=
  64 * s.rd (HRV_RINGn_BASE_LO_addr n) + 2 ^ 32 * s.rd (HRV_RINGn_BASE_HI_addr n) + 32 * i

/-- DESCRIPTOR_FETCH (R319 to R321): the bytes of the next descriptor arrive, read at its entry of the ring. -/
def State.descFetch (n : Nat) (b : List Byte) (t : Nat) (s : State) : State :=
  let s0 := s.advance t
  let r := s0.ring n
  let size := s0.ringSize n
  let i := (s0.rd (HRV_RINGn_HEAD_idx n) + r.q.length) % size
  if !s0.ringRuns n ∨ 8 ≤ r.q.length ∨ i = s0.rd (HRV_RINGn_TAIL_idx n) % size then s0 else
  let copy : Bool := s0.ringSrc n = 0
  let d : Desc := ⟨s0.descAddr n i, field b 0 8, field b 8 4, field b 12 4, field b 16 8, bit (field b 24 1) 0, copy, s0.descBad copy b⟩
  State.badFront n (s0.setRing n { r with q := r.q ++ [d] }) 8

/-- Stops a ring: the buffer in hand completes with a status, the descriptors fetched ahead stay unconsumed (R333). -/
def State.ringStop (n status : Nat) (s : State) : State :=
  let r := s.ring n
  let s1 := State.finish n status 0 0 (s.setRing n { r with q := r.q.take 1 })
  s1.wr (HRV_RINGn_STAT_bad n) 0

/-- DESCRIPTOR_FETCH_ERROR (R333). -/
def State.fetchError (n t : Nat) (s : State) : State :=
  let s0 := s.advance t
  if !s0.ringRuns n ∨ s0.ringEmpty n then s0 else
  (((State.ringStop n 5 s0).wr (HRV_RINGn_CFG_en n) 0).wr (HRV_RINGn_STAT_host_err n) 1).orF HRV_EVT_host_err 1

/-- COPY_DESCRIPTOR (R322): the range as it stands is written to the buffer, once the errors that its read meets are dealt with
(R275, R276, R283); the words in error are given by their addresses as BAR2 offsets. -/
def State.copyDesc (n : Nat) (corr uncorr : List Nat) (wait t : Nat) (s : State) : State :=
  let s0 := s.advance t
  if !s0.ringRuns n then s0 else
  match (s0.ring n).q with
  | d :: _ =>
    if d.copy && !d.bad then
      let near := bit d.src 63
      let a := d.src % 2 ^ 63
      let x := if near then bar2Near + a else a
      let s1 := State.bar2Errors x d.len corr uncorr (s0.migNow.nearSeen x d.len)
      State.finishOk n 0 (State.bufCopy n (!near) a d.len (if near then s1 else s1.granted wait))
    else s0
  | [] => s0

/-- The enable of ring `n` has changed (R323, R333). -/
def State.ringEnable (n : Nat) (was : Bool) (s : State) : State :=
  let now := s.on (HRV_RINGn_CFG_en n)
  if was && !now then State.ringStop n 3 s
  else if !was && now then
    let src := s.ringSrc n
    let dup := decide (src ≠ 0) && (List.range 16).any fun k =>
      decide (k ≠ n) && s.on (HRV_RINGn_CFG_en k) && !s.on (HRV_RINGn_STAT_bad k) && decide (s.ringSrc k = src)
    s.wr (HRV_RINGn_STAT_bad n) (b2n dup)
  else s

/-- CQ_HEAD_WRITE (R329, R331): rings held by completion ring `m` complete, while Harvest may (R314). -/
def State.cqFreed (m : Nat) (s : State) : State :=
  if !s.hrvRuns then s else
  (List.range 16).foldl (fun (s : State) n =>
    match (s.ring n).ready with
    | some c => if s.rd (HRV_RINGn_CFG_cq n) = m ∧ s.cqFull m = false then State.badFront n (State.cqWrite n c s) 8 else s
    | none => s) s

/-- Completions that have waited while Harvest could complete nothing are written (R314). -/
def State.cqResume (s : State) : State := if s.hrv.rings.all (·.2.ready.isNone) then s else (List.range 16).foldl (fun s m => State.cqFreed m s) s

/-- CQ_MODERATION_TIMEOUT (R332): a message of Harvest, while it may send one (R314). -/
def State.cqTimeout (m t : Nat) (s : State) : State :=
  let s0 := s.advance t
  let u := s0.cq m
  if s0.hrvRuns ∧ u.unsig ≠ 0 ∧ u.oldest + s0.rd (HRV_CQm_MOD_T_time m) * usF ≤ t then State.cqSignal m s0 else s0

/-- Ring `n` has delivered the whole of the region it follows, to which nothing is written any more. -/
def State.allGiven (s : State) (n : Nat) : Bool :=
  (s.followBuf n).isSome && (s.nextRec n).isNone && !s.overrun n && s.acq.seg.isNone && s.acq.defer.isEmpty

/-- HARVEST_CUTOFF (R398): every buffer in hand completes with what it holds, flagged PART, and END if its region is delivered. -/
def State.hrvCutoff (s : State) : State :=
  (List.range 16).foldl (fun (s : State) n =>
    let r := s.ring n
    if r.q.isEmpty || r.ready.isSome then s else
      let (st, info) := r.okStatus
      State.finish n st (if s.allGiven n then 6 else 2) info (s.setRing n { r with q := r.q.take 1 })) s

/-! ### The link (R312, R314, R316) -/

/-- What a reset of Harvest leaves of the rings: of the stream ring its place in the capture region, which holds the drain back until
acquisition enters IDLE (R314, R325). -/
def State.ringsReset (s : State) : List (Nat × Ring) :=
  (s.hrv.rings.filter fun p => p.2.strm && !s.idle).map fun p =>
    (p.1, { Ring.idle with seg := p.2.seg, u := p.2.u, redo := p.2.redo, after := p.2.after, strm := true, ended := p.2.ended })

/-- Harvest and the PCI Express controller return to reset (R314): the HRV registers, rings, messages, MSI-X table and requests in
hand, and what the host has written of configuration space. The link itself goes down with PCIE_PERST_N only, while HRV_LINK is at reset
until the next event of the link (R344). A stream capture goes on with the place that its ring has in the region.
DEDUCED (log entry 63): unsafe. -/
def State.pcieReset (down : Bool) (s0 : State) : State :=
  let s : State := { s0 with held := s0.held.filter fun h => decide (h.port ≠ Port.host) }
  let rings : List (Nat × Ring) := s.ringsReset
  { s with
    fields := s.fields.filter (fun p => decide (p.1 / 8 / 0x10000 ≠ 0xE)),
    caps := s.caps.filter (fun p => decide (p.1 / 0x10000 ≠ 0xE)),
    hrv := { s.hrv with rings := rings, cqs := [], memHeld := [], link := if down then none else s.hrv.link, l12 := false, d3 := false,
                         bme := false, cfg := [], cpl := [], cplPoison := false },
    msxTab := [], msxPba := [] }

/-- The word of configuration space at `a`, in the layout of a type 0 header (R306): identifiers, class code, Bus Master Enable,
the control registers and the Device Serial Number capability, at places of their own. What the spec does not give (Berhild's identifier, revision, the
other registers) is free. PRESUMED (log entry 98): unsafe. -/
def State.configWord (s : State) (a : Nat) : Nat :=
  let free := Config.freeValue s.free % 2 ^ 32
  if a = 0 then 0x4B4D * 2 ^ 16 + Config.vendorId.toNat
  else if a = 4 then free / 8 * 8 + 4 * b2n s.hrv.bme + free % 4
  else if a = 8 then 0x118000 * 2 ^ 8 + free % 2 ^ 8
  else if a = 0xC then free / 2 ^ 24 * 2 ^ 24 + free % 2 ^ 16
  else if a = 0x2C then s.build.variant * 2 ^ 16 + Config.vendorId.toNat
  else match cfgRegs.find? fun r => a = Config.cfgAt (cfgNum r) with
  | some r => if r = .msix then s.cfgReg r * 2 ^ 16 + free % 2 ^ 16 else s.cfgReg r
  | none =>
  if a < 0x100 then free
  else if a = Config.dsnAt then 3 + free / 2 ^ 16 * 2 ^ 16
  else if a = Config.dsnAt + 4 then s.build.serial % 2 ^ 32
  else if a = Config.dsnAt + 8 then s.build.serial / 2 ^ 32 % 2 ^ 32
  else free

/-- A configuration read answers (R306, R371): its data stand in the last completion. -/
def State.configRead (a : Nat) (s : State) : State :=
  if s.hks.rails && s.hrv.link.isSome then
    { s with hrv := { s.hrv with cpl := le 4 (s.configWord a), cplPoison := false, l12 := false }, free := s.free + 1 }
  else s

/-- A write of a control register of configuration space (R307); a vector that it unmasks sends what was pending. -/
def State.configWrite (r : CfgReg) (v : Nat) (s : State) : State :=
  if s.hks.rails && s.hrv.link.isSome then
    ({ s with hrv := { s.hrv with cfg := ins s.hrv.cfg (cfgNum r) (v &&& cfgMask r), l12 := false } } : State).pbaSync
  else s

/-- The link runs at a width and rate, and HRV_LINK shows it. -/
def State.linkAt (width speed : Nat) (s : State) : State :=
  ((({ s with hrv := { s.hrv with link := some (width, speed) } }).wr HRV_LINK_up 1).wr HRV_LINK_width width).wr HRV_LINK_speed speed

/-- The link is down. -/
def State.linkDown (s : State) : State :=
  ((({ s with hrv := { s.hrv with link := none, l12 := false } }).wr HRV_LINK_up 0).wr HRV_LINK_width 0).wr HRV_LINK_speed 0

/-- LANE_DOWNSHIFT (R312). -/
def State.downshift (width speed t : Nat) (s : State) : State :=
  let s0 := s.advance t
  if s0.hrv.link.isNone then s0 else
  (((State.linkAt width speed s0).bump HRV_LINK_downshifts).orF HRV_EVT_link 1).bbox 0x48 width speed

/-- LINK_RETRAIN (R312): retraining the host asked for; `link` marks a changed width or rate. -/
def State.retrain (width speed t : Nat) (s : State) : State :=
  let s0 := s.advance t
  if s0.hrv.link.isNone then s0 else
  State.linkAt width speed (if s0.hrv.link ≠ some (width, speed) then s0.orF HRV_EVT_link 1 else s0)

/-- PCIE_LINK_UP (R366, R371): the lanes do not train under strap 0b10. DESIGN CHOICE (log entry 64): unsafe. -/
def State.linkUp (width speed t : Nat) (s : State) : State :=
  let s0 := s.advance t
  if !s0.hks.rails ∨ s0.hks.sel = 2 ∨ !s0.lands then s0 else
  State.linkAt width speed s0.linkUsed

/-- D3HOT (R314): D3hot, or Bus Master Enable cleared. -/
def State.toD3 (bme : Bool) (t : Nat) (s : State) : State :=
  let s0 := s.advance t
  if bme then { s0 with hrv := { s0.hrv with bme := false } } else { s0 with hrv := { s0.hrv with d3 := true } }

/-- RETURN_TO_D0 (R314): D0, or Bus Master Enable set. -/
def State.toD0 (bme : Bool) (t : Nat) (s : State) : State :=
  let s0 := s.advance t
  if bme then { s0 with hrv := { s0.hrv with bme := true } } else { s0 with hrv := { s0.hrv with d3 := false } }

/-- L1_2_ENTRY (R316). -/
def State.toL12 (t : Nat) (s : State) : State :=
  let s0 := s.advance t
  if s0.hrv.link.isSome then { s0 with hrv := { s0.hrv with l12 := true } } else s0

end Sys2Proof.Machine
end

