-- ==== Sys2Proof/Machine/TimeShift.lean ====
section
/-! DEFINITION. The epoch load (R76 to R78): KT72 takes the loaded value, and every time the machine keeps for its own use moves
with it, so that no duration changes. -/

namespace Sys2Proof.Machine

/-- A time moved by `d`. -/
def mv (d : Int) (t : Nat) : Nat := ((t : Int) + d).toNat

/-- Times under keys, moved. -/
def mvL (d : Int) (l : List (Nat × Nat)) : List (Nat × Nat) := l.map fun p => (p.1, mv d p.2)

/-- An ADPLL's times, moved. -/
def PllSt.moved (d : Int) (p : PllSt) : PllSt := { p with since := mv d p.since, suspect := p.suspect.map (mv d), meas := p.meas.map (mv d) }

/-- A gather's times, moved. -/
def Gather.moved (d : Int) (g : Gather) : Gather :=
  { g with start := mv d g.start, stopAt := mv d g.stopAt, hopAt := g.hopAt.map (mv d),
           pairs := g.pairs.map fun p => { p with as := p.as.map (mv d), bs := p.bs.map (mv d) } }

/-- A Graft port's times, moved. -/
def GPort.moved (d : Int) (p : GPort) : GPort :=
  { p with lastSync := p.lastSync.map (fun x => (x.1, mv d x.2)), syncAt := p.syncAt.map (mv d), starts := p.starts.map (mv d), own := p.own.map (fun x => (mv d x.1, mv d x.2)), okAt := mv d p.okAt }

/-- Every stored time of an idle machine, moved by `d`. -/
def State.shiftTimes (s : State) (d : Int) : State :=
  { s with
    grid := { s.grid with kt40 := mv (d * 2 ^ 40) s.grid.kt40, old := s.grid.old.map fun a => { a with kt40 := mv (d * 2 ^ 40) a.kt40 } },
    inp := { s.inp with settle := mvL d s.inp.settle, perAll := mv d s.inp.perAll, per := mvL d s.inp.per,
                        lastSel := mvL d s.inp.lastSel, thrAt := mvL d s.inp.thrAt,
                        rate := s.inp.rate.map (fun p => (p.1, mv d p.2.1, mv d p.2.2)), resAt := mvL d s.inp.resAt,
                        pchk := s.inp.pchk.map fun c => { c with start := mv d c.start, cur := c.cur.map fun x => (x.1, mv d x.2) } },
    tmb := { s.tmb with loops := s.tmb.loops.map (fun p => (mv d p.1, p.2)), ppsLast := s.tmb.ppsLast.map (mv d),
                        ppsAcc := s.tmb.ppsAcc.map (mv d), lockRef := mv d s.tmb.lockRef, refSince := mv d s.tmb.refSince,
                        ppsEnd := mv d s.tmb.ppsEnd },
    dsk := { s.dsk with pend := s.dsk.pend.map (fun p => { p with since := mv d p.since }), gather := s.dsk.gather.map (Gather.moved d) },
    task := s.task.map fun k => { k with start := mv d k.start },
    clk := { s.clk with s := s.clk.s.moved d, c := s.clk.c.moved d, m := s.clk.m.moved d,
                        extSuspect := s.clk.extSuspect.map (mv d),
                        susLog := s.clk.susLog.map (fun e => (e.1, mv d e.2.1, e.2.2.map (mv d))), qualAt := s.clk.qualAt.map (mv d), dllSuspect := mvL d s.clk.dllSuspect },
    trl := { s.trl with out := mvL d s.trl.out, tm := s.trl.tm.map fun p => (p.1, { p.2 with t0 := mv d p.2.t0 }) },
    dmc := { s.dmc with migAt := mv d s.dmc.migAt },
    rak := { s.rak with due := mvL d s.rak.due },
    acq := { s.acq with idleAt := mv d s.acq.idleAt },
    hrv := { s.hrv with rings := s.hrv.rings.map (fun p => (p.1, { p.2 with firstAt := p.2.firstAt.map (mv d) })),
                        cqs := s.hrv.cqs.map (fun p => (p.1, { p.2 with oldest := mv d p.2.oldest })) },
    grf := { s.grf with ports := s.grf.ports.map (fun p => (p.1, p.2.moved d)),
                        seen := s.grf.seen.map (fun p => (p.1, p.2.1, mv d p.2.2)) },
    hks := { s.hks with stepAt := mv d s.hks.stepAt, m0At := mv d s.hks.m0At, sets := mvL d s.hks.sets,
                        script := s.hks.script.map (fun x => { x with
                          wait := x.wait.map (mv d),
                          poll := x.poll.map fun q => (q.1, q.2.1, q.2.2.1, mv d q.2.2.2.1, q.2.2.2.2) }),
                        waking := s.hks.waking.map (fun w => (w.1, w.2.1, mv d w.2.2)), wdgAt := mv d s.hks.wdgAt,
                        nvOp := s.hks.nvOp.map fun o => (o.1, o.2.1, mv d o.2.2) },
    pwr := { s.pwr with at_ := mvL d s.pwr.at_, lostAt := s.pwr.lostAt.map (mv d), seqAt := s.pwr.seqAt.map (mv d),
                        offAt := s.pwr.offAt.map (mv d),
                        res := s.pwr.res.map (fun p => (p.1, { p.2 with uses := mvL d p.2.uses })),
                        lanes := s.pwr.lanes.map fun l => { l with since := mv d l.since, doneAt := l.doneAt.map (mv d) } } }

/-- EPOCH_LOAD (R76 to R78): at a qualifying PPS event at `t`, while a load is pending and acquisition is idle, KT72 at the
event takes the value of the epoch registers. The time counts on from the next multiple of 2^72 with that value, so that every
moment already past stays below it. DEDUCED (log entry 18): safe. -/
def State.epochLoad (t : Nat) (s : State) : State :=
  let s0 := s.advance t
  if s0.on TMB_EPOCH_CTL_pending && s0.idle && s0.ppsEvent t then
    let d : Int := (((t / 2 ^ 72 + 1) * 2 ^ 72 + s0.epochVal : Nat) : Int) - (t : Int)
    let s1 := s0.shiftTimes d
    let s2 := { s1 with tmb := { s1.tmb with kt := mv d s0.tmb.kt, ppsErr := s1.tmb.ppsErr.map fun _ => 0 } }
    ((s2.bump TMB_EPOCH_CTL_epoch_id).wr TMB_EPOCH_CTL_pending 0).wr TMB_PHASE_ERR_value 0
  else s0

end Sys2Proof.Machine
end

