-- ==== Sys2Proof/Machine/Calib.lean ====
section
/-! DEFINITION. M7 calibration tasks (R26, R49, R98). -/

namespace Sys2Proof.Machine

/-- A start of task `code` is obeyed: M7 in effect, nothing running, a task of the table (R26); not while an entry to M0 is under
way. DESIGN CHOICE (log entry 95): unsafe. -/
def State.m7Free (s : State) (code : Nat) : Bool :=
  decide (s.mode = 7) && !s.hks.entering && s.task.isNone && s.inp.pchk.isNone && (code = 1 || code = 2 || code = 3 || code = 4 || code = 6)

/-- Starts task `code`; from here on its writer owns what it leaves in near memory (State.ownerWrites). -/
def State.m7Go (s : State) (code : Nat) : State :=
  let s1 := (({ s with task := some ⟨code, s.tmb.kt, []⟩ }).wr GLB_M7_TASK_busy 1).wr GLB_M7_TASK_task_run code
  let s2 := if code = 3 ∨ code = 4 then s1.wr DSK_CAL_CTL_busy 1 else s1
  if code = 2 then s2.pchkStart s2.tmb.kt false true else s2

/-- A start through GLB_M7_TASK; task 0 starts nothing and sets nothing (R26). -/
def State.m7Start (s : State) (code : Nat) : State :=
  if code = 0 then s else if s.m7Free code then s.m7Go code else s.wr GLB_M7_TASK_refused 1

/-- Starts through DSK_CAL_CTL (R98); in M7 they are starts of tasks 3 and 4, refused in both registers (R26). Of two starts in one
write the injector's comes first, and the other is then refused. DESIGN CHOICE (log entry 96): unsafe. -/
def State.dskStart (s : State) (inj tdc : Bool) : State :=
  let go := fun (u : State) code => if u.m7Free code then u.m7Go code else
    (if u.mode = 7 then u.wr GLB_M7_TASK_refused 1 else u).wr DSK_CAL_CTL_refused 1
  let s1 := if inj then go s 3 else s
  if tdc then go s1 4 else s1

/-- A start through INP_PCHK_CTL: task 2 in M7, refused in both registers, and a plain probe check in other modes (R26, R58). -/
def State.pchkCtl (s : State) : State :=
  if s.mode = 7 then (if s.m7Free 2 then s.m7Go 2 else (s.wr GLB_M7_TASK_refused 1).wr INP_PCHK_STAT_refused 1) else s.pchkRequest

/-- What a running task measures: entries (channel, code, a, b, c) as R224 lays them out. -/
def State.m7Results (s : State) (code : Nat) (es : List (Nat × Nat × Int × Int × Int)) : State :=
  match s.task with
  | some k => if k.code = code then { s with task := some { k with entries := es } } else s
  | none => s

/-- Threshold calibration's entries: channels it cannot bring within 8 mV; readings in 0.25 mV (R49). -/
def State.thrEntries (s : State) (readings : List (Nat × Int)) : List (Nat × Nat × Int × Int × Int) :=
  (readings.filter fun p => decide (p.1 < s.nChan) && s.drifted p.1 (4 * p.2)).map fun p =>
    (p.1, 1, p.2, s.vthQ p.1, 0)

/-- What the end of a task changes beside its record. A TDC calibration lasts up to 50 ms, and DSK_TCAL_TEMP holds the temperature `at
that calibration` (R107): the model takes TMB_TEMP at its end. DESIGN CHOICE (log entry 117): unsafe. -/
def State.m7Effect (s : State) (k : Task) : State :=
  match k.code with
  | 1 =>
    let s1 : State := { s with inp := { s.inp with trim := some (s.rdS TMB_TEMP_temp) } }
    k.entries.foldl (fun s e => s.drift e.1 e.2.2.1) s1
  | 3 => (k.entries.foldl (fun s e => s.dskPend ⟨e.1, 1, e.2.2.1, false, 0⟩) s).wr DSK_CAL_CTL_inj_done 1
  | 4 => ((s.wr DSK_CAL_CTL_tdc_done 1).wr DSK_TCAL_TEMP_valid 1).wr DSK_TCAL_TEMP_temp (s.rd TMB_TEMP_temp)
  | 6 => (k.entries.filter fun e => e.2.1 = 1).foldl (fun s e => s.laneFail e.1 s.tmb.kt) s
  | _ => s

/-- M7_TASK_COMPLETE (R26): the record, done, last_task and last_status; a probe check ends with its last measurement. -/
def State.m7Done (t : Nat) (s : State) : State :=
  let s0 := s.advance t
  match s0.task with
  | none => s0
  | some k =>
    if k.code = 2 ∧ s0.inp.pchk.isSome then s0 else
    let s1 := State.m7Effect { s0.nearSync with task := none } k
    let s2 := if k.code = 2 then s1 else s1.event (s1.calRec k.start k.code 0 ((t - k.start) / usF) 0 0 k.entries)
    let s3 := ((s2.wr GLB_M7_TASK_busy 0).wr GLB_M7_TASK_task_run 0).wr GLB_M7_TASK_done 1
    ((s3.wr GLB_M7_TASK_last_task k.code).wr GLB_M7_TASK_last_status 0).wr DSK_CAL_CTL_busy 0

end Sys2Proof.Machine
end

