-- ==== Sys2Proof/Machine/Power.lean ====
section
/-! DEFINITION. Supplies, faults and thermal limits (R392 to R404). Feed 0 is A, feed 1 is B; feed states are 0 ABSENT, 1 GOOD,
2 MARGIN, 3 LOW, 4 HIGH, 5 REVERSED, 6 SHORTED, 7 QUAL; voltages are in mV. -/

namespace Sys2Proof.Machine

/-! ### Feeds -/

/-- A threshold of R393 in mV, at the lower end of its accuracy of ±1 % (R392). DESIGN CHOICE (log entry 133): safe. -/
def thrLo (x : Int) : Int := x - x.natAbs / 100

/-- The same, at the upper end. -/
def thrHi (x : Int) : Int := x + x.natAbs / 100

/-- What a feed must lie inside a threshold to be in its range again (R392). -/
def reentry : Int := 300

/-- The voltage that FEED_LEAVES_RANGE tells fits the state the feed enters (R393): LOW until the sense test below 5 V as well. -/
def faultFits (st : Nat) (mv : Int) : Bool :=
  match st with
  | 3 => decide (thrLo (-1000) ≤ mv) && decide (mv ≤ thrHi 34000)
  | 4 => decide (thrLo 62000 ≤ mv)
  | 5 => decide (mv ≤ thrHi (-1000))
  | _ => true

/-- The voltage lets a feed in state `st` enter QUAL: 34 V to 62 V, 0.3 V inside the threshold it left by (R392, R393). -/
def qualFits (st : Nat) (mv : Int) : Bool :=
  decide (thrLo 34000 + (if st = 4 then 0 else reentry) ≤ mv) && decide (mv ≤ thrHi 62000 - (if st = 4 then reentry else 0))

/-- The voltage is that of GOOD: 36 V to 60 V. -/
def goodFits (mv : Int) : Bool := decide (thrLo 36000 ≤ mv) && decide (mv ≤ thrHi 60000)

/-- The voltage is that of MARGIN: 34 V to 36 V, or 60 V to 62 V. -/
def marginFits (mv : Int) : Bool :=
  (decide (thrLo 34000 ≤ mv) && decide (mv ≤ thrHi 36000)) || (decide (thrLo 60000 ≤ mv) && decide (mv ≤ thrHi 62000))

/-- The voltage lets a feed that was at `was` in MARGIN be GOOD again: 0.3 V inside the threshold it left by. -/
def backFits (was mv : Int) : Bool :=
  goodFits mv && (if was < 48000 then decide (thrLo 36000 + reentry ≤ mv) else decide (mv ≤ thrHi 60000 - reentry))

/-- PWR_STAT.a_state or b_state. -/
def feedFld (f : Nat) : Fld := if f = 0 then PWR_STAT_a_state else PWR_STAT_b_state

/-- PWR_FEED_A or _B volt. -/
def voltFld (f : Nat) : Fld := if f = 0 then PWR_FEED_A_volt else PWR_FEED_B_volt

/-- State of a feed. -/
def State.feed (s : State) (f : Nat) : Nat := s.rd (feedFld f)

/-- The feed lies within 34 V to 62 V: GOOD, MARGIN or QUAL. -/
def State.feedOk (s : State) (f : Nat) : Bool := s.feed f = 1 || s.feed f = 2 || s.feed f = 7

/-- Voltage of a feed in mV as its register holds it. -/
def State.feedMv (s : State) (f : Nat) : Int := 10 * sx 16 (s.rd (voltFld f))

/-- A reading of a feed: voltage in 10 mV units; the spec gives no value for the current. -/
def State.feedRead (f : Nat) (mv : Int) (s : State) : State :=
  let (k, s1) := s.draw 1
  (s1.wr (voltFld f) (satU 16 (rnd mv 10))).wr (if f = 0 then PWR_FEED_A_current else PWR_FEED_B_current) (Config.freeValue k)

/-- A MARK of kind SUPPLY in the open segment, if acquisition is armed or capturing. -/
def State.markSupply (x t : Nat) (s : State) : State := s.mark t 9 0 0 x 0 0 0 false

/-- A feed enters a state (R393, R396): ABSENT, REVERSED and SHORTED raise event 2, and a return to GOOD is logged.
DESIGN CHOICE (log entry 76): unsafe. -/
def State.feedTo (f st : Nat) (mv : Int) (s : State) : State :=
  let s1 := { s.wr (feedFld f) st with pwr := { s.pwr with at_ := ins s.pwr.at_ f s.tmb.kt } }
  let d := st + 256 * toU 24 mv
  if st = 0 ∨ st = 5 ∨ st = 6 then ((s1.orF PWR_EVT_bits 2).raiseEvent 2).bbox 0x11 f d
  else if st = 1 then s1.bbox 0x11 f d else s1

/-- A switch-over to feed `f` (R396); `mv` is the old feed's voltage. -/
def State.switchTo (f cause : Nat) (mv : Int) (s : State) : State :=
  let s1 := ((s.wr PWR_STAT_active f).bump PWR_SWITCH_count).wr PWR_SWITCH_cause cause
  let s2 := (((s1.orF PWR_EVT_bits 1).raiseEvent 1).bbox 0x10 f (cause + 256 * toU 24 mv)).markSupply 0x10 s.tmb.kt
  { s2 with pwr := { s2.pwr with at_ := ins s2.pwr.at_ 2 s.tmb.kt } }

/-- Cause of a switch-over that a feed state makes (R396). -/
def switchCause (st : Nat) : Nat := match st with
  | 3 => 1
  | 4 => 2
  | 0 => 3
  | 5 => 4
  | _ => 5

/-- What follows when the active feed is out of range (R394, R397): a switch to the other feed, or the hold-up bank carries the
load, from now on if a feed carried it until now (`fresh`). While the bank carries the rails a feed comes back under RIDE_THROUGH. -/
def State.feedEval (fresh : Bool) (mv : Int) (s : State) : State :=
  let a := s.rd PWR_STAT_active
  if s.feedOk a then s else
  if s.feedOk (1 - a) ∧ (s.pwr.lostAt.isNone ∨ s.hks.rails = false) then State.switchTo (1 - a) (switchCause (s.feed a)) mv s else
  if s.feedOk (1 - a) then s else
  { s with pwr := { s.pwr with lostAt := some (if fresh then s.tmb.kt else s.pwr.lostAt.getD s.tmb.kt),
                               absent := s.pwr.absent || (decide (s.feed 0 = 0) && decide (s.feed 1 = 0)) } }

/-- FEED_LEAVES_RANGE (R393): LOW, HIGH, REVERSED or SHORTED, at a voltage that fits the state. -/
def State.feedLeaves (f : Nat) (k : FeedFault) (mv : Int) (t : Nat) (s : State) : State :=
  let st := match k with
    | .low => 3
    | .high => 4
    | .reversed => 5
    | .shorted => 6
  let s0 := State.feedRead f mv (s.advance t)
  if s0.feed f = st ∨ !faultFits st mv then s0 else State.feedEval (s0.feedOk f) mv (State.feedTo f st mv s0)

/-- When a feed entered its state. -/
def State.feedSince (s : State) (f : Nat) : Nat := (look s.pwr.at_ f).getD 0

/-- FEED_SENSE_TEST (R393): a feed below 5 V is SHORTED or ABSENT; it reads LOW until the 1 ms test has ended, and a repeated test
finds what the last one found or the other. -/
def State.feedSense (f : Nat) (short : Bool) (mv : Int) (t : Nat) (s : State) : State :=
  let s0 := State.feedRead f mv (s.advance t)
  let st := if short then 6 else 0
  let runs := decide (s0.feed f = 0) || decide (s0.feed f = 6)
    || (decide (s0.feed f = 3) && decide (s0.feedSince f + 1000 * usF ≤ s0.tmb.kt))
  if !runs ∨ s0.feed f = st ∨ !(decide (thrLo (-1000) ≤ mv) && decide (mv ≤ thrHi 5000)) then s0 else State.feedEval false mv (State.feedTo f st mv s0)

/-- A feed in range can be chosen as the active feed while none carries the load and the rails are off; at the first power-up feed A
is chosen where both reach QUAL at one time (R394). -/
def State.feedChoose (f : Nat) (s : State) : State :=
  let tie := decide (f = 0) && decide (s.feed 1 = 7) && s.pwr.offAt.isNone && decide (s.feedSince 1 = s.tmb.kt)
  if !s.hks.rails ∧ (s.feedOk (s.rd PWR_STAT_active) = false ∨ tie = true) then s.wr PWR_STAT_active f else s

/-- FEED_QUAL (R393). -/
def State.feedQualify (f : Nat) (mv : Int) (t : Nat) (s : State) : State :=
  let s0 := State.feedRead f mv (s.advance t)
  if s0.feed f = 1 ∨ s0.feed f = 2 ∨ s0.feed f = 7 ∨ !qualFits (s0.feed f) mv then s0 else
  let s1 := State.feedTo f 7 mv (s0.feedChoose f)
  if s1.feedOk (s1.rd PWR_STAT_active) then s1 else if s1.pwr.lostAt.isNone then s1.feedEval true mv else s1

/-- FEED_GOOD (R393): a feed in QUAL for at least 100 ms. -/
def State.feedGood (f : Nat) (mv : Int) (t : Nat) (s : State) : State :=
  let s0 := State.feedRead f mv (s.advance t)
  if s0.feed f = 7 ∧ s0.feedSince f + 100000 * usF ≤ s0.tmb.kt ∧ goodFits mv then State.feedTo f 1 mv s0 else s0

/-- FEED_MARGIN (R393): GOOD to MARGIN, or back. -/
def State.feedMargin (f : Nat) (back : Bool) (mv : Int) (t : Nat) (s : State) : State :=
  let s0 := State.feedRead f mv (s.advance t)
  let fits := if back then backFits (s.feedMv f) mv else marginFits mv
  if s0.feed f = (if back then 2 else 1) ∧ fits then State.feedTo f (if back then 1 else 2) mv s0 else s0

/-- REVERT (R395): the preferred feed GOOD for revert_s while the other is active. -/
def State.revert (t : Nat) (s : State) : State :=
  let s0 := s.advance t
  let p := s0.rd PWR_CFG_pref
  let since := max (s0.feedSince p) (s0.feedSince 2)
  if s0.on PWR_CFG_revert ∧ s0.rd PWR_STAT_active ≠ p ∧ s0.feed p = 1 ∧ since + s0.rd PWR_CFG_revert_s * secF ≤ t then
    State.switchTo p 6 (s0.feedMv (1 - p)) s0
  else s0

/-- PWR_CTL as written (R395). -/
def State.pwrCtl (v : Nat) (s : State) : State :=
  if PWR_CTL_key.of v = 0x7E48 ∧ PWR_CTL_switch.of v = 1 then
    let a := s.rd PWR_STAT_active
    if s.feed (1 - a) = 1 then State.switchTo (1 - a) 7 (s.feedMv a) s else s.orF PWR_EVT_bits 1024
  else s

/-- RIDE_THROUGH (R397): a feed back in range within 1.5 ms becomes active; it is in QUAL at once (R393). -/
def State.rideThrough (f t : Nat) (s : State) : State :=
  let s0 := s.advance t
  match s0.pwr.lostAt with
  | some l =>
    if s0.pwr.seqAt.isNone ∧ s0.hks.rails ∧ t ≤ l + 1500 * usF then
      let back : State := if s0.feedOk f then s0 else
        { s0.wr (feedFld f) 7 with pwr := { s0.pwr with at_ := ins s0.pwr.at_ f s0.tmb.kt } }
      let s1 := ({ back with pwr := { back.pwr with lostAt := none, absent := false } }).wr PWR_STAT_active f
      ((s1.orF PWR_EVT_bits 4).bbox 0x12 0 ((t - l) / usF)).markSupply 0x12 t
    else s0
  | none => s0

/-! ### The orderly loss sequence (R398) -/

/-- Acquisition stops with cause SUPPLY at `t`; the gap from the first position not stored runs to `e`, after that of a stall under
way. DESIGN CHOICE (log entry 77): unsafe. -/
def State.supplyStop (t e : Nat) (s0 : State) : State :=
  let s := State.upTo t s0
  if s.idle ∨ s.acqSt = 6 then s.stopAt 5 t else
  let s1 := s.markSupply 0x13 t
  let s2 := match s1.acq.seg with
    | some g =>
      let p := s1.grid.posOf t
      let p0 := if s1.recordMode then s1.unitsBefore t else p
      let k0 := if s1.recordMode then t else s1.grid.start p
      let lost := if s1.recordMode then 0 else s1.grid.posOf e - p
      let s3 := { s1 with acq := { s1.acq with seg := some { g with lossEnd := some e } } }
      (s3.event (s3.gapRec k0 e 4 s3.allTiles g.idx lost p0 false)).gapDone lost
    | none => s1
  s2.stopAt 5 t

/-- The sequence starts at `t` with a cause: 1 feeds, 2 thermal, 3 rail (R398). DESIGN CHOICE (log entry 77): unsafe. -/
def State.seqStart (cause t : Nat) (s : State) : State :=
  if !s.hks.rails ∨ s.pwr.seqAt.isSome then s else
  let s1 := (({ s with pwr := { s.pwr with seqAt := some t, cause := cause } }).wr PWR_STAT_loss_seq 1).bbox 0x13 cause 0
  let s2 := ((State.rakeRequeue 2 (State.rakeRequeue 1 (State.rakeRequeue 0 s1))).gatherAbort 8).sivHalt
  let s3 := State.supplyStop t (t + 500 * usF) s2
  { s3 with trl := { s3.trl with out := [] } }

/-- A feed has come back into its range within 1.5 ms of `l` (R397). -/
def State.feedBack (s : State) (l : Nat) : Bool :=
  [0, 1].any fun f => s.feedOk f && decide (s.feedSince f ≤ l + 1500 * usF)

/-- ORDERLY_LOSS_SEQUENCE: no feed in range for 1.5 ms (R398); the feed left its range up to 1 µs before the detection (R394). -/
def State.feedsLost (t : Nat) (s : State) : State :=
  let s0 := s.advance t
  match s0.pwr.lostAt with
  | some l => if l + 1500 * usF ≤ t + usF ∧ s0.feedBack l = false then State.seqStart 1 t s0 else s0
  | none => s0

/-- The 16 bytes of a black-box entry (R413). -/
def BEntry.bytes (e : BEntry) : List Byte := le 9 e.kt ++ le 1 e.code ++ le 2 e.src ++ le 4 e.detail

/-- `n` entries of a bank oldest first, empty entries ahead (R417). -/
def bankBytes (l : List BEntry) (n : Nat) : List Byte :=
  let k := l.take n
  List.replicate (16 * (n - k.length)) 0 ++ k.reverse.flatMap BEntry.bytes

/-- The entry DUMP (R413 to R415): written even while the store is frozen. -/
def State.dumpEntry (s : State) : State :=
  let crc := crc32c (bankBytes s.bbx.live 4095)
  let cause := if s.on BBX_STAT_frozen then s.rd BBX_STAT_freeze_cause else 3
  let kt := if s.mode = 0 || !s.hks.rails then s.tmb.kt / nsF * nsF else s.tmb.kt
  let l := ((⟨kt % 2 ^ 72, 0xFF, cause, crc⟩ : BEntry) :: s.bbx.live).take 4096
  (({ s with bbx := { s.bbx with live := l } }).wr BBX_STAT_count l.length).wr BBX_HEAD_value ((s.rd BBX_HEAD_value + 1) % 4096)

/-- HARVEST_CUTOFF (R398): buffers complete, except in M0, where Harvest has nothing to do; then DUMP and the freeze. -/
def State.cutoff (t : Nat) (s : State) : State :=
  let s0 := s.advance t
  match s0.pwr.seqAt with
  | some q =>
    if s0.pwr.cut ∨ t < q + 450 * usF then s0 else
    let s1 := (if s0.mode = 0 then s0 else s0.deliverOut.hrvCutoff).dumpEntry
    let s2 := s1.bbxFreeze 3
    { s2 with pwr := { s2.pwr with cut := true } }
  | none => s0

/-! ### Rails, hold-up, outputs, temperature -/

/-- PHASE_FAILURE (R400): a phase is shed; a second one on the rail, or a rail out of tolerance, starts the sequence.
Rail 7 is that of the always-on domain, which runs while the others are off. -/
def State.phaseFail (rail : Nat) (fault : Bool) (t : Nat) (s : State) : State :=
  let s0 := s.advance t
  if !s0.hks.rails ∧ rail ≠ 7 then s0 else
  let n := s0.rd PWR_RAIL_lost / 4 ^ rail % 4
  if fault then State.seqStart 3 t (s0.orF PWR_EVT_bits 32) else
  let s1 := (if n < 3 then s0.wr PWR_RAIL_lost (s0.rd PWR_RAIL_lost + 4 ^ rail) else s0).orF PWR_EVT_bits 32
  let s2 := s1.bbox 0x15 rail (min 3 (n + 1))
  if 1 ≤ n then State.seqStart 3 t s2 else s2

/-- HOLDUP_TEST (R401): `pct` of the required capacity. -/
def State.holdup (pct t : Nat) (s : State) : State :=
  let s0 := s.advance t
  if pct < 100 then ((s0.wr PWR_STAT_holdup_ok 0).orF PWR_EVT_bits 512).bbox 0x16 0 pct else s0.wr PWR_STAT_holdup_ok 1

/-- OUTPUT_FAULT (R402). -/
def State.outFault (o t : Nat) (s : State) : State :=
  let s0 := s.advance t
  let first := !bit (s0.rd PWR_IOFAULT_seen) o
  let s1 := ((s0.orF PWR_IOFAULT_live (2 ^ o)).orF PWR_IOFAULT_seen (2 ^ o)).orF PWR_EVT_bits 8
  if first then s1.bbox 0x14 o 0 else s1

/-- OUTPUT_FAULT_END (R402). -/
def State.outFaultEnd (o t : Nat) (s : State) : State := (s.advance t).clrF PWR_IOFAULT_live (2 ^ o)

/-- The hottest of the readings: sensor and temperature in 1/16 °C. -/
def hottest : List (Nat × Int) → Nat × Int
  | [] => (0, 0)
  | [x] => x
  | x :: r => let y := hottest r
    if y.2 ≤ x.2 then x else y

/-- A reading at or above a level: one limit for die sensors, one for DRAM stacks (sensor 13), in °C. -/
def atLevel (die stack : Int) (p : Nat × Int) : Bool := decide (16 * (if p.1 = 13 then stack else die) ≤ p.2)

/-- THERMAL_READING (R403): WARN sets at 105 °C (stacks 95 °C) and clears below 100 °C (90 °C).
DESIGN CHOICE (log entry 84): unsafe. -/
def State.thermal (temps : List (Nat × Int)) (t : Nat) (s : State) : State :=
  let s0 := s.advance t
  if temps.isEmpty then s0 else
  let (k, c) := hottest temps
  let s1 := (s0.wr PWR_THERM_sensor k).wr PWR_THERM_temp (satU 16 c)
  match temps.find? (atLevel 105 95) with
  | some (i, x) =>
    if s1.on PWR_THERM_warn then s1 else
    ((((s1.wr PWR_THERM_warn 1).orF PWR_EVT_bits 16).raiseEvent 3).bbox 0x18 i (toU 32 x)).markSupply 0x18 t
  | none => if temps.any (atLevel 100 90) then s1 else s1.wr PWR_THERM_warn 0

/-- THERMAL_TRIP (R403): a sensor at 120 °C (stacks 105 °C) or more for 1 ms. -/
def State.trip (sensor : Nat) (temp : Int) (t : Nat) (s : State) : State :=
  let s0 := s.advance t
  if atLevel 120 105 (sensor, temp) ∧ s0.hks.rails then
    State.seqStart 2 t ((s0.raiseEvent 3).bbox 0x19 sensor (toU 32 temp))
  else s0

end Sys2Proof.Machine
end

