-- ==== Sys2Proof/Machine/BlackBox.lean ====
section
/-! DEFINITION. The configuration memory as the host reaches it (R373, R374), and the black box: freeze, dump, dump region and
previous bank (R413 to R418). -/

namespace Sys2Proof.Machine

/-! ### The configuration memory -/

/-- First scratchpad byte of the page buffer (R374). -/
def pageBuf : Nat := 0xFF00

/-- Stores bytes in the configuration memory, nothing beyond its end. -/
def State.nvPut (a : Nat) (bs : List Byte) (s : State) : State :=
  let n := if s.hks.nvSize = 0 then bs.length else s.hks.nvSize - a
  { s with nv := s.nv.write a (bs.take n) }

/-- Bytes whose programming or erasing was broken off hold an unspecified value. -/
def State.nvSpoil (a n : Nat) (s : State) : State :=
  State.nvPut a ((List.range n).map fun i => Config.freeByte s.free (a + i)) { s with free := s.free + 1 }

/-- Erased bytes read 0xFF. -/
def State.nvErase (a n : Nat) (s : State) : State := s.nvPut a (List.replicate n 255)

/-- First byte and length that operation `op` (1 READ, 2 PROGRAM, 3 ERASE_4K, 4 ERASE_64K) at `a` reaches. -/
def nvRange (op a : Nat) : Nat × Nat :=
  match op with
  | 1 => (a, 256)
  | 2 => (a / 256 * 256, 256)
  | 3 => (a / 4096 * 4096, 4096)
  | _ => (a / 65536 * 65536, 65536)

/-- A range reaches the black-box region. -/
def State.nvHitsBbx (s : State) (r : Nat × Nat) : Bool :=
  match s.hks.bbxOfs with
  | some b => decide (max b r.1 < min (b + 65536) (r.1 + r.2))
  | none => false

/-- A start of operation `op` is refused (R374). -/
def State.nvRefused (s : State) (op a : Nat) : Bool :=
  s.hks.step = 4 || s.on HKS_NV_CTL_busy || s.mode = 0
    || (op ≠ 1 && !s.on HKS_NV_CTL_bbx_ok && s.nvHitsBbx (nvRange op a))

/-- A write of HKS_NV_CTL.op (R374); other codes are ignored. DESIGN CHOICE (log entry 74): unsafe. -/
def State.nvStart (op : Nat) (s : State) : State :=
  if op = 0 ∨ 4 < op then s else
  let a := s.rd HKS_NV_ADDR_addr
  if s.nvRefused op a then s.wr HKS_NV_CTL_err 1 else
  { s.wr HKS_NV_CTL_busy 1 with
    hks := { s.hks with nvOp := some (op, a, s.tmb.kt), nvPage := if op = 2 then s.scr.bytes pageBuf 256 else [] } }

/-- The operation has ended. -/
def State.nvIdle (s : State) : State :=
  { s.wr HKS_NV_CTL_busy 0 with hks := { s.hks with nvOp := none, nvPage := [] } }

/-- What a completed operation does. -/
def State.nvPerform (op a : Nat) (s : State) : State :=
  let r := nvRange op a
  match op with
  | 1 =>
    let n := if s.hks.nvSize = 0 then 256 else s.hks.nvSize - a
    let bs := (List.range 256).map fun i => if i < n then s.nv.read (a + i) else Config.freeByte s.free (a + i)
    { s with scr := s.scr.write pageBuf bs, free := s.free + 1 }
  | 2 => s.nvPut r.1 s.hks.nvPage
  | _ => s.nvErase r.1 r.2

/-- NV_DONE (R374). -/
def State.nvDone (t : Nat) (s : State) : State :=
  let s0 := s.advance t
  match s0.hks.nvOp with
  | some (op, a, _) =>
    if s0.mode = 0 ∨ !s0.hks.rails ∨ !s0.lands then s0 else ((State.nvPerform op a s0).nvIdle).orF HKS_EVT_bits 8
  | none => s0

/-- A running operation is broken off. -/
def State.nvAbort (s : State) : State :=
  match s.hks.nvOp with
  | some (op, a, _) =>
    let r := nvRange op a
    ((if op = 1 then s else State.nvSpoil r.1 r.2 s).nvIdle).wr HKS_NV_CTL_err 1
  | none => s

/-- NV_TIMEOUT (R374): 5 s without completion. -/
def State.nvTimeout (t : Nat) (s : State) : State :=
  let s0 := s.advance t
  match s0.hks.nvOp with
  | some (_, _, k) => if k + 5 * secF ≤ t then s0.nvAbort else s0
  | none => s0

/-! ### BBX_CTL (R415, R422) -/

/-- BBX_CTL.freeze. -/
def State.bbxHostFreeze (s : State) : State := (s.bbox 0xFE 0 0).bbxFreeze 4

/-- A freeze ends. -/
def State.bbxThaw (s : State) : State := (s.wr BBX_STAT_frozen 0).wr BBX_STAT_freeze_cause 0

/-- BBX_CTL.unfreeze: any freeze but one of cause LOSS. -/
def State.bbxUnfreeze (s : State) : State := if s.rd BBX_STAT_freeze_cause = 3 then s else s.bbxThaw

/-- BBX_CTL.clear with its key. -/
def State.bbxClear (s : State) : State :=
  (({ s with bbx := { s.bbx with live := [] } }).wr BBX_STAT_count 0).wr BBX_HEAD_value 0

/-- Preparing the dump region starts (R416): with overwrite = 1 nothing is erased. DESIGN CHOICE (log entry 79): unsafe. -/
def State.bbxPrep (s : State) : State :=
  match s.hks.bbxOfs with
  | none => s
  | some _ =>
    if s.on BBX_CFG_overwrite then s.wr BBX_STAT_nv_state 1
    else if s.on HKS_NV_CTL_busy ∨ s.mode = 0 ∨ !s.hks.rails ∨ s.hks.step = 4 then s
    else { (s.wr BBX_STAT_nv_state 4).wr HKS_NV_CTL_busy 1 with bbx := { s.bbx with prep := true } }

/-- BBX_CTL as written, its bits in ascending order. DESIGN CHOICE (log entry 78): unsafe. -/
def State.bbxCtl (v : Nat) (s : State) : State :=
  let s1 := if BBX_CTL_freeze.of v = 1 then s.bbxHostFreeze else s
  let s2 := if BBX_CTL_unfreeze.of v = 1 then s1.bbxUnfreeze else s1
  let s3 := if BBX_CTL_clear.of v = 1 ∧ BBX_CTL_key.of v = 0xB10C then s2.bbxClear else s2
  if BBX_CTL_prep.of v = 1 then s3.bbxPrep else s3

/-! ### The dump region (R416, R417) -/

/-- The 16 bytes of an entry as an entry. -/
def bytesEntry (b : List Byte) : BEntry := ⟨field b 0 9, field b 9 1, field b 10 2, field b 12 4⟩

/-- The state the region's bytes show. -/
def State.regionState (s : State) (b : List Byte) : Nat :=
  if s.on BBX_CFG_overwrite || b.all (· = 255) then 1
  else if field b 65529 1 = 0xFF ∧ field b 65532 4 = crc32c (b.take 65520) then 2 else 3

/-- The entries of a dump, newest first, without the empty ones. -/
def dumpEntries (b : List Byte) : List BEntry :=
  (((List.range 4096).map fun i => bytesEntry (sliceB b (16 * i) 16)).filter fun e => e.code ≠ 0).reverse

/-- BBX_REGION_READ (R416): once boot is done, the region is classified, loaded and prepared. -/
def State.bbxRead (t : Nat) (s : State) : State :=
  let s0 := s.advance t
  if !s0.on HKS_BOOT_done ∨ s0.mode = 0 ∨ s0.bbx.prep ∨ s0.on HKS_NV_CTL_busy ∨ !s0.lands then s0 else
  match s0.hks.bbxOfs with
  | none => s0.wr BBX_STAT_nv_state 0
  | some a =>
    let b := s0.nv.bytes a 65536
    let st := s0.regionState b
    let s1 := s0.wr BBX_STAT_nv_state st
    let s2 := if st = 2 ∧ s1.on BBX_CFG_load then
        (({ s1 with bbx := { s1.bbx with prev := dumpEntries b } }).wr BBX_STAT_prev_valid 1).orF BBX_EVT_bits 8
      else s1
    if 2 ≤ st ∧ s2.on BBX_CFG_auto_prep then s2.bbxPrep else s2

/-- BBX_PREP_DONE (R416). -/
def State.bbxPrepDone (ok : Bool) (t : Nat) (s : State) : State :=
  let s0 := s.advance t
  if !s0.bbx.prep ∨ !s0.lands then s0 else
  let s1 := { s0.wr HKS_NV_CTL_busy 0 with bbx := { s0.bbx with prep := false } }
  let a := s1.hks.bbxOfs.getD 0
  if ok then (State.nvErase a 65536 s1).wr BBX_STAT_nv_state 1
  else ((State.nvSpoil a 65536 s1).wr BBX_STAT_nv_state 3).orF BBX_EVT_bits 4

/-- Preparing is broken off: the region is neither erased nor whole. -/
def State.bbxPrepAbort (s : State) : State :=
  if !s.bbx.prep then s else
  let s1 := { s.wr HKS_NV_CTL_busy 0 with bbx := { s.bbx with prep := false } }
  (State.nvSpoil (s1.hks.bbxOfs.getD 0) 65536 s1).wr BBX_STAT_nv_state 3

/-- DUMP_END (R417): 1 OK, 2 NOT_READY, 3 INCOMPLETE; the time runs from the loss of both feeds, and is free when none was
lost. -/
def State.dumpEnd (ok : Bool) (t : Nat) (s : State) : State :=
  let s0 := s.advance t
  if !s0.bbx.dumping then s0 else
  let s1 := { s0 with bbx := { s0.bbx with dumping := false } }
  let (k, s2) := if s1.pwr.cause = 1 then (0, s1) else s1.draw 1
  let us := match s2.pwr.lostAt with
    | some l => if s2.pwr.cause = 1 then (t - l) / usF else Config.freeValue k
    | none => Config.freeValue k
  let s3 := (s2.wr BBX_DUMP_time us).orF BBX_EVT_bits 2
  match s3.hks.bbxOfs with
  | none => s3.wr BBX_DUMP_result 2
  | some a =>
    if s3.rd BBX_STAT_nv_state ≠ 1 then s3.wr BBX_DUMP_result 2
    else if ok then ((State.nvPut a (bankBytes s3.bbx.live 4096) s3).wr BBX_DUMP_result 1).wr BBX_STAT_nv_state 2
    else ((State.nvSpoil a 65536 s3).wr BBX_DUMP_result 3).wr BBX_STAT_nv_state 3

/-! ### Reading entries (R418) -/

/-- The 16 bytes of the entry that BBX_RD_IDX names; zeros beyond the bank's count. -/
def State.bbxSel (s : State) : List Byte :=
  let l := if s.on BBX_RD_IDX_bank then s.bbx.prev else s.bbx.live
  match l[s.rd BBX_RD_IDX_age]? with
  | some e => e.bytes
  | none => List.replicate 16 0

end Sys2Proof.Machine
end

