-- ==== Sys2Proof/Machine/Read.lean ====
section
/-! DEFINITION. Reading registers (R6, R71, R310, R424): stored fields, fields computed from other state, captured values, the
MSI-X table and the scratchpad through BAR0. -/

namespace Sys2Proof.Machine

/-- Some INP_LSTAT bit `b` is set (its reset value is 0). -/
def State.anyLstat (s : State) (b : Nat) : Bool :=
  s.fields.any fun p => p.1 / 8 / 0x10000 = 3 && (p.1 - 8 * 0x3000C) % 512 = b && decide (8 * 0x3000C ≤ p.1) && p.2 = 1

/-- Some latch with to_irq = 1 is set (R66). -/
def State.anyLatchIrq (s : State) : Bool :=
  s.fields.any fun p => p.1 / 8 / 0x10000 = 3 && (p.1 - 8 * 0x3000C) % 512 = 0 && decide (8 * 0x3000C ≤ p.1) && p.2 = 1
    && s.on (INP_CFG_to_irq ((p.1 - 8 * 0x3000C) / 512))

/-- INP_IRQ_STAT (R66). -/
def State.inpIrqStat (s : State) : Nat :=
  b2n s.anyLatchIrq + 2 * b2n (s.anyLstat 12) + 4 * b2n (s.anyLstat 13) + 8 * s.rd INP_PCHK_STAT_done

/-- 32 channels' bits of one INP_LSTAT field, from channel 32k. -/
def State.lstatWord (s : State) (f : Nat → Fld) (k : Nat) : Nat := packBits 32 fun i => s.on (f (32 * k + i))

/-- DSK_CAL_CTL.tdc_stale (R100): no TDC calibration since the last wake from off, or more than 5 °C away from it. -/
def State.tdcStale (s : State) : Bool :=
  !s.on DSK_TCAL_TEMP_valid || decide (80 < (s.rdS TMB_TEMP_temp - s.rdS DSK_TCAL_TEMP_temp).natAbs)

/-! ### Interrupt sources (R317, R318, R341) -/

/-- The fields of an event register as its bits. -/
def State.evtBits (s : State) (fs : List Fld) : Nat := (fs.map fun f => s.rd f * 2 ^ f.lo).sum

/-- STP_EVT (R343). -/
def State.stpEvt (s : State) : Nat := s.rd STP_EVT_coll + 2 * b2n (s.rd STP_DB_IN_db ≠ 0)

/-- Bits of block i's event register and of its enable register; block 0 is INP, vector 16 + i (R317). -/
def State.evtPair (s : State) (i : Nat) : Nat × Nat :=
  match i with
  | 0 => (s.inpIrqStat, s.rd INP_IRQ_EN_en)
  | 1 => (s.evtBits [CLK_EVT_bt_full, CLK_EVT_hop_done, CLK_EVT_failed, CLK_EVT_bt_miss, CLK_EVT_gated, CLK_EVT_ext_loss,
      CLK_EVT_dll_loss, CLK_EVT_m_loss, CLK_EVT_c_loss, CLK_EVT_s_loss], s.rd CLK_IRQ_EN_en)
  | 2 => (s.evtBits [TRL_EVT_irq, TRL_EVT_fault, TRL_EVT_retry, TRL_EVT_trig, TRL_EVT_chk_done], s.rd TRL_IRQ_EN_en)
  | 3 => (s.evtBits [ACQ_EVT_trig_ign, ACQ_EVT_arm_ign, ACQ_EVT_blind, ACQ_EVT_early, ACQ_EVT_stopped, ACQ_EVT_gap,
      ACQ_EVT_seg_done, ACQ_EVT_trig, ACQ_EVT_refused, ACQ_EVT_armed], s.rd ACQ_IRQ_EN_en)
  | 4 => (s.evtBits [HDG_EVT_stop, HDG_EVT_viol, HDG_EVT_chk_done], s.rd HDG_IRQ_EN_en)
  | 5 => (s.evtBits [RED_EVT_full, RED_EVT_loss], s.rd RED_IRQ_EN_en)
  | 6 => (s.evtBits [SIV_EVT_full, SIV_EVT_pass], s.rd SIV_IRQ_EN_en)
  | 7 => (s.evtBits [TIM_EVT_badslot, TIM_EVT_ovf_full, TIM_EVT_discard, TIM_EVT_qloss], s.rd TIM_IRQ_EN_en)
  | 8 => (s.evtBits [NMC_EVT_rake_fail, NMC_EVT_ue, NMC_EVT_ce, NMC_EVT_ring_full], s.rd NMC_IRQ_EN_en)
  | 9 => (s.evtBits [DMC_EVT_early_wr, DMC_EVT_starve, DMC_EVT_ret_limit, DMC_EVT_retired, DMC_EVT_spare, DMC_EVT_hot,
      DMC_EVT_ue, DMC_EVT_ce, DMC_EVT_init_fail], s.rd DMC_IRQ_EN_en)
  | 10 => (s.evtBits [RAK_EVT_preempt, RAK_EVT_fail, RAK_EVT_sweep_done], s.rd RAK_IRQ_EN_en)
  | 11 => (s.evtBits [HRV_EVT_link, HRV_EVT_host_err, HRV_EVT_overrun, HRV_EVT_poison, HRV_EVT_bad_desc], s.rd HRV_IRQ_EN_en)
  | 12 => (s.stpEvt, s.rd STP_IRQ_EN_en)
  | 13 => (s.evtBits [GRF_EVT_rx, GRF_EVT_drop, GRF_EVT_crc, GRF_EVT_ofs, GRF_EVT_dup_id, GRF_EVT_link_up, GRF_EVT_link_down],
      s.rd GRF_IRQ_EN_en)
  | 14 => (s.rd PWR_EVT_bits, s.rd PWR_IRQ_EN_bits)
  | 15 => (s.rd BBX_EVT_bits, s.rd BBX_IRQ_EN_bits)
  | _ => (s.rd HKS_EVT_bits, s.rd HKS_IRQ_EN_bits)

/-- The source of block i is 1. -/
def State.source (s : State) (i : Nat) : Bool := (s.evtPair i).1 &&& (s.evtPair i).2 ≠ 0

/-- STP_IRQ_SRC. -/
def State.irqSrc (s : State) : Nat := packBits 17 s.source

/-- SP_IRQ_N is driven low (R341, R343). -/
def State.spIrq (s : State) : Bool :=
  decide (s.mode ≠ 0) && (s.irqSrc &&& s.rd STP_SP_IRQ_EN_src ≠ 0 || (s.on STP_SW_IRQ_EN_HI_db && s.rd STP_DB_OUT_db ≠ 0))

/-! ### Fields computed from other state -/

/-- Harvest's view of ring `n`: running, and its follow pointer in units (R345). -/
def State.ringBusy (s : State) (n : Nat) : Bool :=
  !(s.ring n).q.isEmpty || (s.on (HRV_RINGn_CFG_en n) && !s.ringEmpty n)

/-- HRV_RINGn_RPTR. -/
def State.ringPtr (s : State) (n : Nat) : Nat :=
  let src := s.ringSrc n
  let r := s.ring n
  if src = 0 then 0 else if src = 1 then s.segOfs r.seg (if r.after then r.redo.headD r.u else r.u) else r.rd % max 1 (s.regionOf src).2

/-- Fields of GLB computed from the build and the acquisition state (R35). -/
def State.viewGlb (s : State) (a : Nat) : Nat :=
  match a with
  | 0x0 => s.build.variant
  | 0x4 => s.build.coreVer * 2 ^ 24 + s.build.fetVer * 2 ^ 16 + s.build.sramVer * 2 ^ 8 + s.build.moduleVer
  | 0x8 => s.build.serial % 2 ^ 32
  | 0xC => s.build.serial / 2 ^ 32 % 2 ^ 32
  | 0x10 => s.nChan * 2 ^ 16 + s.nTiles * 2 ^ 8 + s.nStacks
  | 0x24 => 16 * b2n !s.idle
  | _ => 0

/-- Fields of TMB computed from the time base. -/
def State.viewTmb (s : State) (a : Nat) : Nat :=
  match a with
  | 0x20000 => s.tmb.kt % 2 ^ 32
  | 0x20004 => s.tmb.kt / 2 ^ 32 % 2 ^ 32
  | 0x20008 => s.tmb.kt / 2 ^ 64 % 2 ^ 8
  | 0x20028 => toU 32 s.ageY
  | 0x20060 => 256 * b2n s.tcBad
  | 0x20064 => s.holdAge % 2 ^ 32
  | 0x2006C => toU 32 s.y40
  | _ => 0

/-- Fields of INP computed from the channels. -/
def State.viewInp (s : State) (a : Nat) : Nat :=
  let k := (a - 0x30000) / 64
  if a = 0x3083C then s.inpIrqStat else
  if 32 ≤ k then 0 else
  match a % 64 with
  | 0x30 => s.lstatWord INP_LSTAT_unres k
  | 0x34 => s.lstatWord INP_LSTAT_ovr_seen k
  | 0x38 => s.lstatWord INP_LSTAT_drift k
  | 0x3C => s.lstatWord INP_LSTAT_set k
  | _ => 0

/-- Fields of DSK. -/
def State.viewDsk (s : State) (a : Nat) : Nat :=
  if a = 0x40034 then 64 * b2n (s.dsk.pend.any Pend.gath)
  else if a = 0x40038 then 16 * b2n s.tdcStale
  else if a % 64 = 0xC then 2 ^ 16 * b2n (s.dsk.pend.any fun p => p.ch = (a - 0x40000) / 64) else 0

/-- Fields of TRL. -/
def State.viewTrl (s : State) (a : Nat) : Nat :=
  let n := (a - 0x54200) / 32
  if a = 0x50004 then 2 ^ 31 * b2n s.trlRuns
  else if 0x54200 ≤ a ∧ n < 16 then
    match (a - 0x54200) % 32 with
    | 0 => 4 * b2n (s.timer n).run
    | 0xC => s.tmValue n % 2 ^ 32
    | 0x10 => s.tmValue n / 2 ^ 32
    | _ => 0
  else 0

/-- Fields of HRV. -/
def State.viewHrv (s : State) (a : Nat) : Nat :=
  let n := (a - 0xE1000) / 64
  if a = 0xE0004 then
    packBits 16 (fun n => !(s.ring n).q.isEmpty) + 2 ^ 16 * packBits 16 (fun m => s.on (HRV_CQm_CFG_en m) && s.cqFull m)
  else if 0xE1000 ≤ a ∧ n < 16 then
    match (a - 0xE1000) % 64 with
    | 0x14 => 2 ^ 31 * b2n (s.ringBusy n)
    | 0x18 => s.ringPtr n
    | _ => 0
  else 0

/-- Fields of the station port: host side and window. -/
def State.viewStp (s : State) (a : Nat) : Nat :=
  match a with
  | 0xF0010 => 2 * b2n (s.rd STP_DB_IN_db ≠ 0)
  | 0xF0018 => s.irqSrc
  | 0x4000004 => 4096 * s.build.variant + 4 * b2n s.spIrq
  | 0x4000020 => s.irqSrc % 65536
  | 0x4000024 => s.irqSrc / 65536
  | 0x4000028 => s.rd STP_SP_IRQ_EN_src % 65536
  | 0x400002C => s.rd STP_SP_IRQ_EN_src / 65536
  | 0x4000030 => s.rd STP_DB_OUT_db
  | 0x4000034 => s.rd STP_DB_IN_db
  | _ => 0

/-- A per-pseudo-channel register of a pseudo-channel that the variant does not have (R302). -/
def State.pcAbsent (s : State) (a : Nat) : Bool :=
  s.isH2 && decide (0xC1400 ≤ a) && decide (a < 0xC1800)

/-- The bits of the word at `a` that other state gives. -/
def State.view (s : State) (a : Nat) : Nat :=
  match a / 0x10000 with
  | 0 => s.viewGlb a
  | 2 => s.viewTmb a
  | 3 => s.viewInp a
  | 4 => s.viewDsk a
  | 5 => s.viewTrl a
  | 8 => if a = 0x80004 then 2 ^ 24 * s.redTrunc + 2 ^ 16 * s.redBadkind else 0
  | 7 => if a = 0x70004 then 2 ^ 31 * b2n s.hdgRunning else 0
  | 9 => if a = 0x90020 then s.sivIdle else 0
  | 12 =>
    if s.pcAbsent a ∧ a % 16 = 0xC then 3 * 2 ^ 30
    else 0
  | 14 => s.viewHrv a
  | 15 => s.viewStp a
  | 18 => if 0x120024 ≤ a ∧ a < 0x120034 then field s.bbxSel (a - 0x120024) 4 else 0
  | 0x400 => s.viewStp a
  | _ => 0

/-! ### Words -/

/-- One field's bits in its word; write-only fields read 0 (R6). -/
def State.fldBits (s : State) (f : Fld) : Nat := if f.acc = .wo then 0 else s.rd f * 2 ^ f.lo

/-- A slice of a wide value in its word. -/
def State.sliceBits (s : State) (c : Slice) : Nat := s.rd c.fld / 2 ^ c.shift % 2 ^ c.w * 2 ^ c.lo

/-- The stored fields of the register at `a`, or 0 where there is none (R310). -/
def State.storedWord (s : State) (a : Nat) : Nat :=
  match regAt a with
  | some (r, i, j) => ((r.flds i j).map s.fldBits).sum + ((r.slices i).map s.sliceBits).sum
  | none => 0

/-- The value of the register at `a` now. -/
def State.word (s : State) (a : Nat) : Nat := (s.storedWord a + s.view a) % 2 ^ 32

/-- First word of the captured group that `a` belongs to, if its reads return a captured value (R71). -/
def capBase (a : Nat) : List (Nat × Nat × Nat × List Nat) → Option Nat
  | [] => none
  | (b, st, n, os) :: r =>
    match os.find? fun o => decide (b + o ≤ a) && (a - b - o) % st = 0 && decide ((a - b - o) / st < n) with
    | some o => some (a - o)
    | none => capBase a r

/-- Offsets of the words that a read of `a` captures. -/
def capOffs (a : Nat) : List (Nat × Nat × Nat × List Nat) → Option (List Nat)
  | [] => none
  | (b, st, n, os) :: r => if b ≤ a ∧ (a - b) % st = 0 ∧ (a - b) / st < n then some os else capOffs a r

/-- Captured value of the word at `a`: 0 until its group has been captured (log entry 80). DESIGN CHOICE (log entry 80): unsafe. -/
def State.capWord (s : State) (b a : Nat) : Nat := ((look s.caps b).getD []).getD ((a - b) / 4) 0

/-- What a read of the word at `a` returns. -/
def State.readWord (s : State) (a : Nat) : Nat :=
  match capBase a capGroups with
  | some b => s.capWord b a
  | none => s.word a

/-- What a read of the word at `a` changes: the capture of its group. -/
def State.capture (a : Nat) (s : State) : State :=
  match capOffs a capGroups with
  | some os => { s with caps := ins s.caps a (0 :: (List.range (os.foldl max 0 / 4)).map fun i => s.word (a + 4 * (i + 1))) }
  | none => s

/-- `n` bytes of the scratchpad at `a`; what a word that cannot be corrected reads as is free (R275, R276). -/
def State.scrWord (s : State) (a n : Nat) : Nat := if s.scrBad a n then Config.freeValue s.free % 256 ^ n else s.scr.num a n

/-- A word of BAR0 (R423, R424): registers, MSI-X table, pending bits, scratchpad. -/
def State.barWord (s : State) (a : Nat) : Nat :=
  if a < 0x140000 then s.readWord a
  else if a < 0x141000 then s.msxWord ((a - 0x140000) / 4) % 2 ^ 32
  else if a < 0x141020 then packBits 32 fun i => s.msxPba.contains (32 * ((a - 0x141000) / 4) + i)
  else if 0x200000 ≤ a ∧ a < 0x210000 then s.scrWord (a - 0x200000) 4
  else 0

/-- A read of the word at `a`: the value, and the state after it. Free values it may have shown are used up, and the scratchpad
counts the errors it meets. -/
def State.barRead (a : Nat) (s : State) : Nat × State :=
  let a := a % 2 ^ 26 / 4 * 4
  let s1 := { State.capture a s with free := s.free + 2 }
  (s.barWord a, if 0x200000 ≤ a ∧ a < 0x210000 then s1.cellRead 2 (a - 0x200000) 4 else s1)

end Sys2Proof.Machine
end

