-- ==== Sys2Proof/Machine/ModeCtl.lean ====
section
/-! DEFINITION. Modes (R27 to R32), M0 and its wakes (R30, R387, R388, R389). -/

namespace Sys2Proof.Machine

/-! ### Requests (R27, R30) -/

/-- GLB_MODE asks for something else than what is in effect: mode, composite setting or its pair. -/
def State.modeDiffers (s : State) : Bool :=
  decide (s.rd GLB_MODE_mode ≠ s.mode) || decide (s.on GLB_MODE_composite ≠ s.comp)
    || (s.comp && decide (s.on GLB_MODE_comp_pair ≠ s.hks.pair))

/-- A write of GLB_MODE has been stored: it withdraws a return held, and replaces a waiting value. During an entry to M0 it is
only stored (R30). -/
def State.modeWritten (s : State) : State :=
  if s.hks.entering then s else
  (s.wr GLB_STAT_ret_pend 0).wr GLB_STAT_mode_pend (b2n s.modeDiffers)

/-- Acquisition is idle and no task or check runs (R27). -/
def State.modeFree (s : State) : Bool := s.idle && !s.busyTask && decide (s.mode ≠ 0)

/-- A requested change may start now. -/
def State.changeDue (s : State) : Bool := s.on GLB_STAT_mode_pend && s.modeFree

/-- A return held after a wake may start now (R30). -/
def State.returnDue (s : State) : Bool := s.on GLB_STAT_ret_pend && s.acq.retOk && s.modeFree

/-- A change into M0 that is due has started, and is not aborted (R30): until it is in effect mode_pend reads 1, so no arm passes
(R29), and a return is no longer held. DESIGN CHOICE (log entry 95): unsafe. -/
def State.startEntry (s : State) : State :=
  if !s.hks.entering && (s.changeDue || s.returnDue) && s.rd GLB_MODE_mode = 0 then
    ({ s with hks := { s.hks with entering := true } }.wr GLB_STAT_ret_pend 0).wr GLB_STAT_mode_pend 1
  else s

/-! ### Changes between M1 and M7 -/

/-- The mode, composite setting and pair of GLB_MODE take effect, and a waiting hop runs as part of the change (R127). A change of
the number of phases makes the tile DLLs lock again (R110), and the watchdog restarts its period (R386). DESIGN CHOICE (log entry 29): unsafe. -/
def State.changeMode (s : State) (t : Nat) : State :=
  let m := s.rd GLB_MODE_mode
  let dll := decide (s.mode = 2) ≠ decide (m = 2)
  let s1 := s.gatherAbort 4
  let s2 := ((s1.wr GLB_STAT_active_mode m).wr GLB_STAT_comp_active (s1.rd GLB_MODE_composite)).wr GLB_STAT_mode_pend 0
  let s3 := { s2.wr GLB_STAT_ret_pend 0 with hks := { s2.hks with pair := s2.on GLB_MODE_comp_pair, wdgAt := t } }
  let s4 := if dll then s3.wr CLK_STAT_dll_lock 0 else s3
  let s5 := if s4.grid.run then s4.regrid (s4.grid.posOf t) (s4.grid.start40 (s4.grid.posOf t)) else s4
  s5.hopStart t

/-! ### Wakes (R388, R389) -/

/-- The earlier of two latch settings, the lower channel on a tie. -/
def earlier (a b : Nat × Nat) : Nat × Nat := if b.2 < a.2 ∨ (b.2 = a.2 ∧ b.1 < a.1) then b else a

/-- Starts a wake at `kt` (1 ns), or lets an earlier class of the same crystal cycle be reported (R388): rank 0 a latch, 1 the
timer, 2 the host; of two latches the earlier, the lower channel on a tie. All three ADPLLs lock from the entries that served their
targets (R129, R389), also one that is disabled. DEDUCED (log entry 69): unsafe. -/
def State.wakeStart (s : State) (ch cls kt : Nat) : State :=
  let k := kt / nsF * nsF
  match s.hks.waking with
  | none =>
    let s1 := { s with hks := { s.hks with waking := some (ch, cls, k) } }
    (List.range 3).foldl (fun (s : State) x => if s.pllSt x = 0 then s.startAgain x else s) s1
  | some (ch0, c0, k0) =>
    let rank := fun c => if c = 4 then 1 else if c = 0 then 2 else (0 : Nat)
    let first := rank cls < rank c0 ∨ (rank cls = 0 ∧ rank c0 = 0 ∧ earlier (ch0, k0) (ch, k) ≠ (ch0, k0))
    if k0 / xtalF = k / xtalF ∧ first then { s with hks := { s.hks with waking := some (ch, cls, k) } } else s

/-- The earliest of latch settings. -/
def earliest : List (Nat × Nat) → Option (Nat × Nat)
  | [] => none
  | a :: r => some (r.foldl earlier a)

/-- Latch settings in order of time, then channel. -/
def insLatch (a : Nat × Nat) : List (Nat × Nat) → List (Nat × Nat)
  | [] => [a]
  | b :: r => if earlier a b = a then a :: b :: r else b :: insLatch a r

/-- COUNT: the first setting that completes `n` within a span of less than `w` (R388). -/
def countWake (n w : Nat) : List (Nat × Nat) → Option (Nat × Nat)
  | [] => none
  | a :: r =>
    match (a :: r)[n - 1]? with
    | some b => if b.2 - a.2 < w then some b else countWake n w r
    | none => none

/-- PAIR: the later of the two latches, over every pair less than `w` apart (R388). -/
def pairWake (a b w : Nat) (l : List (Nat × Nat)) : Option (Nat × Nat) :=
  earliest ((l.filter fun x => x.1 = a).flatMap fun x => (l.filter fun y => y.1 = b && decide (max x.2 y.2 - min x.2 y.2 < w)).map
    fun y => if x.2 < y.2 ∨ (x.2 = y.2 ∧ y.1 < x.1) then y else x)

/-- HKS_WAKE_CFG.class: values but 2 and 3 act as 1. -/
def State.wakeClass (s : State) : Nat := if s.rd HKS_WAKE_CFG_class = 2 then 2 else if s.rd HKS_WAKE_CFG_class = 3 then 3 else 1

/-- The latch setting that the class in effect wakes on, if any. DESIGN CHOICE (log entry 68): unsafe. -/
def State.latchMet (s : State) : Option (Nat × Nat) :=
  let l := s.hks.sets.foldl (fun l x => insLatch x l) []
  let w := s.rd HKS_WAKE_WIN_win * aTick
  match s.wakeClass with
  | 2 => countWake (s.rd HKS_WAKE_CFG_count) w l
  | 3 => pairWake (s.rd HKS_WAKE_PAIR_ch_a) (s.rd HKS_WAKE_PAIR_ch_b) w l
  | _ => earliest l

/-- LATCH_WAKE. -/
def State.latchWake (t : Nat) (s : State) : State :=
  let s0 := s.advance t
  if s0.mode ≠ 0 ∨ !s0.hks.rails then s0 else
  match s0.latchMet with
  | some (ch, k) => s0.wakeStart ch s0.wakeClass k
  | none => s0

/-- HKS_WAKE_AT. -/
def State.wakeAt (s : State) : Nat :=
  s.rd HKS_WAKE_AT_LO_kt + 2 ^ 32 * s.rd HKS_WAKE_AT_MID_kt + 2 ^ 64 * s.rd HKS_WAKE_AT_HI_kt_hi

/-- TIMER_WAKE: the crossing of HKS_WAKE_AT, or the entry to M0 where the time was already past. -/
def State.timerWake (t : Nat) (s : State) : State :=
  let s0 := s.advance t
  if s0.mode ≠ 0 ∨ !s0.hks.rails ∨ !s0.on HKS_WAKE_AT_HI_en ∨ t % 2 ^ 72 < s0.wakeAt then s0 else
  (s0.wr HKS_WAKE_AT_HI_en 0).wakeStart 0x7FD 4 (max (t / 2 ^ 72 * 2 ^ 72 + s0.wakeAt) s0.hks.m0At)

/-- The host takes the link out of L1.2 in M0 with a request, which completes after the wake (R30); so do the requests that follow
it. DESIGN CHOICE (log entry 65): unsafe. -/
def State.hostExit (r : HostReq) (s : State) : State :=
  if s.mode ≠ 0 ∨ !s.hks.rails then s
  else if s.hks.hostReq.isSome then { s with hks := { s.hks with hostMore := s.hks.hostMore ++ [r] } }
  else if !s.hrv.l12 then s else
  State.wakeStart { s with hrv := { s.hrv with l12 := false }, hks := { s.hks with hostReq := some r } } 0x7FE 0 s.tmb.kt

/-- Every ADPLL has locked; ADPLL-S may have failed. -/
def State.pllsUp (s : State) : Bool :=
  (List.range 3).all fun x => s.pllSt x = 4 || (x = 0 && s.pllSt x = 7)

/-- Bitmap of the event latches set, 128 bytes. -/
def State.latchMap (s : State) : List Byte :=
  (List.range 128).map fun i => BitVec.ofNat 8 (packBits 8 fun b => s.on (INP_LSTAT_set (8 * i + b)))

/-- The mode in GLB_MODE.wake_mode is in effect (R30, R31, R389). With GLB_MODE.composite = 1 and mode equal to the wake mode the
plain mode comes into effect and the composite setting waits as a requested change. DESIGN CHOICE (log entry 97): unsafe. -/
def State.wakeDone (s : State) : State :=
  match s.hks.waking with
  | none => s
  | some (ch, cls, kt) =>
    if s.mode ≠ 0 ∨ !s.pllsUp then s else
    let t := s.tmb.kt
    let w := s.rd GLB_MODE_wake_mode
    let m := if w = 0 ∨ w = 7 then 1 else w
    let differs := s.rd GLB_MODE_mode ≠ m
    let s1 := (((s.wr GLB_STAT_active_mode m).wr GLB_STAT_comp_active 0).wr GLB_STAT_ret_pend (b2n differs)).wr
      GLB_STAT_mode_pend (b2n (!differs && s.on GLB_MODE_composite))
    let h := { s1.hks with waking := none, sets := [], pair := false, wdgAt := t, armWake := s1.on HKS_CFG_arm_wake }
    let s2 := { s1 with hks := h, acq := { s1.acq with retOk := false } }
    let s3 := ((s2.wr HKS_WAKE_STAT_class cls).wr HKS_WAKE_STAT_ch ch).wr NMC_STAT_retention 0
    let s4 := ((s3.tmbWake.domEval t 2).portsEval).lead (wakeRec kt ch cls m t s3.latchMap)
    ((s4.raiseEvent 7).orF HKS_EVT_bits 16).convertTimes

/-! ### Entry to M0 (R387) -/

/-- to_wake latches already set. -/
def State.missedLatches (s : State) : Nat :=
  ((List.range s.nChan).filter fun c => s.on (INP_LSTAT_set c) && s.on (INP_CFG_to_wake c)).length

/-- The link is taken down when it is not in L1.2 or down. -/
def State.dropLink (s : State) : State :=
  if s.hrv.link.isSome && !s.hrv.l12 then s.linkDown.orF HKS_EVT_bits 32
  else s

/-- Everything M0 switches off (R387): clocks, TRIG_OUT, Graft ports, near memory, Rake, and every instruction of the test access port but
IDCODE and BYPASS (R437). -/
def State.powerDown (s : State) (t : Nat) : State :=
  let s1 : State := { s.gatherAbort 4 with trl := { s.trl with out := [] } }
  let s2 : State := (((s1.tmbSleep.wr GLB_STAT_active_mode 0).wr GLB_STAT_comp_active 0).wr GLB_STAT_mode_pend 0).wr GLB_STAT_ret_pend 0
  let s3 : State := (List.range 3).foldl (fun (s : State) x => if s.pllSt x = 7 then s else (s.pllUnsus x t).pllTo x 0) (s2.domClose t 2)
  let s4 : State := ((s3.wr CLK_STAT_dll_lock 0).portsEval).wr NMC_STAT_retention 1
  let s5 : State := if s4.jtg.instr = 1 then s4 else { s4 with jtg := { s4.jtg with instr := 0xFF, drive := 0, dr := 0 } }
  State.rakeRequeue 2 (State.rakeRequeue 1 (State.rakeRequeue 0 s5))

/-- The wake logic starts afresh; an arm that was to follow boot finds M0 in effect and does not come (R385). -/
def Hks.watch (h : Hks) (t : Nat) : Hks :=
  { h with entering := false, m0At := t, sets := [], waking := none, armWake := false, armBoot := false, pair := false }

/-- M0 is in effect. A mode but M0 stored during the entry counts as a host wake at this moment (R30). -/
def State.enterM0 (s : State) (t : Nat) : State :=
  let s1 : State := s.powerDown t
  let s2 : State := (s1.addF HKS_WAKE_STAT_missed s1.missedLatches).dropLink
  let s3 : State := { s2 with hks := s2.hks.watch t }
  if s.rd GLB_MODE_mode ≠ 0 then s3.wakeStart 0x7FE 0 t else s3

/-- MODE_CHANGE (R27, R28). -/
def State.modeChange (t : Nat) (s : State) : State :=
  let s0 := s.advance t
  if s0.hks.entering then s0.enterM0 t
  else if s0.changeDue then (if s0.rd GLB_MODE_mode = 0 then s0.enterM0 t else s0.changeMode t)
  else s0

/-- RETURN_TO_MODE (R30). -/
def State.returnToMode (t : Nat) (s : State) : State :=
  let s0 := s.advance t
  if s0.hks.entering then s0.enterM0 t
  else if s0.returnDue then (if s0.rd GLB_MODE_mode = 0 then s0.enterM0 t else s0.changeMode t)
  else s0

end Sys2Proof.Machine
end

