-- ==== Sys2Proof/Machine/Bus.lean ====
section
/-! DEFINITION. Writing registers (R6, R7): the fields of a register by their access codes, the writes a block ignores, and
what a write does beyond its fields. -/

namespace Sys2Proof.Machine

/-! ### Arming (R170) -/

/-- An arm: the checks, then the probe check at arm or the pre-fill (R58, R170). DESIGN CHOICE (log entry 37): unsafe. -/
def State.armFull (s : State) : State :=
  let s1 : State := s.armRequest s.tmb.kt
  if s.idle && s1.acqSt = 1 then
    (if s1.on INP_PCHK_CTL_at_arm then s1.pchkStart s1.tmb.kt true false else s1.startCapture s1.tmb.kt)
  else s1

/-- An arm the Kameth writes itself: a refusal is entered in the black box (R385). -/
def State.armSelf (s : State) : State :=
  let s1 : State := s.armFull
  if s.idle && s1.idle then s1.bbox 0x07 0 (s1.storedWord ACQ_ERR_code.addr) else s1

/-- ACQ_CTL as written: a stop acts alone; an arm acts before force_trig, which finds ARMING or IDLE if the
acquisition was idle (R181, R201). -/
def State.acqCtl (v : Nat) (s : State) : State :=
  let arm := ACQ_CTL_arm.of v = 1
  let trig := ACQ_CTL_force_trig.of v = 1
  if ACQ_CTL_stop.of v = 1 then
    let s1 : State := s.stopAt 3 s.tmb.kt
    let s2 : State := if arm then s1.orF ACQ_EVT_arm_ign 1 else s1
    if trig then s2.orF ACQ_EVT_trig_ign 1 else s2
  else
    let s1 : State := if arm then s.armFull else s
    if !trig then s1 else if arm && s.idle then s1.orF ACQ_EVT_trig_ign 1 else s1.forceTrig

/-! ### Fields -/

/-- A byte-enable mask as a bit mask. -/
def byteMask (be : Nat) : Nat := packBits 32 fun i => bit be (i / 8)

/-- What a write of the bits of `v` under the mask `bm` does to one field (R6). -/
def State.storeFld (bm v : Nat) (s : State) (f : Fld) : State :=
  let m := f.of bm
  let d := f.of v &&& m
  if m = 0 then s else
  match f.acc with
  | .rw => s.wr f (f.clamp ((s.rd f &&& (m ^^^ (2 ^ f.w - 1))) ||| d))
  | .w1c => s.clrF f d
  | .w1s => s.orF f d
  | .ro | .wo => s

/-- What it does to the fields of the register at `a`. -/
def State.storeReg (bm v a : Nat) (s : State) : State :=
  match regAt a with
  | some (r, i, j) => (r.flds i j).foldl (State.storeFld bm v) s
  | none => s

/-! ### Writes that are ignored -/

/-- Registers that stay open while acquisition is not idle (R165, R199, R201, R234, R252, R270). -/
def openRegs : List Nat := [
  TRL_EVT_trig.addr, TRL_IRQ_EN_en.addr, HDG_EVT_viol.addr, HDG_IRQ_EN_en.addr, ACQ_CTL_arm.addr, ACQ_EVT_armed.addr,
  ACQ_IRQ_EN_en.addr, RED_CTL_flush.addr, RED_EVT_loss.addr, RED_IRQ_EN_en.addr, SIV_EVT_pass.addr, SIV_IRQ_EN_en.addr,
  TIM_EVT_qloss.addr, TIM_IRQ_EN_en.addr]

/-- The write finds a register of its block closed because acquisition is not idle; where no register is, a write is discarded (R310). -/
def State.closed (s : State) (a : Nat) : Bool :=
  !s.idle && decide (5 ≤ a / 0x10000) && decide (a / 0x10000 ≤ 10) && !openRegs.contains a && (regAt a).isSome

/-- The ADPLL whose band-table entry lies at `a`, and the entry. -/
def btAt (a : Nat) : Option (Nat × Nat) :=
  if a / 0x10000 = 1 ∧ 0x10100 ≤ a ∧ a < 0x10400 ∧ 0x80 ≤ a % 256 then some ((a - 0x10100) / 256, a % 128 / 8) else none

/-- The write is ignored without a trace: windows of absent channels and pseudo-channels (R65, R97, R302), a band-table entry
in use (R120), the base of an enabled ring (R333), the unit ID while acquisition is not idle (R349), the cable delay while it
is measured (R360), the key hash (R379). -/
def State.ignored (s : State) (a : Nat) : Bool :=
  match a / 0x10000 with
  | 1 => match btAt a with
    | some (x, i) => s.btInUse x i
    | none => false
  | 3 => s.is512 && decide (512 ≤ (a - 0x30000) / 64) && decide (a % 64 ≤ 0x24)
  | 4 => s.is512 && decide (512 ≤ (a - 0x40000) / 64)
  | 12 => s.pcAbsent a
  | 14 => (decide (0xE1000 ≤ a) && decide (a < 0xE1400) && decide (a % 64 < 8) && s.on (HRV_RINGn_CFG_en ((a - 0xE1000) / 64)))
  | 16 => (decide (a = GRF_UNIT_ID_id.addr) && !s.idle)
      || (decide (0x100100 ≤ a) && decide (a < 0x100200) && decide (a % 64 = 8) && s.on (GRF_GLn_CFG_dly_src ((a - 0x100100) / 64)))
  | _ => false

/-! ### Effects beyond the fields -/

/-- Bits written as 1 to INP_OVR, INP_DRIFT or INP_LATCH (R66). -/
def State.channelBits (v k : Nat) (f : State → Nat → State) (s : State) : State :=
  ((List.range 32).filter (bit v)).foldl (fun s i => f s (32 * k + i)) s

/-- GLB (R18, R26, R27). -/
def State.effGlb (p : Port) (a v : Nat) (s : State) : State :=
  if a = GLB_MODE_mode.addr then s.modeWritten
  else if a = GLB_RST_key.addr then
    if GLB_RST_key.of v = 0xA5C3 ∧ GLB_RST_warm.of v = 1 ∧ p ≠ .script then
      { s with hks := { s.hks with warmReq := s.hks.warmReq ++ [.soft] } }
    else s
  else if a = GLB_M7_TASK_task.addr then s.m7Start (GLB_M7_TASK_task.of v)
  else s

/-- CLK (R113, R117, R120, R124, R126). -/
def State.effClk (a v : Nat) (old s : State) : State :=
  if a = CLK_CFG_s_src.addr then s.srcRequest (s.rd CLK_CFG_s_src)
  else if a = CLK_HOP_start.addr then s.hopCtl (CLK_HOP_start.of v = 1) (CLK_HOP_cancel.of v = 1) (CLK_HOP_force.of v = 1)
  else if a = CLK_EXT_CFG_freq.addr then s.extFreq
  else match btAt a with
  | some (x, i) => s.wr (CLK_x_BT_FREQ_preloaded x i) 1
  | none =>
    let x := (a - 0x10100) / 256
    if 0x10100 ≤ a ∧ a < 0x10400 ∧ a % 256 = 0 then
      (s.wr (CLK_x_CTL_en x) (old.rd (CLK_x_CTL_en x))).pllCtl x (s.on (CLK_x_CTL_en x)) ((CLK_x_CTL_search x).of v = 1)
    else s

/-- TMB (R67, R74, R76, R77, R80). -/
def State.effTmb (a v : Nat) (s : State) : State :=
  if a = TMB_EPOCH_CTL_load.addr then s.epochCtl (TMB_EPOCH_CTL_load.of v = 1) (TMB_EPOCH_CTL_cancel.of v = 1)
  else if a = TMB_REF_CFG_src.addr then s.srcWritten
  else if a = TMB_TRIM_trim.addr ∨ a = TMB_AGE_RATE_rate.addr ∨ (0x20030 ≤ a ∧ a < 0x20044) then s.retime
  else s

/-- INP (R43, R47, R51, R52, R58, R66); code and hyst are written when the byte enables reach them. -/
def State.effInp (a v bm : Nat) (old s : State) : State :=
  let ch := (a - 0x30000) / 64
  if a = INP_PCHK_CTL_start.addr then (if INP_PCHK_CTL_start.of v = 1 then s.pchkCtl else s)
  else if a = INP_LPER_SYNC_sync.addr then (if INP_LPER_SYNC_sync.of v = 1 then s.perSync else s)
  else match a % 64 with
  | 0x00 => if (INP_THR_code ch).of bm = 0 then s else s.thrWritten ch (s.rd (INP_THR_code ch) ≠ old.rd (INP_THR_code ch))
  | 0x04 => if (INP_CFG_hyst ch).of bm = 0 then s else s.thrWritten ch (s.rd (INP_CFG_hyst ch) ≠ old.rd (INP_CFG_hyst ch))
  | 0x08 => s.perRestart ch
  | 0x0C => if (INP_LSTAT_set ch).of v = 1 then s.latchClear ch s.tmb.kt else s
  | 0x34 => if ch < 32 then State.channelBits v ch (fun s c => s.wr (INP_LSTAT_ovr_seen c) 0) s else s
  | 0x38 => if ch < 32 then State.channelBits v ch (fun s c => s.wr (INP_LSTAT_drift c) 0) s else s
  | 0x3C => if ch < 32 then State.channelBits v ch (fun s c => s.latchClear c s.tmb.kt) s else s
  | _ => s

/-- DSK (R96, R98, R102, R103). -/
def State.effDsk (a v : Nat) (s : State) : State :=
  let ch := (a - 0x40000) / 64
  if a = DSK_GCTL_start.addr then s.gatherCtl (DSK_GCTL_start.of v = 1) (DSK_GCTL_abort.of v = 1)
  else if a = DSK_CAL_CTL_busy.addr then s.dskStart (DSK_CAL_CTL_inj_start.of v = 1) (DSK_CAL_CTL_tdc_start.of v = 1)
  else match a % 64 with
  | 0 => s.dskPend ⟨ch, 0, s.rdS (DSK_LAND_d ch), false, 0⟩
  | 4 => s.dskPend ⟨ch, 2, s.rdS (DSK_USER_d ch), false, 0⟩
  | _ => s

/-- ACQ (R201): ACQ_CTL, a Q of 0, and a timeout beyond its limit. Q stands in two words, and the spec does not say which write stores 1
in its place (R173): either does, at once, when it leaves Q = 0. DESIGN CHOICE (log entry 122): unsafe. -/
def State.effAcq (a v : Nat) (s : State) : State :=
  if a = ACQ_CTL_arm.addr then State.acqCtl v s
  else if a = ACQ_POST_LO_value.addr ∨ a = ACQ_POST_HI_value.addr then (if s.acqQ = 0 then s.wr ACQ_POST_LO_value 1 else s)
  else if (a = ACQ_TIMEOUT_LO_value.addr ∨ a = ACQ_TIMEOUT_HI_value.addr) ∧ 1000000 * 2 ^ 32 < s.acqTo then
    ((s.wr ACQ_TIMEOUT_LO_value 0).wr ACQ_TIMEOUT_HI_value (0xF4240 % 65536)).wr ACQ_TIMEOUT_HI_value_top 0xF
  else s

/-- HRV (R323, R329, R333): while a ring is enabled only en of its CFG is written. -/
def State.effHrv (a : Nat) (old s : State) : State :=
  let n := (a - 0xE1000) / 64
  if 0xE1000 ≤ a ∧ a < 0xE1400 ∧ a % 64 = 8 then
    let was := old.on (HRV_RINGn_CFG_en n)
    let s1 : State := if was then
        [HRV_RINGn_CFG_size n, HRV_RINGn_CFG_cq n, HRV_RINGn_CFG_src n, HRV_RINGn_CFG_flush n].foldl
          (fun (s : State) f => s.wr f (old.rd f)) s
      else s
    State.ringEnable n was s1
  else if 0xE2000 ≤ a ∧ a < 0xE2400 ∧ a % 64 = 0xC then State.cqFreed ((a - 0xE2000) / 64) s
  else s

/-- A start by HKS_RUN (R384): ignored while a host-run script is pending or running. -/
def State.hksRun (ofs : Nat) (s : State) : State :=
  if s.hks.runReq.isSome || (s.hks.script.map Script.kind) = some 9 then s
  else { s with hks := { s.hks with runReq := some ofs } }

/-- The watchdog period starts afresh (R386). DESIGN CHOICE (log entry 75): unsafe. -/
def State.feed0 (s : State) : State := { s with hks := { s.hks with wdgAt := s.tmb.kt } }

/-- HKS (R374, R379, R384, R386). -/
def State.effHks (p : Port) (a v : Nat) (s : State) : State :=
  if a = HKS_RUN_start.addr then (if HKS_RUN_start.of v = 1 then State.hksRun (HKS_RUN_ofs.of v) s else s)
  else if a = HKS_WDG_en.addr then s.feed0
  else if a = HKS_WDG_FEED_key.addr then (if HKS_WDG_FEED_key.of v = 0x6B1D ∧ p ≠ .script then s.feed0 else s)
  else if a = HKS_NV_CTL_op.addr then State.nvStart (HKS_NV_CTL_op.of v) s
  else if 0x130060 ≤ a ∧ a < 0x130090 then
    let i := (a - 0x130060) / 4
    if p = .script ∧ (s.hks.script.map Script.kind) = some 8 ∧ s.on HKS_BOOT_verified = true ∧ bit s.hks.keyW i = false then
      { (s.wr (HKS_KEYH_hash i) v) with hks := { s.hks with keyW := s.hks.keyW + 2 ^ i } }
    else s
  else s

/-- The effect of a write beyond the fields of its register; `old` is the state before it, `v` the bits written, `bm` the bits that
its byte enables reach. -/
def State.effect (p : Port) (a v bm : Nat) (old s : State) : State :=
  match a / 0x10000 with
  | 0 => State.effGlb p a v s
  | 1 => State.effClk a v old s
  | 2 => State.effTmb a v s
  | 3 => State.effInp a v bm old s
  | 4 => State.effDsk a v s
  | 5 => if a = TRL_CFG_check.addr ∧ TRL_CFG_check.of v = 1 then s.trlCheck else s
  | 6 => State.effAcq a v s
  | 7 => if a = HDG_CTL_check.addr ∧ HDG_CTL_check.of v = 1 then s.hdgCheck else s
  | 8 => if a = RED_CTL_flush.addr ∧ RED_CTL_flush.of v = 1 then (State.upTo s.tmb.kt s).redFlush else s
  | 12 => if a = DMC_CTL_init.addr then State.dmcCtl v s else if a = DMC_MIG_rate.addr then { s with dmc := (old.migPaced old.tmb.kt).dmc } else s
  | 14 => State.effHrv a old s
  | 16 => if a = GRF_OFS_THR_thr.addr then (List.range 4).foldl State.ofsCheck s
    else if 0x100100 ≤ a ∧ a < 0x100200 ∧ a % 64 = 0 then State.portEval ((a - 0x100100) / 64) s else s
  | 17 => if a = PWR_CTL_key.addr then State.pwrCtl v s else s
  | 18 => if a = BBX_CTL_key.addr then State.bbxCtl v s else s
  | 19 => State.effHks p a v s
  | _ => s

/-- The event and enable registers of the blocks, vector 16 first (R317). -/
def evtRegs : List (Nat × Nat) := [
  (0x3083C, INP_IRQ_EN_en.addr), (CLK_EVT_failed.addr, CLK_IRQ_EN_en.addr), (TRL_EVT_trig.addr, TRL_IRQ_EN_en.addr),
  (ACQ_EVT_armed.addr, ACQ_IRQ_EN_en.addr), (HDG_EVT_viol.addr, HDG_IRQ_EN_en.addr), (RED_EVT_loss.addr, RED_IRQ_EN_en.addr),
  (SIV_EVT_pass.addr, SIV_IRQ_EN_en.addr), (TIM_EVT_qloss.addr, TIM_IRQ_EN_en.addr), (NMC_EVT_ce.addr, NMC_IRQ_EN_en.addr),
  (DMC_EVT_ce.addr, DMC_IRQ_EN_en.addr), (RAK_EVT_fail.addr, RAK_IRQ_EN_en.addr), (HRV_EVT_link.addr, HRV_IRQ_EN_en.addr),
  (STP_EVT_coll.addr, STP_IRQ_EN_en.addr), (GRF_EVT_rx.addr, GRF_IRQ_EN_en.addr), (PWR_EVT_bits.addr, PWR_IRQ_EN_bits.addr),
  (BBX_EVT_bits.addr, BBX_IRQ_EN_bits.addr), (HKS_EVT_bits.addr, HKS_IRQ_EN_bits.addr)]

/-- After a write to a block's event or enable register its message is sent again if the source still reads 1 (R318). -/
def State.reSignal (a : Nat) (s : State) : State :=
  { s with irqSeen := s.irqSeen.filter fun p =>
      match evtRegs[p.1]? with
      | some (e, i) => decide (a ≠ e) && decide (a ≠ i)
      | none => true }

/-- A write of `v` with byte enables `be` to the register at `a` (R6). -/
def State.writeReg (p : Port) (a be v : Nat) (s : State) : State :=
  let bm := byteMask be
  if s.closed a then
    (if a / 0x10000 = 5 then s.wr TRL_STAT_wr_ign 1 else if a / 0x10000 = 7 then s.wr HDG_STAT_wr_ign 1 else s)
  else if s.ignored a then s
  else State.reSignal a (State.effect p a (v &&& bm) bm s (State.storeReg bm v a s))

/-- The enabled bytes of a word stored in a memory. -/
def putBytes (a be v : Nat) (m : Mem) : Mem :=
  (List.range 4).foldl (fun m i => if bit be i then m.write (a + i) [BitVec.ofNat 8 (v / 256 ^ i)] else m) m

/-- A write to BAR0 (R423, R424): registers, MSI-X table, scratchpad by bytes. -/
def State.barWrite (p : Port) (a be v : Nat) (s : State) : State :=
  let a := a % 2 ^ 26 / 4 * 4
  if a < 0x140000 then State.writeReg p a be v s
  else if a < 0x141000 then
    let w := (a - 0x140000) / 4
    let bm := byteMask be
    State.msxWrite w ((s.msxWord w &&& (bm ^^^ 0xFFFFFFFF)) ||| (v &&& bm)) s
  else if 0x200000 ≤ a ∧ a < 0x210000 then
    { s with scr := putBytes (a - 0x200000) be v s.scr }
  else s

/-! ### Ports (R30, R135, R310, R315, R342, R371) -/

/-- The link carries the host's requests. -/
def State.hostOn (s : State) : Bool := s.hks.rails && s.hrv.link.isSome

/-- The host's requests wait for the core domain (R135), or for a wake (R30). -/
def State.served (s : State) : Bool := s.on HKS_BOOT_done && decide (s.mode ≠ 0)

/-- The station port reaches BAR0 address `a` (R342, R371). -/
def State.windowOpen (s : State) (a : Nat) : Bool :=
  s.hks.rails && s.on STP_CFG_en && s.on STP_CFG_ind_en && s.served && decide (a < 2 ^ 26)
    && !(decide (0x200000 ≤ a) && decide (a < 0x210000))

/-- A request held until the gate of ADPLL-C opens. DESIGN CHOICE (log entry 66): safe. -/
def State.hold (h : Held) (s : State) : State := { s with held := s.held ++ [h] }

/-- A script reaches BAR0 address `a`: in the CLK, TMB and HKS blocks also while ADPLL-C's domain is gated, since they run from the
crystal then (R112). -/
def State.scriptReach (s : State) (a : Nat) : Bool :=
  s.coreRun || (decide (s.mode ≠ 0) && [1, 2, 19].contains (a % 2 ^ 26 / 0x10000))

/-- A request through a port: one of the host takes the link out of L1.2 (R316). -/
def State.usedBy (p : Port) (s : State) : State := if p = .host then s.linkUsed else s

/-- A write through a port. -/
def State.portWrite (p : Port) (a be v : Nat) (s : State) : State :=
  match p with
  | .host =>
    if s.mode = 0 then State.hostExit (.barWrite a (BitVec.ofNat 4 be) (BitVec.ofNat 32 v)) s
    else if !s.hostOn then s
    else if !s.on HKS_BOOT_done then s.linkUsed
    else if s.coreRun then State.barWrite p a be v s.linkUsed else State.hold ⟨false, p, a, be, v⟩ s.linkUsed
  | .station =>
    if !s.windowOpen a then s
    else if s.coreRun then State.barWrite p a be v s else State.hold ⟨false, p, a, be, v⟩ s
  | .script => if s.hks.script.isSome && s.scriptReach a then State.barWrite p a be v s else s

/-- A read has returned `v`: the host's completion, or the window's data. -/
def State.readBack (p : Port) (v : Nat) (s : State) : State :=
  match p with
  | .host => { s with hrv := { s.hrv with cpl := le 4 v, cplPoison := false } }
  | .station => (s.wr STP_SW_DATA_LO_data v).wr STP_SW_DATA_HI_data (v / 65536)
  | .script => s

/-- A restart of Trellis that is due has taken place when a register is read (R166); while the sample domain is gated everything is kept
(R143). -/
def State.restartDue (s : State) : State := if s.trl.restart.isNone || !s.grid.run then s else s.restartAt s.nowPos

/-- The ADPLL whose CLK_x_MEAS lies at `a`, while its output runs or qualifies: the register is updated every 320 ns (R130). -/
def State.measAt (s : State) (a : Nat) : Option Nat :=
  (List.range 3).find? fun x => a % 2 ^ 26 / 4 * 4 = (CLK_x_MEAS_err x).addr && decide (3 ≤ s.pllSt x) && decide (s.pllSt x ≤ 5)

/-- The register at `a` takes its present value where it changes by itself: a measurement in QUALIFY or later is a free value in each
A tick (R130), the watermark of a migration goes on (R286), and so do the fills of the rings (R301).
DESIGN CHOICE (log entry 30): safe. -/
def State.freshen (s : State) (a : Nat) : State :=
  match s.measAt a with
  | some x => if s.measFresh x then s else s.measNew x
  | none =>
    let b := a % 2 ^ 26 / 4 * 4
    if b = DMC_MIG_busy.addr then s.migNow
    else if (NMC_RINGn_max 0).addr ≤ b ∧ b ≤ (NMC_RINGn_max 3).addr then State.ringNow ((b - (NMC_RINGn_max 0).addr) / 4) s
    else s

/-- A register is read: what changes by itself is brought up to now, and reading may capture. -/
def State.regRead (s : State) (a : Nat) : Nat × State := (s.freshen a).restartDue.barRead a

/-- A read performed. -/
def State.readNow (p : Port) (a : Nat) (s : State) : State :=
  let r : Nat × State := s.regRead a
  State.readBack p r.1 r.2

/-- A read through a port; before the end of boot the host reads 0xFFFF_FFFF (R315, R371). -/
def State.portRead (p : Port) (a : Nat) (s : State) : State :=
  match p with
  | .host =>
    if s.mode = 0 then State.hostExit (.barRead a) s
    else if !s.hostOn then s
    else if !s.on HKS_BOOT_done then State.readBack p 0xFFFFFFFF s.linkUsed
    else if s.coreRun then State.readNow p a s.linkUsed else State.hold ⟨true, p, a, 15, 0⟩ s.linkUsed
  | .station =>
    if !s.windowOpen a then s
    else if s.coreRun then State.readNow p a s else State.hold ⟨true, p, a, 15, 0⟩ s
  | .script => if s.hks.script.isSome && s.scriptReach a then State.readNow p a s else s

/-- A held request completes (R135). -/
def State.heldDone (s : State) (h : Held) : State :=
  if h.read then State.readNow h.port h.a s else State.barWrite h.port h.a h.be h.v s

/-- A host request is performed: at once, or after the wake where it came in M0. -/
def State.hostPerform (s : State) (r : HostReq) : State :=
  match r with
  | .barRead a => State.portRead .host a s
  | .barWrite a be v => State.portWrite .host a be.toNat v.toNat s
  | .bar2Read a n corr uncorr => State.bar2Read a n corr uncorr 0 s.tmb.kt s
  | .bar2Write a d => State.bar2Write a d 0 s.tmb.kt s
  | .config a => State.configRead a s
  | .configWrite r v => State.configWrite r v.toNat s
  | .other => s.linkUsed

/-- A request of the host: in M0 it wakes the Kameth and waits for that (R30), in any other mode it is performed (R371). -/
def State.hostWake (r : HostReq) (t : Nat) (s : State) : State :=
  let s0 : State := s.advance t
  if s0.mode = 0 then State.hostExit r s0 else if s0.hks.rails then s0.hostPerform r else s0

/-- The host request that caused a wake completes, and those that came after it (R30). -/
def State.hostComplete (s : State) : State :=
  match s.hks.hostReq with
  | none => s
  | some r => (r :: s.hks.hostMore).foldl State.hostPerform { s with hks := { s.hks with hostReq := none, hostMore := [] } }

end Sys2Proof.Machine
end

