-- ==== Sys2Proof/Machine/Script.lean ====
section
/-! DEFINITION. The housekeeping sequencer (R380 to R385): fetching, errors, operations, event scripts and host-run scripts. -/

namespace Sys2Proof.Machine

/-! ### Fetch -/

/-- First near-memory byte of tile 12, where the image is copied to (R375). -/
def imageBase : Nat := 12 * 2 ^ 24

/-- Word `i` of a script (R376, R384). -/
def State.scriptWord (s : State) (k : Script) (i : Nat) : Nat :=
  if k.kind = 8 then s.near.num (k.base + 4 * i) 4 else s.scr.num (k.base + 4 * i) 4

/-- The word lies in a poisoned access or cannot be corrected (R276, R381). -/
def State.scriptPois (s : State) (k : Script) (i : Nat) : Bool :=
  let a := k.base + 4 * i
  if k.kind = 8 then s.poison.contains (a / 64 * 64) || decide (2 ≤ s.cellsOf 0 (a / 8 * 8)) else s.scrBad a 4

/-- The opcode of the operation at the script's present word. -/
def State.scriptOp (s : State) (k : Script) : Nat := s.scriptWord k k.pc / 2 ^ 28

/-- Words of the operation, 0 for an opcode that is none (R380). -/
def State.opWords (s : State) (k : Script) : Nat :=
  match s.scriptOp k with
  | 1 => 2 + s.scriptWord k (k.pc + 1) % 65536
  | 2 => 3
  | 3 => 4
  | 4 => 1
  | 5 => 1
  | 6 => 4
  | 7 => 2 + s.scriptWord k (k.pc + 1) % 65536
  | 8 => 1
  | _ => 0

/-- The error that fetching the present operation meets, if any (R381). -/
def State.fetchErr (s : State) (k : Script) : Option Nat :=
  if k.kind ≠ 8 ∧ k.base % 4 ≠ 0 then some 0x12
  else if k.len ≤ k.pc then some 0x12
  else if s.scriptPois k k.pc then some 0x13
  else if s.opWords k = 0 then some 0x10
  else if (s.scriptOp k = 1 ∨ s.scriptOp k = 7) ∧ k.len ≤ k.pc + 1 then some 0x12
  else if k.len < k.pc + s.opWords k then some 0x12
  else if (List.range (s.opWords k)).any fun i => s.scriptPois k (k.pc + i) then some 0x13
  else none

/-- The present operation is fetched: a lease that holds its words is pre-empted (R296), and what their cells get wrong counts
(R275, R276). -/
def State.fetched (s : State) (k : Script) : State :=
  let target := if k.kind = 8 then 0 else 2
  let a := k.base + 4 * k.pc
  let n := 4 * max 1 (s.opWords k)
  let s1 : State := if s.rak.leases.any (fun l => l.target = target && decide (l.addr < a + n) && decide (a < l.addr + l.len)) then
    State.preempted target s else s
  s1.cellRead target a n

/-- Operand word `i` of the present operation. -/
def State.arg (s : State) (k : Script) (i : Nat) : Nat := s.scriptWord k (k.pc + i)

/-- The BAR0 address of the present operation. -/
def State.argAddr (s : State) (k : Script) : Nat := s.arg k 0 % 2 ^ 26

/-! ### End and errors -/

/-- Stores the running script. -/
def State.setScript (s : State) (k : Option Script) : State :=
  let s1 : State := { s with hks := { s.hks with script := k } }
  (s1.wr HKS_STAT_running (b2n k.isSome)).wr HKS_STAT_script (match k with
    | some x => x.kind
    | none => 0)

/-- The end of boot: BAR0 and the window are served (R371). -/
def State.bootDone (s : State) : State := { (s.wr HKS_BOOT_done 1) with hks := { s.hks with step := 6 } }

/-- The script stops with an error (R381). -/
def State.scriptErr (s : State) (k : Script) (err : Nat) : State :=
  let s1 : State := ((s.setScript none).wr HKS_STAT_err err).wr HKS_STAT_err_script k.kind
  let s2 : State := ((s1.wr HKS_ERR_PC_pc k.pc).orF HKS_EVT_bits 4).bbox 0x06 k.kind (err * 2 ^ 24 + k.pc % 2 ^ 24)
  if k.kind = 8 then (s2.wr HKS_BOOT_err err).bootDone else s2

/-- END (R385). -/
def State.scriptEnd (s : State) (k : Script) : State :=
  let s1 : State := s.setScript none
  if k.kind = 8 then
    let s2 : State := (s1.bootDone.orF HKS_EVT_bits 1).wr HKS_CFG_arm_boot (s.hks.iflags / 2)
    let s3 : State := s2.wr HKS_CFG_arm_wake (s.hks.iflags / 4)
    { s3 with hks := { s3.hks with armBoot := true } }
  else s1

/-- The script goes on at word `pc`; beyond its end it stops with an error (R381). -/
def State.scriptSkip (s : State) (k : Script) (n skip : Nat) : State :=
  if k.len < k.pc + n + skip ∧ skip ≠ 0 then s.scriptErr k 0x12
  else s.setScript (some { k with pc := k.pc + n + skip, poll := none })

/-! ### Operations (R380) -/

/-- A register that a script may not write here (R381). -/
def State.barred (s : State) (k : Script) (a : Nat) : Bool :=
  a = GLB_RST_key.addr || (decide (0x130060 ≤ a) && decide (a < 0x130090) && !(k.kind = 8 && s.on HKS_BOOT_verified))

/-- The values of a WRITE reach their registers in order, up to the first barred one. -/
def State.writeAll (k : Script) (n : Nat) : List Nat → Nat → State → State
  | [], _, s => s.scriptSkip k n 0
  | v :: r, a, s => if s.barred k a then s.scriptErr k 0x15 else State.writeAll k n r (a + 4) (State.portWrite .script a 15 v s)

/-- The register at `a` shows the value under the mask; reading may capture. -/
def State.scriptTest (s : State) (a mask val : Nat) : Bool × State :=
  let r : Nat × State := s.regRead a
  (decide (r.1 &&& mask = val), r.2)

/-- WRITE. -/
def State.opWrite (k : Script) (s : State) : State :=
  let n := s.opWords k
  if s.argAddr k % 4 ≠ 0 then s.scriptErr k 0x15
  else State.writeAll k n ((List.range (n - 2)).map fun i => s.arg k (2 + i)) (s.argAddr k) s

/-- RMW. -/
def State.opRmw (k : Script) (s : State) : State :=
  let a := s.argAddr k
  let m := s.arg k 1
  let v := s.arg k 2
  if a % 4 ≠ 0 ∨ s.barred k a = true then s.scriptErr k 0x15 else
  let r : Nat × State := s.regRead a
  (State.portWrite .script a 15 ((r.1 &&& (m ^^^ 0xFFFFFFFF)) ||| (v &&& m)) r.2).scriptSkip k 3 0

/-- POLL begins; its condition and its timeout are judged by later commands. -/
def State.opPoll (k : Script) (s : State) : State :=
  let to_ := s.arg k 3 % 2 ^ 24
  if to_ = 0 then s.scriptErr k 0x10
  else if s.argAddr k % 4 ≠ 0 then s.scriptErr k 0x15
  else s.setScript (some { k with poll := some (s.argAddr k, s.arg k 1, s.arg k 2, s.tmb.kt + to_ * usF, bit (s.arg k 0) 26) })

/-- WAIT. -/
def State.opWait (k : Script) (s : State) : State :=
  s.setScript (some { k with pc := k.pc + 1, wait := some (s.tmb.kt + s.arg k 0 % 2 ^ 24 * usF) })

/-- BRANCH_VARIANT. -/
def State.opVariant (k : Script) (s : State) : State :=
  let hit := bit (s.arg k 0 / 2 ^ 16 % 16) s.build.variant
  s.scriptSkip k 1 (if hit then s.arg k 0 % 65536 else 0)

/-- BRANCH_STATUS. -/
def State.opStatus (k : Script) (s : State) : State :=
  let skip := s.arg k 3 % 65536
  if s.argAddr k % 4 ≠ 0 then s.scriptErr k 0x15 else
  let r : Bool × State := s.scriptTest (s.argAddr k) (s.arg k 1) (s.arg k 2)
  r.2.scriptSkip k 4 (if r.1 = bit (s.arg k 0) 26 then 0 else skip)

/-- The word that ends a script. -/
def endWord : Nat := 0x80000000

/-- CALL_EVENT (R380, R381): only the configuration script may use it. DESIGN CHOICE (log entry 72): unsafe. -/
def State.opCall (k : Script) (s : State) : State :=
  let w := s.arg k 0
  let e := w / 2 ^ 24 % 16
  let o := w % 65536
  let n := s.arg k 1 % 65536
  let body := (List.range n).map fun i => s.arg k (2 + i)
  if k.kind ≠ 8 ∨ e = 0 ∨ 8 ≤ e then s.scriptErr k 0x14
  else if o % 4 ≠ 0 ∨ 0xFF00 < o + 4 * n then s.scriptErr k 0x12
  else if n = 0 then (s.wr (HKS_EVSCRe_bound e) 0).scriptSkip k 2 0
  else if body.getLast? ≠ some endWord then s.scriptErr k 0x14
  else
    let s1 : State := { s with scr := s.scr.write o (body.flatMap (le 4)) }
    ((s1.wr (HKS_EVSCRe_bound e) 1).wr (HKS_EVSCRe_ofs e) o).scriptSkip k (2 + n) 0

/-! ### The commands of the sequencer -/

/-- The sequencer can fetch the words of script `k` (R112, R376): it runs from the crystal where ADPLL-C is not LOCKED; the
configuration script's words stand in near memory, whose interface needs the core and memory domains. -/
def State.seqRuns (s : State) (k : Script) : Bool :=
  s.hks.rails && decide (s.mode ≠ 0) && (k.kind ≠ 8 || (s.coreRun && s.rd (CLK_x_STAT_gated 2) = 0))

/-- The running script, when it can take its next operation: neither waiting nor polling. -/
def State.ready (s : State) : Option Script :=
  match s.hks.script with
  | some k => if k.wait.isNone && k.poll.isNone && s.seqRuns k then some k else none
  | none => none

/-- The registers of the present operation can be accessed; with ADPLL-C's domain gated the operation waits for the others. -/
def State.opReach (s : State) (k : Script) : Bool :=
  match s.scriptOp k with
  | 1 => s.scriptReach (s.argAddr k) && s.scriptReach (s.argAddr k + 4 * (s.opWords k - 3))
  | 2 | 6 => s.scriptReach (s.argAddr k)
  | 7 => s.coreRun
  | _ => true

/-- The next operation at `t`, when it is the one named and can be fetched. -/
def State.scriptStep (op t : Nat) (f : Script → State → State) (s : State) : State :=
  let s0 : State := s.advance t
  match s0.ready with
  | some k => if (s0.fetchErr k).isNone && s0.scriptOp k = op && s0.opReach k then f k (s0.fetched k) else s0
  | none => s0

/-- A script whose next operation cannot be fetched stops with its error (R381). -/
def State.scriptCheck (s : State) : State :=
  match s.ready with
  | some k => match s.fetchErr k with
    | some e => (if e = 0x13 then s.fetched k else s).scriptErr k e
    | none => s
  | none => s

/-- POLL_CONDITION_MET (R380). -/
def State.pollMet (t : Nat) (s : State) : State :=
  let s0 : State := s.advance t
  match s0.hks.script with
  | some k =>
    match k.poll with
    | some (a, m, v, _, _) =>
      if !s0.scriptReach a then s0 else
      let r : Bool × State := s0.scriptTest a m v
      if r.1 then r.2.scriptSkip k 4 0 else r.2
    | none => s0
  | none => s0

/-- POLL_TIMEOUT (R380): the last reading decides. -/
def State.pollTimeout (t : Nat) (s : State) : State :=
  let s0 : State := s.advance t
  match s0.hks.script with
  | some k =>
    match k.poll with
    | some (a, m, v, e, cont) =>
      if !s0.scriptReach a || decide (t < e) then s0 else
      let r : Bool × State := s0.scriptTest a m v
      if r.1 then r.2.scriptSkip k 4 0
      else if cont then (r.2.wr HKS_STAT_poll_to 1).scriptSkip k 4 0
      else r.2.scriptErr { k with poll := none } 0x11
    | none => s0
  | none => s0

/-- WAIT_EXPIRY (R380). -/
def State.waitExpiry (t : Nat) (s : State) : State :=
  let s0 : State := s.advance t
  match s0.hks.script with
  | some k =>
    match k.wait with
    | some e => if e ≤ t ∧ s0.mode ≠ 0 then s0.setScript (some { k with wait := none }) else s0
    | none => s0
  | none => s0

/-- The sequencer can start a script: boot has ended, and none runs (R383). -/
def State.seqFree (s : State) : Bool := s.on HKS_BOOT_done && s.hks.script.isNone && decide (s.mode ≠ 0) && s.hks.rails

/-- A script in the scratchpad starts (R381, R383). -/
def State.startScratch (kind ofs : Nat) (s : State) : State :=
  s.setScript (some ⟨kind, ofs, 0, (0xFF00 - ofs) / 4, none, none⟩)

/-- The lowest pending event (R383). -/
def State.nextEvent (s : State) : Option Nat := (List.range 7).find? fun i => bit (s.rd HKS_STAT_pending) i

/-- EVENT_SCRIPT_START (R383): in ascending order of e, while the core domain runs; an event no longer bound starts nothing.
DESIGN CHOICE (log entry 73): unsafe. -/
def State.eventStart (t : Nat) (s : State) : State :=
  let s0 : State := s.advance t
  if !s0.seqFree || !s0.coreRun then s0 else
  match s0.nextEvent with
  | none => s0
  | some i =>
    let s1 : State := s0.clrF HKS_STAT_pending (2 ^ i)
    if s1.on (HKS_EVSCRe_bound (i + 1)) then
      State.startScratch (i + 1) (s1.rd (HKS_EVSCRe_ofs (i + 1))) (s1.bump (HKS_EVSCRe_runs (i + 1)))
    else s1

/-- A host-run script starts once the sequencer is free and nothing is pending (R383, R384). -/
def State.hostScript (s : State) : State :=
  match s.hks.runReq with
  | some o => if s.seqFree && s.rd HKS_STAT_pending = 0 then
      State.startScratch 9 o { s with hks := { s.hks with runReq := none } } else s
  | none => s

/-- AUTO_ARM (R385). -/
def State.autoArm (t : Nat) (s : State) : State :=
  let s0 : State := s.advance t
  if !s0.hks.armBoot ∨ !s0.seqFree ∨ s0.rd HKS_STAT_pending ≠ 0 ∨ s0.hks.runReq.isSome ∨ s0.on GLB_STAT_mode_pend then s0 else
  let s1 : State := { s0 with hks := { s0.hks with armBoot := false } }
  if s1.on HKS_CFG_arm_boot = true ∧ s1.mode ≠ 0 ∧ s1.mode ≠ 7 then s1.armSelf else s1

/-- Every tile DLL is locked. -/
def State.dllsUp (s : State) : Bool := s.rd CLK_STAT_dll_lock = s.allTiles

/-- ARM_ON_WAKE (R389). -/
def State.wakeArm (t : Nat) (s : State) : State :=
  let s0 : State := s.advance t
  if !s0.hks.armWake ∨ !s0.seqFree ∨ s0.rd HKS_STAT_pending ≠ 0 ∨ s0.hks.runReq.isSome ∨ !s0.dllsUp then s0 else
  { s0 with hks := { s0.hks with armWake := false } }.armSelf

end Sys2Proof.Machine
end

