-- ==== Sys2Proof/Machine/Boot.lean ====
section
/-! DEFINITION. Start-up: the steps of R369, the image checks (R375 to R379), warm resets (R18, R372), wakes from off, the end of
the rails and of the always-on domain (R394, R398, R399, R404), and the watchdog (R386). -/

namespace Sys2Proof.Machine

/-! ### Steps of the power-up sequence (R369) -/

/-- Step 3: ADPLL x is enabled; OFF starts at its reset target, FAILED with a search at its target (R372). -/
def State.stepPll (s : State) (x : Nat) : State :=
  let s1 : State := s.wr (CLK_x_CTL_en x) 1
  let p := s1.pll x
  if s1.pllSt x = 0 then
    ((s1.putPll x { p with fails := 0 }).wr (CLK_x_TARGET_freq x) (CLK_x_TARGET_freq x).rst).startLock x
  else if s1.pllSt x = 7 then (s1.putPll x { p with fails := 0, miss := none }).pllTo x 1
  else s1

/-- Enters a step. -/
def State.toStep (s : State) (n : Nat) : State := { s with hks := { s.hks with step := n, stepAt := s.tmb.kt } }

/-- Step 3 begins. -/
def State.bootClocks (s : State) : State := ((s.stepPll 1).stepPll 2).toStep 3

/-- Step 3 has ended: the straps decide (R366, R368). -/
def State.bootSource (s : State) : State :=
  match s.hks.sel with
  | 0 => s.toStep 4
  | 1 => (s.wr STP_CFG_en 0).bootDone
  | 2 => s.bootDone
  | _ => (s.wr HKS_BOOT_safe 1).bootDone

/-- ADPLL x is LOCKED or in HOLDOVER. -/
def State.pllRuns (s : State) (x : Nat) : Bool := s.pllSt x = 4 || s.pllSt x = 5

/-- Goes on to the next step when the present one has ended. DESIGN CHOICE (log entry 70): unsafe. -/
def State.bootNext (s : State) : State :=
  if !s.hks.rails then s else
  match s.hks.step with
  | 2 => if s.on NMC_STAT_clear_busy ∨ s.on DMC_STAT_clear_busy then s else s.bootClocks
  | 3 => if s.pllRuns 1 && s.pllRuns 2 then s.bootSource else s
  | _ => s

/-- The straps sampled (R366, R367). -/
def State.strapBits (s : State) : State := (s.wr HKS_BOOT_sel s.hks.sel).wr HKS_BOOT_sig_req (b2n !s.hks.sigN)

/-! ### The image (R375 to R379) -/

/-- Length of the black-box region. -/
def bbxLen : Nat := 65536

/-- Where the image places the black-box region in a device of `size` bytes (R375). -/
def imageBbx (h : List Byte) (size : Nat) : Nat := if field h 16 4 = 0xFFFFFFFF then size - bbxLen else field h 16 4

/-- The image carries SIGNED. -/
def imageSigned (h : List Byte) : Bool := bit (field h 7 1) 0

/-- length, body_ofs and bbx_ofs follow R375. -/
def layoutOk (h : List Byte) (size : Nat) : Bool :=
  let len := field h 8 4
  let body := field h 12 4
  let b := imageBbx h size
  body = (if imageSigned h then 320 else 64) && len % 4 = 0 && decide (body + 4 ≤ len) && decide (len ≤ 2 ^ 26)
    && decide (len ≤ size) && b % bbxLen = 0 && decide (len ≤ b) && decide (b + bbxLen ≤ size)

/-- The header's first failure, if any (R377). -/
def State.headerErr (s : State) (h : List Byte) (size : Nat) : Option Nat :=
  if size = 0 then some 0x01
  else if field h 0 4 ≠ 0x43544D4B then some 0x02
  else if field h 5 1 ≠ 1 then some 0x03
  else if bit (field h 6 1) s.build.variant = false then some 0x04
  else if field h 32 8 ≠ 0 ∧ field h 32 8 ≠ s.build.serial then some 0x05
  else if layoutOk h size = false then some 0x06
  else none

/-- The image with `n` bytes at `a` taken as 0. -/
def zeroed (a n : Nat) (l : List Byte) : List Byte := l.take a ++ List.replicate n 0 ++ l.drop (a + n)

/-- The key hash as the Kameth holds it: HKS_KEYH when valid, else 48 bytes of the scratchpad once the station has set its
doorbell bit 15 (R378); with the code of key_src. -/
def State.keyHash (s : State) : Option (Nat × List Byte) :=
  if s.hks.keyW = 0xFFF then some (1, (List.range 12).flatMap fun i => le 4 (s.rd (HKS_KEYH_hash i)))
  else if s.hks.keyBit then some (2, s.scr.bytes 0xFE00 48)
  else none

/-- The 48 bytes of a SHA-384 digest, first byte first. -/
def digest (l : List Byte) : List Byte := (le 48 (sha384 l)).reverse

/-- What fails of the key and signature checks when BOOT_SIG_N is low (R377, R379). DEDUCED (log entry 71): unsafe. -/
def signErr (img : List Byte) (key : List Byte) : Option Nat :=
  if imageSigned img = false then some 0x0B
  else
    let pub := sliceB img 64 97
    if digest pub ≠ key then some 0x09
    else if ecdsaVerify pub (sha384 (zeroed 192 96 (zeroed 20 4 img))) (sliceB img 192 96) = false then some 0x0A
    else none

/-- An image error: safe default (R368, R377). -/
def State.bootErr (s : State) (code : Nat) : State :=
  ((((s.wr HKS_BOOT_err code).wr HKS_BOOT_safe 1).orF HKS_EVT_bits 2).bbox 0x05 0 code).bootDone

/-- Every check has passed: the configuration script runs (R369 step 5). -/
def State.runImage (s : State) (img : List Byte) : State :=
  let s1 : State := { s with hks := { s.hks with
    iflags := field img 7 1, imgLen := img.length, bbxOfs := some (imageBbx img s.hks.nvSize), step := 5 } }
  s1.setScript (some ⟨8, imageBase + field img 12 4, 0, (img.length - field img 12 4) / 4, none, none⟩)

/-- The checks after the header: CRC, then key and signature while BOOT_SIG_N is low. Without a key hash the Kameth waits. -/
def State.imageBody (s : State) (h : List Byte) : State :=
  let img := s.nv.bytes 0 (field h 8 4)
  let s1 : State := (s.nearPut imageBase img).wr HKS_BOOT_signed (b2n (imageSigned h))
  if crc32c (zeroed 20 4 img) ≠ field h 20 4 then s1.bootErr 0x07
  else if s.hks.sigN then s1.runImage img
  else match s.keyHash with
  | none => s1
  | some (src, key) =>
    let s2 : State := s1.wr HKS_BOOT_key_src src
    match signErr img key with
    | some e => s2.bootErr e
    | none => (s2.wr HKS_BOOT_verified 1).runImage img

/-- IMAGE_CHECK (R377) on a device of `size` bytes (0: none). -/
def State.imageCheck (size t : Nat) (s : State) : State :=
  let s0 : State := s.advance t
  if s0.hks.step ≠ 4 ∨ !s0.hks.rails ∨ !s0.lands then s0 else
  let n := min size (2 ^ 28)
  let s1 : State := { (s0.wr HKS_NV_INFO_size n) with hks := { s0.hks with nvSize := n } }
  let h := s1.nv.bytes 0 64
  match s1.headerErr h n with
  | some e => s1.bootErr e
  | none => s1.imageBody h

/-- LOAD_TIMEOUT (R377): step 4 has lasted 2 s. -/
def State.loadTimeout (t : Nat) (s : State) : State :=
  let s0 : State := s.advance t
  if s0.hks.step ≠ 4 ∨ !s0.hks.rails ∨ t < s0.hks.stepAt + 2 * secF then s0
  else s0.bootErr (if !s0.hks.sigN && s0.keyHash.isNone then 0x08 else 0x0C)

/-! ### Warm reset (R18, R189, R372, R425) -/

/-- Requests a warm reset of a source. -/
def State.askReset (src : WarmSrc) (s : State) : State :=
  if !s.hks.rails ∨ s.hks.warmReq.contains src then s else { s with hks := { s.hks with warmReq := s.hks.warmReq ++ [src] } }

/-- MOD_RESET_N (R18), where the lands are not under test (R440). -/
def State.resetPin (t : Nat) (s : State) : State := if s.lands then State.askReset .pin (s.advance t) else s.advance t

/-- GLB_RST_CAUSE [7:4] of the sources requested. -/
def causeBits (l : List WarmSrc) : Nat :=
  b2n (l.contains .pin) + 2 * b2n (l.contains .soft) + 4 * b2n (l.contains .watchdog) + 8 * b2n (l.contains .perst)

/-- Records the sources (R36). -/
def State.causes (s : State) (c : Nat) : State :=
  (((s.orF GLB_RST_CAUSE_pin (c % 2)).orF GLB_RST_CAUSE_soft (c / 2 % 2)).orF GLB_RST_CAUSE_watchdog (c / 4 % 2)).orF
    GLB_RST_CAUSE_perst (c / 8 % 2)

/-- Fields that a warm reset keeps: cold and always-on ones (R425). -/
def keepsWarm (p : Nat × Nat) : Bool := domOfKey p.1 = .cold || domOfKey p.1 = .aon

/-- Housekeeping right after a warm reset. -/
def Hks.warm (h : Hks) (sel : Nat) (sigN : Bool) (t : Nat) : Hks :=
  { Hks.new with rails := true, step := 2, stepAt := t, sel := sel, sigN := sigN, bbxOfs := h.bbxOfs, keyW := h.keyW,
                 nvSize := h.nvSize, wdgAt := t }

/-- Every warm register and what stands behind it returns to reset. -/
def State.warmClear (s : State) : State :=
  { s with
    fields := s.fields.filter keepsWarm,
    caps := s.caps.filter (fun p => keepsWarm (8 * p.1, 0)),
    held := [], inp := { Inp.new with perAll := s.tmb.kt, trim := s.inp.trim }, dsk := Dsk.new, task := none, trl := { Trl.new with lvl := s.trl.lvl }, acq := Acq.new,
    hdg := Hdg.new, red := [], siv := Siv.new, tim := Tim.new, stp := ⟨none, 0, false⟩,
    grf := { Grf.new with sent := s.grf.sent },
    hrv := { s.hrv with rings := [], cqs := [], written := [], starts := [], memHeld := [] },
    msxTab := [], msxPba := [] }

/-- WARM_RESET: performed for the sources requested, with the straps as sampled; under strap 0b10 the lanes of PCI Express are held in
electrical idle (R366). Clearing that still runs goes on.
DESIGN CHOICE (log entry 85): unsafe. -/
def State.warmReset (sel : Nat) (sigN : Bool) (t : Nat) (s : State) : State :=
  let s0 : State := s.advance t
  if s0.hks.warmReq = [] ∨ !s0.hks.rails then s0 else
  let c := causeBits s0.hks.warmReq
  let m2 := s0.mode = 2
  let s1 : State := State.rakeRequeue 2 (State.rakeRequeue 1 (State.rakeRequeue 0 (s0.nearSync.bbox 0x03 c s0.acqSt)))
  let s2 : State := s1.nvAbort.bbxPrepAbort
  let s3 : State := s2.warmClear.causes c
  let s4 : State := if bit c 3 then State.pcieReset true s3 else if sel = 2 then s3.linkDown else s3
  let s5 : State := { s4 with hks := s4.hks.warm sel sigN t }
  let s6 : State := if m2 then s5.wr CLK_STAT_dll_lock 0 else s5
  let s7 : State := if s0.mode = 0 then s6.tmbWake.wr NMC_STAT_retention 0 else s6
  (s7.strapBits.retime.domEval t 2).bootNext

/-! ### The watchdog (R134, R386) -/

/-- ADPLL-C or ADPLL-M has failed, so that the sequencer feeds no more (R134), and a period of `d` has passed since and since the last start
of the period (R386). -/
def State.stopped (s : State) (d t : Nat) : Bool :=
  (List.range 3).any fun x => x ≠ 0 && s.pllSt x = 7 && decide (max (s.pll x).since s.hks.wdgAt + d ≤ t)

/-- WATCHDOG_EXPIRY. -/
def State.watchdog (t : Nat) (s : State) : State :=
  let s0 : State := s.advance t
  let d := s0.rd HKS_WDG_period * 1000 * usF
  if s0.on HKS_WDG_en = true ∧ s0.mode ≠ 0 ∧ s0.hks.rails = true ∧
      ((s0.on HKS_WDG_host_feed = true ∧ s0.hks.wdgAt + d ≤ t) ∨ s0.stopped d t = true) then
    State.askReset .watchdog (s0.bbox 0x04 0 (s0.rd HKS_STAT_script))
  else s0

/-- CLOCK_FAILURE_RESET. -/
def State.clockReset (x t : Nat) (s : State) : State :=
  let s0 : State := s.advance t
  if s0.on HKS_WDG_en = false ∧ x ≠ 0 ∧ s0.pllSt x = 7 ∧ (s0.pll x).since + 1000 * usF ≤ t then State.askReset .watchdog s0 else s0

/-- PCIE_PERST_N (R18, R314, R366). -/
def State.perst (t : Nat) (s : State) : State :=
  let s0 : State := s.advance t
  if !s0.hks.rails ∨ s0.hks.sel = 2 ∨ !s0.lands then s0
  else if s0.on GLB_RST_CTL_perst_warm then State.askReset .perst s0
  else State.pcieReset true s0

/-- FUNCTION_LEVEL_RESET (R314). -/
def State.flr (t : Nat) (s : State) : State :=
  let s0 : State := s.advance t
  if s0.hostOn then State.pcieReset false s0 else s0

/-! ### Rails off and on (R369, R394, R398, R399, R404) -/

/-- Fields of the always-on domain. -/
def keepsAon (p : Nat × Nat) : Bool := domOfKey p.1 = .aon

/-- Everything outside the always-on domain loses its state; the test access port comes up as after TRST_N, with IDCODE. -/
def State.coldClear (s : State) : State :=
  { s.warmClear with
    inp := { Inp.new with perAll := s.tmb.kt },
    fields := s.fields.filter keepsAon, caps := s.caps.filter (fun p => keepsAon (8 * p.1, 0)),
    dmc := Dmc.new, rak := Rak.new,
    hrv := { Hrv.new with out := s.hrv.out, aerPoison := s.hrv.aerPoison }, grf := { Grf.new with sent := s.grf.sent },
    poison := [], dpoison := [], irqSeen := [], jtg := ⟨1, 0, 0, 1⟩,
    pwr := { s.pwr with res := [], lanes := [] } }

/-- The ADPLLs are off; their enables and band tables stay. -/
def State.pllsOff (s : State) : State :=
  ((List.range 3).foldl (fun (s : State) x =>
    (s.pllUnsus x s.tmb.kt).pllTo x 0) s).wr CLK_STAT_dll_lock 0

/-- RAILS_OFF (R398): at S + 0.5 ms; the dump begins. -/
def State.railsOff (t : Nat) (s : State) : State :=
  let s0 : State := s.advance t
  match s0.pwr.seqAt with
  | none => s0
  | some k =>
    if !s0.hks.rails ∨ t < k + 500 * usF then s0 else
    let s1 : State := s0.nvAbort.bbxPrepAbort.pllsOff
    let s2 : State := s1.coldClear
    let h : Hks := { Hks.new with sel := s1.hks.sel, sigN := s1.hks.sigN, bbxOfs := s1.hks.bbxOfs, keyW := s1.hks.keyW,
                                  nvSize := s1.hks.nvSize }
    let s3 : State := s2.wr PWR_STAT_loss_seq 0
    { s3 with hks := h, grid := { s3.grid with run := false }, bbx := { s3.bbx with dumping := true },
              clk := { s3.clk with hopRun := none, extSuspect := none, dllSuspect := [], extWait := false,
                                     qualAt := if s3.on CLK_STAT_s_src_act then some t else none },
              pwr := { s3.pwr with offAt := some t, cut := false } }

/-- The main rails power up: a wake from off (R369, R415). -/
def State.powerUp (t : Nat) (s : State) : State :=
  let aon := s.pwr.offAt.isSome
  let from_ := match s.pwr.lostAt with
    | some l => l
    | none => s.pwr.offAt.getD t
  let s1 : State := if aon then
      (if s.rd BBX_STAT_freeze_cause = 3 then s.bbxThaw else s).bbox 0x02 0 (min (2 ^ 32 - 1) ((t - from_) / (1000 * usF)))
    else s
  let s2 : State := s1.coldClear.orF GLB_RST_CAUSE_off 1
  let s3 : State := { s2 with
    hks := { Hks.new with rails := true, step := 2, stepAt := t, sel := s.hks.sel, sigN := s.hks.sigN, keyW := s.hks.keyW, wdgAt := t },
    pwr := { s2.pwr with seqAt := none, cause := 0, cut := false, offAt := none, absent := false, lostAt := none } }
  (((s3.tmbWake.wr NMC_STAT_clear_busy 1).wr DMC_STAT_clear_busy 1)).strapBits

/-- The active feed is QUAL or GOOD: the rest of the Kameth may power up (R394). -/
def State.activeOk (s : State) : Bool :=
  let a := s.feed (s.rd PWR_STAT_active)
  a = 7 || a = 1

/-- The same, and a feed is GOOD (R399, R404). -/
def State.anyGood (s : State) : Bool := s.activeOk && (s.feed 0 = 1 || s.feed 1 = 1)

/-- WAKE_FROM_OFF: the active feed is QUAL or GOOD; after the first time also a feed GOOD and the dump ended, after
a trip or rail fault only when both feeds have been absent (R394, R399, R404). -/
def State.wakeFromOff (t : Nat) (s : State) : State :=
  let s0 : State := s.advance t
  if s0.hks.rails then s0 else
  let ok := if s0.pwr.offAt.isNone then s0.activeOk
    else s0.anyGood && !s0.bbx.dumping && (decide (s0.pwr.cause ≤ 1) || (s0.pwr.absent && !s0.on PWR_THERM_CFG_restart))
  if ok then s0.powerUp t else s0

/-- THERMAL_RESTART (R404). -/
def State.thermalRestart (t : Nat) (s : State) : State :=
  let s0 : State := s.advance t
  let since := s0.pwr.seqAt.getD t
  if s0.hks.rails = false ∧ 2 ≤ s0.pwr.cause ∧ s0.on PWR_THERM_CFG_restart = true ∧ since + 60 * secF ≤ t
      ∧ s0.rdS TMB_TEMP_temp < 80 * 16 ∧ s0.anyGood = true ∧ s0.bbx.dumping = false then s0.powerUp t
  else s0

/-- How long the hold-up carries the always-on domain from time `l` on: 30 s, or less with more than 60 mA drawn from VIO_REF (R392,
R435). DESIGN CHOICE (log entry 132): safe. -/
def holdUpF (l : Nat) : Nat := if Config.vioLoad l ≤ 60 then 30 * secF else min (30 * secF) (Config.holdUp l)

/-- ALWAYS_ON_POWER_LOSS (R17): with the rails off and both feeds gone the hold-up has run out. -/
def State.aonLoss (s : State) : State :=
  let l := s.pwr.lostAt.getD 0
  if s.hks.rails ∨ s.feedOk 0 ∨ s.feedOk 1 ∨ s.feed 0 = 7 ∨ s.feed 1 = 7 ∨ s.tmb.kt < l + holdUpF l then s
  else { s with pwr := { s.pwr with dead := true } }

/-- AON_POWER_UP (R89, R366, R394): the reset state, with the straps sampled; the build, the configuration memory and what has
left the Kameth stay. -/
def State.aonUp (sel : Nat) (sigN : Bool) (s : State) : State :=
  if !s.pwr.dead then s else
  { State.reset with
    build := s.build, nv := s.nv, near := ⟨some s.free, [], []⟩, deep := ⟨some (s.free + 1), [], []⟩, scr := ⟨some (s.free + 2), [], []⟩,
    free := s.free + 3, hks := { Hks.new with sel := sel, sigN := sigN }, trl := { Trl.new with lvl := s.trl.lvl },
    hrv := { Hrv.new with out := s.hrv.out }, grf := { Grf.new with sent := s.grf.sent }, msix := s.msix, pending := s.pending }

end Sys2Proof.Machine
end

