-- ==== Sys2Proof/Machine/Settle.lean ====
section
/-! DEFINITION. What follows a command at once: the wake that has become complete, requests that were held, the next step of
start-up, the sequencer's errors and host-run script, Harvest, the start of an entry to M0, and interrupt messages (R135,
R317, R318, R371, R380, R389). -/

namespace Sys2Proof.Machine

/-! ### Interrupt messages (R317, R318) -/

/-- Block `i`: its source has gone to 1, to 0, or neither; at 0 its pending bit clears, as PCI Express defines. -/
def State.irqStep (s : State) (i : Nat) : State :=
  if s.source i then
    if (look s.irqSeen i).isSome || !s.msgOn then s
    else State.signal (16 + i) { s with irqSeen := ins s.irqSeen i 1 }
  else if (look s.irqSeen i).isSome then { s with irqSeen := del s.irqSeen i, msxPba := s.msxPba.filter (· ≠ 16 + i) }
  else s

/-- Every block, and what became free to send. -/
def State.irqSync (s : State) : State := ((List.range 17).foldl State.irqStep s).pbaSync

/-! ### The parts -/

/-- A wake whose ADPLLs have all locked is complete. -/
def State.wakeSync (s : State) : State := if s.hks.waking.isNone then s else s.wakeDone

/-- Start-up goes on. -/
def State.bootSync (s : State) : State := if s.hks.step = 2 ∨ s.hks.step = 3 then s.bootNext.bootNext else s

/-- The host request that caused a wake completes. -/
def State.hostSync (s : State) : State := if s.hks.hostReq.isNone ∨ s.mode = 0 then s else s.hostComplete

/-- Held requests complete in order once the core domain runs (R135). -/
def State.heldSync (s : State) : State :=
  if s.held.isEmpty ∨ s.coreRun = false then s else s.held.foldl State.heldDone { s with held := [] }

/-- The sequencer. -/
def State.seqSync (s : State) : State :=
  if s.hks.script.isNone ∧ s.hks.runReq.isNone then s else s.hostScript.scriptCheck

/-- Harvest sees a capture begin (R325, R326). -/
def State.armSync (old s : State) : State := if old.acqSt ≤ 1 ∧ s.acqSt = 2 then s.hrvArm else s

/-- Harvest sees it end. -/
def State.idleSync (old s : State) : State := if old.acqSt ≠ 0 ∧ s.acqSt = 0 then s.hrvIdle else s

/-- CLK_HOP's flags follow what a hop waits for; a force that was held acts once acquisition is idle (R127). -/
def State.hopSync (s : State) : State :=
  if s.clk.hopWait.isNone ∧ s.rd CLK_HOP_pending = 0 then s else s.hopForceNow.gatherHop.hopFlags

/-- What has happened by itself: a period of REF_OUT, the last measurement of CLK_EXT, and what acquisition has seen by now. -/
def State.selfSync (s : State) : State := s.refOutSync.extTrack.keepUp

/-- Harvest completes and delivers what it can. -/
def State.hrvSync (s : State) : State := if s.hrv.rings.isEmpty then s else s.cqResume.deliverOut.streamDone

/-- Everything that follows a command which took the machine from `old` to `s`. DESIGN CHOICE (log entry 6): safe. -/
def State.settle (old s : State) : State :=
  let s1 : State := s.selfSync.wakeSync.bootSync.hostSync.heldSync.memSync.seqSync
  (State.idleSync old (State.armSync old s1)).hopSync.hrvSync.startEntry.irqSync

/-- A command of the always-on domain, or one that looks after its own conditions. -/
def State.perform (f : State → State) (s : State) : Host.Outcome State Fault Refusal :=
  .next (if s.pwr.dead then s else State.settle s (f s))

/-- A command that needs the main rails. DESIGN CHOICE (log entry 7): safe. -/
def State.performOn (f : State → State) (s : State) : Host.Outcome State Fault Refusal :=
  .next (if s.pwr.dead ∨ s.hks.rails = false then s else State.settle s (f s))

/-- A command with its time `t`: a slot of a probe check that has ended by then has been counted first (R59, R61). -/
abbrev State.performAt (t : Nat) (f : State → State) (s : State) : Host.Outcome State Fault Refusal :=
  State.perform (fun u => f (u.reached t)) s

/-- The same of a command that needs the main rails. -/
abbrev State.performOnAt (t : Nat) (f : State → State) (s : State) : Host.Outcome State Fault Refusal :=
  State.performOn (fun u => f (u.reached t)) s

/-- A write of `v` to a register by a command with its time. DESIGN CHOICE (log entry 10): unsafe. -/
def State.writeAt (p : Port) (a v t : Nat) (s : State) : State := State.portWrite p a 15 v (s.advance t)

end Sys2Proof.Machine
end

