-- ==== Sys2Proof/Machine/Calibration.lean ====
section
/-! DEFINITION. Meanings of the commands of M7 tasks and the probe check: one definition per row of the opcode table. -/

namespace Sys2Proof.Machine

/-- A task's row: what the running task measures; a start by port `p` where it does not run yet (R26).
DESIGN CHOICE (log entry 11): safe. -/
def State.m7Row (p : Port) (code : Nat) (es : List (Nat × Nat × Int × Int × Int)) (t : Nat) (s : State) : State :=
  let s0 : State := s.advance t
  let s1 : State := if (s0.task.map Task.code) = some code then s0 else State.portWrite p GLB_M7_TASK_task.addr 15 code s0
  s1.m7Results code es

/-- A probe check started through GLB_M7_TASK, or through INP_PCHK_CTL with at_arm unchanged (R26, R58). -/
def State.probeStart (p : Port) (viaTask : Bool) (t : Nat) (s : State) : State :=
  if viaTask then State.writeAt p GLB_M7_TASK_task.addr 2 t s
  else State.writeAt p INP_PCHK_CTL_start.addr (1 + 4 * s.rd INP_PCHK_CTL_at_arm) t s

/-- THRESHOLD_CALIBRATION (R49): M7 task 1 trims every threshold DAC to its nominal value and raises THRESH_DRIFT for the
channels it cannot bring within 8 mV. -/
def execThresholdCalibration (p : Port) (readings : List (Chan × Int)) (t : Nat) (s : State) :
    Host.Outcome State Fault Refusal :=
  State.performOnAt t (fun s => State.m7Row p 1 (s.thrEntries (readings.map fun x => (x.1.val, x.2))) t s) s

/-- PROBE_CHECK_START (R58): A probe check starts at arm, on INP_PCHK_CTL.start, or as M7 task 2, and opens the common
activity window; a start that is not permitted is refused. -/
def execProbeCheckStart (p : Port) (viaTask : Bool) (t : Nat) (s : State) :
    Host.Outcome State Fault Refusal :=
  State.performAt t (State.probeStart p viaTask t) s

/-- PROBE_ACTIVITY_WINDOW_CLOSE (R59): The 1 ms activity window of a probe check closes. -/
def execProbeActivityWindowClose (t : Nat) (s : State) :
    Host.Outcome State Fault Refusal :=
  State.performOnAt t (State.pchkWindow t) s

/-- PROBE_CHANNEL_MEASUREMENT (R59): In its 8 µs slot a checked channel enters UNRESOLVED, V0 and V1 are read around the 2
µA test current, and a verdict is given. -/
def execProbeChannelMeasurement (ch : Chan) (v0 v1 : Int) (t : Nat) (s : State) :
    Host.Outcome State Fault Refusal :=
  State.performOnAt t (State.pchkMeasure ch.val v0 v1 t) s

/-- INJECTOR_CALIBRATION (R98): M7 task 3, started by DSK_CAL_CTL.inj_start or GLB_M7_TASK, fires 4,096 injector pulses
per channel and places the result in DSK_CAL as a pending value. -/
def execInjectorCalibration (p : Port) (results : List (Chan × Int)) (t : Nat) (s : State) :
    Host.Outcome State Fault Refusal :=
  State.performOnAt t (fun s => State.m7Row p 3 ((results.filter fun x => decide (x.1.val < s.nChan)).map fun x => (x.1.val, 0, x.2, 0, 0)) t s) s

/-- TDC_CALIBRATION (R98): M7 task 4, started by DSK_CAL_CTL.tdc_start or GLB_M7_TASK, rebuilds every TDC bin table with a
code-density test. -/
def execTdcCalibration (p : Port) (failed : List Chan) (t : Nat) (s : State) :
    Host.Outcome State Fault Refusal :=
  State.performOnAt t (fun s => State.m7Row p 4 ((failed.filter fun c => decide (c.val < s.nChan)).map fun c => (c.val, 1, 0, 0, 0)) t s) s

/-- SELF_TEST (R26): M7 task 6 runs the four self-test tests and writes one CALIBRATION entry for each failure. -/
def execSelfTest (p : Port) (fails : List (Nat × Nat)) (t : Nat) (s : State) :
    Host.Outcome State Fault Refusal :=
  State.performOnAt t (State.m7Row p 6 (fails.map fun x => (x.2, x.1, 0, 0, 0)) t) s

/-- M7_TASK_CLEAR (R26): A GLB_M7_TASK write with task 0 starts nothing and only clears the done and refused bits written
as 1. -/
def execM7TaskClear (p : Port) (v : Word) (s : State) :
    Host.Outcome State Fault Refusal :=
  State.perform (State.portWrite p (GLB_M7_TASK_task.addr) 15 (v.toNat / 8 * 8)) s

/-- M7_TASK_COMPLETE (R26): When an M7 task ends, its CALIBRATION record is written, done is set, and last_task and
last_status are stored. -/
def execM7TaskComplete (t : Nat) (s : State) :
    Host.Outcome State Fault Refusal :=
  State.performOnAt t (State.m7Done t) s

end Sys2Proof.Machine
end

