-- ==== Sys2Proof/Machine/Capture.lean ====
section
/-! DEFINITION. Meanings of the commands of acquisition and Hedge: one definition per row of the opcode table. -/

namespace Sys2Proof.Machine

/-- ARM (R170): A write of 1 to ACQ_CTL.arm runs the arm checks in order and, if they pass, runs any probe check at arm,
applies deskew and enters PREFILL. -/
def execArm (p : Port) (v : Word) (t : Nat) (s : State) :
    Host.Outcome State Fault Refusal :=
  State.performAt t (State.writeAt p (ACQ_CTL_arm.addr) (v.toNat ||| 1) t) s

/-- FORCE_TRIG (R180): A write of 1 to ACQ_CTL.force_trig gives a host trigger at the start of the current sample, or is
discarded. -/
def execForceTrig (p : Port) (v : Word) (t : Nat) (s : State) :
    Host.Outcome State Fault Refusal :=
  State.performAt t (State.writeAt p (ACQ_CTL_arm.addr) (v.toNat ||| 4) t) s

/-- PREFILL_COMPLETE (R169): The pre-trigger depth P is filled, acquisition enters WAIT and the dead time is measured. -/
def execPrefillComplete (t : Nat) (s : State) :
    Host.Outcome State Fault Refusal :=
  State.performOnAt t (State.prefillDone t) s

/-- PREFILL_TIME_LIMIT (R174): In M3 to M5, ACQ_PRE_T µs after pre-fill began, the pre-fill completes with fewer than P
records. -/
def execPrefillTimeLimit (t : Nat) (s : State) :
    Host.Outcome State Fault Refusal :=
  State.performOnAt t (State.prefillLimit t) s

/-- POSTFILL_END (R182): Post-fill of Q positions ends, and the segment closes with cause POSTFILL, COUNT or FULL. -/
def execPostfillEnd (t : Nat) (s : State) :
    Host.Outcome State Fault Refusal :=
  State.performOnAt t (State.postfillDone t) s

/-- SEGMENT_CHAIN (R178): With spill = 1, a segment that reaches its capacity closes with cause CHAIN and continues in a
new chained segment. -/
def execSegmentChain (t : Nat) (s : State) :
    Host.Outcome State Fault Refusal :=
  State.performOnAt t (State.segmentChain t) s

/-- STOP (R188): A write of 1 to ACQ_CTL.stop stops acquisition with cause HOST and closes the open segment. -/
def execStop (p : Port) (v : Word) (t : Nat) (s : State) :
    Host.Outcome State Fault Refusal :=
  State.performAt t (State.writeAt p (ACQ_CTL_arm.addr) (v.toNat ||| 2) t) s

/-- ACQ_TIMEOUT (R187): The acquisition timeout is reached and stops acquisition with cause TIMEOUT. -/
def execAcqTimeout (t : Nat) (s : State) :
    Host.Outcome State Fault Refusal :=
  State.performOnAt t (State.acqTimeout t) s

/-- ACQ_IDLE (R188): STOPPING ends once every stored unit is in deep memory or has been handed to Harvest, and acquisition
enters IDLE. -/
def execAcqIdle (t : Nat) (s : State) :
    Host.Outcome State Fault Refusal :=
  State.performOnAt t (State.acqIdle t) s

/-- STORAGE_STALL (R186): A full tile ring stops storage on all tiles at the same sample, while evaluation and counting
continue. -/
def execStorageStall (tile : Tile) (t : Nat) (s : State) :
    Host.Outcome State Fault Refusal :=
  State.performOnAt t (State.storageStall tile.val t) s

/-- STORAGE_RESUME (R186): Once every ring is at or below 75 % full, storage resumes and a GAP record is written. -/
def execStorageResume (t : Nat) (s : State) :
    Host.Outcome State Fault Refusal :=
  State.performOnAt t (State.storageResume t) s

/-- HEDGE_MISSING (R193): At t'_r + b0, a set channel with no transition in W0 gives a MISSING violation. -/
def execHedgeMissing (rule : Fin 64) (ch : Chan) (t : Nat) (s : State) :
    Host.Outcome State Fault Refusal :=
  State.performOnAt t (State.missing rule.val ch.val t) s

/-- HEDGE_TAIL_END (R196): The stop tail of HDG_TAIL samples after a stop violation ends, and acquisition stops with cause
HEDGE. -/
def execHedgeTailEnd (t : Nat) (s : State) :
    Host.Outcome State Fault Refusal :=
  State.performOnAt t (State.hedgeTailEnd t) s

/-- RULE_CHECK (R199): The Hedge rule check, run at arm or on HDG_CTL.check, writes the first fault found to HDG_CHK. -/
def execRuleCheck (p : Port) (v : Word) (s : State) :
    Host.Outcome State Fault Refusal :=
  State.perform (State.portWrite p (HDG_CTL_check.addr) 15 (v.toNat ||| 1)) s

end Sys2Proof.Machine
end

