-- ==== Sys2Proof/Machine/Channels.lean ====
section
/-! DEFINITION. Meanings of the commands of the input channels: one definition per row of the opcode table. -/

namespace Sys2Proof.Machine

/-- A latch cleared through INP_LSTAT.set or its bit of INP_LATCH (R51, R66). -/
def State.latchWrite (p : Port) (ch : Nat) (viaBitmap : Bool) (t : Nat) (s : State) : State :=
  if viaBitmap then State.writeAt p (INP_LATCH_bits (ch / 32)).addr (2 ^ (ch % 32)) t s
  else State.writeAt p (INP_LSTAT_set ch).addr 1 t s

/-- CHANNEL_EDGE (R41): The input of a resolved channel crosses its hysteresis band, so the comparator output changes, and
the deskewed edge reaches the TDC, Trellis, Hedge, the reductions, the queues and the latch. -/
def execChannelEdge (ch : Chan) (v : Int) (beyond : Bool) (traw sstart : Nat) (s : State) :
    Host.Outcome State Fault Refusal :=
  State.performOnAt traw (State.channelEdge ch.val v beyond traw sstart) s

/-- LATCH_CLEAR (R51): A write of 1 to INP_LSTAT.set or to the channel's bit of INP_LATCH[k] clears the latch, again and
the valid bit of the captured time. -/
def execLatchClear (p : Port) (ch : Chan) (viaBitmap : Bool) (t : Nat) (s : State) :
    Host.Outcome State Fault Refusal :=
  State.performAt t (State.latchWrite p ch.val viaBitmap t) s

/-- LATCH_PERIOD_TICK (R52): The channel's latch period expires, which clears the latch when latch_auto = 1. -/
def execLatchPeriodTick (ch : Chan) (t : Nat) (s : State) :
    Host.Outcome State Fault Refusal :=
  State.performOnAt t (State.periodTick ch.val t) s

/-- LATCH_PERIOD_WRITE (R52): A write to a channel's INP_LPER stores the period, clamped to its limits, and restarts that
channel's period counter. -/
def execLatchPeriodWrite (p : Port) (ch : Chan) (v : Word) (t : Nat) (s : State) :
    Host.Outcome State Fault Refusal :=
  State.performAt t (State.writeAt p ((INP_LPER_period ch.val).addr) (v.toNat) t) s

/-- LATCH_PERIOD_SYNC (R52): A write of 1 to INP_LPER_SYNC.sync restarts every channel's period counter in the same
crystal cycle. -/
def execLatchPeriodSync (p : Port) (v : Word) (t : Nat) (s : State) :
    Host.Outcome State Fault Refusal :=
  State.performAt t (State.writeAt p (INP_LPER_SYNC_sync.addr) (v.toNat ||| 1) t) s

/-- THRESHOLD_WRITE (R43): A write that changes INP_THR.code, or the hysteresis in INP_CFG, puts the channel into
UNRESOLVED and starts its 2 µs settling period. -/
def execThresholdWrite (p : Port) (ch : Chan) (cfg : Bool) (v : Word) (t : Nat) (s : State) :
    Host.Outcome State Fault Refusal :=
  State.performAt t (State.writeAt p (if cfg then (INP_CFG_hyst ch.val).addr else (INP_THR_code ch.val).addr) (v.toNat) t) s

/-- RESOLUTION (R44): After its settling period a channel resolves at the first sample whose input lies outside the band. -/
def execResolution (ch : Chan) (v : Int) (t : Nat) (s : State) :
    Host.Outcome State Fault Refusal :=
  State.performOnAt t (State.resolve ch.val v t) s

/-- THRESHOLD_READBACK (R47): A background reading of a channel's threshold is stored in INP_RDBK, averaged over four
conversions. -/
def execThresholdReadback (ch : Chan) (c0 c1 c2 c3 : Int) (t : Nat) (s : State) :
    Host.Outcome State Fault Refusal :=
  State.performOnAt t (State.readback ch.val c0 c1 c2 c3 t) s

/-- OVERDRIVE (R62): An input held beyond +7 V or below −5 V for more than 1 ms sets ovr and ovr_seen, and the first time
writes a black-box entry and a MARK record. -/
def execOverdrive (ch : Chan) (t : Nat) (s : State) :
    Host.Outcome State Fault Refusal :=
  State.performOnAt t (State.overdrive ch.val t) s

/-- OVERDRIVE_END (R62): An input that returns within both limits clears the live ovr bit. -/
def execOverdriveEnd (ch : Chan) (t : Nat) (s : State) :
    Host.Outcome State Fault Refusal :=
  State.performOnAt t (State.overdriveEnd ch.val t) s

end Sys2Proof.Machine
end

