-- ==== Sys2Proof/Machine/ClockCmds.lean ====
section
/-! DEFINITION. Meanings of the commands of clock synthesis: one definition per row of the opcode table. -/

namespace Sys2Proof.Machine

/-- SAMPLE_SOURCE_WRITE (R113): A write to CLK_CFG.s_src requests a change of sample-base source, which waits while
acquisition is not idle or the mode is M0. -/
def execSampleSourceWrite (p : Port) (v : Word) (s : State) :
    Host.Outcome State Fault Refusal :=
  State.perform (State.portWrite p (CLK_CFG_s_src.addr) 15 (v.toNat)) s

/-- SAMPLE_SOURCE_SWITCH (R113): When idle, the sample domain is gated, the source switches, the DLLs relock and the
output is qualified. -/
def execSampleSourceSwitch (t : Nat) (s : State) :
    Host.Outcome State Fault Refusal :=
  State.performOnAt t (State.srcSwitch t) s

/-- CLK_EXT_INVALID (R116): CLK_EXT becomes invalid, so the sample domain is gated, the segment closes and ADPLL-S starts
as a fallback or the domain stays gated. -/
def execClkExtInvalid (l : ExtLoss) (s : State) :
    Host.Outcome State Fault Refusal :=
  State.performOnAt l.t (State.extInvalid l.edges l.t) s

/-- CLK_EXT_DRIFT (R116): CLK_EXT between ±100 ppm and ±200 ppm of its declared value is treated as a lock loss held in
holdover, with the samples marked CLOCK_SUSPECT. -/
def execClkExtDrift (err : Int) (t : Nat) (s : State) :
    Host.Outcome State Fault Refusal :=
  State.performOnAt t (State.extDrift err t) s

/-- CLK_EXT_VALID (R114): CLK_EXT stays within ±100 ppm for 1 ms and becomes valid, which ends a gated wait or a suspect
interval. -/
def execClkExtValid (err : Int) (t : Nat) (s : State) :
    Host.Outcome State Fault Refusal :=
  State.performOnAt t (State.extValid err t) s

/-- EXT_CLOCK_RETURN (R116): After a fallback, the Kameth returns to CLK_EXT at the next time acquisition is idle while
ext_valid = 1. -/
def execExtClockReturn (t : Nat) (s : State) :
    Host.Outcome State Fault Refusal :=
  State.performOnAt t (State.extReturn t) s

/-- ADPLL_ENABLE (R124): A write that sets CLK_x_CTL.en starts an ADPLL at its target, from a band-table entry or by
search. -/
def execAdpllEnable (p : Port) (x : Pll) (v : Word) (t : Nat) (s : State) :
    Host.Outcome State Fault Refusal :=
  State.performAt t (State.writeAt p ((CLK_x_CTL_en x.val).addr) (v.toNat ||| 1) t) s

/-- SEARCH (R117): A write of 1 to CLK_x_CTL.search while idle starts a new band search for the current target. -/
def execSearch (p : Port) (x : Pll) (v : Word) (t : Nat) (s : State) :
    Host.Outcome State Fault Refusal :=
  State.performAt t (State.writeAt p ((CLK_x_CTL_en x.val).addr) (v.toNat ||| 2) t) s

/-- BAND_SEARCH_DONE (R119): A band search ends, and its result is stored in the band table or in the working entry. -/
def execBandSearchDone (x : Pll) (ok : Bool) (band : Fin 64) (code : Fin 1024) (t : Nat) (s : State) :
    Host.Outcome State Fault Refusal :=
  State.performOnAt t (State.searchDone x.val ok band.val code.val t) s

/-- BAND_TABLE_WRITE (R120): A write to CLK_x_BT_FREQ[i] or CLK_x_BT_CODE[i] sets the entry's preloaded bit, unless the
entry is in use. -/
def execBandTableWrite (p : Port) (x : Pll) (i : Fin 16) (isCode : Bool) (v : Word) (s : State) :
    Host.Outcome State Fault Refusal :=
  State.perform (State.portWrite p (if isCode then (CLK_x_BT_CODE_code x.val i.val).addr else (CLK_x_BT_FREQ_freq x.val i.val).addr) 15 (v.toNat)) s

/-- BT_MISS (R120): A lock from a preloaded entry that has not reached LOCKED within 2 µs sets bt_miss and starts a
search. -/
def execBtMiss (x : Pll) (t : Nat) (s : State) :
    Host.Outcome State Fault Refusal :=
  State.performOnAt t (State.btMiss x.val t) s

/-- ADPLL_LOCKED (R123): An ADPLL reaches lock and enters QUALIFY. -/
def execAdpllLocked (x : Pll) (code : Fin 1024) (t : Nat) (s : State) :
    Host.Outcome State Fault Refusal :=
  State.performOnAt t (State.pllLocked x.val code.val t) s

/-- QUALIFY_COMPLETE (R123): After 4 µs within ±100 ppm the gate opens, and a waiting hop, relock or segment resumes. -/
def execQualifyComplete (x : Pll) (t : Nat) (s : State) :
    Host.Outcome State Fault Refusal :=
  State.performOnAt t (State.qualified x.val t) s

/-- DLL_LOCK_ACQUIRED (R110): A tile DLL locks after its sample base is ungated or after a change of phase count. -/
def execDllLockAcquired (tile : Tile) (t : Nat) (s : State) :
    Host.Outcome State Fault Refusal :=
  State.performOnAt t (State.dllLocked tile.val t) s

/-- ADPLL_FAILED (R134): Three consecutive band searches that fail to lock put the ADPLL in FAILED, which stops
acquisition or freezes the black box. -/
def execAdpllFailed (x : Pll) (t : Nat) (s : State) :
    Host.Outcome State Fault Refusal :=
  State.performOnAt t (State.pllFailed x.val t) s

/-- CLOCK_FAILURE_RESET (R134): With the watchdog disabled, the Kameth starts a warm reset of source watchdog 1 ms after
ADPLL-C or ADPLL-M enters FAILED. -/
def execClockFailureReset (x : Pll) (t : Nat) (s : State) :
    Host.Outcome State Fault Refusal :=
  State.performOnAt t (State.clockReset x.val t) s

/-- HOP_REQUEST (R126): A write of CLK_HOP with start = 1 requests a frequency hop, which is refused, stored for a
disabled ADPLL, or made to wait. -/
def execHopRequest (p : Port) (v : Word) (t : Nat) (s : State) :
    Host.Outcome State Fault Refusal :=
  State.performAt t (State.writeAt p (CLK_HOP_start.addr) (v.toNat ||| 1) t) s

/-- HOP_CANCEL (R126): A write of 1 to CLK_HOP.cancel withdraws a waiting hop. -/
def execHopCancel (p : Port) (v : Word) (t : Nat) (s : State) :
    Host.Outcome State Fault Refusal :=
  State.performAt t (State.writeAt p (CLK_HOP_start.addr) (v.toNat ||| 4) t) s

/-- HOP_FORCE (R127): A write of CLK_HOP.force makes a waiting hop abort the gather it waits on. -/
def execHopForce (p : Port) (v : Word) (t : Nat) (s : State) :
    Host.Outcome State Fault Refusal :=
  State.performAt t (State.writeAt p (CLK_HOP_start.addr) (v.toNat ||| 2) t) s

/-- HOP_START (R127): When acquisition is idle and no gather holds it, a waiting hop gates its domain and relocks at the
new frequency. -/
def execHopStart (t : Nat) (s : State) :
    Host.Outcome State Fault Refusal :=
  State.performOnAt t (State.hopStart t) s

/-- LOCK_LOSS (R131): Two consecutive failed lock judgements put the ADPLL in HOLDOVER and open a CLOCK_SUSPECT interval. -/
def execLockLoss (x : Pll) (j : Judged) (t : Nat) (s : State) :
    Host.Outcome State Fault Refusal :=
  State.performOnAt t (State.lockLoss x.val j.j1 j.j2 j.tPass t) s

/-- HOLDOVER_RECOVERED (R132): Eight consecutive valid judgements close the loop again and write a CLOCK_RESTORED record. -/
def execHoldoverRecovered (x : Pll) (t : Nat) (s : State) :
    Host.Outcome State Fault Refusal :=
  State.performOnAt t (State.recovered x.val t) s

/-- HOLDOVER_OUT_OF_RANGE (R132): A measured error above 200 ppm in holdover starts a relock. -/
def execHoldoverOutOfRange (x : Pll) (err : Int) (t : Nat) (s : State) :
    Host.Outcome State Fault Refusal :=
  State.performOnAt t (State.outOfRange x.val err t) s

/-- HOLDOVER_TIMEOUT (R132): Holdover that has lasted hold_max µs starts a relock. -/
def execHoldoverTimeout (x : Pll) (t : Nat) (s : State) :
    Host.Outcome State Fault Refusal :=
  State.performOnAt t (State.holdTimeout x.val t) s

/-- DLL_LOCK_LOSS (R137): A tile DLL that loses lock marks its tile's channels CLOCK_SUSPECT and relocks without gating. -/
def execDllLockLoss (tile : Tile) (t : Nat) (s : State) :
    Host.Outcome State Fault Refusal :=
  State.performOnAt t (State.dllLoss tile.val t) s

/-- DLL_RELOCK_TIMEOUT (R137): A tile DLL that has not relocked within 20 µs makes the sample domain relock. -/
def execDllRelockTimeout (tile : Tile) (t : Nat) (s : State) :
    Host.Outcome State Fault Refusal :=
  State.performOnAt t (State.dllTimeout tile.val t) s

end Sys2Proof.Machine
end

