-- ==== Sys2Proof/Machine/Control.lean ====
section
/-! DEFINITION. Meanings of the commands of GLB, resets and the state of the PCI Express function: one definition per row of the opcode table. -/

namespace Sys2Proof.Machine

/-- REGISTER_WRITE (R6): A host, station-window or script write to a register that has no row of its own stores, sets or
clears bits according to the field's access code, or is ignored while the owning block refuses writes. -/
def execRegisterWrite (p : Port) (a : Nat) (be : BitVec 4) (v : Word) (s : State) :
    Host.Outcome State Fault Refusal :=
  State.perform (State.portWrite p a be.toNat v.toNat) s

/-- CAPTURE_READ (R71): A read of the low word of a multi-word value (KT72, a counter, TRL_LAST, GRF_GLn_LAST_SRC,
BBX_RD0) captures the whole value for the later word reads. -/
def execCaptureRead (p : Port) (a : Nat) (s : State) :
    Host.Outcome State Fault Refusal :=
  State.perform (State.portRead p a) s

/-- GLB_MODE_WRITE (R27): A write to GLB_MODE requests a mode or composite change, replaces a waiting value, or withdraws
a return held after a wake. -/
def execGlbModeWrite (p : Port) (v : Word) (s : State) :
    Host.Outcome State Fault Refusal :=
  State.perform (State.portWrite p (GLB_MODE_mode.addr) 15 (v.toNat)) s

/-- MODE_CHANGE (R28): Once acquisition is idle and no calibration task or probe check runs, a waiting mode change takes
effect within the stated time. -/
def execModeChange (t : Nat) (s : State) :
    Host.Outcome State Fault Refusal :=
  State.performOnAt t (State.modeChange t) s

/-- RETURN_TO_MODE (R30): A return request held after a wake takes effect once a capture armed after the wake has stopped,
or an arm after the wake has been refused. -/
def execReturnToMode (t : Nat) (s : State) :
    Host.Outcome State Fault Refusal :=
  State.performOnAt t (State.returnToMode t) s

/-- SOFT_RESET (R18): A keyed write of 1 to GLB_RST.warm from the host or the station port starts a warm reset within 1
µs. -/
def execSoftReset (p : Port) (v : Word) (t : Nat) (s : State) :
    Host.Outcome State Fault Refusal :=
  State.performAt t (State.writeAt p (GLB_RST_key.addr) (v.toNat) t) s

/-- MOD_RESET_N (R18): MOD_RESET_N held low for 1 µs or more causes a warm reset of source pin. -/
def execModResetN (t : Nat) (s : State) :
    Host.Outcome State Fault Refusal :=
  State.performOnAt t (State.resetPin t) s

/-- PCIE_PERST_N (R314): Assertion of PCIE_PERST_N resets PCI Express and Harvest only, or causes a warm reset when
perst_warm = 1. -/
def execPciePerstN (t : Nat) (s : State) :
    Host.Outcome State Fault Refusal :=
  State.performOnAt t (State.perst t) s

/-- WARM_RESET (R372): A warm reset ends acquisition, resets the warm registers, records its cause and reruns power-up
steps 1 and 3 to 6 without clearing memory. -/
def execWarmReset (sel : Fin 4) (sigN : Bool) (t : Nat) (s : State) :
    Host.Outcome State Fault Refusal :=
  State.performOnAt t (State.warmReset sel.val sigN t) s

/-- FUNCTION_LEVEL_RESET (R314): A Function Level Reset returns the PCI Express controller, Harvest and the HRV registers
to reset, while capture continues. -/
def execFunctionLevelReset (t : Nat) (s : State) :
    Host.Outcome State Fault Refusal :=
  State.performOnAt t (State.flr t) s

/-- D3HOT (R314): A transition to D3hot, or clearing Bus Master Enable, makes Harvest stop issuing requests until D0 or
Bus Master Enable returns. -/
def execD3hot (bme : Bool) (t : Nat) (s : State) :
    Host.Outcome State Fault Refusal :=
  State.performOnAt t (State.toD3 bme t) s

end Sys2Proof.Machine
end

