-- ==== Sys2Proof/Machine/Dormant.lean ====
section
/-! DEFINITION. Meanings of the commands of wakes from M0: one definition per row of the opcode table. -/

namespace Sys2Proof.Machine

/-- LATCH_WAKE (R388): In M0, a to_wake latch setting that meets the ANY, COUNT or PAIR class starts a wake. -/
def execLatchWake (t : Nat) (s : State) :
    Host.Outcome State Fault Refusal :=
  State.performOnAt t (State.latchWake t) s

/-- TIMER_WAKE (R388): In M0, KT72 reaching HKS_WAKE_AT with en = 1 starts a wake. -/
def execTimerWake (t : Nat) (s : State) :
    Host.Outcome State Fault Refusal :=
  State.performOnAt t (State.timerWake t) s

/-- HOST_WAKE (R30): In M0, the host taking the link out of L1.2 starts a wake. -/
def execHostWake (r : HostReq) (t : Nat) (s : State) :
    Host.Outcome State Fault Refusal :=
  State.performOnAt t (State.hostWake r t) s

/-- ARM_ON_WAKE (R389): With arm_wake = 1, the Kameth writes ACQ_CTL.arm once the DLLs are locked and no script is
pending. -/
def execArmOnWake (t : Nat) (s : State) :
    Host.Outcome State Fault Refusal :=
  State.performOnAt t (State.wakeArm t) s

end Sys2Proof.Machine
end

