-- ==== Sys2Proof/Machine/Engines.lean ====
section
/-! DEFINITION. Meanings of the commands of the reduction units, Sieve and the interval unit: one definition per row of the opcode table. -/

namespace Sys2Proof.Machine

/-- REDUCTION_INTERVAL_END (R226): A reduction interval of I positions ends and the unit produces its COUNT, HIST,
ACTIVITY or PEAK entry. -/
def execReductionIntervalEnd (ru : Fin 8) (t : Nat) (s : State) :
    Host.Outcome State Fault Refusal :=
  State.performOnAt t (State.redIvlExpire ru.val t) s

/-- REDUCTION_FLUSH_TIMEOUT (R232): RED_RUn_FLUSH µs after its first entry, a reduction block closes. -/
def execReductionFlushTimeout (ru : Fin 8) (t : Nat) (s : State) :
    Host.Outcome State Fault Refusal :=
  State.performOnAt t (State.redFlushExpire ru.val t) s

/-- FLUSH (R232): A write of 1 to RED_CTL.flush closes every open reduction block. -/
def execFlush (p : Port) (v : Word) (t : Nat) (s : State) :
    Host.Outcome State Fault Refusal :=
  State.performAt t (State.writeAt p (RED_CTL_flush.addr) (v.toNat ||| 1) t) s

/-- SIEVE_BLOCK_OFFER (R247): A tile's Sieve block is offered to its lanes once its first period is in the ring. -/
def execSieveBlockOffer (tile : Tile) (t : Nat) (s : State) :
    Host.Outcome State Fault Refusal :=
  State.performOnAt t (State.sieveOffer tile.val t) s

/-- SIEVE_RESERVATION (R247): A free lane and 1,025 units of region space are granted, and the lane starts encoding the
block. -/
def execSieveReservation (tile : Tile) (t : Nat) (s : State) :
    Host.Outcome State Fault Refusal :=
  State.performOnAt t (State.sieveReserve tile.val t) s

/-- SIEVE_PASS_THROUGH (R248): A block not reserved within 2 µs of its offer is passed through and counted in SIV_PASS. -/
def execSievePassThrough (tile : Tile) (t : Nat) (s : State) :
    Host.Outcome State Fault Refusal :=
  State.performOnAt t (State.sievePass tile.val t) s

/-- SIEVE_BLOCK_WRITE (R247): A lane completes its block and writes the SIEVE_BLOCK record at its reserved place. -/
def execSieveBlockWrite (lane : Fin 32) (wait t : Nat) (s : State) :
    Host.Outcome State Fault Refusal :=
  State.performOnAt t (State.sieveWrite lane.val wait t) s

/-- LOSS_EPISODE_END (R262): 1 µs without a loss ends a loss episode and writes its GAP record. -/
def execLossEpisodeEnd (t : Nat) (s : State) :
    Host.Outcome State Fault Refusal :=
  State.performOnAt t (State.lossEnd t) s

/-- TIMED_GATE_CLOSE (R264): A timed kind-4 gate closes on the KT72 grid and writes its frequency record. -/
def execTimedGateClose (slot : Fin 64) (t : Nat) (s : State) :
    Host.Outcome State Fault Refusal :=
  State.performOnAt t (State.timedGate slot.val t) s

/-- STALE_TIMESTAMP_DISCARD (R263): A queued timestamp or pending start 2^55 F old or older is discarded. -/
def execStaleTimestampDiscard (slot : Fin 64) (t : Nat) (s : State) :
    Host.Outcome State Fault Refusal :=
  State.performOnAt t (State.staleDiscard slot.val t) s

end Sys2Proof.Machine
end

