-- ==== Sys2Proof/Machine/Faults.lean ====
section
/-! DEFINITION. Meanings of the commands of residues, spare lanes and the black box: one definition per row of the opcode table. -/

namespace Sys2Proof.Machine

/-- RESIDUE_MISMATCH (R406): A residue mismatch is retried, then decided by the spare, then retires the slot or freezes
the black box. -/
def execResidueMismatch (unit : Fin 9) (group : Fin 256) (slot : Fin 16) (second : Bool) (t : Nat) (s : State) :
    Host.Outcome State Fault Refusal :=
  State.performOnAt t (State.residue unit.val group.val slot.val second t) s

/-- LANE_FAIL (R407): 16 disagreements within 1 ms mark a sampler lane failed and start edge fill. -/
def execLaneFail (ch : Chan) (t : Nat) (s : State) :
    Host.Outcome State Fault Refusal :=
  State.performOnAt t (State.laneFail ch.val t) s

/-- SPARE_LANE_MEASURED (R409): A spare lane's delay measurement ends. -/
def execSpareLaneMeasured (g : Fin 16) (t : Nat) (s : State) :
    Host.Outcome State Fault Refusal :=
  State.performOnAt t (State.laneMeasured g.val t) s

/-- SPARE_LANE_SWAP (R409): The measured spare lane takes over at an arm, a boundary or 1 µs into idle. -/
def execSpareLaneSwap (g : Fin 16) (t : Nat) (s : State) :
    Host.Outcome State Fault Refusal :=
  State.performOnAt t (State.laneSwapIdle g.val t) s

/-- BBX_FREEZE (R415): BBX_CTL.freeze freezes the black box with cause HOST. -/
def execBbxFreeze (p : Port) (v : Word) (s : State) :
    Host.Outcome State Fault Refusal :=
  State.perform (State.portWrite p (BBX_CTL_key.addr) 15 (v.toNat ||| 1)) s

/-- BBX_UNFREEZE (R415): BBX_CTL.unfreeze lifts a freeze. -/
def execBbxUnfreeze (p : Port) (v : Word) (s : State) :
    Host.Outcome State Fault Refusal :=
  State.perform (State.portWrite p (BBX_CTL_key.addr) 15 (v.toNat ||| 2)) s

/-- BBX_CLEAR (R422): A keyed BBX_CTL.clear empties the live bank. -/
def execBbxClear (p : Port) (v : Word) (s : State) :
    Host.Outcome State Fault Refusal :=
  State.perform (State.portWrite p (BBX_CTL_key.addr) 15 (v.toNat ||| 4)) s

/-- BBX_PREP (R416): BBX_CTL.prep erases and reads back the dump region. -/
def execBbxPrep (p : Port) (v : Word) (t : Nat) (s : State) :
    Host.Outcome State Fault Refusal :=
  State.performAt t (State.writeAt p (BBX_CTL_key.addr) (v.toNat ||| 8) t) s

/-- BBX_REGION_READ (R416): After boot is done, the dump region is read, classified and loaded or prepared. -/
def execBbxRegionRead (t : Nat) (s : State) :
    Host.Outcome State Fault Refusal :=
  State.performOnAt t (State.bbxRead t) s

/-- BBX_PREP_DONE (R416): Preparing the region ends READY, or OTHER with nv_err. -/
def execBbxPrepDone (ok : Bool) (t : Nat) (s : State) :
    Host.Outcome State Fault Refusal :=
  State.performOnAt t (State.bbxPrepDone ok t) s

end Sys2Proof.Machine
end

