-- ==== Sys2Proof/Machine/GraftCmds.lean ====
section
/-! DEFINITION. Meanings of the commands of Graft: one definition per row of the opcode table. -/

namespace Sys2Proof.Machine

/-- TRIG_FRAME (R356): A received TRIG frame is discarded as a duplicate, or is accepted, feeds the GL term and is
forwarded. -/
def execTrigFrame (port : Fin 4) (hop : Fin 16) (src : Fin 4096) (seq : Fin 256) (mark : Fin 256) (coarse : Bool) (kt t : Nat) (s : State) :
    Host.Outcome State Fault Refusal :=
  State.performOnAt t (State.trigFrame port.val hop.val src.val seq.val mark.val coarse kt t) s

/-- SYNC_FRAME (R359): A received SYNC frame updates the delay and offset measurements, the peer ID and port training. -/
def execSyncFrame (port : Fin 4) (unit : Fin 4096) (t3 t1 t2 t : Nat) (s : State) :
    Host.Outcome State Fault Refusal :=
  State.performOnAt t (State.syncFrame port.val unit.val t3 t1 t2 t) s

/-- SYNC_SEND (R354): An UP port sends a SYNC frame every 1 µs. -/
def execSyncSend (port : Fin 4) (t : Nat) (s : State) :
    Host.Outcome State Fault Refusal :=
  State.performOnAt t (State.syncSend port.val t) s

/-- FRAME_DISCARD (R353): A frame with a bad CRC, a wrong length or an unknown type is discarded and counted. -/
def execFrameDiscard (port : Fin 4) (bits blocks t : Nat) (s : State) :
    Host.Outcome State Fault Refusal :=
  State.performOnAt t (State.frameDiscard port.val bits blocks t) s

/-- PORT_ENABLE (R354): Setting GRF_GLn_CFG.en with the core domain running moves the port to TRAINING. -/
def execPortEnable (p : Port) (port : Fin 4) (v : Word) (t : Nat) (s : State) :
    Host.Outcome State Fault Refusal :=
  State.performAt t (State.writeAt p ((GRF_GLn_CFG_en port.val).addr) (v.toNat ||| 2 ^ 31) t) s

/-- LINK_TIMEOUT (R354): Block lock lost, or no valid frame for 4 µs, returns an UP port to TRAINING. -/
def execLinkTimeout (port : Fin 4) (l : LinkLoss) (s : State) :
    Host.Outcome State Fault Refusal :=
  State.performOnAt l.t (State.linkTimeout port.val l.lost l.t) s

end Sys2Proof.Machine
end

