-- ==== Sys2Proof/Machine/HostLink.lean ====
section
/-! DEFINITION. Meanings of the commands of Harvest and the PCI Express link: one definition per row of the opcode table. -/

namespace Sys2Proof.Machine

/-- LANE_DOWNSHIFT (R312): A failed PCI Express lane makes the link retrain at a narrower width, while capture continues. -/
def execLaneDownshift (width : Nat) (speed : Nat) (t : Nat) (s : State) :
    Host.Outcome State Fault Refusal :=
  State.performOnAt t (State.downshift width speed t) s

/-- DESCRIPTOR_TAIL_WRITE (R319): A write of HRV_RINGn_TAIL gives Harvest new descriptors to fetch. -/
def execDescriptorTailWrite (p : Port) (n : Fin 16) (v : Word) (t : Nat) (s : State) :
    Host.Outcome State Fault Refusal :=
  State.performAt t (State.writeAt p ((HRV_RINGn_TAIL_idx n.val).addr) (v.toNat) t) s

/-- DESCRIPTOR_FETCH (R319): Harvest fetches and checks a descriptor, completing a bad one with BAD_DESC. -/
def execDescriptorFetch (n : Fin 16) (bytes : List Byte) (t : Nat) (s : State) :
    Host.Outcome State Fault Refusal :=
  State.performOnAt t (State.descFetch n.val bytes t) s

/-- DESCRIPTOR_FETCH_ERROR (R333): A failed descriptor fetch completes the buffer with HOST_ERR and disables the ring. -/
def execDescriptorFetchError (n : Fin 16) (t : Nat) (s : State) :
    Host.Outcome State Fault Refusal :=
  State.performOnAt t (State.fetchError n.val t) s

/-- COPY_DESCRIPTOR (R322): A COPY descriptor copies len bytes from memory into the host buffer and completes. -/
def execCopyDescriptor (n : Fin 16) (r : MemRead) (s : State) :
    Host.Outcome State Fault Refusal :=
  State.performOnAt r.g.t (State.copyDesc n.val r.corr r.uncorr r.g.wait r.g.t) s

/-- FOLLOW_BUFFER_COMPLETE (R324): A follow buffer completes when the next record does not fit or its region has been
delivered. -/
def execFollowBufferComplete (n : Fin 16) (t : Nat) (s : State) :
    Host.Outcome State Fault Refusal :=
  State.performOnAt t (State.followDone n.val t) s

/-- FOLLOW_FLUSH_TIMEOUT (R324): A follow buffer completes flagged PART once its flush time has expired. -/
def execFollowFlushTimeout (n : Fin 16) (t : Nat) (s : State) :
    Host.Outcome State Fault Refusal :=
  State.performOnAt t (State.followFlush n.val t) s

/-- FOLLOW_OVERRUN (R327): A writer overwrites undelivered records, so the ring skips ahead and completes its buffer with
status OVERRUN. -/
def execFollowOverrun (n : Fin 16) (t : Nat) (s : State) :
    Host.Outcome State Fault Refusal :=
  State.performOnAt t (State.followOver n.val t) s

/-- RING_DISABLE (R333): Clearing HRV_RINGn_CFG.en stops the ring and completes its buffer with status ABORTED. -/
def execRingDisable (p : Port) (n : Fin 16) (v : Word) (t : Nat) (s : State) :
    Host.Outcome State Fault Refusal :=
  State.performAt t (State.writeAt p ((HRV_RINGn_CFG_en n.val).addr) (v.toNat % 2 ^ 31) t) s

/-- CQ_HEAD_WRITE (R329): A write of HRV_CQm_HEAD returns completion entries and frees held rings. -/
def execCqHeadWrite (p : Port) (m : Fin 16) (v : Word) (t : Nat) (s : State) :
    Host.Outcome State Fault Refusal :=
  State.performAt t (State.writeAt p ((HRV_CQm_HEAD_idx m.val).addr) (v.toNat) t) s

/-- CQ_MODERATION_TIMEOUT (R332): The oldest unsignalled completion entry has waited its moderation time, and the ring's
vector is signalled. -/
def execCqModerationTimeout (m : Fin 16) (t : Nat) (s : State) :
    Host.Outcome State Fault Refusal :=
  State.performOnAt t (State.cqTimeout m.val t) s

/-- RETURN_TO_D0 (R314): The host returns the function to D0, or sets Bus Master Enable again, and Harvest's rings resume
from their held state. -/
def execReturnToD0 (bme : Bool) (t : Nat) (s : State) :
    Host.Outcome State Fault Refusal :=
  State.performOnAt t (State.toD0 bme t) s

/-- LINK_RETRAIN (R312): A retraining that the host requests through Link Control lets the PCI Express link widen again
after a downshift. -/
def execLinkRetrain (width speed : Nat) (t : Nat) (s : State) :
    Host.Outcome State Fault Refusal :=
  State.performOnAt t (State.retrain width speed t) s

/-- L1_2_ENTRY (R316): The host takes the PCI Express link into L1.2 through the L1 PM Substates handshake on
PCIE_CLKREQ_N. -/
def execL1_2Entry (t : Nat) (s : State) :
    Host.Outcome State Fault Refusal :=
  State.performOnAt t (State.toL12 t) s

/-- PCIE_LINK_UP (R371): PCI Express link training completes, and from that moment configuration space answers and
HRV_LINK reports the link up. -/
def execPcieLinkUp (width speed : Nat) (t : Nat) (s : State) :
    Host.Outcome State Fault Refusal :=
  State.performOnAt t (State.linkUp width speed t) s

end Sys2Proof.Machine
end

