-- ==== Sys2Proof/Machine/MemoryCmds.lean ====
section
/-! DEFINITION. Meanings of the commands of near and deep memory, Rake and BAR2: one definition per row of the opcode table. -/

namespace Sys2Proof.Machine

/-- A BAR2 read; in M0 it wakes the Kameth and completes after the wake (R30, R310). -/
def State.bar2Get (a len : Nat) (corr uncorr : List Nat) (wait t : Nat) (s : State) : State :=
  if s.mode = 0 then State.hostExit (.bar2Read a len corr uncorr) (s.advance t) else State.bar2Read a len corr uncorr wait t s

/-- A BAR2 write, likewise. -/
def State.bar2Put (a : Nat) (data : List Byte) (wait t : Nat) (s : State) : State :=
  if s.mode = 0 then State.hostExit (.bar2Write a data) (s.advance t) else State.bar2Write a data wait t s

/-- DMC_INIT (R282): A write of 1 to DMC_CTL.init initialises the stacks with the stored delays and checks every pseudo-
channel. -/
def execDmcInit (p : Port) (v : Word) (t : Nat) (s : State) :
    Host.Outcome State Fault Refusal :=
  State.performAt t (State.writeAt p (DMC_CTL_init.addr) (v.toNat ||| 4) t) s

/-- DMC_INIT_DONE (R282): Deep-memory initialisation ends, failing pseudo-channels are retired, and init_done is set. -/
def execDmcInitDone (fails : List (Fin 128)) (t : Nat) (s : State) :
    Host.Outcome State Fault Refusal :=
  State.performOnAt t (State.dmcInitDone (fails.map Fin.val) t) s

/-- DMC_APPLY (R280): A write of 1 to DMC_CTL.apply while idle applies the hash masks, or sets hash_bad. -/
def execDmcApply (p : Port) (v : Word) (s : State) :
    Host.Outcome State Fault Refusal :=
  State.perform (State.portWrite p (DMC_CTL_init.addr) 15 (v.toNat ||| 1)) s

/-- DMC_RETIRE (R285): A keyed write of DMC_CTL.retire retires the named pseudo-channel and starts its migration. -/
def execDmcRetire (p : Port) (v : Word) (t : Nat) (s : State) :
    Host.Outcome State Fault Refusal :=
  State.performAt t (State.writeAt p (DMC_CTL_init.addr) (v.toNat ||| 2) t) s

/-- RETIRE_THRESHOLD (R285): A pseudo-channel whose corrected symbols in one second exceed DMC_RET_THR is retired. -/
def execRetireThreshold (pc : Fin 128) (q : Second) (t : Nat) (s : State) :
    Host.Outcome State Fault Refusal :=
  State.performOnAt t (State.symbolsCounted pc.val q t) s

/-- MIGRATION_COMPLETE (R286): A migration watermark reaches the end, and the pseudo-channel reads RETIRED. -/
def execMigrationComplete (m : Migration) (s : State) :
    Host.Outcome State Fault Refusal :=
  State.performOnAt m.t (State.migrated m.bad m.t) s

/-- ROW_SPARE (R284): A row with repeated corrected errors or a Rake failure is copied to a spare row. -/
def execRowSpare (pc : Fin 128) (row : Nat) (t : Nat) (s : State) :
    Host.Outcome State Fault Refusal :=
  State.performOnAt t (State.rowSpared pc.val row t) s

/-- REFRESH_DUE (R287): A pseudo-channel's refresh interval expires, so a refresh is issued or owed. -/
def execRefreshDue (pc : Fin 128) (blocked : Bool) (t : Nat) (s : State) :
    Host.Outcome State Fault Refusal :=
  State.performOnAt t (State.refreshDue pc.val blocked t) s

/-- OWED_REFRESH_ISSUE (R287): An owed refresh is issued once the drain has no access pending at the pseudo-channel. -/
def execOwedRefreshIssue (pc : Fin 128) (t : Nat) (s : State) :
    Host.Outcome State Fault Refusal :=
  State.performOnAt t (State.owedIssue pc.val t) s

/-- STACK_TEMP_READING (R288): The 32 µs stack temperature reading makes a stack hot or no longer hot and adjusts refresh. -/
def execStackTempReading (s : Fin 4) (temp : Int) (t : Nat) (s0 : State) :
    Host.Outcome State Fault Refusal :=
  State.performOnAt t (State.stackTemp s.val temp t) s0

/-- RAKE_LEASE (R295): Rake leases a region, copies it to its shadow and runs its march test. -/
def execRakeLease (target : Fin 3) (q : Leased) (t : Nat) (s : State) :
    Host.Outcome State Fault Refusal :=
  State.performOnAt t (State.rakeLease target.val q t) s

/-- RAKE_LEASE_RELEASE (R295): Rake writes its shadow back and releases the lease. -/
def execRakeLeaseRelease (target : Fin 3) (t : Nat) (s : State) :
    Host.Outcome State Fault Refusal :=
  State.performOnAt t (State.rakeRelease target.val t) s

/-- RAKE_PREEMPT (R296): An interrupt-path or script-fetch access to a leased region stops the test, restores the region
and requeues it. -/
def execRakePreempt (target : Fin 3) (t : Nat) (s : State) :
    Host.Outcome State Fault Refusal :=
  State.performOnAt t (State.rakePreempt target.val t) s

/-- NEAR_CLEAR_DONE (R298): Clearing of near memory, the scratchpad, the queues and the shadows ends. -/
def execNearClearDone (t : Nat) (s : State) :
    Host.Outcome State Fault Refusal :=
  State.performOnAt t (State.nearCleared t) s

/-- DEEP_CLEAR_DONE (R298): Clearing of deep memory and the DMC state ends, and the station port may become free. -/
def execDeepClearDone (t : Nat) (s : State) :
    Host.Outcome State Fault Refusal :=
  State.performOnAt t (State.deepCleared t) s

/-- BAR2_READ (R310): A host read through BAR2 of near or deep memory returns its data, poisoned where the data are
poisoned. -/
def execBar2Read (a len : Nat) (corr uncorr : List Nat) (g : Grant) (s : State) :
    Host.Outcome State Fault Refusal :=
  State.performOnAt g.t (State.bar2Get a len corr uncorr g.wait g.t) s

/-- BAR2_WRITE (R310): A host write through BAR2 to near or deep memory is stored, or is discarded during clearing. -/
def execBar2Write (a : Nat) (data : List Byte) (g : Grant) (s : State) :
    Host.Outcome State Fault Refusal :=
  State.performOnAt g.t (State.bar2Put a data g.wait g.t) s

end Sys2Proof.Machine
end

