-- ==== Sys2Proof/Machine/Station.lean ====
section
/-! DEFINITION. The station port (R335 to R343, R348). -/

namespace Sys2Proof.Machine

/-- SP_BUSY is 1 between accesses (R335, R337). -/
def State.spBusy (s : State) : Bool :=
  !s.on STP_CFG_en || s.on NMC_STAT_clear_busy || s.on DMC_STAT_clear_busy || s.hks.warmReq ≠ [] || !s.coreRun

/-- First register of the window (R338). -/
def windowBase : Nat := 0x7F80

/-- Key address of the window register that half-word `a` reaches. -/
def windowReg (a : Nat) : Nat := 0x4000000 + 4 * (a - windowBase)

/-- A warned access: SP_BUSY tells the station (R340, R348). -/
def State.warned (w : Bool) (s : State) : State :=
  let s1 : State := { s with stp := { s.stp with warn := w } }
  if w then s1.bump STP_SW_COLL_count else s1

/-- A read and a write of one word in one core cycle (R340). -/
def State.collRead (s : State) : State := ((s.wr STP_COLL_rd 1).bump STP_COLL_RD_CNT_count).wr STP_EVT_coll 1

/-- Two writes of one word in one core cycle (R340). -/
def State.collWrite (s : State) : State := ((s.wr STP_COLL_wr 1).bump STP_COLL_WR_CNT_count).wr STP_EVT_coll 1

/-- What the port drives on SP_D: the last half-word; none, with the lands in high impedance, while it is off (R335). -/
def State.spData (s : State) : Option Nat := if s.on STP_CFG_en then some s.stp.dout else none

/-- The half-word driven on SP_D. -/
def State.drive (v : Nat) (s : State) : State := { s with stp := { s.stp with dout := v % 65536 } }

/-- STATION_READ at half-word `a`; `hit`: the host reaches the same word in the same core cycle, with a write if `hw`. -/
def State.stationRead (a : Nat) (hit hw : Bool) (s : State) : State :=
  if windowBase ≤ a then State.warned false (State.drive (s.word (windowReg a)) s)
  else if hit && hw then
    let r : Nat × State := s.draw 1
    State.warned true (State.drive (Config.freeValue r.1) r.2).collRead
  else
    let s1 : State := State.drive (s.scrWord (2 * a / 4 * 4) 4 / 65536 ^ (a % 2)) { s with free := s.free + 1 }
    State.warned false (s1.cellRead 2 (2 * a / 4 * 4) 4)

/-- STP_SW_CMD as written (R342). -/
def State.windowCmd (d : Nat) (s : State) : State :=
  if s.stp.cmd.isSome then s
  else if d % 4 = 1 then { (s.wr STP_SW_STAT_busy 1) with stp := { s.stp with cmd := some false } }
  else if d % 4 = 2 then { (s.wr STP_SW_STAT_busy 1) with stp := { s.stp with cmd := some true } }
  else s

/-- The station sets doorbells towards the host; bit 15 supplies the key hash at boot (R343, R378).
DESIGN CHOICE (log entry 86): unsafe. -/
def State.stationBell (d : Nat) (s : State) : State :=
  let s1 : State := s.orF STP_DB_IN_db d
  if bit d 15 then { s1 with hks := { s1.hks with keyBit := true } } else s1

/-- A write of a window register (R348). -/
def State.windowStore (a d : Nat) (s : State) : State :=
  let s1 : State := State.storeReg 0xFFFF d a s
  match a - 0x4000000 with
  | 0x18 => State.windowCmd d s1
  | 0x28 => s1.wr STP_SP_IRQ_EN_src (s1.rd STP_SP_IRQ_EN_src / 65536 * 65536 + d)
  | 0x2C => s1.wr STP_SP_IRQ_EN_src (s1.rd STP_SP_IRQ_EN_src % 65536 + 65536 * (d % 2))
  | 0x30 => s1.clrF STP_DB_OUT_db d
  | 0x34 => State.stationBell d s1
  | _ => s1

/-- STATION_WRITE. A host read of the word in the same core cycle returns undefined data. DESIGN CHOICE (log entry 67): safe. -/
def State.stationWrite (a d : Nat) (hit hw : Bool) (s : State) : State :=
  if windowBase ≤ a then State.warned false (State.windowStore (windowReg a) d s)
  else
    let s1 : State := { s with scr := s.scr.write (2 * a) (le 2 d) }
    if hit && hw then State.warned true s1.collWrite
    else if hit then
      let r : Nat × State := s1.draw 1
      State.warned true { r.2.collRead with hrv := { r.2.hrv with cpl := le 4 (Config.freeValue r.1) } }
    else State.warned false s1

/-- An access of the port: ignored while the port is off or unpowered, or its lands are under test (R440); begun while SP_BUSY is 1, the spec gives it no effect.
DESIGN CHOICE (log entry 8): safe. -/
def State.stationAccess (t : Nat) (f : State → State) (s : State) : Host.Outcome State Fault Refusal :=
  if s.pwr.dead ∨ s.hks.rails = false ∨ s.on STP_CFG_en = false ∨ s.lands = false then .next s
  else if s.spBusy then .fault .stationBusy
  else .next (State.settle s (f ((s.reached t).advance t)))

/-- The BAR0 offset of the window (R348). -/
def State.windowAddr (s : State) : Nat := (s.rd STP_SW_ADDR_LO_addr + 65536 * s.rd STP_SW_ADDR_HI_addr) / 4 * 4

/-- The window's data. -/
def State.windowData (s : State) : Nat := s.rd STP_SW_DATA_LO_data + 65536 * s.rd STP_SW_DATA_HI_data

/-- A window command is not performed (R342, R371). -/
def State.windowErr (s : State) : State :=
  ((s.wr STP_SW_STAT_err 1).wr STP_SW_DATA_LO_data 0).wr STP_SW_DATA_HI_data 0

/-- The window command in progress completes once the core domain runs (R135, R342). -/
def State.windowDone (write : Bool) (t : Nat) (s : State) : State :=
  let s0 : State := s.advance t
  if s0.stp.cmd ≠ some write ∨ s0.coreRun = false then s0 else
  let s1 : State := { (s0.wr STP_SW_STAT_busy 0) with stp := { s0.stp with cmd := none } }
  if s1.windowOpen s1.windowAddr = false then (if write then s1.wr STP_SW_STAT_err 1 else s1.windowErr)
  else if write then State.portWrite .station s1.windowAddr 15 s1.windowData s1
  else State.portRead .station s1.windowAddr s1

end Sys2Proof.Machine
end

