-- ==== Sys2Proof/Machine/Scan.lean ====
section
/-! DEFINITION. The test access port (R437 to R440). -/

namespace Sys2Proof.Machine

/-- The device ID register (R438). -/
def State.deviceId (s : State) : Nat :=
  s.build.moduleVer % 16 * 2 ^ 28 + 0x4B4D * 2 ^ 12 + Config.jedecId % 2 ^ 11 * 2 + 1

/-- Boundary cells beside the 1,024 observe-only ones (R439). -/
def otherCells : Nat := 236

/-- The level of TRIG_OUTn: active while its pulse lasts, at the polarity of TRL_XOUT_CFG (R157, R168). -/
def State.trigOut (s : State) (n : Nat) : Bool :=
  let pol := s.on (if n = 0 then TRL_XOUT_CFG_pol0 else if n = 1 then TRL_XOUT_CFG_pol1 else if n = 2 then TRL_XOUT_CFG_pol2
    else TRL_XOUT_CFG_pol3)
  (look s.trl.out n).isSome ^^ pol

/-- What cell `i`, counted from TDI, captures where the model follows its land (R439, in the order of R432): inputs PCIE_PERST_N,
REF_IN, PPS_IN, TRIG_IN0 to 3, GATE0 to 3, ...; then REF_OUT (low while it carries no clock), PPS_OUT, TRIG_OUT0 to 3 with the
polarity of TRL_XOUT_CFG (R168), SP_BUSY, SP_IRQ_N (open drain), output before enable; from 59 on SP_D0 to SP_D15, input, output,
enable. -/
def State.landCell (s : State) (i : Nat) : Option Bool :=
  if 3 ≤ i ∧ i < 11 then some (bit s.trl.lvl (i - 3))
  else if i = 34 then (if s.tmb.refOut.isNone then some false else none)
  else if i = 36 then some s.tmb.ppsOut
  else if 38 ≤ i ∧ i < 46 ∧ i % 2 = 0 then some (s.trigOut ((i - 38) / 2))
  else if i = 46 then some s.spBusy
  else if i = 48 then some (!s.spIrq)
  else if 59 ≤ i ∧ i < 107 ∧ i % 3 = 0 then s.spData.map fun d => bit d ((i - 60) / 3)
  else none

/-- The boundary register as it captures (R439): CH1023 nearest TDO; cells of other lands hold what the lands hold, free where the
model does not follow them. DESIGN CHOICE (log entry 135): safe. -/
def State.boundary (s : State) : Nat :=
  packBits 1024 (fun i => s.on (INP_LSTAT_level (1023 - i)) && decide (1023 - i < s.nChan))
    + 2 ^ 1024 * packBits otherCells (fun j => (s.landCell (otherCells - 1 - j)).getD (bit (Config.freeValue s.free) j))

/-- What the register an instruction selects captures: boundary, device ID, or bypass (0). -/
def State.scanCapture (s : State) (code : Nat) : Nat :=
  match code with
  | 0x00 => s.boundary
  | 0x01 => s.deviceId
  | 0x02 => s.boundary
  | 0x06 => s.boundary
  | 0x07 => s.boundary
  | _ => 0

/-- EXTEST, CLAMP, HIGHZ, EXTEST_PULSE and EXTEST_TRAIN take the lands (R440). -/
def takesLands (code : Nat) : Bool := code = 0 || code = 4 || code = 5 || code = 6 || code = 7

/-- The instruction that takes effect for a load of `code`: BYPASS for one the port does not answer in M0 (R437), or that would
take the lands while acquisition is not idle (R440). -/
def State.scanCode (s : State) (code : Nat) : Nat :=
  if s.mode = 0 ∧ code ≠ 1 then 0xFF else if takesLands code ∧ s.idle = false then 0xFF else code

/-- What the instruction register captures before a load: 0b0000_0x01, x while acquisition is not idle (R437). -/
def State.irCapture (s : State) : Nat := 1 + 4 * b2n (!s.idle)

/-- The lands come under test: the links of PCI Express and Graft, whose lanes are among them, are lost (R440). DEDUCED (log entry 134):
unsafe. -/
def State.landsLost (s : State) : State := if s.lands then (if s.hrv.link.isSome then s.linkDown else s).portsLost else s

/-- An instruction is loaded (R438, R440). PRESUMED (log entry 81): unsafe. -/
def State.scanLoad (code : Nat) (s0 : State) : State :=
  let c := s0.scanCode code
  let s : State := if takesLands c then s0.landsLost else s0
  { s with jtg := ⟨c, if takesLands c then 1 + c else 0, s0.scanCapture c, s.irCapture⟩, free := s.free + 1 }

end Sys2Proof.Machine
end

