-- ==== Sys2Proof/Machine/ScanCmds.lean ====
section
/-! DEFINITION. Meanings of the commands of boundary scan: one definition per row of the opcode table. -/

namespace Sys2Proof.Machine

/-- EXTEST (R438): JTAG instruction EXTEST drives the lands from the boundary register. -/
def execExtest (s : State) :
    Host.Outcome State Fault Refusal :=
  State.performOn (State.scanLoad 0) s

/-- IDCODE (R438): JTAG instruction IDCODE selects the device ID register. -/
def execIdcode (s : State) :
    Host.Outcome State Fault Refusal :=
  State.performOn (State.scanLoad 1) s

/-- SAMPLE_PRELOAD (R438): JTAG instruction SAMPLE/PRELOAD samples or preloads the boundary register. -/
def execSamplePreload (s : State) :
    Host.Outcome State Fault Refusal :=
  State.performOn (State.scanLoad 2) s

/-- CLAMP (R438): JTAG instruction CLAMP holds the lands while selecting the bypass register. -/
def execClamp (s : State) :
    Host.Outcome State Fault Refusal :=
  State.performOn (State.scanLoad 4) s

/-- HIGHZ (R438): JTAG instruction HIGHZ puts the outputs in high impedance. -/
def execHighz (s : State) :
    Host.Outcome State Fault Refusal :=
  State.performOn (State.scanLoad 5) s

/-- EXTEST_PULSE (R438): JTAG instruction EXTEST_PULSE tests the AC-coupled lanes. -/
def execExtestPulse (s : State) :
    Host.Outcome State Fault Refusal :=
  State.performOn (State.scanLoad 6) s

/-- EXTEST_TRAIN (R438): JTAG instruction EXTEST_TRAIN tests the AC-coupled lanes with a pulse train. -/
def execExtestTrain (s : State) :
    Host.Outcome State Fault Refusal :=
  State.performOn (State.scanLoad 7) s

/-- BYPASS (R438): JTAG instruction BYPASS, and every unlisted code, selects the bypass register. -/
def execBypass (s : State) :
    Host.Outcome State Fault Refusal :=
  State.performOn (State.scanLoad 255) s

end Sys2Proof.Machine
end

