-- ==== Sys2Proof/Machine/Startup.lean ====
section
/-! DEFINITION. Meanings of the commands of power-up, the image, the housekeeping sequencer, the watchdog and the configuration memory: one definition per row of the opcode table. -/

namespace Sys2Proof.Machine

/-- AON_POWER_UP (R394): The always-on domain powers up when a feed exceeds 33 V, which resets KT72, the state and the
band tables. -/
def execAonPowerUp (sel : Fin 4) (sigN : Bool) (s : State) :
    Host.Outcome State Fault Refusal :=
  .next (State.aonUp sel.val sigN s)

/-- WAKE_FROM_OFF (R369): The main rails power up and the power-up sequence runs: clearing, the core ADPLLs, the image,
the script and the auto arm. -/
def execWakeFromOff (t : Nat) (s : State) :
    Host.Outcome State Fault Refusal :=
  State.performAt t (State.wakeFromOff t) s

/-- IMAGE_CHECK (R377): The image is read and checked in order, including the key hash and signature, or the Kameth enters
safe default. -/
def execImageCheck (size : Nat) (t : Nat) (s : State) :
    Host.Outcome State Fault Refusal :=
  State.performOnAt t (State.imageCheck size t) s

/-- LOAD_TIMEOUT (R377): Step 4 of power-up not ended within 2 s gives error LOAD_TIMEOUT or NO_KEY and enters safe
default. -/
def execLoadTimeout (t : Nat) (s : State) :
    Host.Outcome State Fault Refusal :=
  State.performOnAt t (State.loadTimeout t) s

/-- WRITE (R380): Script operation WRITE writes n values to consecutive registers. -/
def execWrite (t : Nat) (s : State) :
    Host.Outcome State Fault Refusal :=
  State.performOnAt t (State.scriptStep 1 t State.opWrite) s

/-- RMW (R380): Script operation RMW updates the masked bits of a register. -/
def execRmw (t : Nat) (s : State) :
    Host.Outcome State Fault Refusal :=
  State.performOnAt t (State.scriptStep 2 t State.opRmw) s

/-- POLL (R380): Script operation POLL waits until a masked register value matches. -/
def execPoll (t : Nat) (s : State) :
    Host.Outcome State Fault Refusal :=
  State.performOnAt t (State.scriptStep 3 t State.opPoll) s

/-- POLL_CONDITION_MET (R380): The polled condition holds and the script continues. -/
def execPollConditionMet (t : Nat) (s : State) :
    Host.Outcome State Fault Refusal :=
  State.performOnAt t (State.pollMet t) s

/-- POLL_TIMEOUT (R380): A POLL times out and stops the script with error 0x11, or with cont = 1 sets poll_to and
continues. -/
def execPollTimeout (t : Nat) (s : State) :
    Host.Outcome State Fault Refusal :=
  State.performOnAt t (State.pollTimeout t) s

/-- WAIT (R380): Script operation WAIT pauses the script for t µs. -/
def execWait (t : Nat) (s : State) :
    Host.Outcome State Fault Refusal :=
  State.performOnAt t (State.scriptStep 4 t State.opWait) s

/-- WAIT_EXPIRY (R380): The WAIT time expires and the script continues. -/
def execWaitExpiry (t : Nat) (s : State) :
    Host.Outcome State Fault Refusal :=
  State.performOnAt t (State.waitExpiry t) s

/-- BRANCH_VARIANT (R380): Script operation BRANCH_VARIANT skips words when the variant bit is set in vmask. -/
def execBranchVariant (t : Nat) (s : State) :
    Host.Outcome State Fault Refusal :=
  State.performOnAt t (State.scriptStep 5 t State.opVariant) s

/-- BRANCH_STATUS (R380): Script operation BRANCH_STATUS skips words on a register comparison. -/
def execBranchStatus (t : Nat) (s : State) :
    Host.Outcome State Fault Refusal :=
  State.performOnAt t (State.scriptStep 6 t State.opStatus) s

/-- CALL_EVENT (R380): Script operation CALL_EVENT copies a body to the scratchpad and binds or unbinds an event. -/
def execCallEvent (t : Nat) (s : State) :
    Host.Outcome State Fault Refusal :=
  State.performOnAt t (State.scriptStep 7 t State.opCall) s

/-- END (R385): Script operation END ends the script; after the configuration script it sets done and copies the arm
flags. -/
def execEndScript (t : Nat) (s : State) :
    Host.Outcome State Fault Refusal :=
  State.performOnAt t (State.scriptStep 8 t (fun k s => s.scriptEnd k)) s

/-- AUTO_ARM (R385): Once the sequencer is idle after boot with arm_boot = 1, the Kameth writes ACQ_CTL.arm itself. -/
def execAutoArm (t : Nat) (s : State) :
    Host.Outcome State Fault Refusal :=
  State.performOnAt t (State.autoArm t) s

/-- EVENT_SCRIPT_START (R383): A pending bound event script starts, in order of e, when the sequencer is free. -/
def execEventScriptStart (t : Nat) (s : State) :
    Host.Outcome State Fault Refusal :=
  State.performOnAt t (State.eventStart t) s

/-- HKS_RUN (R384): A write of HKS_RUN with start = 1 runs the scratchpad script at ofs. -/
def execHksRun (p : Port) (v : Word) (t : Nat) (s : State) :
    Host.Outcome State Fault Refusal :=
  State.performAt t (State.writeAt p (HKS_RUN_start.addr) (v.toNat ||| 2 ^ 31) t) s

/-- WATCHDOG_FEED (R386): A keyed write of HKS_WDG_FEED feeds the housekeeping watchdog. -/
def execWatchdogFeed (p : Port) (v : Word) (t : Nat) (s : State) :
    Host.Outcome State Fault Refusal :=
  State.performAt t (State.writeAt p (HKS_WDG_FEED_key.addr) (v.toNat) t) s

/-- WATCHDOG_EXPIRY (R386): An unfed watchdog period ends, which writes a black-box entry and causes a warm reset. -/
def execWatchdogExpiry (t : Nat) (s : State) :
    Host.Outcome State Fault Refusal :=
  State.performOnAt t (State.watchdog t) s

/-- NV_READ (R374): HKS_NV_CTL op READ copies 256 bytes of the configuration memory into the page buffer. -/
def execNvRead (p : Port) (v : Word) (t : Nat) (s : State) :
    Host.Outcome State Fault Refusal :=
  State.performAt t (State.writeAt p (HKS_NV_CTL_op.addr) (v.toNat / 8 * 8 + 1) t) s

/-- NV_PROGRAM (R374): HKS_NV_CTL op PROGRAM writes the page buffer to a configuration-memory page. -/
def execNvProgram (p : Port) (v : Word) (t : Nat) (s : State) :
    Host.Outcome State Fault Refusal :=
  State.performAt t (State.writeAt p (HKS_NV_CTL_op.addr) (v.toNat / 8 * 8 + 2) t) s

/-- NV_ERASE_4K (R374): HKS_NV_CTL op ERASE_4K erases 4 KiB of configuration memory. -/
def execNvErase4K (p : Port) (v : Word) (t : Nat) (s : State) :
    Host.Outcome State Fault Refusal :=
  State.performAt t (State.writeAt p (HKS_NV_CTL_op.addr) (v.toNat / 8 * 8 + 3) t) s

/-- NV_ERASE_64K (R374): HKS_NV_CTL op ERASE_64K erases 64 KiB of configuration memory. -/
def execNvErase64K (p : Port) (v : Word) (t : Nat) (s : State) :
    Host.Outcome State Fault Refusal :=
  State.performAt t (State.writeAt p (HKS_NV_CTL_op.addr) (v.toNat / 8 * 8 + 4) t) s

/-- NV_DONE (R374): A configuration-memory operation completes and sets nv_done. -/
def execNvDone (t : Nat) (s : State) :
    Host.Outcome State Fault Refusal :=
  State.performOnAt t (State.nvDone t) s

/-- NV_TIMEOUT (R374): A configuration-memory operation not complete within 5 s sets err. -/
def execNvTimeout (t : Nat) (s : State) :
    Host.Outcome State Fault Refusal :=
  State.performOnAt t (State.nvTimeout t) s

end Sys2Proof.Machine
end

