-- ==== Sys2Proof/Machine/StationCmds.lean ====
section
/-! DEFINITION. Meanings of the commands of the station port: one definition per row of the opcode table. -/

namespace Sys2Proof.Machine

/-- Half-word address of STP_SW_DB_OUT (R348). -/
def doorbellAt : Nat := windowBase + 0xD

/-- STATION_READ (R336): A station-port read access returns a scratchpad or window half-word, with SP_BUSY warning of a
collision. -/
def execStationRead (a : Nat) (hostWord : Option Nat) (hostWrites : Bool) (t : Nat) (s : State) :
    Host.Outcome State Fault Refusal :=
  State.stationAccess t (State.stationRead a (hostWord = some (a / 2)) hostWrites) s

/-- STATION_WRITE (R336): A station-port write access stores a half-word, and is extended by one cycle on a collision. -/
def execStationWrite (a : Nat) (d : BitVec 16) (hostWord : Option Nat) (hostWrites : Bool) (t : Nat) (s : State) :
    Host.Outcome State Fault Refusal :=
  State.stationAccess t (State.stationWrite a d.toNat (hostWord = some (a / 2)) hostWrites) s

/-- WINDOW_READ (R342): STP_SW_CMD.read reads a BAR0 register into STP_SW_DATA. -/
def execWindowRead (t : Nat) (s : State) :
    Host.Outcome State Fault Refusal :=
  State.performOnAt t (State.windowDone false t) s

/-- WINDOW_WRITE (R342): STP_SW_CMD.write writes STP_SW_DATA to a BAR0 register. -/
def execWindowWrite (t : Nat) (s : State) :
    Host.Outcome State Fault Refusal :=
  State.performOnAt t (State.windowDone true t) s

/-- HOST_DOORBELL (R343): A write of STP_DB_OUT sets doorbells towards the station, which may drive SP_IRQ_N. -/
def execHostDoorbell (p : Port) (v : Word) (s : State) :
    Host.Outcome State Fault Refusal :=
  State.perform (State.portWrite p (STP_DB_OUT_db.addr) 15 (v.toNat)) s

/-- STATION_DOORBELL (R343): A write of STP_SW_DB_OUT sets doorbells towards the host, and bit 15 supplies the key hash at
boot. -/
def execStationDoorbell (d : BitVec 16) (t : Nat) (s : State) :
    Host.Outcome State Fault Refusal :=
  State.stationAccess t (State.stationWrite doorbellAt d.toNat false false) s

end Sys2Proof.Machine
end

