-- ==== Sys2Proof/Machine/Supply.lean ====
section
/-! DEFINITION. Meanings of the commands of feeds, rails, outputs and temperature: one definition per row of the opcode table. -/

namespace Sys2Proof.Machine

/-- Number of a feed: 0 A, 1 B. -/
def feedNo (f : Feed) : Nat := match f with
  | .a => 0
  | .b => 1

/-- FEED_LEAVES_RANGE (R393): A feed enters LOW, HIGH, REVERSED or SHORTED, which may cause a switch-over. -/
def execFeedLeavesRange (f : Feed) (k : FeedFault) (mv : Int) (t : Nat) (s : State) :
    Host.Outcome State Fault Refusal :=
  State.performAt t (State.feedLeaves (feedNo f) k mv t) s

/-- FEED_SENSE_TEST (R393): The 1 ms sense test of a feed below 5 V ends, finding it ABSENT or SHORTED. -/
def execFeedSenseTest (f : Feed) (shorted : Bool) (mv : Int) (t : Nat) (s : State) :
    Host.Outcome State Fault Refusal :=
  State.performAt t (State.feedSense (feedNo f) shorted mv t) s

/-- FEED_GOOD (R393): A feed 100 ms within 36 V to 60 V becomes GOOD. -/
def execFeedGood (f : Feed) (mv : Int) (t : Nat) (s : State) :
    Host.Outcome State Fault Refusal :=
  State.performAt t (State.feedGood (feedNo f) mv t) s

/-- REVERT (R395): The preferred feed, GOOD for revert_s seconds, is switched back to. -/
def execRevert (t : Nat) (s : State) :
    Host.Outcome State Fault Refusal :=
  State.performAt t (State.revert t) s

/-- HOST_FEED_SWITCH (R395): A keyed write of PWR_CTL.switch switches to the other feed if it is GOOD, and is refused
otherwise. -/
def execHostFeedSwitch (p : Port) (v : Word) (t : Nat) (s : State) :
    Host.Outcome State Fault Refusal :=
  State.performAt t (State.writeAt p (PWR_CTL_key.addr) (v.toNat ||| 1) t) s

/-- RIDE_THROUGH (R397): A feed returns within 1.5 ms of both being out of range and becomes active, with no data lost. -/
def execRideThrough (f : Feed) (t : Nat) (s : State) :
    Host.Outcome State Fault Refusal :=
  State.performAt t (State.rideThrough (feedNo f) t) s

/-- ORDERLY_LOSS_SEQUENCE (R398): After 1.5 ms without a feed, or on a thermal trip or rail fault, acquisition stops with
cause SUPPLY and the engines stop. -/
def execOrderlyLossSequence (t : Nat) (s : State) :
    Host.Outcome State Fault Refusal :=
  State.performOnAt t (State.feedsLost t) s

/-- HARVEST_CUTOFF (R398): At S + 0.45 ms, open Harvest buffers complete and the black box writes DUMP and freezes. -/
def execHarvestCutoff (t : Nat) (s : State) :
    Host.Outcome State Fault Refusal :=
  State.performOnAt t (State.cutoff t) s

/-- RAILS_OFF (R398): At S + 0.5 ms, every rail except the always-on domain turns off and the dump begins. -/
def execRailsOff (t : Nat) (s : State) :
    Host.Outcome State Fault Refusal :=
  State.performOnAt t (State.railsOff t) s

/-- DUMP_END (R417): The dump ends and its result is stored in BBX_DUMP. -/
def execDumpEnd (ok : Bool) (t : Nat) (s : State) :
    Host.Outcome State Fault Refusal :=
  State.performAt t (State.dumpEnd ok t) s

/-- PHASE_FAILURE (R400): A failed regulator phase is shed, or a second loss or rail fault starts the orderly loss
sequence. -/
def execPhaseFailure (rail : Fin 8) (fault : Bool) (t : Nat) (s : State) :
    Host.Outcome State Fault Refusal :=
  State.performAt t (State.phaseFail rail.val fault t) s

/-- HOLDUP_TEST (R401): At power-up and every 24 h the hold-up bank is measured, and a shortfall is flagged. -/
def execHoldupTest (pct : Nat) (t : Nat) (s : State) :
    Host.Outcome State Fault Refusal :=
  State.performAt t (State.holdup pct t) s

/-- OUTPUT_FAULT (R402): An output at its current limit for 200 ns is in fault. -/
def execOutputFault (o : Fin 6) (t : Nat) (s : State) :
    Host.Outcome State Fault Refusal :=
  State.performOnAt t (State.outFault o.val t) s

/-- OUTPUT_FAULT_END (R402): 200 ns after an output leaves its limit, its live fault bit clears. -/
def execOutputFaultEnd (o : Fin 6) (t : Nat) (s : State) :
    Host.Outcome State Fault Refusal :=
  State.performOnAt t (State.outFaultEnd o.val t) s

/-- THERMAL_READING (R403): The 1 ms sensor readings set or clear WARN. -/
def execThermalReading (temps : List (Nat × Int)) (t : Nat) (s : State) :
    Host.Outcome State Fault Refusal :=
  State.performOnAt t (State.thermal temps t) s

/-- THERMAL_TRIP (R403): A sensor held above its trip level for 1 ms starts the orderly loss sequence. -/
def execThermalTrip (sensor : Fin 14) (temp : Int) (t : Nat) (s : State) :
    Host.Outcome State Fault Refusal :=
  State.performOnAt t (State.trip sensor.val temp t) s

/-- THERMAL_RESTART (R404): 60 s after a trip or rail fault with restart = 1, once cool with a GOOD feed, the power-up
sequence runs. -/
def execThermalRestart (t : Nat) (s : State) :
    Host.Outcome State Fault Refusal :=
  State.performAt t (State.thermalRestart t) s

/-- ALWAYS_ON_POWER_LOSS (R17): The always-on hold-up runs out 30 s after both feeds are gone, and the always-on domain
loses power, so the next power-up is a cold one. -/
def execAlwaysOnPowerLoss (s : State) :
    Host.Outcome State Fault Refusal :=
  State.perform State.aonLoss s

/-- FEED_QUAL (R393): A feed that rises into 34 V to 62 V, and is not coming from GOOD, enters QUAL at once, and this can
let the always-on domain choose its active feed. -/
def execFeedQual (f : Feed) (mv : Int) (t : Nat) (s : State) :
    Host.Outcome State Fault Refusal :=
  State.performAt t (State.feedQualify (feedNo f) mv t) s

/-- FEED_MARGIN (R393): A GOOD feed that moves into 34 V to 36 V or 60 V to 62 V enters MARGIN at once, and it becomes
GOOD again at once when it returns within 36 V to 60 V. -/
def execFeedMargin (f : Feed) (back : Bool) (mv : Int) (t : Nat) (s : State) :
    Host.Outcome State Fault Refusal :=
  State.performAt t (State.feedMargin (feedNo f) back mv t) s

end Sys2Proof.Machine
end

