-- ==== Sys2Proof/Machine/TimeCmds.lean ====
section
/-! DEFINITION. Meanings of the commands of the time base and deskew: one definition per row of the opcode table. -/

namespace Sys2Proof.Machine

/-- EPOCH_LOAD_ARM (R76): A write of 1 to TMB_EPOCH_CTL.load arms an epoch load. -/
def execEpochLoadArm (p : Port) (v : Word) (s : State) :
    Host.Outcome State Fault Refusal :=
  State.perform (State.portWrite p (TMB_EPOCH_CTL_load.addr) 15 (v.toNat ||| 1)) s

/-- EPOCH_CANCEL (R77): A write of 1 to TMB_EPOCH_CTL.cancel withdraws a pending epoch load. -/
def execEpochCancel (p : Port) (v : Word) (s : State) :
    Host.Outcome State Fault Refusal :=
  State.perform (State.portWrite p (TMB_EPOCH_CTL_load.addr) 15 (v.toNat ||| 2)) s

/-- EPOCH_LOAD (R76): At the first qualifying PPS event while acquisition is idle, KT72 takes the epoch value and the
epoch ID increments. -/
def execEpochLoad (t : Nat) (s : State) :
    Host.Outcome State Fault Refusal :=
  State.performOnAt t (State.epochLoad t) s

/-- PPS_EDGE (R81): A PPS_IN edge is accepted or treated as an outlier, and it advances the reference state towards
LOCKED. -/
def execPpsEdge (e : PpsIn) (s : State) :
    Host.Outcome State Fault Refusal :=
  State.performOnAt e.t (State.ppsEdge e.up e.t) s

/-- PPS_TIMEOUT (R80): No PPS_IN edge within 1.5 s of the previous one makes PPS_IN invalid and moves the reference state
to HOLDOVER. -/
def execPpsTimeout (t : Nat) (s : State) :
    Host.Outcome State Fault Refusal :=
  State.performOnAt t (State.ppsTimeout t) s

/-- REF_IN_VALID (R80): REF_IN stays within ±100 ppm for 10 ms and becomes valid, which starts ACQUIRING. -/
def execRefInValid (m : RefIn) (s : State) :
    Host.Outcome State Fault Refusal :=
  State.performOnAt m.t (State.refValid m.hz m.t) s

/-- REF_IN_INVALID (R80): REF_IN loses its edges or its frequency and becomes invalid, which moves the reference state to
HOLDOVER. -/
def execRefInInvalid (t : Nat) (s : State) :
    Host.Outcome State Fault Refusal :=
  State.performOnAt t (State.refInvalid t) s

/-- REF_LOCK_TIMER (R82): With src = 1, REF_IN valid for 10 s moves the reference state from ACQUIRING to LOCKED. -/
def execRefLockTimer (t : Nat) (s : State) :
    Host.Outcome State Fault Refusal :=
  State.performOnAt t (State.refLock t) s

/-- TCOMP_UPDATE (R74): Every 1 ms the crystal-side temperature updates the tcomp term and the tcomp_bad check. -/
def execTcompUpdate (temp : Int) (t : Nat) (s : State) :
    Host.Outcome State Fault Refusal :=
  State.performAt t (State.tcompUpdate temp t) s

/-- PPS_OUT_PULSE (R86): PPS_OUT rises when KT72 crosses a whole second. -/
def execPpsOutPulse (t : Nat) (s : State) :
    Host.Outcome State Fault Refusal :=
  State.performOnAt t (State.ppsPulse t) s

/-- PPS_OUT_PULSE_END (R86): PPS_OUT falls when its pps_width time expires. -/
def execPpsOutPulseEnd (t : Nat) (s : State) :
    Host.Outcome State Fault Refusal :=
  State.performOnAt t (State.ppsPulseEnd t) s

/-- DESKEW_TERM_WRITE (R96): A write to DSK_LAND or DSK_USER makes that term pending and sets DSK_COEF.pend. -/
def execDeskewTermWrite (p : Port) (ch : Chan) (user : Bool) (v : Word) (t : Nat) (s : State) :
    Host.Outcome State Fault Refusal :=
  State.performAt t (State.writeAt p (if user then (DSK_USER_d ch.val).addr else (DSK_LAND_d ch.val).addr) (v.toNat) t) s

/-- DESKEW_APPLY (R96): Pending deskew values take effect for all channels at an arm, at a segment boundary, or 1 µs into
idle. -/
def execDeskewApply (t : Nat) (s : State) :
    Host.Outcome State Fault Refusal :=
  State.performOnAt t (State.dskIdleApply t) s

/-- GATHER_START (R102): A write of 1 to DSK_GCTL.start begins a live-traffic gather, or is refused with the named bit
set. -/
def execGatherStart (p : Port) (v : Word) (t : Nat) (s : State) :
    Host.Outcome State Fault Refusal :=
  State.performAt t (State.writeAt p (DSK_GCTL_start.addr) (v.toNat ||| 1) t) s

/-- GATHER_ABORT (R103): A write of 1 to DSK_GCTL.abort ends a running gather ABORTED and discards its statistics. -/
def execGatherAbort (p : Port) (v : Word) (t : Nat) (s : State) :
    Host.Outcome State Fault Refusal :=
  State.performAt t (State.writeAt p (DSK_GCTL_start.addr) (v.toNat ||| 2) t) s

/-- GATHER_CLOSE (R103): When the gather window expires, each pair receives a result and statistics, and a CALIBRATION
record is written. -/
def execGatherClose (t : Nat) (s : State) :
    Host.Outcome State Fault Refusal :=
  State.performOnAt t (State.gatherExpire t) s

end Sys2Proof.Machine
end

