-- ==== Sys2Proof/Machine/Trigger.lean ====
section
/-! DEFINITION. Meanings of the commands of Trellis and the external inputs: one definition per row of the opcode table. -/

namespace Sys2Proof.Machine

/-- TRELLIS_BRANCH_TAKEN (R152): In a sample, the current level takes its first true enabled branch, performs its actions
and may move to the target level. -/
def execTrellisBranchTaken (k : Nat) (retry second : Bool) (group slot : Fin 16) (s : State) :
    Host.Outcome State Fault Refusal :=
  State.performOnAt (s.grid.start k) (State.branchTaken k retry second group.val slot.val) s

/-- TRIG_OUT_PULSE_END (R157): A TRIG_OUTn returns to its inactive level when its widthn core cycles expire. -/
def execTrigOutPulseEnd (n : Fin 4) (t : Nat) (s : State) :
    Host.Outcome State Fault Refusal :=
  State.performOnAt t (State.pulseEnd n.val t) s

/-- TIMER_LIMIT_REACHED (R149): A Trellis timer's elapsed time reaches its limit, which makes its TM term true. -/
def execTimerLimitReached (n : Fin 16) (t : Nat) (s : State) :
    Host.Outcome State Fault Refusal :=
  State.performOnAt t (State.timerLimit n.val t) s

/-- PROGRAM_CHECK (R164): The Trellis program check, run at arm or on TRL_CFG.check, writes the first fault found to
TRL_CHK. -/
def execProgramCheck (p : Port) (v : Word) (s : State) :
    Host.Outcome State Fault Refusal :=
  State.perform (State.portWrite p (TRL_CFG_check.addr) 15 (v.toNat ||| 1)) s

/-- GATE_INPUT_EDGE (R147): An edge on TRIG_INn or GATEn is timed at F and serves Trellis and the interval gates. -/
def execGateInputEdge (i : Fin 8) (rising : Bool) (t : Nat) (s : State) :
    Host.Outcome State Fault Refusal :=
  State.performOnAt t (State.gateInputEdge i.val rising t) s

end Sys2Proof.Machine
end

