-- ==== Sys2Proof/Machine/Dispatch.lean ====
section
/-! DEFINITION. Dispatch: one arm per command, each a direct call of its meaning. -/

namespace Sys2Proof.Machine

/-- The effect of a command on everything but the queue. -/
def exec (i : Instr) (s : State) : Host.Outcome State Fault Refusal :=
  match i with
  | .registerWrite p a be v => Sys2Proof.Machine.execRegisterWrite p a be v s
  | .captureRead p a => Sys2Proof.Machine.execCaptureRead p a s
  | .glbModeWrite p v => Sys2Proof.Machine.execGlbModeWrite p v s
  | .modeChange t => Sys2Proof.Machine.execModeChange t s
  | .returnToMode t => Sys2Proof.Machine.execReturnToMode t s
  | .softReset p v t => Sys2Proof.Machine.execSoftReset p v t s
  | .modResetN t => Sys2Proof.Machine.execModResetN t s
  | .pciePerstN t => Sys2Proof.Machine.execPciePerstN t s
  | .warmReset sel sigN t => Sys2Proof.Machine.execWarmReset sel sigN t s
  | .functionLevelReset t => Sys2Proof.Machine.execFunctionLevelReset t s
  | .d3hot bme t => Sys2Proof.Machine.execD3hot bme t s
  | .thresholdCalibration p readings t => Sys2Proof.Machine.execThresholdCalibration p readings t s
  | .probeCheckStart p viaTask t => Sys2Proof.Machine.execProbeCheckStart p viaTask t s
  | .probeActivityWindowClose t => Sys2Proof.Machine.execProbeActivityWindowClose t s
  | .probeChannelMeasurement ch v0 v1 t => Sys2Proof.Machine.execProbeChannelMeasurement ch v0 v1 t s
  | .injectorCalibration p results t => Sys2Proof.Machine.execInjectorCalibration p results t s
  | .tdcCalibration p failed t => Sys2Proof.Machine.execTdcCalibration p failed t s
  | .selfTest p fails t => Sys2Proof.Machine.execSelfTest p fails t s
  | .m7TaskClear p v => Sys2Proof.Machine.execM7TaskClear p v s
  | .m7TaskComplete t => Sys2Proof.Machine.execM7TaskComplete t s
  | .channelEdge ch v beyond traw sstart => Sys2Proof.Machine.execChannelEdge ch v beyond traw sstart s
  | .latchClear p ch viaBitmap t => Sys2Proof.Machine.execLatchClear p ch viaBitmap t s
  | .latchPeriodTick ch t => Sys2Proof.Machine.execLatchPeriodTick ch t s
  | .latchPeriodWrite p ch v t => Sys2Proof.Machine.execLatchPeriodWrite p ch v t s
  | .latchPeriodSync p v t => Sys2Proof.Machine.execLatchPeriodSync p v t s
  | .thresholdWrite p ch cfg v t => Sys2Proof.Machine.execThresholdWrite p ch cfg v t s
  | .resolution ch v t => Sys2Proof.Machine.execResolution ch v t s
  | .thresholdReadback ch c0 c1 c2 c3 t => Sys2Proof.Machine.execThresholdReadback ch c0 c1 c2 c3 t s
  | .overdrive ch t => Sys2Proof.Machine.execOverdrive ch t s
  | .overdriveEnd ch t => Sys2Proof.Machine.execOverdriveEnd ch t s
  | .epochLoadArm p v => Sys2Proof.Machine.execEpochLoadArm p v s
  | .epochCancel p v => Sys2Proof.Machine.execEpochCancel p v s
  | .epochLoad t => Sys2Proof.Machine.execEpochLoad t s
  | .ppsEdge e => Sys2Proof.Machine.execPpsEdge e s
  | .ppsTimeout t => Sys2Proof.Machine.execPpsTimeout t s
  | .refInValid m => Sys2Proof.Machine.execRefInValid m s
  | .refInInvalid t => Sys2Proof.Machine.execRefInInvalid t s
  | .refLockTimer t => Sys2Proof.Machine.execRefLockTimer t s
  | .tcompUpdate temp t => Sys2Proof.Machine.execTcompUpdate temp t s
  | .ppsOutPulse t => Sys2Proof.Machine.execPpsOutPulse t s
  | .ppsOutPulseEnd t => Sys2Proof.Machine.execPpsOutPulseEnd t s
  | .deskewTermWrite p ch user v t => Sys2Proof.Machine.execDeskewTermWrite p ch user v t s
  | .deskewApply t => Sys2Proof.Machine.execDeskewApply t s
  | .gatherStart p v t => Sys2Proof.Machine.execGatherStart p v t s
  | .gatherAbort p v t => Sys2Proof.Machine.execGatherAbort p v t s
  | .gatherClose t => Sys2Proof.Machine.execGatherClose t s
  | .sampleSourceWrite p v => Sys2Proof.Machine.execSampleSourceWrite p v s
  | .sampleSourceSwitch t => Sys2Proof.Machine.execSampleSourceSwitch t s
  | .clkExtInvalid l => Sys2Proof.Machine.execClkExtInvalid l s
  | .clkExtDrift err t => Sys2Proof.Machine.execClkExtDrift err t s
  | .clkExtValid err t => Sys2Proof.Machine.execClkExtValid err t s
  | .extClockReturn t => Sys2Proof.Machine.execExtClockReturn t s
  | .adpllEnable p x v t => Sys2Proof.Machine.execAdpllEnable p x v t s
  | .search p x v t => Sys2Proof.Machine.execSearch p x v t s
  | .bandSearchDone x ok band code t => Sys2Proof.Machine.execBandSearchDone x ok band code t s
  | .bandTableWrite p x j isCode v => Sys2Proof.Machine.execBandTableWrite p x j isCode v s
  | .btMiss x t => Sys2Proof.Machine.execBtMiss x t s
  | .adpllLocked x code t => Sys2Proof.Machine.execAdpllLocked x code t s
  | .qualifyComplete x t => Sys2Proof.Machine.execQualifyComplete x t s
  | .dllLockAcquired tile t => Sys2Proof.Machine.execDllLockAcquired tile t s
  | .adpllFailed x t => Sys2Proof.Machine.execAdpllFailed x t s
  | .clockFailureReset x t => Sys2Proof.Machine.execClockFailureReset x t s
  | .hopRequest p v t => Sys2Proof.Machine.execHopRequest p v t s
  | .hopCancel p v t => Sys2Proof.Machine.execHopCancel p v t s
  | .hopForce p v t => Sys2Proof.Machine.execHopForce p v t s
  | .hopStart t => Sys2Proof.Machine.execHopStart t s
  | .lockLoss x j t => Sys2Proof.Machine.execLockLoss x j t s
  | .holdoverRecovered x t => Sys2Proof.Machine.execHoldoverRecovered x t s
  | .holdoverOutOfRange x err t => Sys2Proof.Machine.execHoldoverOutOfRange x err t s
  | .holdoverTimeout x t => Sys2Proof.Machine.execHoldoverTimeout x t s
  | .dllLockLoss tile t => Sys2Proof.Machine.execDllLockLoss tile t s
  | .dllRelockTimeout tile t => Sys2Proof.Machine.execDllRelockTimeout tile t s
  | .trellisBranchTaken k retry second group slot => Sys2Proof.Machine.execTrellisBranchTaken k retry second group slot s
  | .trigOutPulseEnd n t => Sys2Proof.Machine.execTrigOutPulseEnd n t s
  | .timerLimitReached n t => Sys2Proof.Machine.execTimerLimitReached n t s
  | .programCheck p v => Sys2Proof.Machine.execProgramCheck p v s
  | .arm p v t => Sys2Proof.Machine.execArm p v t s
  | .forceTrig p v t => Sys2Proof.Machine.execForceTrig p v t s
  | .prefillComplete t => Sys2Proof.Machine.execPrefillComplete t s
  | .prefillTimeLimit t => Sys2Proof.Machine.execPrefillTimeLimit t s
  | .postfillEnd t => Sys2Proof.Machine.execPostfillEnd t s
  | .segmentChain t => Sys2Proof.Machine.execSegmentChain t s
  | .stop p v t => Sys2Proof.Machine.execStop p v t s
  | .acqTimeout t => Sys2Proof.Machine.execAcqTimeout t s
  | .acqIdle t => Sys2Proof.Machine.execAcqIdle t s
  | .storageStall tile t => Sys2Proof.Machine.execStorageStall tile t s
  | .storageResume t => Sys2Proof.Machine.execStorageResume t s
  | .hedgeMissing rule ch t => Sys2Proof.Machine.execHedgeMissing rule ch t s
  | .hedgeTailEnd t => Sys2Proof.Machine.execHedgeTailEnd t s
  | .ruleCheck p v => Sys2Proof.Machine.execRuleCheck p v s
  | .reductionIntervalEnd ru t => Sys2Proof.Machine.execReductionIntervalEnd ru t s
  | .reductionFlushTimeout ru t => Sys2Proof.Machine.execReductionFlushTimeout ru t s
  | .flush p v t => Sys2Proof.Machine.execFlush p v t s
  | .sieveBlockOffer tile t => Sys2Proof.Machine.execSieveBlockOffer tile t s
  | .sieveReservation tile t => Sys2Proof.Machine.execSieveReservation tile t s
  | .sievePassThrough tile t => Sys2Proof.Machine.execSievePassThrough tile t s
  | .sieveBlockWrite lane wait t => Sys2Proof.Machine.execSieveBlockWrite lane wait t s
  | .gateInputEdge j rising t => Sys2Proof.Machine.execGateInputEdge j rising t s
  | .lossEpisodeEnd t => Sys2Proof.Machine.execLossEpisodeEnd t s
  | .timedGateClose slot t => Sys2Proof.Machine.execTimedGateClose slot t s
  | .staleTimestampDiscard slot t => Sys2Proof.Machine.execStaleTimestampDiscard slot t s
  | .dmcInit p v t => Sys2Proof.Machine.execDmcInit p v t s
  | .dmcInitDone fails t => Sys2Proof.Machine.execDmcInitDone fails t s
  | .dmcApply p v => Sys2Proof.Machine.execDmcApply p v s
  | .dmcRetire p v t => Sys2Proof.Machine.execDmcRetire p v t s
  | .retireThreshold pc symbols t => Sys2Proof.Machine.execRetireThreshold pc symbols t s
  | .migrationComplete m => Sys2Proof.Machine.execMigrationComplete m s
  | .rowSpare pc row t => Sys2Proof.Machine.execRowSpare pc row t s
  | .refreshDue pc blocked t => Sys2Proof.Machine.execRefreshDue pc blocked t s
  | .owedRefreshIssue pc t => Sys2Proof.Machine.execOwedRefreshIssue pc t s
  | .stackTempReading k4 temp t => Sys2Proof.Machine.execStackTempReading k4 temp t s
  | .rakeLease target fails t => Sys2Proof.Machine.execRakeLease target fails t s
  | .rakeLeaseRelease target t => Sys2Proof.Machine.execRakeLeaseRelease target t s
  | .rakePreempt target t => Sys2Proof.Machine.execRakePreempt target t s
  | .nearClearDone t => Sys2Proof.Machine.execNearClearDone t s
  | .deepClearDone t => Sys2Proof.Machine.execDeepClearDone t s
  | .bar2Read a len corr uncorr g => Sys2Proof.Machine.execBar2Read a len corr uncorr g s
  | .bar2Write a data g => Sys2Proof.Machine.execBar2Write a data g s
  | .laneDownshift width speed t => Sys2Proof.Machine.execLaneDownshift width speed t s
  | .descriptorTailWrite p n v t => Sys2Proof.Machine.execDescriptorTailWrite p n v t s
  | .descriptorFetch n bytes t => Sys2Proof.Machine.execDescriptorFetch n bytes t s
  | .descriptorFetchError n t => Sys2Proof.Machine.execDescriptorFetchError n t s
  | .copyDescriptor n r => Sys2Proof.Machine.execCopyDescriptor n r s
  | .followBufferComplete n t => Sys2Proof.Machine.execFollowBufferComplete n t s
  | .followFlushTimeout n t => Sys2Proof.Machine.execFollowFlushTimeout n t s
  | .followOverrun n t => Sys2Proof.Machine.execFollowOverrun n t s
  | .ringDisable p n v t => Sys2Proof.Machine.execRingDisable p n v t s
  | .cqHeadWrite p m v t => Sys2Proof.Machine.execCqHeadWrite p m v t s
  | .cqModerationTimeout m t => Sys2Proof.Machine.execCqModerationTimeout m t s
  | .stationRead a hostWord hostWrites t => Sys2Proof.Machine.execStationRead a hostWord hostWrites t s
  | .stationWrite a d hostWord hostWrites t => Sys2Proof.Machine.execStationWrite a d hostWord hostWrites t s
  | .windowRead t => Sys2Proof.Machine.execWindowRead t s
  | .windowWrite t => Sys2Proof.Machine.execWindowWrite t s
  | .hostDoorbell p v => Sys2Proof.Machine.execHostDoorbell p v s
  | .stationDoorbell d t => Sys2Proof.Machine.execStationDoorbell d t s
  | .trigFrame port hop src seq mark coarse kt t => Sys2Proof.Machine.execTrigFrame port hop src seq mark coarse kt t s
  | .syncFrame port unit t3 t1 t2 t => Sys2Proof.Machine.execSyncFrame port unit t3 t1 t2 t s
  | .syncSend port t => Sys2Proof.Machine.execSyncSend port t s
  | .frameDiscard port bits blocks t => Sys2Proof.Machine.execFrameDiscard port bits blocks t s
  | .portEnable p port v t => Sys2Proof.Machine.execPortEnable p port v t s
  | .linkTimeout port l => Sys2Proof.Machine.execLinkTimeout port l s
  | .aonPowerUp sel sigN => Sys2Proof.Machine.execAonPowerUp sel sigN s
  | .wakeFromOff t => Sys2Proof.Machine.execWakeFromOff t s
  | .imageCheck size t => Sys2Proof.Machine.execImageCheck size t s
  | .loadTimeout t => Sys2Proof.Machine.execLoadTimeout t s
  | .write t => Sys2Proof.Machine.execWrite t s
  | .rmw t => Sys2Proof.Machine.execRmw t s
  | .poll t => Sys2Proof.Machine.execPoll t s
  | .pollConditionMet t => Sys2Proof.Machine.execPollConditionMet t s
  | .pollTimeout t => Sys2Proof.Machine.execPollTimeout t s
  | .wait t => Sys2Proof.Machine.execWait t s
  | .waitExpiry t => Sys2Proof.Machine.execWaitExpiry t s
  | .branchVariant t => Sys2Proof.Machine.execBranchVariant t s
  | .branchStatus t => Sys2Proof.Machine.execBranchStatus t s
  | .callEvent t => Sys2Proof.Machine.execCallEvent t s
  | .endScript t => Sys2Proof.Machine.execEndScript t s
  | .autoArm t => Sys2Proof.Machine.execAutoArm t s
  | .eventScriptStart t => Sys2Proof.Machine.execEventScriptStart t s
  | .hksRun p v t => Sys2Proof.Machine.execHksRun p v t s
  | .watchdogFeed p v t => Sys2Proof.Machine.execWatchdogFeed p v t s
  | .watchdogExpiry t => Sys2Proof.Machine.execWatchdogExpiry t s
  | .nvRead p v t => Sys2Proof.Machine.execNvRead p v t s
  | .nvProgram p v t => Sys2Proof.Machine.execNvProgram p v t s
  | .nvErase4K p v t => Sys2Proof.Machine.execNvErase4K p v t s
  | .nvErase64K p v t => Sys2Proof.Machine.execNvErase64K p v t s
  | .nvDone t => Sys2Proof.Machine.execNvDone t s
  | .nvTimeout t => Sys2Proof.Machine.execNvTimeout t s
  | .latchWake t => Sys2Proof.Machine.execLatchWake t s
  | .timerWake t => Sys2Proof.Machine.execTimerWake t s
  | .hostWake r t => Sys2Proof.Machine.execHostWake r t s
  | .armOnWake t => Sys2Proof.Machine.execArmOnWake t s
  | .feedLeavesRange f k mv t => Sys2Proof.Machine.execFeedLeavesRange f k mv t s
  | .feedSenseTest f shorted mv t => Sys2Proof.Machine.execFeedSenseTest f shorted mv t s
  | .feedGood f mv t => Sys2Proof.Machine.execFeedGood f mv t s
  | .revert t => Sys2Proof.Machine.execRevert t s
  | .hostFeedSwitch p v t => Sys2Proof.Machine.execHostFeedSwitch p v t s
  | .rideThrough f t => Sys2Proof.Machine.execRideThrough f t s
  | .orderlyLossSequence t => Sys2Proof.Machine.execOrderlyLossSequence t s
  | .harvestCutoff t => Sys2Proof.Machine.execHarvestCutoff t s
  | .railsOff t => Sys2Proof.Machine.execRailsOff t s
  | .dumpEnd ok t => Sys2Proof.Machine.execDumpEnd ok t s
  | .phaseFailure rail fault t => Sys2Proof.Machine.execPhaseFailure rail fault t s
  | .holdupTest pct t => Sys2Proof.Machine.execHoldupTest pct t s
  | .outputFault o t => Sys2Proof.Machine.execOutputFault o t s
  | .outputFaultEnd o t => Sys2Proof.Machine.execOutputFaultEnd o t s
  | .thermalReading temps t => Sys2Proof.Machine.execThermalReading temps t s
  | .thermalTrip sensor temp t => Sys2Proof.Machine.execThermalTrip sensor temp t s
  | .thermalRestart t => Sys2Proof.Machine.execThermalRestart t s
  | .residueMismatch unit group slot second t => Sys2Proof.Machine.execResidueMismatch unit group slot second t s
  | .laneFail ch t => Sys2Proof.Machine.execLaneFail ch t s
  | .spareLaneMeasured g t => Sys2Proof.Machine.execSpareLaneMeasured g t s
  | .spareLaneSwap g t => Sys2Proof.Machine.execSpareLaneSwap g t s
  | .bbxFreeze p v => Sys2Proof.Machine.execBbxFreeze p v s
  | .bbxUnfreeze p v => Sys2Proof.Machine.execBbxUnfreeze p v s
  | .bbxClear p v => Sys2Proof.Machine.execBbxClear p v s
  | .bbxPrep p v t => Sys2Proof.Machine.execBbxPrep p v t s
  | .bbxRegionRead t => Sys2Proof.Machine.execBbxRegionRead t s
  | .bbxPrepDone ok t => Sys2Proof.Machine.execBbxPrepDone ok t s
  | .extest => Sys2Proof.Machine.execExtest s
  | .idcode => Sys2Proof.Machine.execIdcode s
  | .samplePreload => Sys2Proof.Machine.execSamplePreload s
  | .clamp => Sys2Proof.Machine.execClamp s
  | .highz => Sys2Proof.Machine.execHighz s
  | .extestPulse => Sys2Proof.Machine.execExtestPulse s
  | .extestTrain => Sys2Proof.Machine.execExtestTrain s
  | .bypass => Sys2Proof.Machine.execBypass s
  | .alwaysOnPowerLoss => Sys2Proof.Machine.execAlwaysOnPowerLoss s
  | .feedQual f mv t => Sys2Proof.Machine.execFeedQual f mv t s
  | .feedMargin f back mv t => Sys2Proof.Machine.execFeedMargin f back mv t s
  | .returnToD0 bme t => Sys2Proof.Machine.execReturnToD0 bme t s
  | .linkRetrain width speed t => Sys2Proof.Machine.execLinkRetrain width speed t s
  | .l1_2Entry t => Sys2Proof.Machine.execL1_2Entry t s
  | .pcieLinkUp width speed t => Sys2Proof.Machine.execPcieLinkUp width speed t s

end Sys2Proof.Machine
end

