-- ==== Sys2Proof/Machine/Step.lean ====
section
/-! DEFINITION. One step: the command at the front of the queue, or, on an empty queue, one tick (log entry 4). -/

namespace Sys2Proof.Machine

/-- The tick of an idle block: KT72 moves by one core cycle while the core domain runs, else by one crystal cycle (R67, R88).
DESIGN CHOICE (log entry 4): unsafe. -/
def State.tick (s : State) : State := if s.pwr.dead then s else s.cycle (if s.coreRun then s.cnom else xtalF)

/-- One step of the block. DESIGN CHOICE (log entry 5): safe. DESIGN CHOICE (log entry 88): safe. -/
def step (s : State) : Host.Outcome State Fault Refusal :=
  match s.pending with
  | [] => .next s.tick
  | c :: r => exec c { s with pending := r }

/-- The command that a word spells, put at the front of the queue; the table gives its rows no bits, so none is. -/
def State.withFetchWord (s : State) (nbits w : Nat) : State :=
  match decodeTableWord nbits w with
  | some c => { s with pending := c :: s.pending }
  | none => s

end Sys2Proof.Machine
end

