-- ==== Sys2Proof/Safety.lean ====
section
/-! DEFINITION. What claims about the block are stated in: a powered machine, a machine that takes host requests, a machine with
nothing left to follow a command, what a command answers, and what it leaves as it was. -/

namespace Sys2Proof

open Machine

/-- The always-on domain and the main rails have power (R17, R398). -/
def Powered (s : State) : Prop := s.pwr.dead = false ∧ s.hks.rails = true

/-- A register access through the port at BAR0 address `a` is performed at once: the always-on domain has power, the core domain
runs, and the port serves the address (R30, R135, R310, R342, R371, R379). -/
def Reaches (p : Port) (a : Nat) (s : State) : Prop :=
  s.pwr.dead = false ∧ s.coreRun = true ∧
    match p with
    | .host => s.hostOn = true ∧ s.on HKS_BOOT_done = true
    | .station => s.windowOpen a = true
    | .script => s.hks.script.isSome = true

/-- No slot of a probe check is under way: one that has ended is counted when the next command comes (R59, R61). -/
def SlotFree (s : State) : Prop := ∀ c, s.inp.pchk = some c → c.cur = none

/-- Nothing is left to follow a command by itself (log entry 6): acquisition is idle, and no wake, boot step, held request, script,
hop, ring, mode change, tracking of CLK_EXT or interrupt message waits. -/
def Calm (s : State) : Prop :=
  s.hks.waking = none ∧ s.hks.step ≠ 2 ∧ s.hks.step ≠ 3 ∧ s.hks.hostReq = none ∧ s.held = [] ∧ s.hks.script = none
    ∧ s.hks.runReq = none ∧ s.clk.hopWait = none ∧ s.rd CLK_HOP_pending = 0 ∧ s.hrv.rings = []
    ∧ s.rd GLB_STAT_mode_pend = 0 ∧ s.rd GLB_STAT_ret_pend = 0 ∧ s.hrv.bme = false ∧ s.irqSeen = []
    ∧ s.acqSt = 0 ∧ s.hrv.memHeld = [] ∧ s.tmb.refOut = s.refOutNow
    ∧ (s.on CLK_STAT_s_src_act && s.grid.run) = false

/-- The command answers a next state: its own effect `u`, followed by what follows at once from `u` (State.settle). What `u` is
is said where no slot of a probe check is under way. -/
def Answers (c : Instr) (s : State) (P : State → Prop) : Prop :=
  ∃ u, exec c s = .next (State.settle s u) ∧ (SlotFree s → P u)

/-- Every register field but those listed reads as before. -/
def SameRegs (s u : State) (l : List Fld) : Prop := ∀ f : Fld, f.key ∉ l.map Fld.key → u.rd f = s.rd f

/-- All of the state but the register fields, the time base, the record of interrupt messages sent, and whether the link is in L1.2,
which a request of the host ends (R316), is as before: memories, queues, the hidden state of every unit. -/
def SameRest (s u : State) : Prop :=
  { u with fields := s.fields, tmb := s.tmb, irqSeen := s.irqSeen, hrv := { u.hrv with l12 := s.hrv.l12 } } = s

/-- The time has moved to `t`, or stays where it is past `t` already. -/
def TimeAt (s u : State) (t : Nat) : Prop := u.tmb.kt = max s.tmb.kt t

/-- A block's event has been signalled exactly while it may have been (R318): a message that has been sent stands for a source
that still reads 1, and a source that reads 1 while messages can be sent has sent its message. -/
def IrqInv (s : State) : Prop :=
  ∀ i, i < 17 → ((look s.irqSeen i).isSome = true → s.source i = true)
    ∧ (s.source i = true → s.msgOn = true → (look s.irqSeen i).isSome = true)

/-- The buffer in hand of ring `n` completes with status `st`, the descriptors `rest` left: its entry, of 32 bytes with the status at
byte 12, is the last thing written to the host, at the tail of the ring's completion ring as it stood in `s` (R329). -/
def Completed (s u : State) (n st : Nat) (rest : List Desc) : Prop :=
  let m := s.rd (HRV_RINGn_CFG_cq n)
  u.rd (HRV_RINGn_HEAD_idx n) = (s.rd (HRV_RINGn_HEAD_idx n) + 1) % s.ringSize n % 2 ^ 16 ∧ (u.ring n).q = rest ∧ (u.ring n).bytes = 0
    ∧ (u.ring n).recs = 0 ∧ (u.ring n).ready = none
    ∧ ∃ pre e, u.hrv.out = s.hrv.out ++ pre ++ [⟨64 * s.rd (HRV_CQm_BASE_LO_addr m) + 2 ^ 32 * s.rd (HRV_CQm_BASE_HI_addr m)
          + 32 * (s.rd (HRV_CQm_TAIL_idx m) % s.cqSize m), e, false⟩] ∧ e.length = 32 ∧ e.getD 12 0 = BitVec.ofNat 8 st

/-- What serving ring `n` leaves as it was: all but Harvest's own state and messages, the count of activates, and the registers listed. -/
def RingFrame (s u : State) (n : Nat) (l : List Fld) : Prop :=
  let m := s.rd (HRV_RINGn_CFG_cq n)
  SameRegs s u (l ++ [HRV_BYTES, HRV_POISON_CNT_count, HRV_EVT_poison, HRV_CQm_TAIL_idx m, HRV_CQm_TAIL_phase m,
      HRV_RINGn_HEAD_idx n, DMC_RDP_CNT_count])
    ∧ SameRest s { u with hrv := s.hrv, free := s.free, msix := s.msix, msxPba := s.msxPba }

/-- Every memory of the machine is in its canonical form. -/
def MemInv (s : State) : Prop := s.near.wf = true ∧ s.deep.wf = true ∧ s.scr.wf = true ∧ s.nv.wf = true

end Sys2Proof
end

