-- ==== Sys2Proof/Certificates/Slice0/Obligations.lean ====
section
/-! DEFINITION. The statements for the provers. Each is about one command on any state that meets the conditions the spec gives; u is
the state after the command's own effect, and State.settle gives what follows at once: nothing on a calm machine (settle_calm in
Laws/Follow.lean). -/

section

open Sys2Proof Sys2Proof.Machine


/-! ### The queue, and what follows a command -/

/-- A step takes the command at the front of the queue and answers what the command answers on the state with the rest of the queue. On an
empty queue a step is one tick (log entry 4): nothing but the time base changes, and a block without power does not tick. Without power
in the always-on domain no command but AON_POWER_UP changes anything. The model's own choices it rests on: log entries 4, 7. -/
def Obligations.StepRunsFront : Prop :=
  (∀ (c : Instr) (r : List Instr) (s : State), s.pending = c :: r → step s = exec c { s with pending := r })
  ∧ (∀ s : State, s.pending = [] →
       ∃ u, step s = .next u ∧ { u with tmb := s.tmb } = s ∧ (s.pwr.dead = true → u = s))
  ∧ (∀ (c : Instr) (s : State), s.pwr.dead = true → (∀ sel sigN, c ≠ .aonPowerUp sel sigN) → exec c s = .next s)

/-- IrqInv and MemInv hold at reset: every register field but those of the black box's first entry reads its reset value (as with no field
written), the mode is M1, acquisition is idle, the main rails are off and nothing waits in the queue. -/
def Obligations.InvReset : Prop :=
  IrqInv State.reset ∧ MemInv State.reset ∧ SameRegs State.reset { State.reset with fields := [] } [BBX_STAT_count, BBX_HEAD_value] ∧ State.reset.mode = 1 ∧ State.reset.acqSt = 0
    ∧ State.reset.hks.rails = false ∧ State.reset.pwr.dead = false ∧ State.reset.pending = []

/-- Every step keeps IrqInv: a block's message is outstanding only while its source reads 1, and a source that reads 1 while messages can be
sent has been signalled. -/
def Obligations.IrqInvStep : Prop :=
  ∀ s u : State, IrqInv s → step s = .next u → IrqInv u

/-- Every step keeps MemInv: near and deep memory, the scratchpad and the configuration memory stay in their canonical form, addresses
strictly rising and no cell equal to what an unlisted byte reads as. -/
def Obligations.MemInvStep : Prop :=
  ∀ s u : State, MemInv s → step s = .next u → MemInv u

/-! ### Resets and the PCI Express link -/

/-- Each source of a warm reset asks for it once: MOD_RESET_N, PCIE_PERST_N with perst_warm = 1, the keyed write of GLB_RST, a clock failure
with the watchdog disabled, and a watchdog that the host, or the sequencer since it has stopped with ADPLL-C or ADPLL-M FAILED, has not
fed for its period, which also writes its black-box entry (R18, R134, R314, R386). Nothing else changes; a fed watchdog and a pin that
boundary scan has taken ask for nothing (R440). A warm reset records its causes, ends acquisition, script and task and returns to M1;
deep memory and the scratchpad, and the configuration memory with no operation on it, keep their contents; HRV_LINK is at reset, and
PCIE_PERST_N or strap 0b10 takes the link down (R18, R20, R366, R372, R425). The model's own choices it rests on: log entries 10, 85. -/
def Obligations.WarmResets : Prop :=
  (∀ (s : State) (t : Nat), Powered s →
     (s.lands = true → WarmSrc.pin ∉ s.hks.warmReq → Answers (.modResetN t) s fun u =>
       u.hks = { s.hks with warmReq := s.hks.warmReq ++ [.pin] } ∧ TimeAt s u t ∧ SameRegs s u [] ∧ SameRest s { u with hks := s.hks })
     ∧ (s.lands = false → Answers (.modResetN t) s (fun u => TimeAt s u t ∧ SameRegs s u [] ∧ SameRest s u)
         ∧ Answers (.pciePerstN t) s (fun u => TimeAt s u t ∧ SameRegs s u [] ∧ SameRest s u))
     ∧ (s.lands = true → WarmSrc.perst ∉ s.hks.warmReq → s.hks.sel ≠ 2 → s.on GLB_RST_CTL_perst_warm = true → Answers (.pciePerstN t) s fun u =>
       u.hks = { s.hks with warmReq := s.hks.warmReq ++ [.perst] } ∧ TimeAt s u t ∧ SameRegs s u [] ∧ SameRest s { u with hks := s.hks })
     ∧ (∀ (p : Port) (v : Word), p ≠ .script → Reaches p GLB_RST_key.addr s → WarmSrc.soft ∉ s.hks.warmReq →
         GLB_RST_key.of v.toNat = 0xA5C3 → GLB_RST_warm.of v.toNat = 1 → Answers (.softReset p v t) s fun u =>
       u.hks = { s.hks with warmReq := s.hks.warmReq ++ [.soft] } ∧ TimeAt s u t ∧ SameRegs s u [] ∧ SameRest s { u with hks := s.hks })
     ∧ (∀ x : Pll, WarmSrc.watchdog ∉ s.hks.warmReq → s.on HKS_WDG_en = false → x.val ≠ 0 → s.pllSt x.val = 7 →
         (s.pll x.val).since + 1000 * usF ≤ t → Answers (.clockFailureReset x t) s fun u =>
       u.hks = { s.hks with warmReq := s.hks.warmReq ++ [.watchdog] } ∧ TimeAt s u t ∧ SameRegs s u [] ∧ SameRest s { u with hks := s.hks })
     ∧ (let unfed := s.on HKS_WDG_en = true ∧ s.mode ≠ 0 ∧
           (s.on HKS_WDG_host_feed = true ∧ s.hks.wdgAt + s.rd HKS_WDG_period * 1000 * usF ≤ t
             ∨ ∃ x : Pll, x.val ≠ 0 ∧ s.pllSt x.val = 7 ∧ max (s.pll x.val).since s.hks.wdgAt + s.rd HKS_WDG_period * 1000 * usF ≤ t)
        (unfed → WarmSrc.watchdog ∉ s.hks.warmReq → Answers (.watchdogExpiry t) s fun u =>
       u.hks = { s.hks with warmReq := s.hks.warmReq ++ [.watchdog] } ∧ TimeAt s u t
         ∧ u.bbx = ((s.advance t).bbox 0x04 0 (s.rd HKS_STAT_script)).bbx
         ∧ SameRegs s u [BBX_STAT_count, BBX_HEAD_value, BBX_LOST_value] ∧ SameRest s { u with hks := s.hks, bbx := s.bbx })
        ∧ (¬unfed → Answers (.watchdogExpiry t) s fun u => TimeAt s u t ∧ SameRegs s u [] ∧ SameRest s u)))
  ∧ (∀ (s : State) (sel : Fin 4) (sigN : Bool) (t : Nat), Powered s → s.hks.warmReq ≠ [] →
       Answers (.warmReset sel sigN t) s fun u =>
         (WarmSrc.pin ∈ s.hks.warmReq → u.rd GLB_RST_CAUSE_pin = 1) ∧ (WarmSrc.soft ∈ s.hks.warmReq → u.rd GLB_RST_CAUSE_soft = 1)
           ∧ (WarmSrc.watchdog ∈ s.hks.warmReq → u.rd GLB_RST_CAUSE_watchdog = 1) ∧ (WarmSrc.perst ∈ s.hks.warmReq → u.rd GLB_RST_CAUSE_perst = 1)
           ∧ u.acqSt = 0 ∧ u.mode = 1 ∧ u.rd GLB_MODE_mode = 1 ∧ u.hks.warmReq = [] ∧ u.hks.script = none ∧ u.task = none
           ∧ u.rd HRV_LINK_up = 0 ∧ u.rd HRV_LINK_width = 0 ∧ u.rd HRV_LINK_speed = 0
           ∧ u.hrv.link = (if WarmSrc.perst ∈ s.hks.warmReq ∨ sel = 2 then none else s.hrv.link)
           ∧ u.deep = s.deep ∧ u.scr = s.scr
           ∧ (s.hks.nvOp = none → s.bbx.prep = false → u.nv = s.nv))

/-- The state of the PCI Express link and function (R312, R314, R316, R371): link up, downshift, retraining, L1.2, D3hot and Bus Master
Enable, and nothing else; the downshift also counts, sets HRV_EVT.link and writes its black-box entry. Under strap 0b10, and while
boundary scan has the lands, no link comes up (R366, R440); a link that is down has none of these but D3hot and D0. A Function Level
Reset returns the HRV registers to reset, HRV_LINK with them, and clears the rings, the MSI-X table and the pending bits; the link
itself stays up, and of a stream capture the place its ring has reached is kept. Every register of another block, capture, Trellis and
the memories are as before (R314). The model's own choices it rests on: log entries 63, 64, 98. -/
def Obligations.LinkAndFunctionReset : Prop :=
  (∀ (s : State) (t : Nat), Powered s →
     (∀ width speed, s.hks.sel ≠ 2 → s.lands = true → Answers (.pcieLinkUp width speed t) s fun u =>
       u.rd HRV_LINK_up = 1 ∧ u.rd HRV_LINK_width = width % 2 ^ HRV_LINK_width.w ∧ u.rd HRV_LINK_speed = speed % 2 ^ HRV_LINK_speed.w
         ∧ u.hrv = { s.hrv with l12 := false, link := some (width, speed) } ∧ TimeAt s u t ∧ SameRegs s u [HRV_LINK_up, HRV_LINK_width, HRV_LINK_speed]
         ∧ SameRest s { u with hrv := s.hrv })
     ∧ (∀ width speed, s.hks.sel = 2 ∨ s.lands = false → Answers (.pcieLinkUp width speed t) s fun u =>
       TimeAt s u t ∧ SameRegs s u [] ∧ SameRest s u)
     ∧ (∀ width speed, s.hrv.link.isSome = true → Answers (.laneDownshift width speed t) s fun u =>
       u.hrv = { s.hrv with link := some (width, speed) } ∧ u.rd HRV_LINK_up = 1 ∧ u.rd HRV_LINK_width = width % 2 ^ HRV_LINK_width.w ∧ u.rd HRV_LINK_speed = speed % 2 ^ HRV_LINK_speed.w
         ∧ u.rd HRV_LINK_downshifts = (s.rd HRV_LINK_downshifts + 1) % 2 ^ HRV_LINK_downshifts.w ∧ u.rd HRV_EVT_link = 1 ∧ TimeAt s u t
         ∧ SameRegs s u [HRV_LINK_up, HRV_LINK_width, HRV_LINK_speed, HRV_LINK_downshifts, HRV_EVT_link, BBX_STAT_count, BBX_HEAD_value,
             BBX_LOST_value]
         ∧ SameRest s { u with bbx := s.bbx, hrv := s.hrv })
     ∧ (∀ width speed, s.hrv.link.isSome = true → Answers (.linkRetrain width speed t) s fun u =>
       u.hrv = { s.hrv with link := some (width, speed) } ∧ u.rd HRV_LINK_up = 1 ∧ u.rd HRV_LINK_width = width % 2 ^ HRV_LINK_width.w ∧ u.rd HRV_LINK_speed = speed % 2 ^ HRV_LINK_speed.w
         ∧ (s.hrv.link = some (width, speed) → u.rd HRV_EVT_link = s.rd HRV_EVT_link)
         ∧ (s.hrv.link ≠ some (width, speed) → u.rd HRV_EVT_link = 1)
         ∧ TimeAt s u t ∧ SameRegs s u [HRV_LINK_up, HRV_LINK_width, HRV_LINK_speed, HRV_EVT_link] ∧ SameRest s { u with hrv := s.hrv })
     ∧ (s.hrv.link.isSome = true → Answers (.l1_2Entry t) s fun u =>
       u.hrv = { s.hrv with l12 := true } ∧ TimeAt s u t ∧ SameRegs s u [] ∧ SameRest s { u with hrv := s.hrv })
     ∧ (s.hrv.link = none → ∀ c ∈ [Instr.l1_2Entry t, .laneDownshift 8 4 t, .linkRetrain 8 4 t], Answers c s fun u =>
       TimeAt s u t ∧ SameRegs s u [] ∧ SameRest s u)
     ∧ (∀ bme, Answers (.d3hot bme t) s fun u =>
       u.hrv = (if bme then { s.hrv with bme := false } else { s.hrv with d3 := true }) ∧ TimeAt s u t ∧ SameRegs s u []
         ∧ SameRest s { u with hrv := s.hrv })
     ∧ (∀ bme, Answers (.returnToD0 bme t) s fun u =>
       u.hrv = (if bme then { s.hrv with bme := true } else { s.hrv with d3 := false }) ∧ TimeAt s u t ∧ SameRegs s u []
         ∧ SameRest s { u with hrv := s.hrv }))
  ∧ (∀ (s : State) (t : Nat), Powered s → s.hrv.link.isSome = true →
       Answers (.functionLevelReset t) s fun u =>
         (∀ f : Fld, f.addr / 0x10000 = 0xE → f.addr % 4 = 0 → f.lo < 32 → u.rd f = f.rst)
           ∧ (∀ f : Fld, f.addr / 0x10000 ≠ 0xE → f.addr % 4 = 0 → f.lo < 32 → u.rd f = s.rd f)
           ∧ u.hrv.link = s.hrv.link ∧ u.hrv.cfg = []
           ∧ (s.acqSt = 0 → u.hrv.rings = [])
           ∧ (∀ q ∈ u.hrv.rings, q.2.strm = true ∧ q.2.q = [] ∧ q.2.ready = none ∧ ∃ r, (q.1, r) ∈ s.hrv.rings ∧ q.2.seg = r.seg ∧ q.2.u = r.u)
           ∧ u.hrv.cqs = [] ∧ u.hrv.bme = false ∧ u.hrv.d3 = false ∧ u.msxTab = [] ∧ u.msxPba = []
           ∧ (∀ h ∈ u.held, h.port ≠ .host) ∧ TimeAt s u t
           ∧ SameRest s { u with hrv := s.hrv, caps := s.caps, msxTab := s.msxTab, msxPba := s.msxPba, held := s.held })

/-! ### Modes, tasks and resets -/

/-- A write of GLB_MODE stores its fields, withdraws a return that is held, and asks for a change exactly where it differs from what is in
effect; during an entry to M0 it is only stored (R27, R30). A change of mode takes effect once acquisition is idle and no task or check
runs: a waiting value by MODE_CHANGE, a return held after a wake by RETURN_TO_MODE once it is due (R27, R28, R30), and the watchdog's
period starts again (R386). With no gather to abort, no hop waiting and the sample domain stopped nothing else changes but the tile
DLLs' lock, which a change between M2 and another mode takes away (R110). -/
def Obligations.ModeWriteAndChange : Prop :=
  (∀ (s : State) (p : Port) (v : Word), Reaches p GLB_MODE_mode.addr s →
     Answers (.glbModeWrite p v) s fun u =>
       u.rd GLB_MODE_mode = GLB_MODE_mode.of v.toNat ∧ u.rd GLB_MODE_composite = GLB_MODE_composite.of v.toNat
         ∧ u.rd GLB_MODE_comp_pair = GLB_MODE_comp_pair.of v.toNat ∧ u.rd GLB_MODE_wake_mode = GLB_MODE_wake_mode.of v.toNat
         ∧ (s.hks.entering = false → u.rd GLB_STAT_ret_pend = 0 ∧ (u.rd GLB_STAT_mode_pend = 1 ↔
             u.rd GLB_MODE_mode ≠ s.mode ∨ (u.rd GLB_MODE_composite = 1) ≠ (s.comp = true)
               ∨ (s.comp = true ∧ (u.rd GLB_MODE_comp_pair = 1) ≠ (s.hks.pair = true))))
         ∧ (s.hks.entering = true → u.rd GLB_STAT_ret_pend = s.rd GLB_STAT_ret_pend ∧ u.rd GLB_STAT_mode_pend = s.rd GLB_STAT_mode_pend)
         ∧ SameRegs s u [GLB_MODE_mode, GLB_MODE_composite, GLB_MODE_comp_pair, GLB_MODE_wake_mode, GLB_STAT_ret_pend, GLB_STAT_mode_pend]
         ∧ SameRest s u)
  ∧ (∀ (s : State) (t : Nat), Powered s → s.hks.entering = false → s.acqSt = 0 → s.busyTask = false → s.mode ≠ 0 → s.rd GLB_MODE_mode ≠ 0 →
       let took := fun u : State =>
         u.mode = s.rd GLB_MODE_mode ∧ u.comp = s.on GLB_MODE_composite ∧ u.rd GLB_STAT_mode_pend = 0 ∧ u.rd GLB_STAT_ret_pend = 0
           ∧ u.hks = { s.hks with pair := s.on GLB_MODE_comp_pair, wdgAt := t } ∧ TimeAt s u t
           ∧ (s.dsk.gather = none → s.grid.run = false → s.clk.hopWait = none →
               SameRegs s u [GLB_STAT_active_mode, GLB_STAT_comp_active, GLB_STAT_mode_pend, GLB_STAT_ret_pend, CLK_STAT_dll_lock]
                 ∧ (u.rd CLK_STAT_dll_lock = if (s.mode = 2) ≠ (s.rd GLB_MODE_mode = 2) then 0 else s.rd CLK_STAT_dll_lock)
                 ∧ SameRest s { u with hks := s.hks })
       (s.on GLB_STAT_mode_pend = true → Answers (.modeChange t) s took)
         ∧ (s.on GLB_STAT_ret_pend = true → s.acq.retOk = true → Answers (.returnToMode t) s took))

/-- An entry to M0 ends with M0 in effect and near memory in retention, and no latch counts as set since; a mode but M0 that was stored
during the entry is a host wake at that moment, and the wake then starts (R30, R387). In M0 the latch settings that meet the class in
effect, the time of HKS_WAKE_AT or the host's taking the link out of L1.2 start a wake with its channel, class and time, and all three
ADPLLs (DEDUCED, log entry 69); requests that follow the host's wait with it, those of BAR2 among them; without them nothing happens. In
any other mode a request of the host is performed: configuration space answers from the moment the link is up, in the layout that the
model presumes (log entry 98) (R30, R307, R371, R387, R388, R389). The model's own choices it rests on: log entries 65, 68. -/
def Obligations.DormantEntryAndWake : Prop :=
  (∀ (s : State) (t : Nat), Powered s → s.hks.entering = true →
     let asleep := fun u : State =>
       u.mode = 0 ∧ u.comp = false ∧ u.rd GLB_STAT_mode_pend = 0 ∧ u.rd GLB_STAT_ret_pend = 0 ∧ u.rd NMC_STAT_retention = 1
         ∧ u.hks.entering = false ∧ u.hks.m0At = t ∧ u.hks.sets = []
         ∧ u.hks.waking = (if s.rd GLB_MODE_mode = 0 then none else some (0x7FE, 0, t / nsF * nsF))
     Answers (.modeChange t) s asleep ∧ Answers (.returnToMode t) s asleep)
  ∧ (∀ (s : State) (t : Nat), Powered s →
       (s.mode = 0 → s.hks.waking = none →
         (∀ ch k, s.latchMet = some (ch, k) → Answers (.latchWake t) s fun u =>
           u.hks.waking = some (ch, s.wakeClass, k / nsF * nsF) ∧ u.mode = 0 ∧ TimeAt s u t
             ∧ (∀ x, x < 3 → s.pllSt x = 0 → u.pllSt x = 1 ∨ u.pllSt x = 2) ∧ (∀ x, x < 3 → s.pllSt x ≠ 0 → u.pllSt x = s.pllSt x))
         ∧ (s.latchMet = none → Answers (.latchWake t) s fun u => TimeAt s u t ∧ SameRegs s u [] ∧ SameRest s u)
         ∧ (s.on HKS_WAKE_AT_HI_en = true → s.wakeAt ≤ t % 2 ^ 72 → Answers (.timerWake t) s fun u =>
           u.rd HKS_WAKE_AT_HI_en = 0 ∧ u.mode = 0 ∧ TimeAt s u t
             ∧ u.hks.waking = some (0x7FD, 4, max (t / 2 ^ 72 * 2 ^ 72 + s.wakeAt) s.hks.m0At / nsF * nsF))
         ∧ (s.on HKS_WAKE_AT_HI_en = false ∨ t % 2 ^ 72 < s.wakeAt → Answers (.timerWake t) s fun u =>
           TimeAt s u t ∧ SameRegs s u [] ∧ SameRest s u)
         ∧ (∀ r, s.hks.hostReq = none → s.hrv.l12 = true → Answers (.hostWake r t) s fun u =>
           u.hks.waking = some (0x7FE, 0, max s.tmb.kt t / nsF * nsF) ∧ u.hks.hostReq = some r ∧ u.hrv.l12 = false ∧ u.mode = 0
             ∧ TimeAt s u t)
         ∧ (∀ r, s.hks.hostReq = none → s.hrv.l12 = false → Answers (.hostWake r t) s fun u =>
           TimeAt s u t ∧ SameRegs s u [] ∧ SameRest s u))
       ∧ (s.mode = 0 → s.hks.hostReq ≠ none → ∀ r, Answers (.hostWake r t) s fun u =>
           u.hks = { s.hks with hostMore := s.hks.hostMore ++ [r] } ∧ TimeAt s u t ∧ SameRegs s u [] ∧ SameRest s { u with hks := s.hks })
       ∧ (s.mode = 0 → ∀ (a n w : Nat) (b : List Byte) (c e : List Nat),
           exec (.bar2Read a n c e ⟨w, t⟩) s = exec (.hostWake (.bar2Read a n c e) t) s
             ∧ exec (.bar2Write a b ⟨w, t⟩) s = exec (.hostWake (.bar2Write a b) t) s)
       ∧ (s.mode ≠ 0 → Answers (.latchWake t) s (fun u => TimeAt s u t ∧ SameRegs s u [] ∧ SameRest s u)
           ∧ Answers (.timerWake t) s (fun u => TimeAt s u t ∧ SameRegs s u [] ∧ SameRest s u))
       ∧ (s.mode ≠ 0 → s.hrv.link = none → ∀ r, Answers (.hostWake r t) s (fun u => TimeAt s u t ∧ SameRegs s u [] ∧ SameRest s u))
       ∧ (s.mode ≠ 0 → s.hrv.link ≠ none → ∀ (a n : Nat) (v : Word) (be : BitVec 4) (b : List Byte) (c e : List Nat) (r : CfgReg),
           let s0 := s.advance t
           let word := le 4 (s.configWord a)
           Answers (.hostWake (.config a) t) s (fun u => u.hrv = { s.hrv with cpl := word, cplPoison := false, l12 := false }
               ∧ TimeAt s u t ∧ SameRegs s u [] ∧ SameRest s { u with hrv := s.hrv, free := s.free })
             ∧ Answers (.hostWake (.configWrite r v) t) s (fun u => u.cfgReg r = v.toNat &&& cfgMask r ∧ (∀ x, x ≠ r → u.cfgReg x = s.cfgReg x)
               ∧ TimeAt s u t ∧ SameRegs s u [] ∧ SameRest s { u with hrv := s.hrv, msix := s.msix, msxPba := s.msxPba })
             ∧ Answers (.hostWake (.barRead a) t) s (fun u => u = State.portRead .host a s0)
             ∧ Answers (.hostWake (.barWrite a be v) t) s (fun u => u = State.portWrite .host a be.toNat v.toNat s0)
             ∧ Answers (.hostWake (.bar2Read a n c e) t) s (fun u => u = State.bar2Read a n c e 0 s0.tmb.kt s0)
             ∧ Answers (.hostWake (.bar2Write a b) t) s (fun u => u = State.bar2Write a b 0 s0.tmb.kt s0)
             ∧ Answers (.hostWake .other t) s (fun u => TimeAt s u t ∧ SameRegs s u [] ∧ SameRest s u)))

/-! ### Register accesses -/

/-- What a write does by the access code of a field, with the bytes that are enabled (R6, R310): GLB_RST_CTL is RW, GLB_RST_CAUSE is W1C,
STP_DB_OUT is W1S and GLB_SERIAL_LO is RO. While acquisition is not idle a write to a register of Trellis or Hedge is ignored and sets
the block's wr_ign, and one to another block from ACQ to TIM, or to an offset that holds no register, is ignored without a trace, but
for the registers that stay open (R165, R199, R201, R234, R252, R270, R310). The model's own choices it rests on: log entry 10. -/
def Obligations.RegisterWrites : Prop :=
  (∀ (s : State) (p : Port) (be : BitVec 4) (v : Word),
     (Reaches p GLB_RST_CTL_perst_warm.addr s → Answers (.registerWrite p GLB_RST_CTL_perst_warm.addr be v) s fun u =>
       u.rd GLB_RST_CTL_perst_warm = (if be.getLsbD 0 then v.toNat % 2 else s.rd GLB_RST_CTL_perst_warm)
         ∧ SameRegs s u [GLB_RST_CTL_perst_warm] ∧ SameRest s u)
     ∧ (Reaches p GLB_RST_CAUSE_aon.addr s → Answers (.registerWrite p GLB_RST_CAUSE_aon.addr be v) s fun u =>
       (∀ f ∈ [GLB_RST_CAUSE_perst, GLB_RST_CAUSE_watchdog, GLB_RST_CAUSE_soft, GLB_RST_CAUSE_pin, GLB_RST_CAUSE_off, GLB_RST_CAUSE_aon],
           u.rd f = if be.getLsbD 0 then (if v.getLsbD f.lo then 0 else s.rd f % 2) else s.rd f)
         ∧ SameRegs s u [GLB_RST_CAUSE_perst, GLB_RST_CAUSE_watchdog, GLB_RST_CAUSE_soft, GLB_RST_CAUSE_pin, GLB_RST_CAUSE_off,
             GLB_RST_CAUSE_aon]
         ∧ SameRest s u)
     ∧ (Reaches p GLB_SERIAL_LO_serial.addr s → Answers (.registerWrite p GLB_SERIAL_LO_serial.addr be v) s fun u =>
       SameRegs s u [] ∧ SameRest s u)
     ∧ (Reaches p STP_DB_OUT_db.addr s → Answers (.hostDoorbell p v) s fun u =>
       u.rd STP_DB_OUT_db = s.rd STP_DB_OUT_db % 2 ^ 16 ||| v.toNat % 2 ^ 16 ∧ SameRegs s u [STP_DB_OUT_db] ∧ SameRest s u))
  ∧ (∀ (s : State) (p : Port) (a : Nat) (be : BitVec 4) (v : Word), Reaches p a s → s.acqSt ≠ 0 → a % 4 = 0 → 0x50000 ≤ a → a < 0xB0000 →
       openRegs.contains a = false →
       Answers (.registerWrite p a be v) s fun u =>
         ((regAt a).isSome = true → 0x50000 ≤ a ∧ a < 0x60000 → u.rd TRL_STAT_wr_ign = 1 ∧ SameRegs s u [TRL_STAT_wr_ign])
           ∧ ((regAt a).isSome = true → 0x70000 ≤ a ∧ a < 0x80000 → u.rd HDG_STAT_wr_ign = 1 ∧ SameRegs s u [HDG_STAT_wr_ign])
           ∧ ((regAt a).isNone = true ∨ (0x60000 ≤ a ∧ a < 0x70000) ∨ 0x80000 ≤ a → SameRegs s u [])
           ∧ SameRest s u)

/-- A write to space that holds no register is discarded (R310, R424), and a host write to the scratchpad stores its enabled bytes and no
other byte (R310, R338). A read of the low word of KT72 captures all 72 bits, and no register changes; the free values that a read may
have shown are used up (R71). The model's own choices it rests on: log entry 80. -/
def Obligations.ScratchAndCaptureReads : Prop :=
  (∀ (s : State) (be : BitVec 4) (v : Word),
     (∀ (p : Port) (a : Nat), Reaches p a s → (0x150000 ≤ a ∧ a < 0x200000) ∨ (0x210000 ≤ a ∧ a < 0x4000000) →
       Answers (.registerWrite p a be v) s fun u => SameRegs s u [] ∧ SameRest s u)
     ∧ (∀ i, i < 0x10000 → i % 4 = 0 → Reaches .host (0x200000 + i) s → Answers (.registerWrite .host (0x200000 + i) be v) s fun u =>
       (∀ b, u.scr.read b = if i ≤ b ∧ b < i + 4 ∧ be.getLsbD (b - i) = true then BitVec.ofNat 8 (v.toNat / 256 ^ (b - i)) else s.scr.read b)
         ∧ SameRegs s u [] ∧ SameRest s { u with scr := s.scr }))
  ∧ (∀ (s : State) (p : Port), Reaches p TMB_KT_LO_kt.addr s → s.trl.restart = none →
       Answers (.captureRead p TMB_KT_LO_kt.addr) s fun u =>
         u.readWord (TMB_KT_LO_kt.addr + 4) = s.tmb.kt / 2 ^ 32 % 2 ^ 32 ∧ u.readWord (TMB_KT_LO_kt.addr + 8) = s.tmb.kt / 2 ^ 64 % 2 ^ 8
           ∧ (p = .host → u.hrv.cpl = le 4 (s.tmb.kt % 2 ^ 32) ∧ u.hrv.cplPoison = false)
           ∧ (p ≠ .station → SameRegs s u []) ∧ (p = .station → SameRegs s u [STP_SW_DATA_LO_data, STP_SW_DATA_HI_data])
           ∧ SameRest s { u with caps := s.caps, free := s.free, hrv := s.hrv })

/-! ### M7 tasks and the probe check -/

/-- The verdict of a probe check is the first of the table of R60 whose condition holds; voltages in 0.25 mV. At reset every channel reads
verdict 0. -/
def Obligations.ProbeVerdicts : Prop :=
  ∀ (s : State) (active : Bool) (v0 v1 : Int),
    let beyond := 28000 < v0 ∨ v0 < -20000 ∨ 28000 < v1 ∨ v1 < -20000
    let at0 := active = false ∧ -80 ≤ v0 ∧ v0 ≤ 80
    let near := fun r : Int => r ≠ 0 ∧ 4 * r - 80 ≤ v0 ∧ v0 ≤ 4 * r + 80
    let atRail := active = false ∧ (near (s.rdS INP_PCHK_RAIL_rail_a) ∨ near (s.rdS INP_PCHK_RAIL_rail_b))
    (beyond → s.verdict active v0 v1 = 5) ∧ (¬beyond → 400 ≤ v1 - v0 → s.verdict active v0 v1 = 2)
      ∧ (¬beyond → v1 - v0 < 400 → at0 → s.verdict active v0 v1 = 3)
      ∧ (¬beyond → v1 - v0 < 400 → ¬at0 → atRail → s.verdict active v0 v1 = 4)
      ∧ (¬beyond → v1 - v0 < 400 → ¬at0 → ¬atRail → s.verdict active v0 v1 = 1)
      ∧ (∀ ch, State.reset.rd (INP_PCHK_verdict ch) = 0)

/-- A task is started by its row in M7 with nothing running: GLB_M7_TASK shows it, and it holds what the row measures; outside M7, and once
an entry to M0 has started, the start is refused and nothing runs (R26, R49, R98). DSK_CAL_CTL.inj_start and tdc_start start tasks 3 and
4 in M7 with nothing running; elsewhere a start is ignored and sets refused, in M7 in both registers. Of two starts in one write the
injector's runs, the model's choice (R26, R98). The end of a task stores it and its status, sets done, and sets the done bit of the
task's own block; a TDC calibration holds the temperature it was made at (R26, R98, R100). Of near memory only the calibration unit's
tiles, 0 to 3, change (R13). A write of GLB_M7_TASK whose task is 0 starts nothing: it clears done and refused where they are written as
1, and nothing else changes (R26). The model's own choices it rests on: log entries 11, 95, 96, 117. -/
def Obligations.CalibrationTasks : Prop :=
  (∀ (s : State) (p : Port) (t : Nat), Powered s → Reaches p GLB_M7_TASK_task.addr s → s.task = none → s.inp.pchk = none →
     let runs := fun (code : Nat) (es : List (Nat × Nat × Int × Int × Int)) (u : State) =>
       (s.mode = 7 → s.hks.entering = false → u.rd GLB_M7_TASK_busy = 1 ∧ u.rd GLB_M7_TASK_task_run = code ∧ u.task = some ⟨code, max s.tmb.kt t, es⟩
           ∧ (code = 3 ∨ code = 4 → u.rd DSK_CAL_CTL_busy = 1)
           ∧ SameRegs s u [GLB_M7_TASK_busy, GLB_M7_TASK_task_run, GLB_M7_TASK_refused, GLB_M7_TASK_done, DSK_CAL_CTL_busy]
           ∧ u.rd GLB_M7_TASK_refused = s.rd GLB_M7_TASK_refused % 2
           ∧ (code = 1 ∨ code = 6 → u.rd DSK_CAL_CTL_busy = s.rd DSK_CAL_CTL_busy))
         ∧ (s.mode ≠ 7 ∨ s.hks.entering = true → u.rd GLB_M7_TASK_refused = 1 ∧ u.task = none ∧ SameRegs s u [GLB_M7_TASK_refused, GLB_M7_TASK_done])
         ∧ u.rd GLB_M7_TASK_done = s.rd GLB_M7_TASK_done % 2 ∧ TimeAt s u t ∧ SameRest s { u with task := s.task }
     (∀ rs, Answers (.thresholdCalibration p rs t) s (runs 1 (s.thrEntries (rs.map fun x => (x.1.val, x.2)))))
       ∧ (∀ rs, Answers (.injectorCalibration p rs t) s
           (runs 3 ((rs.filter fun x => decide (x.1.val < s.nChan)).map fun x => (x.1.val, 0, x.2, 0, 0))))
       ∧ (∀ cs, Answers (.tdcCalibration p cs t) s
           (runs 4 ((cs.filter fun c => decide (c.val < s.nChan)).map fun c => (c.val, 1, 0, 0, 0))))
       ∧ (∀ fs, Answers (.selfTest p fs t) s (runs 6 (fs.map fun x => (x.2, x.1, 0, 0, 0)))))
  ∧ (∀ (s : State) (p : Port), Reaches p DSK_CAL_CTL_busy.addr s →
       let free := s.mode = 7 ∧ s.hks.entering = false ∧ s.task = none ∧ s.inp.pchk = none
       let start := fun (v : Word) (P : State → Prop) => Answers (.registerWrite p DSK_CAL_CTL_busy.addr 15 v) s fun u =>
         P u ∧ (∀ f ∈ [DSK_CAL_CTL_inj_done, DSK_CAL_CTL_tdc_done], u.rd f = s.rd f % 2)
           ∧ SameRegs s u [DSK_CAL_CTL_inj_done, DSK_CAL_CTL_tdc_done, DSK_CAL_CTL_refused, DSK_CAL_CTL_busy, GLB_M7_TASK_refused,
               GLB_M7_TASK_busy, GLB_M7_TASK_task_run]
           ∧ SameRest s { u with task := s.task }
       let runs := fun (code : Nat) (u : State) => u.task = some ⟨code, s.tmb.kt, []⟩ ∧ u.rd GLB_M7_TASK_busy = 1
         ∧ u.rd GLB_M7_TASK_task_run = code ∧ u.rd DSK_CAL_CTL_busy = 1
       let turned := fun (both : Prop) (u : State) => u.rd DSK_CAL_CTL_refused = 1 ∧ (both → u.rd GLB_M7_TASK_refused = 1)
         ∧ (¬both → u.rd GLB_M7_TASK_refused = s.rd GLB_M7_TASK_refused)
       let calm := fun u : State => u.rd DSK_CAL_CTL_refused = s.rd DSK_CAL_CTL_refused % 2
         ∧ u.rd GLB_M7_TASK_refused = s.rd GLB_M7_TASK_refused
       (free → start 1 (fun u => runs 3 u ∧ calm u) ∧ start 2 (fun u => runs 4 u ∧ calm u)
           ∧ start 3 (fun u => runs 3 u ∧ turned True u))
         ∧ (¬free → ∀ v ∈ [1, 2, 3], start v fun u => turned (s.mode = 7) u ∧ u.task = s.task
             ∧ (∀ f ∈ [DSK_CAL_CTL_busy, GLB_M7_TASK_busy, GLB_M7_TASK_task_run], u.rd f = s.rd f)))
  ∧ (∀ (s : State) (t : Nat) (k : Task), Powered s → s.task = some k → k.code ≠ 2 →
       Answers (.m7TaskComplete t) s fun u =>
         u.task = none ∧ u.rd GLB_M7_TASK_busy = 0 ∧ u.rd GLB_M7_TASK_task_run = 0 ∧ u.rd GLB_M7_TASK_done = 1
           ∧ u.rd GLB_M7_TASK_last_task = k.code % 8 ∧ u.rd GLB_M7_TASK_last_status = 0 ∧ u.rd DSK_CAL_CTL_busy = 0
           ∧ (k.code = 3 → u.rd DSK_CAL_CTL_inj_done = 1)
           ∧ (k.code = 4 → u.rd DSK_CAL_CTL_tdc_done = 1 ∧ u.rd DSK_TCAL_TEMP_valid = 1
               ∧ u.rd DSK_TCAL_TEMP_temp = s.rd TMB_TEMP_temp % 2 ^ DSK_TCAL_TEMP_temp.w
               ∧ (s.acq.seg = none → SameRegs s u [GLB_M7_TASK_busy, GLB_M7_TASK_task_run, GLB_M7_TASK_done, GLB_M7_TASK_last_task,
                     GLB_M7_TASK_last_status, DSK_CAL_CTL_busy, DSK_CAL_CTL_tdc_done, DSK_TCAL_TEMP_valid, DSK_TCAL_TEMP_temp]
                   ∧ TimeAt s u t ∧ SameRest s { u with task := s.task, acq := s.acq, near := s.near, poison := s.poison, free := s.free }))
           ∧ (s.mode = 7 → s.comp = false → ∀ a, 2 ^ 26 ≤ a → u.near.read a = s.near.read a))
  ∧ (∀ (s : State) (p : Port) (v : Word), Reaches p GLB_M7_TASK_task.addr s →
       Answers (.m7TaskClear p v) s fun u =>
         u.rd GLB_M7_TASK_refused = (if v.getLsbD 30 then 0 else s.rd GLB_M7_TASK_refused % 2)
           ∧ u.rd GLB_M7_TASK_done = (if v.getLsbD 29 then 0 else s.rd GLB_M7_TASK_done % 2)
           ∧ SameRegs s u [GLB_M7_TASK_refused, GLB_M7_TASK_done] ∧ SameRest s u)

/-- A probe check starts by INP_PCHK_CTL while acquisition is idle, in M7 as task 2 by either register, on every channel that asks for it,
and opens the activity window. While acquisition is not idle, a check or a task runs, or an entry to M0 has started, it is refused, in
M7 in both registers where INP_PCHK_CTL was written (R26, R58). A probe check goes on as R59 lays down: the window closes 1 ms after the
start, and each channel in turn enters UNRESOLVED for its 8 µs slot; by the end of the last slot the check has ended, with done, busy 0
and every measured channel's verdict in INP_PCHK, and the next command with its time finds it so (R43, R61). The model's own choices it
rests on: log entries 15, 95. -/
def Obligations.ProbeCheckCourse : Prop :=
  (∀ (s : State) (p : Port) (t : Nat),
     let check := fun task : Bool => { s.inp with pchk := some ⟨max s.tmb.kt t, false, task, s.pchkChs, 0, [], true, [], none⟩ }
     let free := s.inp.pchk = none ∧ s.hks.entering = false
     let arm := fun u : State => u.rd INP_PCHK_CTL_at_arm = s.rd INP_PCHK_CTL_at_arm % 2 ∧ TimeAt s u t
     let bits := fun u : State => u.rd GLB_M7_TASK_refused = s.rd GLB_M7_TASK_refused % 2 ∧ u.rd GLB_M7_TASK_done = s.rd GLB_M7_TASK_done % 2
         ∧ TimeAt s u t
     let runs := fun u : State => u.rd INP_PCHK_CTL_busy = 1 ∧ u.rd GLB_M7_TASK_busy = 1 ∧ u.rd GLB_M7_TASK_task_run = 2
         ∧ u.inp = check true ∧ u.task = some ⟨2, max s.tmb.kt t, []⟩ ∧ SameRest s { u with inp := s.inp, task := s.task }
     (s.mode ≠ 7 → Reaches p INP_PCHK_CTL_start.addr s →
         (free → s.acqSt = 0 → Answers (.probeCheckStart p false t) s fun u =>
           u.rd INP_PCHK_CTL_busy = 1 ∧ u.inp = check false ∧ arm u
             ∧ SameRegs s u [INP_PCHK_CTL_busy, INP_PCHK_CTL_at_arm] ∧ SameRest s { u with inp := s.inp })
         ∧ (¬free ∨ s.acqSt ≠ 0 → Answers (.probeCheckStart p false t) s fun u =>
           u.rd INP_PCHK_STAT_refused = 1 ∧ arm u ∧ SameRegs s u [INP_PCHK_STAT_refused, INP_PCHK_CTL_at_arm] ∧ SameRest s u))
       ∧ (s.mode = 7 → Reaches p INP_PCHK_CTL_start.addr s →
         (free → s.task = none → Answers (.probeCheckStart p false t) s fun u =>
           runs u ∧ arm u ∧ SameRegs s u [INP_PCHK_CTL_busy, INP_PCHK_CTL_at_arm, GLB_M7_TASK_busy, GLB_M7_TASK_task_run])
         ∧ (¬free ∨ s.task ≠ none → Answers (.probeCheckStart p false t) s fun u =>
           u.rd INP_PCHK_STAT_refused = 1 ∧ u.rd GLB_M7_TASK_refused = 1 ∧ arm u
             ∧ SameRegs s u [INP_PCHK_STAT_refused, INP_PCHK_CTL_at_arm, GLB_M7_TASK_refused] ∧ SameRest s u))
       ∧ (Reaches p GLB_M7_TASK_task.addr s →
         (s.mode = 7 → free → s.task = none → Answers (.probeCheckStart p true t) s fun u =>
           runs u ∧ bits u ∧ SameRegs s u [INP_PCHK_CTL_busy, GLB_M7_TASK_busy, GLB_M7_TASK_task_run, GLB_M7_TASK_refused, GLB_M7_TASK_done])
         ∧ (s.mode ≠ 7 ∨ ¬free ∨ s.task ≠ none → Answers (.probeCheckStart p true t) s fun u =>
           u.rd GLB_M7_TASK_refused = 1 ∧ u.rd GLB_M7_TASK_done = s.rd GLB_M7_TASK_done % 2 ∧ TimeAt s u t
             ∧ SameRegs s u [GLB_M7_TASK_refused, GLB_M7_TASK_done] ∧ SameRest s u)))
  ∧ (∀ (s : State) (t : Nat) (c : PChk), Powered s → s.inp.pchk = some c →
       (c.winOpen = true → c.start + 1000 * usF ≤ t → c.todo ≠ [] → Answers (.probeActivityWindowClose t) s fun u =>
         u.inp = { s.inp with pchk := some { c with winOpen := false } } ∧ TimeAt s u t ∧ SameRegs s u [] ∧ SameRest s { u with inp := s.inp })
       ∧ (∀ (ch : Chan) (v0 v1 : Int), c.winOpen = false → c.cur = none → c.todo[c.idx]? = some ch.val → s.armed = false →
           Answers (.probeChannelMeasurement ch v0 v1 t) s fun u =>
             u.rd (INP_LSTAT_unres ch.val) = 1 ∧ look u.inp.settle ch.val = some (t + 8 * usF)
               ∧ u.inp.pchk = some { c with cur := some ((ch.val, s.verdict (c.active.contains ch.val) v0 v1, v0, v1), t) }
               ∧ TimeAt s u t ∧ SameRegs s u [INP_LSTAT_unres ch.val] ∧ SameRest s { u with inp := s.inp })
       ∧ (∀ e k, c.cur = some (e, k) → k + 8 * usF ≤ t → c.idx + 1 = c.todo.length → c.atArm = false →
           ∀ (ch : Chan) (v0 v1 : Int), ∃ u, exec (.probeChannelMeasurement ch v0 v1 t) s = .next (State.settle s u)
             ∧ u.inp.pchk = none ∧ u.rd INP_PCHK_STAT_done = 1 ∧ u.rd INP_PCHK_CTL_busy = 0 ∧ TimeAt s u t
               ∧ (∀ d ∈ c.done ++ [e], d.1 < 1024 → (∀ x ∈ c.done ++ [e], x.1 = d.1 → x = d) → u.rd (INP_PCHK_verdict d.1) = d.2.1 % 8)
               ∧ u.rd INP_PCHK_STAT_n_open = ((c.done ++ [e]).filter fun d => d.2.1 = 2).length % 2 ^ INP_PCHK_STAT_n_open.w))

/-! ### Input channels -/

/-- A write of a populated channel's threshold code or hysteresis stores it, and one that changes it puts the channel into UNRESOLVED until
2 µs after the write; one that leaves it unchanged does not. A channel that the variant lacks is not written (R43, R44, R65). Once its
settling period is over a channel resolves to the level of the side its input, at v µV, lies on, or stays UNRESOLVED where it lies in
the band; the change is no edge for any consumer (R44, R45). The model's own choices it rests on: log entries 12, 93, 124. -/
def Obligations.ThresholdsAndResolution : Prop :=
  (∀ (s : State) (p : Port) (ch : Chan) (v : Word) (t : Nat),
     (Reaches p (INP_THR_code ch.val).addr s → ch.val < s.nChan → Answers (.thresholdWrite p ch false v t) s fun u =>
       u.rd (INP_THR_code ch.val) = v.toNat % 2 ^ 12 ∧ TimeAt s u t
         ∧ (v.toNat % 2 ^ 12 ≠ s.rd (INP_THR_code ch.val) →
             u.rd (INP_LSTAT_unres ch.val) = 1 ∧ look u.inp.settle ch.val = some (max s.tmb.kt t + 2 * usF))
         ∧ (v.toNat % 2 ^ 12 = s.rd (INP_THR_code ch.val) →
             u.rd (INP_LSTAT_unres ch.val) = s.rd (INP_LSTAT_unres ch.val) ∧ u.inp.settle = s.inp.settle ∧ u.acq = s.acq)
         ∧ SameRegs s u [INP_THR_code ch.val, INP_LSTAT_unres ch.val] ∧ SameRest s { u with inp := s.inp, acq := s.acq })
     ∧ (Reaches p (INP_CFG_hyst ch.val).addr s → ch.val < s.nChan → Answers (.thresholdWrite p ch true v t) s fun u =>
       u.rd (INP_CFG_hyst ch.val) = v.toNat % 8 ∧ u.rd (INP_CFG_latch_edge ch.val) = v.toNat / 16 % 4 ∧ TimeAt s u t
         ∧ (v.toNat % 8 ≠ s.rd (INP_CFG_hyst ch.val) →
             u.rd (INP_LSTAT_unres ch.val) = 1 ∧ look u.inp.settle ch.val = some (max s.tmb.kt t + 2 * usF))
         ∧ (v.toNat % 8 = s.rd (INP_CFG_hyst ch.val) → u.rd (INP_LSTAT_unres ch.val) = s.rd (INP_LSTAT_unres ch.val) ∧ u.acq = s.acq)
         ∧ SameRegs s u [INP_CFG_drift_en ch.val, INP_CFG_pchk_en ch.val, INP_CFG_to_wake ch.val, INP_CFG_to_irq ch.val,
             INP_CFG_to_tdc ch.val, INP_CFG_latch_auto ch.val, INP_CFG_latch_edge ch.val, INP_CFG_hyst ch.val, INP_LSTAT_unres ch.val]
         ∧ SameRest s { u with inp := s.inp, acq := s.acq })
     ∧ (∀ cfg, Reaches p (if cfg then (INP_CFG_hyst ch.val).addr else (INP_THR_code ch.val).addr) s → s.nChan ≤ ch.val →
         Answers (.thresholdWrite p ch cfg v t) s fun u => TimeAt s u t ∧ SameRegs s u [] ∧ SameRest s u))
  ∧ (∀ (s : State) (ch : Chan) (v : Int) (t : Nat), Powered s → ch.val < s.nChan → s.rd (INP_LSTAT_unres ch.val) = 1 → s.mode ≠ 0 →
       s.grid.run = true → (∀ e, look s.inp.settle ch.val = some e → e ≤ t) →
       (∀ level, s.resolvesTo ch.val v = some level → Answers (.resolution ch v t) s fun u =>
         u.rd (INP_LSTAT_unres ch.val) = 0 ∧ u.on (INP_LSTAT_level ch.val) = level ∧ look u.inp.settle ch.val = none ∧ TimeAt s u t
           ∧ SameRegs s u [INP_LSTAT_unres ch.val, INP_LSTAT_level ch.val]
           ∧ SameRest s { u with inp := s.inp, free := s.free, acq := { u.acq with log := s.acq.log } })
       ∧ (s.resolvesTo ch.val v = none → Answers (.resolution ch v t) s fun u => TimeAt s u t ∧ SameRegs s u [] ∧ SameRest s u)
       ∧ (0 < s.hystMv ch.val → s.resolvesTo ch.val v = s.side ch.val v))

/-- A background reading of a threshold is the mean of its four conversions; one more than 8 mV from nominal sets drift, and a channel
written within the last 20 µs is skipped (R47, R48). Readings are in 0.25 mV. Overdrive sets ovr, and the first time ovr_seen with one
black-box entry; the input's return clears only ovr (R62). The model's own choices it rests on: log entry 14. -/
def Obligations.ThresholdReadings : Prop :=
  (∀ (s : State) (ch : Chan) (c0 c1 c2 c3 : Int) (t : Nat), Powered s → s.rd INP_RDBK_CTL_en = 1 → s.mode ≠ 0 → ch.val < s.nChan →
     s.rd (INP_CFG_drift_en ch.val) = 1 →
     let far := 16 * 8 * 4095 < (4095 * (c0 + c1 + c2 + c3) - 16 * (-4000 * 4095 + 10000 * (s.rd (INP_THR_code ch.val) : Int))).natAbs
     ((∀ w, look s.inp.thrAt ch.val = some w → w + 20 * usF < t) → Answers (.thresholdReadback ch c0 c1 c2 c3 t) s fun u =>
         u.rd (INP_RDBK_value ch.val) = satU 16 (rnd (c0 + c1 + c2 + c3) 4) ∧ u.rd (INP_RDBK_valid ch.val) = 1
           ∧ (far → u.rd (INP_LSTAT_drift ch.val) = 1)
           ∧ (¬far → TimeAt s u t ∧ SameRegs s u [INP_RDBK_value ch.val, INP_RDBK_valid ch.val, INP_RDBK_CTL_sweeps]
               ∧ SameRest s { u with inp := { u.inp with swept := s.inp.swept } }))
       ∧ (∀ w, look s.inp.thrAt ch.val = some w → t ≤ w + 20 * usF → Answers (.thresholdReadback ch c0 c1 c2 c3 t) s fun u =>
         TimeAt s u t ∧ SameRegs s u [INP_RDBK_CTL_sweeps] ∧ SameRest s { u with inp := { u.inp with swept := s.inp.swept } }))
  ∧ (∀ (s : State) (ch : Chan) (t : Nat), Powered s → ch.val < s.nChan →
       (Answers (.overdrive ch t) s fun u =>
         u.rd (INP_LSTAT_ovr ch.val) = 1 ∧ u.rd (INP_LSTAT_ovr_seen ch.val) = 1
           ∧ (s.rd (INP_LSTAT_ovr_seen ch.val) = 1 → TimeAt s u t ∧ SameRegs s u [INP_LSTAT_ovr ch.val] ∧ SameRest s u)
           ∧ (s.rd (INP_LSTAT_ovr_seen ch.val) = 0 → s.acqSt = 0 → u.bbx = ((s.advance t).bbox 0x39 ch.val 0).bbx ∧ TimeAt s u t
               ∧ SameRegs s u [INP_LSTAT_ovr ch.val, INP_LSTAT_ovr_seen ch.val, BBX_STAT_count, BBX_HEAD_value, BBX_LOST_value]
               ∧ SameRest s { u with bbx := s.bbx }))
       ∧ (Answers (.overdriveEnd ch t) s fun u =>
         u.rd (INP_LSTAT_ovr ch.val) = 0 ∧ TimeAt s u t ∧ SameRegs s u [INP_LSTAT_ovr ch.val] ∧ SameRest s u))

/-- An edge that the latch selects sets it, at its deskewed time, at the start of its sample beyond the TDC's rate, or at 1 ns in M0; with
the latch set already it sets again and leaves the captured time; one whose time lies in a sample before the channel resolved shows only
as its level; a channel that is unresolved, absent, or at that level already, and an input inside the band, has no edge (R41, R45, R50,
R54, R55, R56, R93). The model's own choices it rests on: log entries 92, 93, 94. -/
def Obligations.EdgeLatches : Prop :=
  ∀ (s : State) (ch : Chan) (rising beyond : Bool) (v : Int) (traw sstart : Nat), Powered s →
    let deskewed := ((traw : Int) - s.dskD ch.val).toNat
    let sel := s.rd (INP_CFG_latch_edge ch.val) = 3 ∨ s.rd (INP_CFG_latch_edge ch.val) = (if rising then 1 else 2)
    let te := if s.mode = 0 then traw / nsF * nsF else if beyond then sstart
      else if s.tdcBeyond ch.val traw then s.grid.start (s.grid.posOf deskewed) else deskewed
    (s.side ch.val v = some rising → ch.val < s.nChan → s.rd (INP_LSTAT_unres ch.val) = 0 → s.rd (INP_LSTAT_level ch.val) = (if rising then 0 else 1) →
      s.rd (INP_CFG_latch_edge ch.val) < 4 → s.mode = 0 ∨ s.beforeRes ch.val te = false →
      Answers (.channelEdge ch v beyond traw sstart) s fun u =>
        u.on (INP_LSTAT_level ch.val) = rising
          ∧ (sel → s.rd (INP_LSTAT_set ch.val) = 0 → u.rd (INP_LSTAT_set ch.val) = 1
              ∧ u.rd (INP_LSTAT_again ch.val) = s.rd (INP_LSTAT_again ch.val)
              ∧ (s.on (INP_CFG_to_tdc ch.val) = true → u.rd (INP_LTIME_kt ch.val) = te % 2 ^ 72
                  ∧ u.on (INP_LTIME_HI_res1ns ch.val) = decide (s.mode = 0) ∧ u.on (INP_LTIME_HI_valid ch.val) = !decide (s.mode = 0)))
          ∧ (sel → s.rd (INP_LSTAT_set ch.val) = 1 → u.rd (INP_LSTAT_set ch.val) = 1 ∧ u.rd (INP_LSTAT_again ch.val) = 1
              ∧ u.rd (INP_LTIME_kt ch.val) = s.rd (INP_LTIME_kt ch.val))
          ∧ (¬sel → u.rd (INP_LSTAT_set ch.val) = s.rd (INP_LSTAT_set ch.val) ∧ u.rd (INP_LTIME_kt ch.val) = s.rd (INP_LTIME_kt ch.val))
          ∧ (s.mode = 0 ∨ s.grid.run = false ∨ s.captured ch.val = false → TimeAt s u te
              ∧ SameRegs s u [INP_LSTAT_level ch.val, INP_LSTAT_set ch.val, INP_LSTAT_again ch.val, INP_LTIME_kt ch.val,
                  INP_LTIME_HI_res1ns ch.val, INP_LTIME_HI_valid ch.val, DSK_COEF_sat ch.val]
              ∧ SameRest s { u with inp := s.inp, hks := { u.hks with sets := s.hks.sets } }))
    ∧ (s.side ch.val v = some rising → ch.val < s.nChan → s.rd (INP_LSTAT_unres ch.val) = 0 →
        s.rd (INP_LSTAT_level ch.val) = (if rising then 0 else 1) → s.mode ≠ 0 → s.beforeRes ch.val te = true →
      Answers (.channelEdge ch v beyond traw sstart) s fun u =>
        u.on (INP_LSTAT_level ch.val) = rising ∧ TimeAt s u te ∧ SameRegs s u [INP_LSTAT_level ch.val]
          ∧ SameRest s { u with inp := s.inp, acq := { u.acq with log := s.acq.log } })
    ∧ (s.side ch.val v = none ∨ s.nChan ≤ ch.val ∨ s.rd (INP_LSTAT_unres ch.val) = 1
        ∨ s.side ch.val v = some rising ∧ s.rd (INP_LSTAT_level ch.val) = (if rising then 1 else 0) →
      Answers (.channelEdge ch v beyond traw sstart) s fun u => TimeAt s u traw ∧ SameRegs s u [] ∧ SameRest s u)

/-- A latch is cleared by a write of 1 to its set bit, to its bit of INP_LATCH, and by its period tick with latch_auto; with a selected edge
in the same crystal cycle it ends set, with that edge's time, and again 0, which in M0 counts as a latch setting for the wake (R51, R52,
R53, R57). A write of INP_LPER stores the period within its limits and restarts that channel's period; INP_LPER_SYNC restarts every
channel's (R52). The model's own choices it rests on: log entries 16, 17. -/
def Obligations.LatchClearing : Prop :=
  (∀ (s : State) (ch : Chan) (t : Nat), ch.val < s.nChan →
     let cleared := fun (at_ : Nat) (u : State) =>
       u.rd (INP_LSTAT_again ch.val) = 0
         ∧ ((∀ e, look s.inp.lastSel ch.val = some e → e / xtalF ≠ at_ / xtalF) →
             u.rd (INP_LSTAT_set ch.val) = 0 ∧ u.rd (INP_LTIME_HI_valid ch.val) = 0 ∧ u.rd (INP_LTIME_kt ch.val) = s.rd (INP_LTIME_kt ch.val))
         ∧ (∀ e, look s.inp.lastSel ch.val = some e → e / xtalF = at_ / xtalF → u.rd (INP_LSTAT_set ch.val) = 1
             ∧ (s.on (INP_CFG_to_tdc ch.val) = true →
                 u.rd (INP_LTIME_kt ch.val) = e % 2 ^ 72 ∧ u.on (INP_LTIME_HI_valid ch.val) = !decide (s.mode = 0)
                   ∧ u.on (INP_LTIME_HI_res1ns ch.val) = decide (s.mode = 0)))
         ∧ u.rd (INP_LSTAT_drift ch.val) % 2 = s.rd (INP_LSTAT_drift ch.val) % 2
         ∧ u.rd (INP_LSTAT_ovr_seen ch.val) % 2 = s.rd (INP_LSTAT_ovr_seen ch.val) % 2 ∧ TimeAt s u t
         ∧ SameRegs s u [INP_LSTAT_set ch.val, INP_LSTAT_again ch.val, INP_LSTAT_drift ch.val, INP_LSTAT_ovr_seen ch.val,
             INP_LTIME_kt ch.val, INP_LTIME_HI_res1ns ch.val, INP_LTIME_HI_valid ch.val]
         ∧ (s.mode ≠ 0 → u.hks.sets = s.hks.sets)
         ∧ (s.mode = 0 → s.on (INP_CFG_to_wake ch.val) = true → ∀ e, look s.inp.lastSel ch.val = some e → e / xtalF = at_ / xtalF →
             u.hks.sets = if s.hks.m0At ≤ e ∧ (ch.val, e) ∉ s.hks.sets then s.hks.sets ++ [(ch.val, e)] else s.hks.sets)
         ∧ SameRest s { u with inp := { u.inp with per := s.inp.per, convert := s.inp.convert }, hks := { u.hks with sets := s.hks.sets } }
     (∀ (p : Port) (viaBitmap : Bool), Reaches p (if viaBitmap then (INP_LATCH_bits (ch.val / 32)).addr else (INP_LSTAT_set ch.val).addr) s →
         Answers (.latchClear p ch viaBitmap t) s fun u => cleared (max s.tmb.kt t) u ∧ u.inp.per = s.inp.per)
       ∧ (Powered s → s.on (INP_CFG_latch_auto ch.val) = true →
           s.perOrigin ch.val + (s.advance t).xtal (100 * s.rd (INP_LPER_period ch.val)) ≤ t →
           Answers (.latchPeriodTick ch t) s fun u => cleared t u ∧ u.perOrigin ch.val = t))
  ∧ (∀ (s : State) (p : Port) (ch : Chan) (v : Word) (t : Nat),
       (Reaches p (INP_LPER_period ch.val).addr s → ch.val < s.nChan → Answers (.latchPeriodWrite p ch v t) s fun u =>
         u.rd (INP_LPER_period ch.val) = max 1 (min 1000000 (v.toNat % 2 ^ 20)) ∧ u.perOrigin ch.val = max s.tmb.kt t
           ∧ (∀ c, c ≠ ch.val → u.perOrigin c = s.perOrigin c) ∧ TimeAt s u t ∧ SameRegs s u [INP_LPER_period ch.val]
           ∧ SameRest s { u with inp := { u.inp with per := s.inp.per } })
       ∧ (Reaches p INP_LPER_SYNC_sync.addr s → Answers (.latchPeriodSync p v t) s fun u =>
         (∀ c, u.perOrigin c = max s.tmb.kt t) ∧ TimeAt s u t ∧ SameRegs s u []
           ∧ SameRest s { u with inp := { u.inp with per := s.inp.per, perAll := s.inp.perAll } }))

/-! ### The time base -/

/-- A write of TMB_EPOCH_CTL with load arms an epoch load from that moment; with cancel it withdraws one, and cancel acts alone (R76, R77).
At the first qualifying PPS event while acquisition is idle KT72 takes the value of the epoch registers, the epoch ID counts one, and
every memory and other register is as before (R76, R78). The event is the last accepted PPS_IN edge, or a whole second of KT72. A
temperature reading is stored with its valid bit, and PPS_OUT rises at a whole second of KT72 and falls when its width is over (R74,
R86). The model's own choices it rests on: log entries 18, 21, 22. -/
def Obligations.EpochAndPpsOut : Prop :=
  (∀ (s : State) (p : Port) (v : Word), Reaches p TMB_EPOCH_CTL_load.addr s →
     (v.getLsbD 1 = false → Answers (.epochLoadArm p v) s fun u =>
       u.rd TMB_EPOCH_CTL_pending = 1 ∧ u.tmb = { s.tmb with epochAt := s.tmb.kt } ∧ SameRegs s u [TMB_EPOCH_CTL_pending] ∧ SameRest s u)
     ∧ (v.getLsbD 1 = true → Answers (.epochLoadArm p v) s fun u =>
       u.rd TMB_EPOCH_CTL_pending = 0 ∧ u.tmb = s.tmb ∧ SameRegs s u [TMB_EPOCH_CTL_pending] ∧ SameRest s u)
     ∧ (Answers (.epochCancel p v) s fun u =>
       u.rd TMB_EPOCH_CTL_pending = 0 ∧ u.tmb = s.tmb ∧ SameRegs s u [TMB_EPOCH_CTL_pending] ∧ SameRest s u))
  ∧ (∀ (s : State) (t : Nat), Powered s → s.rd TMB_EPOCH_CTL_pending = 1 → s.acqSt = 0 → s.tmb.epochAt < t → s.tmb.kt ≤ t →
       (if 2 ≤ s.rd TMB_REF_CFG_src then s.tmb.ppsAcc = some t else t % 2 ^ 72 % secF = 0) →
       Answers (.epochLoad t) s fun u =>
         u.tmb.kt % 2 ^ 72 = (s.rd TMB_EPOCH_LO_epoch + 2 ^ 32 * s.rd TMB_EPOCH_MID_epoch + 2 ^ 64 * s.rd TMB_EPOCH_HI_epoch) % 2 ^ 72
           ∧ u.rd TMB_EPOCH_CTL_epoch_id = (s.rd TMB_EPOCH_CTL_epoch_id + 1) % 2 ^ 16 ∧ u.rd TMB_EPOCH_CTL_pending = 0
           ∧ u.rd TMB_PHASE_ERR_value = 0
           ∧ SameRegs s u [TMB_EPOCH_CTL_epoch_id, TMB_EPOCH_CTL_pending, TMB_PHASE_ERR_value]
           ∧ u.near = s.near ∧ u.deep = s.deep ∧ u.scr = s.scr ∧ u.nv = s.nv ∧ u.bbx = s.bbx ∧ u.acq.leads = s.acq.leads)
  ∧ (∀ (s : State) (t : Nat), Powered s →
       (∀ temp, Answers (.tcompUpdate temp t) s fun u =>
         u.rd TMB_TEMP_temp = toU 16 temp ∧ u.rd TMB_TEMP_valid = 1 ∧ TimeAt s u t ∧ SameRegs s u [TMB_TEMP_temp, TMB_TEMP_valid]
           ∧ SameRest s { u with grid := s.grid })
       ∧ (s.rd TMB_OUT_CFG_pps_en = 1 → t % 2 ^ 72 % secF = 0 → Answers (.ppsOutPulse t) s fun u =>
         u.tmb.ppsOut = true ∧ u.tmb.ppsEnd = t + s.rd TMB_OUT_CFG_pps_width * 10 * usF ∧ TimeAt s u t ∧ SameRegs s u [] ∧ SameRest s u)
       ∧ (s.tmb.ppsOut = true → s.tmb.ppsEnd ≤ t → Answers (.ppsOutPulseEnd t) s fun u =>
         u.tmb.ppsOut = false ∧ TimeAt s u t ∧ SameRegs s u [] ∧ SameRest s u))

/-- Validity of REF_IN, at ±100 ppm of the frequency selected, and of PPS_IN, and the reference state: a source that becomes valid starts
ACQUIRING, one that is lost in ACQUIRING or LOCKED leads to HOLDOVER, and REF_IN alone locks after 10 s (R80, R82). Nothing becomes
valid while boundary scan has the lands. A PPS_IN edge of the selected direction is accepted where it lies within unlock_thr of what the
loop predicts, in ACQUIRING also of the last accepted phase error: its phase error goes to TMB_PHASE_ERR, the phase part of the loop
term stays within the slew limit, and in ACQUIRING the eighth good one in a row locks. Else it is an outlier, counted and otherwise
ignored, and the third in a row loses PPS_IN (R80 to R83). An edge with no PPS_IN source only judges validity, and one of the other
direction, or while boundary scan has the lands, is none (R440). The model's own choices it rests on: log entries 19, 20, 100. -/
def Obligations.ReferenceAndPps : Prop :=
  (∀ (s : State) (t : Nat), Powered s → s.mode ≠ 0 →
     let want : Int := if s.rd TMB_REF_CFG_ref_freq = 1 then 100000000 else 10000000
     (∀ hz : Nat, (want < 10000 * ((hz : Int) - want).natAbs ∨ s.lands = false → Answers (.refInValid ⟨hz, t⟩) s fun u => TimeAt s u t ∧ SameRegs s u [] ∧ SameRest s u)
       ∧ (s.lands = true → 10000 * ((hz : Int) - want).natAbs ≤ want → Answers (.refInValid ⟨hz, t⟩) s fun u => u.rd TMB_REF_STAT_ref_valid = 1
       ∧ (s.rd TMB_REF_CFG_src = 1 → s.rd TMB_REF_STAT_state = 0 ∨ s.rd TMB_REF_STAT_state = 3 → u.rd TMB_REF_STAT_state = 1)
       ∧ TimeAt s u t ∧ SameRegs s u [TMB_REF_STAT_ref_valid, TMB_REF_STAT_state, HKS_STAT_pending] ∧ SameRest s { u with grid := s.grid }))
     ∧ (Answers (.refInInvalid t) s fun u => u.rd TMB_REF_STAT_ref_valid = 0
       ∧ (s.rd TMB_REF_CFG_src = 1 ∨ s.rd TMB_REF_CFG_src = 3 → s.rd TMB_REF_STAT_state = 1 ∨ s.rd TMB_REF_STAT_state = 2 →
           u.rd TMB_REF_STAT_state = 3)
       ∧ TimeAt s u t ∧ SameRegs s u [TMB_REF_STAT_ref_valid, TMB_REF_STAT_state, HKS_STAT_pending] ∧ SameRest s { u with grid := s.grid })
     ∧ (∀ k, s.tmb.ppsLast = some k → k + secF + secF / 2 ≤ t → Answers (.ppsTimeout t) s fun u => u.rd TMB_REF_STAT_pps_valid = 0
       ∧ (s.rd TMB_REF_CFG_src = 2 ∨ s.rd TMB_REF_CFG_src = 3 → s.rd TMB_REF_STAT_state = 1 ∨ s.rd TMB_REF_STAT_state = 2 →
           u.rd TMB_REF_STAT_state = 3)
       ∧ TimeAt s u t ∧ SameRegs s u [TMB_REF_STAT_pps_valid, TMB_REF_STAT_state, HKS_STAT_pending] ∧ SameRest s { u with grid := s.grid })
     ∧ (s.rd TMB_REF_CFG_src = 1 → s.rd TMB_REF_STAT_state = 1 → s.tmb.refSince + 10 * secF ≤ t → Answers (.refLockTimer t) s fun u =>
       u.rd TMB_REF_STAT_state = 2 ∧ TimeAt s u t ∧ SameRegs s u [TMB_REF_STAT_state] ∧ SameRest s u))
  ∧ (∀ (s : State) (up : Bool) (t : Nat), Powered s →
       let te : Int := (t : Int) - s.rdS TMB_PPS_DLY_dly
       let e : Int := ppsPhase te
       let lim := s.rd TMB_LOCK_CFG_unlock_thr * nsF
       let st := s.rd TMB_REF_STAT_state
       let good := (e - sx 32 (Config.freeValue s.free)).natAbs ≤ lim ∧ (st = 1 → ∀ q, s.tmb.ppsErr = some q → (e - q).natAbs ≤ lim)
       (s.on TMB_REF_CFG_pps_edge = up ∨ s.lands = false → Answers (.ppsEdge ⟨up, t⟩) s fun u => TimeAt s u t ∧ SameRegs s u [] ∧ SameRest s u)
       ∧ (s.lands = true → s.on TMB_REF_CFG_pps_edge = !up → 2 ≤ s.rd TMB_REF_CFG_src → s.rd TMB_REF_STAT_pps_valid = 1 → st = 1 ∨ st = 2 →
         (good → Answers (.ppsEdge ⟨up, t⟩) s fun u =>
           u.rd TMB_PHASE_ERR_value = satU 32 e ∧ u.tmb.outRun = 0 ∧ u.tmb.ppsAcc = some te.toNat
             ∧ u.tmb.loop = Config.loopTerm s.tmb.loopK + u.tmb.phase
             ∧ u.tmb.phase.natAbs ≤ 2 ^ 40 * 10 ^ s.rd TMB_REF_CFG_slew / 10000000
             ∧ u.rd TMB_REF_STAT_state = (if st = 2 ∨ e.natAbs ≤ s.rd TMB_LOCK_CFG_lock_thr * nsF ∧ 7 ≤ s.tmb.goodRun then 2 else 1)
             ∧ TimeAt s u t ∧ SameRegs s u [TMB_PHASE_ERR_value, TMB_REF_STAT_state] ∧ SameRest s { u with grid := s.grid, free := s.free })
         ∧ (¬good → Answers (.ppsEdge ⟨up, t⟩) s fun u =>
           u.rd TMB_REF_STAT_outliers = (s.rd TMB_REF_STAT_outliers + 1) % 2 ^ 16 ∧ u.rd TMB_PHASE_ERR_value = s.rd TMB_PHASE_ERR_value
             ∧ u.tmb.ppsAcc = s.tmb.ppsAcc
             ∧ (s.tmb.outRun = 2 → u.rd TMB_REF_STAT_pps_valid = 0 ∧ u.rd TMB_REF_STAT_state = 3)
             ∧ (s.tmb.outRun ≠ 2 → u.rd TMB_REF_STAT_pps_valid = 1 ∧ u.rd TMB_REF_STAT_state = st)
             ∧ TimeAt s u t ∧ SameRegs s u [TMB_REF_STAT_outliers, TMB_REF_STAT_pps_valid, TMB_REF_STAT_state, HKS_STAT_pending]
             ∧ SameRest s { u with grid := s.grid, free := s.free }))
       ∧ (s.lands = true → s.on TMB_REF_CFG_pps_edge = !up → s.rd TMB_REF_CFG_src = 0 → st = 0 → Answers (.ppsEdge ⟨up, t⟩) s fun u =>
         (∀ k, s.tmb.ppsLast = some k → ((t : Int) - k - secF).natAbs ≤ 1000 * usF → u.rd TMB_REF_STAT_pps_valid = 1)
           ∧ u.tmb.ppsLast = some t ∧ TimeAt s u t ∧ SameRegs s u [TMB_REF_STAT_pps_valid] ∧ SameRest s { u with grid := s.grid }))

/-! ### Deskew and the gather -/

/-- A write of DSK_LAND or DSK_USER becomes pending in place of a value of the same term for that channel; the coefficient in use does not
change yet. A channel that the variant lacks is not written (R96, R97). 1 µs after a value became pending and acquisition became idle
all pending values take effect together: every coefficient concerned is the sum of its three terms within ±8,192 F, clamped where it
lies beyond (R95, R96). The model's own choices it rests on: log entry 24. -/
def Obligations.DeskewTerms : Prop :=
  (∀ (s : State) (p : Port) (ch : Chan) (user : Bool) (v : Word) (t : Nat),
     let f := if user then DSK_USER_d ch.val else DSK_LAND_d ch.val
     let term := if user then 2 else 0
     Reaches p f.addr s →
     (ch.val < s.nChan → Answers (.deskewTermWrite p ch user v t) s fun u =>
       u.rd f = v.toNat % 2 ^ 16
         ∧ (u.dsk.pend.filter fun q => decide (q.ch = ch.val ∧ q.term = term)) = [⟨ch.val, term, sx 16 v.toNat, false, max s.tmb.kt t⟩]
         ∧ (u.dsk.pend.filter fun q => decide (¬(q.ch = ch.val ∧ q.term = term)))
             = (s.dsk.pend.filter fun q => decide (¬(q.ch = ch.val ∧ q.term = term)))
         ∧ u.dskD ch.val = s.dskD ch.val ∧ TimeAt s u t ∧ SameRegs s u [f]
         ∧ SameRest s { u with dsk := { u.dsk with pend := s.dsk.pend } })
     ∧ (s.nChan ≤ ch.val → Answers (.deskewTermWrite p ch user v t) s fun u => TimeAt s u t ∧ SameRegs s u [] ∧ SameRest s u))
  ∧ (∀ (s : State) (t : Nat), Powered s → s.acqSt = 0 → (∃ q ∈ s.dsk.pend, q.since + usF ≤ t ∧ s.acq.idleAt + usF ≤ t) →
       (∀ q ∈ s.dsk.pend, q.ch < 1024) →
       Answers (.deskewApply t) s fun u =>
         u.dsk.pend = []
           ∧ (∀ q ∈ s.dsk.pend, u.dskD q.ch = max (-8192) (min 8192 (u.dskSum q.ch))
               ∧ (u.rd (DSK_COEF_clamped q.ch) = 1 ↔ u.dskSum q.ch < -8192 ∨ 8192 < u.dskSum q.ch))
           ∧ (∀ c, (∀ q ∈ s.dsk.pend, q.ch ≠ c) → u.dskD c = s.dskD c)
           ∧ (∀ f : Fld, f.addr / 0x10000 ≠ 4 → f.addr % 4 = 0 → f.lo < 32 → u.rd f = s.rd f) ∧ TimeAt s u t
           ∧ SameRest s { u with dsk := s.dsk })

/-- A start of a gather is refused, with the named bit, in the cases of R102, and runs otherwise over the window of the same write. An abort
ends a running gather ABORTED and its window's end closes it with done and one more gather counted: every pair is then SUSPECT in a
CLOCK_SUSPECT interval and else SPARSE, REJECTED, PENDING or MEASURED; coefficients do not change (R103). The model's own choices it
rests on: log entries 28, 102, 114, 115. -/
def Obligations.Gathers : Prop :=
  (∀ (s : State) (p : Port) (v : Word) (t : Nat), Reaches p DSK_GCTL_start.addr s → v.getLsbD 1 = false →
     let l := s.pairChs
     let refused := s.dsk.gather ≠ none ∨ s.mode = 7 ∨ l = []
     let chained := ∃ c ∈ l, ∃ d ∈ l, d ≠ c ∧ s.rd (DSK_PAIR_partner d) = c
     let ok := fun c => c < s.nChan ∧ s.captured c = true
     let badPartner := ∃ c ∈ l, s.rd (DSK_PAIR_partner c) = c ∨ ¬ok c ∨ ¬ok (s.rd (DSK_PAIR_partner c))
     let bars := refused ∨ 64 < l.length ∨ chained ∨ badPartner
     (¬bars → Answers (.gatherStart p v t) s fun u =>
       (∃ g, u.dsk.gather = some g ∧ g.start = max s.tmb.kt t ∧ g.stopAt = max s.tmb.kt t + u.rd DSK_GCTL_window * usF
           ∧ g.pairs.map GPair.b = l)
         ∧ u.rd DSK_GCTL_window = max 1 (min 4000 (v.toNat / 2 ^ 20)) ∧ u.rd DSK_GSTAT_busy = 1 ∧ TimeAt s u t
         ∧ SameRegs s u [DSK_GCTL_window, DSK_GCTL_max_step, DSK_GCTL_auto, DSK_GSTAT_busy]
         ∧ SameRest s { u with dsk := { u.dsk with gather := s.dsk.gather } })
     ∧ (bars → Answers (.gatherStart p v t) s fun u =>
       (refused → u.rd DSK_GSTAT_refused = 1) ∧ (64 < l.length → u.rd DSK_GSTAT_too_many = 1) ∧ (chained → u.rd DSK_GSTAT_chain = 1)
         ∧ (badPartner → u.rd DSK_GSTAT_partner = 1) ∧ TimeAt s u t
         ∧ SameRegs s u [DSK_GCTL_window, DSK_GCTL_max_step, DSK_GCTL_auto, DSK_GSTAT_refused, DSK_GSTAT_too_many, DSK_GSTAT_chain,
             DSK_GSTAT_partner]
         ∧ SameRest s u))
  ∧ (∀ (s : State) (t : Nat) (g : Gather), s.dsk.gather = some g → (∀ q ∈ g.pairs, q.b < 1024) →
       (∀ (p : Port) (v : Word), Reaches p DSK_GCTL_start.addr s → v.getLsbD 0 = false → Answers (.gatherAbort p v t) s fun u =>
         u.dsk.gather = none ∧ u.rd DSK_GSTAT_busy = 0 ∧ u.rd DSK_GSTAT_aborted = 1 ∧ (∀ q ∈ g.pairs, u.rd (DSK_GCNT_result q.b) = 5)
           ∧ u.rd DSK_GSTAT_done = s.rd DSK_GSTAT_done ∧ u.rd DSK_GSTAT_gathers = s.rd DSK_GSTAT_gathers
           ∧ (∀ c, u.dskD c = s.dskD c) ∧ u.dsk.pend = s.dsk.pend)
       ∧ (Powered s → g.stopAt ≤ t → Answers (.gatherClose t) s fun u =>
         u.dsk.gather = none ∧ u.rd DSK_GSTAT_busy = 0 ∧ u.rd DSK_GSTAT_done = 1 ∧ u.rd DSK_GSTAT_aborted = 0
           ∧ u.rd DSK_GSTAT_gathers = (s.rd DSK_GSTAT_gathers + 1) % 2 ^ 16
           ∧ (∀ q ∈ g.pairs, u.rd (DSK_GCNT_result q.b) ∈ (if g.suspect then [6] else [3, 4, 1, 7]))
           ∧ (∀ c, u.dskD c = s.dskD c) ∧ (g.suspect = true → u.dsk.pend = s.dsk.pend)))

/-! ### Clocks -/

/-- The source of the sample base: a write asks for it, the change takes effect while acquisition is idle outside M0, and a fall-back to
ADPLL-S ends at the next idle moment with CLK_EXT valid, or when ADPLL-S is chosen (R113, R116). CLK_EXT leaving and meeting its
conditions, within ±100 ppm of a declared 800 MHz to 1.25 GHz: its status and measurement follow; in use, an error between 100 and 200
ppm opens a CLOCK_SUSPECT interval that one back within 100 ppm ends, and a loss gates the sample domain and falls back to ADPLL-S at
the declared frequency, or waits; in M0 the fall-back leaves ADPLL-S OFF until the wake (R114, R116, R129). It does not become valid
while boundary scan has the lands (R440). The model's own choices it rests on: log entries 31, 35, 103, 120. -/
def Obligations.SampleClocks : Prop :=
  (∀ s : State,
     (∀ (p : Port) (v : Word), Reaches p CLK_CFG_s_src.addr s → Answers (.sampleSourceWrite p v) s fun u =>
       u.rd CLK_CFG_s_src = v.toNat % 2 ∧ u.rd CLK_CFG_ext_fallback = v.toNat / 32 % 2
         ∧ (u.rd CLK_CFG_s_src_pend = 1 ↔ v.toNat % 2 ≠ s.rd CLK_STAT_s_src_act ∧ (v.toNat % 2 = 0 ∨ s.clk.fallback = false))
         ∧ u.clk = { s.clk with fallback := s.clk.fallback && decide (v.toNat % 2 = 1) }
         ∧ SameRegs s u [CLK_CFG_s_src, CLK_CFG_ext_fallback, CLK_CFG_s_src_pend] ∧ SameRest s { u with clk := s.clk })
     ∧ (∀ t, Powered s → s.rd CLK_CFG_s_src_pend = 1 → s.acqSt = 0 → s.mode ≠ 0 → Answers (.sampleSourceSwitch t) s fun u =>
       u.rd CLK_STAT_s_src_act = s.rd CLK_CFG_s_src % 2 ∧ u.rd CLK_CFG_s_src_pend = 0 ∧ TimeAt s u t
         ∧ SameRegs s u [CLK_STAT_s_src_act, CLK_CFG_s_src_pend, CLK_STAT_dll_lock] ∧ SameRest s { u with clk := s.clk, grid := s.grid })
     ∧ (∀ t, Powered s → s.clk.fallback = true → s.rd CLK_STAT_ext_valid = 1 → s.rd CLK_CFG_s_src = 1 → s.acqSt = 0 → s.mode ≠ 0 →
       Answers (.extClockReturn t) s fun u =>
         u.rd CLK_STAT_s_src_act = 1 ∧ u.clk.fallback = false ∧ u.rd CLK_CFG_s_src_pend = 0 ∧ TimeAt s u t
           ∧ SameRegs s u [CLK_STAT_s_src_act, CLK_CFG_s_src_pend, CLK_STAT_dll_lock] ∧ SameRest s { u with clk := s.clk, grid := s.grid }))
  ∧ (∀ (s : State) (t : Nat), Powered s →
       (∀ edges, s.rd CLK_STAT_ext_valid = 0 → Answers (.clkExtInvalid ⟨edges, t⟩) s fun u =>
         u.on CLK_EXT_MEAS_valid = edges ∧ TimeAt s u t ∧ SameRegs s u [CLK_EXT_MEAS_valid] ∧ SameRest s u)
       ∧ (∀ edges, s.rd CLK_STAT_ext_valid = 1 → Answers (.clkExtInvalid ⟨edges, t⟩) s fun u =>
         u.rd CLK_STAT_ext_valid = 0 ∧ u.on CLK_EXT_MEAS_valid = edges ∧ u.rd CLK_EVT_ext_loss = 1
           ∧ (s.rd CLK_STAT_s_src_act = 0 → TimeAt s u t ∧ SameRegs s u [CLK_STAT_ext_valid, CLK_EXT_MEAS_valid, CLK_EVT_ext_loss]
               ∧ SameRest s u)
           ∧ (s.rd CLK_STAT_s_src_act = 1 → s.mode = 0 → s.rd CLK_CFG_ext_fallback = 1 → u.rd CLK_STAT_s_src_act = 0
               ∧ u.clk.fallback = true ∧ u.pllSt 0 = s.pllSt 0 ∧ u.rd CLK_EVT_gated = s.rd CLK_EVT_gated ∧ TimeAt s u t)
           ∧ (s.rd CLK_STAT_s_src_act = 1 → s.mode ≠ 0 → u.rd CLK_EVT_gated = 1
               ∧ (s.rd CLK_CFG_ext_fallback = 1 → u.rd CLK_STAT_s_src_act = 0 ∧ u.clk.fallback = true
                   ∧ u.rd (CLK_x_TARGET_freq 0) % 2 ^ 21 = s.rd CLK_EXT_CFG_freq % 2 ^ 21)
               ∧ (s.rd CLK_CFG_ext_fallback = 0 → u.rd CLK_STAT_s_src_act = 1 ∧ u.clk.extWait = true ∧ u.grid.run = false)))
       ∧ (∀ err, Answers (.clkExtDrift err t) s fun u =>
         u.rd CLK_EXT_MEAS_err = satU 16 err ∧ u.rd CLK_EXT_MEAS_valid = 1
           ∧ (s.rd CLK_STAT_s_src_act = 1 → s.clk.extSuspect = none → s.clk.qualAt = none → s.grid.run = true → 1000 < err.natAbs →
               err.natAbs ≤ 2000 → u.clk.extSuspect = some t)
           ∧ (s.rd CLK_STAT_s_src_act = 1 → err.natAbs ≤ 1000 → u.clk.extSuspect = none)
           ∧ (s.rd CLK_STAT_s_src_act = 0 → TimeAt s u t ∧ SameRegs s u [CLK_EXT_MEAS_err, CLK_EXT_MEAS_valid] ∧ SameRest s u))
       ∧ (∀ err : Int, (1000 < err.natAbs ∨ s.rd CLK_EXT_CFG_freq < 800000 ∨ 1250000 < s.rd CLK_EXT_CFG_freq ∨ s.lands = false) →
         Answers (.clkExtValid err t) s fun u => TimeAt s u t ∧ SameRegs s u [] ∧ SameRest s u)
       ∧ (∀ err : Int, s.lands = true → err.natAbs ≤ 1000 → 800000 ≤ s.rd CLK_EXT_CFG_freq → s.rd CLK_EXT_CFG_freq ≤ 1250000 →
         Answers (.clkExtValid err t) s fun u =>
         u.rd CLK_EXT_MEAS_err = satU 16 err ∧ u.rd CLK_EXT_MEAS_valid = 1 ∧ u.rd CLK_STAT_ext_valid = 1 ∧ u.clk.extSuspect = none
           ∧ u.clk.extWait = false
           ∧ (s.acqSt = 0 → s.clk.extSuspect = none → TimeAt s u t
               ∧ SameRegs s u [CLK_EXT_MEAS_err, CLK_EXT_MEAS_valid, CLK_STAT_ext_valid, CLK_STAT_dll_lock]
               ∧ SameRest s { u with clk := s.clk, grid := s.grid })))

/-- CLK_x_CTL: enabling an ADPLL that has not FAILED starts a lock from the entry of its target, or a band search where there is none; a
search is started while acquisition is idle; either takes every Graft port OFF where it gates ADPLL-C (R354); and a band-table entry is
written, with preloaded set, unless it is in use (R117, R119, R120). The model's own choices it rests on: log entries 33, 118. -/
def Obligations.AdpllControl : Prop :=
  ∀ (s : State) (p : Port) (x : Pll) (v : Word) (t : Nat),
    let ports := [GRF_GLn_STAT_state 0, GRF_GLn_STAT_state 1, GRF_GLn_STAT_state 2, GRF_GLn_STAT_state 3, GRF_EVT_link_down]
    let graft := fun u : State => (x.val ≠ 1 → u.grf = s.grf ∧ ∀ f ∈ ports, u.rd f = s.rd f)
      ∧ (x.val = 1 → ∀ n : Fin 4, u.rd (GRF_GLn_STAT_state n.val) = 0)
    (Reaches p (CLK_x_CTL_en x.val).addr s → v.getLsbD 1 = false → s.rd (CLK_x_CTL_en x.val) = 0 → s.pllSt x.val = 7 →
      Answers (.adpllEnable p x v t) s fun u => u.rd (CLK_x_CTL_en x.val) = 1 ∧ u.pllSt x.val = 7)
    ∧ (Reaches p (CLK_x_CTL_en x.val).addr s → v.getLsbD 1 = false → s.rd (CLK_x_CTL_en x.val) = 0 → s.pllSt x.val ≠ 7 →
      Answers (.adpllEnable p x v t) s fun u =>
      u.rd (CLK_x_CTL_en x.val) = 1 ∧ u.rd (CLK_x_STAT_gated x.val) = 1
        ∧ (∀ i, s.btFind x.val (s.rd (CLK_x_TARGET_freq x.val)) = some i →
            u.rd (CLK_x_STAT_state x.val) = 2 ∧ u.rd (CLK_x_STAT_bt_idx x.val) = i)
        ∧ (s.btFind x.val (s.rd (CLK_x_TARGET_freq x.val)) = none → (s.pll x.val).work = none → u.rd (CLK_x_STAT_state x.val) = 1)
        ∧ (s.acqSt = 0 → graft u ∧ TimeAt s u t ∧ SameRegs s u ([CLK_x_CTL_en x.val, CLK_x_STAT_gated x.val, CLK_x_STAT_state x.val,
              CLK_x_STAT_bt_idx x.val, CLK_STAT_dll_lock, CLK_HOP_pending, CLK_HOP_wait_idle, CLK_HOP_wait_gather] ++ ports)
            ∧ SameRest s { u with clk := s.clk, grid := s.grid, grf := s.grf, trl := { u.trl with out := s.trl.out } }))
    ∧ (Reaches p (CLK_x_CTL_en x.val).addr s → v.getLsbD 0 = true → s.acqSt = 0 → Answers (.search p x v t) s fun u =>
      u.rd (CLK_x_STAT_state x.val) = 1 ∧ u.rd (CLK_x_STAT_gated x.val) = 1 ∧ u.rd (CLK_x_CTL_en x.val) = 1 ∧ graft u ∧ TimeAt s u t
        ∧ SameRegs s u ([CLK_x_CTL_en x.val, CLK_x_STAT_gated x.val, CLK_x_STAT_state x.val, CLK_x_STAT_bt_idx x.val,
            CLK_x_STAT_suspect x.val, CLK_STAT_dll_lock, CLK_HOP_pending, CLK_HOP_wait_idle, CLK_HOP_wait_gather] ++ ports)
        ∧ SameRest s { u with clk := s.clk, grid := s.grid, grf := s.grf, trl := { u.trl with out := s.trl.out } })
    ∧ (∀ (i : Fin 16) (isCode : Bool),
        Reaches p (if isCode then (CLK_x_BT_CODE_code x.val i.val).addr else (CLK_x_BT_FREQ_freq x.val i.val).addr) s →
        let inUse := 2 ≤ s.pllSt x.val ∧ s.pllSt x.val ≤ 5 ∧ (s.pll x.val).useWork = false ∧ s.rd (CLK_x_STAT_bt_idx x.val) = i.val
        (¬inUse → Answers (.bandTableWrite p x i isCode v) s fun u =>
          u.rd (CLK_x_BT_FREQ_preloaded x.val i.val) = 1
            ∧ (isCode = false → u.rd (CLK_x_BT_FREQ_freq x.val i.val) = v.toNat % 2 ^ 21
                ∧ u.on (CLK_x_BT_FREQ_valid x.val i.val) = v.getLsbD 31 ∧ u.on (CLK_x_BT_FREQ_pinned x.val i.val) = v.getLsbD 30
                ∧ SameRegs s u [CLK_x_BT_FREQ_valid x.val i.val, CLK_x_BT_FREQ_pinned x.val i.val, CLK_x_BT_FREQ_preloaded x.val i.val,
                    CLK_x_BT_FREQ_freq x.val i.val])
            ∧ (isCode = true → u.rd (CLK_x_BT_CODE_code x.val i.val) = v.toNat % 2 ^ 10
                ∧ u.rd (CLK_x_BT_CODE_band x.val i.val) = v.toNat / 2 ^ 16 % 64
                ∧ SameRegs s u [CLK_x_BT_CODE_temp x.val i.val, CLK_x_BT_CODE_band x.val i.val, CLK_x_BT_CODE_code x.val i.val,
                    CLK_x_BT_FREQ_preloaded x.val i.val])
            ∧ SameRest s u)
          ∧ (inUse → Answers (.bandTableWrite p x i isCode v) s fun u => SameRegs s u [] ∧ SameRest s u))

/-- An ADPLL on its way to an open gate: a search that succeeds is stored and goes on to ACQUIRE, one that fails is counted and the third
means FAILED; a lock from an entry goes to QUALIFY and updates it, or after 2 µs without lock to a search; 4 µs of QUALIFY open the
gate, with an error within ±100 ppm measured, and a hop that ran is done (R117 to R124, R134). The model's own choices it rests on: log
entries 31, 32, 34. -/
def Obligations.AdpllStates : Prop :=
  ∀ (s : State) (x : Pll) (t : Nat), Powered s →
    let rest := fun u : State => SameRest s { u with clk := s.clk, trl := { u.trl with out := s.trl.out } }
    (∀ (band : Fin 64) (code : Fin 1024), s.pllSt x.val = 1 →
      (Answers (.bandSearchDone x false band code t) s fun u =>
        (u.pll x.val).fails = (s.pll x.val).fails + 1 ∧ TimeAt s u t ∧ SameRegs s u [] ∧ SameRest s { u with clk := s.clk })
      ∧ (Answers (.bandSearchDone x true band code t) s fun u =>
        u.rd (CLK_x_STAT_state x.val) = 2 ∧ u.rd (CLK_x_STAT_gated x.val) = 1
          ∧ (∀ i, (s.pll x.val).miss = none → s.btPlace x.val (s.rd (CLK_x_TARGET_freq x.val)) = some i →
              u.rd (CLK_x_BT_FREQ_valid x.val i) = 1 ∧ u.rd (CLK_x_BT_FREQ_preloaded x.val i) = 0
                ∧ u.rd (CLK_x_BT_FREQ_freq x.val i) = s.rd (CLK_x_TARGET_freq x.val) % 2 ^ 21
                ∧ u.rd (CLK_x_BT_CODE_band x.val i) = band.val ∧ u.rd (CLK_x_BT_CODE_code x.val i) = code.val
                ∧ u.rd (CLK_x_STAT_bt_idx x.val) = i
                ∧ SameRegs s u [CLK_x_STAT_state x.val, CLK_x_STAT_gated x.val, CLK_x_STAT_bt_idx x.val, CLK_x_BT_FREQ_valid x.val i,
                    CLK_x_BT_FREQ_preloaded x.val i, CLK_x_BT_FREQ_freq x.val i, CLK_x_BT_CODE_band x.val i,
                    CLK_x_BT_CODE_code x.val i, CLK_x_BT_CODE_temp x.val i])
          ∧ ((s.pll x.val).miss = none → s.btPlace x.val (s.rd (CLK_x_TARGET_freq x.val)) = none → u.rd CLK_EVT_bt_full = 1
              ∧ (u.pll x.val).work = some (s.rd (CLK_x_TARGET_freq x.val), band.val, code.val)
              ∧ SameRegs s u [CLK_x_STAT_state x.val, CLK_x_STAT_gated x.val, CLK_EVT_bt_full])
          ∧ TimeAt s u t ∧ rest u))
    ∧ (s.pllSt x.val = 2 → (s.pll x.val).since + 2 * usF ≤ t → Answers (.btMiss x t) s fun u =>
      u.rd (CLK_x_STAT_state x.val) = 1 ∧ u.rd (CLK_x_STAT_gated x.val) = 1
        ∧ ((s.pll x.val).useWork = false → s.rd (CLK_x_BT_FREQ_preloaded x.val (s.rd (CLK_x_STAT_bt_idx x.val))) = 1 →
            u.rd CLK_EVT_bt_miss = 1 ∧ (u.pll x.val).miss = some (s.rd (CLK_x_STAT_bt_idx x.val)))
        ∧ TimeAt s u t ∧ SameRegs s u [CLK_x_STAT_state x.val, CLK_x_STAT_gated x.val, CLK_EVT_bt_miss] ∧ rest u)
    ∧ (∀ code : Fin 1024, s.pllSt x.val = 2 → Answers (.adpllLocked x code t) s fun u =>
      u.rd (CLK_x_STAT_state x.val) = 3 ∧ u.rd (CLK_x_STAT_gated x.val) = 1 ∧ (u.pll x.val).fails = 0
        ∧ ((s.pll x.val).useWork = false → s.rd (CLK_x_STAT_bt_idx x.val) < 16 →
            u.rd (CLK_x_BT_CODE_code x.val (s.rd (CLK_x_STAT_bt_idx x.val))) = code.val
              ∧ u.rd (CLK_x_BT_CODE_temp x.val (s.rd (CLK_x_STAT_bt_idx x.val))) = s.tempC
              ∧ u.rd (CLK_x_BT_FREQ_preloaded x.val (s.rd (CLK_x_STAT_bt_idx x.val))) = 0)
        ∧ TimeAt s u t
        ∧ SameRegs s u [CLK_x_STAT_state x.val, CLK_x_STAT_gated x.val, CLK_x_BT_CODE_code x.val (s.rd (CLK_x_STAT_bt_idx x.val)),
            CLK_x_BT_CODE_temp x.val (s.rd (CLK_x_STAT_bt_idx x.val)), CLK_x_BT_FREQ_preloaded x.val (s.rd (CLK_x_STAT_bt_idx x.val))]
        ∧ rest u)
    ∧ (s.pllSt x.val = 3 → (s.pll x.val).since + 4 * usF ≤ t → Answers (.qualifyComplete x t) s fun u =>
      u.rd (CLK_x_STAT_state x.val) = 4 ∧ u.rd (CLK_x_STAT_gated x.val) = 0 ∧ (u.rdS (CLK_x_MEAS_err x.val)).natAbs ≤ 1000
        ∧ (∀ h, s.clk.hopRun = some h → h.pll = x.val → u.rd CLK_EVT_hop_done = 1 ∧ u.clk.hopRun = none)
        ∧ (s.acqSt = 0 → x.val ≠ 1 → TimeAt s u t
            ∧ SameRegs s u [CLK_x_STAT_state x.val, CLK_x_STAT_gated x.val, CLK_x_MEAS_err x.val, CLK_EVT_hop_done, CLK_HOP_pending,
                CLK_HOP_wait_idle, CLK_HOP_wait_gather, CLK_STAT_dll_lock]
            ∧ SameRest s { u with clk := s.clk, grid := s.grid, free := s.free }))
    ∧ (s.pllSt x.val = 1 → 3 ≤ (s.pll x.val).fails → Answers (.adpllFailed x t) s fun u =>
      u.rd (CLK_x_STAT_state x.val) = 7 ∧ u.rd (CLK_x_STAT_gated x.val) = 1 ∧ u.rd CLK_EVT_failed = 1
        ∧ (x.val ≠ 0 → u.rd BBX_STAT_frozen = 1 ∧ u.acqSt = s.acqSt)
        ∧ (x.val = 0 → 1 ≤ s.acqSt → s.acqSt ≤ 5 → u.acqSt = 6 ∧ u.rd ACQ_STAT_stop_cause = 6))

/-- A hop request is refused outside the ranges of R108 and, for ADPLL-S, in DLL mode; of a disabled or FAILED ADPLL it only stores the
target; else it waits for acquisition and for a gather, from which force frees it and from which cancel withdraws it; a hop of ADPLL-C
is done at once, and one of another ADPLL gates it and locks at the new frequency (R126 to R128). The model's own choices it rests on:
log entries 33, 118. -/
def Obligations.FrequencyHops : Prop :=
  ∀ s : State,
    (∀ (p : Port) (v : Word) (t : Nat), Reaches p CLK_HOP_start.addr s →
      let n := v.toNat / 16 % 4
      let f := s.rd CLK_HOP_FREQ_freq
      let inRange := (n = 0 ∧ 800000 ≤ f ∧ f ≤ 1250000) ∨ (n = 1 ∧ (f = 1000000 ∨ f = 500000)) ∨ (n = 2 ∧ 1600000 ≤ f ∧ f ≤ 2000000)
      let refused := ¬inRange ∨ (n = 0 ∧ s.rd CLK_STAT_s_src_act = 1)
      (v.getLsbD 1 = false → v.getLsbD 2 = false → Answers (.hopRequest p v t) s fun u =>
        u.rd CLK_HOP_pll = n ∧ (refused → u.rd CLK_HOP_refused = 1 ∧ u.clk = s.clk)
          ∧ (¬refused → s.rd (CLK_x_CTL_en n) = 0 ∨ s.pllSt n = 7 → u.rd (CLK_x_TARGET_freq n) = f % 2 ^ 21 ∧ u.rd CLK_EVT_hop_done = 1
              ∧ u.clk.hopWait = none ∧ u.clk.hopRun = s.clk.hopRun)
          ∧ (¬refused → s.rd (CLK_x_CTL_en n) = 1 → s.pllSt n ≠ 7 → u.clk = { s.clk with hopWait := some ⟨n, f, false⟩ } ∧ u.rd CLK_HOP_pending = 1
              ∧ (u.rd CLK_HOP_wait_idle = 1 ↔ s.acqSt ≠ 0) ∧ (u.rd CLK_HOP_wait_gather = 1 ↔ n = 0 ∧ s.dsk.gather ≠ none))
          ∧ TimeAt s u t
          ∧ SameRegs s u [CLK_HOP_pll, CLK_HOP_refused, CLK_HOP_pending, CLK_HOP_wait_idle, CLK_HOP_wait_gather, CLK_x_TARGET_freq n,
              CLK_EVT_hop_done]
          ∧ SameRest s { u with clk := s.clk, dsk := s.dsk })
      ∧ (v.getLsbD 0 = false → v.getLsbD 1 = false → Answers (.hopCancel p v t) s fun u =>
        u.clk = { s.clk with hopWait := none } ∧ (u.rd CLK_HOP_pending = 1 ↔ s.clk.hopRun ≠ none) ∧ TimeAt s u t
          ∧ SameRegs s u [CLK_HOP_pll, CLK_HOP_refused, CLK_HOP_pending, CLK_HOP_wait_idle, CLK_HOP_wait_gather]
          ∧ SameRest s { u with clk := s.clk, dsk := s.dsk })
      ∧ (v.getLsbD 0 = false → v.getLsbD 2 = false → Answers (.hopForce p v t) s fun u =>
        (∀ h, s.clk.hopWait = some h → h.pll = 0 → s.dsk.gather ≠ none →
            (s.acqSt = 0 → u.dsk.gather = none ∧ u.rd DSK_GSTAT_aborted = 1 ∧ u.clk.hopWait = some { h with force := false })
            ∧ (s.acqSt ≠ 0 → u.dsk.gather ≠ none ∧ u.clk.hopWait = some { h with force := true }))
          ∧ (s.dsk.gather = none ∨ (∀ h, s.clk.hopWait = some h → h.pll ≠ 0) → u.clk = s.clk ∧ TimeAt s u t
              ∧ SameRegs s u [CLK_HOP_pll, CLK_HOP_refused, CLK_HOP_pending, CLK_HOP_wait_idle, CLK_HOP_wait_gather]
              ∧ SameRest s { u with dsk := s.dsk })))
    ∧ (∀ (t : Nat) (h : Hop), Powered s → s.clk.hopWait = some h → h.pll < 3 → s.acqSt = 0 → s.mode ≠ 0 → s.clk.hopRun = none →
        (h.pll = 0 → s.dsk.gather = none) → Answers (.hopStart t) s fun u =>
      u.clk.hopWait = none ∧ u.rd (CLK_x_TARGET_freq h.pll) = h.freq % 2 ^ 21
        ∧ (h.pll = 1 ∨ s.rd (CLK_x_CTL_en h.pll) = 0 ∨ s.pllSt h.pll = 7 →
            u.rd CLK_EVT_hop_done = 1 ∧ u.clk.hopRun = none ∧ u.rd CLK_HOP_pending = 0)
        ∧ (h.pll ≠ 1 → s.rd (CLK_x_CTL_en h.pll) = 1 → s.pllSt h.pll ≠ 7 → u.clk.hopRun = some h ∧ u.rd CLK_HOP_pending = 1 ∧ u.rd (CLK_x_STAT_gated h.pll) = 1
            ∧ (u.rd (CLK_x_STAT_state h.pll) = 1 ∨ u.rd (CLK_x_STAT_state h.pll) = 2)))

/-- Two judgements that fail, by phase_thr or at a limit, lead to HOLDOVER with the domain running, and to a CLOCK_SUSPECT interval from the
last passed judgement; it ends with recovery, or with a relock when the frequency is more than 200 ppm off or hold_max is over. In
QUALIFY an error of more than 100 ppm starts its 4 µs again (R123, R130, R131, R132, R133, R134). A tile DLL locks to a sample base that
runs, behind a shut gate as long as the domain qualifies. One that loses lock opens a CLOCK_SUSPECT interval of its tile without gating;
locking again sets its bit, and 20 µs without lock make the sample base relock, in DLL mode with the gate shut for a new qualification
(R110, R125, R137). The model's own choices it rests on: log entries 30, 31, 119. -/
def Obligations.LockLossAndTiles : Prop :=
  (∀ (s : State) (x : Pll) (t : Nat), Powered s →
     let fails := fun j : Judge => s.rd CLK_LOCK_CFG_phase_thr < j.ps.natAbs ∨ j.atLimit = true ∨ j.atClamp = true
     let same := fun u : State => TimeAt s u t ∧ SameRegs s u [] ∧ SameRest s u
     let relocked := fun u : State =>
       u.rd (CLK_x_CNT_relocks x.val) = (s.rd (CLK_x_CNT_relocks x.val) + 1) % 2 ^ 16 ∧ u.rd CLK_EVT_gated = 1
         ∧ u.rd (CLK_x_STAT_suspect x.val) = 0 ∧ u.rd (CLK_x_STAT_gated x.val) = 1
         ∧ (u.rd (CLK_x_STAT_state x.val) = 1 ∨ u.rd (CLK_x_STAT_state x.val) = 2)
     (∀ j1 j2 tPass, (s.pllSt x.val = 4 → fails j1 → fails j2 → Answers (.lockLoss x ⟨j1, j2, tPass⟩ t) s fun u =>
         u.rd (CLK_x_STAT_state x.val) = 5 ∧ u.rd (CLK_x_STAT_gated x.val) = 0 ∧ u.rd (CLK_x_STAT_suspect x.val) = 1
           ∧ (u.pll x.val).suspect = some tPass ∧ u.rd (CLK_x_CNT_holdovers x.val) = (s.rd (CLK_x_CNT_holdovers x.val) + 1) % 2 ^ 16
           ∧ (s.inp.pchk = none → u.grid = s.grid)
           ∧ u.rd (if x.val = 0 then CLK_EVT_s_loss else if x.val = 1 then CLK_EVT_c_loss else CLK_EVT_m_loss) = 1)
       ∧ (s.pllSt x.val ≠ 4 ∨ ¬fails j1 ∨ ¬fails j2 → Answers (.lockLoss x ⟨j1, j2, tPass⟩ t) s same))
     ∧ (s.pllSt x.val = 5 → Answers (.holdoverRecovered x t) s fun u =>
       u.rd (CLK_x_STAT_state x.val) = 4 ∧ u.rd (CLK_x_STAT_suspect x.val) = 0 ∧ (u.pll x.val).suspect = none ∧ u.grid = s.grid
         ∧ (s.acqSt = 0 → TimeAt s u t ∧ SameRegs s u [CLK_x_STAT_state x.val, CLK_x_STAT_suspect x.val, CLK_x_MEAS_err x.val]
             ∧ SameRest s { u with clk := s.clk, free := s.free }))
     ∧ (s.pllSt x.val ≠ 5 → Answers (.holdoverRecovered x t) s same)
     ∧ (∀ err : Int, (s.pllSt x.val = 5 → 2000 < err.natAbs → Answers (.holdoverOutOfRange x err t) s relocked)
         ∧ (s.pllSt x.val ≠ 5 ∨ err.natAbs ≤ 2000 → Answers (.holdoverOutOfRange x err t) s fun u =>
           u.rd (CLK_x_MEAS_err x.val) = satU 16 err ∧ TimeAt s u t ∧ SameRegs s u [CLK_x_MEAS_err x.val]
             ∧ (s.pllSt x.val = 3 → 1000 < err.natAbs → (u.pll x.val).since = t)
             ∧ (s.pllSt x.val ≠ 3 ∨ err.natAbs ≤ 1000 → u.pll x.val = { s.pll x.val with meas := some u.tmb.kt })
             ∧ (∀ y : Pll, y ≠ x → u.pll y.val = s.pll y.val) ∧ SameRest s { u with clk := s.clk }))
     ∧ (let over_ := s.pllSt x.val = 5 ∧ s.rd CLK_LOCK_CFG_hold_max ≠ 0 ∧ (s.pll x.val).since + s.rd CLK_LOCK_CFG_hold_max * usF ≤ t
       (over_ → Answers (.holdoverTimeout x t) s relocked) ∧ (¬over_ → Answers (.holdoverTimeout x t) s same)))
  ∧ (∀ (s : State) (tile : Tile) (t : Nat), Powered s →
       let same := fun u : State => TimeAt s u t ∧ SameRegs s u [] ∧ SameRest s u
       let open_ := s.grid.run = true ∧ s.clk.qualAt = none
       let late := ∃ k, (tile.val, k) ∈ s.clk.dllSuspect ∧ k + 20 * usF ≤ t
       (open_ ∨ s.grid.run = false ∧ s.clk.qualAt ≠ none ∧ s.srcRuns = true → tile.val < s.nTiles →
         Answers (.dllLockAcquired tile t) s fun u =>
         u.rd CLK_STAT_dll_lock = (s.rd CLK_STAT_dll_lock ||| 2 ^ tile.val) % 16 ∧ (∀ q ∈ u.clk.dllSuspect, q.1 ≠ tile.val)
           ∧ (open_ → (∀ q ∈ s.clk.dllSuspect, q.1 ≠ tile.val) → TimeAt s u t ∧ SameRegs s u [CLK_STAT_dll_lock] ∧ SameRest s u))
       ∧ (s.grid.run = false ∧ (s.clk.qualAt = none ∨ s.srcRuns = false) ∨ s.nTiles ≤ tile.val → Answers (.dllLockAcquired tile t) s same)
       ∧ (s.grid.run = true → bit (s.rd CLK_STAT_dll_lock) tile.val = true → s.rd CLK_STAT_dll_lock < 16 →
           Answers (.dllLockLoss tile t) s fun u =>
         bit (u.rd CLK_STAT_dll_lock) tile.val = false ∧ u.rd CLK_EVT_dll_loss = 1 ∧ u.clk.dllSuspect = s.clk.dllSuspect ++ [(tile.val, t)]
           ∧ u.grid = s.grid)
       ∧ (s.grid.run = false ∨ bit (s.rd CLK_STAT_dll_lock) tile.val = false → Answers (.dllLockLoss tile t) s same)
       ∧ (late → s.grid.run = true →
           (s.rd CLK_STAT_s_src_act = 0 → s.pllSt 0 ≠ 7 → Answers (.dllRelockTimeout tile t) s fun u =>
             u.clk.dllSuspect = [] ∧ u.rd CLK_EVT_gated = 1 ∧ u.grid.run = false
               ∧ u.rd (CLK_x_CNT_relocks 0) = (s.rd (CLK_x_CNT_relocks 0) + 1) % 2 ^ 16 ∧ u.rd (CLK_x_STAT_gated 0) = 1)
           ∧ (s.rd CLK_STAT_s_src_act = 1 → Answers (.dllRelockTimeout tile t) s fun u =>
             u.clk.dllSuspect = [] ∧ u.rd CLK_EVT_gated = 1 ∧ u.grid.run = false ∧ u.clk.qualAt = some t
               ∧ u.rd (CLK_x_CNT_relocks 0) = s.rd (CLK_x_CNT_relocks 0)))
       ∧ (¬late → Answers (.dllRelockTimeout tile t) s same))

/-! ### Trellis, Hedge and their checks -/

/-- A sample in which one branch of the present level is true takes it, once every sample before it has been evaluated (s0): the level
moves, its counter action acts, and a TRIGGER action stores TRL_LAST and is counted; a sample with no true branch changes nothing (R141,
R152, R155, R156, R159). The model's own choices it rests on: log entries 47, 106. -/
def Obligations.TrellisSample : Prop :=
  ∀ (s : State) (k lvl : Nat), Powered s →
    let s0 := State.trlTo k (State.upTo (s.grid.start k) s)
    s0.trlRuns = true → s0.trl.restart = none → s0.trl.next ≤ k →
    (∀ x : Taken, s0.trlChain k 4 (s0.rd TRL_STAT_level) = ([x], lvl) → s0.rd (TRL_Ln_BRb_ARG_ct_idx x.level x.br) < 16 →
      Answers (.trellisBranchTaken k false false 0 0) s fun u =>
        u.rd TRL_STAT_level = lvl % 16 ∧ u.trl.next = k + 1
          ∧ (s0.on (TRL_Ln_BRb_ACT_ct_clr x.level x.br) = false → s0.on (TRL_Ln_BRb_ACT_ct_inc x.level x.br) = true →
              u.rd (TRL_CTn_VAL (s0.rd (TRL_Ln_BRb_ARG_ct_idx x.level x.br)))
                = min (s0.rd (TRL_CTn_VAL (s0.rd (TRL_Ln_BRb_ARG_ct_idx x.level x.br))) + 1) (2 ^ 48 - 1))
          ∧ (s0.on (TRL_Ln_BRb_ACT_ct_clr x.level x.br) = true → s0.on (TRL_Ln_BRb_ACT_ct_inc x.level x.br) = false →
              u.rd (TRL_CTn_VAL (s0.rd (TRL_Ln_BRb_ARG_ct_idx x.level x.br))) = 0)
          ∧ (s0.on (TRL_Ln_BRb_ACT_trigger x.level x.br) = true → u.rd TRL_LAST_kt = x.t % 2 ^ 72 ∧ u.rd TRL_LAST_HI_valid = 1
              ∧ u.rd TRL_LAST_HI_src = x.ch % 2 ^ 11 ∧ u.rd TRL_LAST_HI_level = x.level % 16 ∧ u.rd TRL_EVT_trig = 1
              ∧ u.rd TRL_TRIG_CNT_count = (s0.rd TRL_TRIG_CNT_count + 1) % 2 ^ 32)
          ∧ (s0.on (TRL_Ln_BRb_ACT_trigger x.level x.br) = false → u.rd TRL_LAST_kt = s0.rd TRL_LAST_kt
              ∧ u.rd TRL_TRIG_CNT_count = s0.rd TRL_TRIG_CNT_count ∧ u.acqSt = s0.acqSt))
    ∧ ((s0.trlChain k 4 (s0.rd TRL_STAT_level)).1 = [] → Answers (.trellisBranchTaken k false false 0 0) s fun u =>
        u = { s0 with trl := { s0.trl with next := k + 1 } })

/-- A TRIG_OUT pulse ends when its width is over; a timer that has reached its limit makes its TM term true (in µs and C from the elapsed
time) and changes nothing beside what has happened by then (s0); an external input keeps the level its edge gave it, in M0 too, and has
none while boundary scan has the lands (R141, R147, R149, R157, R440). A check of the Trellis program or of the Hedge rules while
acquisition is idle writes the first fault and chk_done; otherwise the write is ignored with wr_ign (R164, R165, R199). The model's own
choices it rests on: log entries 45, 46. -/
def Obligations.TrellisInputsAndChecks : Prop :=
  (∀ (s : State) (t : Nat), Powered s →
     let s0 := State.upTo t s
     (∀ (n : Fin 4) e, look s0.trl.out n.val = some e → e ≤ t → Answers (.trigOutPulseEnd n t) s fun u =>
       look u.trl.out n.val = none ∧ (∀ m, m ≠ n.val → look u.trl.out m = look s0.trl.out m) ∧ u.tmb = s0.tmb ∧ SameRegs s0 u []
         ∧ SameRest s0 { u with trl := { u.trl with out := s0.trl.out } })
     ∧ (∀ (n : Fin 16), Answers (.timerLimitReached n t) s fun u =>
       u = s0 ∧ ∀ k, s0.rd (TRL_TMn_CFG_unit n.val) ≠ 0 →
           (s0.rd (TRL_TMn_LIM_LO_value n.val) + 2 ^ 32 * s0.rd (TRL_TMn_LIM_HI_value n.val)) * s0.tmUnit n.val
             ≤ (s0.timer n.val).elapsed (s0.grid.start k) → u.tmTerm n.val k = true)
     ∧ (∀ (i : Fin 8) (rising : Bool), Answers (.gateInputEdge i rising t) s fun u =>
       (s.lands = true → bit u.trl.lvl i.val = rising ∧ (∀ j, j ≠ i.val → bit u.trl.lvl j = bit s.trl.lvl j))
         ∧ SameRegs s u [] ∧ SameRest s { u with inp := { u.inp with hold := s.inp.hold }, trl := { u.trl with lvl := s.trl.lvl, ext := s.trl.ext } }
         ∧ (i.val < 4 → u.inp = s.inp)
         ∧ (s.lands = false ∨ bit s.trl.lvl i.val = rising → SameRest s u) ∧ TimeAt s u t))
  ∧ (∀ (s : State) (p : Port) (v : Word),
       (Reaches p TRL_CFG_check.addr s →
         (s.acqSt = 0 → Answers (.programCheck p v) s fun u =>
           u.rd TRL_CHK_valid = 1 ∧ u.rd TRL_EVT_chk_done = 1 ∧ u.rd TRL_CHK_code = s.trlFault.1 % 2 ^ 8
             ∧ u.rd TRL_CHK_level = s.trlFault.2.1 % 16 ∧ u.rd TRL_CHK_item = s.trlFault.2.2 % 16
             ∧ SameRegs s u [TRL_CFG_start_level, TRL_CFG_qual_reset, TRL_CFG_rearm_restart, TRL_CHK_valid, TRL_CHK_code, TRL_CHK_level,
                 TRL_CHK_item, TRL_EVT_chk_done]
             ∧ SameRest s u)
         ∧ (s.acqSt ≠ 0 → Answers (.programCheck p v) s fun u =>
           u.rd TRL_STAT_wr_ign = 1 ∧ SameRegs s u [TRL_STAT_wr_ign] ∧ SameRest s u))
       ∧ (Reaches p HDG_CTL_check.addr s →
         (s.acqSt = 0 → Answers (.ruleCheck p v) s fun u =>
           u.rd HDG_CHK_valid = 1 ∧ u.rd HDG_EVT_chk_done = 1 ∧ u.rd HDG_CHK_code = s.hdgFault.1 % 2 ^ 8
             ∧ u.rd HDG_CHK_rule = s.hdgFault.2 % 2 ^ 6
             ∧ SameRegs s u [HDG_CTL_en, HDG_CHK_valid, HDG_CHK_code, HDG_CHK_rule, HDG_EVT_chk_done] ∧ SameRest s u)
         ∧ (s.acqSt ≠ 0 → Answers (.ruleCheck p v) s fun u =>
           u.rd HDG_STAT_wr_ign = 1 ∧ SameRegs s u [HDG_STAT_wr_ign] ∧ SameRest s u)))

/-- A resolved channel of a rule's set without a transition in W0 is a MISSING violation at the reference edge plus b0: counted, and held in
HDG_LAST. The end of a stop violation's tail stops acquisition with cause HEDGE. s0 is the machine at that instant, all edges before it
judged (R193, R194, R196, R198). The model's own choices it rests on: log entries 48, 106. -/
def Obligations.HedgeViolations : Prop :=
  ∀ (s : State) (t : Nat), Powered s →
    let s0 := State.upTo t s
    (∀ (n : Fin 64) (c : Chan) (ref : Nat), s0.hdgRuns = true → s0.on (HDG_MKn_CFG_en n.val) = true → s0.on (HDG_MKn_CFG_req0 n.val) = true →
      s0.on (HDG_MKn_CFG_w0_en n.val) = true → s0.inRule n.val c.val = true → (s0.rule n.val).ref = some ref →
      let b0 := s0.rd (HDG_MKn_W0B_value n.val)
      ref + b0 ≤ t → b0 ≤ s0.rd (HDG_MKn_HOR_value n.val) → (s0.rule n.val).w0.contains c.val = false →
      (s0.rule n.val).missed.contains c.val = false → s0.unresTime c.val (ref + s0.rd (HDG_MKn_W0A_value n.val)) (ref + b0) = false →
      Answers (.hedgeMissing n c t) s fun u =>
        u.rd (HDG_MKn_CNT_value n.val) = min (s0.rd (HDG_MKn_CNT_value n.val) + 1) (2 ^ 32 - 1)
          ∧ u.rd HDG_VIOL_CNT_value = min (s0.rd HDG_VIOL_CNT_value + 1) (2 ^ 32 - 1)
          ∧ u.rd HDG_LAST_kt = (ref + b0) % 2 ^ 72 ∧ u.rd HDG_LAST_HI_valid = 1 ∧ u.rd HDG_LAST_HI_kind = 3
          ∧ u.rd HDG_LAST_HI_rule = n.val ∧ u.rd HDG_LAST_HI_channel = c.val
          ∧ ((s0.rule n.val).acted = true → u.tmb = s0.tmb
              ∧ SameRegs s0 u [HDG_MKn_CNT_value n.val, HDG_VIOL_CNT_value, HDG_LAST_kt, HDG_LAST_HI_sres, HDG_LAST_HI_kind,
                  HDG_LAST_HI_rule, HDG_LAST_HI_channel, HDG_LAST_HI_valid]
              ∧ SameRest s0 { u with hdg := { u.hdg with rules := s0.hdg.rules } }))
    ∧ (∀ e, s0.tailStop = some e → s0.armed = true → s0.acq.seg = none ∨ s0.on ACQ_CFG_spill = true →
        s0.posDone e t = true → Answers (.hedgeTailEnd t) s fun u => u.acqSt = 6 ∧ u.rd ACQ_STAT_stop_cause = 2 ∧ u.hdg.tail = none)

/-! ### Acquisition -/

/-- An arm while acquisition is not idle is ignored; one that a check refuses leaves its code and detail and stays idle; one that passes
enters PREFILL, or ARMING with a probe check at arm (R58, R170, R171). A host trigger, the first of its sample, by the state it arrives
in (s0, all before it seen): discarded while acquisition is not capturing or the sample domain is gated, early in PREFILL, accepted in
WAIT at the start of its sample, extra in POSTFILL, blind in REARM (R180, R181). The model's own choices it rests on: log entries 37,
38, 106. -/
def Obligations.ArmAndHostTrigger : Prop :=
  (∀ (s : State) (p : Port) (v : Word) (t : Nat), Reaches p ACQ_CTL_arm.addr s → v.getLsbD 1 = false → v.getLsbD 2 = false →
     (s.acqSt ≠ 0 → Answers (.arm p v t) s fun u =>
       u.rd ACQ_EVT_arm_ign = 1 ∧ TimeAt s u t ∧ SameRegs s u [ACQ_EVT_arm_ign] ∧ SameRest s u)
     ∧ (∀ c d, s.acqSt = 0 → (s.advance t).armFault = some (c, d) → Answers (.arm p v t) s fun u =>
       u.acqSt = 0 ∧ u.rd ACQ_ERR_code = c % 2 ^ 8 ∧ u.rd ACQ_ERR_detail = d % 2 ^ 8 ∧ u.rd ACQ_ERR_valid = 1 ∧ u.rd ACQ_EVT_refused = 1
         ∧ u.acq = { s.acq with retOk := true } ∧ TimeAt s u t ∧ SameRest s { u with acq := s.acq })
     ∧ (s.acqSt = 0 → (s.advance t).armFault = none → s.rd INP_PCHK_CTL_at_arm = 0 → Answers (.arm p v t) s fun u =>
       u.acqSt = 2 ∧ u.rd ACQ_EVT_armed = 1 ∧ u.rd ACQ_ERR_valid = 0)
     ∧ (s.acqSt = 0 → (s.advance t).armFault = none → s.rd INP_PCHK_CTL_at_arm = 1 → Answers (.arm p v t) s fun u =>
       u.acqSt = 1 ∧ u.rd INP_PCHK_CTL_busy = 1 ∧ u.rd ACQ_EVT_armed = 1 ∧ u.rd ACQ_ERR_valid = 0 ∧ u.rd ACQ_TRIG_CNT_count = 0
         ∧ u.deep = s.deep ∧ u.near = s.near))
  ∧ (∀ (s : State) (p : Port) (v : Word) (t : Nat), Reaches p ACQ_CTL_arm.addr s → v.getLsbD 0 = false → v.getLsbD 1 = false →
       let s0 := State.upTo (max s.tmb.kt t) s
       (s0.acqSt ≤ 1 ∨ 6 ≤ s0.acqSt ∨ s0.grid.run = false → Answers (.forceTrig p v t) s fun u =>
         u.rd ACQ_EVT_trig_ign = 1 ∧ u.tmb = s0.tmb ∧ SameRegs s0 u [ACQ_EVT_trig_ign] ∧ SameRest s0 u)
       ∧ (s0.grid.run = true → (∀ q, s0.acq.seen = some q → q.1 ≠ s0.nowPos) →
         (s0.acqSt = 2 → Answers (.forceTrig p v t) s fun u =>
           u.rd ACQ_EARLY_CNT_count = min (s0.rd ACQ_EARLY_CNT_count + 1) (2 ^ 32 - 1) ∧ u.rd ACQ_EVT_early = 1 ∧ u.tmb = s0.tmb
             ∧ SameRegs s0 u [ACQ_EARLY_CNT_count, ACQ_EVT_early]
             ∧ SameRest s0 { u with acq := { u.acq with seg := s0.acq.seg, seen := s0.acq.seen } })
         ∧ (∀ g, s0.acq.seg = some g → s0.acqSt = 3 → Answers (.forceTrig p v t) s fun u =>
           u.acqSt = 4 ∧ u.rd ACQ_EVT_trig = 1 ∧ u.rd ACQ_TRIG_CNT_count = min (s0.rd ACQ_TRIG_CNT_count + 1) (2 ^ 32 - 1)
             ∧ u.rd ACQ_TRIG_HI_valid = 1 ∧ u.rd ACQ_TRIG_HI_source = 2 ∧ u.rd ACQ_TRIG_HI_sres = 1
             ∧ u.rd ACQ_TRIG_kt = s0.grid.start s0.nowPos % 2 ^ 72)
         ∧ (∀ g, s0.acq.seg = some g → s0.acqSt = 4 → Answers (.forceTrig p v t) s fun u =>
           u.rd ACQ_EXTRA_CNT_count = min (s0.rd ACQ_EXTRA_CNT_count + 1) (2 ^ 32 - 1) ∧ u.tmb = s0.tmb
             ∧ SameRegs s0 u [ACQ_EXTRA_CNT_count] ∧ SameRest s0 { u with acq := { u.acq with seg := s0.acq.seg, seen := s0.acq.seen } })
         ∧ (s0.acqSt = 5 → Answers (.forceTrig p v t) s fun u =>
           u.rd ACQ_BLIND_CNT_count = min (s0.rd ACQ_BLIND_CNT_count + 1) (2 ^ 32 - 1) ∧ u.rd ACQ_EVT_blind = 1 ∧ u.tmb = s0.tmb
             ∧ SameRegs s0 u [ACQ_BLIND_CNT_count, ACQ_EVT_blind]
             ∧ SameRest s0 { u with acq := { u.acq with seg := s0.acq.seg, opening := s0.acq.opening, seen := s0.acq.seen } })))

/-- Pre-fill ends after P positions, or at its time limit in the record modes, and acquisition enters WAIT with the dead time measured; s0
is the machine at that instant (R169, R174, R182, R183). The end of post-fill: the last segment stops with cause COUNT, a full region
with cause FULL, and else the next segment is opened in REARM; a chain goes on in a new segment without leaving POSTFILL; s0 is the
machine at that instant (R178, R179, R182, R187). The model's own choices it rests on: log entries 36, 42, 106. -/
def Obligations.SegmentLife : Prop :=
  (∀ (s : State) (t : Nat) (g : Seg), Powered s →
     let s0 := State.upTo t s
     s0.acq.seg = some g → s0.acqSt = 2 ∨ s0.acqSt = 5 →
     let waits := fun (e : Nat) (cut : Bool) (u : State) =>
       u.acqSt = 3 ∧ u.rd ACQ_LAST_DEAD = (e - g.deadFrom) % 2 ^ 64 ∧ u.acq.seg = some { g with cut := cut, dead := e - g.deadFrom }
         ∧ u.tmb = s0.tmb ∧ SameRegs s0 u [ACQ_STAT_state, ACQ_LAST_DEAD] ∧ SameRest s0 { u with acq := { u.acq with seg := s0.acq.seg } }
     (s0.posDone (s0.fillP g + s0.acqP) t = true → g.fillKt ≤ t →
       Answers (.prefillComplete t) s (waits (if s0.recordMode then t else s0.grid.start (s0.fillP g + s0.acqP)) false))
     ∧ (s0.recordMode = true → s0.rd ACQ_PRE_T_time ≠ 0 → g.fillKt + s0.rd ACQ_PRE_T_time * usF ≤ t →
         s0.posDone (s0.fillP g + s0.acqP) t = false →
       Answers (.prefillTimeLimit t) s (waits (g.fillKt + s0.rd ACQ_PRE_T_time * usF) true)))
  ∧ (∀ (s : State) (t : Nat) (g : Seg) (e : Nat), Powered s →
       let s0 := State.upTo t s
       s0.acq.seg = some g → s0.acqSt = 4 → s0.postEnd g = some e → s0.hdg.tail = none →
       let last := s0.rd ACQ_SEG_CNT_count ≠ 0 ∧ s0.rd ACQ_SEG_DONE_count + 1 = s0.rd ACQ_SEG_CNT_count
       let noPlace := s0.placeHeld s0.acq.next = true ∧ s0.on ACQ_CFG_wrap = false
       (s0.posDone e t = true → s0.on ACQ_CFG_spill = false ∨ e ≤ s0.segPos0 g e + s0.segCap →
         (last → Answers (.postfillEnd t) s fun u => u.acqSt = 6 ∧ u.rd ACQ_STAT_stop_cause = 1)
         ∧ (¬last → noPlace → Answers (.postfillEnd t) s fun u => u.acqSt = 6 ∧ u.rd ACQ_STAT_stop_cause = 7)
         ∧ (¬last → ¬noPlace → Answers (.postfillEnd t) s fun u => u.acqSt = 5))
       ∧ (s0.on ACQ_CFG_spill = true → s0.segCap ≠ 0 → s0.segPos0 g e + s0.segCap < e → s0.posDone (s0.segPos0 g e + s0.segCap) t = true →
         (noPlace → Answers (.segmentChain t) s fun u => u.acqSt = 6 ∧ u.rd ACQ_STAT_stop_cause = 7)
         ∧ (¬noPlace → Answers (.segmentChain t) s fun u => u.acqSt = 4 ∧ u.rd ACQ_STAT_chained = 1)))

/-- A stop and a timeout enter STOPPING with their causes, unless a stop violation of Hedge in the same core cycle goes before them, whose
tail then ends the capture; the ignored arm of a stop sets arm_ign. STOPPING ends in IDLE once nothing remains to be stored or delivered
(R187, R188, R196, R201). A full ring, whose fill and highest fill read its capacity, stalls storage on every tile from the next sample
on, with gap_open; storage resumes at a later sample, and the gap is closed; s0 is the machine at that instant (R186). The model's own
choices it rests on: log entries 43, 44, 106, 107, 125. -/
def Obligations.StopsAndGaps : Prop :=
  (∀ (s : State) (t : Nat),
     let capturing := fun u : State => 1 ≤ u.acqSt ∧ u.acqSt ≤ 5
     let cycle := fun (k : Nat) (u : State) => State.edgesTo ((k / u.cnom + 1) * u.cnom) u.inp.hold.length u
     (∀ (p : Port) (v : Word), Reaches p ACQ_CTL_arm.addr s →
       (let k := max s.tmb.kt t
        let h := cycle k (State.upTo k s)
        (capturing (State.upTo k s) → h.hedgeFirst 3 k = true → Answers (.stop p v t) s fun u =>
           u.acqSt = h.acqSt ∧ u.hdg = h.hdg ∧ u.rd ACQ_STAT_stop_cause = h.rd ACQ_STAT_stop_cause)
        ∧ (capturing (State.upTo k s) → h.hedgeFirst 3 k = false → Answers (.stop p v t) s fun u =>
         u.acqSt = 6 ∧ u.rd ACQ_STAT_stop_cause = 3 ∧ (v.getLsbD 0 = true → u.rd ACQ_EVT_arm_ign = 1)
           ∧ (v.getLsbD 2 = true → u.rd ACQ_EVT_trig_ign = 1)))
       ∧ (s.acqSt = 0 → Answers (.stop p v t) s fun u => TimeAt s u t
           ∧ (v.getLsbD 0 = true → u.rd ACQ_EVT_arm_ign = 1) ∧ SameRegs s u [ACQ_EVT_arm_ign, ACQ_EVT_trig_ign] ∧ SameRest s u))
     ∧ (let e := (if s.on ACQ_CFG_to_mode then max s.acq.passKt s.acq.lastTrig else s.acq.passKt) + s.acqTo * usF
       Powered s → capturing (State.upTo e s) → (cycle e (State.upTo e s)).hedgeFirst 4 e = false → s.acqTo ≠ 0 → e ≤ t →
         Answers (.acqTimeout t) s fun u => u.acqSt = 6 ∧ u.rd ACQ_STAT_stop_cause = 4)
     ∧ (Powered s → s.acqSt = 6 → s.siv.blks = [] → s.acq.defer = [] → Answers (.acqIdle t) s fun u =>
       u.acqSt = 0 ∧ u.rd ACQ_STAT_gap_open = 0 ∧ u.rd NMC_STAT_full = 0 ∧ u.rd ACQ_EVT_stopped = 1
         ∧ u.acq = { s.acq with idleAt := t, retOk := true, gapFrom := none } ∧ TimeAt s u t
         ∧ (∀ n, n < s.nTiles → u.rd (NMC_RINGn_fill n) = 0
             ∧ (s.rd (NMC_RINGn_max n) < 2 ^ 16 → s.rd (NMC_RINGn_max n) ≤ u.rd (NMC_RINGn_max n)))
         ∧ SameRegs s u ([ACQ_STAT_state, ACQ_STAT_gap_open, NMC_STAT_full, ACQ_EVT_stopped]
             ++ (List.range 4).flatMap fun n => [NMC_RINGn_fill n, NMC_RINGn_max n])
         ∧ SameRest s { u with acq := s.acq, free := s.free }))
  ∧ (∀ (s : State) (t : Nat), Powered s →
       let s0 := State.upTo t s
       2 ≤ s0.acqSt → s0.acqSt ≤ 5 →
       (∀ tile : Tile, tile.val < s0.nTiles → s0.acq.gapFrom = none → s0.grid.run = true → Answers (.storageStall tile t) s fun u =>
         u.rd ACQ_STAT_gap_open = 1 ∧ u.rd NMC_EVT_ring_full = 1 ∧ u.rd NMC_STAT_full = (s0.rd NMC_STAT_full ||| 2 ^ tile.val) % 16
           ∧ u.acq = { s0.acq with gapFrom := some (s0.grid.posFrom t, s0.grid.start (s0.grid.posFrom t)), ringPos := u.acq.ringPos }
           ∧ u.rd (NMC_RINGn_fill tile.val) = s0.ringCap ∧ u.rd (NMC_RINGn_max tile.val) = s0.ringCap
           ∧ u.acqSt = s0.acqSt ∧ u.tmb = s0.tmb
           ∧ SameRegs s0 u [ACQ_STAT_gap_open, NMC_EVT_ring_full, NMC_STAT_full, SIV_STAT_busy, SIV_WPTR_ptr, NMC_RINGn_fill tile.val,
               NMC_RINGn_max tile.val]
           ∧ SameRest s0 { u with acq := s0.acq, siv := s0.siv, near := s0.near, poison := s0.poison, free := s0.free })
       ∧ (∀ q, s0.acq.gapFrom = some q → Answers (.storageResume t) s fun u =>
         u.rd ACQ_STAT_gap_open = 0 ∧ u.rd NMC_STAT_full = 0 ∧ u.acq.gapFrom = none
           ∧ u.acq.gaps = s0.acq.gaps ++ [(q.1, s0.grid.posFrom t)] ∧ u.acqSt = s0.acqSt))

/-! ### Reduction units, Sieve and the interval unit -/

/-- A reduction interval of I positions ends: the next one begins where it ended with nothing counted. Its entry follows the open block's
entries where the credit and the block have room, and is discarded and counted by a unit that is full; no other unit changes. s0 is the
machine at that instant (R226, R230, R231, R234). A flush timeout closes its unit's block and a flush every open block; the record goes
to the unit's region at its write pointer, and no other byte of deep memory changes. s0 is the machine at that instant (R231, R232,
R233). The model's own choices it rests on: log entries 49, 106. -/
def Obligations.ReductionUnits : Prop :=
  (∀ (s : State) (n : Fin 8) (t : Nat), Powered s →
     let s0 := State.upTo t s
     let r := s0.ru n.val
     let b := r.ivlPos + s0.rd (RED_RUn_IVL_ivl n.val)
     let p := s0.grid.posOf t
     let pay := s0.ivlPayload n.val r.ivlPos b
     r.run = true → ivlKind (s0.rd (RED_RUn_CFG_kind n.val)) = true → s0.grid.run = true → r.nextPos < p → r.ivlPos < b → b ≤ p →
     p < b + s0.rd (RED_RUn_IVL_ivl n.val) →
     Answers (.reductionIntervalEnd n t) s fun u =>
       (u.ru n.val).ivlPos = b ∧ (u.ru n.val).ivlKt = s0.grid.start b ∧ (u.ru n.val).acc = [] ∧ (u.ru n.val).nextPos = p
         ∧ (∀ m, m ≠ n.val → u.ru m = s0.ru m) ∧ u.acqSt = s0.acqSt ∧ u.tmb = s0.tmb
         ∧ (r.shut = true → (u.ru n.val).body = r.body ∧ (u.ru n.val).lost = r.lost + 1
             ∧ u.rd (RED_RUn_LOST n.val) = min (s0.rd (RED_RUn_LOST n.val) + 1) (2 ^ 64 - 1)
             ∧ u.rd RED_EVT_loss = (s0.rd RED_EVT_loss ||| 2 ^ n.val) % 2 ^ 8
             ∧ SameRegs s0 u [RED_RUn_LOST n.val, RED_EVT_loss] ∧ SameRest s0 { u with red := s0.red })
         ∧ (r.shut = false → r.opened = true → s0.redBad n.val r.ivlKt (s0.grid.start b) = false →
             8 + pay.length ≤ s0.redCredit n.val (s0.grid.start b) → r.body.length + 8 + pay.length ≤ 65472 → r.kt ≤ r.ivlKt →
             r.ivlKt - r.kt < 2 ^ 48 →
             (u.ru n.val).count = r.count + 1
               ∧ (∃ w, w % 2 ^ 48 = r.ivlKt - r.kt ∧ (u.ru n.val).body = r.body ++ le 8 w ++ pay)
               ∧ SameRegs s0 u [] ∧ SameRest s0 { u with red := s0.red }))
  ∧ (∀ (s : State) (t : Nat),
       (∀ n : Fin 8, Powered s →
         let a0 := State.upTo t s
         let s0 := if a0.grid.run then a0.redUpTo n.val (a0.grid.posOf t) else a0
         let r := s0.ru n.val
         let f := s0.rd (RED_RUn_FLUSH_time n.val)
         let units := cdiv (64 + r.body.length) 64
         let a := s0.rd (RED_RUn_BASE_value n.val) % 2 ^ 21 * 65536 + 64 * r.wofs
         let size := s0.rd (RED_RUn_SIZE_value n.val) * 1024
         let wraps := r.wofs + units = size ∧ s0.on (RED_RUn_CFG_wrap n.val) = true
         r.opened = true → f ≠ 0 → r.kt + f * usF ≤ t → Answers (.reductionFlushTimeout n t) s fun u =>
           (u.ru n.val).opened = false ∧ (u.ru n.val).count = 0 ∧ (u.ru n.val).body = [] ∧ (u.ru n.val).run = r.run
             ∧ (∀ m, m ≠ n.val → u.ru m = s0.ru m) ∧ u.tmb = s0.tmb
             ∧ (units ≤ 1024 - r.wofs % 1024 → r.wofs + units < size ∨ wraps →
                 u.rd (RED_RUn_WPTR_ptr n.val) = (if r.wofs + units = size then 0 else r.wofs + units) % 2 ^ 32
                   ∧ (u.ru n.val).seq = (r.seq + 1) % 256
                   ∧ (∀ x, x < a ∨ a + 64 * units ≤ x → u.deep.read x = s0.deep.read x)
                   ∧ u.deep.read a = 6
                   ∧ SameRegs s0 u [RED_RUn_WPTR_ptr n.val, DMC_RDP_CNT_count]))
       ∧ (∀ (p : Port) (v : Word), Reaches p RED_CTL_flush.addr s → Answers (.flush p v t) s fun u =>
           let s0 := State.upTo (max s.tmb.kt t) s
           (∀ n, n < 8 → (u.ru n).opened = false ∧ (u.ru n).run = (s0.ru n).run) ∧ u.acqSt = s0.acqSt ∧ u.tmb = s0.tmb))

/-- An offer follows a tile's blocks; a reservation gives its oldest waiting block the lowest free lane and 1,025 units, or finds the region
full or, with wrap, goes on at its base; a block that waits 2 µs in vain is passed through and counted (R238, R247, R248, R249). A lane
that has its whole block writes what its encoder made of it, which decodes to the block's bytes, at the region's end, gives back the
units it does not need and counts the block; no other byte of deep memory changes, and a grant later than 2 µs is counted. A block with
a poisoned access passes through instead (R240, R241, R242, R246, R247, R248, R249, R276, R293). The model's own choices it rests on:
log entries 52, 60. -/
def Obligations.SieveBlocks : Prop :=
  (∀ (s : State) (tile : Tile) (t : Nat), Powered s →
     (∀ p, look s.siv.nextPos tile.val = some p → s.grid.run = true → s.grid.start (p + 8) ≤ t → Answers (.sieveBlockOffer tile t) s fun u =>
       u.siv.blks = s.siv.blks ++ [⟨tile.val, p, s.grid.start p, 256, t, none⟩] ∧ look u.siv.nextPos tile.val = some (p + 2048)
         ∧ (∀ m, m ≠ tile.val → look u.siv.nextPos m = look s.siv.nextPos m) ∧ TimeAt s u t
         ∧ SameRegs s u [SIV_STAT_busy] ∧ SameRest s { u with siv := s.siv })
     ∧ (∀ b l, s.sivWaiting tile.val = some b → s.sivFreeLane tile.val = some l → s.on SIV_STAT_full = false → t ≤ b.at_ + 2 * usF →
       (s.sivRoom = true → Answers (.sieveReservation tile t) s fun u =>
         u.siv.blks = (s.siv.blks.map fun x => if x = b then { b with lane := some l } else x)
           ∧ u.rd SIV_WPTR_ptr = (s.rd SIV_WPTR_ptr + 1025) % 2 ^ 32 ∧ TimeAt s u t
           ∧ SameRegs s u [SIV_STAT_busy, SIV_WPTR_ptr] ∧ SameRest s { u with siv := { u.siv with blks := s.siv.blks } })
       ∧ (s.sivRoom = false → s.on SIV_CFG_wrap = true → s.siv.pre = none → s.sivWrap.sivRoom = true → Answers (.sieveReservation tile t) s fun u =>
         u.siv.blks = (s.siv.blks.map fun x => if x = b then { b with lane := some l } else x) ∧ u.rd SIV_WPTR_ptr = 1025 ∧ TimeAt s u t)
       ∧ (s.sivRoom = false → s.on SIV_CFG_wrap = false → Answers (.sieveReservation tile t) s fun u =>
         u.rd SIV_STAT_full = 1 ∧ u.rd SIV_EVT_full % 2 = 1 ∧ TimeAt s u t ∧ SameRegs s u [SIV_STAT_full, SIV_EVT_full] ∧ SameRest s u)
       ∧ (s.siv.pre = none → (s.sivRoom = true ↔ s.rd SIV_WPTR_ptr + 1025 ≤ s.sivUnits)))
     ∧ (∀ b, s.sivWaiting tile.val = some b → b.at_ + 2 * usF ≤ t → Answers (.sievePassThrough tile t) s fun u =>
       u.siv.blks = (s.siv.blks.filter fun x => decide (x ≠ b)) ∧ u.rd SIV_PASS = (s.rd SIV_PASS + 1) % 2 ^ 64
         ∧ u.rd SIV_EVT_pass % 2 = 1 ∧ TimeAt s u t ∧ SameRegs s u [SIV_STAT_busy, SIV_PASS, SIV_EVT_pass]
         ∧ SameRest s { u with siv := { u.siv with blks := s.siv.blks } }))
  ∧ (∀ (s : State) (lane : Fin 32) (wait t : Nat) (b : SBlk), Powered s →
       s.siv.blks.find? (fun b => b.lane = some lane.val) = some b → s.siv.pre = none →
       (look s.siv.nextPos b.tile = none ∨ s.grid.start (b.pos + 8 * b.n) ≤ t) →
       let level := s.rd (SIV_LANEl_CFG_level lane.val)
       let input := s.sivInput b
       let st := sieveStored level input (Config.sieveStream s.build.coreVer level input)
       let units := cdiv (64 + st.2.length) 64
       let a := s.rd SIV_BASE_value % 2 ^ 21 * 65536 + 64 * s.sivEnd
       let bad := s.ringBad b.tile (b.pos / 8) (b.pos / 8 + b.n) ≠ []
       sieveDecode input.length (crc32c input) st.1 (decide (level = 1)) st.2 = some input
         ∧ st.2.length ≤ input.length
         ∧ (bad → Answers (.sieveBlockWrite lane wait t) s fun u =>
           u.siv.blks = (s.siv.blks.filter fun x => decide (x ≠ b)) ∧ u.rd SIV_WPTR_ptr = (s.rd SIV_WPTR_ptr - 1025) % 2 ^ 32
             ∧ u.rd SIV_PASS = (s.rd SIV_PASS + 1) % 2 ^ 64 ∧ u.rd SIV_EVT_pass % 2 = 1 ∧ TimeAt s u t
             ∧ SameRegs s u [SIV_STAT_busy, SIV_WPTR_ptr, SIV_PASS, SIV_EVT_pass] ∧ SameRest s { u with siv := s.siv })
         ∧ (¬bad → Answers (.sieveBlockWrite lane wait t) s fun u =>
           u.siv.blks = (s.siv.blks.filter fun x => decide (x ≠ b)) ∧ u.siv.seq = (s.siv.seq + 1) % 256
             ∧ u.rd SIV_WPTR_ptr = (s.rd SIV_WPTR_ptr - 1025 + units) % 2 ^ 32 ∧ u.rd SIV_BLK = (s.rd SIV_BLK + 1) % 2 ^ 64
             ∧ u.rd SIV_IN = (s.rd SIV_IN + input.length) % 2 ^ 64 ∧ u.rd SIV_OUT = (s.rd SIV_OUT + st.2.length + 16) % 2 ^ 64
             ∧ (u.rd SIV_RAW = if st.1 = true ∧ level ≠ 0 then (s.rd SIV_RAW + 1) % 2 ^ 64 else s.rd SIV_RAW)
             ∧ (∀ x, x < a ∨ a + 64 * units ≤ x → u.deep.read x = s.deep.read x) ∧ u.deep.read a = 7
             ∧ (2 * usF < wait → u.rd DMC_STARVE_count = min (s.rd DMC_STARVE_count + 1) (2 ^ 32 - 1) ∧ u.rd DMC_EVT_starve = 1)
             ∧ TimeAt s u t
             ∧ SameRegs s u ([SIV_STAT_busy, SIV_WPTR_ptr, SIV_BLK, SIV_IN, SIV_OUT, SIV_RAW, DMC_RDP_CNT_count]
                 ++ if 2 * usF < wait then [DMC_STARVE_count, DMC_EVT_starve] else [])))

/-- 1 µs without a loss ends a loss episode, which then waits for its tile's next timestamp; a timed gate closes on its grid, the next one
opens there, and its record is counted when it is written, at once where the limit of R260 lets it; timestamps 2^55 F old or older leave
a slot and are counted. s0 is the machine at that instant; the unit takes edges, ends of gates and of episodes 8 ns late, in order of
time, the model's choice (R260, R262, R263, R264). The model's own choices it rests on: log entry 106. -/
def Obligations.IntervalTimes : Prop :=
  ∀ (s : State) (t : Nat), Powered s →
    let s0 := State.upTo t s
    let over_ := fun k => match look s0.tim.loss k with
      | some l => decide (l.last + usF ≤ t - alignF)
      | none => false
    Answers (.lossEpisodeEnd t) s (fun u =>
      (∀ k, k < 5 → over_ k = true → look u.tim.loss k = none)
        ∧ (∀ k, k < 5 → over_ k = false → look u.tim.loss k = look s0.tim.loss k)
        ∧ u.tim.ended = s0.tim.ended ++ ((List.range 5).filter over_).filterMap (fun k => (look s0.tim.loss k).map fun l => (k, l))
        ∧ u.tmb = s0.tmb ∧ SameRegs s0 u [] ∧ SameRest s0 { u with tim := { u.tim with loss := s0.tim.loss, ended := s0.tim.ended } })
    ∧ (∀ (slot : Fin 64) (g : Nat), (s0.slot slot.val).gateAt = some g → s0.slotOn slot.val = true →
        s0.rd (TIM_SLOTn_GATE_gsrc slot.val) = 7 → s0.on TIM_STAT_running = true → g + s0.gateLen slot.val < t - alignF →
        (∀ x ∈ s0.tim.hold, s0.tmb.kt - alignF ≤ x.t) → (∀ w ∈ s0.tim.wait, s0.tmb.kt < w.1) → Answers (.timedGateClose slot t) s fun u =>
      (u.slot slot.val).gateAt = some (g + s0.gateLen slot.val) ∧ (∀ m, m ≠ slot.val → u.slot m = s0.slot m) ∧ u.tmb = s0.tmb
        ∧ ((s0.slot slot.val).bad = true → SameRegs s0 u [] ∧ SameRest s0 { u with tim := s0.tim })
        ∧ ((s0.slot slot.val).bad = false →
            (u.rd (TIM_SLOTn_CNT_count slot.val) = if s0.recAt (g + s0.gateLen slot.val) ≤ s0.tmb.kt
                then (s0.rd (TIM_SLOTn_CNT_count slot.val) + 1) % 2 ^ 32 else s0.rd (TIM_SLOTn_CNT_count slot.val))
              ∧ SameRegs s0 u [TIM_SLOTn_CNT_count slot.val, ACQ_LOST]))
    ∧ (∀ slot : Fin 64, (s0.slot slot.val).gateAt = none ∨ s0.slotOn slot.val = false ∨ s0.rd (TIM_SLOTn_GATE_gsrc slot.val) ≠ 7 →
        Answers (.timedGateClose slot t) s fun u => u = s0)
    ∧ (∀ slot : Fin 64, Answers (.staleTimestampDiscard slot t) s fun u =>
      let x := s0.slot slot.val
      let young := fun (e : Stamp) => decide (t < e.t + 2 ^ 55)
      let k := (x.starts.filter fun e => !young e).length + (x.stops.filter fun e => !young e).length
      (u.slot slot.val).starts = x.starts.filter young ∧ (u.slot slot.val).stops = x.stops.filter young
        ∧ (∀ m, m ≠ slot.val → u.slot m = s0.slot m)
        ∧ (u.rd TIM_DISCARD_count = if k = 0 then s0.rd TIM_DISCARD_count else min (s0.rd TIM_DISCARD_count + k) (2 ^ 32 - 1))
        ∧ (k ≠ 0 → u.rd TIM_EVT_discard % 2 = 1) ∧ u.tmb = s0.tmb
        ∧ SameRegs s0 u [TIM_DISCARD_count, TIM_EVT_discard, TIM_OVF_USED_chunks, TIM_STAT_ovf_full, TIM_EVT_ovf_full]
        ∧ SameRest s0 { u with tim := s0.tim })

/-! ### Deep memory, Rake and BAR2 -/

/-- Initialisation waits while the memory is cleared and starts otherwise; at its end a pseudo-channel that failed is marked, and retired
without a migration while the limit allows (R282, R285). While acquisition is idle an apply takes the masks, if all are valid, and
reports hash_bad if not; otherwise it does nothing. Masks that change leave all of deep memory unspecified (R280). The model's own
choices it rests on: log entry 58. -/
def Obligations.DeepInitAndHash : Prop :=
  (∀ (s : State) (t : Nat),
     (∀ (p : Port) (v : Word), Reaches p DMC_CTL_init.addr s → Answers (.dmcInit p v t) s fun u =>
       TimeAt s u t ∧ (s.on DMC_STAT_clear_busy = true → u.dmc.initWait = true ∧ u.dmc.initRun = s.dmc.initRun
           ∧ u.rd DMC_STAT_init_done = s.rd DMC_STAT_init_done)
         ∧ (s.on DMC_STAT_clear_busy = false → u.dmc.initWait = false ∧ u.dmc.initRun = true ∧ u.rd DMC_STAT_init_done = 0)
         ∧ (v.getLsbD 0 = false → v.getLsbD 1 = false → SameRegs s u [DMC_STAT_init_done] ∧ SameRest s { u with dmc := s.dmc }))
     ∧ (Powered s → s.dmc.initRun = true →
         Answers (.dmcInitDone [] t) s (fun u => u.rd DMC_STAT_init_done = 1 ∧ u.dmc = { s.dmc with initRun := false } ∧ TimeAt s u t
           ∧ SameRegs s u [DMC_STAT_init_done] ∧ SameRest s { u with dmc := s.dmc })
         ∧ ∀ pc : Fin 128, pc.val < s.nPc → s.rd (DMC_PC_STAT_state pc.val) ≤ 1 → Answers (.dmcInitDone [pc] t) s fun u =>
           u.rd DMC_STAT_init_done = 1 ∧ u.dmc.initRun = false ∧ u.rd (DMC_PC_STAT_link_fail pc.val) = 1 ∧ u.rd DMC_EVT_init_fail = 1
             ∧ (s.pcActive pc.val = true → s.pcGone < (if s.isH2 then 2 else 4) →
                 u.rd (DMC_PC_STAT_state pc.val) = 2 ∧ u.rd DMC_STAT_retired = (s.rd DMC_STAT_retired + 1) % 8 ∧ u.rd DMC_EVT_retired = 1
                   ∧ bit (u.rd (DMC_RETIRED_bits (pc.val / 32))) (pc.val % 32) = true)
             ∧ (s.pcActive pc.val = true → (if s.isH2 then 2 else 4) ≤ s.pcGone →
                 u.rd DMC_STAT_ret_limit = 1 ∧ u.rd DMC_EVT_ret_limit = 1
                   ∧ u.rd (DMC_PC_STAT_state pc.val) = s.rd (DMC_PC_STAT_state pc.val))))
  ∧ (∀ (s : State) (p : Port) (v : Word), Reaches p DMC_CTL_init.addr s → v.getLsbD 1 = false → v.getLsbD 2 = false →
       (s.acqSt ≠ 0 → Answers (.dmcApply p v) s fun u => SameRegs s u [] ∧ SameRest s u)
       ∧ (s.acqSt = 0 → (List.range 13).all s.hashOk = false → Answers (.dmcApply p v) s fun u =>
           u.rd DMC_STAT_hash_bad = 1 ∧ SameRegs s u [DMC_STAT_hash_bad] ∧ SameRest s u)
       ∧ (s.acqSt = 0 → (List.range 13).all s.hashOk = true → Answers (.dmcApply p v) s fun u =>
           u.rd DMC_STAT_hash_bad = 0 ∧ (∀ n, n < 13 → s.isH2 = false ∨ n ≠ 6 → u.dmc.hash.getD n 0 = s.hashReg n)
             ∧ (u.dmc.hash ≠ s.dmc.hash → u.deep.dflt ≠ none ∧ u.deep.cells = []) ∧ (u.dmc.hash = s.dmc.hash → u.deep = s.deep)
             ∧ SameRegs s u [DMC_STAT_hash_bad] ∧ SameRest s { u with dmc := s.dmc, deep := s.deep, dpoison := s.dpoison, free := s.free }))

/-- A pseudo-channel is retired by a keyed write or when its corrected symbols of a second exceed the threshold: it migrates at once to
those in service, at the interleave in effect, or waits for the migration in progress, or the limit is reported; what the reads of that
second have met is counted. The migration's end, no earlier than DMC_MIG.rate lets it, makes it RETIRED, poisons what it could not
correct and starts the next (R283, R285, R286, R293). The model's own choices it rests on: log entries 56, 58, 129. -/
def Obligations.ChannelRetirement : Prop :=
  ∀ (s : State) (t : Nat),
    let goes := fun (p : Nat) (u : State) =>
      (s.pcGone < (if s.isH2 then 2 else 4) → s.dmc.migQ = [] → s.on DMC_MIG_busy = false →
          u.rd (DMC_PC_STAT_state p) = 1 ∧ u.rd DMC_MIG_busy = 1 ∧ u.rd DMC_MIG_pc = p % 128 ∧ u.rd DMC_MIG_done = 0
            ∧ u.rd DMC_STAT_migrating = 1
            ∧ look u.dmc.moved p = some ((List.range s.nPc).filter (fun k => decide (k ≠ p) && decide (s.rd (DMC_PC_STAT_state k) = 0)),
                s.rd DMC_ILV_GRAIN_grain))
        ∧ (s.pcGone < (if s.isH2 then 2 else 4) → s.on DMC_MIG_busy = true → u.dmc.migQ = s.dmc.migQ ++ [p])
        ∧ ((if s.isH2 then 2 else 4) ≤ s.pcGone → u.rd DMC_STAT_ret_limit = 1 ∧ u.rd DMC_EVT_ret_limit = 1 ∧ u.dmc.migQ = s.dmc.migQ
            ∧ u.rd (DMC_PC_STAT_state p) = s.rd (DMC_PC_STAT_state p))
    (∀ (p : Port) (v : Word), Reaches p DMC_CTL_init.addr s →
      (DMC_CTL_key.of v.toNat = 0x5A3C → s.pcActive (DMC_CTL_pc.of v.toNat) = true → Answers (.dmcRetire p v t) s fun u =>
        goes (DMC_CTL_pc.of v.toNat) u ∧ TimeAt s u t)
      ∧ (DMC_CTL_key.of v.toNat ≠ 0x5A3C ∨ s.pcActive (DMC_CTL_pc.of v.toNat) = false → v.getLsbD 0 = false → v.getLsbD 2 = false →
          Answers (.dmcRetire p v t) s fun u => TimeAt s u t ∧ SameRegs s u [] ∧ SameRest s u))
    ∧ (Powered s → ∀ (pc : Fin 128) (q : Second), pc.val < s.nPc →
      let n := q.symbols + (look s.dmc.sym pc.val).getD 0
      let more := fun (f : Fld) (k : Nat) => min (s.rd f + k) (2 ^ 32 - 1)
      Answers (.retireThreshold pc q t) s fun u =>
        u.rd (DMC_PC_STAT_ce pc.val) = min n 65535 ∧ look u.dmc.sym pc.val = none ∧ TimeAt s u t
          ∧ (q.symbols ≠ 0 → u.rd DMC_CE_CNT_count = more DMC_CE_CNT_count q.symbols ∧ u.rd DMC_EVT_ce = 1)
          ∧ (q.late ≠ 0 → u.rd DMC_STARVE_count = more DMC_STARVE_count q.late ∧ u.rd DMC_EVT_starve = 1)
          ∧ (∀ a, a ∈ q.uncorr → a < s.deepSize → s.serving a = pc.val → a / 64 * 64 ∈ u.dpoison ∧ u.rd DMC_EVT_ue = 1)
          ∧ (q.uncorr = [] → s.rd DMC_RET_THR_thr = 0 ∨ n ≤ s.rd DMC_RET_THR_thr →
              SameRegs s u ([DMC_PC_STAT_ce pc.val] ++ (if q.symbols = 0 then [] else [DMC_CE_CNT_count, DMC_EVT_ce])
                ++ (if q.late = 0 then [] else [DMC_STARVE_count, DMC_EVT_starve]))
              ∧ SameRest s { u with dmc := { u.dmc with sym := s.dmc.sym } })
          ∧ (s.rd DMC_RET_THR_thr ≠ 0 → s.rd DMC_RET_THR_thr < n → s.pcActive pc.val = true → goes pc.val u))
    ∧ (Powered s → s.on DMC_MIG_busy = true →
      let p := s.rd DMC_MIG_pc
      p < 128 → s.dmc.migQ.head? ≠ some p → 2 ^ 41 ≤ s.migRoomAt (max s.tmb.kt t) → ∀ bad, Answers (.migrationComplete ⟨bad, t⟩) s fun u =>
        u.rd (DMC_PC_STAT_state p) = 2 ∧ u.rd DMC_STAT_retired = (s.rd DMC_STAT_retired + 1) % 8 ∧ u.rd DMC_EVT_retired = 1
          ∧ bit (u.rd (DMC_RETIRED_bits (p / 32))) (p % 32) = true ∧ u.deep = s.deep ∧ TimeAt s u t
          ∧ (∀ a ∈ bad, a < s.deepSize → s.pcOf a = p → (a / 64 * 64) ∈ u.dpoison) ∧ (bad = [] → u.dpoison = s.dpoison)
          ∧ (s.dmc.migQ = [] → u.rd DMC_MIG_busy = 0 ∧ u.rd DMC_MIG_done = 1024 ∧ u.rd DMC_STAT_migrating = 0)
          ∧ (∀ q r, s.dmc.migQ = q :: r → u.dmc.migQ = r ∧ u.rd DMC_MIG_busy = 1 ∧ u.rd DMC_MIG_pc = q % 128 ∧ u.rd DMC_MIG_done = 0
              ∧ u.rd (DMC_PC_STAT_state q) = 1))
    ∧ (Powered s → s.on DMC_MIG_busy = false ∨ s.migRoomAt (max s.tmb.kt t) < 2 ^ 41 → ∀ bad, Answers (.migrationComplete ⟨bad, t⟩) s fun u =>
      TimeAt s u t ∧ SameRegs s u [] ∧ SameRest s u)

/-- A spared row is counted; with all 512 spare rows of its pseudo-channel in use that one is retired; a refresh the drain blocks is owed up
to the postponement limit and is issued later; above 85 °C a stack is hot, with at most 4 owed, and below 83 °C no longer (R284, R287,
R288, R289). The model's own choices it rests on: log entry 57. -/
def Obligations.RowsAndRefresh : Prop :=
  ∀ (s : State) (t : Nat), Powered s →
    (∀ (pc : Fin 128) (row : Nat),
      (pc.val < s.nPc → s.rd (DMC_PC_STAT_state pc.val) ≤ 1 → s.rd (DMC_PC_STAT_spares pc.val) < 512 → Answers (.rowSpare pc row t) s fun u =>
        u.rd (DMC_PC_STAT_spares pc.val) = s.rd (DMC_PC_STAT_spares pc.val) + 1 ∧ u.rd DMC_EVT_spare = 1
          ∧ u.rd DMC_SPARE_USED_count = (s.rd DMC_SPARE_USED_count + 1) % 2 ^ 32
          ∧ u.dmc = { s.dmc with spared := s.dmc.spared ++ [(pc.val, row)] } ∧ TimeAt s u t
          ∧ SameRegs s u [DMC_PC_STAT_spares pc.val, DMC_SPARE_USED_count, DMC_EVT_spare] ∧ SameRest s { u with dmc := s.dmc })
      ∧ (s.pcActive pc.val = true → 512 ≤ s.rd (DMC_PC_STAT_spares pc.val) → s.pcGone < (if s.isH2 then 2 else 4) → s.dmc.migQ = [] →
          s.on DMC_MIG_busy = false → Answers (.rowSpare pc row t) s fun u =>
        u.rd (DMC_PC_STAT_state pc.val) = 1 ∧ u.rd DMC_MIG_busy = 1 ∧ u.rd DMC_MIG_pc = pc.val
          ∧ u.rd (DMC_PC_STAT_spares pc.val) = s.rd (DMC_PC_STAT_spares pc.val)))
    ∧ (∀ pc : Fin 128, s.refRuns pc.val = true →
      let near := fun (u : State) => (∀ q, q ≠ pc.val → u.owed q = s.owed q) ∧ TimeAt s u t
        ∧ SameRegs s u [DMC_TEMPs_limit (pc.val / 32), DMC_TEMPs_owed (pc.val / 32)]
        ∧ SameRest s { u with dmc := { u.dmc with owed := s.dmc.owed, cooling := s.dmc.cooling } }
      (∀ blocked : Bool, Answers (.refreshDue pc blocked t) s fun u =>
        u.owed pc.val = s.owed pc.val + (if blocked = true ∧ s.owed pc.val < s.refLimit pc.val then 1 else 0) ∧ near u)
      ∧ Answers (.owedRefreshIssue pc t) s fun u => u.owed pc.val = s.owed pc.val - 1 ∧ near u)
    ∧ (∀ (k : Fin 4) (temp : Int), k.val < s.nStacks → s.mode ≠ 0 → Answers (.stackTempReading k temp t) s fun u =>
      u.rd (DMC_TEMPs_valid k.val) = 1 ∧ u.rd (DMC_TEMPs_temp k.val) = satU 16 temp ∧ TimeAt s u t
        ∧ (s.on (DMC_TEMPs_hot k.val) = false → 85 * 16 < temp → u.rd (DMC_TEMPs_hot k.val) = 1 ∧ u.rd DMC_EVT_hot = 1
            ∧ (∀ p, p / 32 = k.val → u.owed p ≤ 4 ∧ u.refLimit p = 4))
        ∧ (s.on (DMC_TEMPs_hot k.val) = true → temp < 83 * 16 → u.rd (DMC_TEMPs_hot k.val) = 0
            ∧ (∀ p, p / 32 = k.val → 0 < s.owed p → u.refLimit p = 4) ∧ u.dmc.owed = s.dmc.owed)
        ∧ (s.on (DMC_TEMPs_hot k.val) = true ∧ 83 * 16 ≤ temp ∨ s.on (DMC_TEMPs_hot k.val) = false ∧ temp ≤ 85 * 16 →
            SameRegs s u [DMC_TEMPs_valid k.val, DMC_TEMPs_temp k.val] ∧ SameRest s u)
        ∧ SameRegs s u [DMC_TEMPs_valid k.val, DMC_TEMPs_temp k.val, DMC_TEMPs_hot k.val, DMC_TEMPs_limit k.val, DMC_TEMPs_owed k.val,
            DMC_EVT_hot]
        ∧ SameRest s { u with dmc := { u.dmc with owed := s.dmc.owed, cooling := s.dmc.cooling } })

/-- Rake leases the next region of a memory's sweep, or one put back once at its end, as soon as its rate allows it; the memory reads as it
did throughout. A late grant of deep memory is counted. A release gives the region back and counts a sweep with its last one; a
pre-empted region goes to the end of the order (R294, R295, R296, R297). The model's own choices it rests on: log entries 56, 59, 127. -/
def Obligations.RakeLeases : Prop :=
  ∀ (s : State) (target : Fin 3) (t : Nat), Powered s →
    let same := fun (u : State) => u.near = s.near ∧ u.deep = s.deep ∧ u.scr = s.scr ∧ TimeAt s u t
    let i := (look s.rak.nextAt target.val).getD 0
    let due := (look s.rak.due target.val).getD 0
    (∀ q, s.rakeRuns target.val = false ∨ t < due → Answers (.rakeLease target q t) s fun u => TimeAt s u t ∧ SameRegs s u [] ∧ SameRest s u)
    ∧ (∀ q, s.rakeRuns target.val = true → due ≤ t → Answers (.rakeLease target q t) s fun u =>
      (∃ l : Lease, u.rak.leases = l :: s.rak.leases ∧ l.target = target.val ∧ l.algo = s.rd RAK_CTL_algo
        ∧ (l.pc, l.addr, l.len) = s.rakeRegion target.val u.rak.grain l.region
        ∧ (i < s.rakeRegions target.val → l.region = i ∧ look u.rak.nextAt target.val = some (i + 1))
        ∧ (s.rakeRegions target.val ≤ i → ∀ x, s.rak.again.find? (fun x => x.1 = target.val) = some x →
            l.region = x.2 ∧ u.rak.again = s.rak.again.erase x))
        ∧ (q.fails ≠ [] → u.rd RAK_FAIL_CNT_count = (s.rd RAK_FAIL_CNT_count + q.fails.length) % 2 ^ 32 ∧ u.rd RAK_EVT_fail % 2 = 1
            ∧ u.rd RAK_FAIL_ADDR_HI_valid = 1 ∧ u.rd RAK_FAIL_ADDR_HI_target = target.val)
        ∧ (target.val = 1 → 2 * usF < q.wait → u.rd DMC_STARVE_count = min (s.rd DMC_STARVE_count + 1) (2 ^ 32 - 1) ∧ u.rd DMC_EVT_starve = 1)
        ∧ (q.fails = [] → q.corr = [] → q.uncorr = [] → s.cells = [] →
            SameRegs s u ([RAK_STAT_lease, RAK_STAT_busy] ++ if target.val = 1 then
              DMC_RDP_CNT_count :: (if 2 * usF < q.wait then [DMC_STARVE_count, DMC_EVT_starve] else []) else [])
            ∧ SameRest s { u with rak := s.rak, free := s.free })
        ∧ same u)
    ∧ (s.rak.leases.any (fun l => l.target = target.val) = true → Answers (.rakeLeaseRelease target t) s fun u =>
      u.rak.leases = (s.rak.leases.filter fun l => decide (l.target ≠ target.val)) ∧ same u
        ∧ (i < s.rakeRegions target.val ∨ s.rak.again.any (fun x => x.1 = target.val) = true →
            SameRegs s u [RAK_STAT_lease, RAK_STAT_busy] ∧ SameRest s { u with rak := { u.rak with leases := s.rak.leases } })
        ∧ (s.rakeRegions target.val ≤ i → s.rak.again.any (fun x => x.1 = target.val) = false →
            let f := if target.val = 0 then RAK_PASS_NEAR_count else if target.val = 1 then RAK_PASS_DEEP_count else RAK_PASS_SCR_count
            u.rd f = (s.rd f + 1) % 2 ^ 32 ∧ u.rd RAK_EVT_sweep_done = 1 ∧ look u.rak.nextAt target.val = none
              ∧ SameRegs s u [RAK_STAT_lease, RAK_STAT_busy, f, RAK_EVT_sweep_done] ∧ SameRest s { u with rak := s.rak }))
    ∧ (target.val ≠ 1 → s.rak.leases.any (fun l => l.target = target.val) = true → Answers (.rakePreempt target t) s fun u =>
      u.rak.leases = (s.rak.leases.filter fun l => decide (l.target ≠ target.val))
        ∧ u.rak.again = s.rak.again ++ ((s.rak.leases.filter fun l => decide (l.target = target.val)).map fun l => (target.val, l.region))
        ∧ u.rd RAK_PREEMPT_count = (s.rd RAK_PREEMPT_count + 1) % 2 ^ 32 ∧ u.rd RAK_EVT_preempt = 1 ∧ same u
        ∧ SameRegs s u [RAK_STAT_lease, RAK_STAT_busy, RAK_PREEMPT_count, RAK_EVT_preempt] ∧ SameRest s { u with rak := s.rak })
    ∧ (target.val = 1 ∨ s.rak.leases.any (fun l => l.target = target.val) = false → Answers (.rakePreempt target t) s fun u =>
      TimeAt s u t ∧ SameRegs s u [] ∧ SameRest s u)

/-- The end of a clearing: every byte of the memory reads 0, and an initialisation that waited starts (R282, R298). A BAR2 read returns the
bytes of near or deep memory, as their writers have left them, and 0 elsewhere and while a memory is cleared, poisoned where an access
was; a write stores its bytes and no others, or is discarded with early_wr while the memory is cleared. A grant of deep memory later
than 2 µs is counted; with the memory domain gated the access is held. Either ends L1.2; s1 is the machine with the writes of the rings'
owners seen and, during a migration, its watermark moved on, the model's choice (log entry 129) (R13, R128, R135, R283, R293, R298,
R309, R310, R311). The model's own choices it rests on: log entries 56, 60, 127, 129. -/
def Obligations.ClearingAndBar2 : Prop :=
  (∀ (s : State) (t : Nat), Powered s →
     (s.on NMC_STAT_clear_busy = true → Answers (.nearClearDone t) s fun u =>
       (∀ a, u.near.read a = 0 ∧ u.scr.read a = 0) ∧ u.rd NMC_STAT_clear_busy = 0 ∧ u.poison = [] ∧ u.rak.leases = [] ∧ TimeAt s u t
         ∧ SameRegs s u [NMC_STAT_clear_busy]
         ∧ SameRest s { u with near := s.near, scr := s.scr, poison := s.poison, rak := { u.rak with leases := s.rak.leases } })
     ∧ (s.on DMC_STAT_clear_busy = true → Answers (.deepClearDone t) s fun u =>
       (∀ a, u.deep.read a = 0) ∧ u.rd DMC_STAT_clear_busy = 0 ∧ u.dpoison = [] ∧ TimeAt s u t
         ∧ (s.dmc.initWait = true → u.dmc = { s.dmc with initWait := false, initRun := true } ∧ u.rd DMC_STAT_init_done = 0
             ∧ SameRegs s u [DMC_STAT_clear_busy, DMC_STAT_init_done])
         ∧ (s.dmc.initWait = false → u.dmc = s.dmc ∧ SameRegs s u [DMC_STAT_clear_busy])
         ∧ SameRest s { u with deep := s.deep, dpoison := s.dpoison, dmc := s.dmc }))
  ∧ (∀ (s : State) (a wait t : Nat), Powered s → s.hrv.link.isSome = true → s.mode ≠ 0 →
       let late := if 2 * usF < wait then [DMC_STARVE_count, DMC_EVT_starve] else []
       let deep := a < s.deepSize ∧ s.on DMC_STAT_clear_busy = false
       let starves := fun u : State => deep → 2 * usF < wait →
         u.rd DMC_STARVE_count = min (s.rd DMC_STARVE_count + 1) (2 ^ 32 - 1) ∧ u.rd DMC_EVT_starve = 1
       (∀ (len : Nat) (corr uncorr : List Nat), s.memServed = true → Answers (.bar2Read a len corr uncorr ⟨wait, t⟩) s fun u =>
         let n := min len 4096
         let s1 := (s.advance t).migNow.nearSeen a n
         u.hrv.cpl = (List.range n).map (fun i => s1.bar2Byte (a + i))
           ∧ u.near = s1.near ∧ u.deep = s.deep ∧ TimeAt s u t ∧ starves u
           ∧ u.hrv.aerPoison = s.hrv.aerPoison + b2n u.hrv.cplPoison
           ∧ (∀ i, i < n → s1.bar2Poison (a + i) = true → u.hrv.cplPoison = true)
           ∧ (∀ x ∈ uncorr, a ≤ x → x < a + n → x < s.deepSize → s.on DMC_STAT_clear_busy = false → u.hrv.cplPoison = true)
           ∧ (∀ x, corr = [x] → uncorr = [] → a ≤ x → x < a + n → x < s.deepSize → s.on DMC_STAT_clear_busy = false →
               u.rd DMC_CE_CNT_count = min (s.rd DMC_CE_CNT_count + 1) (2 ^ 32 - 1) ∧ u.rd DMC_EVT_ce = 1)
           ∧ (corr = [] → uncorr = [] → s.cells = [] → u.hrv.cplPoison = (List.range n).any (fun i => s1.bar2Poison (a + i))
               ∧ SameRegs s1 u ([DMC_RDP_CNT_count] ++ late)
               ∧ SameRest s1 { u with free := s1.free, hrv := s.hrv }
               ∧ u.hrv = { s.hrv with cpl := u.hrv.cpl, cplPoison := u.hrv.cplPoison, aerPoison := u.hrv.aerPoison, l12 := false }))
       ∧ (∀ (len : Nat) (corr uncorr : List Nat), s.memServed = false → Answers (.bar2Read a len corr uncorr ⟨wait, t⟩) s fun u =>
         u.hrv = { s.hrv with memHeld := s.hrv.memHeld ++ [.read a len corr uncorr wait], l12 := false } ∧ TimeAt s u t ∧ SameRegs s u []
           ∧ SameRest s { u with hrv := s.hrv })
       ∧ (∀ data : List Byte, s.memServed = false → Answers (.bar2Write a data ⟨wait, t⟩) s fun u =>
         u.hrv = { s.hrv with memHeld := s.hrv.memHeld ++ [.write a data wait], l12 := false } ∧ TimeAt s u t ∧ SameRegs s u []
           ∧ SameRest s { u with hrv := s.hrv })
       ∧ (∀ data : List Byte, s.memServed = true →
         let d := data.take 4096
         (deep → s.on HKS_BOOT_done = true → Answers (.bar2Write a data ⟨wait, t⟩) s fun u =>
           (∀ x, u.deep.read x = if a ≤ x ∧ x < a + min d.length (s.deepSize - a) then d.getD (x - a) 0 else s.deep.read x)
             ∧ starves u ∧ TimeAt s u t ∧ SameRegs s u ([DMC_RDP_CNT_count] ++ late)
             ∧ SameRest s { u with deep := s.deep, dpoison := s.dpoison, free := s.free })
         ∧ (bar2Near ≤ a → a < bar2Near + 2 ^ 28 → s.on NMC_STAT_clear_busy = false → s.on HKS_BOOT_done = true →
             Answers (.bar2Write a data ⟨wait, t⟩) s fun u =>
           let s1 := (s.advance t).nearSync
           (∀ x, u.near.read x = if a - bar2Near ≤ x ∧ x < a - bar2Near + min d.length (bar2Near + 2 ^ 28 - a)
               then d.getD (x - (a - bar2Near)) 0 else s1.near.read x)
             ∧ TimeAt s u t ∧ SameRegs s u [] ∧ SameRest s1 { u with near := s1.near, poison := s1.poison })
         ∧ (a < s.deepSize ∧ s.on DMC_STAT_clear_busy = true
             ∨ bar2Near ≤ a ∧ a < bar2Near + 2 ^ 28 ∧ s.on NMC_STAT_clear_busy = true → Answers (.bar2Write a data ⟨wait, t⟩) s fun u =>
           u.rd DMC_EVT_early_wr = 1 ∧ TimeAt s u t ∧ SameRegs s u [DMC_EVT_early_wr] ∧ SameRest s u)
         ∧ (s.deepSize ≤ a ∧ (a < bar2Near ∨ bar2Near + 2 ^ 28 ≤ a)
             ∨ s.on HKS_BOOT_done = false ∧ s.on DMC_STAT_clear_busy = false ∧ s.on NMC_STAT_clear_busy = false →
             Answers (.bar2Write a data ⟨wait, t⟩) s fun u => TimeAt s u t ∧ SameRegs s u [] ∧ SameRest s u)))

/-! ### Harvest -/

/-- A tail write stores the index; a descriptor fetched from its entry of the ring that keeps R320 and R321 joins the ring's queue, one that
breaks them completes BAD_DESC when it is in hand; a failed fetch completes the buffer in hand HOST_ERR and disables the ring (R319,
R320, R321, R333). The model's own choices it rests on: log entry 61. -/
def Obligations.Descriptors : Prop :=
  ∀ (s : State) (n : Fin 16) (t : Nat),
    (∀ (p : Port) (v : Word), Reaches p (HRV_RINGn_TAIL_idx n.val).addr s → Answers (.descriptorTailWrite p n v t) s fun u =>
      u.rd (HRV_RINGn_TAIL_idx n.val) = v.toNat % 2 ^ 16 ∧ TimeAt s u t ∧ SameRegs s u [HRV_RINGn_TAIL_idx n.val] ∧ SameRest s u)
    ∧ (∀ b : List Byte, Powered s → s.ringRuns n.val = true → (s.ring n.val).q.length < 8 →
        (s.rd (HRV_RINGn_HEAD_idx n.val) + (s.ring n.val).q.length) % s.ringSize n.val ≠ s.rd (HRV_RINGn_TAIL_idx n.val) % s.ringSize n.val →
        (∀ d ∈ (s.ring n.val).q, d.bad = false) →
        let bad := s.descBad (decide (s.ringSrc n.val = 0)) b
        (bad = false ∨ (s.ring n.val).q ≠ [] → Answers (.descriptorFetch n b t) s fun u =>
          (∃ d : Desc, (u.ring n.val).q = (s.ring n.val).q ++ [d] ∧ d.addr = field b 0 8 ∧ d.len = field b 8 4 ∧ d.tag = field b 12 4
              ∧ d.src = field b 16 8 ∧ d.bad = bad
              ∧ d.at_ = s.descAddr n.val ((s.rd (HRV_RINGn_HEAD_idx n.val) + (s.ring n.val).q.length) % s.ringSize n.val))
            ∧ (∀ k, k ≠ n.val → u.ring k = s.ring k) ∧ TimeAt s u t ∧ SameRegs s u [] ∧ SameRest s { u with hrv := s.hrv })
        ∧ (bad = true → (s.ring n.val).q = [] → s.cqFull (s.rd (HRV_RINGn_CFG_cq n.val)) = false → Answers (.descriptorFetch n b t) s fun u =>
          Completed s u n.val 4 [] ∧ u.rd HRV_EVT_bad_desc % 2 = 1 ∧ TimeAt s u t ∧ RingFrame s u n.val [HRV_EVT_bad_desc]))
    ∧ (Powered s → s.ringRuns n.val = true → s.ringEmpty n.val = false → Answers (.descriptorFetchError n t) s fun u =>
        u.rd (HRV_RINGn_CFG_en n.val) = 0 ∧ u.rd (HRV_RINGn_STAT_host_err n.val) = 1 ∧ u.rd HRV_EVT_host_err % 2 = 1 ∧ TimeAt s u t
          ∧ (∀ d r, (s.ring n.val).q = d :: r → s.cqFull (s.rd (HRV_RINGn_CFG_cq n.val)) = false → Completed s u n.val 5 [])
          ∧ RingFrame s u n.val [HRV_RINGn_CFG_en n.val, HRV_RINGn_STAT_bad n.val, HRV_RINGn_STAT_host_err n.val, HRV_EVT_host_err])

/-- A COPY descriptor writes its range, as it stands once the errors that its read meets are counted and have poisoned their accesses, to
the buffer, with zeros for poisoned accesses, and completes OK or POISON; with no free completion entry the completion waits; a grant of
deep memory later than 2 µs is counted. The requests are cut at multiples of the payload size, the model's choice (log entry 131) (R275,
R276, R283, R293, R322, R328, R329, R330, R331, R332). The model's own choices it rests on: log entries 56, 60, 61, 127, 129. -/
def Obligations.CopyDescriptors : Prop :=
  ∀ (s : State) (n : Fin 16) (corr uncorr : List Nat) (wait t : Nat) (d : Desc) (rest : List Desc), Powered s → s.ringRuns n.val = true →
    (s.ring n.val).q = d :: rest → d.copy = true → d.bad = false → (∀ e ∈ rest, e.bad = false) →
    let m := s.rd (HRV_RINGn_CFG_cq n.val)
    let a := d.src % 2 ^ 63
    let near := bit d.src 63
    let x := if near then bar2Near + a else a
    let s2 := (s.advance t).migNow.nearSeen x d.len
    let s1 := State.bar2Errors x d.len corr uncorr s2
    let pois := fun i => if near then s1.poison.contains (a + 64 * i) else s1.dpoison.contains (a + 64 * i)
    let bs := (List.range d.len).map fun i => if i / 64 < d.len / 64 ∧ pois (i / 64) = true then (0 : Byte)
      else if near then s1.near.read (a + i) else s1.deep.read (a + i)
    let late := near = false ∧ 2 * usF < wait
    let clean := (s.ring n.val).pois = none ∧ ∀ i, i < d.len / 64 → pois i = false
    Answers (.copyDescriptor n ⟨corr, uncorr, ⟨wait, t⟩⟩) s fun u =>
      (∃ pre, u.hrv.out = s.hrv.out ++ tlps s.maxPayload s.relaxed (d.addr + (s.ring n.val).bytes) bs (d.len / s.maxPayload + 2) ++ pre)
        ∧ u.rd HRV_BYTES = (s.rd HRV_BYTES + d.len) % 2 ^ 64 ∧ TimeAt s u t
        ∧ (late → u.rd DMC_STARVE_count = min (s.rd DMC_STARVE_count + 1) (2 ^ 32 - 1) ∧ u.rd DMC_EVT_starve = 1)
        ∧ (¬late → RingFrame s1 u n.val []) ∧ RingFrame s1 u n.val [DMC_STARVE_count, DMC_EVT_starve]
        ∧ (corr = [] → uncorr = [] → s.cells = [] → s1 = s2)
        ∧ (near = false → s1.deep = s.deep) ∧ (near = true → s1.near = s2.near)
        ∧ (s.cqFull m = false → clean → Completed s u n.val 0 rest)
        ∧ (s.cqFull m = false → ¬clean → Completed s u n.val 1 rest)
        ∧ (s.cqFull m = true → (u.ring n.val).ready ≠ none ∧ (u.ring n.val).q = d :: rest
            ∧ u.rd (HRV_RINGn_HEAD_idx n.val) = s.rd (HRV_RINGn_HEAD_idx n.val))
        ∧ (s.cqFull m = false → d.irq = true → s.cfgBit .msix 15 = true →
            (s.msxMasked m = false → u.msix = m :: s.msix) ∧ (s.msxMasked m = true → u.msix = s.msix ∧ m ∈ u.msxPba))
        ∧ (s.cfgBit .msix 15 = false → u.msix = s.msix ∧ u.msxPba = s.msxPba)

/-- A follow buffer completes when the next record does not fit, when its region is delivered after a stop (once), when its flush time is
over, or when its place was overwritten: the pointer then moves on to a record that starts after the writer's position, one round
earlier, or to that position (R324, R327). The model's own choices it rests on: log entries 61, 62, 127. -/
def Obligations.FollowBuffers : Prop :=
  ∀ (s : State) (n : Fin 16) (t : Nat) (d : Desc) (rest : List Desc), Powered s →
    let s0 := (s.advance t).deliverOut
    let kept := fun u : State => if s.acq.defer = [] then u
      else { u with deep := s.deep, dpoison := s.dpoison, acq := { u.acq with defer := s.acq.defer } }
    let m := s.rd (HRV_RINGn_CFG_cq n.val)
    (s0.ring n.val).q = d :: rest → d.copy = false → d.bad = false → (∀ e ∈ rest, e.bad = false) → s.cqFull m = false →
    let st := if (s0.ring n.val).pois = none then 0 else 1
    (s0.ringRuns n.val = true →
      (∀ o, s0.nextRec n.val = some o → d.len < (s0.ring n.val).bytes + 64 * s0.recUnits (s0.followAddr (s0.ringSrc n.val) o) →
        Answers (.followBufferComplete n t) s fun u => Completed s u n.val st rest ∧ TimeAt s u t ∧ RingFrame s (kept u) n.val [])
      ∧ (s0.nextRec n.val = none → s.acqSt = 0 → (s0.ring n.val).ended = false → s0.overrun n.val = false →
        Answers (.followBufferComplete n t) s fun u => Completed s u n.val st rest ∧ (u.ring n.val).ended = true ∧ TimeAt s u t
          ∧ RingFrame s (kept u) n.val [])
      ∧ (∀ k, (s0.ring n.val).firstAt = some k → s.rd (HRV_RINGn_CFG_flush n.val) ≠ 0 →
          k + s.rd (HRV_RINGn_CFG_flush n.val) * usF ≤ t →
        Answers (.followFlushTimeout n t) s fun u => Completed s u n.val st rest ∧ TimeAt s u t ∧ RingFrame s (kept u) n.val []))
    ∧ ((s.ring n.val).q = d :: rest → s.ringRuns n.val = true → s.overrun n.val = true → Answers (.followOverrun n t) s fun u =>
        Completed s u n.val 2 rest ∧ u.rd HRV_EVT_overrun % 2 = 1 ∧ TimeAt s u t ∧ RingFrame s u n.val [HRV_EVT_overrun]
          ∧ (let m := max 1 s.segUnits
             let v := (u.ring n.val).seg * m + (u.ring n.val).u
             s.ringSrc n.val = 1 → (v ∈ s.acq.starts ∨ v = s.capPos) ∧ s.capPos ≤ v + s.nSegs * m)
          ∧ (let w := (look s.hrv.written (s.ringSrc n.val)).getD 0
             let v := (u.ring n.val).rd
             s.ringSrc n.val ≠ 1 → (v ∈ ((look s.hrv.starts (s.ringSrc n.val)).getD []) ∨ v = w)
               ∧ w ≤ v + (s.regionOf (s.ringSrc n.val)).2))

/-- A ring that is disabled completes its buffer in hand ABORTED and keeps its size, completion ring, source and flush time, and all else
stays as it was; a ring that is not enabled takes them from the write, its size held between 4 and 16. A head write of a completion ring
lets a completion that waits be written; a moderation time that is over signals the ring's vector. While Harvest may complete nothing,
all three wait (R314, R329, R331, R332, R333). The model's own choices it rests on: log entry 61. -/
def Obligations.RingControl : Prop :=
  ∀ (s : State) (t : Nat),
    (∀ (p : Port) (n : Fin 16) (v : Word), Reaches p (HRV_RINGn_CFG_en n.val).addr s →
      (s.on (HRV_RINGn_CFG_en n.val) = true → Answers (.ringDisable p n v t) s fun u =>
        u.rd (HRV_RINGn_CFG_en n.val) = 0 ∧ u.rd (HRV_RINGn_STAT_bad n.val) = 0 ∧ TimeAt s u t
          ∧ ((s.ring n.val).q = [] → (u.ring n.val).q = [])
          ∧ (∀ d r, (s.ring n.val).q = d :: r →
              (s.hrvRuns = true → s.cqFull (s.rd (HRV_RINGn_CFG_cq n.val)) = false → Completed s u n.val 3 [])
              ∧ (s.hrvRuns = false ∨ s.cqFull (s.rd (HRV_RINGn_CFG_cq n.val)) = true →
                  (∃ c, (u.ring n.val).ready = some c ∧ c.1 = 3) ∧ (u.ring n.val).q = [d]
                    ∧ u.rd (HRV_RINGn_HEAD_idx n.val) = s.rd (HRV_RINGn_HEAD_idx n.val)))
          ∧ u.rd (HRV_RINGn_CFG_size n.val) = s.rd (HRV_RINGn_CFG_size n.val) ∧ u.rd (HRV_RINGn_CFG_cq n.val) = s.rd (HRV_RINGn_CFG_cq n.val)
          ∧ u.rd (HRV_RINGn_CFG_src n.val) = s.rd (HRV_RINGn_CFG_src n.val)
          ∧ u.rd (HRV_RINGn_CFG_flush n.val) = s.rd (HRV_RINGn_CFG_flush n.val)
          ∧ RingFrame s u n.val [HRV_RINGn_CFG_en n.val, HRV_RINGn_STAT_bad n.val])
      ∧ (s.on (HRV_RINGn_CFG_en n.val) = false → Answers (.ringDisable p n v t) s fun u =>
        u.rd (HRV_RINGn_CFG_en n.val) = 0 ∧ u.rd (HRV_RINGn_CFG_size n.val) = min 16 (max 4 (v.toNat / 2 ^ 24 % 32))
          ∧ u.rd (HRV_RINGn_CFG_src n.val) = v.toNat / 2 ^ 16 % 16
          ∧ u.rd (HRV_RINGn_CFG_cq n.val) = v.toNat / 2 ^ 20 % 16 ∧ u.rd (HRV_RINGn_CFG_flush n.val) = v.toNat % 2 ^ 16 ∧ TimeAt s u t
          ∧ SameRegs s u [HRV_RINGn_CFG_en n.val, HRV_RINGn_CFG_size n.val, HRV_RINGn_CFG_cq n.val, HRV_RINGn_CFG_src n.val,
              HRV_RINGn_CFG_flush n.val]
          ∧ SameRest s u))
    ∧ (∀ (p : Port) (m : Fin 16) (v : Word), Reaches p (HRV_CQm_HEAD_idx m.val).addr s → Answers (.cqHeadWrite p m v t) s fun u =>
        u.rd (HRV_CQm_HEAD_idx m.val) = v.toNat % 2 ^ 16 ∧ TimeAt s u t
          ∧ ((∀ n, n < 16 → (s.ring n).ready = none) ∨ s.hrvRuns = false → SameRegs s u [HRV_CQm_HEAD_idx m.val] ∧ SameRest s u)
          ∧ (∀ (n : Fin 16) c d r, (s.ring n.val).ready = some c → (s.ring n.val).q = d :: r → (∀ e ∈ r, e.bad = false) →
              (∀ k, k < 16 → k ≠ n.val → (s.ring k).ready = none) → s.rd (HRV_RINGn_CFG_cq n.val) = m.val →
              s.hrvRuns = true → s.on (HRV_CQm_CFG_en m.val) = true →
              (s.rd (HRV_CQm_TAIL_idx m.val) + 1) % s.cqSize m.val ≠ v.toNat % 2 ^ 16 % s.cqSize m.val →
              Completed s u n.val c.1 r ∧ RingFrame s u n.val [HRV_CQm_HEAD_idx m.val]))
    ∧ (∀ m : Fin 16, Powered s →
      let due := (s.cq m.val).oldest + s.rd (HRV_CQm_MOD_T_time m.val) * usF
      ((s.cq m.val).unsig ≠ 0 → due ≤ t → s.on (HRV_CQm_CFG_en m.val) = true → s.hrvRuns = true → s.cfgBit .msix 15 = true →
        Answers (.cqModerationTimeout m t) s fun u =>
          (u.cq m.val).unsig = 0 ∧ TimeAt s u t ∧ SameRegs s u []
            ∧ (s.msxMasked m.val = false → u.msix = m.val :: s.msix ∧ SameRest s { u with hrv := s.hrv, msix := s.msix })
            ∧ (s.msxMasked m.val = true → m.val ∈ u.msxPba ∧ SameRest s { u with hrv := s.hrv, msxPba := s.msxPba }))
      ∧ ((s.cq m.val).unsig = 0 ∨ t < due ∨ s.hrvRuns = false → Answers (.cqModerationTimeout m t) s fun u =>
          TimeAt s u t ∧ SameRegs s u [] ∧ SameRest s u))

/-! ### The station port and Graft -/

/-- An access of the station port begun while SP_BUSY is 1 outside an access has no stated effect: the one fault of the model. Else a read
returns its half-word, counting what failing cells of the word make it meet, and a write stores it; one that meets a host access to the
same word is warned and counted as a collision, with undefined data where the rules give none (R336, R337, R338, R340). While the port
is off, or its lands are under test, its accesses do nothing (R335, R440). A window command in progress ends: the register's word is in
STP_SW_DATA, or what stands there is written to the register; a closed window gives err and, for a read, zeros (R342, R371). The model's
own choices it rests on: log entries 8, 67. -/
def Obligations.StationPort : Prop :=
  (∀ (s : State) (a t : Nat) (d : BitVec 16) (h : Option Nat) (hw : Bool), Powered s → s.on STP_CFG_en = true → s.lands = true →
     let coll := h = some (a / 2)
     let nmc := [NMC_CE_CNT_count, NMC_EVT_ce, NMC_UE_CNT_count, NMC_EVT_ue, NMC_ERR_ADDR_valid, NMC_ERR_ADDR_ue, NMC_ERR_ADDR_scratch,
       NMC_ERR_ADDR_tile, NMC_ERR_ADDR_word, BBX_STAT_count, BBX_HEAD_value, BBX_LOST_value]
     (s.spBusy = true → exec (.stationRead a h hw t) s = .fault .stationBusy ∧ exec (.stationWrite a d h hw t) s = .fault .stationBusy
       ∧ exec (.stationDoorbell d t) s = .fault .stationBusy)
     ∧ (s.spBusy = false → a < windowBase → ¬(coll ∧ hw = true) → Answers (.stationRead a h hw t) s fun u =>
         (s.scrBad (2 * a / 4 * 4) 4 = false → u.stp.dout = s.scr.num (2 * a) 2 % 2 ^ 16) ∧ u.stp.warn = false ∧ TimeAt s u t
           ∧ (s.cells = [] → SameRegs s u []) ∧ SameRegs s u nmc
           ∧ SameRest s { u with stp := { u.stp with dout := s.stp.dout, warn := s.stp.warn }, free := s.free,
                                 bbx := if s.cells = [] then u.bbx else s.bbx })
     ∧ (s.spBusy = false → a < windowBase → coll → hw = true → Answers (.stationRead a h hw t) s fun u =>
         u.rd STP_COLL_rd = 1 ∧ u.rd STP_EVT_coll = 1 ∧ u.rd STP_COLL_RD_CNT_count = (s.rd STP_COLL_RD_CNT_count + 1) % 2 ^ 32
           ∧ u.rd STP_SW_COLL_count = (s.rd STP_SW_COLL_count + 1) % 2 ^ 16 ∧ u.stp.warn = true ∧ u.scr = s.scr ∧ TimeAt s u t
           ∧ SameRegs s u [STP_COLL_rd, STP_COLL_RD_CNT_count, STP_EVT_coll, STP_SW_COLL_count])
     ∧ (s.spBusy = false → windowBase ≤ a → Answers (.stationRead a h hw t) s fun u =>
         u.stp.dout = (s.advance t).word (windowReg a) % 2 ^ 16 ∧ TimeAt s u t ∧ SameRegs s u []
           ∧ SameRest s { u with stp := { u.stp with dout := s.stp.dout, warn := s.stp.warn } })
     ∧ (s.spBusy = false → a < windowBase → Answers (.stationWrite a d h hw t) s fun u =>
         (∀ x, u.scr.read x = if x = 2 * a then BitVec.ofNat 8 d.toNat else if x = 2 * a + 1 then BitVec.ofNat 8 (d.toNat / 256)
             else s.scr.read x)
           ∧ TimeAt s u t
           ∧ (¬coll → u.stp.warn = false ∧ SameRegs s u [] ∧ SameRest s { u with scr := s.scr, stp := { u.stp with warn := s.stp.warn } })
           ∧ (coll → hw = true → u.stp.warn = true ∧ u.rd STP_COLL_wr = 1 ∧ u.rd STP_EVT_coll = 1
               ∧ u.rd STP_COLL_WR_CNT_count = (s.rd STP_COLL_WR_CNT_count + 1) % 2 ^ 32
               ∧ SameRegs s u [STP_COLL_wr, STP_COLL_WR_CNT_count, STP_EVT_coll, STP_SW_COLL_count])
           ∧ (coll → hw = false → u.stp.warn = true ∧ u.rd STP_COLL_rd = 1 ∧ u.rd STP_EVT_coll = 1
               ∧ u.rd STP_COLL_RD_CNT_count = (s.rd STP_COLL_RD_CNT_count + 1) % 2 ^ 32
               ∧ SameRegs s u [STP_COLL_rd, STP_COLL_RD_CNT_count, STP_EVT_coll, STP_SW_COLL_count]))
     ∧ (s.spBusy = false → a = windowBase + 6 → s.stp.cmd = none → Answers (.stationWrite a d h hw t) s fun u =>
         (d.toNat % 4 = 1 → u.rd STP_SW_STAT_busy = 1 ∧ u.stp.cmd = some false)
           ∧ (d.toNat % 4 = 2 → u.rd STP_SW_STAT_busy = 1 ∧ u.stp.cmd = some true) ∧ TimeAt s u t
           ∧ (d.toNat % 4 ≠ 1 → d.toNat % 4 ≠ 2 → u.stp.cmd = none ∧ SameRegs s u [])
           ∧ SameRegs s u [STP_SW_STAT_busy] ∧ SameRest s { u with stp := s.stp })
     ∧ (s.spBusy = false → Answers (.stationDoorbell d t) s fun u =>
         u.rd STP_DB_IN_db = (s.rd STP_DB_IN_db ||| d.toNat) % 2 ^ 16 ∧ (u.hks.keyBit = true ↔ s.hks.keyBit = true ∨ d.getLsbD 15 = true)
           ∧ TimeAt s u t ∧ SameRegs s u [STP_DB_IN_db, STP_SW_DB_OUT_db]
           ∧ SameRest s { u with stp := { u.stp with warn := s.stp.warn }, hks := { u.hks with keyBit := s.hks.keyBit } }))
  ∧ (∀ (s : State) (a t : Nat) (d : BitVec 16) (h : Option Nat) (hw : Bool), s.on STP_CFG_en = false ∨ s.lands = false →
       exec (.stationRead a h hw t) s = .next s ∧ exec (.stationWrite a d h hw t) s = .next s ∧ exec (.stationDoorbell d t) s = .next s
         ∧ (s.on STP_CFG_en = false → s.spBusy = true ∧ s.spData = none))
  ∧ (∀ (s : State) (write : Bool) (t : Nat), Powered s → s.stp.cmd = some write → s.coreRun = true →
       let s1 : State := { ((s.advance t).wr STP_SW_STAT_busy 0) with stp := { s.stp with cmd := none } }
       let c : Instr := if write then .windowWrite t else .windowRead t
       (s.windowOpen s.windowAddr = false → Answers c s fun u =>
         u.rd STP_SW_STAT_busy = 0 ∧ u.rd STP_SW_STAT_err = 1 ∧ u.stp = { s.stp with cmd := none } ∧ TimeAt s u t
           ∧ (write = false → u.rd STP_SW_DATA_LO_data = 0 ∧ u.rd STP_SW_DATA_HI_data = 0)
           ∧ SameRegs s u ([STP_SW_STAT_busy, STP_SW_STAT_err] ++ if write then [] else [STP_SW_DATA_LO_data, STP_SW_DATA_HI_data])
           ∧ SameRest s { u with stp := s.stp })
       ∧ (s.windowOpen s.windowAddr = true → write = false → s.trl.restart = none → Answers c s fun u =>
         u.rd STP_SW_STAT_busy = 0 ∧ u.stp.cmd = none ∧ u.rd STP_SW_DATA_LO_data = s1.barWord s.windowAddr % 2 ^ 16
           ∧ u.rd STP_SW_DATA_HI_data = s1.barWord s.windowAddr / 2 ^ 16 % 2 ^ 16 ∧ TimeAt s u t
           ∧ (s.cells = [] ∨ s.windowAddr < 0x200000 → SameRegs s u [STP_SW_STAT_busy, STP_SW_DATA_LO_data, STP_SW_DATA_HI_data]))
       ∧ (s.windowOpen s.windowAddr = true → write = true → Answers c s fun u =>
         u = State.portWrite .station s.windowAddr 15 s.windowData s1
           ∧ (s.windowAddr = STP_IRQ_EN_en.addr → u.rd STP_IRQ_EN_en = s.windowData % 4 ∧ u.rd STP_SW_STAT_busy = 0 ∧ u.stp.cmd = none
               ∧ TimeAt s u t ∧ SameRegs s u [STP_SW_STAT_busy, STP_IRQ_EN_en] ∧ SameRest s { u with stp := s.stp })))

/-- The CRC-16 of a frame takes its bytes in ascending order, most significant bit first, by polynomial 0x1021 from 0xFFFF. A frame with a
bad CRC, another length than its type requires or an unknown type is counted and discarded, and reaches neither Trellis nor the messages
seen; a valid one is not, nor is a SYNC frame cut short, which R357 excepts. What the Kameth sends passes the check at the other end,
and a frame whose CRC is sent inverted does not. -/
def Obligations.FrameCheck : Prop :=
  crc16 9 0x393837363534333231 = 0x29B1
    ∧ (∀ bits, crc16 0 bits = 0xFFFF)
    ∧ (∀ n bits, crc16 (n + 1) bits = (List.range 8).foldl (fun c _ => if bit c 15 then 2 * c % 2 ^ 16 ^^^ 0x1021 else 2 * c)
        (crc16 n bits ^^^ 256 * (bits / 256 ^ n % 256)))
    ∧ (∀ bits blocks, frameOk bits blocks = true ↔ bits % 16 = 1 ∧ blocks = 2 ∧ bits / 2 ^ 112 % 2 ^ 16 = crc16 14 bits
        ∨ bits % 16 = 2 ∧ blocks = 4 ∧ bits / 2 ^ 240 % 2 ^ 16 = crc16 30 bits)
    ∧ (∀ (inv : Bool),
      (∀ (hop src seq mark kt : Nat) (coarse : Bool), frameOk (withCrc 14 (trigBits hop src seq mark coarse kt) inv) 2 = !inv)
      ∧ (∀ (src t3 t1 t2 : Nat), frameOk (withCrc 30 (syncBits src t3 t1 t2) inv) 4 = !inv))
    ∧ (∀ (s : State) (n : Fin 4) (t bits blocks : Nat), Powered s →
      (s.rd (GRF_GLn_STAT_state n.val) = 0 ∨ s.lands = false ∨ frameOk bits blocks = true ∨ bits % 16 = 2 ∧ blocks < 4 →
        Answers (.frameDiscard n bits blocks t) s fun u => TimeAt s u t ∧ SameRegs s u [] ∧ SameRest s u)
      ∧ (s.rd (GRF_GLn_STAT_state n.val) ≠ 0 → s.lands = true → frameOk bits blocks = false → ¬(bits % 16 = 2 ∧ blocks < 4) →
        Answers (.frameDiscard n bits blocks t) s fun u =>
          u.rd (GRF_GLn_ERR_crc n.val) = (s.rd (GRF_GLn_ERR_crc n.val) + 1) % 2 ^ 16 ∧ u.rd GRF_EVT_crc % 2 = 1
            ∧ (u.gport n.val).good = 0 ∧ u.trl = s.trl ∧ u.grf.seen = s.grf.seen ∧ TimeAt s u t
            ∧ SameRegs s u [GRF_GLn_ERR_crc n.val, GRF_EVT_crc, GRF_EVT_drop, GRF_GLn_ERR_drop 0, GRF_GLn_ERR_drop 1, GRF_GLn_ERR_drop 2,
                GRF_GLn_ERR_drop 3]
            ∧ SameRest s { u with grf := s.grf }))

/-- A trigger message at an UP port: its own unit's echo from a peer of the same ID is dropped, a repeat within 10 µs is only counted, and
any other is shown, given to Trellis while it evaluates, and forwarded with one hop more. At the hop limit the port that received it
counts one drop for each port it should have gone to (R350, R356, R357). The model's own choices it rests on: log entry 53. -/
def Obligations.TriggerMessages : Prop :=
  ∀ (s : State) (n : Fin 4) (hop : Fin 16) (src : Fin 4096) (seq mark : Fin 256) (coarse : Bool) (kt t : Nat), Powered s →
    let own := s.on GRF_UNIT_ID_valid = true ∧ s.on (GRF_GLn_STAT_peer_valid n.val) = true
      ∧ s.rd (GRF_GLn_STAT_peer n.val) = s.rd GRF_UNIT_ID_id
    let c := Instr.trigFrame n hop src seq mark coarse kt t
    let heard := fun u : State => u.gport n.val = { s.gport n.val with okAt := t } ∧ ∀ m, m ≠ n.val → u.gport m = s.gport m
    (s.portUp n.val = false → Answers c s fun u => TimeAt s u t ∧ SameRegs s u [] ∧ SameRest s u)
    ∧ (s.portUp n.val = true → own → Answers c s fun u =>
        heard u ∧ TimeAt s u t ∧ SameRegs s u [] ∧ SameRest s { u with grf := { u.grf with ports := s.grf.ports } })
    ∧ (s.portUp n.val = true → ¬own → s.grfDup src.val seq.val t = true → Answers c s fun u =>
        u.rd GRF_DUP_count = (s.rd GRF_DUP_count + 1) % 2 ^ 32 ∧ heard u ∧ TimeAt s u t ∧ SameRegs s u [GRF_DUP_count]
          ∧ SameRest s { u with grf := { u.grf with ports := s.grf.ports } })
    ∧ (s.portUp n.val = true → ¬own → s.grfDup src.val seq.val t = false → Answers c s fun u =>
        let regs := [GRF_GLn_LAST_SRC_valid n.val, GRF_GLn_LAST_SRC_coarse n.val, GRF_GLn_LAST_SRC_hop n.val, GRF_GLn_LAST_SRC_src n.val,
          GRF_GLn_LAST_SRC_mark_code n.val, GRF_GLn_LAST_kt n.val, GRF_GLn_RX_rx n.val, GRF_EVT_rx, GRF_GLn_RX_ign n.val]
        u.rd (GRF_GLn_LAST_SRC_valid n.val) = 1 ∧ u.rd (GRF_GLn_LAST_SRC_coarse n.val) = b2n coarse
          ∧ u.rd (GRF_GLn_LAST_SRC_hop n.val) = hop.val ∧ u.rd (GRF_GLn_LAST_SRC_src n.val) = src.val
          ∧ u.rd (GRF_GLn_LAST_SRC_mark_code n.val) = mark.val ∧ u.rd (GRF_GLn_LAST_kt n.val) = kt % 2 ^ 72 + 2 ^ 88 * seq.val
          ∧ u.rd (GRF_GLn_RX_rx n.val) = (s.rd (GRF_GLn_RX_rx n.val) + 1) % 2 ^ 16 ∧ u.rd GRF_EVT_rx % 2 = 1
          ∧ (src.val, seq.val, t) ∈ u.grf.seen ∧ TimeAt s u t
          ∧ (s.trlRuns = true → u.trl.gl = s.trl.gl ++ [(8 + n.val, t)] ∧ u.rd (GRF_GLn_RX_ign n.val) = s.rd (GRF_GLn_RX_ign n.val))
          ∧ (s.trlRuns = false → u.trl = s.trl ∧ u.rd (GRF_GLn_RX_ign n.val) = (s.rd (GRF_GLn_RX_ign n.val) + 1) % 2 ^ 16)
          ∧ (s.fwdPorts n.val = [] → SameRegs s u regs ∧ heard u
              ∧ SameRest s { u with grf := { u.grf with seen := s.grf.seen, ports := s.grf.ports }, trl := { u.trl with gl := s.trl.gl } })
          ∧ (s.rd GRF_CFG_max_hop ≤ hop.val + 1 →
              u.rd (GRF_GLn_ERR_drop n.val) = (s.rd (GRF_GLn_ERR_drop n.val) + (s.fwdPorts n.val).length) % 2 ^ 16
                ∧ (s.fwdPorts n.val ≠ [] → u.rd GRF_EVT_drop % 2 = 1) ∧ u.grf.sent = s.grf.sent
                ∧ SameRegs s u (regs ++ [GRF_GLn_ERR_drop n.val, GRF_EVT_drop]))
          ∧ (∀ m, s.fwdPorts n.val = [m] → m < 4 → hop.val + 1 < s.rd GRF_CFG_max_hop → s.portUp m = false →
              u.rd (GRF_GLn_ERR_drop m) = (s.rd (GRF_GLn_ERR_drop m) + 1) % 2 ^ 16 ∧ u.rd GRF_EVT_drop % 2 = 1 ∧ u.grf.sent = s.grf.sent)
          ∧ (∀ m, s.fwdPorts n.val = [m] → m < 4 → hop.val + 1 < s.rd GRF_CFG_max_hop → s.portUp m = true → (s.gport m).starts = [] →
              ∃ f, u.grf.sent.head? = some f ∧ f.port = m ∧ f.blocks = 2 ∧ f.t = t
                ∧ f.bits = withCrc 14 (trigBits (hop.val + 1) src.val seq.val mark.val coarse kt) false))

/-- A SYNC frame shows its peer, trains a port (the 16th valid one makes it UP), and measures delay and offset as means of the port's last
1,024 frames, those of its training among them (DEDUCED, log entry 55); on an UP port the alarm shows what lies beyond the threshold. At
a port that is OFF, or with the lands under test, there is none (R350, R354, R359, R361, R440). A port that is not OFF sends its SYNC
frame once a microsecond; a port enabled while the core domain runs trains, and an UP port that loses block lock, or has no valid frame
for 4 µs, trains again (R351, R354). The model's own choices it rests on: log entries 53, 54, 55. -/
def Obligations.SyncAndPorts : Prop :=
  (∀ (s : State) (n : Fin 4) (unit : Fin 4096) (t3 t1 t2 t : Nat), Powered s →
     let g := s.gport n.val
     let st := s.rd (GRF_GLn_STAT_state n.val)
     let dup := s.on GRF_UNIT_ID_valid = true ∧ unit.val = s.rd GRF_UNIT_ID_id
     let c := Instr.syncFrame n unit t3 t1 t2 t
     (st = 0 ∨ s.lands = false → Answers c s fun u => TimeAt s u t ∧ SameRegs s u [] ∧ SameRest s u)
     ∧ (st = 1 ∨ st = 2 → s.lands = true → Answers c s fun u =>
         u.rd (GRF_GLn_STAT_peer n.val) = unit.val ∧ u.rd (GRF_GLn_STAT_peer_valid n.val) = 1
           ∧ (dup → u.rd GRF_EVT_dup_id % 2 = 1) ∧ (u.gport n.val).lastSync = some (t3, t) ∧ (u.gport n.val).good = g.good + 1
           ∧ (∀ m, m ≠ n.val → u.gport m = s.gport m) ∧ TimeAt s u t
           ∧ (st = 2 ∨ g.good + 1 < 16 → u.rd (GRF_GLn_STAT_state n.val) = st)
           ∧ (st = 1 → 16 ≤ g.good + 1 → u.rd (GRF_GLn_STAT_state n.val) = 2 ∧ u.rd GRF_EVT_link_up % 2 = 1)
           ∧ (let ds := ((ktDiff t t1 - ktDiff t3 t2) :: g.dlys).take 1024
              let os := ((ktDiff t3 t + s.rdS (GRF_CABLE_DLY_value n.val)) :: g.ofss).take 1024
              u.rd (GRF_GLn_DLY_value n.val) = satU 32 (meanOf ds 2) ∧ u.rd (GRF_GLn_OFS_value n.val) = satU 32 (meanOf os 1))
           ∧ (s.rd GRF_OFS_THR_thr < (u.rdS (GRF_GLn_OFS_value n.val)).natAbs → u.rd (GRF_GLn_STAT_state n.val) = 2 →
               u.rd GRF_EVT_ofs % 2 = 1 ∧ (u.gport n.val).ofsOn = true)
           ∧ (¬dup → (u.rdS (GRF_GLn_OFS_value n.val)).natAbs ≤ s.rd GRF_OFS_THR_thr →
               SameRegs s u ([GRF_GLn_STAT_peer n.val, GRF_GLn_STAT_peer_valid n.val, GRF_GLn_DLY_value n.val, GRF_GLn_OFS_value n.val]
                 ++ if st = 1 ∧ 16 ≤ g.good + 1 then [GRF_GLn_STAT_state n.val, GRF_EVT_link_up] else [])
               ∧ SameRest s { u with grf := s.grf })))
  ∧ (∀ (s : State) (n : Fin 4) (t : Nat),
       (Powered s → s.rd (GRF_GLn_STAT_state n.val) ≠ 0 → s.lands = true →
         (∀ x, (s.gport n.val).syncAt = some x → t < x + usF → Answers (.syncSend n t) s fun u => TimeAt s u t ∧ SameRegs s u [] ∧ SameRest s u)
         ∧ ((∀ x, (s.gport n.val).syncAt = some x → x + usF ≤ t) → Answers (.syncSend n t) s fun u =>
           (∃ f, u.grf.sent = f :: s.grf.sent ∧ f.port = n.val ∧ f.blocks = 4 ∧ t ≤ f.t
               ∧ (∀ l, (s.gport n.val).lastSync = some l → f.bits = withCrc 30 (syncBits (s.rd GRF_UNIT_ID_id) f.t l.1 l.2) false))
             ∧ (u.gport n.val).syncAt = some t ∧ (∀ m, m ≠ n.val → u.gport m = s.gport m) ∧ TimeAt s u t ∧ SameRegs s u []
             ∧ SameRest s { u with grf := s.grf, free := s.free }))
       ∧ (∀ (p : Port) (v : Word), Reaches p (GRF_GLn_CFG_en n.val).addr s → Answers (.portEnable p n v t) s fun u =>
           u.rd (GRF_GLn_CFG_en n.val) = 1 ∧ u.rd (GRF_GLn_CFG_fwd n.val) = v.toNat / 2 ^ 24 % 16
             ∧ (u.rd (GRF_GLn_STAT_state n.val) = if s.rd (GRF_GLn_STAT_state n.val) = 0 then 1 else s.rd (GRF_GLn_STAT_state n.val))
             ∧ TimeAt s u t
             ∧ SameRegs s u [GRF_GLn_CFG_en n.val, GRF_GLn_CFG_fwd n.val, GRF_GLn_CFG_dly_src n.val, GRF_GLn_STAT_state n.val]
             ∧ SameRest s { u with grf := s.grf })
       ∧ (∀ lost : Bool, Powered s →
         (s.portUp n.val = true → lost = true ∨ (s.gport n.val).okAt + 4 * usF ≤ t → Answers (.linkTimeout n ⟨lost, t⟩) s fun u =>
           u.rd (GRF_GLn_STAT_state n.val) = 1 ∧ u.rd GRF_EVT_link_down % 2 = 1 ∧ (u.gport n.val).good = 0 ∧ TimeAt s u t
             ∧ SameRegs s u [GRF_GLn_STAT_state n.val, GRF_EVT_link_down] ∧ SameRest s { u with grf := s.grf })
         ∧ (s.portUp n.val = true → lost = false → t < (s.gport n.val).okAt + 4 * usF → Answers (.linkTimeout n ⟨lost, t⟩) s fun u =>
           TimeAt s u t ∧ SameRegs s u [] ∧ SameRest s u)
         ∧ (s.portUp n.val = false → Answers (.linkTimeout n ⟨lost, t⟩) s fun u =>
           (lost = true → (u.gport n.val).good = 0) ∧ (lost = false → u.grf = s.grf) ∧ (∀ m, m ≠ n.val → u.gport m = s.gport m)
             ∧ TimeAt s u t ∧ SameRegs s u [] ∧ SameRest s { u with grf := { u.grf with ports := s.grf.ports } })))

/-! ### Start-up, the sequencer and the configuration memory -/

/-- The always-on domain powers up in the reset state with the straps sampled, keeping only what no power holds; the main rails then power
up with a feed that allows it and start the sequence with both memories to be cleared; with the rails off the always-on domain loses
power once both feeds have been gone for 30 s, or for less if more than 60 mA is drawn from VIO_REF (R17, R366, R369, R394, R399, R404,
R435). The model's own choices it rests on: log entries 2, 132. -/
def Obligations.PowerUps : Prop :=
  ∀ (s : State) (t : Nat),
    let started := fun (u : State) => u.hks.rails = true ∧ u.hks.step = 2 ∧ u.hks.stepAt = t ∧ u.rd GLB_RST_CAUSE_off = 1
      ∧ u.rd NMC_STAT_clear_busy = 1 ∧ u.rd DMC_STAT_clear_busy = 1 ∧ u.rd HKS_BOOT_sel = s.hks.sel % 4
      ∧ u.rd HKS_BOOT_sig_req = b2n (!s.hks.sigN) ∧ u.acqSt = 0 ∧ u.pwr.offAt = none ∧ u.nv = s.nv ∧ u.jtg.ir = 1
      ∧ u.rd PWR_STAT_active = s.rd PWR_STAT_active ∧ TimeAt s u t
    let l := s.pwr.lostAt.getD 0
    (∀ (sel : Fin 4) (sigN : Bool),
      (s.pwr.dead = false → exec (.aonPowerUp sel sigN) s = .next s)
      ∧ (s.pwr.dead = true → ∃ u, exec (.aonPowerUp sel sigN) s = .next u ∧ u.fields = State.reset.fields ∧ u.tmb = State.reset.tmb
          ∧ u.clk = State.reset.clk ∧ u.pwr = State.reset.pwr ∧ u.bbx = State.reset.bbx ∧ u.hks.sel = sel.val ∧ u.hks.sigN = sigN
          ∧ u.nv = s.nv ∧ u.build = s.build ∧ u.pending = s.pending))
    ∧ (s.pwr.dead = false → s.hks.rails = false →
        (s.pwr.offAt = none → s.feed (s.rd PWR_STAT_active) = 1 ∨ s.feed (s.rd PWR_STAT_active) = 7 → Answers (.wakeFromOff t) s started)
        ∧ (s.pwr.offAt ≠ none → s.anyGood = true → s.bbx.dumping = false → s.pwr.cause ≤ 1 → Answers (.wakeFromOff t) s started)
        ∧ (s.pwr.offAt ≠ none → s.anyGood = true → s.bbx.dumping = false → 2 ≤ s.pwr.cause →
            (s.pwr.absent = true → s.on PWR_THERM_CFG_restart = false → Answers (.wakeFromOff t) s started)
            ∧ (s.pwr.absent = false ∨ s.on PWR_THERM_CFG_restart = true → Answers (.wakeFromOff t) s fun u =>
              TimeAt s u t ∧ SameRegs s u [] ∧ SameRest s u))
        ∧ (s.pwr.offAt ≠ none → s.anyGood = false ∨ s.bbx.dumping = true → Answers (.wakeFromOff t) s fun u =>
            TimeAt s u t ∧ SameRegs s u [] ∧ SameRest s u)
        ∧ (2 ≤ s.pwr.cause → s.on PWR_THERM_CFG_restart = true → (s.pwr.seqAt.getD t) + 60 * secF ≤ t → s.rdS TMB_TEMP_temp < 80 * 16 →
            s.anyGood = true → s.bbx.dumping = false → Answers (.thermalRestart t) s started))
    ∧ (s.pwr.dead = false → s.hks.rails = false → s.feedOk 0 = false → s.feedOk 1 = false → s.feed 0 ≠ 7 → s.feed 1 ≠ 7 →
        l + holdUpF l ≤ s.tmb.kt →
        Answers .alwaysOnPowerLoss s fun u => u = { s with pwr := { s.pwr with dead := true } })
    ∧ (s.pwr.dead = false → s.hks.rails = true ∨ s.feedOk 0 = true ∨ s.feedOk 1 = true ∨ s.tmb.kt < l + holdUpF l →
        Answers .alwaysOnPowerLoss s fun u => u = s)
    ∧ holdUpF l ≤ 30 * secF ∧ (Config.vioLoad l ≤ 60 → holdUpF l = 30 * secF)

/-- The image is checked in order: the first check that fails ends start-up in safe default with its code; with all passed its bytes stand
in near memory and the configuration script runs; while the key hash is awaited nothing is decided, until 2 s have passed; with the
lands under test no image is read (R368, R375, R377, R378, R379, R440). The model's own choices it rests on: log entries 70, 71. -/
def Obligations.ImageChecks : Prop :=
  ∀ (s : State) (t : Nat), Powered s → s.hks.step = 4 →
    let failed := fun (e : Nat) (u : State) => u.rd HKS_BOOT_err = e % 2 ^ 8 ∧ u.rd HKS_BOOT_safe = 1 ∧ u.rd HKS_BOOT_done = 1
      ∧ u.hks.step = 6 ∧ bit (u.rd HKS_EVT_bits) 1 = true ∧ u.hks.script = s.hks.script ∧ TimeAt s u t
    (s.lands = false → ∀ size, Answers (.imageCheck size t) s fun u => TimeAt s u t ∧ SameRegs s u [] ∧ SameRest s u)
    ∧ (s.lands = true → ∀ size : Nat,
      let n := min size (2 ^ 28)
      let h := s.nv.bytes 0 64
      let img := s.nv.bytes 0 (field h 8 4)
      let crcOk := crc32c (zeroed 20 4 img) = field h 20 4
      let runs := fun (u : State) => u.hks.step = 5 ∧ u.rd HKS_STAT_running = 1 ∧ u.rd HKS_STAT_script = 8
        ∧ u.hks.script = some ⟨8, imageBase + field img 12 4, 0, (img.length - field img 12 4) / 4, none, none⟩
        ∧ u.near = s.near.write imageBase img ∧ TimeAt s u t
      (∀ e, s.headerErr h n = some e → Answers (.imageCheck size t) s fun u => failed e u ∧ u.near = s.near)
      ∧ (s.headerErr h n = none → ¬crcOk → Answers (.imageCheck size t) s (failed 7))
      ∧ (s.headerErr h n = none → crcOk → s.hks.sigN = true → Answers (.imageCheck size t) s fun u => runs u
          ∧ u.rd HKS_BOOT_verified = s.rd HKS_BOOT_verified)
      ∧ (s.headerErr h n = none → crcOk → s.hks.sigN = false →
          (∀ src key, (s.nearPut imageBase img).keyHash = some (src, key) →
            (∀ e, signErr img key = some e → Answers (.imageCheck size t) s fun u => failed e u ∧ u.rd HKS_BOOT_key_src = src % 4)
            ∧ (signErr img key = none → Answers (.imageCheck size t) s fun u => runs u ∧ u.rd HKS_BOOT_verified = 1))
          ∧ ((s.nearPut imageBase img).keyHash = none → Answers (.imageCheck size t) s fun u =>
              u.hks.step = 4 ∧ u.hks.script = s.hks.script ∧ u.rd HKS_BOOT_done = s.rd HKS_BOOT_done ∧ TimeAt s u t)))
    ∧ (s.hks.stepAt + 2 * secF ≤ t → Answers (.loadTimeout t) s fun u =>
        failed (if s.hks.sigN = false ∧ s.keyHash = none then 8 else 12) u)
    ∧ (t < s.hks.stepAt + 2 * secF → Answers (.loadTimeout t) s fun u => TimeAt s u t ∧ SameRegs s u [] ∧ SameRest s u)

/-- The script operations: each does what R380 says and goes on behind its words, or stops the script with the error of R381, which ends
start-up if it is the configuration script; one whose registers cannot be accessed yet waits; END ends it, and after the configuration
script start-up is done (R112, R380, R381, R385). A poll whose condition a reading meets goes on; at its time-out the last reading
decides, and a poll that fails goes on with poll_to or stops the script, and while its register cannot be accessed it waits; a wait that
is over lets the script go on (R112, R380, R381). The model's own choices it rests on: log entry 72. -/
def Obligations.ScriptOperations : Prop :=
  (∀ (s : State) (k : Script) (t : Nat), Powered s → s.ready = some k → s.fetchErr k = none →
     (s.opReach k = false → ∀ c ∈ [Instr.write t, .rmw t, .poll t, .wait t, .branchVariant t, .branchStatus t, .callEvent t, .endScript t],
       Answers c s fun u => TimeAt s u t ∧ SameRegs s u [] ∧ SameRest s u)
     ∧ (s.opReach k = true →
     let op := s.scriptOp k
     let a := s.argAddr k
     let goes := fun (n : Nat) (u : State) => u.hks.script = some { k with pc := k.pc + n, poll := none } ∧ TimeAt s u t
     let err := fun (e : Nat) (u : State) => u.hks.script = none ∧ u.rd HKS_STAT_running = 0 ∧ u.rd HKS_STAT_err = e
       ∧ u.rd HKS_STAT_err_script = k.kind % 16 ∧ u.rd HKS_ERR_PC_pc = k.pc % 2 ^ 24 ∧ bit (u.rd HKS_EVT_bits) 2 = true
       ∧ (k.kind = 8 → u.rd HKS_BOOT_err = e ∧ u.rd HKS_BOOT_done = 1) ∧ TimeAt s u t
     let s0 := (s.advance t).fetched k
     (s.cells = [] → s.rak.leases = [] → s0 = s.advance t)
     ∧ (op = 1 →
       (a % 4 ≠ 0 → Answers (.write t) s (err 0x15))
       ∧ (a % 4 = 0 → s.opWords k = 3 → s.barred k a = true → Answers (.write t) s (err 0x15))
       ∧ (a % 4 = 0 → Answers (.write t) s fun u => u = State.writeAll k (s.opWords k)
             ((List.range (s.opWords k - 2)).map fun i => s.arg k (2 + i)) a s0)
       ∧ (a = STP_IRQ_EN_en.addr → s.opWords k = 3 → Answers (.write t) s fun u =>
           u.rd STP_IRQ_EN_en = STP_IRQ_EN_en.of (s.arg k 2) ∧ goes 3 u ∧ SameRegs s0 u [STP_IRQ_EN_en, HKS_STAT_running, HKS_STAT_script]))
     ∧ (op = 2 →
       (a % 4 ≠ 0 ∨ s.barred k a = true → Answers (.rmw t) s (err 0x15))
       ∧ (a % 4 = 0 → s.barred k a = false → Answers (.rmw t) s fun u => ∃ v : Nat, ∃ s1 : State, (v, s1) = s0.regRead a
           ∧ u = (State.portWrite .script a 15 ((v &&& (s.arg k 1 ^^^ 0xFFFFFFFF)) ||| (s.arg k 2 &&& s.arg k 1)) s1).scriptSkip k 3 0))
     ∧ (op = 3 →
       let deadline := max s.tmb.kt t + s.arg k 3 % 2 ^ 24 * usF
       (s.arg k 3 % 2 ^ 24 = 0 → Answers (.poll t) s (err 0x10))
       ∧ (s.arg k 3 % 2 ^ 24 ≠ 0 → a % 4 ≠ 0 → Answers (.poll t) s (err 0x15))
       ∧ (s.arg k 3 % 2 ^ 24 ≠ 0 → a % 4 = 0 → Answers (.poll t) s fun u =>
           u.hks.script = some { k with poll := some (a, s.arg k 1, s.arg k 2, deadline, bit (s.arg k 0) 26) } ∧ TimeAt s u t
             ∧ SameRegs s0 u [HKS_STAT_running, HKS_STAT_script] ∧ SameRest s0 { u with hks := s.hks }))
     ∧ (op = 4 → Answers (.wait t) s fun u =>
         u.hks.script = some { k with pc := k.pc + 1, wait := some (max s.tmb.kt t + s.arg k 0 % 2 ^ 24 * usF) } ∧ TimeAt s u t
           ∧ SameRegs s0 u [HKS_STAT_running, HKS_STAT_script] ∧ SameRest s0 { u with hks := s.hks })
     ∧ (op = 5 →
       let skip := if bit (s.arg k 0 / 2 ^ 16 % 16) s.build.variant then s.arg k 0 % 2 ^ 16 else 0
       (skip = 0 ∨ k.pc + 1 + skip ≤ k.len → Answers (.branchVariant t) s fun u => goes (1 + skip) u
           ∧ SameRegs s0 u [HKS_STAT_running, HKS_STAT_script] ∧ SameRest s0 { u with hks := s.hks })
       ∧ (skip ≠ 0 → k.len < k.pc + 1 + skip → Answers (.branchVariant t) s (err 0x12)))
     ∧ (op = 6 →
       (a % 4 ≠ 0 → Answers (.branchStatus t) s (err 0x15))
       ∧ (a % 4 = 0 →
         let met := decide ((s0.regRead a).1 &&& s.arg k 1 = s.arg k 2)
         let skip := if met = bit (s.arg k 0) 26 then 0 else s.arg k 3 % 2 ^ 16
         (skip = 0 ∨ k.pc + 4 + skip ≤ k.len → Answers (.branchStatus t) s fun u => goes (4 + skip) u
             ∧ SameRegs (s0.regRead a).2 u [HKS_STAT_running, HKS_STAT_script])
         ∧ (skip ≠ 0 → k.len < k.pc + 4 + skip → Answers (.branchStatus t) s (err 0x12))))
     ∧ (op = 7 →
       let e := s.arg k 0 / 2 ^ 24 % 16
       let o := s.arg k 0 % 2 ^ 16
       let n := s.arg k 1 % 2 ^ 16
       let body := (List.range n).map fun i => s.arg k (2 + i)
       (k.kind ≠ 8 ∨ e = 0 ∨ 8 ≤ e → Answers (.callEvent t) s (err 0x14))
       ∧ (k.kind = 8 → 1 ≤ e → e ≤ 7 → o % 4 ≠ 0 ∨ 0xFF00 < o + 4 * n → Answers (.callEvent t) s (err 0x12))
       ∧ (k.kind = 8 → 1 ≤ e → e ≤ 7 → o % 4 = 0 → o + 4 * n ≤ 0xFF00 →
         (n = 0 → Answers (.callEvent t) s fun u => u.rd (HKS_EVSCRe_bound e) = 0 ∧ goes 2 u
             ∧ SameRegs s0 u [HKS_EVSCRe_bound e, HKS_STAT_running, HKS_STAT_script] ∧ SameRest s0 { u with hks := s.hks })
         ∧ (n ≠ 0 → body.getLast? ≠ some endWord → Answers (.callEvent t) s (err 0x14))
         ∧ (n ≠ 0 → body.getLast? = some endWord → Answers (.callEvent t) s fun u =>
             u.rd (HKS_EVSCRe_bound e) = 1 ∧ u.rd (HKS_EVSCRe_ofs e) = o ∧ u.scr = s.scr.write o (body.flatMap (le 4)) ∧ goes (2 + n) u
               ∧ SameRegs s0 u [HKS_EVSCRe_bound e, HKS_EVSCRe_ofs e, HKS_STAT_running, HKS_STAT_script]
               ∧ SameRest s0 { u with hks := s.hks, scr := s.scr })))
     ∧ (op = 8 → Answers (.endScript t) s fun u =>
         u.hks.script = none ∧ u.rd HKS_STAT_running = 0 ∧ TimeAt s u t
           ∧ (k.kind = 8 → u.rd HKS_BOOT_done = 1 ∧ u.hks.step = 6 ∧ bit (u.rd HKS_EVT_bits) 0 = true ∧ u.hks.armBoot = true
               ∧ u.rd HKS_CFG_arm_boot = s.hks.iflags / 2 % 2 ∧ u.rd HKS_CFG_arm_wake = s.hks.iflags / 4 % 2)
           ∧ (k.kind ≠ 8 → SameRegs s0 u [HKS_STAT_running, HKS_STAT_script] ∧ SameRest s0 { u with hks := s.hks }))))
  ∧ (∀ (s : State) (k : Script) (t : Nat), Powered s → s.hks.script = some k →
       (∀ a m v e cont, k.poll = some (a, m, v, e, cont) → s.scriptReach a = false → ∀ c ∈ [Instr.pollConditionMet t, .pollTimeout t],
         Answers c s fun u => TimeAt s u t ∧ SameRegs s u [] ∧ SameRest s u)
       ∧ (∀ a m v e cont, k.poll = some (a, m, v, e, cont) → s.scriptReach a = true →
         let s1 := ((s.advance t).regRead a).2
         let met := ((s.advance t).regRead a).1 &&& m = v
         let goes := fun (u : State) => u.hks.script = some { k with pc := k.pc + 4, poll := none } ∧ TimeAt s u t
         (met → Answers (.pollConditionMet t) s fun u => goes u ∧ SameRegs s1 u [HKS_STAT_running, HKS_STAT_script])
         ∧ (¬met → Answers (.pollConditionMet t) s fun u => u.hks = s.hks ∧ TimeAt s u t ∧ SameRegs s1 u [])
         ∧ (t < e → Answers (.pollTimeout t) s fun u => TimeAt s u t ∧ SameRegs s u [] ∧ SameRest s u)
         ∧ (e ≤ t → met → Answers (.pollTimeout t) s fun u => goes u ∧ SameRegs s1 u [HKS_STAT_running, HKS_STAT_script])
         ∧ (e ≤ t → ¬met → cont = true → Answers (.pollTimeout t) s fun u => goes u ∧ u.rd HKS_STAT_poll_to = 1
             ∧ SameRegs s1 u [HKS_STAT_running, HKS_STAT_script, HKS_STAT_poll_to])
         ∧ (e ≤ t → ¬met → cont = false → Answers (.pollTimeout t) s fun u =>
             u.hks.script = none ∧ u.rd HKS_STAT_err = 0x11 ∧ u.rd HKS_STAT_err_script = k.kind % 16 ∧ u.rd HKS_ERR_PC_pc = k.pc % 2 ^ 24
               ∧ TimeAt s u t))
       ∧ (∀ e, k.wait = some e →
         (e ≤ t → s.mode ≠ 0 → Answers (.waitExpiry t) s fun u => u.hks = { s.hks with script := some { k with wait := none } } ∧ TimeAt s u t
             ∧ SameRegs s u [HKS_STAT_running, HKS_STAT_script] ∧ SameRest s { u with hks := s.hks })
         ∧ (t < e ∨ s.mode = 0 → Answers (.waitExpiry t) s fun u => TimeAt s u t ∧ SameRegs s u [] ∧ SameRest s u)))

/-- A pending event starts the script bound to it when the sequencer is free, the lowest first; that the pending bit of an event with no
bound script is cleared then and nothing starts is the model's own choice (log entry 73). A start by HKS_RUN waits its turn, one at a
time; a keyed feed from host or station restarts the watchdog's period; the Kameth arms itself once after boot and after a wake if its
settings say so (R382, R383, R384, R385, R386, R389). The model's own choices it rests on: log entries 73, 75. -/
def Obligations.SequencerStarts : Prop :=
  ∀ (s : State) (t : Nat),
    (Powered s → s.coreRun = false → Answers (.eventScriptStart t) s fun u => TimeAt s u t ∧ SameRegs s u [] ∧ SameRest s u)
    ∧ (∀ i, Powered s → s.seqFree = true → s.coreRun = true → s.nextEvent = some i → Answers (.eventScriptStart t) s fun u =>
      bit (u.rd HKS_STAT_pending) i = false ∧ TimeAt s u t
        ∧ (s.on (HKS_EVSCRe_bound (i + 1)) = true → u.hks.script = some ⟨i + 1, s.rd (HKS_EVSCRe_ofs (i + 1)), 0,
              (0xFF00 - s.rd (HKS_EVSCRe_ofs (i + 1))) / 4, none, none⟩
            ∧ u.rd (HKS_EVSCRe_runs (i + 1)) = (s.rd (HKS_EVSCRe_runs (i + 1)) + 1) % 2 ^ 8 ∧ u.rd HKS_STAT_running = 1
            ∧ SameRegs s u [HKS_STAT_pending, HKS_EVSCRe_runs (i + 1), HKS_STAT_running, HKS_STAT_script])
        ∧ (s.on (HKS_EVSCRe_bound (i + 1)) = false → u.hks = s.hks ∧ SameRegs s u [HKS_STAT_pending])
        ∧ SameRest s { u with hks := s.hks })
    ∧ (∀ (p : Port) (v : Word), Reaches p HKS_RUN_start.addr s →
      (s.hks.runReq = none → (s.hks.script.map Script.kind) ≠ some 9 → Answers (.hksRun p v t) s fun u =>
        u.hks = { s.hks with runReq := some (v.toNat % 2 ^ 16) } ∧ TimeAt s u t ∧ SameRegs s u [] ∧ SameRest s { u with hks := s.hks })
      ∧ (s.hks.runReq ≠ none ∨ (s.hks.script.map Script.kind) = some 9 → Answers (.hksRun p v t) s fun u =>
        TimeAt s u t ∧ SameRegs s u [] ∧ SameRest s u))
    ∧ (∀ (p : Port) (v : Word), Reaches p HKS_WDG_FEED_key.addr s →
      (v.toNat / 2 ^ 16 = 0x6B1D → p ≠ .script → Answers (.watchdogFeed p v t) s fun u =>
        u.hks = { s.hks with wdgAt := max s.tmb.kt t } ∧ TimeAt s u t ∧ SameRegs s u [] ∧ SameRest s { u with hks := s.hks })
      ∧ (v.toNat / 2 ^ 16 ≠ 0x6B1D ∨ p = .script → Answers (.watchdogFeed p v t) s fun u => TimeAt s u t ∧ SameRegs s u [] ∧ SameRest s u))
    ∧ (Powered s → s.seqFree = true → s.rd HKS_STAT_pending = 0 → s.hks.runReq = none → s.acqSt = 0 →
      (s.hks.armBoot = true → s.on GLB_STAT_mode_pend = false →
        let s1 : State := { s.advance t with hks := { s.hks with armBoot := false } }
        (s.on HKS_CFG_arm_boot = false ∨ s.mode = 7 → Answers (.autoArm t) s fun u => u.hks = { s.hks with armBoot := false }
            ∧ TimeAt s u t ∧ SameRegs s u [] ∧ SameRest s { u with hks := s.hks })
        ∧ (s.on HKS_CFG_arm_boot = true → s.mode ≠ 7 →
          (s.rd INP_PCHK_CTL_at_arm = 0 → s1.armFault = none → Answers (.autoArm t) s fun u =>
            u.acqSt = 2 ∧ u.rd ACQ_EVT_armed = 1 ∧ u.hks.armBoot = false)
          ∧ (∀ c d, s1.armFault = some (c, d) → Answers (.autoArm t) s fun u =>
            u.acqSt = 0 ∧ u.rd ACQ_ERR_code = c % 2 ^ 8 ∧ u.rd ACQ_EVT_refused = 1 ∧ u.hks.armBoot = false)))
      ∧ (s.hks.armWake = true → s.dllsUp = true →
        let s1 : State := { s.advance t with hks := { s.hks with armWake := false } }
        (s.rd INP_PCHK_CTL_at_arm = 0 → s1.armFault = none → Answers (.armOnWake t) s fun u =>
            u.acqSt = 2 ∧ u.rd ACQ_EVT_armed = 1 ∧ u.hks.armWake = false)
          ∧ (∀ c d, s1.armFault = some (c, d) → Answers (.armOnWake t) s fun u =>
            u.acqSt = 0 ∧ u.rd ACQ_ERR_code = c % 2 ^ 8 ∧ u.rd ACQ_EVT_refused = 1 ∧ u.hks.armWake = false)))

/-- An operation on the configuration memory starts unless it is refused, and ends by moving the page, programming it or erasing its range,
and no other byte; one that takes 5 s is broken off with err, and only its range is spoiled; none ends in M0 or with the lands under
test (R374, R440). The model's own choices it rests on: log entry 74. -/
def Obligations.ConfigurationMemory : Prop :=
  ∀ (s : State) (t : Nat),
    (∀ (p : Port) (v : Word) (op : Nat) (c : Instr), Reaches p HKS_NV_CTL_op.addr s →
      (op, c) ∈ [(1, Instr.nvRead p v t), (2, Instr.nvProgram p v t), (3, Instr.nvErase4K p v t), (4, Instr.nvErase64K p v t)] →
      let a := s.rd HKS_NV_ADDR_addr
      let refused := (s.wr HKS_NV_CTL_bbx_ok (v.toNat / 2 ^ 29 % 2)).nvRefused op a
      (refused = false → Answers c s fun u =>
        u.rd HKS_NV_CTL_busy = 1 ∧ u.hks.nvOp = some (op, a, max s.tmb.kt t)
          ∧ u.hks = { s.hks with nvOp := u.hks.nvOp, nvPage := if op = 2 then s.scr.bytes pageBuf 256 else [] }
          ∧ TimeAt s u t ∧ SameRegs s u [HKS_NV_CTL_busy, HKS_NV_CTL_err, HKS_NV_CTL_bbx_ok] ∧ SameRest s { u with hks := s.hks })
      ∧ (refused = true → Answers c s fun u =>
        u.rd HKS_NV_CTL_err = 1 ∧ TimeAt s u t ∧ SameRegs s u [HKS_NV_CTL_err, HKS_NV_CTL_bbx_ok] ∧ SameRest s u))
    ∧ (∀ op a k, Powered s → s.hks.nvOp = some (op, a, k) → 1 ≤ op → op ≤ 4 →
      let r := nvRange op a
      let inDev := fun x => s.hks.nvSize = 0 ∨ x < s.hks.nvSize
      (s.mode = 0 ∨ s.lands = false → Answers (.nvDone t) s fun u => TimeAt s u t ∧ SameRegs s u [] ∧ SameRest s u)
      ∧ (s.mode ≠ 0 → s.lands = true → Answers (.nvDone t) s fun u =>
        u.rd HKS_NV_CTL_busy = 0 ∧ bit (u.rd HKS_EVT_bits) 3 = true ∧ u.hks = { s.hks with nvOp := none, nvPage := [] } ∧ TimeAt s u t
          ∧ (op = 1 → u.nv = s.nv ∧ (∀ i, i < 256 → inDev (a + i) → u.scr.read (pageBuf + i) = s.nv.read (a + i))
              ∧ (∀ x, x < pageBuf ∨ pageBuf + 256 ≤ x → u.scr.read x = s.scr.read x))
          ∧ (op = 2 → u.scr = s.scr ∧ (s.hks.nvPage.length = 256 → ∀ x, r.1 ≤ x → x < r.1 + 256 → inDev x →
              u.nv.read x = s.hks.nvPage.getD (x - r.1) 0))
          ∧ (3 ≤ op → u.scr = s.scr ∧ ∀ x, r.1 ≤ x → x < r.1 + r.2 → inDev x → u.nv.read x = 255)
          ∧ (∀ x, x < r.1 ∨ r.1 + max r.2 s.hks.nvPage.length ≤ x → u.nv.read x = s.nv.read x)
          ∧ SameRegs s u [HKS_NV_CTL_busy, HKS_EVT_bits])
      ∧ (k + 5 * secF ≤ t → Answers (.nvTimeout t) s fun u =>
        u.rd HKS_NV_CTL_busy = 0 ∧ u.rd HKS_NV_CTL_err = 1 ∧ u.hks = { s.hks with nvOp := none, nvPage := [] } ∧ TimeAt s u t
          ∧ (op = 1 → u.nv = s.nv) ∧ (∀ x, x < r.1 ∨ r.1 + r.2 ≤ x → u.nv.read x = s.nv.read x)
          ∧ SameRegs s u [HKS_NV_CTL_busy, HKS_NV_CTL_err])
      ∧ (t < k + 5 * secF → Answers (.nvTimeout t) s fun u => TimeAt s u t ∧ SameRegs s u [] ∧ SameRest s u))

/-! ### Supplies -/

/-- A feed's state follows its voltage: out of range it is LOW, HIGH, REVERSED, SHORTED or ABSENT (the last two by a test that takes 1 ms),
and in range QUAL, after 100 ms GOOD, then MARGIN and GOOD again, each by a voltage that R393's condition and R392's accuracy and
re-entry allow (log entry 133); a reading that does not fit is only stored. When the active feed leaves its range the other one, if in
range, becomes active; if none is, the hold-up bank carries the load from then on (R392, R393, R394, R396, R397). The model's own
choices it rests on: log entry 76. -/
def Obligations.FeedStates : Prop :=
  ∀ (s : State) (f : Feed) (mv : Int) (t : Nat), s.pwr.dead = false →
    let n := feedNo f
    let cur := if n = 0 then PWR_FEED_A_current else PWR_FEED_B_current
    let act := s.rd PWR_STAT_active
    let read := fun (u : State) => u.rd (voltFld n) = satU 16 (rnd mv 10) ∧ TimeAt s u t
    let only := fun (u : State) => read u ∧ SameRegs s u [voltFld n, cur] ∧ SameRest s { u with free := s.free }
    let quiet := fun (u : State) => read u
      ∧ SameRegs s u [voltFld n, cur, feedFld n, PWR_EVT_bits, HKS_STAT_pending, BBX_STAT_count, BBX_HEAD_value, BBX_LOST_value]
      ∧ SameRest s { u with free := s.free, pwr := { u.pwr with at_ := s.pwr.at_ }, bbx := s.bbx }
    let since := if s.feedOk n then max s.tmb.kt t else s.pwr.lostAt.getD (max s.tmb.kt t)
    let left := fun (st : Nat) (c : Instr) =>
      (act ≤ 1 → s.feed n ≠ st → (act ≠ n → s.feedOk act = true → Answers c s fun u => u.feed n = st ∧ quiet u)
        ∧ (act = n → s.feedOk (1 - n) = true → s.pwr.lostAt = none ∨ s.hks.rails = false → Answers c s fun u => u.feed n = st ∧ read u
            ∧ u.rd PWR_STAT_active = 1 - n ∧ u.rd PWR_SWITCH_count = (s.rd PWR_SWITCH_count + 1) % 2 ^ 24
            ∧ u.rd PWR_SWITCH_cause = switchCause st ∧ bit (u.rd PWR_EVT_bits) 0 = true ∧ u.pwr.lostAt = s.pwr.lostAt)
        ∧ (act = n → s.feedOk (1 - n) = true → s.pwr.lostAt ≠ none → s.hks.rails = true → Answers c s fun u => u.feed n = st ∧ quiet u)
        ∧ (s.feedOk (1 - n) = false → Answers c s fun u => u.feed n = st ∧ read u ∧ u.rd PWR_STAT_active = act
            ∧ u.pwr.lostAt = some since))
    let low := thrLo (-1000) ≤ mv ∧ mv ≤ thrHi 5000
    let tested := s.feed n = 0 ∨ s.feed n = 6 ∨ s.feed n = 3 ∧ s.feedSince n + 1000 * usF ≤ max s.tmb.kt t
    (∀ k : FeedFault,
      let st := match k with | .low => 3 | .high => 4 | .reversed => 5 | .shorted => 6
      (faultFits st mv = true → left st (.feedLeavesRange f k mv t))
        ∧ (s.feed n = st ∨ faultFits st mv = false → Answers (.feedLeavesRange f k mv t) s only))
    ∧ (∀ short : Bool, (tested → low → left (if short then 6 else 0) (.feedSenseTest f short mv t))
        ∧ (¬tested ∨ ¬low ∨ s.feed n = (if short then 6 else 0) → Answers (.feedSenseTest f short mv t) s only))
    ∧ (s.feedOk n = false → qualFits (s.feed n) mv = true → Answers (.feedQual f mv t) s fun u => u.feed n = 7 ∧ read u
        ∧ (s.hks.rails = false → s.feedOk act = false → u.rd PWR_STAT_active = n)
        ∧ (n = 0 → s.hks.rails = false → s.pwr.offAt = none → s.feed 1 = 7 → s.feedSince 1 = max s.tmb.kt t → u.rd PWR_STAT_active = 0))
    ∧ (s.feedOk n = true ∨ qualFits (s.feed n) mv = false → Answers (.feedQual f mv t) s only)
    ∧ (let due := s.feed n = 7 ∧ s.feedSince n + 100000 * usF ≤ max s.tmb.kt t ∧ goodFits mv = true
       (due → Answers (.feedGood f mv t) s fun u => u.feed n = 1 ∧ quiet u) ∧ (¬due → Answers (.feedGood f mv t) s only))
    ∧ (∀ back : Bool,
        let fits := s.feed n = (if back then 2 else 1) ∧ (if back then backFits (s.feedMv n) mv else marginFits mv) = true
        (fits → Answers (.feedMargin f back mv t) s fun u => u.feed n = (if back then 1 else 2) ∧ quiet u)
        ∧ (¬fits → Answers (.feedMargin f back mv t) s only))
    ∧ (∀ st, (34300 ≤ mv → mv ≤ 61700 → qualFits st mv = true) ∧ (mv < 33660 ∨ 62620 < mv → qualFits st mv = false))
    ∧ (36000 ≤ mv → mv ≤ 60000 → goodFits mv = true) ∧ (mv < 35640 ∨ 60600 < mv → goodFits mv = false)
    ∧ (-1000 ≤ mv → mv ≤ 34000 → faultFits 3 mv = true) ∧ (62000 ≤ mv → faultFits 4 mv = true) ∧ (mv ≤ -1000 → faultFits 5 mv = true)
    ∧ (34340 < mv → faultFits 3 mv = false) ∧ (mv < 61380 → faultFits 4 mv = false) ∧ (-990 < mv → faultFits 5 mv = false)

/-- The load moves to the other feed when the preferred one has been GOOD long enough, when the host asks for a GOOD one, and when a feed is
back in range within 1.5 ms; a request that names no GOOD feed only reports it (R395, R396, R397). The model's own choices it rests on:
log entry 76. -/
def Obligations.FeedSwitches : Prop :=
  ∀ (s : State) (t : Nat),
    let a := s.rd PWR_STAT_active
    let moved := fun (n cause : Nat) (u : State) => u.rd PWR_STAT_active = n % 2 ∧ u.rd PWR_SWITCH_cause = cause
      ∧ u.rd PWR_SWITCH_count = (s.rd PWR_SWITCH_count + 1) % 2 ^ 24 ∧ bit (u.rd PWR_EVT_bits) 0 = true ∧ TimeAt s u t
    (s.pwr.dead = false →
      let p := s.rd PWR_CFG_pref
      let since := max ((look s.pwr.at_ p).getD 0) ((look s.pwr.at_ 2).getD 0)
      let due := s.on PWR_CFG_revert = true ∧ a ≠ p ∧ s.feed p = 1 ∧ since + s.rd PWR_CFG_revert_s * secF ≤ t
      (due → Answers (.revert t) s (moved p 6)) ∧ (¬due → Answers (.revert t) s fun u => TimeAt s u t ∧ SameRegs s u [] ∧ SameRest s u))
    ∧ (∀ (p : Port) (v : Word), Reaches p PWR_CTL_key.addr s →
      (v.toNat / 2 ^ 16 = 0x7E48 → s.feed (1 - a) = 1 → Answers (.hostFeedSwitch p v t) s (moved (1 - a) 7))
      ∧ (v.toNat / 2 ^ 16 = 0x7E48 → s.feed (1 - a) ≠ 1 → Answers (.hostFeedSwitch p v t) s fun u =>
          bit (u.rd PWR_EVT_bits) 10 = true ∧ TimeAt s u t ∧ SameRegs s u [PWR_EVT_bits] ∧ SameRest s u)
      ∧ (v.toNat / 2 ^ 16 ≠ 0x7E48 → Answers (.hostFeedSwitch p v t) s fun u => TimeAt s u t ∧ SameRegs s u [] ∧ SameRest s u))
    ∧ (∀ (f : Feed) (l : Nat), s.pwr.dead = false → s.pwr.lostAt = some l →
      let due := s.pwr.seqAt = none ∧ s.hks.rails = true ∧ t ≤ l + 1500 * usF
      (due → Answers (.rideThrough f t) s fun u => u.rd PWR_STAT_active = feedNo f ∧ u.pwr.lostAt = none ∧ bit (u.rd PWR_EVT_bits) 2 = true
        ∧ u.feed (feedNo f) = (if s.feedOk (feedNo f) then s.feed (feedNo f) else 7) ∧ TimeAt s u t)
      ∧ (¬due → Answers (.rideThrough f t) s fun u => TimeAt s u t ∧ SameRegs s u [] ∧ SameRest s u))

/-- The orderly loss of power: with no feed for 1.5 ms the sequence starts and acquisition stops with cause SUPPLY; Harvest is cut off and
the black box frozen at 450 µs, the rails go off at 500 µs with all but the always-on domain reset, and the dump ends with its result
and the live bank in the region (R187, R398, R415, R417). The model's own choices it rests on: log entries 77, 79. -/
def Obligations.PowerLoss : Prop :=
  ∀ (s : State) (t : Nat),
    (∀ l, Powered s → s.pwr.lostAt = some l →
      let s0 := State.upTo t s
      (l + 1500 * usF ≤ t + usF → s.feedBack l = false → s.pwr.seqAt = none → Answers (.orderlyLossSequence t) s fun u =>
        u.pwr.seqAt = some t ∧ u.pwr.cause = 1 ∧ u.rd PWR_STAT_loss_seq = 1 ∧ u.trl.out = []
          ∧ (1 ≤ s0.acqSt → s0.acqSt ≤ 5 → u.acqSt = 6 ∧ u.rd ACQ_STAT_stop_cause = 5) ∧ (s.acqSt = 0 → u.acqSt = 0))
      ∧ (t + usF < l + 1500 * usF ∨ s.feedBack l = true ∨ s.pwr.seqAt ≠ none → Answers (.orderlyLossSequence t) s fun u =>
        TimeAt s u t ∧ SameRegs s u [] ∧ SameRest s u))
    ∧ (∀ q, Powered s → s.pwr.seqAt = some q →
      (s.pwr.cut = false → q + 450 * usF ≤ t → Answers (.harvestCutoff t) s fun u =>
        u.pwr = { s.pwr with cut := true } ∧ u.rd BBX_STAT_frozen = 1 ∧ (∃ e, u.bbx.live.head? = some e ∧ e.code = 0xFF ∧ (s.mode = 0 → e.kt % nsF = 0))
          ∧ (s.mode = 0 → u.hrv = s.hrv)
          ∧ (s.mode ≠ 0 → ∀ n, n < 16 → (s.ring n).ready = none → (u.ring n).ready ≠ none ∨ (u.ring n).q = []) ∧ TimeAt s u t)
      ∧ (s.pwr.cut = true ∨ t < q + 450 * usF → Answers (.harvestCutoff t) s fun u => TimeAt s u t ∧ SameRegs s u [] ∧ SameRest s u)
      ∧ (q + 500 * usF ≤ t → Answers (.railsOff t) s fun u =>
        u.hks.rails = false ∧ u.hks.step = 0 ∧ u.rd PWR_STAT_loss_seq = 0 ∧ u.bbx.dumping = true ∧ u.pwr.offAt = some t
          ∧ u.grid.run = false ∧ u.jtg = ⟨1, 0, 0, 1⟩ ∧ u.acqSt = 0 ∧ u.bbx.live = s.bbx.live ∧ TimeAt s u t
          ∧ (∀ f : Fld, domOfKey f.key ≠ .aon → f.key ≠ PWR_STAT_loss_seq.key → u.rd f = f.rst)
          ∧ (s.hks.nvOp = none → s.bbx.prep = false → u.nv = s.nv))
      ∧ (t < q + 500 * usF → Answers (.railsOff t) s fun u => TimeAt s u t ∧ SameRegs s u [] ∧ SameRest s u))
    ∧ (∀ ok : Bool, s.pwr.dead = false →
      (s.bbx.dumping = true → Answers (.dumpEnd ok t) s fun u =>
        u.bbx = { s.bbx with dumping := false } ∧ bit (u.rd BBX_EVT_bits) 1 = true ∧ TimeAt s u t
          ∧ (∀ l, s.pwr.cause = 1 → s.pwr.lostAt = some l → u.rd BBX_DUMP_time = (t - l) / usF % 2 ^ 24)
          ∧ (s.hks.bbxOfs = none ∨ s.rd BBX_STAT_nv_state ≠ 1 → u.rd BBX_DUMP_result = 2 ∧ u.nv = s.nv)
          ∧ (∀ a, s.hks.bbxOfs = some a → s.rd BBX_STAT_nv_state = 1 →
              (ok = true → u.rd BBX_DUMP_result = 1 ∧ u.rd BBX_STAT_nv_state = 2
                ∧ (s.bbx.live.length ≤ 4096 → s.hks.nvSize = 0 ∨ a + 65536 ≤ s.hks.nvSize → ∀ i, i < 65536 →
                    u.nv.read (a + i) = (bankBytes s.bbx.live 4096).getD i 0))
              ∧ (ok = false → u.rd BBX_DUMP_result = 3 ∧ u.rd BBX_STAT_nv_state = 3)
              ∧ (s.bbx.live.length ≤ 4096 → ∀ x, x < a ∨ a + 65536 ≤ x → u.nv.read x = s.nv.read x)))
      ∧ (s.bbx.dumping = false → Answers (.dumpEnd ok t) s fun u => TimeAt s u t ∧ SameRegs s u [] ∧ SameRest s u))

/-- A shed phase is counted; a second one on the rail, or a rail out of tolerance, starts the loss sequence while the main rails are on;
with them off only the rail of the always-on domain can fail, and is only recorded. A weak hold-up bank is reported; an output's fault
is shown while it lasts and kept; a reading sets and clears WARN and a trip starts the sequence (R400, R401, R402, R403). The model's
own choices it rests on: log entry 84. -/
def Obligations.SupplyFaults : Prop :=
  ∀ (s : State) (t : Nat),
    let starts := fun (cause : Nat) (u : State) => u.pwr.seqAt = some t ∧ u.pwr.cause = cause ∧ u.rd PWR_STAT_loss_seq = 1
    (∀ rail : Fin 8, s.pwr.dead = false →
      let n := s.rd PWR_RAIL_lost / 4 ^ rail.val % 4
      let fed := s.hks.rails = true
      (fed → s.pwr.seqAt = none → Answers (.phaseFailure rail true t) s fun u => starts 3 u ∧ bit (u.rd PWR_EVT_bits) 5 = true)
      ∧ (¬fed → rail.val = 7 → Answers (.phaseFailure rail true t) s fun u => bit (u.rd PWR_EVT_bits) 5 = true ∧ TimeAt s u t
          ∧ SameRegs s u [PWR_EVT_bits] ∧ SameRest s u)
      ∧ (¬fed → rail.val ≠ 7 → ∀ fault, Answers (.phaseFailure rail fault t) s fun u => TimeAt s u t ∧ SameRegs s u [] ∧ SameRest s u)
      ∧ (fed ∧ n = 0 ∨ ¬fed ∧ rail.val = 7 → Answers (.phaseFailure rail false t) s fun u =>
          u.rd PWR_RAIL_lost = (s.rd PWR_RAIL_lost + if n < 3 then 4 ^ rail.val else 0) % 2 ^ 16
            ∧ bit (u.rd PWR_EVT_bits) 5 = true ∧ u.pwr = s.pwr ∧ TimeAt s u t
            ∧ SameRegs s u [PWR_RAIL_lost, PWR_EVT_bits, BBX_STAT_count, BBX_HEAD_value, BBX_LOST_value]
            ∧ SameRest s { u with bbx := s.bbx })
      ∧ (fed → 1 ≤ n → s.pwr.seqAt = none → Answers (.phaseFailure rail false t) s fun u => starts 3 u ∧ bit (u.rd PWR_EVT_bits) 5 = true))
    ∧ (∀ pct : Nat, s.pwr.dead = false →
      (pct < 100 → Answers (.holdupTest pct t) s fun u => u.rd PWR_STAT_holdup_ok = 0 ∧ bit (u.rd PWR_EVT_bits) 9 = true ∧ TimeAt s u t
          ∧ SameRegs s u [PWR_STAT_holdup_ok, PWR_EVT_bits, BBX_STAT_count, BBX_HEAD_value, BBX_LOST_value]
          ∧ SameRest s { u with bbx := s.bbx })
      ∧ (100 ≤ pct → Answers (.holdupTest pct t) s fun u => u.rd PWR_STAT_holdup_ok = 1 ∧ TimeAt s u t
          ∧ SameRegs s u [PWR_STAT_holdup_ok] ∧ SameRest s u))
    ∧ (∀ o : Fin 6, Powered s →
      (Answers (.outputFault o t) s fun u => bit (u.rd PWR_IOFAULT_live) o.val = true ∧ bit (u.rd PWR_IOFAULT_seen) o.val = true
          ∧ bit (u.rd PWR_EVT_bits) 3 = true ∧ TimeAt s u t
          ∧ SameRegs s u [PWR_IOFAULT_live, PWR_IOFAULT_seen, PWR_EVT_bits, BBX_STAT_count, BBX_HEAD_value, BBX_LOST_value]
          ∧ SameRest s { u with bbx := s.bbx })
      ∧ Answers (.outputFaultEnd o t) s fun u => bit (u.rd PWR_IOFAULT_live) o.val = false
          ∧ (∀ k, k < 6 → k ≠ o.val → bit (u.rd PWR_IOFAULT_live) k = bit (s.rd PWR_IOFAULT_live) k) ∧ TimeAt s u t
          ∧ SameRegs s u [PWR_IOFAULT_live] ∧ SameRest s u)
    ∧ (∀ temps : List (Nat × Int), Powered s → temps ≠ [] → Answers (.thermalReading temps t) s fun u =>
        u.rd PWR_THERM_sensor = (hottest temps).1 % 16 ∧ u.rd PWR_THERM_temp = satU 16 (hottest temps).2 ∧ TimeAt s u t
          ∧ (temps.any (atLevel 105 95) = true → s.on PWR_THERM_warn = false → u.rd PWR_THERM_warn = 1 ∧ bit (u.rd PWR_EVT_bits) 4 = true)
          ∧ (temps.any (atLevel 105 95) = true → s.on PWR_THERM_warn = true →
              SameRegs s u [PWR_THERM_sensor, PWR_THERM_temp] ∧ SameRest s u)
          ∧ (temps.any (atLevel 105 95) = false → temps.any (atLevel 100 90) = true →
              SameRegs s u [PWR_THERM_sensor, PWR_THERM_temp] ∧ SameRest s u)
          ∧ (temps.any (atLevel 105 95) = false → temps.any (atLevel 100 90) = false → u.rd PWR_THERM_warn = 0
              ∧ SameRegs s u [PWR_THERM_sensor, PWR_THERM_temp, PWR_THERM_warn] ∧ SameRest s u))
    ∧ (∀ (k : Fin 14) (temp : Int), Powered s →
      (16 * (if k.val = 13 then 105 else 120) ≤ temp → s.pwr.seqAt = none → Answers (.thermalTrip k temp t) s (starts 2))
      ∧ (temp < 16 * (if k.val = 13 then 105 else 120) → Answers (.thermalTrip k temp t) s fun u =>
          TimeAt s u t ∧ SameRegs s u [] ∧ SameRest s u))

/-! ### Residue, spare lanes, the black box and boundary scan -/

/-- A residue mismatch is retried and counted; one that mismatches twice goes to the spare slot, or freezes the black box when the spare is
in service already, and a slot that needed the spare three times within a second is retired (R405, R406). A failed sampler lane is
reported and gets the lowest free spare of its group, or none; a measurement ends after 4,096 edges, or after 4 ms, and waits for a
burst with fewer than 256; a measured spare goes into service 1 µs later while acquisition is idle (R407, R408, R409, R410). The model's
own choices it rests on: log entries 82, 83. -/
def Obligations.ResidueAndLanes : Prop :=
  (∀ (s : State) (unit : Fin 9) (group : Fin 256) (slot : Fin 16) (t : Nat), Powered s →
     let key := 256 * unit.val + group.val
     let g := (look s.pwr.res key).getD resNew
     let works := 1 ≤ unit.val ∧ g.works slot.val = true
     let counted := fun (u : State) => u.rd PWR_RES_RETRY_count = (s.rd PWR_RES_RETRY_count + 1) % 2 ^ 32
       ∧ (∀ k, k ≠ key → look u.pwr.res k = look s.pwr.res k) ∧ TimeAt s u t
       ∧ ∃ h, look u.pwr.res key = some h ∧ h.retries = g.retries + 1
     (∀ second : Bool, ¬works → Answers (.residueMismatch unit group slot second t) s fun u => TimeAt s u t ∧ SameRegs s u [] ∧ SameRest s u)
     ∧ (works → Answers (.residueMismatch unit group slot false t) s fun u => counted u
         ∧ SameRegs s u [PWR_RES_RETRY_count, TRL_RETRY_retries, TRL_EVT_retry] ∧ SameRest s { u with pwr := { u.pwr with res := s.pwr.res } })
     ∧ (works → g.retired = none →
         let gone := 3 ≤ (((slot.val, t) :: g.uses.filter fun u => decide (t < u.2 + secF)).filter fun u => u.1 = slot.val).length
         Answers (.residueMismatch unit group slot true t) s fun u => counted u
           ∧ u.rd PWR_RES_SPARE_count = (s.rd PWR_RES_SPARE_count + 1) % 2 ^ 32
           ∧ (∃ h, look u.pwr.res key = some h ∧ h.spares = g.spares + 1 ∧ (h.retired = if gone then some slot.val else none))
           ∧ (gone → u.rd PWR_RES_RETIRED_unit = unit.val ∧ u.rd PWR_RES_RETIRED_slots = (s.rd PWR_RES_RETIRED_slots + 1) % 2 ^ 16
               ∧ bit (u.rd PWR_EVT_bits) 6 = true)
           ∧ (¬gone → u.rd PWR_RES_RETIRED_slots = s.rd PWR_RES_RETIRED_slots ∧ u.bbx = s.bbx))
     ∧ (works → g.retired ≠ none → Answers (.residueMismatch unit group slot true t) s fun u => counted u
         ∧ bit (u.rd PWR_EVT_bits) 7 = true ∧ u.rd BBX_STAT_frozen = 1
         ∧ (s.on BBX_STAT_frozen = false → u.rd BBX_STAT_freeze_cause = 2)))
  ∧ (∀ (s : State) (t : Nat), Powered s →
       (∀ ch : Chan, let g := ch.val / 64
         (s.mode = 0 ∨ s.nChan ≤ ch.val ∨ s.edgeFill ch.val = true → Answers (.laneFail ch t) s fun u =>
           TimeAt s u t ∧ SameRegs s u [] ∧ SameRest s u)
         ∧ (s.mode ≠ 0 → ch.val < s.nChan → s.edgeFill ch.val = false → Answers (.laneFail ch t) s fun u =>
           u.edgeFill ch.val = true ∧ u.rd (PWR_LANEg_channel g) = ch.val ∧ bit (u.rd PWR_EVT_bits) 8 = true ∧ TimeAt s u t
             ∧ (∀ i, (List.range 4).find? (fun i => !((s.lanesOf g).filterMap (·.spare)).contains i) = some i →
                 (⟨ch.val, some i, t, 0, false, none, false⟩ : Lane) ∈ u.pwr.lanes ∧ u.rd (PWR_LANEg_cal g) = 1)
             ∧ ((List.range 4).find? (fun i => !((s.lanesOf g).filterMap (·.spare)).contains i) = none → u.rd (PWR_LANEg_nospare g) = 1)
             ∧ SameRegs s u [PWR_LANEg_channel g, PWR_LANEg_used g, PWR_LANEg_spares g, PWR_LANEg_cal g, PWR_LANEg_nospare g, PWR_EVT_bits,
                 BBX_STAT_count, BBX_HEAD_value, BBX_LOST_value]
             ∧ SameRest s { u with bbx := s.bbx, pwr := { u.pwr with lanes := s.pwr.lanes } }))
       ∧ (∀ g : Fin 16, Answers (.spareLaneMeasured g t) s fun u =>
           (∀ l ∈ s.pwr.lanes, l.ch < 1024 → l.ch / 64 = g.val → l.spare ≠ none → l.doneAt = none → l.burst = false →
             (4096 ≤ l.edges ∨ l.since + 4000 * usF ≤ t ∧ 256 ≤ l.edges → { l with doneAt := some t } ∈ u.pwr.lanes)
               ∧ (l.since + 4000 * usF ≤ t → l.edges < 256 → { l with burst := true } ∈ u.pwr.lanes)
               ∧ (t < l.since + 4000 * usF → l.edges < 4096 → l ∈ u.pwr.lanes))
             ∧ (∀ l ∈ s.pwr.lanes, 1024 ≤ l.ch ∨ l.ch / 64 ≠ g.val → l ∈ u.pwr.lanes) ∧ TimeAt s u t
             ∧ SameRegs s u [PWR_LANEg_used g.val, PWR_LANEg_spares g.val, PWR_LANEg_cal g.val]
             ∧ SameRest s { u with pwr := { u.pwr with lanes := s.pwr.lanes } })
       ∧ (∀ g : Fin 16, s.acqSt ≠ 0 → Answers (.spareLaneSwap g t) s fun u => TimeAt s u t ∧ SameRegs s u [] ∧ SameRest s u)
       ∧ (∀ g : Fin 16, s.acqSt = 0 → Answers (.spareLaneSwap g t) s fun u =>
           (∀ l e, l ∈ s.pwr.lanes → l.ch < 1024 → l.ch / 64 = g.val → l.doneAt = some e → e + usF ≤ t → l.used = false →
             u.edgeFill l.ch = false ∧ { l with used := true } ∈ u.pwr.lanes)
             ∧ (∀ l ∈ s.pwr.lanes, 1024 ≤ l.ch ∨ l.ch / 64 ≠ g.val → l ∈ u.pwr.lanes) ∧ TimeAt s u t
             ∧ SameRegs s u [PWR_LANEg_used g.val, PWR_LANEg_spares g.val, PWR_LANEg_cal g.val, BBX_STAT_count, BBX_HEAD_value,
                 BBX_LOST_value]
             ∧ SameRest s { u with bbx := s.bbx, pwr := { u.pwr with lanes := s.pwr.lanes } }))

/-- BBX_CTL freezes the store, ends a freeze of any cause but LOSS, clears the live bank with its key, and starts preparing the region. The
region is classified and loaded once boot is done, and its preparation erases it or leaves it unspecified; neither with the lands under
test (R415, R416, R422, R440). The model's own choices it rests on: log entries 78, 79. -/
def Obligations.BlackBox : Prop :=
  ∀ (s : State) (t : Nat),
    (∀ (p : Port) (v : Word), Reaches p BBX_CTL_key.addr s →
      (v.toNat / 2 % 8 = 0 → Answers (.bbxFreeze p v) s fun u =>
        u.rd BBX_STAT_frozen = 1
          ∧ (s.on BBX_STAT_frozen = false → u.rd BBX_STAT_freeze_cause = 4 ∧ (∃ e, u.bbx.live.head? = some e ∧ e.code = 0xFE)
              ∧ bit (u.rd BBX_EVT_bits) 0 = true)
          ∧ (s.on BBX_STAT_frozen = true → u.rd BBX_LOST_value = min (s.rd BBX_LOST_value + 1) (2 ^ 32 - 1) ∧ SameRegs s u [BBX_LOST_value]
              ∧ SameRest s u))
      ∧ (v.toNat % 2 = 0 → v.toNat / 4 % 4 = 0 →
        (s.rd BBX_STAT_freeze_cause ≠ 3 → Answers (.bbxUnfreeze p v) s fun u =>
          u.rd BBX_STAT_frozen = 0 ∧ u.rd BBX_STAT_freeze_cause = 0 ∧ SameRegs s u [BBX_STAT_frozen, BBX_STAT_freeze_cause] ∧ SameRest s u)
        ∧ (s.rd BBX_STAT_freeze_cause = 3 → Answers (.bbxUnfreeze p v) s fun u => SameRegs s u [] ∧ SameRest s u))
      ∧ (v.toNat % 4 = 0 → v.toNat / 8 % 2 = 0 →
        (v.toNat / 2 ^ 16 = 0xB10C → Answers (.bbxClear p v) s fun u =>
          u.bbx = { s.bbx with live := [] } ∧ u.rd BBX_STAT_count = 0 ∧ u.rd BBX_HEAD_value = 0
            ∧ SameRegs s u [BBX_STAT_count, BBX_HEAD_value] ∧ SameRest s { u with bbx := s.bbx })
        ∧ (v.toNat / 2 ^ 16 ≠ 0xB10C → Answers (.bbxClear p v) s fun u => SameRegs s u [] ∧ SameRest s u))
      ∧ (v.toNat % 8 = 0 →
        (s.hks.bbxOfs ≠ none → s.on BBX_CFG_overwrite = true → Answers (.bbxPrep p v t) s fun u =>
          u.rd BBX_STAT_nv_state = 1 ∧ TimeAt s u t ∧ SameRegs s u [BBX_STAT_nv_state] ∧ SameRest s u)
        ∧ (s.hks.bbxOfs ≠ none → s.on BBX_CFG_overwrite = false → s.on HKS_NV_CTL_busy = false → s.hks.rails = true → s.hks.step ≠ 4 →
            Answers (.bbxPrep p v t) s fun u =>
          u.rd BBX_STAT_nv_state = 4 ∧ u.rd HKS_NV_CTL_busy = 1 ∧ u.bbx = { s.bbx with prep := true } ∧ TimeAt s u t
            ∧ SameRegs s u [BBX_STAT_nv_state, HKS_NV_CTL_busy] ∧ SameRest s { u with bbx := s.bbx })
        ∧ (s.hks.bbxOfs = none ∨ s.on BBX_CFG_overwrite = false ∧ s.on HKS_NV_CTL_busy = true → Answers (.bbxPrep p v t) s fun u =>
          TimeAt s u t ∧ SameRegs s u [] ∧ SameRest s u)))
    ∧ (Powered s → s.lands = false → ∀ ok, Answers (.bbxRegionRead t) s (fun u => TimeAt s u t ∧ SameRegs s u [] ∧ SameRest s u)
        ∧ Answers (.bbxPrepDone ok t) s (fun u => TimeAt s u t ∧ SameRegs s u [] ∧ SameRest s u))
    ∧ (Powered s → s.lands = true → s.on HKS_BOOT_done = true → s.mode ≠ 0 → s.bbx.prep = false → s.on HKS_NV_CTL_busy = false →
        (s.hks.bbxOfs = none → Answers (.bbxRegionRead t) s fun u => u.rd BBX_STAT_nv_state = 0 ∧ TimeAt s u t
          ∧ SameRegs s u [BBX_STAT_nv_state] ∧ SameRest s u)
        ∧ (∀ a, s.hks.bbxOfs = some a →
          let b := s.nv.bytes a 65536
          let st := s.regionState b
          (st = 1 ∨ s.on BBX_CFG_auto_prep = false ∨ s.hks.step = 4 → Answers (.bbxRegionRead t) s fun u => u.rd BBX_STAT_nv_state = st
            ∧ (st = 2 → s.on BBX_CFG_load = true → u.bbx.prev = dumpEntries b ∧ u.rd BBX_STAT_prev_valid = 1
                ∧ bit (u.rd BBX_EVT_bits) 3 = true)
            ∧ (st ≠ 2 ∨ s.on BBX_CFG_load = false → u.bbx = s.bbx) ∧ TimeAt s u t)
          ∧ (st ≠ 1 → s.on BBX_CFG_auto_prep = true → s.hks.step ≠ 4 → Answers (.bbxRegionRead t) s fun u =>
            u.rd BBX_STAT_nv_state = 4 ∧ u.bbx.prep = true ∧ u.rd HKS_NV_CTL_busy = 1
              ∧ (st = 2 → s.on BBX_CFG_load = true → u.bbx.prev = dumpEntries b) ∧ TimeAt s u t)))
    ∧ (Powered s → s.lands = true → s.bbx.prep = true → ∀ (ok : Bool) (a : Nat), s.hks.bbxOfs = some a → Answers (.bbxPrepDone ok t) s fun u =>
        u.bbx = { s.bbx with prep := false } ∧ u.rd HKS_NV_CTL_busy = 0 ∧ TimeAt s u t
          ∧ (∀ x, x < a ∨ a + 65536 ≤ x → u.nv.read x = s.nv.read x)
          ∧ (ok = true → u.rd BBX_STAT_nv_state = 1
              ∧ ∀ x, a ≤ x → x < a + 65536 → s.hks.nvSize = 0 ∨ x < s.hks.nvSize → u.nv.read x = 255)
          ∧ (ok = false → u.rd BBX_STAT_nv_state = 3 ∧ bit (u.rd BBX_EVT_bits) 2 = true)
          ∧ SameRegs s u [HKS_NV_CTL_busy, BBX_STAT_nv_state, BBX_EVT_bits])

/-- A load of the instruction register takes effect, but for one the port does not answer in M0 or that would take the lands while
acquisition is not idle, which act as BYPASS; IDCODE captures the device ID, the boundary register the lands that the model follows, the
instruction register what acquisition does. An instruction that takes the lands drops the links of PCI Express and Graft (DEDUCED, log
entry 134); nothing else of the Kameth changes (R437, R438, R439, R440). The model's own choices it rests on: log entries 81, 134, 135. -/
def Obligations.BoundaryScan : Prop :=
  ∀ (s : State) (c : Instr) (code : Nat), Powered s →
    (c, code) ∈ [(Instr.extest, 0), (.idcode, 1), (.samplePreload, 2), (.clamp, 4), (.highz, 5), (.extestPulse, 6), (.extestTrain, 7),
      (.bypass, 255)] →
    let barred := s.mode = 0 ∧ code ≠ 1 ∨ takesLands code = true ∧ s.acqSt ≠ 0
    let loses := decide (¬barred) && takesLands code && s.lands
    Answers c s fun u =>
      u.jtg.instr = (if barred then 255 else code)
        ∧ u.jtg.drive = (if barred ∨ takesLands code = false then 0 else 1 + code)
        ∧ (barred ∨ code = 4 ∨ code = 5 ∨ code = 255 → u.jtg.dr = 0)
        ∧ (code = 1 → u.jtg.dr = s.build.moduleVer % 16 * 2 ^ 28 + 0x4B4D * 2 ^ 12 + Config.jedecId % 2 ^ 11 * 2 + 1)
        ∧ (¬barred → code ∈ [0, 2, 6, 7] → ∀ i, i < 1024 →
            (bit u.jtg.dr i = true ↔ s.on (INP_LSTAT_level (1023 - i)) = true ∧ 1023 - i < s.nChan))
        ∧ (¬barred → code ∈ [0, 2, 6, 7] → ∀ i b, i < otherCells → s.landCell i = some b → bit u.jtg.dr (1024 + (otherCells - 1 - i)) = b)
        ∧ u.jtg.ir = 1 + 4 * (if s.acqSt = 0 then 0 else 1)
        ∧ (loses = false → SameRegs s u [] ∧ SameRest s { u with jtg := s.jtg, free := s.free })
        ∧ (loses = true → (s.hrv.link ≠ none → u.hrv.link = none ∧ u.rd HRV_LINK_up = 0 ∧ u.rd HRV_LINK_width = 0 ∧ u.rd HRV_LINK_speed = 0)
            ∧ (∀ n, n < 4 → s.portUp n = true → u.rd (GRF_GLn_STAT_state n) = 1 ∧ u.rd GRF_EVT_link_down % 2 = 1)
            ∧ SameRegs s u ([HRV_LINK_up, HRV_LINK_width, HRV_LINK_speed, GRF_EVT_link_down] ++ (List.range 4).map GRF_GLn_STAT_state)
            ∧ SameRest s { u with jtg := s.jtg, free := s.free, hrv := s.hrv, grf := s.grf })

end
end

