-- ==== Sys2Proof/Laws/Exec.lean ====
section
/-! SUPPORT. The meaning of each command, one equation per constructor, so that no proof unfolds the dispatch, and the four ways
in which a meaning answers. -/

namespace Sys2Proof

open Machine

theorem exec_registerWrite (p : Port) (a : Nat) (be : BitVec 4) (v : Word) (s : State) :
    exec (.registerWrite p a be v) s =
      State.perform (State.portWrite p a be.toNat v.toNat) s := rfl
theorem exec_captureRead (p : Port) (a : Nat) (s : State) :
    exec (.captureRead p a) s =
      State.perform (State.portRead p a) s := rfl
theorem exec_glbModeWrite (p : Port) (v : Word) (s : State) :
    exec (.glbModeWrite p v) s =
      State.perform (State.portWrite p (GLB_MODE_mode.addr) 15 (v.toNat)) s := rfl
theorem exec_modeChange (t : Nat) (s : State) :
    exec (.modeChange t) s =
      State.performOnAt t (State.modeChange t) s := rfl
theorem exec_returnToMode (t : Nat) (s : State) :
    exec (.returnToMode t) s =
      State.performOnAt t (State.returnToMode t) s := rfl
theorem exec_softReset (p : Port) (v : Word) (t : Nat) (s : State) :
    exec (.softReset p v t) s =
      State.performAt t (State.writeAt p (GLB_RST_key.addr) (v.toNat) t) s := rfl
theorem exec_modResetN (t : Nat) (s : State) :
    exec (.modResetN t) s =
      State.performOnAt t (State.resetPin t) s := rfl
theorem exec_pciePerstN (t : Nat) (s : State) :
    exec (.pciePerstN t) s =
      State.performOnAt t (State.perst t) s := rfl
theorem exec_warmReset (sel : Fin 4) (sigN : Bool) (t : Nat) (s : State) :
    exec (.warmReset sel sigN t) s =
      State.performOnAt t (State.warmReset sel.val sigN t) s := rfl
theorem exec_functionLevelReset (t : Nat) (s : State) :
    exec (.functionLevelReset t) s =
      State.performOnAt t (State.flr t) s := rfl
theorem exec_d3hot (bme : Bool) (t : Nat) (s : State) :
    exec (.d3hot bme t) s =
      State.performOnAt t (State.toD3 bme t) s := rfl
theorem exec_thresholdCalibration (p : Port) (readings : List (Chan × Int)) (t : Nat) (s : State) :
    exec (.thresholdCalibration p readings t) s =
      State.performOnAt t (fun s => State.m7Row p 1 (s.thrEntries (readings.map fun x => (x.1.val, x.2))) t s) s := rfl
theorem exec_probeCheckStart (p : Port) (viaTask : Bool) (t : Nat) (s : State) :
    exec (.probeCheckStart p viaTask t) s =
      State.performAt t (State.probeStart p viaTask t) s := rfl
theorem exec_probeActivityWindowClose (t : Nat) (s : State) :
    exec (.probeActivityWindowClose t) s =
      State.performOnAt t (State.pchkWindow t) s := rfl
theorem exec_probeChannelMeasurement (ch : Chan) (v0 v1 : Int) (t : Nat) (s : State) :
    exec (.probeChannelMeasurement ch v0 v1 t) s =
      State.performOnAt t (State.pchkMeasure ch.val v0 v1 t) s := rfl
theorem exec_injectorCalibration (p : Port) (results : List (Chan × Int)) (t : Nat) (s : State) :
    exec (.injectorCalibration p results t) s =
      State.performOnAt t (fun s => State.m7Row p 3 ((results.filter fun x => decide (x.1.val < s.nChan)).map fun x => (x.1.val, 0, x.2, 0, 0)) t s) s := rfl
theorem exec_tdcCalibration (p : Port) (failed : List Chan) (t : Nat) (s : State) :
    exec (.tdcCalibration p failed t) s =
      State.performOnAt t (fun s => State.m7Row p 4 ((failed.filter fun c => decide (c.val < s.nChan)).map fun c => (c.val, 1, 0, 0, 0)) t s) s := rfl
theorem exec_selfTest (p : Port) (fails : List (Nat × Nat)) (t : Nat) (s : State) :
    exec (.selfTest p fails t) s =
      State.performOnAt t (State.m7Row p 6 (fails.map fun x => (x.2, x.1, 0, 0, 0)) t) s := rfl
theorem exec_m7TaskClear (p : Port) (v : Word) (s : State) :
    exec (.m7TaskClear p v) s =
      State.perform (State.portWrite p (GLB_M7_TASK_task.addr) 15 (v.toNat / 8 * 8)) s := rfl
theorem exec_m7TaskComplete (t : Nat) (s : State) :
    exec (.m7TaskComplete t) s =
      State.performOnAt t (State.m7Done t) s := rfl
theorem exec_channelEdge (ch : Chan) (v : Int) (beyond : Bool) (traw sstart : Nat) (s : State) :
    exec (.channelEdge ch v beyond traw sstart) s =
      State.performOnAt traw (State.channelEdge ch.val v beyond traw sstart) s := rfl
theorem exec_latchClear (p : Port) (ch : Chan) (viaBitmap : Bool) (t : Nat) (s : State) :
    exec (.latchClear p ch viaBitmap t) s =
      State.performAt t (State.latchWrite p ch.val viaBitmap t) s := rfl
theorem exec_latchPeriodTick (ch : Chan) (t : Nat) (s : State) :
    exec (.latchPeriodTick ch t) s =
      State.performOnAt t (State.periodTick ch.val t) s := rfl
theorem exec_latchPeriodWrite (p : Port) (ch : Chan) (v : Word) (t : Nat) (s : State) :
    exec (.latchPeriodWrite p ch v t) s =
      State.performAt t (State.writeAt p ((INP_LPER_period ch.val).addr) (v.toNat) t) s := rfl
theorem exec_latchPeriodSync (p : Port) (v : Word) (t : Nat) (s : State) :
    exec (.latchPeriodSync p v t) s =
      State.performAt t (State.writeAt p (INP_LPER_SYNC_sync.addr) (v.toNat ||| 1) t) s := rfl
theorem exec_thresholdWrite (p : Port) (ch : Chan) (cfg : Bool) (v : Word) (t : Nat) (s : State) :
    exec (.thresholdWrite p ch cfg v t) s =
      State.performAt t (State.writeAt p (if cfg then (INP_CFG_hyst ch.val).addr else (INP_THR_code ch.val).addr) (v.toNat) t) s := rfl
theorem exec_resolution (ch : Chan) (v : Int) (t : Nat) (s : State) :
    exec (.resolution ch v t) s =
      State.performOnAt t (State.resolve ch.val v t) s := rfl
theorem exec_thresholdReadback (ch : Chan) (c0 c1 c2 c3 : Int) (t : Nat) (s : State) :
    exec (.thresholdReadback ch c0 c1 c2 c3 t) s =
      State.performOnAt t (State.readback ch.val c0 c1 c2 c3 t) s := rfl
theorem exec_overdrive (ch : Chan) (t : Nat) (s : State) :
    exec (.overdrive ch t) s =
      State.performOnAt t (State.overdrive ch.val t) s := rfl
theorem exec_overdriveEnd (ch : Chan) (t : Nat) (s : State) :
    exec (.overdriveEnd ch t) s =
      State.performOnAt t (State.overdriveEnd ch.val t) s := rfl
theorem exec_epochLoadArm (p : Port) (v : Word) (s : State) :
    exec (.epochLoadArm p v) s =
      State.perform (State.portWrite p (TMB_EPOCH_CTL_load.addr) 15 (v.toNat ||| 1)) s := rfl
theorem exec_epochCancel (p : Port) (v : Word) (s : State) :
    exec (.epochCancel p v) s =
      State.perform (State.portWrite p (TMB_EPOCH_CTL_load.addr) 15 (v.toNat ||| 2)) s := rfl
theorem exec_epochLoad (t : Nat) (s : State) :
    exec (.epochLoad t) s =
      State.performOnAt t (State.epochLoad t) s := rfl
theorem exec_ppsEdge (e : PpsIn) (s : State) :
    exec (.ppsEdge e) s =
      State.performOnAt e.t (State.ppsEdge e.up e.t) s := rfl
theorem exec_ppsTimeout (t : Nat) (s : State) :
    exec (.ppsTimeout t) s =
      State.performOnAt t (State.ppsTimeout t) s := rfl
theorem exec_refInValid (m : RefIn) (s : State) :
    exec (.refInValid m) s =
      State.performOnAt m.t (State.refValid m.hz m.t) s := rfl
theorem exec_refInInvalid (t : Nat) (s : State) :
    exec (.refInInvalid t) s =
      State.performOnAt t (State.refInvalid t) s := rfl
theorem exec_refLockTimer (t : Nat) (s : State) :
    exec (.refLockTimer t) s =
      State.performOnAt t (State.refLock t) s := rfl
theorem exec_tcompUpdate (temp : Int) (t : Nat) (s : State) :
    exec (.tcompUpdate temp t) s =
      State.performAt t (State.tcompUpdate temp t) s := rfl
theorem exec_ppsOutPulse (t : Nat) (s : State) :
    exec (.ppsOutPulse t) s =
      State.performOnAt t (State.ppsPulse t) s := rfl
theorem exec_ppsOutPulseEnd (t : Nat) (s : State) :
    exec (.ppsOutPulseEnd t) s =
      State.performOnAt t (State.ppsPulseEnd t) s := rfl
theorem exec_deskewTermWrite (p : Port) (ch : Chan) (user : Bool) (v : Word) (t : Nat) (s : State) :
    exec (.deskewTermWrite p ch user v t) s =
      State.performAt t (State.writeAt p (if user then (DSK_USER_d ch.val).addr else (DSK_LAND_d ch.val).addr) (v.toNat) t) s := rfl
theorem exec_deskewApply (t : Nat) (s : State) :
    exec (.deskewApply t) s =
      State.performOnAt t (State.dskIdleApply t) s := rfl
theorem exec_gatherStart (p : Port) (v : Word) (t : Nat) (s : State) :
    exec (.gatherStart p v t) s =
      State.performAt t (State.writeAt p (DSK_GCTL_start.addr) (v.toNat ||| 1) t) s := rfl
theorem exec_gatherAbort (p : Port) (v : Word) (t : Nat) (s : State) :
    exec (.gatherAbort p v t) s =
      State.performAt t (State.writeAt p (DSK_GCTL_start.addr) (v.toNat ||| 2) t) s := rfl
theorem exec_gatherClose (t : Nat) (s : State) :
    exec (.gatherClose t) s =
      State.performOnAt t (State.gatherExpire t) s := rfl
theorem exec_sampleSourceWrite (p : Port) (v : Word) (s : State) :
    exec (.sampleSourceWrite p v) s =
      State.perform (State.portWrite p (CLK_CFG_s_src.addr) 15 (v.toNat)) s := rfl
theorem exec_sampleSourceSwitch (t : Nat) (s : State) :
    exec (.sampleSourceSwitch t) s =
      State.performOnAt t (State.srcSwitch t) s := rfl
theorem exec_clkExtInvalid (l : ExtLoss) (s : State) :
    exec (.clkExtInvalid l) s =
      State.performOnAt l.t (State.extInvalid l.edges l.t) s := rfl
theorem exec_clkExtDrift (err : Int) (t : Nat) (s : State) :
    exec (.clkExtDrift err t) s =
      State.performOnAt t (State.extDrift err t) s := rfl
theorem exec_clkExtValid (err : Int) (t : Nat) (s : State) :
    exec (.clkExtValid err t) s =
      State.performOnAt t (State.extValid err t) s := rfl
theorem exec_extClockReturn (t : Nat) (s : State) :
    exec (.extClockReturn t) s =
      State.performOnAt t (State.extReturn t) s := rfl
theorem exec_adpllEnable (p : Port) (x : Pll) (v : Word) (t : Nat) (s : State) :
    exec (.adpllEnable p x v t) s =
      State.performAt t (State.writeAt p ((CLK_x_CTL_en x.val).addr) (v.toNat ||| 1) t) s := rfl
theorem exec_search (p : Port) (x : Pll) (v : Word) (t : Nat) (s : State) :
    exec (.search p x v t) s =
      State.performAt t (State.writeAt p ((CLK_x_CTL_en x.val).addr) (v.toNat ||| 2) t) s := rfl
theorem exec_bandSearchDone (x : Pll) (ok : Bool) (band : Fin 64) (code : Fin 1024) (t : Nat) (s : State) :
    exec (.bandSearchDone x ok band code t) s =
      State.performOnAt t (State.searchDone x.val ok band.val code.val t) s := rfl
theorem exec_bandTableWrite (p : Port) (x : Pll) (i : Fin 16) (isCode : Bool) (v : Word) (s : State) :
    exec (.bandTableWrite p x i isCode v) s =
      State.perform (State.portWrite p (if isCode then (CLK_x_BT_CODE_code x.val i.val).addr else (CLK_x_BT_FREQ_freq x.val i.val).addr) 15 (v.toNat)) s := rfl
theorem exec_btMiss (x : Pll) (t : Nat) (s : State) :
    exec (.btMiss x t) s =
      State.performOnAt t (State.btMiss x.val t) s := rfl
theorem exec_adpllLocked (x : Pll) (code : Fin 1024) (t : Nat) (s : State) :
    exec (.adpllLocked x code t) s =
      State.performOnAt t (State.pllLocked x.val code.val t) s := rfl
theorem exec_qualifyComplete (x : Pll) (t : Nat) (s : State) :
    exec (.qualifyComplete x t) s =
      State.performOnAt t (State.qualified x.val t) s := rfl
theorem exec_dllLockAcquired (tile : Tile) (t : Nat) (s : State) :
    exec (.dllLockAcquired tile t) s =
      State.performOnAt t (State.dllLocked tile.val t) s := rfl
theorem exec_adpllFailed (x : Pll) (t : Nat) (s : State) :
    exec (.adpllFailed x t) s =
      State.performOnAt t (State.pllFailed x.val t) s := rfl
theorem exec_clockFailureReset (x : Pll) (t : Nat) (s : State) :
    exec (.clockFailureReset x t) s =
      State.performOnAt t (State.clockReset x.val t) s := rfl
theorem exec_hopRequest (p : Port) (v : Word) (t : Nat) (s : State) :
    exec (.hopRequest p v t) s =
      State.performAt t (State.writeAt p (CLK_HOP_start.addr) (v.toNat ||| 1) t) s := rfl
theorem exec_hopCancel (p : Port) (v : Word) (t : Nat) (s : State) :
    exec (.hopCancel p v t) s =
      State.performAt t (State.writeAt p (CLK_HOP_start.addr) (v.toNat ||| 4) t) s := rfl
theorem exec_hopForce (p : Port) (v : Word) (t : Nat) (s : State) :
    exec (.hopForce p v t) s =
      State.performAt t (State.writeAt p (CLK_HOP_start.addr) (v.toNat ||| 2) t) s := rfl
theorem exec_hopStart (t : Nat) (s : State) :
    exec (.hopStart t) s =
      State.performOnAt t (State.hopStart t) s := rfl
theorem exec_lockLoss (x : Pll) (j : Judged) (t : Nat) (s : State) :
    exec (.lockLoss x j t) s =
      State.performOnAt t (State.lockLoss x.val j.j1 j.j2 j.tPass t) s := rfl
theorem exec_holdoverRecovered (x : Pll) (t : Nat) (s : State) :
    exec (.holdoverRecovered x t) s =
      State.performOnAt t (State.recovered x.val t) s := rfl
theorem exec_holdoverOutOfRange (x : Pll) (err : Int) (t : Nat) (s : State) :
    exec (.holdoverOutOfRange x err t) s =
      State.performOnAt t (State.outOfRange x.val err t) s := rfl
theorem exec_holdoverTimeout (x : Pll) (t : Nat) (s : State) :
    exec (.holdoverTimeout x t) s =
      State.performOnAt t (State.holdTimeout x.val t) s := rfl
theorem exec_dllLockLoss (tile : Tile) (t : Nat) (s : State) :
    exec (.dllLockLoss tile t) s =
      State.performOnAt t (State.dllLoss tile.val t) s := rfl
theorem exec_dllRelockTimeout (tile : Tile) (t : Nat) (s : State) :
    exec (.dllRelockTimeout tile t) s =
      State.performOnAt t (State.dllTimeout tile.val t) s := rfl
theorem exec_trellisBranchTaken (k : Nat) (retry second : Bool) (group slot : Fin 16) (s : State) :
    exec (.trellisBranchTaken k retry second group slot) s =
      State.performOnAt (s.grid.start k) (State.branchTaken k retry second group.val slot.val) s := rfl
theorem exec_trigOutPulseEnd (n : Fin 4) (t : Nat) (s : State) :
    exec (.trigOutPulseEnd n t) s =
      State.performOnAt t (State.pulseEnd n.val t) s := rfl
theorem exec_timerLimitReached (n : Fin 16) (t : Nat) (s : State) :
    exec (.timerLimitReached n t) s =
      State.performOnAt t (State.timerLimit n.val t) s := rfl
theorem exec_programCheck (p : Port) (v : Word) (s : State) :
    exec (.programCheck p v) s =
      State.perform (State.portWrite p (TRL_CFG_check.addr) 15 (v.toNat ||| 1)) s := rfl
theorem exec_arm (p : Port) (v : Word) (t : Nat) (s : State) :
    exec (.arm p v t) s =
      State.performAt t (State.writeAt p (ACQ_CTL_arm.addr) (v.toNat ||| 1) t) s := rfl
theorem exec_forceTrig (p : Port) (v : Word) (t : Nat) (s : State) :
    exec (.forceTrig p v t) s =
      State.performAt t (State.writeAt p (ACQ_CTL_arm.addr) (v.toNat ||| 4) t) s := rfl
theorem exec_prefillComplete (t : Nat) (s : State) :
    exec (.prefillComplete t) s =
      State.performOnAt t (State.prefillDone t) s := rfl
theorem exec_prefillTimeLimit (t : Nat) (s : State) :
    exec (.prefillTimeLimit t) s =
      State.performOnAt t (State.prefillLimit t) s := rfl
theorem exec_postfillEnd (t : Nat) (s : State) :
    exec (.postfillEnd t) s =
      State.performOnAt t (State.postfillDone t) s := rfl
theorem exec_segmentChain (t : Nat) (s : State) :
    exec (.segmentChain t) s =
      State.performOnAt t (State.segmentChain t) s := rfl
theorem exec_stop (p : Port) (v : Word) (t : Nat) (s : State) :
    exec (.stop p v t) s =
      State.performAt t (State.writeAt p (ACQ_CTL_arm.addr) (v.toNat ||| 2) t) s := rfl
theorem exec_acqTimeout (t : Nat) (s : State) :
    exec (.acqTimeout t) s =
      State.performOnAt t (State.acqTimeout t) s := rfl
theorem exec_acqIdle (t : Nat) (s : State) :
    exec (.acqIdle t) s =
      State.performOnAt t (State.acqIdle t) s := rfl
theorem exec_storageStall (tile : Tile) (t : Nat) (s : State) :
    exec (.storageStall tile t) s =
      State.performOnAt t (State.storageStall tile.val t) s := rfl
theorem exec_storageResume (t : Nat) (s : State) :
    exec (.storageResume t) s =
      State.performOnAt t (State.storageResume t) s := rfl
theorem exec_hedgeMissing (rule : Fin 64) (ch : Chan) (t : Nat) (s : State) :
    exec (.hedgeMissing rule ch t) s =
      State.performOnAt t (State.missing rule.val ch.val t) s := rfl
theorem exec_hedgeTailEnd (t : Nat) (s : State) :
    exec (.hedgeTailEnd t) s =
      State.performOnAt t (State.hedgeTailEnd t) s := rfl
theorem exec_ruleCheck (p : Port) (v : Word) (s : State) :
    exec (.ruleCheck p v) s =
      State.perform (State.portWrite p (HDG_CTL_check.addr) 15 (v.toNat ||| 1)) s := rfl
theorem exec_reductionIntervalEnd (ru : Fin 8) (t : Nat) (s : State) :
    exec (.reductionIntervalEnd ru t) s =
      State.performOnAt t (State.redIvlExpire ru.val t) s := rfl
theorem exec_reductionFlushTimeout (ru : Fin 8) (t : Nat) (s : State) :
    exec (.reductionFlushTimeout ru t) s =
      State.performOnAt t (State.redFlushExpire ru.val t) s := rfl
theorem exec_flush (p : Port) (v : Word) (t : Nat) (s : State) :
    exec (.flush p v t) s =
      State.performAt t (State.writeAt p (RED_CTL_flush.addr) (v.toNat ||| 1) t) s := rfl
theorem exec_sieveBlockOffer (tile : Tile) (t : Nat) (s : State) :
    exec (.sieveBlockOffer tile t) s =
      State.performOnAt t (State.sieveOffer tile.val t) s := rfl
theorem exec_sieveReservation (tile : Tile) (t : Nat) (s : State) :
    exec (.sieveReservation tile t) s =
      State.performOnAt t (State.sieveReserve tile.val t) s := rfl
theorem exec_sievePassThrough (tile : Tile) (t : Nat) (s : State) :
    exec (.sievePassThrough tile t) s =
      State.performOnAt t (State.sievePass tile.val t) s := rfl
theorem exec_sieveBlockWrite (lane : Fin 32) (wait t : Nat) (s : State) :
    exec (.sieveBlockWrite lane wait t) s =
      State.performOnAt t (State.sieveWrite lane.val wait t) s := rfl
theorem exec_gateInputEdge (i : Fin 8) (rising : Bool) (t : Nat) (s : State) :
    exec (.gateInputEdge i rising t) s =
      State.performOnAt t (State.gateInputEdge i.val rising t) s := rfl
theorem exec_lossEpisodeEnd (t : Nat) (s : State) :
    exec (.lossEpisodeEnd t) s =
      State.performOnAt t (State.lossEnd t) s := rfl
theorem exec_timedGateClose (slot : Fin 64) (t : Nat) (s : State) :
    exec (.timedGateClose slot t) s =
      State.performOnAt t (State.timedGate slot.val t) s := rfl
theorem exec_staleTimestampDiscard (slot : Fin 64) (t : Nat) (s : State) :
    exec (.staleTimestampDiscard slot t) s =
      State.performOnAt t (State.staleDiscard slot.val t) s := rfl
theorem exec_dmcInit (p : Port) (v : Word) (t : Nat) (s : State) :
    exec (.dmcInit p v t) s =
      State.performAt t (State.writeAt p (DMC_CTL_init.addr) (v.toNat ||| 4) t) s := rfl
theorem exec_dmcInitDone (fails : List (Fin 128)) (t : Nat) (s : State) :
    exec (.dmcInitDone fails t) s =
      State.performOnAt t (State.dmcInitDone (fails.map Fin.val) t) s := rfl
theorem exec_dmcApply (p : Port) (v : Word) (s : State) :
    exec (.dmcApply p v) s =
      State.perform (State.portWrite p (DMC_CTL_init.addr) 15 (v.toNat ||| 1)) s := rfl
theorem exec_dmcRetire (p : Port) (v : Word) (t : Nat) (s : State) :
    exec (.dmcRetire p v t) s =
      State.performAt t (State.writeAt p (DMC_CTL_init.addr) (v.toNat ||| 2) t) s := rfl
theorem exec_retireThreshold (pc : Fin 128) (q : Second) (t : Nat) (s : State) :
    exec (.retireThreshold pc q t) s =
      State.performOnAt t (State.symbolsCounted pc.val q t) s := rfl
theorem exec_migrationComplete (m : Migration) (s : State) :
    exec (.migrationComplete m) s =
      State.performOnAt m.t (State.migrated m.bad m.t) s := rfl
theorem exec_rowSpare (pc : Fin 128) (row : Nat) (t : Nat) (s : State) :
    exec (.rowSpare pc row t) s =
      State.performOnAt t (State.rowSpared pc.val row t) s := rfl
theorem exec_refreshDue (pc : Fin 128) (blocked : Bool) (t : Nat) (s : State) :
    exec (.refreshDue pc blocked t) s =
      State.performOnAt t (State.refreshDue pc.val blocked t) s := rfl
theorem exec_owedRefreshIssue (pc : Fin 128) (t : Nat) (s : State) :
    exec (.owedRefreshIssue pc t) s =
      State.performOnAt t (State.owedIssue pc.val t) s := rfl
theorem exec_stackTempReading (s : Fin 4) (temp : Int) (t : Nat) (s0 : State) :
    exec (.stackTempReading s temp t) s0 =
      State.performOnAt t (State.stackTemp s.val temp t) s0 := rfl
theorem exec_rakeLease (target : Fin 3) (q : Leased) (t : Nat) (s : State) :
    exec (.rakeLease target q t) s =
      State.performOnAt t (State.rakeLease target.val q t) s := rfl
theorem exec_rakeLeaseRelease (target : Fin 3) (t : Nat) (s : State) :
    exec (.rakeLeaseRelease target t) s =
      State.performOnAt t (State.rakeRelease target.val t) s := rfl
theorem exec_rakePreempt (target : Fin 3) (t : Nat) (s : State) :
    exec (.rakePreempt target t) s =
      State.performOnAt t (State.rakePreempt target.val t) s := rfl
theorem exec_nearClearDone (t : Nat) (s : State) :
    exec (.nearClearDone t) s =
      State.performOnAt t (State.nearCleared t) s := rfl
theorem exec_deepClearDone (t : Nat) (s : State) :
    exec (.deepClearDone t) s =
      State.performOnAt t (State.deepCleared t) s := rfl
theorem exec_bar2Read (a len : Nat) (corr uncorr : List Nat) (g : Grant) (s : State) :
    exec (.bar2Read a len corr uncorr g) s =
      State.performOnAt g.t (State.bar2Get a len corr uncorr g.wait g.t) s := rfl
theorem exec_bar2Write (a : Nat) (data : List Byte) (g : Grant) (s : State) :
    exec (.bar2Write a data g) s =
      State.performOnAt g.t (State.bar2Put a data g.wait g.t) s := rfl
theorem exec_laneDownshift (width : Nat) (speed : Nat) (t : Nat) (s : State) :
    exec (.laneDownshift width speed t) s =
      State.performOnAt t (State.downshift width speed t) s := rfl
theorem exec_descriptorTailWrite (p : Port) (n : Fin 16) (v : Word) (t : Nat) (s : State) :
    exec (.descriptorTailWrite p n v t) s =
      State.performAt t (State.writeAt p ((HRV_RINGn_TAIL_idx n.val).addr) (v.toNat) t) s := rfl
theorem exec_descriptorFetch (n : Fin 16) (bytes : List Byte) (t : Nat) (s : State) :
    exec (.descriptorFetch n bytes t) s =
      State.performOnAt t (State.descFetch n.val bytes t) s := rfl
theorem exec_descriptorFetchError (n : Fin 16) (t : Nat) (s : State) :
    exec (.descriptorFetchError n t) s =
      State.performOnAt t (State.fetchError n.val t) s := rfl
theorem exec_copyDescriptor (n : Fin 16) (r : MemRead) (s : State) :
    exec (.copyDescriptor n r) s =
      State.performOnAt r.g.t (State.copyDesc n.val r.corr r.uncorr r.g.wait r.g.t) s := rfl
theorem exec_followBufferComplete (n : Fin 16) (t : Nat) (s : State) :
    exec (.followBufferComplete n t) s =
      State.performOnAt t (State.followDone n.val t) s := rfl
theorem exec_followFlushTimeout (n : Fin 16) (t : Nat) (s : State) :
    exec (.followFlushTimeout n t) s =
      State.performOnAt t (State.followFlush n.val t) s := rfl
theorem exec_followOverrun (n : Fin 16) (t : Nat) (s : State) :
    exec (.followOverrun n t) s =
      State.performOnAt t (State.followOver n.val t) s := rfl
theorem exec_ringDisable (p : Port) (n : Fin 16) (v : Word) (t : Nat) (s : State) :
    exec (.ringDisable p n v t) s =
      State.performAt t (State.writeAt p ((HRV_RINGn_CFG_en n.val).addr) (v.toNat % 2 ^ 31) t) s := rfl
theorem exec_cqHeadWrite (p : Port) (m : Fin 16) (v : Word) (t : Nat) (s : State) :
    exec (.cqHeadWrite p m v t) s =
      State.performAt t (State.writeAt p ((HRV_CQm_HEAD_idx m.val).addr) (v.toNat) t) s := rfl
theorem exec_cqModerationTimeout (m : Fin 16) (t : Nat) (s : State) :
    exec (.cqModerationTimeout m t) s =
      State.performOnAt t (State.cqTimeout m.val t) s := rfl
theorem exec_stationRead (a : Nat) (hostWord : Option Nat) (hostWrites : Bool) (t : Nat) (s : State) :
    exec (.stationRead a hostWord hostWrites t) s =
      State.stationAccess t (State.stationRead a (hostWord = some (a / 2)) hostWrites) s := rfl
theorem exec_stationWrite (a : Nat) (d : BitVec 16) (hostWord : Option Nat) (hostWrites : Bool) (t : Nat) (s : State) :
    exec (.stationWrite a d hostWord hostWrites t) s =
      State.stationAccess t (State.stationWrite a d.toNat (hostWord = some (a / 2)) hostWrites) s := rfl
theorem exec_windowRead (t : Nat) (s : State) :
    exec (.windowRead t) s =
      State.performOnAt t (State.windowDone false t) s := rfl
theorem exec_windowWrite (t : Nat) (s : State) :
    exec (.windowWrite t) s =
      State.performOnAt t (State.windowDone true t) s := rfl
theorem exec_hostDoorbell (p : Port) (v : Word) (s : State) :
    exec (.hostDoorbell p v) s =
      State.perform (State.portWrite p (STP_DB_OUT_db.addr) 15 (v.toNat)) s := rfl
theorem exec_stationDoorbell (d : BitVec 16) (t : Nat) (s : State) :
    exec (.stationDoorbell d t) s =
      State.stationAccess t (State.stationWrite doorbellAt d.toNat false false) s := rfl
theorem exec_trigFrame (port : Fin 4) (hop : Fin 16) (src : Fin 4096) (seq : Fin 256) (mark : Fin 256) (coarse : Bool) (kt t : Nat) (s : State) :
    exec (.trigFrame port hop src seq mark coarse kt t) s =
      State.performOnAt t (State.trigFrame port.val hop.val src.val seq.val mark.val coarse kt t) s := rfl
theorem exec_syncFrame (port : Fin 4) (unit : Fin 4096) (t3 t1 t2 t : Nat) (s : State) :
    exec (.syncFrame port unit t3 t1 t2 t) s =
      State.performOnAt t (State.syncFrame port.val unit.val t3 t1 t2 t) s := rfl
theorem exec_syncSend (port : Fin 4) (t : Nat) (s : State) :
    exec (.syncSend port t) s =
      State.performOnAt t (State.syncSend port.val t) s := rfl
theorem exec_frameDiscard (port : Fin 4) (bits blocks t : Nat) (s : State) :
    exec (.frameDiscard port bits blocks t) s =
      State.performOnAt t (State.frameDiscard port.val bits blocks t) s := rfl
theorem exec_portEnable (p : Port) (port : Fin 4) (v : Word) (t : Nat) (s : State) :
    exec (.portEnable p port v t) s =
      State.performAt t (State.writeAt p ((GRF_GLn_CFG_en port.val).addr) (v.toNat ||| 2 ^ 31) t) s := rfl
theorem exec_linkTimeout (port : Fin 4) (l : LinkLoss) (s : State) :
    exec (.linkTimeout port l) s =
      State.performOnAt l.t (State.linkTimeout port.val l.lost l.t) s := rfl
theorem exec_aonPowerUp (sel : Fin 4) (sigN : Bool) (s : State) :
    exec (.aonPowerUp sel sigN) s =
      .next (State.aonUp sel.val sigN s) := rfl
theorem exec_wakeFromOff (t : Nat) (s : State) :
    exec (.wakeFromOff t) s =
      State.performAt t (State.wakeFromOff t) s := rfl
theorem exec_imageCheck (size : Nat) (t : Nat) (s : State) :
    exec (.imageCheck size t) s =
      State.performOnAt t (State.imageCheck size t) s := rfl
theorem exec_loadTimeout (t : Nat) (s : State) :
    exec (.loadTimeout t) s =
      State.performOnAt t (State.loadTimeout t) s := rfl
theorem exec_write (t : Nat) (s : State) :
    exec (.write t) s =
      State.performOnAt t (State.scriptStep 1 t State.opWrite) s := rfl
theorem exec_rmw (t : Nat) (s : State) :
    exec (.rmw t) s =
      State.performOnAt t (State.scriptStep 2 t State.opRmw) s := rfl
theorem exec_poll (t : Nat) (s : State) :
    exec (.poll t) s =
      State.performOnAt t (State.scriptStep 3 t State.opPoll) s := rfl
theorem exec_pollConditionMet (t : Nat) (s : State) :
    exec (.pollConditionMet t) s =
      State.performOnAt t (State.pollMet t) s := rfl
theorem exec_pollTimeout (t : Nat) (s : State) :
    exec (.pollTimeout t) s =
      State.performOnAt t (State.pollTimeout t) s := rfl
theorem exec_wait (t : Nat) (s : State) :
    exec (.wait t) s =
      State.performOnAt t (State.scriptStep 4 t State.opWait) s := rfl
theorem exec_waitExpiry (t : Nat) (s : State) :
    exec (.waitExpiry t) s =
      State.performOnAt t (State.waitExpiry t) s := rfl
theorem exec_branchVariant (t : Nat) (s : State) :
    exec (.branchVariant t) s =
      State.performOnAt t (State.scriptStep 5 t State.opVariant) s := rfl
theorem exec_branchStatus (t : Nat) (s : State) :
    exec (.branchStatus t) s =
      State.performOnAt t (State.scriptStep 6 t State.opStatus) s := rfl
theorem exec_callEvent (t : Nat) (s : State) :
    exec (.callEvent t) s =
      State.performOnAt t (State.scriptStep 7 t State.opCall) s := rfl
theorem exec_endScript (t : Nat) (s : State) :
    exec (.endScript t) s =
      State.performOnAt t (State.scriptStep 8 t (fun k s => s.scriptEnd k)) s := rfl
theorem exec_autoArm (t : Nat) (s : State) :
    exec (.autoArm t) s =
      State.performOnAt t (State.autoArm t) s := rfl
theorem exec_eventScriptStart (t : Nat) (s : State) :
    exec (.eventScriptStart t) s =
      State.performOnAt t (State.eventStart t) s := rfl
theorem exec_hksRun (p : Port) (v : Word) (t : Nat) (s : State) :
    exec (.hksRun p v t) s =
      State.performAt t (State.writeAt p (HKS_RUN_start.addr) (v.toNat ||| 2 ^ 31) t) s := rfl
theorem exec_watchdogFeed (p : Port) (v : Word) (t : Nat) (s : State) :
    exec (.watchdogFeed p v t) s =
      State.performAt t (State.writeAt p (HKS_WDG_FEED_key.addr) (v.toNat) t) s := rfl
theorem exec_watchdogExpiry (t : Nat) (s : State) :
    exec (.watchdogExpiry t) s =
      State.performOnAt t (State.watchdog t) s := rfl
theorem exec_nvRead (p : Port) (v : Word) (t : Nat) (s : State) :
    exec (.nvRead p v t) s =
      State.performAt t (State.writeAt p (HKS_NV_CTL_op.addr) (v.toNat / 8 * 8 + 1) t) s := rfl
theorem exec_nvProgram (p : Port) (v : Word) (t : Nat) (s : State) :
    exec (.nvProgram p v t) s =
      State.performAt t (State.writeAt p (HKS_NV_CTL_op.addr) (v.toNat / 8 * 8 + 2) t) s := rfl
theorem exec_nvErase4K (p : Port) (v : Word) (t : Nat) (s : State) :
    exec (.nvErase4K p v t) s =
      State.performAt t (State.writeAt p (HKS_NV_CTL_op.addr) (v.toNat / 8 * 8 + 3) t) s := rfl
theorem exec_nvErase64K (p : Port) (v : Word) (t : Nat) (s : State) :
    exec (.nvErase64K p v t) s =
      State.performAt t (State.writeAt p (HKS_NV_CTL_op.addr) (v.toNat / 8 * 8 + 4) t) s := rfl
theorem exec_nvDone (t : Nat) (s : State) :
    exec (.nvDone t) s =
      State.performOnAt t (State.nvDone t) s := rfl
theorem exec_nvTimeout (t : Nat) (s : State) :
    exec (.nvTimeout t) s =
      State.performOnAt t (State.nvTimeout t) s := rfl
theorem exec_latchWake (t : Nat) (s : State) :
    exec (.latchWake t) s =
      State.performOnAt t (State.latchWake t) s := rfl
theorem exec_timerWake (t : Nat) (s : State) :
    exec (.timerWake t) s =
      State.performOnAt t (State.timerWake t) s := rfl
theorem exec_hostWake (r : HostReq) (t : Nat) (s : State) :
    exec (.hostWake r t) s =
      State.performOnAt t (State.hostWake r t) s := rfl
theorem exec_armOnWake (t : Nat) (s : State) :
    exec (.armOnWake t) s =
      State.performOnAt t (State.wakeArm t) s := rfl
theorem exec_feedLeavesRange (f : Feed) (k : FeedFault) (mv : Int) (t : Nat) (s : State) :
    exec (.feedLeavesRange f k mv t) s =
      State.performAt t (State.feedLeaves (feedNo f) k mv t) s := rfl
theorem exec_feedSenseTest (f : Feed) (shorted : Bool) (mv : Int) (t : Nat) (s : State) :
    exec (.feedSenseTest f shorted mv t) s =
      State.performAt t (State.feedSense (feedNo f) shorted mv t) s := rfl
theorem exec_feedGood (f : Feed) (mv : Int) (t : Nat) (s : State) :
    exec (.feedGood f mv t) s =
      State.performAt t (State.feedGood (feedNo f) mv t) s := rfl
theorem exec_revert (t : Nat) (s : State) :
    exec (.revert t) s =
      State.performAt t (State.revert t) s := rfl
theorem exec_hostFeedSwitch (p : Port) (v : Word) (t : Nat) (s : State) :
    exec (.hostFeedSwitch p v t) s =
      State.performAt t (State.writeAt p (PWR_CTL_key.addr) (v.toNat ||| 1) t) s := rfl
theorem exec_rideThrough (f : Feed) (t : Nat) (s : State) :
    exec (.rideThrough f t) s =
      State.performAt t (State.rideThrough (feedNo f) t) s := rfl
theorem exec_orderlyLossSequence (t : Nat) (s : State) :
    exec (.orderlyLossSequence t) s =
      State.performOnAt t (State.feedsLost t) s := rfl
theorem exec_harvestCutoff (t : Nat) (s : State) :
    exec (.harvestCutoff t) s =
      State.performOnAt t (State.cutoff t) s := rfl
theorem exec_railsOff (t : Nat) (s : State) :
    exec (.railsOff t) s =
      State.performOnAt t (State.railsOff t) s := rfl
theorem exec_dumpEnd (ok : Bool) (t : Nat) (s : State) :
    exec (.dumpEnd ok t) s =
      State.performAt t (State.dumpEnd ok t) s := rfl
theorem exec_phaseFailure (rail : Fin 8) (fault : Bool) (t : Nat) (s : State) :
    exec (.phaseFailure rail fault t) s =
      State.performAt t (State.phaseFail rail.val fault t) s := rfl
theorem exec_holdupTest (pct : Nat) (t : Nat) (s : State) :
    exec (.holdupTest pct t) s =
      State.performAt t (State.holdup pct t) s := rfl
theorem exec_outputFault (o : Fin 6) (t : Nat) (s : State) :
    exec (.outputFault o t) s =
      State.performOnAt t (State.outFault o.val t) s := rfl
theorem exec_outputFaultEnd (o : Fin 6) (t : Nat) (s : State) :
    exec (.outputFaultEnd o t) s =
      State.performOnAt t (State.outFaultEnd o.val t) s := rfl
theorem exec_thermalReading (temps : List (Nat × Int)) (t : Nat) (s : State) :
    exec (.thermalReading temps t) s =
      State.performOnAt t (State.thermal temps t) s := rfl
theorem exec_thermalTrip (sensor : Fin 14) (temp : Int) (t : Nat) (s : State) :
    exec (.thermalTrip sensor temp t) s =
      State.performOnAt t (State.trip sensor.val temp t) s := rfl
theorem exec_thermalRestart (t : Nat) (s : State) :
    exec (.thermalRestart t) s =
      State.performAt t (State.thermalRestart t) s := rfl
theorem exec_residueMismatch (unit : Fin 9) (group : Fin 256) (slot : Fin 16) (second : Bool) (t : Nat) (s : State) :
    exec (.residueMismatch unit group slot second t) s =
      State.performOnAt t (State.residue unit.val group.val slot.val second t) s := rfl
theorem exec_laneFail (ch : Chan) (t : Nat) (s : State) :
    exec (.laneFail ch t) s =
      State.performOnAt t (State.laneFail ch.val t) s := rfl
theorem exec_spareLaneMeasured (g : Fin 16) (t : Nat) (s : State) :
    exec (.spareLaneMeasured g t) s =
      State.performOnAt t (State.laneMeasured g.val t) s := rfl
theorem exec_spareLaneSwap (g : Fin 16) (t : Nat) (s : State) :
    exec (.spareLaneSwap g t) s =
      State.performOnAt t (State.laneSwapIdle g.val t) s := rfl
theorem exec_bbxFreeze (p : Port) (v : Word) (s : State) :
    exec (.bbxFreeze p v) s =
      State.perform (State.portWrite p (BBX_CTL_key.addr) 15 (v.toNat ||| 1)) s := rfl
theorem exec_bbxUnfreeze (p : Port) (v : Word) (s : State) :
    exec (.bbxUnfreeze p v) s =
      State.perform (State.portWrite p (BBX_CTL_key.addr) 15 (v.toNat ||| 2)) s := rfl
theorem exec_bbxClear (p : Port) (v : Word) (s : State) :
    exec (.bbxClear p v) s =
      State.perform (State.portWrite p (BBX_CTL_key.addr) 15 (v.toNat ||| 4)) s := rfl
theorem exec_bbxPrep (p : Port) (v : Word) (t : Nat) (s : State) :
    exec (.bbxPrep p v t) s =
      State.performAt t (State.writeAt p (BBX_CTL_key.addr) (v.toNat ||| 8) t) s := rfl
theorem exec_bbxRegionRead (t : Nat) (s : State) :
    exec (.bbxRegionRead t) s =
      State.performOnAt t (State.bbxRead t) s := rfl
theorem exec_bbxPrepDone (ok : Bool) (t : Nat) (s : State) :
    exec (.bbxPrepDone ok t) s =
      State.performOnAt t (State.bbxPrepDone ok t) s := rfl
theorem exec_extest (s : State) :
    exec (.extest) s =
      State.performOn (State.scanLoad 0) s := rfl
theorem exec_idcode (s : State) :
    exec (.idcode) s =
      State.performOn (State.scanLoad 1) s := rfl
theorem exec_samplePreload (s : State) :
    exec (.samplePreload) s =
      State.performOn (State.scanLoad 2) s := rfl
theorem exec_clamp (s : State) :
    exec (.clamp) s =
      State.performOn (State.scanLoad 4) s := rfl
theorem exec_highz (s : State) :
    exec (.highz) s =
      State.performOn (State.scanLoad 5) s := rfl
theorem exec_extestPulse (s : State) :
    exec (.extestPulse) s =
      State.performOn (State.scanLoad 6) s := rfl
theorem exec_extestTrain (s : State) :
    exec (.extestTrain) s =
      State.performOn (State.scanLoad 7) s := rfl
theorem exec_bypass (s : State) :
    exec (.bypass) s =
      State.performOn (State.scanLoad 255) s := rfl
theorem exec_alwaysOnPowerLoss (s : State) :
    exec (.alwaysOnPowerLoss) s =
      State.perform State.aonLoss s := rfl
theorem exec_feedQual (f : Feed) (mv : Int) (t : Nat) (s : State) :
    exec (.feedQual f mv t) s =
      State.performAt t (State.feedQualify (feedNo f) mv t) s := rfl
theorem exec_feedMargin (f : Feed) (back : Bool) (mv : Int) (t : Nat) (s : State) :
    exec (.feedMargin f back mv t) s =
      State.performAt t (State.feedMargin (feedNo f) back mv t) s := rfl
theorem exec_returnToD0 (bme : Bool) (t : Nat) (s : State) :
    exec (.returnToD0 bme t) s =
      State.performOnAt t (State.toD0 bme t) s := rfl
theorem exec_linkRetrain (width speed : Nat) (t : Nat) (s : State) :
    exec (.linkRetrain width speed t) s =
      State.performOnAt t (State.retrain width speed t) s := rfl
theorem exec_l1_2Entry (t : Nat) (s : State) :
    exec (.l1_2Entry t) s =
      State.performOnAt t (State.toL12 t) s := rfl
theorem exec_pcieLinkUp (width speed : Nat) (t : Nat) (s : State) :
    exec (.pcieLinkUp width speed t) s =
      State.performOnAt t (State.linkUp width speed t) s := rfl

/-- Every meaning answers in one of four ways: a command of the always-on domain, one of the main rails, an access of the station
port, or AON_POWER_UP. -/
theorem exec_shape (c : Instr) (s : State) :
    (∃ f, exec c s = State.perform f s) ∨ (∃ f, exec c s = State.performOn f s) ∨ (∃ t f, exec c s = State.stationAccess t f s)
      ∨ ∃ sel sigN, c = .aonPowerUp sel sigN := by
  cases c
  case registerWrite => exact Or.inl ⟨_, exec_registerWrite _ _ _ _ _⟩
  case captureRead => exact Or.inl ⟨_, exec_captureRead _ _ _⟩
  case glbModeWrite => exact Or.inl ⟨_, exec_glbModeWrite _ _ _⟩
  case modeChange => exact Or.inr (Or.inl ⟨_, exec_modeChange _ _⟩)
  case returnToMode => exact Or.inr (Or.inl ⟨_, exec_returnToMode _ _⟩)
  case softReset => exact Or.inl ⟨_, exec_softReset _ _ _ _⟩
  case modResetN => exact Or.inr (Or.inl ⟨_, exec_modResetN _ _⟩)
  case pciePerstN => exact Or.inr (Or.inl ⟨_, exec_pciePerstN _ _⟩)
  case warmReset => exact Or.inr (Or.inl ⟨_, exec_warmReset _ _ _ _⟩)
  case functionLevelReset => exact Or.inr (Or.inl ⟨_, exec_functionLevelReset _ _⟩)
  case d3hot => exact Or.inr (Or.inl ⟨_, exec_d3hot _ _ _⟩)
  case thresholdCalibration => exact Or.inr (Or.inl ⟨_, exec_thresholdCalibration _ _ _ _⟩)
  case probeCheckStart => exact Or.inl ⟨_, exec_probeCheckStart _ _ _ _⟩
  case probeActivityWindowClose => exact Or.inr (Or.inl ⟨_, exec_probeActivityWindowClose _ _⟩)
  case probeChannelMeasurement => exact Or.inr (Or.inl ⟨_, exec_probeChannelMeasurement _ _ _ _ _⟩)
  case injectorCalibration => exact Or.inr (Or.inl ⟨_, exec_injectorCalibration _ _ _ _⟩)
  case tdcCalibration => exact Or.inr (Or.inl ⟨_, exec_tdcCalibration _ _ _ _⟩)
  case selfTest => exact Or.inr (Or.inl ⟨_, exec_selfTest _ _ _ _⟩)
  case m7TaskClear => exact Or.inl ⟨_, exec_m7TaskClear _ _ _⟩
  case m7TaskComplete => exact Or.inr (Or.inl ⟨_, exec_m7TaskComplete _ _⟩)
  case channelEdge => exact Or.inr (Or.inl ⟨_, exec_channelEdge _ _ _ _ _ _⟩)
  case latchClear => exact Or.inl ⟨_, exec_latchClear _ _ _ _ _⟩
  case latchPeriodTick => exact Or.inr (Or.inl ⟨_, exec_latchPeriodTick _ _ _⟩)
  case latchPeriodWrite => exact Or.inl ⟨_, exec_latchPeriodWrite _ _ _ _ _⟩
  case latchPeriodSync => exact Or.inl ⟨_, exec_latchPeriodSync _ _ _ _⟩
  case thresholdWrite => exact Or.inl ⟨_, exec_thresholdWrite _ _ _ _ _ _⟩
  case resolution => exact Or.inr (Or.inl ⟨_, exec_resolution _ _ _ _⟩)
  case thresholdReadback => exact Or.inr (Or.inl ⟨_, exec_thresholdReadback _ _ _ _ _ _ _⟩)
  case overdrive => exact Or.inr (Or.inl ⟨_, exec_overdrive _ _ _⟩)
  case overdriveEnd => exact Or.inr (Or.inl ⟨_, exec_overdriveEnd _ _ _⟩)
  case epochLoadArm => exact Or.inl ⟨_, exec_epochLoadArm _ _ _⟩
  case epochCancel => exact Or.inl ⟨_, exec_epochCancel _ _ _⟩
  case epochLoad => exact Or.inr (Or.inl ⟨_, exec_epochLoad _ _⟩)
  case ppsEdge => exact Or.inr (Or.inl ⟨_, exec_ppsEdge _ _⟩)
  case ppsTimeout => exact Or.inr (Or.inl ⟨_, exec_ppsTimeout _ _⟩)
  case refInValid => exact Or.inr (Or.inl ⟨_, exec_refInValid _ _⟩)
  case refInInvalid => exact Or.inr (Or.inl ⟨_, exec_refInInvalid _ _⟩)
  case refLockTimer => exact Or.inr (Or.inl ⟨_, exec_refLockTimer _ _⟩)
  case tcompUpdate => exact Or.inl ⟨_, exec_tcompUpdate _ _ _⟩
  case ppsOutPulse => exact Or.inr (Or.inl ⟨_, exec_ppsOutPulse _ _⟩)
  case ppsOutPulseEnd => exact Or.inr (Or.inl ⟨_, exec_ppsOutPulseEnd _ _⟩)
  case deskewTermWrite => exact Or.inl ⟨_, exec_deskewTermWrite _ _ _ _ _ _⟩
  case deskewApply => exact Or.inr (Or.inl ⟨_, exec_deskewApply _ _⟩)
  case gatherStart => exact Or.inl ⟨_, exec_gatherStart _ _ _ _⟩
  case gatherAbort => exact Or.inl ⟨_, exec_gatherAbort _ _ _ _⟩
  case gatherClose => exact Or.inr (Or.inl ⟨_, exec_gatherClose _ _⟩)
  case sampleSourceWrite => exact Or.inl ⟨_, exec_sampleSourceWrite _ _ _⟩
  case sampleSourceSwitch => exact Or.inr (Or.inl ⟨_, exec_sampleSourceSwitch _ _⟩)
  case clkExtInvalid => exact Or.inr (Or.inl ⟨_, exec_clkExtInvalid _ _⟩)
  case clkExtDrift => exact Or.inr (Or.inl ⟨_, exec_clkExtDrift _ _ _⟩)
  case clkExtValid => exact Or.inr (Or.inl ⟨_, exec_clkExtValid _ _ _⟩)
  case extClockReturn => exact Or.inr (Or.inl ⟨_, exec_extClockReturn _ _⟩)
  case adpllEnable => exact Or.inl ⟨_, exec_adpllEnable _ _ _ _ _⟩
  case search => exact Or.inl ⟨_, exec_search _ _ _ _ _⟩
  case bandSearchDone => exact Or.inr (Or.inl ⟨_, exec_bandSearchDone _ _ _ _ _ _⟩)
  case bandTableWrite => exact Or.inl ⟨_, exec_bandTableWrite _ _ _ _ _ _⟩
  case btMiss => exact Or.inr (Or.inl ⟨_, exec_btMiss _ _ _⟩)
  case adpllLocked => exact Or.inr (Or.inl ⟨_, exec_adpllLocked _ _ _ _⟩)
  case qualifyComplete => exact Or.inr (Or.inl ⟨_, exec_qualifyComplete _ _ _⟩)
  case dllLockAcquired => exact Or.inr (Or.inl ⟨_, exec_dllLockAcquired _ _ _⟩)
  case adpllFailed => exact Or.inr (Or.inl ⟨_, exec_adpllFailed _ _ _⟩)
  case clockFailureReset => exact Or.inr (Or.inl ⟨_, exec_clockFailureReset _ _ _⟩)
  case hopRequest => exact Or.inl ⟨_, exec_hopRequest _ _ _ _⟩
  case hopCancel => exact Or.inl ⟨_, exec_hopCancel _ _ _ _⟩
  case hopForce => exact Or.inl ⟨_, exec_hopForce _ _ _ _⟩
  case hopStart => exact Or.inr (Or.inl ⟨_, exec_hopStart _ _⟩)
  case lockLoss => exact Or.inr (Or.inl ⟨_, exec_lockLoss _ _ _ _⟩)
  case holdoverRecovered => exact Or.inr (Or.inl ⟨_, exec_holdoverRecovered _ _ _⟩)
  case holdoverOutOfRange => exact Or.inr (Or.inl ⟨_, exec_holdoverOutOfRange _ _ _ _⟩)
  case holdoverTimeout => exact Or.inr (Or.inl ⟨_, exec_holdoverTimeout _ _ _⟩)
  case dllLockLoss => exact Or.inr (Or.inl ⟨_, exec_dllLockLoss _ _ _⟩)
  case dllRelockTimeout => exact Or.inr (Or.inl ⟨_, exec_dllRelockTimeout _ _ _⟩)
  case trellisBranchTaken => exact Or.inr (Or.inl ⟨_, exec_trellisBranchTaken _ _ _ _ _ _⟩)
  case trigOutPulseEnd => exact Or.inr (Or.inl ⟨_, exec_trigOutPulseEnd _ _ _⟩)
  case timerLimitReached => exact Or.inr (Or.inl ⟨_, exec_timerLimitReached _ _ _⟩)
  case programCheck => exact Or.inl ⟨_, exec_programCheck _ _ _⟩
  case arm => exact Or.inl ⟨_, exec_arm _ _ _ _⟩
  case forceTrig => exact Or.inl ⟨_, exec_forceTrig _ _ _ _⟩
  case prefillComplete => exact Or.inr (Or.inl ⟨_, exec_prefillComplete _ _⟩)
  case prefillTimeLimit => exact Or.inr (Or.inl ⟨_, exec_prefillTimeLimit _ _⟩)
  case postfillEnd => exact Or.inr (Or.inl ⟨_, exec_postfillEnd _ _⟩)
  case segmentChain => exact Or.inr (Or.inl ⟨_, exec_segmentChain _ _⟩)
  case stop => exact Or.inl ⟨_, exec_stop _ _ _ _⟩
  case acqTimeout => exact Or.inr (Or.inl ⟨_, exec_acqTimeout _ _⟩)
  case acqIdle => exact Or.inr (Or.inl ⟨_, exec_acqIdle _ _⟩)
  case storageStall => exact Or.inr (Or.inl ⟨_, exec_storageStall _ _ _⟩)
  case storageResume => exact Or.inr (Or.inl ⟨_, exec_storageResume _ _⟩)
  case hedgeMissing => exact Or.inr (Or.inl ⟨_, exec_hedgeMissing _ _ _ _⟩)
  case hedgeTailEnd => exact Or.inr (Or.inl ⟨_, exec_hedgeTailEnd _ _⟩)
  case ruleCheck => exact Or.inl ⟨_, exec_ruleCheck _ _ _⟩
  case reductionIntervalEnd => exact Or.inr (Or.inl ⟨_, exec_reductionIntervalEnd _ _ _⟩)
  case reductionFlushTimeout => exact Or.inr (Or.inl ⟨_, exec_reductionFlushTimeout _ _ _⟩)
  case flush => exact Or.inl ⟨_, exec_flush _ _ _ _⟩
  case sieveBlockOffer => exact Or.inr (Or.inl ⟨_, exec_sieveBlockOffer _ _ _⟩)
  case sieveReservation => exact Or.inr (Or.inl ⟨_, exec_sieveReservation _ _ _⟩)
  case sievePassThrough => exact Or.inr (Or.inl ⟨_, exec_sievePassThrough _ _ _⟩)
  case sieveBlockWrite => exact Or.inr (Or.inl ⟨_, exec_sieveBlockWrite _ _ _ _⟩)
  case gateInputEdge => exact Or.inr (Or.inl ⟨_, exec_gateInputEdge _ _ _ _⟩)
  case lossEpisodeEnd => exact Or.inr (Or.inl ⟨_, exec_lossEpisodeEnd _ _⟩)
  case timedGateClose => exact Or.inr (Or.inl ⟨_, exec_timedGateClose _ _ _⟩)
  case staleTimestampDiscard => exact Or.inr (Or.inl ⟨_, exec_staleTimestampDiscard _ _ _⟩)
  case dmcInit => exact Or.inl ⟨_, exec_dmcInit _ _ _ _⟩
  case dmcInitDone => exact Or.inr (Or.inl ⟨_, exec_dmcInitDone _ _ _⟩)
  case dmcApply => exact Or.inl ⟨_, exec_dmcApply _ _ _⟩
  case dmcRetire => exact Or.inl ⟨_, exec_dmcRetire _ _ _ _⟩
  case retireThreshold => exact Or.inr (Or.inl ⟨_, exec_retireThreshold _ _ _ _⟩)
  case migrationComplete => exact Or.inr (Or.inl ⟨_, exec_migrationComplete _ _⟩)
  case rowSpare => exact Or.inr (Or.inl ⟨_, exec_rowSpare _ _ _ _⟩)
  case refreshDue => exact Or.inr (Or.inl ⟨_, exec_refreshDue _ _ _ _⟩)
  case owedRefreshIssue => exact Or.inr (Or.inl ⟨_, exec_owedRefreshIssue _ _ _⟩)
  case stackTempReading => exact Or.inr (Or.inl ⟨_, exec_stackTempReading _ _ _ _⟩)
  case rakeLease => exact Or.inr (Or.inl ⟨_, exec_rakeLease _ _ _ _⟩)
  case rakeLeaseRelease => exact Or.inr (Or.inl ⟨_, exec_rakeLeaseRelease _ _ _⟩)
  case rakePreempt => exact Or.inr (Or.inl ⟨_, exec_rakePreempt _ _ _⟩)
  case nearClearDone => exact Or.inr (Or.inl ⟨_, exec_nearClearDone _ _⟩)
  case deepClearDone => exact Or.inr (Or.inl ⟨_, exec_deepClearDone _ _⟩)
  case bar2Read => exact Or.inr (Or.inl ⟨_, exec_bar2Read _ _ _ _ _ _⟩)
  case bar2Write => exact Or.inr (Or.inl ⟨_, exec_bar2Write _ _ _ _⟩)
  case laneDownshift => exact Or.inr (Or.inl ⟨_, exec_laneDownshift _ _ _ _⟩)
  case descriptorTailWrite => exact Or.inl ⟨_, exec_descriptorTailWrite _ _ _ _ _⟩
  case descriptorFetch => exact Or.inr (Or.inl ⟨_, exec_descriptorFetch _ _ _ _⟩)
  case descriptorFetchError => exact Or.inr (Or.inl ⟨_, exec_descriptorFetchError _ _ _⟩)
  case copyDescriptor => exact Or.inr (Or.inl ⟨_, exec_copyDescriptor _ _ _⟩)
  case followBufferComplete => exact Or.inr (Or.inl ⟨_, exec_followBufferComplete _ _ _⟩)
  case followFlushTimeout => exact Or.inr (Or.inl ⟨_, exec_followFlushTimeout _ _ _⟩)
  case followOverrun => exact Or.inr (Or.inl ⟨_, exec_followOverrun _ _ _⟩)
  case ringDisable => exact Or.inl ⟨_, exec_ringDisable _ _ _ _ _⟩
  case cqHeadWrite => exact Or.inl ⟨_, exec_cqHeadWrite _ _ _ _ _⟩
  case cqModerationTimeout => exact Or.inr (Or.inl ⟨_, exec_cqModerationTimeout _ _ _⟩)
  case stationRead => exact Or.inr (Or.inr (Or.inl ⟨_, _, exec_stationRead _ _ _ _ _⟩))
  case stationWrite => exact Or.inr (Or.inr (Or.inl ⟨_, _, exec_stationWrite _ _ _ _ _ _⟩))
  case windowRead => exact Or.inr (Or.inl ⟨_, exec_windowRead _ _⟩)
  case windowWrite => exact Or.inr (Or.inl ⟨_, exec_windowWrite _ _⟩)
  case hostDoorbell => exact Or.inl ⟨_, exec_hostDoorbell _ _ _⟩
  case stationDoorbell => exact Or.inr (Or.inr (Or.inl ⟨_, _, exec_stationDoorbell _ _ _⟩))
  case trigFrame => exact Or.inr (Or.inl ⟨_, exec_trigFrame _ _ _ _ _ _ _ _ _⟩)
  case syncFrame => exact Or.inr (Or.inl ⟨_, exec_syncFrame _ _ _ _ _ _ _⟩)
  case syncSend => exact Or.inr (Or.inl ⟨_, exec_syncSend _ _ _⟩)
  case frameDiscard => exact Or.inr (Or.inl ⟨_, exec_frameDiscard _ _ _ _ _⟩)
  case portEnable => exact Or.inl ⟨_, exec_portEnable _ _ _ _ _⟩
  case linkTimeout => exact Or.inr (Or.inl ⟨_, exec_linkTimeout _ _ _⟩)
  case aonPowerUp => exact Or.inr (Or.inr (Or.inr ⟨_, _, rfl⟩))
  case wakeFromOff => exact Or.inl ⟨_, exec_wakeFromOff _ _⟩
  case imageCheck => exact Or.inr (Or.inl ⟨_, exec_imageCheck _ _ _⟩)
  case loadTimeout => exact Or.inr (Or.inl ⟨_, exec_loadTimeout _ _⟩)
  case write => exact Or.inr (Or.inl ⟨_, exec_write _ _⟩)
  case rmw => exact Or.inr (Or.inl ⟨_, exec_rmw _ _⟩)
  case poll => exact Or.inr (Or.inl ⟨_, exec_poll _ _⟩)
  case pollConditionMet => exact Or.inr (Or.inl ⟨_, exec_pollConditionMet _ _⟩)
  case pollTimeout => exact Or.inr (Or.inl ⟨_, exec_pollTimeout _ _⟩)
  case wait => exact Or.inr (Or.inl ⟨_, exec_wait _ _⟩)
  case waitExpiry => exact Or.inr (Or.inl ⟨_, exec_waitExpiry _ _⟩)
  case branchVariant => exact Or.inr (Or.inl ⟨_, exec_branchVariant _ _⟩)
  case branchStatus => exact Or.inr (Or.inl ⟨_, exec_branchStatus _ _⟩)
  case callEvent => exact Or.inr (Or.inl ⟨_, exec_callEvent _ _⟩)
  case endScript => exact Or.inr (Or.inl ⟨_, exec_endScript _ _⟩)
  case autoArm => exact Or.inr (Or.inl ⟨_, exec_autoArm _ _⟩)
  case eventScriptStart => exact Or.inr (Or.inl ⟨_, exec_eventScriptStart _ _⟩)
  case hksRun => exact Or.inl ⟨_, exec_hksRun _ _ _ _⟩
  case watchdogFeed => exact Or.inl ⟨_, exec_watchdogFeed _ _ _ _⟩
  case watchdogExpiry => exact Or.inr (Or.inl ⟨_, exec_watchdogExpiry _ _⟩)
  case nvRead => exact Or.inl ⟨_, exec_nvRead _ _ _ _⟩
  case nvProgram => exact Or.inl ⟨_, exec_nvProgram _ _ _ _⟩
  case nvErase4K => exact Or.inl ⟨_, exec_nvErase4K _ _ _ _⟩
  case nvErase64K => exact Or.inl ⟨_, exec_nvErase64K _ _ _ _⟩
  case nvDone => exact Or.inr (Or.inl ⟨_, exec_nvDone _ _⟩)
  case nvTimeout => exact Or.inr (Or.inl ⟨_, exec_nvTimeout _ _⟩)
  case latchWake => exact Or.inr (Or.inl ⟨_, exec_latchWake _ _⟩)
  case timerWake => exact Or.inr (Or.inl ⟨_, exec_timerWake _ _⟩)
  case hostWake => exact Or.inr (Or.inl ⟨_, exec_hostWake _ _ _⟩)
  case armOnWake => exact Or.inr (Or.inl ⟨_, exec_armOnWake _ _⟩)
  case feedLeavesRange => exact Or.inl ⟨_, exec_feedLeavesRange _ _ _ _ _⟩
  case feedSenseTest => exact Or.inl ⟨_, exec_feedSenseTest _ _ _ _ _⟩
  case feedGood => exact Or.inl ⟨_, exec_feedGood _ _ _ _⟩
  case revert => exact Or.inl ⟨_, exec_revert _ _⟩
  case hostFeedSwitch => exact Or.inl ⟨_, exec_hostFeedSwitch _ _ _ _⟩
  case rideThrough => exact Or.inl ⟨_, exec_rideThrough _ _ _⟩
  case orderlyLossSequence => exact Or.inr (Or.inl ⟨_, exec_orderlyLossSequence _ _⟩)
  case harvestCutoff => exact Or.inr (Or.inl ⟨_, exec_harvestCutoff _ _⟩)
  case railsOff => exact Or.inr (Or.inl ⟨_, exec_railsOff _ _⟩)
  case dumpEnd => exact Or.inl ⟨_, exec_dumpEnd _ _ _⟩
  case phaseFailure => exact Or.inl ⟨_, exec_phaseFailure _ _ _ _⟩
  case holdupTest => exact Or.inl ⟨_, exec_holdupTest _ _ _⟩
  case outputFault => exact Or.inr (Or.inl ⟨_, exec_outputFault _ _ _⟩)
  case outputFaultEnd => exact Or.inr (Or.inl ⟨_, exec_outputFaultEnd _ _ _⟩)
  case thermalReading => exact Or.inr (Or.inl ⟨_, exec_thermalReading _ _ _⟩)
  case thermalTrip => exact Or.inr (Or.inl ⟨_, exec_thermalTrip _ _ _ _⟩)
  case thermalRestart => exact Or.inl ⟨_, exec_thermalRestart _ _⟩
  case residueMismatch => exact Or.inr (Or.inl ⟨_, exec_residueMismatch _ _ _ _ _ _⟩)
  case laneFail => exact Or.inr (Or.inl ⟨_, exec_laneFail _ _ _⟩)
  case spareLaneMeasured => exact Or.inr (Or.inl ⟨_, exec_spareLaneMeasured _ _ _⟩)
  case spareLaneSwap => exact Or.inr (Or.inl ⟨_, exec_spareLaneSwap _ _ _⟩)
  case bbxFreeze => exact Or.inl ⟨_, exec_bbxFreeze _ _ _⟩
  case bbxUnfreeze => exact Or.inl ⟨_, exec_bbxUnfreeze _ _ _⟩
  case bbxClear => exact Or.inl ⟨_, exec_bbxClear _ _ _⟩
  case bbxPrep => exact Or.inl ⟨_, exec_bbxPrep _ _ _ _⟩
  case bbxRegionRead => exact Or.inr (Or.inl ⟨_, exec_bbxRegionRead _ _⟩)
  case bbxPrepDone => exact Or.inr (Or.inl ⟨_, exec_bbxPrepDone _ _ _⟩)
  case extest => exact Or.inr (Or.inl ⟨_, exec_extest _⟩)
  case idcode => exact Or.inr (Or.inl ⟨_, exec_idcode _⟩)
  case samplePreload => exact Or.inr (Or.inl ⟨_, exec_samplePreload _⟩)
  case clamp => exact Or.inr (Or.inl ⟨_, exec_clamp _⟩)
  case highz => exact Or.inr (Or.inl ⟨_, exec_highz _⟩)
  case extestPulse => exact Or.inr (Or.inl ⟨_, exec_extestPulse _⟩)
  case extestTrain => exact Or.inr (Or.inl ⟨_, exec_extestTrain _⟩)
  case bypass => exact Or.inr (Or.inl ⟨_, exec_bypass _⟩)
  case alwaysOnPowerLoss => exact Or.inl ⟨_, exec_alwaysOnPowerLoss _⟩
  case feedQual => exact Or.inl ⟨_, exec_feedQual _ _ _ _⟩
  case feedMargin => exact Or.inl ⟨_, exec_feedMargin _ _ _ _ _⟩
  case returnToD0 => exact Or.inr (Or.inl ⟨_, exec_returnToD0 _ _ _⟩)
  case linkRetrain => exact Or.inr (Or.inl ⟨_, exec_linkRetrain _ _ _ _⟩)
  case l1_2Entry => exact Or.inr (Or.inl ⟨_, exec_l1_2Entry _ _⟩)
  case pcieLinkUp => exact Or.inr (Or.inl ⟨_, exec_pcieLinkUp _ _ _ _⟩)

end Sys2Proof
end

