-- ==== Sys2Proof/Laws/State.lean ====
section
/-! SUPPORT. What each update of State leaves in each field, and the laws of register fields: reading after writing, and what
advancing the time, drawing a free value and adding to a counter do. -/

namespace Sys2Proof.Machine

/-! ### Association lists -/

theorem look_ins_same {α : Type} (l : List (Nat × α)) (k : Nat) (v : α) : look (ins l k v) k = some v := by
  induction l with
  | nil => simp [ins, look]
  | cons p r ih =>
    obtain ⟨a, w⟩ := p
    simp only [ins]
    split
    · simp [look]
    · split
      · simp [look]
      · rename_i h1 h2
        simp [look, ih, Ne.symm h2]

theorem look_ins_ne {α : Type} (l : List (Nat × α)) (k j : Nat) (v : α) (h : k ≠ j) : look (ins l k v) j = look l j := by
  induction l with
  | nil => simp [ins, look, h]
  | cons p r ih =>
    obtain ⟨a, w⟩ := p
    simp only [ins]
    split
    · simp [look, h]
    · split
      · rename_i h1 h2
        subst h2
        simp [look, h]
      · simp [look, ih]

theorem look_del_same {α : Type} (l : List (Nat × α)) (k : Nat) : look (del l k) k = none := by
  induction l with
  | nil => rfl
  | cons p r ih =>
    obtain ⟨a, w⟩ := p
    by_cases h : a = k
    · subst h; simpa [del] using ih
    · simpa [del, look, h] using ih

theorem look_del_ne {α : Type} (l : List (Nat × α)) (k j : Nat) (h : k ≠ j) : look (del l k) j = look l j := by
  induction l with
  | nil => rfl
  | cons p r ih =>
    obtain ⟨a, w⟩ := p
    by_cases h1 : a = k
    · subst h1; simpa [del, look, h] using ih
    · by_cases h2 : a = j
      · subst h2; simp [del, look, h1]
      · simpa [del, look, h1, h2] using ih

/-! ### Register fields -/

/-- A field reads what was stored in it, cut to its width. -/
@[simp] theorem State.rd_wr_same (s : State) (f : Fld) (v : Nat) : (s.wr f v).rd f = v % 2 ^ f.w := by
  unfold State.rd State.wr
  split
  · rename_i h; simp [look_del_same, h]
  · simp [look_ins_same]

/-- A write leaves every field of another key as it was. -/
theorem State.rd_wr_ne (s : State) (f g : Fld) (v : Nat) (h : f.key ≠ g.key) : (s.wr f v).rd g = s.rd g := by
  unfold State.rd State.wr
  split
  · simp [look_del_ne _ _ _ h]
  · simp [look_ins_ne _ _ _ _ h]

theorem State.bump_eq (s : State) (f : Fld) : s.bump f = s.wr f (s.rd f + 1) := rfl
theorem State.addF_eq (s : State) (f : Fld) (n : Nat) : s.addF f n = s.wr f (s.rd f + n) := rfl
theorem State.addSat_eq (s : State) (f : Fld) (n : Nat) : s.addSat f n = s.wr f (min (s.rd f + n) (2 ^ f.w - 1)) := rfl
theorem State.orF_eq (s : State) (f : Fld) (v : Nat) : s.orF f v = s.wr f (s.rd f ||| v) := rfl
theorem State.clrF_eq (s : State) (f : Fld) (v : Nat) : s.clrF f v = s.wr f (s.rd f &&& (v ^^^ (2 ^ f.w - 1))) := rfl
theorem State.wrS_eq (s : State) (f : Fld) (i : Int) : s.wrS f i = s.wr f (toU f.w i) := rfl

/-- A field reads the same in states with the same fields. -/
theorem State.rd_congr {s u : State} (h : u.fields = s.fields) (f : Fld) : u.rd f = s.rd f := by unfold State.rd; rw [h]

@[simp] theorem State.rd_advance (s : State) (t : Nat) (f : Fld) : (s.advance t).rd f = s.rd f := by
  unfold State.advance; split <;> rfl
@[simp] theorem State.rd_draw (s : State) (n : Nat) (f : Fld) : (s.draw n).2.rd f = s.rd f := rfl
@[simp] theorem State.draw_fst (s : State) (n : Nat) : (s.draw n).1 = s.free := rfl
@[simp] theorem State.draw_free (s : State) (n : Nat) : (s.draw n).2.free = s.free + n := rfl

/-- After advancing to `t`, the time is the later of the two. -/
@[simp] theorem State.advance_kt (s : State) (t : Nat) : (s.advance t).tmb.kt = max s.tmb.kt t := by
  unfold State.advance
  split
  · simp only; omega
  · omega

theorem State.advance_past (s : State) (t : Nat) (h : t ≤ s.tmb.kt) : s.advance t = s := by
  unfold State.advance; split
  · omega
  · rfl

/-! ### Fields left alone -/

@[simp] theorem State.wr_build (s : State) (f : Fld) (v : Nat) : (s.wr f v).build = s.build := rfl
@[simp] theorem State.wr_caps (s : State) (f : Fld) (v : Nat) : (s.wr f v).caps = s.caps := rfl
@[simp] theorem State.wr_held (s : State) (f : Fld) (v : Nat) : (s.wr f v).held = s.held := rfl
@[simp] theorem State.wr_free (s : State) (f : Fld) (v : Nat) : (s.wr f v).free = s.free := rfl
@[simp] theorem State.wr_grid (s : State) (f : Fld) (v : Nat) : (s.wr f v).grid = s.grid := rfl
@[simp] theorem State.wr_inp (s : State) (f : Fld) (v : Nat) : (s.wr f v).inp = s.inp := rfl
@[simp] theorem State.wr_tmb (s : State) (f : Fld) (v : Nat) : (s.wr f v).tmb = s.tmb := rfl
@[simp] theorem State.wr_dsk (s : State) (f : Fld) (v : Nat) : (s.wr f v).dsk = s.dsk := rfl
@[simp] theorem State.wr_task (s : State) (f : Fld) (v : Nat) : (s.wr f v).task = s.task := rfl
@[simp] theorem State.wr_clk (s : State) (f : Fld) (v : Nat) : (s.wr f v).clk = s.clk := rfl
@[simp] theorem State.wr_trl (s : State) (f : Fld) (v : Nat) : (s.wr f v).trl = s.trl := rfl
@[simp] theorem State.wr_acq (s : State) (f : Fld) (v : Nat) : (s.wr f v).acq = s.acq := rfl
@[simp] theorem State.wr_hdg (s : State) (f : Fld) (v : Nat) : (s.wr f v).hdg = s.hdg := rfl
@[simp] theorem State.wr_red (s : State) (f : Fld) (v : Nat) : (s.wr f v).red = s.red := rfl
@[simp] theorem State.wr_siv (s : State) (f : Fld) (v : Nat) : (s.wr f v).siv = s.siv := rfl
@[simp] theorem State.wr_tim (s : State) (f : Fld) (v : Nat) : (s.wr f v).tim = s.tim := rfl
@[simp] theorem State.wr_dmc (s : State) (f : Fld) (v : Nat) : (s.wr f v).dmc = s.dmc := rfl
@[simp] theorem State.wr_rak (s : State) (f : Fld) (v : Nat) : (s.wr f v).rak = s.rak := rfl
@[simp] theorem State.wr_hrv (s : State) (f : Fld) (v : Nat) : (s.wr f v).hrv = s.hrv := rfl
@[simp] theorem State.wr_stp (s : State) (f : Fld) (v : Nat) : (s.wr f v).stp = s.stp := rfl
@[simp] theorem State.wr_grf (s : State) (f : Fld) (v : Nat) : (s.wr f v).grf = s.grf := rfl
@[simp] theorem State.wr_hks (s : State) (f : Fld) (v : Nat) : (s.wr f v).hks = s.hks := rfl
@[simp] theorem State.wr_pwr (s : State) (f : Fld) (v : Nat) : (s.wr f v).pwr = s.pwr := rfl
@[simp] theorem State.wr_bbx (s : State) (f : Fld) (v : Nat) : (s.wr f v).bbx = s.bbx := rfl
@[simp] theorem State.wr_jtg (s : State) (f : Fld) (v : Nat) : (s.wr f v).jtg = s.jtg := rfl
@[simp] theorem State.wr_near (s : State) (f : Fld) (v : Nat) : (s.wr f v).near = s.near := rfl
@[simp] theorem State.wr_deep (s : State) (f : Fld) (v : Nat) : (s.wr f v).deep = s.deep := rfl
@[simp] theorem State.wr_scr (s : State) (f : Fld) (v : Nat) : (s.wr f v).scr = s.scr := rfl
@[simp] theorem State.wr_nv (s : State) (f : Fld) (v : Nat) : (s.wr f v).nv = s.nv := rfl
@[simp] theorem State.wr_poison (s : State) (f : Fld) (v : Nat) : (s.wr f v).poison = s.poison := rfl
@[simp] theorem State.wr_dpoison (s : State) (f : Fld) (v : Nat) : (s.wr f v).dpoison = s.dpoison := rfl
@[simp] theorem State.wr_cells (s : State) (f : Fld) (v : Nat) : (s.wr f v).cells = s.cells := rfl
@[simp] theorem State.wr_msxTab (s : State) (f : Fld) (v : Nat) : (s.wr f v).msxTab = s.msxTab := rfl
@[simp] theorem State.wr_msxPba (s : State) (f : Fld) (v : Nat) : (s.wr f v).msxPba = s.msxPba := rfl
@[simp] theorem State.wr_msix (s : State) (f : Fld) (v : Nat) : (s.wr f v).msix = s.msix := rfl
@[simp] theorem State.wr_irqSeen (s : State) (f : Fld) (v : Nat) : (s.wr f v).irqSeen = s.irqSeen := rfl
@[simp] theorem State.wr_pending (s : State) (f : Fld) (v : Nat) : (s.wr f v).pending = s.pending := rfl

@[simp] theorem State.advance_build (s : State) (t : Nat) : (s.advance t).build = s.build := by unfold State.advance; split <;> rfl
@[simp] theorem State.advance_fields (s : State) (t : Nat) : (s.advance t).fields = s.fields := by unfold State.advance; split <;> rfl
@[simp] theorem State.advance_caps (s : State) (t : Nat) : (s.advance t).caps = s.caps := by unfold State.advance; split <;> rfl
@[simp] theorem State.advance_held (s : State) (t : Nat) : (s.advance t).held = s.held := by unfold State.advance; split <;> rfl
@[simp] theorem State.advance_free (s : State) (t : Nat) : (s.advance t).free = s.free := by unfold State.advance; split <;> rfl
@[simp] theorem State.advance_grid (s : State) (t : Nat) : (s.advance t).grid = s.grid := by unfold State.advance; split <;> rfl
@[simp] theorem State.advance_inp (s : State) (t : Nat) : (s.advance t).inp = s.inp := by unfold State.advance; split <;> rfl
@[simp] theorem State.advance_dsk (s : State) (t : Nat) : (s.advance t).dsk = s.dsk := by unfold State.advance; split <;> rfl
@[simp] theorem State.advance_task (s : State) (t : Nat) : (s.advance t).task = s.task := by unfold State.advance; split <;> rfl
@[simp] theorem State.advance_clk (s : State) (t : Nat) : (s.advance t).clk = s.clk := by unfold State.advance; split <;> rfl
@[simp] theorem State.advance_trl (s : State) (t : Nat) : (s.advance t).trl = s.trl := by unfold State.advance; split <;> rfl
@[simp] theorem State.advance_acq (s : State) (t : Nat) : (s.advance t).acq = s.acq := by unfold State.advance; split <;> rfl
@[simp] theorem State.advance_hdg (s : State) (t : Nat) : (s.advance t).hdg = s.hdg := by unfold State.advance; split <;> rfl
@[simp] theorem State.advance_red (s : State) (t : Nat) : (s.advance t).red = s.red := by unfold State.advance; split <;> rfl
@[simp] theorem State.advance_siv (s : State) (t : Nat) : (s.advance t).siv = s.siv := by unfold State.advance; split <;> rfl
@[simp] theorem State.advance_tim (s : State) (t : Nat) : (s.advance t).tim = s.tim := by unfold State.advance; split <;> rfl
@[simp] theorem State.advance_dmc (s : State) (t : Nat) : (s.advance t).dmc = s.dmc := by unfold State.advance; split <;> rfl
@[simp] theorem State.advance_rak (s : State) (t : Nat) : (s.advance t).rak = s.rak := by unfold State.advance; split <;> rfl
@[simp] theorem State.advance_hrv (s : State) (t : Nat) : (s.advance t).hrv = s.hrv := by unfold State.advance; split <;> rfl
@[simp] theorem State.advance_stp (s : State) (t : Nat) : (s.advance t).stp = s.stp := by unfold State.advance; split <;> rfl
@[simp] theorem State.advance_grf (s : State) (t : Nat) : (s.advance t).grf = s.grf := by unfold State.advance; split <;> rfl
@[simp] theorem State.advance_hks (s : State) (t : Nat) : (s.advance t).hks = s.hks := by unfold State.advance; split <;> rfl
@[simp] theorem State.advance_pwr (s : State) (t : Nat) : (s.advance t).pwr = s.pwr := by unfold State.advance; split <;> rfl
@[simp] theorem State.advance_bbx (s : State) (t : Nat) : (s.advance t).bbx = s.bbx := by unfold State.advance; split <;> rfl
@[simp] theorem State.advance_jtg (s : State) (t : Nat) : (s.advance t).jtg = s.jtg := by unfold State.advance; split <;> rfl
@[simp] theorem State.advance_near (s : State) (t : Nat) : (s.advance t).near = s.near := by unfold State.advance; split <;> rfl
@[simp] theorem State.advance_deep (s : State) (t : Nat) : (s.advance t).deep = s.deep := by unfold State.advance; split <;> rfl
@[simp] theorem State.advance_scr (s : State) (t : Nat) : (s.advance t).scr = s.scr := by unfold State.advance; split <;> rfl
@[simp] theorem State.advance_nv (s : State) (t : Nat) : (s.advance t).nv = s.nv := by unfold State.advance; split <;> rfl
@[simp] theorem State.advance_poison (s : State) (t : Nat) : (s.advance t).poison = s.poison := by unfold State.advance; split <;> rfl
@[simp] theorem State.advance_dpoison (s : State) (t : Nat) : (s.advance t).dpoison = s.dpoison := by unfold State.advance; split <;> rfl
@[simp] theorem State.advance_cells (s : State) (t : Nat) : (s.advance t).cells = s.cells := by unfold State.advance; split <;> rfl
@[simp] theorem State.advance_msxTab (s : State) (t : Nat) : (s.advance t).msxTab = s.msxTab := by unfold State.advance; split <;> rfl
@[simp] theorem State.advance_msxPba (s : State) (t : Nat) : (s.advance t).msxPba = s.msxPba := by unfold State.advance; split <;> rfl
@[simp] theorem State.advance_msix (s : State) (t : Nat) : (s.advance t).msix = s.msix := by unfold State.advance; split <;> rfl
@[simp] theorem State.advance_irqSeen (s : State) (t : Nat) : (s.advance t).irqSeen = s.irqSeen := by unfold State.advance; split <;> rfl
@[simp] theorem State.advance_pending (s : State) (t : Nat) : (s.advance t).pending = s.pending := by unfold State.advance; split <;> rfl

@[simp] theorem State.draw_build (s : State) (n : Nat) : (s.draw n).2.build = s.build := rfl
@[simp] theorem State.draw_fields (s : State) (n : Nat) : (s.draw n).2.fields = s.fields := rfl
@[simp] theorem State.draw_caps (s : State) (n : Nat) : (s.draw n).2.caps = s.caps := rfl
@[simp] theorem State.draw_held (s : State) (n : Nat) : (s.draw n).2.held = s.held := rfl
@[simp] theorem State.draw_grid (s : State) (n : Nat) : (s.draw n).2.grid = s.grid := rfl
@[simp] theorem State.draw_inp (s : State) (n : Nat) : (s.draw n).2.inp = s.inp := rfl
@[simp] theorem State.draw_tmb (s : State) (n : Nat) : (s.draw n).2.tmb = s.tmb := rfl
@[simp] theorem State.draw_dsk (s : State) (n : Nat) : (s.draw n).2.dsk = s.dsk := rfl
@[simp] theorem State.draw_task (s : State) (n : Nat) : (s.draw n).2.task = s.task := rfl
@[simp] theorem State.draw_clk (s : State) (n : Nat) : (s.draw n).2.clk = s.clk := rfl
@[simp] theorem State.draw_trl (s : State) (n : Nat) : (s.draw n).2.trl = s.trl := rfl
@[simp] theorem State.draw_acq (s : State) (n : Nat) : (s.draw n).2.acq = s.acq := rfl
@[simp] theorem State.draw_hdg (s : State) (n : Nat) : (s.draw n).2.hdg = s.hdg := rfl
@[simp] theorem State.draw_red (s : State) (n : Nat) : (s.draw n).2.red = s.red := rfl
@[simp] theorem State.draw_siv (s : State) (n : Nat) : (s.draw n).2.siv = s.siv := rfl
@[simp] theorem State.draw_tim (s : State) (n : Nat) : (s.draw n).2.tim = s.tim := rfl
@[simp] theorem State.draw_dmc (s : State) (n : Nat) : (s.draw n).2.dmc = s.dmc := rfl
@[simp] theorem State.draw_rak (s : State) (n : Nat) : (s.draw n).2.rak = s.rak := rfl
@[simp] theorem State.draw_hrv (s : State) (n : Nat) : (s.draw n).2.hrv = s.hrv := rfl
@[simp] theorem State.draw_stp (s : State) (n : Nat) : (s.draw n).2.stp = s.stp := rfl
@[simp] theorem State.draw_grf (s : State) (n : Nat) : (s.draw n).2.grf = s.grf := rfl
@[simp] theorem State.draw_hks (s : State) (n : Nat) : (s.draw n).2.hks = s.hks := rfl
@[simp] theorem State.draw_pwr (s : State) (n : Nat) : (s.draw n).2.pwr = s.pwr := rfl
@[simp] theorem State.draw_bbx (s : State) (n : Nat) : (s.draw n).2.bbx = s.bbx := rfl
@[simp] theorem State.draw_jtg (s : State) (n : Nat) : (s.draw n).2.jtg = s.jtg := rfl
@[simp] theorem State.draw_near (s : State) (n : Nat) : (s.draw n).2.near = s.near := rfl
@[simp] theorem State.draw_deep (s : State) (n : Nat) : (s.draw n).2.deep = s.deep := rfl
@[simp] theorem State.draw_scr (s : State) (n : Nat) : (s.draw n).2.scr = s.scr := rfl
@[simp] theorem State.draw_nv (s : State) (n : Nat) : (s.draw n).2.nv = s.nv := rfl
@[simp] theorem State.draw_poison (s : State) (n : Nat) : (s.draw n).2.poison = s.poison := rfl
@[simp] theorem State.draw_dpoison (s : State) (n : Nat) : (s.draw n).2.dpoison = s.dpoison := rfl
@[simp] theorem State.draw_cells (s : State) (n : Nat) : (s.draw n).2.cells = s.cells := rfl
@[simp] theorem State.draw_msxTab (s : State) (n : Nat) : (s.draw n).2.msxTab = s.msxTab := rfl
@[simp] theorem State.draw_msxPba (s : State) (n : Nat) : (s.draw n).2.msxPba = s.msxPba := rfl
@[simp] theorem State.draw_msix (s : State) (n : Nat) : (s.draw n).2.msix = s.msix := rfl
@[simp] theorem State.draw_irqSeen (s : State) (n : Nat) : (s.draw n).2.irqSeen = s.irqSeen := rfl
@[simp] theorem State.draw_pending (s : State) (n : Nat) : (s.draw n).2.pending = s.pending := rfl

end Sys2Proof.Machine
end

