-- ==== Sys2Proof/Laws/Follow.lean ====
section
/-! SUPPORT. What follows a command: nothing in a calm machine, and the two ways a meaning answers. -/

namespace Sys2Proof

open Machine

/-! ### Fields after writes -/

/-- A flag after a write to its field. -/
theorem Machine.State.on_wr_same (s : State) (f : Fld) (v : Nat) : (s.wr f v).on f = decide (v % 2 ^ f.w = 1) := by
  unfold State.on; rw [State.rd_wr_same]

/-- A write leaves every register but its own. -/
theorem SameRegs.wr {s u : State} {l : List Fld} (h : SameRegs s u l) (f : Fld) (v : Nat) (hf : f.key ∈ l.map Fld.key) :
    SameRegs s (u.wr f v) l := fun g hg => by
  rw [State.rd_wr_ne u f g v (fun e => hg (e ▸ hf))]; exact h g hg

theorem SameRegs.refl (s : State) (l : List Fld) : SameRegs s s l := fun _ _ => rfl

theorem SameRegs.of_fields {s u v : State} {l : List Fld} (h : SameRegs s u l) (e : v.fields = u.fields) : SameRegs s v l :=
  fun g hg => by rw [State.rd_congr e]; exact h g hg

theorem SameRegs.advance (s : State) (t : Nat) (l : List Fld) : SameRegs s (s.advance t) l := fun g _ => by simp

/-! ### All but the registers -/

theorem SameRest.refl (s : State) : SameRest s s := by cases s; rfl

theorem SameRest.wr {s u : State} (h : SameRest s u) (f : Fld) (v : Nat) : SameRest s (u.wr f v) := h

theorem SameRest.advance (s : State) (t : Nat) : SameRest s (s.advance t) := by
  unfold State.advance
  split
  · cases s; rfl
  · exact SameRest.refl s

theorem TimeAt.advance (s : State) (t : Nat) : TimeAt s (s.advance t) t := State.advance_kt s t

/-! ### A calm machine -/

theorem irqSync_quiet (s : State) (hb : s.hrv.bme = false) (hi : s.irqSeen = []) : s.irqSync = s := by
  have step : ∀ i, s.irqStep i = s := fun i => by
    have hm : s.msgOn = false := by simp [State.msgOn, hb]
    simp [State.irqStep, hi, look, hm]
  have all : ∀ l : List Nat, l.foldl State.irqStep s = s := fun l => by
    induction l with
    | nil => rfl
    | cons a r ih => rw [List.foldl_cons, step a]; exact ih
  have hm : s.msgOn = false := by simp [State.msgOn, hb]
  rw [State.irqSync, all]
  simp [State.pbaSync, hm]

/-- A REF_OUT that is right already stays. -/
theorem refOutSync_same (s : State) (h : s.tmb.refOut = s.refOutNow) : s.refOutSync = s := by
  rw [State.refOutSync, ← h]

/-- A probe check between two slots waits. -/
theorem pchkSlot_between (s : State) (t : Nat) (h : SlotFree s) : State.pchkSlot t s = s := by
  unfold State.pchkSlot
  split
  · next c e => rw [h c e]
  · rfl

/-- A command that comes while no slot is under way finds the machine as it is. -/
theorem reached_free (s : State) (t : Nat) (h : SlotFree s) : s.reached t = s := pchkSlot_between s _ h

/-- Nothing happens by itself in a machine whose acquisition is idle. -/
theorem selfSync_calm (s : State) (ha : s.acqSt = 0) (hr : s.tmb.refOut = s.refOutNow) (hx : (s.on CLK_STAT_s_src_act && s.grid.run) = false) : s.selfSync = s := by
  have hi : s.idle = true := by simp [State.idle, ha]
  rw [State.selfSync, refOutSync_same s hr]
  simp [State.extTrack, hx, State.keepUp, hi]

/-- Nothing follows a command that leaves the machine calm and does not end a capture. -/
theorem settle_calm (old u : State) (h : Calm u) (hi : old.acqSt = 0) : State.settle old u = u := by
  obtain ⟨h1, h2, h3, h4, h5, h6, h7, h8, h9, h10, h11, h12, h13, h14, h15, h16, h18, h19⟩ := h
  have e0 : u.selfSync = u := selfSync_calm u h15 h18 h19
  have e1 : u.wakeSync = u := by simp [State.wakeSync, h1]
  have e2 : u.bootSync = u := by simp [State.bootSync, h2, h3]
  have e3 : u.hostSync = u := by simp [State.hostSync, h4]
  have e4 : u.heldSync = u := by simp [State.heldSync, h5]
  have em : u.memSync = u := by simp [State.memSync, h16]
  have e5 : u.seqSync = u := by simp [State.seqSync, h6, h7]
  have e6 : State.armSync old u = u := if_neg fun x => by simp [h15] at x
  have e7 : State.idleSync old u = u := if_neg fun x => x.1 hi
  have e8 : u.hopSync = u := by simp [State.hopSync, h8, h9]
  have e9 : u.hrvSync = u := by simp [State.hrvSync, h10]
  have e10 : u.startEntry = u := by simp [State.startEntry, State.changeDue, State.returnDue, State.on, h11, h12]
  simp only [State.settle, e0, e1, e2, e3, e4, em, e5, e6, e7, e8, e9, e10, irqSync_quiet u h13 h14]

/-! ### Operations that find nothing to do -/

/-- With acquisition idle, catching up is letting the time pass. -/
theorem upTo_idle (t : Nat) (s : State) (h : s.acqSt = 0) : State.upTo t s = s.advance t := by
  have e : (s.advance t).idle = true := by
    have : s.rd ACQ_STAT_state = 0 := h
    simp [State.idle, State.acqSt, this]
  simp [State.upTo, e]

/-- Without failing cells, reading a memory counts nothing. -/
theorem cellRead_clean (s : State) (target a n : Nat) (h : s.cells = []) : s.cellRead target a n = s := by
  simp [State.cellRead, h]

/-- An access that meets no error leaves everything. -/
theorem bar2Errors_clean (s : State) (a len : Nat) (h : s.cells = []) : State.bar2Errors a len [] [] s = s := by
  simp [State.bar2Errors, cellRead_clean s _ _ _ h]

/-- Fetching an operation whose words no lease holds and no error touches leaves everything. -/
theorem fetched_clean (s : State) (k : Script) (hc : s.cells = []) (hl : s.rak.leases = []) : s.fetched k = s := by
  simp [State.fetched, hl, cellRead_clean s _ _ _ hc]

/-! ### The two ways a meaning answers -/

theorem performOn_next (f : State → State) (s : State) (h : Powered s) :
    State.performOn f s = .next (State.settle s (f s)) := by simp [State.performOn, h.1, h.2]

theorem perform_next (f : State → State) (s : State) (h : s.pwr.dead = false) :
    State.perform f s = .next (State.settle s (f s)) := by simp [State.perform, h]

theorem perform_dead (f : State → State) (s : State) (h : s.pwr.dead = true) : State.perform f s = .next s := by
  simp [State.perform, h]

theorem performOn_off (f : State → State) (s : State) (h : s.pwr.dead = true ∨ s.hks.rails = false) :
    State.performOn f s = .next s := by simp [State.performOn, h]

/-- An access that reaches its register is performed at once. -/
theorem portWrite_reaches (p : Port) (a be v : Nat) (s : State) (h : Reaches p a s) :
    State.portWrite p a be v s = State.barWrite p a be v (s.usedBy p) := by
  obtain ⟨_, hc, hp⟩ := h
  have hm : s.mode ≠ 0 := by
    intro e
    simp [State.coreRun, e] at hc
  cases p with
  | host => simp [State.portWrite, State.usedBy, hm, hc, hp.1, hp.2]
  | station => simp only at hp; simp [State.portWrite, State.usedBy, hc, hp]
  | script =>
    simp only at hp
    simp [State.portWrite, State.usedBy, hp, State.scriptReach, hc]

end Sys2Proof
end

