-- ==== Sys2Proof/Laws/Memory.lean ====
section
/-! SUPPORT. The laws of memory: every write keeps the canonical form, a byte written reads back, and every other byte reads
as before. -/

namespace Sys2Proof.Machine

/-! ### The canonical form -/

/-- Cells strictly rising. -/
theorem Mem.wf_iff (m : Mem) :
    m.wf = true ↔ m.cells.Pairwise (fun x y => x.1 < y.1) ∧ ∀ c ∈ m.cells, c.2 ≠ 0 ∨ m.open_ c.1 = true := by
  simp [Mem.wf]

theorem newCells_range (k : Nat → Bool) (bs : List Byte) (a : Nat) :
    ∀ c ∈ newCells k a bs, a ≤ c.1 ∧ c.1 < a + bs.length := by
  induction bs generalizing a with
  | nil => simp [newCells]
  | cons b r ih =>
    intro c hc
    simp only [newCells] at hc
    have key : c ∈ newCells k (a + 1) r → a ≤ c.1 ∧ c.1 < a + (b :: r).length := fun h => by
      have := ih (a + 1) c h
      simp only [List.length_cons]
      omega
    split at hc
    · exact key hc
    · rcases List.mem_cons.1 hc with rfl | h
      · simp only [List.length_cons]; omega
      · exact key h

theorem newCells_rising (k : Nat → Bool) (bs : List Byte) (a : Nat) :
    (newCells k a bs).Pairwise (fun x y => x.1 < y.1) := by
  induction bs generalizing a with
  | nil => simp [newCells]
  | cons b r ih =>
    simp only [newCells]
    split
    · exact ih (a + 1)
    · refine List.pairwise_cons.2 ⟨fun c hc => ?_, ih (a + 1)⟩
      have := newCells_range k r (a + 1) c hc
      omega

theorem newCells_nonzero (k : Nat → Bool) (bs : List Byte) (a : Nat) : ∀ c ∈ newCells k a bs, c.2 ≠ 0 ∨ k c.1 = true := by
  induction bs generalizing a with
  | nil => simp [newCells]
  | cons b r ih =>
    intro c hc
    simp only [newCells] at hc
    split at hc
    · exact ih (a + 1) c hc
    · rename_i h
      rcases List.mem_cons.1 hc with rfl | h'
      · by_cases hb : b = 0
        · exact .inr (by simpa [hb] using h)
        · exact .inl hb
      · exact ih (a + 1) c h'

/-- Writing keeps the canonical form. -/
theorem Mem.write_wf (m : Mem) (a : Nat) (bs : List Byte) (h : m.wf = true) : (m.write a bs).wf = true := by
  rw [Mem.wf_iff] at h ⊢
  obtain ⟨hp, hz⟩ := h
  refine ⟨?_, ?_⟩
  · simp only [Mem.write, List.pairwise_append]
    refine ⟨⟨hp.filter _, newCells_rising _ _ _, fun x hx y hy => ?_⟩, hp.filter _, fun x hx y hy => ?_⟩
    · have h1 := (List.mem_filter.1 hx).2
      have h2 := newCells_range _ _ _ y hy
      simp only [decide_eq_true_eq] at h1
      omega
    · have h2 := (List.mem_filter.1 hy).2
      simp only [decide_eq_true_eq] at h2
      rcases List.mem_append.1 hx with hx | hx
      · have h1 := (List.mem_filter.1 hx).2
        simp only [decide_eq_true_eq] at h1
        omega
      · have h1 := newCells_range _ _ _ x hx
        omega
  · intro c hc
    have ho : (m.write a bs).open_ = m.open_ := rfl
    rw [ho]
    simp only [Mem.write, List.mem_append] at hc
    rcases hc with (hc | hc) | hc
    · exact hz c (List.mem_filter.1 hc).1
    · exact newCells_nonzero _ _ _ c hc
    · exact hz c (List.mem_filter.1 hc).1

/-- The words of a fill only grow with its end. -/
theorem Fill.has_mono {f g : Fill} (h0 : g.t0 = f.t0) (hn : g.n = f.n) (hl : g.lo = f.lo) (hh : g.hi ≤ f.hi) {a : Nat}
    (h : g.has a = true) : f.has a = true := by
  simp only [Fill.has, h0, hn, hl, Bool.and_eq_true, decide_eq_true_eq] at h ⊢
  exact ⟨h.1, lt_of_lt_of_le h.2 (Nat.sub_le_sub_right hh _)⟩

/-- A fill opens its own words and closes none. -/
theorem Mem.fill_open (m : Mem) (f : Fill) (k a : Nat) (h : m.open_ a = true) : (m.fill f k).open_ a = true := by
  simp only [Mem.open_, Mem.fill, Bool.or_eq_true, List.any_eq_true, List.any_cons, List.mem_filter] at h ⊢
  rcases h with h | ⟨g, hg, hga⟩
  · exact .inl h
  · by_cases hc : g.t0 = f.t0 ∧ g.n = f.n ∧ g.lo = f.lo ∧ g.hi ≤ f.hi
    · exact .inr (.inl (Fill.has_mono hc.1 hc.2.1 hc.2.2.1 hc.2.2.2 hga))
    · exact .inr (.inr ⟨g, ⟨hg, by simp; omega⟩, hga⟩)

/-- A fill keeps the canonical form. -/
theorem Mem.fill_wf (m : Mem) (f : Fill) (k : Nat) (h : m.wf = true) : (m.fill f k).wf = true := by
  rw [Mem.wf_iff] at h ⊢
  refine ⟨h.1.filter _, fun c hc => ?_⟩
  rcases h.2 c (List.mem_filter.1 hc).1 with h | h
  · exact .inl h
  · exact .inr (Mem.fill_open m f k c.1 h)

/-- Cells left out keep the canonical form. -/
theorem Mem.filter_wf (m : Mem) (p : Host.Cell → Bool) (h : m.wf = true) : ({ m with cells := m.cells.filter p } : Mem).wf = true := by
  rw [Mem.wf_iff] at h ⊢
  exact ⟨h.1.filter _, fun c hc => h.2 c (List.mem_filter.1 hc).1⟩

/-- Storing zeros keeps the canonical form. -/
theorem Mem.zeros_wf (m : Mem) (a n : Nat) (h : m.wf = true) : (m.zeros a n).wf = true := by
  unfold Mem.zeros
  split
  · exact m.filter_wf _ h
  · exact m.write_wf a _ h

/-- A write through byte enables keeps the canonical form. -/
theorem putBytes_wf (a be v : Nat) (m : Mem) (h : m.wf = true) : (putBytes a be v m).wf = true := by
  unfold putBytes
  generalize List.range 4 = l
  induction l generalizing m with
  | nil => exact h
  | cons i r ih =>
    rw [List.foldl_cons]
    refine ih _ ?_
    split
    · exact Mem.write_wf _ _ _ h
    · exact h

/-- Every memory of State.reset has the canonical form. -/
theorem reset_mem_wf :
    State.reset.near.wf = true ∧ State.reset.deep.wf = true ∧ State.reset.scr.wf = true ∧ State.reset.nv.wf = true := by
  decide

/-! ### Reading after writing -/

theorem cellAt_append (l r : List Host.Cell) (a : Nat) : cellAt (l ++ r) a = (cellAt l a).or (cellAt r a) := by
  induction l with
  | nil => simp [cellAt]
  | cons c t ih =>
    obtain ⟨k, b⟩ := c
    simp only [List.cons_append, cellAt]
    split
    · simp
    · exact ih

theorem cellAt_filter_out (l : List Host.Cell) (p : Host.Cell → Bool) (a : Nat) (h : ∀ b, p (a, b) = false) :
    cellAt (l.filter p) a = none := by
  induction l with
  | nil => rfl
  | cons c t ih =>
    obtain ⟨k, b⟩ := c
    by_cases hp : p (k, b) = true
    · rw [List.filter_cons_of_pos hp, cellAt, if_neg, ih]
      rintro rfl
      simp [h b] at hp
    · rw [List.filter_cons_of_neg hp, ih]

theorem cellAt_filter_in (l : List Host.Cell) (p : Host.Cell → Bool) (a : Nat) (h : ∀ b, p (a, b) = true) :
    cellAt (l.filter p) a = cellAt l a := by
  induction l with
  | nil => rfl
  | cons c t ih =>
    obtain ⟨k, b⟩ := c
    by_cases hp : p (k, b) = true
    · rw [List.filter_cons_of_pos hp, cellAt, cellAt, ih]
    · rw [List.filter_cons_of_neg hp, ih, cellAt, if_neg]
      rintro rfl
      exact hp (h b)

theorem cellAt_newCells (k : Nat → Bool) (bs : List Byte) (a x : Nat) :
    cellAt (newCells k a bs) x =
      if a ≤ x ∧ x < a + bs.length then
        (if bs.getD (x - a) 0 = 0 ∧ k x = false then none else some (bs.getD (x - a) 0)) else none := by
  induction bs generalizing a with
  | nil => simp [newCells, cellAt]
  | cons b r ih =>
    have hlen : (b :: r).length = r.length + 1 := rfl
    by_cases hx : x = a
    · subst hx
      have hout : cellAt (newCells k (x + 1) r) x = none := by rw [ih, if_neg]; omega
      simp only [newCells]
      split
      · rename_i h; rw [hout]; simp [h.1, h.2]
      · rename_i h
        have h' : ¬(b = 0#8 ∧ k x = false) := h
        simp [cellAt, h']
    · have e : cellAt (newCells k a (b :: r)) x = cellAt (newCells k (a + 1) r) x := by
        simp only [newCells]
        split
        · rfl
        · rw [cellAt, if_neg (Ne.symm hx)]
      rw [e, ih, hlen]
      by_cases h1 : a + 1 ≤ x ∧ x < a + 1 + r.length
      · have h2 : a ≤ x ∧ x < a + (r.length + 1) := by omega
        have h3 : x - a = (x - (a + 1)) + 1 := by omega
        rw [if_pos h1, if_pos h2, h3, List.getD_cons_succ]
      · have h2 : ¬(a ≤ x ∧ x < a + (r.length + 1)) := by omega
        rw [if_neg h1, if_neg h2]

/-- Reading after writing: the bytes written, and every other byte as before. -/
theorem Mem.read_write (m : Mem) (a : Nat) (bs : List Byte) (x : Nat) :
    (m.write a bs).read x = if a ≤ x ∧ x < a + bs.length then bs.getD (x - a) 0 else m.read x := by
  simp only [Mem.read, Mem.write, cellAt_append, cellAt_newCells]
  by_cases h : a ≤ x ∧ x < a + bs.length
  · rw [cellAt_filter_out _ _ _ (fun b => by simp; omega), cellAt_filter_out _ _ _ (fun b => by simp; omega)]
    simp only [h, and_self, if_true, Option.or_none, Option.none_or]
    generalize bs.getD (x - a) 0 = y
    by_cases hc : y = 0#8 ∧ m.open_ x = false
    · obtain ⟨rfl, ho'⟩ := hc
      have ho := ho'
      simp only [Mem.open_, Bool.or_eq_false_iff, Option.isSome_eq_false_iff, Option.isNone_iff_eq_none, List.any_eq_false] at ho
      have hf : m.fills.find? (fun f => f.has x) = none := List.find?_eq_none.2 ho.2
      simp [ho', hf, ho.1]
    · simp [hc]
  · simp only [h, if_false, Option.or_none]
    by_cases hlt : x < a
    · rw [cellAt_filter_in _ _ _ (fun b => by simpa using hlt), cellAt_filter_out _ _ _ (fun b => by simp; omega)]
      simp
    · rw [cellAt_filter_out _ _ _ (fun b => by simp; omega), cellAt_filter_in _ _ _ (fun b => by simp; omega)]
      simp

/-- Reading after storing zeros. -/
theorem Mem.read_zeros (m : Mem) (a n x : Nat) : (m.zeros a n).read x = if a ≤ x ∧ x < a + n then 0 else m.read x := by
  unfold Mem.zeros
  split
  · rename_i h
    obtain ⟨hd, hf⟩ : m.dflt = none ∧ m.fills = [] := by simpa using h
    by_cases hx : a ≤ x ∧ x < a + n
    · rw [if_pos hx, Mem.read, cellAt_filter_out _ _ _ (fun b => by simp; omega)]
      simp [hd, hf]
    · rw [if_neg hx, Mem.read, Mem.read, cellAt_filter_in _ _ _ (fun b => by simp; omega)]
  · rw [Mem.read_write]
    simp only [List.length_replicate]
    split
    · simp [List.getD_eq_getElem?_getD, List.getElem?_replicate]; split <;> rfl
    · rfl

/-- The words of a ring that its writer has filled, at their places in its tiles (R273). -/
theorem Fill.has_ringAddr (f : Fill) (i : Nat) (hn : 0 < f.n) (hi : f.lo ≤ i ∧ i < f.hi) (hs : f.hi - f.lo ≤ f.n * tileWords) :
    f.has (ringAddr f.t0 f.n i) = true := by
  have ht : tileWords = 2 ^ 18 := rfl
  have hw : i / f.n % tileWords * 64 < 2 ^ 24 := by
    have := Nat.mod_lt (i / f.n) (show 0 < tileWords by simp [ht])
    omega
  have h1 : ringAddr f.t0 f.n i / 2 ^ 24 = f.t0 + i % f.n := by unfold ringAddr; omega
  have h2 : ringAddr f.t0 f.n i % 2 ^ 24 / 64 = i / f.n % tileWords := by unfold ringAddr; omega
  have hm : i % f.n < f.n := Nat.mod_lt _ hn
  have h3 : i / f.n % tileWords * f.n + (f.t0 + i % f.n - f.t0) = i % (f.n * tileWords) := by
    rw [Nat.mod_mul, Nat.mul_comm, Nat.add_sub_cancel_left, Nat.add_comm]
  have hpos : 0 < f.n * tileWords := Nat.mul_pos hn (by simp [ht])
  have h4 : (i % (f.n * tileWords) + f.n * tileWords - f.lo % (f.n * tileWords)) % (f.n * tileWords) = i - f.lo := by
    have hl := Nat.mod_lt f.lo hpos
    have e : i % (f.n * tileWords) + f.n * tileWords - f.lo % (f.n * tileWords)
        = i % (f.n * tileWords) + (f.n * tileWords - f.lo % (f.n * tileWords)) := by omega
    rw [e, Nat.mod_add_mod]
    have hdl := Nat.div_add_mod f.lo (f.n * tileWords)
    have e2 : i + (f.n * tileWords - f.lo % (f.n * tileWords)) = (i - f.lo) + f.n * tileWords * (f.lo / (f.n * tileWords) + 1) := by
      rw [Nat.mul_add]; omega
    rw [e2, Nat.add_mul_mod_self_left]
    exact Nat.mod_eq_of_lt (by omega)
  unfold Fill.has
  simp only [h1, h2, h3, h4, Bool.and_eq_true, decide_eq_true_eq]
  omega

end Sys2Proof.Machine
end

