-- ==== Sys2Proof/Laws/Writes.lean ====
section
/-! SUPPORT. Register writes: what a write of a whole word does to a field, to a register, and through a port. -/

namespace Sys2Proof

open Machine

/-- The enables of a whole word. -/
theorem byteMask_all : byteMask 15 = 0xFFFFFFFF := by decide

/-- What a write of a whole word does to a field, by its access code (R6). -/
theorem storeFld_word (v : Nat) (s : State) (f : Fld) (hm : f.of 0xFFFFFFFF = 2 ^ f.w - 1) (hw : f.w ≠ 0) :
    State.storeFld 0xFFFFFFFF v s f = match f.acc with
      | .rw => s.wr f (f.clamp (f.of v))
      | .w1c => s.clrF f (f.of v)
      | .w1s => s.orF f (f.of v)
      | .ro | .wo => s := by
  have h0 : (2 : Nat) ^ f.w - 1 ≠ 0 := by
    have : 2 ≤ 2 ^ f.w := by
      calc 2 = 2 ^ 1 := rfl
        _ ≤ 2 ^ f.w := Nat.pow_le_pow_right (by decide) (by omega)
    omega
  have hd : f.of v &&& (2 ^ f.w - 1) = f.of v := by
    rw [Nat.and_two_pow_sub_one_eq_mod, Nat.mod_eq_of_lt]
    exact Nat.mod_lt _ (Nat.two_pow_pos _)
  unfold State.storeFld
  simp only [hm, h0, if_false, hd]
  cases f.acc <;> simp

/-- A write of a whole word to a register that its block accepts. -/
theorem writeReg_word (p : Port) (a v : Nat) (s : State) (hv : v < 2 ^ 32) (hc : s.closed a = false) (hi : s.ignored a = false) :
    State.writeReg p a 15 v s = State.reSignal a (State.effect p a v 0xFFFFFFFF s (State.storeReg 0xFFFFFFFF v a s)) := by
  have e : v &&& 0xFFFFFFFF = v := by
    rw [show (0xFFFFFFFF : Nat) = 2 ^ 32 - 1 from rfl, Nat.and_two_pow_sub_one_eq_mod, Nat.mod_eq_of_lt hv]
  simp [State.writeReg, hc, hi, byteMask_all, e]

/-- A request through a port changes no register, and closes none. -/
theorem usedBy_fields (p : Port) (s : State) : (s.usedBy p).fields = s.fields := by unfold State.usedBy; split <;> rfl

theorem closed_used (p : Port) (s : State) (a : Nat) : (s.usedBy p).closed a = s.closed a := by unfold State.usedBy; split <;> rfl

theorem ignored_used (p : Port) (s : State) (a : Nat) : (s.usedBy p).ignored a = s.ignored a := by unfold State.usedBy; split <;> rfl

/-- A write of a whole word through a port that reaches the register. -/
theorem portWrite_word (p : Port) (a v : Nat) (s : State) (h : Reaches p a s) (hv : v < 2 ^ 32) (ha : a < 0x140000)
    (h4 : a % 4 = 0) (hc : s.closed a = false) (hi : s.ignored a = false) :
    State.portWrite p a 15 v s
      = State.reSignal a (State.effect p a v 0xFFFFFFFF (s.usedBy p) (State.storeReg 0xFFFFFFFF v a (s.usedBy p))) := by
  rw [portWrite_reaches p a 15 _ s h]
  have e : a % 2 ^ 26 / 4 * 4 = a := by omega
  unfold State.barWrite
  simp only [e, ha, if_true]
  exact writeReg_word p a v _ hv ((closed_used p s a).trans hc) ((ignored_used p s a).trans hi)

/-- The same for a block that refuses writes or ignores this one: only the block's own flag of it may be set. -/
theorem portWrite_closed (p : Port) (a v : Nat) (s : State) (h : Reaches p a s) (ha : a < 0x140000) (h4 : a % 4 = 0)
    (hc : s.closed a = true) :
    State.portWrite p a 15 v s = if a / 0x10000 = 5 then (s.usedBy p).wr TRL_STAT_wr_ign 1
      else if a / 0x10000 = 7 then (s.usedBy p).wr HDG_STAT_wr_ign 1 else s.usedBy p := by
  rw [portWrite_reaches p a 15 _ s h]
  have e : a % 2 ^ 26 / 4 * 4 = a := by omega
  unfold State.barWrite
  simp only [e, ha, if_true]
  simp [State.writeReg, closed_used, hc]

/-- A write that its block ignores changes nothing. -/
theorem writeReg_ignored (p : Port) (a be v : Nat) (s : State) (hc : s.closed a = false) (hi : s.ignored a = true) :
    State.writeReg p a be v s = s := by simp [State.writeReg, hc, hi]

/-- The fields of the register at a known address. -/
theorem storeReg_at (bm v a : Nat) (s : State) (r : RegRow) (i j : Nat) (h : regAt a = some (r, i, j)) :
    State.storeReg bm v a s = (r.flds i j).foldl (State.storeFld bm v) s := by simp [State.storeReg, h]

/-- Advancing the time closes no port. -/
theorem Reaches.advance {p : Port} {a : Nat} {s : State} (h : Reaches p a s) (t : Nat) : Reaches p a (s.advance t) := by
  unfold State.advance
  split
  · exact h
  · exact h

theorem closed_advance (s : State) (t a : Nat) : (s.advance t).closed a = s.closed a := by
  unfold State.advance; split <;> rfl

theorem ignored_advance (s : State) (t a : Nat) : (s.advance t).ignored a = s.ignored a := by
  unfold State.advance; split <;> rfl

/-- The command of a register row with its time, through a port that reaches the register. -/
theorem writeAt_word (p : Port) (a v t : Nat) (s : State) (h : Reaches p a s) (hv : v < 2 ^ 32) (ha : a < 0x140000)
    (h4 : a % 4 = 0) (hc : s.closed a = false) (hi : s.ignored a = false) :
    State.writeAt p a v t s
      = State.reSignal a (State.effect p a v 0xFFFFFFFF ((s.advance t).usedBy p)
          (State.storeReg 0xFFFFFFFF v a ((s.advance t).usedBy p))) := by
  unfold State.writeAt
  exact portWrite_word p a v _ (h.advance t) hv ha h4 ((closed_advance s t a).trans hc) ((ignored_advance s t a).trans hi)

end Sys2Proof
end

