-- ==== Sys2Proof/WellFormed.lean ====
section
/-! DEFINITION. Well-formed commands: operands within what the hardware can carry. -/

namespace Sys2Proof

/-- A moment: KT72 and a count of epoch loads above it. -/
def timeOk (t : Nat) : Bool := decide (t < 2 ^ 96)

/-- A KT72 value (R67). -/
def ktOk (t : Nat) : Bool := decide (t < 2 ^ 72)

/-- A BAR0 byte offset of a word (R310). -/
def barOk (a : Nat) : Bool := decide (a < 2 ^ 26) && decide (a % 4 = 0)

/-- A link width (R312). -/
def widthOk (w : Nat) : Bool := decide (w = 4) || decide (w = 8) || decide (w = 16)

/-- A link rate as HRV_LINK.speed codes it (R345). -/
def speedOk (v : Nat) : Bool := decide (1 ≤ v) && decide (v ≤ 7)

/-- A host request names a word of configuration space or of BAR0, or bytes of BAR2. -/
def HostReq.wf : HostReq → Bool
  | .config a => decide (a < 4096) && decide (a % 4 = 0)
  | .configWrite _ _ => true
  | .barRead a => barOk a
  | .barWrite a _ _ => barOk a
  | .bar2Read a len corr uncorr =>
    decide (a + len ≤ 2 ^ 38) && (corr.all fun x => decide (x < 2 ^ 38)) && (uncorr.all fun x => decide (x < 2 ^ 38))
  | .bar2Write a data => decide (a + data.length ≤ 2 ^ 38)
  | .other => true

/-- The times of a grant. -/
def Grant.wf (g : Grant) : Bool := timeOk g.wait && timeOk g.t

/-- The addresses of a read lie in BAR2. -/
def MemRead.wf (r : MemRead) : Bool :=
  (r.corr.all fun x => decide (x < 2 ^ 38)) && (r.uncorr.all fun x => decide (x < 2 ^ 38)) && r.g.wf

/-- The command is one that the hardware can meet. -/
def Instr.wf : Instr → Bool
  | .registerWrite _ a _ _ => barOk a
  | .captureRead _ a => barOk a
  | .glbModeWrite _ _ => true
  | .modeChange t => timeOk t
  | .returnToMode t => timeOk t
  | .softReset _ _ t => timeOk t
  | .modResetN t => timeOk t
  | .pciePerstN t => timeOk t
  | .warmReset _ _ t => timeOk t
  | .functionLevelReset t => timeOk t
  | .d3hot _ t => timeOk t
  | .thresholdCalibration _ _ t => timeOk t
  | .probeCheckStart _ _ t => timeOk t
  | .probeActivityWindowClose t => timeOk t
  | .probeChannelMeasurement _ _ _ t => timeOk t
  | .injectorCalibration _ _ t => timeOk t
  | .tdcCalibration _ _ t => timeOk t
  | .selfTest _ fails t => (fails.all fun x => decide (1 ≤ x.1) && decide (x.1 ≤ 4) && decide (x.2 < 1024)) && timeOk t
  | .m7TaskClear _ _ => true
  | .m7TaskComplete t => timeOk t
  | .channelEdge _ _ _ traw sstart => timeOk traw && timeOk sstart
  | .latchClear _ _ _ t => timeOk t
  | .latchPeriodTick _ t => timeOk t
  | .latchPeriodWrite _ _ _ t => timeOk t
  | .latchPeriodSync _ _ t => timeOk t
  | .thresholdWrite _ _ _ _ t => timeOk t
  | .resolution _ _ t => timeOk t
  | .thresholdReadback _ _ _ _ _ t => timeOk t
  | .overdrive _ t => timeOk t
  | .overdriveEnd _ t => timeOk t
  | .epochLoadArm _ _ => true
  | .epochCancel _ _ => true
  | .epochLoad t => timeOk t
  | .ppsEdge e => timeOk e.t
  | .ppsTimeout t => timeOk t
  | .refInValid m => timeOk m.t
  | .refInInvalid t => timeOk t
  | .refLockTimer t => timeOk t
  | .tcompUpdate _ t => timeOk t
  | .ppsOutPulse t => timeOk t
  | .ppsOutPulseEnd t => timeOk t
  | .deskewTermWrite _ _ _ _ t => timeOk t
  | .deskewApply t => timeOk t
  | .gatherStart _ _ t => timeOk t
  | .gatherAbort _ _ t => timeOk t
  | .gatherClose t => timeOk t
  | .sampleSourceWrite _ _ => true
  | .sampleSourceSwitch t => timeOk t
  | .clkExtInvalid l => timeOk l.t
  | .clkExtDrift _ t => timeOk t
  | .clkExtValid _ t => timeOk t
  | .extClockReturn t => timeOk t
  | .adpllEnable _ _ _ t => timeOk t
  | .search _ _ _ t => timeOk t
  | .bandSearchDone _ _ _ _ t => timeOk t
  | .bandTableWrite _ _ _ _ _ => true
  | .btMiss _ t => timeOk t
  | .adpllLocked _ _ t => timeOk t
  | .qualifyComplete _ t => timeOk t
  | .dllLockAcquired _ t => timeOk t
  | .adpllFailed _ t => timeOk t
  | .clockFailureReset _ t => timeOk t
  | .hopRequest _ _ t => timeOk t
  | .hopCancel _ _ t => timeOk t
  | .hopForce _ _ t => timeOk t
  | .hopStart t => timeOk t
  | .lockLoss _ j t => timeOk j.tPass && timeOk t
  | .holdoverRecovered _ t => timeOk t
  | .holdoverOutOfRange _ _ t => timeOk t
  | .holdoverTimeout _ t => timeOk t
  | .dllLockLoss _ t => timeOk t
  | .dllRelockTimeout _ t => timeOk t
  | .trellisBranchTaken k _ _ _ _ => decide (k < 2 ^ 64)
  | .trigOutPulseEnd _ t => timeOk t
  | .timerLimitReached _ t => timeOk t
  | .programCheck _ _ => true
  | .arm _ _ t => timeOk t
  | .forceTrig _ _ t => timeOk t
  | .prefillComplete t => timeOk t
  | .prefillTimeLimit t => timeOk t
  | .postfillEnd t => timeOk t
  | .segmentChain t => timeOk t
  | .stop _ _ t => timeOk t
  | .acqTimeout t => timeOk t
  | .acqIdle t => timeOk t
  | .storageStall _ t => timeOk t
  | .storageResume t => timeOk t
  | .hedgeMissing _ _ t => timeOk t
  | .hedgeTailEnd t => timeOk t
  | .ruleCheck _ _ => true
  | .reductionIntervalEnd _ t => timeOk t
  | .reductionFlushTimeout _ t => timeOk t
  | .flush _ _ t => timeOk t
  | .sieveBlockOffer _ t => timeOk t
  | .sieveReservation _ t => timeOk t
  | .sievePassThrough _ t => timeOk t
  | .sieveBlockWrite _ w t => timeOk w && timeOk t
  | .gateInputEdge _ _ t => timeOk t
  | .lossEpisodeEnd t => timeOk t
  | .timedGateClose _ t => timeOk t
  | .staleTimestampDiscard _ t => timeOk t
  | .dmcInit _ _ t => timeOk t
  | .dmcInitDone _ t => timeOk t
  | .dmcApply _ _ => true
  | .dmcRetire _ _ t => timeOk t
  | .retireThreshold _ q t => (q.uncorr.all fun x => decide (x < 2 ^ 37)) && timeOk t
  | .migrationComplete m => (m.bad.all fun x => decide (x < 2 ^ 37)) && timeOk m.t
  | .rowSpare _ _ t => timeOk t
  | .refreshDue _ _ t => timeOk t
  | .owedRefreshIssue _ t => timeOk t
  | .stackTempReading _ _ t => timeOk t
  | .rakeLease _ q t => (q.fails.all fun x => decide (x.2 < 512)) && timeOk q.wait && timeOk t
  | .rakeLeaseRelease _ t => timeOk t
  | .rakePreempt _ t => timeOk t
  | .nearClearDone t => timeOk t
  | .deepClearDone t => timeOk t
  | .bar2Read a len corr uncorr g => decide (a + len ≤ 2 ^ 38) && MemRead.wf ⟨corr, uncorr, g⟩
  | .bar2Write a data g => decide (a + data.length ≤ 2 ^ 38) && g.wf
  | .laneDownshift width speed t => widthOk width && speedOk speed && timeOk t
  | .descriptorTailWrite _ _ _ t => timeOk t
  | .descriptorFetch _ bytes t => decide (bytes.length = 32) && timeOk t
  | .descriptorFetchError _ t => timeOk t
  | .copyDescriptor _ r => r.wf
  | .followBufferComplete _ t => timeOk t
  | .followFlushTimeout _ t => timeOk t
  | .followOverrun _ t => timeOk t
  | .ringDisable _ _ _ t => timeOk t
  | .cqHeadWrite _ _ _ t => timeOk t
  | .cqModerationTimeout _ t => timeOk t
  | .stationRead a hostWord _ t => decide (a < 0x8000) && (hostWord.all fun w => decide (w < 16384)) && timeOk t
  | .stationWrite a _ hostWord _ t => decide (a < 0x8000) && (hostWord.all fun w => decide (w < 16384)) && timeOk t
  | .windowRead t => timeOk t
  | .windowWrite t => timeOk t
  | .hostDoorbell _ _ => true
  | .stationDoorbell _ t => timeOk t
  | .trigFrame _ _ _ _ _ _ kt t => ktOk kt && timeOk t
  | .syncFrame _ _ t3 t1 t2 t => ktOk t3 && ktOk t1 && ktOk t2 && timeOk t
  | .syncSend _ t => timeOk t
  | .frameDiscard _ bits blocks t => decide (bits < 2 ^ (64 * blocks)) && timeOk t
  | .portEnable _ _ _ t => timeOk t
  | .linkTimeout _ l => timeOk l.t
  | .aonPowerUp _ _ => true
  | .wakeFromOff t => timeOk t
  | .imageCheck size t => decide (size ≤ 2 ^ 28) && timeOk t
  | .loadTimeout t => timeOk t
  | .write t => timeOk t
  | .rmw t => timeOk t
  | .poll t => timeOk t
  | .pollConditionMet t => timeOk t
  | .pollTimeout t => timeOk t
  | .wait t => timeOk t
  | .waitExpiry t => timeOk t
  | .branchVariant t => timeOk t
  | .branchStatus t => timeOk t
  | .callEvent t => timeOk t
  | .endScript t => timeOk t
  | .autoArm t => timeOk t
  | .eventScriptStart t => timeOk t
  | .hksRun _ _ t => timeOk t
  | .watchdogFeed _ _ t => timeOk t
  | .watchdogExpiry t => timeOk t
  | .nvRead _ _ t => timeOk t
  | .nvProgram _ _ t => timeOk t
  | .nvErase4K _ _ t => timeOk t
  | .nvErase64K _ _ t => timeOk t
  | .nvDone t => timeOk t
  | .nvTimeout t => timeOk t
  | .latchWake t => timeOk t
  | .timerWake t => timeOk t
  | .hostWake r t => r.wf && timeOk t
  | .armOnWake t => timeOk t
  | .feedLeavesRange _ _ _ t => timeOk t
  | .feedSenseTest _ _ _ t => timeOk t
  | .feedGood _ _ t => timeOk t
  | .revert t => timeOk t
  | .hostFeedSwitch _ _ t => timeOk t
  | .rideThrough _ t => timeOk t
  | .orderlyLossSequence t => timeOk t
  | .harvestCutoff t => timeOk t
  | .railsOff t => timeOk t
  | .dumpEnd _ t => timeOk t
  | .phaseFailure _ _ t => timeOk t
  | .holdupTest _ t => timeOk t
  | .outputFault _ t => timeOk t
  | .outputFaultEnd _ t => timeOk t
  | .thermalReading temps t => (temps.all fun x => decide (x.1 < 14)) && timeOk t
  | .thermalTrip _ _ t => timeOk t
  | .thermalRestart t => timeOk t
  | .residueMismatch _ _ _ _ t => timeOk t
  | .laneFail _ t => timeOk t
  | .spareLaneMeasured _ t => timeOk t
  | .spareLaneSwap _ t => timeOk t
  | .bbxFreeze _ _ => true
  | .bbxUnfreeze _ _ => true
  | .bbxClear _ _ => true
  | .bbxPrep _ _ t => timeOk t
  | .bbxRegionRead t => timeOk t
  | .bbxPrepDone _ t => timeOk t
  | .extest => true
  | .idcode => true
  | .samplePreload => true
  | .clamp => true
  | .highz => true
  | .extestPulse => true
  | .extestTrain => true
  | .bypass => true
  | .alwaysOnPowerLoss => true
  | .feedQual _ _ t => timeOk t
  | .feedMargin _ _ _ t => timeOk t
  | .returnToD0 _ t => timeOk t
  | .linkRetrain width speed t => widthOk width && speedOk speed && timeOk t
  | .l1_2Entry t => timeOk t
  | .pcieLinkUp width speed t => widthOk width && speedOk speed && timeOk t

end Sys2Proof
end

