-- ==== Sys2Proof/Tests/Slice0.lean ====
section
/-! SUPPORT. Tests: the checks of WellFormed on ill-formed commands, values printed in the spec, and for every statement states and
operands that meet its hypotheses, at the boundaries of each clause. -/

set_option Elab.async false

namespace Sys2Proof.Tests

open Machine

/-- A state with some register fields written. -/
def sets (s : State) (l : List (Fld × Nat)) : State := l.foldl (fun s p => s.wr p.1 p.2) s

/-- A module that is powered, booted and linked, its core and sample domains running and its memories cleared. -/
def live : State :=
  sets { State.reset with hks := { State.reset.hks with rails := true, step := 6 }, grid := { State.reset.grid with run := true },
                          near := ⟨none, [], []⟩, deep := ⟨none, [], []⟩, scr := ⟨none, [], []⟩, nv := ⟨none, [], []⟩,
                          hrv := { State.reset.hrv with link := some (16, 5) } }
    [(HKS_BOOT_done, 1), (HRV_LINK_up, 1), (CLK_x_STAT_gated 0, 0), (CLK_x_STAT_gated 1, 0), (CLK_x_STAT_gated 2, 0), (NMC_STAT_clear_busy, 0), (DMC_STAT_clear_busy, 0)]

/-- An open segment. -/
def seg : Seg :=
  ⟨0, 0, 0, 1, 0, 0, false, none, 0, 0, 0, 0, 0, 0, 0, 0, 0, 0, 0, false, 0, 0, 0, 0, 0, 0, false, none, [], []⟩

/-- `live` in an acquisition state with an open segment. -/
def capturing (st : Nat) : State := { live.wr ACQ_STAT_state st with acq := { live.acq with seg := some seg } }

/-- `live` with a running script whose words lie in the scratchpad. -/
def scripted (kind : Nat) (ws : List Nat) : State :=
  { live with scr := live.scr.write 0 (ws.flatMap (le 4)), near := live.near.write 0 (ws.flatMap (le 4)),
              hks := { live.hks with script := some ⟨kind, 0, 0, ws.length, none, none⟩ } }

/-! ### The queue, resets, link and modes -/

theorem witness_stepRunsFront : ({ live with pending := [.modResetN 5] } : State).pending = Instr.modResetN 5 :: [] := rfl

theorem witness_idleTick : live.pending = [] ∧ ({ live with pwr := { live.pwr with dead := true } } : State).pwr.dead = true
    ∧ ∀ sel sigN, Instr.modResetN 0 ≠ .aonPowerUp sel sigN := ⟨rfl, rfl, fun _ _ => nofun⟩

theorem witness_deadIgnores : ({ live with pwr := { live.pwr with dead := true } } : State).pwr.dead = true
    ∧ ∀ sel sigN, Instr.extest ≠ .aonPowerUp sel sigN := ⟨rfl, fun _ _ => nofun⟩

theorem witness_memInvStep : MemInv live ∧ ∃ u, step live = .next u :=
  ⟨by dsimp only [MemInv]; decide, _, rfl⟩

theorem witness_irqInvStep : IrqInv live ∧ ∃ u, step live = .next u :=
  ⟨fun _ _ => ⟨fun h => (nomatch h), fun _ h => absurd h (by decide)⟩, _, rfl⟩

/-- `live` with boundary scan driving the lands. -/
def scanned : State := { live with jtg := { live.jtg with drive := 3 } }

theorem witness_warmResetRequests :
    (live.lands = true ∧ Powered scanned ∧ scanned.lands = false)
    ∧ (Powered live ∧ WarmSrc.pin ∉ live.hks.warmReq ∧ WarmSrc.perst ∉ live.hks.warmReq ∧ live.hks.sel ≠ 2
      ∧ (live.wr GLB_RST_CTL_perst_warm 1).on GLB_RST_CTL_perst_warm = true)
    ∧ (Reaches .host GLB_RST_key.addr live ∧ WarmSrc.soft ∉ live.hks.warmReq ∧ GLB_RST_key.of 0xA5C30001 = 0xA5C3
      ∧ GLB_RST_warm.of 0xA5C30001 = 1)
    ∧ (WarmSrc.watchdog ∉ live.hks.warmReq ∧ (live.wr HKS_WDG_en 0).on HKS_WDG_en = false ∧ (live.wr (CLK_x_STAT_state 2) 7).pllSt 2 = 7
      ∧ (live.pll 2).since + 1000 * usF ≤ 1000 * usF)
    ∧ (let s := sets live [(HKS_WDG_en, 1), (HKS_WDG_host_feed, 1), (HKS_WDG_period, 2)]
       s.on HKS_WDG_en = true ∧ s.on HKS_WDG_host_feed = true ∧ s.mode ≠ 0 ∧ s.hks.wdgAt + s.rd HKS_WDG_period * 1000 * usF ≤ 2000 * usF)
    ∧ (let s := sets live [(HKS_WDG_en, 1), (HKS_WDG_host_feed, 0), (HKS_WDG_period, 2), (CLK_x_STAT_state 2, 7)]
       s.on HKS_WDG_en = true ∧ s.mode ≠ 0 ∧ (2 : Pll).val ≠ 0 ∧ s.pllSt (2 : Pll).val = 7
         ∧ max (s.pll 2).since s.hks.wdgAt + s.rd HKS_WDG_period * 1000 * usF ≤ 2000 * usF)
    ∧ (live.wr HKS_WDG_en 0).on HKS_WDG_en = false := by
  dsimp only [Powered, Reaches]; decide

theorem witness_warmResetDone : Powered live ∧ ({ live.hks with warmReq := [.soft] } : Hks).warmReq ≠ [] := by
  dsimp only [Powered]; decide

theorem witness_linkState : Powered live ∧ live.hks.sel ≠ 2 ∧ live.lands = true ∧ live.hrv.link.isSome = true ∧ live.hrv.link = some (16, 5)
    ∧ live.hrv.link ≠ some (8, 5) ∧ scanned.lands = false ∧ ({ live.hks with sel := 2 } : Hks).sel = 2
    ∧ ({ live.hrv with link := none } : Hrv).link = none := by dsimp only [Powered]; decide

theorem witness_functionReset :
    let r : State := { live with hrv := { live.hrv with rings := [(3, { Ring.idle with strm := true })] } }
    Powered live ∧ live.hrv.link.isSome = true ∧ live.acqSt = 0 ∧ r.hrv.rings ≠ [] ∧ HRV_LINK_up.addr / 0x10000 = 0xE
      ∧ GLB_MODE_mode.addr / 0x10000 ≠ 0xE ∧ HRV_LINK_up.addr % 4 = 0 ∧ HRV_LINK_up.lo < 32 := by dsimp only [Powered]; decide

theorem witness_captureKt72 : Reaches .host TMB_KT_LO_kt.addr live ∧ Reaches .station TMB_KT_LO_kt.addr live ∧ live.trl.restart = none := by
  dsimp only [Reaches]; decide

theorem witness_modeWrite : Reaches .station GLB_MODE_mode.addr live ∧ Reaches .host GLB_MODE_mode.addr live := by
  dsimp only [Reaches]; decide

theorem witness_modeTakesEffect :
    let s := sets live [(GLB_MODE_mode, 3), (GLB_STAT_mode_pend, 1), (GLB_STAT_ret_pend, 1)]
    (Powered s ∧ s.hks.entering = false ∧ s.acqSt = 0 ∧ s.busyTask = false ∧ s.mode ≠ 0 ∧ s.rd GLB_MODE_mode ≠ 0
      ∧ s.on GLB_STAT_mode_pend = true ∧ s.on GLB_STAT_ret_pend = true ∧ { s.acq with retOk := true }.retOk = true)
    ∧ s.dsk.gather = none ∧ s.clk.hopWait = none ∧ ({ s with grid := { s.grid with run := false } } : State).grid.run = false := by
  dsimp only [Powered]; decide

theorem witness_entersM0 : Powered { live with hks := { live.hks with entering := true } }
    ∧ ({ live.hks with entering := true } : Hks).entering = true ∧ (live.wr GLB_MODE_mode 0).rd GLB_MODE_mode = 0
    ∧ live.rd GLB_MODE_mode ≠ 0 := by dsimp only [Powered]; decide

theorem witness_wakesFromM0 :
    let s := live.wr GLB_STAT_active_mode 0
    let l := (s.wr HKS_WAKE_AT_HI_en 1).wr HKS_WAKE_AT_LO_kt 5
    (Powered s ∧ s.mode = 0 ∧ s.hks.waking = none ∧ s.latchMet = none)
    ∧ (l.on HKS_WAKE_AT_HI_en = true ∧ l.wakeAt ≤ 5 % 2 ^ 72 ∧ 4 % 2 ^ 72 < l.wakeAt)
    ∧ (∃ x, ({ s with hks := { s.hks with sets := [(3, 7)] } } : State).latchMet = some x)
    ∧ s.wakeAt = 0 ∧ s.on HKS_WAKE_AT_HI_en = false ∧ s.hks.hostReq = none ∧ ({ s.hrv with l12 := true } : Hrv).l12 = true ∧ s.hrv.l12 = false
    ∧ ({ s.hks with hostReq := some (.config 0) } : Hks).hostReq ≠ none ∧ live.mode ≠ 0
    ∧ s.pllSt 0 = 0 ∧ (s.wr (CLK_x_STAT_state 2) 7).pllSt 2 ≠ 0 ∧ live.hrv.link ≠ none ∧ ({ live.hrv with link := none } : Hrv).link = none := by
  dsimp only [Powered]
  refine ⟨by decide, by decide, ⟨_, rfl⟩, by decide⟩

/-! ### Register accesses -/

theorem witness_accessCodes : Reaches .host GLB_RST_CTL_perst_warm.addr live ∧ Reaches .host GLB_RST_CAUSE_aon.addr live
    ∧ Reaches .host GLB_SERIAL_LO_serial.addr live ∧ Reaches .host STP_DB_OUT_db.addr live := by dsimp only [Reaches]; decide

theorem witness_closedWrites :
    (∀ a ∈ [0x50000, 0x5FFFC, 0x6000C, 0x6FFFC, 0x70000, 0x80010, 0xAFFFC],
      a % 4 = 0 ∧ 0x50000 ≤ a ∧ a < 0xB0000 ∧ openRegs.contains a = false)
    ∧ Reaches .host 0x50000 (capturing 3) ∧ (capturing 3).acqSt ≠ 0
    ∧ (regAt 0x50000).isSome = true ∧ (regAt 0x5FFFC).isNone = true ∧ (regAt 0x70000).isSome = true ∧ (regAt 0x7FFFC).isNone = true := by
  dsimp only [Reaches]; decide +kernel

theorem witness_scratchAndHoles : (∀ a ∈ [0x150000, 0x1FFFFC, 0x210000, 0x3FFFFFC], (0x150000 ≤ a ∧ a < 0x200000) ∨ (0x210000 ≤ a ∧ a < 0x4000000))
    ∧ Reaches .host 0x150000 live ∧ Reaches .host (0x200000 + 0xFFFC) live ∧ 0xFFFC < 0x10000 ∧ 0xFFFC % 4 = 0
    ∧ live.trl.restart = none := by dsimp only [Reaches]; decide

/-! ### Tasks and probe checks -/

theorem witness_probeVerdict :
    (28000 < (28001 : Int) ∧ (-20001 : Int) < -20000) ∧ (¬(28000 < (0 : Int) ∨ (0 : Int) < -20000 ∨ 28000 < (400 : Int) ∨ (400 : Int) < -20000) ∧ 400 ≤ (400 : Int) - 0)
    ∧ ((399 : Int) - 0 < 400 ∧ -80 ≤ (-80 : Int) ∧ (-80 : Int) ≤ 80)
    ∧ (let s := live.wr INP_PCHK_RAIL_rail_a 100
       s.rdS INP_PCHK_RAIL_rail_a ≠ 0 ∧ 4 * s.rdS INP_PCHK_RAIL_rail_a - 80 ≤ 480 ∧ (480 : Int) ≤ 4 * s.rdS INP_PCHK_RAIL_rail_a + 80)
    ∧ ¬(-80 ≤ (81 : Int) ∧ (81 : Int) ≤ 80) := by decide

theorem witness_probeGoesOn :
    let c : PChk := ⟨0, false, false, [0, 1023], 0, [], true, [], none⟩
    let d : PChk := { c with winOpen := false }
    let e : PChk := { d with idx := 1, done := [(0, 1, 0, 0)], cur := some ((1023, 5, -20001, 0), 5) }
    Powered { live with inp := { live.inp with pchk := some c } } ∧ c.start + 1000 * usF ≤ 1000 * usF ∧ c.todo ≠ []
      ∧ d.winOpen = false ∧ d.cur = none ∧ d.todo[d.idx]? = some (0 : Chan).val ∧ live.armed = false
      ∧ { d with idx := 1 }.todo[1]? = some (1023 : Chan).val
      ∧ e.cur = some ((1023, 5, -20001, 0), 5) ∧ 5 + 8 * usF ≤ 8 * usF + 5 ∧ e.idx + 1 = e.todo.length ∧ e.atArm = false
      ∧ ∀ x ∈ e.done ++ [(1023, 5, -20001, 0)], x.1 = 1023 → x = (1023, 5, -20001, 0) := by
  dsimp only [Powered]; decide

theorem witness_taskRows : Powered live ∧ Reaches .host GLB_M7_TASK_task.addr live ∧ live.task = none ∧ live.inp.pchk = none
    ∧ (live.wr GLB_STAT_active_mode 7).mode = 7 ∧ live.mode ≠ 7 ∧ live.hks.entering = false
    ∧ ({ live.hks with entering := true } : Hks).entering = true := by dsimp only [Powered, Reaches]; decide

theorem witness_dskStarts :
    let s7 := live.wr GLB_STAT_active_mode 7
    let t7 : State := { s7 with task := some ⟨1, 0, []⟩ }
    Reaches .host DSK_CAL_CTL_busy.addr live ∧ live.mode ≠ 7 ∧ Reaches .host DSK_CAL_CTL_busy.addr s7 ∧ s7.mode = 7 ∧ s7.hks.entering = false
      ∧ s7.task = none ∧ s7.inp.pchk = none ∧ Reaches .station DSK_CAL_CTL_busy.addr t7 ∧ t7.mode = 7 ∧ t7.task ≠ none := by
  dsimp only [Reaches]; decide

theorem witness_taskEnds : ∀ k ∈ ([⟨3, 0, []⟩, ⟨4, 0, []⟩, ⟨1, 0, []⟩] : List Task),
    Powered { live with task := some k } ∧ ({ live with task := some k } : State).task = some k ∧ k.code ≠ 2 ∧ live.acq.seg = none
      ∧ (live.wr GLB_STAT_active_mode 7).mode = 7 ∧ live.comp = false := by
  dsimp only [Powered]; decide

theorem witness_probeStart :
    let s7 := live.wr GLB_STAT_active_mode 7
    let busy := { s7 with inp := { s7.inp with pchk := some ⟨0, false, false, [0], 0, [], true, [], none⟩ }, task := some ⟨1, 0, []⟩ }
    (live.mode ≠ 7 ∧ Reaches .host INP_PCHK_CTL_start.addr live ∧ live.inp.pchk = none ∧ live.hks.entering = false ∧ live.acqSt = 0)
      ∧ ((capturing 2).acqSt ≠ 0 ∧ (capturing 2).mode ≠ 7 ∧ Reaches .host INP_PCHK_CTL_start.addr (capturing 2))
      ∧ (s7.mode = 7 ∧ s7.inp.pchk = none ∧ s7.hks.entering = false ∧ s7.task = none ∧ Reaches .host INP_PCHK_CTL_start.addr s7
        ∧ Reaches .host GLB_M7_TASK_task.addr s7)
      ∧ (busy.mode = 7 ∧ busy.inp.pchk ≠ none ∧ busy.task ≠ none ∧ Reaches .host INP_PCHK_CTL_start.addr busy
        ∧ Reaches .host GLB_M7_TASK_task.addr busy)
      ∧ Reaches .host GLB_M7_TASK_task.addr live := by dsimp only [Reaches]; decide

theorem witness_taskClear : Reaches .host GLB_M7_TASK_task.addr live := by dsimp only [Reaches]; decide

/-! ### Input channels -/

/-- `live` with every channel resolved at 0 that a witness names. -/
def resolved (c : Nat) : State := live.wr (INP_LSTAT_unres c) 0

theorem witness_thresholdWrites :
    let small : State := { live with build := { live.build with variant := 3 } }
    (Reaches .host (INP_THR_code 1023).addr live ∧ Reaches .host (INP_CFG_hyst 1023).addr live ∧ (1023 : Chan).val < live.nChan)
    ∧ (4095 % 2 ^ 12 ≠ live.rd (INP_THR_code 1023) ∧ live.rd (INP_THR_code 1023) % 2 ^ 12 = live.rd (INP_THR_code 1023)
      ∧ 7 % 8 ≠ live.rd (INP_CFG_hyst 1023) ∧ live.rd (INP_CFG_hyst 1023) % 8 = live.rd (INP_CFG_hyst 1023))
    ∧ small.nChan ≤ (512 : Chan).val ∧ Reaches .host (INP_THR_code 512).addr small := by dsimp only [Reaches]; decide

theorem witness_resolves : Powered live ∧ (1023 : Chan).val < live.nChan ∧ live.rd (INP_LSTAT_unres 1023) = 1 ∧ live.mode ≠ 0
    ∧ live.grid.run = true ∧ (∀ e, look [(1023, 5)] (1023 : Chan).val = some e → e ≤ 5)
    ∧ (let s := sets live [(INP_CFG_hyst 1023, 1), (INP_THR_code 1023, 0)]
       s.resolvesTo 1023 (-3994999) = some true ∧ s.resolvesTo 1023 (-4005001) = some false ∧ s.resolvesTo 1023 (-3995000) = none
         ∧ s.resolvesTo 1023 (-4005000) = none ∧ 0 < s.hystMv 1023) := by
  dsimp only [Powered]
  exact ⟨by decide, by decide, by decide, by decide, by decide, fun e h => by simp [look] at h; omega, by decide⟩

theorem witness_edgeLatches :
    let s := sets (resolved 5) [(INP_CFG_latch_edge 5, 3), (INP_CFG_to_tdc 5, 1)]
    let d := s.wr GLB_STAT_active_mode 0
    (Powered s ∧ (5 : Chan).val < s.nChan ∧ s.rd (INP_LSTAT_unres 5) = 0 ∧ s.rd (INP_LSTAT_level 5) = 0 ∧ s.rd (INP_CFG_latch_edge 5) < 4
      ∧ s.rd (INP_CFG_latch_edge 5) = 3 ∧ s.rd (INP_LSTAT_set 5) = 0 ∧ s.on (INP_CFG_to_tdc 5) = true)
    ∧ ((s.wr (INP_LSTAT_set 5) 1).rd (INP_LSTAT_set 5) = 1 ∧ d.mode = 0 ∧ d.rd (INP_LSTAT_unres 5) = 0)
    ∧ (¬((resolved 5).rd (INP_CFG_latch_edge 5) = 3 ∨ (resolved 5).rd (INP_CFG_latch_edge 5) = 2)
      ∧ (resolved 5).rd (INP_CFG_latch_edge 5) = 0)
    ∧ s.beforeRes 5 0 = false
    ∧ (let w : State := { s with inp := { s.inp with resAt := [(5, usF)] } }
       w.beforeRes 5 0 = true ∧ w.mode ≠ 0 ∧ w.side 5 10000000 = some true)
    ∧ live.rd (INP_LSTAT_unres 5) = 1 ∧ s.rd (INP_LSTAT_level 5) = (if false then 1 else 0)
    ∧ (let h := sets s [(INP_CFG_hyst 5, 7), (INP_THR_code 5, 4095)]
       h.side 5 6100001 = some true ∧ h.side 5 5899999 = some false ∧ h.side 5 6100000 = none ∧ h.side 5 5900000 = none)
    ∧ (let r : State := { s with inp := { s.inp with rate := [(5, 1000, 1000)] } }
       r.tdcBeyond 5 1511 = true ∧ r.tdcBeyond 5 1512 = false)
    ∧ ({ live with build := { live.build with variant := 3 } } : State).nChan ≤ (512 : Chan).val := by
  dsimp only [Powered]; decide

theorem witness_latchClears :
    let s : State := { live.wr (INP_CFG_latch_auto 7) 1 with inp := { live.inp with lastSel := [(7, xtalF)] } }
    ((7 : Chan).val < s.nChan ∧ Reaches .host (INP_LSTAT_set 7).addr s ∧ Reaches .host (INP_LATCH_bits (7 / 32)).addr s)
    ∧ (look s.inp.lastSel (7 : Chan).val = some xtalF ∧ xtalF / xtalF = (2 * xtalF - 1) / xtalF ∧ xtalF / xtalF ≠ 2 * xtalF / xtalF)
    ∧ (let m := sets s [(GLB_STAT_active_mode, 0), (INP_CFG_to_wake 7, 1)]
       m.mode = 0 ∧ m.on (INP_CFG_to_wake 7) = true ∧ m.hks.m0At ≤ xtalF ∧ ((7 : Chan).val, xtalF) ∉ m.hks.sets
         ∧ look m.inp.lastSel (7 : Chan).val = some xtalF ∧ Powered m ∧ m.on (INP_CFG_latch_auto 7) = true
         ∧ m.perOrigin 7 + (m.advance (10 ^ 13)).xtal (100 * m.rd (INP_LPER_period 7)) ≤ 10 ^ 13
         ∧ ¬({ m.hks with m0At := xtalF + 1 } : Hks).m0At ≤ xtalF)
    ∧ (Powered s ∧ s.on (INP_CFG_latch_auto 7) = true
      ∧ s.perOrigin 7 + (s.advance (10 ^ 13)).xtal (100 * s.rd (INP_LPER_period 7)) ≤ 10 ^ 13) := by
  dsimp only [Powered, Reaches]; decide

theorem witness_latchPeriods : Reaches .host (INP_LPER_period 1023).addr live ∧ (1023 : Chan).val < live.nChan
    ∧ Reaches .host INP_LPER_SYNC_sync.addr live := by dsimp only [Reaches]; decide

theorem witness_thresholdReadings :
    let s := sets live [(INP_RDBK_CTL_en, 1), (INP_CFG_drift_en 9, 1)]
    let far := fun c0 c1 c2 c3 : Int =>
      16 * 8 * 4095 < (4095 * (c0 + c1 + c2 + c3) - 16 * (-4000 * 4095 + 10000 * (s.rd (INP_THR_code 9) : Int))).natAbs
    (Powered s ∧ s.rd INP_RDBK_CTL_en = 1 ∧ s.mode ≠ 0 ∧ (9 : Chan).val < s.nChan ∧ s.rd (INP_CFG_drift_en 9) = 1)
    ∧ far 20000 20000 20000 20000 ∧ (∀ w, look [(9, 0)] (9 : Chan).val = some w → w + 20 * usF < 20 * usF + 1)
    ∧ (∀ w, look [(9, 0)] (9 : Chan).val = some w → 20 * usF ≤ w + 20 * usF) := by
  dsimp only [Powered]
  exact ⟨by decide, by decide, fun w h => by simp [look] at h; omega, fun w h => by simp [look] at h; omega⟩

theorem witness_overdriven : Powered live ∧ (1023 : Chan).val < live.nChan ∧ live.rd (INP_LSTAT_ovr_seen 1023) = 0 ∧ live.acqSt = 0
    ∧ (live.wr (INP_LSTAT_ovr_seen 1023) 1).rd (INP_LSTAT_ovr_seen 1023) = 1 := by dsimp only [Powered]; decide

/-! ### The time base and deskew -/

theorem witness_epochControl : Reaches .host TMB_EPOCH_CTL_load.addr live ∧ (1 : Word).getLsbD 1 = false ∧ (3 : Word).getLsbD 1 = true := by
  dsimp only [Reaches]; decide

theorem witness_epochLoads :
    let s := live.wr TMB_EPOCH_CTL_pending 1
    let r : State := { s.wr TMB_REF_CFG_src 2 with tmb := { s.tmb with ppsAcc := some 9 } }
    (Powered s ∧ s.rd TMB_EPOCH_CTL_pending = 1 ∧ s.acqSt = 0 ∧ s.tmb.epochAt < secF ∧ s.tmb.kt ≤ secF
      ∧ s.rd TMB_REF_CFG_src = 0 ∧ secF % 2 ^ 72 % secF = 0)
    ∧ Powered r ∧ 2 ≤ r.rd TMB_REF_CFG_src ∧ r.tmb.ppsAcc = some 9 ∧ r.tmb.epochAt < 9 := by dsimp only [Powered]; decide

theorem witness_referenceState :
    let s : State := { live.wr TMB_REF_CFG_src 1 with tmb := { live.tmb with ppsLast := some 0 } }
    (Powered s ∧ s.mode ≠ 0 ∧ s.rd TMB_REF_CFG_src = 1 ∧ s.rd TMB_REF_STAT_state = 0
      ∧ (s.wr TMB_REF_STAT_state 2).rd TMB_REF_STAT_state = 2)
    ∧ (let want : Int := if s.rd TMB_REF_CFG_ref_freq = 1 then 100000000 else 10000000
       10000 * ((10001000 : Int) - want).natAbs ≤ want ∧ want < 10000 * ((10001001 : Int) - want).natAbs)
    ∧ (s.tmb.ppsLast = some 0 ∧ 0 + secF + secF / 2 ≤ 3 * secF / 2 ∧ (s.wr TMB_REF_CFG_src 3).rd TMB_REF_CFG_src = 3)
    ∧ (s.wr TMB_REF_STAT_state 1).rd TMB_REF_STAT_state = 1 ∧ s.tmb.refSince + 10 * secF ≤ 10 * secF
    ∧ s.lands = true ∧ Powered scanned ∧ scanned.mode ≠ 0 ∧ scanned.lands = false := by dsimp only [Powered]; decide

/-- A 32-bit field read as signed. -/
theorem sx32_bounds (n : Nat) : -2147483648 ≤ sx 32 n ∧ sx 32 n ≤ 2147483647 := by
  have h : n % 2 ^ 32 < 2 ^ 32 := Nat.mod_lt _ (by decide)
  unfold sx
  split <;> norm_num at * <;> omega

/-- An edge near the third second has that phase. -/
theorem ppsPhase_near (v : Int) (h1 : -4294967296 ≤ v) (h2 : v ≤ 4294967296) : ppsPhase (3 * secF + v) = v := by
  have e : (3 * (secF : Int) + v) % 2 ^ 72 = 3 * secF + v := Int.emod_eq_of_lt (by simp only [secF]; omega) (by simp only [secF]; norm_num; omega)
  have r : rnd (3 * (secF : Int) + v) secF = 3 := by
    unfold rnd
    rw [if_pos (by simp only [secF]; omega)]
    simp only [secF]
    omega
  unfold ppsPhase
  rw [e, r]
  omega

theorem witness_ppsEdges :
    let s : State := { sets live [(TMB_REF_CFG_src, 2), (TMB_REF_STAT_pps_valid, 1), (TMB_REF_STAT_state, 1), (TMB_LOCK_CFG_unlock_thr, 3)] with
                       tmb := { live.tmb with goodRun := 7, outRun := 2, ppsLast := some 0 } }
    let r := s.wr TMB_REF_STAT_state 2
    let lim := s.rd TMB_LOCK_CFG_unlock_thr * nsF
    (Powered s ∧ 2 ≤ s.rd TMB_REF_CFG_src ∧ s.rd TMB_REF_STAT_pps_valid = 1 ∧ s.rd TMB_REF_STAT_state = 1 ∧ s.on TMB_REF_CFG_pps_edge = false
      ∧ (s.wr TMB_REF_CFG_pps_edge 1).on TMB_REF_CFG_pps_edge = true ∧ s.tmb.ppsErr = none ∧ 7 ≤ s.tmb.goodRun ∧ s.tmb.outRun = 2)
    ∧ (r.rd TMB_REF_STAT_state = 2 ∧ s.rdS TMB_PPS_DLY_dly = 0 ∧ lim = 3 * nsF ∧ s.lands = true ∧ scanned.lands = false)
    ∧ (live.rd TMB_REF_CFG_src = 0 ∧ live.rd TMB_REF_STAT_state = 0
      ∧ (((secF + 1000 * usF : Nat) : Int) - (0 : Nat) - secF).natAbs ≤ 1000 * usF)
    ∧ (∃ t : Nat, (ppsPhase ((t : Int) - 0) - sx 32 (Config.freeValue s.free)).natAbs ≤ 3 * nsF)
    ∧ ∃ t : Nat, ¬(ppsPhase ((t : Int) - 0) - sx 32 (Config.freeValue s.free)).natAbs ≤ 3 * nsF := by
  dsimp only [Powered]
  refine ⟨by decide, by decide, by decide, ?_⟩
  generalize Config.freeValue _ = n
  have hb := sx32_bounds n
  refine ⟨⟨(3 * (secF : Int) + (sx 32 n + 6144)).toNat, ?_⟩, ⟨(3 * (secF : Int) + (sx 32 n + 6145)).toNat, ?_⟩⟩ <;>
  · rw [Int.toNat_of_nonneg (by simp only [secF]; omega), Int.sub_zero, ppsPhase_near _ (by omega) (by omega)]
    simp only [nsF]
    omega

theorem witness_temperatureAndPpsOut :
    let s : State := { live.wr TMB_OUT_CFG_pps_en 1 with tmb := { live.tmb with ppsOut := true, ppsEnd := 9 } }
    Powered s ∧ s.rd TMB_OUT_CFG_pps_en = 1 ∧ secF % 2 ^ 72 % secF = 0 ∧ s.tmb.ppsOut = true ∧ s.tmb.ppsEnd ≤ 9 := by
  dsimp only [Powered]; decide

theorem witness_deskewTerms :
    let small : State := { live with build := { live.build with variant := 3 } }
    Reaches .host (DSK_USER_d 1023).addr live ∧ Reaches .host (DSK_LAND_d 0).addr live ∧ (1023 : Chan).val < live.nChan
    ∧ small.nChan ≤ (512 : Chan).val ∧ Reaches .host (DSK_LAND_d 512).addr small := by dsimp only [Reaches]; decide

theorem witness_deskewApplies :
    let s : State := { live with dsk := { live.dsk with pend := [⟨1023, 0, 9, false, 0⟩] } }
    Powered s ∧ s.acqSt = 0 ∧ (∃ q ∈ s.dsk.pend, q.since + usF ≤ usF ∧ s.acq.idleAt + usF ≤ usF) ∧ (∀ q ∈ s.dsk.pend, q.ch < 1024) := by
  dsimp only [Powered]; decide

theorem witness_gatherStarts :
    let s := sets live [(DSK_PAIR_en 3, 1), (DSK_PAIR_partner 3, 4)]
    let own := live.wr (DSK_PAIR_en 0) 1
    let two := sets s [(DSK_PAIR_en 5, 1), (DSK_PAIR_partner 5, 3)]
    (Reaches .host DSK_GCTL_start.addr s ∧ (1 : Word).getLsbD 1 = false ∧ s.dsk.gather = none ∧ s.mode ≠ 7 ∧ s.pairChs = [3])
    ∧ (live.pairChs = [] ∧ two.pairChs = [3, 5] ∧ two.rd (DSK_PAIR_partner 5) = 3) ∧ (own.pairChs = [0] ∧ own.rd (DSK_PAIR_partner 0) = 0)
    ∧ (s.rd (DSK_PAIR_partner 3) = 4 ∧ (4 < s.nChan ∧ s.captured 4 = true) ∧ (3 < s.nChan ∧ s.captured 3 = true)) := by
  dsimp only [Reaches]; decide +kernel

theorem witness_gatherEnds :
    let g : Gather := ⟨0, 50, [⟨3, 4, 0, 0, 0, [], []⟩, ⟨1023, 4, 0, 0, 0, [], []⟩], true, none, 0⟩
    let s : State := { live with dsk := { live.dsk with gather := some g } }
    s.dsk.gather = some g ∧ (∀ q ∈ g.pairs, q.b < 1024) ∧ g.suspect = true ∧ { g with suspect := false }.suspect = false ∧ Reaches .host DSK_GCTL_start.addr s
      ∧ (2 : Word).getLsbD 0 = false ∧ Powered s ∧ 50 ≤ 50 := by dsimp only [Reaches, Powered]; decide

/-! ### Clocks -/

theorem witness_clockSource :
    let s := live.wr CLK_CFG_s_src_pend 1
    let r : State := { sets live [(CLK_STAT_ext_valid, 1), (CLK_CFG_s_src, 1)] with clk := { live.clk with fallback := true } }
    Reaches .host CLK_CFG_s_src.addr live ∧ (Powered s ∧ s.rd CLK_CFG_s_src_pend = 1 ∧ s.acqSt = 0 ∧ s.mode ≠ 0)
    ∧ Powered r ∧ r.clk.fallback = true ∧ r.rd CLK_STAT_ext_valid = 1 ∧ r.rd CLK_CFG_s_src = 1 ∧ r.acqSt = 0 ∧ r.mode ≠ 0 := by
  dsimp only [Powered, Reaches]; decide

theorem witness_externalClock :
    let s := live.wr CLK_STAT_s_src_act 1
    (Powered s ∧ live.rd CLK_STAT_s_src_act = 0 ∧ s.rd CLK_STAT_s_src_act = 1)
    ∧ ((s.wr CLK_CFG_ext_fallback 0).rd CLK_CFG_ext_fallback = 0 ∧ (s.wr CLK_CFG_ext_fallback 1).rd CLK_CFG_ext_fallback = 1)
    ∧ (s.clk.extSuspect = none ∧ s.clk.qualAt = none ∧ s.grid.run = true ∧ 1000 < (-1001 : Int).natAbs ∧ (2000 : Int).natAbs ≤ 2000)
    ∧ (s.rd CLK_STAT_ext_valid = 0 ∧ (s.wr CLK_STAT_ext_valid 1).rd CLK_STAT_ext_valid = 1 ∧ s.acqSt = 0)
    ∧ ((-1000 : Int).natAbs ≤ 1000 ∧ 800000 ≤ (s.wr CLK_EXT_CFG_freq 1250000).rd CLK_EXT_CFG_freq
      ∧ (s.wr CLK_EXT_CFG_freq 1250000).rd CLK_EXT_CFG_freq ≤ 1250000 ∧ 1250000 < (s.wr CLK_EXT_CFG_freq 1250001).rd CLK_EXT_CFG_freq
      ∧ (s.wr CLK_EXT_CFG_freq 799999).rd CLK_EXT_CFG_freq < 800000)
    ∧ s.lands = true ∧ scanned.lands = false ∧ s.mode ≠ 0 ∧ (s.wr GLB_STAT_active_mode 0).mode = 0
    ∧ s.rd CLK_CFG_ext_fallback = 1 ∧ s.clk.extSuspect = none := by
  dsimp only [Powered]; decide

theorem witness_adpllControl :
    let s := sets live [(CLK_x_CTL_en 2, 0), (CLK_x_BT_FREQ_valid 2 15, 1), (CLK_x_BT_FREQ_freq 2 15, 2000000)]
    let u := sets s [(CLK_x_STAT_state 2, 4), (CLK_x_STAT_bt_idx 2, 15)]
    (Reaches .host (CLK_x_CTL_en 2).addr s ∧ (0 : Word).getLsbD 1 = false ∧ s.rd (CLK_x_CTL_en 2) = 0 ∧ s.acqSt = 0 ∧ s.pllSt 2 ≠ 7
      ∧ (s.wr (CLK_x_STAT_state 2) 7).pllSt 2 = 7
      ∧ s.btFind 2 (s.rd (CLK_x_TARGET_freq 2)) = some 15)
    ∧ (live.btFind 0 (live.rd (CLK_x_TARGET_freq 0)) = none ∧ (live.pll 0).work = none ∧ (1 : Word).getLsbD 0 = true)
    ∧ (Reaches .host (CLK_x_BT_CODE_code 2 15).addr u ∧ Reaches .host (CLK_x_BT_FREQ_freq 2 15).addr u)
    ∧ (2 ≤ u.pllSt 2 ∧ u.pllSt 2 ≤ 5 ∧ (u.pll 2).useWork = false ∧ u.rd (CLK_x_STAT_bt_idx 2) = 15) ∧ ¬2 ≤ s.pllSt 2 := by
  dsimp only [Reaches]; decide

theorem witness_adpllStates :
    let s := live.wr (CLK_x_STAT_state 2) 1
    let full := (List.range 16).foldl (fun s i => sets s [(CLK_x_BT_FREQ_valid 2 i, 1), (CLK_x_BT_FREQ_pinned 2 i, 1)]) s
    let a := sets live [(CLK_x_STAT_state 2, 2), (CLK_x_BT_FREQ_preloaded 2 0, 1)]
    let q : State := { live.wr (CLK_x_STAT_state 2) 3 with clk := { live.clk with hopRun := some ⟨2, 1600000, false⟩ } }
    let f : State := { s with clk := { s.clk with m := { s.clk.m with fails := 3 } } }
    let g : State := { capturing 5 with clk := { live.clk with s := { live.clk.s with fails := 3 } } }
    (Powered s ∧ s.pllSt 2 = 1 ∧ (s.pll 2).miss = none ∧ s.btPlace 2 (s.rd (CLK_x_TARGET_freq 2)) = some 0)
    ∧ full.btPlace 2 (full.rd (CLK_x_TARGET_freq 2)) = none
    ∧ (a.pllSt 2 = 2 ∧ (a.pll 2).since + 2 * usF ≤ 2 * usF ∧ (a.pll 2).useWork = false
      ∧ a.rd (CLK_x_BT_FREQ_preloaded 2 (a.rd (CLK_x_STAT_bt_idx 2))) = 1 ∧ a.rd (CLK_x_STAT_bt_idx 2) < 16)
    ∧ (q.pllSt 2 = 3 ∧ (q.pll 2).since + 4 * usF ≤ 4 * usF ∧ q.clk.hopRun = some ⟨2, 1600000, false⟩ ∧ q.acqSt = 0)
    ∧ (f.pllSt 2 = 1 ∧ 3 ≤ (f.pll 2).fails) ∧ (g.wr (CLK_x_STAT_state 0) 1).pllSt 0 = 1 ∧ 3 ≤ (g.pll 0).fails ∧ g.acqSt = 5 := by
  dsimp only [Powered]; decide +kernel

theorem witness_hops :
    let s := live.wr CLK_HOP_FREQ_freq 1250000
    let h : State := { sets s [(CLK_x_CTL_en 0, 1)] with clk := { s.clk with hopWait := some ⟨0, 800000, false⟩ } }
    let g : State := { h with dsk := { h.dsk with gather := some ⟨0, 50, [], false, none, 0⟩ } }
    (Reaches .host CLK_HOP_start.addr s ∧ (1 : Word).getLsbD 1 = false ∧ (1 : Word).getLsbD 2 = false ∧ (1 : Word).toNat / 16 % 4 = 0)
    ∧ (800000 ≤ s.rd CLK_HOP_FREQ_freq ∧ s.rd CLK_HOP_FREQ_freq ≤ 1250000 ∧ s.rd CLK_STAT_s_src_act = 0
      ∧ ¬(live.wr CLK_HOP_FREQ_freq 1250001).rd CLK_HOP_FREQ_freq ≤ 1250000 ∧ (s.wr CLK_STAT_s_src_act 1).rd CLK_STAT_s_src_act = 1)
    ∧ (s.rd (CLK_x_CTL_en 0) = 0 ∧ h.rd (CLK_x_CTL_en 0) = 1 ∧ h.pllSt 0 ≠ 7 ∧ (h.wr (CLK_x_STAT_state 0) 7).pllSt 0 = 7)
    ∧ ((4 : Word).getLsbD 0 = false ∧ (4 : Word).getLsbD 1 = false ∧ (2 : Word).getLsbD 0 = false ∧ (2 : Word).getLsbD 2 = false)
    ∧ (g.clk.hopWait = some ⟨0, 800000, false⟩ ∧ g.dsk.gather ≠ none ∧ g.acqSt = 0)
    ∧ (Powered h ∧ h.clk.hopWait = some ⟨0, 800000, false⟩ ∧ h.acqSt = 0 ∧ h.mode ≠ 0 ∧ h.clk.hopRun = none ∧ h.dsk.gather = none) := by
  dsimp only [Powered, Reaches]; decide

theorem witness_lockLoss :
    let s := live.wr (CLK_x_STAT_state 1) 5
    let fails := fun j : Judge => s.rd CLK_LOCK_CFG_phase_thr < j.ps.natAbs ∨ j.atLimit = true ∨ j.atClamp = true
    let thr := s.rd CLK_LOCK_CFG_phase_thr
    Powered live ∧ (live.wr (CLK_x_STAT_state 1) 4).pllSt 1 = 4 ∧ live.inp.pchk = none ∧ s.pllSt 1 = 5 ∧ s.acqSt = 0
      ∧ (fails ⟨-(thr + 1 : Nat), false, false⟩ ∧ fails ⟨0, true, false⟩ ∧ fails ⟨0, false, true⟩ ∧ ¬fails ⟨(thr : Nat), false, false⟩)
      ∧ (live.wr (CLK_x_STAT_state 1) 3).pllSt 1 = 3 ∧ 1000 < (1001 : Int).natAbs ∧ live.pllSt 1 ≠ 3 ∧ (s.wr CLK_LOCK_CFG_hold_max 0).rd CLK_LOCK_CFG_hold_max = 0
      ∧ 2000 < (-2001 : Int).natAbs ∧ (2000 : Int).natAbs ≤ 2000
      ∧ (let h := s.wr CLK_LOCK_CFG_hold_max 3
         h.rd CLK_LOCK_CFG_hold_max ≠ 0 ∧ (h.pll 1).since + h.rd CLK_LOCK_CFG_hold_max * usF ≤ 3 * usF) := by dsimp only [Powered]; decide

theorem witness_tileDlls :
    let s := live.wr CLK_STAT_dll_lock 8
    let q : State := { live with clk := { live.clk with dllSuspect := [(3, 0)] } }
    let u : State := { s with grid := { s.grid with run := false }, clk := { s.clk with qualAt := some 5 } }
    (Powered s ∧ s.grid.run = true ∧ s.clk.qualAt = none ∧ (3 : Tile).val < s.nTiles ∧ bit (s.rd CLK_STAT_dll_lock) (3 : Tile).val = true ∧ s.rd CLK_STAT_dll_lock < 16)
    ∧ (∀ q ∈ s.clk.dllSuspect, q.1 ≠ (3 : Tile).val) ∧ ((3 : Tile).val, 0) ∈ q.clk.dllSuspect ∧ 0 + 20 * usF ≤ 20 * usF
    ∧ (q.rd CLK_STAT_s_src_act = 0 ∧ q.pllSt 0 ≠ 7 ∧ q.grid.run = true ∧ (q.wr CLK_STAT_s_src_act 1).rd CLK_STAT_s_src_act = 1)
    ∧ (u.grid.run = false ∧ u.clk.qualAt ≠ none ∧ (u.wr (CLK_x_STAT_gated 0) 0).srcRuns = true ∧ (3 : Tile).val < u.nTiles)
    ∧ (u.wr (CLK_x_STAT_gated 0) 1).srcRuns = false ∧ { u with clk := live.clk }.clk.qualAt = none
    ∧ ({ live with build := { live.build with variant := 3 } } : State).nTiles ≤ (3 : Tile).val
    ∧ bit (live.rd CLK_STAT_dll_lock) (3 : Tile).val = false ∧ ¬0 + 20 * usF ≤ 20 * usF - 1 := by dsimp only [Powered]; decide

/-! ### Trellis and Hedge -/

/-- Term 0 of the first branch of level 0 is always true, and the branch triggers and counts. -/
def trig : State :=
  sets (capturing 3) [(TRL_Ln_BRb_COND_en 0 0, 1), (TRL_Ln_BRb_COND_sel 0 0, 1), (TRL_Ln_TERMt_inv 0 0, 1),
    (TRL_Ln_BRb_ACT_trigger 0 0, 1), (TRL_Ln_BRb_ACT_ct_inc 0 0, 1), (TRL_Ln_BRb_ARG_ct_idx 0 0, 15)]

theorem witness_trellisSample :
    let c := trig.wr (TRL_Ln_BRb_ACT_trigger 0 0) 0
    let z := sets trig [(TRL_Ln_BRb_ACT_ct_inc 0 0, 0), (TRL_Ln_BRb_ACT_ct_clr 0 0, 1)]
    let at0 := fun s : State => State.trlTo 0 (State.upTo (s.grid.start 0) s)
    let s0 := at0 trig
    (Powered trig ∧ s0.trlRuns = true ∧ s0.trl.restart = none ∧ s0.trl.next ≤ 0
      ∧ s0.trlChain 0 4 (s0.rd TRL_STAT_level) = ([⟨0, 0, 0, 0x7FF, true⟩], 0)
      ∧ s0.rd (TRL_Ln_BRb_ARG_ct_idx 0 0) < 16 ∧ s0.on (TRL_Ln_BRb_ACT_ct_clr 0 0) = false ∧ s0.on (TRL_Ln_BRb_ACT_ct_inc 0 0) = true
      ∧ s0.on (TRL_Ln_BRb_ACT_trigger 0 0) = true)
    ∧ ((at0 c).trlRuns = true ∧ (at0 c).trlChain 0 4 ((at0 c).rd TRL_STAT_level) = ([⟨0, 0, 0, 0x7FF, true⟩], 0)
      ∧ (at0 c).on (TRL_Ln_BRb_ACT_trigger 0 0) = false)
    ∧ ((at0 z).trlRuns = true ∧ (at0 z).trlChain 0 4 ((at0 z).rd TRL_STAT_level) = ([⟨0, 0, 0, 0x7FF, true⟩], 0)
      ∧ (at0 z).on (TRL_Ln_BRb_ACT_ct_clr 0 0) = true ∧ (at0 z).on (TRL_Ln_BRb_ACT_ct_inc 0 0) = false)
    ∧ (let e := at0 (capturing 3)
       Powered (capturing 3) ∧ e.trlRuns = true ∧ e.trl.restart = none ∧ e.trl.next ≤ 0 ∧ (e.trlChain 0 4 (e.rd TRL_STAT_level)).1 = []) := by
  dsimp only [Powered]; decide +kernel

theorem witness_trellisInputs :
    let s : State := { live with trl := { live.trl with out := [(3, 9)] } }
    Powered s ∧ look s.trl.out (3 : Fin 4).val = some 9 ∧ live.mode ≠ 0 ∧ (3 : Fin 8).val < 4 ∧ bit live.trl.lvl (3 : Fin 8).val = false
      ∧ (live.wr (TRL_TMn_CFG_unit 15) 2).rd (TRL_TMn_CFG_unit 15) ≠ 0 ∧ live.lands = true ∧ scanned.lands = false
      ∧ Powered (live.wr GLB_STAT_active_mode 0) ∧ (live.wr GLB_STAT_active_mode 0).mode = 0 := by dsimp only [Powered]; decide

theorem witness_programChecks : Reaches .host TRL_CFG_check.addr live ∧ Reaches .host HDG_CTL_check.addr live ∧ live.acqSt = 0
    ∧ Reaches .host TRL_CFG_check.addr (capturing 4) ∧ (capturing 4).acqSt ≠ 0 := by dsimp only [Reaches]; decide

theorem witness_hedgeViolations :
    let s : State := { sets (capturing 3) [(HDG_CTL_en, 1), (HDG_MKn_CFG_en 63, 1), (HDG_MKn_CFG_req0 63, 1), (HDG_MKn_CFG_w0_en 63, 1),
        (HDG_MKn_CFG_ref_ch 63, 5), (HDG_MKn_SET_bits 63 0, 1), (HDG_MKn_W0B_value 63, 4), (HDG_MKn_HOR_value 63, 4)] with
      hdg := { live.hdg with rules := [(63, ⟨some 9, true, [], [], []⟩)] } }
    let e : State := { (capturing 5).wr ACQ_CFG_spill 1 with hdg := { live.hdg with tail := some 0 } }
    let s0 := State.upTo 13 s
    let e0 := State.upTo (10 ^ 9) e
    (Powered s ∧ s0.hdgRuns = true ∧ s0.on (HDG_MKn_CFG_en 63) = true ∧ s0.on (HDG_MKn_CFG_req0 63) = true ∧ s0.on (HDG_MKn_CFG_w0_en 63) = true
      ∧ s0.inRule 63 0 = true ∧ (s0.rule 63).ref = some 9 ∧ 9 + s0.rd (HDG_MKn_W0B_value 63) ≤ 13
      ∧ s0.rd (HDG_MKn_W0B_value 63) ≤ s0.rd (HDG_MKn_HOR_value 63) ∧ (s0.rule 63).w0.contains 0 = false ∧ (s0.rule 63).missed.contains 0 = false
      ∧ s0.unresTime 0 (9 + s0.rd (HDG_MKn_W0A_value 63)) (9 + s0.rd (HDG_MKn_W0B_value 63)) = false ∧ (s0.rule 63).acted = true)
    ∧ Powered e ∧ e0.tailStop = some 0 ∧ e0.armed = true ∧ e0.on ACQ_CFG_spill = true ∧ e0.posDone 0 (10 ^ 9) = true
    ∧ (let n : State := { e with acq := { e.acq with seg := none } }
       (State.upTo (10 ^ 9) n).acq.seg = none ∧ (State.upTo (10 ^ 9) n).tailStop = some 0 ∧ (State.upTo (10 ^ 9) n).armed = true) := by
  dsimp only [Powered]; decide +kernel

/-! ### Acquisition -/

/-- `live` as the arm checks ask it: clocks locked, deep memory initialised, a region and a segment. -/
def armable : State :=
  sets live [(CLK_x_STAT_state 0, 4), (CLK_x_STAT_state 1, 4), (CLK_x_STAT_state 2, 4), (CLK_x_STAT_gated 0, 0), (CLK_x_STAT_gated 2, 0),
    (DMC_STAT_init_done, 1), (CLK_STAT_dll_lock, 15), (ACQ_SEG_size, 64), (ACQ_REGION_SIZE_value, 64), (ACQ_POST_LO_value, 64), (ACQ_PRE_LO_value, 64)]

theorem armable_passes : (armable.advance 9).armFault = none ∧ ((armable.wr INP_PCHK_CTL_at_arm 1).advance 9).armFault = none := by decide +kernel

theorem witness_arms :
    let s := capturing 6
    let c := armable.wr INP_PCHK_CTL_at_arm 1
    (Reaches .host ACQ_CTL_arm.addr armable ∧ armable.acqSt = 0 ∧ armable.rd INP_PCHK_CTL_at_arm = 0)
    ∧ (Reaches .host ACQ_CTL_arm.addr c ∧ c.acqSt = 0 ∧ c.rd INP_PCHK_CTL_at_arm = 1) ∧
    (Reaches .host ACQ_CTL_arm.addr live ∧ (1 : Word).getLsbD 1 = false ∧ (1 : Word).getLsbD 2 = false ∧ Reaches .host ACQ_CTL_arm.addr s
      ∧ s.acqSt ≠ 0) ∧ live.acqSt = 0 ∧ ∃ x, (live.advance 9).armFault = some x := by
  dsimp only [Reaches]
  exact ⟨by decide, by decide, by decide, by decide, _, rfl⟩

theorem witness_hostTrigger :
    (Reaches .host ACQ_CTL_arm.addr live ∧ (4 : Word).getLsbD 0 = false ∧ (4 : Word).getLsbD 1 = false)
    ∧ (State.upTo 9 live).acqSt ≤ 1 ∧ 6 ≤ (State.upTo 9 (capturing 6)).acqSt
    ∧ (let r := { capturing 3 with grid := { live.grid with run := false } }
       (State.upTo 9 r).grid.run = false ∧ Reaches .host ACQ_CTL_arm.addr r)
    ∧ ∀ st ∈ [2, 3, 4, 5],
        let s0 := State.upTo 9 (capturing st)
        s0.acq.seg = some seg ∧ s0.grid.run = true ∧ s0.acqSt = st ∧ s0.acq.seen = none ∧ Reaches .host ACQ_CTL_arm.addr (capturing st) := by
  dsimp only [Reaches]; decide +kernel

theorem witness_prefillEnds :
    let s := capturing 2
    let r := sets (capturing 5) [(GLB_STAT_active_mode, 4), (ACQ_PRE_T_time, 1), (ACQ_PRE_LO_value, 1)]
    let s0 := State.upTo (10 ^ 9) s
    let r0 := State.upTo usF r
    (Powered s ∧ s0.acq.seg = some seg ∧ s0.acqSt = 2 ∧ s0.posDone (s0.fillP seg + s0.acqP) (10 ^ 9) = true ∧ seg.fillKt ≤ 10 ^ 9)
    ∧ Powered r ∧ r0.acq.seg = some seg ∧ r0.recordMode = true ∧ r0.rd ACQ_PRE_T_time ≠ 0 ∧ seg.fillKt + r0.rd ACQ_PRE_T_time * usF ≤ usF
    ∧ r0.posDone (r0.fillP seg + r0.acqP) usF = false ∧ r0.acqSt = 5 := by dsimp only [Powered]; decide +kernel

theorem witness_segmentEnds :
    let g : Seg := { seg with trig := some ⟨0, 2, false, 0⟩, trigPos := 0 }
    let s : State := { capturing 4 with acq := { live.acq with seg := some g } }
    let l := State.upTo (10 ^ 12) (s.wr ACQ_SEG_CNT_count 1)
    let h := State.upTo (10 ^ 12) { s with acq := { s.acq with held := [(0, 0)] } }
    let c := { sets s [(ACQ_CFG_spill, 1), (ACQ_SEG_size, 64), (ACQ_POST_LO_value, 10 ^ 6)] with acq := { s.acq with held := [] } }
    let s0 := State.upTo (10 ^ 12) s
    let c0 := State.upTo (10 ^ 12) c
    (Powered s ∧ s0.acq.seg = some g ∧ s0.acqSt = 4 ∧ s0.hdg.tail = none ∧ s0.on ACQ_CFG_spill = false ∧ (s0.postEnd g).isSome = true)
    ∧ (l.rd ACQ_SEG_CNT_count ≠ 0 ∧ l.rd ACQ_SEG_DONE_count + 1 = l.rd ACQ_SEG_CNT_count)
    ∧ (((s0.postEnd g).all fun e => s0.posDone e (10 ^ 12)) = true ∧ s0.on ACQ_CFG_wrap = false ∧ s0.rd ACQ_SEG_CNT_count = 0
      ∧ s0.placeHeld s0.acq.next = false ∧ h.placeHeld h.acq.next = true ∧ h.acq.seg = some g)
    ∧ (c0.acq.seg = some g ∧ c0.acqSt = 4 ∧ c0.on ACQ_CFG_spill = true ∧ c0.segCap ≠ 0
      ∧ ((c0.postEnd g).all fun e => decide (c0.segPos0 g e + c0.segCap < e) && c0.posDone (c0.segPos0 g e + c0.segCap) (10 ^ 12)) = true
      ∧ (c0.postEnd g).isSome = true) := by dsimp only [Powered]; decide +kernel

/-- A capture with an acquisition time-out of 1 µs. -/
def timed : State := (capturing 5).wr ACQ_TIMEOUT_LO_value 1

/-- The machine once every edge of a core cycle has been seen, as `StopsAndGaps` has it. -/
def coreCycle (k : Nat) (u : State) : State := State.edgesTo ((k / u.cnom + 1) * u.cnom) u.inp.hold.length u

/-- A capture in WAIT whose stop violation's tail ended at its first sample. -/
def tailed : State := { capturing 3 with hdg := { live.hdg with tail := some 0 } }

theorem witness_stops :
    (let h := coreCycle 9 (State.upTo 9 tailed)
     Reaches .host ACQ_CTL_arm.addr tailed ∧ 1 ≤ (State.upTo 9 tailed).acqSt ∧ (State.upTo 9 tailed).acqSt ≤ 5 ∧ h.hedgeFirst 3 9 = true)
    ∧ (coreCycle 9 (State.upTo 9 (capturing 1))).hedgeFirst 3 9 = false ∧ (coreCycle 9 (State.upTo 9 (capturing 5))).hedgeFirst 3 9 = false
    ∧ (coreCycle usF (State.upTo usF timed)).hedgeFirst 4 usF = false
    ∧ (Reaches .host ACQ_CTL_arm.addr (capturing 1) ∧ 1 ≤ (State.upTo 9 (capturing 1)).acqSt ∧ 1 ≤ (State.upTo 9 (capturing 5)).acqSt
      ∧ (State.upTo 9 (capturing 5)).acqSt ≤ 5 ∧ (3 : Word).getLsbD 0 = true
      ∧ (6 : Word).getLsbD 2 = true ∧ live.acqSt = 0)
    ∧ (Powered timed ∧ timed.acqTo ≠ 0 ∧ timed.acq.passKt = 0 ∧ timed.acq.lastTrig = 0 ∧ timed.acqTo * usF ≤ 10 ^ 13
      ∧ (State.upTo (timed.acqTo * usF) timed).acqSt = 5 ∧ Powered (capturing 6))
    ∧ (capturing 6).acqSt = 6 ∧ (capturing 6).siv.blks = [] ∧ (capturing 6).acq.defer = [] := by dsimp only [Powered, Reaches]; decide +kernel

theorem witness_storageGaps :
    let r : State := { capturing 5 with acq := { live.acq with gapFrom := some (0, 0), seg := some seg } }
    let s0 := State.upTo 9 (capturing 2)
    let r0 := State.upTo 9 r
    Powered (capturing 2) ∧ 2 ≤ s0.acqSt ∧ s0.acqSt ≤ 5 ∧ (3 : Tile).val < s0.nTiles ∧ s0.acq.gapFrom = none ∧ s0.grid.run = true
      ∧ Powered r ∧ r0.acqSt = 5 ∧ r0.acq.gapFrom = some (0, 0) := by dsimp only [Powered]; decide +kernel

/-! ### Reduction units, Sieve and the interval unit -/

theorem witness_reductionIntervals :
    let q := live.wr (RED_RUn_CFG_kind 7) 6
    let r : Ru := { Ru.idle with run := true, opened := true }
    let t := q.grid.start 1000
    let s := State.upTo t ((q.wr (RED_RUn_IVL_ivl 7) 1000).setRu 7 r)
    let f := State.upTo t ((q.wr (RED_RUn_IVL_ivl 7) 1000).setRu 7 { r with shut := true })
    (Powered q ∧ (s.ru 7).run = true ∧ ivlKind (s.rd (RED_RUn_CFG_kind 7)) = true ∧ s.grid.run = true ∧ (s.ru 7).nextPos = 0
      ∧ (s.ru 7).ivlPos = 0 ∧ s.rd (RED_RUn_IVL_ivl 7) = 1000 ∧ s.grid.posOf t = 1000)
    ∧ ((s.ru 7).shut = false ∧ (s.ru 7).opened = true ∧ s.redBad 7 0 (s.grid.start 1000) = false
      ∧ 8 + (s.ivlPayload 7 0 1000).length ≤ s.redCredit 7 (s.grid.start 1000)
      ∧ (s.ru 7).body.length + 8 + (s.ivlPayload 7 0 1000).length ≤ 65472 ∧ (s.ru 7).kt ≤ (s.ru 7).ivlKt ∧ (s.ru 7).ivlKt - (s.ru 7).kt < 2 ^ 48)
    ∧ (f.ru 7).run = true ∧ (f.ru 7).shut = true := by dsimp only [Powered]; decide +kernel

theorem witness_reductionBlocks :
    let s := (sets live [(RED_RUn_FLUSH_time 7, 1), (RED_RUn_SIZE_value 7, 1)]).setRu 7 { Ru.idle with run := true, opened := true, wofs := 1022 }
    let at0 := fun (s : State) (t : Nat) =>
      let a0 := State.upTo t s
      if a0.grid.run then a0.redUpTo 7 (a0.grid.posOf t) else a0
    let s0 := at0 s usF
    let w0 := at0 (s.wr (RED_RUn_CFG_wrap 7) 1) usF
    let g0 := at0 { s with grid := { s.grid with run := false } } usF
    (Powered s ∧ (s0.ru 7).opened = true ∧ s0.rd (RED_RUn_FLUSH_time 7) ≠ 0 ∧ (s0.ru 7).kt + s0.rd (RED_RUn_FLUSH_time 7) * usF ≤ usF)
    ∧ (cdiv (64 + (w0.ru 7).body.length) 64 ≤ 1024 - (w0.ru 7).wofs % 1024 ∧ (w0.ru 7).opened = true
      ∧ (w0.ru 7).wofs + cdiv (64 + (w0.ru 7).body.length) 64 = w0.rd (RED_RUn_SIZE_value 7) * 1024 ∧ w0.on (RED_RUn_CFG_wrap 7) = true)
    ∧ (let l := s0.setRu 7 { s0.ru 7 with wofs := 1021 }
       (l.ru 7).wofs + cdiv (64 + (l.ru 7).body.length) 64 < l.rd (RED_RUn_SIZE_value 7) * 1024)
    ∧ (g0.ru 7).opened = true ∧ Reaches .host RED_CTL_flush.addr s := by dsimp only [Powered, Reaches]; decide +kernel

/-- A Sieve block of tile 3 at position 0, in a lane or waiting. -/
def blk (lane : Option Nat) : SBlk := ⟨3, 0, 0, 256, 0, lane⟩

/-- Sieve with a block of tile 3, lane 31 enabled for it, and the region's pointer at a place. -/
def sieving (lane : Option Nat) (ptr : Nat) : State :=
  sets { live with siv := ⟨[], [blk lane], 0, none⟩ } [(SIV_LANEl_CFG_en 31, 1), (SIV_LANEl_CFG_tile 31, 3), (SIV_SIZE_value, 3), (SIV_WPTR_ptr, ptr)]

theorem witness_sieveBlocks :
    let o : State := { live with siv := ⟨[(3, 0)], [], 0, none⟩ }
    let s := sieving none 2047
    let f := sieving none 2048
    (Powered o ∧ look o.siv.nextPos (3 : Tile).val = some 0 ∧ o.grid.run = true ∧ o.grid.start (0 + 8) ≤ 10 ^ 9)
    ∧ (Powered s ∧ s.sivWaiting (3 : Tile).val = some (blk none) ∧ s.sivFreeLane (3 : Tile).val = some 31 ∧ s.on SIV_STAT_full = false
      ∧ 2 * usF ≤ (blk none).at_ + 2 * usF ∧ s.rd SIV_WPTR_ptr + 1025 ≤ s.sivUnits)
    ∧ (f.sivWaiting (3 : Tile).val = some (blk none) ∧ f.sivFreeLane (3 : Tile).val = some 31 ∧ f.on SIV_STAT_full = false
      ∧ f.sivUnits < f.rd SIV_WPTR_ptr + 1025 ∧ f.on SIV_CFG_wrap = false) ∧ (blk none).at_ + 2 * usF ≤ 2 * usF
    ∧ (s.siv.pre = none ∧ s.sivRoom = true ∧ f.sivRoom = false ∧ (f.wr SIV_CFG_wrap 1).on SIV_CFG_wrap = true
      ∧ (f.wr SIV_CFG_wrap 1).sivRoom = false)
    ∧ (let w : State := { (sieving none 2050).wr SIV_CFG_wrap 1 with siv := ⟨[], [blk none, blk (some 30)], 0, none⟩ }
       w.sivWaiting 3 = some (blk none) ∧ w.sivFreeLane 3 = some 31 ∧ w.sivRoom = false ∧ w.siv.pre = none ∧ w.sivWrap.sivRoom = true) := by
  dsimp only [Powered]; decide +kernel

theorem witness_sieveWrites :
    let s := sieving (some 31) 1025
    let p : State := { s with poison := [12 * 2 ^ 24], near := { s.near with fills := [⟨12, 4, 0, 256, 0⟩] } }
    2 * usF < 2 * usF + 1 ∧ Powered s ∧ s.siv.blks.find? (fun b => b.lane = some (31 : Fin 32).val) = some (blk (some 31))
      ∧ s.siv.pre = none ∧ look s.siv.nextPos (blk (some 31)).tile = none ∧ s.ringBad 3 0 (0 + 256) = []
      ∧ p.ringBad 3 0 (0 + 256) ≠ [] := by dsimp only [Powered]; decide +kernel

theorem witness_intervalTimes :
    let s : State := { live with tim := { live.tim with loss := [(4, ⟨0, 5, 1, false⟩)] } }
    let e : State := { s with acq := { s.acq with seg := some seg } }
    let g := (sets live [(TIM_SLOTn_CFG_en 63, 1), (TIM_STAT_running, 1), (TIM_SLOTn_GATE_gsrc 63, 7), (TIM_SLOTn_GATE_arg 63, 1)]).setSlot 63
      { Slot.idle with gateAt := some 7 }
    let b := g.setSlot 63 { Slot.idle with gateAt := some 7, bad := true }
    let n := g.wr (TIM_SLOTn_GATE_gsrc 63) 0
    let s0 := State.upTo (5 + usF + alignF) s
    let g0 := State.upTo (8 + usF + alignF) g
    let b0 := State.upTo (8 + usF + alignF) b
    let w0 : State := { g0 with tim := { g0.tim with written := [10 ^ 12] } }
    (Powered s ∧ look s0.tim.loss 4 = some ⟨0, 5, 1, false⟩ ∧ 5 + usF ≤ 5 + usF + alignF - alignF ∧ ¬5 + usF ≤ 4 + usF + alignF - alignF ∧ look s0.tim.loss 3 = none ∧ e.acq.seg ≠ none)
    ∧ (Powered g ∧ (g0.slot 63).gateAt = some 7 ∧ g0.slotOn 63 = true ∧ g0.rd (TIM_SLOTn_GATE_gsrc 63) = 7
      ∧ g0.on TIM_STAT_running = true ∧ 7 + g0.gateLen 63 < 8 + usF + alignF - alignF ∧ g0.tim.hold = [] ∧ g0.tim.wait = []
      ∧ g0.recAt (7 + g0.gateLen 63) ≤ g0.tmb.kt ∧ ¬w0.recAt (7 + w0.gateLen 63) ≤ w0.tmb.kt
      ∧ (g0.slot 63).bad = false ∧ (b0.slot 63).bad = true ∧ b0.slotOn 63 = true ∧ (b0.slot 63).gateAt = some 7)
    ∧ ((State.upTo 9 live).slot 5).gateAt = none ∧ (State.upTo 9 live).slotOn 5 = false ∧ (State.upTo 9 n).rd (TIM_SLOTn_GATE_gsrc 63) ≠ 7
    ∧ (let y : State := live.setSlot 63 { Slot.idle with starts := [⟨1, false, false, false⟩, ⟨2, false, false, false⟩] }
       ((State.upTo (2 ^ 55 + 1) y).slot 63).starts.length = 2 ∧ ¬2 ^ 55 + 1 < 1 + 2 ^ 55 ∧ 2 ^ 55 + 1 < 2 + 2 ^ 55) := by
  dsimp only [Powered]; decide +kernel

/-! ### Deep memory, Rake and BAR2 -/

theorem witness_dmcInitialisation :
    let c := live.wr DMC_STAT_clear_busy 1
    let s : State := { live with dmc := { live.dmc with initRun := true } }
    let l := s.wr DMC_STAT_retired 4
    (Reaches .host DMC_CTL_init.addr c ∧ c.on DMC_STAT_clear_busy = true)
    ∧ (Reaches .host DMC_CTL_init.addr live ∧ live.on DMC_STAT_clear_busy = false ∧ (4 : Word).getLsbD 0 = false ∧ (4 : Word).getLsbD 1 = false)
    ∧ (Powered s ∧ s.dmc.initRun = true ∧ (127 : Fin 128).val < s.nPc ∧ s.rd (DMC_PC_STAT_state 127) ≤ 1 ∧ s.pcActive 127 = true ∧ s.pcGone < 4
      ∧ s.isH2 = false ∧ l.pcActive 127 = true ∧ 4 ≤ l.pcGone) := by dsimp only [Powered, Reaches]; decide

theorem witness_hashApply :
    let n := live.wr (DMC_HASHn_LO_mask 0) 1
    (Reaches .host DMC_CTL_init.addr live ∧ (1 : Word).getLsbD 1 = false ∧ (1 : Word).getLsbD 2 = false)
    ∧ (Reaches .host DMC_CTL_init.addr (capturing 1) ∧ (capturing 1).acqSt ≠ 0)
    ∧ (n.acqSt = 0 ∧ (List.range 13).all n.hashOk = false) ∧ live.acqSt = 0 ∧ (List.range 13).all live.hashOk = true := by
  dsimp only [Reaches]; decide

theorem witness_retirement :
    let m := sets live [(DMC_MIG_busy, 1), (DMC_MIG_pc, 127)]
    let l := live.wr DMC_STAT_retired 4
    let h := live.wr DMC_RET_THR_thr 9
    let q : State := { m with dmc := { m.dmc with migQ := [3] } }
    let done : State := { m with dmc := { m.dmc with migRoom := 2 ^ 41 } }
    let near_ : State := { m with dmc := { m.dmc with migRoom := 2 ^ 41 - 1 } }
    (Reaches .host DMC_CTL_init.addr live ∧ DMC_CTL_key.of (0x5A3C0000 : Word).toNat = 0x5A3C
      ∧ live.pcActive (DMC_CTL_pc.of (0x5A3C0000 : Word).toNat) = true)
    ∧ (live.pcGone < 4 ∧ live.isH2 = false ∧ live.dmc.migQ = [] ∧ live.on DMC_MIG_busy = false) ∧ (m.pcGone < 4 ∧ m.on DMC_MIG_busy = true)
    ∧ 4 ≤ l.pcGone ∧ (DMC_CTL_key.of (0 : Word).toNat ≠ 0x5A3C ∧ (0 : Word).getLsbD 0 = false ∧ (0 : Word).getLsbD 2 = false)
    ∧ (Powered h ∧ (127 : Fin 128).val < h.nPc ∧ h.rd DMC_RET_THR_thr ≠ 0 ∧ h.rd DMC_RET_THR_thr < (⟨10, [0], 1⟩ : Second).symbols + (look h.dmc.sym 127).getD 0
      ∧ h.pcActive 127 = true ∧ (⟨10, [0], 1⟩ : Second).late ≠ 0 ∧ 0 ∈ (⟨10, [0], 1⟩ : Second).uncorr ∧ 0 < h.deepSize
      ∧ h.serving 0 < 128 ∧ 9 + (look h.dmc.sym 127).getD 0 ≤ h.rd DMC_RET_THR_thr ∧ (live.wr DMC_RET_THR_thr 0).rd DMC_RET_THR_thr = 0)
    ∧ (Powered m ∧ m.on DMC_MIG_busy = true ∧ m.rd DMC_MIG_pc < 128 ∧ m.dmc.migQ.head? ≠ some 127 ∧ m.dmc.migQ = [])
    ∧ 2 ^ 41 ≤ done.migRoomAt (max done.tmb.kt 0) ∧ done.on DMC_MIG_busy = true
    ∧ near_.migRoomAt (max near_.tmb.kt 0) < 2 ^ 41
    ∧ q.dmc.migQ = [3] ∧ q.dmc.migQ.head? ≠ some (q.rd DMC_MIG_pc) := by dsimp only [Powered, Reaches]; decide

theorem witness_rowsAndRefresh :
    let f := live.wr (DMC_PC_STAT_spares 127) 512
    let h := live.wr (DMC_TEMPs_hot 3) 1
    (Powered live ∧ (127 : Fin 128).val < live.nPc ∧ live.rd (DMC_PC_STAT_state 127) ≤ 1 ∧ (live.wr (DMC_PC_STAT_spares 127) 511).rd (DMC_PC_STAT_spares 127) < 512)
    ∧ (f.pcActive 127 = true ∧ 512 ≤ f.rd (DMC_PC_STAT_spares 127) ∧ f.pcGone < 4 ∧ f.isH2 = false ∧ f.dmc.migQ = [] ∧ f.on DMC_MIG_busy = false)
    ∧ live.refRuns 127 = true ∧ ((3 : Fin 4).val < live.nStacks ∧ live.mode ≠ 0)
    ∧ (live.on (DMC_TEMPs_hot 3) = false ∧ (85 * 16 : Int) < 85 * 16 + 1 ∧ (85 * 16 : Int) ≤ 85 * 16)
    ∧ h.on (DMC_TEMPs_hot 3) = true ∧ (83 * 16 - 1 : Int) < 83 * 16 ∧ (83 * 16 : Int) ≤ 83 * 16 := by dsimp only [Powered]; decide

theorem witness_rake :
    let s := sets live [(RAK_CTL_near_en, 1), (RAK_CTL_scr_en, 1)]
    let l : State := { s with rak := { s.rak with leases := [⟨2, 1023, 0, 65472, 64, 0⟩], nextAt := [(2, 1024)] } }
    let m : State := { l with rak := { l.rak with nextAt := [(2, 1023)] } }
    let a : State := { s with rak := { s.rak with nextAt := [(2, 1024)], again := [(2, 5)] } }
    (Powered s ∧ s.rakeRuns (0 : Fin 3).val = true ∧ s.rakeRuns 2 = true ∧ (look s.rak.nextAt 0).getD 0 < s.rakeRegions 0 ∧ (look s.rak.due 0).getD 0 ≤ 0
      ∧ (live.wr RAK_CTL_near_en 0).rakeRuns 0 = false ∧ (look [(0, 1)] 0).getD 0 ≤ 1 ∧ s.cells = [])
    ∧ ((⟨[], [], [], 2 * usF + 1⟩ : Leased).fails = [] ∧ 2 * usF < (⟨[], [], [], 2 * usF + 1⟩ : Leased).wait
      ∧ (⟨[(0, 3)], [], [], 0⟩ : Leased).fails ≠ [] ∧ (sets s [(RAK_CTL_deep_en, 1), (DMC_STAT_init_done, 1)]).rakeRuns (1 : Fin 3).val = true)
    ∧ (a.rakeRuns 2 = true ∧ a.rakeRegions 2 ≤ (look a.rak.nextAt 2).getD 0 ∧ a.rak.again.find? (fun x => x.1 = 2) = some (2, 5))
    ∧ (Powered l ∧ l.rak.leases.any (fun l => l.target = 2) = true ∧ l.rakeRegions 2 ≤ (look l.rak.nextAt 2).getD 0
      ∧ l.rak.again.any (fun x => x.1 = 2) = false ∧ (look m.rak.nextAt 2).getD 0 < m.rakeRegions 2) ∧ (2 : Fin 3).val ≠ 1
    ∧ live.rak.leases.any (fun l => l.target = 2) = false := by dsimp only [Powered]; decide

theorem witness_clearing :
    let n := live.wr NMC_STAT_clear_busy 1
    let d := live.wr DMC_STAT_clear_busy 1
    let w : State := { d with dmc := { d.dmc with initWait := true } }
    Powered n ∧ n.on NMC_STAT_clear_busy = true ∧ Powered d ∧ d.on DMC_STAT_clear_busy = true ∧ d.dmc.initWait = false
      ∧ w.dmc.initWait = true ∧ w.on DMC_STAT_clear_busy = true := by dsimp only [Powered]; decide

theorem witness_bar2 :
    let c := sets live [(DMC_STAT_clear_busy, 1), (NMC_STAT_clear_busy, 1)]
    let p : State := { live with dpoison := [64] }
    let b := live.wr HKS_BOOT_done 0
    (Powered live ∧ live.hrv.link.isSome = true ∧ live.mode ≠ 0 ∧ live.cells = [] ∧ p.bar2Poison (64 + 63) = true ∧ live.memServed = true
      ∧ (live.wr (CLK_x_STAT_gated 2) 1).memServed = false ∧ 2 * usF < 2 * usF + 1 ∧ ¬2 * usF < 2 * usF)
    ∧ (live.deepSize - 1 < live.deepSize ∧ live.on DMC_STAT_clear_busy = false ∧ live.on HKS_BOOT_done = true)
    ∧ (bar2Near ≤ bar2Near ∧ bar2Near + 2 ^ 28 - 1 < bar2Near + 2 ^ 28 ∧ live.on NMC_STAT_clear_busy = false)
    ∧ (c.hrv.link.isSome = true ∧ 0 < c.deepSize ∧ c.on DMC_STAT_clear_busy = true ∧ c.on NMC_STAT_clear_busy = true)
    ∧ (live.deepSize ≤ bar2Near + 2 ^ 28) ∧ b.on HKS_BOOT_done = false ∧ b.on DMC_STAT_clear_busy = false ∧ b.on NMC_STAT_clear_busy = false := by
  dsimp only [Powered]; decide

/-! ### Harvest -/

/-- `live` with Harvest on, descriptor ring 15 of 16 entries enabled for a source, completion ring 0 of 16 entries, and a ring state. -/
def ringed (src : Nat) (r : Ring) : State :=
  (sets { live with hrv := { live.hrv with bme := true } }
    [(HRV_CTL_en, 1), (HRV_RINGn_CFG_en 15, 1), (HRV_RINGn_CFG_size 15, 4), (HRV_RINGn_CFG_src 15, src), (HRV_RINGn_TAIL_idx 15, 8),
     (HRV_RINGn_CFG_flush 15, 1), (HRV_CQm_CFG_en 0, 1), (HRV_CQm_CFG_size 0, 4)]).setRing 15 r

/-- A descriptor of a COPY or of a follow buffer. -/
def desc (copy : Bool) (len : Nat) : Desc := ⟨0, 4096, len, 9, 0, true, copy, false⟩

/-- The bytes of a COPY descriptor of a length. -/
def descBytes (len : Nat) : List Byte := le 8 4096 ++ le 4 len ++ le 4 9 ++ le 8 0 ++ le 8 0

theorem witness_descriptors :
    let s := ringed 0 Ring.idle
    let m := ringed 0 { Ring.idle with q := List.replicate 7 (desc true 64) }
    (Reaches .host (HRV_RINGn_TAIL_idx 15).addr s ∧ Powered s ∧ s.ringRuns 15 = true ∧ (s.ring 15).q = [] ∧ s.ringEmpty 15 = false)
    ∧ ((s.rd (HRV_RINGn_HEAD_idx 15) + (s.ring 15).q.length) % s.ringSize 15 ≠ s.rd (HRV_RINGn_TAIL_idx 15) % s.ringSize 15
      ∧ s.descBad (decide (s.ringSrc 15 = 0)) (descBytes 64) = false ∧ s.descBad (decide (s.ringSrc 15 = 0)) (descBytes 63) = true
      ∧ s.cqFull (s.rd (HRV_RINGn_CFG_cq 15)) = false)
    ∧ (m.ringRuns 15 = true ∧ (m.ring 15).q.length < 8 ∧ (∀ d ∈ (m.ring 15).q, d.bad = false) ∧ (m.ring 15).q ≠ [] ∧ m.ringEmpty 15 = false
      ∧ (m.rd (HRV_RINGn_HEAD_idx 15) + (m.ring 15).q.length) % m.ringSize 15 ≠ m.rd (HRV_RINGn_TAIL_idx 15) % m.ringSize 15) := by
  dsimp only [Powered, Reaches]; decide

theorem witness_copyDescriptors :
    let s := ringed 0 { Ring.idle with q := [desc true 64, desc true 64] }
    let p : State := { s with dpoison := [0] }
    let f := s.wr (HRV_CQm_HEAD_idx 0) 1
    let e : State := { s with hrv := { s.hrv with cfg := [(4, 0x8000)] } }
    let i : State := { e with msxTab := [(3, 0)] }
    let k : State := { i with hrv := { i.hrv with cfg := [(4, 0xC000)] } }
    (Powered s ∧ s.ringRuns 15 = true ∧ (s.ring 15).q = [desc true 64, desc true 64] ∧ (desc true 64).copy = true ∧ (desc true 64).bad = false)
    ∧ (s.cqFull 0 = false ∧ s.rd (HRV_RINGn_CFG_cq 15) = 0 ∧ (s.ring 15).pois = none ∧ (∀ j, j < 1 → s.dpoison.contains (64 * j) = false)
      ∧ (State.bar2Errors 0 64 [] [] ((s.advance 9).migNow.nearSeen 0 64)).dpoison = [] ∧ bit (desc true 64).src 63 = false ∧ 2 * usF < 2 * usF + 1
      ∧ (State.bar2Errors 0 64 [] [0] ((s.advance 9).migNow.nearSeen 0 64)).dpoison.contains (0 + 64 * 0) = true)
    ∧ (p.ringRuns 15 = true ∧ p.dpoison.contains (0 + 64 * 0) = true) ∧ (f.ringRuns 15 = true ∧ f.cqFull 0 = true)
    ∧ (desc true 64).irq = true ∧ i.cfgBit .msix 15 = true ∧ i.msxMasked 0 = false ∧ i.ringRuns 15 = true
    ∧ e.cfgBit .msix 15 = true ∧ e.msxMasked 0 = true ∧ k.msxMasked 0 = true ∧ s.cfgBit .msix 15 = false ∧ s.cells = [] := by dsimp only [Powered]; decide

theorem witness_followBuffers :
    let r : Ring := { Ring.idle with q := [desc false 64], ended := false }
    let s : State := ringed 8 r
    let one : State := { s with hrv := { s.hrv with written := [(8, 2)] }, deep := ⟨none, [(2, 2)], []⟩ }
    let big := one.wr (RED_RUn_SIZE_value 0) 1
    let f := ringed 8 { r with firstAt := some 0 }
    let o : State := { big with hrv := { s.hrv with written := [(8, 1025)] } }
    let c : State := { ringed 1 r with acq := { live.acq with seg := some { seg with wofs := 1 } } }
    (Powered big ∧ (((big.advance 0).deliverOut).ring 15).q = [desc false 64] ∧ (desc false 64).copy = false ∧ (desc false 64).bad = false
      ∧ big.cqFull (big.rd (HRV_RINGn_CFG_cq 15)) = false ∧ ((big.advance 0).deliverOut).ringRuns 15 = true
      ∧ ((big.advance 0).deliverOut).nextRec 15 = some 0
      ∧ 64 < (((big.advance 0).deliverOut).ring 15).bytes + 64 * ((big.advance 0).deliverOut).recUnits (((big.advance 0).deliverOut).followAddr (((big.advance 0).deliverOut).ringSrc 15) 0))
    ∧ ((((s.advance 0).deliverOut).ring 15).q = [desc false 64] ∧ ((s.advance 0).deliverOut).nextRec 15 = none ∧ s.acqSt = 0
      ∧ (((s.advance 0).deliverOut).ring 15).ended = false ∧ ((s.advance 0).deliverOut).overrun 15 = false ∧ ((s.advance 0).deliverOut).ringRuns 15 = true)
    ∧ ((((f.advance usF).deliverOut).ring 15).firstAt = some 0 ∧ (((f.advance usF).deliverOut).ring 15).q = [desc false 64]
      ∧ f.rd (HRV_RINGn_CFG_flush 15) ≠ 0 ∧ 0 + f.rd (HRV_RINGn_CFG_flush 15) * usF ≤ usF)
    ∧ ((o.ring 15).q = [desc false 64] ∧ o.ringRuns 15 = true ∧ o.overrun 15 = true ∧ o.ringSrc 15 ≠ 1 ∧ (((o.advance 0).deliverOut).ring 15).q = [desc false 64])
    ∧ (c.ring 15).q = [desc false 64] ∧ c.ringRuns 15 = true ∧ c.nSegs = 0 ∧ c.overrun 15 = true ∧ c.ringSrc 15 = 1
      ∧ (((c.advance 0).deliverOut).ring 15).q = [desc false 64] := by dsimp only [Powered]; decide +kernel

theorem witness_ringControl :
    let s := ringed 0 { Ring.idle with q := [desc true 64] }
    let w := (ringed 0 { Ring.idle with q := [desc true 64, desc true 64], ready := some (1, 0, 0) })
    let q : State := { (live.wr (HRV_CQm_CFG_en 15) 1) with hrv := { live.hrv with cqs := [(15, ⟨1, 7⟩)] } }
    let z : State := { (q.wr HRV_CTL_en 1) with hrv := { q.hrv with bme := true, cfg := [(4, 0x8000)] } }
    let i : State := { z with msxTab := [(63, 0)] }
    let h : State := { s with hrv := { s.hrv with bme := false } }
    (Reaches .host (HRV_RINGn_CFG_en 15).addr s ∧ s.on (HRV_RINGn_CFG_en 15) = true ∧ (s.ring 15).q = [desc true 64]
      ∧ s.cqFull (s.rd (HRV_RINGn_CFG_cq 15)) = false)
    ∧ (Reaches .host (HRV_RINGn_CFG_en 15).addr live ∧ live.on (HRV_RINGn_CFG_en 15) = false ∧ (live.ring 15).q = [])
    ∧ (Reaches .host (HRV_CQm_HEAD_idx 0).addr w ∧ (w.ring 15).ready = some (1, 0, 0) ∧ (w.ring 15).q = [desc true 64, desc true 64]
      ∧ (∀ e ∈ [desc true 64], e.bad = false) ∧ (∀ k, k < 16 → k ≠ (15 : Fin 16).val → (w.ring k).ready = none)
      ∧ w.rd (HRV_RINGn_CFG_cq 15) = 0 ∧ w.on (HRV_CQm_CFG_en 0) = true
      ∧ (w.rd (HRV_CQm_TAIL_idx 0) + 1) % w.cqSize 0 ≠ (0 : Word).toNat % 2 ^ 16 % w.cqSize 0)
    ∧ (∀ n, n < 16 → (live.ring n).ready = none)
    ∧ (s.hrvRuns = true ∧ (h.ring 15).q = [desc true 64] ∧ h.hrvRuns = false ∧ h.on (HRV_RINGn_CFG_en 15) = true
      ∧ ((s.wr (HRV_CQm_HEAD_idx 0) 1).cqFull (s.rd (HRV_RINGn_CFG_cq 15))) = true ∧ w.hrvRuns = true)
    ∧ (live.cq 15).unsig = 0 ∧ q.hrvRuns = false
    ∧ (Powered z ∧ z.hrvRuns = true ∧ z.cfgBit .msix 15 = true ∧ i.msxMasked 15 = false ∧ z.msxMasked 15 = true)
    ∧ (Powered q ∧ (q.cq 15).unsig ≠ 0 ∧ (q.cq 15).oldest + q.rd (HRV_CQm_MOD_T_time 15) * usF ≤ 10 ^ 13 ∧ q.on (HRV_CQm_CFG_en 15) = true)
    ∧ 10 ^ 10 < (z.cq 15).oldest + (z.wr (HRV_CQm_MOD_T_time 15) 65535).rd (HRV_CQm_MOD_T_time 15) * usF := by dsimp only [Powered, Reaches]; decide

/-! ### The station port and Graft -/

theorem witness_stationAccess :
    let s := live.wr STP_CFG_en 1
    let b := s.wr NMC_STAT_clear_busy 1
    (Powered s ∧ s.on STP_CFG_en = true ∧ s.spBusy = false ∧ b.on STP_CFG_en = true ∧ b.spBusy = true ∧ s.stp.cmd = none)
    ∧ (windowBase - 1 < windowBase ∧ some 0x3FBF = some ((windowBase - 1) / 2) ∧ (none : Option Nat) ≠ some ((windowBase - 1) / 2))
    ∧ (0 < windowBase ∧ some 0 = some (0 / 2) ∧ s.scrBad 0 4 = false ∧ s.cells = []) ∧ windowBase ≤ windowBase ∧ windowBase ≤ 0x7FFF
    ∧ (1 : BitVec 16).toNat % 4 = 1 ∧ (2 : BitVec 16).toNat % 4 = 2 ∧ (3 : BitVec 16).toNat % 4 ≠ 1 ∧ (3 : BitVec 16).toNat % 4 ≠ 2 := by
  dsimp only [Powered]; decide

theorem witness_stationOff : (live.wr STP_CFG_en 0).on STP_CFG_en = false ∧ (scanned.wr STP_CFG_en 1).lands = false
    ∧ (live.wr STP_CFG_en 1).lands = true := by decide

theorem witness_stationWindow :
    let r : State := { sets live [(STP_CFG_en, 1), (STP_CFG_ind_en, 1), (STP_SW_ADDR_LO_addr, STP_IRQ_EN_en.addr % 65536), (STP_SW_ADDR_HI_addr, STP_IRQ_EN_en.addr / 65536)]
                       with stp := { live.stp with cmd := some false } }
    let w : State := { r with stp := { live.stp with cmd := some true } }
    let c := r.wr STP_CFG_ind_en 0
    (Powered r ∧ r.stp.cmd = some false ∧ r.coreRun = true ∧ r.windowOpen r.windowAddr = true ∧ r.trl.restart = none)
    ∧ r.cells = [] ∧ (w.stp.cmd = some true ∧ w.windowOpen w.windowAddr = true ∧ w.windowAddr = STP_IRQ_EN_en.addr)
    ∧ c.stp.cmd = some false ∧ c.coreRun = true ∧ c.windowOpen c.windowAddr = false := by dsimp only [Powered]; decide

/-- `live` with GL3 in a state. -/
def port3 (st : Nat) : State := live.wr (GRF_GLn_STAT_state 3) st

theorem witness_triggerMessages :
    let s := port3 2
    let own := sets s [(GRF_UNIT_ID_valid, 1), (GRF_UNIT_ID_id, 7), (GRF_GLn_STAT_peer_valid 3, 1), (GRF_GLn_STAT_peer 3, 7)]
    let d : State := { s with grf := { s.grf with seen := [(4095, 255, 0)] } }
    let f := sets s [(GRF_GLn_CFG_fwd 3, 1), (GRF_GLn_STAT_state 0, 2), (GRF_CFG_max_hop, 5)]
    (Powered s ∧ s.portUp 3 = true ∧ (port3 1).portUp 3 = false ∧ ¬(s.on GRF_UNIT_ID_valid = true))
    ∧ (own.portUp 3 = true ∧ own.on GRF_UNIT_ID_valid = true ∧ own.on (GRF_GLn_STAT_peer_valid 3) = true
      ∧ own.rd (GRF_GLn_STAT_peer 3) = own.rd GRF_UNIT_ID_id)
    ∧ (d.portUp 3 = true ∧ ¬(d.on GRF_UNIT_ID_valid = true) ∧ d.grfDup 4095 255 (10 * usF) = true ∧ d.grfDup 4095 255 (10 * usF + 1) = false)
    ∧ (let h := sets s [(GRF_GLn_CFG_fwd 3, 1), (GRF_CFG_max_hop, 5)]
       h.fwdPorts 3 = [0] ∧ h.portUp 0 = false ∧ (3 : Fin 16).val + 1 < h.rd GRF_CFG_max_hop ∧ h.portUp 3 = true)
    ∧ (s.grfDup 4095 255 0 = false ∧ s.fwdPorts 3 = [] ∧ s.trlRuns = false ∧ ((capturing 3).wr (GRF_GLn_STAT_state 3) 2).trlRuns = true)
    ∧ (f.fwdPorts 3 = [0] ∧ f.rd GRF_CFG_max_hop ≤ (4 : Fin 16).val + 1 ∧ (3 : Fin 16).val + 1 < f.rd GRF_CFG_max_hop ∧ f.portUp 0 = true
      ∧ (f.gport 0).starts = [] ∧ f.grfDup 4095 255 0 = false) := by dsimp only [Powered]; decide

theorem witness_syncFrames :
    let a : State := { port3 1 with grf := { live.grf with ports := [(3, { portNew with good := 14 })] } }
    let b : State := { port3 1 with grf := { live.grf with ports := [(3, { portNew with good := 15 })] } }
    let d := sets a [(GRF_UNIT_ID_valid, 1), (GRF_UNIT_ID_id, 4095)]
    Powered live ∧ live.rd (GRF_GLn_STAT_state 3) = 0 ∧ (a.rd (GRF_GLn_STAT_state 3) = 1 ∧ (a.gport 3).good + 1 < 16)
      ∧ (b.rd (GRF_GLn_STAT_state 3) = 1 ∧ 16 ≤ (b.gport 3).good + 1) ∧ ¬(a.on GRF_UNIT_ID_valid = true)
      ∧ (d.on GRF_UNIT_ID_valid = true ∧ (4095 : Fin 4096).val = d.rd GRF_UNIT_ID_id) ∧ (port3 2).rd (GRF_GLn_STAT_state 3) = 2
      ∧ live.lands = true ∧ scanned.lands = false := by
  dsimp only [Powered]; decide

theorem witness_frameDiscard :
    (Powered (port3 1) ∧ (port3 1).rd (GRF_GLn_STAT_state 3) ≠ 0 ∧ (port3 1).lands = true ∧ frameOk 1 2 = false ∧ ¬(1 % 16 = 2 ∧ 2 < 4))
    ∧ (live.rd (GRF_GLn_STAT_state 3) = 0 ∧ (2 % 16 = 2 ∧ 3 < 4)) := by dsimp only [Powered]; decide +kernel

theorem witness_graftPorts :
    let s : State := { port3 1 with grf := { live.grf with ports := [(3, { portNew with syncAt := some 0 })] } }
    (Powered s ∧ s.rd (GRF_GLn_STAT_state 3) ≠ 0 ∧ (s.gport 3).syncAt = some 0 ∧ usF - 1 < 0 + usF ∧ 0 + usF ≤ usF)
    ∧ ((port3 1).gport 3).syncAt = none
    ∧ (live.rd (GRF_GLn_STAT_state 3) = 0 ∧ frameOk (withCrc 14 (trigBits 0 0 0 0 false 0) false) 2 = true ∧ frameOk 0 2 = false
      ∧ (0 % 16 ≠ 2) ∧ (2 % 16 = 2 ∧ 3 < 4)) ∧ Reaches .host (GRF_GLn_CFG_en 3).addr live
    ∧ (port3 2).portUp 3 = true ∧ (port3 1).portUp 3 = false ∧ (port3 2).pwr.dead = false
    ∧ (port3 2).hks.rails = true ∧ ((port3 2).gport 3).okAt = 0 ∧ 0 + 4 * usF ≤ 4 * usF ∧ 4 * usF - 1 < 0 + 4 * usF := by dsimp only [Powered, Reaches]; decide +kernel

/-! ### Start-up, the sequencer and the configuration memory -/

/-- `live` with the main rails off. -/
def off (l : List (Fld × Nat)) (p : Pwr) : State := sets { live with hks := { live.hks with rails := false, step := 0 }, pwr := p } l

theorem witness_holdUp :
    let n := off [] { live.pwr with offAt := some 0 }
    let e : State := { n with tmb := { n.tmb with kt := 30 * secF } }
    let o := off [] { live.pwr with offAt := some 0, lostAt := some 5 }
    (e.pwr.dead = false ∧ e.hks.rails = false ∧ e.feedOk 0 = false ∧ e.feedOk 1 = false ∧ e.feed 0 ≠ 7 ∧ e.feed 1 ≠ 7)
    ∧ e.pwr.lostAt.getD 0 + holdUpF (e.pwr.lostAt.getD 0) ≤ e.tmb.kt
    ∧ o.pwr.dead = false ∧ o.tmb.kt < o.pwr.lostAt.getD 0 + holdUpF (o.pwr.lostAt.getD 0) := by
  refine ⟨by decide, ?_, by decide, ?_⟩
  · show 0 + holdUpF 0 ≤ 30 * secF
    unfold holdUpF
    split <;> omega
  · show 0 < 5 + holdUpF 5
    omega

theorem witness_powerUps :
    let a := off [(PWR_STAT_a_state, 1)] live.pwr
    let q := off [(PWR_STAT_a_state, 7)] live.pwr
    let b := off [(PWR_STAT_b_state, 1), (PWR_STAT_active, 1)] { live.pwr with offAt := some 0, cause := 1 }
    let n := off [] { live.pwr with offAt := some 0 }
    let h := off [(PWR_STAT_b_state, 1), (PWR_STAT_active, 1), (PWR_THERM_CFG_restart, 1), (TMB_TEMP_temp, 80 * 16 - 1)] { live.pwr with offAt := some 5, seqAt := some 0, cause := 2 }
    let k := { h with pwr := { h.pwr with absent := true } }
    (live.pwr.dead = false ∧ ({ live with pwr := { live.pwr with dead := true } } : State).pwr.dead = true)
    ∧ (a.pwr.dead = false ∧ a.hks.rails = false ∧ a.pwr.offAt = none ∧ a.feed (a.rd PWR_STAT_active) = 1 ∧ q.feed (q.rd PWR_STAT_active) = 7)
    ∧ (b.pwr.dead = false ∧ b.hks.rails = false ∧ b.pwr.offAt ≠ none ∧ b.anyGood = true ∧ b.bbx.dumping = false ∧ b.pwr.cause ≤ 1)
    ∧ (n.pwr.dead = false ∧ n.hks.rails = false ∧ n.pwr.offAt ≠ none ∧ n.anyGood = false)
    ∧ (h.pwr.dead = false ∧ h.hks.rails = false ∧ h.pwr.offAt ≠ none ∧ 2 ≤ h.pwr.cause ∧ h.on PWR_THERM_CFG_restart = true
      ∧ (h.pwr.seqAt.getD 0) + 60 * secF ≤ 60 * secF ∧ h.rdS TMB_TEMP_temp < 80 * 16 ∧ h.anyGood = true ∧ h.bbx.dumping = false)
    ∧ (h.pwr.absent = false ∧ k.pwr.absent = true ∧ (k.wr PWR_THERM_CFG_restart 0).on PWR_THERM_CFG_restart = false)
    ∧ (n.feedOk 0 = false ∧ n.feedOk 1 = false ∧ n.feed 0 ≠ 7 ∧ n.feed 1 ≠ 7) ∧ a.feedOk 0 = true ∧ live.hks.rails = true := by decide

/-- The start of an image of the shortest length, 64 bytes of header and an END, for any variant, without its CRC. -/
def rawImage (tail : List Byte) : List Byte :=
  [0x4B, 0x4D, 0x54, 0x43, 0, 1, 15, 0] ++ le 4 68 ++ le 4 64 ++ le 4 65536 ++ le 4 0 ++ List.replicate 40 0 ++ tail

/-- The image with its CRC. -/
def image : List Byte := rawImage [0, 0, 0, 0x80] |>.take 20 |> (· ++ le 4 (crc32c (rawImage [0, 0, 0, 0x80])) ++ (rawImage [0, 0, 0, 0x80]).drop 24)

/-- `live` in step 4 of start-up with bytes in the configuration memory. -/
def loading (sigN : Bool) (bs : List Byte) : State :=
  { live with hks := { live.hks with step := 4, sigN := sigN, keyBit := true }, nv := Mem.write ⟨none, [], []⟩ 0 bs }

theorem witness_imageChecks :
    let s := loading true image
    let k := loading false image
    let w : State := { k with hks := { k.hks with keyBit := false } }
    let img := s.nv.bytes 0 (field (s.nv.bytes 0 64) 8 4)
    (Powered s ∧ s.hks.step = 4 ∧ s.lands = true ∧ ({ s with jtg := { s.jtg with drive := 3 } } : State).lands = false
      ∧ s.headerErr (s.nv.bytes 0 64) (2 ^ 28) = none ∧ crc32c (zeroed 20 4 img) = field (s.nv.bytes 0 64) 20 4
      ∧ s.hks.sigN = true)
    ∧ (s.headerErr (s.nv.bytes 0 64) 0 = some 1 ∧ s.headerErr (s.nv.bytes 0 64) (2 ^ 17) = none
      ∧ s.headerErr (s.nv.bytes 0 64) (2 ^ 17 - 1) = some 6)
    ∧ (let c := loading true (rawImage [0, 0, 0, 0x80]); Powered c ∧ c.hks.step = 4 ∧ c.headerErr (c.nv.bytes 0 64) (2 ^ 17) = none
       ∧ crc32c (zeroed 20 4 (c.nv.bytes 0 (field (c.nv.bytes 0 64) 8 4))) ≠ field (c.nv.bytes 0 64) 20 4)
    ∧ (Powered k ∧ k.hks.step = 4 ∧ k.hks.sigN = false ∧ (k.nearPut imageBase img).keyHash = some (2, List.replicate 48 0) ∧ signErr img (List.replicate 48 0) = some 0x0B)
    ∧ (Powered w ∧ w.hks.step = 4 ∧ (w.nearPut imageBase img).keyHash = none) ∧ s.hks.stepAt + 2 * secF ≤ 2 * secF ∧ 2 * secF - 1 < s.hks.stepAt + 2 * secF := by
  dsimp only [Powered]; decide +kernel

/-- A signed image passes exactly where the key's hash is the one held and the signature verifies; by FIPS 186-5 (R379). -/
theorem signErr_none (img key : List Byte) (h : imageSigned img = true) (hk : digest (sliceB img 64 97) = key)
    (hv : ecdsaVerify (sliceB img 64 97) (sha384 (zeroed 192 96 (zeroed 20 4 img))) (sliceB img 192 96) = true) :
    signErr img key = none := by
  unfold signErr
  simp [h, hk, hv]

/-- The conditions that `ScriptOperations` sets, for one operation. -/
def runs (s : State) (op : Nat) : Bool :=
  match s.ready with
  | some k => !s.pwr.dead && s.hks.rails && (s.fetchErr k).isNone && s.opReach k && s.scriptOp k = op
  | none => false

/-- The running script. -/
def script (kind len : Nat) : Script := ⟨kind, 0, 0, len, none, none⟩

theorem witness_scriptWrites :
    let irq := scripted 8 [0x10000000 + STP_IRQ_EN_en.addr, 1, 3]
    let odd := scripted 8 [0x10000001, 1, 3]
    let bar := scripted 8 [0x10000000 + GLB_RST_key.addr, 1, 3]
    (runs irq 1 = true ∧ irq.ready = some (script 8 3) ∧ irq.argAddr (script 8 3) = STP_IRQ_EN_en.addr ∧ irq.opWords (script 8 3) = 3
      ∧ irq.argAddr (script 8 3) % 4 = 0)
    ∧ (runs odd 1 = true ∧ odd.argAddr (script 8 3) % 4 ≠ 0)
    ∧ runs bar 1 = true ∧ bar.argAddr (script 8 3) % 4 = 0 ∧ bar.opWords (script 8 3) = 3 ∧ bar.barred (script 8 3) (bar.argAddr (script 8 3)) = true := by
  decide +kernel

theorem witness_scriptModifies :
    let r := scripted 9 [0x20000000 + STP_IRQ_EN_en.addr, 1, 1]
    let b := scripted 9 [0x20130060, 1, 1]
    let p := scripted 9 [0x30000010, 1, 1, 1]
    let z := scripted 9 [0x30000010, 1, 1, 0]
    let w := scripted 9 [0x40FFFFFF]
    (runs r 2 = true ∧ r.argAddr (script 9 3) % 4 = 0 ∧ r.barred (script 9 3) (r.argAddr (script 9 3)) = false)
    ∧ (runs b 2 = true ∧ b.barred (script 9 3) (b.argAddr (script 9 3)) = true)
    ∧ (runs p 3 = true ∧ p.arg (script 9 4) 3 % 2 ^ 24 ≠ 0 ∧ p.argAddr (script 9 4) % 4 = 0)
    ∧ (runs z 3 = true ∧ z.arg (script 9 4) 3 % 2 ^ 24 = 0)
    ∧ (runs (scripted 9 [0x30000011, 1, 1, 1]) 3 = true ∧ (scripted 9 [0x30000011, 1, 1, 1]).argAddr (script 9 4) % 4 ≠ 0)
    ∧ runs w 4 = true ∧ w.cells = [] ∧ w.rak.leases = []
    ∧ (let g := w.wr (CLK_x_STAT_gated 1) 1
       g.ready = some (script 9 1) ∧ g.fetchErr (script 9 1) = none ∧ g.opReach (script 9 1) = true)
    ∧ (let g := r.wr (CLK_x_STAT_gated 1) 1
       Powered g ∧ g.ready = some (script 9 3) ∧ g.fetchErr (script 9 3) = none ∧ g.opReach (script 9 3) = false) := by
  dsimp only [Powered]
  decide +kernel

theorem witness_scriptBranches :
    let v := scripted 9 [0x50020000, 0x80000000]
    let y := scripted 9 [0x50020001, 0x80000000]
    let l := scripted 9 [0x50020002, 0x80000000]
    let b := scripted 9 [0x60000010, 0xFFFFFFFF, 0, 1, 0x80000000]
    let x := scripted 9 [0x60000010, 0xFFFFFFFF, 0, 2, 0x80000000]
    let o := scripted 9 [0x60000011, 0xFFFFFFFF, 0, 2, 0x80000000]
    (runs v 5 = true ∧ runs y 5 = true ∧ bit (y.arg (script 9 2) 0 / 2 ^ 16 % 16) y.build.variant = true ∧ y.arg (script 9 2) 0 % 2 ^ 16 = 1 ∧ 0 + 1 + 1 ≤ 2)
    ∧ (runs l 5 = true ∧ bit (l.arg (script 9 2) 0 / 2 ^ 16 % 16) l.build.variant = true ∧ 2 < 0 + 1 + l.arg (script 9 2) 0 % 2 ^ 16)
    ∧ (runs b 6 = true ∧ b.argAddr (script 9 5) % 4 = 0 ∧ ((((b.advance 0).fetched (script 9 5)).regRead (b.argAddr (script 9 5))).1 &&& b.arg (script 9 5) 1) ≠ b.arg (script 9 5) 2
      ∧ bit (b.arg (script 9 5) 0) 26 = false ∧ b.arg (script 9 5) 3 % 2 ^ 16 = 1 ∧ 0 + 4 + 1 ≤ 5)
    ∧ (runs x 6 = true ∧ 5 < 0 + 4 + x.arg (script 9 5) 3 % 2 ^ 16) ∧ runs o 6 = true ∧ o.argAddr (script 9 5) % 4 ≠ 0 := by decide +kernel

theorem witness_scriptCalls :
    let n := scripted 8 [0x7700FF00, 0]
    let b := scripted 8 [0x7100FEFC, 1, 0x80000000]
    let e := scripted 8 [0x7100FEFC, 1, 0x40000000]
    let o := scripted 8 [0x7100FF00, 1, 0x80000000]
    (runs n 7 = true ∧ n.arg (script 8 2) 0 / 2 ^ 24 % 16 = 7 ∧ n.arg (script 8 2) 1 % 2 ^ 16 = 0 ∧ n.arg (script 8 2) 0 % 2 ^ 16 = 0xFF00)
    ∧ (runs b 7 = true ∧ b.arg (script 8 3) 0 / 2 ^ 24 % 16 = 1 ∧ b.arg (script 8 3) 0 % 2 ^ 16 + 4 * 1 ≤ 0xFF00 ∧ b.arg (script 8 3) 2 = endWord)
    ∧ (runs e 7 = true ∧ e.arg (script 8 3) 2 ≠ endWord) ∧ (runs o 7 = true ∧ 0xFF00 < o.arg (script 8 3) 0 % 2 ^ 16 + 4 * 1)
    ∧ (runs (scripted 9 [0x7700FF00, 0]) 7 = true ∧ runs (scripted 8 [0x7000FF00, 0]) 7 = true ∧ runs (scripted 8 [0x7800FF00, 0]) 7 = true)
    ∧ runs (scripted 8 [0x80000000]) 8 = true ∧ runs (scripted 9 [0x80000000]) 8 = true := by decide +kernel

theorem witness_scriptWaits :
    let p := fun (v : Nat) (c : Bool) => ({ live with hks := { live.hks with script := some ⟨9, 0, 0, 4, none, some (0, 0xFFFFFFFF, v, 100, c)⟩ } } : State)
    let w : State := { live with hks := { live.hks with script := some ⟨9, 0, 0, 4, some 100, none⟩ } }
    ((Powered (p 0 true) ∧ (p 0 true).hks.script = some ⟨9, 0, 0, 4, none, some (0, 0xFFFFFFFF, 0, 100, true)⟩ ∧ (p 0 true).scriptReach 0 = true
        ∧ ((p 0 true).wr (CLK_x_STAT_gated 1) 1).scriptReach 0x50000 = false)
      ∧ (p 0 false).hks.script = some ⟨9, 0, 0, 4, none, some (0, 0xFFFFFFFF, 0, 100, false)⟩)
    ∧ (((((p 0x4B4D0101 true).advance 100).regRead 0).1 &&& 0xFFFFFFFF) = 0x4B4D0101 ∧ ((((p 0 false).advance 100).regRead 0).1 &&& 0xFFFFFFFF) ≠ 0)
    ∧ (Powered w ∧ w.hks.script = some ⟨9, 0, 0, 4, some 100, none⟩ ∧ w.mode ≠ 0 ∧ (w.wr GLB_STAT_active_mode 0).mode = 0) := by dsimp only [Powered]; decide +kernel

theorem witness_sequencerStarts :
    let s := sets live [(HKS_STAT_pending, 64), (HKS_EVSCRe_bound 7, 1)]
    let b : State := { live with hks := { live.hks with runReq := some 0 } }
    let a : State := { armable with hks := { armable.hks with armBoot := true } }
    let w : State := { armable with hks := { armable.hks with armWake := true } }
    let r : State := { (live.wr CLK_STAT_dll_lock 15) with hks := { live.hks with armWake := true, armBoot := true } }
    (Powered s ∧ s.seqFree = true ∧ s.coreRun = true ∧ (s.wr (CLK_x_STAT_gated 1) 1).coreRun = false ∧ s.nextEvent = some 6 ∧ s.on (HKS_EVSCRe_bound 7) = true ∧ (s.wr (HKS_EVSCRe_bound 7) 0).on (HKS_EVSCRe_bound 7) = false)
    ∧ (Reaches .host HKS_RUN_start.addr live ∧ live.hks.runReq = none ∧ (live.hks.script.map Script.kind) ≠ some 9 ∧ b.hks.runReq ≠ none)
    ∧ (Reaches .host HKS_WDG_FEED_key.addr live ∧ (0x6B1D0000 : Word).toNat / 2 ^ 16 = 0x6B1D ∧ Port.host ≠ .script ∧ (0x6B1C0000 : Word).toNat / 2 ^ 16 ≠ 0x6B1D
      ∧ Reaches .script HKS_WDG_FEED_key.addr (scripted 9 [0]))
    ∧ (Powered a ∧ a.seqFree = true ∧ a.rd HKS_STAT_pending = 0 ∧ a.hks.runReq = none ∧ a.acqSt = 0 ∧ a.hks.armBoot = true ∧ a.on GLB_STAT_mode_pend = false
      ∧ a.on HKS_CFG_arm_boot = false ∧ (a.wr HKS_CFG_arm_boot 1).on HKS_CFG_arm_boot = true ∧ a.mode ≠ 7 ∧ a.rd INP_PCHK_CTL_at_arm = 0)
    ∧ (({ a.advance 9 with hks := { a.hks with armBoot := false } } : State).armFault = none ∧ w.hks.armWake = true ∧ w.dllsUp = true
      ∧ ({ w.advance 9 with hks := { w.hks with armWake := false } } : State).armFault = none)
    ∧ (r.dllsUp = true ∧ (({ r.advance 9 with hks := { r.hks with armWake := false } } : State).armFault).isSome = true
      ∧ (({ r.advance 9 with hks := { r.hks with armBoot := false } } : State).armFault).isSome = true) := by
  dsimp only [Powered, Reaches]; decide +kernel

theorem witness_configurationMemory :
    let s := live.wr HKS_NV_ADDR_addr 0xFFFFFFF
    let b := live.wr HKS_NV_CTL_busy 1
    let o := fun (op : Nat) => ({ live with hks := { live.hks with nvOp := some (op, 0, 0), nvSize := 256 } } : State)
    let p : State := { o 2 with hks := { (o 2).hks with nvPage := List.replicate 256 1 } }
    (Reaches .host HKS_NV_CTL_op.addr s ∧ (∀ op ∈ [1, 2, 3, 4], (s.wr HKS_NV_CTL_bbx_ok 0).nvRefused op (s.rd HKS_NV_ADDR_addr) = false))
    ∧ (Reaches .host HKS_NV_CTL_op.addr b ∧ (∀ op ∈ [1, 2, 3, 4], (b.wr HKS_NV_CTL_bbx_ok 0).nvRefused op (b.rd HKS_NV_ADDR_addr) = true))
    ∧ (Powered (o 1) ∧ (o 1).hks.nvOp = some (1, 0, 0) ∧ (o 4).hks.nvOp = some (4, 0, 0) ∧ (o 1).mode ≠ 0 ∧ 255 < (o 1).hks.nvSize ∧ live.hks.nvSize = 0
      ∧ (o 1).lands = true ∧ scanned.lands = false ∧ ((o 1).wr GLB_STAT_active_mode 0).mode = 0)
    ∧ p.hks.nvPage.length = 256 ∧ p.hks.nvOp = some (2, 0, 0) ∧ 0 + 5 * secF ≤ 5 * secF ∧ 5 * secF - 1 < 0 + 5 * secF := by
  dsimp only [Powered, Reaches]; decide +kernel

/-! ### Supplies -/

/-- `live` on feed A, both feeds in a state, with hidden supply state. -/
def fed (a b : Nat) (p : Pwr) : State := sets { live with pwr := p } [(PWR_STAT_a_state, a), (PWR_STAT_b_state, b), (PWR_STAT_active, 0)]

theorem witness_feedStates :
    let s := fed 1 1 live.pwr
    let n := fed 1 3 live.pwr
    let z := fed 0 0 live.pwr
    let o : State := { z with hks := { z.hks with rails := false } }
    s.pwr.dead = false ∧ (s.rd PWR_STAT_active ≤ 1 ∧ s.feed 0 ≠ 3 ∧ s.rd PWR_STAT_active = feedNo .a ∧ s.feedOk 1 = true ∧ s.pwr.lostAt = none)
      ∧ (s.feed 1 ≠ 3 ∧ s.rd PWR_STAT_active ≠ feedNo .b ∧ s.feedOk (s.rd PWR_STAT_active) = true) ∧ (n.feedOk 1 = false ∧ n.feed 0 ≠ 3 ∧ n.feed (feedNo .b) = 3)
      ∧ ((∀ st ∈ [4, 5, 6], (fed 1 st live.pwr).feed (feedNo .b) = st) ∧ n.feedOk (feedNo .b) = false ∧ n.feed 1 ≠ 6 ∧ n.feed 1 ≠ 0
        ∧ z.feed (feedNo .a) = 0 ∧ (fed 1 6 live.pwr).feedOk 1 = false)
      ∧ ((n.feed 1 = 3 ∧ n.feedSince 1 + 1000 * usF ≤ max n.tmb.kt (1000 * usF)) ∧ ¬n.feedSince 1 + 1000 * usF ≤ max n.tmb.kt (1000 * usF - 1)
        ∧ (let g := fed 1 1 { live.pwr with lostAt := some 3 }
           g.feedOk 0 = true ∧ g.feedOk 1 = true ∧ g.pwr.lostAt ≠ none)
        ∧ (fed 1 7 live.pwr).feedSince 1 + 100000 * usF ≤ max live.tmb.kt (100000 * usF)
        ∧ ¬(fed 1 7 live.pwr).feedSince 1 + 100000 * usF ≤ max live.tmb.kt (100000 * usF - 1)
        ∧ (let e : State := sets { o with pwr := { o.pwr with at_ := [(1, 5)] } } [(PWR_STAT_b_state, 7)]
           e.hks.rails = false ∧ e.pwr.offAt = none ∧ e.feed 1 = 7 ∧ e.feedSince 1 = max e.tmb.kt 5 ∧ e.feedOk 0 = false))
      ∧ (o.hks.rails = false ∧ o.feedOk (o.rd PWR_STAT_active) = false ∧ o.feedOk (feedNo .b) = false)
      ∧ ((fed 1 7 live.pwr).feed (feedNo .b) = 7 ∧ s.feed 1 ≠ 7 ∧ (fed 1 2 live.pwr).feed (feedNo .b) = 2 ∧ s.feed (feedNo .b) = 1 ∧ s.feed 1 ≠ 2
        ∧ z.feed 1 ≠ 1) ∧ s.feedOk (feedNo .b) = true := by decide

theorem witness_feedFits :
    (faultFits 3 33999 = true ∧ faultFits 3 34341 = false ∧ faultFits 4 62000 = true ∧ faultFits 4 61379 = false ∧ faultFits 5 (-1000) = true
      ∧ faultFits 5 (-989) = false ∧ faultFits 6 48000 = true)
    ∧ (thrLo (-1000) ≤ 0 ∧ (0 : Int) ≤ thrHi 5000 ∧ ¬(48000 : Int) ≤ thrHi 5000)
    ∧ (qualFits ((fed 1 3 live.pwr).feed 1) 48000 = true ∧ qualFits ((fed 1 3 live.pwr).feed 1) 33000 = false ∧ goodFits 48000 = true ∧ goodFits 35000 = false
      ∧ marginFits 35000 = true ∧ marginFits 48000 = false ∧ backFits (live.feedMv 0) 48000 = true
      ∧ backFits 35000 35900 = false) := by decide

theorem witness_feedSwitches :
    let s := (sets (fed 1 1 live.pwr) [(PWR_CFG_revert, 1), (PWR_CFG_pref, 1), (PWR_CFG_revert_s, 60)])
    let n := fed 1 3 live.pwr
    let l := fed 2 3 { live.pwr with lostAt := some 0 }
    let q := fed 2 3 { live.pwr with lostAt := some 0, seqAt := some 0 }
    (s.pwr.dead = false ∧ s.on PWR_CFG_revert = true ∧ s.rd PWR_STAT_active ≠ s.rd PWR_CFG_pref ∧ s.feed (s.rd PWR_CFG_pref) = 1
      ∧ max ((look s.pwr.at_ 1).getD 0) ((look s.pwr.at_ 2).getD 0) + s.rd PWR_CFG_revert_s * secF ≤ 60 * secF)
    ∧ (live.wr PWR_CFG_revert 0).on PWR_CFG_revert = false
    ∧ (Reaches .host PWR_CTL_key.addr s ∧ (0x7E480000 : Word).toNat / 2 ^ 16 = 0x7E48 ∧ s.feed (1 - s.rd PWR_STAT_active) = 1
      ∧ n.feed (1 - n.rd PWR_STAT_active) ≠ 1 ∧ (0 : Word).toNat / 2 ^ 16 ≠ 0x7E48)
    ∧ (l.pwr.lostAt = some 0 ∧ l.feedOk (feedNo .a) = true ∧ l.pwr.seqAt = none ∧ l.hks.rails = true ∧ 1500 * usF ≤ 0 + 1500 * usF)
    ∧ (q.pwr.lostAt = some 0 ∧ q.pwr.seqAt ≠ none) := by dsimp only [Reaches]; decide

theorem witness_powerLoss :
    let s : State := { capturing 5 with pwr := { live.pwr with lostAt := some 0 } }
    let q : State := { live with pwr := { live.pwr with lostAt := some 0, seqAt := some 0, cause := 1 } }
    let c : State := { live with pwr := { live.pwr with seqAt := some 0, cut := true } }
    let d : State := { live with pwr := { live.pwr with lostAt := some 0, cause := 1 }, bbx := { live.bbx with dumping := true }, hks := { live.hks with bbxOfs := some 65536 } }
    let f := fed 2 3 { live.pwr with lostAt := some 0 }
    (Powered s ∧ s.pwr.lostAt = some 0 ∧ 0 + 1500 * usF ≤ 1500 * usF ∧ s.feedBack 0 = false ∧ s.pwr.seqAt = none
      ∧ 1 ≤ (State.upTo (1500 * usF) s).acqSt ∧ (State.upTo (1500 * usF) s).acqSt ≤ 5 ∧ live.acqSt = 0)
    ∧ (f.feedBack 0 = true ∧ f.pwr.lostAt = some 0)
    ∧ (1499 * usF - 1 + usF < 0 + 1500 * usF ∧ q.pwr.seqAt ≠ none ∧ q.pwr.lostAt = some 0)
    ∧ (Powered q ∧ q.pwr.seqAt = some 0 ∧ q.pwr.cut = false ∧ 0 + 450 * usF ≤ 450 * usF ∧ (∀ n, n < 16 → (q.ring n).ready = none))
    ∧ (c.pwr.cut = true ∧ 450 * usF - 1 < 0 + 450 * usF ∧ 0 + 500 * usF ≤ 500 * usF ∧ 500 * usF - 1 < 0 + 500 * usF ∧ q.hks.nvOp = none ∧ q.bbx.prep = false)
    ∧ (d.pwr.dead = false ∧ d.bbx.dumping = true ∧ d.pwr.cause = 1 ∧ d.pwr.lostAt = some 0 ∧ d.rd BBX_STAT_nv_state ≠ 1)
    ∧ ((d.wr BBX_STAT_nv_state 1).rd BBX_STAT_nv_state = 1 ∧ d.hks.bbxOfs = some 65536 ∧ d.bbx.live.length ≤ 4096 ∧ d.hks.nvSize = 0)
    ∧ ((q.wr GLB_STAT_active_mode 0).mode = 0 ∧ q.mode ≠ 0 ∧ domOfKey ACQ_STAT_state.key ≠ .aon ∧ ACQ_STAT_state.key ≠ PWR_STAT_loss_seq.key)
    ∧ live.bbx.dumping = false ∧ live.hks.bbxOfs = none := by dsimp only [Powered]; decide

theorem witness_supplyFaults :
    let w := live.wr PWR_THERM_warn 1
    let l := live.wr PWR_RAIL_lost (4 ^ 7)
    let r : State := { live with hks := { live.hks with rails := false } }
    (r.pwr.dead = false ∧ r.hks.rails = false ∧ r.rd PWR_RAIL_lost / 4 ^ (7 : Fin 8).val % 4 < 3 ∧ (6 : Fin 8).val ≠ 7)
    ∧ (Powered live ∧ live.pwr.seqAt = none ∧ live.rd PWR_RAIL_lost / 4 ^ (7 : Fin 8).val % 4 = 0 ∧ 1 ≤ l.rd PWR_RAIL_lost / 4 ^ 7 % 4 ∧ l.pwr.seqAt = none)
    ∧ (99 < 100 ∧ 100 ≤ 100)
    ∧ ([(13, 95 * 16)].any (atLevel 105 95) = true ∧ [(12, 105 * 16 - 1)].any (atLevel 105 95) = false ∧ [(12, 100 * 16)].any (atLevel 105 95) = false
      ∧ [(12, 100 * 16)].any (atLevel 100 90) = true ∧ [(13, 90 * 16 - 1)].any (atLevel 100 90) = false ∧ [(13, 90 * 16 - 1)].any (atLevel 105 95) = false
      ∧ live.on PWR_THERM_warn = false ∧ w.on PWR_THERM_warn = true)
    ∧ (16 * (if (13 : Fin 14).val = 13 then 105 else 120 : Int) ≤ 105 * 16 ∧ (120 * 16 - 1 : Int) < 16 * (if (12 : Fin 14).val = 13 then 105 else 120)) := by
  dsimp only [Powered]; decide

/-! ### Residue, spare lanes, the black box and boundary scan -/

theorem witness_residueChecks :
    let g : ResG := ⟨0, 0, [(14, 0), (14, 0)], none⟩
    let s : State := { live with pwr := { live.pwr with res := [(256 * 8 + 255, g)] } }
    let r : State := { live with pwr := { live.pwr with res := [(256 * 8 + 255, ⟨0, 0, [], some 3⟩)] } }
    (Powered s ∧ look s.pwr.res (256 * (8 : Fin 9).val + (255 : Fin 256).val) = some g ∧ 1 ≤ (8 : Fin 9).val ∧ g.works (14 : Fin 16).val = true
      ∧ g.works 15 = false ∧ ¬1 ≤ (0 : Fin 9).val ∧ g.retired = none)
    ∧ (3 ≤ (((14, 0) :: g.uses.filter fun u => decide (0 < u.2 + secF)).filter fun u => u.1 = 14).length
      ∧ ¬3 ≤ (((13, 0) :: g.uses.filter fun u => decide (0 < u.2 + secF)).filter fun u => u.1 = 13).length)
    ∧ (look r.pwr.res (256 * 8 + 255) = some ⟨0, 0, [], some 3⟩ ∧ (⟨0, 0, [], some 3⟩ : ResG).works 15 = true ∧ (⟨0, 0, [], some 3⟩ : ResG).retired ≠ none)
    ∧ live.on BBX_STAT_frozen = false := by dsimp only [Powered]; decide

theorem witness_spareLanes :
    let small : State := { live with build := { live.build with variant := 3 } }
    let m0 := live.wr GLB_STAT_active_mode 0
    let lane : Lane := ⟨1023, some 0, 0, 255, false, none, false⟩
    let s := fun (l : Lane) => ({ live with pwr := { live.pwr with lanes := [l, ⟨0, some 0, 0, 0, false, none, false⟩, ⟨1024, none, 0, 0, false, none, false⟩] } } : State)
    let all : State := { live with pwr := { live.pwr with lanes := (List.range 4).map fun i => ⟨960 + i, some i, 0, 0, false, none, false⟩ } }
    (Powered live ∧ live.mode ≠ 0 ∧ (1023 : Chan).val < live.nChan ∧ live.edgeFill 1023 = false
      ∧ (List.range 4).find? (fun i => !((live.lanesOf 15).filterMap (·.spare)).contains i) = some 0)
    ∧ (m0.mode = 0 ∧ small.nChan ≤ 512 ∧ (s lane).edgeFill 1023 = true)
    ∧ (all.edgeFill 1023 = false ∧ (List.range 4).find? (fun i => !((all.lanesOf 15).filterMap (·.spare)).contains i) = none)
    ∧ (lane ∈ (s lane).pwr.lanes ∧ lane.ch < 1024 ∧ lane.ch / 64 = (15 : Fin 16).val ∧ lane.spare ≠ none ∧ lane.doneAt = none ∧ lane.burst = false
      ∧ lane.since + 4000 * usF ≤ 4000 * usF ∧ lane.edges < 256 ∧ 4000 * usF - 1 < lane.since + 4000 * usF ∧ lane.edges < 4096
      ∧ 4096 ≤ ({ lane with edges := 4096 } : Lane).edges ∧ 256 ≤ ({ lane with edges := 256 } : Lane).edges)
    ∧ ((s { lane with doneAt := some 0 }).acqSt = 0 ∧ { lane with doneAt := some 0 } ∈ (s { lane with doneAt := some 0 }).pwr.lanes
      ∧ 0 + usF ≤ usF ∧ ({ lane with doneAt := some 0 } : Lane).used = false)
    ∧ (capturing 5).acqSt ≠ 0 := by dsimp only [Powered]; decide

theorem witness_blackBoxControl :
    let s : State := { live with hks := { live.hks with bbxOfs := some 65536 } }
    let o := s.wr BBX_CFG_overwrite 1
    Reaches .host BBX_CTL_key.addr s ∧ ((1 : Word).toNat / 2 % 8 = 0 ∧ s.on BBX_STAT_frozen = false ∧ (s.wr BBX_STAT_frozen 1).on BBX_STAT_frozen = true)
    ∧ ((2 : Word).toNat % 2 = 0 ∧ (2 : Word).toNat / 4 % 4 = 0 ∧ s.rd BBX_STAT_freeze_cause ≠ 3 ∧ (s.wr BBX_STAT_freeze_cause 3).rd BBX_STAT_freeze_cause = 3)
    ∧ ((0xB10C0004 : Word).toNat % 4 = 0 ∧ (0xB10C0004 : Word).toNat / 8 % 2 = 0 ∧ (0xB10C0004 : Word).toNat / 2 ^ 16 = 0xB10C ∧ (4 : Word).toNat / 2 ^ 16 ≠ 0xB10C)
    ∧ ((8 : Word).toNat % 8 = 0 ∧ o.hks.bbxOfs ≠ none ∧ o.on BBX_CFG_overwrite = true)
    ∧ ((s.wr BBX_CFG_overwrite 0).on BBX_CFG_overwrite = false ∧ s.on HKS_NV_CTL_busy = false ∧ s.hks.rails = true ∧ s.hks.step ≠ 4)
    ∧ live.hks.bbxOfs = none ∧ (sets s [(BBX_CFG_overwrite, 0), (HKS_NV_CTL_busy, 1)]).on HKS_NV_CTL_busy = true := by dsimp only [Reaches]; decide

theorem witness_blackBoxRegion :
    let s : State := { live with hks := { live.hks with bbxOfs := some 65536 } }
    let o := s.wr BBX_CFG_overwrite 1
    let p : State := { s with bbx := { s.bbx with prep := true } }
    (Powered s ∧ s.on HKS_BOOT_done = true ∧ s.mode ≠ 0 ∧ s.bbx.prep = false ∧ s.on HKS_NV_CTL_busy = false ∧ live.hks.bbxOfs = none)
    ∧ (o.hks.bbxOfs = some 65536 ∧ o.regionState (o.nv.bytes 65536 65536) = 1)
    ∧ ((s.wr BBX_CFG_auto_prep 0).on BBX_CFG_auto_prep = false ∧ (s.wr BBX_CFG_auto_prep 1).on BBX_CFG_auto_prep = true ∧ s.hks.step ≠ 4)
    ∧ (Powered p ∧ p.bbx.prep = true ∧ p.hks.bbxOfs = some 65536 ∧ p.hks.nvSize = 0 ∧ p.lands = true)
    ∧ Powered scanned ∧ scanned.lands = false ∧ s.lands = true := by dsimp only [Powered]; decide +kernel

theorem witness_boundaryScan :
    let m0 := live.wr GLB_STAT_active_mode 0
    Powered live ∧ (Instr.extestTrain, 7) ∈ [(Instr.extest, 0), (.idcode, 1), (.samplePreload, 2), (.clamp, 4), (.highz, 5), (.extestPulse, 6),
        (.extestTrain, 7), (.bypass, 255)]
      ∧ (m0.mode = 0 ∧ (0 : Nat) ≠ 1) ∧ (takesLands 7 = true ∧ (capturing 5).acqSt ≠ 0) ∧ (live.mode ≠ 0 ∧ live.acqSt = 0)
      ∧ (live.lands = true ∧ takesLands 2 = false ∧ scanned.lands = false ∧ live.hrv.link ≠ none ∧ (live.wr (GRF_GLn_STAT_state 3) 2).portUp 3 = true)
      ∧ (live.landCell 3).isSome = true ∧ 3 < otherCells := by
  dsimp only [Powered]; decide

/-- A CRC-32C has 32 bits. -/
theorem crc32cByte_lt (n c : Nat) (h : c < 2 ^ 32) : crc32cByte c n < 2 ^ 32 := by
  induction n generalizing c with
  | zero => exact h
  | succ n ih =>
    refine ih _ ?_
    split
    · exact Nat.xor_lt_two_pow (by omega) (by decide)
    · omega

theorem crc32cAcc_lt (l : List Byte) (c : Nat) (h : c < 2 ^ 32) : crc32cAcc c l < 2 ^ 32 := by
  induction l generalizing c with
  | nil => exact h
  | cons b r ih => exact ih _ (crc32cByte_lt _ _ (Nat.xor_lt_two_pow h (by omega)))

theorem crc32c_lt (l : List Byte) : crc32c l < 2 ^ 32 := Nat.xor_lt_two_pow (crc32cAcc_lt l _ (by decide)) (by decide)

/-- A region that holds an empty dump: entries of zeros, the mark and a CRC. -/
def dumped (c : Nat) : Mem :=
  ⟨none, [(65529, 255), (65532, BitVec.ofNat 8 c), (65533, BitVec.ofNat 8 (c / 2 ^ 8)), (65534, BitVec.ofNat 8 (c / 2 ^ 16)),
    (65535, BitVec.ofNat 8 (c / 2 ^ 24))], []⟩

theorem dumped_read (c a : Nat) (h : a < 65529) : (dumped c).read a = 0 := by
  have : ∀ k, 65529 ≤ k → k ≠ a := fun k hk => by omega
  simp [dumped, Mem.read, cellAt, this]

theorem dumped_take (c : Nat) : ((dumped c).bytes 0 65536).take 65520 = List.replicate 65520 0 := by
  rw [Mem.bytes, ← List.map_take, List.take_range, List.eq_replicate_iff]
  refine ⟨by simp, fun b hb => ?_⟩
  simp only [List.mem_map, List.mem_range] at hb
  obtain ⟨a, ha, rfl⟩ := hb
  exact dumped_read _ _ (by omega)

/-- Bytes of a range of memory are bytes of memory. -/
theorem sliceB_bytes (m : Mem) (a n i k : Nat) (h : i + k ≤ n) : sliceB (m.bytes a n) i k = m.bytes (a + i) k := by
  have e : ((m.bytes a n).drop i).take k = m.bytes (a + i) k := by
    apply List.ext_getElem?
    intro j
    simp only [Mem.bytes, List.getElem?_take, List.getElem?_drop, List.getElem?_map]
    by_cases hj : j < k
    · simp [hj, Nat.add_assoc, show i + j < n by omega]
    · simp [hj]
  have l : (m.bytes (a + i) k).length = k := by simp [Mem.bytes]
  rw [sliceB, e, l, Nat.sub_self]
  exact List.append_nil _

theorem dumped_end (c : Nat) (hc : c < 2 ^ 32) : field ((dumped c).bytes 0 65536) 65532 4 = c := by
  rw [field, sliceB_bytes _ _ _ _ _ (by decide)]
  simp only [Mem.bytes, List.range, List.range.loop, List.map, Mem.read, dumped, cellAt, unle]
  simp only [Nat.reduceAdd, Nat.reduceEqDiff, if_true, if_false, BitVec.toNat_ofNat]
  omega

theorem dumped_state (s : State) (c : Nat) (h : s.on BBX_CFG_overwrite = false) (e : c = crc32c (List.replicate 65520 0)) :
    s.regionState ((dumped c).bytes 0 65536) = 2 := by
  have hc : c < 2 ^ 32 := e ▸ crc32c_lt _
  have h0 : ((dumped c).bytes 0 65536).all (· = 255) = false := by
    rw [List.all_eq_false]
    exact ⟨0, by simp only [Mem.bytes, List.mem_map, List.mem_range]; exact ⟨0, by decide, dumped_read c 0 (by decide)⟩, by decide⟩
  have h1 : field ((dumped c).bytes 0 65536) 65529 1 = 0xFF := by
    rw [field, sliceB_bytes _ _ _ _ _ (by decide)]
    simp [Mem.bytes, Mem.read, dumped, cellAt, unle]
  rw [State.regionState, h, h0, if_neg (by decide), if_pos ⟨h1, by rw [dumped_end c hc, dumped_take]; exact e⟩]

theorem witness_blackBoxDump :
    let s := fun (c : Nat) => ({ live.wr BBX_CFG_overwrite 0 with hks := { live.hks with bbxOfs := some 0 }, nv := dumped c } : State)
    (∃ c, (s c).regionState ((s c).nv.bytes 0 65536) = 2) ∧ ((s 0).wr BBX_CFG_load 1).on BBX_CFG_load = true
      ∧ (live.wr BBX_CFG_overwrite 0).regionState (Mem.bytes ⟨none, [], []⟩ 0 65536) = 3 :=
  ⟨⟨_, dumped_state _ _ (by decide) rfl⟩, by decide, by decide +kernel⟩

/-! ### WellFormed -/

theorem test_wf_address : (Instr.registerWrite .host 0x3FFFFFC 15 0).wf = true ∧ (Instr.registerWrite .host 0x4000000 15 0).wf = false
    ∧ (Instr.registerWrite .host 2 15 0).wf = false ∧ (Instr.captureRead .host 0x4000000).wf = false ∧ (Instr.captureRead .station 1).wf = false := by
  decide

theorem test_wf_time : (Instr.modeChange (2 ^ 96 - 1)).wf = true ∧ (Instr.modeChange (2 ^ 96)).wf = false := by decide

theorem test_wf_kt : (Instr.trigFrame 0 0 0 0 0 false (2 ^ 72 - 1) 0).wf = true ∧ (Instr.trigFrame 0 0 0 0 0 false (2 ^ 72) 0).wf = false
    ∧ (Instr.syncFrame 0 0 0 (2 ^ 72) 0 0).wf = false := by decide

theorem test_wf_link : (Instr.pcieLinkUp 16 7 0).wf = true ∧ (Instr.pcieLinkUp 12 7 0).wf = false ∧ (Instr.laneDownshift 4 0 0).wf = false
    ∧ (Instr.laneDownshift 4 8 0).wf = false := by decide

theorem test_wf_host_request : (Instr.hostWake (.barRead 4) 0).wf = true ∧ (Instr.hostWake (.barRead 2) 0).wf = false
    ∧ (Instr.hostWake (.bar2Read (2 ^ 38) 1 [] []) 0).wf = false ∧ (Instr.hostWake (.bar2Write (2 ^ 38) [0]) 0).wf = false
    ∧ (Instr.hostWake (.barWrite 0x4000000 15 0) 0).wf = false := by decide

theorem test_wf_bar2 : (Instr.bar2Read 0 64 [63] [63] ⟨0, 0⟩).wf = true ∧ (Instr.bar2Read 0 64 [2 ^ 38] [] ⟨0, 0⟩).wf = false
    ∧ (Instr.bar2Read 0 64 [] [2 ^ 38] ⟨0, 0⟩).wf = false
    ∧ (Instr.bar2Read (2 ^ 38) 1 [] [] ⟨0, 0⟩).wf = false ∧ (Instr.bar2Write (2 ^ 38) [0] ⟨0, 0⟩).wf = false
    ∧ (Instr.bar2Write 0 [0] ⟨2 ^ 96, 0⟩).wf = false ∧ (Instr.copyDescriptor 0 ⟨[2 ^ 38], [], ⟨0, 0⟩⟩).wf = false
    ∧ (Instr.migrationComplete ⟨[2 ^ 37], 0⟩).wf = false ∧ (Instr.sieveBlockWrite 0 (2 ^ 96) 0).wf = false := by decide

theorem test_wf_lists : (Instr.selfTest .host [(1, 0)] 0).wf = true ∧ (Instr.selfTest .host [(5, 0)] 0).wf = false ∧ (Instr.selfTest .host [(1, 1024)] 0).wf = false
    ∧ (Instr.rakeLease 0 ⟨[(0, 512)], [], [], 0⟩ 0).wf = false ∧ (Instr.thermalReading [(14, 0)] 0).wf = false ∧ (Instr.descriptorFetch 0 [0] 0).wf = false := by decide

theorem test_wf_sizes : (Instr.trellisBranchTaken (2 ^ 64) false false 0 0).wf = false ∧ (Instr.imageCheck (2 ^ 28 + 1) 0).wf = false
    ∧ (Instr.frameDiscard 0 (2 ^ 64) 1 0).wf = false ∧ (Instr.stationRead 0x8000 none false 0).wf = false
    ∧ (Instr.stationWrite 0 0 (some 16384) false 0).wf = false := by decide

theorem test_wf_config : (Instr.hostWake (.config 0xFFC) 0).wf = true ∧ (Instr.hostWake (.config 0x1000) 0).wf = false
    ∧ (Instr.hostWake (.config 2) 0).wf = false := by decide

/-! ### The input band -/

/-- The hysteresis widths of R40, in mV. -/
theorem test_hysteresis : (List.range 8).map (fun k => (live.wr (INP_CFG_hyst 7) k).hystMv 7) = [0, 10, 20, 40, 80, 120, 160, 200] := by decide

/-! ### Values printed in the spec -/

/-- GLB_ID in the worked example of spec/01_architecture.md. -/
theorem test_glb_id : State.reset.readWord 0 = 0x4B4D0101 := by decide +kernel

/-- GLB_CONFIG in the worked example of spec/01_architecture.md. -/
theorem test_glb_config : State.reset.readWord 0x10 = 0x04000404 := by decide +kernel

/-- The example of R279. -/
theorem test_address_map : State.reset.pcOf 0x1234567840 = 62 ∧ colOf 0x1234567840 = 1 ∧ State.reset.rowOf 0x1234567840 = 0x2468
    ∧ State.reset.twoBits 7 0x1234567840 = 1 ∧ State.reset.twoBits 9 0x1234567840 = 3 ∧ State.reset.twoBits 11 0x1234567840 = 2 := by decide +kernel

/-- The check value of R353, over the bytes of "123456789". -/
theorem test_crc16 : crc16 9 (unle [0x31, 0x32, 0x33, 0x34, 0x35, 0x36, 0x37, 0x38, 0x39]) = 0x29B1 := by decide +kernel

/-- SHA-384 of "abc" (FIPS 180-4). -/
theorem test_sha384_abc : sha384 [0x61, 0x62, 0x63]
    = 0xCB00753F45A35E8BB5A03D699AC65007272C32AB0EDED1631A8B605A43FF5BED8086072BA1E7CC2358BAECA134C825A7 := by decide +kernel

/-- The signature of "sample" on P-384 with SHA-384 printed in RFC 6979 verifies, and with another digest it does not. -/
theorem test_ecdsa_sample :
    let big := fun n => (le 48 n).reverse
    let pub := 4 :: (big 0xEC3A4E415B4E19A4568618029F427FA5DA9A8BC4AE92E02E06AAE5286B300C64DEF8F0EA9055866064A254515480BC13
      ++ big 0x8015D9B72D7D57244EA8EF9AC0C621896708A59367F9DFB9F54CA84B3F1C9DB1288B231C3AE0D4FE7344FD2533264720)
    let sig := big 0x94EDBB92A5ECB8AAD4736E56C691916B3F88140666CE9FA73D64C4EA95AD133C81A648152E44ACF96E36DD1E80FABE46
      ++ big 0x99EF4AEB15F178CEA1FE40DB2603138F130E740A19624526203B6351D0A3A94FA329C145786E679E7B82C71A38628AC8
    ecdsaVerify pub (sha384 [0x73, 0x61, 0x6D, 0x70, 0x6C, 0x65]) sig = true ∧ ecdsaVerify pub 1 sig = false := by decide +kernel

/-- An access of the station port begun while SP_BUSY is 1 (R336). -/
theorem test_station_busy : exec (.stationRead 0 none false 0) (sets live [(STP_CFG_en, 1), (NMC_STAT_clear_busy, 1)]) = .fault .stationBusy := rfl

end Sys2Proof.Tests
end

