-- ==== Sys2Proof/Proofs/ProbeVerdicts.lean ====
section
/-! SUPPORT. The verdict of a probe check (R60) with its conditions as intervals of voltages, and what fields read at reset. -/

namespace Sys2Proof.Machine

/-! ### Conditions of the table of R60 -/

/-- A voltage is near a rail when the rail is used and the voltage lies in the 20 mV about it; V in 0.25 mV, the rail in mV. -/
theorem nearRail_iff (v rail : Int) :
    nearRail v rail = true ↔ rail ≠ 0 ∧ 4 * rail - 80 ≤ v ∧ v ≤ 4 * rail + 80 := by
  have hdist : (v - 4 * rail).natAbs ≤ 80 ↔ 4 * rail - 80 ≤ v ∧ v ≤ 4 * rail + 80 := by omega
  rw [nearRail, Bool.and_eq_true, decide_eq_true_iff, decide_eq_true_iff, hdist]

/-- The table of R60, row by row: the verdict is that of the first row whose condition holds. -/
theorem State.verdict_eq (s : State) (active : Bool) (v0 v1 : Int) :
    s.verdict active v0 v1 =
      if 28000 < v0 ∨ v0 < -20000 ∨ 28000 < v1 ∨ v1 < -20000 then 5
      else if 400 ≤ v1 - v0 then 2
      else if active = false ∧ -80 ≤ v0 ∧ v0 ≤ 80 then 3
      else if active = false ∧
          ((s.rdS INP_PCHK_RAIL_rail_a ≠ 0 ∧ 4 * s.rdS INP_PCHK_RAIL_rail_a - 80 ≤ v0 ∧ v0 ≤ 4 * s.rdS INP_PCHK_RAIL_rail_a + 80)
            ∨ (s.rdS INP_PCHK_RAIL_rail_b ≠ 0 ∧ 4 * s.rdS INP_PCHK_RAIL_rail_b - 80 ≤ v0 ∧ v0 ≤ 4 * s.rdS INP_PCHK_RAIL_rail_b + 80))
        then 4
      else 1 := by
  have hground : v0.natAbs ≤ 80 ↔ -80 ≤ v0 ∧ v0 ≤ 80 := by omega
  simp only [State.verdict, hground, nearRail_iff, Bool.not_eq_true']

/-! ### Registers at reset -/

/-- At reset only the black box's count and head differ from the reset value of their fields: the entry AON_UP is stored (R414). -/
theorem State.rd_reset (f : Fld) (hcount : f.key ≠ BBX_STAT_count.key) (hhead : f.key ≠ BBX_HEAD_value.key) :
    State.reset.rd f = f.rst := by
  simp [State.rd, State.reset, look, hcount.symm, hhead.symm]

/-- No channel has been checked at reset: its register lies at offset 0x20 of its 64 bytes, no field of the black box does. -/
theorem State.rd_verdict_reset (ch : Nat) : State.reset.rd (INP_PCHK_verdict ch) = 0 := by
  refine State.rd_reset _ ?_ ?_
  · simp only [Fld.key, INP_PCHK_verdict, BBX_STAT_count]; omega
  · simp only [Fld.key, INP_PCHK_verdict, BBX_HEAD_value]; omega

end Sys2Proof.Machine

namespace Sys2Proof

open Machine

/-- Settles O11: each clause selects its row of the table (`State.verdict_eq`), the rows before it ruled out. -/
theorem probeVerdicts : Obligations.ProbeVerdicts := by
  unfold Obligations.ProbeVerdicts
  intro s active v0 v1 beyond at0 near atRail
  rw [State.verdict_eq]
  refine ⟨fun hb => ?overdriven, fun hb ho => ?isOpen, fun hb ho hg => ?shortGnd, fun hb ho hg hr => ?shortRail,
    fun hb ho hg hr => ?ok, State.rd_verdict_reset⟩
  case overdriven => exact if_pos hb
  case isOpen => rw [if_neg hb, if_pos ho]
  case shortGnd => rw [if_neg hb, if_neg (Int.not_le.2 ho), if_pos hg]
  case shortRail => rw [if_neg hb, if_neg (Int.not_le.2 ho), if_neg hg, if_pos hr]
  case ok => rw [if_neg hb, if_neg (Int.not_le.2 ho), if_neg hg, if_neg hr]

end Sys2Proof
end

