-- ==== Sys2Proof/Proofs/FrameCheck.lean ====
section
/-! SUPPORT. The CRC-16 of a frame byte by byte (R353), the check of a frame with its CRC, and what discarding a frame leaves alone: it
counts, and all that may follow is what forwarding does, sending frames or counting drops (R356, R357). -/

namespace Sys2Proof

open Machine

/-! ### Registers left alone, the time, and what a command answers -/

theorem SameRegs.trans {s u v : State} {l : List Fld} (h : SameRegs s u l) (k : SameRegs u v l) : SameRegs s v l :=
  fun f hf => (k f hf).trans (h f hf)

theorem SameRegs.mono {s u : State} {l m : List Fld} (h : SameRegs s u l) (hlm : l ⊆ m) : SameRegs s u m :=
  fun f hf => h f fun hk => hf (List.map_subset _ hlm hk)

theorem Machine.State.advance_moves_tmb (s : State) (t : Nat) : ∃ b, s.advance t = { s with tmb := b } := by
  unfold State.advance
  split
  · exact ⟨_, rfl⟩
  · exact ⟨s.tmb, rfl⟩

theorem Machine.State.lands_advance (s : State) (t : Nat) : (s.advance t).lands = s.lands := by simp [State.lands]

/-- What a command with its time that needs the main rails answers in a powered machine. -/
theorem Answers.of_performOnAt {c : Instr} {s : State} {P : State → Prop} {t : Nat} {f : State → State}
    (hc : exec c s = State.performOnAt t f s) (hp : Powered s) (h : P (f s)) : Answers c s P := by
  refine ⟨f (s.reached t), hc.trans (performOn_next _ s hp), fun hs => ?_⟩
  rwa [reached_free s t hs]

end Sys2Proof

namespace Sys2Proof.Machine

/-! ### The CRC-16, bit by bit -/

/-- One bit of the CRC-16 register (R353). -/
def crc16Shift (c : Nat) : Nat := if bit c 15 then 2 * c % 2 ^ 16 ^^^ 0x1021 else 2 * c

theorem bit_fifteen_iff {c : Nat} (h : c < 2 ^ 16) : bit c 15 = true ↔ 0x8000 ≤ c := by
  rw [bit, decide_eq_true_iff]; omega

theorem crc16Shift_lt {c : Nat} (h : c < 2 ^ 16) : crc16Shift c < 2 ^ 16 := by
  unfold crc16Shift
  split
  · exact Nat.xor_lt_two_pow (Nat.mod_lt _ (by decide)) (by decide)
  next hb => rw [bit_fifteen_iff h] at hb; omega

/-- The register of 16 bits takes a byte by shifting once for each bit. -/
theorem crc16Byte_eq_iterate (n : Nat) {c : Nat} (h : c < 2 ^ 16) : crc16Byte 0x1021 c n = crc16Shift^[n] c := by
  induction n generalizing c with
  | zero => rfl
  | succ n ih =>
    have hs : (if 0x8000 ≤ c then 2 * c % 0x10000 ^^^ 0x1021 else 2 * c % 0x10000) = crc16Shift c := by
      simp only [crc16Shift, bit_fifteen_iff h]
      split
      · rfl
      · omega
    rw [crc16Byte, hs, ih (crc16Shift_lt h), Function.iterate_succ_apply]

theorem crc16Shift_iterate_lt (n : Nat) {c : Nat} (h : c < 2 ^ 16) : crc16Shift^[n] c < 2 ^ 16 := by
  induction n generalizing c with
  | zero => exact h
  | succ n ih => exact ih (crc16Shift_lt h)

/-! ### The CRC-16, byte by byte -/

theorem crc16_zero (bits : Nat) : crc16 0 bits = 0xFFFF := rfl

theorem crc16_entry_lt {c b : Nat} (hc : c < 2 ^ 16) (hb : b < 256) : c ^^^ 256 * b < 2 ^ 16 :=
  Nat.xor_lt_two_pow hc (by omega)

theorem le_succ (n v : Nat) : le (n + 1) v = le n v ++ [BitVec.ofNat 8 (v / 256 ^ n)] := by
  simp [le, List.range_succ]

theorem crc16_succ_byte (n bits : Nat) :
    crc16 (n + 1) bits = crc16Byte 0x1021 (crc16 n bits ^^^ 256 * (bits / 256 ^ n % 256)) 8 := by
  simp [crc16, le_succ]

theorem crc16_lt (n bits : Nat) : crc16 n bits < 2 ^ 16 := by
  induction n with
  | zero => exact (by decide : 0xFFFF < 2 ^ 16)
  | succ n ih =>
    have h := crc16_entry_lt ih (Nat.mod_lt (bits / 256 ^ n) (by decide))
    rw [crc16_succ_byte, crc16Byte_eq_iterate 8 h]
    exact crc16Shift_iterate_lt 8 h

/-- The next byte of a frame goes into the CRC most significant bit first (R353). -/
theorem crc16_succ (n bits : Nat) :
    crc16 (n + 1) bits = (List.range 8).foldl (fun c _ => crc16Shift c) (crc16 n bits ^^^ 256 * (bits / 256 ^ n % 256)) := by
  rw [crc16_succ_byte, List.foldl_const, List.length_range,
    crc16Byte_eq_iterate 8 (crc16_entry_lt (crc16_lt n bits) (Nat.mod_lt _ (by decide)))]

/-- What stands above the first `n` bytes is no part of them. -/
theorem le_add_mul (n v x : Nat) : le n (v + 256 ^ n * x) = le n v := by
  refine List.map_congr_left fun i hi => BitVec.eq_of_toNat_eq ?_
  obtain ⟨k, rfl⟩ := Nat.exists_eq_add_of_lt (List.mem_range.1 hi)
  have hp : 256 ^ (i + k + 1) * x = 256 ^ i * (256 * (256 ^ k * x)) := by ring
  rw [BitVec.toNat_ofNat, BitVec.toNat_ofNat, hp, Nat.add_mul_div_left _ _ (by positivity)]
  exact Nat.add_mul_mod_self_left _ _ _

theorem crc16_add_mul (n bits x : Nat) : crc16 n (bits + 256 ^ n * x) = crc16 n bits := by
  rw [crc16, le_add_mul, crc16]

/-! ### A frame with its CRC -/

/-- A frame's CRC field lies above its bytes. -/
theorem withCrc_div {n bits : Nat} (h : bits < 256 ^ n) (inv : Bool) :
    withCrc n bits inv / 256 ^ n = crc16 n bits ^^^ (if inv then 0xFFFF else 0) := by
  rw [withCrc, Nat.add_mul_div_left _ _ (by positivity), Nat.div_eq_of_lt h, Nat.zero_add]

theorem crc16_withCrc (n bits : Nat) (inv : Bool) : crc16 n (withCrc n bits inv) = crc16 n bits := crc16_add_mul n bits _

/-- The CRC field of a frame agrees with its bytes just where it is not inverted. -/
theorem withCrc_agrees_iff {n bits : Nat} (h : bits < 256 ^ n) (inv : Bool) :
    withCrc n bits inv / 256 ^ n % 65536 = crc16 n (withCrc n bits inv) ↔ inv = false := by
  have hc := crc16_lt n bits
  rw [withCrc_div h, crc16_withCrc]
  cases inv with
  | false => simpa using hc
  | true =>
    have hx : crc16 n bits ^^^ 0xFFFF < 65536 := Nat.xor_lt_two_pow hc (by decide)
    simp [Nat.mod_eq_of_lt hx]

/-- The type of a frame lies below its CRC. -/
theorem withCrc_type (n bits : Nat) (inv : Bool) : withCrc (n + 1) bits inv % 16 = bits % 16 := by
  have hp : 256 ^ (n + 1) = 16 * (16 * 256 ^ n) := by ring
  rw [withCrc, hp, Nat.mul_assoc, Nat.add_mul_mod_self_left]

theorem trigBits_lt (hop src seq mark : Nat) (coarse : Bool) (kt : Nat) : trigBits hop src seq mark coarse kt < 256 ^ 14 := by
  have : b2n coarse ≤ 1 := by cases coarse <;> decide
  unfold trigBits; omega

theorem trigBits_type (hop src seq mark : Nat) (coarse : Bool) (kt : Nat) : trigBits hop src seq mark coarse kt % 16 = 1 := by
  unfold trigBits; omega

theorem syncBits_lt (src t3 t1 t2 : Nat) : syncBits src t3 t1 t2 < 256 ^ 30 := by unfold syncBits; omega

theorem syncBits_type (src t3 t1 t2 : Nat) : syncBits src t3 t1 t2 % 16 = 2 := by unfold syncBits; omega

/-! ### The check of a frame -/

/-- A TRIG frame is valid by its length and its CRC. -/
theorem frameOk_trig {bits : Nat} (h : bits % 16 = 1) (blocks : Nat) :
    frameOk bits blocks = true ↔ blocks = 2 ∧ bits / 2 ^ 112 % 65536 = crc16 14 bits := by
  rw [frameOk, h]; simp

/-- So is a SYNC frame. -/
theorem frameOk_sync {bits : Nat} (h : bits % 16 = 2) (blocks : Nat) :
    frameOk bits blocks = true ↔ blocks = 4 ∧ bits / 2 ^ 240 % 65536 = crc16 30 bits := by
  rw [frameOk, h]; simp

/-- No frame of an unknown type is. -/
theorem frameOk_unknown {bits : Nat} (h1 : bits % 16 ≠ 1) (h2 : bits % 16 ≠ 2) (blocks : Nat) : frameOk bits blocks = false := by
  unfold frameOk
  split
  next h => exact absurd h h1
  next h => exact absurd h h2
  next => rfl

theorem frameOk_iff (bits blocks : Nat) :
    frameOk bits blocks = true ↔ bits % 16 = 1 ∧ blocks = 2 ∧ bits / 2 ^ 112 % 2 ^ 16 = crc16 14 bits
      ∨ bits % 16 = 2 ∧ blocks = 4 ∧ bits / 2 ^ 240 % 2 ^ 16 = crc16 30 bits := by
  by_cases h1 : bits % 16 = 1
  · simp [frameOk_trig h1, h1]
  · by_cases h2 : bits % 16 = 2
    · simp [frameOk_sync h2, h2]
    · simp [frameOk_unknown h1 h2, h1, h2]

theorem frameOk_trigFrame (hop src seq mark : Nat) (coarse : Bool) (kt : Nat) (inv : Bool) :
    frameOk (withCrc 14 (trigBits hop src seq mark coarse kt) inv) 2 = !inv := by
  have ht := (withCrc_type 13 _ inv).trans (trigBits_type hop src seq mark coarse kt)
  have hc := withCrc_agrees_iff (trigBits_lt hop src seq mark coarse kt) inv
  rw [Bool.eq_iff_iff, frameOk_trig ht, Bool.not_eq_true', ← hc]
  exact and_iff_right rfl

theorem frameOk_syncFrame (src t3 t1 t2 : Nat) (inv : Bool) : frameOk (withCrc 30 (syncBits src t3 t1 t2) inv) 4 = !inv := by
  have ht := (withCrc_type 29 _ inv).trans (syncBits_type src t3 t1 t2)
  have hc := withCrc_agrees_iff (syncBits_lt src t3 t1 t2) inv
  rw [Bool.eq_iff_iff, frameOk_sync ht, Bool.not_eq_true', ← hc]
  exact and_iff_right rfl

/-! ### What sending leaves alone -/

theorem State.gport_putPort_same (s : State) (n : Nat) (g : GPort) : (s.putPort n g).gport n = g := by
  simp [State.gport, State.putPort, look_ins_same]

theorem State.gport_putPort_ne (s : State) {m n : Nat} (g : GPort) (h : m ≠ n) : (s.putPort m g).gport n = s.gport n := by
  simp [State.gport, State.putPort, look_ins_ne _ _ _ _ h]

/-- The register fields that count a frame dropped at one of the four ports (R355 to R357). -/
def dropFlds : List Fld := GRF_EVT_drop :: (List.range 4).map GRF_GLn_ERR_drop

/-- Nothing has happened from `s` to `u` but that ports other than `n` have queued frames or counted drops. -/
structure SendsOnly (n : Nat) (s u : State) : Prop where
  regs : SameRegs s u dropFlds
  port : u.gport n = s.gport n
  rest : ∃ fields ports sent, u = { s with fields := fields, grf := { s.grf with ports := ports, sent := sent } }

namespace SendsOnly

variable {n m : Nat} {s u v : State}

theorem refl (n : Nat) (s : State) : SendsOnly n s s := ⟨SameRegs.refl s _, rfl, s.fields, s.grf.ports, s.grf.sent, rfl⟩

theorem trans (h : SendsOnly n s u) (k : SendsOnly n u v) : SendsOnly n s v := by
  refine ⟨fun f hf => (k.regs f hf).trans (h.regs f hf), k.port.trans h.port, ?_⟩
  obtain ⟨_, _, _, hu⟩ := h.rest
  obtain ⟨_, _, _, hv⟩ := k.rest
  subst hu
  exact ⟨_, _, _, hv⟩

theorem trl_eq (h : SendsOnly n s u) : u.trl = s.trl := by obtain ⟨_, _, _, rfl⟩ := h.rest; rfl

theorem seen_eq (h : SendsOnly n s u) : u.grf.seen = s.grf.seen := by obtain ⟨_, _, _, rfl⟩ := h.rest; rfl

theorem tmb_eq (h : SendsOnly n s u) : u.tmb = s.tmb := by obtain ⟨_, _, _, rfl⟩ := h.rest; rfl

/-- A frame queued at another port, with whatever that does to the frames already sent. -/
theorem queue (s : State) (g : GPort) (fr : List Frame) (h : m ≠ n) :
    SendsOnly n s { s.putPort m g with grf := { (s.putPort m g).grf with sent := fr } } :=
  ⟨fun _ _ => rfl, State.gport_putPort_ne s g h, _, _, _, rfl⟩

/-- A drop counted at one of the four ports. -/
theorem grfDrop (n : Nat) (s : State) (hm : m < 4) : SendsOnly n s (s.grfDrop m) := by
  have hd : (GRF_GLn_ERR_drop m).key ∈ dropFlds.map Fld.key :=
    List.mem_map_of_mem (List.mem_cons_of_mem _ (List.mem_map_of_mem (List.mem_range.2 hm)))
  exact ⟨((SameRegs.refl s _).wr _ _ hd).wr _ _ (List.mem_map_of_mem List.mem_cons_self), rfl, _, s.grf.ports, s.grf.sent, rfl⟩

/-- A frame sent to another port: dropped there, queued, or queued with the last of the queue dropped (R357). -/
theorem sendTrig (s : State) (bits t : Nat) (own : Bool) (hm : m < 4) (h : m ≠ n) : SendsOnly n s (s.sendTrig m bits t own).1 := by
  unfold State.sendTrig
  extract_lets
  split
  · exact grfDrop n s hm
  split
  · exact grfDrop n s hm
  split
  · exact (queue s _ _ h).trans (grfDrop n _ hm)
  · exact queue s _ _ h

/-- A frame forwarded to several ports. -/
theorem foldl_sendTrig (l : List Nat) (s : State) (bits t : Nat) (own : Bool) (hl : ∀ m ∈ l, m < 4 ∧ m ≠ n) :
    SendsOnly n s (l.foldl (fun s m => (s.sendTrig m bits t own).1) s) := by
  induction l generalizing s with
  | nil => exact refl n s
  | cons m r ih =>
    obtain ⟨⟨hm, hne⟩, hr⟩ := List.forall_mem_cons.1 hl
    exact (sendTrig s bits t own hm hne).trans (ih _ hr)

end SendsOnly

/-- Forwarding names ports of the unit other than the one that received the frame. -/
theorem State.fwdPorts_other {s : State} {n m : Nat} (h : m ∈ s.fwdPorts n) : m < 4 ∧ m ≠ n := by
  simp only [State.fwdPorts, List.mem_filter, List.mem_range, Bool.and_eq_true, decide_eq_true_eq] at h
  exact ⟨h.1, h.2.1⟩

/-! ### A discarded frame -/

/-- The discard alone: port `n` counts the frame, and starts to count valid SYNC frames anew. -/
def State.countDiscard (n : Nat) (s : State) : State :=
  ((s.putPort n { s.gport n with good := 0 }).bump (GRF_GLn_ERR_crc n)).orF GRF_EVT_crc 1

theorem State.countDiscard_crc (n : Nat) (s : State) :
    (s.countDiscard n).rd (GRF_GLn_ERR_crc n) = (s.rd (GRF_GLn_ERR_crc n) + 1) % 2 ^ 16 := by
  have hk : GRF_EVT_crc.key ≠ (GRF_GLn_ERR_crc n).key := by simp only [Fld.key, GRF_EVT_crc, GRF_GLn_ERR_crc]; omega
  rw [State.countDiscard, State.orF_eq, State.rd_wr_ne _ _ _ _ hk, State.bump_eq, State.rd_wr_same]
  rfl

theorem State.countDiscard_event (n : Nat) (s : State) : (s.countDiscard n).rd GRF_EVT_crc % 2 = 1 := by
  rw [State.countDiscard, State.orF_eq, State.rd_wr_same, show GRF_EVT_crc.w = 1 from rfl, pow_one, Nat.mod_mod,
    Nat.or_mod_two_eq_one]
  exact .inr rfl

theorem State.countDiscard_good (n : Nat) (s : State) : ((s.countDiscard n).gport n).good = 0 :=
  congrArg GPort.good (State.gport_putPort_same s n { s.gport n with good := 0 })

theorem State.countDiscard_regs (n : Nat) (s : State) (l : List Fld) :
    SameRegs s (s.countDiscard n) (GRF_GLn_ERR_crc n :: GRF_EVT_crc :: l) :=
  ((SameRegs.of_fields (SameRegs.refl s _) rfl).wr _ _ (by simp)).wr _ _ (by simp)

theorem State.countDiscard_trl (n : Nat) (s : State) : (s.countDiscard n).trl = s.trl := rfl

theorem State.countDiscard_seen (n : Nat) (s : State) : (s.countDiscard n).grf.seen = s.grf.seen := rfl

theorem State.countDiscard_tmb (n : Nat) (s : State) : (s.countDiscard n).tmb = s.tmb := rfl

/-- What port `n` counts of a discarded frame is no count of frames dropped. -/
theorem crcFlds_not_drop (n : Nat) :
    (GRF_GLn_ERR_crc n).key ∉ dropFlds.map Fld.key ∧ GRF_EVT_crc.key ∉ dropFlds.map Fld.key := by
  refine ⟨?_, by decide⟩
  simp only [dropFlds, List.map_cons, List.map_map, List.mem_cons, List.mem_map, not_or, not_exists, not_and, Function.comp_apply, Fld.key,
    GRF_GLn_ERR_crc, GRF_EVT_drop, GRF_GLn_ERR_drop]
  exact ⟨by omega, fun m _ => by omega⟩

/-- Apart from Graft and the time base a discarded frame leaves all that is no register. -/
theorem SendsOnly.sameRest_discard {n t : Nat} {s u : State} (h : SendsOnly n ((s.advance t).countDiscard n) u) :
    SameRest s { u with grf := s.grf } := by
  obtain ⟨_, _, _, rfl⟩ := h.rest
  obtain ⟨_, hadv⟩ := State.advance_moves_tmb s t
  rw [hadv]
  cases s; rfl

/-- A valid frame, a SYNC frame cut short, and any frame at a port that is OFF or whose lands are under test: the time passes (R353,
R354, R357, R440). -/
theorem State.frameDiscard_ignores (n t bits blocks : Nat) (s : State)
    (h : s.rd (GRF_GLn_STAT_state n) = 0 ∨ s.lands = false ∨ frameOk bits blocks = true ∨ bits % 16 = 2 ∧ blocks < 4) :
    State.frameDiscard n bits blocks t s = s.advance t := by
  simp only [State.frameDiscard, State.rd_advance, State.lands_advance, Bool.not_eq_true']
  split
  · rfl
  next hn => rw [if_pos (by tauto)]

/-- Any other is counted, and then at most forwarded (R353, R356). -/
theorem State.frameDiscard_counts (n t bits blocks : Nat) (s : State) (hon : s.rd (GRF_GLn_STAT_state n) ≠ 0) (hl : s.lands = true)
    (hbad : frameOk bits blocks = false) (hcut : ¬(bits % 16 = 2 ∧ blocks < 4)) :
    SendsOnly n ((s.advance t).countDiscard n) (State.frameDiscard n bits blocks t s) := by
  have hd : ¬((s.advance t).rd (GRF_GLn_STAT_state n) = 0 ∨ frameOk bits blocks = true ∨ (!(s.advance t).lands) = true) := by
    simp [State.lands_advance, hon, hbad, hl]
  simp only [State.frameDiscard, if_neg hd, if_neg hcut]
  split
  · exact SendsOnly.foldl_sendTrig _ _ _ _ _ fun m hm => State.fwdPorts_other (List.mem_filter.1 hm).1
  · exact SendsOnly.refl n _

end Sys2Proof.Machine

namespace Sys2Proof

open Machine

/-- Settles O46: the CRC by `crc16_succ`, what is sent by `withCrc_agrees_iff`, and a discarded frame by `State.frameDiscard_counts`, after
which only sending happens (`SendsOnly`). -/
theorem frameCheck : Obligations.FrameCheck := by
  unfold Obligations.FrameCheck
  refine ⟨by decide +kernel, crc16_zero, crc16_succ, frameOk_iff,
    fun inv => ⟨fun hop src seq mark kt coarse => frameOk_trigFrame hop src seq mark coarse kt inv,
      fun src t3 t1 t2 => frameOk_syncFrame src t3 t1 t2 inv⟩,
    fun s n t bits blocks hp => ⟨fun h => ?ignored, fun hon hl hbad hcut => ?counted⟩⟩
  case ignored =>
    refine .of_performOnAt (exec_frameDiscard n bits blocks t s) hp ?_
    rw [State.frameDiscard_ignores n t bits blocks s h]
    exact ⟨TimeAt.advance s t, SameRegs.advance s t _, SameRest.advance s t⟩
  case counted =>
    refine .of_performOnAt (exec_frameDiscard n bits blocks t s) hp ?_
    have hs := State.frameDiscard_counts n t bits blocks s hon hl hbad hcut
    obtain ⟨hcrc, hevt⟩ := crcFlds_not_drop n
    have hregs : SameRegs s _ (GRF_GLn_ERR_crc n :: GRF_EVT_crc :: dropFlds) :=
      ((SameRegs.advance s t _).trans (State.countDiscard_regs n _ _)).trans
        (hs.regs.mono fun _ hf => List.mem_cons_of_mem _ (List.mem_cons_of_mem _ hf))
    refine ⟨?crc, ?event, ?good, ?trl, ?seen, ?time, hregs, hs.sameRest_discard⟩
    case crc => rw [hs.regs _ hcrc, State.countDiscard_crc, State.rd_advance]
    case event => rw [hs.regs _ hevt, State.countDiscard_event]
    case good => rw [hs.port, State.countDiscard_good]
    case trl => rw [hs.trl_eq, State.countDiscard_trl, State.advance_trl]
    case seen => rw [hs.seen_eq, State.countDiscard_seen, State.advance_grf]
    case time => rw [TimeAt, hs.tmb_eq, State.countDiscard_tmb, State.advance_kt]

end Sys2Proof
end

