-- ==== Sys2Proof/Proofs/Steps.lean ====
section
/-! SUPPORT. A step as a command or a tick, a block without power, and the state right after reset. -/

namespace Sys2Proof

open Machine

/-! ### One step -/

/-- A step runs the command at the front of the queue. -/
theorem step_cons {s : State} {c : Instr} {r : List Instr} (h : s.pending = c :: r) : step s = exec c { s with pending := r } := by
  rw [step, h]

/-- On an empty queue a step is a tick. -/
theorem step_nil {s : State} (h : s.pending = []) : step s = .next s.tick := by rw [step, h]

/-- A cycle moves the time base only. -/
theorem Machine.State.cycle_moves_tmb (s : State) (c : Nat) : ∃ b, s.cycle c = { s with tmb := b } := by
  unfold State.cycle
  exact ⟨_, rfl⟩

/-- A tick moves the time base only. -/
theorem Machine.State.tick_moves_tmb (s : State) : ∃ b, s.tick = { s with tmb := b } := by
  unfold State.tick
  split
  · exact ⟨s.tmb, rfl⟩
  · exact s.cycle_moves_tmb _

/-- A block without power does not tick. -/
theorem Machine.State.tick_dead {s : State} (h : s.pwr.dead = true) : s.tick = s := by rw [State.tick, if_pos h]

/-- Without power in the always-on domain only AON_POWER_UP does anything. -/
theorem exec_dead {c : Instr} {s : State} (h : s.pwr.dead = true) (hc : ∀ sel sigN, c ≠ .aonPowerUp sel sigN) : exec c s = .next s := by
  rcases exec_shape c s with ⟨f, e⟩ | ⟨f, e⟩ | ⟨t, f, e⟩ | ⟨sel, sigN, e⟩
  · exact e.trans (perform_dead f s h)
  · exact e.trans (performOn_off f s (.inl h))
  · rw [e, State.stationAccess, if_pos (.inl h)]
  · exact absurd e (hc sel sigN)

/-- Settles O1: the two forms of a step, and `exec_dead`. -/
theorem stepRunsFront : Obligations.StepRunsFront := by
  unfold Obligations.StepRunsFront
  refine ⟨fun c r s h => step_cons h, fun s h => ⟨s.tick, step_nil h, ?_, State.tick_dead⟩, fun c s h hc => exec_dead h hc⟩
  obtain ⟨b, e⟩ := s.tick_moves_tmb
  rw [e]

/-! ### Reset -/

/-- With no block signalled and no messages possible the interrupt invariant holds. -/
theorem irqInv_silent {s : State} (hseen : s.irqSeen = []) (hm : s.msgOn = false) : IrqInv s := fun i _ => by
  simp [hseen, hm, look]

/-- At reset the main rails are off, so no message can be sent. -/
theorem reset_msgOn : State.reset.msgOn = false := by
  have hrails : State.reset.hks.rails = false := rfl
  simp only [State.msgOn, hrails, Bool.false_and]

/-- At reset every register but those of the black box's first entry reads as with no field written. -/
theorem reset_sameRegs : SameRegs State.reset { State.reset with fields := [] } [BBX_STAT_count, BBX_HEAD_value] := fun f hf => by
  simp only [List.map_cons, List.map_nil, List.mem_cons, List.not_mem_nil, or_false, not_or] at hf
  rw [State.rd_reset f hf.1 hf.2]
  rfl

/-- Settles O2: the memories by `reset_mem_wf`, the registers by `State.rd_reset`, the rest as State.reset says. -/
theorem invReset : Obligations.InvReset := by
  unfold Obligations.InvReset
  exact ⟨irqInv_silent rfl reset_msgOn, reset_mem_wf, reset_sameRegs, rfl, rfl, rfl, rfl, rfl⟩

end Sys2Proof
end

