-- ==== Sys2Proof/Proofs/Interrupts.lean ====
section
/-! SUPPORT. The interrupt invariant (R317, R318) block by block: what signalling leaves alone, what each pass of State.irqStep settles, and
that every answer of a command ends in such a pass. -/

namespace Sys2Proof

open Machine

/-- What the sources and the state of messaging are computed from is the same in both states. -/
structure SameMessaging (s u : State) : Prop where
  fields : u.fields = s.fields
  rails : u.hks.rails = s.hks.rails
  hrv : { u.hrv with l12 := s.hrv.l12 } = s.hrv

namespace SameMessaging

theorem refl (s : State) : SameMessaging s s := ⟨rfl, rfl, rfl⟩

theorem trans {s u v : State} (h : SameMessaging s u) (k : SameMessaging u v) : SameMessaging s v :=
  ⟨k.fields.trans h.fields, k.rails.trans h.rails, by rw [← h.hrv, ← k.hrv]⟩

variable {s u : State} (h : SameMessaging s u)
include h

theorem source (i : Nat) : u.source i = s.source i := by
  have hrd : ∀ f, u.rd f = s.rd f := State.rd_congr h.fields
  have hev : ∀ l, u.evtBits l = s.evtBits l := fun l => by simp only [State.evtBits, hrd]
  have hon : ∀ f, u.on f = s.on f := fun f => by simp only [State.on, hrd]
  have hinp : u.inpIrqStat = s.inpIrqStat := by
    simp only [State.inpIrqStat, State.anyLatchIrq, State.anyLstat, h.fields, hrd, hon]
  have hstp : u.stpEvt = s.stpEvt := by simp only [State.stpEvt, hrd]
  have hpair : u.evtPair i = s.evtPair i := by
    simp only [State.evtPair, hrd, hev, hinp, hstp]
  simp only [State.source, hpair]

theorem msgOn : u.msgOn = s.msgOn := by
  have hrd : ∀ f, u.rd f = s.rd f := State.rd_congr h.fields
  have hcfg : ∀ r i, u.cfgBit r i = s.cfgBit r i := fun r i => by
    rw [State.cfgBit, State.cfgBit, State.cfgReg, State.cfgReg, ← h.hrv]
  have hmode : u.mode = s.mode := hrd _
  rw [State.msgOn, State.msgOn, hcfg, State.coreRun, State.coreRun, hrd, hmode, h.rails, ← h.hrv]

end SameMessaging

/-! ### Signalling a vector -/

/-- Signalling a vector changes neither what the sources read nor which blocks have signalled. -/
theorem signal_sameMessaging (v : Nat) (s : State) :
    SameMessaging s (State.signal v s) ∧ (State.signal v s).irqSeen = s.irqSeen := by
  unfold State.signal
  split <;> exact ⟨⟨rfl, rfl, rfl⟩, rfl⟩

/-- Sending what was pending keeps both as well. -/
theorem pbaSync_sameMessaging (s : State) : SameMessaging s s.pbaSync ∧ s.pbaSync.irqSeen = s.irqSeen := by
  unfold State.pbaSync
  split
  · exact ⟨.refl s, rfl⟩
  next hfree =>
    clear hfree
    generalize s.msxPba = l
    induction l generalizing s with
    | nil => exact ⟨.refl s, rfl⟩
    | cons v r ih =>
      rw [List.foldl_cons]
      split
      · exact ih s
      · obtain ⟨h1, e1⟩ := signal_sameMessaging v { s with msxPba := s.msxPba.filter (· ≠ v) }
        obtain ⟨h2, e2⟩ := ih (State.signal v { s with msxPba := s.msxPba.filter (· ≠ v) })
        exact ⟨.trans ⟨h1.fields, h1.rails, h1.hrv⟩ h2, e2.trans e1⟩

/-! ### One block -/

/-- The interrupt invariant of block `i`. -/
def IrqAt (i : Nat) (s : State) : Prop :=
  ((look s.irqSeen i).isSome = true → s.source i = true)
    ∧ (s.source i = true → s.msgOn = true → (look s.irqSeen i).isSome = true)

/-- It depends on no more than the sources, messaging and the block's own signal. -/
theorem IrqAt.congr {s u : State} {i : Nat} (h : IrqAt i s) (hm : SameMessaging s u) (he : look u.irqSeen i = look s.irqSeen i) :
    IrqAt i u := by
  rw [IrqAt, hm.source, hm.msgOn, he]
  exact h

/-- A block's step changes no source, no messaging and no signal of another block. -/
theorem irqStep_sameMessaging (s : State) (i : Nat) :
    SameMessaging s (s.irqStep i) ∧ ∀ j, i ≠ j → look (s.irqStep i).irqSeen j = look s.irqSeen j := by
  unfold State.irqStep
  split
  · split
    · exact ⟨.refl s, fun _ _ => rfl⟩
    · obtain ⟨h, e⟩ := signal_sameMessaging (16 + i) { s with irqSeen := ins s.irqSeen i 1 }
      exact ⟨⟨h.fields, h.rails, h.hrv⟩, fun j hj => by rw [e]; exact look_ins_ne _ _ _ _ hj⟩
  · split
    · exact ⟨⟨rfl, rfl, rfl⟩, fun j hj => look_del_ne _ _ _ hj⟩
    · exact ⟨.refl s, fun _ _ => rfl⟩

/-- After its step a block meets the invariant. -/
theorem irqStep_settles (s : State) (i : Nat) : IrqAt i (s.irqStep i) := by
  rw [IrqAt, (irqStep_sameMessaging s i).1.source, (irqStep_sameMessaging s i).1.msgOn]
  unfold State.irqStep
  by_cases hs : s.source i = true
  · rw [if_pos hs]
    split
    next h =>
      rw [Bool.or_eq_true, Bool.not_eq_true'] at h
      exact ⟨fun _ => hs, fun _ hm => h.resolve_right (by simp [hm])⟩
    · rw [(signal_sameMessaging _ _).2, look_ins_same]
      exact ⟨fun _ => hs, fun _ _ => rfl⟩
  · rw [if_neg hs]
    split
    · simp [look_del_same, hs]
    next h => exact ⟨fun h' => absurd h' h, fun h' => absurd h' hs⟩

/-- The steps of some blocks settle each of them and unsettle none. -/
theorem foldl_irqStep_settles (l : List Nat) (s : State) (i : Nat) (h : i ∈ l ∨ IrqAt i s) : IrqAt i (l.foldl State.irqStep s) := by
  induction l generalizing s with
  | nil => exact h.resolve_left (by simp)
  | cons j r ih =>
    rw [List.foldl_cons]
    by_cases hij : j = i
    · exact ih _ (.inr (hij ▸ irqStep_settles s j))
    refine ih _ (h.imp (fun hm => (List.mem_cons.1 hm).resolve_left (Ne.symm hij)) fun hs => ?_)
    obtain ⟨hm, he⟩ := irqStep_sameMessaging s j
    exact hs.congr hm (he i hij)

/-! ### Every answer -/

/-- The last thing a command does is to bring the messages up to date. -/
theorem irqInv_irqSync (s : State) : IrqInv s.irqSync := fun i hi => by
  obtain ⟨hm, he⟩ := pbaSync_sameMessaging ((List.range 17).foldl State.irqStep s)
  exact (foldl_irqStep_settles _ s i (.inl (List.mem_range.2 hi))).congr hm (by rw [← he, State.irqSync])

theorem irqInv_settle (old s : State) : IrqInv (State.settle old s) := irqInv_irqSync _

theorem IrqInv.congr {s u : State} (h : IrqInv s) (hm : SameMessaging s u) (he : u.irqSeen = s.irqSeen) : IrqInv u :=
  fun i hi => IrqAt.congr (h i hi) hm (by rw [he])

/-- After a power-up of the always-on domain no block has signalled. -/
theorem aonUp_irqSeen (sel : Nat) (sigN : Bool) (s : State) (hd : s.pwr.dead = true) : (State.aonUp sel sigN s).irqSeen = [] := by
  rw [State.aonUp, if_neg (by simp [hd])]
  rfl

/-- The main rails are off then, so no message can be sent. -/
theorem aonUp_msgOn (sel : Nat) (sigN : Bool) (s : State) (hd : s.pwr.dead = true) : (State.aonUp sel sigN s).msgOn = false := by
  have hhks : (State.aonUp sel sigN s).hks = { Hks.new with sel := sel, sigN := sigN } := by
    rw [State.aonUp, if_neg (by simp [hd])]
  simp only [State.msgOn, hhks, Hks.new, Bool.false_and]

/-- A domain that has power does not power up. -/
theorem aonUp_powered (sel : Nat) (sigN : Bool) (s : State) (hd : s.pwr.dead = false) : State.aonUp sel sigN s = s := by
  rw [State.aonUp, if_pos (by rw [hd]; rfl)]

theorem irqInv_aonUp (sel : Nat) (sigN : Bool) (s : State) (h : IrqInv s) : IrqInv (State.aonUp sel sigN s) := by
  cases hd : s.pwr.dead with
  | true => exact irqInv_silent (aonUp_irqSeen sel sigN s hd) (aonUp_msgOn sel sigN s hd)
  | false => exact (aonUp_powered sel sigN s hd).symm ▸ h

/-- Whatever a command answers meets the invariant. -/
theorem exec_irqInv (c : Instr) (s u : State) (h : IrqInv s) (hu : exec c s = .next u) : IrqInv u := by
  rcases exec_shape c s with ⟨f, e⟩ | ⟨f, e⟩ | ⟨t, f, e⟩ | ⟨sel, sigN, rfl⟩
  case inl =>
    rw [e, State.perform, Host.Outcome.next.injEq] at hu
    split at hu
    · exact hu ▸ h
    · exact hu ▸ irqInv_settle _ _
  case inr.inl =>
    rw [e, State.performOn, Host.Outcome.next.injEq] at hu
    split at hu
    · exact hu ▸ h
    · exact hu ▸ irqInv_settle _ _
  case inr.inr.inl =>
    rw [e, State.stationAccess] at hu
    split at hu
    · exact Host.Outcome.next.inj hu ▸ h
    split at hu
    · cases hu
    · exact Host.Outcome.next.inj hu ▸ irqInv_settle _ _
  case inr.inr.inr =>
    rw [exec_aonPowerUp] at hu
    exact Host.Outcome.next.inj hu ▸ irqInv_aonUp _ _ s h

theorem irqInv_tick (s : State) (h : IrqInv s) : IrqInv s.tick := by
  obtain ⟨b, e⟩ := s.tick_moves_tmb
  exact e ▸ h.congr ⟨rfl, rfl, rfl⟩ rfl

/-- Settles O3: every answer of a command ends in State.irqSync (`exec_irqInv`), and a tick changes nothing the invariant speaks of. -/
theorem irqInvStep : Obligations.IrqInvStep := by
  unfold Obligations.IrqInvStep
  intro s u h hu
  cases hq : s.pending with
  | nil => 
    rw [step_nil hq] at hu
    exact Host.Outcome.next.inj hu ▸ irqInv_tick s h
  | cons c r => 
    rw [step_cons hq] at hu
    have hr : IrqInv { s with pending := r } := h.congr ⟨rfl, rfl, rfl⟩ rfl
    exact exec_irqInv c { s with pending := r } u hr hu

end Sys2Proof
end

