-- ==== Sys2Proof/Proofs/MemoriesKept.lean ====
section
/-! SUPPORT. The four memories of the machine, and the operations that leave all of them as they are: one lemma for each. -/

namespace Sys2Proof.Machine

/-- The four memories. -/
def State.mems (s : State) : Mem × Mem × Mem × Mem := (s.near, s.deep, s.scr, s.nv)

/-- What each step of a fold leaves, the fold leaves. -/
@[simp] theorem foldl_mems {α : Type} (g : State → α → State) (l : List α) (s : State) (h : ∀ u a, (g u a).mems = u.mems) :
    (l.foldl g s).mems = s.mems := by
  induction l generalizing s with
  | nil => rfl
  | cons a r ih => rw [List.foldl_cons, ih, h]

@[simp] theorem State.mems_mk (b f c h fr g i t d ta cl tr ac hd re si ti dm ra hr st gr hk pw bb jt near deep scr nv po dp ce mt mp mi ir pe) :
    (State.mk b f c h fr g i t d ta cl tr ac hd re si ti dm ra hr st gr hk pw bb jt near deep scr nv po dp ce mt mp mi ir pe).mems
      = (near, deep, scr, nv) := by rfl
@[simp] theorem State.mems_ite (c : Prop) [Decidable c] (a b : State) : (if c then a else b).mems = if c then a.mems else b.mems :=
  apply_ite _ _ _ _
@[simp] theorem State.mems_eta (s : State) : (s.near, s.deep, s.scr, s.nv) = s.mems := by rfl

@[simp] theorem State.wr_mems (s : State) (f : Fld) (v : Nat) : (State.wr s f v).mems = s.mems := by simp [State.wr]

@[simp] theorem State.wrS_mems (s : State) (f : Fld) (i : Int) : (State.wrS s f i).mems = s.mems := by rfl

@[simp] theorem State.bump_mems (s : State) (f : Fld) : (State.bump s f).mems = s.mems := by rfl

@[simp] theorem State.addF_mems (s : State) (f : Fld) (n : Nat) : (State.addF s f n).mems = s.mems := by rfl

@[simp] theorem State.addSat_mems (s : State) (f : Fld) (n : Nat) : (State.addSat s f n).mems = s.mems := by rfl

@[simp] theorem State.orF_mems (s : State) (f : Fld) (v : Nat) : (State.orF s f v).mems = s.mems := by rfl

@[simp] theorem State.clrF_mems (s : State) (f : Fld) (v : Nat) : (State.clrF s f v).mems = s.mems := by rfl

@[simp] theorem State.draw_mems (s : State) (n : Nat) : (State.draw s n).2.mems = s.mems := by rfl

@[simp] theorem State.activates_mems (n : Nat) (s : State) : (State.activates n s).mems = s.mems := by simp [State.activates]

@[simp] theorem State.granted_mems (wait : Nat) (s : State) : (State.granted wait s).mems = s.mems := by simp [State.granted]

@[simp] theorem State.advance_mems (s : State) (t : Nat) : (State.advance s t).mems = s.mems := by simp [State.advance]

@[simp] theorem State.cycle_mems (s : State) (c : Nat) : (State.cycle s c).mems = s.mems := by
  obtain ⟨b, e⟩ := s.cycle_moves_tmb c
  rw [e]
  rfl

@[simp] theorem State.bbox_mems (s : State) (code src detail : Nat) : (State.bbox s code src detail).mems = s.mems := by simp [State.bbox]

@[simp] theorem State.raiseEvent_mems (s : State) (e : Nat) : (State.raiseEvent s e).mems = s.mems := by simp [State.raiseEvent]

@[simp] theorem State.bbxFreeze_mems (s : State) (cause : Nat) : (State.bbxFreeze s cause).mems = s.mems := by simp [State.bbxFreeze]

@[simp] theorem State.regrid_mems (s : State) (p kt40 : Nat) : (State.regrid s p kt40).mems = s.mems := by rfl

@[simp] theorem State.retime_mems (s : State) : (State.retime s).mems = s.mems := by simp [State.retime]

@[simp] theorem State.nearCorrected_mems (s : State) : (State.nearCorrected s).mems = s.mems := by rfl

@[simp] theorem State.nearUncorr_mems (s : State) (a : Nat) : (State.nearUncorr s a).mems = s.mems := by simp [State.nearUncorr]

@[simp] theorem State.scrUncorr_mems (s : State) (a : Nat) : (State.scrUncorr s a).mems = s.mems := by simp [State.scrUncorr]

@[simp] theorem State.cellRead_mems (s : State) (target a n : Nat) : (State.cellRead s target a n).mems = s.mems := by
  unfold State.cellRead
  (repeat' split) <;> simp

@[simp] theorem State.ringMeet_mems (s : State) (f a b : Nat) : (State.ringMeet s f a b).mems = s.mems := by
  simp only [State.ringMeet]
  refine foldl_mems _ _ _ fun u w => foldl_mems _ _ _ fun v _ => ?_
  split <;> simp

@[simp] theorem State.ringNow_mems (n : Nat) (s : State) : (State.ringNow n s).mems = s.mems := by simp [State.ringNow]

@[simp] theorem State.ringFull_mems (n : Nat) (s : State) : (State.ringFull n s).mems = s.mems := by rfl

@[simp] theorem State.ringsEmpty_mems (s : State) : (State.ringsEmpty s).mems = s.mems := by
  unfold State.ringsEmpty
  exact foldl_mems _ _ _ fun _ _ => by simp

@[simp] theorem State.ringsArm_mems (s : State) : (State.ringsArm s).mems = s.mems := by
  unfold State.ringsArm
  exact foldl_mems _ _ _ fun _ _ => by simp

@[simp] theorem State.ringStart_mems (s : State) : (State.ringStart s).mems = s.mems := by rfl

@[simp] theorem State.wrote_mems (s : State) (src size n : Nat) : (State.wrote s src size n).mems = s.mems := by rfl

@[simp] theorem State.drainedRecs_mems (s : State) (r : Rec) : (State.drainedRecs s r).1.mems = s.mems := by
  unfold State.drainedRecs
  exact foldl_mems _ _ _ fun _ _ => by simp

@[simp] theorem State.drained_mems (s : State) (r : Rec) : (State.drained s r).1.mems = s.mems := by
  unfold State.drained
  (repeat' split) <;> simp

@[simp] theorem State.eventsSus_mems (k : Nat) (s : State) : (State.eventsSus k s).mems = s.mems := by rfl

@[simp] theorem State.lead_mems (s : State) (r : Rec) : (State.lead s r).mems = s.mems := by simp [State.lead]

@[simp] theorem State.event_mems (s : State) (r : Rec) : (State.event s r).mems = s.mems := by
  unfold State.event
  split <;> simp

@[simp] theorem State.mark_mems (s : State) (kt kind code ch x y n detail : Nat) (coarse : Bool) :
    (State.mark s kt kind code ch x y n detail coarse).mems = s.mems := by simp [State.mark]

@[simp] theorem State.markTrellis_mems (s : State) (kt code ch level branch : Nat) (coarse : Bool) :
    (State.markTrellis s kt code ch level branch coarse).mems = s.mems := by
  unfold State.markTrellis
  split <;> simp

@[simp] theorem State.susFrom_mems (s : State) (key t : Nat) : (State.susFrom s key t).mems = s.mems := by rfl

@[simp] theorem State.susUntil_mems (s : State) (key t : Nat) : (State.susUntil s key t).mems = s.mems := by simp [State.susUntil]

@[simp] theorem State.susPrune_mems (s : State) (t : Nat) : (State.susPrune s t).mems = s.mems := by simp [State.susPrune]

@[simp] theorem State.addUnit_mems (s : State) (u : RUnit) : (State.addUnit s u).mems = s.mems := by simp [State.addUnit]

@[simp] theorem State.setRu_mems (s : State) (n : Nat) (r : Ru) : (State.setRu s n r).mems = s.mems := by rfl

@[simp] theorem State.redShut_mems (s : State) (n : Nat) : (State.redShut s n).mems = s.mems := by rfl

@[simp] theorem State.redLose_mems (s : State) (n k : Nat) : (State.redLose s n k).mems = s.mems := by simp [State.redLose]

@[simp] theorem State.redResus_mems (s : State) (n : Nat) : (State.redResus s n).mems = s.mems := by simp [State.redResus]

@[simp] theorem State.redSuspect_mems (s : State) : (State.redSuspect s).mems = s.mems := by
  unfold State.redSuspect
  exact foldl_mems _ _ _ fun _ _ => by simp

@[simp] theorem State.redStart1_mems (p : Nat) (s : State) (n : Nat) : (State.redStart1 p s n).mems = s.mems := by simp [State.redStart1]

@[simp] theorem State.redArm1_mems (s : State) (n : Nat) : (State.redArm1 s n).mems = s.mems := by rfl

@[simp] theorem State.redArm_mems (s : State) : (State.redArm s).mems = s.mems := by
  unfold State.redArm
  exact foldl_mems _ _ _ fun _ _ => by simp

@[simp] theorem State.setSlot_mems (s : State) (n : Nat) (x : Slot) : (State.setSlot s n x).mems = s.mems := by rfl

@[simp] theorem State.timDiscard_mems (s : State) (n : Nat) : (State.timDiscard s n).mems = s.mems := by simp [State.timDiscard]

@[simp] theorem State.recPace_mems (s : State) (n t : Nat) (u : RUnit) (ends : List (Nat × Stamp)) :
    (State.recPace s n t u ends).mems = s.mems := by rfl

@[simp] theorem State.timRecord_mems (s : State) (n t t0 cnt : Nat) (value : Int) (s0 sres sus : Bool) (ends : List (Nat × Stamp)) :
    (State.timRecord s n t t0 cnt value s0 sres sus ends).mems = s.mems := by simp [State.timRecord]

@[simp] theorem State.timWrite_mems (due : Nat × RUnit → Bool) (s : State) : (State.timWrite due s).mems = s.mems := by
  unfold State.timWrite
  exact foldl_mems _ _ _ fun _ _ => by simp

@[simp] theorem State.timMeasure_mems (s : State) (n : Nat) (a b : Stamp) :
    (State.timMeasure s n a b).mems = s.mems := by simp [State.timMeasure]

@[simp] theorem State.signedPair_mems (n fuel : Nat) (u : State) : (State.signedPair n fuel u).mems = u.mems := by
  induction fuel generalizing u with
  | zero => rfl
  | succ k ih =>
    simp only [State.signedPair]
    (repeat' split) <;> simp [ih]

@[simp] theorem State.fwdStart_mems (s : State) (n : Nat) (e : Stamp) : (State.fwdStart s n e).mems = s.mems := by simp [State.fwdStart]

@[simp] theorem State.fwdStop_mems (s : State) (n : Nat) (e : Stamp) : (State.fwdStop s n e).mems = s.mems := by
  simp only [State.fwdStop]
  (repeat' split) <;> simp

@[simp] theorem State.spanMeasure_mems (s : State) (n : Nat) (a e : Stamp) :
    (State.spanMeasure s n a e).mems = s.mems := by simp [State.spanMeasure]

@[simp] theorem State.periodEdge_mems (s : State) (n : Nat) (e : Stamp) : (State.periodEdge s n e).mems = s.mems := by
  simp only [State.periodEdge]
  (repeat' split) <;> simp

@[simp] theorem State.widthEdge_mems (s : State) (n : Nat) (e : Stamp) : (State.widthEdge s n e).mems = s.mems := by
  simp only [State.widthEdge]
  (repeat' split) <;> simp

@[simp] theorem State.gateClose_mems (s : State) (n t : Nat) (next : Option Nat) : (State.gateClose s n t next).mems = s.mems := by
  simp only [State.gateClose]
  (repeat' split) <;> simp

@[simp] theorem State.timedClose_mems (n t fuel : Nat) (u : State) : (State.timedClose n t fuel u).mems = u.mems := by
  induction fuel generalizing u with
  | zero => rfl
  | succ k ih =>
    simp only [State.timedClose]
    (repeat' split) <;> simp [ih]

@[simp] theorem State.gateEdgeIn_mems (s : State) (n : Nat) (e : Stamp) : (State.gateEdgeIn s n e).mems = s.mems := by
  simp only [State.gateEdgeIn]
  (repeat' split) <;> simp

@[simp] theorem State.slotEdge_mems (n : Nat) (s : State) (ce : Nat × Stamp) : (State.slotEdge n s ce).mems = s.mems := by
  unfold State.slotEdge
  (repeat' split) <;> simp

@[simp] theorem State.qSync_mems (s : State) : (State.qSync s).mems = s.mems := by simp [State.qSync]

@[simp] theorem State.slotDrop_mems (t : Nat) (s : State) (n : Nat) : (State.slotDrop t s n).mems = s.mems := by simp [State.slotDrop]

@[simp] theorem State.timDrop_mems (t : Nat) (s : State) : (State.timDrop t s).mems = s.mems := by
  unfold State.timDrop
  simp

@[simp] theorem State.lossGap_mems (s : State) (key b : Nat) (l : Loss) : (State.lossGap s key b l).mems = s.mems := by simp [State.lossGap]

@[simp] theorem State.lossOver_mems (t : Nat) (s : State) (key : Nat) : (State.lossOver t s key).mems = s.mems := by
  unfold State.lossOver
  split <;> simp

@[simp] theorem State.lossNext_mems (s : State) (key t : Nat) : (State.lossNext s key t).mems = s.mems := by
  simp only [State.lossNext]
  (repeat' split) <;> simp [foldl_mems]

@[simp] theorem State.lossStop_mems (t : Nat) (s : State) : (State.lossStop t s).mems = s.mems := by
  unfold State.lossStop
  exact foldl_mems _ _ _ fun _ _ => by simp

@[simp] theorem State.timLose_mems (s : State) (key : Nat) (e : Stamp) : (State.timLose s key e).mems = s.mems := by
  simp only [State.timLose]
  (repeat' split) <;> simp

@[simp] theorem State.timNote_mems (s : State) (key t : Nat) : (State.timNote s key t).mems = s.mems := by simp [State.timNote]

@[simp] theorem State.qMax_mems (s : State) (c d : Nat) : (State.qMax s c d).mems = s.mems := by simp [State.qMax]

@[simp] theorem State.timArm_mems (s : State) : (State.timArm s).mems = s.mems := by
  unfold State.timArm
  (repeat' split) <;> simp

@[simp] theorem State.timStart_mems (s : State) (t : Nat) : (State.timStart s t).mems = s.mems := by simp [State.timStart]

@[simp] theorem State.timStop_mems (s : State) : (State.timStop s).mems = s.mems := by rfl

@[simp] theorem State.gateInput_mems (s : State) (g : Nat) (e : Stamp) : (State.gateInput s g e).mems = s.mems := by
  unfold State.gateInput
  (repeat' split) <;> simp

@[simp] theorem State.timHold_mems (s : State) (es : List HeldE) : (State.timHold s es).mems = s.mems := by simp [State.timHold]

@[simp] theorem State.slotStale_mems (n t : Nat) (s : State) : (State.slotStale n t s).mems = s.mems := by simp [State.slotStale]

@[simp] theorem State.setSiv_mems (s : State) (q : Siv) : (State.setSiv s q).mems = s.mems := by rfl

@[simp] theorem State.sivSeq_mems (s : State) (p : Nat) : (State.sivSeq s p).mems = s.mems := by simp [State.sivSeq]

@[simp] theorem State.sivArm_mems (s : State) : (State.sivArm s).mems = s.mems := by simp [State.sivArm]

@[simp] theorem State.sivHalt_mems (s : State) : (State.sivHalt s).mems = s.mems := by rfl

@[simp] theorem State.sieveOffer_mems (tile t : Nat) (s : State) : (State.sieveOffer tile t s).mems = s.mems := by
  simp only [State.sieveOffer]
  (repeat' split) <;> simp

@[simp] theorem State.sievePass_mems (tile t : Nat) (s : State) : (State.sievePass tile t s).mems = s.mems := by
  simp only [State.sievePass]
  (repeat' split) <;> simp

@[simp] theorem State.trlCheck_mems (s : State) : (State.trlCheck s).mems = s.mems := by rfl

@[simp] theorem State.hdgCheck_mems (s : State) : (State.hdgCheck s).mems = s.mems := by rfl

@[simp] theorem State.armReport_mems (s : State) : (State.armReport s).mems = s.mems := by
  unfold State.armReport
  (repeat' split) <;> simp

@[simp] theorem State.dskCompute_mems (s : State) (ch : Nat) : (State.dskCompute s ch).mems = s.mems := by rfl

@[simp] theorem State.dskPend_mems (s : State) (p : Pend) : (State.dskPend s p).mems = s.mems := by rfl

@[simp] theorem State.dskTake_mems (s : State) (p : Pend) : (State.dskTake s p).mems = s.mems := by
  unfold State.dskTake
  split <;> simp

@[simp] theorem State.dskApply_mems (s : State) : (State.dskApply s).1.mems = s.mems := by
  unfold State.dskApply
  exact foldl_mems _ _ _ fun _ _ => by simp

@[simp] theorem State.dskBurst_mems (s : State) : (State.dskBurst s).1.mems = s.mems := by
  simp only [State.dskBurst]
  (repeat' split) <;> simp [foldl_mems]

@[simp] theorem State.gatherEdge_mems (s : State) (ch t : Nat) (up : Bool) : (State.gatherEdge s ch t up).mems = s.mems := by
  unfold State.gatherEdge
  split <;> simp

@[simp] theorem State.calOut_mems (s : State) (r : Rec) : (State.calOut s r).mems = s.mems := by simp [State.calOut]

@[simp] theorem State.forceGone_mems (s : State) : (State.forceGone s).mems = s.mems := by rfl

@[simp] theorem State.gatherPair_mems (sus : Bool) (p : State × List (Nat × Nat × Int × Int × Int)) (g : GPair) :
    (State.gatherPair sus p g).1.mems = p.1.mems := by
  simp only [State.gatherPair]
  (repeat' split) <;> simp

@[simp] theorem State.gatherClose_mems (s : State) (t : Nat) : (State.gatherClose s t).mems = s.mems := by
  have hpairs : ∀ (sus : Bool) (l : List GPair) (p : State × List (Nat × Nat × Int × Int × Int)),
      (l.foldl (State.gatherPair sus) p).1.mems = p.1.mems := fun sus l p => by
    induction l generalizing p with
    | nil => rfl
    | cons a r ih => rw [List.foldl_cons, ih, State.gatherPair_mems]
  unfold State.gatherClose
  split
  · rfl
  · simp [hpairs]

@[simp] theorem State.gatherAbort_mems (s : State) (why : Nat) : (State.gatherAbort s why).mems = s.mems := by
  simp only [State.gatherAbort]
  (repeat' split) <;> simp [foldl_mems]

@[simp] theorem State.gatherStart_mems (s : State) : (State.gatherStart s).mems = s.mems := by simp [State.gatherStart]

@[simp] theorem State.gatherSuspect_mems (s : State) : (State.gatherSuspect s).mems = s.mems := by
  unfold State.gatherSuspect
  split <;> simp

@[simp] theorem State.dskIdleApply_mems (t : Nat) (s : State) : (State.dskIdleApply t s).mems = s.mems := by simp [State.dskIdleApply]

@[simp] theorem State.gatherExpire_mems (t : Nat) (s : State) : (State.gatherExpire t s).mems = s.mems := by
  simp only [State.gatherExpire]
  (repeat' split) <;> simp

@[simp] theorem State.gatherCtl_mems (s : State) (start abort : Bool) :
    (State.gatherCtl s start abort).mems = s.mems := by simp [State.gatherCtl]

@[simp] theorem State.putRes_mems (s : State) (unit group : Nat) (g : ResG) : (State.putRes s unit group g).mems = s.mems := by rfl

@[simp] theorem State.residue_mems (unit group slot : Nat) (second : Bool) (t : Nat) (s : State) :
    (State.residue unit group slot second t s).mems = s.mems := by
  simp only [State.residue]
  (repeat' split) <;> simp

@[simp] theorem State.resArm_mems (s : State) : (State.resArm s).mems = s.mems := by rfl

@[simp] theorem State.laneRegs_mems (s : State) (g : Nat) : (State.laneRegs s g).mems = s.mems := by rfl

@[simp] theorem State.putLanes_mems (s : State) (g : Nat) (ls : List Lane) : (State.putLanes s g ls).mems = s.mems := by rfl

@[simp] theorem State.laneFail_mems (ch t : Nat) (s : State) : (State.laneFail ch t s).mems = s.mems := by
  simp only [State.laneFail]
  (repeat' split) <;> simp

@[simp] theorem State.laneEdge_mems (s : State) (ch : Nat) : (State.laneEdge s ch).mems = s.mems := by simp [State.laneEdge]

@[simp] theorem State.laneMeasured_mems (g t : Nat) (s : State) : (State.laneMeasured g t s).mems = s.mems := by simp [State.laneMeasured]

@[simp] theorem State.laneRestart_mems (s : State) : (State.laneRestart s).mems = s.mems := by simp [State.laneRestart]

@[simp] theorem State.laneBurst_mems (s : State) : (State.laneBurst s).1.mems = s.mems := by
  unfold State.laneBurst
  split <;> simp

@[simp] theorem State.laneTake_mems (s : State) (l : Lane) : (State.laneTake s l).mems = s.mems := by simp [State.laneTake]

@[simp] theorem State.laneSwap_mems (s : State) : (State.laneSwap s).1.mems = s.mems := by
  unfold State.laneSwap
  exact foldl_mems _ _ _ fun _ _ => by simp

@[simp] theorem State.laneSwapIdle_mems (g t : Nat) (s : State) : (State.laneSwapIdle g t s).mems = s.mems := by
  unfold State.laneSwapIdle
  simp

@[simp] theorem State.takeDelays_mems (s : State) : (State.takeDelays s).mems = s.mems := by
  unfold State.takeDelays
  exact foldl_mems _ _ _ fun _ _ => by simp

@[simp] theorem State.trlStart_mems (s : State) (k : Nat) : (State.trlStart s k).mems = s.mems := by
  simp only [State.trlStart, State.mems_mk, State.mems_eta, State.wr_mems]
  exact foldl_mems _ _ _ fun u n => u.wr_mems _ _

@[simp] theorem State.restartAt_mems (s : State) (k : Nat) : (State.restartAt s k).mems = s.mems := by
  unfold State.restartAt
  split <;> simp

@[simp] theorem State.gapDone_mems (s : State) (lost : Nat) : (State.gapDone s lost).mems = s.mems := by
  simp only [State.gapDone]
  (repeat' split) <;> simp

@[simp] theorem State.dropOpening_mems (s : State) : (State.dropOpening s).mems = s.mems := by
  simp only [State.dropOpening]
  (repeat' split) <;> simp [foldl_mems]

@[simp] theorem State.stallGap_mems (s : State) (g : Seg) (e t : Nat) : (State.stallGap s g e t).mems = s.mems := by
  unfold State.stallGap
  split <;> simp

@[simp] theorem State.freePlace_mems (s : State) (i : Nat) : (State.freePlace s i).mems = s.mems := by
  unfold State.freePlace
  (repeat' split) <;> simp

@[simp] theorem State.stGap_mems (t : Nat) (s : State) (j : Nat) : (State.stGap t s j).mems = s.mems := by
  unfold State.stGap
  split <;> simp

@[simp] theorem State.segGone_mems (s : State) (g : Seg) (a b kEnd u : Nat) (full : Bool) :
    (State.segGone s g a b kEnd u full).mems = s.mems := by simp [State.segGone]

@[simp] theorem State.trigRegs_mems (s : State) (x : Trig) : (State.trigRegs s x).mems = s.mems := by rfl

@[simp] theorem State.putPort_mems (s : State) (n : Nat) (g : GPort) : (State.putPort s n g).mems = s.mems := by rfl

@[simp] theorem State.portTo_mems (s : State) (n st : Nat) : (State.portTo s n st).mems = s.mems := by simp [State.portTo]

@[simp] theorem State.portEval_mems (n : Nat) (s : State) : (State.portEval n s).mems = s.mems := by simp [State.portEval]

@[simp] theorem State.portsEval_mems (s : State) : (State.portsEval s).mems = s.mems := by
  unfold State.portsEval
  exact foldl_mems _ _ _ fun _ _ => by simp

@[simp] theorem State.grfDrop_mems (s : State) (n : Nat) : (State.grfDrop s n).mems = s.mems := by rfl

@[simp] theorem State.sendTrig_mems (s : State) (n bits t : Nat) (own : Bool) : (State.sendTrig s n bits t own).1.mems = s.mems := by
  simp only [State.sendTrig]
  (repeat' split) <;> simp

@[simp] theorem State.grfXtrig_mems (s : State) (mask mark : Nat) (coarse : Bool) (kt t : Nat) :
    (State.grfXtrig s mask mark coarse kt t).mems = s.mems := by
  have hsend : ∀ (bits : Nat) (l : List Nat) (p : State × Bool),
      (l.foldl (fun (p : State × Bool) n =>
        if bit mask n then ((p.1.sendTrig n bits t true).1, p.2 || (p.1.sendTrig n bits t true).2) else p) p).1.mems = p.1.mems :=
    fun b l p => by
      induction l generalizing p with
      | nil => rfl
      | cons a r ih =>
        rw [List.foldl_cons, ih]
        split <;> simp
  unfold State.grfXtrig
  split
  · rfl
  · dsimp only
    split <;> simp [hsend]

@[simp] theorem State.trigFrame_mems (n hop src seq mark : Nat) (coarse : Bool) (kt t : Nat) (s : State) :
    (State.trigFrame n hop src seq mark coarse kt t s).mems = s.mems := by
  unfold State.trigFrame
  simp

@[simp] theorem State.frameDiscard_mems (n bits blocks t : Nat) (s : State) : (State.frameDiscard n bits blocks t s).mems = s.mems := by
  unfold State.frameDiscard
  (repeat' split) <;> simp

@[simp] theorem State.ofsCheck_mems (s : State) (n : Nat) : (State.ofsCheck s n).mems = s.mems := by simp [State.ofsCheck]

@[simp] theorem State.syncMeasure_mems (s : State) (n t3 t1 t2 t4 : Nat) : (State.syncMeasure s n t3 t1 t2 t4).mems = s.mems := by rfl

@[simp] theorem State.syncFrame_mems (n unit t3 t1 t2 t : Nat) (s : State) :
    (State.syncFrame n unit t3 t1 t2 t s).mems = s.mems := by simp [State.syncFrame]

@[simp] theorem State.syncSend_mems (n t : Nat) (s : State) : (State.syncSend n t s).mems = s.mems := by
  simp only [State.syncSend]
  (repeat' split) <;> simp

@[simp] theorem State.portsLost_mems (s : State) : (State.portsLost s).mems = s.mems := by
  unfold State.portsLost
  exact foldl_mems _ _ _ fun _ _ => by simp

@[simp] theorem State.linkTimeout_mems (n : Nat) (lost : Bool) (t : Nat) (s : State) :
    (State.linkTimeout n lost t s).mems = s.mems := by simp [State.linkTimeout]

@[simp] theorem State.actCt_mems (s : State) (l b : Nat) : (State.actCt s l b).mems = s.mems := by simp [State.actCt]

@[simp] theorem State.actTm_mems (s : State) (l b k t : Nat) : (State.actTm s l b k t).mems = s.mems := by simp [State.actTm]

@[simp] theorem State.actQual_mems (s : State) (l b k : Nat) : (State.actQual s l b k).mems = s.mems := by simp [State.actQual]

@[simp] theorem State.pulse_mems (s : State) (t n : Nat) : (State.pulse s t n).mems = s.mems := by simp [State.pulse]

@[simp] theorem State.actXtrig_mems (s : State) (x : Taken) : (State.actXtrig s x).mems = s.mems := by
  unfold State.actXtrig
  (repeat' split) <;> simp

@[simp] theorem State.actMark_mems (s : State) (x : Taken) : (State.actMark s x).mems = s.mems := by simp [State.actMark]

@[simp] theorem State.act_mems (k : Nat) (s : State) (x : Taken) : (State.act k s x).mems = s.mems := by simp [State.act]

@[simp] theorem State.putRule_mems (s : State) (n : Nat) (r : Rule) : (State.putRule s n r).mems = s.mems := by rfl

@[simp] theorem State.armClear_mems (s : State) : (State.armClear s).mems = s.mems := by
  have hregs : ∀ (l : List Fld) (u : State), (l.foldl (fun s f => s.wr f 0) u).mems = u.mems := fun l u =>
    foldl_mems _ _ _ fun v f => v.wr_mems f 0
  simp only [State.armClear, State.mems_mk, State.mems_eta, State.ringsArm_mems, State.resArm_mems, State.timArm_mems, State.sivArm_mems,
    State.redArm_mems]
  rw [foldl_mems _ _ _ fun u n => u.wr_mems _ _, hregs]

@[simp] theorem State.susFresh_mems (s : State) : (State.susFresh s).mems = s.mems := by simp [State.susFresh]

@[simp] theorem State.armRequest_mems (s : State) (t : Nat) : (State.armRequest s t).mems = s.mems := by
  unfold State.armRequest
  (repeat' split) <;> simp

@[simp] theorem State.enterWait_mems (s : State) (g : Seg) (t : Nat) (cut : Bool) : (State.enterWait s g t cut).mems = s.mems := by rfl

@[simp] theorem State.rearm_mems (s : State) (tEnd : Nat) : (State.rearm s tEnd).mems = s.mems := by simp [State.rearm]

@[simp] theorem State.acqIdle_mems (t : Nat) (s : State) : (State.acqIdle t s).mems = s.mems := by simp [State.acqIdle]

@[simp] theorem State.relevel_mems (s : State) (t : Nat) : (State.relevel s t).mems = s.mems := by simp [State.relevel]

@[simp] theorem State.latchTime_mems (s : State) (ch t : Nat) (m0 : Bool) :
    (State.latchTime s ch t m0).mems = s.mems := by simp [State.latchTime]

@[simp] theorem State.latchSet_mems (s : State) (ch t : Nat) (m0 : Bool) :
    (State.latchSet s ch t m0).mems = s.mems := by simp [State.latchSet]

@[simp] theorem State.latchEdge_mems (s : State) (ch t : Nat) (up m0 : Bool) :
    (State.latchEdge s ch t up m0).mems = s.mems := by simp [State.latchEdge]

@[simp] theorem State.latchClear_mems (s : State) (ch t : Nat) : (State.latchClear s ch t).mems = s.mems := by
  unfold State.latchClear
  split <;> simp

@[simp] theorem State.periodTick_mems (ch t : Nat) (s : State) : (State.periodTick ch t s).mems = s.mems := by simp [State.periodTick]

@[simp] theorem State.perRestart_mems (s : State) (ch : Nat) : (State.perRestart s ch).mems = s.mems := by rfl

@[simp] theorem State.perSync_mems (s : State) : (State.perSync s).mems = s.mems := by rfl

@[simp] theorem State.logAdd_mems (s : State) (ch v t : Nat) (edge sres : Bool) :
    (State.logAdd s ch v t edge sres).mems = s.mems := by simp [State.logAdd]

@[simp] theorem State.enterUnres_mems (s : State) (ch t e : Nat) : (State.enterUnres s ch t e).mems = s.mems := by simp [State.enterUnres]

@[simp] theorem State.resolve_mems (ch : Nat) (v : Int) (t : Nat) (s : State) : (State.resolve ch v t s).mems = s.mems := by
  simp only [State.resolve]
  (repeat' split) <;> simp

@[simp] theorem State.thrWritten_mems (s : State) (ch : Nat) (changed : Bool) :
    (State.thrWritten s ch changed).mems = s.mems := by simp [State.thrWritten]

@[simp] theorem State.drift_mems (s : State) (ch : Nat) (q : Int) : (State.drift s ch q).mems = s.mems := by simp [State.drift]

@[simp] theorem State.swept_mems (s : State) (ch : Nat) : (State.swept s ch).mems = s.mems := by simp [State.swept]

@[simp] theorem State.readback_mems (ch : Nat) (c0 c1 c2 c3 : Int) (t : Nat) (s : State) :
    (State.readback ch c0 c1 c2 c3 t s).mems = s.mems := by simp [State.readback]

@[simp] theorem State.overdrive_mems (ch t : Nat) (s : State) : (State.overdrive ch t s).mems = s.mems := by simp [State.overdrive]

@[simp] theorem State.overdriveEnd_mems (ch t : Nat) (s : State) : (State.overdriveEnd ch t s).mems = s.mems := by simp [State.overdriveEnd]

@[simp] theorem State.stRate_mems (s : State) (j t : Nat) : (State.stRate s j t).1.mems = s.mems := by
  simp only [State.stRate]
  (repeat' split) <;> simp

@[simp] theorem State.stEdge_mems (s : State) (ch t : Nat) (up sres : Bool) :
    (State.stEdge s ch t up sres).mems = s.mems := by simp [State.stEdge]

@[simp] theorem State.m4Edge_mems (s : State) (ch t : Nat) (up sres : Bool) :
    (State.m4Edge s ch t up sres).mems = s.mems := by simp [State.m4Edge]

@[simp] theorem State.pchkEdge_mems (s : State) (ch : Nat) : (State.pchkEdge s ch).mems = s.mems := by
  unfold State.pchkEdge
  split <;> simp

@[simp] theorem State.tdcTake_mems (s : State) (ch t : Nat) : (State.tdcTake s ch t).mems = s.mems := by simp [State.tdcTake]

@[simp] theorem State.unresEdge_mems (ch : Nat) (up : Bool) (t : Nat) (s : State) :
    (State.unresEdge ch up t s).mems = s.mems := by simp [State.unresEdge]

@[simp] theorem State.pchkStart_mems (s : State) (t : Nat) (atArm task : Bool) : (State.pchkStart s t atArm task).mems = s.mems := by rfl

@[simp] theorem State.pchkRequest_mems (s : State) : (State.pchkRequest s).mems = s.mems := by simp [State.pchkRequest]

@[simp] theorem State.pchkStore_mems (s : State) (e : Nat × Nat × Int × Int) : (State.pchkStore s e).mems = s.mems := by rfl

@[simp] theorem State.pchkMeasure_mems (ch : Nat) (v0 v1 : Int) (t : Nat) (s : State) : (State.pchkMeasure ch v0 v1 t s).mems = s.mems := by
  simp only [State.pchkMeasure]
  (repeat' split) <;> simp

@[simp] theorem State.convertTimes_mems (s : State) : (State.convertTimes s).mems = s.mems := by
  unfold State.convertTimes
  exact foldl_mems _ _ _ fun _ _ => by simp

@[simp] theorem State.setLoop_mems (s : State) (v : Int) : (State.setLoop s v).mems = s.mems := by rfl

@[simp] theorem State.loopUpdate_mems (s : State) : (State.loopUpdate s).mems = s.mems := by simp [State.loopUpdate]

@[simp] theorem State.leaveLock_mems (s : State) : (State.leaveLock s).mems = s.mems := by simp [State.leaveLock]

@[simp] theorem State.toHoldover_mems (s : State) : (State.toHoldover s).mems = s.mems := by simp [State.toHoldover]

@[simp] theorem State.refEval_mems (s : State) : (State.refEval s).mems = s.mems := by simp [State.refEval]

@[simp] theorem State.toLocked_mems (s : State) : (State.toLocked s).mems = s.mems := by rfl

@[simp] theorem State.srcWritten_mems (s : State) : (State.srcWritten s).mems = s.mems := by simp [State.srcWritten]

@[simp] theorem State.ppsAccept_mems (s : State) (te p : Int) : (State.ppsAccept s te p).mems = s.mems := by simp [State.ppsAccept]

@[simp] theorem State.ppsOutlier_mems (s : State) : (State.ppsOutlier s).mems = s.mems := by simp [State.ppsOutlier]

@[simp] theorem State.ppsTimeout_mems (t : Nat) (s : State) : (State.ppsTimeout t s).mems = s.mems := by
  simp only [State.ppsTimeout]
  (repeat' split) <;> simp

@[simp] theorem State.refValid_mems (hz t : Nat) (s : State) : (State.refValid hz t s).mems = s.mems := by simp [State.refValid]

@[simp] theorem State.refInvalid_mems (t : Nat) (s : State) : (State.refInvalid t s).mems = s.mems := by simp [State.refInvalid]

@[simp] theorem State.refLock_mems (t : Nat) (s : State) : (State.refLock t s).mems = s.mems := by simp [State.refLock]

@[simp] theorem State.tcompUpdate_mems (temp : Int) (t : Nat) (s : State) :
    (State.tcompUpdate temp t s).mems = s.mems := by simp [State.tcompUpdate]

@[simp] theorem State.epochCtl_mems (s : State) (load cancel : Bool) :
    (State.epochCtl s load cancel).mems = s.mems := by simp [State.epochCtl]

@[simp] theorem State.ppsPulse_mems (t : Nat) (s : State) : (State.ppsPulse t s).mems = s.mems := by simp [State.ppsPulse]

@[simp] theorem State.ppsPulseEnd_mems (t : Nat) (s : State) : (State.ppsPulseEnd t s).mems = s.mems := by simp [State.ppsPulseEnd]

@[simp] theorem State.refOutSync_mems (s : State) : (State.refOutSync s).mems = s.mems := by rfl

@[simp] theorem State.tmbSleep_mems (s : State) : (State.tmbSleep s).mems = s.mems := by simp [State.tmbSleep]

@[simp] theorem State.tmbWake_mems (s : State) : (State.tmbWake s).mems = s.mems := by simp [State.tmbWake]

@[simp] theorem State.putPll_mems (s : State) (x : Nat) (p : PllSt) : (State.putPll s x p).mems = s.mems := by simp [State.putPll]

@[simp] theorem State.pllTo_mems (s : State) (x st : Nat) : (State.pllTo s x st).mems = s.mems := by simp [State.pllTo]

@[simp] theorem State.susDone_mems (s : State) (t x y : Nat) : (State.susDone s t x y).mems = s.mems := by rfl

@[simp] theorem State.susRestored_mems (s : State) (t x y : Nat) : (State.susRestored s t x y).mems = s.mems := by simp [State.susRestored]

@[simp] theorem State.pllUnsus_mems (s : State) (x t : Nat) : (State.pllUnsus s x t).mems = s.mems := by rfl

@[simp] theorem State.extUnsus_mems (s : State) (t : Nat) : (State.extUnsus s t).mems = s.mems := by rfl

@[simp] theorem State.qualEnd_mems (s : State) (t : Nat) : (State.qualEnd s t).mems = s.mems := by
  unfold State.qualEnd
  split <;> simp

@[simp] theorem State.qualFrom_mems (s : State) (t : Nat) : (State.qualFrom s t).mems = s.mems := by rfl

@[simp] theorem State.startLock_mems (s : State) (x : Nat) : (State.startLock s x).mems = s.mems := by
  simp only [State.startLock]
  (repeat' split) <;> simp

@[simp] theorem State.startAgain_mems (s : State) (x : Nat) : (State.startAgain s x).mems = s.mems := by simp [State.startAgain]

@[simp] theorem State.btStore_mems (s : State) (x i f band code : Nat) : (State.btStore s x i f band code).mems = s.mems := by rfl

@[simp] theorem State.searchDone_mems (x : Nat) (ok : Bool) (band code t : Nat) (s : State) :
    (State.searchDone x ok band code t s).mems = s.mems := by
  simp only [State.searchDone]
  (repeat' split) <;> simp

@[simp] theorem State.btMiss_mems (x t : Nat) (s : State) : (State.btMiss x t s).mems = s.mems := by simp [State.btMiss]

@[simp] theorem State.pllLocked_mems (x code t : Nat) (s : State) : (State.pllLocked x code t s).mems = s.mems := by simp [State.pllLocked]

@[simp] theorem State.hopFlags_mems (s : State) : (State.hopFlags s).mems = s.mems := by simp [State.hopFlags]

@[simp] theorem State.gatherHop_mems (s : State) : (State.gatherHop s).mems = s.mems := by
  unfold State.gatherHop
  split <;> simp

@[simp] theorem State.setTarget_mems (s : State) (x f : Nat) : (State.setTarget s x f).mems = s.mems := by rfl

@[simp] theorem State.hopForceNow_mems (s : State) : (State.hopForceNow s).mems = s.mems := by
  unfold State.hopForceNow
  split <;> simp

@[simp] theorem State.hopForce_mems (s : State) : (State.hopForce s).mems = s.mems := by
  unfold State.hopForce
  split <;> simp

@[simp] theorem State.hopRequest_mems (s : State) (x f : Nat) : (State.hopRequest s x f).mems = s.mems := by simp [State.hopRequest]

@[simp] theorem State.hopCtl_mems (s : State) (start cancel force : Bool) :
    (State.hopCtl s start cancel force).mems = s.mems := by simp [State.hopCtl]

@[simp] theorem State.measPut_mems (s : State) (x v : Nat) : (State.measPut s x v).mems = s.mems := by rfl

@[simp] theorem State.measOpen_mems (s : State) (x : Nat) : (State.measOpen s x).mems = s.mems := by rfl

@[simp] theorem State.measNew_mems (s : State) (x : Nat) : (State.measNew s x).mems = s.mems := by
  simp only [State.measNew]
  (repeat' split) <;> simp

@[simp] theorem State.recovered_mems (x t : Nat) (s : State) : (State.recovered x t s).mems = s.mems := by simp [State.recovered]

@[simp] theorem State.srcRequest_mems (s : State) (src : Nat) : (State.srcRequest s src).mems = s.mems := by simp [State.srcRequest]

@[simp] theorem State.extTrack_mems (s : State) : (State.extTrack s).mems = s.mems := by simp [State.extTrack]

@[simp] theorem State.extBack_mems (s : State) (t : Nat) : (State.extBack s t).mems = s.mems := by simp [State.extBack]

@[simp] theorem State.migPlace_mems (p : Nat) (s : State) : (State.migPlace p s).mems = s.mems := by rfl

@[simp] theorem State.pcRetired_mems (p : Nat) (s : State) : (State.pcRetired p s).mems = s.mems := by rfl

@[simp] theorem State.migPaced_mems (s : State) (t : Nat) : (State.migPaced s t).mems = s.mems := by rfl

@[simp] theorem State.migNow_mems (s : State) : (State.migNow s).mems = s.mems := by simp [State.migNow]

@[simp] theorem State.migNext_mems (s : State) : (State.migNext s).mems = s.mems := by
  unfold State.migNext
  split <;> simp

@[simp] theorem State.deepCorrected_mems (s : State) (a : Nat) : (State.deepCorrected s a).mems = s.mems := by rfl

@[simp] theorem State.deepUncorr_mems (s : State) (a : Nat) : (State.deepUncorr s a).mems = s.mems := by simp [State.deepUncorr]

@[simp] theorem State.secondMet_mems (p : Nat) (q : Second) (s : State) : (State.secondMet p q s).mems = s.mems := by
  unfold State.secondMet
  (repeat' split) <;> simp

@[simp] theorem State.migrated_mems (bad : List Nat) (t : Nat) (s : State) : (State.migrated bad t s).mems = s.mems := by
  unfold State.migrated
  simp

@[simp] theorem State.dmcInitStart_mems (s : State) : (State.dmcInitStart s).mems = s.mems := by rfl

@[simp] theorem State.dmcInit_mems (s : State) : (State.dmcInit s).mems = s.mems := by simp [State.dmcInit]

@[simp] theorem State.refShow_mems (k : Nat) (s : State) : (State.refShow k s).mems = s.mems := by simp [State.refShow]

@[simp] theorem State.setOwed_mems (p n : Nat) (s : State) : (State.setOwed p n s).mems = s.mems := by simp [State.setOwed]

@[simp] theorem State.refreshDue_mems (p : Nat) (blocked : Bool) (t : Nat) (s : State) :
    (State.refreshDue p blocked t s).mems = s.mems := by simp [State.refreshDue]

@[simp] theorem State.owedIssue_mems (p t : Nat) (s : State) : (State.owedIssue p t s).mems = s.mems := by simp [State.owedIssue]

@[simp] theorem State.stackTemp_mems (k : Nat) (temp : Int) (t : Nat) (s : State) :
    (State.stackTemp k temp t s).mems = s.mems := by simp [State.stackTemp]

@[simp] theorem State.bar2Errors_mems (a len : Nat) (corr uncorr : List Nat) (s : State) :
    (State.bar2Errors a len corr uncorr s).mems = s.mems := by
  unfold State.bar2Errors
  (repeat' split) <;> simp

@[simp] theorem State.bar2Grant_mems (s : State) (a n wait : Nat) : (State.bar2Grant s a n wait).mems = s.mems := by simp [State.bar2Grant]

@[simp] theorem State.rakeShow_mems (s : State) : (State.rakeShow s).mems = s.mems := by simp [State.rakeShow]

@[simp] theorem State.rakeFail_mems (l : Lease) (s : State) (f : Nat × Nat) :
    (State.rakeFail l s f).mems = s.mems := by simp [State.rakeFail]

@[simp] theorem State.rakeCopy_mems (l : Lease) (q : Leased) (s : State) : (State.rakeCopy l q s).mems = s.mems := by
  unfold State.rakeCopy
  (repeat' split) <;> simp

@[simp] theorem State.rakeLease_mems (target : Nat) (q : Leased) (t : Nat) (s : State) : (State.rakeLease target q t s).mems = s.mems := by
  simp only [State.rakeLease]
  (repeat' split) <;> simp [foldl_mems]

@[simp] theorem State.rakeRelease_mems (target t : Nat) (s : State) :
    (State.rakeRelease target t s).mems = s.mems := by simp [State.rakeRelease]

@[simp] theorem State.rakeRequeue_mems (target : Nat) (s : State) : (State.rakeRequeue target s).mems = s.mems := by rfl

@[simp] theorem State.preempted_mems (target : Nat) (s : State) : (State.preempted target s).mems = s.mems := by simp [State.preempted]

@[simp] theorem State.rakePreempt_mems (target t : Nat) (s : State) :
    (State.rakePreempt target t s).mems = s.mems := by simp [State.rakePreempt]

@[simp] theorem State.linkUsed_mems (s : State) : (State.linkUsed s).mems = s.mems := by rfl

@[simp] theorem State.signal_mems (v : Nat) (s : State) : (State.signal v s).mems = s.mems := by simp [State.signal]

@[simp] theorem State.pbaSync_mems (s : State) : (State.pbaSync s).mems = s.mems := by
  unfold State.pbaSync
  (repeat' split) <;> simp

@[simp] theorem State.msxWrite_mems (w v : Nat) (s : State) : (State.msxWrite w v s).mems = s.mems := by simp [State.msxWrite]

@[simp] theorem State.setRing_mems (s : State) (n : Nat) (r : Machine.Ring) : (State.setRing s n r).mems = s.mems := by rfl

@[simp] theorem State.hostPut_mems (s : State) (relaxed : Bool) (a : Nat) (bs : List Byte) :
    (State.hostPut s relaxed a bs).mems = s.mems := by rfl

@[simp] theorem State.cqSignal_mems (m : Nat) (s : State) : (State.cqSignal m s).mems = s.mems := by simp [State.cqSignal]

@[simp] theorem State.cqWrite_mems (n : Nat) (c : Nat × Nat × Nat) (s : State) : (State.cqWrite n c s).mems = s.mems := by
  simp only [State.cqWrite]
  (repeat' split) <;> simp

@[simp] theorem State.finish_mems (n status cflags info : Nat) (s : State) :
    (State.finish n status cflags info s).mems = s.mems := by simp [State.finish]

@[simp] theorem State.badFront_mems (n : Nat) (s : State) (fuel : Nat) : (State.badFront n s fuel).mems = s.mems := by
  induction fuel generalizing s with
  | zero => rfl
  | succ k ih =>
    simp only [State.badFront]
    (repeat' split) <;> simp [ih]

@[simp] theorem State.finishOk_mems (n cflags : Nat) (s : State) : (State.finishOk n cflags s).mems = s.mems := by simp [State.finishOk]

@[simp] theorem State.bufCopy_mems (n : Nat) (deep : Bool) (a m : Nat) (s : State) : (State.bufCopy n deep a m s).mems = s.mems := by
  simp only [State.bufCopy]
  (repeat' split) <;> simp

@[simp] theorem State.pass_mems (n src a m : Nat) (s : State) : (State.pass n src a m s).mems = s.mems := by simp [State.pass]

@[simp] theorem State.deliver_mems (n : Nat) (s : State) (fuel : Nat) : (State.deliver n s fuel).mems = s.mems := by
  induction fuel generalizing s with
  | zero => rfl
  | succ k ih =>
    simp only [State.deliver]
    (repeat' split) <;> simp [ih]

@[simp] theorem State.deliverAll_mems (s : State) : (State.deliverAll s).mems = s.mems := by
  unfold State.deliverAll
  split
  · rfl
  · refine foldl_mems _ _ _ fun u n => ?_
    (repeat' split) <;> simp

@[simp] theorem State.followOver_mems (n t : Nat) (s : State) : (State.followOver n t s).mems = s.mems := by simp [State.followOver]

@[simp] theorem State.hrvArm_mems (s : State) : (State.hrvArm s).mems = s.mems := by
  unfold State.hrvArm
  simp

@[simp] theorem State.hrvIdle_mems (s : State) : (State.hrvIdle s).mems = s.mems := by
  unfold State.hrvIdle
  exact foldl_mems _ _ _ fun _ _ => by simp

@[simp] theorem State.streamDone_mems (s : State) : (State.streamDone s).mems = s.mems := by
  unfold State.streamDone
  (repeat' split) <;> simp

@[simp] theorem State.descFetch_mems (n : Nat) (b : List Byte) (t : Nat) (s : State) :
    (State.descFetch n b t s).mems = s.mems := by simp [State.descFetch]

@[simp] theorem State.ringStop_mems (n status : Nat) (s : State) : (State.ringStop n status s).mems = s.mems := by simp [State.ringStop]

@[simp] theorem State.fetchError_mems (n t : Nat) (s : State) : (State.fetchError n t s).mems = s.mems := by simp [State.fetchError]

@[simp] theorem State.ringEnable_mems (n : Nat) (was : Bool) (s : State) :
    (State.ringEnable n was s).mems = s.mems := by simp [State.ringEnable]

@[simp] theorem State.cqFreed_mems (m : Nat) (s : State) : (State.cqFreed m s).mems = s.mems := by
  unfold State.cqFreed
  split
  · rfl
  · refine foldl_mems _ _ _ fun u n => ?_
    (repeat' split) <;> simp

@[simp] theorem State.cqResume_mems (s : State) : (State.cqResume s).mems = s.mems := by
  unfold State.cqResume
  (repeat' split) <;> simp

@[simp] theorem State.cqTimeout_mems (m t : Nat) (s : State) : (State.cqTimeout m t s).mems = s.mems := by simp [State.cqTimeout]

@[simp] theorem State.hrvCutoff_mems (s : State) : (State.hrvCutoff s).mems = s.mems := by
  unfold State.hrvCutoff
  exact foldl_mems _ _ _ fun _ _ => by simp

@[simp] theorem State.pcieReset_mems (down : Bool) (s0 : State) : (State.pcieReset down s0).mems = s0.mems := by simp [State.pcieReset]

@[simp] theorem State.configRead_mems (a : Nat) (s : State) : (State.configRead a s).mems = s.mems := by simp [State.configRead]

@[simp] theorem State.configWrite_mems (r : CfgReg) (v : Nat) (s : State) :
    (State.configWrite r v s).mems = s.mems := by simp [State.configWrite]

@[simp] theorem State.linkAt_mems (width speed : Nat) (s : State) : (State.linkAt width speed s).mems = s.mems := by rfl

@[simp] theorem State.linkDown_mems (s : State) : (State.linkDown s).mems = s.mems := by rfl

@[simp] theorem State.downshift_mems (width speed t : Nat) (s : State) :
    (State.downshift width speed t s).mems = s.mems := by simp [State.downshift]

@[simp] theorem State.retrain_mems (width speed t : Nat) (s : State) :
    (State.retrain width speed t s).mems = s.mems := by simp [State.retrain]

@[simp] theorem State.linkUp_mems (width speed t : Nat) (s : State) : (State.linkUp width speed t s).mems = s.mems := by simp [State.linkUp]

@[simp] theorem State.toD3_mems (bme : Bool) (t : Nat) (s : State) : (State.toD3 bme t s).mems = s.mems := by simp [State.toD3]

@[simp] theorem State.toD0_mems (bme : Bool) (t : Nat) (s : State) : (State.toD0 bme t s).mems = s.mems := by simp [State.toD0]

@[simp] theorem State.toL12_mems (t : Nat) (s : State) : (State.toL12 t s).mems = s.mems := by simp [State.toL12]

@[simp] theorem State.shiftTimes_mems (s : State) (d : Int) : (State.shiftTimes s d).mems = s.mems := by rfl

@[simp] theorem State.epochLoad_mems (t : Nat) (s : State) : (State.epochLoad t s).mems = s.mems := by simp [State.epochLoad]

@[simp] theorem State.m7Go_mems (s : State) (code : Nat) : (State.m7Go s code).mems = s.mems := by simp [State.m7Go]

@[simp] theorem State.m7Start_mems (s : State) (code : Nat) : (State.m7Start s code).mems = s.mems := by simp [State.m7Start]

@[simp] theorem State.dskStart_mems (s : State) (inj tdc : Bool) : (State.dskStart s inj tdc).mems = s.mems := by simp [State.dskStart]

@[simp] theorem State.pchkCtl_mems (s : State) : (State.pchkCtl s).mems = s.mems := by simp [State.pchkCtl]

@[simp] theorem State.m7Results_mems (s : State) (code : Nat) (es : List (Nat × Nat × Int × Int × Int)) :
    (State.m7Results s code es).mems = s.mems := by
  unfold State.m7Results
  split <;> simp

@[simp] theorem State.m7Effect_mems (s : State) (k : Machine.Task) : (State.m7Effect s k).mems = s.mems := by
  simp only [State.m7Effect]
  (repeat' split) <;> simp [foldl_mems]

@[simp] theorem State.feedRead_mems (f : Nat) (mv : Int) (s : State) : (State.feedRead f mv s).mems = s.mems := by simp [State.feedRead]

@[simp] theorem State.markSupply_mems (x t : Nat) (s : State) : (State.markSupply x t s).mems = s.mems := by simp [State.markSupply]

@[simp] theorem State.feedTo_mems (f st : Nat) (mv : Int) (s : State) : (State.feedTo f st mv s).mems = s.mems := by simp [State.feedTo]

@[simp] theorem State.switchTo_mems (f cause : Nat) (mv : Int) (s : State) :
    (State.switchTo f cause mv s).mems = s.mems := by simp [State.switchTo]

@[simp] theorem State.feedEval_mems (fresh : Bool) (mv : Int) (s : State) :
    (State.feedEval fresh mv s).mems = s.mems := by simp [State.feedEval]

@[simp] theorem State.feedLeaves_mems (f : Nat) (k : FeedFault) (mv : Int) (t : Nat) (s : State) :
    (State.feedLeaves f k mv t s).mems = s.mems := by simp [State.feedLeaves]

@[simp] theorem State.feedSense_mems (f : Nat) (short : Bool) (mv : Int) (t : Nat) (s : State) :
    (State.feedSense f short mv t s).mems = s.mems := by simp [State.feedSense]

@[simp] theorem State.feedChoose_mems (f : Nat) (s : State) : (State.feedChoose f s).mems = s.mems := by simp [State.feedChoose]

@[simp] theorem State.feedQualify_mems (f : Nat) (mv : Int) (t : Nat) (s : State) :
    (State.feedQualify f mv t s).mems = s.mems := by simp [State.feedQualify]

@[simp] theorem State.feedGood_mems (f : Nat) (mv : Int) (t : Nat) (s : State) :
    (State.feedGood f mv t s).mems = s.mems := by simp [State.feedGood]

@[simp] theorem State.feedMargin_mems (f : Nat) (back : Bool) (mv : Int) (t : Nat) (s : State) :
    (State.feedMargin f back mv t s).mems = s.mems := by simp [State.feedMargin]

@[simp] theorem State.revert_mems (t : Nat) (s : State) : (State.revert t s).mems = s.mems := by simp [State.revert]

@[simp] theorem State.pwrCtl_mems (v : Nat) (s : State) : (State.pwrCtl v s).mems = s.mems := by simp [State.pwrCtl]

@[simp] theorem State.rideThrough_mems (f t : Nat) (s : State) : (State.rideThrough f t s).mems = s.mems := by
  simp only [State.rideThrough]
  (repeat' split) <;> simp

@[simp] theorem State.dumpEntry_mems (s : State) : (State.dumpEntry s).mems = s.mems := by simp [State.dumpEntry]

@[simp] theorem State.holdup_mems (pct t : Nat) (s : State) : (State.holdup pct t s).mems = s.mems := by simp [State.holdup]

@[simp] theorem State.outFault_mems (o t : Nat) (s : State) : (State.outFault o t s).mems = s.mems := by simp [State.outFault]

@[simp] theorem State.outFaultEnd_mems (o t : Nat) (s : State) : (State.outFaultEnd o t s).mems = s.mems := by simp [State.outFaultEnd]

@[simp] theorem State.thermal_mems (temps : List (Nat × Int)) (t : Nat) (s : State) : (State.thermal temps t s).mems = s.mems := by
  unfold State.thermal
  (repeat' split) <;> simp

@[simp] theorem State.nvStart_mems (op : Nat) (s : State) : (State.nvStart op s).mems = s.mems := by simp [State.nvStart]

@[simp] theorem State.nvIdle_mems (s : State) : (State.nvIdle s).mems = s.mems := by rfl

@[simp] theorem State.bbxHostFreeze_mems (s : State) : (State.bbxHostFreeze s).mems = s.mems := by simp [State.bbxHostFreeze]

@[simp] theorem State.bbxThaw_mems (s : State) : (State.bbxThaw s).mems = s.mems := by rfl

@[simp] theorem State.bbxUnfreeze_mems (s : State) : (State.bbxUnfreeze s).mems = s.mems := by simp [State.bbxUnfreeze]

@[simp] theorem State.bbxClear_mems (s : State) : (State.bbxClear s).mems = s.mems := by rfl

@[simp] theorem State.bbxPrep_mems (s : State) : (State.bbxPrep s).mems = s.mems := by
  unfold State.bbxPrep
  split <;> simp

@[simp] theorem State.bbxCtl_mems (v : Nat) (s : State) : (State.bbxCtl v s).mems = s.mems := by simp [State.bbxCtl]

@[simp] theorem State.bbxRead_mems (t : Nat) (s : State) : (State.bbxRead t s).mems = s.mems := by
  simp only [State.bbxRead]
  (repeat' split) <;> simp

@[simp] theorem State.capture_mems (a : Nat) (s : State) : (State.capture a s).mems = s.mems := by
  unfold State.capture
  split <;> simp

@[simp] theorem State.barRead_mems (a : Nat) (s : State) : (State.barRead a s).2.mems = s.mems := by simp [State.barRead]

@[simp] theorem State.modeWritten_mems (s : State) : (State.modeWritten s).mems = s.mems := by simp [State.modeWritten]

@[simp] theorem State.startEntry_mems (s : State) : (State.startEntry s).mems = s.mems := by simp [State.startEntry]

@[simp] theorem State.wakeStart_mems (s : State) (ch cls kt : Nat) : (State.wakeStart s ch cls kt).mems = s.mems := by
  simp only [State.wakeStart]
  (repeat' split) <;> simp [foldl_mems]

@[simp] theorem State.latchWake_mems (t : Nat) (s : State) : (State.latchWake t s).mems = s.mems := by
  simp only [State.latchWake]
  (repeat' split) <;> simp

@[simp] theorem State.timerWake_mems (t : Nat) (s : State) : (State.timerWake t s).mems = s.mems := by simp [State.timerWake]

@[simp] theorem State.hostExit_mems (r : HostReq) (s : State) : (State.hostExit r s).mems = s.mems := by simp [State.hostExit]

@[simp] theorem State.dropLink_mems (s : State) : (State.dropLink s).mems = s.mems := by simp [State.dropLink]

@[simp] theorem State.storeFld_mems (bm v : Nat) (s : State) (f : Fld) : (State.storeFld bm v s f).mems = s.mems := by
  unfold State.storeFld
  split <;> simp

@[simp] theorem State.storeReg_mems (bm v a : Nat) (s : State) : (State.storeReg bm v a s).mems = s.mems := by
  simp only [State.storeReg]
  (repeat' split) <;> simp [foldl_mems]

@[simp] theorem State.channelBits_mems (v k : Nat) (f : State → Nat → State) (s : State) (hf : ∀ u a, (f u a).mems = u.mems) :
    (State.channelBits v k f s).mems = s.mems := foldl_mems _ _ _ fun u _ => hf u _

@[simp] theorem State.effGlb_mems (p : Port) (a v : Nat) (s : State) : (State.effGlb p a v s).mems = s.mems := by simp [State.effGlb]

@[simp] theorem State.effTmb_mems (a v : Nat) (s : State) : (State.effTmb a v s).mems = s.mems := by simp [State.effTmb]

@[simp] theorem State.effInp_mems (a v bm : Nat) (old s : State) : (State.effInp a v bm old s).mems = s.mems := by
  unfold State.effInp
  (repeat' split) <;> simp

@[simp] theorem State.effDsk_mems (a v : Nat) (s : State) : (State.effDsk a v s).mems = s.mems := by
  unfold State.effDsk
  (repeat' split) <;> simp

@[simp] theorem State.effHrv_mems (a : Nat) (old s : State) : (State.effHrv a old s).mems = s.mems := by simp [State.effHrv]

@[simp] theorem State.hksRun_mems (ofs : Nat) (s : State) : (State.hksRun ofs s).mems = s.mems := by simp [State.hksRun]

@[simp] theorem State.feed0_mems (s : State) : (State.feed0 s).mems = s.mems := by rfl

@[simp] theorem State.effHks_mems (p : Port) (a v : Nat) (s : State) : (State.effHks p a v s).mems = s.mems := by simp [State.effHks]

@[simp] theorem State.reSignal_mems (a : Nat) (s : State) : (State.reSignal a s).mems = s.mems := by simp [State.reSignal]

@[simp] theorem State.hold_mems (h : Held) (s : State) : (State.hold h s).mems = s.mems := by rfl

@[simp] theorem State.readBack_mems (p : Port) (v : Nat) (s : State) : (State.readBack p v s).mems = s.mems := by
  unfold State.readBack
  split <;> simp

@[simp] theorem State.restartDue_mems (s : State) : (State.restartDue s).mems = s.mems := by simp [State.restartDue]

@[simp] theorem State.freshen_mems (s : State) (a : Nat) : (State.freshen s a).mems = s.mems := by
  unfold State.freshen
  split <;> simp

@[simp] theorem State.regRead_mems (s : State) (a : Nat) : (State.regRead s a).2.mems = s.mems := by simp [State.regRead]

@[simp] theorem State.readNow_mems (p : Port) (a : Nat) (s : State) : (State.readNow p a s).mems = s.mems := by simp [State.readNow]

@[simp] theorem State.portRead_mems (p : Port) (a : Nat) (s : State) : (State.portRead p a s).mems = s.mems := by
  unfold State.portRead
  split <;> simp

@[simp] theorem State.fetched_mems (s : State) (k : Script) : (State.fetched s k).mems = s.mems := by simp [State.fetched]

@[simp] theorem State.setScript_mems (s : State) (k : Option Script) : (State.setScript s k).mems = s.mems := by simp [State.setScript]

@[simp] theorem State.bootDone_mems (s : State) : (State.bootDone s).mems = s.mems := by rfl

@[simp] theorem State.scriptErr_mems (s : State) (k : Script) (err : Nat) :
    (State.scriptErr s k err).mems = s.mems := by simp [State.scriptErr]

@[simp] theorem State.scriptEnd_mems (s : State) (k : Script) : (State.scriptEnd s k).mems = s.mems := by simp [State.scriptEnd]

@[simp] theorem State.scriptSkip_mems (s : State) (k : Script) (n skip : Nat) :
    (State.scriptSkip s k n skip).mems = s.mems := by simp [State.scriptSkip]

@[simp] theorem State.scriptTest_mems (s : State) (a mask val : Nat) :
    (State.scriptTest s a mask val).2.mems = s.mems := by simp [State.scriptTest]

@[simp] theorem State.opPoll_mems (k : Script) (s : State) : (State.opPoll k s).mems = s.mems := by simp [State.opPoll]

@[simp] theorem State.opWait_mems (k : Script) (s : State) : (State.opWait k s).mems = s.mems := by rfl

@[simp] theorem State.opVariant_mems (k : Script) (s : State) : (State.opVariant k s).mems = s.mems := by simp [State.opVariant]

@[simp] theorem State.opStatus_mems (k : Script) (s : State) : (State.opStatus k s).mems = s.mems := by simp [State.opStatus]

@[simp] theorem State.scriptStep_mems (op t : Nat) (f : Script → State → State) (s : State) (hf : ∀ k u, (f k u).mems = u.mems) :
    (State.scriptStep op t f s).mems = s.mems := by
  simp only [State.scriptStep]
  (repeat' split) <;> simp [hf]

@[simp] theorem State.scriptCheck_mems (s : State) : (State.scriptCheck s).mems = s.mems := by
  unfold State.scriptCheck
  (repeat' split) <;> simp

@[simp] theorem State.pollMet_mems (t : Nat) (s : State) : (State.pollMet t s).mems = s.mems := by
  simp only [State.pollMet]
  (repeat' split) <;> simp

@[simp] theorem State.pollTimeout_mems (t : Nat) (s : State) : (State.pollTimeout t s).mems = s.mems := by
  simp only [State.pollTimeout]
  (repeat' split) <;> simp

@[simp] theorem State.waitExpiry_mems (t : Nat) (s : State) : (State.waitExpiry t s).mems = s.mems := by
  simp only [State.waitExpiry]
  (repeat' split) <;> simp

@[simp] theorem State.startScratch_mems (kind ofs : Nat) (s : State) : (State.startScratch kind ofs s).mems = s.mems := by rfl

@[simp] theorem State.eventStart_mems (t : Nat) (s : State) : (State.eventStart t s).mems = s.mems := by
  simp only [State.eventStart]
  (repeat' split) <;> simp

@[simp] theorem State.hostScript_mems (s : State) : (State.hostScript s).mems = s.mems := by
  unfold State.hostScript
  split <;> simp

@[simp] theorem State.stepPll_mems (s : State) (x : Nat) : (State.stepPll s x).mems = s.mems := by simp [State.stepPll]

@[simp] theorem State.toStep_mems (s : State) (n : Nat) : (State.toStep s n).mems = s.mems := by rfl

@[simp] theorem State.bootClocks_mems (s : State) : (State.bootClocks s).mems = s.mems := by simp [State.bootClocks]

@[simp] theorem State.bootSource_mems (s : State) : (State.bootSource s).mems = s.mems := by
  unfold State.bootSource
  split <;> simp

@[simp] theorem State.bootNext_mems (s : State) : (State.bootNext s).mems = s.mems := by
  unfold State.bootNext
  (repeat' split) <;> simp

@[simp] theorem State.strapBits_mems (s : State) : (State.strapBits s).mems = s.mems := by rfl

@[simp] theorem State.bootErr_mems (s : State) (code : Nat) : (State.bootErr s code).mems = s.mems := by simp [State.bootErr]

@[simp] theorem State.runImage_mems (s : State) (img : List Byte) : (State.runImage s img).mems = s.mems := by rfl

@[simp] theorem State.loadTimeout_mems (t : Nat) (s : State) : (State.loadTimeout t s).mems = s.mems := by simp [State.loadTimeout]

@[simp] theorem State.askReset_mems (src : WarmSrc) (s : State) : (State.askReset src s).mems = s.mems := by simp [State.askReset]

@[simp] theorem State.resetPin_mems (t : Nat) (s : State) : (State.resetPin t s).mems = s.mems := by simp [State.resetPin]

@[simp] theorem State.causes_mems (s : State) (c : Nat) : (State.causes s c).mems = s.mems := by rfl

@[simp] theorem State.warmClear_mems (s : State) : (State.warmClear s).mems = s.mems := by rfl

@[simp] theorem State.watchdog_mems (t : Nat) (s : State) : (State.watchdog t s).mems = s.mems := by simp [State.watchdog]

@[simp] theorem State.clockReset_mems (x t : Nat) (s : State) : (State.clockReset x t s).mems = s.mems := by simp [State.clockReset]

@[simp] theorem State.perst_mems (t : Nat) (s : State) : (State.perst t s).mems = s.mems := by simp [State.perst]

@[simp] theorem State.flr_mems (t : Nat) (s : State) : (State.flr t s).mems = s.mems := by simp [State.flr]

@[simp] theorem State.coldClear_mems (s : State) : (State.coldClear s).mems = s.mems := by rfl

@[simp] theorem State.pllsOff_mems (s : State) : (State.pllsOff s).mems = s.mems := by
  unfold State.pllsOff
  exact foldl_mems _ _ _ fun _ _ => by simp

@[simp] theorem State.powerUp_mems (t : Nat) (s : State) : (State.powerUp t s).mems = s.mems := by simp [State.powerUp]

@[simp] theorem State.wakeFromOff_mems (t : Nat) (s : State) : (State.wakeFromOff t s).mems = s.mems := by simp [State.wakeFromOff]

@[simp] theorem State.thermalRestart_mems (t : Nat) (s : State) : (State.thermalRestart t s).mems = s.mems := by simp [State.thermalRestart]

@[simp] theorem State.aonLoss_mems (s : State) : (State.aonLoss s).mems = s.mems := by simp [State.aonLoss]

@[simp] theorem State.irqStep_mems (s : State) (i : Nat) : (State.irqStep s i).mems = s.mems := by simp [State.irqStep]

@[simp] theorem State.irqSync_mems (s : State) : (State.irqSync s).mems = s.mems := by
  unfold State.irqSync
  simp

@[simp] theorem State.bootSync_mems (s : State) : (State.bootSync s).mems = s.mems := by simp [State.bootSync]

@[simp] theorem State.seqSync_mems (s : State) : (State.seqSync s).mems = s.mems := by simp [State.seqSync]

@[simp] theorem State.armSync_mems (old s : State) : (State.armSync old s).mems = s.mems := by simp [State.armSync]

@[simp] theorem State.idleSync_mems (old s : State) : (State.idleSync old s).mems = s.mems := by simp [State.idleSync]

@[simp] theorem State.hopSync_mems (s : State) : (State.hopSync s).mems = s.mems := by simp [State.hopSync]

@[simp] theorem State.warned_mems (w : Bool) (s : State) : (State.warned w s).mems = s.mems := by simp [State.warned]

@[simp] theorem State.collRead_mems (s : State) : (State.collRead s).mems = s.mems := by rfl

@[simp] theorem State.collWrite_mems (s : State) : (State.collWrite s).mems = s.mems := by rfl

@[simp] theorem State.drive_mems (v : Nat) (s : State) : (State.drive v s).mems = s.mems := by rfl

@[simp] theorem State.stationRead_mems (a : Nat) (hit hw : Bool) (s : State) :
    (State.stationRead a hit hw s).mems = s.mems := by simp [State.stationRead]

@[simp] theorem State.windowCmd_mems (d : Nat) (s : State) : (State.windowCmd d s).mems = s.mems := by simp [State.windowCmd]

@[simp] theorem State.stationBell_mems (d : Nat) (s : State) : (State.stationBell d s).mems = s.mems := by simp [State.stationBell]

@[simp] theorem State.windowStore_mems (a d : Nat) (s : State) : (State.windowStore a d s).mems = s.mems := by
  unfold State.windowStore
  dsimp only
  split
  case h_1 => simp
  case h_2 => simp
  case h_3 => simp
  case h_4 => simp
  case h_5 => simp
  case h_6 => simp

@[simp] theorem State.windowErr_mems (s : State) : (State.windowErr s).mems = s.mems := by rfl

@[simp] theorem State.landsLost_mems (s : State) : (State.landsLost s).mems = s.mems := by simp [State.landsLost]

@[simp] theorem State.scanLoad_mems (code : Nat) (s0 : State) : (State.scanLoad code s0).mems = s0.mems := by simp [State.scanLoad]

@[simp] theorem State.tick_mems (s : State) : (State.tick s).mems = s.mems := by simp [State.tick]

end Sys2Proof.Machine
end

