-- ==== Sys2Proof/Proofs/MemoriesCanonical.lean ====
section
/-! SUPPORT. The canonical form of the four memories: every operation that stores in one of them keeps it (Laws/Memory.lean says so of the
stores themselves), and with these every command. -/

namespace Sys2Proof.Machine

/-- All four memories are in their canonical form. -/
def Canon (m : Mem × Mem × Mem × Mem) : Prop := m.1.wf = true ∧ m.2.1.wf = true ∧ m.2.2.1.wf = true ∧ m.2.2.2.wf = true

theorem foldl_canon {α : Type} (g : State → α → State) (l : List α) (s : State) (hg : ∀ u a, Canon u.mems → Canon (g u a).mems)
    (h : Canon s.mems) : Canon (l.foldl g s).mems := by
  induction l generalizing s with
  | nil => exact h
  | cons a r ih => exact ih _ (hg _ _ h)

@[simp] theorem canon_ite (c : Prop) [Decidable c] (a b : Mem × Mem × Mem × Mem) :
    Canon (if c then a else b) = if c then Canon a else Canon b := apply_ite _ _ _ _
@[simp] theorem canon_mk (a b c d : Mem) : Canon (a, b, c, d) ↔ a.wf = true ∧ b.wf = true ∧ c.wf = true ∧ d.wf = true := Iff.rfl
@[simp] theorem Canon.near {s : State} (h : Canon s.mems) : s.near.wf = true := h.1
@[simp] theorem Canon.deep {s : State} (h : Canon s.mems) : s.deep.wf = true := h.2.1
@[simp] theorem Canon.scr {s : State} (h : Canon s.mems) : s.scr.wf = true := h.2.2.1
@[simp] theorem Canon.nv {s : State} (h : Canon s.mems) : s.nv.wf = true := h.2.2.2

@[simp] theorem State.ringPut_canon {k t0 n start hi : Nat} {s : State} (h : Canon s.mems) :
    Canon (State.ringPut k t0 n start hi s).mems := by simp [State.ringPut, h, Mem.fill_wf]

@[simp] theorem State.ownerWrites_canon {k : Nat} {s : State} {o : Owner} (h : Canon s.mems) : Canon (State.ownerWrites k s o).mems := by
  unfold State.ownerWrites
  split <;> simp [h]

@[simp] theorem State.nearSync_canon {s : State} (h : Canon s.mems) : Canon (State.nearSync s).mems := by
  have hw : Canon (([Owner.capture 0, .capture 1, .capture 2, .capture 3, .edges 0, .edges 1, .edges 2, .edges 3, .interval,
      .calibration].foldl (State.ownerWrites s.free) s)).mems := foldl_canon _ _ _ (fun _ _ hu => State.ownerWrites_canon hu) h
  unfold State.nearSync
  split
  · exact h
  dsimp only
  rw [State.mems_mk, State.mems_eta]
  exact hw

@[simp] theorem State.deepPut_canon {s : State} {a : Nat} {bs : List Byte} (h : Canon s.mems) :
    Canon (State.deepPut s a bs).mems := by simp [State.deepPut, h, Mem.write_wf]

@[simp] theorem State.deepPutZ_canon {s : State} {a : Nat} {bs : List Byte} {z : Nat} (h : Canon s.mems) :
    Canon (State.deepPutZ s a bs z).mems := by simp [State.deepPutZ, h, Mem.zeros_wf]

@[simp] theorem State.deepPad_canon {s : State} {a seq n : Nat} (h : Canon s.mems) :
    Canon (State.deepPad s a seq n).mems := by simp [State.deepPad, h]

@[simp] theorem State.capWrite_canon {s : State} {w : CapW} (h : Canon s.mems) :
    Canon (State.capWrite s w).mems := by simp [State.capWrite, h]

@[simp] theorem State.capStore_canon {s : State} {w : CapW} (h : Canon s.mems) :
    Canon (State.capStore s w).mems := by simp [State.capStore, h]

@[simp] theorem State.capFlush_canon {s : State} {l : List CapW} (h : Canon s.mems) : Canon (State.capFlush s l).mems := by
  induction l generalizing s with
  | nil => simp [State.capFlush, h]
  | cons a r ih =>
    simp only [State.capFlush]
    (repeat' split) <;> simp [h, ih]

@[simp] theorem State.capNext_canon {s : State} {g : Seg} {bs : List Byte} {z n : Nat} {bad : List Nat} (h : Canon s.mems) :
    Canon (State.capNext s g bs z n bad).mems := by simp [State.capNext, h]

@[simp] theorem State.capRaw_canon {s : State} {g : Seg} {r : Rec} {bad : List Nat} (h : Canon s.mems) :
    Canon (State.capRaw s g r bad).mems := by simp [State.capRaw, h]

@[simp] theorem State.capFill_canon {s : State} {g : Seg} (h : Canon s.mems) : Canon (State.capFill s g).mems := by simp [State.capFill, h]

@[simp] theorem State.capPad_canon {s : State} {n : Nat} (h : Canon s.mems) : Canon (State.capPad s n).mems := by
  unfold State.capPad
  split <;> simp [h]

@[simp] theorem State.capPutP_canon {s : State} {r : Rec} {bad : List Nat} (h : Canon s.mems) : Canon (State.capPutP s r bad).mems := by
  simp only [State.capPutP]
  (repeat' split) <;> simp [h]

@[simp] theorem State.capPut_canon {s : State} {r : Rec} (h : Canon s.mems) : Canon (State.capPut s r).mems := by simp [State.capPut, h]

@[simp] theorem State.capBridge_canon {n fuel : Nat} {u : State} (h : Canon u.mems) : Canon (State.capBridge n fuel u).mems := by
  induction fuel generalizing n u with
  | zero => exact h
  | succ k ih =>
    simp only [State.capBridge]
    (repeat' split) <;> simp [h, ih]

@[simp] theorem State.capBlock_canon {s : State} {r : Rec} (h : Canon s.mems) :
    Canon (State.capBlock s r).mems := by simp [State.capBlock, h]

@[simp] theorem State.redPad_canon {s : State} {n k : Nat} (h : Canon s.mems) : Canon (State.redPad s n k).mems := by simp [State.redPad, h]

@[simp] theorem State.trailerRu_canon {s : State} {n seg : Nat} (h : Canon s.mems) : Canon (State.trailerRu s n seg).mems := by
  unfold State.trailerRu
  split <;> simp [h]

@[simp] theorem State.redPut_canon {s0 : State} {n k : Nat} {r : Rec} (h : Canon s0.mems) : Canon (State.redPut s0 n k r).mems := by
  have hp : Canon (s0.redPad n r.units).mems := State.redPad_canon h
  revert hp
  unfold State.redPut
  generalize s0.redPad n r.units = s
  intro hp
  dsimp only
  (repeat' split) <;> simp [hp]

@[simp] theorem State.redClose_canon {s : State} {n : Nat} (h : Canon s.mems) :
    Canon (State.redClose s n).mems := by simp [State.redClose, h]

@[simp] theorem State.redEntry_canon {s : State} {n t w pos : Nat} {sres part unres : Bool} {payload : List Byte} (h : Canon s.mems) :
    Canon (State.redEntry s n t w pos sres part unres payload).mems := by simp [State.redEntry, h]

@[simp] theorem State.redSample_canon {n : Nat} {s : State} {p : Nat} (h : Canon s.mems) :
    Canon (State.redSample n s p).mems := by simp [State.redSample, h]

@[simp] theorem State.redBus_canon {s : State} {n c k : Nat} (h : Canon s.mems) :
    Canon (State.redBus s n c k).mems := by simp [State.redBus, h]

@[simp] theorem State.redStable_canon {n k : Nat} {change : Bool} {s : State} {q : Nat} (h : Canon s.mems) :
    Canon (State.redStable n k change s q).mems := by
  unfold State.redStable
  split <;> simp [h]

@[simp] theorem State.redIvlEnd_canon {s : State} {n b : Nat} {part : Bool} (h : Canon s.mems) :
    Canon (State.redIvlEnd s n b part).mems := by simp [State.redIvlEnd, h]

@[simp] theorem State.redIvls_canon {n p fuel : Nat} {u : State} (h : Canon u.mems) : Canon (State.redIvls n p fuel u).mems := by
  induction fuel generalizing n p u with
  | zero => exact h
  | succ k ih =>
    simp only [State.redIvls]
    (repeat' split) <;> simp [h, ih]

@[simp] theorem State.redUpTo_canon {s : State} {n p : Nat} (h : Canon s.mems) : Canon (State.redUpTo s n p).mems := by
  have hfold : ∀ (g : State → Nat → State) (l : List Nat) (u : State), (∀ v a, Canon v.mems → Canon (g v a).mems) → Canon u.mems →
      Canon (l.foldl g u).mems := fun g l u hg hu => foldl_canon g l u hg hu
  simp only [State.redUpTo]
  split
  · exact h
  rw [State.setRu_mems]
  split
  · exact hfold _ _ _ (fun _ _ hu => State.redSample_canon hu) h
  · exact hfold _ _ _ (fun _ _ hu => State.redSample_canon hu) h
  · exact State.redStable_canon (hfold _ _ _ (fun _ _ hu => State.redStable_canon hu) h)
  · exact h
  · exact State.redIvls_canon h

@[simp] theorem State.redPulse_canon {s : State} {n ch t : Nat} {up : Bool} (h : Canon s.mems) :
    Canon (State.redPulse s n ch t up).mems := by
  unfold State.redPulse
  split <;> simp [h]

@[simp] theorem State.redEdge1_canon {s : State} {n ch t p : Nat} {up sres : Bool} (h : Canon s.mems) :
    Canon (State.redEdge1 s n ch t p up sres).mems := by
  unfold State.redEdge1
  split <;> simp [h]

@[simp] theorem State.redEdge_canon {s : State} {e : HeldE} (h : Canon s.mems) : Canon (State.redEdge s e).mems := by
  unfold State.redEdge
  exact foldl_canon _ _ _ (fun _ _ h => by simp [h]) h

@[simp] theorem State.redStart_canon {s : State} {p : Nat} (h : Canon s.mems) :
    Canon (State.redStart s p).mems := foldl_canon _ _ _ (fun _ _ hu => State.redEdge_canon hu)
    (by rwa [foldl_mems _ _ _ fun u n => State.redStart1_mems p u n])

@[simp] theorem State.redStop1_canon {s : State} {n p : Nat} (h : Canon s.mems) : Canon (State.redStop1 s n p).mems := by
  have hu : Canon (s.redUpTo n p).mems := State.redUpTo_canon h
  revert hu
  unfold State.redStop1
  generalize s.redUpTo n p = u
  intro hu
  dsimp only
  (repeat' split) <;> simp [h, hu]

@[simp] theorem State.redStop_canon {s : State} {p : Nat} (h : Canon s.mems) : Canon (State.redStop s p).mems := by
  unfold State.redStop
  exact foldl_canon _ _ _ (fun _ _ h => by simp [h]) h

@[simp] theorem State.redFlush_canon {s : State} (h : Canon s.mems) : Canon (State.redFlush s).mems := by
  unfold State.redFlush
  exact foldl_canon _ _ _ (fun _ _ h => by simp [h]) h

@[simp] theorem State.qMove_canon {s : State} {c : Nat} (h : Canon s.mems) : Canon (State.qMove s c).mems := by
  unfold State.qMove
  split <;> simp [h]

@[simp] theorem State.queuePut_canon {s : State} {c : Nat} {e : Stamp} (h : Canon s.mems) :
    Canon (State.queuePut s c e).mems := by simp [State.queuePut, h, Mem.write_wf]

@[simp] theorem State.timQueue_canon {s : State} {c : Nat} {e : Stamp} (h : Canon s.mems) : Canon (State.timQueue s c e).1.mems := by
  simp only [State.timQueue]
  (repeat' split) <;> simp [h]

/-- Queueing some edges keeps the canonical form, whichever are taken. -/
theorem foldl_timQueue_canon (l : List (Nat × Stamp)) (p : State × List (Nat × Stamp)) (h : Canon p.1.mems) :
    Canon (l.foldl (fun (p : State × List (Nat × Stamp)) ce =>
      ((p.1.timQueue ce.1 ce.2).1, if (p.1.timQueue ce.1 ce.2).2 then p.2 ++ [ce] else p.2)) p).1.mems := by
  induction l generalizing p with
  | nil => exact h
  | cons a r ih => exact ih _ (State.timQueue_canon h)

@[simp] theorem State.timEdges_canon {s : State} {l : List (Nat × Stamp)} (h : Canon s.mems) : Canon (State.timEdges s l).mems := by
  unfold State.timEdges
  split
  · exact h
  · refine foldl_canon _ _ _ (fun _ _ hu => State.qMove_canon hu) ?_
    have hq := foldl_timQueue_canon l (s, []) h
    rw [State.qSync_mems, foldl_mems _ _ _ fun u n => ?_]
    · exact hq
    · simp

theorem susEntries_wf (t k a n : Nat) (m : Mem) (h : m.wf = true) : (susEntries t k a n m).wf = true := by
  unfold susEntries
  generalize List.range n = l
  induction l generalizing m with
  | nil => exact h
  | cons i r ih =>
    rw [List.foldl_cons]
    refine ih _ ?_
    split
    · exact Mem.write_wf _ _ _ h
    · exact h

theorem foldl_wf {α : Type} (g : Mem → α → Mem) (l : List α) (m : Mem) (hg : ∀ m a, m.wf = true → (g m a).wf = true) (h : m.wf = true) :
    (l.foldl g m).wf = true := by
  induction l generalizing m with
  | nil => exact h
  | cons a r ih => exact ih _ (hg _ _ h)

@[simp] theorem State.queueSus_canon {s : State} {k : Nat} {tile : Option Nat} (h : Canon s.mems) : Canon (State.queueSus s k tile).mems :=
  ⟨foldl_wf _ _ _ (fun m _ hm => susEntries_wf _ _ _ _ m hm) h.near, foldl_wf _ _ _ (fun m _ hm => susEntries_wf _ _ _ _ m hm) h.deep,
    h.scr, h.nv⟩

@[simp] theorem State.timSuspect_canon {s : State} {k : Nat} {tile : Option Nat} (h : Canon s.mems) :
    Canon (State.timSuspect s k tile).mems := by simp [State.timSuspect, h]

@[simp] theorem State.timAt_canon {s : State} {t : Nat} {es : List HeldE} (h : Canon s.mems) :
    Canon (State.timAt s t es).mems := by simp [State.timAt, h]

@[simp] theorem State.timTo_canon {t fuel : Nat} {u : State} (h : Canon u.mems) : Canon (State.timTo t fuel u).mems := by
  induction fuel generalizing u with
  | zero => exact h
  | succ k ih =>
    simp only [State.timTo]
    split
    · exact h
    split
    · exact h
    · exact ih (State.timAt_canon h)

@[simp] theorem State.timSeen_canon {t : Nat} {s : State} (h : Canon s.mems) : Canon (State.timSeen t s).mems := by simp [State.timSeen, h]

@[simp] theorem State.timAll_canon {t : Nat} {s : State} (h : Canon s.mems) : Canon (State.timAll t s).mems := by simp [State.timAll, h]

@[simp] theorem State.sivPut_canon {s : State} {u : Nat} {bs : List Byte} (h : Canon s.mems) :
    Canon (State.sivPut s u bs).mems := by simp [State.sivPut, h]

@[simp] theorem State.sivPad_canon {s : State} {w : Nat} (h : Canon s.mems) : Canon (State.sivPad s w).mems := by simp [State.sivPad, h]

@[simp] theorem State.sivWrap_canon {s : State} (h : Canon s.mems) : Canon (State.sivWrap s).mems := by simp [State.sivWrap, h]

@[simp] theorem State.sivTaken_canon {s : State} {n : Nat} (h : Canon s.mems) : Canon (State.sivTaken s n).mems := by
  unfold State.sivTaken
  split <;> simp [h]

@[simp] theorem State.sivCut_canon {s : State} {p : Nat} (h : Canon s.mems) : Canon (State.sivCut s p).mems := by
  unfold State.sivCut
  exact foldl_canon _ _ _ (fun _ _ h => by simp [h]) h

@[simp] theorem State.sivStop_canon {s : State} {p : Nat} (h : Canon s.mems) : Canon (State.sivStop s p).mems := by simp [State.sivStop, h]

@[simp] theorem State.sieveReserve_canon {tile t : Nat} {s : State} (h : Canon s.mems) : Canon (State.sieveReserve tile t s).mems := by
  simp only [State.sieveReserve]
  (repeat' split) <;> simp [h]

@[simp] theorem State.sieveWrite_canon {lane wait t : Nat} {s : State} (h : Canon s.mems) :
    Canon (State.sieveWrite lane wait t s).mems := by
  simp only [State.sieveWrite]
  (repeat' split) <;> simp [h]

@[simp] theorem State.redo_canon {s : State} {g : Seg} {u o : Nat} {bs : List Byte} (h : Canon s.mems) :
    Canon (State.redo s g u o bs).mems := by simp [State.redo, h]

@[simp] theorem State.putLead_canon {s : State} {r : Rec} (h : Canon s.mems) : Canon (State.putLead s r).mems := by simp [State.putLead, h]

/-- Records that are put one after another keep the canonical form. -/
theorem foldl_capPut_canon {α : Type} (rec : State → α → Rec) (l : List α) {s : State} (h : Canon s.mems) :
    Canon (l.foldl (fun s a => s.capPut (rec s a)) s).mems := foldl_canon _ _ _ (fun _ _ hu => State.capPut_canon hu) h

@[simp] theorem State.openSeg_canon {s : State} {g0 : Seg} {n : Nat} {ls : List Nat} (h : Canon s.mems) :
    Canon (State.openSeg s g0 n ls).mems := by
  unfold State.openSeg
  extract_lets kt g _ s1 s2 s3 s4 _ s5 _ s6 s7 s8 s9 seg
  have h2 : Canon s2.mems := State.capPut_canon h
  have h3 : Canon s3.mems := by
    by_cases hn : n = 0
    · rwa [show s3 = s2 from if_pos hn]
    · rw [show s3 = _ from if_neg hn]
      exact State.capPut_canon h2
  have h4 : Canon s4.mems := State.capPut_canon h3
  have h5 : Canon s5.mems := by
    simp only [s5]
    split
    · rw [State.gapDone_mems]
      exact State.capPut_canon h4
    · exact h4
  have h6 : Canon s6.mems := by
    simp only [s6]
    split
    · exact State.capPut_canon h5
    · exact h5
  have h8 : Canon s8.mems := foldl_canon _ _ _ (fun _ _ hu => State.putLead_canon hu) (foldl_capPut_canon _ _ h6)
  rw [State.wr_mems]
  exact foldl_capPut_canon _ _ h8

@[simp] theorem State.headerDone_canon {s : State} {g : Seg} {a b kEnd : Nat} (h : Canon s.mems) :
    Canon (State.headerDone s g a b kEnd).mems := by
  simp only [State.headerDone]
  exact State.redo_canon (State.redo_canon (State.redo_canon h))

@[simp] theorem State.capPutFit_canon {s : State} {r : Rec} (h : Canon s.mems) : Canon (State.capPutFit s r).mems := by
  unfold State.capPutFit
  split <;> simp [h]

@[simp] theorem State.bodyOut_canon {s : State} {g : Seg} {a b : Nat} (h : Canon s.mems) : Canon (State.bodyOut s g a b).mems := by
  have hb : Canon ((s.dataBlocks g a b).foldl State.capBlock s).mems := foldl_canon _ _ _ (fun _ _ hu => State.capBlock_canon hu) h
  unfold State.bodyOut
  refine foldl_canon _ _ _ (fun _ _ hu => State.capPutFit_canon hu) ?_
  split
  · exact hb
  · exact State.capBridge_canon hb

@[simp] theorem State.closeSeg1_canon {s : State} {cause e t past : Nat} (h : Canon s.mems) :
    Canon (State.closeSeg1 s cause e t past).mems := by
  unfold State.closeSeg1
  split
  · exact h
  extract_lets a gaps pastUnits
  split
  extract_lets kEnd s1
  split
  · exact h
  next g _ =>
    extract_lets s2 s3 w tr u s4 _
    have h2 : Canon s2.mems := State.bodyOut_canon (State.headerDone_canon (by simpa [s1] using h))
    have h3 : Canon s3.mems := by
      simp only [s3]
      (repeat' split)
      · exact State.redStop_canon (State.redStart_canon h2)
      · exact State.redStop_canon h2
      · exact h2
    rw [State.mems_mk, State.mems_eta, State.segGone_mems]
    exact State.capPut_canon h3

@[simp] theorem State.closeLast_canon {s : State} {cause e t past : Nat} (h : Canon s.mems) :
    Canon (State.closeLast s cause e t past).mems := by
  unfold State.closeLast
  split <;> simp [h]

@[simp] theorem State.chainNext_canon {s : State} {g : Seg} {e t : Nat} (h : Canon s.mems) : Canon (State.chainNext s g e t).mems := by
  have h1 : Canon (((s.closeLast 8 e t 0).freePlace s.acq.next).takeDelays).mems := by simp [State.closeLast_canon h]
  unfold State.chainNext
  dsimp only
  split
  · exact State.redStart_canon (State.openSeg_canon h1)
  · exact State.openSeg_canon h1

@[simp] theorem State.chainTo_canon {e t fuel : Nat} {u : State} (h : Canon u.mems) : Canon (State.chainTo e t fuel u).mems := by
  induction fuel generalizing e t u with
  | zero => exact h
  | succ k ih =>
    simp only [State.chainTo]
    (repeat' split) <;> simp [h, ih]

@[simp] theorem State.closeSeg_canon {s : State} {cause e t past : Nat} (h : Canon s.mems) :
    Canon (State.closeSeg s cause e t past).mems := by simp [State.closeSeg, h]

@[simp] theorem State.trigRecords_canon {s : State} {g : Seg} {x : Trig} (h : Canon s.mems) :
    Canon (State.trigRecords s g x).mems := by simp [State.trigRecords, h]

@[simp] theorem State.trigger1_canon {s : State} {x : Trig} {k : Nat} (h : Canon s.mems) : Canon (State.trigger1 s x k).mems := by
  unfold State.trigger1
  split <;> simp [h]

@[simp] theorem State.trigger2_canon {s : State} {x y : Trig} (h : Canon s.mems) : Canon (State.trigger2 s x y).mems := by
  unfold State.trigger2
  split <;> simp [h]

@[simp] theorem State.trigger_canon {s : State} {x : Trig} {k : Nat} (h : Canon s.mems) : Canon (State.trigger s x k).mems := by
  unfold State.trigger
  split <;> simp [h]

@[simp] theorem State.fire_canon {s : State} {k : Nat} {x : Taken} (h : Canon s.mems) :
    Canon (State.fire s k x).mems := by simp [State.fire, h]

@[simp] theorem State.trellis_canon {s : State} {k : Nat} (h : Canon s.mems) : Canon (State.trellis s k).mems := by
  simp only [State.trellis]
  (repeat' split) <;> simp [h]

@[simp] theorem State.trlLoop_canon {p fuel : Nat} {u : State} (h : Canon u.mems) : Canon (State.trlLoop p fuel u).mems := by
  induction fuel generalizing p u with
  | zero => exact h
  | succ k ih =>
    simp only [State.trlLoop]
    (repeat' split) <;> simp [h, ih]

@[simp] theorem State.trlTo_canon {p : Nat} {s : State} (h : Canon s.mems) : Canon (State.trlTo p s).mems := by simp [State.trlTo, h]

@[simp] theorem State.violate_canon {s : State} {n kind c : Nat} {o : Int} {ref tv : Nat} {sres : Bool} (h : Canon s.mems) :
    Canon (State.violate s n kind c o ref tv sres).mems := by simp [State.violate, h]

@[simp] theorem State.horizon_canon {s : State} {n t : Nat} {sres : Bool} (h : Canon s.mems) :
    Canon (State.horizon s n t sres).mems := by
  unfold State.horizon
  refine foldl_canon _ _ _ (fun u c hu => ?_) (by simpa using h)
  split
  · dsimp only
    split
    · exact State.violate_canon hu
    · exact hu
  · exact hu

@[simp] theorem State.judge_canon {s : State} {n c t : Nat} {sres : Bool} (h : Canon s.mems) :
    Canon (State.judge s n c t sres).mems := by
  simp only [State.judge]
  (repeat' split) <;> simp [h]

@[simp] theorem State.ruleEdge_canon {ref : Bool} {c t : Nat} {up sres : Bool} {s : State} {n : Nat} (h : Canon s.mems) :
    Canon (State.ruleEdge ref c t up sres s n).mems := by simp [State.ruleEdge, h]

@[simp] theorem State.hedgeEdge_canon {ref : Bool} {s : State} {e : HeldE} (h : Canon s.mems) :
    Canon (State.hedgeEdge ref s e).mems := by
  have hr : Canon (((List.range 64).foldl (State.ruleEdge ref e.ch e.t e.up e.sres) s)).mems :=
    foldl_canon _ _ _ (fun _ _ hu => State.ruleEdge_canon hu) h
  unfold State.hedgeEdge
  split
  · exact h
  dsimp only
  split
  · exact hr
  · rw [State.mems_mk, State.mems_eta]
    exact hr

@[simp] theorem State.hedgeEdges_canon {s : State} {es : List HeldE} (h : Canon s.mems) :
    Canon (State.hedgeEdges s es).mems := foldl_canon _ _ _ (fun _ _ hu => State.hedgeEdge_canon hu) (foldl_canon _ _ _ (fun _ _ hu => State.hedgeEdge_canon hu) h)

@[simp] theorem State.edgesAt_canon {s : State} {es : List HeldE} (h : Canon s.mems) : Canon (State.edgesAt s es).mems := by
  unfold State.edgesAt
  rw [State.timHold_mems]
  exact foldl_canon _ _ _ (fun _ _ hu => State.redEdge_canon hu) (State.hedgeEdges_canon h)

@[simp] theorem State.edgesTo_canon {t fuel : Nat} {u : State} (h : Canon u.mems) : Canon (State.edgesTo t fuel u).mems := by
  induction fuel generalizing u with
  | zero => exact h
  | succ k ih =>
    simp only [State.edgesTo]
    split
    · exact h
    split
    · exact h
    · exact ih (State.edgesAt_canon (State.trlTo_canon h))

@[simp] theorem State.redSeen_canon {p : Nat} {s : State} (h : Canon s.mems) : Canon (State.redSeen p s).mems := by
  unfold State.redSeen
  split
  · exact h
  · exact foldl_canon _ _ _ (fun _ _ hu => State.redUpTo_canon hu) h

@[simp] theorem State.seenTo_canon {t : Nat} {s : State} (h : Canon s.mems) : Canon (State.seenTo t s).mems := by
  have h1 : Canon (State.edgesTo t s.inp.hold.length s).mems := State.edgesTo_canon h
  exact State.redSeen_canon (State.trlTo_canon h1)

@[simp] theorem State.openNow_canon {s : State} (h : Canon s.mems) : Canon (State.openNow s).mems := by
  unfold State.openNow
  split <;> simp [h]

@[simp] theorem State.openTo_canon {t : Nat} {s : State} (h : Canon s.mems) : Canon (State.openTo t s).mems := by
  have h1 : ∀ k, Canon (State.edgesTo k s.inp.hold.length s).mems := fun k => State.edgesTo_canon h
  unfold State.openTo
  split
  · split
    · exact State.openNow_canon (State.trlTo_canon (h1 _))
    · exact h
  · exact h

@[simp] theorem State.timKeep_canon {s : State} (h : Canon s.mems) : Canon (State.timKeep s).mems := by simp [State.timKeep, h]

@[simp] theorem State.upTo_canon {t : Nat} {s : State} (h : Canon s.mems) : Canon (State.upTo t s).mems := by
  have h1 : Canon (s.advance t).mems := by simpa using h
  unfold State.upTo
  dsimp only
  split
  · exact h1
  · exact State.timKeep_canon (State.seenTo_canon (State.openTo_canon h1))

@[simp] theorem State.keepUp_canon {s : State} (h : Canon s.mems) : Canon (State.keepUp s).mems := by
  unfold State.keepUp
  split
  · exact h
  · exact State.timKeep_canon (State.seenTo_canon (State.openTo_canon h))

@[simp] theorem State.redIvlExpire_canon {n t : Nat} {s : State} (h : Canon s.mems) :
    Canon (State.redIvlExpire n t s).mems := by simp [State.redIvlExpire, h]

@[simp] theorem State.redFlushExpire_canon {n t : Nat} {s : State} (h : Canon s.mems) : Canon (State.redFlushExpire n t s).mems := by
  have hu : Canon (State.upTo t s).mems := State.upTo_canon h
  revert hu
  unfold State.redFlushExpire
  generalize State.upTo t s = u
  intro hu
  dsimp only
  (repeat' split) <;> simp [hu]

@[simp] theorem State.lossEnd_canon {t : Nat} {s : State} (h : Canon s.mems) : Canon (State.lossEnd t s).mems := by simp [State.lossEnd, h]

@[simp] theorem State.timedGate_canon {n t : Nat} {s : State} (h : Canon s.mems) : Canon (State.timedGate n t s).mems := by
  simp only [State.timedGate]
  (repeat' split) <;> simp [h]

@[simp] theorem State.staleDiscard_canon {n t : Nat} {s : State} (h : Canon s.mems) :
    Canon (State.staleDiscard n t s).mems := by simp [State.staleDiscard, h]

@[simp] theorem State.missing_canon {n c t : Nat} {s : State} (h : Canon s.mems) : Canon (State.missing n c t s).mems := by
  simp only [State.missing]
  (repeat' split) <;> simp [h]

@[simp] theorem State.branchTaken_canon {k : Nat} {retry second : Bool} {group slot : Nat} {s : State} (h : Canon s.mems) :
    Canon (State.branchTaken k retry second group slot s).mems := by
  have hu : Canon (State.trlTo k (State.upTo (s.grid.start k) s)).mems := State.trlTo_canon (State.upTo_canon h)
  revert hu
  unfold State.branchTaken
  generalize State.trlTo k (State.upTo (s.grid.start k) s) = u
  intro hu
  dsimp only
  (repeat' split) <;> simp [hu]

@[simp] theorem State.timerLimit_canon {_n t : Nat} {s : State} (h : Canon s.mems) :
    Canon (State.timerLimit _n t s).mems := by simp [State.timerLimit, h]

@[simp] theorem State.pulseEnd_canon {n t : Nat} {s : State} (h : Canon s.mems) : Canon (State.pulseEnd n t s).mems := by
  simp only [State.pulseEnd]
  (repeat' split) <;> simp [h]

@[simp] theorem State.haltAll_canon {s : State} {p : Nat} (h : Canon s.mems) : Canon (State.haltAll s p).mems := by
  have h1 : Canon (State.trlTo p s).nearSync.mems := State.nearSync_canon (State.trlTo_canon h)
  unfold State.haltAll
  dsimp only
  rw [State.mems_mk, State.mems_eta, State.timStop_mems]
  exact State.sivStop_canon (State.redStop_canon h1)

@[simp] theorem State.enterStopping_canon {s : State} {cause p t : Nat} (h : Canon s.mems) :
    Canon (State.enterStopping s cause p t).mems := by simp [State.enterStopping, h]

@[simp] theorem State.stopMore_canon {s : State} {cause t : Nat} (h : Canon s.mems) : Canon (State.stopMore s cause t).mems := by
  simp only [State.stopMore]
  (repeat' split) <;> simp [h]

@[simp] theorem State.lateViolation_canon {s : State} {e : HeldE} (h : Canon s.mems) : Canon (State.lateViolation s e).mems := by
  unfold State.lateViolation
  split <;> simp [h]

@[simp] theorem State.stopAt_canon {s0 : State} {cause t : Nat} (h : Canon s0.mems) : Canon (State.stopAt s0 cause t).mems := by
  have hu : Canon (State.upTo t s0).mems := State.upTo_canon h
  revert hu
  unfold State.stopAt
  generalize State.upTo t s0 = s
  intro hu
  dsimp only
  split
  · exact hu
  split
  · exact State.stopMore_canon hu
  split
  · exact State.edgesTo_canon hu
  refine State.enterStopping_canon ?_
  have ht : Canon (State.timAll t s).mems := State.timAll_canon hu
  revert ht
  generalize State.timAll t s = v
  intro ht
  have hd : Canon ((State.dropOpening { v with acq := { v.acq with units := v.acq.units.filter fun u => u.t < t, stopped := none } }).lossStop
      (v.grid.start (v.grid.posOf t))).mems := by simpa using ht
  revert hd
  generalize ((State.dropOpening { v with acq := { v.acq with units := v.acq.units.filter fun u => u.t < t, stopped := none } }).lossStop
      (v.grid.start (v.grid.posOf t))) = w
  intro hd
  (repeat' split) <;> simp [hd]

@[simp] theorem State.startCapture_canon {s : State} {t : Nat} (h : Canon s.mems) :
    Canon (State.startCapture s t).mems := by simp [State.startCapture, h]

@[simp] theorem State.forceTrig_canon {s0 : State} (h : Canon s0.mems) : Canon (State.forceTrig s0).mems := by simp [State.forceTrig, h]

@[simp] theorem State.prefillDone_canon {t : Nat} {s : State} (h : Canon s.mems) : Canon (State.prefillDone t s).mems := by
  simp only [State.prefillDone]
  (repeat' split) <;> simp [h]

@[simp] theorem State.prefillLimit_canon {t : Nat} {s : State} (h : Canon s.mems) : Canon (State.prefillLimit t s).mems := by
  simp only [State.prefillLimit]
  (repeat' split) <;> simp [h]

@[simp] theorem State.postfillDone_canon {t : Nat} {s : State} (h : Canon s.mems) : Canon (State.postfillDone t s).mems := by
  have hu : Canon (State.upTo t s).mems := State.upTo_canon h
  revert hu
  unfold State.postfillDone
  generalize State.upTo t s = u
  intro hu
  dsimp only
  (repeat' split) <;> simp [hu]

@[simp] theorem State.segmentChain_canon {t : Nat} {s : State} (h : Canon s.mems) : Canon (State.segmentChain t s).mems := by
  have hu : Canon (State.upTo t s).mems := State.upTo_canon h
  revert hu
  unfold State.segmentChain
  generalize State.upTo t s = u
  intro hu
  dsimp only
  (repeat' split) <;> simp [hu]

@[simp] theorem State.hedgeTailEnd_canon {t : Nat} {s : State} (h : Canon s.mems) : Canon (State.hedgeTailEnd t s).mems := by
  have hu : Canon (State.upTo t s).mems := State.upTo_canon h
  revert hu
  unfold State.hedgeTailEnd
  generalize State.upTo t s = u
  intro hu
  dsimp only
  (repeat' split) <;> simp [hu]

@[simp] theorem State.acqTimeout_canon {t : Nat} {s : State} (h : Canon s.mems) :
    Canon (State.acqTimeout t s).mems := by simp [State.acqTimeout, h]

@[simp] theorem State.storageStall_canon {tile t : Nat} {s : State} (h : Canon s.mems) :
    Canon (State.storageStall tile t s).mems := by simp [State.storageStall, h]

@[simp] theorem State.storageResume_canon {t : Nat} {s : State} (h : Canon s.mems) : Canon (State.storageResume t s).mems := by
  simp only [State.storageResume]
  (repeat' split) <;> simp [h]

@[simp] theorem State.relockClose_canon {s0 : State} {t cause : Nat} (h : Canon s0.mems) :
    Canon (State.relockClose s0 t cause).mems := by
  have hu : Canon (State.timAll t (State.upTo t s0).nearSync).mems := State.timAll_canon (State.nearSync_canon (State.upTo_canon h))
  revert hu
  unfold State.relockClose
  generalize State.timAll t (State.upTo t s0).nearSync = u
  intro hu
  extract_lets v p lost gap s1 s2 _ s3
  split
  · exact h
  have hv : Canon v.mems := hu
  have h1 : Canon s1.mems := by
    simp only [s1]
    (repeat' split) <;> simp [hv]
  have h3 : Canon s3.mems := by simpa [s3, s2] using State.sivCut_canon h1
  split <;> simp [h3]

@[simp] theorem State.relockOpen_canon {s0 : State} {t : Nat} (h : Canon s0.mems) :
    Canon (State.relockOpen s0 t).mems := by simp [State.relockOpen, h]

@[simp] theorem State.holdEdge_canon {s : State} {e : HeldE} (h : Canon s.mems) :
    Canon (State.holdEdge s e).mems := by simp [State.holdEdge, h]

@[simp] theorem State.consume_canon {s : State} {ch t : Nat} {up sres : Bool} (h : Canon s.mems) :
    Canon (State.consume s ch t up sres).mems := by simp [State.consume, h]

@[simp] theorem State.channelEdge_canon {ch : Nat} {v : Int} {beyond : Bool} {traw sstart : Nat} {s : State} (h : Canon s.mems) :
    Canon (State.channelEdge ch v beyond traw sstart s).mems := by
  unfold State.channelEdge
  split <;> simp [h]

@[simp] theorem State.gateInputEdge_canon {i : Nat} {up : Bool} {t : Nat} {s : State} (h : Canon s.mems) :
    Canon (State.gateInputEdge i up t s).mems := by simp [State.gateInputEdge, h]

@[simp] theorem State.pchkEnd_canon {s : State} {t : Nat} {abandoned : Bool} (h : Canon s.mems) :
    Canon (State.pchkEnd s t abandoned).mems := by
  unfold State.pchkEnd
  split <;> simp [h]

@[simp] theorem State.pchkWindow_canon {t : Nat} {s : State} (h : Canon s.mems) : Canon (State.pchkWindow t s).mems := by
  simp only [State.pchkWindow]
  (repeat' split) <;> simp [h]

@[simp] theorem State.pchkSlot_canon {t : Nat} {s : State} (h : Canon s.mems) : Canon (State.pchkSlot t s).mems := by
  simp only [State.pchkSlot]
  (repeat' split) <;> simp [h]

@[simp] theorem State.reached_canon {t : Nat} {s : State} (h : Canon s.mems) : Canon (State.reached t s).mems := by simp [State.reached, h]

@[simp] theorem State.pchkAbandon_canon {s : State} {t : Nat} (h : Canon s.mems) : Canon (State.pchkAbandon s t).mems := by
  simp only [State.pchkAbandon]
  (repeat' split) <;> simp [h]

@[simp] theorem State.ppsEdge_canon {up : Bool} {t : Nat} {s : State} (h : Canon s.mems) :
    Canon (State.ppsEdge up t s).mems := by simp [State.ppsEdge, h]

@[simp] theorem State.taskAbandon_canon {s : State} (h : Canon s.mems) : Canon (State.taskAbandon s).mems := by
  unfold State.taskAbandon
  split <;> simp [h]

@[simp] theorem State.baseLost_canon {s : State} {t : Nat} (h : Canon s.mems) :
    Canon (State.baseLost s t).mems := by simp [State.baseLost, h]

@[simp] theorem State.susOpen_canon {s : State} {k x y : Nat} (h : Canon s.mems) :
    Canon (State.susOpen s k x y).mems := by simp [State.susOpen, h]

@[simp] theorem State.domClose_canon {s : State} {t cause : Nat} (h : Canon s.mems) : Canon (State.domClose s t cause).mems := by
  simp only [State.domClose]
  (repeat' split) <;> simp [h]

@[simp] theorem State.domOpen_canon {s : State} {t : Nat} (h : Canon s.mems) : Canon (State.domOpen s t).mems := by simp [State.domOpen, h]

@[simp] theorem State.domEval_canon {s0 : State} {t cause : Nat} (h : Canon s0.mems) :
    Canon (State.domEval s0 t cause).mems := by simp [State.domEval, h]

@[simp] theorem State.hopStart_canon {t : Nat} {s : State} (h : Canon s.mems) : Canon (State.hopStart t s).mems := by
  simp only [State.hopStart]
  (repeat' split) <;> simp [h]

@[simp] theorem State.pllCtl_canon {s : State} {x : Nat} {en search : Bool} (h : Canon s.mems) :
    Canon (State.pllCtl s x en search).mems := by
  simp only [State.pllCtl]
  (repeat' split) <;> simp [h]

@[simp] theorem State.qualified_canon {x t : Nat} {s : State} (h : Canon s.mems) : Canon (State.qualified x t s).mems := by
  simp only [State.qualified]
  (repeat' split) <;> simp [h]

@[simp] theorem State.dllLocked_canon {tile t : Nat} {s : State} (h : Canon s.mems) :
    Canon (State.dllLocked tile t s).mems := by simp [State.dllLocked, h]

@[simp] theorem State.lockLoss_canon {x : Nat} {j1 j2 : Judge} {tPass t : Nat} {s : State} (h : Canon s.mems) :
    Canon (State.lockLoss x j1 j2 tPass t s).mems := by simp [State.lockLoss, h]

@[simp] theorem State.relock_canon {s : State} {x t src detail : Nat} (h : Canon s.mems) :
    Canon (State.relock s x t src detail).mems := by simp [State.relock, h]

@[simp] theorem State.outOfRange_canon {x : Nat} {err : Int} {t : Nat} {s : State} (h : Canon s.mems) :
    Canon (State.outOfRange x err t s).mems := by simp [State.outOfRange, h]

@[simp] theorem State.holdTimeout_canon {x t : Nat} {s : State} (h : Canon s.mems) :
    Canon (State.holdTimeout x t s).mems := by simp [State.holdTimeout, h]

@[simp] theorem State.pllFailed_canon {x t : Nat} {s : State} (h : Canon s.mems) : Canon (State.pllFailed x t s).mems := by
  simp only [State.pllFailed]
  (repeat' split) <;> simp [h]

@[simp] theorem State.dllLoss_canon {tile t : Nat} {s : State} (h : Canon s.mems) :
    Canon (State.dllLoss tile t s).mems := by simp [State.dllLoss, h]

@[simp] theorem State.dllTimeout_canon {tile t : Nat} {s : State} (h : Canon s.mems) :
    Canon (State.dllTimeout tile t s).mems := by simp [State.dllTimeout, h]

@[simp] theorem State.srcTake_canon {s : State} {src t : Nat} (h : Canon s.mems) : Canon (State.srcTake s src t).mems := by
  simp only [State.srcTake]
  (repeat' split) <;> simp [h]

@[simp] theorem State.srcSwitch_canon {t : Nat} {s : State} (h : Canon s.mems) :
    Canon (State.srcSwitch t s).mems := by simp [State.srcSwitch, h]

@[simp] theorem State.extLost_canon {t : Nat} {s : State} (h : Canon s.mems) : Canon (State.extLost t s).mems := by simp [State.extLost, h]

@[simp] theorem State.extInvalid_canon {edges : Bool} {t : Nat} {s : State} (h : Canon s.mems) :
    Canon (State.extInvalid edges t s).mems := by simp [State.extInvalid, h]

@[simp] theorem State.extFreq_canon {s : State} (h : Canon s.mems) : Canon (State.extFreq s).mems := by simp [State.extFreq, h]

@[simp] theorem State.extDrift_canon {err : Int} {t : Nat} {s : State} (h : Canon s.mems) :
    Canon (State.extDrift err t s).mems := by simp [State.extDrift, h]

@[simp] theorem State.extValid_canon {err : Int} {t : Nat} {s : State} (h : Canon s.mems) :
    Canon (State.extValid err t s).mems := by simp [State.extValid, h]

@[simp] theorem State.extReturn_canon {t : Nat} {s : State} (h : Canon s.mems) :
    Canon (State.extReturn t s).mems := by simp [State.extReturn, h]

@[simp] theorem State.hashApply_canon {s : State} (h : Canon s.mems) : Canon (State.hashApply s).mems := by
  have hfresh : ∀ k, (⟨some k, [], []⟩ : Mem).wf = true := fun k => rfl
  unfold State.hashApply
  dsimp only
  (repeat' split) <;> simp [h, hfresh]

@[simp] theorem State.pcEmpty_canon {s : State} {p : Nat} (h : Canon s.mems) :
    Canon (State.pcEmpty s p).mems := by simp [State.pcEmpty, h, Mem.filter_wf]

@[simp] theorem State.pcRetire_canon {p : Nat} {migrate : Bool} {s : State} (h : Canon s.mems) :
    Canon (State.pcRetire p migrate s).mems := by simp [State.pcRetire, h]

@[simp] theorem State.symbolsCounted_canon {p : Nat} {q : Second} {t : Nat} {s : State} (h : Canon s.mems) :
    Canon (State.symbolsCounted p q t s).mems := by simp [State.symbolsCounted, h]

@[simp] theorem State.rowSpared_canon {p row t : Nat} {s : State} (h : Canon s.mems) :
    Canon (State.rowSpared p row t s).mems := by simp [State.rowSpared, h]

@[simp] theorem State.linkFailed_canon {s : State} {p : Nat} (h : Canon s.mems) :
    Canon (State.linkFailed s p).mems := by simp [State.linkFailed, h]

@[simp] theorem State.dmcInitDone_canon {fails : List Nat} {t : Nat} {s : State} (h : Canon s.mems) :
    Canon (State.dmcInitDone fails t s).mems := by
  have hf : Canon (fails.foldl State.linkFailed (s.advance t)).mems :=
    foldl_canon _ _ _ (fun _ _ hu => State.linkFailed_canon hu) (by simpa using h)
  unfold State.dmcInitDone
  dsimp only
  split
  · simpa using h
  · exact hf

@[simp] theorem State.nearSeen_canon {s : State} {a n : Nat} (h : Canon s.mems) :
    Canon (State.nearSeen s a n).mems := by simp [State.nearSeen, h]

@[simp] theorem State.bar2Take_canon {a len : Nat} {corr uncorr : List Nat} {wait : Nat} {s0 : State} (h : Canon s0.mems) :
    Canon (State.bar2Take a len corr uncorr wait s0).mems := by simp [State.bar2Take, h]

@[simp] theorem State.bar2Read_canon {a len : Nat} {corr uncorr : List Nat} {wait t : Nat} {s : State} (h : Canon s.mems) :
    Canon (State.bar2Read a len corr uncorr wait t s).mems := by simp [State.bar2Read, h]

@[simp] theorem State.nearPut_canon {s : State} {a : Nat} {bs : List Byte} (h : Canon s.mems) :
    Canon (State.nearPut s a bs).mems := by simp [State.nearPut, h, Mem.write_wf]

@[simp] theorem State.bar2Store_canon {a : Nat} {data : List Byte} {wait : Nat} {s0 : State} (h : Canon s0.mems) :
    Canon (State.bar2Store a data wait s0).mems := by simp [State.bar2Store, h]

@[simp] theorem State.bar2Write_canon {a : Nat} {data : List Byte} {wait t : Nat} {s : State} (h : Canon s.mems) :
    Canon (State.bar2Write a data wait t s).mems := by simp [State.bar2Write, h]

@[simp] theorem State.memDone_canon {s : State} {r : MemReq} (h : Canon s.mems) : Canon (State.memDone s r).mems := by
  unfold State.memDone
  split <;> simp [h]

@[simp] theorem State.memSync_canon {s : State} (h : Canon s.mems) : Canon (State.memSync s).mems := by
  unfold State.memSync
  split
  · exact h
  · exact foldl_canon _ _ _ (fun _ _ hu => State.memDone_canon hu) h

@[simp] theorem State.nearCleared_canon {t : Nat} {s : State} (h : Canon s.mems) : Canon (State.nearCleared t s).mems := by
  have hclear : (⟨none, [], []⟩ : Mem).wf = true := rfl
  unfold State.nearCleared
  dsimp only
  split <;> simp [h, hclear]

@[simp] theorem State.deepCleared_canon {t : Nat} {s : State} (h : Canon s.mems) : Canon (State.deepCleared t s).mems := by
  have hclear : (⟨none, [], []⟩ : Mem).wf = true := rfl
  unfold State.deepCleared
  dsimp only
  (repeat' split) <;> simp [h, hclear]

@[simp] theorem State.dmcCtl_canon {v : Nat} {s : State} (h : Canon s.mems) : Canon (State.dmcCtl v s).mems := by simp [State.dmcCtl, h]

@[simp] theorem State.deliverMore_canon {fuel : Nat} {u : State} (h : Canon u.mems) : Canon (State.deliverMore fuel u).mems := by
  induction fuel generalizing u with
  | zero => exact h
  | succ k ih =>
    simp only [State.deliverMore]
    (repeat' split) <;> simp [h, ih]

@[simp] theorem State.deliverOut_canon {s : State} (h : Canon s.mems) : Canon (State.deliverOut s).mems := by simp [State.deliverOut, h]

@[simp] theorem State.followDone_canon {n t : Nat} {s : State} (h : Canon s.mems) : Canon (State.followDone n t s).mems := by
  simp only [State.followDone]
  (repeat' split) <;> simp [h]

@[simp] theorem State.followFlush_canon {n t : Nat} {s : State} (h : Canon s.mems) : Canon (State.followFlush n t s).mems := by
  simp only [State.followFlush]
  (repeat' split) <;> simp [h]

@[simp] theorem State.copyDesc_canon {n : Nat} {corr uncorr : List Nat} {wait t : Nat} {s : State} (h : Canon s.mems) :
    Canon (State.copyDesc n corr uncorr wait t s).mems := by
  simp only [State.copyDesc]
  (repeat' split) <;> simp [h]

@[simp] theorem State.m7Done_canon {t : Nat} {s : State} (h : Canon s.mems) : Canon (State.m7Done t s).mems := by
  simp only [State.m7Done]
  (repeat' split) <;> simp [h]

@[simp] theorem State.supplyStop_canon {t e : Nat} {s0 : State} (h : Canon s0.mems) : Canon (State.supplyStop t e s0).mems := by
  simp only [State.supplyStop]
  (repeat' split) <;> simp [h]

@[simp] theorem State.seqStart_canon {cause t : Nat} {s : State} (h : Canon s.mems) :
    Canon (State.seqStart cause t s).mems := by simp [State.seqStart, h]

@[simp] theorem State.feedsLost_canon {t : Nat} {s : State} (h : Canon s.mems) : Canon (State.feedsLost t s).mems := by
  simp only [State.feedsLost]
  (repeat' split) <;> simp [h]

@[simp] theorem State.cutoff_canon {t : Nat} {s : State} (h : Canon s.mems) : Canon (State.cutoff t s).mems := by
  simp only [State.cutoff]
  (repeat' split) <;> simp [h]

@[simp] theorem State.phaseFail_canon {rail : Nat} {fault : Bool} {t : Nat} {s : State} (h : Canon s.mems) :
    Canon (State.phaseFail rail fault t s).mems := by simp [State.phaseFail, h]

@[simp] theorem State.trip_canon {sensor : Nat} {temp : Int} {t : Nat} {s : State} (h : Canon s.mems) :
    Canon (State.trip sensor temp t s).mems := by simp [State.trip, h]

@[simp] theorem State.nvPut_canon {a : Nat} {bs : List Byte} {s : State} (h : Canon s.mems) :
    Canon (State.nvPut a bs s).mems := by simp [State.nvPut, h, Mem.write_wf]

@[simp] theorem State.nvSpoil_canon {a n : Nat} {s : State} (h : Canon s.mems) :
    Canon (State.nvSpoil a n s).mems := by simp [State.nvSpoil, h]

@[simp] theorem State.nvErase_canon {a n : Nat} {s : State} (h : Canon s.mems) :
    Canon (State.nvErase a n s).mems := by simp [State.nvErase, h]

@[simp] theorem State.nvPerform_canon {op a : Nat} {s : State} (h : Canon s.mems) : Canon (State.nvPerform op a s).mems := by
  unfold State.nvPerform
  split <;> simp [h, Mem.write_wf]

@[simp] theorem State.nvDone_canon {t : Nat} {s : State} (h : Canon s.mems) : Canon (State.nvDone t s).mems := by
  simp only [State.nvDone]
  (repeat' split) <;> simp [h]

@[simp] theorem State.nvAbort_canon {s : State} (h : Canon s.mems) : Canon (State.nvAbort s).mems := by
  unfold State.nvAbort
  split <;> simp [h]

@[simp] theorem State.nvTimeout_canon {t : Nat} {s : State} (h : Canon s.mems) : Canon (State.nvTimeout t s).mems := by
  simp only [State.nvTimeout]
  (repeat' split) <;> simp [h]

@[simp] theorem State.bbxPrepDone_canon {ok : Bool} {t : Nat} {s : State} (h : Canon s.mems) :
    Canon (State.bbxPrepDone ok t s).mems := by simp [State.bbxPrepDone, h]

@[simp] theorem State.bbxPrepAbort_canon {s : State} (h : Canon s.mems) :
    Canon (State.bbxPrepAbort s).mems := by simp [State.bbxPrepAbort, h]

@[simp] theorem State.dumpEnd_canon {ok : Bool} {t : Nat} {s : State} (h : Canon s.mems) : Canon (State.dumpEnd ok t s).mems := by
  simp only [State.dumpEnd]
  (repeat' split) <;> simp [h]

@[simp] theorem State.changeMode_canon {s : State} {t : Nat} (h : Canon s.mems) :
    Canon (State.changeMode s t).mems := by simp [State.changeMode, h]

@[simp] theorem State.wakeDone_canon {s : State} (h : Canon s.mems) : Canon (State.wakeDone s).mems := by
  unfold State.wakeDone
  split <;> simp [h]

@[simp] theorem State.powerDown_canon {s : State} {t : Nat} (h : Canon s.mems) : Canon (State.powerDown s t).mems := by
  simp only [State.powerDown]
  (repeat' split) <;> simp [h]

@[simp] theorem State.enterM0_canon {s : State} {t : Nat} (h : Canon s.mems) : Canon (State.enterM0 s t).mems := by simp [State.enterM0, h]

@[simp] theorem State.modeChange_canon {t : Nat} {s : State} (h : Canon s.mems) :
    Canon (State.modeChange t s).mems := by simp [State.modeChange, h]

@[simp] theorem State.returnToMode_canon {t : Nat} {s : State} (h : Canon s.mems) :
    Canon (State.returnToMode t s).mems := by simp [State.returnToMode, h]

@[simp] theorem State.armFull_canon {s : State} (h : Canon s.mems) : Canon (State.armFull s).mems := by simp [State.armFull, h]

@[simp] theorem State.armSelf_canon {s : State} (h : Canon s.mems) : Canon (State.armSelf s).mems := by simp [State.armSelf, h]

@[simp] theorem State.acqCtl_canon {v : Nat} {s : State} (h : Canon s.mems) : Canon (State.acqCtl v s).mems := by simp [State.acqCtl, h]

@[simp] theorem State.effClk_canon {a v : Nat} {old s : State} (h : Canon s.mems) : Canon (State.effClk a v old s).mems := by
  simp only [State.effClk]
  (repeat' split) <;> simp [h]

@[simp] theorem State.effAcq_canon {a v : Nat} {s : State} (h : Canon s.mems) : Canon (State.effAcq a v s).mems := by simp [State.effAcq, h]

@[simp] theorem State.effect_canon {p : Port} {a v bm : Nat} {old s : State} (h : Canon s.mems) :
    Canon (State.effect p a v bm old s).mems := by
  unfold State.effect
  split <;> simp [h]

@[simp] theorem State.writeReg_canon {p : Port} {a be v : Nat} {s : State} (h : Canon s.mems) :
    Canon (State.writeReg p a be v s).mems := by simp [State.writeReg, h]

@[simp] theorem State.barWrite_canon {p : Port} {a be v : Nat} {s : State} (h : Canon s.mems) :
    Canon (State.barWrite p a be v s).mems := by simp [State.barWrite, h, putBytes_wf]

@[simp] theorem State.portWrite_canon {p : Port} {a be v : Nat} {s : State} (h : Canon s.mems) :
    Canon (State.portWrite p a be v s).mems := by
  unfold State.portWrite
  split <;> simp [h]

@[simp] theorem State.heldDone_canon {s : State} {h : Held} (hs : Canon s.mems) :
    Canon (State.heldDone s h).mems := by simp [State.heldDone, hs]

@[simp] theorem State.hostPerform_canon {s : State} {r : HostReq} (h : Canon s.mems) : Canon (State.hostPerform s r).mems := by
  unfold State.hostPerform
  split <;> simp [h]

@[simp] theorem State.hostWake_canon {r : HostReq} {t : Nat} {s : State} (h : Canon s.mems) :
    Canon (State.hostWake r t s).mems := by simp [State.hostWake, h]

@[simp] theorem State.hostComplete_canon {s : State} (h : Canon s.mems) : Canon (State.hostComplete s).mems := by
  unfold State.hostComplete
  split
  · exact h
  · exact foldl_canon _ _ _ (fun _ _ hu => State.hostPerform_canon hu) h

@[simp] theorem State.writeAll_canon {k : Script} {n : Nat} {l : List Nat} {fuel : Nat} {u : State} (h : Canon u.mems) :
    Canon (State.writeAll k n l fuel u).mems := by
  induction l generalizing k n fuel u with
  | nil => simp [State.writeAll, h]
  | cons a r ih =>
    simp only [State.writeAll]
    (repeat' split) <;> simp [h, ih]

@[simp] theorem State.opWrite_canon {k : Script} {s : State} (h : Canon s.mems) : Canon (State.opWrite k s).mems := by
  simp [State.opWrite, h]

/-- An operation that keeps the canonical form keeps it as a step of a script. -/
theorem State.scriptStep_canon {op t : Nat} {f : Script → State → State} {s : State} (hf : ∀ k u, Canon u.mems → Canon (f k u).mems)
    (h : Canon s.mems) : Canon (State.scriptStep op t f s).mems := by
  simp only [State.scriptStep]
  (repeat' split)
  · exact hf _ _ (by simpa using h)
  · simpa using h
  · simpa using h

@[simp] theorem State.opRmw_canon {k : Script} {s : State} (h : Canon s.mems) : Canon (State.opRmw k s).mems := by simp [State.opRmw, h]

@[simp] theorem State.opCall_canon {k : Script} {s : State} (h : Canon s.mems) :
    Canon (State.opCall k s).mems := by simp [State.opCall, h, Mem.write_wf]

@[simp] theorem State.autoArm_canon {t : Nat} {s : State} (h : Canon s.mems) : Canon (State.autoArm t s).mems := by simp [State.autoArm, h]

@[simp] theorem State.wakeArm_canon {t : Nat} {s : State} (h : Canon s.mems) : Canon (State.wakeArm t s).mems := by simp [State.wakeArm, h]

@[simp] theorem State.imageBody_canon {s : State} {h : List Byte} (hs : Canon s.mems) : Canon (State.imageBody s h).mems := by
  simp only [State.imageBody]
  (repeat' split) <;> simp [hs]

@[simp] theorem State.imageCheck_canon {size t : Nat} {s : State} (h : Canon s.mems) : Canon (State.imageCheck size t s).mems := by
  have h0 : Canon (s.advance t).mems := by simpa using h
  revert h0
  unfold State.imageCheck
  generalize s.advance t = u
  intro h0
  dsimp only
  (repeat' split) <;> simp [h0]

@[simp] theorem State.warmReset_canon {sel : Nat} {sigN : Bool} {t : Nat} {s : State} (h : Canon s.mems) :
    Canon (State.warmReset sel sigN t s).mems := by
  have h1 : Canon ((s.advance t).nearSync).mems := State.nearSync_canon (by simpa using h)
  unfold State.warmReset
  extract_lets s0 c m2 s1 s2 s3 s4 s5 s6 s7
  split
  · simpa [s0] using h
  have e1 : Canon s1.mems := by simpa [s1] using h1
  have e3 : Canon s3.mems := by simp [s3, s2, e1]
  have e4 : Canon s4.mems := by
    simp only [s4]
    (repeat' split) <;> simp [e3]
  have e7 : Canon s7.mems := by
    simp only [s7, s6]
    (repeat' split) <;> simp [s5, e4]
  simp [e7]

@[simp] theorem State.railsOff_canon {t : Nat} {s : State} (h : Canon s.mems) : Canon (State.railsOff t s).mems := by
  simp only [State.railsOff]
  (repeat' split) <;> simp [h]

@[simp] theorem State.aonUp_canon {sel : Nat} {sigN : Bool} {s : State} (h : Canon s.mems) : Canon (State.aonUp sel sigN s).mems := by
  cases hd : s.pwr.dead with
  | false => exact (aonUp_powered sel sigN s hd).symm ▸ h
  | true =>
    have e : (State.aonUp sel sigN s).mems = (⟨some s.free, [], []⟩, ⟨some (s.free + 1), [], []⟩, ⟨some (s.free + 2), [], []⟩, s.nv) := by
      rw [State.aonUp, if_neg (by simp [hd])]
      rfl
    rw [e]
    exact ⟨rfl, rfl, rfl, h.nv⟩

@[simp] theorem State.wakeSync_canon {s : State} (h : Canon s.mems) : Canon (State.wakeSync s).mems := by simp [State.wakeSync, h]

@[simp] theorem State.hostSync_canon {s : State} (h : Canon s.mems) : Canon (State.hostSync s).mems := by simp [State.hostSync, h]

@[simp] theorem State.heldSync_canon {s : State} (h : Canon s.mems) : Canon (State.heldSync s).mems := by
  unfold State.heldSync
  split
  · exact h
  · exact foldl_canon _ _ _ (fun _ _ hu => State.heldDone_canon hu) h

@[simp] theorem State.selfSync_canon {s : State} (h : Canon s.mems) : Canon (State.selfSync s).mems := by simp [State.selfSync, h]

@[simp] theorem State.hrvSync_canon {s : State} (h : Canon s.mems) : Canon (State.hrvSync s).mems := by simp [State.hrvSync, h]

@[simp] theorem State.settle_canon {old s : State} (h : Canon s.mems) : Canon (State.settle old s).mems := by
  have h1 : Canon s.selfSync.wakeSync.bootSync.hostSync.mems :=
    State.hostSync_canon (by simpa using State.wakeSync_canon (State.selfSync_canon h))
  have h2 : Canon s.selfSync.wakeSync.bootSync.hostSync.heldSync.memSync.seqSync.mems := by
    simpa using State.memSync_canon (State.heldSync_canon h1)
  unfold State.settle
  dsimp only
  rw [State.irqSync_mems, State.startEntry_mems]
  exact State.hrvSync_canon (by simpa using h2)

@[simp] theorem State.writeAt_canon {p : Port} {a v t : Nat} {s : State} (h : Canon s.mems) :
    Canon (State.writeAt p a v t s).mems := by simp [State.writeAt, h]

@[simp] theorem State.m7Row_canon {p : Port} {code : Nat} {es : List (Nat × Nat × Int × Int × Int)} {t : Nat} {s : State} (h : Canon s.mems) :
    Canon (State.m7Row p code es t s).mems := by simp [State.m7Row, h]

@[simp] theorem State.probeStart_canon {p : Port} {viaTask : Bool} {t : Nat} {s : State} (h : Canon s.mems) :
    Canon (State.probeStart p viaTask t s).mems := by simp [State.probeStart, h]

@[simp] theorem State.latchWrite_canon {p : Port} {ch : Nat} {viaBitmap : Bool} {t : Nat} {s : State} (h : Canon s.mems) :
    Canon (State.latchWrite p ch viaBitmap t s).mems := by simp [State.latchWrite, h]

@[simp] theorem State.bar2Get_canon {a len : Nat} {corr uncorr : List Nat} {wait t : Nat} {s : State} (h : Canon s.mems) :
    Canon (State.bar2Get a len corr uncorr wait t s).mems := by simp [State.bar2Get, h]

@[simp] theorem State.bar2Put_canon {a : Nat} {data : List Byte} {wait t : Nat} {s : State} (h : Canon s.mems) :
    Canon (State.bar2Put a data wait t s).mems := by simp [State.bar2Put, h]

@[simp] theorem State.stationWrite_canon {a d : Nat} {hit hw : Bool} {s : State} (h : Canon s.mems) :
    Canon (State.stationWrite a d hit hw s).mems := by simp [State.stationWrite, h, Mem.write_wf]

@[simp] theorem State.windowDone_canon {write : Bool} {t : Nat} {s : State} (h : Canon s.mems) :
    Canon (State.windowDone write t s).mems := by simp [State.windowDone, h]

end Sys2Proof.Machine

namespace Sys2Proof

open Machine

/-- The answer, if it is a next state, has its memories in canonical form. -/
def KeepsCanon (o : Host.Outcome State Fault Refusal) : Prop := ∀ u, o = .next u → Canon u.mems

theorem perform_canon {f : State → State} {s : State} (hf : ∀ u, Canon u.mems → Canon (f u).mems) (h : Canon s.mems) :
    KeepsCanon (State.perform f s) := fun u hu => by
  rw [State.perform, Host.Outcome.next.injEq] at hu
  split at hu
  · exact hu ▸ h
  · exact hu ▸ State.settle_canon (hf s h)

theorem performOn_canon {f : State → State} {s : State} (hf : ∀ u, Canon u.mems → Canon (f u).mems) (h : Canon s.mems) :
    KeepsCanon (State.performOn f s) := fun u hu => by
  rw [State.performOn, Host.Outcome.next.injEq] at hu
  split at hu
  · exact hu ▸ h
  · exact hu ▸ State.settle_canon (hf s h)

theorem stationAccess_canon {t : Nat} {f : State → State} {s : State} (hf : ∀ u, Canon u.mems → Canon (f u).mems) (h : Canon s.mems) :
    KeepsCanon (State.stationAccess t f s) := fun u hu => by
  rw [State.stationAccess] at hu
  split at hu
  · exact Host.Outcome.next.inj hu ▸ h
  split at hu
  · cases hu
  · exact Host.Outcome.next.inj hu ▸ State.settle_canon (hf _ (by simp [h]))

/-- Whatever a command answers has its memories in canonical form. -/
theorem exec_canon (c : Instr) {s : State} (h : Canon s.mems) : KeepsCanon (exec c s) := by
  cases c
  case registerWrite => rw [exec_registerWrite]; exact perform_canon (fun u hu => by simp [hu]) h
  case captureRead => rw [exec_captureRead]; exact perform_canon (fun u hu => by simp [hu]) h
  case glbModeWrite => rw [exec_glbModeWrite]; exact perform_canon (fun u hu => by simp [hu]) h
  case modeChange => rw [exec_modeChange]; exact performOn_canon (fun u hu => by simp [hu]) h
  case returnToMode => rw [exec_returnToMode]; exact performOn_canon (fun u hu => by simp [hu]) h
  case softReset => rw [exec_softReset]; exact perform_canon (fun u hu => by simp [hu]) h
  case modResetN => rw [exec_modResetN]; exact performOn_canon (fun u hu => by simp [hu]) h
  case pciePerstN => rw [exec_pciePerstN]; exact performOn_canon (fun u hu => by simp [hu]) h
  case warmReset => rw [exec_warmReset]; exact performOn_canon (fun u hu => by simp [hu]) h
  case functionLevelReset => rw [exec_functionLevelReset]; exact performOn_canon (fun u hu => by simp [hu]) h
  case d3hot => rw [exec_d3hot]; exact performOn_canon (fun u hu => by simp [hu]) h
  case thresholdCalibration => rw [exec_thresholdCalibration]; exact performOn_canon (fun u hu => by simp [hu]) h
  case probeCheckStart => rw [exec_probeCheckStart]; exact perform_canon (fun u hu => by simp [hu]) h
  case probeActivityWindowClose => rw [exec_probeActivityWindowClose]; exact performOn_canon (fun u hu => by simp [hu]) h
  case probeChannelMeasurement => rw [exec_probeChannelMeasurement]; exact performOn_canon (fun u hu => by simp [hu]) h
  case injectorCalibration => rw [exec_injectorCalibration]; exact performOn_canon (fun u hu => by simp [hu]) h
  case tdcCalibration => rw [exec_tdcCalibration]; exact performOn_canon (fun u hu => by simp [hu]) h
  case selfTest => rw [exec_selfTest]; exact performOn_canon (fun u hu => by simp [hu]) h
  case m7TaskClear => rw [exec_m7TaskClear]; exact perform_canon (fun u hu => by simp [hu]) h
  case m7TaskComplete => rw [exec_m7TaskComplete]; exact performOn_canon (fun u hu => by simp [hu]) h
  case channelEdge => rw [exec_channelEdge]; exact performOn_canon (fun u hu => by simp [hu]) h
  case latchClear => rw [exec_latchClear]; exact perform_canon (fun u hu => by simp [hu]) h
  case latchPeriodTick => rw [exec_latchPeriodTick]; exact performOn_canon (fun u hu => by simp [hu]) h
  case latchPeriodWrite => rw [exec_latchPeriodWrite]; exact perform_canon (fun u hu => by simp [hu]) h
  case latchPeriodSync => rw [exec_latchPeriodSync]; exact perform_canon (fun u hu => by simp [hu]) h
  case thresholdWrite => rw [exec_thresholdWrite]; exact perform_canon (fun u hu => by simp [hu]) h
  case resolution => rw [exec_resolution]; exact performOn_canon (fun u hu => by simp [hu]) h
  case thresholdReadback => rw [exec_thresholdReadback]; exact performOn_canon (fun u hu => by simp [hu]) h
  case overdrive => rw [exec_overdrive]; exact performOn_canon (fun u hu => by simp [hu]) h
  case overdriveEnd => rw [exec_overdriveEnd]; exact performOn_canon (fun u hu => by simp [hu]) h
  case epochLoadArm => rw [exec_epochLoadArm]; exact perform_canon (fun u hu => by simp [hu]) h
  case epochCancel => rw [exec_epochCancel]; exact perform_canon (fun u hu => by simp [hu]) h
  case epochLoad => rw [exec_epochLoad]; exact performOn_canon (fun u hu => by simp [hu]) h
  case ppsEdge => rw [exec_ppsEdge]; exact performOn_canon (fun u hu => by simp [hu]) h
  case ppsTimeout => rw [exec_ppsTimeout]; exact performOn_canon (fun u hu => by simp [hu]) h
  case refInValid => rw [exec_refInValid]; exact performOn_canon (fun u hu => by simp [hu]) h
  case refInInvalid => rw [exec_refInInvalid]; exact performOn_canon (fun u hu => by simp [hu]) h
  case refLockTimer => rw [exec_refLockTimer]; exact performOn_canon (fun u hu => by simp [hu]) h
  case tcompUpdate => rw [exec_tcompUpdate]; exact perform_canon (fun u hu => by simp [hu]) h
  case ppsOutPulse => rw [exec_ppsOutPulse]; exact performOn_canon (fun u hu => by simp [hu]) h
  case ppsOutPulseEnd => rw [exec_ppsOutPulseEnd]; exact performOn_canon (fun u hu => by simp [hu]) h
  case deskewTermWrite => rw [exec_deskewTermWrite]; exact perform_canon (fun u hu => by simp [hu]) h
  case deskewApply => rw [exec_deskewApply]; exact performOn_canon (fun u hu => by simp [hu]) h
  case gatherStart => rw [exec_gatherStart]; exact perform_canon (fun u hu => by simp [hu]) h
  case gatherAbort => rw [exec_gatherAbort]; exact perform_canon (fun u hu => by simp [hu]) h
  case gatherClose => rw [exec_gatherClose]; exact performOn_canon (fun u hu => by simp [hu]) h
  case sampleSourceWrite => rw [exec_sampleSourceWrite]; exact perform_canon (fun u hu => by simp [hu]) h
  case sampleSourceSwitch => rw [exec_sampleSourceSwitch]; exact performOn_canon (fun u hu => by simp [hu]) h
  case clkExtInvalid => rw [exec_clkExtInvalid]; exact performOn_canon (fun u hu => by simp [hu]) h
  case clkExtDrift => rw [exec_clkExtDrift]; exact performOn_canon (fun u hu => by simp [hu]) h
  case clkExtValid => rw [exec_clkExtValid]; exact performOn_canon (fun u hu => by simp [hu]) h
  case extClockReturn => rw [exec_extClockReturn]; exact performOn_canon (fun u hu => by simp [hu]) h
  case adpllEnable => rw [exec_adpllEnable]; exact perform_canon (fun u hu => by simp [hu]) h
  case search => rw [exec_search]; exact perform_canon (fun u hu => by simp [hu]) h
  case bandSearchDone => rw [exec_bandSearchDone]; exact performOn_canon (fun u hu => by simp [hu]) h
  case bandTableWrite => rw [exec_bandTableWrite]; exact perform_canon (fun u hu => by simp [hu]) h
  case btMiss => rw [exec_btMiss]; exact performOn_canon (fun u hu => by simp [hu]) h
  case adpllLocked => rw [exec_adpllLocked]; exact performOn_canon (fun u hu => by simp [hu]) h
  case qualifyComplete => rw [exec_qualifyComplete]; exact performOn_canon (fun u hu => by simp [hu]) h
  case dllLockAcquired => rw [exec_dllLockAcquired]; exact performOn_canon (fun u hu => by simp [hu]) h
  case adpllFailed => rw [exec_adpllFailed]; exact performOn_canon (fun u hu => by simp [hu]) h
  case clockFailureReset => rw [exec_clockFailureReset]; exact performOn_canon (fun u hu => by simp [hu]) h
  case hopRequest => rw [exec_hopRequest]; exact perform_canon (fun u hu => by simp [hu]) h
  case hopCancel => rw [exec_hopCancel]; exact perform_canon (fun u hu => by simp [hu]) h
  case hopForce => rw [exec_hopForce]; exact perform_canon (fun u hu => by simp [hu]) h
  case hopStart => rw [exec_hopStart]; exact performOn_canon (fun u hu => by simp [hu]) h
  case lockLoss => rw [exec_lockLoss]; exact performOn_canon (fun u hu => by simp [hu]) h
  case holdoverRecovered => rw [exec_holdoverRecovered]; exact performOn_canon (fun u hu => by simp [hu]) h
  case holdoverOutOfRange => rw [exec_holdoverOutOfRange]; exact performOn_canon (fun u hu => by simp [hu]) h
  case holdoverTimeout => rw [exec_holdoverTimeout]; exact performOn_canon (fun u hu => by simp [hu]) h
  case dllLockLoss => rw [exec_dllLockLoss]; exact performOn_canon (fun u hu => by simp [hu]) h
  case dllRelockTimeout => rw [exec_dllRelockTimeout]; exact performOn_canon (fun u hu => by simp [hu]) h
  case trellisBranchTaken => rw [exec_trellisBranchTaken]; exact performOn_canon (fun u hu => by simp [hu]) h
  case trigOutPulseEnd => rw [exec_trigOutPulseEnd]; exact performOn_canon (fun u hu => by simp [hu]) h
  case timerLimitReached => rw [exec_timerLimitReached]; exact performOn_canon (fun u hu => by simp [hu]) h
  case programCheck => rw [exec_programCheck]; exact perform_canon (fun u hu => by simp [hu]) h
  case arm => rw [exec_arm]; exact perform_canon (fun u hu => by simp [hu]) h
  case forceTrig => rw [exec_forceTrig]; exact perform_canon (fun u hu => by simp [hu]) h
  case prefillComplete => rw [exec_prefillComplete]; exact performOn_canon (fun u hu => by simp [hu]) h
  case prefillTimeLimit => rw [exec_prefillTimeLimit]; exact performOn_canon (fun u hu => by simp [hu]) h
  case postfillEnd => rw [exec_postfillEnd]; exact performOn_canon (fun u hu => by simp [hu]) h
  case segmentChain => rw [exec_segmentChain]; exact performOn_canon (fun u hu => by simp [hu]) h
  case stop => rw [exec_stop]; exact perform_canon (fun u hu => by simp [hu]) h
  case acqTimeout => rw [exec_acqTimeout]; exact performOn_canon (fun u hu => by simp [hu]) h
  case acqIdle => rw [exec_acqIdle]; exact performOn_canon (fun u hu => by simp [hu]) h
  case storageStall => rw [exec_storageStall]; exact performOn_canon (fun u hu => by simp [hu]) h
  case storageResume => rw [exec_storageResume]; exact performOn_canon (fun u hu => by simp [hu]) h
  case hedgeMissing => rw [exec_hedgeMissing]; exact performOn_canon (fun u hu => by simp [hu]) h
  case hedgeTailEnd => rw [exec_hedgeTailEnd]; exact performOn_canon (fun u hu => by simp [hu]) h
  case ruleCheck => rw [exec_ruleCheck]; exact perform_canon (fun u hu => by simp [hu]) h
  case reductionIntervalEnd => rw [exec_reductionIntervalEnd]; exact performOn_canon (fun u hu => by simp [hu]) h
  case reductionFlushTimeout => rw [exec_reductionFlushTimeout]; exact performOn_canon (fun u hu => by simp [hu]) h
  case flush => rw [exec_flush]; exact perform_canon (fun u hu => by simp [hu]) h
  case sieveBlockOffer => rw [exec_sieveBlockOffer]; exact performOn_canon (fun u hu => by simp [hu]) h
  case sieveReservation => rw [exec_sieveReservation]; exact performOn_canon (fun u hu => by simp [hu]) h
  case sievePassThrough => rw [exec_sievePassThrough]; exact performOn_canon (fun u hu => by simp [hu]) h
  case sieveBlockWrite => rw [exec_sieveBlockWrite]; exact performOn_canon (fun u hu => by simp [hu]) h
  case gateInputEdge => rw [exec_gateInputEdge]; exact performOn_canon (fun u hu => by simp [hu]) h
  case lossEpisodeEnd => rw [exec_lossEpisodeEnd]; exact performOn_canon (fun u hu => by simp [hu]) h
  case timedGateClose => rw [exec_timedGateClose]; exact performOn_canon (fun u hu => by simp [hu]) h
  case staleTimestampDiscard => rw [exec_staleTimestampDiscard]; exact performOn_canon (fun u hu => by simp [hu]) h
  case dmcInit => rw [exec_dmcInit]; exact perform_canon (fun u hu => by simp [hu]) h
  case dmcInitDone => rw [exec_dmcInitDone]; exact performOn_canon (fun u hu => by simp [hu]) h
  case dmcApply => rw [exec_dmcApply]; exact perform_canon (fun u hu => by simp [hu]) h
  case dmcRetire => rw [exec_dmcRetire]; exact perform_canon (fun u hu => by simp [hu]) h
  case retireThreshold => rw [exec_retireThreshold]; exact performOn_canon (fun u hu => by simp [hu]) h
  case migrationComplete => rw [exec_migrationComplete]; exact performOn_canon (fun u hu => by simp [hu]) h
  case rowSpare => rw [exec_rowSpare]; exact performOn_canon (fun u hu => by simp [hu]) h
  case refreshDue => rw [exec_refreshDue]; exact performOn_canon (fun u hu => by simp [hu]) h
  case owedRefreshIssue => rw [exec_owedRefreshIssue]; exact performOn_canon (fun u hu => by simp [hu]) h
  case stackTempReading => rw [exec_stackTempReading]; exact performOn_canon (fun u hu => by simp [hu]) h
  case rakeLease => rw [exec_rakeLease]; exact performOn_canon (fun u hu => by simp [hu]) h
  case rakeLeaseRelease => rw [exec_rakeLeaseRelease]; exact performOn_canon (fun u hu => by simp [hu]) h
  case rakePreempt => rw [exec_rakePreempt]; exact performOn_canon (fun u hu => by simp [hu]) h
  case nearClearDone => rw [exec_nearClearDone]; exact performOn_canon (fun u hu => by simp [hu]) h
  case deepClearDone => rw [exec_deepClearDone]; exact performOn_canon (fun u hu => by simp [hu]) h
  case bar2Read => rw [exec_bar2Read]; exact performOn_canon (fun u hu => by simp [hu]) h
  case bar2Write => rw [exec_bar2Write]; exact performOn_canon (fun u hu => by simp [hu]) h
  case laneDownshift => rw [exec_laneDownshift]; exact performOn_canon (fun u hu => by simp [hu]) h
  case descriptorTailWrite => rw [exec_descriptorTailWrite]; exact perform_canon (fun u hu => by simp [hu]) h
  case descriptorFetch => rw [exec_descriptorFetch]; exact performOn_canon (fun u hu => by simp [hu]) h
  case descriptorFetchError => rw [exec_descriptorFetchError]; exact performOn_canon (fun u hu => by simp [hu]) h
  case copyDescriptor => rw [exec_copyDescriptor]; exact performOn_canon (fun u hu => by simp [hu]) h
  case followBufferComplete => rw [exec_followBufferComplete]; exact performOn_canon (fun u hu => by simp [hu]) h
  case followFlushTimeout => rw [exec_followFlushTimeout]; exact performOn_canon (fun u hu => by simp [hu]) h
  case followOverrun => rw [exec_followOverrun]; exact performOn_canon (fun u hu => by simp [hu]) h
  case ringDisable => rw [exec_ringDisable]; exact perform_canon (fun u hu => by simp [hu]) h
  case cqHeadWrite => rw [exec_cqHeadWrite]; exact perform_canon (fun u hu => by simp [hu]) h
  case cqModerationTimeout => rw [exec_cqModerationTimeout]; exact performOn_canon (fun u hu => by simp [hu]) h
  case stationRead => rw [exec_stationRead]; exact stationAccess_canon (fun u hu => by simp [hu]) h
  case stationWrite => rw [exec_stationWrite]; exact stationAccess_canon (fun u hu => by simp [hu]) h
  case windowRead => rw [exec_windowRead]; exact performOn_canon (fun u hu => by simp [hu]) h
  case windowWrite => rw [exec_windowWrite]; exact performOn_canon (fun u hu => by simp [hu]) h
  case hostDoorbell => rw [exec_hostDoorbell]; exact perform_canon (fun u hu => by simp [hu]) h
  case stationDoorbell => rw [exec_stationDoorbell]; exact stationAccess_canon (fun u hu => by simp [hu]) h
  case trigFrame => rw [exec_trigFrame]; exact performOn_canon (fun u hu => by simp [hu]) h
  case syncFrame => rw [exec_syncFrame]; exact performOn_canon (fun u hu => by simp [hu]) h
  case syncSend => rw [exec_syncSend]; exact performOn_canon (fun u hu => by simp [hu]) h
  case frameDiscard => rw [exec_frameDiscard]; exact performOn_canon (fun u hu => by simp [hu]) h
  case portEnable => rw [exec_portEnable]; exact perform_canon (fun u hu => by simp [hu]) h
  case linkTimeout => rw [exec_linkTimeout]; exact performOn_canon (fun u hu => by simp [hu]) h
  case aonPowerUp => exact fun u hu => Host.Outcome.next.inj (exec_aonPowerUp _ _ s ▸ hu) ▸ State.aonUp_canon h
  case wakeFromOff => rw [exec_wakeFromOff]; exact perform_canon (fun u hu => by simp [hu]) h
  case imageCheck => rw [exec_imageCheck]; exact performOn_canon (fun u hu => by simp [hu]) h
  case loadTimeout => rw [exec_loadTimeout]; exact performOn_canon (fun u hu => by simp [hu]) h
  case write =>
    rw [exec_write]
    exact performOn_canon (fun u hu => State.scriptStep_canon (fun k v hv => by simp [hv]) (by simp [hu])) h
  case rmw =>
    rw [exec_rmw]
    exact performOn_canon (fun u hu => State.scriptStep_canon (fun k v hv => by simp [hv]) (by simp [hu])) h
  case poll => rw [exec_poll]; exact performOn_canon (fun u hu => by simp [hu]) h
  case pollConditionMet => rw [exec_pollConditionMet]; exact performOn_canon (fun u hu => by simp [hu]) h
  case pollTimeout => rw [exec_pollTimeout]; exact performOn_canon (fun u hu => by simp [hu]) h
  case wait => rw [exec_wait]; exact performOn_canon (fun u hu => by simp [hu]) h
  case waitExpiry => rw [exec_waitExpiry]; exact performOn_canon (fun u hu => by simp [hu]) h
  case branchVariant => rw [exec_branchVariant]; exact performOn_canon (fun u hu => by simp [hu]) h
  case branchStatus => rw [exec_branchStatus]; exact performOn_canon (fun u hu => by simp [hu]) h
  case callEvent =>
    rw [exec_callEvent]
    exact performOn_canon (fun u hu => State.scriptStep_canon (fun k v hv => by simp [hv]) (by simp [hu])) h
  case endScript => rw [exec_endScript]; exact performOn_canon (fun u hu => by simp [hu]) h
  case autoArm => rw [exec_autoArm]; exact performOn_canon (fun u hu => by simp [hu]) h
  case eventScriptStart => rw [exec_eventScriptStart]; exact performOn_canon (fun u hu => by simp [hu]) h
  case hksRun => rw [exec_hksRun]; exact perform_canon (fun u hu => by simp [hu]) h
  case watchdogFeed => rw [exec_watchdogFeed]; exact perform_canon (fun u hu => by simp [hu]) h
  case watchdogExpiry => rw [exec_watchdogExpiry]; exact performOn_canon (fun u hu => by simp [hu]) h
  case nvRead => rw [exec_nvRead]; exact perform_canon (fun u hu => by simp [hu]) h
  case nvProgram => rw [exec_nvProgram]; exact perform_canon (fun u hu => by simp [hu]) h
  case nvErase4K => rw [exec_nvErase4K]; exact perform_canon (fun u hu => by simp [hu]) h
  case nvErase64K => rw [exec_nvErase64K]; exact perform_canon (fun u hu => by simp [hu]) h
  case nvDone => rw [exec_nvDone]; exact performOn_canon (fun u hu => by simp [hu]) h
  case nvTimeout => rw [exec_nvTimeout]; exact performOn_canon (fun u hu => by simp [hu]) h
  case latchWake => rw [exec_latchWake]; exact performOn_canon (fun u hu => by simp [hu]) h
  case timerWake => rw [exec_timerWake]; exact performOn_canon (fun u hu => by simp [hu]) h
  case hostWake => rw [exec_hostWake]; exact performOn_canon (fun u hu => by simp [hu]) h
  case armOnWake => rw [exec_armOnWake]; exact performOn_canon (fun u hu => by simp [hu]) h
  case feedLeavesRange => rw [exec_feedLeavesRange]; exact perform_canon (fun u hu => by simp [hu]) h
  case feedSenseTest => rw [exec_feedSenseTest]; exact perform_canon (fun u hu => by simp [hu]) h
  case feedGood => rw [exec_feedGood]; exact perform_canon (fun u hu => by simp [hu]) h
  case revert => rw [exec_revert]; exact perform_canon (fun u hu => by simp [hu]) h
  case hostFeedSwitch => rw [exec_hostFeedSwitch]; exact perform_canon (fun u hu => by simp [hu]) h
  case rideThrough => rw [exec_rideThrough]; exact perform_canon (fun u hu => by simp [hu]) h
  case orderlyLossSequence => rw [exec_orderlyLossSequence]; exact performOn_canon (fun u hu => by simp [hu]) h
  case harvestCutoff => rw [exec_harvestCutoff]; exact performOn_canon (fun u hu => by simp [hu]) h
  case railsOff => rw [exec_railsOff]; exact performOn_canon (fun u hu => by simp [hu]) h
  case dumpEnd => rw [exec_dumpEnd]; exact perform_canon (fun u hu => by simp [hu]) h
  case phaseFailure => rw [exec_phaseFailure]; exact perform_canon (fun u hu => by simp [hu]) h
  case holdupTest => rw [exec_holdupTest]; exact perform_canon (fun u hu => by simp [hu]) h
  case outputFault => rw [exec_outputFault]; exact performOn_canon (fun u hu => by simp [hu]) h
  case outputFaultEnd => rw [exec_outputFaultEnd]; exact performOn_canon (fun u hu => by simp [hu]) h
  case thermalReading => rw [exec_thermalReading]; exact performOn_canon (fun u hu => by simp [hu]) h
  case thermalTrip => rw [exec_thermalTrip]; exact performOn_canon (fun u hu => by simp [hu]) h
  case thermalRestart => rw [exec_thermalRestart]; exact perform_canon (fun u hu => by simp [hu]) h
  case residueMismatch => rw [exec_residueMismatch]; exact performOn_canon (fun u hu => by simp [hu]) h
  case laneFail => rw [exec_laneFail]; exact performOn_canon (fun u hu => by simp [hu]) h
  case spareLaneMeasured => rw [exec_spareLaneMeasured]; exact performOn_canon (fun u hu => by simp [hu]) h
  case spareLaneSwap => rw [exec_spareLaneSwap]; exact performOn_canon (fun u hu => by simp [hu]) h
  case bbxFreeze => rw [exec_bbxFreeze]; exact perform_canon (fun u hu => by simp [hu]) h
  case bbxUnfreeze => rw [exec_bbxUnfreeze]; exact perform_canon (fun u hu => by simp [hu]) h
  case bbxClear => rw [exec_bbxClear]; exact perform_canon (fun u hu => by simp [hu]) h
  case bbxPrep => rw [exec_bbxPrep]; exact perform_canon (fun u hu => by simp [hu]) h
  case bbxRegionRead => rw [exec_bbxRegionRead]; exact performOn_canon (fun u hu => by simp [hu]) h
  case bbxPrepDone => rw [exec_bbxPrepDone]; exact performOn_canon (fun u hu => by simp [hu]) h
  case extest => rw [exec_extest]; exact performOn_canon (fun u hu => by simp [hu]) h
  case idcode => rw [exec_idcode]; exact performOn_canon (fun u hu => by simp [hu]) h
  case samplePreload => rw [exec_samplePreload]; exact performOn_canon (fun u hu => by simp [hu]) h
  case clamp => rw [exec_clamp]; exact performOn_canon (fun u hu => by simp [hu]) h
  case highz => rw [exec_highz]; exact performOn_canon (fun u hu => by simp [hu]) h
  case extestPulse => rw [exec_extestPulse]; exact performOn_canon (fun u hu => by simp [hu]) h
  case extestTrain => rw [exec_extestTrain]; exact performOn_canon (fun u hu => by simp [hu]) h
  case bypass => rw [exec_bypass]; exact performOn_canon (fun u hu => by simp [hu]) h
  case alwaysOnPowerLoss => rw [exec_alwaysOnPowerLoss]; exact perform_canon (fun u hu => by simp [hu]) h
  case feedQual => rw [exec_feedQual]; exact perform_canon (fun u hu => by simp [hu]) h
  case feedMargin => rw [exec_feedMargin]; exact perform_canon (fun u hu => by simp [hu]) h
  case returnToD0 => rw [exec_returnToD0]; exact performOn_canon (fun u hu => by simp [hu]) h
  case linkRetrain => rw [exec_linkRetrain]; exact performOn_canon (fun u hu => by simp [hu]) h
  case l1_2Entry => rw [exec_l1_2Entry]; exact performOn_canon (fun u hu => by simp [hu]) h
  case pcieLinkUp => rw [exec_pcieLinkUp]; exact performOn_canon (fun u hu => by simp [hu]) h

/-- MemInv is the canonical form of the four memories. -/
theorem memInv_iff (s : State) : MemInv s ↔ Canon s.mems := Iff.rfl

/-- Settles O4: a tick moves the time only, and every command keeps the canonical form (`exec_canon`). -/
theorem memInvStep : Obligations.MemInvStep := by
  unfold Obligations.MemInvStep
  intro s u h hu
  cases hq : s.pending with
  | nil =>
    rw [step_nil hq] at hu
    obtain ⟨b, e⟩ := s.tick_moves_tmb
    rw [memInv_iff] at h
    rwa [← Host.Outcome.next.inj hu, e, memInv_iff]
  | cons c r =>
    rw [step_cons hq] at hu
    exact (memInv_iff u).2 (exec_canon c (s := { s with pending := r }) ((memInv_iff s).1 h) u hu)

end Sys2Proof
end

