-- ==== Sys2Proof/Proofs/Answering.lean ====
section
/-! SUPPORT. What a command answers, from what its meaning makes of the state; and the rules by which claims about register fields, the
time, and all the rest pass over writes to fields and over updates of other parts of the state. -/

namespace Sys2Proof

open Machine

/-! ### What a command answers -/

theorem Answers.of_perform {c : Instr} {s : State} {P : State → Prop} {f : State → State} (hc : exec c s = State.perform f s)
    (hd : s.pwr.dead = false) (h : P (f s)) : Answers c s P :=
  ⟨f s, hc.trans (perform_next f s hd), fun _ => h⟩

theorem Answers.of_performAt {c : Instr} {s : State} {P : State → Prop} {t : Nat} {f : State → State}
    (hc : exec c s = State.performAt t f s) (hd : s.pwr.dead = false) (h : P (f s)) : Answers c s P := by
  refine ⟨f (s.reached t), hc.trans (perform_next _ s hd), fun hs => ?_⟩
  rwa [reached_free s t hs]

theorem Answers.of_performOn {c : Instr} {s : State} {P : State → Prop} {f : State → State} (hc : exec c s = State.performOn f s)
    (hp : Powered s) (h : P (f s)) : Answers c s P :=
  ⟨f s, hc.trans (performOn_next f s hp), fun _ => h⟩

/-- What a command answers may be weakened. -/
theorem Answers.imp {c : Instr} {s : State} {P Q : State → Prop} (h : Answers c s P) (hi : ∀ u, P u → Q u) : Answers c s Q := by
  obtain ⟨u, he, hu⟩ := h
  exact ⟨u, he, fun hs => hi u (hu hs)⟩

end Sys2Proof

namespace Sys2Proof.Machine

/-! ### Reading through updates -/

/-- The time passes: nothing else of the state. -/
theorem State.advance_moves (s : State) (t : Nat) : ∃ b, s.advance t = { s with tmb := b } ∧ b.kt = max s.tmb.kt t := by
  obtain ⟨b, h⟩ := s.advance_moves_tmb t
  exact ⟨b, h, by rw [← s.advance_kt t, h]⟩

/-- A register field reads the same whatever becomes of the rest of the state. -/
@[simp] theorem State.rd_mk (s : State) (f : Fld) (b c h fr g i t d ta cl tr ac hd re si ti dm ra hr st gr hk pw bb jt near deep scr nv po dp ce mt mp mi ir pe) :
    State.rd (State.mk b s.fields c h fr g i t d ta cl tr ac hd re si ti dm ra hr st gr hk pw bb jt near deep scr nv po dp ce mt mp mi ir pe) f
      = s.rd f := by rfl

theorem State.rd_bump_same (s : State) (f : Fld) : (s.bump f).rd f = (s.rd f + 1) % 2 ^ f.w := State.rd_wr_same s f _

/-- A field is stored below its width unless nothing was written to it yet. -/
theorem State.on_eq_true_iff (s : State) (f : Fld) : s.on f = true ↔ s.rd f = 1 := by simp [State.on]

@[simp] theorem State.on_advance (s : State) (t : Nat) (f : Fld) : (s.advance t).on f = s.on f := by simp [State.on]
@[simp] theorem State.rdS_advance (s : State) (t : Nat) (f : Fld) : (s.advance t).rdS f = s.rdS f := by simp [State.rdS]
@[simp] theorem State.mode_advance (s : State) (t : Nat) : (s.advance t).mode = s.mode := by simp [State.mode]
@[simp] theorem State.comp_advance (s : State) (t : Nat) : (s.advance t).comp = s.comp := by simp [State.comp]
@[simp] theorem State.acqSt_advance (s : State) (t : Nat) : (s.advance t).acqSt = s.acqSt := by simp [State.acqSt]
@[simp] theorem State.idle_advance (s : State) (t : Nat) : (s.advance t).idle = s.idle := by simp [State.idle]
@[simp] theorem State.armed_advance (s : State) (t : Nat) : (s.advance t).armed = s.armed := by simp [State.armed]
@[simp] theorem State.advance_lands (s : State) (t : Nat) : (s.advance t).lands = s.lands := State.lands_advance s t
@[simp] theorem State.coreRun_advance (s : State) (t : Nat) : (s.advance t).coreRun = s.coreRun := by simp [State.coreRun]
@[simp] theorem State.is512_advance (s : State) (t : Nat) : (s.advance t).is512 = s.is512 := by simp [State.is512]
@[simp] theorem State.isH2_advance (s : State) (t : Nat) : (s.advance t).isH2 = s.isH2 := by simp [State.isH2]
@[simp] theorem State.nChan_advance (s : State) (t : Nat) : (s.advance t).nChan = s.nChan := by simp [State.nChan]
@[simp] theorem State.nTiles_advance (s : State) (t : Nat) : (s.advance t).nTiles = s.nTiles := by simp [State.nTiles]
@[simp] theorem State.nPc_advance (s : State) (t : Nat) : (s.advance t).nPc = s.nPc := by simp [State.nPc, State.nStacks]
@[simp] theorem State.deepSize_advance (s : State) (t : Nat) : (s.advance t).deepSize = s.deepSize := by simp [State.deepSize, State.nStacks]
@[simp] theorem State.captured_advance (s : State) (t c : Nat) : (s.advance t).captured c = s.captured c := by simp [State.captured]
@[simp] theorem State.hostOn_advance (s : State) (t : Nat) : (s.advance t).hostOn = s.hostOn := by simp [State.hostOn]

end Sys2Proof.Machine

namespace Sys2Proof

open Machine

/-! ### Registers left alone -/

@[simp] theorem sameRegs_self (s : State) (l : List Fld) : SameRegs s s l := SameRegs.refl s l

/-- Writing a listed register changes no other. -/
@[simp] theorem sameRegs_wr {s u : State} {l : List Fld} {f : Fld} (v : Nat) (hf : f.key ∈ l.map Fld.key) :
    SameRegs s (u.wr f v) l ↔ SameRegs s u l :=
  ⟨fun h g hg => by rw [← h g hg, State.rd_wr_ne u f g v fun e => hg (e ▸ hf)], fun h => h.wr f v hf⟩

@[simp] theorem sameRegs_mk (s u : State) (l : List Fld) (b c h fr g i t d ta cl tr ac hd re si ti dm ra hr st gr hk pw bb jt near deep scr nv po dp ce mt mp mi ir pe) :
    SameRegs s (State.mk b u.fields c h fr g i t d ta cl tr ac hd re si ti dm ra hr st gr hk pw bb jt near deep scr nv po dp ce mt mp mi ir pe) l
      ↔ SameRegs s u l := Iff.rfl

@[simp] theorem sameRegs_advance (s u : State) (t : Nat) (l : List Fld) : SameRegs s (u.advance t) l ↔ SameRegs s u l := by
  simp [SameRegs]

@[simp] theorem advance_sameRegs (s u : State) (t : Nat) (l : List Fld) : SameRegs (s.advance t) u l ↔ SameRegs s u l := by
  simp [SameRegs]

/-! ### All the rest left alone -/

theorem sameRest_wr (s u : State) (f : Fld) (v : Nat) : SameRest s (u.wr f v) ↔ SameRest s u := Iff.rfl

/-- Registers, the time base, the messages sent and L1.2 are all that may differ. -/
@[simp] theorem sameRest_mk (s : State) (f t ir l) :
    SameRest s (State.mk s.build f s.caps s.held s.free s.grid s.inp t s.dsk s.task s.clk s.trl s.acq s.hdg s.red s.siv s.tim s.dmc s.rak
      (Hrv.mk s.hrv.rings s.hrv.cqs s.hrv.out s.hrv.written s.hrv.starts s.hrv.link l s.hrv.d3 s.hrv.bme s.hrv.cfg s.hrv.aerPoison
        s.hrv.cpl s.hrv.cplPoison s.hrv.memHeld)
      s.stp s.grf s.hks s.pwr s.bbx s.jtg s.near s.deep s.scr s.nv s.poison s.dpoison s.cells s.msxTab s.msxPba s.msix ir s.pending) := by
  rfl

@[simp] theorem sameRest_mk_hrv (s : State) (f t ir) :
    SameRest s (State.mk s.build f s.caps s.held s.free s.grid s.inp t s.dsk s.task s.clk s.trl s.acq s.hdg s.red s.siv s.tim s.dmc s.rak
      s.hrv s.stp s.grf s.hks s.pwr s.bbx s.jtg s.near s.deep s.scr s.nv s.poison s.dpoison s.cells s.msxTab s.msxPba s.msix ir s.pending) := by
  rfl

/-- It is a statement about each part of the state. -/
theorem sameRest_iff (s u : State) : SameRest s u ↔
    u.build = s.build ∧ u.caps = s.caps ∧ u.held = s.held ∧ u.free = s.free ∧ u.grid = s.grid ∧ u.inp = s.inp ∧ u.dsk = s.dsk
      ∧ u.task = s.task ∧ u.clk = s.clk ∧ u.trl = s.trl ∧ u.acq = s.acq ∧ u.hdg = s.hdg ∧ u.red = s.red ∧ u.siv = s.siv ∧ u.tim = s.tim
      ∧ u.dmc = s.dmc ∧ u.rak = s.rak ∧ { u.hrv with l12 := s.hrv.l12 } = s.hrv ∧ u.stp = s.stp ∧ u.grf = s.grf ∧ u.hks = s.hks
      ∧ u.pwr = s.pwr ∧ u.bbx = s.bbx ∧ u.jtg = s.jtg ∧ u.near = s.near ∧ u.deep = s.deep ∧ u.scr = s.scr ∧ u.nv = s.nv
      ∧ u.poison = s.poison ∧ u.dpoison = s.dpoison ∧ u.cells = s.cells ∧ u.msxTab = s.msxTab ∧ u.msxPba = s.msxPba
      ∧ u.msix = s.msix ∧ u.pending = s.pending := by
  cases s
  simp only [SameRest, State.mk.injEq, true_and]

/-- Time passing leaves all: the form in which a command with its time that does nothing answers. -/
theorem unchanged_advance (s : State) (t : Nat) : TimeAt s (s.advance t) t ∧ SameRegs s (s.advance t) [] ∧ SameRest s (s.advance t) :=
  ⟨TimeAt.advance s t, SameRegs.advance s t _, SameRest.advance s t⟩

end Sys2Proof
end

