-- ==== Sys2Proof/Proofs/CaptureApart.lean ====
section
/-! SUPPORT. What the capture engine (records, Trellis, Hedge, reductions, intervals, segments and stops) leaves as it is: all but its own
registers, the memories, and the hidden state of those units. One lemma for each of its operations. -/

namespace Sys2Proof.Machine

/-- The single registers of acquisition that the capture engine may write. -/
def acqFlds : List Fld := [
  ACQ_BLIND_CNT_count, ACQ_EARLY_CNT_count, ACQ_EVT_blind, ACQ_EVT_early, ACQ_EVT_gap, ACQ_EVT_seg_done, ACQ_EVT_trig,
  ACQ_EXTRA_CNT_count, ACQ_GAP_CNT_count, ACQ_LOST, ACQ_OVERWR_count, ACQ_SEG_DONE_count, ACQ_TRIG_CNT_count,
  ACQ_TRIG_HI_source, ACQ_TRIG_HI_sres, ACQ_TRIG_HI_valid, ACQ_TRIG_kt]

/-- What says that a segment goes on a chain. -/
def openFlds : List Fld := [ACQ_STAT_chained]

/-- The state of acquisition and the cause of its stop. -/
def statFlds : List Fld := [ACQ_STAT_state, ACQ_STAT_stop_cause]

/-- The single registers of Trellis that the capture engine may write. -/
def trlFlds : List Fld := [
  TRL_EVT_irq, TRL_EVT_trig, TRL_LAST_HI_branch, TRL_LAST_HI_level, TRL_LAST_HI_src, TRL_LAST_HI_sres, TRL_LAST_HI_valid, TRL_LAST_kt,
  TRL_STAT_level, TRL_STAT_qual, TRL_TRIG_CNT_count]

/-- The single registers of Hedge that the capture engine may write. -/
def hdgFlds : List Fld := [
  HDG_EVT_stop, HDG_EVT_viol, HDG_LAST_HI_channel, HDG_LAST_HI_kind, HDG_LAST_HI_rule, HDG_LAST_HI_sres, HDG_LAST_HI_valid,
  HDG_LAST_kt, HDG_VIOL_CNT_value]

/-- The single registers of the reductions, Sieve and the interval unit that the capture engine may write. -/
def unitFlds : List Fld := [
  RED_EVT_full, RED_EVT_loss, RED_STAT_full, RED_STAT_running, SIV_STAT_busy, SIV_STAT_running, SIV_WPTR_ptr, TIM_DISCARD_count,
  TIM_EVT_discard, TIM_EVT_ovf_full, TIM_EVT_qloss, TIM_OVF_USED_chunks, TIM_QLOST, TIM_QMAX_ch, TIM_QMAX_depth, TIM_RESTART_count,
  TIM_STAT_ovf_full, TIM_STAT_running]

/-- The single registers that storing and forwarding count in that the capture engine may write. -/
def storeFlds : List Fld := [
  BBX_HEAD_value, BBX_LOST_value, BBX_STAT_count, DMC_RDP_CNT_count, GRF_EVT_drop, GRF_TX_count, GRF_TX_seq, NMC_CE_CNT_count,
  NMC_ERR_ADDR_scratch, NMC_ERR_ADDR_tile, NMC_ERR_ADDR_ue, NMC_ERR_ADDR_valid, NMC_ERR_ADDR_word, NMC_EVT_ce, NMC_EVT_ue,
  NMC_UE_CNT_count]

/-- The single registers that storing a capture may write. -/
def captureFlds : List Fld := acqFlds ++ unitFlds ++ storeFlds

@[simp] theorem mem_acqFlds (f : Fld) : f ∈ acqFlds ↔
    f = ACQ_BLIND_CNT_count ∨ f = ACQ_EARLY_CNT_count ∨ f = ACQ_EVT_blind ∨ f = ACQ_EVT_early ∨ f = ACQ_EVT_gap ∨
    f = ACQ_EVT_seg_done ∨ f = ACQ_EVT_trig ∨ f = ACQ_EXTRA_CNT_count ∨ f = ACQ_GAP_CNT_count ∨ f = ACQ_LOST ∨ f = ACQ_OVERWR_count ∨
    f = ACQ_SEG_DONE_count ∨ f = ACQ_TRIG_CNT_count ∨
    f = ACQ_TRIG_HI_source ∨ f = ACQ_TRIG_HI_sres ∨ f = ACQ_TRIG_HI_valid ∨ f = ACQ_TRIG_kt := by
  simp only [acqFlds, List.mem_cons, List.not_mem_nil, or_false]

@[simp] theorem mem_openFlds (f : Fld) : f ∈ openFlds ↔ f = ACQ_STAT_chained := by
  simp only [openFlds, List.mem_cons, List.not_mem_nil, or_false]

@[simp] theorem mem_statFlds (f : Fld) : f ∈ statFlds ↔ f = ACQ_STAT_state ∨ f = ACQ_STAT_stop_cause := by
  simp only [statFlds, List.mem_cons, List.not_mem_nil, or_false]

@[simp] theorem mem_trlFlds (f : Fld) : f ∈ trlFlds ↔
    f = TRL_EVT_irq ∨ f = TRL_EVT_trig ∨ f = TRL_LAST_HI_branch ∨ f = TRL_LAST_HI_level ∨ f = TRL_LAST_HI_src ∨ f = TRL_LAST_HI_sres ∨
    f = TRL_LAST_HI_valid ∨ f = TRL_LAST_kt ∨ f = TRL_STAT_level ∨ f = TRL_STAT_qual ∨ f = TRL_TRIG_CNT_count := by
  simp only [trlFlds, List.mem_cons, List.not_mem_nil, or_false]

@[simp] theorem mem_hdgFlds (f : Fld) : f ∈ hdgFlds ↔
    f = HDG_EVT_stop ∨ f = HDG_EVT_viol ∨ f = HDG_LAST_HI_channel ∨ f = HDG_LAST_HI_kind ∨ f = HDG_LAST_HI_rule ∨
    f = HDG_LAST_HI_sres ∨ f = HDG_LAST_HI_valid ∨ f = HDG_LAST_kt ∨ f = HDG_VIOL_CNT_value := by
  simp only [hdgFlds, List.mem_cons, List.not_mem_nil, or_false]

@[simp] theorem mem_unitFlds (f : Fld) : f ∈ unitFlds ↔
    f = RED_EVT_full ∨ f = RED_EVT_loss ∨ f = RED_STAT_full ∨ f = RED_STAT_running ∨ f = SIV_STAT_busy ∨ f = SIV_STAT_running ∨
    f = SIV_WPTR_ptr ∨ f = TIM_DISCARD_count ∨ f = TIM_EVT_discard ∨ f = TIM_EVT_ovf_full ∨ f = TIM_EVT_qloss ∨
    f = TIM_OVF_USED_chunks ∨ f = TIM_QLOST ∨ f = TIM_QMAX_ch ∨ f = TIM_QMAX_depth ∨ f = TIM_RESTART_count ∨ f = TIM_STAT_ovf_full ∨
    f = TIM_STAT_running := by
  simp only [unitFlds, List.mem_cons, List.not_mem_nil, or_false]

@[simp] theorem mem_storeFlds (f : Fld) : f ∈ storeFlds ↔
    f = BBX_HEAD_value ∨ f = BBX_LOST_value ∨ f = BBX_STAT_count ∨ f = DMC_RDP_CNT_count ∨ f = GRF_EVT_drop ∨ f = GRF_TX_count ∨
    f = GRF_TX_seq ∨ f = NMC_CE_CNT_count ∨ f = NMC_ERR_ADDR_scratch ∨ f = NMC_ERR_ADDR_tile ∨ f = NMC_ERR_ADDR_ue ∨
    f = NMC_ERR_ADDR_valid ∨ f = NMC_ERR_ADDR_word ∨ f = NMC_EVT_ce ∨ f = NMC_EVT_ue ∨ f = NMC_UE_CNT_count := by
  simp only [storeFlds, List.mem_cons, List.not_mem_nil, or_false]

@[simp] theorem mem_captureFlds (f : Fld) : f ∈ captureFlds ↔ f ∈ acqFlds ∨ f ∈ unitFlds ∨ f ∈ storeFlds := by
  simp only [captureFlds, List.mem_append, or_assoc]

/-- The key of one of the single fields, or of one of an array of counters or pointers, whatever the index. -/
def keyIn (l : List Fld) (arrays : List (Nat → Fld)) (k : Nat) : Bool :=
  (l.map Fld.key).contains k || arrays.any fun g => decide ((g 0).key ≤ k) && (k - (g 0).key) % ((g 1).key - (g 0).key) = 0

/-- A field that storing a capture may write. -/
def captureKey : Nat → Bool := keyIn captureFlds [TIM_SLOTn_CNT_count, RED_RUn_LOST, RED_RUn_WPTR_ptr, GRF_GLn_ERR_drop, GRF_CABLE_DLY_value]

/-- One that opening a segment may write beside it. -/
def openKey : Nat → Bool := keyIn openFlds []

/-- One that a trigger or a stop may write beside those. -/
def statKey : Nat → Bool := keyIn statFlds []

/-- One that Trellis may write beside those. -/
def trlKey : Nat → Bool := keyIn trlFlds [TRL_CTn_VAL]

/-- One that Hedge may write beside all those. -/
def hdgKey : Nat → Bool := keyIn hdgFlds [HDG_MKn_CNT_value]

theorem keyIn_low {l : List Fld} {g : List (Nat → Fld)} {b k : Nat} (hl : ∀ f ∈ l, b ≤ f.key) (hg : ∀ f ∈ g, b ≤ (f 0).key) (h : k < b) :
    keyIn l g k = false := by
  rw [keyIn, Bool.or_eq_false_iff]
  refine ⟨?_, List.any_eq_false.2 fun f hf => ?_⟩
  · rw [Bool.eq_false_iff, ne_eq, List.contains_iff_mem]
    intro hm
    obtain ⟨f, hf, rfl⟩ := List.mem_map.1 hm
    exact absurd (hl f hf) (Nat.not_le.2 h)
  · have : ¬(f 0).key ≤ k := Nat.not_le.2 (Nat.lt_of_lt_of_le h (hg f hf))
    simp [this]

/-- The registers below those of Trellis are none of them. -/
theorem keys_low {k : Nat} (h : k < 0x280000) : captureKey k = false ∧ openKey k = false ∧ statKey k = false ∧ trlKey k = false ∧ hdgKey k = false :=
  ⟨keyIn_low (by decide) (by simp only [List.forall_mem_cons, List.not_mem_nil, false_imp_iff, implies_true, and_true]; decide) h,
    keyIn_low (by decide) (fun _ hf => absurd hf List.not_mem_nil) h, keyIn_low (by decide) (fun _ hf => absurd hf List.not_mem_nil) h,
    keyIn_low (by decide) (by simp only [List.forall_mem_cons, List.not_mem_nil, false_imp_iff, implies_true, and_true]; decide) h,
    keyIn_low (by decide) (by simp only [List.forall_mem_cons, List.not_mem_nil, false_imp_iff, implies_true, and_true]; decide) h⟩

/-- The register fields that storing a capture does not write. -/
def apartRegs (l : List (Nat × Nat)) : List (Nat × Nat) := l.filter fun p => !captureKey p.1

/-- What storing a capture leaves as it is. -/
structure Apart where
  build : Build
  regs : List (Nat × Nat)
  caps : List (Nat × List Nat)
  held : List Held
  grid : Grid
  inp : Inp
  tmb : Tmb
  dsk : Dsk
  task : Option Task
  clk : Clk
  trl : Trl
  hdg : Hdg
  dmc : Dmc
  rak : Rak
  hrv : Hrv
  stp : Stp
  hks : Hks
  pwr : Pwr
  jtg : Jtg
  scr : Mem
  nv : Mem
  cells : List (Nat × Nat × Nat)
  msxTab : List (Nat × Nat)
  msxPba : List Nat
  msix : List Nat
  irqSeen : List (Nat × Nat)
  pending : List Instr

/-- Of the inputs, all but the edges not yet seen and the probe check at arm. -/
def Inp.apart (i : Inp) : Inp := { i with hold := [], pchk := none }

/-- Of Harvest, all but what it has seen written. -/
def Hrv.apart (h : Hrv) : Hrv := { h with written := [], starts := [] }

/-- The part of the state that storing a capture leaves as it is. -/
def State.apart (s : State) : Apart :=
  ⟨s.build, apartRegs s.fields, s.caps, s.held, s.grid, s.inp.apart, s.tmb, s.dsk, s.task, s.clk, s.trl, s.hdg, s.dmc, s.rak, s.hrv.apart, s.stp, s.hks,
    s.pwr, s.jtg, s.scr, s.nv, s.cells, s.msxTab, s.msxPba, s.msix, s.irqSeen, s.pending⟩

/-- The register fields without those that opening a segment may write. -/
def openless (l : List (Nat × Nat)) : List (Nat × Nat) := l.filter fun p => !openKey p.1

/-- Without those that a trigger or a stop may write. -/
def statless (l : List (Nat × Nat)) : List (Nat × Nat) := l.filter fun p => !statKey p.1

/-- Without those that Trellis may write. -/
def trlless (l : List (Nat × Nat)) : List (Nat × Nat) := l.filter fun p => !trlKey p.1

/-- Without those that Hedge may write. -/
def hdgless (l : List (Nat × Nat)) : List (Nat × Nat) := l.filter fun p => !hdgKey p.1

/-- What opening a segment leaves of it. -/
def Apart.unopen (a : Apart) : Apart := { a with regs := openless a.regs }

/-- What a trigger and a stop leave of that. -/
def Apart.unstat (a : Apart) : Apart := { a with regs := statless a.regs }

/-- What Trellis leaves of that. -/
def Apart.untrl (a : Apart) : Apart := { a with regs := trlless a.regs, trl := Trl.new }

/-- What Hedge leaves of that. -/
def Apart.unhdg (a : Apart) : Apart := { a with regs := hdgless a.regs, hdg := Hdg.new }

/-! ### Reading what stands apart -/

theorem look_filter {α : Type} (p : Nat → Bool) (l : List (Nat × α)) {k : Nat} (h : p k = true) :
    look (l.filter fun q => p q.1) k = look l k := by
  induction l with
  | nil => rfl
  | cons a r ih =>
    by_cases hp : p a.1
    · simp [hp, look, ih]
    · have hne : a.1 ≠ k := fun e => hp (e ▸ h)
      simp [hp, look, ih, hne]

/-- A register reads by the entries that a filter keeps. -/
theorem rd_of_filter {s u : State} (p : Nat → Bool) {f : Fld} (hf : p f.key = true)
    (h : u.fields.filter (fun q => p q.1) = s.fields.filter fun q => p q.1) : u.rd f = s.rd f := by
  unfold State.rd
  rw [← look_filter p u.fields hf, ← look_filter p s.fields hf, h]

/-- A register that storing a capture does not write reads the same in states that agree on what stands apart. -/
theorem rd_of_apart {s u : State} (h : u.apart = s.apart) {f : Fld} (hf : captureKey f.key = false) : u.rd f = s.rd f :=
  rd_of_filter (fun k => !captureKey k) (by simp [hf]) (congrArg Apart.regs h)

/-- The same, of what opening a segment leaves. -/
theorem rd_of_unopen {s u : State} (h : u.apart.unopen = s.apart.unopen) {f : Fld} (hf : captureKey f.key = false) (ho : openKey f.key = false) :
    u.rd f = s.rd f := by
  refine rd_of_filter (fun k => !openKey k && !captureKey k) (by simp [hf, ho]) ?_
  have hr := congrArg Apart.regs h
  simpa only [Apart.unopen, State.apart, apartRegs, openless, List.filter_filter] using hr

/-- The same, of what a trigger or a stop leaves. -/
theorem rd_of_unstat {s u : State} (h : u.apart.unopen.unstat = s.apart.unopen.unstat) {f : Fld} (hf : captureKey f.key = false) (ho : openKey f.key = false) (hs : statKey f.key = false) :
    u.rd f = s.rd f := by
  refine rd_of_filter (fun k => !statKey k && (!openKey k && !captureKey k)) (by simp [hf, ho, hs]) ?_
  have hr := congrArg Apart.regs h
  simpa only [Apart.unstat, Apart.unopen, State.apart, apartRegs, openless, statless, trlless, hdgless, List.filter_filter] using hr

/-- The same, of what Trellis leaves. -/
theorem rd_of_untrl {s u : State} (h : u.apart.unopen.unstat.untrl = s.apart.unopen.unstat.untrl) {f : Fld} (hf : captureKey f.key = false)
    (ho : openKey f.key = false) (hs : statKey f.key = false) (ht : trlKey f.key = false) : u.rd f = s.rd f := by
  refine rd_of_filter (fun k => !trlKey k && (!statKey k && (!openKey k && !captureKey k))) (by simp [hf, ho, hs, ht]) ?_
  have hr := congrArg Apart.regs h
  simpa only [Apart.untrl, Apart.unstat, Apart.unopen, State.apart, apartRegs, openless, statless, trlless, hdgless, List.filter_filter] using hr

/-- The same, of what Hedge leaves. -/
theorem rd_of_unhdg {s u : State} (h : u.apart.unopen.unstat.untrl.unhdg = s.apart.unopen.unstat.untrl.unhdg) {f : Fld} (hf : captureKey f.key = false)
    (ho : openKey f.key = false) (hs : statKey f.key = false) (ht : trlKey f.key = false) (hh : hdgKey f.key = false) : u.rd f = s.rd f := by
  refine rd_of_filter (fun k => !hdgKey k && (!trlKey k && (!statKey k && (!openKey k && !captureKey k)))) (by simp [hf, ho, hs, ht, hh]) ?_
  have hr := congrArg Apart.regs h
  simpa only [Apart.unhdg, Apart.untrl, Apart.unstat, Apart.unopen, State.apart, apartRegs, openless, statless, trlless, hdgless, List.filter_filter] using hr

theorem rd_low_of_unhdg {s u : State} (h : u.apart.unopen.unstat.untrl.unhdg = s.apart.unopen.unstat.untrl.unhdg) {f : Fld} (hf : f.key < 0x280000) : u.rd f = s.rd f := by
  obtain ⟨h1, h2, h3, h4, h5⟩ := keys_low hf
  exact rd_of_unhdg h h1 h2 h3 h4 h5

/-! ### Writing the engine's own registers -/

theorem filter_ins {α : Type} (p : Nat → Bool) (l : List (Nat × α)) {k : Nat} (v : α) (h : p k = false) :
    (ins l k v).filter (fun q => p q.1) = l.filter fun q => p q.1 := by
  induction l with
  | nil => simp [ins, h]
  | cons a r ih =>
    unfold ins
    split
    · simp [h]
    split
    next he => simp [← he, h]
    next => simp [List.filter_cons, ih]

theorem filter_del {α : Type} (p : Nat → Bool) (l : List (Nat × α)) {k : Nat} (h : p k = false) :
    (del l k).filter (fun q => p q.1) = l.filter fun q => p q.1 := by
  rw [del, List.filter_filter]
  refine List.filter_congr fun q _ => ?_
  by_cases hq : q.1 = k
  · simp [hq, h]
  · simp [hq]

/-- A filter that drops a field does not see it written. -/
theorem filter_wr {s : State} {f : Fld} (v : Nat) (p : Nat → Bool) (h : p f.key = false) :
    (s.wr f v).fields.filter (fun q => p q.1) = s.fields.filter fun q => p q.1 := by
  unfold State.wr
  split
  · exact filter_del p _ h
  · exact filter_ins p _ _ h

theorem keyIn_of_mem {l : List Fld} {f : Fld} (g : List (Nat → Fld)) (h : f ∈ l) : keyIn l g f.key = true := by
  have : f.key ∈ l.map Fld.key := List.mem_map_of_mem h
  simp only [keyIn, Bool.or_eq_true, List.contains_iff_mem]
  exact .inl this

theorem wr_apart {s : State} {f : Fld} (v : Nat) (h : captureKey f.key = true) : (s.wr f v).apart = s.apart := by
  have hr : apartRegs (s.wr f v).fields = apartRegs s.fields := filter_wr v (fun k => !captureKey k) (by simp [h])
  rw [State.apart, hr]
  rfl

@[simp] theorem apartRegs_wr_mem {s : State} {f : Fld} (v : Nat) (h : f ∈ captureFlds) : apartRegs (s.wr f v).fields = apartRegs s.fields :=
  filter_wr v (fun k => !captureKey k) (by simp only [captureKey, keyIn_of_mem _ h, Bool.not_true])

theorem wr_unopen {s : State} {f : Fld} (v : Nat) (h : openKey f.key = true) : (s.wr f v).apart.unopen = s.apart.unopen := by
  have hr : openless (apartRegs (s.wr f v).fields) = openless (apartRegs s.fields) := by
    simp only [apartRegs, openless, List.filter_filter]
    exact filter_wr v (fun k => !openKey k && !captureKey k) (by simp [h])
  rw [State.apart, Apart.unopen, hr]
  rfl

theorem wr_unstat {s : State} {f : Fld} (v : Nat) (h : statKey f.key = true) : (s.wr f v).apart.unopen.unstat = s.apart.unopen.unstat := by
  have hr : statless (openless (apartRegs (s.wr f v).fields)) = statless (openless (apartRegs s.fields)) := by
    simp only [apartRegs, openless, statless, trlless, hdgless, List.filter_filter]
    exact filter_wr v (fun k => !statKey k && (!openKey k && !captureKey k)) (by simp [h])
  rw [State.apart, Apart.unopen, Apart.unstat, hr]
  rfl

theorem wr_untrl {s : State} {f : Fld} (v : Nat) (h : trlKey f.key = true) : (s.wr f v).apart.unopen.unstat.untrl = s.apart.unopen.unstat.untrl := by
  have hr : trlless (statless (openless (apartRegs (s.wr f v).fields))) = trlless (statless (openless (apartRegs s.fields))) := by
    simp only [apartRegs, openless, statless, trlless, hdgless, List.filter_filter]
    exact filter_wr v (fun k => !trlKey k && (!statKey k && (!openKey k && !captureKey k))) (by simp [h])
  rw [State.apart, Apart.unopen, Apart.unstat, Apart.untrl, hr]
  rfl

theorem wr_unhdg {s : State} {f : Fld} (v : Nat) (h : hdgKey f.key = true) :
    (s.wr f v).apart.unopen.unstat.untrl.unhdg = s.apart.unopen.unstat.untrl.unhdg := by
  have hr : hdgless (trlless (statless (openless (apartRegs (s.wr f v).fields)))) = hdgless (trlless (statless (openless (apartRegs s.fields)))) := by
    simp only [apartRegs, openless, statless, trlless, hdgless, List.filter_filter]
    exact filter_wr v (fun k => !hdgKey k && (!trlKey k && (!statKey k && (!openKey k && !captureKey k)))) (by simp [h])
  simp only [State.apart, Apart.unopen, Apart.unstat, Apart.untrl, Apart.unhdg, hr]
  rfl

@[simp] theorem State.wr_apart {s : State} {f : Fld} (v : Nat) (h : f ∈ captureFlds) : (s.wr f v).apart = s.apart :=
  Machine.wr_apart v (keyIn_of_mem _ h)
@[simp] theorem State.bump_apart {s : State} {f : Fld} (h : f ∈ captureFlds) : (s.bump f).apart = s.apart := State.wr_apart _ h
@[simp] theorem State.addF_apart {s : State} {f : Fld} (n : Nat) (h : f ∈ captureFlds) : (s.addF f n).apart = s.apart := State.wr_apart _ h
@[simp] theorem State.addSat_apart {s : State} {f : Fld} (n : Nat) (h : f ∈ captureFlds) : (s.addSat f n).apart = s.apart := State.wr_apart _ h
@[simp] theorem State.orF_apart {s : State} {f : Fld} (v : Nat) (h : f ∈ captureFlds) : (s.orF f v).apart = s.apart := State.wr_apart _ h
@[simp] theorem State.clrF_apart {s : State} {f : Fld} (v : Nat) (h : f ∈ captureFlds) : (s.clrF f v).apart = s.apart := State.wr_apart _ h

@[simp] theorem State.wr_unopen {s : State} {f : Fld} (v : Nat) (h : f ∈ openFlds) : (s.wr f v).apart.unopen = s.apart.unopen :=
  Machine.wr_unopen v (keyIn_of_mem _ h)
@[simp] theorem State.wr_unstat {s : State} {f : Fld} (v : Nat) (h : f ∈ statFlds) : (s.wr f v).apart.unopen.unstat = s.apart.unopen.unstat :=
  Machine.wr_unstat v (keyIn_of_mem _ h)
@[simp] theorem State.wr_untrl {s : State} {f : Fld} (v : Nat) (h : f ∈ trlFlds) : (s.wr f v).apart.unopen.unstat.untrl = s.apart.unopen.unstat.untrl :=
  Machine.wr_untrl v (keyIn_of_mem _ h)
@[simp] theorem State.addF_untrl {s : State} {f : Fld} (n : Nat) (h : f ∈ trlFlds) : (s.addF f n).apart.unopen.unstat.untrl = s.apart.unopen.unstat.untrl :=
  State.wr_untrl _ h
@[simp] theorem State.orF_untrl {s : State} {f : Fld} (v : Nat) (h : f ∈ trlFlds) : (s.orF f v).apart.unopen.unstat.untrl = s.apart.unopen.unstat.untrl :=
  State.wr_untrl _ h
@[simp] theorem State.wr_unhdg {s : State} {f : Fld} (v : Nat) (h : f ∈ hdgFlds) :
    (s.wr f v).apart.unopen.unstat.untrl.unhdg = s.apart.unopen.unstat.untrl.unhdg := Machine.wr_unhdg v (keyIn_of_mem _ h)
@[simp] theorem State.addSat_unhdg {s : State} {f : Fld} (n : Nat) (h : f ∈ hdgFlds) :
    (s.addSat f n).apart.unopen.unstat.untrl.unhdg = s.apart.unopen.unstat.untrl.unhdg := State.wr_unhdg _ h
@[simp] theorem State.orF_unhdg {s : State} {f : Fld} (v : Nat) (h : f ∈ hdgFlds) :
    (s.orF f v).apart.unopen.unstat.untrl.unhdg = s.apart.unopen.unstat.untrl.unhdg := State.wr_unhdg _ h

/-- The arrays of counters and pointers, at any index. -/
theorem keyIn_array {l : List Fld} {arrays : List (Nat → Fld)} {g : Nat → Fld} (hg : g ∈ arrays) (a d : Nat) (h : ∀ i, (g i).key = a + d * i) (n : Nat) :
    keyIn l arrays (g n).key = true := by
  rw [keyIn, Bool.or_eq_true]
  exact .inr (List.any_eq_true.2 ⟨g, hg, by simp [h]⟩)

@[simp] theorem State.wr_counter_untrl (s : State) (n v : Nat) : (s.wr (TRL_CTn_VAL n) v).apart.unopen.unstat.untrl = s.apart.unopen.unstat.untrl :=
  Machine.wr_untrl v (keyIn_array (by simp) 0x2A0040 256 (fun i => by simp only [Fld.key, TRL_CTn_VAL]; omega) n)
@[simp] theorem State.addSat_counter_untrl (s : State) (n v : Nat) : (s.addSat (TRL_CTn_VAL n) v).apart.unopen.unstat.untrl = s.apart.unopen.unstat.untrl :=
  s.wr_counter_untrl n _
@[simp] theorem State.addSat_rule_unhdg (s : State) (n v : Nat) :
    (s.addSat (HDG_MKn_CNT_value n) v).apart.unopen.unstat.untrl.unhdg = s.apart.unopen.unstat.untrl.unhdg :=
  Machine.wr_unhdg _ (keyIn_array (by simp) 0x388140 2048 (fun i => by simp only [Fld.key, HDG_MKn_CNT_value]; omega) n)
@[simp] theorem State.bump_slot_apart (s : State) (n : Nat) : (s.bump (TIM_SLOTn_CNT_count n)).apart = s.apart :=
  Machine.wr_apart _ (keyIn_array (by simp) 0x508080 256 (fun i => by simp only [Fld.key, TIM_SLOTn_CNT_count]; omega) n)
@[simp] theorem State.addSat_unit_apart (s : State) (n v : Nat) : (s.addSat (RED_RUn_LOST n) v).apart = s.apart :=
  Machine.wr_apart _ (keyIn_array (by simp) 0x408140 2048 (fun i => by simp only [Fld.key, RED_RUn_LOST]; omega) n)
@[simp] theorem State.wr_unit_apart (s : State) (n v : Nat) : (s.wr (RED_RUn_WPTR_ptr n) v).apart = s.apart :=
  Machine.wr_apart v (keyIn_array (by simp) (RED_RUn_WPTR_ptr 0).key 2048 (fun i => by simp only [Fld.key, RED_RUn_WPTR_ptr]; omega) n)
@[simp] theorem State.bump_drop_apart (s : State) (n : Nat) : (s.bump (GRF_GLn_ERR_drop n)).apart = s.apart :=
  Machine.wr_apart _ (keyIn_array (by simp) 0x8008C0 512 (fun i => by simp only [Fld.key, GRF_GLn_ERR_drop]; omega) n)
@[simp] theorem State.wr_cable_apart (s : State) (n v : Nat) : (s.wr (GRF_CABLE_DLY_value n) v).apart = s.apart :=
  Machine.wr_apart v (keyIn_array (by simp) 0x800840 512 (fun i => by simp only [Fld.key, GRF_CABLE_DLY_value]; omega) n)

/-! ### The rules for updates and folds -/

/-- What each step of a fold leaves, the fold leaves. -/
@[simp] theorem foldl_apart {α : Type} (g : State → α → State) (l : List α) (s : State) (h : ∀ u a, (g u a).apart = u.apart) :
    (l.foldl g s).apart = s.apart := by
  induction l generalizing s with
  | nil => rfl
  | cons a r ih => rw [List.foldl_cons, ih, h]

@[simp] theorem foldl_unopen {α : Type} (g : State → α → State) (l : List α) (s : State) (h : ∀ u a, (g u a).apart.unopen = u.apart.unopen) :
    (l.foldl g s).apart.unopen = s.apart.unopen := by
  induction l generalizing s with
  | nil => rfl
  | cons a r ih => rw [List.foldl_cons, ih, h]

@[simp] theorem foldl_unstat {α : Type} (g : State → α → State) (l : List α) (s : State) (h : ∀ u a, (g u a).apart.unopen.unstat = u.apart.unopen.unstat) :
    (l.foldl g s).apart.unopen.unstat = s.apart.unopen.unstat := by
  induction l generalizing s with
  | nil => rfl
  | cons a r ih => rw [List.foldl_cons, ih, h]

@[simp] theorem foldl_untrl {α : Type} (g : State → α → State) (l : List α) (s : State) (h : ∀ u a, (g u a).apart.unopen.unstat.untrl = u.apart.unopen.unstat.untrl) :
    (l.foldl g s).apart.unopen.unstat.untrl = s.apart.unopen.unstat.untrl := by
  induction l generalizing s with
  | nil => rfl
  | cons a r ih => rw [List.foldl_cons, ih, h]

@[simp] theorem foldl_unhdg {α : Type} (g : State → α → State) (l : List α) (s : State) (h : ∀ u a, (g u a).apart.unopen.unstat.untrl.unhdg = u.apart.unopen.unstat.untrl.unhdg) :
    (l.foldl g s).apart.unopen.unstat.untrl.unhdg = s.apart.unopen.unstat.untrl.unhdg := by
  induction l generalizing s with
  | nil => rfl
  | cons a r ih => rw [List.foldl_cons, ih, h]

@[simp] theorem State.apart_mk (b f c h fr g i t d ta cl tr ac hd re si ti dm ra hr st gr hk pw bb jt near deep scr nv po dp ce mt mp mi ir pe) :
    (State.mk b f c h fr g i t d ta cl tr ac hd re si ti dm ra hr st gr hk pw bb jt near deep scr nv po dp ce mt mp mi ir pe).apart
      = ⟨b, apartRegs f, c, h, g, i.apart, t, d, ta, cl, tr, hd, dm, ra, hr.apart, st, hk, pw, jt, scr, nv, ce, mt, mp, mi, ir, pe⟩ := by rfl
@[simp] theorem State.apart_ite (c : Prop) [Decidable c] (a b : State) : (if c then a else b).apart = if c then a.apart else b.apart :=
  apply_ite _ _ _ _
@[simp] theorem State.apart_eta (s : State) :
    Apart.mk s.build (apartRegs s.fields) s.caps s.held s.grid s.inp.apart s.tmb s.dsk s.task s.clk s.trl s.hdg s.dmc s.rak s.hrv.apart s.stp s.hks
      s.pwr s.jtg s.scr s.nv s.cells s.msxTab s.msxPba s.msix s.irqSeen s.pending = s.apart := by rfl
@[simp] theorem Inp.apart_mk (se pa pe ls th sw co pc tr ra ho re) :
    (Inp.mk se pa pe ls th sw co pc tr ra ho re).apart = Inp.mk se pa pe ls th sw co none tr ra [] re := by rfl
@[simp] theorem Inp.apart_eta (i : Inp) :
    Inp.mk i.settle i.perAll i.per i.lastSel i.thrAt i.swept i.convert none i.trim i.rate [] i.resAt = i.apart := by rfl
@[simp] theorem Hrv.apart_mk (ri cq ou wr st li l1 d3 bm cf ae cp cpp me) :
    (Hrv.mk ri cq ou wr st li l1 d3 bm cf ae cp cpp me).apart = Hrv.mk ri cq ou [] [] li l1 d3 bm cf ae cp cpp me := by rfl
@[simp] theorem Hrv.apart_eta (h : Hrv) :
    Hrv.mk h.rings h.cqs h.out [] [] h.link h.l12 h.d3 h.bme h.cfg h.aerPoison h.cpl h.cplPoison h.memHeld = h.apart := by rfl
@[simp] theorem State.draw_apart (s : State) (n : Nat) : (s.draw n).2.apart = s.apart := by rfl

/-! ### The rules for what a trigger, Trellis and Hedge leave -/

@[simp] theorem Apart.unopen_ite (c : Prop) [Decidable c] (a b : Apart) : (if c then a else b).unopen = if c then a.unopen else b.unopen :=
  apply_ite _ _ _ _
@[simp] theorem Apart.unstat_ite (c : Prop) [Decidable c] (a b : Apart) : (if c then a else b).unstat = if c then a.unstat else b.unstat :=
  apply_ite _ _ _ _
@[simp] theorem Apart.untrl_ite (c : Prop) [Decidable c] (a b : Apart) : (if c then a else b).untrl = if c then a.untrl else b.untrl :=
  apply_ite _ _ _ _
@[simp] theorem Apart.unhdg_ite (c : Prop) [Decidable c] (a b : Apart) : (if c then a else b).unhdg = if c then a.unhdg else b.unhdg :=
  apply_ite _ _ _ _
@[simp] theorem Apart.unopen_mk (b r c h g i t d ta cl tr hd dm ra hr st hk pw jt scr nv ce mt mp mi ir pe) :
    (Apart.mk b r c h g i t d ta cl tr hd dm ra hr st hk pw jt scr nv ce mt mp mi ir pe).unopen
      = ⟨b, openless r, c, h, g, i, t, d, ta, cl, tr, hd, dm, ra, hr, st, hk, pw, jt, scr, nv, ce, mt, mp, mi, ir, pe⟩ := by rfl
@[simp] theorem Apart.unstat_mk (b r c h g i t d ta cl tr hd dm ra hr st hk pw jt scr nv ce mt mp mi ir pe) :
    (Apart.mk b r c h g i t d ta cl tr hd dm ra hr st hk pw jt scr nv ce mt mp mi ir pe).unstat
      = ⟨b, statless r, c, h, g, i, t, d, ta, cl, tr, hd, dm, ra, hr, st, hk, pw, jt, scr, nv, ce, mt, mp, mi, ir, pe⟩ := by rfl
@[simp] theorem Apart.untrl_mk (b r c h g i t d ta cl tr hd dm ra hr st hk pw jt scr nv ce mt mp mi ir pe) :
    (Apart.mk b r c h g i t d ta cl tr hd dm ra hr st hk pw jt scr nv ce mt mp mi ir pe).untrl
      = ⟨b, trlless r, c, h, g, i, t, d, ta, cl, Trl.new, hd, dm, ra, hr, st, hk, pw, jt, scr, nv, ce, mt, mp, mi, ir, pe⟩ := by rfl
@[simp] theorem Apart.unhdg_mk (b r c h g i t d ta cl tr hd dm ra hr st hk pw jt scr nv ce mt mp mi ir pe) :
    (Apart.mk b r c h g i t d ta cl tr hd dm ra hr st hk pw jt scr nv ce mt mp mi ir pe).unhdg
      = ⟨b, hdgless r, c, h, g, i, t, d, ta, cl, tr, Hdg.new, dm, ra, hr, st, hk, pw, jt, scr, nv, ce, mt, mp, mi, ir, pe⟩ := by rfl
@[simp] theorem openless_wr {s : State} {f : Fld} (v : Nat) (h : f ∈ openFlds) :
    openless (apartRegs (s.wr f v).fields) = openless (apartRegs s.fields) :=
  congrArg Apart.regs (State.wr_unopen v h)
@[simp] theorem statless_wr {s : State} {f : Fld} (v : Nat) (h : f ∈ statFlds) :
    statless (openless (apartRegs (s.wr f v).fields)) = statless (openless (apartRegs s.fields)) :=
  congrArg Apart.regs (State.wr_unstat v h)
@[simp] theorem trlless_wr {s : State} {f : Fld} (v : Nat) (h : f ∈ trlFlds) :
    trlless (statless (openless (apartRegs (s.wr f v).fields))) = trlless (statless (openless (apartRegs s.fields))) := congrArg Apart.regs (State.wr_untrl v h)
@[simp] theorem Apart.unopen_eta (s : State) :
    Apart.mk s.build (openless (apartRegs s.fields)) s.caps s.held s.grid s.inp.apart s.tmb s.dsk s.task s.clk s.trl s.hdg s.dmc s.rak s.hrv.apart s.stp s.hks s.pwr s.jtg s.scr s.nv s.cells s.msxTab s.msxPba s.msix s.irqSeen s.pending = s.apart.unopen := by rfl
@[simp] theorem Apart.unstat_eta (s : State) :
    Apart.mk s.build (statless (openless (apartRegs s.fields))) s.caps s.held s.grid s.inp.apart s.tmb s.dsk s.task s.clk s.trl s.hdg s.dmc s.rak s.hrv.apart s.stp s.hks s.pwr s.jtg s.scr s.nv s.cells s.msxTab s.msxPba s.msix s.irqSeen s.pending = s.apart.unopen.unstat := by rfl
@[simp] theorem Apart.untrl_eta (s : State) :
    Apart.mk s.build (trlless (statless (openless (apartRegs s.fields)))) s.caps s.held s.grid s.inp.apart s.tmb s.dsk s.task s.clk Trl.new s.hdg s.dmc s.rak s.hrv.apart s.stp s.hks s.pwr s.jtg s.scr s.nv s.cells s.msxTab s.msxPba s.msix s.irqSeen s.pending = s.apart.unopen.unstat.untrl := by rfl
@[simp] theorem Apart.unhdg_eta (s : State) :
    Apart.mk s.build (hdgless (trlless (statless (openless (apartRegs s.fields))))) s.caps s.held s.grid s.inp.apart s.tmb s.dsk s.task s.clk Trl.new Hdg.new s.dmc s.rak s.hrv.apart s.stp s.hks s.pwr s.jtg s.scr s.nv s.cells s.msxTab s.msxPba s.msix s.irqSeen s.pending = s.apart.unopen.unstat.untrl.unhdg := by rfl

/-! ### The operations -/

@[simp] theorem State.activates_apart (n : Nat) (s : State) : (State.activates n s).apart = s.apart := by simp [State.activates]

/-- Time passing leaves all of it but the time. -/
theorem State.advance_apart (s : State) (t : Nat) : (State.advance s t).apart = { s.apart with tmb := (State.advance s t).tmb } := by
  unfold State.advance
  split <;> rfl

/-- What stands at the time `t` already does not pass it again. -/
theorem State.unhdg_of_advanced {s v : State} {t : Nat} (h : s.apart.unopen.unstat.untrl.unhdg = (State.advance v t).apart.unopen.unstat.untrl.unhdg) :
    (State.advance s t).apart.unopen.unstat.untrl.unhdg = (State.advance v t).apart.unopen.unstat.untrl.unhdg := by
  have hk : s.tmb.kt = max v.tmb.kt t := (congrArg (fun a => a.tmb.kt) h).trans (v.advance_kt t)
  rw [s.advance_past t (by omega), h]

@[simp] theorem State.bbox_apart (s : State) (code src detail : Nat) : (State.bbox s code src detail).apart = s.apart := by simp [State.bbox]

@[simp] theorem State.nearCorrected_apart (s : State) : (State.nearCorrected s).apart = s.apart := by simp [State.nearCorrected]

@[simp] theorem State.nearUncorr_apart (s : State) (a : Nat) : (State.nearUncorr s a).apart = s.apart := by simp [State.nearUncorr]

@[simp] theorem State.scrUncorr_apart (s : State) (a : Nat) : (State.scrUncorr s a).apart = s.apart := by simp [State.scrUncorr]

@[simp] theorem State.cellRead_apart (s : State) (target a n : Nat) : (State.cellRead s target a n).apart = s.apart := by simp [State.cellRead]

@[simp] theorem State.ringPut_apart (k t0 n start hi : Nat) (s : State) : (State.ringPut k t0 n start hi s).apart = s.apart := by simp [State.ringPut]

@[simp] theorem State.ownerWrites_apart (k : Nat) (s : State) (o : Owner) : (State.ownerWrites k s o).apart = s.apart := by
  unfold State.ownerWrites
  split <;> simp

@[simp] theorem State.nearSync_apart (s : State) : (State.nearSync s).apart = s.apart := by simp [State.nearSync]

@[simp] theorem State.ringMeet_apart (s : State) (f a b : Nat) : (State.ringMeet s f a b).apart = s.apart := by simp [State.ringMeet]

@[simp] theorem State.deepPut_apart (s : State) (a : Nat) (bs : List Byte) : (State.deepPut s a bs).apart = s.apart := by simp [State.deepPut]

@[simp] theorem State.deepPutZ_apart (s : State) (a : Nat) (bs : List Byte) (z : Nat) : (State.deepPutZ s a bs z).apart = s.apart := by simp [State.deepPutZ]

@[simp] theorem State.deepPad_apart (s : State) (a seq n : Nat) : (State.deepPad s a seq n).apart = s.apart := by simp [State.deepPad]

@[simp] theorem State.capWrite_apart (s : State) (w : CapW) : (State.capWrite s w).apart = s.apart := by simp [State.capWrite]

@[simp] theorem State.wrote_apart (s : State) (src size n : Nat) : (State.wrote s src size n).apart = s.apart := by rfl

@[simp] theorem State.capStore_apart (s : State) (w : CapW) : (State.capStore s w).apart = s.apart := by simp [State.capStore]

@[simp] theorem State.capNext_apart (s : State) (g : Seg) (bs : List Byte) (z n : Nat) (bad : List Nat) : (State.capNext s g bs z n bad).apart = s.apart := by simp [State.capNext]

@[simp] theorem State.capRaw_apart (s : State) (g : Seg) (r : Rec) (bad : List Nat) : (State.capRaw s g r bad).apart = s.apart := by simp [State.capRaw]

@[simp] theorem State.capFill_apart (s : State) (g : Seg) : (State.capFill s g).apart = s.apart := by simp [State.capFill]

@[simp] theorem State.capPad_apart (s : State) (n : Nat) : (State.capPad s n).apart = s.apart := by
  unfold State.capPad
  split <;> simp

@[simp] theorem State.capPutP_apart (s : State) (r : Rec) (bad : List Nat) : (State.capPutP s r bad).apart = s.apart := by
  simp only [State.capPutP]
  (repeat' split) <;> simp

@[simp] theorem State.capPut_apart (s : State) (r : Rec) : (State.capPut s r).apart = s.apart := by simp [State.capPut]

@[simp] theorem State.capBridge_apart (n fuel : Nat) (u : State) : (State.capBridge n fuel u).apart = u.apart := by
  induction fuel generalizing u with
  | zero => rfl
  | succ k ih =>
    simp only [State.capBridge]
    (repeat' split) <;> simp [ih]

@[simp] theorem State.drainedRecs_apart (s : State) (r : Rec) : (State.drainedRecs s r).1.apart = s.apart := by simp [State.drainedRecs]

@[simp] theorem State.drained_apart (s : State) (r : Rec) : (State.drained s r).1.apart = s.apart := by
  unfold State.drained
  (repeat' split) <;> simp

@[simp] theorem State.capBlock_apart (s : State) (r : Rec) : (State.capBlock s r).apart = s.apart := by simp [State.capBlock]

@[simp] theorem State.lead_apart (s : State) (r : Rec) : (State.lead s r).apart = s.apart := by simp [State.lead]

@[simp] theorem State.event_apart (s : State) (r : Rec) : (State.event s r).apart = s.apart := by
  unfold State.event
  split <;> simp

@[simp] theorem State.mark_apart (s : State) (kt kind code ch x y n detail : Nat) (coarse : Bool) : (State.mark s kt kind code ch x y n detail coarse).apart = s.apart := by simp [State.mark]

@[simp] theorem State.markTrellis_apart (s : State) (kt code ch level branch : Nat) (coarse : Bool) : (State.markTrellis s kt code ch level branch coarse).apart = s.apart := by
  unfold State.markTrellis
  split <;> simp

@[simp] theorem State.addUnit_apart (s : State) (u : RUnit) : (State.addUnit s u).apart = s.apart := by simp [State.addUnit]

@[simp] theorem State.setRu_apart (s : State) (n : Nat) (r : Ru) : (State.setRu s n r).apart = s.apart := by rfl

@[simp] theorem State.redShut_apart (s : State) (n : Nat) : (State.redShut s n).apart = s.apart := by simp [State.redShut]

@[simp] theorem State.redLose_apart (s : State) (n k : Nat) : (State.redLose s n k).apart = s.apart := by simp [State.redLose]

@[simp] theorem State.redPad_apart (s : State) (n k : Nat) : (State.redPad s n k).apart = s.apart := by simp [State.redPad]

@[simp] theorem State.trailerRu_apart (s : State) (n seg : Nat) : (State.trailerRu s n seg).apart = s.apart := by
  unfold State.trailerRu
  split <;> simp

@[simp] theorem State.redPut_apart (s0 : State) (n k : Nat) (r : Rec) : (State.redPut s0 n k r).apart = s0.apart := by simp [State.redPut]

@[simp] theorem State.redClose_apart (s : State) (n : Nat) : (State.redClose s n).apart = s.apart := by simp [State.redClose]

@[simp] theorem State.redEntry_apart (s : State) (n t w pos : Nat) (sres part unres : Bool) (payload : List Byte) : (State.redEntry s n t w pos sres part unres payload).apart = s.apart := by simp [State.redEntry]

@[simp] theorem State.redSample_apart (n : Nat) (s : State) (p : Nat) : (State.redSample n s p).apart = s.apart := by simp [State.redSample]

@[simp] theorem State.redBus_apart (s : State) (n c k : Nat) : (State.redBus s n c k).apart = s.apart := by simp [State.redBus]

@[simp] theorem State.redStable_apart (n k : Nat) (change : Bool) (s : State) (q : Nat) : (State.redStable n k change s q).apart = s.apart := by
  unfold State.redStable
  split <;> simp

@[simp] theorem State.redIvlEnd_apart (s : State) (n b : Nat) (part : Bool) : (State.redIvlEnd s n b part).apart = s.apart := by simp [State.redIvlEnd]

@[simp] theorem State.redIvls_apart (n p fuel : Nat) (u : State) : (State.redIvls n p fuel u).apart = u.apart := by
  induction fuel generalizing u with
  | zero => rfl
  | succ k ih =>
    simp only [State.redIvls]
    (repeat' split) <;> simp [ih]

@[simp] theorem State.redUpTo_apart (s : State) (n p : Nat) : (State.redUpTo s n p).apart = s.apart := by
  unfold State.redUpTo
  split <;> simp

@[simp] theorem State.redPulse_apart (s : State) (n ch t : Nat) (up : Bool) : (State.redPulse s n ch t up).apart = s.apart := by
  unfold State.redPulse
  split <;> simp

@[simp] theorem State.redEdge1_apart (s : State) (n ch t p : Nat) (up sres : Bool) : (State.redEdge1 s n ch t p up sres).apart = s.apart := by
  unfold State.redEdge1
  split <;> simp

@[simp] theorem State.redEdge_apart (s : State) (e : HeldE) : (State.redEdge s e).apart = s.apart := by simp [State.redEdge]

@[simp] theorem State.redStart1_apart (p : Nat) (s : State) (n : Nat) : (State.redStart1 p s n).apart = s.apart := by simp [State.redStart1]

@[simp] theorem State.redStart_apart (s : State) (p : Nat) : (State.redStart s p).apart = s.apart := by simp [State.redStart]

@[simp] theorem State.redStop1_apart (s : State) (n p : Nat) : (State.redStop1 s n p).apart = s.apart := by simp [State.redStop1]

@[simp] theorem State.redStop_apart (s : State) (p : Nat) : (State.redStop s p).apart = s.apart := by simp [State.redStop]

@[simp] theorem State.setSlot_apart (s : State) (n : Nat) (x : Slot) : (State.setSlot s n x).apart = s.apart := by rfl

@[simp] theorem State.timDiscard_apart (s : State) (n : Nat) : (State.timDiscard s n).apart = s.apart := by simp [State.timDiscard]

@[simp] theorem State.recPace_apart (s : State) (n t : Nat) (u : RUnit) (ends : List (Nat × Stamp)) : (State.recPace s n t u ends).apart = s.apart := by rfl

@[simp] theorem State.timRecord_apart (s : State) (n t t0 cnt : Nat) (value : Int) (s0 sres sus : Bool) (ends : List (Nat × Stamp)) : (State.timRecord s n t t0 cnt value s0 sres sus ends).apart = s.apart := by simp [State.timRecord]

@[simp] theorem State.timWrite_apart (due : Nat × RUnit → Bool) (s : State) : (State.timWrite due s).apart = s.apart := by simp [State.timWrite]

@[simp] theorem State.timMeasure_apart (s : State) (n : Nat) (a b : Stamp) : (State.timMeasure s n a b).apart = s.apart := by simp [State.timMeasure]

@[simp] theorem State.signedPair_apart (n fuel : Nat) (u : State) : (State.signedPair n fuel u).apart = u.apart := by
  induction fuel generalizing u with
  | zero => rfl
  | succ k ih =>
    simp only [State.signedPair]
    (repeat' split) <;> simp [ih]

@[simp] theorem State.fwdStart_apart (s : State) (n : Nat) (e : Stamp) : (State.fwdStart s n e).apart = s.apart := by simp [State.fwdStart]

@[simp] theorem State.fwdStop_apart (s : State) (n : Nat) (e : Stamp) : (State.fwdStop s n e).apart = s.apart := by
  simp only [State.fwdStop]
  (repeat' split) <;> simp

@[simp] theorem State.spanMeasure_apart (s : State) (n : Nat) (a e : Stamp) : (State.spanMeasure s n a e).apart = s.apart := by simp [State.spanMeasure]

@[simp] theorem State.periodEdge_apart (s : State) (n : Nat) (e : Stamp) : (State.periodEdge s n e).apart = s.apart := by
  simp only [State.periodEdge]
  (repeat' split) <;> simp

@[simp] theorem State.widthEdge_apart (s : State) (n : Nat) (e : Stamp) : (State.widthEdge s n e).apart = s.apart := by
  simp only [State.widthEdge]
  (repeat' split) <;> simp

@[simp] theorem State.gateClose_apart (s : State) (n t : Nat) (next : Option Nat) : (State.gateClose s n t next).apart = s.apart := by
  simp only [State.gateClose]
  (repeat' split) <;> simp

@[simp] theorem State.timedClose_apart (n t fuel : Nat) (u : State) : (State.timedClose n t fuel u).apart = u.apart := by
  induction fuel generalizing u with
  | zero => rfl
  | succ k ih =>
    simp only [State.timedClose]
    (repeat' split) <;> simp [ih]

@[simp] theorem State.gateEdgeIn_apart (s : State) (n : Nat) (e : Stamp) : (State.gateEdgeIn s n e).apart = s.apart := by
  simp only [State.gateEdgeIn]
  (repeat' split) <;> simp

@[simp] theorem State.slotEdge_apart (n : Nat) (s : State) (ce : Nat × Stamp) : (State.slotEdge n s ce).apart = s.apart := by
  unfold State.slotEdge
  (repeat' split) <;> simp

@[simp] theorem State.qSync_apart (s : State) : (State.qSync s).apart = s.apart := by simp [State.qSync]

@[simp] theorem State.qMove_apart (s : State) (c : Nat) : (State.qMove s c).apart = s.apart := by
  unfold State.qMove
  split <;> simp

@[simp] theorem State.slotDrop_apart (t : Nat) (s : State) (n : Nat) : (State.slotDrop t s n).apart = s.apart := by simp [State.slotDrop]

@[simp] theorem State.timDrop_apart (t : Nat) (s : State) : (State.timDrop t s).apart = s.apart := by simp [State.timDrop]

@[simp] theorem State.lossGap_apart (s : State) (key b : Nat) (l : Loss) : (State.lossGap s key b l).apart = s.apart := by simp [State.lossGap]

@[simp] theorem State.lossOver_apart (t : Nat) (s : State) (key : Nat) : (State.lossOver t s key).apart = s.apart := by
  unfold State.lossOver
  split <;> simp

@[simp] theorem State.lossNext_apart (s : State) (key t : Nat) : (State.lossNext s key t).apart = s.apart := by
  simp only [State.lossNext]
  (repeat' split) <;> simp

@[simp] theorem State.lossStop_apart (t : Nat) (s : State) : (State.lossStop t s).apart = s.apart := by simp [State.lossStop]

@[simp] theorem State.timLose_apart (s : State) (key : Nat) (e : Stamp) : (State.timLose s key e).apart = s.apart := by
  simp only [State.timLose]
  (repeat' split) <;> simp

@[simp] theorem State.timNote_apart (s : State) (key t : Nat) : (State.timNote s key t).apart = s.apart := by simp [State.timNote]

@[simp] theorem State.queuePut_apart (s : State) (c : Nat) (e : Stamp) : (State.queuePut s c e).apart = s.apart := by simp [State.queuePut]

@[simp] theorem State.qMax_apart (s : State) (c d : Nat) : (State.qMax s c d).apart = s.apart := by simp [State.qMax]

@[simp] theorem State.timQueue_apart (s : State) (c : Nat) (e : Stamp) : (State.timQueue s c e).1.apart = s.apart := by
  simp only [State.timQueue]
  (repeat' split) <;> simp

@[simp] theorem foldl_timQueue_apart (l : List (Nat × Stamp)) (p : State × List (Nat × Stamp)) :
    (l.foldl (fun (p : State × List (Nat × Stamp)) ce =>
      ((p.1.timQueue ce.1 ce.2).1, if (p.1.timQueue ce.1 ce.2).2 then p.2 ++ [ce] else p.2)) p).1.apart = p.1.apart := by
  induction l generalizing p with
  | nil => rfl
  | cons a r ih => rw [List.foldl_cons, ih, State.timQueue_apart]

@[simp] theorem State.timEdges_apart (s : State) (l : List (Nat × Stamp)) : (State.timEdges s l).apart = s.apart := by
  unfold State.timEdges
  split
  · rfl
  · refine (foldl_apart _ _ _ fun _ _ => State.qMove_apart _ _).trans ?_
    rw [State.qSync_apart, foldl_apart _ _ _ fun u n => ?_]
    · exact foldl_timQueue_apart l (s, [])
    · simp

@[simp] theorem State.timStop_apart (s : State) : (State.timStop s).apart = s.apart := by simp [State.timStop]

@[simp] theorem State.gateInput_apart (s : State) (g : Nat) (e : Stamp) : (State.gateInput s g e).apart = s.apart := by simp [State.gateInput]

@[simp] theorem State.timAt_apart (s : State) (t : Nat) (es : List HeldE) : (State.timAt s t es).apart = s.apart := by simp [State.timAt]

@[simp] theorem State.timTo_apart (t fuel : Nat) (u : State) : (State.timTo t fuel u).apart = u.apart := by
  induction fuel generalizing u with
  | zero => rfl
  | succ k ih =>
    simp only [State.timTo]
    (repeat' split) <;> simp [ih]

@[simp] theorem State.timHold_apart (s : State) (es : List HeldE) : (State.timHold s es).apart = s.apart := by simp [State.timHold]

@[simp] theorem State.timSeen_apart (t : Nat) (s : State) : (State.timSeen t s).apart = s.apart := by simp [State.timSeen]

@[simp] theorem State.timAll_apart (t : Nat) (s : State) : (State.timAll t s).apart = s.apart := by simp [State.timAll]

@[simp] theorem State.setSiv_apart (s : State) (q : Siv) : (State.setSiv s q).apart = s.apart := by simp [State.setSiv]

@[simp] theorem State.sivPad_apart (s : State) (w : Nat) : (State.sivPad s w).apart = s.apart := by simp [State.sivPad]

@[simp] theorem State.sivTaken_apart (s : State) (n : Nat) : (State.sivTaken s n).apart = s.apart := by
  unfold State.sivTaken
  split <;> simp

@[simp] theorem State.sivCut_apart (s : State) (p : Nat) : (State.sivCut s p).apart = s.apart := by simp [State.sivCut]

@[simp] theorem State.sivStop_apart (s : State) (p : Nat) : (State.sivStop s p).apart = s.apart := by simp [State.sivStop]

@[simp] theorem State.takeDelays_apart (s : State) : (State.takeDelays s).apart = s.apart := by simp [State.takeDelays]

@[simp] theorem State.trlStart_untrl (s : State) (k : Nat) : (State.trlStart s k).apart.unopen.unstat.untrl = s.apart.unopen.unstat.untrl := by simp [State.trlStart]

@[simp] theorem State.restartAt_untrl (s : State) (k : Nat) : (State.restartAt s k).apart.unopen.unstat.untrl = s.apart.unopen.unstat.untrl := by
  unfold State.restartAt
  split <;> simp

@[simp] theorem State.redo_apart (s : State) (g : Seg) (u o : Nat) (bs : List Byte) : (State.redo s g u o bs).apart = s.apart := by simp [State.redo]

@[simp] theorem State.gapDone_apart (s : State) (lost : Nat) : (State.gapDone s lost).apart = s.apart := by
  simp only [State.gapDone]
  (repeat' split) <;> simp

@[simp] theorem State.putLead_apart (s : State) (r : Rec) : (State.putLead s r).apart = s.apart := by simp [State.putLead]

@[simp] theorem State.openSeg_unopen (s : State) (g0 : Seg) (n : Nat) (ls : List Nat) : (State.openSeg s g0 n ls).apart.unopen = s.apart.unopen := by
  simp only [State.openSeg]
  (repeat' split) <;> simp

@[simp] theorem State.dropOpening_apart (s : State) : (State.dropOpening s).apart = s.apart := by
  unfold State.dropOpening
  split <;> simp

@[simp] theorem State.stallGap_apart (s : State) (g : Seg) (e t : Nat) : (State.stallGap s g e t).apart = s.apart := by
  unfold State.stallGap
  split <;> simp

@[simp] theorem State.freePlace_apart (s : State) (i : Nat) : (State.freePlace s i).apart = s.apart := by
  unfold State.freePlace
  (repeat' split) <;> simp

@[simp] theorem State.stGap_apart (t : Nat) (s : State) (j : Nat) : (State.stGap t s j).apart = s.apart := by
  unfold State.stGap
  split <;> simp

@[simp] theorem State.headerDone_apart (s : State) (g : Seg) (a b kEnd : Nat) : (State.headerDone s g a b kEnd).apart = s.apart := by simp [State.headerDone]

@[simp] theorem State.capPutFit_apart (s : State) (r : Rec) : (State.capPutFit s r).apart = s.apart := by
  unfold State.capPutFit
  split <;> simp

@[simp] theorem State.bodyOut_apart (s : State) (g : Seg) (a b : Nat) : (State.bodyOut s g a b).apart = s.apart := by simp [State.bodyOut]

@[simp] theorem State.segGone_apart (s : State) (g : Seg) (a b kEnd u : Nat) (full : Bool) : (State.segGone s g a b kEnd u full).apart = s.apart := by simp [State.segGone]

@[simp] theorem State.closeSeg1_apart (s : State) (cause e t past : Nat) : (State.closeSeg1 s cause e t past).apart = s.apart := by
  simp only [State.closeSeg1]
  (repeat' split) <;> simp

@[simp] theorem State.closeLast_apart (s : State) (cause e t past : Nat) : (State.closeLast s cause e t past).apart = s.apart := by
  unfold State.closeLast
  split <;> simp

@[simp] theorem State.chainNext_unopen (s : State) (g : Seg) (e t : Nat) : (State.chainNext s g e t).apart.unopen = s.apart.unopen := by simp [State.chainNext]

@[simp] theorem State.chainTo_unopen (e t fuel : Nat) (u : State) : (State.chainTo e t fuel u).apart.unopen = u.apart.unopen := by
  induction fuel generalizing u with
  | zero => rfl
  | succ k ih =>
    simp only [State.chainTo]
    (repeat' split) <;> simp [ih]

@[simp] theorem State.closeSeg_unopen (s : State) (cause e t past : Nat) : (State.closeSeg s cause e t past).apart.unopen = s.apart.unopen := by simp [State.closeSeg]

@[simp] theorem State.trigRecords_apart (s : State) (g : Seg) (x : Trig) : (State.trigRecords s g x).apart = s.apart := by simp [State.trigRecords]

@[simp] theorem State.trigRegs_apart (s : State) (x : Trig) : (State.trigRegs s x).apart = s.apart := by simp [State.trigRegs]

@[simp] theorem State.trigger1_unstat (s : State) (x : Trig) (k : Nat) : (State.trigger1 s x k).apart.unopen.unstat = s.apart.unopen.unstat := by
  unfold State.trigger1
  split <;> simp

@[simp] theorem State.trigger2_unstat (s : State) (x y : Trig) : (State.trigger2 s x y).apart.unopen.unstat = s.apart.unopen.unstat := by
  unfold State.trigger2
  split <;> simp

@[simp] theorem State.trigger_unstat (s : State) (x : Trig) (k : Nat) : (State.trigger s x k).apart.unopen.unstat = s.apart.unopen.unstat := by
  unfold State.trigger
  split <;> simp

@[simp] theorem State.putPort_apart (s : State) (n : Nat) (g : GPort) : (State.putPort s n g).apart = s.apart := by rfl

@[simp] theorem State.grfDrop_apart (s : State) (n : Nat) : (State.grfDrop s n).apart = s.apart := by simp [State.grfDrop]

@[simp] theorem State.sendTrig_apart (s : State) (n bits t : Nat) (own : Bool) : (State.sendTrig s n bits t own).1.apart = s.apart := by
  simp only [State.sendTrig]
  (repeat' split) <;> simp

@[simp] theorem State.grfXtrig_apart (s : State) (mask mark : Nat) (coarse : Bool) (kt t : Nat) :
    (State.grfXtrig s mask mark coarse kt t).apart = s.apart := by
  have hsend : ∀ (bits : Nat) (l : List Nat) (p : State × Bool),
      (l.foldl (fun (p : State × Bool) n =>
        if bit mask n then ((p.1.sendTrig n bits t true).1, p.2 || (p.1.sendTrig n bits t true).2) else p) p).1.apart = p.1.apart :=
    fun b l p => by
      induction l generalizing p with
      | nil => rfl
      | cons a r ih =>
        rw [List.foldl_cons, ih]
        split <;> simp
  unfold State.grfXtrig
  split
  · rfl
  · dsimp only
    split <;> simp [hsend]

@[simp] theorem State.actCt_untrl (s : State) (l b : Nat) : (State.actCt s l b).apart.unopen.unstat.untrl = s.apart.unopen.unstat.untrl := by simp [State.actCt]

@[simp] theorem State.actTm_untrl (s : State) (l b k t : Nat) : (State.actTm s l b k t).apart.unopen.unstat.untrl = s.apart.unopen.unstat.untrl := by simp [State.actTm]

@[simp] theorem State.actQual_untrl (s : State) (l b k : Nat) : (State.actQual s l b k).apart.unopen.unstat.untrl = s.apart.unopen.unstat.untrl := by simp [State.actQual]

@[simp] theorem State.pulse_untrl (s : State) (t n : Nat) : (State.pulse s t n).apart.unopen.unstat.untrl = s.apart.unopen.unstat.untrl := by simp [State.pulse]

@[simp] theorem State.actXtrig_untrl (s : State) (x : Taken) : (State.actXtrig s x).apart.unopen.unstat.untrl = s.apart.unopen.unstat.untrl := by simp [State.actXtrig]

@[simp] theorem State.actMark_untrl (s : State) (x : Taken) : (State.actMark s x).apart.unopen.unstat.untrl = s.apart.unopen.unstat.untrl := by simp [State.actMark]

@[simp] theorem State.act_untrl (k : Nat) (s : State) (x : Taken) : (State.act k s x).apart.unopen.unstat.untrl = s.apart.unopen.unstat.untrl := by simp [State.act]

@[simp] theorem State.fire_untrl (s : State) (k : Nat) (x : Taken) : (State.fire s k x).apart.unopen.unstat.untrl = s.apart.unopen.unstat.untrl := by simp [State.fire]

@[simp] theorem State.trellis_untrl (s : State) (k : Nat) : (State.trellis s k).apart.unopen.unstat.untrl = s.apart.unopen.unstat.untrl := by
  simp only [State.trellis]
  (repeat' split) <;> simp

@[simp] theorem State.trlLoop_untrl (p fuel : Nat) (u : State) : (State.trlLoop p fuel u).apart.unopen.unstat.untrl = u.apart.unopen.unstat.untrl := by
  induction fuel generalizing u with
  | zero => rfl
  | succ k ih =>
    simp only [State.trlLoop]
    (repeat' split) <;> simp [ih]

@[simp] theorem State.trlTo_untrl (p : Nat) (s : State) : (State.trlTo p s).apart.unopen.unstat.untrl = s.apart.unopen.unstat.untrl := by simp [State.trlTo]

@[simp] theorem State.putRule_unhdg (s : State) (n : Nat) (r : Rule) : (State.putRule s n r).apart.unopen.unstat.untrl.unhdg = s.apart.unopen.unstat.untrl.unhdg := by rfl

@[simp] theorem State.violate_unhdg (s : State) (n kind c : Nat) (o : Int) (ref tv : Nat) (sres : Bool) : (State.violate s n kind c o ref tv sres).apart.unopen.unstat.untrl.unhdg = s.apart.unopen.unstat.untrl.unhdg := by simp [State.violate]

@[simp] theorem State.horizon_unhdg (s : State) (n t : Nat) (sres : Bool) : (State.horizon s n t sres).apart.unopen.unstat.untrl.unhdg = s.apart.unopen.unstat.untrl.unhdg := by
  unfold State.horizon
  refine (foldl_unhdg _ _ _ fun u c => ?_).trans (by simp)
  (repeat' split) <;> simp

@[simp] theorem State.judge_unhdg (s : State) (n c t : Nat) (sres : Bool) : (State.judge s n c t sres).apart.unopen.unstat.untrl.unhdg = s.apart.unopen.unstat.untrl.unhdg := by
  simp only [State.judge]
  (repeat' split) <;> simp

@[simp] theorem State.ruleEdge_unhdg (ref : Bool) (c t : Nat) (up sres : Bool) (s : State) (n : Nat) : (State.ruleEdge ref c t up sres s n).apart.unopen.unstat.untrl.unhdg = s.apart.unopen.unstat.untrl.unhdg := by simp [State.ruleEdge]

@[simp] theorem State.hedgeEdge_unhdg (ref : Bool) (s : State) (e : HeldE) : (State.hedgeEdge ref s e).apart.unopen.unstat.untrl.unhdg = s.apart.unopen.unstat.untrl.unhdg := by simp [State.hedgeEdge]

@[simp] theorem State.hedgeEdges_unhdg (s : State) (es : List HeldE) : (State.hedgeEdges s es).apart.unopen.unstat.untrl.unhdg = s.apart.unopen.unstat.untrl.unhdg := by simp [State.hedgeEdges]

@[simp] theorem State.edgesAt_unhdg (s : State) (es : List HeldE) : (State.edgesAt s es).apart.unopen.unstat.untrl.unhdg = s.apart.unopen.unstat.untrl.unhdg := by simp [State.edgesAt]

@[simp] theorem State.edgesTo_unhdg (t fuel : Nat) (u : State) : (State.edgesTo t fuel u).apart.unopen.unstat.untrl.unhdg = u.apart.unopen.unstat.untrl.unhdg := by
  induction fuel generalizing u with
  | zero => rfl
  | succ k ih =>
    simp only [State.edgesTo]
    (repeat' split) <;> simp [ih]

@[simp] theorem State.redSeen_apart (p : Nat) (s : State) : (State.redSeen p s).apart = s.apart := by simp [State.redSeen]

@[simp] theorem State.seenTo_unhdg (t : Nat) (s : State) : (State.seenTo t s).apart.unopen.unstat.untrl.unhdg = s.apart.unopen.unstat.untrl.unhdg := by simp [State.seenTo]

@[simp] theorem State.openNow_unopen (s : State) : (State.openNow s).apart.unopen = s.apart.unopen := by
  unfold State.openNow
  split <;> simp

@[simp] theorem State.openTo_unhdg (t : Nat) (s : State) : (State.openTo t s).apart.unopen.unstat.untrl.unhdg = s.apart.unopen.unstat.untrl.unhdg := by
  unfold State.openTo
  split <;> simp

@[simp] theorem State.timKeep_apart (s : State) : (State.timKeep s).apart = s.apart := by simp [State.timKeep]

@[simp] theorem State.upTo_unhdg (t : Nat) (s : State) : (State.upTo t s).apart.unopen.unstat.untrl.unhdg = (State.advance s t).apart.unopen.unstat.untrl.unhdg := by simp [State.upTo]

@[simp] theorem State.haltAll_untrl (s : State) (p : Nat) : (State.haltAll s p).apart.unopen.unstat.untrl = s.apart.unopen.unstat.untrl := by simp [State.haltAll]

@[simp] theorem State.enterStopping_untrl (s : State) (cause p t : Nat) : (State.enterStopping s cause p t).apart.unopen.unstat.untrl = s.apart.unopen.unstat.untrl := by simp [State.enterStopping]

@[simp] theorem State.stopMore_unstat (s : State) (cause t : Nat) : (State.stopMore s cause t).apart.unopen.unstat = s.apart.unopen.unstat := by
  unfold State.stopMore
  (repeat' split) <;> simp

@[simp] theorem State.stopAt_unhdg (s0 : State) (cause t : Nat) : (State.stopAt s0 cause t).apart.unopen.unstat.untrl.unhdg = (State.advance s0 t).apart.unopen.unstat.untrl.unhdg := by
  simp only [State.stopAt]
  (repeat' split) <;> simp

@[simp] theorem State.markSupply_apart (x t : Nat) (s : State) : (State.markSupply x t s).apart = s.apart := by simp [State.markSupply]

theorem State.supplyStop_unhdg (t e : Nat) (s0 : State) : (State.supplyStop t e s0).apart.unopen.unstat.untrl.unhdg = (State.advance s0 t).apart.unopen.unstat.untrl.unhdg := by
  simp only [State.supplyStop]
  split
  · rw [State.stopAt_unhdg]
    exact State.unhdg_of_advanced (State.upTo_unhdg t s0)
  · rw [State.stopAt_unhdg]
    refine State.unhdg_of_advanced ?_
    split <;> simp

end Sys2Proof.Machine
end

