-- ==== Sys2Proof/Proofs/BlackBoxEntries.lean ====
section
/-! SUPPORT. What an entry of the black box and an event raised leave as they are, the bits of registers, and folds. -/

namespace Sys2Proof.Machine

/-! ### Bits -/

theorem bit_eq_testBit (v i : Nat) : bit v i = v.testBit i := by rw [bit, Nat.testBit_eq_decide_div_mod_eq]

theorem bit_or (v w i : Nat) : bit (v ||| w) i = (bit v i || bit w i) := by simp only [bit_eq_testBit, Nat.testBit_or]

theorem bit_mod_two_pow (v n i : Nat) : bit (v % 2 ^ n) i = (decide (i < n) && bit v i) := by
  simp only [bit_eq_testBit, Nat.testBit_mod_two_pow]

theorem bit_two_pow (k i : Nat) : bit (2 ^ k) i = decide (k = i) := by rw [bit_eq_testBit, Nat.testBit_two_pow]

/-- A bit set in a field that is wide enough reads as set. -/
theorem bit_rd_orF (s : State) (f : Fld) (k : Nat) (h : k < f.w) : bit ((s.orF f (2 ^ k)).rd f) k = true := by
  rw [State.orF_eq, State.rd_wr_same, bit_mod_two_pow, bit_or, bit_two_pow]
  simp [h]

/-! ### Folds -/

/-- What each step of a fold leaves, the fold leaves. -/
theorem foldl_view {α β γ : Type} (v : β → γ) (g : β → α → β) (l : List α) (b : β) (h : ∀ b a, v (g b a) = v b) : v (l.foldl g b) = v b := by
  induction l generalizing b with
  | nil => rfl
  | cons a r ih => rw [List.foldl_cons, ih, h]

/-- The same where it is only so for the list's elements. -/
theorem foldl_view_mem {α β γ : Type} (v : β → γ) (g : β → α → β) (l : List α) (b : β) (h : ∀ a ∈ l, ∀ b, v (g b a) = v b) :
    v (l.foldl g b) = v b := by
  induction l generalizing b with
  | nil => rfl
  | cons a r ih =>
    obtain ⟨ha, hr⟩ := List.forall_mem_cons.1 h
    rw [List.foldl_cons, ih _ hr, ha]

/-- A fold of steps that change register fields only changes register fields only. -/
theorem foldl_fields {α : Type} (g : State → α → State) (l : List α) (s : State) (h : ∀ u a, ∃ F, g u a = { u with fields := F }) :
    ∃ F, l.foldl g s = { s with fields := F } := by
  induction l generalizing s with
  | nil => exact ⟨s.fields, rfl⟩
  | cons a r ih =>
    obtain ⟨F, hF⟩ := h s a
    obtain ⟨G, hG⟩ := ih (g s a)
    exact ⟨G, by rw [List.foldl_cons, hG, hF]⟩

theorem State.wr_fields_only (s : State) (f : Fld) (v : Nat) : ∃ F, s.wr f v = { s with fields := F } := ⟨_, rfl⟩

/-! ### An event, and an entry of the black box -/

/-- The registers that a black-box entry writes. -/
def bboxFlds : List Fld := [BBX_STAT_count, BBX_HEAD_value, BBX_LOST_value]

theorem State.bbox_moves (s : State) (c x d : Nat) : ∃ F B, s.bbox c x d = { s with fields := F, bbx := B } := by
  unfold State.bbox
  split
  · exact ⟨_, s.bbx, rfl⟩
  · exact ⟨_, _, rfl⟩

theorem State.raiseEvent_moves (s : State) (e : Nat) : ∃ F, s.raiseEvent e = { s with fields := F } := by
  unfold State.raiseEvent
  split
  · exact ⟨_, rfl⟩
  · exact ⟨s.fields, rfl⟩

theorem State.rd_bbox (s : State) (c x d : Nat) {f : Fld} (h : f.key ∉ bboxFlds.map Fld.key) : (s.bbox c x d).rd f = s.rd f := by
  simp only [bboxFlds, List.map_cons, List.map_nil, List.mem_cons, List.not_mem_nil, or_false, not_or] at h
  obtain ⟨hc, hh, hl⟩ := h
  unfold State.bbox
  split
  · exact State.rd_wr_ne _ _ _ _ (Ne.symm hl)
  · rw [State.rd_wr_ne _ _ _ _ (Ne.symm hh), State.rd_wr_ne _ _ _ _ (Ne.symm hc), State.rd_mk]

theorem State.rd_raiseEvent (s : State) (e : Nat) {f : Fld} (h : f.key ≠ HKS_STAT_pending.key) : (s.raiseEvent e).rd f = s.rd f := by
  unfold State.raiseEvent
  split
  · exact State.rd_wr_ne _ _ _ _ (Ne.symm h)
  · rfl

@[simp] theorem State.bbox_pwr (s : State) (c x d : Nat) : (s.bbox c x d).pwr = s.pwr := by
  obtain ⟨_, _, h⟩ := s.bbox_moves c x d; rw [h]
@[simp] theorem State.bbox_hks (s : State) (c x d : Nat) : (s.bbox c x d).hks = s.hks := by
  obtain ⟨_, _, h⟩ := s.bbox_moves c x d; rw [h]
@[simp] theorem State.bbox_tmb (s : State) (c x d : Nat) : (s.bbox c x d).tmb = s.tmb := by
  obtain ⟨_, _, h⟩ := s.bbox_moves c x d; rw [h]
@[simp] theorem State.bbox_hrv (s : State) (c x d : Nat) : (s.bbox c x d).hrv = s.hrv := by
  obtain ⟨_, _, h⟩ := s.bbox_moves c x d; rw [h]
@[simp] theorem State.raiseEvent_pwr (s : State) (e : Nat) : (s.raiseEvent e).pwr = s.pwr := by
  obtain ⟨_, h⟩ := s.raiseEvent_moves e; rw [h]
@[simp] theorem State.raiseEvent_hks (s : State) (e : Nat) : (s.raiseEvent e).hks = s.hks := by
  obtain ⟨_, h⟩ := s.raiseEvent_moves e; rw [h]
@[simp] theorem State.raiseEvent_tmb (s : State) (e : Nat) : (s.raiseEvent e).tmb = s.tmb := by
  obtain ⟨_, h⟩ := s.raiseEvent_moves e; rw [h]
@[simp] theorem State.raiseEvent_bbx (s : State) (e : Nat) : (s.raiseEvent e).bbx = s.bbx := by
  obtain ⟨_, h⟩ := s.raiseEvent_moves e; rw [h]

end Sys2Proof.Machine

namespace Sys2Proof

open Machine

theorem sameRegs_bbox {s u : State} {l : List Fld} (c x d : Nat) (h : bboxFlds.map Fld.key ⊆ l.map Fld.key) :
    SameRegs s (u.bbox c x d) l ↔ SameRegs s u l := by
  have hr : ∀ f : Fld, f.key ∉ l.map Fld.key → (u.bbox c x d).rd f = u.rd f := fun f hf => State.rd_bbox u c x d fun hm => hf (h hm)
  exact ⟨fun k f hf => (hr f hf).symm.trans (k f hf), fun k f hf => (hr f hf).trans (k f hf)⟩

theorem sameRegs_raiseEvent {s u : State} {l : List Fld} (e : Nat) (h : HKS_STAT_pending.key ∈ l.map Fld.key) :
    SameRegs s (u.raiseEvent e) l ↔ SameRegs s u l := by
  have hr : ∀ f : Fld, f.key ∉ l.map Fld.key → (u.raiseEvent e).rd f = u.rd f := fun f hf => State.rd_raiseEvent u e fun hm => hf (hm ▸ h)
  exact ⟨fun k f hf => (hr f hf).symm.trans (k f hf), fun k f hf => (hr f hf).trans (k f hf)⟩

/-- Of all that is no register a black-box entry changes the black box. -/
theorem sameRest_bbox {s u : State} (c x d : Nat) (h : SameRest s { u with bbx := s.bbx }) :
    SameRest s { u.bbox c x d with bbx := s.bbx } := by
  obtain ⟨_, _, e⟩ := u.bbox_moves c x d
  rw [e]
  exact h

theorem sameRest_raiseEvent {s u : State} (e : Nat) (h : SameRest s u) : SameRest s (u.raiseEvent e) := by
  obtain ⟨_, k⟩ := u.raiseEvent_moves e
  rw [k]
  exact h

end Sys2Proof
end

