-- ==== Sys2Proof/Proofs/Refuting.lean ====
section
/-! SUPPORT. How a statement about what a command answers is refuted: in a still machine what follows a command changes no register, so
that the state the statement speaks of reads as the one the model computes. -/

namespace Sys2Proof

open Machine

/-- Nothing waits to be done in a machine: `Calm` without the output of REF_OUT and the messages sent, which touch no register. -/
structure Still (s : State) : Prop where
  waking : s.hks.waking = none
  step2 : s.hks.step ≠ 2
  step3 : s.hks.step ≠ 3
  hostReq : s.hks.hostReq = none
  held : s.held = []
  script : s.hks.script = none
  runReq : s.hks.runReq = none
  hopWait : s.clk.hopWait = none
  pending : s.rd CLK_HOP_pending = 0
  rings : s.hrv.rings = []
  modePend : s.rd GLB_STAT_mode_pend = 0
  retPend : s.rd GLB_STAT_ret_pend = 0
  bme : s.hrv.bme = false
  idle : s.acqSt = 0
  memHeld : s.hrv.memHeld = []
  source : s.rd CLK_STAT_s_src_act = 0

theorem irqStep_masked (s : State) (i : Nat) (hb : s.hrv.bme = false) : ∃ q m, s.irqStep i = { s with irqSeen := q, msxPba := m } := by
  have hm : s.msgOn = false := by simp [State.msgOn, hb]
  unfold State.irqStep
  split
  · rw [if_pos (by simp [hm])]
    exact ⟨s.irqSeen, s.msxPba, rfl⟩
  split
  · exact ⟨_, _, rfl⟩
  · exact ⟨s.irqSeen, s.msxPba, rfl⟩

theorem irqSync_masked (s : State) (hb : s.hrv.bme = false) : ∃ q m, s.irqSync = { s with irqSeen := q, msxPba := m } := by
  have all : ∀ l : List Nat, ∃ q m, l.foldl State.irqStep s = { s with irqSeen := q, msxPba := m } := fun l => by
    induction l using List.reverseRecOn with
    | nil => exact ⟨s.irqSeen, s.msxPba, rfl⟩
    | append_singleton r i ih =>
      obtain ⟨q, m, e⟩ := ih
      obtain ⟨q', m', e'⟩ := irqStep_masked { s with irqSeen := q, msxPba := m } i hb
      exact ⟨q', m', by rw [List.foldl_append, List.foldl_cons, List.foldl_nil, e, e']⟩
  obtain ⟨q, m, e⟩ := all (List.range 17)
  refine ⟨q, m, ?_⟩
  rw [State.irqSync, e]
  simp [State.pbaSync, State.msgOn, hb]

/-- What follows a command in a still machine changes no register. -/
theorem settle_still (old u : State) (h : Still u) (hi : old.acqSt = 0) :
    ∃ b q m, State.settle old u = { u with tmb := b, irqSeen := q, msxPba := m } := by
  have e0 : u.selfSync = u.refOutSync := by
    have hx : (u.refOutSync.on CLK_STAT_s_src_act && u.refOutSync.grid.run) = false := by
      simp [State.on, State.refOutSync, h.source]
    have hid : u.refOutSync.idle = true := by
      have := h.idle
      simp only [State.acqSt] at this
      simp [State.idle, State.acqSt, State.refOutSync, this]
    rw [State.selfSync, State.extTrack, hx]
    simp [State.keepUp, hid]
  generalize hu : u.refOutSync = r at *
  have hr : ∃ b, r = { u with tmb := b } := ⟨_, hu.symm⟩
  obtain ⟨b, rfl⟩ := hr
  obtain ⟨q, m, e⟩ := irqSync_masked { u with tmb := b } h.bme
  have hq : u.acqSt = 0 := h.idle
  have hs : ∀ f, ({ u with tmb := b } : State).rd f = u.rd f := fun _ => rfl
  have e6 : State.armSync old { u with tmb := b } = { u with tmb := b } := if_neg fun x => by
    have : ({ u with tmb := b } : State).acqSt = 0 := hq
    omega
  have e7 : State.idleSync old { u with tmb := b } = { u with tmb := b } := if_neg fun x => x.1 hi
  refine ⟨b, q, m, ?_⟩
  simp only [State.settle, e0]
  have w : ({ u with tmb := b } : State).wakeSync = { u with tmb := b } := by simp [State.wakeSync, h.waking]
  have bo : ({ u with tmb := b } : State).bootSync = { u with tmb := b } := by simp [State.bootSync, h.step2, h.step3]
  have ho : ({ u with tmb := b } : State).hostSync = { u with tmb := b } := by simp [State.hostSync, h.hostReq]
  have he : ({ u with tmb := b } : State).heldSync = { u with tmb := b } := by simp [State.heldSync, h.held]
  have me : ({ u with tmb := b } : State).memSync = { u with tmb := b } := by simp [State.memSync, h.memHeld]
  have se : ({ u with tmb := b } : State).seqSync = { u with tmb := b } := by simp [State.seqSync, h.script, h.runReq]
  have hop : ({ u with tmb := b } : State).hopSync = { u with tmb := b } := by simp [State.hopSync, h.hopWait, h.pending]
  have hv : ({ u with tmb := b } : State).hrvSync = { u with tmb := b } := by simp [State.hrvSync, h.rings]
  have en : ({ u with tmb := b } : State).startEntry = { u with tmb := b } := by
    simp [State.startEntry, State.changeDue, State.returnDue, State.on, h.modePend, h.retPend]
  rw [w, bo, ho, he, me, se, e6, e7, hop, hv, en, e]

/-- Two still machines that become the same read the same. -/
theorem rd_of_settle {old u v : State} (h : State.settle old u = State.settle old v) (hu : Still u) (hv : Still v) (hi : old.acqSt = 0) (f : Fld) :
    u.rd f = v.rd f := by
  obtain ⟨_, _, _, eu⟩ := settle_still old u hu hi
  obtain ⟨_, _, _, ev⟩ := settle_still old v hv hi
  have e := congrArg (fun s : State => s.rd f) (eu.symm.trans (h.trans ev))
  simpa using e

/-- What makes a machine still is held in few places. -/
theorem Still.of_parts {s u : State} (h : Still s) (hks : u.hks = s.hks) (held : u.held = s.held) (clk : u.clk = s.clk)
    (hrv : { u.hrv with l12 := s.hrv.l12 } = s.hrv)
    (regs : ∀ f ∈ [CLK_HOP_pending, GLB_STAT_mode_pend, GLB_STAT_ret_pend, ACQ_STAT_state, CLK_STAT_s_src_act], u.rd f = s.rd f) : Still u := by
  simp only [List.forall_mem_cons, List.not_mem_nil, false_imp_iff, implies_true, and_true] at regs
  obtain ⟨hp, hm, hr, ha, hx⟩ := regs
  have hri : u.hrv.rings = s.hrv.rings := (congrArg Hrv.rings hrv :)
  have hbm : u.hrv.bme = s.hrv.bme := (congrArg Hrv.bme hrv :)
  have hme : u.hrv.memHeld = s.hrv.memHeld := (congrArg Hrv.memHeld hrv :)
  exact ⟨hks ▸ h.waking, hks ▸ h.step2, hks ▸ h.step3, hks ▸ h.hostReq, held ▸ h.held, hks ▸ h.script, hks ▸ h.runReq, clk ▸ h.hopWait,
    hp ▸ h.pending, hri ▸ h.rings, hm ▸ h.modePend, hr ▸ h.retPend, hbm ▸ h.bme, ha.trans h.idle, hme ▸ h.memHeld, hx ▸ h.source⟩

/-- Where registers not listed, and all but the black box, are as before, a machine is as still as before. -/
theorem Still.of_sameRest_bbx {s u : State} {l : List Fld} (h : Still s) (hr : SameRegs s u l) (hs : SameRest s { u with bbx := s.bbx })
    (hl : ∀ f ∈ [CLK_HOP_pending, GLB_STAT_mode_pend, GLB_STAT_ret_pend, ACQ_STAT_state, CLK_STAT_s_src_act], f.key ∉ l.map Fld.key) : Still u := by
  rw [sameRest_iff] at hs
  obtain ⟨_, _, held, _, _, _, _, _, clk, _, _, _, _, _, _, _, _, hrv, _, _, hks, _⟩ := hs
  exact h.of_parts hks held clk hrv fun f hf => hr f (hl f hf)

/-- What a command answers is a state that becomes what the model computes. -/
theorem Answers.becomes {c : Instr} {s v : State} {P : State → Prop} (h : Answers c s P) (hs : SlotFree s)
    (hc : exec c s = .next (State.settle s v)) : ∃ u, State.settle s u = State.settle s v ∧ P u := by
  obtain ⟨u, he, hu⟩ := h
  exact ⟨u, Host.Outcome.next.inj (he.symm.trans hc), hu hs⟩

end Sys2Proof
end

