-- ==== Sys2Proof/Proofs/SupplyFaults.lean ====
section
/-! SUPPORT. The count of lost phases is not cut to its register where the rail has none left to lose. -/

namespace Sys2Proof

open Machine

/-- The reset state, its main rails off, where PWR_RAIL.lost counts three phases of rail 7 and holds one bit more than it is wide. -/
def overfull : State := { State.reset with fields := [(PWR_RAIL_lost.key, 2 ^ 16 + 3 * 4 ^ 7)] }

theorem still_overfull : Still overfull := by constructor <;> decide

theorem slotFree_overfull : SlotFree overfull := fun _ hc => nomatch hc

/-- The fourth phase of the rail is not counted. -/
theorem phaseFail_overfull : (State.phaseFail 7 false 0 overfull).rd PWR_RAIL_lost = 2 ^ 16 + 3 * 4 ^ 7 := by decide

theorem still_phaseFail_overfull : Still (State.phaseFail 7 false 0 overfull) := by constructor <;> decide

theorem exec_phaseFailure_overfull :
    exec (.phaseFailure 7 false 0) overfull = .next (State.settle overfull (State.phaseFail 7 false 0 overfull)) := by
  rw [exec_phaseFailure, State.performAt, perform_next _ _ rfl, reached_free _ _ slotFree_overfull]
  rfl

/-- Refutes O57: a shed phase of the rail of the always-on domain that has none left to lose leaves PWR_RAIL.lost as it is, where the
statement cuts it to 16 bits: they differ on a state (`overfull`) whose field holds more than its width. -/
theorem not_supplyFaults : ¬ Obligations.SupplyFaults := by
  unfold Obligations.SupplyFaults
  intro h
  obtain ⟨hrails, _⟩ := h overfull 0
  obtain ⟨_, _, _, hshed, _⟩ := hrails 7 rfl
  have ha := hshed (.inr ⟨by decide, rfl⟩)
  obtain ⟨u, hu, hlost, _, _, _, hregs, hrest⟩ := ha.becomes slotFree_overfull exec_phaseFailure_overfull
  have hstill := still_overfull.of_sameRest_bbx hregs hrest (by decide)
  have hsame := rd_of_settle hu hstill still_phaseFail_overfull rfl PWR_RAIL_lost
  rw [hlost, phaseFail_overfull] at hsame
  exact absurd hsame (by decide)

end Sys2Proof
end

