-- ==== Sys2Proof/Proofs/LinkStates.lean ====
section
/-! SUPPORT. The PCI Express link and a Function Level Reset. -/

namespace Sys2Proof.Machine

/-- The link's registers show what it has come up with. -/
theorem State.rd_linkAt_up (w v : Nat) (s : State) : (State.linkAt w v s).rd HRV_LINK_up = 1 := by
  simp (disch := decide) [State.linkAt, State.rd_wr_ne, HRV_LINK_up]
theorem State.rd_linkAt_width (w v : Nat) (s : State) : (State.linkAt w v s).rd HRV_LINK_width = w % 2 ^ HRV_LINK_width.w := by
  simp (disch := decide) only [State.linkAt, State.rd_wr_ne, State.rd_wr_same]
theorem State.rd_linkAt_speed (w v : Nat) (s : State) : (State.linkAt w v s).rd HRV_LINK_speed = v % 2 ^ HRV_LINK_speed.w := by
  simp only [State.linkAt, State.rd_wr_same]

/-- The registers of the link's state. -/
def linkFlds : List Fld := [HRV_LINK_up, HRV_LINK_width, HRV_LINK_speed]

theorem State.rd_linkAt (w v : Nat) (s : State) {f : Fld} (h : f.key ∉ linkFlds.map Fld.key) : (State.linkAt w v s).rd f = s.rd f := by
  simp only [linkFlds, List.map_cons, List.map_nil, List.mem_cons, List.not_mem_nil, or_false, not_or] at h
  obtain ⟨hu, hw, hs⟩ := h
  rw [State.linkAt, State.rd_wr_ne _ _ _ _ (Ne.symm hs), State.rd_wr_ne _ _ _ _ (Ne.symm hw), State.rd_wr_ne _ _ _ _ (Ne.symm hu), State.rd_mk]

theorem State.linkAt_moves (w v : Nat) (s : State) :
    ∃ F, State.linkAt w v s = { s with fields := F, hrv := { s.hrv with link := some (w, v) } } := ⟨_, rfl⟩

theorem look_filter_out {α : Type} (p : Nat → Bool) (l : List (Nat × α)) {k : Nat} (h : p k = false) :
    look (l.filter fun q => p q.1) k = none := by
  induction l with
  | nil => rfl
  | cons a r ih =>
    rw [List.filter_cons]
    split
    · next ha =>
      have hk : a.1 ≠ k := fun e => by simp [e, h] at ha
      rw [look, if_neg hk, ih]
    · exact ih

/-- A Function Level Reset leaves the registers of every block but Harvest, and puts Harvest's back to reset. -/
theorem State.rd_pcieReset (down : Bool) (s : State) (f : Fld) :
    (State.pcieReset down s).rd f = if f.key / 8 / 0x10000 = 0xE then f.rst else s.rd f := by
  simp only [State.rd, State.pcieReset]
  split
  · next h =>
    rw [look_filter_out (fun k => decide (k / 8 / 0x10000 ≠ 0xE)) _ (by simp [h])]
    rfl
  · next h => rw [look_filter (fun k => decide (k / 8 / 0x10000 ≠ 0xE)) _ (by simp [h])]

theorem Fld.block_of_key {f : Fld} (ha : f.addr % 4 = 0) (hl : f.lo < 32) : f.key / 8 / 0x10000 = f.addr / 0x10000 := by
  simp only [Fld.key]
  omega

/-- What is left of a ring is the place of a stream capture. -/
theorem State.mem_ringsReset {s : State} {q : Nat × Ring} (h : q ∈ s.ringsReset) :
    q.2.strm = true ∧ q.2.q = [] ∧ q.2.ready = none ∧ ∃ r, (q.1, r) ∈ s.hrv.rings ∧ q.2.seg = r.seg ∧ q.2.u = r.u := by
  simp only [State.ringsReset, List.mem_map, List.mem_filter] at h
  obtain ⟨⟨n, r⟩, ⟨hm, _⟩, rfl⟩ := h
  exact ⟨rfl, rfl, rfl, r, hm, rfl, rfl⟩

theorem State.ringsReset_idle {s : State} (h : s.acqSt = 0) : s.ringsReset = [] := by
  simp [State.ringsReset, State.idle, h]

end Sys2Proof.Machine

namespace Sys2Proof

open Machine

theorem sameRegs_linkAt {s u : State} {l : List Fld} (w v : Nat) (h : linkFlds.map Fld.key ⊆ l.map Fld.key) :
    SameRegs s (State.linkAt w v u) l ↔ SameRegs s u l := by
  have hr : ∀ f : Fld, f.key ∉ l.map Fld.key → (State.linkAt w v u).rd f = u.rd f := fun f hf => State.rd_linkAt w v u fun hm => hf (h hm)
  exact ⟨fun k f hf => (hr f hf).symm.trans (k f hf), fun k f hf => (hr f hf).trans (k f hf)⟩

/-- The link comes up. -/
theorem pcieLinkUp_answers {s : State} (t width speed : Nat) (hp : Powered s) (hsel : s.hks.sel ≠ 2) (hl : s.lands = true) :
    Answers (.pcieLinkUp width speed t) s fun u =>
      u.rd HRV_LINK_up = 1 ∧ u.rd HRV_LINK_width = width % 2 ^ HRV_LINK_width.w ∧ u.rd HRV_LINK_speed = speed % 2 ^ HRV_LINK_speed.w
        ∧ u.hrv = { s.hrv with l12 := false, link := some (width, speed) } ∧ TimeAt s u t ∧ SameRegs s u [HRV_LINK_up, HRV_LINK_width, HRV_LINK_speed]
        ∧ SameRest s { u with hrv := s.hrv } := by
  have hu : State.linkUp width speed t s = State.linkAt width speed (s.advance t).linkUsed := by
    simp [State.linkUp, hp.2, hsel, hl]
  refine Answers.of_performOnAt (exec_pcieLinkUp _ _ _ _) hp ?_
  rw [hu]
  refine ⟨State.rd_linkAt_up _ _ _, State.rd_linkAt_width _ _ _, State.rd_linkAt_speed _ _ _, ?_, ?_, ?_, ?_⟩
  · simp [State.linkAt, State.linkUsed]
  · simp [State.linkAt, State.linkUsed, TimeAt]
  · rw [sameRegs_linkAt _ _ (by decide)]
    simp [State.linkUsed]
  · obtain ⟨b, h, _⟩ := s.advance_moves t
    rw [h]
    exact sameRest_mk_hrv _ _ _ _

/-- No link comes up under strap 0b10, or while boundary scan has the lands. -/
theorem pcieLinkUp_ignored {s : State} (t width speed : Nat) (hp : Powered s) (h : s.hks.sel = 2 ∨ s.lands = false) :
    Answers (.pcieLinkUp width speed t) s fun u => TimeAt s u t ∧ SameRegs s u [] ∧ SameRest s u := by
  have hu : State.linkUp width speed t s = s.advance t := by
    simp [State.linkUp, h]
  refine Answers.of_performOnAt (exec_pcieLinkUp _ _ _ _) hp ?_
  rw [hu]
  exact unchanged_advance s t

theorem laneDownshift_answers {s : State} (t width speed : Nat) (hp : Powered s) (hl : s.hrv.link.isSome = true) :
    Answers (.laneDownshift width speed t) s fun u =>
      u.hrv = { s.hrv with link := some (width, speed) } ∧ u.rd HRV_LINK_up = 1 ∧ u.rd HRV_LINK_width = width % 2 ^ HRV_LINK_width.w ∧ u.rd HRV_LINK_speed = speed % 2 ^ HRV_LINK_speed.w
        ∧ u.rd HRV_LINK_downshifts = (s.rd HRV_LINK_downshifts + 1) % 2 ^ HRV_LINK_downshifts.w ∧ u.rd HRV_EVT_link = 1 ∧ TimeAt s u t
        ∧ SameRegs s u [HRV_LINK_up, HRV_LINK_width, HRV_LINK_speed, HRV_LINK_downshifts, HRV_EVT_link, BBX_STAT_count, BBX_HEAD_value,
            BBX_LOST_value]
        ∧ SameRest s { u with bbx := s.bbx, hrv := s.hrv } := by
  have hu : State.downshift width speed t s =
      (((State.linkAt width speed (s.advance t)).bump HRV_LINK_downshifts).orF HRV_EVT_link 1).bbox 0x48 width speed := by
    rw [State.downshift, if_neg (by simp [Option.isSome_iff_ne_none.1 hl])]
  refine Answers.of_performOnAt (exec_laneDownshift _ _ _ _) hp ?_
  rw [hu, State.bump_eq, State.orF_eq]
  refine ⟨?_, ?_, ?_, ?_, ?_, ?_, ?_, ?_, ?_⟩
  · simp [State.linkAt]
  · simp (disch := decide) only [State.rd_bbox, State.rd_wr_ne, State.rd_linkAt_up]
  · simp (disch := decide) only [State.rd_bbox, State.rd_wr_ne, State.rd_linkAt_width]
  · simp (disch := decide) only [State.rd_bbox, State.rd_wr_ne, State.rd_linkAt_speed]
  · simp (disch := decide) only [State.rd_bbox, State.rd_wr_ne, State.rd_wr_same, State.rd_linkAt, State.rd_advance]
  · simp (disch := decide) only [State.rd_bbox, State.rd_wr_same, HRV_EVT_link]
    exact Nat.or_mod_two_eq_one.2 (.inr rfl)
  · simp [State.linkAt, TimeAt]
  · rw [sameRegs_bbox _ _ _ (by decide), sameRegs_wr _ (by decide), sameRegs_wr _ (by decide), sameRegs_linkAt _ _ (by decide)]
    simp
  · obtain ⟨b, h, _⟩ := s.advance_moves t
    obtain ⟨F, B, k⟩ := (((State.linkAt width speed (s.advance t)).wr HRV_LINK_downshifts ((State.linkAt width speed (s.advance t)).rd HRV_LINK_downshifts + 1)).wr HRV_EVT_link
      (((State.linkAt width speed (s.advance t)).wr HRV_LINK_downshifts ((State.linkAt width speed (s.advance t)).rd HRV_LINK_downshifts + 1)).rd HRV_EVT_link ||| 1)).bbox_moves 0x48 width speed
    rw [k, h]
    exact sameRest_mk_hrv _ _ _ _

theorem linkRetrain_answers {s : State} (t width speed : Nat) (hp : Powered s) (hl : s.hrv.link.isSome = true) :
    Answers (.linkRetrain width speed t) s fun u =>
      u.hrv = { s.hrv with link := some (width, speed) } ∧ u.rd HRV_LINK_up = 1 ∧ u.rd HRV_LINK_width = width % 2 ^ HRV_LINK_width.w ∧ u.rd HRV_LINK_speed = speed % 2 ^ HRV_LINK_speed.w
        ∧ (s.hrv.link = some (width, speed) → u.rd HRV_EVT_link = s.rd HRV_EVT_link)
        ∧ (s.hrv.link ≠ some (width, speed) → u.rd HRV_EVT_link = 1)
        ∧ TimeAt s u t ∧ SameRegs s u [HRV_LINK_up, HRV_LINK_width, HRV_LINK_speed, HRV_EVT_link] ∧ SameRest s { u with hrv := s.hrv } := by
  have hu : State.retrain width speed t s = State.linkAt width speed
      (if s.hrv.link ≠ some (width, speed) then (s.advance t).orF HRV_EVT_link 1 else s.advance t) := by
    rw [State.retrain]
    simp only [State.advance_hrv]
    rw [if_neg (by simp [Option.isSome_iff_ne_none.1 hl])]
  refine Answers.of_performOnAt (exec_linkRetrain _ _ _ _) hp ?_
  rw [hu, State.orF_eq]
  refine ⟨?_, State.rd_linkAt_up _ _ _, State.rd_linkAt_width _ _ _, State.rd_linkAt_speed _ _ _, fun h => ?_, fun h => ?_, ?_, ?_, ?_⟩
  · split <;> simp [State.linkAt]
  · rw [if_neg (by simp [h]), State.rd_linkAt _ _ _ (by decide), State.rd_advance]
  · rw [if_pos h, State.rd_linkAt _ _ _ (by decide), State.rd_wr_same]
    exact Nat.or_mod_two_eq_one.2 (.inr rfl)
  · split <;> simp [State.linkAt, TimeAt]
  · rw [sameRegs_linkAt _ _ (by decide)]
    split
    · rw [sameRegs_wr _ (by decide)]
      simp
    · simp
  · obtain ⟨b, h, _⟩ := s.advance_moves t
    rw [h]
    split <;> exact sameRest_mk_hrv _ _ _ _

/-- A link that is down cannot be retrained, shifted down or put to sleep. -/
theorem link_down_ignores {s : State} (t : Nat) (hp : Powered s) (hl : s.hrv.link = none) :
    ∀ c ∈ [Instr.l1_2Entry t, .laneDownshift 8 4 t, .linkRetrain 8 4 t], Answers c s fun u =>
      TimeAt s u t ∧ SameRegs s u [] ∧ SameRest s u := by
  have h1 : State.toL12 t s = s.advance t := by simp [State.toL12, hl]
  have h2 : State.downshift 8 4 t s = s.advance t := by simp [State.downshift, hl]
  have h3 : State.retrain 8 4 t s = s.advance t := by simp [State.retrain, hl]
  simp only [List.forall_mem_cons, List.not_mem_nil, false_imp_iff, implies_true, and_true]
  refine ⟨Answers.of_performOnAt (exec_l1_2Entry _ _) hp ?_, Answers.of_performOnAt (exec_laneDownshift _ _ _ _) hp ?_,
    Answers.of_performOnAt (exec_linkRetrain _ _ _ _) hp ?_⟩
  · rw [h1]
    exact unchanged_advance s t
  · rw [h2]
    exact unchanged_advance s t
  · rw [h3]
    exact unchanged_advance s t

/-- A new value of Harvest's own state, with the time. -/
theorem hrv_answers (s : State) (t : Nat) (r : Hrv) :
    ({ s.advance t with hrv := r } : State).hrv = r ∧ TimeAt s { s.advance t with hrv := r } t ∧ SameRegs s { s.advance t with hrv := r } []
      ∧ SameRest s { s.advance t with hrv := s.hrv } := by
  refine ⟨rfl, State.advance_kt s t, ?_, ?_⟩
  · rw [sameRegs_mk, sameRegs_advance]
    exact sameRegs_self s []
  · obtain ⟨b, h, _⟩ := s.advance_moves t
    rw [h]
    exact sameRest_mk_hrv _ _ _ _

theorem l1_2Entry_answers {s : State} (t : Nat) (hp : Powered s) (hl : s.hrv.link.isSome = true) :
    Answers (.l1_2Entry t) s fun u =>
      u.hrv = { s.hrv with l12 := true } ∧ TimeAt s u t ∧ SameRegs s u [] ∧ SameRest s { u with hrv := s.hrv } := by
  have h : State.toL12 t s = { s.advance t with hrv := { s.hrv with l12 := true } } := by
    rw [State.toL12, State.advance_hrv, if_pos hl]
  refine Answers.of_performOnAt (exec_l1_2Entry _ _) hp ?_
  rw [h]
  exact hrv_answers s t _

theorem d3hot_answers {s : State} (t : Nat) (hp : Powered s) (bme : Bool) :
    Answers (.d3hot bme t) s fun u =>
      u.hrv = (if bme then { s.hrv with bme := false } else { s.hrv with d3 := true }) ∧ TimeAt s u t ∧ SameRegs s u []
        ∧ SameRest s { u with hrv := s.hrv } := by
  refine Answers.of_performOnAt (exec_d3hot _ _ _) hp ?_
  cases bme
  · have h : State.toD3 false t s = { s.advance t with hrv := { s.hrv with d3 := true } } := by simp [State.toD3]
    rw [h]
    exact hrv_answers s t _
  · have h : State.toD3 true t s = { s.advance t with hrv := { s.hrv with bme := false } } := by simp [State.toD3]
    rw [h]
    exact hrv_answers s t _

theorem returnToD0_answers {s : State} (t : Nat) (hp : Powered s) (bme : Bool) :
    Answers (.returnToD0 bme t) s fun u =>
      u.hrv = (if bme then { s.hrv with bme := true } else { s.hrv with d3 := false }) ∧ TimeAt s u t ∧ SameRegs s u []
        ∧ SameRest s { u with hrv := s.hrv } := by
  refine Answers.of_performOnAt (exec_returnToD0 _ _ _) hp ?_
  cases bme
  · have h : State.toD0 false t s = { s.advance t with hrv := { s.hrv with d3 := false } } := by simp [State.toD0]
    rw [h]
    exact hrv_answers s t _
  · have h : State.toD0 true t s = { s.advance t with hrv := { s.hrv with bme := true } } := by simp [State.toD0]
    rw [h]
    exact hrv_answers s t _

/-- What a Function Level Reset leaves of the parts of the state, and the registers of the blocks but Harvest. -/
theorem pcieReset_sameRest (s : State) (t : Nat) : let u := State.pcieReset false (s.advance t)
    SameRest s { u with hrv := s.hrv, caps := s.caps, msxTab := s.msxTab, msxPba := s.msxPba, held := s.held } := by
  obtain ⟨b, h, _⟩ := s.advance_moves t
  rw [h]
  exact sameRest_mk_hrv _ _ _ _

theorem functionLevelReset_answers {s : State} (t : Nat) (hp : Powered s) (hl : s.hrv.link.isSome = true) :
    Answers (.functionLevelReset t) s fun u =>
      (∀ f : Fld, f.addr / 0x10000 = 0xE → f.addr % 4 = 0 → f.lo < 32 → u.rd f = f.rst)
        ∧ (∀ f : Fld, f.addr / 0x10000 ≠ 0xE → f.addr % 4 = 0 → f.lo < 32 → u.rd f = s.rd f)
        ∧ u.hrv.link = s.hrv.link ∧ u.hrv.cfg = []
        ∧ (s.acqSt = 0 → u.hrv.rings = [])
        ∧ (∀ q ∈ u.hrv.rings, q.2.strm = true ∧ q.2.q = [] ∧ q.2.ready = none ∧ ∃ r, (q.1, r) ∈ s.hrv.rings ∧ q.2.seg = r.seg ∧ q.2.u = r.u)
        ∧ u.hrv.cqs = [] ∧ u.hrv.bme = false ∧ u.hrv.d3 = false ∧ u.msxTab = [] ∧ u.msxPba = []
        ∧ (∀ h ∈ u.held, h.port ≠ .host) ∧ TimeAt s u t
        ∧ SameRest s { u with hrv := s.hrv, caps := s.caps, msxTab := s.msxTab, msxPba := s.msxPba, held := s.held } := by
  have hu : State.flr t s = State.pcieReset false (s.advance t) := by
    simp [State.flr, State.hostOn, hp.2, hl]
  refine Answers.of_performOnAt (exec_functionLevelReset _ _) hp ?_
  rw [hu]
  refine ⟨fun f hb ha hlo => ?_, fun f hb ha hlo => ?_, ?_, rfl, fun hi => ?_, fun q hq => ?_, rfl, rfl, rfl, rfl, rfl, fun h hh => ?_, ?_,
    pcieReset_sameRest s t⟩
  · rw [State.rd_pcieReset, if_pos (by rw [Fld.block_of_key ha hlo, hb])]
  · rw [State.rd_pcieReset, if_neg (by rw [Fld.block_of_key ha hlo]; exact hb), State.rd_advance]
  · simp [State.pcieReset]
  · exact State.ringsReset_idle (s := { s.advance t with held := _ }) (by simpa [State.acqSt] using hi)
  · have h := State.mem_ringsReset hq
    simpa using h
  · simp only [State.pcieReset, List.mem_filter, decide_eq_true_eq] at hh
    exact hh.2
  · exact State.advance_kt s t

/-- Settles O6, state by state of the link, and by the fields that a Function Level Reset keeps. -/
theorem linkAndFunctionReset : Obligations.LinkAndFunctionReset := by
  unfold Obligations.LinkAndFunctionReset
  refine ⟨fun s t hp => ⟨fun w v hsel hl => pcieLinkUp_answers t w v hp hsel hl, fun w v h => pcieLinkUp_ignored t w v hp h,
    fun w v hl => laneDownshift_answers t w v hp hl, fun w v hl => linkRetrain_answers t w v hp hl, fun hl => l1_2Entry_answers t hp hl,
    fun hl => link_down_ignores t hp hl, fun bme => d3hot_answers t hp bme, fun bme => returnToD0_answers t hp bme⟩,
    fun s t hp hl => functionLevelReset_answers t hp hl⟩

end Sys2Proof
end

