-- ==== Sys2Proof/Proofs/PortWrites.lean ====
section
/-! SUPPORT. What a register access through a port leaves as it is, besides the register and what its write means. -/

namespace Sys2Proof.Machine

theorem State.reSignal_moves (a : Nat) (s : State) : ∃ q, State.reSignal a s = { s with irqSeen := q } := ⟨_, rfl⟩

theorem State.usedBy_moves (p : Port) (s : State) : ∃ b, s.usedBy p = { s with hrv := { s.hrv with l12 := b } } := by
  unfold State.usedBy
  split
  · exact ⟨false, rfl⟩
  · exact ⟨s.hrv.l12, rfl⟩

@[simp] theorem State.rd_reSignal (a : Nat) (s : State) (f : Fld) : (State.reSignal a s).rd f = s.rd f := rfl

@[simp] theorem State.rd_usedBy (p : Port) (s : State) (f : Fld) : (s.usedBy p).rd f = s.rd f := State.rd_congr (usedBy_fields p s) f

end Sys2Proof.Machine

namespace Sys2Proof

open Machine

@[simp] theorem sameRegs_reSignal (s u : State) (a : Nat) (l : List Fld) : SameRegs s (State.reSignal a u) l ↔ SameRegs s u l := Iff.rfl

@[simp] theorem sameRegs_usedBy (s u : State) (p : Port) (l : List Fld) : SameRegs s (u.usedBy p) l ↔ SameRegs s u l := by simp [SameRegs]

@[simp] theorem sameRest_reSignal (s u : State) (a : Nat) : SameRest s (State.reSignal a u) ↔ SameRest s u := Iff.rfl

/-- The host's use of the link is no part of the rest. -/
theorem sameRest_used (s : State) (p : Port) : SameRest s (s.usedBy p) := by
  obtain ⟨b, h⟩ := s.usedBy_moves p
  rw [h]
  exact sameRest_mk s _ _ _ _

theorem sameRest_used_advance (s : State) (t : Nat) (p : Port) : SameRest s ((s.advance t).usedBy p) := by
  obtain ⟨b, h, _⟩ := s.advance_moves t
  obtain ⟨c, k⟩ := (s.advance t).usedBy_moves p
  rw [k, h]
  exact sameRest_mk s _ _ _ _

/-- A write to a register goes to its fields in turn. -/
theorem storeReg_flds {bm v a : Nat} {s : State} {l : List Fld} (h : (regAt a).map (fun x => x.1.flds x.2.1 x.2.2) = some l) :
    State.storeReg bm v a s = l.foldl (State.storeFld bm v) s := by
  obtain ⟨⟨r, i, j⟩, hr, rfl⟩ := Option.map_eq_some_iff.1 h
  exact storeReg_at bm v a s r i j hr

end Sys2Proof
end

