-- ==== Sys2Proof/Proofs/WarmResetSources.lean ====
section
/-! SUPPORT. Each source of a warm reset adds itself to what is asked for, and nothing else. -/

namespace Sys2Proof

open Machine

/-- What asking for a warm reset leaves. -/
def Asks (src : WarmSrc) (s : State) (t : Nat) (u : State) : Prop :=
  u.hks = { s.hks with warmReq := s.hks.warmReq ++ [src] } ∧ TimeAt s u t ∧ SameRegs s u [] ∧ SameRest s { u with hks := s.hks }

theorem askReset_asks {s : State} {src : WarmSrc} (t : Nat) (hr : s.hks.rails = true) (hn : src ∉ s.hks.warmReq) :
    Asks src s t (State.askReset src (s.advance t)) := by
  have h : State.askReset src (s.advance t) = { s.advance t with hks := { s.hks with warmReq := s.hks.warmReq ++ [src] } } := by
    simp [State.askReset, hr, hn]
  rw [h]
  refine ⟨rfl, State.advance_kt s t, ?_, ?_⟩
  · rw [sameRegs_mk, sameRegs_advance]
    exact sameRegs_self s []
  · obtain ⟨b, h, _⟩ := s.advance_moves t
    rw [h]
    exact sameRest_mk_hrv _ _ _ _

theorem modResetN_asks {s : State} (t : Nat) (hp : Powered s) (hl : s.lands = true) (hn : WarmSrc.pin ∉ s.hks.warmReq) :
    Answers (.modResetN t) s (Asks .pin s t) := by
  refine Answers.of_performOnAt (exec_modResetN _ _) hp ?_
  rw [State.resetPin, if_pos hl]
  exact askReset_asks t hp.2 hn

/-- A pin that boundary scan has taken asks for nothing (R440). -/
theorem reset_pins_scanned {s : State} (t : Nat) (hp : Powered s) (hl : s.lands = false) :
    Answers (.modResetN t) s (fun u => TimeAt s u t ∧ SameRegs s u [] ∧ SameRest s u)
      ∧ Answers (.pciePerstN t) s (fun u => TimeAt s u t ∧ SameRegs s u [] ∧ SameRest s u) := by
  have h1 : State.resetPin t s = s.advance t := by simp [State.resetPin, hl]
  have h2 : State.perst t s = s.advance t := by simp [State.perst, hl]
  refine ⟨Answers.of_performOnAt (exec_modResetN _ _) hp ?_, Answers.of_performOnAt (exec_pciePerstN _ _) hp ?_⟩
  · rw [h1]
    exact unchanged_advance s t
  · rw [h2]
    exact unchanged_advance s t

theorem pciePerstN_asks {s : State} (t : Nat) (hp : Powered s) (hl : s.lands = true) (hn : WarmSrc.perst ∉ s.hks.warmReq)
    (hs : s.hks.sel ≠ 2) (hw : s.on GLB_RST_CTL_perst_warm = true) : Answers (.pciePerstN t) s (Asks .perst s t) := by
  refine Answers.of_performOnAt (exec_pciePerstN _ _) hp ?_
  have h : State.perst t s = State.askReset .perst (s.advance t) := by simp [State.perst, hp.2, hs, hl, hw]
  rw [h]
  exact askReset_asks t hp.2 hn

/-- GLB_RST holds nothing: what is written to it is not stored. -/
theorem storeReg_glbRst (v : Nat) (s : State) : State.storeReg 0xFFFFFFFF v GLB_RST_key.addr s = s := by
  rw [storeReg_flds (l := [GLB_RST_key, GLB_RST_warm]) (by rfl)]
  simp only [List.foldl_cons, List.foldl_nil]
  rw [storeFld_word _ _ GLB_RST_key (by decide) (by decide), storeFld_word _ _ GLB_RST_warm (by decide) (by decide)]
  rfl

/-- The keyed write of GLB_RST, through a port other than the sequencer's. -/
theorem writeAt_glbRst {s : State} {p : Port} (v : Word) (t : Nat) (hp : p ≠ .script) (hr : Reaches p GLB_RST_key.addr s)
    (hk : GLB_RST_key.of v.toNat = 0xA5C3) (hw : GLB_RST_warm.of v.toNat = 1) :
    State.writeAt p GLB_RST_key.addr v.toNat t s = State.reSignal GLB_RST_key.addr
      { (s.advance t).usedBy p with hks := { ((s.advance t).usedBy p).hks with warmReq := ((s.advance t).usedBy p).hks.warmReq ++ [.soft] } } := by
  rw [writeAt_word p _ _ t s hr v.isLt (by decide) (by decide) (by simp [State.closed, GLB_RST_key]) (by rfl), storeReg_glbRst]
  refine congrArg (State.reSignal _) ?_
  show State.effGlb p GLB_RST_key.addr v.toNat _ = _
  rw [State.effGlb, if_neg (by decide), if_pos rfl, if_pos ⟨hk, hw, hp⟩]

theorem softReset_asks {s : State} {p : Port} (v : Word) (t : Nat) (hp : p ≠ .script) (hr : Reaches p GLB_RST_key.addr s)
    (hk : GLB_RST_key.of v.toNat = 0xA5C3) (hw : GLB_RST_warm.of v.toNat = 1) : Answers (.softReset p v t) s (Asks .soft s t) := by
  refine Answers.of_performAt (exec_softReset _ _ _ _) hr.1 ?_
  rw [writeAt_glbRst v t hp hr hk hw]
  obtain ⟨c, hc⟩ := (s.advance t).usedBy_moves p
  rw [hc]
  refine ⟨?_, State.advance_kt s t, ?_, ?_⟩
  · show { (s.advance t).hks with warmReq := (s.advance t).hks.warmReq ++ [WarmSrc.soft] } = _
    rw [State.advance_hks]
  · rw [sameRegs_reSignal, sameRegs_mk, sameRegs_mk, sameRegs_advance]
    exact sameRegs_self s []
  · obtain ⟨b, h, _⟩ := s.advance_moves t
    rw [h]
    exact sameRest_mk _ _ _ _ _

theorem clockFailureReset_asks {s : State} (x : Pll) (t : Nat) (hp : Powered s) (hn : WarmSrc.watchdog ∉ s.hks.warmReq) (he : s.on HKS_WDG_en = false)
    (hx : x.val ≠ 0) (hf : s.pllSt x.val = 7) (ht : (s.pll x.val).since + 1000 * usF ≤ t) :
    Answers (.clockFailureReset x t) s (Asks .watchdog s t) := by
  refine Answers.of_performOnAt (exec_clockFailureReset _ _ _) hp ?_
  have h : State.clockReset x.val t s = State.askReset .watchdog (s.advance t) := by
    rw [State.clockReset]
    exact if_pos ⟨by simpa using he, hx, by simpa [State.pllSt] using hf, by simpa [State.pll] using ht⟩
  rw [h]
  exact askReset_asks t hp.2 hn

/-- The watchdog has not been fed for its period, by the host or, once an ADPLL of the core or memory domain has FAILED, by the sequencer. -/
def Unfed (s : State) (t : Nat) : Prop :=
  s.on HKS_WDG_en = true ∧ s.mode ≠ 0 ∧
    (s.on HKS_WDG_host_feed = true ∧ s.hks.wdgAt + s.rd HKS_WDG_period * 1000 * usF ≤ t
      ∨ ∃ x : Pll, x.val ≠ 0 ∧ s.pllSt x.val = 7 ∧ max (s.pll x.val).since s.hks.wdgAt + s.rd HKS_WDG_period * 1000 * usF ≤ t)

theorem stopped_iff (s : State) (d t : Nat) :
    s.stopped d t = true ↔ ∃ x : Pll, x.val ≠ 0 ∧ s.pllSt x.val = 7 ∧ max (s.pll x.val).since s.hks.wdgAt + d ≤ t := by
  simp only [State.stopped, List.any_eq_true, List.mem_range, Bool.and_eq_true, decide_eq_true_eq]
  constructor
  · rintro ⟨x, hx, ⟨h0, h7⟩, ht⟩
    exact ⟨⟨x, hx⟩, h0, h7, ht⟩
  · rintro ⟨x, h0, h7, ht⟩
    exact ⟨x.val, x.isLt, ⟨h0, h7⟩, ht⟩

/-- What State.watchdog looks at, once the time has passed. -/
theorem unfed_iff {s : State} (t : Nat) (hr : s.hks.rails = true) :
    ((s.advance t).on HKS_WDG_en = true ∧ (s.advance t).mode ≠ 0 ∧ (s.advance t).hks.rails = true ∧
      (((s.advance t).on HKS_WDG_host_feed = true ∧ (s.advance t).hks.wdgAt + (s.advance t).rd HKS_WDG_period * 1000 * usF ≤ t)
        ∨ (s.advance t).stopped ((s.advance t).rd HKS_WDG_period * 1000 * usF) t = true)) ↔ Unfed s t := by
  simp only [stopped_iff, State.pllSt, State.pll, State.rd_advance, State.on_advance, State.mode_advance, State.advance_hks, State.advance_clk,
    hr, true_and]
  exact Iff.rfl

theorem watchdog_unfed {s : State} (t : Nat) (hr : s.hks.rails = true) (h : Unfed s t) :
    State.watchdog t s = State.askReset .watchdog ((s.advance t).bbox 0x04 0 (s.rd HKS_STAT_script)) := by
  rw [← State.rd_advance s t HKS_STAT_script]
  exact if_pos ((unfed_iff t hr).2 h)

theorem watchdog_fed {s : State} (t : Nat) (hr : s.hks.rails = true) (h : ¬Unfed s t) : State.watchdog t s = s.advance t :=
  if_neg fun k => h ((unfed_iff t hr).1 k)

theorem watchdogExpiry_asks {s : State} (t : Nat) (hp : Powered s) (hu : Unfed s t) (hn : WarmSrc.watchdog ∉ s.hks.warmReq) :
    Answers (.watchdogExpiry t) s fun u =>
       u.hks = { s.hks with warmReq := s.hks.warmReq ++ [.watchdog] } ∧ TimeAt s u t
         ∧ u.bbx = ((s.advance t).bbox 0x04 0 (s.rd HKS_STAT_script)).bbx
         ∧ SameRegs s u [BBX_STAT_count, BBX_HEAD_value, BBX_LOST_value] ∧ SameRest s { u with hks := s.hks, bbx := s.bbx } := by
  refine Answers.of_performOnAt (exec_watchdogExpiry _ _) hp ?_
  rw [watchdog_unfed t hp.2 hu]
  have h : State.askReset .watchdog ((s.advance t).bbox 0x04 0 (s.rd HKS_STAT_script))
      = { (s.advance t).bbox 0x04 0 (s.rd HKS_STAT_script) with hks := { s.hks with warmReq := s.hks.warmReq ++ [.watchdog] } } := by
    simp [State.askReset, hp.2, hn]
  rw [h]
  refine ⟨rfl, ?_, rfl, ?_, ?_⟩
  · show ((s.advance t).bbox 0x04 0 (s.rd HKS_STAT_script)).tmb.kt = _
    rw [State.bbox_tmb, State.advance_kt]
  · rw [sameRegs_mk, sameRegs_bbox _ _ _ (by decide), sameRegs_advance]
    exact sameRegs_self s _
  · obtain ⟨F, B, k⟩ := (s.advance t).bbox_moves 0x04 0 (s.rd HKS_STAT_script)
    obtain ⟨b, h, _⟩ := s.advance_moves t
    rw [k, h]
    exact sameRest_mk_hrv _ _ _ _

theorem watchdogExpiry_fed {s : State} (t : Nat) (hp : Powered s) (hu : ¬Unfed s t) :
    Answers (.watchdogExpiry t) s fun u => TimeAt s u t ∧ SameRegs s u [] ∧ SameRest s u := by
  refine Answers.of_performOnAt (exec_watchdogExpiry _ _) hp ?_
  rw [watchdog_fed t hp.2 hu]
  exact unchanged_advance s t

end Sys2Proof
end

