-- ==== Sys2Proof/Proofs/WarmResetCourse.lean ====
section
/-! SUPPORT. The course of a warm reset: what of the state it clears, and what each of its parts after the clearing leaves as it is. -/

namespace Sys2Proof.Machine

/-- The registers that a warm reset is stated by. -/
def watched : List Fld := [GLB_RST_CAUSE_pin, GLB_RST_CAUSE_soft, GLB_RST_CAUSE_watchdog, GLB_RST_CAUSE_perst, ACQ_STAT_state, GLB_STAT_active_mode,
  GLB_MODE_mode, HRV_LINK_up, HRV_LINK_width, HRV_LINK_speed]

/-- What the parts of a warm reset after the clearing leave as it is. -/
structure Watch (s u : State) : Prop where
  regs : ∀ f ∈ watched, u.rd f = s.rd f
  hks : u.hks = s.hks
  task : u.task = s.task
  hrv : u.hrv = s.hrv
  deep : u.deep = s.deep
  scr : u.scr = s.scr
  nv : u.nv = s.nv

theorem Watch.refl (s : State) : Watch s s := ⟨fun _ _ => rfl, rfl, rfl, rfl, rfl, rfl, rfl⟩

theorem Watch.trans {s u v : State} (h : Watch s u) (k : Watch u v) : Watch s v :=
  ⟨fun f hf => (k.regs f hf).trans (h.regs f hf), k.hks.trans h.hks, k.task.trans h.task, k.hrv.trans h.hrv,
    k.deep.trans h.deep, k.scr.trans h.scr, k.nv.trans h.nv⟩

/-- A register that is not watched may be written. -/
theorem Watch.wr {s u : State} {f : Fld} (h : Watch s u) (v : Nat) (hf : f.key ∉ watched.map Fld.key) : Watch s (u.wr f v) := by
  refine h.trans ⟨fun g hg => State.rd_wr_ne u f g v ?_, rfl, rfl, rfl, rfl, rfl, rfl⟩
  exact fun e => hf (e ▸ List.mem_map_of_mem hg)

/-- All but what is watched may change. -/
theorem Watch.mk' {s u v : State} (h : Watch s u) (hr : v.fields = u.fields) (hk : v.hks = u.hks)
    (ht : v.task = u.task) (hh : v.hrv = u.hrv) (hm : v.mems = u.mems) : Watch s v := by
  obtain ⟨_, hd, hs, hn⟩ : v.near = u.near ∧ v.deep = u.deep ∧ v.scr = u.scr ∧ v.nv = u.nv := by
    simpa only [State.mems, Prod.mk.injEq] using hm
  exact h.trans ⟨fun f _ => State.rd_congr hr f, hk, ht, hh, hd, hs, hn⟩

/-! ### The time base -/

theorem watch_retime (s : State) : Watch s s.retime := by
  unfold State.retime
  split
  · exact (Watch.refl s).mk' rfl rfl rfl rfl rfl
  · exact Watch.refl s

theorem watch_setLoop (s : State) (v : Int) : Watch s (s.setLoop v) := (Watch.refl s).mk' rfl rfl rfl rfl rfl

theorem watch_raiseEvent (s : State) (e : Nat) : Watch s (s.raiseEvent e) := by
  unfold State.raiseEvent
  split
  · exact (Watch.refl s).wr _ (by decide)
  · exact Watch.refl s

theorem watch_leaveLock (s : State) : Watch s s.leaveLock := by
  unfold State.leaveLock
  split
  · refine Watch.trans ?_ (watch_raiseEvent _ _)
    split
    · exact (Watch.refl s).mk' rfl rfl rfl rfl rfl
    · exact Watch.refl s
  · exact Watch.refl s

theorem watch_toHoldover (s : State) : Watch s s.toHoldover :=
  (((watch_leaveLock s).trans (watch_setLoop _ _)).wr (f := TMB_REF_STAT_state) 3 (by decide)).mk' rfl rfl rfl rfl rfl

theorem watch_refEval (s : State) : Watch s s.refEval := by
  unfold State.refEval
  dsimp only
  split
  · split
    · refine Watch.trans ?_ (watch_retime _)
      exact ((watch_setLoop s _).wr (f := TMB_REF_STAT_state) 1 (by decide)).mk' rfl rfl rfl rfl rfl
    · exact Watch.refl s
  · split
    · exact Watch.refl s
    · exact (watch_toHoldover s).trans (watch_retime _)

theorem watch_tmbWake (s : State) : Watch s s.tmbWake := by
  have h := watch_refEval { s with tmb := { s.tmb with trimHeld := none } }
  exact ((Watch.refl s).mk' (v := { s with tmb := { s.tmb with trimHeld := none } }) rfl rfl rfl rfl rfl).trans h

theorem watch_strapBits (s : State) : Watch s s.strapBits :=
  ((Watch.refl s).wr (f := HKS_BOOT_sel) _ (by decide)).wr (f := HKS_BOOT_sig_req) _ (by decide)

/-! ### The sample domain, with acquisition idle -/

theorem State.armed_of_idle {s : State} (h : s.acqSt = 0) : s.armed = false := by simp [State.armed, h]

theorem State.acqSt_regrid (s : State) (p k : Nat) : (s.regrid p k).acqSt = s.acqSt := rfl

theorem watch_domOpen (s : State) (t : Nat) (h : s.acqSt = 0) : Watch s (s.domOpen t) := by
  unfold State.domOpen
  split
  · exact Watch.refl s
  · rw [State.relockOpen, if_neg (by simp [State.armed, State.acqSt, State.regrid, show s.rd ACQ_STAT_state = 0 from h])]
    exact (Watch.refl s).mk' rfl rfl rfl rfl rfl

theorem watch_susDone (t : Nat) (l : List (Nat × Nat)) (s : State) : Watch s (l.foldl (fun s q => s.susDone t 3 q.1) s) := by
  induction l generalizing s with
  | nil => exact Watch.refl s
  | cons a r ih =>
    have h : Watch s (s.susDone t 3 a.1) := (Watch.refl s).mk' rfl rfl rfl rfl rfl
    exact h.trans (ih _)

theorem watch_domClose (s : State) (t c : Nat) (h : s.acqSt = 0) : Watch s (s.domClose t c) := by
  unfold State.domClose
  split
  · exact Watch.refl s
  · have hc : s.relockClose t c = s := by simp [State.relockClose, State.armed_of_idle h]
    have hw := (((watch_susDone t s.clk.dllSuspect s).wr (f := CLK_STAT_dll_lock) 0 (by decide)))
    rw [hc]
    dsimp only
    split
    · exact hw.mk' rfl rfl rfl rfl rfl
    · exact hw.mk' rfl rfl rfl rfl rfl

theorem watch_qualEnd (s : State) (t : Nat) : Watch s (s.qualEnd t) := by
  unfold State.qualEnd
  split
  · split
    · exact (Watch.refl s).mk' rfl rfl rfl rfl rfl
    · exact Watch.refl s
  · exact Watch.refl s

theorem watch_domEval (s : State) (t c : Nat) (h : s.acqSt = 0) : Watch s (s.domEval t c) := by
  have hq : (s.qualEnd t).acqSt = 0 := ((watch_qualEnd s t).regs ACQ_STAT_state (by decide)).trans h
  unfold State.domEval
  dsimp only
  split
  · exact (watch_qualEnd s t).trans (watch_domOpen _ t hq)
  · exact (watch_qualEnd s t).trans (watch_domClose _ t c hq)

/-! ### Start-up -/

theorem Watch.putPll {s u : State} (h : Watch s u) (x : Nat) (p : PllSt) : Watch s (u.putPll x p) := h.mk' rfl rfl rfl rfl rfl

theorem watch_pllTo (s : State) {x : Nat} (k : Nat) (h1 : (CLK_x_STAT_state x).key ∉ watched.map Fld.key)
    (h2 : (CLK_x_STAT_gated x).key ∉ watched.map Fld.key) : Watch s (s.pllTo x k) := by
  have h := ((Watch.refl s).wr (f := CLK_x_STAT_state x) k h1).wr (f := CLK_x_STAT_gated x) (b2n !(decide (k = 4) || decide (k = 5))) h2
  unfold State.pllTo
  dsimp only
  split
  · exact h.mk' rfl rfl rfl rfl rfl
  · exact h.mk' rfl rfl rfl rfl rfl

theorem watch_startLock (s : State) {x : Nat} (h1 : (CLK_x_STAT_state x).key ∉ watched.map Fld.key)
    (h2 : (CLK_x_STAT_gated x).key ∉ watched.map Fld.key) (h3 : (CLK_x_STAT_bt_idx x).key ∉ watched.map Fld.key) : Watch s (s.startLock x) := by
  unfold State.startLock
  dsimp only
  split
  · exact (((Watch.refl s).putPll x _).wr _ h3).trans (watch_pllTo _ _ h1 h2)
  · split
    · split
      · exact ((Watch.refl s).putPll x _).trans (watch_pllTo _ _ h1 h2)
      · exact ((Watch.refl s).putPll x _).trans (watch_pllTo _ _ h1 h2)
    · exact ((Watch.refl s).putPll x _).trans (watch_pllTo _ _ h1 h2)

theorem watch_stepPll (s : State) {x : Nat} (h : ∀ f ∈ [CLK_x_STAT_state x, CLK_x_STAT_gated x, CLK_x_STAT_bt_idx x, CLK_x_CTL_en x, CLK_x_TARGET_freq x],
    f.key ∉ watched.map Fld.key) : Watch s (s.stepPll x) := by
  simp only [List.forall_mem_cons, List.not_mem_nil, false_imp_iff, implies_true, and_true] at h
  obtain ⟨hs, hg, hb, he, ht⟩ := h
  have hw := (Watch.refl s).wr (f := CLK_x_CTL_en x) 1 he
  unfold State.stepPll
  dsimp only
  split
  · exact ((hw.putPll x _).wr _ ht).trans (watch_startLock _ hs hg hb)
  · split
    · exact (hw.putPll x _).trans (watch_pllTo _ _ hs hg)
    · exact hw

/-- Start-up stays where it waits for the memories to be cleared, or goes on to wait for the clocks. -/
theorem watch_bootNext (s : State) (h : s.hks.step = 2) : ∃ v, Watch s v ∧ (s.bootNext = v ∨ s.bootNext = v.toStep 3) := by
  unfold State.bootNext
  split
  · exact ⟨s, Watch.refl s, .inl rfl⟩
  · split
    · split
      · exact ⟨s, Watch.refl s, .inl rfl⟩
      · exact ⟨_, (watch_stepPll s (x := 1) (by decide)).trans (watch_stepPll _ (x := 2) (by decide)), .inr rfl⟩
    · next h3 => omega
    · exact ⟨s, Watch.refl s, .inl rfl⟩

/-! ### Before the clearing -/

theorem State.ringPut_moves (k t0 n a b : Nat) (s : State) : ∃ N P, State.ringPut k t0 n a b s = { s with near := N, poison := P } := by
  unfold State.ringPut
  split
  · exact ⟨s.near, s.poison, rfl⟩
  · exact ⟨_, _, rfl⟩

theorem State.ownerWrites_moves (k : Nat) (s : State) (o : Owner) : ∃ N P, State.ownerWrites k s o = { s with near := N, poison := P } := by
  unfold State.ownerWrites
  dsimp only
  split
  · split
    · exact ⟨s.near, s.poison, rfl⟩
    · split <;> exact State.ringPut_moves _ _ _ _ _ _
  · split
    · exact State.ringPut_moves _ _ _ _ _ _
    · exact ⟨s.near, s.poison, rfl⟩
  · split
    · exact State.ringPut_moves _ _ _ _ _ _
    · exact ⟨s.near, s.poison, rfl⟩
  · split
    · exact State.ringPut_moves _ _ _ _ _ _
    · exact ⟨s.near, s.poison, rfl⟩
  · exact ⟨s.near, s.poison, rfl⟩
  · exact ⟨s.near, s.poison, rfl⟩

theorem foldl_ownerWrites_moves (k : Nat) (l : List Owner) (s : State) :
    ∃ N P, l.foldl (State.ownerWrites k) s = { s with near := N, poison := P } := by
  induction l generalizing s with
  | nil => exact ⟨s.near, s.poison, rfl⟩
  | cons o r ih =>
    obtain ⟨N, P, h⟩ := s.ownerWrites_moves k o
    obtain ⟨N', P', h'⟩ := ih (State.ownerWrites k s o)
    exact ⟨N', P', by rw [List.foldl_cons, h', h]⟩

/-- The owners of the rings write to near memory. -/
theorem State.nearSync_moves (s : State) : ∃ N P A r, s.nearSync = { s with near := N, poison := P, acq := A, free := r } := by
  unfold State.nearSync
  split
  · exact ⟨s.near, s.poison, s.acq, s.free, rfl⟩
  · obtain ⟨N, P, h⟩ := foldl_ownerWrites_moves s.free [.capture 0, .capture 1, .capture 2, .capture 3, .edges 0, .edges 1, .edges 2, .edges 3, .interval,
      .calibration] s
    dsimp only
    rw [h]
    exact ⟨_, _, _, _, rfl⟩

theorem State.rakeRequeue_moves (s : State) (k : Nat) : ∃ F R, State.rakeRequeue k s = { s with fields := F, rak := R } := ⟨_, _, rfl⟩

theorem State.bbox_prep (s : State) (c x d : Nat) : (s.bbox c x d).bbx.prep = s.bbx.prep := by
  unfold State.bbox
  split <;> rfl

/-- An operation on the configuration memory that has not begun is not broken off. -/
theorem State.nvAbort_none {s : State} (h : s.hks.nvOp = none) : s.nvAbort = s := by simp [State.nvAbort, h]

theorem State.bbxPrepAbort_none {s : State} (h : s.bbx.prep = false) : s.bbxPrepAbort = s := by simp [State.bbxPrepAbort, h]

theorem State.nvPut_moves (a : Nat) (l : List Byte) (s : State) : ∃ n, State.nvPut a l s = { s with nv := n } := ⟨_, rfl⟩

theorem State.nvSpoil_moves (a n : Nat) (s : State) : ∃ m f, State.nvSpoil a n s = { s with nv := m, free := f } := ⟨_, _, rfl⟩

theorem State.nvAbort_moves (s : State) : ∃ F h n r, s.nvAbort = { s with fields := F, hks := h, nv := n, free := r } := by
  unfold State.nvAbort
  split
  · dsimp only
    split
    · exact ⟨_, _, s.nv, s.free, rfl⟩
    · exact ⟨_, _, _, _, rfl⟩
  · exact ⟨s.fields, s.hks, s.nv, s.free, rfl⟩

theorem State.bbxPrepAbort_moves (s : State) : ∃ F b n r, s.bbxPrepAbort = { s with fields := F, bbx := b, nv := n, free := r } := by
  unfold State.bbxPrepAbort
  split
  · exact ⟨s.fields, s.bbx, s.nv, s.free, rfl⟩
  · exact ⟨_, _, _, _, rfl⟩

/-- What a warm reset does before it clears: what it stores is stored. -/
def State.resetFlush (s : State) : State :=
  State.rakeRequeue 2 (State.rakeRequeue 1 (State.rakeRequeue 0 (s.nearSync.bbox 0x03 (causeBits s.hks.warmReq) s.acqSt)))

theorem State.resetFlush_moves (s : State) :
    ∃ F N P A r R B, s.resetFlush = { s with fields := F, near := N, poison := P, acq := A, free := r, rak := R, bbx := B } ∧ B.prep = s.bbx.prep := by
  obtain ⟨N, P, A, r, h⟩ := s.nearSync_moves
  obtain ⟨F, B, k⟩ := s.nearSync.bbox_moves 0x03 (causeBits s.hks.warmReq) s.acqSt
  have hp := s.nearSync.bbox_prep 0x03 (causeBits s.hks.warmReq) s.acqSt
  obtain ⟨F0, R0, h0⟩ := State.rakeRequeue_moves (s.nearSync.bbox 0x03 (causeBits s.hks.warmReq) s.acqSt) 0
  obtain ⟨F1, R1, h1⟩ := State.rakeRequeue_moves (State.rakeRequeue 0 (s.nearSync.bbox 0x03 (causeBits s.hks.warmReq) s.acqSt)) 1
  obtain ⟨F2, R2, h2⟩ := State.rakeRequeue_moves (State.rakeRequeue 1 (State.rakeRequeue 0 (s.nearSync.bbox 0x03 (causeBits s.hks.warmReq) s.acqSt))) 2
  refine ⟨F2, N, P, A, r, R2, B, ?_, ?_⟩
  · rw [State.resetFlush, h2, h1, h0, k, h]
  · rw [k, h] at hp
    exact hp

/-- What a warm reset breaks off of the configuration memory's operations. -/
theorem State.breakOff_moves (s : State) : ∃ F h b n r, s.nvAbort.bbxPrepAbort = { s with fields := F, hks := h, bbx := b, nv := n, free := r } := by
  obtain ⟨F, h, n, r, e⟩ := s.nvAbort_moves
  obtain ⟨F', b, n', r', e'⟩ := s.nvAbort.bbxPrepAbort_moves
  exact ⟨F', h, b, n', r', by rw [e', e]⟩

/-- The clearing puts every register of the core and memory domains back to its reset value. -/
theorem State.rd_warmClear {s : State} {f : Fld} (h : keepsWarm (f.key, 0) = false) : s.warmClear.rd f = f.rst := by
  have e := look_filter_out (fun k => keepsWarm (k, 0)) s.fields h
  show (look (s.fields.filter keepsWarm) f.key).getD f.rst = f.rst
  have hk : s.fields.filter keepsWarm = s.fields.filter fun q => keepsWarm (q.1, 0) := rfl
  rw [hk, e]
  rfl

/-- A cause of the reset is recorded. -/
theorem State.rd_causes (s : State) (c : Nat) :
    (s.causes c).rd GLB_RST_CAUSE_pin = (s.rd GLB_RST_CAUSE_pin ||| c % 2) % 2 ∧ (s.causes c).rd GLB_RST_CAUSE_soft = (s.rd GLB_RST_CAUSE_soft ||| c / 2 % 2) % 2
      ∧ (s.causes c).rd GLB_RST_CAUSE_watchdog = (s.rd GLB_RST_CAUSE_watchdog ||| c / 4 % 2) % 2
      ∧ (s.causes c).rd GLB_RST_CAUSE_perst = (s.rd GLB_RST_CAUSE_perst ||| c / 8 % 2) % 2 := by
  simp only [State.causes, State.orF_eq]
  refine ⟨?_, ?_, ?_, ?_⟩ <;> simp (disch := decide) only [State.rd_wr_ne, State.rd_wr_same] <;> rfl

/-- The registers that the recording of the causes writes. -/
def causeFlds : List Fld := [GLB_RST_CAUSE_pin, GLB_RST_CAUSE_soft, GLB_RST_CAUSE_watchdog, GLB_RST_CAUSE_perst]

theorem State.rd_causes_ne (s : State) (c : Nat) {f : Fld} (h : f.key ∉ causeFlds.map Fld.key) : (s.causes c).rd f = s.rd f := by
  simp only [causeFlds, List.map_cons, List.map_nil, List.mem_cons, List.not_mem_nil, or_false, not_or] at h
  obtain ⟨h1, h2, h3, h4⟩ := h
  simp only [State.causes, State.orF_eq]
  rw [State.rd_wr_ne _ _ _ _ (Ne.symm h4), State.rd_wr_ne _ _ _ _ (Ne.symm h3), State.rd_wr_ne _ _ _ _ (Ne.symm h2), State.rd_wr_ne _ _ _ _ (Ne.symm h1)]

theorem State.causes_moves (s : State) (c : Nat) : ∃ F, s.causes c = { s with fields := F } := ⟨_, rfl⟩

end Sys2Proof.Machine
end

