-- ==== Sys2Proof/Proofs/WarmResets.lean ====
section
/-! SUPPORT. What a warm reset leaves, and the statement of O5. -/

namespace Sys2Proof.Machine

theorem b2n_lt_two (b : Bool) : b2n b < 2 := by cases b <;> decide

theorem b2n_eq_one {b : Bool} : b2n b = 1 ↔ b = true := by cases b <;> decide

/-- The four causes stand in their bits. -/
theorem causeBits_bits (l : List WarmSrc) : causeBits l % 2 = b2n (l.contains .pin) ∧ causeBits l / 2 % 2 = b2n (l.contains .soft)
    ∧ causeBits l / 4 % 2 = b2n (l.contains .watchdog) ∧ causeBits l / 8 % 2 = b2n (l.contains .perst) := by
  have h1 := b2n_lt_two (l.contains .pin)
  have h2 := b2n_lt_two (l.contains .soft)
  have h3 := b2n_lt_two (l.contains .watchdog)
  have h4 := b2n_lt_two (l.contains .perst)
  simp only [causeBits]
  omega

theorem bit_causeBits_perst (l : List WarmSrc) : bit (causeBits l) 3 = true ↔ WarmSrc.perst ∈ l := by
  have h := (causeBits_bits l).2.2.2
  rw [bit, decide_eq_true_iff, show (2 : Nat) ^ 3 = 8 from rfl, h, b2n_eq_one, List.contains_iff_mem]

/-- A cause asked for reads 1 once recorded. -/
theorem or_one_mod_two (n : Nat) : (n ||| 1) % 2 = 1 := Nat.or_mod_two_eq_one.2 (.inr rfl)

/-- The state of a warm reset once all is cleared, and the causes recorded. -/
def State.cleared (s : State) : State := (s.resetFlush.nvAbort.bbxPrepAbort.warmClear).causes (causeBits s.hks.warmReq)

/-- The link after a warm reset by PCIE_PERST_N, or under strap 0b10. -/
def State.linkReset (c sel : Nat) (s : State) : State :=
  if bit c 3 then State.pcieReset true s else if sel = 2 then s.linkDown else s

/-- What follows once the sequence of start-up is to begin again. -/
def State.restarted (s old : State) (t : Nat) : State :=
  let s6 : State := if old.mode = 2 then s.wr CLK_STAT_dll_lock 0 else s
  let s7 : State := if old.mode = 0 then s6.tmbWake.wr NMC_STAT_retention 0 else s6
  (s7.strapBits.retime.domEval t 2).bootNext

theorem State.warmReset_eq {s : State} (sel : Nat) (sigN : Bool) (t : Nat) (hr : s.hks.rails = true) (hw : s.hks.warmReq ≠ []) :
    State.warmReset sel sigN t s =
      let s4 := State.linkReset (causeBits s.hks.warmReq) sel (s.advance t).cleared
      State.restarted { s4 with hks := s4.hks.warm sel sigN t } (s.advance t) t := by
  have h : ¬((s.advance t).hks.warmReq = [] ∨ (!(s.advance t).hks.rails) = true) := by simp [hw, hr]
  rw [State.warmReset, if_neg h, ← s.advance_hks t]
  rfl

/-! ### The clearing -/

theorem State.cleared_rst (s : State) {f : Fld} (h : keepsWarm (f.key, 0) = false) (hf : f.key ∉ causeFlds.map Fld.key) : s.cleared.rd f = f.rst := by
  rw [State.cleared, State.rd_causes_ne _ _ hf, State.rd_warmClear h]

theorem State.cleared_causes (s : State) :
    (WarmSrc.pin ∈ s.hks.warmReq → s.cleared.rd GLB_RST_CAUSE_pin = 1) ∧ (WarmSrc.soft ∈ s.hks.warmReq → s.cleared.rd GLB_RST_CAUSE_soft = 1)
      ∧ (WarmSrc.watchdog ∈ s.hks.warmReq → s.cleared.rd GLB_RST_CAUSE_watchdog = 1)
      ∧ (WarmSrc.perst ∈ s.hks.warmReq → s.cleared.rd GLB_RST_CAUSE_perst = 1) := by
  obtain ⟨h1, h2, h3, h4⟩ := State.rd_causes s.resetFlush.nvAbort.bbxPrepAbort.warmClear (causeBits s.hks.warmReq)
  obtain ⟨b1, b2, b3, b4⟩ := causeBits_bits s.hks.warmReq
  simp only [State.cleared]
  rw [h1, h2, h3, h4, b1, b2, b3, b4]
  refine ⟨fun h => ?_, fun h => ?_, fun h => ?_, fun h => ?_⟩ <;> rw [List.contains_iff_mem.2 h] <;> exact or_one_mod_two _

theorem State.cleared_keeps (s : State) : s.cleared.task = none ∧ s.cleared.hrv.link = s.hrv.link ∧ s.cleared.deep = s.deep ∧ s.cleared.scr = s.scr := by
  obtain ⟨F, N, P, A, r, R, B, h, _⟩ := s.resetFlush_moves
  obtain ⟨F', k, b, n, r', e⟩ := s.resetFlush.breakOff_moves
  obtain ⟨F'', c⟩ := s.resetFlush.nvAbort.bbxPrepAbort.warmClear.causes_moves (causeBits s.hks.warmReq)
  rw [State.cleared, c, e, h]
  exact ⟨rfl, rfl, rfl, rfl⟩

theorem State.cleared_nv {s : State} (ho : s.hks.nvOp = none) (hp : s.bbx.prep = false) : s.cleared.nv = s.nv := by
  obtain ⟨F, N, P, A, r, R, B, h, hB⟩ := s.resetFlush_moves
  obtain ⟨F', c⟩ := s.resetFlush.nvAbort.bbxPrepAbort.warmClear.causes_moves (causeBits s.hks.warmReq)
  have ho' : s.resetFlush.hks.nvOp = none := by rw [h]; exact ho
  have hp' : s.resetFlush.bbx.prep = false := by rw [h]; exact hB.trans hp
  rw [State.cleared, c, State.nvAbort_none ho', State.bbxPrepAbort_none hp', h]
  rfl

/-! ### The link -/

/-- The registers of Harvest are not among those: they are of another block. -/
theorem State.linkReset_rd (c sel : Nat) (s : State) {f : Fld} (hb : f.key / 8 / 0x10000 ≠ 0xE) (hf : f.key ∉ linkFlds.map Fld.key) :
    (State.linkReset c sel s).rd f = s.rd f := by
  simp only [linkFlds, List.map_cons, List.map_nil, List.mem_cons, List.not_mem_nil, or_false, not_or] at hf
  obtain ⟨h1, h2, h3⟩ := hf
  unfold State.linkReset
  split
  · rw [State.rd_pcieReset, if_neg hb]
  · split
    · rw [State.linkDown, State.rd_wr_ne _ _ _ _ (Ne.symm h3), State.rd_wr_ne _ _ _ _ (Ne.symm h2), State.rd_wr_ne _ _ _ _ (Ne.symm h1), State.rd_mk]
    · rfl

theorem State.linkReset_link (c sel : Nat) (s : State) (h : ∀ f ∈ linkFlds, s.rd f = 0) : ∀ f ∈ linkFlds, (State.linkReset c sel s).rd f = 0 := by
  unfold State.linkReset
  split
  · intro f hf
    rw [State.rd_pcieReset]
    simp only [linkFlds, List.mem_cons, List.not_mem_nil, or_false] at hf
    rcases hf with rfl | rfl | rfl <;> rfl
  · split
    · simp only [linkFlds, List.forall_mem_cons, List.not_mem_nil, false_imp_iff, implies_true, and_true]
      refine ⟨?_, ?_, ?_⟩ <;> simp (disch := decide) only [State.linkDown, State.rd_wr_ne, State.rd_wr_same] <;> rfl
    · exact h

theorem State.linkReset_keeps (c sel : Nat) (s : State) : (State.linkReset c sel s).hrv.link = (if bit c 3 = true ∨ sel = 2 then none else s.hrv.link)
    ∧ (State.linkReset c sel s).task = s.task ∧ (State.linkReset c sel s).deep = s.deep ∧ (State.linkReset c sel s).scr = s.scr
    ∧ (State.linkReset c sel s).nv = s.nv := by
  unfold State.linkReset
  split
  · next h => exact ⟨by rw [if_pos (.inl h)]; rfl, rfl, rfl, rfl, rfl⟩
  · split
    · next h => exact ⟨by rw [if_pos (.inr h)]; rfl, rfl, rfl, rfl, rfl⟩
    · next h k => exact ⟨by rw [if_neg (by simp [h, k])], rfl, rfl, rfl, rfl⟩

/-! ### The restart -/

theorem watch_restarted (s old : State) (t : Nat) (hi : s.acqSt = 0) (hs : s.hks.step = 2) :
    ∃ v, Watch s v ∧ (s.restarted old t = v ∨ s.restarted old t = v.toStep 3) := by
  have h6 : Watch s (if old.mode = 2 then s.wr CLK_STAT_dll_lock 0 else s) := by
    split
    · exact (Watch.refl s).wr _ (by decide)
    · exact Watch.refl s
  have h7 : ∀ v : State, Watch s v → Watch s (if old.mode = 0 then v.tmbWake.wr NMC_STAT_retention 0 else v) := fun v hv => by
    split
    · exact (hv.trans (watch_tmbWake v)).wr _ (by decide)
    · exact hv
  have h8 := ((h7 _ h6).trans (watch_strapBits _)).trans (watch_retime _)
  have h9 := h8.trans (watch_domEval _ t 2 ((h8.regs ACQ_STAT_state (by decide)).trans hi))
  obtain ⟨v, hv, he⟩ := watch_bootNext _ ((congrArg Hks.step h9.hks).trans hs)
  exact ⟨v, h9.trans hv, he⟩

end Sys2Proof.Machine

namespace Sys2Proof

open Machine

/-- What a warm reset leaves. -/
theorem warmReset_leaves {s : State} (sel : Nat) (sigN : Bool) (t : Nat) (hr : s.hks.rails = true) (hw : s.hks.warmReq ≠ []) :
    let u := State.warmReset sel sigN t s
    (WarmSrc.pin ∈ s.hks.warmReq → u.rd GLB_RST_CAUSE_pin = 1) ∧ (WarmSrc.soft ∈ s.hks.warmReq → u.rd GLB_RST_CAUSE_soft = 1)
      ∧ (WarmSrc.watchdog ∈ s.hks.warmReq → u.rd GLB_RST_CAUSE_watchdog = 1) ∧ (WarmSrc.perst ∈ s.hks.warmReq → u.rd GLB_RST_CAUSE_perst = 1)
      ∧ u.acqSt = 0 ∧ u.mode = 1 ∧ u.rd GLB_MODE_mode = 1 ∧ u.hks.warmReq = [] ∧ u.hks.script = none ∧ u.task = none
      ∧ u.rd HRV_LINK_up = 0 ∧ u.rd HRV_LINK_width = 0 ∧ u.rd HRV_LINK_speed = 0
      ∧ u.hrv.link = (if WarmSrc.perst ∈ s.hks.warmReq ∨ sel = 2 then none else s.hrv.link)
      ∧ u.deep = s.deep ∧ u.scr = s.scr
      ∧ (s.hks.nvOp = none → s.bbx.prep = false → u.nv = s.nv) := by
  intro u
  let c := causeBits s.hks.warmReq
  let s3 := (s.advance t).cleared
  let s4 := State.linkReset c sel s3
  let s5 : State := { s4 with hks := s4.hks.warm sel sigN t }
  have hu : u = s5.restarted (s.advance t) t := State.warmReset_eq sel sigN t hr hw
  have hrd : ∀ f ∈ [ACQ_STAT_state, GLB_STAT_active_mode, GLB_MODE_mode], s5.rd f = f.rst := fun f hf => by
    have h4 : s4.rd f = s3.rd f := by
      simp only [List.mem_cons, List.not_mem_nil, or_false] at hf
      rcases hf with rfl | rfl | rfl <;> exact State.linkReset_rd c sel s3 (by decide) (by decide)
    rw [State.rd_mk, h4]
    simp only [List.mem_cons, List.not_mem_nil, or_false] at hf
    rcases hf with rfl | rfl | rfl <;> exact State.cleared_rst _ (by decide) (by decide)
  obtain ⟨hpin, hsoft, hwdg, hperst⟩ := (s.advance t).cleared_causes
  obtain ⟨htask, hlink, hdeep, hscr⟩ := (s.advance t).cleared_keeps
  obtain ⟨klink, ktask, kdeep, kscr, knv⟩ := State.linkReset_keeps c sel s3
  have hcause : ∀ f ∈ causeFlds, s5.rd f = s3.rd f := fun f hf => by
    simp only [causeFlds, List.mem_cons, List.not_mem_nil, or_false] at hf
    rcases hf with rfl | rfl | rfl | rfl <;> exact State.linkReset_rd c sel s3 (by decide) (by decide)
  have hl : ∀ f ∈ linkFlds, s5.rd f = 0 := State.linkReset_link c sel s3 fun f hf => by
    simp only [linkFlds, List.mem_cons, List.not_mem_nil, or_false] at hf
    rcases hf with rfl | rfl | rfl <;> exact State.cleared_rst _ (by decide) (by decide)
  obtain ⟨v, hv, he⟩ := watch_restarted s5 (s.advance t) t (hrd ACQ_STAT_state (by decide)) rfl
  have hreg : ∀ f ∈ watched, u.rd f = s5.rd f := fun f hf => by
    rw [hu]
    rcases he with e | e <;> rw [e] <;> exact hv.regs f hf
  have hrest : u.hks.warmReq = v.hks.warmReq ∧ u.hks.script = v.hks.script ∧ u.task = v.task ∧ u.hrv = v.hrv ∧ u.deep = v.deep ∧ u.scr = v.scr
      ∧ u.nv = v.nv := by
    rw [hu]
    rcases he with e | e <;> rw [e] <;> exact ⟨rfl, rfl, rfl, rfl, rfl, rfl, rfl⟩
  obtain ⟨e1, e2, e3, e4, e5, e6, e7⟩ := hrest
  refine ⟨fun h => ?_, fun h => ?_, fun h => ?_, fun h => ?_, ?_, ?_, ?_, ?_, ?_, ?_, ?_, ?_, ?_, ?_, ?_, ?_, fun ho hp => ?_⟩
  · rw [hreg _ (by decide), hcause _ (by decide)]
    exact hpin (by rwa [State.advance_hks])
  · rw [hreg _ (by decide), hcause _ (by decide)]
    exact hsoft (by rwa [State.advance_hks])
  · rw [hreg _ (by decide), hcause _ (by decide)]
    exact hwdg (by rwa [State.advance_hks])
  · rw [hreg _ (by decide), hcause _ (by decide)]
    exact hperst (by rwa [State.advance_hks])
  · exact (hreg ACQ_STAT_state (by decide)).trans (hrd _ (by decide))
  · exact (hreg GLB_STAT_active_mode (by decide)).trans (hrd _ (by decide))
  · exact (hreg GLB_MODE_mode (by decide)).trans (hrd _ (by decide))
  · rw [e1, hv.hks]
    rfl
  · rw [e2, hv.hks]
    rfl
  · rw [e3, hv.task]
    exact ktask.trans htask
  · rw [hreg _ (by decide), hl _ (by decide)]
  · rw [hreg _ (by decide), hl _ (by decide)]
  · rw [hreg _ (by decide), hl _ (by decide)]
  · rw [e4, hv.hrv]
    show s4.hrv.link = _
    rw [klink, hlink, State.advance_hrv]
    simp only [c, bit_causeBits_perst]
  · rw [e5, hv.deep]
    exact kdeep.trans (hdeep.trans (s.advance_deep t))
  · rw [e6, hv.scr]
    exact kscr.trans (hscr.trans (s.advance_scr t))
  · rw [e7, hv.nv]
    exact knv.trans ((State.cleared_nv (by rwa [State.advance_hks]) (by rwa [State.advance_bbx])).trans (s.advance_nv t))

/-- Settles O5: each source by what it adds to the requests, and the reset itself by what it clears, and what comes after the clearing. -/
theorem warmResets : Obligations.WarmResets := by
  unfold Obligations.WarmResets
  refine ⟨fun s t hp => ⟨fun hl hn => modResetN_asks t hp hl hn, fun hl => reset_pins_scanned t hp hl,
    fun hl hn hs hw => pciePerstN_asks t hp hl hn hs hw, fun p v hps hr _ hk hw => softReset_asks v t hps hr hk hw,
    fun x hn he hx hf ht => clockFailureReset_asks x t hp hn he hx hf ht, fun hu hn => watchdogExpiry_asks t hp hu hn,
    fun hu => watchdogExpiry_fed t hp hu⟩, fun s sel sigN t hp hw => ?_⟩
  refine Answers.of_performOnAt (exec_warmReset _ _ _ _) hp ?_
  have h := warmReset_leaves sel.val sigN t hp.2 hw
  obtain ⟨h1, h2, h3, h4, h5, h6, h7, h8, h9, h10, h11, h12, h13, h14, hrest⟩ := h
  refine ⟨h1, h2, h3, h4, h5, h6, h7, h8, h9, h10, h11, h12, h13, ?_, hrest⟩
  have hsel : sel = 2 ↔ sel.val = 2 := Fin.ext_iff
  simp only [hsel]
  exact h14

end Sys2Proof
end

