-- ==== Sys2Proof/Proofs/ModeChanges.lean ====
section
/-! SUPPORT. A mode that GLB_MODE holds beyond its width is cut when it takes effect. -/

namespace Sys2Proof

open Machine

/-- The registers that keep a machine still by reading 0. -/
def stillFlds : List Fld := [CLK_HOP_pending, GLB_STAT_mode_pend, GLB_STAT_ret_pend, ACQ_STAT_state, CLK_STAT_s_src_act]

/-- A machine with the parts of a still one, in whose registers nothing waits, is still. -/
theorem Still.of_zero {s u : State} (h : Still s) (hks : u.hks.waking = s.hks.waking ∧ u.hks.step = s.hks.step ∧ u.hks.hostReq = s.hks.hostReq
    ∧ u.hks.script = s.hks.script ∧ u.hks.runReq = s.hks.runReq) (held : u.held = s.held) (clk : u.clk.hopWait = s.clk.hopWait)
    (hrv : { u.hrv with l12 := s.hrv.l12 } = s.hrv) (regs : ∀ f ∈ stillFlds, u.rd f = 0) : Still u := by
  simp only [stillFlds, List.forall_mem_cons, List.not_mem_nil, false_imp_iff, implies_true, and_true] at regs
  obtain ⟨hp, hm, hr, ha, hx⟩ := regs
  obtain ⟨k1, k2, k3, k4, k5⟩ := hks
  have hri : u.hrv.rings = s.hrv.rings := (congrArg Hrv.rings hrv :)
  have hbm : u.hrv.bme = s.hrv.bme := (congrArg Hrv.bme hrv :)
  have hme : u.hrv.memHeld = s.hrv.memHeld := (congrArg Hrv.memHeld hrv :)
  exact ⟨k1 ▸ h.waking, k2 ▸ h.step2, k2 ▸ h.step3, k3 ▸ h.hostReq, held ▸ h.held, k4 ▸ h.script, k5 ▸ h.runReq, clk ▸ h.hopWait,
    hp, hri ▸ h.rings, hm, hr, hbm ▸ h.bme, ha, hme ▸ h.memHeld, hx⟩

/-- A powered machine in M1 that waits to change to the mode of GLB_MODE, which holds one bit more than it is wide. -/
def overMode : State :=
  { State.reset with hks := { State.reset.hks with rails := true }, fields := [(GLB_MODE_mode.key, 8 + 3), (GLB_STAT_mode_pend.key, 1)] }

/-- Nothing waits in it once the change has taken place. -/
theorem still_modeChange_overMode : Still (State.modeChange 0 overMode) := by constructor <;> decide

theorem slotFree_overMode : SlotFree overMode := fun _ hc => nomatch hc

theorem exec_modeChange_overMode : exec (.modeChange 0) overMode = .next (State.settle overMode (State.modeChange 0 overMode)) := by
  rw [exec_modeChange, State.performOnAt, performOn_next _ _ ⟨rfl, rfl⟩, reached_free _ _ slotFree_overMode]

/-- Refutes O7: the mode that takes effect is cut to 3 bits, where the statement has all that GLB_MODE.mode holds: they differ on a state
(`overMode`) whose field holds more than its width. -/
theorem not_modeWriteAndChange : ¬ Obligations.ModeWriteAndChange := by
  unfold Obligations.ModeWriteAndChange
  intro h
  obtain ⟨hchange, _⟩ := h.2 overMode 0 ⟨rfl, rfl⟩ rfl (by decide) (by decide) (by decide) (by decide)
  obtain ⟨u, hu, hmode, _, hpend, hret, hhks, _, hframe⟩ := (hchange (by decide)).becomes slotFree_overMode exec_modeChange_overMode
  obtain ⟨hregs, _, hrest⟩ := hframe rfl rfl rfl
  rw [sameRest_iff] at hrest
  obtain ⟨_, _, held, _, _, _, _, _, clk, _, _, _, _, _, _, _, _, hrv, _⟩ := hrest
  have hstill : Still u := by
    refine still_modeChange_overMode.of_zero (by rw [hhks]; exact ⟨rfl, rfl, rfl, rfl, rfl⟩) held (congrArg Clk.hopWait clk) hrv ?_
    simp only [stillFlds, List.forall_mem_cons, List.not_mem_nil, false_imp_iff, implies_true, and_true]
    exact ⟨hregs CLK_HOP_pending (by decide), hpend, hret, hregs ACQ_STAT_state (by decide), hregs CLK_STAT_s_src_act (by decide)⟩
  have hsame := rd_of_settle hu hstill still_modeChange_overMode rfl GLB_STAT_active_mode
  exact absurd (hmode.symm.trans hsame) (by decide)

end Sys2Proof
end

