-- ==== Sys2Proof/Proofs/ModeKept.lean ====
section
/-! SUPPORT. What leaves the registers of block GLB (R6) as they are, the mode in effect among them: the capture engine and a probe check that
ends. -/

namespace Sys2Proof.Machine

/-- The fields of block GLB, the first 64 KiB. -/
def State.glb (s : State) : List (Nat × Nat) := s.fields.filter fun p => decide (p.1 < 0x80000)

@[simp] theorem State.glb_mk (s : State) (b c h fr g i t d ta cl tr ac hd re si ti dm ra hr st gr hk pw bb jt near deep scr nv po dp ce mt mp mi ir pe) :
    State.glb (State.mk b s.fields c h fr g i t d ta cl tr ac hd re si ti dm ra hr st gr hk pw bb jt near deep scr nv po dp ce mt mp mi ir pe) = s.glb := rfl

theorem rd_of_glb {s u : State} (h : u.glb = s.glb) {f : Fld} (hf : f.key < 0x80000) : u.rd f = s.rd f := by
  have hk : decide (f.key < 0x80000) = true := by simp [hf]
  unfold State.rd
  rw [← look_filter (fun k => decide (k < 0x80000)) u.fields hk, ← look_filter (fun k => decide (k < 0x80000)) s.fields hk]
  exact congrArg (fun l => (look l f.key).getD f.rst) h

theorem mode_of_glb {s u : State} (h : u.glb = s.glb) : u.mode = s.mode := rd_of_glb h (by decide)

/-- Registers of other blocks may be written. -/
@[simp] theorem State.wr_glb (s : State) {f : Fld} (v : Nat) (h : 0x80000 ≤ f.key) : (s.wr f v).glb = s.glb := by
  have hp : decide (f.key < 0x80000) = false := by simp [h]
  unfold State.glb State.wr
  split
  · exact filter_del (fun k => decide (k < 0x80000)) _ hp
  · exact filter_ins (fun k => decide (k < 0x80000)) _ _ hp

@[simp] theorem State.wrS_glb (s : State) {f : Fld} (v : Int) (h : 0x80000 ≤ f.key) : (s.wrS f v).glb = s.glb := State.wr_glb s _ h

/-- What leaves all that stands apart from the capture engine leaves the registers of GLB. -/
theorem glb_of_unhdg {s u : State} (h : u.apart.unopen.unstat.untrl.unhdg = s.apart.unopen.unstat.untrl.unhdg) : u.glb = s.glb := by
  have hf : ∀ l : List (Nat × Nat), l.filter (fun p => decide (p.1 < 0x80000))
      = (hdgless (trlless (statless (openless (apartRegs l))))).filter fun p => decide (p.1 < 0x80000) := fun l => by
    simp only [apartRegs, openless, statless, trlless, hdgless, List.filter_filter]
    refine List.filter_congr fun p _ => ?_
    by_cases hp : p.1 < 0x80000
    · obtain ⟨h1, h2, h3, h4, h5⟩ := keys_low (Nat.lt_trans hp (by decide : 0x80000 < 0x280000))
      simp [hp, h1, h2, h3, h4, h5]
    · simp [hp]
  rw [State.glb, State.glb, hf u.fields, hf s.fields]
  exact congrArg (fun l => l.filter fun p => decide (p.1 < 0x80000)) (congrArg Apart.regs h :)

theorem glb_of_apart {s u : State} (h : u.apart = s.apart) : u.glb = s.glb := glb_of_unhdg (congrArg (fun a => a.unopen.unstat.untrl.unhdg) h)

theorem glb_of_unopen {s u : State} (h : u.apart.unopen = s.apart.unopen) : u.glb = s.glb := glb_of_unhdg (congrArg (fun a => a.unstat.untrl.unhdg) h)

@[simp] theorem foldl_glb {α : Type} (g : State → α → State) (l : List α) (s : State) (h : ∀ u a, (g u a).glb = u.glb) : (l.foldl g s).glb = s.glb :=
  foldl_view State.glb g l s h

/-! ### A probe check that ends -/

@[simp] theorem State.advance_glb (s : State) (t : Nat) : (s.advance t).glb = s.glb := by
  obtain ⟨b, h, _⟩ := s.advance_moves t
  rw [h, State.glb_mk]

theorem Fld.glb_le {f : Fld} (h : 0x10000 ≤ f.addr) : 0x80000 ≤ f.key := by simp only [Fld.key]; omega

@[simp] theorem State.pchkStore_glb (s : State) (e : Nat × Nat × Int × Int) : (s.pchkStore e).glb = s.glb := by
  have h1 : 0x80000 ≤ (INP_PCHK_verdict e.1).key := Fld.glb_le (by simp only [INP_PCHK_verdict]; omega)
  have h2 : 0x80000 ≤ (INP_PCHK_dv e.1).key := Fld.glb_le (by simp only [INP_PCHK_dv]; omega)
  have h3 : 0x80000 ≤ (INP_PCHK_V_v0 e.1).key := Fld.glb_le (by simp only [INP_PCHK_V_v0]; omega)
  have h4 : 0x80000 ≤ (INP_PCHK_V_v1 e.1).key := Fld.glb_le (by simp only [INP_PCHK_V_v1]; omega)
  simp [State.pchkStore, h1, h2, h3, h4]

@[simp] theorem State.dskCompute_glb (s : State) (c : Nat) : (s.dskCompute c).glb = s.glb := by
  have h1 : 0x80000 ≤ (DSK_COEF_d c).key := Fld.glb_le (by simp only [DSK_COEF_d]; omega)
  have h2 : 0x80000 ≤ (DSK_COEF_clamped c).key := Fld.glb_le (by simp only [DSK_COEF_clamped]; omega)
  simp [State.dskCompute, h1, h2]

@[simp] theorem State.dskTake_glb (s : State) (p : Pend) : (s.dskTake p).glb = s.glb := by
  have h1 : 0x80000 ≤ (DSK_CAL_d p.ch).key := Fld.glb_le (by simp only [DSK_CAL_d]; omega)
  have h2 : 0x80000 ≤ (DSK_GCNT_result p.ch).key := Fld.glb_le (by simp only [DSK_GCNT_result]; omega)
  simp only [State.dskTake]
  (repeat' split) <;> simp [h1, h2]

@[simp] theorem State.dskApply_glb (s : State) : s.dskApply.1.glb = s.glb := by simp [State.dskApply]

@[simp] theorem State.bbox_glb (s : State) (c x d : Nat) : (s.bbox c x d).glb = s.glb := by
  unfold State.bbox State.addSat
  split <;> simp (disch := decide)

@[simp] theorem State.laneTake_glb (s : State) (l : Lane) : (s.laneTake l).glb = s.glb := by
  have h1 : 0x80000 ≤ (PWR_LANEg_used (l.ch / 64)).key := Fld.glb_le (by simp only [PWR_LANEg_used]; omega)
  have h2 : 0x80000 ≤ (PWR_LANEg_spares (l.ch / 64)).key := Fld.glb_le (by simp only [PWR_LANEg_spares]; omega)
  have h3 : 0x80000 ≤ (PWR_LANEg_cal (l.ch / 64)).key := Fld.glb_le (by simp only [PWR_LANEg_cal]; omega)
  simp [State.laneTake, State.putLanes, State.laneRegs, h1, h2, h3]

@[simp] theorem State.laneSwap_glb (s : State) : s.laneSwap.1.glb = s.glb := by simp [State.laneSwap]

@[simp] theorem State.retime_glb (s : State) : s.retime.glb = s.glb := by
  unfold State.retime State.regrid
  split <;> rfl

@[simp] theorem State.timStart_glb (s : State) (t : Nat) : (s.timStart t).glb = s.glb := by
  unfold State.timStart
  split
  · rfl
  · simp (disch := decide)

@[simp] theorem State.sivSeq_glb (s : State) (p : Nat) : (s.sivSeq p).glb = s.glb := by
  unfold State.sivSeq State.setSiv
  split
  · rfl
  · simp (disch := decide)

@[simp] theorem State.takeDelays_glb (s : State) : s.takeDelays.glb = s.glb := glb_of_apart (State.takeDelays_apart s)
@[simp] theorem State.trlStart_glb (s : State) (k : Nat) : (s.trlStart k).glb = s.glb := glb_of_unhdg (congrArg Apart.unhdg (State.trlStart_untrl s k))
@[simp] theorem State.openSeg_glb (s : State) (g : Seg) (n : Nat) (l : List Nat) : (s.openSeg g n l).glb = s.glb :=
  glb_of_unopen (State.openSeg_unopen s g n l)
@[simp] theorem State.redStart_glb (s : State) (p : Nat) : (s.redStart p).glb = s.glb := glb_of_apart (State.redStart_apart s p)
@[simp] theorem State.event_glb (s : State) (r : Rec) : (s.event r).glb = s.glb := glb_of_apart (State.event_apart s r)

@[simp] theorem State.startCapture_glb (s : State) (t : Nat) : (s.startCapture t).glb = s.glb := by
  simp only [State.startCapture, State.ringStart]
  (repeat' split) <;> simp (disch := decide)

@[simp] theorem State.pchkEnd_glb (s : State) (t : Nat) (b : Bool) : (s.pchkEnd t b).glb = s.glb := by
  have h1 : ∀ c, 0x80000 ≤ (INP_PCHK_verdict c).key := fun c => Fld.glb_le (by simp only [INP_PCHK_verdict]; omega)
  have h2 : ∀ (l : List Nat) (s : State), (l.foldl (fun s ch => s.wr (INP_PCHK_verdict ch) 0) s).glb = s.glb := fun l s => by simp [h1]
  have h3 : ∀ (l : List (Nat × Nat × Int × Int)) (s : State), (l.foldl State.pchkStore s).glb = s.glb := fun l s => by simp
  simp only [State.pchkEnd]
  (repeat' split) <;> simp (disch := decide) [h2, h3]

/-- A slot of a probe check that has ended by the time of a command leaves the mode. -/
@[simp] theorem State.reached_glb (s : State) (t : Nat) : (s.reached t).glb = s.glb := by
  simp only [State.reached, State.pchkSlot]
  (repeat' split) <;> simp

end Sys2Proof.Machine
end

