-- ==== Sys2Proof/Proofs/LockStarts.lean ====
section
/-! SUPPORT. The start of a lock, and what of an ADPLL's state goes to where. -/

namespace Sys2Proof.Machine

/-! ### One ADPLL -/

theorem State.pllTo_moves (s : State) (x k : Nat) : ∃ F C T, s.pllTo x k = { s with fields := F, clk := C, trl := T } := by
  unfold State.pllTo
  dsimp only
  split
  · exact ⟨_, _, _, rfl⟩
  · exact ⟨_, _, s.trl, rfl⟩

theorem State.rd_pllTo (s : State) (x k : Nat) {f : Fld} (h : f.key ≠ (CLK_x_STAT_gated x).key) :
    (s.pllTo x k).rd f = (s.wr (CLK_x_STAT_state x) k).rd f := by
  have e : ∀ (v : Nat) (p : PllSt), (((s.wr (CLK_x_STAT_state x) k).wr (CLK_x_STAT_gated x) v).putPll x p).rd f = (s.wr (CLK_x_STAT_state x) k).rd f :=
    fun v p => State.rd_wr_ne _ _ _ _ (Ne.symm h)
  unfold State.pllTo
  dsimp only
  split
  · exact e _ { s.pll x with since := s.tmb.kt }
  · exact e _ { s.pll x with since := s.tmb.kt }

theorem CLK_x_STAT_state_ne_gated (x y : Nat) : (CLK_x_STAT_state y).key ≠ (CLK_x_STAT_gated x).key := by
  simp only [Fld.key, CLK_x_STAT_state, CLK_x_STAT_gated]; omega
theorem CLK_x_STAT_state_ne_idx (x y : Nat) : (CLK_x_STAT_state y).key ≠ (CLK_x_STAT_bt_idx x).key := by
  simp only [Fld.key, CLK_x_STAT_state, CLK_x_STAT_bt_idx]; omega
theorem CLK_x_STAT_state_inj {x y : Nat} (h : y ≠ x) : (CLK_x_STAT_state y).key ≠ (CLK_x_STAT_state x).key := by
  simp only [Fld.key, CLK_x_STAT_state]; omega

/-- The state an ADPLL has gone to, and those of the others. -/
theorem State.pllSt_pllTo (s : State) (x k y : Nat) : (s.pllTo x k).pllSt y = if y = x then k % 8 else s.pllSt y := by
  rw [State.pllSt, State.rd_pllTo s x k (CLK_x_STAT_state_ne_gated x y)]
  split
  · next h => rw [h, State.rd_wr_same]; rfl
  · next h => exact State.rd_wr_ne _ _ _ _ (Ne.symm (CLK_x_STAT_state_inj h))

/-- The registers that the start of ADPLL `x` writes. -/
def lockFlds (x : Nat) : List Fld := [CLK_x_STAT_state x, CLK_x_STAT_gated x, CLK_x_STAT_bt_idx x]

/-- A start of a lock: the ADPLL's own state, the index of its entry, and BAND_SEARCH or ACQUIRE. -/
structure Starts (s : State) (x : Nat) (u : State) : Prop where
  moves : ∃ F C T, u = { s with fields := F, clk := C, trl := T }
  regs : ∀ f : Fld, f.key ∉ (lockFlds x).map Fld.key → u.rd f = s.rd f
  state : u.pllSt x = 1 ∨ u.pllSt x = 2
  others : ∀ y, y ≠ x → u.pllSt y = s.pllSt y

theorem starts_pllTo (s : State) (x : Nat) (p : PllSt) {k : Nat} (hk : k = 1 ∨ k = 2) : Starts s x ((s.putPll x p).pllTo x k) := by
  obtain ⟨F, C, T, h⟩ := (s.putPll x p).pllTo_moves x k
  refine ⟨⟨F, C, T, h⟩, fun f hf => ?_, ?_, fun y hy => ?_⟩
  · simp only [lockFlds, List.map_cons, List.map_nil, List.mem_cons, List.not_mem_nil, or_false, not_or] at hf
    rw [State.rd_pllTo _ _ _ hf.2.1, State.rd_wr_ne _ _ _ _ (Ne.symm hf.1)]
    rfl
  · rw [State.pllSt_pllTo, if_pos rfl]
    omega
  · rw [State.pllSt_pllTo, if_neg hy]
    rfl

/-- The same where the index of an entry is noted first. -/
theorem starts_pllTo_idx (s : State) (x : Nat) (p : PllSt) (i : Nat) {k : Nat} (hk : k = 1 ∨ k = 2) :
    Starts s x (((s.putPll x p).wr (CLK_x_STAT_bt_idx x) i).pllTo x k) := by
  obtain ⟨F, C, T, h⟩ := ((s.putPll x p).wr (CLK_x_STAT_bt_idx x) i).pllTo_moves x k
  refine ⟨⟨F, C, T, h⟩, fun f hf => ?_, ?_, fun y hy => ?_⟩
  · simp only [lockFlds, List.map_cons, List.map_nil, List.mem_cons, List.not_mem_nil, or_false, not_or] at hf
    rw [State.rd_pllTo _ _ _ hf.2.1, State.rd_wr_ne _ _ _ _ (Ne.symm hf.1), State.rd_wr_ne _ _ _ _ (Ne.symm hf.2.2)]
    rfl
  · rw [State.pllSt_pllTo, if_pos rfl]
    omega
  · rw [State.pllSt_pllTo, if_neg hy]
    exact State.rd_wr_ne _ _ _ _ (Ne.symm (CLK_x_STAT_state_ne_idx x y))

theorem starts_startLock (s : State) (x : Nat) : Starts s x (s.startLock x) := by
  unfold State.startLock
  dsimp only
  split
  · exact starts_pllTo_idx s x _ _ (.inr rfl)
  · split
    · split
      · exact starts_pllTo s x _ (.inr rfl)
      · exact starts_pllTo s x _ (.inl rfl)
    · exact starts_pllTo s x _ (.inl rfl)

theorem starts_startAgain (s : State) (x : Nat) : Starts s x (s.startAgain x) := by
  unfold State.startAgain
  dsimp only
  split
  · exact starts_pllTo s x _ (.inr rfl)
  · split
    · exact starts_pllTo s x _ (.inr rfl)
    · exact starts_startLock s x

/-! ### All three -/

/-- Those of the three ADPLLs that are OFF start again. -/
def State.restartOff (s : State) (l : List Nat) : State := l.foldl (fun (s : State) x => if s.pllSt x = 0 then s.startAgain x else s) s

theorem State.restartOff_moves (l : List Nat) (s : State) : ∃ F C T, s.restartOff l = { s with fields := F, clk := C, trl := T } := by
  induction l generalizing s with
  | nil => exact ⟨s.fields, s.clk, s.trl, rfl⟩
  | cons x r ih =>
    by_cases h : s.pllSt x = 0
    · obtain ⟨F, C, T, e⟩ := (starts_startAgain s x).moves
      obtain ⟨F', C', T', e'⟩ := ih (s.startAgain x)
      exact ⟨F', C', T', by rw [State.restartOff, List.foldl_cons, if_pos h]; rw [State.restartOff] at e'; rw [e', e]⟩
    · obtain ⟨F', C', T', e'⟩ := ih s
      exact ⟨F', C', T', by rw [State.restartOff, List.foldl_cons, if_neg h]; rw [State.restartOff] at e'; rw [e']⟩

theorem State.rd_restartOff (l : List Nat) (s : State) {f : Fld} (h : ∀ x ∈ l, f.key ∉ (lockFlds x).map Fld.key) : (s.restartOff l).rd f = s.rd f := by
  induction l generalizing s with
  | nil => rfl
  | cons x r ih =>
    obtain ⟨hx, hr⟩ := List.forall_mem_cons.1 h
    have e := fun u => ih u hr
    rw [State.restartOff, List.foldl_cons, ← State.restartOff, e]
    split
    · exact (starts_startAgain s x).regs f hx
    · rfl

/-- Those that were OFF search or acquire, the others stay as they were. -/
theorem State.pllSt_restartOff (l : List Nat) (hn : l.Nodup) (s : State) (y : Nat) :
    (s.pllSt y = 0 → y ∈ l → (s.restartOff l).pllSt y = 1 ∨ (s.restartOff l).pllSt y = 2)
      ∧ (s.pllSt y ≠ 0 ∨ y ∉ l → (s.restartOff l).pllSt y = s.pllSt y) := by
  induction l generalizing s with
  | nil => exact ⟨fun _ h => absurd h List.not_mem_nil, fun _ => rfl⟩
  | cons x r ih =>
    obtain ⟨hx, hr⟩ := List.nodup_cons.1 hn
    have hfold : s.restartOff (x :: r) = (if s.pllSt x = 0 then s.startAgain x else s).restartOff r := rfl
    rw [hfold]
    obtain ⟨ih1, ih2⟩ := ih hr (if s.pllSt x = 0 then s.startAgain x else s)
    by_cases hy : y = x
    · subst hy
      constructor
      · intro h0 _
        rw [ih2 (.inr hx), if_pos h0]
        exact (starts_startAgain s y).state
      · intro h
        have h0 : s.pllSt y ≠ 0 := h.resolve_right fun k => k List.mem_cons_self
        rw [ih2 (.inr hx), if_neg h0]
    · have ho : (if s.pllSt x = 0 then s.startAgain x else s).pllSt y = s.pllSt y := by
        split
        · exact (starts_startAgain s x).others y hy
        · rfl
      rw [ho] at ih1 ih2
      exact ⟨fun h0 hm => ih1 h0 ((List.mem_cons.1 hm).resolve_left hy), fun h => ih2 (h.imp_right fun k m => k (List.mem_cons_of_mem _ m))⟩

/-- A wake starts with its channel, its class and its time. -/
theorem State.wakeStart_eq {s : State} (ch cls kt : Nat) (h : s.hks.waking = none) :
    s.wakeStart ch cls kt = ({ s with hks := { s.hks with waking := some (ch, cls, kt / nsF * nsF) } } : State).restartOff (List.range 3) := by
  unfold State.wakeStart
  rw [h]
  rfl

end Sys2Proof.Machine
end

