-- ==== Sys2Proof/Proofs/DormantEntry.lean ====
section
/-! SUPPORT. The end of an entry to M0, and the statement of O8. -/

namespace Sys2Proof.Machine

/-! ### Parts of the entry -/

theorem State.relockClose_unhdg (s : State) (t c : Nat) : (s.relockClose t c).apart.unopen.unstat.untrl.unhdg
    = if s.armed then (s.advance t).apart.unopen.unstat.untrl.unhdg else s.apart.unopen.unstat.untrl.unhdg := by
  simp only [State.relockClose]
  (repeat' split) <;> simp_all

@[simp] theorem State.relockClose_glb (s : State) (t c : Nat) : (s.relockClose t c).glb = s.glb := by
  have h := s.relockClose_unhdg t c
  split at h
  · exact (glb_of_unhdg h).trans (s.advance_glb t)
  · exact glb_of_unhdg h

@[simp] theorem State.susDone_glb (s : State) (t x y : Nat) : (s.susDone t x y).glb = s.glb := rfl

@[simp] theorem State.domClose_glb (s : State) (t c : Nat) : (s.domClose t c).glb = s.glb := by
  have h : ∀ (l : List (Nat × Nat)) (u : State), (l.foldl (fun s q => s.susDone t 3 q.1) u).glb = u.glb := fun l u =>
    foldl_glb _ _ _ fun u q => State.susDone_glb u t 3 q.1
  simp only [State.domClose, State.qualFrom]
  (repeat' split) <;> simp (disch := decide) [h]

@[simp] theorem State.pllTo_glb (s : State) (x k : Nat) : (s.pllTo x k).glb = s.glb := by
  have h1 : 0x80000 ≤ (CLK_x_STAT_state x).key := Fld.glb_le (by simp only [CLK_x_STAT_state]; omega)
  have h2 : 0x80000 ≤ (CLK_x_STAT_gated x).key := Fld.glb_le (by simp only [CLK_x_STAT_gated]; omega)
  simp only [State.pllTo]
  split <;> simp [State.putPll, h1, h2]

@[simp] theorem State.pllUnsus_glb (s : State) (x t : Nat) : (s.pllUnsus x t).glb = s.glb := by
  have h1 : 0x80000 ≤ (CLK_x_STAT_suspect x).key := Fld.glb_le (by simp only [CLK_x_STAT_suspect]; omega)
  simp [State.pllUnsus, State.putPll, h1]

@[simp] theorem State.portTo_glb (s : State) (n k : Nat) : (s.portTo n k).glb = s.glb := by
  have h1 : 0x80000 ≤ (GRF_GLn_STAT_state n).key := Fld.glb_le (by simp only [GRF_GLn_STAT_state]; omega)
  simp only [State.portTo, State.putPort, State.orF_eq]
  split <;> simp (disch := decide) [State.wr_glb _ _ h1]

@[simp] theorem State.portEval_glb (s : State) (n : Nat) : (State.portEval n s).glb = s.glb := by
  simp only [State.portEval]
  (repeat' split) <;> simp

@[simp] theorem State.portsEval_glb (s : State) : s.portsEval.glb = s.glb := by simp [State.portsEval]

@[simp] theorem State.rakeRequeue_glb (s : State) (k : Nat) : (State.rakeRequeue k s).glb = s.glb := by
  simp (disch := decide) [State.rakeRequeue, State.rakeShow]

@[simp] theorem State.linkDown_glb (s : State) : s.linkDown.glb = s.glb := by simp (disch := decide) [State.linkDown]

@[simp] theorem State.dropLink_glb (s : State) : s.dropLink.glb = s.glb := by
  simp only [State.dropLink, State.orF_eq]
  split <;> simp (disch := decide)

theorem State.restartOff_glb (s : State) : (s.restartOff (List.range 3)).glb = s.glb := by
  have h : ∀ (u : State) (x : Nat), (u.startAgain x).glb = u.glb := fun u x => by
    have h3 : 0x80000 ≤ (CLK_x_STAT_bt_idx x).key := Fld.glb_le (by simp only [CLK_x_STAT_bt_idx]; omega)
    simp only [State.startAgain, State.startLock]
    (repeat' split) <;> simp [State.putPll, h3]
  refine foldl_glb _ _ _ fun u x => ?_
  split
  · exact h u x
  · rfl

/-! ### The entry -/

/-- The state of the entry once M0 is in effect. -/
def State.asleep (s : State) : State :=
  (((({ s.gatherAbort 4 with trl := { s.trl with out := [] } } : State).tmbSleep.wr GLB_STAT_active_mode 0).wr GLB_STAT_comp_active 0).wr
    GLB_STAT_mode_pend 0).wr GLB_STAT_ret_pend 0

theorem State.rd_rakeRequeue (s : State) (k : Nat) {f : Fld} (hl : f.key ≠ RAK_STAT_lease.key) (hb : f.key ≠ RAK_STAT_busy.key) :
    (State.rakeRequeue k s).rd f = s.rd f := by
  simp only [State.rakeRequeue, State.rakeShow]
  rw [State.rd_wr_ne _ _ _ _ (Ne.symm hb), State.rd_wr_ne _ _ _ _ (Ne.symm hl), State.rd_mk]

/-- The clocks stop, near memory goes into retention: the mode is as it was set. -/
theorem State.powerDown_glb (s : State) (t : Nat) : (s.powerDown t).glb = s.asleep.glb := by
  have h : ∀ u : State, ((List.range 3).foldl (fun (s : State) x => if s.pllSt x = 7 then s else (s.pllUnsus x t).pllTo x 0) u).glb = u.glb := fun u =>
    foldl_glb _ _ _ fun u x => by split <;> simp
  simp only [State.powerDown]
  split <;> simp (disch := decide) [h, State.asleep]

theorem State.powerDown_retention (s : State) (t : Nat) : (s.powerDown t).rd NMC_STAT_retention = 1 := by
  simp only [State.powerDown]
  simp (disch := decide) only [State.rd_rakeRequeue]
  split <;> simp [NMC_STAT_retention]

theorem State.rd_dropLink (s : State) {f : Fld} (h : f.key ∉ linkFlds.map Fld.key) (hb : f.key ≠ HKS_EVT_bits.key) : s.dropLink.rd f = s.rd f := by
  simp only [linkFlds, List.map_cons, List.map_nil, List.mem_cons, List.not_mem_nil, or_false, not_or] at h
  obtain ⟨h1, h2, h3⟩ := h
  unfold State.dropLink
  split
  · rw [State.orF_eq, State.rd_wr_ne _ _ _ _ (Ne.symm hb), State.linkDown, State.rd_wr_ne _ _ _ _ (Ne.symm h3), State.rd_wr_ne _ _ _ _ (Ne.symm h2),
      State.rd_wr_ne _ _ _ _ (Ne.symm h1), State.rd_mk]
  · rfl

/-- The entry but for the wake that may follow at once. -/
def State.entered (s : State) (t : Nat) : State :=
  let s2 := ((s.powerDown t).addF HKS_WAKE_STAT_missed (s.powerDown t).missedLatches).dropLink
  { s2 with hks := s2.hks.watch t }

theorem State.entered_glb (s : State) (t : Nat) : (s.entered t).glb = s.asleep.glb := by
  simp (disch := decide) [State.entered, State.addF_eq, State.powerDown_glb]

theorem State.entered_retention (s : State) (t : Nat) : (s.entered t).rd NMC_STAT_retention = 1 := by
  simp only [State.entered, State.rd_mk]
  rw [State.rd_dropLink _ (by decide) (by decide), State.addF_eq, State.rd_wr_ne _ _ _ _ (by decide), State.powerDown_retention]

theorem State.asleep_regs (s : State) : s.asleep.mode = 0 ∧ s.asleep.comp = false ∧ s.asleep.rd GLB_STAT_mode_pend = 0 ∧ s.asleep.rd GLB_STAT_ret_pend = 0 := by
  refine ⟨?_, ?_, ?_, ?_⟩ <;> simp (disch := decide) [State.asleep, State.mode, State.comp, State.on, State.rd_wr_ne]

theorem State.entered_watch (s : State) (t : Nat) :
    (s.entered t).hks.entering = false ∧ (s.entered t).hks.m0At = t ∧ (s.entered t).hks.sets = [] ∧ (s.entered t).hks.waking = none := by
  simp only [State.entered, Hks.watch, and_self]

/-- What an entry to M0 leaves. -/
def Asleep (s : State) (t : Nat) (u : State) : Prop :=
  u.mode = 0 ∧ u.comp = false ∧ u.rd GLB_STAT_mode_pend = 0 ∧ u.rd GLB_STAT_ret_pend = 0 ∧ u.rd NMC_STAT_retention = 1
    ∧ u.hks.entering = false ∧ u.hks.m0At = t ∧ u.hks.sets = []
    ∧ u.hks.waking = (if s.rd GLB_MODE_mode = 0 then none else some (0x7FE, 0, t / nsF * nsF))

theorem State.asleep_of_glb {s u : State} (h : u.glb = s.asleep.glb) :
    u.mode = 0 ∧ u.comp = false ∧ u.rd GLB_STAT_mode_pend = 0 ∧ u.rd GLB_STAT_ret_pend = 0 := by
  obtain ⟨h1, h2, h3, h4⟩ := s.asleep_regs
  refine ⟨(mode_of_glb h).trans h1, ?_, (rd_of_glb h (by decide)).trans h3, (rd_of_glb h (by decide)).trans h4⟩
  rw [← h2, State.comp, State.comp, State.on, State.on, rd_of_glb h (by decide)]

theorem State.enterM0_asleep (s : State) (t : Nat) : Asleep s t (s.enterM0 t) := by
  have hg := s.entered_glb t
  have hr := s.entered_retention t
  have he : s.enterM0 t = if s.rd GLB_MODE_mode ≠ 0 then (s.entered t).wakeStart 0x7FE 0 t else s.entered t := by
    simp only [State.enterM0, State.entered]
  rw [he]
  by_cases h : s.rd GLB_MODE_mode = 0
  · rw [if_neg (by simp [h])]
    obtain ⟨h1, h2, h3, h4⟩ := State.asleep_of_glb hg
    obtain ⟨k1, k2, k3, k4⟩ := s.entered_watch t
    exact ⟨h1, h2, h3, h4, hr, k1, k2, k3, by rw [if_pos h, k4]⟩
  · rw [if_pos h]
    obtain ⟨k1, k2, k3, k4⟩ := s.entered_watch t
    generalize s.entered t = v at *
    rw [State.wakeStart_eq _ _ _ k4]
    generalize hw : ({ v with hks := { v.hks with waking := some (0x7FE, 0, t / nsF * nsF) } } : State) = w
    have wg : w.glb = s.asleep.glb := by rw [← hw, State.glb_mk, hg]
    have wr : w.rd NMC_STAT_retention = 1 := by rw [← hw, State.rd_mk, hr]
    have wk : w.hks = { v.hks with waking := some (0x7FE, 0, t / nsF * nsF) } := by rw [← hw]
    obtain ⟨F, C, T, e⟩ := State.restartOff_moves (List.range 3) w
    have ek : (w.restartOff (List.range 3)).hks = { v.hks with waking := some (0x7FE, 0, t / nsF * nsF) } := by rw [e, ← wk]
    obtain ⟨h1, h2, h3, h4⟩ := State.asleep_of_glb ((State.restartOff_glb w).trans wg)
    refine ⟨h1, h2, h3, h4, ?_, by rw [ek]; exact k1, by rw [ek]; exact k2, by rw [ek]; exact k3, by rw [ek, if_neg h]⟩
    rw [State.rd_restartOff _ _ (by decide), wr]

end Sys2Proof.Machine
end

