-- ==== Sys2Proof/Proofs/DormantWakes.lean ====
section
/-! SUPPORT. What wakes the Kameth from M0, the requests of the host in M0 and in another mode, and the statement of O8. -/

namespace Sys2Proof.Machine

theorem State.changeSleeps {s : State} (t : Nat) (h : s.hks.entering = true) :
    Asleep s t (s.modeChange t) ∧ Asleep s t (s.returnToMode t) := by
  have ha : Asleep s t ((s.advance t).enterM0 t) := by
    have := (s.advance t).enterM0_asleep t
    rwa [Asleep, State.rd_advance] at this
  constructor
  · rw [State.modeChange]
    simp only [State.advance_hks, h, if_true]
    exact ha
  · rw [State.returnToMode]
    simp only [State.advance_hks, h, if_true]
    exact ha

/-! ### Wakes -/

/-- A wake from `s` with its channel, class and time, over a state that is as asleep. -/
theorem State.wakeStart_wakes {s : State} (ch cls kt : Nat) (h : s.hks.waking = none) (hm : s.mode = 0) :
    let u := s.wakeStart ch cls kt
    u.hks = { s.hks with waking := some (ch, cls, kt / nsF * nsF) } ∧ u.mode = 0 ∧ u.tmb = s.tmb ∧ u.hrv = s.hrv
      ∧ u.rd HKS_WAKE_AT_HI_en = s.rd HKS_WAKE_AT_HI_en
      ∧ (∀ x, x < 3 → s.pllSt x = 0 → u.pllSt x = 1 ∨ u.pllSt x = 2) ∧ (∀ x, x < 3 → s.pllSt x ≠ 0 → u.pllSt x = s.pllSt x) := by
  simp only
  rw [State.wakeStart_eq ch cls kt h]
  generalize hv : ({ s with hks := { s.hks with waking := some (ch, cls, kt / nsF * nsF) } } : State) = v
  have vr : ∀ f, v.rd f = s.rd f := fun f => by rw [← hv, State.rd_mk]
  have vp : v.hks = { s.hks with waking := some (ch, cls, kt / nsF * nsF) } ∧ v.tmb = s.tmb ∧ v.hrv = s.hrv := by rw [← hv]; exact ⟨rfl, rfl, rfl⟩
  obtain ⟨vk, vt, vh⟩ := vp
  obtain ⟨F, C, T, e⟩ := State.restartOff_moves (List.range 3) v
  have hp := fun y => State.pllSt_restartOff (List.range 3) List.nodup_range v y
  have hs : ∀ y, v.pllSt y = s.pllSt y := fun y => vr _
  refine ⟨by rw [e, ← vk], ?_, by rw [e, ← vt], by rw [e, ← vh], ?_, fun x hx h0 => ?_, fun x hx h0 => ?_⟩
  · rw [mode_of_glb (State.restartOff_glb v), State.mode, vr]
    exact hm
  · rw [State.rd_restartOff _ _ (by decide), vr]
  · exact (hp x).1 ((hs x).trans h0) (List.mem_range.2 hx)
  · rw [(hp x).2 (.inl (by rwa [hs x])), hs x]

end Sys2Proof.Machine

namespace Sys2Proof

open Machine

theorem latchWake_wakes {s : State} (t ch k : Nat) (hp : Powered s) (hm : s.mode = 0) (hw : s.hks.waking = none) (hl : s.latchMet = some (ch, k)) :
    Answers (.latchWake t) s fun u =>
      u.hks.waking = some (ch, s.wakeClass, k / nsF * nsF) ∧ u.mode = 0 ∧ TimeAt s u t
        ∧ (∀ x, x < 3 → s.pllSt x = 0 → u.pllSt x = 1 ∨ u.pllSt x = 2) ∧ (∀ x, x < 3 → s.pllSt x ≠ 0 → u.pllSt x = s.pllSt x) := by
  have hlm : (s.advance t).latchMet = s.latchMet := by
    simp only [State.latchMet, State.wakeClass, State.advance_hks, State.rd_advance]
  have hu : State.latchWake t s = (s.advance t).wakeStart ch s.wakeClass k := by
    have hc : (s.advance t).wakeClass = s.wakeClass := by simp only [State.wakeClass, State.rd_advance]
    rw [State.latchWake]
    simp only [State.mode_advance, hm, State.advance_hks, hp.2, hlm, hl, hc]
    simp
  refine Answers.of_performOnAt (exec_latchWake _ _) hp ?_
  rw [hu]
  obtain ⟨h1, h2, h3, _, _, h6, h7⟩ := State.wakeStart_wakes ch s.wakeClass k (s := s.advance t) (by rwa [State.advance_hks]) (by rwa [State.mode_advance])
  simp only [State.pllSt, State.rd_advance] at h6 h7
  refine ⟨by rw [h1], h2, ?_, h6, h7⟩
  rw [TimeAt, h3, State.advance_kt]

theorem latchWake_sleeps {s : State} (t : Nat) (hp : Powered s) (h : s.mode ≠ 0 ∨ s.latchMet = none) :
    Answers (.latchWake t) s fun u => TimeAt s u t ∧ SameRegs s u [] ∧ SameRest s u := by
  have hlm : (s.advance t).latchMet = s.latchMet := by
    simp only [State.latchMet, State.wakeClass, State.advance_hks, State.rd_advance]
  have hu : State.latchWake t s = s.advance t := by
    rw [State.latchWake]
    simp only [State.mode_advance, State.advance_hks, hlm]
    split
    · rfl
    · next k =>
      have hn : s.latchMet = none := h.resolve_left fun m => k (.inl m)
      rw [hn]
  refine Answers.of_performOnAt (exec_latchWake _ _) hp ?_
  rw [hu]
  exact unchanged_advance s t

theorem wakeAt_advance (s : State) (t : Nat) : (s.advance t).wakeAt = s.wakeAt := by simp only [State.wakeAt, State.rd_advance]

theorem timerWake_wakes {s : State} (t : Nat) (hp : Powered s) (hm : s.mode = 0) (hw : s.hks.waking = none) (he : s.on HKS_WAKE_AT_HI_en = true)
    (ht : s.wakeAt ≤ t % 2 ^ 72) : Answers (.timerWake t) s fun u =>
      u.rd HKS_WAKE_AT_HI_en = 0 ∧ u.mode = 0 ∧ TimeAt s u t
        ∧ u.hks.waking = some (0x7FD, 4, max (t / 2 ^ 72 * 2 ^ 72 + s.wakeAt) s.hks.m0At / nsF * nsF) := by
  have hu : State.timerWake t s = ((s.advance t).wr HKS_WAKE_AT_HI_en 0).wakeStart 0x7FD 4 (max (t / 2 ^ 72 * 2 ^ 72 + s.wakeAt) s.hks.m0At) := by
    rw [State.timerWake]
    simp only [State.mode_advance, hm, State.advance_hks, hp.2, wakeAt_advance, State.on_advance, he]
    rw [if_neg (by simp; omega)]
  refine Answers.of_performOnAt (exec_timerWake _ _) hp ?_
  rw [hu]
  obtain ⟨h1, h2, h3, _, h5, _⟩ := State.wakeStart_wakes 0x7FD 4 (max (t / 2 ^ 72 * 2 ^ 72 + s.wakeAt) s.hks.m0At)
    (s := (s.advance t).wr HKS_WAKE_AT_HI_en 0) (by rwa [State.wr_hks, State.advance_hks])
    (by rw [State.mode, State.rd_wr_ne _ _ _ _ (by decide)]; rwa [← State.mode, State.mode_advance])
  refine ⟨by rw [h5, State.rd_wr_same]; rfl, h2, ?_, by rw [h1]⟩
  rw [TimeAt, h3, State.wr_tmb, State.advance_kt]

theorem timerWake_sleeps {s : State} (t : Nat) (hp : Powered s) (h : s.mode ≠ 0 ∨ s.on HKS_WAKE_AT_HI_en = false ∨ t % 2 ^ 72 < s.wakeAt) :
    Answers (.timerWake t) s fun u => TimeAt s u t ∧ SameRegs s u [] ∧ SameRest s u := by
  have hu : State.timerWake t s = s.advance t := by
    rw [State.timerWake]
    simp only [State.mode_advance, State.advance_hks, wakeAt_advance, State.on_advance]
    rw [if_pos]
    rcases h with h | h | h
    · exact .inl h
    · exact .inr (.inr (.inl (by simp [h])))
    · exact .inr (.inr (.inr h))
  refine Answers.of_performOnAt (exec_timerWake _ _) hp ?_
  rw [hu]
  exact unchanged_advance s t

/-! ### The host in M0 -/

theorem hostWake_asleep {s : State} (r : HostReq) (t : Nat) (hm : s.mode = 0) : State.hostWake r t s = State.hostExit r (s.advance t) := by
  rw [State.hostWake]
  simp [hm]

theorem hostWake_wakes {s : State} (r : HostReq) (t : Nat) (hp : Powered s) (hm : s.mode = 0) (hw : s.hks.waking = none) (hr : s.hks.hostReq = none)
    (hl : s.hrv.l12 = true) : Answers (.hostWake r t) s fun u =>
      u.hks.waking = some (0x7FE, 0, max s.tmb.kt t / nsF * nsF) ∧ u.hks.hostReq = some r ∧ u.hrv.l12 = false ∧ u.mode = 0 ∧ TimeAt s u t := by
  have hu : State.hostWake r t s = State.wakeStart
      { s.advance t with hrv := { s.hrv with l12 := false }, hks := { s.hks with hostReq := some r } } 0x7FE 0 (max s.tmb.kt t) := by
    rw [hostWake_asleep r t hm, State.hostExit, ← State.advance_kt s t]
    simp [hm, hp.2, hr, hl]
  refine Answers.of_performOnAt (exec_hostWake _ _ _) hp ?_
  rw [hu]
  obtain ⟨h1, h2, h3, h4, _⟩ := State.wakeStart_wakes 0x7FE 0 (max s.tmb.kt t)
    (s := { s.advance t with hrv := { s.hrv with l12 := false }, hks := { s.hks with hostReq := some r } }) hw
    (by rw [State.mode, State.rd_mk]; rwa [← State.mode, State.mode_advance])
  refine ⟨by rw [h1], by rw [h1], by rw [h4], h2, ?_⟩
  rw [TimeAt, h3]
  exact State.advance_kt s t

/-- Out of L1.2 the link needs no wake: a request in M0 with it is not answered. -/
theorem hostWake_sleeps {s : State} (r : HostReq) (t : Nat) (hp : Powered s) (hm : s.mode = 0) (hr : s.hks.hostReq = none) (hl : s.hrv.l12 = false) :
    Answers (.hostWake r t) s fun u => TimeAt s u t ∧ SameRegs s u [] ∧ SameRest s u := by
  have hu : State.hostWake r t s = s.advance t := by
    rw [hostWake_asleep r t hm, State.hostExit]
    simp [hm, hp.2, hr, hl]
  refine Answers.of_performOnAt (exec_hostWake _ _ _) hp ?_
  rw [hu]
  exact unchanged_advance s t

/-- Requests that follow the one that woke the Kameth wait with it. -/
theorem hostWake_waits {s : State} (r : HostReq) (t : Nat) (hp : Powered s) (hm : s.mode = 0) (hr : s.hks.hostReq ≠ none) :
    Answers (.hostWake r t) s fun u =>
      u.hks = { s.hks with hostMore := s.hks.hostMore ++ [r] } ∧ TimeAt s u t ∧ SameRegs s u [] ∧ SameRest s { u with hks := s.hks } := by
  have hu : State.hostWake r t s = { s.advance t with hks := { s.hks with hostMore := s.hks.hostMore ++ [r] } } := by
    rw [hostWake_asleep r t hm, State.hostExit, if_neg (by simp [hm, hp.2]), State.advance_hks, if_pos (Option.isSome_iff_ne_none.2 hr)]
  refine Answers.of_performOnAt (exec_hostWake _ _ _) hp ?_
  rw [hu]
  refine ⟨rfl, State.advance_kt s t, ?_, ?_⟩
  · rw [sameRegs_mk, sameRegs_advance]
    exact sameRegs_self s []
  · obtain ⟨b, h, _⟩ := s.advance_moves t
    rw [h]
    exact sameRest_mk_hrv s _ _ _

/-- Two meanings that make the same of a state answer the same. -/
theorem performOn_congr {f g : State → State} {s : State} (h : f s = g s) : State.performOn f s = State.performOn g s := by
  simp only [State.performOn, h]

/-- BAR2 is one way of asking in M0. -/
theorem bar2_asleep {s : State} (t : Nat) (hm : s.mode = 0) (a n w : Nat) (b : List Byte) (c e : List Nat) :
    exec (.bar2Read a n c e ⟨w, t⟩) s = exec (.hostWake (.bar2Read a n c e) t) s
      ∧ exec (.bar2Write a b ⟨w, t⟩) s = exec (.hostWake (.bar2Write a b) t) s := by
  have hr : (s.reached t).mode = 0 := (mode_of_glb (State.reached_glb s t)).trans hm
  rw [exec_bar2Read, exec_bar2Write, exec_hostWake, exec_hostWake]
  constructor
  · exact performOn_congr (by rw [hostWake_asleep _ _ hr, State.bar2Get, if_pos hr])
  · exact performOn_congr (by rw [hostWake_asleep _ _ hr, State.bar2Put, if_pos hr])

/-! ### The host in another mode -/

theorem hostWake_awake {s : State} (r : HostReq) (t : Nat) (hm : s.mode ≠ 0) (hr : s.hks.rails = true) :
    State.hostWake r t s = (s.advance t).hostPerform r := by
  rw [State.hostWake]
  simp [hm, hr]

/-- Without a link no request comes. -/
theorem hostPerform_unlinked {s : State} (r : HostReq) (hm : s.mode ≠ 0) (hl : s.hrv.link = none) : SameRest s (s.hostPerform r) ∧
    (s.hostPerform r).tmb = s.tmb ∧ SameRegs s (s.hostPerform r) [] := by
  have hs : SameRest s s ∧ s.tmb = s.tmb ∧ SameRegs s s [] := ⟨SameRest.refl s, rfl, sameRegs_self s []⟩
  have hsame : ∀ u, u = s → SameRest s u ∧ u.tmb = s.tmb ∧ SameRegs s u [] := fun u e => e ▸ hs
  have hself : s.advance s.tmb.kt = s := by simp [State.advance]
  cases r with
  | barRead a => exact hsame _ (by simp [State.hostPerform, State.portRead, State.hostOn, hm, hl])
  | barWrite a be v => exact hsame _ (by simp [State.hostPerform, State.portWrite, State.hostOn, hm, hl])
  | bar2Read a n c e => exact hsame _ (by simp [State.hostPerform, State.bar2Read, State.bar2Open, hself, hl])
  | bar2Write a d => exact hsame _ (by simp [State.hostPerform, State.bar2Write, State.bar2Open, hself, hl])
  | config a => exact hsame _ (by simp [State.hostPerform, State.configRead, hl])
  | configWrite r v => exact hsame _ (by simp [State.hostPerform, State.configWrite, hl])
  | other => exact ⟨sameRest_mk s _ _ _ _, rfl, sameRegs_self s []⟩

theorem sameRest_of_advance {s u : State} {t : Nat} (h : SameRest (s.advance t) u) : SameRest s u := by
  rw [sameRest_iff] at h ⊢
  simpa using h

theorem hostWake_unlinked {s : State} (r : HostReq) (t : Nat) (hp : Powered s) (hm : s.mode ≠ 0) (hl : s.hrv.link = none) :
    Answers (.hostWake r t) s fun u => TimeAt s u t ∧ SameRegs s u [] ∧ SameRest s u := by
  refine Answers.of_performOnAt (exec_hostWake _ _ _) hp ?_
  rw [hostWake_awake r t hm hp.2]
  obtain ⟨h1, h2, h3⟩ := hostPerform_unlinked (s := s.advance t) r (by rwa [State.mode_advance]) (by rwa [State.advance_hrv])
  exact ⟨by rw [TimeAt, h2, State.advance_kt], (advance_sameRegs s _ t []).1 h3, sameRest_of_advance h1⟩

theorem hostWake_performs {s : State} {P : State → Prop} (r : HostReq) (t : Nat) (hp : Powered s) (hm : s.mode ≠ 0)
    (h : P ((s.advance t).hostPerform r)) : Answers (.hostWake r t) s P := by
  refine Answers.of_performOnAt (exec_hostWake _ _ _) hp ?_
  rwa [hostWake_awake r t hm hp.2]

theorem configRead_answers {s : State} (a t : Nat) (hp : Powered s) (hm : s.mode ≠ 0) (hl : s.hrv.link ≠ none) :
    Answers (.hostWake (.config a) t) s fun u => u.hrv = { s.hrv with cpl := le 4 (s.configWord a), cplPoison := false, l12 := false }
      ∧ TimeAt s u t ∧ SameRegs s u [] ∧ SameRest s { u with hrv := s.hrv, free := s.free } := by
  have hc : (s.advance t).configWord a = s.configWord a := by
    obtain ⟨b, h, _⟩ := s.advance_moves t
    rw [h]
    rfl
  have hu : (s.advance t).hostPerform (.config a) =
      { s.advance t with hrv := { s.hrv with cpl := le 4 (s.configWord a), cplPoison := false, l12 := false }, free := s.free + 1 } := by
    simp [State.hostPerform, State.configRead, hp.2, Option.isSome_iff_ne_none.2 hl, hc]
  refine hostWake_performs _ t hp hm ?_
  rw [hu]
  refine ⟨rfl, State.advance_kt s t, ?_, ?_⟩
  · rw [sameRegs_mk, sameRegs_advance]
    exact sameRegs_self s []
  · obtain ⟨b, h, _⟩ := s.advance_moves t
    rw [h]
    exact sameRest_mk_hrv s _ _ _

end Sys2Proof

namespace Sys2Proof.Machine

theorem State.signal_moves (v : Nat) (s : State) : ∃ l m q, State.signal v s = { s with hrv := { s.hrv with l12 := l }, msix := m, msxPba := q } := by
  unfold State.signal
  split
  · exact ⟨s.hrv.l12, s.msix, _, rfl⟩
  · exact ⟨false, _, s.msxPba, rfl⟩

/-- Sending what was pending takes the link out of L1.2. -/
theorem State.pbaSync_moves (s : State) : ∃ l m q, s.pbaSync = { s with hrv := { s.hrv with l12 := l }, msix := m, msxPba := q } := by
  have all : ∀ (r : List Nat) (s : State), ∃ l m q, r.foldl (fun (s : State) v =>
      if s.msxMasked v then s else State.signal v { s with msxPba := s.msxPba.filter (· ≠ v) }) s = { s with hrv := { s.hrv with l12 := l }, msix := m, msxPba := q } := by
    intro r
    induction r with
    | nil => exact fun s => ⟨s.hrv.l12, s.msix, s.msxPba, rfl⟩
    | cons v r ih =>
      intro s
      rw [List.foldl_cons]
      split
      · exact ih s
      · obtain ⟨l, m, q, h⟩ := State.signal_moves v { s with msxPba := s.msxPba.filter (· ≠ v) }
        obtain ⟨l', m', q', h'⟩ := ih (State.signal v { s with msxPba := s.msxPba.filter (· ≠ v) })
        exact ⟨l', m', q', by rw [h', h]⟩
  unfold State.pbaSync
  split
  · exact ⟨s.hrv.l12, s.msix, s.msxPba, rfl⟩
  · exact all _ s

theorem cfgNum_injective : Function.Injective cfgNum := by
  intro a b h
  cases a <;> cases b <;> cases h <;> rfl

end Sys2Proof.Machine

namespace Sys2Proof

open Machine

theorem configWrite_answers {s : State} (r : CfgReg) (v : Word) (t : Nat) (hp : Powered s) (hm : s.mode ≠ 0) (hl : s.hrv.link ≠ none) :
    Answers (.hostWake (.configWrite r v) t) s fun u => u.cfgReg r = v.toNat &&& cfgMask r ∧ (∀ x, x ≠ r → u.cfgReg x = s.cfgReg x)
      ∧ TimeAt s u t ∧ SameRegs s u [] ∧ SameRest s { u with hrv := s.hrv, msix := s.msix, msxPba := s.msxPba } := by
  have hu : (s.advance t).hostPerform (.configWrite r v) =
      ({ s.advance t with hrv := { s.hrv with cfg := ins s.hrv.cfg (cfgNum r) (v.toNat &&& cfgMask r), l12 := false } } : State).pbaSync := by
    simp [State.hostPerform, State.configWrite, hp.2, Option.isSome_iff_ne_none.2 hl]
  obtain ⟨l, m, q, e⟩ := State.pbaSync_moves
    { s.advance t with hrv := { s.hrv with cfg := ins s.hrv.cfg (cfgNum r) (v.toNat &&& cfgMask r), l12 := false } }
  refine hostWake_performs _ t hp hm ?_
  rw [hu, e]
  refine ⟨?_, fun x hx => ?_, State.advance_kt s t, ?_, ?_⟩
  · simp only [State.cfgReg, look_ins_same, Option.getD_some]
  · simp only [State.cfgReg]
    rw [look_ins_ne _ _ _ _ (cfgNum_injective.ne (Ne.symm hx))]
  · rw [sameRegs_mk, sameRegs_mk, sameRegs_advance]
    exact sameRegs_self s []
  · obtain ⟨b, h, _⟩ := s.advance_moves t
    rw [h]
    exact sameRest_mk_hrv s _ _ _

theorem otherRequest_answers {s : State} (t : Nat) (hp : Powered s) (hm : s.mode ≠ 0) :
    Answers (.hostWake .other t) s fun u => TimeAt s u t ∧ SameRegs s u [] ∧ SameRest s u := by
  refine hostWake_performs _ t hp hm ⟨State.advance_kt s t, ?_, ?_⟩
  · exact (advance_sameRegs s _ t []).1 (sameRegs_self _ [])
  · exact sameRest_of_advance (sameRest_mk (s.advance t) _ _ _ _)

/-- Settles O8: the entry by its parts, the wakes by what starts them, and each request of the host by what it asks for. -/
theorem dormantEntryAndWake : Obligations.DormantEntryAndWake := by
  unfold Obligations.DormantEntryAndWake
  refine ⟨fun s t hp he => ?_, fun s t hp => ⟨fun hm hw => ⟨fun ch k hl => latchWake_wakes t ch k hp hm hw hl,
    fun hl => latchWake_sleeps t hp (.inr hl), fun he ht => timerWake_wakes t hp hm hw he ht, fun h => timerWake_sleeps t hp (.inr h),
    fun r hr hl => hostWake_wakes r t hp hm hw hr hl, fun r hr hl => hostWake_sleeps r t hp hm hr hl⟩, fun hm hr r => hostWake_waits r t hp hm hr,
    fun hm a n w b c e => bar2_asleep t hm a n w b c e, fun hm => ⟨latchWake_sleeps t hp (.inl hm), timerWake_sleeps t hp (.inl hm)⟩,
    fun hm hl r => hostWake_unlinked r t hp hm hl, fun hm hl a n v be b c e r => ?_⟩⟩
  · obtain ⟨h1, h2⟩ := State.changeSleeps t he
    exact ⟨Answers.of_performOnAt (exec_modeChange _ _) hp h1, Answers.of_performOnAt (exec_returnToMode _ _) hp h2⟩
  · exact ⟨configRead_answers a t hp hm hl, configWrite_answers r v t hp hm hl, hostWake_performs _ t hp hm rfl, hostWake_performs _ t hp hm rfl,
      hostWake_performs _ t hp hm rfl, hostWake_performs _ t hp hm rfl, otherRequest_answers t hp hm⟩

end Sys2Proof
end

