-- ==== Sys2Proof/Proofs/RegisterStores.lean ====
section
/-! SUPPORT. What a write with its byte enables stores in a register field, by its access code, and what a register access leaves as it is. -/

namespace Sys2Proof.Machine

/-- What a field that held `x` holds after a write of `v` with the enables `bm`, by its access code (R6, R310). -/
def Fld.stored (f : Fld) (bm v x : Nat) : Nat :=
  let m := f.of bm
  let d := f.of v &&& m
  if m = 0 then x else
  match f.acc with
  | .rw => f.clamp ((x &&& (m ^^^ (2 ^ f.w - 1))) ||| d) % 2 ^ f.w
  | .w1c => (x &&& (d ^^^ (2 ^ f.w - 1))) % 2 ^ f.w
  | .w1s => (x ||| d) % 2 ^ f.w
  | .ro | .wo => x

theorem State.storeFld_moves (bm v : Nat) (s : State) (f : Fld) : ∃ F, State.storeFld bm v s f = { s with fields := F } := by
  unfold State.storeFld
  dsimp only
  split
  · exact ⟨s.fields, rfl⟩
  · split
    · exact ⟨_, rfl⟩
    · exact ⟨_, rfl⟩
    · exact ⟨_, rfl⟩
    · exact ⟨s.fields, rfl⟩
    · exact ⟨s.fields, rfl⟩

theorem State.rd_storeFld_same (bm v : Nat) (s : State) (f : Fld) : (State.storeFld bm v s f).rd f = f.stored bm v (s.rd f) := by
  unfold State.storeFld Fld.stored
  dsimp only
  split
  · rfl
  · cases f.acc with
    | rw => exact State.rd_wr_same _ _ _
    | w1c => exact State.rd_wr_same _ _ _
    | w1s => exact State.rd_wr_same _ _ _
    | ro => rfl
    | wo => rfl

theorem State.rd_storeFld_ne (bm v : Nat) (s : State) {f g : Fld} (h : f.key ≠ g.key) : (State.storeFld bm v s f).rd g = s.rd g := by
  unfold State.storeFld
  dsimp only
  split
  · rfl
  · split
    · exact State.rd_wr_ne _ _ _ _ h
    · exact State.rd_wr_ne _ _ _ _ h
    · exact State.rd_wr_ne _ _ _ _ h
    · rfl
    · rfl

/-- Storing to fields that a field is none of. -/
theorem State.rd_storeFlds_ne (bm v : Nat) (l : List Fld) (s : State) {g : Fld} (h : g.key ∉ l.map Fld.key) :
    (l.foldl (State.storeFld bm v) s).rd g = s.rd g := by
  induction l generalizing s with
  | nil => rfl
  | cons f r ih =>
    rw [List.map_cons, List.mem_cons, not_or] at h
    rw [List.foldl_cons, ih _ h.2, State.rd_storeFld_ne _ _ _ (Ne.symm h.1)]

/-- Storing to the fields of a register stores to each what is written to it. -/
theorem State.rd_storeFlds (bm v : Nat) {l : List Fld} (s : State) {f : Fld} (hf : f ∈ l) (hn : (l.map Fld.key).Nodup) :
    (l.foldl (State.storeFld bm v) s).rd f = f.stored bm v (s.rd f) := by
  induction l generalizing s with
  | nil => exact absurd hf List.not_mem_nil
  | cons g r ih =>
    obtain ⟨hg, hr⟩ := List.nodup_cons.1 hn
    rw [List.foldl_cons]
    rcases List.mem_cons.1 hf with rfl | hm
    · rw [State.rd_storeFlds_ne bm v r _ hg, State.rd_storeFld_same]
    · have hne : g.key ≠ f.key := fun e => hg (e ▸ List.mem_map_of_mem hm)
      rw [ih _ hm hr, State.rd_storeFld_ne _ _ _ hne]

theorem State.storeFlds_moves (bm v : Nat) (l : List Fld) (s : State) : ∃ F, l.foldl (State.storeFld bm v) s = { s with fields := F } :=
  foldl_fields _ l s fun u f => State.storeFld_moves bm v u f

theorem State.storeReg_moves (bm v a : Nat) (s : State) : ∃ F, State.storeReg bm v a s = { s with fields := F } := by
  unfold State.storeReg
  split
  · exact State.storeFlds_moves bm v _ s
  · exact ⟨s.fields, rfl⟩

/-! ### Access codes -/

theorem Fld.stored_ro {f : Fld} (bm v x : Nat) (h : f.acc = .ro ∨ f.acc = .wo) : f.stored bm v x = x := by
  unfold Fld.stored
  dsimp only
  split
  · rfl
  · rcases h with e | e <;> rw [e]

theorem Fld.of_lt (f : Fld) (v : Nat) : f.of v < 2 ^ f.w := Nat.mod_lt _ (Nat.two_pow_pos _)

/-- A field none of whose bytes is enabled keeps its value. -/
theorem Fld.stored_none {f : Fld} {bm : Nat} (v x : Nat) (h : f.of bm = 0) : f.stored bm v x = x := by
  unfold Fld.stored
  rw [if_pos h]

/-- A field all of whose bytes are enabled takes the value written. -/
theorem Fld.stored_rw {f : Fld} {bm : Nat} (v x : Nat) (ha : f.acc = .rw) (hm : f.of bm = 2 ^ f.w - 1) (hw : f.w ≠ 0) :
    f.stored bm v x = f.clamp (f.of v) % 2 ^ f.w := by
  have h0 : (2 : Nat) ^ f.w - 1 ≠ 0 := by
    have : 2 ≤ 2 ^ f.w := Nat.pow_le_pow_right (n := 2) (by decide) (Nat.one_le_iff_ne_zero.2 hw)
    omega
  have hd : f.of v &&& (2 ^ f.w - 1) = f.of v := by rw [Nat.and_two_pow_sub_one_eq_mod, Nat.mod_eq_of_lt (f.of_lt v)]
  unfold Fld.stored
  rw [hm, if_neg h0, ha, hd]
  simp

/-- A bit that is cleared by writing 1. -/
theorem Fld.stored_w1c_bit {f : Fld} {bm : Nat} (v x : Nat) (ha : f.acc = .w1c) (hw : f.w = 1) (hm : f.of bm = 1) :
    f.stored bm v x = if f.of v = 1 then 0 else x % 2 := by
  have hv : f.of v < 2 := by
    have := f.of_lt v
    rwa [hw] at this
  unfold Fld.stored
  rw [hm, ha, hw]
  simp only [one_ne_zero, if_false, pow_one]
  split
  · next h => simp [h]
  · next h =>
    have h0 : f.of v = 0 := by omega
    simp [h0]

end Sys2Proof.Machine

namespace Sys2Proof

open Machine

theorem sameRegs_storeFlds {s u : State} {l m : List Fld} (bm v : Nat) (h : m.map Fld.key ⊆ l.map Fld.key) :
    SameRegs s (m.foldl (State.storeFld bm v) u) l ↔ SameRegs s u l := by
  have hr : ∀ f : Fld, f.key ∉ l.map Fld.key → (m.foldl (State.storeFld bm v) u).rd f = u.rd f := fun f hf =>
    State.rd_storeFlds_ne bm v m u fun hm => hf (h hm)
  exact ⟨fun k f hf => (hr f hf).symm.trans (k f hf), fun k f hf => (hr f hf).trans (k f hf)⟩

theorem sameRest_storeReg (s u : State) (bm v a : Nat) : SameRest s (State.storeReg bm v a u) ↔ SameRest s u := by
  obtain ⟨F, h⟩ := State.storeReg_moves bm v a u
  rw [h]
  exact Iff.rfl

/-! ### An access of a register that reaches it -/

/-- The byte enables of a write, as the mask of its bits. -/
theorem byteMask_low (be : BitVec 4) : byteMask be.toNat % 256 = if be.getLsbD 0 then 255 else 0 := by
  revert be
  decide

/-- A write to a register that its block neither closes nor ignores. -/
theorem portWrite_open (p : Port) (a be v : Nat) (s : State) (h : Reaches p a s) (ha : a < 0x140000) (h4 : a % 4 = 0)
    (hc : s.closed a = false) (hi : s.ignored a = false) :
    State.portWrite p a be v s
      = State.reSignal a (State.effect p a (v &&& byteMask be) (byteMask be) (s.usedBy p) (State.storeReg (byteMask be) v a (s.usedBy p))) := by
  have e : a % 2 ^ 26 / 4 * 4 = a := by omega
  rw [portWrite_reaches p a be _ s h]
  simp only [State.barWrite, e, ha, if_true, State.writeReg, closed_used, hc, ignored_used, hi, Bool.false_eq_true, if_false]

/-- The same, for one that its block closes. -/
theorem portWrite_shut (p : Port) (a be v : Nat) (s : State) (h : Reaches p a s) (ha : a < 0x140000) (h4 : a % 4 = 0) (hc : s.closed a = true) :
    State.portWrite p a be v s = if a / 0x10000 = 5 then (s.usedBy p).wr TRL_STAT_wr_ign 1
      else if a / 0x10000 = 7 then (s.usedBy p).wr HDG_STAT_wr_ign 1 else s.usedBy p := by
  have e : a % 2 ^ 26 / 4 * 4 = a := by omega
  rw [portWrite_reaches p a be _ s h]
  simp only [State.barWrite, e, ha, if_true, State.writeReg, closed_used, hc]

/-- A write to a register of plain fields, with nothing else that follows from it. -/
theorem portWrite_plain (p : Port) (a be v : Nat) (s : State) (l : List Fld) (h : Reaches p a s) (ha : a < 0x140000) (h4 : a % 4 = 0)
    (hc : s.closed a = false) (hi : s.ignored a = false) (hl : (regAt a).map (fun x => x.1.flds x.2.1 x.2.2) = some l)
    (he : ∀ v bm old u, State.effect p a v bm old u = u) :
    State.portWrite p a be v s = State.reSignal a (l.foldl (State.storeFld (byteMask be) v) (s.usedBy p)) := by
  rw [portWrite_open p a be v s h ha h4 hc hi, he, storeReg_flds hl]

/-- What such a write leaves. -/
theorem portWrite_plain_keeps (p : Port) (a be v : Nat) (s : State) (l : List Fld) :
    SameRegs s (State.reSignal a (l.foldl (State.storeFld (byteMask be) v) (s.usedBy p))) l
      ∧ SameRest s (State.reSignal a (l.foldl (State.storeFld (byteMask be) v) (s.usedBy p))) := by
  constructor
  · rw [sameRegs_reSignal, sameRegs_storeFlds _ _ (List.Subset.refl _), sameRegs_usedBy]
    exact sameRegs_self s l
  · rw [sameRest_reSignal]
    obtain ⟨F, hF⟩ := State.storeFlds_moves (byteMask be) v l (s.usedBy p)
    rw [hF]
    exact sameRest_used s p

end Sys2Proof
end

