-- ==== Sys2Proof/Proofs/RegisterWrites.lean ====
section
/-! SUPPORT. Writes by access code, and the registers that are closed during acquisition. -/

namespace Sys2Proof

open Machine

/-! ### The four access codes -/

/-- The mask of a field of one bit in the lowest byte. -/
theorem of_byteMask (be : BitVec 4) {f : Fld} (hw : f.w = 1) (hl : f.lo < 8) : f.of (byteMask be.toNat) = if be.getLsbD 0 then 1 else 0 := by
  have h := byteMask_low be
  have e : byteMask be.toNat / 2 ^ f.lo % 2 = byteMask be.toNat % 256 / 2 ^ f.lo % 2 := by
    rw [show (256 : Nat) = 2 ^ f.lo * 2 ^ (8 - f.lo) by rw [← pow_add, Nat.add_sub_cancel' (by omega)]; rfl, Nat.mod_mul_right_div_self,
      Nat.mod_mod_of_dvd _ (dvd_pow_self 2 (by omega))]
  rw [Fld.of, hw, pow_one, e, h]
  split
  · have := hl
    interval_cases f.lo <;> rfl
  · rw [Nat.zero_div]

theorem rstCtlWrite_answers {s : State} (p : Port) (be : BitVec 4) (v : Word) (h : Reaches p GLB_RST_CTL_perst_warm.addr s) :
    Answers (.registerWrite p GLB_RST_CTL_perst_warm.addr be v) s fun u =>
      u.rd GLB_RST_CTL_perst_warm = (if be.getLsbD 0 then v.toNat % 2 else s.rd GLB_RST_CTL_perst_warm)
        ∧ SameRegs s u [GLB_RST_CTL_perst_warm] ∧ SameRest s u := by
  refine Answers.of_perform (exec_registerWrite _ _ _ _ _) h.1 ?_
  rw [portWrite_plain p _ _ _ s [GLB_RST_CTL_perst_warm] h (by decide) (by decide) (by simp [State.closed, GLB_RST_CTL_perst_warm]) (by rfl) (by rfl)
    (fun _ _ _ _ => rfl)]
  refine ⟨?_, portWrite_plain_keeps p _ _ _ s _⟩
  have hm := of_byteMask be (f := GLB_RST_CTL_perst_warm) rfl (by decide)
  rw [State.rd_reSignal, State.rd_storeFlds _ _ _ (List.mem_singleton.2 rfl) (by decide), State.rd_usedBy]
  split
  · next hb =>
    rw [if_pos hb] at hm
    rw [Fld.stored_rw _ _ rfl hm (by decide)]
    simp [Fld.clamp, GLB_RST_CTL_perst_warm, Fld.of]
  · next hb =>
    rw [if_neg hb] at hm
    rw [Fld.stored_none _ _ hm]

/-- The causes of a reset. -/
def rstCauses : List Fld := [GLB_RST_CAUSE_perst, GLB_RST_CAUSE_watchdog, GLB_RST_CAUSE_soft, GLB_RST_CAUSE_pin, GLB_RST_CAUSE_off, GLB_RST_CAUSE_aon]

theorem rstCauseWrite_answers {s : State} (p : Port) (be : BitVec 4) (v : Word) (h : Reaches p GLB_RST_CAUSE_aon.addr s) :
    Answers (.registerWrite p GLB_RST_CAUSE_aon.addr be v) s fun u =>
      (∀ f ∈ rstCauses, u.rd f = if be.getLsbD 0 then (if v.getLsbD f.lo then 0 else s.rd f % 2) else s.rd f)
        ∧ SameRegs s u rstCauses ∧ SameRest s u := by
  refine Answers.of_perform (exec_registerWrite _ _ _ _ _) h.1 ?_
  rw [portWrite_plain p _ _ _ s rstCauses h (by decide) (by decide) (by simp [State.closed, GLB_RST_CAUSE_aon]) (by rfl) (by rfl)
    (fun _ _ _ _ => rfl)]
  refine ⟨fun f hf => ?_, portWrite_plain_keeps p _ _ _ s _⟩
  have hb : ∀ g ∈ rstCauses, g.acc = .w1c ∧ g.w = 1 ∧ g.lo < 8 := by decide
  obtain ⟨ha, hw, hlo⟩ := hb f hf
  have hm := of_byteMask be hw hlo
  have hv : f.of v.toNat = 1 ↔ v.getLsbD f.lo = true := by
    rw [Fld.of, hw, pow_one, BitVec.getLsbD, Nat.testBit_eq_decide_div_mod_eq, decide_eq_true_iff]
  rw [State.rd_reSignal, State.rd_storeFlds _ _ _ hf (by decide), State.rd_usedBy]
  split
  · next hb =>
    rw [if_pos hb] at hm
    simp only [Fld.stored_w1c_bit _ _ ha hw hm, hv]
  · next hb =>
    rw [if_neg hb] at hm
    rw [Fld.stored_none _ _ hm]

theorem serialWrite_answers {s : State} (p : Port) (be : BitVec 4) (v : Word) (h : Reaches p GLB_SERIAL_LO_serial.addr s) :
    Answers (.registerWrite p GLB_SERIAL_LO_serial.addr be v) s fun u => SameRegs s u [] ∧ SameRest s u := by
  refine Answers.of_perform (exec_registerWrite _ _ _ _ _) h.1 ?_
  rw [portWrite_plain p _ _ _ s [] h (by decide) (by decide) (by simp [State.closed, GLB_SERIAL_LO_serial]) (by rfl) (by rfl) (fun _ _ _ _ => rfl)]
  exact portWrite_plain_keeps p GLB_SERIAL_LO_serial.addr be.toNat v.toNat s []

theorem hostDoorbell_answers {s : State} (p : Port) (v : Word) (h : Reaches p STP_DB_OUT_db.addr s) :
    Answers (.hostDoorbell p v) s fun u =>
      u.rd STP_DB_OUT_db = s.rd STP_DB_OUT_db % 2 ^ 16 ||| v.toNat % 2 ^ 16 ∧ SameRegs s u [STP_DB_OUT_db] ∧ SameRest s u := by
  refine Answers.of_perform (exec_hostDoorbell _ _ _) h.1 ?_
  rw [portWrite_plain p _ _ _ s [STP_DB_OUT_db] h (by decide) (by decide) (by simp [State.closed, STP_DB_OUT_db]) (by rfl) (by rfl) (fun _ _ _ _ => rfl)]
  refine ⟨?_, portWrite_plain_keeps p _ _ _ s _⟩
  have hst : ∀ x, STP_DB_OUT_db.stored (byteMask 15) v.toNat x = (x ||| v.toNat % 2 ^ 16) % 2 ^ 16 := fun x => by
    have hm : v.toNat / 2 ^ 0 % 2 ^ 16 &&& 0xFFFF = v.toNat % 2 ^ 16 := by
      rw [pow_zero, Nat.div_one, show (0xFFFF : Nat) = 2 ^ 16 - 1 from rfl, Nat.and_two_pow_sub_one_eq_mod, Nat.mod_mod]
    rw [byteMask_all]
    show (x ||| (v.toNat / 2 ^ 0 % 2 ^ 16 &&& 0xFFFF)) % 2 ^ 16 = _
    rw [hm]
  rw [State.rd_reSignal, State.rd_storeFlds _ _ _ (List.mem_singleton.2 rfl) (by decide), State.rd_usedBy, hst, Nat.or_mod_two_pow, Nat.mod_mod]

/-! ### Registers closed during acquisition -/

/-- In the blocks from ACQ to TIM nothing follows from a write to an offset that holds no register. -/
theorem effect_unmapped (p : Port) {a : Nat} (v bm : Nat) (old s : State) (hlo : 0x50000 ≤ a) (hhi : a < 0xB0000) (hr : (regAt a).isSome = false) :
    State.effect p a v bm old s = s := by
  have hne : ∀ b, (regAt b).isSome = true → a ≠ b := fun b hb e => by
    rw [e, hb] at hr
    exact absurd hr (by decide)
  have h5 := hne TRL_CFG_check.addr (by rfl)
  have h7 := hne HDG_CTL_check.addr (by rfl)
  have h8 := hne RED_CTL_flush.addr (by rfl)
  have h6 := hne ACQ_CTL_arm.addr (by rfl)
  have hq := hne ACQ_POST_LO_value.addr (by rfl)
  have hq' := hne ACQ_POST_HI_value.addr (by rfl)
  have ht := hne ACQ_TIMEOUT_LO_value.addr (by rfl)
  have ht' := hne ACQ_TIMEOUT_HI_value.addr (by rfl)
  have hb : a / 0x10000 = 5 ∨ a / 0x10000 = 6 ∨ a / 0x10000 = 7 ∨ a / 0x10000 = 8 ∨ a / 0x10000 = 9 ∨ a / 0x10000 = 10 := by omega
  unfold State.effect
  rcases hb with e | e | e | e | e | e <;> rw [e]
  · simp [h5]
  · simp [State.effAcq, h6, hq, hq', ht, ht']
  · simp [h7]
  · simp [h8]
  · rfl
  · rfl

theorem ignored_capture (s : State) {a : Nat} (hlo : 0x50000 ≤ a) (hhi : a < 0xB0000) : s.ignored a = false := by
  have hb : a / 0x10000 = 5 ∨ a / 0x10000 = 6 ∨ a / 0x10000 = 7 ∨ a / 0x10000 = 8 ∨ a / 0x10000 = 9 ∨ a / 0x10000 = 10 := by omega
  unfold State.ignored
  rcases hb with e | e | e | e | e | e <;> rw [e] <;> rfl

theorem closed_iff {s : State} {a : Nat} (hb : s.acqSt ≠ 0) (hlo : 0x50000 ≤ a) (hhi : a < 0xB0000) (ho : openRegs.contains a = false) :
    s.closed a = (regAt a).isSome := by
  have h5 : 5 ≤ a / 0x10000 := by omega
  have h10 : a / 0x10000 ≤ 10 := by omega
  simp only [State.closed, State.idle, hb, h5, h10, ho, decide_true, decide_false, Bool.not_false, Bool.and_true, Bool.true_and]

/-- A write to an offset without a register leaves all. -/
theorem unmappedWrite_keeps {s : State} (p : Port) (a be v : Nat) (h : Reaches p a s) (hb : s.acqSt ≠ 0) (h4 : a % 4 = 0) (hlo : 0x50000 ≤ a) (hhi : a < 0xB0000)
    (ho : openRegs.contains a = false) (hr : (regAt a).isSome = false) :
    State.portWrite p a be v s = State.reSignal a (s.usedBy p) := by
  have hst : State.storeReg (byteMask be) v a (s.usedBy p) = s.usedBy p := by
    rw [Option.isSome_eq_false_iff, Option.isNone_iff_eq_none] at hr
    simp [State.storeReg, hr]
  rw [portWrite_open p a be v s h (by omega) h4 ((closed_iff hb hlo hhi ho).trans hr) (ignored_capture s hlo hhi), hst, effect_unmapped p _ _ _ _ hlo hhi hr]

/-- What a write to a closed block leaves. -/
theorem closedWrite_answers {s : State} (p : Port) (a : Nat) (be : BitVec 4) (v : Word) (h : Reaches p a s) (hb : s.acqSt ≠ 0) (h4 : a % 4 = 0)
    (hlo : 0x50000 ≤ a) (hhi : a < 0xB0000) (ho : openRegs.contains a = false) :
    Answers (.registerWrite p a be v) s fun u =>
      ((regAt a).isSome = true → 0x50000 ≤ a ∧ a < 0x60000 → u.rd TRL_STAT_wr_ign = 1 ∧ SameRegs s u [TRL_STAT_wr_ign])
        ∧ ((regAt a).isSome = true → 0x70000 ≤ a ∧ a < 0x80000 → u.rd HDG_STAT_wr_ign = 1 ∧ SameRegs s u [HDG_STAT_wr_ign])
        ∧ ((regAt a).isNone = true ∨ (0x60000 ≤ a ∧ a < 0x70000) ∨ 0x80000 ≤ a → SameRegs s u [])
        ∧ SameRest s u := by
  refine Answers.of_perform (exec_registerWrite _ _ _ _ _) h.1 ?_
  have hu : ∀ l, SameRegs s (s.usedBy p) l := fun l => by rw [sameRegs_usedBy]; exact sameRegs_self s l
  cases hr : (regAt a).isSome with
  | false =>
    rw [unmappedWrite_keeps p a _ _ h hb h4 hlo hhi ho hr]
    exact ⟨fun k => absurd k (by decide), fun k => absurd k (by decide), fun _ => hu [], sameRest_used s p⟩
  | true =>
    have hc : s.closed a = true := (closed_iff hb hlo hhi ho).trans hr
    have hn : (regAt a).isNone = false := by rw [← Option.not_isSome, hr]; rfl
    rw [portWrite_shut p a _ _ s h (by omega) h4 hc]
    by_cases h5 : a / 0x10000 = 5
    · rw [if_pos h5]
      refine ⟨fun _ _ => ⟨by rw [State.rd_wr_same]; rfl, (sameRegs_wr _ (by decide)).2 (hu _)⟩, fun _ k => ?_, fun k => ?_, sameRest_used s p⟩
      · omega
      · simp only [hn, Bool.false_eq_true, false_or] at k
        omega
    · rw [if_neg h5]
      by_cases h7 : a / 0x10000 = 7
      · rw [if_pos h7]
        refine ⟨fun _ k => ?_, fun _ _ => ⟨by rw [State.rd_wr_same]; rfl, (sameRegs_wr _ (by decide)).2 (hu _)⟩, fun k => ?_, sameRest_used s p⟩
        · omega
        · simp only [hn, Bool.false_eq_true, false_or] at k
          omega
      · rw [if_neg h7]
        exact ⟨fun _ k => by omega, fun _ k => by omega, fun _ => hu [], sameRest_used s p⟩

/-- Settles O9, register by register, and by whether an offset holds a register. -/
theorem registerWrites : Obligations.RegisterWrites := by
  unfold Obligations.RegisterWrites
  exact ⟨fun s p be v => ⟨fun h => rstCtlWrite_answers p be v h, fun h => rstCauseWrite_answers p be v h, fun h => serialWrite_answers p be v h,
    fun h => hostDoorbell_answers p v h⟩, fun s p a be v h hb h4 hlo hhi ho => closedWrite_answers p a be v h hb h4 hlo hhi ho⟩

end Sys2Proof
end

