-- ==== Sys2Proof/Proofs/ScratchAndCapture.lean ====
section
/-! SUPPORT. Space without registers, the scratchpad, and the capture of KT72. -/

namespace Sys2Proof.Machine

/-- The enabled bytes of a word, and every other byte as before. -/
theorem read_putBytes (a be v x : Nat) (m : Mem) : (putBytes a be v m).read x
    = if a ≤ x ∧ x < a + 4 ∧ bit be (x - a) = true then BitVec.ofNat 8 (v / 256 ^ (x - a)) else m.read x := by
  have step : ∀ (m : Mem) (i : Nat), (if bit be i then m.write (a + i) [BitVec.ofNat 8 (v / 256 ^ i)] else m).read x
      = if x = a + i ∧ bit be i = true then BitVec.ofNat 8 (v / 256 ^ i) else m.read x := fun m i => by
    split
    · next hb =>
      rw [Mem.read_write]
      by_cases hx : x = a + i
      · subst hx
        simp [hb]
      · rw [if_neg (by simp only [List.length_singleton]; omega), if_neg (by simp [hx])]
    · next hb => simp [hb]
  have all : ∀ n, n ≤ 4 → (((List.range n).foldl (fun m i => if bit be i then m.write (a + i) [BitVec.ofNat 8 (v / 256 ^ i)] else m) m).read x
      = if a ≤ x ∧ x < a + n ∧ bit be (x - a) = true then BitVec.ofNat 8 (v / 256 ^ (x - a)) else m.read x) := fun n => by
    induction n with
    | zero =>
      intro _
      rw [List.range_zero, List.foldl_nil, if_neg (by omega)]
    | succ n ih =>
      intro hn
      rw [List.range_succ, List.foldl_append, List.foldl_cons, List.foldl_nil, step, ih (by omega)]
      by_cases hx : x = a + n
      · subst hx
        simp
      · have h1 : (x < a + (n + 1)) ↔ (x < a + n) := by omega
        simp [hx, h1]
  exact all 4 (by decide)

/-- KT72 is read from the time base; its words hold no field. -/
theorem State.word_kt (s : State) : s.word TMB_KT_LO_kt.addr = s.tmb.kt % 2 ^ 32 ∧ s.word (TMB_KT_LO_kt.addr + 4) = s.tmb.kt / 2 ^ 32 % 2 ^ 32
    ∧ s.word (TMB_KT_LO_kt.addr + 8) = s.tmb.kt / 2 ^ 64 % 2 ^ 8 := by
  have h0 : s.storedWord TMB_KT_LO_kt.addr = 0 := by rfl
  have h4 : s.storedWord (TMB_KT_LO_kt.addr + 4) = 0 := by rfl
  have h8 : s.storedWord (TMB_KT_LO_kt.addr + 8) = 0 := by rfl
  have v0 : s.view TMB_KT_LO_kt.addr = s.tmb.kt % 2 ^ 32 := by rfl
  have v4 : s.view (TMB_KT_LO_kt.addr + 4) = s.tmb.kt / 2 ^ 32 % 2 ^ 32 := by rfl
  have v8 : s.view (TMB_KT_LO_kt.addr + 8) = s.tmb.kt / 2 ^ 64 % 2 ^ 8 := by rfl
  simp only [State.word, h0, h4, h8, v0, v4, v8]
  omega

end Sys2Proof.Machine

namespace Sys2Proof

open Machine

theorem unmappedSpace_answers {s : State} (p : Port) (a : Nat) (be : BitVec 4) (v : Word) (h : Reaches p a s)
    (ha : (0x150000 ≤ a ∧ a < 0x200000) ∨ (0x210000 ≤ a ∧ a < 0x4000000)) :
    Answers (.registerWrite p a be v) s fun u => SameRegs s u [] ∧ SameRest s u := by
  have e : State.portWrite p a be.toNat v.toNat s = s.usedBy p := by
    rw [portWrite_reaches p a _ _ s h, State.barWrite]
    dsimp only
    rw [if_neg (by omega), if_neg (by omega), if_neg (by omega)]
  refine Answers.of_perform (exec_registerWrite _ _ _ _ _) h.1 ?_
  rw [e, sameRegs_usedBy]
  exact ⟨sameRegs_self s [], sameRest_used s p⟩

theorem scratchWrite_answers {s : State} (i : Nat) (be : BitVec 4) (v : Word) (hi : i < 0x10000) (h4 : i % 4 = 0) (h : Reaches .host (0x200000 + i) s) :
    Answers (.registerWrite .host (0x200000 + i) be v) s fun u =>
      (∀ b, u.scr.read b = if i ≤ b ∧ b < i + 4 ∧ be.getLsbD (b - i) = true then BitVec.ofNat 8 (v.toNat / 256 ^ (b - i)) else s.scr.read b)
        ∧ SameRegs s u [] ∧ SameRest s { u with scr := s.scr } := by
  have e : State.portWrite .host (0x200000 + i) be.toNat v.toNat s =
      { s.usedBy .host with scr := putBytes i be.toNat v.toNat (s.usedBy .host).scr } := by
    have ha : (0x200000 + i) % 2 ^ 26 / 4 * 4 = 0x200000 + i := by omega
    rw [portWrite_reaches _ _ _ _ s h, State.barWrite]
    simp only [ha]
    rw [if_neg (by omega), if_neg (by omega), if_pos (by omega), Nat.add_sub_cancel_left]
  refine Answers.of_perform (exec_registerWrite _ _ _ _ _) h.1 ?_
  rw [e]
  obtain ⟨l, hl⟩ := s.usedBy_moves .host
  rw [hl]
  refine ⟨fun b => ?_, sameRegs_self s [], sameRest_mk s _ _ _ _⟩
  have hb : bit be.toNat (b - i) = be.getLsbD (b - i) := by rw [bit_eq_testBit, BitVec.getLsbD]
  rw [read_putBytes, hb]

/-- What a read of the low word of KT72 makes of the state, but for where the value goes. -/
def captureKt (s : State) : State :=
  { s with caps := ins s.caps TMB_KT_LO_kt.addr [0, s.tmb.kt / 2 ^ 32 % 2 ^ 32, s.tmb.kt / 2 ^ 64 % 2 ^ 8], free := s.free + 2 }

theorem readNow_kt (p : Port) (s : State) (hr : s.trl.restart = none) :
    State.readNow p TMB_KT_LO_kt.addr s = State.readBack p (s.tmb.kt % 2 ^ 32) (captureKt s) := by
  obtain ⟨w0, w4, w8⟩ := s.word_kt
  have hf : s.freshen TMB_KT_LO_kt.addr = s := by rfl
  have hd : s.restartDue = s := by simp [State.restartDue, hr]
  have hw : s.barWord TMB_KT_LO_kt.addr = s.tmb.kt % 2 ^ 32 := w0
  have hc : State.capture TMB_KT_LO_kt.addr s = { s with caps := ins s.caps TMB_KT_LO_kt.addr [0, s.word (TMB_KT_LO_kt.addr + 4), s.word (TMB_KT_LO_kt.addr + 8)] } := by
    rfl
  have hb : State.barRead TMB_KT_LO_kt.addr s = (s.barWord TMB_KT_LO_kt.addr, { State.capture TMB_KT_LO_kt.addr s with free := s.free + 2 }) := by rfl
  rw [State.readNow, State.regRead, hf, hd, hb, hw, hc, w4, w8]
  rfl

theorem captureKt_words (s u : State) (h : u.caps = (captureKt s).caps) :
    u.readWord (TMB_KT_LO_kt.addr + 4) = s.tmb.kt / 2 ^ 32 % 2 ^ 32 ∧ u.readWord (TMB_KT_LO_kt.addr + 8) = s.tmb.kt / 2 ^ 64 % 2 ^ 8 := by
  have r4 : u.readWord (TMB_KT_LO_kt.addr + 4) = ((look u.caps TMB_KT_LO_kt.addr).getD []).getD 1 0 := by rfl
  have r8 : u.readWord (TMB_KT_LO_kt.addr + 8) = ((look u.caps TMB_KT_LO_kt.addr).getD []).getD 2 0 := by rfl
  have hl : look u.caps TMB_KT_LO_kt.addr = some [0, s.tmb.kt / 2 ^ 32 % 2 ^ 32, s.tmb.kt / 2 ^ 64 % 2 ^ 8] := by
    rw [h]
    exact look_ins_same _ _ _
  rw [r4, r8, hl]
  exact ⟨rfl, rfl⟩

theorem portRead_reaches (p : Port) (a : Nat) (s : State) (h : Reaches p a s) : State.portRead p a s = State.readNow p a (s.usedBy p) := by
  obtain ⟨_, hc, hp⟩ := h
  have hm : s.mode ≠ 0 := fun e => by simp [State.coreRun, e] at hc
  cases p with
  | host => simp [State.portRead, State.usedBy, hm, hc, hp.1, hp.2]
  | station => simp only at hp; simp [State.portRead, State.usedBy, hc, hp]
  | script =>
    simp only at hp
    simp [State.portRead, State.usedBy, hp, State.scriptReach, hc]

theorem captureRead_answers {s : State} (p : Port) (h : Reaches p TMB_KT_LO_kt.addr s) (hr : s.trl.restart = none) :
    Answers (.captureRead p TMB_KT_LO_kt.addr) s fun u =>
      u.readWord (TMB_KT_LO_kt.addr + 4) = s.tmb.kt / 2 ^ 32 % 2 ^ 32 ∧ u.readWord (TMB_KT_LO_kt.addr + 8) = s.tmb.kt / 2 ^ 64 % 2 ^ 8
        ∧ (p = .host → u.hrv.cpl = le 4 (s.tmb.kt % 2 ^ 32) ∧ u.hrv.cplPoison = false)
        ∧ (p ≠ .station → SameRegs s u []) ∧ (p = .station → SameRegs s u [STP_SW_DATA_LO_data, STP_SW_DATA_HI_data])
        ∧ SameRest s { u with caps := s.caps, free := s.free, hrv := s.hrv } := by
  refine Answers.of_perform (exec_captureRead _ _ _) h.1 ?_
  obtain ⟨l, hl⟩ := s.usedBy_moves p
  rw [portRead_reaches p _ s h, readNow_kt p (s.usedBy p) (by rw [hl]; exact hr), hl]
  cases p with
  | host =>
    obtain ⟨h4, h8⟩ := captureKt_words { s with hrv := { s.hrv with l12 := l } } (State.readBack .host (s.tmb.kt % 2 ^ 32) (captureKt { s with hrv := { s.hrv with l12 := l } })) rfl
    exact ⟨h4, h8, fun _ => ⟨rfl, rfl⟩, fun _ => sameRegs_self s [], nofun, sameRest_mk_hrv s _ _ _⟩
  | station =>
    obtain ⟨h4, h8⟩ := captureKt_words { s with hrv := { s.hrv with l12 := l } } (State.readBack .station (s.tmb.kt % 2 ^ 32) (captureKt { s with hrv := { s.hrv with l12 := l } })) rfl
    refine ⟨h4, h8, nofun, fun e => absurd rfl e, fun _ => ?_, sameRest_mk_hrv s _ _ _⟩
    rw [State.readBack, sameRegs_wr _ (by decide), sameRegs_wr _ (by decide)]
    exact sameRegs_self s _
  | script =>
    obtain ⟨h4, h8⟩ := captureKt_words { s with hrv := { s.hrv with l12 := l } } (State.readBack .script (s.tmb.kt % 2 ^ 32) (captureKt { s with hrv := { s.hrv with l12 := l } })) rfl
    exact ⟨h4, h8, nofun, fun _ => sameRegs_self s [], nofun, sameRest_mk_hrv s _ _ _⟩

/-- Settles O10, by the space written to, and by the port that reads. -/
theorem scratchAndCaptureReads : Obligations.ScratchAndCaptureReads := by
  unfold Obligations.ScratchAndCaptureReads
  exact ⟨fun s be v => ⟨fun p a h ha => unmappedSpace_answers p a be v h ha, fun i hi h4 h => scratchWrite_answers i be v hi h4 h⟩,
    fun s p h hr => captureRead_answers p h hr⟩

end Sys2Proof
end

