-- ==== Sys2Proof/Proofs/CalibrationFills.lean ====
section
/-! SUPPORT. In M7 only the calibration unit's tiles are written, and what an event of the capture engine leaves. -/

namespace Sys2Proof.Machine

/-! ### Events -/

theorem State.event_moves (s : State) (r : Rec) : ∃ A, s.event r = { s with acq := A } := by
  unfold State.event State.lead
  split
  · exact ⟨_, rfl⟩
  · split <;> exact ⟨_, rfl⟩

theorem State.mark_moves (s : State) (kt kind code ch x y n detail : Nat) (coarse : Bool) :
    ∃ A, s.mark kt kind code ch x y n detail coarse = { s with acq := A } := by
  unfold State.mark
  split
  · exact ⟨s.acq, rfl⟩
  · exact State.event_moves _ _

/-- An event changes the capture engine's own state only. -/
theorem State.event_eq (s : State) (r : Rec) : s.event r = { s with acq := (s.event r).acq } := by
  obtain ⟨_, h⟩ := s.event_moves r
  rw [h]

@[simp] theorem State.rd_event (s : State) (r : Rec) (f : Fld) : (s.event r).rd f = s.rd f := by rw [State.event_eq, State.rd_mk]

@[simp] theorem State.rd_mark (s : State) (kt kind code ch x y n detail : Nat) (coarse : Bool) (f : Fld) :
    (s.mark kt kind code ch x y n detail coarse).rd f = s.rd f := by
  obtain ⟨_, h⟩ := s.mark_moves kt kind code ch x y n detail coarse
  rw [h, State.rd_mk]

/-! ### Fills -/

/-- A fill holds bytes of its own tiles only. -/
theorem Fill.has_of_tile {f : Fill} {a : Nat} (h : f.t0 + f.n ≤ a / 2 ^ 24) : f.has a = false := by
  have hd : decide (a / 2 ^ 24 < f.t0 + f.n) = false := decide_eq_false (by omega)
  simp only [Fill.has, hd, Bool.and_false, Bool.false_and]

/-- Filling the words of a ring leaves the tiles above it. -/
theorem Mem.read_fill {m : Mem} {f : Fill} (k : Nat) {a : Nat} (h : f.t0 + f.n ≤ a / 2 ^ 24) : (m.fill f k).read a = m.read a := by
  have hk : ({ f with lo := k } : Fill).has a = false := Fill.has_of_tile h
  have hc : cellAt (m.fill f k).cells a = cellAt m.cells a := cellAt_filter_in _ _ _ fun b => by simp [hk]
  have hf : (m.fill f k).fills.find? (fun g => g.has a) = m.fills.find? fun g => g.has a := by
    rw [Mem.fill, List.find?_cons_of_neg (by simp [Fill.has_of_tile h]), List.find?_filter]
    refine List.find?_congr fun g _ => ?_
    cases hg : g.has a with
    | false => simp
    | true =>
      have hn : ¬(g.t0 = f.t0 ∧ g.n = f.n) := fun e => by
        rw [Fill.has_of_tile (by omega)] at hg
        exact absurd hg (by decide)
      rw [decide_eq_true_iff, and_iff_left rfl, Bool.not_eq_true', Bool.eq_false_iff]
      simp only [ne_eq, Bool.and_eq_true, decide_eq_true_eq]
      exact fun e => hn ⟨e.1.1.1, e.1.1.2⟩
  unfold Mem.read
  rw [hc, hf]
  rfl

/-- A ring fills its own tiles. -/
theorem State.read_ringPut (k t0 n x y : Nat) (s : State) {a : Nat} (h : t0 + n ≤ a / 2 ^ 24) : (State.ringPut k t0 n x y s).near.read a = s.near.read a := by
  unfold State.ringPut
  split
  · rfl
  · refine Mem.read_fill _ ?_
    split
    · split
      · next hg =>
        obtain ⟨h1, h2, _⟩ := hg
        exact (congrArg₂ (· + ·) h1 h2).trans_le h
      · exact h
    · exact h

/-! ### M7 -/

theorem State.owner_m7 {s : State} (hm : s.mode = 7) (hc : s.comp = false) (k : Nat) : s.owner k = if k < 4 then .calibration else .nobody := by
  simp [State.owner, hc, hm]

theorem State.tilesOf_m7 {s : State} (hm : s.mode = 7) (hc : s.comp = false) (o : Owner) (ho : o ≠ .nobody) :
    s.tilesOf o = if o = .calibration then [0, 1, 2, 3] else [] := by
  have e : s.owner = fun k => if k < 4 then .calibration else .nobody := funext (State.owner_m7 hm hc)
  unfold State.tilesOf
  rw [e]
  split
  · next h => rw [h]; rfl
  · next h =>
    rw [List.filter_eq_nil_iff]
    intro k _
    dsimp only
    split
    · simpa using Ne.symm h
    · simpa using Ne.symm ho

theorem State.read_ownerWrites {s : State} (hm : s.mode = 7) (hc : s.comp = false) (k : Nat) {o : Owner} (ho : o ≠ .nobody) {a : Nat} (ha : 2 ^ 26 ≤ a) :
    (State.ownerWrites k s o).near.read a = s.near.read a := by
  have h4 : 4 ≤ a / 2 ^ 24 := by omega
  have hl : (s.tilesOf o).headD 0 + (s.tilesOf o).length ≤ a / 2 ^ 24 := by
    rw [State.tilesOf_m7 hm hc o ho]
    split
    · exact h4
    · exact Nat.zero_le _
  have hput : ∀ x y, (State.ringPut k ((s.tilesOf o).headD 0) (s.tilesOf o).length x y s).near.read a = s.near.read a := fun x y =>
    State.read_ringPut _ _ _ _ _ s hl
  unfold State.ownerWrites
  dsimp only
  split
  · split
    · rfl
    · split <;> exact hput _ _
  · split
    · exact hput _ _
    · rfl
  · split
    · exact hput _ _
    · rfl
  · split
    · exact hput _ _
    · rfl
  · rfl
  · rfl

/-- In M7 what the writers of near memory leave stands in tiles 0 to 3 (R13). -/
theorem State.read_nearSync_m7 {s : State} (hm : s.mode = 7) (hc : s.comp = false) {a : Nat} (ha : 2 ^ 26 ≤ a) : s.nearSync.near.read a = s.near.read a := by
  have all : ∀ (l : List Owner) (u : State), (∀ o ∈ l, o ≠ Owner.nobody) → u.mode = 7 → u.comp = false →
      (l.foldl (State.ownerWrites s.free) u).near.read a = u.near.read a := by
    intro l
    induction l with
    | nil => intro u _ _ _; rfl
    | cons o r ih =>
      intro u ho um uc
      obtain ⟨h1, hr⟩ := List.forall_mem_cons.1 ho
      obtain ⟨N, P, e⟩ := u.ownerWrites_moves s.free o
      have hk : (State.ownerWrites s.free u o).mode = 7 ∧ (State.ownerWrites s.free u o).comp = false := by rw [e]; exact ⟨um, uc⟩
      rw [List.foldl_cons, ih _ hr hk.1 hk.2, State.read_ownerWrites um uc _ h1 ha]
  have hl := all [.capture 0, .capture 1, .capture 2, .capture 3, .edges 0, .edges 1, .edges 2, .edges 3, .interval, .calibration] s (by decide) hm hc
  unfold State.nearSync
  split
  · rfl
  · dsimp only
    exact hl

end Sys2Proof.Machine
end

