-- ==== Sys2Proof/Proofs/CalibrationTasks.lean ====
section
/-! SUPPORT. The starts and the end of M7's tasks, and the statement of O12. -/

namespace Sys2Proof

open Machine

/-! ### Writes of whole words -/

/-- The fields that software may change. -/
def softFlds (l : List Fld) : List Fld := l.filter fun f => decide (f.acc ≠ .ro) && decide (f.acc ≠ .wo)

theorem foldl_storeFld_soft (bm v : Nat) (l : List Fld) (s : State) : l.foldl (State.storeFld bm v) s = (softFlds l).foldl (State.storeFld bm v) s := by
  induction l generalizing s with
  | nil => rfl
  | cons f r ih =>
    rw [List.foldl_cons, ih]
    unfold softFlds
    rw [List.filter_cons]
    split
    · rfl
    · next h =>
      have ha : f.acc = .ro ∨ f.acc = .wo := by
        simp only [ne_eq, Bool.and_eq_true, decide_eq_true_eq, not_and_or, not_not] at h
        exact h
      have hs : State.storeFld bm v s f = s := by
        unfold State.storeFld
        dsimp only
        split
        · rfl
        · rcases ha with e | e <;> rw [e]
      rw [hs]

/-- What a write of a whole word stores in the fields `l`, before what it means. -/
def stored (l : List Fld) (v : Nat) (s : State) (p : Port) : State := l.foldl (State.storeFld 0xFFFFFFFF v) (s.usedBy p)

/-- A write of a whole word stores, and then means. -/
theorem portWrite_stores (p : Port) (a v : Nat) (s : State) (l : List Fld) (h : Reaches p a s) (hv : v < 2 ^ 32) (ha : a < 0x140000) (h4 : a % 4 = 0)
    (hc : s.closed a = false) (hi : s.ignored a = false) (hl : (regAt a).map (fun x => softFlds (x.1.flds x.2.1 x.2.2)) = some l) :
    State.portWrite p a 15 v s = State.reSignal a (State.effect p a v 0xFFFFFFFF (s.usedBy p) (stored l v s p)) := by
  obtain ⟨⟨r, i, j⟩, hr, rfl⟩ := Option.map_eq_some_iff.1 hl
  rw [portWrite_word p a v s h hv ha h4 hc hi, storeReg_at _ _ _ _ _ _ _ hr, foldl_storeFld_soft]
  rfl

theorem stored_moves (l : List Fld) (v : Nat) (s : State) (p : Port) : ∃ F b, stored l v s p = { s with fields := F, hrv := { s.hrv with l12 := b } } := by
  obtain ⟨b, hb⟩ := s.usedBy_moves p
  obtain ⟨F, hF⟩ := State.storeFlds_moves 0xFFFFFFFF v l (s.usedBy p)
  exact ⟨F, b, by rw [stored, hF, hb]⟩

theorem rd_stored {l : List Fld} (v : Nat) (s : State) (p : Port) {f : Fld} (hf : f ∈ l) (hn : (l.map Fld.key).Nodup) :
    (stored l v s p).rd f = f.stored 0xFFFFFFFF v (s.rd f) := by
  rw [stored, State.rd_storeFlds _ _ _ hf hn, State.rd_usedBy]

theorem rd_stored_w1c {l : List Fld} (v : Nat) (s : State) (p : Port) {f : Fld} (hf : f ∈ l) (hn : (l.map Fld.key).Nodup) (ha : f.acc = .w1c) (hw : f.w = 1)
    (hm : f.of 0xFFFFFFFF = 1) : (stored l v s p).rd f = if f.of v = 1 then 0 else s.rd f % 2 := by
  rw [rd_stored v s p hf hn, Fld.stored_w1c_bit _ _ ha hw hm]

/-- A register that none of the fields is. -/
theorem rd_stored_ne {l : List Fld} (v : Nat) (s : State) (p : Port) {g : Fld} (h : g.key ∉ l.map Fld.key) : (stored l v s p).rd g = s.rd g := by
  rw [stored, State.rd_storeFlds_ne _ _ _ _ h, State.rd_usedBy]

theorem sameRegs_stored {s : State} {l m : List Fld} (v : Nat) (p : Port) (h : m.map Fld.key ⊆ l.map Fld.key) : SameRegs s (stored m v s p) l := by
  rw [stored, sameRegs_storeFlds _ _ h, sameRegs_usedBy]
  exact sameRegs_self s l

theorem sameRest_stored (l : List Fld) (v : Nat) (s : State) (p : Port) : SameRest s (stored l v s p) := by
  obtain ⟨F, b, h⟩ := stored_moves l v s p
  rw [h]
  exact sameRest_mk s _ _ _ _

theorem mode_stored {l : List Fld} (v : Nat) (s : State) (p : Port) (h : GLB_STAT_active_mode.key ∉ l.map Fld.key) : (stored l v s p).mode = s.mode :=
  rd_stored_ne v s p h

/-! ### Starts by GLB_M7_TASK -/

/-- The fields of GLB_M7_TASK that software clears. -/
def m7Bits : List Fld := [GLB_M7_TASK_refused, GLB_M7_TASK_done]

theorem portWrite_m7 {s : State} {p : Port} (v : Nat) (h : Reaches p GLB_M7_TASK_task.addr s) (hv : v < 2 ^ 32) :
    State.portWrite p GLB_M7_TASK_task.addr 15 v s = State.reSignal GLB_M7_TASK_task.addr ((stored m7Bits v s p).m7Start (GLB_M7_TASK_task.of v)) := by
  rw [portWrite_stores p _ v s m7Bits h hv (by decide) (by decide) (by simp [State.closed, GLB_M7_TASK_task]) (by rfl) (by rfl)]
  rfl

/-- Whether a start is obeyed does not depend on what is stored. -/
theorem m7Free_stored {l : List Fld} (v : Nat) (s : State) (p : Port) (code : Nat) (h : GLB_STAT_active_mode.key ∉ l.map Fld.key) :
    (stored l v s p).m7Free code = s.m7Free code := by
  obtain ⟨F, b, e⟩ := stored_moves l v s p
  have hm := mode_stored v s p h
  simp only [State.m7Free, hm]
  rw [e]

/-- A start of a task but the probe check runs it. -/
theorem Machine.State.m7Go_eq (s : State) {code : Nat} (h : code ≠ 2) : s.m7Go code =
    if code = 3 ∨ code = 4 then ((({ s with task := some ⟨code, s.tmb.kt, []⟩ } : State).wr GLB_M7_TASK_busy 1).wr GLB_M7_TASK_task_run code).wr DSK_CAL_CTL_busy 1
    else (({ s with task := some ⟨code, s.tmb.kt, []⟩ } : State).wr GLB_M7_TASK_busy 1).wr GLB_M7_TASK_task_run code := by
  simp only [State.m7Go, if_neg h]

/-- What a task that runs leaves. -/
theorem Machine.State.m7Go_runs (s : State) {code : Nat} (h : code ≠ 2) (h8 : code < 8) :
    (s.m7Go code).rd GLB_M7_TASK_busy = 1 ∧ (s.m7Go code).rd GLB_M7_TASK_task_run = code ∧ (s.m7Go code).task = some ⟨code, s.tmb.kt, []⟩
      ∧ (code = 3 ∨ code = 4 → (s.m7Go code).rd DSK_CAL_CTL_busy = 1)
      ∧ (∀ f : Fld, f.key ∉ [GLB_M7_TASK_busy, GLB_M7_TASK_task_run, DSK_CAL_CTL_busy].map Fld.key → (s.m7Go code).rd f = s.rd f)
      ∧ (¬(code = 3 ∨ code = 4) → (s.m7Go code).rd DSK_CAL_CTL_busy = s.rd DSK_CAL_CTL_busy)
      ∧ ∃ F, s.m7Go code = { s with fields := F, task := some ⟨code, s.tmb.kt, []⟩ } := by
  have h8' : code % 8 = code := Nat.mod_eq_of_lt h8
  rw [State.m7Go_eq s h]
  split
  · next hc =>
    refine ⟨?_, ?_, rfl, fun _ => ?_, fun f hf => ?_, fun k => absurd hc k, _, rfl⟩
    · simp (disch := decide) only [State.rd_wr_ne, State.rd_wr_same]
      rfl
    · simp (disch := decide) only [State.rd_wr_ne, State.rd_wr_same]
      exact h8'
    · rw [State.rd_wr_same]
      rfl
    · simp only [List.map_cons, List.map_nil, List.mem_cons, List.not_mem_nil, or_false, not_or] at hf
      rw [State.rd_wr_ne _ _ _ _ (Ne.symm hf.2.2), State.rd_wr_ne _ _ _ _ (Ne.symm hf.2.1), State.rd_wr_ne _ _ _ _ (Ne.symm hf.1), State.rd_mk]
  · next hc =>
    refine ⟨?_, ?_, rfl, fun k => absurd k hc, fun f hf => ?_, fun _ => ?_, _, rfl⟩
    · simp (disch := decide) only [State.rd_wr_ne, State.rd_wr_same]
      rfl
    · rw [State.rd_wr_same]
      exact h8'
    · simp only [List.map_cons, List.map_nil, List.mem_cons, List.not_mem_nil, or_false, not_or] at hf
      rw [State.rd_wr_ne _ _ _ _ (Ne.symm hf.2.1), State.rd_wr_ne _ _ _ _ (Ne.symm hf.1), State.rd_mk]
    · simp (disch := decide) only [State.rd_wr_ne, State.rd_mk]

/-- A task of a row runs. -/
def RowRuns (s : State) (t code : Nat) (es : List (Nat × Nat × Int × Int × Int)) (u : State) : Prop :=
  (s.mode = 7 → s.hks.entering = false → u.rd GLB_M7_TASK_busy = 1 ∧ u.rd GLB_M7_TASK_task_run = code ∧ u.task = some ⟨code, max s.tmb.kt t, es⟩
      ∧ (code = 3 ∨ code = 4 → u.rd DSK_CAL_CTL_busy = 1)
      ∧ SameRegs s u [GLB_M7_TASK_busy, GLB_M7_TASK_task_run, GLB_M7_TASK_refused, GLB_M7_TASK_done, DSK_CAL_CTL_busy]
      ∧ u.rd GLB_M7_TASK_refused = s.rd GLB_M7_TASK_refused % 2
      ∧ (code = 1 ∨ code = 6 → u.rd DSK_CAL_CTL_busy = s.rd DSK_CAL_CTL_busy))
    ∧ (s.mode ≠ 7 ∨ s.hks.entering = true → u.rd GLB_M7_TASK_refused = 1 ∧ u.task = none ∧ SameRegs s u [GLB_M7_TASK_refused, GLB_M7_TASK_done])
    ∧ u.rd GLB_M7_TASK_done = s.rd GLB_M7_TASK_done % 2 ∧ TimeAt s u t ∧ SameRest s { u with task := s.task }

theorem m7Free_iff {s : State} {code : Nat} (ht : s.task = none) (hp : s.inp.pchk = none) (hc : code = 1 ∨ code = 3 ∨ code = 4 ∨ code = 6) :
    s.m7Free code = true ↔ s.mode = 7 ∧ s.hks.entering = false := by
  have : (code = 1 || code = 2 || code = 3 || code = 4 || code = 6) = true := by
    rcases hc with rfl | rfl | rfl | rfl <;> rfl
  simp [State.m7Free, ht, hp, this]

/-- The bits that a start writes as 0 are kept. -/
theorem rd_m7Bits (code : Nat) (s : State) (p : Port) (hc : code < 8) : ∀ f ∈ m7Bits, (stored m7Bits code s p).rd f = s.rd f % 2 := by
  have key : ∀ f ∈ m7Bits, f.acc = .w1c ∧ f.w = 1 ∧ f.of 0xFFFFFFFF = 1 ∧ 3 ≤ f.lo := by decide
  intro f hf
  obtain ⟨ha, hw, hm, hl⟩ := key f hf
  have hv : f.of code = 0 := by
    have : code < 2 ^ f.lo := lt_of_lt_of_le (show code < 2 ^ 3 from hc) (Nat.pow_le_pow_right (n := 2) (by decide) hl)
    rw [Fld.of, Nat.div_eq_of_lt this, Nat.zero_mod]
  rw [rd_stored_w1c code s p hf (by decide) ha hw hm, hv]
  rfl

theorem m7Row_runs {s : State} {p : Port} (t code : Nat) (es : List (Nat × Nat × Int × Int × Int)) (hr : Reaches p GLB_M7_TASK_task.addr s) (ht : s.task = none)
    (hp : s.inp.pchk = none) (hc : code = 1 ∨ code = 3 ∨ code = 4 ∨ code = 6) : RowRuns s t code es (State.m7Row p code es t s) := by
  have h8 : code < 8 := by omega
  have hof : GLB_M7_TASK_task.of code = code := by
    show code / 2 ^ 0 % 2 ^ 3 = code
    omega
  have hrow : State.m7Row p code es t s = State.m7Results
      (State.reSignal GLB_M7_TASK_task.addr ((stored m7Bits code (s.advance t) p).m7Start code)) code es := by
    have hn : ¬((s.advance t).task.map Task.code = some code) := by simp [ht]
    rw [State.m7Row]
    simp only [hn, if_false]
    rw [portWrite_m7 code (hr.advance t) (by omega), hof]
  have hbits := rd_m7Bits code (s.advance t) p h8
  simp only [State.rd_advance] at hbits
  have hsame := sameRegs_stored (s := s.advance t) (l := m7Bits) (m := m7Bits) code p (List.Subset.refl _)
  obtain ⟨F, b, hst⟩ := stored_moves m7Bits code (s.advance t) p
  obtain ⟨k, hk, hkt⟩ := s.advance_moves t
  have hfree : (stored m7Bits code (s.advance t) p).m7Free code = true ↔ s.mode = 7 ∧ s.hks.entering = false := by
    rw [m7Free_stored code _ p code (by decide), ← State.mode_advance s t, ← State.advance_hks s t]
    exact m7Free_iff ((s.advance_task t).trans ht) (by rw [State.advance_inp]; exact hp) hc
  have hvt : (stored m7Bits code (s.advance t) p).tmb.kt = max s.tmb.kt t := by rw [hst]; exact State.advance_kt s t
  have hvm : ∃ F b, stored m7Bits code (s.advance t) p = { s with fields := F, tmb := k, hrv := { s.hrv with l12 := b } } :=
    ⟨F, b, by rw [hst, hk]⟩
  rw [hrow]
  generalize stored m7Bits code (s.advance t) p = v at hbits hsame hfree hvt hvm
  clear hst
  obtain ⟨F, b, hv⟩ := hvm
  have h0 : code ≠ 0 := by omega
  by_cases hf : v.m7Free code = true
  · obtain ⟨g1, g2, g3, g4, g5, g6, G, g7⟩ := v.m7Go_runs (code := code) (by omega) h8
    have hu : State.m7Results (State.reSignal GLB_M7_TASK_task.addr (v.m7Start code)) code es
        = { State.reSignal GLB_M7_TASK_task.addr (v.m7Go code) with task := some ⟨code, v.tmb.kt, es⟩ } := by
      have ht : (State.reSignal GLB_M7_TASK_task.addr (v.m7Go code)).task = some ⟨code, v.tmb.kt, []⟩ := g3
      rw [State.m7Start, if_neg h0, if_pos hf, State.m7Results, ht]
      simp only [if_true]
    rw [hu]
    generalize v.m7Go code = w at g1 g2 g4 g5 g6 g7
    have hw : ∀ f, State.rd { State.reSignal GLB_M7_TASK_task.addr w with task := some ⟨code, v.tmb.kt, es⟩ } f = w.rd f := fun f => by
      rw [State.rd_mk, State.rd_reSignal]
    obtain ⟨hm, he⟩ := hfree.1 hf
    refine ⟨fun _ _ => ⟨(hw _).trans g1, (hw _).trans g2, by rw [← hvt], fun h => (hw _).trans (g4 h), fun f hf => (hw f).trans ?_,
      (hw _).trans ((g5 _ (by decide)).trans (hbits _ (by decide))), fun hc' => (hw _).trans ?_⟩,
      fun h => ?_, (hw _).trans ((g5 _ (by decide)).trans (hbits _ (by decide))), ?_, ?_⟩
    · have h1 : f.key ∉ [GLB_M7_TASK_busy, GLB_M7_TASK_task_run, DSK_CAL_CTL_busy].map Fld.key := fun e => hf (List.map_subset _ (by decide) e)
      have h2 : f.key ∉ m7Bits.map Fld.key := fun e => hf (List.map_subset _ (by decide) e)
      exact ((g5 f h1).trans (hsame f h2)).trans (State.rd_advance s t f)
    · exact ((g6 (by omega)).trans (hsame _ (by decide))).trans (State.rd_advance s t _)
    · rcases h with h | h
      · exact absurd hm h
      · rw [he] at h
        exact absurd h (by decide)
    · rw [TimeAt, ← hvt, g7]
      rfl
    · rw [g7, hv]
      exact sameRest_mk s _ _ _ _
  · have hu : State.m7Results (State.reSignal GLB_M7_TASK_task.addr (v.m7Start code)) code es
        = State.reSignal GLB_M7_TASK_task.addr (v.wr GLB_M7_TASK_refused 1) := by
      have hn : (State.reSignal GLB_M7_TASK_task.addr (v.wr GLB_M7_TASK_refused 1)).task = none := by rw [hv]; exact ht
      rw [State.m7Start, if_neg h0, if_neg hf, State.m7Results, hn]
    rw [hu]
    have hd : (v.wr GLB_M7_TASK_refused 1).rd GLB_M7_TASK_done = s.rd GLB_M7_TASK_done % 2 := by
      rw [State.rd_wr_ne _ _ _ _ (by decide)]
      exact hbits _ (by decide)
    refine ⟨fun hm he => absurd (hfree.2 ⟨hm, he⟩) hf, fun _ => ⟨State.rd_wr_same v GLB_M7_TASK_refused 1, by rw [hv]; exact ht, ?_⟩, hd, hvt, ?_⟩
    · rw [sameRegs_reSignal, sameRegs_wr _ (by decide)]
      exact (advance_sameRegs s v t _).1 hsame
    · rw [hv]
      exact sameRest_mk s _ _ _ _

/-! ### Starts by DSK_CAL_CTL -/

/-- The fields of DSK_CAL_CTL that software clears. -/
def calBits : List Fld := [DSK_CAL_CTL_tdc_done, DSK_CAL_CTL_inj_done, DSK_CAL_CTL_refused]

theorem portWrite_cal {s : State} {p : Port} (v : Nat) (h : Reaches p DSK_CAL_CTL_busy.addr s) (hv : v < 2 ^ 32) :
    State.portWrite p DSK_CAL_CTL_busy.addr 15 v s = State.reSignal DSK_CAL_CTL_busy.addr
      ((stored calBits v s p).dskStart (decide (DSK_CAL_CTL_inj_start.of v = 1)) (decide (DSK_CAL_CTL_tdc_start.of v = 1))) := by
  have hi : s.ignored DSK_CAL_CTL_busy.addr = false := by
    show (s.is512 && decide (512 ≤ (DSK_CAL_CTL_busy.addr - 0x40000) / 64)) = false
    simp [DSK_CAL_CTL_busy]
  rw [portWrite_stores p _ v s calBits h hv (by decide) (by decide) (by simp [State.closed, DSK_CAL_CTL_busy]) hi (by rfl)]
  rfl

/-- One start of a calibration: it runs, or it is refused, in M7 in both registers. -/
def calGo (u : State) (code : Nat) : State :=
  if u.m7Free code then u.m7Go code else (if u.mode = 7 then u.wr GLB_M7_TASK_refused 1 else u).wr DSK_CAL_CTL_refused 1

theorem dskStart_eq (s : State) (inj tdc : Bool) :
    s.dskStart inj tdc = let s1 := if inj then calGo s 3 else s; if tdc then calGo s1 4 else s1 := rfl

/-- The registers that calibrations start and end by. -/
def calShown : List Fld := [DSK_CAL_CTL_inj_done, DSK_CAL_CTL_tdc_done, DSK_CAL_CTL_refused, DSK_CAL_CTL_busy, GLB_M7_TASK_refused, GLB_M7_TASK_busy,
  GLB_M7_TASK_task_run]

/-- What a start leaves, started or refused. -/
structure CalFrame (s u : State) : Prop where
  done : ∀ f ∈ [DSK_CAL_CTL_inj_done, DSK_CAL_CTL_tdc_done], u.rd f = s.rd f
  regs : SameRegs s u calShown
  rest : ∃ F k, u = { s with fields := F, task := k }

theorem CalFrame.refl (s : State) : CalFrame s s := ⟨fun _ _ => rfl, sameRegs_self s _, s.fields, s.task, rfl⟩

theorem CalFrame.trans {s u v : State} (h : CalFrame s u) (k : CalFrame u v) : CalFrame s v := by
  obtain ⟨F, a, e⟩ := h.rest
  obtain ⟨G, b, e'⟩ := k.rest
  exact ⟨fun f hf => (k.done f hf).trans (h.done f hf), h.regs.trans k.regs, G, b, by rw [e', e]⟩

/-- A start that is obeyed. -/
theorem calGo_free {u : State} {code : Nat} (hc : code = 3 ∨ code = 4) (h : u.m7Free code = true) :
    CalFrame u (calGo u code) ∧ (calGo u code).task = some ⟨code, u.tmb.kt, []⟩ ∧ (calGo u code).rd GLB_M7_TASK_busy = 1
      ∧ (calGo u code).rd GLB_M7_TASK_task_run = code ∧ (calGo u code).rd DSK_CAL_CTL_busy = 1
      ∧ (calGo u code).rd DSK_CAL_CTL_refused = u.rd DSK_CAL_CTL_refused ∧ (calGo u code).rd GLB_M7_TASK_refused = u.rd GLB_M7_TASK_refused := by
  obtain ⟨g1, g2, g3, g4, g5, _, G, g7⟩ := u.m7Go_runs (code := code) (by omega) (by omega)
  have e : calGo u code = u.m7Go code := if_pos h
  rw [e]
  have hd : ∀ f ∈ [DSK_CAL_CTL_inj_done, DSK_CAL_CTL_tdc_done, DSK_CAL_CTL_refused, GLB_M7_TASK_refused],
      f.key ∉ [GLB_M7_TASK_busy, GLB_M7_TASK_task_run, DSK_CAL_CTL_busy].map Fld.key := by decide
  refine ⟨⟨fun f hf => g5 f (hd f (List.mem_append_left [DSK_CAL_CTL_refused, GLB_M7_TASK_refused] hf)), fun f hf => g5 f fun k => hf (List.map_subset _ (by decide) k), G, _, g7⟩, g3, g1, g2, g4 hc,
    g5 _ (by decide), g5 _ (by decide)⟩

/-- A start that is refused. -/
theorem calGo_refused {u : State} {code : Nat} (h : ¬u.m7Free code = true) :
    CalFrame u (calGo u code) ∧ (calGo u code).task = u.task ∧ (calGo u code).rd DSK_CAL_CTL_refused = 1
      ∧ (u.mode = 7 → (calGo u code).rd GLB_M7_TASK_refused = 1) ∧ (u.mode ≠ 7 → (calGo u code).rd GLB_M7_TASK_refused = u.rd GLB_M7_TASK_refused)
      ∧ (∀ f ∈ [DSK_CAL_CTL_busy, GLB_M7_TASK_busy, GLB_M7_TASK_task_run], (calGo u code).rd f = u.rd f)
      ∧ (calGo u code).mode = u.mode ∧ (calGo u code).m7Free = u.m7Free := by
  have e : calGo u code = (if u.mode = 7 then u.wr GLB_M7_TASK_refused 1 else u).wr DSK_CAL_CTL_refused 1 := if_neg h
  have hrd : ∀ f : Fld, f.key ≠ DSK_CAL_CTL_refused.key → f.key ≠ GLB_M7_TASK_refused.key → (calGo u code).rd f = u.rd f := fun f h1 h2 => by
    rw [e, State.rd_wr_ne _ _ _ _ (Ne.symm h1)]
    split
    · exact State.rd_wr_ne _ _ _ _ (Ne.symm h2)
    · rfl
  have hmove : ∃ F, calGo u code = { u with fields := F } := by
    rw [e]
    split
    · exact ⟨_, rfl⟩
    · exact ⟨_, rfl⟩
  have hne : ∀ f ∈ [DSK_CAL_CTL_inj_done, DSK_CAL_CTL_tdc_done, DSK_CAL_CTL_busy, GLB_M7_TASK_busy, GLB_M7_TASK_task_run, GLB_STAT_active_mode],
      f.key ≠ DSK_CAL_CTL_refused.key ∧ f.key ≠ GLB_M7_TASK_refused.key := by decide
  have hk : ∀ f ∈ [DSK_CAL_CTL_inj_done, DSK_CAL_CTL_tdc_done, DSK_CAL_CTL_busy, GLB_M7_TASK_busy, GLB_M7_TASK_task_run, GLB_STAT_active_mode],
      (calGo u code).rd f = u.rd f := fun f hf => hrd f (hne f hf).1 (hne f hf).2
  have hmode : (calGo u code).mode = u.mode := hk GLB_STAT_active_mode (by decide)
  obtain ⟨F, hF⟩ := hmove
  refine ⟨⟨fun f hf => hk f (List.mem_append_left [DSK_CAL_CTL_busy, GLB_M7_TASK_busy, GLB_M7_TASK_task_run, GLB_STAT_active_mode] hf), fun f hf => ?_, F, u.task, hF⟩, by rw [hF], ?_, fun hm => ?_, fun hm => ?_,
    fun f hf => ?_, hmode, ?_⟩
  · refine hrd f (fun k => hf ?_) (fun k => hf ?_)
    · rw [k]; decide
    · rw [k]; decide
  · rw [e, State.rd_wr_same]
    rfl
  · rw [e, State.rd_wr_ne _ _ _ _ (by decide), if_pos hm, State.rd_wr_same]
    rfl
  · rw [e, State.rd_wr_ne _ _ _ _ (by decide), if_neg hm]
  · refine hk f ?_
    simp only [List.mem_cons, List.not_mem_nil, or_false] at hf ⊢
    rcases hf with rfl | rfl | rfl <;> simp
  · funext c
    simp only [State.m7Free, hmode]
    rw [hF]

/-- What a write of DSK_CAL_CTL leaves beside what it starts. -/
theorem calWrite_frame {s u : State} {p : Port} {v : Nat} (hv : v < 4) (h : CalFrame (stored calBits v s p) u) :
    (∀ f ∈ [DSK_CAL_CTL_inj_done, DSK_CAL_CTL_tdc_done], u.rd f = s.rd f % 2) ∧ SameRegs s u calShown ∧ SameRest s { u with task := s.task } := by
  have key : ∀ f ∈ [DSK_CAL_CTL_inj_done, DSK_CAL_CTL_tdc_done], f ∈ calBits ∧ f.acc = .w1c ∧ f.w = 1 ∧ f.of 0xFFFFFFFF = 1 ∧ 2 ≤ f.lo := by decide
  refine ⟨fun f hf => ?_, (sameRegs_stored v p (by decide)).trans h.regs, ?_⟩
  · obtain ⟨hm, ha, hw, ho, hl⟩ := key f hf
    have h0 : f.of v = 0 := by
      have : v < 2 ^ f.lo := lt_of_lt_of_le (show v < 2 ^ 2 from hv) (Nat.pow_le_pow_right (n := 2) (by decide) hl)
      rw [Fld.of, Nat.div_eq_of_lt this, Nat.zero_mod]
    rw [h.done f hf, rd_stored_w1c v s p hm (by decide) ha hw ho, h0]
    rfl
  · obtain ⟨F, k, e⟩ := h.rest
    obtain ⟨G, b, e'⟩ := stored_moves calBits v s p
    rw [e, e']
    exact sameRest_mk s _ _ _ _

theorem stored_calBits_refused {s : State} {p : Port} {v : Nat} (hv : v < 4) : (stored calBits v s p).rd DSK_CAL_CTL_refused = s.rd DSK_CAL_CTL_refused % 2 := by
  have h0 : DSK_CAL_CTL_refused.of v = 0 := by
    show v / 2 ^ 3 % 2 ^ 1 = 0
    omega
  rw [rd_stored_w1c v s p (by decide) (by decide) rfl rfl rfl, h0]
  rfl

/-- The states in which a calibration starts. -/
def CalFree (s : State) : Prop := s.mode = 7 ∧ s.hks.entering = false ∧ s.task = none ∧ s.inp.pchk = none

theorem m7Free_cal {s : State} {code : Nat} (hc : code = 3 ∨ code = 4) : s.m7Free code = true ↔ CalFree s := by
  have : (code = 1 || code = 2 || code = 3 || code = 4 || code = 6) = true := by
    rcases hc with rfl | rfl <;> rfl
  simp only [State.m7Free, this, Bool.and_true, Bool.and_eq_true, decide_eq_true_eq, Bool.not_eq_true', Option.isNone_iff_eq_none, CalFree, and_assoc]

/-- The write of DSK_CAL_CTL answers. -/
theorem calWrite_answers {s : State} {p : Port} (v : Nat) (P : State → Prop) (h : Reaches p DSK_CAL_CTL_busy.addr s) (hv : v < 4)
    (hf : CalFrame (stored calBits v s p) ((stored calBits v s p).dskStart (decide (DSK_CAL_CTL_inj_start.of v = 1)) (decide (DSK_CAL_CTL_tdc_start.of v = 1))))
    (hp : P (State.reSignal DSK_CAL_CTL_busy.addr
      ((stored calBits v s p).dskStart (decide (DSK_CAL_CTL_inj_start.of v = 1)) (decide (DSK_CAL_CTL_tdc_start.of v = 1))))) :
    Answers (.registerWrite p DSK_CAL_CTL_busy.addr 15 (BitVec.ofNat 32 v)) s fun u =>
      P u ∧ (∀ f ∈ [DSK_CAL_CTL_inj_done, DSK_CAL_CTL_tdc_done], u.rd f = s.rd f % 2) ∧ SameRegs s u calShown ∧ SameRest s { u with task := s.task } := by
  have hn : (BitVec.ofNat 32 v).toNat = v := by rw [BitVec.toNat_ofNat, Nat.mod_eq_of_lt (by omega)]
  refine Answers.of_perform (exec_registerWrite _ _ _ _ _) h.1 ?_
  rw [hn, show (15 : BitVec 4).toNat = 15 from rfl, portWrite_cal v h (by omega)]
  obtain ⟨h1, h2, h3⟩ := calWrite_frame hv hf
  exact ⟨hp, h1, h2, h3⟩

end Sys2Proof
end

