-- ==== Sys2Proof/Proofs/CalibrationEnds.lean ====
section
/-! SUPPORT. The starts through DSK_CAL_CTL case by case, the end of a task, and the statement of O12. -/

namespace Sys2Proof

open Machine

/-- Where a calibration may start, one start runs, and the second of one write is refused (log entry 96). -/
theorem calStart_free {s : State} {p : Port} (h : Reaches p DSK_CAL_CTL_busy.addr s) (hf : CalFree s) :
    let runs := fun (code : Nat) (u : State) => u.task = some ⟨code, s.tmb.kt, []⟩ ∧ u.rd GLB_M7_TASK_busy = 1
      ∧ u.rd GLB_M7_TASK_task_run = code ∧ u.rd DSK_CAL_CTL_busy = 1
    let calm := fun u : State => u.rd DSK_CAL_CTL_refused = s.rd DSK_CAL_CTL_refused % 2 ∧ u.rd GLB_M7_TASK_refused = s.rd GLB_M7_TASK_refused
    let start := fun (v : Word) (P : State → Prop) => Answers (.registerWrite p DSK_CAL_CTL_busy.addr 15 v) s fun u =>
      P u ∧ (∀ f ∈ [DSK_CAL_CTL_inj_done, DSK_CAL_CTL_tdc_done], u.rd f = s.rd f % 2) ∧ SameRegs s u calShown ∧ SameRest s { u with task := s.task }
    start 1 (fun u => runs 3 u ∧ calm u) ∧ start 2 (fun u => runs 4 u ∧ calm u)
      ∧ start 3 (fun u => runs 3 u ∧ u.rd DSK_CAL_CTL_refused = 1 ∧ u.rd GLB_M7_TASK_refused = 1) := by
  intro runs calm start
  have hm : ∀ v code, code = 3 ∨ code = 4 → (stored calBits v s p).m7Free code = true := fun v code hc => by
    rw [m7Free_stored v s p code (by decide)]
    exact (m7Free_cal hc).2 hf
  have hkt : ∀ v, (stored calBits v s p).tmb.kt = s.tmb.kt := fun v => by
    obtain ⟨F, b, e⟩ := stored_moves calBits v s p
    rw [e]
  have hglb : ∀ v, (stored calBits v s p).rd GLB_M7_TASK_refused = s.rd GLB_M7_TASK_refused := fun v => rd_stored_ne v s p (by decide)
  have hmode : ∀ v, (stored calBits v s p).mode = 7 := fun v => (mode_stored v s p (by decide)).trans hf.1
  refine ⟨?_, ?_, ?_⟩
  · obtain ⟨g0, g1, g2, g3, g4, g5, g6⟩ := calGo_free (.inl rfl) (hm 1 3 (.inl rfl))
    have e : (stored calBits 1 s p).dskStart (decide (DSK_CAL_CTL_inj_start.of 1 = 1)) (decide (DSK_CAL_CTL_tdc_start.of 1 = 1))
        = calGo (stored calBits 1 s p) 3 := by rw [dskStart_eq]; rfl
    refine calWrite_answers 1 _ h (by decide) (by rw [e]; exact g0) ?_
    rw [e]
    exact ⟨⟨g1.trans (by rw [hkt]), g2, g3, g4⟩, g5.trans (stored_calBits_refused (by decide)), g6.trans (hglb 1)⟩
  · obtain ⟨g0, g1, g2, g3, g4, g5, g6⟩ := calGo_free (.inr rfl) (hm 2 4 (.inr rfl))
    have e : (stored calBits 2 s p).dskStart (decide (DSK_CAL_CTL_inj_start.of 2 = 1)) (decide (DSK_CAL_CTL_tdc_start.of 2 = 1))
        = calGo (stored calBits 2 s p) 4 := by rw [dskStart_eq]; rfl
    refine calWrite_answers 2 _ h (by decide) (by rw [e]; exact g0) ?_
    rw [e]
    exact ⟨⟨g1.trans (by rw [hkt]), g2, g3, g4⟩, g5.trans (stored_calBits_refused (by decide)), g6.trans (hglb 2)⟩
  · obtain ⟨g0, g1, g2, g3, g4, _, _⟩ := calGo_free (.inl rfl) (hm 3 3 (.inl rfl))
    have hbusy : ¬(calGo (stored calBits 3 s p) 3).m7Free 4 = true := fun k => by
      have := ((m7Free_cal (.inr rfl)).1 k).2.2.1
      rw [g1] at this
      exact absurd this (by simp)
    have hmode3 : (calGo (stored calBits 3 s p) 3).mode = 7 := (g0.regs GLB_STAT_active_mode (by decide)).trans (hmode 3)
    obtain ⟨k0, k1, k2, k3, _, k5, _, _⟩ := calGo_refused hbusy
    have e : (stored calBits 3 s p).dskStart (decide (DSK_CAL_CTL_inj_start.of 3 = 1)) (decide (DSK_CAL_CTL_tdc_start.of 3 = 1))
        = calGo (calGo (stored calBits 3 s p) 3) 4 := by rw [dskStart_eq]; rfl
    refine calWrite_answers 3 _ h (by decide) (by rw [e]; exact g0.trans k0) ?_
    rw [e]
    have t1 := k1.trans g1
    rw [hkt] at t1
    replace k3 := k3 hmode3
    have k5 := fun f hf => (k5 f hf)
    generalize calGo (calGo (stored calBits 3 s p) 3) 4 = w at k2 k3 k5 t1
    exact ⟨⟨t1, (k5 GLB_M7_TASK_busy (by decide)).trans g2, (k5 GLB_M7_TASK_task_run (by decide)).trans g3, (k5 DSK_CAL_CTL_busy (by decide)).trans g4⟩, k2, k3⟩

/-- What a refused start of `u` leaves. -/
def CalTurned (u v : State) : Prop :=
  CalFrame u v ∧ v.task = u.task ∧ v.rd DSK_CAL_CTL_refused = 1 ∧ (u.mode = 7 → v.rd GLB_M7_TASK_refused = 1)
    ∧ (u.mode ≠ 7 → v.rd GLB_M7_TASK_refused = u.rd GLB_M7_TASK_refused)
    ∧ ∀ f ∈ [DSK_CAL_CTL_busy, GLB_M7_TASK_busy, GLB_M7_TASK_task_run], v.rd f = u.rd f

/-- Where no calibration may start, each start that is written is refused, and nothing else. -/
theorem dskStart_turned {u : State} (inj tdc : Bool) (h : inj = true ∨ tdc = true) (h3 : ¬u.m7Free 3 = true) (h4 : ¬u.m7Free 4 = true) :
    CalTurned u (u.dskStart inj tdc) := by
  obtain ⟨a0, a1, a2, a3, a4, a5, a6, a7⟩ := calGo_refused h3
  obtain ⟨b0, b1, b2, b3, b4, b5, _, _⟩ := calGo_refused h4
  rw [dskStart_eq]
  cases inj with
  | false =>
    have ht : tdc = true := h.resolve_left (by decide)
    rw [ht]
    exact ⟨b0, b1, b2, b3, b4, b5⟩
  | true =>
    cases tdc with
    | false => exact ⟨a0, a1, a2, a3, a4, a5⟩
    | true =>
      have h4' : ¬(calGo u 3).m7Free 4 = true := by rwa [a7]
      obtain ⟨c0, c1, c2, c3, c4, c5, _, _⟩ := calGo_refused h4'
      exact ⟨a0.trans c0, c1.trans a1, c2, fun hm => c3 (a6.trans hm), fun hm => (c4 (by rwa [a6])).trans (a4 hm), fun f hf => (c5 f hf).trans (a5 f hf)⟩

theorem calStart_refused {s : State} {p : Port} (h : Reaches p DSK_CAL_CTL_busy.addr s) (hf : ¬CalFree s) : ∀ v ∈ ([1, 2, 3] : List Word),
    Answers (.registerWrite p DSK_CAL_CTL_busy.addr 15 v) s fun u =>
      ((u.rd DSK_CAL_CTL_refused = 1 ∧ (s.mode = 7 → u.rd GLB_M7_TASK_refused = 1) ∧ (¬s.mode = 7 → u.rd GLB_M7_TASK_refused = s.rd GLB_M7_TASK_refused))
          ∧ u.task = s.task ∧ (∀ f ∈ [DSK_CAL_CTL_busy, GLB_M7_TASK_busy, GLB_M7_TASK_task_run], u.rd f = s.rd f))
        ∧ (∀ f ∈ [DSK_CAL_CTL_inj_done, DSK_CAL_CTL_tdc_done], u.rd f = s.rd f % 2) ∧ SameRegs s u calShown ∧ SameRest s { u with task := s.task } := by
  have hcase : ∀ v : Nat, v < 4 → DSK_CAL_CTL_inj_start.of v = 1 ∨ DSK_CAL_CTL_tdc_start.of v = 1 → Answers (.registerWrite p DSK_CAL_CTL_busy.addr 15 (BitVec.ofNat 32 v)) s fun u =>
      ((u.rd DSK_CAL_CTL_refused = 1 ∧ (s.mode = 7 → u.rd GLB_M7_TASK_refused = 1) ∧ (¬s.mode = 7 → u.rd GLB_M7_TASK_refused = s.rd GLB_M7_TASK_refused))
          ∧ u.task = s.task ∧ (∀ f ∈ [DSK_CAL_CTL_busy, GLB_M7_TASK_busy, GLB_M7_TASK_task_run], u.rd f = s.rd f))
        ∧ (∀ f ∈ [DSK_CAL_CTL_inj_done, DSK_CAL_CTL_tdc_done], u.rd f = s.rd f % 2) ∧ SameRegs s u calShown ∧ SameRest s { u with task := s.task } := by
    intro v hv hst
    have hm : ∀ code, code = 3 ∨ code = 4 → ¬(stored calBits v s p).m7Free code = true := fun code hc => by
      rw [m7Free_stored v s p code (by decide)]
      exact fun k => hf ((m7Free_cal hc).1 k)
    obtain ⟨g0, g1, g2, g3, g4, g5⟩ := dskStart_turned (u := stored calBits v s p) (decide (DSK_CAL_CTL_inj_start.of v = 1)) (decide (DSK_CAL_CTL_tdc_start.of v = 1))
      (by simpa using hst) (hm 3 (.inl rfl)) (hm 4 (.inr rfl))
    have hmode : (stored calBits v s p).mode = s.mode := mode_stored v s p (by decide)
    have htask : (stored calBits v s p).task = s.task := by
      obtain ⟨F, b, e⟩ := stored_moves calBits v s p
      rw [e]
    have hne : ∀ f ∈ [DSK_CAL_CTL_busy, GLB_M7_TASK_busy, GLB_M7_TASK_task_run], f.key ∉ calBits.map Fld.key := by decide
    exact calWrite_answers v _ h hv g0 ⟨⟨g2, fun k => g3 (hmode.trans k), fun k => (g4 (by rwa [hmode])).trans (rd_stored_ne v s p (by decide))⟩,
      g1.trans htask, fun f hf => (g5 f hf).trans (rd_stored_ne v s p (hne f hf))⟩
  intro v hv
  simp only [List.mem_cons, List.not_mem_nil, or_false] at hv
  rcases hv with rfl | rfl | rfl
  · exact hcase 1 (by decide) (by decide)
  · exact hcase 2 (by decide) (by decide)
  · exact hcase 3 (by decide) (by decide)

/-! ### The end of a task -/

/-- What the end of a task shows, over the state with its effect and its record. -/
def m7Ended (s : State) (k : Machine.Task) : State :=
  (((((s.wr GLB_M7_TASK_busy 0).wr GLB_M7_TASK_task_run 0).wr GLB_M7_TASK_done 1).wr GLB_M7_TASK_last_task k.code).wr GLB_M7_TASK_last_status 0).wr DSK_CAL_CTL_busy 0

/-- The registers that the end of a task writes. -/
def m7EndFlds : List Fld := [GLB_M7_TASK_busy, GLB_M7_TASK_task_run, GLB_M7_TASK_done, GLB_M7_TASK_last_task, GLB_M7_TASK_last_status, DSK_CAL_CTL_busy]

theorem m7Ended_regs (s : State) (k : Machine.Task) :
    (m7Ended s k).rd GLB_M7_TASK_busy = 0 ∧ (m7Ended s k).rd GLB_M7_TASK_task_run = 0 ∧ (m7Ended s k).rd GLB_M7_TASK_done = 1
      ∧ (m7Ended s k).rd GLB_M7_TASK_last_task = k.code % 8 ∧ (m7Ended s k).rd GLB_M7_TASK_last_status = 0 ∧ (m7Ended s k).rd DSK_CAL_CTL_busy = 0 := by
  refine ⟨?_, ?_, ?_, ?_, ?_, ?_⟩ <;> simp (disch := decide) only [m7Ended, State.rd_wr_ne, State.rd_wr_same] <;> rfl

theorem sameRegs_m7Ended {s u : State} {l : List Fld} (k : Machine.Task) (h : m7EndFlds.map Fld.key ⊆ l.map Fld.key) (hu : SameRegs s u l) : SameRegs s (m7Ended u k) l := by
  simp only [m7EndFlds, List.map_cons, List.map_nil, List.cons_subset, List.nil_subset, and_true] at h
  obtain ⟨h1, h2, h3, h4, h5, h6⟩ := h
  exact (((((hu.wr _ 0 h1).wr _ 0 h2).wr _ 1 h3).wr _ _ h4).wr _ 0 h5).wr _ 0 h6

theorem m7Ended_moves (s : State) (k : Machine.Task) : ∃ F, m7Ended s k = { s with fields := F } := ⟨_, rfl⟩

/-- The end of a task but a probe check. -/
theorem m7Done_eq {s : State} {k : Machine.Task} (t : Nat) (ht : s.task = some k) (hc : k.code ≠ 2) :
    let s1 := State.m7Effect { (s.advance t).nearSync with task := none } k
    State.m7Done t s = m7Ended (s1.event (s1.calRec k.start k.code 0 ((t - k.start) / usF) 0 0 k.entries)) k := by
  have ha : (s.advance t).task = some k := (s.advance_task t).trans ht
  rw [State.m7Done]
  simp only [ha, hc, false_and, if_false]
  rfl

theorem State.near_of_mems {s u : State} (h : u.mems = s.mems) : u.near = s.near := congrArg Prod.fst h

/-- What the end of a task leaves of near memory in M7 (R13). -/
theorem m7Done_near {s : State} {k : Machine.Task} (t : Nat) (ht : s.task = some k) (hc : k.code ≠ 2) (hm : s.mode = 7) (hp : s.comp = false) {a : Nat}
    (ha : 2 ^ 26 ≤ a) : (State.m7Done t s).near.read a = s.near.read a := by
  have e := m7Done_eq t ht hc
  have hn : (State.m7Done t s).near = (s.advance t).nearSync.near := by
    rw [e]
    obtain ⟨F, h⟩ := m7Ended_moves _ k
    rw [h]
    refine State.near_of_mems ?_
    rw [State.mems_mk]
    exact (State.event_mems _ _).trans (State.m7Effect_mems _ _)
  rw [hn, State.read_nearSync_m7 ((State.mode_advance s t).trans hm) ((State.comp_advance s t).trans hp) ha, State.advance_near]

/-- The effect of an injector calibration, and of a TDC calibration. -/
theorem m7Effect_inj (s : State) {k : Machine.Task} (hc : k.code = 3) : (s.m7Effect k).rd DSK_CAL_CTL_inj_done = 1 := by
  unfold State.m7Effect
  rw [hc]
  exact State.rd_wr_same _ _ _

theorem m7Effect_tdc (s : State) {k : Machine.Task} (hc : k.code = 4) :
    s.m7Effect k = ((s.wr DSK_CAL_CTL_tdc_done 1).wr DSK_TCAL_TEMP_valid 1).wr DSK_TCAL_TEMP_temp (s.rd TMB_TEMP_temp) := by
  unfold State.m7Effect
  rw [hc]
  rfl

theorem m7Effect_task (s : State) (k : Machine.Task) : (s.m7Effect k).task = s.task := by
  have hd : ∀ (u : State) (c : Nat) (q : Int), (u.drift c q).task = u.task := fun u c q => by
    unfold State.drift
    split
    · rfl
    · obtain ⟨A, h⟩ := ((u.wr (INP_LSTAT_drift c) 1).bbox 0x38 c (toU 16 q + 65536 * toU 16 (u.vthQ c))).mark_moves u.tmb.kt 6 0 c 0 0 0
        (toU 16 q + 65536 * toU 16 (u.vthQ c)) false
      obtain ⟨F, B, h'⟩ := (u.wr (INP_LSTAT_drift c) 1).bbox_moves 0x38 c (toU 16 q + 65536 * toU 16 (u.vthQ c))
      rw [h, h']
      rfl
  have hl : ∀ (u : State) (c t : Nat), (u.laneFail c t).task = u.task := fun u c t => by
    have hb : ∀ (v : State) (c x d : Nat), (v.bbox c x d).task = v.task := fun v c x d => by
      obtain ⟨F, B, h⟩ := v.bbox_moves c x d
      rw [h]
    simp only [State.laneFail, State.putLanes, State.laneRegs, State.orF_eq]
    (repeat' split) <;> simp [hb]
  unfold State.m7Effect
  split
  · exact foldl_view State.task _ _ _ fun b a => hd b a.1 a.2.2.1
  · exact foldl_view State.task _ _ _ fun b a => rfl
  · rfl
  · exact foldl_view State.task _ _ _ fun b a => hl b a.1 b.tmb.kt
  · rfl

theorem m7TaskComplete_answers {s : State} {k : Machine.Task} (t : Nat) (hp : Powered s) (ht : s.task = some k) (hc : k.code ≠ 2) :
    Answers (.m7TaskComplete t) s fun u =>
      u.task = none ∧ u.rd GLB_M7_TASK_busy = 0 ∧ u.rd GLB_M7_TASK_task_run = 0 ∧ u.rd GLB_M7_TASK_done = 1
        ∧ u.rd GLB_M7_TASK_last_task = k.code % 8 ∧ u.rd GLB_M7_TASK_last_status = 0 ∧ u.rd DSK_CAL_CTL_busy = 0
        ∧ (k.code = 3 → u.rd DSK_CAL_CTL_inj_done = 1)
        ∧ (k.code = 4 → u.rd DSK_CAL_CTL_tdc_done = 1 ∧ u.rd DSK_TCAL_TEMP_valid = 1
            ∧ u.rd DSK_TCAL_TEMP_temp = s.rd TMB_TEMP_temp % 2 ^ DSK_TCAL_TEMP_temp.w
            ∧ (s.acq.seg = none → SameRegs s u [GLB_M7_TASK_busy, GLB_M7_TASK_task_run, GLB_M7_TASK_done, GLB_M7_TASK_last_task,
                  GLB_M7_TASK_last_status, DSK_CAL_CTL_busy, DSK_CAL_CTL_tdc_done, DSK_TCAL_TEMP_valid, DSK_TCAL_TEMP_temp]
                ∧ TimeAt s u t ∧ SameRest s { u with task := s.task, acq := s.acq, near := s.near, poison := s.poison, free := s.free }))
        ∧ (s.mode = 7 → s.comp = false → ∀ a, 2 ^ 26 ≤ a → u.near.read a = s.near.read a) := by
  refine Answers.of_performOnAt (exec_m7TaskComplete _ _) hp ?_
  have hnear : s.mode = 7 → s.comp = false → ∀ a, 2 ^ 26 ≤ a → (State.m7Done t s).near.read a = s.near.read a := fun hm hco a ha => m7Done_near t ht hc hm hco ha
  have e := m7Done_eq t ht hc
  have htask : (State.m7Done t s).task = none := by
    rw [e]
    obtain ⟨F, h⟩ := m7Ended_moves (((State.m7Effect { (s.advance t).nearSync with task := none } k)).event ((State.m7Effect { (s.advance t).nearSync with task := none } k).calRec k.start
      k.code 0 ((t - k.start) / usF) 0 0 k.entries)) k
    rw [h, State.event_eq]
    exact m7Effect_task { (s.advance t).nearSync with task := none } k
  obtain ⟨N, P, A, r, hns⟩ := (s.advance t).nearSync_moves
  have hadv : ∀ f, State.rd { (s.advance t).nearSync with task := none } f = s.rd f := fun f => by rw [State.rd_mk, hns, State.rd_mk, State.rd_advance]
  simp only at e
  rw [e] at hnear htask ⊢
  generalize hv : ({ (s.advance t).nearSync with task := none } : State) = v at *
  generalize hr : (v.m7Effect k).calRec k.start k.code 0 ((t - k.start) / usF) 0 0 k.entries = rec at *
  obtain ⟨h1, h2, h3, h4, h5, h6⟩ := m7Ended_regs ((v.m7Effect k).event rec) k
  have hmoves : k.code = 4 → ∃ F B, m7Ended ((v.m7Effect k).event rec) k = { v with fields := F, acq := B } := fun h => by
    obtain ⟨F, e⟩ := m7Ended_moves ((v.m7Effect k).event rec) k
    obtain ⟨B, e'⟩ := (v.m7Effect k).event_moves rec
    exact ⟨F, B, by rw [e, e', m7Effect_tdc v h]; rfl⟩
  refine ⟨htask, h1, h2, h3, h4, h5, h6, fun h => ?_, fun h => ⟨?_, ?_, ?_, fun _ => ⟨?_, ?_, ?_⟩⟩, hnear⟩
  · simp (disch := decide) only [m7Ended, State.rd_wr_ne, State.rd_event]
    exact m7Effect_inj v h
  · rw [m7Effect_tdc v h]
    simp (disch := decide) only [m7Ended, State.rd_wr_ne, State.rd_wr_same, State.rd_event]
    rfl
  · rw [m7Effect_tdc v h]
    simp (disch := decide) only [m7Ended, State.rd_wr_ne, State.rd_wr_same, State.rd_event]
    rfl
  · rw [m7Effect_tdc v h]
    simp (disch := decide) only [m7Ended, State.rd_wr_ne, State.rd_wr_same, State.rd_event, hadv]
  · refine sameRegs_m7Ended k (by decide) ?_
    rw [m7Effect_tdc v h, State.event_eq, sameRegs_mk, sameRegs_wr _ (by decide), sameRegs_wr _ (by decide), sameRegs_wr _ (by decide)]
    exact fun f _ => hadv f
  · obtain ⟨F, B, e⟩ := hmoves h
    rw [e, TimeAt, ← hv, hns]
    exact State.advance_kt s t
  · obtain ⟨F, B, e⟩ := hmoves h
    obtain ⟨b, hb, _⟩ := s.advance_moves t
    rw [e, ← hv, hns, hb]
    exact sameRest_mk_hrv s _ _ _

/-! ### Clearing, and the whole -/

theorem m7TaskClear_answers {s : State} {p : Port} (v : Word) (h : Reaches p GLB_M7_TASK_task.addr s) :
    Answers (.m7TaskClear p v) s fun u =>
      u.rd GLB_M7_TASK_refused = (if v.getLsbD 30 then 0 else s.rd GLB_M7_TASK_refused % 2)
        ∧ u.rd GLB_M7_TASK_done = (if v.getLsbD 29 then 0 else s.rd GLB_M7_TASK_done % 2)
        ∧ SameRegs s u [GLB_M7_TASK_refused, GLB_M7_TASK_done] ∧ SameRest s u := by
  have hv : v.toNat / 8 * 8 < 2 ^ 32 := lt_of_le_of_lt (Nat.div_mul_le_self _ _) v.isLt
  have h0 : GLB_M7_TASK_task.of (v.toNat / 8 * 8) = 0 := by
    show v.toNat / 8 * 8 / 2 ^ 0 % 2 ^ 3 = 0
    omega
  have hbit : ∀ f ∈ m7Bits, f.of (v.toNat / 8 * 8) = 1 ↔ v.getLsbD f.lo = true := by
    have key : ∀ f ∈ m7Bits, f.w = 1 ∧ f.lo = 29 ∨ f.w = 1 ∧ f.lo = 30 := by decide
    intro f hf
    rw [BitVec.getLsbD, Nat.testBit_eq_decide_div_mod_eq, decide_eq_true_iff]
    rcases key f hf with ⟨hw, hl⟩ | ⟨hw, hl⟩
    · rw [Fld.of, hw, hl]
      omega
    · rw [Fld.of, hw, hl]
      omega
  have hst : ∀ f ∈ m7Bits, (stored m7Bits (v.toNat / 8 * 8) s p).rd f = if v.getLsbD f.lo then 0 else s.rd f % 2 := fun f hf => by
    have key : ∀ f ∈ m7Bits, f.acc = .w1c ∧ f.w = 1 ∧ f.of 0xFFFFFFFF = 1 := by decide
    obtain ⟨ha, hw, ho⟩ := key f hf
    rw [rd_stored_w1c _ s p hf (by decide) ha hw ho]
    simp only [hbit f hf]
  refine Answers.of_perform (exec_m7TaskClear _ _ _) h.1 ?_
  rw [portWrite_m7 _ h hv, h0, State.m7Start, if_pos rfl]
  exact ⟨hst GLB_M7_TASK_refused (by decide), hst GLB_M7_TASK_done (by decide), sameRegs_stored _ p (by decide), sameRest_stored _ _ s p⟩

/-- A row whose task runs answers so. -/
theorem row_answers {s : State} {p : Port} {c : Instr} {t code : Nat} {es : List (Nat × Nat × Int × Int × Int)} {f : State → State}
    (he : exec c s = State.performOnAt t f s) (hf : f s = State.m7Row p code es t s) (hp : Powered s) (hr : Reaches p GLB_M7_TASK_task.addr s)
    (ht : s.task = none) (hk : s.inp.pchk = none) (hc : code = 1 ∨ code = 3 ∨ code = 4 ∨ code = 6) : Answers c s (RowRuns s t code es) := by
  refine Answers.of_performOnAt he hp ?_
  rw [hf]
  exact m7Row_runs t code es hr ht hk hc

/-- Settles O12: the rows that start a task, the starts through DSK_CAL_CTL, the end of a task, and its clearing. -/
theorem calibrationTasks : Obligations.CalibrationTasks := by
  unfold Obligations.CalibrationTasks
  refine ⟨fun s p t hp hr ht hk => ⟨fun rs => row_answers (exec_thresholdCalibration _ _ _ _) rfl hp hr ht hk (.inl rfl),
    fun rs => row_answers (exec_injectorCalibration _ _ _ _) rfl hp hr ht hk (.inr (.inl rfl)),
    fun cs => row_answers (exec_tdcCalibration _ _ _ _) rfl hp hr ht hk (.inr (.inr (.inl rfl))),
    fun fs => row_answers (exec_selfTest _ _ _ _) rfl hp hr ht hk (.inr (.inr (.inr rfl)))⟩, fun s p h => ⟨fun hf => ?_, fun hf => calStart_refused h hf⟩,
    fun s t k hp ht hc => m7TaskComplete_answers t hp ht hc, fun s p v h => m7TaskClear_answers v h⟩
  obtain ⟨h1, h2, h3⟩ := calStart_free h hf
  exact ⟨h1, h2, h3.imp fun u hu => ⟨⟨hu.1.1, hu.1.2.1, fun _ => hu.1.2.2, fun k => absurd trivial k⟩, hu.2⟩⟩

end Sys2Proof
end

