-- ==== Sys2Proof/Proofs/ProbeCheckCourse.lean ====
section
/-! SUPPORT. The start of a probe check by either register, its window, its slots and its end: the statement of O13. -/

namespace Sys2Proof

open Machine

/-! ### The start -/

/-- A write of a whole word stores, and then means its low 32 bits. -/
theorem portWrite_stores_mod (p : Port) (a v : Nat) (s : State) (l : List Fld) (h : Reaches p a s) (ha : a < 0x140000) (h4 : a % 4 = 0)
    (hc : s.closed a = false) (hi : s.ignored a = false) (hl : (regAt a).map (fun x => softFlds (x.1.flds x.2.1 x.2.2)) = some l) :
    State.portWrite p a 15 v s = State.reSignal a (State.effect p a (v % 2 ^ 32) 0xFFFFFFFF (s.usedBy p) (stored l v s p)) := by
  obtain ⟨⟨r, i, j⟩, hr, rfl⟩ := Option.map_eq_some_iff.1 hl
  have hv : v &&& 0xFFFFFFFF = v % 2 ^ 32 := Nat.and_two_pow_sub_one_eq_mod v 32
  rw [portWrite_open p a 15 v s h ha h4 hc hi, byteMask_all, storeReg_at _ _ _ _ _ _ _ hr, foldl_storeFld_soft, hv]
  rfl

/-- What a write of INP_PCHK_CTL with start = 1 stores: at_arm. -/
def armStored (v : Nat) (s : State) (p : Port) : State := stored [INP_PCHK_CTL_at_arm] v s p

theorem writeAt_pchkCtl {s : State} {p : Port} (t : Nat) (h : Reaches p INP_PCHK_CTL_start.addr s) :
    State.probeStart p false t s = State.reSignal INP_PCHK_CTL_start.addr (armStored (1 + 4 * s.rd INP_PCHK_CTL_at_arm) (s.advance t) p).pchkCtl := by
  have hi : (s.advance t).ignored INP_PCHK_CTL_start.addr = false := by
    show ((s.advance t).is512 && decide (512 ≤ (INP_PCHK_CTL_start.addr - 0x30000) / 64) && decide (INP_PCHK_CTL_start.addr % 64 ≤ 0x24)) = false
    simp [INP_PCHK_CTL_start]
  have hs : INP_PCHK_CTL_start.of ((1 + 4 * s.rd INP_PCHK_CTL_at_arm) % 2 ^ 32) = 1 := by
    show (1 + 4 * s.rd INP_PCHK_CTL_at_arm) % 2 ^ 32 / 2 ^ 0 % 2 ^ 1 = 1
    omega
  rw [State.probeStart, if_neg (by decide), State.writeAt, portWrite_stores_mod p _ _ _ [INP_PCHK_CTL_at_arm] (h.advance t) (by decide) (by decide)
    (by simp [State.closed, INP_PCHK_CTL_start]) hi (by rfl)]
  have he : ∀ w bm old u, State.effect p INP_PCHK_CTL_start.addr w bm old u = if INP_PCHK_CTL_start.of w = 1 then u.pchkCtl else u := fun _ _ _ _ => rfl
  rw [he, if_pos hs, armStored]

theorem rd_armStored (s : State) (p : Port) : (armStored (1 + 4 * s.rd INP_PCHK_CTL_at_arm) s p).rd INP_PCHK_CTL_at_arm = s.rd INP_PCHK_CTL_at_arm % 2 := by
  rw [armStored, rd_stored _ s p (by decide) (by decide), Fld.stored_rw _ _ rfl (by decide) (by decide)]
  show ((1 + 4 * s.rd INP_PCHK_CTL_at_arm) / 2 ^ 2 % 2 ^ 1) % 2 ^ 1 = _
  omega

/-- The check that a start begins. -/
def checkFrom (s : State) (t : Nat) (task : Bool) : Inp :=
  { s.inp with pchk := some ⟨max s.tmb.kt t, false, task, s.pchkChs, 0, [], true, [], none⟩ }

/-- What a start finds once at_arm is stored, and the time has passed: as it was. -/
structure AsBefore (s : State) (t : Nat) (l : List Fld) (v : State) : Prop where
  regs : SameRegs s v l
  inp : v.inp = s.inp
  kt : v.tmb.kt = max s.tmb.kt t
  rest : ∃ F b c, v = { s with fields := F, tmb := b, hrv := { s.hrv with l12 := c } }

theorem asBefore_stored (s : State) (p : Port) (t v : Nat) (l : List Fld) : AsBefore s t l (stored l v (s.advance t) p) := by
  obtain ⟨F, c, h⟩ := stored_moves l v (s.advance t) p
  obtain ⟨b, hb, hkt⟩ := s.advance_moves t
  refine ⟨(advance_sameRegs s _ t _).1 (sameRegs_stored v p (List.Subset.refl _)), ?_, ?_, F, b, c, ?_⟩
  · rw [h]; exact s.advance_inp t
  · rw [h]; exact s.advance_kt t
  · rw [h, hb]

namespace AsBefore

variable {s v : State} {t : Nat} {l : List Fld} (h : AsBefore s t l v)
include h

theorem hks : v.hks = s.hks := by
  obtain ⟨F, b, c, e⟩ := h.rest
  rw [e]

theorem task : v.task = s.task := by
  obtain ⟨F, b, c, e⟩ := h.rest
  rw [e]

theorem mode (hl : GLB_STAT_active_mode.key ∉ l.map Fld.key) : v.mode = s.mode := h.regs _ hl

theorem pchkChs (hl : ∀ i, (INP_CFG_pchk_en i).key ∉ l.map Fld.key) : v.pchkChs = s.pchkChs := by
  obtain ⟨F, b, c, e⟩ := h.rest
  have hn : v.nChan = s.nChan := by rw [e]; rfl
  have ho : ∀ i, v.on (INP_CFG_pchk_en i) = s.on (INP_CFG_pchk_en i) := fun i => by rw [State.on, State.on, h.regs _ (hl i)]
  unfold State.pchkChs
  rw [hn]
  simp only [ho]

theorem sameRest {u : State} (F : List (Nat × Nat)) (i : Inp) (k : Option Machine.Task) (e : u = { v with fields := F, inp := i, task := k }) :
    SameRest s { u with inp := s.inp, task := s.task } := by
  obtain ⟨G, b, c, e'⟩ := h.rest
  rw [e, e']
  exact sameRest_mk s _ _ _ _

end AsBefore

theorem m7Free_check {s : State} : s.m7Free 2 = true ↔ s.mode = 7 ∧ (s.inp.pchk = none ∧ s.hks.entering = false) ∧ s.task = none := by
  simp only [State.m7Free, Bool.and_eq_true, decide_eq_true_eq, Bool.not_eq_true', Option.isNone_iff_eq_none, Bool.or_eq_true]
  tauto

/-- The start as task 2 of M7. -/
theorem m7Go_check (s : State) : s.m7Go 2 = { (((s.wr GLB_M7_TASK_busy 1).wr GLB_M7_TASK_task_run 2).wr INP_PCHK_CTL_busy 1) with
    task := some ⟨2, s.tmb.kt, []⟩, inp := { s.inp with pchk := some ⟨s.tmb.kt, false, true, s.pchkChs, 0, [], true, [], none⟩ } } := by
  have hch : ∀ u : State, u.build = s.build → (∀ i, u.rd (INP_CFG_pchk_en i) = s.rd (INP_CFG_pchk_en i)) → u.pchkChs = s.pchkChs := fun u hb hr => by
    have hn : u.nChan = s.nChan := by unfold State.nChan State.is512; rw [hb]
    unfold State.pchkChs State.on
    rw [hn]
    simp only [hr]
  have e := hch (((({ s with task := some ⟨2, s.tmb.kt, []⟩ } : State).wr GLB_M7_TASK_busy 1).wr GLB_M7_TASK_task_run 2)) rfl fun i => by
    rw [State.rd_wr_ne _ _ _ _ (by simp only [Fld.key, GLB_M7_TASK_task_run, INP_CFG_pchk_en]; omega),
      State.rd_wr_ne _ _ _ _ (by simp only [Fld.key, GLB_M7_TASK_busy, INP_CFG_pchk_en]; omega), State.rd_mk]
  rw [State.m7Go]
  simp only [if_true, show ¬((2 : Nat) = 3 ∨ (2 : Nat) = 4) by decide, if_false, State.pchkStart, e]
  rfl

/-- What a check that runs as task 2 shows. -/
def CheckRuns (s : State) (t : Nat) (u : State) : Prop :=
  u.rd INP_PCHK_CTL_busy = 1 ∧ u.rd GLB_M7_TASK_busy = 1 ∧ u.rd GLB_M7_TASK_task_run = 2
    ∧ u.inp = checkFrom s t true ∧ u.task = some ⟨2, max s.tmb.kt t, []⟩ ∧ SameRest s { u with inp := s.inp, task := s.task }

/-- The registers of a check that runs as task 2. -/
def checkFlds : List Fld := [GLB_M7_TASK_busy, GLB_M7_TASK_task_run, INP_PCHK_CTL_busy]

/-- A start as task 2 over a state that is as before but for registers that no check reads. -/
theorem m7Go_runs_check {s v : State} {t a : Nat} {l : List Fld} (h : AsBefore s t l v) (hl : ∀ i, (INP_CFG_pchk_en i).key ∉ l.map Fld.key) :
    CheckRuns s t (State.reSignal a (v.m7Go 2))
      ∧ ∀ f : Fld, f.key ∉ checkFlds.map Fld.key → (State.reSignal a (v.m7Go 2)).rd f = v.rd f := by
  have hc := h.pchkChs hl
  have hr : ∀ f : Fld, f.key ∉ checkFlds.map Fld.key → (v.m7Go 2).rd f = v.rd f := fun f hf => by
    simp only [checkFlds, List.map_cons, List.map_nil, List.mem_cons, List.not_mem_nil, or_false, not_or] at hf
    rw [m7Go_check, State.rd_mk, State.rd_wr_ne _ _ _ _ (Ne.symm hf.2.2), State.rd_wr_ne _ _ _ _ (Ne.symm hf.2.1), State.rd_wr_ne _ _ _ _ (Ne.symm hf.1)]
  have h1 : (v.m7Go 2).rd INP_PCHK_CTL_busy = 1 := by
    rw [m7Go_check, State.rd_mk, State.rd_wr_same]
    rfl
  have h2 : (v.m7Go 2).rd GLB_M7_TASK_busy = 1 := by
    rw [m7Go_check, State.rd_mk]
    simp (disch := decide) only [State.rd_wr_ne, State.rd_wr_same]
    rfl
  have h3 : (v.m7Go 2).rd GLB_M7_TASK_task_run = 2 := by
    rw [m7Go_check, State.rd_mk]
    simp (disch := decide) only [State.rd_wr_ne, State.rd_wr_same]
    rfl
  have h4 : (v.m7Go 2).inp = checkFrom s t true ∧ (v.m7Go 2).task = some ⟨2, max s.tmb.kt t, []⟩ := by
    rw [m7Go_check, checkFrom, hc, h.inp, h.kt]
    exact ⟨rfl, rfl⟩
  have h5 : SameRest s { v.m7Go 2 with inp := s.inp, task := s.task } := by
    rw [m7Go_check]
    exact h.sameRest _ _ _ rfl
  generalize v.m7Go 2 = w at *
  exact ⟨⟨h1, h2, h3, h4.1, h4.2, h5⟩, hr⟩

theorem pchk_en_ne_arm (i : Nat) : (INP_CFG_pchk_en i).key ∉ [INP_PCHK_CTL_at_arm].map Fld.key := by
  simp only [List.map_cons, List.map_nil, List.mem_singleton, Fld.key, INP_CFG_pchk_en, INP_PCHK_CTL_at_arm]
  omega

theorem pchk_en_ne_m7 (i : Nat) : (INP_CFG_pchk_en i).key ∉ m7Bits.map Fld.key := by
  simp only [m7Bits, List.map_cons, List.map_nil, List.mem_cons, List.not_mem_nil, or_false, Fld.key, INP_CFG_pchk_en, GLB_M7_TASK_refused, GLB_M7_TASK_done]
  omega

/-- Over what a write of INP_PCHK_CTL stored: registers that are neither at_arm nor written since are as before. -/
theorem sameRegs_over {s v u : State} {l m : List Fld} (h : SameRegs s v l) (hu : ∀ f : Fld, f.key ∉ m.map Fld.key → u.rd f = v.rd f) (k : List Fld)
    (hl : l ⊆ k) (hm : m ⊆ k) : SameRegs s u k := fun f hf =>
  (hu f fun e => hf (List.map_subset _ hm e)).trans (h f fun e => hf (List.map_subset _ hl e))

/-- at_arm as a start leaves it. -/
def ArmKept (s : State) (t : Nat) (u : State) : Prop := u.rd INP_PCHK_CTL_at_arm = s.rd INP_PCHK_CTL_at_arm % 2 ∧ TimeAt s u t

section ByPchkCtl

variable {s : State} {p : Port} {t : Nat}

/-- What a start through INP_PCHK_CTL does to what the write stored. -/
theorem probeStart_answers (P : State → Prop) (h : Reaches p INP_PCHK_CTL_start.addr s)
    (hP : ∀ v, AsBefore s t [INP_PCHK_CTL_at_arm] v → v.rd INP_PCHK_CTL_at_arm = s.rd INP_PCHK_CTL_at_arm % 2 → P (State.reSignal INP_PCHK_CTL_start.addr v.pchkCtl)) :
    Answers (.probeCheckStart p false t) s P := by
  refine Answers.of_performAt (exec_probeCheckStart _ _ _ _) h.1 ?_
  rw [writeAt_pchkCtl t h]
  have ha := rd_armStored (s.advance t) p
  rw [State.rd_advance] at ha
  exact hP _ (asBefore_stored s p t _ _) ha

theorem pchkCtl_elsewhere {v : State} (hm : v.mode ≠ 7) : v.pchkCtl = v.pchkRequest := by rw [State.pchkCtl, if_neg hm]

theorem probeStart_elsewhere (hm : s.mode ≠ 7) (h : Reaches p INP_PCHK_CTL_start.addr s) (hf : s.inp.pchk = none ∧ s.hks.entering = false) (ha : s.acqSt = 0) :
    Answers (.probeCheckStart p false t) s fun u =>
      u.rd INP_PCHK_CTL_busy = 1 ∧ u.inp = checkFrom s t false ∧ ArmKept s t u
        ∧ SameRegs s u [INP_PCHK_CTL_busy, INP_PCHK_CTL_at_arm] ∧ SameRest s { u with inp := s.inp } := by
  refine probeStart_answers _ h fun v hv harm => ?_
  have hm0 : s.mode ≠ 0 := fun e => by
    have := h.2.1
    simp [State.coreRun, e] at this
  have hvm := hv.mode (by decide)
  have hi : v.idle = true := by
    have : v.acqSt = 0 := (hv.regs ACQ_STAT_state (by decide)).trans ha
    simp [State.idle, this]
  have e : v.pchkCtl = v.pchkStart v.tmb.kt false false := by
    rw [pchkCtl_elsewhere (by rwa [hvm]), State.pchkRequest]
    simp [hv.inp, hf.1, hv.hks, hf.2, hi, hvm, hm0]
  have hch := hv.pchkChs pchk_en_ne_arm
  rw [e]
  refine ⟨State.rd_wr_same v INP_PCHK_CTL_busy 1, ?_, ⟨?_, hv.kt⟩, ?_, ?_⟩
  · rw [checkFrom, ← hv.kt, ← hch, ← hv.inp]
    rfl
  · rw [State.rd_reSignal, State.pchkStart, State.rd_mk, State.rd_wr_ne _ _ _ _ (by decide), harm]
  · rw [sameRegs_reSignal, State.pchkStart, sameRegs_mk, sameRegs_wr _ (by decide)]
    exact hv.regs.mono (by decide)
  · obtain ⟨F, b, c, e⟩ := hv.rest
    rw [e]
    exact sameRest_mk s _ _ _ _

theorem probeStart_elsewhere_refused (hm : s.mode ≠ 7) (h : Reaches p INP_PCHK_CTL_start.addr s)
    (hf : ¬(s.inp.pchk = none ∧ s.hks.entering = false) ∨ s.acqSt ≠ 0) :
    Answers (.probeCheckStart p false t) s fun u =>
      u.rd INP_PCHK_STAT_refused = 1 ∧ ArmKept s t u ∧ SameRegs s u [INP_PCHK_STAT_refused, INP_PCHK_CTL_at_arm] ∧ SameRest s u := by
  refine probeStart_answers _ h fun v hv harm => ?_
  have hvm := hv.mode (by decide)
  have hva : v.acqSt = s.acqSt := hv.regs ACQ_STAT_state (by decide)
  have e : v.pchkCtl = v.wr INP_PCHK_STAT_refused 1 := by
    rw [pchkCtl_elsewhere (by rwa [hvm]), State.pchkRequest, if_pos]
    simp only [Bool.or_eq_true, Bool.not_eq_true', decide_eq_true_eq, hv.inp, hv.hks, State.idle, hva, decide_eq_false_iff_not]
    rcases hf with hf | hf
    · rw [not_and_or] at hf
      rcases hf with k | k
      · exact .inl (.inl (.inl (Option.isSome_iff_ne_none.2 k)))
      · exact .inr (by simpa using k)
    · exact .inl (.inl (.inr hf))
  rw [e]
  refine ⟨State.rd_wr_same v INP_PCHK_STAT_refused 1, ⟨?_, hv.kt⟩, ?_, ?_⟩
  · rw [State.rd_reSignal, State.rd_wr_ne _ _ _ _ (by decide), harm]
  · rw [sameRegs_reSignal, sameRegs_wr _ (by decide)]
    exact hv.regs.mono (by decide)
  · obtain ⟨F, b, c, e⟩ := hv.rest
    rw [e]
    exact sameRest_mk s _ _ _ _

/-- Whether a check may start in M7. -/
theorem AsBefore.m7Free {v : State} {l : List Fld} (hv : AsBefore s t l v) (hl : GLB_STAT_active_mode.key ∉ l.map Fld.key) : v.m7Free 2 = s.m7Free 2 := by
  simp only [State.m7Free, hv.mode hl, hv.hks, hv.task, hv.inp]

theorem probeStart_m7 (hm : s.mode = 7) (h : Reaches p INP_PCHK_CTL_start.addr s) (hf : s.inp.pchk = none ∧ s.hks.entering = false) (ht : s.task = none) :
    Answers (.probeCheckStart p false t) s fun u =>
      CheckRuns s t u ∧ ArmKept s t u ∧ SameRegs s u [INP_PCHK_CTL_busy, INP_PCHK_CTL_at_arm, GLB_M7_TASK_busy, GLB_M7_TASK_task_run] := by
  refine probeStart_answers _ h fun v hv harm => ?_
  have e : v.pchkCtl = v.m7Go 2 := by
    rw [State.pchkCtl, if_pos ((hv.mode (by decide)).trans hm), if_pos ((hv.m7Free (by decide)).trans (m7Free_check.2 ⟨hm, hf, ht⟩))]
  rw [e]
  obtain ⟨hr, hk⟩ := m7Go_runs_check (a := INP_PCHK_CTL_start.addr) hv pchk_en_ne_arm
  refine ⟨hr, ⟨(hk _ (by decide)).trans harm, ?_⟩, sameRegs_over hv.regs hk _ (by decide) (by decide)⟩
  rw [TimeAt, ← hv.kt, m7Go_check]
  rfl

theorem probeStart_m7_refused (hm : s.mode = 7) (h : Reaches p INP_PCHK_CTL_start.addr s)
    (hf : ¬(s.inp.pchk = none ∧ s.hks.entering = false) ∨ s.task ≠ none) :
    Answers (.probeCheckStart p false t) s fun u =>
      u.rd INP_PCHK_STAT_refused = 1 ∧ u.rd GLB_M7_TASK_refused = 1 ∧ ArmKept s t u
        ∧ SameRegs s u [INP_PCHK_STAT_refused, INP_PCHK_CTL_at_arm, GLB_M7_TASK_refused] ∧ SameRest s u := by
  refine probeStart_answers _ h fun v hv harm => ?_
  have hn : ¬s.m7Free 2 = true := fun k => by
    obtain ⟨_, k1, k2⟩ := m7Free_check.1 k
    rcases hf with hf | hf
    · exact hf k1
    · exact hf k2
  have e : v.pchkCtl = (v.wr GLB_M7_TASK_refused 1).wr INP_PCHK_STAT_refused 1 := by
    rw [State.pchkCtl, if_pos ((hv.mode (by decide)).trans hm), if_neg (by rwa [hv.m7Free (by decide)])]
  rw [e]
  refine ⟨State.rd_wr_same _ INP_PCHK_STAT_refused 1, ?_, ⟨?_, hv.kt⟩, ?_, ?_⟩
  · rw [State.rd_reSignal, State.rd_wr_ne _ _ _ _ (by decide), State.rd_wr_same]
    rfl
  · rw [State.rd_reSignal, State.rd_wr_ne _ _ _ _ (by decide), State.rd_wr_ne _ _ _ _ (by decide), harm]
  · rw [sameRegs_reSignal, sameRegs_wr _ (by decide), sameRegs_wr _ (by decide)]
    exact hv.regs.mono (by decide)
  · obtain ⟨F, b, c, e⟩ := hv.rest
    rw [e]
    exact sameRest_mk s _ _ _ _

end ByPchkCtl

/-! ### The start through GLB_M7_TASK -/

section ByTask

variable {s : State} {p : Port} {t : Nat}

theorem taskStart_answers (P : State → Prop) (h : Reaches p GLB_M7_TASK_task.addr s)
    (hP : ∀ v, AsBefore s t m7Bits v → (∀ f ∈ m7Bits, v.rd f = s.rd f % 2) → P (State.reSignal GLB_M7_TASK_task.addr (v.m7Start 2))) :
    Answers (.probeCheckStart p true t) s P := by
  refine Answers.of_performAt (exec_probeCheckStart _ _ _ _) h.1 ?_
  rw [State.probeStart, if_pos rfl, State.writeAt, portWrite_m7 2 (h.advance t) (by decide)]
  have ha := rd_m7Bits 2 (s.advance t) p (by decide)
  simp only [State.rd_advance] at ha
  exact hP _ (asBefore_stored s p t _ _) ha

/-- GLB_M7_TASK's bits as a start leaves them. -/
def BitsKept (s : State) (t : Nat) (u : State) : Prop :=
  u.rd GLB_M7_TASK_refused = s.rd GLB_M7_TASK_refused % 2 ∧ u.rd GLB_M7_TASK_done = s.rd GLB_M7_TASK_done % 2 ∧ TimeAt s u t

theorem taskStart_runs (h : Reaches p GLB_M7_TASK_task.addr s) (hm : s.mode = 7) (hf : s.inp.pchk = none ∧ s.hks.entering = false) (ht : s.task = none) :
    Answers (.probeCheckStart p true t) s fun u =>
      CheckRuns s t u ∧ BitsKept s t u
        ∧ SameRegs s u [INP_PCHK_CTL_busy, GLB_M7_TASK_busy, GLB_M7_TASK_task_run, GLB_M7_TASK_refused, GLB_M7_TASK_done] := by
  refine taskStart_answers _ h fun v hv hb => ?_
  have e : v.m7Start 2 = v.m7Go 2 := by
    rw [State.m7Start, if_neg (by decide), if_pos ((hv.m7Free (by decide)).trans (m7Free_check.2 ⟨hm, hf, ht⟩))]
  rw [e]
  obtain ⟨hr, hk⟩ := m7Go_runs_check (a := GLB_M7_TASK_task.addr) hv pchk_en_ne_m7
  refine ⟨hr, ⟨(hk _ (by decide)).trans (hb _ (by decide)), (hk _ (by decide)).trans (hb _ (by decide)), ?_⟩, sameRegs_over hv.regs hk _ (by decide) (by decide)⟩
  rw [TimeAt, ← hv.kt, m7Go_check]
  rfl

theorem taskStart_refused (h : Reaches p GLB_M7_TASK_task.addr s) (hf : s.mode ≠ 7 ∨ ¬(s.inp.pchk = none ∧ s.hks.entering = false) ∨ s.task ≠ none) :
    Answers (.probeCheckStart p true t) s fun u =>
      u.rd GLB_M7_TASK_refused = 1 ∧ u.rd GLB_M7_TASK_done = s.rd GLB_M7_TASK_done % 2 ∧ TimeAt s u t
        ∧ SameRegs s u [GLB_M7_TASK_refused, GLB_M7_TASK_done] ∧ SameRest s u := by
  refine taskStart_answers _ h fun v hv hb => ?_
  have hn : ¬s.m7Free 2 = true := fun k => by
    obtain ⟨k0, k1, k2⟩ := m7Free_check.1 k
    rcases hf with hf | hf | hf
    · exact hf k0
    · exact hf k1
    · exact hf k2
  have e : v.m7Start 2 = v.wr GLB_M7_TASK_refused 1 := by
    rw [State.m7Start, if_neg (by decide), if_neg (by rwa [hv.m7Free (by decide)])]
  rw [e]
  refine ⟨State.rd_wr_same _ GLB_M7_TASK_refused 1, ?_, hv.kt, ?_, ?_⟩
  · rw [State.rd_reSignal, State.rd_wr_ne _ _ _ _ (by decide)]
    exact hb _ (by decide)
  · rw [sameRegs_reSignal, sameRegs_wr _ (by decide)]
    exact hv.regs
  · obtain ⟨F, b, c, e⟩ := hv.rest
    rw [e]
    exact sameRest_mk s _ _ _ _

end ByTask

/-! ### The course -/

theorem pchkWindow_answers {s : State} {c : PChk} (t : Nat) (hp : Powered s) (hc : s.inp.pchk = some c) (hw : c.winOpen = true) (ht : c.start + 1000 * usF ≤ t)
    (hn : c.todo ≠ []) : Answers (.probeActivityWindowClose t) s fun u =>
      u.inp = { s.inp with pchk := some { c with winOpen := false } } ∧ TimeAt s u t ∧ SameRegs s u [] ∧ SameRest s { u with inp := s.inp } := by
  refine Answers.of_performOnAt (exec_probeActivityWindowClose _ _) hp ?_
  have hu : State.pchkWindow t s = { s.advance t with inp := { s.inp with pchk := some { c with winOpen := false } } } := by
    have h990 : c.start + 990 * usF ≤ t := by
      have : 990 * usF ≤ 1000 * usF := Nat.mul_le_mul_right _ (by decide)
      omega
    have he : c.todo.isEmpty = false := by simp [hn]
    rw [State.pchkWindow]
    simp only [State.advance_inp, hc, hw, h990, he]
    rfl
  rw [hu]
  refine ⟨rfl, State.advance_kt s t, ?_, ?_⟩
  · rw [sameRegs_mk, sameRegs_advance]
    exact sameRegs_self s []
  · obtain ⟨b, h, _⟩ := s.advance_moves t
    rw [h]
    exact sameRest_mk_hrv s _ _ _

theorem pchkMeasure_answers {s : State} {c : PChk} (t : Nat) (hp : Powered s) (hc : s.inp.pchk = some c) (ch : Chan) (v0 v1 : Int) (hw : c.winOpen = false)
    (hcur : c.cur = none) (htodo : c.todo[c.idx]? = some ch.val) (ha : s.armed = false) :
    Answers (.probeChannelMeasurement ch v0 v1 t) s fun u =>
      u.rd (INP_LSTAT_unres ch.val) = 1 ∧ look u.inp.settle ch.val = some (t + 8 * usF)
        ∧ u.inp.pchk = some { c with cur := some ((ch.val, s.verdict (c.active.contains ch.val) v0 v1, v0, v1), t) }
        ∧ TimeAt s u t ∧ SameRegs s u [INP_LSTAT_unres ch.val] ∧ SameRest s { u with inp := s.inp } := by
  refine Answers.of_performOnAt (exec_probeChannelMeasurement _ _ _ _ _) hp ?_
  have hv : (s.advance t).verdict (c.active.contains ch.val) v0 v1 = s.verdict (c.active.contains ch.val) v0 v1 := by
    simp only [State.verdict, State.rdS_advance]
  have hu : State.pchkMeasure ch.val v0 v1 t s = State.wr { s.advance t with inp := { s.inp with
      pchk := some { c with cur := some ((ch.val, s.verdict (c.active.contains ch.val) v0 v1, v0, v1), t) },
      settle := ins s.inp.settle ch.val (t + 8 * usF), resAt := del s.inp.resAt ch.val } } (INP_LSTAT_unres ch.val) 1 := by
    rw [State.pchkMeasure]
    simp only [State.advance_inp, hc, hw, hcur, htodo, hv, Bool.not_false, Option.isNone_none, Bool.and_self, decide_true, if_true, State.enterUnres, State.logAdd]
    rw [if_neg]
    have : ∀ i, (({ s.advance t with inp := i } : State).wr (INP_LSTAT_unres ch.val) 1).armed = s.armed := fun i => by
      have hk : (INP_LSTAT_unres ch.val).key ≠ ACQ_STAT_state.key := by
        simp only [Fld.key, INP_LSTAT_unres, ACQ_STAT_state]
        omega
      have hs : (({ s.advance t with inp := i } : State).wr (INP_LSTAT_unres ch.val) 1).acqSt = s.acqSt := by
        rw [State.acqSt, State.rd_wr_ne _ _ _ _ hk, State.rd_mk, State.rd_advance]
        rfl
      rw [State.armed, hs]
      rfl
    rw [this, ha, Bool.false_and]
    exact Bool.false_ne_true
  rw [hu]
  refine ⟨State.rd_wr_same _ _ _, ?_, rfl, State.advance_kt s t, ?_, ?_⟩
  · exact look_ins_same _ _ _
  · rw [sameRegs_wr _ (List.mem_singleton.2 rfl), sameRegs_mk, sameRegs_advance]
    exact sameRegs_self s _
  · obtain ⟨b, h, _⟩ := s.advance_moves t
    rw [h]
    exact sameRest_mk_hrv s _ _ _

/-! ### The end of a check -/

theorem rd_pchkStore_same (s : State) (e : Nat × Nat × Int × Int) : (s.pchkStore e).rd (INP_PCHK_verdict e.1) = e.2.1 % 8 := by
  rw [State.pchkStore, State.rd_wr_ne _ _ _ _ (by simp only [Fld.key, INP_PCHK_V_v1, INP_PCHK_verdict]; omega),
    State.rd_wr_ne _ _ _ _ (by simp only [Fld.key, INP_PCHK_V_v0, INP_PCHK_verdict]; omega),
    State.rd_wr_ne _ _ _ _ (by simp only [Fld.key, INP_PCHK_dv, INP_PCHK_verdict]; omega), State.rd_wr_same]
  rfl

theorem rd_pchkStore_ne (s : State) (e : Nat × Nat × Int × Int) (i : Nat) (h : e.1 ≠ i) :
    (s.pchkStore e).rd (INP_PCHK_verdict i) = s.rd (INP_PCHK_verdict i) := by
  rw [State.pchkStore, State.rd_wr_ne _ _ _ _ (by simp only [Fld.key, INP_PCHK_V_v1, INP_PCHK_verdict]; omega),
    State.rd_wr_ne _ _ _ _ (by simp only [Fld.key, INP_PCHK_V_v0, INP_PCHK_verdict]; omega),
    State.rd_wr_ne _ _ _ _ (by simp only [Fld.key, INP_PCHK_dv, INP_PCHK_verdict]; omega),
    State.rd_wr_ne _ _ _ _ (by simp only [Fld.key, INP_PCHK_verdict]; omega)]

/-- Of the results stored one after the other, the only one of a channel stands in its register. -/
theorem rd_foldl_pchkStore (d : Nat × Nat × Int × Int) (l : List (Nat × Nat × Int × Int)) (s : State) (hu : ∀ x ∈ l, x.1 = d.1 → x = d)
    (h : s.rd (INP_PCHK_verdict d.1) = d.2.1 % 8 ∨ d ∈ l) : (l.foldl State.pchkStore s).rd (INP_PCHK_verdict d.1) = d.2.1 % 8 := by
  induction l generalizing s with
  | nil => exact h.resolve_right List.not_mem_nil
  | cons x xs ih =>
    refine ih _ (fun y hy => hu y (List.mem_cons_of_mem _ hy)) ?_
    by_cases hx : x.1 = d.1
    · rw [hu x List.mem_cons_self hx]
      exact .inl (rd_pchkStore_same s d)
    · rw [rd_pchkStore_ne s x _ hx]
      exact h.imp_right fun hd => (List.mem_cons.1 hd).resolve_left fun e => hx (congrArg Prod.fst e.symm)

theorem foldl_wr_verdict_moves (l : List Nat) (s : State) : ∃ F, l.foldl (fun s ch => s.wr (INP_PCHK_verdict ch) 0) s = { s with fields := F } := by
  induction l generalizing s with
  | nil => exact ⟨_, rfl⟩
  | cons x xs ih =>
    obtain ⟨F, h⟩ := ih (s.wr (INP_PCHK_verdict x) 0)
    exact ⟨F, h⟩

theorem foldl_pchkStore_moves (l : List (Nat × Nat × Int × Int)) (s : State) : ∃ F, l.foldl State.pchkStore s = { s with fields := F } := by
  induction l generalizing s with
  | nil => exact ⟨_, rfl⟩
  | cons x xs ih =>
    obtain ⟨F, h⟩ := ih (s.pchkStore x)
    exact ⟨F, h⟩

/-- The registers of a check's end, over the results as stored. -/
def endRegs (s : State) (n2 nx : Nat) : State :=
  (((s.wr INP_PCHK_STAT_n_open n2).wr INP_PCHK_STAT_n_other nx).wr INP_PCHK_STAT_done 1).wr INP_PCHK_CTL_busy 0

theorem rd_endRegs_verdict (s : State) (n2 nx i : Nat) : (endRegs s n2 nx).rd (INP_PCHK_verdict i) = s.rd (INP_PCHK_verdict i) := by
  rw [endRegs, State.rd_wr_ne _ _ _ _ (by simp only [Fld.key, INP_PCHK_CTL_busy, INP_PCHK_verdict]; omega),
    State.rd_wr_ne _ _ _ _ (by simp only [Fld.key, INP_PCHK_STAT_done, INP_PCHK_verdict]; omega),
    State.rd_wr_ne _ _ _ _ (by simp only [Fld.key, INP_PCHK_STAT_n_other, INP_PCHK_verdict]; omega),
    State.rd_wr_ne _ _ _ _ (by simp only [Fld.key, INP_PCHK_STAT_n_open, INP_PCHK_verdict]; omega)]

theorem rd_endRegs (s : State) (n2 nx : Nat) : (endRegs s n2 nx).rd INP_PCHK_STAT_done = 1 ∧ (endRegs s n2 nx).rd INP_PCHK_CTL_busy = 0
    ∧ (endRegs s n2 nx).rd INP_PCHK_STAT_n_open = n2 % 2 ^ INP_PCHK_STAT_n_open.w := by
  simp (disch := decide) only [endRegs, State.rd_wr_ne, State.rd_wr_same]
  exact ⟨rfl, rfl, trivial⟩

/-- A check of no arm ends: its results are stored, and nothing is left of it. -/
theorem pchkEnd_stores {s : State} {c : PChk} (t : Nat) (hc : s.inp.pchk = some c) (ha : c.atArm = false) :
    ∃ F r, s.pchkEnd t false = ({ (endRegs (c.done.foldl State.pchkStore { s with fields := F }) (c.done.filter fun e => e.2.1 = 2).length
      (c.done.filter fun e => 3 ≤ e.2.1).length) with inp := { s.inp with pchk := none } } : State).event r := by
  obtain ⟨F, hF⟩ := foldl_wr_verdict_moves (c.todo.drop c.idx) s
  rw [State.pchkEnd]
  simp only [hc, ha, Bool.false_and, Bool.false_eq_true, if_false, hF]
  obtain ⟨G, hG⟩ := foldl_pchkStore_moves c.done { s with fields := F }
  exact ⟨F, _, congrArg₂ State.event (by rw [hG]; rfl) rfl⟩

/-- What the end of a check leaves. -/
structure CheckEnded (l : List (Nat × Nat × Int × Int)) (u : State) : Prop where
  pchk : u.inp.pchk = none
  done : u.rd INP_PCHK_STAT_done = 1
  busy : u.rd INP_PCHK_CTL_busy = 0
  verdicts : ∀ d ∈ l, (∀ x ∈ l, x.1 = d.1 → x = d) → u.rd (INP_PCHK_verdict d.1) = d.2.1 % 8
  n_open : u.rd INP_PCHK_STAT_n_open = (l.filter fun d => d.2.1 = 2).length % 2 ^ INP_PCHK_STAT_n_open.w

theorem pchkEnd_ends {s : State} {c : PChk} (t : Nat) (hc : s.inp.pchk = some c) (ha : c.atArm = false) :
    CheckEnded c.done (s.pchkEnd t false) ∧ (s.pchkEnd t false).tmb = s.tmb := by
  obtain ⟨F, r, h⟩ := pchkEnd_stores t hc ha
  obtain ⟨G, hG⟩ := foldl_pchkStore_moves c.done { s with fields := F }
  rw [h, State.event_eq]
  have hr := rd_endRegs (c.done.foldl State.pchkStore { s with fields := F }) (c.done.filter fun e => e.2.1 = 2).length
    (c.done.filter fun e => 3 ≤ e.2.1).length
  refine ⟨⟨rfl, ?_, ?_, fun d hd hu => ?_, ?_⟩, ?_⟩
  · rw [State.rd_mk, State.rd_mk]; exact hr.1
  · rw [State.rd_mk, State.rd_mk]; exact hr.2.1
  · rw [State.rd_mk, State.rd_mk, rd_endRegs_verdict]
    exact rd_foldl_pchkStore d _ _ hu (.inr hd)
  · rw [State.rd_mk, State.rd_mk]; exact hr.2.2
  · rw [hG]; rfl

/-- The last slot of a check is over: the check ends. -/
theorem pchkSlot_ends {s : State} {c : PChk} {e : Nat × Nat × Int × Int} {k : Nat} (t : Nat) (hc : s.inp.pchk = some c) (hcur : c.cur = some (e, k))
    (ht : k + 8 * usF ≤ t) (hi : c.idx + 1 = c.todo.length) (ha : c.atArm = false) :
    CheckEnded (c.done ++ [e]) (State.pchkSlot t s) ∧ (State.pchkSlot t s).tmb.kt = max s.tmb.kt (k + 8 * usF) := by
  have hs : State.pchkSlot t s = (({ s with inp := { s.inp with pchk := some { c with idx := c.idx + 1, done := c.done ++ [e], cur := none } } } : State).advance
      (k + 8 * usF)).pchkEnd (k + 8 * usF) false := by
    rw [State.pchkSlot]
    simp only [hc, hcur, if_neg (Nat.not_lt.2 ht), hi, if_true]
  have hp := pchkEnd_ends (s := ({ s with inp := { s.inp with pchk := some { c with idx := c.idx + 1, done := c.done ++ [e], cur := none } } } : State).advance
      (k + 8 * usF)) (c := { c with idx := c.idx + 1, done := c.done ++ [e], cur := none }) (k + 8 * usF) (by rw [State.advance_inp]) ha
  rw [hs]
  refine ⟨hp.1, ?_⟩
  rw [hp.2, State.advance_kt]

theorem CheckEnded.advance {l : List (Nat × Nat × Int × Int)} {u : State} (h : CheckEnded l u) (t : Nat) : CheckEnded l (u.advance t) where
  pchk := by rw [State.advance_inp]; exact h.pchk
  done := by rw [State.rd_advance]; exact h.done
  busy := by rw [State.rd_advance]; exact h.busy
  verdicts d hd hu := by rw [State.rd_advance]; exact h.verdicts d hd hu
  n_open := by rw [State.rd_advance]; exact h.n_open

/-- With no check a measurement only takes time. -/
theorem pchkMeasure_none {s : State} (ch : Nat) (v0 v1 : Int) (t : Nat) (h : s.inp.pchk = none) : State.pchkMeasure ch v0 v1 t s = s.advance t := by
  rw [State.pchkMeasure]
  simp only [State.advance_inp, h]

theorem checkEnd_answers {s : State} {c : PChk} {e : Nat × Nat × Int × Int} {k : Nat} (t : Nat) (hp : Powered s) (hc : s.inp.pchk = some c)
    (hcur : c.cur = some (e, k)) (ht : k + 8 * usF ≤ t) (hi : c.idx + 1 = c.todo.length) (ha : c.atArm = false) (ch : Chan) (v0 v1 : Int) :
    ∃ u, exec (.probeChannelMeasurement ch v0 v1 t) s = .next (State.settle s u) ∧ CheckEnded (c.done ++ [e]) u ∧ TimeAt s u t := by
  obtain ⟨h, hk⟩ := pchkSlot_ends (max s.tmb.kt t) hc hcur (ht.trans (le_max_right _ _)) hi ha
  refine ⟨_, (exec_probeChannelMeasurement ch v0 v1 t s).trans (performOn_next _ s hp), ?_, ?_⟩
  · rw [State.reached, pchkMeasure_none _ _ _ _ h.pchk]
    exact h.advance t
  · rw [State.reached, pchkMeasure_none _ _ _ _ h.pchk, TimeAt, State.advance_kt]
    refine (congrArg (max · t) hk).trans ?_
    rw [max_assoc, max_eq_right ht]

/-- Settles O13: what either register's write stores and starts, the window, a slot, and the end that the last slot's end brings. -/
theorem probeCheckCourse : Obligations.ProbeCheckCourse := by
  unfold Obligations.ProbeCheckCourse
  refine ⟨fun s p t => ⟨fun hm h => ⟨fun hf ha => probeStart_elsewhere hm h hf ha, fun hf => probeStart_elsewhere_refused hm h hf⟩,
    fun hm h => ⟨fun hf ht => probeStart_m7 hm h hf ht, fun hf => probeStart_m7_refused hm h hf⟩,
    fun h => ⟨fun hm hf ht => ?_, fun hf => taskStart_refused h hf⟩⟩, fun s t c hp hc => ⟨?_, ?_, ?_⟩⟩
  · refine (taskStart_runs h hm hf ht).imp fun u hu => ?_
    obtain ⟨hr, ⟨h1, h2, h3⟩, h4⟩ := hu
    exact ⟨hr, ⟨h1, h2, h3⟩, h4⟩
  · exact fun hw ht hn => pchkWindow_answers t hp hc hw ht hn
  · exact fun ch v0 v1 hw hcur htodo ha => pchkMeasure_answers t hp hc ch v0 v1 hw hcur htodo ha
  · intro e k hcur ht hi ha ch v0 v1
    obtain ⟨u, hu, h, hk⟩ := checkEnd_answers t hp hc hcur ht hi ha ch v0 v1
    exact ⟨u, hu, h.pchk, h.done, h.busy, hk, fun d hd _ hx => h.verdicts d hd hx, h.n_open⟩

end Sys2Proof
end

