-- ==== Sys2Proof/Proofs/Thresholds.lean ====
section
/-! SUPPORT. The registers of a channel, what a write of its threshold does, and its resolution: the statement of O14. -/

namespace Sys2Proof

open Machine

/-! ### The registers of a channel -/

/-- The register of index `i` of a row. -/
theorem RegRow.idx_hit {b n c i a : Nat} {d : Dom} {g : Nat → Nat → List Fld} {sl : Nat → List Slice} (ha : a = b + n * i) (hn : 0 < n) (hi : i < c) :
    RegRow.idx ⟨b, n, c, 0, 0, d, g, sl⟩ a = some (i, 0) := by
  subst ha
  have h0 : ¬b + n * i < b := by omega
  have hc : ¬c = 0 := by omega
  simp only [RegRow.idx, if_neg h0, Nat.add_sub_cancel_left, Nat.mul_div_cancel_left i hn, Nat.mul_mod_right, if_neg hc, if_true, hi, or_true, true_or, and_self]

/-- A register at another offset in a row's channels. -/
theorem RegRow.idx_miss {b n c a : Nat} {d : Dom} {g : Nat → Nat → List Fld} {sl : Nat → List Slice} (hc : c ≠ 0) (h : a < b ∨ (a - b) % n ≠ 0) :
    RegRow.idx ⟨b, n, c, 0, 0, d, g, sl⟩ a = none := by
  unfold RegRow.idx
  rcases h with h | h
  · rw [if_pos h]
  · simp only [if_neg hc, h, false_and, if_true, if_false, ite_self]

theorem findReg_hit {r : RegRow} {rs : List RegRow} {a i j : Nat} (h : r.idx a = some (i, j)) : findReg (r :: rs) a = some (r, i, j) := by rw [findReg, h]

theorem findReg_miss {r : RegRow} {rs : List RegRow} {a : Nat} (h : r.idx a = none) : findReg (r :: rs) a = findReg rs a := by rw [findReg, h]

theorem regAt_inp {a : Nat} (h : a / 0x10000 = 3) : regAt a = findReg rowsINP a := by
  unfold regAt rowsOf
  rw [h]
  rfl

theorem regAt_thr {ch : Nat} (hc : ch < 1024) : (regAt (INP_THR_code ch).addr).map (fun x => softFlds (x.1.flds x.2.1 x.2.2)) = some [INP_THR_code ch] := by
  rw [regAt_inp (by show (0x30000 + 64 * ch) / 0x10000 = 3; omega), rowsINP, findReg_hit (RegRow.idx_hit (show (INP_THR_code ch).addr = 0x30000 + 64 * ch from rfl) (by decide) hc)]
  rfl

/-- The fields of INP_CFG. -/
def cfgFlds (ch : Nat) : List Fld :=
  [INP_CFG_drift_en ch, INP_CFG_pchk_en ch, INP_CFG_to_wake ch, INP_CFG_to_irq ch, INP_CFG_to_tdc ch, INP_CFG_latch_auto ch, INP_CFG_latch_edge ch, INP_CFG_hyst ch]

theorem regAt_cfg {ch : Nat} (hc : ch < 1024) : (regAt (INP_CFG_hyst ch).addr).map (fun x => softFlds (x.1.flds x.2.1 x.2.2)) = some (cfgFlds ch) := by
  have ha : (INP_CFG_hyst ch).addr = 0x30004 + 64 * ch := rfl
  rw [regAt_inp (by omega), ha, rowsINP, findReg_miss (RegRow.idx_miss (by decide) (by omega)), findReg_hit (RegRow.idx_hit rfl (by decide) hc)]
  rfl

/-- No block closes a register of a channel that the variant has. -/
theorem closed_inp {s : State} {a : Nat} (h : a / 0x10000 = 3) : s.closed a = false := by simp [State.closed, h]

theorem ignored_inp {s : State} {a : Nat} (h : a / 0x10000 = 3) :
    s.ignored a = (s.is512 && decide (512 ≤ (a - 0x30000) / 64) && decide (a % 64 ≤ 0x24)) := by
  unfold State.ignored
  rw [h]
  rfl

theorem ignored_channel {s : State} {a ch : Nat} (h : a / 0x10000 = 3) (ha : (a - 0x30000) / 64 = ch) (hc : ch < s.nChan) : s.ignored a = false := by
  rw [ignored_inp h, ha]
  unfold State.nChan at hc
  split at hc
  · simp [Nat.not_le.2 hc]
  · next h => simp [Bool.eq_false_iff.2 h]

theorem effect_inp (p : Port) {a : Nat} (v bm : Nat) (old s : State) (h : a / 0x10000 = 3) : State.effect p a v bm old s = State.effInp a v bm old s := by
  unfold State.effect
  rw [h]
  rfl

/-- What a write of a channel's threshold code means. -/
theorem effect_thr (p : Port) (ch v : Nat) (old s : State) (hc : ch < 1024) : State.effect p (INP_THR_code ch).addr v 0xFFFFFFFF old s
    = s.thrWritten ch (decide (s.rd (INP_THR_code ch) ≠ old.rd (INP_THR_code ch))) := by
  have ha : (INP_THR_code ch).addr = 0x30000 + 64 * ch := rfl
  rw [effect_inp _ _ _ _ _ (by omega), ha, State.effInp]
  have h1 : ¬0x30000 + 64 * ch = INP_PCHK_CTL_start.addr := by simp only [INP_PCHK_CTL_start]; omega
  have h2 : ¬0x30000 + 64 * ch = INP_LPER_SYNC_sync.addr := by simp only [INP_LPER_SYNC_sync]; omega
  have h3 : (0x30000 + 64 * ch) % 64 = 0 := by omega
  have h4 : (0x30000 + 64 * ch - 0x30000) / 64 = ch := by omega
  rw [if_neg h1, if_neg h2]
  simp only [h3, h4]
  exact if_neg (by decide : ¬(INP_THR_code 0).of 0xFFFFFFFF = 0)

/-- What a write of a channel's INP_CFG means. -/
theorem effect_cfg (p : Port) (ch v : Nat) (old s : State) (hc : ch < 1024) : State.effect p (INP_CFG_hyst ch).addr v 0xFFFFFFFF old s
    = s.thrWritten ch (decide (s.rd (INP_CFG_hyst ch) ≠ old.rd (INP_CFG_hyst ch))) := by
  have ha : (INP_CFG_hyst ch).addr = 0x30004 + 64 * ch := rfl
  rw [effect_inp _ _ _ _ _ (by omega), ha, State.effInp]
  have h1 : ¬0x30004 + 64 * ch = INP_PCHK_CTL_start.addr := by simp only [INP_PCHK_CTL_start]; omega
  have h2 : ¬0x30004 + 64 * ch = INP_LPER_SYNC_sync.addr := by simp only [INP_LPER_SYNC_sync]; omega
  have h3 : (0x30004 + 64 * ch) % 64 = 4 := by omega
  have h4 : (0x30004 + 64 * ch - 0x30000) / 64 = ch := by omega
  rw [if_neg h1, if_neg h2]
  simp only [h3, h4]
  exact if_neg (by decide : ¬(INP_CFG_hyst 0).of 0xFFFFFFFF = 0)

/-! ### A threshold that is written -/

theorem Machine.State.logAdd_moves (s : State) (ch v t : Nat) (edge sres : Bool) :
    ∃ L, s.logAdd ch v t edge sres = { s with acq := { s.acq with log := L } } := by
  unfold State.logAdd
  dsimp only
  split <;> exact ⟨_, rfl⟩

@[simp] theorem Machine.State.rd_logAdd (s : State) (ch v t : Nat) (edge sres : Bool) (f : Fld) : (s.logAdd ch v t edge sres).rd f = s.rd f := by
  obtain ⟨_, h⟩ := s.logAdd_moves ch v t edge sres
  rw [h, State.rd_mk]

/-- A threshold written with another value: UNRESOLVED, for 2 µs. -/
theorem thrWritten_changed (s : State) (ch : Nat) : ∃ L, s.thrWritten ch true = { (s.wr (INP_LSTAT_unres ch) 1) with
    inp := { s.inp with thrAt := ins s.inp.thrAt ch s.tmb.kt, settle := ins s.inp.settle ch (s.tmb.kt + 2 * usF), resAt := del s.inp.resAt ch },
    acq := { s.acq with log := L } } := by
  rw [State.thrWritten, if_pos rfl, State.enterUnres]
  obtain ⟨L, h⟩ := State.logAdd_moves (({ s with inp := { s.inp with thrAt := ins s.inp.thrAt ch s.tmb.kt, settle := ins s.inp.settle ch (s.tmb.kt + 2 * usF), resAt := del s.inp.resAt ch } } : State).wr (INP_LSTAT_unres ch) 1)
    ch 2 (s.grid.start ((s.grid.posI s.tmb.kt + 1).toNat)) false false
  exact ⟨L, h⟩

theorem thrWritten_same (s : State) (ch : Nat) : s.thrWritten ch false = { s with inp := { s.inp with thrAt := ins s.inp.thrAt ch s.tmb.kt } } := rfl

/-- What a written threshold shows: UNRESOLVED where it changed, and nothing else where it did not. -/
structure ThrShown (s : State) (t ch : Nat) (changed : Prop) (l : List Fld) (u : State) : Prop where
  time : TimeAt s u t
  unres : changed → u.rd (INP_LSTAT_unres ch) = 1 ∧ look u.inp.settle ch = some (max s.tmb.kt t + 2 * usF)
  same : ¬changed → u.rd (INP_LSTAT_unres ch) = s.rd (INP_LSTAT_unres ch) ∧ u.inp.settle = s.inp.settle ∧ u.acq = s.acq
  regs : SameRegs s u (l ++ [INP_LSTAT_unres ch])
  rest : SameRest s { u with inp := s.inp, acq := s.acq }

theorem thrWritten_shows {s v : State} {t ch : Nat} {l : List Fld} (a : Nat) (h : AsBefore s t l v) (hl : (INP_LSTAT_unres ch).key ∉ l.map Fld.key)
    (c : Bool) : ThrShown s t ch (c = true) l (State.reSignal a (v.thrWritten ch c))
      ∧ ∀ f : Fld, f.key ≠ (INP_LSTAT_unres ch).key → (State.reSignal a (v.thrWritten ch c)).rd f = v.rd f := by
  have hv : SameRegs s v (l ++ [INP_LSTAT_unres ch]) := fun f hf => h.regs f fun k => hf (by rw [List.map_append]; exact List.mem_append_left _ k)
  have hu : (INP_LSTAT_unres ch).key ∈ (l ++ [INP_LSTAT_unres ch]).map Fld.key := by simp
  obtain ⟨G, b, x, e⟩ := h.rest
  cases c with
  | false =>
    rw [thrWritten_same]
    refine ⟨⟨h.kt, nofun, fun _ => ⟨h.regs _ hl, (congrArg Inp.settle h.inp :), by rw [e]; rfl⟩, hv, ?_⟩, fun f _ => rfl⟩
    rw [e]
    exact sameRest_mk s _ _ _ _
  | true =>
    obtain ⟨L, hL⟩ := thrWritten_changed v ch
    rw [hL]
    refine ⟨⟨h.kt, fun _ => ⟨State.rd_wr_same v (INP_LSTAT_unres ch) 1, ?_⟩, fun k => absurd rfl k, ?_, ?_⟩, fun f hf => State.rd_wr_ne v (INP_LSTAT_unres ch) f 1 (Ne.symm hf)⟩
    · rw [← h.kt]
      exact look_ins_same _ _ _
    · rw [sameRegs_reSignal, sameRegs_mk, sameRegs_wr _ (by simp)]
      exact hv
    · rw [e]
      exact sameRest_mk s _ _ _ _

/-- A write of `l`, the fields of a register of a threshold of which `f` is the one that counts. -/
theorem thresholdWrite_shows {s : State} {p : Port} {ch v t a : Nat} {l : List Fld} {g : Fld} (h : Reaches p a s) (hv : v < 2 ^ 32)
    (ha : a / 0x10000 = 3) (h4 : a % 4 = 0) (hch : (a - 0x30000) / 64 = ch) (hc : ch < s.nChan)
    (hl : (regAt a).map (fun x => softFlds (x.1.flds x.2.1 x.2.2)) = some l) (hg : g ∈ l) (hn : (l.map Fld.key).Nodup)
    (hu : (INP_LSTAT_unres ch).key ∉ l.map Fld.key)
    (he : ∀ v old u, State.effect p a v 0xFFFFFFFF old u = u.thrWritten ch (decide (u.rd g ≠ old.rd g))) :
    ThrShown s t ch (g.stored 0xFFFFFFFF v (s.rd g) ≠ s.rd g) l (State.writeAt p a v t s)
      ∧ ∀ f ∈ l, (State.writeAt p a v t s).rd f = f.stored 0xFFFFFFFF v (s.rd f) := by
  rw [State.writeAt, portWrite_stores p a v _ l (h.advance t) hv (by omega) h4 (closed_inp ha)
    (ignored_channel ha hch (by simpa using hc)) hl, he, rd_stored v _ p hg hn, State.rd_usedBy, State.rd_advance]
  obtain ⟨hs, hr⟩ := thrWritten_shows a (asBefore_stored s p t v l) hu (decide (g.stored 0xFFFFFFFF v (s.rd g) ≠ s.rd g))
  refine ⟨⟨hs.time, fun k => hs.unres (decide_eq_true k), fun k => hs.same (by simpa using k), hs.regs, hs.rest⟩, fun f hf => ?_⟩
  rw [hr f fun k => hu (by rw [← k]; exact List.mem_map_of_mem hf), rd_stored v _ p hf hn, State.rd_advance]

theorem Machine.Fld.stored_word {f : Fld} (v x : Nat) (ha : f.acc = .rw) (hw : f.w ≠ 0) (h : f.lo + f.w ≤ 32) :
    f.stored 0xFFFFFFFF v x = f.clamp (f.of v) % 2 ^ f.w := by
  refine Fld.stored_rw v x ha ?_ hw
  unfold Fld.of
  refine Nat.eq_of_testBit_eq fun i => ?_
  rw [show (0xFFFFFFFF : Nat) = 2 ^ 32 - 1 from rfl, Nat.testBit_mod_two_pow, Nat.testBit_div_two_pow, Nat.testBit_two_pow_sub_one, Nat.testBit_two_pow_sub_one,
    Bool.eq_iff_iff]
  simp only [Bool.and_eq_true, decide_eq_true_eq]
  omega

theorem thrCode_stored (v x ch : Nat) : (INP_THR_code ch).stored 0xFFFFFFFF v x = v % 2 ^ 12 := by
  rw [Fld.stored_word _ _ rfl (Nat.succ_ne_zero _) (show _ ≤ 32 from Nat.le_of_ble_eq_true rfl)]
  show (v / 2 ^ 0 % 2 ^ 12) % 2 ^ 12 = _
  omega

theorem hyst_stored (v x ch : Nat) : (INP_CFG_hyst ch).stored 0xFFFFFFFF v x = v % 8 := by
  rw [Fld.stored_word _ _ rfl (Nat.succ_ne_zero _) (show _ ≤ 32 from Nat.le_of_ble_eq_true rfl)]
  show (v / 2 ^ 0 % 2 ^ 3) % 2 ^ 3 = _
  omega

theorem latchEdge_stored (v x ch : Nat) : (INP_CFG_latch_edge ch).stored 0xFFFFFFFF v x = v / 16 % 4 := by
  rw [Fld.stored_word _ _ rfl (Nat.succ_ne_zero _) (show _ ≤ 32 from Nat.le_of_ble_eq_true rfl)]
  show (v / 2 ^ 4 % 2 ^ 2) % 2 ^ 2 = _
  omega

theorem chan_lt {s : State} {ch : Nat} (h : ch < s.nChan) : ch < 1024 := by
  unfold State.nChan at h
  split at h <;> omega

section

variable {s : State} {p : Port} {ch : Nat} {v t : Nat}

theorem codeWrite_shows (h : Reaches p (INP_THR_code ch).addr s) (hv : v < 2 ^ 32) (hc : ch < s.nChan) :
    ThrShown s t ch (v % 2 ^ 12 ≠ s.rd (INP_THR_code ch)) [INP_THR_code ch] (State.writeAt p (INP_THR_code ch).addr v t s)
      ∧ (State.writeAt p (INP_THR_code ch).addr v t s).rd (INP_THR_code ch) = v % 2 ^ 12 := by
  have ha : (INP_THR_code ch).addr = 0x30000 + 64 * ch := rfl
  have hc' := chan_lt hc
  obtain ⟨hs, hr⟩ := thresholdWrite_shows (g := INP_THR_code ch) (t := t) h hv (by omega) (by omega) (by omega) hc (regAt_thr hc')
    (List.mem_singleton.2 rfl) (List.nodup_singleton _)
    (by simp only [List.map_cons, List.map_nil, List.mem_singleton, Fld.key, INP_THR_code, INP_LSTAT_unres]; omega)
    fun v old u => effect_thr p ch v old u hc'
  rw [thrCode_stored] at hs
  exact ⟨hs, (hr _ (List.mem_singleton.2 rfl)).trans (thrCode_stored _ _ _)⟩

theorem cfgWrite_shows (h : Reaches p (INP_CFG_hyst ch).addr s) (hv : v < 2 ^ 32) (hc : ch < s.nChan) :
    ThrShown s t ch (v % 8 ≠ s.rd (INP_CFG_hyst ch)) (cfgFlds ch) (State.writeAt p (INP_CFG_hyst ch).addr v t s)
      ∧ (State.writeAt p (INP_CFG_hyst ch).addr v t s).rd (INP_CFG_hyst ch) = v % 8
      ∧ (State.writeAt p (INP_CFG_hyst ch).addr v t s).rd (INP_CFG_latch_edge ch) = v / 16 % 4 := by
  have ha : (INP_CFG_hyst ch).addr = 0x30004 + 64 * ch := rfl
  have hc' := chan_lt hc
  obtain ⟨hs, hr⟩ := thresholdWrite_shows (g := INP_CFG_hyst ch) (t := t) h hv (by omega) (by omega) (by omega) hc (regAt_cfg hc')
    (by simp [cfgFlds])
    (by
      simp only [cfgFlds, List.map_cons, List.map_nil, List.nodup_cons, List.mem_cons, List.not_mem_nil, or_false, Fld.key, INP_CFG_drift_en, INP_CFG_pchk_en,
        INP_CFG_to_wake, INP_CFG_to_irq, INP_CFG_to_tdc, INP_CFG_latch_auto, INP_CFG_latch_edge, INP_CFG_hyst, List.nodup_nil, not_false_eq_true, and_true]
      omega)
    (by
      simp only [cfgFlds, List.map_cons, List.map_nil, List.mem_cons, List.not_mem_nil, or_false, Fld.key, INP_CFG_drift_en, INP_CFG_pchk_en,
        INP_CFG_to_wake, INP_CFG_to_irq, INP_CFG_to_tdc, INP_CFG_latch_auto, INP_CFG_latch_edge, INP_CFG_hyst, INP_LSTAT_unres]
      omega)
    fun v old u => effect_cfg p ch v old u hc'
  rw [hyst_stored] at hs
  exact ⟨hs, (hr _ (by simp [cfgFlds])).trans (hyst_stored _ _ _), (hr _ (by simp [cfgFlds])).trans (latchEdge_stored _ _ _)⟩

/-- A write of a channel that the variant lacks is ignored. -/
theorem absentWrite_keeps {a : Nat} (h : Reaches p a s) (ha : a / 0x10000 = 3) (h4 : a % 4 = 0) (ho : a % 64 ≤ 0x24) (hch : (a - 0x30000) / 64 = ch)
    (h1 : ch < 1024) (hc : s.nChan ≤ ch) :
    TimeAt s (State.writeAt p a v t s) t ∧ SameRegs s (State.writeAt p a v t s) [] ∧ SameRest s (State.writeAt p a v t s) := by
  have hi : (s.advance t).ignored a = true := by
    rw [ignored_inp ha, hch, State.is512_advance]
    unfold State.nChan at hc
    split at hc
    · next k => simp [k, hc, ho]
    · omega
  have e : State.writeAt p a v t s = (s.advance t).usedBy p := by
    rw [State.writeAt, portWrite_reaches p a 15 v _ (h.advance t)]
    have e : a % 2 ^ 26 / 4 * 4 = a := by omega
    have k : a < 0x140000 := by omega
    simp only [State.barWrite, e, k, if_true, State.writeReg, closed_inp ha, ignored_used, hi, Bool.false_eq_true, if_false]
  rw [e]
  refine ⟨?_, ?_, sameRest_used_advance s t p⟩
  · obtain ⟨b, hb⟩ := (s.advance t).usedBy_moves p
    rw [hb]
    exact s.advance_kt t
  · rw [sameRegs_usedBy, sameRegs_advance]
    exact sameRegs_self s _

end

/-! ### Resolution -/

section

variable {s : State} {ch : Nat} {v : Int} (t : Nat)

theorem resolvesTo_advance : (s.advance t).resolvesTo ch v = s.resolvesTo ch v := by
  obtain ⟨b, h, _⟩ := s.advance_moves t
  rw [h]
  rfl

theorem resolve_some {level : Bool} (hc : ch < s.nChan) (hu : s.rd (INP_LSTAT_unres ch) = 1) (hm : s.mode ≠ 0) (hg : s.grid.run = true)
    (hs : ∀ e, look s.inp.settle ch = some e → e ≤ t) (hl : s.resolvesTo ch v = some level) :
    ∃ L b, b.kt = max s.tmb.kt t ∧ State.resolve ch v t s = { ((s.wr (INP_LSTAT_unres ch) 0).wr (INP_LSTAT_level ch) (b2n level)) with
      tmb := b, free := s.free + 1, inp := { s.inp with settle := del s.inp.settle ch, resAt := ins s.inp.resAt ch t }, acq := { s.acq with log := L } } := by
  obtain ⟨b, h, hk⟩ := s.advance_moves t
  have hr := resolvesTo_advance (s := s) (ch := ch) (v := v) t
  have hu' : (s.advance t).on (INP_LSTAT_unres ch) = true := by rw [State.on, State.rd_advance, hu]; rfl
  have hm' : (s.advance t).mode ≠ 0 := by rw [State.mode_advance]; exact hm
  have hc' : ch < (s.advance t).nChan := by rwa [State.nChan_advance]
  have hg' : (s.advance t).grid.run = true := by rw [State.advance_grid]; exact hg
  have e : State.resolve ch v t s = ((({ s.advance t with free := s.free + 1, inp := { s.inp with settle := del s.inp.settle ch, resAt := ins s.inp.resAt ch t } } : State).wr
      (INP_LSTAT_unres ch) 0).wr (INP_LSTAT_level ch) (b2n level)).logAdd ch (b2n level) t false false := by
    rw [State.resolve]
    simp only [hr, hl, hu', hm', hc', hg', decide_true, Bool.and_true, Bool.true_and, ne_eq, not_false_eq_true, State.advance_inp, State.advance_free]
    cases hq : look s.inp.settle ch with
    | none => rfl
    | some e => simp only [hs e hq, decide_true, if_true]
  rw [e, h]
  obtain ⟨L, hL⟩ := State.logAdd_moves ((({ s with tmb := b, free := s.free + 1, inp := { s.inp with settle := del s.inp.settle ch, resAt := ins s.inp.resAt ch t } } : State).wr (INP_LSTAT_unres ch) 0).wr (INP_LSTAT_level ch) (b2n level))
    ch (b2n level) t false false
  exact ⟨L, b, hk, hL⟩

theorem resolve_none (hl : s.resolvesTo ch v = none) : State.resolve ch v t s = s.advance t := by
  rw [State.resolve]
  simp only [resolvesTo_advance, hl]

end

/-- Settles O14: a write of either register stores its fields, and what was stored is compared with what stood there; a resolution stores the
level. -/
theorem thresholdsAndResolution : Obligations.ThresholdsAndResolution := by
  unfold Obligations.ThresholdsAndResolution
  refine ⟨fun s p ch v t => ⟨fun h hc => ?_, fun h hc => ?_, fun cfg h hc => ?_⟩, fun s ch v t hp hc hu hm hg hs => ⟨fun level hl => ?_, fun hl => ?_, fun hh => ?_⟩⟩
  · refine Answers.of_performAt (exec_thresholdWrite _ _ _ _ _ _) h.1 ?_
    obtain ⟨k, hr⟩ := codeWrite_shows (t := t) h v.isLt hc
    exact ⟨hr, k.time, k.unres, fun e => k.same (not_not_intro e), k.regs, k.rest⟩
  · refine Answers.of_performAt (exec_thresholdWrite _ _ _ _ _ _) h.1 ?_
    obtain ⟨k, hr, he⟩ := cfgWrite_shows (t := t) h v.isLt hc
    refine ⟨hr, he, k.time, k.unres, fun e => ?_, k.regs, k.rest⟩
    obtain ⟨k1, _, k3⟩ := k.same (not_not_intro e)
    exact ⟨k1, k3⟩
  · refine Answers.of_performAt (exec_thresholdWrite _ _ _ _ _ _) h.1 ?_
    have h1 : (INP_CFG_hyst ch.val).addr = 0x30004 + 64 * ch.val := rfl
    have h2 : (INP_THR_code ch.val).addr = 0x30000 + 64 * ch.val := rfl
    have ha : ∀ a, a = 0x30004 + 64 * ch.val ∨ a = 0x30000 + 64 * ch.val → Reaches p a s →
        TimeAt s (State.writeAt p a v.toNat t s) t ∧ SameRegs s (State.writeAt p a v.toNat t s) [] ∧ SameRest s (State.writeAt p a v.toNat t s) := fun a e k =>
      absentWrite_keeps (ch := ch.val) k (by omega) (by omega) (by omega) (by omega) ch.isLt hc
    refine ha _ ?_ h
    cases cfg
    · exact .inr h2
    · exact .inl h1
  · refine Answers.of_performOnAt (exec_resolution _ _ _ _) hp ?_
    obtain ⟨L, b, hk, e⟩ := resolve_some t hc hu hm hg hs hl
    rw [e]
    refine ⟨?_, ?_, look_del_same _ _, hk, ?_, sameRest_mk_hrv s _ _ _⟩
    · rw [State.rd_mk, State.rd_wr_ne _ _ _ _ (by simp only [Fld.key, INP_LSTAT_level, INP_LSTAT_unres]; omega), State.rd_wr_same]
      rfl
    · rw [State.on, State.rd_mk, State.rd_wr_same]
      cases level <;> rfl
    · rw [sameRegs_mk, sameRegs_wr _ (by simp), sameRegs_wr _ (by simp)]
      exact sameRegs_self s _
  · refine Answers.of_performOnAt (exec_resolution _ _ _ _) hp ?_
    rw [resolve_none t hl]
    exact unchanged_advance s t
  · rw [State.resolvesTo, if_neg fun k => absurd k.1 hh.ne']

end Sys2Proof
end

