-- ==== Sys2Proof/Proofs/ThresholdReadings.lean ====
section
/-! SUPPORT. A background reading of a threshold, and overdrive: the statement of O15. -/

namespace Sys2Proof.Machine

/-- What a black-box entry holds comes from few places. -/
theorem State.bbox_bbx_congr {u v : State} (c x d : Nat) (hf : u.rd BBX_STAT_frozen = v.rd BBX_STAT_frozen) (hm : u.mode = v.mode)
    (hr : u.hks.rails = v.hks.rails) (hk : u.tmb.kt = v.tmb.kt) (hb : u.bbx = v.bbx) : (u.bbox c x d).bbx = (v.bbox c x d).bbx := by
  simp only [State.bbox, State.on, hf, hm, hr, hk, hb]
  by_cases h : v.rd BBX_STAT_frozen = 1
  · simp only [h, decide_true, if_true]
    exact hb
  · simp only [h, decide_false, Bool.false_eq_true, if_false]
    rfl

theorem State.swept_moves (s : State) (ch : Nat) : ∃ F S, s.swept ch = { s with fields := F, inp := { s.inp with swept := S } }
    ∧ ∀ f : Fld, f.key ≠ INP_RDBK_CTL_sweeps.key → (s.swept ch).rd f = s.rd f := by
  unfold State.swept
  dsimp only
  split
  · exact ⟨_, _, rfl, fun f hf => State.rd_wr_ne s _ _ _ (Ne.symm hf)⟩
  · exact ⟨_, _, rfl, fun f _ => rfl⟩

/-- A drift that is found shows, and changes no other register but the black box's. -/
theorem State.rd_drift (s : State) (ch : Nat) (q : Int) :
    (s.drift ch q).rd (INP_LSTAT_drift ch) = 1
      ∧ ∀ f : Fld, f.key ≠ (INP_LSTAT_drift ch).key → f.key ∉ bboxFlds.map Fld.key → (s.drift ch q).rd f = s.rd f := by
  have hb : (INP_LSTAT_drift ch).key ∉ bboxFlds.map Fld.key := by
    simp only [bboxFlds, List.map_cons, List.map_nil, List.mem_cons, List.not_mem_nil, or_false, Fld.key, INP_LSTAT_drift, BBX_STAT_count, BBX_HEAD_value,
      BBX_LOST_value]
    omega
  unfold State.drift
  split
  · next h => exact ⟨by simpa [State.on] using h, fun _ _ _ => rfl⟩
  · exact ⟨by rw [State.rd_mark, State.rd_bbox _ _ _ _ hb, State.rd_wr_same]; rfl,
      fun f hf hk => by rw [State.rd_mark, State.rd_bbox _ _ _ _ hk, State.rd_wr_ne _ _ _ _ (Ne.symm hf)]⟩

theorem satU_lt (n : Nat) (i : Int) : satU n i < 2 ^ n := by
  unfold satU toU
  have := Int.emod_lt_of_pos (max (-(2 ^ (n - 1))) (min (2 ^ (n - 1) - 1) i)) (show (0 : Int) < 2 ^ n by positivity)
  have := Int.emod_nonneg (max (-(2 ^ (n - 1))) (min (2 ^ (n - 1) - 1) i)) (show (2 : Int) ^ n ≠ 0 by positivity)
  zify
  rw [Int.toNat_of_nonneg this]
  assumption

end Sys2Proof.Machine

namespace Sys2Proof

open Machine

section Readback

variable {s : State} {ch : Nat} (c0 c1 c2 c3 : Int) (t : Nat)

/-- The registers of a reading. -/
def readFlds (ch : Nat) : List Fld := [INP_RDBK_value ch, INP_RDBK_valid ch, INP_RDBK_CTL_sweeps]

/-- A reading that is stored. -/
def readTo (s : State) (ch : Nat) (q : Int) : State := ((s.swept ch).wr (INP_RDBK_value ch) (satU 16 q)).wr (INP_RDBK_valid ch) 1

theorem readback_eq (he : s.rd INP_RDBK_CTL_en = 1) (hm : s.mode ≠ 0) (hc : ch < s.nChan) (hd : s.rd (INP_CFG_drift_en ch) = 1) :
    State.readback ch c0 c1 c2 c3 t s = if (match look s.inp.thrAt ch with | some w => decide (t ≤ w + 20 * usF) | none => false) then (s.advance t).swept ch
      else if s.drifted ch (c0 + c1 + c2 + c3) then (readTo (s.advance t) ch (rnd (c0 + c1 + c2 + c3) 4)).drift ch (rnd (c0 + c1 + c2 + c3) 4)
      else readTo (s.advance t) ch (rnd (c0 + c1 + c2 + c3) 4) := by
  have h1 : (s.advance t).on INP_RDBK_CTL_en = true := by simp [State.on, he]
  have h2 : (s.advance t).on (INP_CFG_drift_en ch) = true := by simp [State.on, hd]
  have h3 : ¬(s.advance t).nChan ≤ ch := by rw [State.nChan_advance]; omega
  have h4 : (s.advance t).mode ≠ 0 := by rwa [State.mode_advance]
  have h5 : (s.advance t).drifted ch (c0 + c1 + c2 + c3) = s.drifted ch (c0 + c1 + c2 + c3) := by
    unfold State.drifted State.vth4095
    rw [State.rd_advance]
  rw [State.readback]
  simp only [h1, h2, h3, h4, h5, State.advance_inp, decide_false, Bool.not_true, Bool.or_self, Bool.false_eq_true, if_false]
  rfl

theorem key_sweeps_ne (ch : Nat) : (INP_RDBK_value ch).key ≠ INP_RDBK_CTL_sweeps.key ∧ (INP_RDBK_valid ch).key ≠ INP_RDBK_CTL_sweeps.key := by
  simp only [Fld.key, INP_RDBK_value, INP_RDBK_valid, INP_RDBK_CTL_sweeps]
  omega

theorem rd_readTo (u : State) (ch : Nat) (q : Int) : (readTo u ch q).rd (INP_RDBK_value ch) = satU 16 q ∧ (readTo u ch q).rd (INP_RDBK_valid ch) = 1 := by
  refine ⟨?_, State.rd_wr_same _ (INP_RDBK_valid ch) 1⟩
  rw [readTo, State.rd_wr_ne _ _ _ _ (by simp only [Fld.key, INP_RDBK_value, INP_RDBK_valid]; omega), State.rd_wr_same]
  exact Nat.mod_eq_of_lt (satU_lt 16 q)

theorem sameRegs_swept {s u : State} {l : List Fld} (ch : Nat) (h : SameRegs s u l) (hl : INP_RDBK_CTL_sweeps.key ∈ l.map Fld.key) : SameRegs s (u.swept ch) l := by
  obtain ⟨_, _, _, hr⟩ := u.swept_moves ch
  exact fun f hf => (hr f fun e => hf (e ▸ hl)).trans (h f hf)

theorem swept_keeps : TimeAt s ((s.advance t).swept ch) t ∧ SameRegs s ((s.advance t).swept ch) [INP_RDBK_CTL_sweeps]
    ∧ SameRest s { (s.advance t).swept ch with inp := { ((s.advance t).swept ch).inp with swept := s.inp.swept } } := by
  obtain ⟨F, S, e, _⟩ := (s.advance t).swept_moves ch
  obtain ⟨b, h, hk⟩ := s.advance_moves t
  refine ⟨?_, sameRegs_swept ch (by rw [sameRegs_advance]; exact sameRegs_self s _) (by simp), ?_⟩
  · rw [e]
    exact s.advance_kt t
  · rw [e, h]
    exact sameRest_mk_hrv s _ _ _

theorem readTo_keeps (q : Int) : TimeAt s (readTo (s.advance t) ch q) t ∧ SameRegs s (readTo (s.advance t) ch q) (readFlds ch)
    ∧ SameRest s { readTo (s.advance t) ch q with inp := { (readTo (s.advance t) ch q).inp with swept := s.inp.swept } } := by
  obtain ⟨h1, h2, h3⟩ := swept_keeps (s := s) (ch := ch) t
  unfold readTo
  generalize (s.advance t).swept ch = w at *
  refine ⟨h1, ?_, h3⟩
  rw [sameRegs_wr _ (by simp [readFlds]), sameRegs_wr _ (by simp [readFlds])]
  exact h2.mono (by simp [readFlds])

theorem rd_readTo_drift (u : State) (ch : Nat) (q : Int) : ((readTo u ch q).drift ch q).rd (INP_RDBK_value ch) = satU 16 q
    ∧ ((readTo u ch q).drift ch q).rd (INP_RDBK_valid ch) = 1 ∧ ((readTo u ch q).drift ch q).rd (INP_LSTAT_drift ch) = 1 := by
  obtain ⟨h1, h2⟩ := rd_readTo u ch q
  obtain ⟨k1, k2⟩ := (readTo u ch q).rd_drift ch q
  have hk : ∀ f ∈ [INP_RDBK_value ch, INP_RDBK_valid ch], f.key ≠ (INP_LSTAT_drift ch).key ∧ f.key ∉ bboxFlds.map Fld.key := by
    simp only [List.forall_mem_cons, List.not_mem_nil, false_imp_iff, implies_true, and_true]
    simp only [bboxFlds, List.map_cons, List.map_nil, List.mem_cons, List.not_mem_nil, or_false, Fld.key, INP_RDBK_value, INP_RDBK_valid, INP_LSTAT_drift,
      BBX_STAT_count, BBX_HEAD_value, BBX_LOST_value]
    omega
  obtain ⟨hv, hb⟩ := hk (INP_RDBK_value ch) (by simp)
  obtain ⟨hv', hb'⟩ := hk (INP_RDBK_valid ch) (by simp)
  exact ⟨(k2 _ hv hb).trans h1, (k2 _ hv' hb').trans h2, k1⟩

end Readback

/-! ### Overdrive -/

section Overdrive

variable {s : State} {ch : Nat} (t : Nat)

theorem overdrive_seen (hc : ch < s.nChan) (h : s.rd (INP_LSTAT_ovr_seen ch) = 1) : State.overdrive ch t s = (s.advance t).wr (INP_LSTAT_ovr ch) 1 := by
  have h1 : ¬(s.advance t).nChan ≤ ch := by rw [State.nChan_advance]; omega
  rw [State.overdrive, if_neg h1, if_pos (by simp [State.on, h])]

/-- The first overdrive of a channel, as it shows. -/
def ovrShown (s : State) (ch t : Nat) : State := ((s.advance t).wr (INP_LSTAT_ovr ch) 1).wr (INP_LSTAT_ovr_seen ch) 1

theorem overdrive_first (hc : ch < s.nChan) (h : s.rd (INP_LSTAT_ovr_seen ch) ≠ 1) :
    State.overdrive ch t s = ((ovrShown s ch t).bbox 0x39 ch 0).mark t 7 0 ch 0 0 0 0 false := by
  have h1 : ¬(s.advance t).nChan ≤ ch := by rw [State.nChan_advance]; omega
  rw [State.overdrive, if_neg h1, if_neg (by simp [State.on, h])]
  rfl

theorem rd_ovrShown (f : Fld) (h1 : f.key ≠ (INP_LSTAT_ovr ch).key) (h2 : f.key ≠ (INP_LSTAT_ovr_seen ch).key) : (ovrShown s ch t).rd f = s.rd f := by
  rw [ovrShown, State.rd_wr_ne _ _ _ _ (Ne.symm h2), State.rd_wr_ne _ _ _ _ (Ne.symm h1), State.rd_advance]

theorem key_ovr (ch : Nat) : ∀ f ∈ [BBX_STAT_frozen, GLB_STAT_active_mode, BBX_STAT_count, BBX_HEAD_value, BBX_LOST_value, ACQ_STAT_state],
    f.key ≠ (INP_LSTAT_ovr ch).key ∧ f.key ≠ (INP_LSTAT_ovr_seen ch).key := by
  simp only [List.forall_mem_cons, List.not_mem_nil, false_imp_iff, implies_true, and_true, Fld.key, INP_LSTAT_ovr, INP_LSTAT_ovr_seen,
    BBX_STAT_frozen, GLB_STAT_active_mode, BBX_STAT_count, BBX_HEAD_value, BBX_LOST_value, ACQ_STAT_state]
  omega

theorem rd_ovrShown_both : (ovrShown s ch t).rd (INP_LSTAT_ovr ch) = 1 ∧ (ovrShown s ch t).rd (INP_LSTAT_ovr_seen ch) = 1 := by
  refine ⟨?_, State.rd_wr_same _ (INP_LSTAT_ovr_seen ch) 1⟩
  rw [ovrShown, State.rd_wr_ne _ _ _ _ (by simp only [Fld.key, INP_LSTAT_ovr, INP_LSTAT_ovr_seen]; omega), State.rd_wr_same]
  rfl

theorem ovr_not_bbox (ch : Nat) : (INP_LSTAT_ovr ch).key ∉ bboxFlds.map Fld.key ∧ (INP_LSTAT_ovr_seen ch).key ∉ bboxFlds.map Fld.key := by
  simp only [bboxFlds, List.map_cons, List.map_nil, List.mem_cons, List.not_mem_nil, or_false, not_or]
  have h := key_ovr ch
  simp only [List.forall_mem_cons] at h
  obtain ⟨_, _, h1, h2, h3, _⟩ := h
  exact ⟨⟨h1.1.symm, h2.1.symm, h3.1.symm⟩, h1.2.symm, h2.2.symm, h3.2.symm⟩

theorem overdrive_shows (hc : ch < s.nChan) : (State.overdrive ch t s).rd (INP_LSTAT_ovr ch) = 1 ∧ (State.overdrive ch t s).rd (INP_LSTAT_ovr_seen ch) = 1 := by
  obtain ⟨h1, h2⟩ := rd_ovrShown_both (s := s) (ch := ch) t
  by_cases h : s.rd (INP_LSTAT_ovr_seen ch) = 1
  · rw [overdrive_seen t hc h, State.rd_wr_same, State.rd_wr_ne _ _ _ _ (by simp only [Fld.key, INP_LSTAT_ovr, INP_LSTAT_ovr_seen]; omega), State.rd_advance]
    exact ⟨rfl, h⟩
  · rw [overdrive_first t hc h, State.rd_mark, State.rd_mark, State.rd_bbox _ _ _ _ (ovr_not_bbox ch).1, State.rd_bbox _ _ _ _ (ovr_not_bbox ch).2]
    exact ⟨h1, h2⟩

/-- Without a capture the first overdrive writes its black-box entry and nothing more. -/
theorem overdrive_idle (hc : ch < s.nChan) (h : s.rd (INP_LSTAT_ovr_seen ch) = 0) (ha : s.acqSt = 0) :
    State.overdrive ch t s = (ovrShown s ch t).bbox 0x39 ch 0 := by
  have hi : ((ovrShown s ch t).bbox 0x39 ch 0).idle = true := by
    obtain ⟨h1, h2⟩ := key_ovr ch ACQ_STAT_state (by simp)
    have : ((ovrShown s ch t).bbox 0x39 ch 0).acqSt = s.acqSt := by rw [State.acqSt, State.rd_bbox _ _ _ _ (by decide), rd_ovrShown t _ h1 h2]; rfl
    simp [State.idle, this, ha]
  rw [overdrive_first t hc (by omega), State.mark, if_pos hi]

theorem bbx_ovrShown : ((ovrShown s ch t).bbox 0x39 ch 0).bbx = ((s.advance t).bbox 0x39 ch 0).bbx := by
  have h := key_ovr ch
  obtain ⟨h1, h2⟩ := h BBX_STAT_frozen (by simp)
  obtain ⟨k1, k2⟩ := h GLB_STAT_active_mode (by simp)
  refine State.bbox_bbx_congr _ _ _ ?_ ?_ rfl rfl rfl
  · rw [rd_ovrShown t _ h1 h2, State.rd_advance]
  · rw [State.mode_advance]
    exact rd_ovrShown t _ k1 k2

theorem overdrive_idle_keeps (hc : ch < s.nChan) (h : s.rd (INP_LSTAT_ovr_seen ch) = 0) (ha : s.acqSt = 0) :
    (State.overdrive ch t s).bbx = ((s.advance t).bbox 0x39 ch 0).bbx ∧ TimeAt s (State.overdrive ch t s) t
      ∧ SameRegs s (State.overdrive ch t s) [INP_LSTAT_ovr ch, INP_LSTAT_ovr_seen ch, BBX_STAT_count, BBX_HEAD_value, BBX_LOST_value]
      ∧ SameRest s { State.overdrive ch t s with bbx := s.bbx } := by
  rw [overdrive_idle t hc h ha]
  refine ⟨bbx_ovrShown t, ?_, ?_, ?_⟩
  · rw [TimeAt, State.bbox_tmb]
    exact s.advance_kt t
  · rw [sameRegs_bbox _ _ _ (by simp [bboxFlds]), ovrShown, sameRegs_wr _ (by simp), sameRegs_wr _ (by simp), sameRegs_advance]
    exact sameRegs_self s _
  · refine sameRest_bbox _ _ _ ?_
    obtain ⟨b, e, _⟩ := s.advance_moves t
    rw [ovrShown, e]
    exact sameRest_mk_hrv s _ _ _

end Overdrive

/-- Settles O15: a reading by its three cases, overdrive by whether it was seen before. -/
theorem thresholdReadings : Obligations.ThresholdReadings := by
  unfold Obligations.ThresholdReadings
  refine ⟨fun s ch c0 c1 c2 c3 t hp he hm hc hd => ⟨fun hw => ?_, fun w hw ht => ?_⟩, fun s ch t hp hc => ⟨?_, ?_⟩⟩
  · refine Answers.of_performOnAt (exec_thresholdReadback _ _ _ _ _ _ _) hp ?_
    rw [readback_eq c0 c1 c2 c3 t he hm hc hd, if_neg]
    · obtain ⟨k1, k2⟩ := rd_readTo (s.advance t) ch.val (rnd (c0 + c1 + c2 + c3) 4)
      split
      · next h =>
        obtain ⟨d1, d2, d3⟩ := rd_readTo_drift (s.advance t) ch.val (rnd (c0 + c1 + c2 + c3) 4)
        exact ⟨d1, d2, fun _ => d3, fun hn => absurd (of_decide_eq_true h) hn⟩
      · next h => exact ⟨k1, k2, fun hf => absurd (decide_eq_true hf) h, fun _ => readTo_keeps t _⟩
    · split
      · next w e => simp [hw w e]
      · exact Bool.false_ne_true
  · refine Answers.of_performOnAt (exec_thresholdReadback _ _ _ _ _ _ _) hp ?_
    rw [readback_eq c0 c1 c2 c3 t he hm hc hd, if_pos (by rw [hw]; exact decide_eq_true ht)]
    exact swept_keeps t
  · refine Answers.of_performOnAt (exec_overdrive _ _ _) hp ?_
    obtain ⟨h1, h2⟩ := overdrive_shows t hc
    refine ⟨h1, h2, fun h => ?_, fun h ha => overdrive_idle_keeps t hc h ha⟩
    rw [overdrive_seen t hc h]
    refine ⟨s.advance_kt t, ?_, ?_⟩
    · rw [sameRegs_wr _ (by simp), sameRegs_advance]
      exact sameRegs_self s _
    · obtain ⟨b, e, _⟩ := s.advance_moves t
      rw [e]
      exact sameRest_mk_hrv s _ _ _
  · refine Answers.of_performOnAt (exec_overdriveEnd _ _ _) hp ?_
    refine ⟨State.rd_wr_same _ _ _, s.advance_kt t, ?_, ?_⟩
    · rw [State.overdriveEnd, sameRegs_wr _ (by simp), sameRegs_advance]
      exact sameRegs_self s _
    · obtain ⟨b, e, _⟩ := s.advance_moves t
      rw [State.overdriveEnd, e]
      exact sameRest_mk_hrv s _ _ _

end Sys2Proof
end

