-- ==== Sys2Proof/Proofs/EdgeLatches.lean ====
section
/-! SUPPORT. What sets a latch, what an edge's consumers leave of the input registers, and the statement of O16. -/

namespace Sys2Proof.Machine

/-! ### A latch that sets -/

/-- The registers of a latch that sets at `t`. -/
def State.setRegs (s : State) (ch t : Nat) (m0 : Bool) : State :=
  if s.on (INP_CFG_to_tdc ch) then (((s.wr (INP_LSTAT_set ch) 1).wr (INP_LTIME_kt ch) t).wr (INP_LTIME_HI_res1ns ch) (b2n m0)).wr (INP_LTIME_HI_valid ch) (b2n !m0)
  else s.wr (INP_LSTAT_set ch) 1

/-- The latches set in M0 that a wake looks at. -/
def State.setsWith (s : State) (ch t : Nat) (m0 : Bool) : List (Nat × Nat) :=
  if m0 && s.on (INP_CFG_to_wake ch) && decide (s.hks.m0At ≤ t) && !s.hks.sets.contains (ch, t) then s.hks.sets ++ [(ch, t)] else s.hks.sets

theorem State.latchSet_eq (s : State) (ch t : Nat) (m0 : Bool) : ∃ C, s.latchSet ch t m0 =
    { s.setRegs ch t m0 with inp := { s.inp with convert := C }, hks := { s.hks with sets := s.setsWith ch t m0 } } := by
  have ho : (s.wr (INP_LSTAT_set ch) 1).on (INP_CFG_to_tdc ch) = s.on (INP_CFG_to_tdc ch) := by
    rw [State.on, State.rd_wr_ne _ _ _ _ (by simp only [Fld.key, INP_LSTAT_set, INP_CFG_to_tdc]; omega)]
    rfl
  simp only [State.latchSet, State.latchTime, State.setRegs, State.setsWith, ho]
  cases m0 with
  | false =>
    simp only [Bool.false_and, Bool.false_eq_true, if_false]
    split <;> exact ⟨_, rfl⟩
  | true =>
    simp only [Bool.true_and, if_true]
    by_cases h : s.on (INP_CFG_to_tdc ch) = true
    · simp only [h, if_true]
      split <;> exact ⟨_, rfl⟩
    · simp only [h, if_false]
      split <;> exact ⟨_, rfl⟩

/-- The fields of a latch's time. -/
def ltimeFlds (ch : Nat) : List Fld := [INP_LTIME_kt ch, INP_LTIME_HI_res1ns ch, INP_LTIME_HI_valid ch]

theorem State.rd_setRegs_set (s : State) (ch t : Nat) (m0 : Bool) : (s.setRegs ch t m0).rd (INP_LSTAT_set ch) = 1 := by
  unfold State.setRegs
  split
  · rw [State.rd_wr_ne _ _ _ _ (by simp only [Fld.key, INP_LSTAT_set, INP_LTIME_HI_valid]; omega),
      State.rd_wr_ne _ _ _ _ (by simp only [Fld.key, INP_LSTAT_set, INP_LTIME_HI_res1ns]; omega),
      State.rd_wr_ne _ _ _ _ (by simp only [Fld.key, INP_LSTAT_set, INP_LTIME_kt]; omega), State.rd_wr_same]
    rfl
  · rw [State.rd_wr_same]; rfl

theorem State.rd_setRegs_time (s : State) (ch t : Nat) (m0 : Bool) (h : s.on (INP_CFG_to_tdc ch) = true) :
    (s.setRegs ch t m0).rd (INP_LTIME_kt ch) = t % 2 ^ 72 ∧ (s.setRegs ch t m0).on (INP_LTIME_HI_res1ns ch) = m0
      ∧ (s.setRegs ch t m0).on (INP_LTIME_HI_valid ch) = !m0 := by
  rw [State.setRegs, if_pos h]
  refine ⟨?_, ?_, ?_⟩
  · rw [State.rd_wr_ne _ _ _ _ (by simp only [Fld.key, INP_LTIME_kt, INP_LTIME_HI_valid]; omega),
      State.rd_wr_ne _ _ _ _ (by simp only [Fld.key, INP_LTIME_kt, INP_LTIME_HI_res1ns]; omega), State.rd_wr_same]
    rfl
  · rw [State.on, State.rd_wr_ne _ _ _ _ (by simp only [Fld.key, INP_LTIME_HI_res1ns, INP_LTIME_HI_valid]; omega), State.rd_wr_same]
    cases m0 <;> rfl
  · rw [State.on, State.rd_wr_same]
    cases m0 <;> rfl

/-- A register that is none of a latch that sets. -/
theorem State.rd_setRegs_ne (s : State) (ch t : Nat) (m0 : Bool) {f : Fld} (h : f.key ∉ (INP_LSTAT_set ch :: ltimeFlds ch).map Fld.key) :
    (s.setRegs ch t m0).rd f = s.rd f := by
  simp only [ltimeFlds, List.map_cons, List.map_nil, List.mem_cons, List.not_mem_nil, or_false, not_or] at h
  obtain ⟨h1, h2, h3, h4⟩ := h
  unfold State.setRegs
  split
  · rw [State.rd_wr_ne _ _ _ _ (Ne.symm h4), State.rd_wr_ne _ _ _ _ (Ne.symm h3), State.rd_wr_ne _ _ _ _ (Ne.symm h2), State.rd_wr_ne _ _ _ _ (Ne.symm h1)]
  · rw [State.rd_wr_ne _ _ _ _ (Ne.symm h1)]

theorem State.setRegs_moves (s : State) (ch t : Nat) (m0 : Bool) : ∃ F, s.setRegs ch t m0 = { s with fields := F } := by
  unfold State.setRegs
  split <;> exact ⟨_, rfl⟩

/-- The registers of a latch. -/
def latchFlds (ch : Nat) : List Fld := INP_LSTAT_set ch :: INP_LSTAT_again ch :: ltimeFlds ch

/-! ### An edge at a latch -/

/-- The latch selects edges of this direction. -/
def State.selects (s : State) (ch : Nat) (up : Bool) : Bool := bit (s.rd (INP_CFG_latch_edge ch)) (if up then 0 else 1)

theorem State.selects_iff {s : State} {ch : Nat} (up : Bool) (h : s.rd (INP_CFG_latch_edge ch) < 4) :
    s.selects ch up = true ↔ s.rd (INP_CFG_latch_edge ch) = 3 ∨ s.rd (INP_CFG_latch_edge ch) = (if up then 1 else 2) := by
  unfold State.selects
  generalize s.rd (INP_CFG_latch_edge ch) = n at h
  revert h
  cases up <;> revert n <;> decide

theorem State.latchEdge_not {s : State} {ch : Nat} (t : Nat) {up : Bool} (m0 : Bool) (h : s.selects ch up = false) : s.latchEdge ch t up m0 = s := by
  rw [State.latchEdge, if_pos]
  simpa [State.selects] using h

theorem State.latchEdge_again {s : State} {ch : Nat} (t : Nat) {up : Bool} (m0 : Bool) (h : s.selects ch up = true) (hs : s.rd (INP_LSTAT_set ch) = 1) :
    s.latchEdge ch t up m0 = { s.wr (INP_LSTAT_again ch) 1 with inp := { s.inp with lastSel := ins s.inp.lastSel ch t } } := by
  rw [State.latchEdge, if_neg (by simpa [State.selects] using h)]
  have hs' : ({ s with inp := { s.inp with lastSel := ins s.inp.lastSel ch t } } : State).on (INP_LSTAT_set ch) = true := decide_eq_true hs
  dsimp only
  rw [if_pos hs']
  rfl

theorem State.latchEdge_first {s : State} {ch : Nat} (t : Nat) {up : Bool} (m0 : Bool) (h : s.selects ch up = true) (hs : s.rd (INP_LSTAT_set ch) ≠ 1) :
    s.latchEdge ch t up m0 = ({ s with inp := { s.inp with lastSel := ins s.inp.lastSel ch t } } : State).latchSet ch t m0 := by
  rw [State.latchEdge, if_neg (by simpa [State.selects] using h)]
  have hs' : ¬({ s with inp := { s.inp with lastSel := ins s.inp.lastSel ch t } } : State).on (INP_LSTAT_set ch) = true := fun k => hs (of_decide_eq_true k)
  dsimp only
  rw [if_neg hs']

/-- What an edge at a latch changes: its registers, and what the latches hold. -/
theorem State.latchEdge_moves (s : State) (ch t : Nat) (up m0 : Bool) : ∃ F I S, s.latchEdge ch t up m0 = { s with fields := F, inp := I, hks := { s.hks with sets := S } }
    ∧ ∀ f : Fld, f.key ∉ (latchFlds ch).map Fld.key → (s.latchEdge ch t up m0).rd f = s.rd f := by
  by_cases h : s.selects ch up = true
  · by_cases hs : s.rd (INP_LSTAT_set ch) = 1
    · rw [State.latchEdge_again t m0 h hs]
      refine ⟨_, _, s.hks.sets, rfl, fun f hf => ?_⟩
      rw [State.rd_mk, State.rd_wr_ne _ _ _ _ fun e => hf (by simp [latchFlds, e])]
    · rw [State.latchEdge_first t m0 h hs]
      generalize hv : ({ s with inp := { s.inp with lastSel := ins s.inp.lastSel ch t } } : State) = v
      obtain ⟨C, hC⟩ := v.latchSet_eq ch t m0
      obtain ⟨F, hF⟩ := v.setRegs_moves ch t m0
      refine ⟨F, { v.inp with convert := C }, v.setsWith ch t m0, ?_, fun f hf => ?_⟩
      · rw [hC, hF, ← hv]
      · rw [hC, State.rd_mk, State.rd_setRegs_ne _ _ _ _ fun k => hf ?_, ← hv, State.rd_mk]
        rw [latchFlds, List.map_cons, List.map_cons]
        rw [List.map_cons] at k
        exact (List.mem_cons.1 k).elim (fun e => e ▸ List.mem_cons_self) fun k => List.mem_cons_of_mem _ (List.mem_cons_of_mem _ k)
  · rw [State.latchEdge_not t m0 (by simpa using h)]
    exact ⟨s.fields, s.inp, s.hks.sets, rfl, fun _ _ => rfl⟩

/-! ### The consumers of an edge -/

/-- A register of the input front end, or of one before it. -/
theorem rd_low_of_apart {s u : State} (h : u.apart = s.apart) {f : Fld} (hf : f.key < 0x280000) : u.rd f = s.rd f := rd_of_apart h (keys_low hf).1

theorem State.rd_stRate (s : State) (j t : Nat) {f : Fld} (hf : f.key < 0x280000) : (s.stRate j t).1.rd f = s.rd f := by
  unfold State.stRate
  dsimp only
  split
  · rw [State.rd_mk]
    exact rd_low_of_apart (State.stGap_apart t s j) hf
  · split <;> exact State.rd_mk ..

theorem State.rd_holdEdge (s : State) (e : HeldE) {f : Fld} (hf : f.key < 0x280000) : (s.holdEdge e).rd f = s.rd f := by
  unfold State.holdEdge
  split
  · rfl
  · unfold State.lateViolation
    split
    · split
      · exact rd_of_unstat (State.stopMore_unstat s 2 e.t) (keys_low hf).1 (keys_low hf).2.1 (keys_low hf).2.2.1
      · rfl
    · rfl

/-- The consumers of an edge write no register of the input front end. -/
theorem State.rd_consume (s : State) (ch t : Nat) (up sres : Bool) {f : Fld} (hf : f.key < 0x280000) : (s.consume ch t up sres).rd f = s.rd f := by
  have h1 : ∀ u : State, (u.laneEdge ch).rd f = u.rd f := fun u => by unfold State.laneEdge; split <;> rfl
  have h2 : ∀ u : State, (u.gatherEdge ch t up).rd f = u.rd f := fun u => by unfold State.gatherEdge; split <;> rfl
  have h3 : ∀ u : State, (u.stEdge ch t up sres).rd f = u.rd f := fun u => by
    unfold State.stEdge
    dsimp only
    split
    · rfl
    · rw [rd_low_of_apart (State.addUnit_apart _ _) hf, State.rd_stRate _ _ _ hf]
  have h4 : ∀ u : State, (u.m4Edge ch t up sres).rd f = u.rd f := fun u => by
    unfold State.m4Edge
    split
    · exact rd_low_of_apart (State.addUnit_apart _ _) hf
    · rfl
  rw [State.consume, State.rd_holdEdge _ _ hf, h4, h3, h2, h1, State.rd_logAdd]

end Sys2Proof.Machine

namespace Sys2Proof

open Machine

/-! ### What an edge shows -/

/-- What the registers of a channel show of an edge at `te`. -/
structure EdgeShown (s : State) (ch te : Nat) (up : Bool) (u : State) : Prop where
  level : u.on (INP_LSTAT_level ch) = up
  first : s.selects ch up = true → s.rd (INP_LSTAT_set ch) = 0 → u.rd (INP_LSTAT_set ch) = 1 ∧ u.rd (INP_LSTAT_again ch) = s.rd (INP_LSTAT_again ch)
    ∧ (s.on (INP_CFG_to_tdc ch) = true → u.rd (INP_LTIME_kt ch) = te % 2 ^ 72 ∧ u.on (INP_LTIME_HI_res1ns ch) = decide (s.mode = 0)
        ∧ u.on (INP_LTIME_HI_valid ch) = !decide (s.mode = 0))
  again : s.selects ch up = true → s.rd (INP_LSTAT_set ch) = 1 → u.rd (INP_LSTAT_set ch) = 1 ∧ u.rd (INP_LSTAT_again ch) = 1
    ∧ u.rd (INP_LTIME_kt ch) = s.rd (INP_LTIME_kt ch)
  other : s.selects ch up = false → u.rd (INP_LSTAT_set ch) = s.rd (INP_LSTAT_set ch) ∧ u.rd (INP_LTIME_kt ch) = s.rd (INP_LTIME_kt ch)

/-- It is a statement about registers of the input front end. -/
theorem EdgeShown.of_rd {s v u : State} {ch te : Nat} {up : Bool} (h : EdgeShown s ch te up v) (hc : ch < 1024) (hr : ∀ f : Fld, f.key < 0x200000 → u.rd f = v.rd f) :
    EdgeShown s ch te up u := by
  have h1 : u.rd (INP_LSTAT_level ch) = v.rd (INP_LSTAT_level ch) := hr _ (by simp only [Fld.key, INP_LSTAT_level]; omega)
  have h2 : u.rd (INP_LSTAT_set ch) = v.rd (INP_LSTAT_set ch) := hr _ (by simp only [Fld.key, INP_LSTAT_set]; omega)
  have h3 : u.rd (INP_LSTAT_again ch) = v.rd (INP_LSTAT_again ch) := hr _ (by simp only [Fld.key, INP_LSTAT_again]; omega)
  have h4 : u.rd (INP_LTIME_kt ch) = v.rd (INP_LTIME_kt ch) := hr _ (by simp only [Fld.key, INP_LTIME_kt]; omega)
  have h5 : u.rd (INP_LTIME_HI_res1ns ch) = v.rd (INP_LTIME_HI_res1ns ch) := hr _ (by simp only [Fld.key, INP_LTIME_HI_res1ns]; omega)
  have h6 : u.rd (INP_LTIME_HI_valid ch) = v.rd (INP_LTIME_HI_valid ch) := hr _ (by simp only [Fld.key, INP_LTIME_HI_valid]; omega)
  obtain ⟨k1, k2, k3, k4⟩ := h
  unfold State.on at *
  rw [← h1] at k1
  rw [← h2, ← h3, ← h4] at k3
  rw [← h2, ← h4] at k4
  rw [← h2, ← h3, ← h4, ← h5, ← h6] at k2
  exact ⟨k1, k2, k3, k4⟩

/-- The registers of an edge: a channel's level, and its latch. -/
def edgeAt (v : State) (ch te : Nat) (up m0 : Bool) : State := (v.wr (INP_LSTAT_level ch) (b2n up)).latchEdge ch te up m0

theorem level_not_latch (ch : Nat) : (INP_LSTAT_level ch).key ∉ (latchFlds ch).map Fld.key := by
  simp only [latchFlds, ltimeFlds, List.map_cons, List.map_nil, List.mem_cons, List.not_mem_nil, or_false, Fld.key, INP_LSTAT_level, INP_LSTAT_set,
    INP_LSTAT_again, INP_LTIME_kt, INP_LTIME_HI_res1ns, INP_LTIME_HI_valid]
  omega

theorem again_not_set (ch : Nat) : (INP_LSTAT_again ch).key ∉ (INP_LSTAT_set ch :: ltimeFlds ch).map Fld.key := by
  simp only [ltimeFlds, List.map_cons, List.map_nil, List.mem_cons, List.not_mem_nil, or_false, Fld.key, INP_LSTAT_set, INP_LSTAT_again, INP_LTIME_kt,
    INP_LTIME_HI_res1ns, INP_LTIME_HI_valid]
  omega

theorem edgeAt_shown {s v : State} (ch te : Nat) (up : Bool) (hv : ∀ f, v.rd f = s.rd f) : EdgeShown s ch te up (edgeAt v ch te up (decide (s.mode = 0))) := by
  have hw : ∀ f : Fld, f.key ≠ (INP_LSTAT_level ch).key → (v.wr (INP_LSTAT_level ch) (b2n up)).rd f = s.rd f := fun f hf =>
    (State.rd_wr_ne _ _ _ _ (Ne.symm hf)).trans (hv f)
  have hs : (v.wr (INP_LSTAT_level ch) (b2n up)).rd (INP_LSTAT_set ch) = s.rd (INP_LSTAT_set ch) :=
    hw _ (by simp only [Fld.key, INP_LSTAT_level, INP_LSTAT_set]; omega)
  have hk : (v.wr (INP_LSTAT_level ch) (b2n up)).rd (INP_LTIME_kt ch) = s.rd (INP_LTIME_kt ch) :=
    hw _ (by simp only [Fld.key, INP_LSTAT_level, INP_LTIME_kt]; omega)
  have hg : (v.wr (INP_LSTAT_level ch) (b2n up)).rd (INP_LSTAT_again ch) = s.rd (INP_LSTAT_again ch) :=
    hw _ (by simp only [Fld.key, INP_LSTAT_level, INP_LSTAT_again]; omega)
  have hsel : (v.wr (INP_LSTAT_level ch) (b2n up)).selects ch up = s.selects ch up := by
    rw [State.selects, hw _ (by simp only [Fld.key, INP_LSTAT_level, INP_CFG_latch_edge]; omega)]
    rfl
  have hon : (v.wr (INP_LSTAT_level ch) (b2n up)).on (INP_CFG_to_tdc ch) = s.on (INP_CFG_to_tdc ch) := by
    rw [State.on, hw _ (by simp only [Fld.key, INP_LSTAT_level, INP_CFG_to_tdc]; omega)]
    rfl
  have hl : (v.wr (INP_LSTAT_level ch) (b2n up)).rd (INP_LSTAT_level ch) = b2n up := by
    rw [State.rd_wr_same]
    cases up <;> rfl
  unfold edgeAt
  generalize v.wr (INP_LSTAT_level ch) (b2n up) = w at *
  obtain ⟨_, _, _, _, hr⟩ := w.latchEdge_moves ch te up (decide (s.mode = 0))
  refine ⟨?_, fun h1 h2 => ?_, fun h1 h2 => ?_, fun h1 => ?_⟩
  · rw [State.on, hr _ (level_not_latch ch), hl]
    cases up <;> rfl
  · rw [State.latchEdge_first te _ (hsel.trans h1) (by omega)]
    generalize hx : ({ w with inp := { w.inp with lastSel := ins w.inp.lastSel ch te } } : State) = x
    obtain ⟨C, hC⟩ := x.latchSet_eq ch te (decide (s.mode = 0))
    rw [hC]
    refine ⟨x.rd_setRegs_set ch te _, ?_, fun ht => x.rd_setRegs_time ch te _ ?_⟩
    · rw [State.rd_mk, x.rd_setRegs_ne ch te _ (again_not_set ch), ← hg, ← hx, State.rd_mk]
    · rw [← hx]
      exact hon.trans ht
  · rw [State.latchEdge_again te _ (hsel.trans h1) (hs.trans h2)]
    refine ⟨?_, ?_, ?_⟩
    · rw [State.rd_mk, State.rd_wr_ne _ _ _ _ (by simp only [Fld.key, INP_LSTAT_again, INP_LSTAT_set]; omega), hs, h2]
    · rw [State.rd_mk, State.rd_wr_same]
      rfl
    · rw [State.rd_mk, State.rd_wr_ne _ _ _ _ (by simp only [Fld.key, INP_LSTAT_again, INP_LTIME_kt]; omega), hk]
  · rw [State.latchEdge_not te _ (hsel.trans h1)]
    exact ⟨hs, hk⟩

/-- What an edge with no consumers leaves. -/
structure EdgeKept (s : State) (ch te : Nat) (u : State) : Prop where
  time : TimeAt s u te
  regs : SameRegs s u [INP_LSTAT_level ch, INP_LSTAT_set ch, INP_LSTAT_again ch, INP_LTIME_kt ch, INP_LTIME_HI_res1ns ch, INP_LTIME_HI_valid ch, DSK_COEF_sat ch]
  rest : SameRest s { u with inp := s.inp, hks := { u.hks with sets := s.hks.sets } }

theorem edgeAt_moves (v : State) (ch te : Nat) (up m0 : Bool) : ∃ F I S, edgeAt v ch te up m0 = { v with fields := F, inp := I, hks := { v.hks with sets := S } } := by
  obtain ⟨F, I, S, h, _⟩ := (v.wr (INP_LSTAT_level ch) (b2n up)).latchEdge_moves ch te up m0
  exact ⟨F, I, S, h⟩

theorem sameRegs_edgeAt {s v : State} (ch te : Nat) (up m0 : Bool) {l : List Fld} (h : SameRegs s v l) (hl : (INP_LSTAT_level ch :: latchFlds ch) ⊆ l) :
    SameRegs s (edgeAt v ch te up m0) l := by
  obtain ⟨_, _, _, _, hr⟩ := (v.wr (INP_LSTAT_level ch) (b2n up)).latchEdge_moves ch te up m0
  intro f hf
  have h1 : f.key ∉ (latchFlds ch).map Fld.key := fun k => hf (List.map_subset _ (fun x hx => hl (List.mem_cons_of_mem _ hx)) k)
  have h2 : (INP_LSTAT_level ch).key ≠ f.key := fun k => hf (k ▸ List.mem_map_of_mem (hl List.mem_cons_self))
  exact (hr f h1).trans ((State.rd_wr_ne _ _ _ _ h2).trans (h f hf))

/-! ### The edge of a channel -/

section

variable {s : State} {ch : Nat} {up : Bool} {v : Int} (beyond : Bool) (traw sstart : Nat)

/-- When an edge counts (R50, R55, R56, R93). -/
def Machine.State.edgeTime (s : State) (ch : Nat) (beyond : Bool) (traw sstart : Nat) : Nat :=
  if s.mode = 0 then traw / nsF * nsF else if beyond then sstart
    else if s.tdcBeyond ch traw then s.grid.start (s.grid.posOf ((traw : Int) - s.dskD ch).toNat) else ((traw : Int) - s.dskD ch).toNat

/-- An input's edge is one of the channel: it is there and resolved, and at the other level. -/
theorem edge_if {s : State} {ch : Nat} {up : Bool} (hc : ch < s.nChan) (hu : s.rd (INP_LSTAT_unres ch) = 0) (hl : s.rd (INP_LSTAT_level ch) = (if up then 0 else 1)) :
    ¬(s.nChan ≤ ch ∨ s.on (INP_LSTAT_unres ch) = true ∨ s.rd (INP_LSTAT_level ch) = b2n up) := by
  rw [State.on, hu, hl]
  cases up <;> simp [b2n, hc]

theorem channelEdge_m0 (hs : s.side ch v = some up) (hc : ch < s.nChan) (hu : s.rd (INP_LSTAT_unres ch) = 0) (hl : s.rd (INP_LSTAT_level ch) = (if up then 0 else 1))
    (hm : s.mode = 0) : State.channelEdge ch v beyond traw sstart s = edgeAt (s.advance (traw / nsF * nsF)) ch (traw / nsF * nsF) up true := by
  rw [State.channelEdge]
  simp only [hs, if_neg (edge_if hc hu hl), hm, if_true]
  rfl

/-- The edges that the TDC takes are noted. -/
def Machine.State.noted (s : State) (ch traw : Nat) (beyond : Bool) : State := if beyond || s.tdcBeyond ch traw then s else s.tdcTake ch traw

/-- What an edge does before its consumers see it. -/
def edgeHere (s : State) (ch te traw : Nat) (up beyond : Bool) : State :=
  if beyond || s.tdcBeyond ch traw then ((edgeAt ((s.noted ch traw beyond).advance te) ch te up false).pchkEdge ch).wr (DSK_COEF_sat ch) 1
  else (edgeAt ((s.noted ch traw beyond).advance te) ch te up false).pchkEdge ch

theorem channelEdge_seen (hs : s.side ch v = some up) (hc : ch < s.nChan) (hu : s.rd (INP_LSTAT_unres ch) = 0) (hl : s.rd (INP_LSTAT_level ch) = (if up then 0 else 1))
    (hm : s.mode ≠ 0) (hb : s.beforeRes ch (State.edgeTime s ch beyond traw sstart) = false) :
    State.channelEdge ch v beyond traw sstart s =
      if !s.grid.run || ((beyond || s.tdcBeyond ch traw) && s.edgeFill ch) || !s.captured ch then edgeHere s ch (State.edgeTime s ch beyond traw sstart) traw up beyond
      else (edgeHere s ch (State.edgeTime s ch beyond traw sstart) traw up beyond).consume ch (State.edgeTime s ch beyond traw sstart) up (beyond || s.tdcBeyond ch traw) := by
  have ht : State.edgeTime s ch beyond traw sstart = if beyond then sstart else if (beyond || s.tdcBeyond ch traw) then
      s.grid.start (s.grid.posOf ((traw : Int) - s.dskD ch).toNat) else ((traw : Int) - s.dskD ch).toNat := by
    rw [State.edgeTime, if_neg hm]
    cases beyond <;> rfl
  rw [State.channelEdge]
  simp only [hs, if_neg (edge_if hc hu hl), if_neg hm, ← ht, hb, Bool.false_eq_true, if_false]
  rfl

theorem channelEdge_early (hs : s.side ch v = some up) (hc : ch < s.nChan) (hu : s.rd (INP_LSTAT_unres ch) = 0) (hl : s.rd (INP_LSTAT_level ch) = (if up then 0 else 1))
    (hm : s.mode ≠ 0) (hb : s.beforeRes ch (State.edgeTime s ch beyond traw sstart) = true) :
    State.channelEdge ch v beyond traw sstart s = State.unresEdge ch up (State.edgeTime s ch beyond traw sstart) s := by
  have ht : State.edgeTime s ch beyond traw sstart = if beyond then sstart else if (beyond || s.tdcBeyond ch traw) then
      s.grid.start (s.grid.posOf ((traw : Int) - s.dskD ch).toNat) else ((traw : Int) - s.dskD ch).toNat := by
    rw [State.edgeTime, if_neg hm]
    cases beyond <;> rfl
  rw [State.channelEdge]
  simp only [hs, if_neg (edge_if hc hu hl), if_neg hm, ← ht, hb, if_true]

theorem noted_moves (s : State) (ch traw : Nat) (beyond : Bool) : ∃ I, s.noted ch traw beyond = { s with inp := I } := by
  unfold State.noted State.tdcTake
  split <;> exact ⟨_, rfl⟩

theorem pchkEdge_moves (s : State) (ch : Nat) : ∃ I, s.pchkEdge ch = { s with inp := I } := by
  unfold State.pchkEdge
  split
  · split <;> exact ⟨_, rfl⟩
  · exact ⟨_, rfl⟩

theorem edgeHere_moves (s : State) (ch te traw : Nat) (up beyond : Bool) : ∃ F b I S, b.kt = max s.tmb.kt te
    ∧ edgeHere s ch te traw up beyond = { s with fields := F, tmb := b, inp := I, hks := { s.hks with sets := S } } := by
  obtain ⟨I0, h0⟩ := noted_moves s ch traw beyond
  obtain ⟨b, hb, hk⟩ := State.advance_moves (s.noted ch traw beyond) te
  obtain ⟨F, I, S, h1⟩ := edgeAt_moves ((s.noted ch traw beyond).advance te) ch te up false
  obtain ⟨J, h2⟩ := pchkEdge_moves (edgeAt ((s.noted ch traw beyond).advance te) ch te up false) ch
  rw [h0] at hk
  unfold edgeHere
  rw [h2, h1, hb, h0]
  split
  · exact ⟨_, b, J, S, hk, rfl⟩
  · exact ⟨_, b, J, S, hk, rfl⟩

theorem rd_noted_advance (s : State) (ch traw te : Nat) (beyond : Bool) (f : Fld) : ((s.noted ch traw beyond).advance te).rd f = s.rd f := by
  obtain ⟨I, h⟩ := noted_moves s ch traw beyond
  rw [State.rd_advance, h, State.rd_mk]

theorem rd_edgeHere (s : State) (ch te traw : Nat) (up beyond : Bool) (f : Fld) (hf : f.key ≠ (DSK_COEF_sat ch).key) :
    (edgeHere s ch te traw up beyond).rd f = (edgeAt ((s.noted ch traw beyond).advance te) ch te up false).rd f := by
  obtain ⟨J, h⟩ := pchkEdge_moves (edgeAt ((s.noted ch traw beyond).advance te) ch te up false) ch
  unfold edgeHere
  rw [h]
  split
  · rw [State.rd_wr_ne _ _ _ _ (Ne.symm hf), State.rd_mk]
  · rw [State.rd_mk]

theorem edgeHere_shown (ch te traw : Nat) (up beyond : Bool) (hm : s.mode ≠ 0) (hc : ch < 1024) : EdgeShown s ch te up (edgeHere s ch te traw up beyond) := by
  have h := edgeAt_shown (s := s) ch te up (rd_noted_advance s ch traw te beyond)
  rw [decide_eq_false hm] at h
  exact h.of_rd hc fun f hf => rd_edgeHere s ch te traw up beyond f (by simp only [Fld.key, DSK_COEF_sat] at *; omega)

theorem edgeHere_kept (ch te traw : Nat) (up beyond : Bool) : EdgeKept s ch te (edgeHere s ch te traw up beyond) := by
  obtain ⟨F, b, I, S, hk, h⟩ := edgeHere_moves s ch te traw up beyond
  refine ⟨?_, ?_, ?_⟩
  · rw [h]
    exact hk
  · intro f hf
    rw [rd_edgeHere s ch te traw up beyond f fun k => hf (by rw [k]; exact List.mem_map_of_mem (by simp))]
    exact sameRegs_edgeAt ch te up false (fun f _ => rd_noted_advance s ch traw te beyond f) (by simp [latchFlds, ltimeFlds]) f hf
  · rw [h]
    exact sameRest_mk_hrv s _ _ _

/-- An edge as its channel's registers show it, and what else it leaves. -/
theorem channelEdge_shown (hs : s.side ch v = some up) (hc : ch < s.nChan) (hu : s.rd (INP_LSTAT_unres ch) = 0) (hl : s.rd (INP_LSTAT_level ch) = (if up then 0 else 1))
    (hb : s.mode = 0 ∨ s.beforeRes ch (State.edgeTime s ch beyond traw sstart) = false) :
    EdgeShown s ch (State.edgeTime s ch beyond traw sstart) up (State.channelEdge ch v beyond traw sstart s)
      ∧ (s.mode = 0 ∨ s.grid.run = false ∨ s.captured ch = false → EdgeKept s ch (State.edgeTime s ch beyond traw sstart) (State.channelEdge ch v beyond traw sstart s)) := by
  have hc' := chan_lt hc
  by_cases hm : s.mode = 0
  · have ht : State.edgeTime s ch beyond traw sstart = traw / nsF * nsF := if_pos hm
    rw [channelEdge_m0 beyond traw sstart hs hc hu hl hm, ht]
    have h := edgeAt_shown (s := s) ch (traw / nsF * nsF) up (s.rd_advance (traw / nsF * nsF))
    rw [decide_eq_true hm] at h
    obtain ⟨F, I, S, e⟩ := edgeAt_moves (s.advance (traw / nsF * nsF)) ch (traw / nsF * nsF) up true
    obtain ⟨b, eb, hk⟩ := s.advance_moves (traw / nsF * nsF)
    refine ⟨h, fun _ => ⟨?_, ?_, ?_⟩⟩
    · rw [e]
      exact s.advance_kt _
    · exact sameRegs_edgeAt ch _ up true (fun f _ => s.rd_advance _ f) (by simp [latchFlds, ltimeFlds])
    · rw [e, eb]
      exact sameRest_mk_hrv s _ _ _
  · have hk := edgeHere_kept (s := s) ch (State.edgeTime s ch beyond traw sstart) traw up beyond
    have hw := edgeHere_shown (s := s) ch (State.edgeTime s ch beyond traw sstart) traw up beyond hm hc'
    rw [channelEdge_seen beyond traw sstart hs hc hu hl hm (hb.resolve_left hm)]
    split
    · exact ⟨hw, fun _ => hk⟩
    · next h =>
      refine ⟨hw.of_rd hc' fun f hf => State.rd_consume _ _ _ _ _ (by omega), fun k => absurd ?_ h⟩
      rcases k with k | k | k
      · exact absurd k hm
      · simp [k]
      · simp [k]

theorem unresEdge_keeps (ch : Nat) (up : Bool) (te : Nat) (u : State) (hu : u = State.unresEdge ch up te s) :
    u.on (INP_LSTAT_level ch) = up ∧ TimeAt s u te ∧ SameRegs s u [INP_LSTAT_level ch] ∧ SameRest s { u with inp := s.inp, acq := { u.acq with log := s.acq.log } } := by
  obtain ⟨I, hI⟩ := pchkEdge_moves ((s.advance te).wr (INP_LSTAT_level ch) (b2n up)) ch
  obtain ⟨b, hb, hk⟩ := s.advance_moves te
  obtain ⟨L, hL⟩ := (((s.advance te).wr (INP_LSTAT_level ch) (b2n up)).pchkEdge ch).logAdd_moves ch (b2n up) ((look s.inp.resAt ch).getD te) false false
  have hL' : u = _ := hu.trans hL
  rw [hI, hb] at hL'
  rw [hL']
  refine ⟨?_, hk, ?_, sameRest_mk_hrv s _ _ _⟩
  · rw [State.on, State.rd_mk, State.rd_mk, State.rd_wr_same]
    cases up <;> rfl
  · rw [sameRegs_mk, sameRegs_mk, sameRegs_wr _ (by simp), sameRegs_mk]
    exact sameRegs_self s _

theorem channelEdge_none (h : s.side ch v = none ∨ s.nChan ≤ ch ∨ s.rd (INP_LSTAT_unres ch) = 1
    ∨ s.side ch v = some up ∧ s.rd (INP_LSTAT_level ch) = (if up then 1 else 0)) : State.channelEdge ch v beyond traw sstart s = s.advance traw := by
  rw [State.channelEdge]
  cases hs : s.side ch v with
  | none => rfl
  | some x =>
    dsimp only
    rw [if_pos]
    rcases h with h | h | h | ⟨h, k⟩
    · exact absurd (hs.symm.trans h) (Option.some_ne_none _)
    · exact .inl h
    · exact .inr (.inl (decide_eq_true h))
    · have e : x = up := Option.some.inj (hs.symm.trans h)
      subst e
      refine .inr (.inr ?_)
      rw [k]
      cases x <;> rfl

end

/-- Settles O16: an edge's time by the cases of R93, what it shows in its channel's registers, which no consumer writes, and the cases with
no edge. -/
theorem edgeLatches : Obligations.EdgeLatches := by
  unfold Obligations.EdgeLatches
  refine fun s ch rising beyond v traw sstart hp => ⟨fun hs hc hu hl hx hb => ?_, fun hs hc hu hl hm hb => ?_, fun h => ?_⟩
  · refine Answers.of_performOnAt (exec_channelEdge _ _ _ _ _ _) hp ?_
    obtain ⟨⟨k1, k2, k3, k4⟩, k5⟩ := channelEdge_shown beyond traw sstart hs hc hu hl hb
    have hsel := State.selects_iff rising hx
    refine ⟨k1, fun h => k2 (hsel.2 h), fun h => k3 (hsel.2 h), fun h => k4 (by simpa [h] using hsel), fun h => ?_⟩
    obtain ⟨h1, h2, h3⟩ := k5 h
    exact ⟨h1, h2, h3⟩
  · refine Answers.of_performOnAt (exec_channelEdge _ _ _ _ _ _) hp ?_
    exact unresEdge_keeps ch.val rising _ _ (channelEdge_early beyond traw sstart hs hc hu hl hm hb)
  · refine Answers.of_performOnAt (exec_channelEdge _ _ _ _ _ _) hp ?_
    rw [channelEdge_none beyond traw sstart h]
    exact unchanged_advance s traw

end Sys2Proof
end

