-- ==== Sys2Proof/Proofs/LatchClearing.lean ====
section
/-! SUPPORT. How a latch is cleared, the periods of the latches, and the statement of O17. -/

namespace Sys2Proof

open Machine

/-! ### The registers -/

/-- The fields of INP_LSTAT that software clears. -/
def lstatFlds (ch : Nat) : List Fld := [INP_LSTAT_drift ch, INP_LSTAT_ovr_seen ch, INP_LSTAT_again ch, INP_LSTAT_set ch]

theorem regAt_lstat {ch : Nat} (hc : ch < 1024) : (regAt (INP_LSTAT_set ch).addr).map (fun x => softFlds (x.1.flds x.2.1 x.2.2)) = some (lstatFlds ch) := by
  have ha : (INP_LSTAT_set ch).addr = 0x3000c + 64 * ch := rfl
  rw [regAt_inp (by omega), ha, rowsINP, findReg_miss (RegRow.idx_miss (by decide) (by omega)), findReg_miss (RegRow.idx_miss (by decide) (by omega)),
    findReg_miss (RegRow.idx_miss (by decide) (by omega)), findReg_hit (RegRow.idx_hit rfl (by decide) hc)]
  rfl

theorem regAt_lper {ch : Nat} (hc : ch < 1024) : (regAt (INP_LPER_period ch).addr).map (fun x => softFlds (x.1.flds x.2.1 x.2.2)) = some [INP_LPER_period ch] := by
  have ha : (INP_LPER_period ch).addr = 0x30008 + 64 * ch := rfl
  rw [regAt_inp (by omega), ha, rowsINP, findReg_miss (RegRow.idx_miss (by decide) (by omega)), findReg_miss (RegRow.idx_miss (by decide) (by omega)),
    findReg_hit (RegRow.idx_hit rfl (by decide) hc)]
  rfl

/-- A register at the offset of none of a list of rows. -/
theorem findReg_append {l rs : List RegRow} {a : Nat} (h : ∀ r ∈ l, r.idx a = none) : findReg (l ++ rs) a = findReg rs a := by
  induction l with
  | nil => rfl
  | cons r l ih =>
    rw [List.cons_append, findReg_miss (h r List.mem_cons_self)]
    exact ih fun x hx => h x (List.mem_cons_of_mem _ hx)

theorem regAt_latch {k : Nat} (hc : k < 32) : (regAt (INP_LATCH_bits k).addr).map (fun x => softFlds (x.1.flds x.2.1 x.2.2)) = some [] := by
  have ha : (INP_LATCH_bits k).addr = 0x3003c + 64 * k := rfl
  have hm : ∀ r ∈ rowsINP.take 13, r.idx (0x3003c + 64 * k) = none := by
    simp only [rowsINP, List.take_succ_cons, List.take_zero, List.forall_mem_cons, List.not_mem_nil, false_imp_iff, implies_true, and_true]
    refine ⟨?_, ?_, ?_, ?_, ?_, ?_, ?_, ?_, ?_, ?_, ?_, ?_, ?_⟩ <;> exact RegRow.idx_miss (by decide) (by omega)
  rw [regAt_inp (by omega), ha, ← List.take_append_drop 13 rowsINP, findReg_append hm, rowsINP]
  simp only [List.drop_succ_cons, List.drop_zero]
  rw [findReg_hit (RegRow.idx_hit rfl (by decide) hc)]
  rfl

theorem effect_lstat (p : Port) (ch v bm : Nat) (old s : State) (hc : ch < 1024) :
    State.effect p (INP_LSTAT_set ch).addr v bm old s = if (INP_LSTAT_set ch).of v = 1 then s.latchClear ch s.tmb.kt else s := by
  have ha : (INP_LSTAT_set ch).addr = 0x3000c + 64 * ch := rfl
  rw [effect_inp _ _ _ _ _ (by omega), ha, State.effInp]
  have h1 : ¬0x3000c + 64 * ch = INP_PCHK_CTL_start.addr := by simp only [INP_PCHK_CTL_start]; omega
  have h2 : ¬0x3000c + 64 * ch = INP_LPER_SYNC_sync.addr := by simp only [INP_LPER_SYNC_sync]; omega
  have h3 : (0x3000c + 64 * ch) % 64 = 0xC := by omega
  have h4 : (0x3000c + 64 * ch - 0x30000) / 64 = ch := by omega
  rw [if_neg h1, if_neg h2]
  simp only [h3, h4]

theorem effect_lper (p : Port) (ch v bm : Nat) (old s : State) (hc : ch < 1024) :
    State.effect p (INP_LPER_period ch).addr v bm old s = s.perRestart ch := by
  have ha : (INP_LPER_period ch).addr = 0x30008 + 64 * ch := rfl
  rw [effect_inp _ _ _ _ _ (by omega), ha, State.effInp]
  have h1 : ¬0x30008 + 64 * ch = INP_PCHK_CTL_start.addr := by simp only [INP_PCHK_CTL_start]; omega
  have h2 : ¬0x30008 + 64 * ch = INP_LPER_SYNC_sync.addr := by simp only [INP_LPER_SYNC_sync]; omega
  have h3 : (0x30008 + 64 * ch) % 64 = 8 := by omega
  have h4 : (0x30008 + 64 * ch - 0x30000) / 64 = ch := by omega
  rw [if_neg h1, if_neg h2]
  simp only [h3, h4]

theorem effect_latch (p : Port) (k v bm : Nat) (old s : State) (hc : k < 32) :
    State.effect p (INP_LATCH_bits k).addr v bm old s = State.channelBits v k (fun s c => s.latchClear c s.tmb.kt) s := by
  have ha : (INP_LATCH_bits k).addr = 0x3003c + 64 * k := rfl
  rw [effect_inp _ _ _ _ _ (by omega), ha, State.effInp]
  have h1 : ¬0x3003c + 64 * k = INP_PCHK_CTL_start.addr := by simp only [INP_PCHK_CTL_start]; omega
  have h2 : ¬0x3003c + 64 * k = INP_LPER_SYNC_sync.addr := by simp only [INP_LPER_SYNC_sync]; omega
  have h3 : (0x3003c + 64 * k) % 64 = 0x3C := by omega
  have h4 : (0x3003c + 64 * k - 0x30000) / 64 = k := by omega
  rw [if_neg h1, if_neg h2]
  simp only [h3, h4, if_pos hc]

/-- Of the bits of one channel only its own is set. -/
theorem channelBits_one (ch : Nat) (f : State → Nat → State) (s : State) : State.channelBits (2 ^ (ch % 32)) (ch / 32) f s = f s ch := by
  have h : (List.range 32).filter (bit (2 ^ (ch % 32))) = [ch % 32] := by
    have hk : ch % 32 < 32 := Nat.mod_lt _ (by decide)
    generalize ch % 32 = k at hk
    revert k
    decide
  rw [State.channelBits, h, List.foldl_cons, List.foldl_nil, Nat.div_add_mod]

/-! ### A latch that is cleared -/

/-- What a latch shows that was cleared at `at_`, by a command of time `t` (R51, R52, R53, R57). -/
def Cleared (s : State) (ch t at_ : Nat) (u : State) : Prop :=
  u.rd (INP_LSTAT_again ch) = 0
    ∧ ((∀ e, look s.inp.lastSel ch = some e → e / xtalF ≠ at_ / xtalF) →
        u.rd (INP_LSTAT_set ch) = 0 ∧ u.rd (INP_LTIME_HI_valid ch) = 0 ∧ u.rd (INP_LTIME_kt ch) = s.rd (INP_LTIME_kt ch))
    ∧ (∀ e, look s.inp.lastSel ch = some e → e / xtalF = at_ / xtalF → u.rd (INP_LSTAT_set ch) = 1
        ∧ (s.on (INP_CFG_to_tdc ch) = true →
            u.rd (INP_LTIME_kt ch) = e % 2 ^ 72 ∧ u.on (INP_LTIME_HI_valid ch) = !decide (s.mode = 0)
              ∧ u.on (INP_LTIME_HI_res1ns ch) = decide (s.mode = 0)))
    ∧ u.rd (INP_LSTAT_drift ch) % 2 = s.rd (INP_LSTAT_drift ch) % 2
    ∧ u.rd (INP_LSTAT_ovr_seen ch) % 2 = s.rd (INP_LSTAT_ovr_seen ch) % 2 ∧ TimeAt s u t
    ∧ SameRegs s u [INP_LSTAT_set ch, INP_LSTAT_again ch, INP_LSTAT_drift ch, INP_LSTAT_ovr_seen ch,
        INP_LTIME_kt ch, INP_LTIME_HI_res1ns ch, INP_LTIME_HI_valid ch]
    ∧ (s.mode ≠ 0 → u.hks.sets = s.hks.sets)
    ∧ (s.mode = 0 → s.on (INP_CFG_to_wake ch) = true → ∀ e, look s.inp.lastSel ch = some e → e / xtalF = at_ / xtalF →
        u.hks.sets = if s.hks.m0At ≤ e ∧ (ch, e) ∉ s.hks.sets then s.hks.sets ++ [(ch, e)] else s.hks.sets)
    ∧ SameRest s { u with inp := { u.inp with per := s.inp.per, convert := s.inp.convert }, hks := { u.hks with sets := s.hks.sets } }

/-- A machine about to clear a latch: INP_LSTAT is stored, or the latch's period starts again. -/
structure BeforeClear (s : State) (ch t : Nat) (v : State) : Prop where
  regs : SameRegs s v (lstatFlds ch)
  drift : v.rd (INP_LSTAT_drift ch) % 2 = s.rd (INP_LSTAT_drift ch) % 2
  ovr : v.rd (INP_LSTAT_ovr_seen ch) % 2 = s.rd (INP_LSTAT_ovr_seen ch) % 2
  kt : v.tmb.kt = max s.tmb.kt t
  rest : ∃ F b c q i, v = { s with fields := F, tmb := b, hrv := { s.hrv with l12 := c }, inp := { s.inp with per := q }, irqSeen := i }

/-- The registers that a clearing writes in any case. -/
def clearRegs (v : State) (ch : Nat) : State := (v.wr (INP_LSTAT_again ch) 0).wr (INP_LTIME_HI_valid ch) 0

theorem rd_clearRegs_ne {v : State} {ch : Nat} {f : Fld} (h1 : f.key ≠ (INP_LSTAT_again ch).key) (h2 : f.key ≠ (INP_LTIME_HI_valid ch).key) :
    (clearRegs v ch).rd f = v.rd f := by rw [clearRegs, State.rd_wr_ne _ _ _ _ (Ne.symm h2), State.rd_wr_ne _ _ _ _ (Ne.symm h1)]

theorem rd_clearRegs (v : State) (ch : Nat) : (clearRegs v ch).rd (INP_LSTAT_again ch) = 0 ∧ (clearRegs v ch).rd (INP_LTIME_HI_valid ch) = 0 := by
  refine ⟨?_, State.rd_wr_same _ _ _⟩
  rw [clearRegs, State.rd_wr_ne _ _ _ _ (by simp only [Fld.key, INP_LSTAT_again, INP_LTIME_HI_valid]; omega), State.rd_wr_same]
  rfl

/-- No selected edge in the cycle of the clearing. -/
theorem latchClear_plain {v : State} {ch t : Nat} (h : ∀ e, look v.inp.lastSel ch = some e → e / xtalF ≠ t / xtalF) :
    v.latchClear ch t = (clearRegs v ch).wr (INP_LSTAT_set ch) 0 := by
  unfold State.latchClear
  dsimp only
  split
  · next e he => rw [if_neg (h e he)]; rfl
  · rfl

/-- A selected edge in the cycle of the clearing. -/
theorem latchClear_edge {v : State} {ch t e : Nat} (he : look v.inp.lastSel ch = some e) (h : e / xtalF = t / xtalF) :
    v.latchClear ch t = (clearRegs v ch).latchSet ch e (decide (v.mode = 0)) := by
  unfold State.latchClear
  simp only [he, if_pos h]
  rfl

section

variable {s v : State} {ch t at_ : Nat} (h : BeforeClear s ch t v)
include h

/-- A register of neither INP_LSTAT nor the time of the latch. -/
theorem BeforeClear.rd_clear {f : Fld} (h1 : f.key ∉ (lstatFlds ch).map Fld.key) (h2 : f.key ≠ (INP_LTIME_HI_valid ch).key) : (clearRegs v ch).rd f = s.rd f := by
  rw [rd_clearRegs_ne (fun e => h1 (by simp [lstatFlds, e])) h2, h.regs f h1]

theorem BeforeClear.rd_kept (f : Fld) (h1 : f = INP_LSTAT_drift ch ∨ f = INP_LSTAT_ovr_seen ch) :
    (clearRegs v ch).rd f % 2 = s.rd f % 2 ∧ f.key ∉ (INP_LSTAT_set ch :: ltimeFlds ch).map Fld.key := by
  rcases h1 with rfl | rfl
  · rw [rd_clearRegs_ne (by simp only [Fld.key, INP_LSTAT_drift, INP_LSTAT_again]; omega) (by simp only [Fld.key, INP_LSTAT_drift, INP_LTIME_HI_valid]; omega)]
    refine ⟨h.drift, ?_⟩
    simp only [ltimeFlds, List.map_cons, List.map_nil, List.mem_cons, List.not_mem_nil, or_false, Fld.key, INP_LSTAT_drift, INP_LSTAT_set, INP_LTIME_kt,
      INP_LTIME_HI_res1ns, INP_LTIME_HI_valid]
    omega
  · rw [rd_clearRegs_ne (by simp only [Fld.key, INP_LSTAT_ovr_seen, INP_LSTAT_again]; omega) (by simp only [Fld.key, INP_LSTAT_ovr_seen, INP_LTIME_HI_valid]; omega)]
    refine ⟨h.ovr, ?_⟩
    simp only [ltimeFlds, List.map_cons, List.map_nil, List.mem_cons, List.not_mem_nil, or_false, Fld.key, INP_LSTAT_ovr_seen, INP_LSTAT_set, INP_LTIME_kt,
      INP_LTIME_HI_res1ns, INP_LTIME_HI_valid]
    omega

theorem BeforeClear.mode : v.mode = s.mode := h.regs _ (by
  simp only [lstatFlds, List.map_cons, List.map_nil, List.mem_cons, List.not_mem_nil, or_false, Fld.key, INP_LSTAT_drift, INP_LSTAT_ovr_seen, INP_LSTAT_again,
    INP_LSTAT_set, GLB_STAT_active_mode]
  omega)

theorem BeforeClear.lastSel : v.inp.lastSel = s.inp.lastSel := by
  obtain ⟨_, _, _, _, _, e⟩ := h.rest
  rw [e]

theorem BeforeClear.sameRegs {u : State} (hu : ∀ f : Fld, f.key ∉ (INP_LSTAT_set ch :: ltimeFlds ch).map Fld.key → u.rd f = (clearRegs v ch).rd f) :
    SameRegs s u [INP_LSTAT_set ch, INP_LSTAT_again ch, INP_LSTAT_drift ch, INP_LSTAT_ovr_seen ch, INP_LTIME_kt ch, INP_LTIME_HI_res1ns ch, INP_LTIME_HI_valid ch] := by
  intro f hf
  simp only [List.map_cons, List.map_nil, List.mem_cons, List.not_mem_nil, or_false, not_or] at hf
  obtain ⟨h1, h2, h3, h4, h5, h6, h7⟩ := hf
  rw [hu f (by simp [ltimeFlds, h1, h5, h6, h7]), h.rd_clear (by simp [lstatFlds, h1, h2, h3, h4]) h7]

theorem BeforeClear.plain (hn : ∀ e, look s.inp.lastSel ch = some e → e / xtalF ≠ at_ / xtalF) : Cleared s ch t at_ (v.latchClear ch at_) := by
  rw [latchClear_plain (by rwa [h.lastSel])]
  have hr : ∀ f : Fld, f.key ≠ (INP_LSTAT_set ch).key → ((clearRegs v ch).wr (INP_LSTAT_set ch) 0).rd f = (clearRegs v ch).rd f := fun f hf =>
    State.rd_wr_ne _ _ _ _ (Ne.symm hf)
  have hk : ∀ f : Fld, f.key ∉ (INP_LSTAT_set ch :: ltimeFlds ch).map Fld.key → f.key ≠ (INP_LSTAT_set ch).key := fun f hf e => hf (by simp [e])
  obtain ⟨d1, d2⟩ := h.rd_kept _ (.inl rfl)
  obtain ⟨o1, o2⟩ := h.rd_kept _ (.inr rfl)
  obtain ⟨c1, c2⟩ := rd_clearRegs v ch
  obtain ⟨F, b, c, q, i, e⟩ := h.rest
  refine ⟨?_, fun _ => ⟨State.rd_wr_same _ _ _, ?_, ?_⟩, fun e he k => absurd k (hn e he), ?_, ?_, h.kt, h.sameRegs fun f hf => hr f (hk f hf), fun _ => ?_,
    fun _ _ e he k => absurd k (hn e he), ?_⟩
  · rw [hr _ (hk _ (again_not_set ch)), c1]
  · rw [hr _ (by simp only [Fld.key, INP_LSTAT_set, INP_LTIME_HI_valid]; omega), c2]
  · rw [hr _ (by simp only [Fld.key, INP_LSTAT_set, INP_LTIME_kt]; omega), h.rd_clear _ (by simp only [Fld.key, INP_LTIME_kt, INP_LTIME_HI_valid]; omega)]
    simp only [lstatFlds, List.map_cons, List.map_nil, List.mem_cons, List.not_mem_nil, or_false, Fld.key, INP_LSTAT_drift, INP_LSTAT_ovr_seen, INP_LSTAT_again,
      INP_LSTAT_set, INP_LTIME_kt]
    omega
  · rw [hr _ (hk _ d2), d1]
  · rw [hr _ (hk _ o2), o1]
  · rw [e]; rfl
  · rw [e]
    exact sameRest_mk s _ _ _ _

/-- The latch as it stands when the clearing sets it again. -/
theorem BeforeClear.on_clear (f : Fld) (hf : f = INP_CFG_to_tdc ch ∨ f = INP_CFG_to_wake ch) : (clearRegs v ch).on f = s.on f := by
  rw [State.on, State.on, h.rd_clear]
  · rcases hf with rfl | rfl <;>
    · simp only [lstatFlds, List.map_cons, List.map_nil, List.mem_cons, List.not_mem_nil, or_false, Fld.key, INP_LSTAT_drift, INP_LSTAT_ovr_seen,
        INP_LSTAT_again, INP_LSTAT_set, INP_CFG_to_tdc, INP_CFG_to_wake]
      omega
  · rcases hf with rfl | rfl <;> simp only [Fld.key, INP_CFG_to_tdc, INP_CFG_to_wake, INP_LTIME_HI_valid] <;> omega

theorem BeforeClear.edge {e0 : Nat} (he : look s.inp.lastSel ch = some e0) (hx : e0 / xtalF = at_ / xtalF) : Cleared s ch t at_ (v.latchClear ch at_) := by
  rw [latchClear_edge (by rwa [h.lastSel]) hx, h.mode]
  have hr := fun f hf => (clearRegs v ch).rd_setRegs_ne ch e0 (decide (s.mode = 0)) (f := f) hf
  have hs := (clearRegs v ch).rd_setRegs_set ch e0 (decide (s.mode = 0))
  have htm := (clearRegs v ch).rd_setRegs_time ch e0 (decide (s.mode = 0))
  rw [h.on_clear _ (.inl rfl)] at htm
  obtain ⟨C, hC⟩ := (clearRegs v ch).latchSet_eq ch e0 (decide (s.mode = 0))
  obtain ⟨G, hG⟩ := (clearRegs v ch).setRegs_moves ch e0 (decide (s.mode = 0))
  obtain ⟨d1, d2⟩ := h.rd_kept _ (.inl rfl)
  obtain ⟨o1, o2⟩ := h.rd_kept _ (.inr rfl)
  obtain ⟨c1, c2⟩ := rd_clearRegs v ch
  obtain ⟨F, b, c, q, i, e⟩ := h.rest
  have hsets : (clearRegs v ch).setsWith ch e0 (decide (s.mode = 0)) = if (decide (s.mode = 0) && s.on (INP_CFG_to_wake ch)) && decide (s.hks.m0At ≤ e0)
      && !s.hks.sets.contains (ch, e0) then s.hks.sets ++ [(ch, e0)] else s.hks.sets := by
    have hh : (clearRegs v ch).hks = s.hks := by rw [e]; rfl
    rw [State.setsWith, h.on_clear _ (.inr rfl), hh]
  have hrr : ∀ f, ((clearRegs v ch).latchSet ch e0 (decide (s.mode = 0))).rd f = ((clearRegs v ch).setRegs ch e0 (decide (s.mode = 0))).rd f := fun f => by
    rw [hC, State.rd_mk]
  refine ⟨?_, fun k => absurd hx (k e0 he), fun e1 he1 _ => ?_, ?_, ?_, ?_, h.sameRegs fun f hf => (hrr f).trans (hr f hf), fun hm => ?_, fun hm hw e1 he1 _ => ?_, ?_⟩
  · rw [hrr, hr _ (again_not_set ch), c1]
  · obtain rfl : e1 = e0 := Option.some.inj (he1.symm.trans he)
    refine ⟨(hrr _).trans hs, fun k => ?_⟩
    obtain ⟨k1, k2, k3⟩ := htm k
    rw [State.on, State.on, hrr, hrr, hrr]
    exact ⟨k1, k3, k2⟩
  · rw [hrr, hr _ d2, d1]
  · rw [hrr, hr _ o2, o1]
  · rw [hC, hG]
    exact h.kt
  · rw [hC]
    exact hsets.trans (if_neg (by simp [hm]))
  · obtain rfl : e1 = e0 := Option.some.inj (he1.symm.trans he)
    rw [hC]
    refine hsets.trans ?_
    simp only [hm, hw, decide_true, Bool.true_and, Bool.and_eq_true, decide_eq_true_eq, Bool.not_eq_true', List.contains_eq_mem, decide_eq_false_iff_not]
  · rw [hC, hG, e]
    exact sameRest_mk s _ _ _ _

theorem BeforeClear.cleared : Cleared s ch t at_ (v.latchClear ch at_) := by
  by_cases hn : ∀ e, look s.inp.lastSel ch = some e → e / xtalF ≠ at_ / xtalF
  · exact h.plain hn
  · push Not at hn
    obtain ⟨e, he, hx⟩ := hn
    exact h.edge he hx

end

/-- What is shown does not speak of the messages sent. -/
theorem Cleared.reSignal {s u : State} {ch t at_ : Nat} (h : Cleared s ch t at_ u) (a : Nat) : Cleared s ch t at_ (State.reSignal a u) := h

/-! ### The commands that clear a latch -/

section

variable {s : State} {p : Port} {ch t : Nat}

theorem lstat_low (ch : Nat) : (lstatFlds ch).map Fld.key = [8 * (0x3000c + 64 * ch) + 13, 8 * (0x3000c + 64 * ch) + 12, 8 * (0x3000c + 64 * ch) + 2, 8 * (0x3000c + 64 * ch) + 0] := rfl

theorem beforeClear_stored {l : List Fld} {v : Nat} (hl : l ⊆ lstatFlds ch) (hd : (stored l v (s.advance t) p).rd (INP_LSTAT_drift ch) % 2 = s.rd (INP_LSTAT_drift ch) % 2)
    (ho : (stored l v (s.advance t) p).rd (INP_LSTAT_ovr_seen ch) % 2 = s.rd (INP_LSTAT_ovr_seen ch) % 2) :
    BeforeClear s ch t (stored l v (s.advance t) p) := by
  have h := asBefore_stored s p t v l
  obtain ⟨F, b, c, e⟩ := h.rest
  exact ⟨h.regs.mono hl, hd, ho, h.kt, F, b, c, s.inp.per, s.irqSeen, e⟩

theorem of_pos_low {f : Fld} (h : f.lo ≠ 0) : f.of 1 = 0 := by
  unfold Fld.of
  rw [Nat.div_eq_of_lt (Nat.one_lt_two_pow h), Nat.zero_mod]

theorem of_word_bit {f : Fld} (hw : f.w = 1) (hl : f.lo < 32) : f.of 0xFFFFFFFF = 1 := by
  unfold Fld.of
  rw [hw]
  interval_cases f.lo <;> rfl

/-- A clear bit written as 0 stays. -/
theorem stored_kept {v : Nat} {f : Fld} (hf : f ∈ lstatFlds ch) (ha : f.acc = .w1c) (hw : f.w = 1) (hl : f.lo < 32) (h0 : f.of v ≠ 1) :
    (stored (lstatFlds ch) v (s.advance t) p).rd f % 2 = s.rd f % 2 := by
  have hn : ((lstatFlds ch).map Fld.key).Nodup := by
    rw [lstat_low]
    simp only [List.nodup_cons, List.mem_cons, List.not_mem_nil, or_false, List.nodup_nil, and_true, not_false_eq_true]
    omega
  rw [rd_stored_w1c v _ p hf hn ha hw (of_word_bit hw hl), if_neg h0, State.rd_advance, Nat.mod_mod]

/-- A clearing leaves the periods. -/
theorem latchClear_per (v : State) (ch t : Nat) : (v.latchClear ch t).inp.per = v.inp.per := by
  by_cases hn : ∀ e, look v.inp.lastSel ch = some e → e / xtalF ≠ t / xtalF
  · rw [latchClear_plain hn]
    rfl
  · push Not at hn
    obtain ⟨e, he, hx⟩ := hn
    obtain ⟨C, hC⟩ := (clearRegs v ch).latchSet_eq ch e (decide (v.mode = 0))
    rw [latchClear_edge he hx, hC]
    rfl

theorem lstatWrite_clears (h : Reaches p (INP_LSTAT_set ch).addr s) (hc : ch < s.nChan) :
    Cleared s ch t (max s.tmb.kt t) (State.writeAt p (INP_LSTAT_set ch).addr 1 t s)
      ∧ (State.writeAt p (INP_LSTAT_set ch).addr 1 t s).inp.per = s.inp.per := by
  have ha : (INP_LSTAT_set ch).addr = 0x3000c + 64 * ch := rfl
  have hc' := chan_lt hc
  have hb : BeforeClear s ch t (stored (lstatFlds ch) 1 (s.advance t) p) := beforeClear_stored (List.Subset.refl _)
    (stored_kept (by simp [lstatFlds]) rfl rfl (show 13 < 32 by decide) (by rw [of_pos_low (show 13 ≠ 0 by decide)]; decide))
    (stored_kept (by simp [lstatFlds]) rfl rfl (show 12 < 32 by decide) (by rw [of_pos_low (show 12 ≠ 0 by decide)]; decide))
  have hk := (asBefore_stored s p t 1 (lstatFlds ch)).kt
  have hi := (asBefore_stored s p t 1 (lstatFlds ch)).inp
  rw [State.writeAt, portWrite_stores p _ 1 _ _ (h.advance t) (by decide) (by omega) (by omega) (closed_inp (by omega))
    (ignored_channel (ch := ch) (by omega) (by omega) (by simpa using hc)) (regAt_lstat hc'), effect_lstat _ _ _ _ _ _ hc', if_pos (show (INP_LSTAT_set ch).of 1 = 1 by show 1 / 2 ^ 0 % 2 ^ 1 = 1; decide), hk]
  exact ⟨hb.cleared.reSignal _, (latchClear_per _ _ _).trans (congrArg Inp.per hi)⟩

theorem latchBitWrite_clears (h : Reaches p (INP_LATCH_bits (ch / 32)).addr s) (hc : ch < s.nChan) :
    Cleared s ch t (max s.tmb.kt t) (State.writeAt p (INP_LATCH_bits (ch / 32)).addr (2 ^ (ch % 32)) t s)
      ∧ (State.writeAt p (INP_LATCH_bits (ch / 32)).addr (2 ^ (ch % 32)) t s).inp.per = s.inp.per := by
  have ha : (INP_LATCH_bits (ch / 32)).addr = 0x3003c + 64 * (ch / 32) := rfl
  have hc' := chan_lt hc
  have hb : BeforeClear s ch t (stored [] (2 ^ (ch % 32)) (s.advance t) p) := beforeClear_stored (List.nil_subset _)
    (by rw [rd_stored_ne _ _ _ List.not_mem_nil, State.rd_advance]) (by rw [rd_stored_ne _ _ _ List.not_mem_nil, State.rd_advance])
  have hk := (asBefore_stored s p t (2 ^ (ch % 32)) []).kt
  have hj := (asBefore_stored s p t (2 ^ (ch % 32)) []).inp
  have hi : (s.advance t).ignored (0x3003c + 64 * (ch / 32)) = false := by
    have h3 : (0x3003c + 64 * (ch / 32)) % 64 = 0x3C := by omega
    rw [ignored_inp (by omega), h3]
    simp
  rw [State.writeAt, portWrite_stores p _ (2 ^ (ch % 32)) _ _ (h.advance t) (Nat.pow_lt_pow_right (by decide) (Nat.mod_lt _ (by decide))) (by omega) (by omega)
    (closed_inp (by omega)) hi (regAt_latch (by omega)), effect_latch _ _ _ _ _ _ (by omega), channelBits_one, hk]
  exact ⟨hb.cleared.reSignal _, (latchClear_per _ _ _).trans (congrArg Inp.per hj)⟩

theorem perOrigin_ins {u : State} (q : List (Nat × Nat)) (c k : Nat) (h : u.inp.per = ins q c k) : u.perOrigin c = k := by
  rw [State.perOrigin, h, look_ins_same]
  rfl

theorem periodTick_clears (hc : ch < s.nChan) (hl : s.on (INP_CFG_latch_auto ch) = true)
    (ht : s.perOrigin ch + (s.advance t).xtal (100 * s.rd (INP_LPER_period ch)) ≤ t) :
    Cleared s ch t t (State.periodTick ch t s) ∧ (State.periodTick ch t s).perOrigin ch = t := by
  have hq : (s.advance t).perOrigin ch = s.perOrigin ch := by rw [State.perOrigin, State.advance_inp]; rfl
  have e : State.periodTick ch t s = ({ s.advance t with inp := { (s.advance t).inp with per := ins (s.advance t).inp.per ch t } } : State).latchClear ch t := by
    rw [State.periodTick]
    dsimp only
    rw [if_pos ⟨by simpa using hc, by rwa [hq, State.rd_advance]⟩, if_pos]
    exact (s.on_advance t _).trans hl
  obtain ⟨b, hb, hk⟩ := s.advance_moves t
  rw [e]
  refine ⟨BeforeClear.cleared ⟨fun f _ => s.rd_advance t f, by rw [State.rd_mk, State.rd_advance], by rw [State.rd_mk, State.rd_advance], s.advance_kt t,
    s.fields, b, s.hrv.l12, ins s.inp.per ch t, s.irqSeen, ?_⟩, perOrigin_ins (s.advance t).inp.per _ _ (latchClear_per _ _ _)⟩
  rw [hb]

/-! ### The periods -/

theorem clamp_lper (ch x : Nat) : (INP_LPER_period ch).clamp x = max 1 (min 1000000 x) := by
  unfold Fld.clamp
  show (if x < 1 then 1 else if (1000000 : Nat) ≠ 0 ∧ 1000000 < x then 1000000 else x) = _
  by_cases h1 : x < 1
  · rw [if_pos h1]; omega
  · rw [if_neg h1]
    by_cases h2 : 1000000 < x
    · rw [if_pos ⟨by decide, h2⟩]; omega
    · rw [if_neg fun k => h2 k.2]; omega

theorem lperWrite_keeps {v : Nat} (h : Reaches p (INP_LPER_period ch).addr s) (hv : v < 2 ^ 32) (hc : ch < s.nChan) :
    let u := State.writeAt p (INP_LPER_period ch).addr v t s
    u.rd (INP_LPER_period ch) = max 1 (min 1000000 (v % 2 ^ 20)) ∧ u.inp.per = ins s.inp.per ch (max s.tmb.kt t) ∧ u.inp.perAll = s.inp.perAll ∧ TimeAt s u t
      ∧ SameRegs s u [INP_LPER_period ch] ∧ SameRest s { u with inp := { u.inp with per := s.inp.per } } := by
  have ha : (INP_LPER_period ch).addr = 0x30008 + 64 * ch := rfl
  have hc' := chan_lt hc
  have hb := asBefore_stored s p t v [INP_LPER_period ch]
  have hr : (stored [INP_LPER_period ch] v (s.advance t) p).rd (INP_LPER_period ch) = max 1 (min 1000000 (v % 2 ^ 20)) := by
    rw [rd_stored v _ p (List.mem_singleton.2 rfl) (List.nodup_singleton _),
      Fld.stored_word _ _ rfl (Nat.succ_ne_zero _) (show _ ≤ 32 from Nat.le_of_ble_eq_true rfl)]
    rw [clamp_lper]
    show max 1 (min 1000000 (v / 2 ^ 0 % 2 ^ 20)) % 2 ^ 20 = _
    omega
  rw [State.writeAt, portWrite_stores p _ v _ _ (h.advance t) hv (by omega) (by omega) (closed_inp (by omega))
    (ignored_channel (ch := ch) (by omega) (by omega) (by simpa using hc)) (regAt_lper hc'), effect_lper _ _ _ _ _ _ hc']
  generalize stored [INP_LPER_period ch] v (s.advance t) p = w at *
  obtain ⟨F, b, c, e⟩ := hb.rest
  have hk := hb.kt
  refine ⟨hr, ?_, (congrArg Inp.perAll hb.inp :), hk, hb.regs, ?_⟩
  · rw [← hk, ← hb.inp]
    rfl
  · rw [e]
    exact sameRest_mk s _ _ _ _

theorem lperSync_keeps {v : Nat} (h : Reaches p INP_LPER_SYNC_sync.addr s) (hv : v < 2 ^ 32) (hv1 : v % 2 = 1) :
    let u := State.writeAt p INP_LPER_SYNC_sync.addr v t s
    u.inp.per = [] ∧ u.inp.perAll = max s.tmb.kt t ∧ TimeAt s u t ∧ SameRegs s u []
      ∧ SameRest s { u with inp := { u.inp with per := s.inp.per, perAll := s.inp.perAll } } := by
  have hb := asBefore_stored s p t v []
  have ho : INP_LPER_SYNC_sync.of v = 1 := by
    show v / 2 ^ 0 % 2 ^ 1 = 1
    omega
  have he : ∀ w bm old u, State.effect p INP_LPER_SYNC_sync.addr w bm old u = if INP_LPER_SYNC_sync.of w = 1 then u.perSync else u := fun _ _ _ _ => rfl
  have hi : (s.advance t).ignored INP_LPER_SYNC_sync.addr = false := by
    rw [ignored_inp (by decide)]
    simp [INP_LPER_SYNC_sync]
  rw [State.writeAt, portWrite_stores p _ v _ [] (h.advance t) hv (by decide) (by decide) (closed_inp (by decide)) hi (by rfl), he, if_pos ho]
  generalize stored [] v (s.advance t) p = w at *
  obtain ⟨F, b, c, e⟩ := hb.rest
  have hk := hb.kt
  refine ⟨rfl, hk, hk, hb.regs, ?_⟩
  rw [e]
  exact sameRest_mk s _ _ _ _

end

/-- Settles O17: each command that clears a latch comes to the same clearing; the periods are stored. -/
theorem latchClearing : Obligations.LatchClearing := by
  unfold Obligations.LatchClearing
  refine ⟨fun s ch t hc => ⟨fun p viaBitmap h => ?_, fun hp hl ht => ?_⟩, fun s p ch v t => ⟨fun h hc => ?_, fun h => ?_⟩⟩
  · refine Answers.of_performAt (exec_latchClear _ _ _ _ _) h.1 ?_
    cases viaBitmap with
    | true => exact latchBitWrite_clears h hc
    | false => exact lstatWrite_clears h hc
  · refine Answers.of_performOnAt (exec_latchPeriodTick _ _ _) hp ?_
    exact periodTick_clears hc hl ht
  · refine Answers.of_performAt (exec_latchPeriodWrite _ _ _ _ _) h.1 ?_
    obtain ⟨k1, k2, k3, k4, k5, k6⟩ := lperWrite_keeps (t := t) h v.isLt hc
    refine ⟨k1, perOrigin_ins _ _ _ k2, fun c hne => ?_, k4, k5, k6⟩
    rw [State.perOrigin, State.perOrigin, k2, k3, look_ins_ne _ _ _ _ (Ne.symm hne)]
  · refine Answers.of_performAt (exec_latchPeriodSync _ _ _ _) h.1 ?_
    have h1 : (v.toNat ||| 1) % 2 = 1 := Nat.or_mod_two_eq_one.2 (.inr rfl)
    obtain ⟨k1, k2, k3, k4, k5⟩ := lperSync_keeps (t := t) h (Nat.or_lt_two_pow v.isLt (by decide)) h1
    refine ⟨fun c => ?_, k3, k4, k5⟩
    rw [State.perOrigin, k1, k2]
    rfl

end Sys2Proof
end

