-- ==== Sys2Proof/Proofs/EpochAndPpsOut.lean ====
section
/-! SUPPORT. The epoch, temperature readings and PPS_OUT: the statement of O18. -/

namespace Sys2Proof.Machine

theorem toU_lt (n : Nat) (i : Int) : toU n i < 2 ^ n := by
  unfold toU
  have h1 := Int.emod_lt_of_pos i (show (0 : Int) < 2 ^ n by positivity)
  have h2 := Int.emod_nonneg i (show (2 : Int) ^ n ≠ 0 by positivity)
  zify
  rw [Int.toNat_of_nonneg h2]
  exact h1

/-- A new frequency of the grid changes the grid only. -/
theorem State.retime_moves (s : State) : ∃ G, s.retime = { s with grid := G } := by
  unfold State.retime
  split
  · exact ⟨_, rfl⟩
  · exact ⟨s.grid, rfl⟩

@[simp] theorem State.rd_retime (s : State) (f : Fld) : s.retime.rd f = s.rd f := by
  obtain ⟨_, h⟩ := s.retime_moves
  rw [h, State.rd_mk]

@[simp] theorem State.retime_tmb (s : State) : s.retime.tmb = s.tmb := by
  obtain ⟨_, h⟩ := s.retime_moves
  rw [h]

/-- A loop update changes the time base's hidden state only. -/
theorem State.loopUpdate_moves (s : State) : ∃ b, b.kt = s.tmb.kt ∧ s.loopUpdate = { s with tmb := b } := ⟨s.loopUpdate.tmb, rfl, rfl⟩

end Sys2Proof.Machine

namespace Sys2Proof

open Machine

/-! ### TMB_EPOCH_CTL -/

/-- A write of TMB_EPOCH_CTL means its bits 0 and 1. -/
theorem portWrite_epochCtl (p : Port) (v : Nat) (s : State) (h : Reaches p TMB_EPOCH_CTL_load.addr s) (hv : v < 2 ^ 32) :
    State.portWrite p TMB_EPOCH_CTL_load.addr 15 v s = State.reSignal TMB_EPOCH_CTL_load.addr
      ((stored [] v s p).epochCtl (decide (v % 2 = 1)) (decide (v / 2 % 2 = 1))) := by
  have h1 : TMB_EPOCH_CTL_load.of v = v % 2 := by
    show v / 2 ^ 0 % 2 ^ 1 = _
    omega
  have h2 : TMB_EPOCH_CTL_cancel.of v = v / 2 % 2 := by
    show v / 2 ^ 1 % 2 ^ 1 = _
    omega
  have he : ∀ w bm old u, State.effect p TMB_EPOCH_CTL_load.addr w bm old u
      = u.epochCtl (decide (TMB_EPOCH_CTL_load.of w = 1)) (decide (TMB_EPOCH_CTL_cancel.of w = 1)) := fun _ _ _ _ => rfl
  rw [portWrite_stores p _ v s [] h hv (by decide) (by decide) (by simp [State.closed, TMB_EPOCH_CTL_load]) (by rfl) (by rfl), he, h1, h2]

/-- What a write of TMB_EPOCH_CTL keeps. -/
theorem epochStored (p : Port) (v : Nat) (s : State) : (∀ f, (stored [] v s p).rd f = s.rd f) ∧ (stored [] v s p).tmb = s.tmb
    ∧ ∃ F b, stored [] v s p = { s with fields := F, hrv := { s.hrv with l12 := b } } := by
  obtain ⟨F, b, e⟩ := stored_moves [] v s p
  exact ⟨fun f => rd_stored_ne v s p List.not_mem_nil, by rw [e], F, b, e⟩

theorem epochArm_keeps {s : State} {p : Port} {v : Nat} (h : Reaches p TMB_EPOCH_CTL_load.addr s) (hv : v < 2 ^ 32) (h0 : v % 2 = 1) (h1 : v / 2 % 2 = 0) :
    let u := State.portWrite p TMB_EPOCH_CTL_load.addr 15 v s
    u.rd TMB_EPOCH_CTL_pending = 1 ∧ u.tmb = { s.tmb with epochAt := s.tmb.kt } ∧ SameRegs s u [TMB_EPOCH_CTL_pending] ∧ SameRest s u := by
  obtain ⟨hr, ht, F, b, e⟩ := epochStored p v s
  rw [portWrite_epochCtl p v s h hv, State.epochCtl, decide_eq_true h0, h1, if_neg (by decide), if_pos rfl]
  generalize stored [] v s p = w at *
  refine ⟨State.rd_wr_same w TMB_EPOCH_CTL_pending 1, ?_, ?_, ?_⟩
  · rw [← ht]
    rfl
  · rw [sameRegs_reSignal, sameRegs_mk, sameRegs_wr _ (by decide)]
    exact fun f _ => hr f
  · rw [e]
    exact sameRest_mk s _ _ _ _

theorem epochCancel_keeps {s : State} {p : Port} {v : Nat} (h : Reaches p TMB_EPOCH_CTL_load.addr s) (hv : v < 2 ^ 32) (h1 : v / 2 % 2 = 1) :
    let u := State.portWrite p TMB_EPOCH_CTL_load.addr 15 v s
    u.rd TMB_EPOCH_CTL_pending = 0 ∧ u.tmb = s.tmb ∧ SameRegs s u [TMB_EPOCH_CTL_pending] ∧ SameRest s u := by
  obtain ⟨hr, ht, F, b, e⟩ := epochStored p v s
  rw [portWrite_epochCtl p v s h hv, State.epochCtl, decide_eq_true h1, if_pos rfl]
  generalize stored [] v s p = w at *
  refine ⟨State.rd_wr_same w TMB_EPOCH_CTL_pending 0, ht, ?_, ?_⟩
  · rw [sameRegs_reSignal, sameRegs_wr _ (by decide)]
    exact fun f _ => hr f
  · rw [e]
    exact sameRest_mk s _ _ _ _

/-! ### The epoch load -/

/-- How far KT72 moves with an epoch load at `t`. -/
def epochMove (s : State) (t : Nat) : Int := (((t / 2 ^ 72 + 1) * 2 ^ 72 + s.epochVal : Nat) : Int) - (t : Int)

theorem mv_epoch (s : State) (t : Nat) : mv (epochMove s t) t % 2 ^ 72 = s.epochVal % 2 ^ 72 := by
  unfold mv epochMove
  rw [add_sub_cancel, Int.toNat_natCast, Nat.add_comm, Nat.add_mul_mod_self_right]

/-- The machine after an epoch load, but for its registers. -/
def epochMoved (s : State) (t : Nat) : State :=
  { (s.advance t).shiftTimes (epochMove s t) with tmb := { ((s.advance t).shiftTimes (epochMove s t)).tmb with
      kt := mv (epochMove s t) (s.advance t).tmb.kt, ppsErr := ((s.advance t).shiftTimes (epochMove s t)).tmb.ppsErr.map fun _ => 0 } }

theorem epochLoad_eq {s : State} {t : Nat} (hp : s.rd TMB_EPOCH_CTL_pending = 1) (ha : s.acqSt = 0) (he : s.tmb.epochAt < t)
    (hx : if 2 ≤ s.rd TMB_REF_CFG_src then s.tmb.ppsAcc = some t else t % 2 ^ 72 % secF = 0) :
    State.epochLoad t s = (((epochMoved s t).bump TMB_EPOCH_CTL_epoch_id).wr TMB_EPOCH_CTL_pending 0).wr TMB_PHASE_ERR_value 0 := by
  have h1 : (s.advance t).on TMB_EPOCH_CTL_pending = true := by simp [State.on, hp]
  have h2 : (s.advance t).idle = true := by
    rw [State.idle_advance, State.idle, ha]
    rfl
  have h3 : (s.advance t).ppsEvent t = true := by
    obtain ⟨b, e, _⟩ := s.advance_moves t
    have hb : (s.advance t).tmb.epochAt = s.tmb.epochAt ∧ (s.advance t).tmb.ppsAcc = s.tmb.ppsAcc := by
      unfold State.advance
      split <;> exact ⟨rfl, rfl⟩
    rw [State.ppsEvent, hb.1, hb.2, State.srcPps, State.rd_advance]
    simp only [he, decide_true, Bool.true_and, decide_eq_true_eq]
    split
    · next k => rw [if_pos k] at hx; exact decide_eq_true hx
    · next k => rw [if_neg k] at hx; exact decide_eq_true hx
  have h4 : (s.advance t).epochVal = s.epochVal := by simp only [State.epochVal, State.rd_advance]
  rw [State.epochLoad]
  simp only [h1, h2, h3, h4, Bool.and_self, if_true]
  rfl

theorem epochLoad_keeps {s : State} {t : Nat} (hp : s.rd TMB_EPOCH_CTL_pending = 1) (ha : s.acqSt = 0) (he : s.tmb.epochAt < t) (hk : s.tmb.kt ≤ t)
    (hx : if 2 ≤ s.rd TMB_REF_CFG_src then s.tmb.ppsAcc = some t else t % 2 ^ 72 % secF = 0) :
    let u := State.epochLoad t s
    u.tmb.kt % 2 ^ 72 = (s.rd TMB_EPOCH_LO_epoch + 2 ^ 32 * s.rd TMB_EPOCH_MID_epoch + 2 ^ 64 * s.rd TMB_EPOCH_HI_epoch) % 2 ^ 72
      ∧ u.rd TMB_EPOCH_CTL_epoch_id = (s.rd TMB_EPOCH_CTL_epoch_id + 1) % 2 ^ 16 ∧ u.rd TMB_EPOCH_CTL_pending = 0 ∧ u.rd TMB_PHASE_ERR_value = 0
      ∧ SameRegs s u [TMB_EPOCH_CTL_epoch_id, TMB_EPOCH_CTL_pending, TMB_PHASE_ERR_value]
      ∧ u.near = s.near ∧ u.deep = s.deep ∧ u.scr = s.scr ∧ u.nv = s.nv ∧ u.bbx = s.bbx ∧ u.acq.leads = s.acq.leads := by
  have hr : ∀ f, (epochMoved s t).rd f = s.rd f := fun f => (State.rd_mk ..).trans (s.rd_advance t f)
  have hkt : (epochMoved s t).tmb.kt = mv (epochMove s t) t := by
    show mv (epochMove s t) (s.advance t).tmb.kt = _
    rw [State.advance_kt, max_eq_right hk]
  rw [epochLoad_eq hp ha he hx]
  refine ⟨?_, ?_, ?_, ?_, ?_, s.advance_near t, s.advance_deep t, s.advance_scr t, s.advance_nv t, s.advance_bbx t, (congrArg Acq.leads (s.advance_acq t) :)⟩
  · exact (congrArg (· % 2 ^ 72) hkt).trans (mv_epoch s t)
  · rw [State.rd_wr_ne _ _ _ _ (by decide), State.rd_wr_ne _ _ _ _ (by decide), State.bump, State.rd_wr_same, hr]
    rfl
  · rw [State.rd_wr_ne _ _ _ _ (by decide), State.rd_wr_same]
    rfl
  · rw [State.rd_wr_same]
    rfl
  · rw [sameRegs_wr _ (by decide), sameRegs_wr _ (by decide), State.bump, sameRegs_wr _ (by decide)]
    exact fun f _ => hr f

/-! ### Readings and PPS_OUT -/

theorem tcompUpdate_keeps (s : State) (temp : Int) (t : Nat) :
    let u := State.tcompUpdate temp t s
    u.rd TMB_TEMP_temp = toU 16 temp ∧ u.rd TMB_TEMP_valid = 1 ∧ TimeAt s u t ∧ SameRegs s u [TMB_TEMP_temp, TMB_TEMP_valid] ∧ SameRest s { u with grid := s.grid } := by
  obtain ⟨b, e, hk⟩ := s.advance_moves t
  have hw : ∃ c, c.kt = max s.tmb.kt t ∧ ∃ G, State.tcompUpdate temp t s =
      { ((s.wrS TMB_TEMP_temp temp).wr TMB_TEMP_valid 1) with tmb := c, grid := G } := by
    rw [State.tcompUpdate]
    dsimp only
    split
    · obtain ⟨c, hc, hl⟩ := (((s.advance t).wrS TMB_TEMP_temp temp).wr TMB_TEMP_valid 1).loopUpdate_moves
      obtain ⟨G, hG⟩ := ({ ((s.advance t).wrS TMB_TEMP_temp temp).wr TMB_TEMP_valid 1 with tmb := c } : State).retime_moves
      refine ⟨c, hc.trans (s.advance_kt t), G, ?_⟩
      rw [hl, hG, e]
      rfl
    · obtain ⟨G, hG⟩ := (((s.advance t).wrS TMB_TEMP_temp temp).wr TMB_TEMP_valid 1).retime_moves
      refine ⟨b, hk, G, ?_⟩
      rw [hG, e]
      rfl
  obtain ⟨c, hc, G, hu⟩ := hw
  rw [hu]
  refine ⟨?_, ?_, hc, ?_, sameRest_mk_hrv s _ _ _⟩
  · rw [State.rd_mk, State.rd_wr_ne _ _ _ _ (by decide), State.wrS, State.rd_wr_same]
    exact Nat.mod_eq_of_lt (toU_lt 16 temp)
  · rw [State.rd_mk, State.rd_wr_same]
    rfl
  · rw [sameRegs_mk, sameRegs_wr _ (by decide), State.wrS, sameRegs_wr _ (by decide)]
    exact sameRegs_self s _

/-- A state that has but another hidden state of the time base, and the time. -/
theorem sameAll_tmb {s u : State} {t : Nat} {c : Tmb} (e : u = { s.advance t with tmb := c }) (hc : c.kt = max s.tmb.kt t) :
    TimeAt s u t ∧ SameRegs s u [] ∧ SameRest s u := by
  obtain ⟨b, h, _⟩ := s.advance_moves t
  rw [e, h]
  refine ⟨hc, ?_, sameRest_mk_hrv s _ _ _⟩
  rw [sameRegs_mk]
  exact sameRegs_self s _

theorem ppsPulse_eq {s : State} {t : Nat} (hp : s.rd TMB_OUT_CFG_pps_en = 1) (ht : t % 2 ^ 72 % secF = 0) :
    State.ppsPulse t s = { s.advance t with tmb := { (s.advance t).tmb with ppsOut := true, ppsEnd := t + s.rd TMB_OUT_CFG_pps_width * 10 * usF } } := by
  have h1 : (s.advance t).on TMB_OUT_CFG_pps_en = true := by simp [State.on, hp]
  rw [State.ppsPulse]
  simp only [h1, ht, State.rd_advance, decide_true, Bool.and_self, if_true]

theorem ppsPulseEnd_eq {s : State} {t : Nat} (ho : s.tmb.ppsOut = true) (ht : s.tmb.ppsEnd ≤ t) :
    State.ppsPulseEnd t s = { s.advance t with tmb := { (s.advance t).tmb with ppsOut := false } } := by
  have hb : (s.advance t).tmb.ppsOut = s.tmb.ppsOut ∧ (s.advance t).tmb.ppsEnd = s.tmb.ppsEnd := by
    unfold State.advance
    split <;> exact ⟨rfl, rfl⟩
  rw [State.ppsPulseEnd]
  simp only [hb.1, hb.2, ho, ht, decide_true, Bool.and_self, if_true]

/-- Settles O18: what the bits of TMB_EPOCH_CTL mean, the load as one move of every time, and the plain commands of the time base. -/
theorem epochAndPpsOut : Obligations.EpochAndPpsOut := by
  unfold Obligations.EpochAndPpsOut
  refine ⟨fun s p v h => ⟨fun hb => ?_, fun hb => ?_, ?_⟩, fun s t hp he ha hl hk hx => ?_, fun s t hp => ⟨fun temp => ?_, fun hq ht => ?_, fun ho ht => ?_⟩⟩
  · refine Answers.of_perform (exec_epochLoadArm _ _ _) h.1 ?_
    have h1 : (v.toNat ||| 1) / 2 % 2 = 0 := by
      have : (v.toNat ||| 1).testBit 1 = false := by rw [Nat.testBit_or, BitVec.testBit_toNat, hb]; rfl
      rw [Nat.testBit_eq_decide_div_mod_eq, decide_eq_false_iff_not] at this
      omega
    exact epochArm_keeps h (Nat.or_lt_two_pow v.isLt (by decide)) (Nat.or_mod_two_eq_one.2 (.inr rfl)) h1
  · refine Answers.of_perform (exec_epochLoadArm _ _ _) h.1 ?_
    have h1 : (v.toNat ||| 1) / 2 % 2 = 1 := by
      have : (v.toNat ||| 1).testBit 1 = true := by rw [Nat.testBit_or, BitVec.testBit_toNat, hb]; rfl
      rw [Nat.testBit_eq_decide_div_mod_eq, decide_eq_true_eq] at this
      omega
    exact epochCancel_keeps h (Nat.or_lt_two_pow v.isLt (by decide)) h1
  · refine Answers.of_perform (exec_epochCancel _ _ _) h.1 ?_
    have h1 : (v.toNat ||| 2) / 2 % 2 = 1 := by
      have : (v.toNat ||| 2).testBit 1 = true := by rw [Nat.testBit_or]; exact Bool.or_eq_true_iff.2 (.inr rfl)
      rw [Nat.testBit_eq_decide_div_mod_eq, decide_eq_true_eq] at this
      omega
    exact epochCancel_keeps h (Nat.or_lt_two_pow v.isLt (by decide)) h1
  · refine Answers.of_performOnAt (exec_epochLoad _ _) hp ?_
    exact epochLoad_keeps he ha hl hk hx
  · refine Answers.of_performAt (exec_tcompUpdate _ _ _) hp.1 ?_
    exact tcompUpdate_keeps s temp t
  · refine Answers.of_performOnAt (exec_ppsOutPulse _ _) hp ?_
    have e := ppsPulse_eq hq ht
    refine ⟨by rw [e], by rw [e], sameAll_tmb e (s.advance_kt t)⟩
  · refine Answers.of_performOnAt (exec_ppsOutPulseEnd _ _) hp ?_
    have e := ppsPulseEnd_eq ho ht
    exact ⟨by rw [e], sameAll_tmb e (s.advance_kt t)⟩

end Sys2Proof
end

