-- ==== Sys2Proof/Proofs/ReferenceAndPps.lean ====
section
/-! SUPPORT. The reference state, the validity of its sources, and the edges of PPS_IN: the statement of O19. -/

namespace Sys2Proof

open Machine

/-- A machine at `t` in which, against `s`, only the registers `l`, the time base, the grid and the free values used have changed. -/
structure TimeBase (s : State) (t n : Nat) (l : List Fld) (u : State) : Prop where
  time : TimeAt s u t
  regs : SameRegs s u l
  rest : ∃ F b G, u = { s with fields := F, tmb := b, grid := G, free := n }

namespace TimeBase

variable {s u : State} {t n : Nat} {l : List Fld}

theorem advance (s : State) (t : Nat) (l : List Fld) : TimeBase s t s.free l (s.advance t) := by
  obtain ⟨b, h, _⟩ := s.advance_moves t
  exact ⟨s.advance_kt t, fun f _ => s.rd_advance t f, s.fields, b, s.grid, h⟩

variable (h : TimeBase s t n l u)
include h

theorem wr {f : Fld} (v : Nat) (hf : f.key ∈ l.map Fld.key) : TimeBase s t n l (u.wr f v) := by
  obtain ⟨F, b, G, e⟩ := h.rest
  exact ⟨h.time, (sameRegs_wr v hf).2 h.regs, _, b, G, by rw [e]; rfl⟩

theorem tmb (c : Tmb) (hc : c.kt = u.tmb.kt) : TimeBase s t n l { u with tmb := c } := by
  obtain ⟨F, b, G, e⟩ := h.rest
  exact ⟨hc.trans h.time, h.regs, F, c, G, by rw [e]⟩

theorem retime : TimeBase s t n l u.retime := by
  obtain ⟨F, b, G, e⟩ := h.rest
  obtain ⟨H, hH⟩ := u.retime_moves
  exact ⟨by rw [TimeAt, State.retime_tmb]; exact h.time, fun f hf => (u.rd_retime f).trans (h.regs f hf), F, b, H, by rw [hH, e]⟩

theorem loopUpdate : TimeBase s t n l u.loopUpdate := by
  obtain ⟨c, hc, e⟩ := u.loopUpdate_moves
  rw [e]
  exact h.tmb c hc

theorem raiseEvent (x : Nat) (hl : HKS_STAT_pending.key ∈ l.map Fld.key) : TimeBase s t n l (u.raiseEvent x) := by
  obtain ⟨F, b, G, e⟩ := h.rest
  obtain ⟨H, hH⟩ := u.raiseEvent_moves x
  exact ⟨by rw [TimeAt, State.raiseEvent_tmb]; exact h.time, (sameRegs_raiseEvent x hl).2 h.regs, H, b, G, by rw [hH, e]⟩

theorem toLocked (hl : TMB_REF_STAT_state.key ∈ l.map Fld.key) : TimeBase s t n l u.toLocked :=
  (h.wr 2 hl).tmb { u.tmb with lockSrc := u.rd TMB_REF_CFG_src } rfl

theorem toHoldover (hs : TMB_REF_STAT_state.key ∈ l.map Fld.key) (hp : HKS_STAT_pending.key ∈ l.map Fld.key) : TimeBase s t n l u.toHoldover := by
  have h1 : TimeBase s t n l u.leaveLock := by
    unfold State.leaveLock
    split
    · dsimp only
      split
      · exact (h.tmb { u.tmb with lockRef := u.tmb.kt } rfl).raiseEvent 5 hp
      · exact h.raiseEvent 5 hp
    · exact h
  unfold State.toHoldover
  generalize u.leaveLock = v at *
  exact (((h1.tmb (v.setLoop u.loopMean).tmb rfl).wr 3 hs).tmb { (v.setLoop u.loopMean).tmb with goodRun := 0, phase := 0 } rfl)

theorem refEval (hs : TMB_REF_STAT_state.key ∈ l.map Fld.key) (hp : HKS_STAT_pending.key ∈ l.map Fld.key) : TimeBase s t n l u.refEval := by
  unfold State.refEval
  dsimp only
  split
  · split
    · generalize (if u.rd TMB_REF_STAT_state = 0 then 0 else u.tmb.loop) = v
      exact (((h.tmb (u.setLoop v).tmb rfl).wr 1 hs).tmb { (u.setLoop v).tmb with goodRun := 0, outRun := 0, ppsErr := none } rfl).retime
    · exact h
  · split
    · exact h
    · exact (h.toHoldover hs hp).retime

theorem sameRest (hn : n = s.free) : SameRest s { u with grid := s.grid } := by
  obtain ⟨F, b, G, e⟩ := h.rest
  rw [e, hn]
  exact sameRest_mk_hrv s _ _ _

theorem sameRest_free : SameRest s { u with grid := s.grid, free := s.free } := by
  obtain ⟨F, b, G, e⟩ := h.rest
  rw [e]
  exact sameRest_mk_hrv s _ _ _

end TimeBase

/-! ### The reference state -/

/-- The registers that a change of the reference state may write. -/
def refFlds : List Fld := [TMB_REF_STAT_state, HKS_STAT_pending]

theorem rd_toHoldover_state (s : State) : s.toHoldover.rd TMB_REF_STAT_state = 3 := by
  rw [State.toHoldover, State.rd_mk, State.rd_wr_same]
  rfl

theorem rd_refEval {s : State} {f : Fld} (hf : f.key ∉ refFlds.map Fld.key) : s.refEval.rd f = s.rd f :=
  (TimeBase.refEval (s := s) (t := s.tmb.kt) (n := s.free) (l := refFlds) ⟨(max_self _).symm, fun _ _ => rfl, s.fields, s.tmb, s.grid, rfl⟩ (by decide) (by decide)).regs f hf

/-- The sources that are valid start ACQUIRING. -/
theorem refEval_starts {s : State} (hs : s.rd TMB_REF_STAT_state = 0 ∨ s.rd TMB_REF_STAT_state = 3) (hv : s.refsValid = true) (hm : s.mode ≠ 0) :
    s.refEval.rd TMB_REF_STAT_state = 1 := by
  rw [State.refEval]
  simp only [if_pos hs, hv, hm, Bool.true_and, ne_eq, not_false_eq_true, decide_true, if_true]
  rw [State.rd_retime, State.rd_mk, State.rd_wr_same]
  rfl

/-- A source lost leads to HOLDOVER. -/
theorem refEval_loses {s : State} (hs : s.rd TMB_REF_STAT_state = 1 ∨ s.rd TMB_REF_STAT_state = 2) (hv : s.refsValid = false) :
    s.refEval.rd TMB_REF_STAT_state = 3 := by
  rw [State.refEval]
  have h : ¬(s.rd TMB_REF_STAT_state = 0 ∨ s.rd TMB_REF_STAT_state = 3) := by omega
  simp only [if_neg h, hv, Bool.false_and, Bool.false_eq_true, if_false]
  rw [State.rd_retime, rd_toHoldover_state]

/-- With no source nothing starts. -/
theorem refEval_none {s : State} (hs : s.rd TMB_REF_STAT_state = 0) (hv : s.refsValid = false) : s.refEval = s := by
  rw [State.refEval]
  simp only [if_pos (Or.inl hs : s.rd TMB_REF_STAT_state = 0 ∨ s.rd TMB_REF_STAT_state = 3), hv, Bool.false_and, Bool.false_eq_true, if_false]

/-- The sources are valid, by their registers. -/
theorem refsValid_of {s u : State} (h0 : s.rd TMB_REF_CFG_src = u.rd TMB_REF_CFG_src) (h1 : s.rd TMB_REF_STAT_ref_valid = u.rd TMB_REF_STAT_ref_valid)
    (h2 : s.rd TMB_REF_STAT_pps_valid = u.rd TMB_REF_STAT_pps_valid) : s.refsValid = u.refsValid := by
  unfold State.refsValid State.on
  rw [h0, h1, h2]

/-- Without PPS_IN no source that needs it is valid. -/
theorem refsValid_no_pps {s : State} (h : 2 ≤ s.rd TMB_REF_CFG_src) (hv : s.rd TMB_REF_STAT_pps_valid = 0) : s.refsValid = false := by
  unfold State.refsValid State.on
  rw [hv]
  split
  · next k => omega
  · decide
  · simp
  · rfl

/-- Without REF_IN no source that needs it is valid. -/
theorem refsValid_no_ref {s : State} (h : s.rd TMB_REF_CFG_src = 1 ∨ s.rd TMB_REF_CFG_src = 3) (hv : s.rd TMB_REF_STAT_ref_valid = 0) : s.refsValid = false := by
  unfold State.refsValid State.on
  rw [hv]
  rcases h with h | h <;> rw [h] <;> rfl

/-! ### Validity -/

section Validity

variable {s : State} (t : Nat)

/-- The frequency selected, in Hz. -/
def refWant (s : State) : Int := if s.rd TMB_REF_CFG_ref_freq = 1 then 100000000 else 10000000

theorem refHz_eq (s : State) : (s.refHz : Int) = refWant s := by
  unfold State.refHz refWant State.on
  by_cases h : s.rd TMB_REF_CFG_ref_freq = 1
  · simp [h]
  · simp [h]

theorem refHz_advance : (s.advance t).refHz = s.refHz := by unfold State.refHz; rw [State.on_advance]

theorem refValid_out (hz : Nat) (h : refWant s < 10000 * ((hz : Int) - refWant s).natAbs ∨ s.lands = false) : State.refValid hz t s = s.advance t := by
  rw [State.refValid]
  dsimp only
  rw [if_pos]
  rw [refHz_advance, refHz_eq, State.advance_lands]
  refine h.imp (fun k => ?_) fun k => by simp [k]
  have := refHz_eq s
  omega

/-- REF_IN as it becomes valid, before the state follows. -/
def refIn (s : State) (t : Nat) : State := { (s.advance t).wr TMB_REF_STAT_ref_valid 1 with tmb := { (s.advance t).tmb with refSince := t } }

theorem refValid_in (hz : Nat) (hl : s.lands = true) (h : 10000 * ((hz : Int) - refWant s).natAbs ≤ refWant s) : State.refValid hz t s = (refIn s t).refEval := by
  rw [State.refValid]
  dsimp only
  rw [if_neg]
  · rfl
  · rw [refHz_advance, refHz_eq, State.advance_lands, hl]
    have := refHz_eq s
    simp only [Bool.not_true, Bool.false_eq_true, or_false, not_lt]
    omega

/-- The registers that REF_IN's validity writes. -/
def refInFlds : List Fld := [TMB_REF_STAT_ref_valid, TMB_REF_STAT_state, HKS_STAT_pending]

/-- The registers that PPS_IN's validity writes. -/
def ppsInFlds : List Fld := [TMB_REF_STAT_pps_valid, TMB_REF_STAT_state, HKS_STAT_pending]

theorem rd_refIn {f : Fld} (hf : f.key ≠ TMB_REF_STAT_ref_valid.key) : (refIn s t).rd f = s.rd f := by
  rw [refIn, State.rd_mk, State.rd_wr_ne _ _ _ _ (Ne.symm hf), State.rd_advance]

theorem rd_refIn_valid : (refIn s t).rd TMB_REF_STAT_ref_valid = 1 := by
  rw [refIn, State.rd_mk, State.rd_wr_same]
  rfl

theorem refValid_keeps (hz : Nat) (hm : s.mode ≠ 0) (hl : s.lands = true) (h : 10000 * ((hz : Int) - refWant s).natAbs ≤ refWant s) :
    let u := State.refValid hz t s
    u.rd TMB_REF_STAT_ref_valid = 1 ∧ (s.rd TMB_REF_CFG_src = 1 → s.rd TMB_REF_STAT_state = 0 ∨ s.rd TMB_REF_STAT_state = 3 → u.rd TMB_REF_STAT_state = 1)
      ∧ TimeAt s u t ∧ SameRegs s u refInFlds ∧ SameRest s { u with grid := s.grid } := by
  have hb : TimeBase s t s.free refInFlds (refIn s t) := ((TimeBase.advance s t _).wr 1 (by decide)).tmb _ rfl
  have hr := hb.refEval (by decide) (by decide)
  rw [refValid_in t hz hl h]
  refine ⟨(rd_refEval (by decide)).trans (rd_refIn_valid t), fun h1 h2 => refEval_starts ?_ ?_ ?_, hr.time, hr.regs, hr.sameRest rfl⟩
  · rwa [rd_refIn t (by decide)]
  · unfold State.refsValid State.on
    rw [rd_refIn t (by decide), h1]
    simp only [rd_refIn_valid, decide_true]
  · exact fun k => hm ((rd_refIn t (by decide)).symm.trans k)

theorem refInvalid_keeps : let u := State.refInvalid t s
    u.rd TMB_REF_STAT_ref_valid = 0
      ∧ (s.rd TMB_REF_CFG_src = 1 ∨ s.rd TMB_REF_CFG_src = 3 → s.rd TMB_REF_STAT_state = 1 ∨ s.rd TMB_REF_STAT_state = 2 → u.rd TMB_REF_STAT_state = 3)
      ∧ TimeAt s u t ∧ SameRegs s u refInFlds ∧ SameRest s { u with grid := s.grid } := by
  have hb : TimeBase s t s.free refInFlds ((s.advance t).wr TMB_REF_STAT_ref_valid 0) := (TimeBase.advance s t _).wr 0 (by decide)
  have hr := hb.refEval (by decide) (by decide)
  have h0 : ((s.advance t).wr TMB_REF_STAT_ref_valid 0).rd TMB_REF_STAT_ref_valid = 0 := State.rd_wr_same _ _ _
  have hw : ∀ f : Fld, f.key ≠ TMB_REF_STAT_ref_valid.key → ((s.advance t).wr TMB_REF_STAT_ref_valid 0).rd f = s.rd f := fun f hf => by
    rw [State.rd_wr_ne _ _ _ _ (Ne.symm hf), State.rd_advance]
  rw [State.refInvalid]
  refine ⟨(rd_refEval (by decide)).trans h0, fun h1 h2 => refEval_loses ?_ (refsValid_no_ref ?_ h0), hr.time, hr.regs, hr.sameRest rfl⟩
  · rwa [hw _ (by decide)]
  · rwa [hw _ (by decide)]

theorem advance_pps : (s.advance t).tmb.ppsLast = s.tmb.ppsLast ∧ (s.advance t).tmb.refSince = s.tmb.refSince ∧ (s.advance t).tmb.ppsErr = s.tmb.ppsErr
    ∧ (s.advance t).tmb.outRun = s.tmb.outRun ∧ (s.advance t).tmb.goodRun = s.tmb.goodRun ∧ (s.advance t).tmb.loopK = s.tmb.loopK
    ∧ (s.advance t).tmb.ppsAcc = s.tmb.ppsAcc := by
  unfold State.advance
  split <;> exact ⟨rfl, rfl, rfl, rfl, rfl, rfl, rfl⟩

theorem ppsTimeout_keeps {k : Nat} (hk : s.tmb.ppsLast = some k) (ht : k + secF + secF / 2 ≤ t) : let u := State.ppsTimeout t s
    u.rd TMB_REF_STAT_pps_valid = 0
      ∧ (s.rd TMB_REF_CFG_src = 2 ∨ s.rd TMB_REF_CFG_src = 3 → s.rd TMB_REF_STAT_state = 1 ∨ s.rd TMB_REF_STAT_state = 2 → u.rd TMB_REF_STAT_state = 3)
      ∧ TimeAt s u t ∧ SameRegs s u ppsInFlds ∧ SameRest s { u with grid := s.grid } := by
  have e : State.ppsTimeout t s = ({ (s.advance t).wr TMB_REF_STAT_pps_valid 0 with tmb := { (s.advance t).tmb with ppsLast := none } } : State).refEval := by
    rw [State.ppsTimeout]
    simp only [(advance_pps t).1, hk, if_pos ht]
  have hb : TimeBase s t s.free ppsInFlds { (s.advance t).wr TMB_REF_STAT_pps_valid 0 with tmb := { (s.advance t).tmb with ppsLast := none } } :=
    ((TimeBase.advance s t _).wr 0 (by decide)).tmb _ rfl
  have hw : ∀ f : Fld, f.key ≠ TMB_REF_STAT_pps_valid.key →
      ({ (s.advance t).wr TMB_REF_STAT_pps_valid 0 with tmb := { (s.advance t).tmb with ppsLast := none } } : State).rd f = s.rd f := fun f hf => by
    rw [State.rd_mk, State.rd_wr_ne _ _ _ _ (Ne.symm hf), State.rd_advance]
  have h0 : ({ (s.advance t).wr TMB_REF_STAT_pps_valid 0 with tmb := { (s.advance t).tmb with ppsLast := none } } : State).rd TMB_REF_STAT_pps_valid = 0 := by
    rw [State.rd_mk, State.rd_wr_same]
    rfl
  rw [e]
  generalize ({ (s.advance t).wr TMB_REF_STAT_pps_valid 0 with tmb := { (s.advance t).tmb with ppsLast := none } } : State) = v at *
  have hr := hb.refEval (by decide) (by decide)
  refine ⟨(rd_refEval (by decide)).trans h0, fun h1 h2 => refEval_loses ?_ (refsValid_no_pps ?_ h0), hr.time, hr.regs, hr.sameRest rfl⟩
  · rwa [hw _ (by decide)]
  · rw [hw _ (by decide)]
    omega

theorem refLock_keeps (h1 : s.rd TMB_REF_CFG_src = 1) (h2 : s.rd TMB_REF_STAT_state = 1) (h3 : s.tmb.refSince + 10 * secF ≤ t) : let u := State.refLock t s
    u.rd TMB_REF_STAT_state = 2 ∧ TimeAt s u t ∧ SameRegs s u [TMB_REF_STAT_state] ∧ SameRest s u := by
  have e : State.refLock t s = (s.advance t).toLocked := by
    rw [State.refLock]
    rw [if_pos]
    rw [State.rd_advance, State.rd_advance, (advance_pps t).2.1]
    exact ⟨h1, h2, h3⟩
  have hr := (TimeBase.advance s t [TMB_REF_STAT_state]).toLocked (by decide)
  rw [e]
  refine ⟨?_, hr.time, hr.regs, ?_⟩
  · rw [State.toLocked, State.rd_mk, State.rd_wr_same]
    rfl
  · obtain ⟨b, h, _⟩ := s.advance_moves t
    rw [h]
    exact sameRest_mk_hrv s _ _ _

end Validity

/-! ### The edges of PPS_IN -/

section Edge

variable {s : State} (up : Bool) (t : Nat)

/-- The corrected time of an edge. -/
def ppsTime (s : State) (t : Nat) : Int := (t : Int) - s.rdS TMB_PPS_DLY_dly

/-- An edge as noted, before it is judged. -/
def ppsSeen (s : State) (t : Nat) : State := { s.advance t with tmb := { (s.advance t).tmb with ppsLast := some t } }

/-- The edge makes PPS_IN valid: it lies a second after the one before. -/
def ppsNear (s : State) (t : Nat) : Bool :=
  match s.tmb.ppsLast with
  | some u => decide (((t : Int) - u - secF).natAbs ≤ 1000 * usF)
  | none => false

theorem rd_ppsSeen (f : Fld) : (ppsSeen s t).rd f = s.rd f := (State.rd_mk ..).trans (s.rd_advance t f)

theorem ppsSeen_base (l : List Fld) : TimeBase s t s.free l (ppsSeen s t) := (TimeBase.advance s t l).tmb _ rfl

/-- What an edge does that is one. -/
theorem ppsEdge_eq (hl : s.lands = true) (he : s.on TMB_REF_CFG_pps_edge = !up) : State.ppsEdge up t s =
    let v := if ppsNear s t && !s.on TMB_REF_STAT_pps_valid then ((ppsSeen s t).wr TMB_REF_STAT_pps_valid 1).refEval else ppsSeen s t
    if !v.srcPps || !(v.rd TMB_REF_STAT_state = 1 || v.rd TMB_REF_STAT_state = 2) then v else
    let ok := (match v.tmb.ppsErr with
        | some q => decide (v.rd TMB_REF_STAT_state = 2) || decide ((ppsPhase (ppsTime s t) - q).natAbs ≤ v.rd TMB_LOCK_CFG_unlock_thr * nsF)
        | none => true)
      && decide ((ppsPhase (ppsTime s t) - sx 32 (Config.freeValue v.free)).natAbs ≤ v.rd TMB_LOCK_CFG_unlock_thr * nsF)
    (if ok then ({ v with free := v.free + 1 } : State).ppsAccept (ppsTime s t) (ppsPhase (ppsTime s t)) else ({ v with free := v.free + 1 } : State).ppsOutlier).retime := by
  have h1 : ¬((s.advance t).on TMB_REF_CFG_pps_edge = up ∨ (!(s.advance t).lands) = true) := by
    rw [State.on_advance, he, State.advance_lands, hl]
    cases up <;> decide
  have h2 : (s.advance t).rdS TMB_PPS_DLY_dly = s.rdS TMB_PPS_DLY_dly := State.rdS_advance _ _ _
  rw [State.ppsEdge]
  dsimp only
  rw [if_neg h1, h2, (advance_pps t).1, State.on_advance]
  rfl

theorem ppsEdge_none (h : s.on TMB_REF_CFG_pps_edge = up ∨ s.lands = false) : State.ppsEdge up t s = s.advance t := by
  rw [State.ppsEdge]
  dsimp only
  rw [if_pos]
  rw [State.on_advance, State.advance_lands]
  exact h.imp id fun k => by rw [k]; rfl

/-- An edge is good: within unlock_thr of what the loop predicts, in ACQUIRING also of the error before (R81). -/
def PpsGood (s : State) (t : Nat) : Prop :=
  (ppsPhase (ppsTime s t) - sx 32 (Config.freeValue s.free)).natAbs ≤ s.rd TMB_LOCK_CFG_unlock_thr * nsF
    ∧ (s.rd TMB_REF_STAT_state = 1 → ∀ q, s.tmb.ppsErr = some q → (ppsPhase (ppsTime s t) - q).natAbs ≤ s.rd TMB_LOCK_CFG_unlock_thr * nsF)

section Judged

variable (hl : s.lands = true) (he : s.on TMB_REF_CFG_pps_edge = !up) (hs : 2 ≤ s.rd TMB_REF_CFG_src) (hv : s.rd TMB_REF_STAT_pps_valid = 1)
  (hst : s.rd TMB_REF_STAT_state = 1 ∨ s.rd TMB_REF_STAT_state = 2)

/-- The edge as seen, and one free value used. -/
def ppsDrawn (s : State) (t : Nat) : State := { ppsSeen s t with free := s.free + 1 }

include hl he hs hv hst

theorem ppsEdge_judged [Decidable (PpsGood s t)] : State.ppsEdge up t s =
    (if PpsGood s t then (ppsDrawn s t).ppsAccept (ppsTime s t) (ppsPhase (ppsTime s t)) else (ppsDrawn s t).ppsOutlier).retime := by
  have hon : s.on TMB_REF_STAT_pps_valid = true := decide_eq_true hv
  have hsrc : (ppsSeen s t).srcPps = true := by
    rw [State.srcPps, rd_ppsSeen]
    exact decide_eq_true hs
  have hstb : (decide (s.rd TMB_REF_STAT_state = 1) || decide (s.rd TMB_REF_STAT_state = 2)) = true := by
    rcases hst with k | k <;> rw [k] <;> rfl
  have herr : (ppsSeen s t).tmb.ppsErr = s.tmb.ppsErr := (advance_pps t).2.2.1
  have hfree : (ppsSeen s t).free = s.free := s.advance_free t
  rw [ppsEdge_eq up t hl he]
  simp only [hon, Bool.not_true, Bool.and_false, Bool.false_eq_true, if_false, hsrc, Bool.false_or, rd_ppsSeen, hstb, herr, hfree]
  refine congrArg State.retime ?_
  by_cases hg : PpsGood s t
  · rw [if_pos hg, if_pos]
    · rfl
    · obtain ⟨g1, g2⟩ := hg
      rw [decide_eq_true g1, Bool.and_true]
      split
      · next q hq =>
        rcases hst with k | k
        · rw [decide_eq_true (g2 k q hq), Bool.or_true]
        · rw [k]; rfl
      · rfl
  · rw [if_neg hg, if_neg]
    · rfl
    · intro k
      rw [Bool.and_eq_true] at k
      obtain ⟨k1, k2⟩ := k
      refine hg ⟨of_decide_eq_true k2, fun h1 q hq => ?_⟩
      rw [hq, h1] at k1
      simpa using k1

end Judged

theorem ppsDrawn_base (l : List Fld) : TimeBase s t (s.free + 1) l (ppsDrawn s t) := by
  obtain ⟨F, b, G, e⟩ := (ppsSeen_base t l : TimeBase s t s.free l (ppsSeen s t)).rest
  exact ⟨(ppsSeen_base t l).time, fun f _ => rd_ppsSeen t f, F, b, G, by rw [ppsDrawn, e]⟩

theorem rd_ppsDrawn (f : Fld) : (ppsDrawn s t).rd f = s.rd f := rd_ppsSeen t f

theorem slew_clamp (v : State) (x : Int) : (max (-v.slew40) (min v.slew40 x)).natAbs ≤ 2 ^ 40 * 10 ^ v.rd TMB_REF_CFG_slew / 10000000 := by
  have h : v.slew40 = ((2 ^ 40 * 10 ^ v.rd TMB_REF_CFG_slew / 10000000 : Nat) : Int) := by
    unfold State.slew40
    push_cast
    rfl
  rw [h]
  generalize 2 ^ 40 * 10 ^ v.rd TMB_REF_CFG_slew / 10000000 = m
  omega

/-- An accepted edge, before the loop follows. -/
def ppsTaken (s : State) (t : Nat) : State :=
  { (ppsDrawn s t).wr TMB_PHASE_ERR_value (satU 32 (ppsPhase (ppsTime s t))) with
    tmb := { (ppsDrawn s t).tmb with outRun := 0, ppsErr := some (ppsPhase (ppsTime s t)), ppsAcc := some (ppsTime s t).toNat } }

/-- An accepted edge after its loop update. -/
def ppsLooped (s : State) (t : Nat) : State := (ppsTaken s t).loopUpdate

/-- The good edges in a row. -/
def ppsRun (s : State) (t : Nat) : Nat := if (ppsPhase (ppsTime s t)).natAbs ≤ s.rd TMB_LOCK_CFG_lock_thr * nsF then s.tmb.goodRun + 1 else 0

theorem ppsAccept_eq : (ppsDrawn s t).ppsAccept (ppsTime s t) (ppsPhase (ppsTime s t)) =
    if s.rd TMB_REF_STAT_state = 2 then { ppsLooped s t with tmb := { (ppsLooped s t).tmb with lockRef := (ppsTime s t).toNat } }
    else if 8 ≤ ppsRun s t then ({ ppsLooped s t with tmb := { (ppsLooped s t).tmb with goodRun := ppsRun s t } } : State).toLocked
      else { ppsLooped s t with tmb := { (ppsLooped s t).tmb with goodRun := ppsRun s t } } := by
  have hg : (ppsDrawn s t).tmb.goodRun = s.tmb.goodRun := (advance_pps t).2.2.2.2.1
  have hrun : (if (ppsPhase (ppsTime s t)).natAbs ≤ (ppsDrawn s t).rd TMB_LOCK_CFG_lock_thr * nsF then (ppsDrawn s t).tmb.goodRun + 1 else 0) = ppsRun s t := by
    rw [rd_ppsDrawn, hg]
    rfl
  rw [State.ppsAccept]
  simp only [rd_ppsDrawn t TMB_REF_STAT_state, hrun]
  rfl

theorem ppsTaken_base (l : List Fld) (hp : TMB_PHASE_ERR_value.key ∈ l.map Fld.key) : TimeBase s t (s.free + 1) l (ppsTaken s t) :=
  ((ppsDrawn_base t l).wr (satU 32 (ppsPhase (ppsTime s t))) hp).tmb (ppsTaken s t).tmb rfl

theorem ppsLooped_base (l : List Fld) (hp : TMB_PHASE_ERR_value.key ∈ l.map Fld.key) : TimeBase s t (s.free + 1) l (ppsLooped s t) :=
  (ppsTaken_base t l hp).loopUpdate

theorem rd_ppsTaken {f : Fld} (hf : f.key ≠ TMB_PHASE_ERR_value.key) : (ppsTaken s t).rd f = s.rd f := by
  rw [ppsTaken, State.rd_mk, State.rd_wr_ne _ _ _ _ (Ne.symm hf), rd_ppsDrawn]

theorem rd_ppsLooped_ppsTaken (f : Fld) : (ppsLooped s t).rd f = (ppsTaken s t).rd f := by
  obtain ⟨c, _, e⟩ := (ppsTaken s t).loopUpdate_moves
  rw [ppsLooped, e, State.rd_mk]

theorem rd_ppsLooped {f : Fld} (hf : f.key ≠ TMB_PHASE_ERR_value.key) : (ppsLooped s t).rd f = s.rd f :=
  (rd_ppsLooped_ppsTaken t f).trans (rd_ppsTaken t hf)

theorem rd_ppsLooped_err : (ppsLooped s t).rd TMB_PHASE_ERR_value = satU 32 (ppsPhase (ppsTime s t)) := by
  rw [rd_ppsLooped_ppsTaken, ppsTaken, State.rd_mk, State.rd_wr_same]
  exact Nat.mod_eq_of_lt (satU_lt 32 _)

/-- What the loop and the lock keep of an accepted edge. -/
structure PpsKept (s : State) (t : Nat) (b : Tmb) : Prop where
  outRun : b.outRun = 0
  ppsAcc : b.ppsAcc = some (ppsTime s t).toNat
  loop : b.loop = Config.loopTerm s.tmb.loopK + b.phase
  phase : b.phase.natAbs ≤ 2 ^ 40 * 10 ^ s.rd TMB_REF_CFG_slew / 10000000

theorem ppsLooped_kept (hs : 2 ≤ s.rd TMB_REF_CFG_src) : PpsKept s t (ppsLooped s t).tmb := by
  have hk : (ppsTaken s t).tmb.loopK = s.tmb.loopK := (advance_pps t).2.2.2.2.2.1
  have hr := fun (f : Fld) (hf : f.key ≠ TMB_PHASE_ERR_value.key) => rd_ppsTaken (s := s) t hf
  have hsrc : (ppsTaken s t).srcPps = true := by
    rw [State.srcPps, hr _ (by decide)]
    exact decide_eq_true hs
  have ho : (ppsTaken s t).tmb.outRun = 0 ∧ (ppsTaken s t).tmb.ppsAcc = some (ppsTime s t).toNat := ⟨rfl, rfl⟩
  unfold ppsLooped
  generalize ppsTaken s t = w at *
  have hph : w.loopUpdate.tmb.phase = max (-w.slew40) (min w.slew40 (Config.loopPhase w.tmb.loopK)) := by
    show (if w.srcPps = true then max (-w.slew40) (min w.slew40 (Config.loopPhase w.tmb.loopK)) else 0) = _
    rw [if_pos hsrc]
  refine ⟨ho.1, ho.2, ?_, ?_⟩
  · rw [← hk]
    rfl
  · rw [hph, ← hr TMB_REF_CFG_slew (by decide)]
    exact slew_clamp w _

/-- The registers of an accepted edge. -/
def accFlds : List Fld := [TMB_PHASE_ERR_value, TMB_REF_STAT_state]

theorem ppsAccept_keeps (hs : 2 ≤ s.rd TMB_REF_CFG_src) (hst : s.rd TMB_REF_STAT_state = 1 ∨ s.rd TMB_REF_STAT_state = 2) :
    let u := ((ppsDrawn s t).ppsAccept (ppsTime s t) (ppsPhase (ppsTime s t))).retime
    u.rd TMB_PHASE_ERR_value = satU 32 (ppsPhase (ppsTime s t)) ∧ PpsKept s t u.tmb
      ∧ u.rd TMB_REF_STAT_state = (if s.rd TMB_REF_STAT_state = 2 ∨ (ppsPhase (ppsTime s t)).natAbs ≤ s.rd TMB_LOCK_CFG_lock_thr * nsF ∧ 7 ≤ s.tmb.goodRun then 2 else 1)
      ∧ TimeBase s t (s.free + 1) accFlds u := by
  have hb := ppsLooped_base (s := s) t accFlds (by decide)
  have hk := ppsLooped_kept t hs
  have he := rd_ppsLooped_err (s := s) t
  have hx := rd_ppsLooped (s := s) t (f := TMB_REF_STAT_state) (by decide)
  have hrun : (8 ≤ ppsRun s t) = ((ppsPhase (ppsTime s t)).natAbs ≤ s.rd TMB_LOCK_CFG_lock_thr * nsF ∧ 7 ≤ s.tmb.goodRun) := by
    unfold ppsRun
    split
    · next h => simp [h]
    · next h => simp [h]
  dsimp only
  rw [State.retime_tmb, State.rd_retime, State.rd_retime, ppsAccept_eq]
  generalize ppsLooped s t = w at *
  split
  · next h2 =>
    have hw := hb.tmb { w.tmb with lockRef := (ppsTime s t).toNat } rfl
    refine ⟨he, ⟨hk.outRun, hk.ppsAcc, hk.loop, hk.phase⟩, ?_, hw.retime⟩
    rw [if_pos (.inl h2), State.rd_mk, hx, h2]
  · next h2 =>
    have h1 := hst.resolve_right h2
    have hw := hb.tmb { w.tmb with goodRun := ppsRun s t } rfl
    split
    · next h8 =>
      refine ⟨?_, ⟨hk.outRun, hk.ppsAcc, hk.loop, hk.phase⟩, ?_, (hw.toLocked (by decide)).retime⟩
      · rw [State.toLocked, State.rd_mk, State.rd_wr_ne _ _ _ _ (by decide)]
        exact he
      · rw [if_pos (.inr (hrun ▸ h8)), State.toLocked, State.rd_mk, State.rd_wr_same]
        rfl
    · next h8 =>
      refine ⟨he, ⟨hk.outRun, hk.ppsAcc, hk.loop, hk.phase⟩, ?_, hw.retime⟩
      rw [if_neg (not_or.2 ⟨h2, hrun ▸ h8⟩), State.rd_mk, hx, h1]

/-- The registers of an outlier. -/
def outFlds : List Fld := [TMB_REF_STAT_outliers, TMB_REF_STAT_pps_valid, TMB_REF_STAT_state, HKS_STAT_pending]

/-- An outlier counted. -/
def ppsCounted (s : State) (t : Nat) : State :=
  { (ppsDrawn s t).bump TMB_REF_STAT_outliers with tmb := { (ppsDrawn s t).tmb with outRun := (ppsDrawn s t).tmb.outRun + 1 } }

theorem ppsCounted_base : TimeBase s t (s.free + 1) outFlds (ppsCounted s t) :=
  ((ppsDrawn_base t outFlds).wr ((ppsDrawn s t).rd TMB_REF_STAT_outliers + 1) (by decide)).tmb (ppsCounted s t).tmb rfl

theorem rd_ppsCounted {f : Fld} (hf : f.key ≠ TMB_REF_STAT_outliers.key) : (ppsCounted s t).rd f = s.rd f := by
  rw [ppsCounted, State.rd_mk, State.bump, State.rd_wr_ne _ _ _ _ (Ne.symm hf), rd_ppsDrawn]

theorem rd_ppsCounted_outliers : (ppsCounted s t).rd TMB_REF_STAT_outliers = (s.rd TMB_REF_STAT_outliers + 1) % 2 ^ 16 := by
  rw [ppsCounted, State.rd_mk, State.bump, State.rd_wr_same, rd_ppsDrawn]
  rfl

/-- The third outlier in a row: PPS_IN is no longer valid. -/
def ppsLost (s : State) (t : Nat) : State :=
  { (ppsCounted s t).wr TMB_REF_STAT_pps_valid 0 with tmb := { (ppsCounted s t).tmb with ppsLast := none, outRun := 0 } }

theorem ppsLost_base : TimeBase s t (s.free + 1) outFlds (ppsLost s t) := ((ppsCounted_base t).wr 0 (by decide)).tmb (ppsLost s t).tmb rfl

theorem rd_ppsLost {f : Fld} (hf : f.key ≠ TMB_REF_STAT_pps_valid.key) : (ppsLost s t).rd f = (ppsCounted s t).rd f := by
  rw [ppsLost, State.rd_mk, State.rd_wr_ne _ _ _ _ (Ne.symm hf)]

theorem rd_ppsLost_valid : (ppsLost s t).rd TMB_REF_STAT_pps_valid = 0 := by
  rw [ppsLost, State.rd_mk, State.rd_wr_same]
  rfl

theorem ppsOutlier_eq : (ppsDrawn s t).ppsOutlier = if s.tmb.outRun = 2 then (ppsLost s t).refEval else ppsCounted s t := by
  have hr : (ppsDrawn s t).tmb.outRun = s.tmb.outRun := (advance_pps t).2.2.2.1
  have h3 : ((ppsDrawn s t).tmb.outRun + 1 = 3) = (s.tmb.outRun = 2) := by rw [hr, Nat.succ_inj]
  rw [State.ppsOutlier]
  show (if (ppsDrawn s t).tmb.outRun + 1 = 3 then (ppsLost s t).refEval else ppsCounted s t) = _
  simp only [h3]

theorem refEval_ppsAcc (v : State) : v.refEval.tmb.ppsAcc = v.tmb.ppsAcc := by
  have hl : ∀ u : State, u.leaveLock.tmb.ppsAcc = u.tmb.ppsAcc := fun u => by
    unfold State.leaveLock
    split
    · dsimp only
      rw [State.raiseEvent_tmb]
      split <;> rfl
    · rfl
  unfold State.refEval
  dsimp only
  split
  · split
    · rw [State.retime_tmb]; rfl
    · rfl
  · split
    · rfl
    · rw [State.retime_tmb]
      exact hl v

theorem ppsOutlier_keeps (hs : 2 ≤ s.rd TMB_REF_CFG_src) (hv : s.rd TMB_REF_STAT_pps_valid = 1) (hst : s.rd TMB_REF_STAT_state = 1 ∨ s.rd TMB_REF_STAT_state = 2) :
    let u := (ppsDrawn s t).ppsOutlier.retime
    u.rd TMB_REF_STAT_outliers = (s.rd TMB_REF_STAT_outliers + 1) % 2 ^ 16 ∧ u.rd TMB_PHASE_ERR_value = s.rd TMB_PHASE_ERR_value ∧ u.tmb.ppsAcc = s.tmb.ppsAcc
      ∧ (s.tmb.outRun = 2 → u.rd TMB_REF_STAT_pps_valid = 0 ∧ u.rd TMB_REF_STAT_state = 3)
      ∧ (s.tmb.outRun ≠ 2 → u.rd TMB_REF_STAT_pps_valid = 1 ∧ u.rd TMB_REF_STAT_state = s.rd TMB_REF_STAT_state)
      ∧ TimeBase s t (s.free + 1) outFlds u := by
  have hacc : (ppsCounted s t).tmb.ppsAcc = s.tmb.ppsAcc := (advance_pps t).2.2.2.2.2.2
  have hr := fun (f : Fld) (hf : f.key ≠ TMB_REF_STAT_outliers.key) => rd_ppsCounted (s := s) t hf
  have ho := rd_ppsCounted_outliers (s := s) t
  dsimp only
  rw [State.retime_tmb]
  simp only [State.rd_retime]
  rw [ppsOutlier_eq]
  split
  · next h2 =>
    have hb := (ppsLost_base (s := s) t).refEval (by decide) (by decide)
    refine ⟨?_, ?_, (refEval_ppsAcc _).trans hacc, fun _ => ⟨?_, refEval_loses ?_ (refsValid_no_pps ?_ (rd_ppsLost_valid t))⟩, fun k => absurd h2 k, hb.retime⟩
    · rw [rd_refEval (by decide), rd_ppsLost t (by decide), ho]
    · rw [rd_refEval (by decide), rd_ppsLost t (by decide), hr _ (by decide)]
    · rw [rd_refEval (by decide), rd_ppsLost_valid]
    · rwa [rd_ppsLost t (by decide), hr _ (by decide)]
    · rwa [rd_ppsLost t (by decide), hr _ (by decide)]
  · next h2 =>
    exact ⟨ho, hr _ (by decide), hacc, fun k => absurd k h2, fun _ => ⟨(hr _ (by decide)).trans hv, hr _ (by decide)⟩, (ppsCounted_base t).retime⟩

/-- An edge with no source of PPS only judges validity. -/
theorem ppsEdge_unsourced (hl : s.lands = true) (he : s.on TMB_REF_CFG_pps_edge = !up) (hs : s.rd TMB_REF_CFG_src = 0) (hst : s.rd TMB_REF_STAT_state = 0) :
    State.ppsEdge up t s = if ppsNear s t && !s.on TMB_REF_STAT_pps_valid then (ppsSeen s t).wr TMB_REF_STAT_pps_valid 1 else ppsSeen s t := by
  have hv : ((ppsSeen s t).wr TMB_REF_STAT_pps_valid 1).refEval = (ppsSeen s t).wr TMB_REF_STAT_pps_valid 1 := by
    refine refEval_none ?_ ?_
    · rw [State.rd_wr_ne _ _ _ _ (by decide), rd_ppsSeen, hst]
    · unfold State.refsValid
      rw [State.rd_wr_ne _ _ _ _ (by decide), rd_ppsSeen, hs]
      rfl
  rw [ppsEdge_eq up t hl he, hv]
  dsimp only
  rw [if_pos]
  have hsrc : ∀ v : State, v.rd TMB_REF_CFG_src = 0 → v.srcPps = false := fun v h => by rw [State.srcPps, h]; rfl
  split
  · rw [hsrc _ (by rw [State.rd_wr_ne _ _ _ _ (by decide), rd_ppsSeen, hs])]
    rfl
  · rw [hsrc _ (by rw [rd_ppsSeen, hs])]
    rfl

theorem ppsEdge_unsourced_keeps (hl : s.lands = true) (he : s.on TMB_REF_CFG_pps_edge = !up) (hs : s.rd TMB_REF_CFG_src = 0) (hst : s.rd TMB_REF_STAT_state = 0) :
    let u := State.ppsEdge up t s
    (∀ k, s.tmb.ppsLast = some k → ((t : Int) - k - secF).natAbs ≤ 1000 * usF → u.rd TMB_REF_STAT_pps_valid = 1) ∧ u.tmb.ppsLast = some t
      ∧ TimeBase s t s.free [TMB_REF_STAT_pps_valid] u := by
  have hb := ppsSeen_base (s := s) t [TMB_REF_STAT_pps_valid]
  dsimp only
  rw [ppsEdge_unsourced up t hl he hs hst]
  split
  · exact ⟨fun _ _ _ => State.rd_wr_same _ TMB_REF_STAT_pps_valid 1, rfl, hb.wr 1 (by decide)⟩
  · next h =>
    refine ⟨fun k hk hn => ?_, rfl, hb⟩
    have hnear : ppsNear s t = true := by
      rw [ppsNear, hk]
      exact decide_eq_true hn
    rw [rd_ppsSeen]
    simpa [hnear, State.on] using h

end Edge

/-- Settles O19: each change of a source's validity is followed by the state; an edge is judged as good or as an outlier. -/
theorem referenceAndPps : Obligations.ReferenceAndPps := by
  unfold Obligations.ReferenceAndPps
  refine ⟨fun s t hp hm => ⟨fun hz => ⟨fun h => ?_, fun hl h => ?_⟩, ?_, fun k hk ht => ?_, fun h1 h2 h3 => ?_⟩,
    fun s up t hp => ⟨fun h => ?_, fun hl he hs hv hst => ⟨fun hg => ?_, fun hg => ?_⟩, fun hl he hs hst => ?_⟩⟩
  · refine Answers.of_performOnAt (exec_refInValid _ _) hp ?_
    have e := refValid_out (s := s) t hz h
    exact e ▸ unchanged_advance s t
  · exact Answers.of_performOnAt (exec_refInValid _ _) hp (refValid_keeps t hz hm hl h)
  · exact Answers.of_performOnAt (exec_refInInvalid _ _) hp (refInvalid_keeps t)
  · exact Answers.of_performOnAt (exec_ppsTimeout _ _) hp (ppsTimeout_keeps t hk ht)
  · exact Answers.of_performOnAt (exec_refLockTimer _ _) hp (refLock_keeps t h1 h2 h3)
  · refine Answers.of_performOnAt (exec_ppsEdge _ _) hp ?_
    have e := ppsEdge_none (s := s) up t h
    exact e ▸ unchanged_advance s t
  · refine Answers.of_performOnAt (exec_ppsEdge _ _) hp ?_
    classical
    have e := ppsEdge_judged up t hl he hs hv hst
    rw [if_pos (show PpsGood s t from hg)] at e
    obtain ⟨k1, k2, k3, k4⟩ := ppsAccept_keeps t hs hst
    rw [← e] at k1 k2 k3 k4
    exact ⟨k1, k2.outRun, k2.ppsAcc, k2.loop, k2.phase, k3, k4.time, k4.regs, k4.sameRest_free⟩
  · refine Answers.of_performOnAt (exec_ppsEdge _ _) hp ?_
    classical
    have e := ppsEdge_judged up t hl he hs hv hst
    rw [if_neg (show ¬PpsGood s t from hg)] at e
    obtain ⟨k1, k2, k3, k4, k5, k6⟩ := ppsOutlier_keeps t hs hv hst
    rw [← e] at k1 k2 k3 k4 k5 k6
    exact ⟨k1, k2, k3, k4, k5, k6.time, k6.regs, k6.sameRest_free⟩
  · refine Answers.of_performOnAt (exec_ppsEdge _ _) hp ?_
    obtain ⟨k1, k2, k3⟩ := ppsEdge_unsourced_keeps up t hl he hs hst
    exact ⟨k1, k2, k3.time, k3.regs, k3.sameRest rfl⟩

end Sys2Proof
end

