-- ==== Sys2Proof/Proofs/DeskewTerms.lean ====
section
/-! SUPPORT. Deskew terms that become pending, and all of them taking effect: the statement of O20. -/

namespace Sys2Proof

open Machine

/-! ### The registers -/

theorem regAt_dsk {a : Nat} (h : a / 0x10000 = 4) : regAt a = findReg rowsDSK a := by
  unfold regAt rowsOf
  rw [h]
  rfl

theorem effect_dsk (p : Port) {a : Nat} (v bm : Nat) (old s : State) (h : a / 0x10000 = 4) : State.effect p a v bm old s = State.effDsk a v s := by
  unfold State.effect
  rw [h]
  rfl

theorem closed_dsk {s : State} {a : Nat} (h : a / 0x10000 = 4) : s.closed a = false := by simp [State.closed, h]

theorem ignored_dsk {s : State} {a : Nat} (h : a / 0x10000 = 4) : s.ignored a = (s.is512 && decide (512 ≤ (a - 0x40000) / 64)) := by
  unfold State.ignored
  rw [h]
  rfl

theorem ignored_dsk_channel {s : State} {a : Nat} (h : a / 0x10000 = 4) (hc : (a - 0x40000) / 64 < 1024) :
    s.ignored a = decide (s.nChan ≤ (a - 0x40000) / 64) := by
  rw [ignored_dsk h]
  unfold State.nChan
  split
  · next k => simp [k]
  · next k => simp [Bool.eq_false_iff.2 k, hc]

/-- The field that a write of a term stores. -/
def termFld (user : Bool) (ch : Nat) : Fld := if user then DSK_USER_d ch else DSK_LAND_d ch

/-- Its code. -/
def termCode (user : Bool) : Nat := if user then 2 else 0

theorem termFld_addr (user : Bool) (ch : Nat) : (termFld user ch).addr = 0x40000 + 64 * ch + (if user then 4 else 0) := by
  cases user
  · rfl
  · show 0x40004 + 64 * ch = 0x40000 + 64 * ch + 4
    omega

theorem regAt_term (user : Bool) {ch : Nat} (hc : ch < 1024) :
    (regAt (termFld user ch).addr).map (fun x => softFlds (x.1.flds x.2.1 x.2.2)) = some [termFld user ch] := by
  have ha := termFld_addr user ch
  cases user with
  | false =>
    have ha : (termFld false ch).addr = 0x40000 + 64 * ch := rfl
    rw [regAt_dsk (by omega), ha, rowsDSK, findReg_hit (RegRow.idx_hit rfl (by decide) hc)]
    rfl
  | true =>
    have ha : (termFld true ch).addr = 0x40004 + 64 * ch := rfl
    rw [regAt_dsk (by omega), ha, rowsDSK, findReg_miss (RegRow.idx_miss (by decide) (by omega)), findReg_hit (RegRow.idx_hit rfl (by decide) hc)]
    rfl

theorem effect_term (p : Port) (user : Bool) (ch v bm : Nat) (old s : State) (hc : ch < 1024) : State.effect p (termFld user ch).addr v bm old s
    = s.dskPend ⟨ch, termCode user, s.rdS (termFld user ch), false, 0⟩ := by
  have ha := termFld_addr user ch
  have hb : (if user then 4 else 0) ≤ 4 := by split <;> decide
  rw [effect_dsk _ _ _ _ _ (by omega), State.effDsk]
  have h1 : ¬(termFld user ch).addr = DSK_GCTL_start.addr := by
    simp only [DSK_GCTL_start]
    omega
  have h2 : ¬(termFld user ch).addr = DSK_CAL_CTL_busy.addr := by
    simp only [DSK_CAL_CTL_busy]
    omega
  have h3 : (termFld user ch).addr % 64 = (if user then 4 else 0) := by omega
  have h4 : ((termFld user ch).addr - 0x40000) / 64 = ch := by omega
  rw [if_neg h1, if_neg h2]
  simp only [h3, h4]
  cases user <;> rfl

/-! ### A term that is written -/

section Write

variable {s : State} {p : Port} {ch v t : Nat} (user : Bool)

theorem termWrite_eq (h : Reaches p (termFld user ch).addr s) (hv : v < 2 ^ 32) (hc : ch < s.nChan) :
    State.writeAt p (termFld user ch).addr v t s = State.reSignal (termFld user ch).addr
      ((stored [termFld user ch] v (s.advance t) p).dskPend ⟨ch, termCode user, sx 16 v, false, 0⟩)
      ∧ (stored [termFld user ch] v (s.advance t) p).rd (termFld user ch) = v % 2 ^ 16 := by
  have ha := termFld_addr user ch
  have hb : (if user then 4 else 0) ≤ 4 := by split <;> decide
  have hb4 : (if user then 4 else 0) % 4 = 0 := by split <;> decide
  have hc' := chan_lt hc
  have hr : (stored [termFld user ch] v (s.advance t) p).rd (termFld user ch) = v % 2 ^ 16 := by
    rw [rd_stored v _ p (List.mem_singleton.2 rfl) (List.nodup_singleton _)]
    cases user
    · rw [Fld.stored_word _ _ rfl (Nat.succ_ne_zero _) (show _ ≤ 32 from Nat.le_of_ble_eq_true rfl)]
      show (v / 2 ^ 0 % 2 ^ 16) % 2 ^ 16 = _
      omega
    · rw [Fld.stored_word _ _ rfl (Nat.succ_ne_zero _) (show _ ≤ 32 from Nat.le_of_ble_eq_true rfl)]
      show (v / 2 ^ 0 % 2 ^ 16) % 2 ^ 16 = _
      omega
  have hs : (stored [termFld user ch] v (s.advance t) p).rdS (termFld user ch) = sx 16 v := by
    unfold State.rdS
    rw [hr]
    cases user <;> simp [termFld, DSK_USER_d, DSK_LAND_d, sx]
  have hi : (s.advance t).ignored (termFld user ch).addr = false := by
    rw [ignored_dsk_channel (by omega) (by omega), State.nChan_advance]
    exact decide_eq_false (by omega)
  rw [State.writeAt, portWrite_stores p _ v _ _ (h.advance t) hv (by omega) (by omega) (closed_dsk (by omega)) hi (regAt_term user hc'),
    effect_term _ _ _ _ _ _ _ hc', hs]
  exact ⟨rfl, hr⟩

/-- The pending values of the channel's term: the new one alone; the others are as they were. -/
theorem dskPend_filter (u : State) (q : Pend) : ((u.dskPend q).dsk.pend.filter fun x => decide (x.ch = q.ch ∧ x.term = q.term)) = [{ q with since := u.tmb.kt }]
    ∧ ((u.dskPend q).dsk.pend.filter fun x => decide (¬(x.ch = q.ch ∧ x.term = q.term))) = (u.dsk.pend.filter fun x => decide (¬(x.ch = q.ch ∧ x.term = q.term))) := by
  have hp : (u.dskPend q).dsk.pend = (u.dsk.pend.filter fun x => decide (¬(x.ch = q.ch ∧ x.term = q.term))) ++ [{ q with since := u.tmb.kt }] := rfl
  rw [hp]
  constructor
  · rw [List.filter_append, List.filter_filter, List.filter_eq_nil_iff.2 fun x _ => ?_]
    · simp
    · by_cases k : x.ch = q.ch ∧ x.term = q.term <;> simp [k]
  · rw [List.filter_append, List.filter_filter]
    simp

theorem coef_ne_term (c : Nat) : (DSK_COEF_d c).key ∉ [termFld user ch].map Fld.key := by
  have ha := termFld_addr user ch
  have hl : (termFld user ch).lo = 0 := by cases user <;> rfl
  have hb : (if user then 4 else 0) ≤ 4 := by split <;> decide
  simp only [List.map_cons, List.map_nil, List.mem_singleton, Fld.key, hl]
  simp only [DSK_COEF_d]
  omega

theorem termWrite_keeps (h : Reaches p (termFld user ch).addr s) (hv : v < 2 ^ 32) (hc : ch < s.nChan) :
    let u := State.writeAt p (termFld user ch).addr v t s
    u.rd (termFld user ch) = v % 2 ^ 16
      ∧ (u.dsk.pend.filter fun q => decide (q.ch = ch ∧ q.term = termCode user)) = [⟨ch, termCode user, sx 16 v, false, max s.tmb.kt t⟩]
      ∧ (u.dsk.pend.filter fun q => decide (¬(q.ch = ch ∧ q.term = termCode user))) = (s.dsk.pend.filter fun q => decide (¬(q.ch = ch ∧ q.term = termCode user)))
      ∧ u.dskD ch = s.dskD ch ∧ TimeAt s u t ∧ SameRegs s u [termFld user ch] ∧ SameRest s { u with dsk := { u.dsk with pend := s.dsk.pend } } := by
  obtain ⟨e, hr⟩ := termWrite_eq (t := t) user h hv hc
  have hb := asBefore_stored s p t v [termFld user ch]
  rw [e]
  generalize stored [termFld user ch] v (s.advance t) p = w at *
  obtain ⟨F, b, c, k⟩ := hb.rest
  have hd : w.dsk = s.dsk := by rw [k]
  obtain ⟨f1, f2⟩ := dskPend_filter w ⟨ch, termCode user, sx 16 v, false, 0⟩
  rw [hb.kt] at f1
  rw [hd] at f2
  refine ⟨hr, f1, f2, ?_, hb.kt, hb.regs, ?_⟩
  · exact congrArg (sx 16) (hb.regs (DSK_COEF_d ch) (coef_ne_term user ch))
  · rw [k]
    exact sameRest_mk s _ _ _ _

/-- A term of a channel that the variant lacks is not written. -/
theorem termWrite_absent (h : Reaches p (termFld user ch).addr s) (h1 : ch < 1024) (hc : s.nChan ≤ ch) :
    TimeAt s (State.writeAt p (termFld user ch).addr v t s) t ∧ SameRegs s (State.writeAt p (termFld user ch).addr v t s) []
      ∧ SameRest s (State.writeAt p (termFld user ch).addr v t s) := by
  have ha := termFld_addr user ch
  have hb : (if user then 4 else 0) ≤ 4 := by split <;> decide
  have hb4 : (if user then 4 else 0) % 4 = 0 := by split <;> decide
  have hx : ((termFld user ch).addr - 0x40000) / 64 = ch := by omega
  have hi : (s.advance t).ignored (termFld user ch).addr = true := by
    rw [ignored_dsk_channel (by omega) (by omega), State.nChan_advance, hx]
    exact decide_eq_true hc
  have e : State.writeAt p (termFld user ch).addr v t s = (s.advance t).usedBy p := by
    rw [State.writeAt, portWrite_reaches p _ 15 v _ (h.advance t)]
    have e : (termFld user ch).addr % 2 ^ 26 / 4 * 4 = (termFld user ch).addr := by omega
    have k : (termFld user ch).addr < 0x140000 := by omega
    have hcl : ∀ u : State, u.closed (termFld user ch).addr = false := fun u => closed_dsk (by omega)
    simp only [State.barWrite, e, k, if_true, State.writeReg, hcl, ignored_used, hi, Bool.false_eq_true, if_false]
  rw [e]
  refine ⟨?_, ?_, sameRest_used_advance s t p⟩
  · obtain ⟨b, hb⟩ := (s.advance t).usedBy_moves p
    rw [hb]
    exact s.advance_kt t
  · rw [sameRegs_usedBy, sameRegs_advance]
    exact sameRegs_self s _

end Write

/-! ### All pending values take effect -/

/-- The registers that a pending value of channel `c` may write as it takes effect. -/
def takeFlds (c : Nat) : List Fld := [DSK_CAL_d c, DSK_GCNT_result c, DSK_COEF_d c, DSK_COEF_clamped c]

/-- A coefficient that is the sum of its terms. -/
def Computed (u : State) (c : Nat) : Prop :=
  u.dskD c = max (-8192) (min 8192 (u.dskSum c)) ∧ (u.rd (DSK_COEF_clamped c) = 1 ↔ u.dskSum c < -8192 ∨ 8192 < u.dskSum c)

theorem sx_toU (i : Int) (h1 : -32768 ≤ i) (h2 : i < 32768) : sx 16 (toU 16 i % 2 ^ 16) = i := by
  have h := Int.emod_nonneg i (show (65536 : Int) ≠ 0 by decide)
  have hm : toU 16 i % 2 ^ 16 = (i % 65536).toNat := Nat.mod_eq_of_lt (toU_lt 16 i)
  unfold sx
  rw [hm]
  have hlt := Int.emod_lt_of_pos i (show (0 : Int) < 65536 by decide)
  split <;> omega

theorem rd_dskCompute (s : State) (c : Nat) {f : Fld} (h1 : f.key ≠ (DSK_COEF_d c).key) (h2 : f.key ≠ (DSK_COEF_clamped c).key) :
    (s.dskCompute c).rd f = s.rd f := by
  rw [State.dskCompute]
  rw [State.rd_wr_ne _ _ _ _ (Ne.symm h2), State.wrS, State.rd_wr_ne _ _ _ _ (Ne.symm h1)]

/-- A sum of terms is one of values that its computation does not write. -/
theorem dskSum_congr {s u : State} {c : Nat} (h1 : look u.dsk.land c = look s.dsk.land c) (h2 : look u.dsk.user c = look s.dsk.user c)
    (h3 : u.rd (DSK_CAL_d c) = s.rd (DSK_CAL_d c)) : u.dskSum c = s.dskSum c := by
  simp only [State.dskSum, State.rdS, h1, h2, h3]

theorem dskCompute_computed (s : State) (c : Nat) : Computed (s.dskCompute c) c := by
  have hsum : (s.dskCompute c).dskSum c = s.dskSum c :=
    dskSum_congr rfl rfl (rd_dskCompute s c (by simp only [Fld.key, DSK_CAL_d, DSK_COEF_d]; omega) (by simp only [Fld.key, DSK_CAL_d, DSK_COEF_clamped]; omega))
  unfold Computed
  rw [hsum]
  constructor
  · show sx 16 ((s.dskCompute c).rd (DSK_COEF_d c)) = _
    rw [State.dskCompute]
    rw [State.rd_wr_ne _ _ _ _ (by simp only [Fld.key, DSK_COEF_d, DSK_COEF_clamped]; omega), State.wrS, State.rd_wr_same]
    exact sx_toU _ (by omega) (by omega)
  · rw [State.dskCompute]
    rw [State.rd_wr_same]
    by_cases h : max (-8192) (min 8192 (s.dskSum c)) = s.dskSum c
    · have h0 : b2n (decide (max (-8192) (min 8192 (s.dskSum c)) ≠ s.dskSum c)) % 2 ^ (DSK_COEF_clamped c).w = 0 := by simp [h, b2n]
      rw [h0]
      omega
    · have h0 : b2n (decide (max (-8192) (min 8192 (s.dskSum c)) ≠ s.dskSum c)) % 2 ^ (DSK_COEF_clamped c).w = 1 := by
        simp only [ne_eq, h, not_false_eq_true, decide_true, b2n, if_true]
        rfl
      rw [h0]
      omega

/-- A pending value as it joins the active terms. -/
def termPut (s : State) (q : Pend) : State :=
  match q.term with
  | 0 => { s with dsk := { s.dsk with land := ins s.dsk.land q.ch q.v } }
  | 1 => s.wrS (DSK_CAL_d q.ch) q.v
  | _ => { s with dsk := { s.dsk with user := ins s.dsk.user q.ch q.v } }

theorem dskTake_eq (s : State) (q : Pend) : s.dskTake q = (if q.gath then (termPut s q).wr (DSK_GCNT_result q.ch) 2 else termPut s q).dskCompute q.ch := rfl

/-- The terms that a value taken brings are its own channel's. -/
theorem termPut_moves (s : State) (q : Pend) : ∃ F D, termPut s q = { s with fields := F, dsk := D }
    ∧ (∀ c, c ≠ q.ch → look D.land c = look s.dsk.land c ∧ look D.user c = look s.dsk.user c)
    ∧ ∀ f : Fld, f.key ≠ (DSK_CAL_d q.ch).key → (termPut s q).rd f = s.rd f := by
  unfold termPut
  split
  · exact ⟨s.fields, _, rfl, fun c hne => ⟨look_ins_ne _ _ _ _ (Ne.symm hne), rfl⟩, fun f _ => rfl⟩
  · exact ⟨_, s.dsk, rfl, fun c _ => ⟨rfl, rfl⟩, fun f hf => State.rd_wr_ne _ _ _ _ (Ne.symm hf)⟩
  · exact ⟨s.fields, _, rfl, fun c hne => ⟨rfl, look_ins_ne _ _ _ _ (Ne.symm hne)⟩, fun f _ => rfl⟩

theorem dskTake_moves (s : State) (q : Pend) : ∃ F D, s.dskTake q = { s with fields := F, dsk := D }
    ∧ (∀ c, c ≠ q.ch → look D.land c = look s.dsk.land c ∧ look D.user c = look s.dsk.user c)
    ∧ ∀ f : Fld, f.key ∉ (takeFlds q.ch).map Fld.key → (s.dskTake q).rd f = s.rd f := by
  obtain ⟨F, D, e, hl, hr⟩ := termPut_moves s q
  have hm : ∃ F, s.dskTake q = { termPut s q with fields := F } := by
    rw [dskTake_eq]
    split <;> exact ⟨_, rfl⟩
  obtain ⟨G, k⟩ := hm
  refine ⟨G, D, by rw [k, e], hl, fun f hf => ?_⟩
  simp only [takeFlds, List.map_cons, List.map_nil, List.mem_cons, List.not_mem_nil, or_false, not_or] at hf
  rw [dskTake_eq, rd_dskCompute _ _ hf.2.2.1 hf.2.2.2]
  split
  · rw [State.rd_wr_ne _ _ _ _ (Ne.symm hf.2.1), hr f hf.1]
  · exact hr f hf.1

theorem dskTake_computed (s : State) (q : Pend) : Computed (s.dskTake q) q.ch := by
  rw [dskTake_eq]
  exact dskCompute_computed _ _

theorem takeFlds_disjoint {c d : Nat} (h : c ≠ d) : ∀ f ∈ takeFlds c, f.key ∉ (takeFlds d).map Fld.key := by
  simp only [takeFlds, List.forall_mem_cons, List.not_mem_nil, false_imp_iff, implies_true, and_true]
  simp only [List.map_cons, List.map_nil, List.mem_cons, List.not_mem_nil, or_false, Fld.key, DSK_CAL_d, DSK_GCNT_result, DSK_COEF_d, DSK_COEF_clamped]
  omega

/-- A value of another channel leaves a coefficient that is computed. -/
theorem Computed.take {s : State} {c : Nat} {q : Pend} (h : Computed s c) (hne : c ≠ q.ch) : Computed (s.dskTake q) c := by
  obtain ⟨F, D, e, hl, hr⟩ := dskTake_moves s q
  have hd := takeFlds_disjoint hne
  have h1 : (s.dskTake q).rd (DSK_CAL_d c) = s.rd (DSK_CAL_d c) := hr _ (hd _ (by simp [takeFlds]))
  have h2 : (s.dskTake q).rd (DSK_COEF_d c) = s.rd (DSK_COEF_d c) := hr _ (hd _ (by simp [takeFlds]))
  have h3 : (s.dskTake q).rd (DSK_COEF_clamped c) = s.rd (DSK_COEF_clamped c) := hr _ (hd _ (by simp [takeFlds]))
  have hdsk : (s.dskTake q).dsk = D := by rw [e]
  have hsum : (s.dskTake q).dskSum c = s.dskSum c := dskSum_congr (by rw [hdsk]; exact (hl c hne).1) (by rw [hdsk]; exact (hl c hne).2) h1
  unfold Computed
  rw [hsum, h3, State.dskD, State.rdS, h2]
  exact h

theorem foldl_dskTake_moves (l : List Pend) (s : State) : ∃ F D, l.foldl State.dskTake s = { s with fields := F, dsk := D } := by
  induction l generalizing s with
  | nil => exact ⟨s.fields, s.dsk, rfl⟩
  | cons q r ih =>
    obtain ⟨F, D, e, _⟩ := dskTake_moves s q
    obtain ⟨G, H, k⟩ := ih (s.dskTake q)
    exact ⟨G, H, by rw [List.foldl_cons, k, e]⟩

/-- Registers of none of the channels concerned. -/
theorem rd_foldl_dskTake (l : List Pend) (s : State) {f : Fld} (h : ∀ q ∈ l, f.key ∉ (takeFlds q.ch).map Fld.key) : (l.foldl State.dskTake s).rd f = s.rd f := by
  induction l generalizing s with
  | nil => rfl
  | cons q r ih =>
    obtain ⟨_, _, _, _, hr⟩ := dskTake_moves s q
    rw [List.foldl_cons, ih _ fun x hx => h x (List.mem_cons_of_mem _ hx), hr f (h q List.mem_cons_self)]

theorem foldl_dskTake_computed (l : List Pend) (s : State) (c : Nat) (h : Computed s c ∨ ∃ q ∈ l, q.ch = c) : Computed (l.foldl State.dskTake s) c := by
  induction l generalizing s with
  | nil =>
    rcases h with h | ⟨q, hq, _⟩
    · exact h
    · exact absurd hq List.not_mem_nil
  | cons q r ih =>
    refine ih _ ?_
    by_cases hc : c = q.ch
    · exact .inl (hc ▸ dskTake_computed s q)
    · refine h.imp (fun k => k.take hc) fun ⟨x, hx, k⟩ => ⟨x, (List.mem_cons.1 hx).resolve_left fun e => hc (by rw [← k, e]), k⟩

section Apply

variable {s : State} {t : Nat}

/-- The machine once all pending values have taken effect. -/
def dskTaken (s : State) (t : Nat) : State := s.dsk.pend.foldl State.dskTake (s.advance t)

theorem dskIdleApply_eq (ha : s.acqSt = 0) (hq : ∃ q ∈ s.dsk.pend, q.since + usF ≤ t ∧ s.acq.idleAt + usF ≤ t) :
    State.dskIdleApply t s = { dskTaken s t with dsk := { (dskTaken s t).dsk with pend := [] } } := by
  obtain ⟨q, hm, h1, h2⟩ := hq
  have hi : (s.advance t).idle = true := by
    rw [State.idle_advance, State.idle, ha]
    rfl
  have hany : (s.advance t).dsk.pend.any (fun p => decide (max p.since (s.advance t).acq.idleAt + usF ≤ t)) = true := by
    rw [State.advance_dsk, State.advance_acq, List.any_eq_true]
    exact ⟨q, hm, decide_eq_true (by omega)⟩
  rw [State.dskIdleApply]
  dsimp only
  rw [hi, hany, if_pos (by rfl), State.dskApply]
  dsimp only
  rw [State.advance_dsk]
  rfl

theorem takeFlds_block {c : Nat} (hc : c < 1024) {f : Fld} (h4 : f.addr / 0x10000 ≠ 4) (ha : f.addr % 4 = 0) (hl : f.lo < 32) :
    f.key ∉ (takeFlds c).map Fld.key := by
  have hb := Fld.block_of_key ha hl
  intro hm
  have : f.key / 8 / 0x10000 = 4 := by
    simp only [takeFlds, List.map_cons, List.map_nil, List.mem_cons, List.not_mem_nil, or_false] at hm
    simp only [Fld.key] at hm
    simp only [DSK_CAL_d, DSK_GCNT_result, DSK_COEF_d, DSK_COEF_clamped] at hm
    simp only [Fld.key]
    omega
  omega

theorem dskIdleApply_keeps (ha : s.acqSt = 0) (hq : ∃ q ∈ s.dsk.pend, q.since + usF ≤ t ∧ s.acq.idleAt + usF ≤ t) (hc : ∀ q ∈ s.dsk.pend, q.ch < 1024) :
    let u := State.dskIdleApply t s
    u.dsk.pend = [] ∧ (∀ q ∈ s.dsk.pend, Computed u q.ch) ∧ (∀ c, (∀ q ∈ s.dsk.pend, q.ch ≠ c) → u.dskD c = s.dskD c)
      ∧ (∀ f : Fld, f.addr / 0x10000 ≠ 4 → f.addr % 4 = 0 → f.lo < 32 → u.rd f = s.rd f) ∧ TimeAt s u t ∧ SameRest s { u with dsk := s.dsk } := by
  obtain ⟨F, D, e⟩ := foldl_dskTake_moves s.dsk.pend (s.advance t)
  have hcomp := fun c => foldl_dskTake_computed s.dsk.pend (s.advance t) c
  have hrd := fun (f : Fld) (h : ∀ q ∈ s.dsk.pend, f.key ∉ (takeFlds q.ch).map Fld.key) => (rd_foldl_dskTake s.dsk.pend (s.advance t) h).trans (s.rd_advance t f)
  obtain ⟨b, hb, hk⟩ := s.advance_moves t
  dsimp only
  rw [dskIdleApply_eq ha hq]
  unfold dskTaken
  generalize s.dsk.pend.foldl State.dskTake (s.advance t) = w at *
  refine ⟨rfl, fun q hm => hcomp q.ch (.inr ⟨q, hm, rfl⟩), fun c hne => ?_, fun f h4 h0 hl => ?_, ?_, ?_⟩
  · refine congrArg (sx 16) (hrd (DSK_COEF_d c) fun q hm => takeFlds_disjoint (Ne.symm (hne q hm)) _ (by simp [takeFlds]))
  · exact hrd f fun q hm => takeFlds_block (hc q hm) h4 h0 hl
  · rw [e]
    exact s.advance_kt t
  · rw [e, hb]
    exact sameRest_mk_hrv s _ _ _

end Apply

/-- Settles O20: a write's value joins the pending ones in place of its own term's; taking effect, each value computes its channel's sum, which no other
channel's value touches. -/
theorem deskewTerms : Obligations.DeskewTerms := by
  unfold Obligations.DeskewTerms
  refine ⟨fun s p ch user v t h => ⟨fun hc => ?_, fun hc => ?_⟩, fun s t hp ha hq hc => ?_⟩
  · refine Answers.of_performAt (exec_deskewTermWrite _ _ _ _ _ _) h.1 ?_
    have hk := termWrite_keeps (t := t) user (ch := ch.val) (v := v.toNat) h v.isLt hc
    cases user <;> exact hk
  · refine Answers.of_performAt (exec_deskewTermWrite _ _ _ _ _ _) h.1 ?_
    have hk := termWrite_absent (t := t) (v := v.toNat) user (ch := ch.val) h ch.isLt hc
    cases user <;> exact hk
  · exact Answers.of_performOnAt (exec_deskewApply _ _) hp (dskIdleApply_keeps ha hq hc)

end Sys2Proof
end

