-- ==== Sys2Proof/Proofs/Gathers.lean ====
section
/-! SUPPORT. The start, the abort and the end of a gather: the statement of O21. -/

namespace Sys2Proof

open Machine

/-! ### DSK_GCTL -/

/-- The fields of DSK_GCTL that a write stores. -/
def gctlFlds : List Fld := [DSK_GCTL_window, DSK_GCTL_max_step, DSK_GCTL_auto]

theorem portWrite_gctl (p : Port) (v t : Nat) (s : State) (h : Reaches p DSK_GCTL_start.addr s) (hv : v < 2 ^ 32) :
    State.writeAt p DSK_GCTL_start.addr v t s = State.reSignal DSK_GCTL_start.addr
      ((stored gctlFlds v (s.advance t) p).gatherCtl (decide (v % 2 = 1)) (decide (v / 2 % 2 = 1))) := by
  have h1 : DSK_GCTL_start.of v = v % 2 := by
    show v / 2 ^ 0 % 2 ^ 1 = _
    omega
  have h2 : DSK_GCTL_abort.of v = v / 2 % 2 := by
    show v / 2 ^ 1 % 2 ^ 1 = _
    omega
  have he : ∀ w bm old u, State.effect p DSK_GCTL_start.addr w bm old u
      = u.gatherCtl (decide (DSK_GCTL_start.of w = 1)) (decide (DSK_GCTL_abort.of w = 1)) := fun _ _ _ _ => rfl
  have hi : (s.advance t).ignored DSK_GCTL_start.addr = false := by
    rw [ignored_dsk (by decide)]
    simp [DSK_GCTL_start]
  rw [State.writeAt, portWrite_stores p _ v _ gctlFlds (h.advance t) hv (by decide) (by decide) (closed_dsk (by decide)) hi (by rfl), he, h1, h2]

/-! ### What refuses a start -/

/-- A gather runs, or none may (R102). -/
def GRefused (s : State) : Prop := s.dsk.gather ≠ none ∨ s.mode = 7 ∨ s.pairChs = []

/-- A channel of one pair is the partner of another (R102). -/
def GChained (s : State) : Prop := ∃ c ∈ s.pairChs, ∃ d ∈ s.pairChs, d ≠ c ∧ s.rd (DSK_PAIR_partner d) = c

/-- A channel that a gather may use. -/
def GOk (s : State) (c : Nat) : Prop := c < s.nChan ∧ s.captured c = true

/-- A pair of a channel with itself, or with one that is not there (R102). -/
def GBadPartner (s : State) : Prop :=
  ∃ c ∈ s.pairChs, s.rd (DSK_PAIR_partner c) = c ∨ ¬GOk s c ∨ ¬GOk s (s.rd (DSK_PAIR_partner c))

theorem gatherBars_refused {s : State} (hm : s.mode ≠ 0) : s.gatherBars.1 = true ↔ GRefused s := by
  simp only [State.gatherBars, GRefused, Bool.or_eq_true, decide_eq_true_eq, hm, or_false, Option.isSome_iff_ne_none, List.isEmpty_iff, or_assoc]

theorem gatherBars_many (s : State) : s.gatherBars.2.1 = true ↔ 64 < s.pairChs.length := by simp only [State.gatherBars, decide_eq_true_eq]

theorem gatherBars_chained (s : State) : s.gatherBars.2.2.1 = true ↔ GChained s := by
  simp only [State.gatherBars, GChained, List.any_eq_true, Bool.and_eq_true, decide_eq_true_eq]

theorem gatherBars_partner (s : State) : s.gatherBars.2.2.2 = true ↔ GBadPartner s := by
  simp only [State.gatherBars, GBadPartner, GOk, List.any_eq_true, Bool.or_eq_true, decide_eq_true_eq, Bool.not_eq_true', Bool.and_eq_false_iff, not_and_or,
    decide_eq_false_iff_not, Bool.not_eq_true, or_assoc]

/-- What refuses a start is not written by DSK_GCTL. -/
structure SameBars (s w : State) : Prop where
  refused : GRefused w ↔ GRefused s
  chs : w.pairChs = s.pairChs
  chained : GChained w ↔ GChained s
  partner : GBadPartner w ↔ GBadPartner s
  mode : w.mode = s.mode

theorem AsBefore.sameBars {s w : State} {t : Nat} (h : AsBefore s t gctlFlds w) : SameBars s w := by
  obtain ⟨F, b, c, e⟩ := h.rest
  have hen : ∀ i, w.rd (DSK_PAIR_en i) = s.rd (DSK_PAIR_en i) := fun i => h.regs _ (by
    simp only [gctlFlds, List.map_cons, List.map_nil, List.mem_cons, List.not_mem_nil, or_false, Fld.key, DSK_PAIR_en, DSK_GCTL_window, DSK_GCTL_max_step, DSK_GCTL_auto]
    omega)
  have hpa : ∀ i, w.rd (DSK_PAIR_partner i) = s.rd (DSK_PAIR_partner i) := fun i => h.regs _ (by
    simp only [gctlFlds, List.map_cons, List.map_nil, List.mem_cons, List.not_mem_nil, or_false, Fld.key, DSK_PAIR_partner, DSK_GCTL_window, DSK_GCTL_max_step, DSK_GCTL_auto]
    omega)
  have hm : w.mode = s.mode := h.mode (by decide)
  have hn : w.nChan = s.nChan := by rw [e]; rfl
  have hchs : w.pairChs = s.pairChs := by
    unfold State.pairChs State.on
    simp only [hen]
  have hok : ∀ c, GOk w c ↔ GOk s c := fun c => by simp only [GOk, State.captured, hn, hm]
  have hd : w.dsk.gather = s.dsk.gather := by rw [e]
  exact ⟨by simp only [GRefused, hd, hm, hchs], hchs, by simp only [GChained, hchs, hpa], by simp only [GBadPartner, hchs, hpa, hok], hm⟩

/-- What bars a start (R102). -/
def GBars (s : State) : Prop := GRefused s ∨ 64 < s.pairChs.length ∨ GChained s ∨ GBadPartner s

/-- The bits that say so. -/
def barFlds : List Fld := [DSK_GSTAT_refused, DSK_GSTAT_too_many, DSK_GSTAT_chain, DSK_GSTAT_partner]

/-- The bars as one condition. -/
theorem gatherBars_iff {s : State} (hm : s.mode ≠ 0) : (s.gatherBars.1 || s.gatherBars.2.1 || s.gatherBars.2.2.1 || s.gatherBars.2.2.2) = true ↔ GBars s := by
  rw [Bool.or_eq_true, Bool.or_eq_true, Bool.or_eq_true, gatherBars_refused hm, gatherBars_many, gatherBars_chained, gatherBars_partner, GBars, or_assoc, or_assoc]

theorem gatherStart_barred {s : State} (hm : s.mode ≠ 0) (h : GBars s) : s.gatherStart =
    (((s.orF DSK_GSTAT_refused (b2n s.gatherBars.1)).orF DSK_GSTAT_too_many (b2n s.gatherBars.2.1)).orF DSK_GSTAT_chain (b2n s.gatherBars.2.2.1)).orF
      DSK_GSTAT_partner (b2n s.gatherBars.2.2.2) := by
  have hb := (gatherBars_iff hm).2 h
  unfold State.gatherStart
  generalize s.gatherBars = g at *
  exact if_pos hb

/-- The gather that a start begins. -/
def gatherOf (s : State) : Gather :=
  ⟨s.tmb.kt, s.tmb.kt + s.rd DSK_GCTL_window * usF, s.pairChs.map s.gpair, s.suspect, match s.clk.hopWait with
    | some h => if h.pll = 0 then some s.tmb.kt else none
    | none => none, 0⟩

theorem gatherStart_runs {s : State} (hm : s.mode ≠ 0) (h : ¬GBars s) :
    s.gatherStart = ({ s with dsk := { s.dsk with gather := some (gatherOf s) } } : State).wr DSK_GSTAT_busy 1 := by
  have hb := mt (gatherBars_iff hm).1 h
  unfold State.gatherStart
  generalize s.gatherBars = g at *
  exact if_neg hb

theorem rd_orF_bit (s : State) (f : Fld) (b : Bool) (hw : f.w = 1) (hb : b = true) : (s.orF f (b2n b)).rd f = 1 := by
  rw [State.orF, State.rd_wr_same, hw, hb]
  exact Nat.or_mod_two_eq_one.2 (.inr rfl)

theorem rd_orF_ne (s : State) (f g : Fld) (v : Nat) (h : f.key ≠ g.key) : (s.orF f v).rd g = s.rd g := by rw [State.orF, State.rd_wr_ne _ _ _ _ h]

theorem gatherCtl_start (s : State) : s.gatherCtl true false = s.gatherStart := rfl

theorem gatherCtl_abort (s : State) : s.gatherCtl false true = s.gatherAbort 2 := rfl

section Start

variable {s : State} {p : Port} {v t : Nat}

theorem mode_of_reaches {a : Nat} (h : Reaches p a s) : s.mode ≠ 0 := fun e => by
  have := h.2.1
  simp [State.coreRun, e] at this

theorem window_stored (w : Nat) (hv : v < 2 ^ 32) : DSK_GCTL_window.stored 0xFFFFFFFF v w = max 1 (min 4000 (v / 2 ^ 20)) := by
  rw [Fld.stored_word _ _ rfl (by decide) (by decide)]
  have hc : DSK_GCTL_window.of v = v / 2 ^ 20 := by
    show v / 2 ^ 20 % 2 ^ 12 = _
    omega
  rw [hc]
  generalize hx : v / 2 ^ 20 = x
  have hlt : x < 4096 := by omega
  unfold Fld.clamp
  show (if x < 1 then 1 else if (4000 : Nat) ≠ 0 ∧ 4000 < x then 4000 else x) % 2 ^ 12 = _
  by_cases h1 : x < 1
  · rw [if_pos h1]; omega
  · rw [if_neg h1]
    by_cases h2 : 4000 < x
    · rw [if_pos ⟨by decide, h2⟩]; omega
    · rw [if_neg fun k => h2 k.2]; omega

theorem gatherStart_keeps (h : Reaches p DSK_GCTL_start.addr s) (hv : v < 2 ^ 32) (h0 : v % 2 = 1) (h1 : v / 2 % 2 = 0) (hb : ¬GBars s) :
    let u := State.writeAt p DSK_GCTL_start.addr v t s
    (∃ g, u.dsk.gather = some g ∧ g.start = max s.tmb.kt t ∧ g.stopAt = max s.tmb.kt t + u.rd DSK_GCTL_window * usF ∧ g.pairs.map GPair.b = s.pairChs)
      ∧ u.rd DSK_GCTL_window = max 1 (min 4000 (v / 2 ^ 20)) ∧ u.rd DSK_GSTAT_busy = 1 ∧ TimeAt s u t
      ∧ SameRegs s u [DSK_GCTL_window, DSK_GCTL_max_step, DSK_GCTL_auto, DSK_GSTAT_busy]
      ∧ SameRest s { u with dsk := { u.dsk with gather := s.dsk.gather } } := by
  have ha := asBefore_stored s p t v gctlFlds
  have hw : (stored gctlFlds v (s.advance t) p).rd DSK_GCTL_window = max 1 (min 4000 (v / 2 ^ 20)) := by
    rw [rd_stored v _ p (by decide) (by decide), window_stored _ hv]
  rw [portWrite_gctl p v t s h hv, decide_eq_true h0, decide_eq_false (by omega), gatherCtl_start]
  generalize stored gctlFlds v (s.advance t) p = w at *
  have hs := ha.sameBars
  have hk := ha.kt
  rw [gatherStart_runs (by rw [hs.mode]; exact mode_of_reaches h) (by rwa [GBars, hs.refused, hs.chs, hs.chained, hs.partner])]
  obtain ⟨F, b, c, e⟩ := ha.rest
  refine ⟨⟨gatherOf w, rfl, hk, ?_, ?_⟩, ?_, State.rd_wr_same _ DSK_GSTAT_busy 1, hk, ?_, ?_⟩
  · rw [State.rd_reSignal, State.rd_wr_ne _ _ _ _ (by decide), ← hk]
    rfl
  · rw [gatherOf, List.map_map, hs.chs]
    exact List.map_id _
  · rw [State.rd_reSignal, State.rd_wr_ne _ _ _ _ (by decide)]
    exact hw
  · rw [sameRegs_reSignal, sameRegs_wr _ (by decide), sameRegs_mk]
    exact ha.regs.mono (by decide)
  · rw [e]
    exact sameRest_mk s _ _ _ _

theorem gatherStart_refused (h : Reaches p DSK_GCTL_start.addr s) (hv : v < 2 ^ 32) (h0 : v % 2 = 1) (h1 : v / 2 % 2 = 0) (hb : GBars s) :
    let u := State.writeAt p DSK_GCTL_start.addr v t s
    (GRefused s → u.rd DSK_GSTAT_refused = 1) ∧ (64 < s.pairChs.length → u.rd DSK_GSTAT_too_many = 1) ∧ (GChained s → u.rd DSK_GSTAT_chain = 1)
      ∧ (GBadPartner s → u.rd DSK_GSTAT_partner = 1) ∧ TimeAt s u t
      ∧ SameRegs s u [DSK_GCTL_window, DSK_GCTL_max_step, DSK_GCTL_auto, DSK_GSTAT_refused, DSK_GSTAT_too_many, DSK_GSTAT_chain, DSK_GSTAT_partner]
      ∧ SameRest s u := by
  have ha := asBefore_stored s p t v gctlFlds
  rw [portWrite_gctl p v t s h hv, decide_eq_true h0, decide_eq_false (by omega), gatherCtl_start]
  generalize stored gctlFlds v (s.advance t) p = w at *
  have hs := ha.sameBars
  have hm : w.mode ≠ 0 := by rw [hs.mode]; exact mode_of_reaches h
  rw [gatherStart_barred hm (by rwa [GBars, hs.refused, hs.chs, hs.chained, hs.partner])]
  obtain ⟨F, b, c, e⟩ := ha.rest
  refine ⟨fun k => ?_, fun k => ?_, fun k => ?_, fun k => ?_, ha.kt, ?_, ?_⟩
  · rw [State.rd_reSignal, rd_orF_ne _ _ _ _ (by decide), rd_orF_ne _ _ _ _ (by decide), rd_orF_ne _ _ _ _ (by decide)]
    exact rd_orF_bit _ _ _ rfl ((gatherBars_refused hm).2 (hs.refused.2 k))
  · rw [State.rd_reSignal, rd_orF_ne _ _ _ _ (by decide), rd_orF_ne _ _ _ _ (by decide)]
    exact rd_orF_bit _ _ _ rfl ((gatherBars_many w).2 (by rwa [hs.chs]))
  · rw [State.rd_reSignal, rd_orF_ne _ _ _ _ (by decide)]
    exact rd_orF_bit _ _ _ rfl ((gatherBars_chained w).2 (hs.chained.2 k))
  · rw [State.rd_reSignal]
    exact rd_orF_bit _ _ _ rfl ((gatherBars_partner w).2 (hs.partner.2 k))
  · simp only [State.orF]
    rw [sameRegs_reSignal, sameRegs_wr _ (by decide), sameRegs_wr _ (by decide), sameRegs_wr _ (by decide), sameRegs_wr _ (by decide)]
    exact ha.regs.mono (by decide)
  · rw [e]
    exact sameRest_mk s _ _ _ _

end Start

/-! ### The end of a gather -/

/-- What the end of a gather leaves of the coefficients and counts. -/
def GatherQuiet (f : Fld) : Prop := ∀ b, f.key ∉ [DSK_GCNT_result b, DSK_GCNT_count b, DSK_GMEAN_mean b, DSK_GRMS_rms b].map Fld.key

/-- A register of none of the results' kinds. -/
theorem gatherQuiet_of {f : Fld} (h : f.key % 512 ∉ [0x1c * 8 + 28, 0x1c * 8, 0x18 * 8, 0x20 * 8]) : GatherQuiet f := fun b hm => h (by
  simp only [List.map_cons, List.map_nil, List.mem_cons, List.not_mem_nil, or_false, Fld.key, DSK_GCNT_result, DSK_GCNT_count, DSK_GMEAN_mean, DSK_GRMS_rms] at *
  omega)

theorem coef_quiet (c : Nat) : GatherQuiet (DSK_COEF_d c) := gatherQuiet_of (by
  simp only [List.mem_cons, List.not_mem_nil, or_false, Fld.key, DSK_COEF_d]
  omega)

/-- The state without the gather that ends. -/
def gatherGone (s : State) : State := { s.forceGone with dsk := { s.dsk with gather := none } }

theorem rd_gatherGone (s : State) (f : Fld) : (gatherGone s).rd f = s.rd f := rfl

section Abort

/-- The results of an abort. -/
def abortedRegs (l : List GPair) (s : State) : State := l.foldl (fun s p => s.wr (DSK_GCNT_result p.b) 5) s

theorem abortedRegs_moves (l : List GPair) (s : State) : ∃ F, abortedRegs l s = { s with fields := F } := by
  unfold abortedRegs
  induction l generalizing s with
  | nil => exact ⟨s.fields, rfl⟩
  | cons q r ih =>
    obtain ⟨F, h⟩ := ih (s.wr (DSK_GCNT_result q.b) 5)
    exact ⟨F, h⟩

theorem rd_abortedRegs_quiet (l : List GPair) (s : State) {f : Fld} (h : GatherQuiet f) : (abortedRegs l s).rd f = s.rd f := by
  unfold abortedRegs
  induction l generalizing s with
  | nil => rfl
  | cons q r ih => exact (ih _).trans (State.rd_wr_ne _ _ _ _ fun e => h q.b (by simp [e]))

theorem result_key {a b : Nat} : (DSK_GCNT_result a).key = (DSK_GCNT_result b).key ↔ a = b := by
  simp only [Fld.key, DSK_GCNT_result]
  omega

theorem rd_abortedRegs (l : List GPair) (s : State) (b : Nat) (h : s.rd (DSK_GCNT_result b) = 5 ∨ ∃ q ∈ l, q.b = b) :
    (abortedRegs l s).rd (DSK_GCNT_result b) = 5 := by
  unfold abortedRegs
  induction l generalizing s with
  | nil =>
    rcases h with h | ⟨q, hq, _⟩
    · exact h
    · exact absurd hq List.not_mem_nil
  | cons q r ih =>
    refine ih _ ?_
    by_cases e : q.b = b
    · left
      show (s.wr (DSK_GCNT_result q.b) 5).rd (DSK_GCNT_result b) = 5
      rw [e, State.rd_wr_same]
      rfl
    · refine h.imp (fun k => ?_) fun ⟨x, hx, k⟩ => ⟨x, (List.mem_cons.1 hx).resolve_left fun y => e (by rw [← y, k]), k⟩
      rw [State.rd_wr_ne _ _ _ _ fun y => e (result_key.1 y), k]

theorem gatherAbort_eq {s : State} {g : Gather} (why : Nat) (h : s.dsk.gather = some g) : ∃ r, s.gatherAbort why =
    (((abortedRegs g.pairs (gatherGone s)).event r).wr DSK_GSTAT_busy 0).wr DSK_GSTAT_aborted 1 := by
  rw [State.gatherAbort]
  simp only [h]
  exact ⟨_, rfl⟩

theorem gatherAbort_keeps {s : State} {g : Gather} (why : Nat) (h : s.dsk.gather = some g) :
    let u := s.gatherAbort why
    u.dsk = { s.dsk with gather := none } ∧ u.rd DSK_GSTAT_busy = 0 ∧ u.rd DSK_GSTAT_aborted = 1 ∧ (∀ q ∈ g.pairs, u.rd (DSK_GCNT_result q.b) = 5)
      ∧ ∀ f : Fld, GatherQuiet f → f.key ∉ [DSK_GSTAT_busy, DSK_GSTAT_aborted].map Fld.key → u.rd f = s.rd f := by
  obtain ⟨r, e⟩ := gatherAbort_eq why h
  obtain ⟨F, hF⟩ := abortedRegs_moves g.pairs (gatherGone s)
  have hres := fun q (hq : q ∈ g.pairs) => rd_abortedRegs g.pairs (gatherGone s) q.b (.inr ⟨q, hq, rfl⟩)
  have hqu := fun (f : Fld) (hf : GatherQuiet f) => (rd_abortedRegs_quiet g.pairs (gatherGone s) hf).trans (rd_gatherGone s f)
  have hdsk : (abortedRegs g.pairs (gatherGone s)).dsk = { s.dsk with gather := none } := by rw [hF]; rfl
  dsimp only
  rw [e]
  generalize abortedRegs g.pairs (gatherGone s) = w at *
  refine ⟨?_, ?_, ?_, fun q hq => ?_, fun f hf hk => ?_⟩
  · obtain ⟨A, hA⟩ := w.event_moves r
    rw [hA]
    exact hdsk
  · rw [State.rd_wr_ne _ _ _ _ (by decide), State.rd_wr_same]
    rfl
  · rw [State.rd_wr_same]
    rfl
  · have hk : (DSK_GCNT_result q.b).key ≠ DSK_GSTAT_busy.key ∧ (DSK_GCNT_result q.b).key ≠ DSK_GSTAT_aborted.key := by
      simp only [Fld.key, DSK_GCNT_result, DSK_GSTAT_busy, DSK_GSTAT_aborted]
      omega
    rw [State.rd_wr_ne _ _ _ _ (Ne.symm hk.2), State.rd_wr_ne _ _ _ _ (Ne.symm hk.1), State.rd_event]
    exact hres q hq
  · simp only [List.map_cons, List.map_nil, List.mem_cons, List.not_mem_nil, or_false, not_or] at hk
    rw [State.rd_wr_ne _ _ _ _ (Ne.symm hk.2), State.rd_wr_ne _ _ _ _ (Ne.symm hk.1), State.rd_event, hqu f hf]

theorem gatherAbort_answers {s : State} {g : Gather} {p : Port} {v t : Nat} (hg : s.dsk.gather = some g) (h : Reaches p DSK_GCTL_start.addr s) (hv : v < 2 ^ 32)
    (h0 : v % 2 = 0) (h1 : v / 2 % 2 = 1) :
    let u := State.writeAt p DSK_GCTL_start.addr v t s
    u.dsk.gather = none ∧ u.rd DSK_GSTAT_busy = 0 ∧ u.rd DSK_GSTAT_aborted = 1 ∧ (∀ q ∈ g.pairs, u.rd (DSK_GCNT_result q.b) = 5)
      ∧ u.rd DSK_GSTAT_done = s.rd DSK_GSTAT_done ∧ u.rd DSK_GSTAT_gathers = s.rd DSK_GSTAT_gathers ∧ (∀ c, u.dskD c = s.dskD c) ∧ u.dsk.pend = s.dsk.pend := by
  have ha := asBefore_stored s p t v gctlFlds
  rw [portWrite_gctl p v t s h hv, decide_eq_true h1, decide_eq_false (by omega), gatherCtl_abort]
  generalize stored gctlFlds v (s.advance t) p = w at *
  obtain ⟨F, b, c, e⟩ := ha.rest
  have hd : w.dsk = s.dsk := by rw [e]
  obtain ⟨k1, k2, k3, k4, k5⟩ := gatherAbort_keeps 2 (s := w) (g := g) (by rw [hd, hg])
  have hq : ∀ f : Fld, GatherQuiet f → f.key ∉ (DSK_GSTAT_busy :: DSK_GSTAT_aborted :: gctlFlds).map Fld.key → (w.gatherAbort 2).rd f = s.rd f := fun f hf hk =>
    (k5 f hf fun m => hk (List.map_subset _ (by decide) m)).trans (ha.regs f fun m => hk (List.map_subset _ (by decide) m))
  rw [hd] at k1
  refine ⟨congrArg Dsk.gather k1, k2, k3, k4, hq _ (gatherQuiet_of (by decide)) (by decide), hq _ (gatherQuiet_of (by decide)) (by decide), fun c => ?_,
    (congrArg Dsk.pend k1 :)⟩
  refine congrArg (sx 16) (hq _ (coef_quiet c) ?_)
  simp only [gctlFlds, List.map_cons, List.map_nil, List.mem_cons, List.not_mem_nil, or_false, Fld.key, DSK_COEF_d, DSK_GSTAT_busy, DSK_GSTAT_aborted, DSK_GCTL_window,
    DSK_GCTL_max_step, DSK_GCTL_auto]
  omega

end Abort

section Close

/-- The codes that a window's end may give a pair (R103). -/
def closeCodes (sus : Bool) : List Nat := if sus then [6] else [3, 4, 1, 7]

/-- The code of a pair. -/
def pairCode (sus : Bool) (s : State) (p : GPair) : Nat :=
  if sus then 6 else if p.values.length < 256 then 3 else if s.rd DSK_GCTL_max_step < (rnd p.values.sum (max p.values.length 1)).natAbs then 4
    else if s.on DSK_GCTL_auto then 1 else 7

theorem pairCode_mem (sus : Bool) (s : State) (p : GPair) : pairCode sus s p ∈ closeCodes sus := by
  unfold pairCode closeCodes
  cases sus with
  | true => simp
  | false =>
    simp only [Bool.false_eq_true, if_false]
    split
    · simp
    · split
      · simp
      · split <;> simp

/-- The registers of a pair's result, over the free values it may use. -/
def pairRegs (sus : Bool) (s : State) (p : GPair) (cnt : Nat) (mean : Int) (rms : Nat) : State :=
  ((((if p.values.length = 0 then (s.draw 2).2 else s).wr (DSK_GCNT_result p.b) (pairCode sus s p)).wr (DSK_GCNT_count p.b) cnt).wrS (DSK_GMEAN_mean p.b) mean).wr
    (DSK_GRMS_rms p.b) rms

theorem gatherPair_eq (sus : Bool) (s : State) (es : List (Nat × Nat × Int × Int × Int)) (p : GPair) : ∃ cnt mean rms m,
    (State.gatherPair sus (s, es) p).1 = if pairCode sus s p = 1 then (pairRegs sus s p cnt mean rms).dskPend ⟨p.b, 1, m, true, 0⟩ else pairRegs sus s p cnt mean rms :=
  ⟨_, _, _, _, rfl⟩

theorem pairRegs_moves (sus : Bool) (s : State) (p : GPair) (cnt : Nat) (mean : Int) (rms : Nat) : ∃ F n, pairRegs sus s p cnt mean rms = { s with fields := F, free := n } := by
  unfold pairRegs
  split <;> exact ⟨_, _, rfl⟩

/-- What a pair's result leaves. -/
structure PairDone (sus : Bool) (s : State) (p : GPair) (u : State) : Prop where
  code : u.rd (DSK_GCNT_result p.b) ∈ closeCodes sus
  other : ∀ b, b ≠ p.b → u.rd (DSK_GCNT_result b) = s.rd (DSK_GCNT_result b)
  quiet : ∀ f : Fld, GatherQuiet f → u.rd f = s.rd f
  pend : sus = true → u.dsk.pend = s.dsk.pend
  gather : u.dsk.gather = s.dsk.gather

theorem pairRegs_done (sus : Bool) (s : State) (p : GPair) (cnt : Nat) (mean : Int) (rms : Nat) : PairDone sus s p (pairRegs sus s p cnt mean rms) := by
  obtain ⟨F, n, e⟩ := pairRegs_moves sus s p cnt mean rms
  have hd : ∀ f, (if p.values.length = 0 then (s.draw 2).2 else s).rd f = s.rd f := fun f => by split <;> rfl
  have h1 : (DSK_GRMS_rms p.b).key % 512 = 0x20 * 8 ∧ (DSK_GMEAN_mean p.b).key % 512 = 0x18 * 8 ∧ (DSK_GCNT_count p.b).key % 512 = 0x1c * 8 := by
    simp only [Fld.key, DSK_GRMS_rms, DSK_GMEAN_mean, DSK_GCNT_count]
    omega
  have h2 : ∀ b, (DSK_GCNT_result b).key % 512 = 0x1c * 8 + 28 := fun b => by
    simp only [Fld.key, DSK_GCNT_result]
    omega
  have hcode := pairCode_mem sus s p
  refine ⟨?_, fun b hb => ?_, fun f hf => ?_, fun _ => by rw [e], by rw [e]⟩
  · have hlt : pairCode sus s p % 2 ^ (DSK_GCNT_result p.b).w = pairCode sus s p := by
      refine Nat.mod_eq_of_lt (show pairCode sus s p < 16 from ?_)
      have hall : ∀ x ∈ closeCodes sus, x < 16 := by cases sus <;> decide
      exact hall _ hcode
    rw [pairRegs, State.rd_wr_ne _ _ _ _ fun k => by have := h2 p.b; rw [← k] at this; omega, State.wrS,
      State.rd_wr_ne _ _ _ _ fun k => by have := h2 p.b; rw [← k] at this; omega, State.rd_wr_ne _ _ _ _ fun k => by have := h2 p.b; rw [← k] at this; omega,
      State.rd_wr_same, hlt]
    exact hcode
  · rw [pairRegs, State.rd_wr_ne _ _ _ _ fun k => by have := h2 b; rw [← k] at this; omega, State.wrS,
      State.rd_wr_ne _ _ _ _ fun k => by have := h2 b; rw [← k] at this; omega, State.rd_wr_ne _ _ _ _ fun k => by have := h2 b; rw [← k] at this; omega,
      State.rd_wr_ne _ _ _ _ fun k => hb (result_key.1 k).symm, hd]
  · have hq := hf p.b
    simp only [List.map_cons, List.map_nil, List.mem_cons, List.not_mem_nil, or_false, not_or] at hq
    obtain ⟨q1, q2, q3, q4⟩ := hq
    rw [pairRegs, State.rd_wr_ne _ _ _ _ (Ne.symm q4), State.wrS, State.rd_wr_ne _ _ _ _ (Ne.symm q3), State.rd_wr_ne _ _ _ _ (Ne.symm q2),
      State.rd_wr_ne _ _ _ _ (Ne.symm q1), hd]

theorem gatherPair_done (sus : Bool) (s : State) (es : List (Nat × Nat × Int × Int × Int)) (p : GPair) : PairDone sus s p (State.gatherPair sus (s, es) p).1 := by
  obtain ⟨cnt, mean, rms, m, e⟩ := gatherPair_eq sus s es p
  have h := pairRegs_done sus s p cnt mean rms
  rw [e]
  split
  · next hc =>
    refine ⟨h.code, h.other, h.quiet, fun hs => ?_, h.gather⟩
    subst hs
    exact absurd (show (6 : Nat) = 1 from hc) (by decide)
  · exact h

/-- The results of a window's end. -/
def closedRegs (sus : Bool) (l : List GPair) (a : State × List (Nat × Nat × Int × Int × Int)) : State × List (Nat × Nat × Int × Int × Int) :=
  l.foldl (State.gatherPair sus) a

theorem closedRegs_keeps (sus : Bool) (l : List GPair) (a : State × List (Nat × Nat × Int × Int × Int)) :
    (∀ f : Fld, GatherQuiet f → (closedRegs sus l a).1.rd f = a.1.rd f) ∧ (sus = true → (closedRegs sus l a).1.dsk.pend = a.1.dsk.pend)
      ∧ (closedRegs sus l a).1.dsk.gather = a.1.dsk.gather
      ∧ ∀ b, (a.1.rd (DSK_GCNT_result b) ∈ closeCodes sus ∨ ∃ q ∈ l, q.b = b) → (closedRegs sus l a).1.rd (DSK_GCNT_result b) ∈ closeCodes sus := by
  unfold closedRegs
  induction l generalizing a with
  | nil => exact ⟨fun _ _ => rfl, fun _ => rfl, rfl, fun b h => h.resolve_right fun ⟨_, hq, _⟩ => List.not_mem_nil hq⟩
  | cons p r ih =>
    obtain ⟨s, es⟩ := a
    have h := gatherPair_done sus s es p
    obtain ⟨k1, k2, k3, k4⟩ := ih (State.gatherPair sus (s, es) p)
    refine ⟨fun f hf => (k1 f hf).trans (h.quiet f hf), fun hs => (k2 hs).trans (h.pend hs), k3.trans h.gather, fun b hb => k4 b ?_⟩
    by_cases e : p.b = b
    · exact .inl (e ▸ h.code)
    · refine hb.imp (fun k => by rwa [h.other b (Ne.symm e)]) fun ⟨x, hx, k⟩ => ⟨x, (List.mem_cons.1 hx).resolve_left fun y => e (by rw [← y, k]), k⟩

theorem gatherClose_eq {s : State} {g : Gather} (t : Nat) (h : s.dsk.gather = some g) : ∃ r, s.gatherClose t =
    ((((((closedRegs g.suspect g.pairs (gatherGone s, [])).1.event r).wr DSK_GSTAT_busy 0).wr DSK_GSTAT_done 1).wr DSK_GSTAT_aborted 0).bump DSK_GSTAT_gathers) := by
  rw [State.gatherClose]
  simp only [h]
  exact ⟨_, rfl⟩

theorem gatherExpire_keeps {s : State} {g : Gather} {t : Nat} (hg : s.dsk.gather = some g) (ht : g.stopAt ≤ t) :
    let u := State.gatherExpire t s
    u.dsk.gather = none ∧ u.rd DSK_GSTAT_busy = 0 ∧ u.rd DSK_GSTAT_done = 1 ∧ u.rd DSK_GSTAT_aborted = 0
      ∧ u.rd DSK_GSTAT_gathers = (s.rd DSK_GSTAT_gathers + 1) % 2 ^ 16 ∧ (∀ q ∈ g.pairs, u.rd (DSK_GCNT_result q.b) ∈ closeCodes g.suspect)
      ∧ (∀ c, u.dskD c = s.dskD c) ∧ (g.suspect = true → u.dsk.pend = s.dsk.pend) := by
  have e0 : State.gatherExpire t s = (s.advance t).gatherClose t := by
    rw [State.gatherExpire]
    simp only [State.advance_dsk, hg, if_pos ht]
  obtain ⟨r, e⟩ := gatherClose_eq t (s := s.advance t) (g := g) (by rw [State.advance_dsk, hg])
  obtain ⟨k1, k2, k3, k4⟩ := closedRegs_keeps g.suspect g.pairs (gatherGone (s.advance t), [])
  have hq : ∀ f : Fld, GatherQuiet f → (closedRegs g.suspect g.pairs (gatherGone (s.advance t), [])).1.rd f = s.rd f := fun f hf =>
    (k1 f hf).trans ((rd_gatherGone _ f).trans (s.rd_advance t f))
  have hp : g.suspect = true → (closedRegs g.suspect g.pairs (gatherGone (s.advance t), [])).1.dsk.pend = s.dsk.pend := fun hs =>
    (k2 hs).trans (congrArg Dsk.pend (s.advance_dsk t) :)
  dsimp only
  rw [e0, e]
  generalize (closedRegs g.suspect g.pairs (gatherGone (s.advance t), [])).1 = w at *
  obtain ⟨A, hA⟩ := w.event_moves r
  have hgs : (DSK_GSTAT_gathers).key ∉ [DSK_GSTAT_aborted, DSK_GSTAT_done, DSK_GSTAT_busy].map Fld.key := by decide
  have hne : ∀ f : Fld, f.key ∉ [DSK_GSTAT_gathers, DSK_GSTAT_aborted, DSK_GSTAT_done, DSK_GSTAT_busy].map Fld.key →
      (((((w.event r).wr DSK_GSTAT_busy 0).wr DSK_GSTAT_done 1).wr DSK_GSTAT_aborted 0).bump DSK_GSTAT_gathers).rd f = w.rd f := fun f hf => by
    simp only [List.map_cons, List.map_nil, List.mem_cons, List.not_mem_nil, or_false, not_or] at hf
    rw [State.bump, State.rd_wr_ne _ _ _ _ (Ne.symm hf.1), State.rd_wr_ne _ _ _ _ (Ne.symm hf.2.1), State.rd_wr_ne _ _ _ _ (Ne.symm hf.2.2.1),
      State.rd_wr_ne _ _ _ _ (Ne.symm hf.2.2.2), State.rd_event]
  refine ⟨?_, ?_, ?_, ?_, ?_, fun q hm => ?_, fun c => ?_, fun hs => ?_⟩
  · rw [hA]
    exact k3
  · simp (disch := decide) only [State.bump, State.rd_wr_ne, State.rd_wr_same]
    rfl
  · simp (disch := decide) only [State.bump, State.rd_wr_ne, State.rd_wr_same]
    rfl
  · simp (disch := decide) only [State.bump, State.rd_wr_ne, State.rd_wr_same]
    rfl
  · simp (disch := decide) only [State.bump, State.rd_wr_ne, State.rd_wr_same, State.rd_event]
    rw [hq _ (gatherQuiet_of (by decide))]
    rfl
  · rw [hne _ (by
      simp only [List.map_cons, List.map_nil, List.mem_cons, List.not_mem_nil, or_false, Fld.key, DSK_GCNT_result, DSK_GSTAT_gathers, DSK_GSTAT_aborted, DSK_GSTAT_done,
        DSK_GSTAT_busy]
      omega)]
    exact k4 q.b (.inr ⟨q, hm, rfl⟩)
  · refine congrArg (sx 16) ((hne _ ?_).trans (hq _ (coef_quiet c)))
    simp only [List.map_cons, List.map_nil, List.mem_cons, List.not_mem_nil, or_false, Fld.key, DSK_COEF_d, DSK_GSTAT_gathers, DSK_GSTAT_aborted, DSK_GSTAT_done,
      DSK_GSTAT_busy]
    omega
  · rw [hA]
    exact hp hs

end Close

/-- A bit of a word. -/
theorem getLsbD_iff (v : Word) (i : Nat) : v.getLsbD i = true ↔ v.toNat / 2 ^ i % 2 = 1 := by
  rw [← BitVec.testBit_toNat, Nat.testBit_eq_decide_div_mod_eq, decide_eq_true_eq]

theorem or_one_bits (n : Nat) : (n ||| 1) % 2 = 1 ∧ (n ||| 1) / 2 = n / 2 ∧ (n ||| 1) / 2 ^ 20 = n / 2 ^ 20 := by
  refine ⟨Nat.or_mod_two_eq_one.2 (.inr rfl), ?_, ?_⟩
  · rw [Nat.or_div_two]
    exact Nat.or_zero _
  · rw [Nat.or_div_two_pow]
    exact Nat.or_zero _

theorem or_two_bits (n : Nat) : (n ||| 2) % 2 = n % 2 ∧ (n ||| 2) / 2 % 2 = 1 := by
  refine ⟨?_, ?_⟩
  · have h := Nat.or_mod_two_pow (a := n) (b := 2) (n := 1)
    simpa using h
  · rw [Nat.or_div_two]
    exact Nat.or_mod_two_eq_one.2 (.inr rfl)

/-- Settles O21: what bars a start by R102, the results of an abort and of the window's end pair by pair, none of which is a coefficient. -/
theorem gathers : Obligations.Gathers := by
  unfold Obligations.Gathers
  have hbit1 : ∀ v : Word, v.getLsbD 1 = false → v.toNat / 2 % 2 = 0 := fun v hv => by
    have := mt (getLsbD_iff v 1).2 (by rw [hv]; exact Bool.false_ne_true)
    omega
  refine ⟨fun s p v t h hv => ⟨fun hb => ?_, fun hb => ?_⟩, fun s t g hg _ => ⟨fun p v h hv => ?_, fun hp ht => ?_⟩⟩
  · refine Answers.of_performAt (exec_gatherStart _ _ _ _) h.1 ?_
    obtain ⟨b0, b1, b2⟩ := or_one_bits v.toNat
    obtain ⟨k1, k2, k3⟩ := gatherStart_keeps (t := t) h (Nat.or_lt_two_pow v.isLt (by decide)) b0 (by rw [b1]; exact hbit1 v hv) hb
    rw [b2] at k2
    exact ⟨k1, k2, k3⟩
  · refine Answers.of_performAt (exec_gatherStart _ _ _ _) h.1 ?_
    obtain ⟨b0, b1, _⟩ := or_one_bits v.toNat
    exact gatherStart_refused h (Nat.or_lt_two_pow v.isLt (by decide)) b0 (by rw [b1]; exact hbit1 v hv) hb
  · refine Answers.of_performAt (exec_gatherAbort _ _ _ _) h.1 ?_
    obtain ⟨b0, b1⟩ := or_two_bits v.toNat
    have h0 : v.toNat % 2 = 0 := by
      have := mt (getLsbD_iff v 0).2 (by rw [hv]; exact Bool.false_ne_true)
      omega
    exact gatherAbort_answers hg h (Nat.or_lt_two_pow v.isLt (by decide)) (b0.trans h0) b1
  · exact Answers.of_performOnAt (exec_gatherClose _ _) hp (gatherExpire_keeps hg ht)

end Sys2Proof
end

