-- ==== Sys2Proof/Proofs/BoundaryScan.lean ====
section
/-! SUPPORT. What the test access port captures and which links its instructions drop: the statement of O60. -/

namespace Sys2Proof.Machine

/-! ### Bits of a packed number -/

theorem packBits_lt (n : Nat) (f : Nat → Bool) : packBits n f < 2 ^ n := by
  induction n with
  | zero => exact Nat.one_pos
  | succ n ih =>
    rw [packBits, Nat.pow_succ]
    split <;> omega

theorem bit_packBits {n i : Nat} (f : Nat → Bool) (h : i < n) : bit (packBits n f) i = f i := by
  induction n with
  | zero => omega
  | succ n ih =>
    have hb : packBits (n + 1) f = 2 ^ n * b2n (f n) + packBits n f := by
      rw [packBits]
      cases f n <;> simp [b2n, Nat.add_comm]
    rw [bit_eq_testBit, hb, Nat.testBit_two_pow_mul_add _ (packBits_lt n f)]
    by_cases hi : i < n
    · rw [if_pos hi, ← bit_eq_testBit, ih hi]
    · have he : i = n := by omega
      subst he
      rw [if_neg hi, Nat.sub_self]
      cases f i <;> rfl

/-- A bit of the low part, and one of the high part, of a number put together from two. -/
theorem bit_join {n a : Nat} (b : Nat) (ha : a < 2 ^ n) :
    (∀ i, i < n → bit (a + 2 ^ n * b) i = bit a i) ∧ ∀ j, bit (a + 2 ^ n * b) (n + j) = bit b j := by
  refine ⟨fun i hi => ?_, fun j => ?_⟩
  · rw [bit_eq_testBit, Nat.add_comm, Nat.testBit_two_pow_mul_add _ ha, if_pos hi, bit_eq_testBit]
  · rw [bit_eq_testBit, Nat.add_comm, Nat.testBit_two_pow_mul_add _ ha, if_neg (by omega), Nat.add_sub_cancel_left, bit_eq_testBit]

/-- What the boundary register holds of the input channels, and of a land that the model follows. -/
theorem State.bit_boundary (s : State) :
    (∀ i, i < 1024 → (bit s.boundary i = true ↔ s.on (INP_LSTAT_level (1023 - i)) = true ∧ 1023 - i < s.nChan))
      ∧ ∀ i b, i < otherCells → s.landCell i = some b → bit s.boundary (1024 + (otherCells - 1 - i)) = b := by
  obtain ⟨hlow, hhigh⟩ := bit_join (packBits otherCells fun j => (s.landCell (otherCells - 1 - j)).getD (bit (Config.freeValue s.free) j))
    (packBits_lt 1024 fun i => s.on (INP_LSTAT_level (1023 - i)) && decide (1023 - i < s.nChan))
  refine ⟨fun i hi => ?_, fun i b hi hc => ?_⟩
  · rw [State.boundary, hlow i hi, bit_packBits _ hi]
    simp
  · rw [State.boundary, hhigh, bit_packBits _ (by omega), show otherCells - 1 - (otherCells - 1 - i) = i by omega, hc]
    rfl

/-! ### Ports that lose their link -/

/-- One port when the lands are taken. -/
def State.portDrop (s : State) (n : Nat) : State := if s.portUp n then s.portTo n 1 else s.putPort n { s.gport n with good := 0 }

theorem State.portsLost_eq (s : State) : s.portsLost = (List.range 4).foldl State.portDrop s := rfl

theorem State.portTo_moves (s : State) (n k : Nat) : ∃ F G, s.portTo n k = { s with fields := F, grf := G } := by
  rw [State.portTo]
  split
  · exact ⟨_, _, rfl⟩
  · exact ⟨_, _, rfl⟩

theorem State.rd_portTo (s : State) (n k : Nat) {f : Fld} (hs : f.key ≠ (GRF_GLn_STAT_state n).key) (hd : f.key ≠ GRF_EVT_link_down.key) :
    (s.portTo n k).rd f = s.rd f := by
  rw [State.portTo, State.rd_wr_ne _ _ _ _ (Ne.symm hs)]
  dsimp only
  split
  · exact rd_orF_ne _ _ _ _ (Ne.symm hd)
  · rfl

theorem State.portDrop_moves (s : State) (n : Nat) : ∃ F G, s.portDrop n = { s with fields := F, grf := G } := by
  rw [State.portDrop]
  split
  · exact State.portTo_moves s n 1
  · exact ⟨_, _, rfl⟩

theorem State.rd_portDrop (s : State) (n : Nat) {f : Fld} (hs : f.key ≠ (GRF_GLn_STAT_state n).key) (hd : f.key ≠ GRF_EVT_link_down.key) :
    (s.portDrop n).rd f = s.rd f := by
  rw [State.portDrop]
  split
  · exact State.rd_portTo s n 1 hs hd
  · rfl

theorem GRF_GLn_STAT_state_inj {m n : Nat} (h : m ≠ n) : (GRF_GLn_STAT_state m).key ≠ (GRF_GLn_STAT_state n).key := by
  simp only [Fld.key, GRF_GLn_STAT_state]
  omega

theorem GRF_GLn_STAT_state_ne_down (n : Nat) : (GRF_GLn_STAT_state n).key ≠ GRF_EVT_link_down.key := by
  simp only [Fld.key, GRF_GLn_STAT_state, GRF_EVT_link_down]
  omega

/-- A port that was UP trains again, which link_down shows. -/
theorem State.portDrop_up {s : State} {n : Nat} (h : s.portUp n = true) :
    (s.portDrop n).rd (GRF_GLn_STAT_state n) = 1 ∧ (s.portDrop n).rd GRF_EVT_link_down = 1 := by
  rw [State.portDrop, if_pos h, State.portTo, if_pos h]
  refine ⟨State.rd_wr_same _ _ _, ?_⟩
  rw [State.rd_wr_ne _ _ _ _ (GRF_GLn_STAT_state_ne_down n)]
  exact rd_orF_bit s GRF_EVT_link_down true rfl rfl

theorem State.portDrop_down {s : State} (m : Nat) (h : s.rd GRF_EVT_link_down = 1) : (s.portDrop m).rd GRF_EVT_link_down = 1 := by
  by_cases hu : s.portUp m = true
  · exact (State.portDrop_up hu).2
  · rw [State.portDrop, if_neg hu]
    exact h

theorem foldl_portDrop_moves (l : List Nat) (s : State) : ∃ F G, l.foldl State.portDrop s = { s with fields := F, grf := G } := by
  induction l generalizing s with
  | nil => exact ⟨s.fields, s.grf, rfl⟩
  | cons n l ih =>
    obtain ⟨F, G, e⟩ := State.portDrop_moves s n
    obtain ⟨F', G', e'⟩ := ih (s.portDrop n)
    exact ⟨F', G', by rw [List.foldl_cons, e', e]⟩

theorem rd_foldl_portDrop (l : List Nat) (s : State) {f : Fld} (hs : ∀ n ∈ l, f.key ≠ (GRF_GLn_STAT_state n).key)
    (hd : f.key ≠ GRF_EVT_link_down.key) : (l.foldl State.portDrop s).rd f = s.rd f := by
  induction l generalizing s with
  | nil => rfl
  | cons n l ih =>
    rw [List.foldl_cons, ih _ fun m hm => hs m (List.mem_cons_of_mem _ hm), State.rd_portDrop _ _ (hs n List.mem_cons_self) hd]

/-- Of a list of ports, each that was UP trains again. -/
theorem foldl_portDrop_up {l : List Nat} (hl : l.Nodup) {s : State} {n : Nat} (hn : n ∈ l) (hu : s.portUp n = true) :
    (l.foldl State.portDrop s).rd (GRF_GLn_STAT_state n) = 1 ∧ (l.foldl State.portDrop s).rd GRF_EVT_link_down = 1 := by
  have keeps : ∀ (r : List Nat) (u : State), u.rd GRF_EVT_link_down = 1 → (r.foldl State.portDrop u).rd GRF_EVT_link_down = 1 := fun r => by
    induction r with
    | nil => exact fun _ h => h
    | cons m r ih => exact fun u h => ih _ (State.portDrop_down m h)
  induction l generalizing s with
  | nil => exact absurd hn List.not_mem_nil
  | cons m l ih =>
    obtain ⟨hm, hl⟩ := List.nodup_cons.1 hl
    rw [List.foldl_cons]
    by_cases he : n = m
    · subst he
      obtain ⟨hs, hd⟩ := State.portDrop_up hu
      refine ⟨?_, keeps l _ hd⟩
      rw [rd_foldl_portDrop l _ (fun k hk => GRF_GLn_STAT_state_inj fun x => hm (by rw [x]; exact hk)) (GRF_GLn_STAT_state_ne_down n), hs]
    · refine ih hl ((List.mem_cons.1 hn).resolve_left he) ?_
      rw [State.portUp, State.rd_portDrop _ _ (GRF_GLn_STAT_state_inj he) (GRF_GLn_STAT_state_ne_down n)]
      exact hu

/-! ### The lands come under test -/

/-- The registers that losing the links writes. -/
def landFlds : List Fld := [HRV_LINK_up, HRV_LINK_width, HRV_LINK_speed, GRF_EVT_link_down] ++ (List.range 4).map GRF_GLn_STAT_state

/-- The machine without its link of PCI Express, if it had one. -/
def State.unlinked (s : State) : State := if s.hrv.link.isSome then s.linkDown else s

theorem State.landsLost_eq {s : State} (h : s.lands = true) : s.landsLost = (List.range 4).foldl State.portDrop s.unlinked := by
  rw [State.landsLost, if_pos h]
  rfl

theorem State.unlinked_moves (s : State) : ∃ F l z, s.unlinked = { s with fields := F, hrv := { s.hrv with link := l, l12 := z } } := by
  rw [State.unlinked]
  split
  · exact ⟨_, _, _, rfl⟩
  · exact ⟨s.fields, s.hrv.link, s.hrv.l12, rfl⟩

theorem State.rd_unlinked (s : State) {f : Fld} (h : f.key ∉ linkFlds.map Fld.key) : s.unlinked.rd f = s.rd f := by
  simp only [linkFlds, List.map_cons, List.map_nil, List.mem_cons, List.not_mem_nil, or_false, not_or] at h
  obtain ⟨h1, h2, h3⟩ := h
  rw [State.unlinked]
  split
  · rw [State.linkDown, State.rd_wr_ne _ _ _ _ (Ne.symm h3), State.rd_wr_ne _ _ _ _ (Ne.symm h2), State.rd_wr_ne _ _ _ _ (Ne.symm h1)]
    rfl
  · rfl

/-- A link that was up is down, with HRV_LINK at 0. -/
theorem State.unlinked_link {s : State} (h : s.hrv.link ≠ none) :
    s.unlinked.hrv.link = none ∧ s.unlinked.rd HRV_LINK_up = 0 ∧ s.unlinked.rd HRV_LINK_width = 0 ∧ s.unlinked.rd HRV_LINK_speed = 0 := by
  have hs : s.hrv.link.isSome = true := Option.isSome_iff_ne_none.2 h
  rw [State.unlinked, if_pos hs, State.linkDown]
  refine ⟨rfl, ?_, ?_, State.rd_wr_same _ _ _⟩
  · rw [State.rd_wr_ne _ _ _ _ (by decide), State.rd_wr_ne _ _ _ _ (by decide), State.rd_wr_same]
    rfl
  · rw [State.rd_wr_ne _ _ _ _ (by decide), State.rd_wr_same]
    rfl

theorem State.portUp_unlinked (s : State) {n : Nat} (h : n < 4) : s.unlinked.portUp n = s.portUp n := by
  rw [State.portUp, State.portUp, State.rd_unlinked]
  simp only [linkFlds, List.map_cons, List.map_nil, List.mem_cons, List.not_mem_nil, or_false, Fld.key, GRF_GLn_STAT_state, HRV_LINK_up,
    HRV_LINK_width, HRV_LINK_speed]
  omega

end Sys2Proof.Machine

namespace Sys2Proof

open Machine

/-- What taking the lands does to the links, and that it does nothing else. -/
structure LinksLost (s u : State) : Prop where
  pcie : s.hrv.link ≠ none → u.hrv.link = none ∧ u.rd HRV_LINK_up = 0 ∧ u.rd HRV_LINK_width = 0 ∧ u.rd HRV_LINK_speed = 0
  graft : ∀ n, n < 4 → s.portUp n = true → u.rd (GRF_GLn_STAT_state n) = 1 ∧ u.rd GRF_EVT_link_down % 2 = 1
  regs : SameRegs s u landFlds
  moves : ∃ F G l z, u = { s with fields := F, grf := G, hrv := { s.hrv with link := l, l12 := z } }

theorem linksLost_landsLost {s : State} (h : s.lands = true) : LinksLost s s.landsLost := by
  have hp : ∀ f : Fld, f.key ∉ ((List.range 4).map GRF_GLn_STAT_state).map Fld.key → f.key ≠ GRF_EVT_link_down.key →
      s.landsLost.rd f = s.unlinked.rd f := fun f hf hd => by
    rw [State.landsLost_eq h]
    refine rd_foldl_portDrop _ _ (fun n hn e => hf ?_) hd
    rw [e]
    exact List.mem_map_of_mem (List.mem_map_of_mem hn)
  obtain ⟨F, G, e⟩ := foldl_portDrop_moves (List.range 4) s.unlinked
  obtain ⟨F', l, z, e'⟩ := s.unlinked_moves
  refine ⟨fun hl => ?_, fun n hn hu => ?_, fun f hf => ?_, ⟨F, G, l, z, by rw [State.landsLost_eq h, e, e']⟩⟩
  · obtain ⟨h1, h2, h3, h4⟩ := State.unlinked_link hl
    refine ⟨?_, (hp _ (by decide) (by decide)).trans h2, (hp _ (by decide) (by decide)).trans h3, (hp _ (by decide) (by decide)).trans h4⟩
    rw [State.landsLost_eq h, e]
    exact h1
  · rw [State.landsLost_eq h]
    obtain ⟨h1, h2⟩ := foldl_portDrop_up List.nodup_range (List.mem_range.2 hn) ((s.portUp_unlinked hn).trans hu)
    exact ⟨h1, by rw [h2]⟩
  · simp only [landFlds, List.map_append, List.mem_append, List.map_cons, List.map_nil, List.mem_cons, List.not_mem_nil, or_false,
      not_or] at hf
    obtain ⟨⟨h1, h2, h3, h4⟩, h5⟩ := hf
    refine (hp f h5 h4).trans (State.rd_unlinked s ?_)
    simp only [linkFlds, List.map_cons, List.map_nil, List.mem_cons, List.not_mem_nil, or_false, not_or]
    exact ⟨h1, h2, h3⟩

/-! ### The instructions -/

/-- The instruction is not obeyed (R437, R440). -/
def Barred (s : State) (code : Nat) : Prop := s.mode = 0 ∧ code ≠ 1 ∨ takesLands code = true ∧ s.acqSt ≠ 0

theorem scanCode_barred {s : State} {code : Nat} (h : Barred s code) : s.scanCode code = 255 := by
  rw [State.scanCode]
  split
  · rfl
  · next hn =>
    obtain ⟨hl, ha⟩ := h.resolve_left hn
    rw [if_pos ⟨hl, by simp [State.idle, ha]⟩]

theorem scanCode_free {s : State} {code : Nat} (h : ¬Barred s code) : s.scanCode code = code := by
  obtain ⟨h1, h2⟩ := not_or.1 h
  rw [State.scanCode, if_neg h1, if_neg fun x => h2 ⟨x.1, by simpa [State.idle] using x.2⟩]

/-- The links as a load leaves them: lost where its instruction takes lands that were not under test. -/
theorem scanLoad_eq (s : State) (code : Nat) :
    let w := if takesLands (s.scanCode code) && s.lands then s.landsLost else s
    State.scanLoad code s = { w with
      jtg := ⟨s.scanCode code, if takesLands (s.scanCode code) then 1 + s.scanCode code else 0, s.scanCapture (s.scanCode code), w.irCapture⟩
      free := w.free + 1 } := by
  have hn : s.lands = false → s.landsLost = s := fun h => by rw [State.landsLost, if_neg (by simp [h])]
  cases hl : s.lands <;> cases ht : takesLands (s.scanCode code) <;> simp [State.scanLoad, ht, hl, hn]

theorem irCapture_eq (s : State) : s.irCapture = 1 + 4 * (if s.acqSt = 0 then 0 else 1) := by
  by_cases h : s.acqSt = 0 <;> simp [State.irCapture, State.idle, h, b2n]

theorem scanCapture_boundary (s : State) {code : Nat} (h : code ∈ [0, 2, 6, 7]) : s.scanCapture code = s.boundary := by
  simp only [List.mem_cons, List.not_mem_nil, or_false] at h
  obtain rfl | rfl | rfl | rfl := h <;> rfl

/-- Settles O60: what is captured bit by bit, and the links lost exactly where an obeyed instruction takes the lands. -/
theorem boundaryScan : Obligations.BoundaryScan := by
  unfold Obligations.BoundaryScan
  intro s c code hp hc barred loses
  have hx : exec c s = State.performOn (State.scanLoad code) s ∧ code ∈ [0, 1, 2, 4, 5, 6, 7, 255] := by
    simp only [List.mem_cons, List.not_mem_nil, or_false, Prod.mk.injEq] at hc
    obtain ⟨rfl, rfl⟩ | ⟨rfl, rfl⟩ | ⟨rfl, rfl⟩ | ⟨rfl, rfl⟩ | ⟨rfl, rfl⟩ | ⟨rfl, rfl⟩ | ⟨rfl, rfl⟩ | ⟨rfl, rfl⟩ := hc <;>
      exact ⟨rfl, by decide⟩
  obtain ⟨hx, hm⟩ := hx
  refine Answers.of_performOn hx hp ?_
  by_cases hb : Barred s code
  · have hl : loses = false := by simp only [loses, barred, Barred] at hb ⊢; simp [hb]
    have hu : State.scanLoad code s = { s with jtg := ⟨255, 0, 0, s.irCapture⟩, free := s.free + 1 } := by
      rw [scanLoad_eq, scanCode_barred hb]
      rfl
    rw [hu, hl]
    refine ⟨(if_pos (show barred from hb)).symm, (if_pos (show barred ∨ takesLands code = false from .inl hb)).symm, fun _ => rfl, fun h1 => ?_,
      fun h => absurd hb h, fun h => absurd hb h, irCapture_eq s, fun _ => ⟨fun _ _ => rfl, rfl⟩, nofun⟩
    subst h1
    exact absurd hb (by simp [Barred, takesLands])
  · have hl : loses = (takesLands code && s.lands) := by simp only [loses, barred, Barred] at hb ⊢; simp [hb]
    have hu := scanLoad_eq s code
    rw [scanCode_free hb] at hu
    dsimp only at hu
    have hw : let w := if takesLands code && s.lands then s.landsLost else s
        (loses = false → w = s) ∧ (loses = true → LinksLost s w) ∧ w.acqSt = s.acqSt := by
      rw [hl]
      cases ht : takesLands code && s.lands
      · exact ⟨fun _ => rfl, nofun, rfl⟩
      · have hk := linksLost_landsLost ((Bool.and_eq_true_iff.1 ht).2)
        exact ⟨nofun, fun _ => hk, hk.regs ACQ_STAT_state (by decide)⟩
    dsimp only at hw
    generalize (if takesLands code && s.lands then s.landsLost else s) = w at hu hw
    obtain ⟨hsame, hlost, hacq⟩ := hw
    have hir : w.irCapture = 1 + 4 * (if s.acqSt = 0 then 0 else 1) := by rw [irCapture_eq, hacq]
    rw [hu]
    refine ⟨(if_neg (show ¬barred from hb)).symm, ?_, fun h => ?_, fun h1 => ?_, fun _ h => ?_, fun _ h => ?_, hir, fun h => ?_, fun h => ?_⟩
    · by_cases ht : takesLands code = true
      · have hn : ¬(barred ∨ takesLands code = false) := fun x => x.elim hb fun e => by rw [ht] at e; nomatch e
        exact (if_pos ht).trans (if_neg hn).symm
      · exact (if_neg ht).trans (if_pos (show barred ∨ takesLands code = false from .inr (Bool.not_eq_true _ ▸ ht))).symm
    · obtain rfl | rfl | rfl := h.resolve_left hb <;> rfl
    · subst h1
      rfl
    · rw [scanCapture_boundary s h]
      exact s.bit_boundary.1
    · rw [scanCapture_boundary s h]
      exact s.bit_boundary.2
    · rw [hsame h]
      exact ⟨fun _ _ => rfl, rfl⟩
    · obtain ⟨hp, hg, hr, F, G, l, z, e⟩ := hlost h
      refine ⟨hp, hg, hr, ?_⟩
      rw [e]
      exact sameRest_mk_hrv s _ _ _

end Sys2Proof
end

