-- ==== Sys2Proof/Proofs/BlackBoxControl.lean ====
section
/-! SUPPORT. What BBX_CTL does bit by bit, and the course of the dump region: the statement of O59. -/

namespace Sys2Proof.Machine

/-! ### Bytes of the configuration memory -/

/-- What a store to the configuration memory leaves: bytes past the end of the device are dropped. -/
theorem State.read_nvPut (a : Nat) (bs : List Byte) (s : State) (x : Nat) :
    (State.nvPut a bs s).nv.read x =
      if a ≤ x ∧ x < a + bs.length ∧ (s.hks.nvSize = 0 ∨ x < s.hks.nvSize) then bs.getD (x - a) 0 else s.nv.read x := by
  have hl : (bs.take (if s.hks.nvSize = 0 then bs.length else s.hks.nvSize - a)).length
      = min (if s.hks.nvSize = 0 then bs.length else s.hks.nvSize - a) bs.length := List.length_take
  simp only [State.nvPut, Mem.read_write, hl]
  by_cases hz : s.hks.nvSize = 0
  · simp [hz]
  · simp only [hz, if_false, false_or]
    by_cases hx : a ≤ x ∧ x < a + bs.length ∧ x < s.hks.nvSize
    · have hi : x - a < s.hks.nvSize - a := by omega
      rw [if_pos hx, if_pos (by omega), List.getD_eq_getElem?_getD, List.getElem?_take_of_lt hi, List.getD_eq_getElem?_getD]
    · rw [if_neg hx, if_neg (by omega)]

theorem State.nvSpoil_eq (a n : Nat) (s : State) : ∃ bs : List Byte, bs.length = n ∧ State.nvSpoil a n s = State.nvPut a bs { s with free := s.free + 1 } :=
  ⟨_, by rw [List.length_map, List.length_range], rfl⟩

/-- What is erased reads 0xFF, as far as the device goes. -/
theorem State.read_nvErase (a n : Nat) (s : State) (x : Nat) :
    (State.nvErase a n s).nv.read x = if a ≤ x ∧ x < a + n ∧ (s.hks.nvSize = 0 ∨ x < s.hks.nvSize) then 255 else s.nv.read x := by
  rw [State.nvErase, State.read_nvPut, List.length_replicate]
  by_cases h : a ≤ x ∧ x < a + n ∧ (s.hks.nvSize = 0 ∨ x < s.hks.nvSize)
  · have hi : x - a < n := by omega
    rw [if_pos h, if_pos h, List.getD_eq_getElem?_getD, List.getElem?_replicate_of_lt hi]
    rfl
  · rw [if_neg h, if_neg h]

/-- Storing and spoiling reach their own range only. -/
theorem State.read_nvPut_out {a x : Nat} (bs : List Byte) (s : State) (h : x < a ∨ a + bs.length ≤ x) : (State.nvPut a bs s).nv.read x = s.nv.read x := by
  rw [State.read_nvPut, if_neg (by omega)]

theorem State.read_nvSpoil_out {a n x : Nat} (s : State) (h : x < a ∨ a + n ≤ x) : (State.nvSpoil a n s).nv.read x = s.nv.read x := by
  obtain ⟨bs, hl, e⟩ := State.nvSpoil_eq a n s
  rw [e, State.read_nvPut_out bs _ (by omega)]

end Sys2Proof.Machine

namespace Sys2Proof

open Machine

/-! ### Command words -/

/-- A bit of a word in which bit `k` has been set. -/
theorem or_bit (n k i : Nat) : (n ||| 2 ^ k) / 2 ^ i % 2 = if i = k then 1 else n / 2 ^ i % 2 := by
  rw [← Nat.toNat_testBit, ← Nat.toNat_testBit, Nat.testBit_or, Nat.testBit_two_pow]
  by_cases h : i = k
  · simp [h]
  · simp [h, Ne.symm h]

/-- The part of a word above a bit that has been set. -/
theorem or_high {k m : Nat} (n : Nat) (h : k < m) : (n ||| 2 ^ k) / 2 ^ m = n / 2 ^ m := by
  rw [Nat.or_div_two_pow, Nat.div_eq_of_lt (Nat.pow_lt_pow_right (by decide) h), Nat.or_zero]

/-- A write of a command word, of which nothing is stored. -/
theorem portWrite_command {s : State} {p : Port} {a v : Nat} (h : Reaches p a s) (hv : v < 2 ^ 32) (ha : a < 0x140000) (h4 : a % 4 = 0)
    (hc : s.closed a = false) (hi : s.ignored a = false) (hl : (regAt a).map (fun x => softFlds (x.1.flds x.2.1 x.2.2)) = some []) :
    ∃ b q, State.portWrite p a 15 v s = { State.effect p a v 0xFFFFFFFF { s with hrv := { s.hrv with l12 := b } }
      { s with hrv := { s.hrv with l12 := b } } with irqSeen := q } := by
  obtain ⟨b, e⟩ := s.usedBy_moves p
  rw [portWrite_stores p a v s [] h hv ha h4 hc hi hl, stored, List.foldl_nil, e]
  exact ⟨b, State.reSignal_moves a _⟩

theorem portWrite_bbx {s : State} {p : Port} {v : Nat} (h : Reaches p BBX_CTL_key.addr s) (hv : v < 2 ^ 32) :
    ∃ b q, State.portWrite p BBX_CTL_key.addr 15 v s = { State.bbxCtl v { s with hrv := { s.hrv with l12 := b } } with irqSeen := q } :=
  portWrite_command h hv (by decide) (by decide) (by simp [State.closed, BBX_CTL_key]) rfl rfl

/-- The bits of BBX_CTL that a word sets. -/
theorem bbxCtl_eq (v : Nat) (s : State) : State.bbxCtl v s =
    let s1 := if v % 2 = 1 then s.bbxHostFreeze else s
    let s2 := if v / 2 % 2 = 1 then s1.bbxUnfreeze else s1
    let s3 := if v / 4 % 2 = 1 ∧ v / 2 ^ 16 % 2 ^ 16 = 0xB10C then s2.bbxClear else s2
    if v / 8 % 2 = 1 then s3.bbxPrep else s3 := by
  simp only [State.bbxCtl, Fld.of, BBX_CTL_freeze, BBX_CTL_unfreeze, BBX_CTL_clear, BBX_CTL_prep, BBX_CTL_key, Nat.pow_zero, Nat.div_one]
  rfl

theorem word_or_lt (v : Word) {k : Nat} (h : k < 32) : v.toNat ||| 2 ^ k < 2 ^ 32 :=
  Nat.or_lt_two_pow v.isLt (Nat.pow_lt_pow_right (by decide) h)

/-- What each bit does when it is the only one written. -/
theorem bbxCtl_freeze (v : Word) (s : State) (h : v.toNat / 2 % 8 = 0) : State.bbxCtl (v.toNat ||| 1) s = s.bbxHostFreeze := by
  have b0 : (v.toNat ||| 1) % 2 = 1 := by simpa using or_bit v.toNat 0 0
  have b1 : (v.toNat ||| 1) / 2 % 2 = v.toNat / 2 % 2 := or_bit v.toNat 0 1
  have b2 : (v.toNat ||| 1) / 4 % 2 = v.toNat / 4 % 2 := or_bit v.toNat 0 2
  have b3 : (v.toNat ||| 1) / 8 % 2 = v.toNat / 8 % 2 := or_bit v.toNat 0 3
  rw [bbxCtl_eq]
  dsimp only
  rw [if_neg (by omega), if_neg (by omega), if_neg (by omega), if_pos (by omega)]

theorem bbxCtl_unfreeze (v : Word) (s : State) (h0 : v.toNat % 2 = 0) (h : v.toNat / 4 % 4 = 0) :
    State.bbxCtl (v.toNat ||| 2) s = s.bbxUnfreeze := by
  have b0 : (v.toNat ||| 2) % 2 = v.toNat % 2 := by simpa using or_bit v.toNat 1 0
  have b1 : (v.toNat ||| 2) / 2 % 2 = 1 := or_bit v.toNat 1 1
  have b2 : (v.toNat ||| 2) / 4 % 2 = v.toNat / 4 % 2 := or_bit v.toNat 1 2
  have b3 : (v.toNat ||| 2) / 8 % 2 = v.toNat / 8 % 2 := or_bit v.toNat 1 3
  rw [bbxCtl_eq]
  dsimp only
  rw [if_neg (by omega), if_neg (by omega), if_pos (by omega), if_neg (by omega)]

theorem bbxCtl_clear (v : Word) (s : State) (h0 : v.toNat % 4 = 0) (h : v.toNat / 8 % 2 = 0) :
    State.bbxCtl (v.toNat ||| 4) s = if v.toNat / 2 ^ 16 = 0xB10C then s.bbxClear else s := by
  have b0 : (v.toNat ||| 4) % 2 = v.toNat % 2 := by simpa using or_bit v.toNat 2 0
  have b1 : (v.toNat ||| 4) / 2 % 2 = v.toNat / 2 % 2 := or_bit v.toNat 2 1
  have b2 : (v.toNat ||| 4) / 4 % 2 = 1 := or_bit v.toNat 2 2
  have b3 : (v.toNat ||| 4) / 8 % 2 = v.toNat / 8 % 2 := or_bit v.toNat 2 3
  have hk : (v.toNat ||| 4) / 2 ^ 16 = v.toNat / 2 ^ 16 := or_high (k := 2) v.toNat (by decide)
  have hv := v.isLt
  rw [bbxCtl_eq]
  dsimp only
  rw [if_neg (show ¬(v.toNat ||| 4) / 8 % 2 = 1 by omega), if_neg (show ¬(v.toNat ||| 4) / 2 % 2 = 1 by omega),
    if_neg (show ¬(v.toNat ||| 4) % 2 = 1 by omega), hk]
  exact if_congr (by omega) rfl rfl

theorem bbxCtl_prep (v : Word) (s : State) (h : v.toNat % 8 = 0) : State.bbxCtl (v.toNat ||| 8) s = s.bbxPrep := by
  have b0 : (v.toNat ||| 8) % 2 = v.toNat % 2 := by simpa using or_bit v.toNat 3 0
  have b1 : (v.toNat ||| 8) / 2 % 2 = v.toNat / 2 % 2 := or_bit v.toNat 3 1
  have b2 : (v.toNat ||| 8) / 4 % 2 = v.toNat / 4 % 2 := or_bit v.toNat 3 2
  have b3 : (v.toNat ||| 8) / 8 % 2 = 1 := or_bit v.toNat 3 3
  rw [bbxCtl_eq]
  dsimp only
  rw [if_pos (by omega), if_neg (by omega), if_neg (by omega), if_neg (by omega)]

/-! ### Freezing and preparing -/

/-- A freeze by the host of a store that is frozen is refused like any entry. -/
theorem bbxHostFreeze_frozen {s : State} (h : s.on BBX_STAT_frozen = true) : s.bbxHostFreeze = s.addSat BBX_LOST_value 1 := by
  have he : s.bbox 0xFE 0 0 = s.addSat BBX_LOST_value 1 := by rw [State.bbox, if_pos h]
  have hf : (s.addSat BBX_LOST_value 1).on BBX_STAT_frozen = true := by
    rw [State.on, State.addSat, State.rd_wr_ne _ _ _ _ (by decide)]
    exact h
  rw [State.bbxHostFreeze, he, State.bbxFreeze, if_pos hf]

theorem rd_bbxFreeze {s : State} (cause : Nat) (h : s.on BBX_STAT_frozen = false) :
    (s.bbxFreeze cause).rd BBX_STAT_frozen = 1 ∧ (s.bbxFreeze cause).rd BBX_STAT_freeze_cause = cause % 8
      ∧ bit ((s.bbxFreeze cause).rd BBX_EVT_bits) 0 = true := by
  rw [State.bbxFreeze, if_neg (by simp [h])]
  refine ⟨?_, ?_, ?_⟩ <;> rw [State.rd_raiseEvent _ _ (by decide)]
  · rw [State.orF]
    simp (disch := decide) only [State.rd_wr_ne, State.rd_wr_same]
    rfl
  · rw [State.orF]
    simp (disch := decide) only [State.rd_wr_ne, State.rd_wr_same]
    rfl
  · exact bit_rd_orF _ BBX_EVT_bits 0 (by decide)

theorem bbxHostFreeze_open {s : State} (h : s.on BBX_STAT_frozen = false) :
    s.bbxHostFreeze.rd BBX_STAT_frozen = 1 ∧ s.bbxHostFreeze.rd BBX_STAT_freeze_cause = 4
      ∧ (∃ e, s.bbxHostFreeze.bbx.live.head? = some e ∧ e.code = 0xFE) ∧ bit (s.bbxHostFreeze.rd BBX_EVT_bits) 0 = true := by
  have hf : (s.bbox 0xFE 0 0).on BBX_STAT_frozen = false := by
    rw [State.on, State.rd_bbox _ _ _ _ (by decide)]
    exact h
  obtain ⟨h1, h2, h3⟩ := rd_bbxFreeze 4 hf
  refine ⟨h1, h2, ?_, h3⟩
  have hb : s.bbxHostFreeze.bbx = (s.bbox 0xFE 0 0).bbx := by
    rw [State.bbxHostFreeze, State.bbxFreeze, if_neg (by simp [hf]), State.raiseEvent_bbx]
    rfl
  rw [hb, State.bbox, if_neg (by simp [h])]
  exact ⟨_, rfl, rfl⟩

/-- BBX_CTL.freeze, written alone. -/
theorem bbxFreeze_answers {s : State} {p : Port} {v : Word} (h : Reaches p BBX_CTL_key.addr s) (hv : v.toNat / 2 % 8 = 0) :
    Answers (.bbxFreeze p v) s fun u => u.rd BBX_STAT_frozen = 1
      ∧ (s.on BBX_STAT_frozen = false → u.rd BBX_STAT_freeze_cause = 4 ∧ (∃ e, u.bbx.live.head? = some e ∧ e.code = 0xFE)
          ∧ bit (u.rd BBX_EVT_bits) 0 = true)
      ∧ (s.on BBX_STAT_frozen = true → u.rd BBX_LOST_value = min (s.rd BBX_LOST_value + 1) (2 ^ 32 - 1) ∧ SameRegs s u [BBX_LOST_value]
          ∧ SameRest s u) := by
  refine Answers.of_perform (exec_bbxFreeze _ _ _) h.1 ?_
  obtain ⟨b, q, e⟩ := portWrite_bbx h (word_or_lt v (k := 0) (by decide))
  have e' : State.portWrite p BBX_CTL_key.addr 15 (v.toNat ||| 1) s = _ := e
  rw [e', show v.toNat ||| 2 ^ 0 = v.toNat ||| 1 from rfl, bbxCtl_freeze v _ hv]
  generalize hw : ({ s with hrv := { s.hrv with l12 := b } } : State) = w
  have hr : ∀ f, w.rd f = s.rd f := fun f => by rw [← hw]; rfl
  have ho : w.on BBX_STAT_frozen = s.on BBX_STAT_frozen := by rw [State.on, hr, State.on]
  by_cases hf : s.on BBX_STAT_frozen = true
  · rw [bbxHostFreeze_frozen (ho.trans hf)]
    refine ⟨?_, fun h => absurd hf (by simp [h]), fun _ => ⟨?_, fun f hf => ?_, ?_⟩⟩
    · rw [State.rd_mk, State.addSat, State.rd_wr_ne _ _ _ _ (by decide), hr]
      simpa [State.on] using hf
    · rw [State.rd_mk, State.addSat, State.rd_wr_same, hr]
      exact Nat.mod_eq_of_lt (lt_of_le_of_lt (Nat.min_le_right _ _) (by decide))
    · rw [State.rd_mk, State.addSat, State.rd_wr_ne _ _ _ _ fun x => hf (by simp [x]), hr]
    · rw [← hw]
      exact sameRest_mk s _ _ _ _
  · obtain ⟨h1, h2, h3, h4⟩ := bbxHostFreeze_open (ho.trans (by simpa using hf))
    exact ⟨h1, fun _ => ⟨h2, h3, h4⟩, fun h => absurd h hf⟩

/-- BBX_CTL.unfreeze, written alone. -/
theorem bbxUnfreeze_answers {s : State} {p : Port} {v : Word} (h : Reaches p BBX_CTL_key.addr s) (h0 : v.toNat % 2 = 0) (hv : v.toNat / 4 % 4 = 0) :
    (s.rd BBX_STAT_freeze_cause ≠ 3 → Answers (.bbxUnfreeze p v) s fun u =>
        u.rd BBX_STAT_frozen = 0 ∧ u.rd BBX_STAT_freeze_cause = 0 ∧ SameRegs s u [BBX_STAT_frozen, BBX_STAT_freeze_cause] ∧ SameRest s u)
      ∧ (s.rd BBX_STAT_freeze_cause = 3 → Answers (.bbxUnfreeze p v) s fun u => SameRegs s u [] ∧ SameRest s u) := by
  obtain ⟨b, q, e⟩ := portWrite_bbx h (word_or_lt v (k := 1) (by decide))
  have e' : State.portWrite p BBX_CTL_key.addr 15 (v.toNat ||| 2) s = _ := e
  rw [show v.toNat ||| 2 ^ 1 = v.toNat ||| 2 from rfl, bbxCtl_unfreeze v _ h0 hv] at e'
  refine ⟨fun hc => Answers.of_perform (exec_bbxUnfreeze _ _ _) h.1 ?_, fun hc => Answers.of_perform (exec_bbxUnfreeze _ _ _) h.1 ?_⟩
  · rw [e', State.bbxUnfreeze, if_neg (by exact hc), State.bbxThaw]
    refine ⟨?_, ?_, fun f hf => ?_, sameRest_mk s _ _ _ _⟩
    · rw [State.rd_mk, State.rd_wr_ne _ _ _ _ (by decide), State.rd_wr_same]
      rfl
    · rw [State.rd_mk, State.rd_wr_same]
      rfl
    · simp only [List.map_cons, List.map_nil, List.mem_cons, List.not_mem_nil, or_false, not_or] at hf
      rw [State.rd_mk, State.rd_wr_ne _ _ _ _ (Ne.symm hf.2), State.rd_wr_ne _ _ _ _ (Ne.symm hf.1), State.rd_mk]
  · rw [e', State.bbxUnfreeze, if_pos (by exact hc)]
    exact ⟨fun _ _ => rfl, sameRest_mk s _ _ _ _⟩

/-- BBX_CTL.clear, written alone. -/
theorem bbxClear_answers {s : State} {p : Port} {v : Word} (h : Reaches p BBX_CTL_key.addr s) (h0 : v.toNat % 4 = 0) (hv : v.toNat / 8 % 2 = 0) :
    (v.toNat / 2 ^ 16 = 0xB10C → Answers (.bbxClear p v) s fun u =>
        u.bbx = { s.bbx with live := [] } ∧ u.rd BBX_STAT_count = 0 ∧ u.rd BBX_HEAD_value = 0
          ∧ SameRegs s u [BBX_STAT_count, BBX_HEAD_value] ∧ SameRest s { u with bbx := s.bbx })
      ∧ (v.toNat / 2 ^ 16 ≠ 0xB10C → Answers (.bbxClear p v) s fun u => SameRegs s u [] ∧ SameRest s u) := by
  obtain ⟨b, q, e⟩ := portWrite_bbx h (word_or_lt v (k := 2) (by decide))
  have e' : State.portWrite p BBX_CTL_key.addr 15 (v.toNat ||| 4) s = _ := e
  rw [show v.toNat ||| 2 ^ 2 = v.toNat ||| 4 from rfl, bbxCtl_clear v _ h0 hv] at e'
  refine ⟨fun hc => Answers.of_perform (exec_bbxClear _ _ _) h.1 ?_, fun hc => Answers.of_perform (exec_bbxClear _ _ _) h.1 ?_⟩
  · rw [e', if_pos hc, State.bbxClear]
    refine ⟨rfl, ?_, ?_, fun f hf => ?_, sameRest_mk s _ _ _ _⟩
    · rw [State.rd_mk, State.rd_wr_ne _ _ _ _ (by decide), State.rd_wr_same]
      rfl
    · rw [State.rd_mk, State.rd_wr_same]
      rfl
    · simp only [List.map_cons, List.map_nil, List.mem_cons, List.not_mem_nil, or_false, not_or] at hf
      rw [State.rd_mk, State.rd_wr_ne _ _ _ _ (Ne.symm hf.2), State.rd_wr_ne _ _ _ _ (Ne.symm hf.1), State.rd_mk]
      rfl
  · rw [e', if_neg hc]
    exact ⟨fun _ _ => rfl, sameRest_mk s _ _ _ _⟩

/-- Preparing the region, by whether it may start. -/
theorem bbxPrep_cases (s : State) :
    (s.hks.bbxOfs = none → s.bbxPrep = s)
      ∧ (s.hks.bbxOfs ≠ none → s.on BBX_CFG_overwrite = true → s.bbxPrep = s.wr BBX_STAT_nv_state 1)
      ∧ (s.on BBX_CFG_overwrite = false → s.on HKS_NV_CTL_busy = true ∨ s.hks.step = 4 → s.bbxPrep = s)
      ∧ (s.hks.bbxOfs ≠ none → s.on BBX_CFG_overwrite = false → s.on HKS_NV_CTL_busy = false → s.mode ≠ 0 → s.hks.rails = true → s.hks.step ≠ 4 →
          s.bbxPrep = { (s.wr BBX_STAT_nv_state 4).wr HKS_NV_CTL_busy 1 with bbx := { s.bbx with prep := true } }) := by
  cases ho : s.hks.bbxOfs with
  | none =>
    have e : s.bbxPrep = s := by rw [State.bbxPrep, ho]
    exact ⟨fun _ => e, nofun, fun _ _ => e, nofun⟩
  | some a =>
    refine ⟨nofun, fun _ hw => ?_, fun hw hb => ?_, fun _ hw hb hm hr hs => ?_⟩
    · rw [State.bbxPrep, ho]
      exact if_pos hw
    · rw [State.bbxPrep, ho]
      dsimp only
      rw [if_neg (by simp [hw]), if_pos (hb.elim .inl fun h => .inr (.inr (.inr h)))]
    · rw [State.bbxPrep, ho]
      dsimp only
      rw [if_neg (by simp [hw]), if_neg (by simp [hb, hm, hr, hs])]

/-- BBX_CTL.prep, written alone. -/
theorem bbxPrep_answers {s : State} {p : Port} {v : Word} (t : Nat) (h : Reaches p BBX_CTL_key.addr s) (hv : v.toNat % 8 = 0) :
    (s.hks.bbxOfs ≠ none → s.on BBX_CFG_overwrite = true → Answers (.bbxPrep p v t) s fun u =>
        u.rd BBX_STAT_nv_state = 1 ∧ TimeAt s u t ∧ SameRegs s u [BBX_STAT_nv_state] ∧ SameRest s u)
      ∧ (s.hks.bbxOfs ≠ none → s.on BBX_CFG_overwrite = false → s.on HKS_NV_CTL_busy = false → s.hks.rails = true → s.hks.step ≠ 4 →
          Answers (.bbxPrep p v t) s fun u =>
        u.rd BBX_STAT_nv_state = 4 ∧ u.rd HKS_NV_CTL_busy = 1 ∧ u.bbx = { s.bbx with prep := true } ∧ TimeAt s u t
          ∧ SameRegs s u [BBX_STAT_nv_state, HKS_NV_CTL_busy] ∧ SameRest s { u with bbx := s.bbx })
      ∧ (s.hks.bbxOfs = none ∨ s.on BBX_CFG_overwrite = false ∧ s.on HKS_NV_CTL_busy = true → Answers (.bbxPrep p v t) s fun u =>
        TimeAt s u t ∧ SameRegs s u [] ∧ SameRest s u) := by
  have hm : s.mode ≠ 0 := by
    have := h.2.1
    simp only [State.coreRun, Bool.and_eq_true, decide_eq_true_eq] at this
    exact this.1
  obtain ⟨b, q, e⟩ := portWrite_bbx (h.advance t) (word_or_lt v (k := 3) (by decide))
  have e' : State.writeAt p BBX_CTL_key.addr (v.toNat ||| 8) t s = _ := e
  rw [show v.toNat ||| 2 ^ 3 = v.toNat ||| 8 from rfl, bbxCtl_prep v _ hv] at e'
  obtain ⟨k, hk, hkt⟩ := s.advance_moves t
  rw [hk] at e'
  obtain ⟨c1, c2, c3, c4⟩ := bbxPrep_cases { s with tmb := k, hrv := { s.hrv with l12 := b } }
  refine ⟨fun ho hw => Answers.of_performAt (exec_bbxPrep _ _ _ _) h.1 ?_, fun ho hw hb hr hs => Answers.of_performAt (exec_bbxPrep _ _ _ _) h.1 ?_,
    fun hc => Answers.of_performAt (exec_bbxPrep _ _ _ _) h.1 ?_⟩
  · rw [e', c2 ho hw]
    refine ⟨?_, hkt, fun f hf => ?_, sameRest_mk s _ _ _ _⟩
    · rw [State.rd_mk, State.rd_wr_same]
      rfl
    · rw [State.rd_mk, State.rd_wr_ne _ _ _ _ fun x => hf (by simp [x]), State.rd_mk]
  · rw [e', c4 ho hw hb hm hr hs]
    refine ⟨?_, ?_, rfl, hkt, fun f hf => ?_, sameRest_mk s _ _ _ _⟩
    · rw [State.rd_mk, State.rd_mk, State.rd_wr_ne _ _ _ _ (by decide), State.rd_wr_same]
      rfl
    · rw [State.rd_mk, State.rd_mk, State.rd_wr_same]
      rfl
    · simp only [List.map_cons, List.map_nil, List.mem_cons, List.not_mem_nil, or_false, not_or] at hf
      rw [State.rd_mk, State.rd_mk, State.rd_wr_ne _ _ _ _ (Ne.symm hf.2), State.rd_wr_ne _ _ _ _ (Ne.symm hf.1), State.rd_mk]
  · have hn : ({ s with tmb := k, hrv := { s.hrv with l12 := b } } : State).bbxPrep = { s with tmb := k, hrv := { s.hrv with l12 := b } } :=
      hc.elim c1 fun x => c3 x.1 (.inl x.2)
    rw [e', hn]
    exact ⟨hkt, fun _ _ => rfl, sameRest_mk s _ _ _ _⟩

/-! ### The region -/

/-- What the region's state is makes of a store that is not to be overwritten. -/
theorem regionState_cases (s : State) (b : List Byte) :
    (s.regionState b = 1 ∨ s.regionState b = 2 ∨ s.regionState b = 3) ∧ (s.regionState b ≠ 1 → s.on BBX_CFG_overwrite = false) := by
  rw [State.regionState]
  split
  · exact ⟨.inl rfl, fun h => absurd rfl h⟩
  · next h =>
    have ho : s.on BBX_CFG_overwrite = false := by
      simp only [Bool.or_eq_true, not_or, Bool.not_eq_true] at h
      exact h.1
    split
    · exact ⟨.inr (.inl rfl), fun _ => ho⟩
    · exact ⟨.inr (.inr rfl), fun _ => ho⟩

/-- The region as it has been classified, and loaded where it holds a dump. -/
def State.regionRead (s : State) (a : Nat) : State :=
  let b := s.nv.bytes a 65536
  let s1 := s.wr BBX_STAT_nv_state (s.regionState b)
  if s.regionState b = 2 ∧ s.on BBX_CFG_load = true then
    (({ s1 with bbx := { s.bbx with prev := dumpEntries b } }).wr BBX_STAT_prev_valid 1).orF BBX_EVT_bits 8
  else s1

/-- The registers that reading the region writes. -/
def regionFlds : List Fld := [BBX_STAT_nv_state, BBX_STAT_prev_valid, BBX_EVT_bits]

theorem State.regionRead_keeps (s : State) (a : Nat) :
    let b := s.nv.bytes a 65536
    let loads := s.regionState b = 2 ∧ s.on BBX_CFG_load = true
    (State.regionRead s a).rd BBX_STAT_nv_state = s.regionState b
      ∧ (loads → (State.regionRead s a).bbx = { s.bbx with prev := dumpEntries b } ∧ (State.regionRead s a).rd BBX_STAT_prev_valid = 1
          ∧ bit ((State.regionRead s a).rd BBX_EVT_bits) 3 = true)
      ∧ (¬loads → (State.regionRead s a).bbx = s.bbx)
      ∧ SameRegs s (State.regionRead s a) regionFlds ∧ ∃ F B, State.regionRead s a = { s with fields := F, bbx := B } := by
  dsimp only
  have h8 : s.regionState (s.nv.bytes a 65536) % 8 = s.regionState (s.nv.bytes a 65536) := by
    have := (regionState_cases s (s.nv.bytes a 65536)).1
    omega
  rw [State.regionRead]
  dsimp only
  generalize s.regionState (s.nv.bytes a 65536) = st at *
  generalize dumpEntries (s.nv.bytes a 65536) = ps at *
  have hs : SameRegs s (s.wr BBX_STAT_nv_state st) regionFlds := (SameRegs.refl s _).wr _ _ (by decide)
  split
  · next h =>
    refine ⟨?_, fun _ => ⟨rfl, ?_, bit_rd_orF _ BBX_EVT_bits 3 (by decide)⟩, fun hn => absurd h hn, ?_, ⟨_, _, rfl⟩⟩
    · simp (disch := decide) only [State.orF, State.rd_wr_ne, State.rd_mk, State.rd_wr_same]
      exact h8
    · simp (disch := decide) only [State.orF, State.rd_wr_ne, State.rd_wr_same]
      rfl
    · rw [State.orF, sameRegs_wr _ (by decide), sameRegs_wr _ (by decide)]
      exact hs
  · next h =>
    refine ⟨?_, fun hn => absurd hn h, fun _ => rfl, hs, ⟨_, s.bbx, rfl⟩⟩
    rw [State.rd_wr_same]
    exact h8

theorem bbxRead_eq {s : State} (t : Nat) (hl : s.lands = true) (hd : s.on HKS_BOOT_done = true) (hm : s.mode ≠ 0) (hp : s.bbx.prep = false)
    (hb : s.on HKS_NV_CTL_busy = false) :
    (s.hks.bbxOfs = none → State.bbxRead t s = (s.advance t).wr BBX_STAT_nv_state 0)
      ∧ ∀ a, s.hks.bbxOfs = some a → State.bbxRead t s =
          if 2 ≤ s.regionState (s.nv.bytes a 65536) ∧ s.on BBX_CFG_auto_prep = true then (State.regionRead (s.advance t) a).bbxPrep
          else State.regionRead (s.advance t) a := by
  obtain ⟨k, hk, -⟩ := s.advance_moves t
  have hgo : ¬(!(s.advance t).on HKS_BOOT_done ∨ (s.advance t).mode = 0 ∨ (s.advance t).bbx.prep ∨ (s.advance t).on HKS_NV_CTL_busy
      ∨ !(s.advance t).lands) := by
    rw [hk]
    simp only [not_or]
    exact ⟨by rw [show ({ s with tmb := k } : State).on HKS_BOOT_done = s.on HKS_BOOT_done from rfl, hd]; decide, hm, by rw [hp]; decide,
      by rw [show ({ s with tmb := k } : State).on HKS_NV_CTL_busy = s.on HKS_NV_CTL_busy from rfl, hb]; decide,
      by rw [show ({ s with tmb := k } : State).lands = s.lands from rfl, hl]; decide⟩
  refine ⟨fun ho => ?_, fun a ho => ?_⟩
  · have ho' : (s.advance t).hks.bbxOfs = none := by rw [State.advance_hks, ho]
    rw [State.bbxRead]
    dsimp only
    rw [if_neg hgo, ho']
  · have ho' : (s.advance t).hks.bbxOfs = some a := by rw [State.advance_hks, ho]
    have hauto : (State.regionRead (s.advance t) a).on BBX_CFG_auto_prep = s.on BBX_CFG_auto_prep := by
      rw [State.on, (State.regionRead_keeps (s.advance t) a).2.2.2.1 _ (by decide), State.rd_advance, State.on]
    have hst : (s.advance t).regionState ((s.advance t).nv.bytes a 65536) = s.regionState (s.nv.bytes a 65536) := by rw [hk]; rfl
    have hload : ((s.advance t).wr BBX_STAT_nv_state ((s.advance t).regionState ((s.advance t).nv.bytes a 65536))).on BBX_CFG_load
        = (s.advance t).on BBX_CFG_load := by rw [State.on, State.rd_wr_ne _ _ _ _ (by decide), State.on]
    rw [State.bbxRead]
    dsimp only
    rw [if_neg hgo, ho']
    dsimp only
    rw [hload, ← hst, ← hauto]
    rfl

/-- Reading the region, once boot is done. -/
theorem bbxRegionRead_answers {s : State} {t : Nat} (hp : Powered s) (hl : s.lands = true) (hd : s.on HKS_BOOT_done = true) (hm : s.mode ≠ 0)
    (hn : s.bbx.prep = false) (hb : s.on HKS_NV_CTL_busy = false) :
    (s.hks.bbxOfs = none → Answers (.bbxRegionRead t) s fun u => u.rd BBX_STAT_nv_state = 0 ∧ TimeAt s u t
        ∧ SameRegs s u [BBX_STAT_nv_state] ∧ SameRest s u)
      ∧ ∀ a, s.hks.bbxOfs = some a →
        let b := s.nv.bytes a 65536
        let st := s.regionState b
        (st = 1 ∨ s.on BBX_CFG_auto_prep = false ∨ s.hks.step = 4 → Answers (.bbxRegionRead t) s fun u => u.rd BBX_STAT_nv_state = st
            ∧ (st = 2 → s.on BBX_CFG_load = true → u.bbx.prev = dumpEntries b ∧ u.rd BBX_STAT_prev_valid = 1
                ∧ bit (u.rd BBX_EVT_bits) 3 = true)
            ∧ (st ≠ 2 ∨ s.on BBX_CFG_load = false → u.bbx = s.bbx) ∧ TimeAt s u t)
          ∧ (st ≠ 1 → s.on BBX_CFG_auto_prep = true → s.hks.step ≠ 4 → Answers (.bbxRegionRead t) s fun u =>
            u.rd BBX_STAT_nv_state = 4 ∧ u.bbx.prep = true ∧ u.rd HKS_NV_CTL_busy = 1
              ∧ (st = 2 → s.on BBX_CFG_load = true → u.bbx.prev = dumpEntries b) ∧ TimeAt s u t) := by
  obtain ⟨e1, e2⟩ := bbxRead_eq t hl hd hm hn hb
  obtain ⟨k, hk, hkt⟩ := s.advance_moves t
  refine ⟨fun ho => Answers.of_performOnAt (exec_bbxRegionRead _ _) hp ?_, fun a ho => ?_⟩
  · rw [e1 ho, hk]
    refine ⟨State.rd_wr_same _ _ _, hkt, fun f hf => ?_, sameRest_mk s _ _ _ _⟩
    rw [State.rd_wr_ne _ _ _ _ fun x => hf (by simp [x]), State.rd_mk]
  · dsimp only
    obtain ⟨r1, r2, r3, r4, F, B, r5⟩ := State.regionRead_keeps (s.advance t) a
    have hst : (s.advance t).regionState ((s.advance t).nv.bytes a 65536) = s.regionState (s.nv.bytes a 65536) := by rw [hk]; rfl
    have hld : (s.advance t).on BBX_CFG_load = s.on BBX_CFG_load := by rw [State.on, State.rd_advance, State.on]
    have hnv : (s.advance t).nv = s.nv := by rw [hk]
    have hbx : (s.advance t).bbx = s.bbx := by rw [hk]
    obtain ⟨hcases, hover⟩ := regionState_cases s (s.nv.bytes a 65536)
    have hrt : TimeAt s (State.regionRead (s.advance t) a) t := by
      rw [r5, hk]
      exact hkt
    rw [hst, hld] at r2 r3
    rw [hnv] at r2
    rw [hst] at r1
    have eq := e2 a ho
    generalize s.regionState (s.nv.bytes a 65536) = st at *
    generalize dumpEntries (s.nv.bytes a 65536) = ps at *
    generalize hu : State.regionRead (s.advance t) a = u at *
    have hur : ∀ f : Fld, f.key ∉ regionFlds.map Fld.key → u.rd f = s.rd f := fun f hf => (r4 f hf).trans (State.rd_advance _ _ _)
    have huo : ∀ f : Fld, f.key ∉ regionFlds.map Fld.key → u.on f = s.on f := fun f hf => by rw [State.on, hur f hf, State.on]
    have huh : u.hks = s.hks := by rw [r5, hk]
    obtain ⟨c1, c2, c3, c4⟩ := bbxPrep_cases u
    refine ⟨fun hno => Answers.of_performOnAt (exec_bbxRegionRead _ _) hp ?_, fun h1 ha hs => Answers.of_performOnAt (exec_bbxRegionRead _ _) hp ?_⟩
    · have he : State.bbxRead t s = u := by
        rw [eq]
        split
        · next h =>
          exact c3 ((huo _ (by decide)).trans (hover (by omega))) (.inr (huh ▸ (hno.resolve_left (by omega)).resolve_left (by simp [h.2])))
        · rfl
      rw [he]
      refine ⟨r1, fun h2 hw => ?_, fun h => ?_, hrt⟩
      · obtain ⟨q1, q2, q3⟩ := r2 ⟨h2, hw⟩
        exact ⟨(congrArg Bbx.prev q1 :), q2, q3⟩
      · exact (r3 fun x => h.elim (fun y => y x.1) fun y => Bool.false_ne_true (y.symm.trans x.2)).trans hbx
    · have he := c4 (by rw [huh, ho]; nofun) ((huo _ (by decide)).trans (hover h1)) ((huo _ (by decide)).trans hb)
        (by rw [State.mode, hur _ (by decide)]; exact hm) (by rw [huh]; exact hp.2) (by rw [huh]; exact hs)
      rw [eq, if_pos ⟨by omega, ha⟩, he]
      refine ⟨?_, rfl, ?_, fun h2 hw => ?_, hrt⟩
      · rw [State.rd_mk, State.rd_wr_ne _ _ _ _ (by decide), State.rd_wr_same]
        rfl
      · rw [State.rd_mk, State.rd_wr_same]
        rfl
      · exact (congrArg Bbx.prev (r2 ⟨h2, hw⟩).1 :)

/-- The end of preparing. -/
theorem bbxPrepDone_answers {s : State} {t a : Nat} (ok : Bool) (hp : Powered s) (hl : s.lands = true) (hn : s.bbx.prep = true)
    (ho : s.hks.bbxOfs = some a) :
    Answers (.bbxPrepDone ok t) s fun u =>
      u.bbx = { s.bbx with prep := false } ∧ u.rd HKS_NV_CTL_busy = 0 ∧ TimeAt s u t
        ∧ (∀ x, x < a ∨ a + 65536 ≤ x → u.nv.read x = s.nv.read x)
        ∧ (ok = true → u.rd BBX_STAT_nv_state = 1
            ∧ ∀ x, a ≤ x → x < a + 65536 → s.hks.nvSize = 0 ∨ x < s.hks.nvSize → u.nv.read x = 255)
        ∧ (ok = false → u.rd BBX_STAT_nv_state = 3 ∧ bit (u.rd BBX_EVT_bits) 2 = true)
        ∧ SameRegs s u [HKS_NV_CTL_busy, BBX_STAT_nv_state, BBX_EVT_bits] := by
  refine Answers.of_performOnAt (exec_bbxPrepDone _ _ _) hp ?_
  obtain ⟨k, hk, hkt⟩ := s.advance_moves t
  have hgo : ¬(!(s.advance t).bbx.prep ∨ !(s.advance t).lands) := by
    rw [hk, show ({ s with tmb := k } : State).lands = s.lands from rfl, show ({ s with tmb := k } : State).bbx = s.bbx from rfl, hn, hl]
    decide
  have hr : ∀ f, ({ (s.advance t).wr HKS_NV_CTL_busy 0 with bbx := { (s.advance t).bbx with prep := false } } : State).rd f
      = ((s.advance t).wr HKS_NV_CTL_busy 0).rd f := fun f => rfl
  have hs1 : SameRegs s { (s.advance t).wr HKS_NV_CTL_busy 0 with bbx := { (s.advance t).bbx with prep := false } }
      [HKS_NV_CTL_busy, BBX_STAT_nv_state, BBX_EVT_bits] := fun f hf => by
    rw [hr, State.rd_wr_ne _ _ _ _ fun x => hf (by simp [x]), State.rd_advance]
  have hb1 : ({ (s.advance t).wr HKS_NV_CTL_busy 0 with bbx := { (s.advance t).bbx with prep := false } } : State).rd HKS_NV_CTL_busy = 0 := by
    rw [hr, State.rd_wr_same]
    rfl
  have hofs : ((s.advance t).wr HKS_NV_CTL_busy 0).hks.bbxOfs.getD 0 = a := by
    rw [show ((s.advance t).wr HKS_NV_CTL_busy 0).hks = (s.advance t).hks from rfl, State.advance_hks, ho]
    rfl
  rw [State.bbxPrepDone]
  dsimp only
  rw [if_neg hgo, hofs]
  have hform : ∃ F, ({ (s.advance t).wr HKS_NV_CTL_busy 0 with bbx := { (s.advance t).bbx with prep := false } } : State)
      = { s with fields := F, tmb := k, bbx := { s.bbx with prep := false } } := by
    rw [hk]
    exact ⟨_, rfl⟩
  generalize ({ (s.advance t).wr HKS_NV_CTL_busy 0 with bbx := { (s.advance t).bbx with prep := false } } : State) = w at *
  obtain ⟨F, e⟩ := hform
  have hwn : w.nv = s.nv := by rw [e]
  have hwk : w.hks = s.hks := by rw [e]
  have hwb : w.bbx = { s.bbx with prep := false } := by rw [e]
  have hwt : w.tmb = k := by rw [e]
  clear hr hgo e
  cases ok with
  | true =>
    rw [if_pos rfl]
    refine ⟨hwb, ?_, ?_, fun x hx => ?_, fun _ => ⟨?_, fun x h1 h2 h3 => ?_⟩, nofun, fun f hf => ?_⟩
    · rw [State.rd_wr_ne _ _ _ _ (by decide)]
      exact hb1
    · show w.tmb.kt = _
      rw [hwt]
      exact hkt
    · show (State.nvErase a 65536 w).nv.read x = _
      rw [State.read_nvErase, if_neg (by omega), hwn]
    · rw [State.rd_wr_same]
      rfl
    · show (State.nvErase a 65536 w).nv.read x = _
      rw [State.read_nvErase, if_pos ⟨h1, h2, hwk ▸ h3⟩]
    · rw [State.rd_wr_ne _ _ _ _ fun x => hf (by simp [x])]
      exact hs1 f hf
  | false =>
    rw [if_neg (by decide)]
    refine ⟨hwb, ?_, ?_, fun x hx => ?_, nofun, fun _ => ⟨?_, bit_rd_orF _ BBX_EVT_bits 2 (by decide)⟩, fun f hf => ?_⟩
    · simp (disch := decide) only [State.orF, State.rd_wr_ne]
      exact hb1
    · show w.tmb.kt = _
      rw [hwt]
      exact hkt
    · show (State.nvSpoil a 65536 w).nv.read x = _
      rw [State.read_nvSpoil_out w hx, hwn]
    · simp (disch := decide) only [State.orF, State.rd_wr_ne, State.rd_wr_same]
      rfl
    · simp only [List.map_cons, List.map_nil, List.mem_cons, List.not_mem_nil, or_false, not_or] at hf
      rw [State.orF, State.rd_wr_ne _ _ _ _ (Ne.symm hf.2.2), State.rd_wr_ne _ _ _ _ (Ne.symm hf.2.1)]
      exact hs1 f (by simpa using hf)

/-- With the lands under test the region is neither read nor prepared. -/
theorem bbxRegion_scanned {s : State} {t : Nat} (hp : Powered s) (hl : s.lands = false) (ok : Bool) :
    Answers (.bbxRegionRead t) s (fun u => TimeAt s u t ∧ SameRegs s u [] ∧ SameRest s u)
      ∧ Answers (.bbxPrepDone ok t) s (fun u => TimeAt s u t ∧ SameRegs s u [] ∧ SameRest s u) := by
  have hl' : (s.advance t).lands = false := by
    obtain ⟨k, hk, -⟩ := s.advance_moves t
    rw [hk]
    exact hl
  refine ⟨Answers.of_performOnAt (exec_bbxRegionRead _ _) hp ?_, Answers.of_performOnAt (exec_bbxPrepDone _ _ _) hp ?_⟩
  · rw [State.bbxRead]
    dsimp only
    rw [if_pos (by simp [hl'])]
    exact unchanged_advance s t
  · rw [State.bbxPrepDone]
    dsimp only
    rw [if_pos (by simp [hl'])]
    exact unchanged_advance s t

/-- Settles O59: BBX_CTL bit by bit, the region as its bytes show it, and the two ends of its preparation. -/
theorem blackBox : Obligations.BlackBox := by
  unfold Obligations.BlackBox
  refine fun s t => ⟨fun p v h => ⟨bbxFreeze_answers h, bbxUnfreeze_answers h, bbxClear_answers h, bbxPrep_answers t h⟩,
    fun hp hl ok => bbxRegion_scanned hp hl ok, bbxRegionRead_answers, fun hp hl hn ok a => bbxPrepDone_answers ok hp hl hn⟩

end Sys2Proof
end

