-- ==== Sys2Proof/Proofs/ResidueAndLanes.lean ====
section
/-! SUPPORT. Residue mismatches and spare sampler lanes: the statement of O58. -/

namespace Sys2Proof

open Machine

/-! ### Counters and freezing -/

theorem rd_bump (s : State) (f : Fld) : (s.bump f).rd f = (s.rd f + 1) % 2 ^ f.w := State.rd_wr_same _ _ _

theorem rd_bump_ne (s : State) {f g : Fld} (h : f.key ≠ g.key) : (s.bump f).rd g = s.rd g := State.rd_wr_ne _ _ _ _ h

/-- The registers that freezing the store writes. -/
def freezeFlds : List Fld := [BBX_STAT_frozen, BBX_STAT_freeze_cause, BBX_EVT_bits, HKS_STAT_pending]

theorem bbxFreeze_moves (s : State) (c : Nat) : ∃ F, s.bbxFreeze c = { s with fields := F } := by
  rw [State.bbxFreeze]
  split
  · exact ⟨s.fields, rfl⟩
  · obtain ⟨F, e⟩ := ((((s.wr BBX_STAT_frozen 1).wr BBX_STAT_freeze_cause c).orF BBX_EVT_bits 1)).raiseEvent_moves 6
    exact ⟨F, e⟩

theorem rd_bbxFreeze_ne (s : State) (c : Nat) {f : Fld} (h : f.key ∉ freezeFlds.map Fld.key) : (s.bbxFreeze c).rd f = s.rd f := by
  simp only [freezeFlds, List.map_cons, List.map_nil, List.mem_cons, List.not_mem_nil, or_false, not_or] at h
  obtain ⟨h1, h2, h3, h4⟩ := h
  rw [State.bbxFreeze]
  split
  · rfl
  · rw [State.rd_raiseEvent _ _ h4, State.orF, State.rd_wr_ne _ _ _ _ (Ne.symm h3), State.rd_wr_ne _ _ _ _ (Ne.symm h2),
      State.rd_wr_ne _ _ _ _ (Ne.symm h1)]

/-- A frozen store is frozen, and its cause the one it was frozen with first. -/
theorem rd_bbxFreeze_frozen (s : State) (c : Nat) :
    (s.bbxFreeze c).rd BBX_STAT_frozen = 1 ∧ (s.on BBX_STAT_frozen = false → (s.bbxFreeze c).rd BBX_STAT_freeze_cause = c % 8) := by
  by_cases h : s.on BBX_STAT_frozen = true
  · refine ⟨?_, fun hn => absurd h (by simp [hn])⟩
    rw [State.bbxFreeze, if_pos h]
    simpa [State.on] using h
  · obtain ⟨h1, h2, -⟩ := rd_bbxFreeze c (Bool.not_eq_true _ ▸ h)
    exact ⟨h1, fun _ => h2⟩

/-! ### A mismatch -/

/-- The registers that count a retry. -/
def retryFlds : List Fld := [PWR_RES_RETRY_count, TRL_RETRY_retries, TRL_EVT_retry]

/-- A retry is counted (R405). -/
def Machine.State.resRetry (s : State) (unit : Nat) : State :=
  if unit = 3 then ((s.bump PWR_RES_RETRY_count).bump TRL_RETRY_retries).orF TRL_EVT_retry 1 else s.bump PWR_RES_RETRY_count

theorem resRetry_keeps (s : State) (unit : Nat) :
    (s.resRetry unit).rd PWR_RES_RETRY_count = (s.rd PWR_RES_RETRY_count + 1) % 2 ^ 32 ∧ SameRegs s (s.resRetry unit) retryFlds
      ∧ ∃ F, s.resRetry unit = { s with fields := F } := by
  rw [State.resRetry]
  split
  · refine ⟨?_, fun f hf => ?_, ⟨_, rfl⟩⟩
    · rw [State.orF, State.rd_wr_ne _ _ _ _ (by decide), rd_bump_ne _ (by decide), rd_bump]
      rfl
    · simp only [retryFlds, List.map_cons, List.map_nil, List.mem_cons, List.not_mem_nil, or_false, not_or] at hf
      rw [State.orF, State.rd_wr_ne _ _ _ _ (Ne.symm hf.2.2), rd_bump_ne _ (Ne.symm hf.2.1), rd_bump_ne _ (Ne.symm hf.1)]
  · refine ⟨rd_bump _ _, fun f hf => ?_, ⟨_, rfl⟩⟩
    simp only [retryFlds, List.map_cons, List.map_nil, List.mem_cons, List.not_mem_nil, or_false, not_or] at hf
    exact rd_bump_ne _ (Ne.symm hf.1)

/-- A group of a unit that takes mismatches at the slot. -/
def ResWorks (s : State) (unit group slot : Nat) : Prop := 1 ≤ unit ∧ ((look s.pwr.res (256 * unit + group)).getD resNew).works slot = true

theorem residue_idle {s : State} {unit group slot : Nat} (second : Bool) (t : Nat) (h : ¬ResWorks s unit group slot) :
    State.residue unit group slot second t s = s.advance t := by
  have hp : (s.advance t).pwr = s.pwr := by simp
  rw [State.residue]
  dsimp only
  rw [hp, if_pos]
  by_cases h0 : unit = 0
  · exact .inl h0
  · exact .inr (.inr (Bool.eq_false_iff.2 fun hw => h ⟨by omega, hw⟩))

/-- A group with one more retry. -/
def Machine.ResG.retried (g : ResG) : ResG := { g with retries := g.retries + 1 }

/-- A group whose slot has needed the spare at `t`, and whether the slot is retired for it (R406). -/
def Machine.ResG.gone (g : ResG) (slot t : Nat) : Bool :=
  decide (3 ≤ (((slot, t) :: g.uses.filter fun u => decide (t < u.2 + secF)).filter fun u => u.1 = slot).length)

def Machine.ResG.spared (g : ResG) (slot t : Nat) : ResG :=
  { g.retried with spares := g.spares + 1, uses := (slot, t) :: g.uses.filter fun u => decide (t < u.2 + secF),
                   retired := if g.gone slot t then some slot else none }

/-- The spare is counted in (R406). -/
def Machine.State.resSpared (s : State) (unit : Nat) : State :=
  if unit = 3 then ((s.bump PWR_RES_SPARE_count).bump TRL_RETRY_spare).orF TRL_EVT_fault 1 else s.bump PWR_RES_SPARE_count

/-- A slot is retired (R406). -/
def Machine.State.resGone (s : State) (unit group slot : Nat) : State :=
  ((((s.wr PWR_RES_RETIRED_unit unit).addSat PWR_RES_RETIRED_nospare 1).bump PWR_RES_RETIRED_slots).bbox 0x20 unit (256 * group + slot)).orF
    PWR_EVT_bits 64

theorem residue_works {s : State} {unit group slot : Nat} (second : Bool) (t : Nat) (hu : unit ≤ 8) (h : ResWorks s unit group slot) :
    let g := (look s.pwr.res (256 * unit + group)).getD resNew
    let w := (s.advance t).resRetry unit
    State.residue unit group slot second t s =
      if second = false then w.putRes unit group g.retried
      else if g.retired.isSome = true then
        ((((w.putRes unit group g.retried).mark t 5 0 0 unit 0 0 (g.retried.detail true) false).bbox 0x21 unit (256 * group)).orF
          PWR_EVT_bits 128).bbxFreeze 2
      else
        let m := ((w.putRes unit group (g.spared slot t)).resSpared unit).mark t 5 0 0 unit 0 0 ((g.spared slot t).detail false) false
        if g.gone slot t = true then m.resGone unit group slot else m := by
  obtain ⟨h0, hw⟩ := h
  have hp : (s.advance t).pwr = s.pwr := by simp
  dsimp only
  rw [State.residue]
  dsimp only
  rw [hp, if_neg (by rw [hw]; simp; omega)]
  generalize (look s.pwr.res (256 * unit + group)).getD resNew = g
  cases second with
  | false => rfl
  | true =>
    obtain ⟨_, _, _, retired⟩ := g
    cases retired with
    | none => rfl
    | some r => rfl

/-- A machine in which a retry of a group has been counted: the register, the group, and nothing of the others. -/
structure Counted (s : State) (key : Nat) (g : ResG) (t : Nat) (u : State) : Prop where
  count : u.rd PWR_RES_RETRY_count = (s.rd PWR_RES_RETRY_count + 1) % 2 ^ 32
  others : ∀ k, k ≠ key → look u.pwr.res k = look s.pwr.res k
  time : TimeAt s u t
  group : look u.pwr.res key = some g

theorem counted_putRes (s : State) (unit group : Nat) (g : ResG) (t : Nat) :
    Counted s (256 * unit + group) g t (((s.advance t).resRetry unit).putRes unit group g) := by
  obtain ⟨h1, -, F, e⟩ := resRetry_keeps (s.advance t) unit
  obtain ⟨k, hk, hkt⟩ := s.advance_moves t
  rw [State.rd_advance] at h1
  refine ⟨h1, fun j hj => ?_, ?_, look_ins_same _ _ _⟩
  · rw [e, hk]
    exact look_ins_ne _ _ _ _ (Ne.symm hj)
  · rw [e, hk]
    exact hkt

/-- What changes neither the counter nor the groups nor the time keeps it so. -/
theorem Counted.of_eq {s u w : State} {key t : Nat} {g : ResG} (h : Counted s key g t u) (hc : w.rd PWR_RES_RETRY_count = u.rd PWR_RES_RETRY_count)
    (hp : w.pwr = u.pwr) (ht : w.tmb = u.tmb) : Counted s key g t w :=
  ⟨hc.trans h.count, fun k hk => by rw [hp, h.others k hk], by have := h.time; rwa [TimeAt, ← ht] at this, by rw [hp, h.group]⟩

theorem resSpared_keeps (s : State) (unit : Nat) :
    (s.resSpared unit).rd PWR_RES_SPARE_count = (s.rd PWR_RES_SPARE_count + 1) % 2 ^ 32
      ∧ SameRegs s (s.resSpared unit) [PWR_RES_SPARE_count, TRL_RETRY_spare, TRL_EVT_fault] ∧ ∃ F, s.resSpared unit = { s with fields := F } := by
  rw [State.resSpared]
  split
  · refine ⟨?_, fun f hf => ?_, ⟨_, rfl⟩⟩
    · rw [State.orF, State.rd_wr_ne _ _ _ _ (by decide), rd_bump_ne _ (by decide), rd_bump]
      rfl
    · simp only [List.map_cons, List.map_nil, List.mem_cons, List.not_mem_nil, or_false, not_or] at hf
      rw [State.orF, State.rd_wr_ne _ _ _ _ (Ne.symm hf.2.2), rd_bump_ne _ (Ne.symm hf.2.1), rd_bump_ne _ (Ne.symm hf.1)]
  · refine ⟨rd_bump _ _, fun f hf => ?_, ⟨_, rfl⟩⟩
    simp only [List.map_cons, List.map_nil, List.mem_cons, List.not_mem_nil, or_false, not_or] at hf
    exact rd_bump_ne _ (Ne.symm hf.1)

theorem resGone_keeps (s : State) {unit : Nat} (group slot : Nat) (hu : unit < 2 ^ 8) :
    (s.resGone unit group slot).rd PWR_RES_RETIRED_unit = unit
      ∧ (s.resGone unit group slot).rd PWR_RES_RETIRED_slots = (s.rd PWR_RES_RETIRED_slots + 1) % 2 ^ 16
      ∧ bit ((s.resGone unit group slot).rd PWR_EVT_bits) 6 = true
      ∧ SameRegs s (s.resGone unit group slot) ([PWR_RES_RETIRED_unit, PWR_RES_RETIRED_nospare, PWR_RES_RETIRED_slots, PWR_EVT_bits] ++ bboxFlds)
      ∧ ∃ F B, s.resGone unit group slot = { s with fields := F, bbx := B } := by
  have hb : ∀ (w : State) (c x d : Nat) (f : Fld), f.key ∉ (PWR_EVT_bits :: bboxFlds).map Fld.key → ((w.bbox c x d).orF PWR_EVT_bits 64).rd f = w.rd f :=
    fun w c x d f hf => by
      rw [List.map_cons, List.mem_cons, not_or] at hf
      rw [State.orF, State.rd_wr_ne _ _ _ _ (Ne.symm hf.1), State.rd_bbox _ _ _ _ hf.2]
  rw [State.resGone]
  refine ⟨?_, ?_, bit_rd_orF _ PWR_EVT_bits 6 (by decide), fun f hf => ?_, ?_⟩
  · rw [hb _ _ _ _ _ (by decide), rd_bump_ne _ (by decide), State.addSat, State.rd_wr_ne _ _ _ _ (by decide), State.rd_wr_same]
    exact Nat.mod_eq_of_lt hu
  · rw [hb _ _ _ _ _ (by decide), rd_bump, State.addSat, State.rd_wr_ne _ _ _ _ (by decide), State.rd_wr_ne _ _ _ _ (by decide)]
    rfl
  · simp only [List.map_append, List.mem_append, List.map_cons, List.map_nil, List.mem_cons, List.not_mem_nil, or_false, not_or] at hf
    obtain ⟨⟨h1, h2, h3, h4⟩, h5⟩ := hf
    rw [hb _ _ _ _ _ (by rw [List.map_cons, List.mem_cons, not_or]; exact ⟨h4, h5⟩), rd_bump_ne _ (Ne.symm h3), State.addSat,
      State.rd_wr_ne _ _ _ _ (Ne.symm h2), State.rd_wr_ne _ _ _ _ (Ne.symm h1)]
  · obtain ⟨F, B, e⟩ := (((s.wr PWR_RES_RETIRED_unit unit).addSat PWR_RES_RETIRED_nospare 1).bump PWR_RES_RETIRED_slots).bbox_moves 0x20 unit
      (256 * group + slot)
    rw [e]
    exact ⟨_, B, rfl⟩

/-- A group whose spare is in service already: the black box is frozen (R405). -/
theorem residue_frozen {s : State} {unit group slot : Nat} (t : Nat) (hu : unit ≤ 8) (h : ResWorks s unit group slot)
    (hr : ((look s.pwr.res (256 * unit + group)).getD resNew).retired ≠ none) :
    let g := (look s.pwr.res (256 * unit + group)).getD resNew
    let u := State.residue unit group slot true t s
    Counted s (256 * unit + group) g.retried t u ∧ bit (u.rd PWR_EVT_bits) 7 = true ∧ u.rd BBX_STAT_frozen = 1
      ∧ (s.on BBX_STAT_frozen = false → u.rd BBX_STAT_freeze_cause = 2) := by
  dsimp only
  rw [residue_works true t hu h]
  dsimp only
  rw [if_neg (by decide), if_pos (Option.isSome_iff_ne_none.2 hr)]
  generalize (look s.pwr.res (256 * unit + group)).getD resNew = g
  have hc := counted_putRes s unit group g.retried t
  have hf : (((s.advance t).resRetry unit).putRes unit group g.retried).on BBX_STAT_frozen = s.on BBX_STAT_frozen := by
    rw [State.on, State.on, ← State.rd_advance s t BBX_STAT_frozen, ← (resRetry_keeps (s.advance t) unit).2.1 BBX_STAT_frozen (by decide)]
    rfl
  generalize ((s.advance t).resRetry unit).putRes unit group g.retried = w at hc hf
  obtain ⟨A, ea⟩ := w.mark_moves t 5 0 0 unit 0 0 (g.retried.detail true) false
  rw [ea]
  obtain ⟨F, B, eb⟩ := ({ w with acq := A } : State).bbox_moves 0x21 unit (256 * group)
  have hfb : ∀ f : Fld, f.key ∉ bboxFlds.map Fld.key → (({ w with acq := A } : State).bbox 0x21 unit (256 * group)).rd f = w.rd f :=
    fun f k => (State.rd_bbox _ _ _ _ k).trans (State.rd_mk ..)
  have hpw : (({ w with acq := A } : State).bbox 0x21 unit (256 * group)).pwr = w.pwr := by rw [eb]
  have htm : (({ w with acq := A } : State).bbox 0x21 unit (256 * group)).tmb = w.tmb := by rw [eb]
  generalize ({ w with acq := A } : State).bbox 0x21 unit (256 * group) = v at *
  obtain ⟨G, eg⟩ := bbxFreeze_moves (v.orF PWR_EVT_bits 128) 2
  obtain ⟨z1, z2⟩ := rd_bbxFreeze_frozen (v.orF PWR_EVT_bits 128) 2
  refine ⟨hc.of_eq ?_ (by rw [eg]; exact hpw) (by rw [eg]; exact htm), ?_, z1, fun hn => z2 ?_⟩
  · rw [rd_bbxFreeze_ne _ _ (by decide), State.orF, State.rd_wr_ne _ _ _ _ (by decide), hfb _ (by decide)]
  · rw [rd_bbxFreeze_ne _ _ (by decide)]
    exact bit_rd_orF _ PWR_EVT_bits 7 (by decide)
  · rw [State.on, State.orF, State.rd_wr_ne _ _ _ _ (by decide), hfb _ (by decide)]
    exact hf.trans hn

/-- A group whose spare is free takes it (R405, R406). -/
theorem residue_spared {s : State} {unit group slot : Nat} (t : Nat) (hu : unit ≤ 8) (h : ResWorks s unit group slot)
    (hr : ((look s.pwr.res (256 * unit + group)).getD resNew).retired = none) :
    let g := (look s.pwr.res (256 * unit + group)).getD resNew
    let u := State.residue unit group slot true t s
    Counted s (256 * unit + group) (g.spared slot t) t u ∧ u.rd PWR_RES_SPARE_count = (s.rd PWR_RES_SPARE_count + 1) % 2 ^ 32
      ∧ (g.gone slot t = true → u.rd PWR_RES_RETIRED_unit = unit ∧ u.rd PWR_RES_RETIRED_slots = (s.rd PWR_RES_RETIRED_slots + 1) % 2 ^ 16
          ∧ bit (u.rd PWR_EVT_bits) 6 = true)
      ∧ (g.gone slot t = false → u.rd PWR_RES_RETIRED_slots = s.rd PWR_RES_RETIRED_slots ∧ u.bbx = s.bbx) := by
  dsimp only
  rw [residue_works true t hu h]
  dsimp only
  rw [if_neg (by decide), if_neg (by simp [hr])]
  generalize (look s.pwr.res (256 * unit + group)).getD resNew = g
  have hc := counted_putRes s unit group (g.spared slot t) t
  have hf : ∀ f : Fld, f.key ∉ retryFlds.map Fld.key → (((s.advance t).resRetry unit).putRes unit group (g.spared slot t)).rd f = s.rd f := fun f k => by
    rw [← State.rd_advance s t f, ← (resRetry_keeps (s.advance t) unit).2.1 f k]
    rfl
  have hb : (((s.advance t).resRetry unit).putRes unit group (g.spared slot t)).bbx = s.bbx := by
    obtain ⟨-, -, F, e⟩ := resRetry_keeps (s.advance t) unit
    obtain ⟨k, hk, -⟩ := s.advance_moves t
    rw [e, hk]
    rfl
  generalize ((s.advance t).resRetry unit).putRes unit group (g.spared slot t) = w at hc hf hb
  obtain ⟨p1, p2, F, ef⟩ := resSpared_keeps w unit
  obtain ⟨A, ea⟩ := (w.resSpared unit).mark_moves t 5 0 0 unit 0 0 ((g.spared slot t).detail false) false
  have hm : ∀ f : Fld, ((w.resSpared unit).mark t 5 0 0 unit 0 0 ((g.spared slot t).detail false) false).rd f = (w.resSpared unit).rd f :=
    fun f => State.rd_mark ..
  have hmm : ∃ F A, (w.resSpared unit).mark t 5 0 0 unit 0 0 ((g.spared slot t).detail false) false = { w with fields := F, acq := A } :=
    ⟨F, A, by rw [ea, ef]⟩
  generalize (w.resSpared unit).mark t 5 0 0 unit 0 0 ((g.spared slot t).detail false) false = m at hm hmm
  clear ea
  obtain ⟨F', A', em⟩ := hmm
  have hsp : m.rd PWR_RES_SPARE_count = (s.rd PWR_RES_SPARE_count + 1) % 2 ^ 32 := by rw [hm, p1, hf _ (by decide)]
  have hsl : m.rd PWR_RES_RETIRED_slots = s.rd PWR_RES_RETIRED_slots := by rw [hm, p2 _ (by decide), hf _ (by decide)]
  have hcm : Counted s (256 * unit + group) (g.spared slot t) t m :=
    hc.of_eq (by rw [hm, p2 _ (by decide)]) (by rw [em]) (by rw [em])
  by_cases hg : g.gone slot t = true
  · obtain ⟨q1, q2, q3, q4, F2, B2, e2⟩ := resGone_keeps m group slot (show unit < 2 ^ 8 by omega)
    rw [if_pos hg]
    refine ⟨hcm.of_eq (q4 _ (by decide)) (by rw [e2]) (by rw [e2]), (q4 _ (by decide)).trans hsp, fun _ => ⟨q1, by rw [q2, hsl], q3⟩,
      fun x => absurd hg (by simp [x])⟩
  · rw [if_neg hg]
    exact ⟨hcm, hsp, fun x => absurd x hg, fun _ => ⟨hsl, by rw [em]; exact hb⟩⟩

/-! ### Spare lanes -/

/-- The registers of a group of lanes. -/
def laneFlds (g : Nat) : List Fld := [PWR_LANEg_used g, PWR_LANEg_spares g, PWR_LANEg_cal g]

theorem putLanes_moves (s : State) (g : Nat) (ls : List Lane) : ∃ F, s.putLanes g ls = { s with fields := F, pwr := { s.pwr with lanes := ls } } := ⟨_, rfl⟩

theorem rd_putLanes (s : State) (g : Nat) (ls : List Lane) {f : Fld} (h : f.key ∉ (laneFlds g).map Fld.key) : (s.putLanes g ls).rd f = s.rd f := by
  simp only [laneFlds, List.map_cons, List.map_nil, List.mem_cons, List.not_mem_nil, or_false, not_or] at h
  obtain ⟨h1, h2, h3⟩ := h
  rw [State.putLanes, State.laneRegs]
  dsimp only
  rw [State.rd_wr_ne _ _ _ _ (Ne.symm h3), State.rd_wr_ne _ _ _ _ (Ne.symm h2), State.rd_wr_ne _ _ _ _ (Ne.symm h1)]
  rfl

theorem rd_putLanes_cal (s : State) (g : Nat) (ls : List Lane) :
    (s.putLanes g ls).rd (PWR_LANEg_cal g)
      = b2n ((ls.filter fun l => l.ch % 1024 / 64 = g).any fun l => l.spare.isSome && l.doneAt.isNone && decide (l.ch < 1024)) := by
  rw [State.putLanes, State.laneRegs]
  dsimp only
  rw [State.rd_wr_same]
  exact Nat.mod_eq_of_lt (b2n_lt_two _)

/-- The lanes once one has failed: a spare lane of the same channel that has failed in its turn makes room. -/
def failedLanes (ls : List Lane) (ch : Nat) (spare : Option Nat) (t : Nat) : List Lane :=
  (ls.map fun l => if l.ch = ch then { l with ch := 1024 + ch, used := false } else l) ++ [⟨ch, spare, t, 0, false, none, false⟩]

/-- The lowest spare of a group that no lane has. -/
def Machine.State.freeSpare (s : State) (g : Nat) : Option Nat :=
  (List.range 4).find? fun i => !((s.lanesOf g).filterMap (·.spare)).contains i

/-- The failure of a lane as it is reported. -/
def Machine.State.laneReported (s : State) (ch : Nat) : State := ((s.bbox 0x28 ch (ch / 64)).orF PWR_EVT_bits 256).wr (PWR_LANEg_channel (ch / 64)) ch

theorem laneFail_eq {s : State} {ch : Nat} (t : Nat) (hm : s.mode ≠ 0) (hc : ch < s.nChan) (he : s.edgeFill ch = false) :
    State.laneFail ch t s =
      let w := ((s.advance t).laneReported ch).putLanes (ch / 64) (failedLanes s.pwr.lanes ch (s.freeSpare (ch / 64)) t)
      if (s.freeSpare (ch / 64)).isSome then w else (w.bbox 0x2A ch (ch / 64)).wr (PWR_LANEg_nospare (ch / 64)) 1 := by
  have hp : (s.advance t).pwr = s.pwr := by simp
  have hn : (s.advance t).nChan = s.nChan := by obtain ⟨k, hk, -⟩ := s.advance_moves t; rw [hk]; rfl
  have hf : (s.advance t).freeSpare (ch / 64) = s.freeSpare (ch / 64) := by rw [State.freeSpare, State.freeSpare, State.lanesOf, State.lanesOf, hp]
  have hgo : ¬((s.advance t).mode = 0 ∨ (s.advance t).nChan ≤ ch ∨ (s.advance t).edgeFill ch = true) := by
    rw [State.mode_advance, hn, State.edgeFill, hp]
    rw [State.edgeFill] at he
    rw [he]
    simp only [hm, false_or, Bool.false_eq_true, or_false]
    omega
  rw [State.laneFail]
  dsimp only
  rw [if_neg hgo, ← hf, ← hp]
  change (match (s.advance t).freeSpare (ch / 64) with | some i => _ | none => _) = _
  cases (s.advance t).freeSpare (ch / 64) with
  | none => rfl
  | some i => rfl

/-- What the failure of a lane changes. -/
def laneFailFlds (g : Nat) : List Fld :=
  [PWR_LANEg_channel g, PWR_LANEg_used g, PWR_LANEg_spares g, PWR_LANEg_cal g, PWR_LANEg_nospare g, PWR_EVT_bits, BBX_STAT_count, BBX_HEAD_value,
    BBX_LOST_value]

theorem laneReported_keeps (s : State) {ch : Nat} (hc : ch < 1024) :
    (s.laneReported ch).rd (PWR_LANEg_channel (ch / 64)) = ch ∧ bit ((s.laneReported ch).rd PWR_EVT_bits) 8 = true
      ∧ SameRegs s (s.laneReported ch) (laneFailFlds (ch / 64)) ∧ ∃ F B, s.laneReported ch = { s with fields := F, bbx := B } := by
  obtain ⟨F, B, e⟩ := s.bbox_moves 0x28 ch (ch / 64)
  rw [State.laneReported]
  refine ⟨?_, ?_, fun f hf => ?_, ?_⟩
  · rw [State.rd_wr_same]
    exact Nat.mod_eq_of_lt (show ch < 2 ^ 10 by omega)
  · rw [State.rd_wr_ne _ _ _ _ (by simp only [Fld.key, PWR_LANEg_channel, PWR_EVT_bits]; omega)]
    exact bit_rd_orF _ PWR_EVT_bits 8 (by decide)
  · simp only [laneFailFlds, List.map_cons, List.map_nil, List.mem_cons, List.not_mem_nil, or_false, not_or] at hf
    obtain ⟨h1, -, -, -, -, h6, h7, h8, h9⟩ := hf
    rw [State.rd_wr_ne _ _ _ _ (Ne.symm h1), State.orF, State.rd_wr_ne _ _ _ _ (Ne.symm h6), State.rd_bbox]
    simp only [bboxFlds, List.map_cons, List.map_nil, List.mem_cons, List.not_mem_nil, or_false, not_or]
    exact ⟨h7, h8, h9⟩
  · rw [e]
    exact ⟨_, B, rfl⟩

theorem laneFail_keeps {s : State} {ch : Nat} (t : Nat) (hm : s.mode ≠ 0) (hc : ch < s.nChan) (h1 : ch < 1024) (he : s.edgeFill ch = false) :
    let u := State.laneFail ch t s
    u.pwr.lanes = failedLanes s.pwr.lanes ch (s.freeSpare (ch / 64)) t ∧ u.rd (PWR_LANEg_channel (ch / 64)) = ch
      ∧ bit (u.rd PWR_EVT_bits) 8 = true ∧ TimeAt s u t
      ∧ (s.freeSpare (ch / 64) ≠ none → u.rd (PWR_LANEg_cal (ch / 64)) = 1)
      ∧ (s.freeSpare (ch / 64) = none → u.rd (PWR_LANEg_nospare (ch / 64)) = 1)
      ∧ SameRegs s u (laneFailFlds (ch / 64)) ∧ SameRest s { u with bbx := s.bbx, pwr := { u.pwr with lanes := s.pwr.lanes } } := by
  dsimp only
  rw [laneFail_eq t hm hc he]
  dsimp only
  obtain ⟨k, hk, hkt⟩ := s.advance_moves t
  obtain ⟨r1, r2, r3, F, B, r4⟩ := laneReported_keeps (s.advance t) h1
  have r3' : SameRegs s ((s.advance t).laneReported ch) (laneFailFlds (ch / 64)) := fun f hf => (r3 f hf).trans (State.rd_advance _ _ _)
  have hw : ∃ F B, (s.advance t).laneReported ch = { s with fields := F, bbx := B, tmb := k } := ⟨F, B, by rw [r4, hk]⟩
  generalize (s.advance t).laneReported ch = w at *
  clear r3 r4
  obtain ⟨F, B, ew⟩ := hw
  have hlane : ∀ f : Fld, f.key ∉ (laneFlds (ch / 64)).map Fld.key → ∀ ls, (w.putLanes (ch / 64) ls).rd f = w.rd f := fun f hf ls => rd_putLanes w _ ls hf
  have hsub : (laneFlds (ch / 64)).map Fld.key ⊆ (laneFailFlds (ch / 64)).map Fld.key := fun x hx => by
    simp only [laneFlds, List.map_cons, List.map_nil, List.mem_cons, List.not_mem_nil, or_false] at hx
    simp only [laneFailFlds, List.map_cons, List.map_nil, List.mem_cons, List.not_mem_nil, or_false]
    omega
  have hregs : ∀ ls, SameRegs s (w.putLanes (ch / 64) ls) (laneFailFlds (ch / 64)) := fun ls f hf => (hlane f (fun x => hf (hsub x)) ls).trans (r3' f hf)
  have hchan : (PWR_LANEg_channel (ch / 64)).key ∉ (laneFlds (ch / 64)).map Fld.key := by
    simp only [laneFlds, List.map_cons, List.map_nil, List.mem_cons, List.not_mem_nil, or_false, Fld.key, PWR_LANEg_channel, PWR_LANEg_used,
      PWR_LANEg_spares, PWR_LANEg_cal]
    omega
  have hevt : PWR_EVT_bits.key ∉ (laneFlds (ch / 64)).map Fld.key := by
    simp only [laneFlds, List.map_cons, List.map_nil, List.mem_cons, List.not_mem_nil, or_false, Fld.key, PWR_EVT_bits, PWR_LANEg_used,
      PWR_LANEg_spares, PWR_LANEg_cal]
    omega
  have hcal : ∀ i, (w.putLanes (ch / 64) (failedLanes s.pwr.lanes ch (some i) t)).rd (PWR_LANEg_cal (ch / 64)) = 1 := fun i => by
    rw [rd_putLanes_cal, b2n_eq_one, List.any_eq_true]
    refine ⟨⟨ch, some i, t, 0, false, none, false⟩, List.mem_filter.2 ⟨List.mem_append_right _ (List.mem_singleton.2 rfl), ?_⟩, ?_⟩
    · simp [Nat.mod_eq_of_lt h1]
    · simp [h1]
  cases hs : s.freeSpare (ch / 64) with
  | some i =>
    rw [if_pos (by rfl)]
    refine ⟨rfl, (hlane _ hchan _).trans r1, by rw [hlane _ hevt]; exact r2, ?_, fun _ => hcal i, nofun, hregs _, ?_⟩
    · obtain ⟨G, e⟩ := putLanes_moves w (ch / 64) (failedLanes s.pwr.lanes ch (some i) t)
      rw [e, ew]
      exact hkt
    · obtain ⟨G, e⟩ := putLanes_moves w (ch / 64) (failedLanes s.pwr.lanes ch (some i) t)
      rw [e, ew]
      exact sameRest_mk_hrv s _ _ _
  | none =>
    rw [if_neg (by decide)]
    obtain ⟨G, e⟩ := putLanes_moves w (ch / 64) (failedLanes s.pwr.lanes ch none t)
    have hp1 := (hlane _ hchan (failedLanes s.pwr.lanes ch none t)).trans r1
    have hp2 : bit ((w.putLanes (ch / 64) (failedLanes s.pwr.lanes ch none t)).rd PWR_EVT_bits) 8 = true := by rw [hlane _ hevt]; exact r2
    have hp3 := hregs (failedLanes s.pwr.lanes ch none t)
    generalize w.putLanes (ch / 64) (failedLanes s.pwr.lanes ch none t) = v at *
    obtain ⟨G', B', e'⟩ := v.bbox_moves 0x2A ch (ch / 64)
    refine ⟨?_, ?_, ?_, ?_, fun h => absurd rfl h, fun _ => State.rd_wr_same _ _ _, fun f hf => ?_, ?_⟩
    · rw [e', e]
      rfl
    · rw [State.rd_wr_ne _ _ _ _ (by simp only [Fld.key, PWR_LANEg_channel, PWR_LANEg_nospare]; omega), State.rd_bbox, hp1]
      simp only [bboxFlds, List.map_cons, List.map_nil, List.mem_cons, List.not_mem_nil, or_false, Fld.key, PWR_LANEg_channel, BBX_STAT_count,
        BBX_HEAD_value, BBX_LOST_value]
      omega
    · rw [State.rd_wr_ne _ _ _ _ (by simp only [Fld.key, PWR_EVT_bits, PWR_LANEg_nospare]; omega), State.rd_bbox _ _ _ _ (by decide)]
      exact hp2
    · rw [e', e, ew]
      exact hkt
    · simp only [laneFailFlds, List.map_cons, List.map_nil, List.mem_cons, List.not_mem_nil, or_false, not_or] at hf
      rw [State.rd_wr_ne _ _ _ _ (Ne.symm hf.2.2.2.2.1), State.rd_bbox]
      · exact hp3 f (by
          simp only [laneFailFlds, List.map_cons, List.map_nil, List.mem_cons, List.not_mem_nil, or_false, not_or]
          exact hf)
      · simp only [bboxFlds, List.map_cons, List.map_nil, List.mem_cons, List.not_mem_nil, or_false, not_or]
        exact ⟨hf.2.2.2.2.2.2.1, hf.2.2.2.2.2.2.2.1, hf.2.2.2.2.2.2.2.2⟩
    · rw [e', e, ew]
      exact sameRest_mk_hrv s _ _ _

/-- A lane of group `g` at the end of its measurement at `t` (R409). -/
def measured (g t : Nat) (l : Lane) : Lane :=
  if l.ch < 1024 ∧ l.ch / 64 = g ∧ l.spare.isSome ∧ l.doneAt.isNone ∧ l.burst = false then
    if 4096 ≤ l.edges then { l with doneAt := some t }
    else if l.since + 4000 * usF ≤ t then
      if 256 ≤ l.edges then { l with doneAt := some t } else { l with burst := true }
    else l
  else l

theorem laneMeasured_eq (g t : Nat) (s : State) : State.laneMeasured g t s = (s.advance t).putLanes g ((s.advance t).pwr.lanes.map (measured g t)) := rfl

theorem laneMeasured_keeps (g t : Nat) (s : State) :
    let u := State.laneMeasured g t s
    u.pwr.lanes = s.pwr.lanes.map (measured g t) ∧ TimeAt s u t ∧ SameRegs s u [PWR_LANEg_used g, PWR_LANEg_spares g, PWR_LANEg_cal g]
      ∧ SameRest s { u with pwr := { u.pwr with lanes := s.pwr.lanes } } := by
  dsimp only
  obtain ⟨k, hk, hkt⟩ := s.advance_moves t
  have hr : ∀ f, (s.advance t).rd f = s.rd f := fun f => State.rd_advance _ _ _
  rw [laneMeasured_eq]
  obtain ⟨F, e⟩ := putLanes_moves (s.advance t) g ((s.advance t).pwr.lanes.map (measured g t))
  refine ⟨?_, ?_, fun f hf => (rd_putLanes _ _ _ hf).trans (hr f), ?_⟩
  · rw [e, hk]
  · rw [e, hk]
    exact hkt
  · rw [e, hk]
    exact sameRest_mk_hrv s _ _ _

/-- How a measurement that runs ends, or goes on. -/
theorem measured_runs {g t : Nat} {l : Lane} (h1 : l.ch < 1024) (h2 : l.ch / 64 = g) (h3 : l.spare ≠ none) (h4 : l.doneAt = none) (h5 : l.burst = false) :
    (4096 ≤ l.edges ∨ l.since + 4000 * usF ≤ t ∧ 256 ≤ l.edges → measured g t l = { l with doneAt := some t })
      ∧ (l.since + 4000 * usF ≤ t → l.edges < 256 → measured g t l = { l with burst := true })
      ∧ (t < l.since + 4000 * usF → l.edges < 4096 → measured g t l = l) := by
  have hgo : l.ch < 1024 ∧ l.ch / 64 = g ∧ l.spare.isSome ∧ l.doneAt.isNone ∧ l.burst = false :=
    ⟨h1, h2, Option.isSome_iff_ne_none.2 h3, by rw [h4]; rfl, h5⟩
  rw [measured, if_pos hgo]
  generalize 4000 * usF = d
  refine ⟨fun h => ?_, fun ht he => ?_, fun ht he => ?_⟩
  · by_cases he : 4096 ≤ l.edges
    · rw [if_pos he]
    · obtain ⟨ha, hb⟩ := h.resolve_left he
      rw [if_neg he, if_pos ha, if_pos hb]
  · rw [if_neg (by omega), if_pos ht, if_neg (by omega)]
  · rw [if_neg (by omega), if_neg (by omega)]

theorem measured_other {g t : Nat} {l : Lane} (h : 1024 ≤ l.ch ∨ l.ch / 64 ≠ g) : measured g t l = l :=
  if_neg fun x => h.elim (fun y => absurd x.1 (by omega)) fun y => y x.2.1

/-- The lanes once the spares of some channels are in service. -/
def taken (chs : List Nat) (ls : List Lane) : List Lane := ls.map fun x => if x.ch ∈ chs then { x with used := true } else x

theorem taken_taken (c : Nat) (chs : List Nat) (ls : List Lane) :
    taken chs (ls.map fun x => if x.ch = c then { x with used := true } else x) = taken (c :: chs) ls := by
  rw [taken, taken, List.map_map]
  refine List.map_congr_left fun x _ => ?_
  simp only [Function.comp, List.mem_cons]
  by_cases h : x.ch = c
  · simp [h]
  · simp [h]

theorem used_of_mem_taken {chs : List Nat} {ls : List Lane} {y : Lane} (h : y ∈ taken chs ls) (hc : y.ch ∈ chs) : y.used = true := by
  obtain ⟨x, -, rfl⟩ := List.mem_map.1 h
  by_cases hx : x.ch ∈ chs
  · rw [if_pos hx]
  · rw [if_neg hx] at hc
    exact absurd hc hx

/-- The registers that a spare's taking over may change. -/
def swapFlds (g : Nat) : List Fld := laneFlds g ++ bboxFlds

theorem laneTake_keeps (s : State) (l : Lane) :
    (s.laneTake l).pwr.lanes = (s.pwr.lanes.map fun x => if x.ch = l.ch then { x with used := true } else x)
      ∧ SameRegs s (s.laneTake l) (swapFlds (l.ch / 64))
      ∧ ∃ F B L, s.laneTake l = { s with fields := F, bbx := B, pwr := { s.pwr with lanes := L } } := by
  rw [State.laneTake]
  dsimp only
  obtain ⟨F, e⟩ := putLanes_moves s (l.ch / 64) (s.pwr.lanes.map fun x => if x.ch = l.ch then { x with used := true } else x)
  obtain ⟨G, B, e'⟩ := (s.putLanes (l.ch / 64) (s.pwr.lanes.map fun x => if x.ch = l.ch then { x with used := true } else x)).bbox_moves 0x29 l.ch
    (l.spare.getD 0)
  refine ⟨by rw [e', e], fun f hf => ?_, ⟨G, B, _, by rw [e', e]⟩⟩
  rw [swapFlds, List.map_append, List.mem_append, not_or] at hf
  rw [State.rd_bbox _ _ _ _ hf.2, rd_putLanes _ _ _ hf.1]

theorem foldl_laneTake_keeps (g : Nat) (l : List Lane) (hl : ∀ x ∈ l, x.ch / 64 = g) (s : State) :
    (l.foldl State.laneTake s).pwr.lanes = taken (l.map Lane.ch) s.pwr.lanes ∧ SameRegs s (l.foldl State.laneTake s) (swapFlds g)
      ∧ ∃ F B L, l.foldl State.laneTake s = { s with fields := F, bbx := B, pwr := { s.pwr with lanes := L } } := by
  induction l generalizing s with
  | nil =>
    refine ⟨?_, SameRegs.refl s _, ⟨s.fields, s.bbx, s.pwr.lanes, rfl⟩⟩
    simp [taken]
  | cons x r ih =>
    obtain ⟨h1, h2, F, B, L, h3⟩ := laneTake_keeps s x
    obtain ⟨i1, i2, F', B', L', i3⟩ := ih (fun y hy => hl y (List.mem_cons_of_mem _ hy)) (s.laneTake x)
    rw [hl x List.mem_cons_self] at h2
    refine ⟨?_, fun f hf => (i2 f hf).trans (h2 f hf), ⟨F', B', L', ?_⟩⟩
    · rw [List.foldl_cons, i1, h1, taken_taken, List.map_cons]
    · rw [List.foldl_cons, i3, h3]

/-- The measured spares of group `g` that take over at `t` (R409). -/
def Machine.State.lanesDue (s : State) (g t : Nat) : List Lane :=
  s.lanesReady.filter fun l => decide (l.ch / 64 = g) && decide (l.doneAt.getD 0 + usF ≤ t)

theorem laneSwapIdle_busy {s : State} (g t : Nat) (h : s.acqSt ≠ 0) : State.laneSwapIdle g t s = s.advance t := by
  have hi : (s.advance t).idle = false := by
    rw [State.idle, show (s.advance t).acqSt = s.acqSt from State.rd_advance _ _ _]
    simpa using h
  rw [State.laneSwapIdle]
  rw [if_pos (by simp [hi])]

theorem laneSwapIdle_eq {s : State} (g t : Nat) (h : s.acqSt = 0) : State.laneSwapIdle g t s = (s.lanesDue g t).foldl State.laneTake (s.advance t) := by
  have hi : (s.advance t).idle = true := by
    rw [State.idle, show (s.advance t).acqSt = s.acqSt from State.rd_advance _ _ _]
    simpa using h
  have hp : (s.advance t).lanesReady = s.lanesReady := by rw [State.lanesReady, State.advance_pwr, State.lanesReady]
  rw [State.laneSwapIdle]
  rw [if_neg (by simp [hi]), hp]
  rfl

theorem laneSwap_keeps {s : State} (g t : Nat) (h : s.acqSt = 0) :
    let u := State.laneSwapIdle g t s
    (∀ l e, l ∈ s.pwr.lanes → l.ch < 1024 → l.ch / 64 = g → l.doneAt = some e → e + usF ≤ t → l.used = false →
        u.edgeFill l.ch = false ∧ { l with used := true } ∈ u.pwr.lanes)
      ∧ (∀ l ∈ s.pwr.lanes, 1024 ≤ l.ch ∨ l.ch / 64 ≠ g → l ∈ u.pwr.lanes) ∧ TimeAt s u t ∧ SameRegs s u (swapFlds g)
      ∧ SameRest s { u with bbx := s.bbx, pwr := { u.pwr with lanes := s.pwr.lanes } } := by
  have hdue : ∀ x ∈ s.lanesDue g t, x.ch / 64 = g ∧ x.ch < 1024 := fun x hx => by
    obtain ⟨h1, h2⟩ := List.mem_filter.1 hx
    have h3 := (List.mem_filter.1 h1).2
    simp only [Bool.and_eq_true, decide_eq_true_eq] at h2 h3
    exact ⟨h2.1, h3.2⟩
  obtain ⟨k, hk, hkt⟩ := s.advance_moves t
  dsimp only
  rw [laneSwapIdle_eq g t h]
  obtain ⟨h1, h2, F, B, L, h3⟩ := foldl_laneTake_keeps g (s.lanesDue g t) (fun x hx => (hdue x hx).1) (s.advance t)
  rw [State.advance_pwr] at h1
  refine ⟨fun l e hl hc hg hd ht hu => ?_, fun l hl hn => ?_, ?_, fun f hf => (h2 f hf).trans (State.rd_advance _ _ _), ?_⟩
  · have hm : l.ch ∈ (s.lanesDue g t).map Lane.ch := List.mem_map_of_mem
      (List.mem_filter.2 ⟨List.mem_filter.2 ⟨hl, by simp [hd, hu, hc]⟩, by simp only [hg, hd, Option.getD_some]; simpa using ht⟩)
    refine ⟨?_, ?_⟩
    · rw [State.edgeFill, h1, List.any_eq_false]
      intro x hx
      by_cases he : x.ch = l.ch
      · simp [used_of_mem_taken hx (he ▸ hm)]
      · simp [he]
    · rw [h1, taken]
      exact List.mem_map.2 ⟨l, hl, if_pos hm⟩
  · rw [h1, taken]
    refine List.mem_map.2 ⟨l, hl, if_neg fun x => ?_⟩
    obtain ⟨y, hy, he⟩ := List.mem_map.1 x
    obtain ⟨q1, q2⟩ := hdue y hy
    exact hn.elim (fun z => by omega) fun z => z (by rw [← he]; exact q1)
  · rw [h3, hk]
    exact hkt
  · rw [h3, hk]
    exact sameRest_mk_hrv s _ _ _

/-! ### The statement -/

theorem residue_retried {s : State} {unit group slot : Nat} (t : Nat) (hu : unit ≤ 8) (h : ResWorks s unit group slot) :
    let g := (look s.pwr.res (256 * unit + group)).getD resNew
    let u := State.residue unit group slot false t s
    Counted s (256 * unit + group) g.retried t u ∧ SameRegs s u retryFlds ∧ SameRest s { u with pwr := { u.pwr with res := s.pwr.res } } := by
  dsimp only
  rw [residue_works false t hu h]
  dsimp only
  rw [if_pos rfl]
  generalize (look s.pwr.res (256 * unit + group)).getD resNew = g
  obtain ⟨-, h2, F, e⟩ := resRetry_keeps (s.advance t) unit
  obtain ⟨k, hk, -⟩ := s.advance_moves t
  refine ⟨counted_putRes s unit group _ t, fun f hf => (h2 f hf).trans (State.rd_advance _ _ _), ?_⟩
  rw [e, hk]
  exact sameRest_mk_hrv s _ _ _

theorem Counted.clauses {s u : State} {key t : Nat} {g h : ResG} (c : Counted s key h t u) (hr : h.retries = g.retries + 1) :
    u.rd PWR_RES_RETRY_count = (s.rd PWR_RES_RETRY_count + 1) % 2 ^ 32 ∧ (∀ k, k ≠ key → look u.pwr.res k = look s.pwr.res k) ∧ TimeAt s u t
      ∧ ∃ h, look u.pwr.res key = some h ∧ h.retries = g.retries + 1 := ⟨c.count, c.others, c.time, h, c.group, hr⟩

/-- Settles O58: the branches of a mismatch by the group's state, and of a lane's failure, measurement and taking over. -/
theorem residueAndLanes : Obligations.ResidueAndLanes := by
  unfold Obligations.ResidueAndLanes
  refine ⟨fun s unit group slot t hp => ⟨fun second hw => ?_, fun hw => ?_, fun hw hr => ?_, fun hw hr => ?_⟩,
    fun s t hp => ⟨fun ch => ⟨fun hn => ?_, fun hm hc he => ?_⟩, fun g => ?_, fun g ha => ?_, fun g ha => ?_⟩⟩
  · refine Answers.of_performOnAt (exec_residueMismatch _ _ _ _ _ _) hp ?_
    rw [residue_idle second t hw]
    exact unchanged_advance s t
  · refine Answers.of_performOnAt (exec_residueMismatch _ _ _ _ _ _) hp ?_
    obtain ⟨h1, h2, h3⟩ := residue_retried t (Nat.lt_succ_iff.1 unit.isLt) hw
    exact ⟨h1.clauses rfl, h2, h3⟩
  · refine Answers.of_performOnAt (exec_residueMismatch _ _ _ _ _ _) hp ?_
    obtain ⟨h1, h2, h3, h4⟩ := residue_spared t (Nat.lt_succ_iff.1 unit.isLt) hw hr
    have hg : ∀ g : ResG, g.gone slot.val t = true ↔ 3 ≤ (((slot.val, t) :: g.uses.filter fun u => decide (t < u.2 + secF)).filter
        fun u => u.1 = slot.val).length := fun g => decide_eq_true_iff
    refine ⟨h1.clauses rfl, h2, ⟨_, h1.group, rfl, ?_⟩, fun x => h3 ((hg _).2 x), fun x => h4 (Bool.eq_false_iff.2 fun y => x ((hg _).1 y))⟩
    exact if_congr (hg _) rfl rfl
  · refine Answers.of_performOnAt (exec_residueMismatch _ _ _ _ _ _) hp ?_
    obtain ⟨h1, h2, h3, h4⟩ := residue_frozen t (Nat.lt_succ_iff.1 unit.isLt) hw hr
    exact ⟨h1.clauses rfl, h2, h3, h4⟩
  · refine Answers.of_performOnAt (exec_laneFail _ _ _) hp ?_
    have he : State.laneFail ch.val t s = s.advance t := by
      obtain ⟨k, hk, -⟩ := s.advance_moves t
      rw [State.laneFail]
      dsimp only
      rw [if_pos]
      rw [hk]
      exact hn
    rw [he]
    exact unchanged_advance s t
  · refine Answers.of_performOnAt (exec_laneFail _ _ _) hp ?_
    obtain ⟨h1, h2, h3, h4, h5, h6, h7, h8⟩ := laneFail_keeps t hm hc ch.isLt he
    refine ⟨?_, h2, h3, h4, fun i hi => ⟨?_, h5 fun x => ?_⟩, h6, h7, h8⟩
    · rw [State.edgeFill, h1, List.any_eq_true]
      exact ⟨_, List.mem_append_right _ (List.mem_singleton.2 rfl), by simp⟩
    · rw [h1, show s.freeSpare (ch.val / 64) = some i from hi]
      exact List.mem_append_right _ (List.mem_singleton.2 rfl)
    · rw [State.freeSpare, hi] at x
      nomatch x
  · refine Answers.of_performOnAt (exec_spareLaneMeasured _ _ _) hp ?_
    obtain ⟨h1, h2, h3, h4⟩ := laneMeasured_keeps g.val t s
    refine ⟨fun l hl q1 q2 q3 q4 q5 => ?_, fun l hl hn => ?_, h2, h3, h4⟩
    · obtain ⟨m1, m2, m3⟩ := measured_runs (t := t) q1 q2 q3 q4 q5
      rw [h1]
      exact ⟨fun x => List.mem_map.2 ⟨l, hl, m1 x⟩, fun x y => List.mem_map.2 ⟨l, hl, m2 x y⟩, fun x y => List.mem_map.2 ⟨l, hl, m3 x y⟩⟩
    · rw [h1]
      exact List.mem_map.2 ⟨l, hl, measured_other hn⟩
  · refine Answers.of_performOnAt (exec_spareLaneSwap _ _ _) hp ?_
    rw [laneSwapIdle_busy g.val t ha]
    exact unchanged_advance s t
  · exact Answers.of_performOnAt (exec_spareLaneSwap _ _ _) hp (laneSwap_keeps g.val t ha)

end Sys2Proof
end

