-- ==== Sys2Proof/Proofs/FeedSwitches.lean ====
section
/-! SUPPORT. What entering a state of a feed, a reading and a switch-over write, and the moves of the load: the statement of O55. -/

namespace Sys2Proof

open Machine

/-! ### The registers of a feed -/

theorem feedFld_eq (f : Nat) : feedFld f = PWR_STAT_a_state ∨ feedFld f = PWR_STAT_b_state := by
  unfold feedFld
  split
  · exact .inl rfl
  · exact .inr rfl

theorem voltFld_eq (f : Nat) : voltFld f = PWR_FEED_A_volt ∨ voltFld f = PWR_FEED_B_volt := by
  unfold voltFld
  split
  · exact .inl rfl
  · exact .inr rfl

/-- The current of a feed. -/
def currentFld (f : Nat) : Fld := if f = 0 then PWR_FEED_A_current else PWR_FEED_B_current

theorem currentFld_eq (f : Nat) : currentFld f = PWR_FEED_A_current ∨ currentFld f = PWR_FEED_B_current := by
  unfold currentFld
  split
  · exact .inl rfl
  · exact .inr rfl

theorem feedFld_inj {f g : Nat} (hf : f ≤ 1) (hg : g ≤ 1) (h : f ≠ g) : (feedFld f).key ≠ (feedFld g).key := by
  have : f = 0 ∧ g = 1 ∨ f = 1 ∧ g = 0 := by omega
  obtain ⟨rfl, rfl⟩ | ⟨rfl, rfl⟩ := this <;> decide

theorem feedNo_le (f : Feed) : feedNo f ≤ 1 := by cases f <;> decide

/-! ### A switch-over -/

/-- The registers that an entry of the black box with its event writes. -/
def reportFlds : List Fld := [PWR_EVT_bits, HKS_STAT_pending, BBX_STAT_count, BBX_HEAD_value, BBX_LOST_value]

/-- The registers that a switch-over writes. -/
def switchFlds : List Fld := [PWR_STAT_active, PWR_SWITCH_count, PWR_SWITCH_cause] ++ reportFlds

/-- An event bit with its script and its entry in the black box. -/
def Machine.State.report (s : State) (b e c x d : Nat) : State := ((s.orF PWR_EVT_bits (2 ^ b)).raiseEvent e).bbox c x d

theorem report_keeps (s : State) {b : Nat} (e c x d : Nat) (hb : b < 11) :
    bit ((s.report b e c x d).rd PWR_EVT_bits) b = true ∧ SameRegs s (s.report b e c x d) reportFlds
      ∧ ∃ F B, s.report b e c x d = { s with fields := F, bbx := B } := by
  obtain ⟨F, B, h⟩ := ((s.orF PWR_EVT_bits (2 ^ b)).raiseEvent e).bbox_moves c x d
  obtain ⟨G, h'⟩ := (s.orF PWR_EVT_bits (2 ^ b)).raiseEvent_moves e
  rw [State.report]
  refine ⟨?_, fun f hf => ?_, ⟨F, B, by rw [h, h']; rfl⟩⟩
  · rw [State.rd_bbox _ _ _ _ (by decide), State.rd_raiseEvent _ _ (by decide)]
    exact bit_rd_orF _ _ _ hb
  · simp only [reportFlds, List.map_cons, List.map_nil, List.mem_cons, List.not_mem_nil, or_false, not_or] at hf
    obtain ⟨h1, h2, h3⟩ := hf
    rw [State.rd_bbox _ _ _ _ (by
      simp only [bboxFlds, List.map_cons, List.map_nil, List.mem_cons, List.not_mem_nil, or_false, not_or]
      exact h3), State.rd_raiseEvent _ _ h2, State.orF, State.rd_wr_ne _ _ _ _ (Ne.symm h1)]

theorem switchTo_eq (f cause : Nat) (mv : Int) (s : State) : ∃ A, State.switchTo f cause mv s =
    { (((s.wr PWR_STAT_active f).bump PWR_SWITCH_count).wr PWR_SWITCH_cause cause).report 0 1 0x10 f (cause + 256 * toU 24 mv) with
      acq := A, pwr := { s.pwr with at_ := ins s.pwr.at_ 2 s.tmb.kt } } := by
  have hu : State.switchTo f cause mv s =
      let s2 := ((((s.wr PWR_STAT_active f).bump PWR_SWITCH_count).wr PWR_SWITCH_cause cause).report 0 1 0x10 f
        (cause + 256 * toU 24 mv)).markSupply 0x10 s.tmb.kt
      { s2 with pwr := { s2.pwr with at_ := ins s2.pwr.at_ 2 s.tmb.kt } } := rfl
  rw [hu]
  have hw : (((s.wr PWR_STAT_active f).bump PWR_SWITCH_count).wr PWR_SWITCH_cause cause).pwr = s.pwr := rfl
  generalize ((s.wr PWR_STAT_active f).bump PWR_SWITCH_count).wr PWR_SWITCH_cause cause = w at hw ⊢
  obtain ⟨F, B, e⟩ := (report_keeps w (b := 0) 1 0x10 f (cause + 256 * toU 24 mv) (by decide)).2.2
  have hv : (w.report 0 1 0x10 f (cause + 256 * toU 24 mv)).pwr = s.pwr := by rw [e, ← hw]
  generalize w.report 0 1 0x10 f (cause + 256 * toU 24 mv) = v at hv ⊢
  obtain ⟨A, ea⟩ := v.mark_moves s.tmb.kt 9 0 0 0x10 0 0 0 false
  refine ⟨A, ?_⟩
  dsimp only
  rw [State.markSupply, ea]
  dsimp only
  rw [hv]

/-- What a switch-over leaves. -/
theorem switchTo_keeps (f cause : Nat) (mv : Int) (s : State) :
    (State.switchTo f cause mv s).rd PWR_STAT_active = f % 2 ∧ (State.switchTo f cause mv s).rd PWR_SWITCH_cause = cause % 256
      ∧ (State.switchTo f cause mv s).rd PWR_SWITCH_count = (s.rd PWR_SWITCH_count + 1) % 2 ^ 24
      ∧ bit ((State.switchTo f cause mv s).rd PWR_EVT_bits) 0 = true ∧ SameRegs s (State.switchTo f cause mv s) switchFlds
      ∧ ∃ F A B p, State.switchTo f cause mv s = { s with fields := F, acq := A, bbx := B, pwr := { s.pwr with at_ := p } } := by
  obtain ⟨A, ha⟩ := switchTo_eq f cause mv s
  obtain ⟨h1, h2, F, B, h3⟩ := report_keeps (((s.wr PWR_STAT_active f).bump PWR_SWITCH_count).wr PWR_SWITCH_cause cause) (b := 0) 1 0x10 f
    (cause + 256 * toU 24 mv) (by decide)
  rw [ha]
  refine ⟨?_, ?_, ?_, h1, fun g hg => ?_, ⟨F, A, B, _, by rw [h3]; rfl⟩⟩
  · refine (h2 _ (by decide)).trans ?_
    rw [State.rd_wr_ne _ _ _ _ (by decide), rd_bump_ne _ (by decide), State.rd_wr_same]
    rfl
  · refine (h2 _ (by decide)).trans ?_
    rw [State.rd_wr_same]
    rfl
  · refine (h2 _ (by decide)).trans ?_
    rw [State.rd_wr_ne _ _ _ _ (by decide), rd_bump, State.rd_wr_ne _ _ _ _ (by decide)]
    rfl
  · rw [switchFlds, List.map_append, List.mem_append, not_or] at hg
    obtain ⟨g1, g2⟩ := hg
    simp only [List.map_cons, List.map_nil, List.mem_cons, List.not_mem_nil, or_false, not_or] at g1
    refine (h2 g g2).trans ?_
    rw [State.rd_wr_ne _ _ _ _ (Ne.symm g1.2.2), rd_bump_ne _ (Ne.symm g1.2.1), State.rd_wr_ne _ _ _ _ (Ne.symm g1.1)]

/-- A switch-over that a command makes. -/
def Moved (s : State) (t n cause : Nat) (u : State) : Prop :=
  u.rd PWR_STAT_active = n % 2 ∧ u.rd PWR_SWITCH_cause = cause ∧ u.rd PWR_SWITCH_count = (s.rd PWR_SWITCH_count + 1) % 2 ^ 24
    ∧ bit (u.rd PWR_EVT_bits) 0 = true ∧ TimeAt s u t

theorem moved_switchTo {s w : State} {t cause : Nat} (n : Nat) (mv : Int) (hc : cause < 256) (hw : w.rd PWR_SWITCH_count = s.rd PWR_SWITCH_count)
    (ht : TimeAt s w t) : Moved s t n cause (State.switchTo n cause mv w) := by
  obtain ⟨h1, h2, h3, h4, -, F, A, B, p, h5⟩ := switchTo_keeps n cause mv w
  exact ⟨h1, h2.trans (Nat.mod_eq_of_lt hc), h3.trans (by rw [hw]), h4, by rw [h5]; exact ht⟩

theorem Moved.irqSeen {s u : State} {t n cause : Nat} (h : Moved s t n cause u) (q : List (Nat × Nat)) : Moved s t n cause { u with irqSeen := q } := h

/-! ### The preferred feed -/

theorem revert_answers {s : State} {t : Nat} (hd : s.pwr.dead = false) :
    let p := s.rd PWR_CFG_pref
    let since := max ((look s.pwr.at_ p).getD 0) ((look s.pwr.at_ 2).getD 0)
    let due := s.on PWR_CFG_revert = true ∧ s.rd PWR_STAT_active ≠ p ∧ s.feed p = 1 ∧ since + s.rd PWR_CFG_revert_s * secF ≤ t
    (due → Answers (.revert t) s (Moved s t p 6)) ∧ (¬due → Answers (.revert t) s fun u => TimeAt s u t ∧ SameRegs s u [] ∧ SameRest s u) := by
  obtain ⟨k, hk, hkt⟩ := s.advance_moves t
  intro p since due
  have he : State.revert t s = if due then State.switchTo p 6 ((s.advance t).feedMv (1 - p)) (s.advance t) else s.advance t := by
    rw [State.revert, hk]
    exact if_congr Iff.rfl rfl rfl
  refine ⟨fun h => Answers.of_performAt (exec_revert _ _) hd ?_, fun h => Answers.of_performAt (exec_revert _ _) hd ?_⟩
  · rw [he, if_pos h]
    exact moved_switchTo _ _ (by decide) (State.rd_advance _ _ _) (TimeAt.advance s t)
  · rw [he, if_neg h]
    exact unchanged_advance s t

/-! ### The host's choice -/

theorem portWrite_pwrCtl {s : State} {p : Port} {v : Nat} (h : Reaches p PWR_CTL_key.addr s) (hv : v < 2 ^ 32) :
    ∃ b q, State.portWrite p PWR_CTL_key.addr 15 v s = { State.pwrCtl v { s with hrv := { s.hrv with l12 := b } } with irqSeen := q } :=
  portWrite_command h hv (by decide) (by decide) (by simp [State.closed, PWR_CTL_key]) rfl rfl

theorem pwrCtl_eq (v : Word) (s : State) : State.pwrCtl (v.toNat ||| 1) s =
    if v.toNat / 2 ^ 16 = 0x7E48 then
      if s.feed (1 - s.rd PWR_STAT_active) = 1 then State.switchTo (1 - s.rd PWR_STAT_active) 7 (s.feedMv (s.rd PWR_STAT_active)) s
      else s.orF PWR_EVT_bits (2 ^ 10)
    else s := by
  have hk : (v.toNat ||| 1) / 2 ^ 16 = v.toNat / 2 ^ 16 := or_high (k := 0) v.toNat (by decide)
  have hb : (v.toNat ||| 1) % 2 = 1 := or_one_mod_two v.toNat
  have hv := v.isLt
  rw [State.pwrCtl]
  refine if_congr ?_ rfl rfl
  simp only [Fld.of, PWR_CTL_key, PWR_CTL_switch, hk]
  omega

theorem hostFeedSwitch_answers {s : State} {t : Nat} {p : Port} {v : Word} (h : Reaches p PWR_CTL_key.addr s) :
    let a := s.rd PWR_STAT_active
    (v.toNat / 2 ^ 16 = 0x7E48 → s.feed (1 - a) = 1 → Answers (.hostFeedSwitch p v t) s (Moved s t (1 - a) 7))
      ∧ (v.toNat / 2 ^ 16 = 0x7E48 → s.feed (1 - a) ≠ 1 → Answers (.hostFeedSwitch p v t) s fun u =>
          bit (u.rd PWR_EVT_bits) 10 = true ∧ TimeAt s u t ∧ SameRegs s u [PWR_EVT_bits] ∧ SameRest s u)
      ∧ (v.toNat / 2 ^ 16 ≠ 0x7E48 → Answers (.hostFeedSwitch p v t) s fun u => TimeAt s u t ∧ SameRegs s u [] ∧ SameRest s u) := by
  obtain ⟨b, q, e⟩ := portWrite_pwrCtl (h.advance t) (word_or_lt v (k := 0) (by decide))
  have e' : State.writeAt p PWR_CTL_key.addr (v.toNat ||| 1) t s = _ := e
  obtain ⟨k, hk, hkt⟩ := s.advance_moves t
  rw [show v.toNat ||| 2 ^ 0 = v.toNat ||| 1 from rfl, hk, pwrCtl_eq] at e'
  refine ⟨fun hv hf => Answers.of_performAt (exec_hostFeedSwitch _ _ _ _) h.1 ?_, fun hv hf => Answers.of_performAt (exec_hostFeedSwitch _ _ _ _) h.1 ?_,
    fun hv => Answers.of_performAt (exec_hostFeedSwitch _ _ _ _) h.1 ?_⟩
  · rw [e', if_pos hv, if_pos (by exact hf)]
    refine Moved.irqSeen ?_ q
    have hw : ({ s with tmb := k, hrv := { s.hrv with l12 := b } } : State).rd = s.rd := rfl
    have ht : TimeAt s { s with tmb := k, hrv := { s.hrv with l12 := b } } t := hkt
    simp only [hw]
    generalize ({ s with tmb := k, hrv := { s.hrv with l12 := b } } : State) = w at hw ht ⊢
    exact moved_switchTo _ _ (by decide) (by rw [hw]) ht
  · rw [e', if_pos hv, if_neg (by exact hf)]
    refine ⟨bit_rd_orF _ PWR_EVT_bits 10 (by decide), hkt, fun f hf => ?_, sameRest_mk s _ _ _ _⟩
    rw [State.rd_mk, State.orF, State.rd_wr_ne _ _ _ _ fun x => hf (by simp [x])]
    rfl
  · rw [e', if_neg hv]
    exact ⟨hkt, fun _ _ => rfl, sameRest_mk s _ _ _ _⟩

/-! ### Riding through -/

/-- A feed is in its range, from `s.tmb.kt` on if it was not before. -/
def Machine.State.feedRejoin (s : State) (f : Nat) : State :=
  if s.feedOk f then s else { s.wr (feedFld f) 7 with pwr := { s.pwr with at_ := ins s.pwr.at_ f s.tmb.kt } }

theorem rideThrough_eq {s : State} {l t : Nat} (f : Nat) (hl : s.pwr.lostAt = some l) : State.rideThrough f t s =
    if s.pwr.seqAt = none ∧ s.hks.rails = true ∧ t ≤ l + 1500 * usF then
      ((((({ (s.advance t).feedRejoin f with pwr := { ((s.advance t).feedRejoin f).pwr with lostAt := none, absent := false } } : State).wr
        PWR_STAT_active f).orF PWR_EVT_bits 4).bbox 0x12 0 ((t - l) / usF)).markSupply 0x12 t)
    else s.advance t := by
  obtain ⟨k, hk, -⟩ := s.advance_moves t
  have hl' : (s.advance t).pwr.lostAt = some l := by rw [State.advance_pwr, hl]
  have hc : ((s.advance t).pwr.seqAt.isNone = true ∧ (s.advance t).hks.rails = true ∧ t ≤ l + 1500 * usF)
      ↔ (s.pwr.seqAt = none ∧ s.hks.rails = true ∧ t ≤ l + 1500 * usF) := by
    rw [State.advance_pwr, State.advance_hks, Option.isNone_iff_eq_none]
  rw [State.rideThrough]
  generalize s.advance t = v at hl' hc ⊢
  dsimp only
  rw [hl']
  dsimp only
  by_cases h : s.pwr.seqAt = none ∧ s.hks.rails = true ∧ t ≤ l + 1500 * usF
  · rw [if_pos h, if_pos (hc.2 h), State.feedRejoin, ← hl']
  · rw [if_neg h, if_neg (mt hc.1 h)]

theorem rideThrough_keeps {s : State} {l t f : Nat} (hf : f ≤ 1) (hl : s.pwr.lostAt = some l)
    (hd : s.pwr.seqAt = none ∧ s.hks.rails = true ∧ t ≤ l + 1500 * usF) :
    let u := State.rideThrough f t s
    u.rd PWR_STAT_active = f ∧ u.pwr.lostAt = none ∧ bit (u.rd PWR_EVT_bits) 2 = true ∧ u.feed f = (if s.feedOk f then s.feed f else 7) ∧ TimeAt s u t := by
  dsimp only
  rw [rideThrough_eq f hl, if_pos hd]
  obtain ⟨k, hk, hkt⟩ := s.advance_moves t
  have hr : ((s.advance t).feedRejoin f).feed f = (if s.feedOk f then s.feed f else 7) := by
    have h1 : (s.advance t).feed f = s.feed f := State.rd_advance _ _ _
    have h2 : (s.advance t).feedOk f = s.feedOk f := by rw [State.feedOk, h1, State.feedOk]
    rw [State.feedRejoin, h2]
    split
    · exact h1
    · rw [State.feed, State.rd_mk, State.rd_wr_same]
      obtain e | e := feedFld_eq f <;> rw [e] <;> rfl
  have ht : ((s.advance t).feedRejoin f).tmb = k := by
    rw [State.feedRejoin, hk]
    split <;> rfl
  generalize (s.advance t).feedRejoin f = w at hr ht ⊢
  have hfr : (({ w with pwr := { w.pwr with lostAt := none, absent := false } } : State).wr PWR_STAT_active f).feed f = w.feed f := by
    rw [State.feed, State.rd_wr_ne]
    · rfl
    · obtain e | e := feedFld_eq f <;> rw [e] <;> decide
  have hact : (({ w with pwr := { w.pwr with lostAt := none, absent := false } } : State).wr PWR_STAT_active f).rd PWR_STAT_active = f := by
    rw [State.rd_wr_same]
    exact Nat.mod_eq_of_lt (show f < 2 ^ 1 by omega)
  have hform : (({ w with pwr := { w.pwr with lostAt := none, absent := false } } : State).wr PWR_STAT_active f).pwr.lostAt = none
      ∧ (({ w with pwr := { w.pwr with lostAt := none, absent := false } } : State).wr PWR_STAT_active f).tmb = k := ⟨rfl, ht⟩
  generalize ({ w with pwr := { w.pwr with lostAt := none, absent := false } } : State).wr PWR_STAT_active f = v at *
  obtain ⟨F, B, e⟩ := (v.orF PWR_EVT_bits 4).bbox_moves 0x12 0 ((t - l) / usF)
  obtain ⟨A, ea⟩ := ((v.orF PWR_EVT_bits 4).bbox 0x12 0 ((t - l) / usF)).mark_moves t 9 0 0 0x12 0 0 0 false
  have hm : ∀ g : Fld, g.key ≠ PWR_EVT_bits.key → g.key ∉ bboxFlds.map Fld.key →
      (((v.orF PWR_EVT_bits 4).bbox 0x12 0 ((t - l) / usF)).markSupply 0x12 t).rd g = v.rd g := fun g h1 h2 => by
    rw [State.markSupply, State.rd_mark, State.rd_bbox _ _ _ _ h2, State.orF, State.rd_wr_ne _ _ _ _ (Ne.symm h1)]
  refine ⟨(hm _ (by decide) (by decide)).trans hact, ?_, ?_, ?_, ?_⟩
  · rw [State.markSupply, ea, e]
    exact hform.1
  · rw [State.markSupply, State.rd_mark, State.rd_bbox _ _ _ _ (by decide)]
    exact bit_rd_orF _ PWR_EVT_bits 2 (by decide)
  · rw [← hr, ← hfr, State.feed, State.feed]
    obtain e | e := feedFld_eq f <;> rw [e] <;> exact hm _ (by decide) (by decide)
  · rw [State.markSupply, ea, e]
    show v.tmb.kt = _
    rw [hform.2]
    exact hkt

/-- Settles O55: the three moves of the load, each where it is due and nothing where it is not. -/
theorem feedSwitches : Obligations.FeedSwitches := by
  unfold Obligations.FeedSwitches
  refine fun s t => ⟨fun hd => revert_answers hd, fun p v h => hostFeedSwitch_answers h, fun f l hd hl => ⟨fun h => ?_, fun h => ?_⟩⟩
  · exact Answers.of_performAt (exec_rideThrough _ _ _) hd (rideThrough_keeps (feedNo_le f) hl h)
  · refine Answers.of_performAt (exec_rideThrough _ _ _) hd ?_
    rw [rideThrough_eq _ hl, if_neg h]
    exact unchanged_advance s t

end Sys2Proof
end

