-- ==== Sys2Proof/Proofs/FeedStates.lean ====
section
/-! SUPPORT. A reading of a feed, the state it enters, and what follows for the active feed: the statement of O54. -/

namespace Sys2Proof

open Machine

/-! ### A reading -/

/-- The registers that a reading writes. -/
def feedReadFlds (n : Nat) : List Fld := [voltFld n, currentFld n]

/-- The voltage has been read, and the time is that of the command. -/
def ReadAt (s : State) (n : Nat) (mv : Int) (t : Nat) (u : State) : Prop := u.rd (voltFld n) = satU 16 (rnd mv 10) ∧ TimeAt s u t

/-- The reading is all that has happened. -/
def OnlyRead (s : State) (n : Nat) (mv : Int) (t : Nat) (u : State) : Prop :=
  ReadAt s n mv t u ∧ SameRegs s u (feedReadFlds n) ∧ SameRest s { u with free := s.free }

theorem feedRead_keeps (s : State) (n : Nat) (mv : Int) (t : Nat) :
    let u := State.feedRead n mv (s.advance t)
    ReadAt s n mv t u ∧ SameRegs s u (feedReadFlds n) ∧ ∃ F L k, u = { s with fields := F, free := L, tmb := k } := by
  obtain ⟨k, hk, hkt⟩ := s.advance_moves t
  have hc : (if n = 0 then PWR_FEED_A_current else PWR_FEED_B_current) = currentFld n := rfl
  have hne : (currentFld n).key ≠ (voltFld n).key := by
    obtain e | e := currentFld_eq n <;> obtain e' | e' := voltFld_eq n <;> rw [e, e'] <;> decide
  have hv : satU 16 (rnd mv 10) < 2 ^ 16 := satU_lt _ _
  intro u
  have hu : u = (({ s with tmb := k, free := s.free + 1 } : State).wr (voltFld n) (satU 16 (rnd mv 10))).wr (currentFld n) (Config.freeValue s.free) := by
    show State.feedRead n mv (s.advance t) = _
    rw [hk, State.feedRead, ← hc]
    rfl
  rw [ReadAt]
  generalize satU 16 (rnd mv 10) = q at hv hu ⊢
  rw [hu]
  refine ⟨⟨?_, hkt⟩, fun f hf => ?_, ⟨_, _, _, rfl⟩⟩
  · rw [State.rd_wr_ne _ _ _ _ hne, State.rd_wr_same]
    obtain e | e := voltFld_eq n <;> rw [e] <;> exact Nat.mod_eq_of_lt hv
  · simp only [feedReadFlds, List.map_cons, List.map_nil, List.mem_cons, List.not_mem_nil, or_false, not_or] at hf
    rw [State.rd_wr_ne _ _ _ _ (Ne.symm hf.2), State.rd_wr_ne _ _ _ _ (Ne.symm hf.1)]
    rfl

theorem onlyRead_feedRead (s : State) (n : Nat) (mv : Int) (t : Nat) : OnlyRead s n mv t (State.feedRead n mv (s.advance t)) := by
  obtain ⟨h1, h2, F, L, k, h3⟩ := feedRead_keeps s n mv t
  exact ⟨h1, h2, by rw [h3]; exact sameRest_mk_hrv s _ _ _⟩

/-! ### A feed enters a state -/

theorem feedTo_keeps (n st : Nat) (mv : Int) (w : State) (hst : st < 8) :
    (State.feedTo n st mv w).feed n = st ∧ SameRegs w (State.feedTo n st mv w) (feedFld n :: reportFlds)
      ∧ ∃ F B A, State.feedTo n st mv w = { w with fields := F, bbx := B, pwr := { w.pwr with at_ := A } } := by
  have hw : ∀ v : State, v.rd (feedFld n) = (w.wr (feedFld n) st).rd (feedFld n) → v.feed n = st := fun v h => by
    rw [State.feed, h, State.rd_wr_same]
    obtain e | e := feedFld_eq n <;> rw [e] <;> exact Nat.mod_eq_of_lt (hst.trans_le (by decide))
  have hk : (feedFld n).key ∉ reportFlds.map Fld.key := by
    obtain e | e := feedFld_eq n <;> rw [e] <;> decide
  have hs : ∀ (v : State), SameRegs (w.wr (feedFld n) st) v reportFlds → SameRegs w v (feedFld n :: reportFlds) := fun v h f hf => by
    rw [List.map_cons, List.mem_cons, not_or] at hf
    rw [h f hf.2, State.rd_wr_ne _ _ _ _ (Ne.symm hf.1)]
  rw [State.feedTo]
  generalize hd : st + 256 * toU 24 mv = d
  dsimp only
  split
  · obtain ⟨-, h2, F, B, h3⟩ := report_keeps { w.wr (feedFld n) st with pwr := { w.pwr with at_ := ins w.pwr.at_ n w.tmb.kt } } (b := 1) 2 0x11 n d
      (by decide)
    have h2' : SameRegs (w.wr (feedFld n) st) _ reportFlds := h2
    exact ⟨hw _ (h2' _ hk), hs _ h2', ⟨F, B, _, h3⟩⟩
  · split
    · obtain ⟨F, B, h3⟩ := State.bbox_moves { w.wr (feedFld n) st with pwr := { w.pwr with at_ := ins w.pwr.at_ n w.tmb.kt } } 0x11 n d
      have h2 : SameRegs (w.wr (feedFld n) st) (State.bbox
          { w.wr (feedFld n) st with pwr := { w.pwr with at_ := ins w.pwr.at_ n w.tmb.kt } } 0x11 n d) reportFlds := fun f hf =>
        State.rd_bbox _ _ _ _ fun hb => hf (List.mem_cons_of_mem _ (List.mem_cons_of_mem _ hb))
      exact ⟨hw _ (h2 _ hk), hs _ h2, ⟨F, B, _, h3⟩⟩
    · exact ⟨hw _ rfl, hs _ fun _ _ => rfl, ⟨_, _, _, rfl⟩⟩

/-- The registers that a reading and the entry of a state write. -/
def enterFlds (n : Nat) : List Fld := [voltFld n, currentFld n, feedFld n] ++ reportFlds

/-- A feed has entered a state, and nothing follows. -/
def Quiet (s : State) (n : Nat) (mv : Int) (t : Nat) (u : State) : Prop :=
  ReadAt s n mv t u ∧ SameRegs s u (enterFlds n) ∧ SameRest s { u with free := s.free, pwr := { u.pwr with at_ := s.pwr.at_ }, bbx := s.bbx }

/-- The same, with the state of the feed and the form of the machine. -/
def Entered (s : State) (n st : Nat) (mv : Int) (t : Nat) (w : State) : Prop :=
  w.feed n = st ∧ ReadAt s n mv t w ∧ SameRegs s w (enterFlds n)
    ∧ ∃ F L k B A, w = { s with fields := F, free := L, tmb := k, bbx := B, pwr := { s.pwr with at_ := A } }

theorem Entered.quiet {s w : State} {n st t : Nat} {mv : Int} (h : Entered s n st mv t w) : w.feed n = st ∧ Quiet s n mv t w := by
  obtain ⟨h1, h2, h3, F, L, k, B, A, h4⟩ := h
  exact ⟨h1, h2, h3, by rw [h4]; exact sameRest_mk_hrv s _ _ _⟩

theorem voltFld_not_reported (n : Nat) : (voltFld n).key ∉ (feedFld n :: reportFlds).map Fld.key := by
  obtain e | e := voltFld_eq n <;> obtain e' | e' := feedFld_eq n <;> rw [e, e'] <;> decide

theorem entered_feedTo (s : State) (n st : Nat) (mv : Int) (t : Nat) (hst : st < 8) :
    Entered s n st mv t (State.feedTo n st mv (State.feedRead n mv (s.advance t))) := by
  obtain ⟨⟨h1, ht⟩, h2, F, L, k, h3⟩ := feedRead_keeps s n mv t
  generalize State.feedRead n mv (s.advance t) = v at *
  obtain ⟨h4, h5, F', B, A, h6⟩ := feedTo_keeps n st mv v hst
  refine ⟨h4, ⟨(h5 _ (voltFld_not_reported n)).trans h1, by rw [h6]; exact ht⟩, fun f hf => ?_, ?_⟩
  · rw [enterFlds, List.map_append, List.mem_append, not_or] at hf
    obtain ⟨f1, f2⟩ := hf
    simp only [List.map_cons, List.map_nil, List.mem_cons, List.not_mem_nil, or_false, not_or] at f1
    obtain ⟨g1, g2, g3⟩ := f1
    rw [h5 f (by rw [List.map_cons, List.mem_cons, not_or]; exact ⟨g3, f2⟩)]
    exact h2 f (by simp only [feedReadFlds, List.map_cons, List.map_nil, List.mem_cons, List.not_mem_nil, or_false, not_or]; exact ⟨g1, g2⟩)
  · rw [h6, h3]
    exact ⟨_, _, _, _, _, rfl⟩

/-- Which feed is in range depends on its state alone. -/
theorem feedOk_of_feed {s u : State} {f g : Nat} (h : u.feed f = s.feed g) : u.feedOk f = s.feedOk g := by
  rw [State.feedOk, State.feedOk, h]

theorem feedOk_eq_false {s : State} {f : Nat} (h1 : s.feed f ≠ 1) (h2 : s.feed f ≠ 2) (h7 : s.feed f ≠ 7) : s.feedOk f = false := by
  simp [State.feedOk, h1, h2, h7]

theorem feedOk_iff (s : State) (f : Nat) : s.feedOk f = true ↔ s.feed f = 1 ∨ s.feed f = 2 ∨ s.feed f = 7 := by
  simp [State.feedOk, or_assoc]

theorem onlyRead_feed {s w : State} {n t : Nat} {mv : Int} (h : OnlyRead s n mv t w) (g : Nat) : w.feed g = s.feed g := by
  refine h.2.1 _ ?_
  obtain e | e := feedFld_eq g <;> obtain e1 | e1 := voltFld_eq n <;> obtain e2 | e2 := currentFld_eq n <;> rw [feedReadFlds, e, e1, e2] <;> decide

theorem Entered.active {s w : State} {n st t : Nat} {mv : Int} (h : Entered s n st mv t w) : w.rd PWR_STAT_active = s.rd PWR_STAT_active := by
  refine h.2.2.1 _ ?_
  obtain e | e := feedFld_eq n <;> obtain e1 | e1 := voltFld_eq n <;> obtain e2 | e2 := currentFld_eq n <;> rw [enterFlds, e, e1, e2] <;> decide

theorem Entered.count {s w : State} {n st t : Nat} {mv : Int} (h : Entered s n st mv t w) : w.rd PWR_SWITCH_count = s.rd PWR_SWITCH_count := by
  refine h.2.2.1 _ ?_
  obtain e | e := feedFld_eq n <;> obtain e1 | e1 := voltFld_eq n <;> obtain e2 | e2 := currentFld_eq n <;> rw [enterFlds, e, e1, e2] <;> decide

theorem Entered.other {s w : State} {n st t : Nat} {mv : Int} (h : Entered s n st mv t w) (hn : n ≤ 1) : w.feed (1 - n) = s.feed (1 - n) := by
  refine h.2.2.1 _ ?_
  have : n = 0 ∨ n = 1 := by omega
  obtain rfl | rfl := this <;> decide

/-! ### The active feed -/

theorem feedEval_of_ok {s : State} (fresh : Bool) (mv : Int) (h : s.feedOk (s.rd PWR_STAT_active) = true) : State.feedEval fresh mv s = s := by
  rw [State.feedEval]
  dsimp only
  rw [if_pos h]

theorem feedEval_switches {s : State} (fresh : Bool) (mv : Int) (h : s.feedOk (s.rd PWR_STAT_active) = false)
    (ho : s.feedOk (1 - s.rd PWR_STAT_active) = true) (hl : s.pwr.lostAt = none ∨ s.hks.rails = false) :
    State.feedEval fresh mv s = State.switchTo (1 - s.rd PWR_STAT_active) (switchCause (s.feed (s.rd PWR_STAT_active))) mv s := by
  rw [State.feedEval]
  dsimp only
  rw [if_neg (by simp [h]), if_pos ⟨ho, by rwa [Option.isNone_iff_eq_none]⟩]

theorem feedEval_waits {s : State} (fresh : Bool) (mv : Int) (h : s.feedOk (s.rd PWR_STAT_active) = false)
    (ho : s.feedOk (1 - s.rd PWR_STAT_active) = true) (hl : s.pwr.lostAt ≠ none) (hr : s.hks.rails = true) :
    State.feedEval fresh mv s = s := by
  rw [State.feedEval]
  dsimp only
  rw [if_neg (by simp [h]), if_neg (by simp [hl, hr]), if_pos ho]

/-- The registers that what follows for the active feed leaves. -/
theorem feedEval_keeps (fresh : Bool) (mv : Int) (s : State) :
    SameRegs s (State.feedEval fresh mv s) switchFlds ∧ (State.feedEval fresh mv s).tmb = s.tmb := by
  rw [State.feedEval]
  dsimp only
  split
  · exact ⟨fun _ _ => rfl, rfl⟩
  split
  · obtain ⟨-, -, -, -, h, F, A, B, p, e⟩ := switchTo_keeps (1 - s.rd PWR_STAT_active) (switchCause (s.feed (s.rd PWR_STAT_active))) mv s
    exact ⟨h, by rw [e]⟩
  split
  · exact ⟨fun _ _ => rfl, rfl⟩
  · exact ⟨fun _ _ => rfl, rfl⟩

theorem feedEval_lost {s : State} (fresh : Bool) (mv : Int) (h : s.feedOk (s.rd PWR_STAT_active) = false)
    (ho : s.feedOk (1 - s.rd PWR_STAT_active) = false) :
    ∃ b, State.feedEval fresh mv s =
      { s with pwr := { s.pwr with lostAt := some (if fresh then s.tmb.kt else s.pwr.lostAt.getD s.tmb.kt), absent := b } } := by
  rw [State.feedEval]
  dsimp only
  rw [if_neg (by simp [h]), if_neg (by simp [ho]), if_neg (by simp [ho])]
  exact ⟨_, rfl⟩

/-- What a feed that leaves its range does, by which feed is active and whether the other one is in range (R394, R396, R397). -/
def LeftRange (s : State) (n : Nat) (mv : Int) (t : Nat) (st : Nat) (c : Instr) : Prop :=
  let act := s.rd PWR_STAT_active
  let since := if s.feedOk n then max s.tmb.kt t else s.pwr.lostAt.getD (max s.tmb.kt t)
  act ≤ 1 → s.feed n ≠ st → (act ≠ n → s.feedOk act = true → Answers c s fun u => u.feed n = st ∧ Quiet s n mv t u)
    ∧ (act = n → s.feedOk (1 - n) = true → s.pwr.lostAt = none ∨ s.hks.rails = false → Answers c s fun u => u.feed n = st ∧ ReadAt s n mv t u
        ∧ u.rd PWR_STAT_active = 1 - n ∧ u.rd PWR_SWITCH_count = (s.rd PWR_SWITCH_count + 1) % 2 ^ 24
        ∧ u.rd PWR_SWITCH_cause = switchCause st ∧ bit (u.rd PWR_EVT_bits) 0 = true ∧ u.pwr.lostAt = s.pwr.lostAt)
    ∧ (act = n → s.feedOk (1 - n) = true → s.pwr.lostAt ≠ none → s.hks.rails = true → Answers c s fun u => u.feed n = st ∧ Quiet s n mv t u)
    ∧ (s.feedOk (1 - n) = false → Answers c s fun u => u.feed n = st ∧ ReadAt s n mv t u ∧ u.rd PWR_STAT_active = act
        ∧ u.pwr.lostAt = some since)

theorem switchCause_lt (st : Nat) : switchCause st < 256 := by
  unfold switchCause
  split <;> decide

theorem feedFld_not_switched (n : Nat) : (feedFld n).key ∉ switchFlds.map Fld.key := by
  obtain e | e := feedFld_eq n <;> rw [e] <;> decide

theorem voltFld_not_switched (n : Nat) : (voltFld n).key ∉ switchFlds.map Fld.key := by
  obtain e | e := voltFld_eq n <;> rw [e] <;> decide

theorem leftRange {s w : State} {n st t : Nat} {mv : Int} {c : Instr} {f : State → State} (he : exec c s = State.performAt t f s)
    (hd : s.pwr.dead = false) (hn : n ≤ 1) (hst : st = 0 ∨ 3 ≤ st ∧ st ≤ 6) (hw : Entered s n st mv t w)
    (hf : s.feed n ≠ st → f s = State.feedEval (s.feedOk n) mv w) : LeftRange s n mv t st c := by
  have ha := hw.active
  have hc := hw.count
  have ho := feedOk_of_feed (hw.other hn)
  obtain ⟨h1, h2, h3, F, L, k, B, A, h4⟩ := id hw
  have hl : w.pwr.lostAt = s.pwr.lostAt := by rw [h4]
  have hr : w.hks.rails = s.hks.rails := by rw [h4]
  have hbad : w.feedOk n = false := feedOk_eq_false (by omega) (by omega) (by omega)
  unfold LeftRange
  intro act since hact hne
  have hfs := hf hne
  have hother : act ≠ n → act = 1 - n := fun h => by omega
  refine ⟨fun h hok => Answers.of_performAt he hd ?_, fun h hok hs => Answers.of_performAt he hd ?_, fun h hok hs hs' => Answers.of_performAt he hd ?_,
    fun h => ?_⟩
  · rw [hfs, feedEval_of_ok _ _ (by rw [ha, show s.rd PWR_STAT_active = 1 - n from hother h, ho, ← hother h]; exact hok)]
    exact hw.quiet
  · have ha' : w.rd PWR_STAT_active = n := ha.trans h
    rw [hfs, feedEval_switches _ _ (by rw [ha']; exact hbad) (by rw [ha', ho]; exact hok) (by rw [hl, hr]; exact hs), ha', h1]
    obtain ⟨k1, k2, k3, k4, k5, F', A', B', p, k6⟩ := switchTo_keeps (1 - n) (switchCause st) mv w
    refine ⟨(k5 _ (feedFld_not_switched n)).trans h1, ⟨(k5 _ (voltFld_not_switched n)).trans h2.1, by rw [k6]; exact h2.2⟩, ?_, ?_, ?_, k4,
      by rw [k6]; exact hl⟩
    · rw [k1]
      omega
    · rw [k3, hc]
    · rw [k2, Nat.mod_eq_of_lt (switchCause_lt st)]
  · have ha' : w.rd PWR_STAT_active = n := ha.trans h
    rw [hfs, feedEval_waits _ _ (by rw [ha']; exact hbad) (by rw [ha', ho]; exact hok) (by rw [hl]; exact hs) (by rw [hr]; exact hs')]
    exact hw.quiet
  · have hboth : w.feedOk act = false ∧ w.feedOk (1 - act) = false := by
      by_cases e : act = n
      · rw [e, ho]
        exact ⟨hbad, h⟩
      · rw [hother e, ho, show 1 - (1 - n) = n by omega]
        exact ⟨h, hbad⟩
    obtain ⟨b, e⟩ := feedEval_lost (s := w) (s.feedOk n) mv (by rw [ha]; exact hboth.1) (by rw [ha]; exact hboth.2)
    refine Answers.of_performAt he hd ?_
    rw [hfs, e]
    have ht : w.tmb.kt = max s.tmb.kt t := h2.2
    refine ⟨h1, h2, ha, ?_⟩
    show some _ = some since
    rw [ht, hl]

/-! ### Leaving the range -/

theorem feedLeaves_answers {s : State} {f : Feed} {mv : Int} {t : Nat} (hd : s.pwr.dead = false) (k : FeedFault) :
    let st := match k with | .low => 3 | .high => 4 | .reversed => 5 | .shorted => 6
    (faultFits st mv = true → LeftRange s (feedNo f) mv t st (.feedLeavesRange f k mv t))
      ∧ (s.feed (feedNo f) = st ∨ faultFits st mv = false → Answers (.feedLeavesRange f k mv t) s (OnlyRead s (feedNo f) mv t)) := by
  intro st
  have hst : 3 ≤ st ∧ st ≤ 6 := by
    show 3 ≤ (match k with | .low => 3 | .high => 4 | .reversed => 5 | .shorted => 6 : Nat) ∧ _ ≤ 6
    cases k <;> decide
  have he : State.feedLeaves (feedNo f) k mv t s = if (State.feedRead (feedNo f) mv (s.advance t)).feed (feedNo f) = st ∨ (!faultFits st mv) = true then
      State.feedRead (feedNo f) mv (s.advance t)
    else State.feedEval ((State.feedRead (feedNo f) mv (s.advance t)).feedOk (feedNo f)) mv
      (State.feedTo (feedNo f) st mv (State.feedRead (feedNo f) mv (s.advance t))) := by
    cases k <;> rfl
  have hw := entered_feedTo s (feedNo f) st mv t (by omega)
  have ho := onlyRead_feedRead s (feedNo f) mv t
  rw [onlyRead_feed ho, feedOk_of_feed (onlyRead_feed ho _)] at he
  refine ⟨fun hf => leftRange (exec_feedLeavesRange _ _ _ _ _) hd (feedNo_le f) (.inr hst) hw fun hne => ?_, fun h => ?_⟩
  · rw [he, if_neg (by simp [hne, hf])]
  · refine Answers.of_performAt (exec_feedLeavesRange _ _ _ _ _) hd ?_
    rw [he, if_pos (by simpa using h)]
    exact ho

/-- A reading leaves when each feed entered its state. -/
theorem feedRead_since (s : State) (n : Nat) (mv : Int) (t g : Nat) : (State.feedRead n mv (s.advance t)).feedSince g = s.feedSince g
    ∧ (State.feedRead n mv (s.advance t)).tmb.kt = max s.tmb.kt t := by
  obtain ⟨⟨-, ht⟩, -, F, L, k, h⟩ := feedRead_keeps s n mv t
  exact ⟨by rw [h]; rfl, ht⟩

/-- The sense test of a feed runs (R393). -/
abbrev SenseRuns (s : State) (n t : Nat) : Prop := s.feed n = 0 ∨ s.feed n = 6 ∨ s.feed n = 3 ∧ s.feedSince n + 1000 * usF ≤ max s.tmb.kt t

theorem feedSense_eq (s : State) (n : Nat) (short : Bool) (mv : Int) (t : Nat) :
    State.feedSense n short mv t s =
      if ¬SenseRuns s n t ∨ ¬(thrLo (-1000) ≤ mv ∧ mv ≤ thrHi 5000) ∨ s.feed n = (if short then 6 else 0) then State.feedRead n mv (s.advance t)
      else State.feedEval false mv (State.feedTo n (if short then 6 else 0) mv (State.feedRead n mv (s.advance t))) := by
  have h1 := onlyRead_feed (onlyRead_feedRead s n mv t) n
  obtain ⟨h2, h3⟩ := feedRead_since s n mv t n
  rw [State.feedSense]
  generalize State.feedRead n mv (s.advance t) = w at *
  rw [h1, h2, h3]
  refine if_congr ?_ rfl rfl
  rw [SenseRuns]
  generalize 1000 * usF = c
  simp only [Bool.not_eq_true', Bool.or_eq_false_iff, Bool.and_eq_false_iff, decide_eq_false_iff_not]
  tauto

theorem feedSense_answers {s : State} {f : Feed} {mv : Int} {t : Nat} (hd : s.pwr.dead = false) (short : Bool) :
    (SenseRuns s (feedNo f) t → thrLo (-1000) ≤ mv ∧ mv ≤ thrHi 5000 → LeftRange s (feedNo f) mv t (if short then 6 else 0) (.feedSenseTest f short mv t))
      ∧ (¬SenseRuns s (feedNo f) t ∨ ¬(thrLo (-1000) ≤ mv ∧ mv ≤ thrHi 5000) ∨ s.feed (feedNo f) = (if short then 6 else 0) →
          Answers (.feedSenseTest f short mv t) s (OnlyRead s (feedNo f) mv t)) := by
  have he := feedSense_eq s (feedNo f) short mv t
  have hst : (if short then 6 else 0) = 0 ∨ 3 ≤ (if short then 6 else 0) ∧ (if short then 6 else 0) ≤ 6 := by cases short <;> decide
  generalize (if short then 6 else 0) = st at he hst ⊢
  refine ⟨fun hr hm => leftRange (exec_feedSenseTest _ _ _ _ _) hd (feedNo_le f) hst (entered_feedTo s _ st mv t (by omega)) fun hne => ?_, fun h => ?_⟩
  · have hbad : s.feedOk (feedNo f) = false := by
      rw [SenseRuns] at hr
      exact feedOk_eq_false (by omega) (by omega) (by omega)
    rw [he, if_neg (by tauto), hbad]
  · refine Answers.of_performAt (exec_feedSenseTest _ _ _ _ _) hd ?_
    rw [he, if_pos h]
    exact onlyRead_feedRead s _ mv t

/-! ### Coming back -/

theorem feedChoose_eq (n : Nat) (s : State) : State.feedChoose n s =
    if s.hks.rails = false ∧ (s.feedOk (s.rd PWR_STAT_active) = false
        ∨ n = 0 ∧ s.feed 1 = 7 ∧ s.pwr.offAt = none ∧ s.feedSince 1 = s.tmb.kt) then s.wr PWR_STAT_active n else s := by
  rw [State.feedChoose]
  refine if_congr ?_ rfl rfl
  simp [and_assoc]

/-- A feed that comes back into its range is chosen as the active one (R394). -/
abbrev FeedChosen (s : State) (n t : Nat) : Prop := s.hks.rails = false ∧ (s.feedOk (s.rd PWR_STAT_active) = false
  ∨ n = 0 ∧ s.feed 1 = 7 ∧ s.pwr.offAt = none ∧ s.feedSince 1 = max s.tmb.kt t)

theorem feedQualify_answers {s : State} {f : Feed} {mv : Int} {t : Nat} (hd : s.pwr.dead = false) (hbad : s.feedOk (feedNo f) = false)
    (hq : qualFits (s.feed (feedNo f)) mv = true) : Answers (.feedQual f mv t) s fun u => u.feed (feedNo f) = 7 ∧ ReadAt s (feedNo f) mv t u
        ∧ (s.hks.rails = false → s.feedOk (s.rd PWR_STAT_active) = false → u.rd PWR_STAT_active = feedNo f)
        ∧ (feedNo f = 0 → s.hks.rails = false → s.pwr.offAt = none → s.feed 1 = 7 → s.feedSince 1 = max s.tmb.kt t → u.rd PWR_STAT_active = 0) := by
  refine Answers.of_performAt (exec_feedQual _ _ _ _) hd ?_
  have hn := feedNo_le f
  have ho := onlyRead_feedRead s (feedNo f) mv t
  have hfeed := onlyRead_feed ho
  have hs1 := (feedRead_since s (feedNo f) mv t 1).1
  have hbad' : ¬(s.feed (feedNo f) = 1 ∨ s.feed (feedNo f) = 2 ∨ s.feed (feedNo f) = 7 ∨ (!qualFits (s.feed (feedNo f)) mv) = true) := by
    have := mt (feedOk_iff s (feedNo f)).2 (by simp [hbad])
    simp only [hq, Bool.not_true, Bool.false_eq_true, or_false]
    exact this
  obtain ⟨⟨hv, ht⟩, hregs, F, L, k, hw⟩ := feedRead_keeps s (feedNo f) mv t
  have hact : (State.feedRead (feedNo f) mv (s.advance t)).rd PWR_STAT_active = s.rd PWR_STAT_active := by
    refine hregs _ ?_
    obtain e1 | e1 := voltFld_eq (feedNo f) <;> obtain e2 | e2 := currentFld_eq (feedNo f) <;> rw [feedReadFlds, e1, e2] <;> decide
  rw [State.feedQualify]
  generalize State.feedRead (feedNo f) mv (s.advance t) = w at *
  generalize feedNo f = n at *
  have hrails : w.hks.rails = s.hks.rails := by rw [hw]
  have hoff : w.pwr.offAt = s.pwr.offAt := by rw [hw]
  dsimp only
  rw [hfeed n, if_neg hbad', feedChoose_eq, hrails, hact, feedOk_of_feed (hfeed _), hfeed 1, hoff, hs1, show w.tmb.kt = max s.tmb.kt t from ht]
  have key : ∀ v : State, v.tmb = w.tmb → SameRegs w v [PWR_STAT_active] → (FeedChosen s n t → v.rd PWR_STAT_active = n) →
      let x := State.feedTo n 7 mv v
      let u := if x.feedOk (x.rd PWR_STAT_active) then x else if x.pwr.lostAt.isNone then x.feedEval true mv else x
      u.feed n = 7 ∧ ReadAt s n mv t u ∧ (FeedChosen s n t → u.rd PWR_STAT_active = n) := by
    intro v hvt hvr hva
    obtain ⟨x1, x2, F', B, A, x3⟩ := feedTo_keeps n 7 mv v (by decide)
    have x4 : (State.feedTo n 7 mv v).rd PWR_STAT_active = v.rd PWR_STAT_active := x2 _ (by
      obtain e | e := feedFld_eq n <;> rw [e] <;> decide)
    have x5 : (State.feedTo n 7 mv v).rd (voltFld n) = satU 16 (rnd mv 10) := (x2 _ (voltFld_not_reported n)).trans ((hvr _ (by
      obtain e | e := voltFld_eq n <;> rw [e] <;> decide)).trans hv)
    have x6 : TimeAt s (State.feedTo n 7 mv v) t := by
      rw [x3]
      show v.tmb.kt = _
      rw [hvt]
      exact ht
    generalize State.feedTo n 7 mv v = x at x1 x4 x5 x6 ⊢
    have hx : FeedChosen s n t → x.feedOk (x.rd PWR_STAT_active) = true := fun h => by
      rw [x4, hva h, feedOk_iff, x1]
      decide
    dsimp only
    split
    · exact ⟨x1, ⟨x5, x6⟩, fun h => x4.trans (hva h)⟩
    next hno =>
    split
    · obtain ⟨y1, y2⟩ := feedEval_keeps true mv x
      exact ⟨(y1 _ (feedFld_not_switched n)).trans x1, ⟨(y1 _ (voltFld_not_switched n)).trans x5, by rw [TimeAt, y2]; exact x6⟩,
        fun h => absurd (hx h) hno⟩
    · exact ⟨x1, ⟨x5, x6⟩, fun h => x4.trans (hva h)⟩
  have fin : ∀ u : State, (u.feed n = 7 ∧ ReadAt s n mv t u ∧ (FeedChosen s n t → u.rd PWR_STAT_active = n)) → u.feed n = 7 ∧ ReadAt s n mv t u
        ∧ (s.hks.rails = false → s.feedOk (s.rd PWR_STAT_active) = false → u.rd PWR_STAT_active = n)
        ∧ (n = 0 → s.hks.rails = false → s.pwr.offAt = none → s.feed 1 = 7 → s.feedSince 1 = max s.tmb.kt t → u.rd PWR_STAT_active = 0) :=
    fun u ⟨u1, u2, u3⟩ => ⟨u1, u2, fun a b => u3 ⟨a, .inl b⟩, fun a b d e g => (u3 ⟨b, .inr ⟨a, e, d, g⟩⟩).trans a⟩
  refine fin _ (key _ ?_ ?_ ?_)
  · split <;> rfl
  · split
    · exact fun g hg => State.rd_wr_ne _ _ _ _ fun x => hg (by simp [x])
    · exact fun _ _ => rfl
  · intro h
    rw [if_pos h, State.rd_wr_same]
    exact Nat.mod_eq_of_lt (show n < 2 ^ 1 by omega)

theorem feedQualify_reads {s : State} {f : Feed} {mv : Int} {t : Nat} (hd : s.pwr.dead = false)
    (h : s.feedOk (feedNo f) = true ∨ qualFits (s.feed (feedNo f)) mv = false) : Answers (.feedQual f mv t) s (OnlyRead s (feedNo f) mv t) := by
  refine Answers.of_performAt (exec_feedQual _ _ _ _) hd ?_
  have ho := onlyRead_feedRead s (feedNo f) mv t
  rw [State.feedQualify]
  dsimp only
  rw [onlyRead_feed ho, if_pos]
  · exact ho
  · rw [feedOk_iff] at h
    simpa [or_assoc] using h

theorem feedGood_eq (s : State) (n : Nat) (mv : Int) (t : Nat) : State.feedGood n mv t s =
    if s.feed n = 7 ∧ s.feedSince n + 100000 * usF ≤ max s.tmb.kt t ∧ goodFits mv = true then
      State.feedTo n 1 mv (State.feedRead n mv (s.advance t)) else State.feedRead n mv (s.advance t) := by
  have h1 := onlyRead_feed (onlyRead_feedRead s n mv t) n
  obtain ⟨h2, h3⟩ := feedRead_since s n mv t n
  rw [State.feedGood]
  rw [h1, h2, h3]

theorem feedMargin_eq (s : State) (n : Nat) (back : Bool) (mv : Int) (t : Nat) : State.feedMargin n back mv t s =
    if s.feed n = (if back then 2 else 1) ∧ (if back then backFits (s.feedMv n) mv else marginFits mv) = true then
      State.feedTo n (if back then 1 else 2) mv (State.feedRead n mv (s.advance t)) else State.feedRead n mv (s.advance t) := by
  have h1 := onlyRead_feed (onlyRead_feedRead s n mv t) n
  rw [State.feedMargin]
  rw [h1]

theorem feedGood_answers {s : State} {f : Feed} {mv : Int} {t : Nat} (hd : s.pwr.dead = false) :
    let due := s.feed (feedNo f) = 7 ∧ s.feedSince (feedNo f) + 100000 * usF ≤ max s.tmb.kt t ∧ goodFits mv = true
    (due → Answers (.feedGood f mv t) s fun u => u.feed (feedNo f) = 1 ∧ Quiet s (feedNo f) mv t u)
      ∧ (¬due → Answers (.feedGood f mv t) s (OnlyRead s (feedNo f) mv t)) := by
  refine ⟨fun h => Answers.of_performAt (exec_feedGood _ _ _ _) hd ?_, fun h => Answers.of_performAt (exec_feedGood _ _ _ _) hd ?_⟩
  · rw [feedGood_eq, if_pos h]
    exact (entered_feedTo s _ 1 mv t (by decide)).quiet
  · rw [feedGood_eq, if_neg h]
    exact onlyRead_feedRead s _ mv t

theorem feedMargin_answers {s : State} {f : Feed} {mv : Int} {t : Nat} (hd : s.pwr.dead = false) (back : Bool) :
    let fits := s.feed (feedNo f) = (if back then 2 else 1) ∧ (if back then backFits (s.feedMv (feedNo f)) mv else marginFits mv) = true
    (fits → Answers (.feedMargin f back mv t) s fun u => u.feed (feedNo f) = (if back then 1 else 2) ∧ Quiet s (feedNo f) mv t u)
      ∧ (¬fits → Answers (.feedMargin f back mv t) s (OnlyRead s (feedNo f) mv t)) := by
  refine ⟨fun h => Answers.of_performAt (exec_feedMargin _ _ _ _ _) hd ?_, fun h => Answers.of_performAt (exec_feedMargin _ _ _ _ _) hd ?_⟩
  · rw [feedMargin_eq, if_pos h]
    exact (entered_feedTo s _ _ mv t (by cases back <;> decide)).quiet
  · rw [feedMargin_eq, if_neg h]
    exact onlyRead_feedRead s _ mv t

/-! ### The bounds in mV, with the accuracy of ±1 % and the 0.3 V of re-entry (R392, R393) -/

theorem thrLo_34000 : thrLo 34000 = 33660 := by decide
theorem thrHi_34000 : thrHi 34000 = 34340 := by decide
theorem thrLo_36000 : thrLo 36000 = 35640 := by decide
theorem thrHi_60000 : thrHi 60000 = 60600 := by decide
theorem thrLo_62000 : thrLo 62000 = 61380 := by decide
theorem thrHi_62000 : thrHi 62000 = 62620 := by decide
theorem thrLo_minus : thrLo (-1000) = -1010 := by decide
theorem thrHi_minus : thrHi (-1000) = -990 := by decide

theorem qualFits_bounds (st : Nat) (mv : Int) :
    (34300 ≤ mv → mv ≤ 61700 → qualFits st mv = true) ∧ (mv < 33660 ∨ 62620 < mv → qualFits st mv = false) := by
  rw [qualFits, thrLo_34000, thrHi_62000, reentry]
  simp only [Bool.and_eq_true, decide_eq_true_eq, Bool.and_eq_false_iff, decide_eq_false_iff_not]
  split <;> omega

theorem goodFits_bounds (mv : Int) : (36000 ≤ mv → mv ≤ 60000 → goodFits mv = true) ∧ (mv < 35640 ∨ 60600 < mv → goodFits mv = false) := by
  rw [goodFits, thrLo_36000, thrHi_60000]
  simp only [Bool.and_eq_true, decide_eq_true_eq, Bool.and_eq_false_iff, decide_eq_false_iff_not]
  omega

theorem faultFits_bounds (mv : Int) :
    (-1000 ≤ mv → mv ≤ 34000 → faultFits 3 mv = true) ∧ (62000 ≤ mv → faultFits 4 mv = true) ∧ (mv ≤ -1000 → faultFits 5 mv = true)
      ∧ (34340 < mv → faultFits 3 mv = false) ∧ (mv < 61380 → faultFits 4 mv = false) ∧ (-990 < mv → faultFits 5 mv = false) := by
  simp only [faultFits, thrLo_minus, thrHi_minus, thrHi_34000, thrLo_62000, Bool.and_eq_true, decide_eq_true_eq, Bool.and_eq_false_iff,
    decide_eq_false_iff_not]
  omega

/-- Settles O54: each command of a feed by the state the feed is in and by the voltage. -/
theorem feedStates : Obligations.FeedStates := by
  unfold Obligations.FeedStates
  intro s f mv t hd
  obtain ⟨g1, g2⟩ := goodFits_bounds mv
  exact ⟨fun k => feedLeaves_answers hd k, fun short => feedSense_answers hd short, feedQualify_answers hd, feedQualify_reads hd,
    feedGood_answers hd, fun back => feedMargin_answers hd back, fun st => qualFits_bounds st mv, g1, g2, faultFits_bounds mv⟩

end Sys2Proof
end

