-- ==== Sys2Proof/Proofs/ConfigurationMemory.lean ====
section
/-! SUPPORT. The start, the end and the time-out of an operation on the configuration memory: the statement of O53. -/

namespace Sys2Proof

open Machine

/-! ### The start -/

/-- What a refusal depends on. -/
theorem nvRefused_congr {s u : State} (op a : Nat) (h1 : u.hks = s.hks) (h2 : u.rd HKS_NV_CTL_busy = s.rd HKS_NV_CTL_busy)
    (h3 : u.mode = s.mode) (h4 : u.rd HKS_NV_CTL_bbx_ok = s.rd HKS_NV_CTL_bbx_ok) : u.nvRefused op a = s.nvRefused op a := by
  rw [State.nvRefused, State.nvRefused, State.nvHitsBbx, State.nvHitsBbx, State.on, State.on, State.on, State.on, h1, h2, h3, h4]

/-- A write with its time stores registers, moves the time, and ends L1.2. -/
theorem stored_advance (l : List Fld) (v : Nat) (s : State) (t : Nat) (p : Port) : ∃ F b k,
    stored l v (s.advance t) p = { s with fields := F, tmb := k, hrv := { s.hrv with l12 := b } } ∧ k.kt = max s.tmb.kt t := by
  obtain ⟨F, b, h⟩ := stored_moves l v (s.advance t) p
  obtain ⟨k, hk, hkt⟩ := s.advance_moves t
  exact ⟨F, b, k, h.trans (by rw [hk]), hkt⟩

/-- The fields of HKS_NV_CTL that a write stores. -/
def nvCtlFlds : List Fld := [HKS_NV_CTL_err, HKS_NV_CTL_bbx_ok]

theorem effect_nv (p : Port) (w bm : Nat) (o x : State) (h : HKS_NV_CTL_op.of w ≠ 0) (h4 : HKS_NV_CTL_op.of w ≤ 4) :
    State.effect p HKS_NV_CTL_op.addr w bm o x =
      if x.nvRefused (HKS_NV_CTL_op.of w) (x.rd HKS_NV_ADDR_addr) then x.wr HKS_NV_CTL_err 1 else
      { x.wr HKS_NV_CTL_busy 1 with
        hks := { x.hks with nvOp := some (HKS_NV_CTL_op.of w, x.rd HKS_NV_ADDR_addr, x.tmb.kt),
                            nvPage := if HKS_NV_CTL_op.of w = 2 then x.scr.bytes pageBuf 256 else [] } } := by
  have he : State.effect p HKS_NV_CTL_op.addr w bm o x = State.nvStart (HKS_NV_CTL_op.of w) x := rfl
  rw [he, State.nvStart, if_neg (by omega)]

theorem nvWrite_eq {s : State} {p : Port} {t w : Nat} (h : Reaches p HKS_NV_CTL_op.addr s) (hw : w < 2 ^ 32) (h0 : HKS_NV_CTL_op.of w ≠ 0)
    (h4 : HKS_NV_CTL_op.of w ≤ 4) :
    let x := stored nvCtlFlds w (s.advance t) p
    ∃ q, State.writeAt p HKS_NV_CTL_op.addr w t s =
      { (if x.nvRefused (HKS_NV_CTL_op.of w) (x.rd HKS_NV_ADDR_addr) then x.wr HKS_NV_CTL_err 1 else
        { x.wr HKS_NV_CTL_busy 1 with
          hks := { x.hks with nvOp := some (HKS_NV_CTL_op.of w, x.rd HKS_NV_ADDR_addr, x.tmb.kt),
                              nvPage := if HKS_NV_CTL_op.of w = 2 then x.scr.bytes pageBuf 256 else [] } }) with irqSeen := q } := by
  have hc : (s.advance t).closed HKS_NV_CTL_op.addr = false := by simp [State.closed, HKS_NV_CTL_op]
  intro x
  rw [State.writeAt, portWrite_stores p _ w _ nvCtlFlds (h.advance t) hw (by decide) (by decide) hc (by rfl) (by rfl), effect_nv p w _ _ _ h0 h4]
  exact State.reSignal_moves _ _

/-- The word that the command writes. -/
def nvWord (v : Word) (op : Nat) : Nat := v.toNat / 8 * 8 + op

theorem nvWord_op (v : Word) {op : Nat} (h : op ≤ 4) : HKS_NV_CTL_op.of (nvWord v op) = op := by
  simp only [Fld.of, HKS_NV_CTL_op, nvWord]
  omega

theorem nvWord_ok (v : Word) {op : Nat} (h : op ≤ 4) : HKS_NV_CTL_bbx_ok.of (nvWord v op) = v.toNat / 2 ^ 29 % 2 := by
  simp only [Fld.of, HKS_NV_CTL_bbx_ok, nvWord]
  omega

theorem nvWord_lt (v : Word) {op : Nat} (h : op ≤ 4) : nvWord v op < 2 ^ 32 := by
  have := v.isLt
  simp only [nvWord]
  omega

theorem nvStart_answers {s : State} {t : Nat} {p : Port} {v : Word} {op : Nat} {c : Instr} (h : Reaches p HKS_NV_CTL_op.addr s) (h1 : 1 ≤ op) (h4 : op ≤ 4)
    (hc : exec c s = State.performAt t (State.writeAt p HKS_NV_CTL_op.addr (nvWord v op) t) s) :
    let a := s.rd HKS_NV_ADDR_addr
    let refused := (s.wr HKS_NV_CTL_bbx_ok (v.toNat / 2 ^ 29 % 2)).nvRefused op a
    (refused = false → Answers c s fun u =>
      u.rd HKS_NV_CTL_busy = 1 ∧ u.hks.nvOp = some (op, a, max s.tmb.kt t)
        ∧ u.hks = { s.hks with nvOp := u.hks.nvOp, nvPage := if op = 2 then s.scr.bytes pageBuf 256 else [] }
        ∧ TimeAt s u t ∧ SameRegs s u [HKS_NV_CTL_busy, HKS_NV_CTL_err, HKS_NV_CTL_bbx_ok] ∧ SameRest s { u with hks := s.hks })
    ∧ (refused = true → Answers c s fun u =>
      u.rd HKS_NV_CTL_err = 1 ∧ TimeAt s u t ∧ SameRegs s u [HKS_NV_CTL_err, HKS_NV_CTL_bbx_ok] ∧ SameRest s u) := by
  intro a refused
  obtain ⟨q, e⟩ := nvWrite_eq (t := t) h (nvWord_lt v h4) (by rw [nvWord_op v h4]; omega) (by rw [nvWord_op v h4]; exact h4)
  rw [nvWord_op v h4] at e
  have hr : SameRegs s (stored nvCtlFlds (nvWord v op) (s.advance t) p) nvCtlFlds := fun f hf =>
    (rd_stored_ne _ _ _ hf).trans (State.rd_advance _ _ _)
  have hok : (stored nvCtlFlds (nvWord v op) (s.advance t) p).rd HKS_NV_CTL_bbx_ok = v.toNat / 2 ^ 29 % 2 := by
    rw [rd_stored _ _ _ (by simp [nvCtlFlds]) (by decide), Machine.Fld.stored_word _ _ rfl (by decide) (by decide)]
    show HKS_NV_CTL_bbx_ok.of (nvWord v op) % 2 ^ 1 = _
    rw [nvWord_ok v h4]
    omega
  obtain ⟨F, b, k, hx, hkt⟩ := stored_advance nvCtlFlds (nvWord v op) s t p
  have hu : (stored nvCtlFlds (nvWord v op) (s.advance t) p).nvRefused op a = refused :=
    nvRefused_congr op a (by rw [hx]; rfl) (by rw [hr _ (by decide), State.rd_wr_ne _ _ _ _ (by decide)])
      (by rw [State.mode, State.mode, hr _ (by decide), State.rd_wr_ne _ _ _ _ (by decide)])
      (by rw [hok, State.rd_wr_same]; exact (Nat.mod_eq_of_lt (Nat.mod_lt _ (by decide))).symm)
  have ha : (stored nvCtlFlds (nvWord v op) (s.advance t) p).rd HKS_NV_ADDR_addr = a := hr _ (by decide)
  rw [ha, hu] at e
  generalize stored nvCtlFlds (nvWord v op) (s.advance t) p = x at *
  have hxs : x.scr = s.scr := by rw [hx]
  have hxk : x.tmb.kt = max s.tmb.kt t := by rw [hx]; exact hkt
  refine ⟨fun hn => Answers.of_performAt hc h.1 ?_, fun hn => Answers.of_performAt hc h.1 ?_⟩
  · rw [e, hn, if_neg (by decide)]
    refine ⟨?_, ?_, ?_, hxk, fun f hf => ?_, ?_⟩
    · rw [State.rd_mk, State.rd_mk, State.rd_wr_same]
      rfl
    · rw [← hxk]
    · dsimp only
      rw [hx]
    · simp only [List.map_cons, List.map_nil, List.mem_cons, List.not_mem_nil, or_false, not_or] at hf
      rw [State.rd_mk, State.rd_mk, State.rd_wr_ne _ _ _ _ (Ne.symm hf.1)]
      exact hr f (by simp [nvCtlFlds, hf.2.1, hf.2.2])
    · rw [hx]
      exact sameRest_mk s _ _ _ _
  · rw [e, hn, if_pos rfl]
    refine ⟨?_, hxk, fun f hf => ?_, ?_⟩
    · rw [State.rd_mk, State.rd_wr_same]
      rfl
    · rw [State.rd_mk, State.rd_wr_ne _ _ _ _ fun y => hf (by simp [y])]
      exact hr f hf
    · rw [hx]
      exact sameRest_mk s _ _ _ _

/-! ### The end -/

theorem nvPut_moves (a : Nat) (bs : List Byte) (s : State) : ∃ m, State.nvPut a bs s = { s with nv := m } := ⟨_, rfl⟩

theorem nvPerform_moves (op a : Nat) (s : State) : ∃ m n k, State.nvPerform op a s = { s with scr := m, nv := n, free := k } := by
  unfold State.nvPerform
  dsimp only
  split
  · exact ⟨_, _, _, rfl⟩
  · exact ⟨_, _, _, rfl⟩
  · exact ⟨_, _, _, rfl⟩

/-- READ moves the page into the buffer. -/
theorem nvPerform_read (a : Nat) (s : State) : (State.nvPerform 1 a s).nv = s.nv
    ∧ (∀ i, i < 256 → s.hks.nvSize = 0 ∨ a + i < s.hks.nvSize → (State.nvPerform 1 a s).scr.read (pageBuf + i) = s.nv.read (a + i))
    ∧ (∀ x, x < pageBuf ∨ pageBuf + 256 ≤ x → (State.nvPerform 1 a s).scr.read x = s.scr.read x) := by
  refine ⟨rfl, fun i hi hin => ?_, fun x hx => ?_⟩
  · rw [State.nvPerform]
    dsimp only
    rw [Mem.read_write, List.length_map, List.length_range, if_pos (by omega), Nat.add_sub_cancel_left, List.getD_eq_getElem?_getD, List.getElem?_map,
      List.getElem?_range hi]
    dsimp only [Option.map_some, Option.getD_some]
    rw [if_pos]
    split <;> omega
  · rw [State.nvPerform]
    dsimp only
    rw [Mem.read_write, List.length_map, List.length_range, if_neg (by omega)]

theorem nvPerform_program (a : Nat) (s : State) : State.nvPerform 2 a s = s.nvPut (nvRange 2 a).1 s.hks.nvPage := rfl

theorem nvPerform_erase (a : Nat) (s : State) {op : Nat} (h3 : 3 ≤ op) : State.nvPerform op a s = s.nvErase (nvRange op a).1 (nvRange op a).2 := by
  unfold State.nvPerform
  dsimp only
  split
  · omega
  · omega
  · rfl

/-- The registers that the end of an operation writes. -/
theorem rd_nvIdle_ne {f : Fld} (s : State) (h : f.key ≠ HKS_NV_CTL_busy.key) : s.nvIdle.rd f = s.rd f :=
  State.rd_wr_ne s HKS_NV_CTL_busy f 0 (Ne.symm h)

theorem rd_nvIdle (s : State) : s.nvIdle.rd HKS_NV_CTL_busy = 0 := State.rd_wr_same s HKS_NV_CTL_busy 0

theorem nvDone_stays {s : State} {t : Nat} (hp : Powered s) (h : s.mode = 0 ∨ s.lands = false) :
    Answers (.nvDone t) s fun u => TimeAt s u t ∧ SameRegs s u [] ∧ SameRest s u := by
  refine Answers.of_performOnAt (exec_nvDone _ _) hp ?_
  have hm : (s.advance t).mode = s.mode := State.rd_advance _ _ _
  have hl : (s.advance t).lands = s.lands := by
    obtain ⟨k, hk, -⟩ := s.advance_moves t
    rw [hk]
    rfl
  have he : State.nvDone t s = s.advance t := by
    rw [State.nvDone]
    split
    · rw [if_pos (by rw [hm, hl]; rcases h with h | h <;> simp [h])]
    · rfl
  rw [he]
  exact unchanged_advance s t

theorem nvDone_eq {s : State} {t op a k : Nat} (hr : s.hks.rails = true) (hn : s.hks.nvOp = some (op, a, k)) (hm : s.mode ≠ 0) (hl : s.lands = true) :
    State.nvDone t s = ((State.nvPerform op a (s.advance t)).nvIdle).orF HKS_EVT_bits (2 ^ 3) := by
  have hm' : (s.advance t).mode = s.mode := State.rd_advance _ _ _
  have hl' : (s.advance t).lands = s.lands := by
    obtain ⟨k, hk, -⟩ := s.advance_moves t
    rw [hk]
    rfl
  rw [State.nvDone]
  rw [State.advance_hks, hn]
  dsimp only
  rw [if_neg (by rw [hm', hl', hr, hl]; simp [hm])]
  rfl

/-- What the end of an operation stores. -/
def NvEnded (s u : State) (op a : Nat) : Prop :=
  let r := nvRange op a
  let inDev := fun x => s.hks.nvSize = 0 ∨ x < s.hks.nvSize
  (op = 1 → u.nv = s.nv ∧ (∀ i, i < 256 → inDev (a + i) → u.scr.read (pageBuf + i) = s.nv.read (a + i))
      ∧ (∀ x, x < pageBuf ∨ pageBuf + 256 ≤ x → u.scr.read x = s.scr.read x))
    ∧ (op = 2 → u.scr = s.scr ∧ (s.hks.nvPage.length = 256 → ∀ x, r.1 ≤ x → x < r.1 + 256 → inDev x →
        u.nv.read x = s.hks.nvPage.getD (x - r.1) 0))
    ∧ (3 ≤ op → u.scr = s.scr ∧ ∀ x, r.1 ≤ x → x < r.1 + r.2 → inDev x → u.nv.read x = 255)
    ∧ (∀ x, x < r.1 ∨ r.1 + max r.2 s.hks.nvPage.length ≤ x → u.nv.read x = s.nv.read x)

theorem nvEnded_perform (s : State) {op a : Nat} (h1 : 1 ≤ op) (h4 : op ≤ 4) : NvEnded s (State.nvPerform op a s) op a := by
  have h : op = 1 ∨ op = 2 ∨ 3 ≤ op := by omega
  rw [NvEnded]
  obtain rfl | rfl | h := h
  · obtain ⟨h1, h2, h3⟩ := nvPerform_read a s
    exact ⟨fun _ => ⟨h1, h2, h3⟩, by omega, by omega, fun x _ => by rw [h1]⟩
  · rw [nvPerform_program]
    refine ⟨by omega, fun _ => ⟨rfl, fun hl x hx hx' hin => ?_⟩, by omega, fun x hx => ?_⟩
    · rw [State.read_nvPut, hl, if_pos ⟨hx, hx', hin⟩]
    · refine State.read_nvPut_out _ _ (hx.imp_right fun h => ?_)
      have := le_max_right (nvRange 2 a).2 s.hks.nvPage.length
      omega
  · rw [nvPerform_erase a s h]
    refine ⟨by omega, by omega, fun _ => ⟨rfl, fun x hx hx' hin => ?_⟩, fun x hx => ?_⟩
    · rw [State.read_nvErase, if_pos ⟨hx, hx', hin⟩]
    · have := le_max_left (nvRange op a).2 s.hks.nvPage.length
      rw [State.read_nvErase, if_neg (by omega)]

theorem nvDone_answers {s : State} {t op a k : Nat} (hp : Powered s) (hn : s.hks.nvOp = some (op, a, k)) (h1 : 1 ≤ op) (h4 : op ≤ 4)
    (hm : s.mode ≠ 0) (hl : s.lands = true) : Answers (.nvDone t) s fun u =>
        u.rd HKS_NV_CTL_busy = 0 ∧ bit (u.rd HKS_EVT_bits) 3 = true ∧ u.hks = { s.hks with nvOp := none, nvPage := [] } ∧ TimeAt s u t
          ∧ NvEnded s u op a ∧ SameRegs s u [HKS_NV_CTL_busy, HKS_EVT_bits] := by
  refine Answers.of_performOnAt (exec_nvDone _ _) hp ?_
  rw [nvDone_eq hp.2 hn hm hl]
  obtain ⟨b, hb, hbt⟩ := s.advance_moves t
  have hend : NvEnded s (State.nvPerform op a (s.advance t)) op a := by
    have := nvEnded_perform (s.advance t) (a := a) h1 h4
    rw [hb] at this ⊢
    exact this
  obtain ⟨m, n, j, e⟩ := nvPerform_moves op a (s.advance t)
  rw [hb] at e hend ⊢
  generalize State.nvPerform op a { s with tmb := b } = w at *
  refine ⟨?_, bit_rd_orF _ _ _ (by decide), ?_, ?_, hend, fun f hf => ?_⟩
  · rw [State.orF, State.rd_wr_ne _ _ _ _ (by decide)]
    exact rd_nvIdle w
  · rw [e]
    rfl
  · rw [e]
    exact hbt
  · simp only [List.map_cons, List.map_nil, List.mem_cons, List.not_mem_nil, or_false, not_or] at hf
    rw [State.orF, State.rd_wr_ne _ _ _ _ (Ne.symm hf.2), rd_nvIdle_ne w hf.1, e]
    rfl

/-! ### The time-out -/

theorem nvTimeout_eq {s : State} {op a k : Nat} (t : Nat) (hn : s.hks.nvOp = some (op, a, k)) :
    State.nvTimeout t s = if k + 5 * secF ≤ t then
      ((if op = 1 then s.advance t else State.nvSpoil (nvRange op a).1 (nvRange op a).2 (s.advance t)).nvIdle).wr HKS_NV_CTL_err 1 else s.advance t := by
  have ha : (s.advance t).hks.nvOp = some (op, a, k) := by rw [State.advance_hks, hn]
  rw [State.nvTimeout]
  generalize s.advance t = w at ha ⊢
  rw [ha]
  refine if_congr Iff.rfl ?_ rfl
  rw [State.nvAbort, ha]

theorem nvSpoil_moves (a n : Nat) (s : State) : ∃ m k, State.nvSpoil a n s = { s with nv := m, free := k } := ⟨_, _, rfl⟩

theorem nvTimeout_answers {s : State} {t op a k : Nat} (hp : Powered s) (hn : s.hks.nvOp = some (op, a, k)) (hk : k + 5 * secF ≤ t) :
    Answers (.nvTimeout t) s fun u =>
        u.rd HKS_NV_CTL_busy = 0 ∧ u.rd HKS_NV_CTL_err = 1 ∧ u.hks = { s.hks with nvOp := none, nvPage := [] } ∧ TimeAt s u t
          ∧ (op = 1 → u.nv = s.nv) ∧ (∀ x, x < (nvRange op a).1 ∨ (nvRange op a).1 + (nvRange op a).2 ≤ x → u.nv.read x = s.nv.read x)
          ∧ SameRegs s u [HKS_NV_CTL_busy, HKS_NV_CTL_err] := by
  refine Answers.of_performOnAt (exec_nvTimeout _ _) hp ?_
  rw [nvTimeout_eq t hn, if_pos hk]
  obtain ⟨b, hb, hbt⟩ := s.advance_moves t
  rw [hb]
  have hw : ∃ m j, (if op = 1 then ({ s with tmb := b } : State) else State.nvSpoil (nvRange op a).1 (nvRange op a).2 { s with tmb := b })
      = { s with tmb := b, nv := m, free := j } := by
    split
    · exact ⟨_, _, rfl⟩
    · exact nvSpoil_moves _ _ _
  have h1 : op = 1 → (if op = 1 then ({ s with tmb := b } : State) else State.nvSpoil (nvRange op a).1 (nvRange op a).2 { s with tmb := b }).nv = s.nv :=
    fun h => by rw [if_pos h]
  have hout : ∀ x, x < (nvRange op a).1 ∨ (nvRange op a).1 + (nvRange op a).2 ≤ x →
      (if op = 1 then ({ s with tmb := b } : State) else State.nvSpoil (nvRange op a).1 (nvRange op a).2 { s with tmb := b }).nv.read x = s.nv.read x := by
    intro x hx
    split
    · rfl
    · exact State.read_nvSpoil_out _ hx
  generalize (if op = 1 then ({ s with tmb := b } : State) else State.nvSpoil (nvRange op a).1 (nvRange op a).2 { s with tmb := b }) = w at *
  obtain ⟨m, j, e⟩ := hw
  refine ⟨?_, State.rd_wr_same _ _ _, ?_, ?_, h1, hout, fun f hf => ?_⟩
  · rw [State.rd_wr_ne _ _ _ _ (by decide)]
    exact rd_nvIdle w
  · rw [e]
    rfl
  · rw [e]
    exact hbt
  · simp only [List.map_cons, List.map_nil, List.mem_cons, List.not_mem_nil, or_false, not_or] at hf
    rw [State.rd_wr_ne _ _ _ _ (Ne.symm hf.2), rd_nvIdle_ne w hf.1, e]
    rfl

/-- Settles O53: the four starts are one write of HKS_NV_CTL with another op, and each operation stores within its own range. -/
theorem configurationMemory : Obligations.ConfigurationMemory := by
  unfold Obligations.ConfigurationMemory
  intro s t
  refine ⟨fun p v op c h hm => ?_, fun op a k hp hn h1 h4 => ⟨nvDone_stays hp, fun hmode hl => ?_, fun hk => nvTimeout_answers hp hn hk, fun hk => ?_⟩⟩
  · simp only [List.mem_cons, Prod.mk.injEq, List.not_mem_nil, or_false] at hm
    obtain ⟨rfl, rfl⟩ | ⟨rfl, rfl⟩ | ⟨rfl, rfl⟩ | ⟨rfl, rfl⟩ := hm
    · exact nvStart_answers h (by decide) (by decide) (exec_nvRead p v t s)
    · exact nvStart_answers h (by decide) (by decide) (exec_nvProgram p v t s)
    · exact nvStart_answers h (by decide) (by decide) (exec_nvErase4K p v t s)
    · exact nvStart_answers h (by decide) (by decide) (exec_nvErase64K p v t s)
  · refine (nvDone_answers hp hn h1 h4 hmode hl).imp fun u ⟨u1, u2, u3, u4, ⟨u5, u6, u7, u8⟩, u9⟩ => ?_
    exact ⟨u1, u2, u3, u4, u5, u6, u7, u8, u9⟩
  · refine Answers.of_performOnAt (exec_nvTimeout _ _) hp ?_
    rw [nvTimeout_eq t hn, if_neg (by omega)]
    exact unchanged_advance s t

end Sys2Proof
end

