-- ==== Sys2Proof/Proofs/PowerUps.lean ====
section
/-! SUPPORT. What powering up clears and what it keeps: the statement of O49. -/

namespace Sys2Proof

open Machine

/-! ### The wake from off -/

/-- The registers outside the always-on domain are at reset once it alone has had power. -/
theorem rd_coldClear (s : State) {f : Fld} (h : domOfKey f.key ≠ .aon) : s.coldClear.rd f = f.rst := by
  have e := look_filter_out (fun k => keepsAon (k, 0)) s.fields (k := f.key) (by simp [keepsAon, h])
  show (look (s.fields.filter keepsAon) f.key).getD f.rst = f.rst
  have hk : s.fields.filter keepsAon = s.fields.filter fun q => keepsAon (q.1, 0) := rfl
  rw [hk, e]
  rfl

/-- Those of the always-on domain are as before. -/
theorem rd_coldClear_aon (s : State) {f : Fld} (h : domOfKey f.key = .aon) : s.coldClear.rd f = s.rd f := by
  have e := look_filter (fun k => keepsAon (k, 0)) s.fields (k := f.key) (by simp [keepsAon, h])
  show (look (s.fields.filter keepsAon) f.key).getD f.rst = (look s.fields f.key).getD f.rst
  have hk : s.fields.filter keepsAon = s.fields.filter fun q => keepsAon (q.1, 0) := rfl
  rw [hk, e]

theorem rd_bbxThaw (s : State) {f : Fld} (h1 : f.key ≠ BBX_STAT_frozen.key) (h2 : f.key ≠ BBX_STAT_freeze_cause.key) : s.bbxThaw.rd f = s.rd f := by
  rw [State.bbxThaw, State.rd_wr_ne _ _ _ _ (Ne.symm h2), State.rd_wr_ne _ _ _ _ (Ne.symm h1)]

theorem tmbWake_base (s : State) : TimeBase s s.tmb.kt s.free refFlds s.tmbWake :=
  TimeBase.refEval (s := s) (u := { s with tmb := { s.tmb with trimHeld := none } }) ⟨(max_self _).symm, fun _ _ => rfl, s.fields, _, s.grid, rfl⟩
    (by decide) (by decide)

/-- The entry of the black box that names the time without power, if there was any. -/
def wokenBbx (t : Nat) (s : State) : State :=
  if s.pwr.offAt.isSome then
    (if s.rd BBX_STAT_freeze_cause = 3 then s.bbxThaw else s).bbox 0x02 0 (min (2 ^ 32 - 1) ((t - (match s.pwr.lostAt with
      | some l => l
      | none => s.pwr.offAt.getD t)) / (1000 * usF)))
  else s

theorem wokenBbx_keeps (t : Nat) (s : State) : (wokenBbx t s).rd PWR_STAT_active = s.rd PWR_STAT_active
    ∧ ∃ F B, wokenBbx t s = { s with fields := F, bbx := B } := by
  unfold wokenBbx
  split
  · generalize min (2 ^ 32 - 1) _ = d
    have h : (if s.rd BBX_STAT_freeze_cause = 3 then s.bbxThaw else s).rd PWR_STAT_active = s.rd PWR_STAT_active
        ∧ ∃ F, (if s.rd BBX_STAT_freeze_cause = 3 then s.bbxThaw else s) = { s with fields := F } := by
      split
      · exact ⟨rd_bbxThaw s (by decide) (by decide), _, rfl⟩
      · exact ⟨rfl, _, rfl⟩
    generalize (if s.rd BBX_STAT_freeze_cause = 3 then s.bbxThaw else s) = w at h ⊢
    obtain ⟨h1, F, e⟩ := h
    obtain ⟨G, B, e'⟩ := w.bbox_moves 0x02 0 d
    exact ⟨(State.rd_bbox _ _ _ _ (by decide)).trans h1, G, B, by rw [e', e]⟩
  · exact ⟨rfl, _, _, rfl⟩

/-- The machine as the rails come up, its parts outside the always-on domain at reset. -/
def woken (t : Nat) (s : State) : State :=
  let s2 := (wokenBbx t s).coldClear.orF GLB_RST_CAUSE_off 1
  { s2 with
    hks := { Hks.new with rails := true, step := 2, stepAt := t, sel := s.hks.sel, sigN := s.hks.sigN, keyW := s.hks.keyW, wdgAt := t },
    pwr := { s2.pwr with seqAt := none, cause := 0, cut := false, offAt := none, absent := false, lostAt := none } }

theorem powerUp_eq (t : Nat) (s : State) :
    s.powerUp t = (((woken t s).tmbWake.wr NMC_STAT_clear_busy 1).wr DMC_STAT_clear_busy 1).strapBits := rfl

/-- The sequence has started. -/
def Started (s : State) (t : Nat) (u : State) : Prop :=
  u.hks.rails = true ∧ u.hks.step = 2 ∧ u.hks.stepAt = t ∧ u.rd GLB_RST_CAUSE_off = 1
    ∧ u.rd NMC_STAT_clear_busy = 1 ∧ u.rd DMC_STAT_clear_busy = 1 ∧ u.rd HKS_BOOT_sel = s.hks.sel % 4
    ∧ u.rd HKS_BOOT_sig_req = b2n (!s.hks.sigN) ∧ u.acqSt = 0 ∧ u.pwr.offAt = none ∧ u.nv = s.nv ∧ u.jtg.ir = 1
    ∧ u.rd PWR_STAT_active = s.rd PWR_STAT_active ∧ TimeAt s u t

theorem rd_woken {t : Nat} {s : State} {f : Fld} (h : f.key ≠ GLB_RST_CAUSE_off.key) : (woken t s).rd f = (wokenBbx t s).coldClear.rd f :=
  State.rd_wr_ne _ _ _ _ (Ne.symm h)

theorem started_powerUp (s : State) (t : Nat) : Started s t ((s.advance t).powerUp t) := by
  obtain ⟨h1, F, B, e⟩ := wokenBbx_keeps t (s.advance t)
  have hact : (woken t (s.advance t)).rd PWR_STAT_active = s.rd PWR_STAT_active := by
    rw [rd_woken (by decide), rd_coldClear_aon _ (by decide), h1, State.rd_advance]
  have hacq : (woken t (s.advance t)).rd ACQ_STAT_state = 0 := by
    rw [rd_woken (by decide), rd_coldClear _ (by decide)]
    rfl
  have hoff : (woken t (s.advance t)).rd GLB_RST_CAUSE_off = 1 := by
    have : ∀ v : State, (v.orF GLB_RST_CAUSE_off 1).rd GLB_RST_CAUSE_off = 1 := fun v => by
      rw [State.orF, State.rd_wr_same]
      exact or_one_mod_two _
    exact this _
  have hform : ((woken t (s.advance t)).hks.rails = true ∧ (woken t (s.advance t)).hks.step = 2 ∧ (woken t (s.advance t)).hks.stepAt = t
        ∧ (woken t (s.advance t)).hks.sel = s.hks.sel ∧ (woken t (s.advance t)).hks.sigN = s.hks.sigN)
      ∧ (woken t (s.advance t)).pwr.offAt = none ∧ (woken t (s.advance t)).nv = s.nv ∧ (woken t (s.advance t)).jtg.ir = 1
      ∧ (woken t (s.advance t)).tmb.kt = max s.tmb.kt t := by
    obtain ⟨b, hb, hbt⟩ := s.advance_moves t
    have ht : (wokenBbx t (s.advance t)).tmb = b := by rw [e, hb]
    have hn : (wokenBbx t (s.advance t)).nv = s.nv := by rw [e, hb]
    exact ⟨⟨rfl, rfl, rfl, (congrArg Hks.sel (State.advance_hks s t) :), (congrArg Hks.sigN (State.advance_hks s t) :)⟩, rfl, hn, rfl,
      (congrArg Tmb.kt ht :).trans hbt⟩
  rw [powerUp_eq]
  generalize woken t (s.advance t) = w at hact hacq hoff hform ⊢
  obtain ⟨⟨k1, k2, k3, k4, k5⟩, f2, f3, f4, f5⟩ := hform
  obtain ⟨hk, hr, F, b, G, e⟩ := tmbWake_base w
  have hkeep : ∀ f : Fld, f.key ∉ ([NMC_STAT_clear_busy, DMC_STAT_clear_busy, HKS_BOOT_sel, HKS_BOOT_sig_req] ++ refFlds).map Fld.key →
      (((w.tmbWake.wr NMC_STAT_clear_busy 1).wr DMC_STAT_clear_busy 1).strapBits).rd f = w.rd f := by
    intro f hf
    rw [List.map_append, List.mem_append, not_or] at hf
    obtain ⟨g1, g2⟩ := hf
    simp only [List.map_cons, List.map_nil, List.mem_cons, List.not_mem_nil, or_false, not_or] at g1
    obtain ⟨a1, a2, a3, a4⟩ := g1
    rw [State.strapBits, State.rd_wr_ne _ _ _ _ (Ne.symm a4), State.rd_wr_ne _ _ _ _ (Ne.symm a3), State.rd_wr_ne _ _ _ _ (Ne.symm a2),
      State.rd_wr_ne _ _ _ _ (Ne.symm a1)]
    exact hr f g2
  refine ⟨?_, ?_, ?_, (hkeep _ (by decide)).trans hoff, ?_, ?_, ?_, ?_, (hkeep _ (by decide)).trans hacq, ?_, ?_, ?_,
    (hkeep _ (by decide)).trans hact, ?_⟩
  · rw [e]
    exact k1
  · rw [e]
    exact k2
  · rw [e]
    exact k3
  · rw [State.strapBits, State.rd_wr_ne _ _ _ _ (by decide), State.rd_wr_ne _ _ _ _ (by decide), State.rd_wr_ne _ _ _ _ (by decide), State.rd_wr_same]
    rfl
  · rw [State.strapBits, State.rd_wr_ne _ _ _ _ (by decide), State.rd_wr_ne _ _ _ _ (by decide), State.rd_wr_same]
    rfl
  · rw [State.strapBits, State.rd_wr_ne _ _ _ _ (by decide), State.rd_wr_same, e]
    exact congrArg (· % 4) k4
  · rw [State.strapBits, State.rd_wr_same, e]
    refine (Nat.mod_eq_of_lt (b2n_lt_two _)).trans ?_
    exact congrArg (fun h => b2n (!h)) k5
  · rw [e]
    exact f2
  · rw [e]
    exact f3
  · rw [e]
    exact f4
  · rw [TimeAt, ← f5]
    exact hk.trans (max_self _)

theorem wakeFromOff_eq {s : State} (t : Nat) (hr : s.hks.rails = false) : State.wakeFromOff t s =
    if (if s.pwr.offAt = none then s.activeOk = true
        else s.anyGood = true ∧ s.bbx.dumping = false ∧ (s.pwr.cause ≤ 1 ∨ s.pwr.absent = true ∧ s.on PWR_THERM_CFG_restart = false)) then
      (s.advance t).powerUp t else s.advance t := by
  obtain ⟨b, hb, -⟩ := s.advance_moves t
  have h1 : (s.advance t).activeOk = s.activeOk := by rw [hb]; rfl
  have h2 : (s.advance t).anyGood = s.anyGood := by rw [hb]; rfl
  have h3 : (s.advance t).on PWR_THERM_CFG_restart = s.on PWR_THERM_CFG_restart := by rw [hb]; rfl
  have h4 : (s.advance t).bbx = s.bbx := by rw [hb]
  rw [State.wakeFromOff]
  dsimp only
  rw [State.advance_hks, State.advance_pwr, hr, if_neg (by decide), h1, h2, h3, h4]
  refine if_congr ?_ rfl rfl
  by_cases ho : s.pwr.offAt = none
  · simp [ho]
  · simp [ho, and_assoc]

theorem activeOk_iff (s : State) : s.activeOk = true ↔ s.feed (s.rd PWR_STAT_active) = 1 ∨ s.feed (s.rd PWR_STAT_active) = 7 := by
  simp [State.activeOk, or_comm]

theorem wakeFromOff_started {s : State} {t : Nat} (hd : s.pwr.dead = false) (hr : s.hks.rails = false)
    (h : if s.pwr.offAt = none then s.activeOk = true
        else s.anyGood = true ∧ s.bbx.dumping = false ∧ (s.pwr.cause ≤ 1 ∨ s.pwr.absent = true ∧ s.on PWR_THERM_CFG_restart = false)) :
    Answers (.wakeFromOff t) s (Started s t) := by
  refine Answers.of_performAt (exec_wakeFromOff _ _) hd ?_
  rw [wakeFromOff_eq t hr, if_pos h]
  exact started_powerUp s t

theorem wakeFromOff_stays {s : State} {t : Nat} (hd : s.pwr.dead = false) (hr : s.hks.rails = false)
    (ho : s.pwr.offAt ≠ none) (h : ¬(s.anyGood = true ∧ s.bbx.dumping = false ∧ (s.pwr.cause ≤ 1 ∨ s.pwr.absent = true ∧ s.on PWR_THERM_CFG_restart = false))) :
    Answers (.wakeFromOff t) s fun u => TimeAt s u t ∧ SameRegs s u [] ∧ SameRest s u := by
  refine Answers.of_performAt (exec_wakeFromOff _ _) hd ?_
  rw [wakeFromOff_eq t hr, if_neg (by rwa [if_neg ho])]
  exact unchanged_advance s t

theorem thermalRestart_started {s : State} {t : Nat} (hd : s.pwr.dead = false) (hr : s.hks.rails = false) (hc : 2 ≤ s.pwr.cause)
    (hon : s.on PWR_THERM_CFG_restart = true) (ht : (s.pwr.seqAt.getD t) + 60 * secF ≤ t) (htemp : s.rdS TMB_TEMP_temp < 80 * 16)
    (hg : s.anyGood = true) (hb : s.bbx.dumping = false) : Answers (.thermalRestart t) s (Started s t) := by
  refine Answers.of_performAt (exec_thermalRestart _ _) hd ?_
  have he : State.thermalRestart t s = (s.advance t).powerUp t := by
    obtain ⟨b, e, -⟩ := s.advance_moves t
    rw [State.thermalRestart, e]
    exact if_pos ⟨hr, hc, hon, ht, htemp, hg, hb⟩
  rw [he]
  exact started_powerUp s t

/-! ### The always-on domain -/

theorem aonUp_answers (s : State) (sel : Fin 4) (sigN : Bool) :
    (s.pwr.dead = false → exec (.aonPowerUp sel sigN) s = .next s)
      ∧ (s.pwr.dead = true → ∃ u, exec (.aonPowerUp sel sigN) s = .next u ∧ u.fields = State.reset.fields ∧ u.tmb = State.reset.tmb
          ∧ u.clk = State.reset.clk ∧ u.pwr = State.reset.pwr ∧ u.bbx = State.reset.bbx ∧ u.hks.sel = sel.val ∧ u.hks.sigN = sigN
          ∧ u.nv = s.nv ∧ u.build = s.build ∧ u.pending = s.pending) := by
  refine ⟨fun h => ?_, fun h => ⟨_, exec_aonPowerUp _ _ _, ?_⟩⟩
  · rw [exec_aonPowerUp, State.aonUp, if_pos (by simp [h])]
  · rw [State.aonUp, if_neg (by simp [h])]
    exact ⟨rfl, rfl, rfl, rfl, rfl, rfl, rfl, rfl, rfl, rfl⟩

theorem aonLoss_dead {s : State} (h1 : s.hks.rails = false) (h2 : s.feedOk 0 = false) (h3 : s.feedOk 1 = false) (h4 : s.feed 0 ≠ 7) (h5 : s.feed 1 ≠ 7)
    (h6 : s.pwr.lostAt.getD 0 + holdUpF (s.pwr.lostAt.getD 0) ≤ s.tmb.kt) : s.aonLoss = { s with pwr := { s.pwr with dead := true } } := by
  rw [State.aonLoss]
  exact if_neg (by simp [h1, h2, h3, h4, h5, h6])

theorem aonLoss_stays {s : State} (h : s.hks.rails = true ∨ s.feedOk 0 = true ∨ s.feedOk 1 = true
    ∨ s.tmb.kt < s.pwr.lostAt.getD 0 + holdUpF (s.pwr.lostAt.getD 0)) : s.aonLoss = s := by
  rw [State.aonLoss]
  exact if_pos (by tauto)

theorem holdUpF_bounds (l : Nat) : holdUpF l ≤ 30 * secF ∧ (Config.vioLoad l ≤ 60 → holdUpF l = 30 * secF) := by
  rw [holdUpF]
  refine ⟨?_, fun h => if_pos h⟩
  split
  · exact le_rfl
  · exact min_le_left _ _

/-- Settles O49: a power-up clears, keeps the always-on domain, and starts the sequence. -/
theorem powerUps : Obligations.PowerUps := by
  unfold Obligations.PowerUps
  intro s t
  refine ⟨aonUp_answers s, fun hd hr => ⟨fun ho h => ?_, fun ho hg hb hc => ?_, fun ho hg hb hc => ⟨fun ha hn => ?_, fun h => ?_⟩, fun ho h => ?_,
    fun hc hon ht htemp hg hb => thermalRestart_started hd hr hc hon ht htemp hg hb⟩, fun hd h1 h2 h3 h4 h5 h6 => ?_, fun hd h => ?_, holdUpF_bounds _⟩
  · exact wakeFromOff_started hd hr (by rw [if_pos ho]; exact (activeOk_iff s).2 h)
  · exact wakeFromOff_started hd hr (by rw [if_neg ho]; exact ⟨hg, hb, .inl hc⟩)
  · exact wakeFromOff_started hd hr (by rw [if_neg ho]; exact ⟨hg, hb, .inr ⟨ha, hn⟩⟩)
  · refine wakeFromOff_stays hd hr ho fun ⟨_, _, k⟩ => ?_
    rcases h with h | h <;> simp [h] at k <;> omega
  · refine wakeFromOff_stays hd hr ho fun ⟨k1, k2, _⟩ => ?_
    rcases h with h | h <;> simp [h] at k1 k2
  · exact Answers.of_perform (exec_alwaysOnPowerLoss _) hd (aonLoss_dead h1 h2 h3 h4 h5 h6)
  · exact Answers.of_perform (exec_alwaysOnPowerLoss _) hd (aonLoss_stays h)

end Sys2Proof
end

