-- ==== Sys2Proof/Proofs/SyncAndPorts.lean ====
section
/-! SUPPORT. The hidden state of a Graft port, the offset alarm, and what a SYNC frame does: the statement of O48. -/

namespace Sys2Proof.Machine

/-! ### The hidden state of a port -/

theorem State.gport_congr {s u : State} (h : u.grf.ports = s.grf.ports) (n : Nat) : u.gport n = s.gport n := by
  rw [State.gport, State.gport, h]

@[simp] theorem State.rd_putPort (s : State) (n : Nat) (g : GPort) (f : Fld) : (s.putPort n g).rd f = s.rd f := rfl

/-! ### The offset alarm -/

/-- What the alarm may write. -/
def alarmFlds : List Fld := GRF_EVT_ofs :: bboxFlds

/-- Two states that differ by the black box, registers and the ports. -/
def PortsMoved (s u : State) : Prop := ∃ F B P, u = { s with fields := F, bbx := B, grf := { s.grf with ports := P } }

theorem State.ofsCheck_moves (s : State) (n : Nat) : PortsMoved s (s.ofsCheck n) := by
  rw [State.ofsCheck]
  dsimp only
  split
  · exact ⟨_, _, _, rfl⟩
  split
  · split
    · exact ⟨_, _, _, rfl⟩
    · obtain ⟨F, B, e⟩ := (s.orF GRF_EVT_ofs 1).bbox_moves 0x51 n (s.rd (GRF_GLn_OFS_value n))
      exact ⟨F, B, _, by rw [State.putPort, e]; rfl⟩
  · split
    · exact ⟨_, _, _, rfl⟩
    · exact ⟨_, _, _, rfl⟩

theorem State.rd_ofsCheck (s : State) (n : Nat) {f : Fld} (h : f.key ∉ alarmFlds.map Fld.key) : (s.ofsCheck n).rd f = s.rd f := by
  rw [alarmFlds, List.map_cons, List.mem_cons, not_or] at h
  have ho : (s.orF GRF_EVT_ofs 1).rd f = s.rd f := rd_orF_ne _ _ _ _ (Ne.symm h.1)
  rw [State.ofsCheck]
  dsimp only
  split
  · rfl
  split
  · split
    · exact ho
    · exact (State.rd_bbox _ _ _ _ h.2).trans ho
  · split
    · rfl
    · rfl

theorem State.gport_ofsCheck (s : State) (n : Nat) : (∃ b, (s.ofsCheck n).gport n = { s.gport n with ofsOn := b })
    ∧ ∀ m, m ≠ n → (s.ofsCheck n).gport m = s.gport m := by
  have hb : ∀ m, ((s.orF GRF_EVT_ofs 1).bbox 0x51 n (s.rd (GRF_GLn_OFS_value n))).gport m = s.gport m := fun m => by
    obtain ⟨F, B, e⟩ := (s.orF GRF_EVT_ofs 1).bbox_moves 0x51 n (s.rd (GRF_GLn_OFS_value n))
    rw [e]
    rfl
  rw [State.ofsCheck]
  dsimp only
  split
  · exact ⟨⟨_, rfl⟩, fun _ _ => rfl⟩
  split
  · split
    · exact ⟨⟨_, rfl⟩, fun _ _ => rfl⟩
    · exact ⟨⟨true, State.gport_putPort_same _ _ _⟩, fun m hm => (State.gport_putPort_ne _ _ (Ne.symm hm)).trans (hb m)⟩
  · split
    · exact ⟨⟨false, State.gport_putPort_same _ _ _⟩, fun m hm => State.gport_putPort_ne _ _ (Ne.symm hm)⟩
    · exact ⟨⟨_, rfl⟩, fun _ _ => rfl⟩

/-- Beyond the threshold the alarm of an UP port shows. -/
theorem State.ofsCheck_alarm {s : State} {n : Nat} (hu : s.portUp n = true)
    (h : s.rd GRF_OFS_THR_thr < (s.rdS (GRF_GLn_OFS_value n)).natAbs) :
    (s.ofsCheck n).rd GRF_EVT_ofs % 2 = 1 ∧ ((s.ofsCheck n).gport n).ofsOn = true := by
  have ho : (s.orF GRF_EVT_ofs 1).rd GRF_EVT_ofs = 1 := rd_orF_bit s GRF_EVT_ofs true rfl rfl
  rw [State.ofsCheck]
  dsimp only
  rw [if_neg (by simp [hu]), if_pos h]
  split
  · next hon => exact ⟨by rw [ho], hon⟩
  · refine ⟨?_, congrArg GPort.ofsOn (State.gport_putPort_same _ _ _)⟩
    rw [State.rd_putPort, State.rd_bbox _ _ _ _ (by decide), ho]

/-- Within it no register changes, nor the black box. -/
theorem State.ofsCheck_quiet {s : State} {n : Nat} (h : (s.rdS (GRF_GLn_OFS_value n)).natAbs ≤ s.rd GRF_OFS_THR_thr) :
    ∃ P, s.ofsCheck n = { s with grf := { s.grf with ports := P } } := by
  rw [State.ofsCheck]
  dsimp only
  split
  · exact ⟨_, rfl⟩
  rw [if_neg (by omega)]
  split
  · exact ⟨_, rfl⟩
  · exact ⟨_, rfl⟩

/-! ### Measuring -/

theorem State.syncMeasure_moves (s : State) (n t3 t1 t2 t4 : Nat) : ∃ F P, s.syncMeasure n t3 t1 t2 t4 = { s with fields := F, grf := { s.grf with ports := P } } :=
  ⟨_, _, rfl⟩

theorem GRF_GLn_OFS_ne_DLY (n : Nat) : (GRF_GLn_OFS_value n).key ≠ (GRF_GLn_DLY_value n).key := by
  simp only [Fld.key, GRF_GLn_OFS_value, GRF_GLn_DLY_value]
  omega

theorem State.rd_syncMeasure (s : State) (n t3 t1 t2 t4 : Nat) :
    (s.syncMeasure n t3 t1 t2 t4).rd (GRF_GLn_DLY_value n) = satU 32 (meanOf (((ktDiff t4 t1 - ktDiff t3 t2) :: (s.gport n).dlys).take 1024) 2)
      ∧ (s.syncMeasure n t3 t1 t2 t4).rd (GRF_GLn_OFS_value n)
          = satU 32 (meanOf (((ktDiff t3 t4 + s.rdS (GRF_CABLE_DLY_value n)) :: (s.gport n).ofss).take 1024) 1)
      ∧ ∀ f : Fld, f.key ≠ (GRF_GLn_DLY_value n).key → f.key ≠ (GRF_GLn_OFS_value n).key → (s.syncMeasure n t3 t1 t2 t4).rd f = s.rd f := by
  rw [State.syncMeasure]
  generalize meanOf (((ktDiff t4 t1 - ktDiff t3 t2) :: (s.gport n).dlys).take 1024) 2 = d
  generalize meanOf (((ktDiff t3 t4 + s.rdS (GRF_CABLE_DLY_value n)) :: (s.gport n).ofss).take 1024) 1 = o
  refine ⟨?_, ?_, fun f h1 h2 => ?_⟩
  · rw [State.rd_wr_ne _ _ _ _ (GRF_GLn_OFS_ne_DLY n), State.rd_wr_same]
    exact Nat.mod_eq_of_lt (satU_lt 32 d)
  · rw [State.rd_wr_same]
    exact Nat.mod_eq_of_lt (satU_lt 32 o)
  · rw [State.rd_wr_ne _ _ _ _ (Ne.symm h2), State.rd_wr_ne _ _ _ _ (Ne.symm h1)]
    rfl

theorem State.gport_syncMeasure (s : State) (n t3 t1 t2 t4 : Nat) :
    (∃ d o, (s.syncMeasure n t3 t1 t2 t4).gport n = { s.gport n with dlys := d, ofss := o })
      ∧ ∀ m, m ≠ n → (s.syncMeasure n t3 t1 t2 t4).gport m = s.gport m :=
  ⟨⟨_, _, State.gport_putPort_same _ _ _⟩, fun _ hm => State.gport_putPort_ne _ _ (Ne.symm hm)⟩

end Sys2Proof.Machine

namespace Sys2Proof

open Machine

/-! ### A SYNC frame -/

/-- The peer of a port has this unit's ID. -/
def PeerDup (s : State) (unit : Nat) : Prop := s.on GRF_UNIT_ID_valid = true ∧ unit = s.rd GRF_UNIT_ID_id

/-- The registers that name a port's peer. -/
def peerFlds (n : Nat) : List Fld := [GRF_GLn_STAT_peer n, GRF_GLn_STAT_peer_valid n]

/-- What a SYNC frame says about the peer. -/
def Machine.State.syncPeer (s : State) (n unit : Nat) : State :=
  let s1 := (s.wr (GRF_GLn_STAT_peer n) unit).wr (GRF_GLn_STAT_peer_valid n) 1
  let s2 := if s.on GRF_UNIT_ID_valid && decide (unit = s.rd GRF_UNIT_ID_id) then s1.orF GRF_EVT_dup_id 1 else s1
  if (s.on GRF_UNIT_ID_valid && decide (unit = s.rd GRF_UNIT_ID_id)) && !(s.gport n).dup then s2.bbox 0x50 n unit else s2

theorem syncPeer_keeps (s : State) {n unit : Nat} (hn : n < 4) (hu : unit < 4096) :
    (s.syncPeer n unit).rd (GRF_GLn_STAT_peer n) = unit ∧ (s.syncPeer n unit).rd (GRF_GLn_STAT_peer_valid n) = 1
      ∧ (PeerDup s unit → (s.syncPeer n unit).rd GRF_EVT_dup_id % 2 = 1)
      ∧ SameRegs s (s.syncPeer n unit) (peerFlds n ++ GRF_EVT_dup_id :: bboxFlds)
      ∧ (∃ F B, s.syncPeer n unit = { s with fields := F, bbx := B })
      ∧ (¬PeerDup s unit → ∃ F, s.syncPeer n unit = { s with fields := F } ∧ SameRegs s (s.syncPeer n unit) (peerFlds n)) := by
  have hk : (GRF_GLn_STAT_peer_valid n).key ≠ (GRF_GLn_STAT_peer n).key := by
    simp only [Fld.key, GRF_GLn_STAT_peer_valid, GRF_GLn_STAT_peer]
    omega
  have hp : (GRF_GLn_STAT_peer n).key ∉ (GRF_EVT_dup_id :: bboxFlds).map Fld.key ∧ (GRF_GLn_STAT_peer_valid n).key ∉ (GRF_EVT_dup_id :: bboxFlds).map Fld.key := by
    simp only [bboxFlds, List.map_cons, List.map_nil, List.mem_cons, List.not_mem_nil, or_false, not_or, Fld.key, GRF_GLn_STAT_peer, GRF_GLn_STAT_peer_valid,
      GRF_EVT_dup_id, BBX_STAT_count, BBX_HEAD_value, BBX_LOST_value]
    omega
  have hd : (s.on GRF_UNIT_ID_valid && decide (unit = s.rd GRF_UNIT_ID_id)) = true ↔ PeerDup s unit := by
    rw [Bool.and_eq_true, decide_eq_true_eq, PeerDup]
  have h1 : ((s.wr (GRF_GLn_STAT_peer n) unit).wr (GRF_GLn_STAT_peer_valid n) 1).rd (GRF_GLn_STAT_peer n) = unit := by
    rw [State.rd_wr_ne _ _ _ _ hk, State.rd_wr_same]
    exact Nat.mod_eq_of_lt hu
  have h2 : ((s.wr (GRF_GLn_STAT_peer n) unit).wr (GRF_GLn_STAT_peer_valid n) 1).rd (GRF_GLn_STAT_peer_valid n) = 1 := State.rd_wr_same _ _ _
  have h3 : SameRegs s ((s.wr (GRF_GLn_STAT_peer n) unit).wr (GRF_GLn_STAT_peer_valid n) 1) (peerFlds n) := fun f hf => by
    simp only [peerFlds, List.map_cons, List.map_nil, List.mem_cons, List.not_mem_nil, or_false, not_or] at hf
    rw [State.rd_wr_ne _ _ _ _ (Ne.symm hf.2), State.rd_wr_ne _ _ _ _ (Ne.symm hf.1)]
  have h4 : ∃ F, (s.wr (GRF_GLn_STAT_peer n) unit).wr (GRF_GLn_STAT_peer_valid n) 1 = { s with fields := F } := ⟨_, rfl⟩
  rw [State.syncPeer]
  generalize (s.wr (GRF_GLn_STAT_peer n) unit).wr (GRF_GLn_STAT_peer_valid n) 1 = v at *
  by_cases hdup : PeerDup s unit
  · rw [hd.2 hdup]
    have ho : (v.orF GRF_EVT_dup_id 1).rd GRF_EVT_dup_id = 1 := rd_orF_bit v GRF_EVT_dup_id true rfl rfl
    have hw : ∀ x, (x = v.orF GRF_EVT_dup_id 1 ∨ x = (v.orF GRF_EVT_dup_id 1).bbox 0x50 n unit) →
        (x.rd GRF_EVT_dup_id % 2 = 1 ∧ SameRegs v x (GRF_EVT_dup_id :: bboxFlds) ∧ ∃ F B, x = { v with fields := F, bbx := B }) := by
      rintro x (rfl | rfl)
      · refine ⟨by rw [ho], fun f hf => ?_, _, _, rfl⟩
        rw [List.map_cons, List.mem_cons, not_or] at hf
        exact rd_orF_ne _ _ _ _ (Ne.symm hf.1)
      · obtain ⟨F, B, e⟩ := (v.orF GRF_EVT_dup_id 1).bbox_moves 0x50 n unit
        refine ⟨by rw [State.rd_bbox _ _ _ _ (by decide), ho], fun f hf => ?_, F, B, e⟩
        rw [List.map_cons, List.mem_cons, not_or] at hf
        rw [State.rd_bbox _ _ _ _ hf.2]
        exact rd_orF_ne _ _ _ _ (Ne.symm hf.1)
    obtain ⟨w1, w2, F, B, e⟩ := hw (if (true && !(s.gport n).dup) = true then (v.orF GRF_EVT_dup_id 1).bbox 0x50 n unit else v.orF GRF_EVT_dup_id 1) (by
      split
      · exact .inr rfl
      · exact .inl rfl)
    rw [if_pos rfl]
    obtain ⟨F', e'⟩ := h4
    refine ⟨(w2 _ hp.1).trans h1, (w2 _ hp.2).trans h2, fun _ => w1, fun f hf => ?_, ⟨F, B, by rw [e, e']⟩, fun h => absurd hdup h⟩
    rw [List.map_append, List.mem_append, not_or] at hf
    exact (w2 f hf.2).trans (h3 f hf.1)
  · rw [Bool.eq_false_iff.2 (mt hd.1 hdup)]
    obtain ⟨F', e'⟩ := h4
    refine ⟨h1, h2, fun h => absurd h hdup, fun f hf => ?_, ⟨F', _, e'⟩, fun _ => ⟨F', e', h3⟩⟩
    rw [List.map_append, List.mem_append, not_or] at hf
    exact h3 f hf.1

/-- The frame has been counted and measured; the port's state and the alarm follow. -/
def Machine.State.syncSeen (s : State) (n unit t3 t1 t2 t : Nat) : State :=
  ((s.syncPeer n unit).putPort n { s.gport n with
    good := (s.gport n).good + 1, lastSync := some (t3, t), dup := s.on GRF_UNIT_ID_valid && decide (unit = s.rd GRF_UNIT_ID_id), okAt := t }).syncMeasure n t3 t1 t2 t

/-- The 16th valid frame makes a port in training UP. -/
def Machine.State.syncTrain (s : State) (n : Nat) (up : Prop) [Decidable up] : State :=
  if up then (s.wr (GRF_GLn_STAT_state n) 2).orF GRF_EVT_link_up 1 else s

theorem syncFrame_eq {s : State} {n : Nat} (unit t3 t1 t2 t : Nat) (h0 : s.rd (GRF_GLn_STAT_state n) ≠ 0) (hl : s.lands = true) :
    State.syncFrame n unit t3 t1 t2 t s =
      (((s.advance t).syncSeen n unit t3 t1 t2 t).syncTrain n (s.rd (GRF_GLn_STAT_state n) = 1 ∧ 16 ≤ (s.gport n).good + 1)).ofsCheck n := by
  obtain ⟨k, hk, -⟩ := s.advance_moves t
  rw [hk, State.syncFrame, hk]
  have hl' : ({ s with tmb := k } : State).lands = true := hl
  exact if_neg (by rw [not_or, hl']; exact ⟨h0, by decide⟩)

/-- The registers that a SYNC frame measures in. -/
def measureFlds (n : Nat) : List Fld := [GRF_GLn_DLY_value n, GRF_GLn_OFS_value n]

/-- What the frame shows before the port's state follows. -/
structure SyncSeen (s : State) (n unit t3 t1 t2 t : Nat) (u : State) : Prop where
  peer : u.rd (GRF_GLn_STAT_peer n) = unit
  valid : u.rd (GRF_GLn_STAT_peer_valid n) = 1
  dup : PeerDup s unit → u.rd GRF_EVT_dup_id % 2 = 1
  dly : u.rd (GRF_GLn_DLY_value n) = satU 32 (meanOf (((ktDiff t t1 - ktDiff t3 t2) :: (s.gport n).dlys).take 1024) 2)
  ofs : u.rd (GRF_GLn_OFS_value n) = satU 32 (meanOf (((ktDiff t3 t + s.rdS (GRF_CABLE_DLY_value n)) :: (s.gport n).ofss).take 1024) 1)
  last : (u.gport n).lastSync = some (t3, t)
  good : (u.gport n).good = (s.gport n).good + 1
  others : ∀ m, m ≠ n → u.gport m = s.gport m
  regs : SameRegs s u ((peerFlds n ++ GRF_EVT_dup_id :: bboxFlds) ++ measureFlds n)
  moved : PortsMoved s u
  clean : ¬PeerDup s unit → SameRegs s u (peerFlds n ++ measureFlds n) ∧ ∃ F P, u = { s with fields := F, grf := { s.grf with ports := P } }

/-- The fields of a port, and the shared ones, are different registers. -/
theorem peer_not_measured (n : Nat) : (GRF_GLn_STAT_peer n).key ≠ (GRF_GLn_DLY_value n).key ∧ (GRF_GLn_STAT_peer n).key ≠ (GRF_GLn_OFS_value n).key
    ∧ (GRF_GLn_STAT_peer_valid n).key ≠ (GRF_GLn_DLY_value n).key ∧ (GRF_GLn_STAT_peer_valid n).key ≠ (GRF_GLn_OFS_value n).key
    ∧ GRF_EVT_dup_id.key ≠ (GRF_GLn_DLY_value n).key ∧ GRF_EVT_dup_id.key ≠ (GRF_GLn_OFS_value n).key := by
  simp only [Fld.key, GRF_GLn_STAT_peer, GRF_GLn_STAT_peer_valid, GRF_GLn_DLY_value, GRF_GLn_OFS_value, GRF_EVT_dup_id]
  omega

theorem cable_not_peer {n : Nat} (hn : n < 4) : (GRF_CABLE_DLY_value n).key ∉ (peerFlds n ++ GRF_EVT_dup_id :: bboxFlds).map Fld.key := by
  simp only [peerFlds, bboxFlds, List.map_append, List.map_cons, List.map_nil, List.mem_append, List.mem_cons, List.not_mem_nil, or_false, not_or, Fld.key,
    GRF_CABLE_DLY_value, GRF_GLn_STAT_peer, GRF_GLn_STAT_peer_valid, GRF_EVT_dup_id, BBX_STAT_count, BBX_HEAD_value, BBX_LOST_value]
  omega

theorem syncSeen_keeps (s : State) {n unit : Nat} (t3 t1 t2 t : Nat) (hn : n < 4) (hu : unit < 4096) : SyncSeen s n unit t3 t1 t2 t (s.syncSeen n unit t3 t1 t2 t) := by
  obtain ⟨h1, h2, h3, h4, ⟨F, B, h5⟩, h6⟩ := syncPeer_keeps s hn hu
  obtain ⟨k1, k2, k3, k4, k5, k6⟩ := peer_not_measured n
  have hother : ∀ m, (s.syncPeer n unit).gport m = s.gport m := State.gport_congr (by rw [h5])
  have hcab : (s.syncPeer n unit).rdS (GRF_CABLE_DLY_value n) = s.rdS (GRF_CABLE_DLY_value n) := by
    rw [State.rdS, State.rdS, h4 _ (cable_not_peer hn)]
  have hp : ∀ g, ∃ P, (s.syncPeer n unit).putPort n g = { s.syncPeer n unit with grf := { (s.syncPeer n unit).grf with ports := P } } := fun _ => ⟨_, rfl⟩
  rw [State.syncSeen]
  generalize hg : ({ s.gport n with
    good := (s.gport n).good + 1, lastSync := some (t3, t), dup := s.on GRF_UNIT_ID_valid && decide (unit = s.rd GRF_UNIT_ID_id), okAt := t } : GPort) = g
  have hq : g.dlys = (s.gport n).dlys ∧ g.ofss = (s.gport n).ofss ∧ g.good = (s.gport n).good + 1 ∧ g.lastSync = some (t3, t) := by
    rw [← hg]
    exact ⟨rfl, rfl, rfl, rfl⟩
  obtain ⟨q1, q2, q3, q4⟩ := hq
  generalize s.syncPeer n unit = v at *
  obtain ⟨m1, m2, m3⟩ := (v.putPort n g).rd_syncMeasure n t3 t1 t2 t
  obtain ⟨⟨d, o, m4⟩, m5⟩ := (v.putPort n g).gport_syncMeasure n t3 t1 t2 t
  obtain ⟨F', P', m6⟩ := (v.putPort n g).syncMeasure_moves n t3 t1 t2 t
  rw [State.gport_putPort_same] at m1 m2 m4
  have hcab' : (v.putPort n g).rdS (GRF_CABLE_DLY_value n) = s.rdS (GRF_CABLE_DLY_value n) := hcab
  rw [q1] at m1
  rw [q2, hcab'] at m2
  have hreg : ∀ l : List Fld, SameRegs s v l → SameRegs s ((v.putPort n g).syncMeasure n t3 t1 t2 t) (l ++ measureFlds n) := fun l hl f hf => by
    rw [List.map_append, List.mem_append, not_or] at hf
    obtain ⟨f1, f2⟩ := hf
    simp only [measureFlds, List.map_cons, List.map_nil, List.mem_cons, List.not_mem_nil, or_false, not_or] at f2
    exact (m3 f f2.1 f2.2).trans (hl f f1)
  exact {
    peer := (m3 _ k1 k2).trans h1
    valid := (m3 _ k3 k4).trans h2
    dup := fun h => by
      rw [m3 _ k5 k6]
      exact h3 h
    dly := m1
    ofs := m2
    last := by rw [m4]; exact q4
    good := by rw [m4]; exact q3
    others := fun m hm => (m5 m hm).trans ((State.gport_putPort_ne _ _ (Ne.symm hm)).trans (hother m))
    regs := hreg _ h4
    moved := ⟨F', B, P', by rw [m6, State.putPort, h5]⟩
    clean := fun h => by
      obtain ⟨F2, e2, r2⟩ := h6 h
      exact ⟨hreg _ r2, F', P', by rw [m6, State.putPort, e2]⟩ }

/-- The port's own state register, and link_up, are not what is measured. -/
theorem train_not_seen {n : Nat} (hn : n < 4) :
    (GRF_GLn_STAT_state n).key ∉ ((peerFlds n ++ GRF_EVT_dup_id :: bboxFlds) ++ measureFlds n).map Fld.key
      ∧ (GRF_GLn_STAT_state n).key ≠ GRF_EVT_link_up.key ∧ (GRF_GLn_STAT_state n).key ∉ alarmFlds.map Fld.key
      ∧ (GRF_GLn_STAT_state n).key ∉ [GRF_GLn_STAT_peer n, GRF_GLn_STAT_peer_valid n, GRF_GLn_DLY_value n, GRF_GLn_OFS_value n, GRF_EVT_dup_id].map Fld.key := by
  simp only [peerFlds, measureFlds, alarmFlds, bboxFlds, List.map_append, List.map_cons, List.map_nil, List.mem_append, List.mem_cons, List.not_mem_nil, or_false,
    not_or, Fld.key, GRF_GLn_STAT_state, GRF_GLn_STAT_peer, GRF_GLn_STAT_peer_valid, GRF_EVT_dup_id, GRF_EVT_link_up, GRF_EVT_ofs, GRF_GLn_DLY_value,
    GRF_GLn_OFS_value, BBX_STAT_count, BBX_HEAD_value, BBX_LOST_value]
  omega

/-- What is measured is no shared register. -/
theorem seen_not_shared {n : Nat} (hn : n < 4) : ∀ f ∈ [GRF_GLn_STAT_peer n, GRF_GLn_STAT_peer_valid n, GRF_GLn_DLY_value n, GRF_GLn_OFS_value n, GRF_EVT_dup_id],
    f.key ∉ alarmFlds.map Fld.key ∧ f.key ≠ GRF_EVT_link_up.key := by
  rw [List.forall_mem_cons, List.forall_mem_cons, List.forall_mem_cons, List.forall_mem_cons, List.forall_mem_singleton]
  simp only [alarmFlds, bboxFlds, List.map_cons, List.map_nil, List.mem_cons, List.not_mem_nil, or_false, not_or, Fld.key,
    GRF_GLn_STAT_peer, GRF_GLn_STAT_peer_valid, GRF_EVT_dup_id, GRF_EVT_link_up, GRF_EVT_ofs, GRF_GLn_DLY_value, GRF_GLn_OFS_value, BBX_STAT_count, BBX_HEAD_value,
    BBX_LOST_value]
  omega

theorem threshold_not_seen {n : Nat} (hn : n < 4) : GRF_OFS_THR_thr.key ∉ ((peerFlds n ++ GRF_EVT_dup_id :: bboxFlds) ++ measureFlds n).map Fld.key
    ∧ GRF_OFS_THR_thr.key ≠ (GRF_GLn_STAT_state n).key := by
  simp only [peerFlds, measureFlds, bboxFlds, List.map_append, List.map_cons, List.map_nil, List.mem_append, List.mem_cons, List.not_mem_nil, or_false,
    not_or, Fld.key, GRF_OFS_THR_thr, GRF_GLn_STAT_state, GRF_GLn_STAT_peer, GRF_GLn_STAT_peer_valid, GRF_EVT_dup_id, GRF_GLn_DLY_value,
    GRF_GLn_OFS_value, BBX_STAT_count, BBX_HEAD_value, BBX_LOST_value]
  omega

/-- The state of the port follows the frame. -/
theorem syncTrain_keeps (s : State) (n : Nat) (up : Prop) [Decidable up] :
    (∃ F, s.syncTrain n up = { s with fields := F })
      ∧ (up → (s.syncTrain n up).rd (GRF_GLn_STAT_state n) = 2 ∧ (s.syncTrain n up).rd GRF_EVT_link_up % 2 = 1) ∧ (¬up → s.syncTrain n up = s)
      ∧ SameRegs s (s.syncTrain n up) (if up then [GRF_GLn_STAT_state n, GRF_EVT_link_up] else []) := by
  rw [State.syncTrain]
  by_cases h : up
  · rw [if_pos h, if_pos h]
    refine ⟨⟨_, rfl⟩, fun _ => ⟨?_, ?_⟩, fun k => absurd h k, fun f hf => ?_⟩
    · rw [rd_orF_ne _ _ _ _ (by simp only [Fld.key, GRF_GLn_STAT_state, GRF_EVT_link_up]; omega), State.rd_wr_same]
      rfl
    · rw [show ((s.wr (GRF_GLn_STAT_state n) 2).orF GRF_EVT_link_up 1).rd GRF_EVT_link_up = 1 from rd_orF_bit _ GRF_EVT_link_up true rfl rfl]
    · simp only [List.map_cons, List.map_nil, List.mem_cons, List.not_mem_nil, or_false, not_or] at hf
      rw [rd_orF_ne _ _ _ _ (Ne.symm hf.2), State.rd_wr_ne _ _ _ _ (Ne.symm hf.1)]
  · rw [if_neg h, if_neg h]
    exact ⟨⟨_, rfl⟩, fun k => absurd k h, fun _ => rfl, fun _ _ => rfl⟩

/-- What a SYNC frame does to a port in training or UP. -/
def SyncDone (s : State) (n unit t3 t1 t2 t : Nat) (u : State) : Prop :=
  let g := s.gport n
  let st := s.rd (GRF_GLn_STAT_state n)
  let dup := s.on GRF_UNIT_ID_valid = true ∧ unit = s.rd GRF_UNIT_ID_id
  u.rd (GRF_GLn_STAT_peer n) = unit ∧ u.rd (GRF_GLn_STAT_peer_valid n) = 1
    ∧ (dup → u.rd GRF_EVT_dup_id % 2 = 1) ∧ (u.gport n).lastSync = some (t3, t) ∧ (u.gport n).good = g.good + 1
    ∧ (∀ m, m ≠ n → u.gport m = s.gport m) ∧ TimeAt s u t
    ∧ (st = 2 ∨ g.good + 1 < 16 → u.rd (GRF_GLn_STAT_state n) = st)
    ∧ (st = 1 → 16 ≤ g.good + 1 → u.rd (GRF_GLn_STAT_state n) = 2 ∧ u.rd GRF_EVT_link_up % 2 = 1)
    ∧ (let ds := ((ktDiff t t1 - ktDiff t3 t2) :: g.dlys).take 1024
       let os := ((ktDiff t3 t + s.rdS (GRF_CABLE_DLY_value n)) :: g.ofss).take 1024
       u.rd (GRF_GLn_DLY_value n) = satU 32 (meanOf ds 2) ∧ u.rd (GRF_GLn_OFS_value n) = satU 32 (meanOf os 1))
    ∧ (s.rd GRF_OFS_THR_thr < (u.rdS (GRF_GLn_OFS_value n)).natAbs → u.rd (GRF_GLn_STAT_state n) = 2 →
        u.rd GRF_EVT_ofs % 2 = 1 ∧ (u.gport n).ofsOn = true)
    ∧ (¬dup → (u.rdS (GRF_GLn_OFS_value n)).natAbs ≤ s.rd GRF_OFS_THR_thr →
        SameRegs s u ([GRF_GLn_STAT_peer n, GRF_GLn_STAT_peer_valid n, GRF_GLn_DLY_value n, GRF_GLn_OFS_value n]
          ++ if st = 1 ∧ 16 ≤ g.good + 1 then [GRF_GLn_STAT_state n, GRF_EVT_link_up] else [])
        ∧ SameRest s { u with grf := s.grf })

theorem syncDone_of_seen {s v : State} {n unit t3 t1 t2 t : Nat} (hn : n < 4) (h : SyncSeen s n unit t3 t1 t2 t v) (ht : s.tmb.kt = max s.tmb.kt t) :
    SyncDone s n unit t3 t1 t2 t ((v.syncTrain n (s.rd (GRF_GLn_STAT_state n) = 1 ∧ 16 ≤ (s.gport n).good + 1)).ofsCheck n) := by
  obtain ⟨a1, a2, a3, a4⟩ := train_not_seen hn
  obtain ⟨b1, b2⟩ := threshold_not_seen hn
  have c := seen_not_shared hn
  have hst : v.rd (GRF_GLn_STAT_state n) = s.rd (GRF_GLn_STAT_state n) := h.regs _ a1
  obtain ⟨⟨F, e1⟩, e2, e3, e4⟩ := syncTrain_keeps v n (s.rd (GRF_GLn_STAT_state n) = 1 ∧ 16 ≤ (s.gport n).good + 1)
  have hw : ∀ f ∈ [GRF_GLn_STAT_peer n, GRF_GLn_STAT_peer_valid n, GRF_GLn_DLY_value n, GRF_GLn_OFS_value n, GRF_EVT_dup_id],
      (v.syncTrain n (s.rd (GRF_GLn_STAT_state n) = 1 ∧ 16 ≤ (s.gport n).good + 1)).rd f = v.rd f := fun f hf => by
    refine e4 f ?_
    split
    · simp only [List.map_cons, List.map_nil, List.mem_cons, List.not_mem_nil, or_false, not_or]
      exact ⟨fun x => a4 (x ▸ List.mem_map_of_mem hf), (c f hf).2⟩
    · simp
  have hthr : (v.syncTrain n (s.rd (GRF_GLn_STAT_state n) = 1 ∧ 16 ≤ (s.gport n).good + 1)).rd GRF_OFS_THR_thr = s.rd GRF_OFS_THR_thr := by
    refine (e4 _ ?_).trans (h.regs _ b1)
    split
    · simp only [List.map_cons, List.map_nil, List.mem_cons, List.not_mem_nil, or_false, not_or]
      exact ⟨b2, by decide⟩
    · simp
  have hlast : ∀ m, (v.syncTrain n (s.rd (GRF_GLn_STAT_state n) = 1 ∧ 16 ≤ (s.gport n).good + 1)).gport m = v.gport m := State.gport_congr (by rw [e1])
  generalize v.syncTrain n (s.rd (GRF_GLn_STAT_state n) = 1 ∧ 16 ≤ (s.gport n).good + 1) = w at *
  have hr : ∀ f ∈ [GRF_GLn_STAT_peer n, GRF_GLn_STAT_peer_valid n, GRF_GLn_DLY_value n, GRF_GLn_OFS_value n, GRF_EVT_dup_id],
      (w.ofsCheck n).rd f = v.rd f := fun f hf => (w.rd_ofsCheck n (c f hf).1).trans (hw f hf)
  have hs : (w.ofsCheck n).rd (GRF_GLn_STAT_state n) = w.rd (GRF_GLn_STAT_state n) := w.rd_ofsCheck n a3
  have hofs : (w.ofsCheck n).rdS (GRF_GLn_OFS_value n) = w.rdS (GRF_GLn_OFS_value n) := by
    rw [State.rdS, State.rdS, hr _ (by simp), hw _ (by simp)]
  obtain ⟨⟨b, g1⟩, g2⟩ := w.gport_ofsCheck n
  obtain ⟨F', B', P', m⟩ := w.ofsCheck_moves n
  obtain ⟨F2, B2, P2, m2⟩ := h.moved
  refine ⟨(hr _ (by simp)).trans h.peer, (hr _ (by simp)).trans h.valid, fun d => ?_, ?_, ?_, fun m hm => (g2 m hm).trans ((hlast m).trans (h.others m hm)), ?_,
    fun hh => ?_, fun h1 h2 => ?_, ⟨(hr _ (by simp)).trans h.dly, (hr _ (by simp)).trans h.ofs⟩, fun h1 h2 => ?_, fun hd h1 => ?_⟩
  · rw [hr _ (by simp)]
    exact h.dup d
  · rw [g1, hlast]
    exact h.last
  · rw [g1, hlast]
    exact h.good
  · rw [TimeAt, ← ht, m, e1, m2]
  · rw [hs, e3 (by omega), hst]
  · obtain ⟨k1, k2⟩ := e2 ⟨h1, h2⟩
    exact ⟨hs.trans k1, by rw [w.rd_ofsCheck n (by decide)]; exact k2⟩
  · refine State.ofsCheck_alarm ?_ (by rw [hthr, ← hofs]; exact h1)
    rw [State.portUp, ← hs, h2]
    rfl
  · obtain ⟨P, q⟩ := State.ofsCheck_quiet (s := w) (n := n) (by rw [hthr, ← hofs]; exact h1)
    obtain ⟨r, F3, P3, m3⟩ := h.clean hd
    rw [q]
    refine ⟨fun f hf => ?_, ?_⟩
    · rw [List.map_append, List.mem_append, not_or] at hf
      rw [State.rd_mk]
      refine (e4 f hf.2).trans (r f ?_)
      simpa [peerFlds, measureFlds] using hf.1
    · rw [e1, m3]
      exact sameRest_mk_hrv s _ _ _

/-- What has been said from a machine moved on in time holds from the machine itself. -/
theorem sameRest_of_tmb {s u : State} {k : Tmb} (h : SameRest { s with tmb := k } u) : SameRest s u :=
  (sameRest_iff s u).2 ((sameRest_iff { s with tmb := k } u).1 h)

theorem syncFrame_answers {s : State} (n : Fin 4) (unit : Fin 4096) (t3 t1 t2 t : Nat) (hp : Powered s)
    (h1 : s.rd (GRF_GLn_STAT_state n.val) = 1 ∨ s.rd (GRF_GLn_STAT_state n.val) = 2) (hl : s.lands = true) :
    Answers (.syncFrame n unit t3 t1 t2 t) s (SyncDone s n.val unit.val t3 t1 t2 t) := by
  refine Answers.of_performOnAt (exec_syncFrame _ _ _ _ _ _ _) hp ?_
  rw [syncFrame_eq _ _ _ _ _ (by omega) hl]
  have hseen := syncSeen_keeps (s.advance t) t3 t1 t2 t n.isLt unit.isLt
  have hd := syncDone_of_seen n.isLt hseen (by rw [s.advance_kt t]; omega)
  obtain ⟨k, hk, hkt⟩ := s.advance_moves t
  have hd' : SyncDone (s.advance t) n.val unit.val t3 t1 t2 t ((((s.advance t).syncSeen n.val unit.val t3 t1 t2 t).syncTrain n.val
      (s.rd (GRF_GLn_STAT_state n.val) = 1 ∧ 16 ≤ (s.gport n.val).good + 1)).ofsCheck n.val) := by
    rw [hk] at hd ⊢
    exact hd
  generalize (((s.advance t).syncSeen n.val unit.val t3 t1 t2 t).syncTrain n.val
    (s.rd (GRF_GLn_STAT_state n.val) = 1 ∧ 16 ≤ (s.gport n.val).good + 1)).ofsCheck n.val = u at hd'
  rw [hk] at hd'
  obtain ⟨u1, u2, u3, u4, u5, u6, u7, u8, u9, u10, u11, u12⟩ := hd'
  refine ⟨u1, u2, u3, u4, u5, u6, ?_, u8, u9, u10, u11, fun d h => ⟨(u12 d h).1, ?_⟩⟩
  · rw [TimeAt, u7]
    show max k.kt t = _
    rw [hkt]
    omega
  · exact sameRest_of_tmb (u12 d h).2

theorem syncFrame_none {s : State} (n : Fin 4) (unit : Fin 4096) (t3 t1 t2 t : Nat) (hp : Powered s)
    (h : s.rd (GRF_GLn_STAT_state n.val) = 0 ∨ s.lands = false) :
    Answers (.syncFrame n unit t3 t1 t2 t) s fun u => TimeAt s u t ∧ SameRegs s u [] ∧ SameRest s u := by
  refine Answers.of_performOnAt (exec_syncFrame _ _ _ _ _ _ _) hp ?_
  have he : State.syncFrame n.val unit.val t3 t1 t2 t s = s.advance t := by
    obtain ⟨k, hk, -⟩ := s.advance_moves t
    have hl' : ({ s with tmb := k } : State).lands = s.lands := rfl
    rw [State.syncFrame, hk]
    exact if_pos (h.imp id fun hl => by rw [hl', hl]; rfl)
  rw [he]
  exact unchanged_advance s t

/-! ### Sending -/

/-- The frame that a port sends, with the free values it may draw. -/
def Machine.State.syncOut (s : State) (n t : Nat) : State :=
  let g := s.gport n
  let at_ := match g.starts.head? with
    | some x => max t (x + trigF)
    | none => t
  let q := if g.lastSync.isNone then s.draw 2 else (0, s)
  let l := g.lastSync.getD (Config.freeValue q.1, Config.freeValue (q.1 + 1))
  let s2 := q.2.putPort n { g with syncAt := some t }
  { s2 with grf := { s2.grf with sent := ⟨n, withCrc 30 (syncBits (s.rd GRF_UNIT_ID_id) at_ l.1 l.2) false, 4, at_⟩ :: s2.grf.sent } }

theorem syncSend_eq (s : State) (n t : Nat) : State.syncSend n t s =
    if s.rd (GRF_GLn_STAT_state n) = 0 ∨ (∃ x, (s.gport n).syncAt = some x ∧ t < x + usF) ∨ s.lands = false then s.advance t
    else (s.advance t).syncOut n t := by
  obtain ⟨k, hk, -⟩ := s.advance_moves t
  rw [hk, State.syncSend, hk]
  refine if_congr ?_ rfl ?_
  · have h1 : ({ s with tmb := k } : State).gport n = s.gport n := rfl
    have h2 : ({ s with tmb := k } : State).lands = s.lands := rfl
    have h3 : ({ s with tmb := k } : State).rd (GRF_GLn_STAT_state n) = s.rd (GRF_GLn_STAT_state n) := rfl
    rw [h1, h2, h3]
    cases (s.gport n).syncAt <;> simp [or_assoc]
  · rfl

theorem syncOut_keeps (s : State) (n t : Nat) :
    (∃ f, (s.syncOut n t).grf.sent = f :: s.grf.sent ∧ f.port = n ∧ f.blocks = 4 ∧ t ≤ f.t
        ∧ (∀ l, (s.gport n).lastSync = some l → f.bits = withCrc 30 (syncBits (s.rd GRF_UNIT_ID_id) f.t l.1 l.2) false))
      ∧ ((s.syncOut n t).gport n).syncAt = some t ∧ (∀ m, m ≠ n → (s.syncOut n t).gport m = s.gport m)
      ∧ ∃ G L, s.syncOut n t = { s with grf := G, free := L } := by
  have hq : ∃ a L, (if (s.gport n).lastSync.isNone then s.draw 2 else (0, s)) = (a, { s with free := L }) := by
    split
    · exact ⟨_, _, rfl⟩
    · exact ⟨0, s.free, rfl⟩
  have ht : t ≤ match (s.gport n).starts.head? with
      | some x => max t (x + trigF)
      | none => t := by
    split
    · exact le_max_left _ _
    · exact le_rfl
  rw [State.syncOut]
  obtain ⟨a, L, e⟩ := hq
  dsimp only
  rw [e]
  refine ⟨⟨_, rfl, rfl, rfl, ht, fun l hl => ?_⟩, ?_, fun m hm => ?_, ⟨_, _, rfl⟩⟩
  · dsimp only
    rw [hl]
    rfl
  · exact congrArg GPort.syncAt (State.gport_putPort_same ({ s with free := L } : State) n { s.gport n with syncAt := some t })
  · exact State.gport_putPort_ne ({ s with free := L } : State) { s.gport n with syncAt := some t } (Ne.symm hm)

theorem syncSend_answers {s : State} (n : Fin 4) (t : Nat) (hp : Powered s) (h0 : s.rd (GRF_GLn_STAT_state n.val) ≠ 0) (hl : s.lands = true) :
    (∀ x, (s.gport n.val).syncAt = some x → t < x + usF → Answers (.syncSend n t) s fun u => TimeAt s u t ∧ SameRegs s u [] ∧ SameRest s u)
      ∧ ((∀ x, (s.gport n.val).syncAt = some x → x + usF ≤ t) → Answers (.syncSend n t) s fun u =>
        (∃ f, u.grf.sent = f :: s.grf.sent ∧ f.port = n.val ∧ f.blocks = 4 ∧ t ≤ f.t
            ∧ (∀ l, (s.gport n.val).lastSync = some l → f.bits = withCrc 30 (syncBits (s.rd GRF_UNIT_ID_id) f.t l.1 l.2) false))
          ∧ (u.gport n.val).syncAt = some t ∧ (∀ m, m ≠ n.val → u.gport m = s.gport m) ∧ TimeAt s u t ∧ SameRegs s u []
          ∧ SameRest s { u with grf := s.grf, free := s.free }) := by
  refine ⟨fun x hx h => Answers.of_performOnAt (exec_syncSend _ _ _) hp ?_, fun h => Answers.of_performOnAt (exec_syncSend _ _ _) hp ?_⟩
  · rw [syncSend_eq, if_pos (.inr (.inl ⟨x, hx, h⟩))]
    exact unchanged_advance s t
  · have hno : ¬(s.rd (GRF_GLn_STAT_state n.val) = 0 ∨ (∃ x, (s.gport n.val).syncAt = some x ∧ t < x + usF) ∨ s.lands = false) := by
      rintro (h' | ⟨x, hx, h'⟩ | h')
      · exact h0 h'
      · exact absurd (h x hx) (by omega)
      · simp [hl] at h'
    rw [syncSend_eq, if_neg hno]
    obtain ⟨h1, h2, h3, G, L, e⟩ := syncOut_keeps (s.advance t) n.val t
    obtain ⟨k, hk, hkt⟩ := s.advance_moves t
    rw [hk] at h1 h2 h3 e ⊢
    generalize ({ s with tmb := k } : State).syncOut n.val t = u at *
    exact ⟨h1, h2, h3, by rw [e]; exact hkt, fun f _ => by rw [e]; rfl, by rw [e]; exact sameRest_mk_hrv s _ _ _⟩

/-! ### A port is enabled -/

/-- The fields of GRF_GLn_CFG. -/
def portCfgFlds (n : Nat) : List Fld := [GRF_GLn_CFG_en n, GRF_GLn_CFG_dly_src n, GRF_GLn_CFG_fwd n]

theorem effect_portCfg {n : Nat} (hn : n < 4) (p : Port) (v bm : Nat) (o s : State) : State.effect p (GRF_GLn_CFG_en n).addr v bm o s = s.portEval n := by
  have h : n = 0 ∨ n = 1 ∨ n = 2 ∨ n = 3 := by omega
  obtain rfl | rfl | rfl | rfl := h
  · rfl
  · rfl
  · rfl
  · rfl

theorem regAt_portCfg {n : Nat} (hn : n < 4) :
    (regAt (GRF_GLn_CFG_en n).addr).map (fun x => softFlds (x.1.flds x.2.1 x.2.2)) = some (portCfgFlds n) := by
  have h : n = 0 ∨ n = 1 ∨ n = 2 ∨ n = 3 := by omega
  obtain rfl | rfl | rfl | rfl := h
  · rfl
  · rfl
  · rfl
  · rfl

theorem ignored_portCfg {s : State} {n : Nat} (hn : n < 4) : s.ignored (GRF_GLn_CFG_en n).addr = false := by
  have h : n = 0 ∨ n = 1 ∨ n = 2 ∨ n = 3 := by omega
  obtain rfl | rfl | rfl | rfl := h
  · rfl
  · rfl
  · rfl
  · rfl

/-- An enabled port, while the core domain runs. -/
theorem portEval_enabled {s : State} {n : Nat} (he : s.on (GRF_GLn_CFG_en n) = true) (hr : s.coreRun = true) :
    State.portEval n s = if s.rd (GRF_GLn_STAT_state n) = 0 then s.portTo n 1 else s := by
  rw [State.portEval, he, hr]
  rfl

theorem portEval_enabled_keeps {s : State} {n : Nat} (he : s.on (GRF_GLn_CFG_en n) = true) (hr : s.coreRun = true) :
    (State.portEval n s).rd (GRF_GLn_STAT_state n) = (if s.rd (GRF_GLn_STAT_state n) = 0 then 1 else s.rd (GRF_GLn_STAT_state n))
      ∧ SameRegs s (State.portEval n s) [GRF_GLn_STAT_state n] ∧ ∃ F G, State.portEval n s = { s with fields := F, grf := G } := by
  rw [portEval_enabled he hr]
  by_cases h0 : s.rd (GRF_GLn_STAT_state n) = 0
  · have hu : s.portUp n = false := by
      rw [State.portUp, h0]
      rfl
    have hp : s.portTo n 1 = (s.putPort n { s.gport n with good := 0, starts := [], own := [], syncAt := none }).wr (GRF_GLn_STAT_state n) 1 := by
      rw [State.portTo, hu]
      rfl
    rw [if_pos h0, if_pos h0, hp]
    exact ⟨State.rd_wr_same _ _ _, fun f hf => State.rd_wr_ne _ _ _ _ fun x => hf (by simp [x]), ⟨_, _, rfl⟩⟩
  · rw [if_neg h0, if_neg h0]
    exact ⟨rfl, fun _ _ => rfl, ⟨_, _, rfl⟩⟩

theorem portCfg_keys {n : Nat} (hn : n < 4) : (portCfgFlds n).map Fld.key = [8 * (0x100100 + 64 * n) + 31, 8 * (0x100100 + 64 * n) + 30, 8 * (0x100100 + 64 * n) + 24]
    ∧ (GRF_GLn_STAT_state n).key ∉ (portCfgFlds n).map Fld.key ∧ GLB_STAT_active_mode.key ∉ (portCfgFlds n).map Fld.key
    ∧ (CLK_x_STAT_gated 1).key ∉ (portCfgFlds n).map Fld.key ∧ (GRF_GLn_CFG_en n).key ≠ (GRF_GLn_STAT_state n).key
    ∧ (GRF_GLn_CFG_fwd n).key ≠ (GRF_GLn_STAT_state n).key := by
  simp only [portCfgFlds, List.map_cons, List.map_nil, List.mem_cons, List.not_mem_nil, or_false, not_or, Fld.key, GRF_GLn_CFG_en, GRF_GLn_CFG_dly_src,
    GRF_GLn_CFG_fwd, GRF_GLn_STAT_state, GLB_STAT_active_mode, CLK_x_STAT_gated, true_and]
  omega

theorem portEnable_answers {s : State} {p : Port} (n : Fin 4) (v : Word) (t : Nat) (h : Reaches p (GRF_GLn_CFG_en n.val).addr s) :
    Answers (.portEnable p n v t) s fun u =>
           u.rd (GRF_GLn_CFG_en n.val) = 1 ∧ u.rd (GRF_GLn_CFG_fwd n.val) = v.toNat / 2 ^ 24 % 16
             ∧ (u.rd (GRF_GLn_STAT_state n.val) = if s.rd (GRF_GLn_STAT_state n.val) = 0 then 1 else s.rd (GRF_GLn_STAT_state n.val))
             ∧ TimeAt s u t
             ∧ SameRegs s u [GRF_GLn_CFG_en n.val, GRF_GLn_CFG_fwd n.val, GRF_GLn_CFG_dly_src n.val, GRF_GLn_STAT_state n.val]
             ∧ SameRest s { u with grf := s.grf } := by
  obtain ⟨n, hn⟩ := n
  dsimp only
  obtain ⟨k0, k1, k2, k3, k4, k5⟩ := portCfg_keys hn
  have ha : (GRF_GLn_CFG_en n).addr = 0x100100 + 64 * n := rfl
  have hc : (s.advance t).closed (GRF_GLn_CFG_en n).addr = false := by
    have : (0x100100 + 64 * n) / 0x10000 = 16 := by omega
    simp [State.closed, ha, this]
  have hw : v.toNat ||| 2 ^ 31 < 2 ^ 32 := word_or_lt v (by decide)
  have hnd : ((portCfgFlds n).map Fld.key).Nodup := by
    rw [k0]
    simp only [List.nodup_cons, List.mem_cons, List.not_mem_nil, or_false, not_or, not_false_eq_true, List.nodup_nil, and_true]
    omega
  have hst : ∀ f ∈ portCfgFlds n, (stored (portCfgFlds n) (v.toNat ||| 2 ^ 31) (s.advance t) p).rd f = f.clamp (f.of (v.toNat ||| 2 ^ 31)) % 2 ^ f.w := fun f hf => by
    rw [rd_stored _ _ _ hf hnd]
    simp only [portCfgFlds, List.mem_cons, List.not_mem_nil, or_false] at hf
    obtain rfl | rfl | rfl := hf
    · exact Machine.Fld.stored_word _ _ rfl (by simp [GRF_GLn_CFG_en]) (by simp [GRF_GLn_CFG_en])
    · exact Machine.Fld.stored_word _ _ rfl (by simp [GRF_GLn_CFG_dly_src]) (by simp [GRF_GLn_CFG_dly_src])
    · exact Machine.Fld.stored_word _ _ rfl (by simp [GRF_GLn_CFG_fwd]) (by simp [GRF_GLn_CFG_fwd])
  have hen : (stored (portCfgFlds n) (v.toNat ||| 2 ^ 31) (s.advance t) p).rd (GRF_GLn_CFG_en n) = 1 := by
    rw [hst _ (by simp [portCfgFlds])]
    show (v.toNat ||| 2 ^ 31) / 2 ^ 31 % 2 ^ 1 % 2 ^ 1 = 1
    rw [pow_one, or_bit v.toNat 31 31, if_pos rfl]
  have hfwd : (stored (portCfgFlds n) (v.toNat ||| 2 ^ 31) (s.advance t) p).rd (GRF_GLn_CFG_fwd n) = v.toNat / 2 ^ 24 % 16 := by
    rw [hst _ (by simp [portCfgFlds])]
    show (v.toNat ||| 2 ^ 31) / 2 ^ 24 % 2 ^ 4 % 2 ^ 4 = _
    have h7 : (v.toNat ||| 2 ^ 31) % 2 ^ 31 = v.toNat % 2 ^ 31 := by
      rw [Nat.or_mod_two_pow]
      simp
    omega
  have hregs : SameRegs s (stored (portCfgFlds n) (v.toNat ||| 2 ^ 31) (s.advance t) p) (portCfgFlds n) := fun f hf =>
    (rd_stored_ne _ _ _ hf).trans (State.rd_advance _ _ _)
  obtain ⟨F, b, k, hx, hkt⟩ := stored_advance (portCfgFlds n) (v.toNat ||| 2 ^ 31) s t p
  have e := portWrite_stores p (GRF_GLn_CFG_en n).addr (v.toNat ||| 2 ^ 31) _ (portCfgFlds n) (h.advance t) hw (by rw [ha]; omega) (by rw [ha]; omega) hc (ignored_portCfg hn) (regAt_portCfg hn)
  rw [effect_portCfg hn] at e
  have hcore : (stored (portCfgFlds n) (v.toNat ||| 2 ^ 31) (s.advance t) p).coreRun = true := by
    rw [← h.2.1, State.coreRun, State.coreRun, State.mode, State.mode, hregs _ k2, hregs _ k3]
  generalize stored (portCfgFlds n) (v.toNat ||| 2 ^ 31) (s.advance t) p = x at *
  obtain ⟨y1, y2, F', G, y3⟩ := portEval_enabled_keeps (s := x) (n := n) (by rw [State.on, hen]; rfl) hcore
  refine Answers.of_performAt (exec_portEnable p ⟨n, hn⟩ v t s) h.1 ?_
  obtain ⟨q, hq⟩ := State.reSignal_moves (GRF_GLn_CFG_en n).addr (State.portEval n x)
  rw [State.writeAt, e, hq]
  refine ⟨?_, ?_, ?_, ?_, fun f hf => ?_, ?_⟩
  · exact (y2 _ (by simpa using k4)).trans hen
  · exact (y2 _ (by simpa using k5)).trans hfwd
  · refine y1.trans ?_
    rw [hregs _ k1]
  · rw [y3, hx]
    exact hkt
  · simp only [List.map_cons, List.map_nil, List.mem_cons, List.not_mem_nil, or_false, not_or] at hf
    refine (y2 f (by simpa using hf.2.2.2)).trans (hregs f ?_)
    simp only [portCfgFlds, List.map_cons, List.map_nil, List.mem_cons, List.not_mem_nil, or_false, not_or]
    exact ⟨hf.1, hf.2.2.1, hf.2.1⟩
  · rw [y3, hx]
    exact sameRest_mk s _ _ _ _

/-! ### A port loses its link -/

theorem linkTimeout_answers {s : State} (n : Fin 4) (t : Nat) (lost : Bool) (hp : Powered s) :
    (s.portUp n.val = true → lost = true ∨ (s.gport n.val).okAt + 4 * usF ≤ t → Answers (.linkTimeout n ⟨lost, t⟩) s fun u =>
           u.rd (GRF_GLn_STAT_state n.val) = 1 ∧ u.rd GRF_EVT_link_down % 2 = 1 ∧ (u.gport n.val).good = 0 ∧ TimeAt s u t
             ∧ SameRegs s u [GRF_GLn_STAT_state n.val, GRF_EVT_link_down] ∧ SameRest s { u with grf := s.grf })
      ∧ (s.portUp n.val = true → lost = false → t < (s.gport n.val).okAt + 4 * usF → Answers (.linkTimeout n ⟨lost, t⟩) s fun u =>
           TimeAt s u t ∧ SameRegs s u [] ∧ SameRest s u)
      ∧ (s.portUp n.val = false → Answers (.linkTimeout n ⟨lost, t⟩) s fun u =>
           (lost = true → (u.gport n.val).good = 0) ∧ (lost = false → u.grf = s.grf) ∧ (∀ m, m ≠ n.val → u.gport m = s.gport m)
             ∧ TimeAt s u t ∧ SameRegs s u [] ∧ SameRest s { u with grf := { u.grf with ports := s.grf.ports } }) := by
  obtain ⟨k, hk, hkt⟩ := s.advance_moves t
  have he : State.linkTimeout n.val lost t s = if s.portUp n.val = true then
      (if lost = true ∨ (s.gport n.val).okAt + 4 * usF ≤ t then ({ s with tmb := k } : State).portTo n.val 1 else { s with tmb := k })
    else if lost = true then ({ s with tmb := k } : State).putPort n.val { s.gport n.val with good := 0 } else { s with tmb := k } := by
    rw [State.linkTimeout, hk]
    refine if_congr Iff.rfl (if_congr ?_ rfl rfl) rfl
    rw [Bool.or_eq_true, decide_eq_true_eq]
    rfl
  refine ⟨fun hu h => Answers.of_performOnAt (exec_linkTimeout _ _ _) hp ?_, fun hu h1 h2 => Answers.of_performOnAt (exec_linkTimeout _ _ _) hp ?_,
    fun hu => Answers.of_performOnAt (exec_linkTimeout _ _ _) hp ?_⟩
  · rw [he, if_pos hu, if_pos h]
    have hu' : ({ s with tmb := k } : State).portUp n.val = true := hu
    obtain ⟨F, G, e⟩ := State.portTo_moves { s with tmb := k } n.val 1
    have hd : ({ s with tmb := k } : State).portDrop n.val = ({ s with tmb := k } : State).portTo n.val 1 := by rw [State.portDrop, if_pos hu']
    obtain ⟨h1, h2⟩ := State.portDrop_up hu'
    rw [hd] at h1 h2
    have hg : (({ s with tmb := k } : State).portTo n.val 1).gport n.val = { s.gport n.val with good := 0, starts := [], own := [], syncAt := none } := by
      rw [State.portTo, if_pos hu']
      exact State.gport_putPort_same _ _ _
    refine ⟨h1, by rw [h2], by rw [hg], ?_, fun f hf => ?_, ?_⟩
    · rw [e]
      exact hkt
    · simp only [List.map_cons, List.map_nil, List.mem_cons, List.not_mem_nil, or_false, not_or] at hf
      exact State.rd_portTo _ _ _ hf.1 hf.2
    · rw [e]
      exact sameRest_mk_hrv s _ _ _
  · rw [he, if_pos hu, if_neg (by rw [not_or]; exact ⟨by simp [h1], by omega⟩)]
    exact ⟨hkt, fun _ _ => rfl, sameRest_mk_hrv s _ _ _⟩
  · rw [he, if_neg (by simp [hu])]
    by_cases hl : lost = true
    · rw [if_pos hl]
      exact ⟨fun _ => congrArg GPort.good (State.gport_putPort_same _ _ _), fun h => by simp [hl] at h, fun m hm => State.gport_putPort_ne _ _ (Ne.symm hm),
        hkt, fun _ _ => rfl, sameRest_mk_hrv s _ _ _⟩
    · rw [if_neg hl]
      exact ⟨fun h => absurd h hl, fun _ => rfl, fun _ _ => rfl, hkt, fun _ _ => rfl, sameRest_mk_hrv s _ _ _⟩

/-- Settles O48: a SYNC frame received and sent, a port enabled, and one that loses its link. -/
theorem syncAndPorts : Obligations.SyncAndPorts := by
  unfold Obligations.SyncAndPorts
  exact ⟨fun s n unit t3 t1 t2 t hp => ⟨syncFrame_none n unit t3 t1 t2 t hp, syncFrame_answers n unit t3 t1 t2 t hp⟩,
    fun s n t => ⟨syncSend_answers n t, fun p v h => portEnable_answers n v t h, fun lost hp => linkTimeout_answers n t lost hp⟩⟩

end Sys2Proof
end

