-- ==== Sys2Proof/Proofs/TriggerMessages.lean ====
section
/-! SUPPORT. A machine that refutes O47: its drop counter holds a value wider than its 16 bits. -/

namespace Sys2Proof

open Machine

/-- A powered machine whose port 0 is UP and forwards nowhere, its drop counter at 2^16. -/
def wideDrop : State :=
  { State.reset with hks := { Hks.new with rails := true }, fields := [((GRF_GLn_STAT_state 0).key, 2), ((GRF_GLn_ERR_drop 0).key, 2 ^ 16)] }

theorem powered_wideDrop : Powered wideDrop := ⟨rfl, rfl⟩

theorem slotFree_wideDrop : SlotFree wideDrop := fun c h => by simp [wideDrop, State.reset, Inp.new] at h

/-- The drop counter is none of the registers that a message shows itself in. -/
theorem drop_not_shown : (GRF_GLn_ERR_drop 0).key ∉ [GRF_GLn_LAST_SRC_valid 0, GRF_GLn_LAST_SRC_coarse 0, GRF_GLn_LAST_SRC_hop 0, GRF_GLn_LAST_SRC_src 0,
    GRF_GLn_LAST_SRC_mark_code 0, GRF_GLn_LAST_kt 0, GRF_GLn_RX_rx 0, GRF_EVT_rx, GRF_GLn_RX_ign 0].map Fld.key := by decide

/-- Refutes O47: for a message at the hop limit that no port is to forward, one clause says that no register but those shown changes, and
another that the drop counter reads its old value plus 0, modulo 2^16. On a machine whose drop counter holds 2^16, which the statement
admits although its 16 bits do not, the two contradict each other. On machines whose registers hold values of their width they agree. -/
theorem not_triggerMessages : ¬ Obligations.TriggerMessages := by
  unfold Obligations.TriggerMessages
  intro h
  obtain ⟨-, -, -, h4⟩ := h wideDrop 0 15 0 0 0 false 0 0 powered_wideDrop
  obtain ⟨u, -, hu⟩ := h4 (by decide) (fun ⟨k, _⟩ => absurd k (by decide)) (by decide)
  obtain ⟨-, -, -, -, -, -, -, -, -, -, -, -, hnone, hlimit, -⟩ := hu slotFree_wideDrop
  obtain ⟨hsame, -⟩ := hnone (by decide)
  obtain ⟨hdrop, -⟩ := hlimit (by decide)
  have h1 : u.rd (GRF_GLn_ERR_drop 0) = 2 ^ 16 := hsame (GRF_GLn_ERR_drop 0) drop_not_shown
  have h2 : u.rd (GRF_GLn_ERR_drop 0) = 0 := hdrop
  rw [h1] at h2
  exact absurd h2 (by decide)

end Sys2Proof
end

