-- ==== Sys2Proof/Proofs/RowsAndRefresh.lean ====
section
/-! SUPPORT. The start of a migration, the refreshes a pseudo-channel owes, and a stack's temperature: the statement of O38. -/

namespace Sys2Proof.Machine

/-! ### A migration starts -/

/-- A migration of `p` starts now, `r` still waiting. -/
def State.migStart (p : Nat) (r : List Nat) (s : State) : State :=
  (((((State.migPlace p { s with dmc := { s.dmc with migQ := r, migRoom := 0, migAt := s.tmb.kt } }).wr (DMC_PC_STAT_state p) 1).wr DMC_STAT_migrating 1).wr
      DMC_MIG_busy 1).wr DMC_MIG_pc p).wr DMC_MIG_done 0

/-- The registers that the start of a migration writes. -/
def migFlds (p : Nat) : List Fld := [DMC_PC_STAT_state p, DMC_STAT_migrating, DMC_MIG_busy, DMC_MIG_pc, DMC_MIG_done]

/-- The state of a pseudo-channel lies above the registers that all of them share. -/
theorem DMC_PC_STAT_state_ne (p : Nat) {f : Fld} (h : f.key < 8 * 0xC100C) : (DMC_PC_STAT_state p).key ≠ f.key := by
  have : (DMC_PC_STAT_state p).key = 8 * (0xC100C + 16 * p) + 30 := rfl
  omega

theorem DMC_PC_STAT_state_inj {p q : Nat} (h : p ≠ q) : (DMC_PC_STAT_state p).key ≠ (DMC_PC_STAT_state q).key := by
  simp only [Fld.key, DMC_PC_STAT_state]
  omega

theorem State.rd_migStart_ne (p : Nat) (r : List Nat) (s : State) {f : Fld} (h : f.key ∉ (migFlds p).map Fld.key) : (s.migStart p r).rd f = s.rd f := by
  simp only [migFlds, List.map_cons, List.map_nil, List.mem_cons, List.not_mem_nil, or_false, not_or] at h
  obtain ⟨h1, h2, h3, h4, h5⟩ := h
  rw [State.migStart, State.rd_wr_ne _ _ _ _ (Ne.symm h5), State.rd_wr_ne _ _ _ _ (Ne.symm h4), State.rd_wr_ne _ _ _ _ (Ne.symm h3),
    State.rd_wr_ne _ _ _ _ (Ne.symm h2), State.rd_wr_ne _ _ _ _ (Ne.symm h1)]
  rfl

theorem State.migStart_shows (p : Nat) (r : List Nat) (s : State) :
    (s.migStart p r).rd (DMC_PC_STAT_state p) = 1 ∧ (s.migStart p r).rd DMC_MIG_busy = 1 ∧ (s.migStart p r).rd DMC_MIG_pc = p % 128
      ∧ (s.migStart p r).rd DMC_MIG_done = 0 ∧ (s.migStart p r).rd DMC_STAT_migrating = 1 ∧ (s.migStart p r).dmc.migQ = r
      ∧ look (s.migStart p r).dmc.moved p = some ((List.range s.nPc).filter (fun k => decide (k ≠ p) && decide (s.rd (DMC_PC_STAT_state k) = 0)),
          s.rd DMC_ILV_GRAIN_grain) := by
  have hd := DMC_PC_STAT_state_ne p (f := DMC_MIG_done) (by decide)
  have hb := DMC_PC_STAT_state_ne p (f := DMC_MIG_busy) (by decide)
  have hc := DMC_PC_STAT_state_ne p (f := DMC_MIG_pc) (by decide)
  have hm := DMC_PC_STAT_state_ne p (f := DMC_STAT_migrating) (by decide)
  have hform : ∃ w : State, s.migStart p r = ((((w.wr (DMC_PC_STAT_state p) 1).wr DMC_STAT_migrating 1).wr DMC_MIG_busy 1).wr DMC_MIG_pc p).wr DMC_MIG_done 0 :=
    ⟨_, rfl⟩
  refine ⟨?_, ?_, ?_, ?_, ?_, rfl, look_ins_same _ _ _⟩ <;> obtain ⟨w, e⟩ := hform <;> rw [e]
  · rw [State.rd_wr_ne _ _ _ _ (Ne.symm hd), State.rd_wr_ne _ _ _ _ (Ne.symm hc), State.rd_wr_ne _ _ _ _ (Ne.symm hb), State.rd_wr_ne _ _ _ _ (Ne.symm hm),
      State.rd_wr_same]
    rfl
  · rw [State.rd_wr_ne _ _ _ _ (by decide), State.rd_wr_ne _ _ _ _ (by decide), State.rd_wr_same]
    rfl
  · rw [State.rd_wr_ne _ _ _ _ (by decide), State.rd_wr_same]
    rfl
  · rw [State.rd_wr_same]
    rfl
  · rw [State.rd_wr_ne _ _ _ _ (by decide), State.rd_wr_ne _ _ _ _ (by decide), State.rd_wr_ne _ _ _ _ (by decide), State.rd_wr_same]
    rfl

theorem State.migStart_moves (p : Nat) (r : List Nat) (s : State) : ∃ F D, s.migStart p r = { s with fields := F, dmc := D } := ⟨_, _, rfl⟩

theorem State.migNext_start {s : State} {p : Nat} {r : List Nat} (hq : s.dmc.migQ = p :: r) (hb : s.on DMC_MIG_busy = false) : s.migNext = s.migStart p r := by
  rw [State.migNext, hq]
  exact if_neg (by simp [hb])

theorem State.migNext_waits {s : State} (h : s.dmc.migQ = [] ∨ s.on DMC_MIG_busy = true) : s.migNext = s := by
  rw [State.migNext]
  split
  · rfl
  · next hq =>
    rcases h with h | h
    · simp [hq] at h
    · exact if_pos h

/-- How many pseudo-channels may go (R285). -/
def State.pcLimit (s : State) : Nat := if s.isH2 then 2 else 4

theorem State.pcRetire_starts {s : State} {p : Nat} (ha : s.pcActive p = true) (hl : s.pcGone < s.pcLimit) (hq : s.dmc.migQ = []) (hb : s.on DMC_MIG_busy = false) :
    State.pcRetire p true s = s.migStart p [] := by
  have e : ∀ v : State, v.dmc.migQ = [p] → v.on DMC_MIG_busy = false → v.migNext = v.migStart p [] := fun v => State.migNext_start
  rw [State.pcRetire, if_neg (by simp [ha]), if_neg (show ¬(if s.isH2 then 2 else 4) ≤ s.pcGone from Nat.not_le.2 hl), if_pos rfl, hq]
  exact e _ rfl hb

theorem State.pcRetire_queues {s : State} {p : Nat} (ha : s.pcActive p = true) (hl : s.pcGone < s.pcLimit) (hb : s.on DMC_MIG_busy = true) :
    State.pcRetire p true s = { s with dmc := { s.dmc with migQ := s.dmc.migQ ++ [p] } } := by
  rw [State.pcRetire, if_neg (by simp [ha]), if_neg (show ¬(if s.isH2 then 2 else 4) ≤ s.pcGone from Nat.not_le.2 hl), if_pos rfl]
  exact State.migNext_waits (.inr hb)

theorem State.pcRetire_limit {s : State} {p : Nat} (m : Bool) (ha : s.pcActive p = true) (hl : s.pcLimit ≤ s.pcGone) :
    State.pcRetire p m s = ((s.wr DMC_STAT_ret_limit 1).wr DMC_EVT_ret_limit 1).bbox 0x42 p 0 := by
  rw [State.pcRetire, if_neg (by simp [ha])]
  exact if_pos hl

theorem State.pcRetire_inactive {s : State} {p : Nat} (m : Bool) (ha : s.pcActive p = false) : State.pcRetire p m s = s := by
  rw [State.pcRetire, if_pos (by simp [ha])]

/-! ### Owed refreshes -/

/-- The registers that show the refreshes of a stack. -/
def tempFlds (k : Nat) : List Fld := [DMC_TEMPs_limit k, DMC_TEMPs_owed k]

/-- The refreshes of a stack are shown by two writes. -/
theorem State.refShow_writes (k : Nat) (s : State) : ∃ a b, State.refShow k s = (s.wr (DMC_TEMPs_limit k) a).wr (DMC_TEMPs_owed k) b := by
  rw [State.refShow]
  generalize List.foldl max 0 (List.map s.refLimit _) = a
  generalize List.foldl max 0 (List.map s.owed _) = b
  exact ⟨a, b, rfl⟩

theorem State.refShow_moves (k : Nat) (s : State) : ∃ F, State.refShow k s = { s with fields := F } := by
  obtain ⟨a, b, e⟩ := State.refShow_writes k s
  exact ⟨_, e⟩

theorem State.rd_refShow (k : Nat) (s : State) {f : Fld} (h : f.key ∉ (tempFlds k).map Fld.key) : (State.refShow k s).rd f = s.rd f := by
  simp only [tempFlds, List.map_cons, List.map_nil, List.mem_cons, List.not_mem_nil, or_false, not_or] at h
  obtain ⟨a, b, e⟩ := State.refShow_writes k s
  rw [e, State.rd_wr_ne _ _ _ _ (Ne.symm h.2), State.rd_wr_ne _ _ _ _ (Ne.symm h.1)]

theorem State.owed_congr {s u : State} (h : u.dmc.owed = s.dmc.owed) (q : Nat) : u.owed q = s.owed q := by rw [State.owed, State.owed, h]

theorem State.setOwed_keeps (p n : Nat) (s : State) :
    (State.setOwed p n s).owed p = n ∧ (∀ q, q ≠ p → (State.setOwed p n s).owed q = s.owed q)
      ∧ SameRegs s (State.setOwed p n s) (tempFlds (p / 32))
      ∧ ∃ F o c, State.setOwed p n s = { s with fields := F, dmc := { s.dmc with owed := o, cooling := c } } := by
  have hw : ∃ w : State, State.setOwed p n s = State.refShow (p / 32) w ∧ w.dmc.owed = (if n = 0 then del s.dmc.owed p else ins s.dmc.owed p n)
      ∧ (∀ f, w.rd f = s.rd f) ∧ ∃ o c, w = { s with dmc := { s.dmc with owed := o, cooling := c } } :=
    ⟨_, rfl, rfl, fun _ => rfl, _, _, rfl⟩
  obtain ⟨w, e, ho, hr, o, c, hc⟩ := hw
  obtain ⟨F, hF⟩ := State.refShow_moves (p / 32) w
  have hsame : ∀ q, (State.setOwed p n s).owed q = w.owed q := fun q => by rw [e, hF, State.owed, State.owed]
  refine ⟨?_, fun q hq => ?_, fun f hf => ?_, F, o, c, by rw [e, hF, hc]⟩
  · rw [hsame, State.owed, ho]
    split
    · next h => rw [look_del_same, h]; rfl
    · rw [look_ins_same]; rfl
  · rw [hsame, State.owed, State.owed, ho]
    split
    · rw [look_del_ne _ _ _ (Ne.symm hq)]
    · rw [look_ins_ne _ _ _ _ (Ne.symm hq)]
  · rw [e, State.rd_refShow _ _ hf, hr]

end Sys2Proof.Machine

namespace Sys2Proof

open Machine

/-! ### A row is spared -/

/-- The registers that sparing a row writes. -/
def sparedRow (p : Nat) (s : State) : State := ((s.bump (DMC_PC_STAT_spares p)).bump DMC_SPARE_USED_count).wr DMC_EVT_spare 1

theorem sparedRow_moves (p : Nat) (s : State) : ∃ F, sparedRow p s = { s with fields := F } := ⟨_, rfl⟩

theorem rd_sparedRow (p : Nat) (s : State) :
    (sparedRow p s).rd (DMC_PC_STAT_spares p) = (s.rd (DMC_PC_STAT_spares p) + 1) % 2 ^ 10 ∧ (sparedRow p s).rd DMC_EVT_spare = 1
      ∧ (sparedRow p s).rd DMC_SPARE_USED_count = (s.rd DMC_SPARE_USED_count + 1) % 2 ^ 32
      ∧ SameRegs s (sparedRow p s) [DMC_PC_STAT_spares p, DMC_SPARE_USED_count, DMC_EVT_spare] := by
  have hkey : ∀ f : Fld, f.key < 8 * 0xC100C → (DMC_PC_STAT_spares p).key ≠ f.key := fun f hf => by
    have : (DMC_PC_STAT_spares p).key = 8 * (0xC100C + 16 * p) + 16 := rfl
    omega
  have ku := hkey DMC_SPARE_USED_count (by decide)
  have ke := hkey DMC_EVT_spare (by decide)
  rw [sparedRow]
  refine ⟨?_, ?_, ?_, fun f hf => ?_⟩
  · rw [State.rd_wr_ne _ _ _ _ (Ne.symm ke), rd_bump_ne _ (Ne.symm ku), rd_bump]
    rfl
  · rw [State.rd_wr_same]
    rfl
  · rw [State.rd_wr_ne _ _ _ _ (by decide), rd_bump, rd_bump_ne _ ku]
    rfl
  · simp only [List.map_cons, List.map_nil, List.mem_cons, List.not_mem_nil, or_false, not_or] at hf
    rw [State.rd_wr_ne _ _ _ _ (Ne.symm hf.2.2), rd_bump_ne _ (Ne.symm hf.2.1), rd_bump_ne _ (Ne.symm hf.1)]

theorem rowSpare_counts {s : State} {t : Nat} (hp : Powered s) (pc : Fin 128) (row : Nat) (hn : pc.val < s.nPc)
    (h1 : s.rd (DMC_PC_STAT_state pc.val) ≤ 1) (h2 : s.rd (DMC_PC_STAT_spares pc.val) < 512) : Answers (.rowSpare pc row t) s fun u =>
        u.rd (DMC_PC_STAT_spares pc.val) = s.rd (DMC_PC_STAT_spares pc.val) + 1 ∧ u.rd DMC_EVT_spare = 1
          ∧ u.rd DMC_SPARE_USED_count = (s.rd DMC_SPARE_USED_count + 1) % 2 ^ 32
          ∧ u.dmc = { s.dmc with spared := s.dmc.spared ++ [(pc.val, row)] } ∧ TimeAt s u t
          ∧ SameRegs s u [DMC_PC_STAT_spares pc.val, DMC_SPARE_USED_count, DMC_EVT_spare] ∧ SameRest s { u with dmc := s.dmc } := by
  refine Answers.of_performOnAt (exec_rowSpare _ _ _ _) hp ?_
  obtain ⟨p, hp128⟩ := pc
  dsimp only at *
  obtain ⟨k, hk, hkt⟩ := s.advance_moves t
  have he : State.rowSpared p row t s = { sparedRow p ({ s with tmb := k } : State) with dmc := { s.dmc with spared := s.dmc.spared ++ [(p, row)] } } := by
    have e1 : ({ s with tmb := k } : State).nPc = s.nPc := rfl
    have e2 : ({ s with tmb := k } : State).rd (DMC_PC_STAT_state p) = s.rd (DMC_PC_STAT_state p) := rfl
    have e3 : ({ s with tmb := k } : State).rd (DMC_PC_STAT_spares p) = s.rd (DMC_PC_STAT_spares p) := rfl
    rw [State.rowSpared, hk]
    dsimp only
    rw [e1, e2, e3, if_neg (by omega), if_neg (by omega)]
    rfl
  obtain ⟨F, hF⟩ := sparedRow_moves p { s with tmb := k }
  obtain ⟨r1, r2, r3, r4⟩ := rd_sparedRow p { s with tmb := k }
  rw [he]
  generalize sparedRow p { s with tmb := k } = w at *
  subst hF
  exact ⟨r1.trans (Nat.mod_eq_of_lt (show s.rd (DMC_PC_STAT_spares p) + 1 < 2 ^ 10 by omega)), r2, r3, rfl, hkt, r4, sameRest_mk_hrv s _ _ _⟩

theorem rowSpare_retires {s : State} {t : Nat} (hp : Powered s) (pc : Fin 128) (row : Nat) (ha : s.pcActive pc.val = true)
    (h2 : 512 ≤ s.rd (DMC_PC_STAT_spares pc.val)) (hl : s.pcGone < s.pcLimit) (hq : s.dmc.migQ = []) (hb : s.on DMC_MIG_busy = false) :
    Answers (.rowSpare pc row t) s fun u =>
        u.rd (DMC_PC_STAT_state pc.val) = 1 ∧ u.rd DMC_MIG_busy = 1 ∧ u.rd DMC_MIG_pc = pc.val
          ∧ u.rd (DMC_PC_STAT_spares pc.val) = s.rd (DMC_PC_STAT_spares pc.val) := by
  refine Answers.of_performOnAt (exec_rowSpare _ _ _ _) hp ?_
  obtain ⟨p, hp128⟩ := pc
  dsimp only at *
  obtain ⟨k, hk, hkt⟩ := s.advance_moves t
  have hact : p < s.nPc ∧ s.rd (DMC_PC_STAT_state p) = 0 := by
    simp only [State.pcActive, Bool.and_eq_true, decide_eq_true_eq] at ha
    exact ha.1
  have he : State.rowSpared p row t s = ({ s with tmb := k } : State).migStart p [] := by
    have e1 : ({ s with tmb := k } : State).nPc = s.nPc := rfl
    have e2 : ({ s with tmb := k } : State).rd (DMC_PC_STAT_state p) = s.rd (DMC_PC_STAT_state p) := rfl
    have e3 : ({ s with tmb := k } : State).rd (DMC_PC_STAT_spares p) = s.rd (DMC_PC_STAT_spares p) := rfl
    rw [State.rowSpared, hk]
    dsimp only
    rw [e1, e2, e3, if_neg (by omega), if_pos h2]
    exact State.pcRetire_starts (s := { s with tmb := k }) ha hl hq hb
  obtain ⟨m1, m2, m3, -, -, -, -⟩ := ({ s with tmb := k } : State).migStart_shows p []
  rw [he]
  refine ⟨m1, m2, m3.trans (Nat.mod_eq_of_lt hp128), ?_⟩
  rw [State.rd_migStart_ne]
  · rfl
  · simp only [migFlds, List.map_cons, List.map_nil, List.mem_cons, List.not_mem_nil, or_false, not_or, Fld.key, DMC_PC_STAT_spares, DMC_PC_STAT_state,
      DMC_STAT_migrating, DMC_MIG_busy, DMC_MIG_pc, DMC_MIG_done]
    omega

/-! ### A refresh -/

/-- What a refresh leaves but for its own pseudo-channel's count. -/
def RefreshFrame (s : State) (p t : Nat) (u : State) : Prop :=
  (∀ q, q ≠ p → u.owed q = s.owed q) ∧ TimeAt s u t ∧ SameRegs s u [DMC_TEMPs_limit (p / 32), DMC_TEMPs_owed (p / 32)]
    ∧ SameRest s { u with dmc := { u.dmc with owed := s.dmc.owed, cooling := s.dmc.cooling } }

theorem refreshFrame_advance (s : State) (p t : Nat) : RefreshFrame s p t (s.advance t) := by
  obtain ⟨k, hk, hkt⟩ := s.advance_moves t
  rw [hk]
  exact ⟨fun _ _ => rfl, hkt, fun _ _ => rfl, sameRest_mk_hrv s _ _ _⟩

theorem refreshFrame_setOwed (s : State) (p n t : Nat) :
    (State.setOwed p n (s.advance t)).owed p = n ∧ RefreshFrame s p t (State.setOwed p n (s.advance t)) := by
  obtain ⟨h1, h2, h3, F, o, c, e⟩ := State.setOwed_keeps p n (s.advance t)
  obtain ⟨k, hk, hkt⟩ := s.advance_moves t
  rw [hk] at h1 h2 h3 e ⊢
  generalize State.setOwed p n { s with tmb := k } = u at *
  refine ⟨h1, h2, by rw [e]; exact hkt, h3, ?_⟩
  rw [e]
  exact sameRest_mk_hrv s _ _ _

theorem refreshDue_answers {s : State} {t : Nat} (hp : Powered s) (pc : Fin 128) (hr : s.refRuns pc.val = true) (blocked : Bool) :
    Answers (.refreshDue pc blocked t) s fun u =>
        u.owed pc.val = s.owed pc.val + (if blocked = true ∧ s.owed pc.val < s.refLimit pc.val then 1 else 0) ∧ RefreshFrame s pc.val t u := by
  refine Answers.of_performOnAt (exec_refreshDue _ _ _ _) hp ?_
  have he : State.refreshDue pc.val blocked t s = if blocked = true ∧ s.owed pc.val < s.refLimit pc.val then
      State.setOwed pc.val (s.owed pc.val + 1) (s.advance t) else s.advance t := by
    obtain ⟨k, hk, -⟩ := s.advance_moves t
    have hr' : ({ s with tmb := k } : State).refRuns pc.val = true := hr
    rw [State.refreshDue, hk]
    rw [if_neg (by simp [hr'])]
    rfl
  rw [he]
  split
  · exact refreshFrame_setOwed s _ _ t
  · refine ⟨?_, refreshFrame_advance s _ t⟩
    exact State.owed_congr (by rw [State.advance_dmc]) _

theorem owedIssue_answers {s : State} {t : Nat} (hp : Powered s) (pc : Fin 128) (hr : s.refRuns pc.val = true) :
    Answers (.owedRefreshIssue pc t) s fun u => u.owed pc.val = s.owed pc.val - 1 ∧ RefreshFrame s pc.val t u := by
  refine Answers.of_performOnAt (exec_owedRefreshIssue _ _ _) hp ?_
  have he : State.owedIssue pc.val t s = if s.owed pc.val = 0 then s.advance t else State.setOwed pc.val (s.owed pc.val - 1) (s.advance t) := by
    obtain ⟨k, hk, -⟩ := s.advance_moves t
    have hr' : ({ s with tmb := k } : State).refRuns pc.val = true := hr
    rw [State.owedIssue, hk]
    refine if_congr ?_ rfl rfl
    rw [hr']
    simp only [Bool.not_true, Bool.false_eq_true, false_or]
    exact Iff.rfl
  rw [he]
  split
  · next h =>
    refine ⟨?_, refreshFrame_advance s _ t⟩
    rw [State.owed_congr (s := s) (by rw [State.advance_dmc]), h]
  · exact refreshFrame_setOwed s _ _ t

/-! ### A stack's temperature -/

/-- The limit that a list of owed counts is cut to. -/
def cutOwed (k : Nat) (l : List (Nat × Nat)) : List (Nat × Nat) := l.map fun x => if x.1 / 32 = k then (x.1, min 4 x.2) else x

theorem look_cutOwed_le (k : Nat) (l : List (Nat × Nat)) {p : Nat} (h : p / 32 = k) : (look (cutOwed k l) p).getD 0 ≤ 4 := by
  induction l with
  | nil => exact Nat.zero_le _
  | cons x l ih =>
    rw [cutOwed, List.map_cons]
    by_cases hx : x.1 / 32 = k
    · rw [if_pos hx, look]
      split
      · exact min_le_left _ _
      · exact ih
    · rw [if_neg hx, look, if_neg (fun e => hx (by rw [e, h]))]
      exact ih

theorem mem_insSet (a : Nat) (l : List Nat) (b : Nat) : b ∈ insSet a l ↔ b = a ∨ b ∈ l := by
  induction l with
  | nil => simp [insSet]
  | cons y l ih =>
    rw [insSet]
    split
    · exact List.mem_cons
    · split
      · next h => simp [h]
      · rw [List.mem_cons, ih, List.mem_cons]
        exact or_left_comm

theorem mem_foldl_insSet (ps : List Nat) : ∀ (l : List Nat) (b : Nat), b ∈ ps.foldl (fun l p => insSet p l) l ↔ b ∈ ps ∨ b ∈ l := by
  induction ps with
  | nil => simp
  | cons p ps ih =>
    intro l b
    rw [List.foldl_cons, ih, mem_insSet, List.mem_cons, or_assoc, or_left_comm]

/-- The pseudo-channels of a stack. -/
theorem mem_stack {k p : Nat} (h : p / 32 = k) : p ∈ (List.range 32).map (32 * k + ·) :=
  List.mem_map.2 ⟨p % 32, List.mem_range.2 (Nat.mod_lt _ (by norm_num)), by omega⟩

/-- A reading of a stack's temperature is stored. -/
def tempRead (k : Nat) (temp : Int) (s : State) : State := (s.wr (DMC_TEMPs_valid k) 1).wr (DMC_TEMPs_temp k) (satU 16 temp)

theorem hot_ne_read (k : Nat) : (DMC_TEMPs_hot k).key ∉ [DMC_TEMPs_valid k, DMC_TEMPs_temp k].map Fld.key := by
  simp only [List.map_cons, List.map_nil, List.mem_cons, List.not_mem_nil, or_false, not_or, Fld.key, DMC_TEMPs_valid, DMC_TEMPs_hot, DMC_TEMPs_temp]
  omega

/-- The fields a reading writes are none of those that follow from it. -/
theorem read_ne_shown {k : Nat} (h : k < 4) : ∀ f ∈ [DMC_TEMPs_valid k, DMC_TEMPs_temp k],
    f.key ∉ [DMC_TEMPs_hot k, DMC_EVT_hot, DMC_TEMPs_limit k, DMC_TEMPs_owed k].map Fld.key := by
  simp only [List.map_cons, List.map_nil, List.mem_cons, List.not_mem_nil, or_false, not_or, Fld.key, DMC_TEMPs_valid, DMC_TEMPs_hot, DMC_TEMPs_temp,
    DMC_EVT_hot, DMC_TEMPs_limit, DMC_TEMPs_owed, forall_eq_or_imp, forall_eq]
  omega

theorem hot_ne_shown (k : Nat) : (DMC_TEMPs_hot k).key ∉ (tempFlds k).map Fld.key := by
  simp only [tempFlds, List.map_cons, List.map_nil, List.mem_cons, List.not_mem_nil, or_false, not_or, Fld.key, DMC_TEMPs_hot, DMC_TEMPs_limit, DMC_TEMPs_owed]
  omega

theorem hot_ne_evt {k : Nat} (h : k < 4) : (DMC_TEMPs_hot k).key ≠ DMC_EVT_hot.key ∧ DMC_EVT_hot.key ∉ (tempFlds k).map Fld.key := by
  simp only [tempFlds, List.map_cons, List.map_nil, List.mem_cons, List.not_mem_nil, or_false, not_or, Fld.key, DMC_TEMPs_hot, DMC_EVT_hot, DMC_TEMPs_limit,
    DMC_TEMPs_owed]
  omega

theorem rd_tempRead (k : Nat) (temp : Int) (s : State) :
    (tempRead k temp s).rd (DMC_TEMPs_valid k) = 1 ∧ (tempRead k temp s).rd (DMC_TEMPs_temp k) = satU 16 temp
      ∧ SameRegs s (tempRead k temp s) [DMC_TEMPs_valid k, DMC_TEMPs_temp k] := by
  rw [tempRead]
  refine ⟨?_, ?_, fun f hf => ?_⟩
  · rw [State.rd_wr_ne _ _ _ _ (by simp only [Fld.key, DMC_TEMPs_temp, DMC_TEMPs_valid]; omega), State.rd_wr_same]
    rfl
  · rw [State.rd_wr_same]
    exact Nat.mod_eq_of_lt (satU_lt 16 temp)
  · simp only [List.map_cons, List.map_nil, List.mem_cons, List.not_mem_nil, or_false, not_or] at hf
    rw [State.rd_wr_ne _ _ _ _ (Ne.symm hf.2), State.rd_wr_ne _ _ _ _ (Ne.symm hf.1)]

/-- A stack that becomes hot: at most 4 refreshes are owed (R289). -/
def getsHot (k : Nat) (s : State) : State :=
  State.refShow k { ((s.wr (DMC_TEMPs_hot k) 1).wr DMC_EVT_hot 1) with dmc := { s.dmc with owed := cutOwed k s.dmc.owed } }

/-- A stack that has cooled: what it owes counts against the lower limit still (R289). -/
def getsCool (k : Nat) (s : State) : State :=
  State.refShow k { s.wr (DMC_TEMPs_hot k) 0 with
    dmc := { s.dmc with cooling := (((List.range 32).map (32 * k + ·)).filter fun p => 0 < s.owed p).foldl (fun l p => insSet p l) s.dmc.cooling } }

theorem stackTemp_eq {s : State} {k : Nat} (temp : Int) (t : Nat) (hk : k < s.nStacks) (hm : s.mode ≠ 0) :
    State.stackTemp k temp t s =
      if s.on (DMC_TEMPs_hot k) = false ∧ 85 * 16 < temp then getsHot k (tempRead k temp (s.advance t))
      else if s.on (DMC_TEMPs_hot k) = true ∧ temp < 83 * 16 then getsCool k (tempRead k temp (s.advance t))
      else tempRead k temp (s.advance t) := by
  obtain ⟨b, hb, -⟩ := s.advance_moves t
  have hon : (tempRead k temp { s with tmb := b }).on (DMC_TEMPs_hot k) = s.on (DMC_TEMPs_hot k) := by
    rw [State.on, State.on, (rd_tempRead k temp _).2.2 _ (hot_ne_read k)]
    rfl
  have hg : ¬(({ s with tmb := b } : State).nStacks ≤ k ∨ ({ s with tmb := b } : State).mode = 0) := fun h => h.elim (Nat.not_le.2 hk) hm
  rw [State.stackTemp, hb, if_neg hg, ← hon, ← tempRead]
  generalize tempRead k temp { s with tmb := b } = w
  refine if_congr ?_ rfl (if_congr Iff.rfl rfl rfl)
  rw [Bool.not_eq_true']

theorem getsHot_shows {k : Nat} (hk : k < 4) (s : State) :
    (getsHot k s).rd (DMC_TEMPs_hot k) = 1 ∧ (getsHot k s).rd DMC_EVT_hot = 1
      ∧ (∀ p, p / 32 = k → (getsHot k s).owed p ≤ 4 ∧ (getsHot k s).refLimit p = 4)
      ∧ SameRegs s (getsHot k s) [DMC_TEMPs_hot k, DMC_EVT_hot, DMC_TEMPs_limit k, DMC_TEMPs_owed k]
      ∧ ∃ F o, getsHot k s = { s with fields := F, dmc := { s.dmc with owed := o } } := by
  have hw : ∃ w : State, getsHot k s = State.refShow k w ∧ w.dmc = { s.dmc with owed := cutOwed k s.dmc.owed }
      ∧ (∀ f, w.rd f = ((s.wr (DMC_TEMPs_hot k) 1).wr DMC_EVT_hot 1).rd f) ∧ ∃ F, w = { s with fields := F, dmc := w.dmc } :=
    ⟨_, rfl, rfl, fun _ => rfl, _, rfl⟩
  obtain ⟨w, e, hd, hr, F, hF⟩ := hw
  obtain ⟨G, hG⟩ := State.refShow_moves k w
  have hkeep : ∀ f : Fld, f.key ∉ (tempFlds k).map Fld.key → (getsHot k s).rd f = ((s.wr (DMC_TEMPs_hot k) 1).wr DMC_EVT_hot 1).rd f := fun f hf => by
    rw [e, State.rd_refShow k w hf, hr]
  have hdmc : (getsHot k s).dmc = { s.dmc with owed := cutOwed k s.dmc.owed } := by rw [e, hG, ← hd]
  have hhot : (getsHot k s).rd (DMC_TEMPs_hot k) = 1 := by
    rw [hkeep _ (hot_ne_shown k), State.rd_wr_ne _ _ _ _ (Ne.symm (hot_ne_evt hk).1), State.rd_wr_same]
    rfl
  refine ⟨hhot, ?_, fun p hp => ⟨?_, ?_⟩, fun f hf => ?_, G, cutOwed k s.dmc.owed, ?_⟩
  · rw [hkeep _ (hot_ne_evt hk).2, State.rd_wr_same]
    rfl
  · rw [State.owed, hdmc]
    exact look_cutOwed_le k _ hp
  · rw [State.refLimit, hp, State.on, hhot]
    rfl
  · simp only [List.map_cons, List.map_nil, List.mem_cons, List.not_mem_nil, or_false, not_or] at hf
    obtain ⟨f1, f2, f3, f4⟩ := hf
    rw [hkeep f (by simp [tempFlds, f3, f4]), State.rd_wr_ne _ _ _ _ (Ne.symm f2), State.rd_wr_ne _ _ _ _ (Ne.symm f1)]
  · rw [e, hG, hF, hd]

theorem getsCool_shows {k : Nat} (s : State) :
    (getsCool k s).rd (DMC_TEMPs_hot k) = 0 ∧ (getsCool k s).dmc.owed = s.dmc.owed
      ∧ (∀ p, p / 32 = k → 0 < s.owed p → (getsCool k s).refLimit p = 4)
      ∧ SameRegs s (getsCool k s) [DMC_TEMPs_hot k, DMC_TEMPs_limit k, DMC_TEMPs_owed k]
      ∧ ∃ F c, getsCool k s = { s with fields := F, dmc := { s.dmc with cooling := c } } := by
  have hw : ∃ w : State, getsCool k s = State.refShow k w
      ∧ w.dmc = { s.dmc with cooling := (((List.range 32).map (32 * k + ·)).filter fun p => 0 < s.owed p).foldl (fun l p => insSet p l) s.dmc.cooling }
      ∧ (∀ f, w.rd f = (s.wr (DMC_TEMPs_hot k) 0).rd f) ∧ ∃ F, w = { s with fields := F, dmc := w.dmc } :=
    ⟨_, rfl, rfl, fun _ => rfl, _, rfl⟩
  obtain ⟨w, e, hd, hr, F, hF⟩ := hw
  obtain ⟨G, hG⟩ := State.refShow_moves k w
  have hdmc : (getsCool k s).dmc = w.dmc := by rw [e, hG]
  have hkeep : ∀ f : Fld, f.key ∉ (tempFlds k).map Fld.key → (getsCool k s).rd f = (s.wr (DMC_TEMPs_hot k) 0).rd f := fun f hf => by
    rw [e, State.rd_refShow k w hf, hr]
  refine ⟨?_, by rw [hdmc, hd], fun p hp ho => ?_, fun f hf => ?_, G, w.dmc.cooling, ?_⟩
  · rw [hkeep _ (hot_ne_shown k), State.rd_wr_same]
    rfl
  · have hc : (getsCool k s).dmc.cooling.contains p = true := by
      rw [List.contains_iff_mem, hdmc, hd]
      exact (mem_foldl_insSet _ _ _).2 (.inl (List.mem_filter.2 ⟨mem_stack hp, decide_eq_true ho⟩))
    rw [State.refLimit, hc, Bool.or_true]
    rfl
  · simp only [List.map_cons, List.map_nil, List.mem_cons, List.not_mem_nil, or_false, not_or] at hf
    obtain ⟨f1, f2, f3⟩ := hf
    rw [hkeep f (by simp [tempFlds, f2, f3]), State.rd_wr_ne _ _ _ _ (Ne.symm f1)]
  · rw [e, hG, hF, hd]

theorem tempRead_advance (s : State) (k : Nat) (temp : Int) (t : Nat) :
    ∃ F b, tempRead k temp (s.advance t) = { s with fields := F, tmb := b } ∧ b.kt = max s.tmb.kt t := by
  obtain ⟨b, hb, hk⟩ := s.advance_moves t
  exact ⟨_, b, by rw [hb]; rfl, hk⟩

theorem stackTemp_answers {s : State} {t : Nat} (hp : Powered s) (k : Fin 4) (temp : Int) (hk : k.val < s.nStacks) (hm : s.mode ≠ 0) :
    Answers (.stackTempReading k temp t) s fun u =>
      u.rd (DMC_TEMPs_valid k.val) = 1 ∧ u.rd (DMC_TEMPs_temp k.val) = satU 16 temp ∧ TimeAt s u t
        ∧ (s.on (DMC_TEMPs_hot k.val) = false → 85 * 16 < temp → u.rd (DMC_TEMPs_hot k.val) = 1 ∧ u.rd DMC_EVT_hot = 1
            ∧ (∀ p, p / 32 = k.val → u.owed p ≤ 4 ∧ u.refLimit p = 4))
        ∧ (s.on (DMC_TEMPs_hot k.val) = true → temp < 83 * 16 → u.rd (DMC_TEMPs_hot k.val) = 0
            ∧ (∀ p, p / 32 = k.val → 0 < s.owed p → u.refLimit p = 4) ∧ u.dmc.owed = s.dmc.owed)
        ∧ (s.on (DMC_TEMPs_hot k.val) = true ∧ 83 * 16 ≤ temp ∨ s.on (DMC_TEMPs_hot k.val) = false ∧ temp ≤ 85 * 16 →
            SameRegs s u [DMC_TEMPs_valid k.val, DMC_TEMPs_temp k.val] ∧ SameRest s u)
        ∧ SameRegs s u [DMC_TEMPs_valid k.val, DMC_TEMPs_temp k.val, DMC_TEMPs_hot k.val, DMC_TEMPs_limit k.val, DMC_TEMPs_owed k.val,
            DMC_EVT_hot]
        ∧ SameRest s { u with dmc := { u.dmc with owed := s.dmc.owed, cooling := s.dmc.cooling } } := by
  refine Answers.of_performOnAt (exec_stackTempReading _ _ _ _) hp ?_
  obtain ⟨k, h4⟩ := k
  dsimp only at *
  have hne := read_ne_shown h4
  have hcool : ∀ f ∈ [DMC_TEMPs_valid k, DMC_TEMPs_temp k], f.key ∉ [DMC_TEMPs_hot k, DMC_TEMPs_limit k, DMC_TEMPs_owed k].map Fld.key := fun f hf h =>
    hne f hf (by simp only [List.map_cons, List.map_nil, List.mem_cons] at h ⊢; tauto)
  obtain ⟨r1, r2, r3⟩ := rd_tempRead k temp (s.advance t)
  have hrd : ∀ f, (s.advance t).rd f = s.rd f := fun f => State.rd_advance _ _ _
  obtain ⟨F, b, hF, hkt⟩ := tempRead_advance s k temp t
  rw [stackTemp_eq temp t hk hm]
  generalize tempRead k temp (s.advance t) = w at *
  have r4 : SameRegs s w [DMC_TEMPs_valid k, DMC_TEMPs_temp k] := fun f hf => (r3 f hf).trans (hrd f)
  by_cases hot : s.on (DMC_TEMPs_hot k) = false ∧ 85 * 16 < temp
  · rw [if_pos hot]
    obtain ⟨g1, g2, g3, g4, G, o, hG⟩ := getsHot_shows h4 w
    generalize getsHot k w = u at *
    refine ⟨(g4 _ (hne _ (by simp))).trans r1, (g4 _ (hne _ (by simp))).trans r2, by rw [hG, hF]; exact hkt, fun _ _ => ⟨g1, g2, g3⟩,
      fun h => absurd (hot.1.symm.trans h) (by simp), fun h => ?_, fun f hf => ?_, by rw [hG, hF]; exact sameRest_mk_hrv s _ _ _⟩
    · rcases h with h | h
      · exact absurd (hot.1.symm.trans h.1) (by simp)
      · exact absurd hot.2 (by omega)
    · simp only [List.map_cons, List.map_nil, List.mem_cons, List.not_mem_nil, or_false, not_or] at hf
      obtain ⟨f1, f2, f3, f4, f5, f6⟩ := hf
      rw [g4 f (by simp [f3, f4, f5, f6]), r4 f (by simp [f1, f2])]
  · rw [if_neg hot]
    by_cases cool : s.on (DMC_TEMPs_hot k) = true ∧ temp < 83 * 16
    · rw [if_pos cool]
      obtain ⟨g1, g2, g3, g4, G, c, hG⟩ := getsCool_shows (k := k) w
      have hwo : ∀ p, w.owed p = s.owed p := fun p => by rw [hF]; rfl
      generalize getsCool k w = u at *
      refine ⟨(g4 _ (hcool _ (by simp))).trans r1, (g4 _ (hcool _ (by simp))).trans r2, by rw [hG, hF]; exact hkt, fun h => absurd (h.symm.trans cool.1) (by simp),
        fun _ _ => ⟨g1, fun p hp ho => g3 p hp (by rw [hwo]; exact ho), by rw [g2, hF]⟩, fun h => ?_, fun f hf => ?_,
        by rw [hG, hF]; exact sameRest_mk_hrv s _ _ _⟩
      · rcases h with h | h
        · exact absurd cool.2 (by omega)
        · exact absurd (h.1.symm.trans cool.1) (by simp)
      · simp only [List.map_cons, List.map_nil, List.mem_cons, List.not_mem_nil, or_false, not_or] at hf
        obtain ⟨f1, f2, f3, f4, f5, f6⟩ := hf
        rw [g4 f (by simp [f3, f4, f5]), r4 f (by simp [f1, f2])]
    · rw [if_neg cool]
      refine ⟨r1, r2, by rw [hF]; exact hkt, fun h h' => absurd ⟨h, h'⟩ hot, fun h h' => absurd ⟨h, h'⟩ cool,
        fun _ => ⟨r4, by rw [hF]; exact sameRest_mk s _ _ _ _⟩, fun f hf => ?_, by rw [hF]; exact sameRest_mk_hrv s _ _ _⟩
      simp only [List.map_cons, List.map_nil, List.mem_cons, List.not_mem_nil, or_false, not_or] at hf
      exact r4 f (by simp [hf.1, hf.2.1])

/-- Settles O38: a spared row, one that is not to be had, the refreshes a pseudo-channel owes and a stack's temperature. -/
theorem rowsAndRefresh : Obligations.RowsAndRefresh := by
  unfold Obligations.RowsAndRefresh
  exact fun s t hp => ⟨fun pc row => ⟨rowSpare_counts hp pc row, fun ha h2 hl hq hb => rowSpare_retires hp pc row ha h2 hl hq hb⟩,
    fun pc hr => ⟨fun blocked => refreshDue_answers hp pc hr blocked, owedIssue_answers hp pc hr⟩, fun k temp hk hm => stackTemp_answers hp k temp hk hm⟩

end Sys2Proof
end

