-- ==== Sys2Proof/Proofs/ChannelRetirement.lean ====
section
/-! SUPPORT. The retirement of a pseudo-channel by a write, by its corrected symbols and at the end of its migration: the statement of O37. -/

namespace Sys2Proof.Machine

/-! ### What retirement leaves -/

/-- The registers that show the migration that runs. -/
def migShown : List Fld := [DMC_STAT_migrating, DMC_MIG_busy, DMC_MIG_pc, DMC_MIG_done]

/-- The registers that a refused retirement writes. -/
def limitFlds : List Fld := [DMC_STAT_ret_limit, DMC_EVT_ret_limit] ++ bboxFlds

/-- The field is not a pseudo-channel's state. -/
def NotState (f : Fld) : Prop := ∀ q, (DMC_PC_STAT_state q).key ≠ f.key

theorem notState_low {f : Fld} (h : f.key < 8 * 0xC100C) : NotState f := fun q => DMC_PC_STAT_state_ne q h

theorem notState_ce (p : Nat) : NotState (DMC_PC_STAT_ce p) := fun q => by
  simp only [Fld.key, DMC_PC_STAT_state, DMC_PC_STAT_ce]
  omega

theorem state_ne_limit (p : Nat) : (DMC_PC_STAT_state p).key ∉ limitFlds.map Fld.key := by
  simp only [limitFlds, bboxFlds, List.cons_append, List.nil_append, List.map_cons, List.map_nil, List.mem_cons, List.not_mem_nil, or_false, not_or, Fld.key,
    DMC_PC_STAT_state, DMC_STAT_ret_limit, DMC_EVT_ret_limit, BBX_STAT_count, BBX_HEAD_value, BBX_LOST_value]
  omega

theorem ce_ne_shown (p : Nat) (h : p < 128) : (DMC_PC_STAT_ce p).key ∉ (migShown ++ limitFlds).map Fld.key := by
  simp only [migShown, limitFlds, bboxFlds, List.cons_append, List.nil_append, List.map_cons, List.map_nil, List.mem_cons, List.not_mem_nil, or_false, not_or,
    Fld.key, DMC_PC_STAT_ce, DMC_STAT_ret_limit, DMC_EVT_ret_limit, BBX_STAT_count, BBX_HEAD_value, BBX_LOST_value, DMC_STAT_migrating, DMC_MIG_busy,
    DMC_MIG_pc, DMC_MIG_done]
  omega

theorem State.migNext_keeps (s : State) : ∃ F D, s.migNext = { s with fields := F, dmc := D } ∧ D.sym = s.dmc.sym
    ∧ ∀ f, NotState f → f.key ∉ migShown.map Fld.key → s.migNext.rd f = s.rd f := by
  rcases hq : s.dmc.migQ with _ | ⟨p, r⟩
  · exact ⟨s.fields, s.dmc, State.migNext_waits (.inl hq), rfl, fun f _ _ => by rw [State.migNext_waits (.inl hq)]⟩
  · by_cases hb : s.on DMC_MIG_busy = true
    · exact ⟨s.fields, s.dmc, State.migNext_waits (.inr hb), rfl, fun f _ _ => by rw [State.migNext_waits (.inr hb)]⟩
    · rw [State.migNext_start hq (by simpa using hb)]
      refine ⟨_, _, rfl, rfl, fun f hn hf => State.rd_migStart_ne p r s ?_⟩
      simp only [migShown, migFlds, List.map_cons, List.map_nil, List.mem_cons, List.not_mem_nil, or_false, not_or] at hf ⊢
      exact ⟨Ne.symm (hn p), hf⟩

theorem State.retLimit_keeps (p : Nat) (s : State) : ∃ F B, ((s.wr DMC_STAT_ret_limit 1).wr DMC_EVT_ret_limit 1).bbox 0x42 p 0 = { s with fields := F, bbx := B }
    ∧ (∀ f : Fld, f.key ∉ limitFlds.map Fld.key → (((s.wr DMC_STAT_ret_limit 1).wr DMC_EVT_ret_limit 1).bbox 0x42 p 0).rd f = s.rd f)
    ∧ (((s.wr DMC_STAT_ret_limit 1).wr DMC_EVT_ret_limit 1).bbox 0x42 p 0).rd DMC_STAT_ret_limit = 1
    ∧ (((s.wr DMC_STAT_ret_limit 1).wr DMC_EVT_ret_limit 1).bbox 0x42 p 0).rd DMC_EVT_ret_limit = 1 := by
  obtain ⟨F, B, e⟩ := ((s.wr DMC_STAT_ret_limit 1).wr DMC_EVT_ret_limit 1).bbox_moves 0x42 p 0
  refine ⟨F, B, e, fun f hf => ?_, ?_, ?_⟩
  · simp only [limitFlds, List.cons_append, List.nil_append, List.map_cons, List.mem_cons, not_or] at hf
    rw [State.rd_bbox _ _ _ _ hf.2.2, State.rd_wr_ne _ _ _ _ (Ne.symm hf.2.1), State.rd_wr_ne _ _ _ _ (Ne.symm hf.1)]
  · rw [State.rd_bbox _ _ _ _ (by decide), State.rd_wr_ne _ _ _ _ (by decide), State.rd_wr_same]
    rfl
  · rw [State.rd_bbox _ _ _ _ (by decide), State.rd_wr_same]
    rfl

theorem State.pcRetire_keeps (p : Nat) (s : State) : ∃ F D B, State.pcRetire p true s = { s with fields := F, dmc := D, bbx := B } ∧ D.sym = s.dmc.sym
    ∧ ∀ f, NotState f → f.key ∉ (migShown ++ limitFlds).map Fld.key → (State.pcRetire p true s).rd f = s.rd f := by
  by_cases ha : s.pcActive p = true
  · by_cases hl : s.pcLimit ≤ s.pcGone
    · rw [State.pcRetire_limit true ha hl]
      obtain ⟨F, B, e, hr, -⟩ := State.retLimit_keeps p s
      refine ⟨F, s.dmc, B, e, rfl, fun f _ hf => hr f ?_⟩
      rw [List.map_append, List.mem_append, not_or] at hf
      exact hf.2
    · have e : State.pcRetire p true s = ({ s with dmc := { s.dmc with migQ := s.dmc.migQ ++ [p] } } : State).migNext := by
        rw [State.pcRetire, if_neg (by simp [ha]), if_neg (by exact hl), if_pos rfl]
      obtain ⟨F, D, h, hs, hr⟩ := ({ s with dmc := { s.dmc with migQ := s.dmc.migQ ++ [p] } } : State).migNext_keeps
      rw [e]
      refine ⟨F, D, s.bbx, h, hs, fun f hn hf => ?_⟩
      rw [List.map_append, List.mem_append, not_or] at hf
      exact hr f hn hf.1
  · rw [State.pcRetire_inactive true (by simpa using ha)]
    exact ⟨s.fields, s.dmc, s.bbx, rfl, rfl, fun _ _ _ => rfl⟩

/-! ### Corrected and uncorrectable reads -/

theorem State.rd_addSat (s : State) (f : Fld) (n : Nat) : (s.addSat f n).rd f = min (s.rd f + n) (2 ^ f.w - 1) := by
  rw [State.addSat, State.rd_wr_same]
  exact Nat.mod_eq_of_lt (lt_of_le_of_lt (Nat.min_le_right _ _) (Nat.sub_lt (Nat.two_pow_pos _) Nat.one_pos))

theorem State.rd_addSat_ne (s : State) {f g : Fld} (n : Nat) (h : f.key ≠ g.key) : (s.addSat f n).rd g = s.rd g := State.rd_wr_ne _ _ _ _ h

/-- The registers that an uncorrectable read writes. -/
def uncorrFlds : List Fld := [DMC_UE_CNT_count, DMC_EVT_ue, DMC_ERR_addr, DMC_ERR_HI_valid, DMC_ERR_HI_ue, DMC_ERR_HI_pc] ++ bboxFlds

theorem State.deepUncorr_keeps (s : State) (a : Nat) : (∃ F B D, s.deepUncorr a = { s with fields := F, bbx := B, dpoison := D })
    ∧ SameRegs s (s.deepUncorr a) uncorrFlds ∧ (s.deepUncorr a).rd DMC_EVT_ue = 1 ∧ (s.deepUncorr a).dpoison = insSet (a / 64 * 64) s.dpoison := by
  rw [State.deepUncorr]
  dsimp only
  generalize s.serving a = p
  obtain ⟨F, B, e⟩ := ((((((s.addSat DMC_UE_CNT_count 1).wr DMC_EVT_ue 1).wr DMC_ERR_addr a).wr DMC_ERR_HI_valid 1).wr DMC_ERR_HI_ue 1).wr DMC_ERR_HI_pc
    p).bbox_moves 0x41 p (a / 64)
  refine ⟨?_, fun f hf => ?_, ?_, ?_⟩
  · rw [e]
    exact ⟨_, _, _, rfl⟩
  · simp only [uncorrFlds, List.cons_append, List.nil_append, List.map_cons, List.mem_cons, not_or] at hf
    obtain ⟨f1, f2, f3, f4, f5, f6, f7⟩ := hf
    rw [State.rd_mk, State.rd_bbox _ _ _ _ f7, State.rd_wr_ne _ _ _ _ (Ne.symm f6), State.rd_wr_ne _ _ _ _ (Ne.symm f5), State.rd_wr_ne _ _ _ _ (Ne.symm f4),
      State.rd_wr_ne _ _ _ _ (Ne.symm f3), State.rd_wr_ne _ _ _ _ (Ne.symm f2), State.rd_addSat_ne _ _ (Ne.symm f1)]
  · rw [State.rd_mk, State.rd_bbox _ _ _ _ (by decide), State.rd_wr_ne _ _ _ _ (by decide), State.rd_wr_ne _ _ _ _ (by decide),
      State.rd_wr_ne _ _ _ _ (by decide), State.rd_wr_ne _ _ _ _ (by decide), State.rd_wr_same]
    rfl
  · rw [e]
    rfl

/-- Each of a list of uncorrectable reads is counted and poisons its access. -/
theorem uncorr_fold (l : List Nat) : ∀ s : State, (∃ F B D, l.foldl State.deepUncorr s = { s with fields := F, bbx := B, dpoison := D })
    ∧ SameRegs s (l.foldl State.deepUncorr s) uncorrFlds
    ∧ (∀ x ∈ s.dpoison, x ∈ (l.foldl State.deepUncorr s).dpoison) ∧ (s.rd DMC_EVT_ue = 1 → (l.foldl State.deepUncorr s).rd DMC_EVT_ue = 1)
    ∧ ∀ a ∈ l, a / 64 * 64 ∈ (l.foldl State.deepUncorr s).dpoison ∧ (l.foldl State.deepUncorr s).rd DMC_EVT_ue = 1 := by
  induction l with
  | nil => exact fun s => ⟨⟨_, _, _, rfl⟩, fun _ _ => rfl, fun _ h => h, id, fun _ h => absurd h (by simp)⟩
  | cons b l ih =>
    intro s
    rw [List.foldl_cons]
    obtain ⟨⟨F, B, D, e⟩, hr, hu, hp⟩ := s.deepUncorr_keeps b
    obtain ⟨⟨F', B', D', e'⟩, hr', hd', hu', ha'⟩ := ih (s.deepUncorr b)
    refine ⟨⟨F', B', D', by rw [e', e]⟩, fun f hf => (hr' f hf).trans (hr f hf), fun x hx => hd' x ?_, fun _ => hu' hu, fun a ha => ?_⟩
    · rw [hp]
      exact (mem_insSet _ _ _).2 (.inr hx)
    · rcases List.mem_cons.1 ha with rfl | h
      · refine ⟨hd' _ ?_, hu' hu⟩
        rw [hp]
        exact (mem_insSet _ _ _).2 (.inl rfl)
      · exact ha' a h

end Sys2Proof.Machine

namespace Sys2Proof

open Machine

/-! ### A retirement that goes -/

/-- What becomes of a pseudo-channel that is to be retired. -/
def Retires (s : State) (p : Nat) (u : State) : Prop :=
  (s.pcGone < (if s.isH2 then 2 else 4) → s.dmc.migQ = [] → s.on DMC_MIG_busy = false →
      u.rd (DMC_PC_STAT_state p) = 1 ∧ u.rd DMC_MIG_busy = 1 ∧ u.rd DMC_MIG_pc = p % 128 ∧ u.rd DMC_MIG_done = 0
        ∧ u.rd DMC_STAT_migrating = 1
        ∧ look u.dmc.moved p = some ((List.range s.nPc).filter (fun k => decide (k ≠ p) && decide (s.rd (DMC_PC_STAT_state k) = 0)),
            s.rd DMC_ILV_GRAIN_grain))
    ∧ (s.pcGone < (if s.isH2 then 2 else 4) → s.on DMC_MIG_busy = true → u.dmc.migQ = s.dmc.migQ ++ [p])
    ∧ ((if s.isH2 then 2 else 4) ≤ s.pcGone → u.rd DMC_STAT_ret_limit = 1 ∧ u.rd DMC_EVT_ret_limit = 1 ∧ u.dmc.migQ = s.dmc.migQ
        ∧ u.rd (DMC_PC_STAT_state p) = s.rd (DMC_PC_STAT_state p))

/-- The states agree in all that a retirement looks at. -/
structure SameChannels (s w : State) : Prop where
  build : w.build = s.build
  migQ : w.dmc.migQ = s.dmc.migQ
  state : ∀ k, w.rd (DMC_PC_STAT_state k) = s.rd (DMC_PC_STAT_state k)
  retired : w.rd DMC_STAT_retired = s.rd DMC_STAT_retired
  busy : w.rd DMC_MIG_busy = s.rd DMC_MIG_busy
  grain : w.rd DMC_ILV_GRAIN_grain = s.rd DMC_ILV_GRAIN_grain

namespace SameChannels

variable {s w : State} (h : SameChannels s w)
include h

theorem isH2 : w.isH2 = s.isH2 := by rw [State.isH2, State.isH2, h.build]

theorem nPc : w.nPc = s.nPc := by rw [State.nPc, State.nPc, State.nStacks, State.nStacks, h.isH2]

theorem gone : w.pcGone = s.pcGone := by rw [State.pcGone, State.pcGone, h.migQ, h.retired, h.busy]

theorem limit : w.pcLimit = s.pcLimit := by rw [State.pcLimit, State.pcLimit, h.isH2]

theorem active (p : Nat) : w.pcActive p = s.pcActive p := by rw [State.pcActive, State.pcActive, h.nPc, h.state, h.migQ]

theorem onBusy : w.on DMC_MIG_busy = s.on DMC_MIG_busy := by rw [State.on, State.on, h.busy]

end SameChannels

theorem retires_pcRetire {s w : State} (h : SameChannels s w) {p : Nat} (ha : s.pcActive p = true) : Retires s p (State.pcRetire p true w) := by
  have ha' : w.pcActive p = true := by rw [h.active, ha]
  refine ⟨fun hl hq hb => ?_, fun hl hb => ?_, fun hl => ?_⟩
  · rw [State.pcRetire_starts ha' (by rw [h.gone, h.limit]; exact hl) (by rw [h.migQ, hq]) (by rw [h.onBusy, hb])]
    obtain ⟨m1, m2, m3, m4, m5, -, m7⟩ := w.migStart_shows p []
    refine ⟨m1, m2, m3, m4, m5, m7.trans ?_⟩
    rw [h.nPc, h.grain]
    simp only [h.state]
  · rw [State.pcRetire_queues ha' (by rw [h.gone, h.limit]; exact hl) (by rw [h.onBusy, hb]), h.migQ]
  · rw [State.pcRetire_limit true ha' (by rw [h.gone, h.limit]; exact hl)]
    obtain ⟨F, B, e, hr, h1, h2⟩ := State.retLimit_keeps p w
    exact ⟨h1, h2, by rw [e]; exact h.migQ, (hr _ (state_ne_limit p)).trans (h.state p)⟩

/-! ### The keyed write -/

/-- The parts of the word that DMC_CTL takes. -/
theorem dmcCtl_eq (v : Nat) (s : State) : State.dmcCtl v s =
    let s1 := if v / 4 % 2 = 1 then s.dmcInit else s
    let s2 := if v / 2 % 2 = 1 ∧ DMC_CTL_key.of v = 0x5A3C then State.pcRetire (DMC_CTL_pc.of v) true s1 else s1
    if v % 2 = 1 then s2.hashApply else s2 := by
  rw [State.dmcCtl]
  simp only [show ∀ v, DMC_CTL_init.of v = v / 4 % 2 from fun _ => rfl, show ∀ v, DMC_CTL_retire.of v = v / 2 % 2 from fun _ => rfl,
    show ∀ v, DMC_CTL_apply.of v = v / 1 % 2 from fun _ => rfl, Nat.div_one]

theorem portWrite_dmc {s : State} {p : Port} {v : Nat} (h : Reaches p DMC_CTL_init.addr s) (hv : v < 2 ^ 32) :
    ∃ b q, State.portWrite p DMC_CTL_init.addr 15 v s = { State.dmcCtl v { s with hrv := { s.hrv with l12 := b } } with irqSeen := q } :=
  portWrite_command h hv (by decide) (by decide) (by simp [State.closed, DMC_CTL_init]) (by simp [State.ignored, State.pcAbsent, DMC_CTL_init]) rfl

theorem dmcInit_keeps (s : State) : ∃ F a b, s.dmcInit = { s with fields := F, dmc := { s.dmc with initWait := a, initRun := b } }
    ∧ SameRegs s s.dmcInit [DMC_STAT_init_done] := by
  rw [State.dmcInit]
  split
  · exact ⟨s.fields, true, s.dmc.initRun, rfl, fun _ _ => rfl⟩
  · rw [State.dmcInitStart]
    refine ⟨_, false, true, rfl, fun f hf => ?_⟩
    rw [State.rd_mk, State.rd_wr_ne _ _ _ _ fun x => hf (by simp [x])]

theorem hashApply_keeps (s : State) : ∃ F H E P N, s.hashApply = { s with fields := F, dmc := { s.dmc with hash := H }, deep := E, dpoison := P, free := N }
    ∧ SameRegs s s.hashApply [DMC_STAT_hash_bad] := by
  rw [State.hashApply]
  split
  · exact ⟨s.fields, s.dmc.hash, s.deep, s.dpoison, s.free, rfl, fun _ _ => rfl⟩
  · split
    · exact ⟨_, s.dmc.hash, s.deep, s.dpoison, s.free, rfl, fun f hf => State.rd_wr_ne _ _ _ _ fun x => hf (by simp [x])⟩
    · dsimp only
      generalize (List.range 13).map (fun n => if s.isH2 && n = 6 then s.dmc.hash.getD 6 0 else s.hashReg n) = new
      split
      · exact ⟨_, s.dmc.hash, s.deep, s.dpoison, s.free, rfl, fun f hf => State.rd_wr_ne _ _ _ _ fun x => hf (by simp [x])⟩
      · refine ⟨_, new, _, _, _, rfl, fun f hf => ?_⟩
        rw [State.rd_mk, State.rd_wr_ne _ _ _ _ fun x => hf (by simp [x])]

/-- A write of the masks does not undo a retirement. -/
theorem Retires.hashApply {s u : State} {p : Nat} (h : Retires s p u) : Retires s p u.hashApply := by
  obtain ⟨F, H, E, P, N, e, hr⟩ := hashApply_keeps u
  have hs : u.hashApply.rd (DMC_PC_STAT_state p) = u.rd (DMC_PC_STAT_state p) := hr _ fun x =>
    DMC_PC_STAT_state_ne p (f := DMC_STAT_hash_bad) (by decide) (by simpa using x)
  obtain ⟨h1, h2, h3⟩ := h
  have hq : u.hashApply.dmc.migQ = u.dmc.migQ := by rw [e]
  have hm : u.hashApply.dmc.moved = u.dmc.moved := by rw [e]
  rw [Retires, hq, hm, hs, hr _ (by decide), hr _ (by decide), hr _ (by decide), hr _ (by decide), hr _ (by decide), hr _ (by decide)]
  exact ⟨h1, h2, h3⟩

theorem sameChannels_dmcInit (s : State) : SameChannels s s.dmcInit := by
  obtain ⟨F, a, b, e, hr⟩ := dmcInit_keeps s
  exact ⟨by rw [e], by rw [e], fun k => hr _ fun x => DMC_PC_STAT_state_ne k (f := DMC_STAT_init_done) (by decide) (by simpa using x), hr _ (by decide),
    hr _ (by decide), hr _ (by decide)⟩

theorem sameChannels_refl (s : State) : SameChannels s s := ⟨rfl, rfl, fun _ => rfl, rfl, rfl, rfl⟩

/-- Neither the start of an initialisation nor the application of masks has a time. -/
theorem dmcCtl_time (v : Nat) (s : State) : (State.dmcCtl v s).tmb = s.tmb := by
  rw [dmcCtl_eq]
  dsimp only
  obtain ⟨F, a, b, hi, -⟩ := dmcInit_keeps s
  have h1 : (if v / 4 % 2 = 1 then s.dmcInit else s).tmb = s.tmb := by
    split
    · rw [hi]
    · rfl
  rw [← h1]
  generalize (if v / 4 % 2 = 1 then s.dmcInit else s) = s1
  obtain ⟨F', D', B', hp, -⟩ := s1.pcRetire_keeps (DMC_CTL_pc.of v)
  have h2 : (if v / 2 % 2 = 1 ∧ DMC_CTL_key.of v = 0x5A3C then State.pcRetire (DMC_CTL_pc.of v) true s1 else s1).tmb = s1.tmb := by
    split
    · rw [hp]
    · rfl
  rw [← h2]
  generalize (if v / 2 % 2 = 1 ∧ DMC_CTL_key.of v = 0x5A3C then State.pcRetire (DMC_CTL_pc.of v) true s1 else s1) = s2
  split
  · obtain ⟨_, _, _, _, _, e, -⟩ := hashApply_keeps s2
    rw [e]
  · rfl

/-- The bits of a word with its retire bit set. -/
theorem retireBits (v : Word) : (v.toNat ||| 2) / 2 % 2 = 1 ∧ (v.toNat ||| 2) / 4 = v.toNat / 4 ∧ (v.toNat ||| 2) % 2 = v.toNat % 2
    ∧ DMC_CTL_key.of (v.toNat ||| 2) = DMC_CTL_key.of v.toNat ∧ DMC_CTL_pc.of (v.toNat ||| 2) = DMC_CTL_pc.of v.toNat := by
  have h : ∀ k, 1 < k → (v.toNat ||| 2) / 2 ^ k = v.toNat / 2 ^ k := fun k hk => or_high (k := 1) v.toNat hk
  refine ⟨or_bit v.toNat 1 1, h 2 (by decide), by simpa using or_bit v.toNat 1 0, ?_, ?_⟩
  · exact congrArg (· % 2 ^ 16) (h 16 (by decide))
  · exact congrArg (· % 2 ^ 7) (h 8 (by decide))

theorem dmcRetire_goes {s : State} {t : Nat} {p : Port} (v : Word) (h : Reaches p DMC_CTL_init.addr s) (hk : DMC_CTL_key.of v.toNat = 0x5A3C)
    (ha : s.pcActive (DMC_CTL_pc.of v.toNat) = true) :
    Answers (.dmcRetire p v t) s fun u => Retires s (DMC_CTL_pc.of v.toNat) u ∧ TimeAt s u t := by
  refine Answers.of_performAt (exec_dmcRetire _ _ _ _) h.1 ?_
  obtain ⟨k, hkt, ht⟩ := s.advance_moves t
  have hre : Reaches p DMC_CTL_init.addr { s with tmb := k } := h
  obtain ⟨b, q, e⟩ := portWrite_dmc hre (word_or_lt v (k := 1) (by decide))
  obtain ⟨b1, -, -, bk, bp⟩ := retireBits v
  rw [State.writeAt, hkt, show v.toNat ||| 2 = v.toNat ||| 2 ^ 1 from rfl, e, show v.toNat ||| 2 ^ 1 = v.toNat ||| 2 from rfl]
  have hs : SameChannels s ({ s with tmb := k, hrv := { s.hrv with l12 := b } } : State) := ⟨rfl, rfl, fun _ => rfl, rfl, rfl, rfl⟩
  have htm := dmcCtl_time (v.toNat ||| 2) ({ s with tmb := k, hrv := { s.hrv with l12 := b } } : State)
  refine ⟨?_, by rw [TimeAt, htm]; exact ht⟩
  suffices hg : Retires s (DMC_CTL_pc.of v.toNat) (State.dmcCtl (v.toNat ||| 2) { s with tmb := k, hrv := { s.hrv with l12 := b } }) from hg
  generalize ({ s with tmb := k, hrv := { s.hrv with l12 := b } } : State) = w at hs ⊢
  rw [dmcCtl_eq]
  dsimp only
  rw [if_pos (show (v.toNat ||| 2) / 2 % 2 = 1 ∧ DMC_CTL_key.of (v.toNat ||| 2) = 0x5A3C from ⟨b1, bk.trans hk⟩), bp]
  have h1 : SameChannels s (if (v.toNat ||| 2) / 4 % 2 = 1 then w.dmcInit else w) := by
    split
    · obtain ⟨i1, i2, i3, i4, i5, i6⟩ := sameChannels_dmcInit w
      exact ⟨i1.trans hs.build, i2.trans hs.migQ, fun k => (i3 k).trans (hs.state k), i4.trans hs.retired, i5.trans hs.busy, i6.trans hs.grain⟩
    · exact hs
  generalize (if (v.toNat ||| 2) / 4 % 2 = 1 then w.dmcInit else w) = w1 at h1 ⊢
  split
  · exact (retires_pcRetire h1 ha).hashApply
  · exact retires_pcRetire h1 ha

theorem dmcRetire_stays {s : State} {t : Nat} {p : Port} (v : Word) (h : Reaches p DMC_CTL_init.addr s)
    (hn : DMC_CTL_key.of v.toNat ≠ 0x5A3C ∨ s.pcActive (DMC_CTL_pc.of v.toNat) = false) (h0 : v.getLsbD 0 = false) (h2 : v.getLsbD 2 = false) :
    Answers (.dmcRetire p v t) s fun u => TimeAt s u t ∧ SameRegs s u [] ∧ SameRest s u := by
  refine Answers.of_performAt (exec_dmcRetire _ _ _ _) h.1 ?_
  obtain ⟨k, hkt, ht⟩ := s.advance_moves t
  have hre : Reaches p DMC_CTL_init.addr { s with tmb := k } := h
  obtain ⟨b, q, e⟩ := portWrite_dmc hre (word_or_lt v (k := 1) (by decide))
  obtain ⟨b1, b4, b0, bk, bp⟩ := retireBits v
  have v0 : v.toNat % 2 = 0 := by simpa [BitVec.getLsbD, Nat.testBit, Nat.shiftRight_eq_div_pow] using h0
  have v2 : v.toNat / 4 % 2 = 0 := by simpa [BitVec.getLsbD, Nat.testBit, Nat.shiftRight_eq_div_pow] using h2
  rw [State.writeAt, hkt, show v.toNat ||| 2 = v.toNat ||| 2 ^ 1 from rfl, e, show v.toNat ||| 2 ^ 1 = v.toNat ||| 2 from rfl]
  have hc : State.dmcCtl (v.toNat ||| 2) { s with tmb := k, hrv := { s.hrv with l12 := b } } = { s with tmb := k, hrv := { s.hrv with l12 := b } } := by
    rw [dmcCtl_eq]
    dsimp only
    rw [if_neg (show ¬(v.toNat ||| 2) / 4 % 2 = 1 by omega), if_neg (show ¬(v.toNat ||| 2) % 2 = 1 by omega), bk, bp]
    rcases hn with hn | hn
    · exact if_neg fun x => hn x.2
    · rw [State.pcRetire_inactive true (s := { s with tmb := k, hrv := { s.hrv with l12 := b } }) hn, ite_self]
  rw [hc]
  exact ⟨ht, fun _ _ => rfl, sameRest_mk s _ _ _ _⟩

/-! ### The symbols of a second -/

/-- Corrected symbols are counted. -/
def symbolsMet (n : Nat) (s : State) : State := if n = 0 then s else (s.addSat DMC_CE_CNT_count n).wr DMC_EVT_ce 1

/-- Late reads are counted. -/
def lateMet (n : Nat) (s : State) : State := if n = 0 then s else (s.addSat DMC_STARVE_count n).wr DMC_EVT_starve 1

theorem secondMet_eq (p : Nat) (q : Second) (s : State) : State.secondMet p q s =
    lateMet q.late ((q.uncorr.filter fun a => decide (a < s.deepSize) && s.serving a = p).foldl State.deepUncorr (symbolsMet q.symbols s)) := rfl

/-- The registers of a count and its event that a number of cases writes. -/
def countFlds (n : Nat) (f g : Fld) : List Fld := if n = 0 then [] else [f, g]

theorem symbolsMet_keeps (n : Nat) (s : State) : (∃ F, symbolsMet n s = { s with fields := F })
    ∧ SameRegs s (symbolsMet n s) (countFlds n DMC_CE_CNT_count DMC_EVT_ce)
    ∧ (n ≠ 0 → (symbolsMet n s).rd DMC_CE_CNT_count = min (s.rd DMC_CE_CNT_count + n) (2 ^ 32 - 1) ∧ (symbolsMet n s).rd DMC_EVT_ce = 1) := by
  rw [symbolsMet, countFlds]
  split
  · next h => exact ⟨⟨_, rfl⟩, fun _ _ => rfl, fun x => absurd h x⟩
  · refine ⟨⟨_, rfl⟩, fun f hf => ?_, fun _ => ⟨?_, ?_⟩⟩
    · simp only [List.map_cons, List.map_nil, List.mem_cons, List.not_mem_nil, or_false, not_or] at hf
      rw [State.rd_wr_ne _ _ _ _ (Ne.symm hf.2), State.rd_addSat_ne _ _ (Ne.symm hf.1)]
    · rw [State.rd_wr_ne _ _ _ _ (by decide), State.rd_addSat]
      rfl
    · rw [State.rd_wr_same]
      rfl

theorem lateMet_keeps (n : Nat) (s : State) : (∃ F, lateMet n s = { s with fields := F })
    ∧ SameRegs s (lateMet n s) (countFlds n DMC_STARVE_count DMC_EVT_starve)
    ∧ (n ≠ 0 → (lateMet n s).rd DMC_STARVE_count = min (s.rd DMC_STARVE_count + n) (2 ^ 32 - 1) ∧ (lateMet n s).rd DMC_EVT_starve = 1) := by
  rw [lateMet, countFlds]
  split
  · next h => exact ⟨⟨_, rfl⟩, fun _ _ => rfl, fun x => absurd h x⟩
  · refine ⟨⟨_, rfl⟩, fun f hf => ?_, fun _ => ⟨?_, ?_⟩⟩
    · simp only [List.map_cons, List.map_nil, List.mem_cons, List.not_mem_nil, or_false, not_or] at hf
      rw [State.rd_wr_ne _ _ _ _ (Ne.symm hf.2), State.rd_addSat_ne _ _ (Ne.symm hf.1)]
    · rw [State.rd_wr_ne _ _ _ _ (by decide), State.rd_addSat]
      rfl
    · rw [State.rd_wr_same]
      rfl

/-- A field that neither count writes. -/
theorem countFlds_free {n : Nat} {f g x : Fld} (h : x.key ∉ [f, g].map Fld.key) : x.key ∉ (countFlds n f g).map Fld.key := by
  rw [countFlds]
  split
  · exact List.not_mem_nil
  · exact h

/-- The reads of a second, and what has been counted of it. -/
def secondCounted (p : Nat) (q : Second) (n : Nat) (s : State) : State :=
  { (State.secondMet p q s).wr (DMC_PC_STAT_ce p) (min n 65535) with dmc := { (State.secondMet p q s).dmc with sym := del (State.secondMet p q s).dmc.sym p } }

/-- The registers of a second. -/
def secondFlds : List Fld := [DMC_CE_CNT_count, DMC_EVT_ce, DMC_STARVE_count, DMC_EVT_starve] ++ uncorrFlds

theorem secondMet_keeps (p : Nat) (q : Second) (s : State) : (∃ F B D, State.secondMet p q s = { s with fields := F, bbx := B, dpoison := D })
    ∧ SameRegs s (State.secondMet p q s) secondFlds
    ∧ (q.symbols ≠ 0 → (State.secondMet p q s).rd DMC_CE_CNT_count = min (s.rd DMC_CE_CNT_count + q.symbols) (2 ^ 32 - 1)
        ∧ (State.secondMet p q s).rd DMC_EVT_ce = 1)
    ∧ (q.late ≠ 0 → (State.secondMet p q s).rd DMC_STARVE_count = min (s.rd DMC_STARVE_count + q.late) (2 ^ 32 - 1)
        ∧ (State.secondMet p q s).rd DMC_EVT_starve = 1)
    ∧ (∀ a ∈ q.uncorr, a < s.deepSize → s.serving a = p → a / 64 * 64 ∈ (State.secondMet p q s).dpoison ∧ (State.secondMet p q s).rd DMC_EVT_ue = 1)
    ∧ (q.uncorr = [] → (∃ F, State.secondMet p q s = { s with fields := F })
        ∧ SameRegs s (State.secondMet p q s) (countFlds q.symbols DMC_CE_CNT_count DMC_EVT_ce ++ countFlds q.late DMC_STARVE_count DMC_EVT_starve)) := by
  rw [secondMet_eq]
  obtain ⟨⟨F1, e1⟩, r1, c1⟩ := symbolsMet_keeps q.symbols s
  have hnone : q.uncorr = [] → (q.uncorr.filter fun a => decide (a < s.deepSize) && s.serving a = p) = [] := fun h => by rw [h]; rfl
  have hin : ∀ a ∈ q.uncorr, a < s.deepSize → s.serving a = p → a ∈ q.uncorr.filter fun a => decide (a < s.deepSize) && s.serving a = p :=
    fun a ha h1 h2 => List.mem_filter.2 ⟨ha, by simp [h1, h2]⟩
  generalize (q.uncorr.filter fun a => decide (a < s.deepSize) && s.serving a = p) = l at *
  generalize symbolsMet q.symbols s = w1 at *
  obtain ⟨⟨F2, B2, D2, e2⟩, r2, -, -, a2⟩ := uncorr_fold l w1
  have hl : q.uncorr = [] → l.foldl State.deepUncorr w1 = w1 := fun h => by rw [hnone h]; rfl
  generalize l.foldl State.deepUncorr w1 = w2 at *
  obtain ⟨⟨F3, e3⟩, r3, c3⟩ := lateMet_keeps q.late w2
  generalize lateMet q.late w2 = w3 at *
  refine ⟨⟨F3, B2, D2, by rw [e3, e2, e1]⟩, fun f hf => ?_, fun h => ⟨?_, ?_⟩, fun h => ⟨?_, (c3 h).2⟩, fun a ha h1 h2 => ⟨?_, ?_⟩, fun h => ⟨⟨F3, ?_⟩, ?_⟩⟩
  · rw [secondFlds, List.map_append, List.mem_append, not_or] at hf
    have h1 : f.key ∉ [DMC_CE_CNT_count, DMC_EVT_ce].map Fld.key := fun x => hf.1 (by simp at x ⊢; tauto)
    have h3 : f.key ∉ [DMC_STARVE_count, DMC_EVT_starve].map Fld.key := fun x => hf.1 (by simp at x ⊢; tauto)
    rw [r3 f (countFlds_free h3), r2 f hf.2, r1 f (countFlds_free h1)]
  · rw [r3 _ (countFlds_free (by decide)), r2 _ (by decide)]
    exact (c1 h).1
  · rw [r3 _ (countFlds_free (by decide)), r2 _ (by decide)]
    exact (c1 h).2
  · rw [(c3 h).1, r2 _ (by decide), r1 _ (countFlds_free (by decide))]
  · rw [e3]
    exact (a2 a (hin a ha h1 h2)).1
  · rw [r3 _ (countFlds_free (by decide))]
    exact (a2 a (hin a ha h1 h2)).2
  · rw [e3, hl h, e1]
  · intro f hf
    rw [List.map_append, List.mem_append, not_or] at hf
    rw [r3 f hf.2, hl h, r1 f hf.1]

theorem symbolsCounted_eq {s : State} {p : Nat} (q : Second) (t : Nat) (hp : p < s.nPc) :
    State.symbolsCounted p q t s =
      if (secondCounted p q (q.symbols + (look s.dmc.sym p).getD 0) (s.advance t)).rd DMC_RET_THR_thr ≠ 0
          ∧ (secondCounted p q (q.symbols + (look s.dmc.sym p).getD 0) (s.advance t)).rd DMC_RET_THR_thr < q.symbols + (look s.dmc.sym p).getD 0 then
        State.pcRetire p true (secondCounted p q (q.symbols + (look s.dmc.sym p).getD 0) (s.advance t))
      else secondCounted p q (q.symbols + (look s.dmc.sym p).getD 0) (s.advance t) := by
  obtain ⟨k, hk, -⟩ := s.advance_moves t
  rw [State.symbolsCounted, hk]
  exact if_neg (Nat.not_le.2 hp)

theorem low_ne_ce (p : Nat) {f : Fld} (h : f.key < 8 * 0xC100C) : (DMC_PC_STAT_ce p).key ≠ f.key := by
  have : (DMC_PC_STAT_ce p).key = 8 * (0xC100C + 16 * p) := rfl
  omega

/-- What a counted second leaves. -/
theorem secondCounted_keeps (p : Nat) (q : Second) (n : Nat) (s : State) :
    (∃ F B D, secondCounted p q n s = { s with fields := F, bbx := B, dpoison := D, dmc := { s.dmc with sym := del s.dmc.sym p } })
    ∧ (secondCounted p q n s).dpoison = (State.secondMet p q s).dpoison
    ∧ (secondCounted p q n s).rd (DMC_PC_STAT_ce p) = min n 65535
    ∧ SameRegs (State.secondMet p q s) (secondCounted p q n s) [DMC_PC_STAT_ce p] := by
  obtain ⟨⟨F, B, D, e⟩, -⟩ := secondMet_keeps p q s
  rw [secondCounted]
  generalize State.secondMet p q s = w at *
  refine ⟨⟨_, B, D, by rw [e]; rfl⟩, rfl, ?_, fun f hf => ?_⟩
  · rw [State.rd_mk, State.rd_wr_same]
    exact Nat.mod_eq_of_lt (lt_of_le_of_lt (Nat.min_le_right _ _) (show 65535 < 2 ^ 16 by decide))
  · rw [State.rd_mk, State.rd_wr_ne _ _ _ _ fun x => hf (by simp [x])]

theorem state_ne_second (p : Nat) : (DMC_PC_STAT_state p).key ∉ secondFlds.map Fld.key := by
  simp only [secondFlds, uncorrFlds, bboxFlds, List.cons_append, List.nil_append, List.map_cons, List.map_nil, List.mem_cons, List.not_mem_nil, or_false,
    not_or, Fld.key, DMC_PC_STAT_state, BBX_STAT_count, BBX_HEAD_value, BBX_LOST_value, DMC_CE_CNT_count, DMC_EVT_ce, DMC_STARVE_count, DMC_EVT_starve,
    DMC_UE_CNT_count, DMC_EVT_ue, DMC_ERR_addr, DMC_ERR_HI_valid, DMC_ERR_HI_ue, DMC_ERR_HI_pc]
  omega

/-- A register below those of the pseudo-channels reads after a retirement as before it. -/
theorem rd_pcRetire_low (p : Nat) (s : State) {f : Fld} (h : f.key < 8 * 0xC100C) (hf : f.key ∉ (migShown ++ limitFlds).map Fld.key) :
    (State.pcRetire p true s).rd f = s.rd f := by
  obtain ⟨-, -, -, -, -, hr⟩ := s.pcRetire_keeps p
  exact hr f (notState_low h) hf

/-- What a second shows in any case. -/
def SecondShown (s : State) (p t : Nat) (q : Second) (u : State) : Prop :=
  u.rd (DMC_PC_STAT_ce p) = min (q.symbols + (look s.dmc.sym p).getD 0) 65535 ∧ look u.dmc.sym p = none ∧ TimeAt s u t
    ∧ (q.symbols ≠ 0 → u.rd DMC_CE_CNT_count = min (s.rd DMC_CE_CNT_count + q.symbols) (2 ^ 32 - 1) ∧ u.rd DMC_EVT_ce = 1)
    ∧ (q.late ≠ 0 → u.rd DMC_STARVE_count = min (s.rd DMC_STARVE_count + q.late) (2 ^ 32 - 1) ∧ u.rd DMC_EVT_starve = 1)
    ∧ (∀ a, a ∈ q.uncorr → a < s.deepSize → s.serving a = p → a / 64 * 64 ∈ u.dpoison ∧ u.rd DMC_EVT_ue = 1)

theorem secondCounted_shown (s : State) (p t : Nat) (q : Second) :
    SecondShown s p t q (secondCounted p q (q.symbols + (look s.dmc.sym p).getD 0) (s.advance t)) := by
  obtain ⟨k, hk, ht⟩ := s.advance_moves t
  rw [hk]
  obtain ⟨⟨F, B, D, e⟩, hd, hc, hr⟩ := secondCounted_keeps p q (q.symbols + (look s.dmc.sym p).getD 0) { s with tmb := k }
  obtain ⟨-, -, m1, m2, m3, -⟩ := secondMet_keeps p q { s with tmb := k }
  have low : ∀ f : Fld, f.key < 8 * 0xC100C → (secondCounted p q (q.symbols + (look s.dmc.sym p).getD 0) { s with tmb := k }).rd f
      = (State.secondMet p q { s with tmb := k }).rd f := fun f hf => hr f fun x => low_ne_ce p hf (List.mem_singleton.1 x).symm
  refine ⟨hc, by rw [e]; exact look_del_same _ _, by rw [e]; exact ht, fun h => ?_, fun h => ?_, fun a ha h1 h2 => ?_⟩
  · rw [low _ (by decide), low _ (by decide)]
    exact m1 h
  · rw [low _ (by decide), low _ (by decide)]
    exact m2 h
  · rw [hd, low _ (by decide)]
    exact m3 a ha h1 h2

theorem SecondShown.pcRetire {s u : State} {p t : Nat} {q : Second} (hp : p < 128) (h : SecondShown s p t q u) :
    SecondShown s p t q (State.pcRetire p true u) := by
  obtain ⟨F, D, B, e, hs, hr⟩ := u.pcRetire_keeps p
  obtain ⟨h1, h2, h3, h4, h5, h6⟩ := h
  have low : ∀ f : Fld, f.key < 8 * 0xC100C → f.key ∉ (migShown ++ limitFlds).map Fld.key → (State.pcRetire p true u).rd f = u.rd f :=
    fun f hf => rd_pcRetire_low p u hf
  refine ⟨?_, ?_, ?_, fun h => ?_, fun h => ?_, fun a ha h1 h2 => ⟨?_, ?_⟩⟩
  · rw [hr _ (notState_ce p) (ce_ne_shown p hp)]
    exact h1
  · rw [e, ← h2]
    exact congrArg (look · p) hs
  · rw [e]
    exact h3
  · rw [low _ (by decide) (by decide), low _ (by decide) (by decide)]
    exact h4 h
  · rw [low _ (by decide) (by decide), low _ (by decide) (by decide)]
    exact h5 h
  · rw [e]
    exact (h6 a ha h1 h2).1
  · rw [low _ (by decide) (by decide)]
    exact (h6 a ha h1 h2).2

theorem sameChannels_second (s : State) (p t : Nat) (q : Second) (n : Nat) : SameChannels s (secondCounted p q n (s.advance t)) := by
  obtain ⟨k, hk, -⟩ := s.advance_moves t
  rw [hk]
  obtain ⟨⟨F, B, D, e⟩, -, -, hr⟩ := secondCounted_keeps p q n { s with tmb := k }
  obtain ⟨-, hm, -⟩ := secondMet_keeps p q { s with tmb := k }
  have low : ∀ f : Fld, f.key < 8 * 0xC100C → f.key ∉ secondFlds.map Fld.key → (secondCounted p q n { s with tmb := k }).rd f = s.rd f := fun f h1 h2 =>
    (hr f fun x => low_ne_ce p h1 (List.mem_singleton.1 x).symm).trans (hm f h2)
  refine ⟨by rw [e], by rw [e], fun j => (hr _ fun x => ?_).trans (hm _ (state_ne_second j)), low _ (by decide) (by decide), low _ (by decide) (by decide),
    low _ (by decide) (by decide)⟩
  exact notState_ce p j (by simpa using x)

theorem secondCounted_quiet (s : State) (p t : Nat) (q : Second) (hu : q.uncorr = []) :
    SameRegs s (secondCounted p q (q.symbols + (look s.dmc.sym p).getD 0) (s.advance t)) ([DMC_PC_STAT_ce p]
        ++ countFlds q.symbols DMC_CE_CNT_count DMC_EVT_ce ++ countFlds q.late DMC_STARVE_count DMC_EVT_starve)
      ∧ SameRest s { secondCounted p q (q.symbols + (look s.dmc.sym p).getD 0) (s.advance t) with
          dmc := { (secondCounted p q (q.symbols + (look s.dmc.sym p).getD 0) (s.advance t)).dmc with sym := s.dmc.sym } } := by
  obtain ⟨k, hk, -⟩ := s.advance_moves t
  rw [hk]
  obtain ⟨-, -, -, hr⟩ := secondCounted_keeps p q (q.symbols + (look s.dmc.sym p).getD 0) { s with tmb := k }
  obtain ⟨-, -, -, -, -, m⟩ := secondMet_keeps p q { s with tmb := k }
  obtain ⟨⟨F, e⟩, m⟩ := m hu
  refine ⟨fun f hf => ?_, ?_⟩
  · rw [List.append_assoc, List.map_append, List.mem_append, not_or] at hf
    exact (hr f hf.1).trans (m f hf.2)
  · rw [secondCounted, e]
    exact sameRest_mk_hrv s _ _ _

theorem retireThreshold_answers {s : State} {t : Nat} (hp : Powered s) (pc : Fin 128) (q : Second) (hn : pc.val < s.nPc) :
    Answers (.retireThreshold pc q t) s fun u =>
      SecondShown s pc.val t q u
        ∧ (q.uncorr = [] → s.rd DMC_RET_THR_thr = 0 ∨ q.symbols + (look s.dmc.sym pc.val).getD 0 ≤ s.rd DMC_RET_THR_thr →
            SameRegs s u ([DMC_PC_STAT_ce pc.val] ++ countFlds q.symbols DMC_CE_CNT_count DMC_EVT_ce ++ countFlds q.late DMC_STARVE_count DMC_EVT_starve)
            ∧ SameRest s { u with dmc := { u.dmc with sym := s.dmc.sym } })
        ∧ (s.rd DMC_RET_THR_thr ≠ 0 → s.rd DMC_RET_THR_thr < q.symbols + (look s.dmc.sym pc.val).getD 0 → s.pcActive pc.val = true → Retires s pc.val u) := by
  refine Answers.of_performOnAt (exec_retireThreshold _ _ _ _) hp ?_
  obtain ⟨p, h128⟩ := pc
  dsimp only at *
  rw [symbolsCounted_eq q t hn]
  have hs := secondCounted_shown s p t q
  have hc := sameChannels_second s p t q (q.symbols + (look s.dmc.sym p).getD 0)
  have hq := secondCounted_quiet s p t q
  have ht : (secondCounted p q (q.symbols + (look s.dmc.sym p).getD 0) (s.advance t)).rd DMC_RET_THR_thr = s.rd DMC_RET_THR_thr := by
    obtain ⟨-, -, -, hr⟩ := secondCounted_keeps p q (q.symbols + (look s.dmc.sym p).getD 0) (s.advance t)
    obtain ⟨-, hm, -⟩ := secondMet_keeps p q (s.advance t)
    rw [hr _ fun x => low_ne_ce p (f := DMC_RET_THR_thr) (by decide) (List.mem_singleton.1 x).symm, hm _ (by decide), State.rd_advance]
  generalize secondCounted p q (q.symbols + (look s.dmc.sym p).getD 0) (s.advance t) = c at *
  generalize q.symbols + (look s.dmc.sym p).getD 0 = n at *
  rw [ht]
  split
  · next h => exact ⟨hs.pcRetire h128, fun _ x => by omega, fun _ _ ha => retires_pcRetire hc ha⟩
  · next h => exact ⟨hs, fun x _ => hq x, fun h1 h2 _ => absurd ⟨h1, h2⟩ h⟩

/-! ### The end of a migration -/

/-- A pseudo-channel is retired. -/
theorem pcRetired_shows {p : Nat} (hp : p < 128) (s : State) :
    (State.pcRetired p s).rd (DMC_PC_STAT_state p) = 2 ∧ (State.pcRetired p s).rd DMC_STAT_retired = (s.rd DMC_STAT_retired + 1) % 8
      ∧ (State.pcRetired p s).rd DMC_EVT_retired = 1 ∧ bit ((State.pcRetired p s).rd (DMC_RETIRED_bits (p / 32))) (p % 32) = true
      ∧ (∃ F, State.pcRetired p s = { s with fields := F })
      ∧ SameRegs s (State.pcRetired p s) [DMC_PC_STAT_state p, DMC_RETIRED_bits (p / 32), DMC_STAT_retired, DMC_EVT_retired] := by
  have h1 := DMC_PC_STAT_state_ne p (f := DMC_STAT_retired) (by decide)
  have h2 := DMC_PC_STAT_state_ne p (f := DMC_EVT_retired) (by decide)
  have hb : (DMC_RETIRED_bits (p / 32)).key = 8 * (0xC0040 + 4 * (p / 32)) := rfl
  have h3 := DMC_PC_STAT_state_ne p (f := DMC_RETIRED_bits (p / 32)) (by omega)
  have h4 : (DMC_RETIRED_bits (p / 32)).key ≠ DMC_STAT_retired.key := by rw [hb]; simp only [Fld.key, DMC_STAT_retired]; omega
  have h5 : (DMC_RETIRED_bits (p / 32)).key ≠ DMC_EVT_retired.key := by rw [hb]; simp only [Fld.key, DMC_EVT_retired]; omega
  rw [State.pcRetired]
  refine ⟨?_, ?_, ?_, ?_, ⟨_, rfl⟩, fun f hf => ?_⟩
  · rw [State.rd_wr_ne _ _ _ _ (Ne.symm h2), rd_bump_ne _ (Ne.symm h1), rd_orF_ne _ _ _ _ (Ne.symm h3), State.rd_wr_same]
    rfl
  · rw [State.rd_wr_ne _ _ _ _ (by decide), rd_bump, rd_orF_ne _ _ _ _ h4, State.rd_wr_ne _ _ _ _ h1]
    rfl
  · rw [State.rd_wr_same]
    rfl
  · rw [State.rd_wr_ne _ _ _ _ (Ne.symm h5), rd_bump_ne _ (Ne.symm h4)]
    exact bit_rd_orF _ _ _ (Nat.mod_lt _ (by decide))
  · simp only [List.map_cons, List.map_nil, List.mem_cons, List.not_mem_nil, or_false, not_or] at hf
    obtain ⟨f1, f2, f3, f4⟩ := hf
    rw [State.rd_wr_ne _ _ _ _ (Ne.symm f4), rd_bump_ne _ (Ne.symm f3), rd_orF_ne _ _ _ _ (Ne.symm f2), State.rd_wr_ne _ _ _ _ (Ne.symm f1)]

/-- The migration of `p` ends, before the next one starts. -/
def migEnds (p : Nat) (s : State) : State := (((State.pcRetired p s).wr DMC_MIG_busy 0).wr DMC_MIG_done 1024).wr DMC_STAT_migrating 0

theorem migEnds_shows {p : Nat} (hp : p < 128) (s : State) :
    (migEnds p s).rd (DMC_PC_STAT_state p) = 2 ∧ (migEnds p s).rd DMC_STAT_retired = (s.rd DMC_STAT_retired + 1) % 8
      ∧ (migEnds p s).rd DMC_EVT_retired = 1 ∧ bit ((migEnds p s).rd (DMC_RETIRED_bits (p / 32))) (p % 32) = true
      ∧ (migEnds p s).rd DMC_MIG_busy = 0 ∧ (migEnds p s).rd DMC_MIG_done = 1024 ∧ (migEnds p s).rd DMC_STAT_migrating = 0
      ∧ ∃ F, migEnds p s = { s with fields := F } := by
  obtain ⟨h1, h2, h3, h4, ⟨F, e⟩, -⟩ := pcRetired_shows hp s
  have hb : (DMC_RETIRED_bits (p / 32)).key = 8 * (0xC0040 + 4 * (p / 32)) := rfl
  have keep : ∀ f : Fld, DMC_MIG_busy.key ≠ f.key → DMC_MIG_done.key ≠ f.key → DMC_STAT_migrating.key ≠ f.key → (migEnds p s).rd f = (State.pcRetired p s).rd f :=
    fun f f1 f2 f3 => by rw [migEnds, State.rd_wr_ne _ _ _ _ f3, State.rd_wr_ne _ _ _ _ f2, State.rd_wr_ne _ _ _ _ f1]
  have kr : ∀ f : Fld, f.key < 8 * 0xC0040 → f.key ≠ (DMC_RETIRED_bits (p / 32)).key := fun f hf => by omega
  have ks : ∀ f : Fld, f.key < 8 * 0xC100C → f.key ≠ (DMC_PC_STAT_state p).key := fun f hf => (DMC_PC_STAT_state_ne p hf).symm
  refine ⟨?_, ?_, ?_, ?_, ?_, ?_, ?_, ?_⟩
  · rw [keep _ (ks _ (by decide)) (ks _ (by decide)) (ks _ (by decide)), h1]
  · rw [keep _ (by decide) (by decide) (by decide), h2]
  · rw [keep _ (by decide) (by decide) (by decide), h3]
  · rw [keep _ (kr _ (by decide)) (kr _ (by decide)) (kr _ (by decide)), h4]
  · rw [migEnds, State.rd_wr_ne _ _ _ _ (by decide), State.rd_wr_ne _ _ _ _ (by decide), State.rd_wr_same]
    rfl
  · rw [migEnds, State.rd_wr_ne _ _ _ _ (by decide), State.rd_wr_same]
    rfl
  · rw [migEnds, State.rd_wr_same]
    rfl
  · rw [migEnds, e]
    exact ⟨_, rfl⟩

theorem state_ne_uncorr (p : Nat) : (DMC_PC_STAT_state p).key ∉ uncorrFlds.map Fld.key := fun h =>
  state_ne_second p (by rw [secondFlds, List.map_append, List.mem_append]; exact .inr h)

theorem State.migrated_eq {s : State} {t : Nat} (bad : List Nat) (hb : s.on DMC_MIG_busy = true) (hr : 2 ^ 41 ≤ s.migRoomAt (max s.tmb.kt t)) :
    State.migrated bad t s = (migEnds (s.rd DMC_MIG_pc)
      ((bad.filter fun a => decide (a < s.deepSize) && s.pcOf a = s.rd DMC_MIG_pc).foldl State.deepUncorr (s.advance t))).migNext := by
  obtain ⟨k, hk, ht⟩ := s.advance_moves t
  have hb' : ({ s with tmb := k } : State).on DMC_MIG_busy = true := hb
  have hr' : ¬({ s with tmb := k } : State).migRoomAt k.kt < 2 ^ 41 := by rw [ht]; exact Nat.not_lt.2 hr
  rw [State.migrated, hk]
  exact if_neg (by rw [hb', decide_eq_false hr']; decide)

theorem State.migrated_stays {s : State} {t : Nat} (bad : List Nat) (h : s.on DMC_MIG_busy = false ∨ s.migRoomAt (max s.tmb.kt t) < 2 ^ 41) :
    State.migrated bad t s = s.advance t := by
  obtain ⟨k, hk, ht⟩ := s.advance_moves t
  have h' : ({ s with tmb := k } : State).on DMC_MIG_busy = false ∨ ({ s with tmb := k } : State).migRoomAt k.kt < 2 ^ 41 := by rw [ht]; exact h
  rw [State.migrated, hk]
  refine if_pos ?_
  rcases h' with h' | h'
  · rw [h']
    rfl
  · rw [decide_eq_true h', Bool.or_true]

/-- What the end of the migration of `p` shows. -/
def Migrated (s : State) (p t : Nat) (bad : List Nat) (u : State) : Prop :=
  u.rd (DMC_PC_STAT_state p) = 2 ∧ u.rd DMC_STAT_retired = (s.rd DMC_STAT_retired + 1) % 8 ∧ u.rd DMC_EVT_retired = 1
    ∧ bit (u.rd (DMC_RETIRED_bits (p / 32))) (p % 32) = true ∧ u.deep = s.deep ∧ TimeAt s u t
    ∧ (∀ a ∈ bad, a < s.deepSize → s.pcOf a = p → (a / 64 * 64) ∈ u.dpoison) ∧ (bad = [] → u.dpoison = s.dpoison)

theorem migEnds_migrated {s : State} {p : Nat} (hp : p < 128) (t : Nat) (bad : List Nat) :
    Migrated s p t bad (migEnds p ((bad.filter fun a => decide (a < s.deepSize) && s.pcOf a = p).foldl State.deepUncorr (s.advance t))) := by
  obtain ⟨k, hk, ht⟩ := s.advance_moves t
  have hin : ∀ a ∈ bad, a < s.deepSize → s.pcOf a = p → a ∈ bad.filter fun a => decide (a < s.deepSize) && s.pcOf a = p :=
    fun a ha h1 h2 => List.mem_filter.2 ⟨ha, by simp [h1, h2]⟩
  have hnone : bad = [] → (bad.filter fun a => decide (a < s.deepSize) && s.pcOf a = p) = [] := fun h => by rw [h]; rfl
  rw [hk]
  generalize (bad.filter fun a => decide (a < s.deepSize) && s.pcOf a = p) = l at *
  obtain ⟨⟨F, B, D, e⟩, r, -, -, a⟩ := uncorr_fold l { s with tmb := k }
  have hl : bad = [] → l.foldl State.deepUncorr { s with tmb := k } = { s with tmb := k } := fun h => by rw [hnone h]; rfl
  generalize l.foldl State.deepUncorr { s with tmb := k } = w at *
  obtain ⟨m1, m2, m3, m4, -, -, -, G, g⟩ := migEnds_shows hp w
  refine ⟨m1, m2.trans ?_, m3, m4, by rw [g, e], by rw [g, e]; exact ht, fun x hx h1 h2 => ?_, fun h => ?_⟩
  · rw [r _ (by decide)]
    rfl
  · rw [g]
    exact (a x (hin x hx h1 h2)).1
  · rw [g]
    exact (congrArg State.dpoison (hl h)).trans rfl

/-- The next migration does not undo the end of one. -/
theorem Migrated.migNext {s u : State} {p t : Nat} {bad : List Nat} (hp : p < 128) (hh : u.dmc.migQ.head? ≠ some p) (h : Migrated s p t bad u) :
    Migrated s p t bad u.migNext := by
  obtain ⟨F, D, e, -, hr⟩ := u.migNext_keeps
  have hb : (DMC_RETIRED_bits (p / 32)).key = 8 * (0xC0040 + 4 * (p / 32)) := rfl
  have hst : u.migNext.rd (DMC_PC_STAT_state p) = u.rd (DMC_PC_STAT_state p) := by
    rcases hq : u.dmc.migQ with _ | ⟨q, r⟩
    · rw [State.migNext_waits (.inl hq)]
    · by_cases ho : u.on DMC_MIG_busy = true
      · rw [State.migNext_waits (.inr ho)]
      · have hne : q ≠ p := fun x => hh (by rw [hq, x]; rfl)
        rw [State.migNext_start hq (by simpa using ho), State.rd_migStart_ne]
        simp only [migFlds, List.map_cons, List.map_nil, List.mem_cons, List.not_mem_nil, or_false, not_or]
        exact ⟨DMC_PC_STAT_state_inj (Ne.symm hne), DMC_PC_STAT_state_ne p (by decide), DMC_PC_STAT_state_ne p (by decide), DMC_PC_STAT_state_ne p (by decide),
          DMC_PC_STAT_state_ne p (by decide)⟩
  have hbits : (DMC_RETIRED_bits (p / 32)).key ∉ migShown.map Fld.key := by
    simp only [migShown, List.map_cons, List.map_nil, List.mem_cons, List.not_mem_nil, or_false, not_or, Fld.key, DMC_RETIRED_bits, DMC_STAT_migrating,
      DMC_MIG_busy, DMC_MIG_pc, DMC_MIG_done]
    omega
  have hd : u.migNext.deep = u.deep ∧ u.migNext.tmb = u.tmb ∧ u.migNext.dpoison = u.dpoison := by rw [e]; exact ⟨rfl, rfl, rfl⟩
  rw [Migrated, TimeAt, hst, hr _ (notState_low (by decide)) (by decide), hr _ (notState_low (by decide)) (by decide),
    hr _ (notState_low (by omega)) hbits, hd.1, hd.2.1, hd.2.2]
  exact h

theorem migrationComplete_answers {s : State} {t : Nat} (hp : Powered s) (hb : s.on DMC_MIG_busy = true) (h128 : s.rd DMC_MIG_pc < 128)
    (hh : s.dmc.migQ.head? ≠ some (s.rd DMC_MIG_pc)) (hr : 2 ^ 41 ≤ s.migRoomAt (max s.tmb.kt t)) (bad : List Nat) :
    Answers (.migrationComplete ⟨bad, t⟩) s fun u => Migrated s (s.rd DMC_MIG_pc) t bad u
      ∧ (s.dmc.migQ = [] → u.rd DMC_MIG_busy = 0 ∧ u.rd DMC_MIG_done = 1024 ∧ u.rd DMC_STAT_migrating = 0)
      ∧ (∀ q r, s.dmc.migQ = q :: r → u.dmc.migQ = r ∧ u.rd DMC_MIG_busy = 1 ∧ u.rd DMC_MIG_pc = q % 128 ∧ u.rd DMC_MIG_done = 0
          ∧ u.rd (DMC_PC_STAT_state q) = 1) := by
  refine Answers.of_performOnAt (exec_migrationComplete _ _) hp ?_
  dsimp only
  rw [State.migrated_eq bad hb hr]
  have hm := migEnds_migrated (s := s) h128 t bad
  obtain ⟨k, hk, -⟩ := s.advance_moves t
  obtain ⟨⟨F, B, D, e⟩, -⟩ := uncorr_fold (bad.filter fun a => decide (a < s.deepSize) && s.pcOf a = s.rd DMC_MIG_pc) (s.advance t)
  generalize (bad.filter fun a => decide (a < s.deepSize) && s.pcOf a = s.rd DMC_MIG_pc).foldl State.deepUncorr (s.advance t) = w at *
  obtain ⟨-, -, -, -, m5, m6, m7, G, g⟩ := migEnds_shows h128 w
  generalize migEnds (s.rd DMC_MIG_pc) w = v at *
  have hq : v.dmc.migQ = s.dmc.migQ := by rw [g, e, hk]
  refine ⟨hm.migNext h128 (by rw [hq]; exact hh), fun h => ?_, fun q r h => ?_⟩
  · rw [State.migNext_waits (.inl (hq.trans h))]
    exact ⟨m5, m6, m7⟩
  · rw [State.migNext_start (hq.trans h) (by rw [State.on, m5]; rfl)]
    obtain ⟨s1, s2, s3, s4, -, s6, -⟩ := v.migStart_shows q r
    exact ⟨s6, s2, s3, s4, s1⟩

/-- Settles O37: the keyed write, the symbols of a second and the end of a migration, each through what one retirement does. -/
theorem channelRetirement : Obligations.ChannelRetirement := by
  unfold Obligations.ChannelRetirement
  refine fun s t => ⟨fun p v h => ⟨fun hk ha => dmcRetire_goes v h hk ha, fun hn h0 h2 => dmcRetire_stays v h hn h0 h2⟩, fun hp pc q hn => ?_,
    fun hp hb h128 hh hr bad => ?_, fun hp h bad => ?_⟩
  · refine (retireThreshold_answers hp pc q hn).imp fun u ⟨⟨h1, h2, h3, h4, h5, h6⟩, h7, h8⟩ => ⟨h1, h2, h3, h4, h5, h6, h7, h8⟩
  · refine (migrationComplete_answers hp hb h128 hh hr bad).imp fun u ⟨⟨h1, h2, h3, h4, h5, h6, h7, h8⟩, h9, h10⟩ => ⟨h1, h2, h3, h4, h5, h6, h7, h8, h9, h10⟩
  · refine Answers.of_performOnAt (exec_migrationComplete _ _) hp ?_
    dsimp only
    rw [State.migrated_stays bad h]
    obtain ⟨k, hk, ht⟩ := s.advance_moves t
    rw [hk]
    exact ⟨ht, fun _ _ => rfl, sameRest_mk_hrv s _ _ _⟩

end Sys2Proof
end

