-- ==== Sys2Proof/Proofs/DeepInitAndHash.lean ====
section
/-! SUPPORT. The initialisation of deep memory and the application of its address masks: the statement of O36. -/

namespace Sys2Proof

open Machine

/-! ### The start of an initialisation -/

/-- The bits of a word with its init bit set. -/
theorem initBits (v : Word) : (v.toNat ||| 4) / 4 % 2 = 1 ∧ (v.toNat ||| 4) / 2 % 2 = v.toNat / 2 % 2 ∧ (v.toNat ||| 4) % 2 = v.toNat % 2 :=
  ⟨or_bit v.toNat 2 2, or_bit v.toNat 2 1, by simpa using or_bit v.toNat 2 0⟩

/-- The bits of a word with its apply bit set. -/
theorem applyBits (v : Word) : (v.toNat ||| 1) / 4 % 2 = v.toNat / 4 % 2 ∧ (v.toNat ||| 1) / 2 % 2 = v.toNat / 2 % 2 ∧ (v.toNat ||| 1) % 2 = 1 :=
  ⟨or_bit v.toNat 0 2, or_bit v.toNat 0 1, by simpa using or_bit v.toNat 0 0⟩

theorem word_bit (v : Word) (k : Nat) (h : v.getLsbD k = false) : v.toNat / 2 ^ k % 2 = 0 := by
  simpa [BitVec.getLsbD, Nat.testBit, Nat.shiftRight_eq_div_pow] using h

/-- What the start of an initialisation shows. -/
def InitStarts (s u : State) : Prop :=
  (s.on DMC_STAT_clear_busy = true → u.dmc.initWait = true ∧ u.dmc.initRun = s.dmc.initRun ∧ u.rd DMC_STAT_init_done = s.rd DMC_STAT_init_done)
    ∧ (s.on DMC_STAT_clear_busy = false → u.dmc.initWait = false ∧ u.dmc.initRun = true ∧ u.rd DMC_STAT_init_done = 0)

theorem initStarts_dmcInit (s : State) : InitStarts s s.dmcInit := by
  refine ⟨fun h => ?_, fun h => ?_⟩
  · rw [State.dmcInit, if_pos h]
    exact ⟨rfl, rfl, rfl⟩
  · rw [State.dmcInit, if_neg (by simp [h]), State.dmcInitStart]
    refine ⟨rfl, rfl, ?_⟩
    rw [State.rd_mk, State.rd_wr_same]
    rfl

/-- What leaves the progress of an initialisation as it is. -/
theorem InitStarts.keep {s u w : State} (h : InitStarts s u) (h1 : w.dmc.initWait = u.dmc.initWait) (h2 : w.dmc.initRun = u.dmc.initRun)
    (h3 : w.rd DMC_STAT_init_done = u.rd DMC_STAT_init_done) : InitStarts s w := by
  rw [InitStarts, h1, h2, h3]
  exact h

theorem State.migNext_init (s : State) : s.migNext.dmc.initWait = s.dmc.initWait ∧ s.migNext.dmc.initRun = s.dmc.initRun := by
  rw [State.migNext]
  split
  · exact ⟨rfl, rfl⟩
  · split
    · exact ⟨rfl, rfl⟩
    · exact ⟨rfl, rfl⟩

theorem State.pcRetire_init (p : Nat) (s : State) :
    (State.pcRetire p true s).dmc.initWait = s.dmc.initWait ∧ (State.pcRetire p true s).dmc.initRun = s.dmc.initRun := by
  by_cases ha : s.pcActive p = true
  · by_cases hl : s.pcLimit ≤ s.pcGone
    · rw [State.pcRetire_limit true ha hl]
      obtain ⟨F, B, e, -⟩ := State.retLimit_keeps p s
      rw [e]
      exact ⟨rfl, rfl⟩
    · rw [State.pcRetire, if_neg (by simp [ha]), if_neg (by exact hl), if_pos rfl]
      exact State.migNext_init _
  · rw [State.pcRetire_inactive true (by simpa using ha)]
    exact ⟨rfl, rfl⟩

theorem dmcInit_answers {s : State} {t : Nat} {p : Port} (v : Word) (h : Reaches p DMC_CTL_init.addr s) : Answers (.dmcInit p v t) s fun u =>
    TimeAt s u t ∧ InitStarts s u
      ∧ (v.getLsbD 0 = false → v.getLsbD 1 = false → SameRegs s u [DMC_STAT_init_done] ∧ SameRest s { u with dmc := s.dmc }) := by
  refine Answers.of_performAt (exec_dmcInit _ _ _ _) h.1 ?_
  obtain ⟨k, hkt, ht⟩ := s.advance_moves t
  have hre : Reaches p DMC_CTL_init.addr { s with tmb := k } := h
  obtain ⟨b, q, e⟩ := portWrite_dmc hre (word_or_lt v (k := 2) (by decide))
  obtain ⟨b4, b2, b1⟩ := initBits v
  rw [State.writeAt, hkt, show v.toNat ||| 4 = v.toNat ||| 2 ^ 2 from rfl, e, show v.toNat ||| 2 ^ 2 = v.toNat ||| 4 from rfl]
  refine ⟨by rw [TimeAt, dmcCtl_time]; exact ht, ?_, fun h0 h1 => ?_⟩
  · suffices hg : InitStarts s (State.dmcCtl (v.toNat ||| 4) { s with tmb := k, hrv := { s.hrv with l12 := b } }) from hg
    have hi : InitStarts s ({ s with tmb := k, hrv := { s.hrv with l12 := b } } : State).dmcInit :=
      initStarts_dmcInit ({ s with tmb := k, hrv := { s.hrv with l12 := b } } : State)
    rw [dmcCtl_eq]
    dsimp only
    rw [if_pos b4]
    generalize ({ s with tmb := k, hrv := { s.hrv with l12 := b } } : State).dmcInit = w at hi ⊢
    have h1 : InitStarts s (if (v.toNat ||| 4) / 2 % 2 = 1 ∧ DMC_CTL_key.of (v.toNat ||| 4) = 0x5A3C then
        State.pcRetire (DMC_CTL_pc.of (v.toNat ||| 4)) true w else w) := by
      split
      · obtain ⟨i1, i2⟩ := State.pcRetire_init (DMC_CTL_pc.of (v.toNat ||| 4)) w
        exact hi.keep i1 i2 (rd_pcRetire_low _ _ (by decide) (by decide))
      · exact hi
    generalize (if (v.toNat ||| 4) / 2 % 2 = 1 ∧ DMC_CTL_key.of (v.toNat ||| 4) = 0x5A3C then
      State.pcRetire (DMC_CTL_pc.of (v.toNat ||| 4)) true w else w) = w1 at h1 ⊢
    split
    · obtain ⟨F, H, E, P, N, e, hr⟩ := hashApply_keeps w1
      exact h1.keep (by rw [e]) (by rw [e]) (hr _ (by decide))
    · exact h1
  · have v0 : v.toNat % 2 = 0 := by simpa using word_bit v 0 h0
    have v1 : v.toNat / 2 % 2 = 0 := by simpa using word_bit v 1 h1
    have hc : State.dmcCtl (v.toNat ||| 4) { s with tmb := k, hrv := { s.hrv with l12 := b } } = ({ s with tmb := k, hrv := { s.hrv with l12 := b } } : State).dmcInit := by
      rw [dmcCtl_eq]
      dsimp only
      rw [if_pos b4, if_neg (show ¬(v.toNat ||| 4) % 2 = 1 by omega)]
      exact if_neg fun x => absurd x.1 (by omega)
    rw [hc]
    obtain ⟨F, a, c, e, hr⟩ := dmcInit_keeps { s with tmb := k, hrv := { s.hrv with l12 := b } }
    generalize ({ s with tmb := k, hrv := { s.hrv with l12 := b } } : State).dmcInit = w at *
    refine ⟨hr, ?_⟩
    rw [e]
    exact sameRest_mk s _ _ _ _

/-! ### Its end -/

/-- A pseudo-channel that failed: marked, and a case of R285 without migration. -/
theorem State.linkFailed_eq {s : State} {p : Nat} (hn : p < s.nPc) (h1 : s.rd (DMC_PC_STAT_state p) ≤ 1) :
    s.linkFailed p = State.pcRetire p false ((s.wr (DMC_PC_STAT_link_fail p) 1).wr DMC_EVT_init_fail 1) := by
  rw [State.linkFailed]
  exact if_neg (by omega)

/-- The registers that mark a failed pseudo-channel. -/
theorem failMark_shows (p : Nat) (s : State) :
    SameChannels s ((s.wr (DMC_PC_STAT_link_fail p) 1).wr DMC_EVT_init_fail 1)
      ∧ ((s.wr (DMC_PC_STAT_link_fail p) 1).wr DMC_EVT_init_fail 1).rd (DMC_PC_STAT_link_fail p) = 1
      ∧ ((s.wr (DMC_PC_STAT_link_fail p) 1).wr DMC_EVT_init_fail 1).rd DMC_EVT_init_fail = 1 := by
  have hk : (DMC_PC_STAT_link_fail p).key = 8 * (0xC100C + 16 * p) + 29 := rfl
  have keep : ∀ f : Fld, f.key ≠ DMC_EVT_init_fail.key → f.key ≠ (DMC_PC_STAT_link_fail p).key →
      ((s.wr (DMC_PC_STAT_link_fail p) 1).wr DMC_EVT_init_fail 1).rd f = s.rd f := fun f h1 h2 => by
    rw [State.rd_wr_ne _ _ _ _ (Ne.symm h1), State.rd_wr_ne _ _ _ _ (Ne.symm h2)]
  have low : ∀ f : Fld, f.key < 8 * 0xC100C → f.key ≠ (DMC_PC_STAT_link_fail p).key := fun f hf => by omega
  refine ⟨⟨rfl, rfl, fun k => keep _ (DMC_PC_STAT_state_ne k (by decide)) ?_, keep _ (by decide) (low _ (by decide)), keep _ (by decide) (low _ (by decide)),
    keep _ (by decide) (low _ (by decide))⟩, ?_, ?_⟩
  · simp only [Fld.key, DMC_PC_STAT_state, DMC_PC_STAT_link_fail]
    omega
  · rw [State.rd_wr_ne _ _ _ _ (low _ (by decide)), State.rd_wr_same]
    rfl
  · rw [State.rd_wr_same]
    rfl

/-- A retirement without migration. -/
theorem State.pcRetire_empty {s : State} {p : Nat} (ha : s.pcActive p = true) (hl : s.pcGone < s.pcLimit) :
    State.pcRetire p false s = State.pcRetired p (State.migPlace p (s.pcEmpty p)) := by
  rw [State.pcRetire, if_neg (by simp [ha]), if_neg (show ¬(if s.isH2 then 2 else 4) ≤ s.pcGone from Nat.not_le.2 hl), if_neg (by decide)]

theorem linkFail_ne_retire (p : Nat) :
    (DMC_PC_STAT_link_fail p).key ∉ ([DMC_PC_STAT_state p, DMC_STAT_retired, DMC_EVT_retired] ++ limitFlds).map Fld.key := by
  simp only [limitFlds, bboxFlds, List.cons_append, List.nil_append, List.map_cons, List.map_nil, List.mem_cons, List.not_mem_nil, or_false, not_or, Fld.key,
    DMC_PC_STAT_state, DMC_PC_STAT_link_fail, DMC_STAT_ret_limit, DMC_EVT_ret_limit, BBX_STAT_count, BBX_HEAD_value, BBX_LOST_value, DMC_STAT_retired,
    DMC_EVT_retired]
  omega

/-- What is left of a pseudo-channel that failed the check of R282. -/
def LinkFailed (s : State) (p : Nat) (u : State) : Prop :=
  u.rd (DMC_PC_STAT_link_fail p) = 1 ∧ u.rd DMC_EVT_init_fail = 1
    ∧ (s.pcActive p = true → s.pcGone < s.pcLimit →
        u.rd (DMC_PC_STAT_state p) = 2 ∧ u.rd DMC_STAT_retired = (s.rd DMC_STAT_retired + 1) % 8 ∧ u.rd DMC_EVT_retired = 1
          ∧ bit (u.rd (DMC_RETIRED_bits (p / 32))) (p % 32) = true)
    ∧ (s.pcActive p = true → s.pcLimit ≤ s.pcGone →
        u.rd DMC_STAT_ret_limit = 1 ∧ u.rd DMC_EVT_ret_limit = 1 ∧ u.rd (DMC_PC_STAT_state p) = s.rd (DMC_PC_STAT_state p))

theorem linkFailed_shows {s : State} {p : Nat} (h128 : p < 128) (hn : p < s.nPc) (h1 : s.rd (DMC_PC_STAT_state p) ≤ 1) : LinkFailed s p (s.linkFailed p) := by
  rw [State.linkFailed_eq hn h1]
  obtain ⟨hc, m1, m2⟩ := failMark_shows p s
  generalize (s.wr (DMC_PC_STAT_link_fail p) 1).wr DMC_EVT_init_fail 1 = w at *
  have hne := linkFail_ne_retire p
  rw [List.map_append, List.mem_append, not_or] at hne
  have hb : (DMC_RETIRED_bits (p / 32)).key = 8 * (0xC0040 + 4 * (p / 32)) := rfl
  by_cases ha : s.pcActive p = true
  · have ha' : w.pcActive p = true := by rw [hc.active, ha]
    by_cases hl : s.pcLimit ≤ s.pcGone
    · obtain ⟨F, B, -, hr, r1, r2⟩ := State.retLimit_keeps p w
      rw [State.pcRetire_limit false ha' (by rw [hc.limit, hc.gone]; exact hl)]
      refine ⟨(hr _ hne.2).trans m1, (hr _ (by decide)).trans m2, fun _ x => absurd hl (Nat.not_le.2 x), fun _ _ => ⟨r1, r2, ?_⟩⟩
      exact (hr _ (state_ne_limit p)).trans (hc.state p)
    · rw [State.pcRetire_empty ha' (by rw [hc.limit, hc.gone]; exact Nat.not_le.1 hl)]
      obtain ⟨p1, p2, p3, p4, -, p6⟩ := pcRetired_shows h128 (State.migPlace p (w.pcEmpty p))
      have hrd : ∀ f, (State.migPlace p (w.pcEmpty p)).rd f = w.rd f := fun _ => rfl
      refine ⟨?_, ?_, fun _ _ => ⟨p1, ?_, p3, p4⟩, fun _ x => absurd x hl⟩
      · rw [p6 _ ?_, hrd, m1]
        simp only [List.map_cons, List.map_nil, List.mem_cons, List.not_mem_nil, or_false, not_or] at hne ⊢
        refine ⟨hne.1.1, ?_, hne.1.2⟩
        rw [hb]
        simp only [Fld.key, DMC_PC_STAT_link_fail]
        omega
      · rw [p6 _ ?_, hrd, m2]
        simp only [List.map_cons, List.map_nil, List.mem_cons, List.not_mem_nil, or_false, not_or]
        refine ⟨(DMC_PC_STAT_state_ne p (by decide)).symm, ?_, by decide, by decide⟩
        rw [hb]
        simp only [Fld.key, DMC_EVT_init_fail]
        omega
      · rw [p2, hrd, hc.retired]
  · rw [State.pcRetire_inactive false (by rw [hc.active]; simpa using ha)]
    exact ⟨m1, m2, fun x => absurd x ha, fun x => absurd x ha⟩

theorem State.dmcInitDone_eq {s : State} (fails : List Nat) (t : Nat) (h : s.dmc.initRun = true) :
    State.dmcInitDone fails t s = { (fails.foldl State.linkFailed (s.advance t)).wr DMC_STAT_init_done 1 with
      dmc := { (fails.foldl State.linkFailed (s.advance t)).dmc with initRun := false } } := by
  rw [State.dmcInitDone]
  exact if_neg (by rw [State.advance_dmc, h]; decide)

theorem dmcInitDone_fails {s : State} {t : Nat} (hp : Powered s) (hr : s.dmc.initRun = true) (pc : Fin 128) (hn : pc.val < s.nPc)
    (h1 : s.rd (DMC_PC_STAT_state pc.val) ≤ 1) : Answers (.dmcInitDone [pc] t) s fun u =>
      u.rd DMC_STAT_init_done = 1 ∧ u.dmc.initRun = false ∧ LinkFailed s pc.val u := by
  refine Answers.of_performOnAt (exec_dmcInitDone _ _ _) hp ?_
  obtain ⟨p, h128⟩ := pc
  dsimp only [List.map_cons, List.map_nil] at *
  rw [State.dmcInitDone_eq _ t hr, List.map_cons, List.map_nil, List.foldl_cons, List.foldl_nil]
  obtain ⟨k, hk, -⟩ := s.advance_moves t
  rw [hk]
  have hl : LinkFailed s p (({ s with tmb := k } : State).linkFailed p) := linkFailed_shows (s := { s with tmb := k }) h128 hn h1
  generalize ({ s with tmb := k } : State).linkFailed p = w at *
  have hb : (DMC_RETIRED_bits (p / 32)).key = 8 * (0xC0040 + 4 * (p / 32)) := rfl
  have keep : ∀ f : Fld, DMC_STAT_init_done.key ≠ f.key → ({ w.wr DMC_STAT_init_done 1 with dmc := { w.dmc with initRun := false } } : State).rd f = w.rd f :=
    fun f hf => by rw [State.rd_mk, State.rd_wr_ne _ _ _ _ hf]
  refine ⟨?_, rfl, ?_⟩
  · rw [State.rd_mk, State.rd_wr_same]
    rfl
  · rw [LinkFailed, keep _ ?_, keep _ (by decide), keep _ (DMC_PC_STAT_state_ne p (by decide)).symm, keep _ (by decide), keep _ (by decide), keep _ ?_,
      keep _ (by decide), keep _ (by decide)]
    · exact hl
    · rw [hb]
      simp only [Fld.key, DMC_STAT_init_done]
      omega
    · simp only [Fld.key, DMC_STAT_init_done, DMC_PC_STAT_link_fail]
      omega

theorem dmcInitDone_passes {s : State} {t : Nat} (hp : Powered s) (hr : s.dmc.initRun = true) : Answers (.dmcInitDone [] t) s fun u =>
    u.rd DMC_STAT_init_done = 1 ∧ u.dmc = { s.dmc with initRun := false } ∧ TimeAt s u t ∧ SameRegs s u [DMC_STAT_init_done]
      ∧ SameRest s { u with dmc := s.dmc } := by
  refine Answers.of_performOnAt (exec_dmcInitDone _ _ _) hp ?_
  rw [List.map_nil, State.dmcInitDone_eq _ t hr, List.foldl_nil]
  obtain ⟨k, hk, ht⟩ := s.advance_moves t
  rw [hk]
  refine ⟨?_, rfl, ht, fun f hf => ?_, sameRest_mk_hrv s _ _ _⟩
  · rw [State.rd_mk, State.rd_wr_same]
    rfl
  · rw [State.rd_mk, State.rd_wr_ne _ _ _ _ fun x => hf (by simp [x])]
    rfl

/-! ### The masks -/

/-- The masks that an application takes. -/
def newHash (s : State) : List Nat := (List.range 13).map fun n => if s.isH2 && n = 6 then s.dmc.hash.getD 6 0 else s.hashReg n

theorem newHash_getD (s : State) {n : Nat} (hn : n < 13) (h : s.isH2 = false ∨ n ≠ 6) : (newHash s).getD n 0 = s.hashReg n := by
  have hc : ¬((s.isH2 && decide (n = 6)) = true) := by
    rcases h with h | h <;> simp [h]
  rw [newHash, List.getD_eq_getElem?_getD, List.getElem?_map, List.getElem?_range hn]
  exact if_neg hc

theorem dmcCtl_applies (v : Word) (s : State) (h1 : v.getLsbD 1 = false) (h2 : v.getLsbD 2 = false) : State.dmcCtl (v.toNat ||| 1) s = s.hashApply := by
  have v1 : v.toNat / 2 % 2 = 0 := by simpa using word_bit v 1 h1
  have v2 : v.toNat / 4 % 2 = 0 := by simpa using word_bit v 2 h2
  obtain ⟨b4, b2, b1⟩ := applyBits v
  rw [dmcCtl_eq]
  dsimp only
  rw [if_pos b1, if_neg (show ¬(v.toNat ||| 1) / 4 % 2 = 1 by omega), if_neg fun x => absurd x.1 (by omega)]

theorem dmcApply_answers {s : State} {p : Port} (v : Word) (h : Reaches p DMC_CTL_init.addr s) (h1 : v.getLsbD 1 = false) (h2 : v.getLsbD 2 = false)
    {P : State → Prop} (hP : ∀ b q, P { ({ s with hrv := { s.hrv with l12 := b } } : State).hashApply with irqSeen := q }) : Answers (.dmcApply p v) s P := by
  refine Answers.of_perform (exec_dmcApply _ _ _) h.1 ?_
  obtain ⟨b, q, e⟩ := portWrite_dmc h (word_or_lt v (k := 0) (by decide))
  rw [show v.toNat ||| 1 = v.toNat ||| 2 ^ 0 from rfl, e, show v.toNat ||| 2 ^ 0 = v.toNat ||| 1 from rfl, dmcCtl_applies v _ h1 h2]
  exact hP b q

theorem hashApply_busy {s : State} (h : s.acqSt ≠ 0) : s.hashApply = s := by
  rw [State.hashApply]
  exact if_pos (by simpa [State.idle] using h)

theorem hashApply_bad {s : State} (h : s.acqSt = 0) (hb : (List.range 13).all s.hashOk = false) : s.hashApply = s.wr DMC_STAT_hash_bad 1 := by
  rw [State.hashApply, if_neg (by simp [State.idle, h])]
  exact if_pos (by rw [hb]; rfl)

theorem hashApply_takes {s : State} (h : s.acqSt = 0) (hb : (List.range 13).all s.hashOk = true) : s.hashApply =
    if newHash s = s.dmc.hash then s.wr DMC_STAT_hash_bad 0 else
      { s.wr DMC_STAT_hash_bad 0 with dmc := { s.dmc with hash := newHash s }, deep := ⟨some s.free, [], []⟩, dpoison := [], free := s.free + 1 } := by
  rw [State.hashApply, if_neg (by simp [State.idle, h]), if_neg (by rw [hb]; decide)]
  rfl

/-- Settles O36: the start and the end of an initialisation, and the application of the masks. -/
theorem deepInitAndHash : Obligations.DeepInitAndHash := by
  unfold Obligations.DeepInitAndHash
  refine ⟨fun s t => ⟨fun p v h => (dmcInit_answers v h).imp fun u ⟨ht, ⟨h1, h2⟩, h3⟩ => ⟨ht, h1, h2, h3⟩, fun hp hr => ⟨dmcInitDone_passes hp hr,
    fun pc hn h1 => (dmcInitDone_fails hp hr pc hn h1).imp fun u ⟨a, b, c, d, e, f⟩ => ⟨a, b, c, d, e, f⟩⟩⟩,
    fun s p v h h1 h2 => ⟨fun ha => dmcApply_answers v h h1 h2 fun b q => ?_, fun ha hb => dmcApply_answers v h h1 h2 fun b q => ?_,
      fun ha hb => dmcApply_answers v h h1 h2 fun b q => ?_⟩⟩
  · rw [hashApply_busy (s := { s with hrv := { s.hrv with l12 := b } }) ha]
    exact ⟨fun _ _ => rfl, sameRest_mk s _ _ _ _⟩
  · rw [hashApply_bad (s := { s with hrv := { s.hrv with l12 := b } }) ha hb]
    refine ⟨?_, fun f hf => ?_, sameRest_mk s _ _ _ _⟩
    · rw [State.rd_mk, State.rd_wr_same]
      rfl
    · rw [State.rd_mk, State.rd_wr_ne _ _ _ _ fun x => hf (by simp [x])]
      rfl
  · rw [hashApply_takes (s := { s with hrv := { s.hrv with l12 := b } }) ha hb]
    have hn : newHash { s with hrv := { s.hrv with l12 := b } } = newHash s := rfl
    have hg : ∀ n, n < 13 → s.isH2 = false ∨ n ≠ 6 → (newHash s).getD n 0 = s.hashReg n := fun n => newHash_getD s
    rw [hn]
    generalize newHash s = new at *
    have hw : ∀ d e f g, (({ ({ s with hrv := { s.hrv with l12 := b } } : State).wr DMC_STAT_hash_bad 0 with
        dmc := d, deep := e, dpoison := f, free := g, irqSeen := q } : State).rd DMC_STAT_hash_bad = 0)
        ∧ SameRegs s ({ ({ s with hrv := { s.hrv with l12 := b } } : State).wr DMC_STAT_hash_bad 0 with dmc := d, deep := e, dpoison := f, free := g, irqSeen := q })
          [DMC_STAT_hash_bad] := fun d e f g => by
      refine ⟨?_, fun x hx => ?_⟩
      · rw [State.rd_mk, State.rd_wr_same]
        rfl
      · rw [State.rd_mk, State.rd_wr_ne _ _ _ _ fun y => hx (by simp [y])]
        rfl
    split
    · next hs =>
      refine ⟨(hw s.dmc s.deep s.dpoison s.free).1, fun n hn h6 => ?_, fun x => absurd rfl x, fun _ => rfl, (hw s.dmc s.deep s.dpoison s.free).2,
        sameRest_mk s _ _ _ _⟩
      exact (congrArg (fun l => l.getD n 0) hs.symm).trans (hg n hn h6)
    · next hs =>
      exact ⟨(hw _ _ _ _).1, hg, fun _ => ⟨Option.some_ne_none _, rfl⟩, fun x => absurd x hs, (hw _ _ _ _).2, sameRest_mk s _ _ _ _⟩

end Sys2Proof
end

