-- ==== Sys2Proof/Proofs/RakeLeases.lean ====
section
/-! SUPPORT. The errors that a read of a memory meets, and the leases of Rake: the statement of O39. -/

namespace Sys2Proof

open Machine

/-! ### Errors that a read meets -/

/-- The registers of an uncorrectable read of near memory or the scratchpad. -/
def nearErrFlds : List Fld :=
  [NMC_UE_CNT_count, NMC_EVT_ue, NMC_ERR_ADDR_valid, NMC_ERR_ADDR_ue, NMC_ERR_ADDR_scratch, NMC_ERR_ADDR_tile, NMC_ERR_ADDR_word]

/-- The registers that the errors of a read write. -/
def errFlds : List Fld := [DMC_CE_CNT_count, DMC_EVT_ce, NMC_CE_CNT_count, NMC_EVT_ce] ++ nearErrFlds ++ uncorrFlds

/-- `u` is `s` after a read has met errors. -/
def MetErrors (s u : State) : Prop :=
  (∃ F B Y D P, u = { s with fields := F, bbx := B, dmc := { s.dmc with sym := Y }, dpoison := D, poison := P }) ∧ SameRegs s u errFlds

theorem MetErrors.refl (s : State) : MetErrors s s := ⟨⟨_, _, _, _, _, rfl⟩, fun _ _ => rfl⟩

theorem MetErrors.trans {s u w : State} (h : MetErrors s u) (g : MetErrors u w) : MetErrors s w := by
  obtain ⟨⟨F, B, Y, D, P, e⟩, r⟩ := h
  obtain ⟨⟨F', B', Y', D', P', e'⟩, r'⟩ := g
  exact ⟨⟨F', B', Y', D', P', by rw [e', e]⟩, fun f hf => (r' f hf).trans (r f hf)⟩

theorem MetErrors.fold {α : Type} (g : State → α → State) (h : ∀ s a, MetErrors s (g s a)) (l : List α) : ∀ s, MetErrors s (l.foldl g s) := by
  induction l with
  | nil => exact MetErrors.refl
  | cons a l ih => exact fun s => (h s a).trans (ih _)

theorem metErrors_deepUncorr (s : State) (a : Nat) : MetErrors s (s.deepUncorr a) := by
  obtain ⟨⟨F, B, D, e⟩, hr, -⟩ := s.deepUncorr_keeps a
  refine ⟨⟨F, B, s.dmc.sym, D, s.poison, e⟩, fun f hf => hr f fun x => hf ?_⟩
  rw [errFlds, List.map_append, List.mem_append]
  exact .inr x

theorem metErrors_deepCorrected (s : State) (a : Nat) : MetErrors s (s.deepCorrected a) := by
  rw [State.deepCorrected]
  refine ⟨⟨_, s.bbx, _, s.dpoison, s.poison, rfl⟩, fun f hf => ?_⟩
  simp only [errFlds, List.cons_append, List.map_cons, List.mem_cons, not_or] at hf
  rw [State.rd_mk, State.rd_wr_ne _ _ _ _ (Ne.symm hf.2.1), State.rd_addSat_ne _ _ (Ne.symm hf.1)]

theorem metErrors_nearCorrected (s : State) : MetErrors s s.nearCorrected := by
  rw [State.nearCorrected]
  refine ⟨⟨_, s.bbx, s.dmc.sym, s.dpoison, s.poison, rfl⟩, fun f hf => ?_⟩
  simp only [errFlds, List.cons_append, List.map_cons, List.mem_cons, not_or] at hf
  rw [State.rd_wr_ne _ _ _ _ (Ne.symm hf.2.2.2.1), State.rd_addSat_ne _ _ (Ne.symm hf.2.2.1)]

/-- The registers of an uncorrectable read of near memory or the scratchpad. -/
def nearErr (a b c : Nat) (s : State) : State :=
  ((((((s.addSat NMC_UE_CNT_count 1).wr NMC_EVT_ue 1).wr NMC_ERR_ADDR_valid 1).wr NMC_ERR_ADDR_ue 1).wr NMC_ERR_ADDR_scratch a).wr NMC_ERR_ADDR_tile b).wr
    NMC_ERR_ADDR_word c

/-- `u` differs from `s` in its registers only. -/
def OnlyFields (s u : State) : Prop := ∃ F, u = { s with fields := F }

theorem OnlyFields.refl (s : State) : OnlyFields s s := ⟨s.fields, rfl⟩

theorem OnlyFields.wr {s u : State} (h : OnlyFields s u) (f : Fld) (v : Nat) : OnlyFields s (u.wr f v) := by
  obtain ⟨F, rfl⟩ := h
  exact ⟨_, rfl⟩

theorem nearErr_moves (a b c : Nat) (s : State) : OnlyFields s (nearErr a b c s) :=
  (((((((OnlyFields.refl s).wr _ _).wr _ _).wr _ _).wr _ _).wr _ _).wr _ _).wr _ _

theorem rd_nearErr (a b c : Nat) (s : State) {f : Fld} (h : f.key ∉ nearErrFlds.map Fld.key) : (nearErr a b c s).rd f = s.rd f := by
  simp only [nearErrFlds, List.map_cons, List.map_nil, List.mem_cons, List.not_mem_nil, or_false, not_or] at h
  obtain ⟨f1, f2, f3, f4, f5, f6, f7⟩ := h
  rw [nearErr, State.rd_wr_ne _ _ _ _ (Ne.symm f7), State.rd_wr_ne _ _ _ _ (Ne.symm f6), State.rd_wr_ne _ _ _ _ (Ne.symm f5),
    State.rd_wr_ne _ _ _ _ (Ne.symm f4), State.rd_wr_ne _ _ _ _ (Ne.symm f3), State.rd_wr_ne _ _ _ _ (Ne.symm f2), State.rd_addSat_ne _ _ (Ne.symm f1)]

/-- What is none of the registers of errors is none of those of near memory. -/
theorem errFlds_near {f : Fld} (h : f.key ∉ errFlds.map Fld.key) : f.key ∉ nearErrFlds.map Fld.key := fun x =>
  h (by rw [errFlds, List.map_append, List.map_append, List.mem_append, List.mem_append]; exact .inl (.inr x))

theorem nearErr_bbox (a b c x y z : Nat) (s : State) (p : List Nat → List Nat) :
    MetErrors s { (nearErr a b c s).bbox x y z with poison := p ((nearErr a b c s).bbox x y z).poison } := by
  obtain ⟨F, hF⟩ := nearErr_moves a b c s
  have hr : ∀ f : Fld, f.key ∉ errFlds.map Fld.key → (nearErr a b c s).rd f = s.rd f := fun f hf => rd_nearErr a b c s (errFlds_near hf)
  generalize nearErr a b c s = w at *
  obtain ⟨G, B, e⟩ := w.bbox_moves x y z
  refine ⟨⟨G, B, s.dmc.sym, s.dpoison, p s.poison, by rw [e, hF]⟩, fun f hf => ?_⟩
  rw [State.rd_mk, State.rd_bbox _ _ _ _ fun x => hf ?_, hr f hf]
  have hx : f.key ∈ uncorrFlds.map Fld.key := by
    rw [uncorrFlds, List.map_append, List.mem_append]
    exact .inr x
  rw [errFlds, List.map_append, List.mem_append]
  exact .inr hx

theorem metErrors_nearUncorr (s : State) (a : Nat) : MetErrors s (s.nearUncorr a) := nearErr_bbox 0 _ _ _ _ _ s (insSet (a / 64 * 64))

theorem metErrors_scrUncorr (s : State) (a : Nat) : MetErrors s (s.scrUncorr a) := by
  exact nearErr_bbox 1 0 (a / 4) 0x40 0x10 (a / 4) s id

theorem metErrors_cellRead (s : State) (target a n : Nat) : MetErrors s (s.cellRead target a n) := by
  rw [State.cellRead]
  split
  · exact MetErrors.refl s
  · refine MetErrors.fold _ (fun s w => ?_) _ s
    split
    · exact metErrors_nearCorrected s
    · split
      · exact metErrors_scrUncorr s w
      · exact metErrors_nearUncorr s w

theorem cellRead_none {s : State} (h : s.cells = []) (target a n : Nat) : s.cellRead target a n = s := by
  rw [State.cellRead, h]
  rfl

/-! ### Grants and activations of deep memory -/

theorem granted_eq (w : Nat) (s : State) : State.granted w s = lateMet (if 2 * usF < w then 1 else 0) s := by
  rw [State.granted, lateMet]
  split
  · rfl
  · rfl

theorem activates_keeps (n : Nat) (s : State) : (∃ F N, s.activates n = { s with fields := F, free := N }) ∧ SameRegs s (s.activates n) [DMC_RDP_CNT_count] := by
  rw [State.activates]
  generalize (if s.on DMC_RDP_dist2 then 4 else 2) * ((List.range n).filter _).length = k
  refine ⟨⟨_, _, rfl⟩, fun f hf => ?_⟩
  rw [State.rd_mk]
  exact State.rd_wr_ne _ _ _ _ fun x => hf (by simp [x])

/-! ### What Rake shows -/

/-- The registers that show the leases. -/
def leaseFlds : List Fld := [RAK_STAT_lease, RAK_STAT_busy]

theorem rakeShow_keeps (s : State) : OnlyFields s s.rakeShow ∧ SameRegs s s.rakeShow leaseFlds := by
  rw [State.rakeShow]
  generalize (packBits 3 fun k => s.rak.leases.any fun l => l.target = k) = m
  refine ⟨((OnlyFields.refl s).wr _ _).wr _ _, fun f hf => ?_⟩
  simp only [leaseFlds, List.map_cons, List.map_nil, List.mem_cons, List.not_mem_nil, or_false, not_or] at hf
  rw [State.rd_wr_ne _ _ _ _ (Ne.symm hf.2), State.rd_wr_ne _ _ _ _ (Ne.symm hf.1)]

/-- The registers that a failing cell writes. -/
def rakeFailFlds : List Fld :=
  [RAK_FAIL_CNT_count, RAK_FAIL_ADDR_LO_offset, RAK_FAIL_ADDR_HI_valid, RAK_FAIL_ADDR_HI_target, RAK_FAIL_ADDR_HI_pc, RAK_FAIL_ADDR_HI_bit, RAK_EVT_fail,
    NMC_EVT_rake_fail] ++ bboxFlds

/-- The registers of a failing cell, before its black-box entry. -/
def failShown (l : Lease) (f : Nat × Nat) (s : State) : State :=
  ((((((s.bump RAK_FAIL_CNT_count).wr RAK_FAIL_ADDR_LO_offset (l.addr + f.1 % l.len)).wr RAK_FAIL_ADDR_HI_valid 1).wr RAK_FAIL_ADDR_HI_target l.target).wr
    RAK_FAIL_ADDR_HI_pc l.pc).wr RAK_FAIL_ADDR_HI_bit f.2).wr RAK_EVT_fail 1

/-- What a failing cell of a lease leaves. -/
def CellFails (l : Lease) (s u : State) : Prop :=
  (∃ F B C, u = { s with fields := F, bbx := B, cells := C }) ∧ SameRegs s u rakeFailFlds
    ∧ u.rd RAK_FAIL_CNT_count = (s.rd RAK_FAIL_CNT_count + 1) % 2 ^ 32 ∧ u.rd RAK_EVT_fail = 1 ∧ u.rd RAK_FAIL_ADDR_HI_valid = 1
    ∧ u.rd RAK_FAIL_ADDR_HI_target = l.target % 4

theorem failShown_shows (l : Lease) (f : Nat × Nat) (s : State) : OnlyFields s (failShown l f s) ∧ SameRegs s (failShown l f s) rakeFailFlds
    ∧ (failShown l f s).rd RAK_FAIL_CNT_count = (s.rd RAK_FAIL_CNT_count + 1) % 2 ^ 32 ∧ (failShown l f s).rd RAK_EVT_fail = 1
    ∧ (failShown l f s).rd RAK_FAIL_ADDR_HI_valid = 1 ∧ (failShown l f s).rd RAK_FAIL_ADDR_HI_target = l.target % 4 := by
  rw [failShown]
  refine ⟨((((((((OnlyFields.refl s).wr _ _).wr _ _).wr _ _).wr _ _).wr _ _).wr _ _).wr _ _), fun g hg => ?_, ?_, ?_, ?_, ?_⟩
  · simp only [rakeFailFlds, List.cons_append, List.map_cons, List.mem_cons, not_or] at hg
    obtain ⟨f1, f2, f3, f4, f5, f6, f7, -⟩ := hg
    rw [State.rd_wr_ne _ _ _ _ (Ne.symm f7), State.rd_wr_ne _ _ _ _ (Ne.symm f6), State.rd_wr_ne _ _ _ _ (Ne.symm f5), State.rd_wr_ne _ _ _ _ (Ne.symm f4),
      State.rd_wr_ne _ _ _ _ (Ne.symm f3), State.rd_wr_ne _ _ _ _ (Ne.symm f2), rd_bump_ne _ (Ne.symm f1)]
  · rw [State.rd_wr_ne _ _ _ _ (by decide), State.rd_wr_ne _ _ _ _ (by decide), State.rd_wr_ne _ _ _ _ (by decide), State.rd_wr_ne _ _ _ _ (by decide),
      State.rd_wr_ne _ _ _ _ (by decide), State.rd_wr_ne _ _ _ _ (by decide), rd_bump]
    rfl
  · rw [State.rd_wr_same]
    rfl
  · rw [State.rd_wr_ne _ _ _ _ (by decide), State.rd_wr_ne _ _ _ _ (by decide), State.rd_wr_ne _ _ _ _ (by decide), State.rd_wr_ne _ _ _ _ (by decide),
      State.rd_wr_same]
    rfl
  · rw [State.rd_wr_ne _ _ _ _ (by decide), State.rd_wr_ne _ _ _ _ (by decide), State.rd_wr_ne _ _ _ _ (by decide), State.rd_wr_same]
    rfl

theorem rakeFail_shows (l : Lease) (s : State) (f : Nat × Nat) : CellFails l s (State.rakeFail l s f) := by
  have e : State.rakeFail l s f = if l.target = 1 then (failShown l f s).bbox 0x43 l.target (l.addr + f.1 % l.len) else
      { ((failShown l f s).bbox 0x43 l.target (l.addr + f.1 % l.len)).wr NMC_EVT_rake_fail 1 with cells := (State.rakeFail l s f).cells } := by
    by_cases h : l.target = 1
    · rw [if_pos h, State.rakeFail]
      exact if_pos h
    · rw [if_neg h, State.rakeFail]
      exact (if_neg h).trans (by rw [if_neg h]; rfl)
  obtain ⟨⟨F, hF⟩, h1, h2, h3, h4, h5⟩ := failShown_shows l f s
  rw [e]
  generalize failShown l f s = w at *
  obtain ⟨G, B, hG⟩ := w.bbox_moves 0x43 l.target (l.addr + f.1 % l.len)
  have hb : ∀ g : Fld, g.key ∉ bboxFlds.map Fld.key → (w.bbox 0x43 l.target (l.addr + f.1 % l.len)).rd g = w.rd g := fun g => State.rd_bbox w _ _ _
  generalize w.bbox 0x43 l.target (l.addr + f.1 % l.len) = v at *
  have hv : CellFails l s v := by
    refine ⟨⟨G, B, s.cells, by rw [hG, hF]⟩, fun g hg => ?_, (hb _ (by decide)).trans h2, (hb _ (by decide)).trans h3, (hb _ (by decide)).trans h4,
      (hb _ (by decide)).trans h5⟩
    rw [hb g fun x => hg ?_, h1 g hg]
    rw [rakeFailFlds, List.map_append, List.mem_append]
    exact .inr x
  split
  · exact hv
  · obtain ⟨⟨H, B', C, hH⟩, v1, v2, v3, v4, v5⟩ := hv
    have hn : ∀ g : Fld, NMC_EVT_rake_fail.key ≠ g.key → ({ v.wr NMC_EVT_rake_fail 1 with cells := (State.rakeFail l s f).cells } : State).rd g = v.rd g :=
      fun g hg => by rw [State.rd_mk, State.rd_wr_ne _ _ _ _ hg]
    refine ⟨⟨_, B', _, by rw [hH]; rfl⟩, fun g hg => (hn g fun x => hg ?_).trans (v1 g hg), (hn _ (by decide)).trans v2, (hn _ (by decide)).trans v3,
      (hn _ (by decide)).trans v4, (hn _ (by decide)).trans v5⟩
    rw [← x]
    decide

/-- The failing cells of a lease. -/
theorem rakeFails_shows (l : Lease) (fs : List (Nat × Nat)) : ∀ s : State, (∃ F B C, fs.foldl (State.rakeFail l) s = { s with fields := F, bbx := B, cells := C })
    ∧ SameRegs s (fs.foldl (State.rakeFail l) s) rakeFailFlds
    ∧ (fs ≠ [] → (fs.foldl (State.rakeFail l) s).rd RAK_FAIL_CNT_count = (s.rd RAK_FAIL_CNT_count + fs.length) % 2 ^ 32
        ∧ (fs.foldl (State.rakeFail l) s).rd RAK_EVT_fail = 1 ∧ (fs.foldl (State.rakeFail l) s).rd RAK_FAIL_ADDR_HI_valid = 1
        ∧ (fs.foldl (State.rakeFail l) s).rd RAK_FAIL_ADDR_HI_target = l.target % 4) := by
  induction fs with
  | nil => exact fun s => ⟨⟨_, _, _, rfl⟩, fun _ _ => rfl, fun h => absurd rfl h⟩
  | cons f fs ih =>
    intro s
    rw [List.foldl_cons]
    obtain ⟨⟨F, B, C, e⟩, r, c1, c2, c3, c4⟩ := rakeFail_shows l s f
    generalize State.rakeFail l s f = w at *
    rcases hfs : fs with _ | ⟨g, gs⟩
    · exact ⟨⟨F, B, C, e⟩, r, fun _ => ⟨c1, c2, c3, c4⟩⟩
    · rw [← hfs]
      obtain ⟨⟨F', B', C', e'⟩, r', h'⟩ := ih w
      obtain ⟨d1, d2, d3, d4⟩ := h' (by rw [hfs]; exact List.cons_ne_nil _ _)
      refine ⟨⟨F', B', C', by rw [e', e]⟩, fun x hx => (r' x hx).trans (r x hx), fun _ => ⟨?_, d2, d3, d4⟩⟩
      rw [d1, c1, List.length_cons, Nat.mod_add_mod, Nat.add_assoc, Nat.add_comm 1]

/-! ### The copy of a region -/

/-- The registers of a grant of deep memory. -/
def grantFlds (w : Nat) : List Fld := DMC_RDP_CNT_count :: (if 2 * usF < w then [DMC_STARVE_count, DMC_EVT_starve] else [])

/-- A grant of deep memory with its activations. -/
theorem grant_shows (w n : Nat) (s : State) : (∃ F N, (State.granted w s).activates n = { s with fields := F, free := N })
    ∧ SameRegs s ((State.granted w s).activates n) (grantFlds w)
    ∧ (2 * usF < w → ((State.granted w s).activates n).rd DMC_STARVE_count = min (s.rd DMC_STARVE_count + 1) (2 ^ 32 - 1)
        ∧ ((State.granted w s).activates n).rd DMC_EVT_starve = 1) := by
  obtain ⟨⟨F, e⟩, r, c⟩ := lateMet_keeps (if 2 * usF < w then 1 else 0) s
  rw [granted_eq, grantFlds]
  generalize hl : lateMet (if 2 * usF < w then 1 else 0) s = v at *
  obtain ⟨⟨G, N, e'⟩, r'⟩ := activates_keeps n v
  generalize v.activates n = u at *
  by_cases h : 2 * usF < w
  · rw [if_pos h] at c r
    refine ⟨⟨G, N, by rw [e', e]⟩, fun f hf => ?_, fun _ => ⟨?_, ?_⟩⟩
    · rw [if_pos h, List.map_cons, List.mem_cons, not_or] at hf
      exact (r' f fun x => hf.1 (by simpa using x)).trans (r f (by exact hf.2))
    · rw [r' _ (by decide)]
      exact (c (by decide)).1
    · rw [r' _ (by decide)]
      exact (c (by decide)).2
  · rw [if_neg h] at r
    refine ⟨⟨G, N, by rw [e', e]⟩, fun f hf => ?_, fun x => absurd x h⟩
    rw [if_neg h, List.map_cons, List.mem_cons, not_or] at hf
    exact (r' f fun x => hf.1 (by simpa using x)).trans (r f List.not_mem_nil)

/-- What the copy of a leased region leaves. -/
def Copied (l : Lease) (q : Leased) (s u : State) : Prop :=
  (∃ F B Y D P N, u = { s with fields := F, bbx := B, dmc := { s.dmc with sym := Y }, dpoison := D, poison := P, free := N })
    ∧ SameRegs s u ([DMC_RDP_CNT_count, DMC_STARVE_count, DMC_EVT_starve] ++ errFlds)
    ∧ (l.target = 1 → 2 * usF < q.wait → u.rd DMC_STARVE_count = min (s.rd DMC_STARVE_count + 1) (2 ^ 32 - 1) ∧ u.rd DMC_EVT_starve = 1)
    ∧ (q.corr = [] → q.uncorr = [] → s.cells = [] → (∃ F N, u = { s with fields := F, free := N }) ∧ SameRegs s u (if l.target = 1 then grantFlds q.wait else []))

theorem grantFlds_sub {w : Nat} {f : Fld} (h : f.key ∉ [DMC_RDP_CNT_count, DMC_STARVE_count, DMC_EVT_starve].map Fld.key) : f.key ∉ (grantFlds w).map Fld.key := by
  rw [grantFlds]
  split
  · exact h
  · exact fun x => h (List.mem_cons.2 (.inl (by simpa using x)))

theorem rakeCopy_deep {l : Lease} (q : Leased) (s : State) (h : l.target = 1) : Copied l q s (State.rakeCopy l q s) := by
  rw [State.rakeCopy, if_pos h]
  obtain ⟨⟨F, N, e⟩, r, c⟩ := grant_shows q.wait 1 s
  generalize (State.granted q.wait s).activates 1 = g at *
  dsimp only
  generalize (fun a => decide (a < s.deepSize) && decide (s.pcOf a = l.pc) && decide (l.addr ≤ s.devOfs a) && decide (s.devOfs a < l.addr + l.len)) = mine
  have h1 : MetErrors g ((q.corr.filter mine).foldl State.deepCorrected g) := MetErrors.fold _ metErrors_deepCorrected _ _
  have h2 : MetErrors g ((q.uncorr.filter mine).foldl State.deepUncorr ((q.corr.filter mine).foldl State.deepCorrected g)) :=
    h1.trans (MetErrors.fold _ metErrors_deepUncorr _ _)
  have h3 : q.corr = [] → q.uncorr = [] → (q.uncorr.filter mine).foldl State.deepUncorr ((q.corr.filter mine).foldl State.deepCorrected g) = g :=
    fun a b => by rw [a, b]; rfl
  generalize (q.uncorr.filter mine).foldl State.deepUncorr ((q.corr.filter mine).foldl State.deepCorrected g) = u at *
  obtain ⟨⟨G, B, Y, D, P, e'⟩, r'⟩ := h2
  refine ⟨⟨G, B, Y, D, P, N, by rw [e', e]⟩, fun f hf => ?_, fun _ hw => ?_, fun a b _ => ⟨⟨F, N, (h3 a b).trans e⟩, ?_⟩⟩
  · rw [List.map_append, List.mem_append, not_or] at hf
    exact (r' f hf.2).trans (r f (grantFlds_sub hf.1))
  · rw [r' _ (by decide), r' _ (by decide)]
    exact c hw
  · rw [h3 a b, if_pos h]
    exact r

theorem rakeCopy_near {l : Lease} (q : Leased) (s : State) (h : l.target ≠ 1) : Copied l q s (State.rakeCopy l q s) := by
  rw [State.rakeCopy, if_neg h]
  dsimp only
  have h0 := metErrors_cellRead s l.target l.addr l.len
  have h1 : MetErrors s ((q.corr.filter fun o => decide (o < l.len)).foldl (fun s _ => s.nearCorrected) (s.cellRead l.target l.addr l.len)) :=
    h0.trans (MetErrors.fold _ (fun s _ => metErrors_nearCorrected s) _ _)
  have hstep : ∀ (s : State) (o : Nat), MetErrors s (if l.target = 2 then s.scrUncorr (l.addr + o) else s.nearUncorr (l.addr + o)) := fun s o => by
    split
    · exact metErrors_scrUncorr s _
    · exact metErrors_nearUncorr s _
  have h2 := h1.trans (MetErrors.fold _ hstep (q.uncorr.filter fun o => decide (o < l.len)) _)
  obtain ⟨⟨G, B, Y, D, P, e⟩, r⟩ := h2
  refine ⟨⟨G, B, Y, D, P, s.free, e⟩, fun f hf => ?_, fun x => absurd x h, fun a b c => ?_⟩
  · rw [List.map_append, List.mem_append, not_or] at hf
    exact r f hf.2
  · rw [a, b, cellRead_none c, if_neg h]
    exact ⟨⟨s.fields, s.free, rfl⟩, fun _ _ => rfl⟩

theorem rakeCopy_shows (l : Lease) (q : Leased) (s : State) : Copied l q s (State.rakeCopy l q s) := by
  by_cases h : l.target = 1
  · exact rakeCopy_deep q s h
  · exact rakeCopy_near q s h

/-! ### A lease -/

/-- The region that Rake takes next, and what that makes of the sweep (R294). -/
def rakeNext (target : Nat) (s : State) : Nat × Rak :=
  let i := (look s.rak.nextAt target).getD 0
  let grain := if i = 0 ∧ target = 1 then s.rd DMC_ILV_GRAIN_grain else s.rak.grain
  if i < s.rakeRegions target then (i, { s.rak with nextAt := ins s.rak.nextAt target (i + 1), grain := grain })
  else match s.rak.again.find? (fun x => x.1 = target) with
    | some x => (x.2, { s.rak with again := s.rak.again.erase x })
    | none => (0, { s.rak with nextAt := ins s.rak.nextAt target 1, grain := s.rd DMC_ILV_GRAIN_grain })

/-- The lease of the region that is next. -/
def nextLease (target : Nat) (s : State) : Lease :=
  let g := s.rakeRegion target (rakeNext target s).2.grain (rakeNext target s).1
  ⟨target, (rakeNext target s).1, g.1, g.2.1, g.2.2, s.rd RAK_CTL_algo⟩

/-- Rake's own state with the lease taken. -/
def leasedRak (target t : Nat) (s : State) : Rak :=
  let k := (rakeNext target s).2
  let d := ins k.due target (t + s.rakeTime target (s.rd RAK_CTL_algo) (nextLease target s).len)
  { k with leases := nextLease target s :: k.leases, due := d }

/-- Rake with the lease taken. -/
def leased (target t : Nat) (s : State) : State := State.rakeShow { s with rak := leasedRak target t s }

theorem rakeLease_eq {s : State} {target t : Nat} (q : Leased) (hr : s.rakeRuns target = true) (hd : (look s.rak.due target).getD 0 ≤ t) :
    State.rakeLease target q t s = q.fails.foldl (State.rakeFail (nextLease target (s.advance t)))
      (State.rakeCopy (nextLease target (s.advance t)) q (leased target t (s.advance t))) := by
  obtain ⟨k, hk, -⟩ := s.advance_moves t
  have hr' : ({ s with tmb := k } : State).rakeRuns target = true := hr
  have hd' : ¬t < (look ({ s with tmb := k } : State).rak.due target).getD 0 := Nat.not_lt.2 hd
  rw [State.rakeLease, hk]
  generalize ({ s with tmb := k } : State) = w at *
  rw [if_neg (by rw [hr']; simpa using hd')]
  rw [nextLease, leased, leasedRak, nextLease, rakeNext]
  by_cases hi : (look w.rak.nextAt target).getD 0 < w.rakeRegions target
  · simp only [if_pos hi]
  · simp only [if_neg hi]
    generalize List.find? (fun x => decide (x.1 = target)) w.rak.again = o
    cases o with
    | none => rfl
    | some x => rfl

/-- The sweep goes on: the order's next region, or the first that was put back. -/
theorem rakeNext_leases (target : Nat) (s : State) : (rakeNext target s).2.leases = s.rak.leases := by
  rw [rakeNext]
  dsimp only
  split
  · rfl
  · split <;> rfl

theorem rakeNext_next {target : Nat} {s : State} (h : (look s.rak.nextAt target).getD 0 < s.rakeRegions target) :
    (rakeNext target s).1 = (look s.rak.nextAt target).getD 0
      ∧ look (rakeNext target s).2.nextAt target = some ((look s.rak.nextAt target).getD 0 + 1) := by
  rw [rakeNext]
  dsimp only
  rw [if_pos h]
  exact ⟨rfl, look_ins_same _ _ _⟩

theorem rakeNext_again {target : Nat} {s : State} {x : Nat × Nat} (h : s.rakeRegions target ≤ (look s.rak.nextAt target).getD 0)
    (hx : s.rak.again.find? (fun x => x.1 = target) = some x) : (rakeNext target s).1 = x.2 ∧ (rakeNext target s).2.again = s.rak.again.erase x := by
  rw [rakeNext]
  dsimp only
  rw [if_neg (Nat.not_lt.2 h), hx]
  exact ⟨rfl, rfl⟩

theorem leased_shows (target t : Nat) (s : State) :
    (∃ F b, leased target t (s.advance t) = { s with fields := F, tmb := b, rak := (leased target t (s.advance t)).rak } ∧ b.kt = max s.tmb.kt t)
      ∧ SameRegs s (leased target t (s.advance t)) leaseFlds
      ∧ (leased target t (s.advance t)).rak.leases = nextLease target s :: s.rak.leases
      ∧ (leased target t (s.advance t)).rak.grain = (rakeNext target s).2.grain
      ∧ (leased target t (s.advance t)).rak.nextAt = (rakeNext target s).2.nextAt ∧ (leased target t (s.advance t)).rak.again = (rakeNext target s).2.again := by
  obtain ⟨k, hk, ht⟩ := s.advance_moves t
  have hR : leasedRak target t (s.advance t) = leasedRak target t s := by rw [hk]; rfl
  have hl : (leasedRak target t s).leases = nextLease target s :: s.rak.leases := congrArg (_ :: ·) (rakeNext_leases target s)
  have hg : (leasedRak target t s).grain = (rakeNext target s).2.grain ∧ (leasedRak target t s).nextAt = (rakeNext target s).2.nextAt
    ∧ (leasedRak target t s).again = (rakeNext target s).2.again := ⟨rfl, rfl, rfl⟩
  rw [leased, hR, hk]
  generalize leasedRak target t s = R at *
  obtain ⟨⟨F, e⟩, hr⟩ := rakeShow_keeps { s with tmb := k, rak := R }
  rw [e] at hr ⊢
  exact ⟨⟨F, k, rfl, ht⟩, hr, hl, hg⟩

theorem rakeLease_answers {s : State} {t : Nat} (hp : Powered s) (target : Fin 3) (q : Leased) (hr : s.rakeRuns target.val = true)
    (hd : (look s.rak.due target.val).getD 0 ≤ t) : Answers (.rakeLease target q t) s fun u =>
      u.rak.leases = nextLease target.val s :: s.rak.leases ∧ u.rak.grain = (rakeNext target.val s).2.grain
        ∧ u.rak.nextAt = (rakeNext target.val s).2.nextAt ∧ u.rak.again = (rakeNext target.val s).2.again
        ∧ (q.fails ≠ [] → u.rd RAK_FAIL_CNT_count = (s.rd RAK_FAIL_CNT_count + q.fails.length) % 2 ^ 32 ∧ u.rd RAK_EVT_fail % 2 = 1
            ∧ u.rd RAK_FAIL_ADDR_HI_valid = 1 ∧ u.rd RAK_FAIL_ADDR_HI_target = target.val)
        ∧ (target.val = 1 → 2 * usF < q.wait → u.rd DMC_STARVE_count = min (s.rd DMC_STARVE_count + 1) (2 ^ 32 - 1) ∧ u.rd DMC_EVT_starve = 1)
        ∧ (q.fails = [] → q.corr = [] → q.uncorr = [] → s.cells = [] →
            SameRegs s u ([RAK_STAT_lease, RAK_STAT_busy] ++ if target.val = 1 then grantFlds q.wait else []) ∧ SameRest s { u with rak := s.rak, free := s.free })
        ∧ u.near = s.near ∧ u.deep = s.deep ∧ u.scr = s.scr ∧ TimeAt s u t := by
  refine Answers.of_performOnAt (exec_rakeLease _ _ _ _) hp ?_
  obtain ⟨target, h3⟩ := target
  dsimp only at *
  rw [rakeLease_eq q hr hd]
  have hl : nextLease target (s.advance t) = nextLease target s := by
    obtain ⟨k, hk, -⟩ := s.advance_moves t
    rw [hk]
    rfl
  have htgt : (nextLease target s).target = target := rfl
  obtain ⟨⟨F, b, e, hkt⟩, r, l1, l2, l3, l4⟩ := leased_shows target t s
  rw [hl]
  generalize nextLease target s = l at *
  generalize leased target t (s.advance t) = w at *
  obtain ⟨⟨F1, B1, Y1, D1, P1, N1, e1⟩, r1, c1, q1⟩ := rakeCopy_shows l q w
  generalize State.rakeCopy l q w = v at *
  obtain ⟨⟨F2, B2, C2, e2⟩, r2, c2⟩ := rakeFails_shows l q.fails v
  have hq : q.fails = [] → q.fails.foldl (State.rakeFail l) v = v := fun h => by rw [h]; rfl
  generalize q.fails.foldl (State.rakeFail l) v = u at *
  have hrak : u.rak = w.rak := by rw [e2, e1]
  rw [hrak]
  refine ⟨l1, l2, l3, l4, fun hf => ?_, fun h1 hw => ?_, fun hf hc hu hs => ⟨fun f hf' => ?_, ?_⟩, by rw [e2, e1, e], by rw [e2, e1, e], by rw [e2, e1, e],
    by rw [e2, e1, e]; exact hkt⟩
  · obtain ⟨f1, f2, f3, f4⟩ := c2 hf
    refine ⟨?_, by rw [f2], f3, ?_⟩
    · rw [f1, r1 _ (by decide), r _ (by decide)]
    · rw [f4, htgt]
      omega
  · rw [r2 _ (by decide), r2 _ (by decide), ← r DMC_STARVE_count (by decide)]
    exact c1 (htgt.trans h1) hw
  · obtain ⟨-, r3⟩ := q1 hc hu (by rw [e]; exact hs)
    rw [htgt] at r3
    rw [List.map_append, List.mem_append, not_or] at hf'
    rw [hq hf, r3 f hf'.2, r f hf'.1]
  · obtain ⟨⟨F3, N3, e3⟩, -⟩ := q1 hc hu (by rw [e]; exact hs)
    rw [hq hf, e3, e]
    exact sameRest_mk_hrv s _ _ _

/-! ### Release and pre-emption -/

/-- Rake with the leases of a memory given up. -/
def unleased (target : Nat) (s : State) : State :=
  State.rakeShow { s with rak := { s.rak with leases := s.rak.leases.filter fun l => decide (l.target ≠ target) } }

theorem unleased_shows (target t : Nat) (s : State) :
    (∃ F b, unleased target (s.advance t)
        = { s with fields := F, tmb := b, rak := { s.rak with leases := s.rak.leases.filter fun l => decide (l.target ≠ target) } } ∧ b.kt = max s.tmb.kt t)
      ∧ SameRegs s (unleased target (s.advance t)) leaseFlds := by
  obtain ⟨k, hk, ht⟩ := s.advance_moves t
  rw [unleased, hk]
  dsimp only
  generalize ({ s.rak with leases := s.rak.leases.filter fun l => decide (l.target ≠ target) } : Rak) = R
  obtain ⟨⟨F, e⟩, hr⟩ := rakeShow_keeps { s with tmb := k, rak := R }
  rw [e] at hr ⊢
  exact ⟨⟨F, k, rfl, ht⟩, hr⟩

/-- The count of a memory's sweeps. -/
def passFld (target : Nat) : Fld := if target = 0 then RAK_PASS_NEAR_count else if target = 1 then RAK_PASS_DEEP_count else RAK_PASS_SCR_count

theorem passFld_cases (target : Nat) : passFld target = RAK_PASS_NEAR_count ∨ passFld target = RAK_PASS_DEEP_count ∨ passFld target = RAK_PASS_SCR_count := by
  rw [passFld]
  split
  · exact .inl rfl
  · split
    · exact .inr (.inl rfl)
    · exact .inr (.inr rfl)

theorem passFld_facts (target : Nat) : (passFld target).w = 32 ∧ (passFld target).key ≠ RAK_EVT_sweep_done.key ∧ (passFld target).key ∉ leaseFlds.map Fld.key := by
  rcases passFld_cases target with h | h | h <;> rw [h] <;> decide

theorem rakeRelease_eq {s : State} {target : Nat} (t : Nat) (h : s.rak.leases.any (fun l => l.target = target) = true) :
    State.rakeRelease target t s =
      if (look s.rak.nextAt target).getD 0 < (unleased target (s.advance t)).rakeRegions target ∨ s.rak.again.any (fun x => x.1 = target) then
        unleased target (s.advance t)
      else (({ unleased target (s.advance t) with rak := { (unleased target (s.advance t)).rak with
        nextAt := del (unleased target (s.advance t)).rak.nextAt target } } : State).bump (passFld target)).wr RAK_EVT_sweep_done 1 := by
  obtain ⟨k, hk, -⟩ := s.advance_moves t
  rw [State.rakeRelease, hk]
  exact if_neg (by simpa using h)

theorem unleased_regions (s : State) (target t : Nat) : (unleased target (s.advance t)).rakeRegions target = s.rakeRegions target := by
  obtain ⟨⟨F, b, e, -⟩, r⟩ := unleased_shows target t s
  have hn : (unleased target (s.advance t)).nPc = s.nPc := by rw [e]; rfl
  have hs : (unleased target (s.advance t)).pcsInService = s.pcsInService := by
    rw [State.pcsInService, State.pcsInService, hn]
    refine List.filter_congr fun p _ => ?_
    rw [r _ ?_]
    simp only [leaseFlds, List.map_cons, List.map_nil, List.mem_cons, List.not_mem_nil, or_false, not_or, Fld.key, DMC_PC_STAT_state, RAK_STAT_lease,
      RAK_STAT_busy]
    omega
  rw [State.rakeRegions, State.rakeRegions, hs]

theorem rakeRelease_more {s : State} {t : Nat} (target : Fin 3) (h : s.rak.leases.any (fun l => l.target = target.val) = true)
    (hm : (look s.rak.nextAt target.val).getD 0 < s.rakeRegions target.val ∨ s.rak.again.any (fun x => x.1 = target.val) = true) :
    State.rakeRelease target.val t s = unleased target.val (s.advance t) := by
  rw [rakeRelease_eq t h, unleased_regions]
  exact if_pos hm

theorem sweepDone_shows (target t : Nat) (s : State) :
    let u := (({ unleased target (s.advance t) with rak := { (unleased target (s.advance t)).rak with
        nextAt := del (unleased target (s.advance t)).rak.nextAt target } } : State).bump (passFld target)).wr RAK_EVT_sweep_done 1
    (∃ F b R, u = { s with fields := F, tmb := b, rak := R } ∧ b.kt = max s.tmb.kt t) ∧ u.rak.leases = (s.rak.leases.filter fun l => decide (l.target ≠ target))
      ∧ u.rd (passFld target) = (s.rd (passFld target) + 1) % 2 ^ 32 ∧ u.rd RAK_EVT_sweep_done = 1 ∧ look u.rak.nextAt target = none
      ∧ SameRegs s u [RAK_STAT_lease, RAK_STAT_busy, passFld target, RAK_EVT_sweep_done] := by
  obtain ⟨⟨F, b, e, hb⟩, r⟩ := unleased_shows target t s
  obtain ⟨hw, hk, hl⟩ := passFld_facts target
  have hrd : ∀ f, ({ unleased target (s.advance t) with rak := { (unleased target (s.advance t)).rak with
      nextAt := del (unleased target (s.advance t)).rak.nextAt target } } : State).rd f = (unleased target (s.advance t)).rd f := fun _ => rfl
  have hform : ({ unleased target (s.advance t) with rak := { (unleased target (s.advance t)).rak with
      nextAt := del (unleased target (s.advance t)).rak.nextAt target } } : State)
      = { s with fields := F, tmb := b, rak := { s.rak with leases := s.rak.leases.filter fun l => decide (l.target ≠ target), nextAt := del s.rak.nextAt target } } := by
    rw [e]
  dsimp only
  generalize ({ unleased target (s.advance t) with rak := { (unleased target (s.advance t)).rak with
      nextAt := del (unleased target (s.advance t)).rak.nextAt target } } : State) = w at *
  generalize passFld target = g at *
  have hrak : ((w.bump g).wr RAK_EVT_sweep_done 1).rak = w.rak := rfl
  refine ⟨?_, by rw [hrak, hform], ?_, ?_, ?_, fun f hf => ?_⟩
  · rw [hform]
    exact ⟨_, b, _, rfl, hb⟩
  · rw [State.rd_wr_ne _ _ _ _ (Ne.symm hk), rd_bump, hw, hrd, r _ hl]
  · rw [State.rd_wr_same]
    rfl
  · rw [hrak, hform]
    exact look_del_same _ _
  · simp only [List.map_cons, List.map_nil, List.mem_cons, List.not_mem_nil, or_false, not_or] at hf
    rw [State.rd_wr_ne _ _ _ _ (Ne.symm hf.2.2.2), rd_bump_ne _ (Ne.symm hf.2.2.1), hrd, r f (by simp [leaseFlds, hf.1, hf.2.1])]

theorem rakeRelease_answers {s : State} {t : Nat} (hp : Powered s) (target : Fin 3) (h : s.rak.leases.any (fun l => l.target = target.val) = true) :
    Answers (.rakeLeaseRelease target t) s fun u =>
      u.rak.leases = (s.rak.leases.filter fun l => decide (l.target ≠ target.val)) ∧ (u.near = s.near ∧ u.deep = s.deep ∧ u.scr = s.scr ∧ TimeAt s u t)
        ∧ ((look s.rak.nextAt target.val).getD 0 < s.rakeRegions target.val ∨ s.rak.again.any (fun x => x.1 = target.val) = true →
            SameRegs s u [RAK_STAT_lease, RAK_STAT_busy] ∧ SameRest s { u with rak := { u.rak with leases := s.rak.leases } })
        ∧ (s.rakeRegions target.val ≤ (look s.rak.nextAt target.val).getD 0 → s.rak.again.any (fun x => x.1 = target.val) = false →
            u.rd (passFld target.val) = (s.rd (passFld target.val) + 1) % 2 ^ 32 ∧ u.rd RAK_EVT_sweep_done = 1 ∧ look u.rak.nextAt target.val = none
              ∧ SameRegs s u [RAK_STAT_lease, RAK_STAT_busy, passFld target.val, RAK_EVT_sweep_done] ∧ SameRest s { u with rak := s.rak }) := by
  refine Answers.of_performOnAt (exec_rakeLeaseRelease _ _ _) hp ?_
  dsimp only
  by_cases hm : (look s.rak.nextAt target.val).getD 0 < s.rakeRegions target.val ∨ s.rak.again.any (fun x => x.1 = target.val) = true
  · rw [rakeRelease_more target h hm]
    obtain ⟨⟨F, b, e, hb⟩, r⟩ := unleased_shows target.val t s
    generalize unleased target.val (s.advance t) = u at *
    refine ⟨by rw [e], by rw [e]; exact ⟨rfl, rfl, rfl, hb⟩, fun _ => ⟨r, by rw [e]; exact sameRest_mk_hrv s _ _ _⟩, fun h1 h2 => ?_⟩
    rcases hm with hm | hm
    · exact absurd hm (Nat.not_lt.2 h1)
    · exact absurd (hm.symm.trans h2) (by decide)
  · rw [rakeRelease_eq t h, unleased_regions, if_neg hm]
    obtain ⟨⟨F, b, R, e, hb⟩, hl, c1, c2, c3, c4⟩ := sweepDone_shows target.val t s
    generalize (({ unleased target.val (s.advance t) with rak := { (unleased target.val (s.advance t)).rak with
        nextAt := del (unleased target.val (s.advance t)).rak.nextAt target.val } } : State).bump (passFld target.val)).wr RAK_EVT_sweep_done 1 = u at *
    exact ⟨hl, by rw [e]; exact ⟨rfl, rfl, rfl, hb⟩, fun x => absurd x hm, fun _ _ => ⟨c1, c2, c3, c4, by rw [e]; exact sameRest_mk_hrv s _ _ _⟩⟩

theorem rakeRequeue_eq (target : Nat) (s : State) : State.rakeRequeue target s = State.rakeShow { s with rak := { s.rak with
    leases := s.rak.leases.filter (fun l => decide (l.target ≠ target)),
    again := s.rak.again ++ (s.rak.leases.filter fun l => decide (l.target = target)).map fun l => (target, l.region) } } := by
  rw [State.rakeRequeue, List.partition_eq_filter_filter]
  dsimp only
  have hf : List.filter (not ∘ fun l : Lease => decide (l.target = target)) s.rak.leases = s.rak.leases.filter fun l => decide (l.target ≠ target) :=
    List.filter_congr fun l _ => by simp
  rw [hf]

theorem rakePreempt_answers {s : State} {t : Nat} (hp : Powered s) (target : Fin 3) (h1 : target.val ≠ 1)
    (h : s.rak.leases.any (fun l => l.target = target.val) = true) : Answers (.rakePreempt target t) s fun u =>
      u.rak.leases = (s.rak.leases.filter fun l => decide (l.target ≠ target.val))
        ∧ u.rak.again = s.rak.again ++ ((s.rak.leases.filter fun l => decide (l.target = target.val)).map fun l => (target.val, l.region))
        ∧ u.rd RAK_PREEMPT_count = (s.rd RAK_PREEMPT_count + 1) % 2 ^ 32 ∧ u.rd RAK_EVT_preempt = 1
        ∧ (u.near = s.near ∧ u.deep = s.deep ∧ u.scr = s.scr ∧ TimeAt s u t)
        ∧ SameRegs s u [RAK_STAT_lease, RAK_STAT_busy, RAK_PREEMPT_count, RAK_EVT_preempt] ∧ SameRest s { u with rak := s.rak } := by
  refine Answers.of_performOnAt (exec_rakePreempt _ _ _) hp ?_
  obtain ⟨k, hk, hkt⟩ := s.advance_moves t
  have e : State.rakePreempt target.val t s = ((State.rakeRequeue target.val { s with tmb := k }).bump RAK_PREEMPT_count).wr RAK_EVT_preempt 1 := by
    rw [State.rakePreempt, hk, State.preempted]
    exact if_neg (not_or.2 ⟨h1, by simpa using h⟩)
  rw [e, rakeRequeue_eq]
  dsimp only
  obtain ⟨R, hR⟩ : ∃ R : Rak, R = { s.rak with
    leases := s.rak.leases.filter (fun l => decide (l.target ≠ target.val)),
    again := s.rak.again ++ (s.rak.leases.filter fun l => decide (l.target = target.val)).map fun l => (target.val, l.region) } := ⟨_, rfl⟩
  rw [← hR]
  obtain ⟨⟨F, hF⟩, r⟩ := rakeShow_keeps { s with tmb := k, rak := R }
  generalize State.rakeShow { s with tmb := k, rak := R } = w at *
  have hrak : ((w.bump RAK_PREEMPT_count).wr RAK_EVT_preempt 1).rak = R := by rw [hF]; rfl
  rw [hrak]
  refine ⟨by rw [hR], by rw [hR], ?_, ?_, ?_, fun f hf => ?_, ?_⟩
  · rw [State.rd_wr_ne _ _ _ _ (by decide), rd_bump, r _ (by decide)]
    rfl
  · rw [State.rd_wr_same]
    rfl
  · rw [hF]
    exact ⟨rfl, rfl, rfl, hkt⟩
  · simp only [List.map_cons, List.map_nil, List.mem_cons, List.not_mem_nil, or_false, not_or] at hf
    rw [State.rd_wr_ne _ _ _ _ (Ne.symm hf.2.2.2), rd_bump_ne _ (Ne.symm hf.2.2.1), r f (by simp [leaseFlds, hf.1, hf.2.1])]
    rfl
  · rw [hF]
    exact sameRest_mk_hrv s _ _ _

/-- Settles O39: a lease taken or not, its release and its pre-emption. -/
theorem rakeLeases : Obligations.RakeLeases := by
  unfold Obligations.RakeLeases
  refine fun s target t hp => ⟨fun q hn => ?_, fun q hr hd => ?_, fun h => ?_, fun h1 h => rakePreempt_answers hp target h1 h, fun hn => ?_⟩
  · refine Answers.of_performOnAt (exec_rakeLease _ _ _ _) hp ?_
    obtain ⟨k, hk, hkt⟩ := s.advance_moves t
    have hc : !(s.advance t).rakeRuns target.val ∨ t < (look (s.advance t).rak.due target.val).getD 0 := by
      rw [hk]
      exact hn.imp (fun h => by rw [Bool.not_eq_true']; exact h) id
    rw [State.rakeLease, if_pos hc, hk]
    exact ⟨hkt, fun _ _ => rfl, sameRest_mk_hrv s _ _ _⟩
  · refine (rakeLease_answers hp target q hr hd).imp fun u ⟨h1, h2, h3, h4, h5, h6, h7, h8⟩ =>
      ⟨⟨nextLease target.val s, h1, rfl, rfl, by rw [h2]; rfl, fun hi => ?_, fun hi x hx => ?_⟩, h5, h6, h7, h8⟩
    · rw [h3]
      exact rakeNext_next hi
    · rw [h4]
      exact rakeNext_again hi hx
  · exact rakeRelease_answers hp target h
  · refine Answers.of_performOnAt (exec_rakePreempt _ _ _) hp ?_
    obtain ⟨k, hk, hkt⟩ := s.advance_moves t
    rw [State.rakePreempt, hk, State.preempted, if_pos (by exact hn.imp id fun h => by rw [Bool.not_eq_true']; exact h)]
    exact ⟨hkt, fun _ _ => rfl, sameRest_mk_hrv s _ _ _⟩

end Sys2Proof
end

