-- ==== Sys2Proof/Proofs/ClearingAndBar2.lean ====
section
/-! SUPPORT. The errors of a BAR2 read, the rings as an access finds them, and the clearing of the memories: the statement of O40. -/

namespace Sys2Proof.Machine

/-! ### The rings as an access finds them -/

theorem State.ringPut_hrv (k t0 n a b : Nat) (s : State) (h : Hrv) :
    State.ringPut k t0 n a b { s with hrv := h } = { State.ringPut k t0 n a b s with hrv := h } := by
  rw [State.ringPut, State.ringPut]
  by_cases hc : n = 0 ∨ b ≤ a
  · rw [if_pos hc, if_pos hc]
  · rw [if_neg hc, if_neg hc]

theorem State.ownerWrites_hrv (k : Nat) (s : State) (h : Hrv) (o : Owner) :
    State.ownerWrites k { s with hrv := h } o = { State.ownerWrites k s o with hrv := h } := by
  have ht : ∀ o, ({ s with hrv := h } : State).tilesOf o = s.tilesOf o := fun _ => rfl
  have ha : ({ s with hrv := h } : State).armed = s.armed := rfl
  have hm : ∀ f, ({ s with hrv := h } : State).tileMode f = s.tileMode f := fun _ => rfl
  have hp : ({ s with hrv := h } : State).nowPos = s.nowPos := rfl
  cases o with
  | capture f =>
    simp only [State.ownerWrites, ht, ha, hm, hp, State.ringPut_hrv]
    split
    · rfl
    · split <;> rfl
  | edges _ =>
    simp only [State.ownerWrites, ht, ha, State.ringPut_hrv]
    split <;> rfl
  | interval =>
    simp only [State.ownerWrites, ht, ha, State.ringPut_hrv]
    split <;> rfl
  | calibration =>
    simp only [State.ownerWrites, ht, State.ringPut_hrv]
    split <;> rfl
  | queues => rfl
  | nobody => rfl

theorem ownersWrite_hrv (k : Nat) (h : Hrv) (l : List Owner) : ∀ s : State,
    l.foldl (State.ownerWrites k) { s with hrv := h } = { l.foldl (State.ownerWrites k) s with hrv := h } := by
  induction l with
  | nil => exact fun _ => rfl
  | cons o l ih => exact fun s => by rw [List.foldl_cons, List.foldl_cons, State.ownerWrites_hrv, ih]

/-- The rings as their owners have filled them: `w` after their writes, at the position of `s`. -/
def ringsAt (s w : State) : State := { w with free := s.free + 1, acq := { w.acq with ringPos := s.nowPos / s.grid.phases } }

theorem ringsAt_hrv (s w : State) (h : Hrv) : ringsAt { s with hrv := h } { w with hrv := h } = { ringsAt s w with hrv := h } := rfl

/-- Those who write rings. -/
def ringOwners : List Owner := [.capture 0, .capture 1, .capture 2, .capture 3, .edges 0, .edges 1, .edges 2, .edges 3, .interval, .calibration]

theorem State.nearSync_writes {s : State} (h : (!s.armed && s.task.isNone) = false) : s.nearSync = ringsAt s (ringOwners.foldl (State.ownerWrites s.free) s) := by
  rw [State.nearSync, h, ringsAt, ringOwners]
  generalize List.foldl (State.ownerWrites s.free) s _ = w
  rfl

theorem State.nearSync_rests {s : State} (h : (!s.armed && s.task.isNone) = true) : s.nearSync = s := by
  rw [State.nearSync]
  exact if_pos h

/-- The rings do not depend on what Harvest holds. -/
theorem State.nearSync_hrv (s : State) (h : Hrv) : ({ s with hrv := h } : State).nearSync = { s.nearSync with hrv := h } := by
  cases ha : (!s.armed && s.task.isNone)
  · rw [State.nearSync_writes ha, State.nearSync_writes (s := { s with hrv := h }) ha, ownersWrite_hrv, ringsAt_hrv]
  · rw [State.nearSync_rests ha, State.nearSync_rests (s := { s with hrv := h }) ha]

theorem State.nearSeen_moves (s : State) (a n : Nat) : ∃ N P A r, s.nearSeen a n = { s with near := N, poison := P, acq := A, free := r } := by
  rw [State.nearSeen]
  split
  · exact s.nearSync_moves
  · exact ⟨s.near, s.poison, s.acq, s.free, rfl⟩

theorem State.migNow_keeps (s : State) : (∃ F D r, s.migNow = { s with fields := F, dmc := D, free := r }) ∧ SameRegs s s.migNow [DMC_MIG_done] := by
  rw [State.migNow]
  split
  · exact ⟨⟨s.fields, s.dmc, s.free, rfl⟩, fun _ _ => rfl⟩
  · refine ⟨⟨_, _, _, rfl⟩, fun f hf => ?_⟩
    exact State.rd_wr_ne _ _ _ _ fun x => hf (by simp [x])

end Sys2Proof.Machine

namespace Sys2Proof

open Machine

/-! ### What the errors of a read keep -/

/-- `u` is `s` after errors of near memory. -/
structure NearMet (s u : State) : Prop where
  met : MetErrors s u
  dpoison : u.dpoison = s.dpoison
  poison : s.poison ⊆ u.poison
  ce : u.rd DMC_CE_CNT_count = s.rd DMC_CE_CNT_count
  evt : u.rd DMC_EVT_ce = s.rd DMC_EVT_ce

theorem NearMet.refl (s : State) : NearMet s s := ⟨MetErrors.refl s, rfl, fun _ h => h, rfl, rfl⟩

theorem NearMet.trans {s u w : State} (h : NearMet s u) (g : NearMet u w) : NearMet s w :=
  ⟨h.met.trans g.met, g.dpoison.trans h.dpoison, List.Subset.trans h.poison g.poison, g.ce.trans h.ce, g.evt.trans h.evt⟩

theorem NearMet.fold {α : Type} (g : State → α → State) (h : ∀ s a, NearMet s (g s a)) (l : List α) : ∀ s, NearMet s (l.foldl g s) := by
  induction l with
  | nil => exact NearMet.refl
  | cons a l ih => exact fun s => (h s a).trans (ih _)

theorem subset_insSet (a : Nat) (l : List Nat) : l ⊆ insSet a l := fun _ h => (mem_insSet _ _ _).2 (.inr h)

theorem nearMet_corrected (s : State) : NearMet s s.nearCorrected := by
  refine ⟨metErrors_nearCorrected s, rfl, fun _ h => h, ?_, ?_⟩
  · rw [State.nearCorrected, State.rd_wr_ne _ _ _ _ (by decide), State.rd_addSat_ne _ _ (by decide)]
  · rw [State.nearCorrected, State.rd_wr_ne _ _ _ _ (by decide), State.rd_addSat_ne _ _ (by decide)]

theorem nearErr_met (a b c x y z : Nat) (s : State) (p : List Nat → List Nat) (hp : ∀ l, l ⊆ p l) :
    NearMet s { (nearErr a b c s).bbox x y z with poison := p ((nearErr a b c s).bbox x y z).poison } := by
  have hm := nearErr_bbox a b c x y z s p
  have hr : ∀ f : Fld, f.key ∉ nearErrFlds.map Fld.key → f.key ∉ bboxFlds.map Fld.key →
      ({ (nearErr a b c s).bbox x y z with poison := p ((nearErr a b c s).bbox x y z).poison } : State).rd f = s.rd f := fun f h1 h2 => by
    rw [State.rd_mk, State.rd_bbox _ _ _ _ h2, rd_nearErr _ _ _ _ h1]
  obtain ⟨F, hF⟩ := nearErr_moves a b c s
  obtain ⟨G, B, e⟩ := (nearErr a b c s).bbox_moves x y z
  refine ⟨hm, by rw [e, hF], ?_, hr _ (by decide) (by decide), hr _ (by decide) (by decide)⟩
  rw [e, hF]
  exact hp _

theorem nearMet_uncorr (s : State) (a : Nat) : NearMet s (s.nearUncorr a) := nearErr_met 0 _ _ _ _ _ s (insSet (a / 64 * 64)) (subset_insSet _)

theorem nearMet_scr (s : State) (a : Nat) : NearMet s (s.scrUncorr a) := nearErr_met 1 0 (a / 4) 0x40 0x10 (a / 4) s id fun _ _ h => h

theorem nearMet_cellRead (s : State) (target a n : Nat) : NearMet s (s.cellRead target a n) := by
  rw [State.cellRead]
  split
  · exact NearMet.refl s
  · refine NearMet.fold _ (fun s w => ?_) _ s
    split
    · exact nearMet_corrected s
    · split
      · exact nearMet_scr s w
      · exact nearMet_uncorr s w

/-- Poison only grows. -/
def Grows (s u : State) : Prop := s.dpoison ⊆ u.dpoison ∧ s.poison ⊆ u.poison

theorem Grows.trans {s u w : State} (h : Grows s u) (g : Grows u w) : Grows s w := ⟨List.Subset.trans h.1 g.1, List.Subset.trans h.2 g.2⟩

theorem NearMet.grows {s u : State} (h : NearMet s u) : Grows s u := ⟨h.dpoison ▸ fun _ h => h, h.poison⟩

/-- The corrected reads of deep memory leave poison as it is. -/
theorem corrected_fold (l : List Nat) : ∀ s : State, (l.foldl State.deepCorrected s).dpoison = s.dpoison ∧ (l.foldl State.deepCorrected s).poison = s.poison := by
  induction l with
  | nil => exact fun _ => ⟨rfl, rfl⟩
  | cons a l ih => exact fun s => ih (s.deepCorrected a)

theorem deepCorrected_shows (s : State) (a : Nat) : (s.deepCorrected a).rd DMC_CE_CNT_count = min (s.rd DMC_CE_CNT_count + 1) (2 ^ 32 - 1)
    ∧ (s.deepCorrected a).rd DMC_EVT_ce = 1 := by
  rw [State.deepCorrected]
  refine ⟨?_, ?_⟩
  · rw [State.rd_mk, State.rd_wr_ne _ _ _ _ (by decide), State.rd_addSat]
    rfl
  · rw [State.rd_mk, State.rd_wr_same]
    rfl

theorem uncorr_poison (l : List Nat) : ∀ s : State, (l.foldl State.deepUncorr s).poison = s.poison := by
  induction l with
  | nil => exact fun _ => rfl
  | cons a l ih =>
    intro s
    rw [List.foldl_cons, ih]
    obtain ⟨⟨F, B, D, e⟩, -⟩ := s.deepUncorr_keeps a
    rw [e]

/-! ### The errors of a BAR2 read -/

/-- The offset lies in the range, in deep memory, and that is not being cleared. -/
def inDeep (s : State) (a n x : Nat) : Bool := decide (a ≤ x) && decide (x < a + n) && decide (x < s.deepSize) && !s.on DMC_STAT_clear_busy

/-- The same of near memory. -/
def inNear (s : State) (a n x : Nat) : Bool :=
  decide (a ≤ x) && decide (x < a + n) && decide (bar2Near ≤ x) && decide (x < bar2Near + 2 ^ 28) && !s.on NMC_STAT_clear_busy

/-- The errors in near memory. -/
def nearErrors (a n : Nat) (corr : List Nat) (s s1 : State) : State := (corr.filter (inNear s a n)).foldl (fun u _ => u.nearCorrected) s1

def nearBad (a n : Nat) (uncorr : List Nat) (s s1 : State) : State := (uncorr.filter (inNear s a n)).foldl (fun u x => u.nearUncorr (x - bar2Near)) s1

def cellsRead (a n : Nat) (s s1 : State) : State :=
  if bar2Near < a + n ∧ s.on NMC_STAT_clear_busy = false then s1.cellRead 0 (a - bar2Near) (a + n - max a bar2Near) else s1

theorem bar2Errors_eq (a n : Nat) (corr uncorr : List Nat) (s : State) : State.bar2Errors a n corr uncorr s =
    cellsRead a n s (nearBad a n uncorr s ((uncorr.filter (inDeep s a n)).foldl State.deepUncorr
      (nearErrors a n corr s ((corr.filter (inDeep s a n)).foldl State.deepCorrected s)))) := rfl

theorem nearMet_errors (a n : Nat) (corr : List Nat) (s s1 : State) : NearMet s1 (nearErrors a n corr s s1) :=
  NearMet.fold _ (fun s _ => nearMet_corrected s) _ _

theorem nearMet_bad (a n : Nat) (uncorr : List Nat) (s s1 : State) : NearMet s1 (nearBad a n uncorr s s1) :=
  NearMet.fold _ (fun s _ => nearMet_uncorr s _) _ _

theorem nearMet_cells (a n : Nat) (s s1 : State) : NearMet s1 (cellsRead a n s s1) := by
  rw [cellsRead]
  split
  · exact nearMet_cellRead s1 _ _ _
  · exact NearMet.refl s1

/-- What the errors of a BAR2 read leave. -/
theorem bar2Errors_shows (a n : Nat) (corr uncorr : List Nat) (s : State) :
    MetErrors s (State.bar2Errors a n corr uncorr s) ∧ Grows s (State.bar2Errors a n corr uncorr s)
      ∧ (∀ x ∈ uncorr, inDeep s a n x = true → x / 64 * 64 ∈ (State.bar2Errors a n corr uncorr s).dpoison)
      ∧ (∀ x, corr = [x] → uncorr = [] → inDeep s a n x = true →
          (State.bar2Errors a n corr uncorr s).rd DMC_CE_CNT_count = min (s.rd DMC_CE_CNT_count + 1) (2 ^ 32 - 1)
            ∧ (State.bar2Errors a n corr uncorr s).rd DMC_EVT_ce = 1)
      ∧ (corr = [] → uncorr = [] → s.cells = [] → State.bar2Errors a n corr uncorr s = s) := by
  have h1 : MetErrors s ((corr.filter (inDeep s a n)).foldl State.deepCorrected s) := MetErrors.fold _ metErrors_deepCorrected _ _
  have p1 := corrected_fold (corr.filter (inDeep s a n)) s
  have c1 : ∀ x, corr = [x] → inDeep s a n x = true → (corr.filter (inDeep s a n)).foldl State.deepCorrected s = s.deepCorrected x := fun x h hx => by
    rw [h, List.filter_cons, if_pos hx]
    rfl
  have e1 : corr = [] → (corr.filter (inDeep s a n)).foldl State.deepCorrected s = s := fun h => by rw [h]; rfl
  rw [bar2Errors_eq]
  generalize (corr.filter (inDeep s a n)).foldl State.deepCorrected s = s1 at *
  have h2 := nearMet_errors a n corr s s1
  have e2 : corr = [] → nearErrors a n corr s s1 = s1 := fun h => by rw [h]; rfl
  generalize nearErrors a n corr s s1 = s2 at *
  have hin : ∀ x ∈ uncorr, inDeep s a n x = true → x ∈ uncorr.filter (inDeep s a n) := fun x hx h => List.mem_filter.2 ⟨hx, h⟩
  have hnil : uncorr = [] → uncorr.filter (inDeep s a n) = [] := fun h => by rw [h]; rfl
  generalize uncorr.filter (inDeep s a n) = l at *
  have h3 : MetErrors s2 (l.foldl State.deepUncorr s2) := MetErrors.fold _ metErrors_deepUncorr _ _
  obtain ⟨-, -, g3, -, a3⟩ := uncorr_fold l s2
  have p3 := uncorr_poison l s2
  have e3 : uncorr = [] → l.foldl State.deepUncorr s2 = s2 := fun h => by rw [hnil h]; rfl
  generalize l.foldl State.deepUncorr s2 = s3 at *
  have h4 := (nearMet_bad a n uncorr s s3).trans (nearMet_cells a n s (nearBad a n uncorr s s3))
  have e4 : uncorr = [] → s3.cells = [] → cellsRead a n s (nearBad a n uncorr s s3) = s3 := fun h hc => by
    rw [h]
    show cellsRead a n s s3 = s3
    rw [cellsRead]
    split
    · exact cellRead_none hc _ _ _
    · rfl
  generalize cellsRead a n s (nearBad a n uncorr s s3) = u at *
  have hg12 : Grows s s2 := Grows.trans ⟨p1.1 ▸ fun _ h => h, p1.2 ▸ fun _ h => h⟩ h2.grows
  have hg3 : Grows s2 s3 := ⟨g3, p3 ▸ fun _ h => h⟩
  refine ⟨((h1.trans h2.met).trans h3).trans h4.met, (hg12.trans hg3).trans h4.grows, fun x hx h => ?_, fun x hc hu h => ?_, fun hc hu hs => ?_⟩
  · rw [h4.dpoison]
    exact (a3 x (hin x hx h)).1
  · obtain ⟨d1, d2⟩ := deepCorrected_shows s x
    rw [h4.ce, h4.evt, e3 hu, h2.ce, h2.evt, c1 x hc h]
    exact ⟨d1, d2⟩
  · have hs3 : s3 = s := by rw [e3 hu, e2 hc, e1 hc]
    rw [e4 hu (by rw [hs3]; exact hs), hs3]

/-! ### A BAR2 read -/

/-- The states agree in what an access of BAR2 looks at, but for poison. -/
structure SameWindow (s u : State) : Prop where
  size : u.deepSize = s.deepSize
  deep : u.deep = s.deep
  near : u.near = s.near
  deepBusy : u.on DMC_STAT_clear_busy = s.on DMC_STAT_clear_busy
  nearBusy : u.on NMC_STAT_clear_busy = s.on NMC_STAT_clear_busy

theorem SameWindow.byte {s u : State} (h : SameWindow s u) (x : Nat) : u.bar2Byte x = s.bar2Byte x := by
  rw [State.bar2Byte, State.bar2Byte, h.size, h.deep, h.near, h.deepBusy, h.nearBusy]

theorem contains_sub {l m : List Nat} (h : l ⊆ m) {x : Nat} (hx : l.contains x = true) : m.contains x = true := by
  rw [List.contains_iff_mem] at *
  exact h hx

theorem SameWindow.poison {s u : State} (h : SameWindow s u) (hg : Grows s u) {x : Nat} (hx : s.bar2Poison x = true) : u.bar2Poison x = true := by
  rw [State.bar2Poison] at *
  rw [h.size, h.deepBusy, h.nearBusy]
  by_cases hd : x < s.deepSize
  · rw [if_pos hd] at hx ⊢
    rw [Bool.and_eq_true] at hx ⊢
    exact ⟨hx.1, contains_sub hg.1 hx.2⟩
  · rw [if_neg hd] at hx ⊢
    rw [Bool.and_eq_true] at hx ⊢
    exact ⟨hx.1, contains_sub hg.2 hx.2⟩

theorem SameWindow.poison_eq {s u : State} (h : SameWindow s u) (h1 : u.dpoison = s.dpoison) (h2 : u.poison = s.poison) (x : Nat) :
    u.bar2Poison x = s.bar2Poison x := by
  rw [State.bar2Poison, State.bar2Poison, h.size, h.deepBusy, h.nearBusy, h1, h2]

theorem bar2Poison_deep {s : State} {x : Nat} (h : x < s.deepSize) (hb : s.on DMC_STAT_clear_busy = false) :
    s.bar2Poison x = s.dpoison.contains (x / 64 * 64) := by
  rw [State.bar2Poison, if_pos h, hb, Bool.not_false, Bool.true_and]

/-- What a read of BAR2 has done before it completes: its errors met and its grant given. -/
def bar2Met (a n : Nat) (corr uncorr : List Nat) (wait : Nat) (s : State) : State := (State.bar2Errors a n corr uncorr s).bar2Grant a n wait

abbrev deepServes (a : Nat) (s : State) : Prop := a < s.deepSize ∧ s.on DMC_STAT_clear_busy = false

theorem deepSize_build {s u : State} (h : u.build = s.build) : u.deepSize = s.deepSize := by
  rw [State.deepSize, State.deepSize, State.nStacks, State.nStacks, State.isH2, State.isH2, h]

theorem bar2Grant_shows (a n wait : Nat) (s : State) :
    (∃ F N, s.bar2Grant a n wait = { s with fields := F, free := N }) ∧ SameRegs s (s.bar2Grant a n wait) (grantFlds wait)
      ∧ (deepServes a s → 2 * usF < wait → (s.bar2Grant a n wait).rd DMC_STARVE_count = min (s.rd DMC_STARVE_count + 1) (2 ^ 32 - 1)
          ∧ (s.bar2Grant a n wait).rd DMC_EVT_starve = 1) := by
  rw [State.bar2Grant]
  by_cases h : a < s.deepSize ∧ s.on DMC_STAT_clear_busy = false
  · rw [if_pos h]
    obtain ⟨h1, h2, h3⟩ := grant_shows wait (cdiv (a % 64 + n) 64) s
    exact ⟨h1, h2, fun _ => h3⟩
  · rw [if_neg h]
    exact ⟨⟨_, _, rfl⟩, fun _ _ => rfl, fun x => absurd x h⟩

/-- What holds of a read before it completes. -/
theorem bar2Met_shows (a n : Nat) (corr uncorr : List Nat) (wait : Nat) (s : State) :
    SameWindow s (bar2Met a n corr uncorr wait s) ∧ Grows s (bar2Met a n corr uncorr wait s) ∧ (bar2Met a n corr uncorr wait s).tmb = s.tmb
      ∧ (bar2Met a n corr uncorr wait s).hrv = s.hrv
      ∧ (deepServes a s → 2 * usF < wait → (bar2Met a n corr uncorr wait s).rd DMC_STARVE_count = min (s.rd DMC_STARVE_count + 1) (2 ^ 32 - 1)
          ∧ (bar2Met a n corr uncorr wait s).rd DMC_EVT_starve = 1)
      ∧ (∀ x ∈ uncorr, inDeep s a n x = true → x / 64 * 64 ∈ (bar2Met a n corr uncorr wait s).dpoison)
      ∧ (∀ x, corr = [x] → uncorr = [] → inDeep s a n x = true →
          (bar2Met a n corr uncorr wait s).rd DMC_CE_CNT_count = min (s.rd DMC_CE_CNT_count + 1) (2 ^ 32 - 1)
            ∧ (bar2Met a n corr uncorr wait s).rd DMC_EVT_ce = 1)
      ∧ (corr = [] → uncorr = [] → s.cells = [] → (∃ F N, bar2Met a n corr uncorr wait s = { s with fields := F, free := N })
          ∧ SameRegs s (bar2Met a n corr uncorr wait s) (grantFlds wait)) := by
  obtain ⟨⟨⟨F, B, Y, D, P, e⟩, r⟩, hg, hu, hc, hq⟩ := bar2Errors_shows a n corr uncorr s
  rw [bar2Met]
  generalize State.bar2Errors a n corr uncorr s = v at *
  obtain ⟨⟨G, N, e'⟩, r', hs⟩ := bar2Grant_shows a n wait v
  generalize v.bar2Grant a n wait = u at *
  have hon : ∀ f : Fld, f.key ∉ errFlds.map Fld.key → f.key ∉ [DMC_RDP_CNT_count, DMC_STARVE_count, DMC_EVT_starve].map Fld.key → u.on f = s.on f :=
    fun f h1 h2 => by rw [State.on, State.on, r' f (grantFlds_sub h2), r f h1]
  have hsize : v.deepSize = s.deepSize := deepSize_build (by rw [e])
  have hbusy : v.on DMC_STAT_clear_busy = s.on DMC_STAT_clear_busy := by rw [State.on, State.on, r _ (by decide)]
  refine ⟨⟨deepSize_build (by rw [e', e]), by rw [e', e], by rw [e', e], hon _ (by decide) (by decide), hon _ (by decide) (by decide)⟩, ?_, by rw [e', e],
    by rw [e', e], fun hd hw => ?_, fun x hx h => ?_, fun x h1 h2 h3 => ?_, fun h1 h2 h3 => ?_⟩
  · rw [Grows, e']
    exact hg
  · rw [← r DMC_STARVE_count (by decide)]
    exact hs (by rw [deepServes, hsize, hbusy]; exact hd) hw
  · rw [e']
    exact hu x hx h
  · rw [r' _ (grantFlds_sub (by decide)), r' _ (grantFlds_sub (by decide))]
    exact hc x h1 h2 h3
  · have hv := hq h1 h2 h3
    rw [← hv]
    exact ⟨⟨G, N, e'⟩, r'⟩

/-- A poisoned access of the range poisons the completion. -/
theorem any_poison {u : State} {a n x : Nat} (h1 : a ≤ x) (h2 : x < a + n) (h : u.bar2Poison x = true) :
    ((List.range n).any fun i => u.bar2Poison (a + i)) = true :=
  List.any_eq_true.2 ⟨x - a, List.mem_range.2 (by omega), by rw [Nat.add_sub_cancel' h1]; exact h⟩

/-- The machine as an access of BAR2 finds it. -/
def bar2Found (a n t : Nat) (s : State) : State := (s.advance t).migNow.nearSeen a n

theorem bar2Found_shows (a n t : Nat) (s : State) :
    (∃ F D N P A r b, bar2Found a n t s = { s with fields := F, dmc := D, near := N, poison := P, acq := A, free := r, tmb := b } ∧ b.kt = max s.tmb.kt t)
      ∧ SameRegs s (bar2Found a n t s) [DMC_MIG_done] := by
  obtain ⟨k, hk, ht⟩ := s.advance_moves t
  obtain ⟨⟨F, D, r, e⟩, hr⟩ := (s.advance t).migNow_keeps
  obtain ⟨N, P, A, r', e'⟩ := (s.advance t).migNow.nearSeen_moves a n
  rw [bar2Found]
  refine ⟨⟨F, D, N, P, A, r', k, by rw [e', e, hk], ht⟩, fun f hf => ?_⟩
  rw [e', State.rd_mk, hr f hf, State.rd_advance]

/-- A read completes with the bytes, poisoned or not. -/
def completes (bytes : List Byte) (bad : Bool) (v : State) : State :=
  { v with hrv := { v.hrv with cpl := bytes, cplPoison := bad, l12 := false, aerPoison := v.hrv.aerPoison + b2n bad } }

/-- A read completes. -/
def completed (a n : Nat) (v : State) : State :=
  completes ((List.range n).map fun i => v.bar2Byte (a + i)) ((List.range n).any fun i => v.bar2Poison (a + i)) v

theorem rd_completes (bytes : List Byte) (bad : Bool) (v : State) (f : Fld) : (completes bytes bad v).rd f = v.rd f := rfl

theorem bar2Open_advance {s : State} (t : Nat) (hp : Powered s) (hl : s.hrv.link.isSome = true) (hm : s.mode ≠ 0) : (s.advance t).bar2Open = true := by
  obtain ⟨k, hk, -⟩ := s.advance_moves t
  rw [hk]
  exact (show (s.hks.rails && s.hrv.link.isSome && decide (s.mode ≠ 0)) = true by rw [hp.2, hl, decide_eq_true hm]; rfl)

theorem memServed_advance (s : State) (t : Nat) : (s.advance t).memServed = s.memServed := by
  obtain ⟨k, hk, -⟩ := s.advance_moves t
  rw [hk]
  rfl

theorem bar2Take_eq (a len : Nat) (corr uncorr : List Nat) (wait t : Nat) (s : State) : State.bar2Take a len corr uncorr wait (s.advance t) =
    completed a (min len 4096) (bar2Met a (min len 4096) corr uncorr wait (bar2Found a (min len 4096) t s)) := by
  rw [State.bar2Take, bar2Met, bar2Found]
  generalize min len 4096 = n
  dsimp only
  generalize State.bar2Grant _ a n wait = v
  rfl

theorem bar2Get_eq {s : State} {a wait t : Nat} (hp : Powered s) (hl : s.hrv.link.isSome = true) (hm : s.mode ≠ 0) (len : Nat) (corr uncorr : List Nat)
    (hv : s.memServed = true) : State.bar2Get a len corr uncorr wait t s =
      completed a (min len 4096) (bar2Met a (min len 4096) corr uncorr wait (bar2Found a (min len 4096) t s)) := by
  rw [State.bar2Get, if_neg hm, State.bar2Read]
  dsimp only
  rw [bar2Open_advance t hp hl hm, memServed_advance, hv, if_neg (by decide), if_pos rfl, bar2Take_eq]

/-- What a completed read shows. -/
def ReadShown (s s1 : State) (a n wait t : Nat) (corr uncorr : List Nat) (u : State) : Prop :=
  u.hrv.cpl = (List.range n).map (fun i => s1.bar2Byte (a + i)) ∧ u.near = s1.near ∧ u.deep = s.deep ∧ TimeAt s u t
    ∧ (deepServes a s → 2 * usF < wait → u.rd DMC_STARVE_count = min (s.rd DMC_STARVE_count + 1) (2 ^ 32 - 1) ∧ u.rd DMC_EVT_starve = 1)
    ∧ u.hrv.aerPoison = s.hrv.aerPoison + b2n u.hrv.cplPoison
    ∧ (∀ i, i < n → s1.bar2Poison (a + i) = true → u.hrv.cplPoison = true)
    ∧ (∀ x ∈ uncorr, a ≤ x → x < a + n → x < s.deepSize → s.on DMC_STAT_clear_busy = false → u.hrv.cplPoison = true)
    ∧ (∀ x, corr = [x] → uncorr = [] → a ≤ x → x < a + n → x < s.deepSize → s.on DMC_STAT_clear_busy = false →
        u.rd DMC_CE_CNT_count = min (s.rd DMC_CE_CNT_count + 1) (2 ^ 32 - 1) ∧ u.rd DMC_EVT_ce = 1)
    ∧ (corr = [] → uncorr = [] → s.cells = [] → u.hrv.cplPoison = (List.range n).any (fun i => s1.bar2Poison (a + i)) ∧ SameRegs s1 u (grantFlds wait)
        ∧ SameRest s1 { u with free := s1.free, hrv := s.hrv }
        ∧ u.hrv = { s.hrv with cpl := u.hrv.cpl, cplPoison := u.hrv.cplPoison, aerPoison := u.hrv.aerPoison, l12 := false })

/-- What is left of a read once its bytes and its poison are known. -/
theorem readShown_of {s s1 v : State} {a n wait t : Nat} {corr uncorr : List Nat} {bytes : List Byte} {bad : Bool}
    (hb : bytes = (List.range n).map (fun i => s1.bar2Byte (a + i))) (hn : v.near = s1.near) (hd : v.deep = s.deep) (ht : TimeAt s v t)
    (hs : deepServes a s → 2 * usF < wait → v.rd DMC_STARVE_count = min (s.rd DMC_STARVE_count + 1) (2 ^ 32 - 1) ∧ v.rd DMC_EVT_starve = 1)
    (hh : v.hrv = s.hrv) (hp : ∀ i, i < n → s1.bar2Poison (a + i) = true → bad = true)
    (hu : ∀ x ∈ uncorr, a ≤ x → x < a + n → x < s.deepSize → s.on DMC_STAT_clear_busy = false → bad = true)
    (hc : ∀ x, corr = [x] → uncorr = [] → a ≤ x → x < a + n → x < s.deepSize → s.on DMC_STAT_clear_busy = false →
        v.rd DMC_CE_CNT_count = min (s.rd DMC_CE_CNT_count + 1) (2 ^ 32 - 1) ∧ v.rd DMC_EVT_ce = 1)
    (hq : corr = [] → uncorr = [] → s.cells = [] → bad = (List.range n).any (fun i => s1.bar2Poison (a + i)) ∧ SameRegs s1 v (grantFlds wait)
        ∧ SameRest s1 { v with free := s1.free }) : ReadShown s s1 a n wait t corr uncorr (completes bytes bad v) := by
  refine ⟨hb, hn, hd, ht, hs, ?_, hp, hu, hc, fun h1 h2 h3 => ?_⟩
  · rw [completes, hh]
  · obtain ⟨q1, q2, q3⟩ := hq h1 h2 h3
    refine ⟨q1, q2, ?_, by rw [completes, hh]⟩
    rw [completes, ← hh]
    exact q3

theorem readShown_completed (a n t wait : Nat) (corr uncorr : List Nat) (s : State) :
    ReadShown s (bar2Found a n t s) a n wait t corr uncorr (completed a n (bar2Met a n corr uncorr wait (bar2Found a n t s))) := by
  obtain ⟨⟨F, D, N, P, A, r, b, e, hb⟩, hr⟩ := bar2Found_shows a n t s
  have hsz : (bar2Found a n t s).deepSize = s.deepSize := deepSize_build (by rw [e])
  have hbs : (bar2Found a n t s).on DMC_STAT_clear_busy = s.on DMC_STAT_clear_busy := by rw [State.on, hr _ (by decide), State.on]
  have hin : ∀ x, a ≤ x → x < a + n → x < s.deepSize → s.on DMC_STAT_clear_busy = false → inDeep (bar2Found a n t s) a n x = true := fun x h1 h2 h3 h4 => by
    rw [inDeep, hsz, hbs, decide_eq_true h1, decide_eq_true h2, decide_eq_true h3, h4]
    rfl
  have hstarve : (bar2Found a n t s).rd DMC_STARVE_count = s.rd DMC_STARVE_count := hr _ (by decide)
  have hce : (bar2Found a n t s).rd DMC_CE_CNT_count = s.rd DMC_CE_CNT_count := hr _ (by decide)
  generalize bar2Found a n t s = s1 at *
  obtain ⟨hw, hg, htm, hh, hs, hu, hc, hq⟩ := bar2Met_shows a n corr uncorr wait s1
  generalize bar2Met a n corr uncorr wait s1 = v at *
  rw [completed]
  refine readShown_of (List.map_congr_left fun i _ => hw.byte _) hw.near (by rw [hw.deep, e]) (by rw [TimeAt, htm, e]; exact hb) (fun hd hl => ?_)
    (by rw [hh, e]) (fun i hi h => ?_) (fun x hx h1 h2 h3 h4 => ?_) (fun x h1 h2 h3 h4 h5 h6 => ?_) (fun h1 h2 h3 => ⟨?_, ?_, ?_⟩)
  · rw [← hstarve]
    exact hs (by rw [deepServes, hsz, hbs]; exact hd) hl
  · exact any_poison (by omega) (by omega) (hw.poison hg h)
  · refine any_poison h1 h2 ?_
    rw [bar2Poison_deep (by rw [hw.size, hsz]; exact h3) (by rw [hw.deepBusy, hbs, h4]), List.contains_iff_mem]
    exact hu x hx (hin x h1 h2 h3 h4)
  · rw [← hce]
    exact hc x h1 h2 (hin x h3 h4 h5 h6)
  · obtain ⟨⟨G, M, ev⟩, -⟩ := hq h1 h2 (by rw [e]; exact h3)
    simp only [hw.poison_eq (by rw [ev]) (by rw [ev])]
  · obtain ⟨-, rv⟩ := hq h1 h2 (by rw [e]; exact h3)
    exact rv
  · obtain ⟨⟨G, M, ev⟩, -⟩ := hq h1 h2 (by rw [e]; exact h3)
    rw [ev]
    exact sameRest_mk_hrv s1 _ _ _

theorem bar2Read_served {s : State} {a wait t : Nat} (hp : Powered s) (hl : s.hrv.link.isSome = true) (hm : s.mode ≠ 0) (len : Nat) (corr uncorr : List Nat)
    (hv : s.memServed = true) : Answers (.bar2Read a len corr uncorr ⟨wait, t⟩) s
      fun u => ReadShown s (bar2Found a (min len 4096) t s) a (min len 4096) wait t corr uncorr u := by
  refine Answers.of_performOnAt (exec_bar2Read _ _ _ _ _ _) hp ?_
  dsimp only
  rw [bar2Get_eq hp hl hm len corr uncorr hv]
  exact readShown_completed _ _ _ _ _ _ _

/-- An access is held. -/
theorem held_keeps (s : State) (t : Nat) (r : MemReq) :
    let u : State := { s.advance t with hrv := { (s.advance t).hrv with l12 := false, memHeld := (s.advance t).hrv.memHeld ++ [r] } }
    u.hrv = { s.hrv with memHeld := s.hrv.memHeld ++ [r], l12 := false } ∧ TimeAt s u t ∧ SameRegs s u [] ∧ SameRest s { u with hrv := s.hrv } := by
  obtain ⟨k, hk, ht⟩ := s.advance_moves t
  rw [hk]
  exact ⟨rfl, ht, fun _ _ => rfl, sameRest_mk_hrv s _ _ _⟩

theorem bar2Read_held {s : State} {a wait t : Nat} (hp : Powered s) (hl : s.hrv.link.isSome = true) (hm : s.mode ≠ 0) (len : Nat) (corr uncorr : List Nat)
    (hv : s.memServed = false) : Answers (.bar2Read a len corr uncorr ⟨wait, t⟩) s fun u =>
      u.hrv = { s.hrv with memHeld := s.hrv.memHeld ++ [.read a len corr uncorr wait], l12 := false } ∧ TimeAt s u t ∧ SameRegs s u []
        ∧ SameRest s { u with hrv := s.hrv } := by
  refine Answers.of_performOnAt (exec_bar2Read _ _ _ _ _ _) hp ?_
  dsimp only
  rw [State.bar2Get, if_neg hm, State.bar2Read]
  dsimp only
  rw [bar2Open_advance t hp hl hm, memServed_advance, hv, if_neg (by decide), if_neg (by decide)]
  exact held_keeps s t _

/-! ### A BAR2 write -/

theorem bar2Write_held {s : State} {a wait t : Nat} (hp : Powered s) (hl : s.hrv.link.isSome = true) (hm : s.mode ≠ 0) (data : List Byte)
    (hv : s.memServed = false) : Answers (.bar2Write a data ⟨wait, t⟩) s fun u =>
      u.hrv = { s.hrv with memHeld := s.hrv.memHeld ++ [.write a data wait], l12 := false } ∧ TimeAt s u t ∧ SameRegs s u []
        ∧ SameRest s { u with hrv := s.hrv } := by
  refine Answers.of_performOnAt (exec_bar2Write _ _ _ _) hp ?_
  dsimp only
  rw [State.bar2Put, if_neg hm, State.bar2Write]
  dsimp only
  rw [bar2Open_advance t hp hl hm, memServed_advance, hv, if_neg (by decide), if_neg (by decide)]
  exact held_keeps s t _

/-- A served write stores. -/
theorem bar2Write_stores {s : State} {a wait t : Nat} (hp : Powered s) (hl : s.hrv.link.isSome = true) (hm : s.mode ≠ 0) (data : List Byte)
    (hv : s.memServed = true) {P : State → Prop} (h : P (State.bar2Store a data wait { s.advance t with hrv := { (s.advance t).hrv with l12 := false } })) :
    Answers (.bar2Write a data ⟨wait, t⟩) s P := by
  refine Answers.of_performOnAt (exec_bar2Write _ _ _ _) hp ?_
  dsimp only
  rw [State.bar2Put, if_neg hm, State.bar2Write]
  dsimp only
  rw [bar2Open_advance t hp hl hm, memServed_advance, hv, if_neg (by decide), if_pos rfl]
  exact h

/-- The two windows of BAR2 are apart. -/
theorem deepSize_le (s : State) : s.deepSize ≤ bar2Near := by
  rw [State.deepSize, State.nStacks, bar2Near]
  split <;> norm_num

theorem bar2Store_deep {s : State} {a : Nat} (data : List Byte) (wait : Nat) (hd : deepServes a s) (hb : s.on HKS_BOOT_done = true) :
    State.bar2Store a data wait s = (State.granted wait s).deepPut a ((data.take 4096).take (s.deepSize - a)) := by
  rw [State.bar2Store]
  rw [if_pos hd.1, hd.2, hb, if_neg (by decide), if_neg (by decide)]

theorem bar2Store_near {s : State} {a : Nat} (data : List Byte) (wait : Nat) (h1 : bar2Near ≤ a) (h2 : a < bar2Near + 2 ^ 28)
    (hc : s.on NMC_STAT_clear_busy = false) (hb : s.on HKS_BOOT_done = true) :
    State.bar2Store a data wait s = s.nearSync.nearPut (a - bar2Near) ((data.take 4096).take (bar2Near + 2 ^ 28 - a)) := by
  have hn : ¬a < s.deepSize := Nat.not_lt.2 (le_trans (deepSize_le s) h1)
  rw [State.bar2Store]
  rw [if_neg hn, if_pos ⟨h1, h2⟩, hc, hb, if_neg (by decide), if_neg (by decide)]

theorem bar2Store_early {s : State} {a : Nat} (data : List Byte) (wait : Nat)
    (h : a < s.deepSize ∧ s.on DMC_STAT_clear_busy = true ∨ bar2Near ≤ a ∧ a < bar2Near + 2 ^ 28 ∧ s.on NMC_STAT_clear_busy = true) :
    State.bar2Store a data wait s = s.wr DMC_EVT_early_wr 1 := by
  rw [State.bar2Store]
  rcases h with ⟨h1, h2⟩ | ⟨h1, h2, h3⟩
  · rw [if_pos h1, if_pos h2]
  · rw [if_neg (Nat.not_lt.2 (le_trans (deepSize_le s) h1)), if_pos ⟨h1, h2⟩, if_pos h3]

theorem bar2Store_drops {s : State} {a : Nat} (data : List Byte) (wait : Nat)
    (h : s.deepSize ≤ a ∧ (a < bar2Near ∨ bar2Near + 2 ^ 28 ≤ a)
      ∨ s.on HKS_BOOT_done = false ∧ s.on DMC_STAT_clear_busy = false ∧ s.on NMC_STAT_clear_busy = false) :
    State.bar2Store a data wait s = s := by
  rw [State.bar2Store]
  rcases h with ⟨h1, h2⟩ | ⟨h1, h2, h3⟩
  · rw [if_neg (Nat.not_lt.2 h1), if_neg (by omega)]
  · simp only [h1, h2, h3, Bool.not_false, Bool.false_eq_true, if_false, if_true, ite_self]

/-- The bytes that a memory takes of a write that may run out of it. -/
theorem read_write_take (m : Mem) (a k : Nat) (d : List Byte) (x : Nat) :
    (m.write a (d.take k)).read x = if a ≤ x ∧ x < a + min d.length k then d.getD (x - a) 0 else m.read x := by
  rw [Mem.read_write, List.length_take, Nat.min_comm]
  refine if_ctx_congr Iff.rfl (fun h => ?_) fun _ => rfl
  rw [List.getD_eq_getElem?_getD, List.getD_eq_getElem?_getD, List.getElem?_take_of_lt (by omega)]

theorem bar2Write_deep {s : State} {a wait t : Nat} (hp : Powered s) (hl : s.hrv.link.isSome = true) (hm : s.mode ≠ 0) (data : List Byte)
    (hv : s.memServed = true) (hd : deepServes a s) (hb : s.on HKS_BOOT_done = true) : Answers (.bar2Write a data ⟨wait, t⟩) s fun u =>
      (∀ x, u.deep.read x = if a ≤ x ∧ x < a + min (data.take 4096).length (s.deepSize - a) then (data.take 4096).getD (x - a) 0 else s.deep.read x)
        ∧ (2 * usF < wait → u.rd DMC_STARVE_count = min (s.rd DMC_STARVE_count + 1) (2 ^ 32 - 1) ∧ u.rd DMC_EVT_starve = 1) ∧ TimeAt s u t
        ∧ SameRegs s u (grantFlds wait) ∧ SameRest s { u with deep := s.deep, dpoison := s.dpoison, free := s.free } := by
  refine bar2Write_stores hp hl hm data hv ?_
  obtain ⟨k, hk, ht⟩ := s.advance_moves t
  have hsz : ({ s with tmb := k, hrv := { s.hrv with l12 := false } } : State).deepSize = s.deepSize := deepSize_build rfl
  rw [hk, bar2Store_deep (s := { s with tmb := k, hrv := { s.hrv with l12 := false } }) data wait ⟨by rw [hsz]; exact hd.1, hd.2⟩ hb, State.deepPut, hsz]
  generalize data.take 4096 = d
  generalize cdiv (a % 64 + (d.take (s.deepSize - a)).length) 64 = n
  obtain ⟨⟨F, N, e⟩, r, c⟩ := grant_shows wait n { s with tmb := k, hrv := { s.hrv with l12 := false } }
  generalize (State.granted wait { s with tmb := k, hrv := { s.hrv with l12 := false } }).activates n = v at *
  refine ⟨fun x => ?_, fun h => ⟨by rw [State.rd_mk, (c h).1, State.rd_mk], by rw [State.rd_mk, (c h).2]⟩, by rw [e]; exact ht,
    fun f hf => by rw [State.rd_mk, r f hf, State.rd_mk], ?_⟩
  · rw [e]
    exact read_write_take s.deep a _ d x
  · rw [e]
    exact sameRest_mk s _ _ _ _

theorem bar2Write_near {s : State} {a wait t : Nat} (hp : Powered s) (hl : s.hrv.link.isSome = true) (hm : s.mode ≠ 0) (data : List Byte)
    (hv : s.memServed = true) (h1 : bar2Near ≤ a) (h2 : a < bar2Near + 2 ^ 28) (hc : s.on NMC_STAT_clear_busy = false) (hb : s.on HKS_BOOT_done = true) :
    Answers (.bar2Write a data ⟨wait, t⟩) s fun u =>
      (∀ x, u.near.read x = if a - bar2Near ≤ x ∧ x < a - bar2Near + min (data.take 4096).length (bar2Near + 2 ^ 28 - a)
          then (data.take 4096).getD (x - (a - bar2Near)) 0 else (s.advance t).nearSync.near.read x)
        ∧ TimeAt s u t ∧ SameRegs s u []
        ∧ SameRest (s.advance t).nearSync { u with near := (s.advance t).nearSync.near, poison := (s.advance t).nearSync.poison } := by
  refine bar2Write_stores hp hl hm data hv ?_
  obtain ⟨k, hk, ht⟩ := s.advance_moves t
  rw [hk, bar2Store_near (s := { s with tmb := k, hrv := { s.hrv with l12 := false } }) data wait h1 h2 hc hb]
  have hy := State.nearSync_hrv { s with tmb := k } { s.hrv with l12 := false }
  rw [show ({ s with tmb := k, hrv := { s.hrv with l12 := false } } : State).nearSync = _ from hy]
  obtain ⟨N, P, A, r, e⟩ := ({ s with tmb := k } : State).nearSync_moves
  generalize ({ s with tmb := k } : State).nearSync = s1 at *
  generalize data.take 4096 = d
  rw [State.nearPut]
  refine ⟨fun x => read_write_take s1.near (a - bar2Near) _ d x, by rw [e]; exact ht, fun f _ => by rw [e]; rfl, ?_⟩
  rw [e]
  exact sameRest_mk _ _ _ _ _

/-- Deep memory is cleared. -/
def clearedDeep (s : State) : State := { s.wr DMC_STAT_clear_busy 0 with deep := ⟨none, [], []⟩, dpoison := [] }

/-- The end of a clearing of deep memory: an initialisation that waited starts. -/
theorem deepCleared_eq {s : State} (t : Nat) (hp : Powered s) (h : s.on DMC_STAT_clear_busy = true) :
    State.deepCleared t s = if s.dmc.initWait = true then (clearedDeep (s.advance t)).dmcInitStart else clearedDeep (s.advance t) := by
  obtain ⟨k, hk, -⟩ := s.advance_moves t
  have hc : ¬((!({ s with tmb := k } : State).hks.rails) = true ∨ (!({ s with tmb := k } : State).on DMC_STAT_clear_busy) = true) := by
    rw [show ({ s with tmb := k } : State).hks.rails = true from hp.2, show ({ s with tmb := k } : State).on DMC_STAT_clear_busy = true from h]
    decide
  rw [State.deepCleared, hk, if_neg hc]
  rfl

theorem deepClearDone_answers {s : State} {t : Nat} (hp : Powered s) (h : s.on DMC_STAT_clear_busy = true) : Answers (.deepClearDone t) s fun u =>
    (∀ a, u.deep.read a = 0) ∧ u.rd DMC_STAT_clear_busy = 0 ∧ u.dpoison = [] ∧ TimeAt s u t
      ∧ (s.dmc.initWait = true → u.dmc = { s.dmc with initWait := false, initRun := true } ∧ u.rd DMC_STAT_init_done = 0
          ∧ SameRegs s u [DMC_STAT_clear_busy, DMC_STAT_init_done])
      ∧ (s.dmc.initWait = false → u.dmc = s.dmc ∧ SameRegs s u [DMC_STAT_clear_busy])
      ∧ SameRest s { u with deep := s.deep, dpoison := s.dpoison, dmc := s.dmc } := by
  refine Answers.of_performOnAt (exec_deepClearDone _ _) hp ?_
  dsimp only
  obtain ⟨k, hk, ht⟩ := s.advance_moves t
  rw [deepCleared_eq t hp h, hk, clearedDeep]
  split
  · next hw =>
    rw [State.dmcInitStart]
    refine ⟨fun _ => rfl, ?_, rfl, ht, fun _ => ⟨rfl, ?_, fun f hf => ?_⟩, fun x => absurd hw (by rw [x]; decide), sameRest_mk_hrv s _ _ _⟩
    · rw [State.rd_mk, State.rd_wr_ne _ _ _ _ (by decide), State.rd_mk, State.rd_wr_same]
      rfl
    · rw [State.rd_mk, State.rd_wr_same]
      rfl
    · simp only [List.map_cons, List.map_nil, List.mem_cons, List.not_mem_nil, or_false, not_or] at hf
      rw [State.rd_mk, State.rd_wr_ne _ _ _ _ (Ne.symm hf.2), State.rd_mk, State.rd_wr_ne _ _ _ _ (Ne.symm hf.1)]
      rfl
  · next hw =>
    refine ⟨fun _ => rfl, ?_, rfl, ht, fun x => absurd x hw, fun _ => ⟨rfl, fun f hf => ?_⟩, sameRest_mk_hrv s _ _ _⟩
    · rw [State.rd_mk, State.rd_wr_same]
      rfl
    · rw [State.rd_mk, State.rd_wr_ne _ _ _ _ fun x => hf (by simp [x])]
      rfl

/-- Settles O40: the end of a clearing, and the reads and writes of BAR2. -/
theorem clearingAndBar2 : Obligations.ClearingAndBar2 := by
  unfold Obligations.ClearingAndBar2
  refine ⟨fun s t hp => ⟨fun h => ?_, fun h => ?_⟩, fun s a wait t hp hl hm => ⟨fun len corr uncorr hv => bar2Read_served hp hl hm len corr uncorr hv,
    fun len corr uncorr hv => bar2Read_held hp hl hm len corr uncorr hv, fun data hv => bar2Write_held hp hl hm data hv, fun data hv =>
      ⟨fun hd hb => ?_, fun h1 h2 hc hb => bar2Write_near hp hl hm data hv h1 h2 hc hb, fun h => ?_, fun h => ?_⟩⟩⟩
  · refine Answers.of_performOnAt (exec_nearClearDone _ _) hp ?_
    obtain ⟨k, hk, ht⟩ := s.advance_moves t
    have hc : ¬((!({ s with tmb := k } : State).hks.rails) = true ∨ (!({ s with tmb := k } : State).on NMC_STAT_clear_busy) = true) := by
      rw [show ({ s with tmb := k } : State).hks.rails = true from hp.2, show ({ s with tmb := k } : State).on NMC_STAT_clear_busy = true from h]
      decide
    rw [State.nearCleared, hk, if_neg hc]
    refine ⟨fun _ => ⟨rfl, rfl⟩, ?_, rfl, rfl, ht, fun f hf => ?_, sameRest_mk_hrv s _ _ _⟩
    · rw [State.rd_mk, State.rd_wr_same]
      rfl
    · rw [State.rd_mk, State.rd_wr_ne _ _ _ _ fun x => hf (by simp [x])]
      rfl
  · exact deepClearDone_answers hp h
  · refine (bar2Write_deep hp hl hm data hv hd hb).imp fun u ⟨h1, h2, h3, h4, h5⟩ => ⟨h1, fun _ => h2, h3, h4, h5⟩
  · refine bar2Write_stores hp hl hm data hv ?_
    obtain ⟨k, hk, ht⟩ := s.advance_moves t
    rw [hk, bar2Store_early (s := { s with tmb := k, hrv := { s.hrv with l12 := false } }) data wait h]
    refine ⟨?_, ht, fun f hf => ?_, sameRest_mk s _ _ _ _⟩
    · rw [State.rd_wr_same]
      rfl
    · rw [State.rd_wr_ne _ _ _ _ fun x => hf (by simp [x])]
      rfl
  · refine bar2Write_stores hp hl hm data hv ?_
    obtain ⟨k, hk, ht⟩ := s.advance_moves t
    rw [hk, bar2Store_drops (s := { s with tmb := k, hrv := { s.hrv with l12 := false } }) data wait h]
    exact ⟨ht, fun _ _ => rfl, sameRest_mk s _ _ _ _⟩

end Sys2Proof
end

