-- ==== Sys2Proof/Proofs/RingControl.lean ====
section
/-! SUPPORT. What follows a command in a machine whose Harvest stands still changes no register; a machine that refutes O44: the size of a
ring holds a value wider than its 5 bits. -/

namespace Sys2Proof

open Machine

/-! ### A machine whose Harvest stands still -/

/-- Nothing waits to be done but by Harvest, whose memory domain is gated. -/
structure Resting (s : State) : Prop where
  waking : s.hks.waking = none
  step2 : s.hks.step ≠ 2
  step3 : s.hks.step ≠ 3
  hostReq : s.hks.hostReq = none
  held : s.held = []
  script : s.hks.script = none
  runReq : s.hks.runReq = none
  hopWait : s.clk.hopWait = none
  pending : s.rd CLK_HOP_pending = 0
  modePend : s.rd GLB_STAT_mode_pend = 0
  retPend : s.rd GLB_STAT_ret_pend = 0
  idle : s.acqSt = 0
  source : s.rd CLK_STAT_s_src_act = 0
  gated : s.rd (CLK_x_STAT_gated 2) = 1
  defer : s.acq.defer = []

/-- `u` is `s` but for what Harvest holds and sends. -/
def OnlySends (s u : State) : Prop := ∃ H q m x, u = { s with hrv := H, irqSeen := q, msxPba := m, msix := x }

theorem OnlySends.refl (s : State) : OnlySends s s := ⟨s.hrv, s.irqSeen, s.msxPba, s.msix, rfl⟩

theorem OnlySends.trans {s u w : State} (h : OnlySends s u) (g : OnlySends u w) : OnlySends s w := by
  obtain ⟨H, q, m, x, e⟩ := h
  obtain ⟨H', q', m', x', e'⟩ := g
  exact ⟨H', q', m', x', by rw [e', e]⟩

theorem OnlySends.fold {α : Type} (g : State → α → State) (h : ∀ s a, OnlySends s (g s a)) (l : List α) : ∀ s, OnlySends s (l.foldl g s) := by
  induction l with
  | nil => exact OnlySends.refl
  | cons a l ih => exact fun s => (h s a).trans (ih _)

theorem OnlySends.rd {s u : State} (h : OnlySends s u) (f : Fld) : u.rd f = s.rd f := by
  obtain ⟨H, q, m, x, e⟩ := h
  rw [e]
  rfl

theorem signal_sends (v : Nat) (s : State) : OnlySends s (State.signal v s) := by
  rw [State.signal]
  split
  · exact ⟨s.hrv, s.irqSeen, _, s.msix, rfl⟩
  · exact ⟨_, s.irqSeen, s.msxPba, _, rfl⟩

theorem pbaSync_sends (s : State) : OnlySends s s.pbaSync := by
  rw [State.pbaSync]
  split
  · exact OnlySends.refl s
  · refine OnlySends.fold _ (fun s v => ?_) _ s
    split
    · exact OnlySends.refl s
    · exact OnlySends.trans ⟨s.hrv, s.irqSeen, _, s.msix, rfl⟩ (signal_sends v _)

theorem irqStep_sends (s : State) (i : Nat) : OnlySends s (s.irqStep i) := by
  rw [State.irqStep]
  split
  · split
    · exact OnlySends.refl s
    · exact OnlySends.trans ⟨s.hrv, _, s.msxPba, s.msix, rfl⟩ (signal_sends _ _)
  · split
    · exact ⟨s.hrv, _, _, s.msix, rfl⟩
    · exact OnlySends.refl s

theorem irqSync_sends (s : State) : OnlySends s s.irqSync :=
  (OnlySends.fold _ irqStep_sends (List.range 17) s).trans (pbaSync_sends _)

theorem streamDone_sends (s : State) : OnlySends s s.streamDone := by
  rw [State.streamDone]
  split
  · exact OnlySends.refl s
  · refine OnlySends.fold _ (fun s p => ?_) _ s
    dsimp only
    split
    · exact ⟨_, s.irqSeen, s.msxPba, s.msix, rfl⟩
    · exact OnlySends.refl s

theorem hrvRuns_gated {s : State} (h : s.rd (CLK_x_STAT_gated 2) = 1) : s.hrvRuns = false := by
  simp [State.hrvRuns, State.memRuns, h]

theorem cqResume_gated {s : State} (h : s.hrvRuns = false) : s.cqResume = s := by
  have hf : ∀ m, State.cqFreed m s = s := fun m => by
    rw [State.cqFreed, h]
    rfl
  rw [State.cqResume]
  split
  · rfl
  · generalize List.range 16 = l
    induction l with
    | nil => rfl
    | cons m l ih => rw [List.foldl_cons, hf, ih]

theorem deliverOut_gated {s : State} (h : s.hrvRuns = false) (hd : s.acq.defer = []) : s.deliverOut = s := by
  have ha : s.deliverAll = s := by
    rw [State.deliverAll, h]
    rfl
  rw [State.deliverOut, State.deliverMore]
  dsimp only
  rw [ha, hd]
  rfl

theorem hrvSync_gated {s : State} (h : s.hrvRuns = false) (hd : s.acq.defer = []) : OnlySends s s.hrvSync := by
  rw [State.hrvSync]
  split
  · exact OnlySends.refl s
  · rw [cqResume_gated h, deliverOut_gated h hd]
    exact streamDone_sends s

/-- What follows a command in a resting machine changes no register. -/
theorem rd_settle_resting {old u : State} (h : Resting u) (hi : old.acqSt = 0) (f : Fld) : (State.settle old u).rd f = u.rd f := by
  have e0 : u.selfSync = u.refOutSync := by
    have hx : (u.refOutSync.on CLK_STAT_s_src_act && u.refOutSync.grid.run) = false := by
      simp [State.on, State.refOutSync, h.source]
    have hid : u.refOutSync.idle = true := by
      have := h.idle
      simp only [State.acqSt] at this
      simp [State.idle, State.acqSt, State.refOutSync, this]
    rw [State.selfSync, State.extTrack, hx]
    simp [State.keepUp, hid]
  generalize hu : u.refOutSync = r at *
  have hr : ∃ b, r = { u with tmb := b } := ⟨_, hu.symm⟩
  obtain ⟨b, rfl⟩ := hr
  have hq : ({ u with tmb := b } : State).acqSt = 0 := h.idle
  have hg : ({ u with tmb := b } : State).rd (CLK_x_STAT_gated 2) = 1 := h.gated
  have e6 : State.armSync old { u with tmb := b } = { u with tmb := b } := if_neg fun x => by omega
  have e7 : State.idleSync old { u with tmb := b } = { u with tmb := b } := if_neg fun x => x.1 hi
  have w : ({ u with tmb := b } : State).wakeSync = { u with tmb := b } := by simp [State.wakeSync, h.waking]
  have bo : ({ u with tmb := b } : State).bootSync = { u with tmb := b } := by simp [State.bootSync, h.step2, h.step3]
  have ho : ({ u with tmb := b } : State).hostSync = { u with tmb := b } := by simp [State.hostSync, h.hostReq]
  have he : ({ u with tmb := b } : State).heldSync = { u with tmb := b } := by simp [State.heldSync, h.held]
  have me : ({ u with tmb := b } : State).memSync = { u with tmb := b } := by simp [State.memSync, State.memRuns, hg]
  have se : ({ u with tmb := b } : State).seqSync = { u with tmb := b } := by simp [State.seqSync, h.script, h.runReq]
  have hop : ({ u with tmb := b } : State).hopSync = { u with tmb := b } := by simp [State.hopSync, h.hopWait, h.pending]
  have hv := hrvSync_gated (s := { u with tmb := b }) (hrvRuns_gated hg) h.defer
  simp only [State.settle, e0]
  rw [w, bo, ho, he, me, se, e6, e7, hop]
  generalize ({ u with tmb := b } : State).hrvSync = x at *
  have en : x.startEntry = x := by
    have h1 : x.rd GLB_STAT_mode_pend = 0 := (hv.rd _).trans h.modePend
    have h2 : x.rd GLB_STAT_ret_pend = 0 := (hv.rd _).trans h.retPend
    simp [State.startEntry, State.changeDue, State.returnDue, State.on, h1, h2]
  rw [en, (irqSync_sends x).rd, hv.rd]
  rfl

/-- Where only Harvest's own registers and state may differ, a machine rests as before. -/
theorem Resting.of_ringFrame {s u : State} {n : Nat} {l : List Fld} (h : Resting s) (hf : RingFrame s u n l)
    (hl : ∀ f ∈ [CLK_HOP_pending, GLB_STAT_mode_pend, GLB_STAT_ret_pend, ACQ_STAT_state, CLK_STAT_s_src_act, CLK_x_STAT_gated 2],
      f.key ∉ (l ++ [HRV_BYTES, HRV_POISON_CNT_count, HRV_EVT_poison, HRV_CQm_TAIL_idx (s.rd (HRV_RINGn_CFG_cq n)),
        HRV_CQm_TAIL_phase (s.rd (HRV_RINGn_CFG_cq n)), HRV_RINGn_HEAD_idx n, DMC_RDP_CNT_count]).map Fld.key) : Resting u := by
  obtain ⟨hr, hs⟩ := hf
  have regs : ∀ f ∈ [CLK_HOP_pending, GLB_STAT_mode_pend, GLB_STAT_ret_pend, ACQ_STAT_state, CLK_STAT_s_src_act, CLK_x_STAT_gated 2], u.rd f = s.rd f :=
    fun f hx => hr f (hl f hx)
  simp only [List.forall_mem_cons, List.not_mem_nil, false_imp_iff, implies_true, and_true] at regs
  obtain ⟨hp, hm, hrp, ha, hx, hgt⟩ := regs
  rw [sameRest_iff] at hs
  obtain ⟨_, _, held, _, _, _, _, _, clk, _, acq, _, _, _, _, _, _, _, _, _, hks, _⟩ := hs
  have held' : u.held = s.held := held
  have clk' : u.clk = s.clk := clk
  have acq' : u.acq = s.acq := acq
  have hks' : u.hks = s.hks := hks
  exact ⟨hks' ▸ h.waking, hks' ▸ h.step2, hks' ▸ h.step3, hks' ▸ h.hostReq, held' ▸ h.held, hks' ▸ h.script, hks' ▸ h.runReq, clk' ▸ h.hopWait,
    hp ▸ h.pending, hm ▸ h.modePend, hrp ▸ h.retPend, ha.trans h.idle, hx ▸ h.source, hgt ▸ h.gated, acq' ▸ h.defer⟩

/-- A machine whose host is there and whose ring 0 is enabled, its size at 2^5. -/
def wideRing : State :=
  { State.reset with
    hks := { Hks.new with rails := true }, hrv := { State.reset.hrv with link := some (16, 5) },
    fields := [(HKS_BOOT_done.key, 1), ((CLK_x_STAT_gated 1).key, 0), ((CLK_x_STAT_gated 2).key, 1), ((HRV_RINGn_CFG_en 0).key, 1),
      ((HRV_RINGn_CFG_size 0).key, 2 ^ 5)] }

theorem reaches_wideRing : Reaches .host (HRV_RINGn_CFG_en 0).addr wideRing := ⟨rfl, by decide, rfl, by decide⟩

theorem slotFree_wideRing : SlotFree wideRing := fun c h => by simp [wideRing, State.reset, Inp.new] at h

theorem resting_wideRing : Resting wideRing := by constructor <;> decide

theorem resting_disabled : Resting (State.writeAt .host (HRV_RINGn_CFG_en 0).addr 0 0 wideRing) := by constructor <;> decide

theorem exec_ringDisable_wideRing : exec (.ringDisable .host 0 0 0) wideRing
    = .next (State.settle wideRing (State.writeAt .host (HRV_RINGn_CFG_en 0).addr 0 0 wideRing)) := by
  rw [exec_ringDisable, State.performAt, perform_next _ _ rfl, reached_free _ _ slotFree_wideRing]
  rfl

/-- Refutes O44: a ring that is disabled is said to keep its size, while the model writes the size back cut to its 5 bits. On a machine
whose ring holds a size of 2^5 (`wideRing`), which the statement admits although the field does not, they differ, and nothing that
follows the command can make them agree: Harvest stands still there. On machines whose registers hold values of their width they agree. -/
theorem not_ringControl : ¬ Obligations.RingControl := by
  unfold Obligations.RingControl
  intro h
  obtain ⟨hdis, -⟩ := (h wideRing 0).1 .host 0 0 reaches_wideRing
  obtain ⟨u, hu, -, -, -, -, -, hsize, -, -, -, hframe⟩ := (hdis (by decide)).becomes slotFree_wideRing exec_ringDisable_wideRing
  have hrest : Resting u := resting_wideRing.of_ringFrame hframe (by decide)
  have hsame : u.rd (HRV_RINGn_CFG_size 0) = (State.writeAt .host (HRV_RINGn_CFG_en 0).addr 0 0 wideRing).rd (HRV_RINGn_CFG_size 0) := by
    rw [← rd_settle_resting (old := wideRing) hrest (by decide), hu, rd_settle_resting resting_disabled (by decide)]
  exact absurd (hsize.symm.trans hsame) (by decide)

end Sys2Proof
end

