-- ==== Sys2Proof/Proofs/TrellisInputsAndChecks.lean ====
section
/-! SUPPORT. Trellis pulses, timers and inputs, and the checks of its program and of the Hedge rules: the statement of O28. -/

namespace Sys2Proof.Machine

/-! ### A bit set or cleared by its weight -/

theorem bit_join_lt {i q r : Nat} (hr : r < 2 ^ i) (j : Nat) : bit (2 ^ i * q + r) j = if j < i then bit r j else bit q (j - i) := by
  simp only [bit_eq_testBit, Nat.testBit_two_pow_mul_add q hr]

/-- A bit that is 0 is set by adding its weight. -/
theorem bit_add_two_pow {x i : Nat} (h : bit x i = false) (j : Nat) : bit (x + 2 ^ i) j = if j = i then true else bit x j := by
  have hr : x % 2 ^ i < 2 ^ i := Nat.mod_lt _ (Nat.two_pow_pos i)
  have hq : x / 2 ^ i % 2 = 0 := by
    have := decide_eq_false_iff_not.1 h
    omega
  have hx : x = 2 ^ i * (x / 2 ^ i) + x % 2 ^ i := (Nat.div_add_mod x _).symm
  have hy : x + 2 ^ i = 2 ^ i * (x / 2 ^ i + 1) + x % 2 ^ i := by rw [Nat.mul_add]; omega
  rw [hy, bit_join_lt hr]
  conv_rhs => rw [hx, bit_join_lt hr]
  by_cases hj : j < i
  · rw [if_pos hj, if_pos hj, if_neg (Nat.ne_of_lt hj)]
  · rw [if_neg hj, if_neg hj]
    obtain ⟨k, rfl⟩ := Nat.exists_eq_add_of_le (Nat.le_of_not_lt hj)
    rw [Nat.add_sub_cancel_left]
    cases k with
    | zero => rw [if_pos (Nat.add_zero i), bit]; exact decide_eq_true (by omega)
    | succ k =>
      rw [if_neg (by omega), bit_eq_testBit, bit_eq_testBit, Nat.testBit_add_one, Nat.testBit_add_one]
      congr 1
      omega

/-- A bit that is 1 is cleared by taking its weight away. -/
theorem bit_sub_two_pow {x i : Nat} (h : bit x i = true) (j : Nat) : bit (x - 2 ^ i) j = if j = i then false else bit x j := by
  have hq : x / 2 ^ i % 2 = 1 := of_decide_eq_true h
  have hle : 2 ^ i ≤ x := by
    by_contra hlt
    rw [Nat.div_eq_of_lt (Nat.lt_of_not_le hlt)] at hq
    omega
  have hy : bit (x - 2 ^ i) i = false := by
    have hd : (x - 2 ^ i) / 2 ^ i = x / 2 ^ i - 1 := by
      have := Nat.sub_mul_div x (2 ^ i) 1
      rwa [Nat.mul_one] at this
    rw [bit, hd]
    exact decide_eq_false (by omega)
  have hj := bit_add_two_pow hy j
  rw [Nat.sub_add_cancel hle] at hj
  by_cases hji : j = i
  · rw [if_pos hji, hji, hy]
  · rw [if_neg hji, hj, if_neg hji]

/-! ### What the checks read -/

/-- A machine whose registers above the address `a` read as those of another. -/
def SameAbove (a : Nat) (s u : State) : Prop := ∀ f : Fld, a + 4 ≤ f.addr → u.rd f = s.rd f

section

variable {s u : State} (h : SameAbove TRL_CFG_start_level.addr s u)

include h

theorem brs_same : u.brs = s.brs := by
  have he : ∀ i j, u.rd (TRL_Ln_BRb_COND_en i j) = s.rd (TRL_Ln_BRb_COND_en i j) := fun i j => h _ (by simp only [TRL_Ln_BRb_COND_en, TRL_CFG_start_level]; omega)
  simp only [State.brs, State.on, he]

theorem brTerms_same (p : Nat × Nat) : u.brTerms p = s.brTerms p := by
  have hs : u.rd (TRL_Ln_BRb_COND_sel p.1 p.2) = s.rd (TRL_Ln_BRb_COND_sel p.1 p.2) := h _ (by simp only [TRL_Ln_BRb_COND_sel, TRL_CFG_start_level]; omega)
  simp only [State.brTerms, hs]

theorem term_same (l t : Nat) : u.rd (TRL_Ln_TERMt_kind l t) = s.rd (TRL_Ln_TERMt_kind l t) ∧ u.rd (TRL_Ln_TERMt_idx l t) = s.rd (TRL_Ln_TERMt_idx l t) :=
  ⟨h _ (by simp only [TRL_Ln_TERMt_kind, TRL_CFG_start_level]; omega), h _ (by simp only [TRL_Ln_TERMt_idx, TRL_CFG_start_level]; omega)⟩

theorem chain_same (n l : Nat) : u.chain n l = s.chain n l := by
  induction n generalizing l with
  | zero => rfl
  | succ n ih =>
    have h1 : u.rd (TRL_Ln_CFG_same_sample l) = s.rd (TRL_Ln_CFG_same_sample l) := h _ (by simp only [TRL_Ln_CFG_same_sample, TRL_CFG_start_level]; omega)
    have h2 : ∀ b, u.rd (TRL_Ln_BRb_COND_en l b) = s.rd (TRL_Ln_BRb_COND_en l b) := fun b => h _ (by simp only [TRL_Ln_BRb_COND_en, TRL_CFG_start_level]; omega)
    have h3 : ∀ b, u.rd (TRL_Ln_BRb_COND_goto l b) = s.rd (TRL_Ln_BRb_COND_goto l b) := fun b => h _ (by simp only [TRL_Ln_BRb_COND_goto, TRL_CFG_start_level]; omega)
    have h4 : ∀ b, u.rd (TRL_Ln_BRb_COND_target l b) = s.rd (TRL_Ln_BRb_COND_target l b) := fun b =>
      h _ (by simp only [TRL_Ln_BRb_COND_target, TRL_CFG_start_level]; omega)
    simp only [State.chain, State.on, h1, h2, h3, h4, ih]

/-- The actions of a branch. -/
theorem action_same (l b : Nat) : ∀ f ∈ [TRL_Ln_BRb_ACT_qual_on l b, TRL_Ln_BRb_ACT_qual_off l b, TRL_Ln_BRb_ACT_tm_start l b, TRL_Ln_BRb_ACT_tm_stop l b,
    TRL_Ln_BRb_ACT_tm_clr l b, TRL_Ln_BRb_ARG_tm_idx l b, TRL_Ln_BRb_ACT_xtrig l b, TRL_Ln_BRb_ARG_xmask l b], u.rd f = s.rd f := by
  simp only [List.forall_mem_cons, List.not_mem_nil, false_imp_iff, implies_true, and_true]
  refine ⟨h _ ?_, h _ ?_, h _ ?_, h _ ?_, h _ ?_, h _ ?_, h _ ?_, h _ ?_⟩ <;>
    simp only [TRL_Ln_BRb_ACT_qual_on, TRL_Ln_BRb_ACT_qual_off, TRL_Ln_BRb_ACT_tm_start, TRL_Ln_BRb_ACT_tm_stop, TRL_Ln_BRb_ACT_tm_clr,
      TRL_Ln_BRb_ARG_tm_idx, TRL_Ln_BRb_ACT_xtrig, TRL_Ln_BRb_ARG_xmask, TRL_CFG_start_level] <;> omega

theorem named_same (kind n : Nat) : u.named kind n = s.named kind n := by
  have ht := term_same h
  have ha := action_same h
  simp only [List.forall_mem_cons, List.not_mem_nil, false_imp_iff, implies_true, and_true] at ha
  simp only [State.named, State.brTimer, State.on, brs_same h, brTerms_same h, ht, ha]

theorem trlFaults_same (c : Nat) : u.trlFaults c = s.trlFaults c := by
  have ht := term_same h
  have ha := action_same h
  simp only [List.forall_mem_cons, List.not_mem_nil, false_imp_iff, implies_true, and_true] at ha
  have hu : ∀ n, u.rd (TRL_TMn_CFG_unit n) = s.rd (TRL_TMn_CFG_unit n) := fun n => h _ (by simp only [TRL_TMn_CFG_unit, TRL_CFG_start_level]; omega)
  have hw : ∀ n, u.rd (TRL_WCn_CFG_src n) = s.rd (TRL_WCn_CFG_src n) := fun n => h _ (by simp only [TRL_WCn_CFG_src, TRL_CFG_start_level]; omega)
  have hv : u.rd GRF_UNIT_ID_valid = s.rd GRF_UNIT_ID_valid := h _ (by decide)
  unfold State.trlFaults
  split <;> simp only [State.on, State.termBad, brs_same h, brTerms_same h, chain_same h, named_same h, ht, ha, hu, hw, hv]
  rfl

theorem trlFault_same : u.trlFault = s.trlFault := by simp only [State.trlFault, trlFaults_same h]

end

/-- The settings of a rule but its set. -/
def ruleFlds (n : Nat) : List Fld := [HDG_MKn_CFG_en n, HDG_MKn_HOR_value n, HDG_MKn_CFG_w0_en n, HDG_MKn_CFG_w1_en n, HDG_MKn_CFG_z0_en n,
  HDG_MKn_CFG_z1_en n, HDG_MKn_CFG_req0 n, HDG_MKn_W0A_value n, HDG_MKn_W0B_value n, HDG_MKn_W1A_value n, HDG_MKn_W1B_value n, HDG_MKn_Z0C_value n,
  HDG_MKn_Z0D_value n, HDG_MKn_Z1C_value n, HDG_MKn_Z1D_value n, HDG_MKn_CFG_ref_ch n]

section

variable {s u : State} (h : SameAbove HDG_CTL_en.addr s u)

include h

theorem ruleRegs_same (n : Nat) : ∀ f ∈ ruleFlds n, u.rd f = s.rd f := by
  simp only [ruleFlds, List.forall_mem_cons, List.not_mem_nil, false_imp_iff, implies_true, and_true]
  refine ⟨h _ ?_, h _ ?_, h _ ?_, h _ ?_, h _ ?_, h _ ?_, h _ ?_, h _ ?_, h _ ?_, h _ ?_, h _ ?_, h _ ?_, h _ ?_, h _ ?_, h _ ?_, h _ ?_⟩ <;>
    simp only [HDG_MKn_CFG_en, HDG_MKn_HOR_value, HDG_MKn_CFG_w0_en, HDG_MKn_CFG_w1_en, HDG_MKn_CFG_z0_en, HDG_MKn_CFG_z1_en, HDG_MKn_CFG_req0,
      HDG_MKn_W0A_value, HDG_MKn_W0B_value, HDG_MKn_W1A_value, HDG_MKn_W1B_value, HDG_MKn_Z0C_value, HDG_MKn_Z0D_value, HDG_MKn_Z1C_value,
      HDG_MKn_Z1D_value, HDG_MKn_CFG_ref_ch, HDG_CTL_en] <;> omega

theorem ruleFault_same (hb : u.build = s.build) (n : Nat) : u.ruleFault n = s.ruleFault n := by
  have hon : ∀ f ∈ ruleFlds n, u.on f = s.on f := fun f hf => congrArg (fun v => decide (v = 1)) (ruleRegs_same h n f hf)
  have hsx : ∀ f ∈ ruleFlds n, u.rdS f = s.rdS f := fun f hf => congrArg (sx f.w) (ruleRegs_same h n f hf)
  have hs : ∀ j, u.rd (HDG_MKn_SET_bits n j) = s.rd (HDG_MKn_SET_bits n j) := fun j => h _ (by simp only [HDG_MKn_SET_bits, HDG_CTL_en]; omega)
  have hc : u.chSet (HDG_MKn_SET_bits n) = s.chSet (HDG_MKn_SET_bits n) := List.filter_congr fun c _ => by rw [State.chBit, State.chBit, hs]
  have hn : u.nChan = s.nChan := by rw [State.nChan, State.nChan, State.is512, State.is512, hb]
  have hr := ruleRegs_same h n
  simp only [ruleFlds, List.forall_mem_cons, List.not_mem_nil, false_imp_iff, implies_true, and_true] at hr hon hsx
  obtain ⟨_, _, o1, o2, o3, o4, o5, _⟩ := hon
  obtain ⟨_, _, _, _, _, _, _, _, _, _, _, x1, _, x2, _⟩ := hsx
  obtain ⟨_, r1, _, _, _, _, _, r2, r3, r4, r5, _, r6, _, r7, r8⟩ := hr
  have hm : u.mkSet n = s.mkSet n := by rw [State.mkSet, State.mkSet, hc, r8]
  unfold State.ruleFault
  rw [hm, o1, o2, o3, o4, o5, x1, x2, r1, r2, r3, r4, r5, r6, r7, r8, hn]

theorem hdgFault_same (hb : u.build = s.build) : u.hdgFault = s.hdgFault := by
  have he : ∀ n, u.rd (HDG_MKn_CFG_en n) = s.rd (HDG_MKn_CFG_en n) := fun n => ruleRegs_same h n _ List.mem_cons_self
  simp only [State.hdgFault, State.on, ruleFault_same h hb, he]

end

/-! ### Edges of the external inputs -/

/-- A line of the external inputs is no channel of a capture: Hedge judges no edge of it. -/
theorem hedgeEdges_line (s : State) (e : HeldE) (h : 1024 ≤ e.ch) : s.hedgeEdges [e] = s := by
  have hc : s.captured e.ch = false := by
    have hn : s.nChan ≤ 1024 := by
      unfold State.nChan
      split <;> omega
    simp only [State.captured, Bool.and_eq_false_iff, decide_eq_false_iff_not]
    exact .inl (by omega)
  have he : ∀ ref, s.hedgeEdge ref e = s := fun ref => by rw [State.hedgeEdge, if_pos (by rw [hc]; simp)]
  simp only [State.hedgeEdges, List.foldl_cons, List.foldl_nil, he]

theorem lateViolation_line (s : State) (e : HeldE) (h : 1024 ≤ e.ch) : s.lateViolation e = s := by
  unfold State.lateViolation
  split
  · refine if_neg fun hv => ?_
    obtain ⟨_, _, hnone, hsome⟩ := hv
    rw [hedgeEdges_line _ _ h] at hsome
    have hs : s.hdg.tail.isSome = true := hsome
    rw [Option.isNone_iff_eq_none.1 hnone] at hs
    exact absurd hs (by decide)
  · rfl

theorem holdEdge_line (s : State) (e : HeldE) (h : 1024 ≤ e.ch) : ∃ l, s.holdEdge e = { s with inp := { s.inp with hold := l } } := by
  unfold State.holdEdge
  split
  · exact ⟨_, rfl⟩
  · exact ⟨s.inp.hold, lateViolation_line s e h⟩

/-- The levels of the external inputs after an edge. -/
def lvlAfter (lvl i : Nat) (up : Bool) : Nat := if up then lvl + 2 ^ i else lvl - 2 ^ i

theorem bit_lvlAfter {lvl i : Nat} {up : Bool} (h : ¬bit lvl i = up) (j : Nat) : bit (lvlAfter lvl i up) j = if j = i then up else bit lvl j := by
  unfold lvlAfter
  cases up with
  | true => exact bit_add_two_pow (by simpa using h) j
  | false => exact bit_sub_two_pow (by simpa using h) j

theorem State.gateInputEdge_none (s : State) (i t : Nat) (up : Bool) (h : s.lands = false ∨ bit s.trl.lvl i = up) : State.gateInputEdge i up t s = s.advance t := by
  have hc : bit (s.advance t).trl.lvl i = up ∨ (!(s.advance t).lands) = true := by
    rw [s.advance_trl, State.advance_lands]
    exact h.symm.imp id fun hl => by rw [hl]; rfl
  rw [State.gateInputEdge]
  exact if_pos hc

theorem State.gateInputEdge_moves (s : State) (i t : Nat) (up : Bool) (hl : s.lands = true) (hb : ¬bit s.trl.lvl i = up) : ∃ l e,
    State.gateInputEdge i up t s = { s.advance t with inp := { s.inp with hold := l }, trl := { s.trl with lvl := lvlAfter s.trl.lvl i up, ext := e } }
      ∧ (i < 4 → l = s.inp.hold) := by
  have hc : ¬(bit (s.advance t).trl.lvl i = up ∨ (!(s.advance t).lands) = true) := by
    rw [s.advance_trl, State.advance_lands, hl]
    exact fun k => k.elim hb (by decide)
  rw [State.gateInputEdge]
  dsimp only
  rw [if_neg hc]
  have hi := s.advance_inp t
  have ht := s.advance_trl t
  generalize s.advance t = v at hi ht ⊢
  rw [← hi, ← ht]
  split
  · next h4 =>
    obtain ⟨l, h⟩ := holdEdge_line { v with trl := { v.trl with lvl := lvlAfter v.trl.lvl i up, ext := if v.armed then ⟨t, i, up⟩ :: v.trl.ext else v.trl.ext } }
      ⟨t, 1024 + (i - 4), up, false⟩ (Nat.le_add_right _ _)
    exact ⟨l, _, h, fun h' => absurd h' (by omega)⟩
  · exact ⟨v.inp.hold, _, rfl, fun _ => rfl⟩

end Sys2Proof.Machine

namespace Sys2Proof

open Machine

/-- Two changes one after the other. -/
theorem SameRegs.append {s u v : State} {l m : List Fld} (h : SameRegs s u l) (k : SameRegs u v m) : SameRegs s v (l ++ m) := fun f hf => by
  rw [List.map_append, List.mem_append, not_or] at hf
  exact (k f hf.2).trans (h f hf.1)

/-! ### The checks -/

/-- What a write of TRL_CFG stores. -/
def trlCfgFlds : List Fld := [TRL_CFG_start_level, TRL_CFG_qual_reset, TRL_CFG_rearm_restart]

/-- What the program check writes. -/
def trlChkFlds : List Fld := [TRL_CHK_valid, TRL_CHK_code, TRL_CHK_level, TRL_CHK_item, TRL_EVT_chk_done]

theorem idle_of_acqSt {s : State} (h : s.acqSt = 0) : s.idle = true := decide_eq_true h

theorem closed_idle {s : State} {a : Nat} (h : s.acqSt = 0) : s.closed a = false := by
  rw [State.closed, idle_of_acqSt h]
  rfl

/-- A register that nothing keeps open is closed while acquisition is not idle. -/
theorem closed_busy {s : State} {a : Nat} (h : s.acqSt ≠ 0) (ha : 5 ≤ a / 0x10000 ∧ a / 0x10000 ≤ 10) (ho : openRegs.contains a = false)
    (hr : (regAt a).isSome = true) : s.closed a = true := by
  rw [State.closed, State.idle, decide_eq_false h, decide_eq_true ha.1, decide_eq_true ha.2, ho, hr]
  rfl

theorem trlCheck_shows (s : State) :
    (s.trlCheck.rd TRL_CHK_valid = 1 ∧ s.trlCheck.rd TRL_EVT_chk_done = 1 ∧ s.trlCheck.rd TRL_CHK_code = s.trlFault.1 % 2 ^ 8
      ∧ s.trlCheck.rd TRL_CHK_level = s.trlFault.2.1 % 16 ∧ s.trlCheck.rd TRL_CHK_item = s.trlFault.2.2 % 16)
    ∧ SameRegs s s.trlCheck trlChkFlds ∧ ∃ F, s.trlCheck = { s with fields := F } := by
  have he : s.trlCheck = ((((s.wr TRL_CHK_valid 1).wr TRL_CHK_code s.trlFault.1).wr TRL_CHK_level s.trlFault.2.1).wr TRL_CHK_item s.trlFault.2.2).orF
      TRL_EVT_chk_done 1 := rfl
  rw [he]
  generalize s.trlFault = q
  refine ⟨⟨?_, rd_orF_bit _ _ true rfl rfl, ?_, ?_, ?_⟩, fun f hf => ?_, _, rfl⟩
  · simp (disch := decide) only [rd_orF_ne, State.rd_wr_ne, State.rd_wr_same]
    rfl
  · simp (disch := decide) only [rd_orF_ne, State.rd_wr_ne, State.rd_wr_same]
    rfl
  · simp (disch := decide) only [rd_orF_ne, State.rd_wr_ne, State.rd_wr_same]
    rfl
  · simp (disch := decide) only [rd_orF_ne, State.rd_wr_same]
    rfl
  · simp only [trlChkFlds, List.map_cons, List.map_nil, List.mem_cons, List.not_mem_nil, or_false, not_or] at hf
    obtain ⟨h1, h2, h3, h4, h5⟩ := hf
    rw [rd_orF_ne _ _ _ _ (Ne.symm h5), State.rd_wr_ne _ _ _ _ (Ne.symm h4), State.rd_wr_ne _ _ _ _ (Ne.symm h3), State.rd_wr_ne _ _ _ _ (Ne.symm h2),
      State.rd_wr_ne _ _ _ _ (Ne.symm h1)]

/-- What a write of HDG_CTL stores. -/
def hdgCtlFlds : List Fld := [HDG_CTL_en]

/-- What the rule check writes. -/
def hdgChkFlds : List Fld := [HDG_CHK_valid, HDG_CHK_code, HDG_CHK_rule, HDG_EVT_chk_done]

theorem hdgCheck_shows (s : State) :
    (s.hdgCheck.rd HDG_CHK_valid = 1 ∧ s.hdgCheck.rd HDG_EVT_chk_done = 1 ∧ s.hdgCheck.rd HDG_CHK_code = s.hdgFault.1 % 2 ^ 8
      ∧ s.hdgCheck.rd HDG_CHK_rule = s.hdgFault.2 % 2 ^ 6)
    ∧ SameRegs s s.hdgCheck hdgChkFlds ∧ ∃ F, s.hdgCheck = { s with fields := F } := by
  have he : s.hdgCheck = (((s.wr HDG_CHK_valid 1).wr HDG_CHK_code s.hdgFault.1).wr HDG_CHK_rule s.hdgFault.2).orF HDG_EVT_chk_done 1 := rfl
  rw [he]
  generalize s.hdgFault = q
  refine ⟨⟨?_, rd_orF_bit _ _ true rfl rfl, ?_, ?_⟩, fun f hf => ?_, _, rfl⟩
  · simp (disch := decide) only [rd_orF_ne, State.rd_wr_ne, State.rd_wr_same]
    rfl
  · simp (disch := decide) only [rd_orF_ne, State.rd_wr_ne, State.rd_wr_same]
    rfl
  · simp (disch := decide) only [rd_orF_ne, State.rd_wr_same]
    rfl
  · simp only [hdgChkFlds, List.map_cons, List.map_nil, List.mem_cons, List.not_mem_nil, or_false, not_or] at hf
    obtain ⟨h1, h2, h3, h4⟩ := hf
    rw [rd_orF_ne _ _ _ _ (Ne.symm h4), State.rd_wr_ne _ _ _ _ (Ne.symm h3), State.rd_wr_ne _ _ _ _ (Ne.symm h2), State.rd_wr_ne _ _ _ _ (Ne.symm h1)]

/-- The registers above a control register read as before what is stored in it. -/
theorem sameAbove_stored {l : List Fld} {a : Nat} (v : Nat) (s : State) (p : Port) (h : ∀ f ∈ l, f.key < 8 * a + 32) : SameAbove a s (stored l v s p) :=
  fun f hf => rd_stored_ne v s p fun hm => by
    obtain ⟨g, hg, hk⟩ := List.mem_map.1 hm
    have := h g hg
    rw [hk, Fld.key] at this
    omega

theorem build_stored (l : List Fld) (v : Nat) (s : State) (p : Port) : (stored l v s p).build = s.build := by
  obtain ⟨F, b, h⟩ := stored_moves l v s p
  rw [h]

theorem bit0_of_command {v : Nat} : (v ||| 1) % 2 = 1 := by
  have := or_bit v 0 0
  rwa [Nat.pow_zero, Nat.div_one] at this

theorem portWrite_trlCheck {s : State} {p : Port} (v : Word) (h : Reaches p TRL_CFG_check.addr s) (hi : s.acqSt = 0) :
    State.portWrite p TRL_CFG_check.addr 15 (v.toNat ||| 1) s
      = State.reSignal TRL_CFG_check.addr (stored trlCfgFlds (v.toNat ||| 1) s p).trlCheck := by
  have he : ∀ w bm old u, State.effect p TRL_CFG_check.addr w bm old u
      = if TRL_CFG_check.addr = TRL_CFG_check.addr ∧ TRL_CFG_check.of w = 1 then u.trlCheck else u := fun _ _ _ _ => rfl
  have h1 : TRL_CFG_check.of (v.toNat ||| 1) = 1 := by
    show (v.toNat ||| 1) / 2 ^ 0 % 2 ^ 1 = 1
    rw [Nat.pow_zero, Nat.div_one]
    exact bit0_of_command
  have hv : v.toNat ||| 1 < 2 ^ 32 := word_or_lt v (k := 0) (by decide)
  rw [portWrite_stores p _ _ s trlCfgFlds h hv (by decide) (by decide) (closed_idle hi) rfl (by rfl), he, if_pos ⟨rfl, h1⟩]

theorem portWrite_hdgCheck {s : State} {p : Port} (v : Word) (h : Reaches p HDG_CTL_check.addr s) (hi : s.acqSt = 0) :
    State.portWrite p HDG_CTL_check.addr 15 (v.toNat ||| 1) s
      = State.reSignal HDG_CTL_check.addr (stored hdgCtlFlds (v.toNat ||| 1) s p).hdgCheck := by
  have he : ∀ w bm old u, State.effect p HDG_CTL_check.addr w bm old u
      = if HDG_CTL_check.addr = HDG_CTL_check.addr ∧ HDG_CTL_check.of w = 1 then u.hdgCheck else u := fun _ _ _ _ => rfl
  have h1 : HDG_CTL_check.of (v.toNat ||| 1) = 1 := by
    show (v.toNat ||| 1) / 2 ^ 0 % 2 ^ 1 = 1
    rw [Nat.pow_zero, Nat.div_one]
    exact bit0_of_command
  have hv : v.toNat ||| 1 < 2 ^ 32 := word_or_lt v (k := 0) (by decide)
  rw [portWrite_stores p _ _ s hdgCtlFlds h hv (by decide) (by decide) (closed_idle hi) rfl (by rfl), he, if_pos ⟨rfl, h1⟩]

/-- A block that is closed only says so. -/
theorem usedBy_wr_keeps (s : State) (p : Port) (f : Fld) (v : Nat) : SameRegs s ((s.usedBy p).wr f v) [f] ∧ SameRest s ((s.usedBy p).wr f v) := by
  refine ⟨?_, ?_⟩
  · rw [sameRegs_wr v List.mem_cons_self, sameRegs_usedBy]
    exact sameRegs_self s _
  · rw [sameRest_wr]
    exact sameRest_used s p

/-- Settles O28: each command is the machine at its instant with the one change the statement names; of an edge of an external input Hedge judges
nothing, and a check reads no register that its own write stores. -/
theorem trellisInputsAndChecks : Obligations.TrellisInputsAndChecks := by
  unfold Obligations.TrellisInputsAndChecks
  refine ⟨fun s t hp => ⟨fun n e he hle => ?_, fun n => ?_, fun i rising => ?_⟩, fun s p v => ⟨fun hr => ⟨fun hi => ?_, fun hb => ?_⟩, fun hr => ⟨fun hi => ?_, fun hb => ?_⟩⟩⟩
  · refine .of_performOnAt (exec_trigOutPulseEnd n t s) hp ?_
    rw [State.pulseEnd, he]
    dsimp only
    rw [if_pos hle]
    generalize State.upTo t s = s0
    exact ⟨look_del_same _ _, fun m hm => look_del_ne _ _ _ (Ne.symm hm), rfl, fun _ _ => rfl, sameRest_mk_hrv s0 _ _ _⟩
  · refine .of_performOnAt (exec_timerLimitReached n t s) hp ⟨rfl, fun k hu hle => ?_⟩
    exact (if_neg hu).trans (decide_eq_true hle)
  · refine .of_performOnAt (exec_gateInputEdge i rising t s) hp ?_
    by_cases hx : s.lands = false ∨ bit s.trl.lvl i.val = rising
    · obtain ⟨ht, hregs, hrest⟩ := unchanged_advance s t
      rw [State.gateInputEdge_none s i.val t rising hx]
      have hi := s.advance_inp t
      have hl := s.advance_trl t
      obtain ⟨b, hb, _⟩ := s.advance_moves t
      refine ⟨fun hland => ?_, hregs, ?_, fun _ => hi, fun _ => hrest, ht⟩
      · rw [hl]
        exact ⟨hx.resolve_left (by simp [hland]), fun _ _ => rfl⟩
      · rw [hb]
        exact sameRest_mk_hrv s _ _ _
    · rw [not_or, Bool.not_eq_false] at hx
      obtain ⟨hland, hne⟩ := hx
      obtain ⟨l, e, h, hl⟩ := s.gateInputEdge_moves i.val t rising hland hne
      obtain ⟨b, hb, hkt⟩ := s.advance_moves t
      rw [h, hb]
      refine ⟨fun _ => ⟨?_, fun j hj => ?_⟩, fun _ _ => rfl, sameRest_mk_hrv s _ _ _, fun h4 => ?_, fun hc => ?_, hkt⟩
      · exact (bit_lvlAfter hne _).trans (if_pos rfl)
      · exact (bit_lvlAfter hne _).trans (if_neg hj)
      · rw [hl h4]
      · exact absurd hc (by simp [hland, hne])
  · refine .of_perform (exec_programCheck p v s) hr.1 ?_
    rw [portWrite_trlCheck v hr hi]
    have hf : (stored trlCfgFlds (v.toNat ||| 1) s p).trlFault = s.trlFault := trlFault_same (sameAbove_stored _ s p (by decide))
    obtain ⟨hs, hregs, F, hF⟩ := trlCheck_shows (stored trlCfgFlds (v.toNat ||| 1) s p)
    have hst : SameRegs s (stored trlCfgFlds (v.toNat ||| 1) s p) trlCfgFlds := sameRegs_stored _ p (List.Subset.refl _)
    have hrest := sameRest_stored trlCfgFlds (v.toNat ||| 1) s p
    rw [hf] at hs
    obtain ⟨h1, h2, h3, h4, h5⟩ := hs
    simp only [State.rd_reSignal]
    refine ⟨h1, h2, h3, h4, h5, ?_, ?_⟩
    · rw [sameRegs_reSignal]
      exact hst.append hregs
    · rw [sameRest_reSignal, hF]
      exact hrest
  · refine .of_perform (exec_programCheck p v s) hr.1 ?_
    rw [portWrite_shut p _ _ _ s hr (by decide) (by decide) (closed_busy hb (by decide) (by decide) (by rfl)), if_pos (by decide)]
    obtain ⟨hregs, hrest⟩ := usedBy_wr_keeps s p TRL_STAT_wr_ign 1
    exact ⟨State.rd_wr_same _ _ _, hregs, hrest⟩
  · refine .of_perform (exec_ruleCheck p v s) hr.1 ?_
    rw [portWrite_hdgCheck v hr hi]
    have hf : (stored hdgCtlFlds (v.toNat ||| 1) s p).hdgFault = s.hdgFault :=
      hdgFault_same (sameAbove_stored _ s p (by decide)) (build_stored _ _ s p)
    obtain ⟨hs, hregs, F, hF⟩ := hdgCheck_shows (stored hdgCtlFlds (v.toNat ||| 1) s p)
    have hst : SameRegs s (stored hdgCtlFlds (v.toNat ||| 1) s p) hdgCtlFlds := sameRegs_stored _ p (List.Subset.refl _)
    have hrest := sameRest_stored hdgCtlFlds (v.toNat ||| 1) s p
    rw [hf] at hs
    obtain ⟨h1, h2, h3, h4⟩ := hs
    simp only [State.rd_reSignal]
    refine ⟨h1, h2, h3, h4, ?_, ?_⟩
    · rw [sameRegs_reSignal]
      exact hst.append hregs
    · rw [sameRest_reSignal, hF]
      exact hrest
  · refine .of_perform (exec_ruleCheck p v s) hr.1 ?_
    rw [portWrite_shut p _ _ _ s hr (by decide) (by decide) (closed_busy hb (by decide) (by decide) (by rfl)), if_neg (by decide), if_pos (by decide)]
    obtain ⟨hregs, hrest⟩ := usedBy_wr_keeps s p HDG_STAT_wr_ign 1
    exact ⟨State.rd_wr_same _ _ _, hregs, hrest⟩

end Sys2Proof
end

