-- ==== Sys2Proof/Proofs/IntervalTimes.lean ====
section
/-! SUPPORT. Ends of loss episodes, timed gates and stale timestamps of the interval unit: the statement of O35. -/

namespace Sys2Proof.Machine

/-! ### Loss episodes -/

/-- The loss episode of `key` is over by `t`. -/
def State.lossDone (s : State) (t key : Nat) : Bool :=
  match look s.tim.loss key with
  | some l => decide (l.last + usF ≤ t)
  | none => false

theorem State.lossOver_done {s : State} {t key : Nat} (h : s.lossDone t key = true) : ∃ l, look s.tim.loss key = some l
    ∧ State.lossOver t s key = { s with tim := { s.tim with loss := del s.tim.loss key, ended := s.tim.ended ++ [(key, l)] } } := by
  unfold State.lossDone at h
  split at h
  · next l hl =>
    refine ⟨l, hl, ?_⟩
    rw [State.lossOver, hl]
    exact if_pos (of_decide_eq_true h)
  · exact absurd h (by decide)

theorem State.lossOver_open {s : State} {t key : Nat} (h : s.lossDone t key = false) : State.lossOver t s key = s := by
  rw [State.lossDone] at h
  rw [State.lossOver]
  cases hl : look s.tim.loss key with
  | none => rfl
  | some l =>
    rw [hl] at h
    exact if_neg (of_decide_eq_false h)

/-- The episodes of `l` that are over end in its order, and no other. -/
theorem lossOvers_shows (t : Nat) (l : List Nat) (hn : l.Nodup) (s : State) :
    (∀ k, look (l.foldl (State.lossOver t) s).tim.loss k = if k ∈ l ∧ s.lossDone t k = true then none else look s.tim.loss k)
      ∧ (l.foldl (State.lossOver t) s).tim.ended
        = s.tim.ended ++ (l.filter (s.lossDone t)).filterMap (fun k => (look s.tim.loss k).map fun x => (k, x))
      ∧ ∃ L E, l.foldl (State.lossOver t) s = { s with tim := { s.tim with loss := L, ended := E } } := by
  induction l generalizing s with
  | nil => exact ⟨fun k => by simp, by simp, s.tim.loss, s.tim.ended, rfl⟩
  | cons a r ih =>
    obtain ⟨ha, hr⟩ := List.nodup_cons.1 hn
    rw [List.foldl_cons]
    cases hd : s.lossDone t a with
    | false =>
      rw [State.lossOver_open hd]
      obtain ⟨h1, h2, h3⟩ := ih hr s
      refine ⟨fun k => ?_, ?_, h3⟩
      · rw [h1]
        refine if_congr ?_ rfl rfl
        rw [List.mem_cons]
        refine ⟨fun h => ⟨.inr h.1, h.2⟩, fun h => ⟨h.1.resolve_left fun e => ?_, h.2⟩⟩
        rw [e, hd] at h
        exact absurd h.2 (by decide)
      · rw [h2, List.filter_cons, hd]
        rfl
    | true =>
      obtain ⟨x, hx, he⟩ := State.lossOver_done hd
      rw [he]
      generalize hv : ({ s with tim := { s.tim with loss := del s.tim.loss a, ended := s.tim.ended ++ [(a, x)] } } : State) = v
      have hsame : ∀ k, k ≠ a → look v.tim.loss k = look s.tim.loss k := fun k hk => by rw [← hv]; exact look_del_ne _ _ _ (Ne.symm hk)
      have hdone : ∀ k, k ≠ a → v.lossDone t k = s.lossDone t k := fun k hk => by simp only [State.lossDone, hsame k hk]
      obtain ⟨h1, h2, L, E, h3⟩ := ih hr v
      refine ⟨fun k => ?_, ?_, L, E, ?_⟩
      · rw [h1]
        by_cases hk : k = a
        · subst hk
          rw [if_neg (fun h => ha h.1), if_pos ⟨List.mem_cons_self, hd⟩, ← hv]
          exact look_del_same _ _
        · rw [hsame k hk, hdone k hk]
          refine if_congr ?_ rfl rfl
          rw [List.mem_cons]
          exact ⟨fun h => ⟨.inr h.1, h.2⟩, fun h => ⟨h.1.resolve_left hk, h.2⟩⟩
      · have hmem : ∀ k ∈ r, k ≠ a := fun k hk e => ha (e ▸ hk)
        have hf : r.filter (v.lossDone t) = r.filter (s.lossDone t) := List.filter_congr fun k hk => hdone k (hmem k hk)
        have hm : (r.filter (s.lossDone t)).filterMap (fun k => (look v.tim.loss k).map fun x => (k, x))
            = (r.filter (s.lossDone t)).filterMap (fun k => (look s.tim.loss k).map fun x => (k, x)) :=
          List.filterMap_congr fun k hk => by rw [hsame k (hmem k (List.mem_filter.1 hk).1)]
        rw [h2, hf, hm, List.filter_cons, if_pos hd, List.filterMap_cons, hx, ← hv]
        simp
      · rw [h3, ← hv]

/-! ### Timed gates -/

theorem insHeld_front (e : HeldE) (l : List HeldE) (h : ∀ x ∈ l, e.t < x.t) : insHeld e l = e :: l := by
  cases l with
  | nil => rfl
  | cons x r => exact if_pos (.inl (h x List.mem_cons_self))

/-- Nothing that is held lies before `t`. -/
theorem timTo_late (t fuel : Nat) (s : State) (h : ∀ x ∈ s.tim.hold, t ≤ x.t) : State.timTo t fuel s = s := by
  cases fuel with
  | zero => rfl
  | succ n =>
    unfold State.timTo
    split
    · rfl
    · next e r he => exact if_pos (h e (he ▸ List.mem_cons_self))

/-- Only the first of what is held lies before `t`. -/
theorem timTo_one {t : Nat} {e : HeldE} {l : List HeldE} {s : State} (he : e.t < t) (hl : ∀ x ∈ l, t ≤ x.t)
    (hk : (State.timAt { s with tim := { s.tim with hold := l } } e.t [e]).tim.hold = l) :
    State.timTo t (e :: l).length { s with tim := { s.tim with hold := e :: l } } = State.timAt { s with tim := { s.tim with hold := l } } e.t [e] := by
  have hne : ∀ x ∈ l, x.t ≠ e.t := fun x hx => by
    have := hl x hx
    omega
  have h1 : (e :: l).filter (fun x => decide (x.t ≠ e.t)) = l := by
    rw [List.filter_cons, if_neg (by simp)]
    exact List.filter_eq_self.2 fun x hx => decide_eq_true (hne x hx)
  have h2 : (e :: l).filter (fun x => decide (x.t = e.t)) = [e] := by
    rw [List.filter_cons, if_pos (by simp)]
    exact congrArg _ (List.filter_eq_nil_iff.2 fun x hx => by simpa using hne x hx)
  rw [List.length_cons, State.timTo]
  dsimp only
  rw [if_neg (Nat.not_le.2 he), h1, h2]
  exact timTo_late _ _ _ (by rw [hk]; exact hl)

/-- The end of a timed gate, taken from the hold, closes it. -/
theorem timAt_gate (s : State) (n t : Nat) (hn : n < 64) : s.timAt t [⟨t, 2048 + n, true, false⟩] = State.timedClose n t 1 s := by
  have h1 : ([⟨t, 2048 + n, true, false⟩] : List HeldE).filter (fun e => decide (2048 ≤ e.ch)) = [⟨t, 2048 + n, true, false⟩] := by
    rw [List.filter_cons, if_pos (by simp), List.filter_nil]
  have h2 : ([⟨t, 2048 + n, true, false⟩] : List HeldE).filter (fun e => isGate e.ch) = [] := by
    rw [List.filter_cons, if_neg (by simp only [isGate, Bool.and_eq_true, decide_eq_true_eq]; omega), List.filter_nil]
  have h3 : ([⟨t, 2048 + n, true, false⟩] : List HeldE).filter (fun e => decide (e.ch < 2048)) = [] := by
    rw [List.filter_cons, if_neg (by simp), List.filter_nil]
  rw [State.timAt, h1, h2, h3]
  simp only [List.foldl_cons, List.foldl_nil, List.map_nil, Nat.add_sub_cancel_left, State.timEdges, List.isEmpty_nil, Bool.or_true, if_true]

/-- The slots of the unit with one more written. -/
theorem slot_setSlot (s : State) (n : Nat) (x : Slot) : (s.setSlot n x).slot n = x := by
  rw [State.slot, State.setSlot, look_ins_same]
  rfl

/-- What closing a gate leaves of the unit: the next gate open, the other slots and the hold as they were, and at most one record more. -/
structure GateClosed (s : State) (n t b : Nat) (rec : Bool) (v : State) : Prop where
  moves : ∃ F T, v = { s with free := F, tim := T } ∧ (rec = false → F = s.free)
  hold : v.tim.hold = s.tim.hold
  gate : (v.slot n).gateAt = some b
  others : ∀ m, m ≠ n → v.slot m = s.slot m
  wait : if rec then ∃ u, v.tim.wait = s.tim.wait ++ [(s.recAt t, n, u)] else v.tim.wait = s.tim.wait

/-- The first record after a gate has opened is not decimated. -/
theorem timRecord_first (s : State) (n t t0 cnt : Nat) (value : Int) (s0 sres sus : Bool) (ends : List (Nat × Stamp)) (h : (s.slot n).dec = 0) :
    ∃ u, s.timRecord n t t0 cnt value s0 sres sus ends = (s.setSlot n { s.slot n with dec := 0 + 1 }).recPace n t u ends := by
  rw [State.timRecord]
  dsimp only
  rw [h, if_neg (by rw [Nat.zero_mod]; decide)]
  exact ⟨_, rfl⟩

theorem gateClosed_record {s v : State} {n t b : Nat} (hm : ∃ F T, v = { s with free := F, tim := T }) (hh : v.tim.hold = s.tim.hold)
    (hw : v.tim.written = s.tim.written) (hq : v.tim.wait = s.tim.wait) (hg : (v.slot n).gateAt = some b) (hd : (v.slot n).dec = 0)
    (ho : ∀ m, m ≠ n → v.slot m = s.slot m) (t0 cnt : Nat) (value : Int) (s0 sres sus : Bool) (ends : List (Nat × Stamp)) :
    GateClosed s n t b true (v.timRecord n t t0 cnt value s0 sres sus ends) := by
  obtain ⟨u, hu⟩ := timRecord_first v n t t0 cnt value s0 sres sus ends hd
  rw [hu]
  obtain ⟨F, T, rfl⟩ := hm
  refine ⟨⟨F, _, rfl, fun h => absurd h (by decide)⟩, hh, ?_, fun m hmn => ?_, u, ?_⟩
  · exact (congrArg Slot.gateAt (slot_setSlot _ n _)).trans hg
  · rw [← ho m hmn]
    exact congrArg (fun o => Option.getD o Slot.idle) (look_ins_ne _ _ _ _ (Ne.symm hmn))
  · have hr : State.recAt (State.setSlot { s with free := F, tim := T } n { State.slot { s with free := F, tim := T } n with dec := 0 + 1 }) t = s.recAt t := by
      rw [State.recAt, State.recAt]
      have : (State.setSlot { s with free := F, tim := T } n { State.slot { s with free := F, tim := T } n with dec := 0 + 1 }).tim.written = s.tim.written := hw
      rw [this]
      rfl
    rw [← hr, ← hq]
    rfl

theorem gateClose_closes (s : State) (n t b g : Nat) (hg : (s.slot n).gateAt = some g) :
    GateClosed s n t b (!(s.slot n).bad) (s.gateClose n t (some b)) := by
  rw [State.gateClose]
  dsimp only
  rw [hg]
  dsimp only [Option.isSome_some, if_true]
  generalize hx : ({ s.slot n with gateAt := some b, first := none, lastE := none, n := 0, bad := false, dec := if true then 0 else (s.slot n).dec } : Slot) = x
  have hxg : x.gateAt = some b := by rw [← hx]
  have hxd : x.dec = 0 := by rw [← hx]; rfl
  have ho : ∀ m, m ≠ n → (s.setSlot n x).slot m = s.slot m := fun m hmn =>
    congrArg (fun o => Option.getD o Slot.idle) (look_ins_ne _ _ _ _ (Ne.symm hmn))
  have hgate : ((s.setSlot n x).slot n).gateAt = some b := by rw [slot_setSlot, hxg]
  have hdec : ((s.setSlot n x).slot n).dec = 0 := by rw [slot_setSlot, hxd]
  cases hb : (s.slot n).bad with
  | true => exact ⟨⟨s.free, _, rfl, fun _ => rfl⟩, rfl, hgate, ho, rfl⟩
  | false =>
    rw [if_neg (by decide)]
    have hrec := fun t0 cnt value s0 sres sus ends =>
      gateClosed_record (s := s) (v := s.setSlot n x) (t := t) ⟨s.free, _, rfl⟩ rfl rfl rfl hgate hdec ho t0 cnt value s0 sres sus ends
    split
    · split
      · exact hrec _ _ _ _ _ _ _
      · exact hrec _ _ _ _ _ _ _
    · exact gateClosed_record (s := s) (v := ((s.setSlot n x).draw 1).2) (t := t) ⟨s.free + 1, _, rfl⟩ rfl rfl rfl hgate hdec ho _ _ _ _ _ _ _

/-- A record unit that is kept, or lost to a full ring. -/
theorem addUnit_moves (s : State) (u : RUnit) : ∃ F A, s.addUnit u = { s with fields := F, acq := A } ∧ SameRegs s (s.addUnit u) [ACQ_LOST] := by
  unfold State.addUnit
  split
  · exact ⟨s.fields, s.acq, rfl, fun _ _ => rfl⟩
  · split
    · exact ⟨_, _, rfl, fun f hf => State.rd_wr_ne _ _ _ _ fun e => hf (by simp [e])⟩
    · exact ⟨s.fields, _, rfl, fun _ _ => rfl⟩

/-- The record that has been due is written and counted, where there is one. -/
theorem timWrite_shows {s : State} {due : Nat × RUnit → Bool} {n : Nat} {l : List (Nat × Nat × RUnit)} {w : Nat} {u : RUnit}
    (hw : s.tim.wait = l ++ [(w, n, u)]) (hl : ∀ p ∈ l, due (p.1, p.2.2) = false) :
    (s.timWrite due).rd (TIM_SLOTn_CNT_count n) = (if due (w, u) = true then (s.rd (TIM_SLOTn_CNT_count n) + 1) % 2 ^ 32 else s.rd (TIM_SLOTn_CNT_count n))
      ∧ SameRegs s (s.timWrite due) [TIM_SLOTn_CNT_count n, ACQ_LOST] ∧ (s.timWrite due).tim.slots = s.tim.slots ∧ (s.timWrite due).tmb = s.tmb := by
  have hf : l.filter (fun p => due (p.1, p.2.2)) = [] := List.filter_eq_nil_iff.2 fun p hp => by rw [hl p hp]; decide
  rw [State.timWrite]
  dsimp only
  have hfil : (l ++ [(w, n, u)]).filter (fun p => due (p.1, p.2.2)) = if due (w, u) then [(w, n, u)] else [] := by
    rw [List.filter_append, hf, List.nil_append, List.filter_cons, List.filter_nil]
  rw [hw, hfil]
  generalize (l ++ [(w, n, u)]).filter (fun p => !due (p.1, p.2.2)) = W
  generalize s.tim.busy.filter (fun b => decide (s.tmb.kt < b.1)) = B
  cases due (w, u) with
  | false => exact ⟨rfl, fun _ _ => rfl, rfl, rfl⟩
  | true =>
    rw [if_pos rfl, if_pos rfl, List.foldl_cons, List.foldl_nil]
    obtain ⟨F, A, h, hregs⟩ := addUnit_moves (({ s with tim := { s.tim with wait := W, busy := B } } : State).bump (TIM_SLOTn_CNT_count n)) u
    have hne : (ACQ_LOST).key ≠ (TIM_SLOTn_CNT_count n).key := by
      simp only [Fld.key, ACQ_LOST, TIM_SLOTn_CNT_count]
      omega
    refine ⟨?_, fun f hf => ?_, ?_, ?_⟩
    · rw [hregs _ (by simpa using Ne.symm hne), State.rd_bump_same]
      rfl
    · simp only [List.map_cons, List.map_nil, List.mem_cons, List.not_mem_nil, or_false, not_or] at hf
      rw [hregs f (by simpa using hf.2)]
      exact State.rd_wr_ne _ _ _ _ (Ne.symm hf.1)
    · rw [h]
      rfl
    · rw [h]
      rfl

/-- The time of the machine at an instant has reached it. -/
theorem upTo_tmb (t : Nat) (s : State) : (State.upTo t s).tmb = (s.advance t).tmb := congrArg Apart.tmb (State.upTo_unhdg t s)

theorem upTo_kt_le (t : Nat) (s : State) : t ≤ (State.upTo t s).tmb.kt := by
  rw [upTo_tmb, State.advance_kt]
  exact Nat.le_max_right _ _

/-- Nothing is due. -/
theorem timWrite_none {s : State} {due : Nat × RUnit → Bool} (hl : ∀ p ∈ s.tim.wait, due (p.1, p.2.2) = false) :
    ∃ W B, s.timWrite due = { s with tim := { s.tim with wait := W, busy := B } } := by
  have hf : s.tim.wait.filter (fun p => due (p.1, p.2.2)) = [] := List.filter_eq_nil_iff.2 fun p hp => by rw [hl p hp]; decide
  rw [State.timWrite]
  dsimp only
  rw [hf]
  exact ⟨_, _, rfl⟩

/-- The machine once the timed gate of slot `n` has closed at `b`, before what has been due is written. -/
def State.gateOver (s : State) (n b : Nat) : State := s.gateClose n b (some b)

/-- A timed gate that ends behind the hold closes at once. -/
theorem timedGate_closes {s : State} {n g : Nat} (hn : n < 64) (hg : (s.slot n).gateAt = some g) (hr : s.on TIM_STAT_running = true)
    (hlt : g + s.gateLen n < s.tmb.kt - alignF) (hh : ∀ x ∈ s.tim.hold, s.tmb.kt - alignF ≤ x.t) :
    (s.timHold [⟨g + s.gateLen n, 2048 + n, true, false⟩]).timKeep = (s.gateOver n (g + s.gateLen n)).timWrite fun p => decide (p.1 ≤ s.tmb.kt) := by
  have hfront : insHeld ⟨g + s.gateLen n, 2048 + n, true, false⟩ s.tim.hold = ⟨g + s.gateLen n, 2048 + n, true, false⟩ :: s.tim.hold :=
    insHeld_front _ _ fun x hx => Nat.lt_of_lt_of_le hlt (hh x hx)
  have hclose : ({ s with tim := { s.tim with hold := s.tim.hold } } : State).timAt (g + s.gateLen n) [⟨g + s.gateLen n, 2048 + n, true, false⟩]
      = s.gateOver n (g + s.gateLen n) := by
    rw [timAt_gate _ _ _ hn]
    show State.timedClose n (g + s.gateLen n) (0 + 1) s = _
    rw [State.timedClose, hg]
    exact if_pos (Nat.le_refl _)
  have hc := gateClose_closes s n (g + s.gateLen n) (g + s.gateLen n) g hg
  have hseen := timTo_one (s := s) (l := s.tim.hold) (e := ⟨g + s.gateLen n, 2048 + n, true, false⟩) hlt hh (by rw [hclose]; exact hc.hold)
  rw [State.timHold, if_pos hr, List.foldl_cons, List.foldl_nil, hfront, State.timKeep, State.timSeen]
  refine (if_pos hr).trans ?_
  exact congrArg (fun v => State.timWrite (fun p => decide (p.1 ≤ s.tmb.kt)) v) (hseen.trans hclose)

/-! ### Stale timestamps -/

/-- The used chunks of the overflow area, brought up to date. -/
theorem qSync_moves (s : State) : (∃ F Q, s.qSync = { s with fields := F, tim := { s.tim with qs := Q } })
    ∧ SameRegs s s.qSync [TIM_OVF_USED_chunks, TIM_STAT_ovf_full, TIM_EVT_ovf_full] := by
  have hregs : ∀ (v : State) (a b : Nat), SameRegs v ((v.wr TIM_OVF_USED_chunks a).wr TIM_STAT_ovf_full b) [TIM_OVF_USED_chunks, TIM_STAT_ovf_full, TIM_EVT_ovf_full] :=
    fun v a b => (SameRegs.wr (SameRegs.refl v _) _ _ (by decide)).wr _ _ (by decide)
  rw [State.qSync]
  dsimp only
  split
  · exact ⟨⟨_, _, rfl⟩, fun f hf => ((hregs _ _ _).wr _ _ (by decide) f hf).trans (State.rd_mk ..)⟩
  · exact ⟨⟨_, _, rfl⟩, fun f hf => (hregs _ _ _ f hf).trans (State.rd_mk ..)⟩

/-- The timestamp may still be matched at `t` (R263). -/
def youngAt (t : Nat) (e : Stamp) : Bool := decide (t < e.t + 2 ^ 55)

/-- The timestamps of a slot that are too old at `t`. -/
def staleCount (t : Nat) (x : Slot) : Nat := (x.starts.filter fun e => !youngAt t e).length + (x.stops.filter fun e => !youngAt t e).length

theorem staleCount_eq (t : Nat) (x : Slot) :
    x.starts.length + x.stops.length - (x.starts.filter (youngAt t)).length - (x.stops.filter (youngAt t)).length = staleCount t x := by
  have h1 := List.length_eq_length_filter_add (l := x.starts) (youngAt t)
  have h2 := List.length_eq_length_filter_add (l := x.stops) (youngAt t)
  unfold staleCount
  omega

theorem timDiscard_shows (s : State) (k : Nat) :
    (s.timDiscard k).rd TIM_DISCARD_count = (if k = 0 then s.rd TIM_DISCARD_count else min (s.rd TIM_DISCARD_count + k) (2 ^ 32 - 1))
      ∧ (k ≠ 0 → (s.timDiscard k).rd TIM_EVT_discard % 2 = 1) ∧ SameRegs s (s.timDiscard k) [TIM_DISCARD_count, TIM_EVT_discard]
      ∧ ∃ F, s.timDiscard k = { s with fields := F } := by
  rw [State.timDiscard]
  split
  · exact ⟨rfl, fun h => absurd ‹_› h, fun _ _ => rfl, s.fields, rfl⟩
  · refine ⟨?_, fun _ => ?_, fun f hf => ?_, _, rfl⟩
    · rw [rd_orF_ne _ _ _ _ (by decide), State.rd_addSat]
      rfl
    · rw [show ((s.addSat TIM_DISCARD_count k).orF TIM_EVT_discard 1).rd TIM_EVT_discard = 1 from rd_orF_bit _ _ true rfl rfl]
    · simp only [List.map_cons, List.map_nil, List.mem_cons, List.not_mem_nil, or_false, not_or] at hf
      rw [rd_orF_ne _ _ _ _ (Ne.symm hf.2), State.rd_addSat_ne _ _ (Ne.symm hf.1)]

/-- The slot without its stale timestamps. -/
def State.dropped (s : State) (n t : Nat) : State :=
  s.setSlot n { s.slot n with starts := (s.slot n).starts.filter (youngAt t), stops := (s.slot n).stops.filter (youngAt t) }

theorem slotStale_eq (s : State) (n t : Nat) : State.slotStale n t s = ((s.dropped n t).timDiscard (staleCount t (s.slot n))).qSync := by
  rw [← staleCount_eq]
  rfl

end Sys2Proof.Machine

namespace Sys2Proof

open Machine

/-- Settles O35: an episode, a timed gate and a slot each end by themselves; a gate whose end lies behind the hold is the first thing the unit
takes, and its record, never decimated, is written as far as the pace allows it. -/
theorem intervalTimes : Obligations.IntervalTimes := by
  unfold Obligations.IntervalTimes
  intro s t hp
  dsimp only
  refine ⟨?_, fun slot g hg hon hsrc hrun hlt hhold hwait => ?_, fun slot hno => ?_, fun slot => ?_⟩
  · refine .of_performOnAt (exec_lossEpisodeEnd t s) hp ?_
    rw [State.lossEnd]
    generalize State.upTo t s = s0
    have hover : ∀ k, s0.lossDone (t - alignF) k = match look s0.tim.loss k with
      | some l => decide (l.last + usF ≤ t - alignF)
      | none => false := fun _ => rfl
    obtain ⟨h1, h2, L, E, h3⟩ := lossOvers_shows (t - alignF) (List.range 5) List.nodup_range s0
    refine ⟨fun k hk ho => ?_, fun k hk ho => ?_, h2, ?_, ?_, ?_⟩
    · rw [h1, if_pos ⟨List.mem_range.2 hk, ho⟩]
    · rw [h1, if_neg fun h => absurd (h.2.symm.trans ((hover k).trans ho)) (by decide)]
    · rw [h3]
    · rw [h3]
      exact fun _ _ => rfl
    · rw [h3]
      exact sameRest_mk_hrv s0 _ _ _
  · refine .of_performOnAt (exec_timedGateClose slot t s) hp ?_
    have hkt : t ≤ (State.upTo t s).tmb.kt := upTo_kt_le t s
    rw [State.timedGate]
    generalize State.upTo t s = s0 at *
    have hc := gateClose_closes s0 slot.val (g + s0.gateLen slot.val) (g + s0.gateLen slot.val) g hg
    rw [hg]
    dsimp only
    rw [if_pos (by rw [hon, hsrc, decide_eq_true (by omega : g + s0.gateLen slot.val ≤ t)]; rfl),
      timedGate_closes slot.isLt hg hrun (Nat.lt_of_lt_of_le hlt (Nat.sub_le_sub_right hkt _)) hhold, State.gateOver]
    obtain ⟨hmoves, _, hgate, hothers, hw⟩ := hc
    have hlate : ∀ p ∈ s0.tim.wait, decide (p.1 ≤ s0.tmb.kt) = false := fun p hp => decide_eq_false (Nat.not_le.2 (hwait p hp))
    generalize s0.gateClose slot.val (g + s0.gateLen slot.val) (some (g + s0.gateLen slot.val)) = v at *
    obtain ⟨F, T, hv, hfree⟩ := hmoves
    cases hb : (s0.slot slot.val).bad with
    | true =>
      rw [hb] at hw
      have hw' : v.tim.wait = s0.tim.wait := hw
      obtain ⟨W, B, hn⟩ := timWrite_none (s := v) (due := fun p => decide (p.1 ≤ s0.tmb.kt)) (by rw [hw']; exact hlate)
      rw [hn]
      refine ⟨hgate, hothers, ?_, fun _ => ⟨?_, ?_⟩, fun h => absurd h (by decide)⟩
      · rw [hv]
      · rw [hv]
        exact fun _ _ => rfl
      · rw [hv, hfree (by rw [hb]; rfl)]
        exact sameRest_mk_hrv s0 _ _ _
    | false =>
      rw [hb] at hw
      obtain ⟨u, hw⟩ := hw
      obtain ⟨hcnt, hregs, hslots, htmb⟩ := timWrite_shows (s := v) (due := fun p => decide (p.1 ≤ s0.tmb.kt)) hw hlate
      have hslot : ∀ m, (v.timWrite fun p => decide (p.1 ≤ s0.tmb.kt)).slot m = v.slot m := fun m => by rw [State.slot, State.slot, hslots]
      have hrd : ∀ f, v.rd f = s0.rd f := fun f => by rw [hv]; rfl
      refine ⟨?_, fun m hm => ?_, ?_, fun h => absurd h (by decide), fun _ => ⟨?_, fun f hf => (hregs f hf).trans (hrd f)⟩⟩
      · rw [hslot, hgate]
      · rw [hslot, hothers m hm]
      · rw [htmb, hv]
      · rw [hcnt, hrd]
        simp only [decide_eq_true_eq]
  · refine .of_performOnAt (exec_timedGateClose slot t s) hp ?_
    rw [State.timedGate]
    generalize State.upTo t s = s0 at *
    split
    · next g hg =>
      refine if_neg fun h => ?_
      simp only [Bool.and_eq_true, decide_eq_true_eq] at h
      rcases hno with hn | hn | hn
      · rw [hn] at hg
        exact absurd hg (by simp)
      · rw [hn] at h
        exact absurd h.1.1 (by decide)
      · exact hn h.1.2
    · rfl
  · refine .of_performOnAt (exec_staleTimestampDiscard slot t s) hp ?_
    rw [State.staleDiscard, slotStale_eq]
    generalize State.upTo t s = s0
    obtain ⟨h1, h2, h3, F, h4⟩ := timDiscard_shows (s0.dropped slot.val t) (staleCount t (s0.slot slot.val))
    generalize (s0.dropped slot.val t).timDiscard (staleCount t (s0.slot slot.val)) = v at *
    obtain ⟨⟨F', Q, h5⟩, h6⟩ := qSync_moves v
    have hslot : ∀ m, v.qSync.slot m = (s0.dropped slot.val t).slot m := fun m => by rw [State.slot, State.slot, h5, h4]
    have hx : v.qSync.slot slot.val = { s0.slot slot.val with
        starts := (s0.slot slot.val).starts.filter (youngAt t), stops := (s0.slot slot.val).stops.filter (youngAt t) } := (hslot _).trans (slot_setSlot s0 _ _)
    have hd : v.qSync.rd TIM_DISCARD_count = v.rd TIM_DISCARD_count := h6 _ (by decide)
    have he : v.qSync.rd TIM_EVT_discard = v.rd TIM_EVT_discard := h6 _ (by decide)
    refine ⟨?_, ?_, fun m hm => ?_, ?_, fun hk => ?_, ?_, h3.append h6, ?_⟩
    · rw [hx]
      rfl
    · rw [hx]
      rfl
    · rw [hslot]
      exact congrArg (fun o => Option.getD o Slot.idle) (look_ins_ne _ _ _ _ (Ne.symm hm))
    · rw [hd]
      exact h1
    · rw [he]
      exact h2 hk
    · rw [h5, h4]
      rfl
    · rw [h5, h4]
      exact sameRest_mk_hrv s0 _ _ _

end Sys2Proof
end

