-- ==== Sys2Proof/Proofs/SegmentLife.lean ====
section
/-! SUPPORT. The ends of pre-fill and of post-fill, and the links of a chain: the statement of O31. -/

namespace Sys2Proof.Machine

/-! ### What closes a segment -/

/-- Acquisition that enters STOPPING does so with its cause. -/
theorem enterStopping_shows (s : State) {cause : Nat} (p t : Nat) (hc : cause < 2 ^ 8) :
    (s.enterStopping cause p t).acqSt = 6 ∧ (s.enterStopping cause p t).rd ACQ_STAT_stop_cause = cause := by
  have h : ∀ f, (s.enterStopping cause p t).rd f = ((((s.haltAll p).wr ACQ_STAT_stop_cause cause).wr ACQ_STAT_state 6).wr ACQ_STAT_chained 0).rd f :=
    fun f => State.rd_mk ..
  rw [State.acqSt, h, h]
  simp (disch := decide) only [State.rd_wr_ne, State.rd_wr_same]
  exact ⟨rfl, Nat.mod_eq_of_lt hc⟩

/-- A re-arm ends in REARM. -/
theorem rearm_acqSt (s : State) (t : Nat) : (s.rearm t).acqSt = 5 := by
  unfold State.rearm
  dsimp only
  rw [State.acqSt, State.rd_mk, State.rd_wr_same]
  rfl

/-- A segment that has been opened says whether it goes on a chain. -/
theorem openSeg_chained (s : State) (g : Seg) (n : Nat) (ls : List Nat) : (s.openSeg g n ls).rd ACQ_STAT_chained = b2n g.cont := by
  unfold State.openSeg
  dsimp only
  rw [State.rd_wr_same]
  cases g.cont <;> rfl

/-- The next link of a chain leaves the state of acquisition as it is. -/
theorem chainNext_acqSt (s : State) (g : Seg) (e t : Nat) : (s.chainNext g e t).acqSt = s.acqSt :=
  rd_of_unopen (State.chainNext_unopen s g e t) (by decide) (by decide)

theorem chainNext_chained (s : State) (g : Seg) (e t : Nat) : (s.chainNext g e t).rd ACQ_STAT_chained = 1 := by
  rw [State.chainNext]
  dsimp only
  split
  · exact (rd_of_apart (State.redStart_apart _ e) (by decide)).trans (openSeg_chained _ _ _ _)
  · exact openSeg_chained _ _ _ _

/-! ### Pre-fill -/

/-- What ends pre-fill enters WAIT. -/
theorem enterWait_shows (s : State) (g : Seg) (t : Nat) (cut : Bool) :
    (s.enterWait g t cut).acqSt = 3 ∧ (s.enterWait g t cut).rd ACQ_LAST_DEAD = (t - g.deadFrom) % 2 ^ 64
      ∧ SameRegs s (s.enterWait g t cut) [ACQ_STAT_state, ACQ_LAST_DEAD]
      ∧ ∃ F, s.enterWait g t cut = { s with fields := F, acq := { s.acq with seg := some { g with dead := t - g.deadFrom, cut := cut } } } := by
  rw [State.enterWait]
  dsimp only
  generalize hv : ({ s with acq := { s.acq with seg := some { g with dead := t - g.deadFrom, cut := cut } } } : State) = v
  have hr : ∀ f, v.rd f = s.rd f := fun f => by rw [← hv]; rfl
  refine ⟨State.rd_wr_same _ _ _, ?_, fun f hf => ?_, ?_⟩
  · rw [State.rd_wr_ne _ _ _ _ (by decide), State.rd_wr_same]
    rfl
  · exact ((SameRegs.wr (SameRegs.wr (SameRegs.refl v _) _ _ (by decide)) _ _ (by decide)) f hf).trans (hr f)
  · rw [← hv]
    exact ⟨_, rfl⟩

/-- The state that the machine keeps on its way into WAIT, as `SameRest` says it. -/
theorem enterWait_waits (s : State) (g : Seg) (t : Nat) (cut : Bool) :
    let u := s.enterWait g t cut
    u.acqSt = 3 ∧ u.rd ACQ_LAST_DEAD = (t - g.deadFrom) % 2 ^ 64 ∧ u.acq.seg = some { g with cut := cut, dead := t - g.deadFrom }
      ∧ u.tmb = s.tmb ∧ SameRegs s u [ACQ_STAT_state, ACQ_LAST_DEAD] ∧ SameRest s { u with acq := { u.acq with seg := s.acq.seg } } := by
  obtain ⟨hst, hdead, hregs, F, hu⟩ := enterWait_shows s g t cut
  intro u
  refine ⟨hst, hdead, ?_, ?_, hregs, ?_⟩
  · rw [show u = _ from hu]
  · rw [show u = _ from hu]
  · rw [show u = _ from hu]
    exact sameRest_mk_hrv s _ _ _

theorem prefillDone_waits (s : State) (t : Nat) (g : Seg) :
    let s0 := State.upTo t s
    s0.acq.seg = some g → s0.acqSt = 2 ∨ s0.acqSt = 5 → s0.posDone (s0.fillP g + s0.acqP) t = true → g.fillKt ≤ t →
    State.prefillDone t s = s0.enterWait g (if s0.recordMode then t else s0.grid.start (s0.fillP g + s0.acqP)) false := by
  intro s0 hseg hst hdone hfill
  simp only [State.prefillDone]
  rw [show State.upTo t s = s0 from rfl, hseg]
  exact if_pos (by simpa [hdone, hfill] using hst)

theorem prefillLimit_waits (s : State) (t : Nat) (g : Seg) :
    let s0 := State.upTo t s
    s0.acq.seg = some g → s0.acqSt = 2 ∨ s0.acqSt = 5 → s0.recordMode = true → s0.rd ACQ_PRE_T_time ≠ 0 →
    g.fillKt + s0.rd ACQ_PRE_T_time * usF ≤ t → s0.posDone (s0.fillP g + s0.acqP) t = false →
    State.prefillLimit t s = s0.enterWait g (g.fillKt + s0.rd ACQ_PRE_T_time * usF) true := by
  intro s0 hseg hst hrec hlim hover hdone
  simp only [State.prefillLimit]
  rw [show State.upTo t s = s0 from rfl, hseg]
  exact if_pos (by simpa [hdone, hover, hrec, hlim] using hst)

/-! ### Post-fill -/

/-- Whether the segment in hand is the last of the acquisition. -/
abbrev State.lastSeg (s : State) : Prop := s.rd ACQ_SEG_CNT_count ≠ 0 ∧ s.rd ACQ_SEG_DONE_count + 1 = s.rd ACQ_SEG_CNT_count

/-- Whether the region has no place for a next segment. -/
abbrev State.noPlace (s : State) : Prop := s.placeHeld s.acq.next = true ∧ s.on ACQ_CFG_wrap = false

/-- A post-fill that is over ends the capture with COUNT or FULL, or goes on in REARM. -/
theorem postfillDone_ends (s : State) (t : Nat) (g : Seg) (e : Nat) :
    let s0 := State.upTo t s
    s0.acq.seg = some g → s0.acqSt = 4 → s0.postEnd g = some e → s0.hdg.tail = none → s0.posDone e t = true →
    s0.on ACQ_CFG_spill = false ∨ e ≤ s0.segPos0 g e + s0.segCap →
    let u := State.postfillDone t s
    (s0.lastSeg → u.acqSt = 6 ∧ u.rd ACQ_STAT_stop_cause = 1)
      ∧ (¬s0.lastSeg → s0.noPlace → u.acqSt = 6 ∧ u.rd ACQ_STAT_stop_cause = 7)
      ∧ (¬s0.lastSeg → ¬s0.noPlace → u.acqSt = 5) := by
  intro s0 hseg hst hend htail hdone hcap u
  have hgo : ¬(s0.acqSt ≠ 4 ∨ s0.hdg.tail.isSome = true ∨ s0.posDone e t = false
      ∨ (s0.on ACQ_CFG_spill = true ∧ s0.segPos0 g e + s0.segCap < e)) := by
    rw [hst, htail, hdone]
    rcases hcap with h | h
    · rw [h]; simp
    · simp; omega
  have hu : u = if s0.lastSeg then ((s0.lossStop (s0.posTime e t)).closeSeg 1 e (s0.posTime e t) 0).enterStopping 1 (s0.grid.posOf (s0.posTime e t)) (s0.posTime e t)
      else if s0.noPlace then ((s0.lossStop (s0.posTime e t)).closeSeg 7 e (s0.posTime e t) 0).enterStopping 7 (s0.grid.posOf (s0.posTime e t)) (s0.posTime e t)
      else (s0.closeSeg 0 e (s0.posTime e t) 0).rearm (s0.posTime e t) := by
    simp only [u, State.postfillDone]
    rw [show State.upTo t s = s0 from rfl, hseg]
    dsimp only
    rw [hend]
    exact if_neg hgo
  refine ⟨fun hl => ?_, fun hl hn => ?_, fun hl hn => ?_⟩
  · rw [hu, if_pos hl]
    exact enterStopping_shows _ _ _ (by decide)
  · rw [hu, if_neg hl, if_pos hn]
    exact enterStopping_shows _ _ _ (by decide)
  · rw [hu, if_neg hl, if_neg hn]
    exact rearm_acqSt _ _

/-- A segment of a chain that is full goes on in the next place, or ends the capture with FULL. -/
theorem segmentChain_links (s : State) (t : Nat) (g : Seg) (e : Nat) :
    let s0 := State.upTo t s
    s0.acq.seg = some g → s0.acqSt = 4 → s0.postEnd g = some e → s0.hdg.tail = none →
    s0.on ACQ_CFG_spill = true → s0.segCap ≠ 0 → s0.segPos0 g e + s0.segCap < e → s0.posDone (s0.segPos0 g e + s0.segCap) t = true →
    let u := State.segmentChain t s
    (s0.noPlace → u.acqSt = 6 ∧ u.rd ACQ_STAT_stop_cause = 7) ∧ (¬s0.noPlace → u.acqSt = 4 ∧ u.rd ACQ_STAT_chained = 1) := by
  intro s0 hseg hst hend htail hspill hcap hlt hdone u
  have hgo : ¬((s0.acqSt ≠ 4 ∧ (s0.acqSt ≠ 3 ∨ s0.hdg.tail.isNone = true)) ∨ s0.on ACQ_CFG_spill = false
      ∨ e ≤ s0.segPos0 g e + s0.segCap ∨ s0.segCap = 0 ∨ s0.posDone (s0.segPos0 g e + s0.segCap) t = false) := by
    rw [hst, hspill, hdone]
    simp [hcap, hlt]
  have hu : u = if s0.noPlace then
        ((s0.lossStop (s0.posTime (s0.segPos0 g e + s0.segCap) t)).closeSeg 7 (s0.segPos0 g e + s0.segCap)
          (s0.posTime (s0.segPos0 g e + s0.segCap) t) 0).enterStopping 7 (s0.grid.posOf (s0.posTime (s0.segPos0 g e + s0.segCap) t))
          (s0.posTime (s0.segPos0 g e + s0.segCap) t)
      else s0.chainNext g (s0.segPos0 g e + s0.segCap) (s0.posTime (s0.segPos0 g e + s0.segCap) t) := by
    simp only [u, State.segmentChain]
    rw [show State.upTo t s = s0 from rfl, hseg]
    dsimp only
    rw [htail, Option.isSome_none, if_neg Bool.false_ne_true, hend]
    rw [htail, Option.isNone_none] at hgo
    exact if_neg hgo
  refine ⟨fun hn => ?_, fun hn => ?_⟩
  · rw [hu, if_pos hn]
    exact enterStopping_shows _ _ _ (by decide)
  · rw [hu, if_neg hn]
    exact ⟨(chainNext_acqSt ..).trans hst, chainNext_chained ..⟩

end Sys2Proof.Machine

namespace Sys2Proof
open Machine

/-- Settles O31: what ends a pre-fill enters WAIT with the dead time measured; the end of post-fill stops the capture or re-arms, and a
chain goes on in a new segment. -/
theorem segmentLife : Obligations.SegmentLife := by
  unfold Obligations.SegmentLife
  constructor
  · intro s t g hp s0 hseg hst waits
    constructor
    · intro hdone hfill
      refine .of_performOnAt (exec_prefillComplete t s) hp ?_
      rw [prefillDone_waits s t g hseg hst hdone hfill]
      exact enterWait_waits s0 g _ _
    · intro hrec hlim hover hdone
      refine .of_performOnAt (exec_prefillTimeLimit t s) hp ?_
      rw [prefillLimit_waits s t g hseg hst hrec hlim hover hdone]
      exact enterWait_waits s0 g _ _
  · intro s t g e hp s0 hseg hst hend htail last noPlace
    constructor
    · intro hdone hcap
      obtain ⟨hlast, hfull, hnext⟩ := postfillDone_ends s t g e hseg hst hend htail hdone hcap
      exact ⟨fun hl => .of_performOnAt (exec_postfillEnd t s) hp (hlast hl),
        fun hl hn => .of_performOnAt (exec_postfillEnd t s) hp (hfull hl hn),
        fun hl hn => .of_performOnAt (exec_postfillEnd t s) hp (hnext hl hn)⟩
    · intro hspill hcap hlt hdone
      obtain ⟨hfull, hnext⟩ := segmentChain_links s t g e hseg hst hend htail hspill hcap hlt hdone
      exact ⟨fun hn => .of_performOnAt (exec_segmentChain t s) hp (hfull hn),
        fun hn => .of_performOnAt (exec_segmentChain t s) hp (hnext hn)⟩

end Sys2Proof
end

