-- ==== Sys2Proof/Proofs/TrellisSample.lean ====
section
/-! SUPPORT. A sample of Trellis in which one branch is taken, or none: the statement of O27. -/

namespace Sys2Proof.Machine

/-! ### What storing a capture and a trigger keep of Trellis -/

/-- The registers up to the state of acquisition are none that storing a capture may write. -/
theorem captureKey_below {k : Nat} (h : k < 0x300300) : captureKey k = false :=
  keyIn_low (by decide) (by simp only [List.forall_mem_cons, List.not_mem_nil, false_imp_iff, implies_true, and_true]; decide) h

theorem rd_below_of_apart {s u : State} (h : u.apart = s.apart) {f : Fld} (hf : f.key < 0x300300) : u.rd f = s.rd f :=
  rd_of_apart h (captureKey_below hf)

theorem rd_below_of_unstat {s u : State} (h : u.apart.unopen.unstat = s.apart.unopen.unstat) {f : Fld} (hf : f.key < 0x300000) :
    u.rd f = s.rd f :=
  rd_of_unstat h (captureKey_below (Nat.lt_trans hf (by decide))) (keyIn_low (by decide) (fun _ hg => absurd hg List.not_mem_nil) hf)
    (keyIn_low (by decide) (fun _ hg => absurd hg List.not_mem_nil) hf)

/-! ### The actions of a branch -/

/-- What the actions of a branch but its counter's leave of Trellis and of the state of acquisition. -/
def TrlKept (s u : State) : Prop :=
  u.trl.next = s.trl.next ∧ ∀ f : Fld, f.key < 0x300300 → f.key ≠ TRL_STAT_qual.key → f.key ≠ TRL_EVT_irq.key → u.rd f = s.rd f

theorem TrlKept.refl (s : State) : TrlKept s s := ⟨rfl, fun _ _ _ _ => rfl⟩

theorem TrlKept.trans {s u v : State} (h : TrlKept s u) (k : TrlKept u v) : TrlKept s v :=
  ⟨k.1.trans h.1, fun f h1 h2 h3 => (k.2 f h1 h2 h3).trans (h.2 f h1 h2 h3)⟩

theorem TrlKept.of_apart {s u : State} (h : u.apart = s.apart) : TrlKept s u :=
  ⟨congrArg (fun a => a.trl.next) h, fun _ hf _ _ => rd_below_of_apart h hf⟩

theorem setTimer_kept (s : State) (n : Nat) (m : Timer) : TrlKept s (if m = s.timer n then s else { s with trl := { s.trl with tm := ins s.trl.tm n m } }) := by
  split
  · exact .refl s
  · exact ⟨rfl, fun _ _ _ _ => rfl⟩

theorem actTm_kept (s : State) (l b k t : Nat) : TrlKept s (s.actTm l b k t) := setTimer_kept s _ _

theorem actQual_kept (s : State) (l b k : Nat) : TrlKept s (s.actQual l b k) := by
  unfold State.actQual
  split
  · exact ⟨rfl, fun f _ hq _ => (State.rd_mk ..).trans (State.rd_wr_ne _ _ _ _ (Ne.symm hq))⟩
  · split
    · exact ⟨rfl, fun f _ hq _ => (State.rd_mk ..).trans (State.rd_wr_ne _ _ _ _ (Ne.symm hq))⟩
    · exact .refl s

theorem pulse_kept (s : State) (t n : Nat) : TrlKept s (s.pulse t n) := by
  unfold State.pulse
  split
  · exact ⟨rfl, fun _ _ _ _ => rfl⟩
  · exact .refl s

theorem pulses_kept (t : Nat) (l : List Nat) (s : State) : TrlKept s (l.foldl (fun s n => s.pulse t n) s) := by
  induction l generalizing s with
  | nil => exact .refl s
  | cons n l ih => exact (pulse_kept s t n).trans (ih _)

theorem actXtrig_kept (s : State) (x : Taken) : TrlKept s (s.actXtrig x) := by
  unfold State.actXtrig
  split
  · exact .refl s
  · exact (pulses_kept _ _ s).trans (.of_apart (State.grfXtrig_apart ..))

theorem actMark_kept (s : State) (x : Taken) : TrlKept s (s.actMark x) := by
  have hmark : TrlKept s (if s.on (TRL_Ln_BRb_ACT_mark x.level x.br) then
      s.markTrellis x.t (s.rd (TRL_Ln_BRb_ARG_mark_code x.level x.br)) x.ch x.level x.br x.coarse else s) := by
    split
    · exact .of_apart (State.markTrellis_apart ..)
    · exact .refl s
  unfold State.actMark
  dsimp only
  split
  · exact hmark.trans ⟨rfl, fun f _ _ hi => State.rd_wr_ne _ _ _ _ (Ne.symm hi)⟩
  · exact hmark

/-- A taken branch without its TRIGGER action: the counter's action, and what leaves the rest of Trellis as it is. -/
theorem act_split (k : Nat) (s : State) (x : Taken) : ∃ v, TrlKept (s.actCt x.level x.br) v
    ∧ State.act k s x = if s.on (TRL_Ln_BRb_ACT_trigger x.level x.br) then (v.addF TRL_TRIG_CNT_count 1).orF TRL_EVT_trig 1 else v :=
  ⟨_, (((actTm_kept _ x.level x.br k x.t).trans (actQual_kept _ x.level x.br k)).trans (actXtrig_kept _ x)).trans (actMark_kept _ x), rfl⟩

/-- The counter that a branch of `l` acts on. -/
abbrev State.ctOf (s : State) (x : Taken) : Fld := TRL_CTn_VAL (s.rd (TRL_Ln_BRb_ARG_ct_idx x.level x.br))

theorem actCt_ne (s : State) (x : Taken) {f : Fld} (h : (s.ctOf x).key ≠ f.key) : (s.actCt x.level x.br).rd f = s.rd f := by
  unfold State.actCt
  dsimp only
  (repeat' split) <;> simp only [State.addSat, State.rd_wr_ne _ _ _ _ h]

theorem actCt_next (s : State) (l b : Nat) : (s.actCt l b).trl.next = s.trl.next := by
  unfold State.actCt
  dsimp only
  (repeat' split) <;> rfl

theorem actCt_inc (s : State) (x : Taken) (hc : s.on (TRL_Ln_BRb_ACT_ct_clr x.level x.br) = false)
    (hi : s.on (TRL_Ln_BRb_ACT_ct_inc x.level x.br) = true) :
    (s.actCt x.level x.br).rd (s.ctOf x) = min (s.rd (s.ctOf x) + 1) (2 ^ 48 - 1) := by
  have h : s.actCt x.level x.br = s.addSat (s.ctOf x) 1 := by simp only [State.actCt, hc, hi, if_true, if_false, Bool.false_eq_true]
  rw [h]
  exact State.rd_addSat _ _ _

theorem actCt_clr (s : State) (x : Taken) (hc : s.on (TRL_Ln_BRb_ACT_ct_clr x.level x.br) = true)
    (hi : s.on (TRL_Ln_BRb_ACT_ct_inc x.level x.br) = false) : (s.actCt x.level x.br).rd (s.ctOf x) = 0 := by
  have h : s.actCt x.level x.br = s.wr (s.ctOf x) 0 := by simp only [State.actCt, hc, hi, if_true, if_false, Bool.false_eq_true]
  rw [h]
  exact State.rd_wr_same _ _ _

/-! ### The sample -/

/-- The registers that hold the last trigger of Trellis. -/
def lastFlds : List Fld := [TRL_LAST_kt, TRL_LAST_HI_sres, TRL_LAST_HI_valid, TRL_LAST_HI_src, TRL_LAST_HI_level, TRL_LAST_HI_branch]

/-- The record of a trigger, before acquisition has received it. -/
def State.putLast (s : State) (x : Taken) : State :=
  (((((s.wr TRL_LAST_kt x.t).wr TRL_LAST_HI_sres (b2n x.coarse)).wr TRL_LAST_HI_valid 1).wr TRL_LAST_HI_src x.ch).wr
    TRL_LAST_HI_level x.level).wr TRL_LAST_HI_branch x.br

theorem putLast_regs (s : State) (x : Taken) : SameRegs s (s.putLast x) lastFlds :=
  ((((((SameRegs.refl s _).wr _ _ (by decide)).wr _ _ (by decide)).wr _ _ (by decide)).wr _ _ (by decide)).wr _ _ (by decide)).wr _ _ (by decide)

/-- What a TRIGGER decision leaves of Trellis. -/
theorem fire_shows (s : State) (k : Nat) (x : Taken) :
    (s.fire k x).trl = s.trl ∧ (s.fire k x).rd TRL_LAST_kt = x.t % 2 ^ 72 ∧ (s.fire k x).rd TRL_LAST_HI_valid = 1
      ∧ (s.fire k x).rd TRL_LAST_HI_src = x.ch % 2 ^ 11 ∧ (s.fire k x).rd TRL_LAST_HI_level = x.level % 16
      ∧ ∀ f : Fld, f.key < 0x300000 → f.key ∉ lastFlds.map Fld.key → (s.fire k x).rd f = s.rd f := by
  have h := State.trigger_unstat (s.putLast x) ⟨x.t, 0, x.coarse, x.ch⟩ k
  have hrd : ∀ f : Fld, f.key < 0x300000 → (s.fire k x).rd f = (s.putLast x).rd f := fun f hf => rd_below_of_unstat h hf
  refine ⟨congrArg Apart.trl h, ?_, ?_, ?_, ?_, fun f hf hl => (hrd f hf).trans (putLast_regs s x f hl)⟩ <;>
    rw [hrd _ (by decide), State.putLast] <;> simp (disch := decide) only [State.rd_wr_ne, State.rd_wr_same] <;> rfl

/-- The machine once sample `k` of Trellis is taken up. -/
def State.sampled (s : State) (k : Nat) : State := { s with trl := { s.trl with next := k + 1 } }

/-- A sample of Trellis that no start waits for evaluates the branches of the present level. -/
theorem trellis_eq {s : State} {k : Nat} (hr : s.trlRuns = true) (hn : s.trl.restart = none) (hk : s.trl.next ≤ k) :
    s.trellis k =
      (let c := s.trlChain k 4 (s.rd TRL_STAT_level)
       if c.1.isEmpty then s.sampled k else
       let s1 := (c.1.foldl (State.act k) (s.sampled k)).wr TRL_STAT_level c.2
       (firstTaken (c.1.filter fun x => s.on (TRL_Ln_BRb_ACT_trigger x.level x.br))).elim s1 (s1.fire k)) := by
  have h : s.restartAt k = s := by rw [State.restartAt, hn]
  rw [State.trellis, h]
  generalize s.trlChain k 4 (s.rd TRL_STAT_level) = c
  obtain ⟨xs, lvl⟩ := c
  refine (if_neg (by simp [hr, hk])).trans (ite_congr rfl (fun _ => rfl) fun _ => ?_)
  generalize hf : (firstTaken (xs.filter fun x => s.on (TRL_Ln_BRb_ACT_trigger x.level x.br))) = o
  dsimp only
  split
  · next x hx => rw [show o = _ from hf.symm.trans hx]; rfl
  · next hx => rw [show o = _ from hf.symm.trans hx]; rfl

theorem firstTaken_one (p : Taken → Bool) (x : Taken) : firstTaken ([x].filter p) = if p x then some x else none := by
  cases h : p x <;> simp [firstTaken, h]

/-- A sample with one branch taken. -/
theorem trellis_one {s : State} {k lvl : Nat} {x : Taken} (hr : s.trlRuns = true) (hn : s.trl.restart = none) (hk : s.trl.next ≤ k)
    (hx : s.trlChain k 4 (s.rd TRL_STAT_level) = ([x], lvl)) :
    s.trellis k = (let s1 := (State.act k (s.sampled k) x).wr TRL_STAT_level lvl
      if s.on (TRL_Ln_BRb_ACT_trigger x.level x.br) then s1.fire k x else s1) := by
  rw [trellis_eq hr hn hk, hx]
  dsimp only [List.isEmpty, List.foldl]
  rw [if_neg Bool.false_ne_true, firstTaken_one fun x => s.on (TRL_Ln_BRb_ACT_trigger x.level x.br)]
  split <;> rfl

/-- The counters stand behind every other register of Trellis that a sample writes. -/
theorem ct_key {n : Nat} (h : n < 16) : 0x2a0000 ≤ (TRL_CTn_VAL n).key ∧ (TRL_CTn_VAL n).key < 0x300000 := by
  simp only [Fld.key, TRL_CTn_VAL]
  omega

/-- What the actions of a branch but its TRIGGER leave of Trellis. -/
theorem act_shows (k : Nat) (s : State) (x : Taken) (hi : s.rd (TRL_Ln_BRb_ARG_ct_idx x.level x.br) < 16) :
    (State.act k s x).trl.next = s.trl.next ∧ (State.act k s x).rd (s.ctOf x) = (s.actCt x.level x.br).rd (s.ctOf x)
      ∧ (s.on (TRL_Ln_BRb_ACT_trigger x.level x.br) = true → (State.act k s x).rd TRL_EVT_trig = 1
          ∧ (State.act k s x).rd TRL_TRIG_CNT_count = (s.rd TRL_TRIG_CNT_count + 1) % 2 ^ 32)
      ∧ (s.on (TRL_Ln_BRb_ACT_trigger x.level x.br) = false → (State.act k s x).rd TRL_LAST_kt = s.rd TRL_LAST_kt
          ∧ (State.act k s x).rd TRL_TRIG_CNT_count = s.rd TRL_TRIG_CNT_count ∧ (State.act k s x).acqSt = s.acqSt) := by
  obtain ⟨v, ⟨hnext, hkept⟩, hact⟩ := act_split k s x
  obtain ⟨hlo, hhi⟩ := ct_key hi
  have hne : ∀ f : Fld, f.key < 0x2a0000 → f.key ≠ (s.ctOf x).key := fun f hf => Nat.ne_of_lt (Nat.lt_of_lt_of_le hf hlo)
  have hct : v.rd (s.ctOf x) = (s.actCt x.level x.br).rd (s.ctOf x) :=
    hkept _ (Nat.lt_trans hhi (by decide)) (hne TRL_STAT_qual (by decide)).symm (hne TRL_EVT_irq (by decide)).symm
  have hcnt : v.rd TRL_TRIG_CNT_count = s.rd TRL_TRIG_CNT_count :=
    (hkept _ (by decide) (by decide) (by decide)).trans (actCt_ne s x (hne _ (by decide)).symm)
  rw [hact]
  cases ht : s.on (TRL_Ln_BRb_ACT_trigger x.level x.br) with
  | true =>
    refine ⟨hnext.trans (actCt_next ..), ?_, fun _ => ⟨?_, ?_⟩, fun h => absurd h (by decide)⟩
    · rw [if_pos rfl, rd_orF_ne _ _ _ _ (hne TRL_EVT_trig (by decide)), State.addF, State.rd_wr_ne _ _ _ _ (hne TRL_TRIG_CNT_count (by decide)), hct]
    · exact rd_orF_bit _ TRL_EVT_trig true rfl rfl
    · rw [if_pos rfl, rd_orF_ne _ _ _ _ (by decide), State.addF, State.rd_wr_same, hcnt]
      rfl
  | false =>
    refine ⟨hnext.trans (actCt_next ..), hct, fun h => absurd h (by decide), fun _ => ⟨?_, hcnt, ?_⟩⟩
    · exact (hkept _ (by decide) (by decide) (by decide)).trans (actCt_ne s x (hne _ (by decide)).symm)
    · exact (hkept _ (by decide) (by decide) (by decide)).trans (actCt_ne s x (Nat.ne_of_lt (Nat.lt_of_lt_of_le hhi (by decide))))

/-- What a sample with one branch taken shows. -/
theorem trellis_one_shows {s : State} {k lvl : Nat} {x : Taken} (hr : s.trlRuns = true) (hn : s.trl.restart = none) (hk : s.trl.next ≤ k)
    (hx : s.trlChain k 4 (s.rd TRL_STAT_level) = ([x], lvl)) (hi : s.rd (TRL_Ln_BRb_ARG_ct_idx x.level x.br) < 16) :
    (s.trellis k).rd TRL_STAT_level = lvl % 16 ∧ (s.trellis k).trl.next = k + 1
      ∧ (s.trellis k).rd (s.ctOf x) = ((s.sampled k).actCt x.level x.br).rd (s.ctOf x)
      ∧ (s.on (TRL_Ln_BRb_ACT_trigger x.level x.br) = true → (s.trellis k).rd TRL_LAST_kt = x.t % 2 ^ 72 ∧ (s.trellis k).rd TRL_LAST_HI_valid = 1
          ∧ (s.trellis k).rd TRL_LAST_HI_src = x.ch % 2 ^ 11 ∧ (s.trellis k).rd TRL_LAST_HI_level = x.level % 16
          ∧ (s.trellis k).rd TRL_EVT_trig = 1 ∧ (s.trellis k).rd TRL_TRIG_CNT_count = (s.rd TRL_TRIG_CNT_count + 1) % 2 ^ 32)
      ∧ (s.on (TRL_Ln_BRb_ACT_trigger x.level x.br) = false → (s.trellis k).rd TRL_LAST_kt = s.rd TRL_LAST_kt
          ∧ (s.trellis k).rd TRL_TRIG_CNT_count = s.rd TRL_TRIG_CNT_count ∧ (s.trellis k).acqSt = s.acqSt) := by
  obtain ⟨hnext, hct, htrig, hnone⟩ := act_shows k (s.sampled k) x hi
  obtain ⟨hlo, hhi⟩ := ct_key hi
  have hne : ∀ f : Fld, f.key < 0x2a0000 → f.key ≠ (s.ctOf x).key := fun f hf => Nat.ne_of_lt (Nat.lt_of_lt_of_le hf hlo)
  have hlast : ∀ f ∈ lastFlds, f.key < 0x2a0000 := by decide
  rw [trellis_one hr hn hk hx]
  generalize hw : State.act k (s.sampled k) x = w at *
  dsimp only
  cases ht : s.on (TRL_Ln_BRb_ACT_trigger x.level x.br) with
  | true =>
    obtain ⟨hev, hcnt⟩ := htrig ht
    obtain ⟨ftrl, fkt, fvalid, fsrc, flevel, fkeep⟩ := fire_shows (w.wr TRL_STAT_level lvl) k x
    rw [if_pos rfl]
    refine ⟨?_, (congrArg Trl.next ftrl).trans hnext, ?_, fun _ => ⟨fkt, fvalid, fsrc, flevel, ?_, ?_⟩, fun h => absurd h (by decide)⟩
    · rw [fkeep _ (by decide) (by decide), State.rd_wr_same]
      rfl
    · rw [fkeep _ hhi, State.rd_wr_ne _ _ _ _ (hne _ (by decide))]
      · exact hct
      · intro h
        obtain ⟨f, hf, he⟩ := List.mem_map.1 h
        exact hne f (hlast f hf) he
    · rw [fkeep _ (by decide) (by decide), State.rd_wr_ne _ _ _ _ (by decide)]
      exact hev
    · rw [fkeep _ (by decide) (by decide), State.rd_wr_ne _ _ _ _ (by decide)]
      exact hcnt
  | false =>
    obtain ⟨hkt, hcnt, hst⟩ := hnone ht
    rw [if_neg Bool.false_ne_true]
    refine ⟨State.rd_wr_same _ _ _, hnext, ?_, fun h => absurd h (by decide), fun _ => ⟨?_, ?_, ?_⟩⟩
    · exact (State.rd_wr_ne _ _ _ _ (hne _ (by decide))).trans hct
    · exact (State.rd_wr_ne _ _ _ _ (by decide)).trans hkt
    · exact (State.rd_wr_ne _ _ _ _ (by decide)).trans hcnt
    · exact (State.rd_wr_ne _ _ _ _ (by decide)).trans hst

/-- A sample of Trellis that the spare slot did not take part in. -/
theorem branchTaken_plain (k group slot : Nat) (second : Bool) (s : State) :
    State.branchTaken k false second group slot s = (State.trlTo k (State.upTo (s.grid.start k) s)).trellis k := by
  rw [State.branchTaken]
  exact if_neg Bool.false_ne_true

end Sys2Proof.Machine

namespace Sys2Proof
open Machine

/-- Settles O27: the one branch that a sample takes acts, and a sample without one changes nothing but the sample Trellis stands at. -/
theorem trellisSample : Obligations.TrellisSample := by
  unfold Obligations.TrellisSample
  intro s k lvl hp s0 hr hn hk
  constructor
  · intro x hx hi
    refine .of_performOnAt (exec_trellisBranchTaken ..) hp ?_
    rw [branchTaken_plain]
    obtain ⟨hlevel, hnext, hct, htrig, hnone⟩ := trellis_one_shows hr hn hk hx hi
    refine ⟨hlevel, hnext, fun hc hinc => ?_, fun hc hinc => ?_, htrig, hnone⟩
    · exact hct.trans (actCt_inc (s0.sampled k) x hc hinc)
    · exact hct.trans (actCt_clr (s0.sampled k) x hc hinc)
  · intro hx
    refine .of_performOnAt (exec_trellisBranchTaken ..) hp ?_
    rw [branchTaken_plain]
    refine (trellis_eq hr hn hk).trans ?_
    dsimp only
    rw [hx]
    rfl

end Sys2Proof
end

