-- ==== Sys2Proof/Proofs/HedgeViolations.lean ====
section
/-! SUPPORT. A MISSING violation of Hedge, and the end of a stop violation's tail: the statement of O29. -/

namespace Sys2Proof.Machine

/-! ### What storing a capture and a trigger keep of Hedge -/

theorem keyIn_between {l : List Fld} {g : List (Nat → Fld)} {a b k : Nat} (hl : ∀ f ∈ l, f.key < a ∨ b ≤ f.key) (hg : ∀ f ∈ g, b ≤ (f 0).key)
    (ha : a ≤ k) (hb : k < b) : keyIn l g k = false := by
  rw [keyIn, Bool.or_eq_false_iff]
  refine ⟨?_, List.any_eq_false.2 fun f hf => ?_⟩
  · rw [Bool.eq_false_iff, ne_eq, List.contains_iff_mem]
    intro hm
    obtain ⟨f, hf, rfl⟩ := List.mem_map.1 hm
    have := hl f hf
    omega
  · have : ¬(f 0).key ≤ k := Nat.not_le.2 (Nat.lt_of_lt_of_le hb (hg f hf))
    simp [this]

/-- The registers of Hedge are none that storing a capture or a trigger may write. -/
theorem rd_hdg_of_unstat {s u : State} (h : u.apart.unopen.unstat = s.apart.unopen.unstat) {f : Fld} (ha : 0x380000 ≤ f.key) (hb : f.key < 0x400000) :
    u.rd f = s.rd f :=
  rd_of_unstat h
    (keyIn_between (by decide) (by simp only [List.forall_mem_cons, List.not_mem_nil, false_imp_iff, implies_true, and_true]; decide) ha hb)
    (keyIn_between (by decide) (fun _ hg => absurd hg List.not_mem_nil) ha hb)
    (keyIn_between (by decide) (fun _ hg => absurd hg List.not_mem_nil) ha hb)

theorem rd_hdg_of_apart {s u : State} (h : u.apart = s.apart) {f : Fld} (ha : 0x380000 ≤ f.key) (hb : f.key < 0x400000) : u.rd f = s.rd f :=
  rd_hdg_of_unstat (congrArg (fun a => a.unopen.unstat) h) ha hb

/-! ### A violation -/

/-- The registers that hold the last violation. -/
def violFlds (n : Nat) : List Fld := [HDG_MKn_CNT_value n, HDG_VIOL_CNT_value, HDG_LAST_kt, HDG_LAST_HI_sres, HDG_LAST_HI_kind,
  HDG_LAST_HI_rule, HDG_LAST_HI_channel, HDG_LAST_HI_valid]

theorem cnt_key (n : Nat) {f : Fld} (h : f.key < 0x388000) : f.key ≠ (HDG_MKn_CNT_value n).key := by
  simp only [Fld.key, HDG_MKn_CNT_value] at *
  omega

/-- The registers of a violation: counted, and held as the last one. -/
def State.violShown (s : State) (n kind c tv : Nat) (sres : Bool) : State :=
  (((((((s.addSat (HDG_MKn_CNT_value n) 1).addSat HDG_VIOL_CNT_value 1).wr HDG_LAST_kt tv).wr HDG_LAST_HI_sres (b2n sres)).wr
    HDG_LAST_HI_kind kind).wr HDG_LAST_HI_rule n).wr HDG_LAST_HI_channel c).wr HDG_LAST_HI_valid 1

theorem violShown_only (s : State) (n kind c tv : Nat) (sres : Bool) : OnlyFields s (s.violShown n kind c tv sres) :=
  ((((((((OnlyFields.refl s).wr _ _).wr _ _).wr _ _).wr _ _).wr _ _).wr _ _).wr _ _).wr _ _

theorem violShown_regs (s : State) (n kind c tv : Nat) (sres : Bool) : SameRegs s (s.violShown n kind c tv sres) (violFlds n) := by
  have hm : ∀ f ∈ violFlds n, f.key ∈ (violFlds n).map Fld.key := fun f hf => List.mem_map_of_mem hf
  simp only [violFlds, List.forall_mem_cons] at hm
  obtain ⟨h1, h2, h3, h4, h5, h6, h7, h8, _⟩ := hm
  exact ((((((((SameRegs.refl s _).wr _ _ h1).wr _ _ h2).wr _ _ h3).wr _ _ h4).wr _ _ h5).wr _ _ h6).wr _ _ h7).wr _ _ h8

theorem violShown_shows (s : State) (n kind c tv : Nat) (sres : Bool) :
    (s.violShown n kind c tv sres).rd (HDG_MKn_CNT_value n) = min (s.rd (HDG_MKn_CNT_value n) + 1) (2 ^ 32 - 1)
      ∧ (s.violShown n kind c tv sres).rd HDG_VIOL_CNT_value = min (s.rd HDG_VIOL_CNT_value + 1) (2 ^ 32 - 1)
      ∧ (s.violShown n kind c tv sres).rd HDG_LAST_kt = tv % 2 ^ 72 ∧ (s.violShown n kind c tv sres).rd HDG_LAST_HI_valid = 1
      ∧ (s.violShown n kind c tv sres).rd HDG_LAST_HI_kind = kind % 2 ^ 2 ∧ (s.violShown n kind c tv sres).rd HDG_LAST_HI_rule = n % 2 ^ 6
      ∧ (s.violShown n kind c tv sres).rd HDG_LAST_HI_channel = c % 2 ^ 10 := by
  have hk : ∀ f : Fld, f.key < 0x388000 → f.key ≠ (HDG_MKn_CNT_value n).key := fun f => cnt_key n
  refine ⟨?_, ?_, ?_, ?_, ?_, ?_, ?_⟩
  · have h : ∀ (v : State) (g : Fld) (x : Nat), g.key < 0x388000 → (v.wr g x).rd (HDG_MKn_CNT_value n) = v.rd (HDG_MKn_CNT_value n) :=
      fun v g x hg => State.rd_wr_ne _ _ _ _ (hk g hg)
    rw [State.violShown, h _ _ _ (by decide), h _ _ _ (by decide), h _ _ _ (by decide), h _ _ _ (by decide), h _ _ _ (by decide),
      h _ _ _ (by decide), State.rd_addSat_ne _ _ (hk _ (by decide)), State.rd_addSat]
    rfl
  · simp (disch := decide) only [State.violShown, State.rd_wr_ne]
    rw [State.rd_addSat, State.rd_addSat_ne _ _ (hk _ (by decide)).symm]
    rfl
  all_goals simp (disch := decide) only [State.violShown, State.rd_wr_ne, State.rd_wr_same] <;> rfl

/-- The rule after a violation of `kind` at `c`. -/
def Rule.violated (r : Rule) (kind c : Nat) : Rule :=
  { r with acted := true, judged := if kind = 3 then r.judged else insSet c r.judged, missed := if kind = 3 then insSet c r.missed else r.missed }

/-- A violation before its actions. -/
def State.violHeld (s : State) (n kind c tv : Nat) (sres : Bool) : State :=
  (s.violShown n kind c tv sres).putRule n ((s.rule n).violated kind c)

theorem rd_violHeld (s : State) (n kind c tv : Nat) (sres : Bool) (f : Fld) :
    (s.violHeld n kind c tv sres).rd f = (s.violShown n kind c tv sres).rd f := State.rd_mk ..

/-- The actions of a violation write no register of Hedge but its events. -/
theorem violate_keeps (s : State) (n kind c : Nat) (o : Int) (ref tv : Nat) (sres : Bool) {f : Fld} (ha : 0x380000 ≤ f.key) (hb : f.key < 0x400000)
    (hv : HDG_EVT_viol.key ≠ f.key) (hs : HDG_EVT_stop.key ≠ f.key) :
    (s.violate n kind c o ref tv sres).rd f = (s.violHeld n kind c tv sres).rd f := by
  have hev : ∀ (b : Bool) (v : State) (r : Rec), (if b then (v.event r).orF HDG_EVT_viol 1 else v).rd f = v.rd f := fun b v r => by
    split
    · exact (rd_orF_ne _ _ _ _ hv).trans (rd_hdg_of_apart (State.event_apart v r) ha hb)
    · rfl
  have htr : ∀ (b : Bool) (v : State) (x : Trig) (k : Nat), (if b then v.trigger x k else v).rd f = v.rd f := fun b v x k => by
    split
    · exact rd_hdg_of_unstat (State.trigger_unstat v x k) ha hb
    · rfl
  have hst : ∀ (b : Bool) (v : State) (h : Hdg), (if b then { v with hdg := h }.orF HDG_EVT_stop 1 else v).rd f = v.rd f := fun b v h => by
    split
    · exact (rd_orF_ne _ _ _ _ hs).trans (State.rd_mk ..)
    · rfl
  unfold State.violate
  dsimp only
  split
  · rfl
  · exact (hst _ _ _).trans ((htr _ _ _ _).trans (hev _ _ _))

/-- A violation of a rule that has acted is only counted and held. -/
theorem violate_acted {s : State} {n : Nat} (kind c : Nat) (o : Int) (ref tv : Nat) (sres : Bool) (h : (s.rule n).acted = true) :
    s.violate n kind c o ref tv sres = s.violHeld n kind c tv sres := by
  unfold State.violate
  exact if_pos h

/-! ### The end of a tail -/

theorem hdg_of_untrl {s u : State} (h : u.apart.unopen.unstat.untrl = s.apart.unopen.unstat.untrl) : u.hdg = s.hdg := congrArg Apart.hdg h

theorem enterStopping_hdg (s : State) (cause p t : Nat) : (s.enterStopping cause p t).hdg = s.hdg :=
  hdg_of_untrl (State.enterStopping_untrl s cause p t)

/-- The tail of a stop violation that has been stored ends the capture with cause HEDGE. -/
theorem hedgeTailEnd_stops (s : State) (t e : Nat) :
    let s0 := State.upTo t s
    s0.tailStop = some e → s0.armed = true → s0.acq.seg = none ∨ s0.on ACQ_CFG_spill = true → s0.posDone e t = true →
    ∃ v p t', v.hdg.tail = none ∧ State.hedgeTailEnd t s = State.enterStopping v 2 p t' := by
  intro s0 htail harm hseg hdone
  have harm' : ¬s0.armed = false := by rw [harm]; decide
  simp only [State.hedgeTailEnd]
  rw [show State.upTo t s = s0 from rfl, htail]
  dsimp only
  rw [if_neg harm']
  cases hg : s0.acq.seg with
  | none =>
    dsimp only
    rw [if_pos hdone]
    exact ⟨_, _, _, congrArg (fun a => a.hdg.tail) (State.dropOpening_apart { s0 with hdg := { s0.hdg with tail := none } }), rfl⟩
  | some g =>
    have hspill : s0.on ACQ_CFG_spill = true := hseg.resolve_left (by rw [hg]; exact Option.some_ne_none g)
    dsimp only
    rw [if_pos hspill, if_neg (by rw [hdone]; decide)]
    exact ⟨_, _, _, rfl, rfl⟩

end Sys2Proof.Machine

namespace Sys2Proof
open Machine

/-- Settles O29: a missing transition is counted and held as the last violation, and the end of a stop violation's tail stops
acquisition. -/
theorem hedgeViolations : Obligations.HedgeViolations := by
  unfold Obligations.HedgeViolations
  intro s t hp s0
  constructor
  · intro n c ref hruns hen hreq hw0 hin href b0 hb hhor hcw hcm hres
    refine .of_performOnAt (exec_hedgeMissing ..) hp ?_
    have hu : State.missing n.val c.val t s = s0.violate n.val 3 c.val b0 ref (ref + b0) true := by
      simp only [State.missing]
      rw [show State.upTo t s = s0 from rfl, href]
      refine if_pos ?_
      simp only [Bool.and_eq_true, decide_eq_true_eq, Bool.not_eq_true']
      exact ⟨⟨⟨⟨⟨⟨⟨⟨⟨hruns, hen⟩, hreq⟩, hw0⟩, hin⟩, hb⟩, hhor⟩, hcw⟩, hcm⟩, hres⟩
    rw [hu]
    obtain ⟨hcnt, hviol, hkt, hvalid, hkind, hrule, hchan⟩ := violShown_shows s0 n.val 3 c.val (ref + b0) true
    have hkeep : ∀ {f : Fld}, 0x380000 ≤ f.key → f.key < 0x400000 → HDG_EVT_viol.key ≠ f.key → HDG_EVT_stop.key ≠ f.key →
        (s0.violate n.val 3 c.val b0 ref (ref + b0) true).rd f = (s0.violShown n.val 3 c.val (ref + b0) true).rd f :=
      fun ha hb h1 h2 => (violate_keeps s0 n.val 3 c.val b0 ref (ref + b0) true ha hb h1 h2).trans (rd_violHeld ..)
    have hk : 0x388000 ≤ (HDG_MKn_CNT_value n.val).key ∧ (HDG_MKn_CNT_value n.val).key < 0x400000 := by
      simp only [Fld.key, HDG_MKn_CNT_value]
      omega
    refine ⟨?_, ?_, ?_, ?_, ?_, ?_, ?_, fun hact => ?_⟩
    · exact (hkeep (Nat.le_trans (by decide) hk.1) hk.2 (cnt_key _ (by decide)) (cnt_key _ (by decide))).trans hcnt
    · exact (hkeep (by decide) (by decide) (by decide) (by decide)).trans hviol
    · exact (hkeep (by decide) (by decide) (by decide) (by decide)).trans hkt
    · exact (hkeep (by decide) (by decide) (by decide) (by decide)).trans hvalid
    · exact (hkeep (by decide) (by decide) (by decide) (by decide)).trans hkind
    · exact (hkeep (by decide) (by decide) (by decide) (by decide)).trans (hrule.trans (Nat.mod_eq_of_lt n.isLt))
    · exact (hkeep (by decide) (by decide) (by decide) (by decide)).trans (hchan.trans (Nat.mod_eq_of_lt (Nat.lt_of_lt_of_le c.isLt (by decide))))
    · rw [violate_acted _ _ _ _ _ _ hact]
      obtain ⟨F, hF⟩ := violShown_only s0 n.val 3 c.val (ref + b0) true
      have hregs := violShown_regs s0 n.val 3 c.val (ref + b0) true
      rw [State.violHeld]
      generalize s0.violShown n.val 3 c.val (ref + b0) true = v at *
      subst hF
      exact ⟨rfl, hregs, sameRest_mk_hrv s0 _ _ _⟩
  · intro e htail harm hseg hdone
    refine .of_performOnAt (exec_hedgeTailEnd t s) hp ?_
    obtain ⟨v, p, t', hv, hu⟩ := hedgeTailEnd_stops s t e htail harm hseg hdone
    rw [hu]
    obtain ⟨hst, hcause⟩ := enterStopping_shows v p t' (cause := 2) (by decide)
    exact ⟨hst, hcause, (congrArg Hdg.tail (enterStopping_hdg v 2 p t')).trans hv⟩

end Sys2Proof
end

