-- ==== Sys2Proof/Proofs/ClockParts.lean ====
section
/-! SUPPORT. The parts of clock synthesis: what a start of a lock, the gate of the sample domain and the flags of a hop leave as it is. -/

namespace Sys2Proof.Machine

/-! ### The gate of the sample domain, whatever acquisition does -/

theorem State.relockOpen_untrl (s : State) (t : Nat) : (s.relockOpen t).apart.unopen.unstat.untrl = s.apart.unopen.unstat.untrl := by
  simp only [State.relockOpen, State.ringStart, State.sivSeq, State.setSiv, State.relevel]
  (repeat' split) <;> simp

/-- Clock synthesis without the state of the gate itself. -/
def Clk.ungated (c : Clk) : Clk := { c with gatePos := 0, susLog := [], dllSuspect := [], qualAt := none }

/-- What a change at the gate of the sample domain leaves: of clock synthesis all but the gate's own state, and the low registers but
the lock of the tile DLLs. -/
structure GateStep (s u : State) : Prop where
  clk : u.clk.ungated = s.clk.ungated
  low : ∀ f : Fld, f.key < 0x280000 → f.key ≠ CLK_STAT_dll_lock.key → u.rd f = s.rd f

theorem GateStep.refl (s : State) : GateStep s s := ⟨rfl, fun _ _ _ => rfl⟩

theorem GateStep.trans {s u v : State} (h : GateStep s u) (k : GateStep u v) : GateStep s v :=
  ⟨k.clk.trans h.clk, fun f h1 h2 => (k.low f h1 h2).trans (h.low f h1 h2)⟩

theorem GateStep.of_fields {s u : State} (hc : u.clk.ungated = s.clk.ungated) (hf : u.fields = s.fields) : GateStep s u :=
  ⟨hc, fun f _ _ => by rw [State.rd, State.rd, hf]⟩

theorem GateStep.wr {s u : State} (h : GateStep s u) (v : Nat) : GateStep s (u.wr CLK_STAT_dll_lock v) :=
  ⟨h.clk, fun f hl hf => (State.rd_wr_ne _ _ _ _ (Ne.symm hf)).trans (h.low f hl hf)⟩

theorem GateStep.of_unhdg {s u : State} (h : u.apart.unopen.unstat.untrl.unhdg = s.apart.unopen.unstat.untrl.unhdg) : GateStep s u :=
  ⟨congrArg (fun a => a.clk.ungated) h, fun _ hf _ => rd_low_of_unhdg h hf⟩

theorem gate_advance (s : State) (t : Nat) : GateStep s (s.advance t) := by
  obtain ⟨b, hb, _⟩ := s.advance_moves t
  exact .of_fields (by rw [hb]) (by rw [hb])

theorem gate_relockClose (s : State) (t c : Nat) : GateStep s (s.relockClose t c) := by
  have h := s.relockClose_unhdg t c
  split at h
  · exact (gate_advance s t).trans (.of_unhdg h)
  · exact .of_unhdg h

theorem gate_susDone (s : State) (t x y : Nat) : GateStep s (s.susDone t x y) := .of_fields rfl rfl

theorem gate_susDones (t : Nat) (l : List (Nat × Nat)) (s : State) : GateStep s (l.foldl (fun s q => s.susDone t 3 q.1) s) := by
  induction l generalizing s with
  | nil => exact .refl s
  | cons q l ih => exact (gate_susDone s t 3 q.1).trans (ih _)

/-- The sample domain once what ran in it has been closed. -/
def State.closing (s : State) (t c : Nat) : State := s.clk.dllSuspect.foldl (fun s q => s.susDone t 3 q.1) (s.relockClose t c)

theorem gate_closing (s : State) (t c : Nat) : GateStep s (s.closing t c) := (gate_relockClose s t c).trans (gate_susDones _ _ _)

/-- The sample domain gated at position `p`. -/
def State.shut (s : State) (p : Nat) : State :=
  { s.wr CLK_STAT_dll_lock 0 with grid := { s.grid with run := false }, clk := { s.clk with gatePos := p, dllSuspect := [] } }

theorem gate_shut (s : State) (p : Nat) : GateStep s (s.shut p) :=
  ⟨rfl, fun _ _ hf => (State.rd_mk ..).trans (State.rd_wr_ne _ _ _ _ (Ne.symm hf))⟩

theorem domClose_eq {s : State} (h : s.grid.run = true) (t c : Nat) : s.domClose t c =
    if ((s.closing t c).shut (s.grid.posOf t)).on CLK_STAT_s_src_act then ((s.closing t c).shut (s.grid.posOf t)).qualFrom t
    else (s.closing t c).shut (s.grid.posOf t) :=
  if_neg (by rw [h]; decide)

theorem domClose_shut {s : State} (h : s.grid.run = false) (t c : Nat) : s.domClose t c = s := if_pos (by rw [h]; rfl)

theorem gate_qualFrom (s : State) (t : Nat) : GateStep s (s.qualFrom t) := .of_fields rfl rfl

/-- The sample domain that is gated: it stands still, no tile DLL is suspect, and in DLL mode it qualifies from then on. -/
theorem domClose_shows {s : State} (h : s.grid.run = true) (t c : Nat) :
    (s.domClose t c).grid.run = false ∧ (s.domClose t c).clk.dllSuspect = []
      ∧ (s.on CLK_STAT_s_src_act = true → (s.domClose t c).clk.qualAt = some t) := by
  have hon : ((s.closing t c).shut (s.grid.posOf t)).on CLK_STAT_s_src_act = s.on CLK_STAT_s_src_act := by
    rw [State.on, State.on, ((gate_closing s t c).trans (gate_shut _ _)).low CLK_STAT_s_src_act (by decide) (by decide)]
  rw [domClose_eq h, hon]
  split
  · exact ⟨rfl, rfl, fun _ => rfl⟩
  · next hs => exact ⟨rfl, rfl, fun k => absurd k hs⟩

theorem gate_domClose (s : State) (t c : Nat) : GateStep s (s.domClose t c) := by
  cases h : s.grid.run with
  | false => rw [domClose_shut h]; exact .refl s
  | true =>
    have hs := (gate_closing s t c).trans (gate_shut _ (s.grid.posOf t))
    rw [domClose_eq h]
    split
    · exact hs.trans (gate_qualFrom _ t)
    · exact hs

theorem gate_relockOpen (s : State) (t : Nat) : GateStep s (s.relockOpen t) := .of_unhdg (congrArg Apart.unhdg (State.relockOpen_untrl s t))

theorem gate_domOpen (s : State) (t : Nat) : GateStep s (s.domOpen t) := by
  unfold State.domOpen
  split
  · exact .refl s
  · refine GateStep.trans ?_ (gate_relockOpen _ t)
    exact .of_fields rfl rfl

theorem gate_qualEnd (s : State) (t : Nat) : GateStep s (s.qualEnd t) := by
  unfold State.qualEnd
  split
  · split
    · exact .of_fields rfl rfl
    · exact .refl s
  · exact .refl s

theorem gate_domEval (s : State) (t c : Nat) : GateStep s (s.domEval t c) := by
  unfold State.domEval
  dsimp only
  split
  · exact (gate_qualEnd s t).trans (gate_domOpen _ t)
  · exact (gate_qualEnd s t).trans (gate_domClose _ t c)

/-! ### The same, with acquisition idle -/

/-- A step of clock synthesis: registers, its hidden state, the grid, and pulses that end. -/
structure ClkStep (s u : State) (l : List Fld) : Prop where
  moves : ∃ F C G O, u = { s with fields := F, clk := C, grid := G, trl := { s.trl with out := O } }
  regs : SameRegs s u l

theorem ClkStep.refl (s : State) (l : List Fld) : ClkStep s s l := ⟨⟨_, _, _, _, rfl⟩, fun _ _ => rfl⟩

theorem ClkStep.trans {s u v : State} {l : List Fld} (h : ClkStep s u l) (k : ClkStep u v l) : ClkStep s v l := by
  obtain ⟨⟨F, C, G, O, hu⟩, hr⟩ := h
  obtain ⟨⟨F', C', G', O', kv⟩, kr⟩ := k
  exact ⟨⟨F', C', G', O', by rw [kv, hu]⟩, fun f hf => (kr f hf).trans (hr f hf)⟩

theorem ClkStep.mono {s u : State} {l l' : List Fld} (h : ClkStep s u l) (hl : l.map Fld.key ⊆ l'.map Fld.key) : ClkStep s u l' :=
  ⟨h.moves, fun f hf => h.regs f fun k => hf (hl k)⟩

theorem ClkStep.wr {s u : State} {l : List Fld} (h : ClkStep s u l) {f : Fld} (v : Nat) (hf : f.key ∈ l.map Fld.key) : ClkStep s (u.wr f v) l := by
  obtain ⟨F, C, G, O, hu⟩ := h.moves
  exact ⟨⟨((u.wr f v).fields), C, G, O, by rw [hu]; rfl⟩, h.regs.wr f v hf⟩

theorem ClkStep.of_mk (s : State) (C : Clk) (G : Grid) (O : List (Nat × Nat)) (l : List Fld) :
    ClkStep s { s with clk := C, grid := G, trl := { s.trl with out := O } } l := ⟨⟨_, C, G, O, rfl⟩, fun _ _ => State.rd_mk ..⟩

theorem ClkStep.of_clk (s : State) (C : Clk) (l : List Fld) : ClkStep s { s with clk := C } l := .of_mk s C s.grid s.trl.out l

/-- The state of acquisition through such a step. -/
theorem ClkStep.acqSt {s u : State} {l : List Fld} (h : ClkStep s u l) (hl : ACQ_STAT_state.key ∉ l.map Fld.key) : u.acqSt = s.acqSt := h.regs _ hl

theorem susDones_step (t : Nat) (l : List (Nat × Nat)) (s : State) (m : List Fld) : ClkStep s (l.foldl (fun s q => s.susDone t 3 q.1) s) m := by
  induction l generalizing s with
  | nil => exact .refl s m
  | cons q l ih => exact (ClkStep.of_clk s _ m).trans (ih _)

theorem domClose_step {s : State} (h : s.acqSt = 0) (t c : Nat) : ClkStep s (s.domClose t c) [CLK_STAT_dll_lock] := by
  cases hr : s.grid.run with
  | false => rw [domClose_shut hr]; exact .refl s _
  | true =>
    have hc : s.relockClose t c = s := by simp [State.relockClose, State.armed_of_idle h]
    have hs : ClkStep s ((s.closing t c).shut (s.grid.posOf t)) [CLK_STAT_dll_lock] := by
      rw [State.closing, hc]
      exact ((susDones_step t _ s _).wr 0 (by decide)).trans (.of_mk _ _ _ _ _)
    rw [domClose_eq hr]
    split
    · exact hs.trans (.of_clk _ _ _)
    · exact hs

theorem domOpen_step {s : State} (h : s.acqSt = 0) (t : Nat) (l : List Fld) : ClkStep s (s.domOpen t) l := by
  unfold State.domOpen
  split
  · exact .refl s l
  · rw [State.relockOpen, if_neg (by simp [State.armed, State.acqSt, State.regrid, show s.rd ACQ_STAT_state = 0 from h])]
    exact .of_mk s s.clk _ s.trl.out l

theorem qualEnd_step (s : State) (t : Nat) (l : List Fld) : ClkStep s (s.qualEnd t) l := by
  unfold State.qualEnd
  split
  · split
    · exact .of_clk s _ l
    · exact .refl s l
  · exact .refl s l

theorem domEval_step {s : State} (h : s.acqSt = 0) (t c : Nat) : ClkStep s (s.domEval t c) [CLK_STAT_dll_lock] := by
  have hq := qualEnd_step s t [CLK_STAT_dll_lock]
  have h0 : (s.qualEnd t).acqSt = 0 := (hq.acqSt (by decide)).trans h
  unfold State.domEval
  dsimp only
  split
  · exact hq.trans (domOpen_step h0 t _)
  · exact hq.trans (domClose_step h0 t c)

/-! ### An ADPLL -/

theorem putPll_step (s : State) (x : Nat) (p : PllSt) (l : List Fld) : ClkStep s (s.putPll x p) l := .of_clk s _ l

theorem pllTo_step (s : State) (x k : Nat) : ClkStep s (s.pllTo x k) [CLK_x_STAT_state x, CLK_x_STAT_gated x] := by
  have h : ∀ v, ClkStep s ((s.wr (CLK_x_STAT_state x) k).wr (CLK_x_STAT_gated x) v) [CLK_x_STAT_state x, CLK_x_STAT_gated x] := fun v =>
    ((ClkStep.refl s _).wr k (List.mem_map_of_mem (by simp))).wr v (List.mem_map_of_mem (by simp))
  unfold State.pllTo
  dsimp only
  split
  · exact (h _).trans ((putPll_step _ _ _ _).trans (.of_mk _ _ _ _ _))
  · exact (h _).trans (putPll_step _ _ _ _)

/-- The gate that the state of an ADPLL asks for. -/
theorem pllTo_gated (s : State) (x k : Nat) : (s.pllTo x k).rd (CLK_x_STAT_gated x) = b2n !(decide (k = 4) || decide (k = 5)) := by
  have hb : ∀ b : Bool, b2n b % 2 = b2n b := by decide
  unfold State.pllTo
  dsimp only
  split
  · exact ((State.rd_mk ..).trans (State.rd_wr_same _ _ _)).trans (hb _)
  · exact ((State.rd_mk ..).trans (State.rd_wr_same _ _ _)).trans (hb _)

theorem startLock_step (s : State) (x : Nat) : ClkStep s (s.startLock x) (lockFlds x) := by
  have hp : ∀ u k, ClkStep u (State.pllTo u x k) (lockFlds x) := fun u k => (pllTo_step u x k).mono (by simp [lockFlds])
  unfold State.startLock
  dsimp only
  split
  · exact ((putPll_step s x _ _).wr _ (List.mem_map_of_mem (by simp [lockFlds]))).trans (hp _ 2)
  · split
    · split
      · exact (putPll_step s x _ _).trans (hp _ 2)
      · exact (putPll_step s x _ _).trans (hp _ 1)
    · exact (putPll_step s x _ _).trans (hp _ 1)

/-- The start of a lock shuts the ADPLL's gate. -/
theorem startLock_gated (s : State) (x : Nat) : (s.startLock x).rd (CLK_x_STAT_gated x) = 1 := by
  unfold State.startLock
  dsimp only
  split
  · exact pllTo_gated _ x 2
  · split
    · split
      · exact pllTo_gated _ x 2
      · exact pllTo_gated _ x 1
    · exact pllTo_gated _ x 1

theorem pllUnsus_step (s : State) (x t : Nat) : ClkStep s (s.pllUnsus x t) [CLK_x_STAT_suspect x] :=
  ((putPll_step s x _ _).wr 0 (List.mem_map_of_mem (by simp))).trans (.of_clk _ _ _)

/-- The flags that show how the hops stand. -/
def hopFlds : List Fld := [CLK_HOP_pending, CLK_HOP_wait_idle, CLK_HOP_wait_gather]

theorem hopFlags_step (s : State) : ClkStep s s.hopFlags hopFlds :=
  (((ClkStep.refl s _).wr _ (by decide)).wr _ (by decide)).wr _ (by decide)

end Sys2Proof.Machine
end

