-- ==== Sys2Proof/Proofs/AdpllControl.lean ====
section
/-! SUPPORT. CLK_x_CTL and the band table: the statement of O23. -/

namespace Sys2Proof.Machine

/-! ### The Graft ports as ADPLL-C's gate moves -/

/-- The registers that a port's state is shown in. -/
def portFlds : List Fld := [GRF_GLn_STAT_state 0, GRF_GLn_STAT_state 1, GRF_GLn_STAT_state 2, GRF_GLn_STAT_state 3, GRF_EVT_link_down]

/-- A step of the Graft ports. -/
structure PortStep (s u : State) : Prop where
  moves : ∃ F G, u = { s with fields := F, grf := G }
  regs : SameRegs s u portFlds

theorem PortStep.refl (s : State) : PortStep s s := ⟨⟨_, _, rfl⟩, fun _ _ => rfl⟩

theorem PortStep.trans {s u v : State} (h : PortStep s u) (k : PortStep u v) : PortStep s v := by
  obtain ⟨⟨F, G, hu⟩, hr⟩ := h
  obtain ⟨⟨F', G', kv⟩, kr⟩ := k
  exact ⟨⟨F', G', by rw [kv, hu]⟩, fun f hf => (kr f hf).trans (hr f hf)⟩

theorem portState_mem {n : Nat} (hn : n < 4) : (GRF_GLn_STAT_state n).key ∈ portFlds.map Fld.key := by
  have : n = 0 ∨ n = 1 ∨ n = 2 ∨ n = 3 := by omega
  rcases this with h | h | h | h <;> subst h <;> decide

theorem portTo_step (s : State) {n : Nat} (hn : n < 4) (k : Nat) : PortStep s (s.portTo n k) :=
  ⟨State.portTo_moves s n k, fun f hf => State.rd_portTo s n k (fun h => hf (h ▸ portState_mem hn)) fun h => hf (h ▸ by decide)⟩

theorem portEval_step (s : State) {n : Nat} (hn : n < 4) : PortStep s (State.portEval n s) := by
  unfold State.portEval
  split
  · split
    · exact portTo_step s hn 1
    · exact .refl s
  · split
    · exact .refl s
    · exact portTo_step s hn 0

theorem coreRun_ports {s u : State} (h : PortStep s u) : u.coreRun = s.coreRun := by
  rw [State.coreRun, State.coreRun, State.mode, State.mode, h.regs GLB_STAT_active_mode (by decide), h.regs (CLK_x_STAT_gated 1) (by decide)]

theorem portsEvals_step (l : List Nat) (hl : ∀ n ∈ l, n < 4) (s : State) : PortStep s (l.foldl (fun s n => s.portEval n) s) := by
  induction l generalizing s with
  | nil => exact .refl s
  | cons n l ih =>
    obtain ⟨hn, hl⟩ := List.forall_mem_cons.1 hl
    exact (portEval_step s hn).trans (ih hl _)

theorem portsEval_step (s : State) : PortStep s s.portsEval := portsEvals_step (List.range 4) (fun _ h => List.mem_range.1 h) s

/-- With the core domain gated a port that is looked at is OFF, and one that is OFF stays so. -/
theorem portEval_shut {s : State} (h : s.coreRun = false) (n : Nat) :
    (State.portEval n s).rd (GRF_GLn_STAT_state n) = 0
      ∧ ∀ m, s.rd (GRF_GLn_STAT_state m) = 0 → (State.portEval n s).rd (GRF_GLn_STAT_state m) = 0 := by
  unfold State.portEval
  rw [h, Bool.and_false, if_neg Bool.false_ne_true]
  split
  · next h0 => exact ⟨h0, fun _ hm => hm⟩
  · refine ⟨State.rd_wr_same _ _ _, fun m hm => ?_⟩
    by_cases he : m = n
    · subst he
      exact State.rd_wr_same _ _ _
    · rw [State.rd_portTo s n 0 (by simp only [Fld.key, GRF_GLn_STAT_state]; omega) (GRF_GLn_STAT_state_ne_down m)]
      exact hm

theorem portsEvals_shut (l : List Nat) (hl : ∀ n ∈ l, n < 4) (s : State) (h : s.coreRun = false) (n : Nat)
    (hn : n ∈ l ∨ s.rd (GRF_GLn_STAT_state n) = 0) : (l.foldl (fun s n => s.portEval n) s).rd (GRF_GLn_STAT_state n) = 0 := by
  induction l generalizing s with
  | nil => exact hn.resolve_left List.not_mem_nil
  | cons a l ih =>
    obtain ⟨ha, hl⟩ := List.forall_mem_cons.1 hl
    obtain ⟨h1, h2⟩ := portEval_shut h a
    refine ih hl _ ((coreRun_ports (portEval_step s ha)).trans h) ?_
    rcases hn with hm | hm
    · rcases List.mem_cons.1 hm with rfl | hm
      · exact .inr h1
      · exact .inl hm
    · exact .inr (h2 n hm)

theorem portsEval_shut {s : State} (h : s.rd (CLK_x_STAT_gated 1) = 1) {n : Nat} (hn : n < 4) : s.portsEval.rd (GRF_GLn_STAT_state n) = 0 :=
  portsEvals_shut (List.range 4) (fun _ h => List.mem_range.1 h) s (by simp [State.coreRun, h]) n (.inl (List.mem_range.2 hn))

/-! ### An ADPLL that is enabled or searches -/

theorem startLock_found {s : State} {x i : Nat} (h : s.btFind x (s.rd (CLK_x_TARGET_freq x)) = some i) :
    (s.startLock x).rd (CLK_x_STAT_state x) = 2 ∧ (s.startLock x).rd (CLK_x_STAT_bt_idx x) = i := by
  have hi : i < 16 := List.mem_range.1 (List.mem_of_find?_eq_some h)
  unfold State.startLock
  dsimp only
  rw [h]
  constructor
  · rw [State.rd_pllTo _ _ _ (CLK_x_STAT_state_ne_gated x x), State.rd_wr_same]
    rfl
  · rw [State.rd_pllTo _ _ _ (by simp only [Fld.key, CLK_x_STAT_bt_idx, CLK_x_STAT_gated]; omega), State.rd_wr_ne _ _ _ _ (CLK_x_STAT_state_ne_idx x x),
      State.rd_wr_same]
    exact Nat.mod_eq_of_lt hi

theorem pllTo_state (s : State) (x k : Nat) : (s.pllTo x k).rd (CLK_x_STAT_state x) = k % 8 := by
  rw [State.rd_pllTo _ _ _ (CLK_x_STAT_state_ne_gated x x), State.rd_wr_same]
  rfl

theorem startLock_search {s : State} {x : Nat} (h : s.btFind x (s.rd (CLK_x_TARGET_freq x)) = none) (hw : (s.pll x).work = none) :
    (s.startLock x).rd (CLK_x_STAT_state x) = 1 := by
  unfold State.startLock
  dsimp only
  rw [h]
  dsimp only
  rw [hw]
  exact pllTo_state _ x 1

/-- ADPLL `x` once it is enabled, and, where a search is asked for while acquisition is idle, searches. -/
def State.pllMoved (s : State) (x : Nat) (search : Bool) : State :=
  let s1 := s.wr (CLK_x_CTL_en x) 1
  let s2 := if s1.pllSt x = 7 then s1
    else if !s.on (CLK_x_CTL_en x) || decide (s1.pllSt x = 0) then (s1.putPll x { s1.pll x with fails := 0 }).startLock x else s1
  if search && s.idle then ((s2.pllUnsus x s.tmb.kt).putPll x { s2.pll x with suspect := none, fails := 0, miss := none }).pllTo x 1 else s2

/-- What follows a change of ADPLL `x`: the gate of the sample domain, the Graft ports and the flags of the hops. -/
def State.pllFollows (s : State) (x t : Nat) : State := (if x = 1 then (s.domEval t 2).portsEval else s.domEval t 2).hopFlags

/-- ADPLL `x` as CLK_x_CTL starts, stops or searches it. -/
def State.pllFirst (s : State) (x : Nat) (en search : Bool) : State :=
  let s1 := s.wr (CLK_x_CTL_en x) (b2n en)
  let s2 := if s1.pllSt x = 7 then s1
    else if en && (!s.on (CLK_x_CTL_en x) || s1.pllSt x = 0) then (s1.putPll x { s1.pll x with fails := 0 }).startLock x
    else if !en && s.on (CLK_x_CTL_en x) then (s1.pllUnsus x s.tmb.kt).pllTo x 0 else s1
  if search && en && s.idle then ((s2.pllUnsus x s.tmb.kt).putPll x { s2.pll x with suspect := none, fails := 0, miss := none }).pllTo x 1 else s2

/-- A running hop of an ADPLL that is disabled is done. -/
def State.hopEnds (s : State) (x : Nat) (en : Bool) : State :=
  match s.clk.hopRun with
  | some h => if h.pll = x && !en then ({ s with clk := { s.clk with hopRun := none } }).orF CLK_EVT_hop_done 1 else s
  | none => s

theorem pllCtl_eq (s : State) (x : Nat) (en search : Bool) : s.pllCtl x en search = ((s.pllFirst x en search).hopEnds x en).pllFollows x s.tmb.kt := rfl

theorem pllFirst_on (s : State) (x : Nat) (search : Bool) : s.pllFirst x true search = s.pllMoved x search := by
  simp only [State.pllFirst, State.pllMoved, Bool.not_true, Bool.and_true, Bool.true_and, Bool.false_and, Bool.false_eq_true, if_false, b2n, if_true]

theorem hopEnds_on (s : State) (x : Nat) : s.hopEnds x true = s := by
  unfold State.hopEnds
  split
  · exact if_neg (by simp)
  · rfl

theorem pllCtl_on (s : State) (x : Nat) (search : Bool) : s.pllCtl x true search = (s.pllMoved x search).pllFollows x s.tmb.kt := by
  rw [pllCtl_eq, pllFirst_on, hopEnds_on]

theorem en_ne_lock (x : Nat) : (CLK_x_CTL_en x).key ∉ (CLK_x_STAT_suspect x :: lockFlds x).map Fld.key := by
  simp only [lockFlds, List.map_cons, List.map_nil, List.mem_cons, List.not_mem_nil, or_false, Fld.key, CLK_x_CTL_en, CLK_x_STAT_suspect, CLK_x_STAT_state,
    CLK_x_STAT_gated, CLK_x_STAT_bt_idx]
  omega

/-- The first lock of an ADPLL that is enabled. -/
def State.pllStarts (s : State) (x : Nat) : State := (s.putPll x { s.pll x with fails := 0 }).startLock x

theorem pllStarts_step (s : State) (x : Nat) : ClkStep s (s.pllStarts x) (lockFlds x) := (putPll_step s x _ _).trans (startLock_step _ x)

theorem pllMoved_step (s : State) (x : Nat) (search : Bool) : ClkStep (s.wr (CLK_x_CTL_en x) 1) (s.pllMoved x search) (CLK_x_STAT_suspect x :: lockFlds x) := by
  have hl : (lockFlds x).map Fld.key ⊆ (CLK_x_STAT_suspect x :: lockFlds x).map Fld.key := by simp
  have h2 : ∀ c d : Prop, ∀ [Decidable c] [Decidable d], ClkStep (s.wr (CLK_x_CTL_en x) 1)
      (if c then s.wr (CLK_x_CTL_en x) 1 else if d then (s.wr (CLK_x_CTL_en x) 1).pllStarts x else s.wr (CLK_x_CTL_en x) 1)
      (CLK_x_STAT_suspect x :: lockFlds x) := fun c d _ _ => by
    split
    · exact .refl _ _
    · split
      · exact (pllStarts_step _ x).mono hl
      · exact .refl _ _
  unfold State.pllMoved
  dsimp only
  split
  · refine (h2 _ _).trans (((pllUnsus_step _ x _).mono (by simp)).trans ((putPll_step _ x _ _).trans ((pllTo_step _ x 1).mono ?_)))
    simp [lockFlds]
  · exact h2 _ _

/-- An enabled ADPLL shows it. -/
theorem pllMoved_en (s : State) (x : Nat) (search : Bool) : (s.pllMoved x search).rd (CLK_x_CTL_en x) = 1 :=
  ((pllMoved_step s x search).regs _ (en_ne_lock x)).trans (State.rd_wr_same _ _ _)

theorem pllSt_en (s : State) (x : Nat) (v : Nat) : (s.wr (CLK_x_CTL_en x) v).pllSt x = s.pllSt x :=
  State.rd_wr_ne _ _ _ _ (by simp only [Fld.key, CLK_x_CTL_en, CLK_x_STAT_state]; omega)

/-- A FAILED ADPLL that is enabled without a search stays so. -/
theorem pllMoved_failed {s : State} {x : Nat} (h : s.pllSt x = 7) : s.pllMoved x false = s.wr (CLK_x_CTL_en x) 1 := by
  have h' := (pllSt_en s x 1).trans h
  simp only [State.pllMoved, h', if_true, Bool.false_and, Bool.false_eq_true, if_false]

/-- Another that was disabled starts a lock. -/
theorem pllMoved_starts {s : State} {x : Nat} (h : s.pllSt x ≠ 7) (hen : s.rd (CLK_x_CTL_en x) = 0) :
    s.pllMoved x false = (s.wr (CLK_x_CTL_en x) 1).pllStarts x := by
  have h' : (s.wr (CLK_x_CTL_en x) 1).pllSt x ≠ 7 := by rwa [pllSt_en]
  have ho : s.on (CLK_x_CTL_en x) = false := by rw [State.on, hen]; rfl
  simp only [State.pllMoved, h', ho, Bool.not_false, Bool.true_or, if_true, if_false, Bool.false_and, Bool.false_eq_true, State.pllStarts]

/-- A search while acquisition is idle. -/
theorem pllMoved_search {s : State} {x : Nat} (h : s.acqSt = 0) : (s.pllMoved x true).rd (CLK_x_STAT_state x) = 1
    ∧ (s.pllMoved x true).rd (CLK_x_STAT_gated x) = 1 := by
  have hi : (true && s.idle) = true := by rw [State.idle, h]; rfl
  unfold State.pllMoved
  dsimp only
  rw [if_pos hi]
  exact ⟨pllTo_state _ x 1, pllTo_gated _ x 1⟩

/-! ### What follows -/

/-- The registers that what follows a change of an ADPLL may write. -/
def followFlds : List Fld := CLK_STAT_dll_lock :: hopFlds

theorem hopFlds_low : ∀ f ∈ hopFlds, f.key < 0x280000 := by decide

theorem portFlds_high : ∀ f ∈ portFlds, 0x280000 ≤ f.key := by decide

theorem not_port {f : Fld} (h : f.key < 0x280000) : f.key ∉ portFlds.map Fld.key := fun hm => by
  obtain ⟨g, hg, he⟩ := List.mem_map.1 hm
  have := portFlds_high g hg
  omega

theorem rd_pllFollows (s : State) (x t : Nat) {f : Fld} (hl : f.key < 0x280000) (hf : f.key ∉ followFlds.map Fld.key) :
    (s.pllFollows x t).rd f = s.rd f := by
  have hd : f.key ≠ CLK_STAT_dll_lock.key := fun h => hf (h ▸ by decide)
  have hh : f.key ∉ hopFlds.map Fld.key := fun h => hf (List.mem_cons_of_mem _ h)
  have hg := (gate_domEval s t 2).low f hl hd
  unfold State.pllFollows
  rw [(hopFlags_step _).regs f hh]
  split
  · exact ((portsEval_step _).regs f (not_port hl)).trans hg
  · exact hg

/-- The same while acquisition is idle: what else moves, and the ports where ADPLL-C is gated. -/
theorem pllFollows_step {s : State} (h : s.acqSt = 0) (x t : Nat) :
    (x ≠ 1 → ClkStep s (s.pllFollows x t) followFlds)
      ∧ (x = 1 → s.rd (CLK_x_STAT_gated 1) = 1 →
          (∃ F C G O R, s.pllFollows x t = { s with fields := F, clk := C, grid := G, grf := R, trl := { s.trl with out := O } }) ∧ SameRegs s (s.pllFollows x t) (followFlds ++ portFlds)
          ∧ ∀ n < 4, (s.pllFollows x t).rd (GRF_GLn_STAT_state n) = 0) := by
  have hd : ClkStep s (s.domEval t 2) followFlds := (domEval_step h t 2).mono (by simp [followFlds])
  have hh : ∀ u : State, ClkStep u u.hopFlags followFlds := fun u => (hopFlags_step u).mono (by simp [followFlds])
  unfold State.pllFollows
  refine ⟨fun hx => ?_, fun hx hg => ?_⟩
  · rw [if_neg hx]
    exact hd.trans (hh _)
  · rw [if_pos hx]
    have hs := portsEval_step (s.domEval t 2)
    have h0 : ∀ n < 4, ((s.domEval t 2).portsEval).hopFlags.rd (GRF_GLn_STAT_state n) = 0 := fun n hn => by
      rw [(hh _).regs _ (by
        simp only [followFlds, hopFlds, List.map_cons, List.map_nil, List.mem_cons, List.not_mem_nil, or_false, Fld.key, GRF_GLn_STAT_state,
          CLK_STAT_dll_lock, CLK_HOP_pending, CLK_HOP_wait_idle, CLK_HOP_wait_gather]
        omega)]
      exact portsEval_shut ((hd.regs _ (by decide)).trans hg) hn
    refine ⟨?_, fun f hf => ?_, h0⟩
    · obtain ⟨F1, C1, G1, O1, e1⟩ := hd.moves
      obtain ⟨F2, R, e2⟩ := hs.moves
      obtain ⟨F3, C3, G3, O3, e3⟩ := (hh (s.domEval t 2).portsEval).moves
      exact ⟨F3, C3, G3, O3, R, by rw [e3, e2, e1]⟩
    · rw [List.map_append, List.mem_append, not_or] at hf
      exact ((hh _).regs f hf.1).trans ((hs.regs f hf.2).trans (hd.regs f hf.1))

/-! ### The writes -/

theorem regAt_ctl : ∀ x : Pll, (regAt (CLK_x_CTL_en x.val).addr).map (fun r => softFlds (r.1.flds r.2.1 r.2.2)) = some [CLK_x_CTL_en x.val] := by
  decide

theorem btAt_ctl (x : Nat) : btAt (CLK_x_CTL_en x).addr = none := by
  refine if_neg fun h => ?_
  have := h.2.2.2
  simp only [CLK_x_CTL_en] at this
  omega

theorem effect_clk (p : Port) {a : Nat} (v bm : Nat) (o s : State) (h : a / 0x10000 = 1) : State.effect p a v bm o s = State.effClk a v o s := by
  simp only [State.effect, h]

theorem effect_ctl (x : Pll) (p : Port) (v bm : Nat) (o s : State) : State.effect p (CLK_x_CTL_en x.val).addr v bm o s
    = (s.wr (CLK_x_CTL_en x.val) (o.rd (CLK_x_CTL_en x.val))).pllCtl x.val (s.on (CLK_x_CTL_en x.val)) (decide ((CLK_x_CTL_search x.val).of v = 1)) := by
  have ha : (CLK_x_CTL_en x.val).addr = 0x10100 + 256 * x.val := rfl
  have hx : (0x10100 + 256 * x.val - 0x10100) / 256 = x.val := by omega
  rw [effect_clk p v bm o s (by rw [ha]; omega), State.effClk, btAt_ctl, ha, if_neg (by simp only [CLK_CFG_s_src]; omega),
    if_neg (by simp only [CLK_HOP_start]; omega), if_neg (by simp only [CLK_EXT_CFG_freq]; omega)]
  dsimp only
  rw [hx]
  exact if_pos (by omega)

/-- A write of CLK_x_CTL with en = 1. -/
theorem ctl_write {s : State} {p : Port} (x : Pll) {v : Nat} (t : Nat) (h : Reaches p (CLK_x_CTL_en x.val).addr s) (hv : v < 2 ^ 32) (h0 : v % 2 = 1) :
    ∃ w q, SameRegs s w [CLK_x_CTL_en x.val] ∧ w.rd (CLK_x_CTL_en x.val) = s.rd (CLK_x_CTL_en x.val) % 2
      ∧ (∃ F b k, w = { s with fields := F, hrv := { s.hrv with l12 := b }, tmb := k } ∧ k.kt = max s.tmb.kt t)
      ∧ State.writeAt p (CLK_x_CTL_en x.val).addr v t s
        = { (w.pllMoved x.val (decide (v / 2 % 2 = 1))).pllFollows x.val w.tmb.kt with irqSeen := q } := by
  have ha : (CLK_x_CTL_en x.val).addr < 0x140000 ∧ (CLK_x_CTL_en x.val).addr % 4 = 0 ∧ (CLK_x_CTL_en x.val).addr / 0x10000 = 1 := by
    simp only [CLK_x_CTL_en]
    omega
  obtain ⟨F, b, k, hs, hk⟩ := stored_advance [CLK_x_CTL_en x.val] v s t p
  have hc : (s.advance t).closed (CLK_x_CTL_en x.val).addr = false := by simp [State.closed, ha.2.2]
  have hi : (s.advance t).ignored (CLK_x_CTL_en x.val).addr = false := by
    simp only [State.ignored, ha.2.2, btAt_ctl]
  have hen : (stored [CLK_x_CTL_en x.val] v (s.advance t) p).on (CLK_x_CTL_en x.val) = true := by
    rw [State.on, rd_stored v _ p (by simp) (by simp), Fld.stored_word _ _ rfl (show (1 : Nat) ≠ 0 by decide) (show 0 + 1 ≤ 32 by decide)]
    have : (CLK_x_CTL_en x.val).of v = 1 := by
      show v / 2 ^ 0 % 2 ^ 1 = 1
      omega
    rw [this]
    rfl
  have hof : (CLK_x_CTL_search x.val).of v = v / 2 % 2 := rfl
  have he : State.writeAt p (CLK_x_CTL_en x.val).addr v t s = State.reSignal (CLK_x_CTL_en x.val).addr
      ((((stored [CLK_x_CTL_en x.val] v (s.advance t) p).wr (CLK_x_CTL_en x.val) (s.rd (CLK_x_CTL_en x.val))).pllMoved x.val
        (decide (v / 2 % 2 = 1))).pllFollows x.val (stored [CLK_x_CTL_en x.val] v (s.advance t) p).tmb.kt) := by
    rw [State.writeAt, portWrite_stores p _ v _ _ (h.advance t) hv ha.1 ha.2.1 hc hi (regAt_ctl x), effect_ctl, hen, hof, State.rd_usedBy, State.rd_advance,
      pllCtl_on]
    rfl
  have hr : SameRegs s ((stored [CLK_x_CTL_en x.val] v (s.advance t) p).wr (CLK_x_CTL_en x.val) (s.rd (CLK_x_CTL_en x.val))) [CLK_x_CTL_en x.val] := fun f hf => by
    have hne : f.key ≠ (CLK_x_CTL_en x.val).key := fun e => hf (e ▸ List.mem_map_of_mem (by simp))
    rw [State.rd_wr_ne _ _ _ _ hne.symm, rd_stored_ne _ _ _ hf, State.rd_advance]
  obtain ⟨q, hq⟩ := State.reSignal_moves (CLK_x_CTL_en x.val).addr
    ((((stored [CLK_x_CTL_en x.val] v (s.advance t) p).wr (CLK_x_CTL_en x.val) (s.rd (CLK_x_CTL_en x.val))).pllMoved x.val
        (decide (v / 2 % 2 = 1))).pllFollows x.val (stored [CLK_x_CTL_en x.val] v (s.advance t) p).tmb.kt)
  exact ⟨_, q, hr, State.rd_wr_same _ _ _, ⟨_, b, k, by rw [hs]; rfl, hk⟩, he.trans hq⟩

/-- The registers that an ADPLL and what follows it may write. -/
def ctlFlds (x : Nat) (L : List Fld) : List Fld := CLK_x_CTL_en x :: (L ++ followFlds)

/-- What the Graft ports make of a write of CLK_x_CTL. -/
def GraftAfter (s : State) (x : Nat) (u : State) : Prop :=
  (x ≠ 1 → u.grf = s.grf ∧ ∀ f ∈ portFlds, u.rd f = s.rd f) ∧ (x = 1 → ∀ n : Fin 4, u.rd (GRF_GLn_STAT_state n.val) = 0)

theorem ctlFlds_ports (x : Nat) {L : List Fld} (hL : L.map Fld.key ⊆ (CLK_x_STAT_suspect x :: lockFlds x).map Fld.key) (hx : x < 3) :
    ∀ f ∈ portFlds, f.key ∉ (ctlFlds x L).map Fld.key := by
  intro f hf hm
  have hh := portFlds_high f hf
  simp only [ctlFlds, List.map_cons, List.map_append, List.mem_cons, List.mem_append] at hm
  rcases hm with h | h | h
  · simp only [Fld.key, CLK_x_CTL_en] at *
    omega
  · have := hL h
    simp only [lockFlds, List.map_cons, List.map_nil, List.mem_cons, List.not_mem_nil, or_false, Fld.key, CLK_x_STAT_suspect, CLK_x_STAT_state,
      CLK_x_STAT_gated, CLK_x_STAT_bt_idx] at this
    simp only [Fld.key] at *
    omega
  · obtain ⟨g, hg, he⟩ := List.mem_map.1 h
    have : ∀ g ∈ followFlds, g.key < 0x280000 := by decide
    have := this g hg
    omega

/-- What a write of CLK_x_CTL that moves an ADPLL leaves while acquisition is idle. -/
theorem ctl_shows {s w m : State} {x t : Nat} {L : List Fld} (hx : x < 3) (h0 : s.acqSt = 0) (hw : SameRegs s w [CLK_x_CTL_en x])
    (hm : ∃ F b k, w = { s with fields := F, hrv := { s.hrv with l12 := b }, tmb := k } ∧ k.kt = max s.tmb.kt t)
    (hL : L.map Fld.key ⊆ (CLK_x_STAT_suspect x :: lockFlds x).map Fld.key) (hs : ClkStep (w.wr (CLK_x_CTL_en x) 1) m L)
    (hg : m.rd (CLK_x_STAT_gated x) = 1) {q : List (Nat × Nat)}
    {u : State} (hue : u = { m.pllFollows x w.tmb.kt with irqSeen := q }) :
    GraftAfter s x u ∧ TimeAt s u t ∧ SameRegs s u (ctlFlds x L ++ portFlds)
      ∧ SameRest s { u with clk := s.clk, grid := s.grid, grf := s.grf, trl := { u.trl with out := s.trl.out } } := by
  obtain ⟨F, b, k, hw', hk⟩ := hm
  have hen : ∀ f : Fld, f.key ∉ (ctlFlds x L).map Fld.key → m.rd f = s.rd f := fun f hf => by
    simp only [ctlFlds, List.map_cons, List.map_append, List.mem_cons, List.mem_append, not_or] at hf
    rw [hs.regs f hf.2.1, State.rd_wr_ne _ _ _ _ (Ne.symm hf.1), hw f (by simpa using hf.1)]
  have hfl : ∀ f : Fld, f.key ∉ (ctlFlds x L).map Fld.key → f.key ∉ followFlds.map Fld.key := fun f hf h =>
    hf (by simp only [ctlFlds, List.map_cons, List.map_append, List.mem_cons, List.mem_append]; exact .inr (.inr h))
  have hst : m.acqSt = 0 := (hen ACQ_STAT_state fun h => by
    simp only [ctlFlds, List.map_cons, List.map_append, List.mem_cons, List.mem_append] at h
    rcases h with h | h | h
    · simp only [Fld.key, CLK_x_CTL_en, ACQ_STAT_state] at h
      omega
    · have := hL h
      simp only [lockFlds, List.map_cons, List.map_nil, List.mem_cons, List.not_mem_nil, or_false, Fld.key, CLK_x_STAT_suspect, CLK_x_STAT_state,
        CLK_x_STAT_gated, CLK_x_STAT_bt_idx, ACQ_STAT_state] at this
      omega
    · exact absurd h (by decide)).trans h0
  obtain ⟨Fm, C, G, O, em⟩ := hs.moves
  obtain ⟨hne, heq⟩ := pllFollows_step hst x w.tmb.kt
  have hu : ∀ f, u.rd f = (m.pllFollows x w.tmb.kt).rd f := fun f => by rw [hue]; exact State.rd_mk ..
  by_cases h1 : x = 1
  · obtain ⟨⟨F', C', G', O', R, e⟩, hregs, hports⟩ := heq h1 (by rwa [h1] at hg)
    have hue : ∃ F C G O R, u = { s with fields := F, hrv := { s.hrv with l12 := b }, tmb := k, clk := C, grid := G, grf := R, trl := { s.trl with out := O }, irqSeen := q } :=
      ⟨F', C', G', O', R, by rw [hue, e, em, hw']; rfl⟩
    obtain ⟨F2, C2, G2, O2, R2, hue⟩ := hue
    refine ⟨⟨fun h => absurd h1 h, fun _ n => (hu _).trans (hports n.val n.isLt)⟩, ?_, fun f hf => ?_, ?_⟩
    · rw [hue]
      exact hk
    · rw [List.map_append, List.mem_append, not_or] at hf
      rw [hu, hregs f (by rw [List.map_append, List.mem_append, not_or]; exact ⟨hfl f hf.1, hf.2⟩), hen f hf.1]
    · rw [hue]
      exact sameRest_mk s _ _ _ _
  · have hc := hne h1
    obtain ⟨F', C', G', O', e⟩ := hc.moves
    have hue : ∃ F C G O, u = { s with fields := F, hrv := { s.hrv with l12 := b }, tmb := k, clk := C, grid := G, trl := { s.trl with out := O }, irqSeen := q } :=
      ⟨F', C', G', O', by rw [hue, e, em, hw']; rfl⟩
    obtain ⟨F2, C2, G2, O2, hue⟩ := hue
    have hsame : ∀ f : Fld, f.key ∉ (ctlFlds x L).map Fld.key → u.rd f = s.rd f := fun f hf => (hu f).trans ((hc.regs f (hfl f hf)).trans (hen f hf))
    refine ⟨⟨fun _ => ⟨?_, fun f hf => hsame f (ctlFlds_ports x hL hx f hf)⟩, fun h => absurd h h1⟩, ?_, fun f hf => ?_, ?_⟩
    · rw [hue]
    · rw [hue]
      exact hk
    · rw [List.map_append, List.mem_append, not_or] at hf
      exact hsame f hf.1
    · rw [hue]
      exact sameRest_mk s _ _ _ _

/-- The registers of an ADPLL's own state and control are none that follow. -/
theorem rd_follows_of_pll {s u : State} {x : Nat} (hx : x < 3) {t : Nat} {q : List (Nat × Nat)} (hu : u = { s.pllFollows x t with irqSeen := q }) {f : Fld}
    (hf : f ∈ [CLK_x_CTL_en x, CLK_x_STAT_gated x, CLK_x_STAT_state x, CLK_x_STAT_bt_idx x]) :
    u.rd f = s.rd f := by
  have hk : 0x80800 ≤ f.key ∧ f.key < 0x100000 := by
    simp only [List.mem_cons, List.not_mem_nil, or_false] at hf
    rcases hf with rfl | rfl | rfl | rfl <;>
      simp only [Fld.key, CLK_x_CTL_en, CLK_x_STAT_gated, CLK_x_STAT_state, CLK_x_STAT_bt_idx] <;> omega
  rw [hu]
  refine (State.rd_mk ..).trans (rd_pllFollows s x t (by omega) fun hm => ?_)
  obtain ⟨g, hg, he⟩ := List.mem_map.1 hm
  have : ∀ g ∈ followFlds, g.key < 0x80800 := by decide
  have := this g hg
  omega

theorem enable_bits {v : Word} (h : v.getLsbD 1 = false) : (v.toNat ||| 1) % 2 = 1 ∧ decide ((v.toNat ||| 1) / 2 % 2 = 1) = false := by
  have h0 := or_bit v.toNat 0 0
  have h1 := or_bit v.toNat 0 1
  have hv := word_bit v 1 h
  simp only [Nat.pow_zero, Nat.pow_one, Nat.div_one, if_true, one_ne_zero, if_false] at h0 h1 hv
  exact ⟨h0, by rw [h1, hv]; rfl⟩

theorem search_bits {v : Word} (h : v.getLsbD 0 = true) : (v.toNat ||| 2) % 2 = 1 ∧ decide ((v.toNat ||| 2) / 2 % 2 = 1) = true := by
  have h0 := or_bit v.toNat 1 0
  have h1 := or_bit v.toNat 1 1
  have hv := (getLsbD_iff v 0).1 h
  simp only [Nat.pow_zero, Nat.pow_one, Nat.div_one, if_true, zero_ne_one, if_false] at h0 h1 hv
  exact ⟨h0.trans hv, by rw [h1]; rfl⟩

theorem pll_putPll (s : State) (x : Nat) (p : PllSt) : (s.putPll x p).pll x = p := by
  unfold State.pll State.putPll
  by_cases h0 : x = 0
  · simp [h0]
  · by_cases h1 : x = 1
    · simp [h1]
    · simp [h0, h1]

theorem btFind_congr {s u : State} {x : Nat} (h : SameRegs s u [CLK_x_CTL_en x]) (f : Nat) : u.btFind x f = s.btFind x f := by
  have h1 : ∀ i, u.rd (CLK_x_BT_FREQ_valid x i) = s.rd (CLK_x_BT_FREQ_valid x i) := fun i => h _ (by
    simp only [List.map_cons, List.map_nil, List.mem_singleton, Fld.key, CLK_x_BT_FREQ_valid, CLK_x_CTL_en]; omega)
  have h2 : ∀ i, u.rd (CLK_x_BT_FREQ_freq x i) = s.rd (CLK_x_BT_FREQ_freq x i) := fun i => h _ (by
    simp only [List.map_cons, List.map_nil, List.mem_singleton, Fld.key, CLK_x_BT_FREQ_freq, CLK_x_CTL_en]; omega)
  simp only [State.btFind, State.on, h1, h2]

/-! ### The band table -/

/-- What a word of the band table holds of software's. -/
def btFlds (x i : Nat) (isCode : Bool) : List Fld :=
  if isCode then [CLK_x_BT_CODE_temp x i, CLK_x_BT_CODE_band x i, CLK_x_BT_CODE_code x i]
  else [CLK_x_BT_FREQ_valid x i, CLK_x_BT_FREQ_pinned x i, CLK_x_BT_FREQ_freq x i]

/-- The word of an entry of the band table. -/
def btAddr (x i : Nat) (isCode : Bool) : Nat := if isCode then (CLK_x_BT_CODE_code x i).addr else (CLK_x_BT_FREQ_freq x i).addr

theorem regAt_bt : ∀ (x : Pll) (i : Fin 16) (isCode : Bool),
    (regAt (btAddr x.val i.val isCode)).map (fun r => softFlds (r.1.flds r.2.1 r.2.2)) = some (btFlds x.val i.val isCode) := by
  decide

theorem btAddr_eq (x i : Nat) (isCode : Bool) : btAddr x i isCode = 0x10180 + 256 * x + 8 * i + 4 * b2n isCode := by
  cases isCode
  · rfl
  · simp only [btAddr, if_true, CLK_x_BT_CODE_code, b2n]
    omega

theorem btAt_bt (x : Pll) (i : Fin 16) (isCode : Bool) : btAt (btAddr x.val i.val isCode) = some (x.val, i.val) := by
  have hb : b2n isCode ≤ 1 := by cases isCode <;> decide
  rw [btAddr_eq]
  unfold btAt
  rw [if_pos (by omega)]
  congr 2 <;> omega

/-- A write to a register that it may not change now. -/
theorem portWrite_ignored (p : Port) (a be v : Nat) (s : State) (h : Reaches p a s) (ha : a < 0x140000) (h4 : a % 4 = 0) (hc : s.closed a = false)
    (hi : s.ignored a = true) : State.portWrite p a be v s = s.usedBy p := by
  have e : a % 2 ^ 26 / 4 * 4 = a := by omega
  rw [portWrite_reaches p a be _ s h]
  simp only [State.barWrite, e, ha, if_true, State.writeReg, closed_used, hc, ignored_used, hi, Bool.false_eq_true, if_false]

/-- A write of the band table. -/
theorem bt_write {s : State} {p : Port} (x : Pll) (i : Fin 16) (isCode : Bool) (v : Word) (h : Reaches p (btAddr x.val i.val isCode) s) :
    State.portWrite p (btAddr x.val i.val isCode) 15 v.toNat s = if s.btInUse x.val i.val = true then s.usedBy p
      else State.reSignal (btAddr x.val i.val isCode) ((stored (btFlds x.val i.val isCode) v.toNat s p).wr (CLK_x_BT_FREQ_preloaded x.val i.val) 1) := by
  have hb : b2n isCode ≤ 1 := by cases isCode <;> decide
  have ha := btAddr_eq x.val i.val isCode
  have h1 : btAddr x.val i.val isCode / 0x10000 = 1 := by omega
  have hc : s.closed (btAddr x.val i.val isCode) = false := by simp [State.closed, h1]
  have hi : s.ignored (btAddr x.val i.val isCode) = s.btInUse x.val i.val := by simp only [State.ignored, h1, btAt_bt]
  split
  · next hu => exact portWrite_ignored p _ 15 _ s h (by omega) (by omega) hc (hi.trans hu)
  · next hu =>
    have he : ∀ u o : State, State.effClk (btAddr x.val i.val isCode) v.toNat o u = u.wr (CLK_x_BT_FREQ_preloaded x.val i.val) 1 := fun u o => by
      rw [State.effClk, btAt_bt, if_neg (by simp only [CLK_CFG_s_src]; omega), if_neg (by simp only [CLK_HOP_start]; omega),
        if_neg (by simp only [CLK_EXT_CFG_freq]; omega)]
    rw [portWrite_stores p _ _ s _ h v.isLt (by omega) (by omega) hc (hi.trans (Bool.eq_false_iff.2 hu)) (regAt_bt x i isCode), effect_clk p _ _ _ _ h1, he]

theorem btInUse_iff (s : State) (x i : Nat) : s.btInUse x i = true ↔
    2 ≤ s.pllSt x ∧ s.pllSt x ≤ 5 ∧ (s.pll x).useWork = false ∧ s.rd (CLK_x_STAT_bt_idx x) = i := by
  simp only [State.btInUse, Bool.and_eq_true, decide_eq_true_eq, Bool.not_eq_true', and_assoc]

/-- The registers that a write of the band table may change. -/
theorem bt_regs {s : State} {p : Port} (x i : Nat) (isCode : Bool) (v a : Nat) :
    SameRegs s (State.reSignal a ((stored (btFlds x i isCode) v s p).wr (CLK_x_BT_FREQ_preloaded x i) 1)) (CLK_x_BT_FREQ_preloaded x i :: btFlds x i isCode) := by
  rw [sameRegs_reSignal]
  exact (sameRegs_stored v p (by simp)).wr _ _ (by simp)

/-- What such a write shows of a field of its word. -/
theorem rd_bt {s : State} {p : Port} {x i : Nat} {isCode : Bool} (v a : Nat) {f : Fld} (hf : f ∈ btFlds x i isCode) (ha : f.acc = .rw) (hw : f.w ≠ 0)
    (hl : f.lo + f.w ≤ 32) (hc : ∀ y, f.clamp y = y) (hne : f.key ≠ (CLK_x_BT_FREQ_preloaded x i).key) :
    (State.reSignal a ((stored (btFlds x i isCode) v s p).wr (CLK_x_BT_FREQ_preloaded x i) 1)).rd f = v / 2 ^ f.lo % 2 ^ f.w := by
  have hn : ((btFlds x i isCode).map Fld.key).Nodup := by
    cases isCode <;> simp [btFlds, Fld.key, CLK_x_BT_CODE_temp, CLK_x_BT_CODE_band, CLK_x_BT_CODE_code, CLK_x_BT_FREQ_valid, CLK_x_BT_FREQ_pinned,
      CLK_x_BT_FREQ_freq]
  rw [State.rd_reSignal, State.rd_wr_ne _ _ _ _ hne.symm, rd_stored v s p hf hn, Fld.stored_word _ _ ha hw hl, hc]
  exact Nat.mod_mod _ _

/-! ### What the statement says of each write -/

section Writes

variable {s : State} {p : Port} {x : Pll} {v : Word} {t : Nat}

/-- An ADPLL that is enabled and has FAILED only shows en. -/
theorem enable_failed (h : Reaches p (CLK_x_CTL_en x.val).addr s) (hb : v.getLsbD 1 = false) (hst : s.pllSt x.val = 7) :
    ∀ u, u = State.writeAt p (CLK_x_CTL_en x.val).addr (v.toNat ||| 1) t s →
    u.rd (CLK_x_CTL_en x.val) = 1 ∧ u.pllSt x.val = 7 := by
  obtain ⟨b0, b1⟩ := enable_bits hb
  obtain ⟨w, q, hw, -, -, e⟩ := ctl_write x (v := v.toNat ||| 1) t h (word_or_lt v (k := 0) (by decide)) b0
  have hws : w.pllSt x.val = 7 := (hw _ (by
    simp only [List.map_cons, List.map_nil, List.mem_singleton, Fld.key, CLK_x_STAT_state, CLK_x_CTL_en]; omega)).trans hst
  intro u hu
  rw [e, b1] at hu
  refine ⟨(rd_follows_of_pll x.isLt hu (by simp)).trans (pllMoved_en w _ _), (rd_follows_of_pll x.isLt hu (by simp)).trans ?_⟩
  rw [pllMoved_failed hws]
  exact (pllSt_en w _ 1).trans hws

/-- The fields that an ADPLL which starts may write, as the statement lists them. -/
theorem enableFlds_eq (x : Nat) : ctlFlds x (lockFlds x) ++ portFlds ⊆ [CLK_x_CTL_en x, CLK_x_STAT_gated x, CLK_x_STAT_state x, CLK_x_STAT_bt_idx x,
    CLK_STAT_dll_lock, CLK_HOP_pending, CLK_HOP_wait_idle, CLK_HOP_wait_gather] ++ portFlds := by
  simp only [ctlFlds, lockFlds, followFlds, hopFlds, List.cons_append, List.nil_append, List.cons_subset, List.append_subset, List.nil_subset, List.mem_cons,
    true_or, or_true, and_self, true_and]
  intro f hf
  simp only [List.mem_cons, hf, or_true]

theorem searchFlds_eq (x : Nat) : ctlFlds x (CLK_x_STAT_suspect x :: lockFlds x) ++ portFlds ⊆ [CLK_x_CTL_en x, CLK_x_STAT_gated x, CLK_x_STAT_state x,
    CLK_x_STAT_bt_idx x, CLK_x_STAT_suspect x, CLK_STAT_dll_lock, CLK_HOP_pending, CLK_HOP_wait_idle, CLK_HOP_wait_gather] ++ portFlds := by
  simp only [ctlFlds, lockFlds, followFlds, hopFlds, List.cons_append, List.nil_append, List.cons_subset, List.append_subset, List.nil_subset, List.mem_cons,
    true_or, or_true, and_self, true_and]
  intro f hf
  simp only [List.mem_cons, hf, or_true]

/-- Another ADPLL starts a lock when it is enabled. -/
theorem enable_starts (h : Reaches p (CLK_x_CTL_en x.val).addr s) (hb : v.getLsbD 1 = false) (hen : s.rd (CLK_x_CTL_en x.val) = 0) (hst : s.pllSt x.val ≠ 7) :
    ∀ u, u = State.writeAt p (CLK_x_CTL_en x.val).addr (v.toNat ||| 1) t s →
    u.rd (CLK_x_CTL_en x.val) = 1 ∧ u.rd (CLK_x_STAT_gated x.val) = 1
      ∧ (∀ i, s.btFind x.val (s.rd (CLK_x_TARGET_freq x.val)) = some i → u.rd (CLK_x_STAT_state x.val) = 2 ∧ u.rd (CLK_x_STAT_bt_idx x.val) = i)
      ∧ (s.btFind x.val (s.rd (CLK_x_TARGET_freq x.val)) = none → (s.pll x.val).work = none → u.rd (CLK_x_STAT_state x.val) = 1)
      ∧ (s.acqSt = 0 → GraftAfter s x.val u ∧ TimeAt s u t ∧ SameRegs s u (ctlFlds x.val (lockFlds x.val) ++ portFlds)
          ∧ SameRest s { u with clk := s.clk, grid := s.grid, grf := s.grf, trl := { u.trl with out := s.trl.out } }) := by
  have hx := x.isLt
  obtain ⟨b0, b1⟩ := enable_bits hb
  obtain ⟨w, q, hw, hwen, hm, e⟩ := ctl_write x (v := v.toNat ||| 1) t h (word_or_lt v (k := 0) (by decide)) b0
  have hws : w.pllSt x.val ≠ 7 := fun k => hst ((hw _ (by
    simp only [List.map_cons, List.map_nil, List.mem_singleton, Fld.key, CLK_x_STAT_state, CLK_x_CTL_en]; omega)).symm.trans k)
  have hstart := pllMoved_starts hws (by rw [hwen, hen])
  have hwe : SameRegs s ((w.wr (CLK_x_CTL_en x.val) 1).putPll x.val { (w.wr (CLK_x_CTL_en x.val) 1).pll x.val with fails := 0 }) [CLK_x_CTL_en x.val] :=
    fun f hf => (State.rd_mk ..).trans ((hw.wr _ _ (by simp)) f hf)
  have hfind := btFind_congr hwe
  have htarget := hwe (CLK_x_TARGET_freq x.val) (by
    simp only [List.map_cons, List.map_nil, List.mem_singleton, Fld.key, CLK_x_TARGET_freq, CLK_x_CTL_en]; omega)
  have hgated : (w.pllMoved x.val false).rd (CLK_x_STAT_gated x.val) = 1 := by rw [hstart]; exact startLock_gated _ _
  have hen1 := pllMoved_en w x.val false
  have hfound : ∀ i, s.btFind x.val (s.rd (CLK_x_TARGET_freq x.val)) = some i →
      (w.pllMoved x.val false).rd (CLK_x_STAT_state x.val) = 2 ∧ (w.pllMoved x.val false).rd (CLK_x_STAT_bt_idx x.val) = i := fun i hi => by
    rw [hstart]
    exact startLock_found (by rw [htarget, hfind]; exact hi)
  have hsearch : s.btFind x.val (s.rd (CLK_x_TARGET_freq x.val)) = none → (s.pll x.val).work = none →
      (w.pllMoved x.val false).rd (CLK_x_STAT_state x.val) = 1 := fun hi hwork => by
    obtain ⟨F, b, k, hwm, -⟩ := hm
    have hclk : (w.wr (CLK_x_CTL_en x.val) 1).clk = s.clk := by rw [hwm]; rfl
    rw [hstart]
    refine startLock_search (by rw [htarget, hfind]; exact hi) ?_
    rw [pll_putPll, State.pll, hclk]
    exact hwork
  have hstep : ClkStep (w.wr (CLK_x_CTL_en x.val) 1) (w.pllMoved x.val false) (lockFlds x.val) := by rw [hstart]; exact pllStarts_step _ _
  intro u hu
  rw [e, b1] at hu
  generalize w.pllMoved x.val false = m at *
  have hrd := fun f hf => rd_follows_of_pll hx hu (f := f) hf
  refine ⟨(hrd _ (by simp)).trans hen1, (hrd _ (by simp)).trans hgated, fun i hi => ?_, fun hi hwork => (hrd _ (by simp)).trans (hsearch hi hwork), fun h0 => ?_⟩
  · exact ⟨(hrd _ (by simp)).trans (hfound i hi).1, (hrd _ (by simp)).trans (hfound i hi).2⟩
  · exact ctl_shows hx h0 hw hm (by simp) hstep hgated hu

/-- A search while acquisition is idle. -/
theorem search_starts (h : Reaches p (CLK_x_CTL_en x.val).addr s) (hb : v.getLsbD 0 = true) (h0 : s.acqSt = 0) :
    ∀ u, u = State.writeAt p (CLK_x_CTL_en x.val).addr (v.toNat ||| 2) t s →
    u.rd (CLK_x_STAT_state x.val) = 1 ∧ u.rd (CLK_x_STAT_gated x.val) = 1 ∧ u.rd (CLK_x_CTL_en x.val) = 1 ∧ GraftAfter s x.val u ∧ TimeAt s u t
      ∧ SameRegs s u (ctlFlds x.val (CLK_x_STAT_suspect x.val :: lockFlds x.val) ++ portFlds)
      ∧ SameRest s { u with clk := s.clk, grid := s.grid, grf := s.grf, trl := { u.trl with out := s.trl.out } } := by
  have hx := x.isLt
  obtain ⟨b0, b1⟩ := search_bits hb
  obtain ⟨w, q, hw, -, hm, e⟩ := ctl_write x (v := v.toNat ||| 2) t h (word_or_lt v (k := 1) (by decide)) b0
  have hw0 : w.acqSt = 0 := (hw _ (by simp only [List.map_cons, List.map_nil, List.mem_singleton, Fld.key, ACQ_STAT_state, CLK_x_CTL_en]; omega)).trans h0
  obtain ⟨hstate, hgated⟩ := pllMoved_search (x := x.val) hw0
  have hen := pllMoved_en w x.val true
  have hstep := pllMoved_step w x.val true
  intro u hu
  rw [e, b1] at hu
  generalize w.pllMoved x.val true = m at *
  have hrd := fun f hf => rd_follows_of_pll hx hu (f := f) hf
  exact ⟨(hrd _ (by simp)).trans hstate, (hrd _ (by simp)).trans hgated, (hrd _ (by simp)).trans hen, ctl_shows hx h0 hw hm (by simp) hstep hgated hu⟩

/-- What a write of the band table stores, where the entry is not in use. -/
theorem bt_shows (x i : Nat) (isCode : Bool) (n a : Nat) :
    let u := State.reSignal a ((stored (btFlds x i isCode) n s p).wr (CLK_x_BT_FREQ_preloaded x i) 1)
    u.rd (CLK_x_BT_FREQ_preloaded x i) = 1
      ∧ (isCode = false → u.rd (CLK_x_BT_FREQ_freq x i) = n % 2 ^ 21 ∧ u.rd (CLK_x_BT_FREQ_valid x i) = n / 2 ^ 31 % 2
          ∧ u.rd (CLK_x_BT_FREQ_pinned x i) = n / 2 ^ 30 % 2)
      ∧ (isCode = true → u.rd (CLK_x_BT_CODE_code x i) = n % 2 ^ 10 ∧ u.rd (CLK_x_BT_CODE_band x i) = n / 2 ^ 16 % 64)
      ∧ SameRest s u := by
  intro u
  refine ⟨(State.rd_reSignal ..).trans (State.rd_wr_same _ _ _), fun hc => ?_, fun hc => ?_, ?_⟩
  · subst hc
    refine ⟨(rd_bt n a (by simp [btFlds]) rfl (Nat.succ_ne_zero _) (show 0 + 21 ≤ 32 by decide) (fun _ => rfl) ?_).trans ?_,
      (rd_bt n a (by simp [btFlds]) rfl (Nat.succ_ne_zero _) (show 31 + 1 ≤ 32 by decide) (fun _ => rfl) ?_).trans ?_,
      (rd_bt n a (by simp [btFlds]) rfl (Nat.succ_ne_zero _) (show 30 + 1 ≤ 32 by decide) (fun _ => rfl) ?_).trans ?_⟩
    all_goals simp only [Fld.key, CLK_x_BT_FREQ_freq, CLK_x_BT_FREQ_valid, CLK_x_BT_FREQ_pinned, CLK_x_BT_FREQ_preloaded]
    all_goals omega
  · subst hc
    refine ⟨(rd_bt n a (by simp [btFlds]) rfl (Nat.succ_ne_zero _) (show 0 + 10 ≤ 32 by decide) (fun _ => rfl) ?_).trans ?_,
      (rd_bt n a (by simp [btFlds]) rfl (Nat.succ_ne_zero _) (show 16 + 6 ≤ 32 by decide) (fun _ => rfl) ?_).trans ?_⟩
    all_goals simp only [Fld.key, CLK_x_BT_CODE_code, CLK_x_BT_CODE_band, CLK_x_BT_FREQ_preloaded]
    all_goals omega
  · obtain ⟨F, b, hs⟩ := stored_moves (btFlds x i isCode) n s p
    obtain ⟨q, hq⟩ := State.reSignal_moves a ((stored (btFlds x i isCode) n s p).wr (CLK_x_BT_FREQ_preloaded x i) 1)
    rw [show u = _ from hq, hs]
    exact sameRest_mk s _ _ _ _

end Writes

end Sys2Proof.Machine

namespace Sys2Proof
open Machine

/-- Settles O23: CLK_x_CTL starts a lock or a search, with what follows it, and a band-table entry is written unless it is in use. -/
theorem adpllControl : Obligations.AdpllControl := by
  unfold Obligations.AdpllControl
  intro s p x v t ports graft
  refine ⟨fun h hb hen hst => ?_, fun h hb hen hst => ?_, fun h hb h0 => ?_, fun i isCode h => ?_⟩
  · exact .of_performAt (exec_adpllEnable p x v t s) h.1 (enable_failed h hb hst _ rfl)
  · obtain ⟨h1, h2, h3, h4, h5⟩ := enable_starts (t := t) h hb hen hst _ rfl
    refine .of_performAt (exec_adpllEnable p x v t s) h.1 ⟨h1, h2, h3, h4, fun h0 => ?_⟩
    obtain ⟨hg, ht, hr, hrest⟩ := h5 h0
    exact ⟨hg, ht, fun f hf => hr f fun hm => hf (List.map_subset _ (enableFlds_eq x.val) hm), hrest⟩
  · obtain ⟨h1, h2, h3, hg, ht, hr, hrest⟩ := search_starts (t := t) h hb h0 _ rfl
    exact .of_performAt (exec_search p x v t s) h.1 ⟨h1, h2, h3, hg, ht, fun f hf => hr f fun hm => hf (List.map_subset _ (searchFlds_eq x.val) hm), hrest⟩
  · intro inUse
    have hin : s.btInUse x.val i.val = true ↔ inUse := btInUse_iff s x.val i.val
    have e : State.portWrite p (if isCode then (CLK_x_BT_CODE_code x.val i.val).addr else (CLK_x_BT_FREQ_freq x.val i.val).addr) 15 v.toNat s = _ :=
      bt_write x i isCode v h
    have hon : ∀ (u : State) (f : Fld) (k : Nat), u.rd f = v.toNat / 2 ^ k % 2 → u.on f = v.getLsbD k := fun u f k hf => by
      rw [State.on, hf, Bool.eq_iff_iff, decide_eq_true_eq, getLsbD_iff]
    constructor
    · intro hi
      refine .of_perform (exec_bandTableWrite p x i isCode v s) h.1 ?_
      rw [e, if_neg fun k => hi (hin.1 k)]
      have hregs := bt_regs (s := s) (p := p) x.val i.val isCode v.toNat (btAddr x.val i.val isCode)
      obtain ⟨hpre, hfreq, hcode, hrest⟩ := bt_shows (s := s) (p := p) x.val i.val isCode v.toNat (btAddr x.val i.val isCode)
      generalize State.reSignal _ _ = u at *
      refine ⟨hpre, fun hc => ?_, fun hc => ?_, hrest⟩
      · obtain ⟨h1, h2, h3⟩ := hfreq hc
        subst hc
        exact ⟨h1, hon _ _ _ h2, hon _ _ _ h3, fun f hf => hregs f fun hm => hf (List.map_subset _ (by simp [btFlds]) hm)⟩
      · obtain ⟨h1, h2⟩ := hcode hc
        subst hc
        exact ⟨h1, h2, fun f hf => hregs f fun hm => hf (List.map_subset _ (by simp [btFlds]) hm)⟩
    · intro hi
      refine .of_perform (exec_bandTableWrite p x i isCode v s) h.1 ?_
      rw [e, if_pos (hin.2 hi)]
      exact ⟨fun f _ => State.rd_usedBy .., sameRest_used s p⟩

end Sys2Proof
end

