-- ==== Sys2Proof/Proofs/FrequencyHops.lean ====
section
/-! SUPPORT. Hops of the ADPLLs: requests, cancel, force and start; the statement of O25. -/

namespace Sys2Proof.Machine

/-! ### The flags -/

/-- Whether a hop waits on a gather. -/
def State.onGather (s : State) : Bool :=
  match s.clk.hopWait with
  | some h => h.pll = 0 && s.dsk.gather.isSome
  | none => false

theorem hopFlags_shows (s : State) :
    s.hopFlags.rd CLK_HOP_pending = b2n (s.clk.hopWait.isSome || s.clk.hopRun.isSome)
      ∧ s.hopFlags.rd CLK_HOP_wait_idle = b2n (s.clk.hopWait.isSome && (!s.idle || s.mode = 0))
      ∧ s.hopFlags.rd CLK_HOP_wait_gather = b2n s.onGather := by
  have hb : ∀ b : Bool, b2n b % 2 = b2n b := by decide
  unfold State.hopFlags
  dsimp only
  refine ⟨?_, ?_, ?_⟩
  · rw [State.rd_wr_ne _ _ _ _ (by decide), State.rd_wr_ne _ _ _ _ (by decide), State.rd_wr_same]
    exact hb _
  · rw [State.rd_wr_ne _ _ _ _ (by decide), State.rd_wr_same]
    exact hb _
  · rw [State.rd_wr_same]
    exact hb _

theorem hopFlags_moves (s : State) : OnlyFields s s.hopFlags := (((OnlyFields.refl s).wr _ _).wr _ _).wr _ _

theorem gatherHop_moves (s : State) : ∃ g, s.gatherHop = { s with dsk := { s.dsk with gather := g } } ∧ g.isSome = s.dsk.gather.isSome := by
  unfold State.gatherHop
  split
  · next h => exact ⟨none, by rw [← h], by rw [h]⟩
  · next g h => exact ⟨_, rfl, by rw [h]; rfl⟩

/-- What a write of CLK_HOP leaves once its request has been taken up. -/
def State.hopSettled (s : State) : State := s.gatherHop.hopFlags

theorem hopSettled_moves (s : State) : ∃ F g, s.hopSettled = { s with fields := F, dsk := { s.dsk with gather := g } } ∧ g.isSome = s.dsk.gather.isSome := by
  obtain ⟨g, hg, hs⟩ := gatherHop_moves s
  obtain ⟨F, hF⟩ := hopFlags_moves s.gatherHop
  exact ⟨F, g, by rw [State.hopSettled, hF, hg], hs⟩

theorem hopSettled_regs (s : State) : SameRegs s s.hopSettled hopFlds := fun f hf => by
  obtain ⟨g, hg, _⟩ := gatherHop_moves s
  rw [State.hopSettled, (hopFlags_step _).regs f hf, hg]
  exact State.rd_mk ..

theorem hopSettled_shows (s : State) :
    s.hopSettled.rd CLK_HOP_pending = b2n (s.clk.hopWait.isSome || s.clk.hopRun.isSome)
      ∧ s.hopSettled.rd CLK_HOP_wait_idle = b2n (s.clk.hopWait.isSome && (!s.idle || s.mode = 0))
      ∧ s.hopSettled.rd CLK_HOP_wait_gather = b2n s.onGather := by
  obtain ⟨g, hg, hs⟩ := gatherHop_moves s
  obtain ⟨h1, h2, h3⟩ := hopFlags_shows s.gatherHop
  have ho : s.gatherHop.onGather = s.onGather := by
    unfold State.onGather
    rw [hg, hs]
  rw [ho] at h3
  refine ⟨h1.trans (by rw [hg]), h2.trans ?_, h3⟩
  rw [hg]
  rfl

theorem hopCtl_eq (s : State) (start cancel force : Bool) : s.hopCtl start cancel force =
    (let s1 := if cancel then { s with clk := { s.clk with hopWait := none } } else s
     let s2 := if start then s1.hopRequest (s1.rd CLK_HOP_pll) (s1.rd CLK_HOP_FREQ_freq) else s1
     (if force then s2.hopForce else s2).hopSettled) := rfl

/-! ### The write -/

/-- What a write of CLK_HOP stores. -/
def hopCtlFlds : List Fld := [CLK_HOP_refused, CLK_HOP_pll]

/-- A write of CLK_HOP. -/
theorem hop_write {s : State} {p : Port} {v : Nat} (t : Nat) (h : Reaches p CLK_HOP_start.addr s) (hv : v < 2 ^ 32) :
    ∃ w q, SameRegs s w hopCtlFlds ∧ w.rd CLK_HOP_pll = v / 16 % 4
      ∧ (∃ F b k, w = { s with fields := F, hrv := { s.hrv with l12 := b }, tmb := k } ∧ k.kt = max s.tmb.kt t)
      ∧ State.writeAt p CLK_HOP_start.addr v t s
        = { w.hopCtl (decide (v % 2 = 1)) (decide (v / 4 % 2 = 1)) (decide (v / 2 % 2 = 1)) with irqSeen := q } := by
  obtain ⟨F, b, k, hs, hk⟩ := stored_advance hopCtlFlds v s t p
  have he : State.writeAt p CLK_HOP_start.addr v t s = State.reSignal CLK_HOP_start.addr
      ((stored hopCtlFlds v (s.advance t) p).hopCtl (decide (v % 2 = 1)) (decide (v / 4 % 2 = 1)) (decide (v / 2 % 2 = 1))) := by
    rw [State.writeAt, portWrite_stores p _ v _ hopCtlFlds (h.advance t) hv (by decide) (by decide) (by simp [State.closed, CLK_HOP_start]) rfl rfl,
      effect_clk p _ _ _ _ (by decide), State.effClk, if_neg (by decide), if_pos rfl]
    simp only [Fld.of, CLK_HOP_start, CLK_HOP_cancel, CLK_HOP_force, Nat.pow_zero, Nat.pow_one, Nat.div_one, show (2 : Nat) ^ 2 = 4 from rfl]
  obtain ⟨q, hq⟩ := State.reSignal_moves CLK_HOP_start.addr
      ((stored hopCtlFlds v (s.advance t) p).hopCtl (decide (v % 2 = 1)) (decide (v / 4 % 2 = 1)) (decide (v / 2 % 2 = 1)))
  refine ⟨stored hopCtlFlds v (s.advance t) p, q, fun f hf => ?_, ?_, ⟨F, b, k, hs, hk⟩, he.trans hq⟩
  · rw [rd_stored_ne _ _ _ hf, State.rd_advance]
  · rw [rd_stored v _ p (by decide) (by decide), Fld.stored_word _ _ rfl (by decide) (by decide)]
    have : CLK_HOP_pll.of v = v / 16 % 4 := rfl
    rw [this]
    have hc : ∀ y, CLK_HOP_pll.clamp y = y := fun _ => rfl
    rw [hc]
    exact Nat.mod_mod _ _

/-! ### Requests -/

/-- The frequencies that a hop may ask for (R108). -/
def HopRange (n f : Nat) : Prop := (n = 0 ∧ 800000 ≤ f ∧ f ≤ 1250000) ∨ (n = 1 ∧ (f = 1000000 ∨ f = 500000)) ∨ (n = 2 ∧ 1600000 ≤ f ∧ f ≤ 2000000)

theorem hopFreqOk_iff (n f : Nat) : hopFreqOk n f = true ↔ HopRange n f := by
  unfold hopFreqOk HopRange
  split <;> simp_all

/-- A request that is refused, as the machine stands. -/
def State.HopRefused (s : State) (n f : Nat) : Prop := ¬HopRange n f ∨ (n = 0 ∧ s.rd CLK_STAT_s_src_act = 1)

theorem hopRefused_iff (s : State) (n f : Nat) : (!hopFreqOk n f || (decide (n = 0) && s.on CLK_STAT_s_src_act)) = true ↔ s.HopRefused n f := by
  rw [Bool.or_eq_true, Bool.not_eq_true', Bool.eq_false_iff, ne_eq, hopFreqOk_iff, Bool.and_eq_true, decide_eq_true_eq, State.on, decide_eq_true_eq]
  rfl

theorem hopRequest_refused {s : State} {n f : Nat} (h : s.HopRefused n f) : s.hopRequest n f = s.wr CLK_HOP_refused 1 :=
  if_pos ((hopRefused_iff s n f).2 h)

theorem hopRequest_stores {s : State} {n f : Nat} (h : ¬s.HopRefused n f) (hs : s.hopStores n = true) :
    s.hopRequest n f = (({ s with clk := { s.clk with hopWait := none } } : State).setTarget n f).orF CLK_EVT_hop_done 1 :=
  (if_neg fun k => h ((hopRefused_iff s n f).1 k)).trans (if_pos hs)

theorem hopRequest_waits {s : State} {n f : Nat} (h : ¬s.HopRefused n f) (hs : s.hopStores n = false) :
    s.hopRequest n f = { s with clk := { s.clk with hopWait := some ⟨n, f, false⟩ } } :=
  (if_neg fun k => h ((hopRefused_iff s n f).1 k)).trans (if_neg (by rw [hs]; decide))

theorem hopStores_iff (s : State) (n : Nat) : s.hopStores n = true ↔ s.rd (CLK_x_CTL_en n) ≠ 1 ∨ s.pllSt n = 7 := by
  rw [State.hopStores, Bool.or_eq_true, Bool.not_eq_true', State.on, decide_eq_false_iff_not, decide_eq_true_eq]

/-- A new target of an ADPLL: its register, and hidden state of the ADPLL alone. -/
theorem setTarget_moves (s : State) (x f : Nat) : ∃ F C, s.setTarget x f = { s with fields := F, clk := C } ∧ C.hopWait = s.clk.hopWait
    ∧ C.hopRun = s.clk.hopRun := by
  refine ⟨_, _, rfl, ?_, ?_⟩ <;> dsimp only [State.wr] <;> (repeat' split) <;> rfl

theorem setTarget_regs (s : State) (x f : Nat) : SameRegs s (s.setTarget x f) [CLK_x_TARGET_freq x] := fun g hg =>
  (State.rd_mk ..).trans (State.rd_wr_ne _ _ _ _ (by simpa [eq_comm] using hg))

theorem setTarget_shows (s : State) (x f : Nat) : (s.setTarget x f).rd (CLK_x_TARGET_freq x) = f % 2 ^ 21 := (State.rd_mk ..).trans (State.rd_wr_same _ _ _)

theorem target_key (n : Nat) : (CLK_x_TARGET_freq n).key ∉ (CLK_EVT_hop_done :: hopFlds ++ hopCtlFlds).map Fld.key := by
  simp only [hopFlds, hopCtlFlds, List.map_cons, List.map_nil, List.cons_append, List.nil_append, List.mem_cons, List.not_mem_nil, or_false, Fld.key,
    CLK_x_TARGET_freq, CLK_EVT_hop_done, CLK_HOP_pending, CLK_HOP_wait_idle, CLK_HOP_wait_gather, CLK_HOP_refused, CLK_HOP_pll]
  omega

/-- The registers that a request for a hop may write. -/
def requestFlds (n : Nat) : List Fld := [CLK_HOP_pll, CLK_HOP_refused, CLK_HOP_pending, CLK_HOP_wait_idle, CLK_HOP_wait_gather, CLK_x_TARGET_freq n, CLK_EVT_hop_done]

/-- What a request for a hop leaves, before the flags are set. -/
theorem hopRequest_keeps (s : State) (n f : Nat) : (∃ F C, s.hopRequest n f = { s with fields := F, clk := C })
    ∧ SameRegs s (s.hopRequest n f) [CLK_HOP_refused, CLK_x_TARGET_freq n, CLK_EVT_hop_done] := by
  by_cases hr : s.HopRefused n f
  · rw [hopRequest_refused hr]
    exact ⟨⟨_, s.clk, rfl⟩, (SameRegs.refl s _).wr _ _ (by simp)⟩
  · cases hs : s.hopStores n with
    | true =>
      rw [hopRequest_stores hr hs]
      obtain ⟨F, C, e, _⟩ := setTarget_moves { s with clk := { s.clk with hopWait := none } } n f
      refine ⟨⟨_, C, by rw [e]; rfl⟩, SameRegs.wr (fun g hg => ?_) _ _ (by simp)⟩
      refine (setTarget_regs _ n f g fun k => hg ?_).trans (State.rd_mk ..)
      simp only [List.map_cons, List.map_nil, List.mem_cons, List.not_mem_nil, or_false] at k ⊢
      exact .inr (.inl k)
    | false =>
      rw [hopRequest_waits hr hs]
      exact ⟨⟨_, _, rfl⟩, fun g _ => State.rd_mk ..⟩

section Request

variable {s : State} {p : Port} {v : Word} {t : Nat}

theorem request_bits (h1 : v.getLsbD 1 = false) (h2 : v.getLsbD 2 = false) : decide ((v.toNat ||| 1) % 2 = 1) = true
    ∧ decide ((v.toNat ||| 1) / 4 % 2 = 1) = false ∧ decide ((v.toNat ||| 1) / 2 % 2 = 1) = false ∧ (v.toNat ||| 1) / 16 % 4 = v.toNat / 16 % 4 := by
  have b0 := or_bit v.toNat 0 0
  have b1 := or_bit v.toNat 0 1
  have b2 := or_bit v.toNat 0 2
  have b4 := or_bit v.toNat 0 4
  have b5 := or_bit v.toNat 0 5
  have w1 := word_bit v 1 h1
  have w2 := word_bit v 2 h2
  simp only [Nat.pow_zero, Nat.pow_one, Nat.div_one, if_true, if_false, one_ne_zero, OfNat.ofNat_ne_zero, show (2 : Nat) ^ 2 = 4 from rfl,
    show (2 : Nat) ^ 4 = 16 from rfl, show (2 : Nat) ^ 5 = 32 from rfl] at b0 b1 b2 b4 b5 w1 w2
  refine ⟨by rw [b0]; rfl, by rw [b2, w2]; rfl, by rw [b1, w1]; rfl, by omega⟩

/-- What a request for a hop shows. -/
theorem request_shows (h : Reaches p CLK_HOP_start.addr s) (h1 : v.getLsbD 1 = false) (h2 : v.getLsbD 2 = false) :
    ∀ u, u = State.writeAt p CLK_HOP_start.addr (v.toNat ||| 1) t s → ∀ n, n = v.toNat / 16 % 4 → ∀ f, f = s.rd CLK_HOP_FREQ_freq →
    u.rd CLK_HOP_pll = n ∧ (s.HopRefused n f → u.rd CLK_HOP_refused = 1 ∧ u.clk = s.clk)
      ∧ (¬s.HopRefused n f → s.rd (CLK_x_CTL_en n) = 0 ∨ s.pllSt n = 7 → u.rd (CLK_x_TARGET_freq n) = f % 2 ^ 21 ∧ u.rd CLK_EVT_hop_done = 1
          ∧ u.clk.hopWait = none ∧ u.clk.hopRun = s.clk.hopRun)
      ∧ (¬s.HopRefused n f → s.rd (CLK_x_CTL_en n) = 1 → s.pllSt n ≠ 7 → u.clk = { s.clk with hopWait := some ⟨n, f, false⟩ } ∧ u.rd CLK_HOP_pending = 1
          ∧ (u.rd CLK_HOP_wait_idle = 1 ↔ s.acqSt ≠ 0) ∧ (u.rd CLK_HOP_wait_gather = 1 ↔ n = 0 ∧ s.dsk.gather ≠ none))
      ∧ TimeAt s u t ∧ SameRegs s u (requestFlds n) ∧ SameRest s { u with clk := s.clk, dsk := s.dsk } := by
  intro u hu n hn f hf
  obtain ⟨b0, b2, b1, b4⟩ := request_bits h1 h2
  obtain ⟨w, q, hw, hpll, ⟨F, b, k, hm, hk⟩, e⟩ := hop_write (v := v.toNat ||| 1) t h (word_or_lt v (k := 0) (by decide))
  rw [e, b0, b1, b2, hopCtl_eq] at hu
  have hfreq : w.rd CLK_HOP_FREQ_freq = f := (hw _ (by decide)).trans hf.symm
  rw [b4, ← hn] at hpll
  have hsrc : ∀ n f, w.HopRefused n f ↔ s.HopRefused n f := fun n f => by rw [State.HopRefused, State.HopRefused, hw CLK_STAT_s_src_act (by decide)]
  have hen : w.rd (CLK_x_CTL_en n) = s.rd (CLK_x_CTL_en n) := hw _ (by
    simp only [hopCtlFlds, List.map_cons, List.map_nil, List.mem_cons, List.not_mem_nil, or_false, Fld.key, CLK_x_CTL_en, CLK_HOP_refused, CLK_HOP_pll]; omega)
  have hst : w.pllSt n = s.pllSt n := hw _ (by
    simp only [hopCtlFlds, List.map_cons, List.map_nil, List.mem_cons, List.not_mem_nil, or_false, Fld.key, CLK_x_STAT_state, CLK_HOP_refused, CLK_HOP_pll]; omega)
  have hu' : u = { (w.hopRequest n f).hopSettled with irqSeen := q } := by
    rw [hu]
    simp only [Bool.false_eq_true, if_false, if_true, hpll, hfreq]
  have hrd : ∀ g, u.rd g = (w.hopRequest n f).hopSettled.rd g := fun g => by rw [hu']; exact State.rd_mk ..
  have hset := hopSettled_regs (w.hopRequest n f)
  obtain ⟨⟨F1, C1, e1⟩, hreq⟩ := hopRequest_keeps w n f
  obtain ⟨F2, g2, e2, -⟩ := hopSettled_moves (w.hopRequest n f)
  have hclk : u.clk = (w.hopRequest n f).clk := by rw [hu', e2]
  have htk := target_key n
  simp only [List.map_cons, List.cons_append, List.map_append, List.mem_cons, List.mem_append, not_or] at htk
  refine ⟨?_, fun hr => ⟨?_, ?_⟩, fun hr hs => ?_, fun hr h1 h7 => ?_, ?_, fun g hg => ?_, ?_⟩
  · rw [hrd, hset _ (by decide), hreq _ (by
      simp only [List.map_cons, List.map_nil, List.mem_cons, List.not_mem_nil, or_false, Fld.key, CLK_x_TARGET_freq, CLK_HOP_pll, CLK_HOP_refused,
        CLK_EVT_hop_done]; omega), hpll]
  · rw [hrd, hset _ (by decide), hopRequest_refused ((hsrc n f).2 hr), State.rd_wr_same]
    rfl
  · rw [hclk, hopRequest_refused ((hsrc n f).2 hr), hm]
    rfl
  · have hstore : w.hopStores n = true := (hopStores_iff w n).2 (hs.imp (fun k => by rw [hen, k]; decide) fun k => hst.trans k)
    have er := hopRequest_stores (mt (hsrc n f).1 hr) hstore
    obtain ⟨F3, C3, e3, hwait, hrun⟩ := setTarget_moves { w with clk := { w.clk with hopWait := none } } n f
    refine ⟨?_, ?_, ?_, ?_⟩
    · rw [hrd, hset _ htk.2.1, er, rd_orF_ne _ _ _ _ (Ne.symm htk.1), setTarget_shows]
    · rw [hrd, hset _ (by decide), er]
      exact rd_orF_bit _ CLK_EVT_hop_done true rfl rfl
    · rw [hclk, er, e3]
      exact hwait
    · rw [hclk, er, e3]
      refine hrun.trans ?_
      rw [hm]
  · have hstore : w.hopStores n = false := Bool.eq_false_iff.2 fun k => by
      rcases (hopStores_iff w n).1 k with k | k
      · exact k (hen.trans h1)
      · exact h7 (hst.symm.trans k)
    have er := hopRequest_waits (mt (hsrc n f).1 hr) hstore
    obtain ⟨p1, p2, p3⟩ := hopSettled_shows (w.hopRequest n f)
    rw [er] at p1 p2 p3
    have hacq : w.acqSt = s.acqSt := hw _ (by decide)
    have hmode : w.mode ≠ 0 := by
      rw [State.mode, hw _ (by decide)]
      exact mode_of_reaches h
    refine ⟨?_, ?_, ?_, ?_⟩
    · rw [hclk, er, hm]
    · rw [hrd, er, p1]
      rfl
    · rw [hrd, er, p2]
      show b2n (true && (!w.idle || decide (w.mode = 0))) = 1 ↔ _
      rw [decide_eq_false hmode, State.idle, hacq]
      by_cases h0 : s.acqSt = 0
      · simp [h0, b2n]
      · simp [h0, b2n]
    · rw [hrd, er, p3]
      have hg : w.dsk = s.dsk := by rw [hm]
      show b2n (decide (n = 0) && w.dsk.gather.isSome) = 1 ↔ _
      rw [hg]
      by_cases h0 : n = 0
      · cases hq : s.dsk.gather <;> simp [h0, b2n]
      · simp [h0, b2n]
  · show u.tmb.kt = _
    rw [hu', e2, e1, hm]
    exact hk
  · simp only [requestFlds, List.map_cons, List.map_nil, List.mem_cons, List.not_mem_nil, or_false, not_or] at hg
    rw [hrd, hset _ (by simpa [hopFlds] using ⟨hg.2.2.1, hg.2.2.2.1, hg.2.2.2.2.1⟩), hreq _ (by simpa using ⟨hg.2.1, hg.2.2.2.2.2.1, hg.2.2.2.2.2.2⟩),
      hw _ (by simpa [hopCtlFlds] using ⟨hg.2.1, hg.1⟩)]
  · rw [hu', e2, e1, hm]
    exact sameRest_mk s _ _ _ _

theorem cancel_bits (h0 : v.getLsbD 0 = false) (h1 : v.getLsbD 1 = false) : decide ((v.toNat ||| 4) % 2 = 1) = false
    ∧ decide ((v.toNat ||| 4) / 4 % 2 = 1) = true ∧ decide ((v.toNat ||| 4) / 2 % 2 = 1) = false := by
  have b0 := or_bit v.toNat 2 0
  have b1 := or_bit v.toNat 2 1
  have b2 := or_bit v.toNat 2 2
  have w0 := word_bit v 0 h0
  have w1 := word_bit v 1 h1
  simp only [Nat.pow_zero, Nat.pow_one, Nat.div_one, if_true, if_false, OfNat.zero_ne_ofNat, OfNat.one_ne_ofNat, show (2 : Nat) ^ 2 = 4 from rfl] at b0 b1 b2 w0 w1
  exact ⟨by rw [b0, w0]; rfl, by rw [b2]; rfl, by rw [b1, w1]; rfl⟩

theorem force_bits (h0 : v.getLsbD 0 = false) (h2 : v.getLsbD 2 = false) : decide ((v.toNat ||| 2) % 2 = 1) = false
    ∧ decide ((v.toNat ||| 2) / 4 % 2 = 1) = false ∧ decide ((v.toNat ||| 2) / 2 % 2 = 1) = true := by
  have b0 := or_bit v.toNat 1 0
  have b1 := or_bit v.toNat 1 1
  have b2 := or_bit v.toNat 1 2
  have w0 := word_bit v 0 h0
  have w2 := word_bit v 2 h2
  simp only [Nat.pow_zero, Nat.pow_one, Nat.div_one, if_true, if_false, zero_ne_one, OfNat.ofNat_ne_one, show (2 : Nat) ^ 2 = 4 from rfl] at b0 b1 b2 w0 w2
  exact ⟨by rw [b0, w0]; rfl, by rw [b2, w2]; rfl, by rw [b1]; rfl⟩

/-- The registers that a write of CLK_HOP without a request may change. -/
def hopWordFlds : List Fld := [CLK_HOP_pll, CLK_HOP_refused, CLK_HOP_pending, CLK_HOP_wait_idle, CLK_HOP_wait_gather]

/-- A cancel withdraws the hop that waits. -/
theorem cancel_shows (h : Reaches p CLK_HOP_start.addr s) (h0 : v.getLsbD 0 = false) (h1 : v.getLsbD 1 = false) :
    ∀ u, u = State.writeAt p CLK_HOP_start.addr (v.toNat ||| 4) t s →
    u.clk = { s.clk with hopWait := none } ∧ (u.rd CLK_HOP_pending = 1 ↔ s.clk.hopRun ≠ none) ∧ TimeAt s u t ∧ SameRegs s u hopWordFlds
      ∧ SameRest s { u with clk := s.clk, dsk := s.dsk } := by
  intro u hu
  obtain ⟨b0, b2, b1⟩ := cancel_bits h0 h1
  obtain ⟨w, q, hw, -, ⟨F, b, k, hm, hk⟩, e⟩ := hop_write (v := v.toNat ||| 4) t h (word_or_lt v (k := 2) (by decide))
  rw [e, b0, b1, b2, hopCtl_eq] at hu
  have hu' : u = { ({ w with clk := { w.clk with hopWait := none } } : State).hopSettled with irqSeen := q } := by
    rw [hu]
    simp only [Bool.false_eq_true, if_false, if_true]
  obtain ⟨F2, g2, e2, -⟩ := hopSettled_moves { w with clk := { w.clk with hopWait := none } }
  obtain ⟨p1, -, -⟩ := hopSettled_shows { w with clk := { w.clk with hopWait := none } }
  have hset := hopSettled_regs { w with clk := { w.clk with hopWait := none } }
  have hrd : ∀ g, u.rd g = ({ w with clk := { w.clk with hopWait := none } } : State).hopSettled.rd g := fun g => by rw [hu']; exact State.rd_mk ..
  refine ⟨?_, ?_, ?_, fun g hg => ?_, ?_⟩
  · rw [hu', e2, hm]
  · rw [hrd, p1]
    have hr : w.clk.hopRun = s.clk.hopRun := by rw [hm]
    show b2n (false || w.clk.hopRun.isSome) = 1 ↔ _
    rw [hr]
    cases s.clk.hopRun <;> simp [b2n]
  · show u.tmb.kt = _
    rw [hu', e2, hm]
    exact hk
  · simp only [hopWordFlds, List.map_cons, List.map_nil, List.mem_cons, List.not_mem_nil, or_false, not_or] at hg
    rw [hrd, hset _ (by simpa [hopFlds] using ⟨hg.2.2.1, hg.2.2.2.1, hg.2.2.2.2⟩)]
    exact (State.rd_mk ..).trans (hw _ (by simpa [hopCtlFlds] using ⟨hg.2.1, hg.1⟩))
  · rw [hu', e2, hm]
    exact sameRest_mk s _ _ _ _

/-- An abort of the gather takes force from the hop that waits, and nothing else of clock synthesis. -/
theorem gatherAbort_clk {s : State} {g : Gather} (why : Nat) (h : s.dsk.gather = some g) : (s.gatherAbort why).clk = s.forceGone.clk := by
  obtain ⟨r, e⟩ := gatherAbort_eq why h
  obtain ⟨F, hF⟩ := abortedRegs_moves g.pairs (gatherGone s)
  obtain ⟨A, hA⟩ := (abortedRegs g.pairs (gatherGone s)).event_moves r
  rw [e, hA, hF]
  rfl

/-- The hop that waits, with force. -/
def State.forced (s : State) (h : Hop) : State := { s with clk := { s.clk with hopWait := some { h with force := true } } }

theorem hopForce_eq {s : State} {h : Hop} (hw : s.clk.hopWait = some h) (h0 : h.pll = 0) {g : Gather} (hg : s.dsk.gather = some g) :
    s.hopForce = if s.idle then (s.forced h).gatherAbort 1 else s.forced h := by
  have hc : (decide (h.pll = 0) && s.dsk.gather.isSome) = true := by rw [h0, hg]; rfl
  have hn : (s.forced h).hopForceNow = if s.idle then (s.forced h).gatherAbort 1 else s.forced h := by
    show (if decide (h.pll = 0) && true && s.idle && s.dsk.gather.isSome then (s.forced h).gatherAbort 1 else s.forced h) = _
    rw [h0, hg]
    cases s.idle <;> rfl
  unfold State.hopForce
  rw [hw]
  exact (if_pos hc).trans hn

theorem hopForce_none {s : State} (h : s.dsk.gather = none ∨ ∀ h, s.clk.hopWait = some h → h.pll ≠ 0) : s.hopForce = s := by
  unfold State.hopForce
  split
  · next x hx =>
    refine if_neg fun k => ?_
    rw [Bool.and_eq_true, decide_eq_true_eq] at k
    rcases h with h | h
    · rw [h] at k
      exact absurd k.2 (by decide)
    · exact h x hx k.1
  · rfl

/-- force frees the hop from the gather it waits on, at once where acquisition is idle. -/
theorem force_shows (h : Reaches p CLK_HOP_start.addr s) (h0 : v.getLsbD 0 = false) (h2 : v.getLsbD 2 = false) :
    ∀ u, u = State.writeAt p CLK_HOP_start.addr (v.toNat ||| 2) t s →
    (∀ h, s.clk.hopWait = some h → h.pll = 0 → s.dsk.gather ≠ none →
        (s.acqSt = 0 → u.dsk.gather = none ∧ u.rd DSK_GSTAT_aborted = 1 ∧ u.clk.hopWait = some { h with force := false })
        ∧ (s.acqSt ≠ 0 → u.dsk.gather ≠ none ∧ u.clk.hopWait = some { h with force := true }))
      ∧ (s.dsk.gather = none ∨ (∀ h, s.clk.hopWait = some h → h.pll ≠ 0) → u.clk = s.clk ∧ TimeAt s u t ∧ SameRegs s u hopWordFlds
          ∧ SameRest s { u with dsk := s.dsk }) := by
  intro u hu
  obtain ⟨b0, b2, b1⟩ := force_bits h0 h2
  obtain ⟨w, q, hw, -, ⟨F, b, k, hm, hk⟩, e⟩ := hop_write (v := v.toNat ||| 2) t h (word_or_lt v (k := 1) (by decide))
  rw [e, b0, b1, b2, hopCtl_eq] at hu
  have hu' : u = { w.hopForce.hopSettled with irqSeen := q } := by
    rw [hu]
    simp only [Bool.false_eq_true, if_false, if_true]
  have hrd : ∀ g, u.rd g = w.hopForce.hopSettled.rd g := fun g => by rw [hu']; exact State.rd_mk ..
  have hset := hopSettled_regs w.hopForce
  obtain ⟨F2, g2, e2, hg2⟩ := hopSettled_moves w.hopForce
  have hclk : u.clk = w.hopForce.clk := by rw [hu', e2]
  have hgat : u.dsk.gather = g2 := by rw [hu', e2]
  have hwc : w.clk = s.clk := by rw [hm]
  have hwd : w.dsk = s.dsk := by rw [hm]
  have hidle : w.idle = decide (s.acqSt = 0) := by rw [State.idle, State.acqSt, hw _ (by decide)]; rfl
  refine ⟨fun x hx hx0 hne => ?_, fun hno => ?_⟩
  · obtain ⟨g, hg⟩ := Option.ne_none_iff_exists'.1 hne
    have hf := hopForce_eq (hwc ▸ hx : w.clk.hopWait = some x) hx0 (hwd ▸ hg : w.dsk.gather = some g)
    refine ⟨fun hi => ?_, fun hi => ?_⟩
    · rw [hidle, decide_eq_true hi, if_pos rfl] at hf
      have hfg : (w.forced x).dsk.gather = some g := hwd ▸ hg
      obtain ⟨k1, -, k3, -, -⟩ := gatherAbort_keeps 1 hfg
      refine ⟨?_, ?_, ?_⟩
      · rw [hf, k1] at hg2
        rw [hgat]
        cases g2 with
        | none => rfl
        | some y => exact Bool.noConfusion (show true = false from hg2)
      · rw [hrd, hset _ (by decide), hf]
        exact k3
      · rw [hclk, hf, gatherAbort_clk 1 hfg]
        rfl
    · rw [hidle, decide_eq_false hi, if_neg Bool.false_ne_true] at hf
      refine ⟨?_, ?_⟩
      · have hs : g2.isSome = true := by
          rw [hg2, hf]
          show w.dsk.gather.isSome = true
          rw [hwd, hg]
          rfl
        rw [hgat]
        exact fun hn => by rw [hn] at hs; exact absurd hs (by decide)
      · rw [hclk, hf]
        rfl
  · have hf : w.hopForce = w := hopForce_none (by rw [hwc, hwd]; exact hno)
    rw [hf] at hclk e2 hset hrd hu'
    refine ⟨hclk.trans hwc, ?_, fun g hg => ?_, ?_⟩
    · show u.tmb.kt = _
      rw [hu', e2, hm]
      exact hk
    · simp only [hopWordFlds, List.map_cons, List.map_nil, List.mem_cons, List.not_mem_nil, or_false, not_or] at hg
      rw [hrd, hset _ (by simpa [hopFlds] using ⟨hg.2.2.1, hg.2.2.2.1, hg.2.2.2.2⟩), hw _ (by simpa [hopCtlFlds] using ⟨hg.2.1, hg.1⟩)]
    · rw [hu', e2, hm]
      exact sameRest_mk s _ _ _ _

end Request

/-! ### The start of a hop -/

/-- A hop that starts: the ADPLL is gated, and locks at the new frequency. -/
def State.hopGoes (s : State) (h : Hop) (t : Nat) : State := (({ s with clk := { s.clk with hopRun := some h } } : State).pllUnsus h.pll t).startLock h.pll

/-- A hop that has its turn, at the new target. -/
def State.hopAt (s : State) (h : Hop) : State := ({ s with clk := { s.clk with hopWait := none } } : State).setTarget h.pll h.freq

theorem hopStart_eq {a : State} {t : Nat} {h : Hop} (hw : a.clk.hopWait = some h) (h0 : a.acqSt = 0) (hm : a.mode ≠ 0) (hr : a.clk.hopRun = none)
    (hg : h.pll = 0 → a.dsk.gather = none) {s : State} (ha : s.advance t = a) :
    State.hopStart t s = if h.pll = 1 ∨ a.hopStores h.pll = true then ((a.hopAt h).orF CLK_EVT_hop_done 1).hopFlags
      else ((if h.pll = 0 then ((a.hopAt h).hopGoes h t).laneRestart else (a.hopAt h).hopGoes h t).domEval t 2).hopFlags := by
  have hgat : (decide (h.pll = 0) && a.dsk.gather.isSome) = false := by
    by_cases k : h.pll = 0
    · rw [hg k, decide_eq_true k]; rfl
    · rw [decide_eq_false k]; rfl
  have hnow : a.hopForceNow = a := by
    unfold State.hopForceNow
    rw [hw]
    refine if_neg fun k => ?_
    simp only [Bool.and_eq_true, decide_eq_true_eq] at k hgat
    rw [hg k.1.1.1] at k
    exact absurd k.2 (by decide)
  have hgo : ¬(!a.idle || decide (a.mode = 0) || a.clk.hopRun.isSome || (decide (h.pll = 0) && a.dsk.gather.isSome)) = true := by
    rw [hgat, hr, decide_eq_false hm, State.idle, h0]
    decide
  unfold State.hopStart
  rw [ha]
  dsimp only
  rw [hnow, hw]
  exact if_neg hgo

/-- The hops, as an ADPLL moves. -/
def Clk.hops (c : Clk) : Option Hop × Option Hop := (c.hopWait, c.hopRun)

theorem hops_putPll (s : State) (x : Nat) (p : PllSt) : (s.putPll x p).clk.hops = s.clk.hops := by
  unfold State.putPll
  dsimp only
  (repeat' split) <;> rfl

theorem hops_pllTo (s : State) (x k : Nat) : (s.pllTo x k).clk.hops = s.clk.hops := by
  unfold State.pllTo
  dsimp only
  split <;> exact hops_putPll _ _ _

theorem hops_startLock (s : State) (x : Nat) : (s.startLock x).clk.hops = s.clk.hops := by
  unfold State.startLock
  dsimp only
  split
  · exact (hops_pllTo _ _ _).trans (hops_putPll s x _)
  · split
    · split
      · exact (hops_pllTo _ _ _).trans (hops_putPll s x _)
      · exact (hops_pllTo _ _ _).trans (hops_putPll s x _)
    · exact (hops_pllTo _ _ _).trans (hops_putPll s x _)

theorem hops_hopGoes (s : State) (h : Hop) (t : Nat) : (s.hopGoes h t).clk.hops = (s.clk.hopWait, some h) :=
  (hops_startLock _ _).trans (hops_putPll { s with clk := { s.clk with hopRun := some h } } h.pll _)

/-- The registers of ADPLL `x` and the flags of the hops. -/
theorem pll_keys {x : Nat} (hx : x < 3) : ∀ f ∈ [CLK_x_TARGET_freq x, CLK_x_STAT_gated x, CLK_x_STAT_state x], f.key < 0x280000
    ∧ f.key ≠ CLK_STAT_dll_lock.key ∧ f.key ∉ hopFlds.map Fld.key := by
  intro f hf
  have hk : 0x80800 ≤ f.key ∧ f.key < 0x100000 := by
    simp only [List.mem_cons, List.not_mem_nil, or_false] at hf
    rcases hf with rfl | rfl | rfl <;> simp only [Fld.key, CLK_x_TARGET_freq, CLK_x_STAT_gated, CLK_x_STAT_state] <;> omega
  refine ⟨by omega, fun he => absurd (he ▸ hk.1) (by decide), fun hm => ?_⟩
  obtain ⟨g, hg, he⟩ := List.mem_map.1 hm
  have : ∀ g ∈ hopFlds, g.key < 0x80800 := by decide
  have := this g hg
  omega

/-- A hop that starts shows its target, and is done or runs. -/
theorem hopStart_shows {a : State} {t : Nat} {h : Hop} (hx : h.pll < 3) (hw : a.clk.hopWait = some h) (h0 : a.acqSt = 0) (hm : a.mode ≠ 0)
    (hr : a.clk.hopRun = none) (hg : h.pll = 0 → a.dsk.gather = none) {s u : State} (ha : s.advance t = a) (hu : u = State.hopStart t s) :
    u.clk.hopWait = none ∧ u.rd (CLK_x_TARGET_freq h.pll) = h.freq % 2 ^ 21
      ∧ (h.pll = 1 ∨ a.rd (CLK_x_CTL_en h.pll) = 0 ∨ a.pllSt h.pll = 7 → u.rd CLK_EVT_hop_done = 1 ∧ u.clk.hopRun = none ∧ u.rd CLK_HOP_pending = 0)
      ∧ (h.pll ≠ 1 → a.rd (CLK_x_CTL_en h.pll) = 1 → a.pllSt h.pll ≠ 7 → u.clk.hopRun = some h ∧ u.rd CLK_HOP_pending = 1
          ∧ u.rd (CLK_x_STAT_gated h.pll) = 1 ∧ (u.rd (CLK_x_STAT_state h.pll) = 1 ∨ u.rd (CLK_x_STAT_state h.pll) = 2)) := by
  rw [hopStart_eq hw h0 hm hr hg ha] at hu
  obtain ⟨F, C, e, hwait, hrun⟩ := setTarget_moves { a with clk := { a.clk with hopWait := none } } h.pll h.freq
  have htar : (a.hopAt h).rd (CLK_x_TARGET_freq h.pll) = h.freq % 2 ^ 21 := setTarget_shows _ _ _
  have hmw : (a.hopAt h).clk.hopWait = none := by rw [State.hopAt, e]; exact hwait
  have hmr : (a.hopAt h).clk.hopRun = none := by rw [State.hopAt, e]; exact hrun.trans hr
  have htk := target_key h.pll
  simp only [List.map_cons, List.cons_append, List.map_append, List.mem_cons, List.mem_append, not_or] at htk
  have hcond : a.hopStores h.pll = true ↔ a.rd (CLK_x_CTL_en h.pll) ≠ 1 ∨ a.pllSt h.pll = 7 := hopStores_iff a h.pll
  by_cases hc : h.pll = 1 ∨ a.hopStores h.pll = true
  · rw [if_pos hc] at hu
    obtain ⟨F1, e1⟩ := hopFlags_moves ((a.hopAt h).orF CLK_EVT_hop_done 1)
    obtain ⟨p1, -, -⟩ := hopFlags_shows ((a.hopAt h).orF CLK_EVT_hop_done 1)
    have hset := (hopFlags_step ((a.hopAt h).orF CLK_EVT_hop_done 1)).regs
    have hclk : u.clk = (a.hopAt h).clk := by rw [hu, e1]; rfl
    refine ⟨by rw [hclk, hmw], ?_, fun _ => ⟨?_, by rw [hclk, hmr], ?_⟩, fun h1 h2 h3 => ?_⟩
    · rw [hu, hset _ htk.2.1, rd_orF_ne _ _ _ _ (Ne.symm htk.1)]
      exact htar
    · rw [hu, hset _ (by decide)]
      exact rd_orF_bit _ CLK_EVT_hop_done true rfl rfl
    · rw [hu, p1]
      show b2n ((a.hopAt h).clk.hopWait.isSome || (a.hopAt h).clk.hopRun.isSome) = 0
      rw [hmw, hmr]
      rfl
    · rcases hc with hc | hc
      · exact absurd hc h1
      · exact absurd (hcond.1 hc) fun k => k.elim (fun k => k h2) h3
  · rw [if_neg hc] at hu
    have hstart := starts_startLock (({ a.hopAt h with clk := { (a.hopAt h).clk with hopRun := some h } } : State).pllUnsus h.pll t) h.pll
    have hgo : ((a.hopAt h).hopGoes h t).rd (CLK_x_TARGET_freq h.pll) = h.freq % 2 ^ 21 := by
      refine (hstart.regs _ ?_).trans (((pllUnsus_step _ _ _).regs _ ?_).trans ((State.rd_mk ..).trans htar)) <;>
        simp only [lockFlds, List.map_cons, List.map_nil, List.mem_cons, List.not_mem_nil, or_false, Fld.key, CLK_x_TARGET_freq, CLK_x_STAT_state,
          CLK_x_STAT_gated, CLK_x_STAT_bt_idx, CLK_x_STAT_suspect] <;> omega
    have hgated : ((a.hopAt h).hopGoes h t).rd (CLK_x_STAT_gated h.pll) = 1 := startLock_gated _ _
    have hstate : ((a.hopAt h).hopGoes h t).rd (CLK_x_STAT_state h.pll) = 1 ∨ ((a.hopAt h).hopGoes h t).rd (CLK_x_STAT_state h.pll) = 2 := hstart.state
    have hhops : ((a.hopAt h).hopGoes h t).clk.hops = (none, some h) := (hops_hopGoes _ h t).trans (by rw [hmw])
    generalize (a.hopAt h).hopGoes h t = m at *
    have hlane : ∀ f, (if h.pll = 0 then m.laneRestart else m).rd f = m.rd f := fun f => by split <;> rfl
    have hlclk : (if h.pll = 0 then m.laneRestart else m).clk = m.clk := by split <;> rfl
    generalize (if h.pll = 0 then m.laneRestart else m) = l at *
    have hgate := gate_domEval l t 2
    have hset := (hopFlags_step (l.domEval t 2)).regs
    obtain ⟨F1, e1⟩ := hopFlags_moves (l.domEval t 2)
    obtain ⟨p1, -, -⟩ := hopFlags_shows (l.domEval t 2)
    have hdh : (l.domEval t 2).clk.hops = (none, some h) := by
      have : (l.domEval t 2).clk.ungated.hops = l.clk.ungated.hops := by rw [hgate.clk]
      exact (show (l.domEval t 2).clk.hops = l.clk.hops from this).trans (by rw [hlclk, hhops])
    have hclk : u.clk = (l.domEval t 2).clk := by rw [hu, e1]
    have hdw : (l.domEval t 2).clk.hopWait = none := congrArg Prod.fst hdh
    have hdr : (l.domEval t 2).clk.hopRun = some h := congrArg Prod.snd hdh
    have hrd : ∀ f ∈ [CLK_x_TARGET_freq h.pll, CLK_x_STAT_gated h.pll, CLK_x_STAT_state h.pll], u.rd f = m.rd f := fun f hf => by
      obtain ⟨k1, k2, k3⟩ := pll_keys hx f hf
      rw [hu, hset _ k3, hgate.low f k1 k2, hlane]
    refine ⟨by rw [hclk, hdw], (hrd _ (by simp)).trans hgo, fun h1 => ?_, fun _ _ _ => ⟨by rw [hclk, hdr], ?_, (hrd _ (by simp)).trans hgated, ?_⟩⟩
    · refine absurd ?_ hc
      exact h1.imp_right fun k => hcond.2 (k.imp_left fun k => by rw [k]; decide)
    · rw [hu, p1, hdw, hdr]
      rfl
    · rw [hrd _ (by simp)]
      exact hstate

end Sys2Proof.Machine

namespace Sys2Proof
open Machine

/-- Settles O25: a hop that is asked for is refused, stored or waits; cancel and force; and the start of the hop that waits. -/
theorem frequencyHops : Obligations.FrequencyHops := by
  unfold Obligations.FrequencyHops
  intro s
  constructor
  · intro p v t h
    dsimp only
    refine ⟨fun h1 h2 => ?_, fun h0 h1 => ?_, fun h0 h2 => ?_⟩
    · exact .of_performAt (exec_hopRequest p v t s) h.1 (request_shows h h1 h2 _ rfl _ rfl _ rfl)
    · exact .of_performAt (exec_hopCancel p v t s) h.1 (cancel_shows h h0 h1 _ rfl)
    · exact .of_performAt (exec_hopForce p v t s) h.1 (force_shows h h0 h2 _ rfl)
  · intro t h hp hw hx h0 hm hr hg
    refine .of_performOnAt (exec_hopStart t s) hp ?_
    obtain ⟨b, hb, -⟩ := s.advance_moves t
    have hrd : ∀ f, (s.advance t).rd f = s.rd f := State.rd_advance s t
    have hs := hopStart_shows (a := s.advance t) (t := t) hx (by rw [hb]; exact hw) ((hrd _).trans h0) (by rw [State.mode, hrd]; exact hm)
      (by rw [hb]; exact hr) (by rw [hb]; exact hg) rfl rfl
    rw [hrd, State.pllSt, hrd] at hs
    exact hs

end Sys2Proof
end

