-- ==== Sys2Proof/Proofs/SynthKept.lean ====
section
/-! SUPPORT. What leaves clock synthesis as it is: its registers, and its hidden state but for the gate of the sample domain. -/

namespace Sys2Proof.Machine

/-- Clock synthesis: its hidden state but for the gate, and the fields of block CLK. -/
structure Synth where
  clk : Clk
  regs : List (Nat × Nat)

/-- The fields of block CLK, the second 64 KiB. -/
def clkKey (k : Nat) : Bool := decide (0x80000 ≤ k) && decide (k < 0x100000)

def State.synth (s : State) : Synth := ⟨s.clk.ungated, s.fields.filter fun p => clkKey p.1⟩

@[simp] theorem State.synth_mk (s : State) (b c h fr g i t d ta tr ac hd re si ti dm ra hr st gr hk pw bb jt near deep scr nv po dp ce mt mp mi ir pe) :
    State.synth (State.mk b s.fields c h fr g i t d ta s.clk tr ac hd re si ti dm ra hr st gr hk pw bb jt near deep scr nv po dp ce mt mp mi ir pe) = s.synth := rfl

@[simp] theorem State.synth_mk_gate (s : State) (b c h fr g i t d ta dl gp qa sl tr ac hd re si ti dm ra hr st gr hk pw bb jt near deep scr nv po dp ce mt mp mi ir
    pe) : State.synth (State.mk b s.fields c h fr g i t d ta (Clk.mk s.clk.s s.clk.c s.clk.m s.clk.hopWait s.clk.hopRun s.clk.extSuspect dl s.clk.fallback
      s.clk.extWait gp qa s.clk.extY sl) tr ac hd re si ti dm ra hr st gr hk pw bb jt near deep scr nv po dp ce mt mp mi ir pe) = s.synth := rfl

@[simp] theorem State.synth_mk_wr (s : State) (f : Fld) (v : Nat) (b c h fr g i t d ta tr ac hd re si ti dm ra hr st gr hk pw bb jt near deep scr nv po dp ce mt
    mp mi ir pe) : State.synth (State.mk b (s.wr f v).fields c h fr g i t d ta s.clk tr ac hd re si ti dm ra hr st gr hk pw bb jt near deep scr nv po dp ce mt mp
      mi ir pe) = (s.wr f v).synth := rfl

theorem clk_of_synth {s u : State} (h : u.synth = s.synth) : u.clk.ungated = s.clk.ungated := congrArg Synth.clk h

theorem rd_of_synth {s u : State} (h : u.synth = s.synth) {f : Fld} (hf : clkKey f.key = true) : u.rd f = s.rd f := by
  unfold State.rd
  rw [← look_filter clkKey u.fields hf, ← look_filter clkKey s.fields hf]
  exact congrArg (fun a => (look a.regs f.key).getD f.rst) h

/-- Registers of other blocks may be written. -/
@[simp] theorem State.wr_synth (s : State) {f : Fld} (v : Nat) (h : clkKey f.key = false) : (s.wr f v).synth = s.synth := by
  have hr : (s.wr f v).fields.filter (fun p => clkKey p.1) = s.fields.filter fun p => clkKey p.1 := by
    unfold State.wr
    split
    · exact filter_del clkKey _ h
    · exact filter_ins clkKey _ _ h
  show Synth.mk s.clk.ungated ((s.wr f v).fields.filter fun p => clkKey p.1) = s.synth
  rw [hr]
  rfl

@[simp] theorem State.wrS_synth (s : State) {f : Fld} (v : Int) (h : clkKey f.key = false) : (s.wrS f v).synth = s.synth := State.wr_synth s _ h

theorem clkKey_high {f : Fld} (h : 0x20000 ≤ f.addr) : clkKey f.key = false := by
  have : decide (f.key < 0x100000) = false := decide_eq_false (by simp only [Fld.key]; omega)
  rw [clkKey, this, Bool.and_false]

@[simp] theorem foldl_synth {α : Type} (g : State → α → State) (l : List α) (s : State) (h : ∀ u a, (g u a).synth = u.synth) :
    (l.foldl g s).synth = s.synth := foldl_view State.synth g l s h

/-- What leaves all that stands apart from the capture engine leaves clock synthesis. -/
theorem synth_of_unhdg {s u : State} (h : u.apart.unopen.unstat.untrl.unhdg = s.apart.unopen.unstat.untrl.unhdg) : u.synth = s.synth := by
  have hf : ∀ l : List (Nat × Nat), l.filter (fun p => clkKey p.1)
      = (hdgless (trlless (statless (openless (apartRegs l))))).filter fun p => clkKey p.1 := fun l => by
    simp only [apartRegs, openless, statless, trlless, hdgless, List.filter_filter]
    refine List.filter_congr fun p _ => ?_
    cases hp : clkKey p.1 with
    | true =>
      have hlt : p.1 < 0x280000 := by
        simp only [clkKey, Bool.and_eq_true, decide_eq_true_eq] at hp
        omega
      obtain ⟨h1, h2, h3, h4, h5⟩ := keys_low hlt
      simp [h1, h2, h3, h4, h5]
    | false => simp
  have hc : u.clk = s.clk := congrArg Apart.clk h
  rw [State.synth, State.synth, hf u.fields, hf s.fields, hc]
  exact congrArg (fun l => Synth.mk s.clk.ungated (l.filter fun p => clkKey p.1)) (congrArg Apart.regs h :)

theorem synth_of_apart {s u : State} (h : u.apart = s.apart) : u.synth = s.synth := synth_of_unhdg (congrArg (fun a => a.unopen.unstat.untrl.unhdg) h)

theorem synth_of_unopen {s u : State} (h : u.apart.unopen = s.apart.unopen) : u.synth = s.synth := synth_of_unhdg (congrArg (fun a => a.unstat.untrl.unhdg) h)

@[simp] theorem State.advance_synth (s : State) (t : Nat) : (s.advance t).synth = s.synth := by
  obtain ⟨b, h, _⟩ := s.advance_moves t
  rw [h, State.synth_mk]

/-! ### A probe check and a task that are given up -/

@[simp] theorem State.pchkStore_synth (s : State) (e : Nat × Nat × Int × Int) : (s.pchkStore e).synth = s.synth := by
  have h1 : clkKey (INP_PCHK_verdict e.1).key = false := clkKey_high (by simp only [INP_PCHK_verdict]; omega)
  have h2 : clkKey (INP_PCHK_dv e.1).key = false := clkKey_high (by simp only [INP_PCHK_dv]; omega)
  have h3 : clkKey (INP_PCHK_V_v0 e.1).key = false := clkKey_high (by simp only [INP_PCHK_V_v0]; omega)
  have h4 : clkKey (INP_PCHK_V_v1 e.1).key = false := clkKey_high (by simp only [INP_PCHK_V_v1]; omega)
  simp [State.pchkStore, h1, h2, h3, h4]

@[simp] theorem State.dskCompute_synth (s : State) (c : Nat) : (s.dskCompute c).synth = s.synth := by
  have h1 : clkKey (DSK_COEF_d c).key = false := clkKey_high (by simp only [DSK_COEF_d]; omega)
  have h2 : clkKey (DSK_COEF_clamped c).key = false := clkKey_high (by simp only [DSK_COEF_clamped]; omega)
  simp [State.dskCompute, h1, h2]

@[simp] theorem State.dskTake_synth (s : State) (p : Pend) : (s.dskTake p).synth = s.synth := by
  have h1 : clkKey (DSK_CAL_d p.ch).key = false := clkKey_high (by simp only [DSK_CAL_d]; omega)
  have h2 : clkKey (DSK_GCNT_result p.ch).key = false := clkKey_high (by simp only [DSK_GCNT_result]; omega)
  simp only [State.dskTake]
  (repeat' split) <;> simp [h1, h2]

@[simp] theorem State.dskApply_synth (s : State) : s.dskApply.1.synth = s.synth := by simp [State.dskApply]

@[simp] theorem State.bbox_synth (s : State) (c x d : Nat) : (s.bbox c x d).synth = s.synth := synth_of_apart (State.bbox_apart s c x d)

@[simp] theorem State.laneTake_synth (s : State) (l : Lane) : (s.laneTake l).synth = s.synth := by
  have h1 : clkKey (PWR_LANEg_used (l.ch / 64)).key = false := clkKey_high (by simp only [PWR_LANEg_used]; omega)
  have h2 : clkKey (PWR_LANEg_spares (l.ch / 64)).key = false := clkKey_high (by simp only [PWR_LANEg_spares]; omega)
  have h3 : clkKey (PWR_LANEg_cal (l.ch / 64)).key = false := clkKey_high (by simp only [PWR_LANEg_cal]; omega)
  simp [State.laneTake, State.putLanes, State.laneRegs, h1, h2, h3]

@[simp] theorem State.laneSwap_synth (s : State) : s.laneSwap.1.synth = s.synth := by simp [State.laneSwap]

@[simp] theorem State.retime_synth (s : State) : s.retime.synth = s.synth := by
  unfold State.retime State.regrid
  split <;> rfl

@[simp] theorem State.timStart_synth (s : State) (t : Nat) : (s.timStart t).synth = s.synth := by
  unfold State.timStart
  split
  · rfl
  · simp (disch := decide)

@[simp] theorem State.sivSeq_synth (s : State) (p : Nat) : (s.sivSeq p).synth = s.synth := by
  unfold State.sivSeq State.setSiv
  split
  · rfl
  · simp (disch := decide)

@[simp] theorem State.takeDelays_synth (s : State) : s.takeDelays.synth = s.synth := synth_of_apart (State.takeDelays_apart s)
@[simp] theorem State.trlStart_synth (s : State) (k : Nat) : (s.trlStart k).synth = s.synth := synth_of_unhdg (congrArg Apart.unhdg (State.trlStart_untrl s k))
@[simp] theorem State.openSeg_synth (s : State) (g : Seg) (n : Nat) (l : List Nat) : (s.openSeg g n l).synth = s.synth :=
  synth_of_unopen (State.openSeg_unopen s g n l)
@[simp] theorem State.redStart_synth (s : State) (p : Nat) : (s.redStart p).synth = s.synth := synth_of_apart (State.redStart_apart s p)
@[simp] theorem State.event_synth (s : State) (r : Rec) : (s.event r).synth = s.synth := synth_of_apart (State.event_apart s r)
@[simp] theorem State.nearSync_synth (s : State) : s.nearSync.synth = s.synth := synth_of_apart (State.nearSync_apart s)

@[simp] theorem State.startCapture_synth (s : State) (t : Nat) : (s.startCapture t).synth = s.synth := by
  simp only [State.startCapture, State.ringStart]
  (repeat' split) <;> simp (disch := decide)

@[simp] theorem State.pchkEnd_synth (s : State) (t : Nat) (b : Bool) : (s.pchkEnd t b).synth = s.synth := by
  have h1 : ∀ c, clkKey (INP_PCHK_verdict c).key = false := fun c => clkKey_high (by simp only [INP_PCHK_verdict]; omega)
  have h2 : ∀ (l : List Nat) (s : State), (l.foldl (fun s ch => s.wr (INP_PCHK_verdict ch) 0) s).synth = s.synth := fun l s => by simp [h1]
  have h3 : ∀ (l : List (Nat × Nat × Int × Int)) (s : State), (l.foldl State.pchkStore s).synth = s.synth := fun l s => by simp
  unfold State.pchkEnd
  split
  · rfl
  · dsimp only
    generalize hw : State.wr _ INP_PCHK_CTL_busy 0 = w
    have hws : w.synth = s.synth := by
      rw [← hw]
      simp (disch := decide) [h2, h3]
    generalize hv : State.event _ _ = v
    have e : v.synth = s.synth := by rw [← hv, State.event_synth, State.synth_mk, hws]
    split
    · rw [State.startCapture_synth, e]
    · exact e

@[simp] theorem State.pchkAbandon_synth (s : State) (t : Nat) : (s.pchkAbandon t).synth = s.synth := by
  unfold State.pchkAbandon
  dsimp only
  (repeat' split) <;> simp

@[simp] theorem State.taskAbandon_synth (s : State) : s.taskAbandon.synth = s.synth := by
  unfold State.taskAbandon
  dsimp only
  (repeat' split) <;> simp (disch := decide)

@[simp] theorem State.gatherSuspect_synth (s : State) : s.gatherSuspect.synth = s.synth := by
  unfold State.gatherSuspect
  split <;> rfl

@[simp] theorem State.laneRestart_synth (s : State) : s.laneRestart.synth = s.synth := rfl

@[simp] theorem State.baseLost_synth (s : State) (t : Nat) : (s.baseLost t).synth = s.synth := by simp [State.baseLost]

/-! ### CLOCK_SUSPECT intervals -/

@[simp] theorem State.timSuspect_apart (s : State) (k : Nat) (tile : Option Nat) : (s.timSuspect k tile).apart = s.apart := by
  unfold State.timSuspect
  dsimp only
  split <;> rfl

@[simp] theorem State.redSuspect_apart (s : State) : s.redSuspect.apart = s.apart := by
  have h : ∀ u n, (State.redResus u n).apart = u.apart := fun u n => by
    unfold State.redResus
    dsimp only
    split <;> rfl
  simp [State.redSuspect, h]

/-- A CLOCK_SUSPECT interval that opens. -/
theorem State.susOpen_eq (s : State) (k x y : Nat) : ∃ v : State, v.apart = (s.susFrom (susKey x y) k).apart ∧ s.susOpen k x y = v.gatherSuspect := by
  unfold State.susOpen
  dsimp only
  refine ⟨_, ?_, rfl⟩
  simp only [State.redSuspect_apart, State.timSuspect_apart, State.mark_apart]
  rfl

@[simp] theorem State.susFrom_synth (s : State) (k t : Nat) : (s.susFrom k t).synth = s.synth := rfl
@[simp] theorem State.susDone_synth (s : State) (t x y : Nat) : (s.susDone t x y).synth = s.synth := rfl

@[simp] theorem State.susOpen_synth (s : State) (k x y : Nat) : (s.susOpen k x y).synth = s.synth := by
  obtain ⟨v, hv, e⟩ := s.susOpen_eq k x y
  rw [e, State.gatherSuspect_synth, synth_of_apart hv, State.susFrom_synth]

@[simp] theorem State.susRestored_synth (s : State) (t x y : Nat) : (s.susRestored t x y).synth = s.synth := by
  rw [State.susRestored, State.susDone_synth]
  exact synth_of_apart (State.mark_apart ..)

end Sys2Proof.Machine
end

