-- ==== Sys2Proof/Proofs/LockLossAndTiles.lean ====
section
/-! PROOFS. Lock loss, holdover and relock of the ADPLLs and tile DLLs (O26). -/

namespace Sys2Proof.Machine

/-! ### Holdover and recovery of an ADPLL -/

/-- A judgement that fails (R130). -/
theorem judgeFails_iff (s : State) (j : Judge) :
    s.judgeFails j = true ↔ s.rd CLK_LOCK_CFG_phase_thr < j.ps.natAbs ∨ j.atLimit = true ∨ j.atClamp = true := by
  simp only [State.judgeFails, Bool.or_eq_true, decide_eq_true_eq, or_assoc]

theorem judgeFails_advance (s : State) (t : Nat) (j : Judge) : (s.advance t).judgeFails j = s.judgeFails j := by
  rw [State.judgeFails, State.judgeFails, State.rd_advance]

/-- An ADPLL that is measured: a free value is taken, and its measurement is stored. -/
theorem measNew_eq (s : State) (x : Nat) : ∃ v, s.measNew x = ({ s with free := s.free + 1 } : State).measPut x v := by
  unfold State.measNew State.draw
  dsimp only
  split <;> exact ⟨_, rfl⟩

/-- The event of an ADPLL that loses lock. -/
def lossFld (x : Nat) : Fld := if x = 0 then CLK_EVT_s_loss else if x = 1 then CLK_EVT_c_loss else CLK_EVT_m_loss

/-- The suspicion that a CLOCK_SUSPECT interval puts on what is held: nothing but what is captured and the interval itself. -/
theorem susOpen_moves (s : State) (k x y : Nat) : ∃ A T N D R K, s.susOpen k x y =
    { s with acq := A, tim := T, near := N, deep := D, red := R, dsk := K, clk := (s.susFrom (susKey x y) k).clk } := by
  have hred : ∀ u : State, ∃ R, u.redSuspect = { u with red := R } := fun u => by
    have h1 : ∀ (n : Nat) (u : State), ∃ R, u.redResus n = { u with red := R } := fun n u => by
      unfold State.redResus
      dsimp only
      split
      · exact ⟨_, rfl⟩
      · exact ⟨_, rfl⟩
    have h2 : ∀ (l : List Nat) (u : State), ∃ R, l.foldl State.redResus u = { u with red := R } := fun l => by
      induction l with
      | nil => exact fun u => ⟨_, rfl⟩
      | cons n l ih =>
        intro u
        obtain ⟨R, e⟩ := h1 n u
        obtain ⟨R', e'⟩ := ih (u.redResus n)
        exact ⟨R', by rw [List.foldl_cons, e', e]⟩
    exact h2 _ u
  have htim : ∀ (u : State) (tile : Option Nat), ∃ A T N D, u.timSuspect k tile = { u with acq := A, tim := T, near := N, deep := D } := fun u tile => by
    unfold State.timSuspect
    dsimp only
    split
    · exact ⟨_, _, _, _, rfl⟩
    · exact ⟨_, _, u.near, u.deep, rfl⟩
  have hgat : ∀ u : State, ∃ K, u.gatherSuspect = { u with dsk := K } := fun u => by
    unfold State.gatherSuspect
    split
    · exact ⟨u.dsk, rfl⟩
    · exact ⟨_, rfl⟩
  unfold State.susOpen
  dsimp only
  obtain ⟨A, ea⟩ := ((s.susFrom (susKey x y) k).eventsSus k).mark_moves k 2 0 0 x y 0 0 false
  generalize ((s.susFrom (susKey x y) k).eventsSus k).mark k 2 0 0 x y 0 0 false = v at *
  obtain ⟨A', T, N, D, et⟩ := htim v (if x = 3 then some y else none)
  generalize v.timSuspect k (if x = 3 then some y else none) = w at *
  obtain ⟨R, er⟩ := hred w
  obtain ⟨K, eg⟩ := hgat w.redSuspect
  rw [eg, er, et, ea]
  exact ⟨_, _, _, _, _, _, rfl⟩

theorem event_grid (s : State) (r : Rec) : (s.event r).grid = s.grid := by
  obtain ⟨A, e⟩ := s.event_moves r
  rw [e]

theorem taskAbandon_grid (s : State) : s.taskAbandon.grid = s.grid := by
  unfold State.taskAbandon
  dsimp only
  split
  · rfl
  · obtain ⟨N, P, A, r, e⟩ := s.nearSync_moves
    rw [e]
    (repeat' split) <;> simp [State.wr, event_grid]

theorem baseLost_grid {s : State} (hp : s.inp.pchk = none) (t : Nat) : (s.baseLost t).grid = s.grid := by
  have hi : s.gatherSuspect.inp = s.inp := by
    unfold State.gatherSuspect
    split <;> rfl
  have hg : s.gatherSuspect.grid = s.grid := by
    unfold State.gatherSuspect
    split <;> rfl
  have hc : s.gatherSuspect.pchkAbandon t = s.gatherSuspect := by
    unfold State.pchkAbandon
    rw [hi, hp]
  exact (taskAbandon_grid _).trans (by rw [hc, hg])

/-- An ADPLL in HOLDOVER, its CLOCK_SUSPECT interval noted as from its last passed judgement. -/
def State.heldOver (s : State) (x tPass : Nat) : State :=
  ((State.bump ((s.pllTo x 5).measNew x) (CLK_x_CNT_holdovers x)).wr (CLK_x_STAT_suspect x) 1).putPll x
    { State.pll ((State.bump ((s.pllTo x 5).measNew x) (CLK_x_CNT_holdovers x)).wr (CLK_x_STAT_suspect x) 1) x with suspect := some tPass }

theorem lockLoss_eq {s : State} {x t : Nat} {a : State} (ha : s.advance t = a) {j1 j2 : Judge} (h4 : a.pllSt x = 4) (h1 : a.judgeFails j1 = true)
    (h2 : a.judgeFails j2 = true) (tPass : Nat) : State.lockLoss x j1 j2 tPass t s =
      if x = 0 && !a.on CLK_STAT_s_src_act then ((((a.heldOver x tPass).orF (lossFld x) 1).raiseEvent 4).susOpen tPass x 0).baseLost t
      else (((a.heldOver x tPass).orF (lossFld x) 1).raiseEvent 4).susOpen tPass x 0 := by
  have hc : ¬(decide (a.pllSt x ≠ 4) || !a.judgeFails j1 || !a.judgeFails j2) = true := by
    rw [h1, h2, decide_eq_false (not_not.2 h4)]
    decide
  unfold State.lockLoss
  rw [ha]
  exact if_neg hc

theorem rd_measNew (s : State) (x : Nat) {f : Fld} (h : f.key ≠ (CLK_x_MEAS_err x).key) : (s.measNew x).rd f = s.rd f := by
  obtain ⟨v, e⟩ := measNew_eq s x
  rw [e, State.measPut]
  exact (State.rd_mk ..).trans ((State.rd_wr_ne _ _ _ _ (Ne.symm h)).trans (State.rd_mk ..))

/-- The registers of an ADPLL that a lock loss writes are told apart. -/
theorem heldKeys (x : Pll) : (CLK_x_STAT_state x.val).key ≠ (CLK_x_MEAS_err x.val).key ∧ (CLK_x_STAT_gated x.val).key ≠ (CLK_x_MEAS_err x.val).key
    ∧ (CLK_x_CNT_holdovers x.val).key ∉ [(CLK_x_MEAS_err x.val).key, (CLK_x_STAT_state x.val).key, (CLK_x_STAT_gated x.val).key]
    ∧ (CLK_x_STAT_suspect x.val).key ∉ [(CLK_x_CNT_holdovers x.val).key, (CLK_x_STAT_state x.val).key, (CLK_x_STAT_gated x.val).key]
    ∧ (CLK_x_CNT_holdovers x.val).key ∉ [(CLK_x_STAT_state x.val).key, (CLK_x_STAT_gated x.val).key]
    ∧ (lossFld x.val).key ∉ [(CLK_x_CNT_holdovers x.val).key, (CLK_x_STAT_state x.val).key, (CLK_x_STAT_gated x.val).key, (CLK_x_STAT_suspect x.val).key] := by
  revert x
  decide

theorem lossFld_w : ∀ x : Pll, (lossFld x.val).w = 1 := by decide

/-- A register of an ADPLL in HOLDOVER that the count, the mark and the measurement leave. -/
theorem rd_heldOver (s : State) (x tPass : Nat) {f : Fld} (h : f.key ∉ [(CLK_x_MEAS_err x).key, (CLK_x_CNT_holdovers x).key, (CLK_x_STAT_suspect x).key]) :
    (s.heldOver x tPass).rd f = (s.pllTo x 5).rd f := by
  simp only [List.mem_cons, List.not_mem_nil, or_false, not_or] at h
  obtain ⟨h1, h2, h3⟩ := h
  refine (State.rd_mk ..).trans ?_
  rw [State.rd_wr_ne _ _ _ _ (Ne.symm h3), State.bump, State.rd_wr_ne _ _ _ _ (Ne.symm h2), rd_measNew _ _ h1]

theorem heldOver_shows (s : State) (x : Pll) (tPass : Nat) {u : State} (hu : u = (s.heldOver x.val tPass).orF (lossFld x.val) 1) :
    u.rd (CLK_x_STAT_state x.val) = 5 ∧ u.rd (CLK_x_STAT_gated x.val) = 0 ∧ u.rd (CLK_x_STAT_suspect x.val) = 1
      ∧ (u.pll x.val).suspect = some tPass ∧ u.rd (CLK_x_CNT_holdovers x.val) = (s.rd (CLK_x_CNT_holdovers x.val) + 1) % 2 ^ 16
      ∧ u.grid = s.grid ∧ u.inp = s.inp ∧ u.rd (lossFld x.val) = 1 := by
  have hk := heldKeys x
  simp only [List.mem_cons, List.not_mem_nil, or_false, not_or] at hk
  obtain ⟨m1, m2, ⟨c0, c1, c2⟩, ⟨p0, p1, p2⟩, -, l0, l1, l2, l3⟩ := hk
  have hne : ∀ f : Fld, f.key ≠ (lossFld x.val).key → u.rd f = (s.heldOver x.val tPass).rd f := fun f h => by rw [hu, rd_orF_ne _ _ _ _ (Ne.symm h)]
  have hsus : (s.heldOver x.val tPass).rd (CLK_x_STAT_suspect x.val) = 1 := (State.rd_mk ..).trans (State.rd_wr_same _ _ _)
  have hcnt : (s.heldOver x.val tPass).rd (CLK_x_CNT_holdovers x.val) = (s.rd (CLK_x_CNT_holdovers x.val) + 1) % 2 ^ 16 := by
    refine (State.rd_mk ..).trans ?_
    rw [State.rd_wr_ne _ _ _ _ p0, State.rd_bump_same, rd_measNew _ _ c0, (pllTo_step s x.val 5).regs _ (by simp [c1, c2])]
    rfl
  have hmoves : (s.heldOver x.val tPass).grid = s.grid ∧ (s.heldOver x.val tPass).inp = s.inp := by
    obtain ⟨F, C, T, e⟩ := s.pllTo_moves x.val 5
    obtain ⟨v, e'⟩ := measNew_eq (s.pllTo x.val 5) x.val
    rw [State.heldOver, e', e]
    exact ⟨rfl, rfl⟩
  refine ⟨?_, ?_, ?_, ?_, ?_, ?_, ?_, ?_⟩
  · rw [hne _ (Ne.symm l1), rd_heldOver _ _ _ (by simp [m1, Ne.symm c1, Ne.symm p1])]
    exact (State.pllSt_pllTo s x.val 5 x.val).trans (if_pos rfl)
  · rw [hne _ (Ne.symm l2), rd_heldOver _ _ _ (by simp [m2, Ne.symm c2, Ne.symm p2])]
    exact pllTo_gated s x.val 5
  · rw [hne _ (Ne.symm l3), hsus]
  · rw [hu]
    exact congrArg PllSt.suspect (pll_putPll _ x.val _)
  · rw [hne _ (Ne.symm l0), hcnt]
  · rw [hu]
    exact hmoves.1
  · rw [hu]
    exact hmoves.2
  · rw [hu]
    exact rd_orF_bit _ _ true (lossFld_w x) rfl

/-- The registers of clock synthesis that a lock loss shows lie in its block. -/
theorem clkKey_loss (x : Pll) : ∀ f ∈ [CLK_x_STAT_state x.val, CLK_x_STAT_gated x.val, CLK_x_STAT_suspect x.val, CLK_x_CNT_holdovers x.val, lossFld x.val],
    clkKey f.key = true := by
  revert x
  decide

theorem pll_of_clk {s u : State} (h : u.clk.ungated = s.clk.ungated) (x : Nat) : u.pll x = s.pll x := by
  have e : ∀ c : Clk, (c.s, c.c, c.m) = (c.ungated.s, c.ungated.c, c.ungated.m) := fun _ => rfl
  have he : (u.clk.s, u.clk.c, u.clk.m) = (s.clk.s, s.clk.c, s.clk.m) := by rw [e, h, ← e]
  simp only [Prod.mk.injEq] at he
  rw [State.pll, State.pll, he.1, he.2.1, he.2.2]

/-- What two judgements that fail lead to. -/
theorem lockLoss_shows {s a u : State} {x : Pll} {t tPass : Nat} {j1 j2 : Judge} (ha : s.advance t = a) (h4 : a.pllSt x.val = 4)
    (h1 : a.judgeFails j1 = true) (h2 : a.judgeFails j2 = true) (hu : u = State.lockLoss x.val j1 j2 tPass t s) :
    u.rd (CLK_x_STAT_state x.val) = 5 ∧ u.rd (CLK_x_STAT_gated x.val) = 0 ∧ u.rd (CLK_x_STAT_suspect x.val) = 1
      ∧ (u.pll x.val).suspect = some tPass ∧ u.rd (CLK_x_CNT_holdovers x.val) = (a.rd (CLK_x_CNT_holdovers x.val) + 1) % 2 ^ 16
      ∧ (a.inp.pchk = none → u.grid = a.grid) ∧ u.rd (lossFld x.val) = 1 := by
  rw [lockLoss_eq ha h4 h1 h2] at hu
  obtain ⟨s1, s2, s3, s4, s5, s6, s7, s8⟩ := heldOver_shows a x tPass rfl
  generalize (a.heldOver x.val tPass).orF (lossFld x.val) 1 = v at *
  have hraise : (v.raiseEvent 4).synth = v.synth ∧ (v.raiseEvent 4).grid = v.grid ∧ (v.raiseEvent 4).inp = v.inp := by
    unfold State.raiseEvent
    split
    · exact ⟨State.wr_synth _ _ (by decide), rfl, rfl⟩
    · exact ⟨rfl, rfl, rfl⟩
  have hopen : ((v.raiseEvent 4).susOpen tPass x.val 0).synth = v.synth ∧ ((v.raiseEvent 4).susOpen tPass x.val 0).grid = v.grid
      ∧ ((v.raiseEvent 4).susOpen tPass x.val 0).inp = v.inp := by
    refine ⟨(State.susOpen_synth _ _ _ _).trans hraise.1, ?_⟩
    obtain ⟨A, T, N, D, R, K, e⟩ := susOpen_moves (v.raiseEvent 4) tPass x.val 0
    rw [e]
    exact hraise.2
  have hend : u.synth = v.synth ∧ (v.inp.pchk = none → u.grid = v.grid) := by
    split at hu
    · rw [hu]
      exact ⟨(State.baseLost_synth _ t).trans hopen.1, fun hp => (baseLost_grid (by rw [hopen.2.2, hp]) t).trans hopen.2.1⟩
    · rw [hu]
      exact ⟨hopen.1, fun _ => hopen.2.1⟩
  have hrd : ∀ f ∈ [CLK_x_STAT_state x.val, CLK_x_STAT_gated x.val, CLK_x_STAT_suspect x.val, CLK_x_CNT_holdovers x.val, lossFld x.val], u.rd f = v.rd f :=
    fun f hf => rd_of_synth hend.1 (clkKey_loss x f hf)
  refine ⟨?_, ?_, ?_, ?_, ?_, fun hp => ?_, ?_⟩
  · rw [hrd _ (by simp), s1]
  · rw [hrd _ (by simp), s2]
  · rw [hrd _ (by simp), s3]
  · rw [pll_of_clk (clk_of_synth hend.1), s4]
  · rw [hrd _ (by simp), s5]
  · rw [hend.2 (by rw [s7, hp]), s6]
  · rw [hrd _ (by simp), s8]

/-! ### Recovery -/

theorem acqSt_apart_pll : ∀ x : Pll, ACQ_STAT_state.key ∉ [CLK_x_STAT_state x.val, CLK_x_STAT_suspect x.val, CLK_x_MEAS_err x.val].map Fld.key := by decide

/-- An ADPLL back in LOCKED, with no CLOCK_SUSPECT interval. -/
def State.lockedAgain (s : State) (x : Nat) : State :=
  ((State.wr (s.measNew x) (CLK_x_STAT_state x) 4).putPll x { s.pll x with suspect := none }).wr (CLK_x_STAT_suspect x) 0

theorem lockedAgain_shows (s : State) (x : Pll) {u : State} (hu : u = s.lockedAgain x.val) :
    u.rd (CLK_x_STAT_state x.val) = 4 ∧ u.rd (CLK_x_STAT_suspect x.val) = 0 ∧ (u.pll x.val).suspect = none
      ∧ (∃ F C, u = { s with fields := F, clk := C, free := s.free + 1 })
      ∧ SameRegs s u [CLK_x_STAT_state x.val, CLK_x_STAT_suspect x.val, CLK_x_MEAS_err x.val] := by
  have hk := heldKeys x
  simp only [List.mem_cons, List.not_mem_nil, or_false, not_or] at hk
  obtain ⟨m1, -, -, ⟨-, p1, -⟩, -⟩ := hk
  obtain ⟨v, e⟩ := measNew_eq s x.val
  refine ⟨?_, ?_, ?_, ?_, ?_⟩
  · rw [hu, State.lockedAgain, State.rd_wr_ne _ _ _ _ p1]
    exact (State.rd_mk ..).trans (State.rd_wr_same _ _ _)
  · rw [hu]
    exact State.rd_wr_same _ _ _
  · rw [hu]
    exact congrArg PllSt.suspect (pll_putPll _ x.val _)
  · rw [hu, State.lockedAgain, e]
    exact ⟨_, _, rfl⟩
  · intro f hf
    simp only [List.map_cons, List.map_nil, List.mem_cons, List.not_mem_nil, or_false, not_or] at hf
    obtain ⟨f1, f2, f3⟩ := hf
    rw [hu, State.lockedAgain, State.rd_wr_ne _ _ _ _ (Ne.symm f2)]
    refine (State.rd_mk ..).trans ?_
    rw [State.rd_wr_ne _ _ _ _ (Ne.symm f1), rd_measNew _ _ f3]

theorem recovered_eq {s a : State} {x t : Nat} (ha : s.advance t = a) (h5 : a.pllSt x = 5) :
    State.recovered x t s = (a.lockedAgain x).susRestored t x 0 := by
  unfold State.recovered
  rw [ha]
  exact if_neg (not_not.2 h5)

theorem recovered_shows {s u : State} {x : Pll} {t : Nat} (h5 : s.pllSt x.val = 5) (hu : u = State.recovered x.val t s) :
    u.rd (CLK_x_STAT_state x.val) = 4 ∧ u.rd (CLK_x_STAT_suspect x.val) = 0 ∧ (u.pll x.val).suspect = none ∧ u.grid = s.grid
      ∧ (s.acqSt = 0 → TimeAt s u t ∧ SameRegs s u [CLK_x_STAT_state x.val, CLK_x_STAT_suspect x.val, CLK_x_MEAS_err x.val]
          ∧ SameRest s { u with clk := s.clk, free := s.free }) := by
  obtain ⟨b, hb, hk⟩ := s.advance_moves t
  have he := recovered_eq (x := x.val) (s := s) (t := t) rfl ((State.rd_advance ..).trans h5)
  have hregs : ∀ f, (s.advance t).rd f = s.rd f := State.rd_advance s t
  rw [he] at hu
  obtain ⟨s1, s2, s3, ⟨F, C, e⟩, s4⟩ := lockedAgain_shows (s.advance t) x rfl
  have hidle : s.acqSt = 0 → ((s.advance t).lockedAgain x.val).idle = true := fun h0 => by
    rw [State.idle, State.acqSt, s4 ACQ_STAT_state (acqSt_apart_pll x), hregs, show s.rd ACQ_STAT_state = 0 from h0]
    rfl
  generalize (s.advance t).lockedAgain x.val = v at *
  obtain ⟨A, em⟩ := v.mark_moves t 3 0 0 x.val 0 0 0 false
  have hmark : v.idle = true → v.mark t 3 0 0 x.val 0 0 0 false = v := fun h => if_pos h
  have huv : ∀ f, u.rd f = v.rd f := fun f => by
    rw [hu, State.susRestored, em]
    rfl
  refine ⟨by rw [huv, s1], by rw [huv, s2], ?_, ?_, fun h0 => ⟨?_, fun f hf => ?_, ?_⟩⟩
  · rw [pll_of_clk (u := u) (s := v) (by rw [hu, State.susRestored, em]; rfl), s3]
  · rw [hu, State.susRestored, em, e, hb]
    rfl
  · rw [TimeAt, hu, State.susRestored, hmark (hidle h0), e, hb]
    exact hk
  · rw [huv, s4 f hf, hregs]
  · rw [hu, State.susRestored, hmark (hidle h0), e, hb]
    exact sameRest_mk_hrv s _ _ _

/-! ### Relocks -/

/-- An ADPLL whose relock is counted and reported, its CLOCK_SUSPECT interval ended. -/
def State.unlocked (s : State) (x t src detail : Nat) : State :=
  (((s.bump (CLK_x_CNT_relocks x)).orF CLK_EVT_gated 1).bbox 0x30 src detail).pllUnsus x t

theorem relock_eq {s : State} {x t src detail : Nat} (h : (s.unlocked x t src detail).pllSt x ≠ 7) :
    s.relock x t src detail =
      if x = 1 then (((s.unlocked x t src detail).startLock x).domEval t 2).portsEval else ((s.unlocked x t src detail).startLock x).domEval t 2 := by
  unfold State.relock
  dsimp only
  rw [show (((s.bump (CLK_x_CNT_relocks x)).orF CLK_EVT_gated 1).bbox 0x30 src detail).pllUnsus x t = s.unlocked x t src detail from rfl, if_neg h]

/-- The registers that a relock of ADPLL `x` shows. -/
theorem relockKeys (x : Pll) :
    (∀ f ∈ [CLK_x_CNT_relocks x.val, CLK_EVT_gated, CLK_x_STAT_suspect x.val, CLK_STAT_s_src_act],
        f.key < 0x280000 ∧ clkKey f.key = true ∧ f.key ≠ CLK_STAT_dll_lock.key ∧ f.key ∉ (lockFlds x.val).map Fld.key)
      ∧ (∀ f ∈ [CLK_x_STAT_gated x.val, CLK_x_STAT_state x.val], f.key < 0x280000 ∧ clkKey f.key = true ∧ f.key ≠ CLK_STAT_dll_lock.key)
      ∧ (∀ f ∈ [CLK_x_CNT_relocks x.val, CLK_EVT_gated, CLK_STAT_s_src_act, CLK_x_STAT_state x.val], f.key ≠ (CLK_x_STAT_suspect x.val).key)
      ∧ (∀ f ∈ [CLK_x_CNT_relocks x.val, CLK_STAT_s_src_act, CLK_x_STAT_state x.val], f.key ≠ CLK_EVT_gated.key)
      ∧ (∀ f ∈ [CLK_STAT_s_src_act, CLK_x_STAT_state x.val], f.key ≠ (CLK_x_CNT_relocks x.val).key) := by
  revert x
  decide

theorem unlocked_shows (s : State) (x : Pll) (t src detail : Nat) {u : State} (hu : u = s.unlocked x.val t src detail) :
    u.rd (CLK_x_CNT_relocks x.val) = (s.rd (CLK_x_CNT_relocks x.val) + 1) % 2 ^ 16 ∧ u.rd CLK_EVT_gated = 1 ∧ u.rd (CLK_x_STAT_suspect x.val) = 0
      ∧ u.pllSt x.val = s.pllSt x.val ∧ u.rd CLK_STAT_s_src_act = s.rd CLK_STAT_s_src_act ∧ u.grid = s.grid := by
  obtain ⟨hk1, hk2, hk3, hk4, hk5⟩ := relockKeys x
  have hun : ∀ f, f.key ≠ (CLK_x_STAT_suspect x.val).key → clkKey f.key = true → u.rd f = ((s.bump (CLK_x_CNT_relocks x.val)).orF CLK_EVT_gated 1).rd f :=
    fun f hf hc => by
      rw [hu, State.unlocked, (pllUnsus_step _ _ _).regs _ (by simpa using hf), rd_of_synth (State.bbox_synth _ _ _ _) hc]
  have hor : ∀ f, f.key ≠ CLK_EVT_gated.key → ((s.bump (CLK_x_CNT_relocks x.val)).orF CLK_EVT_gated 1).rd f = (s.bump (CLK_x_CNT_relocks x.val)).rd f :=
    fun f hf => rd_orF_ne _ _ _ _ (Ne.symm hf)
  have hbu : ∀ f, f.key ≠ (CLK_x_CNT_relocks x.val).key → (s.bump (CLK_x_CNT_relocks x.val)).rd f = s.rd f := fun f hf => State.rd_wr_ne _ _ _ _ (Ne.symm hf)
  have hst : ∀ f ∈ [CLK_STAT_s_src_act, CLK_x_STAT_state x.val], u.rd f = s.rd f := fun f hf => by
    have hc : clkKey f.key = true := by
      simp only [List.mem_cons, List.not_mem_nil, or_false] at hf
      rcases hf with rfl | rfl
      · decide
      · exact (hk2 _ (by simp)).2.1
    rw [hun f (hk3 f (by simp at hf ⊢; tauto)) hc, hor f (hk4 f (by simp at hf ⊢; tauto)), hbu f (hk5 f hf)]
  refine ⟨?_, ?_, ?_, hst _ (by simp), hst _ (by simp), ?_⟩
  · rw [hun _ (hk3 _ (by simp)) (hk1 _ (by simp)).2.1, hor _ (hk4 _ (by simp))]
    exact State.rd_bump_same s _
  · rw [hun _ (hk3 _ (by simp)) (by decide)]
    exact rd_orF_bit _ _ true rfl rfl
  · rw [hu]
    exact (State.rd_mk ..).trans (State.rd_wr_same _ _ _)
  · obtain ⟨F, B, e⟩ := ((s.bump (CLK_x_CNT_relocks x.val)).orF CLK_EVT_gated 1).bbox_moves 0x30 src detail
    rw [hu, State.unlocked, e]
    rfl

/-- The start of a lock does not move the grid. -/
theorem startLock_grid (s : State) (x : Nat) : (s.startLock x).grid = s.grid := by
  obtain ⟨F, C, T, e⟩ := (starts_startLock s x).moves
  rw [e]

/-- A sample domain whose source is gated stands still from then on. -/
theorem domEval_gates {s : State} (hr : s.grid.run = true) (h : s.srcRuns = false) (t c : Nat) :
    (s.domEval t c).grid.run = false ∧ (s.domEval t c).clk.dllSuspect = [] := by
  have hq : s.qualEnd t = s := by
    unfold State.qualEnd
    split
    · exact if_neg (by rw [h]; simp)
    · rfl
  have hb : s.baseRuns = false := by rw [State.baseRuns, h]; rfl
  rw [State.domEval, hq, hb]
  exact ⟨(domClose_shows hr t c).1, (domClose_shows hr t c).2.1⟩

/-- A relock: counted and reported, and the ADPLL locks again behind a shut gate. -/
theorem relock_shows {s u : State} {x : Pll} {t src detail : Nat} (h : s.pllSt x.val ≠ 7) (hu : u = s.relock x.val t src detail) :
    u.rd (CLK_x_CNT_relocks x.val) = (s.rd (CLK_x_CNT_relocks x.val) + 1) % 2 ^ 16 ∧ u.rd CLK_EVT_gated = 1
      ∧ u.rd (CLK_x_STAT_suspect x.val) = 0 ∧ u.rd (CLK_x_STAT_gated x.val) = 1
      ∧ (u.rd (CLK_x_STAT_state x.val) = 1 ∨ u.rd (CLK_x_STAT_state x.val) = 2)
      ∧ (x.val = 0 → s.rd CLK_STAT_s_src_act = 0 → s.grid.run = true → u.grid.run = false ∧ u.clk.dllSuspect = []) := by
  obtain ⟨hk1, hk2, -⟩ := relockKeys x
  obtain ⟨s1, s2, s3, s4, s5, s6⟩ := unlocked_shows s x t src detail rfl
  rw [relock_eq (by rw [s4]; exact h)] at hu
  generalize s.unlocked x.val t src detail = v at *
  have hlock := starts_startLock v x.val
  have hg1 := startLock_gated v x.val
  have hgrid := startLock_grid v x.val
  generalize v.startLock x.val = w at *
  have hgate := gate_domEval w t 2
  have hrd : ∀ f : Fld, f.key < 0x280000 → f.key ≠ CLK_STAT_dll_lock.key → u.rd f = w.rd f := fun f h1 h2 => by
    split at hu
    · rw [hu, (portsEval_step _).regs _ (not_port h1), hgate.low f h1 h2]
    · rw [hu, hgate.low f h1 h2]
  have hfar : ∀ f ∈ [CLK_x_CNT_relocks x.val, CLK_EVT_gated, CLK_x_STAT_suspect x.val, CLK_STAT_s_src_act], u.rd f = v.rd f := fun f hf => by
    obtain ⟨k1, -, k3, k4⟩ := hk1 f hf
    rw [hrd f k1 k3, hlock.regs f k4]
  have hnear : ∀ f ∈ [CLK_x_STAT_gated x.val, CLK_x_STAT_state x.val], u.rd f = w.rd f := fun f hf => hrd f (hk2 f hf).1 (hk2 f hf).2.2
  refine ⟨?_, ?_, ?_, ?_, ?_, fun hx h0 hr => ?_⟩
  · rw [hfar _ (by simp), s1]
  · rw [hfar _ (by simp), s2]
  · rw [hfar _ (by simp), s3]
  · rw [hnear _ (by simp), hg1]
  · rw [hnear _ (by simp)]
    exact hlock.state
  · rw [if_neg (by omega)] at hu
    have hsrc : w.srcRuns = false := by
      rw [hx] at hg1
      rw [State.srcRuns, State.on, hlock.regs CLK_STAT_s_src_act (hk1 _ (by simp)).2.2.2, s5, h0, hg1]
      rfl
    rw [hu]
    exact domEval_gates (by rw [hgrid, s6, hr]) hsrc t 2

/-! ### Measurements and time limits -/

theorem measPut_pll (s : State) (x : Pll) (v : Nat) : (s.measPut x.val v).pll x.val = { s.pll x.val with meas := some s.tmb.kt } := pll_putPll _ x.val _

/-- An ADPLL of another number is left alone. -/
theorem putPll_other (s : State) (x y : Pll) (p : PllSt) (h : y ≠ x) : (s.putPll x.val p).pll y.val = s.pll y.val := by
  have hx := x.isLt
  have hy := y.isLt
  have hne : y.val ≠ x.val := fun e => h (Fin.ext e)
  unfold State.pll State.putPll
  dsimp only
  have : x.val = 0 ∨ x.val = 1 ∨ x.val = 2 := by omega
  have : y.val = 0 ∨ y.val = 1 ∨ y.val = 2 := by omega
  rcases ‹x.val = 0 ∨ _› with e | e | e <;> rcases ‹y.val = 0 ∨ _› with e' | e' | e' <;> simp [e, e'] <;> omega

/-- A measurement during QUALIFY that lies too far off starts its 4 µs again (R123). -/
def State.offMeas (s : State) (x : Nat) (err : Int) (t : Nat) : State :=
  if s.pllSt x = 3 ∧ 1000 < err.natAbs then (s.measPut x (satU 16 err)).putPll x { (s.measPut x (satU 16 err)).pll x with since := t }
  else s.measPut x (satU 16 err)

theorem outOfRange_eq {s a : State} {t : Nat} (ha : s.advance t = a) (x : Nat) (err : Int) : State.outOfRange x err t s =
    if a.pllSt x = 5 ∧ 2000 < err.natAbs then (a.measPut x (satU 16 err)).relock x t x 0 else a.offMeas x err t := by
  unfold State.outOfRange
  rw [ha]
  rfl

theorem offMeas_shows (s : State) (x : Pll) (err : Int) (t : Nat) {u : State} (hu : u = s.offMeas x.val err t) :
    u.rd (CLK_x_MEAS_err x.val) = satU 16 err ∧ (∃ F C, u = { s with fields := F, clk := C }) ∧ SameRegs s u [CLK_x_MEAS_err x.val]
      ∧ (s.pllSt x.val = 3 → 1000 < err.natAbs → (u.pll x.val).since = t)
      ∧ (s.pllSt x.val ≠ 3 ∨ err.natAbs ≤ 1000 → u.pll x.val = { s.pll x.val with meas := some s.tmb.kt })
      ∧ (∀ y : Pll, y ≠ x → u.pll y.val = s.pll y.val) := by
  have hv : (s.measPut x.val (satU 16 err)).rd (CLK_x_MEAS_err x.val) = satU 16 err :=
    (State.rd_mk ..).trans ((State.rd_wr_same _ _ _).trans (Nat.mod_eq_of_lt (satU_lt 16 err)))
  have hr : SameRegs s (s.measPut x.val (satU 16 err)) [CLK_x_MEAS_err x.val] := (SameRegs.refl s _).wr _ _ (by simp)
  have ho : ∀ y : Pll, y ≠ x → (s.measPut x.val (satU 16 err)).pll y.val = s.pll y.val := fun y hy => putPll_other _ x y _ hy
  rw [State.offMeas] at hu
  split at hu
  · next h =>
    rw [hu]
    refine ⟨hv, ⟨_, _, rfl⟩, hr, fun _ _ => congrArg PllSt.since (pll_putPll _ x.val _), fun h' => ?_, fun y hy => ?_⟩
    · obtain ⟨h1, h2⟩ := h
      omega
    · rw [putPll_other _ x y _ hy, ho y hy]
  · next h =>
    rw [hu]
    exact ⟨hv, ⟨_, _, rfl⟩, hr, fun h1 h2 => absurd ⟨h1, h2⟩ h, fun _ => measPut_pll s x _, ho⟩

theorem holdTimeout_eq {s a : State} {t : Nat} (ha : s.advance t = a) (x : Nat) : State.holdTimeout x t s =
    if a.pllSt x = 5 ∧ a.rd CLK_LOCK_CFG_hold_max ≠ 0 ∧ (a.pll x).since + a.rd CLK_LOCK_CFG_hold_max * usF ≤ t then a.relock x t x 0 else a := by
  unfold State.holdTimeout
  rw [ha]

theorem measKeys : ∀ x : Pll, (CLK_x_STAT_state x.val).key ≠ (CLK_x_MEAS_err x.val).key ∧ (CLK_x_CNT_relocks x.val).key ≠ (CLK_x_MEAS_err x.val).key := by
  decide

/-! ### Tile DLLs -/

theorem clk_of_untrl {s u : State} (h : u.apart.unopen.unstat.untrl = s.apart.unopen.unstat.untrl) : u.clk = s.clk := congrArg (fun a => a.clk) h

theorem rd_low_of_untrl {s u : State} (h : u.apart.unopen.unstat.untrl = s.apart.unopen.unstat.untrl) {f : Fld} (hf : f.key < 0x280000) : u.rd f = s.rd f :=
  rd_low_of_unhdg (congrArg Apart.unhdg h) hf

/-- The gate of the sample domain that opens leaves the tile DLLs as they are. -/
theorem domOpen_dll (s : State) (t : Nat) : (s.domOpen t).rd CLK_STAT_dll_lock = s.rd CLK_STAT_dll_lock ∧ (s.domOpen t).clk = s.clk := by
  unfold State.domOpen
  split
  · exact ⟨rfl, rfl⟩
  · dsimp only
    generalize hv : ({ s.regrid s.clk.gatePos (t * 2 ^ 40) with grid := { (s.regrid s.clk.gatePos (t * 2 ^ 40)).grid with run := true } } : State) = v
    have hk := State.relockOpen_untrl v t
    rw [rd_low_of_untrl hk (by decide), clk_of_untrl hk, ← hv]
    exact ⟨rfl, rfl⟩

/-- A sample domain that qualifies behind a shut gate, looked at: its gate may open; no tile DLL loses its lock. -/
theorem domEval_behind {s : State} (hr : s.grid.run = false) (t c : Nat) :
    (s.domEval t c).rd CLK_STAT_dll_lock = s.rd CLK_STAT_dll_lock ∧ (s.domEval t c).clk.dllSuspect = s.clk.dllSuspect := by
  have hq : (s.qualEnd t).fields = s.fields ∧ (s.qualEnd t).clk.dllSuspect = s.clk.dllSuspect ∧ (s.qualEnd t).grid = s.grid := by
    unfold State.qualEnd
    split
    · split <;> exact ⟨rfl, rfl, rfl⟩
    · exact ⟨rfl, rfl, rfl⟩
  obtain ⟨hf, hd, hg⟩ := hq
  have hrd : (s.qualEnd t).rd CLK_STAT_dll_lock = s.rd CLK_STAT_dll_lock := by rw [State.rd, State.rd, hf]
  unfold State.domEval
  dsimp only
  split
  · obtain ⟨h1, h2⟩ := domOpen_dll (s.qualEnd t) t
    exact ⟨h1.trans hrd, by rw [h2, hd]⟩
  · rw [domClose_shut (by rw [hg, hr])]
    exact ⟨hrd, hd⟩

theorem dllLocked_none {s : State} {tile t : Nat} (h : s.grid.run = false ∧ (s.clk.qualAt = none ∨ s.srcRuns = false) ∨ s.nTiles ≤ tile) :
    State.dllLocked tile t s = s.advance t := by
  obtain ⟨b, hb, -⟩ := s.advance_moves t
  have hsrc : (s.advance t).srcRuns = s.srcRuns := by
    rw [hb]
    rfl
  unfold State.dllLocked
  dsimp only
  refine if_pos ?_
  rw [hsrc, State.nTiles_advance, show (s.advance t).grid = s.grid from by rw [hb], show (s.advance t).clk = s.clk from by rw [hb]]
  rcases h with ⟨hr, hq | hq⟩ | hn
  · rw [hr, hq]
    rfl
  · rw [hr, hq, Bool.and_false]
    rfl
  · rw [decide_eq_true hn, Bool.or_true]

/-- A tile DLL that locks, its suspicion withdrawn. -/
def State.unsuspected (s : State) (tile : Nat) : State := { s with clk := { s.clk with dllSuspect := s.clk.dllSuspect.filter fun p => p.1 ≠ tile } }

theorem dllLocked_eq {s a : State} {tile t : Nat} (ha : s.advance t = a)
    (h : a.grid.run = true ∧ a.clk.qualAt = none ∨ a.grid.run = false ∧ a.clk.qualAt ≠ none ∧ a.srcRuns = true) (hn : tile < a.nTiles) :
    State.dllLocked tile t s =
      if (a.clk.dllSuspect.any fun p => p.1 = tile) = true then ((a.orF CLK_STAT_dll_lock (2 ^ tile)).unsuspected tile).susRestored t 3 tile
      else if a.clk.qualAt.isSome = true then (a.orF CLK_STAT_dll_lock (2 ^ tile)).domEval t 2 else a.orF CLK_STAT_dll_lock (2 ^ tile) := by
  have hc : ¬(!(a.grid.run || (a.clk.qualAt.isSome && a.srcRuns)) || decide (a.nTiles ≤ tile)) = true := by
    rw [decide_eq_false (by omega)]
    rcases h with ⟨hr, -⟩ | ⟨-, hq, hs⟩
    · rw [hr, Bool.true_or]
      decide
    · rw [Option.isSome_iff_ne_none.2 hq, hs, Bool.and_self, Bool.or_true]
      decide
  unfold State.dllLocked
  rw [ha]
  exact if_neg hc

theorem dllLocked_shows {s u : State} {tile t : Nat} (hn : tile < s.nTiles)
    (h : s.grid.run = true ∧ s.clk.qualAt = none ∨ s.grid.run = false ∧ s.clk.qualAt ≠ none ∧ s.srcRuns = true) (hu : u = State.dllLocked tile t s) :
    u.rd CLK_STAT_dll_lock = (s.rd CLK_STAT_dll_lock ||| 2 ^ tile) % 16 ∧ (∀ q ∈ u.clk.dllSuspect, q.1 ≠ tile)
      ∧ (s.grid.run = true ∧ s.clk.qualAt = none → (∀ q ∈ s.clk.dllSuspect, q.1 ≠ tile) →
          TimeAt s u t ∧ SameRegs s u [CLK_STAT_dll_lock] ∧ SameRest s u) := by
  obtain ⟨b, hb, hk⟩ := s.advance_moves t
  have hregs : ∀ f, (s.advance t).rd f = s.rd f := State.rd_advance s t
  have hclk : (s.advance t).clk = s.clk := by rw [hb]
  have hgrid : (s.advance t).grid = s.grid := by rw [hb]
  have hsrc : (s.advance t).srcRuns = s.srcRuns := by
    rw [hb]
    rfl
  rw [dllLocked_eq rfl (by rw [hclk, hgrid, hsrc]; exact h) (by rw [State.nTiles_advance]; exact hn), hclk] at hu
  have hlock : ((s.advance t).orF CLK_STAT_dll_lock (2 ^ tile)).rd CLK_STAT_dll_lock = (s.rd CLK_STAT_dll_lock ||| 2 ^ tile) % 16 := by
    rw [State.orF, State.rd_wr_same, hregs]
    rfl
  have hv : ((s.advance t).orF CLK_STAT_dll_lock (2 ^ tile)).clk = s.clk ∧ ((s.advance t).orF CLK_STAT_dll_lock (2 ^ tile)).grid = s.grid := ⟨hclk, hgrid⟩
  have hsame : TimeAt s ((s.advance t).orF CLK_STAT_dll_lock (2 ^ tile)) t
      ∧ SameRegs s ((s.advance t).orF CLK_STAT_dll_lock (2 ^ tile)) [CLK_STAT_dll_lock]
      ∧ SameRest s ((s.advance t).orF CLK_STAT_dll_lock (2 ^ tile)) :=
    ⟨TimeAt.advance s t, (SameRegs.advance s t _).wr _ _ (by simp), SameRest.advance s t⟩
  generalize (s.advance t).orF CLK_STAT_dll_lock (2 ^ tile) = v at *
  have hany : (s.clk.dllSuspect.any fun p => p.1 = tile) = true ↔ ¬∀ q ∈ s.clk.dllSuspect, q.1 ≠ tile := by simp
  by_cases hs : (s.clk.dllSuspect.any fun p => p.1 = tile) = true
  · rw [if_pos hs] at hu
    obtain ⟨A, e⟩ := (v.unsuspected tile).mark_moves t 3 0 0 3 tile 0 0 false
    refine ⟨?_, fun q hq => ?_, fun _ k => absurd k (hany.1 hs)⟩
    · rw [hu, State.susRestored, e]
      exact hlock
    · rw [hu, State.susRestored, e] at hq
      exact of_decide_eq_true (List.mem_filter.1 (show q ∈ v.clk.dllSuspect.filter fun p => decide (p.1 ≠ tile) from hq)).2
  · rw [if_neg hs] at hu
    have hnone : ∀ q ∈ s.clk.dllSuspect, q.1 ≠ tile := not_not.1 (mt hany.2 hs)
    by_cases hq : s.clk.qualAt.isSome = true
    · rw [if_pos hq] at hu
      have hne : ¬(s.grid.run = true ∧ s.clk.qualAt = none) := fun k => by
        rw [k.2] at hq
        exact absurd hq (by decide)
      obtain ⟨h1, h2⟩ := domEval_behind (s := v) (by rw [hv.2]; exact (h.resolve_left hne).1) t 2
      exact ⟨by rw [hu, h1, hlock], by rw [hu, h2, hv.1]; exact hnone, fun k => absurd k hne⟩
    · rw [if_neg hq] at hu
      exact ⟨by rw [hu, hlock], by rw [hu, hv.1]; exact hnone, fun _ _ => by rw [hu]; exact hsame⟩

/-- A tile DLL that has lost lock, its CLOCK_SUSPECT interval noted as from then on. -/
def State.dllLost (s : State) (tile t : Nat) : State :=
  { (((s.clrF CLK_STAT_dll_lock (2 ^ tile)).orF CLK_EVT_dll_loss 1).raiseEvent 4) with
    clk := { (((s.clrF CLK_STAT_dll_lock (2 ^ tile)).orF CLK_EVT_dll_loss 1).raiseEvent 4).clk with
      dllSuspect := (((s.clrF CLK_STAT_dll_lock (2 ^ tile)).orF CLK_EVT_dll_loss 1).raiseEvent 4).clk.dllSuspect ++ [(tile, t)] } }

theorem dllLoss_eq {s a : State} {tile t : Nat} (ha : s.advance t = a) : State.dllLoss tile t s =
    if (!bit (a.rd CLK_STAT_dll_lock) tile || !a.grid.run) = true then a else (a.dllLost tile t).susOpen t 3 tile := by
  unfold State.dllLoss
  rw [ha]
  rfl

/-- The bit of a tile taken out of the locks. -/
theorem bit_cleared : ∀ (tile : Fin 4) (v : Fin 16), bit ((v.val &&& (2 ^ tile.val ^^^ (2 ^ 4 - 1))) % 2 ^ 4) tile.val = false := by decide

theorem dllLoss_shows {s u : State} {tile : Tile} {t : Nat} (hr : s.grid.run = true) (hb : bit (s.rd CLK_STAT_dll_lock) tile.val = true)
    (hlt : s.rd CLK_STAT_dll_lock < 16) (hu : u = State.dllLoss tile.val t s) :
    bit (u.rd CLK_STAT_dll_lock) tile.val = false ∧ u.rd CLK_EVT_dll_loss = 1 ∧ u.clk.dllSuspect = s.clk.dllSuspect ++ [(tile.val, t)]
      ∧ u.grid = s.grid := by
  obtain ⟨b, hmv, -⟩ := s.advance_moves t
  have hregs : ∀ f, (s.advance t).rd f = s.rd f := State.rd_advance s t
  have hclk : (s.advance t).clk = s.clk := by rw [hmv]
  have hgrid : (s.advance t).grid = s.grid := by rw [hmv]
  rw [dllLoss_eq rfl, if_neg (by rw [hregs, hb, hgrid, hr]; decide)] at hu
  have hcl : bit (((s.advance t).clrF CLK_STAT_dll_lock (2 ^ tile.val)).rd CLK_STAT_dll_lock) tile.val = false := by
    rw [State.clrF, State.rd_wr_same, hregs]
    exact bit_cleared tile ⟨s.rd CLK_STAT_dll_lock, hlt⟩
  obtain ⟨A, T, N, D, R, K, e⟩ := susOpen_moves ((s.advance t).dllLost tile.val t) t 3 tile.val
  have hraise : ∀ v : State, (v.raiseEvent 4).grid = v.grid ∧ (v.raiseEvent 4).clk = v.clk
      ∧ ∀ f, clkKey f.key = true → (v.raiseEvent 4).rd f = v.rd f := fun v => by
    unfold State.raiseEvent
    split
    · exact ⟨rfl, rfl, fun f hf => rd_of_synth (State.wr_synth _ _ (by decide)) hf⟩
    · exact ⟨rfl, rfl, fun _ _ => rfl⟩
  have hfld : ∀ f, clkKey f.key = true → u.rd f = (((s.advance t).clrF CLK_STAT_dll_lock (2 ^ tile.val)).orF CLK_EVT_dll_loss 1).rd f := fun f hf => by
    rw [hu, e]
    exact (State.rd_mk ..).trans ((State.rd_mk ..).trans ((hraise _).2.2 f hf))
  refine ⟨?_, ?_, ?_, ?_⟩
  · rw [hfld _ (by decide), rd_orF_ne _ _ _ _ (by decide), hcl]
  · rw [hfld _ (by decide)]
    exact rd_orF_bit _ _ true rfl rfl
  · rw [hu, e]
    show ((((s.advance t).clrF CLK_STAT_dll_lock (2 ^ tile.val)).orF CLK_EVT_dll_loss 1).raiseEvent 4).clk.dllSuspect ++ [(tile.val, t)] = _
    rw [(hraise _).2.1, ← hclk]
    rfl
  · rw [hu, e]
    exact (hraise _).1.trans hgrid

theorem dllTimeout_eq {s a : State} {tile t : Nat} (ha : s.advance t = a) : State.dllTimeout tile t s =
    if (a.clk.dllSuspect.any fun p => p.1 = tile && decide (p.2 + 20 * usF ≤ t)) = true then
      if a.on CLK_STAT_s_src_act = true then (((a.orF CLK_EVT_gated 1).bbox 0x30 3 tile).domClose t 2).domEval t 2 else a.relock 0 t 3 tile
    else a := by
  unfold State.dllTimeout
  rw [ha]

/-- In DLL mode the sample base that relocks is gated, and qualifies from then on (R125, R137). -/
theorem dllRelock_shows {s u : State} {tile t : Nat} (hr : s.grid.run = true) (h1 : s.rd CLK_STAT_s_src_act = 1)
    (hu : u = (((s.orF CLK_EVT_gated 1).bbox 0x30 3 tile).domClose t 2).domEval t 2) :
    u.clk.dllSuspect = [] ∧ u.rd CLK_EVT_gated = 1 ∧ u.grid.run = false ∧ u.clk.qualAt = some t
      ∧ u.rd (CLK_x_CNT_relocks 0) = s.rd (CLK_x_CNT_relocks 0) := by
  have hw : ∀ f, clkKey f.key = true → ((s.orF CLK_EVT_gated 1).bbox 0x30 3 tile).rd f = (s.orF CLK_EVT_gated 1).rd f :=
    fun f hf => rd_of_synth (State.bbox_synth _ _ _ _) hf
  have hwr : ((s.orF CLK_EVT_gated 1).bbox 0x30 3 tile).grid.run = true := by
    obtain ⟨F, B, e⟩ := (s.orF CLK_EVT_gated 1).bbox_moves 0x30 3 tile
    rw [e]
    exact hr
  have hon : ((s.orF CLK_EVT_gated 1).bbox 0x30 3 tile).on CLK_STAT_s_src_act = true := by
    rw [State.on, hw _ (by decide), rd_orF_ne _ _ _ _ (by decide), h1]
    rfl
  have hev : ((s.orF CLK_EVT_gated 1).bbox 0x30 3 tile).rd CLK_EVT_gated = 1 := by
    rw [hw _ (by decide)]
    exact rd_orF_bit _ _ true rfl rfl
  have hre : ((s.orF CLK_EVT_gated 1).bbox 0x30 3 tile).rd (CLK_x_CNT_relocks 0) = s.rd (CLK_x_CNT_relocks 0) := by
    rw [hw _ (by decide), rd_orF_ne _ _ _ _ (by decide)]
  generalize (s.orF CLK_EVT_gated 1).bbox 0x30 3 tile = w at *
  obtain ⟨d1, d2, d3⟩ := domClose_shows hwr t 2
  have hlow := (gate_domClose w t 2).low
  have d4 := d3 hon
  generalize w.domClose t 2 = v at *
  have hq : v.qualEnd t = v := by
    unfold State.qualEnd
    rw [d4]
    have hpos : 0 < usF := by decide
    exact if_neg (by rw [decide_eq_false (show ¬t + 4 * usF ≤ t by omega), Bool.and_false, Bool.false_and]; decide)
  have hb : v.baseRuns = false := by
    rw [State.baseRuns, d4]
    simp
  have hd : v.domEval t 2 = v := by rw [State.domEval, hq, hb, if_neg (by decide), domClose_shut d1]
  rw [hu, hd]
  exact ⟨d2, by rw [hlow _ (by decide) (by decide), hev], d1, d4, by rw [hlow _ (by decide) (by decide), hre]⟩

end Sys2Proof.Machine

namespace Sys2Proof
open Machine

/-- Settles O26: lock loss, holdover and relock of the ADPLLs and of the tile DLLs. -/
theorem lockLossAndTiles : Obligations.LockLossAndTiles := by
  unfold Obligations.LockLossAndTiles
  constructor
  · intro s x t hp
    dsimp only
    have hrd : ∀ f, (s.advance t).rd f = s.rd f := State.rd_advance s t
    have hst : (s.advance t).pllSt x.val = s.pllSt x.val := hrd _
    obtain ⟨b, hb, hk⟩ := s.advance_moves t
    have hpll : ∀ y, (s.advance t).pll y = s.pll y := fun y => by rw [hb]; rfl
    refine ⟨fun j1 j2 tPass => ⟨fun h4 h1 h2 => ?_, fun h => ?_⟩, fun h5 => ?_, fun h5 => ?_, fun err => ⟨fun h5 he => ?_, fun h => ?_⟩, fun h => ?_,
      fun h => ?_⟩
    · refine .of_performOnAt (exec_lockLoss x _ t s) hp ?_
      have hs := lockLoss_shows (x := x) (tPass := tPass) rfl (hst.trans h4) ((judgeFails_iff _ j1).2 (by rw [hrd]; exact h1))
        ((judgeFails_iff _ j2).2 (by rw [hrd]; exact h2)) rfl
      obtain ⟨s1, s2, s3, s4, s5, s6, s7⟩ := hs
      have hin : (s.advance t).inp = s.inp := by rw [hb]
      have hg : (s.advance t).grid = s.grid := by rw [hb]
      exact ⟨s1, s2, s3, s4, s5.trans (by rw [hrd]), fun hc => (s6 (by rw [hin, hc])).trans hg, s7⟩
    · refine .of_performOnAt (exec_lockLoss x _ t s) hp ?_
      have he : State.lockLoss x.val j1 j2 tPass t s = s.advance t := by
        unfold State.lockLoss
        refine if_pos ?_
        rw [judgeFails_advance, judgeFails_advance, hst]
        simp only [Bool.or_eq_true, decide_eq_true_eq, Bool.not_eq_true', ← Bool.not_eq_true, judgeFails_iff]
        tauto
      dsimp only
      rw [he]
      exact unchanged_advance s t
    · exact .of_performOnAt (exec_holdoverRecovered x t s) hp (recovered_shows h5 rfl)
    · refine .of_performOnAt (exec_holdoverRecovered x t s) hp ?_
      have he : State.recovered x.val t s = s.advance t := if_pos (by rw [hst]; exact h5)
      rw [he]
      exact unchanged_advance s t
    · refine .of_performOnAt (exec_holdoverOutOfRange x err t s) hp ?_
      have hm : SameRegs s ((s.advance t).measPut x.val (satU 16 err)) [CLK_x_MEAS_err x.val] := (SameRegs.advance s t _).wr _ _ (by simp)
      have hkey := measKeys x
      rw [outOfRange_eq rfl, if_pos ⟨hst.trans h5, he⟩]
      obtain ⟨s1, s2, s3, s4, s5, -⟩ := relock_shows (s := (s.advance t).measPut x.val (satU 16 err)) (x := x) (t := t) (src := x.val) (detail := 0)
        (by rw [State.pllSt, hm _ (by simpa using hkey.1), show s.rd _ = 5 from h5]; decide) rfl
      exact ⟨s1.trans (by rw [hm _ (by simpa using hkey.2)]), s2, s3, s4, s5⟩
    · refine .of_performOnAt (exec_holdoverOutOfRange x err t s) hp ?_
      obtain ⟨s1, ⟨F, C, e⟩, s3, s4, s5, s6⟩ := offMeas_shows (s.advance t) x err t rfl
      rw [outOfRange_eq rfl, if_neg (by rw [hst]; omega)]
      generalize (s.advance t).offMeas x.val err t = u at *
      rw [hst, hpll] at s5
      rw [hst] at s4
      have htm : u.tmb = (s.advance t).tmb := by rw [e]
      refine ⟨s1, ?_, fun f hf => (s3 f hf).trans (hrd f), s4, fun h => (s5 h).trans (by rw [htm]), fun y hy => (s6 y hy).trans (hpll _), ?_⟩
      · rw [TimeAt, htm, hb]
        exact hk
      · rw [e, hb]
        exact sameRest_mk_hrv s _ _ _
    · refine .of_performOnAt (exec_holdoverTimeout x t s) hp ?_
      rw [holdTimeout_eq rfl, if_pos (by rw [hst, hrd, hpll]; exact h)]
      obtain ⟨s1, s2, s3, s4, s5, -⟩ := relock_shows (s := s.advance t) (x := x) (t := t) (src := x.val) (detail := 0) (by rw [hst, h.1]; decide) rfl
      exact ⟨s1.trans (by rw [hrd]), s2, s3, s4, s5⟩
    · refine .of_performOnAt (exec_holdoverTimeout x t s) hp ?_
      rw [holdTimeout_eq rfl, if_neg (by rw [hst, hrd, hpll]; exact h)]
      exact unchanged_advance s t
  · intro s tile t hp
    dsimp only
    have hrd : ∀ f, (s.advance t).rd f = s.rd f := State.rd_advance s t
    obtain ⟨b, hb, hk⟩ := s.advance_moves t
    have hclk : (s.advance t).clk = s.clk := by rw [hb]
    have hgrid : (s.advance t).grid = s.grid := by rw [hb]
    have hlate : (s.clk.dllSuspect.any fun p => p.1 = tile.val && decide (p.2 + 20 * usF ≤ t)) = true
        ↔ ∃ k, (tile.val, k) ∈ s.clk.dllSuspect ∧ k + 20 * usF ≤ t := by
      simp only [List.any_eq_true, Bool.and_eq_true, decide_eq_true_eq, Prod.exists]
      exact ⟨fun ⟨i, k, hm, hi, hl⟩ => ⟨k, hi ▸ hm, hl⟩, fun ⟨k, hm, hl⟩ => ⟨_, k, hm, rfl, hl⟩⟩
    refine ⟨fun h hn => ?_, fun h => ?_, fun hr hbt hlt => ?_, fun h => ?_, fun h hr => ⟨fun h0 h7 => ?_, fun h1 => ?_⟩, fun h => ?_⟩
    · exact .of_performOnAt (exec_dllLockAcquired tile t s) hp (dllLocked_shows hn h rfl)
    · refine .of_performOnAt (exec_dllLockAcquired tile t s) hp ?_
      rw [dllLocked_none h]
      exact unchanged_advance s t
    · exact .of_performOnAt (exec_dllLockLoss tile t s) hp (dllLoss_shows hr hbt hlt rfl)
    · refine .of_performOnAt (exec_dllLockLoss tile t s) hp ?_
      rw [dllLoss_eq rfl, if_pos (by rw [hrd, hgrid]; rcases h with h | h <;> simp [h])]
      exact unchanged_advance s t
    · refine .of_performOnAt (exec_dllRelockTimeout tile t s) hp ?_
      rw [dllTimeout_eq rfl, if_pos (by rw [hclk]; exact hlate.2 h), if_neg (by rw [State.on, hrd, h0]; decide)]
      obtain ⟨s1, s2, s3, s4, s5, s6⟩ := relock_shows (s := s.advance t) (x := (0 : Pll)) (t := t) (src := 3) (detail := tile.val)
        (by rw [State.pllSt, hrd]; exact h7) rfl
      obtain ⟨g1, g2⟩ := s6 rfl ((hrd _).trans h0) (by rw [hgrid, hr])
      exact ⟨g2, s2, g1, s1.trans (by rw [hrd]; rfl), s4⟩
    · refine .of_performOnAt (exec_dllRelockTimeout tile t s) hp ?_
      rw [dllTimeout_eq rfl, if_pos (by rw [hclk]; exact hlate.2 h), if_pos (by rw [State.on, hrd, h1]; decide)]
      have hs := dllRelock_shows (s := s.advance t) (tile := tile.val) (t := t) (by rw [hgrid, hr]) ((hrd _).trans h1) rfl
      rw [hrd] at hs
      exact hs
    · refine .of_performOnAt (exec_dllRelockTimeout tile t s) hp ?_
      rw [dllTimeout_eq rfl, if_neg (by rw [hclk]; exact mt hlate.1 h)]
      exact unchanged_advance s t

end Sys2Proof
end

