-- ==== Sys2Proof/Proofs/SampleClocks.lean ====
section
/-! PROOFS. The source of the sample base and CLK_EXT (O22). -/

namespace Sys2Proof.Machine

/-! ### A request for a source -/

/-- What a request for a source shows. -/
theorem srcRequest_shows (s : State) (src : Nat) {u : State} (hu : u = s.srcRequest src) :
    u.rd CLK_CFG_s_src = src % 2 ∧ (u.rd CLK_CFG_s_src_pend = 1 ↔ src ≠ s.rd CLK_STAT_s_src_act ∧ (src = 0 ∨ s.clk.fallback = false))
      ∧ (∃ F, u = { s with fields := F, clk := { s.clk with fallback := s.clk.fallback && decide (src ≠ 0) } })
      ∧ SameRegs s u [CLK_CFG_s_src, CLK_CFG_s_src_pend] := by
  have hb : ∀ b : Bool, b2n b % 2 = b2n b ∧ (b2n b = 1 ↔ b = true) := by decide
  have hclk : ({ s.clk with fallback := s.clk.fallback && decide (src ≠ 0) } : Clk) = if src = 0 then { s.clk with fallback := false } else s.clk := by
    split
    · next h => rw [h]; simp
    · next h => rw [decide_eq_true h, Bool.and_true]
  have hfb : (if src = 0 then ({ s with clk := { s.clk with fallback := false } } : State) else s).clk.fallback = (s.clk.fallback && decide (src ≠ 0)) := by
    split
    · next h => rw [h]; simp
    · next h => rw [decide_eq_true h, Bool.and_true]
  have hrd : ∀ f, (if src = 0 then ({ s with clk := { s.clk with fallback := false } } : State) else s).rd f = s.rd f := fun f => by split <;> rfl
  refine ⟨?_, ?_, ?_, fun f hf => ?_⟩
  · rw [hu, State.srcRequest, State.rd_wr_ne _ _ _ _ (by decide)]
    exact State.rd_wr_same _ _ _
  · rw [hu, State.srcRequest, State.rd_wr_same]
    rw [show b2n _ % 2 ^ CLK_CFG_s_src_pend.w = _ from (hb _).1, (hb _).2, hfb]
    by_cases h : src = 0 <;> simp [h]
  · rw [hu, State.srcRequest, hclk]
    split
    · exact ⟨_, rfl⟩
    · exact ⟨_, rfl⟩
  · simp only [List.map_cons, List.map_nil, List.mem_cons, List.not_mem_nil, or_false, not_or] at hf
    rw [hu, State.srcRequest, State.rd_wr_ne _ _ _ _ (Ne.symm hf.2), State.rd_wr_ne _ _ _ _ (Ne.symm hf.1), hrd]

/-- A write of CLK_CFG asks for a source and says whether CLK_EXT falls back. -/
theorem srcWrite_shows {s u : State} {p : Port} {v : Word} (h : Reaches p CLK_CFG_s_src.addr s) (hu : u = State.portWrite p CLK_CFG_s_src.addr 15 v.toNat s) :
    u.rd CLK_CFG_s_src = v.toNat % 2 ∧ u.rd CLK_CFG_ext_fallback = v.toNat / 32 % 2
      ∧ (u.rd CLK_CFG_s_src_pend = 1 ↔ v.toNat % 2 ≠ s.rd CLK_STAT_s_src_act ∧ (v.toNat % 2 = 0 ∨ s.clk.fallback = false))
      ∧ u.clk = { s.clk with fallback := s.clk.fallback && decide (v.toNat % 2 = 1) }
      ∧ SameRegs s u [CLK_CFG_s_src, CLK_CFG_ext_fallback, CLK_CFG_s_src_pend] ∧ SameRest s { u with clk := s.clk } := by
  rw [portWrite_stores p _ v.toNat s [CLK_CFG_ext_fallback, CLK_CFG_s_src] h v.isLt (by decide) (by decide) (by simp [State.closed, CLK_CFG_s_src]) (by rfl)
    (by rfl), effect_clk p _ _ _ _ (by decide), State.effClk, if_pos rfl] at hu
  have hsrc : (stored [CLK_CFG_ext_fallback, CLK_CFG_s_src] v.toNat s p).rd CLK_CFG_s_src = v.toNat % 2 := by
    rw [rd_stored _ _ _ (by simp) (by decide), Fld.stored_word _ _ rfl (by decide) (by decide)]
    have hc : ∀ n, CLK_CFG_s_src.clamp n = n := fun _ => rfl
    have ho : CLK_CFG_s_src.of v.toNat = v.toNat / 2 ^ 0 % 2 ^ 1 := rfl
    rw [hc, ho]
    exact (Nat.mod_mod _ _).trans (by omega)
  have hfb : (stored [CLK_CFG_ext_fallback, CLK_CFG_s_src] v.toNat s p).rd CLK_CFG_ext_fallback = v.toNat / 32 % 2 := by
    rw [rd_stored _ _ _ (by simp) (by decide), Fld.stored_word _ _ rfl (by decide) (by decide)]
    have hc : ∀ n, CLK_CFG_ext_fallback.clamp n = n := fun _ => rfl
    have ho : CLK_CFG_ext_fallback.of v.toNat = v.toNat / 2 ^ 5 % 2 ^ 1 := rfl
    rw [hc, ho]
    exact Nat.mod_mod _ _
  have hne : ∀ f : Fld, f.key ∉ [CLK_CFG_ext_fallback, CLK_CFG_s_src].map Fld.key → (stored [CLK_CFG_ext_fallback, CLK_CFG_s_src] v.toNat s p).rd f = s.rd f :=
    fun f hf => rd_stored_ne _ _ _ hf
  obtain ⟨F, b, hm⟩ := stored_moves [CLK_CFG_ext_fallback, CLK_CFG_s_src] v.toNat s p
  rw [hsrc] at hu
  generalize stored [CLK_CFG_ext_fallback, CLK_CFG_s_src] v.toNat s p = w at *
  obtain ⟨r1, r2, ⟨F', e⟩, r4⟩ := srcRequest_shows w (v.toNat % 2) rfl
  generalize w.srcRequest (v.toNat % 2) = x at *
  obtain ⟨q, hq⟩ := State.reSignal_moves CLK_CFG_s_src.addr x
  have hrd : ∀ f, u.rd f = x.rd f := fun f => by rw [hu, State.rd_reSignal]
  have hclk : w.clk = s.clk := by rw [hm]
  have hdec : decide (v.toNat % 2 ≠ 0) = decide (v.toNat % 2 = 1) := by
    have : v.toNat % 2 = 0 ∨ v.toNat % 2 = 1 := by omega
    rcases this with h | h <;> rw [h] <;> decide
  refine ⟨?_, ?_, ?_, ?_, fun f hf => ?_, ?_⟩
  · rw [hrd, r1]
    omega
  · rw [hrd, r4 _ (by decide), hfb]
  · rw [hrd, r2, hne _ (by decide), hclk]
  · rw [hu, hq, e, ← hdec, hclk]
  · simp only [List.map_cons, List.map_nil, List.mem_cons, List.not_mem_nil, or_false, not_or] at hf
    rw [hrd, r4 f (by simp [hf]), hne f (by simp [hf])]
  · rw [hu, hq, e, hm]
    exact sameRest_mk s _ _ _ _

/-! ### The source that takes over -/

/-- With acquisition idle the gate of the sample domain does nothing to Trellis. -/
theorem domClose_trl {s : State} (h : s.acqSt = 0) (t c : Nat) : (s.domClose t c).trl = s.trl := by
  have hd : ∀ (l : List (Nat × Nat)) (v : State), (l.foldl (fun s q => s.susDone t 3 q.1) v).trl = v.trl := fun l => by
    induction l with
    | nil => exact fun _ => rfl
    | cons q l ih => exact fun v => ih _
  cases hr : s.grid.run with
  | false => rw [domClose_shut hr]
  | true =>
    have hc : s.relockClose t c = s := by simp [State.relockClose, State.armed_of_idle h]
    have hs : ((s.closing t c).shut (s.grid.posOf t)).trl = s.trl := by
      rw [State.closing, hc]
      exact hd _ s
    rw [domClose_eq hr]
    split
    · exact hs
    · exact hs

theorem domEval_trl {s : State} (h : s.acqSt = 0) (t c : Nat) : (s.domEval t c).trl = s.trl := by
  have hq : (s.qualEnd t).trl = s.trl := by
    unfold State.qualEnd
    split
    · split <;> rfl
    · rfl
  have h0 : (s.qualEnd t).acqSt = 0 := ((qualEnd_step s t []).acqSt (by simp)).trans h
  unfold State.domEval
  dsimp only
  split
  · refine Eq.trans ?_ hq
    unfold State.domOpen
    split
    · rfl
    · rw [State.relockOpen, if_neg (by simp [State.armed, State.acqSt, State.regrid, show (s.qualEnd t).rd ACQ_STAT_state = 0 from h0])]
      rfl
  · exact (domClose_trl h0 t c).trans hq

/-- A step of clock synthesis that leaves Trellis alone: registers, its hidden state and the grid. -/
theorem ClkStep.still {s u : State} {l : List Fld} (h : ClkStep s u l) (ht : u.trl = s.trl) : ∃ F C G, u = { s with fields := F, clk := C, grid := G } := by
  obtain ⟨F, C, G, O, e⟩ := h.moves
  have : ({ s.trl with out := O } : Trl) = s.trl := by rw [← ht, e]
  exact ⟨F, C, G, by rw [e, this]⟩

/-- The registers of the source in effect, with the old one gated. -/
def State.taken (s : State) (src t : Nat) : State := (((s.domClose t 2).wr CLK_STAT_s_src_act src).wr CLK_CFG_s_src_pend 0).wr CLK_STAT_dll_lock 0

theorem srcTake_eq (s : State) (src t : Nat) : ∃ C, s.srcTake src t = { s.taken src t with clk := C } ∧ C.fallback = false := by
  unfold State.srcTake
  dsimp only
  split
  · exact ⟨_, rfl, rfl⟩
  · exact ⟨_, rfl, rfl⟩

theorem srcTake_shows {s u : State} {src t : Nat} (h : s.acqSt = 0) (hu : u = s.srcTake src t) :
    u.rd CLK_STAT_s_src_act = src % 2 ∧ u.rd CLK_CFG_s_src_pend = 0 ∧ u.clk.fallback = false
      ∧ SameRegs s u [CLK_STAT_s_src_act, CLK_CFG_s_src_pend, CLK_STAT_dll_lock] ∧ (∃ F C G, u = { s with fields := F, clk := C, grid := G }) := by
  obtain ⟨C, e, hf⟩ := srcTake_eq s src t
  have hstep := domClose_step h t 2
  obtain ⟨F, C', G, em⟩ := hstep.still (domClose_trl h t 2)
  have hrd : ∀ f, u.rd f = (s.taken src t).rd f := fun f => by
    rw [hu, e]
    rfl
  refine ⟨?_, ?_, ?_, fun f hg => ?_, ?_⟩
  · rw [hrd, State.taken, State.rd_wr_ne _ _ _ _ (by decide), State.rd_wr_ne _ _ _ _ (by decide)]
    exact State.rd_wr_same _ _ _
  · rw [hrd, State.taken, State.rd_wr_ne _ _ _ _ (by decide)]
    exact State.rd_wr_same _ _ _
  · rw [hu, e]
    exact hf
  · simp only [List.map_cons, List.map_nil, List.mem_cons, List.not_mem_nil, or_false, not_or] at hg
    obtain ⟨g1, g2, g3⟩ := hg
    rw [hrd, State.taken, State.rd_wr_ne _ _ _ _ (Ne.symm g3), State.rd_wr_ne _ _ _ _ (Ne.symm g2), State.rd_wr_ne _ _ _ _ (Ne.symm g1)]
    exact hstep.regs f (by simpa using g3)
  · rw [hu, e, State.taken, em]
    exact ⟨_, C, G, rfl⟩

/-- The same for a command with its time. -/
theorem srcTake_answers {s u : State} {src t : Nat} (h : s.acqSt = 0) (hu : u = (s.advance t).srcTake src t) :
    u.rd CLK_STAT_s_src_act = src % 2 ∧ u.rd CLK_CFG_s_src_pend = 0 ∧ u.clk.fallback = false ∧ TimeAt s u t
      ∧ SameRegs s u [CLK_STAT_s_src_act, CLK_CFG_s_src_pend, CLK_STAT_dll_lock] ∧ SameRest s { u with clk := s.clk, grid := s.grid } := by
  obtain ⟨r1, r2, r3, r4, F, C, G, e⟩ := srcTake_shows ((State.rd_advance s t _).trans h) hu
  obtain ⟨b, hb, hk⟩ := s.advance_moves t
  refine ⟨r1, r2, r3, ?_, fun f hf => (r4 f hf).trans (State.rd_advance s t f), ?_⟩
  · rw [TimeAt, e, hb]
    exact hk
  · rw [e, hb]
    exact sameRest_mk_hrv s _ _ _

/-! ### CLK_EXT leaves its conditions -/

/-- What an invalid CLK_EXT writes at once. -/
def State.extGone (s : State) : State := (s.wr CLK_STAT_ext_valid 0).orF CLK_EVT_ext_loss 1

/-- The sample domain with its source lost: gated, unless it is so in M0 already. -/
def State.extShut (s : State) (t : Nat) : State :=
  (if s.mode = 0 then s.extGone else (((s.extGone.orF CLK_EVT_gated 1).bbox 0x30 4 0).domClose t 3).baseLost t).extUnsus t

/-- The source falls back to ADPLL-S. -/
def State.fallBack (s : State) : State :=
  ({ s with clk := { s.clk with fallback := true, qualAt := none }, acq := { s.acq with srcMark := some 0 } } : State).wr CLK_STAT_s_src_act 0

/-- ADPLL-S in its new part, at frequency `f`. -/
def State.baseLock (s : State) (f t : Nat) : State :=
  if s.pllSt 0 = 4 ∧ s.rd (CLK_x_TARGET_freq 0) = f then s.domEval t 3
  else if s.pllSt 0 = 7 then s.setTarget 0 f
  else ((((s.pllUnsus 0 t).setTarget 0 f).wr (CLK_x_CTL_en 0) 1).startLock 0).domEval t 3

theorem extLost_eq (s : State) (t : Nat) : State.extLost t s =
    if s.on CLK_STAT_s_src_act = true then
      if s.on CLK_CFG_ext_fallback = true then
        if s.mode = 0 then ((s.extShut t).fallBack.setTarget 0 (s.rd CLK_EXT_CFG_freq)).wr (CLK_x_CTL_en 0) 1
        else (s.extShut t).fallBack.baseLock (s.rd CLK_EXT_CFG_freq) t
      else { s.extShut t with clk := { (s.extShut t).clk with extWait := true } }
    else s.extGone := by
  unfold State.extLost
  cases s.on CLK_STAT_s_src_act with
  | false => rfl
  | true => rfl

/-! ### The grid through what a lost source gives up -/

theorem grid_of_apart {s u : State} (h : u.apart = s.apart) : u.grid = s.grid := congrArg Apart.grid h

theorem grid_of_untrl {s u : State} (h : u.apart.unopen.unstat.untrl = s.apart.unopen.unstat.untrl) : u.grid = s.grid := congrArg (fun a => a.grid) h

theorem foldl_grid {α : Type} (g : State → α → State) (l : List α) (s : State) (h : ∀ u a, (g u a).grid = u.grid) : (l.foldl g s).grid = s.grid :=
  foldl_view State.grid g l s h

theorem dskTake_grid (s : State) (p : Pend) : (s.dskTake p).grid = s.grid := by
  simp only [State.dskTake]
  (repeat' split) <;> rfl

theorem dskApply_grid (s : State) : s.dskApply.1.grid = s.grid := foldl_grid _ _ s dskTake_grid

theorem laneTake_grid (s : State) (l : Lane) : (s.laneTake l).grid = s.grid := by
  unfold State.laneTake
  exact (grid_of_apart (State.bbox_apart ..)).trans rfl

theorem laneSwap_grid (s : State) : s.laneSwap.1.grid = s.grid := by
  unfold State.laneSwap
  exact foldl_grid _ _ s laneTake_grid

theorem trlStart_grid (s : State) (k : Nat) : (s.trlStart k).grid = s.grid := grid_of_untrl (State.trlStart_untrl s k)

theorem timStart_grid (s : State) (t : Nat) : (s.timStart t).grid = s.grid := by
  unfold State.timStart
  split
  · rfl
  · rfl

/-- A capture that starts while the sample domain stands still leaves it so. -/
theorem startCapture_run {s : State} (h : s.grid.run = false) (t : Nat) : (s.startCapture t).grid.run = false := by
  have h1 : s.takeDelays.dskApply.1.laneSwap.1.grid.run = false := by
    rw [laneSwap_grid, dskApply_grid, grid_of_apart (State.takeDelays_apart s), h]
  have h2 : s.takeDelays.dskApply.1.laneSwap.1.retime = s.takeDelays.dskApply.1.laneSwap.1 := by
    unfold State.retime
    exact if_neg (by rw [h1]; simp)
  unfold State.startCapture
  rw [h2]
  generalize s.takeDelays.dskApply.1.laneSwap.1 = v at *
  dsimp only
  generalize hw : State.trlStart _ 0 = w
  have hwr : w.grid.run = false := by
    rw [← hw, trlStart_grid]
    exact h1
  rw [hwr]
  exact (congrArg Grid.run (timStart_grid _ t)).trans hwr

theorem pchkEnd_run {s : State} (h : s.grid.run = false) (t : Nat) (b : Bool) : (s.pchkEnd t b).grid.run = false := by
  unfold State.pchkEnd
  split
  · exact h
  · next c _ =>
    dsimp only
    generalize hw : List.foldl State.pchkStore _ c.done = w
    have hwr : w.grid = s.grid := by
      rw [← hw, foldl_grid State.pchkStore _ _ fun _ _ => rfl, foldl_grid (fun s ch => s.wr (INP_PCHK_verdict ch) 0) _ _ fun _ _ => rfl]
    generalize hv : State.event _ _ = v
    have hvr : v.grid.run = false := by
      rw [← hv, grid_of_apart (State.event_apart _ _)]
      exact (congrArg Grid.run hwr).trans h
    split
    · exact startCapture_run hvr t
    · exact hvr

/-- A probe check that is given up does not set a sample domain going that stands still. -/
theorem pchkAbandon_run {s : State} (h : s.grid.run = false) (t : Nat) : (s.pchkAbandon t).grid.run = false := by
  unfold State.pchkAbandon
  split
  · dsimp only
    refine pchkEnd_run ?_ t true
    split
    · split
      · exact h
      · exact h
    · exact h
  · exact h

/-- What a lost source gives up leaves a sample domain that stands still so. -/
theorem baseLost_run {s : State} (h : s.grid.run = false) (t : Nat) : (s.baseLost t).grid.run = false := by
  have hg : s.gatherSuspect.grid = s.grid := by
    unfold State.gatherSuspect
    split <;> rfl
  exact (congrArg Grid.run (taskAbandon_grid _)).trans (pchkAbandon_run (by rw [hg, h]) t)

/-! ### A fall-back -/

theorem fallback_putPll (s : State) (x : Nat) (p : PllSt) : (s.putPll x p).clk.fallback = s.clk.fallback := by
  unfold State.putPll
  dsimp only
  (repeat' split) <;> rfl

theorem fallback_pllTo (s : State) (x k : Nat) : (s.pllTo x k).clk.fallback = s.clk.fallback := by
  unfold State.pllTo
  dsimp only
  split <;> exact fallback_putPll _ _ _

theorem fallback_startLock (s : State) (x : Nat) : (s.startLock x).clk.fallback = s.clk.fallback := by
  unfold State.startLock
  dsimp only
  split
  · exact (fallback_pllTo _ _ _).trans (fallback_putPll s x _)
  · split
    · split
      · exact (fallback_pllTo _ _ _).trans (fallback_putPll s x _)
      · exact (fallback_pllTo _ _ _).trans (fallback_putPll s x _)
    · exact (fallback_pllTo _ _ _).trans (fallback_putPll s x _)

theorem fallback_setTarget (s : State) (x f : Nat) : (s.setTarget x f).clk.fallback = s.clk.fallback := fallback_putPll _ _ _

theorem fallback_pllUnsus (s : State) (x t : Nat) : (s.pllUnsus x t).clk.fallback = s.clk.fallback := fallback_putPll _ _ _

theorem fallback_domEval (s : State) (t c : Nat) : (s.domEval t c).clk.fallback = s.clk.fallback := by
  have h : ∀ k : Clk, k.fallback = k.ungated.fallback := fun _ => rfl
  rw [h, (gate_domEval s t c).clk, ← h]

/-- The registers that ADPLL-S writes as it takes over the sample base. -/
def baseFlds : List Fld := [CLK_STAT_dll_lock, CLK_x_TARGET_freq 0, CLK_x_CTL_en 0, CLK_x_STAT_suspect 0] ++ lockFlds 0

theorem setTarget_other (s : State) (f : Nat) {g : Fld} (hg : g.key ≠ (CLK_x_TARGET_freq 0).key) : (s.setTarget 0 f).rd g = s.rd g :=
  (State.rd_mk ..).trans (State.rd_wr_ne _ _ _ _ (Ne.symm hg))

/-- ADPLL-S takes over the sample base at the frequency declared. -/
theorem baseLock_shows (s : State) (f t : Nat) {u : State} (hu : u = s.baseLock f t) :
    (∀ g : Fld, g.key < 0x280000 → g.key ∉ baseFlds.map Fld.key → u.rd g = s.rd g) ∧ u.rd (CLK_x_TARGET_freq 0) % 2 ^ 21 = f % 2 ^ 21
      ∧ u.clk.fallback = s.clk.fallback := by
  have hb : ∀ g : Fld, g.key ∉ baseFlds.map Fld.key → g.key ≠ CLK_STAT_dll_lock.key ∧ g.key ≠ (CLK_x_TARGET_freq 0).key ∧ g.key ≠ (CLK_x_CTL_en 0).key
      ∧ g.key ≠ (CLK_x_STAT_suspect 0).key ∧ g.key ∉ (lockFlds 0).map Fld.key := fun g hg => by
    simp only [baseFlds, List.map_append, List.mem_append, List.map_cons, List.map_nil, List.mem_cons, List.not_mem_nil, or_false, not_or] at hg
    obtain ⟨⟨h1, h2, h3, h4⟩, h5⟩ := hg
    exact ⟨h1, h2, h3, h4, h5⟩
  have htar : (s.setTarget 0 f).rd (CLK_x_TARGET_freq 0) % 2 ^ 21 = f % 2 ^ 21 := by
    rw [setTarget_shows]
    exact Nat.mod_mod _ _
  rw [State.baseLock] at hu
  split at hu
  · next h =>
    have hg := gate_domEval s t 3
    rw [hu]
    exact ⟨fun g hl hk => hg.low g hl (hb g hk).1, by rw [hg.low _ (by decide) (by decide), h.2], fallback_domEval s t 3⟩
  · split at hu
    · rw [hu]
      exact ⟨fun g _ hk => setTarget_other s f (hb g hk).2.1, htar, fallback_setTarget s 0 f⟩
    · have hun := (pllUnsus_step s 0 t).regs
      have hst := starts_startLock (((s.pllUnsus 0 t).setTarget 0 f).wr (CLK_x_CTL_en 0) 1) 0
      have hg := gate_domEval ((((s.pllUnsus 0 t).setTarget 0 f).wr (CLK_x_CTL_en 0) 1).startLock 0) t 3
      rw [hu]
      refine ⟨fun g hl hk => ?_, ?_, ?_⟩
      · obtain ⟨h1, h2, h3, h4, h5⟩ := hb g hk
        rw [hg.low g hl h1, hst.regs g h5, State.rd_wr_ne _ _ _ _ (Ne.symm h3), setTarget_other _ f h2, hun g (by simpa using h4)]
      · rw [hg.low _ (by decide) (by decide), hst.regs _ (by decide), State.rd_wr_ne _ _ _ _ (by decide), setTarget_shows]
        exact Nat.mod_mod _ _
      · rw [fallback_domEval, fallback_startLock]
        exact (fallback_setTarget _ 0 f).trans (fallback_pllUnsus s 0 t)

/-! ### What the loss of CLK_EXT shows -/

theorem extGone_shows (s : State) : s.extGone.rd CLK_STAT_ext_valid = 0 ∧ s.extGone.rd CLK_EVT_ext_loss = 1
    ∧ SameRegs s s.extGone [CLK_STAT_ext_valid, CLK_EVT_ext_loss] := by
  refine ⟨?_, rd_orF_bit _ _ true rfl rfl, ((SameRegs.refl s _).wr _ _ (by simp)).wr _ _ (by simp)⟩
  rw [State.extGone, rd_orF_ne _ _ _ _ (by decide)]
  exact State.rd_wr_same _ _ _

theorem rd_extUnsus (s : State) (t : Nat) (f : Fld) : (s.extUnsus t).rd f = s.rd f := rfl

/-- The sample domain that loses its source outside M0 is gated. -/
theorem extShut_shows {s u : State} (hm : s.mode ≠ 0) (t : Nat) (hu : u = s.extShut t) :
    u.rd CLK_EVT_gated = 1 ∧ u.grid.run = false
      ∧ ∀ f : Fld, clkKey f.key = true → f.key ≠ CLK_STAT_dll_lock.key → f.key ≠ CLK_EVT_gated.key → u.rd f = s.extGone.rd f := by
  rw [State.extShut, if_neg hm] at hu
  have hev : (s.extGone.orF CLK_EVT_gated 1).rd CLK_EVT_gated = 1 := rd_orF_bit _ _ true rfl rfl
  have hor : ∀ f : Fld, f.key ≠ CLK_EVT_gated.key → (s.extGone.orF CLK_EVT_gated 1).rd f = s.extGone.rd f := fun f hf => rd_orF_ne _ _ _ _ (Ne.symm hf)
  generalize s.extGone.orF CLK_EVT_gated 1 = v at *
  have hbb : (v.bbox 0x30 4 0).synth = v.synth := State.bbox_synth _ _ _ _
  generalize v.bbox 0x30 4 0 = w at *
  have hg := gate_domClose w t 3
  have hrun : (w.domClose t 3).grid.run = false := by
    cases hr : w.grid.run with
    | false => rw [domClose_shut hr, hr]
    | true => exact (domClose_shows hr t 3).1
  generalize w.domClose t 3 = x at *
  have hrd : ∀ f : Fld, clkKey f.key = true → f.key ≠ CLK_STAT_dll_lock.key → u.rd f = v.rd f := fun f hc hd => by
    have hl : f.key < 0x280000 := by
      simp only [clkKey, Bool.and_eq_true, decide_eq_true_eq] at hc
      omega
    rw [hu, rd_extUnsus, rd_of_synth (State.baseLost_synth x t) hc, hg.low f hl hd, rd_of_synth hbb hc]
  refine ⟨by rw [hrd _ (by decide) (by decide), hev], ?_, fun f h1 h2 h3 => by rw [hrd f h1 h2, hor f h3]⟩
  rw [hu]
  exact baseLost_run hrun t

/-- CLK_EXT is lost in M0, where the sample domain is gated already. -/
theorem extShut_asleep {s : State} (hm : s.mode = 0) (t : Nat) : s.extShut t = s.extGone.extUnsus t := by rw [State.extShut, if_pos hm]

/-- The registers that every loss of CLK_EXT leaves to what it writes at once. -/
theorem extKeys : ∀ f ∈ [CLK_STAT_ext_valid, CLK_EXT_MEAS_valid, CLK_EVT_ext_loss], clkKey f.key = true ∧ f.key < 0x280000 ∧ f.key ≠ CLK_STAT_dll_lock.key
    ∧ f.key ≠ CLK_EVT_gated.key ∧ f.key ≠ CLK_STAT_s_src_act.key ∧ f.key ∉ baseFlds.map Fld.key := by decide

theorem extShut_keeps (s : State) (t : Nat) : ∀ f ∈ [CLK_STAT_ext_valid, CLK_EXT_MEAS_valid, CLK_EVT_ext_loss], (s.extShut t).rd f = s.extGone.rd f := by
  intro f hf
  obtain ⟨k1, -, k3, k4, -⟩ := extKeys f hf
  by_cases hm : s.mode = 0
  · rw [extShut_asleep hm, rd_extUnsus]
  · exact (extShut_shows hm t rfl).2.2 f k1 k3 k4

theorem fallBack_rd (s : State) {f : Fld} (h : f.key ≠ CLK_STAT_s_src_act.key) : s.fallBack.rd f = s.rd f :=
  (State.rd_wr_ne _ _ _ _ (Ne.symm h)).trans (State.rd_mk ..)

theorem fallBack_src (s : State) : s.fallBack.rd CLK_STAT_s_src_act = 0 := State.rd_wr_same _ _ _

/-- What the loss of CLK_EXT writes at once stands at its end. -/
theorem extLost_keeps (s : State) (t : Nat) : ∀ f ∈ [CLK_STAT_ext_valid, CLK_EXT_MEAS_valid, CLK_EVT_ext_loss], (State.extLost t s).rd f = s.extGone.rd f := by
  intro f hf
  obtain ⟨k1, k2, k3, k4, k5, k6⟩ := extKeys f hf
  have hshut := extShut_keeps s t f hf
  have hb : f.key ≠ (CLK_x_TARGET_freq 0).key ∧ f.key ≠ (CLK_x_CTL_en 0).key :=
    ⟨fun h => k6 (h ▸ List.mem_map_of_mem (by simp [baseFlds])), fun h => k6 (h ▸ List.mem_map_of_mem (by simp [baseFlds]))⟩
  rw [extLost_eq]
  split
  · split
    · split
      · rw [State.rd_wr_ne _ _ _ _ (Ne.symm hb.2), setTarget_other _ _ hb.1, fallBack_rd _ k5, hshut]
      · rw [(baseLock_shows _ _ t rfl).1 f k2 k6, fallBack_rd _ k5, hshut]
    · exact hshut
  · rfl

/-- CLK_EXT in use is lost outside M0: the sample base falls back, or waits behind a shut gate. -/
theorem extLost_awake {s u : State} {t : Nat} (h1 : s.rd CLK_STAT_s_src_act = 1) (hm : s.mode ≠ 0) (hu : u = State.extLost t s) :
    u.rd CLK_EVT_gated = 1
      ∧ (s.rd CLK_CFG_ext_fallback = 1 → u.rd CLK_STAT_s_src_act = 0 ∧ u.clk.fallback = true
          ∧ u.rd (CLK_x_TARGET_freq 0) % 2 ^ 21 = s.rd CLK_EXT_CFG_freq % 2 ^ 21)
      ∧ (s.rd CLK_CFG_ext_fallback = 0 → u.rd CLK_STAT_s_src_act = 1 ∧ u.clk.extWait = true ∧ u.grid.run = false) := by
  obtain ⟨g1, g2, g3⟩ := extShut_shows hm t rfl
  have hgone : s.extGone.rd CLK_STAT_s_src_act = 1 := ((extGone_shows s).2.2 _ (by decide)).trans h1
  have hsrc := (g3 CLK_STAT_s_src_act (by decide) (by decide) (by decide)).trans hgone
  rw [extLost_eq, if_pos (by rw [State.on, h1]; decide), if_neg hm] at hu
  generalize s.extShut t = w at *
  by_cases hf : s.on CLK_CFG_ext_fallback = true
  · rw [if_pos hf] at hu
    obtain ⟨b1, b2, b3⟩ := baseLock_shows w.fallBack (s.rd CLK_EXT_CFG_freq) t hu
    refine ⟨?_, fun _ => ⟨?_, b3, b2⟩, fun h0 => ?_⟩
    · rw [b1 _ (by decide) (by decide), fallBack_rd _ (by decide), g1]
    · rw [b1 _ (by decide) (by decide), fallBack_src]
    · rw [State.on, h0] at hf
      exact absurd hf (by decide)
  · rw [if_neg hf] at hu
    refine ⟨?_, fun h => absurd ((State.on_eq_true_iff s _).2 h) hf, fun _ => ⟨?_, ?_, ?_⟩⟩
    · rw [hu]
      exact g1
    · rw [hu]
      exact hsrc
    · rw [hu]
    · rw [hu]
      exact g2

/-- CLK_EXT is lost in M0: the sample base falls back, and ADPLL-S stays as it is. -/
theorem extLost_asleep {s u : State} {t : Nat} (h1 : s.rd CLK_STAT_s_src_act = 1) (hm : s.mode = 0) (hf : s.rd CLK_CFG_ext_fallback = 1)
    (hu : u = State.extLost t s) :
    u.rd CLK_STAT_s_src_act = 0 ∧ u.clk.fallback = true ∧ u.pllSt 0 = s.pllSt 0 ∧ u.rd CLK_EVT_gated = s.rd CLK_EVT_gated ∧ u.tmb = s.tmb := by
  rw [extLost_eq, if_pos (by rw [State.on, h1]; decide), if_pos (by rw [State.on, hf]; decide), if_pos hm, extShut_asleep hm] at hu
  have hgone := (extGone_shows s).2.2
  have hrd : ∀ f : Fld, f.key ≠ (CLK_x_CTL_en 0).key → f.key ≠ (CLK_x_TARGET_freq 0).key → u.rd f = (s.extGone.extUnsus t).fallBack.rd f := fun f h1 h2 => by
    rw [hu, State.rd_wr_ne _ _ _ _ (Ne.symm h1), setTarget_other _ _ h2]
  refine ⟨?_, ?_, ?_, ?_, ?_⟩
  · rw [hrd _ (by decide) (by decide), fallBack_src]
  · rw [hu]
    exact fallback_setTarget _ 0 _
  · rw [State.pllSt, hrd _ (by decide) (by decide), fallBack_rd _ (by decide), rd_extUnsus, hgone _ (by decide)]
    rfl
  · rw [hrd _ (by decide) (by decide), fallBack_rd _ (by decide), rd_extUnsus, hgone _ (by decide)]
  · rw [hu]
    rfl

/-! ### What the three commands of CLK_EXT answer -/

theorem on_b2n (s : State) (b : Bool) : (s.wr CLK_EXT_MEAS_valid (b2n b)).on CLK_EXT_MEAS_valid = b := by
  rw [State.on, State.rd_wr_same]
  cases b <;> decide

section Invalid

variable {s u : State} {edges : Bool} {t : Nat}

/-- The state in which a loss of CLK_EXT is judged. -/
theorem invalid_start (s : State) (edges : Bool) (t : Nat) : ∃ a, (s.advance t).wr CLK_EXT_MEAS_valid (b2n edges) = a
    ∧ a.on CLK_EXT_MEAS_valid = edges ∧ TimeAt s a t ∧ SameRegs s a [CLK_EXT_MEAS_valid] ∧ SameRest s a
    ∧ State.extInvalid edges t s = if a.on CLK_STAT_ext_valid = true then a.extLost t else a :=
  ⟨_, rfl, on_b2n _ _, TimeAt.advance s t, (SameRegs.advance s t _).wr _ _ (by simp), SameRest.advance s t, rfl⟩

theorem invalid_already (h0 : s.rd CLK_STAT_ext_valid = 0) (hu : u = State.extInvalid edges t s) :
    u.on CLK_EXT_MEAS_valid = edges ∧ TimeAt s u t ∧ SameRegs s u [CLK_EXT_MEAS_valid] ∧ SameRest s u := by
  obtain ⟨a, -, h1, h2, h3, h4, he⟩ := invalid_start s edges t
  rw [he, if_neg (by rw [State.on, h3 _ (by decide), h0]; decide)] at hu
  rw [hu]
  exact ⟨h1, h2, h3, h4⟩

theorem invalid_shows (hv : s.rd CLK_STAT_ext_valid = 1) (hu : u = State.extInvalid edges t s) :
    u.rd CLK_STAT_ext_valid = 0 ∧ u.on CLK_EXT_MEAS_valid = edges ∧ u.rd CLK_EVT_ext_loss = 1
      ∧ (s.rd CLK_STAT_s_src_act = 0 → TimeAt s u t ∧ SameRegs s u [CLK_STAT_ext_valid, CLK_EXT_MEAS_valid, CLK_EVT_ext_loss] ∧ SameRest s u)
      ∧ (s.rd CLK_STAT_s_src_act = 1 → s.mode = 0 → s.rd CLK_CFG_ext_fallback = 1 → u.rd CLK_STAT_s_src_act = 0
          ∧ u.clk.fallback = true ∧ u.pllSt 0 = s.pllSt 0 ∧ u.rd CLK_EVT_gated = s.rd CLK_EVT_gated ∧ TimeAt s u t)
      ∧ (s.rd CLK_STAT_s_src_act = 1 → s.mode ≠ 0 → u.rd CLK_EVT_gated = 1
          ∧ (s.rd CLK_CFG_ext_fallback = 1 → u.rd CLK_STAT_s_src_act = 0 ∧ u.clk.fallback = true
              ∧ u.rd (CLK_x_TARGET_freq 0) % 2 ^ 21 = s.rd CLK_EXT_CFG_freq % 2 ^ 21)
          ∧ (s.rd CLK_CFG_ext_fallback = 0 → u.rd CLK_STAT_s_src_act = 1 ∧ u.clk.extWait = true ∧ u.grid.run = false)) := by
  obtain ⟨a, -, h1, h2, h3, h4, he⟩ := invalid_start s edges t
  rw [he, if_pos (by rw [State.on, h3 _ (by decide), hv]; decide)] at hu
  have hk := extLost_keeps a t
  rw [← hu] at hk
  obtain ⟨g1, g2, g3⟩ := extGone_shows a
  have hact := h3 CLK_STAT_s_src_act (by decide)
  have hfb := h3 CLK_CFG_ext_fallback (by decide)
  have hmode : a.mode = s.mode := h3 GLB_STAT_active_mode (by decide)
  refine ⟨by rw [hk _ (by simp), g1], ?_, by rw [hk _ (by simp), g2], fun h0 => ?_, fun k1 hm hf => ?_, fun k1 hm => ?_⟩
  · rw [State.on, hk _ (by simp), g3 _ (by decide)]
    exact h1
  · rw [extLost_eq, if_neg (by rw [State.on, hact, h0]; decide)] at hu
    rw [hu]
    refine ⟨h2, fun f hf => ?_, h4⟩
    simp only [List.map_cons, List.map_nil, List.mem_cons, List.not_mem_nil, or_false, not_or] at hf
    rw [g3 f (by simp [hf]), h3 f (by simp [hf])]
  · obtain ⟨p1, p2, p3, p4, p5⟩ := extLost_asleep (hact.trans k1) (hmode.trans hm) (hfb.trans hf) hu
    exact ⟨p1, p2, p3.trans (h3 _ (by decide)), p4.trans (h3 _ (by decide)), (congrArg Tmb.kt p5).trans h2⟩
  · obtain ⟨p1, p2, p3⟩ := extLost_awake (hact.trans k1) (fun k => hm (hmode.symm.trans k)) hu
    rw [hfb, h3 CLK_EXT_CFG_freq (by decide)] at p2
    rw [hfb] at p3
    exact ⟨p1, p2, p3⟩

end Invalid

/-- The end of a suspect interval of CLK_EXT. -/
theorem extBack_shows (s : State) (t : Nat) : (∀ f, (s.extBack t).rd f = s.rd f) ∧ (s.extBack t).clk.extSuspect = none
    ∧ (s.clk.extSuspect = none → s.extBack t = s) := by
  unfold State.extBack
  by_cases h : s.clk.extSuspect.isSome = true
  · rw [if_pos h]
    obtain ⟨A, e⟩ := ({ s with clk := { s.clk with extSuspect := none } } : State).mark_moves t 3 0 0 4 0 0 0 false
    rw [State.susRestored, e]
    refine ⟨fun f => rfl, rfl, fun k => ?_⟩
    rw [k] at h
    exact absurd h (by decide)
  · rw [if_neg h]
    exact ⟨fun f => rfl, by simpa using h, fun _ => rfl⟩

/-- CLK_EXT measured. -/
def State.extMeas (s : State) (err : Int) : State := (s.wr CLK_EXT_MEAS_err (satU 16 err)).wr CLK_EXT_MEAS_valid 1

theorem extMeas_shows (s : State) (err : Int) : (s.extMeas err).rd CLK_EXT_MEAS_err = satU 16 err ∧ (s.extMeas err).rd CLK_EXT_MEAS_valid = 1
    ∧ SameRegs s (s.extMeas err) [CLK_EXT_MEAS_err, CLK_EXT_MEAS_valid] := by
  refine ⟨?_, State.rd_wr_same _ _ _, ((SameRegs.refl s _).wr _ _ (by simp)).wr _ _ (by simp)⟩
  rw [State.extMeas, State.rd_wr_ne _ _ _ _ (by decide), State.rd_wr_same]
  exact Nat.mod_eq_of_lt (satU_lt 16 err)

/-- A suspect interval of CLK_EXT that a drift opens. -/
def State.extSus (s : State) (t : Nat) : State := State.baseLost (State.susOpen { s with clk := { s.clk with extSuspect := some t } } t 4 0) t

theorem extSus_synth (s : State) (t : Nat) : (s.extSus t).synth = ({ s with clk := { s.clk with extSuspect := some t } } : State).synth :=
  (State.baseLost_synth _ t).trans (State.susOpen_synth _ t 4 0)

theorem extDrift_eq {s a : State} {t : Nat} (ha : s.advance t = a) (err : Int) : State.extDrift err t s =
    if (!a.on CLK_STAT_s_src_act) = true then a.extMeas err
    else if err.natAbs ≤ 1000 then (if (a.clk.qualAt.isSome && !a.srcNear) = true then (a.extMeas err).qualFrom t else a.extMeas err).extBack t
    else if a.clk.qualAt.isSome = true then (a.extMeas err).qualFrom t
    else if (a.clk.extSuspect.isNone && a.grid.run && decide (err.natAbs ≤ 2000)) = true then (a.extMeas err).extSus t
    else a.extMeas err := by
  unfold State.extDrift
  rw [ha]
  rfl

theorem extDrift_regs {s a : State} {t : Nat} (ha : s.advance t = a) (err : Int) {f : Fld} (hf : clkKey f.key = true) :
    (State.extDrift err t s).rd f = (a.extMeas err).rd f := by
  rw [extDrift_eq ha]
  split
  · rfl
  · split
    · rw [(extBack_shows _ t).1]
      split <;> rfl
    · split
      · rfl
      · split
        · exact rd_of_synth (extSus_synth _ t) hf
        · rfl

theorem extDrift_suspect {s a : State} {t : Nat} (ha : s.advance t = a) {err : Int} (h1 : a.rd CLK_STAT_s_src_act = 1) :
    (a.clk.extSuspect = none → a.clk.qualAt = none → a.grid.run = true → 1000 < err.natAbs → err.natAbs ≤ 2000 →
        (State.extDrift err t s).clk.extSuspect = some t)
      ∧ (err.natAbs ≤ 1000 → (State.extDrift err t s).clk.extSuspect = none) := by
  have hon : ¬(!a.on CLK_STAT_s_src_act) = true := by
    rw [State.on, h1]
    decide
  rw [extDrift_eq ha, if_neg hon]
  refine ⟨fun h2 h3 h4 h5 h6 => ?_, fun h => ?_⟩
  · rw [if_neg (by omega), if_neg (by rw [h3]; decide), if_pos (by rw [h2, h4, decide_eq_true h6]; rfl)]
    have hk : ∀ c : Clk, c.extSuspect = c.ungated.extSuspect := fun _ => rfl
    rw [hk, clk_of_synth (extSus_synth _ t)]
    rfl
  · rw [if_pos h]
    exact (extBack_shows _ t).2.1

/-- CLK_EXT that meets its conditions. -/
def State.extFine (s : State) (err : Int) (t : Nat) : State := ((s.extMeas err).wr CLK_STAT_ext_valid 1).extBack t

/-- With CLK_EXT valid again nothing waits for it, and the time that it was valid counts. -/
def State.extCounts (s : State) (t : Nat) : State :=
  { s with clk := { s.clk with extWait := false, qualAt := s.clk.qualAt.map fun k => min k (t - 1000 * usF) } }

theorem extValid_eq {s a : State} {t : Nat} (ha : s.advance t = a) (err : Int) : State.extValid err t s =
    if 1000 < err.natAbs ∨ a.extFreqOk = false ∨ (!a.lands) = true then a else ((a.extFine err t).extCounts t).domEval t 3 := by
  unfold State.extValid
  rw [ha]
  rfl

theorem extFreqOk_iff (s : State) : s.extFreqOk = true ↔ 800000 ≤ s.rd CLK_EXT_CFG_freq ∧ s.rd CLK_EXT_CFG_freq ≤ 1250000 := by
  simp only [State.extFreqOk, Bool.and_eq_true, decide_eq_true_eq]

theorem extFine_shows {s u : State} (err : Int) (t : Nat) (hu : u = s.extFine err t) :
    u.rd CLK_EXT_MEAS_err = satU 16 err ∧ u.rd CLK_EXT_MEAS_valid = 1 ∧ u.rd CLK_STAT_ext_valid = 1 ∧ u.clk.extSuspect = none
      ∧ SameRegs s u [CLK_EXT_MEAS_err, CLK_EXT_MEAS_valid, CLK_STAT_ext_valid] ∧ (s.clk.extSuspect = none → ∃ F, u = { s with fields := F }) := by
  obtain ⟨b1, b2, b3⟩ := extBack_shows ((s.extMeas err).wr CLK_STAT_ext_valid 1) t
  obtain ⟨m1, m2, m3⟩ := extMeas_shows s err
  have hne : ∀ f : Fld, f.key ≠ CLK_STAT_ext_valid.key → u.rd f = (s.extMeas err).rd f := fun f hf => by
    rw [hu, State.extFine, b1, State.rd_wr_ne _ _ _ _ (Ne.symm hf)]
  refine ⟨by rw [hne _ (by decide), m1], by rw [hne _ (by decide), m2], ?_, ?_, fun f hf => ?_, fun h => ?_⟩
  · rw [hu, State.extFine, b1]
    exact State.rd_wr_same _ _ _
  · rw [hu]
    exact b2
  · simp only [List.map_cons, List.map_nil, List.mem_cons, List.not_mem_nil, or_false, not_or] at hf
    rw [hne f hf.2.2, m3 f (by simp [hf])]
  · rw [hu, State.extFine, b3 h]
    exact ⟨_, rfl⟩

theorem extValid_shows {s u : State} {err : Int} {t : Nat} (hl : s.lands = true) (he : err.natAbs ≤ 1000) (h1 : 800000 ≤ s.rd CLK_EXT_CFG_freq)
    (h2 : s.rd CLK_EXT_CFG_freq ≤ 1250000) (hu : u = State.extValid err t s) :
    u.rd CLK_EXT_MEAS_err = satU 16 err ∧ u.rd CLK_EXT_MEAS_valid = 1 ∧ u.rd CLK_STAT_ext_valid = 1 ∧ u.clk.extSuspect = none
      ∧ u.clk.extWait = false
      ∧ (s.acqSt = 0 → s.clk.extSuspect = none → TimeAt s u t
          ∧ SameRegs s u [CLK_EXT_MEAS_err, CLK_EXT_MEAS_valid, CLK_STAT_ext_valid, CLK_STAT_dll_lock]
          ∧ SameRest s { u with clk := s.clk, grid := s.grid }) := by
  obtain ⟨b, hb, hk⟩ := s.advance_moves t
  have hregs : ∀ f, (s.advance t).rd f = s.rd f := State.rd_advance s t
  have hgo : ¬(1000 < err.natAbs ∨ (s.advance t).extFreqOk = false ∨ (!(s.advance t).lands) = true) := by
    rw [State.advance_lands, hl, (extFreqOk_iff (s.advance t)).2 (by rw [hregs]; exact ⟨h1, h2⟩)]
    simpa using he
  rw [extValid_eq rfl, if_neg hgo] at hu
  obtain ⟨f1, f2, f3, f4, f5, f6⟩ := extFine_shows (s := s.advance t) err t rfl
  generalize (s.advance t).extFine err t = v at *
  have hg := gate_domEval (v.extCounts t) t 3
  have hc : u.clk.ungated = (v.extCounts t).clk.ungated := by rw [hu, hg.clk]
  have hlow : ∀ f ∈ [CLK_EXT_MEAS_err, CLK_EXT_MEAS_valid, CLK_STAT_ext_valid], u.rd f = v.rd f := fun f hf => by
    obtain ⟨k1, k2⟩ := (show ∀ f ∈ [CLK_EXT_MEAS_err, CLK_EXT_MEAS_valid, CLK_STAT_ext_valid], f.key < 0x280000 ∧ f.key ≠ CLK_STAT_dll_lock.key by decide) f hf
    rw [hu, hg.low f k1 k2]
    rfl
  have hk1 : ∀ c : Clk, c.extSuspect = c.ungated.extSuspect := fun _ => rfl
  have hk2 : ∀ c : Clk, c.extWait = c.ungated.extWait := fun _ => rfl
  refine ⟨by rw [hlow _ (by simp), f1], by rw [hlow _ (by simp), f2], by rw [hlow _ (by simp), f3], ?_, ?_, fun h0 hs => ?_⟩
  · rw [hk1, hc]
    exact f4
  · rw [hk2, hc]
    rfl
  · have hv0 : (v.extCounts t).acqSt = 0 := by
      refine (f5 ACQ_STAT_state (by decide)).trans ?_
      rw [hregs]
      exact h0
    have hstep := domEval_step hv0 t 3
    obtain ⟨F, C, G, e⟩ := hstep.still (domEval_trl hv0 t 3)
    obtain ⟨F', ev⟩ := f6 (by rw [hb]; exact hs)
    refine ⟨?_, fun f hf => ?_, ?_⟩
    · rw [TimeAt, hu, e, ev, hb]
      exact hk
    · simp only [List.map_cons, List.map_nil, List.mem_cons, List.not_mem_nil, or_false, not_or] at hf
      rw [hu, hstep.regs f (by simp [hf]), ← hregs f]
      exact f5 f (by simp [hf])
    · rw [hu, e, ev, hb]
      exact sameRest_mk_hrv s _ _ _

end Sys2Proof.Machine

namespace Sys2Proof
open Machine

/-- Settles O22: the source of the sample base, and CLK_EXT leaving and meeting its conditions. -/
theorem sampleClocks : Obligations.SampleClocks := by
  unfold Obligations.SampleClocks
  constructor
  · intro s
    refine ⟨fun p v h => ?_, fun t hp h1 h0 hm => ?_, fun t hp hf hv hs h0 hm => ?_⟩
    · exact .of_perform (exec_sampleSourceWrite p v s) h.1 (srcWrite_shows h rfl)
    · refine .of_performOnAt (exec_sampleSourceSwitch t s) hp ?_
      obtain ⟨r1, r2, -, r4, r5, r6⟩ := srcTake_answers (s := s) (src := s.rd CLK_CFG_s_src) (t := t) h0 rfl
      have he : State.srcSwitch t s = (s.advance t).srcTake (s.rd CLK_CFG_s_src) t := by
        unfold State.srcSwitch
        dsimp only
        rw [State.on_advance, State.idle_advance, State.mode_advance, State.rd_advance, State.on, h1, State.idle, h0, decide_eq_true hm]
        rfl
      rw [he]
      exact ⟨r1, r2, r4, r5, r6⟩
    · refine .of_performOnAt (exec_extClockReturn t s) hp ?_
      obtain ⟨r1, r2, r3, r4, r5, r6⟩ := srcTake_answers (s := s) (src := 1) (t := t) h0 rfl
      have he : State.extReturn t s = (s.advance t).srcTake 1 t := by
        obtain ⟨b, hb, -⟩ := s.advance_moves t
        have hclk : (s.advance t).clk = s.clk := by rw [hb]
        unfold State.extReturn
        dsimp only
        rw [State.on_advance, State.idle_advance, State.mode_advance, State.rd_advance, hclk, hf, State.on, hv, State.idle, h0, decide_eq_true hm, hs]
        rfl
      rw [he]
      exact ⟨r1, r3, r2, r4, r5, r6⟩
  · intro s t hp
    have hrd : ∀ f, (s.advance t).rd f = s.rd f := State.rd_advance s t
    obtain ⟨b, hb, -⟩ := s.advance_moves t
    have hclk : (s.advance t).clk = s.clk := by rw [hb]
    have hgrid : (s.advance t).grid = s.grid := by rw [hb]
    refine ⟨fun edges h0 => ?_, fun edges hv => ?_, fun err => ?_, fun err h => ?_, fun err hl he h1 h2 => ?_⟩
    · exact .of_performOnAt (exec_clkExtInvalid ⟨edges, t⟩ s) hp (invalid_already h0 rfl)
    · exact .of_performOnAt (exec_clkExtInvalid ⟨edges, t⟩ s) hp (invalid_shows hv rfl)
    · refine .of_performOnAt (exec_clkExtDrift err t s) hp ?_
      obtain ⟨m1, m2, m3⟩ := extMeas_shows (s.advance t) err
      refine ⟨(extDrift_regs rfl err (by decide)).trans m1, (extDrift_regs rfl err (by decide)).trans m2, fun h1 h2 h3 h4 => ?_, fun h1 => ?_, fun h0 => ?_⟩
      · exact (extDrift_suspect rfl ((hrd _).trans h1)).1 (by rw [hclk, h2]) (by rw [hclk, h3]) (by rw [hgrid, h4])
      · exact (extDrift_suspect rfl ((hrd _).trans h1)).2
      · rw [extDrift_eq rfl, if_pos (by rw [State.on, hrd, h0]; decide)]
        exact ⟨TimeAt.advance s t, fun f hf => (m3 f hf).trans (hrd f), SameRest.advance s t⟩
    · refine .of_performOnAt (exec_clkExtValid err t s) hp ?_
      have hbad : 1000 < err.natAbs ∨ (s.advance t).extFreqOk = false ∨ (!(s.advance t).lands) = true := by
        rw [State.advance_lands, ← Bool.not_eq_true, extFreqOk_iff, hrd]
        rcases h with h | h | h | h
        · exact .inl h
        · exact .inr (.inl (by omega))
        · exact .inr (.inl (by omega))
        · exact .inr (.inr (by rw [h]; rfl))
      rw [extValid_eq rfl, if_pos hbad]
      exact unchanged_advance s t
    · exact .of_performOnAt (exec_clkExtValid err t s) hp (extValid_shows hl he h1 h2 rfl)

end Sys2Proof
end

