-- ==== Sys2Proof/Proofs/Completions.lean ====
section
/-! SUPPORT. The rings of Harvest: a completion entry written, a buffer that is finished, and what that leaves as it is. -/

namespace Sys2Proof.Machine

/-! ### The hidden state of a ring -/

@[simp] theorem State.ring_setRing_same (s : State) (n : Nat) (r : Ring) : (s.setRing n r).ring n = r := by
  rw [State.ring, State.setRing, look_ins_same]
  rfl

theorem State.ring_setRing_ne (s : State) {n k : Nat} (r : Ring) (h : k ≠ n) : (s.setRing n r).ring k = s.ring k := by
  rw [State.ring, State.ring, State.setRing, look_ins_ne _ _ _ _ (Ne.symm h)]

/-- The rings depend on nothing else. -/
theorem ring_of_rings {s u : State} (h : u.hrv.rings = s.hrv.rings) (k : Nat) : u.ring k = s.ring k := by rw [State.ring, State.ring, h]

/-! ### A completion entry -/

/-- Host address of the entry at the tail of completion ring `m` (R329). -/
def State.cqAddr (s : State) (m : Nat) : Nat :=
  64 * s.rd (HRV_CQm_BASE_LO_addr m) + 2 ^ 32 * s.rd (HRV_CQm_BASE_HI_addr m) + 32 * (s.rd (HRV_CQm_TAIL_idx m) % s.cqSize m)

theorem le_length (n v : Nat) : (le n v).length = n := by simp [le]

theorem cqEntry_length (tag bytes recs status cflags n rofs info : Nat) : (cqEntry tag bytes recs status cflags n rofs info).length = 32 := by
  simp only [cqEntry, List.length_append, le_length]

/-- The status stands at byte 12. -/
theorem cqEntry_status (tag bytes recs status cflags n rofs info : Nat) :
    (cqEntry tag bytes recs status cflags n rofs info).getD 12 0 = BitVec.ofNat 8 status := by
  simp [cqEntry, le, List.range_succ]

/-- A payload holds whole entries, so that an entry goes to the host in one request. -/
theorem hostPut_entry (s : State) {a : Nat} {e : List Byte} (ha : a % 32 = 0) (he : e.length = 32) :
    s.hostPut false a e = { s with hrv := { s.hrv with out := s.hrv.out ++ [⟨a, e, false⟩], l12 := false } } := by
  obtain ⟨k, hk⟩ : ∃ k, s.maxPayload = 32 * k ∧ 0 < k := ⟨4 * 2 ^ min 5 (s.cfgReg .device / 32 % 8), by rw [State.maxPayload]; omega, by positivity⟩
  have hroom : 32 ≤ s.maxPayload - a % s.maxPayload := by
    obtain ⟨hk, hpos⟩ := hk
    have h1 : a % s.maxPayload < s.maxPayload := Nat.mod_lt _ (by omega)
    have h2 : a % s.maxPayload % 32 = 0 := by rw [hk, Nat.mod_mul_right_mod, ha]
    omega
  have hcut : tlps s.maxPayload false a e (32 / s.maxPayload + 2) = [⟨a, e, false⟩] := by
    have hne : e.isEmpty = false := by
      cases e with
      | nil => exact absurd he (by decide)
      | cons x l => rfl
    rw [tlps, hne, if_neg (by decide)]
    have htake : e.take (s.maxPayload - a % s.maxPayload) = e := List.take_of_length_le (by omega)
    have hdrop : e.drop (s.maxPayload - a % s.maxPayload) = [] := List.drop_eq_nil_of_le (by omega)
    dsimp only
    rw [htake, hdrop, tlps]
    rfl
  unfold State.hostPut
  dsimp only
  rw [he, hcut]

/-- The registers that a completion entry of ring `n` writes. -/
def cqFlds (s : State) (n : Nat) : List Fld :=
  [HRV_CQm_TAIL_idx (s.rd (HRV_RINGn_CFG_cq n)), HRV_CQm_TAIL_phase (s.rd (HRV_RINGn_CFG_cq n)), HRV_RINGn_HEAD_idx n]

/-- A completion ring's tail behind the entry at `i`. -/
def State.cqStep (s : State) (m i : Nat) : State :=
  if i + 1 = s.cqSize m then (s.wr (HRV_CQm_TAIL_idx m) 0).wr (HRV_CQm_TAIL_phase m) (1 - s.rd (HRV_CQm_TAIL_phase m)) else s.wr (HRV_CQm_TAIL_idx m) (i + 1)

theorem cqStep_shows (s : State) (m i : Nat) : (∃ F, s.cqStep m i = { s with fields := F }) ∧ SameRegs s (s.cqStep m i) [HRV_CQm_TAIL_idx m, HRV_CQm_TAIL_phase m] := by
  unfold State.cqStep
  split
  · exact ⟨⟨_, rfl⟩, ((SameRegs.refl s _).wr _ _ (by simp)).wr _ _ (by simp)⟩
  · exact ⟨⟨_, rfl⟩, (SameRegs.refl s _).wr _ _ (by simp)⟩

/-- What remains of a ring whose buffer has completed, the descriptors `q` left. -/
def Ring.consumed (r : Ring) (q : List Desc) : Ring := { r with q := q, bytes := 0, recs := 0, firstAt := none, rofs := 0, pois := none, ready := none }

theorem cqSignal_moves (m : Nat) (s : State) : ∃ C L M Q, State.cqSignal m s = { s with hrv := { s.hrv with cqs := C, l12 := L }, msix := M, msxPba := Q } := by
  unfold State.cqSignal
  split
  · obtain ⟨l, M, Q, e⟩ := State.signal_moves m { s with hrv := { s.hrv with cqs := ins s.hrv.cqs m ⟨0, 0⟩ } }
    exact ⟨_, l, M, Q, e⟩
  · exact ⟨s.hrv.cqs, s.hrv.l12, s.msix, s.msxPba, rfl⟩

/-- The entry that completes descriptor `d` of ring `n` with status, flags and info `c`. -/
def State.cqBytes (s : State) (n : Nat) (d : Desc) (c : Nat × Nat × Nat) : List Byte :=
  cqEntry d.tag (s.ring n).bytes (s.ring n).recs c.1 (s.rd (HRV_CQm_TAIL_phase (s.rd (HRV_RINGn_CFG_cq n))) + c.2.1) n
    (if d.copy then d.src else (s.ring n).rofs) c.2.2

/-- Entry and tail of a completion. -/
def State.cqPut (s : State) (n : Nat) (d : Desc) (c : Nat × Nat × Nat) : State :=
  (s.hostPut false (s.cqAddr (s.rd (HRV_RINGn_CFG_cq n))) (s.cqBytes n d c)).cqStep (s.rd (HRV_RINGn_CFG_cq n))
    (s.rd (HRV_CQm_TAIL_idx (s.rd (HRV_RINGn_CFG_cq n))) % s.cqSize (s.rd (HRV_RINGn_CFG_cq n)))

/-- The descriptor consumed. -/
def State.descUsed (s : State) (n : Nat) (r : Ring) : State := (s.wr (HRV_RINGn_HEAD_idx n) ((s.rd (HRV_RINGn_HEAD_idx n) + 1) % s.ringSize n)).setRing n r

theorem cqWrite_eq {s : State} {n : Nat} {c : Nat × Nat × Nat} {d : Desc} {q : List Desc} (hq : (s.ring n).q = d :: q) : ∃ C L M Q,
    State.cqWrite n c s = { (s.cqPut n d c).descUsed n ((s.ring n).consumed q) with
      hrv := { ((s.cqPut n d c).descUsed n ((s.ring n).consumed q)).hrv with cqs := C, l12 := L }, msix := M, msxPba := Q } := by
  have hs : ∀ v : State, ∀ u1 : Cq, ∀ m, ∃ C L M Q, State.cqSignal m { v with hrv := { v.hrv with cqs := ins v.hrv.cqs m u1 } } =
      { v with hrv := { v.hrv with cqs := C, l12 := L }, msix := M, msxPba := Q } := fun v u1 m => by
    obtain ⟨C, L, M, Q, e⟩ := cqSignal_moves m { v with hrv := { v.hrv with cqs := ins v.hrv.cqs m u1 } }
    exact ⟨C, L, M, Q, e⟩
  unfold State.cqWrite
  dsimp only
  split
  · next h => rw [hq] at h; exact absurd h (by simp)
  · next d' q' h =>
    rw [hq] at h
    obtain ⟨rfl, rfl⟩ := List.cons.inj h
    generalize hv : State.setRing _ n _ = v
    have hw : (s.cqPut n d c).descUsed n ((s.ring n).consumed q) = v := by
      rw [← hv]
      rfl
    rw [hw]
    generalize (if (v.cq (s.rd (HRV_RINGn_CFG_cq n))).unsig = 0 then s.tmb.kt else (v.cq (s.rd (HRV_RINGn_CFG_cq n))).oldest) = oldest
    split
    · exact hs v _ _
    · exact ⟨_, v.hrv.l12, _, _, rfl⟩

/-- The registers of a ring are told from those that a completion writes. -/
theorem head_ne_cq (n : Fin 16) (m : Nat) : (HRV_RINGn_HEAD_idx n.val).key ∉ [HRV_CQm_TAIL_idx m, HRV_CQm_TAIL_phase m].map Fld.key
    ∧ (HRV_RINGn_CFG_size n.val).key ∉ [HRV_CQm_TAIL_idx m, HRV_CQm_TAIL_phase m].map Fld.key := by
  have := n.isLt
  simp only [List.map_cons, List.map_nil, List.mem_cons, List.not_mem_nil, or_false, Fld.key, HRV_RINGn_HEAD_idx, HRV_RINGn_CFG_size, HRV_CQm_TAIL_idx,
    HRV_CQm_TAIL_phase]
  omega

theorem cqAddr_whole (s : State) (m : Nat) : s.cqAddr m % 32 = 0 := by
  unfold State.cqAddr
  omega

/-- What a completion shows: the entry at the tail of the completion ring, the descriptor consumed, and nothing else. -/
theorem cqWrite_shows {s : State} {n : Fin 16} {c : Nat × Nat × Nat} {d : Desc} {q : List Desc} (hq : (s.ring n.val).q = d :: q) {u : State}
    (hu : u = State.cqWrite n.val c s) :
    u.rd (HRV_RINGn_HEAD_idx n.val) = (s.rd (HRV_RINGn_HEAD_idx n.val) + 1) % s.ringSize n.val % 2 ^ 16
      ∧ u.ring n.val = (s.ring n.val).consumed q ∧ (∀ k, k ≠ n.val → u.ring k = s.ring k)
      ∧ (∃ e, u.hrv.out = s.hrv.out ++ [⟨s.cqAddr (s.rd (HRV_RINGn_CFG_cq n.val)), e, false⟩] ∧ e.length = 32 ∧ e.getD 12 0 = BitVec.ofNat 8 c.1)
      ∧ SameRegs s u (cqFlds s n.val)
      ∧ ∃ F H M Q, u = { s with fields := F, hrv := H, msix := M, msxPba := Q } := by
  obtain ⟨C, L, M, Q, e⟩ := cqWrite_eq (c := c) hq
  have hput := hostPut_entry s (cqAddr_whole s (s.rd (HRV_RINGn_CFG_cq n.val))) (cqEntry_length d.tag (s.ring n.val).bytes (s.ring n.val).recs c.1
    (s.rd (HRV_CQm_TAIL_phase (s.rd (HRV_RINGn_CFG_cq n.val))) + c.2.1) n.val (if d.copy then d.src else (s.ring n.val).rofs) c.2.2)
  obtain ⟨⟨F, hstep⟩, hregs⟩ := cqStep_shows (s.hostPut false (s.cqAddr (s.rd (HRV_RINGn_CFG_cq n.val))) (s.cqBytes n.val d c)) (s.rd (HRV_RINGn_CFG_cq n.val))
    (s.rd (HRV_CQm_TAIL_idx (s.rd (HRV_RINGn_CFG_cq n.val))) % s.cqSize (s.rd (HRV_RINGn_CFG_cq n.val)))
  have hrd : ∀ f : Fld, f.key ∉ [HRV_CQm_TAIL_idx (s.rd (HRV_RINGn_CFG_cq n.val)), HRV_CQm_TAIL_phase (s.rd (HRV_RINGn_CFG_cq n.val))].map Fld.key →
      (s.cqPut n.val d c).rd f = s.rd f := fun f hf => (hregs f hf).trans rfl
  obtain ⟨k1, k2⟩ := head_ne_cq n (s.rd (HRV_RINGn_CFG_cq n.val))
  have hput' : s.cqPut n.val d c = { s with fields := F, hrv := { s.hrv with
      out := s.hrv.out ++ [⟨s.cqAddr (s.rd (HRV_RINGn_CFG_cq n.val)), s.cqBytes n.val d c, false⟩], l12 := false } } := by
    rw [State.cqPut, hstep, State.cqBytes, hput]
  have hsize : (s.cqPut n.val d c).ringSize n.val = s.ringSize n.val := by rw [State.ringSize, State.ringSize, hrd _ k2]
  have hhead : ((s.cqPut n.val d c).descUsed n.val ((s.ring n.val).consumed q)).rd (HRV_RINGn_HEAD_idx n.val)
      = (s.rd (HRV_RINGn_HEAD_idx n.val) + 1) % s.ringSize n.val % 2 ^ 16 := by
    rw [← hsize, ← hrd _ k1]
    exact (State.rd_mk ..).trans (State.rd_wr_same _ _ _)
  refine ⟨?_, ?_, fun k hk => ?_, ⟨s.cqBytes n.val d c, ?_, cqEntry_length .., cqEntry_status ..⟩, fun f hf => ?_, ?_⟩
  · rw [hu, e]
    exact hhead
  · rw [hu, e]
    exact State.ring_setRing_same _ _ _
  · rw [hu, e]
    refine (State.ring_setRing_ne _ _ hk).trans ?_
    rw [hput']
    rfl
  · rw [hu, e, State.descUsed, hput']
    rfl
  · simp only [cqFlds, List.map_cons, List.map_nil, List.mem_cons, List.not_mem_nil, or_false, not_or] at hf
    obtain ⟨f1, f2, f3⟩ := hf
    rw [hu, e]
    refine (State.rd_mk ..).trans ((State.rd_mk ..).trans ((State.rd_wr_ne _ _ _ _ (Ne.symm f3)).trans (hrd f ?_)))
    simp [f1, f2]
  · rw [hu, e, State.descUsed, hput']
    exact ⟨_, _, M, Q, rfl⟩

/-! ### A buffer that is finished -/

/-- Whether a completion of ring `n` has to wait (R314, R331). -/
def State.waits (s : State) (n : Nat) : Bool := s.cqFull (s.rd (HRV_RINGn_CFG_cq n)) || !s.hrvRuns

theorem finish_eq {s : State} {n : Nat} {d : Desc} {q : List Desc} (hq : (s.ring n).q = d :: q) (st cflags info : Nat) :
    State.finish n st cflags info s =
      if s.waits n = true then s.setRing n { s.ring n with ready := some (st, cflags + 8 * b2n (s.ring n).strm, info) }
      else State.cqWrite n (st, cflags + 8 * b2n (s.ring n).strm, info) s := by
  unfold State.finish
  exact if_neg (by rw [hq]; exact Bool.false_ne_true)

theorem finish_none {s : State} {n : Nat} (hq : (s.ring n).q = []) (st cflags info : Nat) : State.finish n st cflags info s = s := by
  unfold State.finish
  exact if_pos (by rw [hq]; rfl)

/-- With nothing at the front that breaks the rules nothing more completes. -/
theorem badFront_stops {s : State} {n : Nat} (h : (s.ring n).ready = none → ∀ d q, (s.ring n).q = d :: q → d.bad = false) (k : Nat) :
    State.badFront n s k = s := by
  cases k with
  | zero => rfl
  | succ k =>
    unfold State.badFront
    split
    · next d q hq hr => rw [h hr d q hq]; rfl
    · rfl

theorem badFront_step {s : State} {n : Nat} {d : Desc} {q : List Desc} (hq : (s.ring n).q = d :: q) (hr : (s.ring n).ready = none) (hd : d.bad = true)
    (k : Nat) : State.badFront n s (k + 1) = State.badFront n ((State.finish n 4 0 0 s).orF HRV_EVT_bad_desc 1) k := by
  rw [State.badFront, hq, hr]
  exact if_pos hd

end Sys2Proof.Machine
end

