-- ==== Sys2Proof/Proofs/Descriptors.lean ====
section
/-! PROOFS. The descriptors of a ring and their faults (O41). -/

namespace Sys2Proof.Machine

/-! ### The tail of a ring -/

theorem regAt_tail : ∀ n : Fin 16, (regAt (HRV_RINGn_TAIL_idx n.val).addr).map (fun x => softFlds (x.1.flds x.2.1 x.2.2)) = some [HRV_RINGn_TAIL_idx n.val] := by
  decide

theorem effect_tail (n : Fin 16) (p : Port) (v bm : Nat) (o s : State) : State.effect p (HRV_RINGn_TAIL_idx n.val).addr v bm o s = s := by
  have hn := n.isLt
  have ha : (HRV_RINGn_TAIL_idx n.val).addr = 0xe100c + 64 * n.val := rfl
  have h14 : (HRV_RINGn_TAIL_idx n.val).addr / 0x10000 = 14 := by rw [ha]; omega
  simp only [State.effect, h14]
  rw [State.effHrv]
  dsimp only
  rw [if_neg (by rw [ha]; omega), if_neg (by rw [ha]; omega)]

theorem tailWrite_shows {s u : State} {p : Port} {n : Fin 16} {v : Word} {t : Nat} (h : Reaches p (HRV_RINGn_TAIL_idx n.val).addr s)
    (hu : u = State.writeAt p (HRV_RINGn_TAIL_idx n.val).addr v.toNat t s) :
    u.rd (HRV_RINGn_TAIL_idx n.val) = v.toNat % 2 ^ 16 ∧ TimeAt s u t ∧ SameRegs s u [HRV_RINGn_TAIL_idx n.val] ∧ SameRest s u := by
  have hn := n.isLt
  have ha : (HRV_RINGn_TAIL_idx n.val).addr = 0xe100c + 64 * n.val := rfl
  have h14 : (HRV_RINGn_TAIL_idx n.val).addr / 0x10000 = 14 := by rw [ha]; omega
  have hc : (s.advance t).closed (HRV_RINGn_TAIL_idx n.val).addr = false := by simp [State.closed, h14]
  have hi : (s.advance t).ignored (HRV_RINGn_TAIL_idx n.val).addr = false := by
    simp only [State.ignored, h14]
    rw [decide_eq_false (show ¬(HRV_RINGn_TAIL_idx n.val).addr % 64 < 8 by rw [ha]; omega), Bool.and_false, Bool.false_and]
  rw [State.writeAt, portWrite_stores p _ v.toNat _ _ (h.advance t) v.isLt (by rw [ha]; omega) (by rw [ha]; omega) hc hi (regAt_tail n), effect_tail] at hu
  obtain ⟨F, b, k, hs, hk⟩ := stored_advance [HRV_RINGn_TAIL_idx n.val] v.toNat s t p
  have hv : (stored [HRV_RINGn_TAIL_idx n.val] v.toNat (s.advance t) p).rd (HRV_RINGn_TAIL_idx n.val) = v.toNat % 2 ^ 16 := by
    have hcl : ∀ y, (HRV_RINGn_TAIL_idx n.val).clamp y = y := fun _ => rfl
    rw [rd_stored _ _ _ (by simp) (by simp), Fld.stored_word _ _ rfl (show (16 : Nat) ≠ 0 by decide) (show 0 + 16 ≤ 32 by decide), hcl]
    show v.toNat / 2 ^ 0 % 2 ^ 16 % 2 ^ 16 = v.toNat % 2 ^ 16
    omega
  have hne : ∀ f : Fld, f.key ∉ [HRV_RINGn_TAIL_idx n.val].map Fld.key → (stored [HRV_RINGn_TAIL_idx n.val] v.toNat (s.advance t) p).rd f = s.rd f :=
    fun f hf => (rd_stored_ne _ _ _ hf).trans (State.rd_advance s t f)
  generalize stored [HRV_RINGn_TAIL_idx n.val] v.toNat (s.advance t) p = w at *
  obtain ⟨q, hq⟩ := State.reSignal_moves (HRV_RINGn_TAIL_idx n.val).addr w
  refine ⟨by rw [hu, State.rd_reSignal, hv], ?_, fun f hf => by rw [hu, State.rd_reSignal, hne f hf], ?_⟩
  · rw [TimeAt, hu, hq, hs]
    exact hk
  · rw [hu, hq, hs]
    exact sameRest_mk s _ _ _ _

/-! ### A descriptor that arrives -/

/-- Whether a ring is served does not depend on the rings' own state but for what its completion waits for. -/
theorem hrvRuns_of_ringRuns {s : State} {n : Nat} (h : s.ringRuns n = true) : s.hrvRuns = true ∧ (s.ring n).ready = none := by
  simp only [State.ringRuns, Bool.and_eq_true, Option.isNone_iff_eq_none] at h
  exact ⟨h.1.1.1, h.2⟩

theorem ringRuns_advance (s : State) (t n : Nat) : (s.advance t).ringRuns n = s.ringRuns n := by
  obtain ⟨b, hb, -⟩ := s.advance_moves t
  rw [hb]
  rfl

theorem ring_advance (s : State) (t n : Nat) : (s.advance t).ring n = s.ring n := by
  obtain ⟨b, hb, -⟩ := s.advance_moves t
  rw [hb]
  rfl

/-- The descriptor in the bytes `b`, entry `i` of ring `n`. -/
def State.descOf (s : State) (n i : Nat) (b : List Byte) : Desc :=
  ⟨s.descAddr n i, field b 0 8, field b 8 4, field b 12 4, field b 16 8, bit (field b 24 1) 0, decide (s.ringSrc n = 0), s.descBad (decide (s.ringSrc n = 0)) b⟩

/-- The place of the next descriptor that ring `n` fetches. -/
def State.fetchIdx (s : State) (n : Nat) : Nat := (s.rd (HRV_RINGn_HEAD_idx n) + (s.ring n).q.length) % s.ringSize n

/-- A descriptor joins the queue of ring `n`. -/
def State.queued (s : State) (n : Nat) (d : Desc) : State := s.setRing n { s.ring n with q := (s.ring n).q ++ [d] }

theorem descFetch_eq {s a : State} {n t : Nat} (ha : s.advance t = a) (hr : a.ringRuns n = true) (hq : (a.ring n).q.length < 8)
    (hi : a.fetchIdx n ≠ a.rd (HRV_RINGn_TAIL_idx n) % a.ringSize n) (b : List Byte) :
    State.descFetch n b t s = State.badFront n (a.queued n (a.descOf n (a.fetchIdx n) b)) 8 := by
  have hc : ¬((!a.ringRuns n) = true ∨ 8 ≤ (a.ring n).q.length ∨ a.fetchIdx n = a.rd (HRV_RINGn_TAIL_idx n) % a.ringSize n) := by
    rw [hr]
    simp only [Bool.not_true, Bool.false_eq_true, false_or, not_or]
    exact ⟨by omega, hi⟩
  unfold State.descFetch
  rw [ha]
  exact if_neg hc

/-- A good descriptor, or one behind others, only joins the queue. -/
theorem badFront_queued {s : State} {n : Nat} {d : Desc} (hq : ∀ x ∈ (s.ring n).q, x.bad = false) (h : d.bad = false ∨ (s.ring n).q ≠ []) :
    State.badFront n (s.queued n d) 8 = s.queued n d := by
  refine badFront_stops (fun _ x l hx => ?_) 8
  rw [State.queued, State.ring_setRing_same] at hx
  cases hs : (s.ring n).q with
  | nil =>
    rw [hs] at hx
    obtain ⟨rfl, -⟩ := List.cons.inj hx
    exact h.resolve_right (fun k => k hs)
  | cons y r =>
    rw [hs] at hx hq
    obtain ⟨rfl, -⟩ := List.cons.inj hx
    exact hq y (by simp)

/-- What serving ring `n` has shown once its buffer in hand has completed, seen from the state before the command. -/
theorem completed_of_write {s v w : State} {n : Fin 16} {c : Nat × Nat × Nat} {d : Desc} {q : List Desc} (hq : (v.ring n.val).q = d :: q)
    (hrd : ∀ f, v.rd f = s.rd f) (hout : v.hrv.out = s.hrv.out) (hw : w = State.cqWrite n.val c v) : Completed s w n.val c.1 q := by
  obtain ⟨h1, h2, -, ⟨e, h3, h4, h5⟩, -⟩ := cqWrite_shows hq hw
  have hsize : v.ringSize n.val = s.ringSize n.val := by rw [State.ringSize, State.ringSize, hrd]
  have haddr : ∀ m, v.cqAddr m = s.cqAddr m := fun m => by simp only [State.cqAddr, State.cqSize, hrd]
  refine ⟨by rw [h1, hrd, hsize], by rw [h2]; rfl, by rw [h2]; rfl, by rw [h2]; rfl, by rw [h2]; rfl, [], e, ?_, h4, h5⟩
  rw [h3, hout, haddr, hrd, List.append_nil]
  rfl

/-- Registers written beside it do not matter. -/
theorem completed_wr {s w : State} {n : Fin 16} {st : Nat} {q : List Desc} {f : Fld} (v : Nat) (hf : f.key ≠ (HRV_RINGn_HEAD_idx n.val).key)
    (h : Completed s w n.val st q) : Completed s (w.wr f v) n.val st q := by
  obtain ⟨h1, h2⟩ := h
  exact ⟨(State.rd_wr_ne _ _ _ _ hf).trans h1, h2⟩

theorem queued_ring (s : State) (n : Nat) (d : Desc) : (s.queued n d).ring n = { s.ring n with q := (s.ring n).q ++ [d] } := State.ring_setRing_same _ _ _

/-- One alone in the queue that breaks the rules completes BAD_DESC. -/
theorem badFront_bad {s : State} {n : Fin 16} {d : Desc} (hq : (s.ring n.val).q = []) (hr : s.ringRuns n.val = true)
    (hf : s.cqFull (s.rd (HRV_RINGn_CFG_cq n.val)) = false) (hd : d.bad = true) : ∃ c, c.1 = 4 ∧
    State.badFront n.val (s.queued n.val d) 8 = (State.cqWrite n.val c (s.queued n.val d)).orF HRV_EVT_bad_desc 1 := by
  obtain ⟨hrun, hready⟩ := hrvRuns_of_ringRuns hr
  have hq1 : ((s.queued n.val d).ring n.val).q = d :: [] := by rw [queued_ring, hq]; rfl
  have hw : (s.queued n.val d).waits n.val = false := by
    show (s.cqFull (s.rd (HRV_RINGn_CFG_cq n.val)) || !s.hrvRuns) = false
    rw [hf, hrun]
    rfl
  rw [badFront_step hq1 (by rw [queued_ring, hready]) hd, finish_eq hq1, hw, if_neg (by decide)]
  refine ⟨_, rfl, badFront_stops (fun _ x l hx => ?_) 7⟩
  obtain ⟨-, h2, -⟩ := cqWrite_shows (c := (4, 0 + 8 * b2n ((s.queued n.val d).ring n.val).strm, 0)) hq1 rfl
  have hnil : ((State.cqWrite n.val (4, 0 + 8 * b2n ((s.queued n.val d).ring n.val).strm, 0) (s.queued n.val d)).ring n.val).q = [] := by rw [h2]; rfl
  exact absurd (hx.symm.trans hnil) (by simp)

/-! ### A fetch that fails -/

theorem fetchError_eq {s a : State} {n t : Nat} (ha : s.advance t = a) (hr : a.ringRuns n = true) (he : a.ringEmpty n = false) :
    State.fetchError n t s =
      (((State.ringStop n 5 a).wr (HRV_RINGn_CFG_en n) 0).wr (HRV_RINGn_STAT_host_err n) 1).orF HRV_EVT_host_err 1 := by
  unfold State.fetchError
  rw [ha]
  exact if_neg (by rw [hr, he]; decide)

/-- Ring `n` with only the descriptor in hand left. -/
def State.inHand (s : State) (n : Nat) : State := s.setRing n { s.ring n with q := (s.ring n).q.take 1 }

theorem ringStop_eq (s : State) (n st : Nat) : State.ringStop n st s = (State.finish n st 0 0 (s.inHand n)).wr (HRV_RINGn_STAT_bad n) 0 := rfl

/-- Whatever becomes of the buffer in hand, only Harvest and what it signals moves. -/
theorem finish_moves (s : State) (n : Fin 16) (st cflags info : Nat) {u : State} (hu : u = State.finish n.val st cflags info s) :
    SameRegs s u (cqFlds s n.val) ∧ ∃ F H M Q, u = { s with fields := F, hrv := H, msix := M, msxPba := Q } := by
  cases hq : (s.ring n.val).q with
  | nil =>
    rw [hu, finish_none hq]
    exact ⟨SameRegs.refl s _, _, _, _, _, rfl⟩
  | cons d q =>
    rw [finish_eq hq] at hu
    split at hu
    · rw [hu]
      exact ⟨fun _ _ => State.rd_mk .., _, _, s.msix, s.msxPba, rfl⟩
    · obtain ⟨-, -, -, -, h5, h6⟩ := cqWrite_shows hq hu
      exact ⟨h5, h6⟩

/-- The registers that serving ring `n` leaves, apart from those listed. -/
theorem ringFrame_of {s u : State} {n : Nat} {l : List Fld} (hr : SameRegs s u (l ++ cqFlds s n))
    (hm : ∃ F H T M Q r, u = { s with fields := F, hrv := H, tmb := T, msix := M, msxPba := Q, free := r }) : RingFrame s u n l := by
  refine ⟨fun f hf => hr f fun k => hf ?_, ?_⟩
  · simp only [cqFlds, List.map_append, List.map_cons, List.map_nil, List.mem_append, List.mem_cons, List.not_mem_nil, or_false] at k ⊢
    rcases k with k | k | k | k
    · exact .inl k
    · exact .inr (.inr (.inr (.inr (.inl k))))
    · exact .inr (.inr (.inr (.inr (.inr (.inl k)))))
    · exact .inr (.inr (.inr (.inr (.inr (.inr (.inl k))))))
  · obtain ⟨F, H, T, M, Q, r, e⟩ := hm
    rw [e]
    exact sameRest_mk_hrv s _ _ _

theorem fetchKeys : ∀ n : Fin 16, HRV_EVT_host_err.key ≠ (HRV_RINGn_HEAD_idx n.val).key ∧ (HRV_RINGn_STAT_host_err n.val).key ≠ (HRV_RINGn_HEAD_idx n.val).key
    ∧ (HRV_RINGn_CFG_en n.val).key ≠ (HRV_RINGn_HEAD_idx n.val).key ∧ (HRV_RINGn_STAT_bad n.val).key ≠ (HRV_RINGn_HEAD_idx n.val).key
    ∧ (HRV_RINGn_STAT_host_err n.val).key ≠ (HRV_RINGn_CFG_en n.val).key ∧ HRV_EVT_host_err.key ≠ (HRV_RINGn_CFG_en n.val).key
    ∧ HRV_EVT_host_err.key ≠ (HRV_RINGn_STAT_host_err n.val).key ∧ HRV_EVT_bad_desc.key ≠ (HRV_RINGn_HEAD_idx n.val).key := by decide

/-- An event bit that is set stays set. -/
theorem rd_orF_one (s : State) {f : Fld} (hw : f.w = 1) : (s.orF f 1).rd f % 2 = 1 := by
  have h : (s.orF f 1).rd f = 1 := rd_orF_bit s f true hw rfl
  rw [h]

/-- A fetch that fails: the buffer in hand completes HOST_ERR, and the ring is off. -/
theorem fetchError_shows {s u : State} {n : Fin 16} {t : Nat} (hr : s.ringRuns n.val = true) (he : s.ringEmpty n.val = false)
    (hu : u = State.fetchError n.val t s) :
    u.rd (HRV_RINGn_CFG_en n.val) = 0 ∧ u.rd (HRV_RINGn_STAT_host_err n.val) = 1 ∧ u.rd HRV_EVT_host_err % 2 = 1 ∧ TimeAt s u t
      ∧ (∀ d r, (s.ring n.val).q = d :: r → s.cqFull (s.rd (HRV_RINGn_CFG_cq n.val)) = false → Completed s u n.val 5 [])
      ∧ RingFrame s u n.val [HRV_RINGn_CFG_en n.val, HRV_RINGn_STAT_bad n.val, HRV_RINGn_STAT_host_err n.val, HRV_EVT_host_err] := by
  obtain ⟨b, hb, hk⟩ := s.advance_moves t
  have hregs : ∀ f, (s.advance t).rd f = s.rd f := State.rd_advance s t
  obtain ⟨k1, k2, k3, k4, k5, k6, k7, -⟩ := fetchKeys n
  have hempty : (s.advance t).ringEmpty n.val = false := by
    rw [← he, State.ringEmpty, State.ringEmpty, State.ringSize, State.ringSize, hregs, hregs, hregs]
  rw [fetchError_eq rfl ((ringRuns_advance s t n.val).trans hr) hempty, ringStop_eq] at hu
  obtain ⟨hrun, -⟩ := hrvRuns_of_ringRuns ((ringRuns_advance s t n.val).trans hr)
  have hin : ∀ f, ((s.advance t).inHand n.val).rd f = s.rd f := hregs
  have hin2 : (((s.advance t).inHand n.val).ring n.val).q = (s.ring n.val).q.take 1 := by
    rw [State.inHand, State.ring_setRing_same, ring_advance]
  have hin3 : ∃ H, (s.advance t).inHand n.val = { s with hrv := H, tmb := b } := by
    rw [hb]
    exact ⟨_, rfl⟩
  have hin4 : ((s.advance t).inHand n.val).hrv.out = s.hrv.out := by
    rw [hb]
    rfl
  have hwait : ((s.advance t).inHand n.val).waits n.val = s.cqFull (s.rd (HRV_RINGn_CFG_cq n.val)) := by
    show (((s.advance t).inHand n.val).cqFull (((s.advance t).inHand n.val).rd (HRV_RINGn_CFG_cq n.val)) || !(s.advance t).hrvRuns) = _
    rw [hrun, hin, State.cqFull, State.cqFull, State.on, State.on, State.cqSize, State.cqSize, hin, hin, hin, hin]
    exact Bool.or_false _
  generalize (s.advance t).inHand n.val = v at *
  obtain ⟨hm1, F, H, M, Q, hm2⟩ := finish_moves v n 5 0 0 rfl
  have hfl : cqFlds v n.val = cqFlds s n.val := by simp only [cqFlds, hin]
  have hcomp : ∀ d r, (s.ring n.val).q = d :: r → s.cqFull (s.rd (HRV_RINGn_CFG_cq n.val)) = false →
      Completed s (State.finish n.val 5 0 0 v) n.val 5 [] := fun d r hq hf => by
    have hq' : (v.ring n.val).q = d :: [] := by rw [hin2, hq]; rfl
    have hfin := finish_eq hq' 5 0 0
    rw [if_neg (by rw [hwait, hf]; decide)] at hfin
    exact completed_of_write hq' hin hin4 hfin
  generalize State.finish n.val 5 0 0 v = w at *
  refine ⟨?_, ?_, ?_, ?_, fun d r hq hf => ?_, ?_⟩
  · rw [hu, rd_orF_ne _ _ _ _ k6, State.rd_wr_ne _ _ _ _ k5]
    exact (State.rd_wr_same _ _ _).trans rfl
  · rw [hu, rd_orF_ne _ _ _ _ k7]
    exact (State.rd_wr_same _ _ _).trans rfl
  · rw [hu]
    exact rd_orF_one _ rfl
  · obtain ⟨H', hv⟩ := hin3
    rw [TimeAt, hu, hm2, hv]
    exact hk
  · rw [hu]
    exact completed_wr _ k1 (completed_wr _ k2 (completed_wr _ k3 (completed_wr _ k4 (hcomp d r hq hf))))
  · refine ringFrame_of (fun f hf => ?_) ?_
    · simp only [List.map_append, List.map_cons, List.map_nil, List.mem_append, List.mem_cons, List.not_mem_nil, or_false, not_or] at hf
      obtain ⟨⟨f1, f2, f3, f4⟩, f5⟩ := hf
      rw [hu, rd_orF_ne _ _ _ _ (Ne.symm f4), State.rd_wr_ne _ _ _ _ (Ne.symm f3), State.rd_wr_ne _ _ _ _ (Ne.symm f1), State.rd_wr_ne _ _ _ _ (Ne.symm f2),
        hm1 f (by rw [hfl]; exact f5), hin]
    · obtain ⟨H', hv⟩ := hin3
      rw [hu, hm2, hv]
      exact ⟨_, H, b, M, Q, s.free, rfl⟩

end Sys2Proof.Machine

namespace Sys2Proof
open Machine

/-- Settles O41: the tail of a ring, a descriptor that arrives, and a fetch that fails. -/
theorem descriptors : Obligations.Descriptors := by
  unfold Obligations.Descriptors
  intro s n t
  refine ⟨fun p v h => ?_, fun b hp hr hl hi hq => ?_, fun hp hr he => ?_⟩
  · exact .of_performAt (exec_descriptorTailWrite p n v t s) h.1 (tailWrite_shows h rfl)
  · obtain ⟨bt, hb, hk⟩ := s.advance_moves t
    have hregs : ∀ f, (s.advance t).rd f = s.rd f := State.rd_advance s t
    have hring : ∀ k, (s.advance t).ring k = s.ring k := ring_advance s t
    have hidx : (s.advance t).fetchIdx n.val = (s.rd (HRV_RINGn_HEAD_idx n.val) + (s.ring n.val).q.length) % s.ringSize n.val := by
      rw [State.fetchIdx, State.ringSize, State.ringSize, hregs, hregs, hring]
    have hsize : (s.advance t).ringSize n.val = s.ringSize n.val := by rw [State.ringSize, State.ringSize, hregs]
    have hsrc : (s.advance t).ringSrc n.val = s.ringSrc n.val := by
      rw [hb]
      rfl
    have hbad : (s.advance t).descBad (decide ((s.advance t).ringSrc n.val = 0)) b = s.descBad (decide (s.ringSrc n.val = 0)) b := by
      rw [hsrc, State.descBad, State.descBad, State.deepSize_advance]
    have haddr : (s.advance t).descAddr n.val ((s.advance t).fetchIdx n.val)
        = s.descAddr n.val ((s.rd (HRV_RINGn_HEAD_idx n.val) + (s.ring n.val).q.length) % s.ringSize n.val) := by
      rw [hidx, State.descAddr, State.descAddr, hregs, hregs]
    have hrun := (ringRuns_advance s t n.val).trans hr
    have hfetch := descFetch_eq rfl hrun (by rw [hring]; exact hl) (by rw [hidx, hregs, hsize]; exact hi) b
    have hqa : ∀ d ∈ ((s.advance t).ring n.val).q, d.bad = false := by rw [hring]; exact hq
    have hf : ((s.advance t).descOf n.val ((s.advance t).fetchIdx n.val) b).bad = s.descBad (decide (s.ringSrc n.val = 0)) b := hbad
    dsimp only
    constructor
    · intro hgood
      refine .of_performOnAt (exec_descriptorFetch n b t s) hp ?_
      rw [hfetch, badFront_queued hqa (by rw [hf, hring]; exact hgood)]
      refine ⟨⟨_, ?_, rfl, rfl, rfl, rfl, hf, haddr⟩, fun k hne => ?_, TimeAt.advance s t, SameRegs.advance s t _, ?_⟩
      · rw [queued_ring, hring]
      · rw [State.queued, State.ring_setRing_ne _ _ hne, hring]
      · rw [hb]
        exact sameRest_mk_hrv s _ _ _
    · intro hbd hnil hfull
      refine .of_performOnAt (exec_descriptorFetch n b t s) hp ?_
      have hqn : ((s.advance t).ring n.val).q = [] := by rw [hring, hnil]
      have hfull' : (s.advance t).cqFull ((s.advance t).rd (HRV_RINGn_CFG_cq n.val)) = false := by
        rw [← hfull, hregs, State.cqFull, State.cqFull, State.on, State.on, State.cqSize, State.cqSize, hregs, hregs, hregs, hregs]
      obtain ⟨c, hc, he⟩ := badFront_bad hqn hrun hfull' (hf.trans hbd)
      rw [hfetch, he]
      generalize (s.advance t).descOf n.val ((s.advance t).fetchIdx n.val) b = d
      have hq1 : (((s.advance t).queued n.val d).ring n.val).q = d :: [] := by rw [queued_ring, hqn]; rfl
      have hcomp := completed_of_write (s := s) (c := c) hq1 hregs (by rw [hb]; rfl) rfl
      obtain ⟨-, -, -, -, h5, F, H, M, Q, h6⟩ := cqWrite_shows (c := c) hq1 rfl
      have hv : ∃ H', (s.advance t).queued n.val d = { s with hrv := H', tmb := bt } := by
        rw [hb]
        exact ⟨_, rfl⟩
      have hfl : cqFlds ((s.advance t).queued n.val d) n.val = cqFlds s n.val := by
        simp only [cqFlds, show ∀ f, ((s.advance t).queued n.val d).rd f = s.rd f from hregs]
      have hv5 : ∀ f, ((s.advance t).queued n.val d).rd f = s.rd f := hregs
      generalize State.cqWrite n.val c ((s.advance t).queued n.val d) = w at *
      obtain ⟨H', hv⟩ := hv
      refine ⟨?_, rd_orF_one _ rfl, ?_, ringFrame_of (fun f hf' => ?_) ?_⟩
      · rw [← hc]
        exact completed_wr _ (fetchKeys n).2.2.2.2.2.2.2 hcomp
      · rw [TimeAt, h6, hv]
        exact hk
      · simp only [List.map_append, List.map_cons, List.map_nil, List.mem_append, List.mem_cons, List.not_mem_nil, or_false, not_or] at hf'
        rw [rd_orF_ne _ _ _ _ (Ne.symm hf'.1), h5 f (by rw [hfl]; exact hf'.2), hv5]
      · rw [h6, hv]
        exact ⟨_, H, bt, M, Q, s.free, rfl⟩
  · exact .of_performOnAt (exec_descriptorFetchError n t s) hp (fetchError_shows hr he rfl)

end Sys2Proof
end

