-- ==== Sys2Proof/Proofs/Arming.lean ====
section
/-! SUPPORT. An arm: what its checks, its reset of the counters and the start of a capture leave, and what an arm shows. -/

namespace Sys2Proof.Machine

/-- The registers that say how an arm has ended, and those of the probe check at arm. -/
def armFlds : List Fld :=
  [ACQ_STAT_state, ACQ_ERR_valid, ACQ_EVT_armed, ACQ_EVT_refused, INP_PCHK_CTL_at_arm, INP_PCHK_CTL_busy]

/-- Whether a key is one of theirs. -/
def armKey (k : Nat) : Bool := (armFlds.map Fld.key).contains k

/-- Housekeeping's hidden state and those registers. -/
structure ArmView where
  hks : Hks
  regs : List (Nat × Nat)

def State.armView (s : State) : ArmView := ⟨s.hks, s.fields.filter fun p => armKey p.1⟩

@[simp] theorem State.armView_mk (s : State) (b c h fr g i t d ta cl tr ac hd re si ti dm ra hr st gr pw bb jt near deep scr nv po dp ce mt mp mi ir pe) :
    State.armView (State.mk b s.fields c h fr g i t d ta cl tr ac hd re si ti dm ra hr st gr s.hks pw bb jt near deep scr nv po dp ce mt mp mi ir pe) = s.armView :=
  rfl

@[simp] theorem State.armView_mk_wr (s : State) (f : Fld) (v : Nat) (b c h fr g i t d ta cl tr ac hd re si ti dm ra hr st gr pw bb jt near deep scr nv po dp ce
    mt mp mi ir pe) : State.armView (State.mk b (s.wr f v).fields c h fr g i t d ta cl tr ac hd re si ti dm ra hr st gr s.hks pw bb jt near deep scr nv po dp ce
      mt mp mi ir pe) = (s.wr f v).armView := rfl

theorem hks_of_armView {s u : State} (h : u.armView = s.armView) : u.hks = s.hks := congrArg ArmView.hks h

theorem rd_of_armView {s u : State} (h : u.armView = s.armView) {f : Fld} (hf : f ∈ armFlds) : u.rd f = s.rd f := by
  have hk : armKey f.key = true := List.contains_iff_mem.2 (List.mem_map_of_mem hf)
  unfold State.rd
  rw [← look_filter armKey u.fields hk, ← look_filter armKey s.fields hk]
  exact congrArg (fun a => (look a.regs f.key).getD f.rst) h

@[simp] theorem State.wr_armView (s : State) {f : Fld} (v : Nat) (h : armKey f.key = false) : (s.wr f v).armView = s.armView := by
  have hr : (s.wr f v).fields.filter (fun p => armKey p.1) = s.fields.filter fun p => armKey p.1 := by
    unfold State.wr
    split
    · exact filter_del armKey _ h
    · exact filter_ins armKey _ _ h
  show ArmView.mk s.hks ((s.wr f v).fields.filter fun p => armKey p.1) = s.armView
  rw [hr]
  rfl

@[simp] theorem State.wrS_armView (s : State) {f : Fld} (v : Int) (h : armKey f.key = false) : (s.wrS f v).armView = s.armView := State.wr_armView s _ h

@[simp] theorem foldl_armView {α : Type} (g : State → α → State) (l : List α) (s : State) (h : ∀ u a, (g u a).armView = u.armView) :
    (l.foldl g s).armView = s.armView := foldl_view State.armView g l s h

/-- They lie in two blocks. -/
theorem armKey_apart {k : Nat} (h : k < 0x184180 ∨ 0x1841a0 ≤ k ∧ k < 0x300020 ∨ 0x300520 ≤ k) : armKey k = false := by
  refine Bool.eq_false_iff.2 fun hc => ?_
  obtain ⟨f, hf, he⟩ := List.mem_map.1 (List.contains_iff_mem.1 hc)
  have hin : ∀ f ∈ armFlds, 0x184180 ≤ f.key ∧ f.key < 0x300520 ∧ (f.key < 0x1841a0 ∨ 0x300020 ≤ f.key) := by decide
  have := hin f hf
  omega

/-- They have few places in the words of an array of 32 bytes. -/
theorem armKey_mod {k : Nat} (h : 1 < k % 256 ∧ k % 256 ≠ 0x20 ∧ k % 256 ≠ 0x5f ∧ k % 256 ≠ 0x81 ∧ k % 256 ≠ 0x82) : armKey k = false := by
  refine Bool.eq_false_iff.2 fun hc => ?_
  obtain ⟨f, hf, he⟩ := List.mem_map.1 (List.contains_iff_mem.1 hc)
  have hin : ∀ f ∈ armFlds, f.key % 256 ≤ 1 ∨ f.key % 256 = 0x20 ∨ f.key % 256 = 0x5f ∨ f.key % 256 = 0x81 ∨ f.key % 256 = 0x82 := by decide
  have := hin f hf
  omega

/-- What storing a capture or opening a segment leaves leaves them. -/
theorem armView_of_unopen {s u : State} (h : u.apart.unopen = s.apart.unopen) : u.armView = s.armView := by
  have hk : ∀ k, armKey k = true → captureKey k = false ∧ openKey k = false := fun k hk => by
    obtain ⟨f, hf, rfl⟩ := List.mem_map.1 (List.contains_iff_mem.1 hk)
    exact (show ∀ f ∈ armFlds, captureKey f.key = false ∧ openKey f.key = false by decide) f hf
  have hf : ∀ l : List (Nat × Nat), l.filter (fun p => armKey p.1) = (openless (apartRegs l)).filter fun p => armKey p.1 := fun l => by
    simp only [apartRegs, openless, List.filter_filter]
    refine List.filter_congr fun p _ => ?_
    cases hp : armKey p.1 with
    | true =>
      obtain ⟨h1, h2⟩ := hk p.1 hp
      simp [h1, h2]
    | false => simp
  have hh : u.hks = s.hks := congrArg Apart.hks h
  rw [State.armView, State.armView, hf u.fields, hf s.fields, hh]
  exact congrArg (fun l => ArmView.mk s.hks (l.filter fun p => armKey p.1)) (congrArg Apart.regs h :)

theorem armView_of_apart {s u : State} (h : u.apart = s.apart) : u.armView = s.armView := armView_of_unopen (congrArg Apart.unopen h)

/-! ### The start of a capture -/

@[simp] theorem State.dskCompute_armView (s : State) (c : Nat) : (s.dskCompute c).armView = s.armView := by
  have h1 : armKey (DSK_COEF_d c).key = false := armKey_mod (by simp only [Fld.key, DSK_COEF_d]; omega)
  have h2 : armKey (DSK_COEF_clamped c).key = false := armKey_mod (by simp only [Fld.key, DSK_COEF_clamped]; omega)
  simp [State.dskCompute, h1, h2]

@[simp] theorem State.dskTake_armView (s : State) (p : Pend) : (s.dskTake p).armView = s.armView := by
  have h1 : armKey (DSK_CAL_d p.ch).key = false := armKey_mod (by simp only [Fld.key, DSK_CAL_d]; omega)
  have h2 : armKey (DSK_GCNT_result p.ch).key = false := armKey_mod (by simp only [Fld.key, DSK_GCNT_result]; omega)
  simp only [State.dskTake]
  (repeat' split) <;> simp [h1, h2]

@[simp] theorem State.dskApply_armView (s : State) : s.dskApply.1.armView = s.armView := by simp [State.dskApply]

@[simp] theorem State.bbox_armView (s : State) (c x d : Nat) : (s.bbox c x d).armView = s.armView := armView_of_apart (State.bbox_apart s c x d)

@[simp] theorem State.laneTake_armView (s : State) (l : Lane) : (s.laneTake l).armView = s.armView := by
  have h1 : armKey (PWR_LANEg_used (l.ch / 64)).key = false := armKey_apart (by simp only [Fld.key, PWR_LANEg_used]; omega)
  have h2 : armKey (PWR_LANEg_spares (l.ch / 64)).key = false := armKey_apart (by simp only [Fld.key, PWR_LANEg_spares]; omega)
  have h3 : armKey (PWR_LANEg_cal (l.ch / 64)).key = false := armKey_apart (by simp only [Fld.key, PWR_LANEg_cal]; omega)
  simp [State.laneTake, State.putLanes, State.laneRegs, h1, h2, h3]

@[simp] theorem State.laneSwap_armView (s : State) : s.laneSwap.1.armView = s.armView := by simp [State.laneSwap]

@[simp] theorem State.retime_armView (s : State) : s.retime.armView = s.armView := by
  unfold State.retime State.regrid
  split <;> rfl

@[simp] theorem State.timStart_armView (s : State) (t : Nat) : (s.timStart t).armView = s.armView := by
  unfold State.timStart
  split
  · rfl
  · simp (disch := decide)

@[simp] theorem State.sivSeq_armView (s : State) (p : Nat) : (s.sivSeq p).armView = s.armView := by
  unfold State.sivSeq State.setSiv
  split
  · rfl
  · simp (disch := decide)

@[simp] theorem State.trlStart_armView (s : State) (k : Nat) : (s.trlStart k).armView = s.armView := by
  have h : ∀ n, armKey (TRL_CTn_VAL n).key = false := fun n => armKey_mod (by simp only [Fld.key, TRL_CTn_VAL]; omega)
  have hs : ∀ u : State, ((u.wr TRL_STAT_level (s.rd TRL_CFG_start_level)).wr TRL_STAT_qual (b2n (s.on TRL_CFG_qual_reset))).armView = u.armView :=
    fun u => by simp (disch := decide)
  have hf : ((List.range 16).foldl (fun s n => s.wr (TRL_CTn_VAL n) 0) s).armView = s.armView := foldl_armView _ _ s fun u n => State.wr_armView u 0 (h n)
  unfold State.trlStart
  dsimp only
  generalize (List.range 16).foldl (fun s n => s.wr (TRL_CTn_VAL n) 0) s = w at *
  exact (hs w).trans hf

@[simp] theorem State.takeDelays_armView (s : State) : s.takeDelays.armView = s.armView := armView_of_apart (State.takeDelays_apart s)
@[simp] theorem State.openSeg_armView (s : State) (g : Seg) (n : Nat) (l : List Nat) : (s.openSeg g n l).armView = s.armView :=
  armView_of_unopen (State.openSeg_unopen s g n l)
@[simp] theorem State.redStart_armView (s : State) (p : Nat) : (s.redStart p).armView = s.armView := armView_of_apart (State.redStart_apart s p)

/-- The start of a capture: acquisition is in PREFILL, all else of the view as it was. -/
theorem startCapture_armView (s : State) (t : Nat) : ∃ v : State, v.armView = s.armView ∧ (s.startCapture t).armView = (v.wr ACQ_STAT_state 2).armView := by
  unfold State.startCapture
  dsimp only
  generalize hw : State.trlStart _ 0 = w
  have hws : w.armView = s.armView := by
    rw [← hw]
    simp
  split
  · exact ⟨_, by simp [hws], rfl⟩
  · have h : ∀ u : State, ((u.sivSeq 0).timStart t).armView = u.armView := fun u => by simp
    have hr : ∀ u : State, u.ringStart.armView = u.armView := fun u => rfl
    split
    · exact ⟨_, by rw [h, State.openSeg_armView, hws], hr _⟩
    · exact ⟨_, by rw [h, State.redStart_armView, State.openSeg_armView, hws], hr _⟩

/-! ### The checks and the reset of the counters -/

/-- The checks of an arm write registers, none of those of its outcome. -/
theorem armReport_shows (s : State) : (∃ F, s.armReport = { s with fields := F }) ∧ s.armReport.armView = s.armView := by
  have ht : (∃ F, s.trlCheck = { s with fields := F }) ∧ s.trlCheck.armView = s.armView := by
    obtain ⟨-, -, F, e⟩ := trlCheck_shows s
    refine ⟨⟨F, e⟩, ?_⟩
    show ((((((s.wr TRL_CHK_valid 1).wr TRL_CHK_code _).wr TRL_CHK_level _).wr TRL_CHK_item _).orF TRL_EVT_chk_done 1)).armView = s.armView
    simp (disch := decide) [State.orF]
  have hh : ∀ u : State, (∃ F, u.hdgCheck = { u with fields := F }) ∧ u.hdgCheck.armView = u.armView := fun u => by
    obtain ⟨-, -, F, e⟩ := hdgCheck_shows u
    refine ⟨⟨F, e⟩, ?_⟩
    show (((((u.wr HDG_CHK_valid 1).wr HDG_CHK_code _).wr HDG_CHK_rule _).orF HDG_EVT_chk_done 1)).armView = u.armView
    simp (disch := decide) [State.orF]
  have h1 : (∃ F, (if s.on HDG_CTL_en then s.trlCheck.hdgCheck else s.trlCheck) = { s with fields := F })
      ∧ (if s.on HDG_CTL_en then s.trlCheck.hdgCheck else s.trlCheck).armView = s.armView := by
    obtain ⟨⟨F, e⟩, hv⟩ := ht
    split
    · obtain ⟨⟨F', e'⟩, hv'⟩ := hh s.trlCheck
      exact ⟨⟨F', by rw [e', e]⟩, hv'.trans hv⟩
    · exact ⟨⟨F, e⟩, hv⟩
  have hw : ∀ (l : List Nat) (g : Nat → Nat) (u : State), (∃ F, l.foldl (fun a n => a.wr (RED_RUn_WORST_rate n) (g n)) u = { u with fields := F })
      ∧ (l.foldl (fun a n => a.wr (RED_RUn_WORST_rate n) (g n)) u).armView = u.armView := fun l g => by
    induction l with
    | nil => exact fun u => ⟨⟨_, rfl⟩, rfl⟩
    | cons n l ih =>
      intro u
      obtain ⟨⟨F, e⟩, hv⟩ := ih (u.wr (RED_RUn_WORST_rate n) (g n))
      have hk : armKey (RED_RUn_WORST_rate n).key = false := armKey_apart (by simp only [Fld.key, RED_RUn_WORST_rate]; omega)
      exact ⟨⟨F, by rw [List.foldl_cons, e]; rfl⟩, hv.trans (State.wr_armView u _ hk)⟩
  unfold State.armReport
  dsimp only
  generalize (if s.on HDG_CTL_en then s.trlCheck.hdgCheck else s.trlCheck) = v at *
  obtain ⟨⟨F, e⟩, hv⟩ := h1
  obtain ⟨⟨F', e'⟩, hv'⟩ := hw (List.range 8) s.redTerm
    ((((v.wr ACQ_BUDGET_near (min 65535 s.nearDemand)).wr ACQ_BUDGET_deep (min 65535 s.deepDemand)).wr ACQ_SEG_CAP s.segCap).wr SIV_RATE_rate s.sivV)
  refine ⟨⟨F', by rw [e', e]; rfl⟩, hv'.trans (Eq.trans ?_ hv)⟩
  simp (disch := decide)

@[simp] theorem State.redArm_armView (s : State) : s.redArm.armView = s.armView := by
  have h1 : ∀ (u : State) (n v : Nat), (u.wr (RED_RUn_WPTR_ptr n) v).armView = u.armView := fun u n v =>
    State.wr_armView u v (armKey_apart (by simp only [Fld.key, RED_RUn_WPTR_ptr]; omega))
  have h2 : ∀ (u : State) (n v : Nat), (u.wr (RED_RUn_LOST n) v).armView = u.armView := fun u n v =>
    State.wr_armView u v (armKey_apart (by simp only [Fld.key, RED_RUn_LOST]; omega))
  have h : ∀ (u : State) (n : Nat), (u.redArm1 n).armView = u.armView := fun u n => by
    simp (disch := decide) [State.redArm1, State.clrF, State.setRu, h1, h2]
  exact foldl_armView _ _ s h

@[simp] theorem State.sivArm_armView (s : State) : s.sivArm.armView = s.armView := by
  simp (disch := decide) [State.sivArm, State.setSiv]

@[simp] theorem State.timArm_armView (s : State) : s.timArm.armView = s.armView := by
  have h1 : ∀ (l : List Nat) (u : State), (l.foldl (fun s n => s.wr (TIM_SLOTn_CNT_count n) 0) u).armView = u.armView := fun l u =>
    foldl_armView _ l u fun v n => State.wr_armView v 0 (armKey_apart (by simp only [Fld.key, TIM_SLOTn_CNT_count]; omega))
  unfold State.timArm
  dsimp only
  (repeat' split) <;> simp (disch := decide) [State.orF, h1]

@[simp] theorem State.resArm_armView (s : State) : s.resArm.armView = s.armView := rfl

@[simp] theorem State.ringsArm_armView (s : State) : s.ringsArm.armView = s.armView := by
  have h1 : ∀ n, armKey (NMC_RINGn_max n).key = false := fun n => armKey_apart (by simp only [Fld.key, NMC_RINGn_max]; omega)
  have h2 : ∀ n, armKey (NMC_RINGn_fill n).key = false := fun n => armKey_apart (by simp only [Fld.key, NMC_RINGn_fill]; omega)
  simp [State.ringsArm, h1, h2]

/-- The counters that an arm starts again, but for those of the units. -/
def State.countsReset (s : State) : State :=
  (List.range 64).foldl (fun s n => s.wr (HDG_MKn_CNT_value n) 0)
    ([ACQ_TRIG_CNT_count, ACQ_EARLY_CNT_count, ACQ_BLIND_CNT_count, ACQ_EXTRA_CNT_count, ACQ_SEG_DONE_count,
      ACQ_OVERWR_count, ACQ_GAP_CNT_count, ACQ_LOST, ACQ_TRIG_HI_valid, HDG_VIOL_CNT_value, HDG_LAST_HI_valid,
      TRL_TRIG_CNT_count, TRL_LAST_HI_valid].foldl (fun s f => s.wr f 0) s)

theorem armClear_eq (s : State) : s.armClear = { s.countsReset.redArm.sivArm.timArm.resArm.ringsArm with hdg := Hdg.new } := rfl

@[simp] theorem State.armClear_armView (s : State) : s.armClear.armView = s.armView := by
  have h1 : ∀ n, armKey (HDG_MKn_CNT_value n).key = false := fun n => armKey_apart (by simp only [Fld.key, HDG_MKn_CNT_value]; omega)
  have h : s.countsReset.armView = s.armView := by
    unfold State.countsReset
    rw [foldl_armView _ _ _ fun u n => State.wr_armView u 0 (h1 n)]
    simp (disch := decide)
  rw [armClear_eq, State.armView_mk, State.ringsArm_armView, State.resArm_armView, State.timArm_armView, State.sivArm_armView, State.redArm_armView, h]

@[simp] theorem State.susFresh_armView (s : State) : s.susFresh.armView = s.armView := rfl

/-! ### The request -/

theorem armRequest_busy {s : State} (h : s.acqSt ≠ 0) (t : Nat) : s.armRequest t = s.orF ACQ_EVT_arm_ign 1 := by
  unfold State.armRequest
  exact if_pos (by rw [State.idle, decide_eq_false h]; rfl)

/-- An arm that a check refuses, its checks written. -/
def State.refusing (s : State) (c d : Nat) : State := (((s.wr ACQ_ERR_code c).wr ACQ_ERR_detail d).wr ACQ_ERR_valid 1).orF ACQ_EVT_refused 1

/-- The registers of an arm that a check refuses. -/
def State.refused (s : State) (c d : Nat) : State := s.armReport.refusing c d

theorem armRequest_refused {s : State} {c d : Nat} (h : s.acqSt = 0) (hf : s.armFault = some (c, d)) (t : Nat) :
    s.armRequest t = { s.refused c d with acq := { s.acq with retOk := true } } := by
  obtain ⟨⟨F, e⟩, -⟩ := armReport_shows s
  unfold State.armRequest
  rw [if_neg (by rw [State.idle, decide_eq_true h]; decide), hf]
  dsimp only
  rw [State.refused, State.refusing, e]
  rfl

theorem refusing_shows (s : State) (c d : Nat) : (∃ F, s.refusing c d = { s with fields := F }) ∧ (s.refusing c d).rd ACQ_ERR_code = c % 2 ^ 8
    ∧ (s.refusing c d).rd ACQ_ERR_detail = d % 2 ^ 8 ∧ (s.refusing c d).rd ACQ_ERR_valid = 1 ∧ (s.refusing c d).rd ACQ_EVT_refused = 1
    ∧ (s.refusing c d).acqSt = s.acqSt := by
  refine ⟨⟨_, rfl⟩, ?_, ?_, ?_, rd_orF_bit _ _ true rfl rfl, ?_⟩
  · rw [State.refusing, rd_orF_ne _ _ _ _ (by decide), State.rd_wr_ne _ _ _ _ (by decide), State.rd_wr_ne _ _ _ _ (by decide)]
    exact State.rd_wr_same _ _ _
  · rw [State.refusing, rd_orF_ne _ _ _ _ (by decide), State.rd_wr_ne _ _ _ _ (by decide)]
    exact State.rd_wr_same _ _ _
  · rw [State.refusing, rd_orF_ne _ _ _ _ (by decide)]
    exact State.rd_wr_same _ _ _
  · rw [State.acqSt, State.refusing, rd_orF_ne _ _ _ _ (by decide), State.rd_wr_ne _ _ _ _ (by decide), State.rd_wr_ne _ _ _ _ (by decide),
      State.rd_wr_ne _ _ _ _ (by decide)]
    rfl

theorem refused_shows (s : State) (c d : Nat) : (∃ F, s.refused c d = { s with fields := F }) ∧ (s.refused c d).rd ACQ_ERR_code = c % 2 ^ 8
    ∧ (s.refused c d).rd ACQ_ERR_detail = d % 2 ^ 8 ∧ (s.refused c d).rd ACQ_ERR_valid = 1 ∧ (s.refused c d).rd ACQ_EVT_refused = 1
    ∧ (s.refused c d).acqSt = s.acqSt := by
  obtain ⟨⟨F, e⟩, hv⟩ := armReport_shows s
  obtain ⟨⟨F', e'⟩, h1, h2, h3, h4, h5⟩ := refusing_shows s.armReport c d
  exact ⟨⟨F', by rw [State.refused, e', e]⟩, h1, h2, h3, h4, h5.trans (rd_of_armView hv (by decide))⟩

/-- An arm that passes, its checks written. -/
def State.passing (s : State) : State := ((s.wr ACQ_ERR_valid 0).orF ACQ_EVT_armed 1).wr ACQ_STAT_state 1

/-- The registers of an arm that passes. -/
def State.passed (s : State) : State := s.armReport.passing

theorem armRequest_passed {s : State} (h : s.acqSt = 0) (hf : s.armFault = none) (t : Nat) :
    s.armRequest t = State.trlStart { s.passed.armClear.susFresh with
      acq := s.passed.armClear.susFresh.acqFresh t, free := s.passed.armClear.susFresh.free + 1 } 0 := by
  unfold State.armRequest
  rw [if_neg (by rw [State.idle, decide_eq_true h]; decide), hf]
  rfl

theorem passing_shows (s : State) : s.passing.hks = s.hks ∧ s.passing.acqSt = 1 ∧ s.passing.rd ACQ_EVT_armed = 1 ∧ s.passing.rd ACQ_ERR_valid = 0
    ∧ s.passing.rd INP_PCHK_CTL_at_arm = s.rd INP_PCHK_CTL_at_arm := by
  refine ⟨rfl, State.rd_wr_same _ _ _, ?_, ?_, ?_⟩
  · rw [State.passing, State.rd_wr_ne _ _ _ _ (by decide)]
    exact rd_orF_bit _ _ true rfl rfl
  · rw [State.passing, State.rd_wr_ne _ _ _ _ (by decide), rd_orF_ne _ _ _ _ (by decide)]
    exact State.rd_wr_same _ _ _
  · rw [State.passing, State.rd_wr_ne _ _ _ _ (by decide), rd_orF_ne _ _ _ _ (by decide), State.rd_wr_ne _ _ _ _ (by decide)]

theorem passed_shows (s : State) : s.passed.hks = s.hks ∧ s.passed.acqSt = 1 ∧ s.passed.rd ACQ_EVT_armed = 1 ∧ s.passed.rd ACQ_ERR_valid = 0
    ∧ s.passed.rd INP_PCHK_CTL_at_arm = s.rd INP_PCHK_CTL_at_arm := by
  obtain ⟨-, hv⟩ := armReport_shows s
  obtain ⟨h1, h2, h3, h4, h5⟩ := passing_shows s.armReport
  exact ⟨h1.trans (hks_of_armView hv), h2, h3, h4, h5.trans (rd_of_armView hv (by decide))⟩

theorem armRequest_armView {s : State} (h : s.acqSt = 0) (hf : s.armFault = none) (t : Nat) : (s.armRequest t).armView = s.passed.armView := by
  rw [armRequest_passed h hf, State.trlStart_armView, State.armView_mk, State.susFresh_armView, State.armClear_armView]

/-! ### The whole arm -/

theorem armFull_eq (s : State) : s.armFull =
    if (s.idle && decide ((s.armRequest s.tmb.kt).acqSt = 1)) = true then
      (if (s.armRequest s.tmb.kt).on INP_PCHK_CTL_at_arm = true then (s.armRequest s.tmb.kt).pchkStart (s.armRequest s.tmb.kt).tmb.kt true false
        else (s.armRequest s.tmb.kt).startCapture (s.armRequest s.tmb.kt).tmb.kt)
    else s.armRequest s.tmb.kt := rfl

/-- An arm that passes, with no probe check at arm: a capture starts. -/
theorem armFull_starts {s : State} (h : s.acqSt = 0) (hf : s.armFault = none) (ha : s.rd INP_PCHK_CTL_at_arm = 0) :
    s.armFull.acqSt = 2 ∧ s.armFull.rd ACQ_EVT_armed = 1 ∧ s.armFull.rd ACQ_ERR_valid = 0 ∧ s.armFull.hks = s.hks := by
  have hv := armRequest_armView h hf s.tmb.kt
  obtain ⟨p1, p2, p3, p4, p5⟩ := passed_shows s
  rw [armFull_eq]
  generalize s.armRequest s.tmb.kt = r at *
  have hst : r.acqSt = 1 := (rd_of_armView hv (by decide)).trans p2
  have hat : r.on INP_PCHK_CTL_at_arm = false := by
    rw [State.on, rd_of_armView hv (by decide), p5, ha]
    rfl
  rw [hst, hat, State.idle, decide_eq_true h, if_pos (by decide), if_neg (by decide)]
  obtain ⟨v, hv1, hv2⟩ := startCapture_armView r r.tmb.kt
  have hvp : v.armView = s.passed.armView := hv1.trans hv
  generalize r.startCapture r.tmb.kt = u at *
  refine ⟨(rd_of_armView hv2 (by decide)).trans (State.rd_wr_same _ _ _), ?_, ?_, ?_⟩
  · rw [rd_of_armView hv2 (by decide), State.rd_wr_ne _ _ _ _ (by decide), rd_of_armView hvp (by decide), p3]
  · rw [rd_of_armView hv2 (by decide), State.rd_wr_ne _ _ _ _ (by decide), rd_of_armView hvp (by decide), p4]
  · exact (hks_of_armView hv2).trans ((hks_of_armView hvp).trans p1)

theorem armFull_refused {s : State} {c d : Nat} (h : s.acqSt = 0) (hf : s.armFault = some (c, d)) :
    s.armFull = { s.refused c d with acq := { s.acq with retOk := true } } := by
  have he := armRequest_refused h hf s.tmb.kt
  obtain ⟨-, -, -, -, -, hst⟩ := refused_shows s c d
  rw [armFull_eq, he]
  generalize s.refused c d = r at *
  refine if_neg ?_
  rw [show ({ r with acq := { s.acq with retOk := true } } : State).acqSt = r.acqSt from rfl, hst, h]
  simp

theorem armSelf_eq (s : State) : s.armSelf =
    if (s.idle && s.armFull.idle) = true then s.armFull.bbox 0x07 0 (s.armFull.storedWord ACQ_ERR_code.addr) else s.armFull := rfl

/-- An arm that the Kameth writes itself. -/
theorem armSelf_starts {s : State} (h : s.acqSt = 0) (hf : s.armFault = none) (ha : s.rd INP_PCHK_CTL_at_arm = 0) : s.armSelf = s.armFull := by
  have hst := (armFull_starts h hf ha).1
  rw [armSelf_eq]
  generalize s.armFull = u at *
  refine if_neg ?_
  rw [State.idle, State.idle, hst]
  simp

theorem armSelf_refused {s : State} {c d : Nat} (h : s.acqSt = 0) (hf : s.armFault = some (c, d)) :
    s.armSelf.acqSt = 0 ∧ s.armSelf.rd ACQ_ERR_code = c % 2 ^ 8 ∧ s.armSelf.rd ACQ_EVT_refused = 1 ∧ s.armSelf.hks = s.hks := by
  obtain ⟨⟨F, e⟩, r1, -, -, r4, r5⟩ := refused_shows s c d
  have hfull := armFull_refused h hf
  rw [armSelf_eq]
  generalize s.armFull = u at *
  generalize s.refused c d = r at *
  have hu : u.acqSt = 0 ∧ u.rd ACQ_ERR_code = c % 2 ^ 8 ∧ u.rd ACQ_EVT_refused = 1 ∧ u.hks = s.hks := by
    rw [hfull]
    exact ⟨r5.trans h, r1, r4, by rw [e]⟩
  obtain ⟨f1, f2, f3, f4⟩ := hu
  split
  · exact ⟨(State.rd_bbox _ _ _ _ (by decide)).trans f1, (State.rd_bbox _ _ _ _ (by decide)).trans f2, (State.rd_bbox _ _ _ _ (by decide)).trans f3,
      (hks_of_armView (State.bbox_armView _ _ _ _)).trans f4⟩
  · exact ⟨f1, f2, f3, f4⟩

end Sys2Proof.Machine
end

