-- ==== Sys2Proof/Proofs/SequencerStarts.lean ====
section
/-! PROOFS. What starts a script, the feed of the watchdog, and arming by itself (O52). -/

namespace Sys2Proof.Machine

/-! ### A pending event -/

theorem seqFree_advance (s : State) (t : Nat) : (s.advance t).seqFree = s.seqFree := by
  obtain ⟨b, hb, -⟩ := s.advance_moves t
  rw [hb]
  rfl

/-- A bit taken out of a field of seven. -/
theorem bit_cleared7 {i : Nat} (hi : i < 7) (v : Nat) : bit ((v &&& (2 ^ i ^^^ (2 ^ 7 - 1))) % 2 ^ 7) i = false := by
  rw [bit_mod_two_pow, bit_eq_testBit, Nat.testBit_and, Nat.testBit_xor, Nat.testBit_two_pow_self, Nat.testBit_two_pow_sub_one, decide_eq_true hi]
  simp

theorem nextEvent_lt {s : State} {i : Nat} (h : s.nextEvent = some i) : i < 7 := by
  have := List.mem_of_find?_eq_some h
  exact List.mem_range.1 this

/-- The event that is next, its pending bit cleared. -/
def State.eventTaken (s : State) (i : Nat) : State := s.clrF HKS_STAT_pending (2 ^ i)

theorem eventTaken_shows (s : State) {i : Nat} (hi : i < 7) : bit ((s.eventTaken i).rd HKS_STAT_pending) i = false
    ∧ SameRegs s (s.eventTaken i) [HKS_STAT_pending] ∧ ∃ F, s.eventTaken i = { s with fields := F } := by
  refine ⟨?_, (SameRegs.refl s _).wr _ _ (by simp), ⟨_, rfl⟩⟩
  rw [State.eventTaken, State.clrF, State.rd_wr_same]
  exact bit_cleared7 hi _

theorem eventStart_eq {s a : State} {t i : Nat} (ha : s.advance t = a) (hf : a.seqFree = true) (hc : a.coreRun = true) (hi : a.nextEvent = some i) :
    State.eventStart t s = if (a.eventTaken i).on (HKS_EVSCRe_bound (i + 1)) = true then
      State.startScratch (i + 1) ((a.eventTaken i).rd (HKS_EVSCRe_ofs (i + 1))) ((a.eventTaken i).bump (HKS_EVSCRe_runs (i + 1))) else a.eventTaken i := by
  unfold State.eventStart
  rw [ha]
  dsimp only
  rw [hf, hc, if_neg (by decide), hi]
  rfl

theorem eventStart_gated {s : State} (h : s.coreRun = false) (t : Nat) : State.eventStart t s = s.advance t := by
  unfold State.eventStart
  dsimp only
  rw [State.coreRun_advance, h]
  exact if_pos (by simp)

/-- A script of the scratchpad that starts. -/
theorem startScratch_shows (s : State) (kind ofs : Nat) {u : State} (hu : u = State.startScratch kind ofs s) :
    u.hks.script = some ⟨kind, ofs, 0, (0xFF00 - ofs) / 4, none, none⟩ ∧ u.rd HKS_STAT_running = 1
      ∧ SameRegs s u [HKS_STAT_running, HKS_STAT_script] ∧ ∃ F, u = { s with fields := F, hks := { s.hks with script := u.hks.script } } := by
  refine ⟨by rw [hu]; rfl, ?_, ?_, ?_⟩
  · rw [hu, State.startScratch, State.setScript, State.rd_wr_ne _ _ _ _ (by decide)]
    exact State.rd_wr_same _ _ _
  · rw [hu, State.startScratch, State.setScript]
    exact SameRegs.wr (SameRegs.wr (fun _ _ => State.rd_mk ..) _ _ (by simp)) _ _ (by simp)
  · rw [hu]
    exact ⟨_, rfl⟩

theorem eventKeys : ∀ i : Fin 7, (HKS_EVSCRe_bound (i.val + 1)).key ≠ HKS_STAT_pending.key ∧ (HKS_EVSCRe_ofs (i.val + 1)).key ≠ HKS_STAT_pending.key
    ∧ (HKS_EVSCRe_runs (i.val + 1)).key ≠ HKS_STAT_pending.key
    ∧ (HKS_EVSCRe_runs (i.val + 1)).key ∉ [HKS_STAT_running, HKS_STAT_script].map Fld.key := by decide

/-- The lowest pending event that has a script starts it; one that has none is forgotten. -/
theorem eventStart_shows {s u : State} {t i : Nat} (hf : s.seqFree = true) (hc : s.coreRun = true) (hi : s.nextEvent = some i)
    (hu : u = State.eventStart t s) :
    bit (u.rd HKS_STAT_pending) i = false ∧ TimeAt s u t
      ∧ (s.on (HKS_EVSCRe_bound (i + 1)) = true → u.hks.script = some ⟨i + 1, s.rd (HKS_EVSCRe_ofs (i + 1)), 0,
            (0xFF00 - s.rd (HKS_EVSCRe_ofs (i + 1))) / 4, none, none⟩
          ∧ u.rd (HKS_EVSCRe_runs (i + 1)) = (s.rd (HKS_EVSCRe_runs (i + 1)) + 1) % 2 ^ 8 ∧ u.rd HKS_STAT_running = 1
          ∧ SameRegs s u [HKS_STAT_pending, HKS_EVSCRe_runs (i + 1), HKS_STAT_running, HKS_STAT_script])
      ∧ (s.on (HKS_EVSCRe_bound (i + 1)) = false → u.hks = s.hks ∧ SameRegs s u [HKS_STAT_pending])
      ∧ SameRest s { u with hks := s.hks } := by
  have hlt := nextEvent_lt hi
  obtain ⟨b, hb, hk⟩ := s.advance_moves t
  have hregs : ∀ f, (s.advance t).rd f = s.rd f := State.rd_advance s t
  obtain ⟨k1, k2, k3, k4⟩ := eventKeys ⟨i, hlt⟩
  have hne : (s.advance t).nextEvent = some i := by
    rw [← hi, State.nextEvent, State.nextEvent, hregs]
  rw [eventStart_eq rfl ((seqFree_advance s t).trans hf) ((State.coreRun_advance s t).trans hc) hne] at hu
  obtain ⟨e1, e2, F, e3⟩ := eventTaken_shows (s.advance t) hlt
  have hbnd : ((s.advance t).eventTaken i).on (HKS_EVSCRe_bound (i + 1)) = s.on (HKS_EVSCRe_bound (i + 1)) := by
    rw [State.on, State.on, e2 _ (by simpa using k1), hregs]
  have hofs : ((s.advance t).eventTaken i).rd (HKS_EVSCRe_ofs (i + 1)) = s.rd (HKS_EVSCRe_ofs (i + 1)) := by rw [e2 _ (by simpa using k2), hregs]
  have hruns : ((s.advance t).eventTaken i).rd (HKS_EVSCRe_runs (i + 1)) = s.rd (HKS_EVSCRe_runs (i + 1)) := by rw [e2 _ (by simpa using k3), hregs]
  have he3 : (s.advance t).eventTaken i = { s with fields := F, tmb := b } := by rw [e3, hb]
  rw [hbnd, hofs] at hu
  have heq : ∀ f : Fld, f.key ≠ HKS_STAT_pending.key → ((s.advance t).eventTaken i).rd f = s.rd f := fun f hf => (e2 f (by simpa using hf)).trans (hregs f)
  generalize (s.advance t).eventTaken i = v at *
  cases hon : s.on (HKS_EVSCRe_bound (i + 1)) with
  | true =>
    rw [hon, if_pos rfl] at hu
    obtain ⟨p1, p2, p3, F', p4⟩ := startScratch_shows (v.bump (HKS_EVSCRe_runs (i + 1))) (i + 1) (s.rd (HKS_EVSCRe_ofs (i + 1))) hu
    have hbump : ∀ f : Fld, f.key ≠ (HKS_EVSCRe_runs (i + 1)).key → (v.bump (HKS_EVSCRe_runs (i + 1))).rd f = v.rd f := fun f hf =>
      State.rd_wr_ne _ _ _ _ (Ne.symm hf)
    refine ⟨?_, ?_, fun _ => ⟨p1, ?_, p2, fun f hf => ?_⟩, fun h => absurd h (by decide), ?_⟩
    · rw [p3 _ (by decide), hbump _ (Ne.symm k3)]
      exact e1
    · rw [TimeAt, p4, State.bump, he3]
      exact hk
    · rw [p3 _ k4, State.rd_bump_same, hruns]
      rfl
    · simp only [List.map_cons, List.map_nil, List.mem_cons, List.not_mem_nil, or_false, not_or] at hf
      obtain ⟨f1, f2, f3, f4⟩ := hf
      rw [p3 f (by simp [f3, f4]), hbump f f2, heq f f1]
    · rw [p4, State.bump, he3]
      exact sameRest_mk_hrv s _ _ _
  | false =>
    rw [hon, if_neg (by decide)] at hu
    refine ⟨by rw [hu]; exact e1, ?_, fun h => absurd h (by decide), fun _ => ⟨by rw [hu, he3], fun f hf => ?_⟩, ?_⟩
    · rw [TimeAt, hu, he3]
      exact hk
    · rw [hu, heq f (by simpa using hf)]
    · rw [hu, he3]
      exact sameRest_mk_hrv s _ _ _

/-! ### Writes that start a script or feed the watchdog -/

/-- A write of a word with nothing to store does what follows from it, and no more. -/
theorem bareWrite {s : State} {p : Port} {a v : Nat} (t : Nat) (h : Reaches p a s) (hv : v < 2 ^ 32) (ha : a < 0x140000) (h4 : a % 4 = 0)
    (hc : (s.advance t).closed a = false) (hi : (s.advance t).ignored a = false)
    (hl : (regAt a).map (fun x => softFlds (x.1.flds x.2.1 x.2.2)) = some []) :
    ∃ w o, SameRegs s w [] ∧ (∃ F b k, w = { s with fields := F, hrv := { s.hrv with l12 := b }, tmb := k } ∧ k.kt = max s.tmb.kt t)
      ∧ State.writeAt p a v t s = State.reSignal a (State.effect p a v 0xFFFFFFFF o w) := by
  obtain ⟨F, b, k, hs, hk⟩ := stored_advance [] v s t p
  refine ⟨stored [] v (s.advance t) p, (s.advance t).usedBy p, fun f hf => (rd_stored_ne _ _ _ hf).trans (State.rd_advance s t f), ⟨F, b, k, hs, hk⟩, ?_⟩
  rw [State.writeAt, portWrite_stores p a v _ _ (h.advance t) hv ha h4 hc hi hl]

/-- What such a write shows where it changes only housekeeping's hidden state. -/
theorem bareWrite_hks {s w u : State} {a t : Nat} {K : Hks} (hr : SameRegs s w [])
    (hw : ∃ F b k, w = { s with fields := F, hrv := { s.hrv with l12 := b }, tmb := k } ∧ k.kt = max s.tmb.kt t)
    (hu : u = State.reSignal a { w with hks := K }) :
    u.hks = K ∧ TimeAt s u t ∧ SameRegs s u [] ∧ SameRest s { u with hks := s.hks } := by
  obtain ⟨F, b, k, e, hk⟩ := hw
  obtain ⟨q, hq⟩ := State.reSignal_moves a { w with hks := K }
  refine ⟨by rw [hu, hq], ?_, fun f hf => ?_, ?_⟩
  · rw [TimeAt, hu, hq, e]
    exact hk
  · rw [hu, State.rd_reSignal]
    exact hr f hf
  · rw [hu, hq, e]
    exact sameRest_mk s _ _ _ _

theorem effect_run (p : Port) (v bm : Nat) (o s : State) : State.effect p HKS_RUN_start.addr v bm o s =
    if HKS_RUN_start.of v = 1 then State.hksRun (HKS_RUN_ofs.of v) s else s := rfl

theorem effect_feed (p : Port) (v bm : Nat) (o s : State) : State.effect p HKS_WDG_FEED_key.addr v bm o s =
    if HKS_WDG_FEED_key.of v = 0x6B1D ∧ p ≠ .script then s.feed0 else s := rfl

theorem start_bits (v : Word) : HKS_RUN_start.of (v.toNat ||| 2 ^ 31) = 1 ∧ HKS_RUN_ofs.of (v.toNat ||| 2 ^ 31) = v.toNat % 2 ^ 16 := by
  have h1 : ∀ n, HKS_RUN_start.of n = n / 2 ^ 31 % 2 := fun _ => rfl
  have h2 : ∀ n, HKS_RUN_ofs.of n = n / 2 ^ 0 % 2 ^ 16 := fun _ => rfl
  rw [h1, h2, or_bit, if_pos rfl]
  refine ⟨rfl, ?_⟩
  rw [pow_zero, Nat.div_one, Nat.or_mod_two_pow]
  simp

theorem hksRun_eq {s : State} (hks : Hks) (h : s.hks = hks) (ofs : Nat) : State.hksRun ofs s =
    { s with hks := if hks.runReq.isSome || decide (hks.script.map Script.kind = some 9) then hks else { hks with runReq := some ofs } } := by
  subst h
  unfold State.hksRun
  split <;> rfl

section Writes

variable {s u : State} {p : Port} {v : Word} {t : Nat}

theorem hksRun_shows (h : Reaches p HKS_RUN_start.addr s) (hu : u = State.writeAt p HKS_RUN_start.addr (v.toNat ||| 2 ^ 31) t s) :
    u.hks = (if s.hks.runReq.isSome || decide (s.hks.script.map Script.kind = some 9) then s.hks else { s.hks with runReq := some (v.toNat % 2 ^ 16) })
      ∧ TimeAt s u t ∧ SameRegs s u [] ∧ SameRest s { u with hks := s.hks } := by
  obtain ⟨w, o, hr, hw, he⟩ := bareWrite (v := v.toNat ||| 2 ^ 31) t h (word_or_lt v (k := 31) (by decide)) (by decide) (by decide)
    (by simp [State.closed, HKS_RUN_start]) (by rfl) (by rfl)
  obtain ⟨b1, b2⟩ := start_bits v
  have hh : w.hks = s.hks := by
    obtain ⟨F, b, k, e, -⟩ := hw
    rw [e]
  rw [he, effect_run, b1, b2, if_pos rfl, hksRun_eq s.hks hh] at hu
  exact bareWrite_hks hr hw hu

theorem feed_shows (h : Reaches p HKS_WDG_FEED_key.addr s) (hu : u = State.writeAt p HKS_WDG_FEED_key.addr v.toNat t s) :
    u.hks = (if v.toNat / 2 ^ 16 = 0x6B1D ∧ p ≠ .script then { s.hks with wdgAt := max s.tmb.kt t } else s.hks)
      ∧ TimeAt s u t ∧ SameRegs s u [] ∧ SameRest s { u with hks := s.hks } := by
  obtain ⟨w, o, hr, hw, he⟩ := bareWrite (v := v.toNat) t h v.isLt (by decide) (by decide) (by simp [State.closed, HKS_WDG_FEED_key]) (by rfl) (by rfl)
  have hkey : HKS_WDG_FEED_key.of v.toNat = v.toNat / 2 ^ 16 := by
    have hlt := v.isLt
    show v.toNat / 2 ^ 16 % 2 ^ 16 = v.toNat / 2 ^ 16
    omega
  have hks : w.hks = s.hks ∧ w.tmb.kt = max s.tmb.kt t := by
    obtain ⟨F, b, k, e, hk⟩ := hw
    rw [e]
    exact ⟨rfl, hk⟩
  rw [he, effect_feed, hkey] at hu
  split at hu
  · next hc =>
    rw [if_pos hc]
    refine bareWrite_hks (a := HKS_WDG_FEED_key.addr) hr hw (K := { s.hks with wdgAt := max s.tmb.kt t }) ?_
    rw [hu, State.feed0, hks.1, hks.2]
  · next hc =>
    rw [if_neg hc]
    refine bareWrite_hks (a := HKS_WDG_FEED_key.addr) hr hw (K := s.hks) ?_
    rw [hu, ← hks.1]

end Writes

/-! ### Arming by itself -/

/-- Housekeeping has forgotten that an arm was to follow boot. -/
def State.forgetBoot (s : State) : State := { s with hks := { s.hks with armBoot := false } }

theorem autoArm_eq {s : State} {t : Nat} (ha : s.hks.armBoot = true) (hf : s.seqFree = true) (hp : s.rd HKS_STAT_pending = 0) (hr : s.hks.runReq = none)
    (hm : s.on GLB_STAT_mode_pend = false) : State.autoArm t s =
      if s.on HKS_CFG_arm_boot = true ∧ s.mode ≠ 7 then State.armSelf { s.advance t with hks := { s.hks with armBoot := false } }
      else { s.advance t with hks := { s.hks with armBoot := false } } := by
  have hh : (s.advance t).hks = s.hks := by
    obtain ⟨b, hb, -⟩ := s.advance_moves t
    rw [hb]
  have hm0 : s.mode ≠ 0 := by
    simp only [State.seqFree, Bool.and_eq_true, decide_eq_true_eq] at hf
    exact hf.1.2
  have hw : (s.advance t).forgetBoot = { s.advance t with hks := { s.hks with armBoot := false } } := by rw [State.forgetBoot, hh]
  have hon : (s.advance t).forgetBoot.on HKS_CFG_arm_boot = s.on HKS_CFG_arm_boot := State.on_advance s t _
  have hmo : (s.advance t).forgetBoot.mode = s.mode := State.mode_advance s t
  have he : State.autoArm t s =
      if (!(s.advance t).hks.armBoot) = true ∨ (!(s.advance t).seqFree) = true ∨ (s.advance t).rd HKS_STAT_pending ≠ 0
        ∨ (s.advance t).hks.runReq.isSome = true ∨ (s.advance t).on GLB_STAT_mode_pend = true then s.advance t
      else if (s.advance t).forgetBoot.on HKS_CFG_arm_boot = true ∧ (s.advance t).forgetBoot.mode ≠ 0 ∧ (s.advance t).forgetBoot.mode ≠ 7 then
        (s.advance t).forgetBoot.armSelf
      else (s.advance t).forgetBoot := rfl
  rw [he, hh, seqFree_advance, State.rd_advance, State.on_advance, ha, hf, hp, hr, hm, if_neg (by simp), hon, hmo, hw]
  simp only [ne_eq, hm0, not_false_eq_true, true_and]

theorem wakeArm_eq {s : State} {t : Nat} (ha : s.hks.armWake = true) (hf : s.seqFree = true) (hp : s.rd HKS_STAT_pending = 0) (hr : s.hks.runReq = none)
    (hd : s.dllsUp = true) : State.wakeArm t s = State.armSelf { s.advance t with hks := { s.hks with armWake := false } } := by
  have hh : (s.advance t).hks = s.hks ∧ (s.advance t).dllsUp = s.dllsUp := by
    obtain ⟨b, hb, -⟩ := s.advance_moves t
    rw [hb]
    exact ⟨rfl, rfl⟩
  unfold State.wakeArm
  dsimp only
  rw [hh.1, seqFree_advance, State.rd_advance, hh.2, ha, hf, hp, hr, hd, if_neg (by simp)]

end Sys2Proof.Machine

namespace Sys2Proof
open Machine

/-- Settles O52: pending events, requests to run, the feed of the watchdog, and arms that the Kameth writes itself. -/
theorem sequencerStarts : Obligations.SequencerStarts := by
  unfold Obligations.SequencerStarts
  intro s t
  have hrd : ∀ (h : Hks) f, ({ s.advance t with hks := h } : State).rd f = s.rd f := fun _ => State.rd_advance s t
  refine ⟨fun hp hc => ?_, fun i hp hf hc hi => ?_, fun p v h => ⟨fun h1 h2 => ?_, fun h1 => ?_⟩, fun p v h => ⟨fun h1 h2 => ?_, fun h1 => ?_⟩,
    fun hp hf hpe hr h0 => ⟨fun hb hm => ?_, fun hw hd => ?_⟩⟩
  · refine .of_performOnAt (exec_eventScriptStart t s) hp ?_
    rw [eventStart_gated hc]
    exact unchanged_advance s t
  · exact .of_performOnAt (exec_eventScriptStart t s) hp (eventStart_shows hf hc hi rfl)
  · refine .of_performAt (exec_hksRun p v t s) h.1 ?_
    have hs := hksRun_shows h rfl (v := v) (t := t)
    rw [h1, decide_eq_false h2] at hs
    exact hs
  · refine .of_performAt (exec_hksRun p v t s) h.1 ?_
    have hs := hksRun_shows h rfl (v := v) (t := t)
    have hc : (s.hks.runReq.isSome || decide (s.hks.script.map Script.kind = some 9)) = true := by
      rcases h1 with h1 | h1
      · rw [Option.isSome_iff_ne_none.2 h1, Bool.true_or]
      · rw [decide_eq_true h1, Bool.or_true]
    rw [hc, if_pos rfl] at hs
    obtain ⟨s1, s2, s3, s4⟩ := hs
    generalize State.writeAt p HKS_RUN_start.addr (v.toNat ||| 2 ^ 31) t s = u at *
    exact ⟨s2, s3, by rw [← s1] at s4; exact s4⟩
  · refine .of_performAt (exec_watchdogFeed p v t s) h.1 ?_
    have hs := feed_shows h rfl (v := v) (t := t)
    rw [if_pos ⟨h1, h2⟩] at hs
    exact hs
  · refine .of_performAt (exec_watchdogFeed p v t s) h.1 ?_
    have hs := feed_shows h rfl (v := v) (t := t)
    rw [if_neg (fun k => h1.elim (fun h => h k.1) k.2)] at hs
    obtain ⟨s1, s2, s3, s4⟩ := hs
    generalize State.writeAt p HKS_WDG_FEED_key.addr v.toNat t s = u at *
    exact ⟨s2, s3, by rw [← s1] at s4; exact s4⟩
  · have he := autoArm_eq (t := t) hb hf hpe hr hm
    refine ⟨fun h1 => ?_, fun h1 h2 => ⟨fun h3 h4 => ?_, fun c d h3 => ?_⟩⟩
    · refine .of_performOnAt (exec_autoArm t s) hp ?_
      rw [he, if_neg (fun k => h1.elim (fun h => by rw [h] at k; exact absurd k.1 (by decide)) k.2)]
      obtain ⟨b, hb, hk⟩ := s.advance_moves t
      refine ⟨rfl, TimeAt.advance s t, fun f _ => hrd _ f, ?_⟩
      rw [hb]
      exact sameRest_mk_hrv s _ _ _
    · refine .of_performOnAt (exec_autoArm t s) hp ?_
      rw [he, if_pos ⟨h1, h2⟩, armSelf_starts ((hrd _ _).trans h0) h4 ((hrd _ _).trans h3)]
      obtain ⟨p1, p2, -, p4⟩ := armFull_starts (s := { s.advance t with hks := { s.hks with armBoot := false } }) ((hrd _ _).trans h0) h4 ((hrd _ _).trans h3)
      exact ⟨p1, p2, by rw [p4]⟩
    · refine .of_performOnAt (exec_autoArm t s) hp ?_
      rw [he, if_pos ⟨h1, h2⟩]
      obtain ⟨p1, p2, p3, p4⟩ := armSelf_refused (s := { s.advance t with hks := { s.hks with armBoot := false } }) ((hrd _ _).trans h0) h3
      exact ⟨p1, p2, p3, by rw [p4]⟩
  · have he := wakeArm_eq (t := t) hw hf hpe hr hd
    refine ⟨fun h3 h4 => ?_, fun c d h3 => ?_⟩
    · refine .of_performOnAt (exec_armOnWake t s) hp ?_
      rw [he, armSelf_starts ((hrd _ _).trans h0) h4 ((hrd _ _).trans h3)]
      obtain ⟨p1, p2, -, p4⟩ := armFull_starts (s := { s.advance t with hks := { s.hks with armWake := false } }) ((hrd _ _).trans h0) h4 ((hrd _ _).trans h3)
      exact ⟨p1, p2, by rw [p4]⟩
    · refine .of_performOnAt (exec_armOnWake t s) hp ?_
      rw [he]
      obtain ⟨p1, p2, p3, p4⟩ := armSelf_refused (s := { s.advance t with hks := { s.hks with armWake := false } }) ((hrd _ _).trans h0) h3
      exact ⟨p1, p2, p3, by rw [p4]⟩

end Sys2Proof
end

