-- ==== Sys2Proof/Proofs/ImageChecks.lean ====
section
/-! PROOFS. The image check of start-up, its failures and its time limit (O50). -/

namespace Sys2Proof.Machine

/-! ### How a check ends -/

/-- Start-up that an image error ends: safe default, with its code, and no script. -/
theorem bootErr_shows {s u : State} {code : Nat} (hu : u = s.bootErr code) :
    u.rd HKS_BOOT_err = code % 2 ^ 8 ∧ u.rd HKS_BOOT_safe = 1 ∧ u.rd HKS_BOOT_done = 1 ∧ u.hks.step = 6 ∧ bit (u.rd HKS_EVT_bits) 1 = true
      ∧ u.hks.script = s.hks.script ∧ u.tmb = s.tmb ∧ u.near = s.near ∧ u.rd HKS_BOOT_key_src = s.rd HKS_BOOT_key_src := by
  have hb : ∀ f : Fld, f.key ∉ bboxFlds.map Fld.key → f.key ≠ HKS_BOOT_done.key →
      u.rd f = (((s.wr HKS_BOOT_err code).wr HKS_BOOT_safe 1).orF HKS_EVT_bits 2).rd f := fun f h1 h2 => by
    rw [hu]
    exact (State.rd_mk ..).trans ((State.rd_wr_ne _ _ _ _ (Ne.symm h2)).trans (State.rd_bbox _ _ _ _ h1))
  obtain ⟨F, B, e⟩ := (((s.wr HKS_BOOT_err code).wr HKS_BOOT_safe 1).orF HKS_EVT_bits 2).bbox_moves 0x05 0 code
  have hm : u.hks = { s.hks with step := 6 } ∧ u.tmb = s.tmb ∧ u.near = s.near := by
    rw [hu, State.bootErr, e]
    exact ⟨rfl, rfl, rfl⟩
  obtain ⟨h1, h2, h3⟩ := hm
  refine ⟨?_, ?_, ?_, by rw [h1], ?_, by rw [h1], h2, h3, ?_⟩
  · rw [hb _ (by decide) (by decide), rd_orF_ne _ _ _ _ (by decide), State.rd_wr_ne _ _ _ _ (by decide)]
    exact State.rd_wr_same _ _ _
  · rw [hb _ (by decide) (by decide), rd_orF_ne _ _ _ _ (by decide)]
    exact State.rd_wr_same _ _ _
  · rw [hu]
    exact (State.rd_mk ..).trans (State.rd_wr_same _ _ _)
  · rw [hb _ (by decide) (by decide)]
    exact bit_rd_orF _ HKS_EVT_bits 1 (by decide)
  · rw [hb _ (by decide) (by decide), rd_orF_ne _ _ _ _ (by decide), State.rd_wr_ne _ _ _ _ (by decide), State.rd_wr_ne _ _ _ _ (by decide)]

/-- Every check passed: the configuration script of the image runs. -/
theorem runImage_shows {s u : State} {img : List Byte} (hu : u = s.runImage img) :
    u.hks.step = 5 ∧ u.rd HKS_STAT_running = 1 ∧ u.rd HKS_STAT_script = 8
      ∧ u.hks.script = some ⟨8, imageBase + field img 12 4, 0, (img.length - field img 12 4) / 4, none, none⟩
      ∧ u.near = s.near ∧ u.tmb = s.tmb ∧ u.rd HKS_BOOT_verified = s.rd HKS_BOOT_verified := by
  subst hu
  refine ⟨rfl, ?_, State.rd_wr_same _ _ _, rfl, rfl, rfl, ?_⟩
  · rw [State.runImage, State.setScript, State.rd_wr_ne _ _ _ _ (by decide)]
    exact State.rd_wr_same _ _ _
  · rw [State.runImage, State.setScript, State.rd_wr_ne _ _ _ _ (by decide), State.rd_wr_ne _ _ _ _ (by decide)]
    rfl

/-! ### The checks in order -/

/-- The device's size noted. -/
def State.sized (s : State) (n : Nat) : State := { (s.wr HKS_NV_INFO_size n) with hks := { s.hks with nvSize := n } }

/-- The image in near memory, and whether its header says that it is signed. -/
def State.loaded (s : State) (h img : List Byte) : State := (s.nearPut imageBase img).wr HKS_BOOT_signed (b2n (imageSigned h))

theorem imageCheck_none {s : State} (h : s.lands = false) (size t : Nat) : State.imageCheck size t s = s.advance t := by
  unfold State.imageCheck
  exact if_pos (.inr (.inr (by rw [State.advance_lands, h]; rfl)))

/-- How the check goes on from what the header has shown. -/
def State.headed (s : State) (h : List Byte) : Option Nat → State
  | some e => s.bootErr e
  | none => s.imageBody h

theorem imageCheck_eq {s a : State} {size t : Nat} (ha : s.advance t = a) (hs : a.hks.step = 4) (hr : a.hks.rails = true) (hl : a.lands = true) :
    State.imageCheck size t s =
      (a.sized (min size (2 ^ 28))).headed (a.nv.bytes 0 64) (a.headerErr (a.nv.bytes 0 64) (min size (2 ^ 28))) := by
  unfold State.imageCheck
  rw [ha]
  exact (if_neg (by rw [hs, hr, hl]; decide)).trans rfl

section Body

variable {s : State} {h img : List Byte}

theorem imageBody_crc (hi : s.nv.bytes 0 (field h 8 4) = img) (hc : crc32c (zeroed 20 4 img) ≠ field h 20 4) :
    s.imageBody h = (s.loaded h img).bootErr 7 := by
  subst hi
  exact if_pos hc

theorem imageBody_unsigned (hi : s.nv.bytes 0 (field h 8 4) = img) (hc : crc32c (zeroed 20 4 img) = field h 20 4) (hn : s.hks.sigN = true) :
    s.imageBody h = (s.loaded h img).runImage img := by
  subst hi
  unfold State.imageBody
  dsimp only
  rw [if_neg (not_not.2 hc), if_pos hn]
  rfl

theorem imageBody_waits (hi : s.nv.bytes 0 (field h 8 4) = img) (hc : crc32c (zeroed 20 4 img) = field h 20 4) (hn : s.hks.sigN = false)
    (hk : s.keyHash = none) : s.imageBody h = s.loaded h img := by
  subst hi
  unfold State.imageBody
  dsimp only
  rw [if_neg (not_not.2 hc), if_neg (by rw [hn]; decide), hk]
  rfl

theorem imageBody_unverified {src e : Nat} {key : List Byte} (hi : s.nv.bytes 0 (field h 8 4) = img) (hc : crc32c (zeroed 20 4 img) = field h 20 4)
    (hn : s.hks.sigN = false) (hk : s.keyHash = some (src, key)) (he : signErr img key = some e) :
    s.imageBody h = ((s.loaded h img).wr HKS_BOOT_key_src src).bootErr e := by
  subst hi
  unfold State.imageBody
  dsimp only
  rw [if_neg (not_not.2 hc), if_neg (by rw [hn]; decide), hk]
  dsimp only
  rw [he]
  rfl

theorem imageBody_verified {src : Nat} {key : List Byte} (hi : s.nv.bytes 0 (field h 8 4) = img) (hc : crc32c (zeroed 20 4 img) = field h 20 4)
    (hn : s.hks.sigN = false) (hk : s.keyHash = some (src, key)) (he : signErr img key = none) :
    s.imageBody h = (((s.loaded h img).wr HKS_BOOT_key_src src).wr HKS_BOOT_verified 1).runImage img := by
  subst hi
  unfold State.imageBody
  dsimp only
  rw [if_neg (not_not.2 hc), if_neg (by rw [hn]; decide), hk]
  dsimp only
  rw [he]
  rfl

end Body

/-- The time limit of step 4. -/
theorem loadTimeout_eq {s a : State} {t : Nat} (ha : s.advance t = a) (hs : a.hks.step = 4) (hr : a.hks.rails = true) : State.loadTimeout t s =
    if t < a.hks.stepAt + 2 * secF then a else a.bootErr (if !a.hks.sigN && a.keyHash.isNone then 0x08 else 0x0C) := by
  unfold State.loadTimeout
  rw [ha]
  dsimp only
  rw [hs, hr]
  simp

end Sys2Proof.Machine

namespace Sys2Proof
open Machine

/-- Settles O50: the checks of the image in order, the wait for the key hash, and the time limit. -/
theorem imageChecks : Obligations.ImageChecks := by
  unfold Obligations.ImageChecks
  intro s t hp hstep
  obtain ⟨b, hb, hk⟩ := s.advance_moves t
  have hh : (s.advance t).hks = s.hks := by rw [hb]
  have hnv : (s.advance t).nv = s.nv := by rw [hb]
  have hst : (s.advance t).hks.step = 4 := by rw [hh, hstep]
  have hr : (s.advance t).hks.rails = true := by rw [hh]; exact hp.2
  have hn : (s.advance t).near = s.near := by rw [hb]
  have hkt : (s.advance t).tmb.kt = max s.tmb.kt t := by rw [hb]; exact hk
  have hrd : ∀ f, (s.advance t).rd f = s.rd f := State.rd_advance s t
  refine ⟨fun hl size => ?_, fun hl size => ?_, fun ht => ?_, fun ht => ?_⟩
  · refine .of_performOnAt (exec_imageCheck size t s) hp ?_
    rw [imageCheck_none hl]
    exact unchanged_advance s t
  · have hhe : (s.advance t).headerErr ((s.advance t).nv.bytes 0 64) (min size (2 ^ 28)) = s.headerErr (s.nv.bytes 0 64) (min size (2 ^ 28)) := by
      rw [hb]
      rfl
    have hcheck := imageCheck_eq (size := size) rfl hst hr ((State.advance_lands s t).trans hl)
    rw [hhe, hnv] at hcheck
    have hznv : ((s.advance t).sized (min size (2 ^ 28))).nv = s.nv := hnv
    have hzs : ((s.advance t).sized (min size (2 ^ 28))).hks = { s.hks with nvSize := min size (2 ^ 28) } := by rw [← hh]; rfl
    have hzt : ((s.advance t).sized (min size (2 ^ 28))).tmb.kt = max s.tmb.kt t := hkt
    have hzn : ((s.advance t).sized (min size (2 ^ 28))).near = s.near := hn
    have hzr : ∀ f : Fld, f.key ≠ HKS_NV_INFO_size.key → ((s.advance t).sized (min size (2 ^ 28))).rd f = s.rd f := fun f hf =>
      (State.rd_mk ..).trans ((State.rd_wr_ne _ _ _ _ (Ne.symm hf)).trans (hrd f))
    have hzk : ((s.advance t).sized (min size (2 ^ 28))).keyHash = (s.nearPut imageBase (s.nv.bytes 0 (field (s.nv.bytes 0 64) 8 4))).keyHash := by
      have hi : ∀ i, (HKS_KEYH_hash i).key ≠ HKS_NV_INFO_size.key := fun i => by simp only [Fld.key, HKS_KEYH_hash, HKS_NV_INFO_size]; omega
      have hr1 : ∀ i, (s.nearPut imageBase (s.nv.bytes 0 (field (s.nv.bytes 0 64) 8 4))).rd (HKS_KEYH_hash i) = s.rd (HKS_KEYH_hash i) := fun i => rfl
      have hsc : ((s.advance t).sized (min size (2 ^ 28))).scr = s.scr := by rw [hb]; rfl
      simp only [State.keyHash, hzs, hsc, hzr _ (hi _), hr1]
      rfl
    generalize (s.advance t).sized (min size (2 ^ 28)) = z at *
    have hfail : ∀ (v : State) (e : Nat), v.hks = z.hks → v.tmb = z.tmb →
        (v.bootErr e).rd HKS_BOOT_err = e % 2 ^ 8 ∧ (v.bootErr e).rd HKS_BOOT_safe = 1 ∧ (v.bootErr e).rd HKS_BOOT_done = 1 ∧ (v.bootErr e).hks.step = 6
          ∧ bit ((v.bootErr e).rd HKS_EVT_bits) 1 = true ∧ (v.bootErr e).hks.script = s.hks.script ∧ TimeAt s (v.bootErr e) t := fun v e h1 h2 => by
      obtain ⟨q1, q2, q3, q4, q5, q6, q7, -⟩ := bootErr_shows (s := v) (code := e) rfl
      exact ⟨q1, q2, q3, q4, q5, q6.trans (by rw [h1, hzs]), (congrArg Tmb.kt (q7.trans h2)).trans hzt⟩
    dsimp only
    refine ⟨fun e he => ?_, fun he hc => ?_, fun he hc hn' => ?_, fun he hc hn' => ⟨fun src key hky => ⟨fun e hs => ?_, fun hs => ?_⟩, fun hky => ?_⟩⟩
    · refine .of_performOnAt (exec_imageCheck size t s) hp ?_
      rw [hcheck, he]
      obtain ⟨-, -, -, -, -, -, -, q8, -⟩ := bootErr_shows (s := z) (code := e) rfl
      exact ⟨hfail z e rfl rfl, q8.trans hzn⟩
    · refine .of_performOnAt (exec_imageCheck size t s) hp ?_
      rw [hcheck, he, State.headed, imageBody_crc (by rw [hznv]) hc]
      exact hfail _ 7 rfl rfl
    · refine .of_performOnAt (exec_imageCheck size t s) hp ?_
      rw [hcheck, he, State.headed, imageBody_unsigned (by rw [hznv]) hc (by rw [hzs]; exact hn')]
      obtain ⟨q1, q2, q3, q4, q5, q6, q7⟩ := runImage_shows (s := z.loaded (s.nv.bytes 0 64) (s.nv.bytes 0 (field (s.nv.bytes 0 64) 8 4))) rfl
      refine ⟨⟨q1, q2, q3, q4, q5.trans ?_, (congrArg Tmb.kt q6).trans hzt⟩, q7.trans ?_⟩
      · rw [← hzn]
        rfl
      · rw [State.loaded, State.rd_wr_ne _ _ _ _ (by decide)]
        exact (State.rd_mk ..).trans (hzr _ (by decide))
    · refine .of_performOnAt (exec_imageCheck size t s) hp ?_
      rw [hcheck, he, State.headed, imageBody_unverified (by rw [hznv]) hc (by rw [hzs]; exact hn') (hzk.trans hky) hs]
      obtain ⟨-, -, -, -, -, -, -, -, q9⟩ :=
        bootErr_shows (s := (z.loaded (s.nv.bytes 0 64) (s.nv.bytes 0 (field (s.nv.bytes 0 64) 8 4))).wr HKS_BOOT_key_src src) (code := e) rfl
      exact ⟨hfail _ e rfl rfl, q9.trans (State.rd_wr_same _ _ _)⟩
    · refine .of_performOnAt (exec_imageCheck size t s) hp ?_
      rw [hcheck, he, State.headed, imageBody_verified (by rw [hznv]) hc (by rw [hzs]; exact hn') (hzk.trans hky) hs]
      obtain ⟨q1, q2, q3, q4, q5, q6, q7⟩ := runImage_shows
        (s := ((z.loaded (s.nv.bytes 0 64) (s.nv.bytes 0 (field (s.nv.bytes 0 64) 8 4))).wr HKS_BOOT_key_src src).wr HKS_BOOT_verified 1)
        (img := s.nv.bytes 0 (field (s.nv.bytes 0 64) 8 4)) rfl
      refine ⟨⟨q1, q2, q3, q4, q5.trans ?_, (congrArg Tmb.kt q6).trans hzt⟩, q7.trans (State.rd_wr_same _ _ _)⟩
      rw [← hzn]
      rfl
    · refine .of_performOnAt (exec_imageCheck size t s) hp ?_
      rw [hcheck, he, State.headed, imageBody_waits (by rw [hznv]) hc (by rw [hzs]; exact hn') (hzk.trans hky)]
      refine ⟨?_, ?_, ?_, hzt⟩
      · show z.hks.step = 4
        rw [hzs]
        exact hstep
      · show z.hks.script = s.hks.script
        rw [hzs]
      · rw [State.loaded, State.rd_wr_ne _ _ _ _ (by decide)]
        exact (State.rd_mk ..).trans (hzr _ (by decide))
  · refine .of_performOnAt (exec_loadTimeout t s) hp ?_
    have hkh : (s.advance t).keyHash = s.keyHash := by
      rw [hb]
      rfl
    have hcode : (if (!s.hks.sigN && s.keyHash.isNone) = true then 0x08 else 0x0C) = if s.hks.sigN = false ∧ s.keyHash = none then 8 else 12 := by
      simp only [Bool.and_eq_true, Bool.not_eq_true', Option.isNone_iff_eq_none]
    rw [loadTimeout_eq rfl hst hr, hh, hkh, if_neg (Nat.not_lt.2 ht), hcode]
    obtain ⟨q1, q2, q3, q4, q5, q6, q7, -⟩ := bootErr_shows (s := s.advance t) (code := if s.hks.sigN = false ∧ s.keyHash = none then 8 else 12) rfl
    exact ⟨q1, q2, q3, q4, q5, q6.trans (by rw [hh]), (congrArg Tmb.kt q7).trans hkt⟩
  · refine .of_performOnAt (exec_loadTimeout t s) hp ?_
    rw [loadTimeout_eq rfl hst hr, hh, if_pos ht]
    exact unchanged_advance s t

end Sys2Proof
end

