-- ==== Sys2Proof/Proofs/ScriptOps.lean ====
section
/-! SUPPORT. The housekeeping sequencer: what a fetch, a reading of a register, an error and a step to the next operation change. -/

namespace Sys2Proof.Machine

/-! ### A fetch -/

/-- The registers that a fetch may write. -/
def fetchFlds : List Fld := errFlds ++ [RAK_STAT_lease, RAK_STAT_busy, RAK_PREEMPT_count, RAK_EVT_preempt]

/-- `u` is `s` after the words of an operation were fetched: a lease may be pre-empted, and errors met. -/
def Fetches (s u : State) : Prop :=
  (∃ F R B Y D P, u = { s with fields := F, rak := R, bbx := B, dmc := { s.dmc with sym := Y }, dpoison := D, poison := P }) ∧ SameRegs s u fetchFlds

theorem fetches_of_met {s u : State} (h : MetErrors s u) : Fetches s u := by
  obtain ⟨⟨F, B, Y, D, P, e⟩, r⟩ := h
  refine ⟨⟨F, s.rak, B, Y, D, P, e⟩, fun f hf => r f fun x => hf ?_⟩
  rw [fetchFlds, List.map_append, List.mem_append]
  exact .inl x

theorem Fetches.trans {s u w : State} (h : Fetches s u) (g : Fetches u w) : Fetches s w := by
  obtain ⟨⟨F, R, B, Y, D, P, e⟩, r⟩ := h
  obtain ⟨⟨F', R', B', Y', D', P', e'⟩, r'⟩ := g
  exact ⟨⟨F', R', B', Y', D', P', by rw [e', e]⟩, fun f hf => (r' f hf).trans (r f hf)⟩

theorem fetches_preempted (target : Nat) (s : State) : Fetches s (State.preempted target s) := by
  rw [State.preempted]
  split
  · exact fetches_of_met (MetErrors.refl s)
  · obtain ⟨F, R, e⟩ := s.rakeRequeue_moves target
    have hr : SameRegs s (State.rakeRequeue target s) [RAK_STAT_lease, RAK_STAT_busy] := fun f hf => by
      simp only [List.map_cons, List.map_nil, List.mem_cons, List.not_mem_nil, or_false, not_or] at hf
      unfold State.rakeRequeue State.rakeShow
      rw [State.rd_wr_ne _ _ _ _ (Ne.symm hf.2), State.rd_wr_ne _ _ _ _ (Ne.symm hf.1), State.rd_mk]
    refine ⟨⟨_, R, s.bbx, s.dmc.sym, s.dpoison, s.poison, by rw [e]; rfl⟩, fun f hf => ?_⟩
    simp only [fetchFlds, List.map_append, List.map_cons, List.map_nil, List.mem_append, List.mem_cons, List.not_mem_nil, or_false, not_or] at hf
    obtain ⟨-, h1, h2, h3, h4⟩ := hf
    rw [State.rd_wr_ne _ _ _ _ (Ne.symm h4), State.bump, State.rd_wr_ne _ _ _ _ (Ne.symm h3)]
    exact hr f (by simp only [List.map_cons, List.map_nil, List.mem_cons, List.not_mem_nil, or_false, not_or]; exact ⟨h1, h2⟩)

theorem fetches_fetched (s : State) (k : Script) : Fetches s (s.fetched k) := by
  have hp : ∀ (c : Bool) n, Fetches s (if c then State.preempted n s else s) := fun c n => by
    cases c with
    | true => exact fetches_preempted n s
    | false => exact fetches_of_met (MetErrors.refl s)
  exact (hp _ _).trans (fetches_of_met (metErrors_cellRead _ _ _ _))

/-- What the operations of a script take from the state is as it was before a fetch. -/
structure SameScript (s u : State) : Prop where
  hks : u.hks = s.hks
  build : u.build = s.build
  near : u.near = s.near
  scr : u.scr = s.scr
  dead : u.pwr.dead = s.pwr.dead
  hrv : u.hrv = s.hrv
  verified : u.rd HKS_BOOT_verified = s.rd HKS_BOOT_verified
  core : u.coreRun = s.coreRun

theorem Fetches.sameScript {s u : State} (h : Fetches s u) : SameScript s u ∧ u.tmb = s.tmb := by
  obtain ⟨⟨F, R, B, Y, D, P, e⟩, r⟩ := h
  have hc : u.coreRun = s.coreRun := by
    rw [State.coreRun, State.coreRun, State.mode, State.mode, r GLB_STAT_active_mode (by decide), r (CLK_x_STAT_gated 1) (by decide)]
  have hv := r HKS_BOOT_verified (by decide)
  subst e
  exact ⟨⟨rfl, rfl, rfl, rfl, rfl, rfl, hv, hc⟩, rfl⟩

section Same

variable {s u : State} (h : SameScript s u)
include h

theorem SameScript.scriptWord (k : Script) (i : Nat) : u.scriptWord k i = s.scriptWord k i := by
  rw [State.scriptWord, State.scriptWord, h.near, h.scr]

theorem SameScript.arg (k : Script) (i : Nat) : u.arg k i = s.arg k i := h.scriptWord k _

theorem SameScript.argAddr (k : Script) : u.argAddr k = s.argAddr k := by rw [State.argAddr, h.arg, State.argAddr]

theorem SameScript.opWords (k : Script) : u.opWords k = s.opWords k := by
  unfold State.opWords State.scriptOp
  rw [h.scriptWord, h.scriptWord]

theorem SameScript.barred (k : Script) (a : Nat) : u.barred k a = s.barred k a := by
  rw [State.barred, State.barred, State.on, State.on, h.verified]

end Same

/-- The state in which an operation begins at `t`: its words fetched. -/
def State.begun (s : State) (k : Script) (t : Nat) : State := (s.advance t).fetched k

theorem begun_same (s : State) (k : Script) (t : Nat) : SameScript s (s.begun k t) ∧ TimeAt s (s.begun k t) t := by
  obtain ⟨b, hb, hkt⟩ := s.advance_moves t
  obtain ⟨h, ht⟩ := (fetches_fetched (s.advance t) k).sameScript
  have hx : SameScript s (s.advance t) := by
    rw [hb]
    exact ⟨rfl, rfl, rfl, rfl, rfl, rfl, rfl, rfl⟩
  have hk : (s.advance t).tmb.kt = max s.tmb.kt t := by
    rw [hb]
    exact hkt
  exact ⟨⟨h.hks.trans hx.hks, h.build.trans hx.build, h.near.trans hx.near, h.scr.trans hx.scr, h.dead.trans hx.dead, h.hrv.trans hx.hrv,
    h.verified.trans hx.verified, h.core.trans hx.core⟩, (congrArg Tmb.kt ht).trans hk⟩

/-! ### The next operation -/

theorem script_of_ready {s : State} {k : Script} (h : s.ready = some k) : s.hks.script = some k := by
  unfold State.ready at h
  cases hs : s.hks.script with
  | none => simp [hs] at h
  | some x =>
    rw [hs] at h
    dsimp only at h
    split at h
    · exact h
    · exact nomatch h

section Next

variable {s : State} {k : Script} {t : Nat} (op : Nat) (f : Script → State → State)

theorem scriptStep_waits (hr : s.ready = some k) (h : s.opReach k = false) : State.scriptStep op t f s = s.advance t := by
  obtain ⟨b, hb, -⟩ := s.advance_moves t
  have h1 : (s.advance t).ready = some k := by rw [hb]; exact hr
  have h2 : (s.advance t).opReach k = false := by rw [hb]; exact h
  unfold State.scriptStep
  dsimp only
  rw [h1]
  exact if_neg (by rw [h2, Bool.and_false]; exact Bool.false_ne_true)

theorem scriptStep_runs (hr : s.ready = some k) (he : s.fetchErr k = none) (ho : s.scriptOp k = op) (h : s.opReach k = true) :
    State.scriptStep op t f s = f k (s.begun k t) := by
  obtain ⟨b, hb, -⟩ := s.advance_moves t
  have h1 : (s.advance t).ready = some k := by rw [hb]; exact hr
  have h2 : (s.advance t).fetchErr k = none := by rw [hb]; exact he
  have h3 : (s.advance t).scriptOp k = op := by rw [hb]; exact ho
  have h4 : (s.advance t).opReach k = true := by rw [hb]; exact h
  unfold State.scriptStep
  dsimp only
  rw [h1]
  exact if_pos (by rw [h2, h3, h4, decide_eq_true rfl]; rfl)

end Next

/-! ### A reading of a register -/

/-- The state of the sequencer and of the time base are as before. -/
def KeepsTime (s u : State) : Prop := u.hks = s.hks ∧ u.tmb = s.tmb

theorem keepsTime_rfl {s : State} : KeepsTime s s := ⟨rfl, rfl⟩

theorem KeepsTime.trans {s u w : State} (h : KeepsTime s u) (g : KeepsTime u w) : KeepsTime s w := ⟨g.1.trans h.1, g.2.trans h.2⟩

theorem KeepsTime.fold {α : Type} (g : State → α → State) (h : ∀ s a, KeepsTime s (g s a)) (l : List α) : ∀ s, KeepsTime s (l.foldl g s) := by
  induction l with
  | nil => exact fun _ => keepsTime_rfl
  | cons a l ih => exact fun s => (h s a).trans (ih _)

theorem keepsTime_of_met {s u : State} (h : MetErrors s u) : KeepsTime s u := by
  obtain ⟨⟨F, B, Y, D, P, rfl⟩, -⟩ := h
  exact ⟨rfl, rfl⟩

theorem measPut_keeps (s : State) (x v : Nat) : KeepsTime s (s.measPut x v) := by
  rw [State.measPut, State.putPll]
  split <;> exact ⟨rfl, rfl⟩

theorem measNew_keeps (s : State) (x : Nat) : KeepsTime s (s.measNew x) := by
  have h : ∀ v, KeepsTime s ((s.draw 1).2.measPut x v) := fun v => KeepsTime.trans (u := (s.draw 1).2) ⟨rfl, rfl⟩ (measPut_keeps ..)
  rw [State.measNew]
  dsimp only
  split <;> exact h _

theorem freshen_keeps (s : State) (a : Nat) : KeepsTime s (s.freshen a) := by
  unfold State.freshen
  cases s.measAt a with
  | some x =>
    dsimp only
    split
    · exact keepsTime_rfl
    · exact measNew_keeps s x
  | none =>
    dsimp only
    split
    · rw [State.migNow]
      split <;> exact ⟨rfl, rfl⟩
    · split
      · rw [State.ringNow]
        split <;> exact ⟨rfl, rfl⟩
      · exact keepsTime_rfl

theorem trlStart_keeps (s : State) (k : Nat) : KeepsTime s (s.trlStart k) := by
  have h : KeepsTime s ((List.range 16).foldl (fun s n => s.wr (TRL_CTn_VAL n) 0) s) :=
    KeepsTime.fold (fun s n => s.wr (TRL_CTn_VAL n) 0) (fun s n => ⟨rfl, rfl⟩) (List.range 16) s
  unfold State.trlStart
  generalize (List.range 16).foldl (fun s n => s.wr (TRL_CTn_VAL n) 0) s = x at *
  exact h.trans ⟨rfl, rfl⟩

theorem restartAt_keeps (s : State) (k : Nat) : KeepsTime s (s.restartAt k) := by
  have h : ∀ r, KeepsTime s ({ s with trl := { s.trl with restart := none } }.trlStart r) := fun r =>
    KeepsTime.trans (u := { s with trl := { s.trl with restart := none } }) ⟨rfl, rfl⟩ (trlStart_keeps _ _)
  rw [State.restartAt]
  split
  · next r _ =>
    split
    · replace h := h r
      dsimp only
      generalize State.trlStart _ r = x at *
      exact h.trans ⟨rfl, rfl⟩
    · exact keepsTime_rfl
  · exact keepsTime_rfl

theorem restartDue_keeps (s : State) : KeepsTime s s.restartDue := by
  rw [State.restartDue]
  split
  · exact keepsTime_rfl
  · exact restartAt_keeps ..

theorem barRead_keeps (s : State) (a : Nat) : KeepsTime s (s.barRead a).2 := by
  have h : ∀ b, KeepsTime s { State.capture b s with free := s.free + 2 } := fun b => by
    rw [State.capture]
    split <;> exact ⟨rfl, rfl⟩
  rw [State.barRead]
  dsimp only
  split
  · exact (h _).trans (keepsTime_of_met (metErrors_cellRead _ _ _ _))
  · exact h _

theorem regRead_keeps (s : State) (a : Nat) : KeepsTime s (s.regRead a).2 :=
  ((freshen_keeps s a).trans (restartDue_keeps _)).trans (barRead_keeps _ a)

/-! ### The script goes on, or stops with an error -/

theorem setScript_shows {s u : State} {k : Script} (hu : u = s.setScript (some k)) :
    u.hks = { s.hks with script := some k } ∧ u.tmb = s.tmb ∧ u.scr = s.scr ∧ SameRegs s u [HKS_STAT_running, HKS_STAT_script]
      ∧ SameRest s { u with hks := s.hks } := by
  subst hu
  refine ⟨rfl, rfl, rfl, fun f hf => ?_, rfl⟩
  simp only [List.map_cons, List.map_nil, List.mem_cons, List.not_mem_nil, or_false, not_or] at hf
  rw [State.setScript, State.rd_wr_ne _ _ _ _ (Ne.symm hf.2), State.rd_wr_ne _ _ _ _ (Ne.symm hf.1)]
  exact State.rd_mk ..

theorem stopScript_shows {s u : State} (hu : u = s.setScript none) :
    u.hks = { s.hks with script := none } ∧ u.tmb = s.tmb ∧ u.rd HKS_STAT_running = 0 ∧ SameRegs s u [HKS_STAT_running, HKS_STAT_script]
      ∧ SameRest s { u with hks := s.hks } := by
  subst hu
  refine ⟨rfl, rfl, ?_, fun f hf => ?_, rfl⟩
  · rw [State.setScript, State.rd_wr_ne _ _ _ _ (by decide)]
    exact State.rd_wr_same _ _ _
  simp only [List.map_cons, List.map_nil, List.mem_cons, List.not_mem_nil, or_false, not_or] at hf
  rw [State.setScript, State.rd_wr_ne _ _ _ _ (Ne.symm hf.2), State.rd_wr_ne _ _ _ _ (Ne.symm hf.1)]
  exact State.rd_mk ..

/-- A script that stops with an error, its registers written but not its entry in the black box. -/
def State.errRegs (s : State) (k : Script) (e : Nat) : State :=
  ((((s.setScript none).wr HKS_STAT_err e).wr HKS_STAT_err_script k.kind).wr HKS_ERR_PC_pc k.pc).orF HKS_EVT_bits 4

/-- Where the configuration script stops, start-up ends with the script's error. -/
def State.endBoot (s : State) (k : Script) (e : Nat) : State := if k.kind = 8 then (s.wr HKS_BOOT_err e).bootDone else s

theorem scriptErr_eq (s : State) (k : Script) (e : Nat) :
    s.scriptErr k e = State.endBoot ((State.errRegs s k e).bbox 0x06 k.kind (e * 2 ^ 24 + k.pc % 2 ^ 24)) k e := rfl

theorem errRegs_shows {s u : State} {k : Script} {e : Nat} (hu : u = State.errRegs s k e) (he : e < 2 ^ 8) :
    u.hks = { s.hks with script := none } ∧ u.tmb = s.tmb ∧ u.rd HKS_STAT_running = 0 ∧ u.rd HKS_STAT_err = e
      ∧ u.rd HKS_STAT_err_script = k.kind % 16 ∧ u.rd HKS_ERR_PC_pc = k.pc % 2 ^ 24 ∧ bit (u.rd HKS_EVT_bits) 2 = true := by
  obtain ⟨h1, h2, h3, -⟩ := stopScript_shows (s := s) rfl
  subst hu
  unfold State.errRegs
  generalize s.setScript none = x at *
  refine ⟨h1, h2, ?_, ?_, ?_, ?_, bit_rd_orF _ HKS_EVT_bits 2 (by decide)⟩
  · rw [rd_orF_ne _ _ _ _ (by decide), State.rd_wr_ne _ _ _ _ (by decide), State.rd_wr_ne _ _ _ _ (by decide), State.rd_wr_ne _ _ _ _ (by decide), h3]
  · rw [rd_orF_ne _ _ _ _ (by decide), State.rd_wr_ne _ _ _ _ (by decide), State.rd_wr_ne _ _ _ _ (by decide)]
    exact (State.rd_wr_same _ _ _).trans (Nat.mod_eq_of_lt he)
  · rw [rd_orF_ne _ _ _ _ (by decide), State.rd_wr_ne _ _ _ _ (by decide)]
    exact State.rd_wr_same _ _ _
  · rw [rd_orF_ne _ _ _ _ (by decide)]
    exact State.rd_wr_same _ _ _

theorem endBoot_shows {s u : State} {k : Script} {e : Nat} (hu : u = State.endBoot s k e) (he : e < 2 ^ 8) :
    u.hks.script = s.hks.script ∧ u.tmb = s.tmb ∧ SameRegs s u [HKS_BOOT_err, HKS_BOOT_done] ∧ (k.kind = 8 → u.rd HKS_BOOT_err = e ∧ u.rd HKS_BOOT_done = 1) := by
  subst hu
  unfold State.endBoot
  split
  · refine ⟨rfl, rfl, fun f hf => ?_, fun _ => ⟨?_, (State.rd_mk ..).trans (State.rd_wr_same _ _ _)⟩⟩
    · simp only [List.map_cons, List.map_nil, List.mem_cons, List.not_mem_nil, or_false, not_or] at hf
      exact (State.rd_mk ..).trans ((State.rd_wr_ne _ _ _ _ (Ne.symm hf.2)).trans (State.rd_wr_ne _ _ _ _ (Ne.symm hf.1)))
    · exact (State.rd_mk ..).trans ((State.rd_wr_ne _ _ _ _ (by decide)).trans ((State.rd_wr_same _ _ _).trans (Nat.mod_eq_of_lt he)))
  · next hk => exact ⟨rfl, rfl, fun f _ => rfl, fun h => absurd h hk⟩

/-- The script stops with an error (R381). -/
theorem scriptErr_shows {s u : State} {k : Script} {e : Nat} (hu : u = s.scriptErr k e) (he : e < 2 ^ 8) :
    u.hks.script = none ∧ u.rd HKS_STAT_running = 0 ∧ u.rd HKS_STAT_err = e ∧ u.rd HKS_STAT_err_script = k.kind % 16 ∧ u.rd HKS_ERR_PC_pc = k.pc % 2 ^ 24
      ∧ bit (u.rd HKS_EVT_bits) 2 = true ∧ (k.kind = 8 → u.rd HKS_BOOT_err = e ∧ u.rd HKS_BOOT_done = 1) ∧ u.tmb = s.tmb := by
  rw [scriptErr_eq] at hu
  obtain ⟨h1, h2, h3, h4, h5, h6, h7⟩ := errRegs_shows (s := s) (k := k) rfl he
  generalize State.errRegs s k e = x at *
  have hr : ∀ f : Fld, f.key ∉ bboxFlds.map Fld.key → (x.bbox 0x06 k.kind (e * 2 ^ 24 + k.pc % 2 ^ 24)).rd f = x.rd f := fun f hf => State.rd_bbox _ _ _ _ hf
  obtain ⟨F, B, hb⟩ := x.bbox_moves 0x06 k.kind (e * 2 ^ 24 + k.pc % 2 ^ 24)
  have hh : (x.bbox 0x06 k.kind (e * 2 ^ 24 + k.pc % 2 ^ 24)).hks = x.hks := by rw [hb]
  have ht : (x.bbox 0x06 k.kind (e * 2 ^ 24 + k.pc % 2 ^ 24)).tmb = x.tmb := by rw [hb]
  generalize x.bbox 0x06 k.kind (e * 2 ^ 24 + k.pc % 2 ^ 24) = y at *
  obtain ⟨g1, g2, g3, g4⟩ := endBoot_shows hu he
  refine ⟨by rw [g1, hh, h1], ?_, ?_, ?_, ?_, ?_, g4, by rw [g2, ht, h2]⟩
  · rw [g3 _ (by decide), hr _ (by decide), h3]
  · rw [g3 _ (by decide), hr _ (by decide), h4]
  · rw [g3 _ (by decide), hr _ (by decide), h5]
  · rw [g3 _ (by decide), hr _ (by decide), h6]
  · rw [g3 _ (by decide), hr _ (by decide), h7]

theorem scriptSkip_goes {s : State} {k : Script} {n skip : Nat} (h : skip = 0 ∨ k.pc + n + skip ≤ k.len) :
    s.scriptSkip k n skip = s.setScript (some { k with pc := k.pc + (n + skip), poll := none }) := by
  rw [← Nat.add_assoc]
  exact if_neg (by omega)

theorem scriptSkip_stops {s : State} {k : Script} {n skip : Nat} (h0 : skip ≠ 0) (h : k.len < k.pc + n + skip) : s.scriptSkip k n skip = s.scriptErr k 0x12 :=
  if_pos ⟨h, h0⟩

end Sys2Proof.Machine
end

