-- ==== Sys2Proof/Proofs/ScriptOperations.lean ====
section
/-! PROOFS. The operations of a housekeeping script (O51). -/

namespace Sys2Proof.Machine

/-! ### WRITE and RMW -/

section Writes

variable {s : State} {k : Script}

theorem opWrite_misaligned (h : s.argAddr k % 4 ≠ 0) : State.opWrite k s = s.scriptErr k 0x15 := if_pos h

theorem opWrite_eq (h : s.argAddr k % 4 = 0) : State.opWrite k s =
    State.writeAll k (s.opWords k) ((List.range (s.opWords k - 2)).map fun i => s.arg k (2 + i)) (s.argAddr k) s := if_neg (fun k => k h)

theorem opWrite_one (h : s.argAddr k % 4 = 0) (hn : s.opWords k = 3) :
    State.opWrite k s = State.writeAll k 3 [s.arg k 2] (s.argAddr k) s := by
  rw [opWrite_eq h, hn]
  rfl

theorem opWrite_barred (h : s.argAddr k % 4 = 0) (hn : s.opWords k = 3) (hb : s.barred k (s.argAddr k) = true) :
    State.opWrite k s = s.scriptErr k 0x15 := by
  rw [opWrite_one h hn]
  exact if_pos hb

theorem opWrite_open (h : s.argAddr k % 4 = 0) (hn : s.opWords k = 3) (hb : s.barred k (s.argAddr k) = false) :
    State.opWrite k s = (State.portWrite .script (s.argAddr k) 15 (s.arg k 2) s).scriptSkip k 3 0 := by
  rw [opWrite_one h hn]
  exact if_neg (by rw [hb]; exact Bool.false_ne_true)

/-- A script writes STP_IRQ_EN, which has no effect but its value. -/
theorem write_stpIrqEn {u : State} {v : Nat} (hr : Reaches .script STP_IRQ_EN_en.addr s) (hu : u = State.portWrite .script STP_IRQ_EN_en.addr 15 v s) :
    u.rd STP_IRQ_EN_en = STP_IRQ_EN_en.of v ∧ u.hks = s.hks ∧ u.tmb = s.tmb ∧ SameRegs s u [STP_IRQ_EN_en] := by
  have he : u = State.reSignal STP_IRQ_EN_en.addr (stored [STP_IRQ_EN_en] v s .script) := by
    rw [hu, portWrite_stores_mod .script STP_IRQ_EN_en.addr v s [STP_IRQ_EN_en] hr (by decide) (by decide) (by simp [State.closed, STP_IRQ_EN_en]) rfl (by rfl)]
    rfl
  obtain ⟨q, hq⟩ := State.reSignal_moves STP_IRQ_EN_en.addr (stored [STP_IRQ_EN_en] v s .script)
  have hrd : ∀ f, u.rd f = (stored [STP_IRQ_EN_en] v s .script).rd f := fun f => by rw [he, State.rd_reSignal]
  obtain ⟨F, b, hm⟩ := stored_moves [STP_IRQ_EN_en] v s .script
  refine ⟨?_, by rw [he, hq, hm], by rw [he, hq, hm], fun f hf => by rw [hrd, rd_stored_ne _ _ _ hf]⟩
  rw [hrd, rd_stored v s .script (by decide) (by decide), Fld.stored_word _ _ rfl (by decide) (by decide)]
  exact Nat.mod_mod _ _

theorem opRmw_bad (h : s.argAddr k % 4 ≠ 0 ∨ s.barred k (s.argAddr k) = true) : State.opRmw k s = s.scriptErr k 0x15 := if_pos h

theorem opRmw_eq (h : s.argAddr k % 4 = 0) (hb : s.barred k (s.argAddr k) = false) : State.opRmw k s =
    (State.portWrite .script (s.argAddr k) 15 (((s.regRead (s.argAddr k)).1 &&& (s.arg k 1 ^^^ 0xFFFFFFFF)) ||| (s.arg k 2 &&& s.arg k 1))
      (s.regRead (s.argAddr k)).2).scriptSkip k 3 0 :=
  if_neg (fun x => x.elim (fun y => y h) (fun y => by rw [hb] at y; exact Bool.false_ne_true y))

end Writes

/-! ### POLL and the branches -/

section Polls

variable {s : State} {k : Script}

theorem opPoll_none (h : s.arg k 3 % 2 ^ 24 = 0) : State.opPoll k s = s.scriptErr k 0x10 := if_pos h

theorem opPoll_misaligned (h : s.arg k 3 % 2 ^ 24 ≠ 0) (ha : s.argAddr k % 4 ≠ 0) : State.opPoll k s = s.scriptErr k 0x15 := (if_neg h).trans (if_pos ha)

theorem opPoll_eq (h : s.arg k 3 % 2 ^ 24 ≠ 0) (ha : s.argAddr k % 4 = 0) : State.opPoll k s =
    s.setScript (some { k with poll := some (s.argAddr k, s.arg k 1, s.arg k 2, s.tmb.kt + s.arg k 3 % 2 ^ 24 * usF, bit (s.arg k 0) 26) }) :=
  (if_neg h).trans (if_neg fun x => x ha)

theorem opStatus_misaligned (h : s.argAddr k % 4 ≠ 0) : State.opStatus k s = s.scriptErr k 0x15 := if_pos h

theorem opStatus_eq (h : s.argAddr k % 4 = 0) : State.opStatus k s = (s.regRead (s.argAddr k)).2.scriptSkip k 4
    (if decide ((s.regRead (s.argAddr k)).1 &&& s.arg k 1 = s.arg k 2) = bit (s.arg k 0) 26 then 0 else s.arg k 3 % 65536) :=
  if_neg fun x => x h

end Polls

/-! ### CALL_EVENT and END -/

section Calls

variable {s : State} {k : Script}

/-- The event that a CALL_EVENT names, the offset of its body in the scratchpad, and the body. -/
def State.callEvent (s : State) (k : Script) : Nat := s.arg k 0 / 2 ^ 24 % 16
def State.callOfs (s : State) (k : Script) : Nat := s.arg k 0 % 65536
def State.callLen (s : State) (k : Script) : Nat := s.arg k 1 % 65536
def State.callBody (s : State) (k : Script) : List Nat := (List.range (s.callLen k)).map fun i => s.arg k (2 + i)

/-- The event is bound to the body copied to the scratchpad. -/
def State.called (s : State) (e o : Nat) (body : List Nat) : State :=
  let s1 : State := { s with scr := s.scr.write o (body.flatMap (le 4)) }
  (s1.wr (HKS_EVSCRe_bound e) 1).wr (HKS_EVSCRe_ofs e) o

theorem opCall_eq (k : Script) (s : State) : State.opCall k s =
    if k.kind ≠ 8 ∨ s.callEvent k = 0 ∨ 8 ≤ s.callEvent k then s.scriptErr k 0x14
    else if s.callOfs k % 4 ≠ 0 ∨ 0xFF00 < s.callOfs k + 4 * s.callLen k then s.scriptErr k 0x12
    else if s.callLen k = 0 then (s.wr (HKS_EVSCRe_bound (s.callEvent k)) 0).scriptSkip k 2 0
    else if (s.callBody k).getLast? ≠ some endWord then s.scriptErr k 0x14
    else (s.called (s.callEvent k) (s.callOfs k) (s.callBody k)).scriptSkip k (2 + s.callLen k) 0 := rfl

/-- What the fields of an event script have between them and the status of the sequencer. -/
theorem event_apart (e : Nat) : (HKS_EVSCRe_bound e).key ≠ (HKS_EVSCRe_ofs e).key ∧ (HKS_EVSCRe_bound e).key ≠ HKS_STAT_running.key
    ∧ (HKS_EVSCRe_bound e).key ≠ HKS_STAT_script.key ∧ (HKS_EVSCRe_ofs e).key ≠ HKS_STAT_running.key
    ∧ (HKS_EVSCRe_ofs e).key ≠ HKS_STAT_script.key := by
  simp only [Fld.key, HKS_EVSCRe_bound, HKS_EVSCRe_ofs, HKS_STAT_running, HKS_STAT_script]
  omega

theorem opCall_unbinds {u : State} (h1 : ¬(k.kind ≠ 8 ∨ s.callEvent k = 0 ∨ 8 ≤ s.callEvent k))
    (h2 : ¬(s.callOfs k % 4 ≠ 0 ∨ 0xFF00 < s.callOfs k + 4 * s.callLen k)) (h3 : s.callLen k = 0) (hu : u = State.opCall k s) :
    u.rd (HKS_EVSCRe_bound (s.callEvent k)) = 0 ∧ u.hks = { s.hks with script := some { k with pc := k.pc + 2, poll := none } } ∧ u.tmb = s.tmb
      ∧ SameRegs s u [HKS_EVSCRe_bound (s.callEvent k), HKS_STAT_running, HKS_STAT_script] ∧ SameRest s { u with hks := s.hks } := by
  rw [opCall_eq, if_neg h1, if_neg h2, if_pos h3, scriptSkip_goes (.inl rfl)] at hu
  obtain ⟨-, a2, a3, -, -⟩ := event_apart (s.callEvent k)
  generalize s.callEvent k = e at *
  obtain ⟨g1, g2, -, g4, -⟩ := setScript_shows hu
  have g5 : SameRest s { u with hks := s.hks } := by
    rw [hu]
    rfl
  refine ⟨?_, g1, g2, fun f hf => ?_, g5⟩
  · rw [g4 _ (by simp only [List.map_cons, List.map_nil, List.mem_cons, List.not_mem_nil, or_false, not_or]; exact ⟨a2, a3⟩)]
    exact State.rd_wr_same _ _ _
  · simp only [List.map_cons, List.map_nil, List.mem_cons, List.not_mem_nil, or_false, not_or] at hf
    rw [g4 f (by simp only [List.map_cons, List.map_nil, List.mem_cons, List.not_mem_nil, or_false, not_or]; exact hf.2), State.rd_wr_ne _ _ _ _ (Ne.symm hf.1)]

theorem called_shows {u : State} {e o : Nat} {body : List Nat} (hu : u = s.called e o body) (ho : o < 2 ^ 16) :
    u.rd (HKS_EVSCRe_bound e) = 1 ∧ u.rd (HKS_EVSCRe_ofs e) = o ∧ u.scr = s.scr.write o (body.flatMap (le 4)) ∧ u.hks = s.hks ∧ u.tmb = s.tmb
      ∧ SameRegs s u [HKS_EVSCRe_bound e, HKS_EVSCRe_ofs e] := by
  obtain ⟨a1, -⟩ := event_apart e
  subst hu
  refine ⟨?_, (State.rd_wr_same _ _ _).trans (Nat.mod_eq_of_lt ho), rfl, rfl, rfl, fun f hf => ?_⟩
  · rw [State.called, State.rd_wr_ne _ _ _ _ (Ne.symm a1)]
    exact State.rd_wr_same _ _ _
  · simp only [List.map_cons, List.map_nil, List.mem_cons, List.not_mem_nil, or_false, not_or] at hf
    rw [State.called, State.rd_wr_ne _ _ _ _ (Ne.symm hf.2), State.rd_wr_ne _ _ _ _ (Ne.symm hf.1)]
    exact State.rd_mk ..

theorem opCall_binds {u : State} (h1 : ¬(k.kind ≠ 8 ∨ s.callEvent k = 0 ∨ 8 ≤ s.callEvent k))
    (h2 : ¬(s.callOfs k % 4 ≠ 0 ∨ 0xFF00 < s.callOfs k + 4 * s.callLen k)) (h3 : s.callLen k ≠ 0) (h4 : (s.callBody k).getLast? = some endWord)
    (hu : u = State.opCall k s) :
    u.rd (HKS_EVSCRe_bound (s.callEvent k)) = 1 ∧ u.rd (HKS_EVSCRe_ofs (s.callEvent k)) = s.callOfs k
      ∧ u.scr = s.scr.write (s.callOfs k) ((s.callBody k).flatMap (le 4))
      ∧ u.hks = { s.hks with script := some { k with pc := k.pc + (2 + s.callLen k), poll := none } } ∧ u.tmb = s.tmb
      ∧ SameRegs s u [HKS_EVSCRe_bound (s.callEvent k), HKS_EVSCRe_ofs (s.callEvent k), HKS_STAT_running, HKS_STAT_script]
      ∧ SameRest s { u with hks := s.hks, scr := s.scr } := by
  rw [opCall_eq, if_neg h1, if_neg h2, if_neg h3, if_neg (not_not.2 h4), scriptSkip_goes (.inl rfl), Nat.add_zero] at hu
  have ho : s.callOfs k < 2 ^ 16 := Nat.mod_lt _ (by decide)
  obtain ⟨-, a2, a3, a4, a5⟩ := event_apart (s.callEvent k)
  generalize s.callEvent k = e at *
  generalize s.callOfs k = o at *
  have g5 : SameRest s { u with hks := s.hks, scr := s.scr } := by
    rw [hu]
    rfl
  obtain ⟨c1, c2, c3, c4, c5, c6⟩ := called_shows (s := s) (e := e) (body := s.callBody k) rfl ho
  generalize s.called e o (s.callBody k) = w at *
  obtain ⟨g1, g2, g3, g4, -⟩ := setScript_shows hu
  have hk : ∀ f : Fld, f.key ≠ HKS_STAT_running.key → f.key ≠ HKS_STAT_script.key → u.rd f = w.rd f := fun f h h' =>
    g4 f (by simp only [List.map_cons, List.map_nil, List.mem_cons, List.not_mem_nil, or_false, not_or]; exact ⟨h, h'⟩)
  refine ⟨by rw [hk _ a2 a3, c1], by rw [hk _ a4 a5, c2], by rw [g3, c3], by rw [g1, c4], by rw [g2, c5], fun f hf => ?_, g5⟩
  · simp only [List.map_cons, List.map_nil, List.mem_cons, List.not_mem_nil, or_false, not_or] at hf
    obtain ⟨f1, f2, f3, f4⟩ := hf
    rw [hk f f3 f4, c6 f (by simp only [List.map_cons, List.map_nil, List.mem_cons, List.not_mem_nil, or_false, not_or]; exact ⟨f1, f2⟩)]

theorem scriptEnd_shows {u : State} (hu : u = s.scriptEnd k) :
    u.hks.script = none ∧ u.rd HKS_STAT_running = 0 ∧ u.tmb = s.tmb
      ∧ (k.kind = 8 → u.rd HKS_BOOT_done = 1 ∧ u.hks.step = 6 ∧ bit (u.rd HKS_EVT_bits) 0 = true ∧ u.hks.armBoot = true
          ∧ u.rd HKS_CFG_arm_boot = s.hks.iflags / 2 % 2 ∧ u.rd HKS_CFG_arm_wake = s.hks.iflags / 4 % 2)
      ∧ (k.kind ≠ 8 → SameRegs s u [HKS_STAT_running, HKS_STAT_script] ∧ SameRest s { u with hks := s.hks }) := by
  obtain ⟨h1, h2, h3, h4, h5⟩ := stopScript_shows (s := s) rfl
  rw [State.scriptEnd] at hu
  generalize s.setScript none = x at *
  by_cases hk : k.kind = 8
  · rw [if_pos hk] at hu
    have hrd : ∀ f : Fld, u.rd f = (((x.bootDone.orF HKS_EVT_bits 1).wr HKS_CFG_arm_boot (s.hks.iflags / 2)).wr HKS_CFG_arm_wake (s.hks.iflags / 4)).rd f :=
      fun f => by rw [hu]; exact State.rd_mk ..
    have hd : ∀ f : Fld, f.key ≠ HKS_BOOT_done.key → x.bootDone.rd f = x.rd f := fun f hf => (State.rd_mk ..).trans (State.rd_wr_ne _ _ _ _ (Ne.symm hf))
    have hd1 : x.bootDone.rd HKS_BOOT_done = 1 := (State.rd_mk ..).trans (State.rd_wr_same _ _ _)
    have hh : u.hks = { x.hks with step := 6, armBoot := true } ∧ u.tmb = x.tmb := by
      rw [hu]
      exact ⟨rfl, rfl⟩
    generalize x.bootDone = y at *
    refine ⟨by rw [hh.1, h1], ?_, by rw [hh.2, h2], fun _ => ⟨?_, by rw [hh.1], ?_, by rw [hh.1], ?_, ?_⟩, fun h => absurd hk h⟩
    · rw [hrd, State.rd_wr_ne _ _ _ _ (by decide), State.rd_wr_ne _ _ _ _ (by decide), rd_orF_ne _ _ _ _ (by decide), hd _ (by decide), h3]
    · rw [hrd, State.rd_wr_ne _ _ _ _ (by decide), State.rd_wr_ne _ _ _ _ (by decide), rd_orF_ne _ _ _ _ (by decide), hd1]
    · rw [hrd, State.rd_wr_ne _ _ _ _ (by decide), State.rd_wr_ne _ _ _ _ (by decide)]
      exact bit_rd_orF _ HKS_EVT_bits 0 (by decide)
    · rw [hrd, State.rd_wr_ne _ _ _ _ (by decide)]
      exact State.rd_wr_same _ _ _
    · rw [hrd]
      exact State.rd_wr_same _ _ _
  · rw [if_neg hk] at hu
    subst hu
    exact ⟨by rw [h1], h3, h2, fun h => absurd h hk, fun _ => ⟨h4, h5⟩⟩

end Calls

end Sys2Proof.Machine
end

