-- ==== Sys2Proof/Proofs/ScriptCourse.lean ====
section
/-! PROOFS. What the commands of a housekeeping script answer (O51). -/

namespace Sys2Proof

open Machine

/-- The script has stopped with an error at `t` (R381). -/
def Errs (s : State) (k : Script) (t e : Nat) (u : State) : Prop :=
  u.hks.script = none ∧ u.rd HKS_STAT_running = 0 ∧ u.rd HKS_STAT_err = e
    ∧ u.rd HKS_STAT_err_script = k.kind % 16 ∧ u.rd HKS_ERR_PC_pc = k.pc % 2 ^ 24 ∧ bit (u.rd HKS_EVT_bits) 2 = true
    ∧ (k.kind = 8 → u.rd HKS_BOOT_err = e ∧ u.rd HKS_BOOT_done = 1) ∧ TimeAt s u t

/-- The script has gone on to the word `n` words behind at `t`. -/
def Goes (s : State) (k : Script) (t n : Nat) (u : State) : Prop := u.hks.script = some { k with pc := k.pc + n, poll := none } ∧ TimeAt s u t

theorem timeAt_of {s y u : State} {t : Nat} (h : TimeAt s y t) (ht : u.tmb = y.tmb) : TimeAt s u t := by
  rw [TimeAt, ht]
  exact h

theorem errs_scriptErr {s y : State} {k : Script} {t e : Nat} (h : TimeAt s y t) (he : e < 2 ^ 8) : Errs s k t e (y.scriptErr k e) := by
  obtain ⟨h1, h2, h3, h4, h5, h6, h7, h8⟩ := scriptErr_shows (s := y) (k := k) rfl he
  exact ⟨h1, h2, h3, h4, h5, h6, h7, timeAt_of h h8⟩

theorem goes_scriptSkip {s y : State} {k : Script} {t n skip : Nat} (h : TimeAt s y t) (hf : skip = 0 ∨ k.pc + n + skip ≤ k.len) :
    Goes s k t (n + skip) (y.scriptSkip k n skip) ∧ SameRegs y (y.scriptSkip k n skip) [HKS_STAT_running, HKS_STAT_script]
      ∧ SameRest y { y.scriptSkip k n skip with hks := y.hks } := by
  rw [scriptSkip_goes hf]
  obtain ⟨h1, h2, -, h4, h5⟩ := setScript_shows (s := y) (k := { k with pc := k.pc + (n + skip), poll := none }) rfl
  exact ⟨⟨by rw [h1], timeAt_of h h2⟩, h4, h5⟩

/-- The operation that is next has begun at `t` in the state `y`: what its command does from there is what it answers. -/
structure Begins (s : State) (k : Script) (t : Nat) (y : State) : Prop where
  power : Powered s
  script : s.hks.script = some k
  same : SameScript s y
  time : TimeAt s y t
  runs : ∀ op f, s.scriptOp k = op → State.scriptStep op t f s = f k y

theorem begins_begun {s : State} {k : Script} {t : Nat} (hp : Powered s) (hr : s.ready = some k) (he : s.fetchErr k = none) (h : s.opReach k = true) :
    Begins s k t (s.begun k t) :=
  ⟨hp, script_of_ready hr, (begun_same s k t).1, (begun_same s k t).2, fun _ f ho => scriptStep_runs _ f hr he ho h⟩

section Operations

variable {s y : State} {k : Script} {t : Nat} (hb : Begins s k t y)
include hb

theorem Begins.answers {c : Instr} {op : Nat} {f : Script → State → State} {P : State → Prop}
    (hc : exec c s = State.performOnAt t (State.scriptStep op t f) s) (ho : s.scriptOp k = op) (h : P (f k y)) : Answers c s P := by
  refine .of_performOnAt hc hb.power ?_
  rw [hb.runs op f ho]
  exact h

theorem write_answers (ho : s.scriptOp k = 1) (hreach : s.opReach k = true) :
    (s.argAddr k % 4 ≠ 0 → Answers (.write t) s (Errs s k t 0x15))
    ∧ (s.argAddr k % 4 = 0 → s.opWords k = 3 → s.barred k (s.argAddr k) = true → Answers (.write t) s (Errs s k t 0x15))
    ∧ (s.argAddr k % 4 = 0 → Answers (.write t) s fun u => u = State.writeAll k (s.opWords k)
          ((List.range (s.opWords k - 2)).map fun i => s.arg k (2 + i)) (s.argAddr k) y)
    ∧ (s.argAddr k = STP_IRQ_EN_en.addr → s.opWords k = 3 → Answers (.write t) s fun u =>
        u.rd STP_IRQ_EN_en = STP_IRQ_EN_en.of (s.arg k 2) ∧ Goes s k t 3 u ∧ SameRegs y u [STP_IRQ_EN_en, HKS_STAT_running, HKS_STAT_script]) := by
  have ha := hb.same.argAddr k
  refine ⟨fun h => hb.answers (exec_write t s) ho ?_, fun h hn hbar => hb.answers (exec_write t s) ho ?_, fun h => hb.answers (exec_write t s) ho ?_,
    fun h hn => hb.answers (exec_write t s) ho ?_⟩
  · rw [opWrite_misaligned (by rwa [ha])]
    exact errs_scriptErr hb.time (by decide)
  · rw [opWrite_barred (by rwa [ha]) ((hb.same.opWords k).trans hn) (by rw [ha, hb.same.barred, hbar])]
    exact errs_scriptErr hb.time (by decide)
  · rw [opWrite_eq (by rwa [ha]), hb.same.opWords, ha]
    simp only [hb.same.arg]
  · have hcore : s.coreRun = true := by
      unfold State.opReach at hreach
      rw [ho] at hreach
      rw [h] at hreach
      have hr := (Bool.and_eq_true_iff.1 hreach).1
      unfold State.scriptReach at hr
      rwa [show ([1, 2, 19] : List Nat).contains (STP_IRQ_EN_en.addr % 2 ^ 26 / 0x10000) = false from by decide, Bool.and_false, Bool.or_false] at hr
    have hr : Reaches .script STP_IRQ_EN_en.addr y := by
      refine ⟨hb.same.dead.trans hb.power.1, hb.same.core.trans hcore, ?_⟩
      show y.hks.script.isSome = true
      rw [hb.same.hks, hb.script]
      rfl
    have hbar : y.barred k STP_IRQ_EN_en.addr = false := rfl
    rw [opWrite_open (by rw [ha, h]; decide) ((hb.same.opWords k).trans hn) (by rw [ha, h, hbar]), ha, h, hb.same.arg]
    obtain ⟨h1, h2, h3, h4⟩ := write_stpIrqEn (v := s.arg k 2) hr rfl
    generalize State.portWrite .script STP_IRQ_EN_en.addr 15 (s.arg k 2) y = z at *
    obtain ⟨g1, g2, -⟩ := goes_scriptSkip (k := k) (n := 3) (skip := 0) (timeAt_of hb.time h3) (.inl rfl)
    refine ⟨by rw [g2 _ (by decide), h1], g1, fun f hf => ?_⟩
    simp only [List.map_cons, List.map_nil, List.mem_cons, List.not_mem_nil, or_false, not_or] at hf
    rw [g2 f (by simp only [List.map_cons, List.map_nil, List.mem_cons, List.not_mem_nil, or_false, not_or]; exact hf.2), h4 f (by simpa using hf.1)]

theorem rmw_answers (ho : s.scriptOp k = 2) :
    (s.argAddr k % 4 ≠ 0 ∨ s.barred k (s.argAddr k) = true → Answers (.rmw t) s (Errs s k t 0x15))
    ∧ (s.argAddr k % 4 = 0 → s.barred k (s.argAddr k) = false → Answers (.rmw t) s fun u => ∃ v : Nat, ∃ s1 : State, (v, s1) = y.regRead (s.argAddr k)
        ∧ u = (State.portWrite .script (s.argAddr k) 15 ((v &&& (s.arg k 1 ^^^ 0xFFFFFFFF)) ||| (s.arg k 2 &&& s.arg k 1)) s1).scriptSkip k 3 0) := by
  have ha := hb.same.argAddr k
  refine ⟨fun h => hb.answers (exec_rmw t s) ho ?_, fun h hbar => hb.answers (exec_rmw t s) ho ⟨(y.regRead (s.argAddr k)).1, (y.regRead (s.argAddr k)).2, rfl, ?_⟩⟩
  · rw [opRmw_bad (by rwa [ha, hb.same.barred])]
    exact errs_scriptErr hb.time (by decide)
  · rw [opRmw_eq (by rwa [ha]) (by rw [ha, hb.same.barred, hbar]), ha, hb.same.arg, hb.same.arg]

theorem poll_answers (ho : s.scriptOp k = 3) :
    (s.arg k 3 % 2 ^ 24 = 0 → Answers (.poll t) s (Errs s k t 0x10))
    ∧ (s.arg k 3 % 2 ^ 24 ≠ 0 → s.argAddr k % 4 ≠ 0 → Answers (.poll t) s (Errs s k t 0x15))
    ∧ (s.arg k 3 % 2 ^ 24 ≠ 0 → s.argAddr k % 4 = 0 → Answers (.poll t) s fun u =>
        u.hks.script = some { k with poll := some (s.argAddr k, s.arg k 1, s.arg k 2, max s.tmb.kt t + s.arg k 3 % 2 ^ 24 * usF, bit (s.arg k 0) 26) }
          ∧ TimeAt s u t ∧ SameRegs y u [HKS_STAT_running, HKS_STAT_script] ∧ SameRest y { u with hks := s.hks }) := by
  have ha := hb.same.argAddr k
  have ht : y.tmb.kt = max s.tmb.kt t := hb.time
  refine ⟨fun h => hb.answers (exec_poll t s) ho ?_, fun h h4 => hb.answers (exec_poll t s) ho ?_, fun h h4 => hb.answers (exec_poll t s) ho ?_⟩
  · rw [opPoll_none (by rwa [hb.same.arg])]
    exact errs_scriptErr hb.time (by decide)
  · rw [opPoll_misaligned (by rwa [hb.same.arg]) (by rwa [ha])]
    exact errs_scriptErr hb.time (by decide)
  · rw [opPoll_eq (by rwa [hb.same.arg]) (by rwa [ha]), ha, hb.same.arg, hb.same.arg, hb.same.arg, hb.same.arg, ht]
    obtain ⟨h1, h2, -, h4, h5⟩ := setScript_shows (s := y) (k := { k with poll := some (s.argAddr k, s.arg k 1, s.arg k 2, _, bit (s.arg k 0) 26) }) rfl
    exact ⟨by rw [h1], timeAt_of hb.time h2, h4, by rw [← hb.same.hks]; exact h5⟩

theorem wait_answers (ho : s.scriptOp k = 4) : Answers (.wait t) s fun u =>
    u.hks.script = some { k with pc := k.pc + 1, wait := some (max s.tmb.kt t + s.arg k 0 % 2 ^ 24 * usF) } ∧ TimeAt s u t
      ∧ SameRegs y u [HKS_STAT_running, HKS_STAT_script] ∧ SameRest y { u with hks := s.hks } := by
  have ht : y.tmb.kt = max s.tmb.kt t := hb.time
  refine hb.answers (exec_wait t s) ho ?_
  rw [State.opWait, hb.same.arg, ht]
  obtain ⟨h1, h2, -, h4, h5⟩ := setScript_shows (s := y) (k := { k with pc := k.pc + 1, wait := some (max s.tmb.kt t + s.arg k 0 % 2 ^ 24 * usF) }) rfl
  exact ⟨by rw [h1], timeAt_of hb.time h2, h4, by rw [← hb.same.hks]; exact h5⟩

theorem branchVariant_answers (ho : s.scriptOp k = 5) :
    let skip := if bit (s.arg k 0 / 2 ^ 16 % 16) s.build.variant then s.arg k 0 % 2 ^ 16 else 0
    (skip = 0 ∨ k.pc + 1 + skip ≤ k.len → Answers (.branchVariant t) s fun u => Goes s k t (1 + skip) u
        ∧ SameRegs y u [HKS_STAT_running, HKS_STAT_script] ∧ SameRest y { u with hks := s.hks })
    ∧ (skip ≠ 0 → k.len < k.pc + 1 + skip → Answers (.branchVariant t) s (Errs s k t 0x12)) := by
  intro skip
  have he : State.opVariant k y = y.scriptSkip k 1 skip := by
    rw [State.opVariant, hb.same.arg, hb.same.build]
    rfl
  refine ⟨fun h => hb.answers (exec_branchVariant t s) ho ?_, fun h hl => hb.answers (exec_branchVariant t s) ho ?_⟩
  · rw [he, ← hb.same.hks]
    exact goes_scriptSkip hb.time h
  · rw [he, scriptSkip_stops h hl]
    exact errs_scriptErr hb.time (by decide)

theorem branchStatus_answers (ho : s.scriptOp k = 6) :
    (s.argAddr k % 4 ≠ 0 → Answers (.branchStatus t) s (Errs s k t 0x15))
    ∧ (s.argAddr k % 4 = 0 →
      let met := decide ((y.regRead (s.argAddr k)).1 &&& s.arg k 1 = s.arg k 2)
      let skip := if met = bit (s.arg k 0) 26 then 0 else s.arg k 3 % 2 ^ 16
      (skip = 0 ∨ k.pc + 4 + skip ≤ k.len → Answers (.branchStatus t) s fun u => Goes s k t (4 + skip) u
          ∧ SameRegs (y.regRead (s.argAddr k)).2 u [HKS_STAT_running, HKS_STAT_script])
      ∧ (skip ≠ 0 → k.len < k.pc + 4 + skip → Answers (.branchStatus t) s (Errs s k t 0x12))) := by
  have ha := hb.same.argAddr k
  refine ⟨fun h => hb.answers (exec_branchStatus t s) ho ?_, fun h => ?_⟩
  · rw [opStatus_misaligned (by rwa [ha])]
    exact errs_scriptErr hb.time (by decide)
  intro met skip
  have he : State.opStatus k y = (y.regRead (s.argAddr k)).2.scriptSkip k 4 skip := by
    rw [opStatus_eq (by rwa [ha]), ha, hb.same.arg, hb.same.arg, hb.same.arg, hb.same.arg]
    rfl
  have ht := timeAt_of hb.time (regRead_keeps y (s.argAddr k)).2
  refine ⟨fun hl => hb.answers (exec_branchStatus t s) ho ?_, fun h0 hl => hb.answers (exec_branchStatus t s) ho ?_⟩
  · rw [he]
    obtain ⟨h1, h2, -⟩ := goes_scriptSkip (k := k) ht hl
    exact ⟨h1, h2⟩
  · rw [he, scriptSkip_stops h0 hl]
    exact errs_scriptErr ht (by decide)

theorem callEvent_answers (ho : s.scriptOp k = 7) :
    let e := s.arg k 0 / 2 ^ 24 % 16
    let o := s.arg k 0 % 2 ^ 16
    let n := s.arg k 1 % 2 ^ 16
    let body := (List.range n).map fun i => s.arg k (2 + i)
    (k.kind ≠ 8 ∨ e = 0 ∨ 8 ≤ e → Answers (.callEvent t) s (Errs s k t 0x14))
    ∧ (k.kind = 8 → 1 ≤ e → e ≤ 7 → o % 4 ≠ 0 ∨ 0xFF00 < o + 4 * n → Answers (.callEvent t) s (Errs s k t 0x12))
    ∧ (k.kind = 8 → 1 ≤ e → e ≤ 7 → o % 4 = 0 → o + 4 * n ≤ 0xFF00 →
      (n = 0 → Answers (.callEvent t) s fun u => u.rd (HKS_EVSCRe_bound e) = 0 ∧ Goes s k t 2 u
          ∧ SameRegs y u [HKS_EVSCRe_bound e, HKS_STAT_running, HKS_STAT_script] ∧ SameRest y { u with hks := s.hks })
      ∧ (n ≠ 0 → body.getLast? ≠ some endWord → Answers (.callEvent t) s (Errs s k t 0x14))
      ∧ (n ≠ 0 → body.getLast? = some endWord → Answers (.callEvent t) s fun u =>
          u.rd (HKS_EVSCRe_bound e) = 1 ∧ u.rd (HKS_EVSCRe_ofs e) = o ∧ u.scr = s.scr.write o (body.flatMap (le 4)) ∧ Goes s k t (2 + n) u
            ∧ SameRegs y u [HKS_EVSCRe_bound e, HKS_EVSCRe_ofs e, HKS_STAT_running, HKS_STAT_script]
            ∧ SameRest y { u with hks := s.hks, scr := s.scr })) := by
  intro e o n body
  have he : y.callEvent k = e := by rw [State.callEvent, hb.same.arg]
  have hofs : y.callOfs k = o := congrArg (· % 65536) (hb.same.arg k 0)
  have hn : y.callLen k = n := congrArg (· % 65536) (hb.same.arg k 1)
  have hbody : y.callBody k = body := by simp only [State.callBody, hn, hb.same.arg, body]
  have h14 : Errs s k t 0x14 (y.scriptErr k 0x14) := errs_scriptErr hb.time (by decide)
  have h12 : Errs s k t 0x12 (y.scriptErr k 0x12) := errs_scriptErr hb.time (by decide)
  refine ⟨fun h => hb.answers (exec_callEvent t s) ho ?_, fun hk h1 h7 h => hb.answers (exec_callEvent t s) ho ?_,
    fun hk h1 h7 h4 hl => ⟨fun h0 => hb.answers (exec_callEvent t s) ho ?_, fun h0 hw => hb.answers (exec_callEvent t s) ho ?_,
      fun h0 hw => hb.answers (exec_callEvent t s) ho ?_⟩⟩
  · rw [opCall_eq, he, if_pos h]
    exact h14
  · rw [opCall_eq, he, hofs, hn, if_neg (by omega), if_pos h]
    exact h12
  · obtain ⟨g1, g2, g3, g4, g5⟩ := opCall_unbinds (s := y) (k := k) (by rw [he]; omega) (by rw [hofs, hn]; omega) (hn.trans h0) rfl
    rw [he] at g1 g4
    exact ⟨g1, ⟨by rw [g2], timeAt_of hb.time g3⟩, g4, by rw [← hb.same.hks]; exact g5⟩
  · rw [opCall_eq, he, hofs, hn, hbody, if_neg (by omega), if_neg (by omega), if_neg h0, if_pos hw]
    exact h14
  · obtain ⟨g1, g2, g3, g4, g5, g6, g7⟩ := opCall_binds (s := y) (k := k) (by rw [he]; omega) (by rw [hofs, hn]; omega) (by rwa [hn]) (by rwa [hbody]) rfl
    rw [he] at g1 g2 g6
    rw [hofs] at g2 g3
    rw [hbody, hb.same.scr] at g3
    rw [hn] at g4
    exact ⟨g1, g2, g3, ⟨by rw [g4], timeAt_of hb.time g5⟩, g6, by rw [← hb.same.hks, ← hb.same.scr]; exact g7⟩

theorem endScript_answers (ho : s.scriptOp k = 8) : Answers (.endScript t) s fun u =>
    u.hks.script = none ∧ u.rd HKS_STAT_running = 0 ∧ TimeAt s u t
      ∧ (k.kind = 8 → u.rd HKS_BOOT_done = 1 ∧ u.hks.step = 6 ∧ bit (u.rd HKS_EVT_bits) 0 = true ∧ u.hks.armBoot = true
          ∧ u.rd HKS_CFG_arm_boot = s.hks.iflags / 2 % 2 ∧ u.rd HKS_CFG_arm_wake = s.hks.iflags / 4 % 2)
      ∧ (k.kind ≠ 8 → SameRegs y u [HKS_STAT_running, HKS_STAT_script] ∧ SameRest y { u with hks := s.hks }) := by
  refine hb.answers (exec_endScript t s) ho ?_
  obtain ⟨h1, h2, h3, h4, h5⟩ := scriptEnd_shows (s := y) (k := k) rfl
  rw [← hb.same.hks]
  exact ⟨h1, h2, timeAt_of hb.time h3, h4, h5⟩

end Operations

/-! ### Polls and waits under way -/

section Waits

variable {s : State} {k : Script} {t : Nat}

theorem pollMet_waits {a m v e : Nat} {cont : Bool} (hk : s.hks.script = some k) (hq : k.poll = some (a, m, v, e, cont)) (hr : s.scriptReach a = false) :
    State.pollMet t s = s.advance t := by
  obtain ⟨b, hb, -⟩ := s.advance_moves t
  have h1 : (s.advance t).hks.script = some k := by rw [hb]; exact hk
  have h2 : (s.advance t).scriptReach a = false := by rw [hb]; exact hr
  unfold State.pollMet
  dsimp only
  rw [h1]
  dsimp only
  rw [hq]
  exact if_pos (by rw [h2]; rfl)

theorem pollMet_reads {a m v e : Nat} {cont : Bool} (hk : s.hks.script = some k) (hq : k.poll = some (a, m, v, e, cont)) (hr : s.scriptReach a = true) :
    State.pollMet t s = if decide (((s.advance t).regRead a).1 &&& m = v) then ((s.advance t).regRead a).2.scriptSkip k 4 0
      else ((s.advance t).regRead a).2 := by
  obtain ⟨b, hb, -⟩ := s.advance_moves t
  have h1 : (s.advance t).hks.script = some k := by rw [hb]; exact hk
  have h2 : (s.advance t).scriptReach a = true := by rw [hb]; exact hr
  unfold State.pollMet
  dsimp only
  rw [h1]
  dsimp only
  rw [hq]
  exact if_neg (by rw [h2]; exact Bool.false_ne_true)

theorem pollTimeout_waits {a m v e : Nat} {cont : Bool} (hk : s.hks.script = some k) (hq : k.poll = some (a, m, v, e, cont))
    (hr : s.scriptReach a = false ∨ t < e) : State.pollTimeout t s = s.advance t := by
  obtain ⟨b, hb, -⟩ := s.advance_moves t
  have h1 : (s.advance t).hks.script = some k := by rw [hb]; exact hk
  have h2 : (s.advance t).scriptReach a = s.scriptReach a := by rw [hb]; rfl
  unfold State.pollTimeout
  dsimp only
  rw [h1]
  dsimp only
  rw [hq]
  refine if_pos ?_
  rw [h2, Bool.or_eq_true, Bool.not_eq_true', decide_eq_true_eq]
  exact hr

theorem pollTimeout_reads {a m v e : Nat} {cont : Bool} (hk : s.hks.script = some k) (hq : k.poll = some (a, m, v, e, cont))
    (hr : s.scriptReach a = true) (he : e ≤ t) :
    State.pollTimeout t s = if decide (((s.advance t).regRead a).1 &&& m = v) then ((s.advance t).regRead a).2.scriptSkip k 4 0
      else if cont then (((s.advance t).regRead a).2.wr HKS_STAT_poll_to 1).scriptSkip k 4 0
      else ((s.advance t).regRead a).2.scriptErr { k with poll := none } 0x11 := by
  obtain ⟨b, hb, -⟩ := s.advance_moves t
  have h1 : (s.advance t).hks.script = some k := by rw [hb]; exact hk
  have h2 : (s.advance t).scriptReach a = true := by rw [hb]; exact hr
  unfold State.pollTimeout
  dsimp only
  rw [h1]
  dsimp only
  rw [hq]
  refine if_neg ?_
  rw [h2, decide_eq_false (Nat.not_lt.2 he)]
  exact Bool.false_ne_true

theorem waitExpiry_eq {e : Nat} (hk : s.hks.script = some k) (hw : k.wait = some e) :
    State.waitExpiry t s = if e ≤ t ∧ s.mode ≠ 0 then (s.advance t).setScript (some { k with wait := none }) else s.advance t := by
  obtain ⟨b, hb, -⟩ := s.advance_moves t
  have h1 : (s.advance t).hks.script = some k := by rw [hb]; exact hk
  have h2 : (s.advance t).mode = s.mode := by rw [hb]; rfl
  unfold State.waitExpiry
  dsimp only
  rw [h1]
  dsimp only
  rw [hw, h2]

/-- What a reading of the register leaves for the poll that it was made for. -/
theorem regRead_time (s : State) (t a : Nat) : ((s.advance t).regRead a).2.hks = s.hks ∧ TimeAt s ((s.advance t).regRead a).2 t := by
  obtain ⟨h1, h2⟩ := regRead_keeps (s.advance t) a
  obtain ⟨b, hb, -⟩ := s.advance_moves t
  exact ⟨h1.trans (by rw [hb]), timeAt_of (TimeAt.advance s t) h2⟩

theorem polls_wait {a m v e : Nat} {cont : Bool} (hp : Powered s) (hk : s.hks.script = some k) (hq : k.poll = some (a, m, v, e, cont))
    (hr : s.scriptReach a = false) :
    ∀ c ∈ [Instr.pollConditionMet t, .pollTimeout t], Answers c s fun u => TimeAt s u t ∧ SameRegs s u [] ∧ SameRest s u := by
  intro c hc
  simp only [List.mem_cons, List.not_mem_nil, or_false] at hc
  rcases hc with rfl | rfl
  · refine .of_performOnAt (exec_pollConditionMet t s) hp ?_
    rw [pollMet_waits hk hq hr]
    exact unchanged_advance s t
  · refine .of_performOnAt (exec_pollTimeout t s) hp ?_
    rw [pollTimeout_waits hk hq (.inl hr)]
    exact unchanged_advance s t

theorem poll_goes {a : Nat} : Goes s k t 4 (((s.advance t).regRead a).2.scriptSkip k 4 0)
    ∧ SameRegs ((s.advance t).regRead a).2 (((s.advance t).regRead a).2.scriptSkip k 4 0) [HKS_STAT_running, HKS_STAT_script] := by
  obtain ⟨h1, h2, -⟩ := goes_scriptSkip (k := k) (n := 4) (skip := 0) (regRead_time s t a).2 (.inl rfl)
  exact ⟨h1, h2⟩

theorem polls_read {a m v e : Nat} {cont : Bool} (hp : Powered s) (hk : s.hks.script = some k) (hq : k.poll = some (a, m, v, e, cont))
    (hr : s.scriptReach a = true) :
    let s1 := ((s.advance t).regRead a).2
    let met := ((s.advance t).regRead a).1 &&& m = v
    (met → Answers (.pollConditionMet t) s fun u => Goes s k t 4 u ∧ SameRegs s1 u [HKS_STAT_running, HKS_STAT_script])
    ∧ (¬met → Answers (.pollConditionMet t) s fun u => u.hks = s.hks ∧ TimeAt s u t ∧ SameRegs s1 u [])
    ∧ (t < e → Answers (.pollTimeout t) s fun u => TimeAt s u t ∧ SameRegs s u [] ∧ SameRest s u)
    ∧ (e ≤ t → met → Answers (.pollTimeout t) s fun u => Goes s k t 4 u ∧ SameRegs s1 u [HKS_STAT_running, HKS_STAT_script])
    ∧ (e ≤ t → ¬met → cont = true → Answers (.pollTimeout t) s fun u => Goes s k t 4 u ∧ u.rd HKS_STAT_poll_to = 1
        ∧ SameRegs s1 u [HKS_STAT_running, HKS_STAT_script, HKS_STAT_poll_to])
    ∧ (e ≤ t → ¬met → cont = false → Answers (.pollTimeout t) s fun u =>
        u.hks.script = none ∧ u.rd HKS_STAT_err = 0x11 ∧ u.rd HKS_STAT_err_script = k.kind % 16 ∧ u.rd HKS_ERR_PC_pc = k.pc % 2 ^ 24 ∧ TimeAt s u t) := by
  intro s1 met
  obtain ⟨hh, ht⟩ := regRead_time s t a
  refine ⟨fun hm => .of_performOnAt (exec_pollConditionMet t s) hp ?_, fun hm => .of_performOnAt (exec_pollConditionMet t s) hp ?_,
    fun hl => .of_performOnAt (exec_pollTimeout t s) hp ?_, fun he hm => .of_performOnAt (exec_pollTimeout t s) hp ?_,
    fun he hm hc => .of_performOnAt (exec_pollTimeout t s) hp ?_, fun he hm hc => .of_performOnAt (exec_pollTimeout t s) hp ?_⟩
  · rw [pollMet_reads hk hq hr, if_pos (decide_eq_true hm)]
    exact poll_goes
  · rw [pollMet_reads hk hq hr, if_neg fun x => hm (of_decide_eq_true x)]
    exact ⟨hh, ht, fun _ _ => rfl⟩
  · rw [pollTimeout_waits hk hq (.inr hl)]
    exact unchanged_advance s t
  · rw [pollTimeout_reads hk hq hr he, if_pos (decide_eq_true hm)]
    exact poll_goes
  · rw [pollTimeout_reads hk hq hr he, if_neg fun x => hm (of_decide_eq_true x), if_pos hc]
    obtain ⟨h1, h2, -⟩ := goes_scriptSkip (s := s) (y := s1.wr HKS_STAT_poll_to 1) (k := k) (n := 4) (skip := 0) (timeAt_of ht rfl) (.inl rfl)
    refine ⟨h1, by rw [h2 _ (by decide)]; exact State.rd_wr_same _ _ _, fun f hf => ?_⟩
    simp only [List.map_cons, List.map_nil, List.mem_cons, List.not_mem_nil, or_false, not_or] at hf
    obtain ⟨f1, f2, f3⟩ := hf
    rw [h2 f (by simp only [List.map_cons, List.map_nil, List.mem_cons, List.not_mem_nil, or_false, not_or]; exact ⟨f1, f2⟩), State.rd_wr_ne _ _ _ _ (Ne.symm f3)]
  · rw [pollTimeout_reads hk hq hr he, if_neg fun x => hm (of_decide_eq_true x), if_neg (by rw [hc]; exact Bool.false_ne_true)]
    obtain ⟨h1, -, h3, h4, h5, -, -, h8⟩ := errs_scriptErr (k := { k with poll := none }) (e := 0x11) ht (by decide)
    exact ⟨h1, h3, h4, h5, h8⟩

theorem waitExpiry_answers {e : Nat} (hp : Powered s) (hk : s.hks.script = some k) (hw : k.wait = some e) :
    (e ≤ t → s.mode ≠ 0 → Answers (.waitExpiry t) s fun u => u.hks = { s.hks with script := some { k with wait := none } } ∧ TimeAt s u t
        ∧ SameRegs s u [HKS_STAT_running, HKS_STAT_script] ∧ SameRest s { u with hks := s.hks })
    ∧ (t < e ∨ s.mode = 0 → Answers (.waitExpiry t) s fun u => TimeAt s u t ∧ SameRegs s u [] ∧ SameRest s u) := by
  refine ⟨fun he hm => .of_performOnAt (exec_waitExpiry t s) hp ?_, fun h => .of_performOnAt (exec_waitExpiry t s) hp ?_⟩
  · rw [waitExpiry_eq hk hw, if_pos ⟨he, hm⟩]
    obtain ⟨h1, h2, -, h4, -⟩ := setScript_shows (s := s.advance t) (k := { k with wait := none }) rfl
    obtain ⟨b, hb, -⟩ := s.advance_moves t
    refine ⟨h1.trans (by rw [hb]), timeAt_of (TimeAt.advance s t) h2, fun f hf => (h4 f hf).trans (State.rd_advance s t f), ?_⟩
    rw [hb]
    exact sameRest_mk_hrv s _ _ _
  · rw [waitExpiry_eq hk hw, if_neg (by omega)]
    exact unchanged_advance s t

end Waits

/-- An operation whose registers cannot be accessed waits (R112). -/
theorem operation_waits {s : State} {k : Script} {t : Nat} (hp : Powered s) (hr : s.ready = some k) (h : s.opReach k = false) :
    ∀ c ∈ [Instr.write t, .rmw t, .poll t, .wait t, .branchVariant t, .branchStatus t, .callEvent t, .endScript t],
      Answers c s fun u => TimeAt s u t ∧ SameRegs s u [] ∧ SameRest s u := by
  have hw : ∀ {c : Instr} {op : Nat} {f : Script → State → State}, exec c s = State.performOnAt t (State.scriptStep op t f) s →
      Answers c s fun u => TimeAt s u t ∧ SameRegs s u [] ∧ SameRest s u := fun hc => by
    refine .of_performOnAt hc hp ?_
    rw [scriptStep_waits _ _ hr h]
    exact unchanged_advance s t
  intro c hc
  simp only [List.mem_cons, List.not_mem_nil, or_false] at hc
  rcases hc with rfl | rfl | rfl | rfl | rfl | rfl | rfl | rfl
  · exact hw (exec_write t s)
  · exact hw (exec_rmw t s)
  · exact hw (exec_poll t s)
  · exact hw (exec_wait t s)
  · exact hw (exec_branchVariant t s)
  · exact hw (exec_branchStatus t s)
  · exact hw (exec_callEvent t s)
  · exact hw (exec_endScript t s)

/-- Settles O51: each operation is fetched, which leaves what it reads as it was, and then does what R380 says or stops with the error of
R381; a poll and a wait under way are judged by their own commands. -/
theorem scriptOperations : Obligations.ScriptOperations := by
  unfold Obligations.ScriptOperations
  refine ⟨fun s k t hp hr he => ⟨fun h => operation_waits hp hr h, fun h => ?_⟩, fun s k t hp hk => ⟨fun a m v e cont hq hreach => polls_wait hp hk hq hreach,
    fun a m v e cont hq hreach => polls_read hp hk hq hreach, fun e hw => waitExpiry_answers hp hk hw⟩⟩
  have hb := begins_begun (t := t) hp hr he h
  refine ⟨fun hc hl => ?_, fun ho => write_answers hb ho h, rmw_answers hb, poll_answers hb, wait_answers hb, branchVariant_answers hb, branchStatus_answers hb,
    callEvent_answers hb, endScript_answers hb⟩
  obtain ⟨b, e, -⟩ := s.advance_moves t
  exact fetched_clean _ k (by rw [e]; exact hc) (by rw [e]; exact hl)

end Sys2Proof
end

