-- ==== Sys2Proof/Proofs/Deliveries.lean ====
section
/-! SUPPORT. What Harvest delivers to its follow rings changes: its own state, its counters, and the writes that waited for room. -/

namespace Sys2Proof.Machine

/-- The registers that a delivery may write. -/
def servedFlds : List Fld := [HRV_BYTES, HRV_POISON_CNT_count, HRV_EVT_poison, DMC_RDP_CNT_count]

/-- `u` is `s` after deliveries: bytes for the host are added, and writes to deep memory that waited may have been done. -/
def Serves (s u : State) : Prop :=
  (∃ F R L pre N D P Q, u =
      { s with fields := F, hrv := { s.hrv with rings := R, out := s.hrv.out ++ pre, l12 := L }, free := N, deep := D, dpoison := P, acq := { s.acq with defer := Q } })
    ∧ SameRegs s u servedFlds ∧ (s.acq.defer = [] → u.deep = s.deep ∧ u.dpoison = s.dpoison ∧ u.acq.defer = [])

theorem Serves.refl (s : State) : Serves s s :=
  ⟨⟨s.fields, s.hrv.rings, s.hrv.l12, [], s.free, s.deep, s.dpoison, s.acq.defer, by rw [List.append_nil]⟩, fun _ _ => rfl, fun h => ⟨rfl, rfl, h⟩⟩

theorem Serves.trans {s u w : State} (h : Serves s u) (g : Serves u w) : Serves s w := by
  obtain ⟨⟨F, R, L, pre, N, D, P, Q, e⟩, r, d⟩ := h
  obtain ⟨⟨F', R', L', pre', N', D', P', Q', e'⟩, r', d'⟩ := g
  refine ⟨⟨F', R', L', pre ++ pre', N', D', P', Q', ?_⟩, fun f hf => (r' f hf).trans (r f hf), fun h => ?_⟩
  · rw [e', e, ← List.append_assoc]
  · obtain ⟨h1, h2, h3⟩ := d h
    obtain ⟨g1, g2, g3⟩ := d' h3
    exact ⟨g1.trans h1, g2.trans h2, g3⟩

theorem Serves.fold {α : Type} (g : State → α → State) (h : ∀ s a, Serves s (g s a)) (l : List α) : ∀ s, Serves s (l.foldl g s) := by
  induction l with
  | nil => exact Serves.refl
  | cons a l ih => exact fun s => (h s a).trans (ih _)

theorem serves_setRing (s : State) (n : Nat) (r : Ring) : Serves s (s.setRing n r) :=
  ⟨⟨s.fields, _, s.hrv.l12, [], s.free, s.deep, s.dpoison, s.acq.defer, by rw [List.append_nil]; rfl⟩, fun _ _ => rfl, fun h => ⟨rfl, rfl, h⟩⟩

/-- Only registers, and the values drawn. -/
theorem serves_wr {s u : State} (h : ∃ F N, u = { s with fields := F, free := N }) (hr : SameRegs s u servedFlds) : Serves s u := by
  obtain ⟨F, N, rfl⟩ := h
  exact ⟨⟨F, s.hrv.rings, s.hrv.l12, [], N, s.deep, s.dpoison, s.acq.defer, by rw [List.append_nil]⟩, hr, fun h => ⟨rfl, rfl, h⟩⟩

theorem serves_activates (k : Nat) (s : State) : Serves s (s.activates k) := by
  obtain ⟨h, r⟩ := activates_keeps k s
  refine serves_wr h fun f hf => r f fun x => hf ?_
  rw [List.map_cons, List.map_nil, List.mem_singleton] at x
  rw [x]
  decide

theorem serves_hostPut (s : State) (b : Bool) (a : Nat) (bs : List Byte) : Serves s (s.hostPut b a bs) :=
  ⟨⟨s.fields, s.hrv.rings, false, _, s.free, s.deep, s.dpoison, s.acq.defer, rfl⟩, fun _ _ => rfl, fun h => ⟨rfl, rfl, h⟩⟩

theorem serves_field (s : State) {f : Fld} (v : Nat) (h : f.key ∈ servedFlds.map Fld.key) : Serves s (s.wr f v) :=
  serves_wr ⟨_, s.free, rfl⟩ fun g hg => State.rd_wr_ne _ _ _ _ fun e => hg (e ▸ h)

/-- The bytes of a buffer that are written to the host, counted. -/
def State.bufPut (s : State) (b : Bool) (a : Nat) (bs : List Byte) (m : Nat) (bad : List Nat) : State :=
  let s2 := (s.hostPut b a bs).addF HRV_BYTES m
  if bad.isEmpty then s2 else (s2.addSat HRV_POISON_CNT_count bad.length).orF HRV_EVT_poison 1

theorem serves_bufPut (s : State) (b : Bool) (a : Nat) (bs : List Byte) (m : Nat) (bad : List Nat) : Serves s (State.bufPut s b a bs m bad) := by
  have h : Serves s ((s.hostPut b a bs).addF HRV_BYTES m) := (serves_hostPut ..).trans (serves_field _ _ (by decide))
  unfold State.bufPut
  dsimp only
  split
  · exact h
  · exact (h.trans (serves_field _ _ (by decide))).trans (serves_field _ _ (by decide))

/-- The accesses of a reading of `m` bytes that are poisoned. -/
def State.bufBad (s : State) (deep : Bool) (a m : Nat) : List Nat :=
  (List.range (m / 64)).filter fun i => if deep then s.dpoison.contains (a + 64 * i) else s.poison.contains (a + 64 * i)

/-- The bytes that a reading gives, with zeros for poisoned accesses (R328). -/
def State.bufBytes (s : State) (deep : Bool) (a m : Nat) : List Byte :=
  (List.range m).map fun i => if (s.bufBad deep a m).contains (i / 64) then 0 else if deep then s.deep.read (a + i) else s.near.read (a + i)

/-- The buffer's place of the first poisoned access, once there is one. -/
def bufPois (r : Ring) (bad : List Nat) : Option Nat :=
  match r.pois, bad with
  | some x, _ => some x
  | none, i :: _ => some (r.bytes + 64 * i)
  | none, [] => none

theorem bufCopy_eq {s : State} {n : Nat} {d : Desc} {q : List Desc} (hq : (s.ring n).q = d :: q) (deep : Bool) (a m : Nat) :
    State.bufCopy n deep a m s =
      (State.bufPut (if deep then s.activates (cdiv (a % 64 + (s.bufBytes deep a m).length) 64) else s) s.relaxed (d.addr + (s.ring n).bytes)
        (s.bufBytes deep a m) m (s.bufBad deep a m)).setRing n
        { s.ring n with bytes := (s.ring n).bytes + m, pois := bufPois (s.ring n) (s.bufBad deep a m) } := by
  unfold State.bufCopy
  dsimp only
  split
  · next h => exact absurd (hq.symm.trans h) (by simp)
  · next d' q' h =>
    obtain ⟨rfl, rfl⟩ := List.cons.inj (hq.symm.trans h)
    rfl

theorem bufCopy_none {s : State} {n : Nat} (hq : (s.ring n).q = []) (deep : Bool) (a m : Nat) : State.bufCopy n deep a m s = s := by
  unfold State.bufCopy
  dsimp only
  split
  · rfl
  · next d q h => exact absurd (hq.symm.trans h) (by simp)

theorem serves_bufCopy (s : State) (n : Nat) (deep : Bool) (a m : Nat) : Serves s (State.bufCopy n deep a m s) := by
  cases hq : (s.ring n).q with
  | nil =>
    rw [bufCopy_none hq]
    exact .refl s
  | cons d q =>
    have ha : ∀ k, Serves s (if deep then s.activates k else s) := fun k => by
      cases deep with
      | true => exact serves_activates k s
      | false => exact .refl s
    rw [bufCopy_eq hq]
    exact ((ha _).trans (serves_bufPut ..)).trans (serves_setRing ..)

theorem serves_pass (n src a m : Nat) (s : State) : Serves s (State.pass n src a m s) := by
  have h := fun r => serves_setRing s n r
  unfold State.pass
  dsimp only
  split
  · exact h _
  · split
    · exact h _
    · split
      · exact h _
      · exact h _

theorem serves_deliver (n : Nat) (k : Nat) : ∀ s : State, Serves s (State.deliver n s k) := by
  induction k with
  | zero => exact Serves.refl
  | succ k ih =>
    intro s
    unfold State.deliver
    split
    · dsimp only
      split
      · exact .refl s
      · exact (((serves_bufCopy ..).trans (serves_setRing ..)).trans (serves_pass ..)).trans (ih _)
    · exact .refl s

theorem serves_deliverAll (s : State) : Serves s s.deliverAll := by
  unfold State.deliverAll
  split
  · exact .refl s
  · refine Serves.fold _ (fun s n => ?_) _ s
    split
    · split
      · exact serves_deliver ..
      · exact .refl s
    · exact .refl s

/-! ### Writes that waited for room -/

/-- `u` is `s` after writes to deep memory that waited. -/
def Flushes (s u : State) : Prop :=
  (∃ F N D P Q, u = { s with fields := F, free := N, deep := D, dpoison := P, acq := { s.acq with defer := Q } }) ∧ SameRegs s u servedFlds

theorem Flushes.trans {s u w : State} (h : Flushes s u) (g : Flushes u w) : Flushes s w := by
  obtain ⟨⟨F, N, D, P, Q, e⟩, r⟩ := h
  obtain ⟨⟨F', N', D', P', Q', e'⟩, r'⟩ := g
  exact ⟨⟨F', N', D', P', Q', by rw [e', e]⟩, fun f hf => (r' f hf).trans (r f hf)⟩

theorem flushes_activates (k : Nat) (s : State) : Flushes s (s.activates k) := by
  obtain ⟨⟨F, N, e⟩, -⟩ := activates_keeps k s
  exact ⟨⟨F, N, s.deep, s.dpoison, s.acq.defer, e⟩, (serves_activates k s).2.1⟩

/-- What the memory and its poison become beside it. -/
theorem Flushes.deep {s u : State} (h : Flushes s u) (D : Mem) (P : List Nat) : Flushes s { u with deep := D, dpoison := P } := by
  obtain ⟨⟨F, N, _, _, Q, rfl⟩, r⟩ := h
  exact ⟨⟨F, N, D, P, Q, rfl⟩, r⟩

theorem Flushes.defer {s u : State} (h : Flushes s u) (Q : List CapW) : Flushes s { u with acq := { u.acq with defer := Q } } := by
  obtain ⟨⟨F, N, D, P, _, rfl⟩, r⟩ := h
  exact ⟨⟨F, N, D, P, Q, rfl⟩, r⟩

theorem flushes_self (s : State) : Flushes s s := ⟨⟨s.fields, s.free, s.deep, s.dpoison, s.acq.defer, rfl⟩, fun _ _ => rfl⟩

theorem flushes_deepPut (s : State) (a : Nat) (bs : List Byte) : Flushes s (s.deepPut a bs) := (flushes_activates _ s).deep _ _

theorem flushes_capWrite (s : State) (w : CapW) : Flushes s (s.capWrite w) := by
  have hz : Flushes s (s.deepPutZ w.a w.bs w.z) := by
    unfold State.deepPutZ
    split
    · exact flushes_deepPut ..
    · exact ((flushes_deepPut s w.a w.bs).trans (flushes_activates _ _)).deep _ _
  unfold State.capWrite
  generalize s.deepPutZ w.a w.bs w.z = x at *
  dsimp only
  split
  · exact hz
  · exact hz.deep x.deep _

theorem flushes_capFlush (l : List CapW) : ∀ s : State, Flushes s (s.capFlush l) := by
  induction l with
  | nil => exact fun s => (flushes_self s).defer []
  | cons w r ih =>
    intro s
    unfold State.capFlush
    split
    · exact (flushes_capWrite s w).trans (ih _)
    · exact (flushes_self s).defer (w :: r)

theorem Flushes.serves {s u : State} (h : Flushes s u) (hd : s.acq.defer ≠ []) : Serves s u := by
  obtain ⟨⟨F, N, D, P, Q, rfl⟩, r⟩ := h
  exact ⟨⟨F, s.hrv.rings, s.hrv.l12, [], N, D, P, Q, by rw [List.append_nil]⟩, r, fun h => absurd h hd⟩

theorem serves_deliverMore (k : Nat) : ∀ s : State, Serves s (s.deliverMore k) := by
  induction k with
  | zero => exact Serves.refl
  | succ k ih =>
    intro s
    have ha := serves_deliverAll s
    unfold State.deliverMore
    generalize s.deliverAll = x at *
    dsimp only
    split
    · exact ha
    · next hd =>
      have hf := ha.trans (Flushes.serves (flushes_capFlush x.acq.defer x) fun h => hd (by rw [h]; rfl))
      generalize x.capFlush x.acq.defer = y at *
      split
      · exact hf
      · exact hf.trans (ih y)

/-- Harvest delivers all it can (R324). -/
theorem serves_deliverOut (s : State) : Serves s s.deliverOut := serves_deliverMore _ s

/-! ### What a delivery leaves -/

/-- The registers of the rings and of the completion rings. -/
theorem served_apart {f : Fld} (h : 0xe1000 * 8 ≤ f.key) : f.key ∉ servedFlds.map Fld.key := by
  simp only [servedFlds, List.map_cons, List.map_nil, List.mem_cons, List.not_mem_nil, or_false, Fld.key, HRV_BYTES, HRV_POISON_CNT_count, HRV_EVT_poison,
    DMC_RDP_CNT_count] at *
  omega

end Sys2Proof.Machine
end

