-- ==== Sys2Proof/Proofs/FollowBuffers.lean ====
section
/-! PROOFS. The completion of a follow buffer (O43). -/

namespace Sys2Proof.Machine

/-- `v` is `s` at `t` after Harvest has served its rings, with no other register written but those listed. -/
def Served (s : State) (t : Nat) (l : List Fld) (v : State) : Prop :=
  (∃ F H T N D P Q, v = { s with fields := F, hrv := H, tmb := T, free := N, deep := D, dpoison := P, acq := { s.acq with defer := Q } })
    ∧ v.tmb.kt = max s.tmb.kt t ∧ SameRegs s v (l ++ servedFlds) ∧ (∃ pre, v.hrv.out = s.hrv.out ++ pre)
    ∧ (s.acq.defer = [] → v.deep = s.deep ∧ v.dpoison = s.dpoison ∧ v.acq.defer = [])

theorem served_advance (s : State) (t : Nat) : Served s t [] (s.advance t) := by
  obtain ⟨b, hb, hk⟩ := s.advance_moves t
  refine ⟨⟨s.fields, s.hrv, b, s.free, s.deep, s.dpoison, s.acq.defer, hb⟩, by rw [hb]; exact hk, fun f _ => State.rd_advance s t f,
    ⟨[], by rw [hb, List.append_nil]⟩, fun h => ?_⟩
  rw [hb]
  exact ⟨rfl, rfl, h⟩

theorem Served.serves {s v w : State} {t : Nat} {l : List Fld} (h : Served s t l v) (g : Serves v w) : Served s t l w := by
  obtain ⟨⟨F, H, T, N, D, P, Q, e⟩, k, r, ⟨pre, o⟩, d⟩ := h
  obtain ⟨⟨F', R', L', pre', N', D', P', Q', e'⟩, r', d'⟩ := g
  refine ⟨⟨F', _, T, N', D', P', Q', by rw [e', e]⟩, by rw [e']; exact k, fun f hf => ?_, ⟨pre ++ pre', ?_⟩, fun h => ?_⟩
  · exact (r' f fun x => hf (by rw [List.map_append, List.mem_append]; exact .inr x)).trans (r f hf)
  · rw [e', ← List.append_assoc, ← o]
  · obtain ⟨h1, h2, h3⟩ := d h
    obtain ⟨g1, g2, g3⟩ := d' h3
    exact ⟨g1.trans h1, g2.trans h2, g3⟩

/-- What Harvest has delivered when a command comes at `t`. -/
theorem served_deliverOut (s : State) (t : Nat) : Served s t [] (s.advance t).deliverOut := (served_advance s t).serves (serves_deliverOut _)

theorem Served.event {s v : State} {t : Nat} (h : Served s t [] v) (f : Fld) (m : Nat) : Served s t [f] (v.orF f m) := by
  obtain ⟨⟨F, H, T, N, D, P, Q, e⟩, k, r, o, d⟩ := h
  refine ⟨⟨_, H, T, N, D, P, Q, by rw [e]; rfl⟩, k, fun g hg => ?_, o, d⟩
  rw [List.singleton_append, List.map_cons, List.mem_cons, not_or] at hg
  rw [rd_orF_ne _ _ _ _ (Ne.symm hg.1), r g hg.2]

/-- All of `u` but what the writes that waited for room have done since `s`. -/
def State.kept (s u : State) : State :=
  if s.acq.defer = [] then u else { u with deep := s.deep, dpoison := s.dpoison, acq := { u.acq with defer := s.acq.defer } }

/-! ### A buffer that completes -/

/-- The registers of the rings and of the completion rings, by their addresses. -/
theorem ring_keys (n m : Nat) : 0xe1000 * 8 ≤ (HRV_RINGn_HEAD_idx n).key ∧ 0xe1000 * 8 ≤ (HRV_RINGn_CFG_cq n).key ∧ 0xe1000 * 8 ≤ (HRV_RINGn_CFG_size n).key
    ∧ 0xe1000 * 8 ≤ (HRV_CQm_BASE_LO_addr m).key ∧ 0xe1000 * 8 ≤ (HRV_CQm_BASE_HI_addr m).key ∧ 0xe1000 * 8 ≤ (HRV_CQm_TAIL_idx m).key
    ∧ 0xe1000 * 8 ≤ (HRV_CQm_CFG_size m).key ∧ 0xe1000 * 8 ≤ (HRV_CQm_CFG_en m).key ∧ 0xe1000 * 8 ≤ (HRV_CQm_HEAD_idx m).key
    ∧ 0xe1000 * 8 ≤ (HRV_RINGn_CFG_flush n).key := by
  simp only [Fld.key, HRV_RINGn_HEAD_idx, HRV_RINGn_CFG_cq, HRV_RINGn_CFG_size, HRV_CQm_BASE_LO_addr, HRV_CQm_BASE_HI_addr, HRV_CQm_TAIL_idx, HRV_CQm_CFG_size,
    HRV_CQm_CFG_en, HRV_CQm_HEAD_idx, HRV_RINGn_CFG_flush]
  omega

section Completes

variable {s v : State} {t : Nat} {l : List Fld} (h : Served s t l v) (hl : ∀ f ∈ l, f.key < 0xe1000 * 8)
include h hl

theorem Served.rd_high {f : Fld} (hf : 0xe1000 * 8 ≤ f.key) : v.rd f = s.rd f := by
  obtain ⟨-, -, r, -⟩ := h
  refine r f fun x => ?_
  rw [List.map_append, List.mem_append] at x
  rcases x with x | x
  · obtain ⟨g, hg, hk⟩ := List.mem_map.1 x
    exact absurd (hl g hg) (by omega)
  · exact served_apart hf x

theorem Served.waits {n : Nat} (hr : v.hrvRuns = true) (hf : s.cqFull (s.rd (HRV_RINGn_CFG_cq n)) = false) : v.waits n = false := by
  obtain ⟨-, k1, -⟩ := ring_keys n 0
  have hm : v.rd (HRV_RINGn_CFG_cq n) = s.rd (HRV_RINGn_CFG_cq n) := h.rd_high hl k1
  obtain ⟨-, -, -, -, -, k2, k3, k4, k5, -⟩ := ring_keys n (s.rd (HRV_RINGn_CFG_cq n))
  rw [State.waits, hr, hm, State.cqFull, State.on, State.cqSize, h.rd_high hl k2, h.rd_high hl k3, h.rd_high hl k4, h.rd_high hl k5]
  exact (Bool.or_false _).trans hf

/-- The buffer in hand completes with its entry, and nothing behind it does. -/
theorem Served.finish {n : Fin 16} {d : Desc} {rest : List Desc} (hq : (v.ring n.val).q = d :: rest) (hbad : ∀ e ∈ rest, e.bad = false)
    (hw : v.waits n.val = false) (st cf info : Nat) {u : State} (hu : u = State.badFront n.val (State.finish n.val st cf info v) 8) :
    Completed s u n.val st rest ∧ u.ring n.val = (v.ring n.val).consumed rest ∧ TimeAt s u t ∧ RingFrame s (s.kept u) n.val l
      ∧ (∀ f, f ∈ l → u.rd f = v.rd f) ∧ ∃ F H M Q, u = { v with fields := F, hrv := H, msix := M, msxPba := Q } := by
  rw [finish_eq hq, hw, if_neg Bool.false_ne_true] at hu
  obtain ⟨h1, h2, -, ⟨e, h3, h4, h5⟩, h6, F', H', M', Q', h7⟩ := cqWrite_shows (c := (st, cf + 8 * b2n (v.ring n.val).strm, info)) hq rfl
  generalize State.cqWrite n.val (st, cf + 8 * b2n (v.ring n.val).strm, info) v = w at *
  rw [badFront_stops (fun _ x q hx => hbad x (by rw [h2] at hx; have hx' : rest = x :: q := hx; rw [hx']; exact List.mem_cons_self)) 8] at hu
  subst hu
  obtain ⟨k1, k2, k3, -⟩ := ring_keys n.val 0
  have hcq : v.rd (HRV_RINGn_CFG_cq n.val) = s.rd (HRV_RINGn_CFG_cq n.val) := h.rd_high hl k2
  obtain ⟨-, -, -, k4, k5, k6, k7, -⟩ := ring_keys n.val (s.rd (HRV_RINGn_CFG_cq n.val))
  have hsize : v.ringSize n.val = s.ringSize n.val := by rw [State.ringSize, State.ringSize, h.rd_high hl k3]
  have haddr : v.cqAddr (v.rd (HRV_RINGn_CFG_cq n.val)) = s.cqAddr (s.rd (HRV_RINGn_CFG_cq n.val)) := by
    rw [hcq, State.cqAddr, State.cqAddr, State.cqSize, State.cqSize, h.rd_high hl k4, h.rd_high hl k5, h.rd_high hl k6, h.rd_high hl k7]
  have hfl : cqFlds v n.val = cqFlds s n.val := by rw [cqFlds, cqFlds, hcq]
  have hlow : ∀ f, f ∈ l → u.rd f = v.rd f := fun f hf => by
    refine h6 f fun x => ?_
    have hk := hl f hf
    simp only [cqFlds, List.map_cons, List.map_nil, List.mem_cons, List.not_mem_nil, or_false, Fld.key, HRV_CQm_TAIL_idx, HRV_CQm_TAIL_phase,
      HRV_RINGn_HEAD_idx] at x hk
    omega
  have hhead : u.rd (HRV_RINGn_HEAD_idx n.val) = (s.rd (HRV_RINGn_HEAD_idx n.val) + 1) % s.ringSize n.val % 2 ^ 16 := by rw [h1, hsize, h.rd_high hl k1]
  obtain ⟨⟨F, H, T, N, D, P, Q, hm⟩, hk, hr, ⟨pre, ho⟩, hd⟩ := h
  refine ⟨⟨hhead, by rw [h2]; rfl, by rw [h2]; rfl, by rw [h2]; rfl, by rw [h2]; rfl, pre, e, ?_, h4, h5⟩, h2, ?_, ⟨fun f hf => ?_, ?_⟩, hlow, _, _, _, _, h7⟩
  · rw [h3, ho, haddr]
    rfl
  · rw [TimeAt, h7]
    exact hk
  · have hu : (s.kept u).rd f = u.rd f := by
      unfold State.kept
      split
      · rfl
      · exact State.rd_mk ..
    simp only [List.map_append, List.map_cons, List.map_nil, List.mem_append, List.mem_cons, List.not_mem_nil, or_false, not_or] at hf
    obtain ⟨f0, f1, f2, f3, f4, f5, f6, f7⟩ := hf
    rw [hu, h6 f, hr f]
    · simp only [servedFlds, List.map_append, List.map_cons, List.map_nil, List.mem_append, List.mem_cons, List.not_mem_nil, or_false, not_or]
      exact ⟨f0, f1, f2, f3, f7⟩
    · rw [hfl]
      simp only [cqFlds, List.map_cons, List.map_nil, List.mem_cons, List.not_mem_nil, or_false, not_or]
      exact ⟨f4, f5, f6⟩
  · unfold State.kept
    split
    · next hnil =>
      obtain ⟨d1, d2, d3⟩ := hd hnil
      have hq' : Q = s.acq.defer := by rw [hnil, ← d3, hm]
      have hd' : D = s.deep := by rw [← d1, hm]
      have hp' : P = s.dpoison := by rw [← d2, hm]
      rw [h7, hm, hq', hd', hp']
      exact sameRest_mk_hrv s _ _ _
    · rw [h7, hm]
      exact sameRest_mk_hrv s _ _ _

end Completes

/-! ### The commands of a follow buffer -/

theorem finishOk_eq (n cf : Nat) (s : State) : State.finishOk n cf s =
    State.badFront n (State.finish n (if (s.ring n).pois = none then 0 else 1) cf (s.ring n).okStatus.2 s) 8 := by
  have h : (s.ring n).okStatus.1 = if (s.ring n).pois = none then 0 else 1 := by
    unfold Ring.okStatus
    cases (s.ring n).pois <;> rfl
  rw [← h]
  rfl

theorem followBuf_eq {s : State} {n : Nat} {d : Desc} {q : List Desc} (hq : (s.ring n).q = d :: q) (hc : d.copy = false) (hb : d.bad = false) :
    s.followBuf n = some d := by
  unfold State.followBuf
  rw [hq]
  exact if_neg (by rw [hc, hb]; exact Bool.false_ne_true)

section Commands

variable {s v : State} {n t : Nat} {d : Desc} (hv : (s.advance t).deliverOut = v) (hb : v.followBuf n = some d) (hr : v.ringRuns n = true)
include hv hb hr

theorem followDone_full {o : Nat} (ho : v.nextRec n = some o) (hl : d.len < (v.ring n).bytes + 64 * v.recUnits (v.followAddr (v.ringSrc n) o)) :
    State.followDone n t s = State.finishOk n 0 v := by
  unfold State.followDone
  dsimp only
  rw [hv, if_neg (by rw [hr]; exact Bool.false_ne_true), hb]
  dsimp only
  rw [ho]
  exact if_pos hl

theorem followDone_ended (ho : v.nextRec n = none) (hi : v.idle = true) (he : (v.ring n).ended = false) (hov : v.overrun n = false) :
    State.followDone n t s = State.finishOk n 6 (v.setRing n { v.ring n with ended := true }) := by
  unfold State.followDone
  dsimp only
  rw [hv, if_neg (by rw [hr]; exact Bool.false_ne_true), hb]
  dsimp only
  rw [ho]
  exact if_pos ⟨hi, he, hov⟩

theorem followFlush_eq {k : Nat} (hk : (v.ring n).firstAt = some k) (h0 : v.rd (HRV_RINGn_CFG_flush n) ≠ 0)
    (ht : k + v.rd (HRV_RINGn_CFG_flush n) * usF ≤ t) : State.followFlush n t s = State.finishOk n 2 v := by
  unfold State.followFlush
  dsimp only
  rw [hv, if_neg (by rw [hr, hb]; simpa using h0), hk]
  exact if_pos ht

end Commands

/-- Where the pointer of a ring moves to when its place was overwritten (R327). -/
def State.oldest (s : State) (src : Nat) : Nat :=
  if src = 1 then
    ((s.acq.starts.filter fun v => decide (s.capPos - s.nSegs * max 1 s.segUnits ≤ v)).getLast?).getD s.capPos
  else (((look s.hrv.starts src).getD []).find? fun v => decide ((look s.hrv.written src).getD 0 ≤ v + (s.regionOf src).2)).getD ((look s.hrv.written src).getD 0)

/-- The ring with its pointer at `v`. -/
def Ring.movedTo (r : Ring) (src m v : Nat) : Ring :=
  if src = 1 then { r with seg := v / m, u := v % m, redo := [], after := false } else { r with rd := v }

/-- The pointer of a ring moved on, and the event. -/
def State.skipped (s : State) (n : Nat) : State :=
  (s.setRing n ((s.ring n).movedTo (s.ringSrc n) (max 1 s.segUnits) (s.oldest (s.ringSrc n)))).orF HRV_EVT_overrun 1

theorem followOver_eq {s v : State} {n t : Nat} {d : Desc} (hv : s.advance t = v) (hb : v.followBuf n = some d) (hr : v.ringRuns n = true)
    (ho : v.overrun n = true) : ∃ info, State.followOver n t s = State.badFront n (State.finish n 2 0 info (v.skipped n)) 8 := by
  unfold State.followOver State.skipped State.oldest Ring.movedTo
  dsimp only
  rw [hv, if_neg (by rw [hr, hb, ho]; simp)]
  split
  · exact ⟨_, rfl⟩
  · exact ⟨_, rfl⟩

theorem movedTo_q (r : Ring) (src m v : Nat) : (r.movedTo src m v).q = r.q := by
  unfold Ring.movedTo
  split <;> rfl

theorem skipped_ring (s : State) (n : Nat) :
    (s.skipped n).ring n = (s.ring n).movedTo (s.ringSrc n) (max 1 s.segUnits) (s.oldest (s.ringSrc n)) := State.ring_setRing_same _ _ _

theorem skipped_runs {s : State} {n : Nat} (h : s.hrvRuns = true) : (s.skipped n).hrvRuns = true := by
  rw [← h]
  have hr : ∀ f : Fld, f.key ≠ HRV_EVT_overrun.key → (s.skipped n).rd f = s.rd f := fun f hf => (rd_orF_ne _ _ _ _ (Ne.symm hf)).trans rfl
  unfold State.hrvRuns State.memRuns State.coreRun State.mode State.on
  rw [hr _ (by decide), hr _ (by decide), hr _ (by decide), hr _ (by decide)]
  rfl

/-- The oldest record still intact in the capture region, or the writer's position. -/
theorem oldest_capture (s : State) : (s.oldest 1 ∈ s.acq.starts ∨ s.oldest 1 = s.capPos) ∧ s.capPos ≤ s.oldest 1 + s.nSegs * max 1 s.segUnits := by
  unfold State.oldest
  rw [if_pos rfl]
  cases h : (s.acq.starts.filter fun v => decide (s.capPos - s.nSegs * max 1 s.segUnits ≤ v)).getLast? with
  | none => exact ⟨.inr rfl, Nat.le_add_right _ _⟩
  | some v =>
    obtain ⟨h1, h2⟩ := List.mem_filter.1 (List.mem_of_getLast? h)
    have h3 := of_decide_eq_true h2
    exact ⟨.inl h1, by rw [Option.getD_some]; omega⟩

/-- The same in a followed region. -/
theorem oldest_region {s : State} {src : Nat} (h : src ≠ 1) :
    (s.oldest src ∈ (look s.hrv.starts src).getD [] ∨ s.oldest src = (look s.hrv.written src).getD 0)
      ∧ (look s.hrv.written src).getD 0 ≤ s.oldest src + (s.regionOf src).2 := by
  unfold State.oldest
  rw [if_neg h]
  cases hf : ((look s.hrv.starts src).getD []).find? fun v => decide ((look s.hrv.written src).getD 0 ≤ v + (s.regionOf src).2) with
  | none => exact ⟨.inr rfl, Nat.le_add_right _ _⟩
  | some v =>
    have h2 := List.find?_some hf
    exact ⟨.inl (List.mem_of_find?_eq_some hf), of_decide_eq_true h2⟩

/-- A buffer whose place was overwritten completes OVERRUN, and the pointer moves on. -/
theorem followOver_shows {s u : State} {n : Fin 16} {t : Nat} {d : Desc} {rest : List Desc} (hq : (s.ring n.val).q = d :: rest) (hc : d.copy = false)
    (hb : d.bad = false) (hbad : ∀ e ∈ rest, e.bad = false) (hfull : s.cqFull (s.rd (HRV_RINGn_CFG_cq n.val)) = false) (hr : s.ringRuns n.val = true)
    (hov : s.overrun n.val = true) (hu : u = State.followOver n.val t s) :
    Completed s u n.val 2 rest ∧ u.rd HRV_EVT_overrun % 2 = 1 ∧ TimeAt s u t ∧ RingFrame s u n.val [HRV_EVT_overrun]
      ∧ u.ring n.val = ((s.ring n.val).movedTo (s.ringSrc n.val) (max 1 s.segUnits) (s.oldest (s.ringSrc n.val))).consumed rest := by
  obtain ⟨b, hb', -⟩ := s.advance_moves t
  have hring : ((s.advance t).skipped n.val).ring n.val = (s.ring n.val).movedTo (s.ringSrc n.val) (max 1 s.segUnits) (s.oldest (s.ringSrc n.val)) := by
    rw [skipped_ring, hb']
    rfl
  have hov' : (s.advance t).overrun n.val = true := by
    rw [hb']
    exact hov
  have hruns := (ringRuns_advance s t n.val).trans hr
  obtain ⟨info, he⟩ := followOver_eq rfl (followBuf_eq (by rw [ring_advance, hq]) hc hb) hruns hov'
  have hs : Served s t [HRV_EVT_overrun] ((s.advance t).skipped n.val) := ((served_advance s t).serves (serves_setRing _ n.val _)).event HRV_EVT_overrun 1
  have hrun : ((s.advance t).skipped n.val).hrvRuns = true := skipped_runs (hrvRuns_of_ringRuns hruns).1
  have hlow : ∀ f ∈ [HRV_EVT_overrun], f.key < 0xe1000 * 8 := by decide
  have hev : ((s.advance t).skipped n.val).rd HRV_EVT_overrun % 2 = 1 := rd_orF_one _ rfl
  have hm : ∃ F H, (s.advance t).skipped n.val = { s with fields := F, hrv := H, tmb := b } := by
    rw [hb']
    exact ⟨_, _, rfl⟩
  rw [he] at hu
  generalize (s.advance t).skipped n.val = v at *
  obtain ⟨F, H, hv⟩ := hm
  obtain ⟨h1, h2, h3, h4, h5, F', H', M', Q', h6⟩ := hs.finish hlow (by rw [hring, movedTo_q, hq]) hbad (hs.waits hlow hrun hfull) 2 0 info hu
  have hkept : s.kept u = u := by
    unfold State.kept
    split
    · rfl
    · rw [h6, hv]
  exact ⟨h1, by rw [h5 _ (by simp)]; exact hev, h3, by rwa [hkept] at h4, by rw [h2, hring]⟩

end Sys2Proof.Machine

namespace Sys2Proof

open Machine

/-- Settles O43: what Harvest has delivered when the command comes leaves the completion registers as they were, so that the buffer in hand
completes with its entry. -/
theorem followBuffers : Obligations.FollowBuffers := by
  unfold Obligations.FollowBuffers
  intro s n t d rest hp
  dsimp only
  intro hq hc hb hbad hfull
  have hs := served_deliverOut s t
  have hnil : ∀ f ∈ ([] : List Fld), f.key < 0xe1000 * 8 := fun f hf => absurd hf (by simp)
  refine ⟨fun hr => ?_, fun hq0 hr hov => ?_⟩
  · generalize hv : (s.advance t).deliverOut = v at *
    have hbuf := followBuf_eq hq hc hb
    have hrun := (hrvRuns_of_ringRuns hr).1
    refine ⟨fun o ho hl => ?_, fun ho hi he hov => ?_, fun k hk h0 ht => ?_⟩
    · refine .of_performOnAt (exec_followBufferComplete n t s) hp ?_
      rw [followDone_full hv hbuf hr ho hl, finishOk_eq]
      obtain ⟨h1, -, h3, h4, -⟩ := hs.finish hnil hq hbad (hs.waits hnil hrun hfull) _ _ _ rfl
      exact ⟨h1, h3, h4⟩
    · refine .of_performOnAt (exec_followBufferComplete n t s) hp ?_
      have hidle : v.idle = true := by
        rw [State.idle, State.acqSt, hs.2.2.1 _ (by decide)]
        exact decide_eq_true hi
      rw [followDone_ended hv hbuf hr ho hidle he hov, finishOk_eq, State.ring_setRing_same]
      have hs' := hs.serves (serves_setRing v n.val { v.ring n.val with ended := true })
      obtain ⟨h1, h2, h3, h4, -⟩ := hs'.finish hnil (n := n) (d := d) (rest := rest) (by rw [State.ring_setRing_same]; exact hq) hbad
        (hs'.waits hnil hrun hfull) _ _ _ rfl
      exact ⟨h1, by rw [h2, State.ring_setRing_same]; rfl, h3, h4⟩
    · refine .of_performOnAt (exec_followFlushTimeout n t s) hp ?_
      obtain ⟨-, -, -, -, -, -, -, -, -, k⟩ := ring_keys n.val 0
      rw [followFlush_eq hv hbuf hr hk (by rwa [hs.rd_high hnil k]) (by rwa [hs.rd_high hnil k]), finishOk_eq]
      obtain ⟨h1, -, h3, h4, -⟩ := hs.finish hnil hq hbad (hs.waits hnil hrun hfull) _ _ _ rfl
      exact ⟨h1, h3, h4⟩
  · refine .of_performOnAt (exec_followOverrun n t s) hp ?_
    obtain ⟨h1, h2, h3, h4, h5⟩ := followOver_shows (t := t) hq0 hc hb hbad hfull hr hov rfl
    refine ⟨h1, h2, h3, h4, fun h => ?_, fun h => ?_⟩
    · have hseg : ((State.followOver n.val t s).ring n.val).seg = s.oldest 1 / max 1 s.segUnits := by
        rw [h5, h]
        rfl
      have hunit : ((State.followOver n.val t s).ring n.val).u = s.oldest 1 % max 1 s.segUnits := by
        rw [h5, h]
        rfl
      rw [hseg, hunit, Nat.div_add_mod']
      exact oldest_capture s
    · have hrd : ((State.followOver n.val t s).ring n.val).rd = s.oldest (s.ringSrc n.val) := by
        rw [h5, Ring.movedTo, if_neg h]
        rfl
      rw [hrd]
      exact oldest_region h

end Sys2Proof
end

