-- ==== Sys2Proof/Proofs/HostBytes.lean ====
section
/-! SUPPORT. What Harvest has written to the host is never taken back by what follows a command in a machine where nothing else waits. -/

namespace Sys2Proof.Machine

/-! ### Accesses of BAR2 that waited -/

/-- `u` is `s` after accesses of the memories: the sequencer, the clocks, acquisition and what was written to the host are as before. -/
structure Accessed (s u : State) : Prop where
  hks : u.hks = s.hks
  clk : u.clk = s.clk
  out : u.hrv.out = s.hrv.out
  state : u.rd ACQ_STAT_state = s.rd ACQ_STAT_state
  hop : u.rd CLK_HOP_pending = s.rd CLK_HOP_pending

theorem accessed_self (s : State) : Accessed s s := ⟨rfl, rfl, rfl, rfl, rfl⟩

theorem Accessed.trans {s u w : State} (h : Accessed s u) (g : Accessed u w) : Accessed s w :=
  ⟨g.hks.trans h.hks, g.clk.trans h.clk, g.out.trans h.out, g.state.trans h.state, g.hop.trans h.hop⟩

theorem Accessed.fold {α : Type} (g : State → α → State) (h : ∀ s a, Accessed s (g s a)) (l : List α) : ∀ s, Accessed s (l.foldl g s) := by
  induction l with
  | nil => exact accessed_self
  | cons a l ih => exact fun s => (h s a).trans (ih _)

theorem accessed_wr (s : State) {f : Fld} (v : Nat) (h1 : f.key ≠ ACQ_STAT_state.key) (h2 : f.key ≠ CLK_HOP_pending.key) : Accessed s (s.wr f v) :=
  ⟨rfl, rfl, rfl, State.rd_wr_ne _ _ _ _ h1, State.rd_wr_ne _ _ _ _ h2⟩

theorem accessed_migNow (s : State) : Accessed s s.migNow := by
  obtain ⟨⟨F, D, r, e⟩, hr⟩ := s.migNow_keeps
  refine ⟨by rw [e], by rw [e], by rw [e], hr _ (by decide), hr _ (by decide)⟩

theorem accessed_nearSeen (s : State) (a n : Nat) : Accessed s (s.nearSeen a n) := by
  obtain ⟨N, P, A, r, e⟩ := s.nearSeen_moves a n
  rw [e]
  exact ⟨rfl, rfl, rfl, rfl, rfl⟩

theorem accessed_nearSync (s : State) : Accessed s s.nearSync := by
  obtain ⟨N, P, A, r, e⟩ := s.nearSync_moves
  rw [e]
  exact ⟨rfl, rfl, rfl, rfl, rfl⟩

theorem accessed_met {s u : State} (h : MetErrors s u) : Accessed s u := by
  obtain ⟨⟨F, B, Y, D, P, e⟩, r⟩ := h
  exact ⟨by rw [e], by rw [e], by rw [e], r _ (by decide), r _ (by decide)⟩

theorem accessed_granted (s : State) (w : Nat) : Accessed s (s.granted w) := by
  unfold State.granted
  split
  · exact (accessed_wr s _ (by decide) (by decide)).trans (accessed_wr _ _ (by decide) (by decide))
  · exact accessed_self s

theorem accessed_grant (s : State) (a n w : Nat) : Accessed s (s.bar2Grant a n w) := by
  obtain ⟨⟨F, N, e⟩, r, -⟩ := bar2Grant_shows a n w s
  exact ⟨by rw [e], by rw [e], by rw [e], r _ (grantFlds_sub (by decide)), r _ (grantFlds_sub (by decide))⟩

theorem accessed_deepPut (s : State) (a : Nat) (bs : List Byte) : Accessed s (s.deepPut a bs) := by
  obtain ⟨⟨F, N, D, P, Q, e⟩, r⟩ := flushes_deepPut s a bs
  exact ⟨by rw [e], by rw [e], by rw [e], r _ (by decide), r _ (by decide)⟩

theorem accessed_completed (a n : Nat) (s : State) : Accessed s (completed a n s) := ⟨rfl, rfl, rfl, rfl, rfl⟩

theorem accessed_memDone (s : State) (r : MemReq) : Accessed s (s.memDone r) := by
  cases r with
  | read a len corr uncorr wait =>
    have h := (((accessed_migNow s).trans (accessed_nearSeen _ a (min len 4096))).trans
      (accessed_met (bar2Errors_shows a (min len 4096) corr uncorr _).1)).trans (accessed_grant _ a (min len 4096) wait)
    show Accessed s (completed a (min len 4096) _)
    exact h.trans (accessed_completed a (min len 4096) _)
  | write a data wait =>
    unfold State.memDone State.bar2Store
    dsimp only
    split
    · split
      · exact accessed_wr s _ (by decide) (by decide)
      · split
        · exact accessed_self s
        · exact (accessed_granted s wait).trans (accessed_deepPut _ _ _)
    · split
      · split
        · exact accessed_wr s _ (by decide) (by decide)
        · split
          · exact accessed_self s
          · have h := accessed_nearSync s
            exact ⟨h.hks, h.clk, h.out, h.state, h.hop⟩
      · exact accessed_self s

theorem accessed_memSync (s : State) : Accessed s s.memSync := by
  unfold State.memSync
  split
  · exact accessed_self s
  · have h := Accessed.fold State.memDone accessed_memDone s.hrv.memHeld { s with hrv := { s.hrv with memHeld := [] } }
    exact ⟨h.hks, h.clk, h.out, h.state, h.hop⟩

/-! ### What Harvest writes -/

/-- What was written to the host has only been added to. -/
def Writes (s u : State) : Prop := s.hrv.out <+: u.hrv.out

theorem writes_self (s : State) : Writes s s := List.prefix_refl _

theorem Writes.trans {s u w : State} (h : Writes s u) (g : Writes u w) : Writes s w := List.IsPrefix.trans h g

theorem writes_of_eq {s u : State} (h : u.hrv.out = s.hrv.out) : Writes s u := by rw [Writes, h]

theorem Writes.fold {α : Type} (g : State → α → State) (h : ∀ s a, Writes s (g s a)) (l : List α) : ∀ s, Writes s (l.foldl g s) := by
  induction l with
  | nil => exact writes_self
  | cons a l ih => exact fun s => (h s a).trans (ih _)

theorem Serves.writes {s u : State} (h : Serves s u) : Writes s u := by
  obtain ⟨⟨F, R, L, pre, N, D, P, Q, rfl⟩, -⟩ := h
  exact List.prefix_append _ _

theorem writes_cqWrite (s : State) (n : Nat) (c : Nat × Nat × Nat) : Writes s (State.cqWrite n c s) := by
  cases hq : (s.ring n).q with
  | nil =>
    unfold State.cqWrite
    dsimp only
    split
    · exact writes_self s
    · next d q h => exact absurd (hq.symm.trans h) (by simp)
  | cons d q =>
    obtain ⟨C, L, M, Q, e⟩ := cqWrite_eq (c := c) hq
    obtain ⟨⟨F, hstep⟩, -⟩ := cqStep_shows (s.hostPut false (s.cqAddr (s.rd (HRV_RINGn_CFG_cq n))) (s.cqBytes n d c)) (s.rd (HRV_RINGn_CFG_cq n))
      (s.rd (HRV_CQm_TAIL_idx (s.rd (HRV_RINGn_CFG_cq n))) % s.cqSize (s.rd (HRV_RINGn_CFG_cq n)))
    rw [e, State.cqPut, hstep]
    exact List.prefix_append _ _

theorem writes_finish (s : State) (n st cf info : Nat) : Writes s (State.finish n st cf info s) := by
  cases hq : (s.ring n).q with
  | nil => rw [finish_none hq]; exact writes_self s
  | cons d q =>
    rw [finish_eq hq]
    split
    · exact writes_of_eq rfl
    · exact writes_cqWrite ..

theorem writes_badFront (n : Nat) (k : Nat) : ∀ s : State, Writes s (State.badFront n s k) := by
  induction k with
  | zero => exact writes_self
  | succ k ih =>
    intro s
    unfold State.badFront
    split
    · split
      · have h : Writes s ((State.finish n 4 0 0 s).orF HRV_EVT_bad_desc 1) := (writes_finish s n 4 0 0).trans (writes_of_eq rfl)
        exact h.trans (ih _)
      · exact writes_self s
    · exact writes_self s

theorem writes_cqResume (s : State) : Writes s s.cqResume := by
  unfold State.cqResume
  split
  · exact writes_self s
  · refine Writes.fold _ (fun s m => ?_) _ s
    unfold State.cqFreed
    split
    · exact writes_self s
    · refine Writes.fold _ (fun s n => ?_) _ s
      split
      · split
        · exact (writes_cqWrite ..).trans (writes_badFront ..)
        · exact writes_self s
      · exact writes_self s

theorem writes_streamDone (s : State) : Writes s s.streamDone := by
  unfold State.streamDone
  split
  · exact writes_self s
  · refine Writes.fold _ (fun s p => ?_) _ s
    dsimp only
    split
    · exact writes_of_eq rfl
    · exact writes_self s

theorem writes_hrvSync (s : State) : Writes s s.hrvSync := by
  unfold State.hrvSync
  split
  · exact writes_self s
  · exact ((writes_cqResume s).trans (serves_deliverOut _).writes).trans (writes_streamDone _)

theorem writes_startEntry (s : State) : Writes s s.startEntry := by
  unfold State.startEntry
  split
  · exact writes_of_eq rfl
  · exact writes_self s

theorem writes_signal (v : Nat) (s : State) : Writes s (State.signal v s) := by
  unfold State.signal
  split
  · exact writes_of_eq rfl
  · exact writes_of_eq rfl

theorem writes_irqSync (s : State) : Writes s s.irqSync := by
  have hp : ∀ s : State, Writes s s.pbaSync := fun s => by
    unfold State.pbaSync
    split
    · exact writes_self s
    · refine Writes.fold _ (fun s v => ?_) _ s
      split
      · exact writes_self s
      · exact .trans (u := { s with msxPba := s.msxPba.filter (· ≠ v) }) (writes_of_eq rfl) (writes_signal v _)
  have hs : ∀ (s : State) i, Writes s (s.irqStep i) := fun s i => by
    unfold State.irqStep
    split
    · split
      · exact writes_self s
      · exact .trans (u := { s with irqSeen := ins s.irqSeen i 1 }) (writes_of_eq rfl) (writes_signal _ _)
    · split
      · exact writes_of_eq rfl
      · exact writes_self s
  exact (Writes.fold _ hs (List.range 17) s).trans (hp _)

/-! ### A machine where nothing but Harvest waits -/

/-- Nothing waits to be done but accesses of BAR2 and by Harvest. -/
structure Unwaiting (s : State) : Prop where
  waking : s.hks.waking = none
  step2 : s.hks.step ≠ 2
  step3 : s.hks.step ≠ 3
  hostReq : s.hks.hostReq = none
  held : s.held = []
  script : s.hks.script = none
  runReq : s.hks.runReq = none
  hopWait : s.clk.hopWait = none
  pending : s.rd CLK_HOP_pending = 0
  idle : s.acqSt = 0
  source : s.rd CLK_STAT_s_src_act = 0

/-- What follows a command in such a machine takes nothing back. -/
theorem writes_settle {old u : State} (h : Unwaiting u) (hi : old.acqSt = 0) : Writes u (State.settle old u) := by
  have e0 : u.selfSync = u.refOutSync := by
    have hx : (u.refOutSync.on CLK_STAT_s_src_act && u.refOutSync.grid.run) = false := by
      simp [State.on, State.refOutSync, h.source]
    have hid : u.refOutSync.idle = true := by
      have := h.idle
      simp only [State.acqSt] at this
      simp [State.idle, State.acqSt, State.refOutSync, this]
    rw [State.selfSync, State.extTrack, hx]
    simp [State.keepUp, hid]
  have hr : ∃ b, u.refOutSync = { u with tmb := b } := ⟨_, rfl⟩
  obtain ⟨b, hb⟩ := hr
  have w : ({ u with tmb := b } : State).wakeSync = { u with tmb := b } := by simp [State.wakeSync, h.waking]
  have bo : ({ u with tmb := b } : State).bootSync = { u with tmb := b } := by simp [State.bootSync, h.step2, h.step3]
  have ho : ({ u with tmb := b } : State).hostSync = { u with tmb := b } := by simp [State.hostSync, h.hostReq]
  have he : ({ u with tmb := b } : State).heldSync = { u with tmb := b } := by simp [State.heldSync, h.held]
  have hm := accessed_memSync { u with tmb := b }
  have hk : ({ u with tmb := b } : State).rd ACQ_STAT_state = 0 ∧ ({ u with tmb := b } : State).rd CLK_HOP_pending = 0 := ⟨h.idle, h.pending⟩
  rw [State.settle, e0, hb, w, bo, ho, he]
  generalize ({ u with tmb := b } : State).memSync = v at *
  have hq : v.acqSt = 0 := hm.state.trans hk.1
  have se : v.seqSync = v := by simp [State.seqSync, hm.hks, h.script, h.runReq]
  have e6 : State.armSync old v = v := if_neg fun x => by omega
  have e7 : State.idleSync old v = v := if_neg fun x => x.1 hi
  have hop : v.hopSync = v := by simp [State.hopSync, hm.clk, h.hopWait, hm.hop.trans hk.2]
  rw [se, e6, e7, hop]
  have h0 : Writes u v := writes_of_eq hm.out
  exact ((h0.trans (writes_hrvSync v)).trans (writes_startEntry _)).trans (writes_irqSync _)

end Sys2Proof.Machine
end

