-- ==== Sys2Proof/Proofs/CopyDescriptors.lean ====
section
/-! PROOFS. A machine that refutes O42: the number of a ring's completion ring is wider than its 4 bits. -/

namespace Sys2Proof

open Machine

/-- One byte of near memory, to host address 0x1000. -/
def nearByte : Desc := ⟨0, 0x1000, 1, 0, 2 ^ 63, false, true, false⟩

/-- A machine whose ring 0 has that descriptor in hand, and completion ring 3,968, whose base address lies where the black box counts its
entries. -/
def wideCq : State :=
  { State.reset with
    hks := { Hks.new with rails := true },
    hrv := { State.reset.hrv with link := some (16, 5), bme := true, rings := [(0, { Ring.idle with q := [nearByte] })] },
    fields := [((CLK_x_STAT_gated 1).key, 0), ((CLK_x_STAT_gated 2).key, 0), (HRV_CTL_en.key, 1), ((HRV_RINGn_CFG_cq 0).key, 3968),
      ((HRV_RINGn_CFG_en 0).key, 1), ((HRV_CQm_CFG_en 3968).key, 1), (DMC_STAT_clear_busy.key, 0), (NMC_STAT_clear_busy.key, 0)] }

theorem slotFree_wideCq : SlotFree wideCq := fun c h => by simp [wideCq, State.reset, Inp.new] at h

theorem exec_copy_wideCq : exec (.copyDescriptor 0 ⟨[], [bar2Near], ⟨0, 0⟩⟩) wideCq
    = .next (State.settle wideCq (State.copyDesc 0 [] [bar2Near] 0 0 wideCq)) := by
  rw [exec_copyDescriptor, State.performOnAt, performOn_next _ _ ⟨rfl, rfl⟩, reached_free _ _ slotFree_wideCq]
  rfl

/-- What the host has been written once all that follows the command is done: the byte, and the entry at an address that counts the error. -/
theorem out_wideCq : (State.settle wideCq (State.copyDesc 0 [] [bar2Near] 0 0 wideCq)).hrv.out.map HostTlp.addr = [0x1000, 2 ^ 33] := by decide +kernel

/-- The place of the entry by the registers before the command. -/
theorem addr_wideCq : 0 = 64 * wideCq.rd (HRV_CQm_BASE_LO_addr (wideCq.rd (HRV_RINGn_CFG_cq 0)))
    + 2 ^ 32 * wideCq.rd (HRV_CQm_BASE_HI_addr (wideCq.rd (HRV_RINGn_CFG_cq 0)))
    + 32 * (wideCq.rd (HRV_CQm_TAIL_idx (wideCq.rd (HRV_RINGn_CFG_cq 0))) % wideCq.cqSize (wideCq.rd (HRV_RINGn_CFG_cq 0))) := by decide

/-- The machine once the error of the reading has been met. -/
def metCq : State := State.bar2Errors bar2Near 1 [] [bar2Near] ((wideCq.advance 0).migNow.nearSeen bar2Near 1)

theorem unwaiting_metCq : Unwaiting metCq := by constructor <;> decide +kernel

/-- Where only Harvest's own registers and state may differ, nothing else waits. -/
theorem Machine.Unwaiting.of_ringFrame {s u : State} {n : Nat} {l : List Fld} (h : Unwaiting s) (hf : RingFrame s u n l)
    (hl : ∀ f ∈ [CLK_HOP_pending, ACQ_STAT_state, CLK_STAT_s_src_act],
      f.key ∉ (l ++ [HRV_BYTES, HRV_POISON_CNT_count, HRV_EVT_poison, HRV_CQm_TAIL_idx (s.rd (HRV_RINGn_CFG_cq n)),
        HRV_CQm_TAIL_phase (s.rd (HRV_RINGn_CFG_cq n)), HRV_RINGn_HEAD_idx n, DMC_RDP_CNT_count]).map Fld.key) : Unwaiting u := by
  obtain ⟨hr, hs⟩ := hf
  have regs : ∀ f ∈ [CLK_HOP_pending, ACQ_STAT_state, CLK_STAT_s_src_act], u.rd f = s.rd f := fun f hx => hr f (hl f hx)
  simp only [List.forall_mem_cons, List.not_mem_nil, false_imp_iff, implies_true, and_true] at regs
  obtain ⟨hp, ha, hx⟩ := regs
  rw [sameRest_iff] at hs
  obtain ⟨_, _, held, _, _, _, _, _, clk, _, _, _, _, _, _, _, _, _, _, _, hks, _⟩ := hs
  have held' : u.held = s.held := held
  have clk' : u.clk = s.clk := clk
  have hks' : u.hks = s.hks := hks
  exact ⟨hks' ▸ h.waking, hks' ▸ h.step2, hks' ▸ h.step3, hks' ▸ h.hostReq, held' ▸ h.held, hks' ▸ h.script, hks' ▸ h.runReq, clk' ▸ h.hopWait,
    hp ▸ h.pending, ha.trans h.idle, hx ▸ h.source⟩

/-- Refutes O42: the completion entry is said to go to the base address of the completion ring as it was before the command. On a machine
whose ring names completion ring 3,968 (`wideCq`), which the statement admits although the field has 4 bits, that base address is the
register in which the black box counts its entries, and an uncorrectable error of the reading adds one before the entry is written. On
machines whose registers hold values of their width no register of an error is one of a completion ring. -/
theorem not_copyDescriptors : ¬ Obligations.CopyDescriptors := by
  unfold Obligations.CopyDescriptors
  intro h
  have hans := h wideCq 0 [] [bar2Near] 0 0 nearByte [] ⟨rfl, rfl⟩ (by decide) rfl rfl rfl (by simp)
  obtain ⟨u, hu, -, -, -, -, -, hframe, -, -, -, hcomp, -⟩ := hans.becomes slotFree_wideCq exec_copy_wideCq
  obtain ⟨-, -, -, -, -, pre, e, hout, -, -⟩ := hcomp (by decide) ⟨rfl, fun i hi => absurd hi (Nat.not_lt_zero i)⟩
  have hq : Unwaiting u := unwaiting_metCq.of_ringFrame hframe (by decide +kernel)
  have hpre : u.hrv.out.map HostTlp.addr <+: [0x1000, 2 ^ 33] := by
    rw [← out_wideCq, ← hu]
    exact (writes_settle hq (by decide)).map _
  have hmem : (0 : Nat) ∈ u.hrv.out.map HostTlp.addr := by
    rw [hout]
    simp only [List.map_append, List.mem_append]
    exact .inr (List.mem_singleton.2 addr_wideCq)
  exact absurd (hpre.subset hmem) (by decide)

end Sys2Proof
end

