-- ==== Sys2Proof/Proofs/LinkAwake.lean ====
section
/-! SUPPORT. A host access takes the link out of L1.2 before anything else, and nothing on the way of acquisition up to an instant reads or
writes that: the run of acquisition up to an instant commutes with it. One lemma for each of its operations. -/

namespace Sys2Proof.Machine

/-- Harvest with the link out of L1.2. -/
def Hrv.awake (h : Hrv) : Hrv := { h with l12 := false }

@[simp] theorem State.linkUsed_build (s : State) : s.linkUsed.build = s.build := rfl
@[simp] theorem State.linkUsed_fields (s : State) : s.linkUsed.fields = s.fields := rfl
@[simp] theorem State.linkUsed_caps (s : State) : s.linkUsed.caps = s.caps := rfl
@[simp] theorem State.linkUsed_held (s : State) : s.linkUsed.held = s.held := rfl
@[simp] theorem State.linkUsed_free (s : State) : s.linkUsed.free = s.free := rfl
@[simp] theorem State.linkUsed_grid (s : State) : s.linkUsed.grid = s.grid := rfl
@[simp] theorem State.linkUsed_inp (s : State) : s.linkUsed.inp = s.inp := rfl
@[simp] theorem State.linkUsed_tmb (s : State) : s.linkUsed.tmb = s.tmb := rfl
@[simp] theorem State.linkUsed_dsk (s : State) : s.linkUsed.dsk = s.dsk := rfl
@[simp] theorem State.linkUsed_task (s : State) : s.linkUsed.task = s.task := rfl
@[simp] theorem State.linkUsed_clk (s : State) : s.linkUsed.clk = s.clk := rfl
@[simp] theorem State.linkUsed_trl (s : State) : s.linkUsed.trl = s.trl := rfl
@[simp] theorem State.linkUsed_acq (s : State) : s.linkUsed.acq = s.acq := rfl
@[simp] theorem State.linkUsed_hdg (s : State) : s.linkUsed.hdg = s.hdg := rfl
@[simp] theorem State.linkUsed_red (s : State) : s.linkUsed.red = s.red := rfl
@[simp] theorem State.linkUsed_siv (s : State) : s.linkUsed.siv = s.siv := rfl
@[simp] theorem State.linkUsed_tim (s : State) : s.linkUsed.tim = s.tim := rfl
@[simp] theorem State.linkUsed_dmc (s : State) : s.linkUsed.dmc = s.dmc := rfl
@[simp] theorem State.linkUsed_rak (s : State) : s.linkUsed.rak = s.rak := rfl
@[simp] theorem State.linkUsed_hrv (s : State) : s.linkUsed.hrv = s.hrv.awake := rfl
@[simp] theorem State.linkUsed_stp (s : State) : s.linkUsed.stp = s.stp := rfl
@[simp] theorem State.linkUsed_grf (s : State) : s.linkUsed.grf = s.grf := rfl
@[simp] theorem State.linkUsed_hks (s : State) : s.linkUsed.hks = s.hks := rfl
@[simp] theorem State.linkUsed_pwr (s : State) : s.linkUsed.pwr = s.pwr := rfl
@[simp] theorem State.linkUsed_bbx (s : State) : s.linkUsed.bbx = s.bbx := rfl
@[simp] theorem State.linkUsed_jtg (s : State) : s.linkUsed.jtg = s.jtg := rfl
@[simp] theorem State.linkUsed_near (s : State) : s.linkUsed.near = s.near := rfl
@[simp] theorem State.linkUsed_deep (s : State) : s.linkUsed.deep = s.deep := rfl
@[simp] theorem State.linkUsed_scr (s : State) : s.linkUsed.scr = s.scr := rfl
@[simp] theorem State.linkUsed_nv (s : State) : s.linkUsed.nv = s.nv := rfl
@[simp] theorem State.linkUsed_poison (s : State) : s.linkUsed.poison = s.poison := rfl
@[simp] theorem State.linkUsed_dpoison (s : State) : s.linkUsed.dpoison = s.dpoison := rfl
@[simp] theorem State.linkUsed_cells (s : State) : s.linkUsed.cells = s.cells := rfl
@[simp] theorem State.linkUsed_msxTab (s : State) : s.linkUsed.msxTab = s.msxTab := rfl
@[simp] theorem State.linkUsed_msxPba (s : State) : s.linkUsed.msxPba = s.msxPba := rfl
@[simp] theorem State.linkUsed_msix (s : State) : s.linkUsed.msix = s.msix := rfl
@[simp] theorem State.linkUsed_irqSeen (s : State) : s.linkUsed.irqSeen = s.irqSeen := rfl
@[simp] theorem State.linkUsed_pending (s : State) : s.linkUsed.pending = s.pending := rfl
/-- A record put together from a machine with the link awake is such a machine. -/
@[simp] theorem State.mk_awake (b f c h fr g i t d ta cl tr ac hd re si ti dm ra hr st gr hk pw bb jt near deep scr nv po dp ce mt mp mi ir pe) :
    State.mk b f c h fr g i t d ta cl tr ac hd re si ti dm ra (Hrv.awake hr) st gr hk pw bb jt near deep scr nv po dp ce mt mp mi ir pe
      = (State.mk b f c h fr g i t d ta cl tr ac hd re si ti dm ra hr st gr hk pw bb jt near deep scr nv po dp ce mt mp mi ir pe).linkUsed := rfl
@[simp] theorem State.ite_linkUsed (c : Prop) [Decidable c] (a b : State) :
    (if c then a.linkUsed else b.linkUsed) = (if c then a else b).linkUsed :=
  (apply_ite _ _ _ _).symm

/-- What each step of a fold commutes with, the fold commutes with. -/
@[simp] theorem foldl_linkUsed {α : Type} (g : State → α → State) (l : List α) (s : State) (h : ∀ u a, g u.linkUsed a = (g u a).linkUsed) :
    l.foldl g s.linkUsed = (l.foldl g s).linkUsed := by
  induction l generalizing s with
  | nil => rfl
  | cons a r ih => rw [List.foldl_cons, List.foldl_cons, h, ih]

/-- The same of a fold that collects something beside the machine. -/
theorem foldl_fst_linkUsed {α β : Type} (g : State × β → α → State × β) (l : List α) (s : State) (b : β)
    (h : ∀ u c a, g (u.linkUsed, c) a = ((g (u, c) a).1.linkUsed, (g (u, c) a).2)) :
    l.foldl g (s.linkUsed, b) = ((l.foldl g (s, b)).1.linkUsed, (l.foldl g (s, b)).2) := by
  induction l generalizing s b with
  | nil => rfl
  | cons a r ih => rw [List.foldl_cons, List.foldl_cons, h, ih]

theorem ite_fst_linkUsed {β : Type} (c : Prop) [Decidable c] (a b : State) (x y : β) :
    (if c then (a.linkUsed, x) else (b.linkUsed, y)) = ((if c then (a, x) else (b, y)).1.linkUsed, (if c then (a, x) else (b, y)).2) := by
  split <;> rfl


@[simp] theorem State.rd_linkUsed (s : State) (f : Fld) : State.rd s.linkUsed f = State.rd s f := rfl

@[simp] theorem State.wr_linkUsed (s : State) (f : Fld) (v : Nat) : State.wr s.linkUsed f v = (State.wr s f v).linkUsed := by simp [State.wr]

@[simp] theorem State.on_linkUsed (s : State) (f : Fld) : State.on s.linkUsed f = State.on s f := rfl

@[simp] theorem State.rdS_linkUsed (s : State) (f : Fld) : State.rdS s.linkUsed f = State.rdS s f := rfl

@[simp] theorem State.bump_linkUsed (s : State) (f : Fld) : State.bump s.linkUsed f = (State.bump s f).linkUsed := by simp [State.bump]

@[simp] theorem State.addF_linkUsed (s : State) (f : Fld) (n : Nat) : State.addF s.linkUsed f n = (State.addF s f n).linkUsed := by simp [State.addF]

@[simp] theorem State.addSat_linkUsed (s : State) (f : Fld) (n : Nat) : State.addSat s.linkUsed f n = (State.addSat s f n).linkUsed := by simp [State.addSat]

@[simp] theorem State.orF_linkUsed (s : State) (f : Fld) (v : Nat) : State.orF s.linkUsed f v = (State.orF s f v).linkUsed := by simp [State.orF]

@[simp] theorem State.chBit_linkUsed (s : State) (f : Nat → Fld) (c : Nat) : State.chBit s.linkUsed f c = State.chBit s f c := rfl

@[simp] theorem State.chSet_linkUsed (s : State) (f : Nat → Fld) : State.chSet s.linkUsed f = State.chSet s f := rfl

@[simp] theorem State.draw_linkUsed (s : State) (n : Nat) : State.draw s.linkUsed n = ((State.draw s n).1, (State.draw s n).2.linkUsed) := by simp [State.draw]

@[simp] theorem State.activates_linkUsed (n : Nat) (s : State) : State.activates n s.linkUsed = (State.activates n s).linkUsed := by
  simp only [State.activates, State.addF, State.linkUsed_free, State.rd_linkUsed, State.on_linkUsed, State.wr_linkUsed]
  rfl

@[simp] theorem State.is512_linkUsed (s : State) : State.is512 s.linkUsed = State.is512 s := rfl

@[simp] theorem State.nTiles_linkUsed (s : State) : State.nTiles s.linkUsed = State.nTiles s := rfl

@[simp] theorem State.nChan_linkUsed (s : State) : State.nChan s.linkUsed = State.nChan s := rfl

@[simp] theorem State.mode_linkUsed (s : State) : State.mode s.linkUsed = State.mode s := rfl

@[simp] theorem State.comp_linkUsed (s : State) : State.comp s.linkUsed = State.comp s := rfl

@[simp] theorem State.tileMode_linkUsed (s : State) (tile : Nat) : State.tileMode s.linkUsed tile = State.tileMode s tile := rfl

@[simp] theorem State.chMode_linkUsed (s : State) (c : Nat) : State.chMode s.linkUsed c = State.chMode s c := rfl

@[simp] theorem State.captured_linkUsed (s : State) (c : Nat) : State.captured s.linkUsed c = State.captured s c := rfl

@[simp] theorem State.acqSt_linkUsed (s : State) : State.acqSt s.linkUsed = State.acqSt s := rfl

@[simp] theorem State.idle_linkUsed (s : State) : State.idle s.linkUsed = State.idle s := rfl

@[simp] theorem State.armed_linkUsed (s : State) : State.armed s.linkUsed = State.armed s := rfl

@[simp] theorem State.coreRun_linkUsed (s : State) : State.coreRun s.linkUsed = State.coreRun s := rfl

@[simp] theorem State.sbase_linkUsed (s : State) : State.sbase s.linkUsed = State.sbase s := rfl

@[simp] theorem State.cnom_linkUsed (s : State) : State.cnom s.linkUsed = State.cnom s := rfl

@[simp] theorem State.tcPoint_linkUsed (s : State) (i : Nat) : State.tcPoint s.linkUsed i = State.tcPoint s i := rfl

@[simp] theorem State.tcEmpty_linkUsed (s : State) : State.tcEmpty s.linkUsed = State.tcEmpty s := rfl

@[simp] theorem State.tcAsc_linkUsed (s : State) : State.tcAsc s.linkUsed = State.tcAsc s := rfl

@[simp] theorem State.tcompWalk_linkUsed (s : State) (t16 : Int) (fuel fuel' : Nat) : tcompWalk s.linkUsed t16 fuel fuel' = tcompWalk s t16 fuel fuel' := by
  induction fuel generalizing fuel' with
  | zero => rfl
  | succ k ih => simp only [tcompWalk, State.tcPoint_linkUsed, ih]

@[simp] theorem State.tcomp_linkUsed (s : State) : State.tcomp s.linkUsed = State.tcomp s := rfl

@[simp] theorem State.ageY_linkUsed (s : State) : State.ageY s.linkUsed = State.ageY s := rfl

@[simp] theorem State.y40_linkUsed (s : State) : State.y40 s.linkUsed = State.y40 s := rfl

@[simp] theorem State.advance_linkUsed (s : State) (t : Nat) : State.advance s.linkUsed t = (State.advance s t).linkUsed := by
  by_cases h : s.tmb.kt < t <;> simp [State.advance, h]

@[simp] theorem State.bbox_linkUsed (s : State) (code src detail : Nat) : State.bbox s.linkUsed code src detail = (State.bbox s code src detail).linkUsed := by
  simp [State.bbox]
  (repeat' split) <;> simp_all

@[simp] theorem State.nowPos_linkUsed (s : State) : State.nowPos s.linkUsed = State.nowPos s := rfl

@[simp] theorem State.fetTiles_linkUsed (s : State) : State.fetTiles s.linkUsed = State.fetTiles s := rfl

@[simp] theorem State.owner_linkUsed (s : State) (tile : Nat) : State.owner s.linkUsed tile = State.owner s tile := rfl

@[simp] theorem State.tilesOf_linkUsed (s : State) (o : Owner) : State.tilesOf s.linkUsed o = State.tilesOf s o := rfl

@[simp] theorem State.nearCorrected_linkUsed (s : State) : State.nearCorrected s.linkUsed = (State.nearCorrected s).linkUsed := by simp [State.nearCorrected]

@[simp] theorem State.nearUncorr_linkUsed (s : State) (a : Nat) : State.nearUncorr s.linkUsed a = (State.nearUncorr s a).linkUsed := by simp [State.nearUncorr]

@[simp] theorem State.scrUncorr_linkUsed (s : State) (a : Nat) : State.scrUncorr s.linkUsed a = (State.scrUncorr s a).linkUsed := by simp [State.scrUncorr]

@[simp] theorem State.cellsOf_linkUsed (s : State) (target w : Nat) : State.cellsOf s.linkUsed target w = State.cellsOf s target w := rfl

@[simp] theorem State.cellWords_linkUsed (s : State) (target a n : Nat) : State.cellWords s.linkUsed target a n = State.cellWords s target a n := rfl

@[simp] theorem State.cellRead_linkUsed (s : State) (target a n : Nat) : State.cellRead s.linkUsed target a n = (State.cellRead s target a n).linkUsed := by simp [State.cellRead]

@[simp] theorem State.ringHolds_linkUsed (s : State) (t0 n i : Nat) : State.ringHolds s.linkUsed t0 n i = State.ringHolds s t0 n i := rfl

@[simp] theorem State.ringBad_linkUsed (s : State) (f a b : Nat) : State.ringBad s.linkUsed f a b = State.ringBad s f a b := rfl

@[simp] theorem State.ownerErrs_linkUsed (s : State) (o : Owner) : State.ownerErrs s.linkUsed o = State.ownerErrs s o := rfl

@[simp] theorem State.chBad_linkUsed (s : State) (c a b : Nat) : State.chBad s.linkUsed c a b = State.chBad s c a b := rfl

@[simp] theorem State.segNo_linkUsed (s : State) : State.segNo s.linkUsed = State.segNo s := rfl

@[simp] theorem State.susTime_linkUsed (s : State) (a b : Nat) : State.susTime s.linkUsed a b = State.susTime s a b := rfl

@[simp] theorem State.recMode_linkUsed (s : State) : State.recMode s.linkUsed = State.recMode s := rfl

@[simp] theorem State.recModeOf_linkUsed (s : State) (ch : Nat) : State.recModeOf s.linkUsed ch = State.recModeOf s ch := rfl

@[simp] theorem State.markMode_linkUsed (s : State) (kind ch x y : Nat) : State.markMode s.linkUsed kind ch x y = State.markMode s kind ch x y := rfl

@[simp] theorem State.markRec_linkUsed (s : State) (kt kind code ch x y n detail seg : Nat) (coarse : Bool) : State.markRec s.linkUsed kt kind code ch x y n detail seg coarse = State.markRec s kt kind code ch x y n detail seg coarse := rfl

@[simp] theorem State.gapRec_linkUsed (s : State) (kt ktEnd cause tiles seg lost pos : Nat) (coarse : Bool) : State.gapRec s.linkUsed kt ktEnd cause tiles seg lost pos coarse = State.gapRec s kt ktEnd cause tiles seg lost pos coarse := rfl

@[simp] theorem State.violRec_linkUsed (s : State) (kt rule kind ch : Nat) (o : Int) (ref actions seg cnt : Nat) (coarse : Bool) : State.violRec s.linkUsed kt rule kind ch o ref actions seg cnt coarse = State.violRec s kt rule kind ch o ref actions seg cnt coarse := rfl

@[simp] theorem State.capAddr_linkUsed (s : State) (place u : Nat) : State.capAddr s.linkUsed place u = State.capAddr s place u := rfl

@[simp] theorem State.deepPut_linkUsed (s : State) (a : Nat) (bs : List Byte) : State.deepPut s.linkUsed a bs = (State.deepPut s a bs).linkUsed := by simp [State.deepPut]

@[simp] theorem State.deepPutZ_linkUsed (s : State) (a : Nat) (bs : List Byte) (z : Nat) : State.deepPutZ s.linkUsed a bs z = (State.deepPutZ s a bs z).linkUsed := by simp [State.deepPutZ]

@[simp] theorem State.padHead_linkUsed (s : State) (seq n : Nat) : State.padHead s.linkUsed seq n = State.padHead s seq n := rfl

@[simp] theorem State.deepPad_linkUsed (s : State) (a seq n : Nat) : State.deepPad s.linkUsed a seq n = (State.deepPad s a seq n).linkUsed := by simp [State.deepPad]

@[simp] theorem State.capWrite_linkUsed (s : State) (w : CapW) : State.capWrite s.linkUsed w = (State.capWrite s w).linkUsed := by simp [State.capWrite]

@[simp] theorem State.wrote_linkUsed (s : State) (src size n : Nat) : State.wrote s.linkUsed src size n = (State.wrote s src size n).linkUsed := by
  simp [State.wrote]
  rfl

@[simp] theorem State.nSegs_linkUsed (s : State) : State.nSegs s.linkUsed = State.nSegs s := rfl

@[simp] theorem State.mayWrite_linkUsed (s : State) (i hi : Nat) : State.mayWrite s.linkUsed i hi = State.mayWrite s i hi := rfl

@[simp] theorem State.capStore_linkUsed (s : State) (w : CapW) : State.capStore s.linkUsed w = (State.capStore s w).linkUsed := by simp [State.capStore]

@[simp] theorem State.capNext_linkUsed (s : State) (g : Seg) (bs : List Byte) (z n : Nat) (bad : List Nat) : State.capNext s.linkUsed g bs z n bad = (State.capNext s g bs z n bad).linkUsed := by
  simp only [State.capNext, State.capAddr_linkUsed, State.capStore_linkUsed]
  rfl

@[simp] theorem State.capRaw_linkUsed (s : State) (g : Seg) (r : Rec) (bad : List Nat) : State.capRaw s.linkUsed g r bad = (State.capRaw s g r bad).linkUsed := by simp [State.capRaw]

@[simp] theorem State.capFill_linkUsed (s : State) (g : Seg) : State.capFill s.linkUsed g = (State.capFill s g).linkUsed := by simp [State.capFill]

@[simp] theorem State.capPad_linkUsed (s : State) (n : Nat) : State.capPad s.linkUsed n = (State.capPad s n).linkUsed := by
  simp [State.capPad]
  split <;> rfl

@[simp] theorem State.capPutP_linkUsed (s : State) (r : Rec) (bad : List Nat) : State.capPutP s.linkUsed r bad = (State.capPutP s r bad).linkUsed := by
  simp [State.capPutP]
  split <;> rfl

@[simp] theorem State.capPut_linkUsed (s : State) (r : Rec) : State.capPut s.linkUsed r = (State.capPut s r).linkUsed := by simp [State.capPut]

@[simp] theorem State.lead_linkUsed (s : State) (r : Rec) : State.lead s.linkUsed r = (State.lead s r).linkUsed := by
  by_cases h : s.acq.leads.length < 256 <;> simp [State.lead, h]

@[simp] theorem State.event_linkUsed (s : State) (r : Rec) : State.event s.linkUsed r = (State.event s r).linkUsed := by
  simp [State.event]
  split <;> rfl

@[simp] theorem State.mark_linkUsed (s : State) (kt kind code ch x y n detail : Nat) (coarse : Bool) : State.mark s.linkUsed kt kind code ch x y n detail coarse = (State.mark s kt kind code ch x y n detail coarse).linkUsed := by simp [State.mark]

@[simp] theorem State.evtRoom_linkUsed (s : State) : State.evtRoom s.linkUsed = State.evtRoom s := rfl

@[simp] theorem State.markTrellis_linkUsed (s : State) (kt code ch level branch : Nat) (coarse : Bool) : State.markTrellis s.linkUsed kt code ch level branch coarse = (State.markTrellis s kt code ch level branch coarse).linkUsed := by
  simp [State.markTrellis]
  split <;> rfl

@[simp] theorem State.acqP_linkUsed (s : State) : State.acqP s.linkUsed = State.acqP s := rfl

@[simp] theorem State.acqQ_linkUsed (s : State) : State.acqQ s.linkUsed = State.acqQ s := rfl

@[simp] theorem State.susAt_linkUsed (s : State) (tile t : Nat) : State.susAt s.linkUsed tile t = State.susAt s tile t := rfl

@[simp] theorem State.smp_linkUsed (s : State) (c k : Nat) : State.smp s.linkUsed c k = State.smp s c k := rfl

@[simp] theorem State.prMatch_linkUsed (s : State) (p k : Nat) : State.prMatch s.linkUsed p k = State.prMatch s p k := rfl

@[simp] theorem State.units_linkUsed (s : State) : State.units s.linkUsed = State.units s := rfl

@[simp] theorem State.unitN_linkUsed (s : State) : State.unitN s.linkUsed = State.unitN s := rfl

@[simp] theorem State.inStall_linkUsed (s : State) (u : RUnit) : State.inStall s.linkUsed u = State.inStall s u := rfl

@[simp] theorem State.lateLost_linkUsed (s : State) (u : RUnit) : State.lateLost s.linkUsed u = State.lateLost s u := rfl

@[simp] theorem State.addUnit_linkUsed (s : State) (u : RUnit) : State.addUnit s.linkUsed u = (State.addUnit s u).linkUsed := by simp [State.addUnit]

@[simp] theorem State.ru_linkUsed (s : State) (n : Nat) : State.ru s.linkUsed n = State.ru s n := rfl

@[simp] theorem State.setRu_linkUsed (s : State) (n : Nat) (r : Ru) : State.setRu s.linkUsed n r = (State.setRu s n r).linkUsed := by simp [State.setRu]

@[simp] theorem State.ruSet_linkUsed (s : State) (n : Nat) : State.ruSet s.linkUsed n = State.ruSet s n := rfl

@[simp] theorem State.redActive_linkUsed (s : State) (n : Nat) : State.redActive s.linkUsed n = State.redActive s n := rfl

@[simp] theorem State.redShut_linkUsed (s : State) (n : Nat) : State.redShut s.linkUsed n = (State.redShut s n).linkUsed := by simp [State.redShut]

@[simp] theorem State.redLose_linkUsed (s : State) (n k : Nat) : State.redLose s.linkUsed n k = (State.redLose s n k).linkUsed := by simp [State.redLose]

@[simp] theorem State.redPad_linkUsed (s : State) (n k : Nat) : State.redPad s.linkUsed n k = (State.redPad s n k).linkUsed := by simp [State.redPad]

@[simp] theorem State.trailerRu_linkUsed (s : State) (n seg : Nat) : State.trailerRu s.linkUsed n seg = (State.trailerRu s n seg).linkUsed := by
  simp [State.trailerRu]
  split <;> rfl

@[simp] theorem State.redPut_linkUsed (s0 : State) (n k : Nat) (r : Rec) : State.redPut s0.linkUsed n k r = (State.redPut s0 n k r).linkUsed := by simp [State.redPut]

@[simp] theorem State.redClose_linkUsed (s : State) (n : Nat) : State.redClose s.linkUsed n = (State.redClose s n).linkUsed := by
  by_cases h : (s.ru n).opened
  · simp only [State.redClose, State.ru_linkUsed, State.rd_linkUsed, State.recMode_linkUsed, State.redPut_linkUsed, State.setRu_linkUsed, h]
    rfl
  · simp [State.redClose, h]

@[simp] theorem State.redCredit_linkUsed (s : State) (n t : Nat) : State.redCredit s.linkUsed n t = State.redCredit s n t := rfl

@[simp] theorem State.segOpenAt_linkUsed (s : State) (t : Nat) : State.segOpenAt s.linkUsed t = State.segOpenAt s t := rfl

@[simp] theorem State.redSus_linkUsed (s : State) (n a b : Nat) : State.redSus s.linkUsed n a b = State.redSus s n a b := rfl

@[simp] theorem State.redBad_linkUsed (s : State) (n a b : Nat) : State.redBad s.linkUsed n a b = State.redBad s n a b := rfl

@[simp] theorem State.redEntry_linkUsed (s : State) (n t w pos : Nat) (sres part unres : Bool) (payload : List Byte) : State.redEntry s.linkUsed n t w pos sres part unres payload = (State.redEntry s n t w pos sres part unres payload).linkUsed := by
  simp only [State.redEntry, State.redCredit_linkUsed, State.ru_linkUsed, State.redBad_linkUsed, State.redLose_linkUsed, State.redClose_linkUsed, State.segOpenAt_linkUsed, State.redSus_linkUsed, State.setRu_linkUsed, State.mk_awake, State.ite_linkUsed]
  rfl

@[simp] theorem State.redLvl_linkUsed (s : State) (c p : Nat) : State.redLvl s.linkUsed c p = State.redLvl s c p := rfl

@[simp] theorem State.redWord_linkUsed (s : State) (l : List Nat) (p : Nat) : State.redWord s.linkUsed l p = State.redWord s l p := rfl

@[simp] theorem State.redUnres_linkUsed (s : State) (n a b : Nat) : State.redUnres s.linkUsed n a b = State.redUnres s n a b := rfl

@[simp] theorem State.redChange_linkUsed (s : State) (l : List Nat) (p : Nat) : State.redChange s.linkUsed l p = State.redChange s l p := rfl

@[simp] theorem State.redChanges_linkUsed (s : State) (l : List Nat) (a b : Nat) : State.redChanges s.linkUsed l a b = State.redChanges s l a b := rfl

@[simp] theorem State.redSample_linkUsed (n : Nat) (s : State) (p : Nat) : State.redSample n s.linkUsed p = (State.redSample n s p).linkUsed := by simp [State.redSample]

@[simp] theorem State.busSet_linkUsed (s : State) (n : Nat) : State.busSet s.linkUsed n = State.busSet s n := rfl

@[simp] theorem State.redBus_linkUsed (s : State) (n c k : Nat) : State.redBus s.linkUsed n c k = (State.redBus s n c k).linkUsed := by simp [State.redBus]

@[simp] theorem State.redStable_linkUsed (n k : Nat) (change : Bool) (s : State) (q : Nat) : State.redStable n k change s.linkUsed q = (State.redStable n k change s q).linkUsed := by
  simp [State.redStable]
  (repeat' split) <;> simp

@[simp] theorem State.seenAt_linkUsed (s : State) (n v a b : Nat) : State.seenAt s.linkUsed n v a b = State.seenAt s n v a b := rfl

@[simp] theorem State.ivlPayload_linkUsed (s : State) (n a b : Nat) : State.ivlPayload s.linkUsed n a b = State.ivlPayload s n a b := rfl

@[simp] theorem State.redIvlEnd_linkUsed (s : State) (n b : Nat) (part : Bool) : State.redIvlEnd s.linkUsed n b part = (State.redIvlEnd s n b part).linkUsed := by simp [State.redIvlEnd]

@[simp] theorem State.redIvls_linkUsed (n p fuel : Nat) (s : State) : State.redIvls n p fuel s.linkUsed = (State.redIvls n p fuel s).linkUsed := by
  induction fuel generalizing s with
  | zero => rfl
  | succ k ih =>
    simp [State.redIvls]
    (repeat' split) <;> simp_all

@[simp] theorem State.redUpTo_linkUsed (s : State) (n p : Nat) : State.redUpTo s.linkUsed n p = (State.redUpTo s n p).linkUsed := by
  unfold State.redUpTo
  by_cases h : !(s.ru n).run || decide (p ≤ (s.ru n).nextPos)
  · dsimp +instances only [State.ru_linkUsed]
    simp only [h, if_true]
  · dsimp +instances only [State.ru_linkUsed, State.rd_linkUsed]
    simp only [h]
    rw [if_neg Bool.false_ne_true, if_neg Bool.false_ne_true]
    generalize s.rd (RED_RUn_CFG_kind n) = kind
    split <;> simp

@[simp] theorem State.redPulse_linkUsed (s : State) (n ch t : Nat) (up : Bool) : State.redPulse s.linkUsed n ch t up = (State.redPulse s n ch t up).linkUsed := by
  simp [State.redPulse]
  split <;> rfl

@[simp] theorem State.redEdge1_linkUsed (s : State) (n ch t p : Nat) (up sres : Bool) : State.redEdge1 s.linkUsed n ch t p up sres = (State.redEdge1 s n ch t p up sres).linkUsed := by
  unfold State.redEdge1
  dsimp +instances only [State.ru_linkUsed, State.rd_linkUsed, State.chBit_linkUsed, State.captured_linkUsed]
  by_cases h : !(s.ru n).run || !s.chBit (RED_RUn_SET_bits n) ch || !s.captured ch || decide (p < (s.ru n).ivlPos)
  · simp only [h, if_true]
  · simp only [h]
    rw [if_neg Bool.false_ne_true, if_neg Bool.false_ne_true]
    split
    · simp
    · split <;> rfl
    · split <;> rfl
    · split <;> rfl
    · rfl

@[simp] theorem State.redEdge_linkUsed (s : State) (e : HeldE) : State.redEdge s.linkUsed e = (State.redEdge s e).linkUsed := by simp [State.redEdge]

@[simp] theorem State.redStart1_linkUsed (p : Nat) (s : State) (n : Nat) : State.redStart1 p s.linkUsed n = (State.redStart1 p s n).linkUsed := by
  simp [State.redStart1]
  rfl

@[simp] theorem State.redPast_linkUsed (s : State) (p : Nat) : State.redPast s.linkUsed p = State.redPast s p := rfl

@[simp] theorem State.redStart_linkUsed (s : State) (p : Nat) : State.redStart s.linkUsed p = (State.redStart s p).linkUsed := by simp [State.redStart]

@[simp] theorem State.slot_linkUsed (s : State) (n : Nat) : State.slot s.linkUsed n = State.slot s n := rfl

@[simp] theorem State.setSlot_linkUsed (s : State) (n : Nat) (x : Slot) : State.setSlot s.linkUsed n x = (State.setSlot s n x).linkUsed := by simp [State.setSlot]

@[simp] theorem State.m5Tile_linkUsed (s : State) (tile : Nat) : State.m5Tile s.linkUsed tile = State.m5Tile s tile := rfl

@[simp] theorem State.slotOn_linkUsed (s : State) (n : Nat) : State.slotOn s.linkUsed n = State.slotOn s n := rfl

@[simp] theorem State.slotUses_linkUsed (s : State) (n key : Nat) : State.slotUses s.linkUsed n key = State.slotUses s n key := rfl

@[simp] theorem State.slotHeld_linkUsed (s : State) (n t : Nat) : State.slotHeld s.linkUsed n t = State.slotHeld s n t := rfl

@[simp] theorem State.slotSel_linkUsed (s : State) (n c : Nat) (up : Bool) : State.slotSel s.linkUsed n c up = State.slotSel s n c up := rfl

@[simp] theorem State.timDiscard_linkUsed (s : State) (n : Nat) : State.timDiscard s.linkUsed n = (State.timDiscard s n).linkUsed := by simp [State.timDiscard]

@[simp] theorem State.recLimit_linkUsed (s : State) : State.recLimit s.linkUsed = State.recLimit s := rfl

@[simp] theorem State.recAt_linkUsed (s : State) (t : Nat) : State.recAt s.linkUsed t = State.recAt s t := rfl

@[simp] theorem State.recPace_linkUsed (s : State) (n t : Nat) (u : RUnit) (ends : List (Nat × Stamp)) : State.recPace s.linkUsed n t u ends = (State.recPace s n t u ends).linkUsed := by simp [State.recPace]

@[simp] theorem State.timRecord_linkUsed (s : State) (n t t0 cnt : Nat) (value : Int) (s0 sres sus : Bool) (ends : List (Nat × Stamp)) : State.timRecord s.linkUsed n t t0 cnt value s0 sres sus ends = (State.timRecord s n t t0 cnt value s0 sres sus ends).linkUsed := by
  simp [State.timRecord]
  rfl

@[simp] theorem State.timWrite_linkUsed (due : Nat × RUnit → Bool) (s : State) : State.timWrite due s.linkUsed = (State.timWrite due s).linkUsed := by
  simp [State.timWrite]
  rfl

@[simp] theorem State.gateEdges_linkUsed (s : State) (g : Nat) : State.gateEdges s.linkUsed g = State.gateEdges s g := rfl

@[simp] theorem State.gateLevel_linkUsed (s : State) (g t : Nat) : State.gateLevel s.linkUsed g t = State.gateLevel s g t := rfl

@[simp] theorem State.gateCounts_linkUsed (s : State) (n t0 : Nat) : State.gateCounts s.linkUsed n t0 = State.gateCounts s n t0 := rfl

@[simp] theorem State.timMeasure_linkUsed (s : State) (n : Nat) (a b : Stamp) : State.timMeasure s.linkUsed n a b = (State.timMeasure s n a b).linkUsed := by
  simp [State.timMeasure]
  rfl

@[simp] theorem State.signedPair_linkUsed (n fuel : Nat) (s : State) : State.signedPair n fuel s.linkUsed = (State.signedPair n fuel s).linkUsed := by
  induction fuel generalizing s with
  | zero => rfl
  | succ k ih =>
    simp [State.signedPair]
    (repeat' split) <;> simp_all

@[simp] theorem State.fwdStart_linkUsed (s : State) (n : Nat) (e : Stamp) : State.fwdStart s.linkUsed n e = (State.fwdStart s n e).linkUsed := by simp [State.fwdStart]

@[simp] theorem State.fwdStop_linkUsed (s : State) (n : Nat) (e : Stamp) : State.fwdStop s.linkUsed n e = (State.fwdStop s n e).linkUsed := by
  simp [State.fwdStop]
  split <;> rfl

@[simp] theorem State.spanMeasure_linkUsed (s : State) (n : Nat) (a e : Stamp) : State.spanMeasure s.linkUsed n a e = (State.spanMeasure s n a e).linkUsed := by simp [State.spanMeasure]

@[simp] theorem State.periodEdge_linkUsed (s : State) (n : Nat) (e : Stamp) : State.periodEdge s.linkUsed n e = (State.periodEdge s n e).linkUsed := by
  simp [State.periodEdge]
  split <;> rfl

@[simp] theorem State.widthEdge_linkUsed (s : State) (n : Nat) (e : Stamp) : State.widthEdge s.linkUsed n e = (State.widthEdge s n e).linkUsed := by
  simp [State.widthEdge]
  split <;> rfl

@[simp] theorem State.susGate_linkUsed (s : State) (c a b : Nat) : State.susGate s.linkUsed c a b = State.susGate s c a b := rfl

@[simp] theorem State.gateClose_linkUsed (s : State) (n t : Nat) (next : Option Nat) : State.gateClose s.linkUsed n t next = (State.gateClose s n t next).linkUsed := by
  simp [State.gateClose]
  (repeat' split) <;> simp_all

@[simp] theorem State.gateLen_linkUsed (s : State) (n : Nat) : State.gateLen s.linkUsed n = State.gateLen s n := rfl

@[simp] theorem State.timedClose_linkUsed (n t fuel : Nat) (s : State) : State.timedClose n t fuel s.linkUsed = (State.timedClose n t fuel s).linkUsed := by
  induction fuel generalizing s with
  | zero => rfl
  | succ k ih =>
    simp [State.timedClose]
    (repeat' split) <;> simp_all

@[simp] theorem State.gateEdgeIn_linkUsed (s : State) (n : Nat) (e : Stamp) : State.gateEdgeIn s.linkUsed n e = (State.gateEdgeIn s n e).linkUsed := by
  unfold State.gateEdgeIn
  dsimp +instances only [State.slot_linkUsed, State.rd_linkUsed, State.gateLen_linkUsed]
  by_cases h : s.rd (TIM_SLOTn_GATE_gsrc n) = 7
  · simp only [h, if_true]
    cases hg : (s.slot n).gateAt with
    | none => simp [hg]
    | some g =>
      simp only [State.timedClose_linkUsed]
      generalize State.timedClose n e.t ((e.t - g) / max 1 (s.gateLen n) + 1) s = w
      rw [State.slot_linkUsed]
      cases (w.slot n).gateAt with
      | none => rfl
      | some g' => simp
  · simp only [h, if_false]
    dsimp +instances only [State.slot_linkUsed]
    cases (s.slot n).gateAt with
    | none => rfl
    | some g => simp

@[simp] theorem State.isStart_linkUsed (s : State) (n c : Nat) (e : Stamp) : State.isStart s.linkUsed n c e = State.isStart s n c e := rfl

@[simp] theorem State.slotEdge_linkUsed (n : Nat) (s : State) (ce : Nat × Stamp) : State.slotEdge n s.linkUsed ce = (State.slotEdge n s ce).linkUsed := by
  simp [State.slotEdge]
  (repeat' split) <;> simp_all

@[simp] theorem State.slotHolds_linkUsed (s : State) (n c : Nat) : State.slotHolds s.linkUsed n c = State.slotHolds s n c := rfl

@[simp] theorem State.qBusy_linkUsed (s : State) (c : Nat) : State.qBusy s.linkUsed c = State.qBusy s c := rfl

@[simp] theorem State.qHeld_linkUsed (s : State) (c : Nat) : State.qHeld s.linkUsed c = State.qHeld s c := rfl

@[simp] theorem State.qDepth_linkUsed (s : State) (c : Nat) : State.qDepth s.linkUsed c = State.qDepth s c := rfl

@[simp] theorem State.tq_linkUsed (s : State) (c : Nat) : State.tq s.linkUsed c = State.tq s c := rfl

@[simp] theorem State.ovfChunks_linkUsed (s : State) : State.ovfChunks s.linkUsed = State.ovfChunks s := rfl

@[simp] theorem State.qSync_linkUsed (s : State) : State.qSync s.linkUsed = (State.qSync s).linkUsed := by
  simp only [State.qSync, State.qDepth_linkUsed, State.linkUsed_tim, State.linkUsed_build, State.linkUsed_fields, State.linkUsed_caps, State.linkUsed_held, State.linkUsed_free, State.linkUsed_grid, State.linkUsed_inp, State.linkUsed_tmb, State.linkUsed_dsk, State.linkUsed_task, State.linkUsed_clk, State.linkUsed_trl, State.linkUsed_acq, State.linkUsed_hdg, State.linkUsed_red, State.linkUsed_siv, State.linkUsed_dmc, State.linkUsed_rak, State.linkUsed_hrv, State.linkUsed_stp, State.linkUsed_grf, State.linkUsed_hks, State.linkUsed_pwr, State.linkUsed_bbx, State.linkUsed_jtg, State.linkUsed_near, State.linkUsed_deep, State.linkUsed_scr, State.linkUsed_nv, State.linkUsed_poison, State.linkUsed_dpoison, State.linkUsed_cells, State.linkUsed_msxTab, State.linkUsed_msxPba, State.linkUsed_msix, State.linkUsed_irqSeen, State.linkUsed_pending, State.ovfChunks_linkUsed, State.wr_linkUsed, State.on_linkUsed, State.orF_linkUsed, State.mk_awake, State.ite_linkUsed]
  rfl

@[simp] theorem State.qMove_linkUsed (s : State) (c : Nat) : State.qMove s.linkUsed c = (State.qMove s c).linkUsed := by
  simp [State.qMove]
  split <;> rfl

@[simp] theorem State.slotDrop_linkUsed (t : Nat) (s : State) (n : Nat) : State.slotDrop t s.linkUsed n = (State.slotDrop t s n).linkUsed := by simp [State.slotDrop]

@[simp] theorem State.timDrop_linkUsed (t : Nat) (s : State) : State.timDrop t s.linkUsed = (State.timDrop t s).linkUsed := by
  simp [State.timDrop]
  rfl

@[simp] theorem State.inSpan_linkUsed (s : State) (a b : Nat) : State.inSpan s.linkUsed a b = State.inSpan s a b := rfl

@[simp] theorem State.lossGap_linkUsed (s : State) (key b : Nat) (l : Loss) : State.lossGap s.linkUsed key b l = (State.lossGap s key b l).linkUsed := by simp [State.lossGap]

@[simp] theorem State.lossOver_linkUsed (t : Nat) (s : State) (key : Nat) : State.lossOver t s.linkUsed key = (State.lossOver t s key).linkUsed := by
  simp [State.lossOver]
  split <;> rfl

@[simp] theorem State.lossNext_linkUsed (s : State) (key t : Nat) : State.lossNext s.linkUsed key t = (State.lossNext s key t).linkUsed := by
  simp [State.lossNext]
  split <;> rfl

@[simp] theorem State.timLose_linkUsed (s : State) (key : Nat) (e : Stamp) : State.timLose s.linkUsed key e = (State.timLose s key e).linkUsed := by
  simp [State.timLose]
  split <;> rfl

@[simp] theorem State.timNote_linkUsed (s : State) (key t : Nat) : State.timNote s.linkUsed key t = (State.timNote s key t).linkUsed := by simp [State.timNote]

@[simp] theorem State.queueAt_linkUsed (s : State) (c : Nat) : State.queueAt s.linkUsed c = State.queueAt s c := rfl

@[simp] theorem State.queuePut_linkUsed (s : State) (c : Nat) (e : Stamp) : State.queuePut s.linkUsed c e = (State.queuePut s c e).linkUsed := by simp [State.queuePut]

@[simp] theorem State.qMax_linkUsed (s : State) (c d : Nat) : State.qMax s.linkUsed c d = (State.qMax s c d).linkUsed := by simp [State.qMax]

@[simp] theorem State.timQueue_linkUsed (s : State) (c : Nat) (e : Stamp) : State.timQueue s.linkUsed c e = ((State.timQueue s c e).1.linkUsed, (State.timQueue s c e).2) := by
  simp only [State.timQueue, State.slotSel_linkUsed, State.linkUsed_tim, State.qSync_linkUsed, State.qMove_linkUsed, State.tq_linkUsed, State.timNote_linkUsed, State.queuePut_linkUsed, State.timLose_linkUsed, State.qMax_linkUsed]
  split
  · rfl
  · split <;> rfl

@[simp] theorem State.timEdges_linkUsed (s : State) (l : List (Nat × Stamp)) : State.timEdges s.linkUsed l = (State.timEdges s l).linkUsed := by
  unfold State.timEdges
  dsimp +instances only [State.on_linkUsed]
  rw [foldl_fst_linkUsed]
  · simp
  · intro u c a
    simp

@[simp] theorem State.gateInput_linkUsed (s : State) (g : Nat) (e : Stamp) : State.gateInput s.linkUsed g e = (State.gateInput s g e).linkUsed := by
  simp [State.gateInput]
  rfl

@[simp] theorem State.stampOf_linkUsed (s : State) (e : HeldE) : State.stampOf s.linkUsed e = State.stampOf s e := rfl

@[simp] theorem State.timAt_linkUsed (s : State) (t : Nat) (es : List HeldE) : State.timAt s.linkUsed t es = (State.timAt s t es).linkUsed := by
  simp [State.timAt]
  rfl

@[simp] theorem State.timTo_linkUsed (t fuel : Nat) (s : State) : State.timTo t fuel s.linkUsed = (State.timTo t fuel s).linkUsed := by
  induction fuel generalizing s with
  | zero => rfl
  | succ k ih =>
    simp [State.timTo]
    (repeat' split) <;> simp_all

@[simp] theorem State.timHold_linkUsed (s : State) (es : List HeldE) : State.timHold s.linkUsed es = (State.timHold s es).linkUsed := by
  simp [State.timHold]
  (repeat' split) <;> simp_all

@[simp] theorem State.timSeen_linkUsed (t : Nat) (s : State) : State.timSeen t s.linkUsed = (State.timSeen t s).linkUsed := by
  simp [State.timSeen]
  rfl

@[simp] theorem State.dskD_linkUsed (s : State) (ch : Nat) : State.dskD s.linkUsed ch = State.dskD s ch := rfl

@[simp] theorem State.holdAge_linkUsed (s : State) : State.holdAge s.linkUsed = State.holdAge s := rfl

@[simp] theorem State.refReport_linkUsed (s : State) : State.refReport s.linkUsed = State.refReport s := rfl

@[simp] theorem State.cableDly_linkUsed (s : State) (n : Nat) : State.cableDly s.linkUsed n = State.cableDly s n := rfl

@[simp] theorem State.unitsBefore_linkUsed (s : State) (t : Nat) : State.unitsBefore s.linkUsed t = State.unitsBefore s t := rfl

@[simp] theorem State.recordMode_linkUsed (s : State) : State.recordMode s.linkUsed = State.recordMode s := rfl

@[simp] theorem State.trigAt_linkUsed (s : State) (g : Seg) : State.trigAt s.linkUsed g = State.trigAt s g := rfl

@[simp] theorem State.tailStop_linkUsed (s : State) : State.tailStop s.linkUsed = State.tailStop s := rfl

@[simp] theorem State.tailAt_linkUsed (s : State) : State.tailAt s.linkUsed = State.tailAt s := rfl

@[simp] theorem State.fillP_linkUsed (s : State) (g : Seg) : State.fillP s.linkUsed g = State.fillP s g := rfl

@[simp] theorem State.segPos0_linkUsed (s : State) (g : Seg) (e : Nat) : State.segPos0 s.linkUsed g e = State.segPos0 s g e := rfl

@[simp] theorem State.trlStart_linkUsed (s : State) (k : Nat) : State.trlStart s.linkUsed k = (State.trlStart s k).linkUsed := by simp [State.trlStart]

@[simp] theorem State.restartAt_linkUsed (s : State) (k : Nat) : State.restartAt s.linkUsed k = (State.restartAt s k).linkUsed := by
  simp [State.restartAt]
  split <;> rfl

@[simp] theorem State.unresMap_linkUsed (s : State) (a b : Nat) : State.unresMap s.linkUsed a b = State.unresMap s a b := rfl

@[simp] theorem State.headerBody_linkUsed (s : State) (g : Seg) (pos0 : Nat) (unres : List Byte) : State.headerBody s.linkUsed g pos0 unres = State.headerBody s g pos0 unres := rfl

@[simp] theorem State.alignBody_linkUsed (s : State) (g : Seg) : State.alignBody s.linkUsed g = State.alignBody s g := rfl

@[simp] theorem State.redo_linkUsed (s : State) (g : Seg) (u o : Nat) (bs : List Byte) : State.redo s.linkUsed g u o bs = (State.redo s g u o bs).linkUsed := by simp [State.redo]

@[simp] theorem State.coarseAt_linkUsed (s : State) (pos0 : Nat) : State.coarseAt s.linkUsed pos0 = State.coarseAt s pos0 := rfl

@[simp] theorem State.headerRec_linkUsed (s : State) (g : Seg) (pos0 kt : Nat) (final : Bool) (unres : List Byte) : State.headerRec s.linkUsed g pos0 kt final unres = State.headerRec s g pos0 kt final unres := rfl

@[simp] theorem State.alignRec_linkUsed (s : State) (g : Seg) (pos0 kt : Nat) (final : Bool) : State.alignRec s.linkUsed g pos0 kt final = State.alignRec s g pos0 kt final := rfl

@[simp] theorem State.suspects_linkUsed (s : State) : State.suspects s.linkUsed = State.suspects s := rfl

@[simp] theorem State.gapDone_linkUsed (s : State) (lost : Nat) : State.gapDone s.linkUsed lost = (State.gapDone s lost).linkUsed := by
  simp [State.gapDone]
  split <;> rfl

@[simp] theorem State.allTiles_linkUsed (s : State) : State.allTiles s.linkUsed = State.allTiles s := rfl

@[simp] theorem State.putLead_linkUsed (s : State) (r : Rec) : State.putLead s.linkUsed r = (State.putLead s r).linkUsed := by simp [State.putLead]

/-- The GAP record of a relock that came before a segment. -/
def State.relockGap (g : Seg) (kt : Nat) (tiles : Nat) (s : State) : State :=
  match s.acq.relock with
  | some (t, cause, lost, pos) =>
    (({ s with acq := { s.acq with relock := none } }.capPut (s.gapRec t kt cause tiles g.idx lost (pos.getD g.fillPos) false))).gapDone 0
  | none => s

/-- The MARK record of a change of source that came before a segment. -/
def State.sourceMark (g : Seg) (kt : Nat) (s : State) : State :=
  match s.acq.srcMark with
  | some x => { s with acq := { s.acq with srcMark := none } }.capPut (s.markRec kt 8 0 0 x 0 0 0 g.idx false)
  | none => s

/-- The state and the segment that State.openSeg begins with. -/
def State.segFirst (s : State) (g0 : Seg) (n : Nat) : Seg :=
  { g0 with seq0 := s.acq.seq, leadLost := min 65535 s.acq.leadLost, suspect := s.susTime g0.fillKt g0.fillKt, evt := 0, wofs := 0,
            evs := [], cable := (List.range 4).map s.cableDly, epochId := s.rd TMB_EPOCH_CTL_epoch_id, alnAt := if n = 0 then 36 else 37 }

/-- The first records of a segment, up to those of a relock and of a change of source. -/
def State.segHead (s : State) (g : Seg) (n : Nat) : State :=
  let kt := g.fillKt
  let s1 := { s with acq := { s.acq with seg := some g, leadLost := 0, opening := none, stopped := none } }
  let s2 := s1.capPut (s1.headerRec g g.fillPos kt false (s1.unresMap s1.nowPos (s1.nowPos + 1)))
  let s3 := if n = 0 then s2 else s2.capPut (s2.markRec g.deadFrom 4 0 0 0 0 n 0 g.idx false)
  State.sourceMark g kt (State.relockGap g kt s.allTiles (s3.capPut (s3.alignRec g g.fillPos kt false)))

/-- The further records of a segment's beginning. -/
def State.segRest (s : State) (g : Seg) (ls : List Nat) : State :=
  let s7 := s.suspects.foldl (fun s p => s.capPut (s.markRec p.1 2 0 0 p.2.1 p.2.2 0 0 g.idx false)) s
  let s8 := s7.acq.leads.foldl State.putLead s7
  let s9 := (ls.map fun c => s7.markRec g.deadFrom 10 0 c 0 (c / 256) 0 0 g.idx false).foldl State.capPut s8
  let seg := s9.acq.seg.map fun (x : Seg) => { x with evt := x.wofs - 1024 }
  { s9 with acq := { s9.acq with leads := [], next := g.idx + 1, held := s9.acq.held ++ [(g.place, g.chain)], seg := seg } }.wr
    ACQ_STAT_chained (b2n g.cont)

theorem State.openSeg_eq (s : State) (g0 : Seg) (n : Nat) (ls : List Nat) :
    s.openSeg g0 n ls = (s.segHead (s.segFirst g0 n) n).segRest (s.segFirst g0 n) ls := rfl

@[simp] theorem State.relockGap_linkUsed (g : Seg) (kt : Nat) (tiles : Nat) (s : State) :
    State.relockGap g kt tiles s.linkUsed = (State.relockGap g kt tiles s).linkUsed := by
  unfold State.relockGap
  dsimp only [State.linkUsed_acq]
  split <;> simp

@[simp] theorem State.sourceMark_linkUsed (g : Seg) (kt : Nat) (s : State) :
    State.sourceMark g kt s.linkUsed = (State.sourceMark g kt s).linkUsed := by
  unfold State.sourceMark
  dsimp only [State.linkUsed_acq]
  split <;> simp

@[simp] theorem State.segFirst_linkUsed (s : State) (g0 : Seg) (n : Nat) : s.linkUsed.segFirst g0 n = s.segFirst g0 n := rfl

@[simp] theorem State.segHead_linkUsed (s : State) (g : Seg) (n : Nat) : s.linkUsed.segHead g n = (s.segHead g n).linkUsed := by
  simp [State.segHead]

@[simp] theorem State.segRest_linkUsed (s : State) (g : Seg) (ls : List Nat) : s.linkUsed.segRest g ls = (s.segRest g ls).linkUsed := by
  simp [State.segRest]

@[simp] theorem State.openSeg_linkUsed (s : State) (g0 : Seg) (n : Nat) (ls : List Nat) : State.openSeg s.linkUsed g0 n ls = (State.openSeg s g0 n ls).linkUsed := by simp [State.openSeg_eq]

@[simp] theorem State.placeHeld_linkUsed (s : State) (i : Nat) : State.placeHeld s.linkUsed i = State.placeHeld s i := rfl

@[simp] theorem State.freePlace_linkUsed (s : State) (i : Nat) : State.freePlace s.linkUsed i = (State.freePlace s i).linkUsed := by
  simp [State.freePlace]
  (repeat' split) <;> simp

@[simp] theorem State.trigRecords_linkUsed (s : State) (g : Seg) (x : Trig) : State.trigRecords s.linkUsed g x = (State.trigRecords s g x).linkUsed := by simp [State.trigRecords]

@[simp] theorem State.trigRegs_linkUsed (s : State) (x : Trig) : State.trigRegs s.linkUsed x = (State.trigRegs s x).linkUsed := by simp [State.trigRegs]

@[simp] theorem State.trigger1_linkUsed (s : State) (x : Trig) (k : Nat) : State.trigger1 s.linkUsed x k = (State.trigger1 s x k).linkUsed := by
  simp [State.trigger1]
  split <;> rfl

@[simp] theorem State.trigger2_linkUsed (s : State) (x y : Trig) : State.trigger2 s.linkUsed x y = (State.trigger2 s x y).linkUsed := by
  simp [State.trigger2]
  split <;> rfl

@[simp] theorem State.trigger_linkUsed (s : State) (x : Trig) (k : Nat) : State.trigger s.linkUsed x k = (State.trigger s x k).linkUsed := by
  simp [State.trigger]
  split <;> rfl

@[simp] theorem State.gport_linkUsed (s : State) (n : Nat) : State.gport s.linkUsed n = State.gport s n := rfl

@[simp] theorem State.putPort_linkUsed (s : State) (n : Nat) (g : GPort) : State.putPort s.linkUsed n g = (State.putPort s n g).linkUsed := by simp [State.putPort]

@[simp] theorem State.portUp_linkUsed (s : State) (n : Nat) : State.portUp s.linkUsed n = State.portUp s n := rfl

@[simp] theorem State.grfDrop_linkUsed (s : State) (n : Nat) : State.grfDrop s.linkUsed n = (State.grfDrop s n).linkUsed := by simp [State.grfDrop]

@[simp] theorem State.sendTrig_linkUsed (s : State) (n bits t : Nat) (own : Bool) : State.sendTrig s.linkUsed n bits t own = ((State.sendTrig s n bits t own).1.linkUsed, (State.sendTrig s n bits t own).2) := by
  unfold State.sendTrig
  dsimp +instances only [State.gport_linkUsed, State.portUp_linkUsed, State.cnom_linkUsed, State.linkUsed_grf]
  simp only [State.grfDrop_linkUsed, State.putPort_linkUsed, State.linkUsed_hrv, State.mk_awake, State.ite_linkUsed]
  split
  · rfl
  · simp only [ite_fst_linkUsed]
    rfl

@[simp] theorem State.grfXtrig_linkUsed (s : State) (mask mark : Nat) (coarse : Bool) (kt t : Nat) : State.grfXtrig s.linkUsed mask mark coarse kt t = (State.grfXtrig s mask mark coarse kt t).linkUsed := by
  unfold State.grfXtrig
  dsimp +instances only [State.rd_linkUsed, State.linkUsed_grf]
  rw [foldl_fst_linkUsed]
  · simp
  · intro u c a
    simp [ite_fst_linkUsed]

@[simp] theorem State.trlRuns_linkUsed (s : State) : State.trlRuns s.linkUsed = State.trlRuns s := rfl

@[simp] theorem State.edgesIn_linkUsed (s : State) (k : Nat) : State.edgesIn s.linkUsed k = State.edgesIn s k := rfl

@[simp] theorem State.prTerm_linkUsed (s : State) (p k : Nat) : State.prTerm s.linkUsed p k = State.prTerm s p k := rfl

@[simp] theorem State.edEvent_linkUsed (s : State) (j k : Nat) : State.edEvent s.linkUsed j k = State.edEvent s j k := rfl

@[simp] theorem State.prCompl_linkUsed (s : State) (p k : Nat) : State.prCompl s.linkUsed p k = State.prCompl s p k := rfl

@[simp] theorem State.extIn_linkUsed (s : State) (i k : Nat) : State.extIn s.linkUsed i k = State.extIn s i k := rfl

@[simp] theorem State.extLvl_linkUsed (s : State) (i k : Nat) : State.extLvl s.linkUsed i k = State.extLvl s i k := rfl

@[simp] theorem State.extTerm_linkUsed (s : State) (i k : Nat) : State.extTerm s.linkUsed i k = State.extTerm s i k := rfl

@[simp] theorem State.timer_linkUsed (s : State) (n : Nat) : State.timer s.linkUsed n = State.timer s n := rfl

@[simp] theorem State.tmUnit_linkUsed (s : State) (n : Nat) : State.tmUnit s.linkUsed n = State.tmUnit s n := rfl

@[simp] theorem State.tmTerm_linkUsed (s : State) (n k : Nat) : State.tmTerm s.linkUsed n k = State.tmTerm s n k := rfl

@[simp] theorem State.ctTerm_linkUsed (s : State) (n : Nat) : State.ctTerm s.linkUsed n = State.ctTerm s n := rfl

@[simp] theorem State.wcTerm_linkUsed (s : State) (n k : Nat) : State.wcTerm s.linkUsed n k = State.wcTerm s n k := rfl

@[simp] theorem State.term_linkUsed (s : State) (l t k : Nat) : State.term s.linkUsed l t k = State.term s l t k := rfl

@[simp] theorem State.branch_linkUsed (s : State) (l k b : Nat) : State.branch s.linkUsed l k b = State.branch s l k b := rfl

@[simp] theorem State.trlChain_linkUsed (s : State) (k fuel fuel' : Nat) : State.trlChain s.linkUsed k fuel fuel' = State.trlChain s k fuel fuel' := by
  induction fuel generalizing fuel' with
  | zero => rfl
  | succ k' ih =>
    have e : s.linkUsed.branch fuel' k = s.branch fuel' k := funext fun b => State.branch_linkUsed s fuel' k b
    simp only [State.trlChain, e, State.on_linkUsed, State.rd_linkUsed, ih]

@[simp] theorem State.actCt_linkUsed (s : State) (l b : Nat) : State.actCt s.linkUsed l b = (State.actCt s l b).linkUsed := by simp [State.actCt]

@[simp] theorem State.actTm_linkUsed (s : State) (l b k t : Nat) : State.actTm s.linkUsed l b k t = (State.actTm s l b k t).linkUsed := by
  simp [State.actTm]
  rfl

@[simp] theorem State.actQual_linkUsed (s : State) (l b k : Nat) : State.actQual s.linkUsed l b k = (State.actQual s l b k).linkUsed := by simp [State.actQual]

@[simp] theorem State.xoutWidth_linkUsed (s : State) (n : Nat) : State.xoutWidth s.linkUsed n = State.xoutWidth s n := rfl

@[simp] theorem State.pulse_linkUsed (s : State) (t n : Nat) : State.pulse s.linkUsed t n = (State.pulse s t n).linkUsed := by simp [State.pulse]

@[simp] theorem State.actXtrig_linkUsed (s : State) (x : Taken) : State.actXtrig s.linkUsed x = (State.actXtrig s x).linkUsed := by simp [State.actXtrig]

@[simp] theorem State.actMark_linkUsed (s : State) (x : Taken) : State.actMark s.linkUsed x = (State.actMark s x).linkUsed := by simp [State.actMark]

@[simp] theorem State.act_linkUsed (k : Nat) (s : State) (x : Taken) : State.act k s.linkUsed x = (State.act k s x).linkUsed := by simp [State.act]

@[simp] theorem State.fire_linkUsed (s : State) (k : Nat) (x : Taken) : State.fire s.linkUsed k x = (State.fire s k x).linkUsed := by simp [State.fire]

@[simp] theorem State.trellis_linkUsed (s : State) (k : Nat) : State.trellis s.linkUsed k = (State.trellis s k).linkUsed := by
  simp [State.trellis]
  (repeat' split) <;> simp

@[simp] theorem State.trlTimes_linkUsed (s : State) : State.trlTimes s.linkUsed = State.trlTimes s := rfl

@[simp] theorem State.trlPts_linkUsed (s : State) (a b : Nat) : State.trlPts s.linkUsed a b = State.trlPts s a b := rfl

@[simp] theorem State.trlLive_linkUsed (s : State) : State.trlLive s.linkUsed = State.trlLive s := rfl

@[simp] theorem State.trlLoop_linkUsed (p fuel : Nat) (s : State) : State.trlLoop p fuel s.linkUsed = (State.trlLoop p fuel s).linkUsed := by
  induction fuel generalizing s with
  | zero => rfl
  | succ k ih =>
    simp [State.trlLoop]
    (repeat' split) <;> simp_all

@[simp] theorem State.trlTo_linkUsed (p : Nat) (s : State) : State.trlTo p s.linkUsed = (State.trlTo p s).linkUsed := by simp [State.trlTo]

@[simp] theorem State.rule_linkUsed (s : State) (n : Nat) : State.rule s.linkUsed n = State.rule s n := rfl

@[simp] theorem State.putRule_linkUsed (s : State) (n : Nat) (r : Rule) : State.putRule s.linkUsed n r = (State.putRule s n r).linkUsed := by simp [State.putRule]

@[simp] theorem State.inZone_linkUsed (s : State) (n : Nat) (o : Int) : State.inZone s.linkUsed n o = State.inZone s n o := rfl

@[simp] theorem State.inW0_linkUsed (s : State) (n : Nat) (o : Int) : State.inW0 s.linkUsed n o = State.inW0 s n o := rfl

@[simp] theorem State.inWin_linkUsed (s : State) (n : Nat) (o : Int) : State.inWin s.linkUsed n o = State.inWin s n o := rfl

@[simp] theorem State.hasWin_linkUsed (s : State) (n : Nat) : State.hasWin s.linkUsed n = State.hasWin s n := rfl

@[simp] theorem State.inRule_linkUsed (s : State) (n c : Nat) : State.inRule s.linkUsed n c = State.inRule s n c := rfl

@[simp] theorem State.tailEnd_linkUsed (s : State) (tv : Nat) : State.tailEnd s.linkUsed tv = State.tailEnd s tv := rfl

@[simp] theorem State.violate_linkUsed (s : State) (n kind c : Nat) (o : Int) (ref tv : Nat) (sres : Bool) : State.violate s.linkUsed n kind c o ref tv sres = (State.violate s n kind c o ref tv sres).linkUsed := by simp [State.violate]

@[simp] theorem State.lastTr_linkUsed (s : State) (sel c : Nat) : State.lastTr s.linkUsed sel c = State.lastTr s sel c := rfl

@[simp] theorem State.horizon_linkUsed (s : State) (n t : Nat) (sres : Bool) : State.horizon s.linkUsed n t sres = (State.horizon s n t sres).linkUsed := by
  unfold State.horizon
  dsimp +instances only [State.rule_linkUsed, State.rd_linkUsed, State.chSet_linkUsed]
  have e : s.linkUsed.inRule n = s.inRule n := rfl
  rw [e, State.putRule_linkUsed, foldl_linkUsed]
  intro u c
  dsimp +instances only [State.lastTr_linkUsed, State.inZone_linkUsed, State.rule_linkUsed]
  split
  · split <;> simp
  · rfl

@[simp] theorem State.judge_linkUsed (s : State) (n c t : Nat) (sres : Bool) : State.judge s.linkUsed n c t sres = (State.judge s n c t sres).linkUsed := by
  simp [State.judge]
  split <;> rfl

@[simp] theorem State.ruleEdge_linkUsed (ref : Bool) (c t : Nat) (up sres : Bool) (s : State) (n : Nat) : State.ruleEdge ref c t up sres s.linkUsed n = (State.ruleEdge ref c t up sres s n).linkUsed := by simp [State.ruleEdge]

@[simp] theorem State.hdgRuns_linkUsed (s : State) : State.hdgRuns s.linkUsed = State.hdgRuns s := rfl

@[simp] theorem State.hedgeEdge_linkUsed (ref : Bool) (s : State) (e : HeldE) : State.hedgeEdge ref s.linkUsed e = (State.hedgeEdge ref s e).linkUsed := by simp [State.hedgeEdge]

@[simp] theorem State.hedgeEdges_linkUsed (s : State) (es : List HeldE) : State.hedgeEdges s.linkUsed es = (State.hedgeEdges s es).linkUsed := by simp [State.hedgeEdges]

@[simp] theorem State.edgesAt_linkUsed (s : State) (es : List HeldE) : State.edgesAt s.linkUsed es = (State.edgesAt s es).linkUsed := by simp [State.edgesAt]

@[simp] theorem State.edgesTo_linkUsed (t fuel : Nat) (s : State) : State.edgesTo t fuel s.linkUsed = (State.edgesTo t fuel s).linkUsed := by
  induction fuel generalizing s with
  | zero => rfl
  | succ k ih =>
    simp [State.edgesTo]
    (repeat' split) <;> simp_all

@[simp] theorem State.redSeen_linkUsed (p : Nat) (s : State) : State.redSeen p s.linkUsed = (State.redSeen p s).linkUsed := by simp [State.redSeen]

@[simp] theorem State.seenTo_linkUsed (t : Nat) (s : State) : State.seenTo t s.linkUsed = (State.seenTo t s).linkUsed := by simp [State.seenTo]

@[simp] theorem State.openNow_linkUsed (s : State) : State.openNow s.linkUsed = (State.openNow s).linkUsed := by
  simp [State.openNow]
  split <;> rfl

@[simp] theorem State.openTo_linkUsed (t : Nat) (s : State) : State.openTo t s.linkUsed = (State.openTo t s).linkUsed := by
  simp [State.openTo]
  split <;> rfl

@[simp] theorem State.timKeep_linkUsed (s : State) : State.timKeep s.linkUsed = (State.timKeep s).linkUsed := by simp [State.timKeep]

@[simp] theorem State.upTo_linkUsed (t : Nat) (s : State) : State.upTo t s.linkUsed = (State.upTo t s).linkUsed := by simp [State.upTo]


end Sys2Proof.Machine
end

