-- ==== Sys2Proof/Proofs/AcquisitionRegisters.lean ====
section
/-! SUPPORT. What leaves the registers of acquisition (block ACQ) as they are: storing what a capture has made, and the start of the
reductions. -/

namespace Sys2Proof.Machine

/-- Whether a key is one of block ACQ. -/
def acqKey (k : Nat) : Bool := decide (k / 0x80000 = 6)

/-- The register fields of block ACQ. -/
def State.acqRegs (s : State) : List (Nat × Nat) := s.fields.filter fun p => acqKey p.1

@[simp] theorem State.acqRegs_mk (s : State) (b c h fr g i t d ta cl tr ac hd re si ti dm ra hr st gr hk pw bb jt near deep scr nv po dp ce mt mp mi ir pe) :
    State.acqRegs (State.mk b s.fields c h fr g i t d ta cl tr ac hd re si ti dm ra hr st gr hk pw bb jt near deep scr nv po dp ce mt mp mi ir pe)
      = s.acqRegs := rfl

@[simp] theorem State.acqRegs_ite (c : Prop) [Decidable c] (a b : State) : (if c then a else b).acqRegs = if c then a.acqRegs else b.acqRegs :=
  apply_ite _ _ _ _

theorem rd_of_acqRegs {s u : State} (h : u.acqRegs = s.acqRegs) {f : Fld} (hf : acqKey f.key = true) : u.rd f = s.rd f := by
  unfold State.rd
  rw [← look_filter acqKey u.fields hf, ← look_filter acqKey s.fields hf]
  exact congrArg (fun l => (look l f.key).getD f.rst) h

/-- Registers of other blocks may be written. -/
@[simp] theorem State.wr_acqRegs (s : State) {f : Fld} (v : Nat) (h : acqKey f.key = false) : (s.wr f v).acqRegs = s.acqRegs := by
  unfold State.acqRegs State.wr
  split
  · exact filter_del acqKey _ h
  · exact filter_ins acqKey _ _ h

@[simp] theorem State.addF_acqRegs (s : State) {f : Fld} (n : Nat) (h : acqKey f.key = false) : (s.addF f n).acqRegs = s.acqRegs := State.wr_acqRegs s _ h
@[simp] theorem State.addSat_acqRegs (s : State) {f : Fld} (n : Nat) (h : acqKey f.key = false) : (s.addSat f n).acqRegs = s.acqRegs := State.wr_acqRegs s _ h
@[simp] theorem State.orF_acqRegs (s : State) {f : Fld} (v : Nat) (h : acqKey f.key = false) : (s.orF f v).acqRegs = s.acqRegs := State.wr_acqRegs s _ h

/-- Those of the reductions lie beyond block ACQ, whatever the unit. -/
@[simp] theorem State.addSat_redLost_acqRegs (s : State) (n k : Nat) : (s.addSat (RED_RUn_LOST n) k).acqRegs = s.acqRegs :=
  State.wr_acqRegs s _ (decide_eq_false (by simp only [Fld.key, RED_RUn_LOST]; omega))
@[simp] theorem State.wr_redWptr_acqRegs (s : State) (n v : Nat) : (s.wr (RED_RUn_WPTR_ptr n) v).acqRegs = s.acqRegs :=
  State.wr_acqRegs s _ (decide_eq_false (by simp only [Fld.key, RED_RUn_WPTR_ptr]; omega))

@[simp] theorem foldl_acqRegs {α : Type} (g : State → α → State) (l : List α) (s : State) (h : ∀ u a, (g u a).acqRegs = u.acqRegs) :
    (l.foldl g s).acqRegs = s.acqRegs := foldl_view State.acqRegs g l s h

@[simp] theorem State.activates_acqRegs (n : Nat) (s : State) : (State.activates n s).acqRegs = s.acqRegs := by simp (disch := decide) [State.activates]

@[simp] theorem State.deepPut_acqRegs (s : State) (a : Nat) (bs : List Byte) : (State.deepPut s a bs).acqRegs = s.acqRegs := by simp [State.deepPut]

@[simp] theorem State.deepPutZ_acqRegs (s : State) (a : Nat) (bs : List Byte) (z : Nat) : (State.deepPutZ s a bs z).acqRegs = s.acqRegs := by simp [State.deepPutZ]

@[simp] theorem State.deepPad_acqRegs (s : State) (a seq n : Nat) : (State.deepPad s a seq n).acqRegs = s.acqRegs := by simp [State.deepPad]

@[simp] theorem State.capWrite_acqRegs (s : State) (w : CapW) : (State.capWrite s w).acqRegs = s.acqRegs := by simp [State.capWrite]

@[simp] theorem State.wrote_acqRegs (s : State) (src size n : Nat) : (State.wrote s src size n).acqRegs = s.acqRegs := by rfl

@[simp] theorem State.capStore_acqRegs (s : State) (w : CapW) : (State.capStore s w).acqRegs = s.acqRegs := by simp [State.capStore]

@[simp] theorem State.setRu_acqRegs (s : State) (n : Nat) (r : Ru) : (State.setRu s n r).acqRegs = s.acqRegs := by rfl

@[simp] theorem State.redShut_acqRegs (s : State) (n : Nat) : (State.redShut s n).acqRegs = s.acqRegs := by simp (disch := decide) [State.redShut]

@[simp] theorem State.redLose_acqRegs (s : State) (n k : Nat) : (State.redLose s n k).acqRegs = s.acqRegs := by simp (disch := decide) [State.redLose]

@[simp] theorem State.redPad_acqRegs (s : State) (n k : Nat) : (State.redPad s n k).acqRegs = s.acqRegs := by simp [State.redPad]

@[simp] theorem State.trailerRu_acqRegs (s : State) (n seg : Nat) : (State.trailerRu s n seg).acqRegs = s.acqRegs := by
  unfold State.trailerRu
  split <;> simp

@[simp] theorem State.redPut_acqRegs (s0 : State) (n k : Nat) (r : Rec) : (State.redPut s0 n k r).acqRegs = s0.acqRegs := by simp (disch := decide) [State.redPut]

@[simp] theorem State.redClose_acqRegs (s : State) (n : Nat) : (State.redClose s n).acqRegs = s.acqRegs := by simp [State.redClose]

@[simp] theorem State.redEntry_acqRegs (s : State) (n t w pos : Nat) (sres part unres : Bool) (payload : List Byte) : (State.redEntry s n t w pos sres part unres payload).acqRegs = s.acqRegs := by simp [State.redEntry]

@[simp] theorem State.redSample_acqRegs (n : Nat) (s : State) (p : Nat) : (State.redSample n s p).acqRegs = s.acqRegs := by simp [State.redSample]

@[simp] theorem State.redBus_acqRegs (s : State) (n c k : Nat) : (State.redBus s n c k).acqRegs = s.acqRegs := by simp [State.redBus]

@[simp] theorem State.redStable_acqRegs (n k : Nat) (change : Bool) (s : State) (q : Nat) : (State.redStable n k change s q).acqRegs = s.acqRegs := by
  unfold State.redStable
  split <;> simp

@[simp] theorem State.redIvlEnd_acqRegs (s : State) (n b : Nat) (part : Bool) : (State.redIvlEnd s n b part).acqRegs = s.acqRegs := by simp [State.redIvlEnd]

@[simp] theorem State.redIvls_acqRegs (n p fuel : Nat) (u : State) : (State.redIvls n p fuel u).acqRegs = u.acqRegs := by
  induction fuel generalizing u with
  | zero => rfl
  | succ k ih =>
    simp only [State.redIvls]
    (repeat' split) <;> simp [ih]

@[simp] theorem State.redUpTo_acqRegs (s : State) (n p : Nat) : (State.redUpTo s n p).acqRegs = s.acqRegs := by
  unfold State.redUpTo
  split <;> simp

@[simp] theorem State.redPulse_acqRegs (s : State) (n ch t : Nat) (up : Bool) : (State.redPulse s n ch t up).acqRegs = s.acqRegs := by
  unfold State.redPulse
  split <;> simp

@[simp] theorem State.redEdge1_acqRegs (s : State) (n ch t p : Nat) (up sres : Bool) : (State.redEdge1 s n ch t p up sres).acqRegs = s.acqRegs := by
  unfold State.redEdge1
  split <;> simp

@[simp] theorem State.redEdge_acqRegs (s : State) (e : HeldE) : (State.redEdge s e).acqRegs = s.acqRegs := by simp [State.redEdge]

@[simp] theorem State.redStart1_acqRegs (p : Nat) (s : State) (n : Nat) : (State.redStart1 p s n).acqRegs = s.acqRegs := by simp (disch := decide) [State.redStart1]

@[simp] theorem State.redStart_acqRegs (s : State) (p : Nat) : (State.redStart s p).acqRegs = s.acqRegs := by simp [State.redStart]

end Sys2Proof.Machine
end

