-- ==== Sys2Proof/Proofs/AcqControl.lean ====
section
/-! SUPPORT. A write of ACQ_CTL, up to the instant at which it acts; a host trigger, by the state in which it arrives. -/

namespace Sys2Proof.Machine

/-! ### A write of ACQ_CTL -/

/-- What each bit of ACQ_CTL does; a stop acts alone. -/
theorem acqCtl_eq (v : Nat) (s : State) : State.acqCtl v s =
    if v / 2 % 2 = 1 then
      let s2 := if v % 2 = 1 then (s.stopAt 3 s.tmb.kt).orF ACQ_EVT_arm_ign 1 else s.stopAt 3 s.tmb.kt
      if v / 4 % 2 = 1 then s2.orF ACQ_EVT_trig_ign 1 else s2
    else
      let s1 := if v % 2 = 1 then s.armFull else s
      if v / 4 % 2 = 1 then (if v % 2 = 1 ∧ s.idle = true then s1.orF ACQ_EVT_trig_ign 1 else s1.forceTrig) else s1 := by
  have h0 : ACQ_CTL_arm.of v = v % 2 := by
    show v / 2 ^ 0 % 2 ^ 1 = _
    omega
  have h1 : ACQ_CTL_stop.of v = v / 2 % 2 := rfl
  have h2 : ACQ_CTL_force_trig.of v = v / 4 % 2 := rfl
  unfold State.acqCtl
  simp only [h0, h1, h2]
  by_cases ht : v / 4 % 2 = 1 <;> simp [ht]

/-- A word written to ACQ_CTL is not stored: it acts, on the machine at the instant of the write. -/
theorem writeAt_acqCtl {s : State} {p : Port} {v : Nat} (t : Nat) (h : Reaches p ACQ_CTL_arm.addr s) (hv : v < 2 ^ 32) :
    State.writeAt p ACQ_CTL_arm.addr v t s = State.reSignal ACQ_CTL_arm.addr (State.acqCtl v ((s.advance t).usedBy p)) := by
  have hc : (s.advance t).closed ACQ_CTL_arm.addr = false := by
    rw [State.closed, show openRegs.contains ACQ_CTL_arm.addr = true by decide]
    simp
  rw [State.writeAt, portWrite_stores p _ v _ [] (h.advance t) hv (by decide) (by decide) hc rfl rfl]
  rfl

/-! ### The machine at the instant of a write -/

theorem upTo_used (k : Nat) (s : State) (p : Port) : State.upTo k (s.usedBy p) = (State.upTo k s).usedBy p := by
  unfold State.usedBy
  split
  · exact State.upTo_linkUsed k s
  · rfl

/-- To have reached the time of an instant already changes nothing. -/
theorem upTo_advance (s : State) (t : Nat) : State.upTo (max s.tmb.kt t) (s.advance t) = State.upTo (max s.tmb.kt t) s := by
  have h : (s.advance t).advance (max s.tmb.kt t) = s.advance (max s.tmb.kt t) := by
    rcases Nat.lt_or_ge s.tmb.kt t with hlt | hge
    · rw [Nat.max_eq_right hlt.le]
      exact State.advance_past _ _ (by rw [State.advance_kt]; exact Nat.le_max_right _ _)
    · rw [Nat.max_eq_left hge, State.advance_past _ _ hge]
  unfold State.upTo
  rw [h]

theorem kt_used_advance (s : State) (t : Nat) (p : Port) : ((s.advance t).usedBy p).tmb.kt = max s.tmb.kt t := by
  obtain ⟨b, hb⟩ := (s.advance t).usedBy_moves p
  rw [hb]
  exact State.advance_kt s t

/-- The machine that a write of ACQ_CTL finds, once it has run up to its instant. -/
theorem upTo_written (s : State) (t : Nat) (p : Port) :
    State.upTo ((s.advance t).usedBy p).tmb.kt ((s.advance t).usedBy p) = (State.upTo (max s.tmb.kt t) s).usedBy p := by
  rw [kt_used_advance, upTo_used, upTo_advance]

/-- What a port's use of the link is told apart from is told apart from the rest. -/
theorem sameRest_of_used {s u : State} (p : Port) (h : SameRest (s.usedBy p) u) : SameRest s u := by
  obtain ⟨b, hb⟩ := s.usedBy_moves p
  rw [hb, sameRest_iff] at h
  obtain ⟨h1, h2, h3, h4, h5, h6, h7, h8, h9, h10, h11, h12, h13, h14, h15, h16, h17, hh, hr⟩ := h
  refine (sameRest_iff s u).2 ⟨h1, h2, h3, h4, h5, h6, h7, h8, h9, h10, h11, h12, h13, h14, h15, h16, h17, ?_, hr⟩
  exact congrArg (fun x : Hrv => { x with l12 := s.hrv.l12 }) hh

/-! ### A trigger -/

/-- The first trigger of its sample. -/
theorem trigger_first {s : State} {k : Nat} (x : Trig) (h : ∀ q, s.acq.seen = some q → q.1 ≠ k) :
    s.trigger x k = { s.trigger1 x k with acq := { (s.trigger1 x k).acq with seen := some (k, x) } } := by
  have hn : (s.acq.seen.filter fun p => decide (p.1 = k)) = none := by
    cases hs : s.acq.seen with
    | none => rfl
    | some q => simp [h q hs]
  unfold State.trigger
  rw [hn]

theorem forceTrig_eq (s : State) : s.forceTrig =
    if ((State.upTo s.tmb.kt s).armed && (State.upTo s.tmb.kt s).grid.run) = true then
      (State.upTo s.tmb.kt s).trigger ⟨(State.upTo s.tmb.kt s).grid.start (State.upTo s.tmb.kt s).nowPos, 2, true, 0x7FF⟩ (State.upTo s.tmb.kt s).nowPos
    else (State.upTo s.tmb.kt s).orF ACQ_EVT_trig_ign 1 := rfl

/-- A trigger in PREFILL is early. -/
theorem trigger1_early {s : State} (x : Trig) (k : Nat) (h : s.acqSt = 2) :
    ∃ g, s.trigger1 x k = ({ s with acq := { s.acq with seg := g } }.addSat ACQ_EARLY_CNT_count 1).orF ACQ_EVT_early 1 := by
  unfold State.trigger1
  cases hg : s.acq.seg with
  | none =>
    rw [h]
    exact ⟨s.acq.seg, rfl⟩
  | some g =>
    rw [h]
    exact ⟨_, rfl⟩

/-- One in POSTFILL is extra. -/
theorem trigger1_extra {s : State} (x : Trig) (k : Nat) {g : Seg} (h : s.acqSt = 4) (hg : s.acq.seg = some g) :
    ∃ g', s.trigger1 x k = { s with acq := { s.acq with seg := g' } }.addSat ACQ_EXTRA_CNT_count 1 := by
  unfold State.trigger1
  rw [h, hg]
  exact ⟨_, rfl⟩

/-- One in REARM is blind. -/
theorem trigger1_blind {s : State} (x : Trig) (k : Nat) (h : s.acqSt = 5) :
    ∃ g o, s.trigger1 x k = ({ s with acq := { s.acq with seg := g, opening := o } }.addSat ACQ_BLIND_CNT_count 1).orF ACQ_EVT_blind 1 := by
  unfold State.trigger1
  cases hg : s.acq.seg with
  | none =>
    rw [h]
    exact ⟨s.acq.seg, _, rfl⟩
  | some g =>
    rw [h]
    exact ⟨some (g.blindTrig x.t), s.acq.opening, rfl⟩

/-- What counts a trigger shows its counter and its event. -/
theorem counted_shows (s : State) (q q' : Acq) {c e : Fld} (hc : c.w = 32) (he : e.w = 1) (hce : c.key ≠ e.key) :
    let u := { ({ s with acq := q }.addSat c 1).orF e 1 with acq := q' }
    u.rd c = min (s.rd c + 1) (2 ^ 32 - 1) ∧ u.rd e = 1 ∧ u.tmb = s.tmb ∧ SameRegs s u [c, e] := by
  refine ⟨?_, rd_orF_bit _ _ true he rfl, rfl, fun f hf => ?_⟩
  · rw [State.rd_mk, rd_orF_ne _ _ _ _ (Ne.symm hce), State.rd_addSat, State.rd_mk, hc]
  · simp only [List.map_cons, List.map_nil, List.mem_cons, List.not_mem_nil, or_false, not_or] at hf
    rw [State.rd_mk, rd_orF_ne _ _ _ _ (Ne.symm hf.2), State.rd_addSat_ne _ _ (Ne.symm hf.1), State.rd_mk]

/-- The records of a trigger and the reductions that start with it leave the registers of acquisition. -/
@[simp] theorem State.trigRecords_acqRegs (s : State) (g : Seg) (x : Trig) : (s.trigRecords g x).acqRegs = s.acqRegs := by
  simp [State.trigRecords, State.redo]

/-- The registers of a trigger that is accepted: its time and its source, its counter and its event. -/
def State.accepting (s : State) (x : Trig) : State := ((s.trigRegs x).addSat ACQ_TRIG_CNT_count 1).orF ACQ_EVT_trig 1

/-- One in WAIT is accepted. -/
theorem trigger1_wait {s : State} (x : Trig) (k : Nat) {g : Seg} (h : s.acqSt = 3) (hg : s.acq.seg = some g) :
    ∃ q g' p, let s2 := ((({ s with acq := q } : State).wr ACQ_STAT_state 4).trigRecords g' x).accepting x
      s.trigger1 x k = if s.mode = 6 then s2.redStart p else s2 := by
  unfold State.trigger1
  rw [h, hg]
  exact ⟨_, _, _, rfl⟩

theorem accepting_shows (s : State) (x : Trig) : (s.accepting x).acqSt = s.acqSt ∧ (s.accepting x).rd ACQ_EVT_trig = 1
    ∧ (s.accepting x).rd ACQ_TRIG_CNT_count = min (s.rd ACQ_TRIG_CNT_count + 1) (2 ^ 32 - 1) ∧ (s.accepting x).rd ACQ_TRIG_HI_valid = 1
    ∧ (s.accepting x).rd ACQ_TRIG_HI_source = x.src % 2 ^ 2 ∧ (s.accepting x).rd ACQ_TRIG_HI_sres = b2n x.coarse % 2 ^ 1
    ∧ (s.accepting x).rd ACQ_TRIG_kt = x.t % 2 ^ 72 := by
  have hr : ∀ f : Fld, f.key ≠ ACQ_TRIG_kt.key → f.key ≠ ACQ_TRIG_HI_sres.key → f.key ≠ ACQ_TRIG_HI_source.key → f.key ≠ ACQ_TRIG_HI_valid.key →
      (s.trigRegs x).rd f = s.rd f := fun f h1 h2 h3 h4 => by
    rw [State.trigRegs, State.rd_wr_ne _ _ _ _ (Ne.symm h4), State.rd_wr_ne _ _ _ _ (Ne.symm h3), State.rd_wr_ne _ _ _ _ (Ne.symm h2),
      State.rd_wr_ne _ _ _ _ (Ne.symm h1)]
  have ha : ∀ f : Fld, ACQ_TRIG_CNT_count.key ≠ f.key → ACQ_EVT_trig.key ≠ f.key → (s.accepting x).rd f = (s.trigRegs x).rd f := fun f h1 h2 => by
    rw [State.accepting, rd_orF_ne _ _ _ _ h2, State.rd_addSat_ne _ _ h1]
  refine ⟨?_, rd_orF_bit _ _ true rfl rfl, ?_, ?_, ?_, ?_, ?_⟩
  · exact (ha _ (by decide) (by decide)).trans (hr _ (by decide) (by decide) (by decide) (by decide))
  · rw [State.accepting, rd_orF_ne _ _ _ _ (by decide), State.rd_addSat, hr _ (by decide) (by decide) (by decide) (by decide)]
    rfl
  · rw [ha _ (by decide) (by decide)]
    exact State.rd_wr_same _ _ _
  · rw [ha _ (by decide) (by decide), State.trigRegs, State.rd_wr_ne _ _ _ _ (by decide)]
    exact State.rd_wr_same _ _ _
  · rw [ha _ (by decide) (by decide), State.trigRegs, State.rd_wr_ne _ _ _ _ (by decide), State.rd_wr_ne _ _ _ _ (by decide)]
    exact State.rd_wr_same _ _ _
  · rw [ha _ (by decide) (by decide), State.trigRegs, State.rd_wr_ne _ _ _ _ (by decide), State.rd_wr_ne _ _ _ _ (by decide),
      State.rd_wr_ne _ _ _ _ (by decide)]
    exact State.rd_wr_same _ _ _

theorem trigger1_accepted {s : State} {x : Trig} {k : Nat} {g : Seg} (h : s.acqSt = 3) (hg : s.acq.seg = some g) {u : State} (hu : u = s.trigger1 x k) :
    u.acqSt = 4 ∧ u.rd ACQ_EVT_trig = 1 ∧ u.rd ACQ_TRIG_CNT_count = min (s.rd ACQ_TRIG_CNT_count + 1) (2 ^ 32 - 1) ∧ u.rd ACQ_TRIG_HI_valid = 1
      ∧ u.rd ACQ_TRIG_HI_source = x.src % 2 ^ 2 ∧ u.rd ACQ_TRIG_HI_sres = b2n x.coarse % 2 ^ 1 ∧ u.rd ACQ_TRIG_kt = x.t % 2 ^ 72 := by
  obtain ⟨q, g', p, he⟩ := trigger1_wait x k h hg
  dsimp only at he
  have hw : ((({ s with acq := q } : State).wr ACQ_STAT_state 4).trigRecords g' x).acqRegs = (({ s with acq := q } : State).wr ACQ_STAT_state 4).acqRegs :=
    State.trigRecords_acqRegs _ _ _
  generalize (({ s with acq := q } : State).wr ACQ_STAT_state 4).trigRecords g' x = r at *
  have hur : u.acqRegs = (r.accepting x).acqRegs := by
    rw [hu, he]
    split
    · exact State.redStart_acqRegs _ _
    · rfl
  have hrd : ∀ f : Fld, acqKey f.key = true → u.rd f = (r.accepting x).rd f := fun f hf => rd_of_acqRegs hur hf
  obtain ⟨a1, a2, a3, a4, a5, a6, a7⟩ := accepting_shows r x
  refine ⟨(hrd _ (by decide)).trans (a1.trans ?_), (hrd _ (by decide)).trans a2, (hrd _ (by decide)).trans (a3.trans ?_), (hrd _ (by decide)).trans a4,
    (hrd _ (by decide)).trans a5, (hrd _ (by decide)).trans a6, (hrd _ (by decide)).trans a7⟩
  · exact (rd_of_acqRegs hw (by decide)).trans (State.rd_wr_same _ _ _)
  · rw [rd_of_acqRegs hw (by decide), State.rd_wr_ne _ _ _ _ (by decide)]
    rfl

end Sys2Proof.Machine
end

