-- ==== Sys2Proof/Proofs/ArmAndTrigger.lean ====
section
/-! PROOFS. Arming and the host trigger (O30). -/

namespace Sys2Proof.Machine

/-! ### An arm with a probe check -/

@[simp] theorem State.redArm_acqRegs (s : State) : s.redArm.acqRegs = s.acqRegs := by
  have h : ∀ (u : State) (n : Nat), (u.redArm1 n).acqRegs = u.acqRegs := fun u n => by
    have hl : ∀ (w : State) (n v : Nat), (w.wr (RED_RUn_LOST n) v).acqRegs = w.acqRegs := fun w n v =>
      State.wr_acqRegs w _ (decide_eq_false (by simp only [Fld.key, RED_RUn_LOST]; omega))
    simp (disch := decide) [State.redArm1, State.clrF, State.setRu, hl]
  exact foldl_acqRegs _ _ s h

@[simp] theorem State.sivArm_acqRegs (s : State) : s.sivArm.acqRegs = s.acqRegs := by
  simp (disch := decide) [State.sivArm, State.setSiv]

@[simp] theorem State.timArm_acqRegs (s : State) : s.timArm.acqRegs = s.acqRegs := by
  have h1 : ∀ (l : List Nat) (u : State), (l.foldl (fun s n => s.wr (TIM_SLOTn_CNT_count n) 0) u).acqRegs = u.acqRegs := fun l u =>
    foldl_acqRegs _ l u fun v n => State.wr_acqRegs v 0 (decide_eq_false (by simp only [Fld.key, TIM_SLOTn_CNT_count]; omega))
  unfold State.timArm
  dsimp only
  (repeat' split) <;> simp (disch := decide) [h1]

@[simp] theorem State.resArm_acqRegs (s : State) : s.resArm.acqRegs = s.acqRegs := rfl

@[simp] theorem State.ringsArm_acqRegs (s : State) : s.ringsArm.acqRegs = s.acqRegs := by
  have h1 : ∀ n, acqKey (NMC_RINGn_max n).key = false := fun n => decide_eq_false (by simp only [Fld.key, NMC_RINGn_max]; omega)
  have h2 : ∀ n, acqKey (NMC_RINGn_fill n).key = false := fun n => decide_eq_false (by simp only [Fld.key, NMC_RINGn_fill]; omega)
  exact foldl_acqRegs _ _ s fun u n => by rw [State.wr_acqRegs _ _ (h2 n), State.wr_acqRegs _ _ (h1 n)]

@[simp] theorem State.trlStart_acqRegs (s : State) (k : Nat) : (s.trlStart k).acqRegs = s.acqRegs := by
  have h1 : ∀ u : State, ((List.range 16).foldl (fun s n => s.wr (TRL_CTn_VAL n) 0) u).acqRegs = u.acqRegs := fun u =>
    foldl_view_mem State.acqRegs _ _ u fun n hn w =>
      State.wr_acqRegs w 0 (decide_eq_false (by have := List.mem_range.1 hn; simp only [Fld.key, TRL_CTn_VAL]; omega))
  simp (disch := decide) [State.trlStart, h1]

theorem rd_trigCount_armClear (s : State) : s.armClear.rd ACQ_TRIG_CNT_count = 0 := by
  have h1 : ∀ u : State, ((List.range 64).foldl (fun s n => s.wr (HDG_MKn_CNT_value n) 0) u).acqRegs = u.acqRegs := fun u =>
    foldl_acqRegs _ _ u fun v n => State.wr_acqRegs v 0 (decide_eq_false (by simp only [Fld.key, HDG_MKn_CNT_value]; omega))
  have h : s.armClear.acqRegs = s.countsReset.acqRegs := by
    rw [armClear_eq, State.acqRegs_mk, State.ringsArm_acqRegs, State.resArm_acqRegs, State.timArm_acqRegs, State.sivArm_acqRegs, State.redArm_acqRegs]
  rw [rd_of_acqRegs h (by decide)]
  unfold State.countsReset
  rw [rd_of_acqRegs (h1 _) (by decide)]
  simp only [List.foldl_cons, List.foldl_nil]
  iterate 12 rw [State.rd_wr_ne _ _ _ _ (by decide)]
  exact State.rd_wr_same _ _ _

theorem susFresh_rd (s : State) (f : Fld) : s.susFresh.rd f = s.rd f := rfl

theorem armRequest_trigCount {s : State} (h : s.acqSt = 0) (hf : s.armFault = none) (t : Nat) : (s.armRequest t).rd ACQ_TRIG_CNT_count = 0 := by
  rw [armRequest_passed h hf, rd_of_acqRegs (State.trlStart_acqRegs _ _) (by decide), State.rd_mk, susFresh_rd]
  exact rd_trigCount_armClear s.passed

/-- An arm that passes, with a probe check at arm: the check begins. -/
theorem armFull_checks {s : State} (h : s.acqSt = 0) (hf : s.armFault = none) (ha : s.rd INP_PCHK_CTL_at_arm = 1) :
    s.armFull.acqSt = 1 ∧ s.armFull.rd INP_PCHK_CTL_busy = 1 ∧ s.armFull.rd ACQ_EVT_armed = 1 ∧ s.armFull.rd ACQ_ERR_valid = 0
      ∧ s.armFull.rd ACQ_TRIG_CNT_count = 0 ∧ s.armFull.mems = s.mems := by
  have hv := armRequest_armView h hf s.tmb.kt
  have hc := armRequest_trigCount h hf s.tmb.kt
  have hm := State.armRequest_mems s s.tmb.kt
  obtain ⟨p1, p2, p3, p4, p5⟩ := passed_shows s
  rw [armFull_eq]
  generalize s.armRequest s.tmb.kt = r at *
  have hst : r.acqSt = 1 := (rd_of_armView hv (by decide)).trans p2
  have hat : r.on INP_PCHK_CTL_at_arm = true := (State.on_eq_true_iff _ _).2 ((rd_of_armView hv (by decide)).trans (p5.trans ha))
  have hb : ∀ f, (r.pchkStart r.tmb.kt true false).rd f = (r.wr INP_PCHK_CTL_busy 1).rd f := fun _ => rfl
  have hne : ∀ f, INP_PCHK_CTL_busy.key ≠ f.key → (r.pchkStart r.tmb.kt true false).rd f = r.rd f := fun f hf =>
    (hb f).trans (State.rd_wr_ne _ _ _ _ hf)
  have hmem : (r.pchkStart r.tmb.kt true false).mems = r.mems := State.wr_mems r INP_PCHK_CTL_busy 1
  rw [hst, hat, State.idle, decide_eq_true h, if_pos (by decide), if_pos rfl]
  exact ⟨(hne _ (by decide)).trans hst, (hb _).trans (State.rd_wr_same _ _ _), (hne _ (by decide)).trans ((rd_of_armView hv (by decide)).trans p3),
    (hne _ (by decide)).trans ((rd_of_armView hv (by decide)).trans p4), (hne _ (by decide)).trans hc, hmem.trans hm⟩

theorem armFull_busy {s : State} (h : s.acqSt ≠ 0) : s.armFull = s.orF ACQ_EVT_arm_ign 1 := by
  rw [armFull_eq, armRequest_busy h, State.idle, decide_eq_false h, Bool.false_and, if_neg Bool.false_ne_true]

/-! ### Writes of one bit -/

theorem bit_clear {v : Word} {i : Nat} (h : v.getLsbD i = false) : v.toNat / 2 ^ i % 2 = 0 := by
  have := mt (getLsbD_iff v i).2 (by rw [h]; exact Bool.false_ne_true)
  omega

/-- ACQ_CTL with arm written, and neither stop nor force_trig. -/
theorem acqCtl_arm {v : Word} (h1 : v.getLsbD 1 = false) (h2 : v.getLsbD 2 = false) (s : State) : State.acqCtl (v.toNat ||| 1) s = s.armFull := by
  have b0 : (v.toNat ||| 1) % 2 = 1 := by simp
  have b1 : (v.toNat ||| 1) / 2 % 2 = 0 := (or_bit v.toNat 0 1).trans (bit_clear h1)
  have b2 : (v.toNat ||| 1) / 4 % 2 = 0 := (or_bit v.toNat 0 2).trans (bit_clear h2)
  rw [acqCtl_eq, b0, b1, b2]
  rfl

/-- ACQ_CTL with force_trig written, and neither arm nor stop. -/
theorem acqCtl_trig {v : Word} (h0 : v.getLsbD 0 = false) (h1 : v.getLsbD 1 = false) (s : State) : State.acqCtl (v.toNat ||| 4) s = s.forceTrig := by
  have b0 : (v.toNat ||| 4) % 2 = 0 := by simpa using (or_bit v.toNat 2 0).trans (bit_clear h0)
  have b1 : (v.toNat ||| 4) / 2 % 2 = 0 := (or_bit v.toNat 2 1).trans (bit_clear h1)
  have b2 : (v.toNat ||| 4) / 4 % 2 = 1 := or_bit v.toNat 2 2
  rw [acqCtl_eq, b0, b1, b2]
  rfl

/-! ### The machine that an arm finds -/

theorem armFault_used (s : State) (p : Port) : (s.usedBy p).armFault = s.armFault := by
  unfold State.usedBy
  split <;> rfl

theorem armRequest_used_mems (s : State) (p : Port) (t : Nat) : ((s.advance t).usedBy p).mems = s.mems := by
  obtain ⟨b, hb⟩ := (s.advance t).usedBy_moves p
  rw [hb]
  exact State.advance_mems s t

end Sys2Proof.Machine

namespace Sys2Proof
open Machine

/-- The arms of O30. -/
theorem arms {s : State} {p : Port} {v : Word} (t : Nat) (h : Reaches p ACQ_CTL_arm.addr s) (h1 : v.getLsbD 1 = false) (h2 : v.getLsbD 2 = false) :
    (s.acqSt ≠ 0 → Answers (.arm p v t) s fun u =>
       u.rd ACQ_EVT_arm_ign = 1 ∧ TimeAt s u t ∧ SameRegs s u [ACQ_EVT_arm_ign] ∧ SameRest s u)
     ∧ (∀ c d, s.acqSt = 0 → (s.advance t).armFault = some (c, d) → Answers (.arm p v t) s fun u =>
       u.acqSt = 0 ∧ u.rd ACQ_ERR_code = c % 2 ^ 8 ∧ u.rd ACQ_ERR_detail = d % 2 ^ 8 ∧ u.rd ACQ_ERR_valid = 1 ∧ u.rd ACQ_EVT_refused = 1
         ∧ u.acq = { s.acq with retOk := true } ∧ TimeAt s u t ∧ SameRest s { u with acq := s.acq })
     ∧ (s.acqSt = 0 → (s.advance t).armFault = none → s.rd INP_PCHK_CTL_at_arm = 0 → Answers (.arm p v t) s fun u =>
       u.acqSt = 2 ∧ u.rd ACQ_EVT_armed = 1 ∧ u.rd ACQ_ERR_valid = 0)
     ∧ (s.acqSt = 0 → (s.advance t).armFault = none → s.rd INP_PCHK_CTL_at_arm = 1 → Answers (.arm p v t) s fun u =>
       u.acqSt = 1 ∧ u.rd INP_PCHK_CTL_busy = 1 ∧ u.rd ACQ_EVT_armed = 1 ∧ u.rd ACQ_ERR_valid = 0 ∧ u.rd ACQ_TRIG_CNT_count = 0
         ∧ u.deep = s.deep ∧ u.near = s.near) := by
  have hw : State.writeAt p ACQ_CTL_arm.addr (v.toNat ||| 1) t s = State.reSignal ACQ_CTL_arm.addr ((s.advance t).usedBy p).armFull := by
    rw [writeAt_acqCtl t h (by simpa using word_or_lt v (k := 0) (by decide)), acqCtl_arm h1 h2]
  have hrd : ∀ f, ((s.advance t).usedBy p).rd f = s.rd f := fun f => (State.rd_usedBy _ _ _).trans (State.rd_advance s t f)
  have hf := armFault_used (s.advance t) p
  refine ⟨fun hb => ?_, fun c d h0 hc => ?_, fun h0 hc ha => ?_, fun h0 hc ha => ?_⟩ <;> refine .of_performAt (exec_arm p v t s) h.1 ?_ <;> rw [hw]
  · rw [armFull_busy (by rw [State.acqSt, hrd]; exact hb)]
    refine ⟨rd_orF_bit _ _ true rfl rfl, kt_used_advance s t p, ?_, sameRest_used_advance s t p⟩
    rw [sameRegs_reSignal, State.orF, sameRegs_wr _ (by decide), sameRegs_usedBy, sameRegs_advance]
    exact sameRegs_self _ _
  · rw [armFull_refused ((hrd _).trans h0) (hf.trans hc)]
    obtain ⟨⟨F, e⟩, r1, r2, r3, r4, r5⟩ := refused_shows ((s.advance t).usedBy p) c d
    have hk := kt_used_advance s t p
    obtain ⟨b, hb⟩ := (s.advance t).usedBy_moves p
    obtain ⟨b', hb', -⟩ := s.advance_moves t
    generalize ((s.advance t).usedBy p).refused c d = r at *
    have hq : ((s.advance t).usedBy p).acq = s.acq := by rw [hb, hb']
    refine ⟨r5.trans ((hrd _).trans h0), r1, r2, r3, r4, by rw [hq]; rfl, ?_, ?_⟩
    · show r.tmb.kt = _
      rw [e]
      exact hk
    · rw [e, hb, hb']
      exact sameRest_mk s _ _ _ _
  · obtain ⟨p1, p2, p3, -⟩ := armFull_starts ((hrd _).trans h0) (hf.trans hc) ((hrd _).trans ha)
    exact ⟨p1, p2, p3⟩
  · obtain ⟨p1, p2, p3, p4, p5, p6⟩ := armFull_checks ((hrd _).trans h0) (hf.trans hc) ((hrd _).trans ha)
    have hm := p6.trans (armRequest_used_mems s p t)
    generalize ((s.advance t).usedBy p).armFull = u at *
    exact ⟨p1, p2, p3, p4, p5, congrArg (fun m => m.2.1) hm, congrArg (fun m => m.1) hm⟩

/-- What a host trigger does to the machine at its instant. -/
theorem writeAt_trig {s : State} {p : Port} {v : Word} (t : Nat) (h : Reaches p ACQ_CTL_arm.addr s) (h0 : v.getLsbD 0 = false) (h1 : v.getLsbD 1 = false) :
    let s0 := State.upTo (max s.tmb.kt t) s
    State.writeAt p ACQ_CTL_arm.addr (v.toNat ||| 4) t s = State.reSignal ACQ_CTL_arm.addr
      (if (s0.armed && s0.grid.run) = true then (s0.usedBy p).trigger ⟨s0.grid.start s0.nowPos, 2, true, 0x7FF⟩ s0.nowPos
        else (s0.usedBy p).orF ACQ_EVT_trig_ign 1) := by
  intro s0
  rw [writeAt_acqCtl t h (show v.toNat ||| 4 < 2 ^ 32 from word_or_lt v (k := 2) (by decide)), acqCtl_trig h0 h1, forceTrig_eq, upTo_written]
  obtain ⟨b, hb⟩ := s0.usedBy_moves p
  rw [show State.upTo (max s.tmb.kt t) s = s0 from rfl, hb]
  rfl

/-- A trigger counted at the instant `s0`, with its event, told apart from the machine at that instant. -/
theorem counted_apart (s0 : State) (p : Port) {c e : Fld} (hc : c.w = 32) (he : e.w = 1) (hce : c.key ≠ e.key) (q q' : Acq) :
    let u := { ({ s0.usedBy p with acq := q }.addSat c 1).orF e 1 with acq := q' }
    u.rd c = min (s0.rd c + 1) (2 ^ 32 - 1) ∧ u.rd e = 1 ∧ u.tmb = s0.tmb ∧ SameRegs s0 u [c, e] ∧ SameRest s0 { u with acq := s0.acq } := by
  obtain ⟨c1, c2, -, c4⟩ := counted_shows (s0.usedBy p) q q' hc he hce
  rw [State.rd_usedBy] at c1
  refine ⟨c1, c2, ?_, fun f hf => (c4 f hf).trans (State.rd_usedBy _ _ _), ?_⟩
  · obtain ⟨b, hb⟩ := s0.usedBy_moves p
    rw [hb]
    rfl
  · obtain ⟨b, hb⟩ := s0.usedBy_moves p
    rw [hb]
    exact sameRest_mk s0 _ _ _ _

/-- One counted without an event. -/
theorem counted_silent (s0 : State) (p : Port) {c : Fld} (hc : c.w = 32) (q q' : Acq) :
    let u := { ({ s0.usedBy p with acq := q } : State).addSat c 1 with acq := q' }
    u.rd c = min (s0.rd c + 1) (2 ^ 32 - 1) ∧ u.tmb = s0.tmb ∧ SameRegs s0 u [c] ∧ SameRest s0 { u with acq := s0.acq } := by
  obtain ⟨b, hb⟩ := s0.usedBy_moves p
  rw [hb]
  refine ⟨?_, rfl, fun f hf => ?_, sameRest_mk s0 _ _ _ _⟩
  · rw [State.rd_mk, State.rd_addSat, hc]
    rfl
  · rw [State.rd_mk, State.rd_addSat_ne _ _ (Ne.symm (by simpa using hf))]
    rfl

/-- The host triggers of O30. -/
theorem hostTriggers {s : State} {p : Port} {v : Word} (t : Nat) (h : Reaches p ACQ_CTL_arm.addr s) (h0 : v.getLsbD 0 = false) (h1 : v.getLsbD 1 = false) :
    let s0 := State.upTo (max s.tmb.kt t) s
    (s0.acqSt ≤ 1 ∨ 6 ≤ s0.acqSt ∨ s0.grid.run = false → Answers (.forceTrig p v t) s fun u =>
         u.rd ACQ_EVT_trig_ign = 1 ∧ u.tmb = s0.tmb ∧ SameRegs s0 u [ACQ_EVT_trig_ign] ∧ SameRest s0 u)
       ∧ (s0.grid.run = true → (∀ q, s0.acq.seen = some q → q.1 ≠ s0.nowPos) →
         (s0.acqSt = 2 → Answers (.forceTrig p v t) s fun u =>
           u.rd ACQ_EARLY_CNT_count = min (s0.rd ACQ_EARLY_CNT_count + 1) (2 ^ 32 - 1) ∧ u.rd ACQ_EVT_early = 1 ∧ u.tmb = s0.tmb
             ∧ SameRegs s0 u [ACQ_EARLY_CNT_count, ACQ_EVT_early]
             ∧ SameRest s0 { u with acq := { u.acq with seg := s0.acq.seg, seen := s0.acq.seen } })
         ∧ (∀ g, s0.acq.seg = some g → s0.acqSt = 3 → Answers (.forceTrig p v t) s fun u =>
           u.acqSt = 4 ∧ u.rd ACQ_EVT_trig = 1 ∧ u.rd ACQ_TRIG_CNT_count = min (s0.rd ACQ_TRIG_CNT_count + 1) (2 ^ 32 - 1)
             ∧ u.rd ACQ_TRIG_HI_valid = 1 ∧ u.rd ACQ_TRIG_HI_source = 2 ∧ u.rd ACQ_TRIG_HI_sres = 1
             ∧ u.rd ACQ_TRIG_kt = s0.grid.start s0.nowPos % 2 ^ 72)
         ∧ (∀ g, s0.acq.seg = some g → s0.acqSt = 4 → Answers (.forceTrig p v t) s fun u =>
           u.rd ACQ_EXTRA_CNT_count = min (s0.rd ACQ_EXTRA_CNT_count + 1) (2 ^ 32 - 1) ∧ u.tmb = s0.tmb
             ∧ SameRegs s0 u [ACQ_EXTRA_CNT_count] ∧ SameRest s0 { u with acq := { u.acq with seg := s0.acq.seg, seen := s0.acq.seen } })
         ∧ (s0.acqSt = 5 → Answers (.forceTrig p v t) s fun u =>
           u.rd ACQ_BLIND_CNT_count = min (s0.rd ACQ_BLIND_CNT_count + 1) (2 ^ 32 - 1) ∧ u.rd ACQ_EVT_blind = 1 ∧ u.tmb = s0.tmb
             ∧ SameRegs s0 u [ACQ_BLIND_CNT_count, ACQ_EVT_blind]
             ∧ SameRest s0 { u with acq := { u.acq with seg := s0.acq.seg, opening := s0.acq.opening, seen := s0.acq.seen } })) := by
  intro s0
  have hw := writeAt_trig t h h0 h1
  dsimp only at hw
  change _ = State.reSignal _ (if (s0.armed && s0.grid.run) = true then (s0.usedBy p).trigger ⟨s0.grid.start s0.nowPos, 2, true, 0x7FF⟩ s0.nowPos
    else (s0.usedBy p).orF ACQ_EVT_trig_ign 1) at hw
  clear_value s0
  obtain ⟨b, hb⟩ := s0.usedBy_moves p
  refine ⟨fun hg => ?_, fun hr hs => ?_⟩
  · have hc : ¬(s0.armed && s0.grid.run) = true := by
      simp only [State.armed, Bool.and_eq_true, decide_eq_true_eq]
      rintro ⟨⟨h2, h5⟩, hr⟩
      rcases hg with hg | hg | hg
      · omega
      · omega
      · rw [hr] at hg
        exact Bool.noConfusion hg
    refine .of_performAt (exec_forceTrig p v t s) h.1 ?_
    rw [hw, if_neg hc]
    refine ⟨rd_orF_bit _ _ true rfl rfl, ?_, ?_, ?_⟩
    · rw [hb]
      rfl
    · rw [sameRegs_reSignal, State.orF, sameRegs_wr _ (by decide), sameRegs_usedBy]
      exact sameRegs_self _ _
    · exact sameRest_used s0 p
  · have hst : ∀ n, s0.acqSt = n → (s0.usedBy p).acqSt = n := fun n hn => (State.rd_usedBy _ _ _).trans hn
    have hseg : (s0.usedBy p).acq = s0.acq := by rw [hb]
    have hfirst := trigger_first (s := s0.usedBy p) (k := s0.nowPos) ⟨s0.grid.start s0.nowPos, 2, true, 0x7FF⟩ (by rw [hseg]; exact hs)
    have hgo : ∀ n, 2 ≤ n → n ≤ 5 → s0.acqSt = n → State.writeAt p ACQ_CTL_arm.addr (v.toNat ||| 4) t s = State.reSignal ACQ_CTL_arm.addr
        ((s0.usedBy p).trigger ⟨s0.grid.start s0.nowPos, 2, true, 0x7FF⟩ s0.nowPos) := fun n h2 h5 hn => by
      rw [hw, if_pos (by simp [State.armed, hn, h2, h5, hr])]
    refine ⟨fun hn => ?_, fun g hg hn => ?_, fun g hg hn => ?_, fun hn => ?_⟩ <;> refine .of_performAt (exec_forceTrig p v t s) h.1 ?_ <;>
      rw [hgo _ (by decide) (by decide) hn, hfirst]
    · obtain ⟨g, hx⟩ := trigger1_early ⟨s0.grid.start s0.nowPos, 2, true, 0x7FF⟩ s0.nowPos (hst _ hn)
      rw [hx, hseg]
      exact counted_apart s0 p (c := ACQ_EARLY_CNT_count) (e := ACQ_EVT_early) rfl rfl (by decide) _
        { s0.acq with seg := g, seen := some (s0.nowPos, ⟨s0.grid.start s0.nowPos, 2, true, 0x7FF⟩) }
    · obtain ⟨p1, p2, p3, p4, p5, p6, p7⟩ := trigger1_accepted (x := ⟨s0.grid.start s0.nowPos, 2, true, 0x7FF⟩) (k := s0.nowPos) (hst _ hn)
        ((congrArg Acq.seg hseg).trans hg) rfl
      rw [State.rd_usedBy] at p3
      exact ⟨p1, p2, p3, p4, p5, p6, p7⟩
    · obtain ⟨g', hx⟩ := trigger1_extra ⟨s0.grid.start s0.nowPos, 2, true, 0x7FF⟩ s0.nowPos (hst _ hn) ((congrArg Acq.seg hseg).trans hg)
      rw [hx, hseg]
      exact counted_silent s0 p (c := ACQ_EXTRA_CNT_count) rfl _
        { s0.acq with seg := g', seen := some (s0.nowPos, ⟨s0.grid.start s0.nowPos, 2, true, 0x7FF⟩) }
    · obtain ⟨g, o, hx⟩ := trigger1_blind ⟨s0.grid.start s0.nowPos, 2, true, 0x7FF⟩ s0.nowPos (hst _ hn)
      rw [hx, hseg]
      exact counted_apart s0 p (c := ACQ_BLIND_CNT_count) (e := ACQ_EVT_blind) rfl rfl (by decide) _
        { s0.acq with seg := g, opening := o, seen := some (s0.nowPos, ⟨s0.grid.start s0.nowPos, 2, true, 0x7FF⟩) }

/-- Settles O30: an arm by the state it finds and by its checks, a host trigger by the state it arrives in. -/
theorem armAndHostTrigger : Obligations.ArmAndHostTrigger :=
  ⟨fun _ _ _ t h h1 h2 => arms t h h1 h2, fun _ _ _ t h h0 h1 => hostTriggers t h h0 h1⟩

end Sys2Proof
end

