-- ==== Sys2Proof/Proofs/StorageGaps.lean ====
section
/-! PROOFS. A machine that refutes O32: the stall of storage leaves a Sieve block empty that was the last before the end of its region. -/

namespace Sys2Proof

open Machine

/-! ### What follows a command while a capture waits for nothing -/

/-- Nothing waits to be done in a machine that captures: no edge to be seen, no branch of Trellis, no reduction and no timestamp. -/
structure Filling (s : State) : Prop where
  waking : s.hks.waking = none
  step2 : s.hks.step ≠ 2
  step3 : s.hks.step ≠ 3
  hostReq : s.hks.hostReq = none
  held : s.held = []
  script : s.hks.script = none
  runReq : s.hks.runReq = none
  hopWait : s.clk.hopWait = none
  pending : s.rd CLK_HOP_pending = 0
  rings : s.hrv.rings = []
  modePend : s.rd GLB_STAT_mode_pend = 0
  retPend : s.rd GLB_STAT_ret_pend = 0
  bme : s.hrv.bme = false
  memHeld : s.hrv.memHeld = []
  source : s.rd CLK_STAT_s_src_act = 0
  busy : 2 ≤ s.acqSt
  hold : s.inp.hold = []
  opening : s.acq.opening = none
  red : s.red = []
  restart : s.trl.restart = none
  branches : s.trlLive = false
  intervals : s.rd TIM_STAT_running = 0

/-- Trellis with no branch enabled only moves on. -/
theorem trlLoop_dead (p fuel : Nat) (s : State) (h : s.trl.restart = none) (hl : s.trlLive = false) : ∃ T, State.trlLoop p fuel s = { s with trl := T } := by
  induction fuel generalizing s with
  | zero => exact ⟨s.trl, rfl⟩
  | succ k ih =>
    have hr : s.restartAt s.trl.next = s := by
      unfold State.restartAt
      rw [h]
    unfold State.trlLoop
    simp only [hr, hl, Bool.false_eq_true, if_false]
    rw [h]
    split
    · exact ⟨s.trl, rfl⟩
    · obtain ⟨T, e⟩ := ih { s with trl := { s.trl with next := p, restart := none } } rfl hl
      exact ⟨T, e⟩

theorem trlTo_dead (p : Nat) (s : State) (h : s.trl.restart = none) (hl : s.trlLive = false) : ∃ T, State.trlTo p s = { s with trl := T } := by
  unfold State.trlTo
  split
  · exact trlLoop_dead _ _ _ h hl
  · exact ⟨s.trl, rfl⟩

/-- No reduction runs. -/
theorem redSeen_none (p : Nat) (s : State) (h : s.red = []) : State.redSeen p s = s := by
  have hu : ∀ n, s.redUpTo n p = s := fun n => by
    have hr : (s.ru n).run = false := by
      unfold State.ru
      rw [h]
      rfl
    unfold State.redUpTo
    exact if_pos (by rw [hr]; rfl)
  unfold State.redSeen
  split
  · rfl
  · generalize (List.range 8).filter _ = l
    induction l with
    | nil => rfl
    | cons n r ih => rw [List.foldl_cons, hu n, ih]

/-- Acquisition keeps up with the time: only Trellis moves on. -/
theorem keepUp_filling {s : State} (h : Filling s) : ∃ T, s.keepUp = { s with trl := T } := by
  have ho : State.openTo s.tmb.kt s = s := by
    unfold State.openTo
    rw [h.opening]
  have he : State.edgesTo (s.tmb.kt - alignF) s.inp.hold.length s = s := by rw [h.hold]; rfl
  obtain ⟨T, ht⟩ := trlTo_dead (s.grid.posOf (s.tmb.kt - alignF)) s h.restart h.branches
  have htim : ({ s with trl := T } : State).on TIM_STAT_running = false := by
    rw [State.on, State.rd_mk]
    exact decide_eq_false (by rw [show s.rd TIM_STAT_running = 0 from h.intervals]; decide)
  refine ⟨T, ?_⟩
  have hid : s.idle = false := decide_eq_false (by have := h.busy; omega)
  unfold State.keepUp
  rw [hid, if_neg Bool.false_ne_true, ho]
  unfold State.seenTo
  dsimp only
  rw [he, ht, redSeen_none _ { s with trl := T } h.red]
  unfold State.timKeep State.timSeen
  rw [htim, if_neg Bool.false_ne_true]

/-- What follows a command there changes neither registers nor memories. -/
theorem settle_filling (old u : State) (h : Filling u) (hi : 2 ≤ old.acqSt) :
    ∃ b T q m, State.settle old u = { u with tmb := b, trl := T, irqSeen := q, msxPba := m } := by
  have hx : (u.refOutSync.on CLK_STAT_s_src_act && u.refOutSync.grid.run) = false := by
    simp [State.on, State.refOutSync, h.source]
  have e0 : u.selfSync = u.refOutSync.keepUp := by rw [State.selfSync, State.extTrack, hx, if_neg Bool.false_ne_true]
  have hr : ∃ b, u.refOutSync = { u with tmb := b } := ⟨_, rfl⟩
  obtain ⟨b, hb⟩ := hr
  obtain ⟨T, hT⟩ := keepUp_filling (s := { u with tmb := b }) { h with }
  generalize hr : ({ u with tmb := b, trl := T } : State) = r at *
  have w : r.wakeSync = r := by simp [← hr, State.wakeSync, h.waking]
  have bo : r.bootSync = r := by simp [← hr, State.bootSync, h.step2, h.step3]
  have ho : r.hostSync = r := by simp [← hr, State.hostSync, h.hostReq]
  have he : r.heldSync = r := by simp [← hr, State.heldSync, h.held]
  have me : r.memSync = r := by simp [← hr, State.memSync, h.memHeld]
  have se : r.seqSync = r := by simp [← hr, State.seqSync, h.script, h.runReq]
  have hop : r.hopSync = r := by simp [← hr, State.hopSync, h.hopWait, h.pending]
  have hv : r.hrvSync = r := by simp [← hr, State.hrvSync, h.rings]
  have en : r.startEntry = r := by simp [← hr, State.startEntry, State.changeDue, State.returnDue, State.on, h.modePend, h.retPend]
  have e6 : State.armSync old r = r := if_neg fun x => by omega
  have e7 : State.idleSync old r = r := if_neg fun x => by
    have : r.acqSt = u.acqSt := by rw [← hr]; rfl
    have := h.busy
    omega
  obtain ⟨q, m, e⟩ := irqSync_masked r (by rw [← hr]; exact h.bme)
  refine ⟨b, T, q, m, ?_⟩
  simp only [State.settle, e0, hb, hT]
  rw [w, bo, ho, he, me, se, e6, e7, hop, hv, en, e, ← hr]

/-! ### The registers that a stall writes -/

theorem rd_deepPut (s : State) (a : Nat) (bs : List Byte) {f : Fld} (hf : f.key ≠ DMC_RDP_CNT_count.key) : (s.deepPut a bs).rd f = s.rd f := by
  obtain ⟨-, h⟩ := activates_keeps (cdiv (a % 64 + bs.length) 64) s
  exact h f (by simpa using hf)

theorem rd_deepPutZ (s : State) (a : Nat) (bs : List Byte) (z : Nat) {f : Fld} (hf : f.key ≠ DMC_RDP_CNT_count.key) : (s.deepPutZ a bs z).rd f = s.rd f := by
  unfold State.deepPutZ
  split
  · exact rd_deepPut s a bs hf
  · obtain ⟨-, h⟩ := activates_keeps (cdiv z 64) (s.deepPut a bs)
    exact (h f (by simpa using hf)).trans (rd_deepPut s a bs hf)

/-- The registers that Sieve's cut of its blocks may write. -/
def cutFlds : List Fld := [SIV_STAT_busy, SIV_WPTR_ptr, DMC_RDP_CNT_count]

theorem rd_setSiv (s : State) (q : Siv) {f : Fld} (hf : f.key ∉ cutFlds.map Fld.key) : (s.setSiv q).rd f = s.rd f :=
  State.rd_wr_ne _ _ _ _ fun h => hf (by simp [cutFlds, h])

theorem rd_sivPad (s : State) (w : Nat) {f : Fld} (hf : f.key ∉ cutFlds.map Fld.key) : (s.sivPad w).rd f = s.rd f := by
  unfold State.sivPad
  dsimp only
  split
  · rfl
  · rw [rd_setSiv _ _ hf]
    exact rd_deepPutZ _ _ _ _ fun h => hf (by simp [cutFlds, h])

theorem rd_sivTaken (s : State) (n : Nat) {f : Fld} (hf : f.key ∉ cutFlds.map Fld.key) : (s.sivTaken n).rd f = s.rd f := by
  unfold State.sivTaken
  split
  · dsimp only
    split
    · rw [rd_sivPad _ _ hf, rd_setSiv _ _ hf]
    · exact rd_setSiv _ _ hf
  · exact State.rd_wr_ne _ _ _ _ fun h => hf (by simp [cutFlds, h])

theorem rd_sivCut (s : State) (p : Nat) {f : Fld} (hf : f.key ∉ cutFlds.map Fld.key) : (s.sivCut p).rd f = s.rd f :=
  (foldl_view (fun s : State => s.rd f) _ _ _ fun u _ => rd_sivTaken u 0 hf).trans (rd_setSiv _ _ hf)

/-- The registers that show that ring 0 is full. -/
def ringFlds : List Fld := [NMC_STAT_full, NMC_EVT_ring_full, NMC_RINGn_max 0, NMC_RINGn_fill 0]

/-- A machine that has met a full ring of tile 0. -/
def Machine.State.ringMet (s : State) : State := (State.ringFull 0 (s.orF NMC_STAT_full (2 ^ 0))).orF NMC_EVT_ring_full 1

theorem rd_ringMet (s : State) {f : Fld} (hf : f.key ∉ ringFlds.map Fld.key) : s.ringMet.rd f = s.rd f := by
  simp only [ringFlds, List.map_cons, List.map_nil, List.mem_cons, List.not_mem_nil, or_false, not_or] at hf
  obtain ⟨h1, h2, h3, h4⟩ := hf
  unfold State.ringMet State.ringFull
  rw [rd_orF_ne _ _ _ _ (Ne.symm h2), State.rd_wr_ne _ _ _ _ (Ne.symm h4), State.rd_wr_ne _ _ _ _ (Ne.symm h3), rd_orF_ne _ _ _ _ (Ne.symm h1)]

/-- The stall of storage leaves the registers that are not its own. -/
theorem rd_storageStall (s : State) (t : Nat) {f : Fld} (h1 : f.key ∉ cutFlds.map Fld.key) (h2 : f.key ∉ ringFlds.map Fld.key)
    (h3 : f.key ≠ ACQ_STAT_gap_open.key) : (State.storageStall 0 t s).rd f = (State.upTo t s).rd f := by
  unfold State.storageStall
  generalize State.upTo t s = s0
  dsimp only
  split
  · rfl
  · have hm : ((State.ringFull 0 (s0.orF NMC_STAT_full (2 ^ 0))).orF NMC_EVT_ring_full 1).rd f = s0.rd f := rd_ringMet s0 h2
    generalize (State.ringFull 0 (s0.orF NMC_STAT_full (2 ^ 0))).orF NMC_EVT_ring_full 1 = m at *
    split
    · obtain ⟨N, P, A, r, e⟩ := m.nearSync_moves
      rw [State.rd_wr_ne _ _ _ _ (Ne.symm h3), rd_sivCut _ _ h1]
      exact (State.rd_congr (by rw [e]) f).trans hm
    · exact hm

/-! ### A Sieve block that the stall leaves empty -/

/-- A machine in WAIT with one block of Sieve in a lane, which is the last of its region's round. -/
def lastBlock : State :=
  { State.reset with
    hks := { Hks.new with rails := true }, grid := { State.reset.grid with run := true },
    siv := { Siv.new with blks := [⟨0, 0, 0, 1, 0, some 0⟩], pre := some (1025, 1) },
    fields := [(ACQ_STAT_state.key, 3), (SIV_SIZE_value.key, 2), ((CLK_x_STAT_gated 1).key, 0), ((CLK_x_STAT_gated 2).key, 0)] }

theorem slotFree_lastBlock : SlotFree lastBlock := fun c h => by simp [lastBlock, State.reset, Inp.new] at h

/-- That machine at its instant. -/
def lastSeen : State := State.upTo 0 lastBlock

theorem filling_lastSeen : Filling lastSeen := by constructor <;> decide +kernel

/-- The machine that the stall makes of it. -/
def lastStalled : State := State.storageStall 0 0 lastBlock

theorem exec_lastBlock : exec (.storageStall 0 0) lastBlock = .next (State.settle lastBlock lastStalled) := by
  rw [exec_storageStall, State.performOnAt, performOn_next _ _ ⟨rfl, rfl⟩, reached_free _ _ slotFree_lastBlock]
  rfl

/-- The rest of the region is padded. -/
theorem written_lastStalled : lastStalled.hrv.written = [(2, 2048)] := by decide +kernel

/-- Where the registers that a capture and its follow-up wait for are as at the instant of the stall, and so is what else it waits for. -/
theorem Filling.of_parts {s u : State} (h : Filling s) (hks : u.hks = s.hks) (held : u.held = s.held) (clk : u.clk = s.clk)
    (inp : u.inp = s.inp) (trl : u.trl = s.trl) (red : u.red = s.red) (op : u.acq.opening = s.acq.opening) (rings : u.hrv.rings = s.hrv.rings)
    (bme : u.hrv.bme = s.hrv.bme) (mem : u.hrv.memHeld = s.hrv.memHeld) (level : s.rd TRL_STAT_level = 0)
    (regs : ∀ f ∈ [CLK_HOP_pending, GLB_STAT_mode_pend, GLB_STAT_ret_pend, ACQ_STAT_state, CLK_STAT_s_src_act, TIM_STAT_running, TRL_STAT_level,
      TRL_Ln_BRb_COND_en 0 0, TRL_Ln_BRb_COND_en 0 1, TRL_Ln_BRb_COND_en 0 2, TRL_Ln_BRb_COND_en 0 3], u.rd f = s.rd f) : Filling u := by
  simp only [List.forall_mem_cons, List.not_mem_nil, false_imp_iff, implies_true, and_true] at regs
  obtain ⟨hp, hm, hr, ha, hx, ht, hl, b0, b1, b2, b3⟩ := regs
  have hlive : u.trlLive = s.trlLive := by
    simp only [State.trlLive, State.on, hl, level, List.range, List.range.loop, List.any_cons, List.any_nil, b0, b1, b2, b3]
  exact ⟨hks ▸ h.waking, hks ▸ h.step2, hks ▸ h.step3, hks ▸ h.hostReq, held ▸ h.held, hks ▸ h.script, hks ▸ h.runReq, clk ▸ h.hopWait,
    hp ▸ h.pending, rings ▸ h.rings, hm ▸ h.modePend, hr ▸ h.retPend, bme ▸ h.bme, mem ▸ h.memHeld, hx ▸ h.source,
    h.busy.trans_eq ha.symm, inp ▸ h.hold, op.trans h.opening, red ▸ h.red, trl ▸ h.restart, hlive.trans h.branches, ht ▸ h.intervals⟩

theorem filling_lastStalled : Filling lastStalled := by
  refine filling_lastSeen.of_parts ?_ ?_ ?_ ?_ ?_ ?_ ?_ ?_ ?_ ?_ (by decide +kernel) fun f hf => ?_
  iterate 10 decide +kernel
  have hk : ∀ f ∈ [CLK_HOP_pending, GLB_STAT_mode_pend, GLB_STAT_ret_pend, ACQ_STAT_state, CLK_STAT_s_src_act, TIM_STAT_running, TRL_STAT_level,
      TRL_Ln_BRb_COND_en 0 0, TRL_Ln_BRb_COND_en 0 1, TRL_Ln_BRb_COND_en 0 2, TRL_Ln_BRb_COND_en 0 3],
      f.key ∉ cutFlds.map Fld.key ∧ f.key ∉ ringFlds.map Fld.key ∧ f.key ≠ ACQ_STAT_gap_open.key := by decide
  obtain ⟨h1, h2, h3⟩ := hk f hf
  exact rd_storageStall lastBlock 0 h1 h2 h3

/-- Refutes O32: of a stall of storage the statement says that it leaves deep memory, and what Sieve's writer has reached in it, as they were.
In the machine `lastBlock` the stall leaves the only block in a Sieve lane empty, which was the last before the writer goes back to the start
of its region (R249): the rest of the region is then padded in deep memory. Its other clauses were not found to fail. -/
theorem not_stopsAndGaps : ¬ Obligations.StopsAndGaps := by
  unfold Obligations.StopsAndGaps
  intro h
  obtain ⟨hstall, -⟩ := h.2 lastBlock 0 ⟨rfl, rfl⟩ (by decide +kernel) (by decide +kernel)
  have hans := hstall 0 (by decide +kernel) (by decide +kernel) (by decide +kernel)
  obtain ⟨u, hu, -, -, -, hacq, -, -, -, -, hregs, hrest⟩ := hans.becomes slotFree_lastBlock exec_lastBlock
  change SameRegs lastSeen u _ at hregs
  change SameRest lastSeen _ at hrest
  have hop : u.acq.opening = lastSeen.acq.opening := (congrArg Acq.opening hacq :)
  rw [sameRest_iff] at hrest
  obtain ⟨-, -, held, -, -, inp, -, -, clk, trl, -, -, red, -, -, -, -, hrv, -, -, hks, -⟩ := hrest
  have hfill : Filling u := filling_lastSeen.of_parts hks held clk inp trl red hop (congrArg Hrv.rings hrv :) (congrArg Hrv.bme hrv :)
    (congrArg Hrv.memHeld hrv :) (by decide +kernel) fun f hf => hregs f (by revert f; decide)
  obtain ⟨_, _, _, _, eu⟩ := settle_filling lastBlock u hfill (by decide)
  obtain ⟨_, _, _, _, ev⟩ := settle_filling lastBlock lastStalled filling_lastStalled (by decide)
  have hw : u.hrv.written = lastStalled.hrv.written := (congrArg (fun s : State => s.hrv.written) (eu.symm.trans (hu.trans ev)) :)
  have h0 : u.hrv.written = lastSeen.hrv.written := (congrArg Hrv.written hrv :)
  rw [written_lastStalled, h0] at hw
  exact absurd hw (by decide +kernel)

end Sys2Proof
end

