-- ==== Sys2Proof/Proofs/CaptureCourse.lean ====
section
/-! SUPPORT. The state of acquisition up to an instant and at a stop: up to the instant only a trigger accepted in WAIT moves it, and a
stop for a cause that goes before Hedge's enters STOPPING. -/

namespace Sys2Proof.Machine

/-- Acquisition is in the same state, or has gone from WAIT to POSTFILL. -/
def Goes (s u : State) : Prop := u.acqSt = s.acqSt ∨ (s.acqSt = 3 ∧ u.acqSt = 4)

theorem Goes.refl (s : State) : Goes s s := .inl rfl

theorem Goes.of_eq {s u : State} (h : u.acqSt = s.acqSt) : Goes s u := .inl h

theorem Goes.trans {s u v : State} (h : Goes s u) (g : Goes u v) : Goes s v := by
  obtain h | ⟨h3, h4⟩ := h
  · obtain g | ⟨g3, g4⟩ := g
    · exact .inl (g.trans h)
    · exact .inr ⟨h ▸ g3, g4⟩
  · obtain g | ⟨g3, _⟩ := g
    · exact .inr ⟨h3, g.trans h4⟩
    · exact absurd (h4.symm.trans g3) (by decide)

theorem Goes.ite {s u v : State} {c : Prop} [Decidable c] (h : Goes s u) (g : Goes s v) : Goes s (if c then u else v) := by
  split
  · exact h
  · exact g

theorem Goes.foldl {α : Type} {g : State → α → State} (h : ∀ u a, Goes u (g u a)) (l : List α) (s : State) : Goes s (l.foldl g s) := by
  induction l generalizing s with
  | nil => exact .refl s
  | cons a r ih => exact (h s a).trans (ih _)

theorem acqSt_of_apart {s u : State} (h : u.apart = s.apart) : u.acqSt = s.acqSt := rd_of_apart h (by decide)

theorem acqSt_of_unopen {s u : State} (h : u.apart.unopen = s.apart.unopen) : u.acqSt = s.acqSt := rd_of_unopen h (by decide) (by decide)

theorem goes_apart {s u : State} (h : u.apart = s.apart) : Goes s u := .of_eq (acqSt_of_apart h)

/-- Registers besides ACQ_STAT may be written. -/
theorem acqSt_wr (s : State) {f : Fld} (v : Nat) (h : f.key ≠ ACQ_STAT_state.key) : (s.wr f v).acqSt = s.acqSt := State.rd_wr_ne _ _ _ _ h

@[simp] theorem acqSt_mk (s : State) (b c h fr g i t d ta cl tr ac hd re si ti dm ra hr st gr hk pw bb jt near deep scr nv po dp ce mt mp mi ir pe) :
    (State.mk b s.fields c h fr g i t d ta cl tr ac hd re si ti dm ra hr st gr hk pw bb jt near deep scr nv po dp ce mt mp mi ir pe).acqSt
      = s.acqSt := rfl

/-! ### A trigger -/

theorem goes_trigger1 (s : State) (x : Trig) (k : Nat) : Goes s (s.trigger1 x k) := by
  unfold State.trigger1
  split
  case h_3 g h3 _ =>
    refine .inr ⟨h3, Eq.trans ?_ (State.rd_wr_same { s with acq := { s.acq with seg := some { g with trig := some x, trigPos := k }, lastTrig := x.t } } ACQ_STAT_state 4)⟩
    refine acqSt_of_apart ?_
    split <;> simp
  all_goals exact .of_eq (acqSt_of_apart (by simp))

theorem goes_trigger2 (s : State) (x y : Trig) : Goes s (s.trigger2 x y) := by
  unfold State.trigger2
  split <;> exact goes_apart (by simp)

theorem goes_trigger (s : State) (x : Trig) (k : Nat) : Goes s (s.trigger x k) := by
  unfold State.trigger
  split
  · exact .ite (goes_trigger2 s x _) (.refl s)
  · exact goes_trigger1 s x k

/-! ### Trellis -/

theorem acqSt_wr_counter (s : State) (n v : Nat) : (s.wr (TRL_CTn_VAL n) v).acqSt = s.acqSt := by
  refine acqSt_wr s v fun h => ?_
  simp only [Fld.key, TRL_CTn_VAL, ACQ_STAT_state] at h
  omega

/-- The counters at their start. -/
theorem acqSt_counters (s : State) (l : List Nat) : (l.foldl (fun s n => s.wr (TRL_CTn_VAL n) 0) s).acqSt = s.acqSt :=
  foldl_view State.acqSt _ l s fun u n => acqSt_wr_counter u n 0

theorem acqSt_trlStart (s : State) (k : Nat) : (s.trlStart k).acqSt = s.acqSt := by
  unfold State.trlStart
  dsimp only
  rw [acqSt_mk, acqSt_wr _ _ (by decide), acqSt_wr _ _ (by decide), acqSt_counters]

theorem acqSt_restartAt (s : State) (k : Nat) : (s.restartAt k).acqSt = s.acqSt := by
  unfold State.restartAt
  split
  · split
    · rw [acqSt_mk, acqSt_trlStart, acqSt_mk]
    · rfl
  · rfl

theorem acqSt_actCt (s : State) (l b : Nat) : (s.actCt l b).acqSt = s.acqSt := by
  have h1 : ∀ u : State, (if s.on (TRL_Ln_BRb_ACT_ct_clr l b) then u.wr (TRL_CTn_VAL (s.rd (TRL_Ln_BRb_ARG_ct_idx l b))) 0 else u).acqSt = u.acqSt :=
    fun u => by
      split
      · exact acqSt_wr_counter _ _ _
      · rfl
  unfold State.actCt
  dsimp only
  split
  · exact (acqSt_wr_counter _ _ _).trans (h1 s)
  · exact h1 s

theorem acqSt_actTm (s : State) (l b k t : Nat) : (s.actTm l b k t).acqSt = s.acqSt := by
  have hm : ∀ (c : Prop) [Decidable c] (x : Trl), (if c then s else { s with trl := x }).acqSt = s.acqSt := fun c _ x => by
    split <;> rfl
  exact hm _ _

theorem acqSt_actQual (s : State) (l b k : Nat) : (s.actQual l b k).acqSt = s.acqSt := by
  unfold State.actQual
  split
  · rw [acqSt_mk, acqSt_wr _ _ (by decide)]
  split
  · rw [acqSt_mk, acqSt_wr _ _ (by decide)]
  · rfl

theorem acqSt_pulse (s : State) (t n : Nat) : (s.pulse t n).acqSt = s.acqSt := by
  unfold State.pulse
  split <;> rfl

theorem acqSt_actXtrig (s : State) (x : Taken) : (s.actXtrig x).acqSt = s.acqSt := by
  unfold State.actXtrig
  split
  · rfl
  · exact (acqSt_of_apart (State.grfXtrig_apart _ _ _ _ _ _)).trans (foldl_view State.acqSt _ _ s fun u n => acqSt_pulse u _ n)

theorem acqSt_actMark (s : State) (x : Taken) : (s.actMark x).acqSt = s.acqSt := by
  have h1 : ∀ c m ch l b co, (if s.on (TRL_Ln_BRb_ACT_mark x.level x.br) then s.markTrellis c m ch l b co else s).acqSt = s.acqSt :=
    fun _ _ _ _ _ _ => by
      split
      · exact acqSt_of_apart (State.markTrellis_apart _ _ _ _ _ _ _)
      · rfl
  unfold State.actMark
  dsimp only
  split
  · exact (acqSt_wr _ _ (by decide)).trans (h1 _ _ _ _ _ _)
  · exact h1 _ _ _ _ _ _

theorem acqSt_act (k : Nat) (s : State) (x : Taken) : (State.act k s x).acqSt = s.acqSt := by
  unfold State.act
  dsimp only
  refine Eq.trans (b := (((((s.actCt x.level x.br).actTm x.level x.br k x.t).actQual x.level x.br k).actXtrig x).actMark x).acqSt) ?_ ?_
  · split
    · exact (acqSt_wr _ _ (by decide)).trans (acqSt_wr _ _ (by decide))
    · rfl
  · rw [acqSt_actMark, acqSt_actXtrig, acqSt_actQual, acqSt_actTm, acqSt_actCt]

theorem goes_fire (s : State) (k : Nat) (x : Taken) : Goes s (s.fire k x) := by
  unfold State.fire
  dsimp only
  refine Goes.trans (.of_eq ?_) (goes_trigger _ _ _)
  rw [acqSt_wr _ _ (by decide), acqSt_wr _ _ (by decide), acqSt_wr _ _ (by decide), acqSt_wr _ _ (by decide), acqSt_wr _ _ (by decide),
    acqSt_wr _ _ (by decide)]

theorem goes_trellis (s : State) (k : Nat) : Goes s (s.trellis k) := by
  refine Goes.trans (.of_eq (acqSt_restartAt s k)) ?_
  unfold State.trellis
  dsimp only
  generalize s.restartAt k = u
  have h1 : ∀ (xs : List Taken) (v : Nat) (w : State), ((xs.foldl (State.act k) w).wr TRL_STAT_level v).acqSt = w.acqSt := fun xs v w =>
    (acqSt_wr _ _ (by decide)).trans (foldl_view State.acqSt _ xs w fun u x => acqSt_act k u x)
  refine .ite (.refl u) (.ite (.of_eq (acqSt_mk ..)) ?_)
  split
  · exact Goes.trans (.of_eq ((h1 _ _ _).trans (acqSt_mk ..))) (goes_fire _ _ _)
  · exact .of_eq ((h1 _ _ _).trans (acqSt_mk ..))

theorem goes_trlLoop (p fuel : Nat) (s : State) : Goes s (State.trlLoop p fuel s) := by
  induction fuel generalizing s with
  | zero => exact .refl s
  | succ n ih =>
    refine Goes.trans (.of_eq (acqSt_restartAt s s.trl.next)) ?_
    unfold State.trlLoop
    dsimp only
    generalize s.restartAt s.trl.next = u
    split
    · exact .refl u
    split
    · exact (goes_trellis u _).trans (ih _)
    · exact Goes.trans (.of_eq rfl) (ih _)

theorem goes_trlTo (p : Nat) (s : State) : Goes s (State.trlTo p s) := .ite (goes_trlLoop _ _ _) (.refl s)

/-! ### Hedge -/

theorem acqSt_putRule (s : State) (n : Nat) (r : Rule) : (s.putRule n r).acqSt = s.acqSt := rfl

theorem acqSt_addSat_rule (s : State) (n v : Nat) : (s.addSat (HDG_MKn_CNT_value n) v).acqSt = s.acqSt := by
  refine acqSt_wr s _ fun h => ?_
  simp only [Fld.key, HDG_MKn_CNT_value, ACQ_STAT_state] at h
  omega

theorem goes_violate (s : State) (n kind c : Nat) (o : Int) (ref tv : Nat) (sres : Bool) : Goes s (s.violate n kind c o ref tv sres) := by
  unfold State.violate
  extract_lets r s1 s2 s3 mark trig stop s4 s5
  have h2 : s2.acqSt = s1.acqSt := by
    unfold s2
    rw [acqSt_wr _ _ (by decide), acqSt_wr _ _ (by decide), acqSt_wr _ _ (by decide), acqSt_wr _ _ (by decide), acqSt_wr _ _ (by decide),
      acqSt_wr _ _ (by decide)]
  have h1 : s1.acqSt = s.acqSt := (acqSt_wr _ _ (by decide)).trans (acqSt_addSat_rule s n 1)
  have h3 : Goes s s3 := .of_eq (h2.trans h1)
  have h4 : Goes s3 s4 := .ite (.of_eq ((acqSt_wr _ _ (by decide)).trans (acqSt_of_apart (State.event_apart _ _)))) (.refl s3)
  have h5 : Goes s4 s5 := .ite (goes_trigger _ _ _) (.refl s4)
  have h6 : Goes s5 ({ s5 with hdg := { s5.hdg with tail := some (s5.tailEnd tv), tailT := tv } }.orF HDG_EVT_stop 1) :=
    .of_eq ((acqSt_wr _ _ (by decide)).trans (acqSt_mk ..))
  have h7 := h3.trans (h4.trans h5)
  exact .ite h3 (.ite (h7.trans h6) h7)

theorem goes_horizon (s : State) (n t : Nat) (sres : Bool) : Goes s (s.horizon n t sres) := by
  refine Goes.trans (.of_eq (acqSt_putRule s n _)) (Goes.foldl (fun u c => ?_) _ _)
  dsimp only
  split
  · exact .ite (goes_violate _ _ _ _ _ _ _ _) (.refl u)
  · exact .refl u

theorem goes_judge (s : State) (n c t : Nat) (sres : Bool) : Goes s (s.judge n c t sres) := by
  unfold State.judge
  extract_lets r s1
  have h1 : Goes s s1 := .of_eq rfl
  split
  · exact h1
  · extract_lets o s2
    have h2 : Goes s1 s2 := .ite (.of_eq rfl) (.refl s1)
    exact .ite h1 (h1.trans (h2.trans (.ite (goes_violate _ _ _ _ _ _ _ _) (.ite (goes_violate _ _ _ _ _ _ _ _) (.refl s2)))))

theorem goes_ruleEdge (ref : Bool) (c t : Nat) (up sres : Bool) (s : State) (n : Nat) : Goes s (State.ruleEdge ref c t up sres s n) :=
  .ite (.refl s) (.ite (.ite (goes_horizon _ _ _ _) (.refl s)) (.ite (goes_judge _ _ _ _ _) (.refl s)))

theorem goes_hedgeEdge (ref : Bool) (s : State) (e : HeldE) : Goes s (State.hedgeEdge ref s e) := by
  unfold State.hedgeEdge
  extract_lets s1
  have h1 : Goes s s1 := Goes.foldl (fun u n => goes_ruleEdge _ _ _ _ _ u n) _ _
  exact .ite (.refl s) (.ite h1 (h1.trans (.of_eq (acqSt_mk ..))))

theorem goes_hedgeEdges (s : State) (es : List HeldE) : Goes s (s.hedgeEdges es) :=
  (Goes.foldl (goes_hedgeEdge true) es s).trans (Goes.foldl (goes_hedgeEdge false) es _)

/-! ### Edges, and the way up to an instant -/

theorem goes_edgesAt (s : State) (es : List HeldE) : Goes s (s.edgesAt es) :=
  (goes_hedgeEdges s _).trans
    ((Goes.foldl (fun u e => goes_apart (State.redEdge_apart u e)) _ _).trans (goes_apart (State.timHold_apart _ _)))

theorem goes_edgesTo (t fuel : Nat) (s : State) : Goes s (State.edgesTo t fuel s) := by
  induction fuel generalizing s with
  | zero => exact .refl s
  | succ n ih =>
    unfold State.edgesTo
    split
    · exact .refl s
    · exact .ite (.refl s) (Goes.trans (.of_eq (acqSt_mk ..)) ((goes_trlTo _ _).trans ((goes_edgesAt _ _).trans (ih _))))

theorem goes_seenTo (t : Nat) (s : State) : Goes s (State.seenTo t s) :=
  (goes_edgesTo _ _ _).trans ((goes_trlTo _ _).trans (goes_apart (State.redSeen_apart _ _)))

theorem goes_openTo (t : Nat) (s : State) : Goes s (State.openTo t s) := by
  unfold State.openTo
  split
  · exact .ite ((goes_edgesTo _ _ _).trans ((goes_trlTo _ _).trans (.of_eq (acqSt_of_unopen (State.openNow_unopen _))))) (.refl s)
  · exact .refl s

/-- Up to an instant only an accepted trigger moves the state of acquisition. -/
theorem goes_upTo (t : Nat) (s : State) : Goes s (State.upTo t s) :=
  Goes.trans (.of_eq (State.acqSt_advance s t))
    (.ite (.refl _) ((goes_openTo _ _).trans ((goes_seenTo _ _).trans (goes_apart (State.timKeep_apart _)))))

/-- Acquisition that runs, not yet stopping, runs on. -/
theorem Goes.running {s u : State} (h : Goes s u) (h1 : 1 ≤ s.acqSt ∧ s.acqSt ≤ 5) : 1 ≤ u.acqSt ∧ u.acqSt ≤ 5 := by
  obtain h | ⟨_, h⟩ := h
  · rwa [h]
  · rw [h]
    decide

/-- Acquisition that is idle stays so. -/
theorem Goes.idle {s u : State} (h : Goes s u) (h0 : s.acqSt = 0) : u.acqSt = 0 := by
  obtain h | ⟨h3, _⟩ := h
  · exact h.trans h0
  · exact absurd (h0.symm.trans h3) (by decide)

/-- Acquisition that runs at the end has run at the start. -/
theorem Goes.ran {s u : State} (h : Goes s u) (h1 : 1 ≤ u.acqSt ∧ u.acqSt ≤ 5) : 1 ≤ s.acqSt ∧ s.acqSt ≤ 5 := by
  obtain h | ⟨h, _⟩ := h
  · rwa [← h]
  · rw [h]
    decide

/-! ### A stop -/

/-- Only a stop of lower priority than Hedge's gives way to it. -/
theorem hedgeFirst_supply (s : State) {cause : Nat} (t : Nat) (h : cause = 5 ∨ cause = 6) : s.hedgeFirst cause t = false := by
  have hp : ¬stopPrio 2 < stopPrio cause := by
    obtain rfl | rfl := h <;> decide
  simp [State.hedgeFirst, hp]

/-- A stop by a failed ADPLL-S or by the supply, while a capture runs (R187). -/
theorem stopAt_stops {s : State} {cause t : Nat} (hc : cause = 5 ∨ cause = 6) (h : 1 ≤ s.acqSt ∧ s.acqSt ≤ 5) :
    (s.stopAt cause t).acqSt = 6 ∧ (s.stopAt cause t).rd ACQ_STAT_stop_cause = cause := by
  obtain ⟨h1, h5⟩ := (goes_upTo t s).running h
  have hi : ¬(State.upTo t s).idle = true := by
    rw [State.idle, decide_eq_true_eq]
    omega
  unfold State.stopAt
  dsimp only
  rw [if_neg hi, if_neg (by omega), hedgeFirst_supply _ _ hc, if_neg Bool.false_ne_true]
  exact enterStopping_shows _ _ _ (by omega)

theorem stopAt_idle {s : State} (cause t : Nat) (h : s.acqSt = 0) : s.stopAt cause t = s.advance t := by
  have hi : (s.advance t).idle = true := idle_of_acqSt ((State.acqSt_advance s t).trans h)
  unfold State.stopAt
  dsimp only
  rw [upTo_idle t s h, if_pos hi]

end Sys2Proof.Machine
end

