-- ==== Sys2Proof/Proofs/PowerLoss.lean ====
section
/-! PROOFS. The orderly loss of power and the dump of the black box (O56). -/

namespace Sys2Proof.Machine

/-! ### What the sequence stops before acquisition -/

/-- An abort of a gather writes its results and its status. -/
theorem State.gatherAbort_moves (s : State) (why : Nat) : ∃ F A C D, s.gatherAbort why = { s with fields := F, acq := A, clk := C, dsk := D } := by
  cases h : s.dsk.gather with
  | none => exact ⟨s.fields, s.acq, s.clk, s.dsk, by rw [State.gatherAbort, h]⟩
  | some g =>
    obtain ⟨r, e⟩ := gatherAbort_eq why h
    obtain ⟨F, hF⟩ := abortedRegs_moves g.pairs (gatherGone s)
    obtain ⟨A, hA⟩ := (abortedRegs g.pairs (gatherGone s)).event_moves r
    rw [e, hA, hF]
    exact ⟨_, _, _, _, rfl⟩

/-- Registers far from block DSK are as before. -/
theorem State.rd_gatherAbort (s : State) (why : Nat) {f : Fld} (hq : GatherQuiet f) (hk : f.key ∉ [DSK_GSTAT_busy, DSK_GSTAT_aborted].map Fld.key) :
    (s.gatherAbort why).rd f = s.rd f := by
  cases h : s.dsk.gather with
  | none => rw [State.gatherAbort, h]
  | some g =>
    obtain ⟨-, -, -, -, hf⟩ := gatherAbort_keeps why h
    exact hf f hq hk

/-- What the sequence stops before acquisition: leases, a gather, and Sieve (R398). -/
def State.seqHalts (s : State) : State :=
  ((State.rakeRequeue 2 (State.rakeRequeue 1 (State.rakeRequeue 0 s))).gatherAbort 8).sivHalt

theorem State.seqHalts_moves (s : State) : ∃ F R A C D S, s.seqHalts = { s with fields := F, rak := R, acq := A, clk := C, dsk := D, siv := S } := by
  obtain ⟨F0, R0, h0⟩ := s.rakeRequeue_moves 0
  obtain ⟨F1, R1, h1⟩ := { s with fields := F0, rak := R0 }.rakeRequeue_moves 1
  obtain ⟨F2, R2, h2⟩ := { s with fields := F1, rak := R1 }.rakeRequeue_moves 2
  obtain ⟨F, A, C, D, h⟩ := { s with fields := F2, rak := R2 }.gatherAbort_moves 8
  rw [State.seqHalts, h0, h1, h2, h]
  exact ⟨_, _, _, _, _, _, rfl⟩

/-- The registers that this writes, besides the results of a gather. -/
def haltFlds : List Fld := [RAK_STAT_lease, RAK_STAT_busy, DSK_GSTAT_busy, DSK_GSTAT_aborted, SIV_STAT_busy, SIV_STAT_running]

theorem State.rd_seqHalts (s : State) {f : Fld} (hq : GatherQuiet f) (hk : f.key ∉ haltFlds.map Fld.key) : s.seqHalts.rd f = s.rd f := by
  simp only [haltFlds, List.map_cons, List.map_nil, List.mem_cons, List.not_mem_nil, or_false, not_or] at hk
  obtain ⟨h1, h2, h3, h4, h5, h6⟩ := hk
  unfold State.seqHalts State.sivHalt State.setSiv
  rw [State.rd_wr_ne _ _ _ _ (Ne.symm h6), State.rd_wr_ne _ _ _ _ (Ne.symm h5), State.rd_mk, State.rd_gatherAbort _ _ hq (by simp [h3, h4]),
    State.rd_rakeRequeue _ _ h1 h2, State.rd_rakeRequeue _ _ h1 h2, State.rd_rakeRequeue _ _ h1 h2]

/-! ### The stop by the supply -/

/-- A gap of the supply's loss is announced and counted, and acquisition goes on to its stop (R187). -/
theorem supplyStop_stops {s : State} {t e : Nat} (h : 1 ≤ s.acqSt ∧ s.acqSt ≤ 5) :
    (State.supplyStop t e s).acqSt = 6 ∧ (State.supplyStop t e s).rd ACQ_STAT_stop_cause = 5 := by
  obtain ⟨h1, h5⟩ := (goes_upTo t s).running h
  have hi : ¬((State.upTo t s).idle = true ∨ (State.upTo t s).acqSt = 6) := by
    rw [State.idle, decide_eq_true_eq]
    omega
  unfold State.supplyStop
  dsimp only
  rw [if_neg hi]
  refine stopAt_stops (.inl rfl) ?_
  split
  · rw [acqSt_of_apart (State.gapDone_apart _ _), acqSt_of_apart (State.event_apart _ _), acqSt_mk, acqSt_of_apart (State.markSupply_apart _ _ _)]
    exact ⟨h1, h5⟩
  · rw [acqSt_of_apart (State.markSupply_apart _ _ _)]
    exact ⟨h1, h5⟩

theorem supplyStop_idle {s : State} (t e : Nat) (h : s.acqSt = 0) : (State.supplyStop t e s).acqSt = 0 := by
  have hu : (State.upTo t s).acqSt = 0 := (goes_upTo t s).idle h
  unfold State.supplyStop
  dsimp only
  rw [if_pos (.inl (idle_of_acqSt hu)), stopAt_idle _ _ hu, State.acqSt_advance, hu]

/-! ### The start of the sequence -/

/-- The sequence has begun, and its entry stands in the black box (R398). -/
def State.seqBegun (s : State) (cause t : Nat) : State :=
  (({ s with pwr := { s.pwr with seqAt := some t, cause := cause } }).wr PWR_STAT_loss_seq 1).bbox 0x13 cause 0

theorem seqStart_eq {s : State} (cause t : Nat) (hr : s.hks.rails = true) (hq : s.pwr.seqAt = none) :
    s.seqStart cause t = { State.supplyStop t (t + 500 * usF) (s.seqBegun cause t).seqHalts with
      trl := { (State.supplyStop t (t + 500 * usF) (s.seqBegun cause t).seqHalts).trl with out := [] } } := by
  have hgo : ¬((!s.hks.rails) = true ∨ s.pwr.seqAt.isSome = true) := by simp [hr, hq]
  rw [State.seqStart, if_neg hgo]
  rfl

theorem acqSt_seqBegun (s : State) (cause t : Nat) : (s.seqBegun cause t).seqHalts.acqSt = s.acqSt := by
  refine (State.rd_seqHalts _ (gatherQuiet_of (by decide)) (by decide)).trans ?_
  rw [State.seqBegun, State.rd_bbox _ _ _ _ (by decide), State.rd_wr_ne _ _ _ _ (by decide), State.rd_mk]
  rfl

/-- The sequence has started: the supply's state and its flag say so, no pulse goes on, and acquisition stops (R187, R398). -/
theorem seqStart_shows {s : State} (cause t : Nat) (hr : s.hks.rails = true) (hq : s.pwr.seqAt = none) {u : State} (hu : u = s.seqStart cause t) :
    u.pwr.seqAt = some t ∧ u.pwr.cause = cause ∧ u.rd PWR_STAT_loss_seq = 1 ∧ u.trl.out = []
      ∧ (1 ≤ s.acqSt ∧ s.acqSt ≤ 5 → u.acqSt = 6 ∧ u.rd ACQ_STAT_stop_cause = 5) ∧ (s.acqSt = 0 → u.acqSt = 0) := by
  have hf := State.supplyStop_unhdg t (t + 500 * usF) (s.seqBegun cause t).seqHalts
  have ha := acqSt_seqBegun s cause t
  have hflag : (s.seqBegun cause t).seqHalts.rd PWR_STAT_loss_seq = 1 := by
    rw [State.rd_seqHalts _ (gatherQuiet_of (by decide)) (by decide), State.seqBegun, State.rd_bbox _ _ _ _ (by decide), State.rd_wr_same]
    rfl
  have hpwr : (s.seqBegun cause t).seqHalts.pwr = { s.pwr with seqAt := some t, cause := cause } := by
    obtain ⟨_, _, _, _, _, _, h⟩ := (s.seqBegun cause t).seqHalts_moves
    rw [h]
    exact State.bbox_pwr _ _ _ _
  rw [seqStart_eq cause t hr hq] at hu
  generalize (s.seqBegun cause t).seqHalts = w at *
  have hp : (State.supplyStop t (t + 500 * usF) w).pwr = { s.pwr with seqAt := some t, cause := cause } :=
    (congrArg Apart.pwr hf).trans ((w.advance_pwr t).trans hpwr)
  subst hu
  refine ⟨congrArg Pwr.seqAt hp, congrArg Pwr.cause hp, ?_, rfl, fun h => ?_, fun h => ?_⟩
  · exact (rd_of_unhdg hf (by decide) (by decide) (by decide) (by decide) (by decide)).trans ((State.rd_advance _ _ _).trans hflag)
  · exact supplyStop_stops (by rw [ha]; exact h)
  · exact supplyStop_idle _ _ (by rw [ha]; exact h)

theorem feedBack_advance (s : State) (t l : Nat) : (s.advance t).feedBack l = s.feedBack l := by
  unfold State.feedBack State.feedOk State.feed State.feedSince
  simp only [State.rd_advance, State.advance_pwr]

theorem feedsLost_eq {s : State} {l : Nat} (t : Nat) (hl : s.pwr.lostAt = some l) : State.feedsLost t s =
    if l + 1500 * usF ≤ t + usF ∧ s.feedBack l = false then (s.advance t).seqStart 1 t else s.advance t := by
  unfold State.feedsLost
  dsimp only
  rw [State.advance_pwr, hl]
  dsimp only
  rw [feedBack_advance]

/-! ### Harvest cut off -/

/-- The buffer in hand of ring `n` is completed, unless its completion waits already (R398). -/
def State.ringCutoff (s : State) (n : Nat) : State :=
  let r := s.ring n
  if r.q.isEmpty || r.ready.isSome then s else
  let (st, info) := r.okStatus
  State.finish n st (if s.allGiven n then 6 else 2) info (s.setRing n { r with q := r.q.take 1 })

theorem hrvCutoff_eq (s : State) : s.hrvCutoff = (List.range 16).foldl State.ringCutoff s := rfl

/-- Ring `n` has no buffer in hand that is not complete. -/
def CutOff (s : State) (n : Nat) : Prop := (s.ring n).ready ≠ none ∨ (s.ring n).q = []

theorem ringCutoff_shows (s : State) (n : Fin 16) : CutOff (s.ringCutoff n.val) n.val ∧ (∀ k, k ≠ n.val → (s.ringCutoff n.val).ring k = s.ring k)
    ∧ ∃ F H M Q, s.ringCutoff n.val = { s with fields := F, hrv := H, msix := M, msxPba := Q } := by
  have hstay : CutOff s n.val → CutOff s n.val ∧ (∀ k, k ≠ n.val → s.ring k = s.ring k)
      ∧ ∃ F H M Q, s = { s with fields := F, hrv := H, msix := M, msxPba := Q } := fun h => ⟨h, fun _ _ => rfl, _, _, _, _, rfl⟩
  unfold State.ringCutoff
  dsimp only
  split
  · next h =>
    refine hstay ?_
    rw [Bool.or_eq_true, List.isEmpty_iff, Option.isSome_iff_ne_none] at h
    exact h.symm
  · next h =>
    rw [Bool.or_eq_true, not_or, List.isEmpty_iff] at h
    obtain ⟨d, q, hq⟩ := List.exists_cons_of_ne_nil h.1
    generalize (s.ring n.val).okStatus.1 = st
    generalize (s.ring n.val).okStatus.2 = info
    generalize (if s.allGiven n.val then 6 else 2) = cf
    have hw : ∀ k, k ≠ n.val → (s.setRing n.val { s.ring n.val with q := (s.ring n.val).q.take 1 }).ring k = s.ring k :=
      fun k hk => State.ring_setRing_ne _ _ hk
    have hn : ((s.setRing n.val { s.ring n.val with q := (s.ring n.val).q.take 1 }).ring n.val).q = d :: [] := by
      rw [State.ring_setRing_same, hq]
      rfl
    have hm : ∃ H, s.setRing n.val { s.ring n.val with q := (s.ring n.val).q.take 1 } = { s with hrv := H } := ⟨_, rfl⟩
    generalize s.setRing n.val { s.ring n.val with q := (s.ring n.val).q.take 1 } = w at *
    obtain ⟨H, rfl⟩ := hm
    rw [finish_eq hn]
    split
    · refine ⟨.inl ?_, fun k hk => (State.ring_setRing_ne _ _ hk).trans (hw k hk), s.fields, _, s.msix, s.msxPba, rfl⟩
      rw [State.ring_setRing_same]
      exact Option.some_ne_none _
    · obtain ⟨-, h2, h3, -, -, F, H', M, Q, h6⟩ := cqWrite_shows (c := (st, cf + 8 * b2n (State.ring { s with hrv := H } n.val).strm, info)) hn rfl
      refine ⟨.inr ?_, fun k hk => (h3 k hk).trans (hw k hk), F, H', M, Q, h6⟩
      rw [h2]
      rfl

/-- One pass over the rings leaves none with a buffer that is not complete. -/
theorem ringsCutoff_shows (l : List (Fin 16)) (s : State) : (∀ n : Fin 16, n ∈ l ∨ CutOff s n.val → CutOff ((l.map Fin.val).foldl State.ringCutoff s) n.val)
    ∧ ∃ F H M Q, (l.map Fin.val).foldl State.ringCutoff s = { s with fields := F, hrv := H, msix := M, msxPba := Q } := by
  induction l generalizing s with
  | nil => exact ⟨fun n h => h.resolve_left List.not_mem_nil, _, _, _, _, rfl⟩
  | cons a r ih =>
    obtain ⟨h1, h2, F, H, M, Q, e⟩ := ringCutoff_shows s a
    obtain ⟨g1, F', H', M', Q', e'⟩ := ih (s.ringCutoff a.val)
    rw [List.map_cons, List.foldl_cons]
    refine ⟨fun n hn => g1 n ?_, F', H', M', Q', by rw [e', e]⟩
    by_cases hna : n = a
    · exact .inr (hna ▸ h1)
    · refine hn.imp (fun h => (List.mem_cons.1 h).resolve_left hna) fun h => ?_
      rw [CutOff, h2 n.val fun x => hna (Fin.ext x)]
      exact h

theorem hrvCutoff_shows (s : State) : (∀ n, n < 16 → CutOff s.hrvCutoff n) ∧ ∃ F H M Q, s.hrvCutoff = { s with fields := F, hrv := H, msix := M, msxPba := Q } := by
  obtain ⟨h1, h2⟩ := ringsCutoff_shows (List.finRange 16) s
  exact ⟨fun n hn => h1 ⟨n, hn⟩ (.inl (List.mem_finRange _)), h2⟩

/-! ### The entry of the dump, and what is left at the cut-off -/

/-- What Harvest leaves at the cut-off: in M0 all as it is. -/
def State.cutBefore (s : State) : State := if s.mode = 0 then s else s.deliverOut.hrvCutoff

/-- The machine at the cut-off (R398, R417). -/
def State.cutDone (s : State) : State :=
  { s.cutBefore.dumpEntry.bbxFreeze 3 with pwr := { (s.cutBefore.dumpEntry.bbxFreeze 3).pwr with cut := true } }

theorem cutoff_eq {s : State} {q : Nat} (t : Nat) (hq : s.pwr.seqAt = some q) : State.cutoff t s =
    if s.pwr.cut = true ∨ t < q + 450 * usF then s.advance t else (s.advance t).cutDone := by
  unfold State.cutoff
  dsimp only
  rw [State.advance_pwr, hq]
  rfl

theorem cutBefore_moves (s : State) : ∃ F H N D P A M Q, s.cutBefore =
    { s with fields := F, hrv := H, free := N, deep := D, dpoison := P, acq := A, msix := M, msxPba := Q } := by
  unfold State.cutBefore
  split
  · exact ⟨s.fields, s.hrv, s.free, s.deep, s.dpoison, s.acq, s.msix, s.msxPba, rfl⟩
  · obtain ⟨⟨F, R, L, pre, N, D, P, Q, e⟩, -, -⟩ := serves_deliverOut s
    obtain ⟨-, F', H', M', Q', e'⟩ := hrvCutoff_shows s.deliverOut
    rw [e', e]
    exact ⟨_, _, _, _, _, _, _, _, rfl⟩

theorem dumpEntry_shows (s : State) : ∃ F e, e.code = 0xFF ∧ (s.mode = 0 → e.kt % nsF = 0)
    ∧ s.dumpEntry = { s with fields := F, bbx := { s.bbx with live := (e :: s.bbx.live).take 4096 } } := by
  refine ⟨_, _, ?_, ?_, rfl⟩
  · rfl
  · intro h
    dsimp only
    rw [if_pos (by rw [h]; rfl)]
    show s.tmb.kt / 2048 * 2048 % 2 ^ 72 % 2048 = 0
    omega

theorem cutDone_shows {s u : State} (hu : u = s.cutDone) : u.pwr = { s.pwr with cut := true } ∧ u.rd BBX_STAT_frozen = 1
    ∧ (∃ e, u.bbx.live.head? = some e ∧ e.code = 0xFF ∧ (s.mode = 0 → e.kt % nsF = 0)) ∧ (s.mode = 0 → u.hrv = s.hrv)
    ∧ (s.mode ≠ 0 → ∀ n, n < 16 → CutOff u n) ∧ u.tmb = s.tmb := by
  obtain ⟨F, H, N, D, P, A, M, Q, e1⟩ := cutBefore_moves s
  have hmode : s.mode = 0 → s.cutBefore = s := fun h => if_pos h
  have hrings : s.mode ≠ 0 → ∀ n, n < 16 → CutOff s.cutBefore n := fun h n hn => by
    rw [State.cutBefore, if_neg h]
    exact (hrvCutoff_shows _).1 n hn
  rw [State.cutDone] at hu
  generalize s.cutBefore = w at *
  obtain ⟨F2, e, hc, hk, e2⟩ := dumpEntry_shows w
  obtain ⟨F3, e3⟩ := bbxFreeze_moves w.dumpEntry 3
  have hz := (rd_bbxFreeze_frozen w.dumpEntry 3).1
  have hform : w.dumpEntry.bbxFreeze 3 = { w with fields := F3, bbx := { w.bbx with live := (e :: w.bbx.live).take 4096 } } := by rw [e3, e2]
  subst hu
  refine ⟨?_, hz, ⟨e, ?_, hc, fun h => hk (by rw [hmode h]; exact h)⟩, fun h => ?_, fun h n hn => ?_, ?_⟩
  · rw [hform, e1]
  · rw [hform]
    rfl
  · rw [hform, hmode h]
  · have hr := hrings h n hn
    rw [CutOff] at hr ⊢
    rw [hform]
    exact hr
  · rw [hform, e1]

/-! ### The rails go off -/

theorem pllsOff_moves (s : State) : ∃ F C T, s.pllsOff = { s with fields := F, clk := C, trl := T } := by
  have h1 : ∀ (u : State) (x : Nat), ∃ F C T, (u.pllUnsus x u.tmb.kt).pllTo x 0 = { u with fields := F, clk := C, trl := T } := fun u x => by
    obtain ⟨F, C, T, e⟩ := (u.pllUnsus x u.tmb.kt).pllTo_moves x 0
    exact ⟨F, C, T, by rw [e]; rfl⟩
  have h2 : ∀ (l : List Nat) (u : State), ∃ F C T, l.foldl (fun (s : State) x => (s.pllUnsus x s.tmb.kt).pllTo x 0) u = { u with fields := F, clk := C, trl := T } := by
    intro l
    induction l with
    | nil => exact fun u => ⟨u.fields, u.clk, u.trl, rfl⟩
    | cons a r ih =>
      intro u
      obtain ⟨F, C, T, e⟩ := h1 u a
      obtain ⟨F', C', T', e'⟩ := ih ((u.pllUnsus a u.tmb.kt).pllTo a 0)
      exact ⟨F', C', T', by rw [List.foldl_cons, e', e]⟩
  obtain ⟨F, C, T, e⟩ := h2 (List.range 3) s
  unfold State.pllsOff
  rw [e]
  exact ⟨_, C, T, rfl⟩

/-- Operations on the configuration memory that the loss breaks off; with none under way it stays as it is (R374). -/
theorem nvBroken_moves (s : State) : ∃ F N M H B, s.nvAbort.bbxPrepAbort = { s with fields := F, free := N, nv := M, hks := H, bbx := B }
    ∧ B.live = s.bbx.live ∧ (s.hks.nvOp = none → s.bbx.prep = false → M = s.nv) := by
  have h1 : ∃ F N M H, s.nvAbort = { s with fields := F, free := N, nv := M, hks := H } ∧ (s.hks.nvOp = none → M = s.nv) := by
    unfold State.nvAbort
    split
    · next op a k h =>
      obtain ⟨m, n, e⟩ : ∃ m n, (if op = 1 then s else State.nvSpoil (nvRange op a).1 (nvRange op a).2 s) = { s with nv := m, free := n } := by
        split
        · exact ⟨s.nv, s.free, rfl⟩
        · exact nvSpoil_moves _ _ s
      dsimp only
      rw [e]
      exact ⟨_, _, _, _, rfl, fun x => absurd (h.symm.trans x) (by simp)⟩
    · exact ⟨s.fields, s.free, s.nv, s.hks, rfl, fun _ => rfl⟩
  obtain ⟨F, N, M, H, e, hM⟩ := h1
  rw [e]
  unfold State.bbxPrepAbort
  split
  · exact ⟨F, N, M, H, s.bbx, rfl, rfl, fun h _ => hM h⟩
  · next hp =>
    exact ⟨_, _, _, H, { s.bbx with prep := false }, rfl, rfl, fun _ h => absurd h (by simpa using hp)⟩

/-- The machine with its rails off (R398). -/
def State.railsGone (s : State) (t : Nat) : State :=
  let s1 := s.nvAbort.bbxPrepAbort.pllsOff
  let s3 := s1.coldClear.wr PWR_STAT_loss_seq 0
  let h : Hks := { Hks.new with sel := s1.hks.sel, sigN := s1.hks.sigN, bbxOfs := s1.hks.bbxOfs, keyW := s1.hks.keyW, nvSize := s1.hks.nvSize }
  { s3 with hks := h, grid := { s3.grid with run := false }, bbx := { s3.bbx with dumping := true },
            clk := { s3.clk with hopRun := none, extSuspect := none, dllSuspect := [], extWait := false,
                                   qualAt := if s3.on CLK_STAT_s_src_act then some t else none },
            pwr := { s3.pwr with offAt := some t, cut := false } }

theorem railsOff_eq {s : State} {q : Nat} (t : Nat) (hr : s.hks.rails = true) (hq : s.pwr.seqAt = some q) : State.railsOff t s =
    if t < q + 500 * usF then s.advance t else (s.advance t).railsGone t := by
  have hrv : (s.advance t).hks.rails = true := by rw [State.advance_hks, hr]
  unfold State.railsOff
  dsimp only
  rw [State.advance_pwr, hq]
  dsimp only
  rw [hrv]
  by_cases h : t < q + 500 * usF
  · rw [if_pos h, if_pos (by simp [h])]
  · rw [if_neg h, if_neg (by simp [h])]
    rfl

theorem railsGone_shows {s u : State} {t : Nat} (hu : u = s.railsGone t) :
    u.hks.rails = false ∧ u.hks.step = 0 ∧ u.rd PWR_STAT_loss_seq = 0 ∧ u.bbx.dumping = true ∧ u.pwr.offAt = some t ∧ u.grid.run = false
      ∧ u.jtg = ⟨1, 0, 0, 1⟩ ∧ u.acqSt = 0 ∧ u.bbx.live = s.bbx.live ∧ u.tmb = s.tmb
      ∧ (∀ f : Fld, domOfKey f.key ≠ .aon → f.key ≠ PWR_STAT_loss_seq.key → u.rd f = f.rst)
      ∧ (s.hks.nvOp = none → s.bbx.prep = false → u.nv = s.nv) := by
  obtain ⟨F, N, M, H, B, e1, hB, hM⟩ := nvBroken_moves s
  obtain ⟨F', C, T, e2⟩ := pllsOff_moves s.nvAbort.bbxPrepAbort
  have hrd : ∀ f : Fld, u.rd f = (s.nvAbort.bbxPrepAbort.pllsOff.coldClear.wr PWR_STAT_loss_seq 0).rd f := fun f => by
    rw [hu]
    exact State.rd_mk ..
  have hall : ∀ f : Fld, domOfKey f.key ≠ .aon → f.key ≠ PWR_STAT_loss_seq.key → u.rd f = f.rst := fun f h1 h2 => by
    rw [hrd, State.rd_wr_ne _ _ _ _ (Ne.symm h2), rd_coldClear _ h1]
  have hflag : u.rd PWR_STAT_loss_seq = 0 := by
    rw [hrd, State.rd_wr_same]
    rfl
  have hacq : u.acqSt = 0 := hall ACQ_STAT_state (by decide) (by decide)
  rw [State.railsGone, e2, e1] at hu
  subst hu
  exact ⟨rfl, rfl, hflag, rfl, rfl, rfl, rfl, hacq, hB, rfl, hall, hM⟩

/-! ### The end of the dump -/

/-- A dump that has taken `v` microseconds is over. -/
def State.dumpTimed (s : State) (v : Nat) : State := (({ s with bbx := { s.bbx with dumping := false } }).wr BBX_DUMP_time v).orF BBX_EVT_bits 2

/-- The result of the dump, and what it leaves in its region (R417). -/
def State.dumpResult (ok : Bool) (s : State) : State :=
  match s.hks.bbxOfs with
  | none => s.wr BBX_DUMP_result 2
  | some a =>
    if s.rd BBX_STAT_nv_state ≠ 1 then s.wr BBX_DUMP_result 2
    else if ok then ((State.nvPut a (bankBytes s.bbx.live 4096) s).wr BBX_DUMP_result 1).wr BBX_STAT_nv_state 2
    else ((State.nvSpoil a 65536 s).wr BBX_DUMP_result 3).wr BBX_STAT_nv_state 3

theorem dumpEnd_idle {s : State} (ok : Bool) (t : Nat) (h : s.bbx.dumping = false) : State.dumpEnd ok t s = s.advance t := by
  have hb : (s.advance t).bbx.dumping = false := by
    obtain ⟨b, hb, -⟩ := s.advance_moves t
    rw [hb]
    exact h
  unfold State.dumpEnd
  dsimp only
  rw [hb]
  rfl

theorem dumpEnd_eq {s : State} (ok : Bool) (t : Nat) (h : s.bbx.dumping = true) : ∃ b v n, b.kt = max s.tmb.kt t
    ∧ (∀ l, s.pwr.cause = 1 → s.pwr.lostAt = some l → v = (t - l) / usF)
    ∧ State.dumpEnd ok t s = State.dumpResult ok (State.dumpTimed { s with tmb := b, free := n } v) := by
  obtain ⟨b, hb, hk⟩ := s.advance_moves t
  unfold State.dumpEnd
  rw [hb]
  dsimp only
  rw [h]
  by_cases hc : s.pwr.cause = 1
  · cases hl : s.pwr.lostAt with
    | none =>
      refine ⟨b, Config.freeValue 0, s.free, hk, fun l _ x => absurd x (by simp), ?_⟩
      simp only [hc, hl, if_true]
      rfl
    | some l =>
      refine ⟨b, (t - l) / usF, s.free, hk, fun l' _ x => by rw [Option.some.inj x], ?_⟩
      simp only [hc, hl, if_true]
      rfl
  · refine ⟨b, Config.freeValue s.free, s.free + 1, hk, fun l x => absurd x hc, ?_⟩
    cases hl : s.pwr.lostAt with
    | none =>
      simp only [State.draw, hc, hl, if_false]
      rfl
    | some l =>
      simp only [State.draw, hc, hl, if_false]
      rfl

/-- The bank takes the whole region (R417). -/
theorem bankBytes_length {l : List BEntry} (h : l.length ≤ 4096) : (bankBytes l 4096).length = 65536 := by
  have hb : ∀ e : BEntry, e.bytes.length = 16 := fun e => by
    simp only [BEntry.bytes, List.length_append, le_length]
  have hf : ∀ m : List BEntry, (m.flatMap BEntry.bytes).length = 16 * m.length := fun m => by
    induction m with
    | nil => rfl
    | cons a r ih =>
      rw [List.flatMap_cons, List.length_append, hb, ih, List.length_cons]
      omega
  unfold bankBytes
  dsimp only
  rw [List.take_of_length_le h, List.length_append, List.length_replicate, hf, List.length_reverse]
  omega


theorem dumpTimed_shows (s : State) (v : Nat) : (s.dumpTimed v).bbx = { s.bbx with dumping := false } ∧ (s.dumpTimed v).hks = s.hks
    ∧ (s.dumpTimed v).nv = s.nv ∧ (s.dumpTimed v).tmb = s.tmb ∧ (s.dumpTimed v).rd BBX_DUMP_time = v % 2 ^ 24 ∧ bit ((s.dumpTimed v).rd BBX_EVT_bits) 1 = true
    ∧ (s.dumpTimed v).rd BBX_STAT_nv_state = s.rd BBX_STAT_nv_state := by
  refine ⟨rfl, rfl, rfl, rfl, ?_, bit_rd_orF _ BBX_EVT_bits 1 (by decide), ?_⟩
  · exact (State.rd_wr_ne _ _ _ _ (by decide)).trans (State.rd_wr_same _ _ _)
  · exact (State.rd_wr_ne _ _ _ _ (by decide)).trans ((State.rd_wr_ne _ _ _ _ (by decide)).trans (State.rd_mk ..))

/-- The registers that the result writes. -/
def dumpFlds : List Fld := [BBX_DUMP_result, BBX_STAT_nv_state]

/-- With no region, or one that is not prepared, nothing is stored. -/
theorem dumpResult_none {s : State} (ok : Bool) (h : s.hks.bbxOfs = none ∨ s.rd BBX_STAT_nv_state ≠ 1) : State.dumpResult ok s = s.wr BBX_DUMP_result 2 := by
  unfold State.dumpResult
  split
  · rfl
  · next a ha => rw [if_pos (h.resolve_left (by rw [ha]; exact Option.some_ne_none a))]

theorem dumpResult_some {s : State} {a : Nat} (ok : Bool) (ha : s.hks.bbxOfs = some a) (h : s.rd BBX_STAT_nv_state = 1) : State.dumpResult ok s =
    if ok then ((State.nvPut a (bankBytes s.bbx.live 4096) s).wr BBX_DUMP_result 1).wr BBX_STAT_nv_state 2
    else ((State.nvSpoil a 65536 s).wr BBX_DUMP_result 3).wr BBX_STAT_nv_state 3 := by
  unfold State.dumpResult
  rw [ha]
  dsimp only
  rw [if_neg (by simp [h])]

/-- Whatever the result, it is only stored. -/
theorem dumpResult_moves (ok : Bool) (s : State) : (∃ F N M, State.dumpResult ok s = { s with fields := F, free := N, nv := M })
    ∧ SameRegs s (State.dumpResult ok s) dumpFlds := by
  have hr : ∀ (w : State) (x y : Nat), w.fields = s.fields → SameRegs s ((w.wr BBX_DUMP_result x).wr BBX_STAT_nv_state y) dumpFlds := fun w x y hw f hf => by
    simp only [dumpFlds, List.map_cons, List.map_nil, List.mem_cons, List.not_mem_nil, or_false, not_or] at hf
    rw [State.rd_wr_ne _ _ _ _ (Ne.symm hf.2), State.rd_wr_ne _ _ _ _ (Ne.symm hf.1), State.rd, State.rd, hw]
  by_cases h : s.hks.bbxOfs = none ∨ s.rd BBX_STAT_nv_state ≠ 1
  · rw [dumpResult_none ok h]
    exact ⟨⟨_, s.free, s.nv, rfl⟩, fun f hf => State.rd_wr_ne _ _ _ _ fun e => hf (by rw [← e]; decide)⟩
  · rw [not_or, not_not] at h
    obtain ⟨a, ha⟩ := Option.ne_none_iff_exists'.1 h.1
    rw [dumpResult_some ok ha h.2]
    split
    · exact ⟨⟨_, s.free, _, rfl⟩, hr _ _ _ rfl⟩
    · exact ⟨⟨_, _, _, rfl⟩, hr _ _ _ rfl⟩

end Sys2Proof.Machine

namespace Sys2Proof

open Machine

theorem dumpEnd_answers {s : State} {ok : Bool} {t : Nat} (hd : s.pwr.dead = false) (h : s.bbx.dumping = true) : Answers (.dumpEnd ok t) s fun u =>
    u.bbx = { s.bbx with dumping := false } ∧ bit (u.rd BBX_EVT_bits) 1 = true ∧ TimeAt s u t
      ∧ (∀ l, s.pwr.cause = 1 → s.pwr.lostAt = some l → u.rd BBX_DUMP_time = (t - l) / usF % 2 ^ 24)
      ∧ (s.hks.bbxOfs = none ∨ s.rd BBX_STAT_nv_state ≠ 1 → u.rd BBX_DUMP_result = 2 ∧ u.nv = s.nv)
      ∧ (∀ a, s.hks.bbxOfs = some a → s.rd BBX_STAT_nv_state = 1 →
          (ok = true → u.rd BBX_DUMP_result = 1 ∧ u.rd BBX_STAT_nv_state = 2
            ∧ (s.bbx.live.length ≤ 4096 → s.hks.nvSize = 0 ∨ a + 65536 ≤ s.hks.nvSize → ∀ i, i < 65536 →
                u.nv.read (a + i) = (bankBytes s.bbx.live 4096).getD i 0))
          ∧ (ok = false → u.rd BBX_DUMP_result = 3 ∧ u.rd BBX_STAT_nv_state = 3)
          ∧ (s.bbx.live.length ≤ 4096 → ∀ x, x < a ∨ a + 65536 ≤ x → u.nv.read x = s.nv.read x)) := by
  refine Answers.of_performAt (exec_dumpEnd _ _ _) hd ?_
  obtain ⟨b, v, n, hb, hv, e⟩ := dumpEnd_eq ok t h
  obtain ⟨w1, w2, w3, w4, w5, w6, w7⟩ := dumpTimed_shows { s with tmb := b, free := n } v
  rw [State.rd_mk] at w7
  rw [e]
  generalize State.dumpTimed { s with tmb := b, free := n } v = w at *
  obtain ⟨⟨F, N, M, hm⟩, hr⟩ := dumpResult_moves ok w
  refine ⟨?_, ?_, ?_, fun l hc hl => ?_, fun hn => ?_, fun a ha hn => ⟨fun ho => ?_, fun ho => ?_, fun hlen x hx => ?_⟩⟩
  · rw [hm]
    exact w1
  · rw [hr _ (by decide)]
    exact w6
  · rw [TimeAt, hm]
    exact (congrArg Tmb.kt w4).trans hb
  · rw [hr _ (by decide), w5, hv l hc hl]
  · rw [dumpResult_none ok (hn.imp (fun x => by rw [w2]; exact x) fun x => by rw [w7]; exact x), State.rd_wr_same]
    exact ⟨rfl, w3⟩
  · rw [dumpResult_some ok (by rw [w2]; exact ha) (w7.trans hn), if_pos ho, State.rd_wr_ne _ _ _ _ (by decide), State.rd_wr_same, State.rd_wr_same]
    refine ⟨rfl, rfl, fun hlen hs i hi => ?_⟩
    have hl := bankBytes_length (l := w.bbx.live) (by rw [w1]; exact hlen)
    refine (State.read_nvPut a _ w (a + i)).trans ?_
    rw [hl, w2, if_pos ⟨by omega, by omega, hs.imp_right fun x => show a + i < s.hks.nvSize by omega⟩, w1, Nat.add_sub_cancel_left]
  · rw [dumpResult_some ok (by rw [w2]; exact ha) (w7.trans hn), if_neg (by rw [ho]; exact Bool.false_ne_true), State.rd_wr_ne _ _ _ _ (by decide), State.rd_wr_same,
      State.rd_wr_same]
    exact ⟨rfl, rfl⟩
  · have hl := bankBytes_length (l := w.bbx.live) (by rw [w1]; exact hlen)
    rw [dumpResult_some ok (by rw [w2]; exact ha) (w7.trans hn)]
    split
    · exact (State.read_nvPut_out _ w (by rw [hl]; exact hx)).trans (by rw [w3])
    · exact (State.read_nvSpoil_out w hx).trans (by rw [w3])

/-- Settles O56: the sequence starts and stops acquisition, Harvest is cut off at 450 µs, the rails go off at 500 µs, and the dump ends. -/
theorem powerLoss : Obligations.PowerLoss := by
  unfold Obligations.PowerLoss
  refine fun s t => ⟨fun l hp hl => ⟨fun h1 h2 h3 => ?_, fun h => ?_⟩, fun q hp hq => ⟨fun h1 h2 => ?_, fun h => ?_, fun h => ?_, fun h => ?_⟩,
    fun ok hd => ⟨fun h => dumpEnd_answers hd h, fun h => ?_⟩⟩
  · refine .of_performOnAt (exec_orderlyLossSequence _ _) hp ?_
    rw [feedsLost_eq t hl, if_pos ⟨h1, h2⟩]
    obtain ⟨g1, g2, g3, g4, g5, g6⟩ := seqStart_shows 1 t (by rw [State.advance_hks]; exact hp.2) (by rw [State.advance_pwr]; exact h3) (u := (s.advance t).seqStart 1 t) rfl
    rw [State.acqSt_advance] at g5 g6
    exact ⟨g1, g2, g3, g4, fun a1 a5 => g5 ((goes_upTo t s).ran ⟨a1, a5⟩), g6⟩
  · refine .of_performOnAt (exec_orderlyLossSequence _ _) hp ?_
    have hstay : State.feedsLost t s = s.advance t := by
      rw [feedsLost_eq t hl]
      split
      · next hc =>
        obtain ⟨c1, c2⟩ := hc
        obtain h | h | h := h
        · omega
        · exact absurd (c2.symm.trans h) (by decide)
        · rw [State.seqStart, if_pos (.inr (by rw [State.advance_pwr, Option.isSome_iff_ne_none]; exact h))]
      · rfl
    rw [hstay]
    exact unchanged_advance s t
  · refine .of_performOnAt (exec_harvestCutoff _ _) hp ?_
    rw [cutoff_eq t hq, if_neg (by rw [not_or, h1]; exact ⟨Bool.false_ne_true, by omega⟩)]
    obtain ⟨b, hb, hk⟩ := s.advance_moves t
    obtain ⟨g1, g2, g3, g4, g5, g6⟩ := cutDone_shows (s := s.advance t) rfl
    generalize (s.advance t).cutDone = u at *
    have hm : (s.advance t).mode = s.mode := State.rd_advance _ _ _
    rw [hm] at g3 g4 g5
    refine ⟨by rw [g1, State.advance_pwr], g2, g3, fun h => (g4 h).trans (by rw [hb]), fun h n hn _ => g5 h n hn, ?_⟩
    rw [TimeAt, g6, hb]
    exact hk
  · refine .of_performOnAt (exec_harvestCutoff _ _) hp ?_
    rw [cutoff_eq t hq, if_pos h]
    exact unchanged_advance s t
  · refine .of_performOnAt (exec_railsOff _ _) hp ?_
    rw [railsOff_eq t hp.2 hq, if_neg (by omega)]
    obtain ⟨b, hb, hk⟩ := s.advance_moves t
    obtain ⟨g1, g2, g3, g4, g5, g6, g7, g8, g9, g10, g11, g12⟩ := railsGone_shows (s := s.advance t) (t := t) rfl
    generalize (s.advance t).railsGone t = u at *
    rw [hb] at g9 g10 g12
    exact ⟨g1, g2, g3, g4, g5, g6, g7, g8, g9, by rw [TimeAt, g10]; exact hk, g11, g12⟩
  · refine .of_performOnAt (exec_railsOff _ _) hp ?_
    rw [railsOff_eq t hp.2 hq, if_pos h]
    exact unchanged_advance s t
  · refine .of_performAt (exec_dumpEnd _ _ _) hd ?_
    rw [dumpEnd_idle ok t h]
    exact unchanged_advance s t

end Sys2Proof
end

