-- ==== Sys2Proof/Proofs/AdpllStates.lean ====
section
/-! PROOFS. The states of an ADPLL on its way to an open gate (O24). -/

namespace Sys2Proof.Machine

/-! ### A move from one state to another -/

theorem pll_pllTo (s : State) (x k : Nat) : (s.pllTo x k).pll x = { s.pll x with since := s.tmb.kt } := by
  unfold State.pllTo
  dsimp only
  split
  · exact pll_putPll _ x _
  · exact pll_putPll _ x _

/-- What a move to a state behind a shut gate shows. -/
theorem moved_shows {s w u : State} {x k : Nat} {l : List Fld} (hw : ClkStep s w l) (hk : k = 1 ∨ k = 2 ∨ k = 3) (hu : u = w.pllTo x k) :
    u.rd (CLK_x_STAT_state x) = k ∧ u.rd (CLK_x_STAT_gated x) = 1 ∧ u.pll x = { w.pll x with since := w.tmb.kt }
      ∧ ClkStep s u (CLK_x_STAT_state x :: CLK_x_STAT_gated x :: l) := by
  subst hu
  refine ⟨?_, ?_, pll_pllTo w x k, (hw.mono ?_).trans ((pllTo_step w x k).mono ?_)⟩
  · rw [pllTo_state]
    omega
  · rw [pllTo_gated]
    obtain rfl | rfl | rfl := hk <;> rfl
  · exact fun a h => List.mem_cons_of_mem _ (List.mem_cons_of_mem _ h)
  · simp

/-- Registers that such a move does not write. -/
theorem rd_moved {w : State} {x k : Nat} {f : Fld} (h1 : f.key ≠ (CLK_x_STAT_state x).key) (h2 : f.key ≠ (CLK_x_STAT_gated x).key) :
    (w.pllTo x k).rd f = w.rd f := (pllTo_step w x k).regs f (by simp [h1, h2])

/-! ### An entry of the band table -/

/-- The place of an entry is one of the 16. -/
theorem btPlace_lt {s : State} {x f i : Nat} (h : s.btPlace x f = some i) : i < 16 := by
  have hr : ∀ (p : Nat → Bool) (j : Nat), (List.range 16).find? p = some j → j < 16 := fun p j hj => List.mem_range.1 (List.mem_of_find?_eq_some hj)
  unfold State.btPlace at h
  split at h
  · next j hj => exact Option.some.inj h ▸ hr _ j hj
  split at h
  · next j hj => exact Option.some.inj h ▸ hr _ j hj
  dsimp only at h
  split at h
  · next j hj => exact Option.some.inj h ▸ List.mem_range.1 (List.mem_filter.1 (List.mem_of_find?_eq_some hj)).1
  · have hc := List.find?_some h
    exact List.mem_range.1 (List.mem_filter.1 (List.contains_iff_mem.1 hc)).1

/-- What an entry that a search has found is stored in. -/
def entryFlds (x i : Nat) : List Fld := [CLK_x_BT_FREQ_valid x i, CLK_x_BT_FREQ_preloaded x i, CLK_x_BT_FREQ_freq x i, CLK_x_BT_CODE_band x i,
  CLK_x_BT_CODE_code x i, CLK_x_BT_CODE_temp x i]

/-- An entry that a search has found reads as found. -/
theorem btStore_shows (s : State) (x i f band code : Nat) {u : State} (hu : u = s.btStore x i f band code) :
    u.rd (CLK_x_BT_FREQ_valid x i) = 1 ∧ u.rd (CLK_x_BT_FREQ_preloaded x i) = 0 ∧ u.rd (CLK_x_BT_FREQ_freq x i) = f % 2 ^ 21
      ∧ u.rd (CLK_x_BT_CODE_band x i) = band % 2 ^ 6 ∧ u.rd (CLK_x_BT_CODE_code x i) = code % 2 ^ 10 ∧ ClkStep s u (entryFlds x i) := by
  have hk : ((entryFlds x i).map Fld.key).Nodup := by
    simp [entryFlds, Fld.key, CLK_x_BT_FREQ_valid, CLK_x_BT_FREQ_preloaded, CLK_x_BT_FREQ_freq, CLK_x_BT_CODE_band, CLK_x_BT_CODE_code, CLK_x_BT_CODE_temp]
    omega
  simp only [entryFlds, List.map_cons, List.map_nil, List.nodup_cons, List.mem_cons, List.not_mem_nil, or_false, not_or, not_false_eq_true, List.nodup_nil,
    and_true] at hk
  obtain ⟨⟨v1, v2, v3, v4, v5⟩, ⟨p1, p2, p3, p4⟩, ⟨f1, f2, f3⟩, ⟨b1, b2⟩, c1⟩ := hk
  subst hu
  unfold State.btStore
  dsimp only
  generalize State.tempC _ = temp
  refine ⟨?_, ?_, ?_, ?_, ?_, ?_⟩
  · rw [State.rd_wr_ne _ _ _ _ (Ne.symm v5), State.rd_wr_ne _ _ _ _ (Ne.symm v4), State.rd_wr_ne _ _ _ _ (Ne.symm v3), State.rd_wr_ne _ _ _ _ (Ne.symm v1),
      State.rd_wr_ne _ _ _ _ (Ne.symm v2), State.rd_wr_same]
    rfl
  · rw [State.rd_wr_ne _ _ _ _ (Ne.symm p4), State.rd_wr_ne _ _ _ _ (Ne.symm p3), State.rd_wr_ne _ _ _ _ (Ne.symm p2), State.rd_wr_same]
    rfl
  · rw [State.rd_wr_ne _ _ _ _ (Ne.symm f3), State.rd_wr_ne _ _ _ _ (Ne.symm f2), State.rd_wr_ne _ _ _ _ (Ne.symm f1), State.rd_wr_ne _ _ _ _ p1,
      State.rd_wr_same]
    rfl
  · rw [State.rd_wr_ne _ _ _ _ (Ne.symm b2), State.rd_wr_ne _ _ _ _ (Ne.symm b1), State.rd_wr_same]
    rfl
  · rw [State.rd_wr_ne _ _ _ _ (Ne.symm c1), State.rd_wr_same]
    rfl
  · exact ((((((ClkStep.refl s _).wr _ (List.mem_map_of_mem (by simp [entryFlds]))).wr _ (List.mem_map_of_mem (by simp [entryFlds]))).wr _
      (List.mem_map_of_mem (by simp [entryFlds]))).wr _ (List.mem_map_of_mem (by simp [entryFlds]))).wr _
      (List.mem_map_of_mem (by simp [entryFlds]))).wr _ (List.mem_map_of_mem (by simp [entryFlds]))

/-! ### The end of a search -/

/-- A search that succeeds: its frequency and band are stored in place `i`, or kept as the working entry where there is none. -/
def State.found (s : State) (x band code : Nat) (place : Option Nat) : State :=
  let p := s.pll x
  let f := s.rd (CLK_x_TARGET_freq x)
  match place with
  | some i => ((s.btStore x i f band code).putPll x { p with useWork := false, miss := none }).wr (CLK_x_STAT_bt_idx x) i
  | none => (s.putPll x { p with useWork := true, work := some (f, band, code), miss := none }).orF CLK_EVT_bt_full 1

/-- Where it goes. -/
def State.foundPlace (s : State) (x : Nat) : Option Nat :=
  match (s.pll x).miss with
  | some i => some i
  | none => s.btPlace x (s.rd (CLK_x_TARGET_freq x))

theorem searchDone_found {s a : State} {x band code t : Nat} (ha : s.advance t = a) (h : a.pllSt x = 1) :
    State.searchDone x true band code t s = (a.found x band code (a.foundPlace x)).pllTo x 2 := by
  unfold State.searchDone
  rw [ha]
  dsimp only
  rw [if_neg (not_not.2 h), if_neg (by decide)]
  show (match a.foundPlace x with | some i => _ | none => _) = _
  cases a.foundPlace x <;> rfl

theorem searchDone_fails {s a : State} {x band code t : Nat} (ha : s.advance t = a) (h : a.pllSt x = 1) :
    State.searchDone x false band code t s = a.putPll x { a.pll x with fails := (a.pll x).fails + 1, since := t } := by
  unfold State.searchDone
  rw [ha]
  dsimp only
  rw [if_neg (not_not.2 h)]
  rfl

/-- The entry takes the search's place; its index and what is stored are all that is written. -/
theorem found_some (s : State) (x : Pll) {i : Nat} (hi : i < 16) (band : Fin 64) (code : Fin 1024) {u : State} (hu : u = s.found x.val band.val code.val (some i)) :
    u.rd (CLK_x_BT_FREQ_valid x.val i) = 1 ∧ u.rd (CLK_x_BT_FREQ_preloaded x.val i) = 0
      ∧ u.rd (CLK_x_BT_FREQ_freq x.val i) = s.rd (CLK_x_TARGET_freq x.val) % 2 ^ 21 ∧ u.rd (CLK_x_BT_CODE_band x.val i) = band.val
      ∧ u.rd (CLK_x_BT_CODE_code x.val i) = code.val ∧ u.rd (CLK_x_STAT_bt_idx x.val) = i := by
  obtain ⟨h1, h2, h3, h4, h5, -⟩ := btStore_shows s x.val i (s.rd (CLK_x_TARGET_freq x.val)) band.val code.val rfl
  have hx := x.isLt
  have hrd : ∀ f ∈ entryFlds x.val i, u.rd f = (s.btStore x.val i (s.rd (CLK_x_TARGET_freq x.val)) band.val code.val).rd f := fun f hf => by
    have hne : (CLK_x_STAT_bt_idx x.val).key ≠ f.key := by
      simp only [entryFlds, List.mem_cons, List.not_mem_nil, or_false] at hf
      rcases hf with rfl | rfl | rfl | rfl | rfl | rfl <;> simp only [Fld.key, CLK_x_STAT_bt_idx, CLK_x_BT_FREQ_valid, CLK_x_BT_FREQ_preloaded, CLK_x_BT_FREQ_freq,
        CLK_x_BT_CODE_band, CLK_x_BT_CODE_code, CLK_x_BT_CODE_temp] <;> omega
    rw [hu]
    exact (State.rd_wr_ne _ _ _ _ hne).trans (State.rd_mk ..)
  refine ⟨(hrd _ (by simp [entryFlds])).trans h1, (hrd _ (by simp [entryFlds])).trans h2, (hrd _ (by simp [entryFlds])).trans h3,
    ((hrd _ (by simp [entryFlds])).trans h4).trans (Nat.mod_eq_of_lt band.isLt), ((hrd _ (by simp [entryFlds])).trans h5).trans (Nat.mod_eq_of_lt code.isLt), ?_⟩
  rw [hu]
  exact (State.rd_wr_same _ _ _).trans (Nat.mod_eq_of_lt hi)

theorem found_some_step (s : State) (x i band code : Nat) : ClkStep s (s.found x band code (some i)) (CLK_x_STAT_bt_idx x :: entryFlds x i) := by
  obtain ⟨-, -, -, -, -, h⟩ := btStore_shows s x i (s.rd (CLK_x_TARGET_freq x)) band code rfl
  exact ((h.mono (by simp)).trans (putPll_step _ _ _ _)).wr _ (List.mem_map_of_mem (by simp))

theorem found_none_step (s : State) (x band code : Nat) : ClkStep s (s.found x band code none) [CLK_EVT_bt_full] :=
  (putPll_step s x _ _).wr _ (by decide)

/-- What a search leaves besides its place. -/
theorem found_step (s : State) (x band code : Nat) (place : Option Nat) : ∃ l, ClkStep s (s.found x band code place) l := by
  cases place with
  | some i => exact ⟨_, found_some_step s x i band code⟩
  | none => exact ⟨_, found_none_step s x band code⟩

theorem pllTo_grid (s : State) (x k : Nat) : (s.pllTo x k).grid = s.grid := by
  obtain ⟨F, C, T, e⟩ := s.pllTo_moves x k
  rw [e]

theorem found_grid (s : State) (x band code : Nat) (place : Option Nat) : (s.found x band code place).grid = s.grid := by
  cases place <;> rfl

/-! ### A lock that is missed or reached -/

/-- An entry that software has preloaded and that gives no lock is reported (R118). -/
def State.missed (s : State) (x : Nat) : State :=
  if !(s.pll x).useWork && s.on (CLK_x_BT_FREQ_preloaded x (s.rd (CLK_x_STAT_bt_idx x))) then
    (s.orF CLK_EVT_bt_miss 1).putPll x { s.pll x with miss := some (s.rd (CLK_x_STAT_bt_idx x)) }
  else s

theorem btMiss_eq {s a : State} {x t : Nat} (ha : s.advance t = a) (h : a.pllSt x = 2) (ht : (a.pll x).since + 2 * usF ≤ t) :
    State.btMiss x t s = (a.missed x).pllTo x 1 := by
  unfold State.btMiss
  rw [ha]
  dsimp only
  rw [if_neg (by rw [not_or, not_not]; exact ⟨h, by omega⟩), State.missed]
  split <;> rfl

theorem missed_step (s : State) (x : Nat) : ClkStep s (s.missed x) [CLK_EVT_bt_miss] := by
  unfold State.missed
  split
  · exact ((ClkStep.refl s _).wr _ (by decide)).trans (putPll_step _ _ _ _)
  · exact .refl s _

theorem missed_grid (s : State) (x : Nat) : (s.missed x).grid = s.grid := by
  unfold State.missed
  split <;> rfl

theorem missed_shows {s : State} {x : Nat} (h1 : (s.pll x).useWork = false) (h2 : s.rd (CLK_x_BT_FREQ_preloaded x (s.rd (CLK_x_STAT_bt_idx x))) = 1) :
    (s.missed x).rd CLK_EVT_bt_miss = 1 ∧ ((s.missed x).pll x).miss = some (s.rd (CLK_x_STAT_bt_idx x)) := by
  have hc : (!(s.pll x).useWork && s.on (CLK_x_BT_FREQ_preloaded x (s.rd (CLK_x_STAT_bt_idx x)))) = true := by
    rw [h1, State.on, h2]
    rfl
  rw [State.missed, if_pos hc]
  exact ⟨(State.rd_mk ..).trans (rd_orF_bit _ _ true rfl rfl), congrArg PllSt.miss (pll_putPll _ x _)⟩

/-- What a lock leaves of the entry it has locked from (R121). -/
def State.locked (s : State) (x code : Nat) : State :=
  let p := s.pll x
  let i := s.rd (CLK_x_STAT_bt_idx x)
  if p.useWork then s.putPll x { p with fails := 0, work := p.work.map fun w => (w.1, w.2.1, code) }
  else (((s.wr (CLK_x_BT_CODE_code x i) code).wr (CLK_x_BT_CODE_temp x i) s.tempC).wr (CLK_x_BT_FREQ_preloaded x i) 0).putPll x
    { p with fails := 0, lru := i :: p.lru.filter (· ≠ i) }

theorem pllLocked_eq {s a : State} {x code t : Nat} (ha : s.advance t = a) (h : a.pllSt x = 2) :
    State.pllLocked x code t s = (a.locked x code).pllTo x 3 := by
  unfold State.pllLocked
  rw [ha]
  dsimp only
  rw [if_neg (not_not.2 h), State.locked]
  split <;> rfl

/-- What a lock from an entry writes of it. -/
def lockedFlds (x i : Nat) : List Fld := [CLK_x_BT_CODE_code x i, CLK_x_BT_CODE_temp x i, CLK_x_BT_FREQ_preloaded x i]

theorem locked_step (s : State) (x code : Nat) : ClkStep s (s.locked x code) (lockedFlds x (s.rd (CLK_x_STAT_bt_idx x))) := by
  unfold State.locked
  dsimp only
  split
  · exact putPll_step _ _ _ _
  · exact ((((ClkStep.refl s _).wr _ (List.mem_map_of_mem (by simp [lockedFlds]))).wr _ (List.mem_map_of_mem (by simp [lockedFlds]))).wr _
      (List.mem_map_of_mem (by simp [lockedFlds]))).trans (putPll_step _ _ _ _)

theorem locked_grid (s : State) (x code : Nat) : (s.locked x code).grid = s.grid := by
  unfold State.locked
  dsimp only
  split <;> rfl

theorem locked_fails (s : State) (x code : Nat) : ((s.locked x code).pll x).fails = 0 := by
  unfold State.locked
  dsimp only
  split
  · exact congrArg PllSt.fails (pll_putPll _ x _)
  · exact congrArg PllSt.fails (pll_putPll _ x _)

/-- The temperature is held in 8 bits. -/
theorem tempC_lt (s : State) : s.tempC < 2 ^ 8 := toU_lt _ _

theorem locked_shows {s : State} {x i : Nat} (code : Fin 1024) (h : (s.pll x).useWork = false) (hi : s.rd (CLK_x_STAT_bt_idx x) = i) :
    (s.locked x code.val).rd (CLK_x_BT_CODE_code x i) = code.val ∧ (s.locked x code.val).rd (CLK_x_BT_CODE_temp x i) = s.tempC
      ∧ (s.locked x code.val).rd (CLK_x_BT_FREQ_preloaded x i) = 0 := by
  have k1 : (CLK_x_BT_CODE_temp x i).key ≠ (CLK_x_BT_CODE_code x i).key := by simp only [Fld.key, CLK_x_BT_CODE_temp, CLK_x_BT_CODE_code]; omega
  have k2 : (CLK_x_BT_FREQ_preloaded x i).key ≠ (CLK_x_BT_CODE_code x i).key := by simp only [Fld.key, CLK_x_BT_FREQ_preloaded, CLK_x_BT_CODE_code]; omega
  have k3 : (CLK_x_BT_FREQ_preloaded x i).key ≠ (CLK_x_BT_CODE_temp x i).key := by simp only [Fld.key, CLK_x_BT_FREQ_preloaded, CLK_x_BT_CODE_temp]; omega
  unfold State.locked
  dsimp only
  rw [hi, if_neg (by rw [h]; exact Bool.false_ne_true)]
  refine ⟨(State.rd_mk ..).trans ?_, (State.rd_mk ..).trans ?_, (State.rd_mk ..).trans (State.rd_wr_same _ _ _)⟩
  · rw [State.rd_wr_ne _ _ _ _ k2, State.rd_wr_ne _ _ _ _ k1, State.rd_wr_same]
    exact Nat.mod_eq_of_lt code.isLt
  · rw [State.rd_wr_ne _ _ _ _ k3, State.rd_wr_same]
    exact Nat.mod_eq_of_lt (tempC_lt s)

/-! ### The end of QUALIFY -/

/-- An ADPLL in LOCKED, and a hop of it that ran done (R126). -/
def State.qualHop (s : State) (x : Nat) : State :=
  match s.clk.hopRun with
  | some h => if h.pll = x then ({ s with clk := { s.clk with hopRun := none } }).orF CLK_EVT_hop_done 1 else s
  | none => s

theorem qualified_eq {s a : State} {x t : Nat} (ha : s.advance t = a) (h : a.pllSt x = 3) (ht : (a.pll x).since + 4 * usF ≤ t) : State.qualified x t s =
    ((if x = 1 then (((a.pllTo x 4).measOpen x).qualHop x).portsEval else ((a.pllTo x 4).measOpen x).qualHop x).domEval t 2).hopFlags := by
  unfold State.qualified
  rw [ha]
  dsimp only
  rw [if_neg (by rw [not_or, not_not]; exact ⟨h, by omega⟩)]
  rfl

theorem qualHop_step (s : State) (x : Nat) : ClkStep s (s.qualHop x) [CLK_EVT_hop_done] := by
  unfold State.qualHop
  split
  · split
    · exact (ClkStep.of_clk s _ _).wr _ (by decide)
    · exact .refl s _
  · exact .refl s _

theorem qualHop_trl (s : State) (x : Nat) : (s.qualHop x).trl = s.trl := by
  unfold State.qualHop
  split
  · split <;> rfl
  · rfl

theorem qualHop_done {s : State} {x : Nat} {h : Hop} (hr : s.clk.hopRun = some h) (hx : h.pll = x) :
    (s.qualHop x).rd CLK_EVT_hop_done = 1 ∧ (s.qualHop x).clk.hopRun = none := by
  rw [State.qualHop, hr]
  dsimp only
  rw [if_pos hx]
  exact ⟨rd_orF_bit _ _ true rfl rfl, rfl⟩

/-- An error within ±100 ppm reads as such. -/
theorem errWithin_small (k : Nat) : errWithin 1000 k < 2 ^ 16 ∧ (sx 16 (errWithin 1000 k)).natAbs ≤ 1000 := by
  have hb : Config.freeValue k % (2 * 1000 + 1) < 2 * 1000 + 1 := Nat.mod_lt _ (by decide)
  have he : errWithin 1000 k = toU 16 ((Config.freeValue k % (2 * 1000 + 1) : Nat) - (1000 : Int)) := by
    unfold errWithin satU
    congr 1
    omega
  have hs := sx_toU ((Config.freeValue k % (2 * 1000 + 1) : Nat) - (1000 : Int)) (by omega) (by omega)
  have hl := toU_lt 16 ((Config.freeValue k % (2 * 1000 + 1) : Nat) - (1000 : Int))
  rw [Nat.mod_eq_of_lt hl] at hs
  rw [he, hs]
  exact ⟨hl, by omega⟩

/-- ADPLL `x` as QUALIFY ends: in LOCKED, measured, its hop done. -/
def State.qualOpen (s : State) (x : Nat) : State := ((s.pllTo x 4).measOpen x).qualHop x

theorem measOpen_step (s : State) (x : Nat) : ClkStep { s with free := s.free + 1 } (s.measOpen x) [CLK_x_MEAS_err x] :=
  ((ClkStep.refl { s with free := s.free + 1 } _).wr _ (List.mem_map_of_mem (by simp))).trans (putPll_step _ _ _ _)

theorem pllTo_open (s : State) (x : Nat) : (s.pllTo x 4).trl = s.trl := by
  unfold State.pllTo
  dsimp only
  rw [if_neg (by simp)]
  rfl

/-- The registers that the end of QUALIFY writes itself. -/
def openFldsOf (x : Nat) : List Fld := [CLK_x_STAT_state x, CLK_x_STAT_gated x, CLK_x_MEAS_err x, CLK_EVT_hop_done]

theorem qualOpen_step (s : State) (x : Nat) : ClkStep { s with free := s.free + 1 } (s.qualOpen x) (openFldsOf x) := by
  obtain ⟨⟨F, C, G, O, e⟩, hr⟩ := pllTo_step s x 4
  have h1 : ClkStep { s with free := s.free + 1 } { s.pllTo x 4 with free := (s.pllTo x 4).free + 1 } (openFldsOf x) := by
    refine ⟨⟨F, C, G, O, by rw [e]⟩, fun f hf => (State.rd_mk ..).trans ((hr f fun h => hf ?_).trans (State.rd_mk ..).symm)⟩
    simp only [openFldsOf, List.map_cons, List.map_nil, List.mem_cons, List.not_mem_nil, or_false] at h ⊢
    exact h.elim .inl fun h => .inr (.inl h)
  exact (h1.trans ((measOpen_step _ x).mono (by simp [openFldsOf]))).trans ((qualHop_step _ x).mono (by simp [openFldsOf]))

theorem qualOpen_trl (s : State) (x : Nat) : (s.qualOpen x).trl = s.trl := (qualHop_trl _ x).trans (pllTo_open s x)

theorem qualOpen_shows (s : State) (x : Pll) : (s.qualOpen x.val).rd (CLK_x_STAT_state x.val) = 4 ∧ (s.qualOpen x.val).rd (CLK_x_STAT_gated x.val) = 0
    ∧ ((s.qualOpen x.val).rdS (CLK_x_MEAS_err x.val)).natAbs ≤ 1000
    ∧ ∀ h, s.clk.hopRun = some h → h.pll = x.val → (s.qualOpen x.val).rd CLK_EVT_hop_done = 1 ∧ (s.qualOpen x.val).clk.hopRun = none := by
  obtain ⟨hl, hm⟩ := errWithin_small (s.pllTo x.val 4).free
  have hk : ∀ x : Pll, (CLK_x_STAT_state x.val).key ≠ CLK_EVT_hop_done.key ∧ (CLK_x_STAT_gated x.val).key ≠ CLK_EVT_hop_done.key
      ∧ (CLK_x_MEAS_err x.val).key ≠ CLK_EVT_hop_done.key ∧ (CLK_x_STAT_state x.val).key ≠ (CLK_x_MEAS_err x.val).key
      ∧ (CLK_x_STAT_gated x.val).key ≠ (CLK_x_MEAS_err x.val).key := by decide
  obtain ⟨k1, k2, k3, k4, k5⟩ := hk x
  have hq : ∀ f : Fld, f.key ≠ CLK_EVT_hop_done.key → (s.qualOpen x.val).rd f = ((s.pllTo x.val 4).measOpen x.val).rd f := fun f hf =>
    (qualHop_step _ _).regs f (by simp [hf])
  have hme : ∀ f : Fld, f.key ≠ (CLK_x_MEAS_err x.val).key → ((s.pllTo x.val 4).measOpen x.val).rd f = (s.pllTo x.val 4).rd f := fun f hf =>
    ((measOpen_step _ _).regs f (by simp [hf])).trans (State.rd_mk ..)
  refine ⟨?_, ?_, ?_, fun h hr hx => qualHop_done ?_ hx⟩
  · rw [hq _ k1, hme _ k4, pllTo_state]
  · rw [hq _ k2, hme _ k5, pllTo_gated]
    rfl
  · rw [State.rdS, hq _ k3]
    have hv : ((s.pllTo x.val 4).measOpen x.val).rd (CLK_x_MEAS_err x.val) = errWithin 1000 (s.pllTo x.val 4).free :=
      (State.rd_mk ..).trans ((State.rd_wr_same _ _ _).trans (Nat.mod_eq_of_lt hl))
    rw [hv]
    exact hm
  · refine (congrArg Prod.snd ((hops_putPll _ _ _).trans ?_ : ((s.pllTo x.val 4).measOpen x.val).clk.hops = s.clk.hops)).trans hr
    exact hops_pllTo s x.val 4

/-- What follows: the ports of Graft, the gate of the sample domain, and the flags of the hops. -/
def State.opened (s : State) (x t : Nat) : State := ((if x = 1 then s.portsEval else s).domEval t 2).hopFlags

theorem opened_keeps (s : State) (x t : Nat) : (∀ f : Fld, f.key < 0x280000 → f.key ≠ CLK_STAT_dll_lock.key → f.key ∉ hopFlds.map Fld.key → (s.opened x t).rd f = s.rd f)
    ∧ (s.opened x t).clk.hopRun = s.clk.hopRun := by
  have hp : ∀ f : Fld, f.key < 0x280000 → s.portsEval.rd f = s.rd f := fun f hf => (portsEval_step s).regs f fun hm => by
    obtain ⟨g, hg, he⟩ := List.mem_map.1 hm
    have hlo : ∀ g ∈ portFlds, 0x280000 ≤ g.key := by decide
    have := hlo g hg
    omega
  have hc : s.portsEval.clk = s.clk := by
    obtain ⟨⟨F, G, e⟩, -⟩ := portsEval_step s
    rw [e]
  have hi : ∀ f : Fld, f.key < 0x280000 → (if x = 1 then s.portsEval else s).rd f = s.rd f := fun f hf => by
    split
    · exact hp f hf
    · rfl
  have hj : (if x = 1 then s.portsEval else s).clk = s.clk := by
    split
    · exact hc
    · rfl
  unfold State.opened
  generalize (if x = 1 then s.portsEval else s) = w at hi hj
  have hg := gate_domEval w t 2
  refine ⟨fun f h1 h2 h3 => ((hopFlags_step _).regs f h3).trans ((hg.low f h1 h2).trans (hi f h1)), ?_⟩
  have he : (w.domEval t 2).clk.hopRun = w.clk.hopRun := (congrArg Clk.hopRun hg.clk :)
  obtain ⟨F, e⟩ := hopFlags_moves (w.domEval t 2)
  rw [e, ← hj]
  exact he

/-! ### An ADPLL that fails -/

/-- An ADPLL in FAILED, reported, and a hop of it dropped (R134). -/
def State.broken (s : State) (x : Nat) : State :=
  let s1 := ((s.pllTo x 7).orF CLK_EVT_failed 1).bbox 0x31 x 0
  match s1.clk.hopRun with
  | some h => if h.pll = x then { s1 with clk := { s1.clk with hopRun := none } } else s1
  | none => s1

theorem pllFailed_eq {s a : State} {x t : Nat} (ha : s.advance t = a) (h : a.pllSt x = 1) (hf : 3 ≤ (a.pll x).fails) :
    State.pllFailed x t s = if x = 0 then ((a.broken x).stopAt 6 t).hopFlags else ((a.broken x).bbxFreeze 1).hopFlags := by
  unfold State.pllFailed
  rw [ha]
  dsimp only
  rw [if_neg (by rw [not_or, not_not]; exact ⟨h, by omega⟩)]
  rfl

theorem rd_broken (s : State) (x : Nat) {f : Fld} (h : f.key ∉ bboxFlds.map Fld.key) : (s.broken x).rd f = ((s.pllTo x 7).orF CLK_EVT_failed 1).rd f := by
  unfold State.broken
  dsimp only
  split
  · split
    · exact State.rd_bbox _ _ _ _ h
    · exact State.rd_bbox _ _ _ _ h
  · exact State.rd_bbox _ _ _ _ h

theorem broken_shows (s : State) (x : Pll) : (s.broken x.val).rd (CLK_x_STAT_state x.val) = 7 ∧ (s.broken x.val).rd (CLK_x_STAT_gated x.val) = 1
    ∧ (s.broken x.val).rd CLK_EVT_failed = 1 ∧ (s.broken x.val).acqSt = s.acqSt := by
  have hk : ∀ x : Pll, CLK_EVT_failed.key ≠ (CLK_x_STAT_state x.val).key ∧ CLK_EVT_failed.key ≠ (CLK_x_STAT_gated x.val).key
      ∧ (CLK_x_STAT_state x.val).key ∉ bboxFlds.map Fld.key ∧ (CLK_x_STAT_gated x.val).key ∉ bboxFlds.map Fld.key
      ∧ ACQ_STAT_state.key ∉ [CLK_x_STAT_state x.val, CLK_x_STAT_gated x.val].map Fld.key := by decide
  obtain ⟨k1, k2, k3, k4, k5⟩ := hk x
  refine ⟨?_, ?_, ?_, ?_⟩
  · rw [rd_broken s _ k3, rd_orF_ne _ _ _ _ k1, pllTo_state]
  · rw [rd_broken s _ k4, rd_orF_ne _ _ _ _ k2, pllTo_gated]
    rfl
  · rw [rd_broken s _ (by decide)]
    exact rd_orF_bit _ _ true rfl rfl
  · rw [State.acqSt, rd_broken s _ (by decide), rd_orF_ne _ _ _ _ (by decide)]
    exact (pllTo_step s x.val 7).regs _ k5

/-- A failure freezes the black box, or stops acquisition where it is ADPLL-S's (R134, R187). -/
theorem pllFailed_shows {s u : State} {x : Pll} {t : Nat} (h : s.pllSt x.val = 1) (hf : 3 ≤ (s.pll x.val).fails) (hu : u = State.pllFailed x.val t s) :
    u.rd (CLK_x_STAT_state x.val) = 7 ∧ u.rd (CLK_x_STAT_gated x.val) = 1 ∧ u.rd CLK_EVT_failed = 1
      ∧ (x.val ≠ 0 → u.rd BBX_STAT_frozen = 1 ∧ u.acqSt = s.acqSt)
      ∧ (x.val = 0 → 1 ≤ s.acqSt → s.acqSt ≤ 5 → u.acqSt = 6 ∧ u.rd ACQ_STAT_stop_cause = 6) := by
  have hk : ∀ x : Pll, ∀ f ∈ [CLK_x_STAT_state x.val, CLK_x_STAT_gated x.val, CLK_EVT_failed], f.key < 0x280000 ∧ f.key ∉ hopFlds.map Fld.key
      ∧ f.key ∉ freezeFlds.map Fld.key := by decide
  have hpll : (s.advance t).pll x.val = s.pll x.val := by
    obtain ⟨b, hb, -⟩ := s.advance_moves t
    rw [hb]
    rfl
  rw [pllFailed_eq rfl ((State.rd_advance ..).trans h) (by rw [hpll]; exact hf)] at hu
  obtain ⟨b1, b2, b3, b4⟩ := broken_shows (s.advance t) x
  rw [State.acqSt_advance] at b4
  generalize (s.advance t).broken x.val = w at *
  have hfl : ∀ v : State, ∀ f : Fld, f.key ∉ hopFlds.map Fld.key → v.hopFlags.rd f = v.rd f := fun v f hf => (hopFlags_step v).regs f hf
  by_cases hx : x.val = 0
  · rw [if_pos hx] at hu
    have hrd : ∀ f ∈ [CLK_x_STAT_state x.val, CLK_x_STAT_gated x.val, CLK_EVT_failed], u.rd f = w.rd f := fun f hm => by
      obtain ⟨k1, k2, -⟩ := hk x f hm
      rw [hu, hfl _ f k2, rd_low_of_unhdg (State.stopAt_unhdg w 6 t) k1, State.rd_advance]
    refine ⟨by rw [hrd _ (by simp), b1], by rw [hrd _ (by simp), b2], by rw [hrd _ (by simp), b3], fun h' => absurd hx h', fun _ h1 h5 => ?_⟩
    obtain ⟨g1, g2⟩ := stopAt_stops (s := w) (t := t) (.inr rfl) (by rw [b4]; exact ⟨h1, h5⟩)
    rw [hu, State.acqSt, hfl _ _ (by decide), hfl _ _ (by decide)]
    exact ⟨g1, g2⟩
  · rw [if_neg hx] at hu
    have hrd : ∀ f ∈ [CLK_x_STAT_state x.val, CLK_x_STAT_gated x.val, CLK_EVT_failed], u.rd f = w.rd f := fun f hm => by
      obtain ⟨-, k2, k3⟩ := hk x f hm
      rw [hu, hfl _ f k2, rd_bbxFreeze_ne w 1 k3]
    refine ⟨by rw [hrd _ (by simp), b1], by rw [hrd _ (by simp), b2], by rw [hrd _ (by simp), b3], fun _ => ⟨?_, ?_⟩, fun h' => absurd h' hx⟩
    · rw [hu, hfl _ _ (by decide), (rd_bbxFreeze_frozen w 1).1]
    · rw [hu, State.acqSt, hfl _ _ (by decide), rd_bbxFreeze_ne w 1 (by decide)]
      exact b4

/-! ### What the statement says of each command -/

/-- What is told apart from the time base alone, of a step of clock synthesis that leaves the grid. -/
theorem rest_of_step {s u : State} {t : Nat} {l : List Fld} (h : ClkStep (s.advance t) u l) (hg : u.grid = (s.advance t).grid) :
    TimeAt s u t ∧ SameRest s { u with clk := s.clk, trl := { u.trl with out := s.trl.out } } := by
  obtain ⟨b, hb, hk⟩ := s.advance_moves t
  obtain ⟨F, C, G, O, e⟩ := h.moves
  have : G = s.grid := by
    rw [e, hb] at hg
    exact hg
  rw [e, hb, this]
  exact ⟨hk, sameRest_mk s _ _ _ _⟩

end Sys2Proof.Machine

namespace Sys2Proof

open Machine

section Commands

variable {s : State} {x : Pll} {t : Nat}

theorem stateKeys : ∀ x : Pll, (CLK_x_STAT_state x.val).key ≠ (CLK_x_STAT_bt_idx x.val).key := by decide

theorem searchDone_failed (hp : Powered s) (band : Fin 64) (code : Fin 1024) (h : s.pllSt x.val = 1) : Answers (.bandSearchDone x false band code t) s fun u =>
    (u.pll x.val).fails = (s.pll x.val).fails + 1 ∧ TimeAt s u t ∧ SameRegs s u [] ∧ SameRest s { u with clk := s.clk } := by
  refine .of_performOnAt (exec_bandSearchDone _ _ _ _ _ _) hp ?_
  rw [searchDone_fails rfl ((State.rd_advance ..).trans h)]
  obtain ⟨b, hb, hk⟩ := s.advance_moves t
  rw [hb]
  exact ⟨congrArg PllSt.fails (pll_putPll _ x.val _), hk, fun f _ => State.rd_mk .., sameRest_mk s _ _ _ _⟩

/-- The registers of an entry and its state are told apart. -/
theorem entryKeys (x : Pll) {i : Nat} (hi : i < 16) : ∀ f ∈ CLK_x_STAT_bt_idx x.val :: entryFlds x.val i,
    f.key ≠ (CLK_x_STAT_state x.val).key ∧ f.key ≠ (CLK_x_STAT_gated x.val).key := by
  have hx := x.isLt
  intro f hf
  simp only [entryFlds, List.mem_cons, List.not_mem_nil, or_false] at hf
  rcases hf with rfl | rfl | rfl | rfl | rfl | rfl | rfl <;> simp only [Fld.key, CLK_x_STAT_bt_idx, CLK_x_BT_FREQ_valid, CLK_x_BT_FREQ_preloaded,
    CLK_x_BT_FREQ_freq, CLK_x_BT_CODE_band, CLK_x_BT_CODE_code, CLK_x_BT_CODE_temp, CLK_x_STAT_state, CLK_x_STAT_gated] <;> omega

/-- The place of what a search finds, as the machine stood. -/
theorem foundPlace_advance (s : State) (x t : Nat) (h : (s.pll x).miss = none) : (s.advance t).foundPlace x = s.btPlace x (s.rd (CLK_x_TARGET_freq x)) := by
  obtain ⟨b, hb, -⟩ := s.advance_moves t
  have hm : ((s.advance t).pll x).miss = none := by
    rw [hb]
    exact h
  unfold State.foundPlace
  rw [hm, hb]
  rfl

theorem searchDone_succeeds (hp : Powered s) (band : Fin 64) (code : Fin 1024) (h : s.pllSt x.val = 1) : Answers (.bandSearchDone x true band code t) s fun u =>
    u.rd (CLK_x_STAT_state x.val) = 2 ∧ u.rd (CLK_x_STAT_gated x.val) = 1
      ∧ (∀ i, (s.pll x.val).miss = none → s.btPlace x.val (s.rd (CLK_x_TARGET_freq x.val)) = some i →
          u.rd (CLK_x_BT_FREQ_valid x.val i) = 1 ∧ u.rd (CLK_x_BT_FREQ_preloaded x.val i) = 0
            ∧ u.rd (CLK_x_BT_FREQ_freq x.val i) = s.rd (CLK_x_TARGET_freq x.val) % 2 ^ 21
            ∧ u.rd (CLK_x_BT_CODE_band x.val i) = band.val ∧ u.rd (CLK_x_BT_CODE_code x.val i) = code.val
            ∧ u.rd (CLK_x_STAT_bt_idx x.val) = i
            ∧ SameRegs s u [CLK_x_STAT_state x.val, CLK_x_STAT_gated x.val, CLK_x_STAT_bt_idx x.val, CLK_x_BT_FREQ_valid x.val i,
                CLK_x_BT_FREQ_preloaded x.val i, CLK_x_BT_FREQ_freq x.val i, CLK_x_BT_CODE_band x.val i,
                CLK_x_BT_CODE_code x.val i, CLK_x_BT_CODE_temp x.val i])
      ∧ ((s.pll x.val).miss = none → s.btPlace x.val (s.rd (CLK_x_TARGET_freq x.val)) = none → u.rd CLK_EVT_bt_full = 1
          ∧ (u.pll x.val).work = some (s.rd (CLK_x_TARGET_freq x.val), band.val, code.val)
          ∧ SameRegs s u [CLK_x_STAT_state x.val, CLK_x_STAT_gated x.val, CLK_EVT_bt_full])
      ∧ TimeAt s u t ∧ SameRest s { u with clk := s.clk, trl := { u.trl with out := s.trl.out } } := by
  refine .of_performOnAt (exec_bandSearchDone _ _ _ _ _ _) hp ?_
  rw [searchDone_found rfl ((State.rd_advance ..).trans h)]
  have hplace := foundPlace_advance s x.val t
  have hadv := State.rd_advance s t
  generalize hu : State.pllTo _ x.val 2 = u
  obtain ⟨l, hl⟩ := found_step (s.advance t) x.val band.val code.val ((s.advance t).foundPlace x.val)
  obtain ⟨m1, m2, m3, m4⟩ := moved_shows hl (.inr (.inl rfl)) hu.symm
  obtain ⟨r1, r2⟩ := rest_of_step m4 (by rw [← hu, pllTo_grid, found_grid])
  have hregs : ∀ {l}, ClkStep (s.advance t) u l → SameRegs s u l := fun hc f hf => (hc.regs f hf).trans (hadv f)
  refine ⟨m1, m2, fun i hm hi => ?_, fun hm hn => ?_, r1, r2⟩
  · have h16 := btPlace_lt hi
    rw [hplace hm, hi] at hu
    obtain ⟨f1, f2, f3, f4, f5, f6⟩ := found_some (s.advance t) x h16 band code rfl
    obtain ⟨-, -, -, hstep⟩ := moved_shows (found_some_step (s.advance t) x.val i band.val code.val) (.inr (.inl rfl)) hu.symm
    have hrd : ∀ f ∈ CLK_x_STAT_bt_idx x.val :: entryFlds x.val i, u.rd f = ((s.advance t).found x.val band.val code.val (some i)).rd f := fun f hf => by
      obtain ⟨k1, k2⟩ := entryKeys x h16 f hf
      rw [← hu, rd_moved k1 k2]
    rw [hrd _ (by simp [entryFlds]), hrd _ (by simp [entryFlds]), hrd _ (by simp [entryFlds]), hrd _ (by simp [entryFlds]), hrd _ (by simp [entryFlds]),
      hrd _ (by simp [entryFlds]), ← hadv (CLK_x_TARGET_freq x.val)]
    exact ⟨f1, f2, f3, f4, f5, f6, hregs hstep⟩
  · rw [hplace hm, hn] at hu
    obtain ⟨-, -, hpll, hstep⟩ := moved_shows (found_none_step (s.advance t) x.val band.val code.val) (.inr (.inl rfl)) hu.symm
    have hk : ∀ x : Pll, CLK_EVT_bt_full.key ≠ (CLK_x_STAT_state x.val).key ∧ CLK_EVT_bt_full.key ≠ (CLK_x_STAT_gated x.val).key := by decide
    refine ⟨?_, ?_, hregs hstep⟩
    · rw [← hu, rd_moved (hk x).1 (hk x).2]
      exact rd_orF_bit _ _ true rfl rfl
    · rw [hpll, ← hadv (CLK_x_TARGET_freq x.val)]
      exact congrArg PllSt.work (pll_putPll _ x.val _)

theorem pll_advance (s : State) (x t : Nat) : (s.advance t).pll x = s.pll x := by
  obtain ⟨b, hb, -⟩ := s.advance_moves t
  rw [hb]
  rfl

theorem btMiss_answers (hp : Powered s) (h : s.pllSt x.val = 2) (ht : (s.pll x.val).since + 2 * usF ≤ t) : Answers (.btMiss x t) s fun u =>
    u.rd (CLK_x_STAT_state x.val) = 1 ∧ u.rd (CLK_x_STAT_gated x.val) = 1
      ∧ ((s.pll x.val).useWork = false → s.rd (CLK_x_BT_FREQ_preloaded x.val (s.rd (CLK_x_STAT_bt_idx x.val))) = 1 →
          u.rd CLK_EVT_bt_miss = 1 ∧ (u.pll x.val).miss = some (s.rd (CLK_x_STAT_bt_idx x.val)))
      ∧ TimeAt s u t ∧ SameRegs s u [CLK_x_STAT_state x.val, CLK_x_STAT_gated x.val, CLK_EVT_bt_miss]
      ∧ SameRest s { u with clk := s.clk, trl := { u.trl with out := s.trl.out } } := by
  refine .of_performOnAt (exec_btMiss _ _ _) hp ?_
  rw [btMiss_eq rfl ((State.rd_advance ..).trans h) (by rw [pll_advance]; exact ht)]
  have hadv := State.rd_advance s t
  have hpll := pll_advance s x.val t
  generalize hu : State.pllTo _ x.val 1 = u
  obtain ⟨m1, m2, m3, m4⟩ := moved_shows (missed_step (s.advance t) x.val) (.inl rfl) hu.symm
  obtain ⟨r1, r2⟩ := rest_of_step m4 (by rw [← hu, pllTo_grid, missed_grid])
  refine ⟨m1, m2, fun h1 h2 => ?_, r1, fun f hf => (m4.regs f hf).trans (hadv f), r2⟩
  have hk : ∀ x : Pll, CLK_EVT_bt_miss.key ≠ (CLK_x_STAT_state x.val).key ∧ CLK_EVT_bt_miss.key ≠ (CLK_x_STAT_gated x.val).key := by decide
  obtain ⟨g1, g2⟩ := missed_shows (s := s.advance t) (x := x.val) (by rw [hpll]; exact h1) (by rw [hadv, hadv]; exact h2)
  rw [m3, ← hadv (CLK_x_STAT_bt_idx x.val)]
  refine ⟨?_, g2⟩
  rw [← hu, rd_moved (hk x).1 (hk x).2]
  exact g1

theorem adpllLocked_answers (hp : Powered s) (code : Fin 1024) (h : s.pllSt x.val = 2) : Answers (.adpllLocked x code t) s fun u =>
    u.rd (CLK_x_STAT_state x.val) = 3 ∧ u.rd (CLK_x_STAT_gated x.val) = 1 ∧ (u.pll x.val).fails = 0
      ∧ ((s.pll x.val).useWork = false → s.rd (CLK_x_STAT_bt_idx x.val) < 16 →
          u.rd (CLK_x_BT_CODE_code x.val (s.rd (CLK_x_STAT_bt_idx x.val))) = code.val
            ∧ u.rd (CLK_x_BT_CODE_temp x.val (s.rd (CLK_x_STAT_bt_idx x.val))) = s.tempC
            ∧ u.rd (CLK_x_BT_FREQ_preloaded x.val (s.rd (CLK_x_STAT_bt_idx x.val))) = 0)
      ∧ TimeAt s u t
      ∧ SameRegs s u [CLK_x_STAT_state x.val, CLK_x_STAT_gated x.val, CLK_x_BT_CODE_code x.val (s.rd (CLK_x_STAT_bt_idx x.val)),
          CLK_x_BT_CODE_temp x.val (s.rd (CLK_x_STAT_bt_idx x.val)), CLK_x_BT_FREQ_preloaded x.val (s.rd (CLK_x_STAT_bt_idx x.val))]
      ∧ SameRest s { u with clk := s.clk, trl := { u.trl with out := s.trl.out } } := by
  refine .of_performOnAt (exec_adpllLocked _ _ _ _) hp ?_
  rw [pllLocked_eq rfl ((State.rd_advance ..).trans h)]
  have hadv := State.rd_advance s t
  have hpll := pll_advance s x.val t
  have htemp : (s.advance t).tempC = s.tempC := by rw [State.tempC, State.rdS, hadv]; rfl
  generalize hu : State.pllTo _ x.val 3 = u
  obtain ⟨m1, m2, m3, m4⟩ := moved_shows (locked_step (s.advance t) x.val code.val) (.inr (.inr rfl)) hu.symm
  obtain ⟨r1, r2⟩ := rest_of_step m4 (by rw [← hu, pllTo_grid, locked_grid])
  rw [hadv] at m4
  refine ⟨m1, m2, ?_, fun hw hi => ?_, r1, fun f hf => (m4.regs f hf).trans (hadv f), r2⟩
  · rw [m3]
    exact locked_fails (s.advance t) x.val code.val
  · obtain ⟨g1, g2, g3⟩ := locked_shows (s := s.advance t) (x := x.val) code (by rw [hpll]; exact hw) (hadv _)
    have hrd : ∀ f ∈ entryFlds x.val (s.rd (CLK_x_STAT_bt_idx x.val)), u.rd f = ((s.advance t).locked x.val code.val).rd f := fun f hf => by
      obtain ⟨k1, k2⟩ := entryKeys x hi f (List.mem_cons_of_mem _ hf)
      rw [← hu, rd_moved k1 k2]
    rw [hrd _ (by simp [entryFlds]), hrd _ (by simp [entryFlds]), hrd _ (by simp [entryFlds]), ← htemp]
    exact ⟨g1, g2, g3⟩

theorem qualified_answers (hp : Powered s) (h : s.pllSt x.val = 3) (ht : (s.pll x.val).since + 4 * usF ≤ t) : Answers (.qualifyComplete x t) s fun u =>
    u.rd (CLK_x_STAT_state x.val) = 4 ∧ u.rd (CLK_x_STAT_gated x.val) = 0 ∧ (u.rdS (CLK_x_MEAS_err x.val)).natAbs ≤ 1000
      ∧ (∀ h, s.clk.hopRun = some h → h.pll = x.val → u.rd CLK_EVT_hop_done = 1 ∧ u.clk.hopRun = none)
      ∧ (s.acqSt = 0 → x.val ≠ 1 → TimeAt s u t
          ∧ SameRegs s u [CLK_x_STAT_state x.val, CLK_x_STAT_gated x.val, CLK_x_MEAS_err x.val, CLK_EVT_hop_done, CLK_HOP_pending,
              CLK_HOP_wait_idle, CLK_HOP_wait_gather, CLK_STAT_dll_lock]
          ∧ SameRest s { u with clk := s.clk, grid := s.grid, free := s.free }) := by
  refine .of_performOnAt (exec_qualifyComplete _ _ _) hp ?_
  rw [qualified_eq rfl ((State.rd_advance ..).trans h) (by rw [pll_advance]; exact ht)]
  have hk : ∀ x : Pll, ∀ f ∈ openFldsOf x.val, f.key < 0x280000 ∧ f.key ≠ CLK_STAT_dll_lock.key ∧ f.key ∉ hopFlds.map Fld.key := by decide
  have hka : ∀ x : Pll, ACQ_STAT_state.key ∉ (openFldsOf x.val).map Fld.key := by decide
  obtain ⟨q1, q2, q3, q4⟩ := qualOpen_shows (s.advance t) x
  have hstep := qualOpen_step (s.advance t) x.val
  have htrl := qualOpen_trl (s.advance t) x.val
  obtain ⟨b, hb, hkt⟩ := s.advance_moves t
  generalize hw : (s.advance t).qualOpen x.val = w at *
  obtain ⟨o1, o2⟩ := opened_keeps w x.val t
  have hrd : ∀ f ∈ openFldsOf x.val, (w.opened x.val t).rd f = w.rd f := fun f hf => by
    obtain ⟨k1, k2, k3⟩ := hk x f hf
    exact o1 f k1 k2 k3
  have hu : ((if x.val = 1 then (((s.advance t).pllTo x.val 4).measOpen x.val |>.qualHop x.val).portsEval else
      (((s.advance t).pllTo x.val 4).measOpen x.val).qualHop x.val).domEval t 2).hopFlags = w.opened x.val t := by
    rw [← hw]
    rfl
  rw [hu]
  refine ⟨(hrd _ (by simp [openFldsOf])).trans q1, (hrd _ (by simp [openFldsOf])).trans q2, ?_, fun k hr hx => ?_, fun h0 hx => ?_⟩
  · rw [State.rdS, hrd _ (by simp [openFldsOf])]
    exact q3
  · obtain ⟨d1, d2⟩ := q4 k (by rw [hb]; exact hr) hx
    exact ⟨(hrd _ (by simp [openFldsOf])).trans d1, o2.trans d2⟩
  · have hw0 : w.acqSt = 0 := (hstep.acqSt (hka x)).trans ((State.rd_mk ..).trans ((State.rd_advance ..).trans h0))
    have hd := domEval_step hw0 t 2
    have hdt := domEval_trl hw0 t 2
    have ho : w.opened x.val t = (w.domEval t 2).hopFlags := by rw [State.opened, if_neg hx]
    obtain ⟨F', e'⟩ := hopFlags_moves (w.domEval t 2)
    obtain ⟨F1, C1, G1, e1⟩ := hd.still hdt
    obtain ⟨F2, C2, G2, e2⟩ := hstep.still htrl
    have hform : ∃ F C G n, w.opened x.val t = { s with fields := F, clk := C, grid := G, tmb := b, free := n } :=
      ⟨F', C1, G1, s.free + 1, by rw [ho, e', e1, e2, hb]⟩
    have hall := ((hstep.mono (l' := openFldsOf x.val ++ CLK_STAT_dll_lock :: hopFlds) (by simp)).trans (hd.mono (by simp))).trans
      ((hopFlags_step _).mono (by simp))
    rw [← ho] at hall
    generalize w.opened x.val t = u at *
    obtain ⟨F, C, G, n, e⟩ := hform
    refine ⟨?_, fun f hf => ?_, ?_⟩
    · rw [e]
      exact hkt
    · refine (hall.regs f fun hm => hf ?_).trans ((State.rd_mk ..).trans (State.rd_advance s t f))
      simp only [openFldsOf, hopFlds, List.map_append, List.map_cons, List.map_nil, List.mem_append, List.mem_cons, List.not_mem_nil, or_false] at hm ⊢
      tauto
    · rw [e]
      exact sameRest_mk s _ _ _ _

theorem adpllFailed_answers (hp : Powered s) (h : s.pllSt x.val = 1) (hf : 3 ≤ (s.pll x.val).fails) : Answers (.adpllFailed x t) s fun u =>
    u.rd (CLK_x_STAT_state x.val) = 7 ∧ u.rd (CLK_x_STAT_gated x.val) = 1 ∧ u.rd CLK_EVT_failed = 1
      ∧ (x.val ≠ 0 → u.rd BBX_STAT_frozen = 1 ∧ u.acqSt = s.acqSt)
      ∧ (x.val = 0 → 1 ≤ s.acqSt → s.acqSt ≤ 5 → u.acqSt = 6 ∧ u.rd ACQ_STAT_stop_cause = 6) :=
  .of_performOnAt (exec_adpllFailed x t s) hp (pllFailed_shows h hf rfl)

end Commands

/-- Settles O24: the ends of a search, of a lock and of QUALIFY, and an ADPLL that fails. -/
theorem adpllStates : Obligations.AdpllStates := by
  unfold Obligations.AdpllStates
  exact fun s x t hp => ⟨fun band code h => ⟨searchDone_failed hp band code h, searchDone_succeeds hp band code h⟩, btMiss_answers hp,
    fun code h => adpllLocked_answers hp code h, qualified_answers hp, adpllFailed_answers hp⟩

end Sys2Proof
end

