-- ==== Sys2Proof/Proofs/HeldKept.lean ====
section
/-! SUPPORT. The accesses that wait for the core domain and whether the host's link is there, and the operations that leave both as they are:
one lemma for each. -/

namespace Sys2Proof.Machine

/-- The accesses held for the core domain, and the state of the host's link. -/
def State.parked (s : State) : List Held × Option (Nat × Nat) := (s.held, s.hrv.link)

/-- What each step of a fold leaves, the fold leaves. -/
@[simp] theorem foldl_parked {α : Type} (g : State → α → State) (l : List α) (s : State) (h : ∀ u a, (g u a).parked = u.parked) :
    (l.foldl g s).parked = s.parked := by
  induction l generalizing s with
  | nil => rfl
  | cons a r ih => rw [List.foldl_cons, ih, h]

@[simp] theorem State.parked_mk (b f c h fr g i t d ta cl tr ac hd re si ti dm ra hr st gr hk pw bb jt near deep scr nv po dp ce mt mp mi ir pe) :
    (State.mk b f c h fr g i t d ta cl tr ac hd re si ti dm ra hr st gr hk pw bb jt near deep scr nv po dp ce mt mp mi ir pe).parked
      = (h, hr.link) := by rfl
@[simp] theorem State.parked_ite (c : Prop) [Decidable c] (a b : State) : (if c then a else b).parked = if c then a.parked else b.parked :=
  apply_ite _ _ _ _
@[simp] theorem State.parked_eta (s : State) : (s.held, s.hrv.link) = s.parked := by rfl

/-! What storing a capture leaves holds them. -/

theorem parked_of_apart {s u : State} (h : u.apart = s.apart) : u.parked = s.parked := (congrArg (fun a => (a.held, a.hrv.link)) h :)
theorem parked_of_unopen {s u : State} (h : u.apart.unopen = s.apart.unopen) : u.parked = s.parked :=
  (congrArg (fun a => (a.held, a.hrv.link)) h :)
theorem parked_of_unstat {s u : State} (h : u.apart.unopen.unstat = s.apart.unopen.unstat) : u.parked = s.parked :=
  (congrArg (fun a => (a.held, a.hrv.link)) h :)
theorem parked_of_untrl {s u : State} (h : u.apart.unopen.unstat.untrl = s.apart.unopen.unstat.untrl) : u.parked = s.parked :=
  (congrArg (fun a => (a.held, a.hrv.link)) h :)
theorem parked_of_unhdg {s u : State} (h : u.apart.unopen.unstat.untrl.unhdg = s.apart.unopen.unstat.untrl.unhdg) : u.parked = s.parked :=
  (congrArg (fun a => (a.held, a.hrv.link)) h :)

@[simp] theorem State.wr_parked (s : State) (f : Fld) (v : Nat) : (State.wr s f v).parked = s.parked := by simp [State.wr]

@[simp] theorem State.wrS_parked (s : State) (f : Fld) (i : Int) : (State.wrS s f i).parked = s.parked := by rfl

@[simp] theorem State.bump_parked (s : State) (f : Fld) : (State.bump s f).parked = s.parked := by rfl

@[simp] theorem State.addF_parked (s : State) (f : Fld) (n : Nat) : (State.addF s f n).parked = s.parked := by rfl

@[simp] theorem State.addSat_parked (s : State) (f : Fld) (n : Nat) : (State.addSat s f n).parked = s.parked := by rfl

@[simp] theorem State.orF_parked (s : State) (f : Fld) (v : Nat) : (State.orF s f v).parked = s.parked := by rfl

@[simp] theorem State.clrF_parked (s : State) (f : Fld) (v : Nat) : (State.clrF s f v).parked = s.parked := by rfl

@[simp] theorem State.draw_parked (s : State) (n : Nat) : (State.draw s n).2.parked = s.parked := by rfl

@[simp] theorem State.activates_parked (n : Nat) (s : State) : (State.activates n s).parked = s.parked := by simp [State.activates]

@[simp] theorem State.granted_parked (wait : Nat) (s : State) : (State.granted wait s).parked = s.parked := by simp [State.granted]

@[simp] theorem State.advance_parked (s : State) (t : Nat) : (State.advance s t).parked = s.parked := by simp [State.advance]

@[simp] theorem State.bbox_parked (s : State) (code src detail : Nat) : (State.bbox s code src detail).parked = s.parked := by simp [State.bbox]

@[simp] theorem State.raiseEvent_parked (s : State) (e : Nat) : (State.raiseEvent s e).parked = s.parked := by simp [State.raiseEvent]

@[simp] theorem State.bbxFreeze_parked (s : State) (cause : Nat) : (State.bbxFreeze s cause).parked = s.parked := by simp [State.bbxFreeze]

@[simp] theorem State.regrid_parked (s : State) (p kt40 : Nat) : (State.regrid s p kt40).parked = s.parked := by rfl

@[simp] theorem State.retime_parked (s : State) : (State.retime s).parked = s.parked := by simp [State.retime]

@[simp] theorem State.nearCorrected_parked (s : State) : (State.nearCorrected s).parked = s.parked := by rfl

@[simp] theorem State.nearUncorr_parked (s : State) (a : Nat) : (State.nearUncorr s a).parked = s.parked :=
  parked_of_apart (State.nearUncorr_apart s a)

@[simp] theorem State.scrUncorr_parked (s : State) (a : Nat) : (State.scrUncorr s a).parked = s.parked := by simp [State.scrUncorr]

@[simp] theorem State.cellRead_parked (s : State) (target a n : Nat) : (State.cellRead s target a n).parked = s.parked := by
  unfold State.cellRead
  (repeat' split) <;> simp

@[simp] theorem State.nearSync_parked (s : State) : (State.nearSync s).parked = s.parked :=
  parked_of_apart (State.nearSync_apart s)

@[simp] theorem State.ringMeet_parked (s : State) (f a b : Nat) : (State.ringMeet s f a b).parked = s.parked := by
  simp only [State.ringMeet]
  refine foldl_parked _ _ _ fun u w => foldl_parked _ _ _ fun v _ => ?_
  split <;> simp

@[simp] theorem State.ringNow_parked (n : Nat) (s : State) : (State.ringNow n s).parked = s.parked := by simp [State.ringNow]

@[simp] theorem State.ringsArm_parked (s : State) : (State.ringsArm s).parked = s.parked := by
  unfold State.ringsArm
  exact foldl_parked _ _ _ fun _ _ => by simp

@[simp] theorem State.ringStart_parked (s : State) : (State.ringStart s).parked = s.parked := by rfl

@[simp] theorem State.deepPut_parked (s : State) (a : Nat) (bs : List Byte) : (State.deepPut s a bs).parked = s.parked :=
  parked_of_apart (State.deepPut_apart s a bs)

@[simp] theorem State.capWrite_parked (s : State) (w : CapW) : (State.capWrite s w).parked = s.parked :=
  parked_of_apart (State.capWrite_apart s w)

@[simp] theorem State.wrote_parked (s : State) (src size n : Nat) : (State.wrote s src size n).parked = s.parked := by rfl

@[simp] theorem State.drainedRecs_parked (s : State) (r : Rec) : (State.drainedRecs s r).1.parked = s.parked := by
  unfold State.drainedRecs
  exact foldl_parked _ _ _ fun _ _ => by simp

@[simp] theorem State.drained_parked (s : State) (r : Rec) : (State.drained s r).1.parked = s.parked := by
  unfold State.drained
  (repeat' split) <;> simp

@[simp] theorem State.lead_parked (s : State) (r : Rec) : (State.lead s r).parked = s.parked := by simp [State.lead]

@[simp] theorem State.event_parked (s : State) (r : Rec) : (State.event s r).parked = s.parked := by
  unfold State.event
  split <;> simp

@[simp] theorem State.mark_parked (s : State) (kt kind code ch x y n detail : Nat) (coarse : Bool) :
    (State.mark s kt kind code ch x y n detail coarse).parked = s.parked := by simp [State.mark]

@[simp] theorem State.markTrellis_parked (s : State) (kt code ch level branch : Nat) (coarse : Bool) :
    (State.markTrellis s kt code ch level branch coarse).parked = s.parked := by
  unfold State.markTrellis
  split <;> simp

@[simp] theorem State.susUntil_parked (s : State) (key t : Nat) : (State.susUntil s key t).parked = s.parked := by simp [State.susUntil]

@[simp] theorem State.susPrune_parked (s : State) (t : Nat) : (State.susPrune s t).parked = s.parked := by simp [State.susPrune]

@[simp] theorem State.addUnit_parked (s : State) (u : RUnit) : (State.addUnit s u).parked = s.parked := by simp [State.addUnit]

@[simp] theorem State.setRu_parked (s : State) (n : Nat) (r : Ru) : (State.setRu s n r).parked = s.parked := by rfl

@[simp] theorem State.redShut_parked (s : State) (n : Nat) : (State.redShut s n).parked = s.parked := by rfl

@[simp] theorem State.redLose_parked (s : State) (n k : Nat) : (State.redLose s n k).parked = s.parked := by simp [State.redLose]

@[simp] theorem State.redClose_parked (s : State) (n : Nat) : (State.redClose s n).parked = s.parked :=
  parked_of_apart (State.redClose_apart s n)

@[simp] theorem State.redUpTo_parked (s : State) (n p : Nat) : (State.redUpTo s n p).parked = s.parked :=
  parked_of_apart (State.redUpTo_apart s n p)

@[simp] theorem State.redStart1_parked (p : Nat) (s : State) (n : Nat) : (State.redStart1 p s n).parked = s.parked := by simp [State.redStart1]

@[simp] theorem State.redStart_parked (s : State) (p : Nat) : (State.redStart s p).parked = s.parked :=
  parked_of_apart (State.redStart_apart s p)

@[simp] theorem State.redArm1_parked (s : State) (n : Nat) : (State.redArm1 s n).parked = s.parked := by rfl

@[simp] theorem State.redArm_parked (s : State) : (State.redArm s).parked = s.parked := by
  unfold State.redArm
  exact foldl_parked _ _ _ fun _ _ => by simp

@[simp] theorem State.setSlot_parked (s : State) (n : Nat) (x : Slot) : (State.setSlot s n x).parked = s.parked := by rfl

@[simp] theorem State.timDiscard_parked (s : State) (n : Nat) : (State.timDiscard s n).parked = s.parked := by simp [State.timDiscard]

@[simp] theorem State.recPace_parked (s : State) (n t : Nat) (u : RUnit) (ends : List (Nat × Stamp)) :
    (State.recPace s n t u ends).parked = s.parked := by rfl

@[simp] theorem State.timRecord_parked (s : State) (n t t0 cnt : Nat) (value : Int) (s0 sres sus : Bool) (ends : List (Nat × Stamp)) :
    (State.timRecord s n t t0 cnt value s0 sres sus ends).parked = s.parked := by simp [State.timRecord]

@[simp] theorem State.timWrite_parked (due : Nat × RUnit → Bool) (s : State) : (State.timWrite due s).parked = s.parked := by
  unfold State.timWrite
  exact foldl_parked _ _ _ fun _ _ => by simp

@[simp] theorem State.timMeasure_parked (s : State) (n : Nat) (a b : Stamp) :
    (State.timMeasure s n a b).parked = s.parked := by simp [State.timMeasure]

@[simp] theorem State.signedPair_parked (n fuel : Nat) (u : State) : (State.signedPair n fuel u).parked = u.parked := by
  induction fuel generalizing u with
  | zero => rfl
  | succ k ih =>
    simp only [State.signedPair]
    (repeat' split) <;> simp [ih]

@[simp] theorem State.fwdStart_parked (s : State) (n : Nat) (e : Stamp) : (State.fwdStart s n e).parked = s.parked := by simp [State.fwdStart]

@[simp] theorem State.fwdStop_parked (s : State) (n : Nat) (e : Stamp) : (State.fwdStop s n e).parked = s.parked := by
  simp only [State.fwdStop]
  (repeat' split) <;> simp

@[simp] theorem State.spanMeasure_parked (s : State) (n : Nat) (a e : Stamp) :
    (State.spanMeasure s n a e).parked = s.parked := by simp [State.spanMeasure]

@[simp] theorem State.periodEdge_parked (s : State) (n : Nat) (e : Stamp) : (State.periodEdge s n e).parked = s.parked := by
  simp only [State.periodEdge]
  (repeat' split) <;> simp

@[simp] theorem State.widthEdge_parked (s : State) (n : Nat) (e : Stamp) : (State.widthEdge s n e).parked = s.parked := by
  simp only [State.widthEdge]
  (repeat' split) <;> simp

@[simp] theorem State.gateClose_parked (s : State) (n t : Nat) (next : Option Nat) : (State.gateClose s n t next).parked = s.parked := by
  simp only [State.gateClose]
  (repeat' split) <;> simp

@[simp] theorem State.timedClose_parked (n t fuel : Nat) (u : State) : (State.timedClose n t fuel u).parked = u.parked := by
  induction fuel generalizing u with
  | zero => rfl
  | succ k ih =>
    simp only [State.timedClose]
    (repeat' split) <;> simp [ih]

@[simp] theorem State.gateEdgeIn_parked (s : State) (n : Nat) (e : Stamp) : (State.gateEdgeIn s n e).parked = s.parked := by
  simp only [State.gateEdgeIn]
  (repeat' split) <;> simp

@[simp] theorem State.slotEdge_parked (n : Nat) (s : State) (ce : Nat × Stamp) : (State.slotEdge n s ce).parked = s.parked := by
  unfold State.slotEdge
  (repeat' split) <;> simp

@[simp] theorem State.qSync_parked (s : State) : (State.qSync s).parked = s.parked := by simp [State.qSync]

@[simp] theorem State.slotDrop_parked (t : Nat) (s : State) (n : Nat) : (State.slotDrop t s n).parked = s.parked := by simp [State.slotDrop]

@[simp] theorem State.timDrop_parked (t : Nat) (s : State) : (State.timDrop t s).parked = s.parked := by
  unfold State.timDrop
  simp

@[simp] theorem State.lossGap_parked (s : State) (key b : Nat) (l : Loss) : (State.lossGap s key b l).parked = s.parked := by simp [State.lossGap]

@[simp] theorem State.lossOver_parked (t : Nat) (s : State) (key : Nat) : (State.lossOver t s key).parked = s.parked := by
  unfold State.lossOver
  split <;> simp

@[simp] theorem State.lossNext_parked (s : State) (key t : Nat) : (State.lossNext s key t).parked = s.parked := by
  simp only [State.lossNext]
  (repeat' split) <;> simp [foldl_parked]

@[simp] theorem State.lossStop_parked (t : Nat) (s : State) : (State.lossStop t s).parked = s.parked := by
  unfold State.lossStop
  exact foldl_parked _ _ _ fun _ _ => by simp

@[simp] theorem State.timLose_parked (s : State) (key : Nat) (e : Stamp) : (State.timLose s key e).parked = s.parked := by
  simp only [State.timLose]
  (repeat' split) <;> simp

@[simp] theorem State.timNote_parked (s : State) (key t : Nat) : (State.timNote s key t).parked = s.parked := by simp [State.timNote]

@[simp] theorem State.qMax_parked (s : State) (c d : Nat) : (State.qMax s c d).parked = s.parked := by simp [State.qMax]

@[simp] theorem State.timArm_parked (s : State) : (State.timArm s).parked = s.parked := by
  unfold State.timArm
  (repeat' split) <;> simp

@[simp] theorem State.timStart_parked (s : State) (t : Nat) : (State.timStart s t).parked = s.parked := by simp [State.timStart]

@[simp] theorem State.timStop_parked (s : State) : (State.timStop s).parked = s.parked := by rfl

@[simp] theorem State.gateInput_parked (s : State) (g : Nat) (e : Stamp) : (State.gateInput s g e).parked = s.parked := by
  unfold State.gateInput
  (repeat' split) <;> simp

@[simp] theorem State.timHold_parked (s : State) (es : List HeldE) : (State.timHold s es).parked = s.parked := by simp [State.timHold]

@[simp] theorem State.timAll_parked (t : Nat) (s : State) : (State.timAll t s).parked = s.parked :=
  parked_of_apart (State.timAll_apart t s)

@[simp] theorem State.setSiv_parked (s : State) (q : Siv) : (State.setSiv s q).parked = s.parked := by rfl

@[simp] theorem State.sivSeq_parked (s : State) (p : Nat) : (State.sivSeq s p).parked = s.parked := by simp [State.sivSeq]

@[simp] theorem State.sivArm_parked (s : State) : (State.sivArm s).parked = s.parked := by simp [State.sivArm]

@[simp] theorem State.sivCut_parked (s : State) (p : Nat) : (State.sivCut s p).parked = s.parked :=
  parked_of_apart (State.sivCut_apart s p)

@[simp] theorem State.trlCheck_parked (s : State) : (State.trlCheck s).parked = s.parked := by rfl

@[simp] theorem State.hdgCheck_parked (s : State) : (State.hdgCheck s).parked = s.parked := by rfl

@[simp] theorem State.armReport_parked (s : State) : (State.armReport s).parked = s.parked := by
  unfold State.armReport
  (repeat' split) <;> simp

@[simp] theorem State.dskCompute_parked (s : State) (ch : Nat) : (State.dskCompute s ch).parked = s.parked := by rfl

@[simp] theorem State.dskPend_parked (s : State) (p : Pend) : (State.dskPend s p).parked = s.parked := by rfl

@[simp] theorem State.dskTake_parked (s : State) (p : Pend) : (State.dskTake s p).parked = s.parked := by
  unfold State.dskTake
  split <;> simp

@[simp] theorem State.dskApply_parked (s : State) : (State.dskApply s).1.parked = s.parked := by
  unfold State.dskApply
  exact foldl_parked _ _ _ fun _ _ => by simp

@[simp] theorem State.calOut_parked (s : State) (r : Rec) : (State.calOut s r).parked = s.parked := by simp [State.calOut]

@[simp] theorem State.forceGone_parked (s : State) : (State.forceGone s).parked = s.parked := by rfl

@[simp] theorem State.gatherAbort_parked (s : State) (why : Nat) : (State.gatherAbort s why).parked = s.parked := by
  simp only [State.gatherAbort]
  (repeat' split) <;> simp [foldl_parked]

@[simp] theorem State.gatherStart_parked (s : State) : (State.gatherStart s).parked = s.parked := by simp [State.gatherStart]

@[simp] theorem State.gatherSuspect_parked (s : State) : (State.gatherSuspect s).parked = s.parked := by
  unfold State.gatherSuspect
  split <;> simp

@[simp] theorem State.gatherCtl_parked (s : State) (start abort : Bool) :
    (State.gatherCtl s start abort).parked = s.parked := by simp [State.gatherCtl]

@[simp] theorem State.resArm_parked (s : State) : (State.resArm s).parked = s.parked := by rfl

@[simp] theorem State.laneRegs_parked (s : State) (g : Nat) : (State.laneRegs s g).parked = s.parked := by rfl

@[simp] theorem State.putLanes_parked (s : State) (g : Nat) (ls : List Lane) : (State.putLanes s g ls).parked = s.parked := by rfl

@[simp] theorem State.laneRestart_parked (s : State) : (State.laneRestart s).parked = s.parked := by simp [State.laneRestart]

@[simp] theorem State.laneTake_parked (s : State) (l : Lane) : (State.laneTake s l).parked = s.parked := by simp [State.laneTake]

@[simp] theorem State.laneSwap_parked (s : State) : (State.laneSwap s).1.parked = s.parked := by
  unfold State.laneSwap
  exact foldl_parked _ _ _ fun _ _ => by simp

@[simp] theorem State.takeDelays_parked (s : State) : (State.takeDelays s).parked = s.parked := by
  unfold State.takeDelays
  exact foldl_parked _ _ _ fun _ _ => by simp

@[simp] theorem State.trlStart_parked (s : State) (k : Nat) : (State.trlStart s k).parked = s.parked := by
  simp only [State.trlStart, State.parked_mk, State.parked_eta, State.wr_parked]
  exact foldl_parked _ _ _ fun u n => u.wr_parked _ _

@[simp] theorem State.restartAt_parked (s : State) (k : Nat) : (State.restartAt s k).parked = s.parked := by
  unfold State.restartAt
  split <;> simp

@[simp] theorem State.gapDone_parked (s : State) (lost : Nat) : (State.gapDone s lost).parked = s.parked := by
  simp only [State.gapDone]
  (repeat' split) <;> simp

@[simp] theorem State.openSeg_parked (s : State) (g0 : Seg) (n : Nat) (ls : List Nat) : (State.openSeg s g0 n ls).parked = s.parked :=
  parked_of_unopen (State.openSeg_unopen s g0 n ls)

@[simp] theorem State.dropOpening_parked (s : State) : (State.dropOpening s).parked = s.parked := by
  simp only [State.dropOpening]
  (repeat' split) <;> simp [foldl_parked]

@[simp] theorem State.stallGap_parked (s : State) (g : Seg) (e t : Nat) : (State.stallGap s g e t).parked = s.parked := by
  unfold State.stallGap
  split <;> simp

@[simp] theorem State.freePlace_parked (s : State) (i : Nat) : (State.freePlace s i).parked = s.parked := by
  unfold State.freePlace
  (repeat' split) <;> simp

@[simp] theorem State.stGap_parked (t : Nat) (s : State) (j : Nat) : (State.stGap t s j).parked = s.parked := by
  unfold State.stGap
  split <;> simp

@[simp] theorem State.segGone_parked (s : State) (g : Seg) (a b kEnd u : Nat) (full : Bool) :
    (State.segGone s g a b kEnd u full).parked = s.parked := by simp [State.segGone]

@[simp] theorem State.closeSeg_parked (s : State) (cause e t past : Nat) : (State.closeSeg s cause e t past).parked = s.parked :=
  parked_of_unopen (State.closeSeg_unopen s cause e t past)

@[simp] theorem State.trigRegs_parked (s : State) (x : Trig) : (State.trigRegs s x).parked = s.parked := by rfl

@[simp] theorem State.trigger_parked (s : State) (x : Trig) (k : Nat) : (State.trigger s x k).parked = s.parked :=
  parked_of_unstat (State.trigger_unstat s x k)

@[simp] theorem State.putPort_parked (s : State) (n : Nat) (g : GPort) : (State.putPort s n g).parked = s.parked := by rfl

@[simp] theorem State.portTo_parked (s : State) (n st : Nat) : (State.portTo s n st).parked = s.parked := by simp [State.portTo]

@[simp] theorem State.portEval_parked (n : Nat) (s : State) : (State.portEval n s).parked = s.parked := by simp [State.portEval]

@[simp] theorem State.portsEval_parked (s : State) : (State.portsEval s).parked = s.parked := by
  unfold State.portsEval
  exact foldl_parked _ _ _ fun _ _ => by simp

@[simp] theorem State.grfDrop_parked (s : State) (n : Nat) : (State.grfDrop s n).parked = s.parked := by rfl

@[simp] theorem State.sendTrig_parked (s : State) (n bits t : Nat) (own : Bool) : (State.sendTrig s n bits t own).1.parked = s.parked := by
  simp only [State.sendTrig]
  (repeat' split) <;> simp

@[simp] theorem State.grfXtrig_parked (s : State) (mask mark : Nat) (coarse : Bool) (kt t : Nat) :
    (State.grfXtrig s mask mark coarse kt t).parked = s.parked := by
  have hsend : ∀ (bits : Nat) (l : List Nat) (p : State × Bool),
      (l.foldl (fun (p : State × Bool) n =>
        if bit mask n then ((p.1.sendTrig n bits t true).1, p.2 || (p.1.sendTrig n bits t true).2) else p) p).1.parked = p.1.parked :=
    fun b l p => by
      induction l generalizing p with
      | nil => rfl
      | cons a r ih =>
        rw [List.foldl_cons, ih]
        split <;> simp
  unfold State.grfXtrig
  split
  · rfl
  · dsimp only
    split <;> simp [hsend]

@[simp] theorem State.ofsCheck_parked (s : State) (n : Nat) : (State.ofsCheck s n).parked = s.parked := by simp [State.ofsCheck]

@[simp] theorem State.actCt_parked (s : State) (l b : Nat) : (State.actCt s l b).parked = s.parked := by simp [State.actCt]

@[simp] theorem State.actTm_parked (s : State) (l b k t : Nat) : (State.actTm s l b k t).parked = s.parked := by simp [State.actTm]

@[simp] theorem State.actQual_parked (s : State) (l b k : Nat) : (State.actQual s l b k).parked = s.parked := by simp [State.actQual]

@[simp] theorem State.pulse_parked (s : State) (t n : Nat) : (State.pulse s t n).parked = s.parked := by simp [State.pulse]

@[simp] theorem State.actXtrig_parked (s : State) (x : Taken) : (State.actXtrig s x).parked = s.parked := by
  unfold State.actXtrig
  (repeat' split) <;> simp

@[simp] theorem State.actMark_parked (s : State) (x : Taken) : (State.actMark s x).parked = s.parked := by simp [State.actMark]

@[simp] theorem State.act_parked (k : Nat) (s : State) (x : Taken) : (State.act k s x).parked = s.parked := by simp [State.act]

@[simp] theorem State.putRule_parked (s : State) (n : Nat) (r : Rule) : (State.putRule s n r).parked = s.parked := by rfl

@[simp] theorem State.seenTo_parked (t : Nat) (s : State) : (State.seenTo t s).parked = s.parked :=
  parked_of_unhdg (State.seenTo_unhdg t s)

@[simp] theorem State.openTo_parked (t : Nat) (s : State) : (State.openTo t s).parked = s.parked :=
  parked_of_unhdg (State.openTo_unhdg t s)

@[simp] theorem State.timKeep_parked (s : State) : (State.timKeep s).parked = s.parked :=
  parked_of_apart (State.timKeep_apart s)

@[simp] theorem State.enterStopping_parked (s : State) (cause p t : Nat) : (State.enterStopping s cause p t).parked = s.parked :=
  parked_of_untrl (State.enterStopping_untrl s cause p t)

@[simp] theorem State.armClear_parked (s : State) : (State.armClear s).parked = s.parked := by
  have hregs : ∀ (l : List Fld) (u : State), (l.foldl (fun s f => s.wr f 0) u).parked = u.parked := fun l u =>
    foldl_parked _ _ _ fun v f => v.wr_parked f 0
  simp only [State.armClear, State.parked_mk, State.parked_eta, State.ringsArm_parked, State.resArm_parked, State.timArm_parked, State.sivArm_parked,
    State.redArm_parked]
  rw [foldl_parked _ _ _ fun u n => u.wr_parked _ _, hregs]

@[simp] theorem State.susFresh_parked (s : State) : (State.susFresh s).parked = s.parked := by simp [State.susFresh]

@[simp] theorem State.armRequest_parked (s : State) (t : Nat) : (State.armRequest s t).parked = s.parked := by
  unfold State.armRequest
  (repeat' split) <;> simp

@[simp] theorem State.relevel_parked (s : State) (t : Nat) : (State.relevel s t).parked = s.parked := by simp [State.relevel]

@[simp] theorem State.latchTime_parked (s : State) (ch t : Nat) (m0 : Bool) :
    (State.latchTime s ch t m0).parked = s.parked := by simp [State.latchTime]

@[simp] theorem State.latchSet_parked (s : State) (ch t : Nat) (m0 : Bool) :
    (State.latchSet s ch t m0).parked = s.parked := by simp [State.latchSet]

@[simp] theorem State.latchClear_parked (s : State) (ch t : Nat) : (State.latchClear s ch t).parked = s.parked := by
  unfold State.latchClear
  split <;> simp

@[simp] theorem State.perRestart_parked (s : State) (ch : Nat) : (State.perRestart s ch).parked = s.parked := by rfl

@[simp] theorem State.perSync_parked (s : State) : (State.perSync s).parked = s.parked := by rfl

@[simp] theorem State.logAdd_parked (s : State) (ch v t : Nat) (edge sres : Bool) :
    (State.logAdd s ch v t edge sres).parked = s.parked := by simp [State.logAdd]

@[simp] theorem State.enterUnres_parked (s : State) (ch t e : Nat) : (State.enterUnres s ch t e).parked = s.parked := by simp [State.enterUnres]

@[simp] theorem State.thrWritten_parked (s : State) (ch : Nat) (changed : Bool) :
    (State.thrWritten s ch changed).parked = s.parked := by simp [State.thrWritten]

@[simp] theorem State.pchkStart_parked (s : State) (t : Nat) (atArm task : Bool) : (State.pchkStart s t atArm task).parked = s.parked := by rfl

@[simp] theorem State.pchkRequest_parked (s : State) : (State.pchkRequest s).parked = s.parked := by simp [State.pchkRequest]

@[simp] theorem State.pchkStore_parked (s : State) (e : Nat × Nat × Int × Int) : (State.pchkStore s e).parked = s.parked := by rfl

@[simp] theorem State.convertTimes_parked (s : State) : (State.convertTimes s).parked = s.parked := by
  unfold State.convertTimes
  exact foldl_parked _ _ _ fun _ _ => by simp

@[simp] theorem State.setLoop_parked (s : State) (v : Int) : (State.setLoop s v).parked = s.parked := by rfl

@[simp] theorem State.leaveLock_parked (s : State) : (State.leaveLock s).parked = s.parked := by simp [State.leaveLock]

@[simp] theorem State.toHoldover_parked (s : State) : (State.toHoldover s).parked = s.parked := by simp [State.toHoldover]

@[simp] theorem State.refEval_parked (s : State) : (State.refEval s).parked = s.parked := by simp [State.refEval]

@[simp] theorem State.srcWritten_parked (s : State) : (State.srcWritten s).parked = s.parked := by simp [State.srcWritten]

@[simp] theorem State.epochCtl_parked (s : State) (load cancel : Bool) :
    (State.epochCtl s load cancel).parked = s.parked := by simp [State.epochCtl]

@[simp] theorem State.refOutSync_parked (s : State) : (State.refOutSync s).parked = s.parked := by rfl

@[simp] theorem State.tmbWake_parked (s : State) : (State.tmbWake s).parked = s.parked := by simp [State.tmbWake]

@[simp] theorem State.putPll_parked (s : State) (x : Nat) (p : PllSt) : (State.putPll s x p).parked = s.parked := by simp [State.putPll]

@[simp] theorem State.pllTo_parked (s : State) (x st : Nat) : (State.pllTo s x st).parked = s.parked := by simp [State.pllTo]

@[simp] theorem State.susDone_parked (s : State) (t x y : Nat) : (State.susDone s t x y).parked = s.parked := by rfl

@[simp] theorem State.pllUnsus_parked (s : State) (x t : Nat) : (State.pllUnsus s x t).parked = s.parked := by rfl

@[simp] theorem State.extUnsus_parked (s : State) (t : Nat) : (State.extUnsus s t).parked = s.parked := by rfl

@[simp] theorem State.qualEnd_parked (s : State) (t : Nat) : (State.qualEnd s t).parked = s.parked := by
  unfold State.qualEnd
  split <;> simp

@[simp] theorem State.qualFrom_parked (s : State) (t : Nat) : (State.qualFrom s t).parked = s.parked := by rfl

@[simp] theorem State.startLock_parked (s : State) (x : Nat) : (State.startLock s x).parked = s.parked := by
  simp only [State.startLock]
  (repeat' split) <;> simp

@[simp] theorem State.startAgain_parked (s : State) (x : Nat) : (State.startAgain s x).parked = s.parked := by simp [State.startAgain]

@[simp] theorem State.hopFlags_parked (s : State) : (State.hopFlags s).parked = s.parked := by simp [State.hopFlags]

@[simp] theorem State.gatherHop_parked (s : State) : (State.gatherHop s).parked = s.parked := by
  unfold State.gatherHop
  split <;> simp

@[simp] theorem State.setTarget_parked (s : State) (x f : Nat) : (State.setTarget s x f).parked = s.parked := by rfl

@[simp] theorem State.hopForceNow_parked (s : State) : (State.hopForceNow s).parked = s.parked := by
  unfold State.hopForceNow
  split <;> simp

@[simp] theorem State.hopForce_parked (s : State) : (State.hopForce s).parked = s.parked := by
  unfold State.hopForce
  split <;> simp

@[simp] theorem State.hopRequest_parked (s : State) (x f : Nat) : (State.hopRequest s x f).parked = s.parked := by simp [State.hopRequest]

@[simp] theorem State.hopCtl_parked (s : State) (start cancel force : Bool) :
    (State.hopCtl s start cancel force).parked = s.parked := by simp [State.hopCtl]

@[simp] theorem State.measPut_parked (s : State) (x v : Nat) : (State.measPut s x v).parked = s.parked := by rfl

@[simp] theorem State.measNew_parked (s : State) (x : Nat) : (State.measNew s x).parked = s.parked := by
  simp only [State.measNew]
  (repeat' split) <;> simp

@[simp] theorem State.srcRequest_parked (s : State) (src : Nat) : (State.srcRequest s src).parked = s.parked := by simp [State.srcRequest]

@[simp] theorem State.extTrack_parked (s : State) : (State.extTrack s).parked = s.parked := by simp [State.extTrack]

@[simp] theorem State.migPlace_parked (p : Nat) (s : State) : (State.migPlace p s).parked = s.parked := by rfl

@[simp] theorem State.pcRetired_parked (p : Nat) (s : State) : (State.pcRetired p s).parked = s.parked := by rfl

@[simp] theorem State.migPaced_parked (s : State) (t : Nat) : (State.migPaced s t).parked = s.parked := by rfl

@[simp] theorem State.migNow_parked (s : State) : (State.migNow s).parked = s.parked := by simp [State.migNow]

@[simp] theorem State.migNext_parked (s : State) : (State.migNext s).parked = s.parked := by
  unfold State.migNext
  split <;> simp

@[simp] theorem State.deepCorrected_parked (s : State) (a : Nat) : (State.deepCorrected s a).parked = s.parked := by rfl

@[simp] theorem State.deepUncorr_parked (s : State) (a : Nat) : (State.deepUncorr s a).parked = s.parked := by
  rw [State.deepUncorr]
  exact (State.bbox_parked _ _ _ _).trans rfl

@[simp] theorem State.dmcInitStart_parked (s : State) : (State.dmcInitStart s).parked = s.parked := by rfl

@[simp] theorem State.dmcInit_parked (s : State) : (State.dmcInit s).parked = s.parked := by simp [State.dmcInit]

@[simp] theorem State.bar2Errors_parked (a len : Nat) (corr uncorr : List Nat) (s : State) :
    (State.bar2Errors a len corr uncorr s).parked = s.parked := by
  unfold State.bar2Errors
  (repeat' split) <;> simp

@[simp] theorem State.bar2Grant_parked (s : State) (a n wait : Nat) : (State.bar2Grant s a n wait).parked = s.parked := by simp [State.bar2Grant]

@[simp] theorem State.rakeShow_parked (s : State) : (State.rakeShow s).parked = s.parked := by simp [State.rakeShow]

@[simp] theorem State.rakeRequeue_parked (target : Nat) (s : State) : (State.rakeRequeue target s).parked = s.parked := by rfl

@[simp] theorem State.preempted_parked (target : Nat) (s : State) : (State.preempted target s).parked = s.parked := by simp [State.preempted]

@[simp] theorem State.linkUsed_parked (s : State) : (State.linkUsed s).parked = s.parked := by rfl

@[simp] theorem State.signal_parked (v : Nat) (s : State) : (State.signal v s).parked = s.parked := by simp [State.signal]

@[simp] theorem State.pbaSync_parked (s : State) : (State.pbaSync s).parked = s.parked := by
  unfold State.pbaSync
  (repeat' split) <;> simp

@[simp] theorem State.msxWrite_parked (w v : Nat) (s : State) : (State.msxWrite w v s).parked = s.parked := by simp [State.msxWrite]

@[simp] theorem State.setRing_parked (s : State) (n : Nat) (r : Machine.Ring) : (State.setRing s n r).parked = s.parked := by rfl

@[simp] theorem State.hostPut_parked (s : State) (relaxed : Bool) (a : Nat) (bs : List Byte) :
    (State.hostPut s relaxed a bs).parked = s.parked := by rfl

@[simp] theorem State.cqSignal_parked (m : Nat) (s : State) : (State.cqSignal m s).parked = s.parked := by simp [State.cqSignal]

@[simp] theorem State.cqWrite_parked (n : Nat) (c : Nat × Nat × Nat) (s : State) : (State.cqWrite n c s).parked = s.parked := by
  simp only [State.cqWrite]
  (repeat' split) <;> simp

@[simp] theorem State.finish_parked (n status cflags info : Nat) (s : State) :
    (State.finish n status cflags info s).parked = s.parked := by simp [State.finish]

@[simp] theorem State.badFront_parked (n : Nat) (s : State) (fuel : Nat) : (State.badFront n s fuel).parked = s.parked := by
  induction fuel generalizing s with
  | zero => rfl
  | succ k ih =>
    simp only [State.badFront]
    (repeat' split) <;> simp [ih]

@[simp] theorem State.bufCopy_parked (n : Nat) (deep : Bool) (a m : Nat) (s : State) : (State.bufCopy n deep a m s).parked = s.parked := by
  simp only [State.bufCopy]
  (repeat' split) <;> simp

@[simp] theorem State.pass_parked (n src a m : Nat) (s : State) : (State.pass n src a m s).parked = s.parked := by simp [State.pass]

@[simp] theorem State.deliver_parked (n : Nat) (s : State) (fuel : Nat) : (State.deliver n s fuel).parked = s.parked := by
  induction fuel generalizing s with
  | zero => rfl
  | succ k ih =>
    simp only [State.deliver]
    (repeat' split) <;> simp [ih]

@[simp] theorem State.deliverAll_parked (s : State) : (State.deliverAll s).parked = s.parked := by
  unfold State.deliverAll
  split
  · rfl
  · refine foldl_parked _ _ _ fun u n => ?_
    (repeat' split) <;> simp

@[simp] theorem State.hrvArm_parked (s : State) : (State.hrvArm s).parked = s.parked := by
  unfold State.hrvArm
  simp
  rfl

@[simp] theorem State.hrvIdle_parked (s : State) : (State.hrvIdle s).parked = s.parked := by
  unfold State.hrvIdle
  exact foldl_parked _ _ _ fun _ _ => by simp

@[simp] theorem State.streamDone_parked (s : State) : (State.streamDone s).parked = s.parked := by
  unfold State.streamDone
  (repeat' split) <;> simp

@[simp] theorem State.ringStop_parked (n status : Nat) (s : State) : (State.ringStop n status s).parked = s.parked := by simp [State.ringStop]

@[simp] theorem State.ringEnable_parked (n : Nat) (was : Bool) (s : State) :
    (State.ringEnable n was s).parked = s.parked := by simp [State.ringEnable]

@[simp] theorem State.cqFreed_parked (m : Nat) (s : State) : (State.cqFreed m s).parked = s.parked := by
  unfold State.cqFreed
  split
  · rfl
  · refine foldl_parked _ _ _ fun u n => ?_
    (repeat' split) <;> simp

@[simp] theorem State.cqResume_parked (s : State) : (State.cqResume s).parked = s.parked := by
  unfold State.cqResume
  (repeat' split) <;> simp

@[simp] theorem State.configRead_parked (a : Nat) (s : State) : (State.configRead a s).parked = s.parked := by simp [State.configRead]

@[simp] theorem State.configWrite_parked (r : CfgReg) (v : Nat) (s : State) :
    (State.configWrite r v s).parked = s.parked := by simp [State.configWrite]

@[simp] theorem State.m7Go_parked (s : State) (code : Nat) : (State.m7Go s code).parked = s.parked := by simp [State.m7Go]

@[simp] theorem State.m7Start_parked (s : State) (code : Nat) : (State.m7Start s code).parked = s.parked := by simp [State.m7Start]

@[simp] theorem State.dskStart_parked (s : State) (inj tdc : Bool) : (State.dskStart s inj tdc).parked = s.parked := by simp [State.dskStart]

@[simp] theorem State.pchkCtl_parked (s : State) : (State.pchkCtl s).parked = s.parked := by simp [State.pchkCtl]

@[simp] theorem State.markSupply_parked (x t : Nat) (s : State) : (State.markSupply x t s).parked = s.parked := by simp [State.markSupply]

@[simp] theorem State.switchTo_parked (f cause : Nat) (mv : Int) (s : State) :
    (State.switchTo f cause mv s).parked = s.parked := by simp [State.switchTo]

@[simp] theorem State.pwrCtl_parked (v : Nat) (s : State) : (State.pwrCtl v s).parked = s.parked := by simp [State.pwrCtl]

@[simp] theorem State.nvStart_parked (op : Nat) (s : State) : (State.nvStart op s).parked = s.parked := by simp [State.nvStart]

@[simp] theorem State.bbxHostFreeze_parked (s : State) : (State.bbxHostFreeze s).parked = s.parked := by simp [State.bbxHostFreeze]

@[simp] theorem State.bbxThaw_parked (s : State) : (State.bbxThaw s).parked = s.parked := by rfl

@[simp] theorem State.bbxUnfreeze_parked (s : State) : (State.bbxUnfreeze s).parked = s.parked := by simp [State.bbxUnfreeze]

@[simp] theorem State.bbxClear_parked (s : State) : (State.bbxClear s).parked = s.parked := by rfl

@[simp] theorem State.bbxPrep_parked (s : State) : (State.bbxPrep s).parked = s.parked := by
  unfold State.bbxPrep
  split <;> simp

@[simp] theorem State.bbxCtl_parked (v : Nat) (s : State) : (State.bbxCtl v s).parked = s.parked := by simp [State.bbxCtl]

@[simp] theorem State.capture_parked (a : Nat) (s : State) : (State.capture a s).parked = s.parked := by
  unfold State.capture
  split <;> simp

@[simp] theorem State.barRead_parked (a : Nat) (s : State) : (State.barRead a s).2.parked = s.parked := by simp [State.barRead]

@[simp] theorem State.modeWritten_parked (s : State) : (State.modeWritten s).parked = s.parked := by simp [State.modeWritten]

@[simp] theorem State.startEntry_parked (s : State) : (State.startEntry s).parked = s.parked := by simp [State.startEntry]

@[simp] theorem State.wakeStart_parked (s : State) (ch cls kt : Nat) : (State.wakeStart s ch cls kt).parked = s.parked := by
  simp only [State.wakeStart]
  (repeat' split) <;> simp [foldl_parked]

@[simp] theorem State.hostExit_parked (r : HostReq) (s : State) : (State.hostExit r s).parked = s.parked := by simp [State.hostExit]

@[simp] theorem State.storeFld_parked (bm v : Nat) (s : State) (f : Fld) : (State.storeFld bm v s f).parked = s.parked := by
  unfold State.storeFld
  split <;> simp

@[simp] theorem State.storeReg_parked (bm v a : Nat) (s : State) : (State.storeReg bm v a s).parked = s.parked := by
  simp only [State.storeReg]
  (repeat' split) <;> simp [foldl_parked]

@[simp] theorem State.channelBits_parked (v k : Nat) (f : State → Nat → State) (s : State) (hf : ∀ u a, (f u a).parked = u.parked) :
    (State.channelBits v k f s).parked = s.parked := foldl_parked _ _ _ fun u _ => hf u _

@[simp] theorem State.effGlb_parked (p : Port) (a v : Nat) (s : State) : (State.effGlb p a v s).parked = s.parked := by simp [State.effGlb]

@[simp] theorem State.effTmb_parked (a v : Nat) (s : State) : (State.effTmb a v s).parked = s.parked := by simp [State.effTmb]

@[simp] theorem State.effInp_parked (a v bm : Nat) (old s : State) : (State.effInp a v bm old s).parked = s.parked := by
  unfold State.effInp
  (repeat' split) <;> simp

@[simp] theorem State.effDsk_parked (a v : Nat) (s : State) : (State.effDsk a v s).parked = s.parked := by
  unfold State.effDsk
  (repeat' split) <;> simp

@[simp] theorem State.effHrv_parked (a : Nat) (old s : State) : (State.effHrv a old s).parked = s.parked := by simp [State.effHrv]

@[simp] theorem State.hksRun_parked (ofs : Nat) (s : State) : (State.hksRun ofs s).parked = s.parked := by simp [State.hksRun]

@[simp] theorem State.feed0_parked (s : State) : (State.feed0 s).parked = s.parked := by rfl

@[simp] theorem State.effHks_parked (p : Port) (a v : Nat) (s : State) : (State.effHks p a v s).parked = s.parked := by simp [State.effHks]

@[simp] theorem State.reSignal_parked (a : Nat) (s : State) : (State.reSignal a s).parked = s.parked := by simp [State.reSignal]

@[simp] theorem State.readBack_parked (p : Port) (v : Nat) (s : State) : (State.readBack p v s).parked = s.parked := by
  unfold State.readBack
  split <;> simp

@[simp] theorem State.restartDue_parked (s : State) : (State.restartDue s).parked = s.parked := by simp [State.restartDue]

@[simp] theorem State.freshen_parked (s : State) (a : Nat) : (State.freshen s a).parked = s.parked := by
  unfold State.freshen
  split <;> simp

@[simp] theorem State.regRead_parked (s : State) (a : Nat) : (State.regRead s a).2.parked = s.parked := by simp [State.regRead]

@[simp] theorem State.readNow_parked (p : Port) (a : Nat) (s : State) : (State.readNow p a s).parked = s.parked := by simp [State.readNow]

@[simp] theorem State.fetched_parked (s : State) (k : Script) : (State.fetched s k).parked = s.parked := by simp [State.fetched]

@[simp] theorem State.setScript_parked (s : State) (k : Option Script) : (State.setScript s k).parked = s.parked := by simp [State.setScript]

@[simp] theorem State.bootDone_parked (s : State) : (State.bootDone s).parked = s.parked := by rfl

@[simp] theorem State.scriptErr_parked (s : State) (k : Script) (err : Nat) :
    (State.scriptErr s k err).parked = s.parked := by simp [State.scriptErr]

@[simp] theorem State.scriptCheck_parked (s : State) : (State.scriptCheck s).parked = s.parked := by
  unfold State.scriptCheck
  (repeat' split) <;> simp

@[simp] theorem State.startScratch_parked (kind ofs : Nat) (s : State) : (State.startScratch kind ofs s).parked = s.parked := by rfl

@[simp] theorem State.hostScript_parked (s : State) : (State.hostScript s).parked = s.parked := by
  unfold State.hostScript
  split <;> simp

@[simp] theorem State.stepPll_parked (s : State) (x : Nat) : (State.stepPll s x).parked = s.parked := by simp [State.stepPll]

@[simp] theorem State.toStep_parked (s : State) (n : Nat) : (State.toStep s n).parked = s.parked := by rfl

@[simp] theorem State.bootClocks_parked (s : State) : (State.bootClocks s).parked = s.parked := by simp [State.bootClocks]

@[simp] theorem State.bootSource_parked (s : State) : (State.bootSource s).parked = s.parked := by
  unfold State.bootSource
  split <;> simp

@[simp] theorem State.bootNext_parked (s : State) : (State.bootNext s).parked = s.parked := by
  unfold State.bootNext
  (repeat' split) <;> simp

@[simp] theorem State.irqStep_parked (s : State) (i : Nat) : (State.irqStep s i).parked = s.parked := by simp [State.irqStep]

@[simp] theorem State.irqSync_parked (s : State) : (State.irqSync s).parked = s.parked := by
  unfold State.irqSync
  simp

@[simp] theorem State.bootSync_parked (s : State) : (State.bootSync s).parked = s.parked := by simp [State.bootSync]

@[simp] theorem State.seqSync_parked (s : State) : (State.seqSync s).parked = s.parked := by simp [State.seqSync]

@[simp] theorem State.armSync_parked (old s : State) : (State.armSync old s).parked = s.parked := by simp [State.armSync]

@[simp] theorem State.idleSync_parked (old s : State) : (State.idleSync old s).parked = s.parked := by simp [State.idleSync]

@[simp] theorem State.hopSync_parked (s : State) : (State.hopSync s).parked = s.parked := by simp [State.hopSync]
/-! What takes an access or a clock further. -/

@[simp] theorem State.capFlush_parked (s : State) (l : List CapW) : (State.capFlush s l).parked = s.parked := by
  induction l generalizing s with
  | nil => rfl
  | cons w r ih =>
    rw [State.capFlush]
    split
    · rw [ih, State.capWrite_parked]
    · rfl

@[simp] theorem State.redFlush_parked (s : State) : (State.redFlush s).parked = s.parked :=
  foldl_parked _ _ _ fun _ _ => by simp

@[simp] theorem State.upTo_parked (t : Nat) (s : State) : (State.upTo t s).parked = s.parked := by simp [State.upTo]

@[simp] theorem State.keepUp_parked (s : State) : (State.keepUp s).parked = s.parked := by simp [State.keepUp]

@[simp] theorem State.stopAt_parked (s : State) (cause t : Nat) : (State.stopAt s cause t).parked = s.parked :=
  (parked_of_unhdg (s.stopAt_unhdg cause t)).trans (s.advance_parked t)

@[simp] theorem State.startCapture_parked (s : State) (t : Nat) : (State.startCapture s t).parked = s.parked := by
  simp only [State.startCapture]
  (repeat' split) <;> simp

@[simp] theorem State.forceTrig_parked (s : State) : (State.forceTrig s).parked = s.parked := by simp [State.forceTrig]

@[simp] theorem State.relockClose_parked (s : State) (t cause : Nat) : (State.relockClose s t cause).parked = s.parked := by
  simp only [State.relockClose]
  (repeat' split) <;> simp

@[simp] theorem State.relockOpen_parked (s : State) (t : Nat) : (State.relockOpen s t).parked = s.parked := by
  simp only [State.relockOpen]
  (repeat' split) <;> simp

@[simp] theorem State.pchkEnd_parked (s : State) (t : Nat) (abandoned : Bool) : (State.pchkEnd s t abandoned).parked = s.parked := by
  simp only [State.pchkEnd]
  (repeat' split) <;> simp

@[simp] theorem State.pchkAbandon_parked (s : State) (t : Nat) : (State.pchkAbandon s t).parked = s.parked := by
  simp only [State.pchkAbandon]
  (repeat' split) <;> simp

@[simp] theorem State.taskAbandon_parked (s : State) : (State.taskAbandon s).parked = s.parked := by
  simp only [State.taskAbandon]
  (repeat' split) <;> simp

@[simp] theorem State.baseLost_parked (s : State) (t : Nat) : (State.baseLost s t).parked = s.parked := by simp [State.baseLost]

@[simp] theorem State.domClose_parked (s : State) (t cause : Nat) : (State.domClose s t cause).parked = s.parked := by
  simp only [State.domClose]
  (repeat' split) <;> simp

@[simp] theorem State.domOpen_parked (s : State) (t : Nat) : (State.domOpen s t).parked = s.parked := by simp [State.domOpen]

@[simp] theorem State.domEval_parked (s : State) (t cause : Nat) : (State.domEval s t cause).parked = s.parked := by simp [State.domEval]

@[simp] theorem State.pllCtl_parked (s : State) (x : Nat) (en search : Bool) : (State.pllCtl s x en search).parked = s.parked := by
  simp only [State.pllCtl]
  (repeat' split) <;> simp

@[simp] theorem State.extLost_parked (t : Nat) (s : State) : (State.extLost t s).parked = s.parked := by
  simp only [State.extLost]
  (repeat' split) <;> simp

@[simp] theorem State.extFreq_parked (s : State) : (State.extFreq s).parked = s.parked := by simp [State.extFreq]

@[simp] theorem State.hashApply_parked (s : State) : (State.hashApply s).parked = s.parked := by
  simp only [State.hashApply]
  (repeat' split) <;> simp

@[simp] theorem State.pcEmpty_parked (s : State) (p : Nat) : (State.pcEmpty s p).parked = s.parked := by rfl

@[simp] theorem State.pcRetire_parked (p : Nat) (migrate : Bool) (s : State) : (State.pcRetire p migrate s).parked = s.parked := by
  simp only [State.pcRetire]
  (repeat' split) <;> simp

@[simp] theorem State.nearSeen_parked (s : State) (a n : Nat) : (State.nearSeen s a n).parked = s.parked := by simp [State.nearSeen]

@[simp] theorem State.bar2Take_parked (a len : Nat) (corr uncorr : List Nat) (wait : Nat) (s : State) :
    (State.bar2Take a len corr uncorr wait s).parked = s.parked := by
  have hc : ∀ n u, (completed a n u).parked = u.parked := fun _ _ => rfl
  exact (hc (min len 4096) _).trans (by simp)

@[simp] theorem State.bar2Read_parked (a len : Nat) (corr uncorr : List Nat) (wait t : Nat) (s : State) :
    (State.bar2Read a len corr uncorr wait t s).parked = s.parked := by simp [State.bar2Read]

@[simp] theorem State.nearPut_parked (s : State) (a : Nat) (bs : List Byte) : (State.nearPut s a bs).parked = s.parked := by rfl

@[simp] theorem State.bar2Store_parked (a : Nat) (data : List Byte) (wait : Nat) (s : State) :
    (State.bar2Store a data wait s).parked = s.parked := by
  simp only [State.bar2Store]
  (repeat' split) <;> simp

@[simp] theorem State.bar2Write_parked (a : Nat) (data : List Byte) (wait t : Nat) (s : State) :
    (State.bar2Write a data wait t s).parked = s.parked := by simp [State.bar2Write]

@[simp] theorem State.memDone_parked (s : State) (r : MemReq) : (State.memDone s r).parked = s.parked := by
  cases r <;> simp [State.memDone]

@[simp] theorem State.memSync_parked (s : State) : (State.memSync s).parked = s.parked := by simp [State.memSync]

@[simp] theorem State.dmcCtl_parked (v : Nat) (s : State) : (State.dmcCtl v s).parked = s.parked := by simp [State.dmcCtl]

@[simp] theorem State.deliverMore_parked (k : Nat) (s : State) : (State.deliverMore k s).parked = s.parked := by
  induction k generalizing s with
  | zero => rfl
  | succ k ih => simp [State.deliverMore, ih]

@[simp] theorem State.deliverOut_parked (s : State) : (State.deliverOut s).parked = s.parked := State.deliverMore_parked _ s

@[simp] theorem State.wakeDone_parked (s : State) : (State.wakeDone s).parked = s.parked := by
  simp only [State.wakeDone]
  (repeat' split) <;> simp

@[simp] theorem State.armFull_parked (s : State) : (State.armFull s).parked = s.parked := by simp [State.armFull]

@[simp] theorem State.acqCtl_parked (v : Nat) (s : State) : (State.acqCtl v s).parked = s.parked := by
  simp only [State.acqCtl]
  (repeat' split) <;> simp

@[simp] theorem State.effClk_parked (a v : Nat) (old s : State) : (State.effClk a v old s).parked = s.parked := by
  simp only [State.effClk]
  (repeat' split) <;> simp

@[simp] theorem State.effAcq_parked (a v : Nat) (s : State) : (State.effAcq a v s).parked = s.parked := by simp [State.effAcq]

@[simp] theorem State.effect_parked (p : Port) (a v bm : Nat) (old s : State) : (State.effect p a v bm old s).parked = s.parked := by
  simp only [State.effect]
  (repeat' split) <;> simp

@[simp] theorem State.writeReg_parked (p : Port) (a be v : Nat) (s : State) : (State.writeReg p a be v s).parked = s.parked := by
  simp only [State.writeReg]
  (repeat' split) <;> simp

@[simp] theorem State.barWrite_parked (p : Port) (a be v : Nat) (s : State) : (State.barWrite p a be v s).parked = s.parked := by
  simp only [State.barWrite]
  (repeat' split) <;> simp

@[simp] theorem State.heldDone_parked (s : State) (h : Held) : (State.heldDone s h).parked = s.parked := by simp [State.heldDone]

@[simp] theorem State.wakeSync_parked (s : State) : (State.wakeSync s).parked = s.parked := by simp [State.wakeSync]

@[simp] theorem State.selfSync_parked (s : State) : (State.selfSync s).parked = s.parked := by simp [State.selfSync]

@[simp] theorem State.hrvSync_parked (s : State) : (State.hrvSync s).parked = s.parked := by simp [State.hrvSync]

/-! ### What follows a command -/

@[simp] theorem State.linkUsed_link (s : State) : s.linkUsed.hrv.link = s.hrv.link := by rfl

theorem State.link_of_parked {s u : State} (h : u.parked = s.parked) : u.hrv.link = s.hrv.link := congrArg Prod.snd h

/-- A request of the host takes the link neither up nor down. -/
theorem State.hostPerform_link (s : State) (r : HostReq) : (State.hostPerform s r).hrv.link = s.hrv.link := by
  cases r with
  | barRead a =>
    simp only [State.hostPerform, State.portRead]
    split
    · exact State.link_of_parked (s.hostExit_parked _)
    split
    · rfl
    split
    · rfl
    split
    · exact State.link_of_parked (State.readNow_parked _ _ s.linkUsed)
    · rfl
  | barWrite a be v =>
    simp only [State.hostPerform, State.portWrite]
    split
    · exact State.link_of_parked (s.hostExit_parked _)
    split
    · rfl
    split
    · rfl
    split
    · exact State.link_of_parked (State.barWrite_parked _ _ _ _ s.linkUsed)
    · rfl
  | bar2Read a n corr uncorr => exact State.link_of_parked (State.bar2Read_parked ..)
  | bar2Write a d => exact State.link_of_parked (State.bar2Write_parked ..)
  | config a => exact State.link_of_parked (State.configRead_parked ..)
  | configWrite r v => exact State.link_of_parked (State.configWrite_parked ..)
  | other => rfl

theorem State.hostComplete_link (s : State) : s.hostComplete.hrv.link = s.hrv.link := by
  have all : ∀ (l : List HostReq) (u : State), (l.foldl State.hostPerform u).hrv.link = u.hrv.link := fun l => by
    induction l with
    | nil => exact fun _ => rfl
    | cons r l ih => exact fun u => (ih _).trans (u.hostPerform_link r)
  rw [State.hostComplete]
  split
  · rfl
  · exact all _ _

theorem State.hostSync_link (s : State) : s.hostSync.hrv.link = s.hrv.link := by
  rw [State.hostSync]
  split
  · rfl
  · exact s.hostComplete_link

/-- Where the accesses held are performed, none is left (R135). -/
theorem State.heldSync_parked (s : State) : s.heldSync = s ∧ (s.held = [] ∨ s.coreRun = false) ∨ s.heldSync.held = [] := by
  rw [State.heldSync]
  split
  · next h => exact .inl ⟨rfl, by simpa using h⟩
  · exact .inr (congrArg Prod.fst (foldl_parked _ s.held { s with held := [] } fun u h => u.heldDone_parked h))

theorem State.heldSync_link (s : State) : s.heldSync.hrv.link = s.hrv.link := by
  rw [State.heldSync]
  split
  · rfl
  · exact (State.link_of_parked (s := { s with held := [] }) (foldl_parked _ _ _ fun u h => u.heldDone_parked h)).trans rfl

/-- What follows once the accesses held have had their turn. -/
def State.settleRest (old s : State) : State :=
  (State.idleSync old (State.armSync old s.memSync.seqSync)).hopSync.hrvSync.startEntry.irqSync

theorem settle_eq (old s : State) : State.settle old s = State.settleRest old s.selfSync.wakeSync.bootSync.hostSync.heldSync := rfl

theorem State.settleRest_parked (old s : State) : (State.settleRest old s).parked = s.parked := by simp [State.settleRest]

end Sys2Proof.Machine
end

