-- ==== Sys2Proof/Proofs/StationPort.lean ====
section
/-! PROOFS. The station port and its register window (O45). -/

namespace Sys2Proof

open Machine

/-! ### What follows a command leaves the window's data register as it is

Only a register access writes STP_SW_DATA. What follows a command performs one where an access held for the core domain, or a request of the
host, is waiting. -/

/-- The low half-word of the window's data reads as before. -/
def SameData (s u : State) : Prop := u.rd STP_SW_DATA_LO_data = s.rd STP_SW_DATA_LO_data

theorem SameRegs.data {s u : State} {l : List Fld} (h : SameRegs s u l) (hl : STP_SW_DATA_LO_data.key ∉ l.map Fld.key) : SameData s u := h _ hl

theorem sameData_wr (s : State) {f : Fld} (v : Nat) (h : f.key ≠ STP_SW_DATA_LO_data.key) : SameData s (s.wr f v) := State.rd_wr_ne _ _ _ _ h

theorem SameData.trans {s u w : State} (h : SameData s u) (g : SameData u w) : SameData s w := Eq.trans g h

theorem sameData_fold {α : Type} (g : State → α → State) (h : ∀ s a, SameData s (g s a)) (l : List α) : ∀ s, SameData s (l.foldl g s) := by
  induction l with
  | nil => exact fun _ => rfl
  | cons a l ih => exact fun s => (h s a).trans (ih _)

/-- An idle machine whose sample base is ADPLL-S has nothing to keep up with. -/
theorem selfSync_idle {s : State} (hx : s.rd CLK_STAT_s_src_act = 0) (hi : s.acqSt = 0) : ∃ b, s.selfSync = { s with tmb := b } := by
  have he : (s.refOutSync.on CLK_STAT_s_src_act && s.refOutSync.grid.run) = false := by simp [State.on, State.refOutSync, hx]
  have hid : s.refOutSync.idle = true := by
    simp only [State.acqSt] at hi
    simp [State.idle, State.acqSt, State.refOutSync, hi]
  refine ⟨s.refOutSync.tmb, ?_⟩
  rw [State.selfSync, State.extTrack, he]
  exact if_pos hid

theorem wakeSync_awake {s : State} (hm : s.mode ≠ 0) : s.wakeSync = s := by
  rw [State.wakeSync, State.wakeDone]
  split
  · rfl
  split
  · rfl
  · exact if_pos (.inl hm)

/-- The registers that start-up writes at the clocks, where ADPLL-C has FAILED and ADPLL-M is on its way. -/
def clockFlds : List Fld := [CLK_x_CTL_en 1, CLK_x_CTL_en 2, CLK_x_STAT_state 1, CLK_x_STAT_gated 1]

/-- Start-up starts ADPLL-C again, whose gate shuts, and lets ADPLL-M go on (R369). -/
theorem bootClocks_regs {s : State} (hc : s.pllSt 1 = 7) (hm : s.pllSt 2 = 1) : SameRegs s s.bootClocks clockFlds ∧ s.bootClocks.pllSt 1 = 1 := by
  have h1 : ClkStep s (s.stepPll 1) clockFlds ∧ (s.stepPll 1).pllSt 1 = 1 := by
    have e : (s.wr (CLK_x_CTL_en 1) 1).pllSt 1 = 7 := (State.rd_wr_ne _ _ _ _ (by decide)).trans hc
    have hw : ClkStep s (s.wr (CLK_x_CTL_en 1) 1) clockFlds := (ClkStep.refl s _).wr 1 (by decide)
    rw [State.stepPll, e, if_neg (by decide), if_pos rfl]
    exact ⟨hw.trans ((putPll_step _ _ _ _).trans ((pllTo_step _ 1 1).mono (by decide))), pllTo_state _ 1 1⟩
  have h2 : (s.stepPll 1).stepPll 2 = (s.stepPll 1).wr (CLK_x_CTL_en 2) 1 := by
    have e : ((s.stepPll 1).wr (CLK_x_CTL_en 2) 1).pllSt 2 = 1 :=
      (State.rd_wr_ne _ _ _ _ (by decide)).trans ((h1.1.regs _ (by decide)).trans hm)
    rw [State.stepPll, e, if_neg (by decide), if_neg (by decide)]
  rw [State.bootClocks, h2]
  exact ⟨fun f hf => (h1.1.wr (f := CLK_x_CTL_en 2) 1 (by decide)).regs f hf, (State.rd_mk ..).trans ((State.rd_wr_ne (s.stepPll 1) (CLK_x_CTL_en 2) (CLK_x_STAT_state 1) 1 (by decide)).trans h1.2)⟩

theorem bootNext_waits {s : State} (h2 : s.hks.step ≠ 2) (hr : s.pllRuns 1 = false) : s.bootNext = s := by
  rw [State.bootNext]
  split
  · rfl
  split
  · contradiction
  · rw [hr]
    rfl
  · rfl

theorem bootSync_regs {s : State} (hc : s.pllSt 1 = 7) (hm : s.pllSt 2 = 1) : SameRegs s s.bootSync clockFlds := by
  have hs : s.pllRuns 1 = false := by simp [State.pllRuns, hc]
  by_cases h2 : s.hks.step = 2
  · have hn : s.bootNext = s ∨ s.bootNext = s.bootClocks := by
      unfold State.bootNext
      split
      · exact .inl rfl
      split
      · split
        · exact .inl rfl
        · exact .inr rfl
      · next h3 => omega
      · exact .inl rfl
    rw [State.bootSync, if_pos (.inl h2)]
    obtain e | e := hn
    · rw [e, e]
      exact sameRegs_self s _
    · obtain ⟨hb, h1⟩ := bootClocks_regs hc hm
      rw [e, bootNext_waits (by decide : (3 : Nat) ≠ 2) (by simp [State.pllRuns, h1])]
      exact hb
  · rw [State.bootSync]
    split
    · rw [bootNext_waits h2 hs, bootNext_waits h2 hs]
      exact sameRegs_self s _
    · exact sameRegs_self s _

/-- Without a link no request of the host does anything, those that wait included. -/
theorem hostSync_unlinked {s : State} (hm : s.mode ≠ 0) (hl : s.hrv.link = none) : SameData s s.hostSync := by
  have all : ∀ (l : List HostReq) (u : State), u.mode ≠ 0 → u.hrv.link = none → SameData u (l.foldl State.hostPerform u) := fun l => by
    induction l with
    | nil => exact fun _ _ _ => rfl
    | cons r l ih =>
      intro u um ul
      obtain ⟨-, -, hr⟩ := hostPerform_unlinked r um ul
      exact (hr.data (by decide)).trans (ih _ (by rwa [State.mode, hr _ (by decide)]) (by rwa [State.hostPerform_link]))
  rw [State.hostSync, State.hostComplete]
  split
  · rfl
  split
  · rfl
  · exact all _ _ hm hl

theorem memSync_gated {s : State} (h : s.coreRun = false) : s.memSync = s := if_pos (by simp [State.memRuns, h])

theorem setScript_data (s : State) (k : Option Script) : SameData s (s.setScript k) :=
  (State.rd_wr_ne _ _ _ _ (by decide)).trans ((State.rd_wr_ne _ _ _ _ (by decide)).trans (State.rd_mk ..))

theorem hostScript_data (s : State) : SameData s s.hostScript := by
  rw [State.hostScript]
  split
  · split
    · exact setScript_data _ _
    · rfl
  · rfl

theorem endBoot_data (s : State) (k : Script) (e : Nat) : SameData s (State.endBoot s k e) := by
  rw [State.endBoot]
  split
  · exact (sameData_wr s (f := HKS_BOOT_err) e (by decide)).trans (sameData_wr _ (f := HKS_BOOT_done) 1 (by decide))
  · rfl

theorem scriptErr_data (s : State) (k : Script) (e : Nat) : SameData s (s.scriptErr k e) := by
  have hr : SameData s (State.errRegs s k e) := (setScript_data s none).trans
    ((((sameData_wr _ _ (by decide)).trans (sameData_wr _ _ (by decide))).trans (sameData_wr _ _ (by decide))).trans (sameData_wr _ _ (by decide)))
  rw [scriptErr_eq]
  exact (hr.trans (State.rd_bbox _ _ _ _ (by decide))).trans (endBoot_data _ k e)

theorem seqSync_data (s : State) : SameData s s.seqSync := by
  have hc : ∀ u : State, SameData u u.scriptCheck := fun u => by
    rw [State.scriptCheck]
    split
    · next k _ =>
      split
      · refine SameData.trans ?_ (scriptErr_data _ _ _)
        split
        · exact (fetches_fetched u k).2.data (by decide)
        · rfl
      · rfl
    · rfl
  rw [State.seqSync]
  split
  · rfl
  · exact (hostScript_data s).trans (hc _)

theorem hrvArm_data (s : State) : SameData s s.hrvArm := by
  have hk : ∀ n, (HRV_RINGn_STAT_bad n).key ≠ STP_SW_DATA_LO_data.key := fun n => by simp only [Fld.key, HRV_RINGn_STAT_bad, STP_SW_DATA_LO_data]; omega
  have hs : ∀ n, (HRV_RINGn_STAT_stream n).key ≠ STP_SW_DATA_LO_data.key := fun n => by
    simp only [Fld.key, HRV_RINGn_STAT_stream, STP_SW_DATA_LO_data]; omega
  unfold State.hrvArm
  extract_lets h s1 st k s2
  have h2 : SameData s s2 := by
    refine SameData.trans (show SameData s s1 from rfl) (sameData_fold _ (fun u n => ?_) _ s1)
    dsimp only
    split
    · rfl
    · rfl
  split
  · refine (h2.trans (sameData_wr _ _ (hs _))).trans (sameData_fold _ (fun u n => ?_) _ _)
    split
    · exact sameData_wr _ _ (hk _)
    · rfl
  · exact h2

theorem armSync_data (old s : State) : SameData s (State.armSync old s) := by
  rw [State.armSync]
  split
  · exact hrvArm_data s
  · rfl

theorem idleSync_idle {old s : State} (h : old.acqSt = 0) : State.idleSync old s = s := if_neg fun x => x.1 h

theorem hopSync_data (s : State) : SameData s s.hopSync := by
  have hf : SameData s s.hopForceNow := by
    rw [State.hopForceNow]
    split
    · split
      · exact s.rd_gatherAbort 1 (gatherQuiet_of (by decide)) (by decide)
      · rfl
    · rfl
  rw [State.hopSync]
  split
  · rfl
  · exact hf.trans ((hopSettled_regs _).data (by decide))

/-- Harvest delivers nothing without a link; what was put off for deep memory may be stored. -/
theorem hrvSync_data {s : State} (h : s.hrvRuns = false) : SameData s s.hrvSync := by
  rw [State.hrvSync]
  split
  · rfl
  · rw [cqResume_gated h]
    exact ((serves_deliverOut s).2.1.data (by decide)).trans ((streamDone_sends _).rd _)

theorem startEntry_data (s : State) : SameData s s.startEntry := by
  rw [State.startEntry]
  split
  · exact (sameData_wr { s with hks := { s.hks with entering := true } } _ (by decide)).trans (sameData_wr _ _ (by decide))
  · rfl

/-- With the core domain gated and no link, nothing that follows writes the window's data. -/
theorem settleRest_data {old s : State} (hi : old.acqSt = 0) (hc : s.coreRun = false) (hl : s.hrv.link = none) : SameData s (State.settleRest old s) := by
  have hrun : ∀ u : State, u.parked = s.parked → u.hrvRuns = false := fun u h => by
    simp [State.hrvRuns, State.link_of_parked h, hl]
  rw [State.settleRest, memSync_gated hc, idleSync_idle hi]
  exact ((((seqSync_data s).trans (armSync_data old _)).trans (hopSync_data _)).trans (hrvSync_data (hrun _ (by simp)))).trans
    ((startEntry_data _).trans ((irqSync_sends _).rd _))

/-- A machine that reads so far as it is stated, and becomes one with an access still held and no link, keeps the window's data: its core
domain was gated before the accesses held had their turn. -/
theorem settle_data {old u : State} (hi : old.acqSt = 0) (ha : u.acqSt = 0) (hx : u.rd CLK_STAT_s_src_act = 0) (hm : u.mode ≠ 0)
    (hc : u.pllSt 1 = 7) (hp : u.pllSt 2 = 1) (hh : (State.settle old u).held ≠ []) (hl : (State.settle old u).hrv.link = none) :
    SameData u (State.settle old u) := by
  obtain ⟨b, eb⟩ := selfSync_idle hx ha
  have hreg : ∀ f, ({ u with tmb := b } : State).rd f = u.rd f := fun _ => rfl
  have e0 : u.selfSync.wakeSync = { u with tmb := b } := by
    rw [eb]
    exact wakeSync_awake hm
  rw [settle_eq, e0] at hh hl ⊢
  have h1 := bootSync_regs (s := { u with tmb := b }) hc hp
  have hm1 : ({ u with tmb := b } : State).bootSync.mode ≠ 0 := by rwa [State.mode, h1 _ (by decide)]
  replace h1 : SameData u ({ u with tmb := b } : State).bootSync := h1.data (by decide)
  generalize ({ u with tmb := b } : State).bootSync = v at *
  have hrest := fun w => State.settleRest_parked old w
  have hlink : v.hostSync.heldSync.hrv.link = none := (State.link_of_parked (hrest _)).symm.trans hl
  have hv : v.hrv.link = none := by rwa [State.heldSync_link, State.hostSync_link] at hlink
  have hheld : v.hostSync.heldSync.held ≠ [] := fun h => hh ((congrArg Prod.fst (hrest _)).trans h)
  obtain ⟨e, hg⟩ | h := v.hostSync.heldSync_parked
  · rw [e] at hheld hlink ⊢
    exact (h1.trans (hostSync_unlinked hm1 hv)).trans (settleRest_data hi (hg.resolve_left hheld) hlink)
  · exact absurd h hheld

/-! ### A read of DMC_MIG through the window, with an access held -/

/-- A migration that has passed the place its pace allows only shows how far it is. -/
theorem migNow_past {s : State} (hb : s.on DMC_MIG_busy = true) (h : min 1024 (s.migRoomAt s.tmb.kt / 2 ^ 31) < s.rd DMC_MIG_done) :
    s.migNow = ((s.draw 1).2.wr DMC_MIG_done (s.rd DMC_MIG_done)).migPaced s.tmb.kt := by
  have e : min 1024 (s.migRoomAt s.tmb.kt / 2 ^ 31) - s.rd DMC_MIG_done + 1 = 1 := by omega
  unfold State.migNow
  dsimp only
  rw [e, Nat.mod_one, hb]
  rfl

/-- A machine whose start-up waits for the clocks, whose DMC_MIG.done is wider than its field, with the station reading DMC_MIG through the window
and one access of a script held. -/
def heldWindow : State :=
  { State.reset with
    hks := { Hks.new with rails := true, step := 2 }, stp := { State.reset.stp with cmd := some false }, held := [⟨true, .script, 0, 0, 0⟩],
    fields := [(HKS_BOOT_done.key, 1), (STP_CFG_en.key, 1), (STP_CFG_ind_en.key, 1), ((CLK_x_STAT_gated 1).key, 0), ((CLK_x_STAT_state 1).key, 7),
      ((CLK_x_STAT_state 2).key, 1), (DMC_MIG_busy.key, 1), (DMC_MIG_done.key, 2 ^ 11), (STP_SW_ADDR_LO_addr.key, 0x24),
      (STP_SW_ADDR_HI_addr.key, 0xC), (NMC_STAT_clear_busy.key, 0), (DMC_STAT_clear_busy.key, 0)] }

/-- That machine with the command taken up. -/
def heldTaken : State := { (heldWindow.advance 0).wr STP_SW_STAT_busy 0 with stp := { heldWindow.stp with cmd := none } }

/-- With DMC_MIG brought up to date, which cuts `done` to its field. -/
def heldCut : State := ((heldTaken.draw 1).2.wr DMC_MIG_done (2 ^ 11)).migPaced 0

/-- The machine that the read leaves. -/
def heldRead : State := State.readBack .station (heldCut.barRead DMC_MIG_busy.addr).1 (heldCut.barRead DMC_MIG_busy.addr).2

theorem slotFree_heldWindow : SlotFree heldWindow := fun c h => by simp [heldWindow, State.reset, Inp.new] at h

theorem freshen_heldTaken : heldTaken.freshen heldTaken.windowAddr = heldCut := by
  have ha : heldTaken.windowAddr = DMC_MIG_busy.addr := by decide +kernel
  have hm : heldTaken.measAt DMC_MIG_busy.addr = none := by decide +kernel
  have hf : heldTaken.freshen DMC_MIG_busy.addr = heldTaken.migNow := by
    rw [State.freshen, hm]
    rfl
  rw [ha, hf, migNow_past (by decide +kernel) (by decide +kernel)]
  rfl

theorem windowDone_heldWindow : State.windowDone false 0 heldWindow = heldRead := by
  have hs : heldCut.restartDue = heldCut := by decide +kernel
  have ho : heldTaken.windowOpen heldTaken.windowAddr = true := by decide +kernel
  have hr : State.windowDone false 0 heldWindow = State.portRead .station heldTaken.windowAddr heldTaken := by
    rw [State.windowDone]
    dsimp only
    rw [if_neg (by decide +kernel)]
    exact (if_neg (by rw [Bool.not_eq_false]; exact ho)).trans (if_neg Bool.false_ne_true)
  have hp : State.portRead .station heldTaken.windowAddr heldTaken = State.readNow .station heldTaken.windowAddr heldTaken := by
    rw [State.portRead, ho, (by decide +kernel : heldTaken.coreRun = true)]
    rfl
  rw [hr, hp, State.readNow, State.regRead, freshen_heldTaken, hs]
  rfl

theorem exec_heldWindow : exec (.windowRead 0) heldWindow = .next (State.settle heldWindow heldRead) := by
  rw [exec_windowRead, State.performOnAt, performOn_next _ _ ⟨rfl, rfl⟩, reached_free _ _ slotFree_heldWindow, windowDone_heldWindow]

/-- Start-up has gated ADPLL-C by the time the accesses held have their turn. -/
theorem settle_heldRead : (State.settle heldWindow heldRead).held = [⟨true, .script, 0, 0, 0⟩] ∧ (State.settle heldWindow heldRead).hrv.link = none
    ∧ (State.settle heldWindow heldRead).rd STP_SW_DATA_LO_data = 0 := by decide +kernel

/-- The registers that steer what follows the read. -/
theorem heldWindow_steers : heldWindow.acqSt = 0 ∧ heldWindow.rd CLK_STAT_s_src_act = 0 ∧ heldWindow.mode ≠ 0 ∧ heldWindow.pllSt 1 = 7
    ∧ heldWindow.pllSt 2 = 1 := by decide +kernel

/-- Refutes O45: of a window read the statement says that STP_SW_DATA shows the word that the register holds before, every register but those of
the window as it was; the model, to answer a read of DMC_MIG, first writes its `done` anew. On a machine whose `done` is wider than its field
(`heldWindow`), which the statement admits, the word it answers is another. Nothing that follows the command can make up for it: STP_SW_DATA
is written there only by an access held for the core domain, and start-up gates ADPLL-C before those have their turn, for one is held still. -/
theorem not_stationPort : ¬ Obligations.StationPort := by
  unfold Obligations.StationPort
  intro h
  obtain ⟨-, -, h⟩ := h
  obtain ⟨-, h, -⟩ := h heldWindow false 0 ⟨rfl, rfl⟩ rfl (by decide +kernel)
  obtain ⟨u, hu, -, -, hlo, -, -, hr⟩ := (h (by decide +kernel) rfl rfl).becomes slotFree_heldWindow exec_heldWindow
  replace hr := hr (.inl rfl)
  obtain ⟨hi, hx, hm, hc, hp⟩ := heldWindow_steers
  obtain ⟨hheld, hlink, hdata⟩ := settle_heldRead
  rw [← hu] at hheld hlink hdata
  have hsame := settle_data hi ((hr _ (by decide)).trans hi) ((hr _ (by decide)).trans hx) (by rwa [State.mode, hr _ (by decide)])
    ((hr _ (by decide)).trans hc) ((hr _ (by decide)).trans hp) (by rw [hheld]; exact List.cons_ne_nil _ _) hlink
  have hword : heldTaken.barWord heldWindow.windowAddr % 2 ^ 16 = 2 ^ 11 := by decide +kernel
  rw [SameData, hdata, hlo] at hsame
  exact absurd (hsame.trans hword) (by decide)

end Sys2Proof
end
